-- ==== Sys2Proof/Word.lean ====
section
/-! DEFINITION. The word types of the XN7448 model and the plain table type. -/

namespace Sys2Proof

/-- One byte of a payload, a frame or a record (R4: least significant byte first in every integer). -/
abbrev Byte := BitVec 8

/-- A 32-bit register, index or wrapping counter (R495). -/
abbrev Word := BitVec 32

/-- A 64-bit value: an endpoint address, a bus address, a queue word (R143, R33). -/
abbrev DWord := BitVec 64

/-- A sparse table: keys strictly rising; a key that is not listed holds the table's reset value. -/
abbrev Tbl (α : Type) := List (Nat × α)

end Sys2Proof
end

