-- ==== Sys2Proof/Syntax.lean ====
section
/-! DEFINITION. The commands of the XN7448: one constructor of Instr per row of spec/opcode_table.json.
A row that is a mailbox opcode carries the request; a row that is an event carries what happens outside the model:
the unit it names, a measured value, the words on a link, an instant. -/

namespace Sys2Proof

/-- A request copied from a mailbox (Table 03-2): LENGTH is the payload's length. -/
structure Req where
  mbx : Nat
  tag : Word
  payload : List Byte
  deriving DecidableEq, Repr

/-- A link direction whose audit counts a hardware upset has changed: what the comparison reads (R15). -/
structure AuditUpset where
  dir : Nat
  sent : Nat
  received : Nat
  released : Nat
  returned : Nat
  held : Nat
  deriving DecidableEq, Repr

/-- Option groups that fail in the first and in the second load attempt (R428). -/
structure OptLoad where
  bad1 : BitVec 6
  bad2 : BitVec 6
  deriving DecidableEq, Repr

/-- Flash slots whose content no longer verifies (R437): signatures, digests or rollback counters. -/
structure BootVerify where
  activeBad : Bool
  fallbackBad : Bool
  stagingBad : Bool
  dirABad : Bool := false
  dirBBad : Bool := false
  deriving DecidableEq, Repr

/-- Outcome of one rank's DDR-4 training (R440): the failing step, if any, and its size. -/
structure RankTrain where
  rank : Nat
  failedStep : Option Nat
  mib : Nat
  deriving DecidableEq, Repr

/-- What one attempt of a training step measures (Table 17-3). -/
structure TrainTry where
  /-- registers 0x00 to 0x09 as read in step 1 -/
  regs : List Nat
  /-- per pair D0, D1, frame: first and last tap of the longest good run, clock inverted -/
  runs : List (Nat × Nat × Bool)
  /-- word boundary found, and TX_LOCK read 1 -/
  wordOk : Bool
  slip : Nat
  rxErr : Nat
  txErr : Nat
  /-- every loopback sample returned unchanged and in order, without slot error -/
  loopOk : Bool
  loopDelay : Nat
  deriving DecidableEq, Repr

/-- A training: whether IQC_ID ever read MAGIC, and the attempts made, in order. -/
structure TrainIn where
  magicSeen : Bool
  tries : List TrainTry
  deriving DecidableEq, Repr

/-- What an eNVM scrub slice found (R388): words corrected, uncorrectable words by area and offset, and the end of a pass. -/
structure EnvmScrubIn where
  corrected : Nat
  ue : List (Nat × Nat)
  passEnds : Bool
  deriving DecidableEq, Repr

/-- One slot of an RX IQ link: the samples, the status word and the copy that D1 carries in complement (R66). -/
structure IqSlot where
  i : BitVec 16
  q : BitVec 16
  status : BitVec 16
  copy : BitVec 16
  deriving DecidableEq, Repr

/-- A channel power: the sum of I² + Q² over n samples, after the measurement filter (R69). -/
structure Power where
  sum : Nat
  n : Nat
  deriving DecidableEq, Repr

/-- What a lane's correlator finds beside the power: whether it is a deep-mode sync word, the octets of preamble and which of the two SFDs of a
SUN FSK SHR, the 32 bits in the place of the sync word and the carrier offset in Hz of a deep-mode frame (R77, R79, R80). -/
structure ShrIn where
  deep : Bool
  preamble : Nat
  sfd : Nat
  sync : Word
  offset : Int
  deriving DecidableEq, Repr

/-- An attempt at a campaign's step: the endpoint, and the channel power of a listen period that its path may need (R325; 05 R112). -/
structure AttemptIn where
  handle : Nat
  power : Power
  deriving DecidableEq, Repr

/-- The verdict of a tamper input's filter: active for FILT, or inactive for FILT (R410). -/
structure TamperIn where
  input : Nat
  active : Bool
  deriving DecidableEq, Repr

/-- What a start's core BIST finds beside failed islands: the code of a failed proof test, the SRAM repairs made, and the JSEQ and word of each
journal entry whose cells no longer read as written (R441; 19 R477, R487; 14 R388). -/
structure CoreBistIn where
  proof : Option Nat
  repairs : List Nat
  journal : List (Nat × Nat)
  deriving DecidableEq, Repr

/-- What the BIST of the data plane finds beside failed islands: failed lanes, and the SRAM repairs made (R452; 19 R487). -/
structure LaneBistIn where
  lanes : List Nat
  repairs : List Nat
  deriving DecidableEq, Repr

/-- The outcome of an island's BIST, and the SRAM repairs made (R485; 19 R487). -/
structure IslandBistIn where
  pass : Bool
  repairs : List Nat
  deriving DecidableEq, Repr

/-- What the end of a frame measures: the power, carrier offset in 10 Hz, SNR in 0.1 dB, the end time at the antenna, and the octets of
the check sequence as received (R69, R77, R80, R87, R88). -/
structure FrameEnd where
  power : Power
  cfo : Int
  snr : Int
  endTime : Nat
  fcs : List Byte
  deriving DecidableEq, Repr

/-- A header as decoded on the line: its 24 bits and CRC-8, its mean SNR in 0.1 dB, and the engine time at which its preamble was detected
(R136, R137, R159). -/
structure PlcHdrIn where
  bits : BitVec 24
  crc : Byte
  snr : Int
  at_ : Nat
  deriving DecidableEq, Repr

/-- A payload symbol: its SNR in 0.1 dB, the per mille of its samples that the ADC clipped, its soft bits, and how many more octets the
decoder has ready with it (R140). -/
structure PlcSymIn where
  snr : Int
  clipPm : Nat
  soft : List Int
  ready : Nat
  deriving DecidableEq, Repr

/-- The end of a PLC frame: the engine time at which its last symbol ended, and the mean SNR of the eight tone groups in 0.1 dB
(R142, R150, R153). -/
structure PlcEnd where
  endTime : Nat
  groups : List Int
  deriving DecidableEq, Repr

/-- What a calibration measures: loop gain in 0.01 dB, impedance in 0.01 Ω and phase in 0.1° at the three points, LD_FAULT_N during a tone,
and the engine time (R172, R451). -/
structure CalIn where
  gain : Int
  zMag : List Nat
  zPhase : List Int
  ldFault : Bool
  time : Nat
  deriving DecidableEq, Repr

/-- A DRAM burst as it is read: its rank and row, the symbols that are wrong, each as its device (0 to 4) and beat (0 to 7), and whether the
burst came from a wrong address (R211). -/
structure BurstErr where
  rank : Nat
  row : Nat
  syms : List (Nat × Nat)
  wrongAddr : Bool
  deriving DecidableEq, Repr

/-- The bursts with errors that a context fetch meets: the burst's place and its errors. Places 0 to 15 are the context's primary bursts, 16
and 17 the key-blob bursts, 18 to 25 the mirror of bursts 0 to 7, read when one of those is uncorrectable (R219, R230). -/
structure FetchIn where
  bursts : List (Nat × BurstErr)
  deriving DecidableEq, Repr

/-- The item that lies at an uncorrectable burst of a region whose layout the manual leaves open (Table 08-1): a link, a route path, a zone, a
calendar, a campaign's content, an endpoint's interval cells, a custody entry, an operation. -/
inductive UeItem where
  | none | link (i : Nat) | path (i : Nat) | zone (z : Nat) | calendar (k : Nat) | camp (c : Nat) | cells (h : Nat)
  | custody (h fcnt : Nat) | op (id : Nat)
  deriving DecidableEq, Repr

/-- An uncorrectable word of on-chip SRAM: of the context cache, at a byte of the handle's context; of the frame store, in the slot of a
frame; or under a running operation (R229, R230). -/
inductive SramUe where
  | none | cache (h byte : Nat) | frame (id : Nat) | op (id : Nat)
  deriving DecidableEq, Repr

/-- What the patrol scrub meets at the burst where it stands: the burst, the burst of the context mirror that would rebuild it, the item that
lies there, and an uncorrectable SRAM word found since the last burst (R211 to R214, R230). -/
structure ScrubIn where
  here : BurstErr
  mirror : BurstErr
  item : UeItem
  sram : SramUe
  deriving DecidableEq, Repr

/-- A descriptor at hand (Table 08-4): its bytes as the ring holds them; how far its transfer has come, when it has not ended yet; the byte
at which the engine-side buffer proves uncorrectable, when one does, with the engine address of that burst (R226, R227, R230). -/
structure DescIn where
  raw : List Byte
  upTo : Option Nat
  ueAt : Option (Nat × Nat)
  deriving DecidableEq, Repr
/-- What a hardware upset changes on the way to the transmit gate: the second core's release token, its sealed frame (R473, R474). -/
structure GateUpset where
  tokenBad : Bool
  sealBad : Bool
  deriving DecidableEq, Repr

/-- The commands, in the order of the table. -/
inductive Instr where
  /-- REGISTER_WRITE (R495) -/
  | registerWrite (addr : Nat) (be : BitVec 4) (data : Word)
  /-- ETIME_LO_READ (R497) -/
  | etimeLoRead
  /-- RST_CTRL_SYSRST (R416) -/
  | rstCtrlSysrst (data : Word)
  /-- MBX_ENABLE (R35) -/
  | mbxEnable (m : Nat)
  /-- MBX_DISABLE (R38) -/
  | mbxDisable (m : Nat)
  /-- MBX_RESET (R38) -/
  | mbxReset (m : Nat)
  /-- MBX_REQ_PI_WRITE (R37) -/
  | mbxReqPiWrite (m : Nat) (v : Word)
  /-- MBX_RSP_CI_WRITE (R43) -/
  | mbxRspCiWrite (m : Nat) (v : Word)
  /-- REQUEST_FETCH (R36) -/
  | requestFetch (m : Nat) (bytes : List Byte)
  /-- RING_BUS_ERROR (R37) -/
  | ringBusError (m : Nat) (write : Bool)
  /-- RESPONSE_POST (R43) -/
  | responsePost (m : Nat)
  /-- REQUEST_WAIT_END (R44) -/
  | requestWaitEnd (op : Nat)
  /-- EVT_PEND_CLEAR (R63) -/
  | evtPendClear (k : Nat) (data occurring : Word)
  /-- EVT_EN_WRITE (R63) -/
  | evtEnWrite (k : Nat) (data : Word)
  /-- EVT_FORCE (R500) -/
  | evtForce (k : Nat) (data : Word)
  /-- MSIX_UNMASK (R63) -/
  | msixUnmask (vector : Option Nat)
  /-- NOP 0x0100 (R49) -/
  | nop (r : Req)
  /-- CONFIG_BEGIN 0x0101 (R57) -/
  | configBegin (r : Req)
  /-- CONFIG_COMMIT 0x0102 (R58) -/
  | configCommit (r : Req)
  /-- CONFIG_ABORT 0x0103 (R57) -/
  | configAbort (r : Req)
  /-- CONFIG_STATE_GET 0x0104 (R49) -/
  | configStateGet (r : Req)
  /-- CAPS_GET 0x0110 (R50) -/
  | capsGet (r : Req)
  /-- PARAM_BLOCK_WRITE 0x0120 (R54) -/
  | paramBlockWrite (r : Req)
  /-- PARAM_BLOCK_READ 0x0121 (R526) -/
  | paramBlockRead (r : Req)
  /-- COMMIT_INSTANT (R59) -/
  | commitInstant (hwFault : Bool)
  /-- FLIT_TRANSFER (R11) -/
  | flitTransfer (d : Nat)
  /-- CREDIT_RETURN (R11) -/
  | creditReturn (d : Nat)
  /-- CREDIT_AUDIT (R15) -/
  | creditAudit (upsets : List AuditUpset)
  /-- FENCE_WAIT_EXPIRY (R18) -/
  | fenceWaitExpiry (d : Nat)
  /-- MONITOR_SAMPLE (R28) -/
  | monitorSample (outOfRange : BitVec 8)
  /-- C1_RECOVERY (R28) -/
  | c1Recovery
  /-- IQ_SLOT_RECEIVE (R68) -/
  | iqSlotReceive (p : Nat) (slot : IqSlot)
  /-- RXCLK_STOP (R516) -/
  | rxclkStop (p : Nat)
  /-- OVERLOAD_WINDOW (R92) -/
  | overloadWindow (p : Nat)
  /-- SHR_DETECT (R79) -/
  | shrDetect (lane : Nat) (power : Power) (shr : ShrIn)
  /-- PHR_DECODE (R87) -/
  | phrDecode (lane : Nat) (phr : BitVec 16)
  /-- PSDU_WORD_PUSH (R87) -/
  | psduWordPush (lane : Nat) (word : DWord)
  /-- LANE_FRAME_END (R88) -/
  | laneFrameEnd (lane : Nat) (fin : FrameEnd)
  /-- OVERFLOW_TRAILER_PUSH (R89) -/
  | overflowTrailerPush (lane : Nat) (fin : FrameEnd)
  /-- BLANKING_START (R86) -/
  | blankingStart (p : Nat) (t : Nat)
  /-- BLANKING_END (R85) -/
  | blankingEnd (p : Nat)
  /-- LANE_ASSIGN 0x0210 (R84) -/
  | laneAssign (r : Req)
  /-- LANE_SWITCH (R84) -/
  | laneSwitch (lane : Nat)
  /-- LANE_TABLE_GET 0x0211 (R82) -/
  | laneTableGet (r : Req)
  /-- LANE_STATS_GET 0x0212 (R90) -/
  | laneStatsGet (r : Req)
  /-- LANE_STATS_CLEAR 0x0213 (R84) -/
  | laneStatsClear (r : Req)
  /-- RF_PORT_STATUS_GET 0x0214 (R91) -/
  | rfPortStatusGet (r : Req)
  /-- BAND_PROFILE_SET 0x0220 (R103) -/
  | bandProfileSet (r : Req)
  /-- BAND_PROFILE_GET 0x0221 (R128) -/
  | bandProfileGet (r : Req)
  /-- DUTY_STATUS_GET 0x0222 (R128) -/
  | dutyStatusGet (r : Req)
  /-- SECTOR_STATUS_GET 0x0223 (R128) -/
  | sectorStatusGet (r : Req)
  /-- CONNECT_OPEN 0x0224 (R125) -/
  | connectOpen (r : Req)
  /-- CONNECT_CLOSE 0x0225 (R126) -/
  | connectClose (r : Req)
  /-- AIR_STATE_GET 0x0226 (R128) -/
  | airStateGet (r : Req)
  /-- BEACON_DUE (R104) -/
  | beaconDue (p : Nat) (b : Nat)
  /-- LBT_LISTEN_END (R112) -/
  | lbtListenEnd (p : Nat) (power : Power)
  /-- LBT_BACKOFF_END (R112) -/
  | lbtBackoffEnd (p : Nat)
  /-- BEACON_TX_START (R104) -/
  | beaconTxStart (p : Nat) (t : Nat)
  /-- BEACON_MISS (R127) -/
  | beaconMiss (p : Nat)
  /-- FALLBACK_RETRY (R127) -/
  | fallbackRetry (p : Nat)
  /-- DEEP_BEACON_TX (R106) -/
  | deepBeaconTx (p : Nat) (b : Nat)
  /-- LINK_ACK_TX (R109) -/
  | linkAckTx (p : Nat) (lane : Nat)
  /-- DOWNLINK_TX (R119) -/
  | downlinkTx (p : Nat) (handle : Nat) (t : Nat)
  /-- TRANSMISSION_END (R113) -/
  | transmissionEnd (p : Nat) (t : Nat)
  /-- CHARGE_EXPIRY (R113) -/
  | chargeExpiry (p sb : Nat)
  /-- ARRIVAL_WINDOW_CLOSE (R121) -/
  | arrivalWindowClose (handle : Nat)
  /-- SUPERVISION_TIMEOUT (R121) -/
  | supervisionTimeout (handle : Nat)
  /-- CONNECTION_EVENT (R124) -/
  | connectionEvent (handle : Nat) (power : Power)
  /-- CONNECT_REPLY_TIMEOUT (R125) -/
  | connectReplyTimeout (handle : Nat)
  /-- OPEN_TIMEOUT (R125) -/
  | openTimeout (handle : Nat)
  /-- CONN_SUPERVISION_EXPIRY (R126) -/
  | connSupervisionExpiry (handle : Nat)
  /-- LD_FAULT (R132) -/
  | ldFault (q : Nat) (t : Nat)
  /-- LD_FAULT_RETRY (R132) -/
  | ldFaultRetry (q : Nat)
  /-- TRANSACTION_START (R158) -/
  | transactionStart (group : Nat) (t : Nat)
  /-- PLC_HEADER_DECODE (R150) -/
  | plcHeaderDecode (q : Nat) (hdr : PlcHdrIn)
  /-- PLC_SYMBOL_RECEIVE (R140) -/
  | plcSymbolReceive (q : Nat) (sym : PlcSymIn)
  /-- PLC_FRAME_END (R150) -/
  | plcFrameEnd (q : Nat) (fin : PlcEnd)
  /-- PLC_OVERFLOW_TRAILER (R151) -/
  | plcOverflowTrailer (q : Nat) (fin : PlcEnd)
  /-- POLL_DEADLINE (R159) -/
  | pollDeadline (group : Nat)
  /-- RETRY_GAP_EXPIRY (R161) -/
  | retryGapExpiry (group : Nat)
  /-- READ_DUE (R160) -/
  | readDue (handle : Nat)
  /-- CUSTODY_MAX_EXPIRY (R160) -/
  | custodyMaxExpiry (handle : Nat)
  /-- NBR_DUE (R160) -/
  | nbrDue
  /-- UNREACH_RETRY (R163) -/
  | unreachRetry (handle : Nat)
  /-- ROUTE_RECALC (R167) -/
  | routeRecalc
  /-- LINK_AGE_EXPIRY (R164) -/
  | linkAgeExpiry (i : Nat)
  /-- QUEUE_PUSH (R144) -/
  | queuePush (q : Nat) (word : DWord) (last : Bool) (code : BitVec 16)
  /-- QUEUE_DOOM (R144) -/
  | queueDoom (q : Nat)
  /-- QUEUE_READ (R145) -/
  | queueRead (q : Nat)
  /-- DROP_REST (R146) -/
  | dropRest (q : Nat)
  /-- NOTICE_POP (R147) -/
  | noticePop (q : Nat)
  /-- PLC_CALIBRATION_DONE (R451) -/
  | plcCalibrationDone (q : Nat) (m : CalIn)
  /-- PLC_PORT_STATUS_GET 0x0300 (R170) -/
  | plcPortStatusGet (r : Req)
  /-- PLC_CAL_GET 0x0301 (R170) -/
  | plcCalGet (r : Req)
  /-- PLC_RECALIBRATE 0x0302 (R170) -/
  | plcRecalibrate (r : Req)
  /-- PLC_LINK_GET 0x0303 (R170) -/
  | plcLinkGet (r : Req)
  /-- PLC_ROUTE_GET 0x0304 (R170) -/
  | plcRouteGet (r : Req)
  /-- PLC_ROUTE_PROPOSALS_GET 0x0305 (R170) -/
  | plcRouteProposalsGet (r : Req)
  /-- PLC_ROUTE_SET 0x0306 (R170) -/
  | plcRouteSet (r : Req)
  /-- PLC_ROUTE_UNPIN 0x0307 (R170) -/
  | plcRouteUnpin (r : Req)
  /-- PLC_POLL_NOW 0x0308 (R170) -/
  | plcPollNow (r : Req)
  /-- DIRECTORY_AIR_PACKET (R193) -/
  | directoryAirPacket (lane : Nat)
  /-- DIRECTORY_PLC_PACKET (R194) -/
  | directoryPlcPacket (q : Nat)
  /-- SERIAL_RELEASE (R197) -/
  | serialRelease (frame : Nat)
  /-- FETCH_BUFFER_FREE (R219) -/
  | fetchBufferFree
  /-- CONTEXT_FETCH_COMPLETE (R219) -/
  | contextFetchComplete (handle : Nat) (ue : FetchIn)
  /-- WRITEBACK_DONE (R217) -/
  | writebackDone (handle : Nat)
  /-- ENROL 0x0400 (R186) -/
  | enrol (r : Req)
  /-- WITHDRAW 0x0401 (R188) -/
  | withdraw (r : Req)
  /-- RETIREMENT_COMPLETE (R184) -/
  | retirementComplete (handle : Nat)
  /-- RETIRE_HOLD_EXPIRY (R184) -/
  | retireHoldExpiry (handle : Nat)
  /-- ADMIT_STATE_SET 0x0402 (R189) -/
  | admitStateSet (r : Req)
  /-- ENDPOINT_UPDATE 0x0403 (R190) -/
  | endpointUpdate (r : Req)
  /-- ENDPOINT_GET 0x0404 (R206) -/
  | endpointGet (r : Req)
  /-- ADDR_LOOKUP 0x0405 (R206) -/
  | addrLookup (r : Req)
  /-- TALLY_GET 0x0406 (R206) -/
  | tallyGet (r : Req)
  /-- TALLY_CLEAR 0x0407 (R203) -/
  | tallyClear (r : Req)
  /-- DIR_STATUS_GET 0x0408 (R206) -/
  | dirStatusGet (r : Req)
  /-- DIR_REHASH 0x0409 (R180) -/
  | dirRehash (r : Req)
  /-- REHASH_END (R180) -/
  | rehashEnd
  /-- UNKNOWN_GET 0x040A (R206) -/
  | unknownGet (r : Req)
  /-- UNKNOWN_CLEAR 0x040B (R204) -/
  | unknownClear (r : Req)
  /-- PATROL_SCRUB (R213) -/
  | patrolScrub (res : ScrubIn)
  /-- SOFT_REPAIR (R214) -/
  | softRepair (ok : Bool)
  /-- XLATE_SET 0x0B80 (R224) -/
  | xlateSet (r : Req)
  /-- XLATE_GET 0x0B81 (R232) -/
  | xlateGet (r : Req)
  /-- DMA_CHAN_SET 0x0B82 (R227) -/
  | dmaChanSet (r : Req)
  /-- DMA_CHAN_STATUS_GET 0x0B83 (R232) -/
  | dmaChanStatusGet (r : Req)
  /-- DMA_CHAN_RESTART 0x0B84 (R228) -/
  | dmaChanRestart (r : Req)
  /-- MEM_STATUS_GET 0x0B85 (R232) -/
  | memStatusGet (r : Req)
  /-- DMA_PI_WRITE (R225) -/
  | dmaPiWrite (c : Nat) (v : Word)
  /-- DMA_DESCRIPTOR_END (R226) -/
  | dmaDescriptorEnd (c : Nat) (desc : DescIn)
  /-- DMA_BUS_ERROR (R227) -/
  | dmaBusError (c : Nat) (done : Nat)
  /-- JOURNAL_GROUP_COMMIT (R245) -/
  | journalGroupCommit (frame : Nat) (bad : List Nat)
  /-- JNL_FULL_WAIT_EXPIRY (R248) -/
  | jnlFullWaitExpiry (frame : Nat)
  /-- BUNDLE_TIMEOUT (R255) -/
  | bundleTimeout (overflow : Bool)
  /-- BUNDLE_SIGNED (R256) -/
  | bundleSigned
  /-- PROFILE_SET 0x0580 (R261) -/
  | profileSet (r : Req)
  /-- PROFILE_GET 0x0581 (R261) -/
  | profileGet (r : Req)
  /-- PROV_LIST_ADD 0x0582 (R261) -/
  | provListAdd (r : Req)
  /-- PROV_LIST_CLEAR 0x0583 (R261) -/
  | provListClear (r : Req)
  /-- EXPORT_START 0x0584 (R257) -/
  | exportStart (r : Req)
  /-- EXPORT_STOP 0x0585 (R261) -/
  | exportStop (r : Req)
  /-- EXPORT_CONFIRM 0x0586 (R258) -/
  | exportConfirm (r : Req)
  /-- EXPORT_FLUSH 0x0587 (R255) -/
  | exportFlush (r : Req)
  /-- PIPE_STATUS_GET 0x0588 (R262) -/
  | pipeStatusGet (r : Req)
  /-- EXPORT_REWIND 0x0589 (R258) -/
  | exportRewind (r : Req)
  /-- CAL_TRANSITION (R278) -/
  | calTransition (index : Nat) (t : Nat)
  /-- LEDGER_SWEEP (R276) -/
  | ledgerSweep (index : Nat) (count : Nat)
  /-- STMT_BUNDLE_TIMEOUT (R277) -/
  | stmtBundleTimeout
  /-- LEDGER_SEAL (R285) -/
  | ledgerSeal
  /-- DURABILITY_EXPIRY (R286) -/
  | durabilityExpiry (page : Nat)
  /-- RESTORE_PAGE_RECEIVE (R288) -/
  | restorePageReceive (bytes : List Byte)
  /-- PWRFAIL_ASSERT (R280) -/
  | pwrfailAssert
  /-- PWRFAIL_DEASSERT (R519) -/
  | pwrfailDeassert
  /-- CAL_LOAD 0x0500 (R267) -/
  | calLoad (r : Req)
  /-- CAL_GET 0x0501 (R299) -/
  | calGet (r : Req)
  /-- TARIFF_ASSIGN 0x0503 (R270) -/
  | tariffAssign (r : Req)
  /-- LEDGER_GET 0x0504 (R299) -/
  | ledgerGet (r : Req)
  /-- LEDGER_RESTORE_START 0x0505 (R288) -/
  | ledgerRestoreStart (r : Req)
  /-- LEDGER_PAGE_LOST 0x0506 (R289) -/
  | ledgerPageLost (r : Req)
  /-- LEDGER_EXPORT_START 0x0507 (R286) -/
  | ledgerExportStart (r : Req)
  /-- LEDGER_CONFIRM 0x0508 (R286) -/
  | ledgerConfirm (r : Req)
  /-- LEDGER_PENDING_GET 0x0509 (R299) -/
  | ledgerPendingGet (r : Req)
  /-- PERIOD_CLOSE_NOW 0x050A (R274) -/
  | periodCloseNow (r : Req)
  /-- STATEMENT_START 0x050B (R277) -/
  | statementStart (r : Req)
  /-- STATEMENT_CONFIRM 0x050C (R277) -/
  | statementConfirm (r : Req)
  /-- STATEMENT_REWIND 0x050D (R277) -/
  | statementRewind (r : Req)
  /-- GRANITE_INFO_GET 0x050E (R299) -/
  | graniteInfoGet (r : Req)
  /-- DISPLAY_SHOW 0x050F (R297) -/
  | displayShow (r : Req)
  /-- LEDGER_STATUS_GET 0x0510 (R299) -/
  | ledgerStatusGet (r : Req)
  /-- DISPLAY_SCREEN (R296) -/
  | displayScreen (acked : Bool)
  /-- DISPLAY_RETRY (R296) -/
  | displayRetry (acked : Bool)
  /-- SEAL_CHANGE (R411) -/
  | sealChange (high : Bool)
  /-- INTERVAL_CLOSE (R308) -/
  | intervalClose (zone : Nat) (stop : Nat)
  /-- REVISION_POST (R312) -/
  | revisionPost (zone : Nat) (start : Option Nat)
  /-- UNZONED_POST (R307) -/
  | unzonedPost (start : Nat)
  /-- HORIZON_ADVANCE (R306) -/
  | horizonAdvance
  /-- ZONE_LOAD 0x0600 (R303) -/
  | zoneLoad (r : Req)
  /-- ZONE_DROP 0x0601 (R303) -/
  | zoneDrop (r : Req)
  /-- ZONE_TOL_SET 0x0602 (R318) -/
  | zoneTolSet (r : Req)
  /-- ZONE_GET 0x0603 (R318) -/
  | zoneGet (r : Req)
  /-- SCORE_RESET 0x0604 (R310) -/
  | scoreReset (r : Req)
  /-- BAL_EXPORT_START 0x0605 (R316) -/
  | balExportStart (r : Req)
  /-- BAL_CONFIRM 0x0606 (R316) -/
  | balConfirm (r : Req)
  /-- BAL_REWIND 0x0607 (R316) -/
  | balRewind (r : Req)
  /-- BAL_RERUN 0x0608 (R318) -/
  | balRerun (r : Req)
  /-- BAL_STATUS_GET 0x0609 (R318) -/
  | balStatusGet (r : Req)
  /-- CAMP_CREATE 0x0700 (R322) -/
  | campCreate (r : Req)
  /-- CAMP_CONTENT 0x0701 (R329) -/
  | campContent (r : Req)
  /-- CAMP_TARGETS_ADD 0x0702 (R345) -/
  | campTargetsAdd (r : Req)
  /-- CAMP_START 0x0703 (R323) -/
  | campStart (r : Req)
  /-- CAMP_PAUSE 0x0704 (R323) -/
  | campPause (r : Req)
  /-- CAMP_RESUME 0x0705 (R323) -/
  | campResume (r : Req)
  /-- CAMP_CANCEL 0x0706 (R323) -/
  | campCancel (r : Req)
  /-- CAMP_STATUS_GET 0x0707 (R345) -/
  | campStatusGet (r : Req)
  /-- CAMP_TARGET_GET 0x0708 (R345) -/
  | campTargetGet (r : Req)
  /-- CAMP_RELEASE 0x0709 (R323) -/
  | campRelease (r : Req)
  /-- SWITCH_FAULT_CLEAR 0x070A (R339) -/
  | switchFaultClear (r : Req)
  /-- STEP_ATTEMPT (R325) -/
  | stepAttempt (camp : Nat) (attempt : AttemptIn)
  /-- CONF_WAIT_END (R326) -/
  | confWaitEnd (camp : Nat) (handle : Nat)
  /-- CAMP_DEADLINE (R323) -/
  | campDeadline (camp : Nat)
  /-- SESSION_PLAN (R331) -/
  | sessionPlan (camp port : Nat)
  /-- MULTICAST_FRAME (R331) -/
  | multicastFrame (camp port : Nat) (power : Power)
  /-- SWITCH_FB_TIMEOUT (R339) -/
  | switchFbTimeout (camp : Nat) (handle : Nat)
  /-- GATE_RELEASE (R474) -/
  | gateRelease (testOk : Bool) (upset : GateUpset)
  /-- QK_LOAD 0x0800 (R357) -/
  | qkLoad (r : Req)
  /-- QK_DERIVE 0x0801 (R358) -/
  | qkDerive (r : Req)
  /-- QK_GENERATE 0x0802 (R359) -/
  | qkGenerate (r : Req)
  /-- QK_DESTROY 0x0803 (R355) -/
  | qkDestroy (r : Req)
  /-- QK_SLOT_GET 0x0804 (R368) -/
  | qkSlotGet (r : Req)
  /-- QK_EP_LOAD 0x0805 (R361) -/
  | qkEpLoad (r : Req)
  /-- QK_EP_CLEAR 0x0806 (R361) -/
  | qkEpClear (r : Req)
  /-- QK_REWRAP 0x0807 (R363) -/
  | qkRewrap (r : Req)
  /-- REWRAP_WALK (R363) -/
  | rewrapWalk
  /-- QK_ATTEST 0x0808 (R364) -/
  | qkAttest (r : Req)
  /-- QK_CERT_GET 0x0809 (R368) -/
  | qkCertGet (r : Req)
  /-- QK_STATUS_GET 0x080A (R368) -/
  | qkStatusGet (r : Req)
  /-- DRBG_RESEED (R366) -/
  | drbgReseed (pass : Bool)
  /-- RECORD_WRITE (R377) -/
  | recordWrite (failed : List Nat)
  /-- TOKEN_REFILL (R380) -/
  | tokenRefill (code : Nat)
  /-- CHECKPOINT_WRITE (R386) -/
  | checkpointWrite (fails : Nat)
  /-- ENVM_SCRUB (R388) -/
  | envmScrub (res : EnvmScrubIn)
  /-- SLATE_READ 0x0900 (R384) -/
  | slateRead (r : Req)
  /-- SLATE_DUMP 0x0901 (R385) -/
  | slateDump (r : Req)
  /-- SLATE_STATUS_GET 0x0902 (R393) -/
  | slateStatusGet (r : Req)
  /-- SLATE_CODE_GET 0x0903 (R393) -/
  | slateCodeGet (r : Req)
  /-- SLATE_RECF_CLEAR 0x0904 (R391) -/
  | slateRecfClear (r : Req)
  /-- RTC_TICK (R399) -/
  | rtcTick
  /-- RTC_REG_READ (R401) -/
  | rtcRegRead (reg : Nat)
  /-- RTC_YEAR_READ (R401) -/
  | rtcYearRead
  /-- RTC_SHADOW_TIMEOUT (R401) -/
  | rtcShadowTimeout
  /-- RTC_REG_WRITE (R402) -/
  | rtcRegWrite (reg v : Nat)
  /-- RTC_YEAR_WRITE (R402) -/
  | rtcYearWrite (v : Nat)
  /-- WRITE_SET_TIMEOUT (R402) -/
  | writeSetTimeout
  /-- SUPPLY_TO_VBAT (R396) -/
  | supplyToVbat
  /-- SUPPLY_TO_MAIN (R396) -/
  | supplyToMain
  /-- LBV_MEASURE (R396) -/
  | lbvMeasure (volts mv : Nat)
  /-- RETENTION_LOSS (R396) -/
  | retentionLoss
  /-- OSC_STOP (R405) -/
  | oscStop
  /-- POR_BKP (R397) -/
  | porBkp
  /-- TAMPER_ACTIVATION (R410) -/
  | tamperActivation (verdict : TamperIn)
  /-- PWRON_OFF (R409) -/
  | pwronOff
  /-- TIME_GET 0x0C00 (R413) -/
  | timeGet (r : Req)
  /-- TIME_SET 0x0C01 (R282) -/
  | timeSet (r : Req)
  /-- TIME_TRIM_SET 0x0C02 (R403) -/
  | timeTrimSet (r : Req)
  /-- ALARM_SET 0x0C03 (R408) -/
  | alarmSet (r : Req)
  /-- ALARM_GET 0x0C04 (R413) -/
  | alarmGet (r : Req)
  /-- POWER_OFF 0x0C05 (R409) -/
  | powerOff (r : Req)
  /-- TAMPER_CFG_SET 0x0C06 (R410) -/
  | tamperCfgSet (r : Req)
  /-- TAMPER_GET 0x0C07 (R413) -/
  | tamperGet (r : Req)
  /-- TAMPER_CLEAR 0x0C08 (R412) -/
  | tamperClear (r : Req)
  /-- MIR_REFRESH (R503) -/
  | mirRefresh
  /-- MIR_CAL_READ (R504) -/
  | mirCalRead (reg : Nat)
  /-- MIR_YEAR_READ (R504) -/
  | mirYearRead
  /-- MIR_SHADOW_TIMEOUT (R504) -/
  | mirShadowTimeout
  /-- POR_MAIN_ASSERT (R415) -/
  | porMainAssert
  /-- POR_MAIN_RELEASE (R415) -/
  | porMainRelease
  /-- NRESET_ASSERT (R419) -/
  | nresetAssert
  /-- NRESET_RELEASE (R419) -/
  | nresetRelease
  /-- PERST_N_ASSERT (R416) -/
  | perstNAssert
  /-- WDT_EXPIRY (R417) -/
  | wdtExpiry
  /-- SYSRST (R415) -/
  | sysrst
  /-- RECORDER_DRAIN_END (R379) -/
  | recorderDrainEnd
  /-- DPRST (R421) -/
  | dprst
  /-- ISLRST (R485) -/
  | islrst (i : Nat)
  /-- RESET_REQUEST 0x0B90 (R431) -/
  | resetRequest (r : Req)
  /-- RELEASE_STAGE_END (R421) -/
  | releaseStageEnd (straps : BitVec 4) (opt : OptLoad)
  /-- GEN_LOCK_TIMEOUT (R420) -/
  | genLockTimeout (i : Nat)
  /-- SYNTH_LOCK_RETRY (R426) -/
  | synthLockRetry (locked : Bool)
  /-- BOOT_ROM_VERIFY (R437) -/
  | bootRomVerify (v : BootVerify)
  /-- CORE_BIST (R441) -/
  | coreBist (failed : List Nat) (res : CoreBistIn)
  /-- PCIE_LINK_TRAIN (R439) -/
  | pcieLinkTrain (width speed : Nat)
  /-- DDR_TRAINING (R440) -/
  | ddrTraining (ranks : List RankTrain)
  /-- START_SCAN_REPLAY (R453) -/
  | startScanReplay
  /-- RF_PORT_TRAIN (R445) -/
  | rfPortTrain (p : Nat)
  /-- RF_PORT_TRAIN_END (R446) -/
  | rfPortTrainEnd (p : Nat) (res : TrainIn)
  /-- PLC_OFFSET_CAL (R450) -/
  | plcOffsetCal (offsets : List (Nat × Int × Int))
  /-- DATAPLANE_BIST (R452) -/
  | dataplaneBist (badIslands : List Nat) (lanes : LaneBistIn)
  /-- TRAIN_REPORT_GET 0x0BA0 (R449) -/
  | trainReportGet (r : Req)
  /-- FW_INFO_GET 0x0A00 (R469) -/
  | fwInfoGet (r : Req)
  /-- FW_STAGE_BEGIN 0x0A01 (R461) -/
  | fwStageBegin (r : Req)
  /-- STAGING_ERASE_DONE (R461) -/
  | stagingEraseDone
  /-- FW_STAGE_WRITE 0x0A02 (R461) -/
  | fwStageWrite (r : Req)
  /-- FW_STAGE_COMMIT 0x0A03 (R457) -/
  | fwStageCommit (r : Req)
  /-- FW_STAGE_CLEAR 0x0A04 (R460) -/
  | fwStageClear (r : Req)
  /-- FW_PREPARE 0x0A05 (R462) -/
  | fwPrepare (r : Req)
  /-- FW_PREPARE_DONE (R462) -/
  | fwPrepareDone (fault : Option Nat)
  /-- FW_MICROCODE_AT 0x0A06 (R462) -/
  | fwMicrocodeAt (r : Req)
  /-- MICROCODE_SWITCH (R462) -/
  | microcodeSwitch
  /-- FW_ACTIVATE 0x0A07 (R463) -/
  | fwActivate (r : Req)
  /-- FIRMWARE_TAKEOVER (R463) -/
  | firmwareTakeover
  /-- ACTIVATION_PAUSE_OVERRUN (R463) -/
  | activationPauseOverrun
  /-- FW_CONFIRM 0x0A08 (R465) -/
  | fwConfirm (r : Req)
  /-- CONFIRM_TIMER_EXPIRY (R465) -/
  | confirmTimerExpiry
  /-- FW_HOST_BOOT 0x0A09 (R466) -/
  | fwHostBoot (r : Req) (image : Option (List Byte))
  /-- LIFECYCLE_ADVANCE 0x0A10 (R467) -/
  | lifecycleAdvance (r : Req)
  /-- CUST_KEY_PROGRAM 0x0A11 (R467) -/
  | custKeyProgram (r : Req)
  /-- GATE_TEST_PERIODIC (R475) -/
  | gateTestPeriodic (pass : Bool)
  /-- LOCKSTEP_MISMATCH (R475) -/
  | lockstepMismatch
  /-- SAFETY_SRAM_SCRUB (R475) -/
  | safetySramScrub (pass : Bool)
  /-- HEARTBEAT_CHECK (R475) -/
  | heartbeatCheck (us : Nat)
  /-- CLOCK_MONITOR_FAULT (R475) -/
  | clockMonitorFault
  /-- SAFETY_AUTO_RECOVER (R477) -/
  | safetyAutoRecover
  /-- PROOF_TEST_END (R477) -/
  | proofTestEnd (failed : Option Nat)
  /-- SAFETY_STATUS_GET 0x0B00 (R492) -/
  | safetyStatusGet (r : Req)
  /-- SAFETY_CLEAR 0x0B01 (R477) -/
  | safetyClear (r : Req)
  /-- SAFETY_PROOF_TEST 0x0B02 (R492) -/
  | safetyProofTest (r : Req)
  /-- ROTATION_STEP (R481) -/
  | rotationStep
  /-- ROTATION_HANDOVER (R481) -/
  | rotationHandover
  /-- LANE_TEST_END (R482) -/
  | laneTestEnd (pass : Bool)
  /-- ROTATION_LATE (R483) -/
  | rotationLate (lane : Nat)
  /-- ISLAND_BIST_END (R485) -/
  | islandBistEnd (i : Nat) (res : IslandBistIn)
  /-- MAINT_TOKEN_GRANT (R490) -/
  | maintTokenGrant (act : Nat)
  /-- LANE_MAP_GET 0x0B10 (R492) -/
  | laneMapGet (r : Req)
  /-- REPAIR_LEDGER_GET 0x0B11 (R492) -/
  | repairLedgerGet (r : Req)
  /-- ROTATION_STATUS_GET 0x0B12 (R492) -/
  | rotationStatusGet (r : Req)
  /-- MAINT_STATUS_GET 0x0B20 (R492) -/
  | maintStatusGet (r : Req)
  /-- PLC_TRANSMIT_END (R131) -/
  | plcTransmitEnd (q : Nat)
  /-- PCIE_UNCORRECTABLE_ERROR (R64) -/
  | pcieUncorrectableError
  deriving DecidableEq, Repr

end Sys2Proof
end

