-- ==== Sys2Proof/Decode.lean ====
section
/-! DEFINITION. Decoding of table words. No row of spec/opcode_table.json gives bits: a command of this block is a register
access, a request in a host ring, or an event, and no word spells one. -/

namespace Sys2Proof

/-- The command that a word spells by the table's bits: none, since no row gives bits (the opcode numbers of Table 03-13 are fields
of a request in host memory, which REQUEST_FETCH reads). (DESIGN CHOICE: log 52) -/
def decodeTableWord (_nbits _w : Nat) : Option Instr := none

end Sys2Proof
end

