-- ==== Sys2Proof/Config.lean ====
section
/-! DEFINITION. What the manual leaves open or gives to another unit: free values and the cryptographic functions.
Each is opaque: nothing can evaluate it, so a statement that mentions one holds whatever it is. -/

namespace Sys2Proof.Config

/-- A value the manual leaves open, fresh at each use (UNVERIFIED; log 9). -/
opaque freeNat : Nat → Nat

/-- Output of the DRBG at a draw (R366): no rule states its value (UNVERIFIED; log 9). -/
opaque drbg : Nat → List (BitVec 8)

/-- A uniform draw of the DRBG below a bound is the draw reduced modulo the bound (R112; log 9). -/
opaque drawNat : Nat → Nat

/-- AES-128 or AES-256 block encryption under a key (R95, R174); the standard's function, not evaluated (log 8). -/
opaque aes : List (BitVec 8) → List (BitVec 8) → List (BitVec 8)

/-- SHA-256 of a byte string (R254; log 8). -/
opaque sha256 : List (BitVec 8) → List (BitVec 8)

/-- AES-CCM sealing: key, nonce, associated data, plaintext; ciphertext then MIC (R95; log 8). -/
opaque ccmSeal : List (BitVec 8) → List (BitVec 8) → List (BitVec 8) → List (BitVec 8) → List (BitVec 8)

/-- AES-CCM opening: key, nonce, associated data, ciphertext, MIC; none when the MIC check fails (R95; log 8). -/
opaque ccmOpen : List (BitVec 8) → List (BitVec 8) → List (BitVec 8) → List (BitVec 8) → List (BitVec 8) →
  Option (List (BitVec 8))

/-- AES-GCM sealing with key, nonce and associated data; ciphertext then tag (R284; log 8). -/
opaque gcmSeal : List (BitVec 8) → List (BitVec 8) → List (BitVec 8) → List (BitVec 8) → List (BitVec 8)

/-- AES-GCM opening; none when the tag does not verify (R288; log 8). -/
opaque gcmOpen : List (BitVec 8) → List (BitVec 8) → List (BitVec 8) → List (BitVec 8) → Option (List (BitVec 8))

/-- AES key wrap of RFC 3394 under a key (R357, R361; log 8). -/
opaque keyWrap : List (BitVec 8) → List (BitVec 8) → List (BitVec 8)

/-- AES key unwrap; none when the integrity check fails (R357, R361; log 8). -/
opaque keyUnwrap : List (BitVec 8) → List (BitVec 8) → Option (List (BitVec 8))

/-- AES key unwrap with padding of RFC 5649; none when the integrity check fails (R357, R350; log 8). -/
opaque keyUnwrapPad : List (BitVec 8) → List (BitVec 8) → Option (List (BitVec 8))

/-- RSAES-OAEP decryption under a private key; none when it fails (R350, R357; log 8). -/
opaque oaepOpen : List (BitVec 8) → List (BitVec 8) → Option (List (BitVec 8))

/-- RSASSA-PSS verification: modulus, message, signature (R254, R455; log 8). -/
opaque rsaVerify : List (BitVec 8) → List (BitVec 8) → List (BitVec 8) → Bool

/-- RSASSA-PSS signature under a private key, with the draw number of its salt (R254; log 8). -/
opaque rsaSign : List (BitVec 8) → List (BitVec 8) → Nat → List (BitVec 8)

/-- The Device Unique Secret in the fuses (R347): fixed for the life of the part, and read by nothing but the derivation (log 8). -/
opaque dus : List (BitVec 8)

/-- HMAC-SHA-256 of a key and a message, 32 bytes (R348, R358; log 8). -/
opaque hmac : List (BitVec 8) → List (BitVec 8) → List (BitVec 8)

/-- Repair block of the systematic Reed-Solomon code of RFC 5510 over GF(2^16): source blocks and encoding-symbol index (R330; the
standard's function, not evaluated; log 8). -/
opaque rsRepair : List (List (BitVec 8)) → Nat → List (BitVec 8)

/-- Bytes 16 to 17 of the capability report: the 65 536 route entries of Table 00-2 do not fit, and no rule says what stands there (R50; log 51). -/
opaque routeEntries : Nat

/-- Data whitening of IEEE 802.15.4: the octet that whitens octet i of a PSDU (R77; the standard's sequence, not evaluated; log 145). -/
opaque whitening : Nat → BitVec 8

/-- Whether a power that is not a whole number of 0.1 dB is reported rounded up: sum over samples times full scale (R69; log 146). -/
opaque roundUp : Nat → Nat → Bool

/-- What is reported for a power of 0, whose logarithm the manual does not give (R69; log 146). -/
opaque zeroPower : Int

/-- Whether a burst with more than 6 symbols wrong is found uncorrectable: the code promises nothing there (R211; log 163). -/
opaque beyondCode : List (Nat × Nat) → Bool

/-- Gray mapping of b coded bits, as a number, to one of 2^b points of BPSK, QPSK or 8-PSK (R139; log 147). -/
opaque pskPoint : Nat → Nat → Nat

/-- Octet k of a payload, decoded from the soft bits of its symbols (R138, R140): the manual gives the decoder no algorithm (log 147). -/
opaque plcDecode : List (List Int) → Nat → BitVec 8

/-- The 256 samples of an OFDM symbol: band, DAC scale, and the phase of each used tone (R134, R135): the manual gives the transform no
rounding (log 147). -/
opaque ofdmSamples : Nat → Int → List (Option Nat) → List Int

end Sys2Proof.Config
end

