-- ==== Sys2Proof/Machine/State.lean ====
section
/-! DEFINITION. The state of the XN7448 as plain data: every register, table, queue, counter, latch and pin that the manual names.
A default value written beside a field is its value in State.reset. A field's docstring gives, in order: its width or
shape, the file and rule of spec/ that names it, its reset value with where that comes from, and its meaning. -/

namespace Sys2Proof.Machine

/-- No operation of this block ends in a fault: no rule stops the machine (log 4). -/
inductive Fault where
  deriving DecidableEq, Repr

/-- Why a command has no meaning. -/
inductive Refusal where
  /-- The command of that mnemonic has no meaning in the model yet; raised by a refused arm of exec only; safe. -/
  | notModelled (mnemonic : String)
  deriving DecidableEq, Repr

/-- A SUN FSK PPDU as sent: octets of preamble, which of the two SFDs, the PHR, and the PSDU with its FCS (04 R77, 05 R96, R98). -/
structure Ppdu where
  preamble : Nat
  sfd : Nat
  phr : BitVec 16
  psdu : List Byte
  deriving DecidableEq, Repr

/-- A power-line frame as sent: the PSDU with its FCS, the 24 header bits, and the tones of the preamble symbols and of the header and
payload symbols: a phase for each used tone, in units of π / (4 T), none for a silent one; and the samples for the DAC (06 R133 to R139). -/
structure PlcWave where
  psdu : List Byte
  header : BitVec 24
  preamble : List (List (Option Nat))
  symbols : List (List (Option Nat))
  dac : List Int
  deriving DecidableEq, Repr

/-- What the block emits: bus writes, messages and frames, the model's own record of them (log 10). -/
inductive Output where
  /-- a write into host memory: ring slots, DMA data (R33, R226) -/
  | hostWrite (addr : DWord) (bytes : List Byte)
  /-- an MSI-X message (R63) -/
  | msix (addr : DWord) (data : Word)
  /-- a SUN FSK frame on air: port, channel, PPDU (R77, R111) -/
  | air (port channel : Nat) (ppdu : Ppdu)
  /-- a link ack on air: port, channel, PPDU (R96, R109) -/
  | ack (port channel : Nat) (ppdu : Ppdu)
  /-- a deep-mode frame on air: port, channel, and its octets from the preamble to the CRC, each sent most significant bit first (R80, R99) -/
  | deep (port channel : Nat) (octets : List Byte)
  /-- a PLC frame: port, payload mode, frame (R135 to R139, R153) -/
  | plc (port mode : Nat) (wave : PlcWave)
  /-- an SPI transaction: port, read, address, data (R442) -/
  | spi (port : Nat) (read : Bool) (addr data : Nat)
  /-- a screen on the 2-wire display: address, bytes (R296) -/
  | display (addr : Nat) (bytes : List Byte)
  /-- a reset begins at an island: its index (R420) -/
  | islandReset (i : Nat)
  deriving DecidableEq, Repr

/-- The eight calendar registers (Table 15-2). -/
structure Calendar where
  /-- 10 | 15 R398 | spec 0 | RTC_SUBSEC -/
  subsec : Nat := 0
  /-- 6 | 15 R398 | spec 0 | RTC_SEC -/
  sec : Nat := 0
  /-- 6 | 15 R398 | spec 0 | RTC_MIN -/
  min : Nat := 0
  /-- 5 | 15 R398 | spec 0 | RTC_HOUR -/
  hour : Nat := 0
  /-- 5 | 15 R398 | spec 1 | RTC_DAY -/
  day : Nat := 1
  /-- 4 | 15 R398 | spec 1 | RTC_MONTH -/
  month : Nat := 1
  /-- 12 | 15 R398 | spec 2000 | RTC_YEAR -/
  year : Nat := 2000
  /-- 3 | 15 R398 | spec 0 | RTC_WDAY -/
  wday : Nat := 0
  deriving DecidableEq, Repr

/-- A response waiting for ring space or being posted (Table 03-3). -/
structure Rsp where
  tag : Word
  opcode : Nat
  status : Nat
  final : Bool
  payload : List Byte
  deriving DecidableEq, Repr

/-! ### Host island: mailboxes, registers, events (03, 20) -/

/-- Mailbox error cause, MBX_STAT.CAUSE codes of Table 20-6. -/
inductive MbxCause where
  | none | badGeometry | overrun | oversize | busError | rspOversize
  deriving DecidableEq, Repr

/-- What a PENDING operation is doing (R41, R44). -/
inductive PendKind where
  /-- the request waits behind another operation (R44) -/
  | waiting
  /-- the operation was accepted and is running to its final response -/
  | running
  deriving DecidableEq, Repr

/-- An object that an operation may hold (R44). -/
inductive Obj where
  | config | handle (h : Nat) | allHandles | keySlot (n : Nat) | blobs | camp (c : Nat) | zone (z : Nat)
  | cal (i : Nat) | window (w : Nat) | channel (c : Nat) | clock | plcPort (q : Nat) | lanes | firmware | safety
  deriving DecidableEq, Repr

/-- A PENDING operation: its immediate response has been posted, its final response is owed (R41, R42). -/
structure PendOp where
  id : Nat
  opcode : Nat
  req : Req
  kind : PendKind
  /-- its responses go to Slate instead of the ring (R37, R38) -/
  orphan : Bool := false
  objs : List Obj := []
  /-- progress data of the operation, by its own rule (a due time, a count, an index) -/
  aux : Nat := 0
  deriving DecidableEq, Repr

/-- One mailbox (R33 to R45, Table 20-6). -/
structure Mbx where
  /-- 32 | 20 R501 | spec 0 | MBX_REQ_BASE_LO, bits [31:12] held -/
  reqBaseLo : Word := 0
  /-- 32 | 20 R501 | spec 0 | MBX_REQ_BASE_HI -/
  reqBaseHi : Word := 0
  /-- 32 | 20 R501 | spec 0 | MBX_RSP_BASE_LO, bits [31:12] held -/
  rspBaseLo : Word := 0
  /-- 32 | 20 R501 | spec 0 | MBX_RSP_BASE_HI -/
  rspBaseHi : Word := 0
  /-- 5 | 20 R501 | spec 0 | MBX_SIZE.REQ_LOG2 -/
  reqLog2 : BitVec 5 := 0
  /-- 5 | 20 R501 | spec 0 | MBX_SIZE.RSP_LOG2 -/
  rspLog2 : BitVec 5 := 0
  /-- 1 | 20 R501, 03 R38 | spec 0 | MBX_CTRL.EN -/
  en : Bool := false
  /-- 1 | 20 R501, 03 R37 | spec 0 | MBX_STAT.ERR -/
  err : Bool := false
  /-- 03 R37, R38 | spec false | the mailbox is in error: left by RESET or by clearing EN, while MBX_STAT.ERR stays until RESET -/
  halted : Bool := false
  /-- 3 | 20 R501 | spec 0 (none) | MBX_STAT.CAUSE -/
  cause : MbxCause := .none
  /-- 32 | 03 R35 | spec 0 | MBX_REQ_PI -/
  reqPI : Word := 0
  /-- 32 | 03 R35 | spec 0 | MBX_REQ_CI -/
  reqCI : Word := 0
  /-- 32 | 03 R35 | spec 0 | MBX_RSP_PI -/
  rspPI : Word := 0
  /-- 32 | 03 R35 | spec 0 | MBX_RSP_CI -/
  rspCI : Word := 0
  /-- request copied on chip whose immediate response is still owed, with its opcode | 03 R36, R42 | spec none -/
  fetched : Option (Nat × Req) := none
  /-- the fetched request's responses go to Slate (R37, R38) | 03 R38 | spec false -/
  fetchedOrphan : Bool := false
  /-- place of the fetched request among all fetches | 03 R44 | model 0 (log 1) -/
  fetchNo : Nat := 0
  /-- 03 R37 | spec false | the next response write of the mailbox completes with a PCIe error -/
  wrErr : Bool := false
  /-- responses waiting for ring space, oldest first | 03 R43 | spec empty -/
  rspWait : List Rsp := []
  deriving DecidableEq, Repr

/-- One MSI-X table entry (R494: laid out as PCI Express defines it). -/
structure MsixEntry where
  /-- 64 | 20 R494 | PRESUMED 0 (PCI Express reset value) (log 5) | message address -/
  addr : DWord := 0
  /-- 32 | 20 R494 | PRESUMED 0 (PCI Express) (log 5) | message data -/
  data : Word := 0
  /-- 1 | 20 R494 | PRESUMED 1 (PCI Express: vectors reset masked) (log 5) | vector control mask -/
  mask : Bool := true
  deriving DecidableEq, Repr

/-- Event delivery (R62, R63, Table 20-5, MSI-X). -/
structure Evt where
  /-- 256 | 20 R500 | spec 0 | EVT_PEND words 0 to 7, source s at bit s -/
  pend : BitVec 256 := 0
  /-- 256 | 20 R500 | spec 0 | EVT_EN -/
  en : BitVec 256 := 0
  /-- 256 x 6 | 03 R62 | spec: source mod 64 where unlisted | EVT_ROUTE vectors -/
  route : Tbl (BitVec 6) := []
  /-- messages held while masked: source and the vector whose bit it set | 03 R63, 20 R500 | spec empty -/
  held : List (Nat × Nat) := []
  /-- 64 | 20 R494, 03 R63 | spec 0 | Pending Bit Array -/
  pba : BitVec 64 := 0
  deriving DecidableEq, Repr

/-- The fields of the GLB, RST and MIR blocks that are state of their own (Tables 20-2, 20-3, 20-8). -/
structure Glb where
  /-- 32 | 20 R497 | spec 0 | GLB_SCRATCH -/
  scratch : Word := 0
  /-- 1 | 20 R495 | spec 0 | GLB_BUS_STAT.PARTIAL_WR -/
  partialWr : Bool := false
  /-- 1 | 20 R494 | spec 0 | GLB_BUS_STAT.UNMAPPED_WR -/
  unmappedWr : Bool := false
  /-- 64 | 20 R497 | spec 0 | engine time captured by the last read of GLB_ETIME_LO -/
  etimeCap : DWord := 0
  /-- 8 | 20 R497 | DESIGN CHOICE 0 (hw: the spec gives none) (log 5) | GLB_ID.DIE_REV -/
  dieRev : BitVec 8 := 0
  /-- 32 | data of the last BAR0 read completion, the model's own way to show a read | 20 R495 | DESIGN CHOICE 0 (log 5) -/
  lastRead : Word := 0
  deriving DecidableEq, Repr

/-- RST_CAUSE bits of Table 20-3. -/
inductive RstCause where
  | porMain | nreset | wdt | sysHost | sysPerst | sysFw | dprst | islrst
  deriving DecidableEq, Repr

/-- The mirror block (R503, R504, Table 20-8): copies of the backup island. -/
structure Mir where
  /-- 10+6+6+5+5+4+12+3 | 20 R503 | hw: POR_BKP values of Table 15-2 | the eight calendar copies -/
  cal : Calendar := {}
  /-- 10 | 20 R503 | hw: RTC_STAT after POR_BKP | copy of RTC_STAT -/
  stat : BitVec 10 := 0x282
  /-- 32 | 20 R503 | hw 0 | copy of RECF_STAT -/
  recfStat : Word := 0
  /-- 32 | 20 R503 | hw 0 | copy of RECF_TIME -/
  recfTime : Word := 0
  /-- 1 | 20 R503 | hw 0 | copy of PWR_CTRL.OFF -/
  pwrOff : Bool := false
  /-- 4 x 16 | 20 R503 | hw 0 | copies of the tamper counts -/
  tampCnt : Tbl Nat := []
  /-- 1 | 20 R503 | hw 0 | copy of SEAL_STAT.OPEN -/
  sealOpen : Bool := false
  /-- 32 | 20 R503 | hw 0 | copy of SEAL_COUNT -/
  sealCount : Word := 0
  /-- 1 | 20 R503 | hw: the control island is in reset, so 1 | MIR_STAT.STALE -/
  stale : Bool := true
  /-- 1 | 20 R503 | spec 0 | MIR_STAT.SHADOW_TO -/
  shadowTo : Bool := false
  /-- 8 values | 20 R504 | spec none (FROZEN 0) | host shadow held (MIR_STAT.FROZEN), with the monotonic time of its first read -/
  shadow : Option (Calendar × Nat) := none
  deriving DecidableEq, Repr

/-! ### Configuration (03) -/

/-- Configuration state (Table 03-10), in the codes of CONFIG_STATE_GET. -/
inductive CfgState where
  | unconfigured | configuring | committing | committed | reconfiguring
  deriving DecidableEq, Repr

/-- One logical lane's assignment (R82). -/
structure LaneAsg where
  port : Nat := 0
  stream : Nat := 0
  /-- 0 OFF, 1 SUN FSK, 2 DEEP -/
  mode : Nat := 0
  rateMask : Nat := 0
  deriving DecidableEq, Repr

/-- A sub-band entry of a band profile (Table 05-7). -/
structure SubBand where
  fLo : Nat := 0
  fHi : Nat := 0
  duty : Nat := 0
  maxOnMs : Nat := 0
  minOffMs : Nat := 0
  lbtReq : Bool := false
  immAck : Bool := false
  lbtListenUs : Nat := 0
  lbtThresh : Int := 0
  beMin : Nat := 0
  beMax : Nat := 0
  nbMax : Nat := 0
  dwellMaxMs : Nat := 0
  dwellWindowS : Nat := 0
  txLevel : Int := 0
  deriving DecidableEq, Repr

/-- A configuration window (R57): values, which IDs were written or carried, lane table, band profiles. -/
structure Window where
  /-- class C and G values that differ from their defaults' absence (unlisted: the default) -/
  vals : Tbl Nat := []
  /-- IDs written since CONFIG_BEGIN or carried by the copy, for the required check (R58, R55) -/
  written : List Nat := []
  lanes : Tbl LaneAsg := []
  profiles : Tbl (List (Nat × SubBand)) := []
  deriving DecidableEq, Repr

/-- The configuration machine and the active values (R51 to R61). -/
structure Cfg where
  /-- 5 states | 03 R57 | spec UNCONFIGURED -/
  state : CfgState := .unconfigured
  /-- state to return to when a commit fails | 03 R57 | spec UNCONFIGURED -/
  prior : CfgState := .unconfigured
  /-- open configuration window | 03 R57 | spec none -/
  window : Option Window := none
  /-- active class C and G values and live class L values, by ID (unlisted: the default of the ID's table) | 03 R51, R52 | spec empty -/
  vals : Tbl Nat := []
  /-- values that were active before the last T_c, under which a frame is processed whose last symbol ended before it | 03 R59 | spec empty: the defaults -/
  old : Tbl Nat := []
  /-- band profiles that were active before the last T_c | 03 R59 | spec empty -/
  oldProfiles : Tbl (List (Nat × SubBand)) := []
  /-- the CONFIG_COMMIT whose check waits for STAGE 0x09: its PendOp | 17 R436 | spec none -/
  deferred : Option Nat := none
  /-- the CONFIG_COMMIT whose T_c has not come: its PendOp and the engine time of its acceptance | 03 R59 | spec none -/
  accepted : Option (Nat × Nat) := none
  /-- ports trained at this commit and awaiting T_c, with the training outcome | 17 R447 | spec empty -/
  trained : List (Nat × Bool) := []
  /-- a first commit has completed since the start | 03 R59, 05 R116 | spec false -/
  everCommitted : Bool := false
  /-- engine time of the last T_c | 03 R59 | spec 0 -/
  lastTc : Nat := 0
  /-- active band profiles: profile to (sub-band index, entry) | 05 R103 | spec empty -/
  profiles : Tbl (List (Nat × SubBand)) := []
  deriving DecidableEq, Repr

/-! ### Links and islands (01, 20) -/

/-- One direction of a handshake link (R11 to R18). A transfer and a return are whole steps, so no flit is on the wires and no credit on its
way between steps: those two terms of R12 are 0. -/
structure LinkDir where
  /-- R11, Table 01-2 | spec: initial credit count of the class | credits spent and not yet returned, held as (initial - credits) -/
  spent : Nat := 0
  /-- R12 | spec 0 | occupied receiver entries -/
  occupied : Nat := 0
  /-- R15 | spec 0 | sender's count of flits sent -/
  sent : Nat := 0
  /-- R15 | spec 0 | receiver's count of flits received -/
  received : Nat := 0
  /-- R15 | spec 0 | receiver's count of credits released -/
  released : Nat := 0
  /-- R15 | spec 0 | sender's count of credits returned -/
  returned : Nat := 0
  /-- R17 | spec false | the direction is fenced -/
  fenced : Bool := false
  /-- R18 | spec false | the sender has ended its wait with credits outstanding -/
  expired : Bool := false
  /-- R15 | spec false | audited at the latest audit -/
  audited : Bool := false
  deriving DecidableEq, Repr

/-- Per-island status (Table 20-4). -/
structure Island where
  /-- 1 | 20 R499 | hw 0: clocks not yet running at the cold reset | CLK_RUN -/
  clkRun : Bool := false
  /-- 1 | 01 R10 | hw 0 | LOCK -/
  lock : Bool := false
  /-- 1 | 20 R499 | hw 1: the cold reset holds every main-domain island | out of service: in reset (IN_RESET), or fenced for it while waitFrom stands -/
  inReset : Bool := true
  /-- 01 R17 | spec none | monotonic time at which the fence of a reset began, while it waits for credits: the island is not yet in reset -/
  waitFrom : Option Nat := none
  /-- 1 | 20 R499 | spec 0 | FAULT -/
  fault : Bool := false
  /-- 3 | 20 R499 | spec 0 | CAUSE of the latest FAULT -/
  cause : Nat := 0
  /-- 8 saturating | 20 R499 | spec 0 | ISLRST_CNT -/
  islrstCnt : Nat := 0
  /-- monotonic time of the last ISLRST, for the 24 h rule | 19 R485 | spec none -/
  lastIslrst : Option Nat := none
  /-- 1 | 19 R485, R486 | spec false | BIST of the island is owed after its ISLRST -/
  bistDue : Bool := false
  /-- generator lock retries used | 16 R420 | spec 0 -/
  lockRetries : Nat := 0
  deriving DecidableEq, Repr
/-! ### Fall-through queues (06 R143 to R149) -/

/-- A stage of a fall-through queue: the word and its sideband bits. -/
structure QWord where
  word : DWord
  isEnd : Bool := false
  code : BitVec 16 := 0
  deriving DecidableEq, Repr

/-- A notice (R147). -/
structure Notice where
  count : Nat
  dropped : Bool
  code : BitVec 16
  deriving DecidableEq, Repr

/-- One packet known to the queue: pushed words so far, read words so far, flags. -/
structure QPacket where
  /-- words of it still held in the queue, oldest first -/
  words : List QWord := []
  /-- words pushed in all, kept or discarded -/
  pushed : Nat := 0
  /-- words the consumer has read -/
  read : Nat := 0
  /-- its END word has been pushed -/
  ended : Bool := false
  doomed : Bool := false
  /-- DROP_REST acted on it -/
  dropping : Bool := false
  deriving DecidableEq, Repr

/-- What a READ returned, or how it waits. -/
inductive ReadResult where
  | none
  | word (w : DWord) (isEnd doom abort : Bool)
  | waiting
  deriving DecidableEq, Repr

/-- A fall-through queue of 32 stages with its 16-entry notice FIFO. -/
structure FtQueue where
  /-- 32 x 64 | 06 R143 | spec empty | packets in order of arrival; the words held are its stages -/
  packets : List QPacket := []
  /-- 16 entries | 06 R147 | spec empty | notice FIFO, oldest first -/
  notices : List Notice := []
  /-- 1 | 20 R505, R507, 06 R146 | spec 0 | DROP_IDLE -/
  dropIdle : Bool := false
  /-- last READ result, or a READ waiting | 06 R145 | spec none -/
  readRes : ReadResult := .none
  /-- words that the consumer has read and not yet handled, with whether their packet was doomed | 06 R145, R152 | spec empty -/
  taken : List QWord := []
  /-- last notice popped | 06 R144 | spec none -/
  popped : Option Notice := none
  deriving DecidableEq, Repr

/-! ### RF ports and lanes (04, 17, 19) -/

/-- Port service state (Tables 04-2, R91). -/
inductive RfState where
  | disabled | awaitTc | receiving | transmitting | down | absent
  deriving DecidableEq, Repr

/-- The last training record of a port (Table 17-4). -/
structure TrainRec where
  /-- Table 17-4 code; 7 NOT_TRAINED | 17 R449, 20 R506 | spec 7 -/
  result : Nat := 7
  attempts : Nat := 0
  flags : Nat := 0
  taps : List Nat := [0, 0, 0]
  runs : List Nat := [0, 0, 0]
  slip : Nat := 0
  loopDelay : Nat := 0
  rxErr : Nat := 0
  txErr : Nat := 0
  ver : Nat := 0
  rates : Nat := 0
  flo : Nat := 0
  fhi : Nat := 0
  txLat : Nat := 0
  txenLead : Nat := 0
  rxLat : Nat := 0
  loopLat : Nat := 0
  tuneUs : Nat := 0
  endTime : Nat := 0
  deriving DecidableEq, Repr

/-- One RF port (R66 to R70, R85, R91). -/
structure RfPort where
  /-- 04 R70, R91 | spec disabled | state -/
  state : RfState := .disabled
  /-- 8 | 04 R68 | spec: none received yet | SEQ of the last slot -/
  seq : Option (BitVec 8) := none
  /-- 04 R68 | spec 0 | slots received, the index of the 256-slot window -/
  slotNo : Nat := 0
  /-- 04 R68 | spec empty | indices of the latest slot errors, newest first, at most 3 kept -/
  errAt : List Nat := []
  /-- 32 wrapping | 04 R91 | spec 0 | slot errors -/
  slotErr : Word := 0
  /-- 32 wrapping | 04 R91 | spec 0 | OVLD slots -/
  ovld : Word := 0
  /-- 6 | 04 R91 | spec 0 | last GAIN_STEP -/
  gain : Nat := 0
  /-- 04 R91 | spec 0 | blanked time, microseconds -/
  blankUs : Nat := 0
  /-- 04 R92 | spec 0 | OVLD slots in the 100 ms window now running -/
  ovldNow : Nat := 0
  /-- 04 R92 | spec false | the previous window had OVLD slots -/
  ovldPrev : Bool := false
  /-- 04 R85 | spec empty | ports whose transmissions blank this port now -/
  blankedBy : List Nat := []
  /-- 04 R85 | spec none | monotonic start of the blanking union, microseconds -/
  blankSince : Nat := 0
  /-- 1 | 04 R70, 16 R418 | spec: pulled up (not driven) in reset | RFRST_N level -/
  rfrstN : Bool := true
  /-- 1 | 04 R70, 16 R418 | spec 1 (pulled up) | RXEN_N -/
  rxenN : Bool := true
  /-- 1 | 04 R70, 16 R418 | spec 1 (pulled up) | TXEN_N -/
  txenN : Bool := true
  /-- 1 | 04 R70, 16 R418 | spec 1 (pulled up) | PAEN_N -/
  paenN : Bool := true
  /-- 48 bytes | 17 R449 | spec NOT_TRAINED, zeros | last training record -/
  train : TrainRec := {}
  /-- 17 R447 | spec false | a training is owed or running -/
  training : Bool := false
  /-- 17 R445 | spec false | the training owed has begun: the transceiver is out of reset -/
  trainRun : Bool := false
  /-- 17 R452 | spec false | its channeliser island failed the BIST of this start: the port is absent -/
  bistFail : Bool := false
  /-- monotonic time at which TXEN_N last rose | 04 R85, 05 R113 | spec 0 -/
  txenRise : Nat := 0
  /-- engine time at which the blanking interval of the port's own next transmission began | 04 R85 | spec none -/
  blankAt : Option Nat := none
  /-- monotonic microsecond at which the last blanking union ended | 04 R85 | spec 0 -/
  blankDone : Nat := 0
  /-- last sample handed to the channeliser (I, Q) after R67 and R68 | 04 R68 | DESIGN CHOICE 0 (log 5) -/
  lastSample : Int × Int := (0, 0)
  /-- 6 | 04 R69 | DESIGN CHOICE 0 (log 5) | dB by which the channeliser rescales that sample -/
  sampleGain : Nat := 0
  /-- 16 | 04 R66 | DESIGN CHOICE 0 (log 5) | status word of the last TX slot; its complement goes on D1 -/
  txStatus : BitVec 16 := 0
  deriving DecidableEq, Repr

/-- What a lane is doing (LANE_STATE, R79, R89). -/
inductive LaneRx where
  | idle
  /-- an SHR detected at a power, PHR not yet decoded; deep sync or SUN FSK -/
  | shr (power : Power) (deep : Bool)
  /-- a frame past its PHR: PSDU octets still to come, FCS left out -/
  | frame (left : Nat)
  /-- the queue refused a word: no more PSDU words; OVERFLOW trailer owed (R89) -/
  | overflow
  deriving DecidableEq, Repr

/-- One logical lane (R77 to R90). -/
structure Lane where
  /-- 04 R82 | spec OFF | active assignment -/
  asg : LaneAsg := {}
  /-- 04 R84 | spec none | assignment waiting for the lane's idle point -/
  next : Option LaneAsg := none
  /-- 04 R79 | spec idle | receive state -/
  rx : LaneRx := .idle
  /-- 04 R77, R80 | spec empty at a frame's start | octets of the PSDU so far, whitening undone: what the FCS is calculated over -/
  octets : List Byte := []
  /-- header word of the frame in progress | 04 R87 | spec 0 -/
  hdr : DWord := 0
  /-- fall-through queue | 06 R143 | spec empty -/
  queue : FtQueue := {}
  /-- 04 R90 | spec 0 | SHRs detected -/
  shrs : Word := 0
  /-- 04 R90 | spec 0 | PHR errors -/
  phrErr : Word := 0
  /-- 04 R90 | spec 0 | GOOD frames -/
  good : Word := 0
  /-- 04 R90 | spec 0 | CRC_BAD frames -/
  crcBad : Word := 0
  /-- 04 R90 | spec 0 | captures -/
  captures : Word := 0
  /-- 04 R90 | spec 0 | blanked frames -/
  blanked : Word := 0
  /-- 04 R90 | spec 0 | blanked time, microseconds -/
  blankUs : Nat := 0
  /-- 04 R90 | spec 0 | queue overflows -/
  qOvf : Word := 0
  /-- 04 R90 | spec 0 | frame-store overflows -/
  fsOvf : Word := 0
  /-- 16 | 04 R90 | spec 0x8000 (none) | RSSI of the last GOOD frame -/
  lastRssi : BitVec 16 := 0x8000
  /-- 16 | 04 R90 | DESIGN CHOICE 0 (log 5) | noise floor as last reported, 0.1 dBm: measured at each report (log 9) -/
  noise : BitVec 16 := 0
  /-- 5 x 32 | 04 R90 | spec 0 | GOOD frames per MODE; deep frames in entry 4 -/
  perMode : Tbl Word := []
  deriving DecidableEq, Repr

/-- Role of a physical lane (R480 to R482, LANE_MAP_GET). -/
inductive LaneRole where
  | serving (l : Nat) | spare | underTest | excluded | shadow (l : Nat)
  deriving DecidableEq, Repr

/-- Lane rotation (R481 to R484). -/
structure Rotation where
  /-- 19 R481 | spec 0 | next physical lane in cyclic order -/
  next : Nat := 0
  /-- lane in step | 19 R492 | spec none (0xFFFF) -/
  lane : Option Nat := none
  /-- shadow spare of the step and the logical lane it shadows | 19 R481 | spec none -/
  shadow : Option (Nat × Nat) := none
  /-- monotonic time at which the shadow began | 19 R481 | spec none -/
  shadowAt : Option Nat := none
  /-- monotonic time at which the last step began | 19 R481 | spec none since the start -/
  stepAt : Option Nat := none
  /-- the test of the lane in step has failed once | 19 R482 | spec false -/
  retest : Bool := false
  /-- 32 wrapping | 19 R492 | spec 0 | steps completed -/
  steps : Word := 0
  /-- 32 wrapping | 19 R492 | spec 0 | test failures -/
  testFails : Word := 0
  /-- physical lane to monotonic time of its last completed step | 19 R483 | spec empty: none since the start -/
  lastStep : Tbl Nat := []
  /-- lanes for which event 0xB4 has been raised | 19 R483 | spec empty -/
  lateRaised : List Nat := []
  deriving DecidableEq, Repr

/-! ### Air access (05) -/

/-- Sector state (Table 05-10). -/
inductive SectorState where
  | normal | fallback | degraded
  deriving DecidableEq, Repr

/-- A queued custody entry of a sector (R105, R107). -/
structure CustodyEntry where
  handle : Nat
  fcnt : Nat
  /-- it arrived on a DEEP lane (R106) -/
  deep : Bool := false
  carry : Nat := 0
  aged : Bool := false
  deriving DecidableEq, Repr

/-- The content frozen for a beacon and its train (R105). -/
structure BeaconContent where
  pending : List Nat := []
  beacon : List CustodyEntry := []
  train : List (List CustodyEntry) := []
  ackLevel : Nat := 0
  immAck : Bool := false
  deriving DecidableEq, Repr

/-- Listen-before-talk progress (R112). -/
structure Lbt where
  /-- 4 | 05 R112 | spec be_min | be -/
  be : Nat := 0
  /-- 4 | 05 R112 | spec 0 | nb -/
  nb : Nat := 0
  /-- 05 R112 | spec false | waiting for a backoff (true) or listening (false) -/
  backingOff : Bool := false
  /-- 05 R112 | spec 0 | monotonic end of the backoff -/
  until_ : Nat := 0
  /-- 05 R112 | spec false | nb passed nb_max: the procedure gave up -/
  ended : Bool := false
  deriving DecidableEq, Repr

/-- A due beacon (R104). -/
structure DueBeacon where
  bnum : Nat
  /-- B_b in engine time -/
  at_ : Nat
  /-- the port that sends it: the sector's own, or the fallback port (R127) -/
  viaPort : Nat
  content : Option BeaconContent := none
  lbt : Option Lbt := none
  /-- why it has not started yet, for the record of R127 -/
  reason : Nat := 0
  deriving DecidableEq, Repr

/-- Classes of transmission (R111, R113). -/
inductive TxClass where
  | beacon | ack | downlink
  deriving DecidableEq, Repr

/-- A transmission on air (R111). -/
structure AirTx where
  cls : TxClass
  sector : Nat
  /-- channel of the transmitting port -/
  channel : Nat
  subBand : Nat
  /-- engine time at which TXEN_N fell -/
  from_ : Nat
  /-- the same instant on the monotonic base (R113) -/
  monoFrom : Nat
  /-- instant at which the first TX slot with VALID leaves, TX_LAT before the antenna: engine time in units of 10 ns (R109) -/
  iqAt : Nat
  /-- engine time at which it is to rise -/
  until_ : Nat
  /-- custody entries carried, (handle, FCNT): they leave their queue at the end (R107) -/
  custody : List (Nat × Nat) := []
  deriving DecidableEq, Repr

/-- A scheduled link ack (R108, R109). -/
structure SchedAck where
  lane : Nat
  channel : Nat
  mode : Nat
  dw : Bool
  fcnt8 : Nat
  /-- end time of the frame acknowledged, engine time -/
  endTime : Nat
  /-- monotonic time of the decision (04 R85) -/
  decided : Nat
  deriving DecidableEq, Repr

/-- A downlink opportunity that a GOOD frame of a pending endpoint opened (R119), with its listening before talk. -/
structure DlOpp where
  handle : Nat
  channel : Nat
  mode : Nat
  /-- end time of the frame, engine time -/
  endTime : Nat
  /-- none once the channel was found clear, or where no listening is required -/
  lbt : Option Lbt := none
  deriving DecidableEq, Repr

/-- A charge held in a duty-cycle window (R113, R116). -/
structure Charge where
  cls : TxClass
  quanta : Nat
  /-- monotonic millisecond at which it was made -/
  at_ : Nat
  /-- a preset charge ages out evenly over the hour after its instant (R116) -/
  preset : Bool := false
  /-- quanta of it already aged out -/
  aged : Nat := 0
  deriving DecidableEq, Repr

/-- Duty-cycle account of one (port, sub-band) (R113 to R116, R128). -/
structure Duty where
  charges : List Charge := []
  /-- preset made since the start | 05 R116 | spec false -/
  presetDone : Bool := false
  /-- monotonic time of the end of the last transmission in it | 05 R115 | spec none -/
  lastEnd : Option Nat := none
  /-- 32 wrapping | 05 R128 | spec 0 | dwell refusals -/
  dwellRefused : Word := 0
  /-- monotonic ms of the last budget refusal, for event 0x26 | 05 R129 | spec none -/
  lastRefusal : Option Nat := none
  deriving DecidableEq, Repr

/-- One sector / RF port's air MAC (R100 to R128). -/
structure Sector where
  /-- 05 R127 | spec NORMAL -/
  state : SectorState := .normal
  /-- 8 | 20 R506, 05 R127 | spec 0 | consecutive missed beacons -/
  misses : Nat := 0
  /-- reasons of the consecutive misses | 05 R127 | spec empty -/
  reasons : List Nat := []
  /-- beacon intervals elapsed in FALLBACK | 05 R127 | spec 0 -/
  fbIntervals : Nat := 0
  /-- try the sector's own port at the next B_b | 05 R127 | spec false -/
  tryOwn : Bool := false
  /-- 8 | 05 R102 | spec 0 | channel-map epoch -/
  epoch : BitVec 8 := 0
  /-- custody entries of the sector, oldest commit first | 05 R105 | spec empty -/
  custody : List CustodyEntry := []
  /-- pending list, the part that CONNECT_OPEN enters: handles, oldest request first, with monotonic request time; the handles of campaign
  targets belong to it by R340 without being listed again | 05 R105, R125, 12 R340 | spec empty -/
  pendList : List (Nat × Nat) := []
  /-- beacon due and not yet started | 05 R104 | spec none -/
  due : Option DueBeacon := none
  /-- highest beacon number used since the start | 05 R104 | spec none -/
  lastB : Option Nat := none
  /-- a DEEP_BEACON is due after this beacon | 05 R106 | spec none -/
  deepDue : Option Nat := none
  /-- listening before talk for that DEEP_BEACON | 05 R112 | spec none -/
  deepLbt : Option Lbt := none
  /-- transmission on air on this port | 05 R111 | spec none -/
  tx : Option AirTx := none
  /-- scheduled link acks | 05 R109 | spec empty -/
  acks : List SchedAck := []
  /-- open DOWNLINK opportunities | 05 R119 | spec empty -/
  dlOpp : List DlOpp := []
  /-- 32 wrapping | 05 R128 | spec 0 | beacons sent -/
  sent : Word := 0
  /-- 32 wrapping | 05 R128 | spec 0 | beacons missed -/
  missed : Word := 0
  /-- 32 wrapping | 05 R128 | spec 0 | link acks sent -/
  acksSent : Word := 0
  /-- 7 x 32 wrapping | 05 R110, R128 | spec 0 | suppressions LATE, PROFILE, SUBBAND, BUSY, OFFTIME, DWELL, BUDGET -/
  suppr : Tbl Word := []
  /-- on-time per channel: (channel, first and last monotonic ms in which TXEN_N was low) | 05 R115 | spec empty -/
  dwell : List (Nat × Nat × Nat) := []
  deriving DecidableEq, Repr

/-! ### Power line (06) -/

/-- PLC port state, codes of PLCP_STAT. -/
inductive PlcState where
  | absent | disabled | calibrating | idle | fault | listening | transmitting
  deriving DecidableEq, Repr

/-- Calibration record (Table 06-12). -/
structure CalRec where
  /-- 8 | 06 R172 | spec 4 ABSENT (hw: Table 20-11 state ABSENT) | status -/
  status : Nat := 4
  /-- 8 | 06 R172 | DESIGN CHOICE 0 (log 5) | flags LOW_Z, HIGH_Z -/
  flags : Nat := 0
  /-- 16 | 06 R172 | DESIGN CHOICE 0 (log 5) | receive DC offset -/
  rxOff : Int := 0
  /-- 16 | 06 R172 | DESIGN CHOICE 0 (log 5) | transmit DC offset -/
  txOff : Int := 0
  /-- 16 | 06 R172 | DESIGN CHOICE 0 (log 5) | loop gain, 0.01 dB -/
  gain : Int := 0
  /-- 3 x 16 | 06 R172 | DESIGN CHOICE 0 (log 5) | impedance, 0.01 Ω -/
  zMag : List Nat := [0, 0, 0]
  /-- 3 x 16 | 06 R172 | DESIGN CHOICE 0 (log 5) | phase, 0.1° -/
  zPhase : List Int := [0, 0, 0]
  /-- 64 | 06 R172 | DESIGN CHOICE 0 (log 5) | engine time of the measurement -/
  time : Nat := 0
  deriving DecidableEq, Repr

/-- A PLC frame in reception (R140 to R142, R150): made by a header, gone at the frame's end. -/
structure PlcRx where
  /-- 2 | 06 R136 | MODE -/
  mode : Nat
  /-- 16 | 06 R140, R150 | mean header SNR, 0.1 dB -/
  hdrSnr : Int
  /-- PSDU octets without FCS still to come | 06 R150 -/
  left : Nat
  /-- soft bits of the payload symbols so far; an erased symbol's are zeros | 06 R140 -/
  soft : List (List Int) := []
  /-- octets decoded so far, FCS included | 06 R150, R153 -/
  got : List Byte := []
  /-- 9 | 06 R136 | LEN -/
  len : Nat := 0
  /-- decoded octets that do not fill a word yet | 06 R150 -/
  buf : List Byte := []
  /-- payload symbols received | 06 R150 -/
  symNo : Nat := 0
  /-- sum and number of the SNRs of unerased payload symbols | 06 R140 -/
  snrSum : Int := 0
  snrCnt : Nat := 0
  /-- a run of erasures is open | 06 R141 -/
  runOpen : Bool := false
  /-- erased payload symbols, those marked in advance included | 06 R142 -/
  erased : Nat := 0
  /-- symbols still to come that are erased in advance | 06 R141 -/
  preMark : Nat := 0
  /-- index of the first erased payload symbol | 06 R150 -/
  firstErased : Option Nat := none
  /-- sum and number of the unerased SNRs before the first erasure | 06 R150 -/
  befSum : Int := 0
  befCnt : Nat := 0
  /-- the same after the last erasure so far | 06 R150 -/
  aftSum : Int := 0
  aftCnt : Nat := 0
  /-- STEP flag | 06 R150 -/
  step : Bool := false
  /-- doomed: decoding has stopped | 06 R142 -/
  doomed : Bool := false
  /-- the queue refused a word: trailers with OVERFLOW are owed | 06 R151 -/
  overflow : Bool := false
  /-- the frame has ended while trailers are owed | 06 R151 -/
  ended : Bool := false
  deriving DecidableEq, Repr

/-- One PLC port. -/
structure PlcPort where
  /-- 8 | 06 R131 | spec 0 ABSENT (Table 20-11) | state -/
  state : PlcState := .absent
  /-- 1 | 06 R131, 16 R418 | spec 1 (pulled up) | LD_EN_N -/
  ldEnN : Bool := true
  /-- pin | 06 R132, 21 R509 | spec 1 (pulled up) | LD_FAULT_N as last seen -/
  ldFaultN : Bool := true
  /-- 2 | 20 R507 | spec 0 | PLC_BAND in force -/
  band : Nat := 0
  /-- monotonic time of the latest LD faults, newest first | 06 R132 | spec empty -/
  faults : List Nat := []
  /-- 32 bytes | 06 R172 | as CalRec | calibration record -/
  cal : CalRec := {}
  /-- DAC scale of PLC_TX_LEVEL over the loop gain, 0.01 dBµV | 06 R134, R172 | DESIGN CHOICE 0 (log 5) -/
  scale : Int := 0
  /-- the offset calibration of STAGE 0x07 passed and BIST left the port: it is not absent | 17 R450, R452 | spec false -/
  present : Bool := false
  /-- PLC_RECALIBRATE waits for the group's transaction to end | 06 R170 | spec false -/
  recalWait : Bool := false
  /-- 32 | 06 R170 | spec 0 | polls sent -/
  polls : Word := 0
  /-- 32 | 06 R170 | spec 0 | GOOD responses -/
  good : Word := 0
  /-- 32 | 06 R170 | spec 0 | deadlines passed -/
  deadlines : Word := 0
  /-- 32 | 06 R170 | spec 0 | IMPULSE frames -/
  impulse : Word := 0
  /-- 32 | 06 R170 | spec 0 | CRC_BAD frames -/
  crcBad : Word := 0
  /-- 32 | 06 R170 | spec 0 | header errors -/
  hdrErr : Word := 0
  /-- 32 | 06 R170 | spec 0 | reads overdue -/
  overdue : Word := 0
  /-- 32 | 06 R170 | spec 0 | mode escalations -/
  escal : Word := 0
  /-- 16 | 06 R170 | spec 0 | LD faults -/
  ldFaults : BitVec 16 := 0
  /-- 16 | 06 R170 | spec 0 | stray headers -/
  stray : BitVec 16 := 0
  /-- monotonic time of the last IMPULSE, for event 0x36 | 06 R171 | spec none -/
  lastImpulse : Option Nat := none
  /-- frame in reception | 06 R150 | spec none -/
  rx : Option PlcRx := none
  /-- link report of the last frame's last hop: LQI, BMOD, GMASK, erased | 06 R153 | DESIGN CHOICE zeros (log 5) -/
  report : Nat × Nat × Nat × Nat := (0, 0, 0, 0)
  /-- fall-through queue | 06 R143 | spec empty -/
  queue : FtQueue := {}
  deriving DecidableEq, Repr

/-- A transaction, queued or in progress (R158 to R161). -/
structure PlcTxn where
  /-- the model's own number -/
  id : Nat
  /-- 20 | 06 R158 | the endpoint polled -/
  handle : Nat
  /-- 4 | 06 R158 | the port -/
  port : Nat
  /-- KIND bits asked for, R155: 1 READ, 2 NBR, 4 CUST, 8 DL -/
  kind : Nat
  /-- 06 R160 | 1 to 4 -/
  rank : Nat
  /-- monotonic time at which it fell due | 06 R160 -/
  due : Nat
  /-- campaign whose step it carries | 12 R341 -/
  camp : Option Nat := none
  /-- number of the attempt in progress or last made; 0 before the first | 06 R158 -/
  attempt : Nat := 0
  /-- an attempt is in progress: transmitting or listening | 06 R159 -/
  inAttempt : Bool := false
  /-- 16 | 06 R153 | PSEQ -/
  pseq : Nat := 0
  /-- 32 | 06 R153 | DCNT -/
  dcnt : Nat := 0
  /-- relays of its route | 06 R167 -/
  relays : List Nat := []
  /-- it goes DIRECT in Gale for want of a usable route | 06 R167 -/
  gale : Bool := false
  /-- the port group that it holds | 06 R158 -/
  group : List Nat := []
  /-- 16 | 06 R153 | NET of all its attempts -/
  net : Nat := 0
  /-- 16 | 06 R153 | RESP_MAX of all its attempts -/
  respMax : Nat := 0
  /-- FCNTs of its CUST element | 06 R155 -/
  custody : List Nat := []
  /-- ADDR, CNT, payload and MIC, the same in every attempt | 06 R158 -/
  secured : List Byte := []
  /-- t_p of the attempt, engine time | 06 R159 -/
  pollEnd : Nat := 0
  /-- deadline D of the attempt, engine time | 06 R159 -/
  deadline : Nat := 0
  /-- monotonic time of the next attempt | 06 R132, R161 -/
  nextAt : Nat := 0
  /-- it waits for a line-driver retry | 06 R132 -/
  ldRetry : Bool := false
  /-- its next attempt stands at the transmit gate | 19 R474 -/
  gate : Bool := false
  /-- a GOOD frame has ended and the directory has not judged it yet | 06 R159 -/
  judging : Bool := false
  deriving DecidableEq, Repr

/-- A directed link of the link table (R162, R164). Nodes: none is the engine port. -/
structure PlcLink where
  port : Nat
  src : Option Nat
  dst : Option Nat
  /-- 06 R162 | spec 2: a link learnt for the first time starts in Gale -/
  mode : Nat := 2
  /-- Breeze settings in use | 06 R162 -/
  bmod : Nat := 0
  gmask : Nat := 0
  /-- latest suggestion of the receiver: BMOD, GMASK | 06 R162 -/
  sug : Nat × Nat := (0, 0)
  lqi : Nat := 0
  run : Nat := 0
  penalty : Nat := 0
  /-- monotonic time of the last refresh -/
  refreshed : Nat := 0
  deriving DecidableEq, Repr

/-- A proposal of the route proposal list (R167). -/
structure RouteProposal where
  handle : Nat
  relays : List Nat
  cost : Nat
  oldCost : Nat
  deriving DecidableEq, Repr

/-- The PLC MAC (R158 to R167). -/
structure PlcMac where
  /-- queued transactions of all port groups, in order of arrival | 06 R160 | spec empty -/
  queue : List PlcTxn := []
  /-- transaction in progress per port group, keyed by its port | 06 R158 | spec empty -/
  running : Tbl PlcTxn := []
  /-- per port, engine time at which its last transaction ended | 06 R159 | spec none -/
  freeAt : Tbl Nat := []
  /-- 16 | 06 R153, R158 | DESIGN CHOICE 0 (log 5) | PSEQ of the last transaction started -/
  pseq : Nat := 0
  /-- number that the next transaction takes, the model's own | — | DESIGN CHOICE 0 (log 5) -/
  txnId : Nat := 0
  /-- link table | 06 R164 | spec empty -/
  links : List PlcLink := []
  /-- 65 536 paths: index to (port, relays) | 06 R166 | spec empty -/
  paths : Tbl (Nat × List Nat) := []
  /-- 4 096 entries | 06 R167 | spec empty | proposals, oldest first -/
  proposals : List RouteProposal := []
  /-- monotonic time of the last round of neighbour requests | 06 R160 | spec none -/
  lastNbr : Option Nat := none
  /-- monotonic time of the last run over all routes | 06 R167 | spec none -/
  lastRecalc : Option Nat := none
  /-- monotonic time of the last event 0x35 | 06 R166 | spec none -/
  lastFull : Option Nat := none
  /-- per group (its lowest port), whether each of the last rank-2 starts was a campaign's, newest first, at most 64 | 12 R341 | spec empty -/
  share : Tbl (List Bool) := []
  /-- PLC_POLL_NOW: transaction number and PendOp id | 06 R170 | spec empty -/
  pollNow : List (Nat × Nat) := []
  deriving DecidableEq, Repr
/-! ### Directory and endpoints (07, 10, 12, 13) -/

/-- Admission state (Table 07-2). -/
inductive Adm where
  | empty | admitted | restoring | suspended | retiring | pending
  deriving DecidableEq, Repr

/-- Air state (Table 05-9). -/
inductive AirState where
  | unseen | tracking | drifting | lost | opening | connected
  deriving DecidableEq, Repr

/-- Poll state (Table 06-9). -/
inductive PollState where
  | unpolled | reachable | suspect | unreachable
  deriving DecidableEq, Repr

/-- A slot of the admission table (Table 07-1). -/
structure AdmSlot where
  handle : Nat
  tag : Nat
  plc : Bool
  state : Adm
  deriving DecidableEq, Repr

/-- A stash entry (R175). -/
structure StashEntry where
  addr : DWord
  handle : Nat
  plc : Bool
  state : Adm
  deriving DecidableEq, Repr

/-- A cumulative slot of the ledger image (R240). -/
structure CumSlot where
  value : Int := 0
  time : Nat := 0
  deriving DecidableEq, Repr

/-- A maximum-demand register (Table 10-1). -/
structure MdReg where
  value : Nat := 0
  idx : Nat := 0xFFFF
  deriving DecidableEq, Repr

/-- Tamper tallies (Table 07-7). -/
structure Tally where
  mic : Nat := 0
  stale : Nat := 0
  jump : Nat := 0
  reported : Nat := 0
  suspended : Nat := 0
  medium : Nat := 0
  last : Nat := 0
  deriving DecidableEq, Repr

/-- The ledger image: context bytes 256 to 495 (Tables 07-5, 10-1). -/
structure Image where
  fcntTop : Nat := 0
  win : DWord := 0
  tally : Tally := {}
  slots : Tbl CumSlot := []
  pseq : Nat := 0
  pstart : Nat := 0
  tou : Tbl Nat := []
  total : Tbl (BitVec 40) := []
  adj : Tbl Nat := []
  md : Tbl MdReg := []
  dacc : Nat := 0
  didx : Nat := 0xFFFF
  crSum : Word := 0
  crLast : Nat := 0
  cal : Nat := 0xFF
  lflags : BitVec 8 := 0
  deriving DecidableEq, Repr

/-- A key blob (Table 13-5). -/
structure Blob where
  wrapped : List Byte
  wslot : Nat
  wgen : Word
  deriving DecidableEq, Repr

/-- Everything the engine keeps per enrolled endpoint: context, enrolment and the state of other chapters that the context refers to. -/
structure Endpoint where
  addr : DWord := 0
  plc : Bool := false
  port : Nat := 0
  relay : Bool := false
  isNew : Bool := false
  susp : Bool := false
  adm : Adm := .pending
  cls : Nat := 0
  profile : Nat := 0
  serial : Bool := false
  reportS : Nat := 0
  /-- report period in force: reportS as of the last GOOD frame or successful read (R190) -/
  reportIn : Nat := 0
  supervS : Nat := 0
  keyGen : Word := 0
  dcnt : Nat := 0
  /-- engine time of the last GOOD frame or successful read; 0 none -/
  lastGood : Nat := 0
  winLo : Nat := 0
  winHi : Nat := 0
  /-- an expected arrival window is open (R120) -/
  winOpen : Bool := false
  /-- engine time from which supervision runs: T_c, the final response, or the last frame -/
  supFrom : Nat := 0
  air : AirState := .unseen
  connOutcome : Nat := 0
  connPort : Nat := 0
  connCode : Nat := 0
  /-- number k' of the next EVENT; EVCNT is its low 16 bits (R123) -/
  evcnt : Nat := 0
  missed : Nat := 0
  connSupervMs : Nat := 0
  openDeadline : Nat := 0
  connT0 : Nat := 0
  hop : Nat := 0
  seed : Nat := 0
  connMapBase : Nat := 0
  connMapMask : DWord := 0
  /-- port, channel and engine time of the end of the last EVENT sent (R124) -/
  lastEvent : Option (Nat × Nat × Nat) := none
  /-- CONNECT has been sent and its reply is awaited (R125) -/
  connectSent : Bool := false
  /-- DISCONNECT goes in the next EVENT (R126) -/
  closing : Bool := false
  /-- UPDATE in progress: k_u once an EVENT has carried it, and the new map (R126) -/
  update : Option (Option Nat × Nat × DWord) := none
  /-- FCNTs journaled since the last EVENT, oldest first (R124) -/
  evCustody : List Nat := []
  /-- FCNTs awaiting the next POLL, oldest first, with the engine second of the oldest commit (R160) -/
  plcCustody : List Nat := []
  plcCustodySince : Nat := 0
  /-- path index, none is DIRECT (R166) -/
  path : Option Nat := none
  pinnedRoute : Bool := false
  poll : PollState := .unpolled
  pollFails : Nat := 0
  nextRead : Nat := 0
  /-- mark the next POLL with NBR (R160) -/
  nbrDue : Bool := false
  tariffCal : Nat := 0xFFFF
  lastPort : Nat := 0
  dupCnt : Word := 0
  staleCnt : Word := 0
  img : Image := {}
  /-- event 0x43 raised (R200) -/
  fcntHigh : Bool := false
  /-- bytes 0 to 255 and the mirror both lost (Table 08-7) -/
  ctxLost : Bool := false
  /-- the ledger image is lost until its single-page restore (Table 08-7) -/
  imgLost : Bool := false
  /-- the key blob is lost until reloaded (Table 08-7) -/
  blobLost : Bool := false
  /-- TIMEOUT/MISMATCH holds SWITCH targets (R339) -/
  switchFault : Bool := false
  /-- retirement: monotonic time at which DIR_RETIRE_HOLD_S passes (R184) -/
  retireAt : Option Nat := none
  /-- WITHDRAW_CLOSE committed (R290) -/
  closedOut : Bool := false
  /-- key of the present blob, unwrapped into the resident context; empty when that unwrap failed (R362) -/
  keyHeld : Option (List Byte) := none
  deriving DecidableEq, Repr

/-- Where a stored frame stands (Table 07-6). -/
inductive FrameStage where
  /-- waits in serial order (R197) -/
  | serial
  /-- waits for a fetch buffer (R219) -/
  | buffer
  /-- joined an outstanding fetch -/
  | fetch
  /-- accepted by deduplication, group being built: waits for its commit (step 14) -/
  | commit
  /-- waits because the journal is not NORMAL, since a monotonic time (R248) -/
  | journal (since : Nat)
  deriving DecidableEq, Repr

/-- A quantity entry of a profile (Table 09-2). -/
structure QEntry where
  obis : Nat := 0
  kind : Nat := 0
  unit : Nat := 0
  roll : Nat := 0
  actAge : Nat := 0
  actNeg : Nat := 0
  actRate : Nat := 0
  maxAge : Nat := 0
  limit : DWord := 0
  deriving DecidableEq, Repr

/-- A frame in the frame store. -/
structure Frame where
  id : Nat
  handle : Nat
  lane : Nat := 0
  port : Nat := 0
  channel : Nat := 0
  mode : Nat := 0
  deep : Bool := false
  plc : Bool := false
  /-- 64-bit address the frame carries -/
  src : DWord := 0
  fcnt : Nat := 0
  /-- DL_CONF or DLCONF -/
  dlConf : Option Nat := none
  sec : Bool := false
  aad : List Byte := []
  body : List Byte := []
  mic : List Byte := []
  rssi : Int := 0
  endTime : Nat := 0
  /-- engine time of its first symbol at the antenna (05 R124) -/
  startTime : Nat := 0
  /-- 256-byte slots it takes, consecutive -/
  slots : Nat := 1
  /-- 0 to 16 383, the first of them (01 R9) -/
  at_ : Nat := 0
  stage : FrameStage := .serial
  /-- plain payload after step 12 -/
  plain : List Byte := []
  /-- PSEQ and the link-report slots of a RESPONSE (06 R153) -/
  pseq : Nat := 0
  report : List Byte := []
  /-- the length field of a RESPONSE's READINGS element is out of its range or past the payload (09 R235) -/
  badLen : Bool := false
  /-- profile entries that a PROFILE_SET replaced after the frame had reached step 14 (09 R261) -/
  prof : Option (Nat × List QEntry) := none
  deriving DecidableEq, Repr

/-- An entry of the unknown-address list (R204). -/
structure UnkEntry where
  addr : DWord
  count : Nat
  last : Nat
  port : Nat
  medium : Nat
  rssi : Int
  deriving DecidableEq, Repr

/-- Directory island state (07). -/
structure Dir where
  /-- 128 | 07 R174 | drawn from the DRBG at each start: a free value (log 9) | K_dir drawn, its draw number -/
  kdir : Option Nat := none
  /-- 327 680 buckets of 4 slots: key 4 x bucket + slot | 07 R173 | spec empty -/
  table : Tbl AdmSlot := []
  /-- 256 entries | 07 R175 | spec empty -/
  stash : Tbl StashEntry := []
  /-- 0 idle, 1 queued, 2 running | 07 R180 | spec 0 -/
  rehash : Nat := 0
  /-- batch waiting to switch from PENDING: PendOp id and entries (R183) -/
  frames : List Frame := []
  nextFrame : Nat := 0
  unknown : List UnkEntry := []
  lookups : Word := 0
  notFound : Word := 0
  aliases : Word := 0
  dups : Word := 0
  stales : Word := 0
  deferred : Word := 0
  mediumMis : Word := 0
  suspFrames : Word := 0
  keyUnav : Word := 0
  formatDisc : Word := 0
  deriving DecidableEq, Repr

/-! ### Memory, cache, DMA (08) -/

/-- A cache entry (R215, R217). -/
structure CacheEnt where
  handle : Nat
  ref : Bool := true
  dirty : Bool := false
  deriving DecidableEq, Repr

/-- One DRAM rank. -/
structure Rank where
  trained : Bool := false
  marked : Option Nat := none
  /-- a second device reached the threshold -/
  second : Bool := false
  /-- corrected bursts: (device, burst, engine second) -/
  corr : List (Nat × Nat × Nat) := []
  /-- corrected reads per row: (row, engine second) -/
  rows : List (Nat × Nat) := []
  /-- no soft-repair resource left -/
  noPpr : Bool := false
  /-- 08 R214, 17 R440 | spec none | rows whose soft repair is in force -/
  repaired : List Nat := []
  deriving DecidableEq, Repr

/-- Memory island state. -/
structure Mem where
  installedMiB : Nat := 0
  ranks : Tbl Rank := []
  /-- context cache, in sweep order from the hand | 08 R215, R217 | spec empty -/
  cache : List CacheEnt := []
  /-- outstanding fetches: handles (64 buffers) | 08 R219 | spec empty -/
  fetches : List Nat := []
  /-- handles held in a fetch buffer as pass-through -/
  passThru : List Nat := []
  /-- write-back buffer: handles | 08 R217 | spec empty -/
  writeBacks : List Nat := []
  /-- burst at which the patrol scrub stands -/
  scrubPos : Nat := 0
  /-- soft repair waiting for or holding its token: (rank, row) -/
  repairReq : Option (Nat × Nat) := none
  /-- 08 R214 | spec empty | soft repairs behind it, in the order of their requests -/
  repairWait : List (Nat × Nat) := []
  /-- 08 R213 | spec none | monotonic time at which the scrub pass in progress began -/
  scrubFrom : Option Nat := none
  corrected : Word := 0
  uncorrectable : Word := 0
  ctxRebuilt : Word := 0
  imgRebuilt : Word := 0
  ctxLost : Word := 0
  scrubPasses : Word := 0
  peakFetch : Nat := 0
  passThrus : Word := 0
  deriving DecidableEq, Repr

/-- A translation window (R223). -/
structure Xlate where
  base : DWord := 0
  size : Nat := 0
  rd : Bool := false
  wr : Bool := false
  deriving DecidableEq, Repr

/-- DMA channel state (Table 08-5). -/
inductive ChanState where
  | disabled | idle | running | stopped
  deriving DecidableEq, Repr

/-- Streams that a channel can carry (R225). -/
inductive Stream where
  | exports | pages | restore | statements | balance | slateDump
  deriving DecidableEq, Repr

/-- A DMA channel. -/
structure Chan where
  /-- 2 | 08 R227 | spec DISABLED | state of Table 08-5 -/
  state : ChanState := .disabled
  /-- 64 | 08 R225 | spec 0 (no ring set) | bus address of the ring -/
  ring : DWord := 0
  /-- 4 | 08 R225 | spec 0 | size code: log2 of descriptors -/
  log2 : Nat := 0
  /-- 32 | 08 R225, 20 R502 | spec 0 | DMA_PI -/
  pi : Word := 0
  /-- 32 | 08 R225, 20 R502 | spec 0 | DMA_CI -/
  ci : Word := 0
  /-- 08 R225 | spec none | stream bound -/
  stream : Option Stream := none
  /-- 32 wrapping | 08 R232 | spec 0 | descriptors done -/
  done : Word := 0
  /-- 32 wrapping | 08 R232 | spec 0 | faults -/
  faults : Word := 0
  /-- active descriptor: its 32 bytes as read, and the bytes transferred so far | 08 R224, R226 | spec none -/
  active : Option (List Byte × Nat) := none
  /-- 08 R228 | spec none | the engine-to-host bytes of the descriptor at DMA_CI, held until its record is posted -/
  held : Option (List Byte) := none
  deriving DecidableEq, Repr

/-! ### Pipeline and journal (09) -/

/-- Journal entry bodies (Table 09-5, Tables 10-11, 12-6). -/
inductive JBody where
  | time (trust : Bool) (secs : Nat)
  | reading (h fcnt qty action age : Nat) (pr : Bool) (delta : Int)
  | contTime (secs : Nat)
  | contValue (v : Int)
  | frame (h fcnt : Nat) (malformed pr : Bool)
  | tamper (h fcnt code age : Nat) (pr : Bool)
  | calTransition (idx : Nat) (demand close tier activate host catchup : Bool) (at_ cseq ver : Nat)
  | pwrfail (recovered : Bool) (secs frac : Nat)
  | adjust (h slot reason amount pseq : Nat)
  | timeStep (old new : Nat) (restored : Bool)
  | calLoad (idx calId ver : Nat) (pending : Bool)
  | pageLost (page ver resume : Nat)
  | seal (openNow whileOff : Bool) (count secs : Nat)
  | calChange (h old new : Nat)
  | withdrawClose (h pseq : Nat)
  | historyIgnored (h pseq : Nat)
  | creditIssue (h n amount camp : Nat)
  | creditApplied (h n amount : Nat) (rpt late : Bool)
  | creditReturn (h n amount : Nat)
  | dlConfirm (h dcnt camp kind cmd : Nat)
  | switchRelease (h seq st camp notAfter : Nat)
  | switchResult (h seq result reported : Nat)
  | campState (camp kind st : Nat)
  | bundle (bseq first count mode : Nat)
  deriving DecidableEq, Repr

/-- An export record (Table 09-6). -/
structure ExpRec where
  addr : DWord
  handle : Nat
  rkind : Nat
  fcnt : Nat
  jseq : Nat
  time : Nat
  value : Int
  delta : Int
  qty : Nat
  action : Nat
  checks : BitVec 8
  profile : Nat
  pr : Bool
  deriving DecidableEq, Repr

/-- A committed journal entry. -/
structure JEntry where
  jseq : Nat
  body : JBody
  last : Bool
  /-- waits for its bundle's confirmation (R247) -/
  needBundle : Bool := false
  /-- pages whose confirmation it waits for (R27): page and the version that will carry it, 0 until sealed -/
  needPages : List (Nat × Nat) := []
  /-- the export record that the entry yields (R252), which a rebuild after a start gives unchanged (R259) -/
  exp : Option ExpRec := none
  deriving DecidableEq, Repr

/-- Journal state (R248). -/
inductive JState where
  | normal | full | suspended | failed
  deriving DecidableEq, Repr

/-- The legal journal in eNVM (R242): kept through every reset. -/
structure JournalNv where
  /-- 393 216 entries | 09 R242 | DESIGN CHOICE empty (log 12) | entries between tail and head that a valid mark completes, oldest first -/
  entries : List JEntry := []
  /-- 09 R249 | DESIGN CHOICE empty (log 12) | indices of the array whose cells read back wrong -/
  bad : List Nat := []
  /-- 32 | 09 R242, 10 R287 | DESIGN CHOICE 0 (log 12) | head JSEQ: the next entry's sequence number -/
  head : Nat := 0
  /-- 32 | 09 R242 | DESIGN CHOICE 0 (log 12) | tail JSEQ: the oldest occupied entry -/
  tail : Nat := 0
  /-- 09 R249 | DESIGN CHOICE false (log 12) | the area has failed -/
  failed : Bool := false
  deriving DecidableEq, Repr

/-- The volatile state of the journal. -/
structure Journal where
  /-- 2 | 09 R248, 20 R497 | spec NORMAL | journal state as reported -/
  state : JState := .normal
  /-- 09 R248 | spec false | suspended for a lapse of C1 -/
  c1 : Bool := false
  /-- 09 R248, 10 R280 | spec false | suspended for PWRFAIL_N -/
  pwr : Bool := false
  /-- 09 R250 | spec false: before replay | the journal of this start has been replayed -/
  replayed : Bool := false
  /-- latest TIME entry: seconds and trust | 09 R246 | spec none at a start -/
  lastTime : Option (Nat × Bool) := none
  /-- index failures in a row | 09 R249 | spec 0 -/
  badRun : Nat := 0
  /-- a SEAL entry is owed: changed while off, opening state | 10 R294 | spec none -/
  sealOwed : Option (Bool × Bool) := none
  /-- 02 R29 | spec false | no custody ack goes out: the journal has left NORMAL and no group has committed in NORMAL since -/
  noCustody : Bool := false
  deriving DecidableEq, Repr

/-- A period statement (Table 10-6). -/
structure Stmt where
  addr : DWord
  handle : Nat
  reason : Nat
  pseq : Nat
  pstart : Nat
  close : Nat
  cal : Nat
  version : Nat
  cseq : Nat
  img : Image
  deriving DecidableEq, Repr

/-- A bundle, open, closed, or signed (R254 to R258). -/
structure Bundle where
  mode : Nat
  records : List ExpRec := []
  /-- statements, when it is a statement bundle (10 R277) -/
  stmts : List Stmt := []
  openTime : Nat := 0
  closeTime : Nat := 0
  bseq : Nat := 0
  rebuilt : Bool := false
  slot : Nat := 0xFFFF
  gen : Word := 0
  sig : List Byte := []
  /-- written, and not rewound since (R257, R258) -/
  written : Bool := false
  /-- written at least once in this start (R258) -/
  once : Bool := false
  deriving DecidableEq, Repr

/-- The reading pipeline's provenance state. -/
structure Prov where
  /-- 64 profiles x 16 entries: key 16 x profile + QTY | 09 R237 | spec KIND 0 -/
  profiles : Tbl QEntry := []
  list : List Nat := []
  open_ : Option Bundle := none
  openOvf : Option Bundle := none
  closed : List Bundle := []
  closedPr : List Bundle := []
  signed : List Bundle := []
  nextBseq : Nat := 1
  backlog : Nat := 0
  /-- 09 R256 | spec none | monotonic time of the last signature of a single record -/
  lastPr : Option Nat := none
  overflow : Bool := false
  stopped : Bool := false
  chan : Option Nat := none
  /-- PendOp of an EXPORT_STOP in progress -/
  stopping : Option Nat := none
  /-- bytes of the bundle being written that earlier descriptors took -/
  offset : Nat := 0
  readings : Word := 0
  malformed : Word := 0
  waitDisc : Word := 0
  nonNone : Word := 0
  lastHeld : Option Nat := none
  lastMalf : Option Nat := none
  deriving DecidableEq, Repr
/-! ### Slate recorder (14) -/

/-- Recorder state (Table 14-7). -/
inductive RecState where
  | normal | spare | latchOnly
  deriving DecidableEq, Repr

/-- A Slate record (Table 14-3), in the queue or in the ring. -/
structure SRec where
  code : Nat
  spare : Bool := false
  trust : Bool := false
  seq : Word
  /-- engine time at admission (R374) -/
  stamp : DWord
  /-- padded to a multiple of 8 bytes (R371) -/
  payload : List Byte := []
  supp : Nat := 0
  /-- ring offset once written (R378) -/
  off : Nat := 0
  /-- a word of it is uncorrectable: delivered as SLATE_LOST (R383, R388) -/
  lost : Bool := false
  deriving DecidableEq, Repr

/-- A checkpoint copy (R386). -/
structure Ckpt where
  valid : Bool := false
  headSeq : Word := 0
  headOff : Nat := 0
  tailSeq : Word := 0
  tailOff : Nat := 0
  retired : Nat := 0
  deriving DecidableEq, Repr

/-- The part of the recorder in eNVM: kept through every reset and power loss. -/
structure SlateNv where
  /-- 3 states | 14 R390 | DESIGN CHOICE NORMAL (log 12) | recorder state that the repair ledger records -/
  state : RecState := .normal
  /-- 8 MiB area | 14 R378 | DESIGN CHOICE empty (log 12) | records held whole in the region now written, oldest first -/
  ring : List SRec := []
  /-- 14 R378 | DESIGN CHOICE 0 (log 12) | ring offset at which the writer stands -/
  wrOff : Nat := 0
  /-- blocks that hold an uncorrectable word, retired when the writer next reaches them | 14 R388 | DESIGN CHOICE empty (log 12) -/
  badBlocks : List Nat := []
  /-- 32 | 14 R390 | DESIGN CHOICE 0 (log 12) | SEQ that RECORDER_FAILED took -/
  failSeq : Word := 0
  /-- 32 bytes | 14 R386 | DESIGN CHOICE valid, empty ring (log 12) | checkpoint copy A -/
  ckA : Ckpt := { valid := true }
  /-- 32 bytes | 14 R386 | DESIGN CHOICE not yet written (log 12) | checkpoint copy B -/
  ckB : Ckpt := {}
  /-- 32 | 14 R393 | DESIGN CHOICE 0 (log 12) | scrub passes completed -/
  scrubPasses : Word := 0
  /-- 32 | 14 R393 | DESIGN CHOICE 0 (log 12) | words corrected -/
  corrected : Word := 0
  /-- 32 | 14 R393 | DESIGN CHOICE 0 (log 12) | words uncorrectable -/
  uncorrectable : Word := 0
  deriving DecidableEq, Repr

/-- One code's token bucket and counts (R380). -/
structure Bucket where
  /-- tokens taken from the full bucket: it holds b - used -/
  used : Nat := 0
  /-- start of the refill clock (monotonic) and tokens gained since, while the bucket is not full -/
  clock : Option (Nat × Nat) := none
  pendingCount : Nat := 0
  suppTotal : Word := 0
  admitted : Word := 0
  deriving DecidableEq, Repr

/-- A dump in progress (R385). -/
structure Dump where
  chan : Nat
  pendId : Nat
  /-- next SEQ to deliver, the end SEQ and the first SEQ delivered -/
  next : Word
  stop : Word
  first : Word
  bytes : Nat := 0
  count : Nat := 0
  /-- bytes of the record in progress that an earlier descriptor took -/
  offset : Nat := 0
  /-- 08 R228 | spec none | the records that the descriptor in progress delivers -/
  recs : List (List Byte) := []
  deriving DecidableEq, Repr

/-- The volatile part of the recorder: cleared by every reset of reach SYSRST or wider. -/
structure Slate where
  /-- 14 R386 | spec: before the start scan | the start scan of this start is done -/
  opened : Bool := false
  /-- records required before the start scan, by code and payload, oldest first | 14 R386 | spec empty -/
  early : List (Nat × List Byte) := []
  /-- 32 | 14 R378, 20 R497 | hw (DESIGN CHOICE 0 before the scan) (log 5) | SLATE_HEAD_SEQ -/
  head : Word := 0
  /-- 24 KiB | 14 R376 | spec empty | write queue, oldest first -/
  queue : List SRec := []
  /-- privileged records waiting for room, by code and payload, oldest first | 14 R376 | spec empty -/
  waiting : List (Nat × List Byte) := []
  /-- 512 codes | 14 R380 | spec full buckets, counts 0 | token buckets -/
  buckets : Tbl Bucket := []
  /-- 32 | 14 R393 | spec 0 | records admitted -/
  admitted : Word := 0
  /-- 32 | 14 R393 | spec 0 | ordinary records suppressed -/
  ordSupp : Word := 0
  /-- 32 | 14 R393 | spec 0 | privileged records suppressed -/
  privSupp : Word := 0
  /-- 16 | 14 R393 | spec 0 | peak queue use, bytes -/
  peak : Nat := 0
  /-- 32 | 14 R393 | spec 0 | records delivered as SLATE_LOST -/
  lostDelivered : Word := 0
  /-- 14 R393 | spec: the start | monotonic time of the last checkpoint -/
  lastCkpt : Nat := 0
  /-- 14 R386 | spec false | the head has moved since the last checkpoint -/
  moved : Bool := false
  /-- 14 R386 | spec A | the next checkpoint copy written is B -/
  nextB : Bool := false
  /-- consecutive blocks in which writes failed | 14 R389 | spec 0 -/
  badRun : Nat := 0
  /-- monotonic time of the last suppressed privileged record | 14 R394 | spec none -/
  lastPrivSupp : Option Nat := none
  /-- dump in progress | 14 R385 | spec none -/
  dump : Option Dump := none
  deriving DecidableEq, Repr

/-! ### Backup island (15) -/

/-- One alarm (Table 15-5). -/
structure Alarm where
  /-- 32 | 15 R408 | spec 0 | ALMn_TIME -/
  time : Word := 0
  /-- 32 | 15 R408 | spec 0 | ALMn_DATE -/
  date : Word := 0
  /-- 2 | 15 R408 | spec 0 | ALMn_CTRL -/
  ctrl : Word := 0
  deriving DecidableEq, Repr

/-- One tamper input's latch (R410). -/
structure Tamper where
  /-- 16 saturating | 15 R410 | spec 0 | activation count -/
  count : Nat := 0
  /-- 32 | 15 R410 | spec 0 | FIRST -/
  first : Word := 0
  /-- 32 | 15 R410 | spec 0 | LAST -/
  last : Word := 0
  /-- 15 R410 | spec false | time was untrusted at FIRST -/
  firstUntr : Bool := false
  /-- 15 R410 | spec false | time was untrusted at LAST -/
  lastUntr : Bool := false
  /-- 15 R410, R413 | spec false | the input was found active at its latest activation: "active now" of TAMPER_GET (no row reports its return) -/
  active : Bool := false
  deriving DecidableEq, Repr

/-- The backup island: kept by every main-domain reset, lost only at POR_BKP (R395). -/
structure Backup where
  /-- eight counters | 15 R398 | spec 2000-01-01 00:00:00.000, WDAY 0 | RTC_SUBSEC to RTC_WDAY -/
  cal : Calendar := {}
  /-- firmware read shadow, with its first read time | 15 R401 | spec none -/
  shadow : Option (Calendar × Nat) := none
  /-- write set, with its opening time | 15 R402 | spec none -/
  writeSet : Option (Calendar × Nat) := none
  /-- last value a firmware register read returned, the model's own way to show a read | 15 R401 | DESIGN CHOICE 0 (log 5) -/
  lastRead : Nat := 0
  /-- 10 signed | 15 R403 | spec 0 | RTC_TRIM as written -/
  trim : Int := 0
  /-- trim in force in the window now running | 15 R403 | spec 0 -/
  trimNow : Int := 0
  /-- tick of the 2^20-cycle window now running | 15 R403 | DESIGN CHOICE 0 (log 5) -/
  winTick : Nat := 0
  /-- monotonic time of the last measurement of VBAT | 15 R396 | spec none -/
  lbvAt : Option Nat := none
  /-- 1 | 15 R405 | spec: measured (false until measured) | LBV -/
  lbv : Bool := false
  /-- 1 | 15 R405 | spec 1 | RLF -/
  rlf : Bool := true
  /-- 1 | 15 R405 | spec 0 | OVF -/
  ovf : Bool := false
  /-- 1 | 15 R405 | spec 0 | DATE_ERR -/
  dateErr : Bool := false
  /-- 1 | 15 R405 | spec 0 | SHADOW_TO -/
  shadowTo : Bool := false
  /-- 1 | 15 R405 | spec 0 | ALM0 -/
  alm0 : Bool := false
  /-- 1 | 15 R405 | spec 0 | ALM1 -/
  alm1 : Bool := false
  /-- 1 | 15 R405 | spec 1 | OSF -/
  osf : Bool := true
  /-- 1 | 15 R405 | spec 0 | WR_TO -/
  wrTo : Bool := false
  /-- 1 | 15 R405 | spec 1 | ON_VBAT -/
  onVbat : Bool := true
  /-- 2 alarms | 15 R408 | spec 0 | alarm registers -/
  alarms : Tbl Alarm := []
  /-- 1 | 15 R409 | spec 0 | PWR_CTRL.OFF -/
  pwrOff : Bool := false
  /-- pin | 15 R409 | spec 1 (pulled high during POR_BKP, then driven high) | PWRON -/
  pwron : Bool := true
  /-- POWER_OFF accepted: engine time at which PWRON goes low | 15 R409 | spec none -/
  offAt : Option Nat := none
  /-- 4 x 8 | 15 R410 | spec 0 | TAMP_CFG bytes -/
  tampCfg : Tbl (BitVec 8) := []
  /-- 4 latches | 15 R410 | spec 0 | tamper latches -/
  tamp : Tbl Tamper := []
  /-- 1 | 15 R411 | spec closed | SEAL_STAT.OPEN -/
  sealOpen : Bool := false
  /-- 32 | 15 R411 | spec 0 | SEAL_COUNT -/
  sealCount : Word := 0
  /-- 32 | 15 R411 | spec 0 | seal FIRST -/
  sealFirst : Word := 0
  /-- 32 | 15 R411 | spec 0 | seal LAST -/
  sealLast : Word := 0
  /-- 1 | 14 R391 | spec 0 | RECF_STAT.RECF -/
  recf : Bool := false
  /-- 1 | 14 R391 | spec 0 | RECF_STAT.SPAREF -/
  sparef : Bool := false
  /-- 4 | 14 R391 | spec 0 | RECF_STAT first cause -/
  recfCause : Nat := 0
  /-- 16 saturating | 14 R391 | spec 0 | RECF_STAT lost count -/
  recfLost : Nat := 0
  /-- 32 | 14 R391 | spec 0 | RECF_TIME -/
  recfTime : Word := 0
  deriving DecidableEq, Repr

/-! ### Reset, boot and bring-up (16, 17) -/

/-- A main-domain reset source (Table 16-1), narrowest first. -/
inductive RstSrc where
  | islrst | dprst | sysrst | wdt | cold
  deriving DecidableEq, Repr

/-- State of the boot controller: changed by the resets themselves, not cleared by them. -/
structure Boot where
  /-- 3 | 16 R421, 20 R498 | spec 0: no stage runs while the cold reset is asserted | STAGE_RUN -/
  stageRun : Nat := 0
  /-- the sequence now running: its widest source | 16 R423 | spec cold -/
  widest : RstSrc := .cold
  /-- the islands of the ISLRST now running | 16 R421 | spec empty -/
  isls : List Nat := []
  /-- a DPRST has been requested and has not begun | 16 R431 | spec false -/
  dpReq : Bool := false
  /-- a DPRST runs, to the end of the training that follows it | 16 R422, R431 | spec false -/
  dpRun : Bool := false
  /-- POR_MAIN is asserted: a core rail is out of range or not yet in range for 1 ms | 16 R415 | spec true -/
  por : Bool := true
  /-- nRESET holds the cold reset | 16 R419 | spec false -/
  nreset : Bool := false
  /-- 8 | 20 R498 | spec POR_MAIN only | RST_CAUSE: bits 0 to 7 -/
  cause : BitVec 8 := 1
  /-- sources latched since the last record of R430 | 16 R430 | spec POR_MAIN -/
  causeRec : BitVec 8 := 1
  /-- 2 | 16 R424 | hw (DESIGN CHOICE 3: unstrapped balls read 1) (log 5) | BOOTSRC as sampled -/
  bootsrc : Nat := 3
  /-- 2 | 16 R424 | hw (DESIGN CHOICE 3: unstrapped balls read 1) (log 5) | CLKMODE as sampled -/
  clkmode : Nat := 3
  /-- 1 | 16 R425 | hw 0 | BOOT_OVR -/
  bootOvr : Bool := false
  /-- 1 | 16 R428 | spec 0 | OPT_VALID -/
  optValid : Bool := false
  /-- 1 | 16 R429 | spec 0 | OPT_FAILED -/
  optFailed : Bool := false
  /-- 6 | 20 R498 | hw 0 | groups that failed the last attempt -/
  optGroups : BitVec 6 := 0
  /-- 2 | 20 R498 | hw 0 | load attempts in the last stage 2 -/
  attempts : Nat := 0
  /-- 1 | 16 R426 | spec false | the reference synthesiser is locked -/
  synthLock : Bool := false
  /-- 8 | 17 R435 | spec 0 | RST_BOOT.STAGE -/
  stage : Nat := 0
  /-- 8 | 17 R435 | spec 0 | RST_BOOT.FAIL -/
  fail : Nat := 0
  /-- in CORE_FAILED: the control and host islands are sound | 17 R441 | spec true -/
  coreSound : Bool := true
  /-- 1 | 16 R417 | spec 0 | RST_WDT.ARMED -/
  wdtArmed : Bool := false
  /-- 10 | 20 R498 | spec 0 | RST_WDT.REMAIN_MS -/
  wdtRemain : Nat := 0
  /-- monotonic time of the first refresh by control firmware, at the handover | 16 R417 | spec none -/
  wdtAt : Nat := 0
  /-- JSEQ and word of the journal entries that this start's core BIST found to read otherwise than written | 14 R388, 09 R250 | DESIGN CHOICE
  none (log 134) | what the replay reads for them -/
  jnlRead : List (Nat × Nat) := []
  /-- confirmation timer: monotonic time of expiry, while armed | 18 R464 | spec none -/
  confirmAt : Option Nat := none
  /-- stage 4 waits for the recorder drain | 14 R379, 16 R421 | spec false -/
  draining : Bool := false
  /-- 4 x 256 | 13 R348 | spec none: derived at the cold start | domain keys, held as the context of the CUSTOMER key they were derived with -/
  domainKeys : Option (List Byte) := none
  /-- a SYSRST requested by RST_CTRL, RESET_REQUEST, PERST_N or firmware, not yet begun: its RST_CAUSE bit | 16 R416 | spec none -/
  sysReq : Option Nat := none
  deriving DecidableEq, Repr

/-- The PCIe link and the part of configuration space with state of its own (17 R439): reset by WDT or wider. -/
structure Pcie where
  /-- 17 R439 | spec false | the link is trained -/
  up : Bool := false
  /-- 17 R439 | spec 0 | width, lanes -/
  width : Nat := 0
  /-- 17 R439 | spec 0 | speed, in tenths of GT/s -/
  speed : Nat := 0
  /-- 1 | 03 R63 | PRESUMED 0 (PCI Express) (log 5) | MSI-X Enable -/
  msixEn : Bool := false
  /-- 1 | 03 R63 | PRESUMED 0 (PCI Express) (log 5) | MSI-X Function Mask -/
  msixFMask : Bool := false
  /-- 64 entries | 20 R494 | as MsixEntry | MSI-X table -/
  msix : Tbl MsixEntry := []
  deriving DecidableEq, Repr

/-- The fuses (16 R427, Table 16-5): kept for the life of the part. -/
structure Fuses where
  /-- 4 bits x 3 copies | 16 R427 | DESIGN CHOICE PROVISION (log 11) | lifecycle row copies: VENDOR_TEST, PROVISION, FIELD, DECOMMISSIONED in bits 0 to 3 -/
  row : List (BitVec 4) := [3, 3, 3]
  /-- 16 R427 | DESIGN CHOICE false (log 11) | group 0: PLC ports fused off (XN7440) -/
  xn7440 : Bool := false
  /-- bitmap of blank groups | 16 R427 | DESIGN CHOICE 0 (log 11) -/
  blank : BitVec 6 := 0
  /-- 16 R427 | DESIGN CHOICE empty (log 11) | group 3: factory lane map-outs -/
  laneOut : List Nat := []
  /-- 16 R427 | DESIGN CHOICE empty (log 11) | group 3: factory island map-outs -/
  islOut : List Nat := []
  /-- 32 bytes | 16 R427, 18 R455 | DESIGN CHOICE zeros (log 11) | group 4: vendor key hash -/
  vendorHash : List Byte := []
  /-- 32 bytes | 16 R427, 18 R467 | DESIGN CHOICE not programmed (log 11) | group 4: customer key hash -/
  custHash : Option (List Byte) := none
  deriving DecidableEq, Repr

/-! ### Firmware (18) -/

/-- A part entry (Table 18-2). -/
structure PartEnt where
  carried : Bool := false
  off : Nat := 0
  len : Nat := 0
  version : Word := 0
  rollback : Word := 0
  digest : List Byte := []
  deriving DecidableEq, Repr

/-- An entry of the tariff-authority key table (10 R292). -/
structure TariffKey where
  keyId : Nat
  first : Nat
  last : Nat
  modulus : List Byte
  deriving DecidableEq, Repr

/-- A manifest held in a flash slot: its parsed header and entries, and its bytes where they are known (R455). -/
structure Manifest where
  ver : Word := 0
  custSig : Bool := false
  total : Nat := 0
  variants : Nat := 3
  lfmtWrite : Nat := 1
  lfmtRead : BitVec 16 := 1
  pfmt : List Nat := []
  parts : List PartEnt := []
  /-- tariff-authority key table in force under it (10 R292), at most 16 entries -/
  keys : List TariffKey := []
  deriving DecidableEq, Repr

/-- Update state (Table 18-4). -/
inductive UpdState where
  | none | staging | staged | preparing | prepared | switched | trial
  deriving DecidableEq, Repr

/-- The trial record in the lifecycle area (R464). -/
structure Trial where
  /-- confirmation period, s -/
  period : Nat
  /-- deadline, engine seconds; 0 none -/
  deadline : Nat := 0
  starts : Nat := 0
  failed : Bool := false
  deriving DecidableEq, Repr

/-- A copy of the slot directory: its sequence number, its STEP, and whether its CRC-32 holds (R458, R459). -/
structure DirCopy where
  seq : Nat := 0
  step : Nat := 0
  ok : Bool := true
  deriving DecidableEq, Repr

/-- Flash slots, slot directory and the firmware part of the lifecycle area: kept through every reset. -/
structure FwNv where
  /-- slot | 18 R458 | DESIGN CHOICE manifest version 1 (log 12) | ACTIVE; none when invalid -/
  active : Option Manifest := some {}
  /-- slot | 18 R458 | DESIGN CHOICE none (log 12) | FALLBACK -/
  fallback : Option Manifest := none
  /-- slot | 18 R458 | DESIGN CHOICE none (log 12) | STAGING, once its checks have passed -/
  staging : Option Manifest := none
  /-- 18 R458 | DESIGN CHOICE valid, sequence 0, STEP 0 (log 12) | first copy of the slot directory -/
  dirA : DirCopy := {}
  /-- 18 R458 | DESIGN CHOICE valid, sequence 0, STEP 0 (log 12) | second copy of the slot directory -/
  dirB : DirCopy := {}
  /-- slot size, bytes | 18 R458 | DESIGN CHOICE 21 MiB: a 64 MiB flash (log 12) -/
  slotSize : Nat := 22020096
  /-- 18 R464 | DESIGN CHOICE none (log 12) | trial record -/
  trial : Option Trial := none
  /-- confirmation period recorded with the staged manifest, s | 18 R461 | DESIGN CHOICE 600 (log 12) -/
  stagedPeriod : Nat := 600
  /-- 7 x 32 | 18 R465 | DESIGN CHOICE 0 (log 12) | rollback floors -/
  floors : Tbl Word := []
  /-- 18 R456 | DESIGN CHOICE 1 (log 12) | legal format currently written -/
  lfmt : Nat := 1
  /-- 16 | 18 R456 | DESIGN CHOICE format 1 (log 12) | legal formats ever written, bit v - 1 -/
  lfmtSet : BitVec 16 := 1
  /-- 32 | 18 R469 | DESIGN CHOICE 0 (log 12) | fallbacks since manufacture -/
  fallbacks : Word := 0
  deriving DecidableEq, Repr

/-- The volatile part of the firmware update. -/
structure Fw where
  /-- 7 states | 18 R460 | spec NONE | update state -/
  upd : UpdState := .none
  /-- TOTAL_LEN of the manifest being staged | 18 R461 | spec 0 -/
  total : Nat := 0
  /-- bytes staged so far, in order | 18 R461 | spec empty -/
  bytes : List Byte := []
  /-- PendOp whose STAGING erase is running | 18 R461 | spec none -/
  erasing : Option Nat := none
  /-- PendOp of FW_PREPARE | 18 R462 | spec none -/
  preparing : Option Nat := none
  /-- switching instant T_m, engine seconds | 18 R462 | spec none -/
  tm : Option Nat := none
  /-- standby banks loaded with the staged data-plane parts | 18 R462 | spec false -/
  banks : Bool := false
  /-- activation pause: PendOp and the monotonic time of its start | 18 R463 | spec none -/
  pause : Option (Nat × Nat) := none
  /-- flag [0] of Table 18-8 | 18 R464 | spec false -/
  held : Bool := false
  /-- flag [1] | 18 R465 | spec false -/
  afterFallback : Bool := false
  /-- flag [3] | 18 R465 | spec false -/
  noFallback : Bool := false
  /-- the manifest that the running control firmware and Granite microcode come from | 17 R437, 18 R463, R466 | spec none: nothing runs before the
  boot ROM's handover -/
  running : Option Manifest := none
  /-- 12 x 16 | 18 R455, 03 R56 | spec: those of the manifest that runs (1 where unlisted) | parameter-block format versions of the running firmware -/
  pfmt : List Nat := []
  /-- data-plane microcode versions in force, by part 1 to 4 | 18 R462, 16 R422 | spec: those of ACTIVE at the start -/
  microcode : Tbl Word := []
  deriving DecidableEq, Repr

/-! ### Safety, repair and maintenance (19) -/

/-- Safety state (Table 19-2), in the codes of GLB_STATE. -/
inductive SafeState where
  | off | armed | fault | locked
  deriving DecidableEq, Repr

/-- A switching frame due at the transmit gate (R473, R474). -/
structure GateFrame where
  camp : Nat
  handle : Nat
  seq : Word
  notAfter : Nat
  dcnt : Nat
  /-- release tokens delivered by the two cores -/
  tokA : List Byte
  tokB : List Byte
  /-- frames sealed from each core's plaintext -/
  frameA : List Byte
  frameB : List Byte
  /-- the instant at which it is due to start, engine time -/
  due : Nat
  /-- it goes out as a POLL of the port group, else on the air -/
  plc : Bool
  /-- it is the EVENT of a connection, else a DOWNLINK -/
  event : Bool := false
  /-- RF port, or the port group's transaction -/
  port : Nat
  channel : Nat := 0
  mode : Nat := 0
  /-- FCNTs that the EVENT, or the POLL, lists in its custody field -/
  custody : List Nat := []
  deriving DecidableEq, Repr

/-- The safety function. -/
structure Safety where
  /-- 2 | 19 R477 | spec OFF | safety state -/
  state : SafeState := .off
  /-- pin | 19 R478, 16 R418 | spec 1 (pulled up) | SAFE_OK_N -/
  safeOkN : Bool := true
  /-- 8 | 19 R492 | spec 0 | last cause -/
  lastCause : Nat := 0
  /-- causes of the present FAULT | 19 R477 | spec empty -/
  causes : List Nat := []
  /-- 32 | 19 R492 | spec 0 | frames released -/
  released : Word := 0
  /-- 32 | 19 R492 | spec 0 | releases refused -/
  refused : Word := 0
  /-- 32 | 19 R492 | spec 0 | last fault, engine seconds -/
  lastFault : Nat := 0
  /-- 32 | 19 R492 | spec 0 | last proof test, engine seconds -/
  lastProof : Nat := 0
  /-- proof test running: PendOp that asked for it, when one did | 19 R477 | spec none -/
  proof : Option (Option Nat) := none
  /-- switching frame due | 19 R474 | spec none -/
  due : Option GateFrame := none
  /-- monotonic time of the last periodic gate test | 19 R475 | spec none since the start -/
  gateTestAt : Option Nat := none
  /-- monotonic time of the last scrub of the pair's SRAM | 19 R475 | spec none since the start -/
  scrubAt : Option Nat := none
  deriving DecidableEq, Repr

/-- A maintenance activity (Table 19-5), in priority order. -/
inductive Act where
  | ma | sr | lr | rh | kr | br | es
  deriving DecidableEq, Repr

/-- The maintenance arbiter (R488 to R490). -/
structure Maint where
  /-- 19 R488 | spec empty | activities that hold a token -/
  holders : List Act := []
  /-- 19 R490 | spec empty | activities that wait for a token -/
  waiting : List Act := []
  /-- 19 R490 | spec false | the key re-wrap has yielded to a soft repair -/
  yielded : Bool := false
  /-- monotonic time at which the last eNVM scrub pass got its token | 14 R388 | spec none since the start -/
  scrubAt : Option Nat := none
  deriving DecidableEq, Repr

/-- A repair-ledger entry (R487). -/
structure RepairEnt where
  typ : Nat
  cause : Nat
  obj : Word
  secs : Word
  start : Word
  deriving DecidableEq, Repr

/-- The lifecycle area of the eNVM, apart from the firmware records: kept through every reset. -/
structure Life where
  /-- up to 16 384 entries | 19 R487 | DESIGN CHOICE empty (log 12) | repair ledger, oldest first -/
  repair : List RepairEnt := []
  /-- 32 | 19 R487 | DESIGN CHOICE 0 (log 12) | start count -/
  starts : Word := 0
  /-- 4 x 16 | 15 R412 | DESIGN CHOICE 0 (log 12) | tamper counts last reported -/
  tampRep : Tbl Nat := []
  /-- 32 x 2 copies | 12 R336, 19 R473 | DESIGN CHOICE 1 (log 12) | SWITCH_SEQ counter: next value, first copy -/
  switchSeqA : Word := 1
  /-- 32 | 19 R473 | DESIGN CHOICE 1 (log 12) | SWITCH_SEQ counter, second copy -/
  switchSeqB : Word := 1
  /-- 32 | 13 R355 | DESIGN CHOICE 0 (log 12) | key generation counter -/
  genCounter : Nat := 0
  /-- 16 bytes | 13 R350, 20 R497 | DESIGN CHOICE zeros: no identity key (log 12) | device ID -/
  deviceId : List Byte := []
  /-- 13 R350 | DESIGN CHOICE empty (log 12) | identity certificate -/
  certId : List Byte := []
  /-- 13 R350 | DESIGN CHOICE empty (log 12) | import certificate -/
  certImport : List Byte := []
  /-- 13 R350 | DESIGN CHOICE empty: no key pair (log 12) | identity private key, wrapped under ATTEST -/
  idWrapped : List Byte := []
  /-- 13 R350 | DESIGN CHOICE empty: no key pair (log 12) | import private key, wrapped under TRANSPORT -/
  importWrapped : List Byte := []
  deriving DecidableEq, Repr

/-- Monitors of condition C1 (02 R28, 21 R510) and the PWRFAIL_N input. -/
structure Mon where
  /-- 8 | 02 R28 | spec 0 | rails (bits 0 to 6) and Tj (bit 7) now out of range -/
  out : BitVec 8 := 0
  /-- monotonic time at which all returned to range | 02 R28 | spec none -/
  backAt : Option Nat := none
  /-- pin | 14 R379, 21 R519 | spec 1 (pulled up) | PWRFAIL_N -/
  pwrfailN : Bool := true
  deriving DecidableEq, Repr
/-! ### Ledger and tariffs (10) -/

/-- A season of a calendar (R266). -/
structure Season where
  month : Nat
  day : Nat
  profs : List Nat
  deriving DecidableEq, Repr

/-- A special day (R266). -/
structure Special where
  year : Nat
  month : Nat
  day : Nat
  prof : Nat
  deriving DecidableEq, Repr

/-- A calendar version held under an index (R266, R268). -/
structure CalVer where
  /-- the bytes that CAL_LOAD carried -/
  raw : List Byte := []
  index : Nat := 0
  calId : Nat := 0
  version : Nat := 0
  activateAt : Nat := 0
  /-- demand interval, minutes -/
  diMin : Nat := 15
  demandSlot : Nat := 0xFF
  mdTiers : Nat := 0
  phaseMin : Nat := 0
  billRule : Nat := 2
  billDay : Nat := 1
  billMin : Nat := 0
  billAnchor : Nat := 0
  billEvery : Nat := 1
  /-- day profiles: (minute, tier) in ascending order -/
  profs : List (List (Nat × Nat)) := []
  seasons : List Season := []
  specials : List Special := []
  /-- (FROM, UTC offset in minutes) -/
  offsets : List (Nat × Int) := []
  /-- activation instant, once active -/
  activated : Nat := 0
  deriving DecidableEq, Repr

/-- The versions held under one calendar index (R268). -/
structure CalIdx where
  active : Option CalVer := none
  pending : Option CalVer := none
  /-- 10 R268 | spec none | a version accepted for activation at once whose transition has not been committed -/
  due : Option CalVer := none
  /-- retired versions, latest first, with the JSEQ of the activation that retired each -/
  retired : List (CalVer × Nat) := []
  deriving DecidableEq, Repr

/-- One period record of a calendar (Table 10-10). -/
structure PerRec where
  instant : Nat
  cseq : Nat
  version : Nat
  reason : Nat
  deriving DecidableEq, Repr

/-- The calendar record and period-record ring of one index in the ledger-roots area. -/
structure CalRoot where
  /-- 32 | 10 R287 | DESIGN CHOICE 0 (log 12) | CAL_ID -/
  calId : Nat := 0
  /-- 32 | 10 R268 | DESIGN CHOICE 0 (log 12) | high-water VERSION -/
  high : Nat := 0
  /-- 32 | 10 R281 | DESIGN CHOICE 0 (log 12) | last applied instant -/
  lastApplied : Nat := 0
  /-- 32 | 10 R274 | DESIGN CHOICE 0 (log 12) | CSEQ -/
  cseq : Nat := 0
  /-- 64 entries | 10 R274 | DESIGN CHOICE empty (log 12) | period records, latest first -/
  ring : List PerRec := []
  deriving DecidableEq, Repr

/-- The ledger-roots area of the eNVM (Table 10-10): kept through every reset. -/
structure Roots where
  /-- 65 536 x 32 | 10 R285 | DESIGN CHOICE 0 (log 12) | SEALED_VER -/
  sealedVer : Tbl Nat := []
  /-- 65 536 x 32 | 10 R286 | DESIGN CHOICE 0 (log 12) | CONF_VER -/
  confVer : Tbl Nat := []
  /-- 256 calendars | 10 R287 | DESIGN CHOICE zeros (log 12) | calendar and period records -/
  cals : Tbl CalRoot := []
  /-- 32 | 09 R258 | DESIGN CHOICE 0 (log 12) | last confirmed BSEQ -/
  bseqConf : Nat := 0
  /-- 32 | 10 R277 | DESIGN CHOICE 0 (log 12) | last assigned SSEQ -/
  sseq : Nat := 0
  /-- 32 | 10 R277 | DESIGN CHOICE 0 (log 12) | last confirmed SSEQ -/
  sseqConf : Nat := 0
  /-- 32 | 10 R294 | DESIGN CHOICE 0 (log 12) | last journaled seal count -/
  sealCount : Word := 0
  /-- 32 bytes | 10 R287 | DESIGN CHOICE not yet computed (log 12) | LEDGER_ROOT -/
  root : List Byte := []
  deriving DecidableEq, Repr

/-- A sealed copy of a ledger page (R284, R285). -/
structure SealedPage where
  version : Nat
  sealTime : Nat
  sealJseq : Nat
  /-- handle offset, address and image of each enrolled slot -/
  slots : List (Nat × DWord × Image) := []
  /-- the 4 KiB page as exported -/
  bytes : List Byte := []
  deriving DecidableEq, Repr

/-- One ledger page (R285, R286). -/
structure Page where
  dirty : Bool := false
  /-- latest sealed copy, in the DRAM sealed-page region -/
  copy : Option SealedPage := none
  /-- the copy waits for confirmation -/
  awaiting : Bool := false
  /-- monotonic end of the durability period -/
  due : Nat := 0
  /-- DURABILITY_LATE has been raised for the copy -/
  late : Bool := false
  deriving DecidableEq, Repr

/-- What a booking is given (R271): the slot, the span, the delta, the commit second, whether the commit is untrusted or held, and the engine
second of the frame's end (none in replay, where the ADJUST entries say the reason). -/
structure Booking where
  slot : Nat
  from_ : Nat
  to_ : Nat
  delta : Nat
  at_ : Nat
  untrusted : Bool
  hold : Bool
  frameEnd : Option Nat
  deriving DecidableEq, Repr

/-- The volatile state of the ledger. -/
structure Ledger where
  /-- 256 indices | 10 R268 | spec: calendars do not survive a start | held versions -/
  cals : Tbl CalIdx := []
  /-- 65 536 pages | 10 R285 | spec: clean, no copy | pages -/
  pages : Tbl Page := []
  /-- pages queued on the page export stream, oldest first | 10 R285 | spec empty -/
  exportQ : List Nat := []
  /-- DMA channel of the page export stream | 10 R286 | spec none -/
  exportChan : Option Nat := none
  /-- 0 idle, 1 running, 2 done | 10 R288 | spec 0 -/
  restore : Nat := 0
  /-- DMA channel of the restore stream | 10 R288 | spec none -/
  restoreChan : Option Nat := none
  /-- 10 R288, 08 R228 | spec 0 | restored pages that completed descriptors have brought and the engine has not yet judged -/
  restoreDue : Nat := 0
  /-- 10 R276 | spec none | monotonic time up to which the sweep's rate has been used -/
  sweepAt : Option Nat := none
  /-- 10 R285 | spec none | monotonic time of the last seal -/
  sealAt : Option Nat := none
  /-- 10 R296 | spec none | monotonic time of the last screen -/
  dispAt : Option Nat := none
  /-- pages pending restore | 10 R288 | spec: those with CONF_VER above 0, taken when first needed -/
  pending : Option (List Nat) := none
  /-- 24 saturating | 10 R299 | spec 0 | pages rejected -/
  rejected : Nat := 0
  /-- images kept for handles not enrolled: address, image, SEAL_JSEQ of its page | 10 R288 | spec empty -/
  kept : Tbl (DWord × Image × Nat) := []
  /-- DMA channel of the statement stream | 10 R277 | spec none -/
  stmtChan : Option Nat := none
  /-- open statement bundle | 10 R277 | spec none -/
  stmtOpen : Option Bundle := none
  /-- statement bundles signed and not confirmed, oldest first | 10 R277 | spec empty -/
  stmtSigned : List Bundle := []
  /-- bytes of the statement bundle being written that earlier descriptors took | 10 R277 | spec 0 -/
  stmtOffset : Nat := 0
  /-- rolls whose statements are not confirmed: (page, handle, PSEQ) | 10 R277 | spec empty -/
  unconfStmts : List (Nat × Nat × Nat) := []
  /-- sweeps running: (calendar, next handle) | 10 R276 | spec empty -/
  sweeps : List (Nat × Nat) := []
  /-- display: index of the next item | 10 R296 | spec 0 -/
  dispNext : Nat := 0
  /-- display: monotonic time of the next try after an unacknowledged screen | 10 R296 | spec none -/
  dispRetry : Option Nat := none
  /-- DISPLAY_SHOW in force: handle, slot, monotonic end, next register | 10 R297 | spec none -/
  show_ : Option (Nat × Nat × Nat × Nat) := none
  /-- last screen written | 10 R296 | DESIGN CHOICE empty (log 5) -/
  screen : List Byte := []
  /-- calendars lost to an uncorrectable error and not reloaded | 08 R230 | spec empty -/
  lostCals : List Nat := []
  /-- bookings of their endpoints, in journal order: handle and booking | 08 R230 | spec empty -/
  deferred : List (Nat × Booking) := []
  /-- an unwarned loss was found at this start | 10 R281 | spec false -/
  unwarned : Bool := false
  deriving DecidableEq, Repr

/-! ### Balancing (11) -/

/-- A boundary value of the interval cache (R304). -/
structure Bnd where
  val : Option (BitVec 40) := none
  gap : Bool := false
  rebuilt : Bool := false
  held : Bool := false
  deriving DecidableEq, Repr

/-- A meter entry of a zone (Table 11-2) with its anchor and run state (R311, R314). -/
structure Meter where
  handle : Nat
  slot : Nat
  /-- SIGN: true subtracts -/
  neg : Bool
  anchorTime : Nat
  anchorTotal : BitVec 40
  anchorLost : Bool := false
  zeroRun : Nat := 0
  /-- closes since the last event 0x62 of this member; none before the first -/
  anom : Option Nat := none
  /-- a REVERSE has been seen -/
  reversed : Bool := false
  deriving DecidableEq, Repr

/-- One interval of a zone. -/
structure Ival where
  posted : Bool := false
  noCheck : Bool := false
  /-- C at its close -/
  c : Int := 0
  revision : Nat := 0
  /-- entries placed since the last record (R307) -/
  readings : Nat := 0
  /-- monotonic time of the first change since the last record (R312) -/
  changedAt : Option Nat := none
  /-- entries changed since the last record -/
  changed : List Nat := []
  /-- handles with a TAMPER entry placed in it -/
  tamper : List Nat := []
  /-- handles with CHECKS NEG over it -/
  reverse : List Nat := []
  deriving DecidableEq, Repr

/-- The AGED revision of a zone (R312). -/
structure Aged where
  start : Nat
  readings : Nat := 0
  /-- (handle, amount) -/
  amounts : List (Nat × Nat) := []
  first : Nat
  deriving DecidableEq, Repr

/-- A zone (Table 11-1). -/
structure Zone where
  kind : Nat
  /-- interval length, s -/
  len : Nat
  settleMin : Nat
  unit : Nat
  minCover : Nat
  alert : Nat
  tolF : Nat
  tolP : Nat
  tolQ : Nat
  zeroRun : Nat
  nightCal : Nat
  zeroPeer : Nat
  nightStart : Nat
  nightLen : Nat
  nightAllow : Nat
  nightLimit : Nat
  lastClosed : Nat
  checks : List Meter
  members : List Meter
  score : Nat := 0
  lost : Bool := false
  /-- end of the last interval that is no longer open -/
  lastEnd : Nat
  /-- END of the last posted record of an interval, LAST_CLOSED at first -/
  postedEnd : Nat := 0
  ivals : Tbl Ival := []
  aged : Option Aged := none
  /-- entries placed while time trust is lost -/
  untrusted : Nat := 0
  /-- closed intervals of the night window: start, C, NO_CHECK -/
  night : List (Nat × Int × Bool) := []
  deriving DecidableEq, Repr

/-- A balance record held until confirmed (Table 11-6). -/
structure BalRec where
  seq : Nat
  rtype : Nat
  status : Nat
  zone : Nat
  start : Nat
  stop : Nat
  c : Int := 0
  m : Int := 0
  delta : Int := 0
  t : Nat := 0
  score : Nat := 0
  known : Nat := 0
  nmem : Nat := 0
  flags : Nat := 0
  revision : Nat := 0
  readings : Nat := 0
  /-- handle word with role and flags, END_TOTAL, AMOUNT -/
  entries : List (Nat × Nat × Nat) := []
  /-- written, and not rewound since (R316) -/
  written : Bool := false
  /-- written at least once (R316) -/
  once : Bool := false
  deriving DecidableEq, Repr

/-- The balance engine. -/
structure Balance where
  /-- 16 384 zones | 11 R301 | spec empty | zones -/
  zones : Tbl Zone := []
  /-- per entry (4 x handle + slot), boundary index (b / 900) to value | 11 R304 | spec: unknown | interval cache -/
  bnds : Tbl (Tbl Bnd) := []
  /-- 11 R306 | spec: 86 400 s before the latest boundary | horizon H, engine seconds (0 before the first advance) -/
  horizon : Nat := 0
  /-- UNZONED placements: interval start to READINGS | 11 R307 | spec empty -/
  unzoned : Tbl Nat := []
  /-- end of the last interval whose UNZONED record came in its turn -/
  unzonedEnd : Nat := 0
  /-- 32 | 11 R316 | DESIGN CHOICE 0 (log 5) | last BALSEQ -/
  seq : Nat := 0
  /-- 32 | 11 R316 | DESIGN CHOICE 0 (log 5) | last confirmed BALSEQ -/
  conf : Nat := 0
  /-- records posted and not confirmed, oldest first | 11 R316 | spec empty -/
  held : List BalRec := []
  /-- DMA channel of the balance stream | 11 R316 | spec none -/
  chan : Option Nat := none
  /-- bytes of the record being written that earlier descriptors took | 11 R316 | spec 0 -/
  offset : Nat := 0
  deriving DecidableEq, Repr

/-! ### Campaigns (12) -/

/-- Campaign state (Table 12-2), in the codes of CAMP_STATE entries. -/
inductive CampState where
  | open_ | running | paused | cancelling | done | cancelled
  deriving DecidableEq, Repr

/-- Target state (Table 12-4), in the order of CAMP_STATUS_GET. -/
inductive TgtState where
  | waiting | sent | confirmed | failed | expired | cancelled | skipped
  deriving DecidableEq, Repr

/-- A target of a campaign (R327). -/
structure Target where
  handle : Nat
  state : TgtState := .waiting
  /-- step: command code of Table 12-3 -/
  cmd : Nat := 0x12
  /-- block index of a BLOCK step -/
  block : Nat := 0
  attempts : Nat := 0
  already : Bool := false
  late : Bool := false
  /-- DCNTs recorded for the step, each with the engine second of its attempt (R325, R339) -/
  dcnts : List (Nat × Nat) := []
  lastDcnt : Nat := 0
  /-- the target has been transmitted at least once (R336) -/
  everSent : Bool := false
  /-- engine time of the attempt whose wait runs (R326) -/
  waitStart : Nat := 0
  /-- monotonic end of the wait -/
  waitDue : Nat := 0
  /-- committed frame groups since the attempt -/
  groups : Nat := 0
  /-- CREDIT: record number, amount, host reference -/
  n : Nat := 0
  amount : Nat := 0
  ref : Nat := 0
  /-- SWITCH: state, FB_QTY, SWITCH_SEQ, NOT_AFTER (0 before the first release) -/
  swState : Nat := 0
  fbQty : Nat := 0
  seq : Word := 0
  notAfter : Nat := 0
  /-- engine seconds of the last release -/
  released : Nat := 0
  /-- feedback: 0 MATCH, 1 MISMATCH, 2 TIMEOUT; 0xFF none -/
  feedback : Nat := 0xFF
  /-- feedback awaited until a monotonic time (R339) -/
  fbDue : Option Nat := none
  /-- SESSION confirmed for the running session -/
  inSession : Bool := false
  /-- CREDIT: the CREDIT_ISSUE was committed by this target and not yet applied or returned -/
  inFlight : Bool := false
  /-- monotonic time at which it became WAITING, its request time (R340) -/
  since : Nat := 0
  deriving DecidableEq, Repr

/-- A multicast session of one port (R331). -/
structure Session where
  no : Nat
  targets : List Nat
  ts : Nat
  first : Nat
  channel : Nat
  frames : Nat
  next : Nat := 0
  begun : Bool := false
  /-- listening before talk for the next frame (05 R112) -/
  lbt : Option Lbt := none
  deriving DecidableEq, Repr

/-- A campaign (Table 12-1). -/
structure Camp where
  kind : Nat
  prio : Nat
  closeIdle : Bool
  multicast : Bool
  retryMax : Nat
  calIndex : Nat
  groupSlot : Nat
  size : Nat
  deadline : Nat
  groupAddr : DWord
  gapMs : Nat
  activateAt : Nat
  digest : List Byte
  /-- its content was lost to an uncorrectable error and has not been supplied again (08 R230) -/
  contentLost : Bool := false
  state : CampState := .open_
  /-- low 24 bits of the engine second of CAMP_CREATE -/
  stamp : Nat
  /-- content blocks written, by index -/
  blocks : Tbl (List Byte) := []
  targets : List Target := []
  /-- multicast counter: the next DCNT -/
  mcast : Nat := 1
  /-- next content index no session has sent -/
  nextIdx : Nat := 0
  sessions : Tbl Session := []
  sessionNo : Nat := 0
  ended : Word := 0
  sent : Word := 0
  skipped : Word := 0
  issued : Nat := 0
  applied : Nat := 0
  returned : Nat := 0
  /-- PendOps of CAMP_CANCEL -/
  cancels : List Nat := []
  /-- monotonic time of the last event 0x71 -/
  lastFail : Option Nat := none
  deriving DecidableEq, Repr

/-! ### Quartz (13) -/

/-- A key slot (Table 13-4). -/
structure KSlot where
  /-- 0 EMPTY, 1 to 4 -/
  typ : Nat := 0
  usage : BitVec 8 := 0
  cntEn : Bool := false
  expire : Bool := false
  parent : Nat := 0xFFFF
  gen : Nat := 0
  pgen : Nat := 0
  uses : Nat := 0
  /-- key value: never released to the host (R347) -/
  key : List Byte := []
  deriving DecidableEq, Repr

/-- A re-wrap in progress (R363). -/
structure Rewrap where
  pendId : Nat
  old : Nat
  new : Nat
  next : Nat := 0
  done : Nat := 0
  left : Nat := 0
  /-- monotonic time at which the next blob may be walked, after the first -/
  at_ : Option Nat := none
  deriving DecidableEq, Repr

/-- The slots: kept by SYSRST and WDT apart from those that expire (R356). -/
structure Slots where
  /-- 4 096 slots | 13 R351, R355 | spec EMPTY, GEN = base + 1 + index | slots that differ from their cold-start value -/
  slots : Tbl KSlot := []
  /-- 32 | 13 R355 | spec: the generation counter before the cold start | base b of this cold start -/
  base : Nat := 0
  /-- the cold start could not advance the counter: every GEN is spent | 13 R355 | spec false -/
  allSpent : Bool := false
  deriving DecidableEq, Repr

/-- The volatile state of the key vault. -/
structure Keys where
  /-- 32 | 13 R368 | DESIGN CHOICE 0 (log 5) | uses refused -/
  refused : Word := 0
  /-- 32 | 13 R368 | DESIGN CHOICE 0 (log 5) | health-test failures -/
  health : Word := 0
  /-- 32 | 13 R368 | DESIGN CHOICE 0 (log 5) | unwrap failures -/
  unwrapFail : Word := 0
  /-- 13 R366 | spec false | the first reseed has passed -/
  seeded : Bool := false
  /-- 13 R366 | spec false | secret draws are refused -/
  secretRefused : Bool := false
  /-- 13 R366 | spec 0 | generate requests since the last reseed -/
  draws : Nat := 0
  /-- monotonic time of the last reseed | 13 R366 | spec none since the start -/
  reseedAt : Option Nat := none
  /-- re-wrap in progress | 13 R363 | spec none -/
  rewrap : Option Rewrap := none
  /-- monotonic time of the last event 0x83 | 13 R369 | spec none -/
  lastAuth : Option Nat := none
  /-- the FAULT record of a counter that cannot advance has been written | 13 R355 | spec false -/
  genFault : Bool := false
  deriving DecidableEq, Repr

/-! ### The whole state -/

/-- The state of the block. -/
structure State where
  /-- commands waiting, first in, first out (the model's own queue) | — | spec empty -/
  pending : List Instr := []
  /-- 64 | 15 R404 | spec 0 until loaded | engine time, units of 2^-24 s -/
  now : Nat := 0
  /-- monotonic time in units of 2^-24 s, which no time write steps | 05 R113 | DESIGN CHOICE 0 (log 3) -/
  mono : Nat := 0
  /-- engine time of the latest RTC tick | 15 R404 | DESIGN CHOICE 0 (log 3) -/
  tickAt : Nat := 0
  /-- engine time has been loaded at this start | 15 R404 | spec false -/
  timeLoaded : Bool := false
  /-- trust as last reported by event 0xC0 in this start; none before STAGE 0x05 | 15 R406 | spec none -/
  trustSeen : Option Bool := none
  /-- free values used so far (the model's own counter, log 9) | — | DESIGN CHOICE 0 (log 9) -/
  freeCtr : Nat := 0
  /-- what the block has emitted, newest first (the model's own record, log 10) | — | spec empty -/
  out : List Output := []
  cfg : Cfg := {}
  /-- 16 mailboxes | 03 R33 -/
  mbxs : Tbl Mbx := []
  /-- mailbox that the round-robin serves next | 03 R42 | DESIGN CHOICE 0 (log 5) -/
  rrNext : Nat := 0
  /-- number the next fetch takes (the model's own) | — | DESIGN CHOICE 0 (log 1) -/
  fetchCtr : Nat := 0
  /-- operations PENDING, oldest first | 03 R41, R42 | spec empty -/
  ops : List PendOp := []
  /-- number the next PENDING operation takes (the model's own) | — | DESIGN CHOICE 0 (log 5) -/
  nextOp : Nat := 0
  evt : Evt := {}
  glb : Glb := {}
  mir : Mir := {}
  /-- 36 islands | 01 R9 -/
  isl : Tbl Island := []
  /-- 402 link directions | 01 R11 -/
  links : Tbl LinkDir := []
  /-- monotonic time of the last credit audit | 01 R15 | DESIGN CHOICE 0 (log 3) -/
  auditAt : Nat := 0
  boot : Boot := {}
  pcie : Pcie := {}
  fuses : Fuses := {}
  mon : Mon := {}
  bkp : Backup := {}
  /-- 8 RF ports -/
  rf : Tbl RfPort := []
  /-- 256 logical lanes -/
  lanes : Tbl Lane := []
  /-- working count L of logical lanes | 19 R480 | spec 0 before BIST -/
  laneCount : Nat := 0
  /-- 272 physical lanes: role | 19 R480, R492 | hw: spare before the power-up mapping (log 5) -/
  roles : Tbl LaneRole := []
  /-- lane rotation (19 R481 to R484) -/
  rot : Rotation := {}
  /-- 8 sectors -/
  sectors : Tbl Sector := []
  /-- duty-cycle accounts, key 16 x port + sub-band | 05 R113 -/
  duty : Tbl Duty := []
  /-- 16 PLC ports -/
  plc : Tbl PlcPort := []
  plcMac : PlcMac := {}
  dir : Dir := {}
  /-- enrolled endpoints by handle | 07 R191 | spec empty -/
  eps : Tbl Endpoint := []
  /-- endpoint key blobs by handle | 13 R360 | spec empty -/
  blobs : Tbl Blob := []
  mem : Mem := {}
  /-- 1 024 translation windows | 08 R223 | spec invalid -/
  xlate : Tbl Xlate := []
  /-- 32 DMA channels | 08 R225 | spec DISABLED -/
  chans : Tbl Chan := []
  jnv : JournalNv := {}
  jnl : Journal := {}
  prov : Prov := {}
  roots : Roots := {}
  ledger : Ledger := {}
  bal : Balance := {}
  /-- 64 campaigns | 12 R320 | spec none -/
  camps : Tbl Camp := []
  /-- confirmations that matched no step | 12 R325 | spec 0 -/
  confUnmatched : Word := 0
  slots : Slots := {}
  keys : Keys := {}
  slateNv : SlateNv := {}
  slate : Slate := {}
  life : Life := {}
  fwNv : FwNv := {}
  fw : Fw := {}
  safe : Safety := {}
  /-- monotonic times of entries into FAULT in the last 24 h, latest first: survives SYSRST and WDT | 19 R477 | spec empty -/
  faultTimes : List Nat := []
  maint : Maint := {}
  deriving DecidableEq, Repr

/-- The machine right after reset: the first application of every supply, the cold reset asserted by POR_MAIN and POR_BKP done
(R397, R415). Every field holds the value beside it above (log 6). -/
def State.reset : State := {}

end Sys2Proof.Machine
end

