-- ==== Sys2Proof/Machine/Bytes.lean ====
section
/-! DEFINITION. Tables, byte order and check sequences: the plain helpers every chapter uses. -/

namespace Sys2Proof.Machine

/-! Tables: rising keys, an unlisted key reads as the given reset value. -/

def tfind {α : Type} : Tbl α → Nat → Option α
  | [], _ => none
  | (j, v) :: rest, k => if j = k then some v else tfind rest k

def tget {α : Type} (t : Tbl α) (k : Nat) (d : α) : α := (tfind t k).getD d

def tset {α : Type} : Tbl α → Nat → α → Tbl α
  | [], k, v => [(k, v)]
  | (j, w) :: rest, k, v =>
    if k < j then (k, v) :: (j, w) :: rest
    else if k = j then (k, v) :: rest
    else (j, w) :: tset rest k v

def tdel {α : Type} (t : Tbl α) (k : Nat) : Tbl α := t.filter (fun e => e.1 != k)

def thas {α : Type} (t : Tbl α) (k : Nat) : Bool := (tfind t k).isSome

/-- Change one entry, starting from its reset value when it is not listed. -/
def tupd {α : Type} (t : Tbl α) (k : Nat) (d : α) (f : α → α) : Tbl α := tset t k (f (tget t k d))

/-- Change every listed entry. -/
def tmap {α : Type} (t : Tbl α) (f : Nat → α → α) : Tbl α := t.map (fun e => (e.1, f e.1 e.2))

/-! Byte order (R4): least significant byte first. -/

/-- n as k bytes, modulo 2^(8k). -/
def le (k n : Nat) : List Byte :=
  match k with
  | 0 => []
  | k + 1 => BitVec.ofNat 8 n :: le k (n / 256)

/-- A signed value as k bytes in two's complement. -/
def leI (k : Nat) (i : Int) : List Byte := le k (i % (2 ^ (8 * k) : Nat)).toNat

/-- The unsigned integer that the bytes hold. -/
def ofLe : List Byte → Nat
  | [] => 0
  | b :: rest => b.toNat + 256 * ofLe rest

/-- Bytes off to off + k - 1, zeros past the end. -/
def slice (p : List Byte) (off k : Nat) : List Byte :=
  let q := (p.drop off).take k
  q ++ List.replicate (k - q.length) 0

/-- The unsigned k-byte field at offset off. -/
def rd (p : List Byte) (off k : Nat) : Nat := ofLe ((p.drop off).take k)

/-- Read n bits as a signed number. -/
def toSigned (bits n : Nat) : Int := if n < 2 ^ (bits - 1) then n else (n : Int) - (2 ^ bits : Nat)

/-- The signed k-byte field at offset off. -/
def rdI (p : List Byte) (off k : Nat) : Int := toSigned (8 * k) (rd p off k)

/-- Bits [hi:lo] of n. -/
def bits (n hi lo : Nat) : Nat := n / 2 ^ lo % 2 ^ (hi + 1 - lo)

def bit (n i : Nat) : Bool := n / 2 ^ i % 2 == 1

def b2n (b : Bool) : Nat := if b then 1 else 0

/-- Pad with zeros to a multiple of k bytes. -/
def padTo (k : Nat) (p : List Byte) : List Byte := p ++ List.replicate ((k - p.length % k) % k) 0

/-- ASCII text, padded with spaces or cut to k characters. -/
def ascii (k : Nat) (t : String) : List Byte :=
  let q := (t.toList.map (fun c => BitVec.ofNat 8 c.toNat)).take k
  q ++ List.replicate (k - q.length) 0x20

/-- a + b, saturating at m. -/
def satAdd (m a b : Nat) : Nat := min m (a + b)

/-! Sorting, by insertion: an entry goes before the first that it is not after. -/

def insertBy {α : Type} (before : α → α → Bool) (x : α) : List α → List α
  | [] => [x]
  | y :: ys => if before x y then x :: y :: ys else y :: insertBy before x ys

/-- Stable for a strict order. -/
def sortBy {α : Type} (before : α → α → Bool) (xs : List α) : List α := xs.foldl (fun acc x => insertBy before x acc) []

/-! Check sequences. -/

/-- One step of a reflected CRC: shift right n times, adding poly for each 1 shifted out. -/
def crcShiftR {w : Nat} (poly : BitVec w) : Nat → BitVec w → BitVec w
  | 0, c => c
  | n + 1, c => crcShiftR poly n (if c.getLsbD 0 then (c >>> 1) ^^^ poly else c >>> 1)

/-- One step of a CRC taken most significant bit first. -/
def crcShiftL {w : Nat} (poly : BitVec w) : Nat → BitVec w → BitVec w
  | 0, c => c
  | n + 1, c => crcShiftL poly n (if c.getMsbD 0 then (c <<< 1) ^^^ poly else c <<< 1)

/-- CRC of a byte string, bits of each byte least significant first. -/
def crcR {w : Nat} (poly init : BitVec w) (p : List Byte) : BitVec w :=
  p.foldl (fun c b => crcShiftR poly 8 (c ^^^ b.setWidth w)) init

/-- CRC of a byte string, bits of each byte most significant first, for widths of 8 bits and more. -/
def crcL {w : Nat} (poly init : BitVec w) (p : List Byte) : BitVec w :=
  p.foldl (fun c b => crcShiftL poly 8 (c ^^^ ((BitVec.setWidth w b) <<< (w - 8)))) init

/-- The CRC-32 of R153: reflected 0x04C1_1DB7, initial value all ones, final complement. -/
def crc32 (p : List Byte) : Word := ~~~(crcR (0xEDB88320 : Word) 0xFFFFFFFF p)

/-- The deep-mode CRC-16 of R80: 0x1021, initial value all ones, not reflected, no complement. -/
def crc16 (p : List Byte) : BitVec 16 := crcL (0x1021 : BitVec 16) 0xFFFF p

/-- A CRC-8 with polynomial 0x07 and the given initial value (R136, R243). -/
def crc8 (init : Byte) (p : List Byte) : Byte := crcL (0x07 : Byte) init p

/-- The safety code's CRC-64 (R472). -/
def crc64 (p : List Byte) : DWord := ~~~(crcL (0x42F0E1EBA9EA3693 : DWord) 0xFFFFFFFFFFFFFFFF p)

end Sys2Proof.Machine
end

