-- ==== Sys2Proof/Machine/Params.lean ====
section
/-! DEFINITION. The parameters (R51, R52): size, default, class and written range of every ID that the manual defines. -/

namespace Sys2Proof.Machine

/-- When a parameter can be written (R51). -/
inductive PClass where
  | c | l | g
  deriving DecidableEq, Repr

/-- One parameter's definition: a value is the unsigned integer of its bytes. -/
structure PDef where
  size : Nat
  dflt : Nat
  cls : PClass
  /-- the widest bound its field can take (R54) -/
  ok : Nat → Bool

def pRange (size lo hi dflt : Nat) (cls : PClass) : PDef :=
  { size := size, dflt := dflt, cls := cls, ok := fun v => lo ≤ v && v ≤ hi }

/-- The k fields of w bytes that a value packs, least significant first. -/
def pFields (w : Nat) : Nat → Nat → List Nat
  | 0, _ => []
  | k + 1, v => v % 256 ^ w :: pFields w k (v / 256 ^ w)

/-- ANCHOR_CH: four channels, unused entries (0xFFFF) last (Table 05-6). -/
def anchorOk (v : Nat) : Bool :=
  let cs := pFields 2 4 v
  cs.all (fun c => c ≤ 1279 || c == 0xFFFF) && (cs.dropWhile (fun c => c != 0xFFFF)).all (fun c => c == 0xFFFF)

/-- DISPLAY_ITEMS: item codes 1 to 7, 0 ends (Table 10-13). -/
def displayItemsOk (v : Nat) : Bool := (pFields 1 8 v).all (fun c => c ≤ 7)

/-- PLC_COST_BASE: three values, not descending (Table 06-10). -/
def costBaseOk (v : Nat) : Bool :=
  match pFields 2 3 v with
  | [a, b, c] => 1 ≤ a && a ≤ b && b ≤ c && c ≤ 1000
  | _ => false

/-- Per-port reception parameters (Table 04-4), at offset 0 to 7 from 0x2040 + 0x10 p. -/
def rfPortParam (o : Nat) : Option PDef :=
  match o with
  | 0 => some (pRange 1 0 1 0 .c)
  | 1 => some (pRange 4 140000000 1020000000 0 .c)
  | 2 => some (pRange 1 0 3 0 .c)
  | 3 => some (pRange 1 0 4 4 .c)
  | 4 => some { size := 2, dflt := 65336, cls := .c, ok := fun v => -600 ≤ toSigned 16 v && toSigned 16 v ≤ 100 }
  | 5 => some (pRange 1 0 255 0 .c)
  | 6 => some (pRange 2 0 500 50 .c)
  | 7 => some (pRange 2 0 2000 100 .c)
  | _ => none

/-- Sector parameters (Table 05-6), at offset 0 to 15 from 0x2200 + 0x20 p. -/
def sectorParam (o : Nat) : Option PDef :=
  match o with
  | 0x0 => some (pRange 2 0 65535 0 .c)
  | 0x1 => some (pRange 1 2 8 4 .c)
  | 0x2 => some (pRange 4 0 255999 0 .c)
  | 0x3 => some (pRange 1 0 3 0 .c)
  | 0x4 => some { size := 8, dflt := 2 ^ 64 - 1, cls := .c, ok := anchorOk }
  | 0x5 => some (pRange 2 10 1000 100 .c)
  | 0x6 => some (pRange 1 0 15 0 .c)
  | 0x7 => some (pRange 2 0 4095 0 .c)
  | 0x8 => some (pRange 2 0 1279 0 .c)
  | 0x9 => some (pRange 8 0 (2 ^ 64 - 1) 0 .c)
  | 0xA => some { size := 1, dflt := 0xFF, cls := .c, ok := fun v => v ≤ 7 || v == 0xFF }
  | 0xB => some { size := 1, dflt := 0xFF, cls := .c, ok := fun v => v ≤ 7 || v == 0xFF }
  | 0xC => some { size := 32, dflt := 0, cls := .c, ok := fun v => (pFields 4 8 v).all (fun x => x ≤ 3600000) }
  | 0xD => some { size := 32, dflt := 0, cls := .c, ok := fun v => (pFields 4 8 v).all (fun x => x ≤ 3600000) }
  | 0xE => some { size := 2, dflt := 0xFFFF, cls := .c, ok := fun v => v ≤ 1279 || v == 0xFFFF }
  | 0xF => some (pRange 1 1 64 1 .c)
  | _ => none

/-- Per-port PLC parameters (Table 06-10), at offset 0 to 6 from 0x3100 + 0x10 q. -/
def plcPortParam (o : Nat) : Option PDef :=
  match o with
  | 0 => some (pRange 1 0 1 0 .c)
  | 1 => some (pRange 1 0 3 0 .c)
  | 2 => some (pRange 2 1 65535 0 .c)
  | 3 => some (pRange 2 600 1340 600 .c)
  | 4 => some (pRange 2 0 65535 0 .c)
  | 5 => some (pRange 2 24 400 128 .c)
  | 6 => some (pRange 4 100 100000 0 .c)
  | _ => none

/-- Class of a Slate code (Table 14-1). -/
def codeClass (code : Nat) : Nat :=
  if 0x1D0 ≤ code then 7 else if 0x1A0 ≤ code then 6
  else if code % 32 < 0x10 then 0 else if code % 32 < 0x18 then 1 else 2

/-- SAFETY and LEGAL codes (R370). -/
def privileged (code : Nat) : Bool := 0x1A0 ≤ code

/-- Default SLATE_RATE of a code: r in byte 0, b in byte 1 (Table 14-4). -/
def rateDefault (code : Nat) : Nat :=
  match codeClass code with
  | 0 => 6 + 256 * 8
  | 1 => 30 + 256 * 16
  | 2 => 60 + 256 * 32
  | _ => 255 + 256 * 255

/-- The parameters with an ID of their own. -/
def fixedParam (id : Nat) : Option PDef :=
  match id with
  | 0x2000 => some (pRange 1 2 32 3 .c)
  | 0x2001 => some (pRange 1 0 1 0 .c)
  | 0x2002 => some (pRange 1 6 20 10 .c)
  | 0x2003 => some { size := 2, dflt := 10000, cls := .c, ok := fun v => v ≤ 20000 && v % 100 == 0 }
  | 0x2300 => some (pRange 1 1 255 8 .l)
  | 0x3000 => some (pRange 1 2 32 4 .c)
  | 0x3001 => some (pRange 2 1 1000 20 .c)
  | 0x3002 => some { size := 6, dflt := 4 + 12 * 65536 + 24 * 65536 ^ 2, cls := .c, ok := costBaseOk }
  | 0x3003 => some (pRange 2 0 1000 8 .c)
  | 0x3004 => some (pRange 1 0 255 80 .c)
  | 0x3005 => some (pRange 2 0 1000 16 .c)
  | 0x3006 => some (pRange 1 0 1 1 .c)
  | 0x3007 => some (pRange 2 0 1000 10 .c)
  | 0x3008 => some (pRange 1 1 16 3 .c)
  | 0x3009 => some (pRange 2 60 3600 600 .c)
  | 0x300A => some (pRange 2 10 3600 300 .c)
  | 0x300B => some (pRange 4 3600 2592000 86400 .c)
  | 0x300C => some (pRange 4 0 604800 86400 .c)
  | 0x300D => some (pRange 4 1 86400 900 .c)
  | 0x4000 => some (pRange 4 64 2147483648 65536 .l)
  | 0x4001 => some (pRange 2 0 65535 16 .l)
  | 0x4002 => some (pRange 2 16 256 192 .l)
  | 0x4003 => some (pRange 1 0 1 1 .l)
  | 0x4004 => some (pRange 2 10 3600 600 .l)
  | 0x5000 => some (pRange 1 1 30 30 .l)
  | 0x5001 => some (pRange 1 1 60 5 .l)
  | 0x5002 => some (pRange 2 100 10000 2000 .l)
  | 0x5003 => some (pRange 2 16 4096 1024 .l)
  | 0x5004 => some (pRange 2 1 600 60 .l)
  | 0x5010 => some { size := 8, dflt := 0x0007060504030201, cls := .g, ok := displayItemsOk }
  | 0x5011 => some (pRange 1 2 60 6 .g)
  | 0x5012 => some (pRange 1 0x08 0x77 0x3C .c)
  | 0x5800 => some (pRange 1 0 2 0 .l)
  | 0x5801 => some (pRange 2 16 4096 1024 .l)
  | 0x5802 => some (pRange 2 1 600 60 .l)
  | 0x5803 => some (pRange 2 400 32768 4000 .l)
  | 0x5804 => some { size := 2, dflt := 0xFFFF, cls := .l, ok := fun v => v ≤ 4095 || v == 0xFFFF }
  | 0x5805 => some (pRange 2 10 1000 200 .l)
  | 0x5806 => some (pRange 2 256 8192 1024 .l)
  | 0x6000 => some (pRange 1 1 255 8 .l)
  | 0x6001 => some (pRange 2 1 65535 1024 .l)
  | 0x6002 => some (pRange 4 60 86400 900 .l)
  | 0x7000 => some (pRange 4 60 604800 3600 .l)
  | 0x7001 => some (pRange 4 60 604800 86400 .l)
  | 0x7002 => some (pRange 2 0 2000 250 .l)
  | 0x7003 => some (pRange 1 1 16 4 .l)
  | 0x7004 => some (pRange 2 0 1000 500 .l)
  | 0x7005 => some (pRange 2 10 3600 300 .l)
  | 0x7006 => some (pRange 2 1 3600 120 .l)
  | 0x8000 => some (pRange 4 1000 200000 20000 .l)
  | 0x9000 => some (pRange 1 1 90 7 .l)
  | 0xA000 => some (pRange 2 60 3600 600 .l)
  | 0xB000 => some (pRange 4 0 4294967295 0 .c)
  | 0xB001 => some (pRange 1 0 1 1 .l)
  | 0xB800 => some (pRange 1 1 168 24 .l)
  | 0xB801 => some (pRange 1 0 1 1 .l)
  | _ => none

/-- The definition of an ID in the current format; none for a reserved ID. -/
def paramDef (id : Nat) : Option PDef :=
  if 0x2040 ≤ id && id < 0x20C0 then rfPortParam (id % 0x10)
  else if 0x2100 ≤ id && id < 0x2200 then
    some { size := 2, dflt := 0, cls := .c, ok := fun v => bits v 14 11 == 0 }
  else if 0x2200 ≤ id && id < 0x2300 then sectorParam (id % 0x20)
  else if 0x3100 ≤ id && id < 0x3200 then plcPortParam (id % 0x10)
  else if 0x9100 ≤ id && id < 0x9300 then
    let code := id - 0x9100
    some { size := 2, dflt := rateDefault code, cls := if privileged code then .g else .l,
           ok := fun v => 1 ≤ v / 256 }
  else fixedParam id

/-- The default of an ID (R52); 0 where none is defined. -/
def paramDefault (id : Nat) : Nat :=
  match paramDef id with
  | some d => d.dflt
  | none => 0

/-- The active value of a parameter. -/
def pval (s : State) (id : Nat) : Nat := tget s.cfg.vals id (paramDefault id)

/-- The value of a parameter in a window. -/
def wval (w : Window) (id : Nat) : Nat := tget w.vals id (paramDefault id)

/-- IDs of the per-port parameters. -/
def pidRf (p o : Nat) : Nat := 0x2040 + 0x10 * p + o
def pidStream (p st : Nat) : Nat := 0x2100 + 0x20 * p + st
def pidSector (p o : Nat) : Nat := 0x2200 + 0x20 * p + o
def pidPlc (q o : Nat) : Nat := 0x3100 + 0x10 * q + o

/-- The current parameter-block format version of subsystem 0x1 to 0xC (Table 03-8). -/
def curFormat (s : State) (sub : Nat) : Nat := s.fw.pfmt.getD (sub - 1) 1

end Sys2Proof.Machine
end

