-- ==== Sys2Proof/Machine/Flags.lean ====
section
/-! DEFINITION. Event bits and MSI-X delivery (R62, R63, R500), the status words that gather flags, and time trust (R405, R406). -/

namespace Sys2Proof.Machine

/-- Units of engine time: 2^24 per second (Glossary, "Engine time"). -/
def tSec (n : Nat) : Nat := n * 2 ^ 24
def tMs (n : Nat) : Nat := n * 2 ^ 24 / 1000
def tUs (n : Nat) : Nat := n * 2 ^ 24 / 1000000

/-- The current engine second (bits [63:24] of engine time). -/
def secs (s : State) : Nat := s.now / 2 ^ 24

/-- Sources that some rule raises; every other source is reserved (R62). -/
def sourceDefined (n : Nat) : Bool :=
  n ≤ 0x17 || (0x20 ≤ n && n ≤ 0x29) || (0x30 ≤ n && n ≤ 0x37) || (0x40 ≤ n && n ≤ 0x43) || (0x50 ≤ n && n ≤ 0x5C)
  || (0x60 ≤ n && n ≤ 0x64) || (0x70 ≤ n && n ≤ 0x74) || (0x80 ≤ n && n ≤ 0x84) || (0x90 ≤ n && n ≤ 0x94)
  || (0xA0 ≤ n && n ≤ 0xA5) || (0xB0 ≤ n && n ≤ 0xB4) || (0xB8 ≤ n && n ≤ 0xBC) || (0xC0 ≤ n && n ≤ 0xC3)

/-- EVT_ROUTE of a source: its number mod 64 after a reset (R62). -/
def evtRoute (s : State) (n : Nat) : Nat := (tget s.evt.route n (BitVec.ofNat 6 n)).toNat

/-- The MSI-X message of source n on vector v: sent, or held in the Pending Bit Array while the vector or the function is masked; nothing
while MSI-X Enable is 0 (R63). (DEDUCED: log 55) -/
def sendVector (n v : Nat) (s : State) : State :=
  let e := tget s.pcie.msix v {}
  if !s.pcie.msixEn then s
  else if s.pcie.msixFMask || e.mask then
    { s with evt.pba := s.evt.pba ||| (1#64 <<< v), evt.held := (n, v) :: s.evt.held }
  else { s with out := .msix e.addr e.data :: s.out }

/-- An occurrence of an event source (R63): the pending bit, and a message when it rises while enabled. -/
def raise (n : Nat) (s : State) : State :=
  if !sourceDefined n then s
  else if s.evt.pend.getLsbD n then s
  else
    let s1 := { s with evt.pend := s.evt.pend ||| (1#256 <<< n) }
    if s1.evt.en.getLsbD n then sendVector n (evtRoute s1 n) s1 else s1

def raiseIf (c : Bool) (n : Nat) (s : State) : State := if c then raise n s else s

/-- Time is trusted while RLF, OSF and OVF all read 0 (R406). -/
def trusted (s : State) : Bool := !s.bkp.rlf && !s.bkp.osf && !s.bkp.ovf

/-- RTC_STAT as Table 15-3 lays it out. -/
def rtcStat (b : Backup) : BitVec 10 :=
  BitVec.ofNat 10 (b2n b.lbv + 2 * b2n b.rlf + 4 * b2n b.ovf + 8 * b2n b.dateErr + 16 * b2n b.shadowTo + 32 * b2n b.alm0
    + 64 * b2n b.alm1 + 128 * b2n b.osf + 256 * b2n b.wrTo + 512 * b2n b.onVbat)

/-- RECF_STAT as R391 lays it out. -/
def recfStat (b : Backup) : Word :=
  BitVec.ofNat 32 (b2n b.recf + 2 * b2n b.sparef + 4 * b.recfCause + 65536 * b.recfLost)

/-- A change of trust raises event 0xC0 once STAGE 0x05 has compared it (R406). -/
def noteTrust (s : State) : State :=
  match s.trustSeen with
  | none => s
  | some t => if t = trusted s then s else raise 0xC0 { s with trustSeen := some (trusted s) }

/-- Codes of the states that registers and responses show. -/
def cfgCode : CfgState → Nat
  | .unconfigured => 0 | .configuring => 1 | .committing => 2 | .committed => 3 | .reconfiguring => 4

def safeCode : SafeState → Nat
  | .off => 0 | .armed => 1 | .fault => 2 | .locked => 3

def jnlCode : JState → Nat
  | .normal => 0 | .full => 1 | .suspended => 2 | .failed => 3

def updCode : UpdState → Nat
  | .none => 0 | .staging => 1 | .staged => 2 | .preparing => 3 | .prepared => 4 | .switched => 5 | .trial => 6

def recCode : RecState → Nat
  | .normal => 0 | .spare => 1 | .latchOnly => 2

def causeCode : MbxCause → Nat
  | .none => 0 | .badGeometry => 1 | .overrun => 2 | .oversize => 3 | .busError => 4 | .rspOversize => 5

def chanCode : ChanState → Nat
  | .disabled => 0 | .idle => 1 | .running => 2 | .stopped => 3

/-- GLB_STATE (Table 20-2). -/
def glbState (s : State) : Word :=
  BitVec.ofNat 32 (cfgCode s.cfg.state + 256 * b2n s.bkp.sealOpen + 512 * b2n (trusted s) + 1024 * safeCode s.safe.state
    + 4096 * jnlCode s.jnl.state)

/-- The lifecycle state: the highest bit set in the majority of the row's copies (R427), in the codes of Table 03-8. -/
def lifecycle (s : State) : Nat :=
  let maj := fun i => 2 ≤ (s.fuses.row.filter (fun c => c.getLsbD i)).length
  if maj 3 then 4 else if maj 2 then 3 else if maj 1 then 2 else if maj 0 then 1 else 0

end Sys2Proof.Machine
end

