-- ==== Sys2Proof/Machine/Ops.lean ====
section
/-! DEFINITION. The named operations every family shares: time, free values, Slate admission, responses and pending operations,
islands and the working counts. -/

namespace Sys2Proof.Machine

/-! ### Time and free values -/

/-- Bring engine time forward to t; a time already passed changes nothing (log 3). -/
def advTo (t : Nat) (s : State) : State :=
  if s.now < t then { s with now := t, mono := s.mono + (t - s.now) } else s

/-- Bring the monotonic time forward to m. -/
def advMono (m : Nat) (s : State) : State :=
  if s.mono < m then { s with mono := m, now := s.now + (m - s.mono) } else s

/-- Handle a frame whose last symbol ended at t: before the last commit instant, under the values that were in force until then (R59). -/
def valuesAt (t : Nat) (f : State → State) (s : State) : State :=
  if t < s.cfg.lastTc then
    { f { s with cfg.vals := s.cfg.old, cfg.profiles := s.cfg.oldProfiles } with cfg.vals := s.cfg.vals, cfg.profiles := s.cfg.profiles }
  else f s

/-- A value the manual leaves open, and the counter that makes the next one fresh (log 9). -/
def fresh (s : State) : Nat × State := (Config.freeNat s.freeCtr, { s with freeCtr := s.freeCtr + 1 })

/-- One DRBG request (R366): its output, and the count toward the next reseed. -/
def draw (s : State) : List Byte × State :=
  (Config.drbg s.freeCtr, { s with freeCtr := s.freeCtr + 1, keys.draws := s.keys.draws + 1 })

/-! ### Islands (R9, R499) -/

/-- Island indices of R499. -/
def islLane (k : Nat) : Nat := k
def islRf (p : Nat) : Nat := 17 + p
def islPlc (q : Nat) : Nat := 25 + q / 4
def islControl : Nat := 29
def islRecorder : Nat := 34

def isl (s : State) (i : Nat) : Island := tget s.isl i {}

def setIsl (i : Nat) (f : Island → Island) (s : State) : State := { s with isl := tupd s.isl i {} f }

/-- The PLC islands are fused off (R1, option group 0; a blank part has no group). -/
def isXn7440 (s : State) : Bool := s.fuses.xn7440 && lifecycle s != 0

/-- The object is excluded by a repair-ledger entry of the type (R487). -/
def inRepair (s : State) (typ obj : Nat) : Bool := s.life.repair.any (fun e => e.typ == typ && e.obj.toNat == obj)

/-- An island is present (bit PRESENT of Table 20-4). -/
def islPresent (s : State) (i : Nat) : Bool := !(25 ≤ i && i ≤ 28 && isXn7440 s)

/-- An island is excluded: in the repair ledger, or mapped out by option group 3 (R427, R487). -/
def islExcluded (s : State) (i : Nat) : Bool := inRepair s 2 i || s.fuses.islOut.contains i

def islUp (s : State) (i : Nat) : Bool := islPresent s i && !(isl s i).inReset

/-- Most entries of a type in the repair ledger (Table 19-4). -/
def repairLimit (typ : Nat) : Nat :=
  match typ with
  | 1 => 272
  | 2 => 36
  | 3 => 4096
  | 4 => 256
  | 5 => 8192
  | 6 => 1040
  | _ => 2

/-- Add a repair-ledger entry (R487): never removed, at most 16 384, and of a type no more than Table 19-4 gives it. -/
def addRepair (typ cause obj : Nat) (s : State) : State :=
  if s.life.repair.length < 16384 && (s.life.repair.filter (fun e => e.typ == typ)).length < repairLimit typ then
    let e : RepairEnt := { typ := typ, cause := cause, obj := BitVec.ofNat 32 obj, secs := BitVec.ofNat 32 (secs s),
                           start := s.life.starts }
    { s with life.repair := s.life.repair ++ [e] }
  else s

/-- An island fault bit is set, with its cause in the codes of Table 20-4: 1 credit audit, 2 lock failure, 3 BIST, 4 second ISLRST
(R499): event 0x11. -/
def islandFault (i cause : Nat) (s : State) : State := raise 0x11 (setIsl i (fun x => { x with fault := true, cause := cause }) s)

/-! ### Slate admission (R375, R376, R380) -/

/-- Codes that the running control firmware gives the records that rules require (R371 leaves them to the firmware: log 7). -/
def rcMbxOrphan : Nat := 0x30
def rcLinkFault : Nat := 0x38
def rcFenceCredits : Nat := 0x31
def rcPcieWidth : Nat := 0x32
def rcResetCause : Nat := 0x20
def rcResetCauseWdt : Nat := 0x33
def rcCommit : Nat := 0x3B
def rcStrap : Nat := 0x39
def rcOptions : Nat := 0x3A
def rcActiveBad : Nat := 0x158
def rcDdrRank : Nat := 0x178
def rcDmaStopped : Nat := 0x160
def rcMemUe : Nat := 0x161
def rcTrainFail : Nat := 0x58
def rcLanesOff : Nat := 0x40
def rcRefused : Nat := 0x34
def rcC1 : Nat := 0x1A0
def rcSafety : Nat := 0x1A1
def rcFeedback : Nat := 0x1A2
def rcUnwarned : Nat := 0x1D1
def rcTamper : Nat := 0x1D2
def rcTamperClear : Nat := 0x1D3
def rcSeal : Nat := 0x1D4
def rcConfirm : Nat := 0x1D5
def rcFallbackLegal : Nat := 0x1D6
def rcLifecycle : Nat := 0x1D7
def rcRestore : Nat := 0x1D8
def rcPageLost : Nat := 0x1D9
def rcPageBad : Nat := 0x1DA
def rcFallback : Nat := 0x159
def rcInstall : Nat := 0x15A
def rcTally : Nat := 0x90
def rcTallyClear : Nat := 0x91
def rcDurable : Nat := 0xB0
def rcEntropy : Nat := 0x118
def rcGenCounter : Nat := 0x119

/-- Bytes a record occupies: LEN + 8 (R372). -/
def recBytes (r : SRec) : Nat := 24 + r.payload.length

def queueBytes (q : List SRec) : Nat := (q.map recBytes).sum

/-- SLATE_RATE of a code (R382): r per minute and burst b. -/
def slateRate (s : State) (code : Nat) : Nat × Nat :=
  let v := pval s (0x9100 + code)
  (v % 256, v / 256)

/-- A record suppressed: the code's pending count and total, the status counts, event 0x92 for a privileged one (R375, R394). -/
def recSuppress (code : Nat) (s : State) : State :=
  let s1 := { s with slate.buckets := tupd s.slate.buckets code {} (fun b =>
    { b with pendingCount := b.pendingCount + 1, suppTotal := b.suppTotal + 1 }) }
  if privileged code then
    let due := match s1.slate.lastPrivSupp with
      | none => true
      | some t => t + tSec 60 ≤ s1.mono
    raiseIf due 0x92 { s1 with slate.privSupp := s1.slate.privSupp + 1, slate.lastPrivSupp := some s1.mono }
  else { s1 with slate.ordSupp := s1.slate.ordSupp + 1 }

/-- Take a token from a code's bucket; the refill clock starts when it was full (R380). -/
def takeToken (now : Nat) (b : Bucket) : Bucket :=
  { b with used := b.used + 1, clock := if b.used = 0 then some (now, 0) else b.clock,
           pendingCount := 0, admitted := b.admitted + 1 }

/-- Admission with room already judged: a token, then SEQ and stamp (R374, R375). -/
def recAdmit (code : Nat) (payload : List Byte) (s : State) : State :=
  let b := tget s.slate.buckets code {}
  let (r, burst) := slateRate s code
  if r = 0 || burst ≤ b.used then recSuppress code s
  else
    let rec_ : SRec :=
      { code := code, spare := s.slateNv.state == .spare, trust := trusted s, seq := s.slate.head,
        stamp := BitVec.ofNat 64 s.now, payload := padTo 8 payload, supp := min b.pendingCount (2 ^ 32 - 1) }
    let q := s.slate.queue ++ [rec_]
    { s with slate.buckets := tset s.slate.buckets code (takeToken s.mono b), slate.head := s.slate.head + 1,
             slate.queue := q, slate.admitted := s.slate.admitted + 1, slate.moved := true,
             slate.peak := max s.slate.peak (queueBytes q) }

/-- A record that a rule requires, once the recorder has opened (R375, R376, R379, R390). (DESIGN CHOICE: log 157) -/
def recordNow (code : Nat) (payload : List Byte) (s : State) : State :=
  let size := 24 + (padTo 8 payload).length
  match s.slateNv.state with
  | .latchOnly =>
    if privileged code then { s with bkp.recfLost := satAdd 65535 s.bkp.recfLost 1 } else recSuppress code s
  | st =>
    if privileged code then
      if s.slate.waiting.isEmpty && queueBytes s.slate.queue + size ≤ 24576 then recAdmit code payload s
      else { s with slate.waiting := s.slate.waiting ++ [(code, payload)] }
    else if st == .spare || !s.mon.pwrfailN || !s.slate.waiting.isEmpty || 16384 < queueBytes s.slate.queue + size then
      recSuppress code s
    else recAdmit code payload s

/-- A record that a rule requires: before the start scan it waits behind SLATE_OPEN (R386; log 7). -/
def record (code : Nat) (payload : List Byte) (s : State) : State :=
  if s.slate.opened then recordNow code payload s
  else { s with slate.early := s.slate.early ++ [(code, payload)] }

/-! ### Status codes and responses (R40 to R46) -/

/-- Status codes (Table 03-5). -/
inductive Status where
  | ok | pending | badOpcode | badLength | badParam | badState | noResource | sealed | authFail | busyMaint | formatOld | hwFault
  deriving DecidableEq, Repr

def statusCode : Status → Nat
  | .ok => 0x00 | .pending => 0x01 | .badOpcode => 0x10 | .badLength => 0x11 | .badParam => 0x12 | .badState => 0x13
  | .noResource => 0x14 | .sealed => 0x15 | .authFail => 0x16 | .busyMaint => 0x17 | .formatOld => 0x18 | .hwFault => 0x20

def mbx (s : State) (m : Nat) : Mbx := tget s.mbxs m {}

def setMbx (m : Nat) (f : Mbx → Mbx) (s : State) : State := { s with mbxs := tupd s.mbxs m {} f }

/-- A response that is not posted: one Slate record with mailbox, tag, opcode and status (R37, R38). -/
def orphanRecord (m : Nat) (r : Rsp) (s : State) : State :=
  record rcMbxOrphan (le 4 m ++ le 4 r.tag.toNat ++ le 2 r.opcode ++ le 1 r.status) s

/-- Slots of a response (R43). -/
def rspSlots (r : Rsp) : Nat := (16 + r.payload.length + 63) / 64

/-- The response's bytes (Table 03-3). -/
def rspBytes (r : Rsp) : List Byte :=
  le 4 r.tag.toNat ++ le 2 r.opcode ++ le 1 r.status ++ le 1 (b2n r.final) ++ le 2 r.payload.length ++ le 6 0 ++ r.payload

/-- Write bytes into consecutive 64-byte ring slots, after the last slot at slot 0 (R36). -/
def ringWrites (base size : Nat) : Nat → Nat → List Byte → List Output
  | 0, _, _ => []
  | n + 1, idx, bytes =>
    .hostWrite (BitVec.ofNat 64 (base + 64 * (idx % size))) (bytes.take 64) :: ringWrites base size n (idx + 1) (bytes.drop 64)

def rspBase (x : Mbx) : Nat := x.rspBaseLo.toNat / 4096 * 4096 + 2 ^ 32 * x.rspBaseHi.toNat

/-- Free slots of the response ring (R35). -/
def rspFree (x : Mbx) : Nat := 2 ^ x.rspLog2.toNat - (x.rspPI - x.rspCI).toNat

/-- Write one response into the ring and advance MBX_RSP_PI, which is the mailbox's event (R43, R64). -/
def writeRsp (m : Nat) (r : Rsp) (s : State) : State :=
  let x := mbx s m
  let n := rspSlots r
  let outs := ringWrites (rspBase x) (2 ^ x.rspLog2.toNat) n x.rspPI.toNat (rspBytes r)
  raise m (setMbx m (fun x => { x with rspPI := x.rspPI + BitVec.ofNat 32 n }) { s with out := outs.reverse ++ s.out })

/-- Operations of a mailbox that will answer in its ring (R42). Those orphaned by an error, a disable or a reset of the mailbox do not count toward
the limit of 8 once it is enabled again: the spec does not say (DESIGN CHOICE: log 142). -/
def pendCount (s : State) (m : Nat) : Nat := (s.ops.filter (fun o => o.req.mbx == m && !o.orphan)).length

/-- A mailbox enters error (R37): cause, event 0x14, and every response owed becomes a Slate record. -/
def mbxError (m : Nat) (c : MbxCause) (s : State) : State :=
  if (mbx s m).halted then s
  else
    let waiting := (mbx s m).rspWait
    let s1 := setMbx m (fun x => { x with err := true, halted := true, cause := c, fetchedOrphan := true, rspWait := [], wrErr := false }) s
    let s2 := { s1 with ops := s1.ops.map (fun o => if o.req.mbx == m then { o with orphan := true } else o) }
    raise 0x14 (waiting.foldl (fun s r => orphanRecord m r s) s2)

/-- Post a response, or keep it until slots are free, or make it a Slate record (R37, R38, R43, R45). -/
def post (m : Nat) (orphan : Bool) (r : Rsp) (s : State) : State :=
  let x := mbx s m
  if orphan || !x.en || x.halted then orphanRecord m r s
  else if x.wrErr && s.fw.pause.isNone && x.rspWait.isEmpty && rspSlots r ≤ rspFree x then orphanRecord m r (mbxError m .busError s)
  else if 2 ^ x.rspLog2.toNat < rspSlots r then orphanRecord m r (mbxError m .rspOversize s)
  else if s.fw.pause.isSome || !x.rspWait.isEmpty || rspFree x < rspSlots r then
    setMbx m (fun x => { x with rspWait := x.rspWait ++ [r] }) s
  else writeRsp m r s

/-- The immediate or final response of a request. -/
def mkRsp (opcode : Nat) (r : Req) (st : Status) (payload : List Byte) : Rsp :=
  { tag := r.tag, opcode := opcode, status := statusCode st, final := st != .pending, payload := payload }

/-! ### Pending operations (R41, R42, R44) -/

def findOp (s : State) (id : Nat) : Option PendOp := s.ops.find? (fun o => o.id == id)

/-- An operation ends: its final response (R41). -/
def finishOp (id : Nat) (st : Status) (payload : List Byte) (s : State) : State :=
  match findOp s id with
  | none => s
  | some o =>
    post o.req.mbx o.orphan (mkRsp o.opcode o.req st payload) { s with ops := s.ops.filter (fun o => o.id != id) }

/-- Every operation of a kind ends with the same response. -/
def finishOps (ids : List Nat) (st : Status) (payload : List Byte) (s : State) : State :=
  ids.foldl (fun s id => finishOp id st payload s) s

/-- Two objects stand in each other's way (R44). -/
def objClash (a b : Obj) : Bool :=
  match a, b with
  | .allHandles, .handle _ => true
  | .handle _, .allHandles => true
  | a, b => a == b

def objsClash (a b : List Obj) : Bool := a.any (fun x => b.any (objClash x))

/-- What serving a request comes to, from check 4 of Table 03-6 onward. -/
inductive Reply where
  /-- an immediate response that is also the last -/
  | done (s : State) (st : Status) (payload : List Byte)
  /-- accepted: PENDING now, a final response later; the operation holds the objects -/
  | pend (s : State) (objs : List Obj)
  /-- PENDING now and, in the same step, the final response -/
  | twice (s : State) (st : Status) (payload : List Byte)
  /-- the request waits (R44): PENDING now, its own response later -/
  | wait (s : State)

/-- How the engine serves one opcode. -/
structure Service where
  opcode : Nat
  /-- check 3: LENGTH is one that the opcode allows; a count in the payload may set it -/
  lenOk : List Byte → Bool
  /-- check 4: 0 every state, 1 not UNCONFIGURED (R61), 2 COMMITTED only, 3 CONFIGURING and RECONFIGURING only -/
  acc : Nat := 1
  /-- the request waits for STAGE 0x09 (R436) -/
  ready : Bool := false
  /-- objects it acts on (R44) -/
  objs : Req → State → List Obj := fun _ _ => []
  /-- checks 5 to 11; the first argument is the number its operation has if it becomes PENDING -/
  run : Nat → Req → State → Reply

/-- Who answers mailboxes now (R45, R429, R436, R438, R441). -/
inductive Server where
  | nobody | optionsFailed | bootRom | coreFailed | dramFailed | firmware
  deriving DecidableEq, Repr

def server (s : State) : Server :=
  if (isl s 29).inReset || (isl s 33).inReset then .nobody
  else if s.boot.fail = 0x80 then .optionsFailed
  else if s.boot.fail = 0x81 || s.boot.stage = 2 then .bootRom
  else if s.boot.fail = 0x82 then (if s.boot.coreSound then .coreFailed else .nobody)
  else if s.boot.fail = 0x83 then .dramFailed
  else if 3 ≤ s.boot.stage then .firmware
  else .nobody

/-- The server answers on mailbox m. -/
def serves (s : State) (m : Nat) : Bool :=
  s.fw.pause.isNone &&
    match server s with
    | .nobody => false
    | .firmware => m < 16
    | _ => m == 0

/-- Check 4 of Table 03-6: server, lifecycle (13 R349) and configuration state. (DEDUCED: log 135, log 156) -/
def accepted (v : Service) (s : State) : Bool :=
  let sub := v.opcode / 256
  let byServer := match server s with
    | .nobody => false
    | .optionsFailed => sub == 1 || sub == 9
    | .coreFailed => sub == 1 || sub == 9
    | .bootRom => sub == 1 || sub == 9 || sub == 0xA
    | .dramFailed => (sub == 1 || sub == 9 || sub == 0xA || sub == 0xB) && v.opcode != 0x0101
    | .firmware => true
  let byLife := !((lifecycle s == 4 || lifecycle s == 0) && sub == 8 && v.opcode != 0x080A)
  let byCfg := match v.acc with
    | 0 => true
    | 1 => s.cfg.state != .unconfigured
    | 2 => s.cfg.state == .committed
    | _ => s.cfg.state == .configuring || s.cfg.state == .reconfiguring
  byServer && byLife && byCfg

/-- Bring-up is still under way (R436). (DEDUCED: log 53) -/
def bringingUp (s : State) : Bool := server s == .firmware && s.boot.stage < 9

/-- The mailbox holds this request, fetched, and no other mailbox holds one that was fetched before it: fetched requests are taken in the order of
their fetches, so that those on one object run in that order (R36, R42, R44). (DESIGN CHOICE: log 1) -/
def takes (m : Nat) (opcode : Nat) (r : Req) (s : State) : Bool :=
  let x := mbx s m
  x.fetched == some (opcode, r) && !s.mbxs.any (fun e => e.2.fetched.isSome && e.2.fetchNo < x.fetchNo)

/-- Post the immediate response of the request that the mailbox holds (R41). -/
def immediate (opcode : Nat) (r : Req) (orphan : Bool) (st : Status) (payload : List Byte) (s : State) : State :=
  post r.mbx orphan (mkRsp opcode r st payload) s

/-- Add an operation that is PENDING. -/
def addOp (opcode : Nat) (r : Req) (orphan : Bool) (k : PendKind) (objs : List Obj) (s : State) : State :=
  { s with ops := s.ops ++ [{ id := s.nextOp, opcode := opcode, req := r, kind := k, orphan := orphan, objs := objs }],
           nextOp := s.nextOp + 1 }

/-- The request waits: PENDING at once, checks 4 onward later (R44). -/
def startWait (v : Service) (r : Req) (orphan : Bool) (s : State) : State :=
  immediate v.opcode r orphan .pending [] (addOp v.opcode r orphan .waiting (v.objs r s) s)

/-- Serve a request that is held: Table 03-6 in order. -/
def serveHeld (v : Service) (r : Req) (orphan : Bool) (s : State) : State :=
  let answer := fun st => immediate v.opcode r orphan st [] s
  if v.opcode / 256 = 3 && isXn7440 s then answer .noResource
  else if !v.lenOk r.payload then answer .badLength
  else if (v.ready && bringingUp s) || s.ops.any (fun o => objsClash o.objs (v.objs r s)) then startWait v r orphan s
  else if !accepted v s then answer .badState
  else
    match v.run s.nextOp r s with
    | .done s1 st payload => immediate v.opcode r orphan st payload s1
    | .twice s1 st payload =>
      immediate v.opcode r orphan st payload (immediate v.opcode r orphan .pending [] s1)
    | .pend s1 objs => immediate v.opcode r orphan .pending [] (addOp v.opcode r orphan .running objs s1)
    | .wait s1 => startWait v r orphan s1

/-- Serve a request of an opcode row: nothing happens while nobody serves the mailbox, or the mailbox does not hold it (log 1). -/
def serve (v : Service) (r : Req) (s : State) : State :=
  if serves s r.mbx && takes r.mbx v.opcode r s then
    let x := mbx s r.mbx
    serveHeld v r x.fetchedOrphan
      (setMbx r.mbx (fun x => { x with fetched := none, fetchedOrphan := false }) s)
  else s

/-- A waiting request runs its checks 4 onward and ends with its final response (R44). -/
def serveWaiting (v : Service) (o : PendOp) (s : State) : State :=
  if !accepted v s then finishOp o.id .badState [] s
  else
    match v.run o.id o.req s with
    | .done s1 st payload => finishOp o.id st payload s1
    | .twice s1 st payload => finishOp o.id st payload s1
    | .pend s1 objs =>
      { s1 with ops := s1.ops.map (fun p => if p.id = o.id then { p with kind := .running, objs := objs } else p) }
    | .wait s1 => s1

/-- No effect and OK. -/
def replyOk (s : State) (payload : List Byte := []) : Reply := .done s .ok payload

def refuse (s : State) (st : Status) (payload : List Byte := []) : Reply := .done s st payload

/-- LENGTH is 0. -/
def payloadFree (p : List Byte) : Bool := p.isEmpty

/-- LENGTH is n. -/
def lenIs (n : Nat) (p : List Byte) : Bool := p.length == n

/-- The k reserved bytes at offset off are 0 (R5). -/
def zeroAt (p : List Byte) (off k : Nat) : Bool := rd p off k == 0

/-- The instant of an act whose period the spec bounds from both sides: which instant between them is open (log 9); the first one comes when the
command does. (DESIGN CHOICE: log 150) -/
def pacedAt (last : Option Nat) (lo hi : Nat) (s : State) : State :=
  match last with
  | some t =>
    let (x, s1) := fresh s
    advMono (t + lo + x % (hi - lo + 1)) s1
  | none => s

/-- The instant of a round that comes every so many seconds: the first one comes when the command does. (DESIGN CHOICE: log 150) -/
def roundAt (last : Option Nat) (every : Nat) (s : State) : State :=
  match last with
  | some t => advMono (t + tSec every) s
  | none => s

/-- Every access to an entry of the context cache sets its reference bit (08 R217). -/
def touch (h : Nat) (s : State) : State :=
  { s with mem.cache := s.mem.cache.map (fun c => if c.handle = h then { c with ref := true } else c) }

/-- A change of a cached context: an access, and the entry differs from DRAM from now on (08 R217). -/
def dirtyCtx (h : Nat) (s : State) : State :=
  { s with mem.cache := s.mem.cache.map (fun c => if c.handle = h then { c with ref := true, dirty := true } else c) }

/-- What the stream was writing is dropped or is to be written again from its start: a descriptor under way begins anew (08 R228; 09 R258,
R259). (DEDUCED: log 101) -/
def streamAnew (st : Stream) (s : State) : State :=
  { s with chans := tmap s.chans (fun _ x => if x.stream == some st then { x with active := none, held := none } else x) }

/-- A channel named by an opcode that starts a stream (R225): in range, with a ring, and not bound. -/
def bindCheck (c : Nat) (s : State) : Option Status :=
  let x := tget s.chans c {}
  if 32 ≤ c then some .badParam
  else if x.state == .disabled then some .badState
  else if x.stream.isSome then some .noResource
  else none

def bindChan (c : Nat) (st : Stream) (s : State) : State :=
  { s with chans := tupd s.chans c {} (fun x => { x with stream := some st, held := none }) }

def unbindChan (c : Nat) (s : State) : State :=
  { s with chans := tupd s.chans c {} (fun x => { x with stream := none, held := none }) }

/-- The payload of HW_FAULT: the SEQ of the record that describes the fault (R48), the first that was admitted between two states. A record that was
suppressed, or that still waits for the recorder, has no SEQ that the manual states: the payload is a free value then (DESIGN CHOICE: log 141). -/
def faultSeq (before after : State) : List Byte × State :=
  if after.slate.head = before.slate.head then
    let (x, s) := fresh after
    (le 4 x, s)
  else (le 4 before.slate.head.toNat, after)

/-- The record of a fault, and the payload that names it (R48). -/
def recordFault (code : Nat) (payload : List Byte) (s : State) : List Byte × State := faultSeq s (record code payload s)

/-! ### Configuration state (R57) -/

/-- Every change of the configuration state raises event 0x12. -/
def setCfgState (c : CfgState) (s : State) : State :=
  if s.cfg.state = c then s else raise 0x12 { s with cfg.state := c }

end Sys2Proof.Machine
end

