-- ==== Sys2Proof/Machine/Cal.lean ====
section
/-! DEFINITION. Gregorian dates and engine seconds (R398, R399, R404). -/

namespace Sys2Proof.Machine

/-- A leap year of the range 2000 to 2399 (R399). -/
def leapYear (y : Nat) : Bool := y % 4 == 0 && (y % 100 != 0 || y % 400 == 0)

def monthDays (y m : Nat) : Nat :=
  if m = 2 then (if leapYear y then 29 else 28) else if m = 4 || m = 6 || m = 9 || m = 11 then 30 else 31

/-- Days from 2000-01-01 to a date; years are counted from March. -/
def daysOf (y m d : Nat) : Nat :=
  let y' := if m ≤ 2 then y - 1 else y
  let doy := (153 * (if 2 < m then m - 3 else m + 9) + 2) / 5 + d - 1
  365 * y' + y' / 4 - y' / 100 + y' / 400 + doy - 730425

/-- Year, month and day of a count of days from 0000-03-01. -/
def dateOfZ (z : Nat) : Nat × Nat × Nat :=
  let doe := z % 146097
  let yoe := (doe - doe / 1460 + doe / 36524 - doe / 146096) / 365
  let doy := doe - (365 * yoe + yoe / 4 - yoe / 100)
  let mp := (5 * doy + 2) / 153
  let m := if mp < 10 then mp + 3 else mp - 9
  (yoe + 400 * (z / 146097) + (if m ≤ 2 then 1 else 0), m, doy - (153 * mp + 2) / 5 + 1)

/-- Year, month and day of a day number. -/
def dateOf (days : Nat) : Nat × Nat × Nat := dateOfZ (days + 730425)

/-- Weekday of a day number, Monday 0: 2000-01-01 was a Saturday. -/
def weekday (days : Nat) : Nat := (days + 5) % 7

/-- Engine seconds of a calendar (R404). -/
def calSecs (c : Calendar) : Nat := 86400 * daysOf c.year c.month c.day + 3600 * c.hour + 60 * c.min + c.sec

/-- Every field lies in its range and the day exists (R402). -/
def calValid (c : Calendar) : Bool :=
  c.subsec ≤ 1023 && c.sec ≤ 59 && c.min ≤ 59 && c.hour ≤ 23 && 1 ≤ c.month && c.month ≤ 12 && 2000 ≤ c.year && c.year ≤ 2399
    && c.wday ≤ 6 && 1 ≤ c.day && c.day ≤ monthDays c.year c.month

/-- Roll-overs above the seconds, with the overflow of the last year (R399, R400). -/
def rollMinute (c : Calendar) : Calendar × Bool :=
  if c.min < 59 then ({ c with sec := 0, min := c.min + 1 }, false)
  else if c.hour < 23 then ({ c with sec := 0, min := 0, hour := c.hour + 1 }, false)
  else
    let n := { c with sec := 0, min := 0, hour := 0, wday := (c.wday + 1) % 7 }
    if c.day < monthDays c.year c.month then ({ n with day := c.day + 1 }, false)
    else if c.month < 12 then ({ n with day := 1, month := c.month + 1 }, false)
    else if c.year < 2399 then ({ n with day := 1, month := 1, year := c.year + 1 }, false)
    else ({ n with day := 1, month := 1, year := 2000 }, true)

/-- One tick of RTC_SUBSEC: the new counters, whether SEC rolled over, and whether the year overflowed. -/
def calTick (c : Calendar) : Calendar × Bool × Bool :=
  if c.subsec < 1023 then ({ c with subsec := c.subsec + 1 }, false, false)
  else if c.sec < 59 then ({ c with subsec := 0, sec := c.sec + 1 }, true, false)
  else
    let r := rollMinute { c with subsec := 0 }
    (r.1, true, r.2)

end Sys2Proof.Machine
end

