-- ==== Sys2Proof/Machine/Entry.lean ====
section
/-! DEFINITION. The 128-bit form of a journal entry: its body, its mark and its validity (09 R242 to R244; 10 R291; 12 R343). -/

namespace Sys2Proof.Machine

/-- Entries of the array (R242). -/
def jnlSize : Nat := 393216

/-- Lap of a sequence number (R242). -/
def jnlLap (jseq : Nat) : Nat := jseq / jnlSize % 16

/-- A field of w bits from bit lo on. -/
def fld (lo w v : Nat) : Nat := v % 2 ^ w * 2 ^ lo

/-- A signed field. -/
def sfld (lo w : Nat) (v : Int) : Nat := (v % (2 ^ w : Nat)).toNat * 2 ^ lo

/-- A LEDGER entry's TYPE and subtype (Table 09-5). -/
def ledgerBits (sub : Nat) : Nat := 6 + fld 3 5 sub

/-- Bits [114:0] of an entry (Table 09-5, Table 10-11, Table 12-6). -/
def bodyBits : JBody → Nat
  | .time trust secs => 1 + fld 3 1 (b2n trust) + fld 4 40 secs
  | .reading h fcnt qty action age pr delta =>
    2 + fld 3 20 h + fld 23 32 fcnt + fld 55 4 qty + fld 59 3 action + fld 62 15 age + fld 77 1 (b2n pr) + sfld 78 37 delta
  | .contTime secs => 3 + fld 3 1 0 + fld 4 40 secs
  | .contValue v => 3 + fld 3 1 1 + sfld 4 64 v
  | .frame h fcnt malformed pr => 4 + fld 3 20 h + fld 23 32 fcnt + fld 55 1 (b2n malformed) + fld 56 1 (b2n pr)
  | .tamper h fcnt code age pr => 5 + fld 3 20 h + fld 23 32 fcnt + fld 55 8 code + fld 63 15 age + fld 78 1 (b2n pr)
  | .calTransition idx demand close tier activate host catchup at_ cseq ver =>
    ledgerBits 0 + fld 8 8 idx + fld 16 1 (b2n demand) + fld 17 1 (b2n close) + fld 18 1 (b2n tier) + fld 19 1 (b2n activate)
      + fld 20 1 (b2n host) + fld 21 1 (b2n catchup) + fld 22 40 at_ + fld 62 32 cseq + fld 94 21 ver
  | .pwrfail recovered secs frac => ledgerBits 1 + fld 8 1 (b2n recovered) + fld 9 40 secs + fld 49 24 frac
  | .adjust h slot reason amount pseq =>
    ledgerBits 2 + fld 8 20 h + fld 28 2 slot + fld 30 1 reason + fld 31 40 amount + fld 71 32 pseq
  | .timeStep old new restored => ledgerBits 3 + fld 8 40 old + fld 48 40 new + fld 88 1 (b2n restored)
  | .calLoad idx calId ver pending => ledgerBits 4 + fld 8 8 idx + fld 16 32 calId + fld 48 32 ver + fld 80 1 (b2n pending)
  | .pageLost page ver resume => ledgerBits 5 + fld 8 16 page + fld 24 32 ver + fld 56 32 resume
  | .seal openNow whileOff count secs =>
    ledgerBits 6 + fld 8 1 (b2n openNow) + fld 9 1 (b2n whileOff) + fld 10 32 count + fld 42 40 secs
  | .calChange h old new => ledgerBits 7 + fld 8 20 h + fld 28 8 old + fld 36 8 new
  | .withdrawClose h pseq => ledgerBits 8 + fld 8 20 h + fld 28 32 pseq
  | .historyIgnored h pseq => ledgerBits 9 + fld 8 20 h + fld 28 32 pseq
  | .creditIssue h n amount camp => ledgerBits 16 + fld 8 20 h + fld 28 32 n + fld 60 32 amount + fld 92 6 camp
  | .creditApplied h n amount rpt late =>
    ledgerBits 17 + fld 8 20 h + fld 28 32 n + fld 60 32 amount + fld 92 1 (b2n rpt) + fld 93 1 (b2n late)
  | .creditReturn h n amount => ledgerBits 18 + fld 8 20 h + fld 28 32 n + fld 60 32 amount
  | .dlConfirm h dcnt camp kind cmd => ledgerBits 19 + fld 8 20 h + fld 28 32 dcnt + fld 60 6 camp + fld 66 3 kind + fld 69 8 cmd
  | .switchRelease h seq st camp notAfter =>
    ledgerBits 20 + fld 8 20 h + fld 28 32 seq + fld 60 2 st + fld 62 6 camp + fld 68 32 notAfter
  | .switchResult h seq result reported => ledgerBits 21 + fld 8 20 h + fld 28 32 seq + fld 60 2 result + fld 62 2 reported
  | .campState camp kind st => ledgerBits 22 + fld 8 6 camp + fld 14 3 kind + fld 17 3 st
  | .bundle bseq first count mode => 7 + fld 3 32 bseq + fld 35 32 first + fld 67 13 count + fld 80 2 mode

/-- Bits [119:0]: body, LAST, LAP (R243). -/
def markedBits (e : JEntry) : Nat := bodyBits e.body + fld 115 1 (b2n e.last) + fld 116 4 (jnlLap e.jseq)

/-- CRC-8 of bits [119:0], taken as 15 bytes, least significant byte first (R243). -/
def entryCrc (v : Nat) : Nat := (crc8 0xFF (le 15 (v % 2 ^ 120))).toNat

/-- The 128 bits of an entry (R243). -/
def entryWord (e : JEntry) : Nat := markedBits e + fld 120 8 (entryCrc (markedBits e))

/-- An entry read at a sequence number is valid: its CRC checks, its LAP matches, its TYPE is not 0 (R243). -/
def entryValid (jseq w : Nat) : Bool :=
  entryCrc w == w / 2 ^ 120 % 256 && w / 2 ^ 116 % 16 == jnlLap jseq && w % 8 != 0

/-- The groups that replay takes: whole ones, up to the first entry that fails (R250). -/
def takeGroups (ok : JEntry → Bool) : List JEntry → List JEntry → List JEntry
  | _, [] => []
  | g, e :: rest =>
    if !ok e then []
    else if e.last then g ++ e :: takeGroups ok [] rest
    else takeGroups ok (g ++ [e]) rest

end Sys2Proof.Machine
end

