-- ==== Sys2Proof/Machine/Journal.lean ====
section
/-! DEFINITION. The legal journal: its state, group commits, release of entries, and the closing of open bundles (09 R242 to R259). -/

namespace Sys2Proof.Machine

/-- Indices of the repair ledger that lie ahead of the head, outside the entries that stand. -/
def jnlSkips (s : State) : Nat :=
  (s.life.repair.filter (fun e => e.typ == 5 && s.jnv.head - s.jnv.tail ≤ (e.obj.toNat + jnlSize - s.jnv.tail % jnlSize) % jnlSize)).length

/-- Free entries: the skipped indices are none (R249). -/
def jnlFree (s : State) : Nat := jnlSize - (s.jnv.head - s.jnv.tail) - jnlSkips s

/-- Indices that the repair ledger skips (Table 19-4, type 5). -/
def skippedCount (s : State) : Nat := (s.life.repair.filter (fun e => e.typ == 5)).length

/-- The journal's state by R248; more than 8 192 skipped indices fail it too (19 R487). -/
def jnlStateOf (s : State) : JState :=
  if s.jnv.failed || 8192 < skippedCount s then .failed
  else if s.jnl.c1 || s.jnl.pwr then .suspended
  else if jnlFree s < pval s 0x5806 + 200 then .full
  else .normal

/-- Every change of the journal's state raises event 0x59 (R248). -/
def jnlRefresh (s : State) : State :=
  if s.jnl.state = jnlStateOf s then s
  else raise 0x59 { s with jnl.state := jnlStateOf s, jnl.noCustody := s.jnl.noCustody || jnlStateOf s != .normal }

/-- The governing TIME entry is missing for a commit now (R246); a change of trust inside a second needs one too (log 20). -/
def needsTime (s : State) : Bool := s.jnl.lastTime != some (secs s, trusted s)

/-- Entries that a group of n takes with the entries it must be preceded by. -/
def groupNeeds (n : Nat) (s : State) : Nat := n + b2n (needsTime s) + b2n s.jnl.sealOwed.isSome

/-- The journal can write groups at all: replayed, and no activation pause (R250, R463). -/
def jnlRuns (s : State) : Bool := s.jnl.replayed && s.fw.pause.isNone

/-- The next sequence number whose index takes an entry: skipped indices are passed, and indices that fail readback, up to 16 in a row (R249).
(DESIGN CHOICE: log 22) -/
def nextGood (s : State) : Nat → Nat → Nat → Option Nat
  | 0, _, _ => none
  | fuel + 1, run, h =>
    if inRepair s 5 (h % jnlSize) then nextGood s fuel run (h + 1)
    else if s.jnv.bad.contains (h % jnlSize) then if run = 15 then none else nextGood s fuel (run + 1) (h + 1)
    else some h

/-- Where the next entry goes. -/
def nextJseq (s : State) (h : Nat) : Option Nat := nextGood s 8209 0 h

/-- Head after n more entries; none where 16 indices in a row fail. -/
def headAfter (s : State) : Nat → Nat → Option Nat
  | 0, h => some h
  | n + 1, h =>
    match nextJseq s h with
    | some k => headAfter s n (k + 1)
    | none => none

/-- A group of n fits, with the entries that go before it, without running onto an occupied entry (R27). -/
def jnlFits (n : Nat) (s : State) : Bool :=
  match headAfter s (groupNeeds n s) s.jnv.head with
  | some h => h - s.jnv.tail ≤ jnlSize
  | none => false

/-- TIME, BUNDLE and LEDGER groups are refused only in SUSPENDED, in FAILED or when the array is full (R248). -/
def jnlTakes (n : Nat) (s : State) : Bool := jnlRuns s && (s.jnl.state == .normal || s.jnl.state == .full) && jnlFits n s

/-- A frame group commits only in NORMAL (R248). -/
def jnlTakesFrame (n : Nat) (s : State) : Bool := jnlRuns s && s.jnl.state == .normal && jnlFits n s

/-- The repair ledger marks the failed indices among n from a sequence number on; each is skipped on every later lap (R249). -/
def markBad (from_ n : Nat) (s : State) : State :=
  (List.range n).foldl (fun s i =>
    let k := (from_ + i) % jnlSize
    if s.jnv.bad.contains k && !inRepair s 5 k then addRepair 5 1 k s else s) s

/-- Write one entry at the next good index; indices that read back wrong on the way are marked (R249). -/
def jnlPut (e : JEntry) (s : State) : State :=
  match nextJseq s s.jnv.head with
  | some h =>
    let s1 := if s.jnv.bad.isEmpty then s else markBad s.jnv.head (h - s.jnv.head) s
    { s1 with jnv.entries := s1.jnv.entries ++ [{ e with jseq := h }], jnv.head := h + 1 }
  | none => s

/-- Close the open BUNDLED bundle (R255). -/
def closeOpen (s : State) : State :=
  match s.prov.open_ with
  | none => s
  | some b => { s with prov.open_ := none, prov.closed := s.prov.closed ++ [{ b with closeTime := s.now }] }

/-- Close the open PR_OVERFLOW bundle (R255). -/
def closeOpenOvf (s : State) : State :=
  match s.prov.openOvf with
  | none => s
  | some b => { s with prov.openOvf := none, prov.closed := s.prov.closed ++ [{ b with closeTime := s.now }] }

/-- The open statement bundle closes (10 R277). -/
def closeStmt (s : State) : State :=
  match s.ledger.stmtOpen with
  | none => s
  | some b => { s with ledger.stmtOpen := none, prov.closed := s.prov.closed ++ [{ b with closeTime := s.now }] }

/-- A single entry that is a group of its own. -/
def jnlOne (b : JBody) (s : State) : State := jnlPut { jseq := 0, body := b, last := true } s

/-- The TIME entry for the current second: before the first with TRUST 0 the open BUNDLED bundle closes (R246, R259). -/
def jnlTime (s : State) : State :=
  if needsTime s then
    let s1 := if trusted s then s else closeOpen s
    jnlOne (.time (trusted s) (secs s)) { s1 with jnl.lastTime := some (secs s, trusted s) }
  else s

/-- The SEAL entry that is owed goes first (10 R294). -/
def jnlSealOwed (s : State) : State :=
  match s.jnl.sealOwed with
  | none => s
  | some (openNow, whileOff) =>
    jnlOne (.seal openNow whileOff s.bkp.sealCount.toNat (secs s))
      { s with jnl.sealOwed := none, roots.sealCount := s.bkp.sealCount }

/-- Entries of one group in order, LAST on the final one (R245). -/
def jnlEntries : List JEntry → State → State
  | [], s => s
  | [e], s => jnlPut { e with last := true } s
  | e :: rest, s => jnlEntries rest (jnlPut { e with last := false } s)

/-- A group has been committed: custody acks resume with a commit in NORMAL (02 R29). -/
def jnlDone (s : State) : State :=
  let s1 := jnlRefresh s
  if s1.jnl.state = .normal then { s1 with jnl.noCustody := false } else s1

/-- Commit one group: TIME, an owed SEAL entry, then the group (R245, R246). The caller has judged that the journal takes it. -/
def jnlGroup (es : List JEntry) (s : State) : State := jnlDone (jnlEntries es (jnlSealOwed (jnlTime s)))

def ledgerEntry (b : JBody) : JEntry := { jseq := 0, body := b, last := true }

/-- An entry whose effect lies in the ledger image of a handle (R27). -/
def handleEntry (h : Nat) (b : JBody) : JEntry := { jseq := 0, body := b, last := true, needPages := [(h / 16, 0)] }

/-- An entry with nothing left to wait for (R27, R247). -/
def entryFree (e : JEntry) : Bool := !e.needBundle && e.needPages.isEmpty

def isTime (e : JEntry) : Bool := match e.body with
  | .time _ _ => true
  | _ => false

/-- The entries still occupied: a TIME entry goes when every entry it governs has gone (R247). -/
def stillOccupied : List JEntry → List JEntry
  | [] => []
  | e :: rest =>
    if isTime e then
      if (rest.takeWhile (fun x => !isTime x)).all entryFree then stillOccupied rest else e :: rest
    else if entryFree e then stillOccupied rest else e :: rest

/-- The tail advances over released entries; when no TIME entry is left, the next group is preceded by one (R247; log 20). -/
def jnlRelease (s : State) : State :=
  let es := stillOccupied s.jnv.entries
  let tail := match es with
    | e :: _ => e.jseq
    | [] => s.jnv.head
  jnlRefresh { s with jnv.entries := es, jnv.tail := tail, jnl.lastTime := if es.isEmpty then none else s.jnl.lastTime }

/-- Sixteen indices in a row have failed where a group of n would go: they are marked, the journal enters FAILED, and a record is written
(R249). -/
def jnlFail (n : Nat) (s : State) : State :=
  if (headAfter s (groupNeeds n s) s.jnv.head).isSome then s
  else
    let s1 := { markBad s.jnv.head (groupNeeds n s + 16 + skippedCount s) s with jnv.failed := true }
    jnlRefresh (record 0x0B8 (le 4 s1.jnv.head) s1)

/-- Commits suspended or resumed for C1 (R28). (DEDUCED: log 102) -/
def jnlC1 (on : Bool) (s : State) : State := jnlRefresh { s with jnl.c1 := on }

/-- Commits suspended or resumed for PWRFAIL_N (R280). -/
def jnlPwr (on : Bool) (s : State) : State := jnlRefresh { s with jnl.pwr := on }

/-! ### SEAL (10 R294) -/

/-- SEAL has changed, or had changed while the engine was off: entry, event and LEGAL record (R294). -/
def sealChanged (whileOff : Bool) (s : State) : State :=
  let can := jnlTakes 1 { s with jnl.sealOwed := none }
  let s1 := { s with jnl.sealOwed := some (s.bkp.sealOpen, whileOff) }
  let s2 := if can then jnlDone (jnlSealOwed (jnlTime s1)) else s1
  record rcSeal (le 4 (b2n s.bkp.sealOpen) ++ le 4 s.bkp.sealCount.toNat ++ le 4 (secs s) ++ le 4 (b2n (!can)))
    (raise 0x55 s2)

end Sys2Proof.Machine
end

