-- ==== Sys2Proof/Machine/Crypto.lean ====
section
/-! DEFINITION. Keys derived by the KDF of R348, the Merkle root of R254, and what they act on. -/

namespace Sys2Proof.Machine

/-- n as k bytes, most significant first. -/
def be (k n : Nat) : List Byte := (le k n).reverse

/-- The KDF of R348: one PRF call, the first l bits of its output. -/
def kdf108 (key label context : List Byte) (l : Nat) : List Byte :=
  (Config.hmac key (be 4 1 ++ label ++ [0] ++ context ++ be 4 l)).take (l / 8)

def str (t : String) : List Byte := t.toList.map (fun c => BitVec.ofNat 8 c.toNat)

/-- The domain keys that the part derives (Table 13-1). -/
inductive Domain where
  | transport | ledger | attest | customer
  deriving DecidableEq, Repr

def domainLabel : Domain → List Byte
  | .transport => str "QUARTZ TRANSPORT" | .ledger => str "QUARTZ LEDGER"
  | .attest => str "QUARTZ ATTEST" | .customer => str "QUARTZ CUSTOMER"

/-- A domain key, while it is derived (R348, R349). -/
def domainKey (d : Domain) (s : State) : Option (List Byte) :=
  s.boot.domainKeys.map (fun ctx => kdf108 Config.dus (domainLabel d) (if d = .customer then ctx else []) 256)

/-- One level of the Merkle tree: a last node without a partner moves up unchanged (R254). -/
def merkleUp : List (List Byte) → List (List Byte)
  | a :: b :: rest => Config.sha256 (1 :: a ++ b) :: merkleUp rest
  | xs => xs

def merkleAt : Nat → List (List Byte) → List Byte
  | 0, xs => xs.headD []
  | n + 1, xs =>
    match xs with
    | [x] => x
    | _ => merkleAt n (merkleUp xs)

/-- The Merkle root of leaves already hashed (R254). -/
def merkleRoot (leaves : List (List Byte)) : List Byte := merkleAt 20 leaves

end Sys2Proof.Machine
end

