-- ==== Sys2Proof/Machine/Image.lean ====
section
/-! DEFINITION. The ledger image: its bytes, the frame-counter window and the tamper tallies (07 R191, R198, R202; 10 R264). -/

namespace Sys2Proof.Machine

/-- The image of R264: what an endpoint starts with. -/
def freshImage (pstart cal : Nat) : Image := { pseq := 1, pstart := pstart, cal := cal }

def mdBytes (m : MdReg) : List Byte := le 4 m.value ++ le 2 m.idx

/-- Bytes of TAMPER (Table 07-7). -/
def tallyBytes (t : Tally) : List Byte :=
  le 2 t.mic ++ le 2 t.stale ++ le 2 t.jump ++ le 2 t.reported ++ le 2 t.suspended ++ le 2 t.medium ++ le 4 t.last

def slotBytes (c : CumSlot) : List Byte := leI 8 c.value ++ le 4 c.time

/-- Context bytes 256 to 495 (Tables 07-5, 10-1). -/
def imageBytes (i : Image) : List Byte :=
  le 4 i.fcntTop ++ le 8 i.win.toNat ++ tallyBytes i.tally
    ++ ((List.range 4).map (fun k => slotBytes (tget i.slots k {}))).flatten
    ++ le 4 i.pseq ++ le 4 i.pstart
    ++ ((List.range 16).map (fun k => le 5 (tget i.tou k 0))).flatten
    ++ ((List.range 4).map (fun k => le 5 (tget i.total k 0).toNat)).flatten
    ++ ((List.range 4).map (fun k => le 4 (tget i.adj k 0))).flatten
    ++ ((List.range 4).map (fun k => mdBytes (tget i.md k {}))).flatten
    ++ le 4 i.dacc ++ le 2 i.didx ++ le 4 i.crSum.toNat ++ le 4 i.crLast ++ le 1 i.cal ++ le 1 i.lflags.toNat

/-- A table of n entries read from the bytes. -/
def readTbl {α : Type} (n : Nat) (f : Nat → α) : Tbl α := (List.range n).map (fun k => (k, f k))

/-- The image that 240 bytes hold. -/
def imageOf (p : List Byte) : Image :=
  { fcntTop := rd p 0 4, win := BitVec.ofNat 64 (rd p 4 8),
    tally := { mic := rd p 12 2, stale := rd p 14 2, jump := rd p 16 2, reported := rd p 18 2, suspended := rd p 20 2,
               medium := rd p 22 2, last := rd p 24 4 },
    slots := readTbl 4 (fun k => { value := rdI p (28 + 12 * k) 8, time := rd p (36 + 12 * k) 4 }),
    pseq := rd p 76 4, pstart := rd p 80 4,
    tou := readTbl 16 (fun k => rd p (84 + 5 * k) 5),
    total := readTbl 4 (fun k => BitVec.ofNat 40 (rd p (164 + 5 * k) 5)),
    adj := readTbl 4 (fun k => rd p (184 + 4 * k) 4),
    md := readTbl 4 (fun k => { value := rd p (200 + 6 * k) 4, idx := rd p (204 + 6 * k) 2 }),
    dacc := rd p 224 4, didx := rd p 228 2, crSum := BitVec.ofNat 32 (rd p 230 4), crLast := rd p 234 4,
    cal := rd p 238 1, lflags := BitVec.ofNat 8 (rd p 239 1) }

/-! ### Endpoints and their images -/

def ep? (s : State) (h : Nat) : Option Endpoint := tfind s.eps h

/-- Note something about an enrolled endpoint that its context does not hold. -/
def noteEp (h : Nat) (f : Endpoint → Endpoint) (s : State) : State :=
  match tfind s.eps h with
  | none => s
  | some e => { s with eps := tset s.eps h (f e) }

/-- Change an enrolled endpoint, and with it its cached context (08 R217). -/
def updEp (h : Nat) (f : Endpoint → Endpoint) (s : State) : State := dirtyCtx h (noteEp h f s)

/-- Mark the page of a handle dirty (10 R285). -/
def dirtyPage (p : Nat) (s : State) : State :=
  { s with ledger.pages := tupd s.ledger.pages p {} (fun x => { x with dirty := true }) }

/-- Change an endpoint's ledger image: its page is dirty from then on (10 R285), and so is its cached context (08 R217). -/
def updImg (h : Nat) (f : Image → Image) (s : State) : State :=
  match tfind s.eps h with
  | none => s
  | some e =>
    dirtyPage (h / 16) (dirtyCtx h { s with eps := tset s.eps h { e with img := f e.img } })

/-- Set the admission state: in the slot of the admission table or stash and, mirrored, in the context (07 R181). -/
def setAdm (h : Nat) (a : Adm) (s : State) : State :=
  let s1 := updEp h (fun e => { e with adm := a }) s
  { s1 with dir.table := tmap s1.dir.table (fun _ x => if x.handle = h then { x with state := a } else x),
            dir.stash := tmap s1.dir.stash (fun _ x => if x.handle = h then { x with state := a } else x) }

/-! ### The window (R198) -/

/-- What deduplication finds. -/
inductive Dedup where
  | accept (jump : Bool) | duplicate | stale
  deriving DecidableEq, Repr

/-- The test of R198 on a frame counter. -/
def dedup (i : Image) (f jumpLimit : Nat) : Dedup :=
  if i.win = 0 then .accept false
  else if i.fcntTop < f then .accept (decide (jumpLimit < f - i.fcntTop))
  else if i.fcntTop - f ≤ 63 then (if i.win.getLsbD (i.fcntTop - f) then .duplicate else .accept false)
  else .stale

/-- The window after the commit of a frame with counter f (R198). -/
def takeFcnt (f : Nat) (i : Image) : Image :=
  if i.win = 0 then { i with win := 1, fcntTop := f }
  else if i.fcntTop < f then { i with win := (i.win <<< (f - i.fcntTop)) ||| 1, fcntTop := f }
  else { i with win := i.win ||| (1#64 <<< (i.fcntTop - f)) }

/-! ### Tamper tallies (R202, R203) -/

/-- The six counters, in the order of Table 07-7. -/
inductive TallyKind where
  | mic | stale | jump | reported | suspended | medium
  deriving DecidableEq, Repr

def tallyGet (k : TallyKind) (t : Tally) : Nat :=
  match k with
  | .mic => t.mic | .stale => t.stale | .jump => t.jump | .reported => t.reported | .suspended => t.suspended
  | .medium => t.medium

def tallyPut (k : TallyKind) (v : Nat) (t : Tally) : Tally :=
  match k with
  | .mic => { t with mic := v } | .stale => { t with stale := v } | .jump => { t with jump := v }
  | .reported => { t with reported := v } | .suspended => { t with suspended := v } | .medium => { t with medium := v }

def tallyIndex : TallyKind → Nat
  | .mic => 0 | .stale => 1 | .jump => 2 | .reported => 3 | .suspended => 4 | .medium => 5

/-- A tally counts one, with its time, unless it is saturated; a multiple of DIR_TAMPER_EVT raises event 0x42 and writes a record (R202, R203).
(DEDUCED: log 88) -/
def tallyInc (h : Nat) (k : TallyKind) (s : State) : State :=
  match tfind s.eps h with
  | none => s
  | some e =>
    let v := satAdd 65535 (tallyGet k e.img.tally) 1
    if v = tallyGet k e.img.tally then s
    else
      let s1 := updImg h (fun i => { i with tally := { tallyPut k v i.tally with last := secs s } }) s
      let step := pval s 0x4001
      if step != 0 && v % step == 0 then raise 0x42 (record rcTally (le 4 h ++ le 4 (tallyIndex k) ++ le 2 v) s1)
      else s1

end Sys2Proof.Machine
end

