-- ==== Sys2Proof/Machine/Tariff.lean ====
section
/-! DEFINITION. Tariff calendars, the tier at an instant, the demand grid, rolls of a billing period and the booking of a delta
(10 R266 to R275). -/

namespace Sys2Proof.Machine

/-! ### Reading a calendar (R266, R267) -/

/-- The size that a calendar's header implies (R266). -/
def calSize (p : List Byte) : Nat := 448 + 64 * rd p 34 1 + 12 * rd p 35 1 + 8 * rd p 36 2 + 8 * rd p 38 1

def diMinutes : List Nat := [5, 10, 15, 30, 60]

/-- The switch entries of a day profile at an offset: none when one is out of range or out of order (R266). -/
def readProfile (p : List Byte) (off : Nat) : Option (List (Nat × Nat)) :=
  let es := (List.range 16).map (fun k => (rd p (off + 4 * k) 2, rd p (off + 4 * k + 2) 1, rd p (off + 4 * k + 3) 1))
  let used := es.takeWhile (fun e => e.1 != 0xFFFF)
  let rest := es.drop used.length
  let ascending := (used.zip (used.drop 1)).all (fun (a, b) => a.1 < b.1)
  if es.all (fun e => e.2.1 ≤ 3 && e.2.2 == 0) && used.all (fun e => e.1 ≤ 1439) && rest.all (fun e => e.1 == 0xFFFF)
      && ascending && (used.head?.map (·.1)) == some 0
  then some (used.map (fun e => (e.1, e.2.1))) else none

/-- All of a list, when each is there. -/
def allSome {α : Type} : List (Option α) → Option (List α)
  | [] => some []
  | none :: _ => none
  | some x :: rest => (allSome rest).map (x :: ·)

def readSeason (p : List Byte) (off : Nat) : Season :=
  { month := rd p off 1, day := rd p (off + 1) 1, profs := (List.range 7).map (fun k => rd p (off + 2 + k) 1) }

def readSpecial (p : List Byte) (off : Nat) : Special :=
  { year := rd p off 2, month := rd p (off + 2) 1, day := rd p (off + 3) 1, prof := rd p (off + 4) 1 }

def seasonBefore (a b : Season) : Bool := a.month < b.month || (a.month == b.month && a.day < b.day)

def distinct {α : Type} [BEq α] : List α → Bool
  | [] => true
  | x :: rest => !rest.contains x && distinct rest

/-- A calendar's fields in range and in order (R267); the signature is checked apart. -/
def readCal (p : List Byte) : Option CalVer :=
  let np := rd p 34 1
  let ns := rd p 35 1
  let nx := rd p 36 2
  let no := rd p 38 1
  let o1 := 64 + 64 * np
  let o2 := o1 + 12 * ns
  let o3 := o2 + 8 * nx
  let di := diMinutes.getD (rd p 18 1) 0
  let seasons := (List.range ns).map (fun k => readSeason p (o1 + 12 * k))
  let specials := (List.range nx).map (fun k => readSpecial p (o2 + 8 * k))
  let offsets := (List.range no).map (fun k => (rd p (o3 + 8 * k) 4, rdI p (o3 + 8 * k + 4) 2))
  let header := rd p 0 2 == 1 && zeroAt p 3 1 && rd p 4 4 != 0 && rd p 8 4 != 0 && rd p 18 1 ≤ 4
    && (rd p 19 1 ≤ 3 || rd p 19 1 == 0xFF) && rd p 22 2 < di && rd p 24 1 ≤ 2 && 1 ≤ rd p 25 1 && rd p 25 1 ≤ 28
    && rd p 26 2 ≤ 1439 && 1 ≤ rd p 32 2 && rd p 32 2 ≤ 366 && 1 ≤ np && np ≤ 64 && 1 ≤ ns && ns ≤ 16 && nx ≤ 1024
    && 1 ≤ no && no ≤ 64 && zeroAt p 39 25
  let seasonsOk := seasons.all (fun x => 1 ≤ x.month && x.month ≤ 12 && 1 ≤ x.day && x.day ≤ monthDays 2000 x.month
      && x.profs.all (· < np))
    && (List.range ns).all (fun k => zeroAt p (o1 + 12 * k + 9) 3)
    && (seasons.zip (seasons.drop 1)).all (fun (a, b) => seasonBefore a b)
  let specialsOk := specials.all (fun x => (x.year == 0 || (2000 ≤ x.year && x.year ≤ 2399)) && 1 ≤ x.month && x.month ≤ 12
      && 1 ≤ x.day && x.day ≤ 31 && x.prof < np)
    && (List.range nx).all (fun k => zeroAt p (o2 + 8 * k + 5) 3)
    && distinct (specials.map (fun x => (x.year, x.month, x.day)))
  let offsetsOk := offsets.all (fun o => -840 ≤ o.2 && o.2 ≤ 840 && o.2 % 15 == 0)
    && (List.range no).all (fun k => zeroAt p (o3 + 8 * k + 6) 2)
    && (offsets.zip (offsets.drop 1)).all (fun (a, b) => a.1 < b.1) && (offsets.head?.map (·.1)) == some 0
  match allSome ((List.range np).map (fun k => readProfile p (64 + 64 * k))) with
  | none => none
  | some profs =>
    if header && seasonsOk && specialsOk && offsetsOk then
      some { raw := p, index := rd p 2 1, calId := rd p 4 4, version := rd p 8 4, activateAt := rd p 12 4, diMin := di,
             demandSlot := rd p 19 1, mdTiers := rd p 20 2, phaseMin := rd p 22 2, billRule := rd p 24 1,
             billDay := rd p 25 1, billMin := rd p 26 2, billAnchor := rd p 28 4, billEvery := rd p 32 2, profs := profs,
             seasons := seasons, specials := specials, offsets := offsets }
    else none

/-! ### Local time and the tier (R269) -/

/-- The UTC offset in force at t, minutes. -/
def offsetAt (os : List (Nat × Int)) (t : Nat) : Int :=
  (os.foldl (fun (acc : Int) o => if o.1 ≤ t then o.2 else acc) 0)

/-- Local seconds from 2000-01-01 at engine second t. -/
def localOf (v : CalVer) (t : Nat) : Int := t + 60 * offsetAt v.offsets t

/-- Day number of a local second; negative before 2000. -/
def localDay (l : Int) : Int := l / 86400

def dateOfDay (d : Int) : Nat × Nat × Nat := dateOfZ (d + 730425).toNat

/-- The day profile of a local day (R269, steps 2 and 3). -/
def dayProfile (v : CalVer) (d : Int) : List (Nat × Nat) :=
  let (y, m, dd) := dateOfDay d
  let wd := ((d + 5) % 7).toNat
  let special := fun (yy : Nat) => v.specials.find? (fun x => x.year == yy && x.month == m && x.day == dd)
  let season := match (v.seasons.filter (fun x => x.month < m || (x.month == m && x.day ≤ dd))).getLast? with
    | some x => some x
    | none => v.seasons.getLast?
  let prof := match special y, special 0 with
    | some x, _ => x.prof
    | none, some x => x.prof
    | none, none => (season.map (fun x => x.profs.getD wd 0)).getD 0
  v.profs.getD prof []

/-- The tier at engine second t under a version (R269). -/
def tierAt (v : CalVer) (t : Nat) : Nat :=
  let l := localOf v t
  let minute := ((l % 86400) / 60).toNat
  (dayProfile v (localDay l)).foldl (fun acc e => if e.1 ≤ minute then e.2 else acc) 0

/-- The first instant at which local time reaches l: a skipped local time maps to the end of the gap, a repeated one to its first
occurrence (R269). -/
def engineOf : List (Nat × Int) → Int → Nat
  | [], l => l.toNat
  | [(f, o)], l => max f (l - 60 * o).toNat
  | (f, o) :: (f2, o2) :: rest, l =>
    let t := max f (l - 60 * o).toNat
    if t < f2 then t else engineOf ((f2, o2) :: rest) l

/-! ### Versions in force -/

/-- The versions held that have been activated, by their activation instants; where none has been, the one that waits for its activation
(R269: the oldest held version applies when none qualifies). -/
def heldVers (ci : CalIdx) : List CalVer :=
  let vs := sortBy (fun a b => a.activated < b.activated) ((ci.retired.map (·.1)).reverse ++ ci.active.toList)
  if vs.isEmpty then (ci.due.toList ++ ci.pending.toList).take 1 else vs

def calIdx (s : State) (k : Nat) : CalIdx := tget s.ledger.cals k {}

def versOf (s : State) (k : Nat) : List CalVer := heldVers (calIdx s k)

/-- An index is held while it holds some version (R268). -/
def idxHeld (s : State) (k : Nat) : Bool :=
  let ci := calIdx s k
  ci.active.isSome || ci.pending.isSome || ci.due.isSome || !ci.retired.isEmpty

/-- The version in force at t: the latest activated, else the oldest (R269). -/
def inForce : List CalVer → Nat → CalVer
  | [], _ => {}
  | [v], _ => v
  | v :: w :: rest, t => if w.activated ≤ t then inForce (w :: rest) t else v

def tierOf (vs : List CalVer) (t : Nat) : Nat := tierAt (inForce vs t) t

/-- The spans (a, b] of time with the version that governs the instants in each: an instant at which a version activates still belongs to
the version before (R279). -/
def spans : List CalVer → Nat → Nat → List (CalVer × Nat × Nat)
  | [], _, _ => []
  | [v], a, b => if a < b then [(v, a, b)] else []
  | v :: w :: rest, a, b =>
    let m := min b w.activated
    (if a < m then [(v, a, m)] else []) ++ spans (w :: rest) (max a m) b

/-! ### The demand grid (R273) -/

def diSecs (v : CalVer) : Nat := 60 * v.diMin

/-- Number of the grid interval that t lies in, counted from the grid's own origin. -/
def gridNo (v : CalVer) (t : Nat) : Int := ((t : Int) - 60 * v.phaseMin) / diSecs v

def onGrid (v : CalVer) (t : Nat) : Bool := ((t : Int) - 60 * v.phaseMin) % diSecs v == 0

/-- Boundaries in (a, b] under one version. -/
def gridCount (v : CalVer) (a b : Nat) : Nat := (gridNo v b - gridNo v a).toNat

/-- The interval index of instant t in a period that began at p. -/
def gridIndex (vs : List CalVer) (p t : Nat) : Nat := ((spans vs p t).map (fun x => gridCount x.1 x.2.1 x.2.2)).sum

/-- Start of interval i: the i-th boundary after the period's start. -/
def gridStart : List (CalVer × Nat × Nat) → Nat → Nat → Nat
  | [], p, _ => p
  | (v, a, b) :: rest, p, i =>
    if i = 0 then p
    else
      let n := gridCount v a b
      if i ≤ n then (60 * v.phaseMin + (diSecs v : Int) * (gridNo v a + i)).toNat else gridStart rest p (i - n)

/-- Grid boundaries in (a, b) under versions that bill demand from slot sl. -/
def gridCuts (vs : List CalVer) (sl a b : Nat) : List Nat :=
  ((spans vs a b).map (fun (v, lo, hi) =>
    if v.demandSlot = sl then
      (List.range (gridCount v lo hi)).map (fun (k : Nat) => (60 * v.phaseMin + (diSecs v : Int) * (gridNo v lo + k + 1)).toNat)
    else [])).flatten.filter (fun t => a < t && t < b)

/-! ### Tier changes -/

def insertU (x : Nat) : List Nat → List Nat
  | [] => [x]
  | y :: ys => if x < y then x :: y :: ys else if x = y then y :: ys else y :: insertU x ys

/-- Rising, without repeats. -/
def sortU (xs : List Nat) : List Nat := xs.foldl (fun acc x => insertU x acc) []

/-- The local days that may hold a change in [a, b]. -/
def localDays (v : CalVer) (a b : Nat) : List Int :=
  let d0 := localDay (localOf v a) - 2
  let d1 := localDay (localOf v b) + 2
  (List.range (d1 - d0 + 1).toNat).map (fun (k : Nat) => d0 + k)

/-- Instants in [a, b] at which the tier may change under one version: each switch of each day under each offset, and each change of
offset. -/
def tierCands (v : CalVer) (a b : Nat) : List Nat :=
  let switches := ((localDays v a b).map (fun d => (dayProfile v d).map (fun e => 86400 * d + 60 * (e.1 : Int)))).flatten
  let ts := (switches.map (fun l => v.offsets.map (fun o => (l - 60 * o.2).toNat))).flatten ++ v.offsets.map (·.1)
  ts.filter (fun t => a ≤ t && t ≤ b)

/-- Instants in (a, b) at which the tier changes, activations included (R271). -/
def tierCuts (vs : List CalVer) (a b : Nat) : List Nat :=
  let cands := ((spans vs a b).map (fun (v, lo, hi) => tierCands v lo hi)).flatten ++ vs.map (·.activated)
  (sortU cands).filter (fun t => a < t && t < b && tierOf vs t != tierOf vs (t - 1))

/-! ### Close instants (R274) -/

/-- Close instants of a version's own rule in (a, b]. -/
def ruleCloses (v : CalVer) (a b : Nat) : List Nat :=
  if v.billRule = 0 then
    let (y0, m0, _) := dateOfDay (localDay (localOf v a) - 1)
    let (y1, m1, _) := dateOfDay (localDay (localOf v b) + 1)
    let k0 := 12 * y0 + (m0 - 1)
    let k1 := 12 * y1 + (m1 - 1)
    let ts := (List.range (k1 + 1 - k0)).map (fun i =>
      let k := k0 + i
      engineOf v.offsets (86400 * (daysOf (k / 12) (k % 12 + 1) v.billDay : Int) + 60 * (v.billMin : Int)))
    sortU (ts.filter (fun t => a < t && t ≤ b))
  else if v.billRule = 1 then
    let step := 86400 * v.billEvery
    let n0 := if a < v.billAnchor then 0 else (a - v.billAnchor) / step + 1
    let n1 := if b < v.billAnchor then 0 else (b - v.billAnchor) / step + 1
    (List.range (n1 - n0)).map (fun i => v.billAnchor + (n0 + i) * step)
  else []

/-- Close instants in (a, b] under the versions held. -/
def closesIn (vs : List CalVer) (a b : Nat) : List Nat :=
  ((spans vs a b).map (fun (v, lo, hi) => ruleCloses v lo hi)).flatten

/-! ### Rolls (R273, R275) -/

/-- Reasons of Table 10-6. -/
def reasonCalChange : Nat := 3
def reasonOverflow : Nat := 4
def reasonLength : Nat := 5
def reasonWithdrawn : Nat := 6
def reasonLost : Nat := 7
def reasonCatchup : Nat := 8

/-- The calendar records of an index. -/
def calRoot (s : State) (k : Nat) : CalRoot := tget s.roots.cals k {}

/-- Close the open demand interval of an image (R273). -/
def closeDemand (vs : List CalVer) (i : Image) : Image :=
  if i.didx = 0xFFFF then i
  else
    let start := gridStart (spans vs i.pstart (2 ^ 32)) i.pstart i.didx
    let v := inForce vs start
    let d := i.dacc * 3600 / (diSecs v * 1000)
    let tier := tierAt v start
    let md := (List.range 4).foldl (fun (t : Tbl MdReg) m =>
      if bit v.mdTiers (4 * m + tier) && (tget t m {}).value < d then tset t m { value := d % 2 ^ 32, idx := i.didx } else t) i.md
    { i with md := md, dacc := 0, didx := 0xFFFF }

/-- The image after the closing of a period at instant c (R275, steps 3 and 4). -/
def nextPeriod (c : Nat) (flags : BitVec 8) (i : Image) : Image :=
  { i with pseq := i.pseq + 1, pstart := c, tou := [], adj := [], md := [], lflags := flags }

/-- A statement joins the open statement bundle, which closes at STMT_BUNDLE_MAX (R277). -/
def addStmt (x : Stmt) (s : State) : State :=
  let b := match s.ledger.stmtOpen with
    | some b => { b with stmts := b.stmts ++ [x] }
    | none => { mode := 0, stmts := [x], openTime := s.now }
  let s1 := { s with ledger.stmtOpen := some b,
                     ledger.unconfStmts := s.ledger.unconfStmts ++ [(x.handle / 16, x.handle, x.pseq)] }
  if pval s 0x5003 ≤ b.stmts.length then closeStmt s1 else s1

/-- A period closes at instant c with a reason: the demand interval, the statement, the next period (R275). version and cseq are those of
the close instant. -/
def rollAt (h reason c version cseq : Nat) (flags : BitVec 8) (s : State) : State :=
  match tfind s.eps h with
  | none => s
  | some e =>
    let i := closeDemand (versOf s e.img.cal) e.img
    let x : Stmt := { addr := e.addr, handle := h, reason := reason, pseq := i.pseq, pstart := i.pstart, close := c,
                      cal := i.cal, version := version, cseq := cseq, img := i }
    updImg h (fun _ => nextPeriod c flags i) (addStmt x s)

/-- The version in force at t under an index, 0 with no calendar, and the index's close count (Table 10-6). -/
def versionAt (s : State) (k t : Nat) : Nat := if (versOf s k).isEmpty then 0 else (inForce (versOf s k) t).version

/-- A close at instant c by a rule that names an instant of its own. -/
def closeNow (h reason c : Nat) (flags : BitVec 8) (s : State) : State :=
  match tfind s.eps h with
  | none => s
  | some e => rollAt h reason c (versionAt s e.img.cal c) (calRoot s e.img.cal).cseq flags s

/-- Roll for the instants of the ring, given oldest first. -/
def rollEach (h : Nat) : List PerRec → State → State
  | [], s => s
  | r :: rest, s => rollEach h rest (rollAt h r.reason r.instant r.version r.cseq 0 s)

/-- Evaluate an endpoint (R275): every close instant of its calendar with PSTART < c ≤ t, in order. -/
def evalEp (h t : Nat) (s : State) : State :=
  match tfind s.eps h with
  | none => s
  | some e =>
    let ring := (calRoot s e.img.cal).ring.reverse
    let due := ring.filter (fun r => e.img.pstart < r.instant && r.instant ≤ t)
    if e.img.cal = 0xFF then s
    else
      match ring, due with
      | oldest :: _, first :: rest =>
        if e.img.pstart < oldest.instant then
          rollEach h rest (rollAt h reasonCatchup first.instant first.version first.cseq 0x80 s)
        else rollEach h due s
      | _, _ => s

/-! ### Booking (R271, R272) -/

def setFlag (k : Nat) (i : Image) : Image := { i with lflags := i.lflags ||| (1#8 <<< k) }

/-- Every amount billed also enters TOTAL (R265). -/
def addTotal (sl n : Nat) (i : Image) : Image :=
  { i with total := tupd i.total sl 0 (fun v => v + BitVec.ofNat 40 n) }

def addTou (reg n : Nat) (i : Image) : Image := { i with tou := tupd i.tou reg 0 (· + n) }
def addAdj (sl n : Nat) (i : Image) : Image := { i with adj := tupd i.adj sl 0 (· + n) }

/-- Add to TOU register 4 x slot + tier, closing the period before an addition that would not fit (R272). -/
def billTou (h sl reg at_ : Nat) : Nat → Nat → State → State
  | 0, _, s => s
  | fuel + 1, n, s =>
    match tfind s.eps h with
    | none => s
    | some e =>
      let add := fun k s => updImg h (fun i => addTotal sl k (addTou reg k i)) s
      if tget e.img.tou reg 0 + n < 2 ^ 40 then add n s
      else
        let part := min n (2 ^ 40 - 1)
        let s1 := add part (closeNow h reasonOverflow at_ 0 s)
        if n - part = 0 then s1 else billTou h sl reg at_ fuel (n - part) s1

/-- Add to ADJ of a slot, closing the period before an addition that would not fit (R272). -/
def billAdj (h sl at_ : Nat) : Nat → Nat → State → State
  | 0, _, s => s
  | fuel + 1, n, s =>
    match tfind s.eps h with
    | none => s
    | some e =>
      let add := fun k s => updImg h (fun i => addTotal sl k (addAdj sl k i)) s
      if tget e.img.adj sl 0 + n < 2 ^ 32 then add n s
      else
        let part := min n (2 ^ 32 - 1)
        let s1 := add part (closeNow h reasonOverflow at_ 0 s)
        if n - part = 0 then s1 else billAdj h sl at_ fuel (n - part) s1

def billTouAll (h sl reg at_ n : Nat) (s : State) : State := billTou h sl reg at_ (n / (2 ^ 40 - 1) + 2) n s
def billAdjAll (h sl at_ n : Nat) (s : State) : State := billAdj h sl at_ (n / (2 ^ 32 - 1) + 2) n s

/-- Segments between rising cut points. -/
def segments : Nat → List Nat → Nat → List (Nat × Nat)
  | a, [], b => [(a, b)]
  | a, c :: rest, b => (a, c) :: segments c rest b

/-- The portion of each segment: floor(delta x l / span), the remainder in the last (R271). -/
def portions (delta span : Nat) : List (Nat × Nat) → Nat → List (Nat × Nat)
  | [], _ => []
  | [(a, _)], used => [(a, delta - used)]
  | (a, b) :: rest, used =>
    let n := if span = 0 then 0 else delta * (b - a) / span
    (a, n) :: portions delta span rest (used + n)

/-- A portion enters the demand interval of its segment's start (R273). -/
def addDemand (h st n : Nat) (s : State) : State :=
  match tfind s.eps h with
  | none => s
  | some e =>
    let vs := versOf s e.tariffCal
    let k := gridIndex vs e.img.pstart st
    let s1 := if 0xFFFF ≤ k then closeNow h reasonLength st 0 s else s
    updImg h (fun i =>
      let k := gridIndex vs i.pstart st
      let i1 := if i.didx != 0xFFFF && i.didx < k then closeDemand vs i else i
      let i2 := { i1 with didx := if i1.didx = 0xFFFF then k else i1.didx, dacc := min (2 ^ 32 - 1) (i1.dacc + n) }
      if 2 ^ 32 - 1 < i1.dacc + n then setFlag 4 i2 else i2) s1

/-- Book one portion of the normal case, with the ADJUST entries made so far (Table 10-5). -/
def bookPortion (h : Nat) (b : Booking) (pstart0 : Nat) (acc : State × List JBody) (seg : Nat × Nat) : State × List JBody :=
  let (s, adj) := acc
  match tfind s.eps h with
  | none => acc
  | some e =>
    let (st, n) := seg
    if st < pstart0 then
      let s1 := billAdjAll h b.slot b.at_ n s
      match b.frameEnd with
      | none => (s1, adj)
      | some fe =>
        let back := decide (fe < pstart0)
        let pseq := ((tfind s1.eps h).map (fun e => e.img.pseq)).getD 0
        (updImg h (setFlag (if back then 2 else 1)) s1, adj ++ [.adjust h b.slot (b2n back) n pseq])
    else if e.tariffCal = 0xFFFF then (updImg h (setFlag 5) (billTouAll h b.slot (4 * b.slot) b.at_ n s), adj)
    else
      let vs := versOf s e.tariffCal
      let s1 := billTouAll h b.slot (4 * b.slot + tierOf vs st) b.at_ n s
      if (inForce vs st).demandSlot = b.slot && b.to_ - b.from_ ≤ 86400 then (addDemand h st n s1, adj) else (s1, adj)

/-- Book a delta (R271): the endpoint is evaluated first, and a span over 24 h marks its period (R273, Table 10-2); the ADJUST entries come with
the new state. -/
def book (h : Nat) (b : Booking) (s : State) : State × List JBody :=
  let s1 := evalEp h b.at_ s
  let s0 := if 86400 < b.to_ - b.from_ then updImg h (setFlag 3) s1 else s1
  match tfind s0.eps h with
  | none => (s0, [])
  | some e =>
    if b.untrusted then (updImg h (setFlag 0) (billAdjAll h b.slot b.at_ b.delta s0), [])
    else if b.hold then (billAdjAll h b.slot b.at_ b.delta s0, [])
    else
      let vs := if e.tariffCal = 0xFFFF then [] else versOf s0 e.tariffCal
      let p := e.img.pstart
      let cuts := sortU ((if b.from_ < p && p < b.to_ then [p] else []) ++ tierCuts vs b.from_ b.to_
        ++ gridCuts vs b.slot b.from_ b.to_)
      let segs := if b.from_ = b.to_ then [(b.to_, b.to_)] else segments b.from_ cuts b.to_
      (portions b.delta (b.to_ - b.from_) segs 0).foldl (bookPortion h b p) (s0, [])

end Sys2Proof.Machine
end

