-- ==== Sys2Proof/Machine/Ledger.lean ====
section
/-! DEFINITION. The ledger: calendars and their transitions, sweeps, statements, pages, seal and restore, the Granite partition and the
local display (10). -/

namespace Sys2Proof.Machine

/-! ### Journal groups of the ledger -/

/-- Commit one LEDGER entry as a group of its own; the caller has judged that the journal takes it. -/
def commitOne (e : JEntry) (s : State) : State := jnlGroup [e] s

/-- Whether the journal takes a LEDGER group now (R282, 09 R248). -/
def ledgerOk (s : State) : Bool := jnlTakes 1 s

/-- JSEQ of the entry written last. -/
def lastJseq (s : State) : Nat := s.jnv.head - 1

/-- A retired version goes once no occupied entry predates the activation that retired it (R268). -/
def dropRetired (s : State) : State :=
  let live := fun (a : Nat) => s.jnv.entries.any (fun e => e.jseq < a)
  { s with ledger.cals := tmap s.ledger.cals (fun _ c => { c with retired := c.retired.filter (fun r => live r.2) }) }

/-- Release entries and what hangs on them. -/
def release (s : State) : State := dropRetired (jnlRelease s)

/-- The pages whose confirmation an entry awaits are met up to a version (R27). -/
def pageConfirmed (p v : Nat) (s : State) : State :=
  let met := fun (x : Nat × Nat) => x.1 == p && 0 < x.2 && x.2 ≤ v
  { s with jnv.entries := s.jnv.entries.map (fun e => { e with needPages := e.needPages.filter (fun x => !met x) }) }

/-! ### Transitions (R278, R279) -/

def updCal (k : Nat) (f : CalIdx → CalIdx) (s : State) : State := { s with ledger.cals := tupd s.ledger.cals k {} f }

def updRoot (k : Nat) (f : CalRoot → CalRoot) (s : State) : State := { s with roots.cals := tupd s.roots.cals k {} f }

/-- A close instant of a calendar (R274): its count, its ring, event 0x53, and the sweep (R276). -/
def applyClose (k t version reason : Nat) (s : State) : State :=
  let s1 := updRoot k (fun r =>
    { r with cseq := r.cseq + 1,
             ring := ({ instant := t, cseq := r.cseq + 1, version := version, reason := reason } :: r.ring).take 64 }) s
  raise 0x53 { s1 with ledger.sweeps := tset s1.ledger.sweeps k 0 }

/-- The version that the next activation puts in force: one accepted for activation at once, else the pending one. -/
def nextVer (c : CalIdx) : Option CalVer := if c.due.isSome then c.due else c.pending

/-- A version activates (R268): the active one retires, the high-water VERSION rises, event 0x54. -/
def applyActivate (k t jseq : Nat) (s : State) : State :=
  match nextVer (calIdx s k) with
  | none => s
  | some v =>
    let s1 := updCal k (fun c =>
      { c with active := some { v with activated := t }, due := none, pending := if c.due.isSome then c.pending else none,
               retired := (c.active.toList.map (fun a => (a, jseq))) ++ c.retired }) s
    raise 0x54 (updRoot k (fun r => { r with high := max r.high v.version }) s1)

/-- What falls at engine second t of a calendar: demand boundary, close, tier change, activation. -/
structure Kinds where
  demand : Bool
  close : Bool
  tier : Bool
  activate : Bool
  deriving DecidableEq, Repr

/-- The versions held once the next one has activated at t. -/
def versAfter (c : CalIdx) (t : Nat) : List CalVer :=
  match nextVer c with
  | some v => if v.activateAt ≤ t then heldVers { c with due := some { v with activated := t }, active := none, retired := [] } else heldVers c
  | none => heldVers c

/-- The kinds of transition that fall at t (R278): the demand interval and the close are those of the version before t (R279). At an instant
that has been applied already only an activation is left (R268). -/
def kindsAt (s : State) (k t : Nat) : Kinds :=
  let c := calIdx s k
  let vs := heldVers c
  let vb := inForce vs (t - 1)
  let va := versAfter c t
  let new_ := !vs.isEmpty && (calRoot s k).lastApplied < t
  { demand := new_ && onGrid vb t, close := new_ && (ruleCloses vb (t - 1) t).contains t,
    tier := new_ && tierOf va t != tierOf vs (t - 1),
    activate := match nextVer c with
      | some v => v.activateAt ≤ t
      | none => false }

def anyKind (x : Kinds) : Bool := x.demand || x.close || x.tier || x.activate

/-- The pages whose endpoints roll at a close of the calendar at t: they carry its effect (R27). -/
def rollPages (s : State) (k t : Nat) : List (Nat × Nat) :=
  ((s.eps.filter (fun e => e.2.img.cal == k && e.2.img.pstart < t)).map (fun e => (e.1 / 16, 0))).eraseDups

/-- The entry of a transition at t. -/
def transEntry (s : State) (k t : Nat) (x : Kinds) (host catchup : Bool) : JEntry :=
  let va := versAfter (calIdx s k) t
  { ledgerEntry (.calTransition k x.demand (x.close || host) x.tier x.activate host catchup t
    ((calRoot s k).cseq + b2n (x.close || host)) ((inForce va t).version % 2 ^ 21)) with needPages := if x.close || host then rollPages s k t else [] }

/-- The effect of a transition at t, its entry having number jseq (Table 10-7). -/
def transApply (k t jseq : Nat) (x : Kinds) (host : Bool) (s : State) : State :=
  let version := versionAt s k (t - 1)
  let s1 := if x.close || host then applyClose k t version (if host then 2 else 1) s else s
  let s2 := if x.activate then applyActivate k t jseq s1 else s1
  updRoot k (fun r => { r with lastApplied := max r.lastApplied t }) s2

/-- One CAL_TRANSITION group with its effect. -/
def transition (k t : Nat) (x : Kinds) (host catchup : Bool) (s : State) : State :=
  let s1 := commitOne (transEntry s k t x host catchup) s
  transApply k t (lastJseq s1) x host s1

/-- Instants up to b at which versions that wait activate: one accepted for activation at once at its own instant, the pending one at the first
second at or after its ACTIVATE_AT (R268). -/
def activations (s : State) (k b : Nat) : List Nat :=
  let own := fun (o : Option CalVer) (least : Nat) => (o.toList.map (fun v => max v.activateAt least)).filter (· ≤ b)
  match (calIdx s k).due with
  | some v => own (some v) 0
  | none => own (calIdx s k).pending ((calRoot s k).lastApplied + 1)

/-- The next close instant or activation after the last applied instant, up to b (R281, R282). -/
def nextCarried (s : State) (k b : Nat) : Option Nat :=
  (sortU (closesIn (versOf s k) (calRoot s k).lastApplied b ++ activations s k b)).head?

/-- Apply every passed close and activation up to b, in order, while the journal takes their groups (R281, R282). (DESIGN CHOICE: log 13) -/
def applyPassed (k b : Nat) (catchup : Bool) : Nat → State → State
  | 0, s => s
  | fuel + 1, s =>
    match nextCarried s k b with
    | none => s
    | some t =>
      if !ledgerOk s then s
      else
        let x := kindsAt s k t
        let y := if catchup then { x with demand := false, tier := false } else x
        applyPassed k b catchup fuel (transition k t y false catchup s)

/-- Enough turns for every instant up to b. -/
def passedFuel (s : State) (k b : Nat) : Nat := (closesIn (versOf s k) (calRoot s k).lastApplied b).length + 3
  + (((calIdx s k).due.toList ++ (calIdx s k).pending.toList).map (fun v => (ruleCloses v v.activateAt b).length)).sum

def catchUp (k b : Nat) (catchup : Bool) (s : State) : State := applyPassed k b catchup (passedFuel s k b) s

/-- CAL_TRANSITION at engine second t of a calendar (R278): nothing while no version is held, time is untrusted (R283), an earlier close
or activation is still to come, nothing falls at t, or the journal does not take the group. -/
def calTransition (k t : Nat) (s : State) : State :=
  let s1 := advTo (tSec t) s
  let x := kindsAt s1 k t
  if idxHeld s k && trusted s && anyKind x && ledgerOk s1
      && (match nextCarried s1 k t with
          | some u => u == t
          | none => decide ((calRoot s k).lastApplied < t))
  then transition k t x false false s1
  else s

/-! ### Sweep (R276) -/

/-- The next handles of a sweep. -/
def sweepNext (s : State) (k from_ n : Nat) : List Nat :=
  ((s.eps.filter (fun e => from_ ≤ e.1 && e.2.img.cal == k)).map (·.1)).take n

/-- At most LEDGER_SWEEP_RATE endpoints a second: a slice begins when the time of those before it is over (R276). (DESIGN CHOICE: log 154) -/
def sweepTime (n : Nat) (s : State) : State :=
  let s1 := advMono (s.ledger.sweepAt.getD s.mono) s
  { s1 with ledger.sweepAt := some (s1.mono + n * 2 ^ 24 / pval s 0x5002) }

/-- A slice of the sweep of a calendar: up to n of its endpoints are evaluated. -/
def ledgerSweep (k n : Nat) (s : State) : State :=
  match tfind s.ledger.sweeps k with
  | none => s
  | some from_ =>
    let s := sweepTime (sweepNext s k from_ n).length s
    let hs := sweepNext s k from_ n
    let s1 := hs.foldl (fun s h => evalEp h (secs s) s) s
    match hs.getLast? with
    | none => { s1 with ledger.sweeps := tdel s1.ledger.sweeps k }
    | some h =>
      if (sweepNext s k (h + 1) 1).isEmpty then { s1 with ledger.sweeps := tdel s1.ledger.sweeps k }
      else { s1 with ledger.sweeps := tset s1.ledger.sweeps k (h + 1) }

/-! ### CAL_LOAD and the calendar opcodes -/

/-- The manifest that runs. -/
def runMan (s : State) : Manifest := s.fw.running.getD {}

/-- The signature of a calendar by a key whose index range includes the calendar (R267). -/
def calAuth (p : List Byte) (v : CalVer) (s : State) : Bool :=
  (runMan s).keys.any (fun key => key.keyId == rd p 16 2 && key.first ≤ v.index && v.index ≤ key.last
    && Config.rsaVerify key.modulus (p.take (p.length - 384)) (p.drop (p.length - 384)))

/-- Some endpoint is assigned to the index. -/
def idxAssigned (s : State) (k : Nat) : Bool := s.eps.any (fun e => e.2.tariffCal == k)

/-- An occupied ACTIVATE entry of the index that names the version as the one it replaced: the entry before it of the same index, where
one is occupied, carried that version (R268; log 21). -/
def replacedBy (s : State) (k version : Nat) : Option Nat :=
  let es := s.jnv.entries.filterMap (fun e => match e.body with
    | .calTransition i _ _ _ act _ _ _ _ ver => if i = k then some (e.jseq, act, ver) else none
    | _ => none)
  let rec find : Option Nat → List (Nat × Bool × Nat) → Option Nat
    | _, [] => none
    | prev, (j, act, ver) :: rest =>
      let named := match prev with
        | some p => p == version % 2 ^ 21
        | none => version % 2 ^ 21 < ver
      if act && named then some j else find (some ver) rest
  find none es

/-- What Table 10-4 makes of a version. -/
inductive LoadAs where
  | pending | activate (at_ : Nat) | active | retired (jseq : Nat) | refused
  deriving DecidableEq, Repr

def loadAs (s : State) (v : CalVer) (high : Nat) : LoadAs :=
  if high < v.version then
    if secs s < v.activateAt then .pending else .activate (if v.activateAt = 0 then secs s else v.activateAt)
  else if v.version = high then .active
  else
    match replacedBy s v.index v.version with
    | some j => .retired j
    | none => .refused

/-- Retired versions stand latest first. -/
def insRetired (v : CalVer) (j : Nat) : List (CalVer × Nat) → List (CalVer × Nat)
  | [] => [(v, j)]
  | (w, i) :: rest => if w.version < v.version then (v, j) :: (w, i) :: rest else (w, i) :: insRetired v j rest

/-- The activation instant of a version reloaded as active: ACTIVATE_AT, or that of the occupied entry that activated it (log 21). -/
def reloadInstant (s : State) (v : CalVer) : Nat :=
  if v.activateAt != 0 then v.activateAt
  else ((s.jnv.entries.filterMap (fun e => match e.body with
    | .calTransition i _ _ _ true _ _ t _ ver => if i = v.index && ver = v.version % 2 ^ 21 then some t else none
    | _ => none)).getLast?).getD 0

/-- Tariff application deferred while a calendar was lost is made in journal order once it is held again (08 R230). -/
def bookDeferred (k : Nat) (s : State) : State :=
  if !s.ledger.lostCals.contains k || !idxHeld s k then s
  else
    let mine := s.ledger.deferred.filter (fun x => (tfind s.eps x.1).any (fun e => e.tariffCal == k))
    let rest := s.ledger.deferred.filter (fun x => !(tfind s.eps x.1).any (fun e => e.tariffCal == k))
    mine.foldl (fun s x =>
      let (s1, adj) := book x.1 x.2 s
      if adj.isEmpty || !ledgerOk s1 then s1 else jnlGroup (adj.map (handleEntry x.1)) s1)
      { s with ledger.deferred := rest, ledger.lostCals := s.ledger.lostCals.filter (fun j => j != k) }

/-- An uncorrectable error loses a calendar (08 R230): it is no longer held, as after a start. (DEDUCED: log 94) -/
def loseCal (k : Nat) (s : State) : State :=
  if idxHeld s k then
    { s with ledger.cals := tset s.ledger.cals k {}, ledger.lostCals := s.ledger.lostCals.filter (fun j => j != k) ++ [k] }
  else s

/-- The calendar index binds to the calendar a CAL_LOAD brings: nothing applied before its load, or before the
instant it activates at (R267, R268). -/
def calBind (k : Nat) (v : CalVer) (how : LoadAs) (s : State) : State :=
  updRoot k (fun _ => { calId := v.calId, lastApplied := match how with
    | .activate _ => secs s - 1
    | _ => secs s }) s

/-- Where a CAL_LOAD puts the version it brings (R267, R268); `since` is when a reloaded ACTIVE version took effect. -/
def calPlace (k : Nat) (v : CalVer) (how : LoadAs) (since : Nat) (s : State) : State :=
  match how with
  | .pending => updCal k (fun c => { c with pending := some v }) s
  | .activate a => updCal k (fun c => { c with due := some { v with activateAt := a } }) s
  | .active => updCal k (fun c => { c with active := some { v with activated :=
      match c.active with
      | some w => w.activated
      | none => since } }) s
  | .retired j => updCal k (fun c => { c with retired := insRetired { v with activated := v.activateAt } j c.retired }) s
  | .refused => s

/-- CAL_LOAD (R267, R268, R281). -/
def calLoad (r : Req) (s : State) : Reply :=
  match readCal r.payload with
  | none => refuse s .badParam
  | some v =>
    let k := v.index
    let same := (calRoot s k).calId == v.calId
    let held := idxHeld s k
    let high := if same then (calRoot s k).high else 0
    let how := loadAs s v high
    if (!same && (idxAssigned s k || held)) || how = .refused || !ledgerOk s then refuse s .badState
    else if !calAuth r.payload v s then refuse s .authFail
    else
      let now := secs s
      let last := (calRoot s k).lastApplied
      if how == .activate now && same && last == now then .wait s
      else
        let bind := if same then s else calBind k v how s
        let s1 := commitOne (ledgerEntry (.calLoad k v.calId v.version (how == .pending))) bind
        let s2 := calPlace k v how (reloadInstant s v) s1
        let s3 := if trusted s2 then catchUp k now (same && !held) s2 else s2
        replyOk (bookDeferred k s3)

/-- CAL_GET (R299). -/
def calGet (r : Req) (s : State) : Reply :=
  let k := rd r.payload 0 1
  let which := rd r.payload 1 1
  let c := calIdx s k
  let v := match which with
    | 0 => c.active
    | 1 => c.pending
    | _ => (c.retired.head?).map (fun (x : CalVer × Nat) => x.1)
  if 2 < which || !zeroAt r.payload 2 2 then refuse s .badParam
  else
    match v with
    | none => refuse s .badParam
    | some v => replyOk s (v.raw.take 64 ++ le 4 (calRoot s k).cseq ++ le 4 (calRoot s k).lastApplied)

/-- The calendar field of an image for an assigned index. -/
def calByte (k : Nat) : Nat := if k = 0xFFFF then 0xFF else k

/-- A period closes for a change of calendar, with its CAL_CHANGE entry (R270). -/
def calChange (h k : Nat) (s : State) : State :=
  match tfind s.eps h with
  | none => s
  | some e =>
    if e.img.cal = calByte k then s
    else
      let s1 := commitOne (handleEntry h (.calChange h e.img.cal (calByte k))) (evalEp h (secs s) s)
      updImg h (fun i => { i with cal := calByte k }) (closeNow h reasonCalChange (secs s) 0 s1)

/-- TARIFF_ASSIGN (R270). -/
def assignEntry (p : List Byte) (i : Nat) : Nat × Nat × Nat :=
  let w := rd p (4 + 4 * i) 4
  (bits w 19 0, bits w 23 20, bits w 31 24)

def assignBad (s : State) (x : Nat × Nat × Nat) : Bool :=
  x.2.1 != 0 || (x.2.2 != 0xFF && !idxHeld s x.2.2) || !thas s.eps x.1

def applyAssign (x : Nat × Nat × Nat) (s : State) : State :=
  let k := if x.2.2 = 0xFF then 0xFFFF else x.2.2
  let s1 := updEp x.1 (fun e => { e with tariffCal := k }) s
  match tfind s.eps x.1 with
  | some e => if e.adm == .admitted || e.adm == .suspended then calChange x.1 k s1 else s1
  | none => s1

def tariffAssign (r : Req) (s : State) : Reply :=
  let n := rd r.payload 0 2
  let xs := (List.range n).map (assignEntry r.payload)
  if !zeroAt r.payload 2 2 then refuse s .badParam
  else
    match (xs.zip (List.range n)).find? (fun x => assignBad s x.1) with
    | some (_, i) => refuse s .badParam (le 2 i ++ le 2 0)
    | none =>
      let changes := (xs.filter (fun x => match tfind s.eps x.1 with
        | some e => (e.adm == .admitted || e.adm == .suspended) && e.img.cal != x.2.2
        | none => false)).length
      if changes != 0 && !jnlTakes changes s then refuse s .badState
      else replyOk (xs.foldl (fun s x => applyAssign x s) s)

/-- PERIOD_CLOSE_NOW (R274). (DEDUCED: log 15) -/
def periodCloseNow (r : Req) (s : State) : Reply :=
  let k := rd r.payload 0 1
  let now := secs s
  if !zeroAt r.payload 1 3 || !idxHeld s k then refuse s .badParam
  else if !trusted s || !ledgerOk s then refuse s .badState
  else
    let s1 := catchUp k (now - 1) false s
    if now ≤ (calRoot s1 k).lastApplied then .wait s
    else if !ledgerOk s1 then refuse s .badState
    else
      let s2 := transition k now (kindsAt s1 k now) true false s1
      replyOk s2 (le 4 now ++ le 4 (calRoot s2 k).cseq)

/-! ### Pages (R284 to R286) -/

def page (s : State) (p : Nat) : Page := tget s.ledger.pages p {}
def sealedVer (s : State) (p : Nat) : Nat := tget s.roots.sealedVer p 0
def confVer (s : State) (p : Nat) : Nat := tget s.roots.confVer p 0

/-- Pages that restore still needs, ascending (R288). (DEDUCED: log 18) -/
def pendingPages (s : State) : List Nat :=
  match s.ledger.pending with
  | some ps => ps
  | none => (s.roots.confVer.filter (fun e => 0 < e.2)).map (·.1)

def isPending (s : State) (p : Nat) : Bool := (pendingPages s).contains p

/-- The Merkle root over the confirmed versions (R287). -/
def ledgerRoot (s : State) : List Byte :=
  merkleRoot ((List.range 65536).map (fun p => Config.sha256 (2 :: le 4 p ++ le 4 (confVer s p))))

/-- LEDGER_ROOT as stored; before the first update it stands for the present versions. -/
def storedRoot (s : State) : List Byte := if s.roots.root.isEmpty then ledgerRoot s else s.roots.root

/-- The sixteen slots of a page in clear: ADDR and image, zeros for a handle that is not enrolled. -/
def pageBody (s : State) (p : Nat) : List Byte :=
  ((List.range 16).map (fun i => match tfind s.eps (16 * p + i) with
    | some e => le 8 e.addr.toNat ++ imageBytes e.img
    | none => le 248 0)).flatten

def occupied (s : State) (p : Nat) : Nat :=
  ((List.range 16).map (fun i => if thas s.eps (16 * p + i) then 2 ^ i else 0)).sum

/-- Bytes 0 to 111 of a page (Table 10-9). -/
def pageHeader (s : State) (p v : Nat) : List Byte :=
  le 2 1 ++ le 2 p ++ le 4 v ++ le 8 s.now ++ le 4 (lastJseq s) ++ le 2 (occupied s p) ++ le 6 0
    ++ (le 4 p ++ le 4 v ++ le 4 0) ++ le 72 0

/-- The entry is a reading whose tariff application waits for a lost calendar: no page carries its effect yet (R27; 08 R230). -/
def booksLater (s : State) (e : JEntry) : Bool :=
  match e.body with
  | .reading h _ _ _ _ _ _ => s.ledger.deferred.any (fun x => x.1 == h)
  | _ => false

/-- Seal one page under the next version (R285). -/
def sealPage (p : Nat) (s : State) : State :=
  match domainKey .ledger s with
  | none => s
  | some key =>
    let v := sealedVer s p + 1
    let header := pageHeader s p v
    let ct := Config.gcmSeal key (slice header 28 12) header (pageBody s p)
    let tag := ct.drop (ct.length - 16)
    let slots := (List.range 16).filterMap (fun i => (tfind s.eps (16 * p + i)).map (fun e => (i, e.addr, e.img)))
    let copy : SealedPage := { version := v, sealTime := s.now, sealJseq := lastJseq s, slots := slots,
                               bytes := header ++ tag ++ ct.take (ct.length - 16) }
    { s with roots.sealedVer := tset s.roots.sealedVer p v,
             ledger.pages := tset s.ledger.pages p { dirty := false, copy := some copy, awaiting := true,
                                                     due := s.mono + tSec (pval s 0x5000), late := false },
             ledger.exportQ := s.ledger.exportQ ++ [p],
             jnv.entries := s.jnv.entries.map (fun e =>
               if booksLater s e then e else { e with needPages := e.needPages.map (fun x => if x = (p, 0) then (p, v) else x) }) }

/-- A page that the engine seals now: dirty, its previous version confirmed, its rolls' statements confirmed, not pending, and no tariff
application of its endpoints put off. -/
def sealable (s : State) (p : Nat) : Bool :=
  (page s p).dirty && sealedVer s p == confVer s p && !isPending s p && s.ledger.unconfStmts.all (fun x => x.1 != p)
    && s.ledger.deferred.all (fun x => x.1 / 16 != p)

/-- LEDGER_SEAL: every LEDGER_SEAL_S, each dirty page in turn, its endpoints evaluated first (R275, R285). (DESIGN CHOICE: log 154) -/
def ledgerSeal (s : State) : State :=
  if !s.jnl.replayed || s.fw.pause.isSome then s
  else
    let sr := roundAt s.ledger.sealAt (pval s 0x5001) s
    let s := { sr with ledger.sealAt := some sr.mono }
    let dirty := (s.ledger.pages.filter (fun e => e.2.dirty && !isPending s e.1)).map (·.1)
    let s1 := dirty.foldl (fun s p =>
      (List.range 16).foldl (fun s i => evalEp (16 * p + i) (secs s) s) s) s
    dirty.foldl (fun s p => if sealable s p then sealPage p s else s) s1

/-- A page's durability period ends without its confirmation (R286). -/
def durabilityExpiry (p : Nat) (s : State) : State :=
  let x := page s p
  if x.awaiting && !x.late then
    let s1 := advMono x.due s
    raise 0x50 (record rcDurable (le 4 p ++ le 4 (sealedVer s1 p))
      { s1 with ledger.pages := tset s1.ledger.pages p { x with late := true } })
  else s

/-- LEDGER_CONFIRM of one page's current version (R286). -/
def confirmPage (p : Nat) (s : State) : State :=
  let v := sealedVer s p
  pageConfirmed p v
    { s with roots.confVer := tset s.roots.confVer p v,
             ledger.pages := tupd s.ledger.pages p {} (fun x => { x with awaiting := false, late := false }) }

def confirmEntry (p : List Byte) (i : Nat) : Nat × Nat × Nat := (rd p (4 + 8 * i) 2, rd p (6 + 8 * i) 2, rd p (8 + 8 * i) 4)

/-- LEDGER_CONFIRM (R286). -/
def ledgerConfirm (r : Req) (s : State) : Reply :=
  let n := rd r.payload 0 2
  let xs := (List.range n).map (confirmEntry r.payload)
  if 1024 < n || !zeroAt r.payload 2 2 || xs.any (fun x => x.2.1 != 0 || sealedVer s x.1 < x.2.2) then refuse s .badParam
  else
    let cur := xs.filter (fun x => x.2.2 == sealedVer s x.1 && x.2.2 != confVer s x.1)
    if cur.isEmpty then replyOk s
    else
      let s1 := cur.foldl (fun s x => confirmPage x.1 s) s
      replyOk (release { s1 with roots.root := ledgerRoot s1 })

/-- LEDGER_EXPORT_START (R286). -/
def ledgerExportStart (r : Req) (s : State) : Reply :=
  let c := rd r.payload 0 1
  if !zeroAt r.payload 1 3 || 32 ≤ c then refuse s .badParam
  else if s.ledger.exportChan.isSome then refuse s .badState
  else
    match bindCheck c s with
    | some st => refuse s st
    | none => replyOk (bindChan c .pages { s with ledger.exportChan := some c })

/-! ### Replay and restore (R281, R288 to R290) -/

/-- The slot of a cumulative quantity: its ordinal among the profile's KIND 1 entries (09 R237). -/
def qEntry (s : State) (profile q : Nat) : QEntry := tget s.prov.profiles (16 * profile + q) {}

def slotOf (s : State) (profile q : Nat) : Nat :=
  ((List.range q).filter (fun k => (qEntry s profile k).kind == 1)).length

/-- The window takes a frame counter in replay, with the tally of a jump as at its commit (07 R198, R202). -/
def replayFcnt (h fcnt : Nat) (s : State) : State :=
  updImg h (fun i =>
    let jump := match dedup i fcnt (pval s 0x4000) with
      | .accept true => true
      | _ => false
    takeFcnt fcnt (if jump then { i with tally := { i.tally with jump := satAdd 65535 i.tally.jump 1 } } else i)) s

/-- Apply one journal entry to a restored image, under its governing TIME entry (09 R250, R288). -/
def replayEntry (h : Nat) (trust : Bool) (t : Nat) (e : JEntry) (s : State) : State :=
  match e.body with
  | .reading h' fcnt q action _ _ _ =>
    if h' != h then s
    else
      let s1 := replayFcnt h fcnt s
      match tfind s1.eps h, e.exp with
      | some ep, some x =>
        if (qEntry s1 ep.profile q).kind != 1 || action = 3 || action = 5 then s1
        else
          let sl := slotOf s1 ep.profile q
          let prev := tget ep.img.slots sl {}
          let s2 := if action ≤ 2 then
              (book h { slot := sl, from_ := prev.time, to_ := x.time, delta := x.delta.toNat, at_ := t, untrusted := !trust,
                        hold := action == 2, frameEnd := none } s1).1
            else s1
          updImg h (fun i => { i with slots := tset i.slots sl { value := x.value, time := x.time } }) s2
      | _, _ => s1
  | .frame h' fcnt _ _ => if h' = h then replayFcnt h fcnt s else s
  | .tamper h' fcnt _ _ _ =>
    if h' = h then
      updImg h (fun i => { i with tally := { i.tally with reported := satAdd 65535 i.tally.reported 1, last := t } }) (replayFcnt h fcnt s)
    else s
  | .withdrawClose h' _ => if h' = h then closeNow h reasonWithdrawn t 0 (evalEp h t s) else s
  | .adjust h' _ reason _ _ => if h' = h then updImg h (setFlag (if reason = 1 then 2 else 1)) s else s
  | .calChange h' _ new_ =>
    if h' = h then updImg h (fun i => { i with cal := new_ }) (closeNow h reasonCalChange t 0 (evalEp h t s)) else s
  | .creditApplied h' n amount _ _ =>
    if h' = h then updImg h (fun i => if n = i.crLast + 1 then
      { i with crLast := n, crSum := i.crSum + BitVec.ofNat 32 amount } else i) s else s
  | _ => s

/-- Sequence number a comes after b, both taken modulo 2^32. -/
def jseqAfter (a b : Nat) : Bool := let d := (a + 2 ^ 32 - b % 2 ^ 32) % 2 ^ 32; 1 ≤ d && d ≤ 2 ^ 31

/-- Replay an endpoint's entries after a sealed JSEQ, or all of them, oldest first. -/
def replayFrom (h : Nat) (j : Option Nat) : Bool → Nat → List JEntry → State → State
  | _, _, [], s => s
  | trust, t, e :: rest, s =>
    match e.body with
    | .time tr sec => replayFrom h j tr sec rest s
    | _ =>
      let take := match j with
        | some j => jseqAfter e.jseq j
        | none => true
      replayFrom h j trust t rest (if take then replayEntry h trust t e s else s)

/-- Take an image for an endpoint: replay, the mark of an unwarned loss on the interval that was open, evaluation, change of calendar (R281,
R288). (DESIGN CHOICE: log 153) -/
def takeImage (h : Nat) (base : Image) (j : Option Nat) (s : State) : State :=
  let s1 := updImg h (fun _ => base) s
  let s2 := replayFrom h j true 0 s1.jnv.entries s1
  let s3 := if s.ledger.unwarned then updImg h (fun i => if i.didx != 0xFFFF then setFlag 3 i else i) s2 else s2
  let s4 := evalEp h (secs s3) s3
  match tfind s4.eps h with
  | some e => if e.img.cal != calByte e.tariffCal && ledgerOk s4 then calChange h e.tariffCal s4 else s4
  | none => s4

/-- Verified or declared lost: a RESTORING endpoint enters service (Table 07-3). -/
def leaveRestoring (h : Nat) (s : State) : State :=
  match tfind s.eps h with
  | some e => if e.adm = .restoring then setAdm h (if e.susp then .suspended else .admitted) s else s
  | none => s

/-- A slot's address is another's: event 0x52 and a LEGAL record (R288). -/
def restoreMismatch (h : Nat) (s : State) : State := raise 0x52 (record rcRestore (le 4 h ++ le 4 0) s)

/-- One slot of an accepted page, or of a page never confirmed (R288). -/
def restoreSlot (h : Nat) (slot : Option (DWord × Image)) (j : Nat) (s : State) : State :=
  let back := fun (s : State) =>
    noteEp h (fun e => { e with imgLost := false })
      (if (tfind s.eps h).any (fun e => e.imgLost) then { s with mem.imgRebuilt := s.mem.imgRebuilt + 1 } else s)
  match tfind s.eps h, slot with
  | none, none => s
  | none, some x => { s with ledger.kept := tset s.ledger.kept h (x.1, x.2, j) }
  | some e, none =>
    if e.adm = .restoring || e.imgLost then
      leaveRestoring h (back (takeImage h (freshImage e.img.pstart (calByte e.tariffCal)) none s))
    else s
  | some e, some (addr, img) =>
    if e.adm = .restoring || e.imgLost then
      if addr = e.addr then
        leaveRestoring h (back (takeImage h img (some j) s))
      else restoreMismatch h s
    else if e.isNew && addr = e.addr && ledgerOk s then
      commitOne (handleEntry h (.historyIgnored h img.pseq)) s
    else s

/-- The restore stream lets go of its channel (R288). (DESIGN CHOICE: log 17) -/
def restoreUnbind (s : State) : State :=
  match s.ledger.restoreChan with
  | some c => unbindChan c { s with ledger.restoreChan := none, ledger.restoreDue := 0 }
  | none => s

/-- The verdict on the restored ledger: its root is the stored one, or record 0x1D8 and event 0x52 (R288). -/
def restoreVerdict (s : State) : State :=
  if ledgerRoot s = storedRoot s then s else raise 0x52 (record rcRestore (le 4 0xFFFFFFFF ++ le 4 0) s)

/-- No page is pending any more (R288). -/
def restoreDone (s : State) : State :=
  let s2 := restoreUnbind (restoreVerdict s)
  raise 0x51 { s2 with ledger.restore := 2, ledger.pending := some [], boot.stage := if s2.boot.stage = 0xA then 0xB else s2.boot.stage }

def checkRestoreDone (s : State) : State :=
  if s.ledger.restore = 1 && (pendingPages s).isEmpty then restoreDone s else s

/-- Endpoints of pages never confirmed start from their fresh images (R288). -/
def restoreUnconfirmed (s : State) : State :=
  let hs := (s.eps.filter (fun e => e.2.adm == .restoring && confVer s (e.1 / 16) == 0)).map (·.1)
  hs.foldl (fun s h => restoreSlot h none 0 s) s

/-- LEDGER_RESTORE_START (R288). -/
def ledgerRestoreStart (r : Req) (s : State) : Reply :=
  let c := rd r.payload 0 1
  if !zeroAt r.payload 1 3 || 32 ≤ c then refuse s .badParam
  else if s.ledger.restoreChan.isSome then refuse s .badState
  else
    match bindCheck c s with
    | some st => refuse s st
    | none =>
      let s1 := bindChan c .restore
        { s with ledger.restoreChan := some c, ledger.restore := 1, ledger.pending := some (pendingPages s) }
      replyOk (checkRestoreDone (restoreUnconfirmed s1))

/-- The slots of an opened page body. -/
def bodySlots (occ : Nat) (body : List Byte) : List (Option (DWord × Image)) :=
  (List.range 16).map (fun i =>
    if bit occ i then some (BitVec.ofNat 64 (rd body (248 * i) 8), imageOf (slice body (248 * i + 8) 240)) else none)

/-- A page is rejected and counted; where it names a pending page it was altered, replayed or stale: event 0x52 and a LEGAL record (02 R28).
(DESIGN CHOICE: log 153) -/
def rejectPage (p : List Byte) (s : State) : State :=
  let s1 := { s with ledger.rejected := satAdd (2 ^ 24 - 1) s.ledger.rejected 1 }
  if isPending s (rd p 2 2) then raise 0x52 (record rcPageBad (le 4 (rd p 2 2) ++ le 4 (rd p 4 4)) s1) else s1

/-- The restore stream is bound and its channel has not stopped (08 R231). -/
def restoreOpen (s : State) : Bool :=
  match s.ledger.restoreChan with
  | some c => (tget s.chans c {}).state != .stopped
  | none => false

/-- RESTORE_PAGE_RECEIVE: the 4 KiB that a completed restore descriptor brought for one page; what a failed one brought is discarded (R288;
08 R228, R231). -/
def restorePage (p : List Byte) (s : State) : State :=
  if !restoreOpen s || s.ledger.restoreDue = 0 then s
  else
    let no := rd p 2 2
    let s := { s with ledger.restoreDue := s.ledger.restoreDue - 1 }
    if p.length != 4096 || rd p 0 2 != 1 || !isPending s no || rd p 4 4 != confVer s no then rejectPage p s
    else
      match domainKey .ledger s with
      | none => rejectPage p s
      | some key =>
        match Config.gcmOpen key (slice p 28 12) (p.take 112) (p.drop 128 ++ slice p 112 16) with
        | none => rejectPage p s
        | some body =>
          let s1 := { s with ledger.pending := some ((pendingPages s).filter (· != no)) }
          let slots := bodySlots (rd p 20 2) body
          let s2 := (slots.zip (List.range 16)).foldl (fun s x => restoreSlot (16 * no + x.2) x.1 (rd p 16 4) s) s1
          checkRestoreDone s2

/-- An endpoint of a lost page starts anew: the closing roll sets LOST_RESTART (R289, Table 10-2). (DEDUCED: log 16) -/
def lostRestart (h resume : Nat) (s : State) : State :=
  match tfind s.eps h with
  | none => s
  | some e =>
    let base := { freshImage (secs s) (calByte e.tariffCal) with pseq := resume - 1 }
    let s1 := closeNow h reasonLost (secs s) 0x40 (updImg h (fun _ => base) s)
    leaveRestoring h (noteEp h (fun e => { e with imgLost := false }) (updImg h (fun i => { i with pseq := resume }) s1))

/-- The highest billing period that the engine knows closed for a handle of the page: its statements not yet confirmed and the images it
holds. -/
def closedTop (s : State) (p : Nat) : Nat :=
  let stmts := (s.ledger.unconfStmts.filter (fun x => x.1 == p)).foldl (fun m x => max m x.2.2) 0
  (s.eps.filter (fun e => e.1 / 16 == p && !e.2.imgLost && e.2.adm != .restoring)).foldl (fun m e => max m (e.2.img.pseq - 1)) stmts

/-- LEDGER_PAGE_LOST (R289); one that would reopen a closed period is refused with BAD_STATE and recorded (02 R30). -/
def ledgerPageLost (r : Req) (s : State) : Reply :=
  let p := rd r.payload 0 4
  let resume := rd r.payload 4 4
  if 65536 ≤ p then refuse s .badParam
  else if !isPending s p || !ledgerOk s then refuse s .badState
  else if resume ≤ closedTop s p then refuse (record rcRefused (le 2 0x0506 ++ le 2 0 ++ le 4 p ++ le 4 resume) s) .badState
  else
    let s1 := commitOne { ledgerEntry (.pageLost p (sealedVer s p) resume) with needPages := [(p, 0)] } s
    let s2 := record rcPageLost (le 4 p ++ le 4 (sealedVer s p))
      { s1 with roots.confVer := tset s1.roots.confVer p (sealedVer s1 p),
                ledger.pending := some ((pendingPages s1).filter (· != p)) }
    let s3 := (List.range 16).foldl (fun s i => lostRestart (16 * p + i) resume s) (dirtyPage p s2)
    replyOk (checkRestoreDone s3)

/-- A page becomes pending again for a single-page restore (R290). -/
def pageAgain (p : Nat) (s : State) : State :=
  raise 0x52 { s with ledger.pending := some (if isPending s p then pendingPages s else sortU (p :: pendingPages s)),
                      ledger.restore := 1 }

/-- LEDGER_PENDING_GET (R299): pending pages from an index on. -/
def ledgerPendingGet (r : Req) (s : State) : Reply :=
  let first := rd r.payload 0 2
  let n := rd r.payload 2 2
  if 256 < n then refuse s .badParam
  else replyOk s ((((pendingPages s).filter (first ≤ ·)).take n).map (le 2)).flatten

/-- Codes of Table 07-2. -/
def admCode : Adm → Nat
  | .empty => 0 | .admitted => 1 | .restoring => 2 | .suspended => 3 | .retiring => 4 | .pending => 5

/-- LEDGER_GET (R299); a handle that is not enrolled is refused (07 R206). -/
def ledgerGet (r : Req) (s : State) : Reply :=
  let h := rd r.payload 0 4
  match tfind s.eps h with
  | some e =>
    if 1048576 ≤ h then refuse s .badParam
    else replyOk (touch h s) (le 4 h ++ le 1 (admCode e.adm) ++ le 1 (b2n (isPending s (h / 16))) ++ le 2 0 ++ imageBytes e.img)
  | none => refuse s .badParam

/-! ### Statements (R277) -/

/-- The statement bundle closes STMT_BUNDLE_S after its first statement. -/
def stmtTimeout (s : State) : State :=
  match s.ledger.stmtOpen with
  | none => s
  | some b => closeStmt (advTo (b.openTime + tSec (pval s 0x5004)) s)

/-- STATEMENT_START: as R257. -/
def statementStart (r : Req) (s : State) : Reply :=
  let c := rd r.payload 0 1
  if !zeroAt r.payload 1 3 || 32 ≤ c then refuse s .badParam
  else if s.ledger.stmtChan.isSome then refuse s .badState
  else
    match bindCheck c s with
    | some st => refuse s st
    | none => replyOk (bindChan c .statements { s with ledger.stmtChan := some c })

/-- The last statement bundle written. -/
def stmtLastWritten (s : State) : Nat :=
  (s.ledger.stmtSigned.filter (·.once)).foldl (fun m b => max m b.bseq) s.roots.sseqConf

/-- The rolls that a bundle's statements stand for. -/
def stmtKeys (b : Bundle) : List (Nat × Nat × Nat) := b.stmts.map (fun x => (x.handle / 16, x.handle, x.pseq))

/-- STATEMENT_CONFIRM: as R258. -/
def statementConfirm (r : Req) (s : State) : Reply :=
  let n := rd r.payload 0 4
  if n ≤ s.roots.sseqConf then replyOk s
  else if stmtLastWritten s < n then refuse s .badParam
  else
    let keys := ((s.ledger.stmtSigned.filter (fun b => b.bseq ≤ n)).map stmtKeys).flatten
    let cut := (s.ledger.stmtSigned.find? (fun b => !b.written)).any (fun b => b.bseq ≤ n)
    let s1 := if cut then streamAnew .statements { s with ledger.stmtOffset := 0 } else s
    replyOk { s1 with roots.sseqConf := n, ledger.stmtSigned := s1.ledger.stmtSigned.filter (fun b => n < b.bseq),
                      ledger.unconfStmts := s1.ledger.unconfStmts.filter (fun x => !keys.contains x) }

/-- STATEMENT_REWIND: as R258. -/
def statementRewind (r : Req) (s : State) : Reply :=
  let n := rd r.payload 0 4
  if n ≤ s.roots.sseqConf || stmtLastWritten s < n then refuse s .badParam
  else
    let again := s.ledger.stmtSigned.map (fun b => if n ≤ b.bseq then { b with written := false } else b)
    replyOk { streamAnew .statements s with ledger.stmtOffset := 0, ledger.stmtSigned := again }

/-! ### Status and the Granite partition -/

/-- LEDGER_STATUS_GET (Table 10-15). -/
def ledgerStatus (s : State) : List Byte :=
  let waiting := s.ledger.pages.filter (fun e => e.2.awaiting)
  let age := waiting.foldl (fun m e => match e.2.copy with
    | some c => max m ((s.now - c.sealTime) / 2 ^ 24)
    | none => m) 0
  le 4 (pendingPages s).length ++ le 4 waiting.length ++ le 4 age
    ++ le 4 (s.ledger.pages.filter (fun e => e.2.dirty)).length
    ++ le 4 ((s.ledger.stmtSigned.map (fun b => b.stmts.length)).sum)
    ++ le 4 s.roots.sseq ++ le 4 s.roots.sseqConf ++ le 1 s.ledger.restore ++ le 3 s.ledger.rejected ++ slice (storedRoot s) 0 32

def part (s : State) (k : Nat) : PartEnt := (runMan s).parts.getD k {}

/-- GRANITE_INFO_GET (R299). -/
def graniteInfo (s : State) : List Byte :=
  le 4 (part s 5).version.toNat ++ slice (part s 5).digest 0 32 ++ slice (part s 6).digest 0 32 ++ le 1 (b2n s.bkp.sealOpen)
    ++ le 3 0 ++ le 4 s.bkp.sealCount.toNat ++ le 4 s.bkp.sealFirst.toNat ++ le 4 s.bkp.sealLast.toNat

/-! ### The local display (R296, R297) -/

def hexDigit (n : Nat) : Char := (("0123456789ABCDEF".toList).getD n '0')

/-- n in k hexadecimal digits. -/
def hexN : Nat → Nat → List Char
  | 0, _ => []
  | k + 1, n => hexN k (n / 16) ++ [hexDigit (n % 16)]

/-- n in k decimal digits. -/
def decN : Nat → Nat → List Char
  | 0, _ => []
  | k + 1, n => decN k (n / 10) ++ [hexDigit (n % 10)]

def dashes : List Char := "----".toList

/-- Sixteen characters of a line. -/
def line (cs : List Char) : List Byte := ascii 16 (String.ofList cs)

def dateChars (days : Nat) : List Char :=
  let (y, m, d) := dateOf days
  decN 4 y ++ ['-'] ++ decN 2 m ++ ['-'] ++ decN 2 d

def hex4 (b : List Byte) : List Char := ((slice b 0 4).map (fun x => hexN 2 x.toNat)).flatten

def natChars (n : Nat) : List Char := (toString n).toList

def jnlName : JState → List Char
  | .normal => "NORMAL".toList | .full => "FULL".toList | .suspended => "SUSPENDED".toList | .failed => "FAILED".toList

/-- The two lines of a display item (Table 10-12). -/
def itemScreen (s : State) (code : Nat) : List Byte :=
  match code with
  | 1 =>
    let t := secs s
    let stamp := if s.timeLoaded then
        dateChars (t / 86400) ++ [' '] ++ decN 2 (t % 86400 / 3600) ++ [':'] ++ decN 2 (t % 3600 / 60)
      else dashes
    line stamp ++ line (if trusted s then "UTC TRUSTED".toList else "UTC UNTRUSTED".toList)
  | 2 =>
    let p := part s 5
    line ("GRANITE ".toList ++ natChars p.version.toNat)
      ++ line ("SUM ".toList ++ (if p.digest.isEmpty then dashes else hex4 p.digest))
  | 3 =>
    line ((if s.bkp.sealOpen then "SEAL OPEN ".toList else "SEAL CLOSED ".toList) ++ natChars s.bkp.sealCount.toNat)
      ++ line ("LAST ".toList ++ (if s.bkp.sealCount = 0 then dashes else dateChars (s.bkp.sealLast.toNat / 86400)))
  | 4 => line "LEDGER ROOT".toList ++ line (hex4 (storedRoot s))
  | 5 => line ("JOURNAL ".toList ++ jnlName s.jnl.state) ++ line ("FREE ".toList ++ natChars (jnlFree s))
  | 6 => line "ENROLLED".toList ++ line (natChars s.eps.length)
  | 7 => line "FIRMWARE".toList ++ line (natChars (part s 0).version.toNat)
  | _ => line dashes ++ line dashes

/-- The screen of one TOU register of a shown endpoint (R297). -/
def touScreen (s : State) (h sl reg : Nat) : List Byte :=
  match tfind s.eps h with
  | none => line dashes ++ line dashes
  | some e =>
    let v := tget e.img.tou (4 * sl + reg) 0
    line (hexN 5 h ++ " R".toList ++ natChars reg ++ " P".toList ++ natChars e.img.pseq)
      ++ line (natChars (v / 1000) ++ ['.'] ++ decN 3 (v % 1000))

/-- The item codes in force: DISPLAY_ITEMS up to the first 0. (DEDUCED: log 104) -/
def displayItems (s : State) : List Nat := (pFields 1 8 (pval s 0x5010)).takeWhile (· != 0)

/-- The screens of one cycle now: the items, then the four registers of a shown endpoint while its time runs. -/
def displayCycle (s : State) : List (List Byte) :=
  (displayItems s).map (itemScreen s) ++
    (match s.ledger.show_ with
     | some (h, sl, until_, _) => if s.mono < until_ then (List.range 4).map (touScreen s h sl) else []
     | none => [])

/-- One attempt at the next screen; without an acknowledge only the address byte goes out (R296). -/
def displayTry (acked : Bool) (s : State) : State :=
  let cycle := displayCycle s
  if cycle.isEmpty then s
  else
    let i := s.ledger.dispNext % cycle.length
    let text := cycle.getD i []
    let s1 := { s with ledger.dispNext := (i + 1) % cycle.length }
    if acked then
      { s1 with ledger.dispRetry := none, ledger.screen := text, out := .display (pval s 0x5012) (0x40 :: text) :: s1.out }
    else { s1 with ledger.dispRetry := some (s1.mono + tSec 60), out := .display (pval s 0x5012) [] :: s1.out }

/-- DISPLAY_SCREEN: DISPLAY_DWELL_S has passed since the last screen; nothing while a retry is awaited, or before the control island is released.
(DESIGN CHOICE: log 154) -/
def displayScreen (acked : Bool) (s : State) : State :=
  if (isl s 29).inReset || s.ledger.dispRetry.isSome then s
  else
    let s1 := roundAt s.ledger.dispAt (pval s 0x5011) s
    displayTry acked { s1 with ledger.dispAt := some s1.mono }

/-- DISPLAY_RETRY: 60 s after a screen that was not acknowledged. -/
def displayRetry (acked : Bool) (s : State) : State :=
  match s.ledger.dispRetry with
  | some t =>
    if (isl s 29).inReset then s
    else
      let s1 := advMono t s
      displayTry acked { s1 with ledger.dispAt := some s1.mono }
  | none => s

/-- DISPLAY_SHOW (R297). -/
def displayShow (r : Req) (s : State) : Reply :=
  let h := rd r.payload 0 4
  let sl := rd r.payload 4 1
  let n := rd r.payload 6 2
  if 3 < sl || !zeroAt r.payload 5 1 || n < 10 || 300 < n || !thas s.eps h then refuse s .badParam
  else replyOk { s with ledger.show_ := some (h, sl, s.mono + tSec n, 0) }

/-! ### PWRFAIL (R280) -/

/-- Instants of a calendar up to b that no group has journaled yet (R280). -/
def unjournaled (s : State) (k b : Nat) : List Nat :=
  let a := (calRoot s k).lastApplied
  let vs := versOf s k
  let grid := ((spans vs a b).map (fun (v, lo, hi) =>
    (List.range (gridCount v lo hi)).map (fun (i : Nat) => (60 * v.phaseMin + (diSecs v : Int) * (gridNo v lo + i + 1)).toNat))).flatten
  sortU (grid ++ closesIn vs a b ++ tierCuts vs a (b + 1) ++ activations s k b)

/-- The group of the power-fail commit as it grows: one entry and effect per instant. -/
def pwrTransitions (k : Nat) : List Nat → List JEntry × State → List JEntry × State
  | [], acc => acc
  | t :: rest, (es, s) =>
    let x := kindsAt s k t
    pwrTransitions k rest (es ++ [transEntry s k t x false false], transApply k t (s.jnv.head + groupNeeds 0 s + es.length) x false s)

/-- The power-fail commit (R280): every transition instant not yet journaled, then PWRFAIL with LAST. -/
def pwrCommit (s : State) : State :=
  let ks := if trusted s then (s.ledger.cals.filter (fun e => idxHeld s e.1)).map (·.1) else []
  let (es, s1) := ks.foldl (fun acc k => pwrTransitions k (unjournaled acc.2 k (secs s)) acc) ([], s)
  if jnlTakes (es.length + 1) s then
    jnlGroup (es ++ [ledgerEntry (.pwrfail false (secs s) (s.now % 2 ^ 24))]) s1
  else s

/-- PWRFAIL_N goes low (R280, 14 R379, 21 R519). -/
def pwrfailAssert (s : State) : State :=
  if !s.mon.pwrfailN then s
  else jnlPwr true { pwrCommit s with mon.pwrfailN := false }

/-- PWRFAIL_N returns high (R280, 21 R519): the RECOVERED entry when every rail is in range. -/
def pwrfailDeassert (s : State) : State :=
  if s.mon.pwrfailN then s
  else
    let s1 := jnlPwr false { s with mon.pwrfailN := true }
    if s.mon.out.extractLsb' 0 7 = 0 && ledgerOk s1 then
      commitOne (ledgerEntry (.pwrfail true (secs s1) (s1.now % 2 ^ 24))) s1
    else s1

/-! ### Services -/

def calLoadService : Service :=
  { opcode := 0x0500, lenOk := fun p => 64 ≤ p.length && p.length == calSize p,
    objs := fun r _ => [.cal (rd r.payload 2 1)], run := fun _ r s => calLoad r s }

def calGetService : Service :=
  { opcode := 0x0501, lenOk := lenIs 4, objs := fun r _ => [.cal (rd r.payload 0 1)], run := fun _ r s => calGet r s }

def tariffAssignService : Service :=
  { opcode := 0x0503, lenOk := fun p => 4 ≤ p.length && p.length == 4 + 4 * rd p 0 2,
    objs := fun r _ => (List.range (rd r.payload 0 2)).map (fun i => .handle (assignEntry r.payload i).1),
    run := fun _ r s => tariffAssign r s }

def ledgerGetService : Service :=
  { opcode := 0x0504, lenOk := lenIs 4, objs := fun r _ => [.handle (rd r.payload 0 4)], run := fun _ r s => ledgerGet r s }

def ledgerPageLostService : Service := { opcode := 0x0506, lenOk := lenIs 8, run := fun _ r s => ledgerPageLost r s }

def ledgerExportStartService : Service :=
  { opcode := 0x0507, lenOk := lenIs 4, ready := true, objs := fun r _ => [.channel (rd r.payload 0 1)],
    run := fun _ r s => ledgerExportStart r s }

def ledgerConfirmService : Service :=
  { opcode := 0x0508, lenOk := fun p => 4 ≤ p.length && p.length == 4 + 8 * rd p 0 2, run := fun _ r s => ledgerConfirm r s }

def ledgerPendingGetService : Service := { opcode := 0x0509, lenOk := lenIs 4, run := fun _ r s => ledgerPendingGet r s }

def periodCloseNowService : Service :=
  { opcode := 0x050A, lenOk := lenIs 4, objs := fun r _ => [.cal (rd r.payload 0 1)], run := fun _ r s => periodCloseNow r s }

def statementStartService : Service :=
  { opcode := 0x050B, lenOk := lenIs 4, ready := true, objs := fun r _ => [.channel (rd r.payload 0 1)],
    run := fun _ r s => statementStart r s }

def statementConfirmService : Service := { opcode := 0x050C, lenOk := lenIs 4, run := fun _ r s => statementConfirm r s }

def statementRewindService : Service := { opcode := 0x050D, lenOk := lenIs 4, run := fun _ r s => statementRewind r s }

def graniteInfoGetService : Service :=
  { opcode := 0x050E, lenOk := payloadFree, run := fun _ _ s => replyOk s (graniteInfo s) }

def displayShowService : Service :=
  { opcode := 0x050F, lenOk := lenIs 8, objs := fun r _ => [.handle (rd r.payload 0 4)], run := fun _ r s => displayShow r s }

def ledgerStatusGetService : Service :=
  { opcode := 0x0510, lenOk := payloadFree, run := fun _ _ s => replyOk s (ledgerStatus s) }

/-! ### Meanings -/

def execCalTransition (index t : Nat) (s : State) : Host.Outcome State Fault Refusal := .next (calTransition index t s)

def execLedgerSweep (index count : Nat) (s : State) : Host.Outcome State Fault Refusal := .next (ledgerSweep index count s)

def execStmtBundleTimeout (s : State) : Host.Outcome State Fault Refusal := .next (stmtTimeout s)

def execLedgerSeal (s : State) : Host.Outcome State Fault Refusal := .next (ledgerSeal s)

def execDurabilityExpiry (page : Nat) (s : State) : Host.Outcome State Fault Refusal := .next (durabilityExpiry page s)

def execPwrfailAssert (s : State) : Host.Outcome State Fault Refusal := .next (pwrfailAssert s)

def execPwrfailDeassert (s : State) : Host.Outcome State Fault Refusal := .next (pwrfailDeassert s)

def execCalLoad (r : Req) (s : State) : Host.Outcome State Fault Refusal := .next (serve calLoadService r s)

def execCalGet (r : Req) (s : State) : Host.Outcome State Fault Refusal := .next (serve calGetService r s)

def execTariffAssign (r : Req) (s : State) : Host.Outcome State Fault Refusal := .next (serve tariffAssignService r s)

def execLedgerGet (r : Req) (s : State) : Host.Outcome State Fault Refusal := .next (serve ledgerGetService r s)

def execLedgerPageLost (r : Req) (s : State) : Host.Outcome State Fault Refusal := .next (serve ledgerPageLostService r s)

def execLedgerExportStart (r : Req) (s : State) : Host.Outcome State Fault Refusal := .next (serve ledgerExportStartService r s)

def execLedgerConfirm (r : Req) (s : State) : Host.Outcome State Fault Refusal := .next (serve ledgerConfirmService r s)

def execLedgerPendingGet (r : Req) (s : State) : Host.Outcome State Fault Refusal := .next (serve ledgerPendingGetService r s)

def execPeriodCloseNow (r : Req) (s : State) : Host.Outcome State Fault Refusal := .next (serve periodCloseNowService r s)

def execStatementStart (r : Req) (s : State) : Host.Outcome State Fault Refusal := .next (serve statementStartService r s)

def execStatementConfirm (r : Req) (s : State) : Host.Outcome State Fault Refusal := .next (serve statementConfirmService r s)

def execStatementRewind (r : Req) (s : State) : Host.Outcome State Fault Refusal := .next (serve statementRewindService r s)

def execGraniteInfoGet (r : Req) (s : State) : Host.Outcome State Fault Refusal := .next (serve graniteInfoGetService r s)

def execDisplayShow (r : Req) (s : State) : Host.Outcome State Fault Refusal := .next (serve displayShowService r s)

def execLedgerStatusGet (r : Req) (s : State) : Host.Outcome State Fault Refusal := .next (serve ledgerStatusGetService r s)

def execDisplayScreen (acked : Bool) (s : State) : Host.Outcome State Fault Refusal := .next (displayScreen acked s)

def execDisplayRetry (acked : Bool) (s : State) : Host.Outcome State Fault Refusal := .next (displayRetry acked s)

end Sys2Proof.Machine
end

