-- ==== Sys2Proof/Machine/Balance.lean ====
section
/-! DEFINITION. Loss and theft balancing: boundary values, placement, closes, revisions, night flow, anchors and the balance stream (11). -/

namespace Sys2Proof.Machine

/-! ### Zones and entries (R301, R302) -/

def zone? (s : State) (z : Nat) : Option Zone := tfind s.bal.zones z

def updZone (z : Nat) (f : Zone → Zone) (s : State) : State :=
  match tfind s.bal.zones z with
  | none => s
  | some x => { s with bal.zones := tset s.bal.zones z (f x) }

def hasHandle (ms : List Meter) (h : Nat) : Bool := ms.any (fun m => m.handle == h)

/-- The zone of which the endpoint is a member. -/
def memberZone (s : State) (h : Nat) : Option Nat := (s.bal.zones.find? (fun e => hasHandle e.2.members h)).map (fun e => e.1)

/-- The zone of which the endpoint is a check meter. -/
def checkZone (s : State) (h : Nat) : Option Nat := (s.bal.zones.find? (fun e => hasHandle e.2.checks h)).map (fun e => e.1)

/-- The home zone (R302). -/
def homeZone (s : State) (h : Nat) : Option Nat :=
  match memberZone s h with
  | some z => some z
  | none => checkZone s h

/-- Zones in which an entry reads slot sl of the endpoint. -/
def entryZones (s : State) (h sl : Nat) : List Nat :=
  (s.bal.zones.filter (fun e => (e.2.members ++ e.2.checks).any (fun m => m.handle == h && m.slot == sl))).map (fun e => e.1)

/-! ### Boundary values (R304 to R306) -/

def bndKey (h sl : Nat) : Nat := 4 * h + sl

def bnd (s : State) (h sl b : Nat) : Bnd := tget (tget s.bal.bnds (bndKey h sl) []) (b / 900) {}

def setBnd (h sl b : Nat) (v : Bnd) (s : State) : State :=
  { s with bal.bnds := tupd s.bal.bnds (bndKey h sl) [] (fun t => tset t (b / 900) v) }

/-- The horizon at an engine second (R306). -/
def horizonAt (t : Nat) : Nat := t / 900 * 900 - 86400

/-- 900 s boundaries in (a, b], none before lo. -/
def boundaries (a b lo : Nat) : List Nat :=
  let first := max (a / 900 + 1) ((lo + 899) / 900)
  (List.range (b / 900 + 1 - first)).map (fun k => 900 * (first + k))

/-- Amount that an interpolation gives over part of a span, modulo 2^40. -/
def interp (k0 k1 : BitVec 40) (part span : Nat) : Nat := if span = 0 then 0 else (k1 - k0).toNat * part / span

def addAged (z h amount start : Nat) (s : State) : State :=
  updZone z (fun x =>
    let a := x.aged.getD { start := start, first := s.mono }
    { x with aged := some { a with start := min a.start start,
                                   amounts := if amount = 0 then a.amounts else a.amounts ++ [(h, amount)] } }) s

def addAgedReading (z start : Nat) (s : State) : State :=
  updZone z (fun x =>
    let a := x.aged.getD { start := start, first := s.mono }
    { x with aged := some { a with start := min a.start start, readings := a.readings + 1 } }) s

/-- An amount over [a, a + l), when both its boundaries are known (R304). -/
def amountOf (s : State) (m : Meter) (a l : Nat) : Option Nat :=
  match (bnd s m.handle m.slot a).val, (bnd s m.handle m.slot (a + l)).val with
  | some x, some y => some (y - x).toNat
  | _, _ => none

/-- Starts of the posted intervals of a zone at or after the horizon. -/
def postedStarts (x : Zone) (horizon : Nat) : List Nat :=
  let first := (horizon + x.len - 1) / x.len
  (List.range (x.lastEnd / x.len - first)).map (fun k => x.len * (first + k))

def ival (x : Zone) (a : Nat) : Ival := tget x.ivals a {}

def updIval (a : Nat) (f : Ival → Ival) (x : Zone) : Zone := { x with ivals := tupd x.ivals a {} f }

/-- A late contribution: an amount of a posted interval has become known (R312). -/
def noteLate (z : Nat) (h : Nat) (a : Nat) (s : State) : State :=
  updZone z (updIval a (fun i =>
    { i with changedAt := some (i.changedAt.getD s.mono), changed := if i.changed.contains h then i.changed else i.changed ++ [h] })) s

/-- Posted intervals whose amount for the entry is unknown now. -/
def unknownPosted (s : State) (z h sl : Nat) : List Nat :=
  match zone? s z with
  | none => []
  | some x =>
    match (x.members ++ x.checks).find? (fun m => m.handle == h && m.slot == sl) with
    | none => []
    | some m => (postedStarts x s.bal.horizon).filter (fun a => (amountOf s m a x.len).isNone)

/-- Note what a change of boundaries has made known in posted intervals. -/
def noteKnown (before : List (Nat × List Nat)) (h sl : Nat) (s : State) : State :=
  before.foldl (fun s e =>
    let still := unknownPosted s e.1 h sl
    (e.2.filter (fun a => !still.contains a)).foldl (fun s a => noteLate e.1 h a s) s) s

/-- Set the boundaries of (t0, t1] by interpolation (R304); what falls before the horizon goes to the AGED revision (R306). Boundaries that
`keep` protects stay. -/
def setSpan (h sl t0 t1 : Nat) (k0 k1 : BitVec 40) (rebuilt held : Bool) (keep : Bnd → Bool) (s : State) : State :=
  let hz := s.bal.horizon
  let zs := entryZones s h sl
  let before := zs.map (fun z => (z, unknownPosted s z h sl))
  let below := !(boundaries t0 (min t1 (hz - 1)) 0).isEmpty && t0 < hz
  let s1 := if below then
      match zs with
      | z :: _ =>
        let home := match homeZone s h with
          | some y => if zs.contains y then y else z
          | none => z
        addAged home h (interp k0 k1 (min hz t1 - t0) (t1 - t0)) t0 s
      | [] => s
    else s
  let s2 := (boundaries t0 t1 hz).foldl (fun s b =>
    if keep (bnd s h sl b) then s
    else setBnd h sl b { val := some (k0 + BitVec.ofNat 40 (interp k0 k1 (b - t0) (t1 - t0))), rebuilt := rebuilt, held := held } s) s1
  noteKnown before h sl s2

/-- Set the boundaries of (t0, t1] to unknown with GAP (R305). -/
def gapSpan (h sl t0 t1 : Nat) (s : State) : State :=
  (boundaries t0 t1 s.bal.horizon).foldl (fun s b => setBnd h sl b { gap := true } s) s

/-- Bring the horizon to the current engine second (R306): boundaries that it passes leave, and pending changes of the intervals that fall
below it move to the AGED revision (R312). -/
def bringHorizon (s : State) : State :=
  let hz := horizonAt (secs s)
  if hz = s.bal.horizon then s
  else
    let gone := fun (x : Zone) => x.ivals.filter (fun e => e.1 < hz && (e.2.readings != 0 || !e.2.changed.isEmpty) && e.1 + x.len ≤ x.lastEnd)
    let s1 := s.bal.zones.foldl (fun s e =>
      (gone e.2).foldl (fun s i =>
        let s1 := (List.range i.2.readings).foldl (fun s _ => addAgedReading e.1 i.1 s) s
        i.2.changed.foldl (fun s h =>
          match (e.2.members ++ e.2.checks).find? (fun m => m.handle == h) with
          | some m => addAged e.1 h ((amountOf s m i.1 e.2.len).getD 0) i.1 s
          | none => s) s1) s) s
    { s1 with bal.horizon := hz,
              bal.bnds := (tmap s1.bal.bnds (fun _ t => t.filter (fun e => hz ≤ 900 * e.1))).filter (fun e => !e.2.isEmpty),
              bal.zones := tmap s1.bal.zones (fun _ x =>
                { x with ivals := x.ivals.filter (fun e => hz ≤ e.1 || x.lastEnd < e.1 + x.len) }) }

/-! ### Commit of a reading (R304, R305, R307) -/

/-- A committed reading moves the boundaries of its slot; action as in the journal, K0 and K1 the counter before and after. -/
def balReading (h sl t0 t1 action : Nat) (trust neg : Bool) (k0 k1 : BitVec 40) (s : State) : State :=
  let zs := entryZones s h sl
  if zs.isEmpty then s
  else
    let s0 := bringHorizon s
    let s1 :=
      if action = 3 || action = 5 then s0
      else if !trust || action = 4 || action = 6 then gapSpan h sl t0 t1 s0
      else if t0 < t1 then setSpan h sl t0 t1 k0 k1 false (action == 2) (fun _ => false) s0
      else s0
    if neg then
      zs.foldl (fun s z => updZone z (fun x =>
        let first := max t0 s.bal.horizon / x.len
        let last := (t1 - 1) / x.len
        (List.range (last + 1 - first)).foldl (fun x k =>
          updIval (x.len * (first + k)) (fun i => { i with reverse := if i.reverse.contains h then i.reverse else i.reverse ++ [h] }) x) x) s) s1
    else s1

/-- A committed entry in the interval of its home zone, the horizon being up to date (R307). -/
def placeIn (h t : Nat) (trust tamper : Bool) (s : State) : State :=
  match homeZone s h with
  | none =>
    let t' := if trust then t else secs s
    { s with bal.unzoned := tupd s.bal.unzoned (t' / 900 * 900) 0 (· + 1) }
  | some z =>
    if !trust then updZone z (fun x => { x with untrusted := x.untrusted + 1 }) s
    else
      match zone? s z with
      | none => s
      | some x =>
        let a := t / x.len * x.len
        let posted := decide (a + x.len ≤ x.lastEnd)
        if posted && a < s.bal.horizon then addAgedReading z t s
        else
          updZone z (updIval a (fun i =>
            { i with readings := i.readings + 1,
                     changedAt := if posted then some (i.changedAt.getD s.mono) else i.changedAt,
                     tamper := if tamper && !i.tamper.contains h then i.tamper ++ [h] else i.tamper })) s

/-- Place a committed entry once (R307): t is its reading time, or the frame's end second. -/
def place_ (h t : Nat) (trust tamper : Bool) (s : State) : State := placeIn h t trust tamper (bringHorizon s)

/-! ### Records (R309, R316) -/

/-- Append a record: BALSEQ goes up by one, and the record is held until confirmed. -/
def postRec (r : BalRec) (s : State) : State :=
  { s with bal.seq := s.bal.seq + 1, bal.held := s.bal.held ++ [{ r with seq := s.bal.seq + 1 }] }

def signed (m : Meter) (n : Nat) : Int := if m.neg then -(n : Int) else n

/-- C, or M: the sum of the known amounts. -/
def sumKnown (s : State) (ms : List Meter) (a l : Nat) : Int :=
  (ms.map (fun m => match amountOf s m a l with
    | some n => signed m n
    | none => 0)).sum

def knownCount (s : State) (ms : List Meter) (a l : Nat) : Nat := (ms.filter (fun m => (amountOf s m a l).isSome)).length

/-- T (R309). -/
def tolerance (x : Zone) (c : Int) : Nat :=
  min (2 ^ 63 - 1) (x.tolF + x.tolP * c.natAbs / 1000000 + x.tolQ * (c.natAbs * c.natAbs) / 1000000000000)

/-- Status of an interval (Table 11-3), DROPPED apart. -/
def ivalStatus (s : State) (x : Zone) (a : Nat) : Nat :=
  let c := sumKnown s x.checks a x.len
  let m := sumKnown s x.members a x.len
  let cover := if x.members.isEmpty then 1000 else knownCount s x.members a x.len * 1000 / x.members.length
  if knownCount s x.checks a x.len != x.checks.length then 3
  else if cover < x.minCover then 2
  else if tolerance x c < (c - m).natAbs then 1
  else 0

/-- The flags of an entry over an interval (Table 11-4), LATE given. -/
def entryFlags (s : State) (x : Zone) (m : Meter) (a : Nat) (late : Bool) : Nat :=
  let i := ival x a
  let b0 := bnd s m.handle m.slot a
  let b1 := bnd s m.handle m.slot (a + x.len)
  b2n (amountOf s m a x.len).isSome + 2 * b2n b1.val.isSome + 4 * b2n (i.reverse.contains m.handle)
    + 8 * b2n (x.zeroRun != 0 && x.zeroRun ≤ m.zeroRun) + 16 * b2n (i.tamper.contains m.handle)
    + 32 * b2n (b0.held || b1.held) + 64 * b2n ((b0.gap && b0.val.isNone) || (b1.gap && b1.val.isNone))
    + 128 * b2n (b0.rebuilt || b1.rebuilt) + 256 * b2n late

def entryOf (s : State) (x : Zone) (check : Bool) (late : Bool) (a : Nat) (m : Meter) : Nat × Nat × Nat :=
  (m.handle + 2 ^ 20 * b2n check + 2 ^ 21 * entryFlags s x m a late,
   ((bnd s m.handle m.slot (a + x.len)).val.getD 0).toNat, (amountOf s m a x.len).getD 0)

/-- The record of an interval as everything known now makes it. -/
def ivalRec (s : State) (z : Nat) (x : Zone) (a rtype status revision readings : Nat) (rerun : Bool) (entries : List (Nat × Nat × Nat)) :
    BalRec :=
  let c := sumKnown s x.checks a x.len
  let m := sumKnown s x.members a x.len
  { seq := 0, rtype := rtype, status := status, zone := z, start := a, stop := a + x.len, c := c, m := m, delta := c - m,
    t := tolerance x c, score := x.score, known := knownCount s x.members a x.len, nmem := x.members.length,
    flags := b2n (entries.any (fun e => bit e.1 28)) + 2 * b2n rerun, revision := revision, readings := readings, entries := entries }

/-! ### Close (R308 to R311, R314) -/

/-- S after a close with status IN or OUT (R310). -/
def scoreAfter (st : State) (x : Zone) (a : Nat) : Nat :=
  let c := sumKnown st x.checks a x.len
  let m := sumKnown st x.members a x.len
  let t := tolerance x c
  let e := (c - m).natAbs - t
  min 65535 (x.score - x.score * pval st 0x6000 / 256 + min (pval st 0x6001) (256 * e / max t 1))

/-- The peer condition of ZERO (Table 11-4). -/
def peerCondition (s : State) (x : Zone) (a : Nat) : Bool :=
  let known := x.members.filterMap (fun m => amountOf s m a x.len)
  8 ≤ known.length && x.zeroPeer * known.length ≤ 1000 * (known.filter (· != 0)).length

/-- The latest known boundary at or before t and after the present anchor (R314). (DEDUCED: log 30) -/
def advanceAnchor (s : State) (t : Nat) (m : Meter) : Meter :=
  let bs := (boundaries m.anchorTime t s.bal.horizon).reverse
  match bs.find? (fun b => (bnd s m.handle m.slot b).val.isSome) with
  | none => m
  | some b => { m with anchorTime := b, anchorTotal := (bnd s m.handle m.slot b).val.getD 0, anchorLost := false }

/-- A member's run and anomaly state after a close; the flag says that event 0x62 is raised (R311). -/
def closeMember (s : State) (x : Zone) (a : Nat) (peer : Bool) (m : Meter) : Meter × Bool :=
  let run := if peer && amountOf s m a x.len == some 0 then m.zeroRun + 1 else 0
  let rev := (ival x a).reverse.contains m.handle
  let cause := (rev && !m.reversed) || (x.zeroRun != 0 && run == x.zeroRun)
  let quiet := match m.anom with
    | none => true
    | some n => 95 ≤ n
  let fire := cause && quiet
  ({ m with zeroRun := run, reversed := m.reversed || rev, anom := if fire then some 0 else m.anom.map (· + 1) }, fire)

/-- Offsets under which night windows are counted (R313). -/
def nightOffsets (s : State) (x : Zone) (t : Nat) : List (Nat × Int) :=
  if x.nightCal = 0xFF then [(0, 0)]
  else
    match versOf s x.nightCal with
    | [] => [(0, 0)]
    | vs => (inForce vs t).offsets

/-- The interval boundary w begins a night window: it is the first at or after a local NIGHT_START_MIN that is not skipped (R313).
(DEDUCED: log 29) -/
def nightStarts (s : State) (x : Zone) (w : Nat) : Bool :=
  let os := nightOffsets s x w
  let d := ((w : Int) + 60 * offsetAt os w) / 86400
  [d - 1, d, d + 1].any (fun day =>
    let l := 86400 * day + 60 * (x.nightStart : Int)
    let t := engineOf os l
    decide ((t : Int) + 60 * offsetAt os t = l) && (t + x.len - 1) / x.len * x.len == w)

def minIdx : List Int → Nat → Nat × Int → Nat × Int
  | [], _, best => best
  | v :: rest, i, best => minIdx rest (i + 1) (if v < best.2 then (i, v) else best)

/-- The NIGHT record when the last interval of a night window has closed (R313). -/
def nightClose (z stop : Nat) (s : State) : State :=
  match zone? s z with
  | none => s
  | some x =>
    let w := stop - 60 * x.nightLen
    if x.kind = 2 && x.nightLen != 0 && nightStarts s x w then
      let n := 60 * x.nightLen / x.len
      let cells := (List.range n).map (fun i => x.night.find? (fun e => e.1 == w + i * x.len))
      let flows := cells.map (fun c => match c with
        | some e => e.2.1 * 3600 / (x.len : Int)
        | none => 0)
      let bad := cells.any (fun c => match c with
        | some e => e.2.2
        | none => true)
      let best := minIdx (flows.drop 1) 1 (0, flows.headD 0)
      let allowed : Int := x.nightAllow * x.members.length
      let leak := best.2 - allowed
      let st := if bad then 2 else if (x.nightLimit : Int) < leak then 1 else 0
      raiseIf (st == 1) 0x61 (postRec
        { seq := 0, rtype := 3, status := st, zone := z, start := w, stop := stop, c := best.2, m := allowed, delta := leak,
          t := x.nightLimit, score := x.score, nmem := x.members.length, revision := best.1 } s)
    else s

/-- Post the INTERVAL record of [a, a + L) and do all that a close does; dropped closes post only the record. -/
def closeInterval (z a : Nat) (dropped : Bool) (s : State) : State :=
  match zone? s z with
  | none => s
  | some x0 =>
    let peer := peerCondition s x0 a
    let status := if dropped then 4 else ivalStatus s x0 a
    let moved := x0.members.map (closeMember s x0 a peer)
    let x1 := if dropped then x0 else { x0 with members := moved.map (fun m => m.1) }
    let score := if status ≤ 1 then scoreAfter s x1 a else x1.score
    let alert := decide (x1.score < x1.alert) && decide (x1.alert ≤ score)
    let x2 := { x1 with score := score }
    let entries := x2.checks.map (entryOf s x2 true false a) ++ x2.members.map (entryOf s x2 false false a)
    let r := ivalRec s z x2 a 1 status 0 (ival x2 a).readings false entries
    let c := sumKnown s x2.checks a x2.len
    let keep := 60 * x2.nightLen / x2.len
    let x3 := { updIval a (fun i => { i with posted := true, noCheck := status == 3, c := c, readings := 0, changedAt := none, changed := [] }) x2 with
      lastEnd := a + x2.len, postedEnd := a + x2.len, checks := x2.checks.map (advanceAnchor s (a + x2.len)),
      members := x2.members.map (advanceAnchor s (a + x2.len)),
      night := ((a, c, status == 3) :: x2.night).take keep }
    let s1 := postRec r { s with bal.zones := tset s.bal.zones z x3 }
    let s2 := raiseIf (alert && status ≤ 1) 0x60 s1
    let s3 := raiseIf (!dropped && moved.any (fun m => m.2)) 0x62 s2
    if dropped then s3 else nightClose z (a + x2.len) s3

/-- The closes whose instant has passed, in order of end and zone (R308, R315). -/
def nextDue (s : State) : Option (Nat × Nat) :=
  let due := s.bal.zones.filterMap (fun e =>
    let b := e.2.lastEnd + e.2.len
    if !e.2.lost && b + 60 * e.2.settleMin ≤ secs s then some (b, e.1) else none)
  due.foldl (fun best d => match best with
    | none => some d
    | some c => if d.1 < c.1 then some d else some c) none

/-- INTERVAL_CLOSE: the next interval of the zone, ending at stop, closes at stop + W, after those that are due before it (R308); never while time
is untrusted (R315) or the zone is LOST (R314). -/
def intervalClose (z stop : Nat) (s : State) : State :=
  match zone? s z with
  | none => s
  | some x =>
    if x.lost || !trusted s || stop != x.lastEnd + x.len then s
    else
      let s1 := bringHorizon (advTo (tSec (stop + 60 * x.settleMin)) s)
      if nextDue s1 == some (stop, z) then closeInterval z x.lastEnd false s1 else s

def closePassed : Nat → State → State
  | 0, s => s
  | fuel + 1, s =>
    match nextDue s with
    | none => s
    | some (b, z) =>
      match zone? s z with
      | none => s
      | some x => closePassed fuel (closeInterval z (b - x.len) false s)

/-- Closes that may be due in all. -/
def dueFuel (s : State) : Nat := (s.bal.zones.map (fun e => (secs s - e.2.lastEnd) / e.2.len + 1)).sum

/-- Time is trusted again: UNTRUSTED revisions are posted and passed closes take place (R312, R315). -/
def balTrustReturn (s : State) : State :=
  let s1 := s.bal.zones.foldl (fun s e =>
    if e.2.untrusted = 0 then s
    else updZone e.1 (fun x => { x with untrusted := 0 })
      (postRec { seq := 0, rtype := 5, status := 0, zone := e.1, start := 0, stop := 0, readings := e.2.untrusted } s)) s
  let s2 := bringHorizon s1
  closePassed (dueFuel s2) s2

/-! ### Revisions (R312) -/

/-- A member whose first REVERSE a revision shows, with whether event 0x62 is raised (R311). -/
def reviseMember (i : Ival) (m : Meter) : Meter × Bool :=
  let first := i.reverse.contains m.handle && i.changed.contains m.handle && !m.reversed
  let quiet := match m.anom with
    | none => true
    | some n => 95 ≤ n
  ({ m with reversed := m.reversed || first, anom := if first && quiet then some 0 else m.anom }, first && quiet)

/-- Post a revision of a posted interval. -/
def postRevision (z a : Nat) (rerun : Bool) (s : State) : State :=
  match zone? s z with
  | none => s
  | some x =>
    let i := ival x a
    let n := min 255 (i.revision + 1)
    let pick := fun (ms : List Meter) (check : Bool) => (ms.filter (fun m => i.changed.contains m.handle)).map (entryOf s x check true a)
    let r := ivalRec s z x a 2 (ivalStatus s x a) n i.readings rerun (pick x.checks true ++ pick x.members false)
    let moved := x.members.map (reviseMember i)
    raiseIf (moved.any (fun m => m.2)) 0x62
      (updZone z (fun x => updIval a (fun i => { i with revision := n, readings := 0, changedAt := none, changed := [] })
        { x with members := moved.map (fun m => m.1) }) (postRec r s))

/-- Flags of an AGED entry: its amount is known, and late; the rest are those of its value at H. (DESIGN CHOICE: log 155) -/
def agedFlags (b : Bnd) : Nat := 1 + 2 * b2n b.val.isSome + 32 * b2n b.held + 64 * b2n (b.gap && b.val.isNone) + 128 * b2n b.rebuilt + 256

/-- Post a zone's AGED revision. -/
def postAged (z : Nat) (s : State) : State :=
  match zone? s z with
  | none => s
  | some x =>
    match x.aged with
    | none => s
    | some a =>
      let hz := s.bal.horizon
      let entries := (x.checks.map (fun m => (true, m)) ++ x.members.map (fun m => (false, m))).filterMap (fun (check, m) =>
        let mine := a.amounts.filter (fun e => e.1 == m.handle)
        if mine.isEmpty then none
        else
          let end_ := bnd s m.handle m.slot hz
          some (m.handle + 2 ^ 20 * b2n check + 2 ^ 21 * agedFlags end_, (end_.val.getD 0).toNat,
                (mine.map (fun e => e.2)).sum % 2 ^ 40))
      updZone z (fun x => { x with aged := none })
        (postRec { seq := 0, rtype := 4, status := 0, zone := z, start := a.start, stop := hz, score := x.score, nmem := x.members.length,
                   flags := b2n (entries.any (fun e => bit e.1 28)), readings := a.readings, entries := entries } s)

/-- REVISION_POST: of an interval, or the AGED one, BAL_REVISION_S after its first change. -/
def revisionPost (z : Nat) (start : Option Nat) (s : State) : State :=
  match zone? s z with
  | none => s
  | some x =>
    let wait := tSec (pval s 0x6002)
    match start with
    | none =>
      match x.aged with
      | none => s
      | some a => postAged z (bringHorizon (advMono (a.first + wait) s))
    | some a =>
      match (ival x a).changedAt with
      | none => s
      | some t =>
        let s1 := bringHorizon (advMono (t + wait) s)
        if a < s1.bal.horizon then s1 else postRevision z a false s1

/-- UNZONED_POST (R307): of the 900 s interval that has just ended, or of an earlier one in which entries have been placed since. (DESIGN CHOICE:
log 155) -/
def unzonedPost (start : Nat) (s : State) : State :=
  if start % 900 != 0 || secs s < start then s
  else
    let s1 := advTo (tSec (start + 900)) s
    let regular := decide (s1.bal.unzonedEnd ≤ start) && decide (secs s1 < start + 1800)
    if regular || 0 < tget s1.bal.unzoned start 0 then
      postRec { seq := 0, rtype := 6, status := 5, zone := 0xFFFF, start := start, stop := start + 900,
                readings := tget s1.bal.unzoned start 0 }
        { s1 with bal.unzoned := tdel s1.bal.unzoned start, bal.unzonedEnd := if regular then start + 900 else s1.bal.unzonedEnd }
    else s

/-- HORIZON_ADVANCE: the next 900 s boundary is reached (R306). -/
def horizonAdvance (s : State) : State := bringHorizon (advTo (tSec ((secs s / 900 + 1) * 900)) s)

/-! ### Rebuild and loss (R314) -/

/-- Rebuild an entry's unknown boundaries from its anchor to the slot of the ledger image. -/
def rebuildEntry (m : Meter) (s : State) : State :=
  match tfind s.eps m.handle with
  | none => s
  | some e =>
    let t1 := (tget e.img.slots m.slot {}).time
    if m.anchorTime = 0 || m.anchorLost || t1 ≤ m.anchorTime then s
    else
      let free := fun (b : Bnd) => b.val.isSome || b.gap
      let s1 := if s.bal.horizon ≤ m.anchorTime && !free (bnd s m.handle m.slot m.anchorTime) then
          setBnd m.handle m.slot m.anchorTime { val := some m.anchorTotal, rebuilt := true } s
        else s
      setSpan m.handle m.slot m.anchorTime t1 m.anchorTotal (tget e.img.total m.slot 0) true false free s1

/-- The endpoint's ledger image has become valid, or its cells are lost: rebuild. -/
def rebuildEp (h : Nat) (s : State) : State :=
  let s0 := bringHorizon s
  let ms := (s0.bal.zones.map (fun e => (e.2.checks ++ e.2.members).filter (fun m => m.handle == h))).flatten
  ms.foldl (fun s m => rebuildEntry m s) s0

/-- An uncorrectable error loses an endpoint's interval cells (Table 08-7). -/
def loseCells (h : Nat) (s : State) : State :=
  rebuildEp h { s with bal.bnds := s.bal.bnds.filter (fun e => e.1 / 4 != h) }

/-- An uncorrectable error strikes the zone table: the zone is LOST, its entries' anchors with it; event 0x64. -/
def loseZone (z : Nat) (s : State) : State :=
  match zone? s z with
  | none => s
  | some _ =>
    let lose := fun (m : Meter) => { m with anchorLost := true }
    raise 0x64 (updZone z (fun x => { x with lost := true, checks := x.checks.map lose, members := x.members.map lose }) s)

/-- Endpoints whose ledger image a restore has made valid are rebuilt (R314). -/
def rebuildRestored (before after : State) : State :=
  let hs := after.eps.filterMap (fun (h, e) =>
    match tfind before.eps h with
    | some o => if (o.adm == .restoring && e.adm != .restoring) || (o.imgLost && !e.imgLost) then some h else none
    | none => none)
  hs.foldl (fun s h => rebuildEp h s) after

/-- RESTORE_PAGE_RECEIVE with the rebuild of its endpoints. -/
def restoreReceive (p : List Byte) (s : State) : State := rebuildRestored s (restorePage p s)

/-- LEDGER_RESTORE_START with the rebuild of endpoints that start from a page never confirmed. -/
def restoreStart (r : Req) (s : State) : Reply :=
  match ledgerRestoreStart r s with
  | .done s1 st p => .done (rebuildRestored s s1) st p
  | other => other

/-! ### ZONE_LOAD and the other opcodes -/

/-- KIND 1 entries of a profile, in order: entry k is slot k (09 R237). -/
def kind1 (s : State) (profile : Nat) : List QEntry :=
  ((List.range 16).map (qEntry s profile)).filter (fun q => q.kind == 1)

def meterAt (p : List Byte) (i : Nat) : Meter :=
  let o := 64 + 16 * i
  let w := rd p o 4
  { handle := bits w 19 0, slot := bits w 21 20, neg := bit w 22, anchorTime := rd p (o + 4) 4, anchorTotal := BitVec.ofNat 40 (rd p (o + 8) 5) }

/-- The entry breaks a rule of its own: ranges, enrolment, profile, R302. -/
def meterBad (s : State) (p : List Byte) (z unit lastClosed : Nat) (check : Bool) (i : Nat) : Bool :=
  let m := meterAt p i
  let o := 64 + 16 * i
  let elsewhere := if check then checkZone s m.handle else memberZone s m.handle
  bits (rd p o 4) 31 23 != 0 || !zeroAt p (o + 13) 3 || m.anchorTime % 900 != 0 || lastClosed < m.anchorTime
    || (match tfind s.eps m.handle with
        | none => true
        | some e => ((kind1 s e.profile)[m.slot]?).map (fun q => q.unit) != some unit)
    || (match elsewhere with
        | some y => y != z
        | none => false)

/-- The header's fields are in range (Table 11-1). -/
def zoneHeaderOk (p : List Byte) : Bool :=
  let len := 900 * 2 ^ rd p 3 1
  let night := rd p 34 2
  rd p 0 2 < 16384 && rd p 2 1 ≤ 4 && rd p 3 1 ≤ 2 && 1 ≤ rd p 4 2 && rd p 4 2 ≤ 720 && 1 ≤ rd p 6 1 && rd p 6 1 ≤ 3
    && zeroAt p 7 1 && rd p 8 2 ≤ 1000 && 1 ≤ rd p 10 2 && rd p 12 8 < 2 ^ 48 && rd p 20 4 ≤ 1000000 && rd p 28 1 ≤ 96
    && rd p 30 2 ≤ 1000 && rd p 32 2 ≤ 1439
    && (night == 0 || (60 ≤ night && night ≤ 480 && night % (len / 60) == 0))
    && (rd p 2 1 == 2 || (zeroAt p 29 1 && zeroAt p 32 16))
    && rd p 48 4 % len == 0 && 1 ≤ rd p 52 1 && rd p 52 1 ≤ 8 && zeroAt p 53 1 && rd p 54 2 ≤ 1024 && zeroAt p 56 8

/-- The zone that a payload describes; with no interval recorded before, the first open one contains the load (log 23). -/
def zoneOf (p : List Byte) (now : Nat) : Zone :=
  let len := 900 * 2 ^ rd p 3 1
  let nc := rd p 52 1
  { kind := rd p 2 1, len := len, settleMin := rd p 4 2, unit := rd p 6 1, minCover := rd p 8 2, alert := rd p 10 2,
    tolF := rd p 12 8, tolP := rd p 20 4, tolQ := rd p 24 4, zeroRun := rd p 28 1, nightCal := rd p 29 1, zeroPeer := rd p 30 2,
    nightStart := rd p 32 2, nightLen := rd p 34 2, nightAllow := rd p 36 4, nightLimit := rd p 40 8, lastClosed := rd p 48 4,
    checks := (List.range nc).map (meterAt p), members := (List.range (rd p 54 2)).map (fun i => meterAt p (nc + i)),
    lastEnd := if rd p 48 4 = 0 then now / len * len else rd p 48 4, postedEnd := rd p 48 4 }

/-- What a reload of a LOST zone keeps (R314). -/
def mergeLost (old new_ : Zone) : Zone :=
  let keep := fun (olds : List Meter) (m : Meter) =>
    match olds.find? (fun o => o.handle == m.handle) with
    | some o => if o.anchorLost then { m with zeroRun := o.zeroRun, anom := o.anom, reversed := o.reversed }
                else { o with slot := m.slot, neg := m.neg }
    | none => m
  { new_ with score := old.score, ivals := old.ivals, aged := old.aged, untrusted := old.untrusted, night := old.night,
              lastEnd := old.lastEnd, postedEnd := old.postedEnd, checks := new_.checks.map (keep old.checks), members := new_.members.map (keep old.members) }

/-- Member entries of every zone. -/
def memberEntries (s : State) : Nat := (s.bal.zones.map (fun e => e.2.members.length)).sum

/-- ZONE_LOAD (R301, R303). (DEDUCED: log 105) -/
def zoneLoad (r : Req) (s : State) : Reply :=
  let p := r.payload
  let z := rd p 0 2
  let nc := rd p 52 1
  let nm := rd p 54 2
  let handles := (List.range (nc + nm)).map (fun i => (meterAt p i).handle)
  let bad := fun (i : Nat) => meterBad s p z (rd p 6 1) (rd p 48 4) (decide (i < nc)) i
    || (handles.take i).contains (handles.getD i 0)
  if !zoneHeaderOk p then refuse s .badParam
  else
    match (List.range (nc + nm)).find? bad with
    | some i => refuse s .badParam (le 2 i ++ le 2 0)
    | none =>
      match zone? s z with
      | some old =>
        if !old.lost then refuse s .badState
        else if 1048576 < memberEntries s - old.members.length + nm then refuse s .noResource
        else replyOk { s with bal.zones := tset s.bal.zones z (mergeLost old (zoneOf p (secs s))) }
      | none =>
        if 1048576 < memberEntries s + nm then refuse s .noResource
        else replyOk (bringHorizon { s with bal.zones := tset s.bal.zones z (zoneOf p (secs s)) })

/-- ZONE_DROP (R303): the open intervals are posted as DROPPED. -/
def dropIntervals (z : Nat) : Nat → State → State
  | 0, s => s
  | fuel + 1, s =>
    match zone? s z with
    | none => s
    | some x => if x.lastEnd ≤ secs s then dropIntervals z fuel (closeInterval z x.lastEnd true s) else s

def openIntervals (s : State) (x : Zone) : Nat := if secs s < x.lastEnd then 0 else (secs s - x.lastEnd) / x.len + 1

def zoneDrop (r : Req) (s : State) : Reply :=
  let z := rd r.payload 0 2
  match zone? s z with
  | none => refuse s .badParam
  | some x =>
    if !zeroAt r.payload 2 2 then refuse s .badParam
    else
      let s1 := dropIntervals z (openIntervals s x) s
      replyOk { s1 with bal.zones := tdel s1.bal.zones z }

/-- ZONE_TOL_SET (R318). -/
def zoneTolSet (r : Req) (s : State) : Reply :=
  let p := r.payload
  let z := rd p 0 2
  if (zone? s z).isNone || rd p 2 2 = 0 || 2 ^ 48 ≤ rd p 4 8 || 1000000 < rd p 12 4 then refuse s .badParam
  else replyOk (updZone z (fun x => { x with alert := rd p 2 2, tolF := rd p 4 8, tolP := rd p 12 4, tolQ := rd p 16 4 }) s)

def intervalCode (len : Nat) : Nat := if len = 900 then 0 else if len = 1800 then 1 else 2

/-- A zone's header (Table 11-1). -/
def zoneHeader (z : Nat) (x : Zone) : List Byte :=
  le 2 z ++ le 1 x.kind ++ le 1 (intervalCode x.len) ++ le 2 x.settleMin ++ le 1 x.unit ++ le 1 0 ++ le 2 x.minCover ++ le 2 x.alert
    ++ le 8 x.tolF ++ le 4 x.tolP ++ le 4 x.tolQ ++ le 1 x.zeroRun ++ le 1 x.nightCal ++ le 2 x.zeroPeer ++ le 2 x.nightStart
    ++ le 2 x.nightLen ++ le 4 x.nightAllow ++ le 8 x.nightLimit ++ le 4 x.lastClosed ++ le 1 x.checks.length ++ le 1 0
    ++ le 2 x.members.length ++ le 8 0

/-- ZONE_GET (R318). -/
def zoneGet (r : Req) (s : State) : Reply :=
  let z := rd r.payload 0 2
  match zone? s z with
  | none => refuse s .badParam
  | some x =>
    if !zeroAt r.payload 2 2 then refuse s .badParam
    else replyOk s (zoneHeader z x ++ le 1 (b2n x.lost) ++ le 1 0 ++ le 2 x.score ++ le 2 (openIntervals s x) ++ le 2 0 ++ le 4 x.postedEnd)

/-- SCORE_RESET (R310). -/
def scoreReset (r : Req) (s : State) : Reply :=
  let z := rd r.payload 0 2
  if (zone? s z).isNone || !zeroAt r.payload 2 2 then refuse s .badParam else replyOk (updZone z (fun x => { x with score := 0 }) s)

/-- BAL_EXPORT_START (R316). -/
def balExportStart (r : Req) (s : State) : Reply :=
  let c := rd r.payload 0 1
  if !zeroAt r.payload 1 3 || 32 ≤ c then refuse s .badParam
  else if s.bal.chan.isSome then refuse s .badState
  else
    match bindCheck c s with
    | some st => refuse s st
    | none => replyOk (bindChan c .balance { s with bal.chan := some c })

def balLastWritten (s : State) : Nat := (s.bal.held.filter (·.once)).foldl (fun m r => max m r.seq) s.bal.conf

/-- BAL_CONFIRM: as R258. -/
def balConfirm (r : Req) (s : State) : Reply :=
  let n := rd r.payload 0 4
  if n ≤ s.bal.conf then replyOk s
  else if balLastWritten s < n then refuse s .badParam
  else
    let s1 := if (s.bal.held.find? (fun x => !x.written)).any (fun x => x.seq ≤ n) then streamAnew .balance { s with bal.offset := 0 } else s
    replyOk { s1 with bal.conf := n, bal.held := s1.bal.held.filter (fun x => n < x.seq) }

/-- BAL_REWIND: as R258. -/
def balRewind (r : Req) (s : State) : Reply :=
  let n := rd r.payload 0 4
  if n ≤ s.bal.conf || balLastWritten s < n then refuse s .badParam
  else replyOk { streamAnew .balance s with bal.offset := 0, bal.held := s.bal.held.map (fun x => if n ≤ x.seq then { x with written := false } else x) }

/-- START is a posted interval at or after H (R318). -/
def rerunOk (s : State) (z start : Nat) : Bool :=
  match zone? s z with
  | none => false
  | some x => start % x.len == 0 && start + x.len ≤ x.lastEnd && s.bal.horizon ≤ start

/-- Revisions pending: intervals with changes, AGED and UNTRUSTED ones. -/
def revisionsPending (s : State) : Nat :=
  (s.bal.zones.map (fun e => (e.2.ivals.filter (fun i => i.2.changedAt.isSome)).length + b2n e.2.aged.isSome
    + b2n (e.2.untrusted != 0))).sum

/-- BAL_STATUS_GET (R318). -/
def balStatus (s : State) : List Byte :=
  le 2 s.bal.zones.length ++ le 2 (s.bal.zones.filter (fun e => e.2.lost)).length ++ le 4 (memberEntries s) ++ le 4 s.bal.held.length
    ++ le 4 (revisionsPending s) ++ le 4 s.bal.seq ++ le 4 s.bal.conf

/-- A record's bytes (Table 11-6). -/
def balBytes (r : BalRec) : List Byte :=
  le 1 r.rtype ++ le 1 r.status ++ le 2 r.zone ++ le 4 r.seq ++ le 4 r.start ++ le 4 r.stop ++ leI 8 r.c ++ leI 8 r.m ++ leI 8 r.delta
    ++ le 8 r.t ++ le 2 r.score ++ le 2 r.known ++ le 2 r.nmem ++ le 1 r.flags ++ le 1 r.revision ++ le 4 r.readings
    ++ le 2 r.entries.length ++ le 2 0 ++ (r.entries.map (fun e => le 4 e.1 ++ le 5 e.2.1 ++ le 5 e.2.2 ++ le 2 0)).flatten

/-! ### Services -/

def zoneObj (r : Req) : List Obj := [.zone (rd r.payload 0 2)]

def zoneLoadService : Service :=
  { opcode := 0x0600, lenOk := fun p => 64 ≤ p.length && p.length == 64 + 16 * (rd p 52 1 + rd p 54 2),
    objs := fun r _ => zoneObj r, run := fun _ r s => zoneLoad r s }

def zoneDropService : Service :=
  { opcode := 0x0601, lenOk := lenIs 4, objs := fun r _ => zoneObj r, run := fun _ r s => zoneDrop r s }

def zoneTolSetService : Service :=
  { opcode := 0x0602, lenOk := lenIs 20, objs := fun r _ => zoneObj r, run := fun _ r s => zoneTolSet r s }

def zoneGetService : Service :=
  { opcode := 0x0603, lenOk := lenIs 4, objs := fun r _ => zoneObj r, run := fun _ r s => zoneGet r s }

def scoreResetService : Service :=
  { opcode := 0x0604, lenOk := lenIs 4, objs := fun r _ => zoneObj r, run := fun _ r s => scoreReset r s }

def balExportStartService : Service :=
  { opcode := 0x0605, lenOk := lenIs 4, ready := true, objs := fun r _ => [.channel (rd r.payload 0 1)], run := fun _ r s => balExportStart r s }

def balConfirmService : Service := { opcode := 0x0606, lenOk := lenIs 4, run := fun _ r s => balConfirm r s }

def balRewindService : Service := { opcode := 0x0607, lenOk := lenIs 4, run := fun _ r s => balRewind r s }

def ledgerRestoreStartService : Service :=
  { opcode := 0x0505, lenOk := lenIs 4, ready := true, acc := 2, objs := fun r _ => [.channel (rd r.payload 0 1)],
    run := fun _ r s => restoreStart r s }

def balStatusGetService : Service := { opcode := 0x0609, lenOk := payloadFree, run := fun _ _ s => replyOk s (balStatus s) }

/-! ### Meanings -/

def execIntervalClose (zone stop : Nat) (s : State) : Host.Outcome State Fault Refusal := .next (intervalClose zone stop s)

def execRevisionPost (zone : Nat) (start : Option Nat) (s : State) : Host.Outcome State Fault Refusal :=
  .next (revisionPost zone start s)

def execUnzonedPost (start : Nat) (s : State) : Host.Outcome State Fault Refusal := .next (unzonedPost start s)

def execHorizonAdvance (s : State) : Host.Outcome State Fault Refusal := .next (horizonAdvance s)

def execZoneLoad (r : Req) (s : State) : Host.Outcome State Fault Refusal := .next (serve zoneLoadService r s)

def execZoneDrop (r : Req) (s : State) : Host.Outcome State Fault Refusal := .next (serve zoneDropService r s)

def execZoneTolSet (r : Req) (s : State) : Host.Outcome State Fault Refusal := .next (serve zoneTolSetService r s)

def execZoneGet (r : Req) (s : State) : Host.Outcome State Fault Refusal := .next (serve zoneGetService r s)

def execScoreReset (r : Req) (s : State) : Host.Outcome State Fault Refusal := .next (serve scoreResetService r s)

def execBalExportStart (r : Req) (s : State) : Host.Outcome State Fault Refusal := .next (serve balExportStartService r s)

def execBalConfirm (r : Req) (s : State) : Host.Outcome State Fault Refusal := .next (serve balConfirmService r s)

def execBalRewind (r : Req) (s : State) : Host.Outcome State Fault Refusal := .next (serve balRewindService r s)

def execBalStatusGet (r : Req) (s : State) : Host.Outcome State Fault Refusal := .next (serve balStatusGetService r s)

def execRestorePageReceive (bytes : List Byte) (s : State) : Host.Outcome State Fault Refusal := .next (restoreReceive bytes s)

def execLedgerRestoreStart (r : Req) (s : State) : Host.Outcome State Fault Refusal :=
  .next (serve ledgerRestoreStartService r s)

end Sys2Proof.Machine
end

