-- ==== Sys2Proof/Machine/Backup.lean ====
section
/-! DEFINITION. The backup island: clock, write set, trim, alarms, PWRON, tamper and seal latches, the time opcodes, and the mirror block
(15, 20 R503 and R504). -/

namespace Sys2Proof.Machine

/-- The control firmware runs: the control island is out of reset. -/
def controlUp (s : State) : Bool := !(isl s 29).inReset

/-- Engine seconds by the calendar counters (R404). -/
def bkpSecs (s : State) : Nat := calSecs s.bkp.cal

/-! ### Clock (R399 to R404) -/

/-- PWRON returns high and OFF clears (R409). -/
def wake (s : State) : State := { s with bkp.pwron := true, bkp.pwrOff := false }

/-- A field of an alarm matches: masked, or equal. -/
def fieldMatch (reg : Word) (hi lo mask value : Nat) : Bool := bit reg.toNat mask || bits reg.toNat hi lo == value

/-- An alarm matches the new counter values (R408). -/
def alarmMatch (a : Alarm) (c : Calendar) : Bool :=
  a.ctrl.getLsbD 0 && fieldMatch a.time 5 0 6 c.sec && fieldMatch a.time 13 8 14 c.min && fieldMatch a.time 20 16 21 c.hour
    && fieldMatch a.time 28 24 29 c.day && fieldMatch a.date 3 0 4 c.month && fieldMatch a.date 10 8 11 c.wday

/-- The effect of alarm n at a roll-over of SEC. -/
def alarmTick (n : Nat) (s : State) : State :=
  let a := tget s.bkp.alarms n {}
  if alarmMatch a s.bkp.cal then
    let s1 := if n = 0 then { s with bkp.alm0 := true } else { s with bkp.alm1 := true }
    let s2 := if a.ctrl.getLsbD 1 then wake s1 else s1
    raiseIf (controlUp s) 0xC2 s2
  else s

/-- Engine time follows an RTC second edge: loaded at the first, then slewed or stepped (R404). -/
def secondEdge (s : State) : State :=
  let target := tSec (bkpSecs s)
  if !controlUp s then s
  else if !s.timeLoaded then { s with now := target, tickAt := target, timeLoaded := true }
  else
    let err : Int := (s.now : Int) - target
    if err.natAbs ≤ tUs 100 then
      let step : Int := min (max err (-838)) 838
      { s with now := (s.now - step).toNat, tickAt := target }
    else { s with now := target, tickAt := target }

/-- Cycles that a window of 2^20 counts under the trim in force (R403). -/
def windowCycles (s : State) : Nat := ((2 ^ 20 : Nat) + s.bkp.trimNow).toNat

/-- Time from one step of RTC_SUBSEC to the next: 32 counted cycles, those of the trim spread evenly (R403). (DESIGN CHOICE: log 158) -/
def tickTime (s : State) : Nat := 2 ^ 34 / windowCycles s

/-- One step of RTC_SUBSEC (R399): the counters, the trim window, and at a roll-over of SEC the alarms and engine time. -/
def rtcTick (s : State) : State :=
  let (cal, sec, ovf) := calTick s.bkp.cal
  let last := windowCycles s ≤ 32 * (s.bkp.winTick + 1)
  let s1 := advTo (s.tickAt + tickTime s) { s with tickAt := s.tickAt + tickTime s }
  let s2 := { s1 with bkp.cal := cal, bkp.ovf := s.bkp.ovf || ovf, bkp.winTick := if last then 0 else s.bkp.winTick + 1,
                      bkp.trimNow := if last then s.bkp.trim else s.bkp.trimNow }
  let s3 := if sec then secondEdge (alarmTick 1 (alarmTick 0 s2)) else s2
  noteTrust s3

/-- The calendar register of an index, in the order of Table 15-2. -/
def calField (c : Calendar) (reg : Nat) : Nat :=
  match reg with
  | 0 => c.subsec | 1 => c.sec | 2 => c.min | 3 => c.hour | 4 => c.day | 5 => c.month | 6 => c.year | _ => c.wday

/-- Write one calendar register of a set: the bits that the register has (Table 15-2). -/
def setCalField (c : Calendar) (reg v : Nat) : Calendar :=
  match reg with
  | 0 => { c with subsec := v % 2 ^ 10 } | 1 => { c with sec := v % 2 ^ 6 } | 2 => { c with min := v % 2 ^ 6 }
  | 3 => { c with hour := v % 2 ^ 5 } | 4 => { c with day := v % 2 ^ 5 } | 5 => { c with month := v % 2 ^ 4 }
  | 6 => { c with year := v % 2 ^ 12 } | _ => { c with wday := v % 2 ^ 3 }

/-- A firmware read of RTC_YEAR returns the shadow and releases it (R401). -/
def rtcYearRead (s : State) : State :=
  if !controlUp s then s
  else
    let c := match s.bkp.shadow with
      | some (c, _) => c
      | none => s.bkp.cal
    { s with bkp.lastRead := c.year, bkp.shadow := none }

/-- A firmware read of another calendar register: the first freezes a shadow (R401). Register 8 is RTC_STAT (R405). (DESIGN CHOICE: log 144) -/
def rtcRegRead (reg : Nat) (s : State) : State :=
  if !controlUp s || 9 ≤ reg then s
  else if reg = 8 then { s with bkp.lastRead := (rtcStat s.bkp).toNat }
  else if reg = 6 then rtcYearRead s
  else
    match s.bkp.shadow with
    | some (c, _) => { s with bkp.lastRead := calField c reg }
    | none => { s with bkp.lastRead := calField s.bkp.cal reg, bkp.shadow := some (s.bkp.cal, s.mono) }

/-- The read shadow is released 1 ms after its first read (R401). -/
def rtcShadowTimeout (s : State) : State :=
  match s.bkp.shadow with
  | none => s
  | some (_, t) =>
    let s1 := advMono (t + tMs 1) s
    { s1 with bkp.shadow := none, bkp.shadowTo := true }

/-- A valid write set is loaded at once: flags, prescaler and shadow (R402), and engine time with it (R404; log 24). -/
def loadCal (c : Calendar) (s : State) : State :=
  let t := tSec (calSecs c) + c.subsec * 2 ^ 14
  { s with bkp.cal := c, bkp.osf := false, bkp.rlf := false, bkp.ovf := false, bkp.shadow := none, bkp.writeSet := none,
           now := if s.timeLoaded then t else s.now, tickAt := if s.timeLoaded then t else s.tickAt }

/-- After a write of the time: trust, the transitions whose instants have passed, and the closes (R282, R283, R315). -/
def afterTime (wasTrusted : Bool) (s : State) : State :=
  let s1 := noteTrust s
  let ks := (s1.ledger.cals.filter (fun e => idxHeld s1 e.1)).map (fun e => e.1)
  let s2 := ks.foldl (fun s k => catchUp k (secs s) false s) s1
  if wasTrusted then
    let s3 := bringHorizon s2
    closePassed (dueFuel s3) s3
  else balTrustReturn s2

/-- A write set is committed, or refused with DATE_ERR (R402). -/
def commitSet (c : Calendar) (s : State) : State :=
  if calValid c then afterTime (trusted s) (loadCal c s)
  else { s with bkp.dateErr := true, bkp.writeSet := none }

/-- A firmware write of RTC_YEAR enters the year into the set, or into one it opens, and checks the whole set (R402). -/
def rtcYearWrite (v : Nat) (s : State) : State :=
  if !controlUp s then s
  else
    let c := match s.bkp.writeSet with
      | some (c, _) => c
      | none => s.bkp.cal
    commitSet (setCalField c 6 v) s

/-- A firmware write of RTC_STAT clears the W1C flags written as 1 (R405, R6); its other bits are read-only. -/
def rtcStatWrite (v : Nat) (s : State) : State :=
  let b := s.bkp
  { s with bkp := { b with
      dateErr := b.dateErr && !bit v 3, shadowTo := b.shadowTo && !bit v 4, alm0 := b.alm0 && !bit v 5, alm1 := b.alm1 && !bit v 6,
      wrTo := b.wrTo && !bit v 8 } }

/-- A firmware write of a register of the backup island: 0 to 7 are the calendar registers in the order of Table 15-2, 8 is RTC_STAT.
A write of a calendar register other than RTC_YEAR opens the write set or changes it (R402). (DESIGN CHOICE: log 144) -/
def rtcRegWrite (reg v : Nat) (s : State) : State :=
  if !controlUp s || 9 ≤ reg then s
  else if reg = 8 then rtcStatWrite v s
  else if reg = 6 then rtcYearWrite v s
  else
    match s.bkp.writeSet with
    | some (c, t) => { s with bkp.writeSet := some (setCalField c reg v, t) }
    | none => { s with bkp.writeSet := some (setCalField s.bkp.cal reg v, s.mono) }

/-- A write set not closed within 1 ms is discarded (R402). -/
def writeSetTimeout (s : State) : State :=
  match s.bkp.writeSet with
  | none => s
  | some (_, t) =>
    let s1 := advMono (t + tMs 1) s
    { s1 with bkp.writeSet := none, bkp.wrTo := true }

/-! ### Supply, retention, backup reset (R396, R397, R405) -/

def supplyToVbat (s : State) : State := { s with bkp.onVbat := true }

def supplyToMain (s : State) : State := { s with bkp.onVbat := false }

/-- LBV is measured once per 60 s: VBAT, in mV, below 2.20 V or above 2.30 V (R396). -/
def lbvMeasure (mv : Nat) (s0 : State) : State :=
  let s1 := roundAt s0.bkp.lbvAt 60 s0
  let s := { s1 with bkp.lbvAt := some s1.mono }
  if mv < 2200 then raiseIf (!s.bkp.lbv && controlUp s) 0xC1 { s with bkp.lbv := true }
  else if 2300 < mv then { s with bkp.lbv := false }
  else s

/-- The retention monitor fires: RLF and OSF (R396, R407). -/
def retentionLoss (s : State) : State := noteTrust { s with bkp.rlf := true, bkp.osf := true }

/-- The oscillator stops for more than 4 cycles: OSF (R405). -/
def oscStop (s : State) : State := noteTrust { s with bkp.osf := true }

/-- POR_BKP (R397). -/
def porBkp (s : State) : State := noteTrust { s with bkp := {} }

/-! ### Tamper and seal (R410 to R412) -/

/-- The LEGAL record and event of a tamper input, and the count now reported (R410, R412). -/
def tamperReport (i : Nat) (s : State) : State :=
  let t := tget s.bkp.tamp i {}
  raise 0xC3 (record rcTamper (le 4 i ++ le 2 t.count ++ le 4 t.first.toNat ++ le 4 t.last.toNat)
    { s with life.tampRep := tset s.life.tampRep i t.count })

/-- TAMPER_ACTIVATION: an enabled input has been active for FILT, after it had been inactive for FILT; or it has now been inactive for FILT.
(DEDUCED: log 117) -/
def tamperActivation (i : Nat) (high : Bool) (s : State) : State :=
  let cfg := tget s.bkp.tampCfg i 0
  let t := tget s.bkp.tamp i {}
  if 4 ≤ i || !cfg.getLsbD 0 || high == t.active then s
  else if !high then { s with bkp.tamp := tset s.bkp.tamp i { t with active := false } }
  else
    let now := BitVec.ofNat 32 (bkpSecs s)
    let untr := !trusted s
    let t1 : Tamper := { t with
      count := satAdd 65535 t.count 1, last := now, lastUntr := untr, active := true,
      first := if t.count = 0 then now else t.first, firstUntr := if t.count = 0 then untr else t.firstUntr }
    let s1 := { s with bkp.tamp := tset s.bkp.tamp i t1 }
    let s2 := if cfg.getLsbD 4 then wake s1 else s1
    if controlUp s then tamperReport i s2 else s2

/-- At a start, each input whose count differs from the count last reported (R412). -/
def reportTampers (s : State) : State :=
  (List.range 4).foldl (fun s i =>
    if (tget s.bkp.tamp i {}).count != tget s.life.tampRep i 0 then tamperReport i s else s) s

/-- SEAL has been high, or low, for 10 ms (R411); once the journal is replayed, R294 applies. -/
def sealChange (high : Bool) (s : State) : State :=
  if high = s.bkp.sealOpen then s
  else
    let now := BitVec.ofNat 32 (bkpSecs s)
    let s1 :=
      if high then
        { s with bkp.sealOpen := true, bkp.sealCount := s.bkp.sealCount + 1, bkp.sealLast := now,
                 bkp.sealFirst := if s.bkp.sealCount = 0 then now else s.bkp.sealFirst }
      else { s with bkp.sealOpen := false }
    if controlUp s && s.jnl.replayed then sealChanged false s1 else s1

/-- POWER_OFF's delay ends: PWRON goes low and OFF reads 1 (R409). -/
def pwronOff (s : State) : State :=
  match s.bkp.offAt with
  | none => s
  | some t =>
    let s1 := advMono t s
    { s1 with bkp.pwron := false, bkp.pwrOff := true, bkp.offAt := none }

/-! ### Time opcodes (R413) -/

/-- The calendar block of TIME_GET and TIME_SET. -/
def calBlock (c : Calendar) : List Byte :=
  le 2 c.year ++ le 1 c.month ++ le 1 c.day ++ le 1 c.hour ++ le 1 c.min ++ le 1 c.sec ++ le 1 c.wday ++ le 2 c.subsec ++ le 2 0

def readCalBlock (p : List Byte) : Calendar :=
  { year := rd p 0 2, month := rd p 2 1, day := rd p 3 1, hour := rd p 4 1, min := rd p 5 1, sec := rd p 6 1, wday := rd p 7 1,
    subsec := rd p 8 2 }

/-- TIME_GET (R413). -/
def timeGet (s : State) : Reply :=
  replyOk s (calBlock s.bkp.cal ++ le 8 s.now ++ le 4 (rtcStat s.bkp).toNat ++ le 1 (b2n (trusted s)) ++ le 3 0)

/-- TIME_SET (R282, R402, R413): the TIME_STEP entry and the new time go together. (DEDUCED: log 14) -/
def timeSet (r : Req) (s : State) : Reply :=
  let c := readCalBlock r.payload
  if s.bkp.shadow.isSome || s.bkp.writeSet.isSome then .wait s
  else if !zeroAt r.payload 10 2 then refuse s .badParam
  else if !calValid c then refuse { s with bkp.dateErr := true } .badParam
  else if !ledgerOk s then refuse s .badState
  else
    let was := trusted s
    let s1 := commitOne (ledgerEntry (.timeStep (secs s) (calSecs c) (!was))) s
    let s2 := loadCal c { s1 with timeLoaded := true }
    replyOk (afterTime was s2) (le 8 s.now ++ le 8 s2.now)

/-- TIME_TRIM_SET (R403). -/
def timeTrimSet (r : Req) (s : State) : Reply :=
  let v := rdI r.payload 0 2
  if v < -511 || 511 < v || !zeroAt r.payload 2 2 then refuse s .badParam else replyOk { s with bkp.trim := v }

/-- An unmasked field of an alarm lies in its range (R408; log 25). -/
def alarmFieldOk (reg hi lo mask a b : Nat) : Bool := bit reg mask || (a ≤ bits reg hi lo && bits reg hi lo ≤ b)

/-- The alarm's registers can be set (R408). -/
def alarmOk (time date ctrl : Nat) : Bool :=
  let day := bits time 28 24
  let month := bits date 3 0
  alarmFieldOk time 5 0 6 0 59 && alarmFieldOk time 13 8 14 0 59 && alarmFieldOk time 20 16 21 0 23 && alarmFieldOk time 28 24 29 1 31
    && alarmFieldOk date 3 0 4 1 12 && alarmFieldOk date 10 8 11 0 6
    && bits time 7 7 == 0 && bits time 15 15 == 0 && bits time 23 22 == 0 && bits time 31 30 == 0
    && bits date 7 5 == 0 && bits date 31 12 == 0 && bits ctrl 31 2 == 0
    && (bit time 29 || bit date 4 || day ≤ monthDays 2000 month)

/-- ALARM_SET (R408). -/
def alarmSet (r : Req) (s : State) : Reply :=
  let p := r.payload
  let n := rd p 0 1
  if 1 < n || !zeroAt p 1 3 || !alarmOk (rd p 4 4) (rd p 8 4) (rd p 12 4) then refuse s .badParam
  else
    let a : Alarm := { time := BitVec.ofNat 32 (rd p 4 4), date := BitVec.ofNat 32 (rd p 8 4), ctrl := BitVec.ofNat 32 (rd p 12 4) }
    replyOk { s with bkp.alarms := tset s.bkp.alarms n a }

/-- ALARM_GET (R413). -/
def alarmGet (r : Req) (s : State) : Reply :=
  let n := rd r.payload 0 1
  if 1 < n || !zeroAt r.payload 1 3 then refuse s .badParam
  else
    let a := tget s.bkp.alarms n {}
    replyOk s (le 4 a.time.toNat ++ le 4 a.date.toNat ++ le 4 a.ctrl.toNat ++ le 4 (rtcStat s.bkp).toNat)

/-- Something enabled can wake the appliance (R409). -/
def canWake (s : State) : Bool :=
  [0, 1].any (fun n => let c := (tget s.bkp.alarms n {}).ctrl; c.getLsbD 0 && c.getLsbD 1)
    || (List.range 4).any (fun i => let c := tget s.bkp.tampCfg i 0; c.getLsbD 0 && c.getLsbD 4)

/-- POWER_OFF (R409). -/
def powerOff (s : State) : Reply :=
  if canWake s then replyOk { s with bkp.offAt := some (s.mono + tMs 10) } else refuse s .badState

/-- TAMPER_CFG_SET (R410); an input that it disables is no longer active. -/
def tamperCfgSet (r : Req) (s : State) : Reply :=
  let p := r.payload
  if (List.range 4).any (fun i => bits (rd p i 1) 7 5 != 0) then refuse s .badParam
  else
    replyOk { s with bkp.tampCfg := (List.range 4).map (fun i => (i, BitVec.ofNat 8 (rd p i 1))),
                     bkp.tamp := tmap s.bkp.tamp (fun i t => { t with active := t.active && bit (rd p i 1) 0 }) }

/-- One record of TAMPER_GET. -/
def tamperBytes (s : State) (i : Nat) : List Byte :=
  let t := tget s.bkp.tamp i {}
  le 2 t.count ++ le 1 (b2n t.active + 2 * b2n t.firstUntr + 4 * b2n t.lastUntr) ++ le 1 (tget s.bkp.tampCfg i 0).toNat
    ++ le 4 t.first.toNat ++ le 4 t.last.toNat

/-- TAMPER_GET (R413). -/
def tamperGet (s : State) : Reply :=
  replyOk s (((List.range 4).map (tamperBytes s)).flatten ++ le 1 (b2n s.bkp.sealOpen) ++ le 3 0 ++ le 4 s.bkp.sealCount.toNat
    ++ le 4 s.bkp.sealFirst.toNat ++ le 4 s.bkp.sealLast.toNat)

/-- TAMPER_CLEAR (R412). -/
def tamperClear (r : Req) (s : State) : Reply :=
  let mask := rd r.payload 0 1
  if bits mask 7 4 != 0 || !zeroAt r.payload 1 3 then refuse s .badParam
  else if mask = 0 then replyOk s
  else
    let is := (List.range 4).filter (bit mask)
    let held := (is.map (fun i => let t := tget s.bkp.tamp i {}; le 2 t.count ++ le 4 t.first.toNat ++ le 4 t.last.toNat)).flatten
    let s1 := is.foldl (fun s i =>
      { s with bkp.tamp := tupd s.bkp.tamp i {} (fun t => { t with count := 0, first := 0, last := 0, firstUntr := false, lastUntr := false }),
               life.tampRep := tset s.life.tampRep i 0 }) s
    replyOk (record rcTamperClear held s1)

/-! ### Mirror block (20 R503, R504) -/

/-- The copies follow the backup island while the control island is out of reset (R503). -/
def mirRefresh (s : State) : State :=
  if !controlUp s then { s with mir.stale := true }
  else
    let b := s.bkp
    { s with mir := { s.mir with
        cal := b.cal, stat := rtcStat b, recfStat := recfStat b, recfTime := b.recfTime, pwrOff := b.pwrOff,
        tampCnt := (List.range 4).map (fun i => (i, (tget b.tamp i {}).count)), sealOpen := b.sealOpen, sealCount := b.sealCount,
        stale := false } }

/-- The calendar that a host read returns: the host shadow's, or the copy's (R504). -/
def mirCal (s : State) : Calendar :=
  match s.mir.shadow with
  | some (c, _) => c
  | none => s.mir.cal

/-- A host read of RTC_YEAR returns the host shadow and releases it (R504). -/
def mirYearRead (s : State) : State :=
  if (isl s 33).inReset then s
  else { s with glb.lastRead := BitVec.ofNat 32 (mirCal s).year, mir.shadow := none }

/-- A host read of another calendar copy: the first freezes all eight (R504). -/
def mirCalRead (reg : Nat) (s : State) : State :=
  if (isl s 33).inReset || 8 ≤ reg then s
  else if reg = 6 then mirYearRead s
  else
    { s with glb.lastRead := BitVec.ofNat 32 (calField (mirCal s) reg),
             mir.shadow := if s.mir.shadow.isSome then s.mir.shadow else some (s.mir.cal, s.mono) }

/-- The host shadow is released 1 ms after its first read (R504). -/
def mirShadowTimeout (s : State) : State :=
  match s.mir.shadow with
  | none => s
  | some (_, t) =>
    let s1 := advMono (t + tMs 1) s
    { s1 with mir.shadow := none, mir.shadowTo := true }

/-! ### Services -/

def clockObj (_ : Req) (_ : State) : List Obj := [.clock]

def timeGetService : Service := { opcode := 0x0C00, lenOk := payloadFree, acc := 0, run := fun _ _ s => timeGet s }
def timeSetService : Service := { opcode := 0x0C01, lenOk := lenIs 12, acc := 0, objs := clockObj, run := fun _ r s => timeSet r s }
def timeTrimSetService : Service := { opcode := 0x0C02, lenOk := lenIs 4, acc := 0, objs := clockObj, run := fun _ r s => timeTrimSet r s }
def alarmSetService : Service := { opcode := 0x0C03, lenOk := lenIs 16, acc := 0, objs := clockObj, run := fun _ r s => alarmSet r s }
def alarmGetService : Service := { opcode := 0x0C04, lenOk := lenIs 4, acc := 0, run := fun _ r s => alarmGet r s }
def powerOffService : Service := { opcode := 0x0C05, lenOk := payloadFree, acc := 0, run := fun _ _ s => powerOff s }
def tamperCfgSetService : Service := { opcode := 0x0C06, lenOk := lenIs 4, acc := 0, run := fun _ r s => tamperCfgSet r s }
def tamperGetService : Service := { opcode := 0x0C07, lenOk := payloadFree, acc := 0, run := fun _ _ s => tamperGet s }
def tamperClearService : Service := { opcode := 0x0C08, lenOk := lenIs 4, acc := 0, run := fun _ r s => tamperClear r s }

/-! ### Meanings -/

def execRtcTick (s : State) : Host.Outcome State Fault Refusal := .next (rtcTick s)
def execRtcRegRead (reg : Nat) (s : State) : Host.Outcome State Fault Refusal := .next (rtcRegRead reg s)
def execRtcYearRead (s : State) : Host.Outcome State Fault Refusal := .next (rtcYearRead s)
def execRtcShadowTimeout (s : State) : Host.Outcome State Fault Refusal := .next (rtcShadowTimeout s)
def execRtcRegWrite (reg v : Nat) (s : State) : Host.Outcome State Fault Refusal := .next (rtcRegWrite reg v s)
def execRtcYearWrite (v : Nat) (s : State) : Host.Outcome State Fault Refusal := .next (rtcYearWrite v s)
def execWriteSetTimeout (s : State) : Host.Outcome State Fault Refusal := .next (writeSetTimeout s)
def execSupplyToVbat (s : State) : Host.Outcome State Fault Refusal := .next (supplyToVbat s)
def execSupplyToMain (s : State) : Host.Outcome State Fault Refusal := .next (supplyToMain s)
def execLbvMeasure (volts mv : Nat) (s : State) : Host.Outcome State Fault Refusal := .next (lbvMeasure (1000 * volts + mv) s)
def execRetentionLoss (s : State) : Host.Outcome State Fault Refusal := .next (retentionLoss s)
def execOscStop (s : State) : Host.Outcome State Fault Refusal := .next (oscStop s)
def execPorBkp (s : State) : Host.Outcome State Fault Refusal := .next (porBkp s)
def execTamperActivation (verdict : TamperIn) (s : State) : Host.Outcome State Fault Refusal :=
  .next (tamperActivation verdict.input verdict.active s)
def execSealChange (high : Bool) (s : State) : Host.Outcome State Fault Refusal := .next (sealChange high s)
def execPwronOff (s : State) : Host.Outcome State Fault Refusal := .next (pwronOff s)
def execTimeGet (r : Req) (s : State) : Host.Outcome State Fault Refusal := .next (serve timeGetService r s)
def execTimeSet (r : Req) (s : State) : Host.Outcome State Fault Refusal := .next (serve timeSetService r s)
def execTimeTrimSet (r : Req) (s : State) : Host.Outcome State Fault Refusal := .next (serve timeTrimSetService r s)
def execAlarmSet (r : Req) (s : State) : Host.Outcome State Fault Refusal := .next (serve alarmSetService r s)
def execAlarmGet (r : Req) (s : State) : Host.Outcome State Fault Refusal := .next (serve alarmGetService r s)
def execPowerOff (r : Req) (s : State) : Host.Outcome State Fault Refusal := .next (serve powerOffService r s)
def execTamperCfgSet (r : Req) (s : State) : Host.Outcome State Fault Refusal := .next (serve tamperCfgSetService r s)
def execTamperGet (r : Req) (s : State) : Host.Outcome State Fault Refusal := .next (serve tamperGetService r s)
def execTamperClear (r : Req) (s : State) : Host.Outcome State Fault Refusal := .next (serve tamperClearService r s)
def execMirRefresh (s : State) : Host.Outcome State Fault Refusal := .next (mirRefresh s)
def execMirCalRead (reg : Nat) (s : State) : Host.Outcome State Fault Refusal := .next (mirCalRead reg s)
def execMirYearRead (s : State) : Host.Outcome State Fault Refusal := .next (mirYearRead s)
def execMirShadowTimeout (s : State) : Host.Outcome State Fault Refusal := .next (mirShadowTimeout s)

end Sys2Proof.Machine
end

