-- ==== Sys2Proof/Machine/Slate.lean ====
section
/-! DEFINITION. The Slate recorder: writing, token refill, checkpoints, start scan, scrub and its opcodes (14). -/

namespace Sys2Proof.Machine

/-- a is below b in the wrapping order of SEQ (R374). -/
def seqBelow (a b : Word) : Bool := let d := (b - a).toNat; 1 ≤ d && d ≤ 2 ^ 31

/-- Blocks of the region now written: the ring (R378) or the spare region (R389). -/
def regionBlocks (s : State) : Nat := if s.slateNv.state == .normal then 16368 else 128

/-- Repair-ledger object of a retired block: ring blocks by index, spare blocks from 16 368 on (log 7). -/
def retiredObj (s : State) (b : Nat) : Nat := if s.slateNv.state == .normal then b else 16368 + b

def isRetired (s : State) (b : Nat) : Bool := inRepair s 6 (retiredObj s b)

/-- Retired blocks of the region now written. -/
def retiredCount (s : State) : Nat :=
  (s.life.repair.filter (fun e => e.typ == 6 && ((e.obj.toNat < 16368) == (s.slateNv.state == .normal)))).length

/-- First block, from the one at pos on, in which a record of n bytes would touch a retired block. -/
def firstBadBlock (s : State) (pos n : Nat) : Option Nat :=
  ((List.range ((pos + n - 1) / 512 + 1 - pos / 512)).map (fun i => pos / 512 + i)).find? (isRetired s)

/-- Where a record of n bytes goes: no retired block, not across the end (R378). -/
def placeFrom (s : State) (n : Nat) : Nat → Nat → Nat
  | 0, pos => pos
  | fuel + 1, pos =>
    if 512 * regionBlocks s < pos + n then placeFrom s n fuel 0
    else
      match firstBadBlock s pos n with
      | some b => placeFrom s n fuel (512 * (b + 1))
      | none => pos

def place (s : State) (n : Nat) : Nat := placeFrom s n (regionBlocks s + 2) s.slateNv.wrOff

/-- The byte lies in the range that starts at a and wraps to end before b. -/
def inWrap (a b x : Nat) : Bool := if a ≤ b then a ≤ x && x < b else a ≤ x || x < b

/-- The record has a byte in the range that the writer passes over. -/
def hitBy (a b : Nat) (r : SRec) : Bool :=
  inWrap a b r.off || (decide (r.off < a) && a < r.off + recBytes r)

/-- Drop the oldest records through the last one that the writer runs over (R378). -/
def dropHit (a b : Nat) (rs : List SRec) : List SRec :=
  (rs.reverse.takeWhile (fun r => !hitBy a b r)).reverse

/-- The header, stamp and payload of a record (R372). -/
def recBody (code cls : Nat) (spare trust : Bool) (seq : Word) (stamp : DWord) (payload : List Byte) : List Byte :=
  le 1 ((16 + payload.length) / 8) ++ le 2 (code + 1024 * cls + 8192 * b2n spare + 16384 * b2n trust) ++ le 1 1
    ++ le 4 seq.toNat ++ le 8 stamp.toNat ++ payload

/-- CHECK: the CRC-32, complemented for a privileged record (R373). -/
def recCheck (code : Nat) (bodySupp : List Byte) : Word :=
  if privileged code then ~~~(crc32 bodySupp) else crc32 bodySupp

/-- A record as it is delivered (Table 14-3): one that cannot be read stands as SLATE_LOST with its SEQ (R383). -/
def srecBytes (r : SRec) : List Byte :=
  if r.lost then
    let b := recBody 1 0 false false r.seq 0 [] ++ le 4 0
    b ++ le 4 (recCheck 1 b).toNat
  else
    let b := recBody r.code (codeClass r.code) r.spare r.trust r.seq r.stamp r.payload ++ le 4 r.supp
    b ++ le 4 (recCheck r.code b).toNat

/-- SLATE_TAIL_SEQ: the oldest record held whole, or the SEQ the next record written takes. -/
def writtenHead (s : State) : Word :=
  match s.slate.queue with
  | r :: _ => r.seq
  | [] => s.slate.head

def slateTail (s : State) : Word :=
  match s.slateNv.ring with
  | r :: _ => r.seq
  | [] => writtenHead s

/-- Privileged records that waited are admitted while they fit (R376). -/
def admitWaiting : Nat → State → State
  | 0, s => s
  | n + 1, s =>
    match s.slate.waiting with
    | [] => s
    | (code, payload) :: rest =>
      if queueBytes s.slate.queue + 24 + (padTo 8 payload).length ≤ 24576 then
        admitWaiting n (recAdmit code payload { s with slate.waiting := rest })
      else s

/-- The recorder's memory fails with a cause of Table 14-6 (R389, R390, R391). Privileged records still queued are admitted again in
the spare region; ordinary ones are lost with the ring (log 7). -/
def recorderFail (cause : Nat) (s : State) : State :=
  let latch := { s with bkp.recf := true,
                        bkp.recfCause := if s.bkp.recf then s.bkp.recfCause else cause,
                        bkp.recfTime := if s.bkp.recf then s.bkp.recfTime else BitVec.ofNat 32 (secs s) }
  let endDump := fun (s : State) => match s.slate.dump with
    | none => s
    | some d => finishOp d.pendId .hwFault (le 4 s.slateNv.failSeq.toNat) (unbindChan d.chan { s with slate.dump := none })
  match s.slateNv.state with
  | .normal =>
    let kept := (s.slate.queue.filter (fun r => privileged r.code)).map (fun r => (r.code, r.payload))
    let retired := retiredCount s
    let s1 := addRepair 7 cause 0
      { latch with slateNv.state := .spare, slateNv.ring := [], slateNv.wrOff := 0, slateNv.badBlocks := [],
                   slateNv.failSeq := s.slate.head, slate.queue := [], slate.waiting := kept ++ s.slate.waiting,
                   slate.badRun := 0 }
    let s2 := recAdmit 0x1D0 (le 1 cause ++ le 1 0 ++ le 2 0 ++ le 4 retired) s1
    endDump (raise 0x90 (admitWaiting s2.slate.waiting.length s2))
  | .spare =>
    let lost := ((s.slate.queue.filter (fun r => privileged r.code)).length) + s.slate.waiting.length
    let s1 := addRepair 7 cause 1
      { latch with slateNv.state := .latchOnly, slateNv.ring := [], slate.queue := [], slate.waiting := [],
                   bkp.sparef := true, bkp.recfLost := satAdd 65535 s.bkp.recfLost lost }
    endDump (raise 0x91 s1)
  | .latchOnly => s

/-- The limits of R389: consecutive failed blocks and retired blocks. -/
def recorderLimit (s : State) : Option Nat :=
  match s.slateNv.state with
  | .normal => if 1024 < retiredCount s then some 1 else if 16 ≤ s.slate.badRun then some 2 else none
  | .spare => if 16 < retiredCount s then some 1 else if 4 ≤ s.slate.badRun then some 2 else none
  | .latchOnly => none

/-- Retire a block: the repair ledger and SLATE_BLOCK_RETIRED (R387). Cause 1 a write, 2 the scrub. -/
def retireBlock (b cause : Nat) (s : State) : State :=
  recordNow 0x010 (le 4 b ++ le 1 cause ++ le 3 0) (addRepair 6 cause (retiredObj s b) s)

/-- Writes of the record at hand fail one after another, each at the byte of the record that is given: the block that holds it is retired
(R387, R389). -/
def failWrites (n : Nat) : List Nat → State → State
  | [], s => s
  | o :: k, s =>
    let b := (place s n + min o (n - 1)) / 512
    let s1 := retireBlock b 1 { s with slate.badRun := s.slate.badRun + 1 }
    match recorderLimit s1 with
    | some c => recorderFail c s1
    | none => failWrites n k s1

/-- Blocks with an uncorrectable word are retired as the writer reaches them (R388). -/
def retireReached (a b : Nat) (s : State) : State :=
  let reached := s.slateNv.badBlocks.filter (fun k => inWrap a b (512 * k) || k == b / 512)
  reached.foldl (fun s k => retireBlock k 2 s)
    { s with slateNv.badBlocks := s.slateNv.badBlocks.filter (fun k => !reached.contains k) }

/-- Put the oldest queued record into the region at its place. -/
def writeOldest (s : State) : State :=
  match s.slate.queue with
  | [] => s
  | r :: rest =>
    let n := recBytes r
    let s0 := retireReached s.slateNv.wrOff (place s n + n) s
    let off := place s0 n
    let kept := dropHit s0.slateNv.wrOff (off + n) s0.slateNv.ring
    { s0 with slateNv.ring := kept ++ [{ r with off := off, spare := s0.slateNv.state == .spare }],
              slateNv.wrOff := off + n, slate.queue := rest ++ s0.slate.queue.drop s.slate.queue.length,
              slate.badRun := 0 }

/-- The recorder can write. -/
def recorderRuns (s : State) : Bool := !(isl s 34).inReset && s.slate.opened && s.slateNv.state != .latchOnly

/-- The next queued record is written and read back; before that, its writes fail at the bytes given (R377, R387). (DEDUCED: log 116) -/
def recordWrite (failed : List Nat) (s : State) : State :=
  if !recorderRuns s then s
  else
    match s.slate.queue with
    | [] => admitWaiting s.slate.waiting.length s
    | r :: _ =>
      let s1 := failWrites (recBytes r) failed s
      if s1.slateNv.state == s.slateNv.state then
        let s2 := writeOldest s1
        match recorderLimit s2 with
        | some c => recorderFail c s2
        | none => admitWaiting s2.slate.waiting.length s2
      else s1

/-- A code's bucket gains one token at its refill instant (R380). -/
def tokenRefill (code : Nat) (s : State) : State :=
  let b := tget s.slate.buckets code {}
  let r := (slateRate s code).1
  match b.clock with
  | none => s
  | some (t0, g) =>
    if r = 0 || b.used = 0 || 512 ≤ code then s
    else
      let due := t0 + (g + 1) * tSec 60 / r
      let s1 := advMono due s
      let b1 := { b with used := b.used - 1, clock := if b.used = 1 then none else some (t0, g + 1) }
      { s1 with slate.buckets := tset s1.slate.buckets code b1 }

/-- Each second when the head has moved, one checkpoint copy is written; two failed attempts fail the ring (R386, R389). -/
def checkpointWrite (fails : Nat) (s : State) : State :=
  if recorderRuns s && s.slate.moved && s.slateNv.state == .normal then
    let s1 := advMono (s.slate.lastCkpt + tSec 1) s
    if 2 ≤ fails then recorderFail 3 s1
    else
      let tailOff := match s1.slateNv.ring with
        | r :: _ => r.off
        | [] => s1.slateNv.wrOff
      let ck : Ckpt := { valid := true, headSeq := writtenHead s1, headOff := s1.slateNv.wrOff, tailSeq := slateTail s1,
                         tailOff := tailOff, retired := retiredCount s1 }
      let s2 := if s1.slate.nextB then { s1 with slateNv.ckB := ck } else { s1 with slateNv.ckA := ck }
      { s2 with slate.nextB := !s1.slate.nextB, slate.moved := !s1.slate.queue.isEmpty, slate.lastCkpt := s1.mono }
  else s

/-- Records read forward from a checkpoint while each has the SEQ expected and is valid (R386). -/
def scanForward : Word → List SRec → List SRec
  | _, [] => []
  | h, r :: rest => if r.seq == h && !r.lost then r :: scanForward (h + 1) rest else []

/-- The latch set again from the repair ledger at a start (R391). -/
def relatch (s : State) : State :=
  match s.life.repair.filter (fun e => e.typ == 7) with
  | [] => s
  | e :: rest =>
    if s.bkp.recf then s
    else { s with bkp.recf := true, bkp.sparef := !rest.isEmpty, bkp.recfCause := e.cause, bkp.recfLost := 0,
                  bkp.recfTime := e.secs }

/-- The recorder opens with its head after the last record accepted: SLATE_OPEN comes first, then what waited (R386). -/
def openRecorder (head : Word) (scanned : Nat) (copyB : Bool) (s : State) : State :=
  let early := s.slate.early
  let s1 := { s with slate.opened := true, slate.early := [], slate.head := head, slate.nextB := !copyB,
                     slate.lastCkpt := s.mono }
  let s2 := recordNow 0x000 (le 4 head.toNat ++ le 4 scanned ++ le 2 0 ++ le 1 (b2n copyB) ++ le 5 0) s1
  early.foldl (fun s e => recordNow e.1 e.2 s) s2

/-- The start scan (R386, R390). -/
def startScan (s : State) : State :=
  if (isl s 34).inReset || s.slate.opened then s
  else
    let s0 := relatch s
    let a := s0.slateNv.ckA
    let b := s0.slateNv.ckB
    let ringHead := match s0.slateNv.ring.getLast? with
      | some r => r.seq + 1
      | none => s0.slateNv.failSeq
    match s0.slateNv.state with
    | .normal =>
      if !a.valid && !b.valid then
        let s1 := { s0 with slate.opened := true, slate.head := ringHead, slate.early := [] }
        let s2 := recorderFail 3 s1
        s0.slate.early.foldl (fun s e => recordNow e.1 e.2 s) s2
      else
        let useB := b.valid && (!a.valid || seqBelow a.headSeq b.headSeq)
        let ck := if useB then b else a
        let held := s0.slateNv.ring.filter (fun r => seqBelow r.seq ck.headSeq)
        let acc := scanForward ck.headSeq (s0.slateNv.ring.filter (fun r => !seqBelow r.seq ck.headSeq))
        let off := match acc.getLast? with
          | some r => r.off + recBytes r
          | none => ck.headOff
        openRecorder (ck.headSeq + BitVec.ofNat 32 acc.length) acc.length useB
          { s0 with slateNv.ring := held ++ acc, slateNv.wrOff := off }
    | _ => openRecorder ringHead 0 false s0

/-- ENVM_UE and event 0x93 for an uncorrectable word; in the ring its record is lost and its block is to be retired (R388). -/
def envmUe (area off : Nat) (s : State) : State :=
  let s1 := { s with slateNv.uncorrectable := s.slateNv.uncorrectable + 1 }
  let byte := 4 * off
  let s2 :=
    if area = 0 && 8192 ≤ byte then
      let p := byte - 8192
      { s1 with
          slateNv.ring := s1.slateNv.ring.map (fun r =>
            if s1.slateNv.state == .normal && r.off ≤ p && p < r.off + recBytes r then { r with lost := true } else r),
          slateNv.badBlocks := if s1.slateNv.state == .normal && !s1.slateNv.badBlocks.contains (p / 512)
            then s1.slateNv.badBlocks ++ [p / 512] else s1.slateNv.badBlocks }
    else s1
  raise 0x93 (record 0x018 (le 1 area ++ le 3 0 ++ le 4 off) s2)

/-- A slice of the eNVM scrub, while it holds its token (R388). (DEDUCED: log 114) -/
def envmScrub (res : EnvmScrubIn) (s : State) : State :=
  if s.maint.holders.contains .es then
    let s1 := { s with slateNv.corrected := s.slateNv.corrected + BitVec.ofNat 32 res.corrected }
    let s2 := res.ue.foldl (fun s e => envmUe e.1 e.2 s) s1
    if res.passEnds then
      { s2 with slateNv.scrubPasses := s2.slateNv.scrubPasses + 1, maint.holders := s2.maint.holders.filter (fun a => a != .es) }
    else s2
  else s

/-! ### Opcodes (Table 14-8) -/

/-- Records that fit a byte limit, oldest first. -/
def fitRecords : Nat → List SRec → List SRec
  | _, [] => []
  | lim, r :: rest =>
    let n := if r.lost then 24 else recBytes r
    if n ≤ lim then r :: fitRecords (lim - n) rest else []

/-- SLATE_READ (R384). -/
def slateRead (r : Req) (s : State) : Reply :=
  let p := r.payload
  let first := BitVec.ofNat 32 (rd p 0 4)
  let lim := rd p 4 2
  if lim < 1032 || 65520 < lim || !zeroAt p 6 2 then refuse s .badParam
  else
    let tail := slateTail s
    let from_ := if seqBelow first tail then tail else first
    let rs := fitRecords lim ((if s.slateNv.state == .latchOnly then [] else s.slateNv.ring).filter
      (fun x => !seqBelow x.seq from_))
    let lost := (rs.filter (fun x => x.lost)).length
    replyOk { s with slate.lostDelivered := s.slate.lostDelivered + BitVec.ofNat 32 lost }
      (le 4 s.slate.head.toNat ++ le 4 tail.toNat ++ le 2 rs.length ++ le 2 0 ++ (rs.map srecBytes).flatten)

/-- SLATE_DUMP (R385, R393). -/
def slateDump (id : Nat) (r : Req) (s : State) : Reply :=
  let p := r.payload
  let c := rd p 0 1
  let first := BitVec.ofNat 32 (rd p 4 4)
  let count := rd p 8 4
  let tail := slateTail s
  let from_ := if seqBelow first tail then tail else first
  if !zeroAt p 1 3 || 32 ≤ c then refuse s .badParam
  else if count = 0 then replyOk s (le 4 from_.toNat ++ le 4 0 ++ le 4 0)
  else if seqBelow s.slate.head first || (s.slate.head - first).toNat < count then refuse s .badParam
  else if s.slate.dump.isSome then refuse s .badState
  else
    match bindCheck c s with
    | some st => refuse s st
    | none =>
      if !seqBelow from_ (first + BitVec.ofNat 32 count) then replyOk s (le 4 from_.toNat ++ le 4 0 ++ le 4 0)
      else
      let d : Dump := { chan := c, pendId := id, next := from_, stop := first + BitVec.ofNat 32 count, first := from_ }
      .pend (bindChan c .slateDump { s with slate.dump := some d }) []

/-- SLATE_STATUS_GET (Table 14-9). -/
def slateStatus (s : State) : List Byte :=
  let x := s.slate
  le 4 x.head.toNat ++ le 4 (slateTail s).toNat ++ le 1 (recCode s.slateNv.state) ++ le 1 0 ++ le 2 (retiredCount s)
    ++ le 4 (512 * (regionBlocks s - retiredCount s)) ++ le 4 x.admitted.toNat ++ le 4 x.ordSupp.toNat
    ++ le 4 x.privSupp.toNat ++ le 2 ((x.peak + 63) / 64) ++ le 2 ((s.mono - x.lastCkpt) / 2 ^ 24)
    ++ le 4 x.lostDelivered.toNat ++ le 4 s.slateNv.scrubPasses.toNat ++ le 4 s.slateNv.corrected.toNat
    ++ le 4 s.slateNv.uncorrectable.toNat

/-- Name and largest payload of a code: those of Table 14-2, and those the firmware assigned (log 7). -/
def codeName (code : Nat) : String × Nat :=
  match code with
  | 0x000 => ("SLATE_OPEN", 16) | 0x001 => ("SLATE_LOST", 0) | 0x010 => ("SLATE_BLOCK_", 8) | 0x018 => ("ENVM_UE", 8)
  | 0x1D0 => ("RECORDER_FAI", 8) | 0x20 => ("RESET_CAUSE", 8) | 0x30 => ("MBX_ORPHAN", 16) | 0x31 => ("FENCE_CREDIT", 16)
  | 0x32 => ("PCIE_WIDTH", 8) | 0x33 => ("RESET_WDT", 8) | 0x34 => ("REFUSED", 16) | 0x38 => ("LINK_FAULT", 16)
  | 0x39 => ("STRAP", 8) | 0x3A => ("OPTIONS", 8) | 0x58 => ("TRAIN_FAIL", 16) | 0x40 => ("LANES_OFF", 8)
  | 0x3B => ("COMMIT", 8) | 0x48 => ("BEACON_MISS", 8) | 0x92 => ("RETIRED", 1000) | 0x15A => ("INSTALL", 8) | 0x1DA => ("PAGE_BAD", 8)
  | 0x90 => ("TALLY", 8) | 0x91 => ("TALLY_CLEAR", 24) | 0xB0 => ("DURABILITY", 8) | 0xB8 => ("JOURNAL_FAIL", 8) | 0x118 => ("ENTROPY", 8) | 0x119 => ("GEN_COUNTER", 8) | 0x158 => ("ACTIVE_BAD", 8)
  | 0x159 => ("FALLBACK", 8) | 0x178 => ("DDR_RANK", 8) | 0x160 => ("DMA_STOPPED", 16)
  | 0x161 => ("MEM_UE", 16) | 0x1A0 => ("C1_LAPSE", 8) | 0x1A1 => ("SAFETY", 8)
  | 0x1A2 => ("FEEDBACK", 24) | 0x1D1 => ("UNWARNED", 16) | 0x1D2 => ("TAMPER", 16) | 0x1D3 => ("TAMPER_CLR", 40)
  | 0x1D4 => ("SEAL", 16) | 0x1D5 => ("FW_CONFIRM", 136) | 0x1D6 => ("FW_FALLBACK", 8) | 0x1D7 => ("LIFECYCLE", 8)
  | 0x1D8 => ("RESTORE", 16) | 0x1D9 => ("PAGE_LOST", 16) | _ => ("", 0)

/-- One record of SLATE_CODE_GET. -/
def codeRecord (s : State) (code : Nat) : List Byte :=
  let b := tget s.slate.buckets code {}
  let (r, burst) := slateRate s code
  le 2 code ++ le 1 (codeClass code) ++ le 1 r ++ le 1 burst ++ le 1 (burst - b.used) ++ le 2 (codeName code).2
    ++ le 4 b.admitted.toNat ++ le 4 b.suppTotal.toNat ++ le 4 (min b.pendingCount (2 ^ 32 - 1)) ++ ascii 12 (codeName code).1

/-- SLATE_CODE_GET (R393). -/
def slateCodeGet (r : Req) (s : State) : Reply :=
  let first := rd r.payload 0 2
  let count := rd r.payload 2 2
  if 64 < count || 512 < first + count then refuse s .badParam
  else replyOk s (((List.range count).map (fun i => codeRecord s (first + i))).flatten)

/-- SLATE_RECF_CLEAR (R391). -/
def slateRecfClear (s : State) : Reply :=
  if lifecycle s != 1 then refuse s .badState
  else replyOk { s with bkp.recf := false, bkp.sparef := false, bkp.recfCause := 0, bkp.recfLost := 0, bkp.recfTime := 0 }

def slateReadService : Service := { opcode := 0x0900, lenOk := lenIs 8, acc := 0, run := fun _ r s => slateRead r s }

def slateDumpService : Service :=
  { opcode := 0x0901, lenOk := lenIs 12, acc := 0, ready := true, run := slateDump }

def slateStatusGetService : Service :=
  { opcode := 0x0902, lenOk := payloadFree, acc := 0, run := fun _ _ s => replyOk s (slateStatus s) }

def slateCodeGetService : Service := { opcode := 0x0903, lenOk := lenIs 4, acc := 0, run := fun _ r s => slateCodeGet r s }

def slateRecfClearService : Service := { opcode := 0x0904, lenOk := payloadFree, acc := 0, run := fun _ _ s => slateRecfClear s }

/-! ### Meanings -/

def execRecordWrite (failed : List Nat) (s : State) : Host.Outcome State Fault Refusal := .next (recordWrite failed s)

def execTokenRefill (code : Nat) (s : State) : Host.Outcome State Fault Refusal := .next (tokenRefill code s)

def execCheckpointWrite (fails : Nat) (s : State) : Host.Outcome State Fault Refusal := .next (checkpointWrite fails s)

def execEnvmScrub (res : EnvmScrubIn) (s : State) : Host.Outcome State Fault Refusal := .next (envmScrub res s)

def execSlateRead (r : Req) (s : State) : Host.Outcome State Fault Refusal := .next (serve slateReadService r s)

def execSlateDump (r : Req) (s : State) : Host.Outcome State Fault Refusal := .next (serve slateDumpService r s)

def execSlateStatusGet (r : Req) (s : State) : Host.Outcome State Fault Refusal := .next (serve slateStatusGetService r s)

def execSlateCodeGet (r : Req) (s : State) : Host.Outcome State Fault Refusal := .next (serve slateCodeGetService r s)

def execSlateRecfClear (r : Req) (s : State) : Host.Outcome State Fault Refusal := .next (serve slateRecfClearService r s)

end Sys2Proof.Machine
end

