-- ==== Sys2Proof/Machine/Dma.lean ====
section
/-! DEFINITION. Host memory: translation windows, DMA channels, descriptors and the streams that they carry (08 R223 to R234). -/

namespace Sys2Proof.Machine

/-! ### Bundles as they are written (R253, R254, R257; 10 R277) -/

/-- An export record (Table 09-6). -/
def expBytes (x : ExpRec) : List Byte :=
  le 8 x.addr.toNat ++ le 3 x.handle ++ le 1 x.rkind ++ le 4 x.fcnt ++ le 4 x.jseq ++ le 8 (tSec x.time) ++ leI 8 x.value
    ++ leI 8 x.delta ++ le 1 x.qty ++ le 1 x.action ++ le 1 x.checks.toNat ++ le 1 x.profile

/-- A statement (Table 10-6). -/
def stmtBytes (x : Stmt) : List Byte :=
  le 8 x.addr.toNat ++ le 3 x.handle ++ le 1 x.reason ++ le 4 x.pseq ++ le 4 x.pstart ++ le 4 x.close ++ le 1 x.cal
    ++ le 1 x.img.lflags.toNat ++ le 2 0 ++ le 4 x.version
    ++ ((List.range 16).map (fun k => le 5 (tget x.img.tou k 0))).flatten
    ++ ((List.range 4).map (fun k => le 4 (tget x.img.adj k 0))).flatten
    ++ ((List.range 4).map (fun k => le 5 (tget x.img.total k 0).toNat)).flatten
    ++ ((List.range 4).map (fun k => mdBytes (tget x.img.md k {}))).flatten
    ++ le 4 x.img.crSum.toNat ++ le 4 x.img.crLast ++ le 4 x.cseq ++ le 8 0

/-- The records of a bundle, each as its bytes, in order. -/
def bundleRecords (b : Bundle) : List (List Byte) :=
  if b.stmts.isEmpty then b.records.map expBytes else b.stmts.map stmtBytes

/-- The bundle's Merkle root: the leaf of a record is SHA-256(0x00 and the record) (R254). -/
def bundleRoot (b : Bundle) : List Byte := merkleRoot ((bundleRecords b).map (fun r => Config.sha256 (0 :: r)))

/-- FLAGS of the header: some record untrusted; written again after a start. -/
def bundleFlags (b : Bundle) : Nat := b2n (b.records.any (fun r => r.checks.getLsbD 6)) + 2 * b2n b.rebuilt

/-- Header bytes 0 to 71, over which the signature is made (Table 09-7). -/
def bundleHeader (b : Bundle) : List Byte :=
  le 2 (if b.stmts.isEmpty then 1 else 2) ++ le 1 b.mode ++ le 1 (bundleFlags b) ++ le 4 b.bseq ++ le 4 (bundleRecords b).length
    ++ le 4 ((b.records.head?.map (fun r => r.jseq)).getD 0) ++ le 8 b.openTime ++ le 8 b.closeTime ++ slice (bundleRoot b) 0 32
    ++ le 2 b.slot ++ le 2 0 ++ le 4 b.gen.toNat

/-- The bundle: header, records, signature (R254). -/
def bundleBytes (b : Bundle) : List Byte := bundleHeader b ++ (bundleRecords b).flatten ++ slice b.sig 0 384

/-! ### Windows (R223) -/

def xlate (s : State) (w : Nat) : Xlate := tget s.xlate w {}

def chan (s : State) (c : Nat) : Chan := tget s.chans c {}

def setChan (c : Nat) (f : Chan → Chan) (s : State) : State := { s with chans := tupd s.chans c {} f }

/-- Fields of a descriptor (Table 08-4). -/
def dWindow (d : List Byte) : Nat := rd d 0 2
def dOffset (d : List Byte) : Nat := rd d 4 4
def dLength (d : List Byte) : Nat := rd d 8 4
def dEvt (d : List Byte) : Bool := bit (rd d 16 1) 0

/-- The stream reads host memory (R225). -/
def isRead (st : Stream) : Bool := st == .restore

/-- Bytes of a descriptor's buffer that TLPs can reach now: the window is valid, permits the direction, and holds them (R223). TLPs end
at 256-byte boundaries, so the window's end falls between two of them. -/
def reachable (s : State) (rd_ : Bool) (d : List Byte) : Nat :=
  let x := xlate s (dWindow d)
  if 1024 ≤ dWindow d || !(if rd_ then x.rd else x.wr) then 0 else 4096 * x.size - dOffset d

/-- The active descriptor of a channel uses the window (R224). -/
def usesWindow (w : Nat) (x : Chan) : Bool :=
  match x.active with
  | none => false
  | some (d, _) => dWindow d == w

def windowUses (s : State) (w : Nat) : Nat := (s.chans.filter (fun e => usesWindow w e.2)).length

/-! ### What a stream holds for its next descriptor -/

/-- The first bundle, in sequence order, that has not been written. -/
def nextBundle (bs : List Bundle) : Option Bundle := bs.find? (fun b => !b.written)

/-- One record of a dump: overwritten, it stands as SLATE_LOST (R383, R385); none while it has not been written. (DEDUCED: log 115) -/
def dumpRecord (s : State) (q : Word) : Option (List Byte) :=
  match s.slateNv.ring.find? (fun r => r.seq == q) with
  | some r => some (srecBytes r)
  | none => if seqBelow q (slateTail s) then some (srecBytes { code := 1, seq := q, stamp := 0, lost := true }) else none

/-- Records of a dump from SEQ q on, until lim bytes are there, the dump ends or a record is not yet written. -/
def dumpRecords (s : State) (stop : Word) : Nat → Nat → Word → List (List Byte)
  | 0, _, _ => []
  | n + 1, lim, q =>
    if q = stop || lim = 0 then []
    else
      match dumpRecord s q with
      | none => []
      | some b => b :: dumpRecords s stop n (lim - b.length) (q + 1)

/-- The records of the dump that a buffer of len delivers, with the one that an earlier descriptor began. -/
def dumpNext (s : State) (d : Dump) (len : Nat) : List (List Byte) := dumpRecords s d.stop (len / 24 + 2) (len + d.offset) d.next

/-- The dump's bytes for a buffer of len: what earlier descriptors took of the first record is left out. -/
def dumpData (s : State) (d : Dump) (len : Nat) : List Byte := ((dumpNext s d len).flatten.drop d.offset).take len

/-- The dump has all the bytes that the buffer holds, or that are left. -/
def dumpReady (s : State) (d : Dump) (len : Nat) : Bool :=
  let rs := dumpNext s d len
  len + d.offset ≤ rs.flatten.length || d.next + BitVec.ofNat 32 rs.length = d.stop

/-- The sealed copy of a page as the stream writes it. -/
def pageBytes (s : State) (p : Nat) : List Byte :=
  match (page s p).copy with
  | some c => slice c.bytes 0 4096
  | none => le 4096 0

/-- Sealed pages for a buffer of len (10 R286). (DESIGN CHOICE: log 19) -/
def pageData (s : State) (len : Nat) : List Byte :=
  ((s.ledger.exportQ.take (len / 4096)).map (pageBytes s)).flatten

/-- The bytes that the bound stream transfers with a buffer of len; none while it has nothing to transfer (R226, R257). -/
def streamData (s : State) (st : Stream) (len : Nat) : Option (List Byte) :=
  match st with
  | .exports => (nextBundle s.prov.signed).map (fun b => ((bundleBytes b).drop s.prov.offset).take len)
  | .statements => (nextBundle s.ledger.stmtSigned).map (fun b => ((bundleBytes b).drop s.ledger.stmtOffset).take len)
  | .balance => (s.bal.held.find? (fun r => !r.written)).map (fun r => ((balBytes r).drop s.bal.offset).take len)
  | .pages => if s.ledger.exportQ.isEmpty then none else some (pageData s len)
  | .slateDump =>
    match s.slate.dump with
    | none => none
    | some d => if dumpReady s d len then some (dumpData s d len) else none
  | .restore => some (le (len / 4096 * 4096) 0)

def markWritten (n : Nat) (bs : List Bundle) : List Bundle := bs.map (fun b => if b.bseq = n then { b with written := true, once := true } else b)

/-- The bundle being written has ended: a stop that waited for it is answered (R261). -/
def exportStopped (s : State) : State :=
  match s.prov.stopping, s.prov.chan with
  | some id, some c => finishOp id .ok [] (unbindChan c { s with prov.stopping := none, prov.chan := none })
  | _, _ => s

/-- The export stream has written n bytes of its bundle: a stop ends with the bundle (R257, R261). -/
def exportTook (n : Nat) (s : State) : State :=
  match nextBundle s.prov.signed with
  | none => s
  | some b =>
    if s.prov.offset + n < (bundleBytes b).length then { s with prov.offset := s.prov.offset + n }
    else
      exportStopped { s with prov.offset := 0, prov.signed := markWritten b.bseq s.prov.signed }

def stmtsTook (n : Nat) (s : State) : State :=
  match nextBundle s.ledger.stmtSigned with
  | none => s
  | some b =>
    if s.ledger.stmtOffset + n < (bundleBytes b).length then { s with ledger.stmtOffset := s.ledger.stmtOffset + n }
    else { s with ledger.stmtOffset := 0, ledger.stmtSigned := markWritten b.bseq s.ledger.stmtSigned }

def balTook (n : Nat) (s : State) : State :=
  match s.bal.held.find? (fun r => !r.written) with
  | none => s
  | some r =>
    if s.bal.offset + n < (balBytes r).length then { s with bal.offset := s.bal.offset + n }
    else { s with bal.offset := 0, bal.held := s.bal.held.map (fun x => if x.seq = r.seq then { x with written := true, once := true } else x) }

/-- Whole records and the rest after n bytes. -/
def eatRecords : List (List Byte) → Nat → Nat × Nat
  | [], n => (0, n)
  | b :: rest, n => if n < b.length then (0, n) else let r := eatRecords rest (n - b.length); (r.1 + 1, r.2)

/-- The dump has delivered n bytes; its end unbinds the channel and answers (R385). -/
def dumpTook (n : Nat) (s : State) : State :=
  match s.slate.dump with
  | none => s
  | some d =>
    let (k, off) := eatRecords d.recs (n + d.offset)
    let lost := (d.recs.take k).filter (fun b => rd b 1 2 % 1024 == 1)
    let d1 := { d with next := d.next + BitVec.ofNat 32 k, offset := off, recs := [], count := d.count + k, bytes := d.bytes + n }
    let s1 := { s with slate.lostDelivered := s.slate.lostDelivered + BitVec.ofNat 32 lost.length }
    if d1.next = d.stop then
      finishOp d.pendId .ok (le 4 d.first.toNat ++ le 4 d1.count ++ le 4 d1.bytes)
        (unbindChan d.chan { s1 with slate.dump := none })
    else { s1 with slate.dump := some d1 }

/-- The pages among the first n bytes written leave the queue; one sealed again since stays. -/
def pagesTook (data : List Byte) (n : Nat) (s : State) : State :=
  let sent := (List.range (n / 4096)).map (fun i => slice data (4096 * i) 4096)
  { s with ledger.exportQ := s.ledger.exportQ.filter (fun p => !sent.contains (pageBytes s p)) }

/-- The effect on the stream of a descriptor that has completed with n of its bytes. -/
def streamTook (st : Stream) (data : List Byte) (n : Nat) (s : State) : State :=
  match st with
  | .exports => exportTook n s
  | .statements => stmtsTook n s
  | .balance => balTook n s
  | .pages => pagesTook data n s
  | .slateDump => dumpTook n s
  | .restore => { s with ledger.restoreDue := s.ledger.restoreDue + n / 4096 }

/-- The stream's completion event. -/
def streamEvent : Stream → Option Nat
  | .exports => some 0x58 | .statements => some 0x56 | .pages => some 0x57 | .balance => some 0x63 | .slateDump => some 0x94
  | .restore => none

/-- Subsystem number of a stream (R502). -/
def streamSub : Option Stream → Nat
  | none => 0 | some .balance => 6 | some .slateDump => 9 | some _ => 5

/-! ### Descriptors (R226, R227) -/

/-- DONE_BYTES and STATUS written into the descriptor at DMA_CI. -/
def writeStatus (c done status : Nat) (s : State) : State :=
  let x := chan s c
  let at_ := x.ring.toNat + 32 * (x.ci.toNat % 2 ^ x.log2) + 20
  { s with out := .hostWrite (BitVec.ofNat 64 at_) (le 4 done ++ le 1 status) :: s.out }

/-- A descriptor ends well: STATUS 1 and DMA_CI advances (R226). -/
def descDone (c done : Nat) (evt : Option Nat) (s : State) : State :=
  let s1 := setChan c (fun x => { x with ci := x.ci + 1, done := x.done + 1, active := none, held := none,
                                         state := if x.ci + 1 = x.pi then .idle else .running }) (writeStatus c done 1 s)
  match evt with
  | some e => raise e s1
  | none => s1

/-- A descriptor ends in fault: the channel stops with DMA_CI on it (R227, R228). -/
def descFault (c done status : Nat) (s : State) : State :=
  let x := chan s c
  raise 0xB9 (record rcDmaStopped (le 1 c ++ le 1 status ++ le 2 0 ++ le 4 done ++ le 4 x.ci.toNat ++ le 4 0)
    (setChan c (fun x => { x with faults := x.faults + 1, active := none, state := .stopped }) (writeStatus c done status s)))

/-- Region of an engine address, in the order of Table 08-1. -/
def regionOf (a : Nat) : Nat :=
  if a < 0x20000000 then 0 else if a < 0x30000000 then 1 else if a < 0x40000000 then 2 else if a < 0x43000000 then 3
  else if a < 0x48000000 then 4 else if a < 0x4C000000 then 5 else if a < 0x50000000 then 6 else if a < 0x80000000 then 7 else 8

/-- An uncorrectable burst or SRAM word: event 0xBA and a Slate record naming address and region (R230). -/
def memUe (addr region : Nat) (s : State) : State := raise 0xBA (record rcMemUe (le 8 addr ++ le 1 region ++ le 7 0) s)

/-- One uncorrectable burst: its count, event and record. -/
def noteUe (addr region : Nat) (s : State) : State := memUe addr region { s with mem.uncorrectable := s.mem.uncorrectable + 1 }

/-- Bytes from_ to upto - 1 of the buffer, written at the window's present base (R223). -/
def putData (d data : List Byte) (from_ upto : Nat) (s : State) : State :=
  if upto ≤ from_ then s
  else
    let at_ := (xlate s (dWindow d)).base.toNat + dOffset d + from_
    { s with out := .hostWrite (BitVec.ofNat 64 at_) ((data.drop from_).take (upto - from_)) :: s.out }

/-- The transfer goes on to goal bytes, ended first by a translation miss or an uncorrectable buffer (R226, R227); last says that
the descriptor ends there. -/
def transfer (c : Nat) (st : Stream) (d data : List Byte) (moved goal : Nat) (ueAt : Option (Nat × Nat)) (last : Bool) (s : State) : State :=
  let reach := max moved (min goal (reachable s (isRead st) d))
  let put := fun (upto : Nat) (s : State) => if isRead st then s else putData d data moved upto s
  let ue := match ueAt with
    | some (k, a) => if moved ≤ k && k < reach then some (k, a) else none
    | none => none
  match ue with
  | some (k, a) => descFault c k 4 (noteUe a (regionOf a) (put k s))
  | none =>
    if reach < goal then descFault c reach 2 (put reach s)
    else if last then
      streamTook st data goal (descDone c goal (if dEvt d then streamEvent st else none) (put goal s))
    else setChan c (fun x => { x with active := some (d, goal) }) (put goal s)

/-- The descriptor begins outside its window, or exceeds it, or the direction is not permitted (R226). LENGTH above its range is taken
the same way (log 26). -/
def badBegin (s : State) (rd_ : Bool) (d : List Byte) : Bool := 16777216 < dLength d || reachable s rd_ d < dLength d

/-- The bytes of the descriptor at DMA_CI: those held since it first began, or what the stream now has (R228). -/
def descData (s : State) (c : Nat) (st : Stream) (len : Nat) : Option (List Byte) :=
  match (chan s c).held with
  | some b => some b
  | none => streamData s st len

/-- What the stream writes is held until its record for the descriptor has been posted (R228). -/
def holdData (c : Nat) (st : Stream) (len : Nat) (data : List Byte) (s : State) : State :=
  if isRead st || (chan s c).held.isSome then s
  else
    let s1 := setChan c (fun x => { x with held := some data }) s
    match st, s1.slate.dump with
    | .slateDump, some d => { s1 with slate.dump := some { d with recs := dumpNext s d len } }
    | _, _ => s1

/-- The channel's descriptor at DMA_CI begins, goes on, or ends (R226, R257). -/
def descriptorEnd (c : Nat) (desc : DescIn) (s : State) : State :=
  let x := chan s c
  if x.state != .running || (isl s 33).inReset then s
  else
    let (d, moved) := x.active.getD (slice desc.raw 0 32, 0)
    let evt := match x.stream with
      | some st => if dEvt d then streamEvent st else none
      | none => none
    if dLength d = 0 then descDone c 0 evt s
    else
      match x.stream with
      | none => s
      | some st =>
        if x.active.isNone && badBegin s (isRead st) d then descFault c 0 2 s
        else
          match descData s c st (dLength d) with
          | none => s
          | some data =>
            let s := holdData c st (dLength d) data s
            let goal := match desc.upTo with
              | some n => max moved (min n data.length)
              | none => data.length
            transfer c st d data moved goal desc.ueAt desc.upTo.isNone s

/-- A TLP of the channel's descriptor ends in a PCIe error after done bytes (R227). -/
def dmaBusError (c done : Nat) (s : State) : State :=
  let x := chan s c
  if x.state == .running && x.stream.isSome then descFault c done 3 s else s

/-! ### Opcodes (Table 08-9) -/

/-- XLATE_SET (R223, R224). -/
def xlateSet (r : Req) (s : State) : Reply :=
  let p := r.payload
  let w := rd p 0 2
  let flags := rd p 2 1
  let base := rd p 4 8
  let size := rd p 12 4
  if 1024 ≤ w || 8 ≤ flags || !zeroAt p 3 1 || base % 4096 != 0 || 262144 < size then refuse s .badParam
  else if !bit flags 2 && windowUses s w != 0 then .wait s
  else
    replyOk { s with xlate := tset s.xlate w { base := BitVec.ofNat 64 base, size := size, rd := bit flags 0, wr := bit flags 1 } }

/-- One record of XLATE_GET. -/
def xlateRecord (s : State) (w : Nat) : List Byte :=
  let x := xlate s w
  le 8 x.base.toNat ++ le 4 x.size ++ le 1 (b2n x.rd + 2 * b2n x.wr) ++ le 1 (windowUses s w) ++ le 2 0

/-- XLATE_GET (R232). -/
def xlateGet (r : Req) (s : State) : Reply :=
  let first := rd r.payload 0 2
  let count := rd r.payload 2 2
  if 64 < count || 1024 < first + count then refuse s .badParam
  else replyOk s (((List.range count).map (fun i => xlateRecord s (first + i))).flatten)

/-- DMA_CHAN_SET (R227, Table 08-9). -/
def dmaChanSet (r : Req) (s : State) : Reply :=
  let p := r.payload
  let c := rd p 0 1
  let code := rd p 1 1
  let ring := rd p 4 8
  if 32 ≤ c || (code != 0 && (code < 4 || 12 < code)) || !zeroAt p 2 2 || ring % 4096 != 0 then refuse s .badParam
  else
    let x := chan s c
    if code = 0 then
      if x.stream.isSome then refuse s .badState
      else
        let s1 := match x.active with
          | some (_, moved) => writeStatus c moved 5 s
          | none => s
        replyOk (setChan c (fun x => { x with state := .disabled, active := none, held := none, pi := 0, ci := 0 }) s1)
    else if x.state != .disabled then refuse s .badState
    else replyOk (setChan c (fun x => { x with state := .idle, ring := BitVec.ofNat 64 ring, log2 := code }) s)

/-- DMA_CHAN_STATUS_GET (R232). -/
def dmaChanStatus (r : Req) (s : State) : Reply :=
  let c := rd r.payload 0 1
  if 32 ≤ c || !zeroAt r.payload 1 3 then refuse s .badParam
  else
    let x := chan s c
    replyOk s (le 1 (chanCode x.state) ++ le 1 (streamSub x.stream) ++ le 2 0 ++ le 4 x.ci.toNat ++ le 4 x.done.toNat
      ++ le 4 x.faults.toNat)

/-- The failed descriptor runs again from byte 0; on the export channel the bundle being written is written again whole (R228; 09 R259).
(DEDUCED: log 101) -/
def restartChan (c : Nat) (s : State) : State :=
  let s1 := setChan c (fun x => { x with state := .running, active := none }) s
  if (chan s c).stream == some .exports then setChan c (fun x => { x with held := none }) { s1 with prov.offset := 0 } else s1

/-- DMA_CHAN_RESTART (R228). -/
def dmaChanRestart (r : Req) (s : State) : Reply :=
  let c := rd r.payload 0 1
  if 32 ≤ c || !zeroAt r.payload 1 3 then refuse s .badParam
  else if (chan s c).state != .stopped then refuse s .badState
  else replyOk (restartChan c s)

def xlateSetService : Service :=
  { opcode := 0x0B80, lenOk := lenIs 16, acc := 0, objs := fun r _ => [.window (rd r.payload 0 2)], run := fun _ r s => xlateSet r s }

def xlateGetService : Service := { opcode := 0x0B81, lenOk := lenIs 4, acc := 0, run := fun _ r s => xlateGet r s }

def dmaChanSetService : Service := { opcode := 0x0B82, lenOk := lenIs 12, acc := 0, run := fun _ r s => dmaChanSet r s }

def dmaChanStatusGetService : Service := { opcode := 0x0B83, lenOk := lenIs 4, acc := 0, run := fun _ r s => dmaChanStatus r s }

def dmaChanRestartService : Service := { opcode := 0x0B84, lenOk := lenIs 4, acc := 0, run := fun _ r s => dmaChanRestart r s }

/-! ### Meanings -/

def execXlateSet (r : Req) (s : State) : Host.Outcome State Fault Refusal := .next (serve xlateSetService r s)

def execXlateGet (r : Req) (s : State) : Host.Outcome State Fault Refusal := .next (serve xlateGetService r s)

def execDmaChanSet (r : Req) (s : State) : Host.Outcome State Fault Refusal := .next (serve dmaChanSetService r s)

def execDmaChanStatusGet (r : Req) (s : State) : Host.Outcome State Fault Refusal := .next (serve dmaChanStatusGetService r s)

def execDmaChanRestart (r : Req) (s : State) : Host.Outcome State Fault Refusal := .next (serve dmaChanRestartService r s)

def execDmaDescriptorEnd (c : Nat) (desc : DescIn) (s : State) : Host.Outcome State Fault Refusal := .next (descriptorEnd c desc s)

def execDmaBusError (c done : Nat) (s : State) : Host.Outcome State Fault Refusal := .next (dmaBusError c done s)

end Sys2Proof.Machine
end

