-- ==== Sys2Proof/Machine/Arbiter.lean ====
section
/-! DEFINITION. The maintenance arbiter: activities, tokens, and the balance re-run (19 R488 to R490; 11 R318). -/

namespace Sys2Proof.Machine

/-- The activities in the order of Table 19-5, which is their priority. -/
def acts : List Act := [.ma, .sr, .lr, .rh, .kr, .br, .es]

def actOf (n : Nat) : Option Act := acts[n]?

/-- Two activities may hold tokens together (Table 19-6). -/
def compat (a b : Act) : Bool :=
  a != b &&
    match a, b with
    | .ma, .lr => false | .lr, .ma => false
    | .sr, .kr => false | .kr, .sr => false
    | .sr, .br => false | .br, .sr => false
    | _, _ => true

/-- Activities of a higher priority. -/
def above (a : Act) : List Act := acts.takeWhile (fun b => b != a)

/-- The activity holds in a's way: a re-wrap yields to a soft repair (R490). -/
def blocks (a b : Act) : Bool := !compat a b && !(a == .sr && b == .kr)

/-- A token for a can be granted now: compatible with every holder, and with every waiting activity of a higher priority (R490). -/
def grantable (a : Act) (s : State) : Bool :=
  !s.maint.holders.any (blocks a) && !s.maint.waiting.any (fun b => (above a).contains b && blocks a b)

/-- A host request for a is refused with BUSY_MAINT: an incompatible activity holds a token or waits for one (R490). -/
def busyFor (a : Act) (s : State) : Bool := s.maint.holders.any (fun b => !compat a b) || s.maint.waiting.any (fun b => !compat a b)

def holds (a : Act) (s : State) : Bool := s.maint.holders.contains a

/-- Grant the token: a soft repair makes a re-wrap yield (R490). -/
def giveToken (a : Act) (s : State) : State :=
  { s with maint.holders := s.maint.holders ++ [a], maint.waiting := s.maint.waiting.filter (fun b => b != a),
           maint.yielded := s.maint.yielded || (a == .sr && s.maint.holders.contains .kr) }

/-- The activity ends: its token is released, and a re-wrap that had yielded resumes after a soft repair (R490). -/
def dropToken (a : Act) (s : State) : State :=
  { s with maint.holders := s.maint.holders.filter (fun b => b != a), maint.waiting := s.maint.waiting.filter (fun b => b != a),
           maint.yielded := s.maint.yielded && a != .sr && a != .kr }

/-- A request of the engine: the token at once, or its place among those that wait (R490). -/
def askToken (a : Act) (s : State) : State :=
  if holds a s || s.maint.waiting.contains a then s
  else if grantable a s then giveToken a s
  else { s with maint.waiting := s.maint.waiting ++ [a] }

/-- The activity asks for its token now: what starts it is there (Table 19-5). -/
def wants (a : Act) (s : State) : Bool :=
  s.maint.waiting.contains a ||
    match a with
    | .ma => s.fw.tm.isSome && s.fw.upd == .prepared
    | .sr => s.mem.repairReq.isSome
    | .lr => pval s 0xB001 == 1 && s.rot.lane.isNone
    | .rh => s.dir.rehash == 1
    | .es => true
    | _ => false

/-- MAINT_TOKEN_GRANT: an activity's time has come, or a token has been released (R490); an eNVM scrub pass begins ENVM_SCRUB_D days after the last
(14 R388; log 114). -/
def maintGrant (n : Nat) (s : State) : State :=
  match actOf n with
  | none => s
  | some a =>
    if (isl s 29).inReset || holds a s || !wants a s then s
    else
      let s1 := match a, s.fw.tm with
        | .ma, some t => advTo (tSec (t - 60)) s
        | .es, _ => roundAt s.maint.scrubAt (86400 * pval s 0x9000) s
        | _, _ => s
      if grantable a s1 then
        let s2 := giveToken a s1
        if a = .rh then { s2 with dir.rehash := 2 } else if a = .es then { s2 with maint.scrubAt := some s2.mono } else s2
      else if s1.maint.waiting.contains a then s1
      else { s1 with maint.waiting := s1.maint.waiting ++ [a] }

/-- Status byte of MAINT_STATUS_GET. -/
def actStatus (s : State) (a : Act) : Nat :=
  if holds a s then (if a == .kr && s.maint.yielded then 3 else 2) else if s.maint.waiting.contains a then 1 else 0

def maintStatus (s : State) : List Byte := (acts.map (fun a => le 1 (actStatus s a) ++ le 3 0)).flatten

/-- BAL_RERUN: the revision is posted while the request is served, and the token is released with it (11 R318; log 27). -/
def balRerun (r : Req) (s : State) : Reply :=
  let z := rd r.payload 0 2
  let start := rd r.payload 4 4
  if !zeroAt r.payload 2 2 || !rerunOk s z start then refuse s .badParam
  else if busyFor .br s then refuse s .busyMaint
  else
    let s1 := postRevision z start true s
    .twice s1 .ok (le 4 s1.bal.seq)

def maintStatusGetService : Service := { opcode := 0x0B20, lenOk := payloadFree, acc := 0, run := fun _ _ s => replyOk s (maintStatus s) }

def balRerunService : Service :=
  { opcode := 0x0608, lenOk := lenIs 8, objs := fun r _ => [.zone (rd r.payload 0 2)], run := fun _ r s => balRerun r s }

def execMaintTokenGrant (act : Nat) (s : State) : Host.Outcome State Fault Refusal := .next (maintGrant act s)

def execMaintStatusGet (r : Req) (s : State) : Host.Outcome State Fault Refusal := .next (serve maintStatusGetService r s)

def execBalRerun (r : Req) (s : State) : Host.Outcome State Fault Refusal := .next (serve balRerunService r s)

end Sys2Proof.Machine
end

