-- ==== Sys2Proof/Machine/Keys.lean ====
section
/-! DEFINITION. The key vault: slots, generations, uses, endpoint blobs, re-wrap, attestation and the DRBG (13). -/

namespace Sys2Proof.Machine

/-! ### Slots (R351 to R355) -/

/-- The spent generation (R355). -/
def spentGen : Nat := 2 ^ 32 - 1

/-- A slot: one that is not listed is EMPTY under its generation of the cold start (R355). -/
def kslot (s : State) (n : Nat) : KSlot :=
  tget s.slots.slots n { gen := if s.slots.allSpent then spentGen else s.slots.base + 1 + n }

def setSlot (n : Nat) (x : KSlot) (s : State) : State := { s with slots.slots := tset s.slots.slots n x }

/-- The slot's parent, or an ancestor, no longer has the generation it had (R355). -/
def orphanIn (s : State) : Nat → KSlot → Bool
  | 0, _ => true
  | n + 1, x =>
    if x.parent = 0xFFFF then false
    else if 0xFFFD ≤ x.parent then s.boot.domainKeys.isNone
    else (kslot s x.parent).gen != x.pgen || orphanIn s n (kslot s x.parent)

def orphaned (s : State) (n : Nat) : Bool := (kslot s n).typ != 0 && orphanIn s 9 (kslot s n)

/-- Slots of the chain, the slot itself included (R355, Table 13-9). -/
def depthIn (s : State) : Nat → KSlot → Nat
  | 0, _ => 0
  | n + 1, x => if 0xFFFD ≤ x.parent then 1 else depthIn s n (kslot s x.parent) + 1

def slotDepth (s : State) (n : Nat) : Nat := if (kslot s n).typ = 0 then 0 else depthIn s 9 (kslot s n)

def exhausted (x : KSlot) : Bool := x.cntEn && x.uses == 0

/-- The slot is usable (R353). -/
def usable (s : State) (n : Nat) : Bool := (kslot s n).typ != 0 && !orphaned s n && !exhausted (kslot s n)

/-- Usage bits by name (R352). -/
def uEncrypt : Nat := 0x01
def uDecrypt : Nat := 0x02
def uMac : Nat := 0x04
def uSign : Nat := 0x08
def uVerify : Nat := 0x10
def uWrap : Nat := 0x20
def uUnwrap : Nat := 0x40
def uDerive : Nat := 0x80

def hasUsage (x : KSlot) (mask : Nat) : Bool := x.usage &&& BitVec.ofNat 8 mask == BitVec.ofNat 8 mask

/-- Usage bits a type allows (Table 13-2). -/
def usageAllowed (typ : Nat) : Nat := if typ = 3 then 0x94 else if typ = 4 then 0x48 else 0xF7

def keySize (typ : Nat) : Nat := if typ = 1 then 16 else if typ = 4 then 1348 else 32

/-- Listed slots that are orphaned now. -/
def orphanList (s : State) : List Nat := (s.slots.slots.map (·.1)).filter (orphaned s)

/-- The counter cannot advance by one (R355). -/
def genStuck (s : State) : Bool := s.slots.allSpent || 0xFFFFFFFE ≤ s.life.genCounter

/-- The FAULT record of the first case after each start (R355). -/
def noteStuck (s : State) : State :=
  if s.keys.genFault then s else record rcGenCounter (le 4 s.life.genCounter ++ le 4 0) { s with keys.genFault := true }

/-- Empty a slot under the next generation, without judging its children (R355). -/
def emptySlot (n : Nat) (s : State) : State :=
  if 0xFFFFFFFE ≤ s.life.genCounter then noteStuck (setSlot n { gen := spentGen } s)
  else setSlot n { gen := s.life.genCounter + 1 } { s with life.genCounter := s.life.genCounter + 1 }

/-- Destroy a slot: how many slots it newly orphans, and event 0x80 for them (R355, R369). -/
def destroySlot (n : Nat) (s : State) : State × Nat :=
  let before := orphanList s
  let s1 := emptySlot n s
  let new_ := ((orphanList s1).filter (fun i => !before.contains i)).length
  (raiseIf (new_ != 0) 0x80 s1, new_)

/-- One use of a slot: usability and usage are checked, USES goes down, and the use that brings it to 0 destroys the slot (R352 to R354).
None: refused, and the refusal is counted. -/
def useSlot (n mask : Nat) (s : State) : State × Option KSlot :=
  let x := kslot s n
  if !usable s n || !hasUsage x mask then ({ s with keys.refused := s.keys.refused + 1 }, none)
  else if !x.cntEn then (s, some x)
  else if x.uses = 1 then ((destroySlot n (raise 0x81 (setSlot n { x with uses := 0 } s))).1, some x)
  else (setSlot n { x with uses := x.uses - 1 } s, some x)

/-- An unwrap or attribute check failed: counted, and event 0x83 after 60 s without one (R368, R369). -/
def authFailed (s : State) : State :=
  let due := match s.keys.lastAuth with
    | none => true
    | some t => t + tSec 60 ≤ s.mono
  raiseIf due 0x83 { s with keys.unwrapFail := s.keys.unwrapFail + 1, keys.lastAuth := some s.mono }

/-! ### The device's own keys (R350) and signing (R254, R256) -/

/-- The private identity key, while ATTEST is there. -/
def identityKey (s : State) : Option (List Byte) :=
  match domainKey .attest s with
  | none => none
  | some k => Config.keyUnwrapPad k s.life.idWrapped

/-- The private import key. -/
def importKey (s : State) : Option (List Byte) :=
  match domainKey .transport s with
  | none => none
  | some k => Config.keyUnwrapPad k s.life.importWrapped

/-- Secret draws are served (R366). -/
def secretOk (s : State) : Bool := s.keys.seeded && !s.keys.secretRefused

/-- Sign with the slot or, for 0xFFFF, the identity key: signature and SIGN_GEN; none when the key or the DRBG refuses. -/
def signWith (slot : Nat) (msg : List Byte) (s : State) : State × Option (List Byte × Nat) :=
  if !secretOk s then (s, none)
  else
    let (_, s1) := draw s
    if slot = 0xFFFF then
      match identityKey s with
      | none => (s, none)
      | some k => (s1, some (Config.rsaSign k msg s.freeCtr, 0))
    else
      match useSlot slot uSign s1 with
      | (s2, some x) => (s2, some (Config.rsaSign x.key msg s.freeCtr, x.gen))
      | (_, none) => ({ s with keys.refused := s.keys.refused + 1 }, none)

/-! ### Loading (R357 to R359) -/

/-- The attributes of a request, at the offset of TYPE. -/
structure KAttr where
  typ : Nat
  usage : Nat
  flags : Nat
  uses : Nat
  deriving DecidableEq, Repr

def attrAt (p : List Byte) (o : Nat) : KAttr := { typ := rd p o 1, usage := rd p (o + 1) 1, flags := rd p (o + 2) 1, uses := rd p (o + 4) 4 }

/-- TYPE, USAGE and FLAGS are allowed in the slot (R351, R368). -/
def attrOk (a : KAttr) (slot : Nat) : Bool :=
  slot < 4096 && 1 ≤ a.typ && a.typ ≤ 4 && (a.typ != 4 || 4032 ≤ slot) && a.usage != 0 && a.usage &&& (0xFF - usageAllowed a.typ) == 0
    && a.flags < 4

/-- The slot that attributes, parent and key make. -/
def newSlot (a : KAttr) (parent pgen gen : Nat) (key : List Byte) : KSlot :=
  { typ := a.typ, usage := BitVec.ofNat 8 a.usage, cntEn := bit a.flags 0, expire := bit a.flags 1, parent := parent, gen := gen,
    pgen := pgen, uses := a.uses, key := key }

/-- Generation of a parent that is a slot; 0 of the others (Table 13-4). -/
def parentGen (s : State) (parent : Nat) : Nat := if 0xFFFD ≤ parent then 0 else (kslot s parent).gen

/-- The chain of a child of the parent stays within 8 slots (R355). -/
def chainOk (s : State) (parent : Nat) : Bool := 0xFFFD ≤ parent || slotDepth s parent < 8

/-- The attribute header of a key block (R357). -/
def attrHeader (a : KAttr) : List Byte := le 1 a.typ ++ le 1 a.usage ++ le 1 a.flags ++ le 1 0 ++ le 4 a.uses ++ le 8 0

/-- Unwrap a key block under its parent: the state after the use, and the block; a refusal spends no use (R46, R354). (DEDUCED: log 112) -/
def unwrapBlock (parent : Nat) (wrapped : List Byte) (s : State) : State × Option (List Byte) :=
  if parent = 0xFFFD then
    match importKey s with
    | none => ({ s with keys.refused := s.keys.refused + 1 }, none)
    | some k =>
      match Config.oaepOpen k wrapped with
      | none => (authFailed s, none)
      | some b => (s, some b)
  else if (kslot s parent).typ = 3 then ({ s with keys.refused := s.keys.refused + 1 }, none)
  else
    match useSlot parent uUnwrap s with
    | (s1, none) => (s1, none)
    | (s1, some x) =>
      match if x.typ = 4 then Config.oaepOpen x.key wrapped else Config.keyUnwrapPad x.key wrapped with
      | none => (authFailed s, none)
      | some b => (s1, some b)

/-- QK_LOAD (R357). -/
def qkLoad (r : Req) (s : State) : Reply :=
  let p := r.payload
  let slot := rd p 0 2
  let parent := rd p 2 2
  let a := attrAt p 4
  let len := rd p 12 2
  if !attrOk a slot || !zeroAt p 7 1 || !zeroAt p 14 2 || (4096 ≤ parent && parent != 0xFFFD) || len < 24 || 1376 < len
      || !chainOk s parent || (a.typ == 4 && (parent == 0xFFFD || (kslot s parent).typ == 4)) then refuse s .badParam
  else if (kslot s slot).typ != 0 then refuse s .badState
  else
    let gen := (kslot s slot).gen
    let pgen := parentGen s parent
    match unwrapBlock parent (p.drop 16) s with
    | (s1, none) => refuse s1 .authFail
    | (s1, some b) =>
      if slice b 0 16 != attrHeader a || b.length != 16 + keySize a.typ then refuse (authFailed s) .authFail
      else if genStuck s1 then refuse (noteStuck s) .noResource
      else replyOk (setSlot slot (newSlot a parent pgen gen (b.drop 16)) s1)

/-- QK_DERIVE (R358). -/
def qkDerive (r : Req) (s : State) : Reply :=
  let p := r.payload
  let slot := rd p 0 2
  let parent := rd p 2 2
  let a := attrAt p 4
  let len := rd p 12 2
  let ctx := le 1 a.typ ++ le 1 a.usage ++ le 1 a.flags ++ p.drop 16
  let put := fun (key : List Byte) (s1 : State) =>
    if genStuck s1 then refuse (noteStuck s) .noResource
    else replyOk (setSlot slot (newSlot a parent (parentGen s parent) (kslot s slot).gen
      (kdf108 key (str "QUARTZ SLOT") ctx (8 * keySize a.typ))) s1)
  if !attrOk a slot || a.typ == 4 || !zeroAt p 7 1 || !zeroAt p 14 2 || (4096 ≤ parent && parent != 0xFFFE) || 64 < len
      || !chainOk s parent then refuse s .badParam
  else if (kslot s slot).typ != 0 then refuse s .badState
  else if parent = 0xFFFE then
    match domainKey .customer s with
    | none => refuse { s with keys.refused := s.keys.refused + 1 } .authFail
    | some k => put k s
  else
    match useSlot parent uDerive s with
    | (s1, none) => refuse s1 .authFail
    | (s1, some x) => put x.key s1

/-- QK_GENERATE (R359, R366). -/
def qkGenerate (r : Req) (s : State) : Reply :=
  let p := r.payload
  let slot := rd p 0 2
  let a := attrAt p 4
  if !attrOk a slot || a.typ == 4 || !zeroAt p 2 2 || !zeroAt p 7 1 then refuse s .badParam
  else if (kslot s slot).typ != 0 then refuse s .badState
  else if genStuck s then refuse (noteStuck s) .noResource
  else if !secretOk s then 
    let (q, s1) := recordFault rcEntropy (le 4 s.keys.health.toNat ++ le 4 1) s
    refuse s1 .hwFault q
  else
    let (k, s1) := draw s
    replyOk (setSlot slot (newSlot a 0xFFFF 0 (kslot s slot).gen (slice k 0 (keySize a.typ))) s1)

/-- QK_DESTROY (R355). -/
def qkDestroy (r : Req) (s : State) : Reply :=
  let slot := rd r.payload 0 2
  if 4096 ≤ slot || !zeroAt r.payload 2 2 then refuse s .badParam
  else if (kslot s slot).typ = 0 then refuse s .badState
  else
    let (s1, n) := destroySlot slot s
    replyOk s1 (le 4 n)

/-- One record of QK_SLOT_GET. -/
def slotRecord (s : State) (n : Nat) : List Byte :=
  let x := kslot s n
  le 1 x.typ ++ le 1 x.usage.toNat ++ le 1 (b2n x.cntEn + 2 * b2n x.expire) ++ le 2 x.parent ++ le 4 x.gen ++ le 4 x.pgen
    ++ le 4 x.uses ++ le 1 (b2n (usable s n)) ++ le 1 (slotDepth s n) ++ le 1 0

/-- QK_SLOT_GET (R368, R525). -/
def qkSlotGet (r : Req) (s : State) : Reply :=
  let first := rd r.payload 0 2
  let count := rd r.payload 2 2
  if 256 < count || 4096 < first + count then refuse s .badParam
  else replyOk s (((List.range count).map (fun i => slotRecord s (first + i))).flatten)

/-! ### Endpoint key blobs (R360 to R363) -/

def blobHandle (p : List Byte) (i : Nat) : Nat := rd p (4 + 44 * i) 4

/-- The plaintext of a blob: key, ADDR, handle, zeros (R360). -/
def blobPlain (key : List Byte) (addr : DWord) (h : Nat) : List Byte := key ++ le 8 addr.toNat ++ le 4 h ++ le 4 0

/-- The key that unwrapped bytes hold for the endpoint, when address, handle and reserved bytes agree. -/
def blobKey (plain : List Byte) (addr : DWord) (h : Nat) : Option (List Byte) :=
  if plain == blobPlain (slice plain 0 16) addr h then some (slice plain 0 16) else none

/-- Unwrap entries in order, one use each: none when all are good, else the index of the first that fails (R361); uses spent by then are given
back by the caller (R46). -/
def checkBlobs (slot : Nat) : List (Nat × List Byte) → Nat → State → State × Option Nat
  | [], _, s => (s, none)
  | (h, w) :: rest, i, s =>
    match useSlot slot uUnwrap s with
    | (s1, none) => (s1, some i)
    | (s1, some x) =>
      let good := match Config.keyUnwrap x.key w, ep? s1 h with
        | some plain, some e => (blobKey plain e.addr h).isSome
        | _, _ => false
      if good then checkBlobs slot rest (i + 1) s1 else (s1, some i)

/-- The context of the endpoint is on chip. -/
def resident (s : State) (h : Nat) : Bool := s.mem.cache.any (fun c => c.handle == h) || s.mem.passThru.contains h

/-- A frame of the endpoint is between step 9 and the end of its handling, or its frames are serialised (R215). -/
def ctxBusy (s : State) (h : Nat) : Bool :=
  s.dir.frames.any (fun f => f.handle == h) || (match ep? s h with
    | some e => e.serial
    | none => false)

/-- Write a blob: one that differs ends the key held by the resident context (R360, R362). -/
def putBlob (h : Nat) (b : Blob) (s : State) : State :=
  let same := tfind s.blobs h == some b
  noteEp h (fun e => { e with blobLost := false, keyHeld := if same then e.keyHeld else none,
                              keyGen := if resident s h then b.wgen else e.keyGen })
    { s with blobs := tset s.blobs h b }

/-- The index of the first entry that a test finds bad. -/
def firstBad {α : Type} (bad : α → Bool) : List α → Nat → Option Nat
  | [], _ => none
  | x :: rest, i => if bad x then some i else firstBad bad rest (i + 1)

def idxPayload (i : Nat) : List Byte := le 2 i ++ le 2 0

/-- QK_EP_LOAD (R361): all of its entries or none. -/
def qkEpLoad (r : Req) (s : State) : Reply :=
  let p := r.payload
  let n := rd p 0 2
  let slot := rd p 2 2
  let es := (List.range n).map (fun i => (blobHandle p i, slice p (8 + 44 * i) 40))
  let hs := es.map (·.1)
  if 1489 < n || 4096 ≤ slot then refuse s .badParam
  else if n = 0 then replyOk s
  else
    match firstBad (fun (i : Nat) => (ep? s (hs.getD i 0)).isNone || (hs.take i).contains (hs.getD i 0)) (List.range n) 0 with
    | some i => refuse s .badParam (idxPayload i)
    | none =>
      let x := kslot s slot
      let count := fun (s : State) => { s with keys.refused := s.keys.refused + 1 }
      if !usable s slot || !hasUsage x uUnwrap || !(x.typ == 1 || x.typ == 2) then refuse (count s) .authFail (idxPayload 0)
      else if x.cntEn && x.uses < n then refuse (count s) .authFail (idxPayload x.uses)
      else
        match checkBlobs slot es 0 s with
        | (_, some i) => refuse (authFailed s) .authFail (idxPayload i)
        | (s1, none) =>
          replyOk (es.foldl (fun s e => putBlob e.1 { wrapped := e.2, wslot := slot, wgen := BitVec.ofNat 32 x.gen } s) s1)

/-- QK_EP_CLEAR (R361), in the layout of WITHDRAW (R188). -/
def qkEpClear (r : Req) (s : State) : Reply :=
  let p := r.payload
  let n := rd p 0 2
  let hs := (List.range n).map (fun i => rd p (4 + 4 * i) 4)
  if !zeroAt p 2 2 then refuse s .badParam
  else
    match firstBad (fun h => (ep? s h).isNone) hs 0 with
    | some i => refuse s .badParam (idxPayload i)
    | none => replyOk (hs.foldl (fun s h => noteEp h (fun e => { e with keyHeld := none }) { s with blobs := tdel s.blobs h }) s)

/-- QK_REWRAP (R363). (DEDUCED: log 113) -/
def qkRewrap (id : Nat) (r : Req) (s : State) : Reply :=
  let old := rd r.payload 0 2
  let new_ := rd r.payload 2 2
  let y := kslot s new_
  if 4096 ≤ old || 4096 ≤ new_ then refuse s .badParam
  else if !usable s old || !usable s new_ || !(y.typ == 1 || y.typ == 2) || !hasUsage y (uWrap + uUnwrap) then
    refuse { s with keys.refused := s.keys.refused + 1 } .authFail
  else if s.keys.rewrap.isSome || busyFor .kr s then refuse s .busyMaint
  else .pend (giveToken .kr { s with keys.rewrap := some { pendId := id, old := old, new := new_ } }) [.blobs]

/-- The walk ends: its counts, event 0x82 and the token (R363). -/
def rewrapEnd (w : Rewrap) (s : State) : State :=
  let left := (s.blobs.filter (fun b => b.2.wslot == w.old)).length
  raise 0x82 (finishOp w.pendId .ok (le 4 w.done ++ le 4 left) (dropToken .kr { s with keys.rewrap := none }))

/-- The walk passes a handle; the next one comes at the pace of QK_REWRAP_RATE (R363). (DEDUCED: log 156) -/
def rewrapNext (h : Nat) (moved : Bool) (w : Rewrap) (s : State) : State :=
  { s with keys.rewrap := some { w with next := h + 1, done := w.done + b2n moved, at_ := some (s.mono + 2 ^ 24 / pval s 0x8000) } }

/-- One blob of the walk, under the old slot. -/
def rewrapBlob (w : Rewrap) (h : Nat) (b : Blob) (s : State) : State :=
  if b.wgen.toNat != (kslot s w.old).gen then rewrapNext h false w s
  else
    match useSlot w.old uUnwrap s with
    | (s1, none) => rewrapEnd w s1
    | (s1, some x) =>
      match Config.keyUnwrap x.key b.wrapped with
      | none => rewrapNext h false w (authFailed s1)
      | some plain =>
        match useSlot w.new uWrap s1 with
        | (s2, none) => rewrapEnd w s2
        | (s2, some y) =>
          rewrapNext h true w (putBlob h { wrapped := slice (Config.keyWrap y.key plain) 0 40, wslot := w.new,
                                           wgen := BitVec.ofNat 32 y.gen } s2)

/-- REWRAP_WALK: the next blob under the old slot, in ascending handle order; a busy context is waited for (R363). -/
def rewrapWalk (s : State) : State :=
  match s.keys.rewrap with
  | none => s
  | some w =>
    if s.maint.yielded || (isl s 30).inReset then s
    else if !usable s w.old || !usable s w.new then rewrapEnd w s
    else
      match s.blobs.find? (fun b => w.next ≤ b.1 && b.2.wslot == w.old) with
      | none => rewrapEnd w s
      | some (h, b) => if ctxBusy s h then s else rewrapBlob w h b (advMono (w.at_.getD s.mono) s)

/-! ### Attestation, certificates, status (R364, R368) -/

/-- Bytes 0 to 383 of the attestation report (Table 13-7). -/
def attestBody (nonce : List Byte) (s : State) : List Byte :=
  le 2 1 ++ le 1 (lifecycle s) ++ le 1 (b2n (trusted s) + 2 * b2n s.bkp.sealOpen + 4 * b2n s.boot.optValid + 8 * b2n (isXn7440 s))
    ++ le 4 s.bkp.sealCount.toNat ++ le 8 s.now ++ slice s.life.deviceId 0 16 ++ slice nonce 0 32 ++ slice s.fuses.vendorHash 0 32
    ++ slice (s.fuses.custHash.getD []) 0 32
    ++ ((List.range 7).map (fun k => slice (part s k).digest 0 32)).flatten
    ++ ((List.range 7).map (fun k => le 4 (part s k).rollback.toNat)).flatten ++ le 4 0

/-- QK_ATTEST: it waits while secret draws are refused, as signing does (R364, R366); without an identity key it cannot be made (log 28). -/
def qkAttest (r : Req) (s : State) : Reply :=
  if (identityKey s).isNone then refuse s .badState
  else
    let body := attestBody r.payload s
    match signWith 0xFFFF body s with
    | (_, none) => .wait s
    | (s1, some (sig, _)) => replyOk s1 (body ++ slice sig 0 384)

/-- QK_CERT_GET. -/
def qkCertGet (r : Req) (s : State) : Reply :=
  let which := rd r.payload 0 1
  if 1 < which || !zeroAt r.payload 1 3 then refuse s .badParam
  else
    let c := if which = 0 then s.life.certId else s.life.certImport
    replyOk s (le 2 c.length ++ le 2 0 ++ c)

/-- QK_STATUS_GET (Table 13-9). -/
def qkStatus (s : State) : List Byte :=
  let used := s.slots.slots.filter (fun e => e.2.typ != 0)
  let orph := (used.filter (fun e => orphaned s e.1)).length
  let us := (used.filter (fun e => usable s e.1)).length
  let exh := (used.filter (fun e => !orphaned s e.1 && exhausted e.2)).length
  le 2 (4096 - used.length) ++ le 2 us ++ le 2 orph ++ le 2 exh ++ le 4 s.blobs.length ++ le 4 s.keys.refused.toNat
    ++ le 4 s.life.genCounter ++ le 1 (b2n (!secretOk s)) ++ le 1 (b2n s.keys.rewrap.isSome) ++ le 2 0 ++ le 4 s.keys.health.toNat
    ++ le 4 s.keys.unwrapFail.toNat

/-! ### The DRBG (R366) -/

/-- K_dir is drawn after the first reseed that passes (R366, 07 R174). -/
def drawKdir (s : State) : State :=
  if s.dir.kdir.isNone then { (draw s).2 with dir.kdir := some s.freeCtr } else s

/-- The instant of the next reseed: 1 s after the last, or after 2^16 generate requests (R366). -/
def reseedTime (s : State) : State :=
  let s1 := if 65536 ≤ s.keys.draws then s else roundAt s.keys.reseedAt 1 s
  { s1 with keys.reseedAt := some s1.mono }

/-- DRBG_RESEED: the health tests pass or fail (R366). -/
def drbgReseed (pass : Bool) (s0 : State) : State :=
  if (isl s0 30).inReset then s0
  else
    let s := reseedTime s0
    if pass then
      raiseIf s.keys.secretRefused 0x84 (drawKdir { s with keys.seeded := true, keys.secretRefused := false, keys.draws := 0 })
    else
      raise 0x84 (record rcEntropy (le 4 s.keys.health.toNat ++ le 4 0)
        { s with keys.secretRefused := true, keys.health := s.keys.health + 1 })

/-- Every slot that expires is destroyed at SYSRST and WDT (R356). -/
def expireSlots (s : State) : State :=
  ((s.slots.slots.filter (fun e => e.2.typ != 0 && e.2.expire)).map (·.1)).foldl (fun s n => (destroySlot n s).1) s

/-- The slots at a cold start (R355). -/
def coldSlots (s : State) : State :=
  let b := s.life.genCounter
  if 0xFFFFFFFE < b + 4096 then noteStuck { s with slots := { slots := [], base := 0, allSpent := true } }
  else { s with slots := { slots := [], base := b, allSpent := false }, life.genCounter := b + 4096 }

/-! ### Services -/

def varLen (base unit field off : Nat) (p : List Byte) : Bool := base ≤ p.length && p.length == base + unit * rd p off field

def qkLoadService : Service := { opcode := 0x0800, lenOk := varLen 16 1 2 12, run := fun _ r s => qkLoad r s, objs := fun r _ => [.keySlot (rd r.payload 0 2)] }
def qkDeriveService : Service := { opcode := 0x0801, lenOk := varLen 16 1 2 12, run := fun _ r s => qkDerive r s, objs := fun r _ => [.keySlot (rd r.payload 0 2)] }
def qkGenerateService : Service := { opcode := 0x0802, lenOk := lenIs 12, run := fun _ r s => qkGenerate r s, objs := fun r _ => [.keySlot (rd r.payload 0 2)] }
def qkDestroyService : Service := { opcode := 0x0803, lenOk := lenIs 4, run := fun _ r s => qkDestroy r s, objs := fun r _ => [.keySlot (rd r.payload 0 2)] }
def qkSlotGetService : Service := { opcode := 0x0804, lenOk := lenIs 4, acc := 0, run := fun _ r s => qkSlotGet r s }
def qkEpLoadService : Service := { opcode := 0x0805, lenOk := varLen 4 44 2 0, run := fun _ r s => qkEpLoad r s, objs := fun _ _ => [.blobs] }
def qkEpClearService : Service := { opcode := 0x0806, lenOk := varLen 4 4 2 0, run := fun _ r s => qkEpClear r s, objs := fun _ _ => [.blobs] }
def qkRewrapService : Service := { opcode := 0x0807, lenOk := lenIs 4, run := qkRewrap }
def qkAttestService : Service := { opcode := 0x0808, lenOk := lenIs 32, acc := 0, run := fun _ r s => qkAttest r s }
def qkCertGetService : Service := { opcode := 0x0809, lenOk := lenIs 4, acc := 0, run := fun _ r s => qkCertGet r s }
def qkStatusGetService : Service := { opcode := 0x080A, lenOk := payloadFree, acc := 0, run := fun _ _ s => replyOk s (qkStatus s) }

/-! ### Meanings -/

def execQkLoad (r : Req) (s : State) : Host.Outcome State Fault Refusal := .next (serve qkLoadService r s)
def execQkDerive (r : Req) (s : State) : Host.Outcome State Fault Refusal := .next (serve qkDeriveService r s)
def execQkGenerate (r : Req) (s : State) : Host.Outcome State Fault Refusal := .next (serve qkGenerateService r s)
def execQkDestroy (r : Req) (s : State) : Host.Outcome State Fault Refusal := .next (serve qkDestroyService r s)
def execQkSlotGet (r : Req) (s : State) : Host.Outcome State Fault Refusal := .next (serve qkSlotGetService r s)
def execQkEpLoad (r : Req) (s : State) : Host.Outcome State Fault Refusal := .next (serve qkEpLoadService r s)
def execQkEpClear (r : Req) (s : State) : Host.Outcome State Fault Refusal := .next (serve qkEpClearService r s)
def execQkRewrap (r : Req) (s : State) : Host.Outcome State Fault Refusal := .next (serve qkRewrapService r s)
def execRewrapWalk (s : State) : Host.Outcome State Fault Refusal := .next (rewrapWalk s)
def execQkAttest (r : Req) (s : State) : Host.Outcome State Fault Refusal := .next (serve qkAttestService r s)
def execQkCertGet (r : Req) (s : State) : Host.Outcome State Fault Refusal := .next (serve qkCertGetService r s)
def execQkStatusGet (r : Req) (s : State) : Host.Outcome State Fault Refusal := .next (serve qkStatusGetService r s)
def execDrbgReseed (pass : Bool) (s : State) : Host.Outcome State Fault Refusal := .next (drbgReseed pass s)

end Sys2Proof.Machine
end

