-- ==== Sys2Proof/Machine/Band.lean ====
section
/-! DEFINITION. Channels, sub-bands and the durations of frames on air (04 R67, R71, R78, 05 R96, R101, R103). The functions take the
values of parameters as an argument, so that the commit check reads a window with them and transmission reads the active set. -/

namespace Sys2Proof.Machine

/-- Port sample rate of an RF_SAMPLE_RATE code, samples/s. -/
def sampleRate (code : Nat) : Nat :=
  match code with
  | 0 => 20000000 | 1 => 10000000 | 2 => 5000000 | _ => 2500000

/-- Channel raster of an RF_RASTER code, Hz. -/
def rasterHz (code : Nat) : Nat :=
  match code with
  | 0 => 12500 | 1 => 25000 | 2 => 100000 | 3 => 200000 | _ => 400000

/-- A raster code carries a mode (Table 04-6). -/
def rasterCarries (raster mode : Nat) : Bool := if mode < 2 then raster == 3 || raster == 4 else raster == 4

/-- What the values of a port's parameters say of its band. -/
structure PortBand where
  centre : Nat
  fs : Nat
  raster : Nat
  deriving DecidableEq, Repr

def portBand (val : Nat → Nat) (p : Nat) : PortBand :=
  { centre := val (pidRf p 1), fs := sampleRate (val (pidRf p 2)), raster := rasterHz (val (pidRf p 3)) }

/-- Number of channels N (R71). -/
def nChannels (b : PortBand) : Nat := 8 * b.fs / 10 / b.raster

/-- Lower edge of the usable band, Hz (R67). -/
def bandLo (b : PortBand) : Int := b.centre - (4 * b.fs / 10 : Nat)

def bandHi (b : PortBand) : Int := b.centre + (4 * b.fs / 10 : Nat)

/-- Edges of channel c: f(c) - raster / 2 and f(c) + raster / 2 (R71, R101). -/
def chanEdges (b : PortBand) (c : Nat) : Int × Int := (bandLo b + (b.raster * c : Nat), bandLo b + (b.raster * (c + 1) : Nat))

/-- The channel whose raster cell holds a frequency. -/
def chanAt (b : PortBand) (f : Int) : Nat := ((f - bandLo b) / (b.raster : Int)).toNat

/-- A channel lies wholly inside a sub-band (R101). -/
def insideSub (e : Int × Int) (x : SubBand) : Bool := (x.fLo : Int) ≤ e.1 && e.2 ≤ (x.fHi : Int)

/-- The sub-band of a profile that a channel lies in: index and entry. -/
def subOf (prof : List (Nat × SubBand)) (e : Int × Int) : Option (Nat × SubBand) := prof.find? (fun x => insideSub e x.2)

/-- Budget B of a sub-band, ms per hour (Table 05-7). -/
def budgetOf (x : SubBand) : Nat := x.duty * 360

/-- Entry i of an 8 x 4-byte reserve parameter (Table 05-6). -/
def reserveAt (v i : Nat) : Nat := v / 2 ^ (32 * i) % 2 ^ 32

/-- Anchor channels in use (Table 05-6). -/
def anchorsOf (v : Nat) : List Nat := (pFields 2 4 v).takeWhile (fun c => c != 0xFFFF)

/-- Used channels of the map, ascending (R123). -/
def mapChannels (base mask : Nat) : List Nat := ((List.range 64).filter (fun i => bit mask i)).map (fun i => base + i)

/-- Nanoseconds per octet in a mode (Table 04-6). -/
def octetNs (mode : Nat) : Nat :=
  match mode with
  | 0 => 160000 | 1 => 80000 | 2 => 53333 | _ => 40000

/-- Duration in µs of a SUN FSK frame with a PSDU of n octets, FCS included: 12 octets of SHR and PHR in base mode (R77, Table 05-8). -/
def sunUs (mode n : Nat) : Nat := 1920 + (n * octetNs mode + 999) / 1000

/-- Duration in µs of a link ack (Table 05-3). -/
def ackUs (mode : Nat) : Nat := 960 + (4 * octetNs mode + 999) / 1000

/-- Duration in µs of a deep-mode frame with a PSDU of n octets (R80). -/
def deepUs (n : Nat) : Nat := ((120 + 8 * n) * 1000000 + 599) / 600

/-- Worst-case charge in quanta of a transmission during which TXEN_N is low for so many µs (R113, R114, Table 05-8). (DEDUCED: log 64) -/
def worstQuanta (us : Nat) : Nat := (us + 999) / 1000 + 1

end Sys2Proof.Machine
end

