-- ==== Sys2Proof/Machine/Phy.lean ====
section
/-! DEFINITION. The PHYs as bits: SUN FSK and deep-mode frames as sent, their check sequences, and channel power (04 R69, R77, R80;
05 R96, R98, R99). -/

namespace Sys2Proof.Machine

/-! ### Check sequences of air frames -/

/-- The 2-octet FCS of IEEE 802.15.4: ITU-T CRC-16, each octet least significant bit first, initial value 0. (PRESUMED: log 145) -/
def fcs16 (p : List Byte) : List Byte := le 2 (crcR (0x8408 : BitVec 16) 0 p).toNat

/-- The 4-octet FCS of IEEE 802.15.4: the CRC-32 of R153, over at least 4 octets. (PRESUMED: log 145) -/
def fcs32 (p : List Byte) : List Byte := le 4 (crc32 (p ++ List.replicate (4 - p.length) 0)).toNat

/-- FCS type of the PHR: 1 is the short one (Table 04-5). -/
def sunFcs (short : Bool) (p : List Byte) : List Byte := if short then fcs16 p else fcs32 p

/-- The deep-mode CRC-16 over length octet and PSDU, its high octet first (R80). -/
def deepFcs (p : List Byte) : List Byte := (le 2 (crc16 (le 1 p.length ++ p)).toNat).reverse

/-- Data whitening of octets that stand at position n and after in the PSDU; the same operation undoes it (R77). -/
def whiten (dw : Bool) (n : Nat) (p : List Byte) : List Byte :=
  if dw then ((List.range p.length).zip p).map (fun x => x.2 ^^^ Config.whitening (n + x.1)) else p

/-! ### Frames as sent -/

/-- The PHR: MS 0, MODE, FCS type, DW, length with the FCS (Table 04-5). -/
def phrOf (mode : Nat) (short dw : Bool) (len : Nat) : BitVec 16 :=
  BitVec.ofNat 16 (2 * mode + 8 * b2n short + 16 * b2n dw + 32 * len)

/-- A SUN FSK PPDU with its FCS; the FCS is calculated before whitening (R77, 05 R96, R98). -/
def sunPpdu (preamble sfd mode : Nat) (short dw : Bool) (p : List Byte) : Ppdu :=
  let body := p ++ sunFcs short p
  { preamble := preamble, sfd := sfd, phr := phrOf mode short dw body.length, psdu := whiten dw 0 body }

/-- A deep-mode frame: 64 bits of 1, the sync word, length octet, PSDU, CRC-16 (R80). -/
def deepFrame (p : List Byte) : List Byte := List.replicate 8 0xFF ++ [0x2E, 0x61, 0xB5, 0x4F] ++ le 1 p.length ++ p ++ deepFcs p

/-! ### Power (R69) -/

/-- The denominator of a mean power over full scale. -/
def fullScale (x : Power) : Nat := x.n * 32767 ^ 2

/-- floor(100 · log10(num / den)): a power ratio in 0.1 dB, rounded down, for ratios from 10^-40. -/
def tenthDb (num den : Nat) : Int := (Nat.log 10 (num ^ 100 * 10 ^ 4000 / den ^ 100) : Int) - 4000

/-- The ratio of two powers reaches k tenths of a dB. -/
def atLeastDb (x y : Power) (k : Nat) : Bool := y.sum == 0 || (x.sum != 0 && (k : Int) ≤ tenthDb (x.sum * y.n) (x.n * y.sum))

end Sys2Proof.Machine
end

