-- ==== Sys2Proof/Machine/Queue.lean ====
section
/-! DEFINITION. The fall-through queue between a lane or a PLC port and the directory island (06 R143 to R149). -/

namespace Sys2Proof.Machine

/-- Occupied stages. -/
def qUsed (q : FtQueue) : Nat := (q.packets.map (fun p => p.words.length)).sum

def qFree (q : FtQueue) : Nat := 32 - qUsed q

/-- The packet at the output end that has a word. -/
def qHead (q : FtQueue) : Option QPacket := q.packets.find? (fun p => !p.words.isEmpty)

/-- Packets that are over and of which nothing is held are gone. -/
def qPrune (q : FtQueue) : FtQueue := { q with packets := q.packets.filter (fun p => !(p.ended && p.words.isEmpty)) }

/-- The first word of the packet can be read (R145). -/
def qReady (thr : Nat) (p : QPacket) : Bool := 0 < p.read || thr ≤ p.pushed || p.ended || p.doomed

/-- Take the oldest word of the packet at the output end. -/
def qTake (q : FtQueue) : FtQueue :=
  let rec_ := fun (w : QWord) (p : QPacket) =>
    { q with readRes := .word w.word w.isEnd p.doomed false, taken := q.taken ++ [w] }
  match q.packets.span (fun p => p.words.isEmpty) with
  | (front, p :: rest) =>
    match p.words with
    | w :: ws => qPrune { rec_ w p with packets := front ++ { p with words := ws, read := p.read + 1 } :: rest }
    | [] => q
  | (_, []) => q

/-- A waiting READ completes when its word is there (R145). -/
def qTry (thr : Nat) (q : FtQueue) : FtQueue :=
  if q.readRes = .waiting then
    match qHead q with
    | some p => if qReady thr p then qTake q else q
    | none => q
  else q

/-- READ (R145). -/
def qRead (thr : Nat) (q : FtQueue) : FtQueue := qTry thr { q with readRes := .waiting }

/-- The packet being pushed: the last one, unless its END word has been pushed. -/
def qOpen (q : FtQueue) : Option QPacket :=
  match q.packets.getLast? with
  | some p => if p.ended then none else some p
  | none => none

/-- Put the packet being pushed back. -/
def qPutOpen (p : QPacket) (q : FtQueue) : FtQueue :=
  { q with packets := (if (qOpen q).isSome then q.packets.dropLast else q.packets) ++ [p] }

/-- A push is accepted: a stage for a word that is kept, a notice entry for END (R144, R146). -/
def qAccepts (last : Bool) (q : FtQueue) : Bool :=
  let keeps := match qOpen q with
    | some p => !p.dropping
    | none => true
  (!keeps || 0 < qFree q) && (!last || q.notices.length < 16)

/-- PUSH of an accepted word (R144, R146, R147). -/
def qPut (thr : Nat) (word : DWord) (last : Bool) (code : BitVec 16) (q : FtQueue) : FtQueue :=
  let p := (qOpen q).getD {}
  let w : QWord := { word := word, isEnd := last, code := code }
  let p1 := { p with words := if p.dropping then [] else p.words ++ [w], pushed := p.pushed + 1, ended := last }
  let q1 := qPutOpen p1 q
  let q2 := if last then { q1 with notices := q1.notices ++ [{ count := p1.pushed, dropped := p.dropping, code := code }] } else q1
  qTry thr (qPrune q2)

/-- PUSH: none when it is refused (R144). -/
def qPush (thr : Nat) (word : DWord) (last : Bool) (code : BitVec 16) (q : FtQueue) : Option FtQueue :=
  if qAccepts last q then some (qPut thr word last code q) else none

/-- DOOM: ignored once the packet's END has been pushed (R144, R149). -/
def qDoom (thr : Nat) (q : FtQueue) : FtQueue :=
  match qOpen q with
  | some p => qTry thr (qPutOpen { p with doomed := true } q)
  | none => q

/-- Discard what is held of the current packet, and what is still to come of it (R146, R149). -/
def qDropOne (p : QPacket) : QPacket := { p with words := [], dropping := !p.ended }

/-- Words of whole packets: what was read of a packet that will not be whole goes with it. -/
def wholeOnly (ws : List QWord) : List QWord := (ws.reverse.dropWhile (fun w => !w.isEnd)).reverse

/-- DROP_REST on the current packet, or on the one at the output end (R146). -/
def qDrop (q : FtQueue) : FtQueue :=
  match q.packets with
  | [] => { q with dropIdle := true }
  | p :: rest =>
    if p.words.isEmpty && p.read = 0 then { q with dropIdle := true }
    else qPrune { q with packets := qDropOne p :: rest, taken := wholeOnly q.taken }

/-- NOTICE_POP (R144). -/
def qPop (q : FtQueue) : FtQueue :=
  match q.notices with
  | [] => { q with popped := none }
  | n :: rest => { q with notices := rest, popped := some n }

/-- The producing island enters reset, or its link is fenced (R148): a notice of ABORTED for a current packet that has none yet. -/
def qReset (q : FtQueue) : FtQueue :=
  let ns := match q.packets with
    | p :: _ => if p.ended || 16 ≤ q.notices.length then q.notices
        else q.notices ++ [{ count := p.pushed, dropped := true, code := 3 }]
    | [] => q.notices
  { q with packets := [], taken := wholeOnly q.taken, notices := ns, readRes := if q.readRes = .waiting then .word 0 false false true else q.readRes }

/-! ### The queues of the engine: 0 to 255 those of the lanes, 256 to 271 those of the PLC ports -/

def lane (s : State) (l : Nat) : Lane := tget s.lanes l {}

def setLane (l : Nat) (f : Lane → Lane) (s : State) : State := { s with lanes := tupd s.lanes l {} f }

def plcp (s : State) (q : Nat) : PlcPort := tget s.plc q {}

def setPlc (q : Nat) (f : PlcPort → PlcPort) (s : State) : State := { s with plc := tupd s.plc q {} f }

def ftq (s : State) (k : Nat) : FtQueue := if k < 256 then (lane s k).queue else (plcp s (k - 256)).queue

def setFtq (k : Nat) (f : FtQueue → FtQueue) (s : State) : State :=
  if k < 256 then setLane k (fun x => { x with queue := f x.queue }) s
  else if k < 272 then setPlc (k - 256) (fun x => { x with queue := f x.queue }) s
  else s

/-- LANE_CUT_THROUGH or PLC_CUT_THROUGH. -/
def cutThrough (s : State) (k : Nat) : Nat := if k < 256 then pval s 0x2000 else pval s 0x3000

/-- The physical lane that serves a logical lane (19 R480). -/
def physOf (s : State) (l : Nat) : Option Nat := (s.roles.find? (fun e => e.2 == .serving l)).map (·.1)

/-- The island that produces the words of a queue: that of the physical lane which serves the lane, or of the PLC port. -/
def producerOf (s : State) (k : Nat) : Option Nat := if k < 256 then (physOf s k).map (fun p => p / 16) else some (islPlc (k - 256))

/-- The producer side can work: its island is out of reset and not fenced (R148). -/
def producerUp (s : State) (k : Nat) : Bool :=
  match producerOf s k with
  | some i => islUp s i
  | none => true

/-- The consumer side can work: the directory island is out of reset (R148). -/
def dirUp (s : State) : Bool := !(isl s 31).inReset

/-- A push by hand on a queue; a refused push changes nothing (R144), and none is made until the producing island leaves reset (R148). -/
def queuePush (k : Nat) (word : DWord) (last : Bool) (code : BitVec 16) (s : State) : State :=
  if producerUp s k then setFtq k (fun q => (qPush (cutThrough s k) word last code q).getD q) s else s

def queueDoom (k : Nat) (s : State) : State := if producerUp s k then setFtq k (qDoom (cutThrough s k)) s else s

/-- A word was read with DOOM: the directory drops the rest of its packet, unless the word was its last (R152). -/
def dropDoomed (q : FtQueue) : FtQueue :=
  match q.readRes with
  | .word _ false true _ => qDrop q
  | _ => q

/-- READ by the directory; a word with DOOM brings DROP_REST (R145, R152). -/
def queueRead (k : Nat) (s : State) : State :=
  if dirUp s then setFtq k (fun q => dropDoomed (qRead (cutThrough s k) q)) s else s

def dropRest (k : Nat) (s : State) : State := if dirUp s then setFtq k qDrop s else s

def noticePop (k : Nat) (s : State) : State := if dirUp s then setFtq k qPop s else s

/-! ### The packet that the directory handles next -/

/-- Words through the first END, and the words after it. -/
def splitEnd : List QWord → Option (List QWord × List QWord)
  | [] => none
  | w :: rest => if w.isEnd then some ([w], rest) else (splitEnd rest).map (fun r => (w :: r.1, r.2))

/-- Packets ended and not yet handled. -/
def endedCount (q : FtQueue) : Nat :=
  (q.taken.filter (fun w => w.isEnd)).length + (q.packets.filter (fun p => p.ended)).length

/-- The head packet is doomed: the directory drops it (R152). -/
def dropHead (q : FtQueue) : FtQueue :=
  match q.packets with
  | p :: _ => if p.doomed && !p.dropping then qDrop q else q
  | [] => q

/-- The directory's housekeeping before it takes a packet: a doomed head is dropped, and the notices of dropped packets are popped (R152). -/
def clearHead (q : FtQueue) : FtQueue :=
  let q1 := dropHead q
  { q1 with notices := q1.notices.dropWhile (fun n => n.dropped) }

/-- Whole packets held, oldest first. -/
def wholePackets : Nat → List QWord → List (List QWord)
  | 0, _ => []
  | n + 1, ws => match splitEnd ws with
    | some (p, rest) => p :: wholePackets n rest
    | none => []

/-- The oldest whole packet and the queue without it and without its notice; notices of dropped packets before it go too. None while no
packet has ended (R145, R147). -/
def takePacket (q : FtQueue) : Option (List QWord × FtQueue) :=
  let pop := fun (q1 : FtQueue) =>
    if endedCount q ≤ (q.notices.filter (fun n => !n.dropped)).length then
      { q1 with notices := (q1.notices.dropWhile (fun n => n.dropped)).drop 1 }
    else q1
  match splitEnd q.taken with
  | some (ws, rest) => some (ws, pop { q with taken := rest })
  | none =>
    match q.packets with
    | p :: rest => if p.ended then some (q.taken ++ p.words, pop { q with taken := [], packets := rest }) else none
    | [] => none

/-! ### Meanings -/

def execQueuePush (q : Nat) (word : DWord) (last : Bool) (code : BitVec 16) (s : State) : Host.Outcome State Fault Refusal :=
  .next (queuePush q word last code s)

def execQueueDoom (q : Nat) (s : State) : Host.Outcome State Fault Refusal := .next (queueDoom q s)

def execQueueRead (q : Nat) (s : State) : Host.Outcome State Fault Refusal := .next (queueRead q s)

def execDropRest (q : Nat) (s : State) : Host.Outcome State Fault Refusal := .next (dropRest q s)

def execNoticePop (q : Nat) (s : State) : Host.Outcome State Fault Refusal := .next (noticePop q s)

end Sys2Proof.Machine
end

