-- ==== Sys2Proof/Machine/Reception.lean ====
section
/-! DEFINITION. Air reception: RF ports in service, lanes, blanking, lane assignment, statistics (04). -/

namespace Sys2Proof.Machine

/-! ### RF ports (R67 to R70) -/

def rfp (s : State) (p : Nat) : RfPort := tget s.rf p {}

def setRf (p : Nat) (f : RfPort → RfPort) (s : State) : State := { s with rf := tupd s.rf p {} f }

/-- RFRST_N, RXEN_N, TXEN_N and PAEN_N of a state (Table 04-2). -/
def rfPins : RfState → Bool × Bool × Bool × Bool
  | .disabled => (false, true, true, true) | .absent => (false, true, true, true) | .down => (false, true, true, true)
  | .awaitTc => (true, true, true, true) | .receiving => (true, false, true, true) | .transmitting => (true, true, false, false)

/-- Put a port into a state, with its pins (R70). -/
def setRfState (st : RfState) (x : RfPort) : RfPort :=
  let (a, b, c, d) := rfPins st
  { x with state := st, rfrstN := a, rxenN := b, txenN := c, paenN := d }

/-- The port is enabled and up: state 1 of R91. -/
def rfUp (s : State) (p : Nat) : Bool := p < 8 && ((rfp s p).state == .receiving || (rfp s p).state == .transmitting)

/-- The capability report lists the port (R50): its island is in service and it is not absent. -/
def rfListed (s : State) (p : Nat) : Bool :=
  p < 8 && !islExcluded s (islRf p) && (rfp s p).state != .absent && 9 ≤ s.boot.stage && s.boot.fail == 0

/-- Logical lanes that listen on a port now. -/
def lanesOn (s : State) (p : Nat) : List Nat :=
  (s.lanes.filter (fun e => e.1 < s.laneCount && e.2.asg.port == p && e.2.asg.mode != 0)).map (·.1)

/-! ### Power at the antenna port (R69) -/

/-- What the port adds to a power over full scale: RF_FS_DBM and GAIN_STEP, in 0.1 dB. -/
def powerOffset (s : State) (p : Nat) : Int := toSigned 16 (pval s (pidRf p 4)) + 10 * ((rfp s p).gain : Int)

/-- Power in 0.1 dBm as it is reported: which way it is rounded, and the logarithm of 0, the manual leaves open. (DESIGN CHOICE: log 146) -/
def powerDbm (s : State) (p : Nat) (x : Power) : Int :=
  if x.sum = 0 then Config.zeroPower
  else tenthDb x.sum (fullScale x) + (if Config.roundUp x.sum (fullScale x) then 1 else 0) + powerOffset s p

/-- The power lies below a threshold in 0.1 dBm. -/
def powerBelow (s : State) (p : Nat) (x : Power) (thresh : Int) : Bool :=
  x.sum == 0 || tenthDb x.sum (fullScale x) + powerOffset s p < thresh

/-- A logical lane is served by a physical lane in an island that runs. -/
def served (s : State) (l : Nat) : Bool :=
  l < s.laneCount && match physOf s l with
    | some k => islUp s (k / 16)
    | none => false

/-! ### The end of a frame on a lane (R87 to R89) -/

/-- Trailer 0 (Table 04-10). -/
def laneTrailer (status : Nat) (rssi cfo snr : Int) : DWord :=
  BitVec.ofNat 64 (status + 2 ^ 16 * ofLe (leI 2 rssi) + 2 ^ 32 * ofLe (leI 2 cfo) + 2 ^ 48 * ofLe (leI 2 snr))

/-- Room for the two trailer words and the notice. -/
def trailerRoom (q : FtQueue) : Bool := 2 ≤ qFree q && q.notices.length < 16

/-- The queue refuses a word: no more PSDU words, one overflow counted (R89). -/
def laneOverflow (l : Nat) (s : State) : State := setLane l (fun x => { x with rx := .overflow, qOvf := x.qOvf + 1 }) s

/-- Push both trailer words, the second with END; the lane is idle then (R87). -/
def pushTrailers (l : Nat) (t0 t1 : DWord) (s : State) : State :=
  let thr := cutThrough s l
  setLane l (fun x => { x with rx := .idle, queue := qPut thr t1 true 0 (qPut thr t0 false 0 x.queue) }) s

/-- The measurements of a frame that ended early: the manual gives them no value (log 9). (DEDUCED: log 65) -/
def openMeasures (status : Nat) (s : State) : DWord × State :=
  let (a, s1) := fresh s
  let (b, s2) := fresh s1
  let (c, s3) := fresh s2
  (BitVec.ofNat 64 (status + 2 ^ 16 * (a % 65536) + 2 ^ 32 * (b % 65536) + 2 ^ 48 * (c % 65536)), s3)

/-- A frame ends early with a status: the words so far and the trailer; a lane that has no header pushed yet pushes nothing (R87). -/
def laneEarly (status : Nat) (l : Nat) (s : State) : State :=
  match (lane s l).rx with
  | .frame _ =>
    if trailerRoom (lane s l).queue then
      let (t0, s1) := openMeasures status s
      pushTrailers l t0 0 s1
    else laneOverflow l s
  | .shr _ _ => setLane l (fun x => { x with rx := .idle }) s
  | _ => s

def bandOf (s : State) (p : Nat) : PortBand := portBand (pval s) p

/-- The port is declared down (R68): its frames end, and retraining starts. -/
def portDown (p : Nat) (s : State) : State :=
  let s1 := (lanesOn s p).foldl (fun s l => laneEarly 4 l s) s
  raise 0x20 (setRf p (fun x => { setRfState .down x with training := true, seq := none, errAt := [] }) s1)

/-- Slot number of an error lies at most 255 slots before n. -/
def inWindow (n : Nat) (e : Nat) : Bool := n ≤ e + 255

/-- The engine treats the sample -32 768 as -32 767 (R67). -/
def clampSample (v : BitVec 16) : Int := max (-32767) v.toInt

/-- The TX slot that leaves beside RX slot n: VALID in one slot of every 20 / Fs, SEQ, 0 in every other field (R66). The TX slots are counted
by the RX slots, whose first one of the service has SEQ 1 beside it. (DESIGN CHOICE: log 148) -/
def txWord (s : State) (p n : Nat) : BitVec 16 :=
  BitVec.ofNat 16 (2 ^ 15 * b2n (n % (20000000 / (bandOf s p).fs) == 0) + n % 256)

/-- One slot of a port in service (R66 to R68, R85, R86, R92). After a slot whose copies disagree the SEQ that was due counts as the previous
one, 0 when none had come; OVLD and GAIN_STEP are taken neither from a slot in error nor during blanking. (DESIGN CHOICE: log 148) -/
def iqSlot (p : Nat) (x : IqSlot) (s : State) : State :=
  let r := rfp s p
  if !rfUp s p then s
  else
    let st := x.status
    let expected := r.seq.map (fun q => q + 1)
    let agree := x.copy == ~~~st
    let got : BitVec 8 := st.setWidth 8
    let err := !agree || (match expected with
      | some e => e != got
      | none => false)
    let r1 := { r with seq := some (if agree then got else expected.getD 0), slotNo := r.slotNo + 1, txStatus := txWord s p (r.slotNo + 1) }
    if !r.blankedBy.isEmpty then setRf p (fun _ => r1) s
    else if err then
      let near := r1.errAt.filter (inWindow r1.slotNo)
      let s1 := setRf p (fun _ => { r1 with slotErr := r1.slotErr + 1, errAt := r1.slotNo :: near.take 2, lastSample := (0, 0) }) s
      if 3 ≤ near.length then portDown p s1 else s1
    else
      let clipped := st.getLsbD 14
      let r2 := { r1 with gain := bits st.toNat 13 8, ovld := if clipped then r1.ovld + 1 else r1.ovld,
                          ovldNow := if clipped then r1.ovldNow + 1 else r1.ovldNow,
                          lastSample := if st.getLsbD 15 then (clampSample x.i, clampSample x.q) else r1.lastSample,
                          sampleGain := if st.getLsbD 15 then bits st.toNat 13 8 else r1.sampleGain }
      raiseIf (clipped && r1.ovldNow == 0 && !r1.ovldPrev) 0x22 (setRf p (fun _ => r2) s)

/-- A 100 ms window of a port ends (R92). -/
def overloadWindow (p : Nat) (s : State) : State :=
  if rfUp s p then setRf p (fun x => { x with ovldPrev := x.ovldNow != 0, ovldNow := 0 }) s else s

/-! ### A frame on a lane (R77 to R80, R87, R88) -/

/-- The lane can detect an SHR: assigned, served, its port up and not blanked (R68, R86). -/
def canDetect (s : State) (l : Nat) : Bool :=
  let x := lane s l
  served s l && x.asg.mode != 0 && rfUp s x.asg.port && (rfp s x.asg.port).blankedBy.isEmpty

/-- What the correlator found is the start of a frame of the lane's mode: 8 octets of preamble and the SFD selected, or the sync word within
the carrier search, DEEP_SEARCH_HZ limited to raster / 2 − 1 kHz (R77, R80). -/
def shrFits (s : State) (x : Lane) (h : ShrIn) : Bool :=
  if h.deep then
    x.asg.mode == 2 && h.sync == 0x2E61B54F && h.offset.natAbs ≤ min (pval s 0x2003) ((bandOf s x.asg.port).raster / 2 - 1000)
  else x.asg.mode == 1 && 8 ≤ h.preamble && h.sfd == pval s 0x2001

/-- An SHR, or the sync word of a deep-mode frame, at a power (R79, R80). -/
def shrDetect (l : Nat) (power : Power) (h : ShrIn) (s : State) : State :=
  let x := lane s l
  if !canDetect s l || !shrFits s x h then s
  else
    let start := fun (x : Lane) => { x with rx := .shr power h.deep, shrs := x.shrs + 1 }
    match x.rx with
    | .idle => setLane l start s
    | .shr cur _ =>
      if atLeastDb power cur (10 * pval s 0x2002) then setLane l (fun x => { start x with captures := x.captures + 1 }) s else s
    | _ => s

/-- Channel of a stream: bits [10:0] of its parameter (R75). -/
def streamChannel (s : State) (p st : Nat) : Nat := pval s (pidStream p st) % 2048

/-- The header word (Table 04-10). -/
def laneHeader (l : Nat) (x : Lane) (ch mode : Nat) (deep crc16_ dw : Bool) (len : Nat) : DWord :=
  BitVec.ofNat 64 (l + 2 ^ 8 * x.asg.port + 2 ^ 11 * x.asg.stream + 2 ^ 16 * ch + 2 ^ 27 * mode + 2 ^ 29 * b2n deep
    + 2 ^ 30 * b2n crc16_ + 2 ^ 31 * b2n dw + 2 ^ 32 * len)

/-- The PHR is decoded, or the length octet of a deep-mode frame: the header word is pushed, or a PHR error is counted (R77, R78, R80). A mode that
the lane's mask enables is received although a new raster no longer carries it. (DESIGN CHOICE: log 148) -/
def phrDecode (l : Nat) (phr : BitVec 16) (s : State) : State :=
  let x := lane s l
  match x.rx with
  | .shr _ deep =>
    let n := phr.toNat
    let mode := if deep then 0 else bits n 2 1
    let short := deep || bit n 3
    let fcs := if short then 2 else 4
    let len := if deep then n % 256 else bits n 15 5
    let ok := if deep then 1 ≤ len && len ≤ 48
      else !bit n 0 && bit x.asg.rateMask mode && fcs + 1 ≤ len
    if !ok then setLane l (fun x => { x with rx := .idle, phrErr := x.phrErr + 1 }) s
    else
      let psdu := if deep then len else len - fcs
      let h := laneHeader l x (streamChannel s x.asg.port x.asg.stream) mode deep short (!deep && bit n 4) psdu
      match qPush (cutThrough s l) h false 0 x.queue with
      | some q => setLane l (fun x => { x with rx := .frame psdu, hdr := h, queue := q, octets := [] }) s
      | none => laneOverflow l s
  | _ => s

/-- The next PSDU word as received, or its last octets: whitening is undone, and the word pushed (R77, R87, R89). -/
def psduWord (l : Nat) (word : DWord) (s : State) : State :=
  let x := lane s l
  match x.rx with
  | .frame left =>
    if left = 0 then s
    else
      let n := min 8 left
      let octets := whiten (x.hdr.getLsbD 31) x.octets.length ((le 8 word.toNat).take n)
      match qPush (cutThrough s l) (BitVec.ofNat 64 (ofLe octets)) false 0 x.queue with
      | some q => setLane l (fun x => { x with rx := .frame (left - n), queue := q, octets := x.octets ++ octets }) s
      | none => laneOverflow l s
  | _ => s

/-- The check sequence of the frame in progress holds: CRC-32 or CRC-16 by FCS type, or the deep-mode CRC-16 (R77, R80). -/
def fcsHolds (x : Lane) (fcs : List Byte) : Bool :=
  if x.hdr.getLsbD 29 then fcs == deepFcs x.octets
  else whiten (x.hdr.getLsbD 31) x.octets.length fcs == sunFcs (x.hdr.getLsbD 30) x.octets

/-- The entry of perMode that counts a frame: its MODE, or 4 for a deep-mode frame (R90). -/
def modeIndex (hdr : DWord) : Nat := if hdr.getLsbD 29 then 4 else bits hdr.toNat 28 27

/-- Count a frame that ended with its check sequence (R90). -/
def countFrame (good : Bool) (mode : Nat) (rssi : Int) (x : Lane) : Lane :=
  if good then
    { x with good := x.good + 1, lastRssi := BitVec.ofInt 16 rssi, perMode := tupd x.perMode mode 0 (· + 1) }
  else { x with crcBad := x.crcBad + 1 }

/-- A frame reaches its end: GOOD or CRC_BAD with its end time (R77, R80, R87, R88). -/
def frameEnd (l : Nat) (fin : FrameEnd) (s : State) : State :=
  let x := lane s l
  match x.rx with
  | .frame 0 =>
    let good := fcsHolds x fin.fcs
    let rssi := powerDbm s x.asg.port fin.power
    if trailerRoom x.queue then
      pushTrailers l (laneTrailer (if good then 0 else 1) rssi fin.cfo fin.snr) (BitVec.ofNat 64 fin.endTime)
        (setLane l (countFrame good (modeIndex x.hdr) rssi) (advTo fin.endTime s))
    else laneOverflow l s
  | _ => s

/-- Two stages are free again: the trailer with OVERFLOW (R89). -/
def overflowTrailer (l : Nat) (fin : FrameEnd) (s : State) : State :=
  let x := lane s l
  match x.rx with
  | .overflow =>
    if trailerRoom x.queue then pushTrailers l (laneTrailer 5 (powerDbm s x.asg.port fin.power) fin.cfo fin.snr) 0 s else s
  | _ => s

/-! ### Blanking (R85, R86) -/

/-- Ports that a transmission on p blanks. -/
def blankedPorts (s : State) (p : Nat) : List Nat :=
  (List.range 8).filter (fun r => r == p || (bit (pval s (pidRf p 5)) r && rfUp s r))

/-- A lane that holds a frame ends it BLANKED (R86). -/
def blankLane (l : Nat) (s : State) : State :=
  match (lane s l).rx with
  | .frame _ => setLane l (fun x => { x with blanked := x.blanked + 1 }) (laneEarly 2 l s)
  | .shr _ _ => setLane l (fun x => { x with blanked := x.blanked + 1 }) (laneEarly 2 l s)
  | _ => s

/-- The monotonic base in microseconds. -/
def monoUs (s : State) : Nat := s.mono * 1000000 / 2 ^ 24

/-- The blanking interval of port p begins on one port, at a monotonic microsecond not after now. -/
def blankPort (p since r : Nat) (s : State) : State :=
  let x := rfp s r
  if x.blankedBy.contains p then s
  else
    let from_ := max since x.blankDone
    let from_ := if x.blankedBy.isEmpty then from_ else min from_ x.blankSince
    (lanesOn s r).foldl (fun s l => blankLane l s) (setRf r (fun x => { x with blankedBy := x.blankedBy ++ [p], blankSince := from_ }) s)

/-- The blanking interval of port p's transmission begins, at a monotonic microsecond (R85). -/
def blankAll (p since : Nat) (s : State) : State := (blankedPorts s p).foldl (fun s r => blankPort p since r s) s

/-- From the start of a blanking interval to the first symbol at the antenna: RF_BLANK_PRE_US and the fall of TXEN_N (R85). -/
def blankLead (s : State) (p : Nat) : Nat := tUs (pval s (pidRf p 6) + (rfp s p).train.txenLead)

/-- Blanking by port p ends on one port: the end of the union adds its length to the blanked times (R85, R86). -/
def unblankPort (p r : Nat) (s : State) : State :=
  let x := rfp s r
  if !x.blankedBy.contains p then s
  else
    let left := x.blankedBy.filter (fun b => b != p)
    let n := if left.isEmpty then monoUs s - x.blankSince else 0
    let s1 := setRf r (fun x => { x with blankedBy := left, blankUs := x.blankUs + n,
                                         blankDone := if left.isEmpty then monoUs s else x.blankDone }) s
    (lanesOn s1 r).foldl (fun s l => setLane l (fun x => { x with blankUs := x.blankUs + n }) s) s1

/-- The blanking interval of port p ends RF_BLANK_POST_US after TXEN_N rose, on the monotonic base (R85, 05 R113). -/
def blankingEnd (p : Nat) (s : State) : State :=
  if p < 8 && (rfp s p).blankedBy.contains p && (rfp s p).state != .transmitting then
    let s1 := advMono ((rfp s p).txenRise + tUs (pval s (pidRf p 7))) s
    setRf p (fun x => { x with blankAt := none }) ((List.range 8).foldl (fun s r => unblankPort p r s) s1)
  else s

/-! ### Lane assignment (R82 to R84) -/

/-- Statistics of a lane at their reset values (R84). -/
def clearStats (x : Lane) : Lane :=
  { x with shrs := 0, phrErr := 0, good := 0, crcBad := 0, captures := 0, blanked := 0, blankUs := 0, qOvf := 0, fsOvf := 0,
           lastRssi := 0x8000, perMode := [] }

/-- Every lane of a PENDING LANE_ASSIGN has switched. -/
def assignDone (s : State) (o : PendOp) : Bool :=
  (List.range (rd o.req.payload 0 2)).all (fun i => (lane s (rd o.req.payload (4 + 8 * i) 2)).next.isNone)

/-- The final OK of each LANE_ASSIGN whose lanes have all switched (R84). -/
def finishAssigns (s : State) : State :=
  let ids := (s.ops.filter (fun o => o.opcode == 0x0210 && o.kind == .running && assignDone s o)).map (·.id)
  finishOps ids .ok (le 8 s.now) s

/-- A lane takes the assignment that waits for it. -/
def switchLane (l : Nat) (s : State) : State :=
  match (lane s l).next with
  | none => s
  | some a => setLane l (fun x => { x with asg := a, next := none }) s

/-- A shadow of the lane is abandoned: the step begins it again under the new assignment (19 R484). -/
def dropShadow (l : Nat) (s : State) : State :=
  match s.rot.shadow with
  | some (k, l') => if l' = l then { s with rot.shadow := none, rot.shadowAt := none, roles := tset s.roles k .spare } else s
  | none => s

/-- LANE_SWITCH: the idle point of a lane with an assignment waiting (R84). -/
def laneSwitch (l : Nat) (s : State) : State :=
  if (lane s l).next.isSome && (lane s l).rx == .idle then finishAssigns (switchLane l (dropShadow l s)) else s

/-- A lane switches at once: a frame it holds ends ABORTED (R84). -/
def forceLane (l : Nat) (s : State) : State := switchLane l (dropShadow l (laneEarly 3 l s))

/-- Entry i of a LANE_ASSIGN: lane, assignment, FORCE. -/
def asgEntry (p : List Byte) (i : Nat) : Nat × LaneAsg × Bool :=
  let o := 4 + 8 * i
  (rd p o 2, { port := rd p (o + 2) 1, stream := rd p (o + 3) 1, mode := rd p (o + 4) 1, rateMask := rd p (o + 5) 1 }, bit (rd p (o + 6) 1) 0)

/-- Reserved bits and bytes of an entry are 0. -/
def asgRsv (p : List Byte) (i : Nat) : Bool := rd p (4 + 8 * i + 6) 1 ≤ 1 && rd p (4 + 8 * i + 7) 1 == 0

/-- Mode, mask and stream of an entry are allowed, by the values that it will join (R83). -/
def asgOk (val : Nat → Nat) (a : LaneAsg) : Bool :=
  a.mode ≤ 2 && (a.mode == 1 || a.rateMask == 0)
    && (a.mode != 1 || (a.rateMask != 0 && a.rateMask < 16
          && (a.port ≥ 8 || (List.range 4).all (fun m => !bit a.rateMask m || rasterCarries (val (pidRf a.port 3)) m))))
    && (a.port ≥ 8 || (a.stream < 32 && bit (val (pidStream a.port a.stream)) 15))

/-- Two lanes in the same mode share one (port, stream) (R83). -/
def sharesStream (t : List LaneAsg) : Bool :=
  let used := (t.filter (fun a => a.mode != 0)).map (fun a => (a.port, a.stream, a.mode))
  !(used.eraseDups.length == used.length)

/-- The lane table that a batch joins: the window's, or the active one with the assignments that wait. -/
def laneTable (s : State) (window : Bool) : Tbl LaneAsg :=
  if window then (s.cfg.window.map (fun w => w.lanes)).getD []
  else s.lanes.map (fun e => (e.1, e.2.next.getD e.2.asg))

def inWindowState (s : State) : Bool := s.cfg.state == .configuring || s.cfg.state == .reconfiguring

/-- The value that a commit window, or the active set, gives a parameter. -/
def valueIn (s : State) (window : Bool) (id : Nat) : Nat :=
  if window then (match s.cfg.window with
    | some w => wval w id
    | none => pval s id)
  else pval s id

/-- LANE_ASSIGN (R83, R84). (DEDUCED: log 66) -/
def laneAssign (r : Req) (s : State) : Reply :=
  let p := r.payload
  let n := rd p 0 2
  let es := (List.range n).map (asgEntry p)
  let win := inWindowState s
  let table := es.foldl (fun (t : Tbl LaneAsg) e => tset t e.1 e.2.1) (laneTable s win)
  let ls := es.map (fun e => e.1)
  if s.cfg.state == .committing then .wait s
  else if !zeroAt p 2 2 || (List.range n).any (fun i => !asgRsv p i) || !(ls.eraseDups.length == ls.length)
      || es.any (fun e => !asgOk (valueIn s win) e.2.1) || sharesStream (table.map (fun e => e.2)) then refuse s .badParam
  else if es.any (fun e => s.laneCount ≤ e.1 || !rfListed s e.2.1.port) then refuse s .noResource
  else if n = 0 then replyOk s (le 8 0)
  else if win then
    match s.cfg.window with
    | some w =>
      let w1 := { w with lanes := es.foldl (fun (t : Tbl LaneAsg) e => tset t e.1 e.2.1) w.lanes }
      replyOk { s with cfg.window := some w1 } (le 8 0)
    | none => refuse s .badState
  else
    let s1 := es.foldl (fun s e => setLane e.1 (fun x => { x with next := some e.2.1 }) s) s
    let s2 := es.foldl (fun s e => if e.2.2 then forceLane e.1 s else s) s1
    if es.all (fun e => (lane s2 e.1).next.isNone) then .twice s2 .ok (le 8 s2.now) else .pend s2 [.lanes]

/-- Eight bytes of the lane table. -/
def asgBytes (l : Nat) (a : LaneAsg) : List Byte := le 2 l ++ le 1 a.port ++ le 1 a.stream ++ le 1 a.mode ++ le 1 a.rateMask ++ le 2 0

/-- The range of lanes a request names (R525). -/
def laneRange (p : List Byte) (most : Nat) : Option (List Nat) :=
  let first := rd p 0 2
  let count := rd p 2 2
  if most < count || 256 < first + count then none else some ((List.range count).map (fun i => first + i))

/-- LANE_TABLE_GET (R82, R526). -/
def laneTableGet (r : Req) (s : State) : Reply :=
  let src := rd r.payload 4 1
  match laneRange r.payload 256 with
  | none => refuse s .badParam
  | some ls =>
    if 1 < src || !zeroAt r.payload 5 1 then refuse s .badParam
    else if src = 1 && s.cfg.window.isNone then refuse s .badState
    else
      let asg := fun (l : Nat) =>
        if s.laneCount ≤ l then ({} : LaneAsg)
        else if src = 0 then (lane s l).asg
        else tget ((s.cfg.window.map (fun w => w.lanes)).getD []) l {}
      replyOk s ((ls.map (fun l => asgBytes l (asg l))).flatten)

/-- Bytes 0 to 7 of a lane's statistics record, which the register block mirrors (R90, R505). -/
def laneIdBytes (s : State) (l : Nat) : List Byte :=
  let a := if s.laneCount ≤ l then {} else (lane s l).asg
  let phys := if s.laneCount ≤ l || a.mode = 0 then 0xFFFF else (physOf s l).getD 0xFFFF
  le 2 l ++ le 2 phys ++ le 1 a.port ++ le 1 a.stream ++ le 1 a.mode ++ le 1 a.rateMask

/-- The noise floors of lanes are measured: the median channel power of the last second outside frames is a value that no command carries
(R69, R90). (UNVERIFIED: log 9) -/
def measureNoise : List Nat → State → State
  | [], s => s
  | l :: ls, s =>
    let (v, s1) := fresh s
    measureNoise ls (setLane l (fun x => { x with noise := BitVec.ofNat 16 v }) s1)

/-- Bytes 48 to 63: frames per MODE, or the deep frames of a DEEP lane. -/
def modeBytes (x : Lane) : List Byte :=
  if x.asg.mode = 2 then le 4 (tget x.perMode 4 0).toNat ++ le 12 0
  else ((List.range 4).map (fun m => le 4 (tget x.perMode m 0).toNat)).flatten

/-- One record of LANE_STATS_GET (Table 04-11); an unserved lane has counters 0, no GOOD frame, and no noise floor, for which 0 stands.
(DESIGN CHOICE: log 148) -/
def laneStats (s : State) (l : Nat) : List Byte :=
  if s.laneCount ≤ l then laneIdBytes s l ++ le 36 0 ++ le 2 0x8000 ++ le 18 0
  else
    let x := lane s l
    laneIdBytes s l ++ le 4 x.shrs.toNat ++ le 4 x.phrErr.toNat ++ le 4 x.good.toNat ++ le 4 x.crcBad.toNat ++ le 4 x.captures.toNat
      ++ le 4 x.blanked.toNat ++ le 4 (x.blankUs / 1000) ++ le 4 x.qOvf.toNat ++ le 4 x.fsOvf.toNat ++ le 2 x.lastRssi.toNat
      ++ le 2 x.noise.toNat ++ modeBytes x

/-- LANE_STATS_GET (R90). -/
def laneStatsGet (r : Req) (s : State) : Reply :=
  match laneRange r.payload 64 with
  | none => refuse s .badParam
  | some ls =>
    let s1 := measureNoise (ls.filter (fun l => l < s.laneCount)) s
    replyOk s1 ((ls.map (laneStats s1)).flatten)

/-- LANE_STATS_CLEAR (R82, R84). -/
def laneStatsClear (r : Req) (s : State) : Reply :=
  match laneRange r.payload 256 with
  | none => refuse s .badParam
  | some ls => replyOk (ls.foldl (fun s l => if l < s.laneCount then setLane l clearStats s else s) s)

/-- Port state as R91 codes it; a port trained at a commit and awaiting T_c, which has no code of its own, reads as disabled.
(DESIGN CHOICE: log 148) -/
def rfCode : RfState → Nat
  | .disabled => 0 | .awaitTc => 0 | .receiving => 1 | .transmitting => 1 | .down => 2 | .absent => 3

/-- RF_PORT_STATUS_GET (R91). -/
def rfPortStatus (s : State) : List Byte :=
  ((List.range 8).map (fun p =>
    let x := rfp s p
    le 1 (rfCode x.state) ++ le 1 x.gain ++ le 2 0 ++ le 4 x.slotErr.toNat ++ le 4 x.ovld.toNat ++ le 4 (x.blankUs / 1000))).flatten

/-- Logical lanes from the new working count on are withdrawn (R84). -/
def withdrawLanes (new_ : Nat) (s : State) : State :=
  if new_ < s.laneCount then
    let gone := (List.range (s.laneCount - new_)).map (fun i => new_ + i)
    let s1 := gone.foldl (fun s l => setLane l (fun x => { clearStats x with asg := {}, next := none }) (dropShadow l (laneEarly 4 l s))) s
    finishAssigns (raise 0x13 (raise 0x23 { s1 with laneCount := new_ }))
  else { s with laneCount := new_ }

def lanesObj (_ : Req) (_ : State) : List Obj := [.lanes]

def laneAssignService : Service :=
  { opcode := 0x0210, lenOk := varLen 4 8 2 0, ready := true, objs := lanesObj, run := fun _ r s => laneAssign r s }

def laneTableGetService : Service := { opcode := 0x0211, lenOk := lenIs 6, ready := true, run := fun _ r s => laneTableGet r s }

def laneStatsGetService : Service := { opcode := 0x0212, lenOk := lenIs 4, ready := true, run := fun _ r s => laneStatsGet r s }

def laneStatsClearService : Service := { opcode := 0x0213, lenOk := lenIs 4, ready := true, run := fun _ r s => laneStatsClear r s }

def rfPortStatusGetService : Service :=
  { opcode := 0x0214, lenOk := payloadFree, run := fun _ _ s => replyOk s (rfPortStatus s) }

/-! ### Meanings -/

def execIqSlotReceive (p : Nat) (slot : IqSlot) (s : State) : Host.Outcome State Fault Refusal := .next (iqSlot p slot s)

/-- RX clock loss: a stop of 1 µs declares the port down (21 R516). -/
def rxclkStop (p : Nat) (s : State) : State := if rfUp s p then portDown p s else s

def execRxclkStop (p : Nat) (s : State) : Host.Outcome State Fault Refusal := .next (rxclkStop p s)

def execOverloadWindow (p : Nat) (s : State) : Host.Outcome State Fault Refusal := .next (overloadWindow p s)

def execShrDetect (lane : Nat) (power : Power) (shr : ShrIn) (s : State) : Host.Outcome State Fault Refusal :=
  .next (shrDetect lane power shr s)

def execPhrDecode (lane : Nat) (phr : BitVec 16) (s : State) : Host.Outcome State Fault Refusal := .next (phrDecode lane phr s)

def execPsduWordPush (lane : Nat) (word : DWord) (s : State) : Host.Outcome State Fault Refusal := .next (psduWord lane word s)

def execLaneFrameEnd (lane : Nat) (fin : FrameEnd) (s : State) : Host.Outcome State Fault Refusal := .next (frameEnd lane fin s)

def execOverflowTrailerPush (lane : Nat) (fin : FrameEnd) (s : State) : Host.Outcome State Fault Refusal :=
  .next (overflowTrailer lane fin s)

def execBlankingEnd (p : Nat) (s : State) : Host.Outcome State Fault Refusal := .next (blankingEnd p s)

def execLaneAssign (r : Req) (s : State) : Host.Outcome State Fault Refusal := .next (serve laneAssignService r s)

def execLaneSwitch (lane : Nat) (s : State) : Host.Outcome State Fault Refusal := .next (laneSwitch lane s)

def execLaneTableGet (r : Req) (s : State) : Host.Outcome State Fault Refusal := .next (serve laneTableGetService r s)

def execLaneStatsGet (r : Req) (s : State) : Host.Outcome State Fault Refusal := .next (serve laneStatsGetService r s)

def execLaneStatsClear (r : Req) (s : State) : Host.Outcome State Fault Refusal := .next (serve laneStatsClearService r s)

def execRfPortStatusGet (r : Req) (s : State) : Host.Outcome State Fault Refusal := .next (serve rfPortStatusGetService r s)

end Sys2Proof.Machine
end

