-- ==== Sys2Proof/Machine/Ecc.lean ====
section
/-! DEFINITION. What the Reed-Solomon code makes of a DRAM burst, marked devices, and requests for soft repair (08 R211 to R214). -/

namespace Sys2Proof.Machine

def rank? (s : State) (r : Nat) : Rank := tget s.mem.ranks r {}

def setRank (r : Nat) (f : Rank → Rank) (s : State) : State := { s with mem.ranks := tupd s.mem.ranks r {} f }

/-- Monotonic seconds, by which the 24 h windows run. -/
def monoSecs (s : State) : Nat := s.mono / 2 ^ 24

/-- Still within 24 h. (DEDUCED: log 92) -/
def inDay (s : State) (t : Nat) : Bool := monoSecs s < t + 86400

/-- The wrong symbols of a burst: five devices drive a byte in each of eight beats (R211). -/
def wrongSyms (b : BurstErr) : List (Nat × Nat) := (b.syms.filter (fun y => y.1 < 5 && y.2 < 8)).eraseDups

/-- Devices with a wrong symbol. -/
def wrongDevices (b : BurstErr) : List Nat := ((wrongSyms b).map (fun y => y.1)).eraseDups

/-- The burst is uncorrectable: a wrong address is detected; 2 symbols are corrected, and a marked device's 8 symbols; any other error in up to
6 symbols is detected; beyond that the code promises nothing (R211). (UNVERIFIED: log 163) -/
def uncorrectable (s : State) (b : BurstErr) : Bool :=
  let n := (wrongSyms b).length
  if 6 < n && !(!b.wrongAddr && wrongDevices b == (rank? s b.rank).marked.toList) then Config.beyondCode (wrongSyms b)
  else b.wrongAddr || (2 < n && wrongDevices b != (rank? s b.rank).marked.toList)

/-- A device's symbols were corrected in a burst: 64 distinct bursts within 24 h mark it, or raise event 0xB8 for a second device (R212). -/
def noteDevice (r d burst : Nat) (s : State) : State :=
  let x := rank? s r
  let live := x.corr.filter (fun e => inDay s e.2.2 && !(e.1 == d && e.2.1 == burst))
  let mine := (live.filter (fun e => e.1 == d)).length + 1
  let s1 := setRank r (fun x => { x with corr := (d, burst, monoSecs s) :: live }) s
  if mine < 64 || x.marked == some d then s1
  else if x.marked.isNone then raise 0xB8 (setRank r (fun x => { x with marked := some d }) s1)
  else if mine = 64 then raise 0xB8 (setRank r (fun x => { x with second := true }) s1)
  else s1

/-- Soft repairs that the repair ledger holds (Table 19-4, type 4). -/
def softRepairs (s : State) : Nat := (s.life.repair.filter (fun e => e.typ == 4)).length

/-- Number of a row in the repair ledger. (DESIGN CHOICE: log 91) -/
def rowObj (r row : Nat) : Nat := 2 ^ 24 * r + row

/-- A soft repair of the row is asked for already. -/
def repairAsked (s : State) (r row : Nat) : Bool := s.mem.repairReq == some (r, row) || s.mem.repairWait.contains (r, row)

/-- A soft repair is asked for: it takes its token, or its place behind the one that does (R214). -/
def askRepair (r row : Nat) (s : State) : State :=
  if s.mem.repairReq.isSome then { s with mem.repairWait := s.mem.repairWait ++ [(r, row)] }
  else askToken .sr { s with mem.repairReq := some (r, row) }

/-- A read of a row corrected a burst: the third within 24 h asks for a soft repair (R214). -/
def noteRow (r row : Nat) (s : State) : State :=
  let x := rank? s r
  let live := x.rows.filter (fun e => inDay s e.2)
  let mine := (live.filter (fun e => e.1 == row)).length + 1
  let s1 := setRank r (fun x => { x with rows := (row, monoSecs s) :: live }) s
  if 3 ≤ mine && pval s 0xB801 = 1 && !x.noPpr && !repairAsked s r row && !inRepair s 4 (rowObj r row) && softRepairs s < 256 then
    askRepair r row s1
  else s1

/-- A read corrected the burst at an engine address, and it is written back (R213): its count, its devices and its row (R212, R214). -/
def noteCorrected (addr : Nat) (b : BurstErr) (s : State) : State :=
  if (wrongSyms b).isEmpty then s
  else
    noteRow b.rank b.row ((wrongDevices b).foldl (fun s d => noteDevice b.rank d (addr / 32) s) { s with mem.corrected := s.mem.corrected + 1 })

end Sys2Proof.Machine
end

