-- ==== Sys2Proof/Machine/Context.lean ====
section
/-! DEFINITION. The context cache: residence, clock sweep, fetches, write-backs (08 R215 to R220), and the endpoint key that a resident
context holds (13 R362). -/

namespace Sys2Proof.Machine

/-- Entries of the cache and fetch buffers (R215, R219). -/
def cacheSize : Nat := 8192
def fetchBuffers : Nat := 64

/-- CFLAGS.PINNED: connected or opening (Table 07-5). (DEDUCED: log 89) -/
def pinned (s : State) (h : Nat) : Bool :=
  match ep? s h with
  | some e => e.air == .opening || e.air == .connected
  | none => false

/-- An entry that the sweep may take (R215). -/
def evictable (s : State) (h : Nat) : Bool := !pinned s h && !ctxBusy s h

/-- The clock sweep: the entries from the hand on, reference bits cleared on the way, and the first evictable entry whose bit was
clear (R217). -/
def sweep (s : State) : Nat → List CacheEnt → Option (CacheEnt × List CacheEnt)
  | 0, _ => none
  | _, [] => none
  | n + 1, e :: rest =>
    if !evictable s e.handle then sweep s n (rest ++ [e])
    else if e.ref then sweep s n (rest ++ [{ e with ref := false }])
    else some (e, rest)

/-- The context leaves the chip: its unwrapped key is erased (13 R362). -/
def dropKey (h : Nat) (s : State) : State := noteEp h (fun e => { e with keyHeld := none }) s

/-- Free one entry for a context that comes in; false when the sweep finds no victim (R217). -/
def freeEntry (s : State) : State × Bool :=
  if s.mem.cache.length + s.mem.fetches.length < cacheSize then (s, true)
  else
    match sweep s (2 * s.mem.cache.length + 1) s.mem.cache with
    | none => (s, false)
    | some (v, rest) =>
      let wb := if v.dirty && !s.mem.writeBacks.contains v.handle then s.mem.writeBacks ++ [v.handle] else s.mem.writeBacks
      (dropKey v.handle { s with mem.cache := rest, mem.writeBacks := wb }, true)

/-- Buffers in use. -/
def buffersUsed (s : State) : Nat := s.mem.fetches.length + s.mem.passThru.length

/-- A context fault: a victim is chosen and the fetch issued; the caller has seen a free buffer (R219). -/
def issueFetch (h : Nat) (s : State) : State :=
  let (s1, _) := freeEntry s
  let s2 := { s1 with mem.fetches := s1.mem.fetches ++ [h] }
  { s2 with mem.peakFetch := max s2.mem.peakFetch (buffersUsed s2) }

/-- The context comes on chip: into the cache, or as a pass-through when the sweep finds no victim (R219). KEY_GEN follows the
blob's WGEN (13 R362). -/
def install (h : Nat) (s : State) : State :=
  let s1 := { s with mem.fetches := s.mem.fetches.filter (fun x => x != h) }
  let s2 := match tfind s1.blobs h with
    | some b => updEp h (fun e => { e with keyGen := b.wgen }) s1
    | none => s1
  match freeEntry s2 with
  | (s3, true) => { s3 with mem.cache := s3.mem.cache ++ [{ handle := h }] }
  | (s3, false) => { s3 with mem.passThru := s3.mem.passThru ++ [h], mem.passThrus := s3.mem.passThrus + 1 }

/-- A pass-through with no frame left goes back to DRAM and frees its buffer (R219). -/
def endPassThru (h : Nat) (s : State) : State :=
  if s.mem.passThru.contains h && !ctxBusy s h then
    dropKey h { s with mem.passThru := s.mem.passThru.filter (fun x => x != h),
                       mem.writeBacks := if s.mem.writeBacks.contains h then s.mem.writeBacks else s.mem.writeBacks ++ [h] }
  else s

/-- The context leaves without a write-back: its endpoint is gone (07 R184, 08 Table 08-7). -/
def forgetCtx (h : Nat) (s : State) : State :=
  { s with mem.cache := s.mem.cache.filter (fun c => c.handle != h), mem.passThru := s.mem.passThru.filter (fun x => x != h),
           mem.fetches := s.mem.fetches.filter (fun x => x != h), mem.writeBacks := s.mem.writeBacks.filter (fun x => x != h) }

/-! ### The endpoint's key (13 R362) -/

/-- The blob names a usable slot of its generation. -/
def blobLive (s : State) (b : Blob) : Bool := usable s b.wslot && (kslot s b.wslot).gen == b.wgen.toNat

/-- Unwrap the blob into the context, one use of its slot: empty when the unwrap or its plaintext fails. -/
def unwrapEp (h : Nat) (addr : DWord) (b : Blob) (s : State) : State × List Byte :=
  match useSlot b.wslot uUnwrap s with
  | (s1, none) => (s1, [])
  | (s1, some x) =>
    match Config.keyUnwrap x.key b.wrapped with
    | none => (authFailed s1, [])
    | some plain =>
      match blobKey plain addr h with
      | none => (authFailed s1, [])
      | some k => (s1, k)

/-- The key of an endpoint at step 11, or for a frame to it: none when the blob is not usable. -/
def epKey (h : Nat) (s : State) : State × Option (List Byte) :=
  match ep? s h, tfind s.blobs h with
  | some e, some b =>
    if e.blobLost || !blobLive s b then (s, none)
    else
      match e.keyHeld with
      | some k => (s, if k.isEmpty then none else some k)
      | none =>
        let (s1, k) := unwrapEp h e.addr b s
        (noteEp h (fun e => { e with keyHeld := some k }) s1, if k.isEmpty then none else some k)
  | _, _ => (s, none)

end Sys2Proof.Machine
end

