-- ==== Sys2Proof/Machine/Steps.lean ====
section
/-! DEFINITION. Campaign steps as every path to an endpoint uses them: which step goes next, its octets, an attempt's start and the end of
its wait, and what a confirmation does (12 R324 to R339, 19 R472). -/

namespace Sys2Proof.Machine

def camp? (s : State) (c : Nat) : Option Camp := tfind s.camps c

def updCamp (c : Nat) (f : Camp → Camp) (s : State) : State :=
  match camp? s c with
  | none => s
  | some x => { s with camps := tset s.camps c (f x) }

def tgt? (s : State) (c h : Nat) : Option Target := (camp? s c).bind (fun x => x.targets.find? (fun t => t.handle == h))

def updTgt (c h : Nat) (f : Target → Target) (s : State) : State :=
  updCamp c (fun x => { x with targets := x.targets.map (fun t => if t.handle = h then f t else t) }) s

/-- TARIFF, FIRMWARE and CONFIG (R320). -/
def contentKind (k : Nat) : Bool := k ≤ 2

def kindCredit : Nat := 3
def kindSwitch : Nat := 4

/-- K: source blocks of the object (R323). -/
def campK (x : Camp) : Nat := (x.size + 255) / 256

def finalState (t : TgtState) : Bool := !(t == .waiting || t == .sent)

def stateCode : CampState → Nat
  | .open_ => 0 | .running => 1 | .paused => 2 | .cancelling => 3 | .done => 4 | .cancelled => 5

/-! ### Campaign states (R323) -/

/-- A change of state: a CAMP_STATE entry and event 0x70 (R323). The caller has seen that the journal takes it. -/
def setCampState (c : Nat) (st : CampState) (s : State) : State :=
  match camp? s c with
  | none => s
  | some x =>
    raise 0x70 (commitOne (ledgerEntry (.campState c x.kind (stateCode st))) (updCamp c (fun x => { x with state := st }) s))

def deadlinePassed (s : State) (x : Camp) : Bool := x.deadline != 0 && x.deadline ≤ secs s

/-- RUNNING and PAUSED end when every target is final; CANCELLING when no target is SENT (Table 12-2). Nothing happens while the journal
takes no entry. -/
def settle (c : Nat) (s : State) : State :=
  match camp? s c with
  | none => s
  | some x =>
    if !ledgerOk s then s
    else if (x.state == .running || x.state == .paused) && x.targets.all (fun t => finalState t.state)
        && (x.closeIdle || deadlinePassed s x) then setCampState c .done s
    else if x.state == .cancelling && x.targets.all (fun t => t.state != .sent) then
      finishOps x.cancels .ok [] (updCamp c (fun x => { x with cancels := [] }) (setCampState c .cancelled s))
    else s

def settleAll (s : State) : State := (s.camps.map (fun e => e.1)).foldl (fun s c => settle c s) s

/-- A target ends EXPIRED or CANCELLED: a credit record never transmitted is returned (R336). -/
def endTarget (c h : Nat) (st : TgtState) (s : State) : State :=
  match camp? s c, tgt? s c h with
  | some x, some t =>
    let s1 := updTgt c h (fun t => { t with state := st }) s
    if x.kind = kindCredit && !t.everSent then
      commitOne (ledgerEntry (.creditReturn h t.n t.amount)) (updCamp c (fun x => { x with returned := x.returned + t.amount }) s1)
    else s1
  | _, _ => s

/-- The journal takes what endTarget may commit. -/
def canEnd (s : State) (x : Camp) (t : Target) : Bool := x.kind != kindCredit || t.everSent || ledgerOk s

/-! ### Which step goes next (R328, R340) -/

/-- The engine starts downlink steps: not in an activation pause, nor before the first commit (R342). -/
def stepsRun (s : State) : Bool := s.fw.pause.isNone && s.cfg.everCommitted

/-- A radio target that multicast sessions serve (R331). -/
def bySession (x : Camp) (e : Endpoint) : Bool := x.multicast && contentKind x.kind && !e.plc

/-- The target's session step can go: its session is planned and has not begun. -/
def sessionOpen (x : Camp) (h : Nat) : Bool := x.sessions.any (fun y => y.2.targets.contains h && !y.2.begun)

def inSessions (x : Camp) (h : Nat) : Bool := x.sessions.any (fun y => y.2.targets.contains h)

/-- The target may be attempted now, as far as its own campaign goes (R324, R331, R333, R337, R479). -/
def attemptable (s : State) (x : Camp) (t : Target) (e : Endpoint) : Bool :=
  x.state == .running && t.state == .waiting && !deadlinePassed s x
    && (x.kind != kindCredit || t.n ≤ e.img.crLast + 1)
    && (x.kind != kindSwitch || (pval s 0xB000 != 0 && s.safe.state == .armed && !e.switchFault
          && (t.notAfter == 0 || secs s ≤ t.notAfter)))
    && (!bySession x e || (if t.cmd = 0x10 then sessionOpen x t.handle && t.attempts < x.retryMax else !inSessions x t.handle))

/-- Some target of the endpoint is SENT (R328). -/
def anySent (s : State) (h : Nat) : Bool := s.camps.any (fun y => y.2.targets.any (fun t => t.handle == h && t.state == .sent))

/-- Order of service among an endpoint's targets: SWITCH by SWITCH_SEQ, CREDIT by record number, others by PRIO and campaign (R328). -/
def stepOrder (c : Nat) (x : Camp) (t : Target) : Nat × Nat :=
  if x.kind = kindSwitch then (0, t.seq.toNat) else if x.kind = kindCredit then (1, t.n) else (2, 64 * x.prio + c)

def pairLess (a b : Nat × Nat) : Bool := a.1 < b.1 || (a.1 == b.1 && a.2 < b.2)

/-- Targets of the endpoint that may be attempted: campaign, campaign data, target. -/
def candidates (s : State) (h : Nat) : List (Nat × Camp × Target) :=
  match ep? s h with
  | none => []
  | some e =>
    (s.camps.map (fun y => (y.2.targets.filter (fun t => t.handle == h && attemptable s y.2 t e)).map (fun t => (y.1, y.2, t)))).flatten

/-- The step that goes next to the endpoint. -/
def bestStep (s : State) (h : Nat) : Option (Nat × Camp × Target) :=
  if !stepsRun s || anySent s h then none
  else
    (candidates s h).foldl (fun best y =>
      match best with
      | none => some y
      | some b => if pairLess (stepOrder y.1 y.2.1 y.2.2) (stepOrder b.1 b.2.1 b.2.2) then some y else best) none

/-! ### The octets of a step (Table 12-3) -/

/-- Object ID: CAMP and the second of CAMP_CREATE (R324). -/
def objectId (c : Nat) (x : Camp) : List Byte := le 4 (2 ^ 24 * c + x.stamp)

def sourceBlock (x : Camp) (i : Nat) : List Byte := slice (tget x.blocks i []) 0 256

/-- Block i: a source block, or a repair block computed when it is sent (R330). -/
def blockAt (x : Camp) (i : Nat) : List Byte :=
  if i < campK x then sourceBlock x i else slice (Config.rsRepair ((List.range (campK x)).map (sourceBlock x)) i) 0 256

def blockCmd (c : Nat) (x : Camp) (i : Nat) : List Byte := le 1 0x11 ++ objectId c x ++ le 2 i ++ le 2 (campK x) ++ blockAt x i

def checkCmd (c : Nat) (x : Camp) : List Byte :=
  le 1 0x12 ++ objectId c x ++ le 1 x.kind ++ le 4 x.size ++ slice x.digest 0 32 ++ le 4 x.activateAt

def creditCmd (t : Target) : List Byte := le 1 0x20 ++ le 4 t.n ++ le 4 t.amount ++ le 4 t.ref

/-- The session that covers the target. -/
def sessionOf (x : Camp) (h : Nat) : Option Session := (x.sessions.find? (fun y => y.2.targets.contains h)).map (fun y => y.2)

def sessionCmd (s : State) (c : Nat) (x : Camp) (y : Session) : List Byte :=
  le 1 0x10 ++ objectId c x ++ le 2 y.no ++ le 2 y.channel ++ le 8 y.ts ++ le 2 x.gapMs ++ le 2 y.frames ++ le 2 y.first
    ++ le 2 (campK x) ++ le 4 x.size ++ le 8 x.groupAddr.toNat ++ slice (kslot s x.groupSlot).key 0 16

/-- The safety code (R472): SAFE_DOMAIN, endpoint address, SWITCH_SEQ, state and NOT_AFTER. -/
def safetyCode (domain : Nat) (addr : DWord) (seq : Word) (st notAfter : Nat) : DWord :=
  crc64 (le 4 domain ++ le 8 addr.toNat ++ le 4 seq.toNat ++ le 1 st ++ le 4 notAfter)

def switchCmd (s : State) (addr : DWord) (t : Target) (notAfter : Nat) : List Byte :=
  le 1 0x30 ++ le 4 t.seq.toNat ++ le 1 t.swState ++ le 4 notAfter
    ++ le 8 (safetyCode (pval s 0xB000) addr t.seq t.swState notAfter).toNat

/-- The command octets of a step that does not pass the transmit gate. -/
def stepCmd (s : State) (c : Nat) (x : Camp) (t : Target) : List Byte :=
  if x.kind = kindCredit then creditCmd t
  else if t.cmd = 0x11 then blockCmd c x t.block
  else if t.cmd = 0x10 then (match sessionOf x t.handle with
    | some y => sessionCmd s c x y
    | none => [])
  else checkCmd c x

/-! ### Attempts (R325 to R327) -/

/-- An attempt starts: SENT, its DCNT recorded for the step (R325, R326, R336). -/
def markSent (c h dcnt : Nat) (s : State) : State :=
  updTgt c h (fun t => { t with state := .sent, attempts := t.attempts + 1, dcnts := t.dcnts ++ [(dcnt, secs s)], lastDcnt := dcnt,
                                everSent := true, inFlight := true, waitStart := s.now,
                                waitDue := s.mono + tSec (pval s 0x7000), groups := 0, released := secs s }) s

/-- The downlink counter takes its next value (05 R95). -/
def nextDcnt (h : Nat) (s : State) : State × Nat :=
  match ep? s h with
  | none => (s, 0)
  | some e => (updEp h (fun e => { e with dcnt := e.dcnt + 1 }) s, e.dcnt + 1)

/-- The endpoint's key for a frame that takes a new downlink counter value: none once every value has been used, since none is used twice
(05 R95). -/
def dlKey (h : Nat) (s : State) : State × Option (List Byte) :=
  match ep? s h with
  | some e => if e.dcnt + 1 < 2 ^ 32 then epKey h s else (s, none)
  | none => epKey h s

/-- Back to WAITING, with the time as request time (R340). -/
def backToWaiting (c h : Nat) (s : State) : State := updTgt c h (fun t => { t with state := .waiting, since := s.mono }) s

/-- A target fails: event 0x71 after 60 s without one in the campaign (R346). -/
def failTarget (c h : Nat) (s : State) : State :=
  match camp? s c with
  | none => s
  | some x =>
    let due := match x.lastFail with
      | none => true
      | some t => t + tSec 60 ≤ s.mono
    raiseIf due 0x71 (updCamp c (fun x => { x with lastFail := some s.mono }) (updTgt c h (fun t => { t with state := .failed }) s))

/-- The next session takes the target (R331): its SESSION step stands again. (DEDUCED: log 110) -/
def toNextSession (c h : Nat) (s : State) : State :=
  updTgt c h (fun t => { t with state := .waiting, since := s.mono, cmd := 0x10, attempts := 0, dcnts := [], inSession := false }) s

/-- An attempt's wait ends without a confirmation (R326, R327, R337). -/
def waitEnd (c h : Nat) (s : State) : State :=
  match camp? s c, tgt? s c h, ep? s h with
  | some x, some t, some e =>
    if t.state != .sent then s
    else
      let s1 :=
        if x.state == .cancelling then endTarget c h .cancelled s
        else if deadlinePassed s x || (x.kind == kindSwitch && t.notAfter != 0 && t.notAfter < secs s) then endTarget c h .expired s
        else if t.attempts < x.retryMax then backToWaiting c h s
        else if bySession x e && t.cmd != 0x11 then toNextSession c h s
        else failTarget c h s
      settle c s1
  | _, _, _ => s

/-- A committed frame group of the endpoint counts toward the wait of a SENT target: the third ends it (R326). -/
def groupCommitted (h : Nat) (s : State) : State :=
  let hits := (s.camps.filter (fun y => y.2.targets.any (fun t => t.handle == h && t.state == .sent))).map (fun y => y.1)
  hits.foldl (fun s c =>
    let s1 := updTgt c h (fun t => { t with groups := t.groups + 1 }) s
    match tgt? s1 c h with
    | some t => if 3 ≤ t.groups then waitEnd c h s1 else s1
    | none => s1) s

/-- The endpoint has become EMPTY: its targets that are not final are SKIPPED (Table 12-4). -/
def skipTargets (h : Nat) (s : State) : State :=
  (s.camps.map (fun y => y.1)).foldl (fun s c =>
    match tgt? s c h with
    | some t => if finalState t.state then s else settle c (updTgt c h (fun t => { t with state := .skipped }) s)
    | none => s) s

/-! ### Confirmations (R325, R327, R334, R339) -/

/-- A confirmation of the target's step can take effect (Table 12-4). -/
def takesConfirm (x : Camp) (t : Target) : Bool :=
  t.state == .sent || (x.kind == kindCredit && (t.state == .failed || t.state == .expired || t.state == .cancelled))

/-- The step that 16 confirmation bits match: campaign, target, DCNT and its second (R325). (DEDUCED: log 109) -/
def confMatch (s : State) (h conf : Nat) : Option (Nat × Camp × Target × Nat × Nat) :=
  let hits := (s.camps.map (fun y =>
    (y.2.targets.filter (fun t => t.handle == h && takesConfirm y.2 t)).filterMap (fun t =>
      (t.dcnts.find? (fun d => d.1 % 65536 == conf)).map (fun d => (y.1, y.2, t, d.1, d.2))))).flatten
  hits.head?

/-- A late or repeated confirmation of a step that takes none matches all the same, and is ignored without being counted (R325). -/
def confKnown (s : State) (h conf : Nat) : Bool :=
  s.camps.any (fun y => y.2.targets.any (fun t => t.handle == h && t.dcnts.any (fun d => d.1 % 65536 == conf)))

/-- Journal entries of a matching confirmation, in its frame group (R334, R343). -/
def confEntries (s : State) (h conf : Nat) : List JEntry :=
  match confMatch s h conf, ep? s h with
  | some (c, x, t, dcnt, _), some e =>
    if x.kind = kindCredit then [handleEntry h (.creditApplied h t.n t.amount (decide (t.n ≤ e.img.crLast)) (t.state != .sent))]
    else if contentKind x.kind then [ledgerEntry (.dlConfirm h dcnt c x.kind t.cmd)]
    else []
  | _, _ => []

/-- The step after a confirmed content step; none after CHECK (R331). -/
def nextStep (x : Camp) (t : Target) : Option Target :=
  if t.cmd = 0x12 then none
  else if t.cmd = 0x10 then some { t with cmd := 0x12, attempts := 0, dcnts := [], inSession := true }
  else if t.block + 1 < campK x then some { t with block := t.block + 1, attempts := 0, dcnts := [] }
  else some { t with cmd := 0x12, attempts := 0, dcnts := [] }

/-- Apply credit record n once (10 R295). -/
def applyCredit (h n amount : Nat) (s : State) : State :=
  updImg h (fun i => if n = i.crLast + 1 then { i with crLast := n, crSum := i.crSum + BitVec.ofNat 32 amount } else i) s

/-- What a confirmation does once its group has committed (R325, R327, R334, R339). -/
def confApply (h conf : Nat) (s : State) : State :=
  match confMatch s h conf, ep? s h with
  | some (c, x, t, _, at_), some e =>
    let s1 :=
      if x.kind = kindCredit then
        let repeat_ := decide (t.n ≤ e.img.crLast)
        let late := t.state != .sent
        let s2 := updTgt c h (fun t => { t with state := .confirmed, late := late, inFlight := false, dcnts := [] }) (applyCredit h t.n t.amount s)
        raiseIf (late && !repeat_) 0x74 (if repeat_ then s2 else updCamp c (fun x => { x with applied := x.applied + t.amount }) s2)
      else if x.kind = kindSwitch then
        updTgt c h (fun t => { t with state := .confirmed, released := at_, fbDue := some (s.mono + tSec (pval s 0x7006)) }) s
      else
        match nextStep x t with
        | none => updTgt c h (fun t => { t with state := .confirmed }) s
        | some t' =>
          let s2 := updTgt c h (fun _ => { t' with state := .waiting, since := s.mono }) s
          if x.state == .cancelling then endTarget c h .cancelled s2
          else if deadlinePassed s x then endTarget c h .expired s2 else s2
    settle c s1
  | _, _ => if confKnown s h conf then s else { s with confUnmatched := s.confUnmatched + 1 }

/-! ### Switch feedback (R339) -/

/-- SWITCH targets of the endpoint whose feedback is awaited: campaign and target. -/
def fbAwaited (s : State) (h : Nat) : List (Nat × Target) :=
  (s.camps.map (fun y => (y.2.targets.filter (fun t => t.handle == h && t.fbDue.isSome && t.feedback == 0xFF)).map (fun t => (y.1, t)))).flatten

/-- The feedback value is the one the command asks for. -/
def fbMatches (st : Nat) (v : Int) : Bool :=
  match st with
  | 0 => v == 0
  | 1 => v == 1
  | _ => v == 2 || v == 1

/-- Result, with the reported state, of the awaited feedback that readings (QTY, reading time, value) bring: campaign, target, result,
state reported. -/
def fbResult (rs : List (Nat × Nat × Int)) (x : Nat × Target) : Option (Nat × Target × Nat × Nat) :=
  (rs.find? (fun r => r.1 == x.2.fbQty && x.2.released ≤ r.2.1)).map (fun r =>
    (x.1, x.2, (if fbMatches x.2.swState r.2.2 then 0 else 1), (r.2.2 % 4).toNat))

/-- SWITCH_RESULT entries of the group that carries the readings. -/
def fbEntries (s : State) (h : Nat) (rs : List (Nat × Nat × Int)) : List JEntry :=
  ((fbAwaited s h).filterMap (fbResult rs)).map (fun y => ledgerEntry (.switchResult h y.2.1.seq.toNat y.2.2.1 y.2.2.2))

/-- A result takes effect: MISMATCH and TIMEOUT write a SAFETY record, raise event 0x73 and hold later SWITCH targets (R339). (DEDUCED: log 96) -/
def fbTake (h : Nat) (y : Nat × Target × Nat) (s : State) : State :=
  let s1 := updTgt y.1 h (fun t => { t with feedback := y.2.2, fbDue := none }) s
  if y.2.2 = 0 then s1
  else raise 0x73 (record rcFeedback (le 4 h ++ le 4 y.2.1.seq.toNat ++ le 4 y.2.2) (updEp h (fun e => { e with switchFault := true }) s1))

def fbApply (h : Nat) (rs : List (Nat × Nat × Int)) (s : State) : State :=
  ((fbAwaited s h).filterMap (fbResult rs)).foldl (fun s y => fbTake h (y.1, y.2.1, y.2.2.1) s) s

end Sys2Proof.Machine
end

