-- ==== Sys2Proof/Machine/Safe.lean ====
section
/-! DEFINITION. The safety state: faults, proof tests and the diagnostics of the safety pair (19 R475 to R479, R492). -/

namespace Sys2Proof.Machine

/-- Entries into FAULT within the last 24 h (R477). -/
def recentFaults (s : State) : List Nat := s.faultTimes.filter (fun t => s.mono < t + tSec 86400)

/-- SAFE_OK_N is low only in ARMED (R478). -/
def setSafe (st : SafeState) (s : State) : State := { s with safe.state := st, safe.safeOkN := st != .armed }

/-- The SAFETY record that names a diagnostic (R476). -/
def safetyRecord (code : Nat) (s : State) : State := record rcSafety (le 4 code) s

/-- A switching frame that is due and will not be released: its target waits again, and the attempt does not count (R479). -/
def dropDue (s : State) : State := { s with safe.due := none }

/-- The safety state enters FAULT, or LOCKED (R476, R477): event 0xB0. -/
def enterFault (st : SafeState) (code : Nat) (s : State) : State :=
  let s1 := setSafe st { s with safe.causes := [code], safe.lastCause := code, safe.lastFault := secs s,
                                faultTimes := s.mono :: recentFaults s }
  raise 0xB0 (safetyRecord code (dropDue s1))

/-- A safety fault (R476, Table 19-2). -/
def safetyFault (code : Nat) (s : State) : State :=
  match s.safe.state with
  | .off => enterFault .fault code s
  | .armed => enterFault (if 2 ≤ (recentFaults s).length then .locked else .fault) code s
  | _ =>
    let s1 := { s with safe.lastCause := code, safe.lastFault := secs s }
    if s.safe.causes.contains code then s1 else safetyRecord code { s1 with safe.causes := s.safe.causes ++ [code] }

/-- The safety pair runs: the control island is out of reset. -/
def pairRuns (s : State) : Bool := islUp s islControl

/-- A diagnostic of the pair finds a fault. -/
def diagnose (bad : Bool) (code : Nat) (s : State) : State := if pairRuns s && bad then safetyFault code s else s

/-- GATE_TEST_PERIODIC: every 5 ms ± 0.5 ms (R475). -/
def gateTest (pass : Bool) (s : State) : State :=
  if !pairRuns s then s
  else
    let s1 := pacedAt s.safe.gateTestAt (tUs 4500) (tUs 5500) s
    diagnose (!pass) 3 { s1 with safe.gateTestAt := some s1.mono }

/-- SAFETY_SRAM_SCRUB: every 1 ms (R475). -/
def pairScrub (pass : Bool) (s : State) : State :=
  if !pairRuns s then s
  else
    let s1 := pacedAt s.safe.scrubAt (tMs 1) (tMs 1) s
    diagnose (!pass) 2 { s1 with safe.scrubAt := some s1.mono }

/-- HEARTBEAT_CHECK: us microseconds after the last heartbeat; the window is 1 ms to 3 ms (R475). -/
def heartbeat (us : Nat) (s : State) : State := diagnose (us < 1000 || 3000 < us) 8 s

/-- A rail, or Tj, is the only cause, and all have been in range for 10 ms: a proof test runs (R477). -/
def autoRecover (s : State) : State :=
  match s.mon.backAt with
  | some t =>
    if s.safe.state = .fault && s.safe.causes == [9] && s.mon.out == 0 && s.safe.proof.isNone then
      { advMono (t + tMs 10) s with safe.proof := some none }
    else s
  | none => s

/-- A proof test passes (Table 19-2): ARMED, with event 0xB1 when the state enters it. -/
def proofPassed (s : State) : State :=
  match s.safe.state with
  | .fault => raise 0xB1 (setSafe .armed { s with safe.causes := [] })
  | .off => raise 0xB1 (setSafe .armed { s with safe.causes := [] })
  | _ => s

/-- The proof test in progress ends (R477). -/
def proofTestEnd (failed : Option Nat) (s : State) : State :=
  match s.safe.proof with
  | none => s
  | some op =>
    let s1 := { s with safe.proof := none, safe.lastProof := secs s }
    match failed with
    | none =>
      let s2 := proofPassed s1
      match op with
      | some id =>
        if s2.safe.state = .armed then finishOp id .ok [] s2
        else
          let (q, s3) := faultSeq s1 s2
          finishOp id .hwFault q s3
      | none => s2
    | some code =>
      let s2 := safetyFault code s1
      match op with
      | some id =>
        let (q, s3) := faultSeq s1 s2
        finishOp id .hwFault q s3
      | none => s2

/-- SAFETY_CLEAR (Table 19-2). -/
def safetyClear (id : Nat) (s : State) : Reply :=
  match s.safe.state with
  | .armed => replyOk s
  | .fault => if s.safe.proof.isSome then .wait s else .pend { s with safe.proof := some (some id) } [.safety]
  | _ => refuse s .badState

/-- SAFETY_PROOF_TEST (R492). -/
def safetyProofTest (id : Nat) (s : State) : Reply :=
  if s.safe.state != .armed then refuse s .badState
  else if s.safe.proof.isSome then .wait s
  else .pend { s with safe.proof := some (some id) } [.safety]

/-- SAFETY_STATUS_GET (Table 19-8). -/
def safetyStatus (s : State) : List Byte :=
  le 1 (safeCode s.safe.state) ++ le 1 s.safe.lastCause ++ le 1 (recentFaults s).length ++ le 1 0 ++ le 4 s.life.switchSeqA.toNat
    ++ le 4 s.safe.released.toNat ++ le 4 s.safe.refused.toNat ++ le 4 s.safe.lastFault ++ le 4 s.safe.lastProof
    ++ le 4 (pval s 0xB000) ++ le 4 0

def safetyStatusGetService : Service :=
  { opcode := 0x0B00, lenOk := payloadFree, acc := 0, run := fun _ _ s => replyOk s (safetyStatus s) }

def safetyClearService : Service :=
  { opcode := 0x0B01, lenOk := payloadFree, acc := 0, objs := fun _ _ => [.safety], run := fun id _ s => safetyClear id s }

def safetyProofTestService : Service :=
  { opcode := 0x0B02, lenOk := payloadFree, acc := 0, objs := fun _ _ => [.safety], run := fun id _ s => safetyProofTest id s }

/-! ### Meanings -/

def execGateTestPeriodic (pass : Bool) (s : State) : Host.Outcome State Fault Refusal := .next (gateTest pass s)

def execLockstepMismatch (s : State) : Host.Outcome State Fault Refusal := .next (diagnose true 1 s)

def execSafetySramScrub (pass : Bool) (s : State) : Host.Outcome State Fault Refusal := .next (pairScrub pass s)

def execHeartbeatCheck (us : Nat) (s : State) : Host.Outcome State Fault Refusal := .next (heartbeat us s)

def execClockMonitorFault (s : State) : Host.Outcome State Fault Refusal := .next (diagnose true 7 s)

def execSafetyAutoRecover (s : State) : Host.Outcome State Fault Refusal := .next (autoRecover s)

def execProofTestEnd (failed : Option Nat) (s : State) : Host.Outcome State Fault Refusal := .next (proofTestEnd failed s)

def execSafetyStatusGet (r : Req) (s : State) : Host.Outcome State Fault Refusal := .next (serve safetyStatusGetService r s)

def execSafetyClear (r : Req) (s : State) : Host.Outcome State Fault Refusal := .next (serve safetyClearService r s)

def execSafetyProofTest (r : Req) (s : State) : Host.Outcome State Fault Refusal := .next (serve safetyProofTestService r s)

end Sys2Proof.Machine
end

