-- ==== Sys2Proof/Machine/Air.lean ====
section
/-! DEFINITION. Transmission on air: the rules that let one start, duty-cycle accounting, beacons, link acks, downlinks (05). -/

namespace Sys2Proof.Machine

def secp (s : State) (p : Nat) : Sector := tget s.sectors p {}

def setSec (p : Nat) (f : Sector → Sector) (s : State) : State := { s with sectors := tupd s.sectors p {} f }

/-- A sector parameter of port p (Table 05-6). -/
def secVal (s : State) (p o : Nat) : Nat := pval s (pidSector p o)

/-- The port's band profile: none when it receives only (R100). -/
def profOf (s : State) (p : Nat) : Option (List (Nat × SubBand)) :=
  let i := secVal s p 0xA
  if i = 0xFF then none else some (tget s.cfg.profiles i [])

/-- The port has a sector that transmits (R100), whatever the port's state: a beacon that finds its port down or absent is missed (R127). -/
def transmits (s : State) (p : Nat) : Bool :=
  p < 8 && pval s (pidRf p 0) == 1 && (profOf s p).isSome && s.cfg.everCommitted

/-! ### Duty-cycle accounts (R113 to R116) -/

/-- The monotonic base in milliseconds: the quantum that runs now. -/
def nowMs (s : State) : Nat := s.mono * 1000 / 2 ^ 24

def windowMs : Nat := 3600000

/-- What a charge still counts (R113); a preset ages out evenly (R116), rounded up. -/
def chargeLeft (now : Nat) (c : Charge) : Nat :=
  let dt := now - c.at_
  if windowMs ≤ dt then 0 else if c.preset then (c.quanta * (windowMs - dt) + (windowMs - 1)) / windowMs else c.quanta

def acct (s : State) (p sb : Nat) : Duty := tget s.duty (16 * p + sb) {}

def setAcct (p sb : Nat) (f : Duty → Duty) (s : State) : State := { s with duty := tupd s.duty (16 * p + sb) {} f }

/-- U of a class over the window (R113). -/
def usedOf (s : State) (p sb : Nat) (cls : TxClass) : Nat :=
  (((acct s p sb).charges.filter (fun c => c.cls == cls)).map (chargeLeft (nowMs s))).sum

/-- The preset of a window (R116): full for a sub-band of a profile given for the first time after a start. (DEDUCED: log 67) -/
def presetDuty (p sb : Nat) (x : SubBand) (s : State) : State :=
  if (acct s p sb).presetDone then s
  else
    let rb := reserveAt (secVal s p 0xC) sb
    setAcct p sb (fun d => { d with presetDone := true, charges := d.charges ++
      [{ cls := .beacon, quanta := rb, at_ := nowMs s, preset := true },
       { cls := .ack, quanta := budgetOf x - rb, at_ := nowMs s, preset := true }] }) s

/-- The preset of a window has not aged out. -/
def presetLeft (s : State) (p sb : Nat) : Bool := (acct s p sb).charges.any (fun c => c.preset && 0 < chargeLeft (nowMs s) c)

/-- The class rule (R114). -/
def classOk (s : State) (p sb : Nat) (x : SubBand) (cls : TxClass) (d : Nat) : Bool :=
  let rb := reserveAt (secVal s p 0xC) sb
  let ra := reserveAt (secVal s p 0xD) sb
  let ad := usedOf s p sb .ack + usedOf s p sb .downlink
  match cls with
  | .beacon => usedOf s p sb .beacon + d ≤ rb
  | .ack => ad + d + rb ≤ budgetOf x
  | .downlink => ad + d + rb + ra ≤ budgetOf x

/-- On-time of (port, channel) within the dwell window: the quanta of each transmission that lie in it (R113, R115). -/
def dwellOf (s : State) (p ch windowS : Nat) : Nat :=
  (((secp s p).dwell.filter (fun e => e.1 == ch)).map (fun e => e.2.2 + 1 - max e.2.1 (nowMs s + 1 - 1000 * windowS))).sum

/-- TXEN_N is low this long for a frame of so many µs: the transceiver's lead before the first sample and 10 µs after the last
(04 R85, Table 04-9, Table 05-8). -/
def txLowUs (s : State) (p us : Nat) : Nat := (rfp s p).train.txenLead + us + 10

/-- Why a transmission does not start, in the order of R110. -/
inductive TxRefusal where
  | late | profile | subBand | busy | offTime | dwell | budget
  deriving DecidableEq, Repr

def refusalIndex : TxRefusal → Nat
  | .late => 0 | .profile => 1 | .subBand => 2 | .busy => 3 | .offTime => 4 | .dwell => 5 | .budget => 6

/-- A transmission of a class, lasting us, on a channel given by its edges, that starts at the instant of the state (R114, R115); ch is the
channel of the sending port. None: it may start. (DEDUCED: log 69) -/
def txRule (s : State) (p ch : Nat) (edges : Int × Int) (cls : TxClass) (us : Nat) (busy : Bool) : Option TxRefusal :=
  match profOf s p with
  | none => some .profile
  | some prof =>
    match subOf prof edges with
    | none => some .subBand
    | some (sb, x) =>
      let d := worstQuanta (txLowUs s p us)
      let off : Bool := match (acct s p sb).lastEnd with
        | some e => s.mono < e + tMs x.minOffMs
        | none => false
      if (cls == .ack && !x.immAck) || 1000 * x.maxOnMs < us then some .subBand
      else if busy then some .busy
      else if off then some .offTime
      else if x.dwellMaxMs != 0 && x.dwellMaxMs < dwellOf s p ch x.dwellWindowS + d then some .dwell
      else if !classOk s p sb x cls d then some .budget
      else none

/-- A refusal for dwell is counted, one for budget raises event 0x26 after 60 s without one there (R128, R129). -/
def noteRefusal (p : Nat) (edges : Int × Int) (r : TxRefusal) (s : State) : State :=
  match (profOf s p).bind (fun prof => subOf prof edges) with
  | none => s
  | some (sb, _) =>
    match r with
    | .dwell => setAcct p sb (fun d => { d with dwellRefused := d.dwellRefused + 1 }) s
    | .budget =>
      let due := match (acct s p sb).lastRefusal with
        | none => true
        | some t => t + 60000 ≤ nowMs s
      raiseIf due 0x26 (setAcct p sb (fun d => { d with lastRefusal := some (nowMs s) }) s)
    | _ => s

/-! ### Beacon instants and arbitration (R104, R111) -/

/-- Beacon interval and offset of a sector in engine-time units. -/
def beaconIv (s : State) (q : Nat) : Nat := tSec (2 ^ secVal s q 1)

def beaconOff (s : State) (q : Nat) : Nat := tMs (secVal s q 2)

/-- B_b (R104). -/
def beaconAt (s : State) (q b : Nat) : Nat := b * beaconIv s q + beaconOff s q

/-- The first B_b after an instant. -/
def nextBeacon (s : State) (q t : Nat) : Nat :=
  if t < beaconOff s q then beaconOff s q else beaconAt s q ((t - beaconOff s q) / beaconIv s q + 1)

/-- The port that sends a sector's next beacon (R127). -/
def viaOf (s : State) (q : Nat) : Nat :=
  if (secp s q).state == .fallback && !(secp s q).tryOwn then secVal s q 0xB else q

/-- Sectors whose beacons go out on a port, its own first. -/
def sectorsOn (s : State) (p : Nat) : List Nat := (List.range 8).filter (fun q => transmits s q && viaOf s q == p)

/-- A beacon waits on the port, from its B_b until it starts or is missed (R111). -/
def beaconPending (s : State) (p : Nat) : Bool :=
  (List.range 8).any (fun q => match (secp s q).due with
    | some d => d.viaPort == p
    | none => false)

/-- An interval in engine time of a scheduled ack. -/
def ackSpan (a : SchedAck) : Nat × Nat := (a.endTime + tUs 1000, a.endTime + tUs (1000 + ackUs a.mode))

def overlap (a b : Nat × Nat) : Bool := a.1 < b.2 && b.1 < a.2

/-- Arbitration against beacons and what is on air, for an ack or downlink from t to t + us (R111). -/
def airBusy (s : State) (p t us : Nat) : Bool :=
  beaconPending s p || (secp s p).tx.isSome || (rfp s p).state != .receiving
    || (sectorsOn s p).any (fun q => nextBeacon s q s.now ≤ t + tUs us)

/-- The same for one that is only scheduled: a transmission on air that will have ended does not stand in its way. -/
def airBusyLater (s : State) (p t us : Nat) : Bool :=
  beaconPending s p || (match (secp s p).tx with
    | some x => t < x.until_
    | none => !rfUp s p)
    || (sectorsOn s p).any (fun q => nextBeacon s q s.now ≤ t + tUs us)

/-! ### Starting and ending a transmission (R113, 04 R70, R85) -/

/-- The sub-band that a channel of a port lies in; 0 where none is defined. -/
def subIndex (s : State) (p : Nat) (edges : Int × Int) : Nat :=
  match (profOf s p).bind (fun prof => subOf prof edges) with
  | some (sb, _) => sb
  | none => 0

/-- The output level goes to the transceiver before each transmission (Table 05-7, 17 R443). -/
def writeLevel (p : Nat) (edges : Int × Int) (s : State) : State :=
  match (profOf s p).bind (fun prof => subOf prof edges) with
  | some (_, x) => { s with out := .spi p false 0x26 (x.txLevel % 65536).toNat :: s.out }
  | none => s

/-- A blanking interval that has begun for the port's own next transmission fits one that starts at engine time t (R85). -/
def blankFits (s : State) (p t : Nat) : Bool :=
  match (rfp s p).blankAt with
  | some b => b + blankLead s p == t
  | none => true

/-- The first symbol of a transmission reaches the antenna now (R111): TXEN_N has fallen its lead before, the TX IQ stream has begun TX_LAT before
(R109), and the port is blanked from RF_BLANK_PRE_US before that fall, but not from before the decision (04 R70, R85). -/
def startTx (p ch : Nat) (edges : Int × Int) (cls : TxClass) (sector us decided : Nat) (custody : List (Nat × Nat)) (frames : List Output)
    (s : State) : State :=
  let lead := tUs (rfp s p).train.txenLead
  let x : AirTx := { cls := cls, sector := sector, channel := ch, subBand := subIndex s p edges, from_ := s.now - lead,
                     monoFrom := s.mono - lead, iqAt := s.now * 100000000 / 2 ^ 24 - (rfp s p).train.txLat,
                     until_ := s.now + tUs (us + 10), custody := custody }
  let s1 := blankAll p (max (decided * 1000000 / 2 ^ 24) ((s.mono - blankLead s p) * 1000000 / 2 ^ 24)) (writeLevel p edges s)
  setSec p (fun y => { y with tx := some x }) (setRf p (setRfState .transmitting) { s1 with out := frames.reverse ++ s1.out })

/-- An entry leaves the custody queue once it has been transmitted (R107). -/
def dropCustody (sent : List (Nat × Nat)) (x : Sector) : Sector :=
  { x with custody := x.custody.filter (fun e => !sent.contains (e.handle, e.fcnt)) }

/-- Every quantum of the monotonic base with TXEN_N low, until now, is charged; the off-time and the dwell window run from here (R113, R115). -/
def chargeTx (p : Nat) (x : AirTx) (s : State) : State :=
  let first := x.monoFrom * 1000 / 2 ^ 24
  let s1 := setAcct p x.subBand (fun d => { d with charges := d.charges ++ [{ cls := x.cls, quanta := nowMs s + 1 - first, at_ := nowMs s }],
                                                   lastEnd := some s.mono }) s
  setSec p (fun y => { y with dwell := y.dwell ++ [(x.channel, first, nowMs s)] }) s1

/-- A transmission cut by a reset is charged what it lasted (R113). -/
def chargeCut (p : Nat) (s : State) : State :=
  match (secp s p).tx with
  | some x => setSec p (fun y => { y with tx := none }) (chargeTx p x s)
  | none => s

/-- TXEN_N rises at engine time t: the transmission is charged (R113). A port that a commit disabled meanwhile ends the transmission
first, since none is cut short (R111). -/
def txEnd (p t : Nat) (s : State) : State :=
  match (secp s p).tx with
  | none => s
  | some x =>
    let s1 := advTo (max t x.from_) s
    let s3 := setSec p (fun y => { y with tx := none }) (chargeTx p x s1)
    let s4 := x.custody.foldl (fun s c => noteEp c.1 (fun e => { e with evCustody := e.evCustody.filter (fun f => f != c.2) }) s)
      (setSec x.sector (dropCustody x.custody) s3)
    let after : RfState := if pval s4 (pidRf p 0) = 1 then .receiving else .disabled
    if (rfp s4 p).state = .transmitting then setRf p (fun r => { setRfState after r with txenRise := s4.mono }) s4
    else setRf p (fun r => { r with txenRise := s4.mono }) s4

/-- The oldest charge of an account leaves the window (R113). -/
def chargeExpiry (p sb : Nat) (s : State) : State :=
  match (acct s p sb).charges with
  | [] => s
  | c :: _ =>
    let s1 := advMono (((c.at_ + windowMs) * 2 ^ 24 + 999) / 1000) s
    setAcct p sb (fun d => { d with charges := d.charges.filter (fun c => 0 < chargeLeft (nowMs s1) c) }) s1

/-! ### Sealing (R95) -/

/-- Type octet: TYPE, and bit 7 for engine to endpoint. -/
def typeOctet (typ : Nat) (toEngine : Bool) : List Byte := le 1 (typ + if toEngine then 0 else 128)

/-- MIC alone, over octets in clear. -/
def micOf (key nonce aad : List Byte) : List Byte := slice (Config.ccmSeal key nonce aad []) 0 8

/-- A sector frame: its octets and MIC (R95). -/
def sealSector (key : List Byte) (sectorId part bnum typ : Nat) (octets : List Byte) : List Byte :=
  octets ++ micOf key (le 2 sectorId ++ List.replicate 5 0xFF ++ le 1 part ++ le 4 bnum ++ typeOctet typ false) octets

/-- A DOWNLINK or EVENT frame: header in clear, payload encrypted, MIC (R95, R97). -/
def sealDown (key : List Byte) (addr : DWord) (dcnt typ : Nat) (header payload : List Byte) : List Byte :=
  header ++ slice (Config.ccmSeal key (le 8 addr.toNat ++ le 4 dcnt ++ typeOctet typ false) header payload) 0 (payload.length + 8)

/-- Frame control: TYPE, ACK_REQ, SEC, VERSION 1 (Table 05-1). -/
def frameControl (typ : Nat) (ackReq sec : Bool) : List Byte := le 2 (typ + 8 * b2n ackReq + 16 * b2n sec + 256)

/-! ### Pending list (R105, R125, R340) -/

/-- A radio endpoint that follows beacons. -/
def tracked (e : Endpoint) : Bool := !e.plc && e.air != .connected

/-- Handles pending in a sector, in the order of their requests: switching first by SWITCH_SEQ, then by request time (R105, R340). -/
def pendingOf (s : State) (p : Nat) : List Nat :=
  let camp := s.eps.filterMap (fun y =>
    if tracked y.2 && y.2.lastPort == p && y.2.lastGood != 0 then
      (bestStep s y.1).map (fun z => ((if z.2.1.kind = kindSwitch then (0, z.2.2.seq.toNat) else (1, z.2.2.since)), y.1))
    else none)
  let open_ := (secp s p).pendList.map (fun y => ((1, y.2), y.1))
  let sorted := sortBy (fun (a b : (Nat × Nat) × Nat) => pairLess a.1 b.1) (open_ ++ camp)
  (sorted.map (fun y => y.2)).eraseDups

/-! ### Beacons (R98, R104, R105, R117) -/

def custodyWord (e : CustodyEntry) : List Byte := le 3 (e.handle + 2 ^ 20 * (e.fcnt % 16))

/-- The chunks of at most 674 entries that CUSTODY frames carry (R98). -/
def chunks (n : Nat) : Nat → List CustodyEntry → List (List CustodyEntry)
  | 0, _ => []
  | k + 1, es => if es.isEmpty then [] else es.take n :: chunks n k (es.drop n)

def beaconLen (c d : Nat) : Nat := 45 + 3 * (c + d)

def custodyLen (c : Nat) : Nat := 23 + 3 * c

/-- Duration of a beacon with its train, sent back to back (R105). -/
def trainUs (mode d : Nat) (beacon : List CustodyEntry) (train : List (List CustodyEntry)) : Nat :=
  sunUs mode (beaconLen beacon.length d) + (train.map (fun f => sunUs mode (custodyLen f.length))).sum

/-- ACK_LEVEL and IMM_ACK of one sub-band (R117). -/
def ackLevelOf (s : State) (p sb : Nat) (x : SubBand) : Nat × Bool :=
  let rb := reserveAt (secVal s p 0xC) sb
  let room := budgetOf x - rb
  let used := usedOf s p sb .ack + usedOf s p sb .downlink
  let lv := if room = 0 then 0 else min 15 (16 * (room - used) / room)
  (lv, x.immAck && 0 < lv)

/-- The sub-band that the DUTY octet reflects: the lowest ACK_LEVEL among those that hold map channels, the lowest index on a tie (R117). With
no such sub-band, as with an empty map, ACK_LEVEL and IMM_ACK are 0. (DESIGN CHOICE: log 149) -/
def dutyOctet (s : State) (p : Nat) : Nat × Bool :=
  let chans := mapChannels (secVal s p 8) (secVal s p 9)
  let prof := (profOf s p).getD []
  let held := prof.filter (fun x => chans.any (fun c => insideSub (chanEdges (bandOf s p) c) x.2))
  let lvs := sortBy (fun (a b : Nat × Nat × Bool) => a.1 < b.1) (held.map (fun x => (x.1, ackLevelOf s p x.1 x.2)))
  match lvs with
  | [] => (0, false)
  | y :: ys => (ys.foldl (fun best y => if y.2.1 < best.2.1 then y else best) y).2

/-- Anchor channel of beacon b (R104). -/
def anchorOf (s : State) (q b : Nat) : Nat :=
  let as := anchorsOf (secVal s q 4)
  as.getD (b % as.length) 0

/-- Channel number and edges, on the sending port, of a channel of sector q (R127). -/
def viaChannel (s : State) (q via c : Nat) : Nat × (Int × Int) :=
  let e := chanEdges (bandOf s q) c
  (if via = q then c else chanAt (bandOf s via) ((e.1 + e.2) / 2), e)

/-- Carried over once more; more than CUSTODY_AGE_BEACONS times is aged (R105). -/
def carryOver (s : State) (e : CustodyEntry) : CustodyEntry × Bool :=
  let n := e.carry + 1
  if pval s 0x2300 < n && !e.aged then ({ e with carry := n, aged := true }, true) else ({ e with carry := n }, false)

/-- Entries of a sector carry over: event 0x29 once for each that ages (R105). -/
def carryAll (q : Nat) (which : CustodyEntry → Bool) (s : State) : State :=
  let es := (secp s q).custody.map (fun e => if which e then carryOver s e else (e, false))
  raiseIf (es.any (fun e => e.2)) 0x29 (setSec q (fun x => { x with custody := es.map (fun e => e.1) }) s)

/-- The PPDU of a frame that the engine sends in SUN FSK, a link ack apart: 8 octets of preamble, CRC-32, FCS type 0 (R98); data whitening off.
(DESIGN CHOICE: log 149) -/
def enginePpdu (s : State) (mode : Nat) (psdu : List Byte) : Ppdu := sunPpdu 8 (pval s 0x2001) mode false false psdu

/-- A custody entry is among some. -/
def amongCustody (xs : List CustodyEntry) (e : CustodyEntry) : Bool := xs.any (fun k => k.handle == e.handle && k.fcnt == e.fcnt)

/-- n of the entries, in the BEACON and then in CUSTODY frames. (DEDUCED: log 68) -/
def packTrain (cap train n : Nat) (es : List CustodyEntry) : List CustodyEntry × List (List CustodyEntry) :=
  let es := es.take n
  (es.take cap, chunks 674 train (es.drop cap))

/-- Freeze a beacon's content (R105): as many entries as fit in the frames, within MAX_ON_MS and the beacon class budget. -/
def freeze (q via b : Nat) (s : State) : BeaconContent × State :=
  let pend := (pendingOf s q).take 128
  let es := if s.jnl.noCustody then [] else (secp s q).custody.filter (fun e => !e.deep)
  let mode := secVal s q 3
  let (ch, edges) := viaChannel s q via (anchorOf s q b)
  let cap := 667 - pend.length
  let train := secVal s q 6
  let fits := fun (n : Nat) =>
    let (c0, tr) := packTrain cap train n es
    let us := trainUs mode pend.length c0 tr
    match (profOf s via).bind (fun prof => subOf prof edges) with
    | some (sb, x) => us ≤ 1000 * x.maxOnMs && classOk s via sb x .beacon (worstQuanta (txLowUs s via us))
    | none => true
  let n := ((List.range (min es.length (cap + 674 * train) + 1)).reverse.find? fits).getD 0
  let (c0, tr) := packTrain cap train n es
  let (lv, imm) := dutyOctet s q
  let kept := es.drop n
  let _ := ch
  ({ pending := pend, beacon := c0, train := tr, ackLevel := lv, immAck := imm },
    carryAll q (fun e => !e.deep && amongCustody kept e) s)

/-- Listening is required on a channel (R112): the state in which it begins. -/
def lbtStart (s : State) (p : Nat) (edges : Int × Int) : Option Lbt :=
  match (profOf s p).bind (fun prof => subOf prof edges) with
  | some (_, x) => if x.lbtReq then some { be := x.beMin, nb := 0 } else none
  | none => none

/-- Latest start of a due beacon (R104). -/
def beaconLimit (s : State) (q : Nat) (d : DueBeacon) : Nat := d.at_ + tMs (secVal s q 5)

/-- Record naming a sector and the reasons of its missed beacons (R127). -/
def rcBeaconMissed : Nat := 0x48

/-- The sector's state changes: event 0x25 (R127). -/
def setSector (q : Nat) (st : SectorState) (s : State) : State :=
  if (secp s q).state = st then s
  else raise 0x25 (setSec q (fun x => { x with state := st, misses := 0, reasons := [], fbIntervals := 0, tryOwn := false }) s)

/-- BEACON_FALLBACK names a working port (Table 05-10). -/
def fallbackWorks (s : State) (q : Nat) : Bool := secVal s q 0xB != 0xFF && transmits s (secVal s q 0xB) && rfUp s (secVal s q 0xB)

/-- Reasons in the record of R127. -/
def missLbt : Nat := 1
def missBudget : Nat := 2
def missArbitration : Nat := 3
def missPort : Nat := 4
def missRule : Nat := 5
def missKey : Nat := 6

/-- Why the due beacon has not started. -/
def missReason (s : State) (d : DueBeacon) : Nat :=
  if d.lbt.isSome then missLbt else if !rfUp s d.viaPort then missPort else if d.reason = 0 then missArbitration else d.reason

/-- After beacon b, sent or missed, a DEEP_BEACON is due when its turn has come; one still due from before was not sent, and its entries carry
over (R106). It listens first where the sub-band asks for it (R112). -/
def deepOpen (q b : Nat) (s : State) : State :=
  let s1 := if (secp s q).deepDue.isSome then carryAll q (fun e => e.deep) s else s
  if secVal s1 q 0xE != 0xFFFF && b % secVal s1 q 0xF == 0 then
    setSec q (fun x => { x with deepDue := some b, deepLbt := lbtStart s1 q (chanEdges (bandOf s1 q) (secVal s1 q 0xE)) }) s1
  else setSec q (fun x => { x with deepDue := none, deepLbt := none }) s1

/-- The due beacon is missed (R104, R105, R127). -/
def beaconMissed (q : Nat) (d : DueBeacon) (s : State) : State :=
  let inContent := fun (e : CustodyEntry) => match d.content with
    | some c => amongCustody (c.beacon ++ c.train.flatten) e
    | none => false
  let r := missReason s d
  let s1 := deepOpen q d.bnum (carryAll q (fun e => !e.deep && inContent e) (setSec q (fun x => { x with due := none, missed := x.missed + 1 }) s))
  let sb := subIndex s1 d.viaPort (viaChannel s1 q d.viaPort (anchorOf s1 q d.bnum)).2
  let x := secp s1 q
  if x.state = .fallback && d.viaPort = q then setSec q (fun x => { x with tryOwn := false, fbIntervals := 0 }) s1
  else if r = missBudget && presetLeft s1 d.viaPort sb then s1
  else
    let rs := x.reasons ++ [r]
    let n := x.misses + 1
    if n < 3 then setSec q (fun x => { x with misses := n, reasons := rs }) s1
    else
      let s2 := raise 0x24 (record rcBeaconMissed (le 4 q ++ (rs.map (le 1)).flatten) (setSec q (fun x => { x with misses := 0, reasons := [] }) s1))
      match x.state with
      | .normal => setSector q (if fallbackWorks s2 q then .fallback else .degraded) s2
      | .fallback => setSector q .degraded s2
      | .degraded => s2

/-- BEACON_MISS: the delay limit passes (R104). -/
def beaconMiss (q : Nat) (s : State) : State :=
  match (secp s q).due with
  | none => s
  | some d => beaconMissed q d (advTo (beaconLimit s q d) s)

/-- No beacon of this number or a later one has been due. -/
def beaconFresh (s : State) (q b : Nat) : Bool :=
  match (secp s q).lastB with
  | none => true
  | some l => l < b

/-- The content of beacon b of sector q is frozen and the beacon waits for its port (R106, R108). -/
def beaconOpen (q b : Nat) (s : State) : State :=
  let via := viaOf s q
  let edges := (viaChannel s q via (anchorOf s q b)).2
  let (content, s1) := freeze q via b s
  setSec q (fun x => { x with
    due := some { bnum := b, at_ := beaconAt s q b, viaPort := via, content := some content, lbt := lbtStart s via edges },
    lastB := some b, fbIntervals := if x.state = .fallback then x.fbIntervals + 1 else 0 }) s1

/-- BEACON_DUE: B_b of beacon b (R104). A beacon still due is missed first. -/
def beaconDue (q b : Nat) (s : State) : State :=
  if transmits s q && beaconFresh s q b && s.cfg.lastTc ≤ beaconAt s q b && s.now ≤ beaconAt s q b then
    let s0 := beaconMiss q s
    beaconOpen q b (advTo (beaconAt s0 q b) s0)
  else s

/-- BEACON octets before the MIC (Table 05-5); t is the instant of the first symbol. -/
def beaconOctets (s : State) (q : Nat) (d : DueBeacon) (c : BeaconContent) : List Byte :=
  frameControl 1 false false ++ le 2 (secVal s q 0) ++ le 4 d.bnum ++ le 8 (s.now + tUs 1600)
    ++ le 1 (secVal s q 1 + 16 * b2n (!c.train.isEmpty) + 32 * b2n (d.viaPort != q)) ++ le 1 (secp s q).epoch.toNat
    ++ le 2 (secVal s q 8) ++ le 8 (secVal s q 9) ++ le 1 (c.ackLevel + 128 * b2n c.immAck) ++ le 2 c.beacon.length
    ++ le 2 c.pending.length ++ (c.beacon.map custodyWord).flatten ++ (c.pending.map (le 3)).flatten

/-- CUSTODY octets before the MIC (R98). -/
def custodyOctets (s : State) (q b part : Nat) (es : List CustodyEntry) : List Byte :=
  frameControl 5 false false ++ le 2 (secVal s q 0) ++ le 4 b ++ le 1 part ++ le 2 es.length ++ (es.map custodyWord).flatten

/-- Uses of the beacon key, one a frame: how many of n the slot gives, and the key (13 R354). -/
def takeKeys (slot : Nat) : Nat → State → State × List (List Byte)
  | 0, s => (s, [])
  | n + 1, s =>
    match useSlot slot uMac s with
    | (s1, none) => (s1, [])
    | (s1, some x) =>
      let (s2, ks) := takeKeys slot n s1
      (s2, x.key :: ks)

/-- The beacon has started: counts, state and the deep beacon that may follow (R106, R127). -/
def beaconSent (q : Nat) (d : DueBeacon) (s : State) : State :=
  let s1 := deepOpen q d.bnum (setSec q (fun x => { x with due := none, sent := x.sent + 1, misses := 0, reasons := [] }) s)
  let x := secp s1 q
  if x.state = .degraded || (x.state = .fallback && d.viaPort = q) then setSector q .normal s1 else s1

/-- Frozen content without its custody entries: none goes out while the journal takes no commit (02 R29). -/
def withoutCustody (c : BeaconContent) : BeaconContent := { c with beacon := [], train := [] }

/-- The train cut to the frames that the key slot gives a use for. -/
def cutTrain (n : Nat) (c : BeaconContent) : BeaconContent := { c with train := c.train.take n }

/-- BEACON_TX_START: the beacon and its train begin at engine time t (R104, R111, R114, R115). Content frozen before the journal stopped goes
out without its custody entries, which carry over. (DESIGN CHOICE: log 149) -/
def beaconTx (q t : Nat) (s : State) : State :=
  match (secp s q).due with
  | none => s
  | some d =>
    match d.content with
    | none => s
    | some frozen =>
      let c := if s.jnl.noCustody then withoutCustody frozen else frozen
      if d.lbt.isSome || t < d.at_ || beaconLimit s q d < t || t < s.now || !blankFits s d.viaPort t then s
      else
        let s0 := advTo t s
        let via := d.viaPort
        let because := fun (r : Nat) (s : State) =>
          setSec q (fun x => { x with due := some { d with reason := r } }) s
        let (ch, edges) := viaChannel s0 q via (anchorOf s0 q d.bnum)
        let us := trainUs (secVal s0 q 3) c.pending.length c.beacon c.train
        if !rfUp s0 via then because missPort s0
        else if (secp s0 via).tx.isSome || (rfp s0 via).state != .receiving || (via != q && (secp s0 via).due.isSome) then
          because missArbitration s0
        else
          match txRule s0 via ch edges .beacon us false with
          | some r => because (if r = .budget then missBudget else missRule) (noteRefusal via edges r s0)
          | none =>
            let (s1, keys) := takeKeys (secVal s0 q 7) (1 + c.train.length) s0
            match keys with
            | [] => because missKey s1
            | k0 :: ks =>
              let c1 := cutTrain ks.length c
              let sid := secVal s1 q 0
              let mode := secVal s1 q 3
              let put := fun (p : List Byte) => Output.air via ch (enginePpdu s1 mode p)
              let b0 := put (sealSector k0 sid 0 d.bnum 1 (beaconOctets s1 q d c1))
              let rest := (ks.zip (c1.train.zip (List.range c1.train.length))).map (fun y =>
                put (sealSector y.1 sid (y.2.2 + 1) d.bnum 5 (custodyOctets s1 q d.bnum (y.2.2 + 1) y.2.1)))
              let sent := c1.beacon ++ c1.train.flatten
              let frozenEs := frozen.beacon ++ frozen.train.flatten
              let s2 := carryAll q (fun e => !e.deep && amongCustody frozenEs e && !amongCustody sent e) s1
              beaconSent q d (startTx via ch edges .beacon q (trainUs mode c.pending.length c.beacon c1.train) 0
                (sent.map (fun e => (e.handle, e.fcnt))) (b0 :: rest) s2)

/-- FALLBACK_RETRY: after 16 intervals the sector's own port is tried at the next B_b (Table 05-10). -/
def fallbackRetry (q : Nat) (s : State) : State :=
  if (secp s q).state = .fallback && 16 ≤ (secp s q).fbIntervals then setSec q (fun x => { x with tryOwn := true, fbIntervals := 0 }) s
  else s

/-- DEEP_BEACON octets before the MIC (R99). -/
def deepOctets (s : State) (q b : Nat) (es : List CustodyEntry) : List Byte :=
  let t := s.now + tUs 160000
  frameControl 6 false false ++ le 2 (secVal s q 0) ++ le 4 b ++ le 4 (t / 2 ^ 24) ++ le 2 (t / 2 ^ 8) ++ le 1 es.length
    ++ (es.map custodyWord).flatten

/-- DEEP_BEACON_TX (R106): the DEEP_BEACON of beacon b, with up to 8 custody entries of DEEP lanes; when it cannot be sent they carry over.
Where listening is required it has found the channel clear (R112). -/
def deepBeaconTx (q b : Nat) (s : State) : State :=
  match (secp s q).deepDue with
  | none => s
  | some due =>
    if due != b || (secp s q).deepLbt.isSome || !blankFits s q s.now then s
    else
      let es := if s.jnl.noCustody then [] else (secp s q).custody.filter (fun e => e.deep)
      let now_ := es.take 8
      let s1 := setSec q (fun x => { x with deepDue := none }) s
      let ch := secVal s1 q 0xE
      let edges := chanEdges (bandOf s1 q) ch
      let us := deepUs (23 + 3 * now_.length)
      let failed := fun (s : State) => carryAll q (fun e => e.deep) s
      if !rfUp s1 q || (secp s1 q).tx.isSome || (rfp s1 q).state != .receiving then failed s1
      else
        match txRule s1 q ch edges .beacon us false with
        | some r => failed (noteRefusal q edges r s1)
        | none =>
          match useSlot (secVal s1 q 7) uMac s1 with
          | (s2, none) => failed s2
          | (s2, some k) =>
            let frame := sealSector k.key (secVal s2 q 0) 0x40 b 6 (deepOctets s2 q b now_)
            let s3 := startTx q ch edges .beacon q us 0 (now_.map (fun e => (e.handle, e.fcnt))) [.deep q ch (deepFrame frame)] s2
            carryAll q (fun e => e.deep && !amongCustody now_ e) s3

end Sys2Proof.Machine
end

