-- ==== Sys2Proof/Machine/Downlink.lean ====
section
/-! DEFINITION. Listening before talk, link acks, downlinks, connections and air states, and the air-access opcodes (05). -/

namespace Sys2Proof.Machine

/-! ### Listening before talk (R112) -/

/-- The port can listen: listening time while it is blanked does not count. -/
def canListen (s : State) (p : Nat) : Bool := rfUp s p && (rfp s p).blankedBy.isEmpty

/-- A busy listen period: back off, or give up. -/
def lbtBusy (x : SubBand) (l : Lbt) (s : State) : Lbt × State :=
  if x.nbMax < l.nb + 1 then ({ l with nb := l.nb + 1, ended := true }, s)
  else
    let slots := Config.drawNat s.freeCtr % 2 ^ l.be
    let l1 : Lbt := { be := min (l.be + 1) x.beMax, nb := l.nb + 1, backingOff := true, until_ := s.mono + tUs (320 * slots) }
    (l1, (draw s).2)

def listening (l : Option Lbt) : Bool :=
  match l with
  | some l => !l.backingOff && !l.ended
  | none => false

def backingOff (l : Option Lbt) : Bool :=
  match l with
  | some l => l.backingOff && !l.ended
  | none => false

/-- The sector whose beacon, sent from port p, is at that point of the procedure; the port's own sector first (R127). -/
def lbtSector (s : State) (p : Nat) (at_ : Option Lbt → Bool) : Option (Nat × DueBeacon) :=
  (p :: List.range 8).findSome? (fun q => match (secp s q).due with
    | some d => if d.viaPort == p && at_ d.lbt then some (q, d) else none
    | none => none)

def setOpp (p h : Nat) (l : Option Lbt) (s : State) : State :=
  setSec p (fun x => { x with dlOpp := x.dlOpp.map (fun o => if o.handle = h then { o with lbt := l } else o) }) s

def dropOpp (p h : Nat) (s : State) : State := setSec p (fun x => { x with dlOpp := x.dlOpp.filter (fun o => o.handle != h) }) s

/-- Sub-band of a channel of port p. -/
def subBandOf (s : State) (p : Nat) (edges : Int × Int) : SubBand :=
  match (profOf s p).bind (fun prof => subOf prof edges) with
  | some (_, x) => x
  | none => {}

/-! ### What a downlink would carry (R119, R125, 12 R340) -/

/-- The content of the next DOWNLINK to an endpoint. -/
inductive DlWhat where
  | connect
  | step (c : Nat) (x : Camp) (t : Target)
  deriving DecidableEq, Repr

/-- CONNECT while it is owed, else the campaign step that goes next; none for an endpoint that is connected. -/
def dlWhat (s : State) (h : Nat) : Option DlWhat :=
  match ep? s h with
  | none => none
  | some e =>
    if e.plc || e.air == .connected then none
    else if e.air == .opening && !e.connectSent then some .connect
    else (bestStep s h).map (fun z => .step z.1 z.2.1 z.2.2)

/-- Octets of a command payload (12 Table 12-3). -/
def cmdLen (x : Camp) (t : Target) : Nat :=
  if x.kind = kindSwitch then 18 else if x.kind = kindCredit then 13 else if t.cmd = 0x11 then 265 else if t.cmd = 0x10 then 53 else 46

def whatLen : DlWhat → Nat
  | .connect => 26
  | .step _ x t => cmdLen x t

/-- On-air time of a DOWNLINK with a payload of n octets (R97, R98). -/
def downUs (mode n : Nat) : Nat := sunUs mode (14 + n + 8 + 4)

/-- A scheduled ack would overlap a transmission from t for us (R111). -/
def ackInWay (s : State) (p t us : Nat) : Bool := (secp s p).acks.any (fun a => overlap (ackSpan a) (t, t + tUs us))

/-- The DEEP_BEACON of the port's sector gives up: its entries carry over (R106). -/
def deepGiveUp (p : Nat) (s : State) : State :=
  carryAll p (fun e => e.deep) (setSec p (fun x => { x with deepDue := none, deepLbt := none }) s)

/-- A listen period ends for the DEEP_BEACON of the port's sector. -/
def deepListened (p : Nat) (l : Lbt) (power : Power) (s : State) : State :=
  let sb := subBandOf s p (chanEdges (bandOf s p) (secVal s p 0xE))
  if powerBelow s p power sb.lbtThresh then setSec p (fun x => { x with deepLbt := none }) s
  else
    let (l1, s1) := lbtBusy sb l s
    if l1.ended then deepGiveUp p s1 else setSec p (fun x => { x with deepLbt := some l1 }) s1

/-- A listen period ends for a downlink: a scheduled ack in its way makes the attempt busy (R111). -/
def oppListened (p : Nat) (o : DlOpp) (power : Power) (s : State) : State :=
  let sb := subBandOf s p (chanEdges (bandOf s p) o.channel)
  let us := downUs o.mode (match dlWhat s o.handle with
    | some w => whatLen w
    | none => 0)
  if !powerBelow s p power sb.lbtThresh || ackInWay s p s.now us then
    let (l, s1) := lbtBusy sb (o.lbt.getD {}) s
    if l.ended then dropOpp p o.handle s1 else setOpp p o.handle (some l) s1
  else setOpp p o.handle none s

/-- LBT_LISTEN_END: the mean channel power of the listen period, over one raster, is compared with LBT_THRESH (R69, R111, R112). -/
def lbtListenEnd (p : Nat) (power : Power) (s : State) : State :=
  if !canListen s p then s
  else
    match lbtSector s p listening with
    | some (q, d) =>
      let sb := subBandOf s p (viaChannel s q p (anchorOf s q d.bnum)).2
      if powerBelow s p power sb.lbtThresh then setSec q (fun y => { y with due := some { d with lbt := none } }) s
      else
        let (l, s1) := lbtBusy sb (d.lbt.getD {}) s
        setSec q (fun y => { y with due := some { d with lbt := some l } }) s1
    | none =>
      match (secp s p).deepLbt.filter (fun l => listening (some l)) with
      | some l => deepListened p l power s
      | none =>
        match (secp s p).dlOpp.find? (fun o => listening o.lbt) with
        | none => s
        | some o => oppListened p o power s

/-- LBT_BACKOFF_END: the random wait is over and listening resumes (R112). -/
def lbtBackoffEnd (p : Nat) (s : State) : State :=
  let again := fun (l : Lbt) => { l with backingOff := false }
  match lbtSector s p backingOff with
  | some (q, d) =>
    match d.lbt with
    | some l => setSec q (fun y => { y with due := some { d with lbt := some (again l) } }) (advMono l.until_ s)
    | none => s
  | none =>
    match (secp s p).deepLbt.filter (fun l => backingOff (some l)) with
    | some l => setSec p (fun y => { y with deepLbt := some (again l) }) (advMono l.until_ s)
    | none =>
      match (secp s p).dlOpp.find? (fun o => backingOff o.lbt) with
      | some o =>
        match o.lbt with
        | some l => setOpp p o.handle (some (again l)) (advMono l.until_ s)
        | none => s
      | none => s

/-! ### Link acks (R96, R108 to R111) -/

/-- A suppression under its reason (R110). -/
def suppress (p : Nat) (r : TxRefusal) (s : State) : State :=
  setSec p (fun x => { x with suppr := tupd x.suppr (refusalIndex r) 0 (fun v => v + 1) }) s

/-- Engine time in whole µs. -/
def usOf (t : Nat) : Nat := t * 1000000 / 2 ^ 24

/-- Of two acks that would overlap, the one that is sent: the earlier-ending frame's, then the lower lane's (R111). -/
def ackBefore (a b : SchedAck) : Bool := usOf a.endTime < usOf b.endTime || (usOf a.endTime == usOf b.endTime && a.lane < b.lane)

/-- An ack is refused: counted, and noted for dwell and budget. -/
def ackRefused (p ch : Nat) (r : TxRefusal) (s : State) : State :=
  noteRefusal p (chanEdges (bandOf s p) ch) r (suppress p r s)

/-- The ack decision for a frame that meets the other conditions of R108: suppressed, or scheduled (R110, R111). The rules that depend on time
are those at the ack's own start, 1 000 µs after the frame's end. -/
def ackOffer (p : Nat) (a : SchedAck) (late : Bool) (s : State) : State :=
  let due := a.endTime + tUs 1000
  let rivals := (secp s p).acks.filter (fun b => overlap (ackSpan a) (ackSpan b))
  let busy := airBusyLater s p due (ackUs a.mode) || rivals.any (fun b => ackBefore b a)
  let r := if late then some .late else txRule (advTo due s) p a.channel (chanEdges (bandOf s p) a.channel) .ack (ackUs a.mode) busy
  match r with
  | some r => ackRefused p a.channel r s
  | none =>
    let s1 := rivals.foldl (fun s _ => suppress p .busy s) s
    setSec p (fun x => { x with acks := x.acks.filter (fun b => !overlap (ackSpan a) (ackSpan b)) ++ [a] }) s1

/-- PSDU of a link ack, without its FCS (R96). -/
def ackPsdu (a : SchedAck) : List Byte := [2, BitVec.ofNat 8 a.fcnt8]

/-- The short PPDU of a link ack: 2 octets of preamble, CRC-16, MODE and DW of the frame (R96). -/
def ackPpdu (s : State) (a : SchedAck) : Ppdu := sunPpdu 2 (pval s 0x2001) a.mode true a.dw (ackPsdu a)

/-- LINK_ACK_TX: the ack of a lane's frame starts 1 000 µs after the frame's end, or is suppressed (R109, R110). (DEDUCED: log 74) -/
def linkAckTx (p lane_ : Nat) (s : State) : State :=
  match (secp s p).acks.find? (fun a => a.lane == lane_) with
  | none => s
  | some a =>
    let due := a.endTime + tUs 1000
    let s1 := advTo due (setSec p (fun x => { x with acks := x.acks.erase a }) s)
    let us := ackUs a.mode
    let edges := chanEdges (bandOf s1 p) a.channel
    let missed := due + tUs 10 < s1.now
    match txRule s1 p a.channel edges .ack us (missed || airBusy s1 p s1.now us) with
    | some r => ackRefused p a.channel r s1
    | none =>
      setSec p (fun x => { x with acksSent := x.acksSent + 1 })
        (startTx p a.channel edges .ack p us a.decided [] [.ack p a.channel (ackPpdu s1 a)] s1)

/-! ### The transmit gate's frame (19 R473, 12 R337) -/

/-- A switching frame stands at the gate and its instant has not passed. -/
def gateTaken (s : State) : Bool :=
  match s.safe.due with
  | some g => s.now ≤ g.due
  | none => false

/-- The safety pair builds one attempt of a SWITCH step, due at an instant: addresses and counter copies compared, the command, two
tokens, two sealed frames. put gives the frame its medium; sealed its octets. A retry of a transaction keeps its DCNT. -/
def prepareGate (c h : Nat) (t : Target) (due : Nat) (dcnt? : Option Nat) (put : GateFrame → GateFrame)
    (sealed : List Byte → Nat → List Byte → List Byte) (s : State) : State :=
  match ep? s h with
  | none => s
  | some e =>
    if gateTaken s || e.ctxLost then s
    else if s.life.switchSeqA != s.life.switchSeqB then safetyFault 6 s
    else
      match (match dcnt? with
        | some _ => epKey h s
        | none => dlKey h s) with
      | (s1, none) => s1
      | (s1, some key) =>
        let (s2, dcnt) := match dcnt? with
          | some d => (s1, d)
          | none => nextDcnt h s1
        let na := if t.notAfter = 0 then due / 2 ^ 24 + pval s2 0x7005 else t.notAfter
        let cmd := switchCmd s2 e.addr t na
        let tok := Config.sha256 (le 8 e.addr.toNat ++ le 4 dcnt ++ cmd)
        let f := sealed key dcnt cmd
        let g : GateFrame := { camp := c, handle := h, seq := t.seq, notAfter := na, dcnt := dcnt, tokA := tok, tokB := tok,
                               frameA := f, frameB := f, due := due, plc := false, port := 0 }
        { s2 with safe.due := some (put g) }

/-! ### DOWNLINK (R95, R97, R119) -/

/-- Header of a DOWNLINK, or of an EVENT with the fields that follow DCNT (Table 05-4). -/
def downHeader (addr : DWord) (dcnt typ : Nat) (ackReq : Bool) (mid : List Byte) : List Byte :=
  frameControl typ ackReq true ++ le 8 addr.toNat ++ le 4 dcnt ++ mid

/-- The sealed octets of a DOWNLINK (typ 3) or an EVENT (typ 4). -/
def downFrame (addr : DWord) (typ : Nat) (ackReq : Bool) (mid key : List Byte) (dcnt : Nat) (payload : List Byte) : List Byte :=
  sealDown key addr dcnt typ (downHeader addr dcnt typ ackReq mid) payload

/-- The next candidate for hop, wrapping from n - 1 to 1, until it shares no divisor with n (R123). -/
def hopFrom (n : Nat) : Nat → Nat → Nat
  | 0, _ => 1
  | k + 1, hop => if Nat.gcd hop n = 1 then hop else hopFrom n k (if hop + 1 < n then hop + 1 else 1)

def hopOf (h n : Nat) : Nat := hopFrom n n (h % (n - 1) + 1)

/-- Connection interval of a code in engine time: 125 ms × 2^code (R123). -/
def connIv (code : Nat) : Nat := 2 ^ 21 * 2 ^ code

/-- The CONNECT command (R125). -/
def connectCmd (e : Endpoint) : List Byte :=
  [0x01] ++ le 1 e.connCode ++ le 4 e.connSupervMs ++ le 1 e.hop ++ le 1 e.seed ++ le 8 e.connT0 ++ le 2 e.connMapBase
    ++ le 8 e.connMapMask.toNat

/-- The parameters of a connection whose CONNECT ends at an instant (R123, R125). -/
def connectParams (s : State) (h : Nat) (endTime : Nat) (e : Endpoint) : Endpoint :=
  let base := secVal s e.connPort 8
  let mask := secVal s e.connPort 9
  let n := (mapChannels base mask).length
  { e with connT0 := endTime + max (2 * connIv e.connCode) (tSec 1), hop := hopOf h n, seed := h % n, connMapBase := base,
           connMapMask := BitVec.ofNat 64 mask, connectSent := true, evcnt := 0, update := none, closing := false }

/-- Take a handle off the list of CONNECT_OPEN requests. -/
def unlist (h : Nat) (s : State) : State :=
  (List.range 8).foldl (fun s q => setSec q (fun x => { x with pendList := x.pendList.filter (fun y => y.1 != h) }) s) s

/-- The DOWNLINK with CONNECT starts now. (DEDUCED: log 71) -/
def sendConnect (p h : Nat) (o : DlOpp) (us : Nat) (s : State) : State :=
  match dlKey h s with
  | (s1, none) => dropOpp p h s1
  | (s1, some key) =>
    let s2 := updEp h (connectParams s1 h (s1.now + tUs us)) (unlist h s1)
    let (s3, dcnt) := nextDcnt h s2
    match ep? s3 h with
    | none => s3
    | some e =>
      dropOpp p h (startTx p o.channel (chanEdges (bandOf s3 p) o.channel) .downlink p us 0 []
        [.air p o.channel (enginePpdu s3 o.mode (downFrame e.addr 3 false [] key dcnt (connectCmd e)))] s3)

/-- The DOWNLINK with a campaign step starts now; a SWITCH step goes to the transmit gate, due now (12 R325, R337). -/
def sendStep (p h : Nat) (o : DlOpp) (us c : Nat) (x : Camp) (t : Target) (s : State) : State :=
  match ep? s h with
  | none => s
  | some e =>
    if x.kind = kindSwitch then
      prepareGate c h t s.now none (fun g => { g with port := p, channel := o.channel, mode := o.mode })
        (fun key dcnt cmd => downFrame e.addr 3 true [] key dcnt cmd) s
    else
      match dlKey h s with
      | (s1, none) => dropOpp p h s1
      | (s1, some key) =>
        let (s2, dcnt) := nextDcnt h s1
        let frame := downFrame e.addr 3 true [] key dcnt (stepCmd s2 c x t)
        dropOpp p h (markSent c h dcnt (startTx p o.channel (chanEdges (bandOf s2 p) o.channel) .downlink p us 0 []
          [.air p o.channel (enginePpdu s2 o.mode frame)] s2))

/-- DOWNLINK_TX: a downlink to a pending endpoint starts at t, 20 ms to 100 ms after the end of its frame (R111 to R115, R119). (DEDUCED: log 70) -/
def downlinkTx (p h t : Nat) (s : State) : State :=
  match (secp s p).dlOpp.find? (fun o => o.handle == h), dlWhat s h with
  | some o, some w =>
    if o.lbt.isSome || t < s.now || t < o.endTime + tMs 20 || o.endTime + tMs 100 < t || !blankFits s p t then s
    else
      let s1 := advTo t s
      let us := downUs o.mode (whatLen w)
      let edges := chanEdges (bandOf s1 p) o.channel
      match txRule s1 p o.channel edges .downlink us (airBusy s1 p t us || ackInWay s1 p t us) with
      | some r => noteRefusal p edges r s1
      | none =>
        match w with
        | .connect => sendConnect p h o us s1
        | .step c x t' => sendStep p h o us c x t' s1
  | _, _ => s

/-- A GOOD frame of an endpoint in some pending list opens the window for its downlink (R119). -/
def openOpp (p h ch mode endTime : Nat) (s : State) : State :=
  if (dlWhat s h).isSome && (List.range 8).any (fun q => (pendingOf s q).contains h) then
    let o : DlOpp := { handle := h, channel := ch, mode := mode, endTime := endTime, lbt := lbtStart s p (chanEdges (bandOf s p) ch) }
    setSec p (fun x => { x with dlOpp := x.dlOpp.filter (fun y => y.handle != h) ++ [o] }) s
  else s

/-! ### Air states (R120, R121) -/

/-- Outcomes of AIR_STATE_GET. -/
def outConnected : Nat := 1
def outOpenTimeout : Nat := 2
def outClosed : Nat := 3
def outSupervision : Nat := 4

/-- Custody entries left of a connection go to the sector the endpoint was last heard in. -/
def custodyToSector (h : Nat) (s : State) : State :=
  match ep? s h with
  | none => s
  | some e =>
    let es : List CustodyEntry := e.evCustody.map (fun f => { handle := h, fcnt := f })
    setSec e.lastPort (fun x => { x with custody := x.custody ++ es }) (noteEp h (fun e => { e with evCustody := [] }) s)

/-- A connection or a connection attempt ends; the end of a connection raises event 0x27 (R125, R126). (DEDUCED: log 72) -/
def endConnection (h outcome : Nat) (air : AirState) (s : State) : State :=
  match ep? s h with
  | none => s
  | some e =>
    let s1 := custodyToSector h (unlist h (updEp h (fun e =>
      { e with air := air, connOutcome := outcome, connectSent := false, closing := false, update := none }) s))
    raiseIf (e.air == .connected) 0x27 s1

/-- The frame is the reply to the EVENT sent last: on its port and channel, its first symbol 1 000 µs ± 10 µs after the EVENT's last (R124). -/
def answersEvent (e : Endpoint) (p ch start : Nat) : Bool :=
  match e.lastEvent with
  | some (q, c, t) => q == p && c == ch && t + tUs 990 ≤ start && start ≤ t + tUs 1010
  | none => false

/-- A GOOD frame of a radio endpoint, by port, channel, first symbol and end: arrival window, supervision, state (R120, R121). The report period
takes effect with it (07 R190). -/
def airHeard (h p ch start endTime : Nat) (s : State) : State :=
  match ep? s h with
  | none => s
  | some e =>
    if e.plc then s
    else
      let pMs := 1000 * e.reportS
      let j := pMs / 8 + 1000
      let lo := endTime + tMs pMs - min (endTime + tMs pMs) (tMs j)
      let replied := e.air == .opening && e.connectSent && answersEvent e p ch start
      let air := match e.air with
        | .unseen => AirState.tracking | .drifting => .tracking | .lost => .tracking | .tracking => .tracking
        | .opening => if replied then .connected else .opening
        | .connected => .connected
      let f := fun (e : Endpoint) =>
        { e with lastGood := endTime, supFrom := endTime, air := air, winLo := lo, winHi := endTime + tMs (pMs + j), reportIn := e.reportS,
                 winOpen := e.reportS != 0, connOutcome := if replied then outConnected else e.connOutcome }
      raiseIf replied 0x27 (updEp h f s)

/-- ARRIVAL_WINDOW_CLOSE: TRACKING becomes DRIFTING (R121). -/
def arrivalClose (h : Nat) (s : State) : State :=
  match ep? s h with
  | none => s
  | some e =>
    if !e.plc && e.air == .tracking && e.winOpen then
      updEp h (fun e => { e with air := .drifting, winOpen := false }) (advTo e.winHi s)
    else s

/-- SUPERVISION_TIMEOUT: a beacon-tracked endpoint is LOST, event 0x28 (R121). -/
def supervisionTimeout (h : Nat) (s : State) : State :=
  match ep? s h with
  | none => s
  | some e =>
    if !e.plc && (e.air == .unseen || e.air == .tracking || e.air == .drifting) && e.supervS != 0 && s.cfg.everCommitted then
      raise 0x28 (updEp h (fun e => { e with air := .lost, winOpen := false }) (advTo (e.supFrom + tSec e.supervS) s))
    else s

/-- CONNECT_REPLY_TIMEOUT: no reply by t_0 and the supervision timeout: the handle is listed again (R125). -/
def replyTimeout (h : Nat) (s : State) : State :=
  match ep? s h with
  | none => s
  | some e =>
    if e.air == .opening && e.connectSent then
      let s1 := advTo (e.connT0 + tMs e.connSupervMs) s
      setSec e.connPort (fun x => { x with pendList := x.pendList ++ [(h, s1.mono)] }) (updEp h (fun e => { e with connectSent := false }) s1)
    else s

/-- OPEN_TIMEOUT: the attempt ends (R125). -/
def openTimeout (h : Nat) (s : State) : State :=
  match ep? s h with
  | none => s
  | some e => if e.air == .opening then endConnection h outOpenTimeout .tracking (advTo e.openDeadline s) else s

/-- CONN_SUPERVISION_EXPIRY: no frame for the supervision timeout of the connection (R121, R126). (DEDUCED: log 73) -/
def connSupervision (h : Nat) (s : State) : State :=
  match ep? s h with
  | none => s
  | some e =>
    if e.air == .connected then endConnection h outSupervision .drifting (advTo (e.lastGood + tMs e.connSupervMs) s) else s

/-! ### EVENT (R123, R124, R126) -/

/-- The new map of an UPDATE comes into force at event k_u. -/
def mapAt (h : Nat) (e : Endpoint) : Endpoint :=
  match e.update with
  | some (some ku, base, mask) =>
    if ku ≤ e.evcnt then
      let n := (mapChannels base mask.toNat).length
      { e with connMapBase := base, connMapMask := mask, hop := hopOf h n, seed := h % n, update := none }
    else e
  | _ => e

/-- Channel of the endpoint's next event (R123). -/
def eventChannel (e : Endpoint) : Nat :=
  let ms := mapChannels e.connMapBase e.connMapMask.toNat
  ms.getD (((e.evcnt % 65536) * e.hop + e.seed) % ms.length) 0

/-- What the next EVENT carries beside custody. -/
inductive EvWhat where
  | nothing
  | control (payload : List Byte)
  | step (c : Nat) (x : Camp) (t : Target)
  deriving DecidableEq, Repr

/-- DISCONNECT, then UPDATE, then the campaign step that goes next (R126, 12 R340). -/
def evWhat (s : State) (h : Nat) (e : Endpoint) : EvWhat :=
  if e.closing then .control [0x03]
  else
    match e.update with
    | some (ku, base, mask) => .control ([0x02] ++ le 2 (ku.getD (e.evcnt + 8)) ++ le 2 base ++ le 8 mask.toNat)
    | none =>
      if e.air == .connected then
        match bestStep s h with
        | some z => .step z.1 z.2.1 z.2.2
        | none => .nothing
      else .nothing

def evLen : EvWhat → Nat
  | .nothing => 0
  | .control p => p.length
  | .step _ x t => cmdLen x t

/-- EVCNT, CCNT and custody (Table 05-4). -/
def evMid (k : Nat) (custody : List Nat) : List Byte := le 2 k ++ le 1 custody.length ++ (custody.map (le 2)).flatten

/-- The EVENT goes out now on its channel, without a SWITCH step. -/
def sendEvent (p ch us : Nat) (h : Nat) (e : Endpoint) (custody : List Nat) (w : EvWhat) (s : State) : State :=
  match dlKey h s with
  | (s1, none) => updEp h (fun e => { e with missed := e.missed + 1 }) s1
  | (s1, some key) =>
    let (s2, dcnt) := nextDcnt h s1
    let (payload, ackReq) := match w with
      | .nothing => ([], false)
      | .control p => (p, false)
      | .step c x t => (stepCmd s2 c x t, true)
    let s3 := match w with
      | .step c _ _ => markSent c h dcnt s2
      | _ => s2
    let s4 := updEp h (fun e => { e with update := e.update.map (fun u => (some (u.1.getD (e.evcnt + 8)), u.2)),
                                         lastEvent := some (p, ch, s3.now + tUs us) }) s3
    startTx p ch (chanEdges (bandOf s4 p) ch) .downlink p us 0 (custody.map (fun f => (h, f)))
      [.air p ch (enginePpdu s4 (secVal s4 p 3) (downFrame e.addr 4 ackReq (evMid e.evcnt custody) key dcnt payload))] s4

/-- The listen period before an anchor, where one is required: found clear, or busy. A busy one draws its backoff like any other (R112), after which
the anchor has passed. (DEDUCED: log 162) -/
def eventListen (p : Nat) (edges : Int × Int) (power : Power) (s : State) : Bool × State :=
  match lbtStart s p edges with
  | none => (true, s)
  | some l =>
    let sb := subBandOf s p edges
    if powerBelow s p power sb.lbtThresh then (true, s) else (false, (lbtBusy sb l s).2)

/-- The EVENT at an anchor: sent, put before the transmit gate, or skipped (R124). -/
def eventAt (p h : Nat) (e : Endpoint) (anchor : Nat) (power : Power) (s0 : State) : State :=
  let (clear, s) := eventListen p (chanEdges (bandOf s0 p) (eventChannel e)) power s0
  let ch := eventChannel e
  let edges := chanEdges (bandOf s p) ch
  let custody := if s.jnl.noCustody then [] else e.evCustody.take 16
  let w := evWhat s h e
  let us := sunUs (secVal s p 3) (17 + 2 * custody.length + evLen w + 8 + 4)
  let skip := fun (s : State) => updEp h (fun e => { e with missed := e.missed + 1 }) s
  if anchor + tUs 10 < s.now || !clear then skip s
  else
    match txRule s p ch edges .downlink us (airBusy s p s.now us || ackInWay s p s.now us) with
    | some r => skip (noteRefusal p edges r s)
    | none =>
      match w with
      | .step c x t =>
        if x.kind = kindSwitch then
          prepareGate c h t s.now none (fun g => { g with event := true, port := p, channel := ch, mode := secVal s p 3, custody := custody })
            (fun key dcnt cmd => downFrame e.addr 4 true (evMid e.evcnt custody) key dcnt cmd) s
        else sendEvent p ch us h e custody w s
      | _ => sendEvent p ch us h e custody w s

/-- CONNECTION_EVENT: anchor t_0 + k′ × I (R123, R124); power is that of the listen period before the anchor, where one is required. -/
def connectionEvent (h : Nat) (power : Power) (s : State) : State :=
  match ep? s h with
  | none => s
  | some e =>
    if e.air == .connected || (e.air == .opening && e.connectSent) then
      let e1 := mapAt h e
      let anchor := e1.connT0 + e1.evcnt * connIv e1.connCode
      let s1 := updEp h (fun _ => e1) (advTo anchor s)
      let s2 := updEp h (fun e => { e with evcnt := e.evcnt + 1 }) (eventAt e1.connPort h e1 anchor power s1)
      if e1.closing then endConnection h outClosed .tracking s2 else s2
    else s

/-! ### Blanking ahead of a transmission (04 R85) -/

/-- The instant, or the instants, at which a transmission of the port may begin that is decided already: a scheduled ack, a due beacon or
DEEP_BEACON, a downlink opportunity, the anchor of an EVENT, the switching frame at the gate, the beacon that falls due next. -/
def mayStartAt (s : State) (p t : Nat) : Bool :=
  (secp s p).acks.any (fun a => t == a.endTime + tUs 1000)
    || (List.range 8).any (fun q => match (secp s q).due with
      | some d => d.viaPort == p && d.at_ ≤ t && t ≤ beaconLimit s q d
      | none => false)
    || (secp s p).deepDue.isSome
    || (secp s p).dlOpp.any (fun o => o.endTime + tMs 20 ≤ t && t ≤ o.endTime + tMs 100)
    || s.eps.any (fun y => y.2.connPort == p && (y.2.air == .connected || (y.2.air == .opening && y.2.connectSent))
        && t == y.2.connT0 + y.2.evcnt * connIv y.2.connCode)
    || (match s.safe.due with
      | some g => !g.plc && g.port == p && t == g.due
      | none => false)
    || (sectorsOn s p).any (fun q => t == nextBeacon s q s.now)

/-- The interval of an ack decided late begins at the decision, which is now (R85). -/
def lateBlanking (s : State) (p t : Nat) : Bool :=
  (secp s p).acks.any (fun a => a.endTime + tUs 1000 < t + blankLead s p && t ≤ a.endTime + tUs 1000 && s.mono + (t - s.now) == a.decided)

/-- BLANKING_START: the blanking interval of port p begins at engine time t, RF_BLANK_PRE_US before TXEN_N falls for a transmission that may
begin, or at a late ack decision (R85, R86). -/
def blankingStart (p t : Nat) (s : State) : State :=
  if rfUp s p && s.now ≤ t && (rfp s p).blankAt.isNone && (mayStartAt s p (t + blankLead s p) || lateBlanking s p t) then
    let s1 := advTo t s
    blankAll p (monoUs s1) (setRf p (fun x => { x with blankAt := if mayStartAt s p (t + blankLead s p) then some t else none }) s1)
  else s

/-! ### Opcodes (R103, R128) -/

/-- The window's or the active profile. -/
def profileIn (s : State) (src i : Nat) : List (Nat × SubBand) :=
  if src = 0 then tget s.cfg.profiles i [] else tget ((s.cfg.window.map (fun w => w.profiles)).getD []) i []

/-- One 32-byte sub-band entry (Table 05-7). -/
def readSub (p : List Byte) (o : Nat) : SubBand :=
  { fLo := rd p o 4, fHi := rd p (o + 4) 4, duty := rd p (o + 8) 2, maxOnMs := rd p (o + 10) 2, minOffMs := rd p (o + 12) 2,
    lbtReq := bit (rd p (o + 14) 1) 0, immAck := bit (rd p (o + 14) 1) 1, lbtListenUs := rd p (o + 16) 2, lbtThresh := rdI p (o + 18) 2,
    beMin := rd p (o + 20) 1, beMax := rd p (o + 21) 1, nbMax := rd p (o + 22) 1, dwellMaxMs := rd p (o + 24) 2,
    dwellWindowS := rd p (o + 26) 2, txLevel := rdI p (o + 28) 2 }

/-- Its bytes again. -/
def subBytes (x : SubBand) : List Byte :=
  le 4 x.fLo ++ le 4 x.fHi ++ le 2 x.duty ++ le 2 x.maxOnMs ++ le 2 x.minOffMs ++ le 1 (b2n x.lbtReq + 2 * b2n x.immAck) ++ le 1 0
    ++ le 2 x.lbtListenUs ++ leI 2 x.lbtThresh ++ le 1 x.beMin ++ le 1 x.beMax ++ le 1 x.nbMax ++ le 1 0 ++ le 2 x.dwellMaxMs
    ++ le 2 x.dwellWindowS ++ leI 2 x.txLevel ++ le 2 0

/-- Every field of an entry lies in its range, reserved bits and bytes are 0. -/
def subOk (p : List Byte) (o : Nat) : Bool :=
  let x := readSub p o
  x.fLo < x.fHi && 1 ≤ x.duty && x.duty ≤ 10000 && 1 ≤ x.maxOnMs && rd p (o + 14) 1 < 4 && zeroAt p (o + 15) 1 && zeroAt p (o + 23) 1
    && zeroAt p (o + 30) 2 && 128 ≤ x.lbtListenUs && x.lbtListenUs ≤ 5000 && -1500 ≤ x.lbtThresh && x.lbtThresh ≤ -300
    && x.beMin ≤ 8 && x.beMin ≤ x.beMax && x.beMax ≤ 10 && x.nbMax ≤ 15
    && (x.dwellMaxMs == 0 || (1 ≤ x.dwellWindowS && x.dwellWindowS ≤ 3600)) && -300 ≤ x.txLevel && x.txLevel ≤ 300

/-- Two sub-bands of the list overlap. -/
def subsOverlap : List SubBand → Bool
  | [] => false
  | x :: rest => rest.any (fun y => x.fLo < y.fHi && y.fLo < x.fHi) || subsOverlap rest

/-- BAND_PROFILE_SET (R103). -/
def bandProfileSet (r : Req) (s : State) : Reply :=
  let p := r.payload
  let i := rd p 0 1
  let n := rd p 1 1
  let xs := (List.range n).map (fun k => readSub p (4 + 32 * k))
  if 7 < i || 8 < n || !zeroAt p 2 2 || !(List.range n).all (fun k => subOk p (4 + 32 * k)) || subsOverlap xs then refuse s .badParam
  else
    match s.cfg.window with
    | none => refuse s .badState
    | some w =>
      if n = 0 then replyOk s
      else replyOk { s with cfg.window := some { w with profiles := tset w.profiles i ((List.range n).zip xs) } }

/-- BAND_PROFILE_GET. -/
def bandProfileGet (r : Req) (s : State) : Reply :=
  let i := rd r.payload 0 1
  let src := rd r.payload 1 1
  if 7 < i || 1 < src then refuse s .badParam
  else if src = 1 && s.cfg.window.isNone then refuse s .badState
  else
    let xs := profileIn s src i
    replyOk s (le 1 xs.length ++ le 3 0 ++ (xs.map (fun x => subBytes x.2)).flatten)

/-- Port (1), reserved (3). -/
def portField (p : List Byte) : Option Nat := if 7 < rd p 0 1 || !zeroAt p 1 3 then none else some (rd p 0 1)

/-- DUTY_STATUS_GET. -/
def dutyStatusGet (r : Req) (s : State) : Reply :=
  match portField r.payload with
  | none => refuse s .badParam
  | some p =>
    let one := fun (sb : Nat) =>
      if ((profOf s p).getD []).any (fun x => x.1 == sb) then
        le 4 (usedOf s p sb .beacon) ++ le 4 (usedOf s p sb .ack) ++ le 4 (usedOf s p sb .downlink) ++ le 4 (acct s p sb).dwellRefused.toNat
      else le 16 0
    replyOk s (((List.range 8).map one).flatten)

/-- Sector state as SECTOR_STATUS_GET codes it, in the order of Table 05-10. -/
def sectorCode : SectorState → Nat
  | .normal => 0 | .fallback => 1 | .degraded => 2

/-- Endpoints connected on a port. -/
def connections (s : State) (p : Nat) : Nat := (s.eps.filter (fun y => y.2.air == .connected && y.2.connPort == p)).length

/-- SECTOR_STATUS_GET. -/
def sectorStatusGet (r : Req) (s : State) : Reply :=
  match portField r.payload with
  | none => refuse s .badParam
  | some p =>
    let x := secp s p
    let oldest := match x.custody with
      | e :: _ => min e.carry 255
      | [] => 0
    replyOk s (le 1 (sectorCode x.state) ++ le 1 x.misses ++ le 2 0 ++ le 4 x.sent.toNat ++ le 4 x.missed.toNat ++ le 4 x.custody.length
      ++ le 1 oldest ++ le 3 0 ++ le 4 x.acksSent.toNat ++ ((List.range 7).map (fun i => le 4 (tget x.suppr i 0).toNat)).flatten
      ++ le 4 (connections s p) ++ le 8 0)

/-- Endpoints OPENING or CONNECTED (R220). -/
def pinnedCount (s : State) : Nat := (s.eps.filter (fun y => y.2.air == .opening || y.2.air == .connected)).length

/-- A handle word: its reserved bits are 0 (07 R206). -/
def handleWord (p : List Byte) (o : Nat) : Option Nat := if 2 ^ 20 ≤ rd p o 4 then none else some (rd p o 4)

/-- CONNECT_OPEN (R125, R128). -/
def connectOpen (r : Req) (s : State) : Reply :=
  let p := r.payload
  match handleWord p 0 with
  | none => refuse s .badParam
  | some h =>
    let port := rd p 4 1
    let code := rd p 5 1
    let sup := rd p 8 4
    let open_ := rd p 12 4
    let n := (mapChannels (secVal s port 8) (secVal s port 9)).length
    let plc := match ep? s h with
      | some e => e.plc
      | none => false
    if 7 < port || 9 < code || !zeroAt p 6 2 || sup < 3 * 125 * 2 ^ code || 3600000 < sup || open_ = 0 || 86400 < open_ || plc
        || secVal s port 0xA == 0xFF || n < 2 then refuse s .badParam
    else
      match ep? s h with
      | none => refuse s .badState
      | some e =>
        if e.air == .opening || e.air == .connected then refuse s .badState
        else if 8192 ≤ pinnedCount s then refuse s .noResource
        else
          let s1 := updEp h (fun e => { e with air := .opening, connPort := port, connCode := code, connSupervMs := sup,
                                               openDeadline := s.now + tSec open_, connectSent := false, closing := false, update := none,
                                               missed := 0, evcnt := 0 }) s
          replyOk (setSec port (fun x => { x with pendList := x.pendList ++ [(h, s.mono)] }) s1)

/-- CONNECT_CLOSE (R126, R128). -/
def connectClose (r : Req) (s : State) : Reply :=
  match (handleWord r.payload 0).bind (fun h => (ep? s h).map (fun e => (h, e))) with
  | none => refuse s .badParam
  | some (h, e) =>
    if e.air == .opening then replyOk (endConnection h outClosed .tracking s)
    else if e.air == .connected then replyOk (updEp h (fun e => { e with closing := true }) s)
    else refuse s .badState

/-- Air state in the order of Table 05-9. -/
def airCode : AirState → Nat
  | .unseen => 0 | .tracking => 1 | .drifting => 2 | .lost => 3 | .opening => 4 | .connected => 5

/-- Seconds left before the supervision timeout that applies. -/
def supLeft (s : State) (e : Endpoint) : Nat :=
  let left := fun (t : Nat) => (t - s.now) / 2 ^ 24
  match e.air with
  | .connected => left (e.lastGood + tMs e.connSupervMs)
  | .opening => 0xFFFFFFFF
  | .lost => 0xFFFFFFFF
  | _ => if e.supervS = 0 || e.plc then 0xFFFFFFFF else left (e.supFrom + tSec e.supervS)

/-- AIR_STATE_GET. -/
def airStateGet (r : Req) (s : State) : Reply :=
  match (handleWord r.payload 0).bind (fun h => ep? s h) with
  | none => refuse s .badParam
  | some e =>
    replyOk (touch (rd r.payload 0 4) s) (le 1 (airCode e.air) ++ le 1 e.connOutcome ++ le 1 e.connPort ++ le 1 e.connCode ++ le 2 e.evcnt ++ le 2 e.missed
      ++ le 4 (e.lastGood / 2 ^ 24) ++ le 4 (supLeft s e))

/-- The object of a request whose payload begins with a handle. -/
def handleObj (r : Req) (_ : State) : List Obj := [.handle (rd r.payload 0 4)]

def bandProfileSetService : Service := { opcode := 0x0220, lenOk := varLen 4 32 1 1, acc := 3, run := fun _ r s => bandProfileSet r s }

def bandProfileGetService : Service := { opcode := 0x0221, lenOk := lenIs 2, run := fun _ r s => bandProfileGet r s }

def dutyStatusGetService : Service := { opcode := 0x0222, lenOk := lenIs 4, ready := true, run := fun _ r s => dutyStatusGet r s }

def sectorStatusGetService : Service := { opcode := 0x0223, lenOk := lenIs 4, ready := true, run := fun _ r s => sectorStatusGet r s }

def connectOpenService : Service :=
  { opcode := 0x0224, lenOk := lenIs 16, ready := true, objs := handleObj, run := fun _ r s => connectOpen r s }

def connectCloseService : Service := { opcode := 0x0225, lenOk := lenIs 4, objs := handleObj, run := fun _ r s => connectClose r s }

def airStateGetService : Service := { opcode := 0x0226, lenOk := lenIs 4, run := fun _ r s => airStateGet r s }

/-! ### Meanings -/

def execBandProfileSet (r : Req) (s : State) : Host.Outcome State Fault Refusal := .next (serve bandProfileSetService r s)

def execBandProfileGet (r : Req) (s : State) : Host.Outcome State Fault Refusal := .next (serve bandProfileGetService r s)

def execDutyStatusGet (r : Req) (s : State) : Host.Outcome State Fault Refusal := .next (serve dutyStatusGetService r s)

def execSectorStatusGet (r : Req) (s : State) : Host.Outcome State Fault Refusal := .next (serve sectorStatusGetService r s)

def execConnectOpen (r : Req) (s : State) : Host.Outcome State Fault Refusal := .next (serve connectOpenService r s)

def execConnectClose (r : Req) (s : State) : Host.Outcome State Fault Refusal := .next (serve connectCloseService r s)

def execAirStateGet (r : Req) (s : State) : Host.Outcome State Fault Refusal := .next (serve airStateGetService r s)

def execBlankingStart (p t : Nat) (s : State) : Host.Outcome State Fault Refusal := .next (blankingStart p t s)

def execBeaconDue (p b : Nat) (s : State) : Host.Outcome State Fault Refusal := .next (beaconDue p b s)

def execLbtListenEnd (p : Nat) (power : Power) (s : State) : Host.Outcome State Fault Refusal := .next (lbtListenEnd p power s)

def execLbtBackoffEnd (p : Nat) (s : State) : Host.Outcome State Fault Refusal := .next (lbtBackoffEnd p s)

def execBeaconTxStart (p t : Nat) (s : State) : Host.Outcome State Fault Refusal := .next (beaconTx p t s)

def execBeaconMiss (p : Nat) (s : State) : Host.Outcome State Fault Refusal := .next (beaconMiss p s)

def execFallbackRetry (p : Nat) (s : State) : Host.Outcome State Fault Refusal := .next (fallbackRetry p s)

def execDeepBeaconTx (p b : Nat) (s : State) : Host.Outcome State Fault Refusal := .next (deepBeaconTx p b s)

def execLinkAckTx (p lane : Nat) (s : State) : Host.Outcome State Fault Refusal := .next (linkAckTx p lane s)

def execDownlinkTx (p h t : Nat) (s : State) : Host.Outcome State Fault Refusal := .next (downlinkTx p h t s)

def execTransmissionEnd (p t : Nat) (s : State) : Host.Outcome State Fault Refusal := .next (txEnd p t s)

def execChargeExpiry (p sb : Nat) (s : State) : Host.Outcome State Fault Refusal := .next (chargeExpiry p sb s)

def execArrivalWindowClose (h : Nat) (s : State) : Host.Outcome State Fault Refusal := .next (arrivalClose h s)

def execSupervisionTimeout (h : Nat) (s : State) : Host.Outcome State Fault Refusal := .next (supervisionTimeout h s)

def execConnectionEvent (h : Nat) (power : Power) (s : State) : Host.Outcome State Fault Refusal := .next (connectionEvent h power s)

def execConnectReplyTimeout (h : Nat) (s : State) : Host.Outcome State Fault Refusal := .next (replyTimeout h s)

def execOpenTimeout (h : Nat) (s : State) : Host.Outcome State Fault Refusal := .next (openTimeout h s)

def execConnSupervisionExpiry (h : Nat) (s : State) : Host.Outcome State Fault Refusal := .next (connSupervision h s)

end Sys2Proof.Machine
end

