-- ==== Sys2Proof/Machine/PlcLink.lean ====
section
/-! DEFINITION. The power line's arithmetic and its network: tone plans and durations, the link table, costs, paths and routes, calibration
(06 R133 to R139, R162 to R172). -/

namespace Sys2Proof.Machine

/-! ### Tone plans and durations (R133, R135, R138, R139) -/

/-- Used tones T of a band (Table 06-2). -/
def toneCount (band : Nat) : Nat :=
  match band with
  | 0 => 28 | 1 => 13 | 2 => 86 | _ => 64

/-- Symbol and preamble durations, µs. -/
def symUs (band : Nat) : Nat := if band < 2 then 576 else 288
def preambleUs (band : Nat) : Nat := if band < 2 then 3584 else 1792

/-- Coded bits of a Gust or Gale symbol. -/
def bitsPerSym (band mode : Nat) : Nat := toneCount band / (if mode = 1 then 4 else 6)

def ceilDiv (a b : Nat) : Nat := (a + b - 1) / b

/-- Preamble and header (Table 06-4): 76 coded bits in Gale. -/
def headUs (band : Nat) : Nat := preambleUs band + symUs band * ceilDiv 76 (bitsPerSym band 2)

/-- Tone positions of group g (R139). -/
def groupTones (t g : Nat) : Nat := (g + 1) * t / 8 - g * t / 8

/-- Active tones A of a GMASK. -/
def activeTones (band gmask : Nat) : Nat :=
  (((List.range 8).filter (fun g => bit gmask g)).map (groupTones (toneCount band))).sum

/-- Coded bits of Breeze symbol m: b × (A − P_m). -/
def breezeBits (band bmod gmask m : Nat) : Nat :=
  let a := activeTones band gmask
  bmod * (a - ((List.range a).filter (fun k => k % 8 == m % 8)).length)

/-- Breeze symbols that hold so many coded bits, from symbol m on. -/
def breezeSyms (band bmod gmask : Nat) : Nat → Nat → Nat → Nat
  | 0, _, _ => 0
  | fuel + 1, m, left => if left = 0 then 0 else 1 + breezeSyms band bmod gmask fuel (m + 1) (left - breezeBits band bmod gmask m)

/-- Payload symbols of a PSDU of L octets. -/
def payloadSyms (band mode bmod gmask len : Nat) : Nat :=
  let n := 2 * (8 * len + 6)
  if mode = 0 then breezeSyms band bmod gmask n 0 n else ceilDiv n (bitsPerSym band mode)

/-- Duration of a frame, µs. -/
def plcUs (band mode bmod gmask len : Nat) : Nat := headUs band + symUs band * payloadSyms band mode bmod gmask len

/-! ### Ports and groups (R130, R131, R158) -/

/-- A parameter of port q (Table 06-10). -/
def plcVal (s : State) (q o : Nat) : Nat := pval s (pidPlc q o)

/-- The port is enabled and present. -/
def plcEnabled (s : State) (q : Nat) : Bool :=
  q < 16 && plcVal s q 0 == 1 && (plcp s q).state != .absent && (plcp s q).state != .disabled

/-- The capability report lists the port (R50): brought up, its island in service, and not in FAULT (R132, R172). -/
def plcListed (s : State) (q : Nat) : Bool :=
  q < 16 && (plcp s q).present && !isXn7440 s && !islExcluded s (islPlc q) && (plcp s q).state != .fault && 9 ≤ s.boot.stage
    && s.boot.fail == 0

/-- What the capability report counts and that can change: logical lanes, RF ports, PLC ports (R50). -/
def capsNow (s : State) : Nat × List Nat × List Nat :=
  (s.laneCount, (List.range 8).filter (rfListed s), (List.range 16).filter (plcListed s))

/-- Event 0x13 when a count of the capability report has changed since old (R50). -/
def noteCaps (old s : State) : State := raiseIf (capsNow old != capsNow s) 0x13 s

/-- The port can poll: calibrated and not in FAULT. -/
def plcServes (s : State) (q : Nat) : Bool :=
  plcEnabled s q && (plcp s q).state != .fault && (plcp s q).state != .calibrating && islUp s (islPlc q)

/-- Two enabled ports are joined by PLC_COUPLED of one of them. (DEDUCED: log 75) -/
def coupled (s : State) (a b : Nat) : Bool :=
  plcEnabled s a && plcEnabled s b && (bit (plcVal s a 4) b || bit (plcVal s b 4) a)

def growGroup (s : State) : Nat → List Nat → List Nat
  | 0, g => g
  | n + 1, g => growGroup s n ((List.range 16).filter (fun q => g.contains q || g.any (fun x => coupled s x q)))

/-- The port group of a port, ascending (R158). -/
def groupOf (s : State) (q : Nat) : List Nat := growGroup s 16 [q]

/-- A group is known by its lowest port. -/
def groupId (s : State) (q : Nat) : Nat := (groupOf s q).headD q

/-! ### The link table (R162, R164) -/

def sameLink (l m : PlcLink) : Bool := l.port == m.port && l.src == m.src && l.dst == m.dst

def link? (s : State) (q : Nat) (a b : Option Nat) : Option PlcLink :=
  s.plcMac.links.find? (fun l => l.port == q && l.src == a && l.dst == b)

def setLinks (ls : List PlcLink) (s : State) : State := { s with plcMac.links := ls }

def updLink (q : Nat) (a b : Option Nat) (f : PlcLink → PlcLink) (s : State) : State :=
  setLinks (s.plcMac.links.map (fun l => if l.port == q && l.src == a && l.dst == b then f l else l)) s

/-- The incoming links of one receiving node, at most the 8 with the highest LQI: the weakest goes. -/
def trimLinks (q : Nat) (b : Option Nat) (ls : List PlcLink) : List PlcLink :=
  let mine := ls.filter (fun l => l.port == q && l.dst == b)
  if mine.length ≤ 8 then ls
  else
    match mine with
    | [] => ls
    | l :: rest => ls.erase (rest.foldl (fun w l => if l.lqi < w.lqi then l else w) l)

/-- A link enters or is refreshed, with its LQI and, from a slot, the receiver's suggestion (R153, R162, R164). -/
def refreshLink (q : Nat) (a b : Option Nat) (lqi : Nat) (sug : Option (Nat × Nat)) (s : State) : State :=
  match link? s q a b with
  | some _ =>
    updLink q a b (fun l =>
      let l1 := { l with lqi := lqi, refreshed := s.mono }
      match sug with
      | none => l1
      | some g => if g.1 = 0 then { l1 with sug := g } else { l1 with sug := g, bmod := g.1, gmask := g.2 }) s
  | none =>
    let g := sug.getD (0, 0)
    let l : PlcLink := { port := q, src := a, dst := b, lqi := lqi, sug := g, bmod := g.1, gmask := g.2, refreshed := s.mono }
    setLinks (trimLinks q b (s.plcMac.links ++ [l])) s

/-- A node of the port: the engine, or an endpoint attached to it (R164). -/
def nodeOf (s : State) (q : Nat) (n : Option Nat) : Bool :=
  match n with
  | none => true
  | some h => match ep? s h with
    | some e => e.plc && e.port == q
    | none => false

/-- LINK_AGE_EXPIRY: link i has not been refreshed within PLC_LINK_AGE_S (R164). -/
def linkAge (i : Nat) (s : State) : State :=
  match s.plcMac.links[i]? with
  | none => s
  | some l => setLinks (s.plcMac.links.erase l) (advMono (l.refreshed + tSec (pval s 0x300B)) s)

/-! ### Costs and routes (R165 to R167) -/

/-- Nodes of a route, from the engine port (none) to the destination. -/
def routeNodes (relays : List Nat) (h : Nat) : List (Option Nat) := none :: (relays ++ [h]).map some

/-- Hops of a route: joined nodes. -/
def routeHops (relays : List Nat) (h : Nat) : List (Option Nat × Option Nat) :=
  let ns := routeNodes relays h
  ns.zip (ns.drop 1)

/-- Hop directions toward the endpoint, hops 0 to h, then toward the engine, hops 0 to h. -/
def hopsDown (relays : List Nat) (h : Nat) : List (Option Nat × Option Nat) := routeHops relays h
def hopsUp (relays : List Nat) (h : Nat) : List (Option Nat × Option Nat) := (routeHops relays h).map (fun x => (x.2, x.1))

/-- Cost of a directed link (R165). -/
def linkCost (s : State) (l : PlcLink) : Nat :=
  (pFields 2 3 (pval s 0x3002)).getD l.mode 0 + (pval s 0x3004 - l.lqi) / 4 + l.penalty

/-- Cost of a hop: none when a direction is missing. -/
def hopCost (s : State) (q : Nat) (a b : Option Nat) : Option Nat :=
  match link? s q a b, link? s q b a with
  | some x, some y => some (max (linkCost s x) (linkCost s y))
  | _, _ => none

/-- Cost of a route: none when it uses a link that is not in the table. -/
def routeCost (s : State) (q : Nat) (relays : List Nat) (h : Nat) : Option Nat :=
  let cs := (routeHops relays h).map (fun x => hopCost s q x.1 x.2)
  if cs.all (fun c => c.isSome) then some ((cs.map (fun c => c.getD 0)).sum + pval s 0x3003 * (relays.length + 1)) else none

/-- A relay must be PLC-attached on the port, relay-capable and not withdrawn (R164, 07 R184). -/
def relayOk (s : State) (q n : Nat) : Bool :=
  match ep? s n with
  | some e => e.plc && e.port == q && e.relay && e.adm != .retiring
  | none => false

/-- One round of the shortest-path search: each reached node offers its neighbours. Entries: node, cost with hop terms, relays to it. -/
def relaxOnce (s : State) (q : Nat) (t : Tbl (Nat × List Nat)) : Tbl (Nat × List Nat) :=
  let ends := ((s.plcMac.links.filter (fun l => l.port == q)).filterMap (fun l => l.dst)).eraseDups
  let better := fun (acc : Tbl (Nat × List Nat)) (n cost : Nat) (rs : List Nat) =>
    match tfind acc n with
    | some (c, _) => if cost < c then tset acc n (cost, rs) else acc
    | none => tset acc n (cost, rs)
  let fromEngine := ends.foldl (fun acc n => match hopCost s q none (some n) with
    | some c => better acc n (c + pval s 0x3003) []
    | none => acc) t
  t.foldl (fun acc (e : Nat × (Nat × List Nat)) =>
    if relayOk s q e.1 && e.2.2.length < 7 && !e.2.2.contains e.1 then
      ends.foldl (fun acc n => match hopCost s q (some e.1) (some n) with
        | some c => if e.2.2.contains n || n == e.1 then acc else better acc n (e.2.1 + c + pval s 0x3003) (e.2.2 ++ [e.1])
        | none => acc) acc
    else acc) fromEngine

def relax (s : State) (q : Nat) : Nat → Tbl (Nat × List Nat) → Tbl (Nat × List Nat)
  | 0, t => t
  | n + 1, t => relax s q n (relaxOnce s q t)

/-- Least-cost routes of at most 7 relays from a port: node to cost and relays (R167). -/
def routesFrom (s : State) (q : Nat) : Tbl (Nat × List Nat) := relax s q 8 []

/-- Relays of the endpoint's current route: none is DIRECT. -/
def relaysOf (s : State) (e : Endpoint) : List Nat :=
  match e.path with
  | some i => (tget s.plcMac.paths i (0, [])).2
  | none => []

/-- Paths without a referrer are freed (R166). -/
def freePaths (s : State) : State :=
  { s with plcMac.paths := s.plcMac.paths.filter (fun p => s.eps.any (fun e => e.2.path == some p.1)) }

/-- The path's index: the one that holds it, or the lowest free one (R166). -/
def pathIndex (s : State) (q : Nat) (relays : List Nat) : Option Nat :=
  match s.plcMac.paths.find? (fun p => p.2 == (q, relays)) with
  | some p => some p.1
  | none => (List.range 65536).find? (fun i => !thas s.plcMac.paths i)

/-- Give an endpoint a route; false when the table has no free path. -/
def setRoute (h q : Nat) (relays : List Nat) (s : State) : State × Bool :=
  if relays.isEmpty then (freePaths (updEp h (fun e => { e with path := none }) s), true)
  else
    match pathIndex s q relays with
    | none => (s, false)
    | some i =>
      (freePaths (updEp h (fun e => { e with path := some i }) { s with plcMac.paths := tset s.plcMac.paths i (q, relays) }), true)

/-- No free path: event 0x35, once an hour at most (R166). -/
def pathsFull (s : State) : State :=
  let due := match s.plcMac.lastFull with
    | none => true
    | some t => t + tSec 3600 ≤ s.mono
  if due then raise 0x35 { s with plcMac.lastFull := some s.mono } else s

/-- The route through a withdrawn relay cannot be used any more (07 R184). (DEDUCED: log 78) -/
def routeBroken (s : State) (q : Nat) (relays : List Nat) : Bool := relays.any (fun n => !relayOk s q n)

/-- The result of the search for one endpoint (R167). -/
def judgeRoute (h : Nat) (found : Tbl (Nat × List Nat)) (s : State) : State :=
  match ep? s h, tfind found h with
  | some e, some (cost, relays) =>
    let cur := relaysOf s e
    let curCost := if routeBroken s e.port cur then none else routeCost s e.port cur h
    let adopt := match curCost with
      | none => true
      | some c => cost + pval s 0x3007 < c || e.poll == .unreachable
    if e.pinnedRoute || relays == cur || !adopt then s
    else if pval s 0x3006 = 0 then
      match setRoute h e.port relays s with
      | (s1, true) => raise 0x34 s1
      | (s1, false) => pathsFull s1
    else
      let old := s.plcMac.proposals.filter (fun x => x.handle != h)
      if 4096 ≤ old.length then s
      else
        let x : RouteProposal := { handle := h, relays := relays, cost := cost, oldCost := curCost.getD 0xFFFF }
        raise 0x33 { s with plcMac.proposals := old ++ [x] }
  | _, _ => s

/-- A pinned route through a withdrawn relay is unpinned (07 R184). -/
def unpinBroken (h : Nat) (s : State) : State :=
  match ep? s h with
  | some e => if e.plc && routeBroken s e.port (relaysOf s e) then updEp h (fun e => { e with pinnedRoute := false }) s else s
  | none => s

/-- ROUTE_RECALC: every PLC_RECALC_S, every port's search, then every PLC-attached endpoint (R167); pinned routes through a withdrawn relay are
unpinned first. -/
def routeRecalc (s : State) : State :=
  let sr := roundAt s.plcMac.lastRecalc (pval s 0x300A) s
  let s0 := (sr.eps.map (fun y => y.1)).foldl (fun s h => unpinBroken h s) { sr with plcMac.lastRecalc := some sr.mono }
  (List.range 16).foldl (fun s q =>
    if plcEnabled s q then
      let found := routesFrom s q
      ((s.eps.filter (fun y => y.2.plc && y.2.port == q)).map (fun y => y.1)).foldl (fun s h => judgeRoute h found s) s
    else s) s0

/-- The route of one endpoint is computed again (R163, R167). -/
def recalcOne (h : Nat) (s : State) : State :=
  match ep? s h with
  | some e => judgeRoute h (routesFrom s e.port) (unpinBroken h s)
  | none => s

/-! ### Calibration (R172, 17 R451) -/

/-- The port enters CALIBRATING; leaving FAULT raises event 0x31. What is left to measure by command is measured with tones, so LD_EN_N is low
until the result is there (R131). (DEDUCED: log 80) -/
def startCal (q : Nat) (s : State) : State :=
  noteCaps s (raiseIf ((plcp s q).state == .fault) 0x31
    (setPlc q (fun x => { x with state := .calibrating, ldEnN := false, ldFaultN := true, recalWait := false, rx := none }) s))

/-- A port is absent, and its calibration record says so (Table 06-12). -/
def plcGone (x : PlcPort) : PlcPort := { x with state := .absent, present := false, ldEnN := true, cal := { x.cal with status := 4 } }

/-- A port whose offset calibration failed is absent, with the cause in its record (R172, 17 R450). -/
def plcOffsetBad (x : PlcPort) : PlcPort := { x with state := .absent, present := false, ldEnN := true, cal := { x.cal with status := 1 } }

/-- The calibration record of Table 06-12. -/
def calBytes (q : Nat) (c : CalRec) : List Byte :=
  le 1 q ++ le 1 c.status ++ le 1 c.flags ++ le 1 0 ++ leI 2 c.rxOff ++ leI 2 c.txOff ++ leI 2 c.gain
    ++ ((List.range 3).map (fun i => le 2 (c.zMag.getD i 0))).flatten ++ ((List.range 3).map (fun i => leI 2 (c.zPhase.getD i 0))).flatten
    ++ le 2 0 ++ le 8 c.time

/-- The PLC_RECALIBRATE operations of a port. -/
def recalOps (s : State) (q : Nat) : List Nat :=
  (s.ops.filter (fun o => o.opcode == 0x0302 && o.kind == .running && rd o.req.payload 0 1 == q)).map (fun o => o.id)

/-- PLC_CALIBRATION_DONE: the result is judged and recorded (R172). (DEDUCED: log 80) -/
def calDone (q : Nat) (m : CalIn) (s : State) : State :=
  if q < 16 && (plcp s q).state == .calibrating && islUp s (islPlc q) && !(isl s (islPlc q)).bistDue then
    let s1 := advTo m.time s
    let z := m.zMag.getD 1 0
    let status := if m.ldFault then 3 else if m.gain < -4000 || 600 < m.gain then 2 else 0
    let f := fun (x : PlcPort) =>
      { x with state := if status = 0 then .idle else .fault, ldEnN := true, band := plcVal s1 q 1,
               scale := if status = 0 then 10 * plcVal s1 q 3 - m.gain else x.scale,
               cal := { x.cal with status := status, flags := b2n (decide (z < 20)) + 2 * b2n (decide (10000 < z)), gain := m.gain,
                                   zMag := (List.range 3).map (fun i => m.zMag.getD i 0),
                                   zPhase := (List.range 3).map (fun i => m.zPhase.getD i 0), time := m.time } }
    let s2 := noteCaps s (raiseIf (status != 0) 0x31 (setPlc q f s1))
    let ids := recalOps s2 q
    finishOps ids .ok (calBytes q (plcp s2 q).cal) (raiseIf (!ids.isEmpty) 0x37 s2)
  else s

end Sys2Proof.Machine
end

