-- ==== Sys2Proof/Machine/Ofdm.lean ====
section
/-! DEFINITION. The power-line OFDM PHY as bits and phases: tone plan, preamble, header and payload of a frame as sent (06 R133 to R139).
Phases are in units of π / (4 T), so that the preamble's π j² / T is 4 j² and a shift by π is 4 T. -/

namespace Sys2Proof.Machine

/-- First and last used FFT bin of a band (Table 06-2). -/
def toneLo (band : Nat) : Nat :=
  match band with
  | 0 => 19 | 1 => 50 | 2 => 39 | _ => 40

def toneHi (band : Nat) : Nat := toneLo band + toneCount band - 1

/-- Processing rate of a band, samples/s; the FFT has 256 points in each (Table 06-2). -/
def plcRate (band : Nat) : Nat := if band < 2 then 500000 else 1000000

/-- The FFT bin of tone position j (R133). -/
def toneBin (band j : Nat) : Nat := toneLo band + j

/-! ### Preamble (R135) -/

/-- P: tone j at phase π j² / T. -/
def preambleP (band : Nat) : List Nat := (List.range (toneCount band)).map (fun j => 4 * j * j % (8 * toneCount band))

/-- −P. -/
def preambleN (band : Nat) : List Nat := (preambleP band).map (fun x => (x + 4 * toneCount band) % (8 * toneCount band))

/-- Six copies of P, then −P. -/
def preambleSyms (band : Nat) : List (List (Option Nat)) :=
  List.replicate 6 ((preambleP band).map some) ++ [(preambleN band).map some]

/-! ### Coding and interleaving (R138) -/

/-- The bits of octets, each octet's least significant bit first. (DEDUCED: log 161) -/
def octetBits (p : List Byte) : List Bool := (p.map (fun b => (List.range 8).map (fun i => b.getLsbD i))).flatten

/-- Parity of the bits of n that a generator takes. -/
def parity (n g : Nat) : Bool := ((List.range 7).filter (fun i => bit n i && bit g i)).length % 2 == 1

/-- The rate-1/2 code of constraint length 7, generators 0x5B and 0x79; state is the last six bits, the newest on top. (PRESUMED: log 147) -/
def convFrom : Nat → List Bool → List Bool
  | _, [] => []
  | st, b :: bs =>
    let r := 64 * b2n b + st
    parity r 0x5B :: parity r 0x79 :: convFrom (r / 2) bs

def convolve (bits : List Bool) : List Bool := convFrom 0 bits

/-- Sequence bit that position i of symbol s carries in a block whose symbols hold so many bits: positions go round the symbols of the
block (R138). -/
def seqIndex (caps : List Nat) (s i : Nat) : Nat :=
  (caps.map (fun c => min c i)).sum + ((caps.take s).filter (fun c => i < c)).length

/-- One block of at most 8 symbols: the bits of each symbol, 0 where none are left. -/
def blockSyms (caps : List Nat) (bits : List Bool) : List (List Bool) :=
  ((List.range caps.length).zip caps).map (fun x => (List.range x.2).map (fun i => bits.getD (seqIndex caps x.1 i) false))

/-- Coded bits as symbols, in blocks of 8; the last block is as long as its symbols need. -/
def interleave : Nat → List Nat → List Bool → List (List Bool)
  | 0, _, _ => []
  | n + 1, caps, bits =>
    if caps.isEmpty then []
    else
      let b := caps.take 8
      blockSyms b bits ++ interleave n (caps.drop 8) (bits.drop b.sum)

/-! ### Gust and Gale (R138) -/

/-- Coded bits on the tones of a Gust or Gale symbol: r copies, the tones left over carry 0. -/
def repeatBits (band mode : Nat) (bits : List Bool) : List Bool :=
  let c := bitsPerSym band mode
  let r := if mode = 1 then 4 else 6
  (List.range (toneCount band)).map (fun k => decide (k < r * c) && bits.getD (k % c) false)

/-- DBPSK: a coded 1 shifts a tone by π from the symbol before. -/
def dbpsk (band : Nat) : List Nat → List (List Bool) → List (List Nat)
  | _, [] => []
  | prev, x :: xs =>
    let now_ := (prev.zip x).map (fun y => (y.1 + if y.2 then 4 * toneCount band else 0) % (8 * toneCount band))
    now_ :: dbpsk band now_ xs

/-- Symbols of coded bits in Gust or Gale, after a reference symbol. -/
def gustSyms (band mode : Nat) (ref : List Nat) (coded : List Bool) : List (List Nat) :=
  let n := ceilDiv coded.length (bitsPerSym band mode)
  dbpsk band ref ((interleave n (List.replicate n (bitsPerSym band mode)) coded).map (repeatBits band mode))

/-! ### Breeze (R139) -/

/-- The group of tone position j. -/
def groupAt (t j : Nat) : Nat := ((List.range 8).find? (fun g => j < (g + 1) * t / 8)).getD 7

/-- The tones of Breeze symbol m: silent, pilot of phase 0, or b bits Gray-mapped. -/
def breezeTones (band bmod gmask m : Nat) (bits : List Bool) : List (Option Nat) :=
  let t := toneCount band
  let active := (List.range t).filter (fun j => bit gmask (groupAt t j))
  let value := fun (k : Nat) => ((List.range bmod).map (fun i => b2n (bits.getD (bmod * k + i) false) * 2 ^ i)).sum
  (List.range t).map (fun j =>
    if !active.contains j then none
    else
      let a := active.idxOf j
      if a % 8 == m % 8 then some 0
      else
        let k := ((List.range a).filter (fun b => b % 8 != m % 8)).length
        some (Config.pskPoint bmod (value k) % 2 ^ bmod * (8 * t / 2 ^ bmod)))

/-- Capacities of Breeze symbols 0 to n − 1. -/
def breezeCaps (band bmod gmask n : Nat) : List Nat := (List.range n).map (breezeBits band bmod gmask)

def breezePayload (band bmod gmask : Nat) (coded : List Bool) : List (List (Option Nat)) :=
  let n := breezeSyms band bmod gmask coded.length 0 coded.length
  ((List.range n).zip (interleave n (breezeCaps band bmod gmask n) coded)).map (fun x => breezeTones band bmod gmask x.1 x.2)

/-! ### A frame as sent (R135, R136, R138) -/

/-- The 24 header bits (Table 06-3). -/
def headerBits (mode bmod gmask len : Nat) (toEngine : Bool) : BitVec 24 :=
  BitVec.ofNat 24 (mode + (if mode = 0 then 4 * bmod + 16 * gmask else 0) + 2 ^ 12 * len + 2 ^ 21 * b2n toEngine)

/-- One step of the header's CRC-8: the bits enter least significant bit first. -/
def crc8Bit (c : Byte) (b : Bool) : Byte := if c.getMsbD 0 != b then (c <<< 1) ^^^ 0x07 else c <<< 1

def crc8Bits (v : BitVec 24) : Byte := (List.range 24).foldl (fun c i => crc8Bit c (v.getLsbD i)) 0

/-- Header bits, CRC-8 from its highest bit (DEDUCED: log 161), six tail bits. -/
def headerSeq (v : BitVec 24) : List Bool :=
  (List.range 24).map (fun i => v.getLsbD i) ++ (List.range 8).map (fun i => (crc8Bits v).getMsbD i) ++ List.replicate 6 false

/-- Header and payload symbols: the header in Gale after −P, the payload after the last header symbol. -/
def frameSyms (band mode bmod gmask : Nat) (v : BitVec 24) (psdu : List Byte) : List (List (Option Nat)) :=
  let head := gustSyms band 2 (preambleN band) (convolve (headerSeq v))
  let coded := convolve (octetBits psdu ++ List.replicate 6 false)
  let payload := if mode = 0 then breezePayload band bmod gmask coded
    else (gustSyms band mode (head.getLastD (preambleN band)) coded).map (fun x => x.map some)
  head.map (fun x => x.map some) ++ payload

/-- Samples with the cyclic prefix of 32 (R135). -/
def withPrefix (xs : List Int) : List Int := xs.drop (xs.length - 32) ++ xs

/-- The DAC's samples: the preamble without a prefix, the other symbols with one; the transmit DC offset is taken off (R134, R135, R172). -/
def dacSamples (band : Nat) (scale txOff : Int) (pre syms : List (List (Option Nat))) : List Int :=
  ((pre.map (Config.ofdmSamples band scale)).flatten ++ (syms.map (fun x => withPrefix (Config.ofdmSamples band scale x))).flatten).map
    (fun x => x - txOff)

/-- The frame of a PSDU on a port, toward the endpoint. -/
def plcWave (p : PlcPort) (mode bmod gmask : Nat) (psdu : List Byte) : PlcWave :=
  let v := headerBits mode bmod gmask psdu.length false
  let pre := preambleSyms p.band
  let syms := frameSyms p.band mode bmod gmask v psdu
  { psdu := psdu, header := v, preamble := pre, symbols := syms, dac := dacSamples p.band p.scale p.cal.txOff pre syms }

end Sys2Proof.Machine
end

