-- ==== Sys2Proof/Machine/PowerLine.lean ====
section
/-! DEFINITION. The power line at work: transactions and their attempts, frames in reception, line-driver faults, poll states, and the PLC
opcodes (06). -/

namespace Sys2Proof.Machine

/-! ### Transactions in progress (R158) -/

def setRun (x : PlcTxn) (s : State) : State := { s with plcMac.running := tset s.plcMac.running x.port x }

/-- The transaction that holds the port: the one in progress on the group that had the port when it started (R158). -/
def runIn (s : State) (q : Nat) : Option PlcTxn :=
  (s.plcMac.running.find? (fun y => y.1 == q || y.2.group.contains q)).map (fun y => y.2)

/-- The group may start its next transaction at t: no port of it is held, 2 ms after the last, and no port of it is calibrating (R158, R159,
17 R451). -/
def groupFree (s : State) (q t : Nat) : Bool :=
  (groupOf s q).all (fun p => (runIn s p).isNone
    && (plcp s p).state != .calibrating && (plcp s p).state != .transmitting && (match tfind s.plcMac.freeAt p with
      | some u => u + tMs 2 ≤ t
      | none => true))

/-! ### The POLL (R153 to R155) -/

/-- Mode, BMOD and GMASK of a hop direction: Gale where the table has no link (R162, R167). -/
def hopSet (s : State) (q : Nat) (x : Option Nat × Option Nat) : Nat × Nat × Nat :=
  match link? s q x.1 x.2 with
  | some l => (l.mode, l.bmod, l.gmask)
  | none => (2, 0, 0)

/-- Mode, BMOD and GMASK of a hop direction of a transaction. -/
def txnHop (s : State) (x : PlcTxn) (y : Option Nat × Option Nat) : Nat × Nat × Nat := if x.gale then (2, 0, 0) else hopSet s x.port y

/-- The route of the endpoint can be used (R165, R167). -/
def routeUsable (s : State) (h : Nat) (e : Endpoint) : Bool :=
  !routeBroken s e.port (relaysOf s e) && (routeCost s e.port (relaysOf s e) h).isSome

/-- Relays of the next transaction: an endpoint with no usable route is polled DIRECT, in Gale (R167). -/
def pollRelays (s : State) (h : Nat) (e : Endpoint) : List Nat := if routeUsable s h e then relaysOf s e else []

def handle3 (h : Nat) : List Byte := le 3 h

/-- BSET entry of a hop direction in Breeze. -/
def bsetOf (x : Nat × Nat × Nat) : List Byte := if x.1 = 0 then le 2 (x.2.1 + 4 * x.2.2) else []

/-- MODES: two bits a hop direction. -/
def modesWord (down up : List (Nat × Nat × Nat)) : Nat :=
  let pack := fun (xs : List (Nat × Nat × Nat)) => ((List.range xs.length).zip xs).foldl (fun n y => n + y.2.1 * 4 ^ y.1) 0
  pack down + 65536 * pack up

/-- The routing header of a POLL, PFC left out (Table 06-8); NET and RESP_MAX are those of the transaction's start (R158). -/
def pollRouting (s : State) (x : PlcTxn) : List Byte :=
  let down := (hopsDown x.relays x.handle).map (txnHop s x)
  let up := (hopsUp x.relays x.handle).map (txnHop s x)
  le 1 x.relays.length ++ le 2 x.pseq ++ le 2 x.net ++ handle3 x.handle ++ (x.relays.map handle3).flatten
    ++ le 4 (modesWord down up) ++ (down.map bsetOf).flatten ++ (up.reverse.map bsetOf).flatten
    ++ List.replicate (3 * (x.relays.length + 1)) 0 ++ le 2 x.respMax

/-- PFC of a POLL: TYPE 0, VERSION 1, and SEC 1, which the manual leaves to the sender. (DESIGN CHOICE: log 150) -/
def pollPfc : List Byte := [0x18]

/-- Type octet of a power-line nonce (R154). -/
def plcTypeOctet (typ : Nat) (toEngine : Bool) : List Byte := le 1 (typ + 64 + if toEngine then 0 else 128)

/-- ADDR, CNT, encrypted payload and MIC (R154). -/
def securedPart (addr : DWord) (key : List Byte) (dcnt : Nat) (payload : List Byte) : List Byte :=
  let a := le 8 addr.toNat
  a ++ le 4 dcnt ++ slice (Config.ccmSeal key (a ++ le 4 dcnt ++ plcTypeOctet 0 false) (pollPfc ++ a ++ le 4 dcnt) payload) 0 (payload.length + 8)

/-- The PSDU with its FCS (R153). -/
def pollFrame (s : State) (x : PlcTxn) : List Byte :=
  let p := pollPfc ++ pollRouting s x ++ x.secured
  p ++ le 4 (crc32 p).toNat

/-- Octets of a POLL apart from its payload. -/
def pollOverhead (s : State) (x : PlcTxn) : Nat := 1 + (pollRouting s x).length + 12 + 8 + 4

/-- POLL payload: KIND, CUST, DL (R155). (DEDUCED: log 77) -/
def pollPayload (kind : Nat) (custody : List Nat) (dl : List Byte) : List Byte :=
  le 1 kind ++ (if custody.isEmpty then [] else le 1 custody.length ++ (custody.map (le 2)).flatten) ++ dl

/-- How many custody entries fit beside n octets of content: 16, within the 400 octets of a PSDU. -/
def custodyFit (s : State) (x : PlcTxn) (n : Nat) : Nat := min 16 ((400 - (pollOverhead s x + 2 + n)) / 2)

/-! ### Durations of an attempt (R159) -/

def hopUs (s : State) (x : PlcTxn) (y : Option Nat × Option Nat) (len : Nat) : Nat :=
  let m := txnHop s x y
  plcUs (plcp s x.port).band m.1 m.2.1 m.2.2 len

/-- D − t_p, µs. -/
def deadlineUs (s : State) (x : PlcTxn) (len : Nat) : Nat :=
  let down := ((hopsDown x.relays x.handle).drop 1).map (fun y => hopUs s x y len)
  let up := ((hopsUp x.relays x.handle).drop 1).map (fun y => hopUs s x y x.respMax)
  down.sum + up.sum + (2 * x.relays.length + 1) * 2100 + 1000

/-- From the fall of LD_EN_N to the first DAC sample, µs (Table 06-1). -/
def ldLeadUs : Nat := 50

/-- The attempt's POLL starts now: LD_EN_N falls, the first sample follows, t_p and D are known (R131, R159). -/
def plcTransmit (x : PlcTxn) (s : State) : State :=
  let frame := pollFrame s x
  let m := txnHop s x (none, (hopsDown x.relays x.handle).head?.bind (fun y => y.2))
  let tp := s.now + tUs (ldLeadUs + plcUs (plcp s x.port).band m.1 m.2.1 m.2.2 frame.length)
  let y := { x with inAttempt := true, ldRetry := false, gate := false, judging := false, pollEnd := tp,
                    deadline := tp + tUs (deadlineUs s x frame.length) }
  let s1 := setPlc x.port (fun p => { p with state := .transmitting, ldEnN := false, polls := p.polls + 1 }) s
  setRun y { s1 with out := .plc x.port m.1 (plcWave (plcp s x.port) m.1 m.2.1 m.2.2 frame) :: s1.out }

/-- PLC_TRANSMIT_END: 20 µs after the last sample LD_EN_N rises and the port listens; the custody entries have been sent (R131, 05 R107). -/
def plcTransmitEnd (q : Nat) (s : State) : State :=
  match tfind s.plcMac.running q with
  | none => s
  | some x =>
    if (plcp s q).state != .transmitting then s
    else
      let s1 := setPlc q (fun p => { p with state := .listening, ldEnN := true }) (advTo (x.pollEnd + tUs 20) s)
      noteEp x.handle (fun e => { e with plcCustody := e.plcCustody.filter (fun f => !x.custody.contains f) }) s1

/-! ### The queue (R160, 12 R341) -/

/-- The endpoint's key is there to poll it with. -/
def pollable (s : State) (h : Nat) : Bool :=
  match ep? s h, tfind s.blobs h with
  | some e, some b => e.plc && !e.blobLost && blobLive s b && plcServes s e.port
  | _, _ => false

/-- A queued transaction may start: not a read of an endpoint in RESTORING or without its image, nor custody while none goes out, nor one
of an UNREACHABLE endpoint but its retry (R163, 02 R29, 07 R182, 08 R230). (DEDUCED: log 76) -/
def mayStart (s : State) (x : PlcTxn) : Bool :=
  pollable s x.handle && (match ep? s x.handle with
    | some e => (e.adm != .retiring || x.kind == 4) && !(bit x.kind 0 && (e.adm == .restoring || e.imgLost)) && !(x.kind == 4 && s.jnl.noCustody) && (e.poll != .unreachable || x.rank == 3)
    | none => false)

/-- The transaction that the endpoint's next campaign step would be (R160, 12 R341). -/
def dlTxn (s : State) (h : Nat) (e : Endpoint) : Option PlcTxn :=
  (bestStep s h).map (fun z =>
    { id := 0, handle := h, port := e.port, kind := 8, rank := if z.2.1.kind = kindSwitch then 1 else 2, due := z.2.2.since,
      camp := some z.1 })

/-- Everything that waits on the group: queued transactions, then campaign steps. -/
def waitingOn (s : State) (q : Nat) : List PlcTxn :=
  let g := groupOf s q
  let queued := s.plcMac.queue.filter (fun x => g.contains x.port)
  let steps := s.eps.filterMap (fun y => if y.2.plc && g.contains y.2.port then dlTxn s y.1 y.2 else none)
  (queued ++ steps).filter (mayStart s)

def isCampaign (x : PlcTxn) : Bool := x.camp.isSome && x.rank == 2

/-- Campaigns have had their share of the last rank-2 starts while custody waits (12 R341). -/
def shareSpent (s : State) (q : Nat) : Bool :=
  64 * pval s 0x7004 < 1000 * ((((tget s.plcMac.share (groupId s q) []).take 63).filter id).length + 1)

/-- The transaction that starts next on the group (R160). -/
def nextTxn (s : State) (q : Nat) : Option PlcTxn :=
  let xs := waitingOn s q
  let held := xs.any (fun x => x.rank == 2 && x.camp.isNone) && shareSpent s q
  let ys := if held then xs.filter (fun x => !isCampaign x) else xs
  (sortBy (fun (a b : PlcTxn) => pairLess (a.rank, a.due) (b.rank, b.due)) ys).head?

/-- Queue a transaction. -/
def enqueue (h q kind rank : Nat) (s : State) : State :=
  let x : PlcTxn := { id := s.plcMac.txnId, handle := h, port := q, kind := kind, rank := rank, due := s.mono }
  { s with plcMac.queue := s.plcMac.queue ++ [x], plcMac.txnId := s.plcMac.txnId + 1 }

/-- A transaction of that kind and rank waits for the endpoint already. -/
def queuedFor (s : State) (h kind rank : Nat) : Bool :=
  s.plcMac.queue.any (fun x => x.handle == h && x.kind == kind && x.rank == rank && !s.plcMac.pollNow.any (fun y => y.1 == x.id))

/-- The rank-2 starts of the group remember this one. -/
def noteShare (x : PlcTxn) (s : State) : State :=
  if x.rank = 2 then
    { s with plcMac.share := tupd s.plcMac.share (groupId s x.port) [] (fun l => (isCampaign x :: l).take 64) }
  else s

/-- What the POLL takes along leaves the queue: the transaction itself, and a CUST or NBR transaction it makes needless (R160). -/
def unqueue (x : PlcTxn) (cust nbr : Bool) (s : State) : State :=
  let asked := fun (y : PlcTxn) => s.plcMac.pollNow.any (fun z => z.1 == y.id)
  { s with plcMac.queue := s.plcMac.queue.filter (fun y =>
      !((y.id == x.id && x.camp.isNone) || (y.handle == x.handle && !asked y && ((cust && y.kind == 4) || (nbr && y.kind == 2 && y.rank == 4))))) }

/-! ### Attempts (R158, R159) -/

/-- The step that a transaction carries. -/
def txnStep (s : State) (x : PlcTxn) : Option (Nat × Camp × Target) :=
  x.camp.bind (fun c => (camp? s c).bind (fun y => (tgt? s c x.handle).map (fun t => (c, y, t))))

/-- A SWITCH step's attempt is put before the transmit gate, due now; the transaction waits for it (R160, 19 R474). -/
def gateAttempt (x : PlcTxn) (e : Endpoint) (c : Nat) (t : Target) (kind : Nat) (s : State) : State :=
  let s1 := prepareGate c x.handle t s.now (if x.attempt = 0 then none else some x.dcnt)
    (fun g => { g with plc := true, port := x.port, custody := x.custody })
    (fun key dcnt cmd => securedPart e.addr key dcnt (pollPayload kind x.custody cmd)) s
  match s1.safe.due with
  | some g =>
    if g.plc && g.port = x.port && g.handle = x.handle && g.due = s.now && !gateTaken s then
      setRun { x with dcnt := g.dcnt, secured := g.frameA, gate := true, inAttempt := false } s1
    else s1
  | none => s1

/-- The chosen transaction starts: PSEQ, DCNT, route, content, then its first attempt (R155, R158, R160). -/
def startTxn (x : PlcTxn) (s : State) : State :=
  match ep? s x.handle with
  | none => s
  | some e =>
    let pseq := (s.plcMac.pseq + 1) % 65536
    let relays := pollRelays s x.handle e
    let x1 := { x with pseq := pseq, relays := relays, gale := !routeUsable s x.handle e, group := groupOf s x.port, net := plcVal s x.port 2,
                       respMax := plcVal s x.port 5 }
    let nbr := e.nbrDue || bit x.kind 1
    let step := txnStep s x1
    let dlLen := match step with
      | some z => cmdLen z.2.1 z.2.2
      | none => 0
    let custody := if s.jnl.noCustody then [] else e.plcCustody.take (custodyFit s x1 dlLen)
    let kind := b2n (bit x.kind 0) + 2 * b2n nbr + 4 * b2n (!custody.isEmpty) + 8 * b2n step.isSome
    let x2 := { x1 with kind := kind, custody := custody }
    let take := fun (s : State) =>
      noteShare x (updEp x.handle (fun e => { e with nbrDue := false }) (unqueue x (!custody.isEmpty) nbr { s with plcMac.pseq := pseq }))
    match step with
    | some (c, y, t) =>
      if y.kind = kindSwitch then
        let s1 := gateAttempt x2 e c t kind s
        if (runIn s1 x.port).isSome then take s1 else s1
      else
        match dlKey x.handle s with
        | (s1, none) => s1
        | (s1, some key) =>
          let (s2, dcnt) := nextDcnt x.handle s1
          let sec := securedPart e.addr key dcnt (pollPayload kind custody (stepCmd s2 c y t))
          plcTransmit { x2 with dcnt := dcnt, secured := sec, attempt := 1 } (markSent c x.handle dcnt (take s2))
    | none =>
      match dlKey x.handle s with
      | (s1, none) => s1
      | (s1, some key) =>
        let (s2, dcnt) := nextDcnt x.handle s1
        let sec := securedPart e.addr key dcnt (pollPayload kind custody [])
        plcTransmit { x2 with dcnt := dcnt, secured := sec, attempt := 1 } (take s2)

/-- TRANSACTION_START: the group's next transaction starts at t (R158 to R160). -/
def transactionStart (q t : Nat) (s : State) : State :=
  if !s.cfg.everCommitted || t < s.now || !groupFree s q t then s
  else
    match nextTxn s q with
    | none => s
    | some x => startTxn x (advTo t s)

/-! ### Success and failure (R161 to R163) -/

/-- Escalate a hop direction: a mode step, penalty, and its run starts again. -/
def escalate (q : Nat) (x : Option Nat × Option Nat) (s : State) : State :=
  match link? s q x.1 x.2 with
  | none => s
  | some l =>
    let s1 := updLink q x.1 x.2 (fun l => { l with mode := min 2 (l.mode + 1), run := 0, penalty := l.penalty + pval s 0x3005 }) s
    if l.mode < 2 then setPlc q (fun p => { p with escal := p.escal + 1 }) s1 else s1

/-- Why an attempt failed. -/
inductive PlcCause where
  | badFrame | noFrame | portFault
  deriving DecidableEq, Repr

/-- Hop directions that the cause names (R161). -/
def namedHops (s : State) (x : PlcTxn) (cause : PlcCause) : List (Option Nat × Option Nat) :=
  match cause with
  | .badFrame => (hopsUp x.relays x.handle).take 1
  | .noFrame =>
    let all := hopsDown x.relays x.handle ++ hopsUp x.relays x.handle
    let modes := all.map (fun y => (txnHop s x y).1)
    let least := modes.foldl min 2
    all.filter (fun y => (txnHop s x y).1 == least)
  | .portFault => []

/-- The campaign wait of a PLC attempt ends with its transaction (12 R326). (DEDUCED: log 82) -/
def plcWaitEnd (h : Nat) (s : State) : State :=
  ((s.camps.filter (fun y => y.2.targets.any (fun t => t.handle == h && t.state == .sent))).map (fun y => y.1)).foldl (fun s c => waitEnd c h s) s

/-- The final response of PLC_POLL_NOW: outcome and attempts (R170). -/
def answerPollNow (x : PlcTxn) (ok : Bool) (s : State) : State :=
  let ids := (s.plcMac.pollNow.filter (fun y => y.1 == x.id && x.camp.isNone)).map (fun y => y.2)
  finishOps ids .ok (le 1 (b2n (!ok)) ++ le 1 x.attempt ++ le 2 0)
    { s with plcMac.pollNow := s.plcMac.pollNow.filter (fun y => !(y.1 == x.id && x.camp.isNone)) }

/-- A port that waits to be calibrated again enters CALIBRATING once its group is free (R170). -/
def startRecals (q : Nat) (s : State) : State :=
  (groupOf s q).foldl (fun s p => if (plcp s p).recalWait && (runIn s p).isNone then startCal p s else s) s

/-- Trailer 0 (Table 06-7); a mean of no symbols has no stated value (log 9). -/
def plcTrailer (status : Nat) (rx : PlcRx) (s : State) : DWord × State :=
  let (a, s1) := fresh s
  let (b, s2) := fresh s1
  let mean := fun (sum : Int) (n free : Nat) => if n = 0 then free % 65536 else ofLe (leI 2 (sum / n))
  let w := status + 16 * b2n rx.step + 64 * b2n rx.doomed + 2 ^ 8 * min 255 rx.erased + 2 ^ 16 * min 65535 (rx.firstErased.getD 0xFFFF)
    + 2 ^ 32 * mean rx.befSum rx.befCnt a + 2 ^ 48 * mean rx.aftSum rx.aftCnt b
  (BitVec.ofNat 64 w, s2)

/-- Push both trailers; the second carries END and trailer 0's bits [15:0] as code. -/
def pushPlcTrailers (q : Nat) (t0 t1 : DWord) (s : State) : State :=
  let thr := cutThrough s (256 + q)
  setPlc q (fun p => { p with rx := none, queue := qPut thr t1 true (t0.setWidth 16) (qPut thr t0 false 0 p.queue) }) s

/-- The line-driver or a commit ends a frame in reception: the words so far and the trailers, with PORT_FAULT (R151, R169). A frame whose trailers
are owed already keeps owing them. -/
def endRx (q : Nat) (s : State) : State :=
  match (plcp s q).rx with
  | none => s
  | some rx =>
    if rx.overflow || !trailerRoom (plcp s q).queue then setPlc q (fun p => { p with rx := some { rx with overflow := true, ended := true } }) s
    else
      let (t0, s1) := plcTrailer 4 rx s
      pushPlcTrailers q t0 (BitVec.ofNat 64 s1.now) s1

/-- The port stops sending or listening for a transaction. -/
def quietPort (q : Nat) (s : State) : State :=
  endRx q (setPlc q (fun p => match p.state with
    | .transmitting => { p with state := .idle, ldEnN := true }
    | .listening => { p with state := .idle }
    | _ => p) s)

/-- The transaction leaves its port. -/
def leavePort (x : PlcTxn) (s : State) : State :=
  let s1 := quietPort x.port s
  { s1 with plcMac.running := tdel s1.plcMac.running x.port, plcMac.freeAt := tset s1.plcMac.freeAt x.port s1.now }

/-- A failed transaction moves the poll state (Table 06-9); the next read falls due one report period, or the retry interval, later.
(DEDUCED: log 79) -/
def pollFailed (x : PlcTxn) (s : State) : State :=
  match ep? s x.handle with
  | none => s
  | some e =>
    let n := e.pollFails + 1
    let again := s.now + tSec (if e.poll == .unreachable || pval s 0x3008 ≤ n then pval s 0x3009 else e.reportIn)
    if e.poll == .unreachable then updEp x.handle (fun e => { e with nextRead := again }) s
    else if pval s 0x3008 ≤ n then
      recalcOne x.handle (raise 0x32 (updEp x.handle (fun e => { e with poll := .unreachable, pollFails := n, nextRead := again }) s))
    else updEp x.handle (fun e => { e with poll := .suspect, pollFails := n, nextRead := if bit x.kind 0 then again else e.nextRead }) s

/-- A transaction has failed (R163). -/
def txnFailed (x : PlcTxn) (s : State) : State :=
  let s1 := answerPollNow x false (leavePort x s)
  startRecals x.port (plcWaitEnd x.handle (pollFailed x s1))

/-- An attempt has failed: escalation, then the next attempt or the end (R158, R161). -/
def attemptFailed (x : PlcTxn) (cause : PlcCause) (s : State) : State :=
  let s1 := (namedHops s x cause).foldl (fun s y => escalate x.port y s) s
  if x.attempt < 4 then
    let s2 := quietPort x.port s1
    setRun { x with inAttempt := false, judging := false, nextAt := s2.mono + tMs (pval s2 0x3001) } s2
  else txnFailed x s1

/-- The next attempt of a transaction, of which only MODES, BSET and SLOTS may differ (R158); a SWITCH step passes the gate anew. -/
def nextAttempt (x : PlcTxn) (s : State) : State :=
  match txnStep s x, ep? s x.handle with
  | some (c, y, t), some e =>
    if y.kind = kindSwitch then gateAttempt x e c t x.kind s else plcTransmit x s
  | _, _ => plcTransmit x s

/-- RETRY_GAP_EXPIRY: the next attempt starts with the new modes (R161). -/
def retryGap (q : Nat) (s : State) : State :=
  match runIn s q with
  | none => s
  | some x =>
    if x.inAttempt || x.ldRetry || x.gate || x.attempt = 0 || !plcServes s x.port then s
    else nextAttempt { x with attempt := x.attempt + 1 } (advMono x.nextAt s)

/-- POLL_DEADLINE: D passes with no frame in reception (R159, R161). -/
def pollDeadline (q : Nat) (s : State) : State :=
  match runIn s q with
  | none => s
  | some x =>
    if x.inAttempt && !x.judging && (plcp s x.port).state == .listening && (plcp s x.port).rx.isNone then
      attemptFailed x .noFrame (setPlc x.port (fun p => { p with deadlines := p.deadlines + 1 }) (advTo x.deadline s))
    else s

/-- A success run of 32 steps the hop direction back one mode (R162). -/
def runOf (l : PlcLink) : PlcLink :=
  let n := l.run + 1
  if n < 32 || l.mode = 0 then { l with run := min n 32, penalty := l.penalty - 1 }
  else if l.mode = 1 && l.sug.1 = 0 then { l with run := 32, penalty := l.penalty - 1 }
  else if l.mode = 1 then { l with mode := 0, bmod := l.sug.1, gmask := l.sug.2, run := 0, penalty := l.penalty - 1 }
  else { l with mode := 1, run := 0, penalty := l.penalty - 1 }

/-- A link-report slot: LQI, BMOD, GMASK, erased symbols (R153). -/
def readSlot (p : List Byte) (o : Nat) : Nat × (Nat × Nat) :=
  let v := rd p o 3
  (bits v 7 0, (bits v 9 8, bits v 17 10))

/-- Slots of a RESPONSE enter the link table; the engine itself fills the slot of hop 0 toward the engine (R153, R164). -/
def takeSlots (x : PlcTxn) (slots : List Byte) (s : State) : State :=
  let dirs := hopsDown x.relays x.handle ++ hopsUp x.relays x.handle
  let n := x.relays.length + 1
  ((List.range (2 * n)).zip dirs).foldl (fun s y =>
    let (lqi, sug) := if y.1 = n then (let r := (plcp s x.port).report; (r.1, (r.2.1, r.2.2.1))) else readSlot slots (3 * y.1)
    refreshLink x.port y.2.1 y.2.2 lqi (some sug) s) s

/-- The attempt's GOOD RESPONSE has come: the transaction succeeds (R159, R162, R163). -/
def txnGood (x : PlcTxn) (slots : List Byte) (endTime : Nat) (s : State) : State :=
  let s1 := takeSlots x slots (setPlc x.port (fun p => { p with good := p.good + 1 }) s)
  let s2 := (hopsDown x.relays x.handle ++ hopsUp x.relays x.handle).foldl (fun s y => updLink x.port y.1 y.2 runOf s) s1
  let s3 := updEp x.handle (fun e =>
    { e with poll := .reachable, pollFails := 0, lastGood := endTime, reportIn := if bit x.kind 0 then e.reportS else e.reportIn,
             nextRead := if bit x.kind 0 || e.poll == .unreachable then endTime + tSec e.reportS else e.nextRead }) s2
  startRecals x.port (answerPollNow x true (leavePort x s3))

/-- A neighbour report of a RESPONSE: links into the endpoint, from nodes of its port (R155, R164). -/
def takeNbr (q h : Nat) (entries : List Nat) (s : State) : State :=
  entries.foldl (fun s v =>
    let src := if bit v 23 then none else some (v % 2 ^ 20)
    if nodeOf s q src then refreshLink q src (some h) (bits v 31 24) none s else s) s

/-- The frame is not the answer awaited: listening continues until D (R159). -/
def notTheAnswer (q : Nat) (s : State) : State :=
  match tfind s.plcMac.running q with
  | some x => if x.judging then setRun { x with judging := false } s else s
  | none => s

/-! ### Line-driver faults (R132) -/

/-- Every transaction queued on a port ends with PORT_FAULT. -/
def dropQueued (q : Nat) (s : State) : State :=
  let mine := s.plcMac.queue.filter (fun x => x.port == q)
  mine.foldl (fun s x => answerPollNow x false s) { s with plcMac.queue := s.plcMac.queue.filter (fun x => x.port != q) }

/-- The transaction in progress on a port, and every one queued on it, end with PORT_FAULT. -/
def endPortTxns (q : Nat) (s : State) : State :=
  dropQueued q (match tfind s.plcMac.running q with
    | some x => txnFailed x s
    | none => s)

/-- LD_FAULT: LD_FAULT_N has read low for 2 µs while LD_EN_N was low. -/
def ldFault (q t : Nat) (s : State) : State :=
  if !(q < 16) || (plcp s q).state != .transmitting then s
  else
    let s0 := advTo t s
    let recent := s0.mono :: (plcp s0 q).faults.filter (fun u => s0.mono < u + tSec 60)
    let s1 := raise 0x30 (setPlc q (fun p => { p with state := .idle, ldEnN := true, ldFaultN := false, ldFaults := p.ldFaults + 1,
                                                      faults := recent.take 3 }) s0)
    let x? := tfind s1.plcMac.running q
    if 3 ≤ recent.length then
      let s2 := noteCaps s1 (raise 0x31 (setPlc q (fun p => { p with state := .fault }) s1))
      endPortTxns q s2
    else
      match x? with
      | some x => setRun { x with inAttempt := false, ldRetry := true, nextAt := s1.mono + tSec 1 } s1
      | none => s1

/-- LD_FAULT_RETRY: 1 s later the attempt is made again. -/
def ldFaultRetry (q : Nat) (s : State) : State :=
  match tfind s.plcMac.running q with
  | none => s
  | some x =>
    if x.ldRetry && plcServes s q then
      nextAttempt { x with ldRetry := false } (setPlc q (fun p => { p with ldFaultN := true }) (advMono x.nextAt s))
    else s

/-! ### Reception (R136, R137, R140 to R142, R150, R151) -/

/-- A header that R137 rejects. -/
def headerBad (v : BitVec 24) (crc : Byte) : Bool :=
  let n := v.toNat
  let mode := bits n 1 0
  let len := bits n 20 12
  crc8Bits v != crc || mode == 3 || len < 24 || 400 < len || (mode != 0 && (bits n 3 2 != 0 || bits n 11 4 != 0))
    || (mode == 0 && (bits n 3 2 == 0 || ((List.range 8).filter (fun g => bit (bits n 11 4) g)).length < 2))

/-- The header word (Table 06-7). -/
def plcHeaderWord (q : Nat) (v : BitVec 24) (snr : Int) : DWord :=
  let n := v.toNat
  BitVec.ofNat 64 (q + 2 ^ 4 * bits n 1 0 + 2 ^ 6 * bits n 3 2 + 2 ^ 8 * bits n 11 4 + 2 ^ 16 * bits n 20 12 + 2 ^ 25 * bits n 21 21
    + 2 ^ 32 * ofLe (leI 2 snr))

/-- The port's receive path is on (R131). -/
def plcHears (s : State) (q : Nat) : Bool :=
  q < 16 && ((plcp s q).state == .idle || (plcp s q).state == .listening) && islUp s (islPlc q)

/-- The frame begins inside the listening window of the attempt on this port (R150, R159). -/
def inListening (s : State) (q at_ : Nat) : Bool :=
  match tfind s.plcMac.running q with
  | some x => (plcp s q).state == .listening && x.inAttempt && at_ ≤ x.deadline
  | none => false

def rxQueue (s : State) (q : Nat) (word : DWord) (last : Bool) (code : BitVec 16) : Option FtQueue :=
  qPush (cutThrough s (256 + q)) word last code (plcp s q).queue

/-- PLC_HEADER_DECODE. -/
def plcHeader (q : Nat) (hdr : PlcHdrIn) (s : State) : State :=
  if !plcHears s q || (plcp s q).rx.isSome then s
  else if headerBad hdr.bits hdr.crc then setPlc q (fun p => { p with hdrErr := p.hdrErr + 1 }) s
  else if !inListening s q hdr.at_ then setPlc q (fun p => { p with stray := p.stray + 1 }) s
  else
    let s1 := advTo hdr.at_ s
    let n := hdr.bits.toNat
    let rx : PlcRx := { mode := bits n 1 0, hdrSnr := hdr.snr, len := bits n 20 12, left := bits n 20 12 - 4 }
    match rxQueue s1 q (plcHeaderWord q hdr.bits hdr.snr) false 0 with
    | some fq => setPlc q (fun p => { p with rx := some rx, queue := fq }) s1
    | none => setPlc q (fun p => { p with rx := some { rx with overflow := true } }) s1

/-- Push the whole words that the buffered octets fill; flush pushes a last, zero-padded one. -/
def pushOctets (thr : Nat) (flush : Bool) : Nat → List Byte → FtQueue → List Byte × Option FtQueue
  | 0, buf, fq => (buf, some fq)
  | n + 1, buf, fq =>
    if 8 ≤ buf.length || (flush && !buf.isEmpty) then
      match qPush thr (BitVec.ofNat 64 (ofLe (buf.take 8))) false 0 fq with
      | some fq1 => pushOctets thr flush n (buf.drop 8) fq1
      | none => (buf, none)
    else (buf, some fq)

/-- Decoded octets enter the packet (R150, R151). -/
def rxOctets (q : Nat) (octets : List Byte) (flush : Bool) (s : State) : State :=
  match (plcp s q).rx with
  | none => s
  | some rx =>
    if rx.overflow || rx.doomed then s
    else
      let new_ := octets.take rx.left
      let buf := rx.buf ++ new_
      let rx1 := { rx with left := rx.left - new_.length, got := rx.got ++ octets }
      match pushOctets (cutThrough s (256 + q)) flush (buf.length / 8 + 1) buf (plcp s q).queue with
      | (rest, some fq) => setPlc q (fun p => { p with rx := some { rx1 with buf := rest }, queue := fq }) s
      | (rest, none) => setPlc q (fun p => { p with rx := some { rx1 with buf := rest, overflow := true } }) s

/-- Erasures that a mode tolerates (R142). -/
def allowance (mode : Nat) : Nat :=
  match mode with
  | 0 => 2 | 1 => 8 | _ => 16

/-- More than 10 dB below the mean of the unerased symbols before it, the header mean for the first; or clipped (R140). -/
def symErased (rx : PlcRx) (snr : Int) (clipPm : Nat) : Bool :=
  20 < clipPm || (if rx.snrCnt = 0 then snr < rx.hdrSnr - 100 else snr * rx.snrCnt + 100 * rx.snrCnt < rx.snrSum)

/-- 3 dB or more away from the mean before the run (R141). -/
def isStep (rx : PlcRx) (snr : Int) : Bool :=
  let n : Int := if rx.snrCnt = 0 then 1 else rx.snrCnt
  let sum := if rx.snrCnt = 0 then rx.hdrSnr else rx.snrSum
  rx.runOpen && (30 * n ≤ snr * n - sum || 30 * n ≤ sum - snr * n)

/-- n more symbols count as erased, the first of them symbol i. -/
def markErased (i n : Nat) (rx : PlcRx) : PlcRx :=
  { rx with erased := rx.erased + n, firstErased := some (rx.firstErased.getD i), aftSum := 0, aftCnt := 0 }

/-- An unerased symbol enters the means. -/
def keepSymbol (snr : Int) (rx : PlcRx) : PlcRx :=
  let r1 := { rx with snrSum := rx.snrSum + snr, snrCnt := rx.snrCnt + 1, runOpen := false }
  if rx.firstErased.isNone then { r1 with befSum := rx.befSum + snr, befCnt := rx.befCnt + 1 }
  else { r1 with aftSum := rx.aftSum + snr, aftCnt := rx.aftCnt + 1 }

/-- One payload symbol judged (R140, R141). -/
def judgeSymbol (snr : Int) (clipPm : Nat) (rx : PlcRx) : PlcRx :=
  let r := { rx with symNo := rx.symNo + 1 }
  if 0 < rx.preMark then { r with preMark := rx.preMark - 1 }
  else if symErased rx snr clipPm then { markErased rx.symNo 1 r with runOpen := true }
  else if isStep rx snr then
    if rx.mode = 0 then { markErased (rx.symNo + 1) 8 (keepSymbol snr r) with step := true, preMark := 8 }
    else { markErased rx.symNo 1 r with step := true, runOpen := false }
  else keepSymbol snr r

/-- A judged symbol's soft bits: zeros when it is erased, which is when its SNR did not enter the means (R140). -/
def takeSoft (soft : List Int) (before after : PlcRx) : PlcRx :=
  { after with soft := after.soft ++ [if after.snrCnt = before.snrCnt then soft.map (fun _ => 0) else soft] }

/-- The next octets from the decoder, n of them at most, FCS included (R138, R140). -/
def decoded (rx : PlcRx) (n : Nat) : List Byte :=
  (List.range (min n (rx.len - rx.got.length))).map (fun i => Config.plcDecode rx.soft (rx.got.length + i))

/-- PLC_SYMBOL_RECEIVE. -/
def plcSymbol (q : Nat) (sym : PlcSymIn) (s : State) : State :=
  match (plcp s q).rx with
  | none => s
  | some rx =>
    if rx.ended || !plcHears s q then s
    else
      let r := if rx.doomed then { rx with symNo := rx.symNo + 1 } else takeSoft sym.soft rx (judgeSymbol sym.snr sym.clipPm rx)
      if !rx.doomed && allowance r.mode < r.erased then
        setPlc q (fun p =>
          let fq := qDoom (cutThrough s (256 + q)) p.queue
          { p with rx := some { r with doomed := true }, queue := if dirUp s then dropHead fq else fq }) s
      else rxOctets q (decoded r sym.ready) false (setPlc q (fun p => { p with rx := some r }) s)

/-- LQI of a mean SNR in 0.1 dB (R153). (DEDUCED: log 81) -/
def lqiOf (snr : Int) : Nat := (max 0 (min 255 ((4 * snr + 405) / 10))).toNat

/-- The suggestion of R153: groups whose mean reaches 7 dB, the highest BMOD whose threshold all of them meet. -/
def suggest (groups : List Int) : Nat × Nat :=
  let inc := ((List.range 8).zip groups).filter (fun g => 70 ≤ g.2)
  if inc.length < 2 then (0, 0)
  else
    let all := fun (t : Int) => inc.all (fun g => t ≤ g.2)
    (if all 180 then 3 else if all 120 then 2 else 1, (inc.map (fun g => 2 ^ g.1)).sum)

/-- What the engine reports of the last hop of a frame. -/
def reportOf (rx : PlcRx) (groups : List Int) : Nat × Nat × Nat × Nat :=
  let mean := if rx.snrCnt = 0 then rx.hdrSnr else rx.snrSum / rx.snrCnt
  let g := suggest groups
  (lqiOf mean, g.1, g.2, min 63 rx.erased)

/-- Count a frame by its status; event 0x36 after 60 s without an IMPULSE (R170, R171). -/
def countPlc (q status : Nat) (s : State) : State :=
  if status = 1 then setPlc q (fun p => { p with crcBad := p.crcBad + 1 }) s
  else if status = 2 then
    let due := match (plcp s q).lastImpulse with
      | none => true
      | some t => t + tSec 60 ≤ s.mono
    raiseIf due 0x36 (setPlc q (fun p => { p with impulse := p.impulse + 1, lastImpulse := some s.mono }) s)
  else s

/-- The status that the directory finds in the last notice: bits [3:0] of the producer code (R147, R152). -/
def noticeStatus (fq : FtQueue) : Nat :=
  match fq.notices.getLast? with
  | some n => n.code.toNat % 16
  | none => 3

/-- What a frame's end means for the attempt in progress, by the notice that the directory finds (R152, R159). -/
def frameVerdict (q : Nat) (s : State) : State :=
  let status := noticeStatus (plcp s q).queue
  match tfind s.plcMac.running q with
  | none => s
  | some x =>
    if !x.inAttempt then s
    else if status = 0 then setRun { x with judging := true } s
    else if status = 1 || status = 2 then attemptFailed x .badFrame s
    else s

/-- The FCS of the decoded PSDU holds (R153). -/
def plcFcsHolds (rx : PlcRx) : Bool := ofLe (rx.got.drop (rx.len - 4)) == (crc32 (rx.got.take (rx.len - 4))).toNat

/-- PLC_FRAME_END (R142, R150). -/
def plcFrameEnd (q : Nat) (fin : PlcEnd) (s : State) : State :=
  match (plcp s q).rx with
  | none => s
  | some rx0 =>
    if rx0.ended || !plcHears s q then s
    else
      let s1 := rxOctets q (decoded rx0 rx0.len) true (advTo fin.endTime s)
      let rx := (plcp s1 q).rx.getD rx0
      let status := if rx.doomed then 2 else if plcFcsHolds rx then 0 else if 0 < rx.erased then 2 else 1
      if rx.overflow || !trailerRoom (plcp s1 q).queue then
        setPlc q (fun p => { p with rx := some { rx with overflow := true, ended := true } }) s1
      else
        let (t0, s2) := plcTrailer status rx s1
        let s3 := pushPlcTrailers q t0 (BitVec.ofNat 64 fin.endTime) (setPlc q (fun p => { p with report := reportOf rx fin.groups }) s2)
        frameVerdict q (countPlc q status s3)

/-- PLC_OVERFLOW_TRAILER: two stages are free again (R151). -/
def plcOverflow (q : Nat) (fin : PlcEnd) (s : State) : State :=
  match (plcp s q).rx with
  | none => s
  | some rx =>
    if rx.overflow && trailerRoom (plcp s q).queue then
      let (t0, s1) := plcTrailer 5 rx s
      pushPlcTrailers q t0 (BitVec.ofNat 64 fin.endTime) s1
    else s

/-! ### What falls due (R160, R163) -/

/-- A transaction that reads the endpoint is in progress. -/
def readRuns (s : State) (h : Nat) : Bool := s.plcMac.running.any (fun y => y.2.handle == h && bit y.2.kind 0)

/-- READ_DUE: a scheduled read falls due; one that has to wait is counted as overdue. One in progress is not due again until it has ended. -/
def readDue (h : Nat) (s : State) : State :=
  match ep? s h with
  | none => s
  | some e =>
    if e.plc && e.reportIn != 0 && e.poll != .unreachable && plcServes s e.port && s.cfg.everCommitted && !queuedFor s h 1 3 && !readRuns s h then
      let s1 := advTo e.nextRead s
      let waits := (runIn s1 e.port).isSome || !(waitingOn s1 e.port).isEmpty || e.adm == .restoring
      let s2 := if waits then setPlc e.port (fun p => { p with overdue := p.overdue + 1 }) s1 else s1
      enqueue h e.port 1 3 s2
    else s

/-- KIND of the transaction that tries an UNREACHABLE endpoint: READ, or a link check of one that is never polled for reading (R155, R160). -/
def retryKind (e : Endpoint) : Nat := if e.reportIn = 0 then 0 else 1

/-- UNREACH_RETRY: the next transaction of an UNREACHABLE endpoint, at rank 3 (R163). -/
def unreachRetry (h : Nat) (s : State) : State :=
  match ep? s h with
  | none => s
  | some e =>
    if e.plc && e.poll == .unreachable && plcServes s e.port && !queuedFor s h (retryKind e) 3
        && !s.plcMac.running.any (fun y => y.2.handle == h) then
      enqueue h e.port (retryKind e) 3 (advTo e.nextRead s)
    else s

/-- CUSTODY_MAX_EXPIRY: no POLL has taken the custody entries in time (R160). -/
def custodyMax (h : Nat) (s : State) : State :=
  match ep? s h with
  | none => s
  | some e =>
    if e.plc && !e.plcCustody.isEmpty && !queuedFor s h 4 2 then
      enqueue h e.port 4 2 (advTo (tSec (e.plcCustodySince + pval s 0x300D)) s)
    else s

/-- One POLL of the endpoint will ask for its neighbours; a rank-4 transaction sees to it (R160). -/
def askNbr (h : Nat) (s : State) : State :=
  match ep? s h with
  | some e =>
    if e.plc && e.poll == .reachable && plcServes s e.port && !queuedFor s h 2 4 then
      enqueue h e.port 2 4 (updEp h (fun e => { e with nbrDue := true }) s)
    else s
  | none => s

/-- NBR_DUE: every PLC_NBR_S one POLL to each reachable endpoint asks for its neighbours (R160). -/
def nbrDue (s : State) : State :=
  if pval s 0x300C = 0 then s
  else
    let s1 := roundAt s.plcMac.lastNbr (pval s 0x300C) s
    (s1.eps.map (fun y => y.1)).foldl (fun s h => askNbr h s) { s1 with plcMac.lastNbr := some s1.mono }

/-! ### Opcodes (R170) -/

def plcCode : PlcState → Nat
  | .absent => 0 | .disabled => 1 | .calibrating => 2 | .idle => 3 | .fault => 4 | .listening => 5 | .transmitting => 6

def plcPortBytes (s : State) (q : Nat) : List Byte :=
  let x := plcp s q
  le 1 (plcCode x.state) ++ le 1 x.band ++ le 2 0 ++ le 4 x.polls.toNat ++ le 4 x.good.toNat ++ le 4 x.deadlines.toNat ++ le 4 x.impulse.toNat
    ++ le 4 x.crcBad.toNat ++ le 4 x.hdrErr.toNat ++ le 4 x.overdue.toNat ++ le 4 x.escal.toNat ++ le 2 x.ldFaults.toNat ++ le 2 x.stray.toNat

/-- Port (1), reserved (3). -/
def plcField (p : List Byte) : Option Nat := if 15 < rd p 0 1 || !zeroAt p 1 3 then none else some (rd p 0 1)

def plcCalGet (r : Req) (s : State) : Reply :=
  match plcField r.payload with
  | none => refuse s .badParam
  | some q => replyOk s (calBytes q (plcp s q).cal)

/-- PLC_RECALIBRATE: the port's group is held once its transaction has ended. -/
def plcRecalibrate (r : Req) (s : State) : Reply :=
  match plcField r.payload with
  | none => refuse s .badParam
  | some q =>
    if (plcp s q).state == .absent then refuse s .noResource
    else if (plcp s q).state == .disabled then refuse s .badState
    else if (runIn s q).isSome then .pend (setPlc q (fun p => { p with recalWait := true }) s) [.plcPort q]
    else .pend (startCal q s) [.plcPort q]

/-- The PLC-attached endpoint that the request names (R170). -/
def plcEp (p : List Byte) (s : State) : Option (Nat × Endpoint) :=
  (handleWord p 0).bind (fun h => (ep? s h).bind (fun e => if e.plc then some (h, e) else none))

/-- An entry of PLC_LINK_GET. -/
def linkEntry (s : State) (h : Nat) (l : PlcLink) : List Byte :=
  let out := l.src == some h
  let peer := if out then l.dst else l.src
  le 4 (peer.getD 0xFFFFFFFF) ++ le 1 (b2n (!out)) ++ le 1 l.mode ++ le 1 l.lqi ++ le 1 l.run ++ le 2 (min 65535 l.penalty)
    ++ le 2 (min 65535 ((s.mono - l.refreshed) / tSec 3600))

def plcLinkGet (r : Req) (s : State) : Reply :=
  match plcEp r.payload s with
  | none => refuse s .badParam
  | some (h, e) =>
    let ls := (s.plcMac.links.filter (fun l => l.port == e.port && (l.src == some h || l.dst == some h))).take 255
    replyOk s (le 1 ls.length ++ le 3 0 ++ (ls.map (linkEntry s h)).flatten)

def plcRouteGet (r : Req) (s : State) : Reply :=
  match plcEp r.payload s with
  | none => refuse s .badParam
  | some (h, e) =>
    let rs := relaysOf s e
    replyOk s (le 4 (e.path.getD 0xFFFFFFFF) ++ le 1 rs.length ++ le 1 (b2n e.pinnedRoute)
      ++ le 2 (min 65535 ((routeCost s e.port rs h).getD 0xFFFF)) ++ (rs.map (le 4)).flatten)

def proposalBytes (x : RouteProposal) : List Byte :=
  le 4 x.handle ++ le 1 x.relays.length ++ le 1 0 ++ le 2 (min 65535 x.cost) ++ le 2 (min 65535 x.oldCost) ++ le 2 0
    ++ ((List.range 7).map (fun i => le 4 (x.relays.getD i 0))).flatten

/-- PLC_ROUTE_PROPOSALS_GET: count entries of the 4 096 of the list; one that holds no proposal is all zeros (R525). (DESIGN CHOICE: log 150) -/
def plcProposalsGet (r : Req) (s : State) : Reply :=
  let first := rd r.payload 0 2
  let count := rd r.payload 2 2
  if 64 < count || 4096 < first + count then refuse s .badParam
  else replyOk s (((List.range count).map (fun i => match s.plcMac.proposals[first + i]? with
    | some x => proposalBytes x
    | none => le 40 0)).flatten)

/-- PLC_ROUTE_SET: installs and pins the route; h = 0 pins DIRECT. -/
def plcRouteSet (r : Req) (s : State) : Reply :=
  let p := r.payload
  match plcEp p s with
  | none => refuse s .badParam
  | some (h, e) =>
    let n := rd p 4 1
    let rs := (List.range n).map (fun i => rd p (8 + 4 * i) 4)
    if 7 < n || !zeroAt p 5 3 || rs.any (fun x => x == h || !relayOk s e.port x) || rs.eraseDups.length != rs.length then refuse s .badParam
    else
      match setRoute h e.port rs s with
      | (s1, true) =>
        replyOk (updEp h (fun e => { e with pinnedRoute := true })
          { s1 with plcMac.proposals := s1.plcMac.proposals.filter (fun x => x.handle != h) })
      | (s1, false) => refuse s1 .noResource

def plcRouteUnpin (r : Req) (s : State) : Reply :=
  match plcEp r.payload s with
  | none => refuse s .badParam
  | some (h, _) => replyOk (updEp h (fun e => { e with pinnedRoute := false }) s)

/-- PLC_POLL_NOW: a transaction of rank 3, due now; on a port that does not serve it fails at once with no attempt. -/
def plcPollNow (id : Nat) (r : Req) (s : State) : Reply :=
  match plcEp r.payload s with
  | none => refuse s .badParam
  | some (h, e) =>
    let kind := rd r.payload 4 1
    if 3 < kind || !zeroAt r.payload 5 3 then refuse s .badParam
    else if !plcServes s e.port && (plcp s e.port).state != .calibrating then .twice s .ok (le 1 1 ++ le 3 0)
    else
      let tid := s.plcMac.txnId
      let s1 := enqueue h e.port kind 3 s
      .pend { s1 with plcMac.pollNow := s1.plcMac.pollNow ++ [(tid, id)] } []

def plcPortStatusGetService : Service :=
  { opcode := 0x0300, lenOk := payloadFree, ready := true, run := fun _ _ s => replyOk s (((List.range 16).map (plcPortBytes s)).flatten) }

def plcCalGetService : Service := { opcode := 0x0301, lenOk := lenIs 4, ready := true, run := fun _ r s => plcCalGet r s }

def plcRecalibrateService : Service :=
  { opcode := 0x0302, lenOk := lenIs 4, ready := true, objs := fun r _ => [.plcPort (rd r.payload 0 1)], run := fun _ r s => plcRecalibrate r s }

def plcLinkGetService : Service := { opcode := 0x0303, lenOk := lenIs 4, run := fun _ r s => plcLinkGet r s }

def plcRouteGetService : Service := { opcode := 0x0304, lenOk := lenIs 4, run := fun _ r s => plcRouteGet r s }

def plcRouteProposalsGetService : Service := { opcode := 0x0305, lenOk := lenIs 4, run := fun _ r s => plcProposalsGet r s }

def plcRouteSetService : Service :=
  { opcode := 0x0306, lenOk := varLen 8 4 1 4, objs := handleObj, run := fun _ r s => plcRouteSet r s }

def plcRouteUnpinService : Service := { opcode := 0x0307, lenOk := lenIs 4, objs := handleObj, run := fun _ r s => plcRouteUnpin r s }

def plcPollNowService : Service := { opcode := 0x0308, lenOk := lenIs 8, objs := handleObj, run := plcPollNow }

/-! ### Meanings -/

def execLdFault (q t : Nat) (s : State) : Host.Outcome State Fault Refusal := .next (ldFault q t s)

def execLdFaultRetry (q : Nat) (s : State) : Host.Outcome State Fault Refusal := .next (ldFaultRetry q s)

def execTransactionStart (group t : Nat) (s : State) : Host.Outcome State Fault Refusal := .next (transactionStart group t s)

def execPlcHeaderDecode (q : Nat) (hdr : PlcHdrIn) (s : State) : Host.Outcome State Fault Refusal := .next (plcHeader q hdr s)

def execPlcSymbolReceive (q : Nat) (sym : PlcSymIn) (s : State) : Host.Outcome State Fault Refusal := .next (plcSymbol q sym s)

def execPlcFrameEnd (q : Nat) (fin : PlcEnd) (s : State) : Host.Outcome State Fault Refusal := .next (plcFrameEnd q fin s)

def execPlcOverflowTrailer (q : Nat) (fin : PlcEnd) (s : State) : Host.Outcome State Fault Refusal := .next (plcOverflow q fin s)

def execPollDeadline (group : Nat) (s : State) : Host.Outcome State Fault Refusal := .next (pollDeadline group s)

def execRetryGapExpiry (group : Nat) (s : State) : Host.Outcome State Fault Refusal := .next (retryGap group s)

def execReadDue (h : Nat) (s : State) : Host.Outcome State Fault Refusal := .next (readDue h s)

def execCustodyMaxExpiry (h : Nat) (s : State) : Host.Outcome State Fault Refusal := .next (custodyMax h s)

def execNbrDue (s : State) : Host.Outcome State Fault Refusal := .next (nbrDue s)

def execUnreachRetry (h : Nat) (s : State) : Host.Outcome State Fault Refusal := .next (unreachRetry h s)

def execRouteRecalc (s : State) : Host.Outcome State Fault Refusal := .next (routeRecalc s)

def execLinkAgeExpiry (i : Nat) (s : State) : Host.Outcome State Fault Refusal := .next (linkAge i s)

def execPlcCalibrationDone (q : Nat) (m : CalIn) (s : State) : Host.Outcome State Fault Refusal := .next (calDone q m s)

def execPlcTransmitEnd (q : Nat) (s : State) : Host.Outcome State Fault Refusal := .next (plcTransmitEnd q s)

def execPlcPortStatusGet (r : Req) (s : State) : Host.Outcome State Fault Refusal := .next (serve plcPortStatusGetService r s)

def execPlcCalGet (r : Req) (s : State) : Host.Outcome State Fault Refusal := .next (serve plcCalGetService r s)

def execPlcRecalibrate (r : Req) (s : State) : Host.Outcome State Fault Refusal := .next (serve plcRecalibrateService r s)

def execPlcLinkGet (r : Req) (s : State) : Host.Outcome State Fault Refusal := .next (serve plcLinkGetService r s)

def execPlcRouteGet (r : Req) (s : State) : Host.Outcome State Fault Refusal := .next (serve plcRouteGetService r s)

def execPlcRouteProposalsGet (r : Req) (s : State) : Host.Outcome State Fault Refusal := .next (serve plcRouteProposalsGetService r s)

def execPlcRouteSet (r : Req) (s : State) : Host.Outcome State Fault Refusal := .next (serve plcRouteSetService r s)

def execPlcRouteUnpin (r : Req) (s : State) : Host.Outcome State Fault Refusal := .next (serve plcRouteUnpinService r s)

def execPlcPollNow (r : Req) (s : State) : Host.Outcome State Fault Refusal := .next (serve plcPollNowService r s)

end Sys2Proof.Machine
end

