-- ==== Sys2Proof/Machine/Directory.lean ====
section
/-! DEFINITION. The endpoint directory: the admission table, enrolment and withdrawal, the handling of received frames up to deduplication,
tallies and unknown addresses (07). -/

namespace Sys2Proof.Machine

/-! ### The admission table (R173 to R179) -/

/-- Buckets of the table. -/
def bucketCount : Nat := 327680

/-- Candidate buckets and tag of an address (R174). -/
def candidates2 (s : State) (a : DWord) : Nat × Nat × Nat :=
  let key := (Config.drbg (s.dir.kdir.getD 0)).take 16
  let h := ofLe (Config.aes key (le 8 a.toNat ++ le 8 0))
  let b1 := h % 2 ^ 32 % bucketCount
  let b2 := h / 2 ^ 32 % 2 ^ 32 % bucketCount
  (b1, if b2 = b1 then (b1 + 1) % bucketCount else b2, h / 2 ^ 64 % 2 ^ 24)

/-- Slot keys of a bucket. -/
def bucketSlots (b : Nat) : List Nat := (List.range 4).map (fun k => 4 * b + k)

/-- Where a lookup finds an address: in the bucket slot or stash entry of that index. -/
structure Found where
  handle : Nat
  plc : Bool
  state : Adm
  inStash : Bool
  deriving DecidableEq, Repr

/-- The lookup of R175: the stash by address, then b1 before b2, lower slots first. -/
def lookup (s : State) (a : DWord) : Option Found :=
  match s.dir.stash.find? (fun x => x.2.addr == a) with
  | some x => some { handle := x.2.handle, plc := x.2.plc, state := x.2.state, inStash := true }
  | none =>
    let (b1, b2, tag) := candidates2 s a
    ((bucketSlots b1 ++ bucketSlots b2).filterMap (fun k => tfind s.dir.table k)).find? (fun x => x.tag == tag)
      |>.map (fun x => { handle := x.handle, plc := x.plc, state := x.state, inStash := false })

/-- A lookup is counted (Table 07-12). -/
def countLookup (f : Option Found) (s : State) : State :=
  { s with dir.lookups := s.dir.lookups + 1, dir.notFound := if f.isNone then s.dir.notFound + 1 else s.dir.notFound }

/-- Candidates of the endpoint that a slot holds. -/
def slotCands (s : State) (x : AdmSlot) : Nat × Nat := match ep? s x.handle with
  | some e => let c := candidates2 s e.addr; (c.1, c.2.1)
  | none => (bucketCount, bucketCount)

/-- The tag invariant allows an endpoint with these candidates and tag in bucket b: no other slot of its candidates carries the tag, and b is
no candidate of another endpoint with the tag (R177). -/
def tagAllows (s : State) (t : Tbl AdmSlot) (h b1 b2 tag b : Nat) : Bool :=
  t.all (fun y => y.2.handle == h || y.2.tag != tag
    || (y.1 / 4 != b1 && y.1 / 4 != b2 && (let c := slotCands s y.2; c.1 != b && c.2 != b)))

/-- The first empty slot of a bucket, apart from slots given. -/
def emptyIn (t : Tbl AdmSlot) (b : Nat) (not_ : List Nat) : Option Nat := (bucketSlots b).find? (fun k => !thas t k && !not_.contains k)

/-- The other candidate bucket of an occupant. -/
def otherBucket (s : State) (x : AdmSlot) (b : Nat) : Nat :=
  let c := slotCands s x
  if c.1 = b then c.2 else c.1

/-- Make the moves of a path, last one first, each keeping the tag invariant: (from, to) pairs (R178, R179). (DEDUCED: log 85) -/
def makeMoves (s : State) : List (Nat × Nat) → Tbl AdmSlot → Option (Tbl AdmSlot)
  | [], t => some t
  | (src, dst) :: rest, t =>
    match makeMoves s rest t with
    | none => none
    | some t1 =>
      match tfind t1 src with
      | none => none
      | some x =>
        let c := slotCands s x
        if !thas t1 dst && tagAllows s t1 x.handle c.1 c.2 x.tag (dst / 4) then some (tdel (tset t1 dst x) src) else none

/-- The moves of a chain of slots, each occupant going where the next one stood, the last to the target. -/
def chainMoves : List Nat → Nat → List (Nat × Nat)
  | [], _ => []
  | [p], target => [(p, target)]
  | p :: q :: rest, target => (p, q) :: chainMoves (q :: rest) target

/-- Breadth-first search for a move path: chains are held last slot first; each turn looks into one more bucket (R178). The answer is the table
after the moves, and the slot that has become free. -/
def movePath (s : State) (t : Tbl AdmSlot) (fits : Tbl AdmSlot → Nat → Bool) (maxMoves : Nat) : Nat → List (List Nat) →
    Option (Tbl AdmSlot × Nat)
  | 0, _ => none
  | _, [] => none
  | n + 1, chain :: rest =>
    match chain with
    | [] => movePath s t fits maxMoves n rest
    | last :: _ =>
      match tfind t last with
      | none => movePath s t fits maxMoves n rest
      | some x =>
        let b := otherBucket s x (last / 4)
        let direct := (emptyIn t b chain).bind (fun target =>
          let path := chain.reverse
          (makeMoves s (chainMoves path target) t).bind (fun t1 =>
            match path with
            | first :: _ => if fits t1 first then some (t1, first) else none
            | [] => none))
        match direct with
        | some r => some r
        | none =>
          let more := if chain.length < maxMoves then
              ((bucketSlots b).filter (fun k => thas t k && !chain.contains k)).map (fun k => k :: chain)
            else []
          movePath s t fits maxMoves n (rest ++ more)

/-- Place an endpoint in a bucket: directly, else at the end of a move path; the two candidate buckets count among those examined (R178). -/
def placeBucket (s : State) (h : Nat) (addr : DWord) (plc : Bool) (st : Adm) (maxMoves maxBuckets : Nat) : Option (Tbl AdmSlot) :=
  let (b1, b2, tag) := candidates2 s addr
  let t := s.dir.table
  let x : AdmSlot := { handle := h, tag := tag, plc := plc, state := st }
  let fits := fun (t : Tbl AdmSlot) (k : Nat) => tagAllows s t h b1 b2 tag (k / 4)
  match ([b1, b2].filterMap (fun b => emptyIn t b [])).find? (fits t) with
  | some k => some (tset t k x)
  | none =>
    (movePath s t fits maxMoves (maxBuckets - 2) (((bucketSlots b1 ++ bucketSlots b2).filter (fun k => thas t k)).map (fun k => [k]))).map
      (fun r => tset r.1 r.2 x)

/-- The first free stash entry. -/
def freeStash (s : State) : Option Nat := (List.range 256).find? (fun i => !thas s.dir.stash i)

/-- Insert an endpoint (R178); none when the stash is full too. -/
def insertEp (h : Nat) (addr : DWord) (plc : Bool) (st : Adm) (s : State) : Option State :=
  match placeBucket s h addr plc st 3 64 with
  | some t => some { s with dir.table := t }
  | none =>
    (freeStash s).map (fun i =>
      let x : StashEntry := { addr := addr, handle := h, plc := plc, state := st }
      { s with dir.stash := tset s.dir.stash i x })

/-- Clear the slot or stash entry of an endpoint. -/
def removeSlot (h : Nat) (s : State) : State :=
  { s with dir.table := s.dir.table.filter (fun x => x.2.handle != h), dir.stash := s.dir.stash.filter (fun x => x.2.handle != h) }

/-- Ask for a rehash: queued, or running at once with its token (R180, 19 R490). -/
def queueRehash (s : State) : State :=
  if s.dir.rehash != 0 then s
  else
    let s1 := askToken .rh s
    { s1 with dir.rehash := if holds .rh s1 then 2 else 1 }

/-- The stash has grown from n entries: event 0x40 on reaching the alarm, and a rehash when DIR_AUTO_REHASH is 1 (R180, R207). -/
def noteStash (n : Nat) (s : State) : State :=
  let alarm := pval s 0x4002
  if n < alarm && alarm ≤ s.dir.stash.length then
    let s1 := raise 0x40 s
    if pval s 0x4003 = 1 then queueRehash s1 else s1
  else s

/-- Re-insert one stash entry into the buckets, if a path of up to 8 moves is found (R180). -/
def rehashOne (i : Nat) (s : State) : State :=
  match tfind s.dir.stash i with
  | none => s
  | some x =>
    match placeBucket s x.handle x.addr x.plc x.state 8 4096 with
    | some t => { s with dir.table := t, dir.stash := tdel s.dir.stash i }
    | none => s

/-- REHASH_END: the stash entries have been re-inserted, and the requests for it are answered (R180). -/
def rehashEnd (s : State) : State :=
  if s.dir.rehash != 2 || !dirUp s then s
  else
    let s1 := (s.dir.stash.map (fun x => x.1)).foldl (fun s i => rehashOne i s) s
    let ids := (s1.ops.filter (fun o => o.opcode == 0x0409 && o.kind == .running)).map (fun o => o.id)
    finishOps ids .ok (le 2 s1.dir.stash.length ++ le 2 0) (raise 0x41 (dropToken .rh { s1 with dir.rehash := 0 }))

/-! ### Custody entries (05 R107, R124; 06 R160) -/

/-- A custody entry for the frame is queued. -/
def custodyQueued (s : State) (h f : Nat) : Bool :=
  s.sectors.any (fun x => x.2.custody.any (fun c => c.handle == h && c.fcnt == f))
    || (match ep? s h with
      | some e => e.evCustody.contains f || e.plcCustody.contains f
      | none => false)

/-- Queue the frame's custody entry, unless one is queued: to its sector, its next EVENT or its next POLL. -/
def queueCustody (h f port : Nat) (deep : Bool) (s : State) : State :=
  match ep? s h with
  | none => s
  | some e =>
    if custodyQueued s h f then s
    else if e.plc then
      noteEp h (fun e => { e with plcCustody := e.plcCustody ++ [f],
                                  plcCustodySince := if e.plcCustody.isEmpty then secs s else e.plcCustodySince }) s
    else if e.air == .connected then noteEp h (fun e => { e with evCustody := e.evCustody ++ [f] }) s
    else
      let c : CustodyEntry := { handle := h, fcnt := f, deep := deep }
      setSec port (fun x => { x with custody := x.custody ++ [c] }) s

/-- Some custody entry of the endpoint is queued. (DEDUCED: log 83) -/
def anyCustody (s : State) (h : Nat) : Bool :=
  s.sectors.any (fun x => x.2.custody.any (fun c => c.handle == h))
    || (match ep? s h with
      | some e => !e.evCustody.isEmpty || !e.plcCustody.isEmpty
      | none => false)

/-! ### Retirement (R184; 10 R290) -/

def framesOf (s : State) (h : Nat) : List Frame := s.dir.frames.filter (fun f => f.handle == h)

/-- The context of a withdrawn endpoint leaves the cache; a lost one is not written back (R184, 08 R230). -/
def writeBackCtx (h : Nat) (s : State) : State :=
  match ep? s h with
  | none => s
  | some e =>
    let dirty := s.mem.cache.any (fun c => c.handle == h && c.dirty) && !e.ctxLost && !s.mem.writeBacks.contains h
    let s1 := forgetCtx h s
    { s1 with mem.writeBacks := if dirty || s.mem.writeBacks.contains h then s1.mem.writeBacks ++ [h] else s1.mem.writeBacks }

/-- The last frame of a withdrawn endpoint has ended: its period closes with WITHDRAWN. A period whose image is not there cannot close.
Nothing happens while the journal takes no entry. -/
def withdrawPeriod (h : Nat) (s : State) : State :=
  match ep? s h with
  | none => s
  | some e =>
    if e.adm != .retiring || e.closedOut || !(framesOf s h).isEmpty then s
    else if e.imgLost || e.ctxLost || e.img.pseq = 0 then noteEp h (fun e => { e with closedOut := true }) s
    else if !ledgerOk s then s
    else
      let s1 := evalEp h (secs s) s
      match ep? s1 h with
      | none => s1
      | some e1 =>
        let s2 := commitOne (handleEntry h (.withdrawClose h e1.img.pseq)) s1
        noteEp h (fun e => { e with closedOut := true }) (closeNow h reasonWithdrawn (secs s) 0 s2)

/-- A withdrawn endpoint's period closes with its last frame, and then its context goes back, once its entry is neither pinned nor busy
(R184; 08 R215; 10 R290). -/
def withdrawClose (h : Nat) (s : State) : State :=
  let s1 := withdrawPeriod h s
  if (match ep? s1 h with
    | some e => e.adm == .retiring && e.closedOut
    | none => false) && evictable s1 h then writeBackCtx h s1
  else s1

/-- Requests to withdraw of which no endpoint is left. -/
def withdrawnOps (s : State) : List Nat :=
  (s.ops.filter (fun o => o.opcode == 0x0401 && o.kind == .running
    && (List.range (rd o.req.payload 0 2)).all (fun i => (ep? s (rd o.req.payload (4 + 4 * i) 4)).isNone))).map (fun o => o.id)

/-- Discard the endpoint's queued transactions; one asked for by PLC_POLL_NOW is answered. -/
def dropTxns (h : Nat) (s : State) : State :=
  let mine := s.plcMac.queue.filter (fun x => x.handle == h)
  mine.foldl (fun s x => answerPollNow x false s) { s with plcMac.queue := s.plcMac.queue.filter (fun x => x.handle != h) }

/-- The endpoint becomes EMPTY and its handle free: its targets are skipped, and requests that waited for it are answered. -/
def becomeEmpty (h : Nat) (s : State) : State :=
  let s1 := skipTargets h (dropTxns h (forgetCtx h (dirtyPage (h / 16) (removeSlot h s))))
  let s2 := (List.range 8).foldl (fun s p => dropOpp p h s) s1
  let s3 := freePaths { s2 with eps := tdel s2.eps h, plcMac.proposals := s2.plcMac.proposals.filter (fun x => x.handle != h) }
  finishOps (withdrawnOps s3) .ok [] s3

/-- Nothing of the endpoint but custody holds up its retirement. -/
def mayEmpty (s : State) (h : Nat) : Bool :=
  match ep? s h with
  | some e => e.adm == .retiring && e.closedOut && (framesOf s h).isEmpty && !pinned s h && !resident s h && !s.mem.writeBacks.contains h
  | none => false

/-- RETIREMENT_COMPLETE. -/
def retirementComplete (h : Nat) (s : State) : State :=
  let s1 := withdrawClose h s
  if mayEmpty s1 h && !anyCustody s1 h then becomeEmpty h s1 else s1

def rcRetired : Nat := 0x92

/-- FCNTs of the endpoint's queued custody entries. -/
def custodyFcnts (s : State) (h : Nat) : List Nat :=
  ((s.sectors.map (fun x => (x.2.custody.filter (fun c => c.handle == h)).map (fun c => c.fcnt))).flatten)
    ++ (match ep? s h with
      | some e => e.evCustody ++ e.plcCustody
      | none => [])

/-- FCNTs in the portions that one record holds (14 R372). -/
def recordParts : Nat → List Nat → List (List Nat)
  | 0, _ => []
  | n + 1, fs => if fs.length ≤ 248 then [fs] else fs.take 248 :: recordParts n (fs.drop 248)

/-- The endpoint's custody entries are discarded and listed in records (R184). -/
def discardCustody (h : Nat) (s : State) : State :=
  let fs := custodyFcnts s h
  let s1 := { s with sectors := tmap s.sectors (fun _ x => { x with custody := x.custody.filter (fun c => c.handle != h) }) }
  (recordParts (fs.length + 1) fs).foldl (fun s part => record rcRetired (le 4 h ++ le 4 part.length ++ (part.map (le 4)).flatten) s)
    (noteEp h (fun e => { e with evCustody := [], plcCustody := [] }) s1)

/-- RETIRE_HOLD_EXPIRY: the custody entries that have not left are discarded and listed in a record (R184). -/
def retireHold (h : Nat) (s : State) : State :=
  match (ep? s h).bind (fun e => e.retireAt) with
  | none => s
  | some t =>
    let s1 := withdrawClose h (advMono t s)
    let s2 := if anyCustody s1 h then discardCustody h s1 else s1
    if mayEmpty s2 h then becomeEmpty h s2 else s2

/-! ### Unknown addresses (R204) -/

/-- Put an entry at the place of the one with the oldest last-frame time. -/
def replaceOldest (x : UnkEntry) (xs : List UnkEntry) : List UnkEntry :=
  let least := xs.foldl (fun (m : Nat) e => min m e.last) (2 ^ 64)
  match xs.span (fun e => e.last != least) with
  | (front, _ :: rest) => front ++ x :: rest
  | (front, []) => front

def noteUnknown (addr : DWord) (port medium : Nat) (rssi : Int) (s : State) : State :=
  let xs := s.dir.unknown
  let new_ : UnkEntry := { addr := addr, count := 1, last := secs s, port := port, medium := medium, rssi := rssi }
  let ys := if xs.any (fun e => e.addr == addr) then
      xs.map (fun e => if e.addr = addr then { new_ with count := e.count + 1 } else e)
    else if xs.length < 1024 then xs ++ [new_]
    else replaceOldest new_ xs
  { s with dir.unknown := ys }

/-! ### The frame store and serial order (R19, R20, R197) -/

/-- Slots of 256 bytes that a frame of so many octets takes. -/
def storeSlots (octets : Nat) : Nat := max 1 ((octets + 255) / 256)

/-- n consecutive slots from i on lie in the store and are free (01 R9). -/
def slotsFree (s : State) (n i : Nat) : Bool :=
  i + n ≤ 16384 && s.dir.frames.all (fun f => f.at_ + f.slots ≤ i || i + n ≤ f.at_)

/-- Where a frame of n slots goes: the lowest place it fits, which is slot 0 or behind a stored frame (01 R9). (DESIGN CHOICE: log 151) -/
def storePlace (s : State) (n : Nat) : Option Nat :=
  match (0 :: s.dir.frames.map (fun f => f.at_ + f.slots)).filter (slotsFree s n) with
  | [] => none
  | i :: rest => some (rest.foldl min i)

/-- The store has consecutive free slots for a frame of so many octets. -/
def storeFits (s : State) (octets : Nat) : Bool := (storePlace s (storeSlots octets)).isSome

def setFrame (id : Nat) (f : Frame → Frame) (s : State) : State :=
  { s with dir.frames := s.dir.frames.map (fun x => if x.id = id then f x else x) }

def frame? (s : State) (id : Nat) : Option Frame := s.dir.frames.find? (fun f => f.id == id)

/-- The handling of a stored frame ends: its slot is free, and whatever waited for its end goes on. -/
def frameDone (f : Frame) (s : State) : State :=
  let s1 := { s with dir.frames := s.dir.frames.filter (fun x => x.id != f.id) }
  let s2 := updEp f.handle (fun e => { e with serial := (framesOf s1 f.handle).any (fun x => x.stage == .commit) }) s1
  let s3 := endPassThru f.handle (if f.plc then plcWaitEnd f.handle s2 else s2)
  withdrawClose f.handle s3

/-- Put a frame into the store at step 9: its context is on chip, is being fetched, is fetched now, or waits for a buffer behind the faults that
wait already (R219). -/
def storeFrame (f : Frame) (s : State) : State :=
  let h := f.handle
  let put := fun (st : FrameStage) (s : State) =>
    { s with dir.frames := s.dir.frames ++ [{ f with id := s.dir.nextFrame, stage := st, at_ := (storePlace s f.slots).getD 0 }],
             dir.nextFrame := s.dir.nextFrame + 1 }
  if resident s h then put .serial (touch h s)
  else if s.mem.fetches.contains h then put .fetch s
  else if buffersUsed s < fetchBuffers && !s.dir.frames.any (fun x => x.stage == .buffer) then issueFetch h (put .fetch s)
  else put .buffer s

/-- FETCH_BUFFER_FREE: the first fault that waits for a buffer issues its fetch. -/
def fetchBufferFree (s : State) : State :=
  if !dirUp s || fetchBuffers ≤ buffersUsed s then s
  else
    match s.dir.frames.find? (fun f => f.stage == .buffer) with
    | none => s
    | some f =>
      let join := fun (x : Frame) => if x.handle = f.handle && x.stage == .buffer then { x with stage := .fetch } else x
      issueFetch f.handle { s with dir.frames := s.dir.frames.map join }

/-- Engine addresses of Table 08-1. -/
def ctxAddr (h : Nat) : Nat := h * 0x200
def mirrorAddr (h : Nat) : Nat := 0x20000000 + h * 0x100
def blobAddr (h : Nat) : Nat := 0x40000000 + h * 48

/-- Bursts k of bytes 0 to 255 of a context are uncorrectable: rebuilt from the mirror, or, where the mirror's burst is uncorrectable too, the
context is lost (Table 08-7). (DEDUCED: log 90) -/
def lowUe (h : Nat) (ks mirror : List Nat) (s : State) : State :=
  let s1 := ks.foldl (fun s k => noteUe (ctxAddr h + 32 * k) 0 s) s
  let both := ks.filter (fun k => mirror.contains k)
  let s2 := both.foldl (fun s k => noteUe (mirrorAddr h + 32 * k) 1 s) s1
  if ks.isEmpty then s
  else if both.isEmpty then { s2 with mem.ctxRebuilt := s2.mem.ctxRebuilt + 1 }
  else noteEp h (fun e => { e with ctxLost := true }) { s2 with mem.ctxLost := s2.mem.ctxLost + 1 }

/-- Bursts k of the ledger image are uncorrectable: its page is wanted again (Table 08-7, 10 R290). -/
def imageUe (h : Nat) (ks : List Nat) (s : State) : State :=
  if ks.isEmpty then s
  else pageAgain (h / 16) (noteEp h (fun e => { e with imgLost := true }) (ks.foldl (fun s k => noteUe (ctxAddr h + 32 * k) 0 s) s))

/-- The key-blob burst at an address is uncorrectable: each blob of which it holds a byte is lost (Table 08-7). -/
def blobUe (a : Nat) (s : State) : State :=
  let lost := fun (h : Nat) (s : State) => if thas s.blobs h then noteEp h (fun e => { e with blobLost := true }) s else s
  let first := (a - blobAddr 0) / 48
  let last := (a + 31 - blobAddr 0) / 48
  let s1 := lost first (noteUe a 3 s)
  if last = first then s1 else lost last s1

/-- Engine address of the burst at a place of a context fetch. -/
def fetchAddr (h i : Nat) : Nat :=
  if i < 16 then ctxAddr h + 32 * i
  else if i < 18 then blobAddr h / 32 * 32 + 32 * (i - 16)
  else mirrorAddr h + 32 * (i - 18)

/-- The burst at a place of the fetch is uncorrectable. -/
def fetchBad (s : State) (x : FetchIn) (i : Nat) : Bool := x.bursts.any (fun e => e.1 == i && uncorrectable s e.2)

/-- The fetch reads a burst: it is corrected and written back, where it was wrong and can be (R213). -/
def fetchRead (h : Nat) (x : FetchIn) (s : State) (i : Nat) : State :=
  match x.bursts.find? (fun e => e.1 == i) with
  | some e => if uncorrectable s e.2 then s else noteCorrected (fetchAddr h i) e.2 s
  | none => s

/-- What the bursts of a fetch bring about. A context whose write-back is still in its buffer is served from there, so that only the key blob
is read from DRAM (R218). The mirror is read where bytes 0 to 255 are uncorrectable. -/
def fetchUe (h : Nat) (x : FetchIn) (s : State) : State :=
  let buffered := s.mem.writeBacks.contains h
  let low := if buffered then [] else (List.range 8).filter (fetchBad s x)
  let image := if buffered then [] else ((List.range 8).map (fun k => k + 8)).filter (fetchBad s x)
  let blob := [16, 17].filter (fetchBad s x)
  let mirror := low.filter (fun k => fetchBad s x (18 + k))
  let read := (if buffered then [] else List.range 16) ++ [16, 17] ++ low.map (fun k => 18 + k)
  let s1 := read.foldl (fetchRead h x) s
  blob.foldl (fun s i => blobUe (fetchAddr h i) s) (imageUe h image (lowUe h low mirror s1))

/-- The endpoint's frames are discarded at step 9 (Table 08-7). -/
def cannotUse (s : State) (h : Nat) : Bool :=
  match ep? s h with
  | some e => e.ctxLost || e.imgLost
  | none => true

/-- A frame without its image counts as restore-deferred. -/
def countDeferred (h : Nat) (s : State) : State :=
  match ep? s h with
  | some e => if e.imgLost then { s with dir.deferred := s.dir.deferred + 1 } else s
  | none => s

/-- A stored frame is discarded for want of its context or image; a power-line frame was no answer then (06 R159). -/
def dropFrame9 (f : Frame) (s : State) : State := frameDone f (countDeferred f.handle (if f.plc then notTheAnswer f.port s else s))

/-- CONTEXT_FETCH_COMPLETE: the context is installed, or passed through, and the frames that wait for it go on (R219, R230, R231). -/
def fetchComplete (h : Nat) (ue : FetchIn) (s : State) : State :=
  if !s.mem.fetches.contains h then s
  else
    let s1 := install h (fetchUe h ue s)
    if cannotUse s1 h then ((framesOf s1 h).filter (fun f => f.stage == .fetch)).foldl (fun s f => dropFrame9 f s) s1
    else
      { s1 with dir.frames := s1.dir.frames.map (fun f => if f.handle = h && f.stage == .fetch then { f with stage := .serial } else f) }

/-- WRITEBACK_DONE (R217). -/
def writebackDone (h : Nat) (s : State) : State := { s with mem.writeBacks := s.mem.writeBacks.filter (fun x => x != h) }

/-! ### Steps 1 to 9 (Table 07-6) -/

/-- Octets of the PSDU words of a packet. -/
def packetOctets (ws : List QWord) (len : Nat) : List Byte := ((ws.map (fun w => le 8 w.word.toNat)).flatten).take len

/-- A frame as the parser of Table 05-2 reads it. -/
structure AirIn where
  lane : Nat
  port : Nat
  channel : Nat
  mode : Nat
  deep : Bool
  dw : Bool
  /-- FCS type 1: the 2-octet FCS -/
  short : Bool
  status : Nat
  rssi : Int
  endTime : Nat
  psdu : List Byte
  deriving DecidableEq, Repr

/-- Header, PSDU and trailers of an air packet (Table 04-10). -/
def airIn (ws : List QWord) : Option AirIn :=
  match ws, ws.reverse with
  | hd :: rest, t1 :: t0 :: _ =>
    let n := hd.word.toNat
    some { lane := bits n 7 0, port := bits n 10 8, channel := bits n 26 16, mode := bits n 28 27, deep := bit n 29, dw := bit n 31, short := bit n 30,
           status := bits t0.word.toNat 3 0, rssi := toSigned 16 (bits t0.word.toNat 31 16), endTime := t1.word.toNat,
           psdu := packetOctets rest (min (bits n 42 32) (8 * (ws.length - 3))) }
  | _, _ => none

/-- Frame control of a PSDU (Table 05-1). -/
def fcOf (p : List Byte) : Nat := rd p 0 2

/-- TYPE is DATA and VERSION is 1 (R93). -/
def isData (p : List Byte) : Bool := fcOf p % 8 == 0 && bits (fcOf p) 11 8 == 1

/-- Octets before the payload: FC, SRC, FCNT and DL_CONF. -/
def dataHead (p : List Byte) : Nat := 14 + 2 * b2n (bit (fcOf p) 5)

/-- Engine time of the first symbol of a SUN FSK frame at the antenna, by its mode and length; its SHR is taken as the shortest, 8 octets of
preamble. (DESIGN CHOICE: log 149) -/
def airStart (x : AirIn) : Nat := x.endTime - tUs (sunUs x.mode (x.psdu.length + if x.short then 2 else 4))

/-- The stored form of a DATA frame (Table 05-2). -/
def dataFrame (h : Nat) (x : AirIn) : Frame :=
  let p := x.psdu
  let fc := fcOf p
  let k := dataHead p
  let body := (p.drop k).take (p.length - k - 8)
  { id := 0, handle := h, lane := x.lane, port := x.port, channel := x.channel, mode := x.mode, deep := x.deep,
    src := BitVec.ofNat 64 (rd p 2 8), fcnt := rd p 10 4, dlConf := if bit fc 5 then some (rd p 14 2) else none, sec := bit fc 4,
    aad := p.take k, body := body, mic := p.drop (p.length - 8), rssi := x.rssi, endTime := x.endTime, startTime := airStart x,
    slots := storeSlots p.length }

/-- Steps 6 to 9 for a frame whose lookup is known. (DEDUCED: log 84) -/
def admitAir (x : AirIn) (f : Option Found) (s : State) : State :=
  let src := BitVec.ofNat 64 (rd x.psdu 2 8)
  match f with
  | none => noteUnknown src x.port 0 x.rssi s
  | some f =>
    if f.state == .pending || f.state == .empty then noteUnknown src x.port 0 x.rssi s
    else if f.plc then tallyInc f.handle .medium { s with dir.mediumMis := s.dir.mediumMis + 1 }
    else
      match f.state with
      | .restoring => { s with dir.deferred := s.dir.deferred + 1 }
      | .suspended => tallyInc f.handle .suspended { s with dir.suspFrames := s.dir.suspFrames + 1 }
      | .retiring => { s with dir.suspFrames := s.dir.suspFrames + 1 }
      | _ => if cannotUse s f.handle then countDeferred f.handle s else storeFrame (dataFrame f.handle x) s

/-- The link-ack decision's own conditions (05 R108): SUN FSK, DATA of VERSION 1 with ACK_REQ, admitted, a slot found. -/
def ackWanted (x : AirIn) (f : Option Found) (room : Bool) : Bool :=
  !x.deep && isData x.psdu && bit (fcOf x.psdu) 3 && room
    && (match f with
      | some f => !f.plc && (f.state == .admitted || f.state == .restoring)
      | none => false)

/-- The air packet in its steps (Table 07-6). -/
def airPacket (x : AirIn) (s : State) : State :=
  let hasSrc := 10 ≤ x.psdu.length
  let f := if hasSrc then lookup s (BitVec.ofNat 64 (rd x.psdu 2 8)) else none
  let s1 := if hasSrc then countLookup f s else s
  if x.status != 0 then s1
  else
    let room := storeFits s1 x.psdu.length
    let a : SchedAck := { lane := x.lane, channel := x.channel, mode := x.mode, dw := x.dw, fcnt8 := rd x.psdu 10 1, endTime := x.endTime,
                          decided := s1.mono }
    let s2 := if ackWanted x f room then ackOffer x.port a (decide (x.endTime + tUs 100 < s1.now)) s1 else s1
    if !room then setLane x.lane (fun l => { l with fsOvf := l.fsOvf + 1 }) s2
    else if !isData x.psdu || x.psdu.length < dataHead x.psdu + 8 then { s2 with dir.formatDisc := s2.dir.formatDisc + 1 }
    else admitAir x f s2

/-- DIRECTORY_AIR_PACKET: the oldest whole packet of the lane's queue. -/
def directoryAir (l : Nat) (s : State) : State :=
  if !dirUp s || !(l < 256) then s
  else
    match takePacket (clearHead (lane s l).queue) with
    | none => setLane l (fun x => { x with queue := clearHead x.queue }) s
    | some (ws, q) =>
      let s1 := setLane l (fun x => { x with queue := q }) s
      match airIn ws with
      | some x => valuesAt x.endTime (airPacket { x with lane := l }) s1
      | none => s1

/-! ### PLC packets (R194; 06 R152 to R155, R159) -/

/-- A RESPONSE as Table 06-8 lays it out. -/
structure RespIn where
  pfc : Nat
  pseq : Nat
  net : Nat
  dhandle : Nat
  slots : List Byte
  addr : DWord
  fcnt : Nat
  payload : List Byte
  mic : List Byte
  deriving DecidableEq, Repr

/-- Octets of BSET: two for each hop direction in Breeze. -/
def bsetLen (hops modes : Nat) : Nat :=
  2 * ((List.range hops).filter (fun i => bits modes (2 * i + 1) (2 * i) == 0)).length
    + 2 * ((List.range hops).filter (fun i => bits modes (2 * i + 17) (2 * i + 16) == 0)).length

/-- Read a RESPONSE; none when it is too short for its layout. -/
def respIn (p : List Byte) : Option RespIn :=
  let h := bits (rd p 1 1) 2 0
  let modes := rd p (9 + 3 * h) 4
  let at_ := 13 + 3 * h + bsetLen (h + 1) modes
  let k := at_ + 6 * (h + 1)
  if p.length < k + 20 then none
  else
    some { pfc := rd p 0 1, pseq := rd p 2 2, net := rd p 4 2, dhandle := rd p 6 3, slots := (p.drop at_).take (6 * (h + 1)),
           addr := BitVec.ofNat 64 (rd p k 8), fcnt := rd p (k + 8) 4, payload := (p.drop (k + 12)).take (p.length - k - 20),
           mic := p.drop (p.length - 8) }

/-- The answer awaited has come, its slots given (06 R159). -/
def answered (q pseq : Nat) (slots : List Byte) (endTime : Nat) (s : State) : State :=
  match tfind s.plcMac.running q with
  | some x => if x.inAttempt && x.pseq = pseq then txnGood x slots endTime s else s
  | none => s

/-- The stored form of a RESPONSE. -/
def respFrame (h q : Nat) (r : RespIn) (len endTime : Nat) : Frame :=
  let head := le 1 r.pfc ++ le 8 r.addr.toNat ++ le 4 r.fcnt
  { id := 0, handle := h, lane := 256 + q, port := q, plc := true, src := r.addr, fcnt := r.fcnt, sec := bit r.pfc 3, aad := head,
    body := r.payload, mic := r.mic, endTime := endTime, slots := storeSlots len, pseq := r.pseq, report := r.slots }

/-- A RESPONSE that matches the transaction, of an endpoint that Table 07-2 lets through or not. -/
def admitPlc (q : Nat) (x : PlcTxn) (r : RespIn) (len endTime : Nat) (s : State) : State :=
  let h := x.handle
  let good := fun (s : State) => plcWaitEnd h (answered q r.pseq r.slots endTime s)
  match ep? s h with
  | none => notTheAnswer q (noteUnknown r.addr q 1 0 s)
  | some e =>
    if !e.plc then notTheAnswer q (tallyInc h .medium { s with dir.mediumMis := s.dir.mediumMis + 1 })
    else
      match e.adm with
      | .restoring => good { s with dir.deferred := s.dir.deferred + 1 }
      | .suspended => good (tallyInc h .suspended { s with dir.suspFrames := s.dir.suspFrames + 1 })
      | .retiring => good { s with dir.suspFrames := s.dir.suspFrames + 1 }
      | _ =>
        if cannotUse s h then good (countDeferred h s)
        else storeFrame (respFrame h q r len endTime) s

/-- A PLC packet from step 4 on (R194). -/
def plcPacket (q : Nat) (status : Nat) (psdu : List Byte) (endTime : Nat) (s : State) : State :=
  if status != 0 then s
  else if !storeFits s psdu.length then notTheAnswer q s
  else
    match respIn psdu, tfind s.plcMac.running q with
    | some r, some x =>
      let addr := match ep? s x.handle with
        | some e => e.addr
        | none => r.addr
      if r.pfc % 8 != 1 || r.pfc / 16 != 1 then notTheAnswer q { s with dir.formatDisc := s.dir.formatDisc + 1 }
      else if !x.inAttempt || r.pseq != x.pseq || r.net != x.net || r.addr != addr then notTheAnswer q s
      else admitPlc q x r psdu.length endTime s
    | some _, none => s
    | none, _ => notTheAnswer q { s with dir.formatDisc := s.dir.formatDisc + 1 }

/-- DIRECTORY_PLC_PACKET: the oldest whole packet of the port's queue. -/
def directoryPlc (q : Nat) (s : State) : State :=
  if !dirUp s || !(q < 16) then s
  else
    match takePacket (clearHead (plcp s q).queue) with
    | none => setPlc q (fun x => { x with queue := clearHead x.queue }) s
    | some (ws, fq) =>
      let s1 := setPlc q (fun x => { x with queue := fq }) s
      match ws, ws.reverse with
      | hd :: rest, t1 :: t0 :: _ =>
        let psdu := packetOctets rest (min (bits hd.word.toNat 24 16 - 4) (8 * (ws.length - 3)))
        valuesAt t1.word.toNat (plcPacket q (bits t0.word.toNat 3 0) psdu t1.word.toNat) s1
      | _, _ => s1

/-! ### Steps 10 to 13 (R195 to R199) -/

/-- Serial order: the earlier end time in whole µs, then the lower lane, then the earlier arrival (R20). -/
def frameBefore (a b : Frame) : Bool :=
  usOf a.endTime < usOf b.endTime
    || (usOf a.endTime == usOf b.endTime && (a.lane < b.lane || (a.lane == b.lane && a.id < b.id)))

/-- A whole GOOD packet from the same address that still stands in a lane's queue goes before this frame (R20). -/
def queuedBefore (s : State) (f : Frame) : Bool :=
  s.lanes.any (fun e =>
    let ws := e.2.queue.taken ++ (e.2.queue.packets.map (fun p => p.words)).flatten
    (wholePackets ws.length ws).any (fun p => match airIn p with
      | some x => x.status == 0 && rd x.psdu 2 8 == f.src.toNat && isData x.psdu
          && (usOf x.endTime < usOf f.endTime || (usOf x.endTime == usOf f.endTime && e.1 < f.lane))
      | none => false))

/-- No frame of the endpoint is between deduplication and its end, and none that waits, stored or in a lane's queue, goes before this one. -/
def serialTurn (s : State) (f : Frame) : Bool :=
  (f.plc || !queuedBefore s f) && (framesOf s f.handle).all (fun g => g.id == f.id
    || (match g.stage with
      | .commit => false
      | .journal _ => false
      | _ => frameBefore f g))

/-- Nonce of an uplink frame (05 R95, 06 R154). -/
def upNonce (f : Frame) : List Byte := le 8 f.src.toNat ++ le 4 f.fcnt ++ (if f.plc then plcTypeOctet 1 true else typeOctet 0 true)

/-- Decryption and MIC check: the plain payload. -/
def openFrame (key : List Byte) (f : Frame) : Option (List Byte) :=
  if f.sec then Config.ccmOpen key (upNonce f) f.aad f.body f.mic
  else (Config.ccmOpen key (upNonce f) (f.aad ++ f.body) [] f.mic).map (fun _ => f.body)

/-- The READINGS element's length lies outside 5 to 768, or runs past the payload: the reading payload is malformed (09 R235, R236).
(DEDUCED: log 95) -/
def readingsBad (p : List Byte) : Bool := bit (rd p 0 1) 0 && (rd p 1 2 < 5 || 768 < rd p 1 2 || p.length < 3 + rd p 1 2)

/-- Elements of a RESPONSE payload (06 R155): readings, neighbour entries, DLCONF. -/
def respParts (p : List Byte) : List Byte × List Nat × Option Nat :=
  let flags := rd p 0 1
  let n := if bit flags 0 then rd p 1 2 else 0
  let readings := (p.drop 3).take n
  let o1 := 1 + (if bit flags 0 then 2 + n else 0)
  let k := if bit flags 1 then min 8 (rd p o1 1) else 0
  let nbrs := (List.range k).map (fun i => rd p (o1 + 1 + 4 * i) 4)
  let o2 := o1 + (if bit flags 1 then 1 + 4 * k else 0)
  (if bit flags 0 then readings else [], nbrs, if bit flags 2 then some (rd p o2 2) else none)

/-- What every authenticated frame does before deduplication: the endpoint has been heard (05 R119, R120), or the poll answered and its neighbour
report taken (06 R159, R164). -/
def heard (f : Frame) (plain : List Byte) (s : State) : State :=
  let s1 := updEp f.handle (fun e => { e with lastPort := f.port }) s
  if f.plc then takeNbr f.port f.handle (respParts plain).2.1 (answered f.port f.pseq f.report f.endTime s1)
  else
    let s2 := airHeard f.handle f.port f.channel f.startTime f.endTime s1
    if f.deep then s2 else openOpp f.port f.handle f.channel f.mode f.endTime s2

/-- Step 13 for an authenticated frame (R198, R199). -/
def dedupStep (f : Frame) (plain : List Byte) (s : State) : State :=
  match ep? s f.handle with
  | none => frameDone f s
  | some e =>
    match dedup e.img f.fcnt (pval s 0x4000) with
    | .accept _ =>
      let parts := respParts plain
      let f1 := { f with stage := .commit, plain := if f.plc then parts.1 else plain, badLen := f.plc && readingsBad plain, dlConf := if f.plc then parts.2.2 else f.dlConf }
      updEp f.handle (fun e => { e with serial := true }) (setFrame f.id (fun _ => f1) s)
    | .duplicate =>
      let s1 := updEp f.handle (fun e => { e with dupCnt := e.dupCnt + 1 }) { s with dir.dups := s.dir.dups + 1 }
      frameDone f (queueCustody f.handle f.fcnt f.port f.deep s1)
    | .stale =>
      let s1 := updEp f.handle (fun e => { e with staleCnt := e.staleCnt + 1 }) { s with dir.stales := s.dir.stales + 1 }
      frameDone f (tallyInc f.handle .stale s1)

/-- A discarded frame was no answer. -/
def discardFrame (f : Frame) (s : State) : State := frameDone f (if f.plc then notTheAnswer f.port s else s)

/-- Steps 10 to 13. -/
def runFrame (f : Frame) (s : State) : State :=
  match ep? s f.handle with
  | none => discardFrame f s
  | some e =>
    if e.addr != f.src then
      discardFrame f (noteUnknown f.src f.port (b2n f.plc) f.rssi { s with dir.aliases := s.dir.aliases + 1 })
    else
      match epKey f.handle s with
      | (s1, none) =>
        let s2 := { s1 with dir.keyUnav := s1.dir.keyUnav + 1 }
        frameDone f (if f.plc then answered f.port f.pseq f.report f.endTime s2 else s2)
      | (s1, some key) =>
        match openFrame key f with
        | none => discardFrame f (tallyInc f.handle .mic s1)
        | some plain => dedupStep f plain (heard f plain s1)

/-- SERIAL_RELEASE: the frame's turn has come (R197); in an activation pause frames wait in the store (18 R463). -/
def serialRelease (id : Nat) (s : State) : State :=
  match frame? s id with
  | none => s
  | some f =>
    if !dirUp s || s.fw.pause.isSome || f.stage != .serial || !serialTurn s f then s
    else if cannotUse s f.handle then dropFrame9 f s
    else valuesAt f.endTime (runFrame f) (touch f.handle s)

/-! ### Enrolment (R183 to R187) -/

/-- One entry of Table 07-4, and what lies in its reserved bits. -/
structure EnrolIn where
  addr : DWord
  handle : Nat
  attach : Nat
  reportS : Nat
  supervS : Nat
  cls : Nat
  profile : Nat
  rsv : Nat
  deriving DecidableEq, Repr

def enrolIn (p : List Byte) (i : Nat) : EnrolIn :=
  let o := 4 + 24 * i
  { addr := BitVec.ofNat 64 (rd p o 8), handle := rd p (o + 8) 3, attach := rd p (o + 11) 1, reportS := rd p (o + 12) 4,
    supervS := rd p (o + 16) 4, cls := rd p (o + 20) 1, profile := rd p (o + 21) 1, rsv := rd p (o + 22) 2 }

def enPlc (x : EnrolIn) : Bool := bit x.attach 0
def enPort (x : EnrolIn) : Nat := bits x.attach 4 1

/-- An entry that is wrong in itself or beside those before it (R186). -/
def enrolBadParam (s : State) (seen : List EnrolIn) (x : EnrolIn) : Bool :=
  x.addr == 0 || x.addr == 0xFFFFFFFFFFFFFFFF || seen.any (fun y => y.addr == x.addr || y.handle == x.handle)
    || s.eps.any (fun e => e.2.addr == x.addr) || s.camps.any (fun c => c.2.multicast && c.2.groupAddr == x.addr) || 2 ^ 20 ≤ x.handle || x.rsv != 0 || 4 < x.cls || 63 < x.profile
    || (!enPlc x && (bit x.attach 5 || enPort x != 0)) || 2592000 < x.reportS || 31536000 < x.supervS

/-- The first entry, with its index, that a test finds bad beside those before it. -/
def firstBadSeen (bad : List EnrolIn → EnrolIn → Bool) : List EnrolIn → Nat → List EnrolIn → Option Nat
  | _, _, [] => none
  | seen, i, x :: rest => if bad seen x then some i else firstBadSeen bad (x :: seen) (i + 1) rest

def plcCount (s : State) : Nat := (s.eps.filter (fun e => e.2.plc)).length

/-- A PLC entry that finds no resource: the variant, the port, or the number of PLC endpoints. -/
def enrolNoRes (s : State) (seen : List EnrolIn) (x : EnrolIn) : Bool :=
  enPlc x && (isXn7440 s || !plcListed s (enPort x) || 262144 ≤ plcCount s + (seen.filter enPlc).length)

/-- The endpoint as it is enrolled (R187, 10 R264). -/
def newEndpoint (s : State) (x : EnrolIn) : Endpoint :=
  { addr := x.addr, plc := enPlc x, port := enPort x, relay := bit x.attach 5, isNew := bit x.attach 6, susp := bit x.attach 7,
    adm := .pending, cls := x.cls, profile := x.profile, reportS := x.reportS, reportIn := x.reportS, supervS := x.supervS, supFrom := s.now,
    img := freshImage (secs s) 0xFF }

/-- Place the entries in PENDING one by one; the index of the first that finds no place (R183, R186). -/
def placeAll : List EnrolIn → Nat → State → State × Option Nat
  | [], _, s => (s, none)
  | x :: rest, i, s =>
    let s1 := { s with eps := tset s.eps x.handle (newEndpoint s x) }
    match insertEp x.handle x.addr (enPlc x) .pending s1 with
    | none => ({ s1 with eps := tdel s1.eps x.handle }, some i)
    | some s2 => placeAll rest (i + 1) (noteStash s.dir.stash.length s2)

/-- Take back the entries of a batch: the moves made for them stay (R186). -/
def unplaceAll (xs : List EnrolIn) (s : State) : State :=
  xs.foldl (fun s x => removeSlot x.handle { s with eps := tdel s.eps x.handle }) s

/-- The image that a restored page holds for the handle's own address meets a NEW endpoint, or serves one that is not (10 R288). -/
def enrolHistory (h : Nat) (s : State) : State :=
  match ep? s h with
  | none => s
  | some e =>
    if e.isNew then
      match tfind s.ledger.kept h with
      | some k =>
        let s1 := if k.1 = e.addr && ledgerOk s then commitOne (handleEntry h (.historyIgnored h k.2.1.pseq)) s else s
        { s1 with ledger.kept := tdel s1.ledger.kept h }
      | none => s
    else if s.ledger.restore = 0 || isPending s (h / 16) then s
    else
      match tfind s.ledger.kept h with
      | some k => restoreSlot h (some (k.1, k.2.1)) k.2.2 { s with ledger.kept := tdel s.ledger.kept h }
      | none => restoreSlot h none 0 s

/-- An entry of the batch switches from PENDING to its target state (R183, Table 07-3). -/
def enrolSwitch (s : State) (x : EnrolIn) : State :=
  let st : Adm := if bit x.attach 6 then (if bit x.attach 7 then .suspended else .admitted) else .restoring
  let s1 := enrolHistory x.handle (dirtyPage (x.handle / 16) (setAdm x.handle st s))
  if !bit x.attach 6 && (ep? s1 x.handle).any (fun e => e.adm != .restoring) then rebuildEp x.handle s1 else s1

/-- ENROL (R185, R186). (DEDUCED: log 86) -/
def enrol (r : Req) (s : State) : Reply :=
  let p := r.payload
  let n := rd p 0 2
  let xs := (List.range n).map (enrolIn p)
  if s.dir.rehash = 2 || s.dir.kdir.isNone then .wait s
  else if !zeroAt p 2 2 then refuse s .badParam (idxPayload 0)
  else if 2048 < n then refuse s .badParam (idxPayload 2048)
  else
    match firstBadSeen (enrolBadParam s) [] 0 xs with
    | some i => refuse s .badParam (idxPayload i)
    | none =>
      match firstBad (fun (x : EnrolIn) => thas s.eps x.handle) xs 0 with
      | some i => refuse s .badState (idxPayload i)
      | none =>
        match firstBadSeen (enrolNoRes s) [] 0 xs with
        | some i => refuse s .noResource (idxPayload i)
        | none =>
          match placeAll xs 0 s with
          | (s1, some i) => refuse (unplaceAll xs s1) .noResource (idxPayload i)
          | (s1, none) => .twice (xs.foldl enrolSwitch s1) .ok []

/-! ### Withdrawal, admission and updates (R184, R188 to R190) -/

/-- A connection of the endpoint ends as CONNECT_CLOSE would end it (R184). -/
def closeConn (h : Nat) (s : State) : State :=
  match ep? s h with
  | none => s
  | some e =>
    if e.air == .opening then endConnection h outClosed .tracking s
    else if e.air == .connected then updEp h (fun e => { e with closing := true }) s
    else s

/-- One endpoint moves to RETIRING (R184). -/
def retire (h : Nat) (s : State) : State :=
  let hold := s.mono + tSec (pval s 0x4004)
  let s1 := noteEp h (fun e => { e with retireAt := some hold }) (setAdm h .retiring s)
  withdrawClose h (dropTxns h (closeConn h s1))

/-- Handles of a request in the layout of WITHDRAW. -/
def listedHandles (p : List Byte) : List Nat := (List.range (rd p 0 2)).map (fun i => rd p (4 + 4 * i) 4)

/-- A handle that is not enrolled, or withdrawn already, be it earlier in the batch. (DEDUCED: log 87) -/
def badWithdraw (s : State) : List Nat → Nat → List Nat → Option Nat
  | _, _, [] => none
  | seen, i, h :: rest =>
    let bad := seen.contains h || (match ep? s h with
      | some e => e.adm == .retiring || e.adm == .pending
      | none => true)
    if bad then some i else badWithdraw s (h :: seen) (i + 1) rest

/-- WITHDRAW (R188). -/
def withdraw (r : Req) (s : State) : Reply :=
  let p := r.payload
  let hs := listedHandles p
  if s.dir.rehash = 2 then .wait s
  else if !zeroAt p 2 2 then refuse s .badParam (idxPayload 0)
  else if 8192 < hs.length then refuse s .badParam (idxPayload 8192)
  else
    match firstBad (fun h => decide (2 ^ 20 ≤ h)) hs 0 with
    | some i => refuse s .badParam (idxPayload i)
    | none =>
      match badWithdraw s [] 0 hs with
      | some i => refuse s .badState (idxPayload i)
      | none =>
        let s1 := hs.foldl (fun s h => retire h s) s
        if hs.isEmpty then .twice s1 .ok [] else .pend s1 (hs.map Obj.handle)

/-- Handle, reserved bits and action of an entry of ADMIT_STATE_SET. -/
def admitEntry (p : List Byte) (i : Nat) : Nat × Nat × Nat :=
  let w := rd p (4 + 4 * i) 4
  (bits w 19 0, bits w 23 20, bits w 31 24)

/-- Table 07-3 takes ADMIT and SUSPEND in ADMITTED and SUSPENDED only. -/
def admitsChange (s : State) (h : Nat) : Bool :=
  match ep? s h with
  | some e => e.adm == .admitted || e.adm == .suspended
  | none => false

/-- ADMIT_STATE_SET (R189). -/
def admitStateSet (r : Req) (s : State) : Reply :=
  let p := r.payload
  let n := rd p 0 2
  let xs := (List.range n).map (admitEntry p)
  if !zeroAt p 2 2 then refuse s .badParam (idxPayload 0)
  else if 8192 < n then refuse s .badParam (idxPayload 8192)
  else
    match firstBad (fun (x : Nat × Nat × Nat) => x.2.1 != 0 || (x.2.2 != 1 && x.2.2 != 2)) xs 0 with
    | some i => refuse s .badParam (idxPayload i)
    | none =>
      match firstBad (fun (x : Nat × Nat × Nat) => !admitsChange s x.1) xs 0 with
      | some i => refuse s .badState (idxPayload i)
      | none => replyOk (xs.foldl (fun s x => setAdm x.1 (if x.2.2 = 1 then .admitted else .suspended) s) s)

/-- Offset of entry i of ENDPOINT_UPDATE. -/
def updOff (i : Nat) : Nat := 4 + 12 * i

def updBad (s : State) (p : List Byte) (i : Nat) : Bool :=
  let o := updOff i
  2 ^ 20 ≤ rd p o 4 || !thas s.eps (rd p o 4) || 2592000 < rd p (o + 4) 4 || 8760 < rd p (o + 8) 2 || 63 < rd p (o + 10) 1
    || !zeroAt p (o + 11) 1

/-- OBIS and UNIT of the KIND 1 entries, in order. -/
def kind1Keys (qs : List QEntry) : List (Nat × Nat) := (qs.filter (fun q => q.kind == 1)).map (fun q => (q.obis, q.unit))

def profileEntries (s : State) (profile : Nat) : List QEntry := (List.range 16).map (qEntry s profile)

/-- The endpoint takes a profile: one whose KIND 1 entries differ clears the last time of every slot (09 R241). -/
def takeProfile (h new_ : Nat) (s : State) : State :=
  match ep? s h with
  | none => s
  | some e =>
    let s1 := updEp h (fun e => { e with profile := new_ }) s
    if kind1Keys (profileEntries s e.profile) == kind1Keys (profileEntries s new_) then s1
    else updImg h (fun i => { i with slots := tmap i.slots (fun _ c => { c with time := 0 }) }) s1

/-- ENDPOINT_UPDATE (R190). -/
def endpointUpdate (r : Req) (s : State) : Reply :=
  let p := r.payload
  let n := rd p 0 2
  if !zeroAt p 2 2 then refuse s .badParam (idxPayload 0)
  else if 8192 < n then refuse s .badParam (idxPayload 8192)
  else
    match firstBad (updBad s p) (List.range n) 0 with
    | some i => refuse s .badParam (idxPayload i)
    | none =>
      replyOk ((List.range n).foldl (fun s i =>
        let o := updOff i
        takeProfile (rd p o 4) (rd p (o + 10) 1) (updEp (rd p o 4) (fun e =>
          { e with reportS := rd p (o + 4) 4, supervS := 3600 * rd p (o + 8) 2 }) s)) s)

/-! ### Reads and counters (R203, R204, R206) -/

/-- ATTACH as enrolled (Table 07-4). -/
def attachByte (e : Endpoint) : Nat :=
  b2n e.plc + 2 * e.port + 32 * b2n e.relay + 64 * b2n e.isNew + 128 * b2n e.susp

/-- ENDPOINT_GET. -/
def endpointGet (r : Req) (s : State) : Reply :=
  match (handleWord r.payload 0).bind (fun h => (ep? s h).map (fun e => (h, e))) with
  | none => refuse s .badParam
  | some (h, e) =>
    replyOk (touch h s) (le 8 e.addr.toNat ++ le 4 h ++ le 1 (admCode e.adm + 8 * b2n e.plc) ++ le 1 (attachByte e) ++ le 1 e.cls ++ le 1 e.profile
      ++ le 4 e.reportS ++ le 4 e.supervS ++ le 4 e.img.fcntTop ++ le 8 e.img.win.toNat ++ le 4 e.dcnt ++ le 4 e.dupCnt.toNat
      ++ le 4 e.staleCnt.toNat)

/-- ADDR_LOOKUP. -/
def addrLookup (r : Req) (s : State) : Reply :=
  let f := lookup s (BitVec.ofNat 64 (rd r.payload 0 8))
  replyOk (countLookup f s) (match f with
    | some f => le 4 f.handle ++ le 1 (admCode f.state + 8 * b2n f.plc) ++ le 1 (if f.inStash then 2 else 1) ++ le 2 0
    | none => le 4 0xFFFFFFFF ++ le 4 0)

/-- TALLY_GET. -/
def tallyGetOp (r : Req) (s : State) : Reply :=
  let first := rd r.payload 0 4
  let n := rd r.payload 4 2
  if !zeroAt r.payload 6 2 || 256 < n || 2 ^ 20 ≤ first || 2 ^ 20 < first + n then refuse s .badParam
  else
    replyOk ((List.range n).foldl (fun s i => touch (first + i) s) s) (((List.range n).map (fun i =>
      le 4 (first + i) ++ (match ep? s (first + i) with
        | some e => tallyBytes e.img.tally
        | none => le 16 0))).flatten)

/-- TALLY_CLEAR: all seven fields are zeroed, and a record holds what they held (R203). -/
def tallyClear (r : Req) (s : State) : Reply :=
  match (handleWord r.payload 0).bind (fun h => (ep? s h).map (fun e => (h, e))) with
  | none => refuse s .badParam
  | some (h, e) => replyOk (record rcTallyClear (le 4 h ++ tallyBytes e.img.tally) (updImg h (fun i => { i with tally := {} }) s))

def admCount (s : State) (a : Adm) : Nat := (s.eps.filter (fun e => e.2.adm == a)).length

/-- DIR_STATUS_GET (Table 07-12). -/
def dirStatus (s : State) : List Byte :=
  le 4 s.eps.length ++ le 4 (admCount s .admitted) ++ le 4 (admCount s .restoring) ++ le 4 (admCount s .suspended)
    ++ le 4 (admCount s .retiring) ++ le 4 (plcCount s) ++ le 2 s.dir.stash.length ++ le 1 s.dir.rehash ++ le 1 0
    ++ le 4 s.dir.lookups.toNat ++ le 4 s.dir.notFound.toNat ++ le 4 s.dir.aliases.toNat ++ le 4 s.dir.dups.toNat
    ++ le 4 s.dir.stales.toNat ++ le 4 s.dir.deferred.toNat ++ le 4 s.dir.mediumMis.toNat ++ le 4 s.dir.suspFrames.toNat
    ++ le 4 s.dir.keyUnav.toNat

/-- DIR_REHASH: it starts a rehash, or joins the one that is queued or running (R180, R206). -/
def dirRehash (s : State) : Reply :=
  if s.dir.rehash = 0 && busyFor .rh s then refuse s .busyMaint else .pend (queueRehash s) []

/-- One record of UNKNOWN_GET; an entry not in use reads as zeros. -/
def unknownRecord (s : State) (i : Nat) : List Byte :=
  match s.dir.unknown[i]? with
  | some x => le 8 x.addr.toNat ++ le 4 x.count ++ le 4 x.last ++ le 1 x.port ++ le 1 x.medium ++ leI 2 x.rssi ++ le 4 0
  | none => le 24 0

/-- UNKNOWN_GET. -/
def unknownGet (r : Req) (s : State) : Reply :=
  let first := rd r.payload 0 2
  let n := rd r.payload 2 2
  if 64 < n || 1024 < first + n then refuse s .badParam
  else replyOk s (((List.range n).map (fun i => unknownRecord s (first + i))).flatten)

/-- The handles that a batch names, as objects. -/
def listObjs (r : Req) (_ : State) : List Obj := (listedHandles r.payload).map Obj.handle

def enrolObjs (r : Req) (_ : State) : List Obj :=
  (List.range (rd r.payload 0 2)).map (fun i => Obj.handle (enrolIn r.payload i).handle)

def admitObjs (r : Req) (_ : State) : List Obj :=
  (List.range (rd r.payload 0 2)).map (fun i => Obj.handle (admitEntry r.payload i).1)

def updObjs (r : Req) (_ : State) : List Obj := (List.range (rd r.payload 0 2)).map (fun i => Obj.handle (rd r.payload (updOff i) 4))

def enrolService : Service := { opcode := 0x0400, lenOk := varLen 4 24 2 0, objs := enrolObjs, run := fun _ r s => enrol r s }

def withdrawService : Service := { opcode := 0x0401, lenOk := varLen 4 4 2 0, objs := listObjs, run := fun _ r s => withdraw r s }

def admitStateSetService : Service :=
  { opcode := 0x0402, lenOk := varLen 4 4 2 0, objs := admitObjs, run := fun _ r s => admitStateSet r s }

def endpointUpdateService : Service :=
  { opcode := 0x0403, lenOk := varLen 4 12 2 0, objs := updObjs, run := fun _ r s => endpointUpdate r s }

def endpointGetService : Service := { opcode := 0x0404, lenOk := lenIs 4, run := fun _ r s => endpointGet r s }

def addrLookupService : Service := { opcode := 0x0405, lenOk := lenIs 8, run := fun _ r s => addrLookup r s }

def tallyGetService : Service := { opcode := 0x0406, lenOk := lenIs 8, run := fun _ r s => tallyGetOp r s }

def tallyClearService : Service := { opcode := 0x0407, lenOk := lenIs 4, objs := handleObj, run := fun _ r s => tallyClear r s }

def dirStatusGetService : Service := { opcode := 0x0408, lenOk := payloadFree, run := fun _ _ s => replyOk s (dirStatus s) }

def dirRehashService : Service := { opcode := 0x0409, lenOk := payloadFree, run := fun _ _ s => dirRehash s }

def unknownGetService : Service := { opcode := 0x040A, lenOk := lenIs 4, run := fun _ r s => unknownGet r s }

def unknownClearService : Service :=
  { opcode := 0x040B, lenOk := payloadFree, run := fun _ _ s => replyOk { s with dir.unknown := [] } }

/-! ### Meanings -/

def execDirectoryAirPacket (lane : Nat) (s : State) : Host.Outcome State Fault Refusal := .next (directoryAir lane s)

def execDirectoryPlcPacket (q : Nat) (s : State) : Host.Outcome State Fault Refusal := .next (directoryPlc q s)

def execSerialRelease (frame : Nat) (s : State) : Host.Outcome State Fault Refusal := .next (serialRelease frame s)

def execFetchBufferFree (s : State) : Host.Outcome State Fault Refusal := .next (fetchBufferFree s)

def execContextFetchComplete (h : Nat) (ue : FetchIn) (s : State) : Host.Outcome State Fault Refusal := .next (fetchComplete h ue s)

def execWritebackDone (h : Nat) (s : State) : Host.Outcome State Fault Refusal := .next (writebackDone h s)

def execRetirementComplete (h : Nat) (s : State) : Host.Outcome State Fault Refusal := .next (retirementComplete h s)

def execRetireHoldExpiry (h : Nat) (s : State) : Host.Outcome State Fault Refusal := .next (retireHold h s)

def execRehashEnd (s : State) : Host.Outcome State Fault Refusal := .next (rehashEnd s)

def execEnrol (r : Req) (s : State) : Host.Outcome State Fault Refusal := .next (serve enrolService r s)

def execWithdraw (r : Req) (s : State) : Host.Outcome State Fault Refusal := .next (serve withdrawService r s)

def execAdmitStateSet (r : Req) (s : State) : Host.Outcome State Fault Refusal := .next (serve admitStateSetService r s)

def execEndpointUpdate (r : Req) (s : State) : Host.Outcome State Fault Refusal := .next (serve endpointUpdateService r s)

def execEndpointGet (r : Req) (s : State) : Host.Outcome State Fault Refusal := .next (serve endpointGetService r s)

def execAddrLookup (r : Req) (s : State) : Host.Outcome State Fault Refusal := .next (serve addrLookupService r s)

def execTallyGet (r : Req) (s : State) : Host.Outcome State Fault Refusal := .next (serve tallyGetService r s)

def execTallyClear (r : Req) (s : State) : Host.Outcome State Fault Refusal := .next (serve tallyClearService r s)

def execDirStatusGet (r : Req) (s : State) : Host.Outcome State Fault Refusal := .next (serve dirStatusGetService r s)

def execDirRehash (r : Req) (s : State) : Host.Outcome State Fault Refusal := .next (serve dirRehashService r s)

def execUnknownGet (r : Req) (s : State) : Host.Outcome State Fault Refusal := .next (serve unknownGetService r s)

def execUnknownClear (r : Req) (s : State) : Host.Outcome State Fault Refusal := .next (serve unknownClearService r s)

end Sys2Proof.Machine
end

