-- ==== Sys2Proof/Machine/Memory.lean ====
section
/-! DEFINITION. Engine DRAM: patrol scrub, soft repair, recovery by region, and the memory status (08 R213, R214, R230, R232). -/

namespace Sys2Proof.Machine

/-! ### Uncorrectable bursts by region (Table 08-7) -/

/-- A sealed page that awaits confirmation is sealed again and exported in place of the lost copy. (DEDUCED: log 93) -/
def resealPage (p : Nat) (s : State) : State :=
  if (page s p).awaiting then
    let v := sealedVer s p
    let s1 := sealPage p { s with ledger.exportQ := s.ledger.exportQ.filter (fun x => x != p) }
    { s1 with jnv.entries := s1.jnv.entries.map (fun e =>
        { e with needPages := e.needPages.map (fun x => if x = (p, v) then (p, v + 1) else x) }) }
  else s

/-- An endpoint polled DIRECT in Gale until the next route computation. -/
def directGale (h : Nat) (s : State) : State :=
  match ep? s h with
  | none => s
  | some e =>
    let gale := fun (l : PlcLink) => { l with mode := 2 }
    updLink e.port (some h) none gale (updLink e.port none (some h) gale (updEp h (fun e => { e with path := none }) s))

/-- A custody entry is gone. -/
def loseCustody (h f : Nat) (s : State) : State :=
  noteEp h (fun e => { e with evCustody := e.evCustody.filter (fun x => x != f), plcCustody := e.plcCustody.filter (fun x => x != f) })
    { s with sectors := tmap s.sectors (fun _ x => { x with custody := x.custody.filter (fun c => !(c.handle == h && c.fcnt == f)) }) }

/-- A campaign's content is lost: it pauses until the host supplies it again. -/
def loseContent (c : Nat) (s : State) : State :=
  match camp? s c with
  | none => s
  | some x =>
    let s1 := updCamp c (fun x => { x with blocks := [], contentLost := true }) s
    if x.state == .running && ledgerOk s1 then setCampState c .paused s1 else s1

/-- A fault ends a running operation: HW_FAULT with the SEQ of the record, what the operation holds is given up, and a re-wrap raises its event
(R48, R229, R230; 13 R363, R369). A CONFIG_COMMIT ends at COMMIT_INSTANT (R59). -/
def failOp (id : Nat) (seq : List Byte) (s : State) : State :=
  if (s.cfg.accepted.map (fun a => a.1)) == some id then s
  else
    let s1 := match s.keys.rewrap with
      | some w => if w.pendId = id then raise 0x82 (dropToken .kr { s with keys.rewrap := none }) else s
      | none => s
    let s2 := match s1.slate.dump with
      | some d => if d.pendId = id then unbindChan d.chan { s1 with slate.dump := none } else s1
      | none => s1
    let s3 := if s2.prov.stopping == some id then { s2 with prov.stopping := none } else s2
    let s4 := if s3.ops.any (fun o => o.id == id && o.opcode == 0x0409 && o.kind == .running) then dropToken .rh { s3 with dir.rehash := 0 } else s3
    finishOp id .hwFault seq s4

/-- Recovery of the item at the burst, where it belongs to the burst's region; an operation ends in HW_FAULT with the SEQ of the burst's record. -/
def recoverItem (region : Nat) (it : UeItem) (seq : List Byte) (s : State) : State :=
  match region, it with
  | 4, .link i => { s with plcMac.links := (s.plcMac.links.zipIdx.filter (fun x => x.2 != i)).map (fun x => x.1) }
  | 4, .path i => (s.eps.filter (fun e => e.2.path == some i)).foldl (fun s e => directGale e.1 s) { s with plcMac.paths := tdel s.plcMac.paths i }
  | 5, .zone z => loseZone z s
  | 6, .calendar k => loseCal k s
  | 6, .camp c => loseContent c s
  | 7, .cells h => loseCells h s
  | 8, .custody h f => loseCustody h f s
  | 8, .op id => failOp id seq s
  | _, _ => s

/-- An uncorrectable burst at an engine address, and whether the mirror of a context is uncorrectable there too (R230): event and record, then
the recovery of its region. (DEDUCED: log 90) -/
def burstUe (a : Nat) (mirrorBad : Bool) (it : UeItem) (s : State) : State :=
  match regionOf a with
  | 0 =>
    let h := a / 512
    let k := a % 512 / 32
    if !thas s.eps h then noteUe a 0 s
    else if k < 8 then lowUe h [k] (if mirrorBad then [k] else []) s
    else imageUe h [k] s
  | 2 => resealPage ((a - 0x30000000) / 4096) (noteUe a 2 s)
  | 3 => blobUe a s
  | r =>
    let (q, s1) := faultSeq s (noteUe a r s)
    recoverItem r it q s1

/-- An uncorrectable word of on-chip SRAM: in the context cache as the same bytes of the context region, in the frame store at the cost of the
frame, under an operation at the cost of the operation (R229, R230). (DESIGN CHOICE: log 152) -/
def sramUe (x : SramUe) (mirrorBad : Bool) (s : State) : State :=
  match x with
  | .none => s
  | .cache h byte => if resident s h then burstUe (ctxAddr h + byte % 512 / 32 * 32) mirrorBad .none s else s
  | .frame id =>
    match frame? s id with
    | some f => frameDone f (if f.plc then notTheAnswer f.port (noteUe 0 8 s) else noteUe 0 8 s)
    | none => s
  | .op id =>
    let (q, s1) := faultSeq s (noteUe 0 8 s)
    failOp id q s1

/-- Bursts of installed DRAM (R213). -/
def burstCount (s : State) : Nat := s.mem.installedMiB * 32768

/-- Monotonic time at which the scrub reads the burst where it stands: a pass takes MEM_SCRUB_H hours, its bursts evenly spread (R213).
(DESIGN CHOICE: log 152) -/
def scrubDue (s : State) : Nat :=
  match s.mem.scrubFrom with
  | some t => t + s.mem.scrubPos * tSec (3600 * pval s 0xB800) / burstCount s
  | none => s.mono

/-- The scrub reads a burst: it is recovered by its region, or corrected and written back (R213, R230). -/
def scrubRead (x : ScrubIn) (s : State) : State :=
  if uncorrectable s x.here then burstUe (32 * s.mem.scrubPos) (uncorrectable s x.mirror) x.item s
  else noteCorrected (32 * s.mem.scrubPos) x.here s

/-- PATROL_SCRUB: the next burst is read when it is due, and written back if it was corrected (R213). -/
def patrolScrub (x : ScrubIn) (s : State) : State :=
  if burstCount s = 0 || (isl s 32).inReset then s
  else
    let s0 := advMono (scrubDue s) s
    let s1 := sramUe x.sram (uncorrectable s0 x.mirror) (scrubRead x s0)
    let from_ := s0.mem.scrubFrom.getD s0.mono
    if burstCount s ≤ s0.mem.scrubPos + 1 then
      { s1 with mem.scrubPos := 0, mem.scrubPasses := s1.mem.scrubPasses + 1,
                mem.scrubFrom := some (max s1.mono (from_ + tSec (3600 * pval s 0xB800))) }
    else { s1 with mem.scrubPos := s0.mem.scrubPos + 1, mem.scrubFrom := some from_ }

/-- The soft repair at hand is over: the next one asks for its token (R214). -/
def nextRepair (s : State) : State :=
  match s.mem.repairWait with
  | [] => { s with mem.repairReq := none }
  | x :: rest => askToken .sr { s with mem.repairReq := some x, mem.repairWait := rest }

/-- The row is repaired, written back and recorded in the repair ledger (R214; 19 R487). -/
def repairRow (r row : Nat) (s : State) : State :=
  setRank r (fun x => { x with rows := x.rows.filter (fun e => e.1 != row), repaired := x.repaired ++ [row] }) (addRepair 4 1 (rowObj r row) s)

/-- SOFT_REPAIR: with its token the row is copied, repaired, written back and recorded; or its rank has no resource left, and takes no further
repair (R214). (DESIGN CHOICE: log 91) -/
def softRepair (ok : Bool) (s : State) : State :=
  match s.mem.repairReq with
  | none => s
  | some (r, row) =>
    if !holds .sr s then s
    else
      let s1 := if (rank? s r).noPpr then s
        else if ok then repairRow r row s
        else setRank r (fun x => { x with noPpr := true }) s
      nextRepair (raise 0xBB (dropToken .sr s1))

/-! ### MEM_STATUS_GET -/

def trainedRanks (s : State) : Nat := (s.mem.ranks.filter (fun e => e.2.trained)).length

/-- Soft repairs in force. -/
def repairsInForce (s : State) : Nat := (s.mem.ranks.map (fun e => e.2.repaired.length)).sum

/-- Table 08-10. -/
def memStatus (s : State) : List Byte :=
  le 4 s.mem.installedMiB ++ le 1 (trainedRanks s) ++ le 1 ((rank? s 0).marked.getD 0xFF) ++ le 1 ((rank? s 1).marked.getD 0xFF) ++ le 1 0
    ++ le 4 s.mem.corrected.toNat ++ le 4 s.mem.uncorrectable.toNat ++ le 4 s.mem.ctxRebuilt.toNat ++ le 4 s.mem.imgRebuilt.toNat
    ++ le 4 s.mem.ctxLost.toNat ++ le 4 s.mem.scrubPasses.toNat ++ le 2 (repairsInForce s) ++ le 2 s.mem.peakFetch ++ le 4 s.mem.passThrus.toNat

def memStatusGetService : Service := { opcode := 0x0B85, lenOk := payloadFree, acc := 0, run := fun _ _ s => replyOk s (memStatus s) }

/-! ### Meanings -/

def execPatrolScrub (res : ScrubIn) (s : State) : Host.Outcome State Fault Refusal := .next (patrolScrub res s)

def execSoftRepair (ok : Bool) (s : State) : Host.Outcome State Fault Refusal := .next (softRepair ok s)

def execMemStatusGet (r : Req) (s : State) : Host.Outcome State Fault Refusal := .next (serve memStatusGetService r s)

end Sys2Proof.Machine
end

