-- ==== Sys2Proof/Machine/Pipeline.lean ====
section
/-! DEFINITION. The reading pipeline: records, checks and actions, the commit of frame groups, provenance bundles, and export (09). -/

namespace Sys2Proof.Machine

/-! ### Records (R235, R236) -/

/-- A record of a reading payload (Table 09-1). -/
inductive RecIn where
  | register (qty : Nat) (scaler : Int) (age value : Nat)
  | tamper (code age : Nat)
  deriving DecidableEq, Repr

def recAge : RecIn → Nat
  | .register _ _ a _ => a
  | .tamper _ a => a

/-- The records of a payload, packed without gaps; none when one has no type or runs past the end. (DEDUCED: log 95) -/
def readRecords : Nat → List Byte → Option (List RecIn)
  | _, [] => some []
  | 0, _ => none
  | n + 1, p =>
    if rd p 0 1 = 1 && 12 ≤ p.length then
      (readRecords n (p.drop 12)).map (fun rs =>
        .register (rd p 1 1) (rdI p 2 1) (rd p 3 3) (rd p 6 6) :: rs)
    else if rd p 0 1 = 2 && 5 ≤ p.length then
      (readRecords n (p.drop 5)).map (fun rs => .tamper (rd p 1 1) (rd p 2 3) :: rs)
    else none

/-- A record that makes its payload malformed, against the endpoint's profile and the second of the frame's end (R236). -/
def recMalformed (qs : List QEntry) (endSec : Nat) (x : RecIn) : Bool :=
  endSec < recAge x || match x with
    | .register q _ _ _ => 15 < q || (qs.getD q {}).kind == 0
    | .tamper code _ => code == 0

/-- The records of a payload; none when it is malformed (R236). -/
def payloadRecords (qs : List QEntry) (endSec : Nat) (p : List Byte) : Option (List RecIn) :=
  match readRecords 64 p with
  | none => none
  | some rs => if rs.any (recMalformed qs endSec) then none else some rs

/-- The profile entries that judge a frame: those in force when it reached step 14 (R261). -/
def frameProfile (s : State) (f : Frame) (e : Endpoint) : List QEntry :=
  match f.prof with
  | some (n, qs) => if n = e.profile then qs else profileEntries s e.profile
  | none => profileEntries s e.profile

/-- The slot of a cumulative quantity among the entries that judge a frame (R237). -/
def slotAmong (qs : List QEntry) (qty : Nat) : Nat := ((qs.take qty).filter (fun q => q.kind == 1)).length

/-! ### Units, deltas and checks (R238 to R241) -/

/-- k of Table 09-3. -/
def unitK (unit : Nat) : Int :=
  match unit with
  | 1 => 3 | 2 => 3 | 3 => 6 | 4 => 3 | 5 => 2 | _ => 0

/-- VALUE as the entry's KIND reads it (Table 09-1). -/
def rawValue (q : QEntry) (value : Nat) : Int := if q.kind = 2 then toSigned 48 value else value

/-- VALUE in engine units; none when the conversion fails (R238). -/
def convert (q : QEntry) (scaler : Int) (value : Nat) : Option Int :=
  let e := scaler + unitK q.unit
  let v := rawValue q value * (10 ^ e.toNat : Nat)
  if e < 0 || 12 < e then none
  else if v < -(2 ^ 63) || 2 ^ 63 ≤ v then none
  else some v

/-- M of R240: 10^ROLL converted. -/
def rollSpan (q : QEntry) (scaler : Int) : Int := ((10 ^ q.roll * 10 ^ (scaler + unitK q.unit).toNat : Nat) : Int)

/-- The reading passed the register's rollover (R240). -/
def rolledOver (q : QEntry) (scaler v last : Int) : Bool :=
  q.roll != 0 && decide (v < last) && decide (rollSpan q scaler < 2 * (last - v))

/-- The delta of a cumulative reading (R240). -/
def deltaOf (q : QEntry) (scaler v last : Int) : Int :=
  if rolledOver q scaler v last then v + rollSpan q scaler - last else v - last

/-- Codes of the actions (Table 09-5). -/
def actNone : Nat := 0
def actFlag : Nat := 1
def actHold : Nat := 2
def actReject : Nat := 3
def actRebase : Nat := 4
def actOutOfOrder : Nat := 5
def actBaseline : Nat := 6

/-- The first of the actions in the order of R241. -/
def firstAction (as_ : List Nat) : Nat :=
  ([actOutOfOrder, actBaseline, actRebase, actReject, actHold, actFlag].find? (fun a => as_.contains a)).getD actNone

/-- What the checks of a REGISTER record come to: action, CHECKS bits 0 to 5, value (converted, or raw under SCALE), delta. -/
structure Judged where
  action : Nat
  checks : Nat
  value : Int
  delta : Int
  deriving DecidableEq, Repr

/-- Checks of a cumulative reading at reading time t (Table 09-4). NEG and RATE compare with a baseline, so a slot without one meets neither
(log 31). -/
def judgeCum (q : QEntry) (scaler v : Int) (age t : Nat) (c : CumSlot) : Judged :=
  let base := c.time != 0
  let roll := base && rolledOver q scaler v c.value
  let d := if base then deltaOf q scaler v c.value else 0
  let ooo := decide (t < c.time)
  let neg := base && decide (v < c.value) && !roll
  let rate := base && q.limit != 0 && decide (0 ≤ d)
    && q.actRate != 0 && decide ((q.limit.toNat : Int) * max 1 ((t : Int) - c.time) < d * 3600)
  let old := q.maxAge != 0 && decide (q.maxAge < age)
  let acts := (if ooo then [actOutOfOrder] else []) ++ (if base then [] else [actBaseline]) ++ (if neg then [q.actNeg] else [])
    ++ (if rate then [q.actRate] else []) ++ (if old then [q.actAge] else [])
  { action := firstAction acts, checks := b2n old + 2 * b2n neg + 4 * b2n rate + 32 * b2n roll, value := v, delta := d }

/-- Checks of an instantaneous reading: HOLD acts as FLAG (Table 09-4). -/
def judgeInst (q : QEntry) (v : Int) (age : Nat) : Judged :=
  let lo := toSigned 32 (q.limit.toNat % 2 ^ 32)
  let hi := toSigned 32 (q.limit.toNat / 2 ^ 32)
  let range := q.actRate != 0 && (decide (v < lo) || decide (hi < v))
  let old := q.maxAge != 0 && decide (q.maxAge < age)
  let acts := (if range then [q.actRate] else []) ++ (if old then [actFlag] else [])
  { action := firstAction acts, checks := b2n old + 8 * b2n range, value := v, delta := 0 }

/-- Every check on a REGISTER record (R241). -/
def judge (q : QEntry) (scaler : Int) (value age t : Nat) (c : CumSlot) : Judged :=
  match convert q scaler value with
  | none => { action := actReject, checks := 16, value := rawValue q value, delta := 0 }
  | some v => if q.kind = 1 then judgeCum q scaler v age t c else judgeInst q v age

/-! ### The group of a frame (R245) -/

/-- Age before the governing TIME entry, whose second is now; 0x7FFF is the escape (R244, R246). -/
def ageField (now t : Nat) : Nat := if now < t || 0x7FFF ≤ now - t then 0x7FFF else now - t

/-- The CONT entry of an escaped age. -/
def contAge (now t : Nat) : List JBody := if ageField now t = 0x7FFF then [.contTime t] else []

/-- A figure that the DELTA field holds (Table 09-5). -/
def deltaFits (d : Int) : Bool := decide (-(2 ^ 36) < d) && decide (d < 2 ^ 36)

/-- An entry of the group that yields an export record, with its CONT entries. -/
def exported (h : Nat) (x : ExpRec) (body : JBody) (conts : List JBody) : List JEntry :=
  { handleEntry h body with needBundle := true, exp := some x } :: conts.map (handleEntry h)

/-- PR of an entry of the handle that commits now (R252). -/
def prBit (s : State) (h : Nat) : Bool :=
  !trusted s || pval s 0x5800 == 1 || (pval s 0x5800 == 2 && s.prov.list.contains h)

/-- CHECKS bits 6 and 7: the time is untrusted; the frame came by power line. -/
def exportFlags (s : State) (f : Frame) : Nat := 64 * b2n (!trusted s) + 128 * b2n f.plc

/-- Bookings of a slot that wait for a lost calendar (08 R230). -/
def deferredSum (s : State) (h sl : Nat) : Nat :=
  ((s.ledger.deferred.filter (fun x => x.1 == h && x.2.slot == sl)).map (fun x => x.2.delta)).sum

/-- The counter of a slot, with the bookings that wait. -/
def counterOf (s : State) (h sl : Nat) : BitVec 40 :=
  match ep? s h with
  | none => 0
  | some e => tget e.img.total sl 0 + BitVec.ofNat 40 (deferredSum s h sl)

/-- Book a delta, or keep the booking until the endpoint's lost calendar is loaded again (R241, 08 R230). -/
def bookOrDefer (h : Nat) (b : Booking) (s : State) : State × List JBody :=
  match ep? s h with
  | none => (s, [])
  | some e =>
    if s.ledger.lostCals.contains e.tariffCal then ({ s with ledger.deferred := s.ledger.deferred ++ [(h, b)] }, [])
    else book h b s

/-- What a group has gathered so far: state, entries, ADJUST entries, values for switch feedback (QTY, reading time, value). -/
structure GroupAcc where
  st : State
  entries : List JEntry := []
  adjusts : List JBody := []
  values : List (Nat × Nat × Int) := []

/-- A reading that takes HOLD, REJECT or REBASE, 60 s after the last (R263). -/
def noteHeld (a : Nat) (s : State) : State :=
  if a = actHold || a = actReject || a = actRebase then
    let due := match s.prov.lastHeld with
      | none => true
      | some t => t + tSec 60 ≤ s.mono
    raiseIf due 0x5B { s with prov.lastHeld := some s.mono }
  else s

/-- The slot takes the value and reading time unless the reading is rejected or out of order (R241). -/
def takeSlot (h sl a : Nat) (v : Int) (t : Nat) (s : State) : State :=
  if a = actReject || a = actOutOfOrder then s
  else updImg h (fun i => { i with slots := tset i.slots sl { value := v, time := t } }) s

/-- A cumulative reading takes effect: booking, slot, interval cache (R241, 11 R304). -/
def commitCum (h : Nat) (f : Frame) (sl t : Nat) (c : CumSlot) (j : Judged) (s : State) : State × List JBody :=
  let k0 := counterOf s h sl
  let (s1, adj) := if j.action ≤ actHold then
      bookOrDefer h { slot := sl, from_ := c.time, to_ := t, delta := j.delta.toNat, at_ := secs s, untrusted := !trusted s,
                      hold := j.action == actHold, frameEnd := some (f.endTime / 2 ^ 24) } s
    else (s, [])
  let s2 := takeSlot h sl j.action j.value t s1
  (balReading h sl c.time t j.action (trusted s) (bit j.checks 1) k0 (counterOf s2 h sl) s2, adj)

/-- One record of a frame: its entries and everything that it changes (R239 to R245). -/
def commitRecord (h : Nat) (f : Frame) (e : Endpoint) (acc : GroupAcc) (x : RecIn) : GroupAcc :=
  let s := acc.st
  let now := secs s
  let t := f.endTime / 2 ^ 24 - recAge x
  let pr := prBit s h
  match x with
  | .tamper code _ =>
    let x : ExpRec :=
      { addr := e.addr, handle := h, rkind := 1, fcnt := f.fcnt, jseq := 0, time := t, value := code, delta := 0, qty := 0xFF,
        action := 0, checks := BitVec.ofNat 8 (exportFlags s f), profile := e.profile, pr := pr }
    { acc with st := place_ h t (trusted s) true (tallyInc h .reported s),
               entries := acc.entries ++ exported h x (.tamper h f.fcnt code (ageField now t) pr) (contAge now t) }
  | .register qty scaler age value =>
    let qs := frameProfile s f e
    let q := qs.getD qty {}
    let sl := slotAmong qs qty
    let c : CumSlot := match ep? s h with
      | some e => tget e.img.slots sl {}
      | none => {}
    let j := judge q scaler value age t c
    let (s1, adj) := if q.kind = 1 then commitCum h f sl t c j s else (s, [])
    let bills := q.kind == 1 && j.action ≤ actHold
    let contV := actReject ≤ j.action
    let field := if contV then 0 else if q.kind = 1 then j.delta else j.value
    let delta := if deltaFits field then field else -(2 ^ 36)
    let conts := contAge now t ++ (if contV then [.contValue j.value] else if deltaFits field then [] else [.contValue field])
    let x : ExpRec :=
      { addr := e.addr, handle := h, rkind := 0, fcnt := f.fcnt, jseq := 0, time := t, value := j.value,
        delta := if bills then j.delta else 0, qty := qty, action := j.action,
        checks := BitVec.ofNat 8 (j.checks + exportFlags s f), profile := e.profile, pr := pr }
    let s2 := noteHeld j.action (place_ h t (trusted s) false s1)
    { st := { s2 with prov.readings := s2.prov.readings + 1,
                      prov.nonNone := s2.prov.nonNone + if j.action = actNone then 0 else 1 },
      entries := acc.entries ++ exported h x (.reading h f.fcnt qty j.action (ageField now t) pr delta) conts,
      adjusts := acc.adjusts ++ adj,
      values := acc.values ++ (if bit j.checks 4 then [] else [(qty, t, j.value)]) }

/-- The FRAME entry of a malformed frame (R236). -/
def malformedEntry (h : Nat) (f : Frame) (e : Endpoint) (s : State) : JEntry :=
  let pr := prBit s h
  let x : ExpRec :=
    { addr := e.addr, handle := h, rkind := 2, fcnt := f.fcnt, jseq := 0, time := f.endTime / 2 ^ 24, value := 0, delta := 0,
      qty := 0xFF, action := 0, checks := BitVec.ofNat 8 (exportFlags s f), profile := e.profile, pr := pr }
  { handleEntry h (.frame h f.fcnt true pr) with needBundle := true, exp := some x }

/-- A malformed frame commits: counted, and event 0x5C after 60 s without one (R262, R263). -/
def noteMalformed (s : State) : State :=
  let due := match s.prov.lastMalf with
    | none => true
    | some t => t + tSec 60 ≤ s.mono
  raiseIf due 0x5C { s with prov.malformed := s.prov.malformed + 1, prov.lastMalf := some s.mono }

/-- What the payload of a frame comes to: the group's entries but for its LEDGER entries, and its effects on the ledger. -/
def commitPayload (f : Frame) (e : Endpoint) (s : State) : GroupAcc :=
  let h := f.handle
  if f.plain.isEmpty && !f.badLen then { st := s, entries := [handleEntry h (.frame h f.fcnt false (prBit s h))] }
  else
    match if f.badLen then none else payloadRecords (frameProfile s f e) (f.endTime / 2 ^ 24) f.plain with
    | none =>
      { st := place_ h (f.endTime / 2 ^ 24) (trusted s) false (noteMalformed s), entries := [malformedEntry h f e s] }
    | some rs => rs.foldl (commitRecord h f e) { st := s }

/-! ### Bundles (R252 to R255) -/

/-- The per-reading backlog has grown or shrunk: overflow begins or ends (R252). -/
def backlogCheck (s : State) : State :=
  let limit := pval s 0x5803
  if !s.prov.overflow && limit ≤ s.prov.backlog then raise 0x5A { s with prov.overflow := true }
  else if s.prov.overflow && s.prov.backlog ≤ limit / 2 then raise 0x5A { s with prov.overflow := false }
  else s

/-- The record is of the trust of the bundle's records. -/
def sameTrust (b : Bundle) (x : ExpRec) : Bool := b.records.all (fun r => r.checks.getLsbD 6 == x.checks.getLsbD 6)

/-- A record that was committed at an engine time joins the open BUNDLED bundle. -/
def joinOpen (at_ : Nat) (x : ExpRec) (s : State) : State :=
  let b := match s.prov.open_ with
    | some b => { b with records := b.records ++ [x] }
    | none => { mode := 0, records := [x], openTime := at_ }
  let s1 := { s with prov.open_ := some b }
  if pval s 0x5801 ≤ b.records.length then closeOpen s1 else s1

/-- A record joins the open PR_OVERFLOW bundle, which closes first before one of different TRUST. (DEDUCED: log 97) -/
def joinOvf (at_ : Nat) (x : ExpRec) (s : State) : State :=
  let s0 := match s.prov.openOvf with
    | some b => if sameTrust b x then s else closeOpenOvf s
    | none => s
  let b := match s0.prov.openOvf with
    | some b => { b with records := b.records ++ [x] }
    | none => { mode := 3, records := [x], openTime := at_ }
  let s1 := { s0 with prov.openOvf := some b }
  if pval s 0x5801 ≤ b.records.length then closeOpenOvf s1 else s1

/-- A record travels alone: mode PER_READING, or RECOVERY when its time is untrusted. An overflow bundle that is still open closes first, so
that its records stay consecutive in their class (R256; log 32). -/
def joinAlone (at_ : Nat) (x : ExpRec) (s : State) : State :=
  let s0 := closeOpenOvf s
  let b : Bundle :=
    { mode := if x.checks.getLsbD 6 then 2 else 1, records := [x], openTime := at_, closeTime := s.now }
  { s0 with prov.closedPr := s0.prov.closedPr ++ [b] }

/-- An export record that was committed at an engine time joins its bundle (R252). -/
def joinAt (at_ : Nat) (s : State) (x : ExpRec) : State :=
  if !x.pr then joinOpen at_ x s
  else
    let s1 := if s.prov.overflow then joinOvf at_ x s else joinAlone at_ x s
    backlogCheck { s1 with prov.backlog := s1.prov.backlog + 1 }

/-- An export record that commits now joins its bundle. -/
def joinBundle (s : State) (x : ExpRec) : State := joinAt s.now s x

/-! ### The commit (R245, R251) -/

/-- The window takes the frame counter; a jump is tallied, and the first top at 0xFFFF_0000 or above raises event 0x43 (R198, R200, R202). -/
def commitWindow (h fcnt : Nat) (s : State) : State :=
  match ep? s h with
  | none => s
  | some e =>
    let jump := match dedup e.img fcnt (pval s 0x4000) with
      | .accept true => true
      | _ => false
    let s1 := updImg h (takeFcnt fcnt) (if jump then tallyInc h .jump s else s)
    let was := e.img.win != 0 && 0xFFFF0000 ≤ e.img.fcntTop
    let high := (match ep? s1 h with
      | some e1 => decide (0xFFFF0000 ≤ e1.img.fcntTop)
      | none => false) && !was && !e.fcntHigh
    if high then raise 0x43 (updEp h (fun e => { e with fcntHigh := true }) s1) else s1

/-- Give the new entries' export records the sequence numbers of their entries. -/
def stampJseq (from_ : Nat) (s : State) : State :=
  { s with jnv.entries := s.jnv.entries.map (fun e =>
      if from_ ≤ e.jseq then { e with exp := e.exp.map (fun x => { x with jseq := e.jseq }) } else e) }

/-- Export records of the entries from a sequence number on. -/
def newRecords (from_ : Nat) (s : State) : List ExpRec :=
  (s.jnv.entries.filter (fun e => decide (from_ ≤ e.jseq))).filterMap (fun e => e.exp)

/-- LEDGER entries that the frame causes: adjustments, a downlink confirmation, switch feedback (R245). -/
def causedEntries (f : Frame) (acc : GroupAcc) (s : State) : List JEntry :=
  acc.adjusts.map (handleEntry f.handle)
    ++ (match f.dlConf with
      | some c => confEntries s f.handle c
      | none => [])
    ++ fbEntries s f.handle acc.values

/-- Everything that holds from the group's commit point on: window, custody, bundles, confirmation, feedback, the end of the frame. -/
def groupDone (f : Frame) (from_ : Nat) (values : List (Nat × Nat × Int)) (s : State) : State :=
  let h := f.handle
  let s1 := stampJseq from_ s
  let s2 := queueCustody h f.fcnt f.port f.deep (commitWindow h f.fcnt s1)
  let s3 := (newRecords from_ s1).foldl joinBundle s2
  let s4 := fbApply h values s3
  let s5 := match f.dlConf with
    | some c => confApply h c s4
    | none => s4
  frameDone f (settleAll (groupCommitted h s5))

/-- The frame at step 14 waits for the journal. -/
def waitJournal (f : Frame) (s : State) : State :=
  if f.stage == .commit then setFrame f.id (fun f => { f with stage := .journal s.mono }) s else s

/-- The frame's group commits, or the frame waits for the journal. -/
def commitFrame (f : Frame) (e : Endpoint) (s : State) : State :=
  let acc := commitPayload f e s
  let es := acc.entries ++ causedEntries f acc s
  if jnlTakesFrame es.length s then groupDone f s.jnv.head acc.values (jnlGroup es acc.st)
  else waitJournal f (if jnlRuns s && s.jnl.state == .normal then jnlFail es.length s else s)

/-- JOURNAL_GROUP_COMMIT: the frame at step 14 commits, or waits while the journal is not NORMAL (R245, R248). Indices of the array that have
gone bad read back wrong from now on, in this group and in every later one (R249). -/
def journalGroup (id : Nat) (bad : List Nat) (s0 : State) : State :=
  let s := if bad.isEmpty then s0 else { s0 with jnv.bad := s0.jnv.bad ++ bad }
  match frame? s id with
  | none => s
  | some f =>
    let at14 := match f.stage with
      | .commit => true
      | .journal _ => true
      | _ => false
    match ep? s f.handle with
    | none => s
    | some e =>
      if !at14 then s
      else if cannotUse s f.handle then dropFrame9 f s
      else valuesAt f.endTime (commitFrame f e) s

/-- JNL_FULL_WAIT_EXPIRY: the frame has waited JNL_FULL_WAIT_MS and the journal is still not NORMAL: it is discarded without commit (R248). -/
def jnlWaitExpiry (id : Nat) (s : State) : State :=
  match frame? s id with
  | none => s
  | some f =>
    match f.stage with
    | .journal since =>
      let s1 := advMono (since + tMs (pval s 0x5805)) s
      if s1.jnl.state = .normal then s1 else frameDone f { s1 with prov.waitDisc := s1.prov.waitDisc + 1 }
    | _ => s

/-- BUNDLE_TIMEOUT: PROV_BUNDLE_S after its first record (R255). -/
def bundleTimeout (overflow : Bool) (s : State) : State :=
  let until_ := fun (b : Bundle) => advTo (b.openTime + tSec (pval s 0x5802)) s
  if overflow then
    match s.prov.openOvf with
    | some b => closeOpenOvf (until_ b)
    | none => s
  else
    match s.prov.open_ with
    | some b => closeOpen (until_ b)
    | none => s

/-! ### Signing (R256, R277) -/

/-- The closed bundle that is signed next: in closing order, then those of one record in JSEQ order. -/
def nextToSign (s : State) : Option Bundle :=
  match s.prov.closed with
  | b :: _ => some b
  | [] => s.prov.closedPr.head?

def dropSigned (s : State) : State :=
  match s.prov.closed with
  | _ :: bs => { s with prov.closed := bs }
  | [] => { s with prov.closedPr := s.prov.closedPr.drop 1 }

/-- Signing stops, or resumes (R256, R263). -/
def setStopped (on : Bool) (s : State) : State :=
  if s.prov.stopped = on then s else raise 0x5A { s with prov.stopped := on }

/-- The bundle with its sequence and the slot that signs it (Table 09-7). -/
def toSign (b : Bundle) (s : State) : Bundle :=
  let slot := pval s 0x5804
  let n := if b.rebuilt then b.bseq else if b.stmts.isEmpty then s.prov.nextBseq else s.roots.sseq + 1
  { b with bseq := n, slot := slot, gen := BitVec.ofNat 32 (if slot = 0xFFFF then 0 else (kslot s slot).gen) }

/-- A signature is there: the bundle takes its place in its stream, and a bundle of records its BUNDLE entry. A statement bundle has none: its
counter lies in the ledger-roots area (10 R277; log 33). -/
def placeSigned (b : Bundle) (s : State) : State :=
  if !b.stmts.isEmpty then { s with roots.sseq := b.bseq, ledger.stmtSigned := s.ledger.stmtSigned ++ [b] }
  else if b.rebuilt then { s with prov.signed := s.prov.signed ++ [b] }
  else
    let first := (b.records.head?.map (fun r => r.jseq)).getD 0
    let entry := { ledgerEntry (.bundle b.bseq first b.records.length b.mode) with needBundle := true }
    let s1 := jnlGroup [entry] { s with prov.signed := s.prov.signed ++ [b], prov.nextBseq := b.bseq + 1 }
    if b.mode = 0 then s1
    else backlogCheck { s1 with prov.backlog := s1.prov.backlog - b.records.length, prov.lastPr := if b.mode = 3 then s1.prov.lastPr else some s1.mono }

/-- At most 400 signatures of single records fall within a second: the next comes 1/400 s after the last (R256). -/
def prSignDue (b : Bundle) (s : State) : State :=
  match s.prov.lastPr with
  | some t => if b.mode = 1 || b.mode = 2 then advMono (t + (2 ^ 24 + 399) / 400) s else s
  | none => s

/-- BUNDLE_SIGNED: the next closed bundle is signed, or signing stops because its slot, or the DRBG, refuses (R256, 13 R366). (DEDUCED: log 98) -/
def bundleSigned (s : State) : State :=
  match nextToSign s with
  | none => s
  | some b0 =>
    let b := toSign b0 s
    let entry := b.stmts.isEmpty && !b.rebuilt
    if !islUp s 30 || (entry && !jnlTakes 1 s) then s
    else
      match signWith b.slot (bundleHeader b) (prSignDue b s) with
      | (s1, none) => if s.prov.stopped then s else setStopped true s1
      | (s1, some (sig, _)) => placeSigned { b with sig := sig } (setStopped false (dropSigned s1))

/-! ### Opcodes (R261) -/

/-- A quantity entry at an offset (Table 09-2); OBIS as a number, least significant byte first. -/
def readQEntry (p : List Byte) (o : Nat) : QEntry :=
  { obis := rd p o 6, kind := rd p (o + 6) 1, unit := rd p (o + 7) 1, roll := rd p (o + 8) 1, actAge := rd p (o + 9) 1,
    actNeg := rd p (o + 10) 1, actRate := rd p (o + 11) 1, maxAge := rd p (o + 12) 4, limit := BitVec.ofNat 64 (rd p (o + 16) 8) }

def qEntryBytes (q : QEntry) : List Byte :=
  le 6 q.obis ++ le 1 q.kind ++ le 1 q.unit ++ le 1 q.roll ++ le 1 q.actAge ++ le 1 q.actNeg ++ le 1 q.actRate ++ le 4 q.maxAge
    ++ le 8 q.limit.toNat

/-- The fields of an entry are in their ranges; those of an unused entry are not judged (R261; log 34). -/
def qEntryOk (q : QEntry) : Bool :=
  if q.kind = 0 then true
  else
    q.kind ≤ 2 && 1 ≤ q.unit && q.unit ≤ 6 && (q.roll = 0 || (4 ≤ q.roll && q.roll ≤ 15)) && (q.actAge = 1 || q.actAge = 2)
      && q.maxAge ≤ 16777215
      && (if q.kind = 1 then (q.actNeg = 3 || q.actNeg = 4) && q.actRate ≤ 3
          else q.actNeg = 0 && (q.actRate ≤ 1 || q.actRate = 3)
            && decide (toSigned 32 (q.limit.toNat % 2 ^ 32) ≤ toSigned 32 (q.limit.toNat / 2 ^ 32)))

/-- Some KIND 1 entry of the old list would have another OBIS, UNIT or place. -/
def changesKind1 (old new_ : List (Nat × Nat)) : Bool := new_.take old.length != old

/-- Frames at step 14 whose endpoints use profile n keep the entries that judge them (R261). -/
def keepProfile (n : Nat) (s : State) : State :=
  let uses := fun (f : Frame) => match ep? s f.handle with
    | some e => e.profile == n
    | none => false
  let at14 := fun (f : Frame) => match f.stage with
    | .commit => true
    | .journal _ => true
    | _ => false
  { s with dir.frames := s.dir.frames.map (fun f =>
      if at14 f && uses f && f.prof.isNone then { f with prof := some (n, profileEntries s n) } else f) }

/-- PROFILE_SET (R237, R261). -/
def profileSet (r : Req) (s : State) : Reply :=
  let p := r.payload
  let n := rd p 0 1
  let qs := (List.range 16).map (fun i => readQEntry p (4 + 24 * i))
  if 63 < n || !zeroAt p 1 3 || !qs.all qEntryOk || 4 < (kind1Keys qs).length then refuse s .badParam
  else if s.eps.any (fun e => e.2.profile == n) && changesKind1 (kind1Keys (profileEntries s n)) (kind1Keys qs) then
    refuse s .badState
  else
    replyOk ((List.range 16).foldl (fun s i =>
      { s with prov.profiles := tset s.prov.profiles (16 * n + i) (readQEntry p (4 + 24 * i)) }) (keepProfile n s))

/-- PROFILE_GET. -/
def profileGet (r : Req) (s : State) : Reply :=
  let n := rd r.payload 0 1
  if 63 < n || !zeroAt r.payload 1 3 then refuse s .badParam
  else replyOk s ((profileEntries s n).map qEntryBytes).flatten

/-- PROV_LIST_ADD: all of its entries or none (R261). (DEDUCED: log 99) -/
def provListAdd (r : Req) (s : State) : Reply :=
  let p := r.payload
  let hs := listedHandles p
  if !zeroAt p 2 2 then refuse s .badParam (idxPayload 0)
  else
    match firstBad (fun h => 2 ^ 20 ≤ h || !thas s.eps h) hs 0 with
    | some i => refuse s .badParam (idxPayload i)
    | none =>
      let add := fun (l : List Nat) (h : Nat) => if l.contains h then l else l ++ [h]
      match (List.range hs.length).find? (fun i => 4096 < ((hs.take (i + 1)).foldl add s.prov.list).length) with
      | some i => refuse s .noResource (idxPayload i)
      | none => replyOk { s with prov.list := hs.foldl add s.prov.list }

/-- EXPORT_START (R257). -/
def exportStart (r : Req) (s : State) : Reply :=
  let c := rd r.payload 0 1
  if !zeroAt r.payload 1 3 || 32 ≤ c then refuse s .badParam
  else if s.prov.chan.isSome then refuse s .badState
  else
    match bindCheck c s with
    | some st => refuse s st
    | none => replyOk (bindChan c .exports { s with prov.chan := some c })

/-- A bundle is being written: part of it, or its descriptor, is under way. -/
def exportBusy (c : Nat) (s : State) : Bool := s.prov.offset != 0 || (chan s c).active.isSome

/-- EXPORT_STOP: PENDING until the bundle being written has ended; a stream that is not bound has none (R261; log 35). -/
def exportStop (id : Nat) (_ : Req) (s : State) : Reply :=
  match s.prov.chan with
  | none => .twice s .ok []
  | some c =>
    if exportBusy c s then .pend { s with prov.stopping := some id } [.channel c]
    else .twice (unbindChan c { s with prov.chan := none }) .ok []

/-- The last bundle written. -/
def lastWritten (s : State) : Nat := (s.prov.signed.filter (fun b => b.once)).foldl (fun m b => max m b.bseq) s.roots.bseqConf

/-- The bundles up to n are confirmed: their entries need them no more (R247, R258). -/
def confirmBundles (n : Nat) (s : State) : State :=
  let done := s.prov.signed.filter (fun b => b.bseq ≤ n)
  let jseqs := (done.map (fun b => b.records.map (fun r => r.jseq))).flatten
  let freed := fun (e : JEntry) => jseqs.contains e.jseq || match e.body with
    | .bundle b _ _ _ => decide (b ≤ n)
    | _ => false
  release { s with roots.bseqConf := n, prov.signed := s.prov.signed.filter (fun b => n < b.bseq),
                   jnv.entries := s.jnv.entries.map (fun e => if e.needBundle && freed e then { e with needBundle := false } else e) }

/-- EXPORT_CONFIRM (R258). (DEDUCED: log 101) -/
def exportConfirm (r : Req) (s : State) : Reply :=
  let n := rd r.payload 0 4
  if n ≤ s.roots.bseqConf then replyOk s
  else if lastWritten s < n then refuse s .badParam
  else
    let cut := (nextBundle s.prov.signed).any (fun b => b.bseq ≤ n)
    replyOk (confirmBundles n (if cut then exportStopped (streamAnew .exports { s with prov.offset := 0 }) else s))

/-- EXPORT_REWIND (R258). -/
def exportRewind (r : Req) (s : State) : Reply :=
  let n := rd r.payload 0 4
  if n ≤ s.roots.bseqConf || lastWritten s < n then refuse s .badParam
  else
    let again := s.prov.signed.map (fun b => if n ≤ b.bseq then { b with written := false } else b)
    replyOk { streamAnew .exports s with prov.offset := 0, prov.signed := again }

/-- PIPE_STATUS_GET (Table 09-12). -/
def pipeStatus (s : State) : List Byte :=
  le 4 s.jnv.head ++ le 4 s.jnv.tail ++ le 4 (jnlFree s) ++ le 4 s.prov.nextBseq ++ le 4 s.roots.bseqConf
    ++ le 4 s.prov.signed.length ++ le 4 s.prov.backlog
    ++ le 1 (if s.prov.stopped then 2 else b2n s.prov.overflow) ++ le 1 (jnlCode s.jnl.state) ++ le 2 0
    ++ le 4 s.prov.readings.toNat ++ le 4 s.prov.malformed.toNat ++ le 4 s.prov.waitDisc.toNat ++ le 4 s.prov.nonNone.toNat

def exportObjs (_ : Req) (s : State) : List Obj := s.prov.chan.toList.map Obj.channel

def profileSetService : Service := { opcode := 0x0580, lenOk := lenIs 388, run := fun _ r s => profileSet r s }
def profileGetService : Service := { opcode := 0x0581, lenOk := lenIs 4, run := fun _ r s => profileGet r s }
def provListAddService : Service :=
  { opcode := 0x0582, lenOk := varLen 4 4 2 0, objs := listObjs, run := fun _ r s => provListAdd r s }
def provListClearService : Service :=
  { opcode := 0x0583, lenOk := payloadFree, run := fun _ _ s => replyOk { s with prov.list := [] } }
def exportStartService : Service :=
  { opcode := 0x0584, lenOk := lenIs 4, ready := true, objs := fun r _ => [.channel (rd r.payload 0 1)], run := fun _ r s => exportStart r s }
def exportStopService : Service :=
  { opcode := 0x0585, lenOk := payloadFree, ready := true, objs := exportObjs, run := exportStop }
def exportConfirmService : Service := { opcode := 0x0586, lenOk := lenIs 4, run := fun _ r s => exportConfirm r s }
def exportFlushService : Service :=
  { opcode := 0x0587, lenOk := payloadFree, run := fun _ _ s => replyOk (closeOpenOvf (closeOpen s)) }
def pipeStatusGetService : Service := { opcode := 0x0588, lenOk := payloadFree, run := fun _ _ s => replyOk s (pipeStatus s) }
def exportRewindService : Service := { opcode := 0x0589, lenOk := lenIs 4, run := fun _ r s => exportRewind r s }

/-! ### Meanings -/

def execJournalGroupCommit (frame : Nat) (bad : List Nat) (s : State) : Host.Outcome State Fault Refusal :=
  .next (journalGroup frame bad s)

def execJnlFullWaitExpiry (frame : Nat) (s : State) : Host.Outcome State Fault Refusal := .next (jnlWaitExpiry frame s)

def execBundleTimeout (overflow : Bool) (s : State) : Host.Outcome State Fault Refusal := .next (bundleTimeout overflow s)

def execBundleSigned (s : State) : Host.Outcome State Fault Refusal := .next (bundleSigned s)

def execProfileSet (r : Req) (s : State) : Host.Outcome State Fault Refusal := .next (serve profileSetService r s)

def execProfileGet (r : Req) (s : State) : Host.Outcome State Fault Refusal := .next (serve profileGetService r s)

def execProvListAdd (r : Req) (s : State) : Host.Outcome State Fault Refusal := .next (serve provListAddService r s)

def execProvListClear (r : Req) (s : State) : Host.Outcome State Fault Refusal := .next (serve provListClearService r s)

def execExportStart (r : Req) (s : State) : Host.Outcome State Fault Refusal := .next (serve exportStartService r s)

def execExportStop (r : Req) (s : State) : Host.Outcome State Fault Refusal := .next (serve exportStopService r s)

def execExportConfirm (r : Req) (s : State) : Host.Outcome State Fault Refusal := .next (serve exportConfirmService r s)

def execExportFlush (r : Req) (s : State) : Host.Outcome State Fault Refusal := .next (serve exportFlushService r s)

def execPipeStatusGet (r : Req) (s : State) : Host.Outcome State Fault Refusal := .next (serve pipeStatusGetService r s)

def execExportRewind (r : Req) (s : State) : Host.Outcome State Fault Refusal := .next (serve exportRewindService r s)

end Sys2Proof.Machine
end

