-- ==== Sys2Proof/Machine/Campaign.lean ====
section
/-! DEFINITION. Campaigns: their opcodes, attempts and waits, multicast sessions, switch feedback, and the transmit gate (12 R320 to R346,
19 R471 to R479). -/

namespace Sys2Proof.Machine

/-! ### Creation and content (R320 to R322, R329) -/

/-- Content blocks held across all campaigns. -/
def blocksHeld (s : State) : Nat := (s.camps.map (fun y => if contentKind y.2.kind then campK y.2 else 0)).sum

def targetsHeld (s : State) : Nat := (s.camps.map (fun y => y.2.targets.length)).sum

/-- The held version of a calendar with the highest VERSION, the pending one included (R321). -/
def highestVer (s : State) (k : Nat) : Option CalVer :=
  let ci := calIdx s k
  (versOf s k ++ ci.due.toList ++ ci.pending.toList).foldl (fun (best : Option CalVer) v =>
    match best with
    | none => some v
    | some b => if b.version < v.version then some v else best) none

/-- Bytes as blocks of 256. -/
def blocksOf (p : List Byte) : Tbl (List Byte) :=
  (List.range ((p.length + 255) / 256)).map (fun i => (i, slice p (256 * i) 256))

/-- Fields of the header out of range, or not 0 where the kind requires 0 (R322). -/
def headerBadCamp (s : State) (p : List Byte) : Bool :=
  let kind := rd p 1 1
  let multi := bit (rd p 3 1) 1
  let obj := kind == 1 || kind == 2
  63 < rd p 0 1 || 4 < kind || 7 < rd p 2 1 || 4 ≤ rd p 3 1 || (multi && 3 ≤ kind) || rd p 4 1 == 0 || 15 < rd p 4 1
    || (if kind = 0 then !idxHeld s (rd p 5 1) else rd p 5 1 != 0xFF)
    || (if multi then !hasUsage (kslot s (rd p 6 2)) (uEncrypt + uMac + uWrap) else rd p 6 2 != 0xFFFF)
    || (if obj then rd p 8 4 == 0 || 1048576 < rd p 8 4 else rd p 8 4 != 0)
    || (if multi then
          s.eps.any (fun e => e.2.addr.toNat == rd p 16 8)
            || s.camps.any (fun y => y.2.multicast && y.2.groupAddr.toNat == rd p 16 8)
            || rd p 24 2 < 100 || 60000 < rd p 24 2
        else rd p 16 8 != 0 || rd p 24 2 != 0)
    || !zeroAt p 26 2 || (3 ≤ kind && rd p 28 4 != 0) || (!obj && !zeroAt p 32 32)

/-- CAMP_CREATE (R321, R322). A new campaign enters OPEN, and the entry of R323 says so (log 36). -/
def campCreate (r : Req) (s : State) : Reply :=
  let p := r.payload
  let c := rd p 0 1
  let kind := rd p 1 1
  let raw := if kind = 0 then ((highestVer s (rd p 5 1)).map (fun v => v.raw)).getD [] else []
  let size := if kind = 0 then raw.length else rd p 8 4
  if headerBadCamp s p then refuse s .badParam
  else if thas s.camps c || !ledgerOk s then refuse s .badState
  else if kind ≤ 2 && 131072 < blocksHeld s + (size + 255) / 256 then refuse s .noResource
  else
    let x : Camp :=
      { kind := kind, prio := rd p 2 1, closeIdle := bit (rd p 3 1) 0, multicast := bit (rd p 3 1) 1, retryMax := rd p 4 1,
        calIndex := rd p 5 1, groupSlot := rd p 6 2, size := size, deadline := rd p 12 4,
        groupAddr := BitVec.ofNat 64 (rd p 16 8), gapMs := rd p 24 2, activateAt := rd p 28 4,
        digest := if kind = 0 then Config.sha256 raw else slice p 32 32, stamp := secs s % 2 ^ 24, blocks := blocksOf raw }
    replyOk (setCampState c .open_ { s with camps := tset s.camps c x })

/-- CAMP named with 3 reserved bytes; none when it is not in use, or a reserved byte is not 0 (R345). -/
def campField (p : List Byte) (s : State) : Option (Nat × Camp) :=
  if !zeroAt p 1 3 then none else (camp? s (rd p 0 1)).map (fun x => (rd p 0 1, x))

/-- The object's bytes. -/
def objectBytes (x : Camp) : List Byte := (((List.range (campK x)).map (sourceBlock x)).flatten).take x.size

def contentComplete (x : Camp) : Bool := (List.range (campK x)).all (fun i => thas x.blocks i)

/-- CAMP_CONTENT (R329): in OPEN, and in PAUSED after its content was lost (R342). (DEDUCED: log 106) -/
def campContent (r : Req) (s : State) : Reply :=
  let p := r.payload
  let first := rd p 2 2
  let n := rd p 4 2
  match camp? s (rd p 0 1) with
  | none => refuse s .badParam
  | some x =>
    let last := first + n - 1
    let excess := 256 * campK x - x.size
    let stray := last + 1 = campK x && !zeroAt p (8 + 256 * n - excess) excess
    if !zeroAt p 1 1 || !zeroAt p 6 2 || n = 0 || 255 < n || campK x ≤ last || stray
        || !(x.kind == 1 || x.kind == 2 || (x.kind == 0 && x.contentLost)) then refuse s .badParam
    else if !(x.state == .open_ || (x.state == .paused && x.contentLost)) then refuse s .badState
    else
      replyOk (updCamp (rd p 0 1) (fun x => { x with
        blocks := (List.range n).foldl (fun b i => tset b (first + i) (slice p (8 + 256 * i) 256)) x.blocks }) s)

/-! ### Targets (R333, R337, R345) -/

/-- Target entry i: handle word and the 12 bytes of its kind. -/
def tgtHandle (p : List Byte) (i : Nat) : Nat := rd p (4 + 16 * i) 4

/-- A credit record that is WAITING or SENT in some campaign. -/
def creditLive (s : State) (h n : Nat) : Bool :=
  s.camps.any (fun y => y.2.kind == kindCredit && y.2.targets.any (fun t => t.handle == h && t.n == n && !finalState t.state))

/-- A target entry that is refused with BAD_PARAM (R345). -/
def tgtBad (s : State) (x : Camp) (p : List Byte) (seen : List Nat) (i : Nat) : Bool :=
  let o := 4 + 16 * i
  let h := tgtHandle p i
  match ep? s h with
  | none => true
  | some e =>
    2 ^ 20 ≤ h || seen.any (fun j => tgtHandle p j == h) || x.targets.any (fun t => t.handle == h)
      || (if x.kind = kindCredit then
            rd p (o + 4) 4 == 0 || rd p (o + 8) 4 == 0 || 2 ^ 31 ≤ rd p (o + 8) 4 || creditLive s h (rd p (o + 4) 4)
          else if x.kind = kindSwitch then
            let q := qEntry s e.profile (rd p (o + 5) 1)
            2 < rd p (o + 4) 1 || 15 < rd p (o + 5) 1 || q.kind != 2 || q.unit != 6 || !zeroAt p (o + 6) 10
          else !zeroAt p (o + 4) 12)

def firstBadTgt (s : State) (x : Camp) (p : List Byte) : Nat → List Nat → Nat → Option Nat
  | 0, _, _ => none
  | n + 1, seen, i => if tgtBad s x p seen i then some i else firstBadTgt s x p n (i :: seen) (i + 1)

/-- A CREDIT entry whose record the endpoint has not applied: it is issued (R333). -/
def issues (s : State) (x : Camp) (p : List Byte) (i : Nat) : Bool :=
  x.kind == kindCredit && (match ep? s (tgtHandle p i) with
    | some e => decide (e.img.crLast < rd p (8 + 16 * i) 4)
    | none => false)

/-- The first step of a target (R324, R331). -/
def firstCmd (x : Camp) (e : Endpoint) : Nat :=
  if x.kind = kindCredit then 0x20 else if x.kind = kindSwitch then 0x30 else if bySession x e then 0x10 else 0x11

/-- Add one target: a credit record is issued or found applied; a SWITCH target takes its SWITCH_SEQ (R333, R337). -/
def addTarget (c : Nat) (p : List Byte) (s : State) (i : Nat) : State :=
  let o := 4 + 16 * i
  let h := tgtHandle p i
  match camp? s c, ep? s h with
  | some x, some e =>
    let t : Target := { handle := h, cmd := firstCmd x e, since := s.mono }
    let put := fun (t : Target) => updCamp c (fun x => { x with targets := x.targets ++ [t] })
    if x.kind = kindCredit then
      let t1 := { t with n := rd p (o + 4) 4, amount := rd p (o + 8) 4, ref := rd p (o + 12) 4 }
      if issues s x p i then
        updCamp c (fun x => { x with issued := x.issued + t1.amount })
          (put t1 (commitOne (ledgerEntry (.creditIssue h t1.n t1.amount c)) s))
      else put { t1 with state := .confirmed, already := true } s
    else if x.kind = kindSwitch then
      put { t with swState := rd p (o + 4) 1, fbQty := rd p (o + 5) 1, seq := s.life.switchSeqA }
        { s with life.switchSeqA := s.life.switchSeqA + 1, life.switchSeqB := s.life.switchSeqB + 1 }
    else put t s
  | _, _ => s

/-- CAMP_TARGETS_ADD: all of its entries or none (R345). SWITCH_SEQ never repeats, so a counter that would wrap is out of numbers (log 37). -/
def campTargetsAdd (r : Req) (s : State) : Reply :=
  let p := r.payload
  let c := rd p 0 1
  let n := rd p 2 2
  match camp? s c with
  | none => refuse s .badParam
  | some x =>
    if !zeroAt p 1 1 || 4000 < n || p.length != 4 + 16 * n then refuse s .badParam (idxPayload 0)
    else
      match firstBadTgt s x p n [] 0 with
      | some i => refuse s .badParam (idxPayload i)
      | none =>
        let is := List.range n
        let credits := (is.filter (issues s x p)).length
        if !(x.state == .open_ || x.state == .running || x.state == .paused) || (credits != 0 && !jnlTakes credits s) then
          refuse s .badState
        else if 1048576 < x.targets.length + n || 2097152 < targetsHeld s + n
            || (x.kind == kindSwitch && 2 ^ 32 ≤ s.life.switchSeqA.toNat + n) then refuse s .noResource
        else replyOk (settle c (is.foldl (addTarget c p) s))

/-! ### States (R323) -/

/-- CAMP_START. (DEDUCED: log 107) -/
def campStart (r : Req) (s : State) : Reply :=
  match campField r.payload s with
  | none => refuse s .badParam
  | some (c, x) =>
    if x.state == .open_ && contentKind x.kind && !contentComplete x then refuse s .badParam
    else if x.state != .open_ || !ledgerOk s then refuse s .badState
    else if contentKind x.kind && Config.sha256 (objectBytes x) != x.digest then refuse s .authFail
    else replyOk (settle c (setCampState c .running s))

/-- CAMP_PAUSE. -/
def campPause (r : Req) (s : State) : Reply :=
  match campField r.payload s with
  | none => refuse s .badParam
  | some (c, x) =>
    if x.state == .paused then replyOk s
    else if x.state != .running || !ledgerOk s then refuse s .badState
    else replyOk (setCampState c .paused s)

/-- CAMP_RESUME: after a loss of the content it is checked again (R342). -/
def campResume (r : Req) (s : State) : Reply :=
  match campField r.payload s with
  | none => refuse s .badParam
  | some (c, x) =>
    if x.state == .paused && x.contentLost && !contentComplete x then refuse s .badParam
    else if x.state != .paused || !ledgerOk s then refuse s .badState
    else if x.contentLost && Config.sha256 (objectBytes x) != x.digest then refuse s .authFail
    else replyOk (settle c (setCampState c .running (updCamp c (fun x => { x with contentLost := false }) s)))

/-- Targets that are WAITING. -/
def waitingTgts (x : Camp) : List Target := x.targets.filter (fun t => t.state == .waiting)

/-- Entries that ending the WAITING targets commits (R336). -/
def returnsOf (x : Camp) : Nat := if x.kind = kindCredit then ((waitingTgts x).filter (fun t => !t.everSent)).length else 0

/-- Every WAITING target ends. -/
def endWaiting (c : Nat) (st : TgtState) (s : State) : State :=
  match camp? s c with
  | none => s
  | some x => (waitingTgts x).foldl (fun s t => endTarget c t.handle st s) s

/-- CAMP_CANCEL: PENDING until CANCELLED. It holds no object meanwhile: Table 12-2 answers requests in CANCELLING (log 38). -/
def campCancel (id : Nat) (r : Req) (s : State) : Reply :=
  match campField r.payload s with
  | none => refuse s .badParam
  | some (c, x) =>
    match x.state with
    | .open_ =>
      if !jnlTakes (1 + returnsOf x) s then refuse s .badState
      else .twice (setCampState c .cancelled (endWaiting c .cancelled s)) .ok []
    | .cancelling => .pend (updCamp c (fun x => { x with cancels := x.cancels ++ [id] }) s) []
    | .done => refuse s .badState
    | .cancelled => refuse s .badState
    | _ =>
      if !jnlTakes (1 + returnsOf x) s then refuse s .badState
      else
        let s1 := settle c (endWaiting c .cancelled (setCampState c .cancelling s))
        match camp? s1 c with
        | some y =>
          if y.state == .cancelled then .twice s1 .ok []
          else .pend (updCamp c (fun x => { x with cancels := x.cancels ++ [id] }) s1) []
        | none => .twice s1 .ok []

/-- CAMP_RELEASE: the campaign is freed. -/
def campRelease (r : Req) (s : State) : Reply :=
  match campField r.payload s with
  | none => refuse s .badParam
  | some (c, x) =>
    if x.state == .done || x.state == .cancelled then replyOk { s with camps := tdel s.camps c } else refuse s .badState

def tgtStates : List TgtState := [.waiting, .sent, .confirmed, .failed, .expired, .cancelled, .skipped]

def tgtCode : TgtState → Nat
  | .waiting => 0 | .sent => 1 | .confirmed => 2 | .failed => 3 | .expired => 4 | .cancelled => 5 | .skipped => 6

/-- CAMP_STATUS_GET (Table 12-8). -/
def campStatus (x : Camp) : List Byte :=
  le 1 (stateCode x.state) ++ le 1 x.kind ++ le 2 x.sessionNo
    ++ (tgtStates.map (fun st => le 4 (x.targets.filter (fun t => t.state == st)).length)).flatten
    ++ le 4 x.issued ++ le 4 x.applied ++ le 4 (x.issued - x.applied - x.returned) ++ le 4 x.returned
    ++ le 4 x.sent.toNat ++ le 4 x.skipped.toNat ++ le 4 x.ended.toNat ++ le 4 0

def campStatusGet (r : Req) (s : State) : Reply :=
  match campField r.payload s with
  | none => refuse s .badParam
  | some (_, x) => replyOk s (campStatus x)

/-- One record of CAMP_TARGET_GET; HELD is a SWITCH target behind a feedback fault. -/
def tgtRecord (s : State) (x : Camp) (t : Target) : List Byte :=
  let held := x.kind == kindSwitch && t.state == .waiting && (ep? s t.handle).any (fun e => e.switchFault)
  le 4 t.handle ++ le 1 (tgtCode t.state) ++ le 1 t.cmd ++ le 1 t.attempts
    ++ le 1 (b2n t.already + 2 * b2n t.late + 4 * b2n held) ++ le 4 t.lastDcnt ++ le 1 t.feedback ++ le 3 0

/-- CAMP_TARGET_GET. -/
def campTargetGet (r : Req) (s : State) : Reply :=
  let p := r.payload
  let first := rd p 2 4
  let n := rd p 6 2
  match camp? s (rd p 0 1) with
  | none => refuse s .badParam
  | some x =>
    if !zeroAt p 1 1 || 256 < n then refuse s .badParam
    else if n = 0 then replyOk s
    else if x.targets.length < first + n then refuse s .badParam
    else replyOk s ((((x.targets.drop first).take n).map (tgtRecord s x)).flatten)

/-- SWITCH_FAULT_CLEAR (R339). -/
def switchFaultClear (r : Req) (s : State) : Reply :=
  match handleWord r.payload 0 with
  | none => refuse s .badParam
  | some h =>
    match ep? s h with
    | none => refuse s .badParam
    | some e => if e.switchFault then replyOk (updEp h (fun e => { e with switchFault := false }) s) else refuse s .badState

/-! ### Attempts, waits, deadlines (R325 to R328, R340, R341) -/

/-- The step that goes next to the endpoint is one of this campaign. -/
def stepIs (s : State) (c h : Nat) : Bool :=
  match bestStep s h with
  | some z => z.1 == c
  | none => false

/-- STEP_ATTEMPT: the campaign's step is attempted on the endpoint's own path: the DOWNLINK of an open window, its next EVENT, a transaction.
(DEDUCED: log 108) -/
def stepAttempt (c h : Nat) (power : Power) (s : State) : State :=
  match ep? s h with
  | none => s
  | some e =>
    if !stepIs s c h then s
    else if e.plc then
      match nextTxn s e.port with
      | some x => if x.handle = h && x.camp == some c then transactionStart (groupId s e.port) s.now s else s
      | none => s
    else if e.air == .connected then connectionEvent h power s
    else
      match (secp s e.lastPort).dlOpp.find? (fun o => o.handle == h) with
      | some o => downlinkTx e.lastPort h (max s.now (o.endTime + tMs 20)) s
      | none => s

/-- CONF_WAIT_END: CAMP_CONF_S after the attempt; or NOT_AFTER has passed for a SWITCH target that waits (R326, R337). -/
def confWaitEnd (c h : Nat) (s : State) : State :=
  match camp? s c, tgt? s c h with
  | some x, some t =>
    if t.state == .sent then waitEnd c h (advMono t.waitDue s)
    else if t.state == .waiting && x.kind == kindSwitch && t.notAfter != 0 then
      settle c (endTarget c h .expired (advTo (tSec (t.notAfter + 1)) s))
    else s
  | _, _ => s

/-- CAMP_DEADLINE: DEADLINE has passed (Tables 12-2, 12-4). Nothing happens while the journal does not take the entries. -/
def campDeadline (c : Nat) (s0 : State) : State :=
  match camp? s0 c with
  | none => s0
  | some x =>
    if x.deadline = 0 then s0
    else
      let s := advTo (tSec x.deadline) s0
      if !jnlTakes (1 + returnsOf x) s then s
      else
        match x.state with
        | .open_ => setCampState c .cancelled (endWaiting c .expired s)
        | .running => settle c (endWaiting c .expired s)
        | .paused => settle c (endWaiting c .expired s)
        | _ => s

/-! ### Multicast sessions (R331) -/

/-- Targets of the campaign on the port that have not confirmed CHECK. -/
def portTargets (s : State) (x : Camp) (p : Nat) : List Target :=
  x.targets.filter (fun t => !finalState t.state && (match ep? s t.handle with
    | some e => !e.plc && e.lastPort == p
    | none => false))

/-- The campaign could run a session on the port. -/
def wantsSession (s : State) (p : Nat) (x : Camp) : Bool :=
  x.state == .running && x.multicast && contentKind x.kind && !(portTargets s x p).isEmpty

/-- Downlink headroom of the sub-band of a channel (R114); none when no sub-band holds the channel. -/
def headroom (s : State) (p ch : Nat) : Option Int :=
  match profOf s p with
  | none => none
  | some prof =>
    (subOf prof (chanEdges (bandOf s p) ch)).map (fun y =>
      (budgetOf y.2 : Int) - reserveAt (secVal s p 0xC) y.1 - reserveAt (secVal s p 0xD) y.1
        - usedOf s p y.1 .ack - usedOf s p y.1 .downlink)

/-- The map channel with the most headroom; the lowest wins a tie. -/
def sessionChannel (s : State) (p : Nat) : Option Nat :=
  let chs := (mapChannels (secVal s p 8) (secVal s p 9)).filterMap (fun c => (headroom s p c).map (fun r => (c, r)))
  (chs.foldl (fun (best : Option (Nat × Int)) x =>
    match best with
    | none => some x
    | some b => if b.2 < x.2 then some x else best) none).map (fun x => x.1)

/-- F: frames of a session. -/
def sessionFrames (s : State) (x : Camp) : Nat := (campK x * (1000 + pval s 0x7002) + 999) / 1000

/-- No campaign before this one, by PRIO and number, wants a session on the port, and none runs there. -/
def sessionTurn (s : State) (c p : Nat) (x : Camp) : Bool :=
  s.camps.all (fun y => !thas y.2.sessions p
    && (y.1 == c || !wantsSession s p y.2 || pairLess (x.prio, c) (y.2.prio, y.1)))

/-- SESSION_PLAN: the next session of the campaign on the port. It is planned once no target there waits for its CHECK (log 39); with the
index range or the number of sessions exhausted, the targets fail. -/
def sessionPlan (c p : Nat) (s : State) : State :=
  match camp? s c with
  | none => s
  | some x =>
    let ts := portTargets s x p
    let f := sessionFrames s x
    if 8 ≤ p || !stepsRun s || !wantsSession s p x || !sessionTurn s c p x || ts.any (fun t => t.cmd == 0x12) then s
    else if pval s 0x7003 ≤ x.ended.toNat || 65535 < x.nextIdx + f then
      settle c (ts.foldl (fun s t => failTarget c t.handle s) s)
    else
      match sessionChannel s p with
      | none => s
      | some ch =>
        let y : Session :=
          { no := x.sessionNo + 1, targets := ts.map (fun t => t.handle), ts := s.now + tSec (pval s 0x7001), first := x.nextIdx,
            channel := ch, frames := f }
        let s1 := updCamp c (fun x => { x with sessions := tset x.sessions p y, sessionNo := x.sessionNo + 1, nextIdx := x.nextIdx + f }) s
        ts.foldl (fun s t => toNextSession c t.handle s) s1

/-- A target of the session that has not confirmed SESSION. -/
def unannounced (x : Camp) (h : Nat) : Bool :=
  x.targets.any (fun t => t.handle == h && !finalState t.state && t.cmd == 0x10)

/-- At t_s: event 0x72, and the targets that have not confirmed SESSION move to the next session. -/
def sessionBegin (c p : Nat) (s : State) : State :=
  match camp? s c with
  | none => s
  | some x =>
    match tfind x.sessions p with
    | none => s
    | some y =>
      let out := y.targets.filter (unannounced x)
      let y1 : Session := { y with begun := true, targets := y.targets.filter (fun h => !out.contains h) }
      let s1 := updCamp c (fun x => { x with sessions := tset x.sessions p y1 }) s
      raise 0x72 (out.foldl (fun s h => toNextSession c h s) s1)

/-- The session ends: its targets receive CHECK next. -/
def sessionEnd (c p : Nat) (s : State) : State :=
  raise 0x72 (updCamp c (fun x => { x with sessions := tdel x.sessions p, ended := x.ended + 1 }) s)

/-- A planned session that cannot begin, its campaign not RUNNING at t_s: its targets wait for the next (log 40). -/
def sessionVoid (c p : Nat) (y : Session) (s : State) : State :=
  y.targets.foldl (fun s h => match tgt? s c h with
    | some t => if finalState t.state then s else toNextSession c h s
    | none => s) (updCamp c (fun x => { x with sessions := tdel x.sessions p }) s)

/-- The slot of the session's next frame is over, with the frame sent or skipped. -/
def slotOver (c p : Nat) (y : Session) (sent : Bool) (s : State) : State :=
  let y1 : Session := { y with next := y.next + 1, lbt := none }
  let s1 := updCamp c (fun x => { x with
    sessions := tset x.sessions p y1,
    sent := x.sent + (if sent then 1 else 0), skipped := x.skipped + (if sent then 0 else 1), mcast := x.mcast + b2n sent }) s
  if y.frames ≤ y.next + 1 then sessionEnd c p s1 else s1

/-- The listen period of the session's frame, where one is required, after the backoff that it owes: clear, or the procedure goes on or gives up
(05 R112). -/
def sessionListen (c p : Nat) (y : Session) (edges : Int × Int) (power : Power) (s : State) : Bool × State :=
  match lbtStart s p edges with
  | none => (true, s)
  | some l0 =>
    let l := y.lbt.getD l0
    let s1 := if l.backingOff then advMono l.until_ s else s
    let sb := subBandOf s p edges
    if powerBelow s1 p power sb.lbtThresh then (true, s1)
    else
      let (l1, s2) := lbtBusy sb { l with backingOff := false } s1
      if l1.ended then (false, slotOver c p y false s2)
      else (false, updCamp c (fun x => { x with sessions := tset x.sessions p { y with lbt := some l1 } }) s2)

/-- Frame i of the session starts, or is skipped, or still waits for the channel (R331). -/
def sessionFrame (c p : Nat) (power : Power) (x : Camp) (y : Session) (t : Nat) (s : State) : State :=
  let mode := secVal s p 3
  let us := sunUs mode (14 + 265 + 8 + 4)
  let edges := chanEdges (bandOf s p) y.channel
  if t + tMs x.gapMs / 4 < s.now then slotOver c p y false s
  else if !stepsRun s then s
  else
    let (clear, s0) := sessionListen c p y edges power s
    if !clear then s0
    else if t + tMs x.gapMs / 4 < s0.now then slotOver c p y false s0
    else
      match txRule s0 p y.channel edges .downlink us (airBusy s0 p s0.now us || ackInWay s0 p s0.now us) with
      | some r => noteRefusal p edges r s0
      | none =>
        match useSlot x.groupSlot (uEncrypt + uMac) s0 with
        | (s1, none) => slotOver c p y false s1
        | (s1, some k) =>
          slotOver c p y true (startTx p y.channel edges .downlink p us 0 []
            [.air p y.channel (enginePpdu s1 mode (downFrame x.groupAddr 3 false [] k.key x.mcast (blockCmd c x (y.first + y.next))))] s1)

/-- MULTICAST_FRAME: the slot of the session's next frame has come (R331). -/
def multicastFrame (c p : Nat) (power : Power) (s0 : State) : State :=
  match camp? s0 c with
  | none => s0
  | some x0 =>
    match tfind x0.sessions p with
    | none => s0
    | some y0 =>
      let t := y0.ts + y0.next * tMs x0.gapMs
      let s := advTo t s0
      if !y0.begun && x0.state != .running then sessionVoid c p y0 s
      else if x0.state != .running && x0.state != .paused then sessionEnd c p s
      else
        let s1 := if y0.begun then s else sessionBegin c p s
        match camp? s1 c with
        | none => s1
        | some x =>
          match tfind x.sessions p with
          | none => s1
          | some y => sessionFrame c p power x y t s1

/-! ### Switch feedback (R339) -/

/-- SWITCH_FB_TIMEOUT: SWITCH_FB_S without a reading of FB_QTY. -/
def switchFbTimeout (c h : Nat) (s0 : State) : State :=
  match tgt? s0 c h with
  | none => s0
  | some t =>
    match t.fbDue with
    | none => s0
    | some due =>
      let s := advMono due s0
      if t.feedback != 0xFF || !ledgerOk s then s
      else settle c (fbTake h (c, t, 2) (commitOne (ledgerEntry (.switchResult h t.seq.toNat 2 0)) s))

/-! ### The transmit gate (19 R473, R474, R479) -/

/-- A due frame that is not released: its target waits again and its attempt does not count; one that the cancellation, DEADLINE or NOT_AFTER
has overtaken ends (R479). -/
def gateBack (c h : Nat) (s : State) : State :=
  match camp? s c, tgt? s c h with
  | some x, some t =>
    if t.state != .sent then s
    else if x.state == .cancelling || deadlinePassed s x || (t.notAfter != 0 && t.notAfter < secs s) then waitEnd c h s
    else backToWaiting c h s
  | _, _ => s

/-- Transactions that stand at the gate without a due frame of theirs end without escalation or penalty (R479). -/
def endGateTxns (s : State) : State :=
  let stuck := (s.plcMac.running.map (fun e => e.2)).filter (fun x => x.gate)
  stuck.foldl (fun s x =>
    let s1 := startRecals x.port (leavePort x s)
    match x.camp with
    | some c => gateBack c x.handle s1
    | none => s1) s

/-- The frame is not released: it does not start and charges no airtime (R474, R479). -/
def gateRefuse (g : GateFrame) (s : State) : State :=
  let s1 := { dropDue s with safe.refused := s.safe.refused + 1 }
  if g.plc then endGateTxns s1
  else if g.event then updEp g.handle (fun e => { e with missed := e.missed + 1 }) s1
  else dropOpp g.port g.handle s1

/-- The gate opens: SWITCH_RELEASE commits, and the frame starts (R337, R474). (DEDUCED: log 111) -/
def gateOpen (g : GateFrame) (swState : Nat) (s : State) : State :=
  let s1 := commitOne (ledgerEntry (.switchRelease g.handle g.seq.toNat swState g.camp g.notAfter)) (dropDue s)
  let s2 := updTgt g.camp g.handle (fun t => { t with notAfter := g.notAfter })
    { s1 with safe.released := s1.safe.released + 1 }
  if g.plc then
    match runIn s2 g.port with
    | none => s2
    | some x =>
      let s3 := if x.attempt = 0 then markSent g.camp g.handle g.dcnt s2 else s2
      plcTransmit { x with attempt := max 1 x.attempt } s3
  else
    let us := sunUs g.mode (g.frameA.length + 4)
    let s3 := startTx g.port g.channel (chanEdges (bandOf s2 g.port) g.channel) .downlink g.port us 0
      (g.custody.map (fun f => (g.handle, f))) [.air g.port g.channel (enginePpdu s2 g.mode g.frameA)] (markSent g.camp g.handle g.dcnt s2)
    if g.event then updEp g.handle (fun e => { e with lastEvent := some (g.port, g.channel, s2.now + tUs us) }) s3
    else dropOpp g.port g.handle s3

/-- The medium still takes the frame at the instant it is due. -/
def gateMedium (s : State) (g : GateFrame) : Bool :=
  if g.plc then (runIn s g.port).isSome && plcServes s g.port
  else
    let us := sunUs g.mode (g.frameA.length + 4)
    (txRule s g.port g.channel (chanEdges (bandOf s g.port) g.channel) .downlink us
      (airBusy s g.port s.now us || ackInWay s g.port s.now us)).isNone

/-- GATE_RELEASE: the frame that is due now passes the gate, or does not; the gate stays closed while a proof test runs (R474, R477). A failed gate
test is code 4, seals that differ code 5. -/
def gateRelease (testOk : Bool) (upset : GateUpset) (s : State) : State :=
  match s.safe.due with
  | none => endGateTxns s
  | some g =>
    let s1 := if s.safe.state != .armed || !pairRuns s then s
      else if !testOk then safetyFault 4 s
      else if upset.sealBad || g.frameA != g.frameB then safetyFault 5 s
      else s
    match tgt? s1 g.camp g.handle with
    | none => gateRefuse g s1
    | some t =>
      if pairRuns s1 && s1.safe.state == .armed && s1.safe.proof.isNone && s1.now == g.due && !upset.tokenBad && g.tokA == g.tokB && secs s1 ≤ g.notAfter
          && ledgerOk s1 && s1.fw.pause.isNone && gateMedium s1 g then gateOpen g t.swState s1
      else gateRefuse g s1

/-! ### Services and meanings -/

def tgtObjs (r : Req) (_ : State) : List Obj := (List.range (rd r.payload 2 2)).map (fun i => Obj.handle (tgtHandle r.payload i))

def campCreateService : Service := { opcode := 0x0700, lenOk := lenIs 64, run := fun _ r s => campCreate r s }
def campContentService : Service := { opcode := 0x0701, lenOk := varLen 8 256 2 4, run := fun _ r s => campContent r s }
def campTargetsAddService : Service :=
  { opcode := 0x0702, lenOk := fun p => decide (4 ≤ p.length), objs := tgtObjs, run := fun _ r s => campTargetsAdd r s }
def campStartService : Service := { opcode := 0x0703, lenOk := lenIs 4, run := fun _ r s => campStart r s }
def campPauseService : Service := { opcode := 0x0704, lenOk := lenIs 4, run := fun _ r s => campPause r s }
def campResumeService : Service := { opcode := 0x0705, lenOk := lenIs 4, run := fun _ r s => campResume r s }
def campCancelService : Service := { opcode := 0x0706, lenOk := lenIs 4, run := campCancel }
def campStatusGetService : Service := { opcode := 0x0707, lenOk := lenIs 4, run := fun _ r s => campStatusGet r s }
def campTargetGetService : Service := { opcode := 0x0708, lenOk := lenIs 8, run := fun _ r s => campTargetGet r s }
def campReleaseService : Service := { opcode := 0x0709, lenOk := lenIs 4, run := fun _ r s => campRelease r s }
def switchFaultClearService : Service :=
  { opcode := 0x070A, lenOk := lenIs 4, objs := handleObj, run := fun _ r s => switchFaultClear r s }

def execCampCreate (r : Req) (s : State) : Host.Outcome State Fault Refusal := .next (serve campCreateService r s)

def execCampContent (r : Req) (s : State) : Host.Outcome State Fault Refusal := .next (serve campContentService r s)

def execCampTargetsAdd (r : Req) (s : State) : Host.Outcome State Fault Refusal := .next (serve campTargetsAddService r s)

def execCampStart (r : Req) (s : State) : Host.Outcome State Fault Refusal := .next (serve campStartService r s)

def execCampPause (r : Req) (s : State) : Host.Outcome State Fault Refusal := .next (serve campPauseService r s)

def execCampResume (r : Req) (s : State) : Host.Outcome State Fault Refusal := .next (serve campResumeService r s)

def execCampCancel (r : Req) (s : State) : Host.Outcome State Fault Refusal := .next (serve campCancelService r s)

def execCampStatusGet (r : Req) (s : State) : Host.Outcome State Fault Refusal := .next (serve campStatusGetService r s)

def execCampTargetGet (r : Req) (s : State) : Host.Outcome State Fault Refusal := .next (serve campTargetGetService r s)

def execCampRelease (r : Req) (s : State) : Host.Outcome State Fault Refusal := .next (serve campReleaseService r s)

def execSwitchFaultClear (r : Req) (s : State) : Host.Outcome State Fault Refusal := .next (serve switchFaultClearService r s)

def execStepAttempt (camp : Nat) (attempt : AttemptIn) (s : State) : Host.Outcome State Fault Refusal :=
  .next (stepAttempt camp attempt.handle attempt.power s)

def execConfWaitEnd (camp handle : Nat) (s : State) : Host.Outcome State Fault Refusal := .next (confWaitEnd camp handle s)

def execCampDeadline (camp : Nat) (s : State) : Host.Outcome State Fault Refusal := .next (campDeadline camp s)

def execSessionPlan (camp port : Nat) (s : State) : Host.Outcome State Fault Refusal := .next (sessionPlan camp port s)

def execMulticastFrame (camp port : Nat) (power : Power) (s : State) : Host.Outcome State Fault Refusal :=
  .next (multicastFrame camp port power s)

def execSwitchFbTimeout (camp handle : Nat) (s : State) : Host.Outcome State Fault Refusal := .next (switchFbTimeout camp handle s)

def execGateRelease (testOk : Bool) (upset : GateUpset) (s : State) : Host.Outcome State Fault Refusal :=
  .next (gateRelease testOk upset s)

end Sys2Proof.Machine
end

