-- ==== Sys2Proof/Machine/Fences.lean ====
section
/-! DEFINITION. Handshake links, credits and fences, and the entry of an island into reset (01 R11, R12, R17, R18; 16 R420). -/

namespace Sys2Proof.Machine

/-! ### The links (Table 01-2) -/

/-- One island joined to each of several others. -/
def star (a : Nat) (bs : List Nat) (credits : Nat) : List (Nat × Nat × Nat) := bs.map (fun b => (a, b, credits))

/-- The links in the order of Table 01-2: the two islands, and the credits of each direction. Link k has direction 2k from the first island to
the second and 2k + 1 back (log 43). -/
def linkTable : List (Nat × Nat × Nat) :=
  ((List.range 8).map (fun p => star (17 + p) (List.range 17) 16)).flatten
    ++ (List.range 17).map (fun k => (k, 31, 8)) ++ (List.range 4).map (fun k => (25 + k, 31, 8)) ++ [(31, 29, 32)]
    ++ [(29, 30, 16), (31, 30, 16)] ++ [(31, 32, 32), (29, 32, 32), (30, 32, 32), (33, 32, 32)] ++ [(29, 33, 16)] ++ [(29, 34, 8)]
    ++ [(29, 35, 2)] ++ star 29 (List.range 29 ++ [30, 31, 32, 33, 34]) 2

/-- Sender, receiver and initial credits of a direction. -/
def dirOf (d : Nat) : Option (Nat × Nat × Nat) :=
  (linkTable[d / 2]?).map (fun l => if d % 2 = 0 then l else (l.2.1, l.1, l.2.2))

/-- Directions in all, 402. -/
def dirCount : Nat := 402

def linkDir (s : State) (d : Nat) : LinkDir := tget s.links d {}

def setDir (d : Nat) (f : LinkDir → LinkDir) (s : State) : State := { s with links := tupd s.links d {} f }

/-- The link exists on this part (R10). -/
def dirPresent (s : State) (d : Nat) : Bool :=
  match dirOf d with
  | some (a, b, _) => islPresent s a && islPresent s b
  | none => false

/-- An island is in reset; the backup island never is (15 R395). -/
def islHeld (s : State) (i : Nat) : Bool := i < 35 && (isl s i).inReset

/-- Both ends of a direction run, neither is excluded (R22), and it is not fenced. -/
def dirOpen (s : State) (d : Nat) : Bool :=
  dirPresent s d && !(linkDir s d).fenced &&
    match dirOf d with
    | some (a, b, _) => !islHeld s a && !islHeld s b && !islExcluded s a && !islExcluded s b
    | none => false

/-- Credits that the sender holds. -/
def heldCredits (s : State) (d : Nat) : Nat :=
  match dirOf d with
  | some (_, _, c) => c - (linkDir s d).spent
  | none => 0

/-- Directions that an island sends or receives on. -/
def dirsOf (i : Nat) : List Nat :=
  (List.range dirCount).filter (fun d => match dirOf d with
    | some (a, b, _) => a == i || b == i
    | none => false)

/-- FENCED of an island: at least one of its links is fenced (R499). -/
def islFenced (s : State) (i : Nat) : Bool := (dirsOf i).any (fun d => dirPresent s d && (linkDir s d).fenced)

/-- FLIT_TRANSFER: a sender with a credit transfers one flit and spends the credit (R11). -/
def flitTransfer (d : Nat) (s : State) : State :=
  if dirOpen s d && 0 < heldCredits s d then
    setDir d (fun x => { x with spent := x.spent + 1, occupied := x.occupied + 1, sent := x.sent + 1, received := x.received + 1 }) s
  else s

/-! ### Fences, and the reset behind them (R17, R18, R420) -/

/-- Every link of an island is fenced: its neighbours stop sending toward it. -/
def fenceIsl (i : Nat) (s : State) : State := (dirsOf i).foldl (fun s d => setDir d (fun x => { x with fenced := true }) s) s

/-- A direction toward an island whose sender has credits outstanding and still waits for them (R17). -/
def awaited (s : State) (i d : Nat) : Bool :=
  dirPresent s d && 0 < (linkDir s d).spent && !(linkDir s d).expired &&
    match dirOf d with
    | some (_, b, _) => b == i
    | none => false

/-- No neighbour of the island waits for a credit any more. -/
def settled (s : State) (i : Nat) : Bool := !(dirsOf i).any (awaited s i)

/-- The wait of an island's fence is over: the reset proper begins, and discards the flits in the island's buffers (R17, R420). -/
def enterReset (i : Nat) (s : State) : State :=
  if (isl s i).waitFrom.isSome && settled s i then
    let s1 := (dirsOf i).foldl (fun s d => match dirOf d with
      | some (_, b, _) => if b = i then setDir d (fun x => if x.fenced then { x with occupied := 0 } else x) s else s
      | none => s) s
    let s2 := setIsl i (fun x => { x with waitFrom := none }) s1
    { s2 with out := .islandReset i :: s2.out }
  else s

/-- One island is taken out of service: fenced, and in reset as soon as the fence's wait is over. -/
def holdIsland (i : Nat) (s : State) : State :=
  if islPresent s i && i < 35 then
    let s1 := setIsl i (fun x => { x with inReset := true, lockRetries := 0, waitFrom := if x.inReset then x.waitFrom else some s.mono }) (fenceIsl i s)
    enterReset i s1
  else s

/-- The fence wait of some island is still in progress: no release stage ends before it. -/
def fenceWaits (s : State) : Bool := s.isl.any (fun e => e.2.waitFrom.isSome)

/-- The island leaves reset: each of its links whose other end runs too starts again from its initial counts, and its fence lifts. -/
def liftFences (i : Nat) (s : State) : State :=
  (dirsOf i).foldl (fun s d =>
    match dirOf d with
    | some (a, b, _) => if islHeld s a || islHeld s b then s else { s with links := tdel s.links d }
    | none => s) s

/-- CREDIT_RETURN: the receiver frees a buffer entry and returns its credit (R11); on a fenced direction too, while the fence waits, and the
last one lets the reset begin (R17). -/
def creditReturn (d : Nat) (s : State) : State :=
  let x := linkDir s d
  match dirOf d with
  | some (_, b, _) =>
    if dirPresent s d && 0 < x.occupied && !x.expired then
      enterReset b (setDir d (fun x => { x with spent := x.spent - 1, occupied := x.occupied - 1, released := x.released + 1,
                                                returned := x.returned + 1 }) s)
    else s
  | none => s

/-- FENCE_WAIT_EXPIRY: 10 µs after the fence credits are outstanding toward the island: the neighbour writes a WARN record with their number, and
the reset proceeds without them (R18). -/
def fenceWaitExpiry (d : Nat) (s : State) : State :=
  match dirOf d with
  | some (_, b, _) =>
    match (isl s b).waitFrom with
    | some t =>
      if awaited s b d then
        let s1 := advMono (t + tUs 10) s
        enterReset b (setDir d (fun x => { x with expired := true })
          (record rcFenceCredits (le 4 (d / 2) ++ le 4 (d % 2) ++ le 4 (linkDir s d).spent) s1))
      else s
    | none => s
  | none => s

end Sys2Proof.Machine
end

