-- ==== Sys2Proof/Machine/Rotation.lean ====
section
/-! DEFINITION. Physical lanes: spares, rotation, tests and exclusion; island BIST after a reset; the repair ledger (19 R480 to R487, R492). -/

namespace Sys2Proof.Machine

/-! ### Working lanes (R480) -/

/-- Physical lanes, 16 to an island (Table 01-1). -/
def physLanes : List Nat := List.range 272

def roleOf (s : State) (k : Nat) : LaneRole := tget s.roles k .spare

def setRole (k : Nat) (r : LaneRole) (s : State) : State := { s with roles := tset s.roles k r }

/-- Not excluded by the repair ledger or the factory, nor in an excluded island. -/
def laneWorks (s : State) (k : Nat) : Bool := !inRepair s 1 k && !s.fuses.laneOut.contains k && !islExcluded s (k / 16)

def workingLanes (s : State) : List Nat := physLanes.filter (laneWorks s)

/-- L = min(256, W − 1), and 0 when W is below 2. -/
def logicalCount (w : Nat) : Nat := min 256 (w - 1)

/-- An idle spare. -/
def isSpare (s : State) (k : Nat) : Bool := laneWorks s k && islUp s (k / 16) && roleOf s k == .spare

/-- The lowest-numbered idle spare. -/
def lowestSpare (s : State) : Option Nat := physLanes.find? (isSpare s)

/-- Logical lanes without a physical lane take the lowest spares (R485). -/
def fillLanes (s : State) : State :=
  ((List.range s.laneCount).filter (fun l => (physOf s l).isNone)).foldl (fun s l =>
    match lowestSpare s with
    | some k => setRole k (.serving l) s
    | none => s) s

/-- The counts after an exclusion: the highest logical lanes are withdrawn, their physical lanes are spares, and event 0xB3 says that L has
fallen below 256 (R480, R493; 04 R84). -/
def recount (s : State) : State :=
  let l := logicalCount (workingLanes s).length
  let old := s.laneCount
  let s1 := withdrawLanes (min l old) s
  let s2 := { s1 with roles := s1.roles.map (fun e => match e.2 with
    | .serving i => if s1.laneCount ≤ i then (e.1, .spare) else e
    | .shadow i => if s1.laneCount ≤ i then (e.1, .spare) else e
    | _ => e) }
  raiseIf (old == 256 && l < 256) 0xB3 (fillLanes s2)

/-- Causes that the repair ledger gives for an exclusion (R487 leaves the codes to the engine: log 41). -/
def causeTest : Nat := 1
def causeReset : Nat := 2

/-- A lane is excluded permanently (R482). -/
def excludeLane (k : Nat) (s : State) : State := recount (raise 0xB2 (addRepair 1 causeTest k (setRole k .excluded s)))

/-- Ports of an excluded channeliser or PLC island leave the capability report (R486). -/
def dropPorts (i : Nat) (s : State) : State :=
  if 17 ≤ i && i ≤ 24 then setRf (i - 17) (setRfState .absent) s
  else if 25 ≤ i && i ≤ 28 then
    (List.range 4).foldl (fun s k => setPlc (4 * (i - 25) + k) plcGone s) s
  else s

/-- An island is excluded permanently (R485, R486): its fault bit with the cause of Table 20-4, events 0xB2 and 0x13. It takes no traffic any more
(01 R22): it is fenced and stays in reset. -/
def excludeIsland (i cause faultCause : Nat) (s : State) : State :=
  let s1 := raise 0xB2 (addRepair 2 cause i (islandFault i faultCause (setIsl i (fun x => { x with bistDue := false }) (holdIsland i s))))
  let s2 := if i ≤ 16 then (List.range 16).foldl (fun s k => setRole (16 * i + k) .excluded s) s1 else dropPorts i s1
  raise 0x13 (if i ≤ 16 then recount s2 else s2)

/-! ### Steps (R481 to R484) -/

/-- The next lane of the rotation: a working lane in cyclic order that serves or is spare; lanes of an island that is itself in reset or BIST
are left to that (log 42). -/
def nextLane (s : State) : Option Nat :=
  ((List.range 272).map (fun i => (s.rot.next + i) % 272)).find? (fun k =>
    laneWorks s k && islUp s (k / 16) && match roleOf s k with
      | .serving _ => true
      | .spare => true
      | _ => false)

/-- A lane in step serves a logical lane: the lowest idle spare shadows it. -/
def startShadow (k l : Nat) (s : State) : State :=
  match lowestSpare s with
  | none => s
  | some j => setRole j (.shadow l) { s with rot.lane := some k, rot.shadow := some (j, l), rot.shadowAt := some s.mono }

/-- The step ends: its token is released. -/
def stepOver (s : State) : State := dropToken .lr { s with rot.lane := none, rot.shadow := none, rot.shadowAt := none, rot.retest := false }

/-- ROTATION_STEP: a step begins with its token, 2.9 s to 3.1 s after the last, or begins its shadow again (R481, R484). -/
def rotationStep (s : State) : State :=
  match s.rot.lane with
  | some k =>
    match roleOf s k, s.rot.shadow with
    | .serving l, none => startShadow k l s
    | _, _ => s
  | none =>
    if pval s 0xB001 != 1 || s.laneCount = 0 || !islUp s islControl then s
    else
      let s0 := pacedAt s.rot.stepAt (tMs 2900) (tMs 3100) s
      let s1 := askToken .lr { s0 with rot.stepAt := some s0.mono }
      if !holds .lr s1 then s1
      else
        match nextLane s1 with
        | none => stepOver s1
        | some k =>
          match roleOf s1 k with
          | .serving l => if (lowestSpare s1).isNone then stepOver s1 else startShadow k l s1
          | _ => setRole k .underTest { s1 with rot.lane := some k }

/-- ROTATION_HANDOVER: at least 1 ms after the shadow began, and neither lane holds a frame after SHR detection; the spare serves, the old lane is
under test. The two lanes decode the same samples, so a shadow frame that the spare would abandon at 2 s ends with the serving lane's (R481). (DEDUCED:
log 160) -/
def rotationHandover (s : State) : State :=
  match s.rot.lane, s.rot.shadow with
  | some k, some (j, l) =>
    if (lane s l).rx == .idle then
      let s1 := match s.rot.shadowAt with
        | some t => advMono (t + tMs 1) s
        | none => s
      setRole k .underTest (setRole j (.serving l) { s1 with rot.shadow := none, rot.shadowAt := none })
    else s
  | _, _ => s

/-- The lane's step is complete. -/
def stepDone (k : Nat) (s : State) : State :=
  stepOver { s with rot.steps := s.rot.steps + 1, rot.lastStep := tset s.rot.lastStep k s.mono, rot.next := (k + 1) % 272 }

/-- LANE_TEST_END: the test of the lane taken out ends, or the spare has failed during its shadow (R482, R484). -/
def laneTestEnd (pass : Bool) (s : State) : State :=
  match s.rot.lane with
  | none => s
  | some k =>
    match s.rot.shadow with
    | some (j, _) =>
      if pass then s
      else excludeLane j { s with rot.shadow := none, rot.shadowAt := none, rot.testFails := s.rot.testFails + 1 }
    | none =>
      if roleOf s k != .underTest then s
      else if pass then fillLanes (stepDone k (setRole k .spare s))
      else if !s.rot.retest then { s with rot.retest := true, rot.testFails := s.rot.testFails + 1 }
      else stepDone k (excludeLane k { s with rot.testFails := s.rot.testFails + 1 })

/-- Rotation is paused while the microcode activation holds its token. -/
def rotationState (s : State) : Nat := if pval s 0xB001 != 1 then 2 else if holds .ma s then 1 else 0

/-- ROTATION_LATE: a lane has gone 900 s without a step (R483). (DEDUCED: log 125) -/
def rotationLate (k : Nat) (s : State) : State :=
  if 272 ≤ k || !laneWorks s k || s.laneCount = 0 || rotationState s != 0 || s.rot.lateRaised.contains k then s
  else
    let s1 := advMono (tget s.rot.lastStep k 0 + tSec 900) s
    raise 0xB4 { s1 with rot.lateRaised := s1.rot.lateRaised ++ [k] }

/-! ### Islands after a reset (R485, R486) -/

/-- A lane island loses its lanes to a reset: each logical lane moves to a spare of another island, its frame ends ABORTED as its queue
empties (06 R148); a step of either lane ends (R484, R485). -/
def laneIslandDown (i : Nat) (s : State) : State :=
  let mine := (List.range 16).map (fun k => 16 * i + k)
  let step := (match s.rot.lane with
      | some k => mine.contains k
      | none => false) || (match s.rot.shadow with
      | some (j, _) => mine.contains j
      | none => false)
  let s1 := if step then
      let s2 := match s.rot.shadow with
        | some (j, _) => setRole j .spare s
        | none => match s.rot.lane with
          | some k => setRole k .spare s
          | none => s
      stepOver s2
    else s
  let served := mine.filterMap (fun k => match roleOf s1 k with
    | .serving l => some l
    | _ => none)
  let s3 := served.foldl (fun s l => setLane l (fun x => { x with rx := .idle, queue := qReset x.queue }) s) s1
  fillLanes (mine.foldl (fun s k => if roleOf s k == .excluded then s else setRole k .underTest s) s3)

/-- BIST of a lane island passes: its working lanes join the spares, and no logical lane moves back (R485). -/
def laneIslandUp (i : Nat) (s : State) : State :=
  fillLanes ((List.range 16).foldl (fun s k =>
    if laneWorks s (16 * i + k) && roleOf s (16 * i + k) == .underTest then setRole (16 * i + k) .spare s else s) s)

/-- SRAM rows or columns that a BIST repairs beyond option group 2, each an entry of the repair ledger (R487, Table 19-4). -/
def addSramRepairs (repairs : List Nat) (s : State) : State := repairs.foldl (fun s o => addRepair 3 causeTest o s) s

/-- ISLAND_BIST_END: BIST of a lane, channeliser or PLC island after its ISLRST, with the SRAM repairs it makes (R485, R486, R487). A channeliser's
port is trained next, a PLC island's enabled ports calibrate again. -/
def islandBistEnd (i : Nat) (pass : Bool) (repairs : List Nat) (s0 : State) : State :=
  if 28 < i || !(isl s0 i).bistDue || (isl s0 i).inReset then s0
  else
    let s := addSramRepairs repairs s0
    let s1 := setIsl i (fun x => { x with bistDue := false }) s
    if !pass then excludeIsland i causeTest 3 s1
    else if i ≤ 16 then laneIslandUp i s1
    else if i ≤ 24 then s1
    else (List.range 4).foldl (fun s k =>
      let q := 4 * (i - 25) + k
      if plcEnabled s q && (plcp s q).present && (plcp s q).state != .fault then startCal q s else s) s1

/-! ### Opcodes (R492) -/

def roleBytes (r : LaneRole) : List Byte :=
  match r with
  | .serving l => le 1 0 ++ le 1 0 ++ le 2 l
  | .spare => le 1 1 ++ le 1 0 ++ le 2 0xFFFF
  | .underTest => le 1 2 ++ le 1 0 ++ le 2 0xFFFF
  | .excluded => le 1 3 ++ le 1 0 ++ le 2 0xFFFF
  | .shadow l => le 1 4 ++ le 1 0 ++ le 2 l

/-- LANE_MAP_GET (R492, 03 R525). (DEDUCED: log 124) -/
def laneMapGet (r : Req) (s : State) : Reply :=
  let first := rd r.payload 0 2
  let n := rd r.payload 2 2
  if 272 < first + n then refuse s .badParam
  else replyOk s ((List.range n).map (fun i =>
    roleBytes (if laneWorks s (first + i) then roleOf s (first + i) else .excluded))).flatten

/-- An entry of the repair ledger (R487). -/
def repairBytes (e : RepairEnt) : List Byte :=
  le 1 e.typ ++ le 1 e.cause ++ le 2 0 ++ le 4 e.obj.toNat ++ le 4 e.secs.toNat ++ le 4 e.start.toNat

/-- REPAIR_LEDGER_GET. -/
def repairLedgerGet (r : Req) (s : State) : Reply :=
  let first := rd r.payload 0 2
  let n := rd r.payload 2 2
  let all := s.life.repair
  if 256 < n then refuse s .badParam
  else if n = 0 then replyOk s
  else if all.length < first + n then refuse s .badParam
  else replyOk s (le 2 all.length ++ le 2 0 ++ (((all.drop first).take n).map repairBytes).flatten)

/-- Longest time that a working lane has gone without a step, s. -/
def longestIdle (s : State) : Nat :=
  (workingLanes s).foldl (fun m k => max m ((s.mono - tget s.rot.lastStep k 0) / 2 ^ 24)) 0

/-- ROTATION_STATUS_GET. -/
def rotationStatus (s : State) : List Byte :=
  le 1 (rotationState s) ++ le 1 0 ++ le 2 (s.rot.lane.getD 0xFFFF) ++ le 4 s.rot.steps.toNat ++ le 4 (longestIdle s)
    ++ le 4 s.rot.testFails.toNat

def laneMapGetService : Service := { opcode := 0x0B10, lenOk := lenIs 4, acc := 0, ready := true, run := fun _ r s => laneMapGet r s }
def repairLedgerGetService : Service := { opcode := 0x0B11, lenOk := lenIs 4, acc := 0, run := fun _ r s => repairLedgerGet r s }
def rotationStatusGetService : Service :=
  { opcode := 0x0B12, lenOk := payloadFree, acc := 0, run := fun _ _ s => replyOk s (rotationStatus s) }

/-! ### Meanings -/

def execRotationStep (s : State) : Host.Outcome State Fault Refusal := .next (rotationStep s)

def execRotationHandover (s : State) : Host.Outcome State Fault Refusal := .next (rotationHandover s)

def execLaneTestEnd (pass : Bool) (s : State) : Host.Outcome State Fault Refusal := .next (laneTestEnd pass s)

def execRotationLate (lane : Nat) (s : State) : Host.Outcome State Fault Refusal := .next (rotationLate lane s)

def execIslandBistEnd (i : Nat) (res : IslandBistIn) (s : State) : Host.Outcome State Fault Refusal :=
  .next (islandBistEnd i res.pass res.repairs s)

def execLaneMapGet (r : Req) (s : State) : Host.Outcome State Fault Refusal := .next (serve laneMapGetService r s)

def execRepairLedgerGet (r : Req) (s : State) : Host.Outcome State Fault Refusal := .next (serve repairLedgerGetService r s)

def execRotationStatusGet (r : Req) (s : State) : Host.Outcome State Fault Refusal := .next (serve rotationStatusGetService r s)

end Sys2Proof.Machine
end

