-- ==== Sys2Proof/Machine/Links.lean ====
section
/-! DEFINITION. The comparisons of the credit audit (01 R15), the commands of the links (01 R11 to R18), and the supply and temperature monitors (02 R28, 21 R510). -/

namespace Sys2Proof.Machine

/-! ### The audit's comparisons (R15) -/

/-- What the comparisons of a direction read: the counts in the state, unless a hardware upset has changed them. -/
def auditCounts (s : State) (upsets : List AuditUpset) (d : Nat) : AuditUpset :=
  match upsets.find? (fun u => u.dir == d) with
  | some u => u
  | none =>
    let x := linkDir s d
    { dir := d, sent := x.sent, received := x.received, released := x.released, returned := x.returned, held := heldCredits s d }

/-- All three comparisons agree: flits sent and received, credits released and returned, held credits plus outstanding flits and the
initial count. -/
def auditAgrees (u : AuditUpset) : Bool :=
  match dirOf u.dir with
  | some (_, _, c) => u.sent == u.received && u.released == u.returned && u.held + u.sent == c + u.returned
  | none => true

/-! ### Monitors (02 R28, 21 R510, 19 R475) -/

/-- MONITOR_SAMPLE: rails in bits 0 to 6, Tj in bit 7, each 1 when out of range. A rail or Tj that leaves or returns raises event 0x15; the first
lapse of C1 writes its record, is safety fault 9 and suspends the journal's commits (Table 02-4, R476). (DEDUCED: log 132) -/
def monitorSample (outOfRange : BitVec 8) (s : State) : State :=
  if islHeld s islControl then s
  else
    let was := s.mon.out
    let s1 := raiseIf (was != outOfRange) 0x15
      { s with mon.out := outOfRange,
               mon.backAt := if outOfRange = 0 then (if was = 0 then s.mon.backAt else some s.mono) else none }
    if outOfRange = 0 then s1
    else if was = 0 then jnlC1 true (safetyFault 9 (record rcC1 (le 4 outOfRange.toNat) s1))
    else safetyFault 9 s1

/-- C1_RECOVERY: 10 ms after every rail and Tj returned to range, commits resume (Table 02-4). -/
def c1Recovery (s : State) : State :=
  match s.mon.backAt with
  | some t => if s.mon.out = 0 && s.jnl.c1 then jnlC1 false (advMono (t + tMs 10) s) else s
  | none => s

/-! ### Meanings -/

def execFlitTransfer (d : Nat) (s : State) : Host.Outcome State Fault Refusal := .next (flitTransfer d s)

def execCreditReturn (d : Nat) (s : State) : Host.Outcome State Fault Refusal := .next (creditReturn d s)

def execFenceWaitExpiry (d : Nat) (s : State) : Host.Outcome State Fault Refusal := .next (fenceWaitExpiry d s)

def execMonitorSample (outOfRange : BitVec 8) (s : State) : Host.Outcome State Fault Refusal := .next (monitorSample outOfRange s)

def execC1Recovery (s : State) : Host.Outcome State Fault Refusal := .next (c1Recovery s)

end Sys2Proof.Machine
end

