-- ==== Sys2Proof/Machine/Firmware.lean ====
section
/-! DEFINITION. The manifest, staging, activation, trial and fallback, the boot ROM and the lifecycle transitions (18 R455 to R470;
17 R437, R438). -/

namespace Sys2Proof.Machine

/-! ### Reading a manifest (R455, Tables 18-1 and 18-2) -/

/-- Part entry k. -/
def readPart (b : List Byte) (k : Nat) : PartEnt :=
  let o := 64 + 64 * k
  { carried := bit (rd b (o + 1) 1) 0, off := rd b (o + 4) 4, len := rd b (o + 8) 4, version := BitVec.ofNat 32 (rd b (o + 12) 4),
    rollback := BitVec.ofNat 32 (rd b (o + 16) 4), digest := slice b (o + 32) 32 }

/-- Entry k of a key table image: KEY_ID (2), first (1), last (1), modulus (384), one after the other (10 R292; DEDUCED, log 44). -/
def readKey (b : List Byte) (k : Nat) : TariffKey :=
  { keyId := rd b (388 * k) 2, first := rd b (388 * k + 2) 1, last := rd b (388 * k + 3) 1, modulus := slice b (388 * k + 4) 384 }

def readKeys (b : List Byte) : List TariffKey := (List.range (min 16 (b.length / 388))).map (readKey b)

/-- The manifest that the bytes hold; keys of a CARRIED key table come with the install. -/
def readManifest (b : List Byte) : Manifest :=
  let parts := (List.range 7).map (readPart b)
  let k := parts.getD 6 {}
  { ver := BitVec.ofNat 32 (rd b 8 4), custSig := bit (rd b 7 1) 0, total := rd b 12 4, variants := rd b 20 1, lfmtWrite := rd b 21 1,
    lfmtRead := BitVec.ofNat 16 (rd b 22 2), pfmt := (List.range 12).map (fun i => rd b (24 + 2 * i) 2), parts := parts,
    keys := if k.carried then [] else readKeys (slice b k.off k.len) }

def manPart (m : Manifest) (k : Nat) : PartEnt := m.parts.getD k {}

/-- Parts 1 to 4 and parts 5 and 6. -/
def dataParts : List Nat := [1, 2, 3, 4]
def graniteParts : List Nat := [5, 6]

/-- A Granite part is not CARRIED. -/
def granite (m : Manifest) : Bool := graniteParts.any (fun k => !(manPart m k).carried)

/-- A data-plane part is included. -/
def dataPlane (m : Manifest) : Bool := dataParts.any (fun k => !(manPart m k).carried)

def floorOf (s : State) (k : Nat) : Nat := (tget s.fwNv.floors k 0).toNat

/-! ### Acceptance (R457, Table 18-3) -/

/-- Check 1: the fixed fields, the reserved fields and the positions. -/
def formatOk (b : List Byte) : Bool :=
  b.take 4 == str "XNMF" && rd b 4 2 == 1 && rd b 6 1 == 7 && rd b 7 1 < 2 && rd b 20 1 < 4 && zeroAt b 48 16
    && (List.range 7).all (fun k =>
      let o := 64 + 64 * k
      rd b o 1 == k && rd b (o + 1) 1 < 2 && zeroAt b (o + 2) 2 && zeroAt b (o + 20) 12)

/-- Check 2: this part's variant. -/
def variantOk (m : Manifest) (s : State) : Bool := bit m.variants (b2n (isXn7440 s))

def apart (a b : PartEnt) : Bool := a.off + a.len ≤ b.off || b.off + b.len ≤ a.off

/-- Every two of a list are apart. -/
def allApart : List PartEnt → Bool
  | [] => true
  | a :: rest => rest.all (apart a) && allApart rest

/-- Check 3: TOTAL_LEN, and the images inside it, aligned, from byte 2 048 on, without overlap. -/
def layoutOk (m : Manifest) (staged : Nat) : Bool :=
  let inc := m.parts.filter (fun e => !e.carried)
  m.total == staged && inc.all (fun e => e.off % 4096 == 0 && 2048 ≤ e.off && 1 ≤ e.len && e.off + e.len ≤ m.total) && allApart inc

/-- Check 4: a CARRIED entry repeats the installed one. -/
def carriedOk (m : Manifest) (installed : Option Manifest) : Bool :=
  (List.range 7).all (fun k =>
    let e := manPart m k
    !e.carried || match installed with
      | none => false
      | some i =>
        let f := manPart i k
        e.version == f.version && e.rollback == f.rollback && e.digest == f.digest)

/-- Check 5, and the check of every rollback counter when a slot boots (17 R437). -/
def rollbackOk (all : Bool) (m : Manifest) (s : State) : Bool :=
  (List.range 7).all (fun k => (!all && (manPart m k).carried) || floorOf s k ≤ (manPart m k).rollback.toNat)

/-- Check 6: legal formats (R456). -/
def legalOk (m : Manifest) (s : State) : Bool :=
  (m.lfmtRead &&& s.fwNv.lfmtSet) == s.fwNv.lfmtSet && 1 ≤ m.lfmtWrite && m.lfmtWrite ≤ 16 && m.lfmtRead.getLsbD (m.lfmtWrite - 1)

/-- Check 8. -/
def vendorOk (b : List Byte) (s : State) : Bool :=
  let n := slice b 512 384
  Config.sha256 n == slice s.fuses.vendorHash 0 32 && Config.rsaVerify n (b.take 512) (slice b 896 384)

/-- Check 9. -/
def customerOk (b : List Byte) (s : State) : Bool :=
  match s.fuses.custHash with
  | none => true
  | some h =>
    let n := slice b 1280 384
    bit (rd b 7 1) 0 && Config.sha256 n == h && Config.rsaVerify n (b.take 512) (slice b 1664 384)

/-- Check 10. -/
def digestsOk (b : List Byte) (m : Manifest) : Bool :=
  m.parts.all (fun e => e.carried || Config.sha256 (slice b e.off e.len) == e.digest)

/-- The first check that fails, as its reason code. With host false the manifest may not be CARRIED in part: a host-supplied one (R466). -/
def manifestReason (b : List Byte) (staged : Nat) (host : Bool) (s : State) : Option Nat :=
  let m := readManifest b
  if !formatOk b then some 1
  else if !variantOk m s then some 2
  else if !layoutOk m staged then some 3
  else if (if host then m.parts.any (fun e => e.carried) else !carriedOk m s.fwNv.active) then some 4
  else if !rollbackOk false m s then some 5
  else if !legalOk m s then some 6
  else if granite m && !s.bkp.sealOpen then some 7
  else if !vendorOk b s then some 8
  else if !customerOk b s then some 9
  else if !digestsOk b m then some 10
  else none

def reasonStatus (k : Nat) : Status := if k ≤ 6 then .badParam else if k = 7 then .sealed else .authFail

/-! ### The slot directory (R458, R459) -/

/-- Read STEP: that of the valid copy with the newer sequence number (R458); 0 when no copy is valid (log 46). -/
def dirStep (s : State) : Nat :=
  let a := s.fwNv.dirA
  let b := s.fwNv.dirB
  if a.ok && (!b.ok || b.seq ≤ a.seq) then a.step else if b.ok then b.step else 0

/-- Write STEP: into the copy with the older sequence number, one that does not verify first (R458). -/
def setStep (k : Nat) (s : State) : State :=
  let a := s.fwNv.dirA
  let b := s.fwNv.dirB
  let c : DirCopy := { seq := max a.seq b.seq + 1, step := k }
  if b.ok && (!a.ok || a.seq < b.seq) then { s with fwNv.dirA := c } else { s with fwNv.dirB := c }

/-- Write STEP several times, one after the other. -/
def setSteps (ks : List Nat) (s : State) : State := ks.foldl (fun s k => setStep k s) s

/-! ### Staging (R460, R461) -/

/-- The state that ends an update that was not installed: TRIAL goes on when it was staged under NO_FALLBACK (R465; log 45). -/
def restState (s : State) : UpdState := if s.fw.noFallback && s.fwNv.trial.isSome then .trial else .none

/-- Discard what STAGING holds. -/
def dropStaging (s : State) : State :=
  { s with fw.upd := restState s, fw.bytes := [], fw.total := 0, fwNv.staging := none }

def fwStageBegin (id : Nat) (r : Req) (s : State) : Reply :=
  let total := rd r.payload 0 4
  if !zeroAt r.payload 4 4 || total < 2048 || s.fwNv.slotSize < total then refuse s .badParam
  else if !(s.fw.upd == .none || (s.fw.upd == .trial && s.fw.noFallback)) then refuse s .badState
  else .pend { s with fw.upd := .staging, fw.total := total, fw.bytes := [], fw.erasing := some id, fwNv.staging := none } [.firmware]

/-- STAGING_ERASE_DONE. -/
def stagingErased (s : State) : State :=
  match s.fw.erasing with
  | none => s
  | some id => finishOp id .ok [] { s with fw.erasing := none }

def fwStageWrite (r : Req) (s : State) : Reply :=
  let n := r.payload.length - 8
  let have_ := s.fw.bytes.length
  if !zeroAt r.payload 4 4 then refuse s .badParam
  else if s.fw.upd != .staging then refuse s .badState
  else if rd r.payload 0 4 != have_ || s.fw.total < have_ + n || (n % 256 != 0 && have_ + n != s.fw.total) then refuse s .badParam
  else replyOk { s with fw.bytes := s.fw.bytes ++ r.payload.drop 8 }

def fwStageCommit (s : State) : Reply :=
  if s.fw.upd != .staging || s.fw.bytes.length != s.fw.total then refuse s .badState
  else
    match manifestReason s.fw.bytes s.fw.bytes.length false s with
    | some k => .twice (dropStaging s) (reasonStatus k) (le 1 k ++ le 3 0)
    | none =>
      .twice (raise 0xA0 { s with fw.upd := .staged, fwNv.staging := some (readManifest s.fw.bytes), fwNv.stagedPeriod := pval s 0xA000 })
        .ok []

def fwStageClear (s : State) : Reply :=
  match s.fw.upd with
  | .none => replyOk s
  | .staging => replyOk (dropStaging s)
  | .staged => if dirStep s = 0 then replyOk (dropStaging s) else refuse s .badState
  | _ => refuse s .badState

/-! ### Installing (R459) -/

/-- What INSTALL leaves in ACTIVE: the staged manifest, its CARRIED key table from the manifest it replaces. -/
def merged (new : Manifest) (old : Option Manifest) : Manifest :=
  if (manPart new 6).carried then { new with keys := (old.getD {}).keys } else new

/-- SAVE and INSTALL from the STEP where the directory stands, to their end: STAGING is consumed and the trial record written. -/
def installAll (s : State) : State :=
  let k := dirStep s
  match s.fwNv.staging with
  | none => if k = 0 then s else setStep 0 s
  | some m =>
    let old := if k = 2 then s.fwNv.fallback else s.fwNv.active
    let t : Trial := { period := s.fwNv.stagedPeriod }
    setSteps (if k = 2 then [0] else if k = 1 then [2, 0] else [1, 2, 0])
      { s with fwNv.fallback := old, fwNv.active := some (merged m old), fwNv.staging := none, fwNv.trial := some t }

/-- What a fault leaves that struck in SAVE (1), in INSTALL (2) or after both (0): the slot being written no longer verifies. -/
def installPart (k : Nat) (s : State) : State :=
  if k = 0 then installAll s
  else if k = 1 && dirStep s ≤ 1 then
    let s1 := { s with fwNv.fallback := none }
    if dirStep s = 1 then s1 else setStep 1 s1
  else if dirStep s = 2 then { s with fwNv.active := none }
  else setStep 2 { s with fwNv.fallback := s.fwNv.active, fwNv.active := none }

/-- FW_PREPARE: the install begins, or begins again at the STEP that a fault left. -/
def fwPrepare (id : Nat) (s : State) : Reply :=
  if s.fw.upd != .staged then refuse s .badState
  else
    .pend (setSteps (if s.fwNv.staging.isSome && dirStep s = 0 then [1] else []) { s with fw.upd := .preparing, fw.preparing := some id })
      [.firmware]

/-- FW_PREPARE_DONE: every standby bank is loaded, or a fault ended the work in STEP 1, in STEP 2 or at the banks (0). (DEDUCED: log 129) -/
def fwPrepareDone (fault : Option Nat) (s : State) : State :=
  match s.fw.preparing with
  | none => s
  | some id =>
    match fault with
    | some k =>
      let (q, s1) := recordFault rcInstall (le 1 k ++ le 3 0)
        { installPart k s with fw.upd := .staged, fw.preparing := none, fw.banks := false }
      finishOp id .hwFault q s1
    | none =>
      let s1 := installAll s
      let live := dataPlane (s1.fwNv.active.getD {})
      finishOp id .ok []
        { s1 with fw.upd := if live then .prepared else .switched, fw.preparing := none, fw.banks := live }

/-! ### The microcode switch (R462) -/

/-- MA's token is held from 60 s before T_m. (DEDUCED: log 130) -/
def nearSwitch (tm : Nat) (s : State) : Bool := tm ≤ secs s + 60

def fwMicrocodeAt (r : Req) (s : State) : Reply :=
  let tm := rd r.payload 0 4
  if !zeroAt r.payload 4 4 || s.now + tSec 1 > tSec tm || s.now + tSec 2592000 < tSec tm then refuse s .badParam
  else if s.fw.upd != .prepared then refuse s .badState
  else
    let s1 := { s with fw.tm := some tm }
    replyOk (if nearSwitch tm s1 then askToken .ma s1 else dropToken .ma s1)

/-- The switch at T_m: every lane frame in progress ends ABORTED, and the included parts are in force. -/
def switchNow (s : State) : State :=
  let m := s.fwNv.active.getD {}
  let s1 := (List.range s.laneCount).foldl (fun s l => laneEarly 3 l s) s
  let codes := dataParts.foldl (fun t k => if (manPart m k).carried then t else tset t k (manPart m k).version) s1.fw.microcode
  raise 0xA1 (dropToken .ma { s1 with fw.upd := .switched, fw.tm := none, fw.banks := false, fw.microcode := codes })

/-- MICROCODE_SWITCH: T_m passes, with MA's token held: a rotation step in progress has ended by then (19 R490). -/
def microcodeSwitch (s : State) : State :=
  match s.fw.tm with
  | none => s
  | some tm =>
    if s.fw.upd != .prepared || (isl s 29).inReset then s
    else
      let s1 := askToken .ma s
      if holds .ma s1 then switchNow (advTo (tSec tm) s1) else s1

/-! ### Activation (R463) -/

def fwActivate (s : State) : Reply := if s.fw.upd != .switched then refuse s .badState else .pend s [.firmware]

/-- The activation pause begins when FW_ACTIVATE has been answered PENDING. -/
def startPause (s : State) : State :=
  match s.ops.find? (fun o => o.opcode == 0x0A07 && o.kind == .running) with
  | some o => if s.fw.pause.isNone && s.fw.upd == .switched then { s with fw.pause := some (o.id, s.mono) } else s
  | none => s

/-- A trial fails: the FAILED mark, and a SYSRST by the control firmware (R465). -/
def trialFails (s : State) : State :=
  { s with fwNv.trial := s.fwNv.trial.map (fun t => { t with failed := true }), boot.sysReq := some 5 }

/-- ACTIVATION_PAUSE_OVERRUN: 250 ms of pause without the new firmware. -/
def pauseOverrun (s : State) : State :=
  match s.fw.pause with
  | some (_, t) => if s.boot.sysReq.isSome then s else trialFails (advMono (t + tMs 250) s)
  | none => s

/-! ### Confirmation (R464, R465) -/

/-- Each floor rises to the part's ROLLBACK in ACTIVE. -/
def raiseFloors (m : Manifest) (f : Tbl Word) : Tbl Word :=
  (List.range 7).foldl (fun f k =>
    if (tget f k 0).toNat < (manPart m k).rollback.toNat then tset f k (manPart m k).rollback else f) f

def graniteDigests (m : Manifest) : List Byte := slice (manPart m 5).digest 0 32 ++ slice (manPart m 6).digest 0 32

def fwConfirm (s : State) : Reply :=
  if s.fw.upd != .trial then refuse s .badState
  else
    let m := s.fwNv.active.getD {}
    let extra := if granite m then graniteDigests (s.fwNv.fallback.getD {}) ++ graniteDigests m else []
    replyOk (record rcConfirm (le 4 m.ver.toNat ++ extra)
      { s with fwNv.floors := raiseFloors m s.fwNv.floors,
               fwNv.lfmtSet := s.fwNv.lfmtSet ||| (1#16 <<< (m.lfmtWrite - 1)), fwNv.lfmt := m.lfmtWrite,
               fwNv.trial := none, boot.confirmAt := none, fw.noFallback := false, fw.upd := .none })

/-- CONFIRM_TIMER_EXPIRY. -/
def confirmExpiry (s : State) : State :=
  match s.boot.confirmAt with
  | some t => trialFails (advMono t { s with boot.confirmAt := none })
  | none => s

/-! ### The boot ROM (17 R437, R438; R459, R464, R465) -/

/-- A slot boots: it verifies (else it is none), and its counters, its legal formats and its variant still pass. -/
def bootable (m : Manifest) (s : State) : Bool := rollbackOk true m s && legalOk m s && variantOk m s

/-- FALLBACK holds a part below its floor (R465). -/
def staleFallback (s : State) : Bool :=
  match s.fwNv.fallback with
  | some m => !rollbackOk true m s
  | none => false

/-- The manifest the boot ROM hands over to: control firmware runs, the watchdog is armed (R417). -/
def handover (m : Manifest) (s : State) : State :=
  let codes : Tbl Word := dataParts.map (fun k => (k, (manPart m k).version))
  let t := s.fwNv.trial
  let up : UpdState := if s.fwNv.staging.isSome then .staged else if t.isSome && s.fwNv.active == some m then .trial else .none
  { s with boot.stage := 3, boot.wdtArmed := true, boot.wdtRemain := 1000, boot.wdtAt := s.mono, fw.running := some m, fw.pfmt := m.pfmt,
           fw.microcode := codes, fw.upd := up }

/-- A start in TRIAL: counted, and the confirmation timer armed, unless there is no fallback (R464, R465). -/
def trialStart (s : State) : State :=
  match s.fwNv.trial with
  | none => s
  | some t =>
    let arm := !s.fw.noFallback
    let t1 : Trial := { t with starts := t.starts + 1, deadline := if arm then secs s + t.period else 0 }
    { s with fwNv.trial := some t1, boot.confirmAt := if arm then some (s.mono + tSec t.period) else none }

/-- RESTORE: ACTIVE becomes FALLBACK's copy, the trial record goes, and both manifests are recorded (R465). -/
def restoreFallback (s : State) : State :=
  let both := le 4 ((s.fwNv.active.getD {}).ver).toNat ++ le 4 ((s.fwNv.fallback.getD {}).ver).toNat
  raise 0xA3 (record rcFallbackLegal both (record rcFallback both (setSteps [3, 0]
    { s with fwNv.active := s.fwNv.fallback, fwNv.trial := none, fwNv.fallbacks := s.fwNv.fallbacks + 1,
             fw.afterFallback := true, boot.confirmAt := none })))

/-- An install or a restore that a reset cut short runs again to its end (R459). A staged manifest that no longer verifies is discarded, and
SAVE's copy goes back (log 46). -/
def resumeStep (s : State) : State :=
  let k := dirStep s
  if k = 0 then s
  else if k = 3 then setStep 0 { s with fwNv.active := s.fwNv.fallback }
  else if s.fwNv.staging.isSome then installAll s
  else if k = 2 then setStep 0 { s with fwNv.active := s.fwNv.fallback }
  else setStep 0 s

/-- A staged manifest that passes the checks again is installed; one that changes a Granite part waits for SEAL (R457, R464). -/
def installStaged (s : State) : State :=
  match s.fwNv.staging with
  | none => s
  | some m =>
    if !(variantOk m s && carriedOk m s.fwNv.active && rollbackOk false m s && legalOk m s) then s
    else if granite m && !s.bkp.sealOpen then raise 0xA4 { s with fw.held := true }
    else installAll s

/-- A trial that has failed, or whose third start begins, falls back (R465). (DEDUCED: log 126) -/
def judgeTrial (s : State) : State :=
  match s.fwNv.trial with
  | none => s
  | some t =>
    if !t.failed && t.starts < 2 then s
    else if s.fwNv.fallback.isNone || staleFallback s then raise 0xA3 { s with fw.noFallback := true }
    else restoreFallback s

/-- BOOTSRC as it acts: 0b11 outside VENDOR_TEST boots as 0b10, and so does manufacturing, which no rule describes (R425; log 47). -/
def bootSource (s : State) : Nat := if s.boot.bootsrc = 3 then 2 else s.boot.bootsrc

/-- The slot that verifies: ACTIVE, else FALLBACK with the failure recorded (R437). -/
def bootSlot (s : State) : State × Option Manifest :=
  let ok := fun (o : Option Manifest) => o.filter (fun m => bootable m s)
  match ok s.fwNv.active with
  | some m => (s, some m)
  | none => (record rcActiveBad (le 4 ((s.fwNv.active.getD {}).ver).toNat) s, ok s.fwNv.fallback)

/-- Slots whose content no longer verifies hold nothing that boots; a copy of the directory whose CRC fails is not read. -/
def applyVerify (v : BootVerify) (s : State) : State :=
  { s with fwNv.dirA := if v.dirABad then { s.fwNv.dirA with ok := false } else s.fwNv.dirA,
           fwNv.dirB := if v.dirBBad then { s.fwNv.dirB with ok := false } else s.fwNv.dirB,
           fwNv.active := if v.activeBad then none else s.fwNv.active,
           fwNv.fallback := if v.fallbackBad then none else s.fwNv.fallback,
           fwNv.staging := if v.stagingBad then none else s.fwNv.staging }

/-- The update state that the slot directory and the trial record hold (R460). (DEDUCED: log 128) -/
def heldState (s : State) : UpdState :=
  if s.fwNv.staging.isSome then .staged else if s.fwNv.trial.isSome then .trial else .none

/-- STAGE 0x02. (DEDUCED: log 136) -/
def waitImage (s : State) : State := { s with boot.stage := 2, fw.upd := heldState s }

/-- BOOT_ROM_VERIFY: from STAGE 0x01 to the handover, to the wait for an image, or to NO_IMAGE. -/
def bootRomVerify (v : BootVerify) (s : State) : State :=
  if s.boot.stage != 1 || s.boot.fail != 0 || !s.boot.optValid || (isl s 29).inReset || (isl s 33).inReset then s
  else
    let s1 := judgeTrial (installStaged (resumeStep (applyVerify v s)))
    let (s2, slot) := bootSlot s1
    if bootSource s2 = 1 then waitImage s2
    else
      match slot with
      | some m => let s3 := handover m s2
                  if s3.fwNv.trial.isSome && s3.fwNv.active == some m then trialStart s3 else s3
      | none => if bootSource s2 = 2 then waitImage s2 else { s2 with boot.fail := 0x81, fw.upd := heldState s2 }

/-- FW_HOST_BOOT with what the boot ROM reads from host memory; none when the read ends in a bus error (R466). (DEDUCED: log 127) -/
def fwHostBoot (image : Option (List Byte)) (r : Req) (s : State) : Reply :=
  if !zeroAt r.payload 12 4 then refuse s .badParam
  else if s.boot.stage != 2 then refuse s .badState
  else
    match image with
    | none =>
      let (q, s1) := recordFault rcInstall (le 1 4 ++ le 3 0) s
      .twice s1 .hwFault q
    | some b =>
      let b1 := b.take (rd r.payload 8 4)
      match manifestReason b1 (rd r.payload 8 4) true s with
      | some k => .twice s (reasonStatus k) []
      | none => .twice s .ok []

/-- The handover that follows the final response of FW_HOST_BOOT. -/
def hostHandover (image : Option (List Byte)) (r : Req) (before s : State) : State :=
  match image with
  | some b =>
    let b1 := b.take (rd r.payload 8 4)
    if serves before r.mbx && takes r.mbx 0x0A09 r before && before.boot.stage == 2 && r.payload.length == 16
        && zeroAt r.payload 12 4 && (manifestReason b1 (rd r.payload 8 4) true before).isNone then handover (readManifest b1) s
    else s
  | none => s

/-! ### Status and lifecycle (R467, R469) -/

/-- FW_INFO_GET (Table 18-8). -/
def fwInfo (s : State) : List Byte :=
  let ver := fun (o : Option Manifest) => match o with
    | some m => le 4 m.ver.toNat
    | none => le 4 0
  let t := s.fwNv.trial.getD { period := 0 }
  le 1 (updCode s.fw.upd)
    ++ le 1 (b2n s.fw.held + 2 * b2n s.fw.afterFallback + 4 * b2n (staleFallback s) + 8 * b2n s.fw.noFallback)
    ++ le 1 t.starts ++ le 1 0 ++ ver s.fwNv.active ++ ver s.fwNv.fallback ++ ver s.fwNv.staging ++ le 4 t.deadline
    ++ le 4 (s.fw.tm.getD 0) ++ ((List.range 7).map (fun k => le 4 (floorOf s k))).flatten ++ le 1 s.fwNv.lfmt ++ le 1 0
    ++ le 2 s.fwNv.lfmtSet.toNat ++ le 4 s.fw.bytes.length ++ le 4 s.fwNv.fallbacks.toNat

/-- Burn a lifecycle bit in its three copies; a LEGAL record and event 0xA5 (R467). -/
def advanceLifecycle (target : Nat) (s : State) : State :=
  raise 0xA5 (record rcLifecycle (le 1 (lifecycle s) ++ le 1 target ++ le 2 0)
    { s with fuses.row := s.fuses.row.map (fun c => c ||| (1#4 <<< (target - 1))) })

/-- The authorisation for DECOMMISSIONED. -/
def decommissionAuth (p : List Byte) (s : State) : Bool :=
  let n := slice p 4 384
  Config.sha256 n == (match s.fuses.custHash with
    | some h => h
    | none => slice s.fuses.vendorHash 0 32)
    && Config.rsaVerify n (slice s.life.deviceId 0 16 ++ str "DECOMMISSION") (slice p 388 384)

def lifecycleAdvance (r : Req) (s : State) : Reply :=
  let target := rd r.payload 0 1
  let from_ := lifecycle s
  if !zeroAt r.payload 1 3 || !(target == 3 || target == 4) then refuse s .badParam
  else if !(from_ == 2 || (from_ == 3 && target == 4)) then refuse s .badState
  else if !s.bkp.sealOpen then refuse s .sealed
  else if target = 3 then replyOk (advanceLifecycle 3 s)
  else if !decommissionAuth r.payload s then refuse s .authFail
  else
    let s1 := (s.slots.slots.map (fun e => e.1)).foldl (fun s n => (destroySlot n s).1) s
    replyOk (advanceLifecycle 4 { s1 with boot.domainKeys := none, boot.sysReq := some 5 })

def custKeyProgram (r : Req) (s : State) : Reply :=
  if lifecycle s != 2 || s.fuses.custHash.isSome then refuse s .badState
  else replyOk { s with fuses.custHash := some (r.payload.take 32) }

/-! ### Services -/

def fwInfoGetService : Service := { opcode := 0x0A00, lenOk := payloadFree, acc := 0, run := fun _ _ s => replyOk s (fwInfo s) }

def fwStageBeginService : Service :=
  { opcode := 0x0A01, lenOk := lenIs 8, acc := 0, objs := fun _ _ => [.firmware], run := fwStageBegin }

def fwStageWriteService : Service :=
  { opcode := 0x0A02, lenOk := fun p => 9 ≤ p.length && p.length ≤ 65288, acc := 0, objs := fun _ _ => [.firmware],
    run := fun _ r s => fwStageWrite r s }

def fwStageCommitService : Service :=
  { opcode := 0x0A03, lenOk := payloadFree, acc := 0, objs := fun _ _ => [.firmware], run := fun _ _ s => fwStageCommit s }

def fwStageClearService : Service :=
  { opcode := 0x0A04, lenOk := payloadFree, acc := 0, objs := fun _ _ => [.firmware], run := fun _ _ s => fwStageClear s }

def fwPrepareService : Service :=
  { opcode := 0x0A05, lenOk := payloadFree, acc := 0, objs := fun _ _ => [.firmware], run := fun id _ s => fwPrepare id s }

def fwMicrocodeAtService : Service :=
  { opcode := 0x0A06, lenOk := lenIs 8, acc := 0, objs := fun _ _ => [.firmware], run := fun _ r s => fwMicrocodeAt r s }

def fwActivateService : Service :=
  { opcode := 0x0A07, lenOk := payloadFree, acc := 2, objs := fun _ _ => [.firmware], run := fun _ _ s => fwActivate s }

def fwConfirmService : Service :=
  { opcode := 0x0A08, lenOk := payloadFree, acc := 0, objs := fun _ _ => [.firmware], run := fun _ _ s => fwConfirm s }

/-- Its run takes what the boot ROM reads. -/
def fwHostBootService (image : Option (List Byte)) : Service :=
  { opcode := 0x0A09, lenOk := lenIs 16, acc := 0, objs := fun _ _ => [.firmware], run := fun _ r s => fwHostBoot image r s }

def lifecycleAdvanceService : Service :=
  { opcode := 0x0A10, lenOk := fun p => p.length == (if rd p 0 1 = 4 then 772 else 4), acc := 0, objs := fun _ _ => [.firmware],
    run := fun _ r s => lifecycleAdvance r s }

def custKeyProgramService : Service :=
  { opcode := 0x0A11, lenOk := lenIs 32, acc := 0, objs := fun _ _ => [.firmware], run := fun _ r s => custKeyProgram r s }

/-! ### Meanings -/

def execFwInfoGet (r : Req) (s : State) : Host.Outcome State Fault Refusal := .next (serve fwInfoGetService r s)

def execFwStageBegin (r : Req) (s : State) : Host.Outcome State Fault Refusal := .next (serve fwStageBeginService r s)

def execStagingEraseDone (s : State) : Host.Outcome State Fault Refusal := .next (stagingErased s)

def execFwStageWrite (r : Req) (s : State) : Host.Outcome State Fault Refusal := .next (serve fwStageWriteService r s)

def execFwStageCommit (r : Req) (s : State) : Host.Outcome State Fault Refusal := .next (serve fwStageCommitService r s)

def execFwStageClear (r : Req) (s : State) : Host.Outcome State Fault Refusal := .next (serve fwStageClearService r s)

def execFwPrepare (r : Req) (s : State) : Host.Outcome State Fault Refusal := .next (serve fwPrepareService r s)

def execFwPrepareDone (fault : Option Nat) (s : State) : Host.Outcome State Fault Refusal := .next (fwPrepareDone fault s)

def execFwMicrocodeAt (r : Req) (s : State) : Host.Outcome State Fault Refusal := .next (serve fwMicrocodeAtService r s)

def execMicrocodeSwitch (s : State) : Host.Outcome State Fault Refusal := .next (microcodeSwitch s)

def execFwActivate (r : Req) (s : State) : Host.Outcome State Fault Refusal := .next (startPause (serve fwActivateService r s))

def execActivationPauseOverrun (s : State) : Host.Outcome State Fault Refusal := .next (pauseOverrun s)

def execFwConfirm (r : Req) (s : State) : Host.Outcome State Fault Refusal := .next (serve fwConfirmService r s)

def execConfirmTimerExpiry (s : State) : Host.Outcome State Fault Refusal := .next (confirmExpiry s)

def execFwHostBoot (r : Req) (image : Option (List Byte)) (s : State) : Host.Outcome State Fault Refusal :=
  .next (hostHandover image r s (serve (fwHostBootService image) r s))

def execBootRomVerify (v : BootVerify) (s : State) : Host.Outcome State Fault Refusal := .next (bootRomVerify v s)

def execLifecycleAdvance (r : Req) (s : State) : Host.Outcome State Fault Refusal := .next (serve lifecycleAdvanceService r s)

def execCustKeyProgram (r : Req) (s : State) : Host.Outcome State Fault Refusal := .next (serve custKeyProgramService r s)

end Sys2Proof.Machine
end

