-- ==== Sys2Proof/Machine/Reset.lean ====
section
/-! DEFINITION. Reset sources, their reach, the release stages, the option loader and the credit audit (16 R415 to R432; 01 R15 to R18, R10;
19 R485, R486). -/

namespace Sys2Proof.Machine

/-! ### Sources (Table 16-1) -/

/-- Width of a source: a wider one reaches all that a narrower one reaches. -/
def srcRank : RstSrc → Nat
  | .islrst => 0 | .dprst => 1 | .sysrst => 2 | .wdt => 3 | .cold => 4

/-- First stage of a source's sequence. A cold reset goes on at stage 2 once it is released. -/
def firstStage : RstSrc → Nat
  | .islrst => 6 | .dprst => 5 | .sysrst => 4 | .wdt => 3 | .cold => 2

/-- Bits of RST_CAUSE (Table 20-3). -/
def causePor : Nat := 0
def causeNreset : Nat := 1
def causeWdt : Nat := 2
def causeDprst : Nat := 6
def causeIslrst : Nat := 7

/-- Latch a source (R430). -/
def latchCause (bit : Nat) (s : State) : State :=
  { s with boot.cause := s.boot.cause ||| (1#8 <<< bit), boot.causeRec := s.boot.causeRec ||| (1#8 <<< bit) }

/-- The cold reset is asserted. -/
def coldHeld (s : State) : Bool := s.boot.por || s.boot.nreset

/-- A sequence is under way. -/
def sequenceRuns (s : State) : Bool := coldHeld s || s.boot.stageRun != 0

/-- A wider source is under way: a narrower one is absorbed by it (R423). -/
def absorbed (src : RstSrc) (s : State) : Bool := sequenceRuns s && srcRank src < srcRank s.boot.widest

/-! ### Islands into reset (R420, R17) -/

/-- Every link is fenced: each has an end in the main domain. -/
def fenceAll (s : State) : State :=
  { s with links := (List.range dirCount).map (fun d => (d, { linkDir s d with fenced := true })) }

/-- Every island of the main domain, but for those left out, is held; its fault status clears. A generator loses its lock with the system
reference (WDT and wider), and does not run at a cold reset. Each enters its reset when its fence's wait is over (R17). -/
def holdAll (src : RstSrc) (but : Nat → Bool) (s : State) : State :=
  let s1 := fenceAll s
  let s2 := { s1 with isl := (List.range 35).map (fun i =>
      let x := isl s i
      let y : Island := { clkRun := x.clkRun && src != .cold, lock := x.lock && srcRank src < 3, inReset := !but i || x.inReset,
                          waitFrom := if but i || !islPresent s i then none else if x.inReset then x.waitFrom else some s.mono }
      (i, y)) }
  (List.range 35).foldl (fun s i => enterReset i s) s2

/-! ### SYSRST, WDT and the cold reset (R39, R57, R210, R356, R379) -/

/-- What the boot controller keeps: only a cold reset reaches it. -/
def keptBoot (src : RstSrc) (b : Boot) : Boot :=
  match src with
  | .cold => { por := b.por, nreset := b.nreset, cause := b.cause, causeRec := b.causeRec }
  | _ =>
    { b with stageRun := 0, widest := src, isls := [], dpReq := false, dpRun := false, stage := 0, fail := 0, coreSound := true,
             wdtArmed := false, wdtRemain := 0, wdtAt := 0, sysReq := none, synthLock := b.synthLock && src != .wdt }

/-- What the PCIe endpoint keeps: SYSRST does not reach it. -/
def keptPcie (src : RstSrc) (x : Pcie) : Pcie := if srcRank src < 3 then x else {}

/-- What the memory island keeps of a rank: its training and its repair rows, until a cold reset. -/
def keptMem (src : RstSrc) (m : Mem) : Mem :=
  match src with
  | .cold => {}
  | _ => { installedMiB := m.installedMiB, ranks := tmap m.ranks (fun _ r => { trained := r.trained, noPpr := r.noPpr }) }

/-- Every field within the reach takes its reset value; the fuses, the eNVM, the flash, the backup island, the boot controller and what the
model adds of its own do not (R415). -/
def resetMain (src : RstSrc) (s : State) : State :=
  let keepSlate := src != .cold && !(isl s islRecorder).inReset && s.slate.opened && !s.slate.queue.isEmpty
  let s1 := if src = .cold then { s with slots := {} } else expireSlots s
  let s2 := holdAll src (fun i => keepSlate && i == islRecorder) { s1 with out := s.out }
  { pending := s.pending, now := s.now, mono := s.mono, tickAt := s.tickAt, freeCtr := s.freeCtr, out := s2.out, nextOp := s.nextOp, fetchCtr := s.fetchCtr, auditAt := s.auditAt,
    glb := { dieRev := s.glb.dieRev, lastRead := s.glb.lastRead }, mir := { s.mir with stale := true, shadowTo := false, shadow := none },
    isl := s2.isl, links := s2.links, boot := { keptBoot src s.boot with draining := keepSlate }, pcie := keptPcie src s.pcie,
    fuses := s.fuses, mon := { pwrfailN := s.mon.pwrfailN }, bkp := s.bkp, mem := keptMem src s.mem, jnv := s.jnv,
    jnl := { pwr := !s.mon.pwrfailN }, roots := s.roots, slots := s1.slots, slateNv := s.slateNv,
    slate := if keepSlate then { s.slate with dump := none } else {}, life := s1.life, fwNv := s.fwNv,
    faultTimes := if src = .cold then [] else s.faultTimes }

/-- A cold source is asserted: its bit stays alone unless a cold reset is under way already. -/
def coldAssert (bit : Nat) (s : State) : State :=
  let going := sequenceRuns s && s.boot.widest == .cold
  let b := if going then s.boot.cause ||| (1#8 <<< bit) else (1#8 <<< bit)
  resetMain .cold { s with boot.cause := b, boot.causeRec := b }

/-- POR_MAIN_ASSERT (R415). -/
def porAssert (s : State) : State := if s.boot.por then s else coldAssert causePor { s with boot.por := true }

/-- NRESET_ASSERT: a recognised pulse (R419). -/
def nresetAssert (s : State) : State := if s.boot.nreset then s else coldAssert causeNreset { s with boot.nreset := true }

/-- The cold reset is released when no cold source holds it: stage 1 ends and stage 2 begins (R421). -/
def coldRelease (s : State) : State := if coldHeld s then s else { s with boot.stageRun := 2, boot.widest := .cold, boot.optValid := false }

/-- POR_MAIN_RELEASE. -/
def porRelease (s : State) : State := if s.boot.por then coldRelease { s with boot.por := false } else s

/-- NRESET_RELEASE. -/
def nresetRelease (s : State) : State := if s.boot.nreset then coldRelease { s with boot.nreset := false } else s

/-- A SYSRST or WDT is asserted: absorbed by a wider sequence, else the sequence begins again at its first stage (R423). (DEDUCED: log 121) -/
def wideReset (src : RstSrc) (bit : Nat) (s : State) : State :=
  if absorbed src s then latchCause bit { s with boot.sysReq := none }
  else
    let s1 := resetMain src (latchCause bit s)
    { s1 with boot.stageRun := firstStage src }

/-- WDT_EXPIRY: the watchdog is armed and was not refreshed for 1 000 ms, so at the earliest 1 000 ms after the handover (R417). Which of its later
refreshes was the last is the firmware's. (DESIGN CHOICE: log 159) -/
def wdtExpiry (s : State) : State :=
  if s.boot.wdtArmed && !coldHeld s then
    wideReset .wdt causeWdt { advMono (s.boot.wdtAt + tMs 1000) s with boot.wdtArmed := false, boot.wdtRemain := 0 }
  else s

/-- PERST_N_ASSERT: it requests SYSRST, and the link goes down until it rises (R416). -/
def perstAssert (s : State) : State := if coldHeld s then s else { s with boot.sysReq := some 4, pcie.up := false }

/-- SYSRST: the one requested, or one of the control firmware while that runs (log 48). -/
def sysrst (s : State) : State :=
  match s.boot.sysReq with
  | some b => if coldHeld s then s else wideReset .sysrst b s
  | none => if 3 ≤ s.boot.stage && !(isl s islControl).inReset then wideReset .sysrst 5 s else s

/-- RECORDER_DRAIN_END: the queue is written, and the recorder island enters reset (14 R379). -/
def drainEnd (s : State) : State :=
  if s.boot.draining && s.slate.queue.isEmpty then
    holdIsland islRecorder { s with boot.draining := false, slate := {} }
  else s

/-! ### DPRST (R421, R422, R431; 20 R507) -/

/-- A rotation step is abandoned: its lane is a spare again and the first of the next step (19 R484). -/
def abandonStep (s : State) : State :=
  match s.rot.lane with
  | none => s
  | some k =>
    let s1 := match s.rot.shadow with
      | some (j, _) => setRole j .spare s
      | none => if roleOf s k == LaneRole.underTest then setRole k .spare s else s
    stepOver { s1 with rot.next := k }

/-- A lane at its reset values, with the assignment active at the release (R60); statistics clear (04 R90). -/
def resetLane (x : Lane) : Lane :=
  let q := qReset x.queue
  { clearStats x with asg := x.next.getD x.asg, next := none, rx := .idle, hdr := 0, octets := [], queue := { q with dropIdle := false } }

/-- A port at its reset values: its island's BIST result stays. -/
def resetPort (x : RfPort) : RfPort :=
  if x.bistFail then setRfState .absent { bistFail := true } else {}

/-- The air MAC state of a sector that the control island holds: transmit schedules, the beacon train, listening before talk. -/
def resetSector (x : Sector) : Sector :=
  { x with state := .normal, misses := 0, reasons := [], fbIntervals := 0, tryOwn := false, due := none, deepDue := none, deepLbt := none, tx := none,
           acks := [], dlOpp := [] }

/-- A PLC port at its reset values: its queue empties, its calibration record stays. -/
def resetPlcPort (x : PlcPort) : PlcPort :=
  let q := qReset x.queue
  { present := x.present, cal := x.cal, queue := { q with dropIdle := false } }

/-- A switching frame due at the gate does not go out: its target waits again (19 R479). -/
def dropGate (s : State) : State :=
  match s.safe.due with
  | none => s
  | some g =>
    let s1 := dropDue s
    if g.plc then endGateTxns s1 else gateBack g.camp g.handle s1

/-- What the assertion of DPRST cuts short: transmissions on air are charged as far as they went (05 R113), power-line transactions end, and a port
leaves FAULT with event 0x31 (06 R132, R171). -/
def cutDataPlane (s : State) : State :=
  let s1 := (List.range 8).foldl (fun s p => chargeCut p s) (dropGate (abandonStep s))
  (List.range 16).foldl (fun s q =>
    let fault := (plcp s q).state == .fault
    raiseIf fault 0x31 (endPortTxns q s)) s1

/-- The data plane and its MAC state at the assertion of DPRST. -/
def clearDataPlane (s : State) : State :=
  let s1 := cutDataPlane s
  let s2 := finishAssigns { s1 with lanes := tmap s1.lanes (fun _ x => resetLane x) }
  { s2 with rf := tmap s2.rf (fun _ x => resetPort x), sectors := tmap s2.sectors (fun _ x => resetSector x),
            plc := tmap s2.plc (fun _ x => resetPlcPort x) }

/-- DPRST begins: the one that RESET_REQUEST asked for; one more joins the one that runs (R431). (DEDUCED: log 119) -/
def dprst (s : State) : State :=
  if !s.boot.dpReq then s
  else if absorbed .dprst s then latchCause causeDprst { s with boot.dpReq := false }
  else
    let s1 := clearDataPlane (latchCause causeDprst { s with boot.dpReq := false, boot.dpRun := true })
    let s2 := (List.range 29).foldl (fun s i => holdIsland i s) s1
    { s2 with boot.widest := .dprst, boot.stageRun := 5, boot.isls := [] }

/-- The DPRST completes with the training that follows it: event 0xBC and the final responses (R422). -/
def dprstDone (s : State) : State :=
  if s.boot.dpRun && s.boot.stageRun != 5 && !(s.rf.any (fun e => e.2.training)) then
    let ids := (s.ops.filter (fun o => o.opcode == 0x0B90 && o.kind == .running)).map (fun o => o.id)
    finishOps ids .ok [] (raise 0xBC { s with boot.dpRun := false })
  else s

/-- RESET_REQUEST (R416, R431). -/
def resetRequest (r : Req) (s : State) : Reply :=
  let reach := rd r.payload 0 1
  if !zeroAt r.payload 1 3 || !(reach == 1 || reach == 2) then refuse s .badParam
  else if reach = 2 then replyOk { s with boot.sysReq := some 3 }
  else .pend (if s.boot.dpRun then s else { s with boot.dpReq := true }) []

/-! ### ISLRST (01 R16; 19 R485, R486) -/

/-- An ISLRST within the last 24 h. -/
def resetLately (x : Island) (s : State) : Bool :=
  match x.lastIslrst with
  | some t => s.mono < t + tSec 86400
  | none => false

/-- What the island's units lose. -/
def islandDown (i : Nat) (s : State) : State :=
  if i ≤ 16 then laneIslandDown i s
  else if i ≤ 24 then
    let p := i - 17
    if rfUp s p then portDown p s else setRf p (fun x => { x with training := x.training || x.state == .down || x.state == .awaitTc, trainRun := false }) s
  else
    (List.range 4).foldl (fun s k =>
      let q := 4 * (i - 25) + k
      let s1 := endPortTxns q s
      let on := plcEnabled s1 q && (plcp s1 q).state != .fault
      setPlc q (fun x =>
        let y := qReset x.queue
        { x with rx := none, ldEnN := true, queue := { y with dropIdle := false },
                 state := if on then .calibrating else x.state }) s1) s

/-- ISLRST of a lane, channeliser or PLC island; the second within 24 h excludes it. (DEDUCED: log 120) -/
def islrst (i : Nat) (s : State) : State :=
  if 28 < i || !islPresent s i || islExcluded s i then s
  else if absorbed .islrst s then latchCause causeIslrst s
  else if (isl s i).inReset || !islUp s islControl then s
  else
    let second := resetLately (isl s i) s
    let s1 := islandDown i (latchCause causeIslrst s)
    let s2 := setIsl i (fun x => { x with islrstCnt := satAdd 255 x.islrstCnt 1, lastIslrst := some s.mono, bistDue := true }) (holdIsland i s1)
    let s3 := { s2 with boot.widest := .islrst, boot.stageRun := 6, boot.isls := s2.boot.isls ++ [i] }
    if second then excludeIsland i causeReset 4 s3 else s3

/-! ### The release stages (R421, Table 16-3) -/

/-- Island i leaves reset: its clock runs and has lock (R10), and its fences lift. -/
def releaseIsland (i : Nat) (s : State) : State :=
  if islPresent s i && (isl s i).inReset && !islExcluded s i && (isl s i).lockRetries < 2 then
    liftFences i (setIsl i (fun x => { x with clkRun := true, lock := true, inReset := false }) s)
  else s

/-- The load of stage 2: the lifecycle row, then at most two attempts (R427 to R429). In BLANK every group is blank and valid; otherwise a
blank group 0, 1 or 4 fails. -/
def optionLoad (opt : OptLoad) (s : State) : State :=
  let forced : BitVec 6 := if lifecycle s = 0 then 0 else s.fuses.blank &&& 0b010011
  let bad := fun (b : BitVec 6) => if lifecycle s = 0 then 0 else b ||| forced
  let one := bad opt.bad1
  let two := bad opt.bad2
  if one = 0 then { s with boot.optValid := true, boot.optGroups := 0, boot.attempts := 1 }
  else if two = 0 then { s with boot.optValid := true, boot.optGroups := 0, boot.attempts := 2 }
  else record rcOptions (le 1 two.toNat ++ le 3 0) { s with boot.optFailed := true, boot.optGroups := two, boot.attempts := 2 }

/-- The domain keys are derived at a cold start, in VENDOR_TEST, PROVISION and FIELD, with valid options (13 R348, R349). -/
def deriveKeys (s : State) : State :=
  let l := lifecycle s
  if s.boot.optValid && 1 ≤ l && l ≤ 3 then
    { s with boot.domainKeys := some (s.fuses.custHash.getD (List.replicate 32 0)) }
  else s

/-- Stage 2 ends: straps and options (R424 to R429). -/
def stage2 (straps : BitVec 4) (opt : OptLoad) (s : State) : State :=
  let src := (straps.extractLsb' 0 2).toNat
  let ovr := src == 3 && lifecycle s != 1
  let s1 := { s with boot.bootsrc := src, boot.clkmode := (straps.extractLsb' 2 2).toNat, boot.bootOvr := ovr, boot.stageRun := 3 }
  let s2 := deriveKeys (optionLoad opt s1)
  if ovr then record rcStrap (le 4 src) s2 else s2

/-- The record of the sources latched since the previous one (R430). -/
def causeRecord (s : State) : State :=
  let c := s.boot.causeRec
  record (if c.getLsbD causeWdt then rcResetCauseWdt else rcResetCause) (le 4 c.toNat) { s with boot.causeRec := 0 }

/-- Stage 4 ends: the core islands are released in order and the boot ROM starts (R421). -/
def stage4 (s : State) : State :=
  if s.boot.draining then s
  else
    let s1 := [29, 30, 31, 32, 34, 33].foldl (fun s i => releaseIsland i s) s
    let s2 := { s1 with life.starts := s1.life.starts + 1, boot.stage := 1, boot.fail := if s1.boot.optFailed then 0x80 else 0,
                        boot.stageRun := if s1.boot.optFailed then 0 else 5 }
    let s3 := reportTampers (causeRecord s2)
    if s3.boot.widest == .cold then coldSlots s3 else s3

/-- After a DPRST every port whose island runs is trained, the enabled PLC ports calibrate, and the others are disabled (R422, 17 R447). -/
def bringBack (s : State) : State :=
  let s1 := (List.range 8).foldl (fun s p =>
    setRf p (fun x => if islUp s (islRf p) && !x.bistFail then { setRfState .disabled x with training := true } else setRfState .absent x) s) s
  (List.range 16).foldl (fun s q =>
    if !(plcp s q).present then s
    else
      let s2 := setPlc q (fun x => { x with state := .disabled }) s
      if plcVal s q 0 = 1 && s.cfg.everCommitted && islUp s (islPlc q) then startCal q s2 else s2) s1

/-- Stage 5 ends: the data-plane islands are released (R421). -/
def stage5 (s : State) : State :=
  let s1 := (List.range 29).foldl (fun s i => releaseIsland i s) { s with boot.stageRun := 0 }
  if s1.boot.dpRun then dprstDone (bringBack s1) else s1

/-- Stage 6 ends: the islands of the ISLRST are released. -/
def stage6 (s : State) : State :=
  s.boot.isls.foldl (fun s i => releaseIsland i s) { s with boot.stageRun := 0, boot.isls := [] }

/-- RELEASE_STAGE_END: the stage that runs ends, once every island of its reach has entered reset (R17, R421). -/
def releaseStageEnd (straps : BitVec 4) (opt : OptLoad) (s : State) : State :=
  if fenceWaits s then s
  else match s.boot.stageRun with
  | 2 => stage2 straps opt s
  | 3 => { s with boot.synthLock := true, boot.stageRun := 4 }
  | 4 => stage4 s
  | 5 => stage5 s
  | 6 => stage6 s
  | _ => s

/-- GEN_LOCK_TIMEOUT: a generator has not locked within 200 µs. The first time it is retried; the second leaves the island in reset with its clock
stopped and its fault bit set, and outside a start self-repair handles it as a failed BIST (R420; log 49). -/
def genLockTimeout (i : Nat) (s : State) : State :=
  if 35 ≤ i || !islPresent s i || !(isl s i).inReset || s.boot.stageRun < 4 || 2 ≤ (isl s i).lockRetries then s
  else
    let n := (isl s i).lockRetries + 1
    let s1 := setIsl i (fun x => { x with lockRetries := n, clkRun := n < 2, lock := false }) s
    if n < 2 then s1
    else if i ≤ 28 && (s.boot.widest == .dprst || s.boot.widest == .islrst) then excludeIsland i causeReset 2 s1
    else islandFault i 2 s1

/-- SYNTH_LOCK_RETRY: 100 ms after the last try the lock is tried again (R426). -/
def synthLockRetry (locked : Bool) (s : State) : State :=
  if s.boot.stageRun != 3 || s.boot.synthLock then s
  else
    let s1 := advMono (s.mono + tMs 100) s
    if locked then { s1 with boot.synthLock := true, boot.stageRun := 4 } else s1

/-! ### The credit audit (01 R15, R16) -/

/-- The lane, channeliser and PLC islands that a direction joins. -/
def dataEnds (d : Nat) : List Nat :=
  match dirOf d with
  | some (a, b, _) => [a, b].filter (fun i => i ≤ 28)
  | none => []

/-- A direction whose comparisons disagree: the record names the link, the direction and the three counts, for which the counts of flits sent, of
credits released and of credits held are taken (DESIGN CHOICE: log 50); event 0x10, both fault bits, and ISLRST of the data-plane islands it joins,
which fences the link (R16). -/
def linkFault (u : AuditUpset) (s : State) : State :=
  match dirOf u.dir with
  | none => s
  | some (a, b, _) =>
    let s1 := record rcLinkFault
      (le 4 (u.dir / 2) ++ le 4 (u.dir % 2) ++ le 4 u.sent ++ le 4 u.released ++ le 4 u.held) s
    (dataEnds u.dir).foldl (fun s i => islrst i s) (islandFault b 1 (islandFault a 1 (raise 0x10 s1)))

/-- CREDIT_AUDIT: 1 s after the one before, on every direction that is not fenced, in order (R15). A time already passed is no obstacle: the audit is
late then by what the commands before it took (log 3). -/
def creditAudit (upsets : List AuditUpset) (s : State) : State :=
  let s1 := advMono (s.auditAt + tSec 1) s
  (List.range dirCount).foldl (fun s d =>
    if !dirOpen s d then s
    else
      let u := auditCounts s upsets d
      if auditAgrees u then setDir d (fun x => { x with audited := true }) s
      else linkFault u (setDir d (fun x => { x with audited := false }) s)) { s1 with auditAt := s1.mono }

/-! ### Meanings -/

def resetRequestService : Service := { opcode := 0x0B90, lenOk := lenIs 4, acc := 0, run := fun _ r s => resetRequest r s }

def execCreditAudit (upsets : List AuditUpset) (s : State) : Host.Outcome State Fault Refusal := .next (creditAudit upsets s)

def execPorMainAssert (s : State) : Host.Outcome State Fault Refusal := .next (porAssert s)

def execPorMainRelease (s : State) : Host.Outcome State Fault Refusal := .next (porRelease s)

def execNresetAssert (s : State) : Host.Outcome State Fault Refusal := .next (nresetAssert s)

def execNresetRelease (s : State) : Host.Outcome State Fault Refusal := .next (nresetRelease s)

def execPerstNAssert (s : State) : Host.Outcome State Fault Refusal := .next (perstAssert s)

def execWdtExpiry (s : State) : Host.Outcome State Fault Refusal := .next (wdtExpiry s)

def execSysrst (s : State) : Host.Outcome State Fault Refusal := .next (sysrst s)

def execRecorderDrainEnd (s : State) : Host.Outcome State Fault Refusal := .next (drainEnd s)

def execDprst (s : State) : Host.Outcome State Fault Refusal := .next (dprst s)

def execIslrst (i : Nat) (s : State) : Host.Outcome State Fault Refusal := .next (islrst i s)

def execResetRequest (r : Req) (s : State) : Host.Outcome State Fault Refusal := .next (serve resetRequestService r s)

def execReleaseStageEnd (straps : BitVec 4) (opt : OptLoad) (s : State) : Host.Outcome State Fault Refusal :=
  .next (releaseStageEnd straps opt s)

def execGenLockTimeout (i : Nat) (s : State) : Host.Outcome State Fault Refusal := .next (genLockTimeout i s)

def execSynthLockRetry (locked : Bool) (s : State) : Host.Outcome State Fault Refusal := .next (synthLockRetry locked s)

end Sys2Proof.Machine
end

