-- ==== Sys2Proof/Machine/Bringup.lean ====
section
/-! DEFINITION. From power to service: BIST of the core islands, PCIe and DDR-4, the start scan and replay, transceiver training, PLC offsets and
the BIST of the data plane (17 R433 to R453). -/

namespace Sys2Proof.Machine

/-! ### STAGE 0x03 to 0x05 (R436, R439 to R441, R453) -/

/-- CORE_BIST: the core islands that fail after SRAM repair, those still in reset among them, the SRAM repairs made, the outcome of the start-up proof
test, and the journal entries whose cells read otherwise, which the replay reads so (19 R477, R487; 14 R388). -/
def coreBist (failed : List Nat) (res : CoreBistIn) (s0 : State) : State :=
  if s0.boot.stage != 3 || s0.boot.fail != 0 then s0
  else
    let s := addSramRepairs res.repairs s0
    let bad := (List.range 6).map (fun k => 29 + k) |>.filter (fun i => failed.contains i || (isl s i).inReset)
    if !bad.isEmpty then { s with boot.fail := 0x82, boot.coreSound := !bad.contains 29 && !bad.contains 33 }
    else
      let s1 := { s with safe.lastProof := secs s, boot.stage := 4, boot.jnlRead := res.journal }
      match res.proof with
      | none => proofPassed s1
      | some code => safetyFault code s1

/-- PCIE_LINK_TRAIN: a width in lanes and a speed in tenths of GT/s; a WARN record below x4 at 16 GT/s (R439). -/
def pcieTrain (width speed : Nat) (s : State) : State :=
  if !s.boot.synthLock || s.pcie.up || !([1, 2, 4].contains width) || !([25, 50, 80, 160].contains speed) then s
  else
    let s1 := { s with pcie.up := true, pcie.width := width, pcie.speed := speed }
    if width < 4 || speed < 160 then record rcPcieWidth (le 2 width ++ le 2 speed) s1 else s1

/-- The record of a rank that failed a training step (R440). -/
def rankRecord (r : RankTrain) (s : State) : State :=
  match r.failedStep with
  | some k => record rcDdrRank (le 2 r.rank ++ le 2 k) s
  | none => s

/-- Every soft repair in the repair ledger of a rank that trained is in force again (R440; 08 R214). -/
def reapplyRepairs (s : State) : State :=
  let rows := fun (r : Nat) => (s.life.repair.filter (fun e => e.typ == 4 && e.obj.toNat / 2 ^ 24 == r)).map (fun e => e.obj.toNat % 2 ^ 24)
  { s with mem.ranks := tmap s.mem.ranks (fun r x => if x.trained then { x with repaired := rows r } else x) }

/-- DDR_TRAINING: the ranks are trained at a cold start, and every burst is written at each start; below 4 GiB the engine enters DRAM_FAILED and the
memory island sets its fault bit (R440, R441; 08 R209). Results of a start that no cold reset has ended are kept (16 R415). (DEDUCED: log 122) -/
def ddrTrain (ranks : List RankTrain) (s : State) : State :=
  if s.boot.stage != 4 || s.boot.fail != 0 then s
  else
    let s1 := if s.mem.ranks.isEmpty then
        let ok := ranks.filter (fun r => r.failedStep.isNone)
        let s2 := ranks.foldl (fun s r => rankRecord r s) s
        { s2 with mem.installedMiB := (ok.map (fun r => r.mib)).sum,
                  mem.ranks := ranks.foldl (fun t r => tset t r.rank { trained := r.failedStep.isNone }) [] }
      else s
    let s2 := reapplyRepairs s1
    if s2.mem.installedMiB < 4096 then islandFault 32 0 { s2 with boot.fail := 0x83 } else { s2 with boot.stage := 5 }

/-! ### Replay (09 R250, R259; 10 R281, R294; 15 R406) -/

/-- TRUST of the last TIME entry, or trusted when there is none (R406). (DEDUCED: log 118) -/
def lastTrust : List JEntry → Bool
  | [] => true
  | es =>
    match (es.reverse).find? isTime with
    | some e => (match e.body with
      | .time t _ => t
      | _ => true)
    | none => true

/-- The last group is not a PWRFAIL entry without RECOVERED (R281). (DEDUCED: log 134) -/
def lossUnwarned (es : List JEntry) : Bool :=
  match es.getLast? with
  | none => false
  | some e => match e.body with
    | .pwrfail recovered _ _ => recovered
    | _ => true

/-- COUNT consecutive records of a PR class from a JSEQ on (R256). -/
def members (recs : List ExpRec) (pr : Bool) (first count : Nat) : List ExpRec :=
  ((recs.filter (fun r => r.pr == pr)).dropWhile (fun r => r.jseq != first)).take count

/-- Engine second of the TIME entry that governs a JSEQ. -/
def governing (j : Nat) (es : List JEntry) : Nat :=
  match ((es.takeWhile (fun e => e.jseq != j)).reverse).find? isTime with
  | some e => (match e.body with
    | .time _ t => t
    | _ => 0)
  | none => 0

/-- The bundles above the last confirmed sequence, rebuilt from their BUNDLE entries in BSEQ order (R259). -/
def rebuiltBundles (s : State) : List Bundle :=
  let es := s.jnv.entries
  let recs := es.filterMap (fun e => e.exp)
  let one := fun (e : JEntry) => match e.body with
    | .bundle n first count mode =>
      if n ≤ s.roots.bseqConf then none
      else
        let b : Bundle := { mode := mode, records := members recs (mode != 0) first count, openTime := tSec (governing first es),
                            closeTime := s.now, bseq := n, rebuilt := true }
        some b
    | _ => none
  sortBy (fun a b => a.bseq < b.bseq) (es.filterMap one)

/-- Bundles come back: those rebuilt stand before any new one, and the records without a BUNDLE entry form new ones (R259). (DEDUCED: log 100) -/
def rebuildBundles (s : State) : State :=
  let old := rebuiltBundles s
  let taken := (old.map (fun b => b.records.map (fun r => r.jseq))).flatten
  let loose := s.jnv.entries.filterMap (fun e =>
    if e.needBundle && !taken.contains e.jseq then e.exp else none)
  let top := s.jnv.entries.foldl (fun m e => match e.body with
    | .bundle n _ _ _ => max m n
    | _ => m) s.roots.bseqConf
  let s1 := loose.foldl (fun s x => joinAt (tSec (governing x.jseq s.jnv.entries)) s x) { s with prov.nextBseq := top + 1 }
  { s1 with prov.closed := old ++ s1.prov.closed }

/-- Replay reads the entries in sequence order from the stored tail, each as written unless the array gives other bits: it takes the groups up
to the first entry that fails, and the head stands behind the last one taken (R250). (DEDUCED: log 134) -/
def replayRead (read : List (Nat × Nat)) (s : State) : State :=
  let ok := fun (e : JEntry) => entryValid e.jseq (((read.find? (fun x => x.1 == e.jseq)).map (fun x => x.2)).getD (entryWord e))
  let es := takeGroups ok [] s.jnv.entries
  let head := match es.getLast? with
    | some e => e.jseq + 1
    | none => s.jnv.tail
  { s with jnv.entries := es, jnv.head := head }

/-- Replay: the groups taken, loss without warning, trust, bundles and SEAL, in that order. -/
def replayJournal (s0 : State) : State :=
  let s := replayRead s0.boot.jnlRead s0
  let lost := lossUnwarned s.jnv.entries
  let s1 := { s with jnl.replayed := true, ledger.unwarned := lost }
  let s2 := jnlRefresh (if lost then record rcUnwarned (le 4 s.jnv.head) s1 else s1)
  let s3 := raiseIf (lastTrust s.jnv.entries != trusted s) 0xC0 { s2 with trustSeen := some (trusted s) }
  let s4 := rebuildBundles s3
  if s4.roots.sealCount != s4.bkp.sealCount then sealChanged true s4 else s4

/-- A port that training can reach: its channeliser island runs and is not excluded. -/
def trainable (s : State) (p : Nat) : Bool := islUp s (islRf p) && !islExcluded s (islRf p) && !(rfp s p).bistFail

/-- STAGE 0x06 ends when no training is left. -/
def portsTrained (s : State) : State :=
  if s.boot.stage = 6 && !(s.rf.any (fun e => e.2.training)) then { s with boot.stage := 7 } else s

/-- START_SCAN_REPLAY: the recorder opens, the journal is replayed, and the training of every port is owed (R447, R453). Where bring-up has stopped
only the recorder opens: it runs in those states too (14 R386). (DEDUCED: log 123) -/
def startScanReplay (s : State) : State :=
  if s.boot.fail != 0 then startScan s
  else if s.boot.stage != 5 || s.boot.stageRun != 0 then s
  else
    let s1 := replayJournal (startScan s)
    let s2 := (List.range 8).foldl (fun s p =>
      setRf p (fun x => if trainable s p then { setRfState .disabled x with training := true } else setRfState .absent x) s) s1
    portsTrained { s2 with boot.stage := 6 }

/-! ### Training an RF port (R442 to R449) -/

/-- Register k of the capability set as read, 16 bits. -/
def regOf (t : TrainTry) (k : Nat) : Nat := t.regs.getD k 0 % 65536

/-- Good-run width of a pair. -/
def runWidth (r : Nat × Nat × Bool) : Nat := if r.2.1 ≤ 63 && r.1 ≤ r.2.1 then r.2.1 + 1 - r.1 else 0

/-- Step k of Table 17-3 passes; lat is LOOP_LAT as read in step 1. -/
def stepPass (k lat : Nat) (t : TrainTry) : Bool :=
  match k with
  | 1 =>
    regOf t 0 == 0x1A7C && regOf t 1 % 256 == 1 && bit (regOf t 2) 4 && regOf t 2 % 16 != 0 && regOf t 3 < regOf t 4
      && regOf t 5 ≤ 40000 && 1 ≤ regOf t 6 && regOf t 6 ≤ 400 && regOf t 7 ≤ 40000 && 1 ≤ regOf t 8 % 256 && regOf t 9 ≤ 5000
  | 2 => t.runs.length == 3 && t.runs.all (fun r => 16 ≤ runWidth r)
  | 3 => t.wordOk
  | 4 => t.rxErr == 0 && t.txErr == 0
  | _ => t.loopOk && t.loopDelay ≤ lat + 1 && lat ≤ t.loopDelay + 1

/-- What an attempt of a step leaves in the training record (Table 17-4). -/
def noteStep (k n : Nat) (t : TrainTry) (x : TrainRec) : TrainRec :=
  let y : TrainRec := { x with attempts := n }
  match k with
  | 1 => { y with ver := regOf t 1, rates := regOf t 2, flo := regOf t 3, fhi := regOf t 4, txLat := regOf t 5, txenLead := regOf t 6,
                  rxLat := regOf t 7, loopLat := regOf t 8 % 256, tuneUs := regOf t 9 }
  | 2 =>
    let at_ := fun (i : Nat) => t.runs.getD i (0, 0, false)
    { y with flags := b2n (at_ 0).2.2 + 2 * b2n (at_ 1).2.2 + 4 * b2n (at_ 2).2.2,
             taps := (List.range 3).map (fun i => ((at_ i).1 + (at_ i).2.1) / 2), runs := (List.range 3).map (fun i => runWidth (at_ i)) }
  | 3 => { y with slip := t.slip }
  | 4 => { y with rxErr := t.rxErr, txErr := t.txErr }
  | _ => { y with loopDelay := t.loopDelay }

/-- SPI transactions of an attempt of a step, in order: read, address, data (R442, Table 17-3). -/
def stepSpi (k : Nat) : List (Bool × Nat × Nat) :=
  match k with
  | 1 => (List.range 10).map (fun a => (true, a, 0))
  | 2 => [(false, 0x20, 1)]
  | 3 => [(true, 0x21, 0)]
  | 4 => [(true, 0x22, 0), (false, 0x20, 2), (true, 0x22, 0)]
  | _ => [(false, 0x20, 3)]

/-- The steps from k on, attempt n next: result code (0 OK) with the record and the SPI transactions; none while the attempts given do not end
the training. A step that fails four attempts ends it with the code of the step (R446). -/
def runSteps : List TrainTry → Nat → Nat → TrainRec → List (Bool × Nat × Nat) → Option (TrainRec × List (Bool × Nat × Nat))
  | [], _, _, _, _ => none
  | t :: rest, k, n, x, io =>
    let y := noteStep k n t x
    let io1 := io ++ stepSpi k
    if stepPass k y.loopLat t then
      if k = 5 then some ({ y with result := 0 }, io1 ++ [(false, 0x20, 0)]) else runSteps rest (k + 1) 1 y io1
    else if n = 4 then some ({ y with result := k + 1 }, io1)
    else runSteps rest k (n + 1) y io1

/-- Put transactions of a port on its SPI bus. -/
def spiOut (p : Nat) (io : List (Bool × Nat × Nat)) (s : State) : State :=
  { s with out := (io.map (fun e => Output.spi p e.1 e.2.1 e.2.2)).reverse ++ s.out }

/-- RF_PORT_TRAIN: RFRST_N goes low for 1 ms and then high; TXEN_N and PAEN_N stay high (R445). -/
def rfTrain (p : Nat) (s : State) : State :=
  if p < 8 && (rfp s p).training && !(rfp s p).trainRun && trainable s p then
    spiOut p [(true, 0, 0)]
      (setRf p (fun x => { x with trainRun := true, rfrstN := true, rxenN := true, txenN := true, paenN := true }) s)
  else s

/-- The state a port is trained for: enabled by the values in force, or by the commit whose T_c has not come (R447). -/
def portGoal (s : State) (p : Nat) : RfState :=
  if s.cfg.everCommitted && pval s (pidRf p 0) == 1 then .receiving
  else if s.cfg.state == .committing && (match s.cfg.window with
    | some w => wval w (pidRf p 0) == 1
    | none => false) then .awaitTc
  else .disabled

/-- Frequency and rate that end a training (R445). -/
def tuneIo (s : State) (p : Nat) (goal : RfState) : List (Bool × Nat × Nat) :=
  let val := fun id => match s.cfg.window with
    | some w => if goal = .awaitTc then wval w id else pval s id
    | none => pval s id
  let f := val (pidRf p 1)
  (false, 0x20, 4 * val (pidRf p 2)) :: (if goal = .disabled then [] else [(false, 0x24, f % 65536), (false, 0x25, f / 65536)])

/-- The training succeeds: a port that was down is up again, with event 0x21. -/
def trainOk (p : Nat) (x : TrainRec) (io : List (Bool × Nat × Nat)) (s : State) : State :=
  let was := (rfp s p).state
  let busy := was == .receiving || was == .transmitting
  let goal := if busy then was else portGoal s p
  let s1 := spiOut p (io ++ tuneIo s p goal)
    (setRf p (fun r => { setRfState goal r with train := x, training := false, trainRun := false, seq := none, errAt := [] }) s)
  let s2 := if goal = .awaitTc then { s1 with cfg.trained := s1.cfg.trained ++ [(p, true)] } else s1
  raiseIf (was == .down && goal == .receiving) 0x21 s2

/-- The training fails: absent at once, or from T_c on when a commit asked for it; a FAULT record names port, step and result (R446, R447). -/
def trainFail (p : Nat) (x : TrainRec) (io : List (Bool × Nat × Nat)) (s : State) : State :=
  let atTc := portGoal s p == .awaitTc
  let s1 := spiOut p io (setRf p (fun r =>
    { setRfState (if atTc then .disabled else .absent) r with train := x, training := false, trainRun := false }) s)
  let s2 := if atTc then { s1 with cfg.trained := s1.cfg.trained ++ [(p, false)] } else s1
  record rcTrainFail (le 1 p ++ le 1 (x.result - 1) ++ le 1 x.result ++ le 1 0) s2

/-- RF_PORT_TRAIN_END. -/
def rfTrainEnd (p : Nat) (res : TrainIn) (s : State) : State :=
  if !(p < 8) || !(rfp s p).trainRun then s
  else
    let out := if res.magicSeen then runSteps res.tries 1 1 {} [] else some ({ result := 1 }, [])
    match out with
    | none => s
    | some (x, io) =>
      let y : TrainRec := { x with endTime := s.now }
      let s1 := if y.result = 0 then trainOk p y io s else trainFail p y io s
      dprstDone (portsTrained (noteCaps s s1))

/-- TRAIN_REPORT_GET (Table 17-4). -/
def trainReport (p : Nat) (x : TrainRec) : List Byte :=
  if x.result = 7 then le 1 p ++ le 1 7 ++ le 46 0
  else
    le 1 p ++ le 1 x.result ++ le 1 x.attempts ++ le 1 x.flags ++ (x.taps.map (le 1)).flatten ++ le 1 0 ++ (x.runs.map (le 1)).flatten
      ++ le 1 x.slip ++ le 2 x.loopDelay ++ le 2 0 ++ le 4 x.rxErr ++ le 2 x.txErr ++ le 2 x.ver
      ++ ([x.rates, x.flo, x.fhi, x.txLat, x.txenLead, x.rxLat, x.loopLat, x.tuneUs].map (le 2)).flatten ++ le 8 x.endTime

def trainReportGet (r : Req) (s : State) : Reply :=
  let p := rd r.payload 0 1
  if 7 < p || !zeroAt r.payload 1 3 then refuse s .badParam else replyOk s (trainReport p (rfp s p).train)

/-! ### STAGE 0x07 and 0x08 (R450, R452) -/

/-- The offsets of one port: port, receive and transmit offset. A port without a running island stays absent. -/
def plcOffset (offsets : List (Nat × Int × Int)) (q : Nat) (s : State) : State :=
  if !islUp s (islPlc q) || islExcluded s (islPlc q) then s
  else
    let m := (offsets.find? (fun e => e.1 == q)).getD (q, 0, 0)
    let ok := m.2.1.natAbs ≤ 512
    let f := fun (x : PlcPort) => { x with cal := { x.cal with status := 0, rxOff := m.2.1, txOff := m.2.2, time := s.now } }
    raiseIf (!ok) 0x31 (setPlc q (fun x => if ok then { f x with state := .disabled, present := true, ldEnN := true } else plcOffsetBad (f x)) s)

/-- PLC_OFFSET_CAL. -/
def plcOffsetCal (offsets : List (Nat × Int × Int)) (s : State) : State :=
  if s.boot.stage != 7 || s.boot.stageRun != 0 then s
  else { (List.range 16).foldl (fun s q => plcOffset offsets q s) s with boot.stage := 8 }

/-- Islands of the data plane that fail BIST: those found bad, and those still in reset. -/
def bistBad (s : State) (found : List Nat) : List Nat :=
  (List.range 29).filter (fun i => islPresent s i && !islExcluded s i && (found.contains i || (isl s i).inReset))

/-- A failing channeliser or PLC island makes its ports absent. -/
def bistPorts (i : Nat) (s : State) : State :=
  if 17 ≤ i && i ≤ 24 then setRf (i - 17) (fun x => { setRfState .absent x with bistFail := true, training := false, trainRun := false }) s
  else if 25 ≤ i && i ≤ 28 then
    (List.range 4).foldl (fun s k => setPlc (4 * (i - 25) + k) plcGone s) s
  else s

/-- Lanes that the BIST excludes: those that fail, those of a failing island, or all when no channeliser island passes. -/
def bistLanes (s : State) (bad badLanes : List Nat) : List Nat :=
  let noCi := (List.range 8).all (fun p => bad.contains (17 + p) || islExcluded s (17 + p))
  physLanes.filter (fun k => laneWorks s k && (noCi || badLanes.contains k || bad.contains (k / 16)))

/-- Logical lane i is served by the i-th working lane; the others are spares (19 R480). -/
def mapLanes (s : State) : State :=
  let work := workingLanes s
  let l := logicalCount work.length
  let roles := physLanes.map (fun k =>
    (k, if !work.contains k then LaneRole.excluded
        else match work.idxOf? k with
          | some i => if i < l then LaneRole.serving i else LaneRole.spare
          | none => LaneRole.spare))
  { s with roles := roles, laneCount := l, rot.lastStep := work.map (fun k => (k, s.mono)) }

/-- DATAPLANE_BIST: the islands and lanes that fail and the SRAM repairs made; STAGE 0x09, with event 0x13 (R436, R452; 19 R487). -/
def dataplaneBist (badIslands badLanes repairs : List Nat) (s0 : State) : State :=
  if s0.boot.stage != 8 || s0.boot.stageRun != 0 then s0
  else
    let s := addSramRepairs repairs s0
    let bad := bistBad s badIslands
    let gone := bistLanes s bad badLanes
    let s1 := gone.foldl (fun s k => addRepair 1 causeTest k s) (bad.foldl (fun s i => bistPorts i s) s)
    let s2 := mapLanes (raiseIf (!gone.isEmpty) 0xB2 s1)
    raise 0x13 { s2 with boot.stage := 9 }

/-! ### Meanings -/

def trainReportGetService : Service :=
  { opcode := 0x0BA0, lenOk := lenIs 4, acc := 0, ready := true, run := fun _ r s => trainReportGet r s }

def execCoreBist (failed : List Nat) (res : CoreBistIn) (s : State) : Host.Outcome State Fault Refusal := .next (coreBist failed res s)

def execPcieLinkTrain (width speed : Nat) (s : State) : Host.Outcome State Fault Refusal := .next (pcieTrain width speed s)

def execDdrTraining (ranks : List RankTrain) (s : State) : Host.Outcome State Fault Refusal := .next (ddrTrain ranks s)

def execStartScanReplay (s : State) : Host.Outcome State Fault Refusal := .next (startScanReplay s)

def execRfPortTrain (p : Nat) (s : State) : Host.Outcome State Fault Refusal := .next (rfTrain p s)

def execRfPortTrainEnd (p : Nat) (res : TrainIn) (s : State) : Host.Outcome State Fault Refusal := .next (rfTrainEnd p res s)

def execPlcOffsetCal (offsets : List (Nat × Int × Int)) (s : State) : Host.Outcome State Fault Refusal := .next (plcOffsetCal offsets s)

def execDataplaneBist (badIslands : List Nat) (lanes : LaneBistIn) (s : State) : Host.Outcome State Fault Refusal :=
  .next (dataplaneBist badIslands lanes.lanes lanes.repairs s)

def execTrainReportGet (r : Req) (s : State) : Host.Outcome State Fault Refusal := .next (serve trainReportGetService r s)

end Sys2Proof.Machine
end

