-- ==== Sys2Proof/Machine/Commit.lean ====
section
/-! DEFINITION. The system opcodes: the configuration states, the commit check, the commit instant, the capability report and parameter blocks (03
R49 to R61, R526), with what each chapter adds to the check and to T_c. -/

namespace Sys2Proof.Machine

/-! ### Opening and closing a window (R57) -/

/-- The class of an ID is L: it has no place in a window. -/
def isLive (id : Nat) : Bool :=
  match paramDef id with
  | some d => d.cls == .l
  | none => false

/-- Every parameter that some chapter marks required: 04 R74, 05 R100, 06 R168. -/
def requiredAll : List Nat :=
  ((List.range 8).map (fun p => [pidRf p 1, pidRf p 4, pidSector p 0, pidSector p 4, pidSector p 7])).flatten
    ++ ((List.range 16).map (fun q => [pidPlc q 1, pidPlc q 2, pidPlc q 3, pidPlc q 6])).flatten

/-- The window that CONFIG_BEGIN opens over an active set: a copy of it, which carries every required parameter (R58). -/
def copyWindow (s : State) : Window :=
  { vals := s.cfg.vals.filter (fun e => !isLive e.1), written := requiredAll,
    lanes := (List.range s.laneCount).map (fun l => (l, (lane s l).asg)), profiles := s.cfg.profiles }

def configBegin (s : State) : Reply :=
  match s.cfg.state with
  | .unconfigured => replyOk (setCfgState .configuring { s with cfg.window := some {} })
  | .committed => replyOk (setCfgState .reconfiguring { s with cfg.window := some (copyWindow s) })
  | _ => refuse s .badState

def configAbort (s : State) : Reply :=
  match s.cfg.state with
  | .configuring => replyOk (setCfgState .unconfigured { s with cfg.window := none })
  | .reconfiguring => replyOk (setCfgState .committed { s with cfg.window := none })
  | _ => refuse s .badState

/-! ### The commit check (R58) -/

/-- Required parameters that a set of values calls for: 04 R74, 05 R100, 06 R168. -/
def requiredIds (val : Nat → Nat) : List Nat :=
  let rf := (List.range 8).filter (fun p => val (pidRf p 0) == 1)
  (rf.map (fun p => [pidRf p 1, pidRf p 4])).flatten
    ++ ((rf.filter (fun p => val (pidSector p 0xA) != 0xFF)).map (fun p => [pidSector p 0, pidSector p 4, pidSector p 7])).flatten
    ++ (((List.range 16).filter (fun q => val (pidPlc q 0) == 1)).map (fun q => [pidPlc q 1, pidPlc q 2, pidPlc q 3, pidPlc q 6])).flatten

/-- A parameter's value can be judged: it is not required, or it has been written. A check that would read a required parameter that has not been
written is not made: that parameter fails by itself (R58, Table 03-11). -/
def stands (w : Window) (id : Nat) : Bool := w.written.contains id || !(requiredIds (wval w)).contains id

/-- Channels of the enabled streams of a port. -/
def streamChans (val : Nat → Nat) (p : Nat) : List Nat :=
  ((List.range 32).filter (fun i => bit (val (pidStream p i)) 15)).map (fun i => bits (val (pidStream p i)) 10 0)

/-- Every port that is enabled: listed, streams on distinct channels below N, usable band within 140 to 1 020 MHz and within what the transceiver
passes at a rate it supports (04 R76, 17 R448). -/
def receiverFails (s : State) (val : Nat → Nat) (has : Nat → Bool) (p : Nat) : Bool :=
  let b := portBand val p
  let cs := streamChans val p
  let t := (rfp s p).train
  !rfListed s p || cs.any (fun c => nChannels b ≤ c) || !(cs.eraseDups.length == cs.length)
    || !bit t.rates (val (pidRf p 2))
    || (has (pidRf p 1) && (bandLo b < 140000000 || 1020000000 < bandHi b
      || bandLo b < (1000000 * t.flo : Nat) || ((1000000 * t.fhi : Nat) : Int) < bandHi b))

/-- The fallback port is enabled, another port, and its usable band contains every anchor channel (05 R101). -/
def fallbackOk (val : Nat → Nat) (has : Nat → Bool) (p : Nat) (anchors : List (Int × Int)) : Bool :=
  let f := val (pidSector p 0xB)
  f == 0xFF || (f != p && val (pidRf f 0) == 1
    && (!has (pidRf p 1) || !has (pidRf f 1) || anchors.all (fun e => bandLo (portBand val f) ≤ e.1 && e.2 ≤ bandHi (portBand val f))))

/-- An endpoint is OPENING or CONNECTED on the port. -/
def connectsOn (s : State) (p : Nat) : Bool :=
  s.eps.any (fun e => e.2.connPort == p && (e.2.air == .opening || e.2.air == .connected))

/-- R_b of an anchor's sub-band holds every beacon of an hour without entries: R_b × 2^n is at least 3 600 × its quanta (05 R101). -/
def reserveHolds (s : State) (val : Nat → Nat) (p : Nat) (sb : Option (Nat × SubBand)) : Bool :=
  match sb with
  | none => false
  | some (i, _) =>
    3600 * worstQuanta (txLowUs s p (sunUs (val (pidSector p 3)) (beaconLen 0 0)))
      ≤ reserveAt (val (pidSector p 0xC)) i * 2 ^ val (pidSector p 1)

/-- The checks on a port that transmits (05 R101). -/
def sectorFails (s : State) (val : Nat → Nat) (has : Nat → Bool) (profiles : Tbl (List (Nat × SubBand))) (p : Nat) : Bool :=
  let b := portBand val p
  let n := nChannels b
  let anchors := anchorsOf (val (pidSector p 4))
  let deep := val (pidSector p 0xE)
  let special := if deep = 0xFFFF then anchors else anchors ++ [deep]
  let map_ := mapChannels (val (pidSector p 8)) (val (pidSector p 9))
  let edges := anchors.map (chanEdges b)
  match tfind profiles (val (pidSector p 0xA)) with
  | none => true
  | some prof =>
    (has (pidSector p 4) && anchors.isEmpty) || 2 ^ val (pidSector p 1) * 1000 ≤ val (pidSector p 2) || n ≤ val (pidSector p 8)
      || prof.any (fun x => budgetOf x.2 < reserveAt (val (pidSector p 0xC)) x.1 + reserveAt (val (pidSector p 0xD)) x.1)
      || special.any (fun c => n ≤ c || map_.contains c)
      || (has (pidRf p 1) && edges.any (fun e => !reserveHolds s val p (subOf prof e)))
      || !rasterCarries (val (pidRf p 3)) (val (pidSector p 3))
      || (has (pidSector p 7) && !hasUsage (tget s.slots.slots (val (pidSector p 7)) {}) uMac)
      || !fallbackOk val has p edges
      || map_.any (fun c => n ≤ c) || (map_.length < 2 && connectsOn s p)

/-- PLC ports that a port's couplings reach, by a set of values; absent and disabled ports are ignored (06 R158, Table 06-10). -/
def coupledBy (s : State) (val : Nat → Nat) : Nat → List Nat → List Nat
  | 0, g => g
  | n + 1, g =>
    coupledBy s val n ((List.range 16).filter (fun q => g.contains q ||
      (val (pidPlc q 0) == 1 && (plcp s q).state != .absent && g.any (fun x => bit (val (pidPlc x 4)) q || bit (val (pidPlc q 4)) x))))

/-- An enabled PLC port is listed, and its group carries one PLC_BAND (06 R169). -/
def plcFails (s : State) (val : Nat → Nat) (has : Nat → Bool) (q : Nat) : Bool :=
  !plcListed s q || (has (pidPlc q 1)
    && (coupledBy s val 16 [q]).any (fun x => has (pidPlc x 1) && val (pidPlc x 1) != val (pidPlc q 1)))

/-- IDs on which the check of a window fails. A port's lowest ID is that of its enable. (DEDUCED: log 61) (DEDUCED: log 137) -/
def commitFails (s : State) (w : Window) : List Nat :=
  let val := wval w
  let rf := (List.range 8).filter (fun p => val (pidRf p 0) == 1)
  let lanePorts := (w.lanes.filter (fun e => e.1 < s.laneCount && e.2.mode != 0 && !rfListed s e.2.port)).map (fun e => pidRf e.2.port 0)
  (requiredIds val).filter (fun id => !w.written.contains id)
    ++ lanePorts
    ++ (rf.filter (fun p => receiverFails s val (stands w) p
        || (val (pidSector p 0xA) != 0xFF && sectorFails s val (stands w) w.profiles p))).map (fun p => pidRf p 0)
    ++ ((List.range 16).filter (fun q => val (pidPlc q 0) == 1 && plcFails s val (stands w) q)).map (fun q => pidPlc q 0)

def lowest : List Nat → Option Nat
  | [] => none
  | x :: xs => match lowest xs with
    | none => some x
    | some y => some (min x y)

/-! ### CONFIG_COMMIT and T_c (R57 to R60, 17 R447) -/

/-- Ports that a commit enables. (DEDUCED: log 62) -/
def enabledBy (s : State) (w : Window) : List Nat :=
  (List.range 8).filter (fun p => wval w (pidRf p 0) == 1 && pval s (pidRf p 0) != 1)

/-- The commit check in COMMITTING, which is the acceptance. Training of the ports that the commit enables is owed when it passes. -/
def commitCheck (id : Nat) (w : Window) (s : State) : Reply :=
  match lowest (commitFails s w) with
  | some k => .twice (setCfgState s.cfg.prior s) .badParam (le 2 k)
  | none =>
    let s1 := (enabledBy s w).foldl (fun s p => setRf p (fun x => { x with training := true, trainRun := false }) s) s
    .pend { s1 with cfg.accepted := some (id, s.now), cfg.trained := [] } [.config]

/-- CONFIG_COMMIT never waits: it is judged against the configuration state at its fetch (R44). Before STAGE 0x09 it is in COMMITTING, and its check
waits for that stage, or for the stop of bring-up (17 R436). (DEDUCED: log 53) -/
def configCommit (id : Nat) (s : State) : Reply :=
  match s.cfg.window with
  | none => refuse s .badState
  | some w =>
    if s.cfg.state = .committing && s.cfg.deferred == some id then
      if bringingUp s then .wait s else commitCheck id w { s with cfg.deferred := none }
    else if !(s.cfg.state == .configuring || s.cfg.state == .reconfiguring) then refuse s .badState
    else
      let s1 := setCfgState .committing { s with cfg.prior := s.cfg.state }
      if bringingUp s then .wait { s1 with cfg.deferred := some id } else commitCheck id w s1

/-- T_c: 10 ms to 100 ms after the acceptance, and no earlier than the end of the trainings where that leaves a choice; which instant is open (R59,
17 R447; log 9). (DEDUCED: log 60) -/
def chooseTc (accepted : Nat) (s : State) : Nat × State :=
  let hi := accepted + tMs 100
  let lo := min (max (accepted + tMs 10) s.now) hi
  let (x, s1) := fresh s
  (lo + x % (hi - lo + 1), s1)

/-- The active values after a switch: class C and G from the window, class L as they stand. -/
def mergeVals (live : Tbl Nat) (w : Window) : Tbl Nat :=
  w.vals.foldl (fun t e => tset t e.1 e.2) (live.filter (fun e => isLive e.1))

/-- A port of the RF side takes its state: ok tells that it did not fail a training for this commit. -/
def switchRf (old : State) (ok : Bool) (p : Nat) (s : State) : State :=
  let changed := pval old (pidRf p 1) != pval s (pidRf p 1) || pval old (pidRf p 2) != pval s (pidRf p 2)
  if !ok then setRf p (fun x => { setRfState .absent x with training := false, trainRun := false }) s
  else if pval s (pidRf p 0) = 1 then
    match (rfp s p).state with
    | .awaitTc => setRf p (fun x => { setRfState .receiving x with seq := none, errAt := [] }) s
    | .receiving => if changed then spiOut p (tuneIo s p .receiving) s else s
    | .transmitting => if changed then spiOut p (tuneIo s p .receiving) s else s
    | _ => s
  else
    match (rfp s p).state with
    | .receiving => setRf p (setRfState .disabled) s
    | .awaitTc => setRf p (setRfState .disabled) s
    | .down => setRf p (setRfState .disabled) s
    | _ => s

/-- The stream that an assignment listens to is enabled, on a port that is enabled and present. -/
def streamOn (s : State) (a : LaneAsg) : Bool :=
  a.port < 8 && pval s (pidRf a.port 0) == 1 && (rfp s a.port).state != .absent && bit (pval s (pidStream a.port a.stream)) 15

/-- What a lane hears is the same before and after. -/
def hearsSame (old s : State) (a : LaneAsg) : Bool :=
  (pidStream a.port a.stream :: [1, 2, 3].map (pidRf a.port)).all (fun id => pval old id == pval s id)

/-- A lane takes an assignment: a frame it holds under another one ends ABORTED. -/
def switchLaneTo (old : State) (l : Nat) (a : LaneAsg) (s : State) : State :=
  if (lane s l).asg = a && (a.mode = 0 || hearsSame old s a) then setLane l (fun x => { x with next := none }) s
  else setLane l (fun x => { x with asg := a, next := none }) (dropShadow l (laneEarly 3 l s))

/-- Lanes take the table; one whose stream or port is off changes to OFF, and a record lists those (04 R76, R84). (DEDUCED: log 63) -/
def switchLanes (old : State) (table : Tbl LaneAsg) (s : State) : State :=
  let want := (List.range s.laneCount).map (fun l => (l, tget table l {}))
  let off := want.filter (fun e => e.2.mode != 0 && !streamOn s e.2)
  let s1 := want.foldl (fun s e =>
    switchLaneTo old e.1 (if e.2.mode != 0 && !streamOn s e.2 then { e.2 with mode := 0, rateMask := 0 } else e.2) s) s
  let s2 := finishAssigns s1
  if off.isEmpty then s2 else record rcLanesOff ((off.map (fun e => le 2 e.1)).flatten) s2

/-- A changed map: EPOCH counts up, and every connection on the port is to be told (05 R102, R126). -/
def switchMap (old : State) (p : Nat) (s : State) : State :=
  if [8, 9].all (fun o => pval old (pidSector p o) == pval s (pidSector p o)) then s
  else
    let u := (none, pval s (pidSector p 8), BitVec.ofNat 64 (pval s (pidSector p 9)))
    let s1 := setSec p (fun x => { x with epoch := x.epoch + 1 }) s
    { s1 with eps := tmap s1.eps (fun _ e =>
        if e.connPort == p && (e.air == .connected || (e.air == .opening && e.connectSent)) then { e with update := some u } else e) }

/-- The windows of the sub-bands of a port's profile are preset, once a start (05 R116). -/
def switchDuty (p : Nat) (s : State) : State :=
  match profOf s p with
  | none => s
  | some prof => prof.foldl (fun s x => presetDuty p x.1 x.2 s) s

/-- A PLC port is enabled, calibrated again, or disabled (06 R169, R172; 17 R451). One in FAULT stays there, whatever the commit says (06 R132). -/
def switchPlc (old : State) (q : Nat) (s : State) : State :=
  let was := pval old (pidPlc q 0) == 1
  let is := pval s (pidPlc q 0) == 1
  if (plcp s q).state == .absent then s
  else if (plcp s q).state == .fault then
    if was && !is then finishOps (recalOps s q) .badState [] (endPortTxns q s) else s
  else if is && !was then startCal q s
  else if is && [1, 3, 6].any (fun o => pval old (pidPlc q o) != pval s (pidPlc q o)) then
    if (runIn s q).isSome then setPlc q (fun x => { x with recalWait := true }) s else startCal q s
  else if was && !is then
    let s1 := endPortTxns q s
    finishOps (recalOps s1 q) .badState []
      (setPlc q (fun x => { x with state := .disabled, ldEnN := true, recalWait := false }) s1)
  else s

/-- A privileged code whose rate the switch changes has a full bucket (14 R380). -/
def switchRates (old s : State) : State :=
  { s with slate.buckets := tmap s.slate.buckets (fun c b =>
      if pval old (0x9100 + c) = pval s (0x9100 + c) then b else { b with used := 0, clock := none }) }

/-- Everything that follows from a change of the active values. -/
def followSwitch (old : State) (failed : List Nat) (table : Tbl LaneAsg) (s : State) : State :=
  let s1 := (List.range 8).foldl (fun s p => switchRf old (!failed.contains p) p s) s
  let s2 := switchLanes old table s1
  let s3 := (List.range 8).foldl (fun s p => switchDuty p (switchMap old p s)) s2
  noteCaps old (switchRates old ((List.range 16).foldl (fun s q => switchPlc old q s) s3))

/-- At T_c of the first commit after a start, every endpoint is UNSEEN or UNPOLLED and its supervision runs from T_c (05 R121, 06 R163). -/
def firstCommit (tc : Nat) (s : State) : State :=
  if s.cfg.everCommitted then s
  else { s with cfg.everCommitted := true, boot.stage := if s.boot.stage = 9 then 0xA else s.boot.stage,
                eps := tmap s.eps (fun _ e => { e with air := .unseen, poll := .unpolled, supFrom := tc }) }

/-- Every island switches to the values of the window. -/
def switchAll (tc : Nat) (w : Window) (s : State) : State :=
  let failed := (s.cfg.trained.filter (fun e => !e.2)).map (fun e => e.1)
  let s1 := firstCommit tc { s with cfg.vals := mergeVals s.cfg.vals w, cfg.profiles := w.profiles, cfg.lastTc := tc,
                                    cfg.old := s.cfg.vals, cfg.oldProfiles := s.cfg.profiles }
  followSwitch s failed w.lanes s1

/-- A fault before T_c: the previous values stay active, and no port stays tuned for the commit (R59). -/
def commitFault (id : Nat) (s : State) : State :=
  let s1 := s.cfg.trained.foldl (fun s e => setRf e.1 (setRfState (if e.2 then .disabled else .absent)) s) s
  let (q, s2) := recordFault rcCommit [] (setCfgState s.cfg.prior { noteCaps s s1 with cfg.accepted := none, cfg.trained := [] })
  finishOp id .hwFault q s2

/-- COMMIT_INSTANT: T_c, once every training that the commit asked for has ended, or a fault before it. A microcode switch of the same second comes
first (18 R462). -/
def commitInstant (hwFault : Bool) (s : State) : State :=
  match s.cfg.accepted, s.cfg.window with
  | some (id, at_), some w =>
    if s.cfg.state != .committing || (isl s islControl).inReset then s
    else if hwFault then commitFault id s
    else if (enabledBy s w).any (fun p => (rfp s p).training) then s
    else
      let (tc, s1) := chooseTc at_ s
      let s2 := if s1.fw.tm == some (tc / 2 ^ 24) then microcodeSwitch s1 else s1
      let s3 := switchAll tc w (advTo tc s2)
      finishOp id .ok (le 8 tc)
        (setCfgState .committed { s3 with cfg.window := none, cfg.accepted := none, cfg.trained := [] })
  | _, _ => s

/-! ### The capability report (R50) -/

/-- A bitmap of the numbers below n for which f holds, in k bytes. -/
def bitmap (k n : Nat) (f : Nat → Bool) : List Byte := le k (((List.range n).map (fun i => if f i then 2 ^ i else 0)).sum)

/-- The data plane has been brought up. -/
def dataUp (s : State) : Bool := 9 ≤ s.boot.stage && s.boot.fail == 0

/-- An island counts while any of its units works (01 R22). -/
def islWorks (s : State) (i : Nat) : Bool :=
  if i < 17 then dataUp s && physLanes.any (fun k => k / 16 == i && laneWorks s k)
  else if i < 25 then dataUp s && !islExcluded s i && !(rfp s (i - 17)).bistFail
  else if i < 29 then dataUp s && islPresent s i && !islExcluded s i && (List.range 4).any (fun k => (plcp s (4 * (i - 25) + k)).present)
  else i == 35 || islUp s i

/-- Table 03-8. The 65 536 route entries of Table 00-2 do not fit their field, whose value the manual does not give (log 51). The XN7440 has no
PLC-attached endpoint (Table 00-1). -/
def capsReport (s : State) : List Byte :=
  let up := dataUp s
  let lanes := if up then s.laneCount else 0
  let count := fun (n : Nat) (f : Nat → Bool) => ((List.range n).filter f).length
  le 2 1 ++ le 2 lanes ++ le 1 (count 8 (rfListed s)) ++ le 1 (count 16 (plcListed s)) ++ le 2 8192 ++ le 4 1048576 ++ le 4 (if isXn7440 s then 0 else 262144)
    ++ le 2 Config.routeEntries ++ le 2 4096 ++ le 2 256 ++ le 2 16384 ++ le 1 64 ++ le 1 16
    ++ bitmap 2 8 (rfListed s) ++ bitmap 2 16 (plcListed s) ++ bitmap 5 36 (islWorks s)
    ++ le 1 (lifecycle s) ++ le 4 0 ++ ((List.range 12).map (fun i => le 2 (curFormat s (i + 1)))).flatten

/-! ### Parameter blocks (R53 to R55, R526) -/

/-- An entry of a parameter block; fits: it and its padding lie within LENGTH. -/
structure PEntry where
  id : Nat
  len : Nat
  value : Nat
  fits : Bool
  deriving DecidableEq, Repr

/-- Bytes that an entry takes with its padding. -/
def entryBytes (len : Nat) : Nat := 4 + (len + 3) / 4 * 4

/-- Up to n entries from an offset on, ending with the first that does not fit. -/
def blockEntries (p : List Byte) : Nat → Nat → List PEntry
  | 0, _ => []
  | n + 1, off =>
    let id := rd p off 2
    let len := rd p (off + 2) 2
    let fin := off + entryBytes len
    if off + 4 ≤ p.length && fin ≤ p.length then { id := id, len := len, value := rd p (off + 4) len, fits := true } :: blockEntries p n fin
    else [{ id := id, len := len, value := 0, fits := false }]

/-- Where the entries end. -/
def blockEnd (es : List PEntry) : Nat := 8 + (es.map (fun e => entryBytes e.len)).sum

/-- A write to the live value of a class L parameter, with what it changes at once: 09 R252, R255, R248; 14 R380. (DEDUCED: log 59) -/
def writeLive (id v : Nat) (s : State) : State :=
  let s1 := { s with cfg.vals := tset s.cfg.vals id v }
  if id = 0x5800 then closeOpenOvf (closeOpen s1)
  else if id = 0x5803 then backlogCheck s1
  else if id = 0x5806 then jnlRefresh s1
  else if 0x9100 ≤ id && id < 0x9300 && pval s id != v then
    { s1 with slate.buckets := tmap s1.slate.buckets (fun c b => if c = id - 0x9100 then { b with used := 0, clock := none } else b) }
  else s1

/-- A write of a class C or G parameter into the window. -/
def writeWindow (id : Nat) (v : Option Nat) (s : State) : State :=
  { s with cfg.window := s.cfg.window.map (fun w =>
      match v with
      | some x => { w with vals := tset w.vals id x, written := if w.written.contains id then w.written else id :: w.written }
      | none => { w with vals := tdel w.vals id, written := w.written.filter (fun i => i != id) }) }

/-- Write a value, or the default (none), where a current-format write of the ID goes (R55). -/
def writeParam (id : Nat) (v : Option Nat) (s : State) : State :=
  if isLive id then writeLive id (v.getD (paramDefault id)) s else writeWindow id v s

/-- PROV_SIGN_SLOT names a key slot with sign usage, or the identity key (09 R260). -/
def signSlotOk (s : State) (e : PEntry) : Bool :=
  e.id != 0x5804 || e.value == 0xFFFF || ((kslot s e.value).typ != 0 && (kslot s e.value).usage.toNat / uSign % 2 == 1)

/-- Why an entry offends, in the order of R54. -/
def entryBad (s : State) (sub : Nat) (seen : List Nat) (e : PEntry) : Option Status :=
  match paramDef e.id with
  | none => some .badParam
  | some d =>
    if e.id / 4096 != sub || seen.contains e.id || e.len != d.size || !e.fits || !d.ok e.value || !signSlotOk s e then some .badParam
    else if d.cls != .l && !inWindowState s then some .badState
    else if d.cls == .g && !s.bkp.sealOpen then some .sealed
    else none

/-- The first entry that offends: its index, its ID and the status. (DEDUCED: log 58) -/
def firstEntryBad (s : State) (sub : Nat) : List Nat → Nat → List PEntry → Option (Nat × Nat × Status)
  | _, _, [] => none
  | seen, i, e :: rest =>
    match entryBad s sub seen e with
    | some st => some (i, e.id, st)
    | none => firstEntryBad s sub (e.id :: seen) (i + 1) rest

/-- IDs of an older block that take their default (R55): each once. An entry that runs past LENGTH, and what would follow it, is left unchanged and
not counted: the spec does not say whether it is in the block (DESIGN CHOICE: log 143). -/
def defaulted (s : State) (sub : Nat) (es : List PEntry) : List Nat :=
  let ok := fun (id : Nat) => id / 4096 == sub && match paramDef id with
    | none => false
    | some d => d.cls == .l || (inWindowState s && (d.cls != .g || s.bkp.sealOpen))
  (((es.filter (fun e => e.fits)).map (fun e => e.id)).filter ok).eraseDups

def paramBlockWrite (r : Req) (s : State) : Reply :=
  let p := r.payload
  let fmt := rd p 0 2
  let sub := rd p 2 1
  let es := blockEntries p (rd p 4 2) 8
  if sub = 0 || 0xC < sub || !zeroAt p 3 1 || !zeroAt p 6 2 || curFormat s sub < fmt then refuse s .badParam (le 2 0xFFFF ++ le 2 0)
  else if fmt < curFormat s sub then
    let ids := defaulted s sub es
    refuse (raiseIf (!ids.isEmpty) 0x17 (ids.foldl (fun s id => writeParam id none s) s)) .formatOld (le 2 ids.length)
  else
    match firstEntryBad s sub [] 0 es with
    | some (i, id, st) => refuse s st (le 2 i ++ le 2 id)
    | none =>
      if blockEnd es != p.length then refuse s .badParam (le 2 (rd p 4 2) ++ le 2 0)
      else replyOk (es.foldl (fun s e => writeParam e.id (some e.value) s) s)

/-- One entry of a block that is read. -/
def readEntry (val : Nat → Nat) (id : Nat) : List Byte :=
  match paramDef id with
  | some d => padTo 4 (le 2 id ++ le 2 d.size ++ le d.size (val id))
  | none => []

def paramBlockRead (r : Req) (s : State) : Reply :=
  let first := rd r.payload 0 2
  let n := rd r.payload 2 1
  let src := rd r.payload 3 1
  let sub := first / 4096
  if 1 < src || sub = 0 || 0xC < sub || 4096 * (sub + 1) < first + n then refuse s .badParam
  else if src = 1 && s.cfg.window.isNone then refuse s .badState
  else
    let ids := ((List.range n).map (fun i => first + i)).filter (fun id => (paramDef id).isSome)
    let val := fun id => if isLive id then pval s id else valueIn s (src == 1) id
    replyOk s (le 2 (curFormat s sub) ++ le 1 sub ++ le 1 0 ++ le 2 ids.length ++ le 2 0 ++ (ids.map (readEntry val)).flatten)

/-! ### The new control firmware takes over (18 R463; 03 R56) -/

/-- Subsystems whose parameter-block format differs between two manifests. -/
def changedFormats (old new : List Nat) : List Nat :=
  (List.range 12).map (fun i => i + 1) |>.filter (fun n => old.getD (n - 1) 1 != new.getD (n - 1) 1)

/-- Every parameter of the subsystems takes its default, with event 0x17; what a commit of those defaults would change follows. (DEDUCED: log 57) -/
def defaultFormats (subs : List Nat) (s : State) : State :=
  if subs.isEmpty then s
  else
    let keep := fun (id : Nat) => !subs.contains (id / 4096)
    let s1 := { s with cfg.vals := s.cfg.vals.filter (fun e => keep e.1) }
    let s2 := if subs.contains 5 then jnlRefresh (backlogCheck (closeOpenOvf (closeOpen s1))) else s1
    raise 0x17 (followSwitch s [] (s.lanes.map (fun e => (e.1, e.2.asg))) s2)

/-- FIRMWARE_TAKEOVER: the pause, of at most 250 ms, ends with the installed manifest in force and on trial. -/
def firmwareTakeover (s : State) : State :=
  match s.fw.pause with
  | none => s
  | some (id, since) =>
    let failed := match s.fwNv.trial with
      | some t => t.failed
      | none => false
    if failed || since + tMs 250 < s.mono || (isl s islControl).inReset then s
    else
      let m := s.fwNv.active.getD {}
      let t := s.fwNv.trial.map (fun t => { t with deadline := secs s + t.period })
      let s1 := { s with fw.running := some m, fw.pfmt := m.pfmt, fw.pause := none, fw.upd := .trial, fwNv.trial := t,
                         boot.confirmAt := t.map (fun t => s.mono + tSec t.period) }
      let s2 := raise 0xA2 (finishOp id .ok (le 8 s.now) s1)
      jnlRefresh (defaultFormats (changedFormats s.fw.pfmt m.pfmt) s2)

/-! ### Meanings -/

def configBeginService : Service := { opcode := 0x0101, lenOk := payloadFree, acc := 0, run := fun _ _ s => configBegin s }

def configCommitService : Service :=
  { opcode := 0x0102, lenOk := payloadFree, acc := 0, run := fun id _ s => configCommit id s }

def configAbortService : Service := { opcode := 0x0103, lenOk := payloadFree, acc := 0, run := fun _ _ s => configAbort s }

def configStateGetService : Service :=
  { opcode := 0x0104, lenOk := payloadFree, acc := 0, run := fun _ _ s => replyOk s (le 1 (cfgCode s.cfg.state)) }

def capsGetService : Service :=
  { opcode := 0x0110, lenOk := payloadFree, acc := 0, ready := true, run := fun _ _ s => replyOk s (capsReport s) }

def paramBlockWriteService : Service :=
  { opcode := 0x0120, lenOk := fun p => 8 ≤ p.length, acc := 0, run := fun _ r s => paramBlockWrite r s }

def paramBlockReadService : Service := { opcode := 0x0121, lenOk := lenIs 4, acc := 0, run := fun _ r s => paramBlockRead r s }

def execConfigBegin (r : Req) (s : State) : Host.Outcome State Fault Refusal := .next (serve configBeginService r s)

def execConfigCommit (r : Req) (s : State) : Host.Outcome State Fault Refusal := .next (serve configCommitService r s)

def execConfigAbort (r : Req) (s : State) : Host.Outcome State Fault Refusal := .next (serve configAbortService r s)

def execConfigStateGet (r : Req) (s : State) : Host.Outcome State Fault Refusal := .next (serve configStateGetService r s)

def execCapsGet (r : Req) (s : State) : Host.Outcome State Fault Refusal := .next (serve capsGetService r s)

def execParamBlockWrite (r : Req) (s : State) : Host.Outcome State Fault Refusal := .next (serve paramBlockWriteService r s)

def execParamBlockRead (r : Req) (s : State) : Host.Outcome State Fault Refusal := .next (serve paramBlockReadService r s)

def execCommitInstant (hwFault : Bool) (s : State) : Host.Outcome State Fault Refusal := .next (commitInstant hwFault s)

def execFirmwareTakeover (s : State) : Host.Outcome State Fault Refusal := .next (firmwareTakeover s)

end Sys2Proof.Machine
end

