-- ==== Sys2Proof/Machine/Host.lean ====
section
/-! DEFINITION. The host island: BAR0 writes, mailbox control, ring fetches, event bits and messages (03, 20). -/

namespace Sys2Proof.Machine

/-! ### BAR0 map (R494, Table 20-1) -/

/-- The offset lies in some block of Table 20-1. -/
def bar0Mapped (a : Nat) : Bool :=
  a < 0x100 || (0x1000 ≤ a && a < 0x1080) || (0x2000 ≤ a && a < 0x20A0) || (0x3000 ≤ a && a < 0x3080)
  || (0x10000 ≤ a && a < 0x10060) || (0x10100 ≤ a && a < 0x10200) || (0x20000 ≤ a && a < 0x20400)
  || (0x21000 ≤ a && a < 0x21200) || (0x40000 ≤ a && a < 0x42000) || (0x50000 ≤ a && a < 0x50200)
  || (0x51000 ≤ a && a < 0x51400) || (0x80000 ≤ a && a < 0x80400) || (0x81000 ≤ a && a < 0x81008)

/-- BAR0 answers at this offset now (R496, R441). -/
def bar0Up (s : State) (a : Nat) : Bool :=
  !(isl s 33).inReset &&
    (!(s.boot.fail == 0x82 && !s.boot.coreSound) || (0x1000 ≤ a && a < 0x1080) || (0x2000 ≤ a && a < 0x20A0))

/-! ### Mailboxes (R33 to R45, R501) -/

/-- EN of the mailbox can be set now (R45, R436, R441). -/
def mbxCanEnable (s : State) (m : Nat) : Bool :=
  m < 16 && match server s with
    | .nobody => false
    | .firmware => true
    | _ => m == 0

def sizeOk (l : BitVec 5) : Bool := 6 ≤ l.toNat && l.toNat ≤ 16

/-- Every response the mailbox owes now goes to Slate (R37, R38). -/
def divertOwed (m : Nat) (s : State) : State :=
  let waiting := (mbx s m).rspWait
  let s1 := setMbx m (fun x => { x with fetchedOrphan := true, rspWait := [] }) s
  let s2 := { s1 with ops := s1.ops.map (fun o => if o.req.mbx == m then { o with orphan := true } else o) }
  waiting.foldl (fun s r => orphanRecord m r s) s2

/-- MBX_CTRL.EN written as 1 (R34, R35, R45, R436): nothing when it is 1 already. (DEDUCED: log 54) -/
def mbxEnable (m : Nat) (s : State) : State :=
  let x := mbx s m
  if !bar0Up s 0x20000 || x.en || !mbxCanEnable s m then s
  else if sizeOk x.reqLog2 && sizeOk x.rspLog2 then
    setMbx m (fun x => { x with en := true, halted := false, reqPI := 0, reqCI := 0, rspPI := 0, rspCI := 0 }) s
  else raise 0x14 (setMbx m (fun x => { x with err := true, cause := .badGeometry }) s)

/-- MBX_CTRL.EN written as 0 (R38). -/
def mbxDisable (m : Nat) (s : State) : State :=
  if m < 16 && bar0Up s 0x20000 && (mbx s m).en then
    divertOwed m (setMbx m (fun x => { x with en := false, halted := false, wrErr := false }) s)
  else s

/-- MBX_CTRL.RESET written as 1 (R38): as a disable, and MBX_STAT is cleared. -/
def mbxReset (m : Nat) (s : State) : State :=
  if m < 16 && bar0Up s 0x20000 then
    setMbx m (fun x => { x with err := false, cause := .none }) (mbxDisable m s)
  else s

/-- A write of MBX_REQ_PI (R37, R65, R501). -/
def mbxReqPi (m : Nat) (v : Word) (s : State) : State :=
  let x := mbx s m
  if !(m < 16) || !bar0Up s 0x20000 || !x.en || v = x.reqPI then s
  else if 2 ^ x.reqLog2.toNat < (v - x.reqCI).toNat then mbxError m .overrun s
  else setMbx m (fun x => { x with reqPI := v }) s

/-- A write of MBX_RSP_CI (R501): ignored outside the range from its value to MBX_RSP_PI. -/
def mbxRspCi (m : Nat) (v : Word) (s : State) : State :=
  let x := mbx s m
  if !(m < 16) || !bar0Up s 0x20000 || !x.en || (x.rspPI - x.rspCI).toNat < (v - x.rspCI).toNat then s
  else setMbx m (fun x => { x with rspCI := v }) s

/-- The opcodes the manual defines (check 1 of Table 03-6). -/
def opcodeDefined (n : Nat) : Bool :=
  (0x100 ≤ n && n ≤ 0x104) || n == 0x110 || n == 0x120 || n == 0x121
  || (0x210 ≤ n && n ≤ 0x214) || (0x220 ≤ n && n ≤ 0x226) || (0x300 ≤ n && n ≤ 0x308)
  || (0x400 ≤ n && n ≤ 0x40B)
  || (0x500 ≤ n && n ≤ 0x501) || (0x503 ≤ n && n ≤ 0x510) || (0x580 ≤ n && n ≤ 0x589)
  || (0x600 ≤ n && n ≤ 0x609) || (0x700 ≤ n && n ≤ 0x70A) || (0x800 ≤ n && n ≤ 0x80A) || (0x900 ≤ n && n ≤ 0x904)
  || (0xA00 ≤ n && n ≤ 0xA09) || n == 0xA10 || n == 0xA11
  || (0xB00 ≤ n && n ≤ 0xB02) || (0xB10 ≤ n && n ≤ 0xB12) || n == 0xB20 || (0xB80 ≤ n && n ≤ 0xB85) || n == 0xB90
  || n == 0xBA0 || (0xC00 ≤ n && n ≤ 0xC08)

/-- Slots of a request with that LENGTH (R36). -/
def reqSlots (len : Nat) : Nat := (8 + len + 63) / 64

/-- The mailbox takes a fetch when its turn comes: it is served and enabled, its last request has had its immediate response, fewer than 8 of its
operations are PENDING, no response waits for ring space, and something is published (R36, R42, R43). -/
def fetchable (s : State) (m : Nat) : Bool :=
  let x := mbx s m
  m < 16 && serves s m && x.en && !x.halted && x.fetched.isNone && x.rspWait.isEmpty && pendCount s m < 8 && x.reqPI != x.reqCI

/-- Whose turn it is: the next mailbox in round-robin order that takes a fetch (R42, R45). -/
def turn (s : State) : Option Nat := ((List.range 16).map (fun i => (s.rrNext + i) % 16)).find? (fetchable s)

/-- The engine's turn at mailbox m (R36, R42, R43, R45), which nothing has before the mailboxes ahead of it in the round-robin: the bytes are what the
ring holds from MBX_REQ_CI on. A request that is not wholly published waits and the turn passes on; an undefined opcode is answered at once; any
other request is held for its own command. -/
def requestFetch (m : Nat) (bytes : List Byte) (s : State) : State :=
  let x := mbx s m
  if turn s != some m then s
  else
    let opcode := rd bytes 0 2
    let len := rd bytes 2 2
    let n := reqSlots len
    let r : Req := { mbx := m, tag := BitVec.ofNat 32 (rd bytes 4 4), payload := slice bytes 8 len }
    if 2 ^ x.reqLog2.toNat < n then mbxError m .oversize s
    else if (x.reqPI - x.reqCI).toNat < n then { s with rrNext := (m + 1) % 16 }
    else
      let s1 := setMbx m (fun x => { x with reqCI := x.reqCI + BitVec.ofNat 32 n })
        { s with rrNext := (m + 1) % 16, fetchCtr := s.fetchCtr + 1 }
      if opcodeDefined opcode then
        setMbx m (fun x => { x with fetched := some (opcode, r), fetchedOrphan := false, fetchNo := s.fetchCtr }) s1
      else immediate opcode r false .badOpcode [] s1

/-- A ring fetch, or a response write, ends in a PCIe error (R37). The write is that of the oldest response that waits, or else of the next response
that the mailbox posts: that response is not posted, and MBX_RSP_PI does not move for it. -/
def ringBusError (m : Nat) (write : Bool) (s : State) : State :=
  if m < 16 && (mbx s m).en && !(mbx s m).halted then
    if write && (mbx s m).rspWait.isEmpty then setMbx m (fun x => { x with wrErr := true }) s
    else mbxError m .busError s
  else s

/-- The oldest waiting response is written once slots are free (R43, R45). -/
def responsePost (m : Nat) (s : State) : State :=
  let x := mbx s m
  match x.rspWait with
  | [] => s
  | r :: rest =>
    if s.fw.pause.isNone && rspSlots r ≤ rspFree x then
      if x.wrErr then mbxError m .busError s else writeRsp m r (setMbx m (fun x => { x with rspWait := rest }) s)
    else s

/-! ### Events (R62, R63, R500) -/

/-- Word k of a 256-bit event register. -/
def evtWord (v : BitVec 256) (k : Nat) : Word := v.extractLsb' (32 * k) 32

/-- Sources whose bit is 1 in a word at position k, ascending. -/
def evtSources (k : Nat) (data : Word) : List Nat :=
  ((List.range 32).filter (fun i => data.getLsbD i)).map (fun i => 32 * k + i)

def raiseAll (ns : List Nat) (s : State) : State := ns.foldl (fun s n => raise n s) s

/-- A W1C write of EVT_PEND word k, with the sources that occur in the same cycle: their bits stay 1 and a message is sent (R63). -/
def evtPendClear (k : Nat) (data occurring : Word) (s : State) : State :=
  if k < 8 && bar0Up s 0x10000 then
    raiseAll (evtSources k occurring)
      { s with evt.pend := s.evt.pend &&& ~~~(data.setWidth 256 <<< (32 * k)) }
  else s

/-- A write of EVT_EN word k: a source that is pending already sends its message as it is enabled (R63). -/
def evtEnWrite (k : Nat) (data : Word) (s : State) : State :=
  if k < 8 && bar0Up s 0x10000 then
    let old := evtWord s.evt.en k
    let s1 := { s with evt.en := (s.evt.en &&& ~~~((0xFFFFFFFF#32).setWidth 256 <<< (32 * k)))
                                  ||| (data.setWidth 256 <<< (32 * k)) }
    let due := (evtSources k (data &&& ~~~old)).filter (fun n => s.evt.pend.getLsbD n)
    due.foldl (fun s n => sendVector n (evtRoute s n) s) s1
  else s

/-- A write of EVT_FORCE word k (R500). -/
def evtForce (k : Nat) (data : Word) (s : State) : State :=
  if k < 8 && bar0Up s 0x10000 then raiseAll (evtSources k data) s else s

/-- A write of EVT_ROUTE register m (R500). -/
def evtRouteWrite (m : Nat) (data : Word) (s : State) : State :=
  let one := fun (i : Nat) (s : State) => { s with evt.route := tset s.evt.route (4 * m + i) (data.extractLsb' (8 * i) 6) }
  one 3 (one 2 (one 1 (one 0 s)))

/-- Send what a vector held while it was masked: one message per vector now routed (R63, R500). -/
def releaseVector (v : Nat) (s : State) : State :=
  if s.pcie.msixEn && !s.pcie.msixFMask && !(tget s.pcie.msix v {}).mask && s.evt.pba.getLsbD v then
    let mine := s.evt.held.filter (fun h => h.2 == v)
    let s1 := { s with evt.pba := s.evt.pba &&& ~~~(1#64 <<< v), evt.held := s.evt.held.filter (fun h => h.2 != v) }
    let routes := (mine.map (fun h => (evtRoute s1 h.1, h.1))).foldl
      (fun (acc : List (Nat × Nat)) e => if acc.any (fun a => a.1 == e.1) then acc else acc ++ [e]) []
    routes.foldl (fun s e => sendVector e.2 e.1 s) s1
  else s

/-- Unmask a vector, or the function (R63). -/
def msixUnmask (vector : Option Nat) (s : State) : State :=
  match vector with
  | some v =>
    if v < 64 && !(isl s 33).inReset then
      releaseVector v { s with pcie.msix := tupd s.pcie.msix v {} (fun e => { e with mask := false }) }
    else s
  | none => (List.range 64).foldl (fun s v => releaseVector v s) { s with pcie.msixFMask := false }

/-! ### Registers without a row of their own (R495, Tables 20-2 to 20-11) -/

/-- A write of an MSI-X table dword (PCI Express layout): address low, address high, data, vector control. -/
def msixWrite (off : Nat) (data : Word) (s : State) : State :=
  let v := off / 16
  let upd := fun f => { s with pcie.msix := tupd s.pcie.msix v {} f }
  match off % 16 / 4 with
  | 0 => upd (fun e => { e with addr := (e.addr &&& 0xFFFFFFFF00000000) ||| data.setWidth 64 })
  | 1 => upd (fun e => { e with addr := (e.addr &&& 0xFFFFFFFF) ||| (data.setWidth 64 <<< 32) })
  | 2 => upd (fun e => { e with data := data })
  | _ => if data.getLsbD 0 then upd (fun e => { e with mask := true }) else msixUnmask (some v) s

/-- Message Control of the MSI-X capability in configuration space: bit 31 Enable, bit 30 Function Mask (log 5). -/
def msixControl (data : Word) (s : State) : State :=
  let s1 := { s with pcie.msixEn := data.getLsbD 31 }
  if data.getLsbD 30 then { s1 with pcie.msixFMask := true } else msixUnmask none s1

/-- A write of a register of mailbox m (R34, R501, Table 20-6). -/
def mbxRegWrite (m off : Nat) (data : Word) (s : State) : State :=
  let geo := fun (f : Mbx → Mbx) => if (mbx s m).en then s else setMbx m f s
  match off with
  | 0x00 => geo (fun x => { x with reqBaseLo := data &&& 0xFFFFF000 })
  | 0x04 => geo (fun x => { x with reqBaseHi := data })
  | 0x08 => geo (fun x => { x with rspBaseLo := data &&& 0xFFFFF000 })
  | 0x0C => geo (fun x => { x with rspBaseHi := data })
  | 0x10 => geo (fun x => { x with reqLog2 := data.extractLsb' 0 5, rspLog2 := data.extractLsb' 8 5 })
  | 0x14 => if data.getLsbD 1 then mbxReset m s else if data.getLsbD 0 then mbxEnable m s else mbxDisable m s
  | 0x20 => mbxReqPi m data s
  | 0x2C => mbxRspCi m data s
  | _ => s

/-- RST_CTRL (R416, R498): SYSRST with KEY 0x5A requests the reset; any other key has no effect. -/
def rstCtrl (data : Word) (s : State) : State :=
  if bar0Up s 0x1000 && data.getLsbD 0 && data.extractLsb' 8 8 == 0x5A then { s with boot.sysReq := some 3 } else s

/-- A write of DMA_PI of channel c (R225, R502): ignored when DISABLED, and when it would exceed the ring. -/
def dmaPi (c : Nat) (v : Word) (s : State) : State :=
  let x := tget s.chans c {}
  if !(c < 32) || (isl s 33).inReset || x.state == .disabled || 2 ^ x.log2 < (v - x.ci).toNat then s
  else { s with chans := tset s.chans c { x with pi := v, state := if x.state == .idle && v != x.ci then .running else x.state } }

/-- A whole-register write of a mapped offset, under its access code (R6). (DEDUCED: log 56) (DESIGN CHOICE: log 139) -/
def regWrite (a : Nat) (data : Word) (s : State) : State :=
  if a = 0x028 then { s with glb.scratch := data }
  else if a = 0x02C then
    { s with glb.partialWr := s.glb.partialWr && !data.getLsbD 0, glb.unmappedWr := s.glb.unmappedWr && !data.getLsbD 1 }
  else if a = 0x1000 then rstCtrl data s
  else if a = 0x1004 then { s with boot.cause := s.boot.cause &&& ~~~(data.extractLsb' 0 8) }
  else if 0x2000 ≤ a && a < 0x2090 then
    if data.getLsbD 8 && islPresent s ((a - 0x2000) / 4) then setIsl ((a - 0x2000) / 4) (fun x => { x with fault := false }) s
    else s
  else if a = 0x3040 then if data.getLsbD 1 then { s with mir.shadowTo := false } else s
  else if 0x10000 ≤ a && a < 0x10020 then evtPendClear ((a - 0x10000) / 4) data 0 s
  else if 0x10020 ≤ a && a < 0x10040 then evtEnWrite ((a - 0x10020) / 4) data s
  else if 0x10040 ≤ a && a < 0x10060 then evtForce ((a - 0x10040) / 4) data s
  else if 0x10100 ≤ a && a < 0x10200 then evtRouteWrite ((a - 0x10100) / 4) data s
  else if 0x20000 ≤ a && a < 0x20400 then mbxRegWrite ((a - 0x20000) / 0x40) (a % 0x40) data s
  else if 0x21000 ≤ a && a < 0x21200 then if a % 0x10 = 0 then dmaPi ((a - 0x21000) / 0x10) data s else s
  else if 0x40000 ≤ a && a < 0x42000 then
    if a % 0x20 = 8 && data.getLsbD 24 then
      { s with lanes := tupd s.lanes ((a - 0x40000) / 0x20) {} (fun l => { l with queue.dropIdle := false }) }
    else s
  else if 0x51000 ≤ a && a < 0x51400 then
    if a % 0x40 = 0x14 && data.getLsbD 16 then
      { s with plc := tupd s.plc ((a - 0x51000) / 0x40) {} (fun q => { q with queue.dropIdle := false }) }
    else s
  else if 0x80000 ≤ a && a < 0x80400 then msixWrite (a - 0x80000) data s
  else s

/-- One single-register write of a TLP (R494 to R496): the byte offset is that of the register, be its byte enables. Offset
0x10_0000, past BAR0, stands for Message Control of the MSI-X capability in configuration space (log 5). -/
def registerWrite (addr : Nat) (be : BitVec 4) (data : Word) (s : State) : State :=
  let a := addr / 4 * 4
  if a = 0x100000 then (if s.pcie.up then msixControl data s else s)
  else if !bar0Up s a then s
  else if !bar0Mapped a then { s with glb.unmappedWr := true }
  else if be != 0xF then { s with glb.partialWr := true }
  else regWrite a data s

/-- A read of GLB_ETIME_LO captures all 64 bits (R497). -/
def etimeLoRead (s : State) : State :=
  if bar0Up s 0x020 then
    { s with glb.etimeCap := BitVec.ofNat 64 s.now, glb.lastRead := BitVec.ofNat 32 s.now }
  else { s with glb.lastRead := 0 }

/-- An uncorrectable error logged by the PCIe endpoint (R64, Table 03-12). -/
def pcieError (s : State) : State := raise 0x16 s

/-! ### Meanings -/

def execRegisterWrite (addr : Nat) (be : BitVec 4) (data : Word) (s : State) : Host.Outcome State Fault Refusal :=
  .next (registerWrite addr be data s)

def execEtimeLoRead (s : State) : Host.Outcome State Fault Refusal := .next (etimeLoRead s)

def execRstCtrlSysrst (data : Word) (s : State) : Host.Outcome State Fault Refusal := .next (rstCtrl data s)

def execMbxEnable (m : Nat) (s : State) : Host.Outcome State Fault Refusal := .next (mbxEnable m s)

def execMbxDisable (m : Nat) (s : State) : Host.Outcome State Fault Refusal := .next (mbxDisable m s)

def execMbxReset (m : Nat) (s : State) : Host.Outcome State Fault Refusal := .next (mbxReset m s)

def execMbxReqPiWrite (m : Nat) (v : Word) (s : State) : Host.Outcome State Fault Refusal := .next (mbxReqPi m v s)

def execMbxRspCiWrite (m : Nat) (v : Word) (s : State) : Host.Outcome State Fault Refusal := .next (mbxRspCi m v s)

def execRequestFetch (m : Nat) (bytes : List Byte) (s : State) : Host.Outcome State Fault Refusal :=
  .next (requestFetch m bytes s)

def execRingBusError (m : Nat) (write : Bool) (s : State) : Host.Outcome State Fault Refusal :=
  .next (ringBusError m write s)

def execResponsePost (m : Nat) (s : State) : Host.Outcome State Fault Refusal := .next (responsePost m s)

def execEvtPendClear (k : Nat) (data occurring : Word) (s : State) : Host.Outcome State Fault Refusal :=
  .next (evtPendClear k data occurring s)

def execEvtEnWrite (k : Nat) (data : Word) (s : State) : Host.Outcome State Fault Refusal := .next (evtEnWrite k data s)

def execEvtForce (k : Nat) (data : Word) (s : State) : Host.Outcome State Fault Refusal := .next (evtForce k data s)

def execMsixUnmask (vector : Option Nat) (s : State) : Host.Outcome State Fault Refusal := .next (msixUnmask vector s)

def execDmaPiWrite (c : Nat) (v : Word) (s : State) : Host.Outcome State Fault Refusal := .next (dmaPi c v s)

def execPcieUncorrectableError (s : State) : Host.Outcome State Fault Refusal := .next (pcieError s)

/-- NOP (R49). -/
def nopService : Service := { opcode := 0x0100, lenOk := payloadFree, acc := 0, run := fun _ _ s => replyOk s }

def execNop (r : Req) (s : State) : Host.Outcome State Fault Refusal := .next (serve nopService r s)

end Sys2Proof.Machine
end

