-- ==== Sys2Proof/Machine/Serve.lean ====
section
/-! DEFINITION. The end of a wait: a request that waited behind another operation is served (03 R44). -/

namespace Sys2Proof.Machine

/-! ### Every opcode with the way it is served (Table 03-7 and the opcode tables of the other chapters), by subsystem -/

def services1 : List Service :=
  [nopService, configBeginService, configCommitService, configAbortService, configStateGetService, capsGetService,
   paramBlockWriteService, paramBlockReadService]

def services2 : List Service :=
  [laneAssignService, laneTableGetService, laneStatsGetService, laneStatsClearService, rfPortStatusGetService, bandProfileSetService,
   bandProfileGetService, dutyStatusGetService, sectorStatusGetService, connectOpenService, connectCloseService, airStateGetService]

def services3 : List Service :=
  [plcPortStatusGetService, plcCalGetService, plcRecalibrateService, plcLinkGetService, plcRouteGetService,
   plcRouteProposalsGetService, plcRouteSetService, plcRouteUnpinService, plcPollNowService]

def services4 : List Service :=
  [enrolService, withdrawService, admitStateSetService, endpointUpdateService, endpointGetService, addrLookupService, tallyGetService,
   tallyClearService, dirStatusGetService, dirRehashService, unknownGetService, unknownClearService]

def services5 : List Service :=
  [calLoadService, calGetService, tariffAssignService, ledgerGetService, ledgerRestoreStartService, ledgerPageLostService,
   ledgerExportStartService, ledgerConfirmService, ledgerPendingGetService, periodCloseNowService, statementStartService,
   statementConfirmService, statementRewindService, graniteInfoGetService, displayShowService, ledgerStatusGetService,
   profileSetService, profileGetService, provListAddService, provListClearService, exportStartService, exportStopService,
   exportConfirmService, exportFlushService, pipeStatusGetService, exportRewindService]

def services6 : List Service :=
  [zoneLoadService, zoneDropService, zoneTolSetService, zoneGetService, scoreResetService, balExportStartService, balConfirmService,
   balRewindService, balRerunService, balStatusGetService]

def services7 : List Service :=
  [campCreateService, campContentService, campTargetsAddService, campStartService, campPauseService, campResumeService,
   campCancelService, campStatusGetService, campTargetGetService, campReleaseService, switchFaultClearService]

def services8 : List Service :=
  [qkLoadService, qkDeriveService, qkGenerateService, qkDestroyService, qkSlotGetService, qkEpLoadService, qkEpClearService,
   qkRewrapService, qkAttestService, qkCertGetService, qkStatusGetService]

def services9 : List Service :=
  [slateReadService, slateDumpService, slateStatusGetService, slateCodeGetService, slateRecfClearService]

def servicesA : List Service :=
  [fwInfoGetService, fwStageBeginService, fwStageWriteService, fwStageCommitService, fwStageClearService, fwPrepareService,
   fwMicrocodeAtService, fwActivateService, fwConfirmService, fwHostBootService none, lifecycleAdvanceService, custKeyProgramService]

def servicesB : List Service :=
  [safetyStatusGetService, safetyClearService, safetyProofTestService, laneMapGetService, repairLedgerGetService,
   rotationStatusGetService, maintStatusGetService, xlateSetService, xlateGetService, dmaChanSetService, dmaChanStatusGetService,
   dmaChanRestartService, memStatusGetService, resetRequestService, trainReportGetService]

def servicesC : List Service :=
  [timeGetService, timeSetService, timeTrimSetService, alarmSetService, alarmGetService, powerOffService, tamperCfgSetService,
   tamperGetService, tamperClearService]

/-- The opcodes of the block. FW_HOST_BOOT never waits, so it stands here without what host memory holds. -/
def services : List Service :=
  services1 ++ services2 ++ services3 ++ services4 ++ services5 ++ services6 ++ services7 ++ services8 ++ services9 ++ servicesA ++ servicesB ++ servicesC

def serviceOf (opcode : Nat) : Option Service := services.find? (fun v => v.opcode == opcode)

/-- Something still holds the request: the bring-up that its opcode waits for (R436), or an operation fetched before it on one of its objects.
(DEDUCED: log 131) -/
def heldBack (v : Service) (o : PendOp) (s : State) : Bool :=
  (v.ready && bringingUp s) || (s.ops.takeWhile (fun p => p.id != o.id)).any (fun p => objsClash p.objs o.objs)

/-- REQUEST_WAIT_END: checks 4 onward, with the final response; one that must wait on stays as it is. -/
def requestWaitEnd (id : Nat) (s : State) : State :=
  match findOp s id with
  | none => s
  | some o =>
    match serviceOf o.opcode with
    | none => s
    | some v =>
      if o.kind != .waiting || s.fw.pause.isSome || server s == .nobody || heldBack v o s then s
      else startPause (serveWaiting v o s)

def execRequestWaitEnd (op : Nat) (s : State) : Host.Outcome State Fault Refusal := .next (requestWaitEnd op s)

end Sys2Proof.Machine
end

