-- ==== Sys2Proof/Machine/Dispatch.lean ====
section
/-! DEFINITION. The dispatcher: one arm per constructor of Instr. -/

namespace Sys2Proof.Machine

def exec (i : Instr) (s : State) : Host.Outcome State Fault Refusal :=
  match i with
  | .registerWrite addr be data => Sys2Proof.Machine.execRegisterWrite addr be data s
  | .etimeLoRead => Sys2Proof.Machine.execEtimeLoRead s
  | .rstCtrlSysrst data => Sys2Proof.Machine.execRstCtrlSysrst data s
  | .mbxEnable m => Sys2Proof.Machine.execMbxEnable m s
  | .mbxDisable m => Sys2Proof.Machine.execMbxDisable m s
  | .mbxReset m => Sys2Proof.Machine.execMbxReset m s
  | .mbxReqPiWrite m v => Sys2Proof.Machine.execMbxReqPiWrite m v s
  | .mbxRspCiWrite m v => Sys2Proof.Machine.execMbxRspCiWrite m v s
  | .requestFetch m bytes => Sys2Proof.Machine.execRequestFetch m bytes s
  | .ringBusError m write => Sys2Proof.Machine.execRingBusError m write s
  | .responsePost m => Sys2Proof.Machine.execResponsePost m s
  | .requestWaitEnd op => Sys2Proof.Machine.execRequestWaitEnd op s
  | .evtPendClear k data occurring => Sys2Proof.Machine.execEvtPendClear k data occurring s
  | .evtEnWrite k data => Sys2Proof.Machine.execEvtEnWrite k data s
  | .evtForce k data => Sys2Proof.Machine.execEvtForce k data s
  | .msixUnmask vector => Sys2Proof.Machine.execMsixUnmask vector s
  | .nop r => Sys2Proof.Machine.execNop r s
  | .configBegin r => Sys2Proof.Machine.execConfigBegin r s
  | .configCommit r => Sys2Proof.Machine.execConfigCommit r s
  | .configAbort r => Sys2Proof.Machine.execConfigAbort r s
  | .configStateGet r => Sys2Proof.Machine.execConfigStateGet r s
  | .capsGet r => Sys2Proof.Machine.execCapsGet r s
  | .paramBlockWrite r => Sys2Proof.Machine.execParamBlockWrite r s
  | .paramBlockRead r => Sys2Proof.Machine.execParamBlockRead r s
  | .commitInstant hwFault => Sys2Proof.Machine.execCommitInstant hwFault s
  | .flitTransfer d => Sys2Proof.Machine.execFlitTransfer d s
  | .creditReturn d => Sys2Proof.Machine.execCreditReturn d s
  | .creditAudit upsets => Sys2Proof.Machine.execCreditAudit upsets s
  | .fenceWaitExpiry d => Sys2Proof.Machine.execFenceWaitExpiry d s
  | .monitorSample outOfRange => Sys2Proof.Machine.execMonitorSample outOfRange s
  | .c1Recovery => Sys2Proof.Machine.execC1Recovery s
  | .iqSlotReceive p slot => Sys2Proof.Machine.execIqSlotReceive p slot s
  | .rxclkStop p => Sys2Proof.Machine.execRxclkStop p s
  | .overloadWindow p => Sys2Proof.Machine.execOverloadWindow p s
  | .shrDetect lane power shr => Sys2Proof.Machine.execShrDetect lane power shr s
  | .phrDecode lane phr => Sys2Proof.Machine.execPhrDecode lane phr s
  | .psduWordPush lane word => Sys2Proof.Machine.execPsduWordPush lane word s
  | .laneFrameEnd lane fin => Sys2Proof.Machine.execLaneFrameEnd lane fin s
  | .overflowTrailerPush lane fin => Sys2Proof.Machine.execOverflowTrailerPush lane fin s
  | .blankingStart p t => Sys2Proof.Machine.execBlankingStart p t s
  | .blankingEnd p => Sys2Proof.Machine.execBlankingEnd p s
  | .laneAssign r => Sys2Proof.Machine.execLaneAssign r s
  | .laneSwitch lane => Sys2Proof.Machine.execLaneSwitch lane s
  | .laneTableGet r => Sys2Proof.Machine.execLaneTableGet r s
  | .laneStatsGet r => Sys2Proof.Machine.execLaneStatsGet r s
  | .laneStatsClear r => Sys2Proof.Machine.execLaneStatsClear r s
  | .rfPortStatusGet r => Sys2Proof.Machine.execRfPortStatusGet r s
  | .bandProfileSet r => Sys2Proof.Machine.execBandProfileSet r s
  | .bandProfileGet r => Sys2Proof.Machine.execBandProfileGet r s
  | .dutyStatusGet r => Sys2Proof.Machine.execDutyStatusGet r s
  | .sectorStatusGet r => Sys2Proof.Machine.execSectorStatusGet r s
  | .connectOpen r => Sys2Proof.Machine.execConnectOpen r s
  | .connectClose r => Sys2Proof.Machine.execConnectClose r s
  | .airStateGet r => Sys2Proof.Machine.execAirStateGet r s
  | .beaconDue p b => Sys2Proof.Machine.execBeaconDue p b s
  | .lbtListenEnd p power => Sys2Proof.Machine.execLbtListenEnd p power s
  | .lbtBackoffEnd p => Sys2Proof.Machine.execLbtBackoffEnd p s
  | .beaconTxStart p t => Sys2Proof.Machine.execBeaconTxStart p t s
  | .beaconMiss p => Sys2Proof.Machine.execBeaconMiss p s
  | .fallbackRetry p => Sys2Proof.Machine.execFallbackRetry p s
  | .deepBeaconTx p b => Sys2Proof.Machine.execDeepBeaconTx p b s
  | .linkAckTx p lane => Sys2Proof.Machine.execLinkAckTx p lane s
  | .downlinkTx p handle t => Sys2Proof.Machine.execDownlinkTx p handle t s
  | .transmissionEnd p t => Sys2Proof.Machine.execTransmissionEnd p t s
  | .chargeExpiry p sb => Sys2Proof.Machine.execChargeExpiry p sb s
  | .arrivalWindowClose handle => Sys2Proof.Machine.execArrivalWindowClose handle s
  | .supervisionTimeout handle => Sys2Proof.Machine.execSupervisionTimeout handle s
  | .connectionEvent handle power => Sys2Proof.Machine.execConnectionEvent handle power s
  | .connectReplyTimeout handle => Sys2Proof.Machine.execConnectReplyTimeout handle s
  | .openTimeout handle => Sys2Proof.Machine.execOpenTimeout handle s
  | .connSupervisionExpiry handle => Sys2Proof.Machine.execConnSupervisionExpiry handle s
  | .ldFault q t => Sys2Proof.Machine.execLdFault q t s
  | .ldFaultRetry q => Sys2Proof.Machine.execLdFaultRetry q s
  | .transactionStart group t => Sys2Proof.Machine.execTransactionStart group t s
  | .plcHeaderDecode q hdr => Sys2Proof.Machine.execPlcHeaderDecode q hdr s
  | .plcSymbolReceive q sym => Sys2Proof.Machine.execPlcSymbolReceive q sym s
  | .plcFrameEnd q fin => Sys2Proof.Machine.execPlcFrameEnd q fin s
  | .plcOverflowTrailer q fin => Sys2Proof.Machine.execPlcOverflowTrailer q fin s
  | .pollDeadline group => Sys2Proof.Machine.execPollDeadline group s
  | .retryGapExpiry group => Sys2Proof.Machine.execRetryGapExpiry group s
  | .readDue handle => Sys2Proof.Machine.execReadDue handle s
  | .custodyMaxExpiry handle => Sys2Proof.Machine.execCustodyMaxExpiry handle s
  | .nbrDue => Sys2Proof.Machine.execNbrDue s
  | .unreachRetry handle => Sys2Proof.Machine.execUnreachRetry handle s
  | .routeRecalc => Sys2Proof.Machine.execRouteRecalc s
  | .linkAgeExpiry e => Sys2Proof.Machine.execLinkAgeExpiry e s
  | .queuePush q word last code => Sys2Proof.Machine.execQueuePush q word last code s
  | .queueDoom q => Sys2Proof.Machine.execQueueDoom q s
  | .queueRead q => Sys2Proof.Machine.execQueueRead q s
  | .dropRest q => Sys2Proof.Machine.execDropRest q s
  | .noticePop q => Sys2Proof.Machine.execNoticePop q s
  | .plcCalibrationDone q m => Sys2Proof.Machine.execPlcCalibrationDone q m s
  | .plcPortStatusGet r => Sys2Proof.Machine.execPlcPortStatusGet r s
  | .plcCalGet r => Sys2Proof.Machine.execPlcCalGet r s
  | .plcRecalibrate r => Sys2Proof.Machine.execPlcRecalibrate r s
  | .plcLinkGet r => Sys2Proof.Machine.execPlcLinkGet r s
  | .plcRouteGet r => Sys2Proof.Machine.execPlcRouteGet r s
  | .plcRouteProposalsGet r => Sys2Proof.Machine.execPlcRouteProposalsGet r s
  | .plcRouteSet r => Sys2Proof.Machine.execPlcRouteSet r s
  | .plcRouteUnpin r => Sys2Proof.Machine.execPlcRouteUnpin r s
  | .plcPollNow r => Sys2Proof.Machine.execPlcPollNow r s
  | .directoryAirPacket lane => Sys2Proof.Machine.execDirectoryAirPacket lane s
  | .directoryPlcPacket q => Sys2Proof.Machine.execDirectoryPlcPacket q s
  | .serialRelease frame => Sys2Proof.Machine.execSerialRelease frame s
  | .fetchBufferFree => Sys2Proof.Machine.execFetchBufferFree s
  | .contextFetchComplete handle ue => Sys2Proof.Machine.execContextFetchComplete handle ue s
  | .writebackDone handle => Sys2Proof.Machine.execWritebackDone handle s
  | .enrol r => Sys2Proof.Machine.execEnrol r s
  | .withdraw r => Sys2Proof.Machine.execWithdraw r s
  | .retirementComplete handle => Sys2Proof.Machine.execRetirementComplete handle s
  | .retireHoldExpiry handle => Sys2Proof.Machine.execRetireHoldExpiry handle s
  | .admitStateSet r => Sys2Proof.Machine.execAdmitStateSet r s
  | .endpointUpdate r => Sys2Proof.Machine.execEndpointUpdate r s
  | .endpointGet r => Sys2Proof.Machine.execEndpointGet r s
  | .addrLookup r => Sys2Proof.Machine.execAddrLookup r s
  | .tallyGet r => Sys2Proof.Machine.execTallyGet r s
  | .tallyClear r => Sys2Proof.Machine.execTallyClear r s
  | .dirStatusGet r => Sys2Proof.Machine.execDirStatusGet r s
  | .dirRehash r => Sys2Proof.Machine.execDirRehash r s
  | .rehashEnd => Sys2Proof.Machine.execRehashEnd s
  | .unknownGet r => Sys2Proof.Machine.execUnknownGet r s
  | .unknownClear r => Sys2Proof.Machine.execUnknownClear r s
  | .patrolScrub res => Sys2Proof.Machine.execPatrolScrub res s
  | .softRepair ok => Sys2Proof.Machine.execSoftRepair ok s
  | .xlateSet r => Sys2Proof.Machine.execXlateSet r s
  | .xlateGet r => Sys2Proof.Machine.execXlateGet r s
  | .dmaChanSet r => Sys2Proof.Machine.execDmaChanSet r s
  | .dmaChanStatusGet r => Sys2Proof.Machine.execDmaChanStatusGet r s
  | .dmaChanRestart r => Sys2Proof.Machine.execDmaChanRestart r s
  | .memStatusGet r => Sys2Proof.Machine.execMemStatusGet r s
  | .dmaPiWrite c v => Sys2Proof.Machine.execDmaPiWrite c v s
  | .dmaDescriptorEnd c desc => Sys2Proof.Machine.execDmaDescriptorEnd c desc s
  | .dmaBusError c done => Sys2Proof.Machine.execDmaBusError c done s
  | .journalGroupCommit frame bad => Sys2Proof.Machine.execJournalGroupCommit frame bad s
  | .jnlFullWaitExpiry frame => Sys2Proof.Machine.execJnlFullWaitExpiry frame s
  | .bundleTimeout overflow => Sys2Proof.Machine.execBundleTimeout overflow s
  | .bundleSigned => Sys2Proof.Machine.execBundleSigned s
  | .profileSet r => Sys2Proof.Machine.execProfileSet r s
  | .profileGet r => Sys2Proof.Machine.execProfileGet r s
  | .provListAdd r => Sys2Proof.Machine.execProvListAdd r s
  | .provListClear r => Sys2Proof.Machine.execProvListClear r s
  | .exportStart r => Sys2Proof.Machine.execExportStart r s
  | .exportStop r => Sys2Proof.Machine.execExportStop r s
  | .exportConfirm r => Sys2Proof.Machine.execExportConfirm r s
  | .exportFlush r => Sys2Proof.Machine.execExportFlush r s
  | .pipeStatusGet r => Sys2Proof.Machine.execPipeStatusGet r s
  | .exportRewind r => Sys2Proof.Machine.execExportRewind r s
  | .calTransition index t => Sys2Proof.Machine.execCalTransition index t s
  | .ledgerSweep index count => Sys2Proof.Machine.execLedgerSweep index count s
  | .stmtBundleTimeout => Sys2Proof.Machine.execStmtBundleTimeout s
  | .ledgerSeal => Sys2Proof.Machine.execLedgerSeal s
  | .durabilityExpiry page => Sys2Proof.Machine.execDurabilityExpiry page s
  | .restorePageReceive bytes => Sys2Proof.Machine.execRestorePageReceive bytes s
  | .pwrfailAssert => Sys2Proof.Machine.execPwrfailAssert s
  | .pwrfailDeassert => Sys2Proof.Machine.execPwrfailDeassert s
  | .calLoad r => Sys2Proof.Machine.execCalLoad r s
  | .calGet r => Sys2Proof.Machine.execCalGet r s
  | .tariffAssign r => Sys2Proof.Machine.execTariffAssign r s
  | .ledgerGet r => Sys2Proof.Machine.execLedgerGet r s
  | .ledgerRestoreStart r => Sys2Proof.Machine.execLedgerRestoreStart r s
  | .ledgerPageLost r => Sys2Proof.Machine.execLedgerPageLost r s
  | .ledgerExportStart r => Sys2Proof.Machine.execLedgerExportStart r s
  | .ledgerConfirm r => Sys2Proof.Machine.execLedgerConfirm r s
  | .ledgerPendingGet r => Sys2Proof.Machine.execLedgerPendingGet r s
  | .periodCloseNow r => Sys2Proof.Machine.execPeriodCloseNow r s
  | .statementStart r => Sys2Proof.Machine.execStatementStart r s
  | .statementConfirm r => Sys2Proof.Machine.execStatementConfirm r s
  | .statementRewind r => Sys2Proof.Machine.execStatementRewind r s
  | .graniteInfoGet r => Sys2Proof.Machine.execGraniteInfoGet r s
  | .displayShow r => Sys2Proof.Machine.execDisplayShow r s
  | .ledgerStatusGet r => Sys2Proof.Machine.execLedgerStatusGet r s
  | .displayScreen acked => Sys2Proof.Machine.execDisplayScreen acked s
  | .displayRetry acked => Sys2Proof.Machine.execDisplayRetry acked s
  | .sealChange high => Sys2Proof.Machine.execSealChange high s
  | .intervalClose zone stop => Sys2Proof.Machine.execIntervalClose zone stop s
  | .revisionPost zone start => Sys2Proof.Machine.execRevisionPost zone start s
  | .unzonedPost start => Sys2Proof.Machine.execUnzonedPost start s
  | .horizonAdvance => Sys2Proof.Machine.execHorizonAdvance s
  | .zoneLoad r => Sys2Proof.Machine.execZoneLoad r s
  | .zoneDrop r => Sys2Proof.Machine.execZoneDrop r s
  | .zoneTolSet r => Sys2Proof.Machine.execZoneTolSet r s
  | .zoneGet r => Sys2Proof.Machine.execZoneGet r s
  | .scoreReset r => Sys2Proof.Machine.execScoreReset r s
  | .balExportStart r => Sys2Proof.Machine.execBalExportStart r s
  | .balConfirm r => Sys2Proof.Machine.execBalConfirm r s
  | .balRewind r => Sys2Proof.Machine.execBalRewind r s
  | .balRerun r => Sys2Proof.Machine.execBalRerun r s
  | .balStatusGet r => Sys2Proof.Machine.execBalStatusGet r s
  | .campCreate r => Sys2Proof.Machine.execCampCreate r s
  | .campContent r => Sys2Proof.Machine.execCampContent r s
  | .campTargetsAdd r => Sys2Proof.Machine.execCampTargetsAdd r s
  | .campStart r => Sys2Proof.Machine.execCampStart r s
  | .campPause r => Sys2Proof.Machine.execCampPause r s
  | .campResume r => Sys2Proof.Machine.execCampResume r s
  | .campCancel r => Sys2Proof.Machine.execCampCancel r s
  | .campStatusGet r => Sys2Proof.Machine.execCampStatusGet r s
  | .campTargetGet r => Sys2Proof.Machine.execCampTargetGet r s
  | .campRelease r => Sys2Proof.Machine.execCampRelease r s
  | .switchFaultClear r => Sys2Proof.Machine.execSwitchFaultClear r s
  | .stepAttempt camp attempt => Sys2Proof.Machine.execStepAttempt camp attempt s
  | .confWaitEnd camp handle => Sys2Proof.Machine.execConfWaitEnd camp handle s
  | .campDeadline camp => Sys2Proof.Machine.execCampDeadline camp s
  | .sessionPlan camp port => Sys2Proof.Machine.execSessionPlan camp port s
  | .multicastFrame camp port power => Sys2Proof.Machine.execMulticastFrame camp port power s
  | .switchFbTimeout camp handle => Sys2Proof.Machine.execSwitchFbTimeout camp handle s
  | .gateRelease testOk upset => Sys2Proof.Machine.execGateRelease testOk upset s
  | .qkLoad r => Sys2Proof.Machine.execQkLoad r s
  | .qkDerive r => Sys2Proof.Machine.execQkDerive r s
  | .qkGenerate r => Sys2Proof.Machine.execQkGenerate r s
  | .qkDestroy r => Sys2Proof.Machine.execQkDestroy r s
  | .qkSlotGet r => Sys2Proof.Machine.execQkSlotGet r s
  | .qkEpLoad r => Sys2Proof.Machine.execQkEpLoad r s
  | .qkEpClear r => Sys2Proof.Machine.execQkEpClear r s
  | .qkRewrap r => Sys2Proof.Machine.execQkRewrap r s
  | .rewrapWalk => Sys2Proof.Machine.execRewrapWalk s
  | .qkAttest r => Sys2Proof.Machine.execQkAttest r s
  | .qkCertGet r => Sys2Proof.Machine.execQkCertGet r s
  | .qkStatusGet r => Sys2Proof.Machine.execQkStatusGet r s
  | .drbgReseed pass => Sys2Proof.Machine.execDrbgReseed pass s
  | .recordWrite failed => Sys2Proof.Machine.execRecordWrite failed s
  | .tokenRefill code => Sys2Proof.Machine.execTokenRefill code s
  | .checkpointWrite fails => Sys2Proof.Machine.execCheckpointWrite fails s
  | .envmScrub res => Sys2Proof.Machine.execEnvmScrub res s
  | .slateRead r => Sys2Proof.Machine.execSlateRead r s
  | .slateDump r => Sys2Proof.Machine.execSlateDump r s
  | .slateStatusGet r => Sys2Proof.Machine.execSlateStatusGet r s
  | .slateCodeGet r => Sys2Proof.Machine.execSlateCodeGet r s
  | .slateRecfClear r => Sys2Proof.Machine.execSlateRecfClear r s
  | .rtcTick => Sys2Proof.Machine.execRtcTick s
  | .rtcRegRead reg => Sys2Proof.Machine.execRtcRegRead reg s
  | .rtcYearRead => Sys2Proof.Machine.execRtcYearRead s
  | .rtcShadowTimeout => Sys2Proof.Machine.execRtcShadowTimeout s
  | .rtcRegWrite reg v => Sys2Proof.Machine.execRtcRegWrite reg v s
  | .rtcYearWrite v => Sys2Proof.Machine.execRtcYearWrite v s
  | .writeSetTimeout => Sys2Proof.Machine.execWriteSetTimeout s
  | .supplyToVbat => Sys2Proof.Machine.execSupplyToVbat s
  | .supplyToMain => Sys2Proof.Machine.execSupplyToMain s
  | .lbvMeasure volts mv => Sys2Proof.Machine.execLbvMeasure volts mv s
  | .retentionLoss => Sys2Proof.Machine.execRetentionLoss s
  | .oscStop => Sys2Proof.Machine.execOscStop s
  | .porBkp => Sys2Proof.Machine.execPorBkp s
  | .tamperActivation verdict => Sys2Proof.Machine.execTamperActivation verdict s
  | .pwronOff => Sys2Proof.Machine.execPwronOff s
  | .timeGet r => Sys2Proof.Machine.execTimeGet r s
  | .timeSet r => Sys2Proof.Machine.execTimeSet r s
  | .timeTrimSet r => Sys2Proof.Machine.execTimeTrimSet r s
  | .alarmSet r => Sys2Proof.Machine.execAlarmSet r s
  | .alarmGet r => Sys2Proof.Machine.execAlarmGet r s
  | .powerOff r => Sys2Proof.Machine.execPowerOff r s
  | .tamperCfgSet r => Sys2Proof.Machine.execTamperCfgSet r s
  | .tamperGet r => Sys2Proof.Machine.execTamperGet r s
  | .tamperClear r => Sys2Proof.Machine.execTamperClear r s
  | .mirRefresh => Sys2Proof.Machine.execMirRefresh s
  | .mirCalRead reg => Sys2Proof.Machine.execMirCalRead reg s
  | .mirYearRead => Sys2Proof.Machine.execMirYearRead s
  | .mirShadowTimeout => Sys2Proof.Machine.execMirShadowTimeout s
  | .porMainAssert => Sys2Proof.Machine.execPorMainAssert s
  | .porMainRelease => Sys2Proof.Machine.execPorMainRelease s
  | .nresetAssert => Sys2Proof.Machine.execNresetAssert s
  | .nresetRelease => Sys2Proof.Machine.execNresetRelease s
  | .perstNAssert => Sys2Proof.Machine.execPerstNAssert s
  | .wdtExpiry => Sys2Proof.Machine.execWdtExpiry s
  | .sysrst => Sys2Proof.Machine.execSysrst s
  | .recorderDrainEnd => Sys2Proof.Machine.execRecorderDrainEnd s
  | .dprst => Sys2Proof.Machine.execDprst s
  | .islrst k => Sys2Proof.Machine.execIslrst k s
  | .resetRequest r => Sys2Proof.Machine.execResetRequest r s
  | .releaseStageEnd straps opt => Sys2Proof.Machine.execReleaseStageEnd straps opt s
  | .genLockTimeout k => Sys2Proof.Machine.execGenLockTimeout k s
  | .synthLockRetry locked => Sys2Proof.Machine.execSynthLockRetry locked s
  | .bootRomVerify v => Sys2Proof.Machine.execBootRomVerify v s
  | .coreBist failed res => Sys2Proof.Machine.execCoreBist failed res s
  | .pcieLinkTrain width speed => Sys2Proof.Machine.execPcieLinkTrain width speed s
  | .ddrTraining ranks => Sys2Proof.Machine.execDdrTraining ranks s
  | .startScanReplay => Sys2Proof.Machine.execStartScanReplay s
  | .rfPortTrain p => Sys2Proof.Machine.execRfPortTrain p s
  | .rfPortTrainEnd p res => Sys2Proof.Machine.execRfPortTrainEnd p res s
  | .plcOffsetCal offsets => Sys2Proof.Machine.execPlcOffsetCal offsets s
  | .dataplaneBist badIslands lanes => Sys2Proof.Machine.execDataplaneBist badIslands lanes s
  | .trainReportGet r => Sys2Proof.Machine.execTrainReportGet r s
  | .fwInfoGet r => Sys2Proof.Machine.execFwInfoGet r s
  | .fwStageBegin r => Sys2Proof.Machine.execFwStageBegin r s
  | .stagingEraseDone => Sys2Proof.Machine.execStagingEraseDone s
  | .fwStageWrite r => Sys2Proof.Machine.execFwStageWrite r s
  | .fwStageCommit r => Sys2Proof.Machine.execFwStageCommit r s
  | .fwStageClear r => Sys2Proof.Machine.execFwStageClear r s
  | .fwPrepare r => Sys2Proof.Machine.execFwPrepare r s
  | .fwPrepareDone fault => Sys2Proof.Machine.execFwPrepareDone fault s
  | .fwMicrocodeAt r => Sys2Proof.Machine.execFwMicrocodeAt r s
  | .microcodeSwitch => Sys2Proof.Machine.execMicrocodeSwitch s
  | .fwActivate r => Sys2Proof.Machine.execFwActivate r s
  | .firmwareTakeover => Sys2Proof.Machine.execFirmwareTakeover s
  | .activationPauseOverrun => Sys2Proof.Machine.execActivationPauseOverrun s
  | .fwConfirm r => Sys2Proof.Machine.execFwConfirm r s
  | .confirmTimerExpiry => Sys2Proof.Machine.execConfirmTimerExpiry s
  | .fwHostBoot r image => Sys2Proof.Machine.execFwHostBoot r image s
  | .lifecycleAdvance r => Sys2Proof.Machine.execLifecycleAdvance r s
  | .custKeyProgram r => Sys2Proof.Machine.execCustKeyProgram r s
  | .gateTestPeriodic pass => Sys2Proof.Machine.execGateTestPeriodic pass s
  | .lockstepMismatch => Sys2Proof.Machine.execLockstepMismatch s
  | .safetySramScrub pass => Sys2Proof.Machine.execSafetySramScrub pass s
  | .heartbeatCheck us => Sys2Proof.Machine.execHeartbeatCheck us s
  | .clockMonitorFault => Sys2Proof.Machine.execClockMonitorFault s
  | .safetyAutoRecover => Sys2Proof.Machine.execSafetyAutoRecover s
  | .proofTestEnd failed => Sys2Proof.Machine.execProofTestEnd failed s
  | .safetyStatusGet r => Sys2Proof.Machine.execSafetyStatusGet r s
  | .safetyClear r => Sys2Proof.Machine.execSafetyClear r s
  | .safetyProofTest r => Sys2Proof.Machine.execSafetyProofTest r s
  | .rotationStep => Sys2Proof.Machine.execRotationStep s
  | .rotationHandover => Sys2Proof.Machine.execRotationHandover s
  | .laneTestEnd pass => Sys2Proof.Machine.execLaneTestEnd pass s
  | .rotationLate lane => Sys2Proof.Machine.execRotationLate lane s
  | .islandBistEnd k res => Sys2Proof.Machine.execIslandBistEnd k res s
  | .maintTokenGrant act => Sys2Proof.Machine.execMaintTokenGrant act s
  | .laneMapGet r => Sys2Proof.Machine.execLaneMapGet r s
  | .repairLedgerGet r => Sys2Proof.Machine.execRepairLedgerGet r s
  | .rotationStatusGet r => Sys2Proof.Machine.execRotationStatusGet r s
  | .maintStatusGet r => Sys2Proof.Machine.execMaintStatusGet r s
  | .plcTransmitEnd q => Sys2Proof.Machine.execPlcTransmitEnd q s
  | .pcieUncorrectableError => Sys2Proof.Machine.execPcieUncorrectableError s

end Sys2Proof.Machine
end

