-- ==== Sys2Proof/Machine/Step.lean ====
section
/-! DEFINITION. The step of the block: the command at the front of the queue, or an idle step. -/

namespace Sys2Proof.Machine

/-- One step: the front command runs on the state whose queue is the rest; with no command waiting the block idles (log 2). -/
def step (s : State) : Host.Outcome State Fault Refusal :=
  match s.pending with
  | [] => .next s
  | i :: rest => exec i { s with pending := rest }

/-- The state with a command at the front of its queue. -/
def State.push (s : State) (i : Instr) : State := { s with pending := i :: s.pending }

/-- The state with the command that a table word spells at the front of its queue; unchanged where the word spells none. -/
def State.withFetchWord (s : State) (nbits w : Nat) : State :=
  match decodeTableWord nbits w with
  | some i => s.push i
  | none => s

end Sys2Proof.Machine
end

