-- ==== Sys2Proof/Machine/Read.lean ====
section
/-! DEFINITION. What a read of each BAR0 register returns: the Read column of Tables 20-2 to 20-11. A reserved field (R5), a field that is only
written (R6) and an offset outside every block (R494) read as 0. The reads with an effect have their own commands. (DESIGN CHOICE: log 139) -/

namespace Sys2Proof.Machine

def word (n : Nat) : Word := BitVec.ofNat 32 n

/-- One bit of each of n islands from the first on, the first in bit 0 (R499). -/
def gather (f : Nat → Bool) (first n : Nat) : Word := word ((List.range n).map (fun i => 2 ^ i * b2n (f (first + i)))).sum

/-- GLB (Table 20-2). -/
def readGlb (s : State) (off : Nat) : Word :=
  match off with
  | 0x000 => word ((if isXn7440 s then 0x7440 else 0x7448) + 2 ^ 16 * s.glb.dieRev.toNat)
  | 0x004 => 1
  | 0x008 => word (rd s.life.deviceId 0 4)
  | 0x00C => word (rd s.life.deviceId 4 4)
  | 0x010 => word (rd s.life.deviceId 8 4)
  | 0x014 => word (rd s.life.deviceId 12 4)
  | 0x018 => glbState s
  | 0x020 => word s.now
  | 0x024 => s.glb.etimeCap.extractLsb' 32 32
  | 0x028 => s.glb.scratch
  | 0x02C => word (b2n s.glb.partialWr + 2 * b2n s.glb.unmappedWr)
  | 0x030 => s.slate.head
  | 0x034 => slateTail s
  | _ => 0

/-- RST (Table 20-3). -/
def readRst (s : State) (off : Nat) : Word :=
  let b := s.boot
  match off with
  | 0x04 => b.cause.setWidth 32
  | 0x08 => word (b.bootsrc % 4 + 4 * (b.clkmode % 4) + 16 * b2n b.bootOvr)
  | 0x0C => word (b2n b.optValid + 2 * b2n b.optFailed + 4 * b.optGroups.toNat + 2 ^ 8 * (lifecycle s % 8) + 2 ^ 12 * (b.attempts % 4))
  | 0x10 => word (b.stage % 256 + 2 ^ 8 * (b.fail % 256))
  | 0x14 => word (if b.wdtArmed then b.wdtRemain % 1024 + 2 ^ 16 else 0)
  | 0x18 => word (b.stageRun % 8)
  | _ => 0

/-- ISL_STAT of island i (Table 20-4). An island that waits at its fence for a reset is not yet held in reset (R17). -/
def islStat (s : State) (i : Nat) : Word :=
  let x := isl s i
  if !(i < 36) || !islPresent s i then 0
  else
    word (1 + 2 * b2n x.clkRun + 4 * b2n x.lock + 8 * b2n (x.inReset && x.waitFrom.isNone) + 16 * b2n (islFenced s i) + 32 * b2n (inRepair s 2 i)
      + 2 ^ 8 * b2n x.fault + 2 ^ 9 * (x.cause % 8) + 2 ^ 16 * (x.islrstCnt % 256))

/-- The ISL block: ISL_STAT, then the four summaries (R499). -/
def readIsl (s : State) (off : Nat) : Word :=
  let fault := fun i => islPresent s i && (isl s i).fault
  let excl := fun i => islPresent s i && inRepair s 2 i
  match off with
  | 0x90 => gather fault 0 32
  | 0x94 => gather fault 32 4
  | 0x98 => gather excl 0 32
  | 0x9C => gather excl 32 4
  | _ => islStat s (off / 4)

/-- MIR (Table 20-8): the copies, the calendar ones through the host shadow (R504). -/
def readMir (s : State) (off : Nat) : Word :=
  let m := s.mir
  let cnt := fun i => tget m.tampCnt i 0 % 65536
  match off with
  | 0x20 => m.stat.setWidth 32
  | 0x24 => m.recfStat
  | 0x28 => m.recfTime
  | 0x2C => word (b2n m.pwrOff)
  | 0x30 => word (cnt 0 + 65536 * cnt 1)
  | 0x34 => word (cnt 2 + 65536 * cnt 3)
  | 0x38 => word (b2n m.sealOpen)
  | 0x3C => m.sealCount
  | 0x40 => word (b2n (m.stale || !controlUp s) + 2 * b2n m.shadowTo + 4 * b2n m.shadow.isSome)
  | _ => if off < 0x20 then word (calField ((m.shadow.map Prod.fst).getD m.cal) (off / 4)) else 0

/-- EVT (Table 20-5): EVT_FORCE is only written. -/
def readEvt (s : State) (off : Nat) : Word :=
  if off < 0x20 then evtWord s.evt.pend (off / 4)
  else if off < 0x40 then evtWord s.evt.en (off / 4 - 8)
  else if 0x100 ≤ off && off < 0x200 then
    word ((List.range 4).map (fun i => 2 ^ (8 * i) * evtRoute s (off - 0x100 + i))).sum
  else 0

/-- The registers of mailbox m (Table 20-6). -/
def readMbx (s : State) (m off : Nat) : Word :=
  let x := mbx s m
  match off with
  | 0x00 => x.reqBaseLo
  | 0x04 => x.reqBaseHi
  | 0x08 => x.rspBaseLo
  | 0x0C => x.rspBaseHi
  | 0x10 => word (x.reqLog2.toNat + 2 ^ 8 * x.rspLog2.toNat)
  | 0x14 => word (b2n x.en)
  | 0x18 => word (b2n x.err + 2 * causeCode x.cause + 2 ^ 8 * (pendCount s m % 16) + 2 ^ 16 * b2n (!x.rspWait.isEmpty))
  | 0x20 => x.reqPI
  | 0x24 => x.reqCI
  | 0x28 => x.rspPI
  | 0x2C => x.rspCI
  | _ => 0

/-- The registers of DMA channel c (Table 20-7). -/
def readDma (s : State) (c off : Nat) : Word :=
  let x := tget s.chans c {}
  match off with
  | 0x0 => x.pi
  | 0x4 => x.ci
  | 0x8 => word (chanCode x.state + 2 ^ 8 * streamSub x.stream)
  | _ => 0

/-- LANE_STATE.STATE (Table 20-9); of two that hold, the first below. -/
def laneStateCode (s : State) (l : Nat) : Nat :=
  let x := lane s l
  if s.laneCount ≤ l then 5
  else if x.asg.mode = 0 then 0
  else if !rfUp s x.asg.port then 4
  else if !(rfp s x.asg.port).blankedBy.isEmpty then 3
  else if x.rx != .idle then 2
  else 1

/-- The registers of logical lane l (Table 20-9). -/
def readLane (s : State) (l off : Nat) : Word :=
  match off with
  | 0x00 => word (rd (laneIdBytes s l) 0 4)
  | 0x04 => word (rd (laneIdBytes s l) 4 4)
  | 0x08 =>
    let q := (lane s l).queue
    word (laneStateCode s l + 2 ^ 8 * b2n (s.rot.shadow.any (fun e => e.2 == l)) + 2 ^ 16 * (qUsed q % 64) + 2 ^ 24 * b2n q.dropIdle)
  | _ => 0

/-- The registers of RF port p (Table 20-10). -/
def readRfp (s : State) (p off : Nat) : Word :=
  let x := rfp s p
  let y := tget s.sectors p {}
  let sector := match y.state with
    | .normal => 0
    | .fallback => 1
    | .degraded => 2
  match off with
  | 0x00 => word (rfCode x.state + 4 * b2n (!x.txenN) + 8 * b2n (!x.blankedBy.isEmpty) + 2 ^ 8 * (x.gain % 64) + 2 ^ 16 * sector
      + 2 ^ 24 * (y.misses % 256))
  | 0x04 => x.slotErr
  | 0x08 => x.ovld
  | 0x0C => word (x.blankUs / 1000)
  | 0x10 => word (x.train.result % 16 + 2 ^ 8 * (x.train.attempts % 16))
  | _ => 0

/-- The registers of PLC port q (Table 20-11). -/
def readPlcp (s : State) (q off : Nat) : Word :=
  let x := plcp s q
  let busy := s.plcMac.running.any (fun e => (groupOf s q).contains e.1)
  if isXn7440 s then 0
  else
    match off with
    | 0x00 => word (plcCode x.state + 8 * b2n (!x.ldEnN) + 16 * b2n (!x.ldFaultN) + 32 * (x.band % 4) + 128 * b2n busy)
    | 0x04 => x.polls
    | 0x08 => x.good
    | 0x0C => x.deadlines
    | 0x10 => x.impulse
    | 0x14 => word (qUsed x.queue % 64 + 2 ^ 8 * (x.queue.notices.length % 32) + 2 ^ 16 * b2n x.queue.dropIdle)
    | _ => 0

/-- A dword of the MSI-X table (PCI Express layout, R494). -/
def readMsix (s : State) (off : Nat) : Word :=
  let e := tget s.pcie.msix (off / 16) {}
  match off % 16 with
  | 0 => e.addr.setWidth 32
  | 4 => e.addr.extractLsb' 32 32
  | 8 => e.data
  | _ => word (b2n e.mask)

/-- What a read of the register at offset a of BAR0 returns (R494 to R496). -/
def barRead (s : State) (a : Nat) : Word :=
  if !bar0Up s a || !bar0Mapped a then 0
  else if a < 0x1000 then readGlb s a
  else if a < 0x2000 then readRst s (a - 0x1000)
  else if a < 0x3000 then readIsl s (a - 0x2000)
  else if a < 0x10000 then readMir s (a - 0x3000)
  else if a < 0x20000 then readEvt s (a - 0x10000)
  else if a < 0x21000 then readMbx s ((a - 0x20000) / 0x40) (a % 0x40)
  else if a < 0x40000 then readDma s ((a - 0x21000) / 0x10) (a % 0x10)
  else if a < 0x50000 then readLane s ((a - 0x40000) / 0x20) (a % 0x20)
  else if a < 0x51000 then readRfp s ((a - 0x50000) / 0x40) (a % 0x40)
  else if a < 0x80000 then readPlcp s ((a - 0x51000) / 0x40) (a % 0x40)
  else if a < 0x81000 then readMsix s (a - 0x80000)
  else if a = 0x81000 then s.evt.pba.setWidth 32
  else s.evt.pba.extractLsb' 32 32

end Sys2Proof.Machine
end

