-- ==== Sys2Proof/Safety.lean ====
section
/-! DEFINITION. What a safe run keeps, and the words that the statements share. -/

namespace Sys2Proof.Machine

/-! ### Requests (03 R41 to R46, Table 03-6) -/

/-- The state in which a request runs: its mailbox no longer holds it. -/
def taken (r : Req) (s : State) : State := setMbx r.mbx (fun x => { x with fetched := none, fetchedOrphan := false }) s

/-- Request r, whose opcode is served as v says, comes to run: its mailbox is served and holds the request, no mailbox holds one fetched earlier, the response is
still owed to the ring, LENGTH fits, nothing makes the request wait, and the configuration state and the part accept the opcode (checks 1 to 4
of Table 03-6). -/
def Served (v : Service) (r : Req) (s : State) : Bool :=
  serves s r.mbx && takes r.mbx v.opcode r s && !(mbx s r.mbx).fetchedOrphan &&
    !(v.opcode / 256 == 3 && isXn7440 (taken r s)) && v.lenOk r.payload && !(v.ready && bringingUp (taken r s)) &&
    !((taken r s).ops.any (fun o => objsClash o.objs (v.objs r (taken r s)))) && accepted v (taken r s)

/-- Request r of that opcode is answered at once, on state s: status, then payload. -/
def answer (opcode : Nat) (r : Req) (st : Status) (payload : List Byte) (s : State) : State := immediate opcode r false st payload s

/-- A request whose operation starts: PENDING at once, and the operation holds the objects until its final response. -/
def begun (opcode : Nat) (r : Req) (objs : List Obj) (s : State) : State :=
  answer opcode r .pending [] (addOp opcode r false .running objs s)

/-! ### An island's reset (16 R420, R431) -/

/-- The state that an ISLRST of island i leaves, before any exclusion: the source is latched, the island's units are down, its fence has begun or
its reset is under way, and the release sequence is at stage 6. -/
def islandReset (i : Nat) (s : State) : State :=
  let u := setIsl i (fun x => { x with islrstCnt := satAdd 255 x.islrstCnt 1, lastIslrst := some s.mono, bistDue := true })
    (holdIsland i (islandDown i (latchCause causeIslrst s)))
  { u with boot.widest := .islrst, boot.stageRun := 6, boot.isls := u.boot.isls ++ [i] }

/-! ### Lane assignment (04 R83) -/

/-- The entries of a LANE_ASSIGN. -/
def assignEntries (r : Req) : List (Nat × LaneAsg × Bool) := (List.range (rd r.payload 0 2)).map (asgEntry r.payload)

/-- A LANE_ASSIGN passes every check: reserved bytes, each lane once, entries that are allowed, streams not shared, and lanes and ports that
are there. -/
def AssignOk (window : Bool) (r : Req) (s : State) : Bool :=
  zeroAt r.payload 2 2 && !(List.range (rd r.payload 0 2)).any (fun i => !asgRsv r.payload i)
    && ((assignEntries r).map (fun e => e.1)).eraseDups.length == ((assignEntries r).map (fun e => e.1)).length
    && !(assignEntries r).any (fun e => !asgOk (valueIn s window) e.2.1)
    && !sharesStream (((assignEntries r).foldl (fun (t : Tbl LaneAsg) e => tset t e.1 e.2.1) (laneTable s window)).map (fun e => e.2))
    && !(assignEntries r).any (fun e => s.laneCount ≤ e.1 || !rfListed s e.2.1.port)

/-! ### Links (01 R11, R12, R15) -/

/-- Every direction of every link has its credits outside a fence: those the sender holds and the occupied buffer entries make up the initial
count (R12), the two ends have counted the same flits and the same credits (R15), and the flits sent are those returned and those still
outstanding. -/
def CreditsWhole (s : State) : Prop :=
  ∀ d a b c, dirOf d = some (a, b, c) → (linkDir s d).fenced = false →
    heldCredits s d + (linkDir s d).occupied = c ∧ (linkDir s d).spent = (linkDir s d).occupied ∧
    (linkDir s d).received = (linkDir s d).sent ∧ (linkDir s d).returned = (linkDir s d).released ∧
    (linkDir s d).sent = (linkDir s d).returned + (linkDir s d).spent

/-! ### Configuration (03 R57) -/

/-- The changes of the configuration state that Table 03-10 gives. -/
def cfgMoves : List (CfgState × CfgState) :=
  [(.unconfigured, .configuring), (.configuring, .committing), (.configuring, .unconfigured), (.committing, .configuring),
   (.committing, .reconfiguring), (.committing, .committed), (.committed, .reconfiguring), (.reconfiguring, .committing),
   (.reconfiguring, .committed), (.committing, .unconfigured), (.committed, .unconfigured), (.reconfiguring, .unconfigured)]

/-- A window is open in the three states between CONFIG_BEGIN and the end of its commit, and a commit under way remembers the state it came from. -/
def CfgSound (s : State) : Prop :=
  (s.cfg.window.isSome = true ↔ s.cfg.state ≠ .unconfigured ∧ s.cfg.state ≠ .committed) ∧
    (s.cfg.state = .committing → s.cfg.prior = .configuring ∨ s.cfg.prior = .reconfiguring)

end Sys2Proof.Machine
end

