-- ==== Sys2Proof/WellFormed.lean ====
section
/-! DEFINITION. Well-formed commands: every operand within the range that the manual gives the thing it names. exec is total: a command that is not
well-formed changes nothing, or is refused by the check of its own rule. -/

namespace Sys2Proof

/-- A mailbox (R33). -/
def mbxOk (m : Nat) : Bool := decide (m < 16)

/-- A request as a slot holds it: one of 16 mailboxes, and LENGTH in 16 bits (Table 03-2). -/
def reqOk (r : Req) : Bool := mbxOk r.mbx && decide (r.payload.length < 65536)

/-- A 32-bit register of BAR0, aligned (R495, Table 20-1). -/
def regAddrOk (addr : Nat) : Bool := decide (addr < 2 ^ 20) && decide (addr % 4 = 0)

/-- An MSI-X vector, or the function mask (R494). -/
def vectorOk (v : Option Nat) : Bool :=
  match v with
  | some n => decide (n < 64)
  | none => true

/-- A link direction (R11): 402 of them. -/
def linkOk (d : Nat) : Bool := decide (d < 402)

def auditOk (u : AuditUpset) : Bool := linkOk u.dir

/-- An RF port (R66). -/
def rfOk (p : Nat) : Bool := decide (p < 8)

/-- A PLC port (R130). -/
def plcOk (q : Nat) : Bool := decide (q < 16)

/-- A power measured over at least one sample, none above full scale (R67, R69). -/
def powerOk (x : Power) : Bool := decide (0 < x.n) && decide (x.sum ≤ x.n * (2 * 32767 ^ 2))

/-- A logical lane (R82). -/
def laneOk (l : Nat) : Bool := decide (l < 256)

/-- A physical lane (R480). -/
def physOk (k : Nat) : Bool := decide (k < 272)

/-- The object of a repair-ledger entry: 32 bits (R487). -/
def repairObjOk (o : Nat) : Bool := decide (o < 2 ^ 32)

/-- A fall-through queue: 256 of the lanes, 16 of the PLC ports (R143). -/
def queueOk (q : Nat) : Bool := decide (q < 272)

/-- An endpoint handle (R173). -/
def handleOk (h : Nat) : Bool := decide (h < 2 ^ 20)

/-- A DMA channel (R225). -/
def chanOk (c : Nat) : Bool := decide (c < 32)

/-- A balance zone (R301). -/
def zoneOk (z : Nat) : Bool := decide (z < 16384)

/-- A campaign (R320). -/
def campOk (c : Nat) : Bool := decide (c < 64)

/-- A register of the RTC: the calendar registers (Table 15-2) and RTC_STAT (log 144). -/
def regOk (r : Nat) : Bool := decide (r < 9)

/-- Islands of the data plane and of the core (R499). -/
def dataIslandOk (i : Nat) : Bool := decide (i < 29)

def coreIslandOk (i : Nat) : Bool := decide (29 ≤ i) && decide (i < 35)

/-- A PCIe width and speed, speed in tenths of GT/s (R439). -/
def linkModeOk (width speed : Nat) : Bool := [1, 2, 4].contains width && [25, 50, 80, 160].contains speed

/-- A DRAM rank (R208). -/
def rankOk (r : RankTrain) : Bool := decide (r.rank < 2)

/-- At most four attempts of each of five steps (R446). -/
def trainOk (t : TrainIn) : Bool := decide (t.tries.length ≤ 20)

def offsetOk (o : Nat × Int × Int) : Bool := plcOk o.1

/-- Where a fault struck FW_PREPARE: at the banks (0), in SAVE (1), in INSTALL (2); or no fault (R459, R462). -/
def partOk (f : Option Nat) : Bool :=
  match f with
  | some k => decide (k < 3)
  | none => true

/-- A command is well-formed. -/
def Instr.wellFormed (i : Instr) : Bool :=
  match i with
  | .registerWrite addr _ _ => regAddrOk addr
  | .etimeLoRead | .c1Recovery | .nbrDue | .routeRecalc | .fetchBufferFree | .rehashEnd | .bundleSigned | .stmtBundleTimeout
  | .ledgerSeal | .pwrfailAssert | .pwrfailDeassert | .horizonAdvance | .rewrapWalk | .rtcTick | .rtcYearRead | .rtcShadowTimeout
  | .startScanReplay | .writeSetTimeout | .supplyToVbat | .supplyToMain | .retentionLoss | .oscStop | .porBkp | .pwronOff | .mirRefresh | .mirYearRead
  | .mirShadowTimeout | .porMainAssert | .porMainRelease | .nresetAssert | .nresetRelease | .perstNAssert | .wdtExpiry | .sysrst
  | .recorderDrainEnd | .dprst | .stagingEraseDone | .microcodeSwitch | .firmwareTakeover | .activationPauseOverrun
  | .confirmTimerExpiry | .lockstepMismatch | .clockMonitorFault | .safetyAutoRecover | .rotationStep | .rotationHandover
  | .pcieUncorrectableError => true
  | .rstCtrlSysrst _ => true
  | .mbxEnable m | .mbxDisable m | .mbxReset m | .responsePost m => mbxOk m
  | .mbxReqPiWrite m _ | .mbxRspCiWrite m _ => mbxOk m
  | .requestFetch m bytes => mbxOk m && decide (16 ≤ bytes.length)
  | .ringBusError m _ => mbxOk m
  | .requestWaitEnd _ => true
  | .evtPendClear k _ _ => decide (k < 8)
  | .evtEnWrite k _ | .evtForce k _ => decide (k < 8)
  | .msixUnmask vector => vectorOk vector
  | .nop r | .configBegin r | .configCommit r | .configAbort r | .configStateGet r | .capsGet r | .paramBlockWrite r
  | .paramBlockRead r | .laneAssign r | .laneTableGet r | .laneStatsGet r | .laneStatsClear r | .rfPortStatusGet r | .bandProfileSet r
  | .bandProfileGet r | .dutyStatusGet r | .sectorStatusGet r | .connectOpen r | .connectClose r | .airStateGet r | .plcPortStatusGet r
  | .plcCalGet r | .plcRecalibrate r | .plcLinkGet r | .plcRouteGet r | .plcRouteProposalsGet r | .plcRouteSet r | .plcRouteUnpin r
  | .plcPollNow r | .enrol r | .withdraw r | .admitStateSet r | .endpointUpdate r | .endpointGet r | .addrLookup r | .tallyGet r
  | .tallyClear r | .dirStatusGet r | .dirRehash r | .unknownGet r | .unknownClear r | .xlateSet r | .xlateGet r | .dmaChanSet r
  | .dmaChanStatusGet r | .dmaChanRestart r | .memStatusGet r | .profileSet r | .profileGet r | .provListAdd r | .provListClear r
  | .exportStart r | .exportStop r | .exportConfirm r | .exportFlush r | .pipeStatusGet r | .exportRewind r | .calLoad r | .calGet r
  | .tariffAssign r | .ledgerGet r | .ledgerRestoreStart r | .ledgerPageLost r | .ledgerExportStart r | .ledgerConfirm r
  | .ledgerPendingGet r | .periodCloseNow r | .statementStart r | .statementConfirm r | .statementRewind r | .graniteInfoGet r
  | .displayShow r | .ledgerStatusGet r | .zoneLoad r | .zoneDrop r | .zoneTolSet r | .zoneGet r | .scoreReset r | .balExportStart r
  | .balConfirm r | .balRewind r | .balRerun r | .balStatusGet r | .campCreate r | .campContent r | .campTargetsAdd r | .campStart r
  | .campPause r | .campResume r | .campCancel r | .campStatusGet r | .campTargetGet r | .campRelease r | .switchFaultClear r
  | .qkLoad r | .qkDerive r | .qkGenerate r | .qkDestroy r | .qkSlotGet r | .qkEpLoad r | .qkEpClear r | .qkRewrap r | .qkAttest r
  | .qkCertGet r | .qkStatusGet r | .slateRead r | .slateDump r | .slateStatusGet r | .slateCodeGet r | .slateRecfClear r | .timeGet r
  | .timeSet r | .timeTrimSet r | .alarmSet r | .alarmGet r | .powerOff r | .tamperCfgSet r | .tamperGet r | .tamperClear r
  | .resetRequest r | .trainReportGet r | .fwInfoGet r | .fwStageBegin r | .fwStageWrite r | .fwStageCommit r | .fwStageClear r
  | .fwPrepare r | .fwMicrocodeAt r | .fwActivate r | .fwConfirm r | .lifecycleAdvance r | .custKeyProgram r | .safetyStatusGet r
  | .safetyClear r | .safetyProofTest r | .laneMapGet r | .repairLedgerGet r | .rotationStatusGet r | .maintStatusGet r => reqOk r
  | .commitInstant _ => true
  | .flitTransfer d | .creditReturn d | .fenceWaitExpiry d => linkOk d
  | .creditAudit upsets => upsets.all auditOk
  | .monitorSample _ => true
  | .iqSlotReceive p _ => rfOk p
  | .rxclkStop p | .overloadWindow p | .blankingEnd p | .lbtBackoffEnd p | .beaconMiss p | .fallbackRetry p | .rfPortTrain p => rfOk p
  | .shrDetect lane power _ => laneOk lane && powerOk power
  | .phrDecode lane _ => laneOk lane
  | .psduWordPush lane _ => laneOk lane
  | .laneFrameEnd lane fin | .overflowTrailerPush lane fin => laneOk lane && powerOk fin.power && decide (fin.fcs.length ≤ 4)
  | .blankingStart p _ | .beaconTxStart p _ | .transmissionEnd p _ => rfOk p
  | .laneSwitch lane | .directoryAirPacket lane => laneOk lane
  | .beaconDue p _ => rfOk p
  | .lbtListenEnd p power => rfOk p && powerOk power
  | .deepBeaconTx p _ => rfOk p
  | .linkAckTx p lane => rfOk p && laneOk lane
  | .downlinkTx p handle _ => rfOk p && handleOk handle
  | .chargeExpiry p sb => rfOk p && decide (sb < 8)
  | .arrivalWindowClose handle | .supervisionTimeout handle | .connectReplyTimeout handle | .openTimeout handle
  | .connSupervisionExpiry handle | .readDue handle | .custodyMaxExpiry handle | .unreachRetry handle | .writebackDone handle
  | .retirementComplete handle | .retireHoldExpiry handle => handleOk handle
  | .connectionEvent handle power => handleOk handle && powerOk power
  | .ldFault q _ => plcOk q
  | .ldFaultRetry q | .directoryPlcPacket q | .plcTransmitEnd q => plcOk q
  | .transactionStart group _ => plcOk group
  | .plcHeaderDecode q _ => plcOk q
  | .plcSymbolReceive q _ => plcOk q
  | .plcFrameEnd q _ | .plcOverflowTrailer q _ => plcOk q
  | .pollDeadline group | .retryGapExpiry group => plcOk group
  | .linkAgeExpiry _ => true
  | .queuePush q _ _ _ => queueOk q
  | .queueDoom q | .queueRead q | .dropRest q | .noticePop q => queueOk q
  | .plcCalibrationDone q _ => plcOk q
  | .serialRelease _ | .jnlFullWaitExpiry _ => true
  | .contextFetchComplete handle ue => handleOk handle && ue.bursts.all (fun e => decide (e.1 < 26) && decide (e.2.rank < 2))
  | .patrolScrub res => decide (res.here.rank < 2) && decide (res.mirror.rank < 2)
  | .softRepair _ => true
  | .dmaPiWrite c _ => chanOk c
  | .dmaDescriptorEnd c _ => chanOk c
  | .dmaBusError c _ => chanOk c
  | .journalGroupCommit _ bad => bad.all (fun i => decide (i < 393216))
  | .bundleTimeout _ => true
  | .calTransition index _ => decide (index < 256)
  | .ledgerSweep index _ => decide (index < 256)
  | .durabilityExpiry page => decide (page < 65536)
  | .restorePageReceive _ => true
  | .displayScreen _ | .displayRetry _ => true
  | .sealChange _ => true
  | .intervalClose zone _ => zoneOk zone
  | .revisionPost zone _ => zoneOk zone
  | .unzonedPost start => decide (start % 900 = 0)
  | .stepAttempt camp x => campOk camp && handleOk x.handle && powerOk x.power
  | .confWaitEnd camp handle | .switchFbTimeout camp handle => campOk camp && handleOk handle
  | .campDeadline camp => campOk camp
  | .sessionPlan camp port => campOk camp && rfOk port
  | .multicastFrame camp port power => campOk camp && rfOk port && powerOk power
  | .gateRelease _ _ => true
  | .drbgReseed _ | .gateTestPeriodic _ | .safetySramScrub _ | .laneTestEnd _ => true
  | .recordWrite _ => true
  | .tokenRefill code => decide (code < 512)
  | .checkpointWrite _ => true
  | .envmScrub _ => true
  | .rtcRegRead reg | .mirCalRead reg => regOk reg
  | .rtcRegWrite reg _ => regOk reg
  | .rtcYearWrite v => decide (v < 4096)
  | .lbvMeasure _ mv => decide (mv < 1000)
  | .tamperActivation x => decide (x.input < 4)
  | .islrst i => decide (i < 29)
  | .releaseStageEnd _ _ => true
  | .genLockTimeout i => decide (i < 35)
  | .synthLockRetry _ => true
  | .bootRomVerify _ => true
  | .coreBist failed res =>
    failed.all coreIslandOk && res.repairs.all repairObjOk && res.journal.all (fun e => decide (e.2 < 2 ^ 128))
  | .pcieLinkTrain width speed => linkModeOk width speed
  | .ddrTraining ranks => ranks.all rankOk
  | .rfPortTrainEnd p res => rfOk p && trainOk res
  | .plcOffsetCal offsets => offsets.all offsetOk
  | .dataplaneBist badIslands x => badIslands.all dataIslandOk && x.lanes.all physOk && x.repairs.all repairObjOk
  | .fwPrepareDone fault => partOk fault
  | .fwHostBoot r _ => reqOk r
  | .heartbeatCheck _ => true
  | .proofTestEnd _ => true
  | .rotationLate lane => decide (lane < 272)
  | .islandBistEnd i res => decide (i < 29) && res.repairs.all repairObjOk
  | .maintTokenGrant act => decide (act < 7)

end Sys2Proof
end

