-- ==== Sys2Proof/Certificates/Slice0/Obligations.lean ====
section
/-! DEFINITION. The statements for the provers. -/

open Sys2Proof Sys2Proof.Machine

/-- A step takes the front command and runs exec on it with the queue's rest (the model's form, log 2). -/
def Obligations.StepRunsFrontCommand : Prop :=
  ∀ (c : Instr) (rest : List Instr) (s : State),
    step { s with pending := c :: rest } = exec c { s with pending := rest } ∧ step (s.push c) = exec c s

/-- An idle step changes nothing; this is the model's choice (log 2). -/
def Obligations.EmptyQueueIdles : Prop :=
  (∀ s : State, s.pending = [] → step s = .next s) ∧
  (∀ (s : State) (nbits w : Nat), s.withFetchWord nbits w = s)

/-- The reset columns of Tables 15-2, 15-3, 15-5, 20-5 and 20-6, R57, R62, R397, R410 and R411. -/
def Obligations.ResetHoldsSpecValues : Prop :=
  State.reset.pending = [] ∧ State.reset.cfg.state = .unconfigured ∧ State.reset.evt.pend = 0 ∧ State.reset.evt.en = 0 ∧
  (∀ n : Nat, evtRoute State.reset n = n % 64) ∧
  (∀ m : Nat, (mbx State.reset m).en = false ∧ (mbx State.reset m).err = false ∧ (mbx State.reset m).reqBaseLo = 0 ∧ (mbx State.reset m).reqBaseHi = 0 ∧
    (mbx State.reset m).rspBaseLo = 0 ∧ (mbx State.reset m).rspBaseHi = 0 ∧ (mbx State.reset m).reqLog2 = 0 ∧ (mbx State.reset m).rspLog2 = 0 ∧
    (mbx State.reset m).reqPI = 0 ∧ (mbx State.reset m).reqCI = 0 ∧ (mbx State.reset m).rspPI = 0 ∧ (mbx State.reset m).rspCI = 0) ∧
  State.reset.bkp.cal = { subsec := 0, sec := 0, min := 0, hour := 0, day := 1, month := 1, year := 2000, wday := 0 } ∧
  rtcStat State.reset.bkp = 0b1010000010 ∧ State.reset.bkp.trim = 0 ∧ trusted State.reset = false ∧
  (∀ n : Nat, tget State.reset.bkp.alarms n {} = { time := 0, date := 0, ctrl := 0 }) ∧
  (∀ i : Nat, tget State.reset.bkp.tampCfg i 0 = 0 ∧ (tget State.reset.bkp.tamp i {}).count = 0) ∧
  State.reset.bkp.pwrOff = false ∧ State.reset.bkp.sealOpen = false ∧ State.reset.bkp.sealCount = 0 ∧
  State.reset.mir.shadowTo = false ∧ State.reset.mir.shadow = none ∧
  (∀ i : Nat, i < 35 → (isl State.reset i).inReset = true)

/-- Reset meets the invariants. -/
def Obligations.ResetMeetsInvariants : Prop := CreditsWhole State.reset ∧ CfgSound State.reset

/-- R12: held credits plus occupied entries are the initial credit count of every direction that is not fenced, whatever command runs. -/
def Obligations.CreditsStayWhole : Prop :=
  ∀ s s' : State, CreditsWhole s → step s = .next s' → CreditsWhole s'

/-- R15: without an upset all three comparisons agree, so the audit marks each open direction and does nothing else; it comes 1 s after the one
before. It concludes that exec answers a next state, under conditions on the state and operands alone, for: creditAudit. -/
def Obligations.AuditAgreesWithoutUpset : Prop :=
  ∀ s : State, CreditsWhole s →
    ∃ t, exec (.creditAudit []) s = .next t ∧ t = { s with links := t.links, now := t.now, mono := t.mono, auditAt := t.mono } ∧
      s.auditAt + tSec 1 ≤ t.mono ∧
      (∀ d, d < dirCount → dirOpen s d = true → linkDir t d = { linkDir s d with audited := true }) ∧
      (∀ d, dirOpen s d = false → linkDir t d = linkDir s d)

/-- R57, Table 03-10: every step leaves the configuration state as it was or makes one of the table's changes; the window goes with the state. -/
def Obligations.ConfigurationMovesAsTabled : Prop :=
  ∀ s s' : State, CfgSound s → step s = .next s' →
    CfgSound s' ∧ (s'.cfg.state = s.cfg.state ∨ (s.cfg.state, s'.cfg.state) ∈ cfgMoves)

/-- R467, R427: the lifecycle row is burnt only forward, the customer hash only once, and no other fuse changes. -/
def Obligations.LifecycleOnlyAdvances : Prop :=
  ∀ s s' : State, step s = .next s' →
    lifecycle s ≤ lifecycle s' ∧ (∀ h, s.fuses.custHash = some h → s'.fuses.custHash = some h) ∧
      s'.fuses = { s.fuses with row := s'.fuses.row, custHash := s'.fuses.custHash }

/-- R6, R495 to R498, R225: what each access to BAR0 does, and that nothing else changes. It concludes that exec answers a next state, under
conditions on the state and operands alone, for: registerWrite, etimeLoRead, rstCtrlSysrst, dmaPiWrite, pcieUncorrectableError. -/
def Obligations.RegisterAccessEffects : Prop :=
  (∀ (data : Word) (s : State), bar0Up s 0x028 = true →
    exec (.registerWrite 0x028 0xF data) s = .next { s with glb.scratch := data }) ∧
  (∀ (data : Word) (s : State), bar0Up s 0x1004 = true →
    exec (.registerWrite 0x1004 0xF data) s = .next { s with boot.cause := s.boot.cause &&& ~~~(data.extractLsb' 0 8) }) ∧
  (∀ (a : Nat) (be : BitVec 4) (data : Word) (s : State), bar0Up s (a / 4 * 4) = true → a / 4 * 4 ≠ 0x100000 → bar0Mapped (a / 4 * 4) = false →
    exec (.registerWrite a be data) s = .next { s with glb.unmappedWr := true }) ∧
  (∀ (a : Nat) (be : BitVec 4) (data : Word) (s : State), bar0Up s (a / 4 * 4) = true → bar0Mapped (a / 4 * 4) = true → be ≠ 0xF →
    exec (.registerWrite a be data) s = .next { s with glb.partialWr := true }) ∧
  (∀ (a : Nat) (be : BitVec 4) (data : Word) (s : State), a / 4 * 4 ≠ 0x100000 → (isl s 33).inReset = true →
    exec (.registerWrite a be data) s = .next s) ∧
  (∀ s : State, bar0Up s 0x020 = true →
    exec .etimeLoRead s = .next { s with glb.etimeCap := BitVec.ofNat 64 s.now, glb.lastRead := BitVec.ofNat 32 s.now }) ∧
  (∀ (data : Word) (s : State), bar0Up s 0x1000 = true → data.getLsbD 0 = true → data.extractLsb' 8 8 = 0x5A →
    exec (.rstCtrlSysrst data) s = .next { s with boot.sysReq := some 3 }) ∧
  (∀ (data : Word) (s : State), data.extractLsb' 8 8 ≠ 0x5A → exec (.rstCtrlSysrst data) s = .next s) ∧
  (∀ (c : Nat) (v : Word) (s : State), c < 32 → (isl s 33).inReset = false → (tget s.chans c {}).state = .idle → v ≠ (tget s.chans c {}).ci →
    (v - (tget s.chans c {}).ci).toNat ≤ 2 ^ (tget s.chans c {}).log2 →
    exec (.dmaPiWrite c v) s = .next { s with chans := tset s.chans c { tget s.chans c {} with pi := v, state := .running } }) ∧
  (∀ s : State, ∃ t, exec .pcieUncorrectableError s = .next t ∧ t = { s with evt := t.evt, out := t.out } ∧
    t.evt.pend = s.evt.pend ||| (1#256 <<< 0x16)) ∧
  (∀ (a : Nat) (s : State), ((isl s 33).inReset = true ∨ bar0Mapped a = false) → barRead s a = 0) ∧
  (∀ (data : Word) (s : State), bar0Up s 0x028 = true → ∃ t, exec (.registerWrite 0x028 0xF data) s = .next t ∧ barRead t 0x028 = data) ∧
  (∀ (k : Nat) (s : State), bar0Up s (0x10020 + 4 * k) = true → k < 8 → barRead s (0x10020 + 4 * k) = evtWord s.evt.en k)

/-- R34 to R38, R43, R501: the mailbox registers. It concludes that exec answers a next state, under conditions on the state and operands alone, for:
mbxEnable, mbxDisable, mbxReset, mbxReqPiWrite, mbxRspCiWrite, ringBusError, responsePost. -/
def Obligations.MailboxRegisterEffects : Prop :=
  (∀ (m : Nat) (s : State), bar0Up s 0x20000 = true → (mbx s m).en = false → mbxCanEnable s m = true →
    sizeOk (mbx s m).reqLog2 = true → sizeOk (mbx s m).rspLog2 = true →
    exec (.mbxEnable m) s =
      .next (setMbx m (fun x => { x with en := true, halted := false, reqPI := 0, reqCI := 0, rspPI := 0, rspCI := 0 }) s)) ∧
  (∀ (m : Nat) (s : State), bar0Up s 0x20000 = true → (mbx s m).en = false → mbxCanEnable s m = true →
    (sizeOk (mbx s m).reqLog2 = false ∨ sizeOk (mbx s m).rspLog2 = false) →
    ∃ t, exec (.mbxEnable m) s = .next t ∧ mbx t m = { mbx s m with err := true, cause := .badGeometry } ∧
      t.evt.pend = s.evt.pend ||| (1#256 <<< 0x14)) ∧
  (∀ (m : Nat) (s : State), m < 16 → bar0Up s 0x20000 = true → (mbx s m).en = true →
    ∃ t, exec (.mbxDisable m) s = .next t ∧
      mbx t m = { mbx s m with en := false, halted := false, fetchedOrphan := true, rspWait := [], wrErr := false } ∧
      t.ops = s.ops.map (fun o => if o.req.mbx = m then { o with orphan := true } else o)) ∧
  (∀ (m : Nat) (s : State), m < 16 → bar0Up s 0x20000 = true →
    ∃ t, exec (.mbxReset m) s = .next t ∧ (mbx t m).en = false ∧ (mbx t m).err = false ∧ (mbx t m).cause = .none ∧
      ((mbx s m).en = true → ∀ o ∈ t.ops, o.req.mbx = m → o.orphan = true)) ∧
  (∀ (m : Nat) (v : Word) (s : State), m < 16 → bar0Up s 0x20000 = true → (mbx s m).en = true →
    (v - (mbx s m).reqCI).toNat ≤ 2 ^ (mbx s m).reqLog2.toNat → v ≠ (mbx s m).reqPI →
    exec (.mbxReqPiWrite m v) s = .next (setMbx m (fun x => { x with reqPI := v }) s)) ∧
  (∀ (m : Nat) (v : Word) (s : State), m < 16 → bar0Up s 0x20000 = true → (mbx s m).en = true → (mbx s m).halted = false →
    2 ^ (mbx s m).reqLog2.toNat < (v - (mbx s m).reqCI).toNat → v ≠ (mbx s m).reqPI →
    ∃ t, exec (.mbxReqPiWrite m v) s = .next t ∧
      mbx t m = { mbx s m with err := true, halted := true, cause := .overrun, fetchedOrphan := true, rspWait := [], wrErr := false }) ∧
  (∀ (m : Nat) (v : Word) (s : State), m < 16 → bar0Up s 0x20000 = true → (mbx s m).en = true →
    (v - (mbx s m).rspCI).toNat ≤ ((mbx s m).rspPI - (mbx s m).rspCI).toNat →
    exec (.mbxRspCiWrite m v) s = .next (setMbx m (fun x => { x with rspCI := v }) s)) ∧
  (∀ (m : Nat) (v : Word) (s : State), ((mbx s m).rspPI - (mbx s m).rspCI).toNat < (v - (mbx s m).rspCI).toNat →
    exec (.mbxRspCiWrite m v) s = .next s) ∧
  (∀ (m : Nat) (write : Bool) (s : State), m < 16 → (mbx s m).en = true → (mbx s m).halted = false →
    (write = false ∨ (mbx s m).rspWait ≠ []) →
    ∃ t, exec (.ringBusError m write) s = .next t ∧
      mbx t m = { mbx s m with err := true, halted := true, cause := .busError, fetchedOrphan := true, rspWait := [], wrErr := false } ∧
      t.ops = s.ops.map (fun o => if o.req.mbx = m then { o with orphan := true } else o)) ∧
  (∀ (m : Nat) (s : State), m < 16 → (mbx s m).en = true → (mbx s m).halted = false → (mbx s m).rspWait = [] →
    exec (.ringBusError m true) s = .next (setMbx m (fun x => { x with wrErr := true }) s)) ∧
  (∀ (m : Nat) (r : Rsp) (rest : List Rsp) (s : State), (mbx s m).rspWait = r :: rest → s.fw.pause = none → rspSlots r ≤ rspFree (mbx s m) →
    (mbx s m).wrErr = false →
    ∃ t, exec (.responsePost m) s = .next t ∧
      mbx t m = { mbx s m with rspWait := rest, rspPI := (mbx s m).rspPI + BitVec.ofNat 32 (rspSlots r) }) ∧
  (∀ (m : Nat) (r : Rsp) (rest : List Rsp) (s : State), (mbx s m).rspWait = r :: rest → s.fw.pause = none → rspSlots r ≤ rspFree (mbx s m) →
    (mbx s m).wrErr = true → (mbx s m).halted = false →
    ∃ t, exec (.responsePost m) s = .next t ∧
      mbx t m = { mbx s m with err := true, halted := true, cause := .busError, fetchedOrphan := true, rspWait := [], wrErr := false })

/-- R62, R63, R500: the event block. It concludes that exec answers a next state, under conditions on the state and operands alone, for: evtPendClear,
evtEnWrite, evtForce, msixUnmask, pcieUncorrectableError. -/
def Obligations.EventBlockEffects : Prop :=
  (∀ (k : Nat) (data : Word) (s : State), k < 8 → bar0Up s 0x10000 = true →
    exec (.evtPendClear k data 0) s = .next { s with evt.pend := s.evt.pend &&& ~~~(data.setWidth 256 <<< (32 * k)) }) ∧
  (∀ (k : Nat) (data occ : Word) (s : State), k < 8 → bar0Up s 0x10000 = true →
    ∃ t, exec (.evtPendClear k data occ) s = .next t ∧ t = { s with evt := t.evt, out := t.out } ∧
      ∀ i, i < 256 → t.evt.pend.getLsbD i =
        ((s.evt.pend.getLsbD i && !(i / 32 == k && data.getLsbD (i % 32))) || (sourceDefined i && i / 32 == k && occ.getLsbD (i % 32)))) ∧
  (∀ (k : Nat) (data : Word) (s : State), k < 8 → bar0Up s 0x10000 = true →
    ∃ t, exec (.evtEnWrite k data) s = .next t ∧ t = { s with evt := t.evt, out := t.out } ∧ t.evt.pend = s.evt.pend ∧
      ∀ i, i < 256 → t.evt.en.getLsbD i = if i / 32 = k then data.getLsbD (i % 32) else s.evt.en.getLsbD i) ∧
  (∀ (k : Nat) (data : Word) (s : State), k < 8 → bar0Up s 0x10000 = true →
    ∃ t, exec (.evtForce k data) s = .next t ∧ t = { s with evt := t.evt, out := t.out } ∧
      ∀ i, i < 256 → t.evt.pend.getLsbD i =
        (s.evt.pend.getLsbD i || (sourceDefined i && i / 32 == k && data.getLsbD (i % 32)))) ∧
  (∀ (v : Nat) (s : State), v < 64 → (isl s 33).inReset = false → s.evt.pba.getLsbD v = false →
    exec (.msixUnmask (some v)) s = .next { s with pcie.msix := tupd s.pcie.msix v {} (fun e => { e with mask := false }) }) ∧
  (∀ s : State, s.evt.pba = 0 → exec (.msixUnmask none) s = .next { s with pcie.msixFMask := false }) ∧
  (∀ (v : Nat) (s : State), v < 64 → (isl s 33).inReset = false → s.evt.pba.getLsbD v = true → s.pcie.msixEn = true → s.pcie.msixFMask = false →
    (∀ h ∈ s.evt.held, h.2 = v → evtRoute s h.1 = v) → s.evt.held.any (fun h => h.2 == v) = true →
    ∃ t, exec (.msixUnmask (some v)) s = .next t ∧ t.evt.pba = s.evt.pba &&& ~~~(1#64 <<< v) ∧
      t.out = .msix (tget s.pcie.msix v {}).addr (tget s.pcie.msix v {}).data :: s.out) ∧
  (∀ s : State, s.evt.pend.getLsbD 0x16 = false → s.evt.en.getLsbD 0x16 = true → s.pcie.msixEn = true → s.pcie.msixFMask = false →
    (tget s.pcie.msix (evtRoute s 0x16) {}).mask = false →
    exec .pcieUncorrectableError s = .next { s with
      evt.pend := s.evt.pend ||| (1#256 <<< 0x16),
      out := .msix (tget s.pcie.msix (evtRoute s 0x16) {}).addr (tget s.pcie.msix (evtRoute s 0x16) {}).data :: s.out }) ∧
  (∀ s : State, s.evt.pend.getLsbD 0x16 = true → exec .pcieUncorrectableError s = .next s)

/-- R36, R41 to R46, R49: a request from the ring to its response. It concludes that exec answers a next state, under conditions on the state and
operands alone, for: requestFetch, nop, capsGet, requestWaitEnd. -/
def Obligations.RequestsFetchedAndAnswered : Prop :=
  (∀ (m : Nat) (bytes : List Byte) (s : State), turn s = some m →
    reqSlots (rd bytes 2 2) ≤ 2 ^ (mbx s m).reqLog2.toNat → reqSlots (rd bytes 2 2) ≤ ((mbx s m).reqPI - (mbx s m).reqCI).toNat →
    opcodeDefined (rd bytes 0 2) = true →
    exec (.requestFetch m bytes) s = .next (setMbx m (fun x => { x with
      reqCI := x.reqCI + BitVec.ofNat 32 (reqSlots (rd bytes 2 2)),
      fetched := some (rd bytes 0 2, { mbx := m, tag := BitVec.ofNat 32 (rd bytes 4 4), payload := slice bytes 8 (rd bytes 2 2) }),
      fetchedOrphan := false, fetchNo := s.fetchCtr }) { s with rrNext := (m + 1) % 16, fetchCtr := s.fetchCtr + 1 })) ∧
  (∀ (m : Nat) (bytes : List Byte) (s : State), turn s = some m →
    reqSlots (rd bytes 2 2) ≤ 2 ^ (mbx s m).reqLog2.toNat → reqSlots (rd bytes 2 2) ≤ ((mbx s m).reqPI - (mbx s m).reqCI).toNat →
    opcodeDefined (rd bytes 0 2) = false →
    exec (.requestFetch m bytes) s = .next (answer (rd bytes 0 2)
      { mbx := m, tag := BitVec.ofNat 32 (rd bytes 4 4), payload := slice bytes 8 (rd bytes 2 2) } .badOpcode []
      (setMbx m (fun x => { x with reqCI := x.reqCI + BitVec.ofNat 32 (reqSlots (rd bytes 2 2)) }) { s with rrNext := (m + 1) % 16, fetchCtr := s.fetchCtr + 1 }))) ∧
  (∀ (m : Nat) (bytes : List Byte) (s : State), turn s = some m →
    2 ^ (mbx s m).reqLog2.toNat < reqSlots (rd bytes 2 2) →
    ∃ t, exec (.requestFetch m bytes) s = .next t ∧
      mbx t m = { mbx s m with err := true, halted := true, cause := .oversize, fetchedOrphan := true, rspWait := [], wrErr := false }) ∧
  (∀ (m : Nat) (bytes : List Byte) (s : State), turn s = some m → reqSlots (rd bytes 2 2) ≤ 2 ^ (mbx s m).reqLog2.toNat →
    ((mbx s m).reqPI - (mbx s m).reqCI).toNat < reqSlots (rd bytes 2 2) →
    exec (.requestFetch m bytes) s = .next { s with rrNext := (m + 1) % 16 }) ∧
  (∀ (m : Nat) (bytes : List Byte) (s : State), turn s ≠ some m → exec (.requestFetch m bytes) s = .next s) ∧
  (∀ (m : Nat) (s : State), turn s = some m → m < 16 ∧ serves s m = true ∧ (mbx s m).en = true ∧ (mbx s m).halted = false ∧
    (mbx s m).fetched = none ∧ (mbx s m).rspWait = [] ∧ pendCount s m < 8 ∧ (mbx s m).reqPI ≠ (mbx s m).reqCI) ∧
  (∀ (r : Req) (s : State), Served nopService r s = true → (mbx s r.mbx).en = true → (mbx s r.mbx).halted = false →
    (mbx s r.mbx).rspWait = [] → (mbx s r.mbx).wrErr = false → 1 ≤ rspFree (mbx s r.mbx) →
    exec (.nop r) s = .next (raise r.mbx
      (setMbx r.mbx (fun x => { x with fetched := none, fetchedOrphan := false, rspPI := x.rspPI + 1 })
        { s with
          out := .hostWrite (BitVec.ofNat 64 (rspBase (mbx s r.mbx) + 64 * ((mbx s r.mbx).rspPI.toNat % 2 ^ (mbx s r.mbx).rspLog2.toNat)))
            (le 4 r.tag.toNat ++ [0x00, 0x01, 0x00, 0x01, 0, 0, 0, 0, 0, 0, 0, 0]) :: s.out }))) ∧
  (∀ (r : Req) (s : State), serves s r.mbx = true → takes r.mbx 0x0110 r s = true → (mbx s r.mbx).fetchedOrphan = false → r.payload ≠ [] →
    exec (.capsGet r) s = .next (answer 0x0110 r .badLength [] (taken r s))) ∧
  (∀ (r : Req) (s : State), serves s r.mbx = true → takes r.mbx 0x0110 r s = true → (mbx s r.mbx).fetchedOrphan = false → r.payload = [] →
    bringingUp s = true →
    exec (.capsGet r) s = .next (answer 0x0110 r .pending [] (addOp 0x0110 r false .waiting [] (taken r s)))) ∧
  (∀ (id : Nat) (o : PendOp) (v : Service) (s s1 : State) (st : Status) (p : List Byte), findOp s id = some o → serviceOf o.opcode = some v →
    o.kind = .waiting → s.fw.pause = none → server s ≠ .nobody → heldBack v o s = false → accepted v s = true → v.run o.id o.req s = .done s1 st p →
    exec (.requestWaitEnd id) s = .next (startPause (finishOp o.id st p s1)))

/-- R50 to R59, R463: configuration. It concludes that exec answers a next state, under conditions on the state and operands alone, for: configBegin,
configCommit, configAbort, configStateGet, capsGet, paramBlockWrite, paramBlockRead, commitInstant, firmwareTakeover. -/
def Obligations.ConfigurationCommandEffects : Prop :=
  (∀ (r : Req) (s : State), Served configBeginService r s = true → s.cfg.state = .unconfigured →
    exec (.configBegin r) s = .next (answer 0x0101 r .ok [] (setCfgState .configuring { taken r s with cfg.window := some {} }))) ∧
  (∀ (r : Req) (s : State), Served configBeginService r s = true → s.cfg.state = .committed →
    exec (.configBegin r) s =
      .next (answer 0x0101 r .ok [] (setCfgState .reconfiguring { taken r s with cfg.window := some (copyWindow (taken r s)) }))) ∧
  (∀ (r : Req) (s : State), Served configBeginService r s = true → s.cfg.state ≠ .unconfigured → s.cfg.state ≠ .committed →
    exec (.configBegin r) s = .next (answer 0x0101 r .badState [] (taken r s))) ∧
  (∀ (r : Req) (s : State) (w : Window), Served configCommitService r s = true → s.cfg.state = .configuring ∨ s.cfg.state = .reconfiguring →
    s.cfg.window = some w → bringingUp s = false → commitFails s w = [] →
    ∃ t, exec (.configCommit r) s = .next (begun 0x0102 r [.config] t) ∧ t.cfg.state = .committing ∧ t.cfg.prior = s.cfg.state ∧
      t.cfg.window = some w ∧ t.cfg.accepted = some (s.nextOp, s.now) ∧ t.cfg.vals = s.cfg.vals ∧
      (∀ p ∈ enabledBy s w, (rfp t p).training = true)) ∧
  (∀ (r : Req) (s : State) (w : Window) (k : Nat), Served configCommitService r s = true →
    s.cfg.state = .configuring ∨ s.cfg.state = .reconfiguring → s.cfg.window = some w → bringingUp s = false →
    lowest (commitFails s w) = some k →
    exec (.configCommit r) s = .next (answer 0x0102 r .badParam (le 2 k) (answer 0x0102 r .pending []
      (setCfgState s.cfg.state (setCfgState .committing { taken r s with cfg.prior := s.cfg.state }))))) ∧
  (∀ (r : Req) (s : State) (w : Window), Served configCommitService r s = true → s.cfg.state = .configuring ∨ s.cfg.state = .reconfiguring →
    s.cfg.window = some w → bringingUp s = true →
    exec (.configCommit r) s = .next (startWait configCommitService r false
      { setCfgState .committing { taken r s with cfg.prior := s.cfg.state } with cfg.deferred := some s.nextOp })) ∧
  (∀ (r : Req) (s : State), Served configCommitService r s = true → s.cfg.state ≠ .configuring → s.cfg.state ≠ .reconfiguring →
    s.cfg.deferred = none → exec (.configCommit r) s = .next (answer 0x0102 r .badState [] (taken r s))) ∧
  (∀ (r : Req) (s : State), Served configAbortService r s = true → s.cfg.state = .configuring →
    exec (.configAbort r) s = .next (answer 0x0103 r .ok [] (setCfgState .unconfigured { taken r s with cfg.window := none }))) ∧
  (∀ (r : Req) (s : State), Served configAbortService r s = true → s.cfg.state = .reconfiguring →
    exec (.configAbort r) s = .next (answer 0x0103 r .ok [] (setCfgState .committed { taken r s with cfg.window := none }))) ∧
  (∀ (r : Req) (s : State), Served configStateGetService r s = true →
    exec (.configStateGet r) s = .next (answer 0x0104 r .ok (le 1 (cfgCode s.cfg.state)) (taken r s))) ∧
  (∀ (r : Req) (s : State), Served capsGetService r s = true →
    exec (.capsGet r) s = .next (answer 0x0110 r .ok (capsReport (taken r s)) (taken r s))) ∧
  (∀ (r : Req) (s : State), Served paramBlockWriteService r s = true → 1 ≤ rd r.payload 2 1 → rd r.payload 2 1 ≤ 0xC →
    zeroAt r.payload 3 1 = true → zeroAt r.payload 6 2 = true → rd r.payload 0 2 = curFormat (taken r s) (rd r.payload 2 1) →
    firstEntryBad (taken r s) (rd r.payload 2 1) [] 0 (blockEntries r.payload (rd r.payload 4 2) 8) = none →
    blockEnd (blockEntries r.payload (rd r.payload 4 2) 8) = r.payload.length →
    exec (.paramBlockWrite r) s = .next (answer 0x0120 r .ok []
      ((blockEntries r.payload (rd r.payload 4 2) 8).foldl (fun s e => writeParam e.id (some e.value) s) (taken r s)))) ∧
  (∀ (r : Req) (s : State) (i id : Nat) (st : Status), Served paramBlockWriteService r s = true → 1 ≤ rd r.payload 2 1 → rd r.payload 2 1 ≤ 0xC →
    zeroAt r.payload 3 1 = true → zeroAt r.payload 6 2 = true → rd r.payload 0 2 = curFormat (taken r s) (rd r.payload 2 1) →
    firstEntryBad (taken r s) (rd r.payload 2 1) [] 0 (blockEntries r.payload (rd r.payload 4 2) 8) = some (i, id, st) →
    exec (.paramBlockWrite r) s = .next (answer 0x0120 r st (le 2 i ++ le 2 id) (taken r s))) ∧
  (∀ (r : Req) (s : State), Served paramBlockReadService r s = true → 0x1000 ≤ rd r.payload 0 2 → rd r.payload 0 2 < 0xD000 →
    rd r.payload 0 2 + rd r.payload 2 1 ≤ 4096 * (rd r.payload 0 2 / 4096 + 1) → rd r.payload 3 1 = 0 →
    ∃ bytes, exec (.paramBlockRead r) s = .next (answer 0x0121 r .ok bytes (taken r s)) ∧
      bytes.take 8 = le 2 (curFormat (taken r s) (rd r.payload 0 2 / 4096)) ++ le 1 (rd r.payload 0 2 / 4096) ++ le 1 0 ++
        le 2 (((List.range (rd r.payload 2 1)).map (fun i => rd r.payload 0 2 + i)).filter (fun id => (paramDef id).isSome)).length ++ le 2 0) ∧
  (∀ (id at_ : Nat) (w : Window) (s : State), s.cfg.accepted = some (id, at_) → s.cfg.window = some w → s.cfg.state = .committing →
    (isl s islControl).inReset = false → (∀ p ∈ enabledBy s w, (rfp s p).training = false) →
    ∃ t, exec (.commitInstant false) s = .next t ∧ t.cfg.state = .committed ∧ t.cfg.window = none ∧ t.cfg.vals = mergeVals s.cfg.vals w ∧
      t.cfg.profiles = w.profiles ∧ t.cfg.everCommitted = true ∧ at_ + tMs 10 ≤ t.cfg.lastTc ∧ t.cfg.lastTc ≤ at_ + tMs 100) ∧
  (∀ (id at_ : Nat) (w : Window) (s : State), s.cfg.accepted = some (id, at_) → s.cfg.window = some w → s.cfg.state = .committing →
    (isl s islControl).inReset = false →
    ∃ t, exec (.commitInstant true) s = .next t ∧ t.cfg = { s.cfg with state := s.cfg.prior, accepted := none, trained := [] }) ∧
  (∀ (id since : Nat) (m : Manifest) (s : State), s.fw.pause = some (id, since) → s.fwNv.active = some m → s.fwNv.trial = none →
    s.mono ≤ since + tMs 250 → (isl s islControl).inReset = false →
    ∃ t, exec .firmwareTakeover s = .next t ∧ t.fw = { s.fw with running := some m, pfmt := m.pfmt, pause := none, upd := .trial })

/-- R11, R12, R18, R28, R476: links, fences and monitors. It concludes that exec answers a next state, under conditions on the state and operands
alone, for: flitTransfer, creditReturn, fenceWaitExpiry, monitorSample, c1Recovery. -/
def Obligations.LinkAndMonitorEffects : Prop :=
  (∀ (d : Nat) (s : State), dirOpen s d = true → 0 < heldCredits s d →
    exec (.flitTransfer d) s =
      .next (setDir d (fun x => { x with spent := x.spent + 1, occupied := x.occupied + 1, sent := x.sent + 1, received := x.received + 1 }) s)) ∧
  (∀ (d : Nat) (s : State), heldCredits s d = 0 → exec (.flitTransfer d) s = .next s) ∧
  (∀ (d a b c : Nat) (s : State), dirOf d = some (a, b, c) → dirPresent s d = true → 0 < (linkDir s d).occupied → (linkDir s d).expired = false →
    (isl s b).waitFrom = none →
    exec (.creditReturn d) s =
      .next (setDir d (fun x => { x with spent := x.spent - 1, occupied := x.occupied - 1, released := x.released + 1,
                                         returned := x.returned + 1 }) s)) ∧
  (∀ (d a b c : Nat) (s : State), dirOf d = some (a, b, c) → dirPresent s d = true → 0 < (linkDir s d).occupied → (linkDir s d).expired = false →
    exec (.creditReturn d) s =
      .next (enterReset b (setDir d (fun x => { x with spent := x.spent - 1, occupied := x.occupied - 1, released := x.released + 1,
                                                       returned := x.returned + 1 }) s))) ∧
  (∀ (d a b c t : Nat) (s : State), dirOf d = some (a, b, c) → (isl s b).waitFrom = some t → awaited s b d = true →
    exec (.fenceWaitExpiry d) s =
      .next (enterReset b (setDir d (fun x => { x with expired := true })
        (record rcFenceCredits (le 4 (d / 2) ++ le 4 (d % 2) ++ le 4 (linkDir s d).spent) (advMono (t + tUs 10) s))))) ∧
  (∀ (b : BitVec 8) (s : State), islHeld s islControl = false → b ≠ 0 → s.mon.out = 0 →
    ∃ t, exec (.monitorSample b) s = .next t ∧ t.mon.out = b ∧ t.mon.backAt = none ∧ t.jnl.c1 = true ∧ t.safe.lastCause = 9 ∧
      t.safe.lastFault = secs s) ∧
  (∀ (b : BitVec 8) (s : State), islHeld s islControl = false → b ≠ 0 → s.mon.out ≠ 0 →
    ∃ t, exec (.monitorSample b) s = .next t ∧ t.mon.out = b ∧ t.mon.backAt = none ∧ t.jnl = s.jnl ∧ t.safe.lastCause = 9 ∧
      t.safe.lastFault = secs s) ∧
  (∀ (s : State), islHeld s islControl = false → s.mon.out ≠ 0 →
    exec (.monitorSample 0) s = .next (raise 0x15 { s with mon.out := 0, mon.backAt := some s.mono })) ∧
  (∀ (s : State), islHeld s islControl = false → s.mon.out = 0 → exec (.monitorSample 0) s = .next s) ∧
  (∀ (at_ : Nat) (s : State), s.mon.backAt = some at_ → s.mon.out = 0 → s.jnl.c1 = true →
    ∃ t, exec .c1Recovery s = .next t ∧ t.jnl.c1 = false ∧ t.mono = max s.mono (at_ + tMs 10))

/-- R415 to R423, R430, R431: the reset sources. It concludes that exec answers a next state, under conditions on the state and operands alone, for:
porMainAssert, nresetAssert, porMainRelease, nresetRelease, perstNAssert, wdtExpiry, sysrst, recorderDrainEnd, dprst, islrst, resetRequest. -/
def Obligations.ResetSourceEffects : Prop :=
  (∀ (s : State), s.boot.por = false →
    ∃ t, exec .porMainAssert s = .next t ∧ t.boot.por = true ∧ t.boot.stageRun = 0 ∧ t.boot.cause.getLsbD 0 = true ∧
      (∀ i, i < 34 → (isl t i).inReset = true) ∧ t.cfg = {} ∧ t.mbxs = [] ∧ t.ops = [] ∧ t.keys = {} ∧ t.pcie = {} ∧ t.mem = {} ∧
      t.slots = {} ∧ t.fuses = s.fuses ∧ t.jnv = s.jnv ∧ t.fwNv = s.fwNv ∧ t.slateNv = s.slateNv ∧ t.bkp = s.bkp) ∧
  (∀ (s : State), s.boot.nreset = false →
    ∃ t, exec .nresetAssert s = .next t ∧ t.boot.nreset = true ∧ t.boot.stageRun = 0 ∧ t.boot.cause.getLsbD 1 = true ∧
      (∀ i, i < 34 → (isl t i).inReset = true) ∧ t.cfg = {} ∧ t.mbxs = [] ∧ t.ops = [] ∧ t.keys = {} ∧ t.pcie = {} ∧ t.mem = {} ∧
      t.slots = {} ∧ t.fuses = s.fuses ∧ t.jnv = s.jnv ∧ t.fwNv = s.fwNv ∧ t.slateNv = s.slateNv ∧ t.bkp = s.bkp) ∧
  (∀ (s : State), s.boot.por = true → s.boot.nreset = false →
    exec .porMainRelease s = .next { s with boot.por := false, boot.stageRun := 2, boot.widest := .cold, boot.optValid := false }) ∧
  (∀ (s : State), s.boot.por = true → s.boot.nreset = true → exec .porMainRelease s = .next { s with boot.por := false }) ∧
  (∀ (s : State), s.boot.nreset = true → s.boot.por = false →
    exec .nresetRelease s = .next { s with boot.nreset := false, boot.stageRun := 2, boot.widest := .cold, boot.optValid := false }) ∧
  (∀ (s : State), s.boot.nreset = true → s.boot.por = true → exec .nresetRelease s = .next { s with boot.nreset := false }) ∧
  (∀ (s : State), coldHeld s = false → exec .perstNAssert s = .next { s with boot.sysReq := some 4, pcie.up := false }) ∧
  (∀ (s : State), s.boot.wdtArmed = true → coldHeld s = false → absorbed .wdt s = false →
    ∃ t, exec .wdtExpiry s = .next t ∧ s.boot.wdtAt + tMs 1000 ≤ t.mono ∧ t.boot.stageRun = 3 ∧ t.boot.wdtArmed = false ∧ t.boot.synthLock = false ∧
      t.boot.cause.getLsbD 2 = true ∧ t.cfg = {} ∧ t.mbxs = [] ∧ t.keys = {} ∧ t.pcie = {} ∧ t.mem.installedMiB = s.mem.installedMiB ∧
      (∀ i, i < 34 → (isl t i).inReset = true) ∧ t.jnv = s.jnv ∧ t.bkp = s.bkp) ∧
  (∀ (s : State), s.boot.wdtArmed = true → coldHeld s = false → absorbed .wdt s = true →
    exec .wdtExpiry s = .next (latchCause 2 { advMono (s.boot.wdtAt + tMs 1000) s with
      boot.wdtArmed := false, boot.wdtRemain := 0, boot.sysReq := none })) ∧
  (∀ (b : Nat) (s : State), b < 8 → s.boot.sysReq = some b → coldHeld s = false → absorbed .sysrst s = false →
    ∃ t, exec .sysrst s = .next t ∧ t.boot.stageRun = 4 ∧ t.boot.sysReq = none ∧ t.boot.synthLock = s.boot.synthLock ∧
      t.boot.cause.getLsbD b = true ∧ t.cfg = {} ∧ t.mbxs = [] ∧ t.keys = {} ∧ t.pcie = s.pcie ∧ t.mem.installedMiB = s.mem.installedMiB ∧
      (∀ i, i < 34 → (isl t i).inReset = true) ∧ t.jnv = s.jnv ∧ t.bkp = s.bkp) ∧
  (∀ (b : Nat) (s : State), s.boot.sysReq = some b → coldHeld s = false → absorbed .sysrst s = true →
    exec .sysrst s = .next (latchCause b { s with boot.sysReq := none })) ∧
  (∀ (s : State), s.boot.draining = true → s.slate.queue = [] →
    exec .recorderDrainEnd s = .next (holdIsland islRecorder { s with boot.draining := false, slate := {} })) ∧
  (∀ (s : State), s.boot.dpReq = true → absorbed .dprst s = false →
    ∃ t, exec .dprst s = .next t ∧ t.boot.stageRun = 5 ∧ t.boot.dpRun = true ∧ t.boot.dpReq = false ∧ t.boot.cause.getLsbD 6 = true ∧
      (∀ i, i < 29 → islPresent s i = true → (isl t i).inReset = true) ∧ t.cfg = s.cfg ∧ t.pcie = s.pcie) ∧
  (∀ (s : State), s.boot.dpReq = true → absorbed .dprst s = true →
    exec .dprst s = .next (latchCause 6 { s with boot.dpReq := false })) ∧
  (∀ (i : Nat) (s : State), i ≤ 28 → islPresent s i = true → islExcluded s i = false → absorbed .islrst s = false →
    (isl s i).inReset = false → islUp s islControl = true → resetLately (isl s i) s = false →
    ∃ t, exec (.islrst i) s = .next t ∧ (isl t i).inReset = true ∧ t.boot.stageRun = 6 ∧ i ∈ t.boot.isls ∧
      (isl t i).lastIslrst = some s.mono ∧ (isl t i).bistDue = true ∧ t = islandReset i s) ∧
  (∀ (i : Nat) (s : State), i ≤ 28 → islPresent s i = true → islExcluded s i = false → absorbed .islrst s = false →
    (isl s i).inReset = false → islUp s islControl = true → resetLately (isl s i) s = true →
    exec (.islrst i) s = .next (excludeIsland i causeReset 4 (islandReset i s))) ∧
  (∀ (i : Nat) (s : State), absorbed .islrst s = true → i ≤ 28 → islPresent s i = true → islExcluded s i = false →
    exec (.islrst i) s = .next (latchCause 7 s)) ∧
  (∀ (r : Req) (s : State), Served resetRequestService r s = true → zeroAt r.payload 1 3 = true → rd r.payload 0 1 = 2 →
    exec (.resetRequest r) s = .next (answer 0x0B90 r .ok [] { taken r s with boot.sysReq := some 3 })) ∧
  (∀ (r : Req) (s : State), Served resetRequestService r s = true → zeroAt r.payload 1 3 = true → rd r.payload 0 1 = 1 → s.boot.dpRun = false →
    exec (.resetRequest r) s = .next (begun 0x0B90 r [] { taken r s with boot.dpReq := true })) ∧
  (∀ (r : Req) (s : State), Served resetRequestService r s = true → zeroAt r.payload 1 3 = true → rd r.payload 0 1 = 1 → s.boot.dpRun = true →
    exec (.resetRequest r) s = .next (begun 0x0B90 r [] (taken r s)))

/-- R420 to R427, R430: the release stages. It concludes that exec answers a next state, under conditions on the state and operands alone, for:
releaseStageEnd, genLockTimeout, synthLockRetry. -/
def Obligations.ReleaseStageEffects : Prop :=
  (∀ (straps : BitVec 4) (opt : OptLoad) (s : State), fenceWaits s = false → s.boot.stageRun = 2 →
    ∃ t, exec (.releaseStageEnd straps opt) s = .next t ∧ t.boot.stageRun = 3 ∧ t.boot.bootsrc = (straps.extractLsb' 0 2).toNat ∧
      t.boot.clkmode = (straps.extractLsb' 2 2).toNat ∧
      t.boot.bootOvr = ((straps.extractLsb' 0 2).toNat == 3 && lifecycle s != 1)) ∧
  (∀ (straps : BitVec 4) (opt : OptLoad) (s : State), fenceWaits s = false → s.boot.stageRun = 3 →
    exec (.releaseStageEnd straps opt) s = .next { s with boot.synthLock := true, boot.stageRun := 4 }) ∧
  (∀ (straps : BitVec 4) (opt : OptLoad) (s : State), fenceWaits s = false → s.boot.stageRun = 4 → s.boot.draining = false →
    ∃ t, exec (.releaseStageEnd straps opt) s = .next t ∧ t.boot.stage = 1 ∧ t.boot.causeRec = 0 ∧
      t.boot.stageRun = (if s.boot.optFailed then 0 else 5) ∧ t.boot.fail = (if s.boot.optFailed then 0x80 else 0)) ∧
  (∀ (straps : BitVec 4) (opt : OptLoad) (s : State), fenceWaits s = false → s.boot.stageRun = 4 → s.boot.draining = true →
    exec (.releaseStageEnd straps opt) s = .next s) ∧
  (∀ (straps : BitVec 4) (opt : OptLoad) (s : State), fenceWaits s = false → s.boot.stageRun = 5 → s.boot.dpRun = false →
    exec (.releaseStageEnd straps opt) s = .next ((List.range 29).foldl (fun s i => releaseIsland i s) { s with boot.stageRun := 0 })) ∧
  (∀ (straps : BitVec 4) (opt : OptLoad) (s : State), fenceWaits s = false → s.boot.stageRun = 5 → s.boot.dpRun = true →
    ∃ t, exec (.releaseStageEnd straps opt) s = .next t ∧ t.boot.stageRun = 0 ∧ t.cfg = s.cfg ∧
      t.isl = ((List.range 29).foldl (fun s i => releaseIsland i s) { s with boot.stageRun := 0 }).isl) ∧
  (∀ (straps : BitVec 4) (opt : OptLoad) (s : State), fenceWaits s = false → s.boot.stageRun = 6 →
    exec (.releaseStageEnd straps opt) s =
      .next (s.boot.isls.foldl (fun s i => releaseIsland i s) { s with boot.stageRun := 0, boot.isls := [] })) ∧
  (∀ (straps : BitVec 4) (opt : OptLoad) (s : State), fenceWaits s = true → exec (.releaseStageEnd straps opt) s = .next s) ∧
  (∀ (i : Nat) (s : State), fenceWaits s = false → islPresent s i = true → (isl s i).inReset = true → islExcluded s i = false → (isl s i).lockRetries < 2 →
    exec (.releaseStageEnd 0 { bad1 := 0, bad2 := 0 }) { s with boot.stageRun := 6, boot.isls := [i] } =
      .next (liftFences i (setIsl i (fun x => { x with clkRun := true, lock := true, inReset := false }) { s with boot.stageRun := 0, boot.isls := [] }))) ∧
  (∀ (i : Nat) (s : State), i < 35 → islPresent s i = true → (isl s i).inReset = true → 4 ≤ s.boot.stageRun → (isl s i).lockRetries = 0 →
    exec (.genLockTimeout i) s = .next (setIsl i (fun x => { x with lockRetries := 1, clkRun := true, lock := false }) s)) ∧
  (∀ (i : Nat) (s : State), i < 35 → islPresent s i = true → (isl s i).inReset = true → 4 ≤ s.boot.stageRun → (isl s i).lockRetries = 1 →
    s.boot.widest ≠ .dprst → s.boot.widest ≠ .islrst →
    exec (.genLockTimeout i) s = .next (islandFault i 2 (setIsl i (fun x => { x with lockRetries := 2, clkRun := false, lock := false }) s))) ∧
  (∀ (i : Nat) (s : State), i ≤ 28 → islPresent s i = true → (isl s i).inReset = true → 4 ≤ s.boot.stageRun → (isl s i).lockRetries = 1 →
    s.boot.widest = .dprst ∨ s.boot.widest = .islrst →
    exec (.genLockTimeout i) s =
      .next (excludeIsland i causeReset 2 (setIsl i (fun x => { x with lockRetries := 2, clkRun := false, lock := false }) s))) ∧
  (∀ (s : State), s.boot.stageRun = 3 → s.boot.synthLock = false →
    exec (.synthLockRetry true) s =
      .next { advMono (s.mono + tMs 100) s with boot := { s.boot with synthLock := true, stageRun := 4 } }) ∧
  (∀ (s : State), s.boot.stageRun = 3 → s.boot.synthLock = false →
    exec (.synthLockRetry false) s = .next (advMono (s.mono + tMs 100) s))

/-- R435 to R453: bring-up. It concludes that exec answers a next state, under conditions on the state and operands alone, for: coreBist,
pcieLinkTrain, ddrTraining, startScanReplay, rfPortTrain, rfPortTrainEnd, plcOffsetCal, dataplaneBist, trainReportGet. -/
def Obligations.BringupEffects : Prop :=
  (∀ (reps : List Nat) (j : List (Nat × Nat)) (s : State), s.boot.stage = 3 → s.boot.fail = 0 → (∀ k, k < 6 → (isl s (29 + k)).inReset = false) →
    exec (.coreBist [] ⟨none, reps, j⟩) s =
      .next (proofPassed { addSramRepairs reps s with safe.lastProof := secs s, boot.stage := 4, boot.jnlRead := j })) ∧
  (∀ (failed : List Nat) (code : Nat) (reps : List Nat) (j : List (Nat × Nat)) (s : State), s.boot.stage = 3 → s.boot.fail = 0 →
    (∀ k, k < 6 → (isl s (29 + k)).inReset = false ∧ failed.contains (29 + k) = false) →
    exec (.coreBist failed ⟨some code, reps, j⟩) s =
      .next (safetyFault code { addSramRepairs reps s with safe.lastProof := secs s, boot.stage := 4, boot.jnlRead := j })) ∧
  (∀ (i : Nat) (res : CoreBistIn) (s : State), s.boot.stage = 3 → s.boot.fail = 0 → 29 ≤ i → i < 35 →
    ∃ t, exec (.coreBist [i] res) s = .next t ∧ t.boot.fail = 0x82 ∧ t.boot.stage = 3 ∧
      ((isl s 29).inReset = false → (isl s 33).inReset = false → t.boot.coreSound = (i != 29 && i != 33))) ∧
  (∀ (s : State), s.boot.synthLock = true → s.pcie.up = false →
    exec (.pcieLinkTrain 4 160) s = .next { s with pcie := { s.pcie with up := true, width := 4, speed := 160 } }) ∧
  (∀ (w v : Nat) (s : State), s.boot.synthLock = true → s.pcie.up = false → [1, 2, 4].contains w = true → [25, 50, 80, 160].contains v = true →
    w < 4 ∨ v < 160 →
    exec (.pcieLinkTrain w v) s =
      .next (record rcPcieWidth (le 2 w ++ le 2 v) { s with pcie := { s.pcie with up := true, width := w, speed := v } })) ∧
  (∀ (ranks : List RankTrain) (s : State), s.boot.stage = 4 → s.boot.fail = 0 → s.mem.ranks = [] →
    ∃ t, exec (.ddrTraining ranks) s = .next t ∧
      t.mem.installedMiB = ((ranks.filter (fun r => r.failedStep.isNone)).map (fun r => r.mib)).sum ∧
      (t.mem.installedMiB < 4096 → t.boot.fail = 0x83 ∧ (isl t 32).fault = true) ∧
      (4096 ≤ t.mem.installedMiB → t.boot.stage = 5 ∧ t.boot.fail = 0)) ∧
  (∀ (ranks : List RankTrain) (s : State), s.boot.stage = 4 → s.boot.fail = 0 → s.mem.ranks ≠ [] → 4096 ≤ s.mem.installedMiB →
    exec (.ddrTraining ranks) s = .next { reapplyRepairs s with boot.stage := 5 }) ∧
  (∀ s : State, s.boot.fail ≠ 0 → exec .startScanReplay s = .next (startScan s)) ∧
  (∀ s : State, s.boot.fail = 0 → s.boot.stage = 5 → s.boot.stageRun = 0 →
    exec .startScanReplay s = .next (portsTrained { (List.range 8).foldl (fun s p =>
      setRf p (fun x => if trainable s p then { setRfState .disabled x with training := true } else setRfState .absent x) s)
        (replayJournal (startScan s)) with boot.stage := 6 })) ∧
  (∀ (p : Nat) (s : State), p < 8 → (rfp s p).training = true → (rfp s p).trainRun = false → trainable s p = true →
    exec (.rfPortTrain p) s =
      .next (spiOut p [(true, 0, 0)]
        (setRf p (fun x => { x with trainRun := true, rfrstN := true, rxenN := true, txenN := true, paenN := true }) s))) ∧
  (∀ (p : Nat) (tries : List TrainTry) (s : State), p < 8 → (rfp s p).trainRun = true → portGoal s p ≠ .awaitTc →
    ∃ t, exec (.rfPortTrainEnd p { magicSeen := false, tries := tries }) s = .next t ∧ (rfp t p).state = .absent ∧
      (rfp t p).train.result = 1 ∧ (rfp t p).train.endTime = s.now ∧ (rfp t p).training = false) ∧
  (∀ (p : Nat) (tries : List TrainTry) (x : TrainRec) (io : List (Bool × Nat × Nat)) (s : State), p < 8 → (rfp s p).trainRun = true →
    runSteps tries 1 1 {} [] = some (x, io) → x.result = 0 → (rfp s p).state ≠ .receiving → (rfp s p).state ≠ .transmitting →
    ∃ t, exec (.rfPortTrainEnd p { magicSeen := true, tries := tries }) s = .next t ∧ (rfp t p).state = portGoal s p ∧
      (rfp t p).train = { x with endTime := s.now } ∧ (rfp t p).training = false) ∧
  (∀ (offsets : List (Nat × Int × Int)) (s : State), s.boot.stage = 7 → s.boot.stageRun = 0 →
    exec (.plcOffsetCal offsets) s = .next { (List.range 16).foldl (fun s q => plcOffset offsets q s) s with boot.stage := 8 }) ∧
  (∀ (offsets : List (Nat × Int × Int)) (rx tx : Int) (q : Nat) (s : State), offsets.find? (fun e => e.1 == q) = some (q, rx, tx) →
    islUp s (islPlc q) = true → islExcluded s (islPlc q) = false → rx.natAbs ≤ 512 →
    (plcp (plcOffset offsets q s) q).state = .disabled ∧ (plcp (plcOffset offsets q s) q).cal.rxOff = rx ∧
      (plcp (plcOffset offsets q s) q).cal.status = 0) ∧
  (∀ (bad : List Nat) (lanes : LaneBistIn) (s : State), s.boot.stage = 8 → s.boot.stageRun = 0 →
    ∃ t, exec (.dataplaneBist bad lanes) s = .next t ∧ t.boot.stage = 9 ∧ t.evt.pend.getLsbD 0x13 = true ∧
      t.laneCount = logicalCount (workingLanes t).length) ∧
  (∀ (r : Req) (s : State), Served trainReportGetService r s = true → rd r.payload 0 1 ≤ 7 → zeroAt r.payload 1 3 = true →
    exec (.trainReportGet r) s =
      .next (answer 0x0BA0 r .ok (trainReport (rd r.payload 0 1) (rfp s (rd r.payload 0 1)).train) (taken r s)))

/-- R456 to R465: firmware update. It concludes that exec answers a next state, under conditions on the state and operands alone, for: fwStageBegin,
stagingEraseDone, fwStageWrite, fwStageCommit, fwStageClear, fwPrepare, fwPrepareDone, fwMicrocodeAt, microcodeSwitch, fwActivate,
activationPauseOverrun, fwConfirm, confirmTimerExpiry. -/
def Obligations.FirmwareUpdateEffects : Prop :=
  (∀ (r : Req) (s : State), Served fwStageBeginService r s = true → zeroAt r.payload 4 4 = true → 2048 ≤ rd r.payload 0 4 →
    rd r.payload 0 4 ≤ s.fwNv.slotSize → s.fw.upd = .none →
    exec (.fwStageBegin r) s = .next (begun 0x0A01 r [.firmware]
      { taken r s with fw.upd := .staging, fw.total := rd r.payload 0 4, fw.bytes := [], fw.erasing := some s.nextOp, fwNv.staging := none })) ∧
  (∀ (id : Nat) (s : State), s.fw.erasing = some id → exec .stagingEraseDone s = .next (finishOp id .ok [] { s with fw.erasing := none })) ∧
  (∀ (r : Req) (s : State), Served fwStageWriteService r s = true → zeroAt r.payload 4 4 = true → s.fw.upd = .staging →
    rd r.payload 0 4 = s.fw.bytes.length → s.fw.bytes.length + (r.payload.length - 8) ≤ s.fw.total →
    (r.payload.length - 8) % 256 = 0 ∨ s.fw.bytes.length + (r.payload.length - 8) = s.fw.total →
    exec (.fwStageWrite r) s = .next (answer 0x0A02 r .ok [] { taken r s with fw.bytes := s.fw.bytes ++ r.payload.drop 8 })) ∧
  (∀ (r : Req) (s : State), Served fwStageCommitService r s = true → s.fw.upd = .staging → s.fw.bytes.length = s.fw.total →
    exec (.fwStageCommit r) s = .next (match manifestReason s.fw.bytes s.fw.bytes.length false (taken r s) with
      | none => answer 0x0A03 r .ok [] (answer 0x0A03 r .pending [] (raise 0xA0
          { taken r s with fw.upd := .staged, fwNv.staging := some (readManifest s.fw.bytes), fwNv.stagedPeriod := pval s 0xA000 }))
      | some k => answer 0x0A03 r (reasonStatus k) (le 1 k ++ le 3 0) (answer 0x0A03 r .pending [] (dropStaging (taken r s))))) ∧
  (∀ (r : Req) (s : State), Served fwStageClearService r s = true → s.fw.upd = .staging →
    exec (.fwStageClear r) s = .next (answer 0x0A04 r .ok [] (dropStaging (taken r s)))) ∧
  (∀ (r : Req) (s : State), Served fwStageClearService r s = true → s.fw.upd = .none →
    exec (.fwStageClear r) s = .next (answer 0x0A04 r .ok [] (taken r s))) ∧
  (∀ (r : Req) (s : State) (m : Manifest), Served fwPrepareService r s = true → s.fw.upd = .staged → s.fwNv.staging = some m →
    exec (.fwPrepare r) s = .next (begun 0x0A05 r [.firmware]
      (setSteps (if dirStep s = 0 then [1] else []) { taken r s with fw.upd := .preparing, fw.preparing := some s.nextOp }))) ∧
  (∀ (id : Nat) (m : Manifest) (s : State), s.fw.preparing = some id → s.fwNv.staging = some m → dirStep s ≠ 2 →
    ∃ t, exec (.fwPrepareDone none) s = .next t ∧ t.fwNv.active = some (merged m s.fwNv.active) ∧ t.fwNv.fallback = s.fwNv.active ∧
      t.fwNv.staging = none ∧ dirStep t = 0 ∧ t.fwNv.trial = some { period := s.fwNv.stagedPeriod } ∧
      t.fw.upd = (if dataPlane (merged m s.fwNv.active) then .prepared else .switched)) ∧
  (∀ (id k : Nat) (s : State), s.fw.preparing = some id →
    ∃ t, exec (.fwPrepareDone (some k)) s = .next t ∧ t.fw.upd = .staged ∧ t.fw.preparing = none) ∧
  (∀ (r : Req) (s : State), Served fwMicrocodeAtService r s = true → zeroAt r.payload 4 4 = true → s.now + tSec 1 ≤ tSec (rd r.payload 0 4) →
    tSec (rd r.payload 0 4) ≤ s.now + tSec 2592000 → s.fw.upd = .prepared → nearSwitch (rd r.payload 0 4) s = false →
    exec (.fwMicrocodeAt r) s = .next (answer 0x0A06 r .ok [] (dropToken .ma { taken r s with fw.tm := some (rd r.payload 0 4) }))) ∧
  (∀ (tm : Nat) (s : State), s.fw.tm = some tm → s.fw.upd = .prepared → (isl s 29).inReset = false → holds .ma (askToken .ma s) = true →
    ∃ t, exec .microcodeSwitch s = .next t ∧ t.fw.upd = .switched ∧ t.fw.tm = none ∧ t.fw.banks = false ∧ t.evt.pend.getLsbD 0xA1 = true) ∧
  (∀ (r : Req) (s : State), Served fwActivateService r s = true → s.fw.upd = .switched →
    ∃ t, exec (.fwActivate r) s = .next t ∧ t = startPause (begun 0x0A07 r [.firmware] (taken r s))) ∧
  (∀ (id t0 : Nat) (s : State), s.fw.pause = some (id, t0) → s.boot.sysReq = none →
    exec .activationPauseOverrun s = .next (trialFails (advMono (t0 + tMs 250) s))) ∧
  (∀ (r : Req) (s : State) (m : Manifest), Served fwConfirmService r s = true → s.fw.upd = .trial → s.fwNv.active = some m →
    exec (.fwConfirm r) s = .next (answer 0x0A08 r .ok [] (record rcConfirm
      (le 4 m.ver.toNat ++ if granite m then graniteDigests (s.fwNv.fallback.getD {}) ++ graniteDigests m else [])
      { taken r s with fwNv.floors := raiseFloors m s.fwNv.floors, fwNv.lfmtSet := s.fwNv.lfmtSet ||| (1#16 <<< (m.lfmtWrite - 1)),
                       fwNv.lfmt := m.lfmtWrite, fwNv.trial := none, boot.confirmAt := none, fw.noFallback := false, fw.upd := .none }))) ∧
  (∀ (t0 : Nat) (s : State), s.boot.confirmAt = some t0 →
    exec .confirmTimerExpiry s = .next (trialFails (advMono t0 { s with boot.confirmAt := none })))

/-- R437, R438, R459, R466, R467, R469: boot and lifecycle. It concludes that exec answers a next state, under conditions on the state and operands
alone, for: fwInfoGet, bootRomVerify, fwHostBoot, lifecycleAdvance, custKeyProgram. -/
def Obligations.BootAndLifecycleEffects : Prop :=
  (∀ (r : Req) (s : State), Served fwInfoGetService r s = true → exec (.fwInfoGet r) s = .next (answer 0x0A00 r .ok (fwInfo (taken r s)) (taken r s))) ∧
  (∀ (m : Manifest) (s : State), s.boot.stage = 1 → s.boot.fail = 0 → s.boot.optValid = true → (isl s 29).inReset = false → (isl s 33).inReset = false →
    dirStep s = 0 → s.fwNv.staging = none → s.fwNv.trial = none → bootSource s ≠ 1 → s.fwNv.active = some m → bootable m s = true →
    exec (.bootRomVerify { activeBad := false, fallbackBad := false, stagingBad := false }) s = .next (handover m s)) ∧
  (∀ (m : Manifest) (s : State), s.boot.stage = 1 → s.boot.fail = 0 → s.boot.optValid = true → (isl s 29).inReset = false → (isl s 33).inReset = false →
    dirStep s = 0 → s.fwNv.staging = none → s.fwNv.trial = none → bootSource s ≠ 1 → s.fwNv.fallback = some m → bootable m s = true →
    ∃ t, exec (.bootRomVerify { activeBad := true, fallbackBad := false, stagingBad := false }) s = .next t ∧ t.boot.stage = 3 ∧
      t.boot.wdtArmed = true ∧ t.fw.running = some m ∧ t.fwNv.active = none) ∧
  (∀ (s : State), s.boot.stage = 1 → s.boot.fail = 0 → s.boot.optValid = true → (isl s 29).inReset = false → (isl s 33).inReset = false →
    dirStep s = 0 → s.fwNv.staging = none → s.fwNv.trial = none →
    ∃ t, exec (.bootRomVerify { activeBad := true, fallbackBad := true, stagingBad := false }) s = .next t ∧ t.fwNv.active = none ∧ t.fwNv.fallback = none ∧
      (bootSource s = 0 → t.boot.fail = 0x81 ∧ t.boot.stage = 1) ∧ (bootSource s = 1 ∨ bootSource s = 2 → t.boot.stage = 2 ∧ t.boot.fail = 0)) ∧
  (∀ (r : Req) (s : State), Served (fwHostBootService none) r s = true → zeroAt r.payload 12 4 = true → s.boot.stage = 2 →
    exec (.fwHostBoot r none) s = .next (let f := recordFault rcInstall (le 1 4 ++ le 3 0) (taken r s)
      answer 0x0A09 r .hwFault f.1 (answer 0x0A09 r .pending [] f.2))) ∧
  (∀ (r : Req) (b : List Byte) (s : State), Served (fwHostBootService (some b)) r s = true → takes r.mbx 0x0A09 r s = true →
    zeroAt r.payload 12 4 = true → s.boot.stage = 2 → r.payload.length = 16 → serves s r.mbx = true →
    exec (.fwHostBoot r (some b)) s =
      .next (match manifestReason (b.take (rd r.payload 8 4)) (rd r.payload 8 4) true s with
        | none => handover (readManifest (b.take (rd r.payload 8 4))) (answer 0x0A09 r .ok [] (answer 0x0A09 r .pending [] (taken r s)))
        | some k => answer 0x0A09 r (reasonStatus k) [] (answer 0x0A09 r .pending [] (taken r s)))) ∧
  (∀ (r : Req) (s : State), Served lifecycleAdvanceService r s = true → zeroAt r.payload 1 3 = true → rd r.payload 0 1 = 3 → lifecycle s = 2 →
    s.bkp.sealOpen = true →
    exec (.lifecycleAdvance r) s = .next (answer 0x0A10 r .ok [] (advanceLifecycle 3 (taken r s)))) ∧
  (∀ (r : Req) (s : State), Served lifecycleAdvanceService r s = true → zeroAt r.payload 1 3 = true → rd r.payload 0 1 = 3 → lifecycle s = 2 →
    s.bkp.sealOpen = false → exec (.lifecycleAdvance r) s = .next (answer 0x0A10 r .sealed [] (taken r s))) ∧
  (∀ (r : Req) (s : State), Served lifecycleAdvanceService r s = true → zeroAt r.payload 1 3 = true → rd r.payload 0 1 = 4 →
    lifecycle s = 2 ∨ lifecycle s = 3 → s.bkp.sealOpen = true →
    exec (.lifecycleAdvance r) s = .next (if decommissionAuth r.payload s
      then answer 0x0A10 r .ok [] (advanceLifecycle 4
        { (s.slots.slots.map (fun e => e.1)).foldl (fun s n => (destroySlot n s).1) (taken r s) with boot.domainKeys := none, boot.sysReq := some 5 })
      else answer 0x0A10 r .authFail [] (taken r s))) ∧
  (∀ (r : Req) (s : State), Served custKeyProgramService r s = true → lifecycle s = 2 → s.fuses.custHash = none →
    exec (.custKeyProgram r) s = .next (answer 0x0A11 r .ok [] { taken r s with fuses.custHash := some (r.payload.take 32) })) ∧
  (∀ (r : Req) (h : List Byte) (s : State), Served custKeyProgramService r s = true → s.fuses.custHash = some h →
    exec (.custKeyProgram r) s = .next (answer 0x0A11 r .badState [] (taken r s)))

/-- R144 to R149: the fall-through queues. It concludes that exec answers a next state, under conditions on the state and operands alone, for:
queuePush, queueDoom, queueRead, dropRest, noticePop. -/
def Obligations.QueueCommandEffects : Prop :=
  (∀ (k : Nat) (w : DWord) (last : Bool) (code : BitVec 16) (s : State), producerUp s k = true →
    qAccepts last (ftq s k) = true →
    exec (.queuePush k w last code) s = .next (setFtq k (fun q => (qPush (cutThrough s k) w last code q).getD q) s)) ∧
  (∀ (k : Nat) (w : DWord) (last : Bool) (code : BitVec 16) (s : State), k < 272 → producerUp s k = true →
    qAccepts last (ftq s k) = true →
    ∃ t, exec (.queuePush k w last code) s = .next t ∧ ftq t k = qPut (cutThrough s k) w last code (ftq s k)) ∧
  (∀ (k : Nat) (w : DWord) (last : Bool) (code : BitVec 16) (s : State), k < 272 → qAccepts last (ftq s k) = false →
    ∃ t, exec (.queuePush k w last code) s = .next t ∧ ftq t k = ftq s k) ∧
  (∀ (thr : Nat) (w : DWord) (code : BitVec 16) (q : FtQueue), q.readRes ≠ .waiting →
    (qPut thr w true code q).notices =
      q.notices ++ [{ count := ((qOpen q).getD {}).pushed + 1, dropped := ((qOpen q).getD {}).dropping, code := code }]) ∧
  (∀ (k : Nat) (s : State), producerUp s k = true → exec (.queueDoom k) s = .next (setFtq k (qDoom (cutThrough s k)) s)) ∧
  (∀ (k : Nat) (s : State), k < 272 → qOpen (ftq s k) = none → ∃ t, exec (.queueDoom k) s = .next t ∧ ftq t k = ftq s k) ∧
  (∀ (k : Nat) (p : QPacket) (w : QWord) (ws : List QWord) (rest : List QPacket) (s : State), k < 272 → dirUp s = true →
    (ftq s k).packets = p :: rest → p.words = w :: ws → qReady (cutThrough s k) p = true → w.isEnd = true ∨ p.doomed = false →
    ∃ t, exec (.queueRead k) s = .next t ∧ (ftq t k).readRes = .word w.word w.isEnd p.doomed false ∧ (ftq t k).taken = (ftq s k).taken ++ [w]) ∧
  (∀ (k : Nat) (p : QPacket) (w : QWord) (ws : List QWord) (rest : List QPacket) (s : State), k < 272 → dirUp s = true →
    (ftq s k).packets = p :: rest → p.words = w :: ws → qReady (cutThrough s k) p = true → w.isEnd = false → p.doomed = true →
    ∃ t, exec (.queueRead k) s = .next t ∧ ftq t k = qDrop (qRead (cutThrough s k) (ftq s k)) ∧
      (qRead (cutThrough s k) (ftq s k)).readRes = .word w.word false true false) ∧
  (∀ (k : Nat) (s : State), k < 272 → dirUp s = true → (ftq s k).packets = [] →
    ∃ t, exec (.queueRead k) s = .next t ∧ (ftq t k).readRes = .waiting ∧ (ftq t k).taken = (ftq s k).taken) ∧
  (∀ (k : Nat) (s : State), k < 272 → dirUp s = true → (ftq s k).packets = [] →
    ∃ t, exec (.dropRest k) s = .next t ∧ ftq t k = { ftq s k with dropIdle := true }) ∧
  (∀ (k : Nat) (p : QPacket) (s : State), k < 272 → dirUp s = true → (ftq s k).packets = [p] → p.words ≠ [] → p.ended = true →
    ∃ t, exec (.dropRest k) s = .next t ∧ (ftq t k).packets = [] ∧ (ftq t k).taken = wholeOnly (ftq s k).taken) ∧
  (∀ (k : Nat) (n : Notice) (rest : List Notice) (s : State), k < 272 → dirUp s = true → (ftq s k).notices = n :: rest →
    ∃ t, exec (.noticePop k) s = .next t ∧ ftq t k = { ftq s k with notices := rest, popped := some n }) ∧
  (∀ (k : Nat) (s : State), dirUp s = false →
    exec (.queueRead k) s = .next s ∧ exec (.dropRest k) s = .next s ∧ exec (.noticePop k) s = .next s) ∧
  (∀ (k : Nat) (w : DWord) (last : Bool) (code : BitVec 16) (s : State), producerUp s k = false →
    exec (.queuePush k w last code) s = .next s ∧ exec (.queueDoom k) s = .next s)

/-- R66 to R92: reception. It concludes that exec answers a next state, under conditions on the state and operands alone, for: iqSlotReceive,
rxclkStop, overloadWindow, shrDetect, phrDecode, psduWordPush, laneFrameEnd, overflowTrailerPush, blankingStart, blankingEnd. -/
def Obligations.ReceptionEffects : Prop :=
  (∀ (p : Nat) (x : IqSlot) (s : State), rfUp s p = true → (rfp s p).blankedBy = [] → x.copy = ~~~x.status → (rfp s p).seq = none →
    ∃ t, exec (.iqSlotReceive p x) s = .next t ∧ (rfp t p).seq = some (x.status.setWidth 8) ∧ (rfp t p).slotErr = (rfp s p).slotErr ∧
      (rfp t p).gain = bits x.status.toNat 13 8 ∧ (x.status.getLsbD 15 = true → (rfp t p).lastSample = (clampSample x.i, clampSample x.q)) ∧
      (rfp t p).state = (rfp s p).state) ∧
  (∀ (p : Nat) (x : IqSlot) (s : State), rfUp s p = true → (rfp s p).blankedBy = [] → x.copy ≠ ~~~x.status →
    ((rfp s p).errAt.filter (inWindow ((rfp s p).slotNo + 1))).length < 3 →
    ∃ t, exec (.iqSlotReceive p x) s = .next t ∧ (rfp t p).slotErr = (rfp s p).slotErr + 1 ∧ (rfp t p).lastSample = (0, 0) ∧
      (rfp t p).state = (rfp s p).state) ∧
  (∀ (p : Nat) (x : IqSlot) (s : State), rfUp s p = true → (rfp s p).blankedBy = [] → x.copy ≠ ~~~x.status →
    3 ≤ ((rfp s p).errAt.filter (inWindow ((rfp s p).slotNo + 1))).length →
    ∃ t, exec (.iqSlotReceive p x) s = .next t ∧ (rfp t p).state = .down ∧ (rfp t p).training = true ∧ t.evt.pend.getLsbD 0x20 = true) ∧
  (∀ (p : Nat) (s : State), rfUp s p = true →
    ∃ t, exec (.rxclkStop p) s = .next t ∧ (rfp t p).state = .down ∧ (rfp t p).training = true ∧ t.evt.pend.getLsbD 0x20 = true) ∧
  (∀ (p : Nat) (s : State), rfUp s p = true →
    exec (.overloadWindow p) s = .next (setRf p (fun x => { x with ovldPrev := x.ovldNow != 0, ovldNow := 0 }) s)) ∧
  (∀ (l : Nat) (pw : Power) (h : ShrIn) (s : State), canDetect s l = true → shrFits s (lane s l) h = true → (lane s l).rx = .idle →
    exec (.shrDetect l pw h) s = .next (setLane l (fun x => { x with rx := .shr pw h.deep, shrs := x.shrs + 1 }) s)) ∧
  (∀ (l : Nat) (pw : Power) (h : ShrIn) (w : Power) (d : Bool) (s : State), canDetect s l = true → shrFits s (lane s l) h = true → (lane s l).rx = .shr w d →
    atLeastDb pw w (10 * pval s 0x2002) = true →
    exec (.shrDetect l pw h) s =
      .next (setLane l (fun x => { x with rx := .shr pw h.deep, shrs := x.shrs + 1, captures := x.captures + 1 }) s)) ∧
  (∀ (l : Nat) (v : Power) (phr : BitVec 16) (s : State), (lane s l).rx = .shr v false → bit phr.toNat 0 = true →
    exec (.phrDecode l phr) s = .next (setLane l (fun x => { x with rx := .idle, phrErr := x.phrErr + 1 }) s)) ∧
  (∀ (l : Nat) (v : Power) (phr : BitVec 16) (s : State), (lane s l).rx = .shr v false → bit phr.toNat 0 = false → bit phr.toNat 3 = false →
    bit (lane s l).asg.rateMask (bits phr.toNat 2 1) = true → 5 ≤ bits phr.toNat 15 5 → qAccepts false (lane s l).queue = true →
    ∃ t, exec (.phrDecode l phr) s = .next t ∧ (lane t l).rx = .frame (bits phr.toNat 15 5 - 4) ∧ (lane t l).phrErr = (lane s l).phrErr ∧
      (lane t l).hdr = laneHeader l (lane s l) (streamChannel s (lane s l).asg.port (lane s l).asg.stream) (bits phr.toNat 2 1) false false
        (bit phr.toNat 4) (bits phr.toNat 15 5 - 4)) ∧
  (∀ (l left : Nat) (word : DWord) (s : State), (lane s l).rx = .frame left → 0 < left → qAccepts false (lane s l).queue = true →
    ∃ t, exec (.psduWordPush l word) s = .next t ∧ (lane t l).rx = .frame (left - min 8 left) ∧
      (let octets := whiten ((lane s l).hdr.getLsbD 31) (lane s l).octets.length ((le 8 word.toNat).take (min 8 left))
       (lane t l).octets = (lane s l).octets ++ octets ∧
         (lane t l).queue = qPut (cutThrough s l) (BitVec.ofNat 64 (ofLe octets)) false 0 (lane s l).queue)) ∧
  (∀ (l left : Nat) (word : DWord) (s : State), (lane s l).rx = .frame left → 0 < left → qAccepts false (lane s l).queue = false →
    exec (.psduWordPush l word) s = .next (laneOverflow l s)) ∧
  (∀ (l : Nat) (fin : FrameEnd) (s : State), (lane s l).rx = .frame 0 → trailerRoom (lane s l).queue = true →
    ∃ t, exec (.laneFrameEnd l fin) s = .next t ∧ (lane t l).rx = .idle ∧ t.now = max s.now fin.endTime ∧
      (let good := fcsHolds (lane s l) fin.fcs
       (lane t l).good = (lane s l).good + (if good then 1 else 0) ∧ (lane t l).crcBad = (lane s l).crcBad + (if good then 0 else 1) ∧
         (lane t l).queue = qPut (cutThrough s l) (BitVec.ofNat 64 fin.endTime) true 0
           (qPut (cutThrough s l) (laneTrailer (if good then 0 else 1) (powerDbm s (lane s l).asg.port fin.power) fin.cfo fin.snr) false 0 (lane s l).queue))) ∧
  (∀ (l : Nat) (fin : FrameEnd) (s : State), (lane s l).rx = .frame 0 → trailerRoom (lane s l).queue = false →
    exec (.laneFrameEnd l fin) s = .next (laneOverflow l s)) ∧
  (∀ (l : Nat) (fin : FrameEnd) (s : State), (lane s l).rx = .overflow → trailerRoom (lane s l).queue = true →
    exec (.overflowTrailerPush l fin) s = .next (pushTrailers l (laneTrailer 5 (powerDbm s (lane s l).asg.port fin.power) fin.cfo fin.snr) 0 s)) ∧
  (∀ (p t : Nat) (s : State), rfUp s p = true → s.now ≤ t → (rfp s p).blankAt = none → mayStartAt s p (t + blankLead s p) = true →
    exec (.blankingStart p t) s = .next (blankAll p (monoUs (advTo t s)) (setRf p (fun x => { x with blankAt := some t }) (advTo t s)))) ∧
  (∀ (p : Nat) (s : State), p < 8 → (rfp s p).blankedBy.contains p = true → (rfp s p).state ≠ .transmitting →
    exec (.blankingEnd p) s = .next (setRf p (fun x => { x with blankAt := none }) ((List.range 8).foldl (fun s r => unblankPort p r s)
      (advMono ((rfp s p).txenRise + tUs (pval s (pidRf p 7))) s))))

/-- R82 to R84, R90, R91: lane opcodes. It concludes that exec answers a next state, under conditions on the state and operands alone, for:
laneAssign, laneSwitch, laneTableGet, laneStatsGet, laneStatsClear, rfPortStatusGet. -/
def Obligations.LaneOpcodeEffects : Prop :=
  (∀ (r : Req) (s : State), Served laneAssignService r s = true → s.cfg.state = .committing →
    exec (.laneAssign r) s = .next (startWait laneAssignService r false (taken r s))) ∧
  (∀ (r : Req) (w : Window) (s : State), Served laneAssignService r s = true → inWindowState s = true → s.cfg.window = some w →
    AssignOk true r s = true → 0 < rd r.payload 0 2 →
    exec (.laneAssign r) s = .next (answer 0x0210 r .ok (le 8 0)
      { taken r s with cfg.window := some { w with lanes := (assignEntries r).foldl (fun (t : Tbl LaneAsg) e => tset t e.1 e.2.1) w.lanes } })) ∧
  (∀ (r : Req) (s : State), Served laneAssignService r s = true → s.cfg.state = .committed → AssignOk false r s = true → 0 < rd r.payload 0 2 →
    exec (.laneAssign r) s = .next (
      let s1 := (assignEntries r).foldl (fun s e => setLane e.1 (fun x => { x with next := some e.2.1 }) s) (taken r s)
      let s2 := (assignEntries r).foldl (fun s e => if e.2.2 then forceLane e.1 s else s) s1
      if (assignEntries r).all (fun e => (lane s2 e.1).next.isNone)
        then answer 0x0210 r .ok (le 8 s2.now) (answer 0x0210 r .pending [] s2) else begun 0x0210 r [.lanes] s2)) ∧
  (∀ (r : Req) (s : State), Served laneAssignService r s = true → s.cfg.state ≠ .committing → AssignOk (inWindowState s) r s = true →
    rd r.payload 0 2 = 0 → exec (.laneAssign r) s = .next (answer 0x0210 r .ok (le 8 0) (taken r s))) ∧
  (∀ (l : Nat) (a : LaneAsg) (s : State), (lane s l).next = some a → (lane s l).rx = .idle → s.rot.shadow = none →
    exec (.laneSwitch l) s = .next (finishAssigns (setLane l (fun x => { x with asg := a, next := none }) s))) ∧
  (∀ (r : Req) (s : State), Served laneTableGetService r s = true → rd r.payload 2 2 ≤ 256 → rd r.payload 0 2 + rd r.payload 2 2 ≤ 256 →
    rd r.payload 4 1 = 0 → zeroAt r.payload 5 1 = true →
    exec (.laneTableGet r) s = .next (answer 0x0211 r .ok (((List.range (rd r.payload 2 2)).map (fun i => rd r.payload 0 2 + i)).map (fun l =>
      asgBytes l (if s.laneCount ≤ l then {} else (lane s l).asg))).flatten (taken r s))) ∧
  (∀ (r : Req) (s : State), Served laneTableGetService r s = true → rd r.payload 2 2 ≤ 256 → rd r.payload 0 2 + rd r.payload 2 2 ≤ 256 →
    rd r.payload 4 1 = 1 → zeroAt r.payload 5 1 = true → s.cfg.window = none →
    exec (.laneTableGet r) s = .next (answer 0x0211 r .badState [] (taken r s))) ∧
  (∀ (r : Req) (s : State), Served laneStatsGetService r s = true → rd r.payload 2 2 ≤ 64 → rd r.payload 0 2 + rd r.payload 2 2 ≤ 256 →
    exec (.laneStatsGet r) s = .next (
      let ls := (List.range (rd r.payload 2 2)).map (fun i => rd r.payload 0 2 + i)
      let s1 := measureNoise (ls.filter (fun l => l < (taken r s).laneCount)) (taken r s)
      answer 0x0212 r .ok (ls.map (laneStats s1)).flatten s1)) ∧
  (∀ (r : Req) (s : State), Served laneStatsClearService r s = true → rd r.payload 2 2 = 1 → rd r.payload 0 2 < s.laneCount → s.laneCount ≤ 256 →
    exec (.laneStatsClear r) s = .next (answer 0x0213 r .ok [] (setLane (rd r.payload 0 2) clearStats (taken r s)))) ∧
  (∀ (r : Req) (s : State), Served laneStatsClearService r s = true → rd r.payload 2 2 ≤ 256 → rd r.payload 0 2 + rd r.payload 2 2 ≤ 256 →
    exec (.laneStatsClear r) s = .next (answer 0x0213 r .ok [] (((List.range (rd r.payload 2 2)).map (fun i => rd r.payload 0 2 + i)).foldl
      (fun s l => if l < s.laneCount then setLane l clearStats s else s) (taken r s)))) ∧
  (∀ (r : Req) (s : State), Served rfPortStatusGetService r s = true →
    exec (.rfPortStatusGet r) s = .next (answer 0x0214 r .ok (rfPortStatus (taken r s)) (taken r s)))

/-- R481 to R492, R318: rotation and maintenance. It concludes that exec answers a next state, under conditions on the state and operands alone, for:
rotationStep, rotationHandover, laneTestEnd, rotationLate, islandBistEnd, laneMapGet, repairLedgerGet, rotationStatusGet, maintTokenGrant,
maintStatusGet, balRerun. -/
def Obligations.RotationEffects : Prop :=
  (∀ (k l j : Nat) (s u : State), s.rot.lane = none → pval s 0xB001 = 1 → s.laneCount ≠ 0 → islUp s islControl = true →
    u = askToken .lr { pacedAt s.rot.stepAt (tMs 2900) (tMs 3100) s with rot.stepAt := some (pacedAt s.rot.stepAt (tMs 2900) (tMs 3100) s).mono } →
    holds .lr u = true → nextLane u = some k → roleOf u k = .serving l → lowestSpare u = some j →
    exec .rotationStep s = .next (setRole j (.shadow l) { u with rot.lane := some k, rot.shadow := some (j, l), rot.shadowAt := some u.mono })) ∧
  (∀ (k : Nat) (s u : State), s.rot.lane = none → pval s 0xB001 = 1 → s.laneCount ≠ 0 → islUp s islControl = true →
    u = askToken .lr { pacedAt s.rot.stepAt (tMs 2900) (tMs 3100) s with rot.stepAt := some (pacedAt s.rot.stepAt (tMs 2900) (tMs 3100) s).mono } →
    holds .lr u = true → nextLane u = some k → roleOf u k = .spare →
    exec .rotationStep s = .next (setRole k .underTest { u with rot.lane := some k })) ∧
  (∀ (k l j : Nat) (s : State), s.rot.lane = some k → roleOf s k = .serving l → s.rot.shadow = none → lowestSpare s = some j →
    exec .rotationStep s = .next (setRole j (.shadow l) { s with rot.lane := some k, rot.shadow := some (j, l), rot.shadowAt := some s.mono })) ∧
  (∀ (k j l : Nat) (s : State), s.rot.lane = some k → s.rot.shadow = some (j, l) → (lane s l).rx = .idle → j ≠ k →
    ∃ t, exec .rotationHandover s = .next t ∧ roleOf t j = .serving l ∧ roleOf t k = .underTest ∧ t.rot.shadow = none) ∧
  (∀ (k : Nat) (s : State), s.rot.lane = some k → s.rot.shadow = none → roleOf s k = .underTest →
    exec (.laneTestEnd true) s = .next (fillLanes (stepDone k (setRole k .spare s)))) ∧
  (∀ (k : Nat) (s : State), s.rot.lane = some k → s.rot.shadow = none → roleOf s k = .underTest → s.rot.retest = false →
    exec (.laneTestEnd false) s = .next { s with rot.retest := true, rot.testFails := s.rot.testFails + 1 }) ∧
  (∀ (k : Nat) (s : State), s.rot.lane = some k → s.rot.shadow = none → roleOf s k = .underTest → s.rot.retest = true →
    exec (.laneTestEnd false) s = .next (stepDone k (excludeLane k { s with rot.testFails := s.rot.testFails + 1 }))) ∧
  (∀ (k : Nat) (s : State), k < 272 → laneWorks s k = true → s.laneCount ≠ 0 → rotationState s = 0 → s.rot.lateRaised.contains k = false →
    ∃ t, exec (.rotationLate k) s = .next t ∧ t.evt.pend.getLsbD 0xB4 = true ∧ t.rot.lateRaised = s.rot.lateRaised ++ [k]) ∧
  (∀ (i : Nat) (s : State), i ≤ 16 → (isl s i).bistDue = true → (isl s i).inReset = false →
    exec (.islandBistEnd i ⟨true, []⟩) s = .next (laneIslandUp i (setIsl i (fun x => { x with bistDue := false }) s))) ∧
  (∀ (i : Nat) (s : State), 17 ≤ i → i ≤ 24 → (isl s i).bistDue = true → (isl s i).inReset = false →
    exec (.islandBistEnd i ⟨true, []⟩) s = .next (setIsl i (fun x => { x with bistDue := false }) s)) ∧
  (∀ (i o : Nat) (s : State), i ≤ 16 → (isl s i).bistDue = true → (isl s i).inReset = false →
    exec (.islandBistEnd i ⟨true, [o]⟩) s = .next (laneIslandUp i (setIsl i (fun x => { x with bistDue := false }) (addRepair 3 causeTest o s)))) ∧
  (∀ (i : Nat) (s : State), i ≤ 28 → (isl s i).bistDue = true → (isl s i).inReset = false →
    exec (.islandBistEnd i ⟨false, []⟩) s = .next (excludeIsland i causeTest 3 (setIsl i (fun x => { x with bistDue := false }) s))) ∧
  (∀ (r : Req) (s : State), Served laneMapGetService r s = true → rd r.payload 0 2 + rd r.payload 2 2 ≤ 272 →
    exec (.laneMapGet r) s = .next (answer 0x0B10 r .ok ((List.range (rd r.payload 2 2)).map (fun i =>
      roleBytes (if laneWorks s (rd r.payload 0 2 + i) then roleOf s (rd r.payload 0 2 + i) else .excluded))).flatten (taken r s))) ∧
  (∀ (r : Req) (s : State), Served repairLedgerGetService r s = true → 0 < rd r.payload 2 2 → rd r.payload 2 2 ≤ 256 →
    rd r.payload 0 2 + rd r.payload 2 2 ≤ s.life.repair.length →
    exec (.repairLedgerGet r) s = .next (answer 0x0B11 r .ok (le 2 s.life.repair.length ++ le 2 0 ++
      (((s.life.repair.drop (rd r.payload 0 2)).take (rd r.payload 2 2)).map repairBytes).flatten) (taken r s))) ∧
  (∀ (r : Req) (s : State), Served rotationStatusGetService r s = true →
    exec (.rotationStatusGet r) s = .next (answer 0x0B12 r .ok (rotationStatus (taken r s)) (taken r s))) ∧
  (∀ (n : Nat) (a : Act) (s : State), actOf n = some a → a ≠ .ma → a ≠ .es → (isl s 29).inReset = false → holds a s = false → wants a s = true →
    grantable a s = true →
    exec (.maintTokenGrant n) s = .next (if a = .rh then { giveToken a s with dir.rehash := 2 } else giveToken a s)) ∧
  (∀ (n : Nat) (a : Act) (s : State), actOf n = some a → a ≠ .ma → a ≠ .es → (isl s 29).inReset = false → holds a s = false → wants a s = true →
    grantable a s = false → s.maint.waiting.contains a = false →
    exec (.maintTokenGrant n) s = .next { s with maint.waiting := s.maint.waiting ++ [a] }) ∧
  (∀ (s u : State), (isl s 29).inReset = false → holds .es s = false → wants .es s = true →
    u = roundAt s.maint.scrubAt (86400 * pval s 0x9000) s → grantable .es u = true →
    exec (.maintTokenGrant 6) s = .next { giveToken .es u with maint.scrubAt := some u.mono }) ∧
  (∀ (tm : Nat) (s : State), (isl s 29).inReset = false → holds .ma s = false → wants .ma s = true → s.fw.tm = some tm →
    grantable .ma (advTo (tSec (tm - 60)) s) = true →
    exec (.maintTokenGrant 0) s = .next (giveToken .ma (advTo (tSec (tm - 60)) s))) ∧
  (∀ (r : Req) (s : State), Served maintStatusGetService r s = true →
    exec (.maintStatusGet r) s = .next (answer 0x0B20 r .ok (maintStatus (taken r s)) (taken r s))) ∧
  (∀ (r : Req) (s : State), Served balRerunService r s = true → zeroAt r.payload 2 2 = true → rerunOk s (rd r.payload 0 2) (rd r.payload 4 4) = true →
    busyFor .br s = false →
    exec (.balRerun r) s = .next (
      let s1 := postRevision (rd r.payload 0 2) (rd r.payload 4 4) true (taken r s)
      answer 0x0608 r .ok (le 4 s1.bal.seq) (answer 0x0608 r .pending [] s1))) ∧
  (∀ (r : Req) (s : State), Served balRerunService r s = true → zeroAt r.payload 2 2 = true → rerunOk s (rd r.payload 0 2) (rd r.payload 4 4) = true →
    busyFor .br s = true → exec (.balRerun r) s = .next (answer 0x0608 r .busyMaint [] (taken r s)))

/-- R475 to R479, R492, R213, R214, R232: safety and memory. It concludes that exec answers a next state, under conditions on the state and operands
alone, for: lockstepMismatch, clockMonitorFault, gateTestPeriodic, safetySramScrub, heartbeatCheck, safetyAutoRecover, proofTestEnd, safetyStatusGet,
safetyClear, safetyProofTest, patrolScrub, softRepair, memStatusGet. -/
def Obligations.SafetyAndMemoryEffects : Prop :=
  (∀ (s : State), islUp s islControl = true →
    exec .lockstepMismatch s = .next (safetyFault 1 s) ∧ exec .clockMonitorFault s = .next (safetyFault 7 s)) ∧
  (∀ (pass : Bool) (s u : State), islUp s islControl = true → u = pacedAt s.safe.gateTestAt (tUs 4500) (tUs 5500) s →
    exec (.gateTestPeriodic pass) s =
      .next (if pass then { u with safe.gateTestAt := some u.mono } else safetyFault 3 { u with safe.gateTestAt := some u.mono })) ∧
  (∀ (pass : Bool) (s u : State), islUp s islControl = true → u = pacedAt s.safe.scrubAt (tMs 1) (tMs 1) s →
    exec (.safetySramScrub pass) s =
      .next (if pass then { u with safe.scrubAt := some u.mono } else safetyFault 2 { u with safe.scrubAt := some u.mono })) ∧
  (∀ (us : Nat) (s : State), islUp s islControl = true →
    exec (.heartbeatCheck us) s = .next (if us < 1000 ∨ 3000 < us then safetyFault 8 s else s)) ∧
  (∀ (s : State), islUp s islControl = true → s.safe.state = .armed → (recentFaults s).length < 2 →
    ∃ t, exec .lockstepMismatch s = .next t ∧ t.safe.state = .fault ∧ t.safe.safeOkN = true ∧ t.safe.causes = [1] ∧ t.safe.due = none ∧
      t.evt.pend.getLsbD 0xB0 = true ∧ t.faultTimes = s.mono :: recentFaults s) ∧
  (∀ (s : State), islUp s islControl = true → s.safe.state = .armed → 2 ≤ (recentFaults s).length →
    ∃ t, exec .lockstepMismatch s = .next t ∧ t.safe.state = .locked ∧ t.safe.safeOkN = true ∧ t.evt.pend.getLsbD 0xB0 = true) ∧
  (∀ (at_ : Nat) (s : State), s.mon.backAt = some at_ → s.safe.state = .fault → s.safe.causes = [9] → s.mon.out = 0 → s.safe.proof = none →
    ∃ t, exec .safetyAutoRecover s = .next t ∧ t.safe = { s.safe with proof := some none } ∧ t.jnl = s.jnl) ∧
  (∀ (s : State), s.safe.proof = some none → s.safe.state = .fault →
    ∃ t, exec (.proofTestEnd none) s = .next t ∧ t.safe.state = .armed ∧ t.safe.safeOkN = false ∧ t.safe.proof = none ∧ t.safe.causes = [] ∧
      t.evt.pend.getLsbD 0xB1 = true ∧ t.safe.lastProof = secs s) ∧
  (∀ (id : Nat) (s : State), s.safe.proof = some (some id) → s.safe.state = .fault →
    exec (.proofTestEnd none) s =
      .next (finishOp id .ok [] (proofPassed { s with safe.proof := none, safe.lastProof := secs s }))) ∧
  (∀ (id code : Nat) (s : State), s.safe.proof = some (some id) →
    exec (.proofTestEnd (some code)) s =
      .next (
        let s1 := { s with safe.proof := none, safe.lastProof := secs s }
        let f := faultSeq s1 (safetyFault code s1)
        finishOp id .hwFault f.1 f.2)) ∧
  (∀ (r : Req) (s : State), Served safetyStatusGetService r s = true →
    exec (.safetyStatusGet r) s = .next (answer 0x0B00 r .ok (safetyStatus (taken r s)) (taken r s))) ∧
  (∀ (r : Req) (s : State), Served safetyClearService r s = true → s.safe.state = .armed →
    exec (.safetyClear r) s = .next (answer 0x0B01 r .ok [] (taken r s))) ∧
  (∀ (r : Req) (s : State), Served safetyClearService r s = true → s.safe.state = .fault → s.safe.proof = none →
    exec (.safetyClear r) s = .next (begun 0x0B01 r [.safety] { taken r s with safe.proof := some (some s.nextOp) })) ∧
  (∀ (r : Req) (s : State), Served safetyClearService r s = true → s.safe.state = .locked →
    exec (.safetyClear r) s = .next (answer 0x0B01 r .badState [] (taken r s))) ∧
  (∀ (r : Req) (s : State), Served safetyProofTestService r s = true → s.safe.state = .armed → s.safe.proof = none →
    exec (.safetyProofTest r) s = .next (begun 0x0B02 r [.safety] { taken r s with safe.proof := some (some s.nextOp) })) ∧
  (∀ (r : Req) (s : State), Served safetyProofTestService r s = true → s.safe.state ≠ .armed →
    exec (.safetyProofTest r) s = .next (answer 0x0B02 r .badState [] (taken r s))) ∧
  (∀ (x : ScrubIn) (s u : State), wrongSyms x.here = [] → x.here.wrongAddr = false → x.sram = .none → (isl s 32).inReset = false →
    u = advMono (scrubDue s) s → s.mem.scrubPos + 1 < burstCount s →
    exec (.patrolScrub x) s = .next { u with mem.scrubPos := s.mem.scrubPos + 1, mem.scrubFrom := some (s.mem.scrubFrom.getD u.mono) }) ∧
  (∀ (x : ScrubIn) (s u : State), wrongSyms x.here = [] → x.here.wrongAddr = false → x.sram = .none → (isl s 32).inReset = false →
    u = advMono (scrubDue s) s → s.mem.scrubPos + 1 = burstCount s →
    exec (.patrolScrub x) s = .next { u with
      mem.scrubPos := 0, mem.scrubPasses := s.mem.scrubPasses + 1,
      mem.scrubFrom := some (max u.mono (s.mem.scrubFrom.getD u.mono + tSec (3600 * pval s 0xB800))) }) ∧
  (∀ (x : ScrubIn) (s u v : State), x.sram = .none → (isl s 32).inReset = false → u = advMono (scrubDue s) s → s.mem.scrubPos + 1 < burstCount s →
    v = (if uncorrectable u x.here then burstUe (32 * s.mem.scrubPos) (uncorrectable u x.mirror) x.item u
      else noteCorrected (32 * s.mem.scrubPos) x.here u) →
    exec (.patrolScrub x) s = .next { v with mem.scrubPos := s.mem.scrubPos + 1, mem.scrubFrom := some (s.mem.scrubFrom.getD u.mono) }) ∧
  (∀ (k row : Nat) (s : State), s.mem.repairReq = some (k, row) → holds .sr s = true → (tget s.mem.ranks k {}).noPpr = false → s.mem.repairWait = [] →
    ∃ t, exec (.softRepair true) s = .next t ∧ t.mem.repairReq = none ∧ holds .sr t = false ∧ t.evt.pend.getLsbD 0xBB = true ∧
      t.life = (addRepair 4 1 (rowObj k row) s).life) ∧
  (∀ (k row : Nat) (s : State), s.mem.repairReq = some (k, row) → holds .sr s = true → s.mem.repairWait = [] →
    ∃ t, exec (.softRepair false) s = .next t ∧ t.mem.repairReq = none ∧ (rank? t k).noPpr = true ∧ t.life = s.life) ∧
  (∀ (r : Req) (s : State), Served memStatusGetService r s = true →
    exec (.memStatusGet r) s = .next (answer 0x0B85 r .ok (memStatus (taken r s)) (taken r s)))

/-- R223 to R228, R232: DMA. It concludes that exec answers a next state, under conditions on the state and operands alone, for: xlateSet, xlateGet,
dmaChanSet, dmaChanStatusGet, dmaChanRestart, dmaDescriptorEnd, dmaBusError. -/
def Obligations.DmaEffects : Prop :=
  (∀ (r : Req) (s : State), Served xlateSetService r s = true → rd r.payload 0 2 < 1024 → rd r.payload 2 1 < 8 → zeroAt r.payload 3 1 = true →
    rd r.payload 4 8 % 4096 = 0 → rd r.payload 12 4 ≤ 262144 → bit (rd r.payload 2 1) 2 = true ∨ windowUses s (rd r.payload 0 2) = 0 →
    exec (.xlateSet r) s = .next (answer 0x0B80 r .ok [] { taken r s with xlate := tset s.xlate (rd r.payload 0 2) { base := BitVec.ofNat 64 (rd r.payload 4 8), size := rd r.payload 12 4, rd := bit (rd r.payload 2 1) 0, wr := bit (rd r.payload 2 1) 1 } })) ∧
  (∀ (r : Req) (s : State), Served xlateSetService r s = true → rd r.payload 0 2 < 1024 → rd r.payload 2 1 < 8 → zeroAt r.payload 3 1 = true →
    rd r.payload 4 8 % 4096 = 0 → rd r.payload 12 4 ≤ 262144 → bit (rd r.payload 2 1) 2 = false → windowUses s (rd r.payload 0 2) ≠ 0 →
    exec (.xlateSet r) s = .next (startWait xlateSetService r false (taken r s))) ∧
  (∀ (r : Req) (s : State), Served xlateGetService r s = true → rd r.payload 2 2 ≤ 64 → rd r.payload 0 2 + rd r.payload 2 2 ≤ 1024 →
    exec (.xlateGet r) s = .next (answer 0x0B81 r .ok
      (((List.range (rd r.payload 2 2)).map (fun i => xlateRecord (taken r s) (rd r.payload 0 2 + i))).flatten) (taken r s))) ∧
  (∀ (r : Req) (s : State), Served dmaChanSetService r s = true → rd r.payload 0 1 < 32 → 4 ≤ rd r.payload 1 1 → rd r.payload 1 1 ≤ 12 →
    zeroAt r.payload 2 2 = true → rd r.payload 4 8 % 4096 = 0 → (chan s (rd r.payload 0 1)).state = .disabled →
    exec (.dmaChanSet r) s = .next (answer 0x0B82 r .ok [] (setChan (rd r.payload 0 1) (fun x =>
      { x with state := .idle, ring := BitVec.ofNat 64 (rd r.payload 4 8), log2 := rd r.payload 1 1 }) (taken r s)))) ∧
  (∀ (r : Req) (s : State), Served dmaChanSetService r s = true → rd r.payload 0 1 < 32 → rd r.payload 1 1 = 0 →
    zeroAt r.payload 2 2 = true → rd r.payload 4 8 % 4096 = 0 → (chan s (rd r.payload 0 1)).stream = none → (chan s (rd r.payload 0 1)).active = none →
    exec (.dmaChanSet r) s = .next (answer 0x0B82 r .ok [] (setChan (rd r.payload 0 1) (fun x =>
      { x with state := .disabled, active := none, held := none, pi := 0, ci := 0 }) (taken r s)))) ∧
  (∀ (r : Req) (d : List Byte) (n : Nat) (s : State), Served dmaChanSetService r s = true → rd r.payload 0 1 < 32 → rd r.payload 1 1 = 0 →
    zeroAt r.payload 2 2 = true → rd r.payload 4 8 % 4096 = 0 → (chan s (rd r.payload 0 1)).stream = none →
    (chan s (rd r.payload 0 1)).active = some (d, n) →
    exec (.dmaChanSet r) s = .next (answer 0x0B82 r .ok [] (setChan (rd r.payload 0 1) (fun x =>
      { x with state := .disabled, active := none, held := none, pi := 0, ci := 0 }) (writeStatus (rd r.payload 0 1) n 5 (taken r s))))) ∧
  (∀ (r : Req) (s : State), Served dmaChanSetService r s = true → rd r.payload 0 1 < 32 → rd r.payload 1 1 = 0 →
    zeroAt r.payload 2 2 = true → rd r.payload 4 8 % 4096 = 0 → (chan s (rd r.payload 0 1)).stream ≠ none →
    exec (.dmaChanSet r) s = .next (answer 0x0B82 r .badState [] (taken r s))) ∧
  (∀ (r : Req) (s : State), Served dmaChanStatusGetService r s = true → rd r.payload 0 1 < 32 → zeroAt r.payload 1 3 = true →
    exec (.dmaChanStatusGet r) s = .next (answer 0x0B83 r .ok
      (le 1 (chanCode (chan s (rd r.payload 0 1)).state) ++ le 1 (streamSub (chan s (rd r.payload 0 1)).stream) ++ le 2 0 ++
        le 4 (chan s (rd r.payload 0 1)).ci.toNat ++ le 4 (chan s (rd r.payload 0 1)).done.toNat ++ le 4 (chan s (rd r.payload 0 1)).faults.toNat)
      (taken r s))) ∧
  (∀ (r : Req) (s : State), Served dmaChanRestartService r s = true → rd r.payload 0 1 < 32 → zeroAt r.payload 1 3 = true →
    (chan s (rd r.payload 0 1)).state = .stopped → (chan s (rd r.payload 0 1)).stream ≠ some .exports →
    exec (.dmaChanRestart r) s = .next (answer 0x0B84 r .ok []
      (setChan (rd r.payload 0 1) (fun x => { x with state := .running, active := none }) (taken r s)))) ∧
  (∀ (r : Req) (s : State), Served dmaChanRestartService r s = true → rd r.payload 0 1 < 32 → zeroAt r.payload 1 3 = true →
    (chan s (rd r.payload 0 1)).state = .stopped → (chan s (rd r.payload 0 1)).stream = some .exports →
    ∃ t, exec (.dmaChanRestart r) s = .next (answer 0x0B84 r .ok [] t) ∧ t.prov = { s.prov with offset := 0 } ∧
      chan t (rd r.payload 0 1) = { chan s (rd r.payload 0 1) with state := .running, active := none, held := none }) ∧
  (∀ (r : Req) (s : State), Served dmaChanRestartService r s = true → rd r.payload 0 1 < 32 → zeroAt r.payload 1 3 = true →
    (chan s (rd r.payload 0 1)).state ≠ .stopped → exec (.dmaChanRestart r) s = .next (answer 0x0B84 r .badState [] (taken r s))) ∧
  (∀ (c : Nat) (d : DescIn) (s : State), (chan s c).state = .running → (isl s 33).inReset = false → (chan s c).active = none →
    dLength (slice d.raw 0 32) = 0 →
    ∃ t, exec (.dmaDescriptorEnd c d) s = .next t ∧ (chan t c).ci = (chan s c).ci + 1 ∧ (chan t c).done = (chan s c).done + 1 ∧
      (chan t c).active = none ∧ (chan t c).state = (if (chan s c).ci + 1 = (chan s c).pi then .idle else .running)) ∧
  (∀ (c : Nat) (d : DescIn) (st : Stream) (s : State), (chan s c).state = .running → (isl s 33).inReset = false → (chan s c).active = none →
    (chan s c).stream = some st → 0 < dLength (slice d.raw 0 32) → badBegin s (isRead st) (slice d.raw 0 32) = true →
    exec (.dmaDescriptorEnd c d) s = .next (descFault c 0 2 s)) ∧
  (∀ (c : Nat) (d : DescIn) (st : Stream) (data : List Byte) (s : State), (chan s c).state = .running → (isl s 33).inReset = false →
    (chan s c).active = none → (chan s c).stream = some st → 0 < dLength (slice d.raw 0 32) → badBegin s (isRead st) (slice d.raw 0 32) = false →
    (chan s c).held = none → streamData s st (dLength (slice d.raw 0 32)) = some data → d.upTo = none →
    exec (.dmaDescriptorEnd c d) s = .next (transfer c st (slice d.raw 0 32) data 0 data.length d.ueAt true
      (holdData c st (dLength (slice d.raw 0 32)) data s))) ∧
  (∀ (c n moved : Nat) (d : DescIn) (raw data : List Byte) (st : Stream) (s : State), (chan s c).state = .running → (isl s 33).inReset = false →
    (chan s c).active = some (raw, moved) → (chan s c).stream = some st → 0 < dLength raw → (chan s c).held = some data → d.upTo = some n →
    exec (.dmaDescriptorEnd c d) s = .next (transfer c st raw data moved (max moved (min n data.length)) d.ueAt false
      (holdData c st (dLength raw) data s))) ∧
  (∀ (c n : Nat) (s : State), (chan s c).state = .running → (chan s c).stream ≠ none →
    exec (.dmaBusError c n) s = .next (descFault c n 3 s)) ∧
  (∀ (c n st : Nat) (s : State), (chan (descFault c n st s) c).state = .stopped ∧ (chan (descFault c n st s) c).ci = (chan s c).ci ∧
    (chan (descFault c n st s) c).faults = (chan s c).faults + 1 ∧ (descFault c n st s).evt.pend.getLsbD 0xB9 = true)

/-- R351 to R366: slots, blobs, re-wrap, attestation, DRBG. It concludes that exec answers a next state, under conditions on the state and operands
alone, for: qkLoad, qkDerive, qkGenerate, qkDestroy, qkSlotGet, qkEpLoad, qkEpClear, qkRewrap, rewrapWalk, qkAttest, qkCertGet, qkStatusGet,
drbgReseed. -/
def Obligations.KeyVaultEffects : Prop :=
  (∀ (r : Req) (s : State), Served qkLoadService r s = true → attrOk (attrAt r.payload 4) (rd r.payload 0 2) = true →
    zeroAt r.payload 7 1 = true → zeroAt r.payload 14 2 = true → rd r.payload 2 2 < 4096 → 24 ≤ rd r.payload 12 2 → rd r.payload 12 2 ≤ 1376 →
    chainOk s (rd r.payload 2 2) = true → (attrAt r.payload 4).typ ≠ 4 → (kslot s (rd r.payload 0 2)).typ = 0 →
    (kslot s (rd r.payload 2 2)).typ ≠ 3 → usable s (rd r.payload 2 2) = true → hasUsage (kslot s (rd r.payload 2 2)) uUnwrap = true →
    (kslot s (rd r.payload 2 2)).cntEn = false → genStuck s = false →
    exec (.qkLoad r) s = .next (match if (kslot s (rd r.payload 2 2)).typ = 4 then Config.oaepOpen (kslot s (rd r.payload 2 2)).key (r.payload.drop 16)
        else Config.keyUnwrapPad (kslot s (rd r.payload 2 2)).key (r.payload.drop 16) with
      | none => answer 0x0800 r .authFail [] (authFailed (taken r s))
      | some b => if slice b 0 16 != attrHeader (attrAt r.payload 4) || b.length != 16 + keySize (attrAt r.payload 4).typ
          then answer 0x0800 r .authFail [] (authFailed (taken r s))
          else answer 0x0800 r .ok [] (setSlot (rd r.payload 0 2) (newSlot (attrAt r.payload 4) (rd r.payload 2 2)
            (kslot s (rd r.payload 2 2)).gen (kslot s (rd r.payload 0 2)).gen (b.drop 16)) (taken r s)))) ∧
  (∀ (r : Req) (s : State), Served qkDeriveService r s = true → attrOk (attrAt r.payload 4) (rd r.payload 0 2) = true →
    (attrAt r.payload 4).typ ≠ 4 → zeroAt r.payload 7 1 = true → zeroAt r.payload 14 2 = true → rd r.payload 2 2 < 4096 → rd r.payload 12 2 ≤ 64 →
    chainOk s (rd r.payload 2 2) = true → (kslot s (rd r.payload 0 2)).typ = 0 → usable s (rd r.payload 2 2) = true →
    hasUsage (kslot s (rd r.payload 2 2)) uDerive = true → (kslot s (rd r.payload 2 2)).cntEn = false → genStuck s = false →
    exec (.qkDerive r) s = .next (answer 0x0801 r .ok [] (setSlot (rd r.payload 0 2) (newSlot (attrAt r.payload 4) (rd r.payload 2 2)
      (kslot s (rd r.payload 2 2)).gen (kslot s (rd r.payload 0 2)).gen
      (kdf108 (kslot s (rd r.payload 2 2)).key (str "QUARTZ SLOT")
        (le 1 (attrAt r.payload 4).typ ++ le 1 (attrAt r.payload 4).usage ++ le 1 (attrAt r.payload 4).flags ++ r.payload.drop 16)
        (8 * keySize (attrAt r.payload 4).typ))) (taken r s)))) ∧
  (∀ (r : Req) (s : State), Served qkGenerateService r s = true → attrOk (attrAt r.payload 4) (rd r.payload 0 2) = true →
    (attrAt r.payload 4).typ ≠ 4 → zeroAt r.payload 2 2 = true → zeroAt r.payload 7 1 = true → (kslot s (rd r.payload 0 2)).typ = 0 →
    genStuck s = false → secretOk s = true →
    exec (.qkGenerate r) s = .next (answer 0x0802 r .ok [] (setSlot (rd r.payload 0 2) (newSlot (attrAt r.payload 4) 0xFFFF 0
      (kslot s (rd r.payload 0 2)).gen (slice (draw (taken r s)).1 0 (keySize (attrAt r.payload 4).typ))) (draw (taken r s)).2))) ∧
  (∀ (r : Req) (s : State), Served qkDestroyService r s = true → rd r.payload 0 2 < 4096 → zeroAt r.payload 2 2 = true →
    (kslot s (rd r.payload 0 2)).typ ≠ 0 →
    exec (.qkDestroy r) s = .next (answer 0x0803 r .ok (le 4 (destroySlot (rd r.payload 0 2) (taken r s)).2)
      (destroySlot (rd r.payload 0 2) (taken r s)).1)) ∧
  (∀ (n : Nat) (s : State), s.life.genCounter < 0xFFFFFFFE →
    kslot (destroySlot n s).1 n = { gen := s.life.genCounter + 1 } ∧ (destroySlot n s).1.life.genCounter = s.life.genCounter + 1) ∧
  (∀ (n mask : Nat) (s : State), usable s n = true → hasUsage (kslot s n) mask = true →
    useSlot n mask s = if (kslot s n).cntEn = false then (s, some (kslot s n))
      else if (kslot s n).uses = 1 then ((destroySlot n (raise 0x81 (setSlot n { kslot s n with uses := 0 } s))).1, some (kslot s n))
      else (setSlot n { kslot s n with uses := (kslot s n).uses - 1 } s, some (kslot s n))) ∧
  (∀ (r : Req) (s : State), Served qkSlotGetService r s = true → rd r.payload 2 2 ≤ 256 → rd r.payload 0 2 + rd r.payload 2 2 ≤ 4096 →
    exec (.qkSlotGet r) s = .next (answer 0x0804 r .ok
      (((List.range (rd r.payload 2 2)).map (fun i => slotRecord (taken r s) (rd r.payload 0 2 + i))).flatten) (taken r s))) ∧
  (∀ (r : Req) (w : List Byte) (s : State), Served qkEpLoadService r s = true → rd r.payload 0 2 = 1 → rd r.payload 2 2 < 4096 →
    w = slice r.payload 8 40 → (ep? s (blobHandle r.payload 0)).isSome = true → usable s (rd r.payload 2 2) = true →
    hasUsage (kslot s (rd r.payload 2 2)) uUnwrap = true → (kslot s (rd r.payload 2 2)).typ = 1 ∨ (kslot s (rd r.payload 2 2)).typ = 2 →
    (kslot s (rd r.payload 2 2)).cntEn = false →
    exec (.qkEpLoad r) s = .next (match checkBlobs (rd r.payload 2 2) [(blobHandle r.payload 0, w)] 0 (taken r s) with
      | (_, some i) => answer 0x0805 r .authFail (idxPayload i) (authFailed (taken r s))
      | (s1, none) => answer 0x0805 r .ok [] (putBlob (blobHandle r.payload 0)
          { wrapped := w, wslot := rd r.payload 2 2, wgen := BitVec.ofNat 32 (kslot s (rd r.payload 2 2)).gen } s1))) ∧
  (∀ (r : Req) (s : State), Served qkEpClearService r s = true → zeroAt r.payload 2 2 = true →
    firstBad (fun h => (ep? s h).isNone) ((List.range (rd r.payload 0 2)).map (fun i => rd r.payload (4 + 4 * i) 4)) 0 = none →
    exec (.qkEpClear r) s = .next (answer 0x0806 r .ok [] (((List.range (rd r.payload 0 2)).map (fun i => rd r.payload (4 + 4 * i) 4)).foldl
      (fun s h => noteEp h (fun e => { e with keyHeld := none }) { s with blobs := tdel s.blobs h }) (taken r s)))) ∧
  (∀ (r : Req) (s : State), Served qkRewrapService r s = true → rd r.payload 0 2 < 4096 → rd r.payload 2 2 < 4096 →
    usable s (rd r.payload 0 2) = true → usable s (rd r.payload 2 2) = true →
    (kslot s (rd r.payload 2 2)).typ = 1 ∨ (kslot s (rd r.payload 2 2)).typ = 2 → hasUsage (kslot s (rd r.payload 2 2)) (uWrap + uUnwrap) = true →
    s.keys.rewrap = none → busyFor .kr s = false →
    exec (.qkRewrap r) s = .next (begun 0x0807 r [.blobs] (giveToken .kr { taken r s with keys.rewrap := some { pendId := (taken r s).nextOp, old := rd r.payload 0 2, new := rd r.payload 2 2 } }))) ∧
  (∀ (w : Rewrap) (s : State), s.keys.rewrap = some w → s.maint.yielded = false → (isl s 30).inReset = false → usable s w.old = true → usable s w.new = true →
    s.blobs.find? (fun b => w.next ≤ b.1 && b.2.wslot == w.old) = none → exec .rewrapWalk s = .next (rewrapEnd w s)) ∧
  (∀ (w : Rewrap) (h : Nat) (b : Blob) (s u : State), s.keys.rewrap = some w → s.maint.yielded = false → (isl s 30).inReset = false →
    usable s w.old = true → usable s w.new = true → s.blobs.find? (fun b => w.next ≤ b.1 && b.2.wslot == w.old) = some (h, b) → ctxBusy s h = false →
    b.wgen.toNat = (kslot s w.old).gen → hasUsage (kslot s w.old) uUnwrap = true → (kslot s w.old).cntEn = false →
    hasUsage (kslot s w.new) uWrap = true → (kslot s w.new).cntEn = false → u = advMono (w.at_.getD s.mono) s →
    exec .rewrapWalk s = .next (match Config.keyUnwrap (kslot s w.old).key b.wrapped with
      | none => rewrapNext h false w (authFailed u)
      | some plain => rewrapNext h true w (putBlob h { wrapped := slice (Config.keyWrap (kslot s w.new).key plain) 0 40, wslot := w.new, wgen := BitVec.ofNat 32 (kslot s w.new).gen } u))) ∧
  (∀ (r : Req) (s : State), Served qkAttestService r s = true → secretOk s = true →
    exec (.qkAttest r) s = .next (match identityKey s with
      | none => answer 0x0808 r .badState [] (taken r s)
      | some k => answer 0x0808 r .ok (attestBody r.payload (taken r s) ++
          slice (Config.rsaSign k (attestBody r.payload (taken r s)) s.freeCtr) 0 384) (draw (taken r s)).2)) ∧
  (∀ (r : Req) (s : State), Served qkCertGetService r s = true → rd r.payload 0 1 ≤ 1 → zeroAt r.payload 1 3 = true →
    exec (.qkCertGet r) s = .next (answer 0x0809 r .ok (if rd r.payload 0 1 = 0 then le 2 s.life.certId.length ++ le 2 0 ++ s.life.certId
      else le 2 s.life.certImport.length ++ le 2 0 ++ s.life.certImport) (taken r s))) ∧
  (∀ (r : Req) (s : State), Served qkStatusGetService r s = true →
    exec (.qkStatusGet r) s = .next (answer 0x080A r .ok (qkStatus (taken r s)) (taken r s))) ∧
  (∀ (s : State), (isl s 30).inReset = false → ∃ t, exec (.drbgReseed true) s = .next t ∧ t.keys.seeded = true ∧ t.keys.secretRefused = false ∧
    t.dir.kdir.isSome = true) ∧
  (∀ (s : State), (isl s 30).inReset = false → ∃ t, exec (.drbgReseed false) s = .next t ∧ t.keys.secretRefused = true ∧
    t.keys.health = s.keys.health + 1 ∧ t.evt.pend.getLsbD 0x84 = true)

/-- R374 to R393: the recorder. It concludes that exec answers a next state, under conditions on the state and operands alone, for: recordWrite,
tokenRefill, checkpointWrite, envmScrub, slateRead, slateDump, slateStatusGet, slateCodeGet, slateRecfClear. -/
def Obligations.SlateEffects : Prop :=
  (∀ (code : Nat) (payload : List Byte) (s : State), 0 < (slateRate s code).1 → (tget s.slate.buckets code {}).used < (slateRate s code).2 →
    ∃ t, recAdmit code payload s = t ∧ t.slate.head = s.slate.head + 1 ∧
      t.slate.queue = s.slate.queue ++ [{ code := code, spare := s.slateNv.state == .spare, trust := trusted s, seq := s.slate.head, stamp := BitVec.ofNat 64 s.now, payload := padTo 8 payload, supp := min (tget s.slate.buckets code {}).pendingCount (2 ^ 32 - 1) }] ∧
      (tget t.slate.buckets code {}).used = (tget s.slate.buckets code {}).used + 1 ∧ (tget t.slate.buckets code {}).pendingCount = 0) ∧
  (∀ (code : Nat) (s : State), privileged code = false →
    ∃ b : Bucket, b.used = (tget s.slate.buckets code {}).used ∧ b.pendingCount = (tget s.slate.buckets code {}).pendingCount + 1 ∧
      b.suppTotal = (tget s.slate.buckets code {}).suppTotal + 1 ∧
      recSuppress code s = { s with slate := { s.slate with buckets := tset s.slate.buckets code b, ordSupp := s.slate.ordSupp + 1 } }) ∧
  (∀ (x : SRec) (rest : List SRec) (s : State), recorderRuns s = true → s.slateNv.state = .normal → s.slateNv.badBlocks = [] → s.slate.queue = x :: rest →
    s.slate.waiting = [] → retiredCount s ≤ 1024 →
    exec (.recordWrite []) s = .next { s with slateNv := { s.slateNv with ring := dropHit s.slateNv.wrOff (place s (recBytes x) + recBytes x) s.slateNv.ring ++ [{ x with off := place s (recBytes x), spare := false }], wrOff := place s (recBytes x) + recBytes x }, slate := { s.slate with queue := rest, badRun := 0 } }) ∧
  (∀ (code t0 g : Nat) (s : State), code < 512 → (tget s.slate.buckets code {}).clock = some (t0, g) → 0 < (tget s.slate.buckets code {}).used →
    0 < (slateRate s code).1 →
    ∃ t, exec (.tokenRefill code) s = .next t ∧ (tget t.slate.buckets code {}).used = (tget s.slate.buckets code {}).used - 1 ∧
      (tget t.slate.buckets code {}).clock = (if (tget s.slate.buckets code {}).used = 1 then none else some (t0, g + 1))) ∧
  (∀ (s : State), recorderRuns s = true → s.slate.moved = true → s.slateNv.state = .normal →
    ∃ t, exec (.checkpointWrite 0) s = .next t ∧ t.slate.nextB = !s.slate.nextB ∧
      (if s.slate.nextB then t.slateNv.ckB else t.slateNv.ckA).valid = true ∧
      (if s.slate.nextB then t.slateNv.ckB else t.slateNv.ckA).headSeq = writtenHead s ∧
      (if s.slate.nextB then t.slateNv.ckA = s.slateNv.ckA else t.slateNv.ckB = s.slateNv.ckB)) ∧
  (∀ (n off : Nat) (s : State), s.maint.holders.contains .es = true → 2048 ≤ off → s.slateNv.state = .normal →
    ∃ t, exec (.envmScrub { corrected := n, ue := [(0, off)], passEnds := false }) s = .next t ∧
      t.slateNv.corrected = s.slateNv.corrected + BitVec.ofNat 32 n ∧ t.slateNv.uncorrectable = s.slateNv.uncorrectable + 1 ∧
      t.slateNv.ring = s.slateNv.ring.map (fun r => if r.off ≤ 4 * off - 8192 && 4 * off - 8192 < r.off + recBytes r then { r with lost := true } else r) ∧
      t.evt.pend.getLsbD 0x93 = true) ∧
  (∀ (r : Req) (s : State), Served slateReadService r s = true → 1032 ≤ rd r.payload 4 2 → rd r.payload 4 2 ≤ 65520 → zeroAt r.payload 6 2 = true →
    s.slateNv.state ≠ .latchOnly →
    ∃ rs, rs = fitRecords (rd r.payload 4 2) (s.slateNv.ring.filter (fun x => !seqBelow x.seq
        (if seqBelow (BitVec.ofNat 32 (rd r.payload 0 4)) (slateTail s) then slateTail s else BitVec.ofNat 32 (rd r.payload 0 4)))) ∧
      exec (.slateRead r) s = .next (answer 0x0900 r .ok
        (le 4 s.slate.head.toNat ++ le 4 (slateTail s).toNat ++ le 2 rs.length ++ le 2 0 ++ (rs.map srecBytes).flatten)
        { taken r s with slate := { s.slate with lostDelivered := s.slate.lostDelivered + BitVec.ofNat 32 (rs.filter (fun x => x.lost)).length } })) ∧
  (∀ (r : Req) (first : Word) (s : State), Served slateDumpService r s = true → zeroAt r.payload 1 3 = true → rd r.payload 0 1 < 32 → 0 < rd r.payload 8 4 →
    seqBelow s.slate.head (BitVec.ofNat 32 (rd r.payload 4 4)) = false → rd r.payload 8 4 ≤ (s.slate.head - BitVec.ofNat 32 (rd r.payload 4 4)).toNat →
    first = (if seqBelow (BitVec.ofNat 32 (rd r.payload 4 4)) (slateTail s) then slateTail s else BitVec.ofNat 32 (rd r.payload 4 4)) →
    s.slate.dump = none → bindCheck (rd r.payload 0 1) s = none → seqBelow first (BitVec.ofNat 32 (rd r.payload 4 4) + BitVec.ofNat 32 (rd r.payload 8 4)) = true →
    exec (.slateDump r) s = .next (begun 0x0901 r [] (bindChan (rd r.payload 0 1) .slateDump { taken r s with slate := { s.slate with dump := some { chan := rd r.payload 0 1, pendId := (taken r s).nextOp, next := first, stop := BitVec.ofNat 32 (rd r.payload 4 4) + BitVec.ofNat 32 (rd r.payload 8 4), first := first } } }))) ∧
  (∀ (r : Req) (s : State), Served slateStatusGetService r s = true →
    exec (.slateStatusGet r) s = .next (answer 0x0902 r .ok (slateStatus (taken r s)) (taken r s))) ∧
  (∀ (r : Req) (s : State), Served slateCodeGetService r s = true → rd r.payload 2 2 ≤ 64 → rd r.payload 0 2 + rd r.payload 2 2 ≤ 512 →
    exec (.slateCodeGet r) s = .next (answer 0x0903 r .ok
      (((List.range (rd r.payload 2 2)).map (fun i => codeRecord (taken r s) (rd r.payload 0 2 + i))).flatten) (taken r s))) ∧
  (∀ (r : Req) (s : State), Served slateRecfClearService r s = true →
    exec (.slateRecfClear r) s = .next (if lifecycle s = 1
      then answer 0x0904 r .ok [] { taken r s with bkp := { s.bkp with recf := false, sparef := false, recfCause := 0, recfLost := 0, recfTime := 0 } }
      else answer 0x0904 r .badState [] (taken r s)))

/-- R320 to R345: the campaign opcodes. It concludes that exec answers a next state, under conditions on the state and operands alone, for:
campCreate, campContent, campTargetsAdd, campStart, campPause, campResume, campCancel, campStatusGet, campTargetGet, campRelease, switchFaultClear. -/
def Obligations.CampaignOpcodeEffects : Prop :=
  (∀ (r : Req) (s : State), Served campCreateService r s = true → headerBadCamp s r.payload = false → camp? s (rd r.payload 0 1) = none →
    ledgerOk s = true → 3 ≤ rd r.payload 1 1 →
    ∃ t x, exec (.campCreate r) s = .next (answer 0x0700 r .ok [] t) ∧ camp? t (rd r.payload 0 1) = some x ∧ x.state = .open_ ∧
      x.kind = rd r.payload 1 1 ∧ x.prio = rd r.payload 2 1 ∧ x.retryMax = rd r.payload 4 1 ∧ x.deadline = rd r.payload 12 4 ∧ x.targets = [] ∧
      t.evt.pend.getLsbD 0x70 = true) ∧
  (∀ (r : Req) (s : State), Served campCreateService r s = true → headerBadCamp s r.payload = true →
    exec (.campCreate r) s = .next (answer 0x0700 r .badParam [] (taken r s))) ∧
  (∀ (r : Req) (x : Camp) (s : State), Served campContentService r s = true → camp? s (rd r.payload 0 1) = some x → x.state = .open_ →
    x.kind = 1 ∨ x.kind = 2 → zeroAt r.payload 1 1 = true → zeroAt r.payload 6 2 = true → 0 < rd r.payload 4 2 → rd r.payload 4 2 ≤ 255 →
    rd r.payload 2 2 + rd r.payload 4 2 < campK x →
    exec (.campContent r) s = .next (answer 0x0701 r .ok [] (updCamp (rd r.payload 0 1) (fun x => { x with blocks := (List.range (rd r.payload 4 2)).foldl (fun b i => tset b (rd r.payload 2 2 + i) (slice r.payload (8 + 256 * i) 256)) x.blocks }) (taken r s)))) ∧
  (∀ (r : Req) (x : Camp) (s : State), Served campTargetsAddService r s = true → camp? s (rd r.payload 0 1) = some x → zeroAt r.payload 1 1 = true →
    rd r.payload 2 2 ≤ 4000 → r.payload.length = 4 + 16 * rd r.payload 2 2 →
    firstBadTgt s x r.payload (rd r.payload 2 2) [] 0 = none → x.state = .open_ ∨ x.state = .running ∨ x.state = .paused →
    ((List.range (rd r.payload 2 2)).filter (issues s x r.payload)).length = 0 → x.targets.length + rd r.payload 2 2 ≤ 1048576 →
    targetsHeld s + rd r.payload 2 2 ≤ 2097152 → x.kind ≠ kindSwitch →
    exec (.campTargetsAdd r) s = .next (answer 0x0702 r .ok [] (settle (rd r.payload 0 1)
      ((List.range (rd r.payload 2 2)).foldl (addTarget (rd r.payload 0 1) r.payload) (taken r s))))) ∧
  (∀ (r : Req) (x : Camp) (i : Nat) (s : State), Served campTargetsAddService r s = true → camp? s (rd r.payload 0 1) = some x → zeroAt r.payload 1 1 = true →
    rd r.payload 2 2 ≤ 4000 → r.payload.length = 4 + 16 * rd r.payload 2 2 → firstBadTgt s x r.payload (rd r.payload 2 2) [] 0 = some i →
    exec (.campTargetsAdd r) s = .next (answer 0x0702 r .badParam (idxPayload i) (taken r s))) ∧
  (∀ (r : Req) (x : Camp) (s : State), Served campStartService r s = true → zeroAt r.payload 1 3 = true → camp? s (rd r.payload 0 1) = some x →
    x.state = .open_ → ledgerOk s = true → contentKind x.kind = true → contentComplete x = true →
    exec (.campStart r) s = .next (if Config.sha256 (objectBytes x) = x.digest
      then answer 0x0703 r .ok [] (settle (rd r.payload 0 1) (setCampState (rd r.payload 0 1) .running (taken r s)))
      else answer 0x0703 r .authFail [] (taken r s))) ∧
  (∀ (r : Req) (x : Camp) (s : State), Served campStartService r s = true → zeroAt r.payload 1 3 = true → camp? s (rd r.payload 0 1) = some x →
    x.state = .open_ → ledgerOk s = true → contentKind x.kind = false →
    exec (.campStart r) s = .next (answer 0x0703 r .ok [] (settle (rd r.payload 0 1) (setCampState (rd r.payload 0 1) .running (taken r s))))) ∧
  (∀ (r : Req) (x : Camp) (s : State), Served campPauseService r s = true → zeroAt r.payload 1 3 = true → camp? s (rd r.payload 0 1) = some x →
    x.state = .running → ledgerOk s = true →
    exec (.campPause r) s = .next (answer 0x0704 r .ok [] (setCampState (rd r.payload 0 1) .paused (taken r s)))) ∧
  (∀ (r : Req) (x : Camp) (s : State), Served campResumeService r s = true → zeroAt r.payload 1 3 = true → camp? s (rd r.payload 0 1) = some x →
    x.state = .paused → x.contentLost = false → ledgerOk s = true →
    exec (.campResume r) s = .next (answer 0x0705 r .ok [] (settle (rd r.payload 0 1) (setCampState (rd r.payload 0 1) .running
      (updCamp (rd r.payload 0 1) (fun x => { x with contentLost := false }) (taken r s)))))) ∧
  (∀ (r : Req) (x : Camp) (s : State), Served campCancelService r s = true → zeroAt r.payload 1 3 = true → camp? s (rd r.payload 0 1) = some x →
    x.state = .open_ → jnlTakes (1 + returnsOf x) s = true →
    exec (.campCancel r) s = .next (answer 0x0706 r .ok [] (answer 0x0706 r .pending []
      (setCampState (rd r.payload 0 1) .cancelled (endWaiting (rd r.payload 0 1) .cancelled (taken r s)))))) ∧
  (∀ (r : Req) (x : Camp) (s : State), Served campCancelService r s = true → zeroAt r.payload 1 3 = true → camp? s (rd r.payload 0 1) = some x →
    x.state = .cancelling →
    exec (.campCancel r) s = .next (begun 0x0706 r [] (updCamp (rd r.payload 0 1)
      (fun x => { x with cancels := x.cancels ++ [(taken r s).nextOp] }) (taken r s)))) ∧
  (∀ (r : Req) (x : Camp) (s : State), Served campCancelService r s = true → zeroAt r.payload 1 3 = true → camp? s (rd r.payload 0 1) = some x →
    x.state = .done ∨ x.state = .cancelled → exec (.campCancel r) s = .next (answer 0x0706 r .badState [] (taken r s))) ∧
  (∀ (r : Req) (x : Camp) (s : State), Served campStatusGetService r s = true → zeroAt r.payload 1 3 = true → camp? s (rd r.payload 0 1) = some x →
    exec (.campStatusGet r) s = .next (answer 0x0707 r .ok (campStatus x) (taken r s))) ∧
  (∀ (r : Req) (x : Camp) (s : State), Served campTargetGetService r s = true → zeroAt r.payload 1 1 = true → camp? s (rd r.payload 0 1) = some x →
    rd r.payload 6 2 ≤ 256 → 0 < rd r.payload 6 2 → rd r.payload 2 4 + rd r.payload 6 2 ≤ x.targets.length →
    exec (.campTargetGet r) s = .next (answer 0x0708 r .ok
      ((((x.targets.drop (rd r.payload 2 4)).take (rd r.payload 6 2)).map (tgtRecord (taken r s) x)).flatten) (taken r s))) ∧
  (∀ (r : Req) (x : Camp) (s : State), Served campReleaseService r s = true → zeroAt r.payload 1 3 = true → camp? s (rd r.payload 0 1) = some x →
    x.state = .done ∨ x.state = .cancelled →
    exec (.campRelease r) s = .next (answer 0x0709 r .ok [] { taken r s with camps := tdel s.camps (rd r.payload 0 1) })) ∧
  (∀ (r : Req) (x : Camp) (s : State), Served campReleaseService r s = true → zeroAt r.payload 1 3 = true → camp? s (rd r.payload 0 1) = some x →
    x.state = .open_ ∨ x.state = .running ∨ x.state = .paused ∨ x.state = .cancelling →
    exec (.campRelease r) s = .next (answer 0x0709 r .badState [] (taken r s))) ∧
  (∀ (r : Req) (h : Nat) (e : Endpoint) (s : State), Served switchFaultClearService r s = true → handleWord r.payload 0 = some h → ep? s h = some e →
    exec (.switchFaultClear r) s = .next (if e.switchFault
      then answer 0x070A r .ok [] (updEp h (fun e => { e with switchFault := false }) (taken r s))
      else answer 0x070A r .badState [] (taken r s))) ∧
  (∀ (c : Nat) (st : CampState) (x : Camp) (s : State), camp? s c = some x →
    camp? (setCampState c st s) c = some { x with state := st } ∧ (setCampState c st s).evt.pend.getLsbD 0x70 = true)

/-- R324 to R340, R473 to R479: attempts, waits, sessions, feedback and the gate. It concludes that exec answers a next state, under conditions on the
state and operands alone, for: stepAttempt, confWaitEnd, campDeadline, sessionPlan, multicastFrame, switchFbTimeout, gateRelease. -/
def Obligations.CampaignEngineEffects : Prop :=
  (∀ (c h : Nat) (v : Power) (e : Endpoint) (s : State), ep? s h = some e → stepIs s c h = true → e.plc = false → e.air = .connected →
    exec (.stepAttempt c ⟨h, v⟩) s = .next (connectionEvent h v s)) ∧
  (∀ (c h : Nat) (v : Power) (e : Endpoint) (o : DlOpp) (s : State), ep? s h = some e → stepIs s c h = true → e.plc = false → e.air ≠ .connected →
    (secp s e.lastPort).dlOpp.find? (fun o => o.handle == h) = some o →
    exec (.stepAttempt c ⟨h, v⟩) s = .next (downlinkTx e.lastPort h (max s.now (o.endTime + tMs 20)) s)) ∧
  (∀ (c h : Nat) (v : Power) (e : Endpoint) (x : PlcTxn) (s : State), ep? s h = some e → stepIs s c h = true → e.plc = true → nextTxn s e.port = some x →
    x.handle = h → x.camp = some c → exec (.stepAttempt c ⟨h, v⟩) s = .next (transactionStart (groupId s e.port) s.now s)) ∧
  (∀ (c h : Nat) (x : Camp) (t : Target) (e : Endpoint) (s : State), camp? s c = some x → tgt? s c h = some t → ep? s h = some e → t.state = .sent →
    x.state = .running → x.deadline = 0 → t.notAfter = 0 → t.attempts < x.retryMax →
    exec (.confWaitEnd c h) s = .next (settle c (backToWaiting c h (advMono t.waitDue s)))) ∧
  (∀ (c h : Nat) (x : Camp) (t : Target) (e : Endpoint) (s : State), camp? s c = some x → tgt? s c h = some t → ep? s h = some e → t.state = .sent →
    x.state = .running → x.deadline = 0 → t.notAfter = 0 → x.retryMax ≤ t.attempts → bySession x e = false →
    exec (.confWaitEnd c h) s = .next (settle c (failTarget c h (advMono t.waitDue s)))) ∧
  (∀ (c : Nat) (x : Camp) (s : State), camp? s c = some x → x.deadline ≠ 0 → jnlTakes (1 + returnsOf x) (advTo (tSec x.deadline) s) = true → x.state = .open_ →
    exec (.campDeadline c) s = .next (setCampState c .cancelled (endWaiting c .expired (advTo (tSec x.deadline) s)))) ∧
  (∀ (c : Nat) (x : Camp) (s : State), camp? s c = some x → x.deadline ≠ 0 → jnlTakes (1 + returnsOf x) (advTo (tSec x.deadline) s) = true → x.state = .running ∨ x.state = .paused →
    exec (.campDeadline c) s = .next (settle c (endWaiting c .expired (advTo (tSec x.deadline) s)))) ∧
  (∀ (c p ch : Nat) (x : Camp) (s : State), camp? s c = some x → p < 8 → stepsRun s = true → wantsSession s p x = true → sessionTurn s c p x = true →
    (portTargets s x p).any (fun t => t.cmd == 0x12) = false → x.ended.toNat < pval s 0x7003 → x.nextIdx + sessionFrames s x ≤ 65535 →
    sessionChannel s p = some ch →
    exec (.sessionPlan c p) s = .next ((portTargets s x p).foldl (fun s t => toNextSession c t.handle s) (updCamp c (fun x' => { x' with sessions := tset x'.sessions p { no := x.sessionNo + 1, targets := (portTargets s x p).map (fun t => t.handle), ts := s.now + tSec (pval s 0x7001), first := x.nextIdx, channel := ch, frames := sessionFrames s x }, sessionNo := x'.sessionNo + 1, nextIdx := x'.nextIdx + sessionFrames s x }) s))) ∧
  (∀ (c p : Nat) (v : Power) (x : Camp) (y : Session) (s : State), camp? s c = some x → tfind x.sessions p = some y → y.begun = false →
    x.state ≠ .running → exec (.multicastFrame c p v) s = .next (sessionVoid c p y (advTo (y.ts + y.next * tMs x.gapMs) s))) ∧
  (∀ (c p : Nat) (v : Power) (x : Camp) (y : Session) (s : State), camp? s c = some x → tfind x.sessions p = some y → y.begun = true →
    x.state = .running ∨ x.state = .paused → y.ts + y.next * tMs x.gapMs + tMs x.gapMs / 4 < s.now →
    exec (.multicastFrame c p v) s = .next (slotOver c p y false s)) ∧
  (∀ (c p : Nat) (v : Power) (x : Camp) (y : Session) (k : KSlot) (s s0 s1 : State), camp? s c = some x → tfind x.sessions p = some y → y.begun = true →
    x.state = .running ∨ x.state = .paused → y.ts + y.next * tMs x.gapMs ≤ s.now → s.now ≤ y.ts + y.next * tMs x.gapMs + tMs x.gapMs / 4 →
    stepsRun s = true → sessionListen c p y (chanEdges (bandOf s p) y.channel) v s = (true, s0) →
    s0.now ≤ y.ts + y.next * tMs x.gapMs + tMs x.gapMs / 4 →
    txRule s0 p y.channel (chanEdges (bandOf s p) y.channel) .downlink (sunUs (secVal s p 3) 291)
      (airBusy s0 p s0.now (sunUs (secVal s p 3) 291) || ackInWay s0 p s0.now (sunUs (secVal s p 3) 291)) = none →
    useSlot x.groupSlot (uEncrypt + uMac) s0 = (s1, some k) →
    exec (.multicastFrame c p v) s = .next (slotOver c p y true
      (startTx p y.channel (chanEdges (bandOf s p) y.channel) .downlink p (sunUs (secVal s p 3) 291) 0 []
        [.air p y.channel (enginePpdu s1 (secVal s p 3) (downFrame x.groupAddr 3 false [] k.key x.mcast (blockCmd c x (y.first + y.next))))] s1))) ∧
  (∀ (c h due : Nat) (t : Target) (s : State), tgt? s c h = some t → t.fbDue = some due → t.feedback = 0xFF → ledgerOk (advMono due s) = true →
    exec (.switchFbTimeout c h) s = .next (settle c (fbTake h (c, t, 2) (commitOne (ledgerEntry (.switchResult h t.seq.toNat 2 0)) (advMono due s))))) ∧
  (∀ (g : GateFrame) (t : Target) (s : State), s.safe.due = some g → tgt? s g.camp g.handle = some t → pairRuns s = true → s.safe.state = .armed → s.safe.proof = none →
    g.frameA = g.frameB → s.now = g.due → g.tokA = g.tokB → secs s ≤ g.notAfter → ledgerOk s = true → s.fw.pause = none → gateMedium s g = true →
    exec (.gateRelease true { tokenBad := false, sealBad := false }) s = .next (gateOpen g t.swState s)) ∧
  (∀ (g : GateFrame) (u : GateUpset) (t : Target) (s : State), s.safe.due = some g → tgt? s g.camp g.handle = some t → pairRuns s = true → s.safe.state = .armed →
    g.frameA = g.frameB → u.sealBad = false → u.tokenBad = true ∨ g.tokA ≠ g.tokB ∨ g.notAfter < secs s ∨ s.now ≠ g.due →
    exec (.gateRelease true u) s = .next (gateRefuse g s)) ∧
  (∀ (g : GateFrame) (u : GateUpset) (t : Target) (s : State), s.safe.due = some g → tgt? s g.camp g.handle = some t → pairRuns s = true → s.safe.state = .armed →
    exec (.gateRelease false u) s = .next (gateRefuse g (safetyFault 4 s)))

/-- R301 to R318, R288: closes, revisions, zones, the balance stream and restored pages. It concludes that exec answers a next state, under conditions
on the state and operands alone, for: intervalClose, revisionPost, unzonedPost, horizonAdvance, zoneLoad, zoneDrop, zoneTolSet, zoneGet, scoreReset,
balExportStart, balConfirm, balRewind, balStatusGet, ledgerRestoreStart, restorePageReceive. -/
def Obligations.BalanceEffects : Prop :=
  (∀ (z : Nat) (x : Zone) (s u : State), zone? s z = some x → x.lost = false → trusted s = true →
    u = bringHorizon (advTo (tSec (x.lastEnd + x.len + 60 * x.settleMin)) s) → nextDue u = some (x.lastEnd + x.len, z) →
    exec (.intervalClose z (x.lastEnd + x.len)) s = .next (closeInterval z x.lastEnd false u)) ∧
  (∀ (z a : Nat) (x : Zone) (s : State), zone? s z = some x → ∃ x' r, zone? (closeInterval z a false s) z = some x' ∧ x'.lastEnd = a + x.len ∧
    (1 < ivalStatus s x a → x'.score = x.score) ∧ (x.score ≤ 65535 → x'.score ≤ 65535) ∧ r ∈ (closeInterval z a false s).bal.held ∧
    r.seq = s.bal.seq + 1 ∧ r.rtype = 1 ∧ r.zone = z ∧ r.start = a ∧ r.stop = a + x.len ∧ r.status = ivalStatus s x a ∧
    r.c = sumKnown s x.checks a x.len ∧ r.delta = r.c - r.m ∧ r.t = tolerance x r.c) ∧
  (∀ (z a t : Nat) (x : Zone) (s : State), zone? s z = some x → (ival x a).changedAt = some t →
    exec (.revisionPost z (some a)) s = .next (if a < (bringHorizon (advMono (t + tSec (pval s 0x6002)) s)).bal.horizon
      then bringHorizon (advMono (t + tSec (pval s 0x6002)) s)
      else postRevision z a false (bringHorizon (advMono (t + tSec (pval s 0x6002)) s)))) ∧
  (∀ (z : Nat) (x : Zone) (a : Aged) (s : State), zone? s z = some x → x.aged = some a →
    exec (.revisionPost z none) s = .next (postAged z (bringHorizon (advMono (a.first + tSec (pval s 0x6002)) s)))) ∧
  (∀ (z a : Nat) (rerun : Bool) (x : Zone) (s : State), zone? s z = some x →
    ∃ x', zone? (postRevision z a rerun s) z = some x' ∧ (ival x' a).revision = min 255 ((ival x a).revision + 1) ∧ (ival x' a).readings = 0 ∧
      (ival x' a).changedAt = none ∧ (postRevision z a rerun s).bal.seq = s.bal.seq + 1) ∧
  (∀ (start : Nat) (s : State), start % 900 = 0 → start ≤ secs s →
    (s.bal.unzonedEnd ≤ start ∧ secs (advTo (tSec (start + 900)) s) < start + 1800) ∨ 0 < tget s.bal.unzoned start 0 → ∃ t r, exec (.unzonedPost start) s = .next t ∧ t.bal.seq = s.bal.seq + 1 ∧
    r ∈ t.bal.held ∧ r.rtype = 6 ∧ r.zone = 0xFFFF ∧ r.start = start ∧ r.stop = start + 900 ∧ r.readings = tget s.bal.unzoned start 0) ∧
  (∀ (s : State), ∃ t, exec .horizonAdvance s = .next t ∧ t.bal.horizon = secs t / 900 * 900 - 86400) ∧
  (∀ (r : Req) (s : State), Served zoneLoadService r s = true → zoneHeaderOk r.payload = true → zone? s (rd r.payload 0 2) = none →
    (List.range (rd r.payload 52 1 + rd r.payload 54 2)).find? (fun i =>
      meterBad s r.payload (rd r.payload 0 2) (rd r.payload 6 1) (rd r.payload 48 4) (decide (i < rd r.payload 52 1)) i ||
      (((List.range (rd r.payload 52 1 + rd r.payload 54 2)).map (fun i => (meterAt r.payload i).handle)).take i).contains
        (((List.range (rd r.payload 52 1 + rd r.payload 54 2)).map (fun i => (meterAt r.payload i).handle)).getD i 0)) = none →
    memberEntries s + rd r.payload 54 2 ≤ 1048576 →
    exec (.zoneLoad r) s = .next (answer 0x0600 r .ok [] (bringHorizon { taken r s with bal := { s.bal with zones := tset s.bal.zones (rd r.payload 0 2) (zoneOf r.payload (secs s)) } }))) ∧
  (∀ (r : Req) (s : State), Served zoneLoadService r s = true → zoneHeaderOk r.payload = false →
    exec (.zoneLoad r) s = .next (answer 0x0600 r .badParam [] (taken r s))) ∧
  (∀ (r : Req) (x : Zone) (s : State), Served zoneDropService r s = true → zone? s (rd r.payload 0 2) = some x → zeroAt r.payload 2 2 = true →
    ∃ u, u = dropIntervals (rd r.payload 0 2) (openIntervals s x) (taken r s) ∧
      exec (.zoneDrop r) s = .next (answer 0x0601 r .ok [] { u with bal := { u.bal with zones := tdel u.bal.zones (rd r.payload 0 2) } })) ∧
  (∀ (r : Req) (x : Zone) (s : State), Served zoneTolSetService r s = true → zone? s (rd r.payload 0 2) = some x → 0 < rd r.payload 2 2 →
    rd r.payload 4 8 < 2 ^ 48 → rd r.payload 12 4 ≤ 1000000 →
    exec (.zoneTolSet r) s = .next (answer 0x0602 r .ok [] (updZone (rd r.payload 0 2) (fun x =>
      { x with alert := rd r.payload 2 2, tolF := rd r.payload 4 8, tolP := rd r.payload 12 4, tolQ := rd r.payload 16 4 }) (taken r s)))) ∧
  (∀ (r : Req) (x : Zone) (s : State), Served zoneGetService r s = true → zone? s (rd r.payload 0 2) = some x → zeroAt r.payload 2 2 = true →
    exec (.zoneGet r) s = .next (answer 0x0603 r .ok (zoneHeader (rd r.payload 0 2) x ++ le 1 (b2n x.lost) ++ le 1 0 ++ le 2 x.score ++
      le 2 (openIntervals s x) ++ le 2 0 ++ le 4 x.postedEnd) (taken r s))) ∧
  (∀ (r : Req) (x : Zone) (s : State), Served scoreResetService r s = true → zone? s (rd r.payload 0 2) = some x → zeroAt r.payload 2 2 = true →
    exec (.scoreReset r) s = .next (answer 0x0604 r .ok [] (updZone (rd r.payload 0 2) (fun x => { x with score := 0 }) (taken r s)))) ∧
  (∀ (r : Req) (s : State), Served balExportStartService r s = true → rd r.payload 0 1 < 32 → zeroAt r.payload 1 3 = true → s.bal.chan = none →
    bindCheck (rd r.payload 0 1) s = none →
    exec (.balExportStart r) s = .next (answer 0x0605 r .ok [] (bindChan (rd r.payload 0 1) .balance
      { taken r s with bal := { s.bal with chan := some (rd r.payload 0 1) } }))) ∧
  (∀ (r : Req) (s : State), Served balConfirmService r s = true →
    exec (.balConfirm r) s = .next (if rd r.payload 0 4 ≤ s.bal.conf then answer 0x0606 r .ok [] (taken r s)
      else if balLastWritten s < rd r.payload 0 4 then answer 0x0606 r .badParam [] (taken r s)
      else
        let s1 := if (s.bal.held.find? (fun x => !x.written)).any (fun x => x.seq ≤ rd r.payload 0 4)
          then streamAnew .balance { taken r s with bal.offset := 0 } else taken r s
        answer 0x0606 r .ok [] { s1 with bal.conf := rd r.payload 0 4, bal.held := s1.bal.held.filter (fun x => rd r.payload 0 4 < x.seq) })) ∧
  (∀ (r : Req) (s : State), Served balRewindService r s = true →
    exec (.balRewind r) s = .next (if rd r.payload 0 4 ≤ s.bal.conf ∨ balLastWritten s < rd r.payload 0 4 then answer 0x0607 r .badParam [] (taken r s)
      else answer 0x0607 r .ok [] { streamAnew .balance (taken r s) with bal := { s.bal with offset := 0, held := s.bal.held.map (fun x => if rd r.payload 0 4 ≤ x.seq then { x with written := false } else x) } })) ∧
  (∀ (r : Req) (s : State), Served balStatusGetService r s = true →
    exec (.balStatusGet r) s = .next (answer 0x0609 r .ok (balStatus (taken r s)) (taken r s))) ∧
  (∀ (r : Req) (s : State), Served ledgerRestoreStartService r s = true → rd r.payload 0 1 < 32 → zeroAt r.payload 1 3 = true →
    s.ledger.restoreChan = none → bindCheck (rd r.payload 0 1) s = none →
    exec (.ledgerRestoreStart r) s = .next (answer 0x0505 r .ok [] (rebuildRestored (taken r s) (checkRestoreDone (restoreUnconfirmed
      (bindChan (rd r.payload 0 1) .restore { taken r s with ledger := { s.ledger with restoreChan := some (rd r.payload 0 1), restore := 1, pending := some (pendingPages s) } })))))) ∧
  (∀ (p key : List Byte) (s u : State), restoreOpen s = true → s.ledger.restoreDue ≠ 0 → u = { s with ledger.restoreDue := s.ledger.restoreDue - 1 } → p.length = 4096 → rd p 0 2 = 1 → isPending s (rd p 2 2) = true →
    rd p 4 4 = confVer s (rd p 2 2) → domainKey .ledger s = some key →
    exec (.restorePageReceive p) s = .next (rebuildRestored s (match Config.gcmOpen key (slice p 28 12) (p.take 112) (p.drop 128 ++ slice p 112 16) with
      | none => rejectPage p u
      | some body => checkRestoreDone (((bodySlots (rd p 20 2) body).zip (List.range 16)).foldl
          (fun s x => restoreSlot (16 * rd p 2 2 + x.2) x.1 (rd p 16 4) s)
          { u with ledger.pending := some ((pendingPages s).filter (· != rd p 2 2)) })))) ∧
  (∀ (p : List Byte) (s : State), restoreOpen s = true → s.ledger.restoreDue ≠ 0 → p.length ≠ 4096 ∨ rd p 0 2 ≠ 1 ∨ isPending s (rd p 2 2) = false →
    exec (.restorePageReceive p) s = .next (rebuildRestored s (rejectPage p { s with ledger.restoreDue := s.ledger.restoreDue - 1 })))

/-- R236 to R261: the pipeline. It concludes that exec answers a next state, under conditions on the state and operands alone, for:
journalGroupCommit, jnlFullWaitExpiry, bundleTimeout, bundleSigned, profileSet, profileGet, provListAdd, provListClear, exportStart, exportStop,
exportConfirm, exportFlush, pipeStatusGet, exportRewind. -/
def Obligations.PipelineEffects : Prop :=
  (∀ (id : Nat) (bad : List Nat) (f : Frame) (e : Endpoint) (acc : GroupAcc) (s u : State), u = { s with jnv.bad := s.jnv.bad ++ bad } →
    frame? s id = some f → ep? s f.handle = some e → f.stage = .commit → cannotUse s f.handle = false → s.cfg.lastTc ≤ f.endTime →
    acc = commitPayload f e u → jnlTakesFrame (acc.entries ++ causedEntries f acc u).length u = true →
    exec (.journalGroupCommit id bad) s = .next (groupDone f s.jnv.head acc.values (jnlGroup (acc.entries ++ causedEntries f acc u) acc.st))) ∧
  (∀ (id : Nat) (f : Frame) (e : Endpoint) (acc : GroupAcc) (s : State), frame? s id = some f → ep? s f.handle = some e → f.stage = .commit →
    cannotUse s f.handle = false → s.cfg.lastTc ≤ f.endTime → acc = commitPayload f e s →
    jnlTakesFrame (acc.entries ++ causedEntries f acc s).length s = false → s.jnl.state ≠ .normal →
    exec (.journalGroupCommit id []) s = .next (waitJournal f s)) ∧
  (∀ (id : Nat) (f : Frame) (e : Endpoint) (s : State), frame? s id = some f → ep? s f.handle = some e → f.stage = .commit →
    cannotUse s f.handle = false → f.endTime < s.cfg.lastTc →
    exec (.journalGroupCommit id []) s = .next { commitFrame f e { s with cfg.vals := s.cfg.old, cfg.profiles := s.cfg.oldProfiles } with
      cfg.vals := s.cfg.vals, cfg.profiles := s.cfg.profiles }) ∧
  (∀ (f : Frame) (e : Endpoint) (s : State), f.plain = [] → f.badLen = false →
    commitPayload f e s = { st := s, entries := [handleEntry f.handle (.frame f.handle f.fcnt false (prBit s f.handle))] }) ∧
  (∀ (f : Frame) (e : Endpoint) (s : State), f.badLen = true → commitPayload f e s =
    { st := place_ f.handle (f.endTime / 2 ^ 24) (trusted s) false (noteMalformed s), entries := [malformedEntry f.handle f e s] }) ∧
  (∀ (id t : Nat) (f : Frame) (s : State), frame? s id = some f → f.stage = .journal t → s.jnl.state ≠ .normal →
    ∃ u, u = advMono (t + tMs (pval s 0x5805)) s ∧ exec (.jnlFullWaitExpiry id) s = .next (frameDone f
      { u with prov := { u.prov with waitDisc := s.prov.waitDisc + 1 } })) ∧
  (∀ (b : Bundle) (s : State), s.prov.open_ = some b →
    exec (.bundleTimeout false) s = .next (closeOpen (advTo (b.openTime + tSec (pval s 0x5802)) s))) ∧
  (∀ (b : Bundle) (s : State), s.prov.openOvf = some b →
    exec (.bundleTimeout true) s = .next (closeOpenOvf (advTo (b.openTime + tSec (pval s 0x5802)) s))) ∧
  (∀ (b0 b : Bundle) (s : State), nextToSign s = some b0 → b = toSign b0 s → islUp s 30 = true → jnlTakes 1 s = true →
    exec .bundleSigned s = .next (match signWith b.slot (bundleHeader b) (prSignDue b s) with
      | (s1, none) => if s.prov.stopped then s else raise 0x5A { s1 with prov := { s1.prov with stopped := true } }
      | (s1, some (sig, _)) => placeSigned { b with sig := sig } (setStopped false (dropSigned s1)))) ∧
  (∀ (r : Req) (s : State), Served profileSetService r s = true → rd r.payload 0 1 ≤ 63 → zeroAt r.payload 1 3 = true →
    ((List.range 16).map (fun i => readQEntry r.payload (4 + 24 * i))).all qEntryOk = true →
    (kind1Keys ((List.range 16).map (fun i => readQEntry r.payload (4 + 24 * i)))).length ≤ 4 →
    (s.eps.any (fun e => e.2.profile == rd r.payload 0 1) && changesKind1 (kind1Keys (profileEntries s (rd r.payload 0 1)))
      (kind1Keys ((List.range 16).map (fun i => readQEntry r.payload (4 + 24 * i))))) = false →
    exec (.profileSet r) s = .next (answer 0x0580 r .ok [] ((List.range 16).foldl (fun s i =>
      { s with prov := { s.prov with profiles := tset s.prov.profiles (16 * rd r.payload 0 1 + i) (readQEntry r.payload (4 + 24 * i)) } })
      (keepProfile (rd r.payload 0 1) (taken r s))))) ∧
  (∀ (r : Req) (s : State), Served profileGetService r s = true → rd r.payload 0 1 ≤ 63 → zeroAt r.payload 1 3 = true →
    exec (.profileGet r) s = .next (answer 0x0581 r .ok ((profileEntries s (rd r.payload 0 1)).map qEntryBytes).flatten (taken r s))) ∧
  (∀ (r : Req) (s : State), Served provListAddService r s = true → zeroAt r.payload 2 2 = true →
    firstBad (fun h => 2 ^ 20 ≤ h || !thas s.eps h) (listedHandles r.payload) 0 = none →
    (List.range (listedHandles r.payload).length).find? (fun (i : Nat) => decide (4096 < (((listedHandles r.payload).take (i + 1)).foldl (fun (l : List Nat) h => if l.contains h then l else l ++ [h]) s.prov.list).length)) = none →
    exec (.provListAdd r) s = .next (answer 0x0582 r .ok [] { taken r s with prov := { s.prov with list := (listedHandles r.payload).foldl (fun (l : List Nat) h => if l.contains h then l else l ++ [h]) s.prov.list } })) ∧
  (∀ (r : Req) (i : Nat) (s : State), Served provListAddService r s = true → zeroAt r.payload 2 2 = true →
    firstBad (fun h => 2 ^ 20 ≤ h || !thas s.eps h) (listedHandles r.payload) 0 = some i →
    exec (.provListAdd r) s = .next (answer 0x0582 r .badParam (idxPayload i) (taken r s))) ∧
  (∀ (r : Req) (i : Nat) (s : State), Served provListAddService r s = true → zeroAt r.payload 2 2 = true →
    firstBad (fun h => 2 ^ 20 ≤ h || !thas s.eps h) (listedHandles r.payload) 0 = none →
    (List.range (listedHandles r.payload).length).find? (fun (i : Nat) => decide (4096 < (((listedHandles r.payload).take (i + 1)).foldl (fun (l : List Nat) h => if l.contains h then l else l ++ [h]) s.prov.list).length)) = some i →
    exec (.provListAdd r) s = .next (answer 0x0582 r .noResource (idxPayload i) (taken r s))) ∧
  (∀ (r : Req) (s : State), Served provListClearService r s = true →
    exec (.provListClear r) s = .next (answer 0x0583 r .ok [] { taken r s with prov := { s.prov with list := [] } })) ∧
  (∀ (r : Req) (s : State), Served exportStartService r s = true → rd r.payload 0 1 < 32 → zeroAt r.payload 1 3 = true → s.prov.chan = none →
    bindCheck (rd r.payload 0 1) s = none →
    exec (.exportStart r) s = .next (answer 0x0584 r .ok [] (bindChan (rd r.payload 0 1) .exports
      { taken r s with prov := { s.prov with chan := some (rd r.payload 0 1) } }))) ∧
  (∀ (r : Req) (c : Nat) (s : State), Served exportStopService r s = true → s.prov.chan = some c →
    exec (.exportStop r) s = .next (if exportBusy c s then begun 0x0585 r [.channel c] { taken r s with prov := { s.prov with stopping := some (taken r s).nextOp } }
      else answer 0x0585 r .ok [] (answer 0x0585 r .pending [] (unbindChan c { taken r s with prov := { s.prov with chan := none } })))) ∧
  (∀ (r : Req) (s : State), Served exportConfirmService r s = true →
    exec (.exportConfirm r) s = .next (if rd r.payload 0 4 ≤ s.roots.bseqConf then answer 0x0586 r .ok [] (taken r s)
      else if lastWritten s < rd r.payload 0 4 then answer 0x0586 r .badParam [] (taken r s)
      else answer 0x0586 r .ok [] (confirmBundles (rd r.payload 0 4)
        (if (nextBundle s.prov.signed).any (fun b => b.bseq ≤ rd r.payload 0 4)
          then exportStopped (streamAnew .exports { taken r s with prov.offset := 0 }) else taken r s)))) ∧
  (∀ (r : Req) (s : State), Served exportFlushService r s = true →
    exec (.exportFlush r) s = .next (answer 0x0587 r .ok [] (closeOpenOvf (closeOpen (taken r s))))) ∧
  (∀ (r : Req) (s : State), Served pipeStatusGetService r s = true →
    exec (.pipeStatusGet r) s = .next (answer 0x0588 r .ok (pipeStatus (taken r s)) (taken r s))) ∧
  (∀ (r : Req) (s : State), Served exportRewindService r s = true →
    exec (.exportRewind r) s = .next (if rd r.payload 0 4 ≤ s.roots.bseqConf ∨ lastWritten s < rd r.payload 0 4 then answer 0x0589 r .badParam [] (taken r s)
      else answer 0x0589 r .ok [] { streamAnew .exports (taken r s) with prov := { s.prov with offset := 0, signed := s.prov.signed.map (fun b => if rd r.payload 0 4 ≤ b.bseq then { b with written := false } else b) } }))

/-- R267 to R297: the ledger's engine and the calendar opcodes. It concludes that exec answers a next state, under conditions on the state and
operands alone, for: calTransition, ledgerSweep, stmtBundleTimeout, ledgerSeal, durabilityExpiry, pwrfailAssert, pwrfailDeassert, displayScreen,
displayRetry, calLoad, calGet, tariffAssign, periodCloseNow, ledgerPageLost. -/
def Obligations.LedgerEngineEffects : Prop :=
  (∀ (k t : Nat) (s : State), idxHeld s k = true → trusted s = true → (calRoot s k).lastApplied < t →
    anyKind (kindsAt (advTo (tSec t) s) k t) = true → ledgerOk (advTo (tSec t) s) = true → nextCarried (advTo (tSec t) s) k t = some t →
    exec (.calTransition k t) s = .next (transition k t (kindsAt (advTo (tSec t) s) k t) false false (advTo (tSec t) s))) ∧
  (∀ (k t jseq : Nat) (x : Kinds) (s : State), x.close = true → x.activate = false →
    (calRoot (transApply k t jseq x false s) k).cseq = (calRoot s k).cseq + 1 ∧
    (calRoot (transApply k t jseq x false s) k).lastApplied = max (calRoot s k).lastApplied t ∧
    (transApply k t jseq x false s).evt.pend.getLsbD 0x53 = true) ∧
  (∀ (k n from_ h : Nat) (s : State), tfind s.ledger.sweeps k = some from_ → (sweepNext s k from_ n).getLast? = some h → (sweepNext s k (h + 1) 1) = [] →
    ∃ u, u = (sweepNext s k from_ n).foldl (fun s h => evalEp h (secs s) s) (sweepTime (sweepNext s k from_ n).length s) ∧
      exec (.ledgerSweep k n) s = .next { u with ledger := { u.ledger with sweeps := tdel u.ledger.sweeps k } }) ∧
  (∀ (k n from_ h : Nat) (s : State), tfind s.ledger.sweeps k = some from_ → (sweepNext s k from_ n).getLast? = some h → (sweepNext s k (h + 1) 1) ≠ [] →
    ∃ u, u = (sweepNext s k from_ n).foldl (fun s h => evalEp h (secs s) s) (sweepTime (sweepNext s k from_ n).length s) ∧
      exec (.ledgerSweep k n) s = .next { u with ledger := { u.ledger with sweeps := tset u.ledger.sweeps k (h + 1) } }) ∧
  (∀ (b : Bundle) (s : State), s.ledger.stmtOpen = some b →
    exec .stmtBundleTimeout s = .next (closeStmt (advTo (b.openTime + tSec (pval s 0x5004)) s))) ∧
  (∀ (s u : State), s.jnl.replayed = true → s.fw.pause = none → u = roundAt s.ledger.sealAt (pval s 0x5001) s →
    ∃ dirty, dirty = (s.ledger.pages.filter (fun e => e.2.dirty && !isPending s e.1)).map (·.1) ∧
      exec .ledgerSeal s = .next (dirty.foldl (fun s p => if sealable s p then sealPage p s else s)
        (dirty.foldl (fun s p => (List.range 16).foldl (fun s i => evalEp (16 * p + i) (secs s) s) s)
          { u with ledger.sealAt := some u.mono }))) ∧
  (∀ (p : Nat) (key : List Byte) (s : State), domainKey .ledger s = some key →
    sealedVer (sealPage p s) p = sealedVer s p + 1 ∧ (page (sealPage p s) p).dirty = false ∧ (page (sealPage p s) p).awaiting = true ∧
    (sealPage p s).ledger.exportQ = s.ledger.exportQ ++ [p] ∧ confVer (sealPage p s) p = confVer s p) ∧
  (∀ (p : Nat) (s : State), (page s p).awaiting = true → (page s p).late = false →
    ∃ t, exec (.durabilityExpiry p) s = .next t ∧ (page t p).late = true ∧ (page t p).awaiting = true ∧ t.evt.pend.getLsbD 0x50 = true) ∧
  (∀ (s : State), s.mon.pwrfailN = true → ∃ t, exec .pwrfailAssert s = .next t ∧ t.mon.pwrfailN = false ∧ t.jnl.pwr = true) ∧
  (∀ (s : State), s.mon.pwrfailN = false → s.mon.out.extractLsb' 0 7 ≠ 0 →
    ∃ t, exec .pwrfailDeassert s = .next t ∧ t.mon.pwrfailN = true ∧ t.jnl.pwr = false) ∧
  (∀ (s u : State), (isl s 29).inReset = false → s.ledger.dispRetry = none → u = roundAt s.ledger.dispAt (pval s 0x5011) s → displayCycle u ≠ [] →
    ∃ t text, exec (.displayScreen true) s = .next t ∧ text = (displayCycle u).getD (s.ledger.dispNext % (displayCycle u).length) [] ∧
      t.ledger.screen = text ∧ t.out = .display (pval s 0x5012) (0x40 :: text) :: s.out ∧
      t.ledger.dispNext = (s.ledger.dispNext % (displayCycle u).length + 1) % (displayCycle u).length) ∧
  (∀ (s u : State), (isl s 29).inReset = false → s.ledger.dispRetry = none → u = roundAt s.ledger.dispAt (pval s 0x5011) s → displayCycle u ≠ [] →
    ∃ t, exec (.displayScreen false) s = .next t ∧ t.ledger.screen = s.ledger.screen ∧ t.ledger.dispRetry = some (u.mono + tSec 60)) ∧
  (∀ (m : Nat) (acked : Bool) (s : State), s.ledger.dispRetry = some m → (isl s 29).inReset = false →
    exec (.displayRetry acked) s = .next (displayTry acked { advMono m s with ledger.dispAt := some (advMono m s).mono })) ∧
  (∀ (r : Req) (v : CalVer) (s : State), Served calLoadService r s = true → readCal r.payload = some v → (calRoot s v.index).calId = v.calId →
    loadAs s v (calRoot s v.index).high = .pending → ledgerOk s = true →
    ∃ u, u = updCal v.index (fun c => { c with pending := some v }) (commitOne (ledgerEntry (.calLoad v.index v.calId v.version true)) (taken r s)) ∧
      exec (.calLoad r) s = .next (if calAuth r.payload v s
        then answer 0x0500 r .ok [] (bookDeferred v.index (if trusted u then catchUp v.index (secs s) (!idxHeld s v.index) u else u))
        else answer 0x0500 r .authFail [] (taken r s))) ∧
  (∀ (r : Req) (v : CalVer) (s : State), Served calGetService r s = true → rd r.payload 1 1 = 0 → zeroAt r.payload 2 2 = true →
    (calIdx s (rd r.payload 0 1)).active = some v →
    exec (.calGet r) s = .next (answer 0x0501 r .ok (v.raw.take 64 ++ le 4 (calRoot s (rd r.payload 0 1)).cseq ++
      le 4 (calRoot s (rd r.payload 0 1)).lastApplied) (taken r s))) ∧
  (∀ (r : Req) (xs : List (Nat × Nat × Nat)) (s : State), Served tariffAssignService r s = true → zeroAt r.payload 2 2 = true →
    xs = (List.range (rd r.payload 0 2)).map (assignEntry r.payload) →
    (xs.zip (List.range (rd r.payload 0 2))).find? (fun x => assignBad s x.1) = none → jnlTakes (xs.filter (fun x => match tfind s.eps x.1 with
      | some e => (e.adm == .admitted || e.adm == .suspended) && e.img.cal != x.2.2
      | none => false)).length s = true →
    exec (.tariffAssign r) s = .next (answer 0x0503 r .ok [] (xs.foldl (fun s x => applyAssign x s) (taken r s)))) ∧
  (∀ (r : Req) (u : State) (s : State), Served periodCloseNowService r s = true → zeroAt r.payload 1 3 = true → idxHeld s (rd r.payload 0 1) = true →
    trusted s = true → ledgerOk s = true → u = catchUp (rd r.payload 0 1) (secs s - 1) false (taken r s) →
    (calRoot u (rd r.payload 0 1)).lastApplied < secs s → ledgerOk u = true →
    ∃ w, w = transition (rd r.payload 0 1) (secs s) (kindsAt u (rd r.payload 0 1) (secs s)) true false u ∧
      exec (.periodCloseNow r) s = .next (answer 0x050A r .ok (le 4 (secs s) ++ le 4 (calRoot w (rd r.payload 0 1)).cseq) w)) ∧
  (∀ (r : Req) (p : Nat) (s : State), Served ledgerPageLostService r s = true → p = rd r.payload 0 4 → p < 65536 → isPending s p = true → ledgerOk s = true → closedTop s p < rd r.payload 4 4 →
    ∃ t, exec (.ledgerPageLost r) s = .next (answer 0x0506 r .ok [] (checkRestoreDone ((List.range 16).foldl
      (fun s i => lostRestart (16 * p + i) (rd r.payload 4 4) s) (dirtyPage p t)))) ∧ confVer t p = sealedVer s p ∧ isPending t p = false) ∧
  (∀ (r : Req) (s : State), Served ledgerPageLostService r s = true → rd r.payload 0 4 < 65536 → isPending s (rd r.payload 0 4) = true → ledgerOk s = true →
    rd r.payload 4 4 ≤ closedTop s (rd r.payload 0 4) → ∃ t, exec (.ledgerPageLost r) s = .next (answer 0x0506 r .badState [] t) ∧
      t.roots = s.roots ∧ t.eps = s.eps)

/-- R206, R257, R258, R285, R286, R297, R299: the opcodes of the ledger, its statements, the Granite partition and the display. It concludes that exec
answers a next state, under conditions on the state and operands alone, for: ledgerGet, ledgerExportStart, ledgerConfirm, ledgerPendingGet,
statementStart, statementConfirm, statementRewind, graniteInfoGet, ledgerStatusGet, displayShow. -/
def Obligations.LedgerOpcodeEffects : Prop :=
  (∀ (r : Req) (e : Endpoint) (s : State), Served ledgerGetService r s = true → rd r.payload 0 4 < 1048576 → tfind s.eps (rd r.payload 0 4) = some e →
    exec (.ledgerGet r) s = .next (answer 0x0504 r .ok (le 4 (rd r.payload 0 4) ++ le 1 (admCode e.adm) ++
      le 1 (b2n (isPending s (rd r.payload 0 4 / 16))) ++ le 2 0 ++ imageBytes e.img) (touch (rd r.payload 0 4) (taken r s)))) ∧
  (∀ (r : Req) (s : State), Served ledgerGetService r s = true → tfind s.eps (rd r.payload 0 4) = none →
    exec (.ledgerGet r) s = .next (answer 0x0504 r .badParam [] (taken r s))) ∧
  (∀ (r : Req) (s : State), Served ledgerExportStartService r s = true → zeroAt r.payload 1 3 = true → s.ledger.exportChan = none →
    bindCheck (rd r.payload 0 1) s = none → ∃ u, u = bindChan (rd r.payload 0 1) .pages { taken r s with ledger := { s.ledger with exportChan := some (rd r.payload 0 1) } } ∧
      exec (.ledgerExportStart r) s = .next (answer 0x0507 r .ok [] u)) ∧
  (∀ (r : Req) (xs cur : List (Nat × Nat × Nat)) (s : State), Served ledgerConfirmService r s = true → rd r.payload 0 2 ≤ 1024 → zeroAt r.payload 2 2 = true →
    xs = (List.range (rd r.payload 0 2)).map (confirmEntry r.payload) → xs.any (fun x => x.2.1 != 0 || sealedVer s x.1 < x.2.2) = false →
    cur = xs.filter (fun x => x.2.2 == sealedVer s x.1 && x.2.2 != confVer s x.1) →
    (cur = [] → exec (.ledgerConfirm r) s = .next (answer 0x0508 r .ok [] (taken r s))) ∧
    (cur ≠ [] → ∃ u, u = cur.foldl (fun s x => confirmPage x.1 s) (taken r s) ∧
      exec (.ledgerConfirm r) s = .next (answer 0x0508 r .ok [] (release { u with roots := { u.roots with root := ledgerRoot u } })))) ∧
  (∀ (p : Nat) (s : State), confVer (confirmPage p s) p = sealedVer s p ∧ (page (confirmPage p s) p).awaiting = false) ∧
  (∀ (r : Req) (s : State), Served ledgerPendingGetService r s = true → rd r.payload 2 2 ≤ 256 →
    exec (.ledgerPendingGet r) s = .next (answer 0x0509 r .ok
      ((((pendingPages s).filter (rd r.payload 0 2 ≤ ·)).take (rd r.payload 2 2)).map (le 2)).flatten (taken r s))) ∧
  (∀ (r : Req) (s : State), Served statementStartService r s = true → zeroAt r.payload 1 3 = true → s.ledger.stmtChan = none →
    bindCheck (rd r.payload 0 1) s = none → ∃ u, u = bindChan (rd r.payload 0 1) .statements { taken r s with ledger := { s.ledger with stmtChan := some (rd r.payload 0 1) } } ∧
      exec (.statementStart r) s = .next (answer 0x050B r .ok [] u)) ∧
  (∀ (r : Req) (s : State), Served statementConfirmService r s = true → rd r.payload 0 4 ≤ s.roots.sseqConf →
    exec (.statementConfirm r) s = .next (answer 0x050C r .ok [] (taken r s))) ∧
  (∀ (r : Req) (s : State), Served statementConfirmService r s = true → s.roots.sseqConf < rd r.payload 0 4 → rd r.payload 0 4 ≤ stmtLastWritten s →
    ∃ u, exec (.statementConfirm r) s = .next (answer 0x050C r .ok [] u) ∧ u.roots = { s.roots with sseqConf := rd r.payload 0 4 } ∧
      u.ledger.stmtSigned = s.ledger.stmtSigned.filter (fun b => rd r.payload 0 4 < b.bseq)) ∧
  (∀ (r : Req) (s : State), Served statementConfirmService r s = true → s.roots.sseqConf < rd r.payload 0 4 → stmtLastWritten s < rd r.payload 0 4 →
    exec (.statementConfirm r) s = .next (answer 0x050C r .badParam [] (taken r s))) ∧
  (∀ (r : Req) (s : State), Served statementRewindService r s = true → s.roots.sseqConf < rd r.payload 0 4 → rd r.payload 0 4 ≤ stmtLastWritten s →
    ∃ u, exec (.statementRewind r) s = .next (answer 0x050D r .ok [] u) ∧ u.ledger.stmtOffset = 0 ∧ u.roots = s.roots ∧
      u.ledger.stmtSigned = s.ledger.stmtSigned.map (fun b => if rd r.payload 0 4 ≤ b.bseq then { b with written := false } else b)) ∧
  (∀ (r : Req) (s : State), Served graniteInfoGetService r s = true →
    exec (.graniteInfoGet r) s = .next (answer 0x050E r .ok (graniteInfo s) (taken r s))) ∧
  (∀ (r : Req) (s : State), Served ledgerStatusGetService r s = true →
    exec (.ledgerStatusGet r) s = .next (answer 0x0510 r .ok (ledgerStatus s) (taken r s))) ∧
  (∀ (r : Req) (s : State), Served displayShowService r s = true → rd r.payload 4 1 ≤ 3 → zeroAt r.payload 5 1 = true → 10 ≤ rd r.payload 6 2 →
    rd r.payload 6 2 ≤ 300 → thas s.eps (rd r.payload 0 4) = true →
    ∃ u, u = { taken r s with ledger := { s.ledger with show_ := some (rd r.payload 0 4, rd r.payload 4 1, s.mono + tSec (rd r.payload 6 2), 0) } } ∧
      exec (.displayShow r) s = .next (answer 0x050F r .ok [] u)) ∧
  (∀ (r : Req) (s : State), Served displayShowService r s = true → thas s.eps (rd r.payload 0 4) = false →
    exec (.displayShow r) s = .next (answer 0x050F r .badParam [] (taken r s)))

/-- R180 to R206: the opcodes of the endpoint directory. It concludes that exec answers a next state, under conditions on the state and operands
alone, for: enrol, withdraw, admitStateSet, endpointUpdate, endpointGet, addrLookup, tallyGet, tallyClear, dirStatusGet, dirRehash, unknownGet,
unknownClear. -/
def Obligations.DirectoryOpcodeEffects : Prop :=
  (∀ (r : Req) (xs : List EnrolIn) (u : State) (s : State), Served enrolService r s = true → xs = (List.range (rd r.payload 0 2)).map (enrolIn r.payload) →
    s.dir.rehash ≠ 2 → s.dir.kdir.isSome = true → zeroAt r.payload 2 2 = true → rd r.payload 0 2 ≤ 2048 → firstBadSeen (enrolBadParam s) [] 0 xs = none →
    firstBad (fun (x : EnrolIn) => thas s.eps x.handle) xs 0 = none → firstBadSeen (enrolNoRes s) [] 0 xs = none → placeAll xs 0 (taken r s) = (u, none) →
    exec (.enrol r) s = .next (answer 0x0400 r .ok [] (answer 0x0400 r .pending [] (xs.foldl enrolSwitch u)))) ∧
  (∀ (r : Req) (xs : List EnrolIn) (i : Nat) (s : State), Served enrolService r s = true → xs = (List.range (rd r.payload 0 2)).map (enrolIn r.payload) →
    s.dir.rehash ≠ 2 → s.dir.kdir.isSome = true → zeroAt r.payload 2 2 = true → rd r.payload 0 2 ≤ 2048 → firstBadSeen (enrolBadParam s) [] 0 xs = none →
    firstBad (fun (x : EnrolIn) => thas s.eps x.handle) xs 0 = some i → exec (.enrol r) s = .next (answer 0x0400 r .badState (idxPayload i) (taken r s))) ∧
  (∀ (s : State) (x : EnrolIn) (e : Endpoint), ep? s x.handle = some e → e.isNew = true → bit x.attach 6 = true →
    (ep? (enrolSwitch s x) x.handle) = some { e with adm := if bit x.attach 7 then .suspended else .admitted }) ∧
  (∀ (r : Req) (s : State), Served withdrawService r s = true → s.dir.rehash ≠ 2 → zeroAt r.payload 2 2 = true → (listedHandles r.payload).length ≤ 8192 →
    firstBad (fun h => decide (2 ^ 20 ≤ h)) (listedHandles r.payload) 0 = none → badWithdraw s [] 0 (listedHandles r.payload) = none → listedHandles r.payload ≠ [] →
    exec (.withdraw r) s = .next (begun 0x0401 r ((listedHandles r.payload).map Obj.handle) ((listedHandles r.payload).foldl (fun s h => retire h s) (taken r s)))) ∧
  (∀ (r : Req) (xs : List (Nat × Nat × Nat)) (s : State), Served admitStateSetService r s = true → xs = (List.range (rd r.payload 0 2)).map (admitEntry r.payload) →
    zeroAt r.payload 2 2 = true → rd r.payload 0 2 ≤ 8192 → firstBad (fun (x : Nat × Nat × Nat) => x.2.1 != 0 || (x.2.2 != 1 && x.2.2 != 2)) xs 0 = none →
    (firstBad (fun (x : Nat × Nat × Nat) => !admitsChange s x.1) xs 0 = none → exec (.admitStateSet r) s = .next (answer 0x0402 r .ok []
      (xs.foldl (fun s x => setAdm x.1 (if x.2.2 = 1 then .admitted else .suspended) s) (taken r s)))) ∧
    (∀ i, firstBad (fun (x : Nat × Nat × Nat) => !admitsChange s x.1) xs 0 = some i →
      exec (.admitStateSet r) s = .next (answer 0x0402 r .badState (idxPayload i) (taken r s)))) ∧
  (∀ (r : Req) (s : State), Served endpointUpdateService r s = true → zeroAt r.payload 2 2 = true → rd r.payload 0 2 ≤ 8192 →
    firstBad (updBad s r.payload) (List.range (rd r.payload 0 2)) 0 = none →
    ∃ u, u = (List.range (rd r.payload 0 2)).foldl (fun s i => takeProfile (rd r.payload (updOff i) 4)
        (rd r.payload (updOff i + 10) 1) (updEp (rd r.payload (updOff i) 4) (fun e =>
          { e with reportS := rd r.payload (updOff i + 4) 4, supervS := 3600 * rd r.payload (updOff i + 8) 2 }) s)) (taken r s) ∧
      exec (.endpointUpdate r) s = .next (answer 0x0403 r .ok [] u)) ∧
  (∀ (r : Req) (e : Endpoint) (s : State), Served endpointGetService r s = true → rd r.payload 0 4 < 2 ^ 20 → ep? s (rd r.payload 0 4) = some e →
    exec (.endpointGet r) s = .next (answer 0x0404 r .ok (le 8 e.addr.toNat ++ le 4 (rd r.payload 0 4) ++ le 1 (admCode e.adm + 8 * b2n e.plc) ++ le 1 (attachByte e) ++
      le 1 e.cls ++ le 1 e.profile ++ le 4 e.reportS ++ le 4 e.supervS ++ le 4 e.img.fcntTop ++ le 8 e.img.win.toNat ++ le 4 e.dcnt ++
      le 4 e.dupCnt.toNat ++ le 4 e.staleCnt.toNat) (touch (rd r.payload 0 4) (taken r s)))) ∧
  (∀ (r : Req) (s : State), Served endpointGetService r s = true → ep? s (rd r.payload 0 4) = none →
    exec (.endpointGet r) s = .next (answer 0x0404 r .badParam [] (taken r s))) ∧
  (∀ (r : Req) (s : State), Served addrLookupService r s = true → lookup s (BitVec.ofNat 64 (rd r.payload 0 8)) = none →
    exec (.addrLookup r) s = .next (answer 0x0405 r .ok (le 4 0xFFFFFFFF ++ le 4 0) (countLookup none (taken r s)))) ∧
  (∀ (r : Req) (f : Found) (s : State), Served addrLookupService r s = true → lookup s (BitVec.ofNat 64 (rd r.payload 0 8)) = some f →
    exec (.addrLookup r) s = .next (answer 0x0405 r .ok (le 4 f.handle ++ le 1 (admCode f.state + 8 * b2n f.plc) ++ le 1 (if f.inStash then 2 else 1) ++ le 2 0)
      (countLookup (some f) (taken r s)))) ∧
  (∀ (r : Req) (s : State), Served tallyGetService r s = true → zeroAt r.payload 6 2 = true → rd r.payload 4 2 ≤ 256 → rd r.payload 0 4 < 2 ^ 20 →
    rd r.payload 0 4 + rd r.payload 4 2 ≤ 2 ^ 20 →
    exec (.tallyGet r) s = .next (answer 0x0406 r .ok (((List.range (rd r.payload 4 2)).map (fun i => le 4 (rd r.payload 0 4 + i) ++
      (match ep? s (rd r.payload 0 4 + i) with
        | some e => tallyBytes e.img.tally
        | none => le 16 0))).flatten) ((List.range (rd r.payload 4 2)).foldl (fun s i => touch (rd r.payload 0 4 + i) s) (taken r s)))) ∧
  (∀ (r : Req) (h : Nat) (e : Endpoint) (s : State), Served tallyClearService r s = true → rd r.payload 0 4 = h → h < 2 ^ 20 → ep? s h = some e →
    ∃ u, exec (.tallyClear r) s = .next (answer 0x0407 r .ok [] u) ∧ (ep? u h) = some { e with img := { e.img with tally := {} } }) ∧
  (∀ (r : Req) (s : State), Served dirStatusGetService r s = true → exec (.dirStatusGet r) s = .next (answer 0x0408 r .ok (dirStatus s) (taken r s))) ∧
  (∀ (r : Req) (s : State), Served dirRehashService r s = true → (s.dir.rehash ≠ 0 ∨ busyFor .rh s = false) →
    exec (.dirRehash r) s = .next (begun 0x0409 r [] (queueRehash (taken r s)))) ∧
  (∀ (r : Req) (s : State), Served unknownGetService r s = true → rd r.payload 2 2 ≤ 64 → rd r.payload 0 2 + rd r.payload 2 2 ≤ 1024 →
    exec (.unknownGet r) s = .next (answer 0x040A r .ok (((List.range (rd r.payload 2 2)).map (fun i => unknownRecord s (rd r.payload 0 2 + i))).flatten) (taken r s))) ∧
  (∀ (r : Req) (s : State), Served unknownClearService r s = true →
    ∃ u, u = { taken r s with dir := { s.dir with unknown := [] } } ∧ exec (.unknownClear r) s = .next (answer 0x040B r .ok [] u))

/-- R175 to R204, R219, R230: the handling of received frames up to deduplication, retirement and rehash. It concludes that exec answers a next state,
under conditions on the state and operands alone, for: directoryAirPacket, directoryPlcPacket, serialRelease, fetchBufferFree, contextFetchComplete,
writebackDone, retirementComplete, retireHoldExpiry, rehashEnd. -/
def Obligations.DirectoryFrameEffects : Prop :=
  (∀ (l : Nat) (ws : List QWord) (q : FtQueue) (x : AirIn) (s : State), dirUp s = true → l < 256 → takePacket (clearHead (lane s l).queue) = some (ws, q) → airIn ws = some x →
    exec (.directoryAirPacket l) s = .next (valuesAt x.endTime (airPacket { x with lane := l }) (setLane l (fun y => { y with queue := q }) s))) ∧
  (∀ (t : Nat) (f : State → State) (s : State), s.cfg.lastTc ≤ t → valuesAt t f s = f s) ∧
  (∀ (x : AirIn) (s : State), x.status = 0 → storeFits s x.psdu.length = true → isData x.psdu = true → dataHead x.psdu + 8 ≤ x.psdu.length →
    bit (fcOf x.psdu) 3 = false → ∃ f, f = lookup s (BitVec.ofNat 64 (rd x.psdu 2 8)) ∧ airPacket x s = admitAir x f (countLookup f s)) ∧
  (∀ (x : AirIn) (s : State), admitAir x none s = noteUnknown (BitVec.ofNat 64 (rd x.psdu 2 8)) x.port 0 x.rssi s) ∧
  (∀ (x : AirIn) (f : Found) (s : State), f.plc = false →
    (f.state = .pending → admitAir x (some f) s = noteUnknown (BitVec.ofNat 64 (rd x.psdu 2 8)) x.port 0 x.rssi s) ∧
    (f.state = .restoring → (admitAir x (some f) s).dir = { s.dir with deferred := s.dir.deferred + 1 }) ∧
    (f.state = .suspended → (admitAir x (some f) s).dir.suspFrames = s.dir.suspFrames + 1 ∧ (admitAir x (some f) s).dir.frames = s.dir.frames) ∧
    (f.state = .retiring → (admitAir x (some f) s).dir = { s.dir with suspFrames := s.dir.suspFrames + 1 }) ∧
    (f.state = .admitted → cannotUse s f.handle = false → admitAir x (some f) s = storeFrame (dataFrame f.handle x) s)) ∧
  (∀ (q : Nat) (ws : List QWord) (fq : FtQueue) (hd t0 t1 : QWord) (mid : List QWord) (s : State), dirUp s = true → q < 16 → takePacket (clearHead (plcp s q).queue) = some (ws, fq) →
    ws = hd :: mid ++ [t0, t1] →
    exec (.directoryPlcPacket q) s = .next (valuesAt t1.word.toNat (plcPacket q (bits t0.word.toNat 3 0) (packetOctets (mid ++ [t0, t1]) (min (bits hd.word.toNat 24 16 - 4) (8 * (ws.length - 3))))
      t1.word.toNat) (setPlc q (fun x => { x with queue := fq }) s))) ∧
  (∀ (id : Nat) (f : Frame) (s : State), frame? s id = some f → dirUp s = true → s.fw.pause = none → f.stage = .serial → serialTurn s f = true → cannotUse s f.handle = false →
    exec (.serialRelease id) s = .next (valuesAt f.endTime (runFrame f) (touch f.handle s))) ∧
  (∀ (f : Frame) (e : Endpoint) (s : State), ep? s f.handle = some e → e.addr ≠ f.src → f.plc = false →
    runFrame f s = frameDone f (noteUnknown f.src f.port 0 f.rssi { s with dir := { s.dir with aliases := s.dir.aliases + 1 } })) ∧
  (∀ (f : Frame) (e : Endpoint) (u : State) (s : State), ep? s f.handle = some e → e.addr = f.src → f.plc = false → epKey f.handle s = (u, none) →
    runFrame f s = frameDone f { u with dir := { u.dir with keyUnav := u.dir.keyUnav + 1 } }) ∧
  (∀ (f : Frame) (e : Endpoint) (key : List Byte) (u : State) (s : State), ep? s f.handle = some e → e.addr = f.src → epKey f.handle s = (u, some key) →
    runFrame f s = match openFrame key f with
      | none => discardFrame f (tallyInc f.handle .mic u)
      | some plain => dedupStep f plain (heard f plain u)) ∧
  (∀ (f : Frame) (e : Endpoint) (j : Bool) (plain : List Byte) (s : State), ep? s f.handle = some e → f.plc = false → dedup e.img f.fcnt (pval s 0x4000) = .accept j →
    ep? (dedupStep f plain s) f.handle = some { e with serial := true } ∧
    (dedupStep f plain s).dir.frames = s.dir.frames.map (fun x => if x.id = f.id then { f with stage := .commit, plain := plain, badLen := false } else x)) ∧
  (∀ (f : Frame) (e : Endpoint) (plain : List Byte) (s : State), ep? s f.handle = some e → dedup e.img f.fcnt (pval s 0x4000) = .duplicate →
    ∃ u, u = updEp f.handle (fun e => { e with dupCnt := e.dupCnt + 1 }) { s with dir := { s.dir with dups := s.dir.dups + 1 } } ∧
      dedupStep f plain s = frameDone f (queueCustody f.handle f.fcnt f.port f.deep u)) ∧
  (∀ (f : Frame) (e : Endpoint) (plain : List Byte) (s : State), ep? s f.handle = some e → dedup e.img f.fcnt (pval s 0x4000) = .stale →
    ∃ u, u = updEp f.handle (fun e => { e with staleCnt := e.staleCnt + 1 }) { s with dir := { s.dir with stales := s.dir.stales + 1 } } ∧
      dedupStep f plain s = frameDone f (tallyInc f.handle .stale u)) ∧
  (∀ (i : Image) (f jump : Nat), i.win ≠ 0 →
    ((∃ j, dedup i f jump = .accept j) ↔ i.fcntTop < f ∨ (i.fcntTop - f ≤ 63 ∧ i.win.getLsbD (i.fcntTop - f) = false)) ∧
    (dedup i f jump = .stale ↔ f ≤ i.fcntTop ∧ 63 < i.fcntTop - f)) ∧
  (∀ (f : Frame) (s : State), dirUp s = true → buffersUsed s < fetchBuffers → s.dir.frames.find? (fun f => f.stage == .buffer) = some f →
    ∃ u, u = { s with dir := { s.dir with frames := s.dir.frames.map (fun x => if x.handle = f.handle && x.stage == .buffer then { x with stage := .fetch } else x) } } ∧
      exec .fetchBufferFree s = .next (issueFetch f.handle u)) ∧
  (∀ (h : Nat) (ue : FetchIn) (u : State) (s : State), s.mem.fetches.contains h = true → u = install h (fetchUe h ue s) →
    (cannotUse u h = true → exec (.contextFetchComplete h ue) s = .next (((framesOf u h).filter (fun f => f.stage == .fetch)).foldl (fun s f => dropFrame9 f s) u)) ∧
    (cannotUse u h = false → ∃ v, v = { u with dir := { u.dir with frames := u.dir.frames.map (fun f => if f.handle = h && f.stage == .fetch then { f with stage := .serial } else f) } } ∧
      exec (.contextFetchComplete h ue) s = .next v)) ∧
  (∀ (h : Nat) (s : State), ∃ u, u = { s with mem := { s.mem with writeBacks := s.mem.writeBacks.filter (fun x => x != h) } } ∧ exec (.writebackDone h) s = .next u) ∧
  (∀ (h : Nat) (s : State), mayEmpty (withdrawClose h s) h = true → anyCustody (withdrawClose h s) h = false →
    exec (.retirementComplete h) s = .next (becomeEmpty h (withdrawClose h s))) ∧
  (∀ (h t : Nat) (e : Endpoint) (u : State) (s : State), ep? s h = some e → e.retireAt = some t → u = withdrawClose h (advMono t s) → 
    (anyCustody u h = false → mayEmpty u h = true → exec (.retireHoldExpiry h) s = .next (becomeEmpty h u)) ∧
    (anyCustody u h = true → mayEmpty (discardCustody h u) h = true →
      ∃ v, v.sectors = tmap u.sectors (fun _ x => { x with custody := x.custody.filter (fun c => c.handle != h) }) ∧ exec (.retireHoldExpiry h) s = .next (becomeEmpty h v))) ∧
  (∀ (s : State), s.dir.rehash = 2 → dirUp s = true → ∃ ids u w, u.dir.rehash = 0 ∧ w = raise 0x41 u ∧ w.evt.pend.getLsbD 0x41 = true ∧
    exec .rehashEnd s = .next (finishOps ids .ok (le 2 u.dir.stash.length ++ le 2 0) w))

/-- R103, R125, R126, R128: the air-access opcodes. It concludes that exec answers a next state, under conditions on the state and operands alone,
for: bandProfileSet, bandProfileGet, dutyStatusGet, sectorStatusGet, connectOpen, connectClose, airStateGet. -/
def Obligations.AirOpcodeEffects : Prop :=
  (∀ (r : Req) (w : Window) (s : State), Served bandProfileSetService r s = true → rd r.payload 0 1 ≤ 7 → 1 ≤ rd r.payload 1 1 → rd r.payload 1 1 ≤ 8 → zeroAt r.payload 2 2 = true →
    (List.range (rd r.payload 1 1)).all (fun k => subOk r.payload (4 + 32 * k)) = true →
    subsOverlap ((List.range (rd r.payload 1 1)).map (fun k => readSub r.payload (4 + 32 * k))) = false → s.cfg.window = some w →
    ∃ u, u = { taken r s with cfg := { s.cfg with window := some { w with profiles := tset w.profiles (rd r.payload 0 1) ((List.range (rd r.payload 1 1)).zip ((List.range (rd r.payload 1 1)).map (fun k => readSub r.payload (4 + 32 * k)))) } } } ∧
      exec (.bandProfileSet r) s = .next (answer 0x0220 r .ok [] u)) ∧
  (∀ (r : Req) (s : State), Served bandProfileGetService r s = true → rd r.payload 0 1 ≤ 7 → rd r.payload 1 1 ≤ 1 → (rd r.payload 1 1 = 1 → s.cfg.window.isSome = true) →
    exec (.bandProfileGet r) s = .next (answer 0x0221 r .ok (le 1 (profileIn s (rd r.payload 1 1) (rd r.payload 0 1)).length ++ le 3 0 ++
      ((profileIn s (rd r.payload 1 1) (rd r.payload 0 1)).map (fun x => subBytes x.2)).flatten) (taken r s))) ∧
  (∀ (r : Req) (s : State), Served bandProfileGetService r s = true → rd r.payload 0 1 ≤ 7 → rd r.payload 1 1 = 1 → s.cfg.window = none →
    exec (.bandProfileGet r) s = .next (answer 0x0221 r .badState [] (taken r s))) ∧
  (∀ (r : Req) (p : Nat) (s : State), Served dutyStatusGetService r s = true → portField r.payload = some p →
    exec (.dutyStatusGet r) s = .next (answer 0x0222 r .ok (((List.range 8).map (fun sb => if ((profOf s p).getD []).any (fun x => x.1 == sb) then
        le 4 (usedOf s p sb .beacon) ++ le 4 (usedOf s p sb .ack) ++ le 4 (usedOf s p sb .downlink) ++ le 4 (acct s p sb).dwellRefused.toNat
      else le 16 0)).flatten) (taken r s))) ∧
  (∀ (r : Req) (p : Nat) (s : State), Served sectorStatusGetService r s = true → portField r.payload = some p →
    exec (.sectorStatusGet r) s = .next (answer 0x0223 r .ok (le 1 (sectorCode (secp s p).state) ++ le 1 (secp s p).misses ++ le 2 0 ++
      le 4 (secp s p).sent.toNat ++ le 4 (secp s p).missed.toNat ++ le 4 (secp s p).custody.length ++ le 1 (((secp s p).custody.head?.map (fun e => min e.carry 255)).getD 0) ++ le 3 0 ++ le 4 (secp s p).acksSent.toNat ++
      ((List.range 7).map (fun i => le 4 (tget (secp s p).suppr i 0).toNat)).flatten ++ le 4 (connections s p) ++ le 8 0) (taken r s))) ∧
  (∀ (r : Req) (h port code sup open_ : Nat) (e : Endpoint) (s : State), Served connectOpenService r s = true →
    h = rd r.payload 0 4 → port = rd r.payload 4 1 → code = rd r.payload 5 1 → sup = rd r.payload 8 4 → open_ = rd r.payload 12 4 →
    h < 2 ^ 20 → port ≤ 7 → code ≤ 9 → zeroAt r.payload 6 2 = true → 3 * 125 * 2 ^ code ≤ sup → sup ≤ 3600000 → 1 ≤ open_ → open_ ≤ 86400 →
    secVal s port 0xA ≠ 0xFF → 2 ≤ (mapChannels (secVal s port 8) (secVal s port 9)).length → ep? s h = some e → e.plc = false →
    ((e.air = .opening ∨ e.air = .connected) → exec (.connectOpen r) s = .next (answer 0x0224 r .badState [] (taken r s))) ∧
    (e.air ≠ .opening → e.air ≠ .connected → 8192 ≤ pinnedCount s → exec (.connectOpen r) s = .next (answer 0x0224 r .noResource [] (taken r s))) ∧
    (e.air ≠ .opening → e.air ≠ .connected → pinnedCount s < 8192 → ∃ u, exec (.connectOpen r) s = .next (answer 0x0224 r .ok [] u) ∧
      (∃ e', ep? u h = some e' ∧ e'.air = .opening ∧ e'.connPort = port ∧ e'.connCode = code ∧ e'.connSupervMs = sup ∧ e'.openDeadline = s.now + tSec open_) ∧
      (secp u port).pendList = (secp s port).pendList ++ [(h, s.mono)])) ∧
  (∀ (r : Req) (h : Nat) (e : Endpoint) (s : State), Served connectCloseService r s = true → h = rd r.payload 0 4 → h < 2 ^ 20 → ep? s h = some e →
    (e.air = .opening → exec (.connectClose r) s = .next (answer 0x0225 r .ok [] (endConnection h outClosed .tracking (taken r s)))) ∧
    (e.air = .connected → ∃ u, exec (.connectClose r) s = .next (answer 0x0225 r .ok [] u) ∧ ep? u h = some { e with closing := true }) ∧
    (e.air ≠ .opening → e.air ≠ .connected → exec (.connectClose r) s = .next (answer 0x0225 r .badState [] (taken r s)))) ∧
  (∀ (r : Req) (h : Nat) (e : Endpoint) (s : State), Served airStateGetService r s = true → h = rd r.payload 0 4 → h < 2 ^ 20 → ep? s h = some e →
    exec (.airStateGet r) s = .next (answer 0x0226 r .ok (le 1 (airCode e.air) ++ le 1 e.connOutcome ++ le 1 e.connPort ++ le 1 e.connCode ++ le 2 e.evcnt ++
      le 2 e.missed ++ le 4 (e.lastGood / 2 ^ 24) ++ le 4 (supLeft s e)) (touch h (taken r s)))) ∧
  (∀ (r : Req) (s : State), Served airStateGetService r s = true → ep? s (rd r.payload 0 4) = none →
    exec (.airStateGet r) s = .next (answer 0x0226 r .badParam [] (taken r s)))

/-- R104 to R127: transmissions on air. It concludes that exec answers a next state, under conditions on the state and operands alone, for: beaconDue,
beaconMiss, beaconTxStart, fallbackRetry, deepBeaconTx, lbtListenEnd, lbtBackoffEnd, linkAckTx, downlinkTx, transmissionEnd, chargeExpiry. -/
def Obligations.TransmissionEffects : Prop :=
  (∀ (q b : Nat) (s : State), transmits s q = true → beaconFresh s q b = true → s.cfg.lastTc ≤ beaconAt s q b → s.now ≤ beaconAt s q b → (secp s q).due = none →
    exec (.beaconDue q b) s = .next (beaconOpen q b (advTo (beaconAt s q b) s))) ∧
  (∀ (q b : Nat) (s : State), ∃ d c, (secp (beaconOpen q b s) q).due = some d ∧ d.bnum = b ∧ d.at_ = beaconAt s q b ∧ d.viaPort = viaOf s q ∧ d.content = some c ∧
    c.pending = (pendingOf s q).take 128 ∧ (secp (beaconOpen q b s) q).lastB = some b) ∧
  (∀ (q : Nat) (d : DueBeacon) (s : State), (secp s q).due = some d → exec (.beaconMiss q) s = .next (beaconMissed q d (advTo (beaconLimit s q d) s))) ∧
  (∀ (q : Nat) (d : DueBeacon) (s : State), (secp s q).state = .normal → missReason s d ≠ missBudget →
    ((secp s q).misses + 1 < 3 → (secp (beaconMissed q d s) q).due = none ∧ (secp (beaconMissed q d s) q).missed = (secp s q).missed + 1 ∧
      (secp (beaconMissed q d s) q).misses = (secp s q).misses + 1) ∧
    (3 ≤ (secp s q).misses + 1 → (secp (beaconMissed q d s) q).due = none ∧ (secp (beaconMissed q d s) q).missed = (secp s q).missed + 1 ∧
      (secp (beaconMissed q d s) q).misses = 0 ∧ (secp (beaconMissed q d s) q).state ≠ .normal ∧ (beaconMissed q d s).evt.pend.getLsbD 0x24 = true)) ∧
  (∀ (q t : Nat) (d : DueBeacon) (f c : BeaconContent) (u : State) (k0 : List Byte) (ks : List (List Byte)) (s : State), (secp s q).due = some d → d.content = some f →
    c = (if s.jnl.noCustody then withoutCustody f else f) → d.lbt = none → blankFits s q t = true →
    d.at_ ≤ t → t ≤ beaconLimit s q d → s.now ≤ t → d.viaPort = q → rfUp (advTo t s) q = true → (secp (advTo t s) q).tx = none → (rfp (advTo t s) q).state = .receiving →
    txRule (advTo t s) q (viaChannel (advTo t s) q q (anchorOf (advTo t s) q d.bnum)).1 (viaChannel (advTo t s) q q (anchorOf (advTo t s) q d.bnum)).2 .beacon
      (trainUs (secVal (advTo t s) q 3) c.pending.length c.beacon c.train) false = none →
    takeKeys (secVal (advTo t s) q 7) (1 + c.train.length) (advTo t s) = (u, k0 :: ks) →
    ∃ ch edges us carried frames w, exec (.beaconTxStart q t) s = .next (beaconSent q d (startTx q ch edges .beacon q us 0 carried frames (carryAll q w u))) ∧ frames.length = 1 + min ks.length c.train.length) ∧
  (∀ (q : Nat) (s : State), (secp s q).state = .fallback → 16 ≤ (secp s q).fbIntervals →
    ∃ t, exec (.fallbackRetry q) s = .next t ∧ (secp t q).tryOwn = true ∧ (secp t q).fbIntervals = 0 ∧ (secp t q).state = .fallback) ∧
  (∀ (q b : Nat) (s : State), (secp s q).deepDue = some b → (secp s q).deepLbt = none → blankFits s q s.now = true → rfUp s q = true → (secp s q).tx.isSome = true →
    ∃ u, u = setSec q (fun x => { x with deepDue := none }) s ∧ exec (.deepBeaconTx q b) s = .next (carryAll q (fun e => e.deep) u)) ∧
  (∀ (q b : Nat) (es : List CustodyEntry) (v u : State) (k : KSlot) (s : State), (secp s q).deepDue = some b → (secp s q).deepLbt = none → blankFits s q s.now = true →
    es = ((if s.jnl.noCustody then [] else (secp s q).custody.filter (fun e => e.deep)).take 8) → v = setSec q (fun x => { x with deepDue := none }) s → rfUp v q = true →
    (secp v q).tx = none → (rfp v q).state = .receiving →
    txRule v q (secVal v q 0xE) (chanEdges (bandOf v q) (secVal v q 0xE)) .beacon (deepUs (23 + 3 * es.length)) false = none → useSlot (secVal v q 7) uMac v = (u, some k) →
    exec (.deepBeaconTx q b) s = .next (carryAll q (fun e => e.deep && !amongCustody es e) (startTx q (secVal v q 0xE) (chanEdges (bandOf v q) (secVal v q 0xE)) .beacon q (deepUs (23 + 3 * es.length)) 0
      (es.map (fun e => (e.handle, e.fcnt))) [.deep q (secVal v q 0xE) (deepFrame (sealSector k.key (secVal u q 0) 0x40 b 6 (deepOctets u q b es)))] u))) ∧
  (∀ (p q : Nat) (d : DueBeacon) (pw : Power) (s : State), canListen s p = true → lbtSector s p listening = some (q, d) →
    powerBelow s p pw (subBandOf s p (viaChannel s q p (anchorOf s q d.bnum)).2).lbtThresh = true →
    ∃ t, exec (.lbtListenEnd p pw) s = .next t ∧ (secp t q).due = some { d with lbt := none }) ∧
  (∀ (p q : Nat) (d : DueBeacon) (l : Lbt) (x : SubBand) (pw : Power) (s : State), canListen s p = true → lbtSector s p listening = some (q, d) → d.lbt = some l →
    x = subBandOf s p (viaChannel s q p (anchorOf s q d.bnum)).2 → powerBelow s p pw x.lbtThresh = false →
    ∃ t l', exec (.lbtListenEnd p pw) s = .next t ∧ (secp t q).due = some { d with lbt := some l' } ∧ l'.nb = l.nb + 1 ∧ (l.nb + 1 ≤ x.nbMax → ∃ slots, slots < 2 ^ l.be ∧
      l'.until_ = s.mono + tUs (320 * slots) ∧ l'.be = min (l.be + 1) x.beMax ∧ l'.backingOff = true) ∧ (x.nbMax < l.nb + 1 → l'.ended = true)) ∧
  (∀ (p q : Nat) (d : DueBeacon) (l : Lbt) (s : State), lbtSector s p backingOff = some (q, d) → d.lbt = some l →
    ∃ t, exec (.lbtBackoffEnd p) s = .next t ∧ (secp t q).due = some { d with lbt := some { l with backingOff := false } } ∧ l.until_ ≤ t.mono) ∧
  (∀ (p l : Nat) (a : SchedAck) (u : State) (s : State), (secp s p).acks.find? (fun a => a.lane == l) = some a →
    u = advTo (a.endTime + tUs 1000) (setSec p (fun x => { x with acks := x.acks.erase a }) s) → u.now ≤ a.endTime + tUs 1000 + tUs 10 →
    (∀ r, txRule u p a.channel (chanEdges (bandOf u p) a.channel) .ack (ackUs a.mode) (airBusy u p u.now (ackUs a.mode)) = some r →
      exec (.linkAckTx p l) s = .next (ackRefused p a.channel r u)) ∧
    (txRule u p a.channel (chanEdges (bandOf u p) a.channel) .ack (ackUs a.mode) (airBusy u p u.now (ackUs a.mode)) = none →
      ∃ t, exec (.linkAckTx p l) s = .next t ∧ (secp t p).acksSent = (secp u p).acksSent + 1 ∧ .ack p a.channel (ackPpdu u a) ∈ t.out)) ∧
  (∀ (p h t : Nat) (o : DlOpp) (w : DlWhat) (s : State), (secp s p).dlOpp.find? (fun o => o.handle == h) = some o → dlWhat s h = some w → o.lbt = none → blankFits s p t = true → s.now ≤ t →
    o.endTime + tMs 20 ≤ t → t ≤ o.endTime + tMs 100 → txRule (advTo t s) p o.channel (chanEdges (bandOf (advTo t s) p) o.channel) .downlink (downUs o.mode (whatLen w))
      (airBusy (advTo t s) p t (downUs o.mode (whatLen w)) || ackInWay (advTo t s) p t (downUs o.mode (whatLen w))) = none →
    (w = .connect → exec (.downlinkTx p h t) s = .next (sendConnect p h o (downUs o.mode (whatLen w)) (advTo t s))) ∧
    (∀ c x g, w = .step c x g → exec (.downlinkTx p h t) s = .next (sendStep p h o (downUs o.mode (whatLen w)) c x g (advTo t s)))) ∧
  (∀ (p h t : Nat) (o : DlOpp) (s : State), (secp s p).dlOpp.find? (fun o => o.handle == h) = some o → (t < o.endTime + tMs 20 ∨ o.endTime + tMs 100 < t) →
    exec (.downlinkTx p h t) s = .next s) ∧
  (∀ (s : State) (p ch : Nat) (edges : Int × Int) (cls : TxClass) (us : Nat), txRule s p ch edges cls us true ≠ none) ∧
  (∀ (p t : Nat) (x : AirTx) (s : State), (secp s p).tx = some x →
    ∃ u, exec (.transmissionEnd p t) s = .next u ∧ (secp u p).tx = none ∧ (rfp u p).txenRise = u.mono ∧
      (acct u p x.subBand).charges = (acct s p x.subBand).charges ++ [{ cls := x.cls, quanta := nowMs u + 1 - x.monoFrom * 1000 / 2 ^ 24, at_ := nowMs u }] ∧
      (acct u p x.subBand).lastEnd = some u.mono) ∧
  (∀ (p sb : Nat) (c : Charge) (cs : List Charge) (s : State), (acct s p sb).charges = c :: cs →
    ∃ t m, exec (.chargeExpiry p sb) s = .next t ∧ (c.at_ + windowMs) * 2 ^ 24 ≤ 1000 * t.mono ∧
      (acct t p sb).charges = (c :: cs).filter (fun c => 0 < chargeLeft m c))

/-- R120 to R126: the air states of an endpoint. It concludes that exec answers a next state, under conditions on the state and operands alone, for:
arrivalWindowClose, supervisionTimeout, connectReplyTimeout, openTimeout, connSupervisionExpiry, connectionEvent. -/
def Obligations.AirStateEffects : Prop :=
  (∀ (h : Nat) (e : Endpoint) (s : State), ep? s h = some e → e.plc = false → e.air = .tracking → e.winOpen = true →
    ∃ t, exec (.arrivalWindowClose h) s = .next t ∧ ep? t h = some { e with air := .drifting, winOpen := false } ∧ e.winHi ≤ t.now) ∧
  (∀ (h : Nat) (e : Endpoint) (s : State), ep? s h = some e → e.plc = false → (e.air = .unseen ∨ e.air = .tracking ∨ e.air = .drifting) → e.supervS ≠ 0 → s.cfg.everCommitted = true →
    ∃ t, exec (.supervisionTimeout h) s = .next t ∧ ep? t h = some { e with air := .lost, winOpen := false } ∧ t.evt.pend.getLsbD 0x28 = true) ∧
  (∀ (h : Nat) (e : Endpoint) (s : State), ep? s h = some e → (e.air = .opening ∨ e.air = .connected ∨ e.air = .lost) → exec (.supervisionTimeout h) s = .next s) ∧
  (∀ (h : Nat) (e : Endpoint) (s : State), ep? s h = some e → e.air = .opening → e.connectSent = true →
    ∃ t, exec (.connectReplyTimeout h) s = .next t ∧ ep? t h = some { e with connectSent := false } ∧ (h, t.mono) ∈ (secp t e.connPort).pendList) ∧
  (∀ (h : Nat) (e : Endpoint) (s : State), ep? s h = some e → e.air = .opening →
    ∃ t e', exec (.openTimeout h) s = .next t ∧ ep? t h = some e' ∧ e'.air = .tracking ∧ e'.connOutcome = 2 ∧ e'.connectSent = false) ∧
  (∀ (h : Nat) (e : Endpoint) (s : State), ep? s h = some e → e.air = .connected →
    ∃ t e', exec (.connSupervisionExpiry h) s = .next t ∧ ep? t h = some e' ∧ e'.air = .drifting ∧ e'.connOutcome = 4 ∧ t.evt.pend.getLsbD 0x27 = true) ∧
  (∀ (h : Nat) (e : Endpoint) (s : State), ep? s h = some e → e.air = .opening → e.connectSent = false → ∀ pw, exec (.connectionEvent h pw) s = .next s) ∧
  (∀ (h : Nat) (pw : Power) (e e1 : Endpoint) (u : State) (s : State), ep? s h = some e → (e.air = .connected ∨ (e.air = .opening ∧ e.connectSent = true)) → e1 = mapAt h e →
    u = updEp h (fun _ => e1) (advTo (e1.connT0 + e1.evcnt * connIv e1.connCode) s) →
    ∃ w, w = updEp h (fun e => { e with evcnt := e.evcnt + 1 }) (eventAt e1.connPort h e1 (e1.connT0 + e1.evcnt * connIv e1.connCode) pw u) ∧
      exec (.connectionEvent h pw) s = .next (if e1.closing then endConnection h outClosed .tracking w else w)) ∧
  (∀ (p h anchor : Nat) (e : Endpoint) (pw : Power) (s : State), ep? s h = some e → anchor + tUs 10 < s.now →
    ep? (eventAt p h e anchor pw s) h = some { e with missed := e.missed + 1 }) ∧
  (∀ (p h anchor us : Nat) (e : Endpoint) (custody : List Nat) (s : State), s.now ≤ anchor + tUs 10 → custody = (if s.jnl.noCustody then [] else e.evCustody.take 16) →
    us = sunUs (secVal s p 3) (17 + 2 * custody.length + evLen (evWhat s h e) + 8 + 4) → lbtStart s p (chanEdges (bandOf s p) (eventChannel e)) = none →
    txRule s p (eventChannel e) (chanEdges (bandOf s p) (eventChannel e)) .downlink us (airBusy s p s.now us || ackInWay s p s.now us) = none → evWhat s h e = .nothing →
    ∀ pw, eventAt p h e anchor pw s = sendEvent p (eventChannel e) us h e custody .nothing s) ∧
  (∀ (h p ch t0 t : Nat) (e : Endpoint) (s : State), ep? s h = some e → e.plc = false → e.air = .opening → e.connectSent = true → answersEvent e p ch t0 = true →
    ∃ e', ep? (airHeard h p ch t0 t s) h = some e' ∧ e'.air = .connected ∧ e'.connOutcome = 1 ∧ e'.lastGood = t ∧ (airHeard h p ch t0 t s).evt.pend.getLsbD 0x27 = true) ∧
  (∀ (h p ch t0 t : Nat) (e : Endpoint) (s : State), ep? s h = some e → e.plc = false → (e.air = .unseen ∨ e.air = .tracking ∨ e.air = .drifting ∨ e.air = .lost) →
    ∃ e', ep? (airHeard h p ch t0 t s) h = some e' ∧ e'.air = .tracking ∧ e'.lastGood = t ∧ e'.supFrom = t ∧ e'.winHi = t + tMs (1000 * e.reportS + (1000 * e.reportS / 8 + 1000)))

/-- Host interface and configuration commands: which parts of the state each can change; all the others are as they were. -/
def Obligations.HostCommandFrames : Prop :=
  (∀ (addr : Nat) (be : BitVec 4) (data : Word) (s t : State), exec (.registerWrite addr be data) s = .next t →
      t = { s with out := t.out, mbxs := t.mbxs, ops := t.ops, evt := t.evt, glb := t.glb, mir := t.mir, isl := t.isl, boot := t.boot, pcie := t.pcie, bkp := t.bkp, lanes := t.lanes, plc := t.plc, chans := t.chans, slate := t.slate }) ∧
  (∀ (s t : State), exec .etimeLoRead s = .next t →
      t = { s with glb := t.glb }) ∧
  (∀ (data : Word) (s t : State), exec (.rstCtrlSysrst data) s = .next t →
      t = { s with boot := t.boot }) ∧
  (∀ (m : Nat) (s t : State), exec (.mbxEnable m) s = .next t →
      t = { s with out := t.out, mbxs := t.mbxs, evt := t.evt }) ∧
  (∀ (m : Nat) (s t : State), exec (.mbxDisable m) s = .next t →
      t = { s with out := t.out, mbxs := t.mbxs, ops := t.ops, evt := t.evt, bkp := t.bkp, slate := t.slate }) ∧
  (∀ (m : Nat) (s t : State), exec (.mbxReset m) s = .next t →
      t = { s with out := t.out, mbxs := t.mbxs, ops := t.ops, evt := t.evt, bkp := t.bkp, slate := t.slate }) ∧
  (∀ (m : Nat) (v : Word) (s t : State), exec (.mbxReqPiWrite m v) s = .next t →
      t = { s with out := t.out, mbxs := t.mbxs, ops := t.ops, evt := t.evt, bkp := t.bkp, slate := t.slate }) ∧
  (∀ (m : Nat) (v : Word) (s t : State), exec (.mbxRspCiWrite m v) s = .next t →
      t = { s with mbxs := t.mbxs }) ∧
  (∀ (m : Nat) (bytes : List Byte) (s t : State), exec (.requestFetch m bytes) s = .next t →
      t = { s with out := t.out, mbxs := t.mbxs, rrNext := t.rrNext, fetchCtr := t.fetchCtr, ops := t.ops, evt := t.evt, bkp := t.bkp, slate := t.slate }) ∧
  (∀ (m : Nat) (write : Bool) (s t : State), exec (.ringBusError m write) s = .next t →
      t = { s with out := t.out, mbxs := t.mbxs, ops := t.ops, evt := t.evt, bkp := t.bkp, slate := t.slate }) ∧
  (∀ (m : Nat) (s t : State), exec (.responsePost m) s = .next t →
      t = { s with out := t.out, mbxs := t.mbxs, ops := t.ops, evt := t.evt, bkp := t.bkp, slate := t.slate }) ∧
  (∀ (op : Nat) (s t : State), exec (.requestWaitEnd op) s = .next t →
      t.pending = s.pending ∧ t.mono = s.mono ∧ t.rrNext = s.rrNext ∧ t.fetchCtr = s.fetchCtr ∧ t.nextOp = s.nextOp ∧ t.glb = s.glb ∧ t.mir = s.mir ∧ t.isl = s.isl ∧ t.links = s.links ∧ t.auditAt = s.auditAt ∧ t.pcie = s.pcie ∧ t.mon = s.mon ∧ t.laneCount = s.laneCount ∧ t.duty = s.duty ∧ t.confUnmatched = s.confUnmatched ∧ t.slateNv = s.slateNv ∧ t.faultTimes = s.faultTimes) ∧
  (∀ (k : Nat) (data occurring : Word) (s t : State), exec (.evtPendClear k data occurring) s = .next t →
      t = { s with out := t.out, evt := t.evt }) ∧
  (∀ (k : Nat) (data : Word) (s t : State), exec (.evtEnWrite k data) s = .next t →
      t = { s with out := t.out, evt := t.evt }) ∧
  (∀ (k : Nat) (data : Word) (s t : State), exec (.evtForce k data) s = .next t →
      t = { s with out := t.out, evt := t.evt }) ∧
  (∀ (vector : Option Nat) (s t : State), exec (.msixUnmask vector) s = .next t →
      t = { s with out := t.out, evt := t.evt, pcie := t.pcie }) ∧
  (∀ (r : Req) (s t : State), exec (.nop r) s = .next t →
      t = { s with out := t.out, mbxs := t.mbxs, ops := t.ops, nextOp := t.nextOp, evt := t.evt, bkp := t.bkp, slate := t.slate }) ∧
  (∀ (r : Req) (s t : State), exec (.configBegin r) s = .next t →
      t = { s with out := t.out, cfg := t.cfg, mbxs := t.mbxs, ops := t.ops, nextOp := t.nextOp, evt := t.evt, bkp := t.bkp, slate := t.slate }) ∧
  (∀ (r : Req) (s t : State), exec (.configCommit r) s = .next t →
      t = { s with out := t.out, cfg := t.cfg, mbxs := t.mbxs, ops := t.ops, nextOp := t.nextOp, evt := t.evt, bkp := t.bkp, rf := t.rf, slate := t.slate }) ∧
  (∀ (r : Req) (s t : State), exec (.configAbort r) s = .next t →
      t = { s with out := t.out, cfg := t.cfg, mbxs := t.mbxs, ops := t.ops, nextOp := t.nextOp, evt := t.evt, bkp := t.bkp, slate := t.slate }) ∧
  (∀ (r : Req) (s t : State), exec (.configStateGet r) s = .next t →
      t = { s with out := t.out, mbxs := t.mbxs, ops := t.ops, nextOp := t.nextOp, evt := t.evt, bkp := t.bkp, slate := t.slate }) ∧
  (∀ (r : Req) (s t : State), exec (.capsGet r) s = .next t →
      t = { s with out := t.out, mbxs := t.mbxs, ops := t.ops, nextOp := t.nextOp, evt := t.evt, bkp := t.bkp, slate := t.slate }) ∧
  (∀ (r : Req) (s t : State), exec (.paramBlockWrite r) s = .next t →
      t = { s with out := t.out, cfg := t.cfg, mbxs := t.mbxs, ops := t.ops, nextOp := t.nextOp, evt := t.evt, bkp := t.bkp, jnl := t.jnl, prov := t.prov, slate := t.slate }) ∧
  (∀ (r : Req) (s t : State), exec (.paramBlockRead r) s = .next t →
      t = { s with out := t.out, mbxs := t.mbxs, ops := t.ops, nextOp := t.nextOp, evt := t.evt, bkp := t.bkp, slate := t.slate }) ∧
  (∀ (hwFault : Bool) (s t : State), exec (.commitInstant hwFault) s = .next t →
      t.pending = s.pending ∧ t.tickAt = s.tickAt ∧ t.timeLoaded = s.timeLoaded ∧ t.trustSeen = s.trustSeen ∧ t.rrNext = s.rrNext ∧ t.fetchCtr = s.fetchCtr ∧ t.nextOp = s.nextOp ∧ t.glb = s.glb ∧ t.mir = s.mir ∧ t.isl = s.isl ∧ t.links = s.links ∧ t.auditAt = s.auditAt ∧ t.pcie = s.pcie ∧ t.fuses = s.fuses ∧ t.mon = s.mon ∧ t.laneCount = s.laneCount ∧ t.dir = s.dir ∧ t.blobs = s.blobs ∧ t.xlate = s.xlate ∧ t.chans = s.chans ∧ t.ledger = s.ledger ∧ t.bal = s.bal ∧ t.confUnmatched = s.confUnmatched ∧ t.slots = s.slots ∧ t.keys = s.keys ∧ t.slateNv = s.slateNv ∧ t.fwNv = s.fwNv ∧ t.safe = s.safe ∧ t.faultTimes = s.faultTimes) ∧
  (∀ (c : Nat) (v : Word) (s t : State), exec (.dmaPiWrite c v) s = .next t →
      t = { s with chans := t.chans }) ∧
  (∀ (s t : State), exec .firmwareTakeover s = .next t →
      t.pending = s.pending ∧ t.now = s.now ∧ t.mono = s.mono ∧ t.tickAt = s.tickAt ∧ t.timeLoaded = s.timeLoaded ∧ t.trustSeen = s.trustSeen ∧ t.rrNext = s.rrNext ∧ t.fetchCtr = s.fetchCtr ∧ t.nextOp = s.nextOp ∧ t.glb = s.glb ∧ t.mir = s.mir ∧ t.isl = s.isl ∧ t.links = s.links ∧ t.auditAt = s.auditAt ∧ t.pcie = s.pcie ∧ t.fuses = s.fuses ∧ t.mon = s.mon ∧ t.laneCount = s.laneCount ∧ t.dir = s.dir ∧ t.blobs = s.blobs ∧ t.xlate = s.xlate ∧ t.chans = s.chans ∧ t.ledger = s.ledger ∧ t.bal = s.bal ∧ t.confUnmatched = s.confUnmatched ∧ t.slots = s.slots ∧ t.keys = s.keys ∧ t.slateNv = s.slateNv ∧ t.safe = s.safe ∧ t.faultTimes = s.faultTimes ∧ t.maint = s.maint) ∧
  (∀ (s t : State), exec .pcieUncorrectableError s = .next t →
      t = { s with out := t.out, evt := t.evt })

/-- Link, reset and bring-up commands: which parts of the state each can change; all the others are as they were. -/
def Obligations.ResetAndLinkCommandFrames : Prop :=
  (∀ (d : Nat) (s t : State), exec (.flitTransfer d) s = .next t →
      t = { s with links := t.links }) ∧
  (∀ (d : Nat) (s t : State), exec (.creditReturn d) s = .next t →
      t = { s with out := t.out, isl := t.isl, links := t.links }) ∧
  (∀ (upsets : List AuditUpset) (s t : State), exec (.creditAudit upsets) s = .next t →
      t.pending = s.pending ∧ t.tickAt = s.tickAt ∧ t.timeLoaded = s.timeLoaded ∧ t.trustSeen = s.trustSeen ∧ t.cfg = s.cfg ∧ t.rrNext = s.rrNext ∧ t.fetchCtr = s.fetchCtr ∧ t.nextOp = s.nextOp ∧ t.glb = s.glb ∧ t.mir = s.mir ∧ t.pcie = s.pcie ∧ t.fuses = s.fuses ∧ t.mon = s.mon ∧ t.sectors = s.sectors ∧ t.duty = s.duty ∧ t.dir = s.dir ∧ t.blobs = s.blobs ∧ t.xlate = s.xlate ∧ t.chans = s.chans ∧ t.ledger = s.ledger ∧ t.bal = s.bal ∧ t.confUnmatched = s.confUnmatched ∧ t.slots = s.slots ∧ t.keys = s.keys ∧ t.slateNv = s.slateNv ∧ t.fwNv = s.fwNv ∧ t.fw = s.fw ∧ t.safe = s.safe ∧ t.faultTimes = s.faultTimes) ∧
  (∀ (d : Nat) (s t : State), exec (.fenceWaitExpiry d) s = .next t →
      t = { s with now := t.now, mono := t.mono, out := t.out, evt := t.evt, isl := t.isl, links := t.links, bkp := t.bkp, slate := t.slate }) ∧
  (∀ (outOfRange : BitVec 8) (s t : State), exec (.monitorSample outOfRange) s = .next t →
      t = { s with out := t.out, evt := t.evt, mon := t.mon, bkp := t.bkp, jnl := t.jnl, slate := t.slate, safe := t.safe, faultTimes := t.faultTimes }) ∧
  (∀ (s t : State), exec .c1Recovery s = .next t →
      t = { s with now := t.now, mono := t.mono, out := t.out, evt := t.evt, jnl := t.jnl }) ∧
  (∀ (s t : State), exec .porMainAssert s = .next t →
      t.pending = s.pending ∧ t.now = s.now ∧ t.mono = s.mono ∧ t.tickAt = s.tickAt ∧ t.freeCtr = s.freeCtr ∧ t.fetchCtr = s.fetchCtr ∧ t.nextOp = s.nextOp ∧ t.auditAt = s.auditAt ∧ t.fuses = s.fuses ∧ t.jnv = s.jnv ∧ t.roots = s.roots ∧ t.slateNv = s.slateNv ∧ t.fwNv = s.fwNv) ∧
  (∀ (s t : State), exec .porMainRelease s = .next t →
      t = { s with boot := t.boot }) ∧
  (∀ (s t : State), exec .nresetAssert s = .next t →
      t.pending = s.pending ∧ t.now = s.now ∧ t.mono = s.mono ∧ t.tickAt = s.tickAt ∧ t.freeCtr = s.freeCtr ∧ t.fetchCtr = s.fetchCtr ∧ t.nextOp = s.nextOp ∧ t.auditAt = s.auditAt ∧ t.fuses = s.fuses ∧ t.jnv = s.jnv ∧ t.roots = s.roots ∧ t.slateNv = s.slateNv ∧ t.fwNv = s.fwNv) ∧
  (∀ (s t : State), exec .nresetRelease s = .next t →
      t = { s with boot := t.boot }) ∧
  (∀ (s t : State), exec .perstNAssert s = .next t →
      t = { s with boot := t.boot, pcie := t.pcie }) ∧
  (∀ (s t : State), exec .wdtExpiry s = .next t →
      t.pending = s.pending ∧ t.tickAt = s.tickAt ∧ t.freeCtr = s.freeCtr ∧ t.fetchCtr = s.fetchCtr ∧ t.nextOp = s.nextOp ∧ t.auditAt = s.auditAt ∧ t.fuses = s.fuses ∧ t.jnv = s.jnv ∧ t.roots = s.roots ∧ t.slateNv = s.slateNv ∧ t.fwNv = s.fwNv) ∧
  (∀ (s t : State), exec .sysrst s = .next t →
      t.pending = s.pending ∧ t.now = s.now ∧ t.mono = s.mono ∧ t.tickAt = s.tickAt ∧ t.freeCtr = s.freeCtr ∧ t.fetchCtr = s.fetchCtr ∧ t.nextOp = s.nextOp ∧ t.auditAt = s.auditAt ∧ t.fuses = s.fuses ∧ t.jnv = s.jnv ∧ t.roots = s.roots ∧ t.slateNv = s.slateNv ∧ t.fwNv = s.fwNv) ∧
  (∀ (s t : State), exec .recorderDrainEnd s = .next t →
      t = { s with out := t.out, isl := t.isl, links := t.links, boot := t.boot, slate := t.slate }) ∧
  (∀ (s t : State), exec .dprst s = .next t →
      t.pending = s.pending ∧ t.now = s.now ∧ t.mono = s.mono ∧ t.tickAt = s.tickAt ∧ t.timeLoaded = s.timeLoaded ∧ t.trustSeen = s.trustSeen ∧ t.cfg = s.cfg ∧ t.rrNext = s.rrNext ∧ t.fetchCtr = s.fetchCtr ∧ t.nextOp = s.nextOp ∧ t.glb = s.glb ∧ t.mir = s.mir ∧ t.auditAt = s.auditAt ∧ t.pcie = s.pcie ∧ t.fuses = s.fuses ∧ t.mon = s.mon ∧ t.laneCount = s.laneCount ∧ t.dir = s.dir ∧ t.blobs = s.blobs ∧ t.xlate = s.xlate ∧ t.chans = s.chans ∧ t.ledger = s.ledger ∧ t.bal = s.bal ∧ t.confUnmatched = s.confUnmatched ∧ t.slots = s.slots ∧ t.keys = s.keys ∧ t.slateNv = s.slateNv ∧ t.fwNv = s.fwNv ∧ t.fw = s.fw ∧ t.faultTimes = s.faultTimes) ∧
  (∀ (i : Nat) (s t : State), exec (.islrst i) s = .next t →
      t.pending = s.pending ∧ t.now = s.now ∧ t.mono = s.mono ∧ t.tickAt = s.tickAt ∧ t.timeLoaded = s.timeLoaded ∧ t.trustSeen = s.trustSeen ∧ t.cfg = s.cfg ∧ t.rrNext = s.rrNext ∧ t.fetchCtr = s.fetchCtr ∧ t.nextOp = s.nextOp ∧ t.glb = s.glb ∧ t.mir = s.mir ∧ t.auditAt = s.auditAt ∧ t.pcie = s.pcie ∧ t.fuses = s.fuses ∧ t.mon = s.mon ∧ t.sectors = s.sectors ∧ t.duty = s.duty ∧ t.dir = s.dir ∧ t.blobs = s.blobs ∧ t.xlate = s.xlate ∧ t.chans = s.chans ∧ t.ledger = s.ledger ∧ t.bal = s.bal ∧ t.confUnmatched = s.confUnmatched ∧ t.slots = s.slots ∧ t.keys = s.keys ∧ t.slateNv = s.slateNv ∧ t.fwNv = s.fwNv ∧ t.fw = s.fw ∧ t.safe = s.safe ∧ t.faultTimes = s.faultTimes) ∧
  (∀ (r : Req) (s t : State), exec (.resetRequest r) s = .next t →
      t = { s with out := t.out, mbxs := t.mbxs, ops := t.ops, nextOp := t.nextOp, evt := t.evt, boot := t.boot, bkp := t.bkp, slate := t.slate }) ∧
  (∀ (straps : BitVec 4) (opt : OptLoad) (s t : State), exec (.releaseStageEnd straps opt) s = .next t →
      t = { s with out := t.out, mbxs := t.mbxs, ops := t.ops, evt := t.evt, isl := t.isl, links := t.links, boot := t.boot, bkp := t.bkp, rf := t.rf, plc := t.plc, slots := t.slots, keys := t.keys, slate := t.slate, life := t.life }) ∧
  (∀ (i : Nat) (s t : State), exec (.genLockTimeout i) s = .next t →
      t = { s with freeCtr := t.freeCtr, out := t.out, mbxs := t.mbxs, ops := t.ops, evt := t.evt, isl := t.isl, links := t.links, bkp := t.bkp, rf := t.rf, lanes := t.lanes, laneCount := t.laneCount, roles := t.roles, rot := t.rot, plc := t.plc, slate := t.slate, life := t.life }) ∧
  (∀ (locked : Bool) (s t : State), exec (.synthLockRetry locked) s = .next t →
      t = { s with now := t.now, mono := t.mono, boot := t.boot }) ∧
  (∀ (failed : List Nat) (res : CoreBistIn) (s t : State), exec (.coreBist failed res) s = .next t →
      t = { s with out := t.out, evt := t.evt, boot := t.boot, bkp := t.bkp, slate := t.slate, life := t.life, safe := t.safe, faultTimes := t.faultTimes }) ∧
  (∀ (width speed : Nat) (s t : State), exec (.pcieLinkTrain width speed) s = .next t →
      t = { s with out := t.out, evt := t.evt, pcie := t.pcie, bkp := t.bkp, slate := t.slate }) ∧
  (∀ (ranks : List RankTrain) (s t : State), exec (.ddrTraining ranks) s = .next t →
      t = { s with out := t.out, evt := t.evt, isl := t.isl, boot := t.boot, bkp := t.bkp, mem := t.mem, slate := t.slate }) ∧
  (∀ (s t : State), exec .startScanReplay s = .next t →
      t = { s with trustSeen := t.trustSeen, out := t.out, mbxs := t.mbxs, ops := t.ops, evt := t.evt, boot := t.boot, bkp := t.bkp, rf := t.rf, chans := t.chans, jnv := t.jnv, jnl := t.jnl, prov := t.prov, roots := t.roots, ledger := t.ledger, slateNv := t.slateNv, slate := t.slate, life := t.life }) ∧
  (∀ (p : Nat) (s t : State), exec (.rfPortTrain p) s = .next t →
      t = { s with out := t.out, rf := t.rf }) ∧
  (∀ (p : Nat) (res : TrainIn) (s t : State), exec (.rfPortTrainEnd p res) s = .next t →
      t = { s with out := t.out, cfg := t.cfg, mbxs := t.mbxs, ops := t.ops, evt := t.evt, boot := t.boot, bkp := t.bkp, rf := t.rf, slate := t.slate }) ∧
  (∀ (offsets : List (Nat × Int × Int)) (s t : State), exec (.plcOffsetCal offsets) s = .next t →
      t = { s with out := t.out, evt := t.evt, boot := t.boot, plc := t.plc }) ∧
  (∀ (badIslands : List Nat) (lanes : LaneBistIn) (s t : State), exec (.dataplaneBist badIslands lanes) s = .next t →
      t = { s with out := t.out, evt := t.evt, boot := t.boot, rf := t.rf, laneCount := t.laneCount, roles := t.roles, rot := t.rot, plc := t.plc, life := t.life }) ∧
  (∀ (r : Req) (s t : State), exec (.trainReportGet r) s = .next t →
      t = { s with out := t.out, mbxs := t.mbxs, ops := t.ops, nextOp := t.nextOp, evt := t.evt, bkp := t.bkp, slate := t.slate })

/-- Firmware and lifecycle commands: which parts of the state each can change; all the others are as they were. -/
def Obligations.FirmwareCommandFrames : Prop :=
  (∀ (v : BootVerify) (s t : State), exec (.bootRomVerify v) s = .next t →
      t = { s with out := t.out, evt := t.evt, boot := t.boot, bkp := t.bkp, slate := t.slate, fwNv := t.fwNv, fw := t.fw }) ∧
  (∀ (r : Req) (s t : State), exec (.fwInfoGet r) s = .next t →
      t = { s with out := t.out, mbxs := t.mbxs, ops := t.ops, nextOp := t.nextOp, evt := t.evt, bkp := t.bkp, slate := t.slate }) ∧
  (∀ (r : Req) (s t : State), exec (.fwStageBegin r) s = .next t →
      t = { s with out := t.out, mbxs := t.mbxs, ops := t.ops, nextOp := t.nextOp, evt := t.evt, bkp := t.bkp, slate := t.slate, fwNv := t.fwNv, fw := t.fw }) ∧
  (∀ (s t : State), exec .stagingEraseDone s = .next t →
      t = { s with out := t.out, mbxs := t.mbxs, ops := t.ops, evt := t.evt, bkp := t.bkp, slate := t.slate, fw := t.fw }) ∧
  (∀ (r : Req) (s t : State), exec (.fwStageWrite r) s = .next t →
      t = { s with out := t.out, mbxs := t.mbxs, ops := t.ops, nextOp := t.nextOp, evt := t.evt, bkp := t.bkp, slate := t.slate, fw := t.fw }) ∧
  (∀ (r : Req) (s t : State), exec (.fwStageCommit r) s = .next t →
      t = { s with out := t.out, mbxs := t.mbxs, ops := t.ops, nextOp := t.nextOp, evt := t.evt, bkp := t.bkp, slate := t.slate, fwNv := t.fwNv, fw := t.fw }) ∧
  (∀ (r : Req) (s t : State), exec (.fwStageClear r) s = .next t →
      t = { s with out := t.out, mbxs := t.mbxs, ops := t.ops, nextOp := t.nextOp, evt := t.evt, bkp := t.bkp, slate := t.slate, fwNv := t.fwNv, fw := t.fw }) ∧
  (∀ (r : Req) (s t : State), exec (.fwPrepare r) s = .next t →
      t = { s with out := t.out, mbxs := t.mbxs, ops := t.ops, nextOp := t.nextOp, evt := t.evt, bkp := t.bkp, slate := t.slate, fwNv := t.fwNv, fw := t.fw }) ∧
  (∀ (fault : Option Nat) (s t : State), exec (.fwPrepareDone fault) s = .next t →
      t = { s with freeCtr := t.freeCtr, out := t.out, mbxs := t.mbxs, ops := t.ops, evt := t.evt, bkp := t.bkp, slate := t.slate, fwNv := t.fwNv, fw := t.fw }) ∧
  (∀ (r : Req) (s t : State), exec (.fwMicrocodeAt r) s = .next t →
      t = { s with out := t.out, mbxs := t.mbxs, ops := t.ops, nextOp := t.nextOp, evt := t.evt, bkp := t.bkp, slate := t.slate, fw := t.fw, maint := t.maint }) ∧
  (∀ (s t : State), exec .microcodeSwitch s = .next t →
      t = { s with now := t.now, mono := t.mono, freeCtr := t.freeCtr, out := t.out, evt := t.evt, lanes := t.lanes, fw := t.fw, maint := t.maint }) ∧
  (∀ (r : Req) (s t : State), exec (.fwActivate r) s = .next t →
      t = { s with out := t.out, mbxs := t.mbxs, ops := t.ops, nextOp := t.nextOp, evt := t.evt, bkp := t.bkp, slate := t.slate, fw := t.fw }) ∧
  (∀ (s t : State), exec .activationPauseOverrun s = .next t →
      t = { s with now := t.now, mono := t.mono, boot := t.boot, fwNv := t.fwNv }) ∧
  (∀ (r : Req) (s t : State), exec (.fwConfirm r) s = .next t →
      t = { s with out := t.out, mbxs := t.mbxs, ops := t.ops, nextOp := t.nextOp, evt := t.evt, boot := t.boot, bkp := t.bkp, slate := t.slate, fwNv := t.fwNv, fw := t.fw }) ∧
  (∀ (s t : State), exec .confirmTimerExpiry s = .next t →
      t = { s with now := t.now, mono := t.mono, boot := t.boot, fwNv := t.fwNv }) ∧
  (∀ (r : Req) (image : Option (List Byte)) (s t : State), exec (.fwHostBoot r image) s = .next t →
      t = { s with freeCtr := t.freeCtr, out := t.out, mbxs := t.mbxs, ops := t.ops, nextOp := t.nextOp, evt := t.evt, boot := t.boot, bkp := t.bkp, slate := t.slate, fw := t.fw }) ∧
  (∀ (r : Req) (s t : State), exec (.lifecycleAdvance r) s = .next t →
      t = { s with out := t.out, mbxs := t.mbxs, ops := t.ops, nextOp := t.nextOp, evt := t.evt, boot := t.boot, fuses := t.fuses, bkp := t.bkp, slots := t.slots, keys := t.keys, slate := t.slate, life := t.life }) ∧
  (∀ (r : Req) (s t : State), exec (.custKeyProgram r) s = .next t →
      t = { s with out := t.out, mbxs := t.mbxs, ops := t.ops, nextOp := t.nextOp, evt := t.evt, fuses := t.fuses, bkp := t.bkp, slate := t.slate })

/-- Lane, queue and rotation commands: which parts of the state each can change; all the others are as they were. -/
def Obligations.LaneCommandFrames : Prop :=
  (∀ (p : Nat) (slot : IqSlot) (s t : State), exec (.iqSlotReceive p slot) s = .next t →
      t = { s with freeCtr := t.freeCtr, out := t.out, evt := t.evt, rf := t.rf, lanes := t.lanes }) ∧
  (∀ (p : Nat) (s t : State), exec (.rxclkStop p) s = .next t →
      t = { s with freeCtr := t.freeCtr, out := t.out, evt := t.evt, rf := t.rf, lanes := t.lanes }) ∧
  (∀ (p : Nat) (s t : State), exec (.overloadWindow p) s = .next t →
      t = { s with rf := t.rf }) ∧
  (∀ (lane : Nat) (power : Power) (shr : ShrIn) (s t : State), exec (.shrDetect lane power shr) s = .next t →
      t = { s with lanes := t.lanes }) ∧
  (∀ (lane : Nat) (phr : BitVec 16) (s t : State), exec (.phrDecode lane phr) s = .next t →
      t = { s with lanes := t.lanes }) ∧
  (∀ (lane : Nat) (word : DWord) (s t : State), exec (.psduWordPush lane word) s = .next t →
      t = { s with lanes := t.lanes }) ∧
  (∀ (lane : Nat) (fin : FrameEnd) (s t : State), exec (.laneFrameEnd lane fin) s = .next t →
      t = { s with now := t.now, mono := t.mono, lanes := t.lanes }) ∧
  (∀ (lane : Nat) (fin : FrameEnd) (s t : State), exec (.overflowTrailerPush lane fin) s = .next t →
      t = { s with lanes := t.lanes }) ∧
  (∀ (p : Nat) (s t : State), exec (.blankingEnd p) s = .next t →
      t = { s with now := t.now, mono := t.mono, rf := t.rf, lanes := t.lanes }) ∧
  (∀ (r : Req) (s t : State), exec (.laneAssign r) s = .next t →
      t = { s with freeCtr := t.freeCtr, out := t.out, cfg := t.cfg, mbxs := t.mbxs, ops := t.ops, nextOp := t.nextOp, evt := t.evt, bkp := t.bkp, lanes := t.lanes, roles := t.roles, rot := t.rot, slate := t.slate }) ∧
  (∀ (lane : Nat) (s t : State), exec (.laneSwitch lane) s = .next t →
      t = { s with out := t.out, mbxs := t.mbxs, ops := t.ops, evt := t.evt, bkp := t.bkp, lanes := t.lanes, roles := t.roles, rot := t.rot, slate := t.slate }) ∧
  (∀ (r : Req) (s t : State), exec (.laneTableGet r) s = .next t →
      t = { s with out := t.out, mbxs := t.mbxs, ops := t.ops, nextOp := t.nextOp, evt := t.evt, bkp := t.bkp, slate := t.slate }) ∧
  (∀ (r : Req) (s t : State), exec (.laneStatsGet r) s = .next t →
      t = { s with freeCtr := t.freeCtr, out := t.out, mbxs := t.mbxs, ops := t.ops, nextOp := t.nextOp, evt := t.evt, bkp := t.bkp, lanes := t.lanes, slate := t.slate }) ∧
  (∀ (r : Req) (s t : State), exec (.laneStatsClear r) s = .next t →
      t = { s with out := t.out, mbxs := t.mbxs, ops := t.ops, nextOp := t.nextOp, evt := t.evt, bkp := t.bkp, lanes := t.lanes, slate := t.slate }) ∧
  (∀ (r : Req) (s t : State), exec (.rfPortStatusGet r) s = .next t →
      t = { s with out := t.out, mbxs := t.mbxs, ops := t.ops, nextOp := t.nextOp, evt := t.evt, bkp := t.bkp, slate := t.slate }) ∧
  (∀ (q : Nat) (word : DWord) (last : Bool) (code : BitVec 16) (s t : State), exec (.queuePush q word last code) s = .next t →
      t = { s with lanes := t.lanes, plc := t.plc }) ∧
  (∀ (q : Nat) (s t : State), exec (.queueDoom q) s = .next t →
      t = { s with lanes := t.lanes, plc := t.plc }) ∧
  (∀ (q : Nat) (s t : State), exec (.queueRead q) s = .next t →
      t = { s with lanes := t.lanes, plc := t.plc }) ∧
  (∀ (q : Nat) (s t : State), exec (.dropRest q) s = .next t →
      t = { s with lanes := t.lanes, plc := t.plc }) ∧
  (∀ (q : Nat) (s t : State), exec (.noticePop q) s = .next t →
      t = { s with lanes := t.lanes, plc := t.plc }) ∧
  (∀ (r : Req) (s t : State), exec (.balRerun r) s = .next t →
      t = { s with out := t.out, mbxs := t.mbxs, ops := t.ops, nextOp := t.nextOp, evt := t.evt, bkp := t.bkp, bal := t.bal, slate := t.slate }) ∧
  (∀ (s t : State), exec .rotationStep s = .next t →
      t = { s with now := t.now, mono := t.mono, freeCtr := t.freeCtr, roles := t.roles, rot := t.rot, maint := t.maint }) ∧
  (∀ (s t : State), exec .rotationHandover s = .next t →
      t = { s with now := t.now, mono := t.mono, roles := t.roles, rot := t.rot }) ∧
  (∀ (pass : Bool) (s t : State), exec (.laneTestEnd pass) s = .next t →
      t = { s with freeCtr := t.freeCtr, out := t.out, mbxs := t.mbxs, ops := t.ops, evt := t.evt, bkp := t.bkp, lanes := t.lanes, laneCount := t.laneCount, roles := t.roles, rot := t.rot, slate := t.slate, life := t.life, maint := t.maint }) ∧
  (∀ (lane : Nat) (s t : State), exec (.rotationLate lane) s = .next t →
      t = { s with now := t.now, mono := t.mono, out := t.out, evt := t.evt, rot := t.rot }) ∧
  (∀ (i : Nat) (res : IslandBistIn) (s t : State), exec (.islandBistEnd i res) s = .next t →
      t = { s with freeCtr := t.freeCtr, out := t.out, mbxs := t.mbxs, ops := t.ops, evt := t.evt, isl := t.isl, links := t.links, bkp := t.bkp, rf := t.rf, lanes := t.lanes, laneCount := t.laneCount, roles := t.roles, rot := t.rot, plc := t.plc, slate := t.slate, life := t.life }) ∧
  (∀ (act : Nat) (s t : State), exec (.maintTokenGrant act) s = .next t →
      t = { s with now := t.now, mono := t.mono, dir := t.dir, maint := t.maint }) ∧
  (∀ (r : Req) (s t : State), exec (.laneMapGet r) s = .next t →
      t = { s with out := t.out, mbxs := t.mbxs, ops := t.ops, nextOp := t.nextOp, evt := t.evt, bkp := t.bkp, slate := t.slate }) ∧
  (∀ (r : Req) (s t : State), exec (.repairLedgerGet r) s = .next t →
      t = { s with out := t.out, mbxs := t.mbxs, ops := t.ops, nextOp := t.nextOp, evt := t.evt, bkp := t.bkp, slate := t.slate }) ∧
  (∀ (r : Req) (s t : State), exec (.rotationStatusGet r) s = .next t →
      t = { s with out := t.out, mbxs := t.mbxs, ops := t.ops, nextOp := t.nextOp, evt := t.evt, bkp := t.bkp, slate := t.slate }) ∧
  (∀ (r : Req) (s t : State), exec (.maintStatusGet r) s = .next t →
      t = { s with out := t.out, mbxs := t.mbxs, ops := t.ops, nextOp := t.nextOp, evt := t.evt, bkp := t.bkp, slate := t.slate })

/-- Beacon, downlink and connected-mode commands: which parts of the state each can change; all the others are as they were. -/
def Obligations.AirCommandFrames : Prop :=
  (∀ (p t : Nat) (s s' : State), exec (.blankingStart p t) s = .next s' →
      s' = { s with now := s'.now, mono := s'.mono, freeCtr := s'.freeCtr, rf := s'.rf, lanes := s'.lanes }) ∧
  (∀ (r : Req) (s t : State), exec (.bandProfileSet r) s = .next t →
      t = { s with out := t.out, cfg := t.cfg, mbxs := t.mbxs, ops := t.ops, nextOp := t.nextOp, evt := t.evt, bkp := t.bkp, slate := t.slate }) ∧
  (∀ (r : Req) (s t : State), exec (.bandProfileGet r) s = .next t →
      t = { s with out := t.out, mbxs := t.mbxs, ops := t.ops, nextOp := t.nextOp, evt := t.evt, bkp := t.bkp, slate := t.slate }) ∧
  (∀ (r : Req) (s t : State), exec (.dutyStatusGet r) s = .next t →
      t = { s with out := t.out, mbxs := t.mbxs, ops := t.ops, nextOp := t.nextOp, evt := t.evt, bkp := t.bkp, slate := t.slate }) ∧
  (∀ (r : Req) (s t : State), exec (.sectorStatusGet r) s = .next t →
      t = { s with out := t.out, mbxs := t.mbxs, ops := t.ops, nextOp := t.nextOp, evt := t.evt, bkp := t.bkp, slate := t.slate }) ∧
  (∀ (r : Req) (s t : State), exec (.connectOpen r) s = .next t →
      t = { s with out := t.out, mbxs := t.mbxs, ops := t.ops, nextOp := t.nextOp, evt := t.evt, bkp := t.bkp, sectors := t.sectors, eps := t.eps, mem := t.mem, slate := t.slate }) ∧
  (∀ (r : Req) (s t : State), exec (.connectClose r) s = .next t →
      t = { s with out := t.out, mbxs := t.mbxs, ops := t.ops, nextOp := t.nextOp, evt := t.evt, bkp := t.bkp, sectors := t.sectors, eps := t.eps, mem := t.mem, slate := t.slate }) ∧
  (∀ (r : Req) (s t : State), exec (.airStateGet r) s = .next t →
      t = { s with out := t.out, mbxs := t.mbxs, ops := t.ops, nextOp := t.nextOp, evt := t.evt, bkp := t.bkp, mem := t.mem, slate := t.slate }) ∧
  (∀ (p b : Nat) (s t : State), exec (.beaconDue p b) s = .next t →
      t = { s with now := t.now, mono := t.mono, out := t.out, evt := t.evt, bkp := t.bkp, sectors := t.sectors, slate := t.slate }) ∧
  (∀ (p : Nat) (power : Power) (s t : State), exec (.lbtListenEnd p power) s = .next t →
      t = { s with freeCtr := t.freeCtr, out := t.out, evt := t.evt, sectors := t.sectors, keys := t.keys }) ∧
  (∀ (p : Nat) (s t : State), exec (.lbtBackoffEnd p) s = .next t →
      t = { s with now := t.now, mono := t.mono, sectors := t.sectors }) ∧
  (∀ (p t : Nat) (s s' : State), exec (.beaconTxStart p t) s = .next s' →
      s' = { s with now := s'.now, mono := s'.mono, freeCtr := s'.freeCtr, out := s'.out, evt := s'.evt, bkp := s'.bkp, rf := s'.rf, lanes := s'.lanes, sectors := s'.sectors, duty := s'.duty, slots := s'.slots, keys := s'.keys, slate := s'.slate, life := s'.life }) ∧
  (∀ (p : Nat) (s t : State), exec (.beaconMiss p) s = .next t →
      t = { s with now := t.now, mono := t.mono, out := t.out, evt := t.evt, bkp := t.bkp, sectors := t.sectors, slate := t.slate }) ∧
  (∀ (p : Nat) (s t : State), exec (.fallbackRetry p) s = .next t →
      t = { s with sectors := t.sectors }) ∧
  (∀ (p b : Nat) (s t : State), exec (.deepBeaconTx p b) s = .next t →
      t = { s with freeCtr := t.freeCtr, out := t.out, evt := t.evt, bkp := t.bkp, rf := t.rf, lanes := t.lanes, sectors := t.sectors, duty := t.duty, slots := t.slots, keys := t.keys, slate := t.slate, life := t.life }) ∧
  (∀ (p lane : Nat) (s t : State), exec (.linkAckTx p lane) s = .next t →
      t = { s with now := t.now, mono := t.mono, freeCtr := t.freeCtr, out := t.out, evt := t.evt, rf := t.rf, lanes := t.lanes, sectors := t.sectors, duty := t.duty }) ∧
  (∀ (p h t : Nat) (s s' : State), exec (.downlinkTx p h t) s = .next s' →
      s' = { s with now := s'.now, mono := s'.mono, freeCtr := s'.freeCtr, out := s'.out, evt := s'.evt, bkp := s'.bkp, rf := s'.rf, lanes := s'.lanes, sectors := s'.sectors, duty := s'.duty, eps := s'.eps, mem := s'.mem, camps := s'.camps, slots := s'.slots, keys := s'.keys, slate := s'.slate, life := s'.life, safe := s'.safe, faultTimes := s'.faultTimes }) ∧
  (∀ (p t : Nat) (s s' : State), exec (.transmissionEnd p t) s = .next s' →
      s' = { s with now := s'.now, mono := s'.mono, rf := s'.rf, sectors := s'.sectors, duty := s'.duty, eps := s'.eps }) ∧
  (∀ (p sb : Nat) (s t : State), exec (.chargeExpiry p sb) s = .next t →
      t = { s with now := t.now, mono := t.mono, duty := t.duty }) ∧
  (∀ (h : Nat) (s t : State), exec (.arrivalWindowClose h) s = .next t →
      t = { s with now := t.now, mono := t.mono, eps := t.eps, mem := t.mem }) ∧
  (∀ (h : Nat) (s t : State), exec (.supervisionTimeout h) s = .next t →
      t = { s with now := t.now, mono := t.mono, out := t.out, evt := t.evt, eps := t.eps, mem := t.mem }) ∧
  (∀ (h : Nat) (power : Power) (s t : State), exec (.connectionEvent h power) s = .next t →
      t = { s with now := t.now, mono := t.mono, freeCtr := t.freeCtr, out := t.out, evt := t.evt, bkp := t.bkp, rf := t.rf, lanes := t.lanes, sectors := t.sectors, duty := t.duty, eps := t.eps, mem := t.mem, camps := t.camps, slots := t.slots, keys := t.keys, slate := t.slate, life := t.life, safe := t.safe, faultTimes := t.faultTimes }) ∧
  (∀ (h : Nat) (s t : State), exec (.connectReplyTimeout h) s = .next t →
      t = { s with now := t.now, mono := t.mono, sectors := t.sectors, eps := t.eps, mem := t.mem }) ∧
  (∀ (h : Nat) (s t : State), exec (.openTimeout h) s = .next t →
      t = { s with now := t.now, mono := t.mono, out := t.out, evt := t.evt, sectors := t.sectors, eps := t.eps, mem := t.mem }) ∧
  (∀ (h : Nat) (s t : State), exec (.connSupervisionExpiry h) s = .next t →
      t = { s with now := t.now, mono := t.mono, out := t.out, evt := t.evt, sectors := t.sectors, eps := t.eps, mem := t.mem })

/-- Power-line commands: which parts of the state each can change; all the others are as they were. -/
def Obligations.PowerLineCommandFrames : Prop :=
  (∀ (q t : Nat) (s s' : State), exec (.ldFault q t) s = .next s' →
      s' = { s with now := s'.now, mono := s'.mono, freeCtr := s'.freeCtr, out := s'.out, mbxs := s'.mbxs, ops := s'.ops, evt := s'.evt, bkp := s'.bkp, plc := s'.plc, plcMac := s'.plcMac, eps := s'.eps, mem := s'.mem, jnv := s'.jnv, jnl := s'.jnl, prov := s'.prov, roots := s'.roots, camps := s'.camps, slate := s'.slate, life := s'.life }) ∧
  (∀ (q : Nat) (s t : State), exec (.ldFaultRetry q) s = .next t →
      t = { s with now := t.now, mono := t.mono, out := t.out, evt := t.evt, bkp := t.bkp, plc := t.plc, plcMac := t.plcMac, eps := t.eps, mem := t.mem, slots := t.slots, keys := t.keys, slate := t.slate, life := t.life, safe := t.safe, faultTimes := t.faultTimes }) ∧
  (∀ (group t : Nat) (s s' : State), exec (.transactionStart group t) s = .next s' →
      s' = { s with now := s'.now, mono := s'.mono, out := s'.out, evt := s'.evt, bkp := s'.bkp, plc := s'.plc, plcMac := s'.plcMac, eps := s'.eps, mem := s'.mem, camps := s'.camps, slots := s'.slots, keys := s'.keys, slate := s'.slate, life := s'.life, safe := s'.safe, faultTimes := s'.faultTimes }) ∧
  (∀ (q : Nat) (hdr : PlcHdrIn) (s t : State), exec (.plcHeaderDecode q hdr) s = .next t →
      t = { s with now := t.now, mono := t.mono, plc := t.plc }) ∧
  (∀ (q : Nat) (sym : PlcSymIn) (s t : State), exec (.plcSymbolReceive q sym) s = .next t →
      t = { s with plc := t.plc }) ∧
  (∀ (q : Nat) (fin : PlcEnd) (s t : State), exec (.plcFrameEnd q fin) s = .next t →
      t = { s with now := t.now, mono := t.mono, freeCtr := t.freeCtr, out := t.out, mbxs := t.mbxs, ops := t.ops, evt := t.evt, bkp := t.bkp, plc := t.plc, plcMac := t.plcMac, eps := t.eps, mem := t.mem, jnv := t.jnv, jnl := t.jnl, prov := t.prov, roots := t.roots, camps := t.camps, slate := t.slate, life := t.life }) ∧
  (∀ (q : Nat) (fin : PlcEnd) (s t : State), exec (.plcOverflowTrailer q fin) s = .next t →
      t = { s with freeCtr := t.freeCtr, plc := t.plc }) ∧
  (∀ (group : Nat) (s t : State), exec (.pollDeadline group) s = .next t →
      t = { s with now := t.now, mono := t.mono, freeCtr := t.freeCtr, out := t.out, mbxs := t.mbxs, ops := t.ops, evt := t.evt, bkp := t.bkp, plc := t.plc, plcMac := t.plcMac, eps := t.eps, mem := t.mem, jnv := t.jnv, jnl := t.jnl, prov := t.prov, roots := t.roots, camps := t.camps, slate := t.slate, life := t.life }) ∧
  (∀ (group : Nat) (s t : State), exec (.retryGapExpiry group) s = .next t →
      t = { s with now := t.now, mono := t.mono, out := t.out, evt := t.evt, bkp := t.bkp, plc := t.plc, plcMac := t.plcMac, eps := t.eps, mem := t.mem, slots := t.slots, keys := t.keys, slate := t.slate, life := t.life, safe := t.safe, faultTimes := t.faultTimes }) ∧
  (∀ (h : Nat) (s t : State), exec (.readDue h) s = .next t →
      t = { s with now := t.now, mono := t.mono, plc := t.plc, plcMac := t.plcMac }) ∧
  (∀ (h : Nat) (s t : State), exec (.custodyMaxExpiry h) s = .next t →
      t = { s with now := t.now, mono := t.mono, plcMac := t.plcMac }) ∧
  (∀ (s t : State), exec .nbrDue s = .next t →
      t = { s with now := t.now, mono := t.mono, plcMac := t.plcMac, eps := t.eps, mem := t.mem }) ∧
  (∀ (h : Nat) (s t : State), exec (.unreachRetry h) s = .next t →
      t = { s with now := t.now, mono := t.mono, plcMac := t.plcMac }) ∧
  (∀ (s t : State), exec .routeRecalc s = .next t →
      t = { s with now := t.now, mono := t.mono, out := t.out, evt := t.evt, plcMac := t.plcMac, eps := t.eps, mem := t.mem }) ∧
  (∀ (i : Nat) (s t : State), exec (.linkAgeExpiry i) s = .next t →
      t = { s with now := t.now, mono := t.mono, plcMac := t.plcMac }) ∧
  (∀ (q : Nat) (m : CalIn) (s t : State), exec (.plcCalibrationDone q m) s = .next t →
      t = { s with now := t.now, mono := t.mono, out := t.out, mbxs := t.mbxs, ops := t.ops, evt := t.evt, bkp := t.bkp, plc := t.plc, slate := t.slate }) ∧
  (∀ (r : Req) (s t : State), exec (.plcPortStatusGet r) s = .next t →
      t = { s with out := t.out, mbxs := t.mbxs, ops := t.ops, nextOp := t.nextOp, evt := t.evt, bkp := t.bkp, slate := t.slate }) ∧
  (∀ (r : Req) (s t : State), exec (.plcCalGet r) s = .next t →
      t = { s with out := t.out, mbxs := t.mbxs, ops := t.ops, nextOp := t.nextOp, evt := t.evt, bkp := t.bkp, slate := t.slate }) ∧
  (∀ (r : Req) (s t : State), exec (.plcRecalibrate r) s = .next t →
      t = { s with out := t.out, mbxs := t.mbxs, ops := t.ops, nextOp := t.nextOp, evt := t.evt, bkp := t.bkp, plc := t.plc, slate := t.slate }) ∧
  (∀ (r : Req) (s t : State), exec (.plcLinkGet r) s = .next t →
      t = { s with out := t.out, mbxs := t.mbxs, ops := t.ops, nextOp := t.nextOp, evt := t.evt, bkp := t.bkp, slate := t.slate }) ∧
  (∀ (r : Req) (s t : State), exec (.plcRouteGet r) s = .next t →
      t = { s with out := t.out, mbxs := t.mbxs, ops := t.ops, nextOp := t.nextOp, evt := t.evt, bkp := t.bkp, slate := t.slate }) ∧
  (∀ (r : Req) (s t : State), exec (.plcRouteProposalsGet r) s = .next t →
      t = { s with out := t.out, mbxs := t.mbxs, ops := t.ops, nextOp := t.nextOp, evt := t.evt, bkp := t.bkp, slate := t.slate }) ∧
  (∀ (r : Req) (s t : State), exec (.plcRouteSet r) s = .next t →
      t = { s with out := t.out, mbxs := t.mbxs, ops := t.ops, nextOp := t.nextOp, evt := t.evt, bkp := t.bkp, plcMac := t.plcMac, eps := t.eps, mem := t.mem, slate := t.slate }) ∧
  (∀ (r : Req) (s t : State), exec (.plcRouteUnpin r) s = .next t →
      t = { s with out := t.out, mbxs := t.mbxs, ops := t.ops, nextOp := t.nextOp, evt := t.evt, bkp := t.bkp, eps := t.eps, mem := t.mem, slate := t.slate }) ∧
  (∀ (r : Req) (s t : State), exec (.plcPollNow r) s = .next t →
      t = { s with out := t.out, mbxs := t.mbxs, ops := t.ops, nextOp := t.nextOp, evt := t.evt, bkp := t.bkp, plcMac := t.plcMac, slate := t.slate }) ∧
  (∀ (q : Nat) (s t : State), exec (.plcTransmitEnd q) s = .next t →
      t = { s with now := t.now, mono := t.mono, plc := t.plc, eps := t.eps })

/-- Directory, admission and memory commands: which parts of the state each can change; all the others are as they were. -/
def Obligations.DirectoryCommandFrames : Prop :=
  (∀ (lane : Nat) (s t : State), exec (.directoryAirPacket lane) s = .next t →
      t = { s with now := t.now, mono := t.mono, out := t.out, evt := t.evt, bkp := t.bkp, lanes := t.lanes, sectors := t.sectors, duty := t.duty, dir := t.dir, eps := t.eps, mem := t.mem, ledger := t.ledger, slate := t.slate }) ∧
  (∀ (q : Nat) (s t : State), exec (.directoryPlcPacket q) s = .next t →
      t = { s with freeCtr := t.freeCtr, out := t.out, mbxs := t.mbxs, ops := t.ops, evt := t.evt, bkp := t.bkp, plc := t.plc, plcMac := t.plcMac, dir := t.dir, eps := t.eps, mem := t.mem, jnv := t.jnv, jnl := t.jnl, prov := t.prov, roots := t.roots, ledger := t.ledger, camps := t.camps, slate := t.slate, life := t.life }) ∧
  (∀ (frame : Nat) (s t : State), exec (.serialRelease frame) s = .next t →
      t = { s with freeCtr := t.freeCtr, out := t.out, mbxs := t.mbxs, ops := t.ops, evt := t.evt, bkp := t.bkp, sectors := t.sectors, plc := t.plc, plcMac := t.plcMac, dir := t.dir, eps := t.eps, mem := t.mem, jnv := t.jnv, jnl := t.jnl, prov := t.prov, roots := t.roots, ledger := t.ledger, camps := t.camps, slots := t.slots, keys := t.keys, slate := t.slate, life := t.life }) ∧
  (∀ (s t : State), exec .fetchBufferFree s = .next t →
      t = { s with dir := t.dir, eps := t.eps, mem := t.mem }) ∧
  (∀ (h : Nat) (ue : FetchIn) (s t : State), exec (.contextFetchComplete h ue) s = .next t →
      t = { s with out := t.out, mbxs := t.mbxs, ops := t.ops, evt := t.evt, bkp := t.bkp, plcMac := t.plcMac, dir := t.dir, eps := t.eps, mem := t.mem, jnv := t.jnv, jnl := t.jnl, prov := t.prov, roots := t.roots, ledger := t.ledger, camps := t.camps, slate := t.slate, life := t.life, maint := t.maint }) ∧
  (∀ (h : Nat) (s t : State), exec (.writebackDone h) s = .next t →
      t = { s with mem := t.mem }) ∧
  (∀ (r : Req) (s t : State), exec (.enrol r) s = .next t →
      t = { s with out := t.out, mbxs := t.mbxs, ops := t.ops, nextOp := t.nextOp, evt := t.evt, bkp := t.bkp, dir := t.dir, eps := t.eps, mem := t.mem, jnv := t.jnv, jnl := t.jnl, prov := t.prov, roots := t.roots, ledger := t.ledger, bal := t.bal, slate := t.slate, life := t.life, maint := t.maint }) ∧
  (∀ (r : Req) (s t : State), exec (.withdraw r) s = .next t →
      t = { s with out := t.out, mbxs := t.mbxs, ops := t.ops, nextOp := t.nextOp, evt := t.evt, bkp := t.bkp, sectors := t.sectors, plcMac := t.plcMac, dir := t.dir, eps := t.eps, mem := t.mem, jnv := t.jnv, jnl := t.jnl, prov := t.prov, roots := t.roots, ledger := t.ledger, slate := t.slate, life := t.life }) ∧
  (∀ (h : Nat) (s t : State), exec (.retirementComplete h) s = .next t →
      t = { s with out := t.out, mbxs := t.mbxs, ops := t.ops, evt := t.evt, bkp := t.bkp, sectors := t.sectors, plcMac := t.plcMac, dir := t.dir, eps := t.eps, mem := t.mem, jnv := t.jnv, jnl := t.jnl, prov := t.prov, roots := t.roots, ledger := t.ledger, camps := t.camps, slate := t.slate, life := t.life }) ∧
  (∀ (h : Nat) (s t : State), exec (.retireHoldExpiry h) s = .next t →
      t = { s with now := t.now, mono := t.mono, out := t.out, mbxs := t.mbxs, ops := t.ops, evt := t.evt, bkp := t.bkp, sectors := t.sectors, plcMac := t.plcMac, dir := t.dir, eps := t.eps, mem := t.mem, jnv := t.jnv, jnl := t.jnl, prov := t.prov, roots := t.roots, ledger := t.ledger, camps := t.camps, slate := t.slate, life := t.life }) ∧
  (∀ (r : Req) (s t : State), exec (.admitStateSet r) s = .next t →
      t = { s with out := t.out, mbxs := t.mbxs, ops := t.ops, nextOp := t.nextOp, evt := t.evt, bkp := t.bkp, dir := t.dir, eps := t.eps, mem := t.mem, slate := t.slate }) ∧
  (∀ (r : Req) (s t : State), exec (.endpointUpdate r) s = .next t →
      t = { s with out := t.out, mbxs := t.mbxs, ops := t.ops, nextOp := t.nextOp, evt := t.evt, bkp := t.bkp, eps := t.eps, mem := t.mem, ledger := t.ledger, slate := t.slate }) ∧
  (∀ (r : Req) (s t : State), exec (.endpointGet r) s = .next t →
      t = { s with out := t.out, mbxs := t.mbxs, ops := t.ops, nextOp := t.nextOp, evt := t.evt, bkp := t.bkp, mem := t.mem, slate := t.slate }) ∧
  (∀ (r : Req) (s t : State), exec (.addrLookup r) s = .next t →
      t = { s with out := t.out, mbxs := t.mbxs, ops := t.ops, nextOp := t.nextOp, evt := t.evt, bkp := t.bkp, dir := t.dir, slate := t.slate }) ∧
  (∀ (r : Req) (s t : State), exec (.tallyGet r) s = .next t →
      t = { s with out := t.out, mbxs := t.mbxs, ops := t.ops, nextOp := t.nextOp, evt := t.evt, bkp := t.bkp, mem := t.mem, slate := t.slate }) ∧
  (∀ (r : Req) (s t : State), exec (.tallyClear r) s = .next t →
      t = { s with out := t.out, mbxs := t.mbxs, ops := t.ops, nextOp := t.nextOp, evt := t.evt, bkp := t.bkp, eps := t.eps, mem := t.mem, ledger := t.ledger, slate := t.slate }) ∧
  (∀ (r : Req) (s t : State), exec (.dirStatusGet r) s = .next t →
      t = { s with out := t.out, mbxs := t.mbxs, ops := t.ops, nextOp := t.nextOp, evt := t.evt, bkp := t.bkp, slate := t.slate }) ∧
  (∀ (r : Req) (s t : State), exec (.dirRehash r) s = .next t →
      t = { s with out := t.out, mbxs := t.mbxs, ops := t.ops, nextOp := t.nextOp, evt := t.evt, bkp := t.bkp, dir := t.dir, slate := t.slate, maint := t.maint }) ∧
  (∀ (s t : State), exec .rehashEnd s = .next t →
      t = { s with out := t.out, mbxs := t.mbxs, ops := t.ops, evt := t.evt, bkp := t.bkp, dir := t.dir, slate := t.slate, maint := t.maint }) ∧
  (∀ (r : Req) (s t : State), exec (.unknownGet r) s = .next t →
      t = { s with out := t.out, mbxs := t.mbxs, ops := t.ops, nextOp := t.nextOp, evt := t.evt, bkp := t.bkp, slate := t.slate }) ∧
  (∀ (r : Req) (s t : State), exec (.unknownClear r) s = .next t →
      t = { s with out := t.out, mbxs := t.mbxs, ops := t.ops, nextOp := t.nextOp, evt := t.evt, bkp := t.bkp, dir := t.dir, slate := t.slate }) ∧
  (∀ (res : ScrubIn) (s t : State), exec (.patrolScrub res) s = .next t →
      t.pending = s.pending ∧ t.tickAt = s.tickAt ∧ t.timeLoaded = s.timeLoaded ∧ t.trustSeen = s.trustSeen ∧ t.cfg = s.cfg ∧ t.rrNext = s.rrNext ∧ t.fetchCtr = s.fetchCtr ∧ t.nextOp = s.nextOp ∧ t.glb = s.glb ∧ t.mir = s.mir ∧ t.isl = s.isl ∧ t.links = s.links ∧ t.auditAt = s.auditAt ∧ t.boot = s.boot ∧ t.pcie = s.pcie ∧ t.fuses = s.fuses ∧ t.mon = s.mon ∧ t.rf = s.rf ∧ t.lanes = s.lanes ∧ t.laneCount = s.laneCount ∧ t.roles = s.roles ∧ t.rot = s.rot ∧ t.duty = s.duty ∧ t.plc = s.plc ∧ t.blobs = s.blobs ∧ t.xlate = s.xlate ∧ t.confUnmatched = s.confUnmatched ∧ t.slots = s.slots ∧ t.slateNv = s.slateNv ∧ t.fwNv = s.fwNv ∧ t.fw = s.fw ∧ t.safe = s.safe ∧ t.faultTimes = s.faultTimes) ∧
  (∀ (ok : Bool) (s t : State), exec (.softRepair ok) s = .next t →
      t = { s with out := t.out, evt := t.evt, mem := t.mem, life := t.life, maint := t.maint }) ∧
  (∀ (r : Req) (s t : State), exec (.memStatusGet r) s = .next t →
      t = { s with out := t.out, mbxs := t.mbxs, ops := t.ops, nextOp := t.nextOp, evt := t.evt, bkp := t.bkp, slate := t.slate })

/-- Tariff and ledger commands: which parts of the state each can change; all the others are as they were. -/
def Obligations.LedgerCommandFrames : Prop :=
  (∀ (index t : Nat) (s s' : State), exec (.calTransition index t) s = .next s' →
      s' = { s with now := s'.now, mono := s'.mono, out := s'.out, evt := s'.evt, jnv := s'.jnv, jnl := s'.jnl, prov := s'.prov, roots := s'.roots, ledger := s'.ledger, life := s'.life }) ∧
  (∀ (index count : Nat) (s t : State), exec (.ledgerSweep index count) s = .next t →
      t = { s with now := t.now, mono := t.mono, eps := t.eps, mem := t.mem, prov := t.prov, ledger := t.ledger }) ∧
  (∀ (s t : State), exec .stmtBundleTimeout s = .next t →
      t = { s with now := t.now, mono := t.mono, prov := t.prov, ledger := t.ledger }) ∧
  (∀ (s t : State), exec .ledgerSeal s = .next t →
      t = { s with now := t.now, mono := t.mono, eps := t.eps, mem := t.mem, jnv := t.jnv, prov := t.prov, roots := t.roots, ledger := t.ledger }) ∧
  (∀ (page : Nat) (s t : State), exec (.durabilityExpiry page) s = .next t →
      t = { s with now := t.now, mono := t.mono, out := t.out, evt := t.evt, bkp := t.bkp, ledger := t.ledger, slate := t.slate }) ∧
  (∀ (s t : State), exec .pwrfailAssert s = .next t →
      t = { s with out := t.out, evt := t.evt, mon := t.mon, jnv := t.jnv, jnl := t.jnl, prov := t.prov, roots := t.roots, ledger := t.ledger, life := t.life }) ∧
  (∀ (s t : State), exec .pwrfailDeassert s = .next t →
      t = { s with out := t.out, evt := t.evt, mon := t.mon, jnv := t.jnv, jnl := t.jnl, prov := t.prov, roots := t.roots, life := t.life }) ∧
  (∀ (r : Req) (s t : State), exec (.calLoad r) s = .next t →
      t = { s with out := t.out, mbxs := t.mbxs, ops := t.ops, nextOp := t.nextOp, evt := t.evt, bkp := t.bkp, eps := t.eps, mem := t.mem, jnv := t.jnv, jnl := t.jnl, prov := t.prov, roots := t.roots, ledger := t.ledger, slate := t.slate, life := t.life }) ∧
  (∀ (r : Req) (s t : State), exec (.calGet r) s = .next t →
      t = { s with out := t.out, mbxs := t.mbxs, ops := t.ops, nextOp := t.nextOp, evt := t.evt, bkp := t.bkp, slate := t.slate }) ∧
  (∀ (r : Req) (s t : State), exec (.tariffAssign r) s = .next t →
      t = { s with out := t.out, mbxs := t.mbxs, ops := t.ops, nextOp := t.nextOp, evt := t.evt, bkp := t.bkp, eps := t.eps, mem := t.mem, jnv := t.jnv, jnl := t.jnl, prov := t.prov, roots := t.roots, ledger := t.ledger, slate := t.slate, life := t.life }) ∧
  (∀ (r : Req) (s t : State), exec (.ledgerGet r) s = .next t →
      t = { s with out := t.out, mbxs := t.mbxs, ops := t.ops, nextOp := t.nextOp, evt := t.evt, bkp := t.bkp, mem := t.mem, slate := t.slate }) ∧
  (∀ (r : Req) (s t : State), exec (.ledgerPageLost r) s = .next t →
      t = { s with out := t.out, mbxs := t.mbxs, ops := t.ops, nextOp := t.nextOp, evt := t.evt, boot := t.boot, bkp := t.bkp, dir := t.dir, eps := t.eps, mem := t.mem, chans := t.chans, jnv := t.jnv, jnl := t.jnl, prov := t.prov, roots := t.roots, ledger := t.ledger, slate := t.slate, life := t.life }) ∧
  (∀ (r : Req) (s t : State), exec (.ledgerExportStart r) s = .next t →
      t = { s with out := t.out, mbxs := t.mbxs, ops := t.ops, nextOp := t.nextOp, evt := t.evt, bkp := t.bkp, chans := t.chans, ledger := t.ledger, slate := t.slate }) ∧
  (∀ (r : Req) (s t : State), exec (.ledgerConfirm r) s = .next t →
      t = { s with out := t.out, mbxs := t.mbxs, ops := t.ops, nextOp := t.nextOp, evt := t.evt, bkp := t.bkp, jnv := t.jnv, jnl := t.jnl, roots := t.roots, ledger := t.ledger, slate := t.slate }) ∧
  (∀ (r : Req) (s t : State), exec (.ledgerPendingGet r) s = .next t →
      t = { s with out := t.out, mbxs := t.mbxs, ops := t.ops, nextOp := t.nextOp, evt := t.evt, bkp := t.bkp, slate := t.slate }) ∧
  (∀ (r : Req) (s t : State), exec (.periodCloseNow r) s = .next t →
      t = { s with out := t.out, mbxs := t.mbxs, ops := t.ops, nextOp := t.nextOp, evt := t.evt, bkp := t.bkp, jnv := t.jnv, jnl := t.jnl, prov := t.prov, roots := t.roots, ledger := t.ledger, slate := t.slate, life := t.life }) ∧
  (∀ (r : Req) (s t : State), exec (.statementStart r) s = .next t →
      t = { s with out := t.out, mbxs := t.mbxs, ops := t.ops, nextOp := t.nextOp, evt := t.evt, bkp := t.bkp, chans := t.chans, ledger := t.ledger, slate := t.slate }) ∧
  (∀ (r : Req) (s t : State), exec (.statementConfirm r) s = .next t →
      t = { s with out := t.out, mbxs := t.mbxs, ops := t.ops, nextOp := t.nextOp, evt := t.evt, bkp := t.bkp, chans := t.chans, roots := t.roots, ledger := t.ledger, slate := t.slate }) ∧
  (∀ (r : Req) (s t : State), exec (.statementRewind r) s = .next t →
      t = { s with out := t.out, mbxs := t.mbxs, ops := t.ops, nextOp := t.nextOp, evt := t.evt, bkp := t.bkp, chans := t.chans, ledger := t.ledger, slate := t.slate }) ∧
  (∀ (r : Req) (s t : State), exec (.graniteInfoGet r) s = .next t →
      t = { s with out := t.out, mbxs := t.mbxs, ops := t.ops, nextOp := t.nextOp, evt := t.evt, bkp := t.bkp, slate := t.slate }) ∧
  (∀ (r : Req) (s t : State), exec (.displayShow r) s = .next t →
      t = { s with out := t.out, mbxs := t.mbxs, ops := t.ops, nextOp := t.nextOp, evt := t.evt, bkp := t.bkp, ledger := t.ledger, slate := t.slate }) ∧
  (∀ (r : Req) (s t : State), exec (.ledgerStatusGet r) s = .next t →
      t = { s with out := t.out, mbxs := t.mbxs, ops := t.ops, nextOp := t.nextOp, evt := t.evt, bkp := t.bkp, slate := t.slate }) ∧
  (∀ (acked : Bool) (s t : State), exec (.displayScreen acked) s = .next t →
      t = { s with now := t.now, mono := t.mono, out := t.out, ledger := t.ledger }) ∧
  (∀ (acked : Bool) (s t : State), exec (.displayRetry acked) s = .next t →
      t = { s with now := t.now, mono := t.mono, out := t.out, ledger := t.ledger })

/-- Journal pipeline and balance commands: which parts of the state each can change; all the others are as they were. -/
def Obligations.PipelineAndBalanceCommandFrames : Prop :=
  (∀ (frame : Nat) (bad : List Nat) (s t : State), exec (.journalGroupCommit frame bad) s = .next t →
      t = { s with out := t.out, mbxs := t.mbxs, ops := t.ops, evt := t.evt, bkp := t.bkp, sectors := t.sectors, plcMac := t.plcMac, dir := t.dir, eps := t.eps, mem := t.mem, jnv := t.jnv, jnl := t.jnl, prov := t.prov, roots := t.roots, ledger := t.ledger, bal := t.bal, camps := t.camps, confUnmatched := t.confUnmatched, slate := t.slate, life := t.life }) ∧
  (∀ (frame : Nat) (s t : State), exec (.jnlFullWaitExpiry frame) s = .next t →
      t = { s with now := t.now, mono := t.mono, out := t.out, mbxs := t.mbxs, ops := t.ops, evt := t.evt, bkp := t.bkp, dir := t.dir, eps := t.eps, mem := t.mem, jnv := t.jnv, jnl := t.jnl, prov := t.prov, roots := t.roots, ledger := t.ledger, camps := t.camps, slate := t.slate, life := t.life }) ∧
  (∀ (overflow : Bool) (s t : State), exec (.bundleTimeout overflow) s = .next t →
      t = { s with now := t.now, mono := t.mono, prov := t.prov }) ∧
  (∀ (s t : State), exec .bundleSigned s = .next t →
      t = { s with now := t.now, mono := t.mono, freeCtr := t.freeCtr, out := t.out, evt := t.evt, bkp := t.bkp, jnv := t.jnv, jnl := t.jnl, prov := t.prov, roots := t.roots, ledger := t.ledger, slots := t.slots, keys := t.keys, slate := t.slate, life := t.life }) ∧
  (∀ (r : Req) (s t : State), exec (.profileSet r) s = .next t →
      t = { s with out := t.out, mbxs := t.mbxs, ops := t.ops, nextOp := t.nextOp, evt := t.evt, bkp := t.bkp, dir := t.dir, prov := t.prov, slate := t.slate }) ∧
  (∀ (r : Req) (s t : State), exec (.profileGet r) s = .next t →
      t = { s with out := t.out, mbxs := t.mbxs, ops := t.ops, nextOp := t.nextOp, evt := t.evt, bkp := t.bkp, slate := t.slate }) ∧
  (∀ (r : Req) (s t : State), exec (.provListAdd r) s = .next t →
      t = { s with out := t.out, mbxs := t.mbxs, ops := t.ops, nextOp := t.nextOp, evt := t.evt, bkp := t.bkp, prov := t.prov, slate := t.slate }) ∧
  (∀ (r : Req) (s t : State), exec (.provListClear r) s = .next t →
      t = { s with out := t.out, mbxs := t.mbxs, ops := t.ops, nextOp := t.nextOp, evt := t.evt, bkp := t.bkp, prov := t.prov, slate := t.slate }) ∧
  (∀ (r : Req) (s t : State), exec (.exportStart r) s = .next t →
      t = { s with out := t.out, mbxs := t.mbxs, ops := t.ops, nextOp := t.nextOp, evt := t.evt, bkp := t.bkp, chans := t.chans, prov := t.prov, slate := t.slate }) ∧
  (∀ (r : Req) (s t : State), exec (.exportStop r) s = .next t →
      t = { s with out := t.out, mbxs := t.mbxs, ops := t.ops, nextOp := t.nextOp, evt := t.evt, bkp := t.bkp, chans := t.chans, prov := t.prov, slate := t.slate }) ∧
  (∀ (r : Req) (s t : State), exec (.exportConfirm r) s = .next t →
      t = { s with out := t.out, mbxs := t.mbxs, ops := t.ops, nextOp := t.nextOp, evt := t.evt, bkp := t.bkp, chans := t.chans, jnv := t.jnv, jnl := t.jnl, prov := t.prov, roots := t.roots, ledger := t.ledger, slate := t.slate }) ∧
  (∀ (r : Req) (s t : State), exec (.exportFlush r) s = .next t →
      t = { s with out := t.out, mbxs := t.mbxs, ops := t.ops, nextOp := t.nextOp, evt := t.evt, bkp := t.bkp, prov := t.prov, slate := t.slate }) ∧
  (∀ (r : Req) (s t : State), exec (.pipeStatusGet r) s = .next t →
      t = { s with out := t.out, mbxs := t.mbxs, ops := t.ops, nextOp := t.nextOp, evt := t.evt, bkp := t.bkp, slate := t.slate }) ∧
  (∀ (r : Req) (s t : State), exec (.exportRewind r) s = .next t →
      t = { s with out := t.out, mbxs := t.mbxs, ops := t.ops, nextOp := t.nextOp, evt := t.evt, bkp := t.bkp, chans := t.chans, prov := t.prov, slate := t.slate }) ∧
  (∀ (bytes : List Byte) (s t : State), exec (.restorePageReceive bytes) s = .next t →
      t = { s with out := t.out, evt := t.evt, boot := t.boot, bkp := t.bkp, dir := t.dir, eps := t.eps, mem := t.mem, chans := t.chans, jnv := t.jnv, jnl := t.jnl, prov := t.prov, roots := t.roots, ledger := t.ledger, bal := t.bal, slate := t.slate, life := t.life }) ∧
  (∀ (r : Req) (s t : State), exec (.ledgerRestoreStart r) s = .next t →
      t = { s with out := t.out, mbxs := t.mbxs, ops := t.ops, nextOp := t.nextOp, evt := t.evt, boot := t.boot, bkp := t.bkp, dir := t.dir, eps := t.eps, mem := t.mem, chans := t.chans, jnv := t.jnv, jnl := t.jnl, prov := t.prov, roots := t.roots, ledger := t.ledger, bal := t.bal, slate := t.slate, life := t.life }) ∧
  (∀ (zone stop : Nat) (s t : State), exec (.intervalClose zone stop) s = .next t →
      t = { s with now := t.now, mono := t.mono, out := t.out, evt := t.evt, bal := t.bal }) ∧
  (∀ (zone : Nat) (start : Option Nat) (s t : State), exec (.revisionPost zone start) s = .next t →
      t = { s with now := t.now, mono := t.mono, out := t.out, evt := t.evt, bal := t.bal }) ∧
  (∀ (start : Nat) (s t : State), exec (.unzonedPost start) s = .next t →
      t = { s with now := t.now, mono := t.mono, bal := t.bal }) ∧
  (∀ (s t : State), exec .horizonAdvance s = .next t →
      t = { s with now := t.now, mono := t.mono, bal := t.bal }) ∧
  (∀ (r : Req) (s t : State), exec (.zoneLoad r) s = .next t →
      t = { s with out := t.out, mbxs := t.mbxs, ops := t.ops, nextOp := t.nextOp, evt := t.evt, bkp := t.bkp, bal := t.bal, slate := t.slate }) ∧
  (∀ (r : Req) (s t : State), exec (.zoneDrop r) s = .next t →
      t = { s with out := t.out, mbxs := t.mbxs, ops := t.ops, nextOp := t.nextOp, evt := t.evt, bkp := t.bkp, bal := t.bal, slate := t.slate }) ∧
  (∀ (r : Req) (s t : State), exec (.zoneTolSet r) s = .next t →
      t = { s with out := t.out, mbxs := t.mbxs, ops := t.ops, nextOp := t.nextOp, evt := t.evt, bkp := t.bkp, bal := t.bal, slate := t.slate }) ∧
  (∀ (r : Req) (s t : State), exec (.zoneGet r) s = .next t →
      t = { s with out := t.out, mbxs := t.mbxs, ops := t.ops, nextOp := t.nextOp, evt := t.evt, bkp := t.bkp, slate := t.slate }) ∧
  (∀ (r : Req) (s t : State), exec (.scoreReset r) s = .next t →
      t = { s with out := t.out, mbxs := t.mbxs, ops := t.ops, nextOp := t.nextOp, evt := t.evt, bkp := t.bkp, bal := t.bal, slate := t.slate }) ∧
  (∀ (r : Req) (s t : State), exec (.balExportStart r) s = .next t →
      t = { s with out := t.out, mbxs := t.mbxs, ops := t.ops, nextOp := t.nextOp, evt := t.evt, bkp := t.bkp, chans := t.chans, bal := t.bal, slate := t.slate }) ∧
  (∀ (r : Req) (s t : State), exec (.balConfirm r) s = .next t →
      t = { s with out := t.out, mbxs := t.mbxs, ops := t.ops, nextOp := t.nextOp, evt := t.evt, bkp := t.bkp, chans := t.chans, bal := t.bal, slate := t.slate }) ∧
  (∀ (r : Req) (s t : State), exec (.balRewind r) s = .next t →
      t = { s with out := t.out, mbxs := t.mbxs, ops := t.ops, nextOp := t.nextOp, evt := t.evt, bkp := t.bkp, chans := t.chans, bal := t.bal, slate := t.slate }) ∧
  (∀ (r : Req) (s t : State), exec (.balStatusGet r) s = .next t →
      t = { s with out := t.out, mbxs := t.mbxs, ops := t.ops, nextOp := t.nextOp, evt := t.evt, bkp := t.bkp, slate := t.slate })

/-- Campaign and safety commands: which parts of the state each can change; all the others are as they were. -/
def Obligations.CampaignAndSafetyCommandFrames : Prop :=
  (∀ (r : Req) (s t : State), exec (.campCreate r) s = .next t →
      t = { s with out := t.out, mbxs := t.mbxs, ops := t.ops, nextOp := t.nextOp, evt := t.evt, bkp := t.bkp, jnv := t.jnv, jnl := t.jnl, prov := t.prov, roots := t.roots, camps := t.camps, slate := t.slate, life := t.life }) ∧
  (∀ (r : Req) (s t : State), exec (.campContent r) s = .next t →
      t = { s with out := t.out, mbxs := t.mbxs, ops := t.ops, nextOp := t.nextOp, evt := t.evt, bkp := t.bkp, camps := t.camps, slate := t.slate }) ∧
  (∀ (r : Req) (s t : State), exec (.campTargetsAdd r) s = .next t →
      t = { s with out := t.out, mbxs := t.mbxs, ops := t.ops, nextOp := t.nextOp, evt := t.evt, bkp := t.bkp, jnv := t.jnv, jnl := t.jnl, prov := t.prov, roots := t.roots, camps := t.camps, slate := t.slate, life := t.life }) ∧
  (∀ (r : Req) (s t : State), exec (.campStart r) s = .next t →
      t = { s with out := t.out, mbxs := t.mbxs, ops := t.ops, nextOp := t.nextOp, evt := t.evt, bkp := t.bkp, jnv := t.jnv, jnl := t.jnl, prov := t.prov, roots := t.roots, camps := t.camps, slate := t.slate, life := t.life }) ∧
  (∀ (r : Req) (s t : State), exec (.campPause r) s = .next t →
      t = { s with out := t.out, mbxs := t.mbxs, ops := t.ops, nextOp := t.nextOp, evt := t.evt, bkp := t.bkp, jnv := t.jnv, jnl := t.jnl, prov := t.prov, roots := t.roots, camps := t.camps, slate := t.slate, life := t.life }) ∧
  (∀ (r : Req) (s t : State), exec (.campResume r) s = .next t →
      t = { s with out := t.out, mbxs := t.mbxs, ops := t.ops, nextOp := t.nextOp, evt := t.evt, bkp := t.bkp, jnv := t.jnv, jnl := t.jnl, prov := t.prov, roots := t.roots, camps := t.camps, slate := t.slate, life := t.life }) ∧
  (∀ (r : Req) (s t : State), exec (.campCancel r) s = .next t →
      t = { s with out := t.out, mbxs := t.mbxs, ops := t.ops, nextOp := t.nextOp, evt := t.evt, bkp := t.bkp, jnv := t.jnv, jnl := t.jnl, prov := t.prov, roots := t.roots, camps := t.camps, slate := t.slate, life := t.life }) ∧
  (∀ (r : Req) (s t : State), exec (.campStatusGet r) s = .next t →
      t = { s with out := t.out, mbxs := t.mbxs, ops := t.ops, nextOp := t.nextOp, evt := t.evt, bkp := t.bkp, slate := t.slate }) ∧
  (∀ (r : Req) (s t : State), exec (.campTargetGet r) s = .next t →
      t = { s with out := t.out, mbxs := t.mbxs, ops := t.ops, nextOp := t.nextOp, evt := t.evt, bkp := t.bkp, slate := t.slate }) ∧
  (∀ (r : Req) (s t : State), exec (.campRelease r) s = .next t →
      t = { s with out := t.out, mbxs := t.mbxs, ops := t.ops, nextOp := t.nextOp, evt := t.evt, bkp := t.bkp, camps := t.camps, slate := t.slate }) ∧
  (∀ (r : Req) (s t : State), exec (.switchFaultClear r) s = .next t →
      t = { s with out := t.out, mbxs := t.mbxs, ops := t.ops, nextOp := t.nextOp, evt := t.evt, bkp := t.bkp, eps := t.eps, mem := t.mem, slate := t.slate }) ∧
  (∀ (camp : Nat) (x : AttemptIn) (s t : State), exec (.stepAttempt camp x) s = .next t →
      t = { s with now := t.now, mono := t.mono, freeCtr := t.freeCtr, out := t.out, evt := t.evt, bkp := t.bkp, rf := t.rf, lanes := t.lanes, sectors := t.sectors, duty := t.duty, plc := t.plc, plcMac := t.plcMac, eps := t.eps, mem := t.mem, camps := t.camps, slots := t.slots, keys := t.keys, slate := t.slate, life := t.life, safe := t.safe, faultTimes := t.faultTimes }) ∧
  (∀ (camp handle : Nat) (s t : State), exec (.confWaitEnd camp handle) s = .next t →
      t = { s with now := t.now, mono := t.mono, out := t.out, mbxs := t.mbxs, ops := t.ops, evt := t.evt, bkp := t.bkp, jnv := t.jnv, jnl := t.jnl, prov := t.prov, roots := t.roots, camps := t.camps, slate := t.slate, life := t.life }) ∧
  (∀ (camp : Nat) (s t : State), exec (.campDeadline camp) s = .next t →
      t = { s with now := t.now, mono := t.mono, out := t.out, mbxs := t.mbxs, ops := t.ops, evt := t.evt, bkp := t.bkp, jnv := t.jnv, jnl := t.jnl, prov := t.prov, roots := t.roots, camps := t.camps, slate := t.slate, life := t.life }) ∧
  (∀ (camp port : Nat) (s t : State), exec (.sessionPlan camp port) s = .next t →
      t = { s with out := t.out, mbxs := t.mbxs, ops := t.ops, evt := t.evt, bkp := t.bkp, jnv := t.jnv, jnl := t.jnl, prov := t.prov, roots := t.roots, camps := t.camps, slate := t.slate, life := t.life }) ∧
  (∀ (camp port : Nat) (power : Power) (s t : State), exec (.multicastFrame camp port power) s = .next t →
      t = { s with now := t.now, mono := t.mono, freeCtr := t.freeCtr, out := t.out, evt := t.evt, bkp := t.bkp, rf := t.rf, lanes := t.lanes, sectors := t.sectors, duty := t.duty, camps := t.camps, slots := t.slots, keys := t.keys, slate := t.slate, life := t.life }) ∧
  (∀ (camp handle : Nat) (s t : State), exec (.switchFbTimeout camp handle) s = .next t →
      t = { s with now := t.now, mono := t.mono, out := t.out, mbxs := t.mbxs, ops := t.ops, evt := t.evt, bkp := t.bkp, eps := t.eps, mem := t.mem, jnv := t.jnv, jnl := t.jnl, prov := t.prov, roots := t.roots, camps := t.camps, slate := t.slate, life := t.life }) ∧
  (∀ (testOk : Bool) (upset : GateUpset) (s t : State), exec (.gateRelease testOk upset) s = .next t →
      t = { s with freeCtr := t.freeCtr, out := t.out, mbxs := t.mbxs, ops := t.ops, evt := t.evt, bkp := t.bkp, rf := t.rf, lanes := t.lanes, sectors := t.sectors, plc := t.plc, plcMac := t.plcMac, eps := t.eps, mem := t.mem, jnv := t.jnv, jnl := t.jnl, prov := t.prov, roots := t.roots, camps := t.camps, slate := t.slate, life := t.life, safe := t.safe, faultTimes := t.faultTimes }) ∧
  (∀ (pass : Bool) (s t : State), exec (.gateTestPeriodic pass) s = .next t →
      t = { s with now := t.now, mono := t.mono, freeCtr := t.freeCtr, out := t.out, evt := t.evt, bkp := t.bkp, slate := t.slate, safe := t.safe, faultTimes := t.faultTimes }) ∧
  (∀ (s t : State), exec .lockstepMismatch s = .next t →
      t = { s with out := t.out, evt := t.evt, bkp := t.bkp, slate := t.slate, safe := t.safe, faultTimes := t.faultTimes }) ∧
  (∀ (pass : Bool) (s t : State), exec (.safetySramScrub pass) s = .next t →
      t = { s with now := t.now, mono := t.mono, freeCtr := t.freeCtr, out := t.out, evt := t.evt, bkp := t.bkp, slate := t.slate, safe := t.safe, faultTimes := t.faultTimes }) ∧
  (∀ (us : Nat) (s t : State), exec (.heartbeatCheck us) s = .next t →
      t = { s with out := t.out, evt := t.evt, bkp := t.bkp, slate := t.slate, safe := t.safe, faultTimes := t.faultTimes }) ∧
  (∀ (s t : State), exec .clockMonitorFault s = .next t →
      t = { s with out := t.out, evt := t.evt, bkp := t.bkp, slate := t.slate, safe := t.safe, faultTimes := t.faultTimes }) ∧
  (∀ (s t : State), exec .safetyAutoRecover s = .next t →
      t = { s with now := t.now, mono := t.mono, safe := t.safe }) ∧
  (∀ (failed : Option Nat) (s t : State), exec (.proofTestEnd failed) s = .next t →
      t = { s with freeCtr := t.freeCtr, out := t.out, mbxs := t.mbxs, ops := t.ops, evt := t.evt, bkp := t.bkp, slate := t.slate, safe := t.safe, faultTimes := t.faultTimes }) ∧
  (∀ (r : Req) (s t : State), exec (.safetyStatusGet r) s = .next t →
      t = { s with out := t.out, mbxs := t.mbxs, ops := t.ops, nextOp := t.nextOp, evt := t.evt, bkp := t.bkp, slate := t.slate }) ∧
  (∀ (r : Req) (s t : State), exec (.safetyClear r) s = .next t →
      t = { s with out := t.out, mbxs := t.mbxs, ops := t.ops, nextOp := t.nextOp, evt := t.evt, bkp := t.bkp, slate := t.slate, safe := t.safe }) ∧
  (∀ (r : Req) (s t : State), exec (.safetyProofTest r) s = .next t →
      t = { s with out := t.out, mbxs := t.mbxs, ops := t.ops, nextOp := t.nextOp, evt := t.evt, bkp := t.bkp, slate := t.slate, safe := t.safe })

/-- Key store and recorder commands: which parts of the state each can change; all the others are as they were. -/
def Obligations.KeyAndRecorderCommandFrames : Prop :=
  (∀ (r : Req) (s t : State), exec (.qkLoad r) s = .next t →
      t = { s with out := t.out, mbxs := t.mbxs, ops := t.ops, nextOp := t.nextOp, evt := t.evt, bkp := t.bkp, slots := t.slots, keys := t.keys, slate := t.slate, life := t.life }) ∧
  (∀ (r : Req) (s t : State), exec (.qkDerive r) s = .next t →
      t = { s with out := t.out, mbxs := t.mbxs, ops := t.ops, nextOp := t.nextOp, evt := t.evt, bkp := t.bkp, slots := t.slots, keys := t.keys, slate := t.slate, life := t.life }) ∧
  (∀ (r : Req) (s t : State), exec (.qkGenerate r) s = .next t →
      t = { s with freeCtr := t.freeCtr, out := t.out, mbxs := t.mbxs, ops := t.ops, nextOp := t.nextOp, evt := t.evt, bkp := t.bkp, slots := t.slots, keys := t.keys, slate := t.slate }) ∧
  (∀ (r : Req) (s t : State), exec (.qkDestroy r) s = .next t →
      t = { s with out := t.out, mbxs := t.mbxs, ops := t.ops, nextOp := t.nextOp, evt := t.evt, bkp := t.bkp, slots := t.slots, keys := t.keys, slate := t.slate, life := t.life }) ∧
  (∀ (r : Req) (s t : State), exec (.qkSlotGet r) s = .next t →
      t = { s with out := t.out, mbxs := t.mbxs, ops := t.ops, nextOp := t.nextOp, evt := t.evt, bkp := t.bkp, slate := t.slate }) ∧
  (∀ (r : Req) (s t : State), exec (.qkEpLoad r) s = .next t →
      t = { s with out := t.out, mbxs := t.mbxs, ops := t.ops, nextOp := t.nextOp, evt := t.evt, bkp := t.bkp, eps := t.eps, blobs := t.blobs, slots := t.slots, keys := t.keys, slate := t.slate, life := t.life }) ∧
  (∀ (r : Req) (s t : State), exec (.qkEpClear r) s = .next t →
      t = { s with out := t.out, mbxs := t.mbxs, ops := t.ops, nextOp := t.nextOp, evt := t.evt, bkp := t.bkp, eps := t.eps, blobs := t.blobs, slate := t.slate }) ∧
  (∀ (r : Req) (s t : State), exec (.qkRewrap r) s = .next t →
      t = { s with out := t.out, mbxs := t.mbxs, ops := t.ops, nextOp := t.nextOp, evt := t.evt, bkp := t.bkp, keys := t.keys, slate := t.slate, maint := t.maint }) ∧
  (∀ (s t : State), exec .rewrapWalk s = .next t →
      t = { s with now := t.now, mono := t.mono, out := t.out, mbxs := t.mbxs, ops := t.ops, evt := t.evt, bkp := t.bkp, eps := t.eps, blobs := t.blobs, slots := t.slots, keys := t.keys, slate := t.slate, life := t.life, maint := t.maint }) ∧
  (∀ (r : Req) (s t : State), exec (.qkAttest r) s = .next t →
      t = { s with freeCtr := t.freeCtr, out := t.out, mbxs := t.mbxs, ops := t.ops, nextOp := t.nextOp, evt := t.evt, bkp := t.bkp, slots := t.slots, keys := t.keys, slate := t.slate, life := t.life }) ∧
  (∀ (r : Req) (s t : State), exec (.qkCertGet r) s = .next t →
      t = { s with out := t.out, mbxs := t.mbxs, ops := t.ops, nextOp := t.nextOp, evt := t.evt, bkp := t.bkp, slate := t.slate }) ∧
  (∀ (r : Req) (s t : State), exec (.qkStatusGet r) s = .next t →
      t = { s with out := t.out, mbxs := t.mbxs, ops := t.ops, nextOp := t.nextOp, evt := t.evt, bkp := t.bkp, slate := t.slate }) ∧
  (∀ (pass : Bool) (s t : State), exec (.drbgReseed pass) s = .next t →
      t = { s with now := t.now, mono := t.mono, freeCtr := t.freeCtr, out := t.out, evt := t.evt, bkp := t.bkp, dir := t.dir, keys := t.keys, slate := t.slate }) ∧
  (∀ (failed : List Nat) (s t : State), exec (.recordWrite failed) s = .next t →
      t = { s with out := t.out, mbxs := t.mbxs, ops := t.ops, evt := t.evt, bkp := t.bkp, chans := t.chans, slateNv := t.slateNv, slate := t.slate, life := t.life }) ∧
  (∀ (code : Nat) (s t : State), exec (.tokenRefill code) s = .next t →
      t = { s with now := t.now, mono := t.mono, slate := t.slate }) ∧
  (∀ (fails : Nat) (s t : State), exec (.checkpointWrite fails) s = .next t →
      t = { s with now := t.now, mono := t.mono, out := t.out, mbxs := t.mbxs, ops := t.ops, evt := t.evt, bkp := t.bkp, chans := t.chans, slateNv := t.slateNv, slate := t.slate, life := t.life }) ∧
  (∀ (res : EnvmScrubIn) (s t : State), exec (.envmScrub res) s = .next t →
      t = { s with out := t.out, evt := t.evt, bkp := t.bkp, slateNv := t.slateNv, slate := t.slate, maint := t.maint }) ∧
  (∀ (r : Req) (s t : State), exec (.slateRead r) s = .next t →
      t = { s with out := t.out, mbxs := t.mbxs, ops := t.ops, nextOp := t.nextOp, evt := t.evt, bkp := t.bkp, slate := t.slate }) ∧
  (∀ (r : Req) (s t : State), exec (.slateDump r) s = .next t →
      t = { s with out := t.out, mbxs := t.mbxs, ops := t.ops, nextOp := t.nextOp, evt := t.evt, bkp := t.bkp, chans := t.chans, slate := t.slate }) ∧
  (∀ (r : Req) (s t : State), exec (.slateStatusGet r) s = .next t →
      t = { s with out := t.out, mbxs := t.mbxs, ops := t.ops, nextOp := t.nextOp, evt := t.evt, bkp := t.bkp, slate := t.slate }) ∧
  (∀ (r : Req) (s t : State), exec (.slateCodeGet r) s = .next t →
      t = { s with out := t.out, mbxs := t.mbxs, ops := t.ops, nextOp := t.nextOp, evt := t.evt, bkp := t.bkp, slate := t.slate }) ∧
  (∀ (r : Req) (s t : State), exec (.slateRecfClear r) s = .next t →
      t = { s with out := t.out, mbxs := t.mbxs, ops := t.ops, nextOp := t.nextOp, evt := t.evt, bkp := t.bkp, slate := t.slate })

/-- Backup island and DMA commands: which parts of the state each can change; all the others are as they were. -/
def Obligations.BackupAndDmaCommandFrames : Prop :=
  (∀ (r : Req) (s t : State), exec (.xlateSet r) s = .next t →
      t = { s with out := t.out, mbxs := t.mbxs, ops := t.ops, nextOp := t.nextOp, evt := t.evt, bkp := t.bkp, xlate := t.xlate, slate := t.slate }) ∧
  (∀ (r : Req) (s t : State), exec (.xlateGet r) s = .next t →
      t = { s with out := t.out, mbxs := t.mbxs, ops := t.ops, nextOp := t.nextOp, evt := t.evt, bkp := t.bkp, slate := t.slate }) ∧
  (∀ (r : Req) (s t : State), exec (.dmaChanSet r) s = .next t →
      t = { s with out := t.out, mbxs := t.mbxs, ops := t.ops, nextOp := t.nextOp, evt := t.evt, bkp := t.bkp, chans := t.chans, slate := t.slate }) ∧
  (∀ (r : Req) (s t : State), exec (.dmaChanStatusGet r) s = .next t →
      t = { s with out := t.out, mbxs := t.mbxs, ops := t.ops, nextOp := t.nextOp, evt := t.evt, bkp := t.bkp, slate := t.slate }) ∧
  (∀ (r : Req) (s t : State), exec (.dmaChanRestart r) s = .next t →
      t = { s with out := t.out, mbxs := t.mbxs, ops := t.ops, nextOp := t.nextOp, evt := t.evt, bkp := t.bkp, chans := t.chans, prov := t.prov, slate := t.slate }) ∧
  (∀ (c : Nat) (desc : DescIn) (s t : State), exec (.dmaDescriptorEnd c desc) s = .next t →
      t = { s with out := t.out, mbxs := t.mbxs, ops := t.ops, evt := t.evt, bkp := t.bkp, mem := t.mem, chans := t.chans, prov := t.prov, ledger := t.ledger, bal := t.bal, slate := t.slate }) ∧
  (∀ (c done : Nat) (s t : State), exec (.dmaBusError c done) s = .next t →
      t = { s with out := t.out, evt := t.evt, bkp := t.bkp, chans := t.chans, slate := t.slate }) ∧
  (∀ (high : Bool) (s t : State), exec (.sealChange high) s = .next t →
      t = { s with out := t.out, evt := t.evt, bkp := t.bkp, jnv := t.jnv, jnl := t.jnl, prov := t.prov, roots := t.roots, slate := t.slate, life := t.life }) ∧
  (∀ (s t : State), exec .rtcTick s = .next t →
      t = { s with now := t.now, mono := t.mono, tickAt := t.tickAt, timeLoaded := t.timeLoaded, trustSeen := t.trustSeen, out := t.out, evt := t.evt, bkp := t.bkp }) ∧
  (∀ (reg : Nat) (s t : State), exec (.rtcRegRead reg) s = .next t →
      t = { s with bkp := t.bkp }) ∧
  (∀ (s t : State), exec .rtcYearRead s = .next t →
      t = { s with bkp := t.bkp }) ∧
  (∀ (s t : State), exec .rtcShadowTimeout s = .next t →
      t = { s with now := t.now, mono := t.mono, bkp := t.bkp }) ∧
  (∀ (reg v : Nat) (s t : State), exec (.rtcRegWrite reg v) s = .next t →
      t = { s with now := t.now, tickAt := t.tickAt, trustSeen := t.trustSeen, out := t.out, evt := t.evt, bkp := t.bkp, jnv := t.jnv, jnl := t.jnl, prov := t.prov, roots := t.roots, ledger := t.ledger, bal := t.bal, life := t.life }) ∧
  (∀ (v : Nat) (s t : State), exec (.rtcYearWrite v) s = .next t →
      t = { s with now := t.now, tickAt := t.tickAt, trustSeen := t.trustSeen, out := t.out, evt := t.evt, bkp := t.bkp, jnv := t.jnv, jnl := t.jnl, prov := t.prov, roots := t.roots, ledger := t.ledger, bal := t.bal, life := t.life }) ∧
  (∀ (s t : State), exec .writeSetTimeout s = .next t →
      t = { s with now := t.now, mono := t.mono, bkp := t.bkp }) ∧
  (∀ (s t : State), exec .supplyToVbat s = .next t →
      t = { s with bkp := t.bkp }) ∧
  (∀ (s t : State), exec .supplyToMain s = .next t →
      t = { s with bkp := t.bkp }) ∧
  (∀ (volts mv : Nat) (s t : State), exec (.lbvMeasure volts mv) s = .next t →
      t = { s with now := t.now, mono := t.mono, out := t.out, evt := t.evt, bkp := t.bkp }) ∧
  (∀ (s t : State), exec .retentionLoss s = .next t →
      t = { s with trustSeen := t.trustSeen, out := t.out, evt := t.evt, bkp := t.bkp }) ∧
  (∀ (s t : State), exec .oscStop s = .next t →
      t = { s with trustSeen := t.trustSeen, out := t.out, evt := t.evt, bkp := t.bkp }) ∧
  (∀ (s t : State), exec .porBkp s = .next t →
      t = { s with trustSeen := t.trustSeen, out := t.out, evt := t.evt, bkp := t.bkp }) ∧
  (∀ (x : TamperIn) (s t : State), exec (.tamperActivation x) s = .next t →
      t = { s with out := t.out, evt := t.evt, bkp := t.bkp, slate := t.slate, life := t.life }) ∧
  (∀ (s t : State), exec .pwronOff s = .next t →
      t = { s with now := t.now, mono := t.mono, bkp := t.bkp }) ∧
  (∀ (r : Req) (s t : State), exec (.timeGet r) s = .next t →
      t = { s with out := t.out, mbxs := t.mbxs, ops := t.ops, nextOp := t.nextOp, evt := t.evt, bkp := t.bkp, slate := t.slate }) ∧
  (∀ (r : Req) (s t : State), exec (.timeSet r) s = .next t →
      t = { s with now := t.now, tickAt := t.tickAt, timeLoaded := t.timeLoaded, trustSeen := t.trustSeen, out := t.out, mbxs := t.mbxs, ops := t.ops, nextOp := t.nextOp, evt := t.evt, bkp := t.bkp, jnv := t.jnv, jnl := t.jnl, prov := t.prov, roots := t.roots, ledger := t.ledger, bal := t.bal, slate := t.slate, life := t.life }) ∧
  (∀ (r : Req) (s t : State), exec (.timeTrimSet r) s = .next t →
      t = { s with out := t.out, mbxs := t.mbxs, ops := t.ops, nextOp := t.nextOp, evt := t.evt, bkp := t.bkp, slate := t.slate }) ∧
  (∀ (r : Req) (s t : State), exec (.alarmSet r) s = .next t →
      t = { s with out := t.out, mbxs := t.mbxs, ops := t.ops, nextOp := t.nextOp, evt := t.evt, bkp := t.bkp, slate := t.slate }) ∧
  (∀ (r : Req) (s t : State), exec (.alarmGet r) s = .next t →
      t = { s with out := t.out, mbxs := t.mbxs, ops := t.ops, nextOp := t.nextOp, evt := t.evt, bkp := t.bkp, slate := t.slate }) ∧
  (∀ (r : Req) (s t : State), exec (.powerOff r) s = .next t →
      t = { s with out := t.out, mbxs := t.mbxs, ops := t.ops, nextOp := t.nextOp, evt := t.evt, bkp := t.bkp, slate := t.slate }) ∧
  (∀ (r : Req) (s t : State), exec (.tamperCfgSet r) s = .next t →
      t = { s with out := t.out, mbxs := t.mbxs, ops := t.ops, nextOp := t.nextOp, evt := t.evt, bkp := t.bkp, slate := t.slate }) ∧
  (∀ (r : Req) (s t : State), exec (.tamperGet r) s = .next t →
      t = { s with out := t.out, mbxs := t.mbxs, ops := t.ops, nextOp := t.nextOp, evt := t.evt, bkp := t.bkp, slate := t.slate }) ∧
  (∀ (r : Req) (s t : State), exec (.tamperClear r) s = .next t →
      t = { s with out := t.out, mbxs := t.mbxs, ops := t.ops, nextOp := t.nextOp, evt := t.evt, bkp := t.bkp, slate := t.slate, life := t.life }) ∧
  (∀ (s t : State), exec .mirRefresh s = .next t →
      t = { s with mir := t.mir }) ∧
  (∀ (reg : Nat) (s t : State), exec (.mirCalRead reg) s = .next t →
      t = { s with glb := t.glb, mir := t.mir }) ∧
  (∀ (s t : State), exec .mirYearRead s = .next t →
      t = { s with glb := t.glb, mir := t.mir }) ∧
  (∀ (s t : State), exec .mirShadowTimeout s = .next t →
      t = { s with now := t.now, mono := t.mono, mir := t.mir })

/-- R164 to R170: the power-line opcodes. It concludes that exec answers a next state, under conditions on the state and operands alone, for:
plcPortStatusGet, plcCalGet, plcRecalibrate, plcLinkGet, plcRouteGet, plcRouteProposalsGet, plcRouteSet, plcRouteUnpin, plcPollNow. -/
def Obligations.PowerLineOpcodeEffects : Prop :=
  (∀ (r : Req) (s : State), Served plcPortStatusGetService r s = true →
    exec (.plcPortStatusGet r) s = .next (answer 0x0300 r .ok (((List.range 16).map (plcPortBytes s)).flatten) (taken r s))) ∧
  (∀ (r : Req) (q : Nat) (s : State), Served plcCalGetService r s = true → plcField r.payload = some q →
    exec (.plcCalGet r) s = .next (answer 0x0301 r .ok (calBytes q (plcp s q).cal) (taken r s))) ∧
  (∀ (r : Req) (q : Nat) (s : State), Served plcRecalibrateService r s = true → plcField r.payload = some q →
    ((plcp s q).state = .absent → exec (.plcRecalibrate r) s = .next (answer 0x0302 r .noResource [] (taken r s))) ∧
    ((plcp s q).state = .disabled → exec (.plcRecalibrate r) s = .next (answer 0x0302 r .badState [] (taken r s))) ∧
    ((plcp s q).state ≠ .absent → (plcp s q).state ≠ .disabled →
      ((runIn s q).isSome = true → ∃ u, u = setPlc q (fun p => { p with recalWait := true }) (taken r s) ∧ exec (.plcRecalibrate r) s = .next (begun 0x0302 r [.plcPort q] u)) ∧
      (runIn s q = none → exec (.plcRecalibrate r) s = .next (begun 0x0302 r [.plcPort q] (startCal q (taken r s)))))) ∧
  (∀ (q : Nat) (s : State), (plcp s q).state ≠ .fault → (plcp (startCal q s) q).state = .calibrating ∧ (plcp (startCal q s) q).ldEnN = false) ∧
  (∀ (r : Req) (h : Nat) (e : Endpoint) (s : State), Served plcLinkGetService r s = true → plcEp r.payload s = some (h, e) →
    ∃ ls, ls = (s.plcMac.links.filter (fun l => l.port == e.port && (l.src == some h || l.dst == some h))).take 255 ∧
      exec (.plcLinkGet r) s = .next (answer 0x0303 r .ok (le 1 ls.length ++ le 3 0 ++ (ls.map (linkEntry s h)).flatten) (taken r s))) ∧
  (∀ (r : Req) (s : State), Served plcLinkGetService r s = true → plcEp r.payload s = none →
    exec (.plcLinkGet r) s = .next (answer 0x0303 r .badParam [] (taken r s))) ∧
  (∀ (r : Req) (h : Nat) (e : Endpoint) (s : State), Served plcRouteGetService r s = true → plcEp r.payload s = some (h, e) →
    exec (.plcRouteGet r) s = .next (answer 0x0304 r .ok (le 4 (e.path.getD 0xFFFFFFFF) ++ le 1 (relaysOf s e).length ++ le 1 (b2n e.pinnedRoute) ++
      le 2 (min 65535 ((routeCost s e.port (relaysOf s e) h).getD 0xFFFF)) ++ ((relaysOf s e).map (le 4)).flatten) (taken r s))) ∧
  (∀ (r : Req) (s : State), Served plcRouteProposalsGetService r s = true → rd r.payload 2 2 ≤ 64 → rd r.payload 0 2 + rd r.payload 2 2 ≤ 4096 →
    exec (.plcRouteProposalsGet r) s = .next (answer 0x0305 r .ok (((List.range (rd r.payload 2 2)).map (fun i => match s.plcMac.proposals[rd r.payload 0 2 + i]? with
      | some x => proposalBytes x
      | none => le 40 0)).flatten) (taken r s))) ∧
  (∀ (r : Req) (s : State), Served plcRouteProposalsGetService r s = true → (64 < rd r.payload 2 2 ∨ 4096 < rd r.payload 0 2 + rd r.payload 2 2) →
    exec (.plcRouteProposalsGet r) s = .next (answer 0x0305 r .badParam [] (taken r s))) ∧
  (∀ (r : Req) (h : Nat) (e : Endpoint) (rs : List Nat) (s : State), Served plcRouteSetService r s = true → plcEp r.payload s = some (h, e) →
    rs = (List.range (rd r.payload 4 1)).map (fun i => rd r.payload (8 + 4 * i) 4) → rd r.payload 4 1 ≤ 7 → zeroAt r.payload 5 3 = true →
    rs.any (fun x => x == h || !relayOk s e.port x) = false → rs.eraseDups.length = rs.length →
    (setRoute h e.port rs (taken r s)).2 = true → ∃ w u, w = (setRoute h e.port rs (taken r s)).1 ∧
      u = updEp h (fun e => { e with pinnedRoute := true }) { w with plcMac := { w.plcMac with proposals := w.plcMac.proposals.filter (fun x => x.handle != h) } } ∧
      exec (.plcRouteSet r) s = .next (answer 0x0306 r .ok [] u)) ∧
  (∀ (h q : Nat) (e : Endpoint) (s : State), ep? s h = some e → (setRoute h q [] s).2 = true ∧ ep? (setRoute h q [] s).1 h = some { e with path := none }) ∧
  (∀ (r : Req) (h : Nat) (e : Endpoint) (s : State), Served plcRouteUnpinService r s = true → plcEp r.payload s = some (h, e) →
    ∃ u, u = updEp h (fun e => { e with pinnedRoute := false }) (taken r s) ∧ exec (.plcRouteUnpin r) s = .next (answer 0x0307 r .ok [] u)) ∧
  (∀ (r : Req) (h : Nat) (e : Endpoint) (s : State), Served plcPollNowService r s = true → plcEp r.payload s = some (h, e) → rd r.payload 4 1 ≤ 3 → zeroAt r.payload 5 3 = true →
    plcServes s e.port = true →
    ∃ u, exec (.plcPollNow r) s = .next (begun 0x0308 r [] u) ∧ u.plcMac.queue = s.plcMac.queue ++ [{ id := s.plcMac.txnId, handle := h, port := e.port, kind := rd r.payload 4 1, rank := 3, due := s.mono }] ∧ u.plcMac.pollNow = s.plcMac.pollNow ++ [(s.plcMac.txnId, s.nextOp)])

/-- R131, R132, R158 to R163: transactions of the power line. It concludes that exec answers a next state, under conditions on the state and operands
alone, for: transactionStart, plcTransmitEnd, pollDeadline, retryGapExpiry, ldFault, ldFaultRetry. -/
def Obligations.PowerLineTransactionEffects : Prop :=
  (∀ (q t : Nat) (x : PlcTxn) (s : State), s.cfg.everCommitted = true → s.now ≤ t → groupFree s q t = true → nextTxn s q = some x →
    exec (.transactionStart q t) s = .next (startTxn x (advTo t s))) ∧
  (∀ (q t : Nat) (s : State), groupFree s q t = false → exec (.transactionStart q t) s = .next s) ∧
  (∀ (x : PlcTxn) (e : Endpoint) (key : List Byte) (u : State) (s : State), ep? s x.handle = some e → x.camp = none → dlKey x.handle s = (u, some key) →
    ∃ y w, startTxn x s = plcTransmit y w ∧ y.gale = (!routeUsable s x.handle e) ∧ y.group = groupOf s x.port ∧ y.net = plcVal s x.port 2 ∧ y.respMax = plcVal s x.port 5 ∧ y.pseq = (s.plcMac.pseq + 1) % 65536 ∧ y.attempt = 1 ∧ y.handle = x.handle ∧ y.port = x.port ∧
      y.relays = pollRelays s x.handle e ∧ y.dcnt = (nextDcnt x.handle u).2) ∧
  (∀ (x : PlcTxn) (s : State), ∃ y, tfind (plcTransmit x s).plcMac.running x.port = some y ∧ y.inAttempt = true ∧ y.attempt = x.attempt ∧
    (plcp (plcTransmit x s) x.port).state = .transmitting ∧ (plcp (plcTransmit x s) x.port).ldEnN = false ∧ (plcp (plcTransmit x s) x.port).polls = (plcp s x.port).polls + 1) ∧
  (∀ (q : Nat) (x : PlcTxn) (s : State), tfind s.plcMac.running q = some x → (plcp s q).state = .transmitting →
    ∃ t, exec (.plcTransmitEnd q) s = .next t ∧ (plcp t q).state = .listening ∧ (plcp t q).ldEnN = true ∧
      (∀ e, ep? s x.handle = some e → ep? t x.handle = some { e with plcCustody := e.plcCustody.filter (fun f => !x.custody.contains f) })) ∧
  (∀ (q : Nat) (x : PlcTxn) (s : State), runIn s q = some x → x.inAttempt = true → x.judging = false → (plcp s x.port).state = .listening → (plcp s x.port).rx = none →
    ∃ u, u = setPlc x.port (fun p => { p with deadlines := p.deadlines + 1 }) (advTo x.deadline s) ∧ exec (.pollDeadline q) s = .next (attemptFailed x .noFrame u)) ∧
  (∀ (x : PlcTxn) (c : PlcCause) (s : State), x.attempt < 4 → ∃ y, tfind (attemptFailed x c s).plcMac.running x.port = some y ∧ y.inAttempt = false ∧ y.attempt = x.attempt) ∧
  (∀ (x : PlcTxn) (s : State), 4 ≤ x.attempt → attemptFailed x .portFault s = txnFailed x s) ∧
  (∀ (q : Nat) (x : PlcTxn) (s : State), runIn s q = some x → x.inAttempt = false → x.ldRetry = false → x.gate = false → x.attempt ≠ 0 → plcServes s x.port = true →
    exec (.retryGapExpiry q) s = .next (nextAttempt { x with attempt := x.attempt + 1 } (advMono x.nextAt s))) ∧
  (∀ (x : PlcTxn) (s : State), x.camp = none → nextAttempt x s = plcTransmit x s) ∧
  (∀ (x : PlcTxn) (e : Endpoint) (s : State), ep? s x.handle = some e → e.poll ≠ .unreachable → e.pollFails + 1 < pval s 0x3008 →
    ∃ e', ep? (pollFailed x s) x.handle = some e' ∧ e'.poll = .suspect ∧ e'.pollFails = e.pollFails + 1) ∧
  (∀ (x : PlcTxn) (e : Endpoint) (s : State), ep? s x.handle = some e → e.poll ≠ .unreachable → pval s 0x3008 ≤ e.pollFails + 1 →
    ∃ u e', pollFailed x s = recalcOne x.handle u ∧ ep? u x.handle = some e' ∧ e'.poll = .unreachable ∧ u.evt.pend.getLsbD 0x32 = true) ∧
  (∀ (x : PlcTxn) (slots : List Byte) (t : Nat) (e : Endpoint) (s : State), ep? s x.handle = some e →
    ∃ u e', txnGood x slots t s = startRecals x.port (answerPollNow x true (leavePort x u)) ∧ ep? u x.handle = some e' ∧ e'.poll = .reachable ∧ e'.pollFails = 0 ∧ e'.lastGood = t) ∧
  (∀ (q t : Nat) (s : State), q < 16 → (plcp s q).state = .transmitting → s.now ≤ t → (plcp s q).faults = [] →
    ∃ u, exec (.ldFault q t) s = .next u ∧ u.evt.pend.getLsbD 0x30 = true ∧ (plcp u q).state = .idle ∧ (plcp u q).ldFaults = (plcp s q).ldFaults + 1 ∧
      (∀ x, tfind s.plcMac.running q = some x → x.port = q → ∃ y, tfind u.plcMac.running q = some y ∧ y.inAttempt = false ∧ y.ldRetry = true ∧ y.nextAt = u.mono + tSec 1)) ∧
  (∀ (q t : Nat) (s : State), q < 16 → (plcp s q).state = .transmitting → 3 ≤ 1 + ((plcp s q).faults.filter (fun u => (advTo t s).mono < u + tSec 60)).length →
    ∃ u, exec (.ldFault q t) s = .next (endPortTxns q u) ∧ u.evt.pend.getLsbD 0x31 = true ∧ (plcp u q).state = .fault) ∧
  (∀ (q : Nat) (x : PlcTxn) (s : State), tfind s.plcMac.running q = some x → x.ldRetry = true → plcServes s q = true →
    ∃ u, u = setPlc q (fun p => { p with ldFaultN := true }) (advMono x.nextAt s) ∧ exec (.ldFaultRetry q) s = .next (nextAttempt { x with ldRetry := false } u))

/-- R136 to R164: reception on the power line and its upkeep. It concludes that exec answers a next state, under conditions on the state and operands
alone, for: plcHeaderDecode, plcSymbolReceive, plcFrameEnd, plcOverflowTrailer, readDue, unreachRetry, custodyMaxExpiry, nbrDue, linkAgeExpiry,
routeRecalc, plcCalibrationDone. -/
def Obligations.PowerLineReceptionEffects : Prop :=
  (∀ (q : Nat) (hdr : PlcHdrIn) (s : State), plcHears s q = true → (plcp s q).rx = none → headerBad hdr.bits hdr.crc = true →
    ∃ u, u = setPlc q (fun p => { p with hdrErr := p.hdrErr + 1 }) s ∧ exec (.plcHeaderDecode q hdr) s = .next u) ∧
  (∀ (q : Nat) (hdr : PlcHdrIn) (s : State), plcHears s q = true → (plcp s q).rx = none → headerBad hdr.bits hdr.crc = false → inListening s q hdr.at_ = false →
    ∃ u, u = setPlc q (fun p => { p with stray := p.stray + 1 }) s ∧ exec (.plcHeaderDecode q hdr) s = .next u) ∧
  (∀ (q : Nat) (hdr : PlcHdrIn) (fq : FtQueue) (s : State), plcHears s q = true → (plcp s q).rx = none → headerBad hdr.bits hdr.crc = false → inListening s q hdr.at_ = true →
    rxQueue (advTo hdr.at_ s) q (plcHeaderWord q hdr.bits hdr.snr) false 0 = some fq →
    ∃ t rx, exec (.plcHeaderDecode q hdr) s = .next t ∧ (plcp t q).rx = some rx ∧ rx.mode = bits hdr.bits.toNat 1 0 ∧ rx.left = bits hdr.bits.toNat 20 12 - 4 ∧ rx.len = bits hdr.bits.toNat 20 12 ∧
      rx.overflow = false ∧ (plcp t q).queue = fq) ∧
  (∀ (q : Nat) (sym : PlcSymIn) (rx r : PlcRx) (s : State), (plcp s q).rx = some rx → rx.ended = false → rx.doomed = false → plcHears s q = true →
    r = takeSoft sym.soft rx (judgeSymbol sym.snr sym.clipPm rx) →
    (allowance r.mode < r.erased →
      ∃ t y, exec (.plcSymbolReceive q sym) s = .next t ∧ (plcp t q).rx = some y ∧ y.doomed = true) ∧
    (r.erased ≤ allowance r.mode →
      ∃ u, u = setPlc q (fun p => { p with rx := some r }) s ∧ exec (.plcSymbolReceive q sym) s = .next (rxOctets q (decoded r sym.ready) false u))) ∧
  (∀ (rx : PlcRx) (snr : Int) (clip : Nat) (soft : List Int), 20 < clip → rx.preMark = 0 → (judgeSymbol snr clip rx).erased = rx.erased + 1 ∧
    (judgeSymbol snr clip rx).firstErased = some (rx.firstErased.getD rx.symNo) ∧ (takeSoft soft rx (judgeSymbol snr clip rx)).soft = rx.soft ++ [soft.map (fun _ => 0)]) ∧
  (∀ (q : Nat) (fin : PlcEnd) (rx0 rx : PlcRx) (u : State) (s : State), (plcp s q).rx = some rx0 → rx0.ended = false → plcHears s q = true →
    u = rxOctets q (decoded rx0 rx0.len) true (advTo fin.endTime s) → (plcp u q).rx = some rx →
    ((rx.overflow = true ∨ trailerRoom (plcp u q).queue = false) → ∃ v, v = setPlc q (fun p => { p with rx := some { rx with overflow := true, ended := true } }) u ∧
      exec (.plcFrameEnd q fin) s = .next v) ∧
    (rx.overflow = false → trailerRoom (plcp u q).queue = true → ∃ st v, st = (if rx.doomed then 2 else if plcFcsHolds rx then 0 else if 0 < rx.erased then 2 else 1) ∧
      exec (.plcFrameEnd q fin) s = .next (frameVerdict q (countPlc q st v)) ∧ (plcp v q).rx = none ∧ (plcp v q).report = reportOf rx fin.groups)) ∧
  (∀ (q : Nat) (x : PlcTxn) (s : State), tfind s.plcMac.running q = some x → x.inAttempt = true →
    (noticeStatus (plcp s q).queue = 0 → frameVerdict q s = setRun { x with judging := true } s) ∧
    ((noticeStatus (plcp s q).queue = 1 ∨ noticeStatus (plcp s q).queue = 2) → frameVerdict q s = attemptFailed x .badFrame s) ∧
    (3 ≤ noticeStatus (plcp s q).queue → frameVerdict q s = s)) ∧
  (∀ (q : Nat) (fin : PlcEnd) (rx : PlcRx) (s : State), (plcp s q).rx = some rx → rx.overflow = true → trailerRoom (plcp s q).queue = true →
    ∃ t0 u, exec (.plcOverflowTrailer q fin) s = .next (pushPlcTrailers q t0 (BitVec.ofNat 64 fin.endTime) u) ∧ u.plc = s.plc ∧ t0.toNat % 16 = 5) ∧
  (∀ (h : Nat) (e : Endpoint) (s : State), ep? s h = some e → e.plc = true → e.reportIn ≠ 0 → e.poll ≠ .unreachable → plcServes s e.port = true → s.cfg.everCommitted = true →
    queuedFor s h 1 3 = false → readRuns s h = false → ∃ u, exec (.readDue h) s = .next (enqueue h e.port 1 3 u) ∧ u.plcMac = s.plcMac ∧ e.nextRead ≤ u.now) ∧
  (∀ (h : Nat) (e : Endpoint) (s : State), ep? s h = some e → e.plc = true → e.poll = .unreachable → plcServes s e.port = true → queuedFor s h (retryKind e) 3 = false →
    s.plcMac.running.any (fun y => y.2.handle == h) = false → exec (.unreachRetry h) s = .next (enqueue h e.port (retryKind e) 3 (advTo e.nextRead s))) ∧
  (∀ (h : Nat) (e : Endpoint) (s : State), ep? s h = some e → e.plc = true → e.plcCustody ≠ [] → queuedFor s h 4 2 = false →
    exec (.custodyMaxExpiry h) s = .next (enqueue h e.port 4 2 (advTo (tSec (e.plcCustodySince + pval s 0x300D)) s))) ∧
  (∀ (h q k r : Nat) (s : State), (enqueue h q k r s).plcMac.queue = s.plcMac.queue ++ [{ id := s.plcMac.txnId, handle := h, port := q, kind := k, rank := r, due := s.mono }]) ∧
  (∀ (s : State), pval s 0x300C = 0 → exec .nbrDue s = .next s) ∧
  (∀ (u : State) (s : State), pval s 0x300C ≠ 0 → u = roundAt s.plcMac.lastNbr (pval s 0x300C) s →
    ∃ v, v = { u with plcMac := { u.plcMac with lastNbr := some u.mono } } ∧ exec .nbrDue s = .next ((u.eps.map (fun y => y.1)).foldl (fun s h => askNbr h s) v)) ∧
  (∀ (h : Nat) (e : Endpoint) (s : State), ep? s h = some e → e.plc = true → e.poll = .reachable → plcServes s e.port = true → queuedFor s h 2 4 = false →
    ∃ u, u = updEp h (fun e => { e with nbrDue := true }) s ∧ askNbr h s = enqueue h e.port 2 4 u) ∧
  (∀ (n t : Nat) (s : State), t + tSec n ≤ (roundAt (some t) n s).mono) ∧
  (∀ (i : Nat) (l : PlcLink) (s : State), s.plcMac.links[i]? = some l → ∃ t, exec (.linkAgeExpiry i) s = .next t ∧ t.plcMac.links = s.plcMac.links.erase l) ∧
  (∀ (v : State) (s : State), v = roundAt s.plcMac.lastRecalc (pval s 0x300A) s →
    ∃ u, u = (v.eps.map (fun y => y.1)).foldl (fun s h => unpinBroken h s) { v with plcMac := { v.plcMac with lastRecalc := some v.mono } } ∧
    exec .routeRecalc s = .next ((List.range 16).foldl (fun s q => if plcEnabled s q then
      ((s.eps.filter (fun y => y.2.plc && y.2.port == q)).map (fun y => y.1)).foldl (fun v h => judgeRoute h (routesFrom s q) v) s else s) u)) ∧
  (∀ (q : Nat) (m : CalIn) (s : State), q < 16 → (plcp s q).state = .calibrating → islUp s (islPlc q) = true → (isl s (islPlc q)).bistDue = false →
    ∃ ids u, exec (.plcCalibrationDone q m) s = .next (finishOps ids .ok (calBytes q (plcp u q).cal) (raiseIf (!ids.isEmpty) 0x37 u)) ∧
      (m.ldFault = false → -4000 ≤ m.gain → m.gain ≤ 600 → (plcp u q).state = .idle ∧ (plcp u q).ldEnN = true ∧ (plcp u q).cal.gain = m.gain ∧
        (plcp u q).scale = 10 * plcVal (advTo m.time s) q 3 - m.gain) ∧
      ((m.ldFault = true ∨ m.gain < -4000 ∨ 600 < m.gain) → (plcp u q).state = .fault ∧ u.evt.pend.getLsbD 0x31 = true))

/-- R396 to R411: the clock, its registers and the latches of the backup island. It concludes that exec answers a next state, under conditions on the
state and operands alone, for: rtcTick, rtcRegRead, rtcYearRead, rtcRegWrite, rtcShadowTimeout, rtcYearWrite, writeSetTimeout, supplyToVbat,
supplyToMain, lbvMeasure, retentionLoss, oscStop, porBkp, tamperActivation, sealChange, pwronOff. -/
def Obligations.BackupClockEffects : Prop :=
  (∀ s : State, ∃ t, exec .rtcTick s = .next t ∧ t.bkp.cal = (calTick s.bkp.cal).1 ∧
    t.bkp.ovf = (s.bkp.ovf || (calTick s.bkp.cal).2.2) ∧ t.bkp.trim = s.bkp.trim ∧
    t.bkp.winTick = (if windowCycles s ≤ 32 * (s.bkp.winTick + 1) then 0 else s.bkp.winTick + 1) ∧
    t.bkp.trimNow = (if windowCycles s ≤ 32 * (s.bkp.winTick + 1) then s.bkp.trim else s.bkp.trimNow) ∧
    ((calTick s.bkp.cal).2.1 = false → t.tickAt = s.tickAt + tickTime s ∧ t.bkp.alm0 = s.bkp.alm0 ∧ t.bkp.alm1 = s.bkp.alm1 ∧ t.bkp.pwron = s.bkp.pwron)) ∧
  (∀ s : State, s.bkp.trimNow = 0 → windowCycles s = 2 ^ 20 ∧ tickTime s = 2 ^ 14) ∧
  (∀ s : State, (calTick s.bkp.cal).2.1 = true →
    ∃ t, exec .rtcTick s = .next t ∧
      t.bkp.alm0 = (s.bkp.alm0 || alarmMatch (tget s.bkp.alarms 0 {}) (calTick s.bkp.cal).1) ∧
      t.bkp.alm1 = (s.bkp.alm1 || alarmMatch (tget s.bkp.alarms 1 {}) (calTick s.bkp.cal).1) ∧
      ((alarmMatch (tget s.bkp.alarms 0 {}) (calTick s.bkp.cal).1 = true ∨ alarmMatch (tget s.bkp.alarms 1 {}) (calTick s.bkp.cal).1 = true) → controlUp s = true →
        t.evt.pend.getLsbD 0xC2 = true)) ∧
  (∀ c : Calendar, c.subsec = 1023 → c.sec = 59 → c.min = 59 → c.hour = 23 → c.month = 12 → c.day = 31 → c.year ≤ 2399 →
    calTick c = ({ c with subsec := 0, sec := 0, min := 0, hour := 0, day := 1, month := 1, wday := (c.wday + 1) % 7, year := if c.year = 2399 then 2000 else c.year + 1 }, true, decide (c.year = 2399))) ∧
  (∀ (reg : Nat) (s : State), controlUp s = true → reg < 8 → reg ≠ 6 →
    (s.bkp.shadow = none → exec (.rtcRegRead reg) s = .next { s with bkp := { s.bkp with lastRead := calField s.bkp.cal reg, shadow := some (s.bkp.cal, s.mono) } }) ∧
    (∀ (c : Calendar) (m : Nat), s.bkp.shadow = some (c, m) → exec (.rtcRegRead reg) s = .next { s with bkp := { s.bkp with lastRead := calField c reg } })) ∧
  (∀ s : State, controlUp s = true →
    (s.bkp.shadow = none → exec .rtcYearRead s = .next { s with bkp := { s.bkp with lastRead := s.bkp.cal.year, shadow := none } }) ∧
    (∀ (c : Calendar) (m : Nat), s.bkp.shadow = some (c, m) → exec .rtcYearRead s = .next { s with bkp := { s.bkp with lastRead := c.year, shadow := none } })) ∧
  (∀ s : State, controlUp s = true → exec (.rtcRegRead 8) s = .next { s with bkp := { s.bkp with lastRead := (rtcStat s.bkp).toNat } }) ∧
  (∀ (v : Nat) (s : State), controlUp s = true → ∃ t, exec (.rtcRegWrite 8 v) s = .next t ∧ t.bkp.cal = s.bkp.cal ∧ t.bkp.dateErr = (s.bkp.dateErr && !bit v 3) ∧
    t.bkp.shadowTo = (s.bkp.shadowTo && !bit v 4) ∧ t.bkp.alm0 = (s.bkp.alm0 && !bit v 5) ∧ t.bkp.alm1 = (s.bkp.alm1 && !bit v 6) ∧
    t.bkp.wrTo = (s.bkp.wrTo && !bit v 8) ∧ t.bkp.osf = s.bkp.osf ∧ t.bkp.rlf = s.bkp.rlf ∧ t.bkp.ovf = s.bkp.ovf) ∧
  (∀ (c : Calendar) (m : Nat) (s : State), s.bkp.shadow = some (c, m) →
    ∃ t, exec .rtcShadowTimeout s = .next t ∧ t.bkp = { s.bkp with shadow := none, shadowTo := true } ∧ t.mono = max s.mono (m + tMs 1)) ∧
  (∀ (reg v : Nat) (s : State), controlUp s = true → reg < 8 → reg ≠ 6 →
    (s.bkp.writeSet = none → exec (.rtcRegWrite reg v) s = .next { s with bkp := { s.bkp with writeSet := some (setCalField s.bkp.cal reg v, s.mono) } }) ∧
    (∀ (c : Calendar) (m : Nat), s.bkp.writeSet = some (c, m) → exec (.rtcRegWrite reg v) s = .next { s with bkp := { s.bkp with writeSet := some (setCalField c reg v, m) } })) ∧
  (∀ (v : Nat) (c : Calendar) (s : State), controlUp s = true → c = setCalField ((s.bkp.writeSet.map (fun x => x.1)).getD s.bkp.cal) 6 v →
    (calValid c = true → ∃ t, exec (.rtcYearWrite v) s = .next t ∧ t.bkp = { s.bkp with cal := c, osf := false, rlf := false, ovf := false, shadow := none, writeSet := none }) ∧
    (calValid c = false → exec (.rtcYearWrite v) s = .next { s with bkp := { s.bkp with dateErr := true, writeSet := none } })) ∧
  (∀ (c : Calendar) (m : Nat) (s : State), s.bkp.writeSet = some (c, m) →
    ∃ t, exec .writeSetTimeout s = .next t ∧ t.bkp = { s.bkp with writeSet := none, wrTo := true } ∧ t.mono = max s.mono (m + tMs 1)) ∧
  (∀ s : State, exec .supplyToVbat s = .next { s with bkp := { s.bkp with onVbat := true } } ∧
    exec .supplyToMain s = .next { s with bkp := { s.bkp with onVbat := false } }) ∧
  (∀ (v mv : Nat) (s : State), (∀ m, s.bkp.lbvAt = some m → m + tSec 60 ≤ (roundAt (some m) 60 s).mono) ∧
    (1000 * v + mv < 2200 → ∃ t, exec (.lbvMeasure v mv) s = .next t ∧ t.bkp = { s.bkp with lbv := true, lbvAt := some (roundAt s.bkp.lbvAt 60 s).mono } ∧
      (s.bkp.lbv = false → controlUp s = true → t.evt.pend.getLsbD 0xC1 = true)) ∧
    (2300 < 1000 * v + mv → ∃ t, exec (.lbvMeasure v mv) s = .next t ∧ t.bkp = { s.bkp with lbv := false, lbvAt := some (roundAt s.bkp.lbvAt 60 s).mono }) ∧
    (2200 ≤ 1000 * v + mv → 1000 * v + mv ≤ 2300 → ∃ t, exec (.lbvMeasure v mv) s = .next t ∧ t.bkp = { s.bkp with lbvAt := some (roundAt s.bkp.lbvAt 60 s).mono })) ∧
  (∀ s : State, (∃ t, exec .retentionLoss s = .next t ∧ t.bkp = { s.bkp with rlf := true, osf := true } ∧ (s.trustSeen = some true → t.evt.pend.getLsbD 0xC0 = true ∧ t.trustSeen = some false)) ∧
    (∃ t, exec .oscStop s = .next t ∧ t.bkp = { s.bkp with osf := true }) ∧
    (∃ t, exec .porBkp s = .next t ∧ t.bkp = State.reset.bkp)) ∧
  (∀ (i : Nat) (s : State), i < 4 → (tget s.bkp.tampCfg i 0).getLsbD 0 = true → (tget s.bkp.tamp i {}).active = false →
    ∃ t x, exec (.tamperActivation ⟨i, true⟩) s = .next t ∧ x = tget t.bkp.tamp i {} ∧ x.count = satAdd 65535 (tget s.bkp.tamp i {}).count 1 ∧
      x.active = true ∧ x.last = BitVec.ofNat 32 (calSecs s.bkp.cal) ∧ x.lastUntr = !trusted s ∧
      x.first = (if (tget s.bkp.tamp i {}).count = 0 then BitVec.ofNat 32 (calSecs s.bkp.cal) else (tget s.bkp.tamp i {}).first) ∧
      x.firstUntr = (if (tget s.bkp.tamp i {}).count = 0 then !trusted s else (tget s.bkp.tamp i {}).firstUntr) ∧
      t.bkp.pwron = (s.bkp.pwron || (tget s.bkp.tampCfg i 0).getLsbD 4) ∧
      (controlUp s = true → tget t.life.tampRep i 0 = x.count ∧ t.evt.pend.getLsbD 0xC3 = true)) ∧
  (∀ (i : Nat) (x : Tamper) (s : State), i < 4 → (tget s.bkp.tampCfg i 0).getLsbD 0 = true → x = tget s.bkp.tamp i {} → x.active = true →
    ∃ t, t = { s with bkp := { s.bkp with tamp := tset s.bkp.tamp i { x with active := false } } } ∧ exec (.tamperActivation ⟨i, false⟩) s = .next t) ∧
  (∀ s : State, s.bkp.sealOpen = false → controlUp s = false →
    exec (.sealChange true) s = .next { s with bkp := { s.bkp with sealOpen := true, sealCount := s.bkp.sealCount + 1, sealLast := BitVec.ofNat 32 (calSecs s.bkp.cal), sealFirst := if s.bkp.sealCount = 0 then BitVec.ofNat 32 (calSecs s.bkp.cal) else s.bkp.sealFirst } }) ∧
  (∀ s : State, s.bkp.sealOpen = true → controlUp s = false → exec (.sealChange false) s = .next { s with bkp := { s.bkp with sealOpen := false } }) ∧
  (∀ s : State, s.bkp.sealOpen = false → controlUp s = true → s.jnl.replayed = true →
    ∃ t, exec (.sealChange true) s = .next t ∧ t.bkp.sealOpen = true ∧ t.bkp.sealCount = s.bkp.sealCount + 1 ∧ t.evt.pend.getLsbD 0x55 = true) ∧
  (∀ (e : Nat) (s : State), s.bkp.offAt = some e →
    ∃ t, exec .pwronOff s = .next t ∧ t.bkp = { s.bkp with pwron := false, pwrOff := true, offAt := none } ∧ t.mono = max s.mono e)

/-- R413, R503 and R504: the time opcodes and the mirror block. It concludes that exec answers a next state, under conditions on the state and
operands alone, for: timeGet, timeSet, timeTrimSet, alarmSet, alarmGet, powerOff, tamperCfgSet, tamperGet, tamperClear, mirRefresh, mirCalRead,
mirYearRead, mirShadowTimeout. -/
def Obligations.BackupOpcodeEffects : Prop :=
  (∀ (r : Req) (s : State), Served timeGetService r s = true →
    exec (.timeGet r) s = .next (answer 0x0C00 r .ok (calBlock s.bkp.cal ++ le 8 s.now ++ le 4 (rtcStat s.bkp).toNat ++ le 1 (b2n (trusted s)) ++ le 3 0) (taken r s))) ∧
  (∀ (r : Req) (c : Calendar) (s : State), Served timeSetService r s = true → s.bkp.shadow = none → s.bkp.writeSet = none → zeroAt r.payload 10 2 = true →
    c = readCalBlock r.payload → calValid c = true → ledgerOk (taken r s) = true →
    ∃ u, exec (.timeSet r) s = .next (answer 0x0C01 r .ok (le 8 s.now ++ le 8 (tSec (calSecs c) + c.subsec * 2 ^ 14)) u) ∧
      u = afterTime (trusted s) (loadCal c { commitOne (ledgerEntry (.timeStep (secs s) (calSecs c) (!trusted s))) (taken r s) with timeLoaded := true }) ∧
      u.bkp = { s.bkp with cal := c, osf := false, rlf := false, ovf := false, shadow := none, writeSet := none } ∧
      u.now = tSec (calSecs c) + c.subsec * 2 ^ 14 ∧ u.timeLoaded = true) ∧
  (∀ (r : Req) (s : State), Served timeSetService r s = true → s.bkp.shadow = none → s.bkp.writeSet = none →
    (zeroAt r.payload 10 2 = false → exec (.timeSet r) s = .next (answer 0x0C01 r .badParam [] (taken r s))) ∧
    (zeroAt r.payload 10 2 = true → calValid (readCalBlock r.payload) = false →
      exec (.timeSet r) s = .next (answer 0x0C01 r .badParam [] { taken r s with bkp := { s.bkp with dateErr := true } })) ∧
    (zeroAt r.payload 10 2 = true → calValid (readCalBlock r.payload) = true → ledgerOk (taken r s) = false →
      exec (.timeSet r) s = .next (answer 0x0C01 r .badState [] (taken r s)))) ∧
  (∀ (r : Req) (s : State), Served timeSetService r s = true → (s.bkp.shadow.isSome || s.bkp.writeSet.isSome) = true →
    exec (.timeSet r) s = .next (startWait timeSetService r false (taken r s))) ∧
  (∀ (r : Req) (s : State), Served timeTrimSetService r s = true →
    exec (.timeTrimSet r) s = .next (if -511 ≤ rdI r.payload 0 2 ∧ rdI r.payload 0 2 ≤ 511 ∧ zeroAt r.payload 2 2 = true
      then answer 0x0C02 r .ok [] { taken r s with bkp := { s.bkp with trim := rdI r.payload 0 2 } } else answer 0x0C02 r .badParam [] (taken r s))) ∧
  (∀ (r : Req) (s : State), Served alarmSetService r s = true →
    exec (.alarmSet r) s = .next (if rd r.payload 0 1 ≤ 1 ∧ zeroAt r.payload 1 3 = true ∧ alarmOk (rd r.payload 4 4) (rd r.payload 8 4) (rd r.payload 12 4) = true
      then answer 0x0C03 r .ok [] { taken r s with bkp := { s.bkp with alarms := tset s.bkp.alarms (rd r.payload 0 1) { time := BitVec.ofNat 32 (rd r.payload 4 4), date := BitVec.ofNat 32 (rd r.payload 8 4), ctrl := BitVec.ofNat 32 (rd r.payload 12 4) } } }
      else answer 0x0C03 r .badParam [] (taken r s))) ∧
  (∀ (r : Req) (a : Alarm) (s : State), Served alarmGetService r s = true → a = tget s.bkp.alarms (rd r.payload 0 1) {} →
    exec (.alarmGet r) s = .next (if rd r.payload 0 1 ≤ 1 ∧ zeroAt r.payload 1 3 = true
      then answer 0x0C04 r .ok (le 4 a.time.toNat ++ le 4 a.date.toNat ++ le 4 a.ctrl.toNat ++ le 4 (rtcStat s.bkp).toNat) (taken r s)
      else answer 0x0C04 r .badParam [] (taken r s))) ∧
  (∀ (r : Req) (s : State), Served powerOffService r s = true →
    exec (.powerOff r) s = .next (if canWake s = true then answer 0x0C05 r .ok [] { taken r s with bkp := { s.bkp with offAt := some (s.mono + tMs 10) } }
      else answer 0x0C05 r .badState [] (taken r s))) ∧
  (∀ (r : Req) (s : State), Served tamperCfgSetService r s = true →
    ((∀ i, i < 4 → bits (rd r.payload i 1) 7 5 = 0) → ∃ u, exec (.tamperCfgSet r) s = .next (answer 0x0C06 r .ok [] u) ∧
      u = { taken r s with bkp := { s.bkp with tampCfg := u.bkp.tampCfg, tamp := u.bkp.tamp } } ∧
      u.bkp.tamp = tmap s.bkp.tamp (fun i t => { t with active := t.active && bit (rd r.payload i 1) 0 }) ∧ ∀ i, i < 4 → tget u.bkp.tampCfg i 0 = BitVec.ofNat 8 (rd r.payload i 1)) ∧
    ((∃ i, i < 4 ∧ bits (rd r.payload i 1) 7 5 ≠ 0) → exec (.tamperCfgSet r) s = .next (answer 0x0C06 r .badParam [] (taken r s)))) ∧
  (∀ (r : Req) (s : State), Served tamperGetService r s = true →
    exec (.tamperGet r) s = .next (answer 0x0C07 r .ok (tamperBytes s 0 ++ tamperBytes s 1 ++ tamperBytes s 2 ++ tamperBytes s 3 ++
      le 1 (b2n s.bkp.sealOpen) ++ le 3 0 ++ le 4 s.bkp.sealCount.toNat ++ le 4 s.bkp.sealFirst.toNat ++ le 4 s.bkp.sealLast.toNat) (taken r s))) ∧
  (∀ (r : Req) (s : State), Served tamperClearService r s = true → zeroAt r.payload 1 3 = true →
    (rd r.payload 0 1 = 0 → exec (.tamperClear r) s = .next (answer 0x0C08 r .ok [] (taken r s))) ∧
    (rd r.payload 0 1 ≠ 0 → bits (rd r.payload 0 1) 7 4 = 0 → ∃ u, exec (.tamperClear r) s = .next (answer 0x0C08 r .ok [] u) ∧
      ∀ i, i < 4 → tget u.bkp.tamp i {} = (if bit (rd r.payload 0 1) i then { tget s.bkp.tamp i {} with count := 0, first := 0, last := 0, firstUntr := false, lastUntr := false } else tget s.bkp.tamp i {}) ∧
        tget u.life.tampRep i 0 = (if bit (rd r.payload 0 1) i then 0 else tget s.life.tampRep i 0)) ∧
    (bits (rd r.payload 0 1) 7 4 ≠ 0 → exec (.tamperClear r) s = .next (answer 0x0C08 r .badParam [] (taken r s)))) ∧
  (∀ s : State, controlUp s = true → ∃ t, exec .mirRefresh s = .next t ∧ t = { s with mir := t.mir } ∧ t.mir.cal = s.bkp.cal ∧ t.mir.stat = rtcStat s.bkp ∧
    t.mir.recfStat = recfStat s.bkp ∧ t.mir.recfTime = s.bkp.recfTime ∧ t.mir.pwrOff = s.bkp.pwrOff ∧ t.mir.sealOpen = s.bkp.sealOpen ∧ t.mir.sealCount = s.bkp.sealCount ∧
    t.mir.stale = false ∧ t.mir.shadow = s.mir.shadow ∧ t.mir.shadowTo = s.mir.shadowTo ∧ ∀ i, i < 4 → tget t.mir.tampCnt i 0 = (tget s.bkp.tamp i {}).count) ∧
  (∀ s : State, controlUp s = false → exec .mirRefresh s = .next { s with mir := { s.mir with stale := true } }) ∧
  (∀ (reg : Nat) (s : State), (isl s 33).inReset = false → reg < 8 → reg ≠ 6 →
    (s.mir.shadow = none → exec (.mirCalRead reg) s = .next { s with glb := { s.glb with lastRead := BitVec.ofNat 32 (calField s.mir.cal reg) }, mir := { s.mir with shadow := some (s.mir.cal, s.mono) } }) ∧
    (∀ c m, s.mir.shadow = some (c, m) → exec (.mirCalRead reg) s = .next { s with glb := { s.glb with lastRead := BitVec.ofNat 32 (calField c reg) } })) ∧
  (∀ s : State, (isl s 33).inReset = false →
    exec .mirYearRead s = .next { s with glb := { s.glb with lastRead := BitVec.ofNat 32 (match s.mir.shadow with | some (c, _) => c | none => s.mir.cal).year }, mir := { s.mir with shadow := none } }) ∧
  (∀ (c : Calendar) (m : Nat) (s : State), s.mir.shadow = some (c, m) →
    ∃ t, exec .mirShadowTimeout s = .next t ∧ t.mir = { s.mir with shadow := none, shadowTo := true } ∧ t.mono = max s.mono (m + tMs 1))

/-- R34, through the registers of Table 20-6. -/
def Obligations.MailboxGeometryHeld : Prop :=
  (∀ (m off : Nat) (data : Word) (s : State), m < 16 → off ∈ [0x00, 0x04, 0x08, 0x0C, 0x10] → bar0Up s (0x20000 + 0x40 * m + off) = true → (mbx s m).en = true →
    exec (.registerWrite (0x20000 + 0x40 * m + off) 0xF data) s = .next s) ∧
  (∀ (m : Nat) (data : Word) (s : State), m < 16 → bar0Up s 0x20000 = true → (mbx s m).en = false →
    exec (.registerWrite (0x20000 + 0x40 * m) 0xF data) s = .next (setMbx m (fun x => { x with reqBaseLo := data &&& 0xFFFFF000 }) s) ∧
    exec (.registerWrite (0x20004 + 0x40 * m) 0xF data) s = .next (setMbx m (fun x => { x with reqBaseHi := data }) s) ∧
    exec (.registerWrite (0x20008 + 0x40 * m) 0xF data) s = .next (setMbx m (fun x => { x with rspBaseLo := data &&& 0xFFFFF000 }) s) ∧
    exec (.registerWrite (0x2000C + 0x40 * m) 0xF data) s = .next (setMbx m (fun x => { x with rspBaseHi := data }) s) ∧
    exec (.registerWrite (0x20010 + 0x40 * m) 0xF data) s = .next (setMbx m (fun x => { x with reqLog2 := data.extractLsb' 0 5, rspLog2 := data.extractLsb' 8 5 }) s)) ∧
  (∀ (m : Nat) (data : Word) (s : State), m < 16 → bar0Up s 0x20000 = true → (mbx s m).en = false → mbxCanEnable s m = true →
    data.getLsbD 0 = true → data.getLsbD 1 = false →
    ((mbx s m).reqLog2.toNat < 6 ∨ 16 < (mbx s m).reqLog2.toNat ∨ (mbx s m).rspLog2.toNat < 6 ∨ 16 < (mbx s m).rspLog2.toNat) →
    ∃ t, exec (.registerWrite (0x20014 + 0x40 * m) 0xF data) s = .next t ∧ (mbx t m).en = false ∧ (mbx t m).err = true ∧ (mbx t m).cause = .badGeometry)

/-- R26: the range of the durability period. -/
def Obligations.DurabilityPeriodRange : Prop :=
  (∃ d, paramDef 0x5000 = some d ∧ d.size = 1 ∧ ∀ v, d.ok v = true ↔ 1 ≤ v ∧ v ≤ 30) ∧
  (∀ (r : Req) (v : Byte) (s : State), Served paramBlockWriteService r s = true → curFormat s 5 = 1 →
    r.payload = [1, 0, 5, 0, 1, 0, 0, 0, 0x00, 0x50, 1, 0, v, 0, 0, 0] →
    ((v.toNat = 0 ∨ 30 < v.toNat) → ∃ t, exec (.paramBlockWrite r) s = .next t ∧ t = answer 0x0120 r .badParam (le 2 0 ++ le 2 0x5000) (taken r s) ∧ pval t 0x5000 = pval s 0x5000) ∧
    (1 ≤ v.toNat → v.toNat ≤ 30 → ∃ t, exec (.paramBlockWrite r) s = .next t ∧ t = answer 0x0120 r .ok [] (writeParam 0x5000 (some v.toNat) (taken r s)) ∧ pval t 0x5000 = v.toNat))

/-- R137: header errors. -/
def Obligations.HeaderErrorsCounted : Prop :=
  (∀ (q mode bmod gmask len : Nat) (hdr : PlcHdrIn) (s : State), plcHears s q = true → (plcp s q).rx = none →
    mode = bits hdr.bits.toNat 1 0 → bmod = bits hdr.bits.toNat 3 2 → gmask = bits hdr.bits.toNat 11 4 → len = bits hdr.bits.toNat 20 12 →
    (crc8Bits hdr.bits ≠ hdr.crc ∨ mode = 3 ∨ len < 24 ∨ 400 < len ∨ ((mode = 1 ∨ mode = 2) ∧ (bmod ≠ 0 ∨ gmask ≠ 0)) ∨
      (mode = 0 ∧ (bmod = 0 ∨ ((List.range 8).filter (fun g => gmask.testBit g)).length < 2))) →
    exec (.plcHeaderDecode q hdr) s = .next (setPlc q (fun p => { p with hdrErr := p.hdrErr + 1 }) s)) ∧
  (∀ (q mode bmod gmask len : Nat) (hdr : PlcHdrIn) (s : State), plcHears s q = true → (plcp s q).rx = none →
    mode = bits hdr.bits.toNat 1 0 → bmod = bits hdr.bits.toNat 3 2 → gmask = bits hdr.bits.toNat 11 4 → len = bits hdr.bits.toNat 20 12 →
    crc8Bits hdr.bits = hdr.crc → mode ≠ 3 → 24 ≤ len → len ≤ 400 → ((mode = 1 ∨ mode = 2) → bmod = 0 ∧ gmask = 0) →
    (mode = 0 → bmod ≠ 0 ∧ 2 ≤ ((List.range 8).filter (fun g => gmask.testBit g)).length) →
    ∃ t, exec (.plcHeaderDecode q hdr) s = .next t ∧ (plcp t q).hdrErr = (plcp s q).hdrErr)

/-- R367 and R468. -/
def Obligations.OneParameterBlocks : Prop :=
  (∃ d, paramDef 0x8000 = some d ∧ d.cls = .l ∧ d.size = 4 ∧ d.dflt = 20000 ∧ ∀ v, d.ok v = true ↔ 1000 ≤ v ∧ v ≤ 200000) ∧
  (∃ d, paramDef 0xA000 = some d ∧ d.cls = .l ∧ d.size = 2 ∧ d.dflt = 600 ∧ ∀ v, d.ok v = true ↔ 60 ≤ v ∧ v ≤ 3600) ∧
  (∀ id : Nat, 0x8001 ≤ id → id ≤ 0x8FFF → paramDef id = none) ∧ (∀ id : Nat, 0xA001 ≤ id → id ≤ 0xAFFF → paramDef id = none)

/-- No command touches the queue, which is the model's own (log 2), and none ends in a fault or a refusal. -/
def Obligations.CommandsKeepTheQueue : Prop :=
  ∀ (c : Instr) (s : State), ∃ t, exec c s = .next t ∧ t.pending = s.pending
end

