-- ==== Sys2Proof/Laws/Keeps.lean ====
section
/-! SUPPORT. What the lemmas about unchanged parts rest on. A lemma X_keeps names every part of the state that X can write: whatever P reads of the
other parts is unchanged by X. -/

namespace Sys2Proof.Machine

/-- The state that a reply leaves. -/
def Reply.st : Reply → State
  | .done s _ _ => s
  | .pend s _ => s
  | .twice s _ _ => s
  | .wait s => s

@[simp] theorem Reply.st_done (s : State) (st : Status) (p : List Byte) : (Reply.done s st p).st = s := rfl

@[simp] theorem Reply.st_pend (s : State) (os : List Obj) : (Reply.pend s os).st = s := rfl

@[simp] theorem Reply.st_twice (s : State) (st : Status) (p : List Byte) : (Reply.twice s st p).st = s := rfl

@[simp] theorem Reply.st_wait (s : State) : (Reply.wait s).st = s := rfl

@[simp] theorem replyOk_st (s : State) (p : List Byte) : (replyOk s p).st = s := rfl

@[simp] theorem refuse_st (s : State) (st : Status) (p : List Byte) : (refuse s st p).st = s := rfl

/-- A fold keeps what each of its steps keeps. -/
theorem foldl_keeps {α β : Type} (P : State → β) (g : State → α → State) (hg : ∀ s x, P (g s x) = P s) :
    ∀ (l : List α) (s : State), P (l.foldl g s) = P s
  | [], _ => rfl
  | x :: xs, s => (foldl_keeps P g hg xs (g s x)).trans (hg s x)

end Sys2Proof.Machine
end

