-- ==== Sys2Proof/Laws/KeepFlags.lean ====
section
/-! SUPPORT. What the functions of Machine/Flags.lean leave unchanged. -/

set_option linter.unusedSimpArgs false
set_option linter.unreachableTactic false
set_option linter.unusedTactic false

namespace Sys2Proof.Machine

theorem sendVector_keeps {β : Type} (P : State → β) (h : ∀ (s : State) x0 x1, P { s with out := x0, evt := x1 } = P s) :
    ∀ a0 a1 s, P (sendVector a0 a1 s) = P s := by
  intro a0 a1 s
  unfold sendVector
  try dsimp only
  repeat' first
    | with_reducible rfl
    | simp only [↓h, ↓apply_ite P, ite_self]
    | split
    | refine (foldl_keeps P _ ?_ _ _).trans ?_
    | intro _ _

theorem raise_keeps {β : Type} (P : State → β) (h : ∀ (s : State) x0 x1, P { s with out := x0, evt := x1 } = P s) :
    ∀ a0 s, P (raise a0 s) = P s := by
  have k0 := sendVector_keeps P (fun s y0 y1 => h s y0 y1)
  intro a0 s
  unfold raise
  try dsimp only
  repeat' first
    | with_reducible rfl
    | simp only [↓h, ↓k0, ↓apply_ite P, ite_self]
    | split
    | refine (foldl_keeps P _ ?_ _ _).trans ?_
    | intro _ _

theorem raiseIf_keeps {β : Type} (P : State → β) (h : ∀ (s : State) x0 x1, P { s with out := x0, evt := x1 } = P s) :
    ∀ a0 a1 s, P (raiseIf a0 a1 s) = P s := by
  have k0 := raise_keeps P (fun s y0 y1 => h s y0 y1)
  intro a0 a1 s
  unfold raiseIf
  try dsimp only
  repeat' first
    | with_reducible rfl
    | simp only [↓h, ↓k0, ↓apply_ite P, ite_self]
    | split
    | refine (foldl_keeps P _ ?_ _ _).trans ?_
    | intro _ _

theorem noteTrust_keeps {β : Type} (P : State → β) (h : ∀ (s : State) x0 x1 x2, P { s with trustSeen := x0, out := x1, evt := x2 } = P s) :
    ∀ s, P (noteTrust s) = P s := by
  have k0 := raise_keeps P (fun s y0 y1 => h s s.trustSeen y0 y1)
  intro s
  unfold noteTrust
  try dsimp only
  repeat' first
    | with_reducible rfl
    | simp only [↓h, ↓k0, ↓apply_ite P, ite_self]
    | split
    | refine (foldl_keeps P _ ?_ _ _).trans ?_
    | intro _ _

end Sys2Proof.Machine
end

