-- ==== Sys2Proof/Laws/KeepOps.lean ====
section
/-! SUPPORT. What the functions of Machine/Ops.lean leave unchanged. -/

set_option linter.unusedSimpArgs false
set_option linter.unreachableTactic false
set_option linter.unusedTactic false

namespace Sys2Proof.Machine

theorem advTo_keeps {β : Type} (P : State → β) (h : ∀ (s : State) x0 x1, P { s with now := x0, mono := x1 } = P s) :
    ∀ a0 s, P (advTo a0 s) = P s := by
  intro a0 s
  unfold advTo
  try dsimp only
  repeat' first
    | with_reducible rfl
    | simp only [↓h, ↓apply_ite P, ite_self]
    | split
    | refine (foldl_keeps P _ ?_ _ _).trans ?_
    | intro _ _

theorem advMono_keeps {β : Type} (P : State → β) (h : ∀ (s : State) x0 x1, P { s with now := x0, mono := x1 } = P s) :
    ∀ a0 s, P (advMono a0 s) = P s := by
  intro a0 s
  unfold advMono
  try dsimp only
  repeat' first
    | with_reducible rfl
    | simp only [↓h, ↓apply_ite P, ite_self]
    | split
    | refine (foldl_keeps P _ ?_ _ _).trans ?_
    | intro _ _

theorem valuesAt_keeps {β : Type} (P : State → β) :
    ∀ (t : Nat) (f : State → State), (∀ s, P (f s) = P s) →
      (∀ v p s, P { f s with cfg.vals := v, cfg.profiles := p } = P { s with cfg.vals := v, cfg.profiles := p }) →
      ∀ s, P (valuesAt t f s) = P s := by
  intro t f hf hv s
  unfold valuesAt
  split
  · exact hv _ _ _
  · exact hf s

theorem fresh_keeps {β : Type} (P : State → β) (h : ∀ (s : State) x0, P { s with freeCtr := x0 } = P s) :
    ∀ s, P (fresh s).2 = P s := by
  intro s
  unfold fresh
  try dsimp only
  repeat' first
    | with_reducible rfl
    | simp only [↓h, ↓apply_ite P, ite_self]
    | split
    | refine (foldl_keeps P _ ?_ _ _).trans ?_
    | intro _ _

theorem draw_keeps {β : Type} (P : State → β) (h : ∀ (s : State) x0 x1, P { s with freeCtr := x0, keys := x1 } = P s) :
    ∀ s, P (draw s).2 = P s := by
  intro s
  unfold draw
  try dsimp only
  repeat' first
    | with_reducible rfl
    | simp only [↓h, ↓apply_ite P, ite_self]
    | split
    | refine (foldl_keeps P _ ?_ _ _).trans ?_
    | intro _ _

theorem setIsl_keeps {β : Type} (P : State → β) (h : ∀ (s : State) x0, P { s with isl := x0 } = P s) :
    ∀ a0 a1 s, P (setIsl a0 a1 s) = P s := by
  intro a0 a1 s
  unfold setIsl
  try dsimp only
  repeat' first
    | with_reducible rfl
    | simp only [↓h, ↓apply_ite P, ite_self]
    | split
    | refine (foldl_keeps P _ ?_ _ _).trans ?_
    | intro _ _

theorem addRepair_keeps {β : Type} (P : State → β) (h : ∀ (s : State) x0, P { s with life := x0 } = P s) :
    ∀ a0 a1 a2 s, P (addRepair a0 a1 a2 s) = P s := by
  intro a0 a1 a2 s
  unfold addRepair
  try dsimp only
  repeat' first
    | with_reducible rfl
    | simp only [↓h, ↓apply_ite P, ite_self]
    | split
    | refine (foldl_keeps P _ ?_ _ _).trans ?_
    | intro _ _

theorem islandFault_keeps {β : Type} (P : State → β) (h : ∀ (s : State) x0 x1 x2, P { s with out := x0, evt := x1, isl := x2 } = P s) :
    ∀ a0 a1 s, P (islandFault a0 a1 s) = P s := by
  have k0 := raise_keeps P (fun s y0 y1 => h s y0 y1 s.isl)
  have k1 := setIsl_keeps P (fun s y0 => h s s.out s.evt y0)
  intro a0 a1 s
  unfold islandFault
  try dsimp only
  repeat' first
    | with_reducible rfl
    | simp only [↓h, ↓k0, ↓k1, ↓apply_ite P, ite_self]
    | split
    | refine (foldl_keeps P _ ?_ _ _).trans ?_
    | intro _ _

theorem recSuppress_keeps {β : Type} (P : State → β) (h : ∀ (s : State) x0 x1 x2, P { s with out := x0, evt := x1, slate := x2 } = P s) :
    ∀ a0 s, P (recSuppress a0 s) = P s := by
  have k0 := raiseIf_keeps P (fun s y0 y1 => h s y0 y1 s.slate)
  intro a0 s
  unfold recSuppress
  try dsimp only
  repeat' first
    | with_reducible rfl
    | simp only [↓h, ↓k0, ↓apply_ite P, ite_self]
    | split
    | refine (foldl_keeps P _ ?_ _ _).trans ?_
    | intro _ _

theorem recAdmit_keeps {β : Type} (P : State → β) (h : ∀ (s : State) x0 x1 x2, P { s with out := x0, evt := x1, slate := x2 } = P s) :
    ∀ a0 a1 s, P (recAdmit a0 a1 s) = P s := by
  have k0 := recSuppress_keeps P (fun s y0 y1 y2 => h s y0 y1 y2)
  intro a0 a1 s
  unfold recAdmit
  try dsimp only
  repeat' first
    | with_reducible rfl
    | simp only [↓h, ↓k0, ↓apply_ite P, ite_self]
    | split
    | refine (foldl_keeps P _ ?_ _ _).trans ?_
    | intro _ _

theorem recordNow_keeps {β : Type} (P : State → β) (h : ∀ (s : State) x0 x1 x2 x3, P { s with out := x0, evt := x1, bkp := x2, slate := x3 } = P s) :
    ∀ a0 a1 s, P (recordNow a0 a1 s) = P s := by
  have k0 := recAdmit_keeps P (fun s y0 y1 y2 => h s y0 y1 s.bkp y2)
  have k1 := recSuppress_keeps P (fun s y0 y1 y2 => h s y0 y1 s.bkp y2)
  intro a0 a1 s
  unfold recordNow
  try dsimp only
  repeat' first
    | with_reducible rfl
    | simp only [↓h, ↓k0, ↓k1, ↓apply_ite P, ite_self]
    | split
    | refine (foldl_keeps P _ ?_ _ _).trans ?_
    | intro _ _

theorem record_keeps {β : Type} (P : State → β) (h : ∀ (s : State) x0 x1 x2 x3, P { s with out := x0, evt := x1, bkp := x2, slate := x3 } = P s) :
    ∀ a0 a1 s, P (record a0 a1 s) = P s := by
  have k0 := recordNow_keeps P (fun s y0 y1 y2 y3 => h s y0 y1 y2 y3)
  intro a0 a1 s
  unfold record
  try dsimp only
  repeat' first
    | with_reducible rfl
    | simp only [↓h, ↓k0, ↓apply_ite P, ite_self]
    | split
    | refine (foldl_keeps P _ ?_ _ _).trans ?_
    | intro _ _

theorem setMbx_keeps {β : Type} (P : State → β) (h : ∀ (s : State) x0, P { s with mbxs := x0 } = P s) :
    ∀ a0 a1 s, P (setMbx a0 a1 s) = P s := by
  intro a0 a1 s
  unfold setMbx
  try dsimp only
  repeat' first
    | with_reducible rfl
    | simp only [↓h, ↓apply_ite P, ite_self]
    | split
    | refine (foldl_keeps P _ ?_ _ _).trans ?_
    | intro _ _

theorem orphanRecord_keeps {β : Type} (P : State → β) (h : ∀ (s : State) x0 x1 x2 x3, P { s with out := x0, evt := x1, bkp := x2, slate := x3 } = P s) :
    ∀ a0 a1 s, P (orphanRecord a0 a1 s) = P s := by
  have k0 := record_keeps P (fun s y0 y1 y2 y3 => h s y0 y1 y2 y3)
  intro a0 a1 s
  unfold orphanRecord
  try dsimp only
  repeat' first
    | with_reducible rfl
    | simp only [↓h, ↓k0, ↓apply_ite P, ite_self]
    | split
    | refine (foldl_keeps P _ ?_ _ _).trans ?_
    | intro _ _

theorem writeRsp_keeps {β : Type} (P : State → β) (h : ∀ (s : State) x0 x1 x2, P { s with out := x0, mbxs := x1, evt := x2 } = P s) :
    ∀ a0 a1 s, P (writeRsp a0 a1 s) = P s := by
  have k0 := raise_keeps P (fun s y0 y1 => h s y0 s.mbxs y1)
  have k1 := setMbx_keeps P (fun s y0 => h s s.out y0 s.evt)
  intro a0 a1 s
  unfold writeRsp
  try dsimp only
  repeat' first
    | with_reducible rfl
    | simp only [↓h, ↓k0, ↓k1, ↓apply_ite P, ite_self]
    | split
    | refine (foldl_keeps P _ ?_ _ _).trans ?_
    | intro _ _

theorem mbxError_keeps {β : Type} (P : State → β) (h : ∀ (s : State) x0 x1 x2 x3 x4 x5, P { s with out := x0, mbxs := x1, ops := x2, evt := x3, bkp := x4, slate := x5 } = P s) :
    ∀ a0 a1 s, P (mbxError a0 a1 s) = P s := by
  have k0 := orphanRecord_keeps P (fun s y0 y1 y2 y3 => h s y0 s.mbxs s.ops y1 y2 y3)
  have k1 := raise_keeps P (fun s y0 y1 => h s y0 s.mbxs s.ops y1 s.bkp s.slate)
  have k2 := setMbx_keeps P (fun s y0 => h s s.out y0 s.ops s.evt s.bkp s.slate)
  intro a0 a1 s
  unfold mbxError
  try dsimp only
  repeat' first
    | with_reducible rfl
    | simp only [↓h, ↓k0, ↓k1, ↓k2, ↓apply_ite P, ite_self]
    | split
    | refine (foldl_keeps P _ ?_ _ _).trans ?_
    | intro _ _

theorem post_keeps {β : Type} (P : State → β) (h : ∀ (s : State) x0 x1 x2 x3 x4 x5, P { s with out := x0, mbxs := x1, ops := x2, evt := x3, bkp := x4, slate := x5 } = P s) :
    ∀ a0 a1 a2 s, P (post a0 a1 a2 s) = P s := by
  have k0 := mbxError_keeps P (fun s y0 y1 y2 y3 y4 y5 => h s y0 y1 y2 y3 y4 y5)
  have k1 := orphanRecord_keeps P (fun s y0 y1 y2 y3 => h s y0 s.mbxs s.ops y1 y2 y3)
  have k2 := setMbx_keeps P (fun s y0 => h s s.out y0 s.ops s.evt s.bkp s.slate)
  have k3 := writeRsp_keeps P (fun s y0 y1 y2 => h s y0 y1 s.ops y2 s.bkp s.slate)
  intro a0 a1 a2 s
  unfold post
  try dsimp only
  repeat' first
    | with_reducible rfl
    | simp only [↓h, ↓k0, ↓k1, ↓k2, ↓k3, ↓apply_ite P, ite_self]
    | split
    | refine (foldl_keeps P _ ?_ _ _).trans ?_
    | intro _ _

theorem finishOp_keeps {β : Type} (P : State → β) (h : ∀ (s : State) x0 x1 x2 x3 x4 x5, P { s with out := x0, mbxs := x1, ops := x2, evt := x3, bkp := x4, slate := x5 } = P s) :
    ∀ a0 a1 a2 s, P (finishOp a0 a1 a2 s) = P s := by
  have k0 := post_keeps P (fun s y0 y1 y2 y3 y4 y5 => h s y0 y1 y2 y3 y4 y5)
  intro a0 a1 a2 s
  unfold finishOp
  try dsimp only
  repeat' first
    | with_reducible rfl
    | simp only [↓h, ↓k0, ↓apply_ite P, ite_self]
    | split
    | refine (foldl_keeps P _ ?_ _ _).trans ?_
    | intro _ _

theorem finishOps_keeps {β : Type} (P : State → β) (h : ∀ (s : State) x0 x1 x2 x3 x4 x5, P { s with out := x0, mbxs := x1, ops := x2, evt := x3, bkp := x4, slate := x5 } = P s) :
    ∀ a0 a1 a2 s, P (finishOps a0 a1 a2 s) = P s := by
  have k0 := finishOp_keeps P (fun s y0 y1 y2 y3 y4 y5 => h s y0 y1 y2 y3 y4 y5)
  intro a0 a1 a2 s
  unfold finishOps
  try dsimp only
  repeat' first
    | with_reducible rfl
    | simp only [↓h, ↓k0, ↓apply_ite P, ite_self]
    | split
    | refine (foldl_keeps P _ ?_ _ _).trans ?_
    | intro _ _

theorem immediate_keeps {β : Type} (P : State → β) (h : ∀ (s : State) x0 x1 x2 x3 x4 x5, P { s with out := x0, mbxs := x1, ops := x2, evt := x3, bkp := x4, slate := x5 } = P s) :
    ∀ a0 a1 a2 a3 a4 s, P (immediate a0 a1 a2 a3 a4 s) = P s := by
  have k0 := post_keeps P (fun s y0 y1 y2 y3 y4 y5 => h s y0 y1 y2 y3 y4 y5)
  intro a0 a1 a2 a3 a4 s
  unfold immediate
  try dsimp only
  repeat' first
    | with_reducible rfl
    | simp only [↓h, ↓k0, ↓apply_ite P, ite_self]
    | split
    | refine (foldl_keeps P _ ?_ _ _).trans ?_
    | intro _ _

theorem addOp_keeps {β : Type} (P : State → β) (h : ∀ (s : State) x0 x1, P { s with ops := x0, nextOp := x1 } = P s) :
    ∀ a0 a1 a2 a3 a4 s, P (addOp a0 a1 a2 a3 a4 s) = P s := by
  intro a0 a1 a2 a3 a4 s
  unfold addOp
  try dsimp only
  repeat' first
    | with_reducible rfl
    | simp only [↓h, ↓apply_ite P, ite_self]
    | split
    | refine (foldl_keeps P _ ?_ _ _).trans ?_
    | intro _ _

theorem startWait_keeps {β : Type} (P : State → β) (h : ∀ (s : State) x0 x1 x2 x3 x4 x5 x6, P { s with out := x0, mbxs := x1, ops := x2, nextOp := x3, evt := x4, bkp := x5, slate := x6 } = P s) :
    ∀ a0 a1 a2 s, P (startWait a0 a1 a2 s) = P s := by
  have k0 := addOp_keeps P (fun s y0 y1 => h s s.out s.mbxs y0 y1 s.evt s.bkp s.slate)
  have k1 := immediate_keeps P (fun s y0 y1 y2 y3 y4 y5 => h s y0 y1 y2 s.nextOp y3 y4 y5)
  intro a0 a1 a2 s
  unfold startWait
  try dsimp only
  repeat' first
    | with_reducible rfl
    | simp only [↓h, ↓k0, ↓k1, ↓apply_ite P, ite_self]
    | split
    | refine (foldl_keeps P _ ?_ _ _).trans ?_
    | intro _ _

theorem replyOk_keeps {β : Type} (P : State → β) :
    ∀ s a1, P (replyOk s a1).st = P s := by
  intro s a1
  unfold replyOk
  try dsimp only
  repeat' first
    | with_reducible rfl
    | simp only [↓apply_ite P, ite_self, Reply.st_done, Reply.st_pend, Reply.st_twice, Reply.st_wait, replyOk_st, refuse_st]
    | split
    | refine (foldl_keeps P _ ?_ _ _).trans ?_
    | intro _ _

theorem refuse_keeps {β : Type} (P : State → β) :
    ∀ s a1 a2, P (refuse s a1 a2).st = P s := by
  intro s a1 a2
  unfold refuse
  try dsimp only
  repeat' first
    | with_reducible rfl
    | simp only [↓apply_ite P, ite_self, Reply.st_done, Reply.st_pend, Reply.st_twice, Reply.st_wait, replyOk_st, refuse_st]
    | split
    | refine (foldl_keeps P _ ?_ _ _).trans ?_
    | intro _ _

theorem pacedAt_keeps {β : Type} (P : State → β) (h : ∀ (s : State) x0 x1 x2, P { s with now := x0, mono := x1, freeCtr := x2 } = P s) :
    ∀ a0 a1 a2 s, P (pacedAt a0 a1 a2 s) = P s := by
  have k0 := advMono_keeps P (fun s y0 y1 => h s y0 y1 s.freeCtr)
  have k1 := fresh_keeps P (fun s y0 => h s s.now s.mono y0)
  have q1 := fun b0 t u (e : fresh b0 = (u, t)) => (congrArg (fun z => P z.2) e).symm.trans (k1 b0)
  intro a0 a1 a2 s
  unfold pacedAt
  try dsimp only
  repeat' first
    | with_reducible rfl
    | simp only [↓h, ↓k0, ↓k1, ↓apply_ite P, ite_self]
    | split
    | refine (q1 _ _ _ (by assumption)).trans ?_
    | refine (foldl_keeps P _ ?_ _ _).trans ?_
    | intro _ _

theorem roundAt_keeps {β : Type} (P : State → β) (h : ∀ (s : State) x0 x1, P { s with now := x0, mono := x1 } = P s) :
    ∀ a0 a1 s, P (roundAt a0 a1 s) = P s := by
  have k0 := advMono_keeps P (fun s y0 y1 => h s y0 y1)
  intro a0 a1 s
  unfold roundAt
  try dsimp only
  repeat' first
    | with_reducible rfl
    | simp only [↓h, ↓k0, ↓apply_ite P, ite_self]
    | split
    | refine (foldl_keeps P _ ?_ _ _).trans ?_
    | intro _ _

theorem touch_keeps {β : Type} (P : State → β) (h : ∀ (s : State) x0, P { s with mem := x0 } = P s) :
    ∀ a0 s, P (touch a0 s) = P s := by
  intro a0 s
  unfold touch
  try dsimp only
  repeat' first
    | with_reducible rfl
    | simp only [↓h, ↓apply_ite P, ite_self]
    | split
    | refine (foldl_keeps P _ ?_ _ _).trans ?_
    | intro _ _

theorem dirtyCtx_keeps {β : Type} (P : State → β) (h : ∀ (s : State) x0, P { s with mem := x0 } = P s) :
    ∀ a0 s, P (dirtyCtx a0 s) = P s := by
  intro a0 s
  unfold dirtyCtx
  try dsimp only
  repeat' first
    | with_reducible rfl
    | simp only [↓h, ↓apply_ite P, ite_self]
    | split
    | refine (foldl_keeps P _ ?_ _ _).trans ?_
    | intro _ _

theorem streamAnew_keeps {β : Type} (P : State → β) (h : ∀ (s : State) x0, P { s with chans := x0 } = P s) :
    ∀ a0 s, P (streamAnew a0 s) = P s := by
  intro a0 s
  unfold streamAnew
  try dsimp only
  repeat' first
    | with_reducible rfl
    | simp only [↓h, ↓apply_ite P, ite_self]
    | split
    | refine (foldl_keeps P _ ?_ _ _).trans ?_
    | intro _ _

theorem bindChan_keeps {β : Type} (P : State → β) (h : ∀ (s : State) x0, P { s with chans := x0 } = P s) :
    ∀ a0 a1 s, P (bindChan a0 a1 s) = P s := by
  intro a0 a1 s
  unfold bindChan
  try dsimp only
  repeat' first
    | with_reducible rfl
    | simp only [↓h, ↓apply_ite P, ite_self]
    | split
    | refine (foldl_keeps P _ ?_ _ _).trans ?_
    | intro _ _

theorem unbindChan_keeps {β : Type} (P : State → β) (h : ∀ (s : State) x0, P { s with chans := x0 } = P s) :
    ∀ a0 s, P (unbindChan a0 s) = P s := by
  intro a0 s
  unfold unbindChan
  try dsimp only
  repeat' first
    | with_reducible rfl
    | simp only [↓h, ↓apply_ite P, ite_self]
    | split
    | refine (foldl_keeps P _ ?_ _ _).trans ?_
    | intro _ _

theorem faultSeq_keeps {β : Type} (P : State → β) (h : ∀ (s : State) x0, P { s with freeCtr := x0 } = P s) :
    ∀ a0 s, P (faultSeq a0 s).2 = P s := by
  have k0 := fresh_keeps P (fun s y0 => h s y0)
  have q0 := fun b0 t u (e : fresh b0 = (u, t)) => (congrArg (fun z => P z.2) e).symm.trans (k0 b0)
  intro a0 s
  unfold faultSeq
  try dsimp only
  repeat' first
    | with_reducible rfl
    | simp only [↓h, ↓k0, ↓apply_ite P, ite_self]
    | split
    | refine (q0 _ _ _ (by assumption)).trans ?_
    | refine (foldl_keeps P _ ?_ _ _).trans ?_
    | intro _ _

theorem recordFault_keeps {β : Type} (P : State → β) (h : ∀ (s : State) x0 x1 x2 x3 x4, P { s with freeCtr := x0, out := x1, evt := x2, bkp := x3, slate := x4 } = P s) :
    ∀ a0 a1 s, P (recordFault a0 a1 s).2 = P s := by
  have k0 := faultSeq_keeps P (fun s y0 => h s y0 s.out s.evt s.bkp s.slate)
  have k1 := record_keeps P (fun s y0 y1 y2 y3 => h s s.freeCtr y0 y1 y2 y3)
  have q0 := fun b0 b1 t u (e : faultSeq b0 b1 = (u, t)) => (congrArg (fun z => P z.2) e).symm.trans (k0 b0 b1)
  intro a0 a1 s
  unfold recordFault
  try dsimp only
  repeat' first
    | with_reducible rfl
    | simp only [↓h, ↓k0, ↓k1, ↓apply_ite P, ite_self]
    | split
    | refine (q0 _ _ _ _ (by assumption)).trans ?_
    | refine (foldl_keeps P _ ?_ _ _).trans ?_
    | intro _ _

theorem setCfgState_keeps {β : Type} (P : State → β) (h : ∀ (s : State) x0 x1 x2, P { s with out := x0, cfg := x1, evt := x2 } = P s) :
    ∀ a0 s, P (setCfgState a0 s) = P s := by
  have k0 := raise_keeps P (fun s y0 y1 => h s y0 s.cfg y1)
  intro a0 s
  unfold setCfgState
  try dsimp only
  repeat' first
    | with_reducible rfl
    | simp only [↓h, ↓k0, ↓apply_ite P, ite_self]
    | split
    | refine (foldl_keeps P _ ?_ _ _).trans ?_
    | intro _ _

end Sys2Proof.Machine
end

