-- ==== Sys2Proof/Laws/KeepImage.lean ====
section
/-! SUPPORT. What the functions of Machine/Image.lean leave unchanged. -/

set_option linter.unusedSimpArgs false
set_option linter.unreachableTactic false
set_option linter.unusedTactic false

namespace Sys2Proof.Machine

theorem noteEp_keeps {β : Type} (P : State → β) (h : ∀ (s : State) x0, P { s with eps := x0 } = P s) :
    ∀ a0 a1 s, P (noteEp a0 a1 s) = P s := by
  intro a0 a1 s
  unfold noteEp
  try dsimp only
  repeat' first
    | with_reducible rfl
    | simp only [↓h, ↓apply_ite P, ite_self]
    | split
    | refine (foldl_keeps P _ ?_ _ _).trans ?_
    | intro _ _

theorem updEp_keeps {β : Type} (P : State → β) (h : ∀ (s : State) x0 x1, P { s with eps := x0, mem := x1 } = P s) :
    ∀ a0 a1 s, P (updEp a0 a1 s) = P s := by
  have k0 := dirtyCtx_keeps P (fun s y0 => h s s.eps y0)
  have k1 := noteEp_keeps P (fun s y0 => h s y0 s.mem)
  intro a0 a1 s
  unfold updEp
  try dsimp only
  repeat' first
    | with_reducible rfl
    | simp only [↓h, ↓k0, ↓k1, ↓apply_ite P, ite_self]
    | split
    | refine (foldl_keeps P _ ?_ _ _).trans ?_
    | intro _ _

theorem dirtyPage_keeps {β : Type} (P : State → β) (h : ∀ (s : State) x0, P { s with ledger := x0 } = P s) :
    ∀ a0 s, P (dirtyPage a0 s) = P s := by
  intro a0 s
  unfold dirtyPage
  try dsimp only
  repeat' first
    | with_reducible rfl
    | simp only [↓h, ↓apply_ite P, ite_self]
    | split
    | refine (foldl_keeps P _ ?_ _ _).trans ?_
    | intro _ _

theorem updImg_keeps {β : Type} (P : State → β) (h : ∀ (s : State) x0 x1 x2, P { s with eps := x0, mem := x1, ledger := x2 } = P s) :
    ∀ a0 a1 s, P (updImg a0 a1 s) = P s := by
  have k0 := dirtyCtx_keeps P (fun s y0 => h s s.eps y0 s.ledger)
  have k1 := dirtyPage_keeps P (fun s y0 => h s s.eps s.mem y0)
  intro a0 a1 s
  unfold updImg
  try dsimp only
  repeat' first
    | with_reducible rfl
    | simp only [↓h, ↓k0, ↓k1, ↓apply_ite P, ite_self]
    | split
    | refine (foldl_keeps P _ ?_ _ _).trans ?_
    | intro _ _

theorem setAdm_keeps {β : Type} (P : State → β) (h : ∀ (s : State) x0 x1 x2, P { s with dir := x0, eps := x1, mem := x2 } = P s) :
    ∀ a0 a1 s, P (setAdm a0 a1 s) = P s := by
  have k0 := updEp_keeps P (fun s y0 y1 => h s s.dir y0 y1)
  intro a0 a1 s
  unfold setAdm
  try dsimp only
  repeat' first
    | with_reducible rfl
    | simp only [↓h, ↓k0, ↓apply_ite P, ite_self]
    | split
    | refine (foldl_keeps P _ ?_ _ _).trans ?_
    | intro _ _

theorem tallyInc_keeps {β : Type} (P : State → β) (h : ∀ (s : State) x0 x1 x2 x3 x4 x5 x6, P { s with out := x0, evt := x1, bkp := x2, eps := x3, mem := x4, ledger := x5, slate := x6 } = P s) :
    ∀ a0 a1 s, P (tallyInc a0 a1 s) = P s := by
  have k0 := raise_keeps P (fun s y0 y1 => h s y0 y1 s.bkp s.eps s.mem s.ledger s.slate)
  have k1 := record_keeps P (fun s y0 y1 y2 y3 => h s y0 y1 y2 s.eps s.mem s.ledger y3)
  have k2 := updImg_keeps P (fun s y0 y1 y2 => h s s.out s.evt s.bkp y0 y1 y2 s.slate)
  intro a0 a1 s
  unfold tallyInc
  try dsimp only
  repeat' first
    | with_reducible rfl
    | simp only [↓h, ↓k0, ↓k1, ↓k2, ↓apply_ite P, ite_self]
    | split
    | refine (foldl_keeps P _ ?_ _ _).trans ?_
    | intro _ _

end Sys2Proof.Machine
end

