-- ==== Sys2Proof/Laws/KeepJournal.lean ====
section
/-! SUPPORT. What the functions of Machine/Journal.lean leave unchanged. -/

set_option linter.unusedSimpArgs false
set_option linter.unreachableTactic false
set_option linter.unusedTactic false

namespace Sys2Proof.Machine

theorem jnlRefresh_keeps {β : Type} (P : State → β) (h : ∀ (s : State) x0 x1 x2, P { s with out := x0, evt := x1, jnl := x2 } = P s) :
    ∀ s, P (jnlRefresh s) = P s := by
  have k0 := raise_keeps P (fun s y0 y1 => h s y0 y1 s.jnl)
  intro s
  unfold jnlRefresh
  try dsimp only
  repeat' first
    | with_reducible rfl
    | simp only [↓h, ↓k0, ↓apply_ite P, ite_self]
    | split
    | refine (foldl_keeps P _ ?_ _ _).trans ?_
    | intro _ _

theorem markBad_keeps {β : Type} (P : State → β) (h : ∀ (s : State) x0, P { s with life := x0 } = P s) :
    ∀ a0 a1 s, P (markBad a0 a1 s) = P s := by
  have k0 := addRepair_keeps P (fun s y0 => h s y0)
  intro a0 a1 s
  unfold markBad
  try dsimp only
  repeat' first
    | with_reducible rfl
    | simp only [↓h, ↓k0, ↓apply_ite P, ite_self]
    | split
    | refine (foldl_keeps P _ ?_ _ _).trans ?_
    | intro _ _

theorem jnlPut_keeps {β : Type} (P : State → β) (h : ∀ (s : State) x0 x1, P { s with jnv := x0, life := x1 } = P s) :
    ∀ a0 s, P (jnlPut a0 s) = P s := by
  have k0 := markBad_keeps P (fun s y0 => h s s.jnv y0)
  intro a0 s
  unfold jnlPut
  try dsimp only
  repeat' first
    | with_reducible rfl
    | simp only [↓h, ↓k0, ↓apply_ite P, ite_self]
    | split
    | refine (foldl_keeps P _ ?_ _ _).trans ?_
    | intro _ _

theorem closeOpen_keeps {β : Type} (P : State → β) (h : ∀ (s : State) x0, P { s with prov := x0 } = P s) :
    ∀ s, P (closeOpen s) = P s := by
  intro s
  unfold closeOpen
  try dsimp only
  repeat' first
    | with_reducible rfl
    | simp only [↓h, ↓apply_ite P, ite_self]
    | split
    | refine (foldl_keeps P _ ?_ _ _).trans ?_
    | intro _ _

theorem closeOpenOvf_keeps {β : Type} (P : State → β) (h : ∀ (s : State) x0, P { s with prov := x0 } = P s) :
    ∀ s, P (closeOpenOvf s) = P s := by
  intro s
  unfold closeOpenOvf
  try dsimp only
  repeat' first
    | with_reducible rfl
    | simp only [↓h, ↓apply_ite P, ite_self]
    | split
    | refine (foldl_keeps P _ ?_ _ _).trans ?_
    | intro _ _

theorem closeStmt_keeps {β : Type} (P : State → β) (h : ∀ (s : State) x0 x1, P { s with prov := x0, ledger := x1 } = P s) :
    ∀ s, P (closeStmt s) = P s := by
  intro s
  unfold closeStmt
  try dsimp only
  repeat' first
    | with_reducible rfl
    | simp only [↓h, ↓apply_ite P, ite_self]
    | split
    | refine (foldl_keeps P _ ?_ _ _).trans ?_
    | intro _ _

theorem jnlOne_keeps {β : Type} (P : State → β) (h : ∀ (s : State) x0 x1, P { s with jnv := x0, life := x1 } = P s) :
    ∀ a0 s, P (jnlOne a0 s) = P s := by
  have k0 := jnlPut_keeps P (fun s y0 y1 => h s y0 y1)
  intro a0 s
  unfold jnlOne
  try dsimp only
  repeat' first
    | with_reducible rfl
    | simp only [↓h, ↓k0, ↓apply_ite P, ite_self]
    | split
    | refine (foldl_keeps P _ ?_ _ _).trans ?_
    | intro _ _

theorem jnlTime_keeps {β : Type} (P : State → β) (h : ∀ (s : State) x0 x1 x2 x3, P { s with jnv := x0, jnl := x1, prov := x2, life := x3 } = P s) :
    ∀ s, P (jnlTime s) = P s := by
  have k0 := closeOpen_keeps P (fun s y0 => h s s.jnv s.jnl y0 s.life)
  have k1 := jnlOne_keeps P (fun s y0 y1 => h s y0 s.jnl s.prov y1)
  intro s
  unfold jnlTime
  try dsimp only
  repeat' first
    | with_reducible rfl
    | simp only [↓h, ↓k0, ↓k1, ↓apply_ite P, ite_self]
    | split
    | refine (foldl_keeps P _ ?_ _ _).trans ?_
    | intro _ _

theorem jnlSealOwed_keeps {β : Type} (P : State → β) (h : ∀ (s : State) x0 x1 x2 x3, P { s with jnv := x0, jnl := x1, roots := x2, life := x3 } = P s) :
    ∀ s, P (jnlSealOwed s) = P s := by
  have k0 := jnlOne_keeps P (fun s y0 y1 => h s y0 s.jnl s.roots y1)
  intro s
  unfold jnlSealOwed
  try dsimp only
  repeat' first
    | with_reducible rfl
    | simp only [↓h, ↓k0, ↓apply_ite P, ite_self]
    | split
    | refine (foldl_keeps P _ ?_ _ _).trans ?_
    | intro _ _

theorem jnlEntries_keeps {β : Type} (P : State → β) (h : ∀ (s : State) x0 x1, P { s with jnv := x0, life := x1 } = P s) :
    ∀ a0 s, P (jnlEntries a0 s) = P s := by
  have k0 := jnlPut_keeps P (fun s y0 y1 => h s y0 y1)
  intro a0 s
  fun_induction jnlEntries a0 s
  all_goals
    repeat' first
      | with_reducible rfl
      | simp +zetaDelta only [↓h, ↓k0, ↓apply_ite P, ite_self, *]
      | split
      | refine (foldl_keeps P _ ?_ _ _).trans ?_
      | intro _ _

theorem jnlDone_keeps {β : Type} (P : State → β) (h : ∀ (s : State) x0 x1 x2, P { s with out := x0, evt := x1, jnl := x2 } = P s) :
    ∀ s, P (jnlDone s) = P s := by
  have k0 := jnlRefresh_keeps P (fun s y0 y1 y2 => h s y0 y1 y2)
  intro s
  unfold jnlDone
  try dsimp only
  repeat' first
    | with_reducible rfl
    | simp only [↓h, ↓k0, ↓apply_ite P, ite_self]
    | split
    | refine (foldl_keeps P _ ?_ _ _).trans ?_
    | intro _ _

theorem jnlGroup_keeps {β : Type} (P : State → β) (h : ∀ (s : State) x0 x1 x2 x3 x4 x5 x6, P { s with out := x0, evt := x1, jnv := x2, jnl := x3, prov := x4, roots := x5, life := x6 } = P s) :
    ∀ a0 s, P (jnlGroup a0 s) = P s := by
  have k0 := jnlDone_keeps P (fun s y0 y1 y2 => h s y0 y1 s.jnv y2 s.prov s.roots s.life)
  have k1 := jnlEntries_keeps P (fun s y0 y1 => h s s.out s.evt y0 s.jnl s.prov s.roots y1)
  have k2 := jnlSealOwed_keeps P (fun s y0 y1 y2 y3 => h s s.out s.evt y0 y1 s.prov y2 y3)
  have k3 := jnlTime_keeps P (fun s y0 y1 y2 y3 => h s s.out s.evt y0 y1 y2 s.roots y3)
  intro a0 s
  unfold jnlGroup
  try dsimp only
  repeat' first
    | with_reducible rfl
    | simp only [↓h, ↓k0, ↓k1, ↓k2, ↓k3, ↓apply_ite P, ite_self]
    | split
    | refine (foldl_keeps P _ ?_ _ _).trans ?_
    | intro _ _

theorem jnlRelease_keeps {β : Type} (P : State → β) (h : ∀ (s : State) x0 x1 x2 x3, P { s with out := x0, evt := x1, jnv := x2, jnl := x3 } = P s) :
    ∀ s, P (jnlRelease s) = P s := by
  have k0 := jnlRefresh_keeps P (fun s y0 y1 y2 => h s y0 y1 s.jnv y2)
  intro s
  unfold jnlRelease
  try dsimp only
  repeat' first
    | with_reducible rfl
    | simp only [↓h, ↓k0, ↓apply_ite P, ite_self]
    | split
    | refine (foldl_keeps P _ ?_ _ _).trans ?_
    | intro _ _

theorem jnlFail_keeps {β : Type} (P : State → β) (h : ∀ (s : State) x0 x1 x2 x3 x4 x5 x6, P { s with out := x0, evt := x1, bkp := x2, jnv := x3, jnl := x4, slate := x5, life := x6 } = P s) :
    ∀ a0 s, P (jnlFail a0 s) = P s := by
  have k0 := jnlRefresh_keeps P (fun s y0 y1 y2 => h s y0 y1 s.bkp s.jnv y2 s.slate s.life)
  have k1 := markBad_keeps P (fun s y0 => h s s.out s.evt s.bkp s.jnv s.jnl s.slate y0)
  have k2 := record_keeps P (fun s y0 y1 y2 y3 => h s y0 y1 y2 s.jnv s.jnl y3 s.life)
  intro a0 s
  unfold jnlFail
  try dsimp only
  repeat' first
    | with_reducible rfl
    | simp only [↓h, ↓k0, ↓k1, ↓k2, ↓apply_ite P, ite_self]
    | split
    | refine (foldl_keeps P _ ?_ _ _).trans ?_
    | intro _ _

theorem jnlC1_keeps {β : Type} (P : State → β) (h : ∀ (s : State) x0 x1 x2, P { s with out := x0, evt := x1, jnl := x2 } = P s) :
    ∀ a0 s, P (jnlC1 a0 s) = P s := by
  have k0 := jnlRefresh_keeps P (fun s y0 y1 y2 => h s y0 y1 y2)
  intro a0 s
  unfold jnlC1
  try dsimp only
  repeat' first
    | with_reducible rfl
    | simp only [↓h, ↓k0, ↓apply_ite P, ite_self]
    | split
    | refine (foldl_keeps P _ ?_ _ _).trans ?_
    | intro _ _

theorem jnlPwr_keeps {β : Type} (P : State → β) (h : ∀ (s : State) x0 x1 x2, P { s with out := x0, evt := x1, jnl := x2 } = P s) :
    ∀ a0 s, P (jnlPwr a0 s) = P s := by
  have k0 := jnlRefresh_keeps P (fun s y0 y1 y2 => h s y0 y1 y2)
  intro a0 s
  unfold jnlPwr
  try dsimp only
  repeat' first
    | with_reducible rfl
    | simp only [↓h, ↓k0, ↓apply_ite P, ite_self]
    | split
    | refine (foldl_keeps P _ ?_ _ _).trans ?_
    | intro _ _

theorem sealChanged_keeps {β : Type} (P : State → β) (h : ∀ (s : State) x0 x1 x2 x3 x4 x5 x6 x7 x8, P { s with out := x0, evt := x1, bkp := x2, jnv := x3, jnl := x4, prov := x5, roots := x6, slate := x7, life := x8 } = P s) :
    ∀ a0 s, P (sealChanged a0 s) = P s := by
  have k0 := jnlDone_keeps P (fun s y0 y1 y2 => h s y0 y1 s.bkp s.jnv y2 s.prov s.roots s.slate s.life)
  have k1 := jnlSealOwed_keeps P (fun s y0 y1 y2 y3 => h s s.out s.evt s.bkp y0 y1 s.prov y2 s.slate y3)
  have k2 := jnlTime_keeps P (fun s y0 y1 y2 y3 => h s s.out s.evt s.bkp y0 y1 y2 s.roots s.slate y3)
  have k3 := raise_keeps P (fun s y0 y1 => h s y0 y1 s.bkp s.jnv s.jnl s.prov s.roots s.slate s.life)
  have k4 := record_keeps P (fun s y0 y1 y2 y3 => h s y0 y1 y2 s.jnv s.jnl s.prov s.roots y3 s.life)
  intro a0 s
  unfold sealChanged
  try dsimp only
  repeat' first
    | with_reducible rfl
    | simp only [↓h, ↓k0, ↓k1, ↓k2, ↓k3, ↓k4, ↓apply_ite P, ite_self]
    | split
    | refine (foldl_keeps P _ ?_ _ _).trans ?_
    | intro _ _

end Sys2Proof.Machine
end

