-- ==== Sys2Proof/Laws/KeepTariff.lean ====
section
/-! SUPPORT. What the functions of Machine/Tariff.lean leave unchanged. -/

set_option linter.unusedSimpArgs false
set_option linter.unreachableTactic false
set_option linter.unusedTactic false

namespace Sys2Proof.Machine

theorem addStmt_keeps {β : Type} (P : State → β) (h : ∀ (s : State) x0 x1, P { s with prov := x0, ledger := x1 } = P s) :
    ∀ a0 s, P (addStmt a0 s) = P s := by
  have k0 := closeStmt_keeps P (fun s y0 y1 => h s y0 y1)
  intro a0 s
  unfold addStmt
  try dsimp only
  repeat' first
    | with_reducible rfl
    | simp only [↓h, ↓k0, ↓apply_ite P, ite_self]
    | split
    | refine (foldl_keeps P _ ?_ _ _).trans ?_
    | intro _ _

theorem rollAt_keeps {β : Type} (P : State → β) (h : ∀ (s : State) x0 x1 x2 x3, P { s with eps := x0, mem := x1, prov := x2, ledger := x3 } = P s) :
    ∀ a0 a1 a2 a3 a4 a5 s, P (rollAt a0 a1 a2 a3 a4 a5 s) = P s := by
  have k0 := addStmt_keeps P (fun s y0 y1 => h s s.eps s.mem y0 y1)
  have k1 := updImg_keeps P (fun s y0 y1 y2 => h s y0 y1 s.prov y2)
  intro a0 a1 a2 a3 a4 a5 s
  unfold rollAt
  try dsimp only
  repeat' first
    | with_reducible rfl
    | simp only [↓h, ↓k0, ↓k1, ↓apply_ite P, ite_self]
    | split
    | refine (foldl_keeps P _ ?_ _ _).trans ?_
    | intro _ _

theorem closeNow_keeps {β : Type} (P : State → β) (h : ∀ (s : State) x0 x1 x2 x3, P { s with eps := x0, mem := x1, prov := x2, ledger := x3 } = P s) :
    ∀ a0 a1 a2 a3 s, P (closeNow a0 a1 a2 a3 s) = P s := by
  have k0 := rollAt_keeps P (fun s y0 y1 y2 y3 => h s y0 y1 y2 y3)
  intro a0 a1 a2 a3 s
  unfold closeNow
  try dsimp only
  repeat' first
    | with_reducible rfl
    | simp only [↓h, ↓k0, ↓apply_ite P, ite_self]
    | split
    | refine (foldl_keeps P _ ?_ _ _).trans ?_
    | intro _ _

theorem rollEach_keeps {β : Type} (P : State → β) (h : ∀ (s : State) x0 x1 x2 x3, P { s with eps := x0, mem := x1, prov := x2, ledger := x3 } = P s) :
    ∀ a0 a1 s, P (rollEach a0 a1 s) = P s := by
  have k0 := rollAt_keeps P (fun s y0 y1 y2 y3 => h s y0 y1 y2 y3)
  intro a0 a1 s
  fun_induction rollEach a0 a1 s
  all_goals
    repeat' first
      | with_reducible rfl
      | simp +zetaDelta only [↓h, ↓k0, ↓apply_ite P, ite_self, *]
      | split
      | refine (foldl_keeps P _ ?_ _ _).trans ?_
      | intro _ _

theorem evalEp_keeps {β : Type} (P : State → β) (h : ∀ (s : State) x0 x1 x2 x3, P { s with eps := x0, mem := x1, prov := x2, ledger := x3 } = P s) :
    ∀ a0 a1 s, P (evalEp a0 a1 s) = P s := by
  have k0 := rollAt_keeps P (fun s y0 y1 y2 y3 => h s y0 y1 y2 y3)
  have k1 := rollEach_keeps P (fun s y0 y1 y2 y3 => h s y0 y1 y2 y3)
  intro a0 a1 s
  unfold evalEp
  try dsimp only
  repeat' first
    | with_reducible rfl
    | simp only [↓h, ↓k0, ↓k1, ↓apply_ite P, ite_self]
    | split
    | refine (foldl_keeps P _ ?_ _ _).trans ?_
    | intro _ _

theorem billTou_keeps {β : Type} (P : State → β) (h : ∀ (s : State) x0 x1 x2 x3, P { s with eps := x0, mem := x1, prov := x2, ledger := x3 } = P s) :
    ∀ a0 a1 a2 a3 a4 a5 s, P (billTou a0 a1 a2 a3 a4 a5 s) = P s := by
  have k0 := closeNow_keeps P (fun s y0 y1 y2 y3 => h s y0 y1 y2 y3)
  have k1 := updImg_keeps P (fun s y0 y1 y2 => h s y0 y1 s.prov y2)
  intro a0 a1 a2 a3 a4 a5 s
  fun_induction billTou a0 a1 a2 a3 a4 a5 s
  all_goals
    repeat' first
      | with_reducible rfl
      | simp +zetaDelta only [↓h, ↓k0, ↓k1, ↓apply_ite P, ite_self, *]
      | split
      | refine (foldl_keeps P _ ?_ _ _).trans ?_
      | intro _ _

theorem billAdj_keeps {β : Type} (P : State → β) (h : ∀ (s : State) x0 x1 x2 x3, P { s with eps := x0, mem := x1, prov := x2, ledger := x3 } = P s) :
    ∀ a0 a1 a2 a3 a4 s, P (billAdj a0 a1 a2 a3 a4 s) = P s := by
  have k0 := closeNow_keeps P (fun s y0 y1 y2 y3 => h s y0 y1 y2 y3)
  have k1 := updImg_keeps P (fun s y0 y1 y2 => h s y0 y1 s.prov y2)
  intro a0 a1 a2 a3 a4 s
  fun_induction billAdj a0 a1 a2 a3 a4 s
  all_goals
    repeat' first
      | with_reducible rfl
      | simp +zetaDelta only [↓h, ↓k0, ↓k1, ↓apply_ite P, ite_self, *]
      | split
      | refine (foldl_keeps P _ ?_ _ _).trans ?_
      | intro _ _

theorem billTouAll_keeps {β : Type} (P : State → β) (h : ∀ (s : State) x0 x1 x2 x3, P { s with eps := x0, mem := x1, prov := x2, ledger := x3 } = P s) :
    ∀ a0 a1 a2 a3 a4 s, P (billTouAll a0 a1 a2 a3 a4 s) = P s := by
  have k0 := billTou_keeps P (fun s y0 y1 y2 y3 => h s y0 y1 y2 y3)
  intro a0 a1 a2 a3 a4 s
  unfold billTouAll
  try dsimp only
  repeat' first
    | with_reducible rfl
    | simp only [↓h, ↓k0, ↓apply_ite P, ite_self]
    | split
    | refine (foldl_keeps P _ ?_ _ _).trans ?_
    | intro _ _

theorem billAdjAll_keeps {β : Type} (P : State → β) (h : ∀ (s : State) x0 x1 x2 x3, P { s with eps := x0, mem := x1, prov := x2, ledger := x3 } = P s) :
    ∀ a0 a1 a2 a3 s, P (billAdjAll a0 a1 a2 a3 s) = P s := by
  have k0 := billAdj_keeps P (fun s y0 y1 y2 y3 => h s y0 y1 y2 y3)
  intro a0 a1 a2 a3 s
  unfold billAdjAll
  try dsimp only
  repeat' first
    | with_reducible rfl
    | simp only [↓h, ↓k0, ↓apply_ite P, ite_self]
    | split
    | refine (foldl_keeps P _ ?_ _ _).trans ?_
    | intro _ _

theorem addDemand_keeps {β : Type} (P : State → β) (h : ∀ (s : State) x0 x1 x2 x3, P { s with eps := x0, mem := x1, prov := x2, ledger := x3 } = P s) :
    ∀ a0 a1 a2 s, P (addDemand a0 a1 a2 s) = P s := by
  have k0 := closeNow_keeps P (fun s y0 y1 y2 y3 => h s y0 y1 y2 y3)
  have k1 := updImg_keeps P (fun s y0 y1 y2 => h s y0 y1 s.prov y2)
  intro a0 a1 a2 s
  unfold addDemand
  try dsimp only
  repeat' first
    | with_reducible rfl
    | simp only [↓h, ↓k0, ↓k1, ↓apply_ite P, ite_self]
    | split
    | refine (foldl_keeps P _ ?_ _ _).trans ?_
    | intro _ _

theorem bookPortion_keeps {β : Type} (P : State → β) (h : ∀ (s : State) x0 x1 x2 x3, P { s with eps := x0, mem := x1, prov := x2, ledger := x3 } = P s) :
    ∀ hd b p (acc : State × List JBody) seg, P (bookPortion hd b p acc seg).1 = P acc.1 := by
  have k0 := billAdjAll_keeps P (fun s y0 y1 y2 y3 => h s y0 y1 y2 y3)
  have k1 := updImg_keeps P (fun s y0 y1 y2 => h s y0 y1 s.prov y2)
  have k2 := billTouAll_keeps P (fun s y0 y1 y2 y3 => h s y0 y1 y2 y3)
  have k3 := addDemand_keeps P (fun s y0 y1 y2 y3 => h s y0 y1 y2 y3)
  intro hd b p acc seg
  rcases acc with ⟨s, adj⟩
  unfold bookPortion
  dsimp only
  repeat' first
    | with_reducible rfl
    | simp only [↓h, ↓k0, ↓k1, ↓k2, ↓k3]
    | split

theorem book_keeps {β : Type} (P : State → β) (h : ∀ (s : State) x0 x1 x2 x3, P { s with eps := x0, mem := x1, prov := x2, ledger := x3 } = P s) :
    ∀ a0 a1 s, P (book a0 a1 s).1 = P s := by
  have k0 := billAdjAll_keeps P (fun s y0 y1 y2 y3 => h s y0 y1 y2 y3)
  have k1 := evalEp_keeps P (fun s y0 y1 y2 y3 => h s y0 y1 y2 y3)
  have k2 := updImg_keeps P (fun s y0 y1 y2 => h s y0 y1 s.prov y2)
  have k3 := bookPortion_keeps P (fun s y0 y1 y2 y3 => h s y0 y1 y2 y3)
  have kf : ∀ (hd : Nat) (b : Booking) (p : Nat) (l : List (Nat × Nat)) (acc : State × List JBody),
      P (l.foldl (bookPortion hd b p) acc).1 = P acc.1 := by
    intro hd b p l
    induction l with
    | nil => intro acc; rfl
    | cons x xs ih => intro acc; exact (ih _).trans (k3 hd b p acc x)
  intro hd b s
  unfold book
  generalize hx : evalEp hd b.at_ s = s1
  have e1 : P s1 = P s := hx ▸ k1 hd b.at_ s
  dsimp only
  generalize hy : (if 86400 < b.to_ - b.from_ then updImg hd (setFlag 3) s1 else s1) = s0
  have e0 : P s0 = P s := by
    rw [← hy]
    split
    · exact (k2 _ _ _).trans e1
    · exact e1
  split
  · exact e0
  · split
    · exact (k2 _ _ _).trans ((k0 _ _ _ _ _).trans e0)
    · split
      · exact (k0 _ _ _ _ _).trans e0
      · exact (kf _ _ _ _ (s0, [])).trans e0

end Sys2Proof.Machine
end

