-- ==== Sys2Proof/Laws/KeepLedger.lean ====
section
/-! SUPPORT. What the functions of Machine/Ledger.lean leave unchanged. -/

set_option linter.unusedSimpArgs false
set_option linter.unreachableTactic false
set_option linter.unusedTactic false

namespace Sys2Proof.Machine

theorem commitOne_keeps {β : Type} (P : State → β) (h : ∀ (s : State) x0 x1 x2 x3 x4 x5 x6, P { s with out := x0, evt := x1, jnv := x2, jnl := x3, prov := x4, roots := x5, life := x6 } = P s) :
    ∀ a0 s, P (commitOne a0 s) = P s := by
  have k0 := jnlGroup_keeps P (fun s y0 y1 y2 y3 y4 y5 y6 => h s y0 y1 y2 y3 y4 y5 y6)
  intro a0 s
  unfold commitOne
  try dsimp only
  repeat' first
    | with_reducible rfl
    | simp only [↓h, ↓k0, ↓apply_ite P, ite_self]
    | split
    | refine (foldl_keeps P _ ?_ _ _).trans ?_
    | intro _ _

theorem dropRetired_keeps {β : Type} (P : State → β) (h : ∀ (s : State) x0, P { s with ledger := x0 } = P s) :
    ∀ s, P (dropRetired s) = P s := by
  intro s
  unfold dropRetired
  try dsimp only
  repeat' first
    | with_reducible rfl
    | simp only [↓h, ↓apply_ite P, ite_self]
    | split
    | refine (foldl_keeps P _ ?_ _ _).trans ?_
    | intro _ _

theorem release_keeps {β : Type} (P : State → β) (h : ∀ (s : State) x0 x1 x2 x3 x4, P { s with out := x0, evt := x1, jnv := x2, jnl := x3, ledger := x4 } = P s) :
    ∀ s, P (release s) = P s := by
  have k0 := dropRetired_keeps P (fun s y0 => h s s.out s.evt s.jnv s.jnl y0)
  have k1 := jnlRelease_keeps P (fun s y0 y1 y2 y3 => h s y0 y1 y2 y3 s.ledger)
  intro s
  unfold release
  try dsimp only
  repeat' first
    | with_reducible rfl
    | simp only [↓h, ↓k0, ↓k1, ↓apply_ite P, ite_self]
    | split
    | refine (foldl_keeps P _ ?_ _ _).trans ?_
    | intro _ _

theorem pageConfirmed_keeps {β : Type} (P : State → β) (h : ∀ (s : State) x0, P { s with jnv := x0 } = P s) :
    ∀ a0 a1 s, P (pageConfirmed a0 a1 s) = P s := by
  intro a0 a1 s
  unfold pageConfirmed
  try dsimp only
  repeat' first
    | with_reducible rfl
    | simp only [↓h, ↓apply_ite P, ite_self]
    | split
    | refine (foldl_keeps P _ ?_ _ _).trans ?_
    | intro _ _

theorem updCal_keeps {β : Type} (P : State → β) (h : ∀ (s : State) x0, P { s with ledger := x0 } = P s) :
    ∀ a0 a1 s, P (updCal a0 a1 s) = P s := by
  intro a0 a1 s
  unfold updCal
  try dsimp only
  repeat' first
    | with_reducible rfl
    | simp only [↓h, ↓apply_ite P, ite_self]
    | split
    | refine (foldl_keeps P _ ?_ _ _).trans ?_
    | intro _ _

theorem updRoot_keeps {β : Type} (P : State → β) (h : ∀ (s : State) x0, P { s with roots := x0 } = P s) :
    ∀ a0 a1 s, P (updRoot a0 a1 s) = P s := by
  intro a0 a1 s
  unfold updRoot
  try dsimp only
  repeat' first
    | with_reducible rfl
    | simp only [↓h, ↓apply_ite P, ite_self]
    | split
    | refine (foldl_keeps P _ ?_ _ _).trans ?_
    | intro _ _

theorem applyClose_keeps {β : Type} (P : State → β) (h : ∀ (s : State) x0 x1 x2 x3, P { s with out := x0, evt := x1, roots := x2, ledger := x3 } = P s) :
    ∀ a0 a1 a2 a3 s, P (applyClose a0 a1 a2 a3 s) = P s := by
  have k0 := raise_keeps P (fun s y0 y1 => h s y0 y1 s.roots s.ledger)
  have k1 := updRoot_keeps P (fun s y0 => h s s.out s.evt y0 s.ledger)
  intro a0 a1 a2 a3 s
  unfold applyClose
  try dsimp only
  repeat' first
    | with_reducible rfl
    | simp only [↓h, ↓k0, ↓k1, ↓apply_ite P, ite_self]
    | split
    | refine (foldl_keeps P _ ?_ _ _).trans ?_
    | intro _ _

theorem applyActivate_keeps {β : Type} (P : State → β) (h : ∀ (s : State) x0 x1 x2 x3, P { s with out := x0, evt := x1, roots := x2, ledger := x3 } = P s) :
    ∀ a0 a1 a2 s, P (applyActivate a0 a1 a2 s) = P s := by
  have k0 := raise_keeps P (fun s y0 y1 => h s y0 y1 s.roots s.ledger)
  have k1 := updCal_keeps P (fun s y0 => h s s.out s.evt s.roots y0)
  have k2 := updRoot_keeps P (fun s y0 => h s s.out s.evt y0 s.ledger)
  intro a0 a1 a2 s
  unfold applyActivate
  try dsimp only
  repeat' first
    | with_reducible rfl
    | simp only [↓h, ↓k0, ↓k1, ↓k2, ↓apply_ite P, ite_self]
    | split
    | refine (foldl_keeps P _ ?_ _ _).trans ?_
    | intro _ _

theorem transApply_keeps {β : Type} (P : State → β) (h : ∀ (s : State) x0 x1 x2 x3, P { s with out := x0, evt := x1, roots := x2, ledger := x3 } = P s) :
    ∀ a0 a1 a2 a3 a4 s, P (transApply a0 a1 a2 a3 a4 s) = P s := by
  have k0 := applyActivate_keeps P (fun s y0 y1 y2 y3 => h s y0 y1 y2 y3)
  have k1 := applyClose_keeps P (fun s y0 y1 y2 y3 => h s y0 y1 y2 y3)
  have k2 := updRoot_keeps P (fun s y0 => h s s.out s.evt y0 s.ledger)
  intro a0 a1 a2 a3 a4 s
  unfold transApply
  try dsimp only
  repeat' first
    | with_reducible rfl
    | simp only [↓h, ↓k0, ↓k1, ↓k2, ↓apply_ite P, ite_self]
    | split
    | refine (foldl_keeps P _ ?_ _ _).trans ?_
    | intro _ _

theorem transition_keeps {β : Type} (P : State → β) (h : ∀ (s : State) x0 x1 x2 x3 x4 x5 x6 x7, P { s with out := x0, evt := x1, jnv := x2, jnl := x3, prov := x4, roots := x5, ledger := x6, life := x7 } = P s) :
    ∀ a0 a1 a2 a3 a4 s, P (transition a0 a1 a2 a3 a4 s) = P s := by
  have k0 := commitOne_keeps P (fun s y0 y1 y2 y3 y4 y5 y6 => h s y0 y1 y2 y3 y4 y5 s.ledger y6)
  have k1 := transApply_keeps P (fun s y0 y1 y2 y3 => h s y0 y1 s.jnv s.jnl s.prov y2 y3 s.life)
  intro a0 a1 a2 a3 a4 s
  unfold transition
  try dsimp only
  repeat' first
    | with_reducible rfl
    | simp only [↓h, ↓k0, ↓k1, ↓apply_ite P, ite_self]
    | split
    | refine (foldl_keeps P _ ?_ _ _).trans ?_
    | intro _ _

theorem applyPassed_keeps {β : Type} (P : State → β) (h : ∀ (s : State) x0 x1 x2 x3 x4 x5 x6 x7, P { s with out := x0, evt := x1, jnv := x2, jnl := x3, prov := x4, roots := x5, ledger := x6, life := x7 } = P s) :
    ∀ a0 a1 a2 a3 s, P (applyPassed a0 a1 a2 a3 s) = P s := by
  have k0 := transition_keeps P (fun s y0 y1 y2 y3 y4 y5 y6 y7 => h s y0 y1 y2 y3 y4 y5 y6 y7)
  intro a0 a1 a2 a3 s
  fun_induction applyPassed a0 a1 a2 a3 s
  all_goals
    repeat' first
      | with_reducible rfl
      | simp +zetaDelta only [↓h, ↓k0, ↓apply_ite P, ite_self, *]
      | split
      | refine (foldl_keeps P _ ?_ _ _).trans ?_
      | intro _ _

theorem catchUp_keeps {β : Type} (P : State → β) (h : ∀ (s : State) x0 x1 x2 x3 x4 x5 x6 x7, P { s with out := x0, evt := x1, jnv := x2, jnl := x3, prov := x4, roots := x5, ledger := x6, life := x7 } = P s) :
    ∀ a0 a1 a2 s, P (catchUp a0 a1 a2 s) = P s := by
  have k0 := applyPassed_keeps P (fun s y0 y1 y2 y3 y4 y5 y6 y7 => h s y0 y1 y2 y3 y4 y5 y6 y7)
  intro a0 a1 a2 s
  unfold catchUp
  try dsimp only
  repeat' first
    | with_reducible rfl
    | simp only [↓h, ↓k0, ↓apply_ite P, ite_self]
    | split
    | refine (foldl_keeps P _ ?_ _ _).trans ?_
    | intro _ _

theorem calTransition_keeps {β : Type} (P : State → β) (h : ∀ (s : State) x0 x1 x2 x3 x4 x5 x6 x7 x8 x9, P { s with now := x0, mono := x1, out := x2, evt := x3, jnv := x4, jnl := x5, prov := x6, roots := x7, ledger := x8, life := x9 } = P s) :
    ∀ a0 a1 s, P (calTransition a0 a1 s) = P s := by
  have k0 := advTo_keeps P (fun s y0 y1 => h s y0 y1 s.out s.evt s.jnv s.jnl s.prov s.roots s.ledger s.life)
  have k1 := transition_keeps P (fun s y0 y1 y2 y3 y4 y5 y6 y7 => h s s.now s.mono y0 y1 y2 y3 y4 y5 y6 y7)
  intro a0 a1 s
  unfold calTransition
  try dsimp only
  repeat' first
    | with_reducible rfl
    | simp only [↓h, ↓k0, ↓k1, ↓apply_ite P, ite_self]
    | split
    | refine (foldl_keeps P _ ?_ _ _).trans ?_
    | intro _ _

theorem sweepTime_keeps {β : Type} (P : State → β) (h : ∀ (s : State) x0 x1 x2, P { s with now := x0, mono := x1, ledger := x2 } = P s) :
    ∀ a0 s, P (sweepTime a0 s) = P s := by
  have k0 := advMono_keeps P (fun s y0 y1 => h s y0 y1 s.ledger)
  intro a0 s
  unfold sweepTime
  try dsimp only
  repeat' first
    | with_reducible rfl
    | simp only [↓h, ↓k0, ↓apply_ite P, ite_self]
    | split
    | refine (foldl_keeps P _ ?_ _ _).trans ?_
    | intro _ _

theorem ledgerSweep_keeps {β : Type} (P : State → β) (h : ∀ (s : State) x0 x1 x2 x3 x4 x5, P { s with now := x0, mono := x1, eps := x2, mem := x3, prov := x4, ledger := x5 } = P s) :
    ∀ a0 a1 s, P (ledgerSweep a0 a1 s) = P s := by
  have k0 := evalEp_keeps P (fun s y0 y1 y2 y3 => h s s.now s.mono y0 y1 y2 y3)
  have k1 := sweepTime_keeps P (fun s y0 y1 y2 => h s y0 y1 s.eps s.mem s.prov y2)
  intro a0 a1 s
  unfold ledgerSweep
  try dsimp only
  repeat' first
    | with_reducible rfl
    | simp only [↓h, ↓k0, ↓k1, ↓apply_ite P, ite_self]
    | split
    | refine (foldl_keeps P _ ?_ _ _).trans ?_
    | intro _ _

theorem bookDeferred_keeps {β : Type} (P : State → β) (h : ∀ (s : State) x0 x1 x2 x3 x4 x5 x6 x7 x8 x9, P { s with out := x0, evt := x1, eps := x2, mem := x3, jnv := x4, jnl := x5, prov := x6, roots := x7, ledger := x8, life := x9 } = P s) :
    ∀ a0 s, P (bookDeferred a0 s) = P s := by
  have k0 := book_keeps P (fun s y0 y1 y2 y3 => h s s.out s.evt y0 y1 s.jnv s.jnl y2 s.roots y3 s.life)
  have k1 := jnlGroup_keeps P (fun s y0 y1 y2 y3 y4 y5 y6 => h s y0 y1 s.eps s.mem y2 y3 y4 y5 s.ledger y6)
  have q0 := fun b0 b1 b2 t u (e : book b0 b1 b2 = (t, u)) => (congrArg (fun z => P z.1) e).symm.trans (k0 b0 b1 b2)
  intro a0 s
  unfold bookDeferred
  try dsimp only
  repeat' first
    | with_reducible rfl
    | simp only [↓h, ↓k0, ↓k1, ↓apply_ite P, ite_self]
    | split
    | refine (q0 _ _ _ _ _ (by assumption)).trans ?_
    | refine (foldl_keeps P _ ?_ _ _).trans ?_
    | intro _ _

theorem loseCal_keeps {β : Type} (P : State → β) (h : ∀ (s : State) x0, P { s with ledger := x0 } = P s) :
    ∀ a0 s, P (loseCal a0 s) = P s := by
  intro a0 s
  unfold loseCal
  try dsimp only
  repeat' first
    | with_reducible rfl
    | simp only [↓h, ↓apply_ite P, ite_self]
    | split
    | refine (foldl_keeps P _ ?_ _ _).trans ?_
    | intro _ _

theorem calBind_keeps {β : Type} (P : State → β) (h : ∀ (s : State) x0, P { s with roots := x0 } = P s) :
    ∀ a0 a1 a2 s, P (calBind a0 a1 a2 s) = P s := by
  have k0 := updRoot_keeps P (fun s y0 => h s y0)
  intro a0 a1 a2 s
  unfold calBind
  try dsimp only
  repeat' first
    | with_reducible rfl
    | simp only [↓h, ↓k0, ↓apply_ite P, ite_self]
    | split
    | refine (foldl_keeps P _ ?_ _ _).trans ?_
    | intro _ _

theorem calPlace_keeps {β : Type} (P : State → β) (h : ∀ (s : State) x0, P { s with ledger := x0 } = P s) :
    ∀ a0 a1 a2 a3 s, P (calPlace a0 a1 a2 a3 s) = P s := by
  have k0 := updCal_keeps P (fun s y0 => h s y0)
  intro a0 a1 a2 a3 s
  unfold calPlace
  try dsimp only
  repeat' first
    | with_reducible rfl
    | simp only [↓h, ↓k0, ↓apply_ite P, ite_self]
    | split
    | refine (foldl_keeps P _ ?_ _ _).trans ?_
    | intro _ _

theorem calLoad_keeps {β : Type} (P : State → β) (h : ∀ (s : State) x0 x1 x2 x3 x4 x5 x6 x7 x8 x9, P { s with out := x0, evt := x1, eps := x2, mem := x3, jnv := x4, jnl := x5, prov := x6, roots := x7, ledger := x8, life := x9 } = P s) :
    ∀ a0 s, P (calLoad a0 s).st = P s := by
  have k0 := bookDeferred_keeps P (fun s y0 y1 y2 y3 y4 y5 y6 y7 y8 y9 => h s y0 y1 y2 y3 y4 y5 y6 y7 y8 y9)
  have k1 := calBind_keeps P (fun s y0 => h s s.out s.evt s.eps s.mem s.jnv s.jnl s.prov y0 s.ledger s.life)
  have k2 := calPlace_keeps P (fun s y0 => h s s.out s.evt s.eps s.mem s.jnv s.jnl s.prov s.roots y0 s.life)
  have k3 := catchUp_keeps P (fun s y0 y1 y2 y3 y4 y5 y6 y7 => h s y0 y1 s.eps s.mem y2 y3 y4 y5 y6 y7)
  have k4 := commitOne_keeps P (fun s y0 y1 y2 y3 y4 y5 y6 => h s y0 y1 s.eps s.mem y2 y3 y4 y5 s.ledger y6)
  have k5 := refuse_keeps P
  have k6 := replyOk_keeps P
  intro a0 s
  unfold calLoad
  try dsimp only
  repeat' first
    | with_reducible rfl
    | simp only [↓h, ↓k0, ↓k1, ↓k2, ↓k3, ↓k4, ↓k5, ↓k6, ↓apply_ite P, ite_self, Reply.st_done, Reply.st_pend, Reply.st_twice, Reply.st_wait, replyOk_st, refuse_st]
    | split
    | refine (foldl_keeps P _ ?_ _ _).trans ?_
    | intro _ _

theorem calGet_keeps {β : Type} (P : State → β) :
    ∀ a0 s, P (calGet a0 s).st = P s := by
  have k0 := refuse_keeps P
  have k1 := replyOk_keeps P
  intro a0 s
  unfold calGet
  try dsimp only
  repeat' first
    | with_reducible rfl
    | simp only [↓k0, ↓k1, ↓apply_ite P, ite_self, Reply.st_done, Reply.st_pend, Reply.st_twice, Reply.st_wait, replyOk_st, refuse_st]
    | split
    | refine (foldl_keeps P _ ?_ _ _).trans ?_
    | intro _ _

theorem calChange_keeps {β : Type} (P : State → β) (h : ∀ (s : State) x0 x1 x2 x3 x4 x5 x6 x7 x8 x9, P { s with out := x0, evt := x1, eps := x2, mem := x3, jnv := x4, jnl := x5, prov := x6, roots := x7, ledger := x8, life := x9 } = P s) :
    ∀ a0 a1 s, P (calChange a0 a1 s) = P s := by
  have k0 := closeNow_keeps P (fun s y0 y1 y2 y3 => h s s.out s.evt y0 y1 s.jnv s.jnl y2 s.roots y3 s.life)
  have k1 := commitOne_keeps P (fun s y0 y1 y2 y3 y4 y5 y6 => h s y0 y1 s.eps s.mem y2 y3 y4 y5 s.ledger y6)
  have k2 := evalEp_keeps P (fun s y0 y1 y2 y3 => h s s.out s.evt y0 y1 s.jnv s.jnl y2 s.roots y3 s.life)
  have k3 := updImg_keeps P (fun s y0 y1 y2 => h s s.out s.evt y0 y1 s.jnv s.jnl s.prov s.roots y2 s.life)
  intro a0 a1 s
  unfold calChange
  try dsimp only
  repeat' first
    | with_reducible rfl
    | simp only [↓h, ↓k0, ↓k1, ↓k2, ↓k3, ↓apply_ite P, ite_self]
    | split
    | refine (foldl_keeps P _ ?_ _ _).trans ?_
    | intro _ _

theorem applyAssign_keeps {β : Type} (P : State → β) (h : ∀ (s : State) x0 x1 x2 x3 x4 x5 x6 x7 x8 x9, P { s with out := x0, evt := x1, eps := x2, mem := x3, jnv := x4, jnl := x5, prov := x6, roots := x7, ledger := x8, life := x9 } = P s) :
    ∀ a0 s, P (applyAssign a0 s) = P s := by
  have k0 := calChange_keeps P (fun s y0 y1 y2 y3 y4 y5 y6 y7 y8 y9 => h s y0 y1 y2 y3 y4 y5 y6 y7 y8 y9)
  have k1 := updEp_keeps P (fun s y0 y1 => h s s.out s.evt y0 y1 s.jnv s.jnl s.prov s.roots s.ledger s.life)
  intro a0 s
  unfold applyAssign
  try dsimp only
  repeat' first
    | with_reducible rfl
    | simp only [↓h, ↓k0, ↓k1, ↓apply_ite P, ite_self]
    | split
    | refine (foldl_keeps P _ ?_ _ _).trans ?_
    | intro _ _

theorem tariffAssign_keeps {β : Type} (P : State → β) (h : ∀ (s : State) x0 x1 x2 x3 x4 x5 x6 x7 x8 x9, P { s with out := x0, evt := x1, eps := x2, mem := x3, jnv := x4, jnl := x5, prov := x6, roots := x7, ledger := x8, life := x9 } = P s) :
    ∀ a0 s, P (tariffAssign a0 s).st = P s := by
  have k0 := applyAssign_keeps P (fun s y0 y1 y2 y3 y4 y5 y6 y7 y8 y9 => h s y0 y1 y2 y3 y4 y5 y6 y7 y8 y9)
  have k1 := refuse_keeps P
  have k2 := replyOk_keeps P
  intro a0 s
  unfold tariffAssign
  try dsimp only
  repeat' first
    | with_reducible rfl
    | simp only [↓h, ↓k0, ↓k1, ↓k2, ↓apply_ite P, ite_self, Reply.st_done, Reply.st_pend, Reply.st_twice, Reply.st_wait, replyOk_st, refuse_st]
    | split
    | refine (foldl_keeps P _ ?_ _ _).trans ?_
    | intro _ _

theorem periodCloseNow_keeps {β : Type} (P : State → β) (h : ∀ (s : State) x0 x1 x2 x3 x4 x5 x6 x7, P { s with out := x0, evt := x1, jnv := x2, jnl := x3, prov := x4, roots := x5, ledger := x6, life := x7 } = P s) :
    ∀ a0 s, P (periodCloseNow a0 s).st = P s := by
  have k0 := catchUp_keeps P (fun s y0 y1 y2 y3 y4 y5 y6 y7 => h s y0 y1 y2 y3 y4 y5 y6 y7)
  have k1 := refuse_keeps P
  have k2 := replyOk_keeps P
  have k3 := transition_keeps P (fun s y0 y1 y2 y3 y4 y5 y6 y7 => h s y0 y1 y2 y3 y4 y5 y6 y7)
  intro a0 s
  unfold periodCloseNow
  try dsimp only
  repeat' first
    | with_reducible rfl
    | simp only [↓h, ↓k0, ↓k1, ↓k2, ↓k3, ↓apply_ite P, ite_self, Reply.st_done, Reply.st_pend, Reply.st_twice, Reply.st_wait, replyOk_st, refuse_st]
    | split
    | refine (foldl_keeps P _ ?_ _ _).trans ?_
    | intro _ _

theorem sealPage_keeps {β : Type} (P : State → β) (h : ∀ (s : State) x0 x1 x2, P { s with jnv := x0, roots := x1, ledger := x2 } = P s) :
    ∀ a0 s, P (sealPage a0 s) = P s := by
  intro a0 s
  unfold sealPage
  try dsimp only
  repeat' first
    | with_reducible rfl
    | simp only [↓h, ↓apply_ite P, ite_self]
    | split
    | refine (foldl_keeps P _ ?_ _ _).trans ?_
    | intro _ _

theorem ledgerSeal_keeps {β : Type} (P : State → β) (h : ∀ (s : State) x0 x1 x2 x3 x4 x5 x6 x7, P { s with now := x0, mono := x1, eps := x2, mem := x3, jnv := x4, prov := x5, roots := x6, ledger := x7 } = P s) :
    ∀ s, P (ledgerSeal s) = P s := by
  have k0 := evalEp_keeps P (fun s y0 y1 y2 y3 => h s s.now s.mono y0 y1 s.jnv y2 s.roots y3)
  have k1 := roundAt_keeps P (fun s y0 y1 => h s y0 y1 s.eps s.mem s.jnv s.prov s.roots s.ledger)
  have k2 := sealPage_keeps P (fun s y0 y1 y2 => h s s.now s.mono s.eps s.mem y0 s.prov y1 y2)
  intro s
  unfold ledgerSeal
  try dsimp only
  repeat' first
    | with_reducible rfl
    | simp only [↓h, ↓k0, ↓k1, ↓k2, ↓apply_ite P, ite_self]
    | split
    | refine (foldl_keeps P _ ?_ _ _).trans ?_
    | intro _ _

theorem durabilityExpiry_keeps {β : Type} (P : State → β) (h : ∀ (s : State) x0 x1 x2 x3 x4 x5 x6, P { s with now := x0, mono := x1, out := x2, evt := x3, bkp := x4, ledger := x5, slate := x6 } = P s) :
    ∀ a0 s, P (durabilityExpiry a0 s) = P s := by
  have k0 := advMono_keeps P (fun s y0 y1 => h s y0 y1 s.out s.evt s.bkp s.ledger s.slate)
  have k1 := raise_keeps P (fun s y0 y1 => h s s.now s.mono y0 y1 s.bkp s.ledger s.slate)
  have k2 := record_keeps P (fun s y0 y1 y2 y3 => h s s.now s.mono y0 y1 y2 s.ledger y3)
  intro a0 s
  unfold durabilityExpiry
  try dsimp only
  repeat' first
    | with_reducible rfl
    | simp only [↓h, ↓k0, ↓k1, ↓k2, ↓apply_ite P, ite_self]
    | split
    | refine (foldl_keeps P _ ?_ _ _).trans ?_
    | intro _ _

theorem confirmPage_keeps {β : Type} (P : State → β) (h : ∀ (s : State) x0 x1 x2, P { s with jnv := x0, roots := x1, ledger := x2 } = P s) :
    ∀ a0 s, P (confirmPage a0 s) = P s := by
  have k0 := pageConfirmed_keeps P (fun s y0 => h s y0 s.roots s.ledger)
  intro a0 s
  unfold confirmPage
  try dsimp only
  repeat' first
    | with_reducible rfl
    | simp only [↓h, ↓k0, ↓apply_ite P, ite_self]
    | split
    | refine (foldl_keeps P _ ?_ _ _).trans ?_
    | intro _ _

theorem ledgerConfirm_keeps {β : Type} (P : State → β) (h : ∀ (s : State) x0 x1 x2 x3 x4 x5, P { s with out := x0, evt := x1, jnv := x2, jnl := x3, roots := x4, ledger := x5 } = P s) :
    ∀ a0 s, P (ledgerConfirm a0 s).st = P s := by
  have k0 := confirmPage_keeps P (fun s y0 y1 y2 => h s s.out s.evt y0 s.jnl y1 y2)
  have k1 := refuse_keeps P
  have k2 := release_keeps P (fun s y0 y1 y2 y3 y4 => h s y0 y1 y2 y3 s.roots y4)
  have k3 := replyOk_keeps P
  intro a0 s
  unfold ledgerConfirm
  try dsimp only
  repeat' first
    | with_reducible rfl
    | simp only [↓h, ↓k0, ↓k1, ↓k2, ↓k3, ↓apply_ite P, ite_self, Reply.st_done, Reply.st_pend, Reply.st_twice, Reply.st_wait, replyOk_st, refuse_st]
    | split
    | refine (foldl_keeps P _ ?_ _ _).trans ?_
    | intro _ _

theorem ledgerExportStart_keeps {β : Type} (P : State → β) (h : ∀ (s : State) x0 x1, P { s with chans := x0, ledger := x1 } = P s) :
    ∀ a0 s, P (ledgerExportStart a0 s).st = P s := by
  have k0 := bindChan_keeps P (fun s y0 => h s y0 s.ledger)
  have k1 := refuse_keeps P
  have k2 := replyOk_keeps P
  intro a0 s
  unfold ledgerExportStart
  try dsimp only
  repeat' first
    | with_reducible rfl
    | simp only [↓h, ↓k0, ↓k1, ↓k2, ↓apply_ite P, ite_self, Reply.st_done, Reply.st_pend, Reply.st_twice, Reply.st_wait, replyOk_st, refuse_st]
    | split
    | refine (foldl_keeps P _ ?_ _ _).trans ?_
    | intro _ _

theorem replayFcnt_keeps {β : Type} (P : State → β) (h : ∀ (s : State) x0 x1 x2, P { s with eps := x0, mem := x1, ledger := x2 } = P s) :
    ∀ a0 a1 s, P (replayFcnt a0 a1 s) = P s := by
  have k0 := updImg_keeps P (fun s y0 y1 y2 => h s y0 y1 y2)
  intro a0 a1 s
  unfold replayFcnt
  try dsimp only
  repeat' first
    | with_reducible rfl
    | simp only [↓h, ↓k0, ↓apply_ite P, ite_self]
    | split
    | refine (foldl_keeps P _ ?_ _ _).trans ?_
    | intro _ _

theorem replayEntry_keeps {β : Type} (P : State → β) (h : ∀ (s : State) x0 x1 x2 x3, P { s with eps := x0, mem := x1, prov := x2, ledger := x3 } = P s) :
    ∀ a0 a1 a2 a3 s, P (replayEntry a0 a1 a2 a3 s) = P s := by
  have k0 := book_keeps P (fun s y0 y1 y2 y3 => h s y0 y1 y2 y3)
  have k1 := closeNow_keeps P (fun s y0 y1 y2 y3 => h s y0 y1 y2 y3)
  have k2 := evalEp_keeps P (fun s y0 y1 y2 y3 => h s y0 y1 y2 y3)
  have k3 := replayFcnt_keeps P (fun s y0 y1 y2 => h s y0 y1 s.prov y2)
  have k4 := updImg_keeps P (fun s y0 y1 y2 => h s y0 y1 s.prov y2)
  have q0 := fun b0 b1 b2 t u (e : book b0 b1 b2 = (t, u)) => (congrArg (fun z => P z.1) e).symm.trans (k0 b0 b1 b2)
  intro a0 a1 a2 a3 s
  unfold replayEntry
  try dsimp only
  repeat' first
    | with_reducible rfl
    | simp only [↓h, ↓k0, ↓k1, ↓k2, ↓k3, ↓k4, ↓apply_ite P, ite_self]
    | split
    | refine (q0 _ _ _ _ _ (by assumption)).trans ?_
    | refine (foldl_keeps P _ ?_ _ _).trans ?_
    | intro _ _

theorem replayFrom_keeps {β : Type} (P : State → β) (h : ∀ (s : State) x0 x1 x2 x3, P { s with eps := x0, mem := x1, prov := x2, ledger := x3 } = P s) :
    ∀ a0 a1 a2 a3 a4 s, P (replayFrom a0 a1 a2 a3 a4 s) = P s := by
  have k0 := replayEntry_keeps P (fun s y0 y1 y2 y3 => h s y0 y1 y2 y3)
  intro a0 a1 a2 a3 a4 s
  fun_induction replayFrom a0 a1 a2 a3 a4 s
  all_goals
    repeat' first
      | with_reducible rfl
      | simp +zetaDelta only [↓h, ↓k0, ↓apply_ite P, ite_self, *]
      | split
      | refine (foldl_keeps P _ ?_ _ _).trans ?_
      | intro _ _

theorem takeImage_keeps {β : Type} (P : State → β) (h : ∀ (s : State) x0 x1 x2 x3 x4 x5 x6 x7 x8 x9, P { s with out := x0, evt := x1, eps := x2, mem := x3, jnv := x4, jnl := x5, prov := x6, roots := x7, ledger := x8, life := x9 } = P s) :
    ∀ a0 a1 a2 s, P (takeImage a0 a1 a2 s) = P s := by
  have k0 := calChange_keeps P (fun s y0 y1 y2 y3 y4 y5 y6 y7 y8 y9 => h s y0 y1 y2 y3 y4 y5 y6 y7 y8 y9)
  have k1 := evalEp_keeps P (fun s y0 y1 y2 y3 => h s s.out s.evt y0 y1 s.jnv s.jnl y2 s.roots y3 s.life)
  have k2 := replayFrom_keeps P (fun s y0 y1 y2 y3 => h s s.out s.evt y0 y1 s.jnv s.jnl y2 s.roots y3 s.life)
  have k3 := updImg_keeps P (fun s y0 y1 y2 => h s s.out s.evt y0 y1 s.jnv s.jnl s.prov s.roots y2 s.life)
  intro a0 a1 a2 s
  unfold takeImage
  try dsimp only
  repeat' first
    | with_reducible rfl
    | simp only [↓h, ↓k0, ↓k1, ↓k2, ↓k3, ↓apply_ite P, ite_self]
    | split
    | refine (foldl_keeps P _ ?_ _ _).trans ?_
    | intro _ _

theorem leaveRestoring_keeps {β : Type} (P : State → β) (h : ∀ (s : State) x0 x1 x2, P { s with dir := x0, eps := x1, mem := x2 } = P s) :
    ∀ a0 s, P (leaveRestoring a0 s) = P s := by
  have k0 := setAdm_keeps P (fun s y0 y1 y2 => h s y0 y1 y2)
  intro a0 s
  unfold leaveRestoring
  try dsimp only
  repeat' first
    | with_reducible rfl
    | simp only [↓h, ↓k0, ↓apply_ite P, ite_self]
    | split
    | refine (foldl_keeps P _ ?_ _ _).trans ?_
    | intro _ _

theorem restoreMismatch_keeps {β : Type} (P : State → β) (h : ∀ (s : State) x0 x1 x2 x3, P { s with out := x0, evt := x1, bkp := x2, slate := x3 } = P s) :
    ∀ a0 s, P (restoreMismatch a0 s) = P s := by
  have k0 := raise_keeps P (fun s y0 y1 => h s y0 y1 s.bkp s.slate)
  have k1 := record_keeps P (fun s y0 y1 y2 y3 => h s y0 y1 y2 y3)
  intro a0 s
  unfold restoreMismatch
  try dsimp only
  repeat' first
    | with_reducible rfl
    | simp only [↓h, ↓k0, ↓k1, ↓apply_ite P, ite_self]
    | split
    | refine (foldl_keeps P _ ?_ _ _).trans ?_
    | intro _ _

theorem restoreSlot_keeps {β : Type} (P : State → β) (h : ∀ (s : State) x0 x1 x2 x3 x4 x5 x6 x7 x8 x9 x10 x11 x12, P { s with out := x0, evt := x1, bkp := x2, dir := x3, eps := x4, mem := x5, jnv := x6, jnl := x7, prov := x8, roots := x9, ledger := x10, slate := x11, life := x12 } = P s) :
    ∀ a0 a1 a2 s, P (restoreSlot a0 a1 a2 s) = P s := by
  have k0 := commitOne_keeps P (fun s y0 y1 y2 y3 y4 y5 y6 => h s y0 y1 s.bkp s.dir s.eps s.mem y2 y3 y4 y5 s.ledger s.slate y6)
  have k1 := leaveRestoring_keeps P (fun s y0 y1 y2 => h s s.out s.evt s.bkp y0 y1 y2 s.jnv s.jnl s.prov s.roots s.ledger s.slate s.life)
  have k2 := noteEp_keeps P (fun s y0 => h s s.out s.evt s.bkp s.dir y0 s.mem s.jnv s.jnl s.prov s.roots s.ledger s.slate s.life)
  have k3 := restoreMismatch_keeps P (fun s y0 y1 y2 y3 => h s y0 y1 y2 s.dir s.eps s.mem s.jnv s.jnl s.prov s.roots s.ledger y3 s.life)
  have k4 := takeImage_keeps P (fun s y0 y1 y2 y3 y4 y5 y6 y7 y8 y9 => h s y0 y1 s.bkp s.dir y2 y3 y4 y5 y6 y7 y8 s.slate y9)
  intro a0 a1 a2 s
  unfold restoreSlot
  try dsimp only
  repeat' first
    | with_reducible rfl
    | simp only [↓h, ↓k0, ↓k1, ↓k2, ↓k3, ↓k4, ↓apply_ite P, ite_self]
    | split
    | refine (foldl_keeps P _ ?_ _ _).trans ?_
    | intro _ _

theorem restoreUnbind_keeps {β : Type} (P : State → β) (h : ∀ (s : State) x0 x1, P { s with chans := x0, ledger := x1 } = P s) :
    ∀ s, P (restoreUnbind s) = P s := by
  have k0 := unbindChan_keeps P (fun s y0 => h s y0 s.ledger)
  intro s
  unfold restoreUnbind
  try dsimp only
  repeat' first
    | with_reducible rfl
    | simp only [↓h, ↓k0, ↓apply_ite P, ite_self]
    | split
    | refine (foldl_keeps P _ ?_ _ _).trans ?_
    | intro _ _

theorem restoreVerdict_keeps {β : Type} (P : State → β) (h : ∀ (s : State) x0 x1 x2 x3, P { s with out := x0, evt := x1, bkp := x2, slate := x3 } = P s) :
    ∀ s, P (restoreVerdict s) = P s := by
  have k0 := raise_keeps P (fun s y0 y1 => h s y0 y1 s.bkp s.slate)
  have k1 := record_keeps P (fun s y0 y1 y2 y3 => h s y0 y1 y2 y3)
  intro s
  unfold restoreVerdict
  try dsimp only
  repeat' first
    | with_reducible rfl
    | simp only [↓h, ↓k0, ↓k1, ↓apply_ite P, ite_self]
    | split
    | refine (foldl_keeps P _ ?_ _ _).trans ?_
    | intro _ _

theorem restoreDone_keeps {β : Type} (P : State → β) (h : ∀ (s : State) x0 x1 x2 x3 x4 x5 x6, P { s with out := x0, evt := x1, boot := x2, bkp := x3, chans := x4, ledger := x5, slate := x6 } = P s) :
    ∀ s, P (restoreDone s) = P s := by
  have k0 := raise_keeps P (fun s y0 y1 => h s y0 y1 s.boot s.bkp s.chans s.ledger s.slate)
  have k1 := restoreUnbind_keeps P (fun s y0 y1 => h s s.out s.evt s.boot s.bkp y0 y1 s.slate)
  have k2 := restoreVerdict_keeps P (fun s y0 y1 y2 y3 => h s y0 y1 s.boot y2 s.chans s.ledger y3)
  intro s
  unfold restoreDone
  try dsimp only
  repeat' first
    | with_reducible rfl
    | simp only [↓h, ↓k0, ↓k1, ↓k2, ↓apply_ite P, ite_self]
    | split
    | refine (foldl_keeps P _ ?_ _ _).trans ?_
    | intro _ _

theorem checkRestoreDone_keeps {β : Type} (P : State → β) (h : ∀ (s : State) x0 x1 x2 x3 x4 x5 x6, P { s with out := x0, evt := x1, boot := x2, bkp := x3, chans := x4, ledger := x5, slate := x6 } = P s) :
    ∀ s, P (checkRestoreDone s) = P s := by
  have k0 := restoreDone_keeps P (fun s y0 y1 y2 y3 y4 y5 y6 => h s y0 y1 y2 y3 y4 y5 y6)
  intro s
  unfold checkRestoreDone
  try dsimp only
  repeat' first
    | with_reducible rfl
    | simp only [↓h, ↓k0, ↓apply_ite P, ite_self]
    | split
    | refine (foldl_keeps P _ ?_ _ _).trans ?_
    | intro _ _

theorem restoreUnconfirmed_keeps {β : Type} (P : State → β) (h : ∀ (s : State) x0 x1 x2 x3 x4 x5 x6 x7 x8 x9 x10 x11 x12, P { s with out := x0, evt := x1, bkp := x2, dir := x3, eps := x4, mem := x5, jnv := x6, jnl := x7, prov := x8, roots := x9, ledger := x10, slate := x11, life := x12 } = P s) :
    ∀ s, P (restoreUnconfirmed s) = P s := by
  have k0 := restoreSlot_keeps P (fun s y0 y1 y2 y3 y4 y5 y6 y7 y8 y9 y10 y11 y12 => h s y0 y1 y2 y3 y4 y5 y6 y7 y8 y9 y10 y11 y12)
  intro s
  unfold restoreUnconfirmed
  try dsimp only
  repeat' first
    | with_reducible rfl
    | simp only [↓h, ↓k0, ↓apply_ite P, ite_self]
    | split
    | refine (foldl_keeps P _ ?_ _ _).trans ?_
    | intro _ _

theorem ledgerRestoreStart_keeps {β : Type} (P : State → β) (h : ∀ (s : State) x0 x1 x2 x3 x4 x5 x6 x7 x8 x9 x10 x11 x12 x13 x14, P { s with out := x0, evt := x1, boot := x2, bkp := x3, dir := x4, eps := x5, mem := x6, chans := x7, jnv := x8, jnl := x9, prov := x10, roots := x11, ledger := x12, slate := x13, life := x14 } = P s) :
    ∀ a0 s, P (ledgerRestoreStart a0 s).st = P s := by
  have k0 := bindChan_keeps P (fun s y0 => h s s.out s.evt s.boot s.bkp s.dir s.eps s.mem y0 s.jnv s.jnl s.prov s.roots s.ledger s.slate s.life)
  have k1 := checkRestoreDone_keeps P (fun s y0 y1 y2 y3 y4 y5 y6 => h s y0 y1 y2 y3 s.dir s.eps s.mem y4 s.jnv s.jnl s.prov s.roots y5 y6 s.life)
  have k2 := refuse_keeps P
  have k3 := replyOk_keeps P
  have k4 := restoreUnconfirmed_keeps P (fun s y0 y1 y2 y3 y4 y5 y6 y7 y8 y9 y10 y11 y12 => h s y0 y1 s.boot y2 y3 y4 y5 s.chans y6 y7 y8 y9 y10 y11 y12)
  intro a0 s
  unfold ledgerRestoreStart
  try dsimp only
  repeat' first
    | with_reducible rfl
    | simp only [↓h, ↓k0, ↓k1, ↓k2, ↓k3, ↓k4, ↓apply_ite P, ite_self, Reply.st_done, Reply.st_pend, Reply.st_twice, Reply.st_wait, replyOk_st, refuse_st]
    | split
    | refine (foldl_keeps P _ ?_ _ _).trans ?_
    | intro _ _

theorem rejectPage_keeps {β : Type} (P : State → β) (h : ∀ (s : State) x0 x1 x2 x3 x4, P { s with out := x0, evt := x1, bkp := x2, ledger := x3, slate := x4 } = P s) :
    ∀ a0 s, P (rejectPage a0 s) = P s := by
  have k0 := raise_keeps P (fun s y0 y1 => h s y0 y1 s.bkp s.ledger s.slate)
  have k1 := record_keeps P (fun s y0 y1 y2 y3 => h s y0 y1 y2 s.ledger y3)
  intro a0 s
  unfold rejectPage
  try dsimp only
  repeat' first
    | with_reducible rfl
    | simp only [↓h, ↓k0, ↓k1, ↓apply_ite P, ite_self]
    | split
    | refine (foldl_keeps P _ ?_ _ _).trans ?_
    | intro _ _

theorem restorePage_keeps {β : Type} (P : State → β) (h : ∀ (s : State) x0 x1 x2 x3 x4 x5 x6 x7 x8 x9 x10 x11 x12 x13 x14, P { s with out := x0, evt := x1, boot := x2, bkp := x3, dir := x4, eps := x5, mem := x6, chans := x7, jnv := x8, jnl := x9, prov := x10, roots := x11, ledger := x12, slate := x13, life := x14 } = P s) :
    ∀ a0 s, P (restorePage a0 s) = P s := by
  have k0 := checkRestoreDone_keeps P (fun s y0 y1 y2 y3 y4 y5 y6 => h s y0 y1 y2 y3 s.dir s.eps s.mem y4 s.jnv s.jnl s.prov s.roots y5 y6 s.life)
  have k1 := rejectPage_keeps P (fun s y0 y1 y2 y3 y4 => h s y0 y1 s.boot y2 s.dir s.eps s.mem s.chans s.jnv s.jnl s.prov s.roots y3 y4 s.life)
  have k2 := restoreSlot_keeps P (fun s y0 y1 y2 y3 y4 y5 y6 y7 y8 y9 y10 y11 y12 => h s y0 y1 s.boot y2 y3 y4 y5 s.chans y6 y7 y8 y9 y10 y11 y12)
  intro a0 s
  unfold restorePage
  try dsimp only
  repeat' first
    | with_reducible rfl
    | simp only [↓h, ↓k0, ↓k1, ↓k2, ↓apply_ite P, ite_self]
    | split
    | refine (foldl_keeps P _ ?_ _ _).trans ?_
    | intro _ _

theorem lostRestart_keeps {β : Type} (P : State → β) (h : ∀ (s : State) x0 x1 x2 x3 x4, P { s with dir := x0, eps := x1, mem := x2, prov := x3, ledger := x4 } = P s) :
    ∀ a0 a1 s, P (lostRestart a0 a1 s) = P s := by
  have k0 := closeNow_keeps P (fun s y0 y1 y2 y3 => h s s.dir y0 y1 y2 y3)
  have k1 := leaveRestoring_keeps P (fun s y0 y1 y2 => h s y0 y1 y2 s.prov s.ledger)
  have k2 := noteEp_keeps P (fun s y0 => h s s.dir y0 s.mem s.prov s.ledger)
  have k3 := updImg_keeps P (fun s y0 y1 y2 => h s s.dir y0 y1 s.prov y2)
  intro a0 a1 s
  unfold lostRestart
  try dsimp only
  repeat' first
    | with_reducible rfl
    | simp only [↓h, ↓k0, ↓k1, ↓k2, ↓k3, ↓apply_ite P, ite_self]
    | split
    | refine (foldl_keeps P _ ?_ _ _).trans ?_
    | intro _ _

theorem ledgerPageLost_keeps {β : Type} (P : State → β) (h : ∀ (s : State) x0 x1 x2 x3 x4 x5 x6 x7 x8 x9 x10 x11 x12 x13 x14, P { s with out := x0, evt := x1, boot := x2, bkp := x3, dir := x4, eps := x5, mem := x6, chans := x7, jnv := x8, jnl := x9, prov := x10, roots := x11, ledger := x12, slate := x13, life := x14 } = P s) :
    ∀ a0 s, P (ledgerPageLost a0 s).st = P s := by
  have k0 := checkRestoreDone_keeps P (fun s y0 y1 y2 y3 y4 y5 y6 => h s y0 y1 y2 y3 s.dir s.eps s.mem y4 s.jnv s.jnl s.prov s.roots y5 y6 s.life)
  have k1 := commitOne_keeps P (fun s y0 y1 y2 y3 y4 y5 y6 => h s y0 y1 s.boot s.bkp s.dir s.eps s.mem s.chans y2 y3 y4 y5 s.ledger s.slate y6)
  have k2 := dirtyPage_keeps P (fun s y0 => h s s.out s.evt s.boot s.bkp s.dir s.eps s.mem s.chans s.jnv s.jnl s.prov s.roots y0 s.slate s.life)
  have k3 := lostRestart_keeps P (fun s y0 y1 y2 y3 y4 => h s s.out s.evt s.boot s.bkp y0 y1 y2 s.chans s.jnv s.jnl y3 s.roots y4 s.slate s.life)
  have k4 := record_keeps P (fun s y0 y1 y2 y3 => h s y0 y1 s.boot y2 s.dir s.eps s.mem s.chans s.jnv s.jnl s.prov s.roots s.ledger y3 s.life)
  have k5 := refuse_keeps P
  have k6 := replyOk_keeps P
  intro a0 s
  unfold ledgerPageLost
  try dsimp only
  repeat' first
    | with_reducible rfl
    | simp only [↓h, ↓k0, ↓k1, ↓k2, ↓k3, ↓k4, ↓k5, ↓k6, ↓apply_ite P, ite_self, Reply.st_done, Reply.st_pend, Reply.st_twice, Reply.st_wait, replyOk_st, refuse_st]
    | split
    | refine (foldl_keeps P _ ?_ _ _).trans ?_
    | intro _ _

theorem pageAgain_keeps {β : Type} (P : State → β) (h : ∀ (s : State) x0 x1 x2, P { s with out := x0, evt := x1, ledger := x2 } = P s) :
    ∀ a0 s, P (pageAgain a0 s) = P s := by
  have k0 := raise_keeps P (fun s y0 y1 => h s y0 y1 s.ledger)
  intro a0 s
  unfold pageAgain
  try dsimp only
  repeat' first
    | with_reducible rfl
    | simp only [↓h, ↓k0, ↓apply_ite P, ite_self]
    | split
    | refine (foldl_keeps P _ ?_ _ _).trans ?_
    | intro _ _

theorem ledgerPendingGet_keeps {β : Type} (P : State → β) :
    ∀ a0 s, P (ledgerPendingGet a0 s).st = P s := by
  have k0 := refuse_keeps P
  have k1 := replyOk_keeps P
  intro a0 s
  unfold ledgerPendingGet
  try dsimp only
  repeat' first
    | with_reducible rfl
    | simp only [↓k0, ↓k1, ↓apply_ite P, ite_self, Reply.st_done, Reply.st_pend, Reply.st_twice, Reply.st_wait, replyOk_st, refuse_st]
    | split
    | refine (foldl_keeps P _ ?_ _ _).trans ?_
    | intro _ _

theorem ledgerGet_keeps {β : Type} (P : State → β) (h : ∀ (s : State) x0, P { s with mem := x0 } = P s) :
    ∀ a0 s, P (ledgerGet a0 s).st = P s := by
  have k0 := refuse_keeps P
  have k1 := replyOk_keeps P
  have k2 := touch_keeps P (fun s y0 => h s y0)
  intro a0 s
  unfold ledgerGet
  try dsimp only
  repeat' first
    | with_reducible rfl
    | simp only [↓h, ↓k0, ↓k1, ↓k2, ↓apply_ite P, ite_self, Reply.st_done, Reply.st_pend, Reply.st_twice, Reply.st_wait, replyOk_st, refuse_st]
    | split
    | refine (foldl_keeps P _ ?_ _ _).trans ?_
    | intro _ _

theorem stmtTimeout_keeps {β : Type} (P : State → β) (h : ∀ (s : State) x0 x1 x2 x3, P { s with now := x0, mono := x1, prov := x2, ledger := x3 } = P s) :
    ∀ s, P (stmtTimeout s) = P s := by
  have k0 := advTo_keeps P (fun s y0 y1 => h s y0 y1 s.prov s.ledger)
  have k1 := closeStmt_keeps P (fun s y0 y1 => h s s.now s.mono y0 y1)
  intro s
  unfold stmtTimeout
  try dsimp only
  repeat' first
    | with_reducible rfl
    | simp only [↓h, ↓k0, ↓k1, ↓apply_ite P, ite_self]
    | split
    | refine (foldl_keeps P _ ?_ _ _).trans ?_
    | intro _ _

theorem statementStart_keeps {β : Type} (P : State → β) (h : ∀ (s : State) x0 x1, P { s with chans := x0, ledger := x1 } = P s) :
    ∀ a0 s, P (statementStart a0 s).st = P s := by
  have k0 := bindChan_keeps P (fun s y0 => h s y0 s.ledger)
  have k1 := refuse_keeps P
  have k2 := replyOk_keeps P
  intro a0 s
  unfold statementStart
  try dsimp only
  repeat' first
    | with_reducible rfl
    | simp only [↓h, ↓k0, ↓k1, ↓k2, ↓apply_ite P, ite_self, Reply.st_done, Reply.st_pend, Reply.st_twice, Reply.st_wait, replyOk_st, refuse_st]
    | split
    | refine (foldl_keeps P _ ?_ _ _).trans ?_
    | intro _ _

theorem statementConfirm_keeps {β : Type} (P : State → β) (h : ∀ (s : State) x0 x1 x2, P { s with chans := x0, roots := x1, ledger := x2 } = P s) :
    ∀ a0 s, P (statementConfirm a0 s).st = P s := by
  have k0 := refuse_keeps P
  have k1 := replyOk_keeps P
  have k2 := streamAnew_keeps P (fun s y0 => h s y0 s.roots s.ledger)
  intro a0 s
  unfold statementConfirm
  try dsimp only
  repeat' first
    | with_reducible rfl
    | simp only [↓h, ↓k0, ↓k1, ↓k2, ↓apply_ite P, ite_self, Reply.st_done, Reply.st_pend, Reply.st_twice, Reply.st_wait, replyOk_st, refuse_st]
    | split
    | refine (foldl_keeps P _ ?_ _ _).trans ?_
    | intro _ _

theorem statementRewind_keeps {β : Type} (P : State → β) (h : ∀ (s : State) x0 x1, P { s with chans := x0, ledger := x1 } = P s) :
    ∀ a0 s, P (statementRewind a0 s).st = P s := by
  have k0 := refuse_keeps P
  have k1 := replyOk_keeps P
  have k2 := streamAnew_keeps P (fun s y0 => h s y0 s.ledger)
  intro a0 s
  unfold statementRewind
  try dsimp only
  repeat' first
    | with_reducible rfl
    | simp only [↓h, ↓k0, ↓k1, ↓k2, ↓apply_ite P, ite_self, Reply.st_done, Reply.st_pend, Reply.st_twice, Reply.st_wait, replyOk_st, refuse_st]
    | split
    | refine (foldl_keeps P _ ?_ _ _).trans ?_
    | intro _ _

theorem displayTry_keeps {β : Type} (P : State → β) (h : ∀ (s : State) x0 x1, P { s with out := x0, ledger := x1 } = P s) :
    ∀ a0 s, P (displayTry a0 s) = P s := by
  intro a0 s
  unfold displayTry
  try dsimp only
  repeat' first
    | with_reducible rfl
    | simp only [↓h, ↓apply_ite P, ite_self]
    | split
    | refine (foldl_keeps P _ ?_ _ _).trans ?_
    | intro _ _

theorem displayScreen_keeps {β : Type} (P : State → β) (h : ∀ (s : State) x0 x1 x2 x3, P { s with now := x0, mono := x1, out := x2, ledger := x3 } = P s) :
    ∀ a0 s, P (displayScreen a0 s) = P s := by
  have k0 := displayTry_keeps P (fun s y0 y1 => h s s.now s.mono y0 y1)
  have k1 := roundAt_keeps P (fun s y0 y1 => h s y0 y1 s.out s.ledger)
  intro a0 s
  unfold displayScreen
  try dsimp only
  repeat' first
    | with_reducible rfl
    | simp only [↓h, ↓k0, ↓k1, ↓apply_ite P, ite_self]
    | split
    | refine (foldl_keeps P _ ?_ _ _).trans ?_
    | intro _ _

theorem displayRetry_keeps {β : Type} (P : State → β) (h : ∀ (s : State) x0 x1 x2 x3, P { s with now := x0, mono := x1, out := x2, ledger := x3 } = P s) :
    ∀ a0 s, P (displayRetry a0 s) = P s := by
  have k0 := advMono_keeps P (fun s y0 y1 => h s y0 y1 s.out s.ledger)
  have k1 := displayTry_keeps P (fun s y0 y1 => h s s.now s.mono y0 y1)
  intro a0 s
  unfold displayRetry
  try dsimp only
  repeat' first
    | with_reducible rfl
    | simp only [↓h, ↓k0, ↓k1, ↓apply_ite P, ite_self]
    | split
    | refine (foldl_keeps P _ ?_ _ _).trans ?_
    | intro _ _

theorem displayShow_keeps {β : Type} (P : State → β) (h : ∀ (s : State) x0, P { s with ledger := x0 } = P s) :
    ∀ a0 s, P (displayShow a0 s).st = P s := by
  have k0 := refuse_keeps P
  have k1 := replyOk_keeps P
  intro a0 s
  unfold displayShow
  try dsimp only
  repeat' first
    | with_reducible rfl
    | simp only [↓h, ↓k0, ↓k1, ↓apply_ite P, ite_self, Reply.st_done, Reply.st_pend, Reply.st_twice, Reply.st_wait, replyOk_st, refuse_st]
    | split
    | refine (foldl_keeps P _ ?_ _ _).trans ?_
    | intro _ _

theorem pwrTransitions_keeps {β : Type} (P : State → β) (h : ∀ (s : State) x0 x1 x2 x3, P { s with out := x0, evt := x1, roots := x2, ledger := x3 } = P s) :
    ∀ k l (acc : List JEntry × State), P (pwrTransitions k l acc).2 = P acc.2 := by
  have k0 := transApply_keeps P (fun s y0 y1 y2 y3 => h s y0 y1 y2 y3)
  intro k l
  induction l with
  | nil => intro acc; rfl
  | cons x xs ih =>
    intro acc
    rcases acc with ⟨es, s⟩
    exact (ih _).trans (k0 _ _ _ _ _ _)

theorem pwrCommit_keeps {β : Type} (P : State → β) (h : ∀ (s : State) x0 x1 x2 x3 x4 x5 x6 x7, P { s with out := x0, evt := x1, jnv := x2, jnl := x3, prov := x4, roots := x5, ledger := x6, life := x7 } = P s) :
    ∀ s, P (pwrCommit s) = P s := by
  have k0 := jnlGroup_keeps P (fun s y0 y1 y2 y3 y4 y5 y6 => h s y0 y1 y2 y3 y4 y5 s.ledger y6)
  have k1 := pwrTransitions_keeps P (fun s y0 y1 y2 y3 => h s y0 y1 s.jnv s.jnl s.prov y2 y3 s.life)
  intro s
  have kf : ∀ (g : State → Nat → List Nat) (l : List Nat) (acc : List JEntry × State),
      P (l.foldl (fun acc k => pwrTransitions k (g acc.2 k) acc) acc).2 = P acc.2 := by
    intro g l
    induction l with
    | nil => intro acc; rfl
    | cons x xs ih => intro acc; exact (ih _).trans (k1 _ _ _)
  unfold pwrCommit
  generalize (if trusted s then (s.ledger.cals.filter (fun e => idxHeld s e.1)).map (·.1) else []) = ks
  dsimp only
  split
  · exact (k0 _ _).trans (kf (fun x k => unjournaled x k (secs s)) ks ([], s))
  · rfl

theorem pwrfailAssert_keeps {β : Type} (P : State → β) (h : ∀ (s : State) x0 x1 x2 x3 x4 x5 x6 x7 x8, P { s with out := x0, evt := x1, mon := x2, jnv := x3, jnl := x4, prov := x5, roots := x6, ledger := x7, life := x8 } = P s) :
    ∀ s, P (pwrfailAssert s) = P s := by
  have k0 := jnlPwr_keeps P (fun s y0 y1 y2 => h s y0 y1 s.mon s.jnv y2 s.prov s.roots s.ledger s.life)
  have k1 := pwrCommit_keeps P (fun s y0 y1 y2 y3 y4 y5 y6 y7 => h s y0 y1 s.mon y2 y3 y4 y5 y6 y7)
  intro s
  unfold pwrfailAssert
  try dsimp only
  repeat' first
    | with_reducible rfl
    | simp only [↓h, ↓k0, ↓k1, ↓apply_ite P, ite_self]
    | split
    | refine (foldl_keeps P _ ?_ _ _).trans ?_
    | intro _ _

theorem pwrfailDeassert_keeps {β : Type} (P : State → β) (h : ∀ (s : State) x0 x1 x2 x3 x4 x5 x6 x7, P { s with out := x0, evt := x1, mon := x2, jnv := x3, jnl := x4, prov := x5, roots := x6, life := x7 } = P s) :
    ∀ s, P (pwrfailDeassert s) = P s := by
  have k0 := commitOne_keeps P (fun s y0 y1 y2 y3 y4 y5 y6 => h s y0 y1 s.mon y2 y3 y4 y5 y6)
  have k1 := jnlPwr_keeps P (fun s y0 y1 y2 => h s y0 y1 s.mon s.jnv y2 s.prov s.roots s.life)
  intro s
  unfold pwrfailDeassert
  try dsimp only
  repeat' first
    | with_reducible rfl
    | simp only [↓h, ↓k0, ↓k1, ↓apply_ite P, ite_self]
    | split
    | refine (foldl_keeps P _ ?_ _ _).trans ?_
    | intro _ _

end Sys2Proof.Machine
end

