-- ==== Sys2Proof/Laws/KeepBalance.lean ====
section
/-! SUPPORT. What the functions of Machine/Balance.lean leave unchanged. -/

set_option linter.unusedSimpArgs false
set_option linter.unreachableTactic false
set_option linter.unusedTactic false

namespace Sys2Proof.Machine

theorem updZone_keeps {β : Type} (P : State → β) (h : ∀ (s : State) x0, P { s with bal := x0 } = P s) :
    ∀ a0 a1 s, P (updZone a0 a1 s) = P s := by
  intro a0 a1 s
  unfold updZone
  try dsimp only
  repeat' first
    | with_reducible rfl
    | simp only [↓h, ↓apply_ite P, ite_self]
    | split
    | refine (foldl_keeps P _ ?_ _ _).trans ?_
    | intro _ _

theorem setBnd_keeps {β : Type} (P : State → β) (h : ∀ (s : State) x0, P { s with bal := x0 } = P s) :
    ∀ a0 a1 a2 a3 s, P (setBnd a0 a1 a2 a3 s) = P s := by
  intro a0 a1 a2 a3 s
  unfold setBnd
  try dsimp only
  repeat' first
    | with_reducible rfl
    | simp only [↓h, ↓apply_ite P, ite_self]
    | split
    | refine (foldl_keeps P _ ?_ _ _).trans ?_
    | intro _ _

theorem addAged_keeps {β : Type} (P : State → β) (h : ∀ (s : State) x0, P { s with bal := x0 } = P s) :
    ∀ a0 a1 a2 a3 s, P (addAged a0 a1 a2 a3 s) = P s := by
  have k0 := updZone_keeps P (fun s y0 => h s y0)
  intro a0 a1 a2 a3 s
  unfold addAged
  try dsimp only
  repeat' first
    | with_reducible rfl
    | simp only [↓h, ↓k0, ↓apply_ite P, ite_self]
    | split
    | refine (foldl_keeps P _ ?_ _ _).trans ?_
    | intro _ _

theorem addAgedReading_keeps {β : Type} (P : State → β) (h : ∀ (s : State) x0, P { s with bal := x0 } = P s) :
    ∀ a0 a1 s, P (addAgedReading a0 a1 s) = P s := by
  have k0 := updZone_keeps P (fun s y0 => h s y0)
  intro a0 a1 s
  unfold addAgedReading
  try dsimp only
  repeat' first
    | with_reducible rfl
    | simp only [↓h, ↓k0, ↓apply_ite P, ite_self]
    | split
    | refine (foldl_keeps P _ ?_ _ _).trans ?_
    | intro _ _

theorem noteLate_keeps {β : Type} (P : State → β) (h : ∀ (s : State) x0, P { s with bal := x0 } = P s) :
    ∀ a0 a1 a2 s, P (noteLate a0 a1 a2 s) = P s := by
  have k0 := updZone_keeps P (fun s y0 => h s y0)
  intro a0 a1 a2 s
  unfold noteLate
  try dsimp only
  repeat' first
    | with_reducible rfl
    | simp only [↓h, ↓k0, ↓apply_ite P, ite_self]
    | split
    | refine (foldl_keeps P _ ?_ _ _).trans ?_
    | intro _ _

theorem noteKnown_keeps {β : Type} (P : State → β) (h : ∀ (s : State) x0, P { s with bal := x0 } = P s) :
    ∀ a0 a1 a2 s, P (noteKnown a0 a1 a2 s) = P s := by
  have k0 := noteLate_keeps P (fun s y0 => h s y0)
  intro a0 a1 a2 s
  unfold noteKnown
  try dsimp only
  repeat' first
    | with_reducible rfl
    | simp only [↓h, ↓k0, ↓apply_ite P, ite_self]
    | split
    | refine (foldl_keeps P _ ?_ _ _).trans ?_
    | intro _ _

theorem setSpan_keeps {β : Type} (P : State → β) (h : ∀ (s : State) x0, P { s with bal := x0 } = P s) :
    ∀ a0 a1 a2 a3 a4 a5 a6 a7 a8 s, P (setSpan a0 a1 a2 a3 a4 a5 a6 a7 a8 s) = P s := by
  have k0 := addAged_keeps P (fun s y0 => h s y0)
  have k1 := noteKnown_keeps P (fun s y0 => h s y0)
  have k2 := setBnd_keeps P (fun s y0 => h s y0)
  intro a0 a1 a2 a3 a4 a5 a6 a7 a8 s
  unfold setSpan
  try dsimp only
  repeat' first
    | with_reducible rfl
    | simp only [↓h, ↓k0, ↓k1, ↓k2, ↓apply_ite P, ite_self]
    | split
    | refine (foldl_keeps P _ ?_ _ _).trans ?_
    | intro _ _

theorem gapSpan_keeps {β : Type} (P : State → β) (h : ∀ (s : State) x0, P { s with bal := x0 } = P s) :
    ∀ a0 a1 a2 a3 s, P (gapSpan a0 a1 a2 a3 s) = P s := by
  have k0 := setBnd_keeps P (fun s y0 => h s y0)
  intro a0 a1 a2 a3 s
  unfold gapSpan
  try dsimp only
  repeat' first
    | with_reducible rfl
    | simp only [↓h, ↓k0, ↓apply_ite P, ite_self]
    | split
    | refine (foldl_keeps P _ ?_ _ _).trans ?_
    | intro _ _

theorem bringHorizon_keeps {β : Type} (P : State → β) (h : ∀ (s : State) x0, P { s with bal := x0 } = P s) :
    ∀ s, P (bringHorizon s) = P s := by
  have k0 := addAged_keeps P (fun s y0 => h s y0)
  have k1 := addAgedReading_keeps P (fun s y0 => h s y0)
  intro s
  unfold bringHorizon
  try dsimp only
  repeat' first
    | with_reducible rfl
    | simp only [↓h, ↓k0, ↓k1, ↓apply_ite P, ite_self]
    | split
    | refine (foldl_keeps P _ ?_ _ _).trans ?_
    | intro _ _

theorem balReading_keeps {β : Type} (P : State → β) (h : ∀ (s : State) x0, P { s with bal := x0 } = P s) :
    ∀ a0 a1 a2 a3 a4 a5 a6 a7 a8 s, P (balReading a0 a1 a2 a3 a4 a5 a6 a7 a8 s) = P s := by
  have k0 := bringHorizon_keeps P (fun s y0 => h s y0)
  have k1 := gapSpan_keeps P (fun s y0 => h s y0)
  have k2 := setSpan_keeps P (fun s y0 => h s y0)
  have k3 := updZone_keeps P (fun s y0 => h s y0)
  intro a0 a1 a2 a3 a4 a5 a6 a7 a8 s
  unfold balReading
  try dsimp only
  repeat' first
    | with_reducible rfl
    | simp only [↓h, ↓k0, ↓k1, ↓k2, ↓k3, ↓apply_ite P, ite_self]
    | split
    | refine (foldl_keeps P _ ?_ _ _).trans ?_
    | intro _ _

theorem placeIn_keeps {β : Type} (P : State → β) (h : ∀ (s : State) x0, P { s with bal := x0 } = P s) :
    ∀ a0 a1 a2 a3 s, P (placeIn a0 a1 a2 a3 s) = P s := by
  have k0 := addAgedReading_keeps P (fun s y0 => h s y0)
  have k1 := updZone_keeps P (fun s y0 => h s y0)
  intro a0 a1 a2 a3 s
  unfold placeIn
  try dsimp only
  repeat' first
    | with_reducible rfl
    | simp only [↓h, ↓k0, ↓k1, ↓apply_ite P, ite_self]
    | split
    | refine (foldl_keeps P _ ?_ _ _).trans ?_
    | intro _ _

theorem place__keeps {β : Type} (P : State → β) (h : ∀ (s : State) x0, P { s with bal := x0 } = P s) :
    ∀ a0 a1 a2 a3 s, P (place_ a0 a1 a2 a3 s) = P s := by
  have k0 := bringHorizon_keeps P (fun s y0 => h s y0)
  have k1 := placeIn_keeps P (fun s y0 => h s y0)
  intro a0 a1 a2 a3 s
  unfold place_
  try dsimp only
  repeat' first
    | with_reducible rfl
    | simp only [↓h, ↓k0, ↓k1, ↓apply_ite P, ite_self]
    | split
    | refine (foldl_keeps P _ ?_ _ _).trans ?_
    | intro _ _

theorem postRec_keeps {β : Type} (P : State → β) (h : ∀ (s : State) x0, P { s with bal := x0 } = P s) :
    ∀ a0 s, P (postRec a0 s) = P s := by
  intro a0 s
  unfold postRec
  try dsimp only
  repeat' first
    | with_reducible rfl
    | simp only [↓h, ↓apply_ite P, ite_self]
    | split
    | refine (foldl_keeps P _ ?_ _ _).trans ?_
    | intro _ _

theorem nightClose_keeps {β : Type} (P : State → β) (h : ∀ (s : State) x0 x1 x2, P { s with out := x0, evt := x1, bal := x2 } = P s) :
    ∀ a0 a1 s, P (nightClose a0 a1 s) = P s := by
  have k0 := postRec_keeps P (fun s y0 => h s s.out s.evt y0)
  have k1 := raiseIf_keeps P (fun s y0 y1 => h s y0 y1 s.bal)
  intro a0 a1 s
  unfold nightClose
  try dsimp only
  repeat' first
    | with_reducible rfl
    | simp only [↓h, ↓k0, ↓k1, ↓apply_ite P, ite_self]
    | split
    | refine (foldl_keeps P _ ?_ _ _).trans ?_
    | intro _ _

theorem closeInterval_keeps {β : Type} (P : State → β) (h : ∀ (s : State) x0 x1 x2, P { s with out := x0, evt := x1, bal := x2 } = P s) :
    ∀ a0 a1 a2 s, P (closeInterval a0 a1 a2 s) = P s := by
  have k0 := nightClose_keeps P (fun s y0 y1 y2 => h s y0 y1 y2)
  have k1 := postRec_keeps P (fun s y0 => h s s.out s.evt y0)
  have k2 := raiseIf_keeps P (fun s y0 y1 => h s y0 y1 s.bal)
  intro a0 a1 a2 s
  unfold closeInterval
  try dsimp only
  repeat' first
    | with_reducible rfl
    | simp only [↓h, ↓k0, ↓k1, ↓k2, ↓apply_ite P, ite_self]
    | split
    | refine (foldl_keeps P _ ?_ _ _).trans ?_
    | intro _ _

theorem intervalClose_keeps {β : Type} (P : State → β) (h : ∀ (s : State) x0 x1 x2 x3 x4, P { s with now := x0, mono := x1, out := x2, evt := x3, bal := x4 } = P s) :
    ∀ a0 a1 s, P (intervalClose a0 a1 s) = P s := by
  have k0 := advTo_keeps P (fun s y0 y1 => h s y0 y1 s.out s.evt s.bal)
  have k1 := bringHorizon_keeps P (fun s y0 => h s s.now s.mono s.out s.evt y0)
  have k2 := closeInterval_keeps P (fun s y0 y1 y2 => h s s.now s.mono y0 y1 y2)
  intro a0 a1 s
  unfold intervalClose
  try dsimp only
  repeat' first
    | with_reducible rfl
    | simp only [↓h, ↓k0, ↓k1, ↓k2, ↓apply_ite P, ite_self]
    | split
    | refine (foldl_keeps P _ ?_ _ _).trans ?_
    | intro _ _

theorem closePassed_keeps {β : Type} (P : State → β) (h : ∀ (s : State) x0 x1 x2, P { s with out := x0, evt := x1, bal := x2 } = P s) :
    ∀ a0 s, P (closePassed a0 s) = P s := by
  have k0 := closeInterval_keeps P (fun s y0 y1 y2 => h s y0 y1 y2)
  intro a0 s
  fun_induction closePassed a0 s
  all_goals
    repeat' first
      | with_reducible rfl
      | simp +zetaDelta only [↓h, ↓k0, ↓apply_ite P, ite_self, *]
      | split
      | refine (foldl_keeps P _ ?_ _ _).trans ?_
      | intro _ _

theorem balTrustReturn_keeps {β : Type} (P : State → β) (h : ∀ (s : State) x0 x1 x2, P { s with out := x0, evt := x1, bal := x2 } = P s) :
    ∀ s, P (balTrustReturn s) = P s := by
  have k0 := bringHorizon_keeps P (fun s y0 => h s s.out s.evt y0)
  have k1 := closePassed_keeps P (fun s y0 y1 y2 => h s y0 y1 y2)
  have k2 := postRec_keeps P (fun s y0 => h s s.out s.evt y0)
  have k3 := updZone_keeps P (fun s y0 => h s s.out s.evt y0)
  intro s
  unfold balTrustReturn
  try dsimp only
  repeat' first
    | with_reducible rfl
    | simp only [↓h, ↓k0, ↓k1, ↓k2, ↓k3, ↓apply_ite P, ite_self]
    | split
    | refine (foldl_keeps P _ ?_ _ _).trans ?_
    | intro _ _

theorem postRevision_keeps {β : Type} (P : State → β) (h : ∀ (s : State) x0 x1 x2, P { s with out := x0, evt := x1, bal := x2 } = P s) :
    ∀ a0 a1 a2 s, P (postRevision a0 a1 a2 s) = P s := by
  have k0 := postRec_keeps P (fun s y0 => h s s.out s.evt y0)
  have k1 := raiseIf_keeps P (fun s y0 y1 => h s y0 y1 s.bal)
  have k2 := updZone_keeps P (fun s y0 => h s s.out s.evt y0)
  intro a0 a1 a2 s
  unfold postRevision
  try dsimp only
  repeat' first
    | with_reducible rfl
    | simp only [↓h, ↓k0, ↓k1, ↓k2, ↓apply_ite P, ite_self]
    | split
    | refine (foldl_keeps P _ ?_ _ _).trans ?_
    | intro _ _

theorem postAged_keeps {β : Type} (P : State → β) (h : ∀ (s : State) x0, P { s with bal := x0 } = P s) :
    ∀ a0 s, P (postAged a0 s) = P s := by
  have k0 := postRec_keeps P (fun s y0 => h s y0)
  have k1 := updZone_keeps P (fun s y0 => h s y0)
  intro a0 s
  unfold postAged
  try dsimp only
  repeat' first
    | with_reducible rfl
    | simp only [↓h, ↓k0, ↓k1, ↓apply_ite P, ite_self]
    | split
    | refine (foldl_keeps P _ ?_ _ _).trans ?_
    | intro _ _

theorem revisionPost_keeps {β : Type} (P : State → β) (h : ∀ (s : State) x0 x1 x2 x3 x4, P { s with now := x0, mono := x1, out := x2, evt := x3, bal := x4 } = P s) :
    ∀ a0 a1 s, P (revisionPost a0 a1 s) = P s := by
  have k0 := advMono_keeps P (fun s y0 y1 => h s y0 y1 s.out s.evt s.bal)
  have k1 := bringHorizon_keeps P (fun s y0 => h s s.now s.mono s.out s.evt y0)
  have k2 := postAged_keeps P (fun s y0 => h s s.now s.mono s.out s.evt y0)
  have k3 := postRevision_keeps P (fun s y0 y1 y2 => h s s.now s.mono y0 y1 y2)
  intro a0 a1 s
  unfold revisionPost
  try dsimp only
  repeat' first
    | with_reducible rfl
    | simp only [↓h, ↓k0, ↓k1, ↓k2, ↓k3, ↓apply_ite P, ite_self]
    | split
    | refine (foldl_keeps P _ ?_ _ _).trans ?_
    | intro _ _

theorem unzonedPost_keeps {β : Type} (P : State → β) (h : ∀ (s : State) x0 x1 x2, P { s with now := x0, mono := x1, bal := x2 } = P s) :
    ∀ a0 s, P (unzonedPost a0 s) = P s := by
  have k0 := advTo_keeps P (fun s y0 y1 => h s y0 y1 s.bal)
  have k1 := postRec_keeps P (fun s y0 => h s s.now s.mono y0)
  intro a0 s
  unfold unzonedPost
  try dsimp only
  repeat' first
    | with_reducible rfl
    | simp only [↓h, ↓k0, ↓k1, ↓apply_ite P, ite_self]
    | split
    | refine (foldl_keeps P _ ?_ _ _).trans ?_
    | intro _ _

theorem horizonAdvance_keeps {β : Type} (P : State → β) (h : ∀ (s : State) x0 x1 x2, P { s with now := x0, mono := x1, bal := x2 } = P s) :
    ∀ s, P (horizonAdvance s) = P s := by
  have k0 := advTo_keeps P (fun s y0 y1 => h s y0 y1 s.bal)
  have k1 := bringHorizon_keeps P (fun s y0 => h s s.now s.mono y0)
  intro s
  unfold horizonAdvance
  try dsimp only
  repeat' first
    | with_reducible rfl
    | simp only [↓h, ↓k0, ↓k1, ↓apply_ite P, ite_self]
    | split
    | refine (foldl_keeps P _ ?_ _ _).trans ?_
    | intro _ _

theorem rebuildEntry_keeps {β : Type} (P : State → β) (h : ∀ (s : State) x0, P { s with bal := x0 } = P s) :
    ∀ a0 s, P (rebuildEntry a0 s) = P s := by
  have k0 := setBnd_keeps P (fun s y0 => h s y0)
  have k1 := setSpan_keeps P (fun s y0 => h s y0)
  intro a0 s
  unfold rebuildEntry
  try dsimp only
  repeat' first
    | with_reducible rfl
    | simp only [↓h, ↓k0, ↓k1, ↓apply_ite P, ite_self]
    | split
    | refine (foldl_keeps P _ ?_ _ _).trans ?_
    | intro _ _

theorem rebuildEp_keeps {β : Type} (P : State → β) (h : ∀ (s : State) x0, P { s with bal := x0 } = P s) :
    ∀ a0 s, P (rebuildEp a0 s) = P s := by
  have k0 := bringHorizon_keeps P (fun s y0 => h s y0)
  have k1 := rebuildEntry_keeps P (fun s y0 => h s y0)
  intro a0 s
  unfold rebuildEp
  try dsimp only
  repeat' first
    | with_reducible rfl
    | simp only [↓h, ↓k0, ↓k1, ↓apply_ite P, ite_self]
    | split
    | refine (foldl_keeps P _ ?_ _ _).trans ?_
    | intro _ _

theorem loseCells_keeps {β : Type} (P : State → β) (h : ∀ (s : State) x0, P { s with bal := x0 } = P s) :
    ∀ a0 s, P (loseCells a0 s) = P s := by
  have k0 := rebuildEp_keeps P (fun s y0 => h s y0)
  intro a0 s
  unfold loseCells
  try dsimp only
  repeat' first
    | with_reducible rfl
    | simp only [↓h, ↓k0, ↓apply_ite P, ite_self]
    | split
    | refine (foldl_keeps P _ ?_ _ _).trans ?_
    | intro _ _

theorem loseZone_keeps {β : Type} (P : State → β) (h : ∀ (s : State) x0 x1 x2, P { s with out := x0, evt := x1, bal := x2 } = P s) :
    ∀ a0 s, P (loseZone a0 s) = P s := by
  have k0 := raise_keeps P (fun s y0 y1 => h s y0 y1 s.bal)
  have k1 := updZone_keeps P (fun s y0 => h s s.out s.evt y0)
  intro a0 s
  unfold loseZone
  try dsimp only
  repeat' first
    | with_reducible rfl
    | simp only [↓h, ↓k0, ↓k1, ↓apply_ite P, ite_self]
    | split
    | refine (foldl_keeps P _ ?_ _ _).trans ?_
    | intro _ _

theorem rebuildRestored_keeps {β : Type} (P : State → β) (h : ∀ (s : State) x0, P { s with bal := x0 } = P s) :
    ∀ a0 s, P (rebuildRestored a0 s) = P s := by
  have k0 := rebuildEp_keeps P (fun s y0 => h s y0)
  intro a0 s
  unfold rebuildRestored
  try dsimp only
  repeat' first
    | with_reducible rfl
    | simp only [↓h, ↓k0, ↓apply_ite P, ite_self]
    | split
    | refine (foldl_keeps P _ ?_ _ _).trans ?_
    | intro _ _

theorem restoreReceive_keeps {β : Type} (P : State → β) (h : ∀ (s : State) x0 x1 x2 x3 x4 x5 x6 x7 x8 x9 x10 x11 x12 x13 x14 x15, P { s with out := x0, evt := x1, boot := x2, bkp := x3, dir := x4, eps := x5, mem := x6, chans := x7, jnv := x8, jnl := x9, prov := x10, roots := x11, ledger := x12, bal := x13, slate := x14, life := x15 } = P s) :
    ∀ a0 s, P (restoreReceive a0 s) = P s := by
  have k0 := rebuildRestored_keeps P (fun s y0 => h s s.out s.evt s.boot s.bkp s.dir s.eps s.mem s.chans s.jnv s.jnl s.prov s.roots s.ledger y0 s.slate s.life)
  have k1 := restorePage_keeps P (fun s y0 y1 y2 y3 y4 y5 y6 y7 y8 y9 y10 y11 y12 y13 y14 => h s y0 y1 y2 y3 y4 y5 y6 y7 y8 y9 y10 y11 y12 s.bal y13 y14)
  intro a0 s
  unfold restoreReceive
  try dsimp only
  repeat' first
    | with_reducible rfl
    | simp only [↓h, ↓k0, ↓k1, ↓apply_ite P, ite_self]
    | split
    | refine (foldl_keeps P _ ?_ _ _).trans ?_
    | intro _ _

theorem restoreStart_keeps {β : Type} (P : State → β) (h : ∀ (s : State) x0 x1 x2 x3 x4 x5 x6 x7 x8 x9 x10 x11 x12 x13 x14 x15, P { s with out := x0, evt := x1, boot := x2, bkp := x3, dir := x4, eps := x5, mem := x6, chans := x7, jnv := x8, jnl := x9, prov := x10, roots := x11, ledger := x12, bal := x13, slate := x14, life := x15 } = P s) :
    ∀ a0 s, P (restoreStart a0 s).st = P s := by
  have k0 := ledgerRestoreStart_keeps P (fun s y0 y1 y2 y3 y4 y5 y6 y7 y8 y9 y10 y11 y12 y13 y14 => h s y0 y1 y2 y3 y4 y5 y6 y7 y8 y9 y10 y11 y12 s.bal y13 y14)
  have k1 := rebuildRestored_keeps P (fun s y0 => h s s.out s.evt s.boot s.bkp s.dir s.eps s.mem s.chans s.jnv s.jnl s.prov s.roots s.ledger y0 s.slate s.life)
  intro r s
  unfold restoreStart
  have e := k0 r s
  split
  · next hx => rw [hx] at e; exact (k1 _ _).trans e
  · exact e

theorem zoneLoad_keeps {β : Type} (P : State → β) (h : ∀ (s : State) x0, P { s with bal := x0 } = P s) :
    ∀ a0 s, P (zoneLoad a0 s).st = P s := by
  have k0 := bringHorizon_keeps P (fun s y0 => h s y0)
  have k1 := refuse_keeps P
  have k2 := replyOk_keeps P
  intro a0 s
  unfold zoneLoad
  try dsimp only
  repeat' first
    | with_reducible rfl
    | simp only [↓h, ↓k0, ↓k1, ↓k2, ↓apply_ite P, ite_self, Reply.st_done, Reply.st_pend, Reply.st_twice, Reply.st_wait, replyOk_st, refuse_st]
    | split
    | refine (foldl_keeps P _ ?_ _ _).trans ?_
    | intro _ _

theorem dropIntervals_keeps {β : Type} (P : State → β) (h : ∀ (s : State) x0 x1 x2, P { s with out := x0, evt := x1, bal := x2 } = P s) :
    ∀ a0 a1 s, P (dropIntervals a0 a1 s) = P s := by
  have k0 := closeInterval_keeps P (fun s y0 y1 y2 => h s y0 y1 y2)
  intro a0 a1 s
  fun_induction dropIntervals a0 a1 s
  all_goals
    repeat' first
      | with_reducible rfl
      | simp +zetaDelta only [↓h, ↓k0, ↓apply_ite P, ite_self, *]
      | split
      | refine (foldl_keeps P _ ?_ _ _).trans ?_
      | intro _ _

theorem zoneDrop_keeps {β : Type} (P : State → β) (h : ∀ (s : State) x0 x1 x2, P { s with out := x0, evt := x1, bal := x2 } = P s) :
    ∀ a0 s, P (zoneDrop a0 s).st = P s := by
  have k0 := dropIntervals_keeps P (fun s y0 y1 y2 => h s y0 y1 y2)
  have k1 := refuse_keeps P
  have k2 := replyOk_keeps P
  intro a0 s
  unfold zoneDrop
  try dsimp only
  repeat' first
    | with_reducible rfl
    | simp only [↓h, ↓k0, ↓k1, ↓k2, ↓apply_ite P, ite_self, Reply.st_done, Reply.st_pend, Reply.st_twice, Reply.st_wait, replyOk_st, refuse_st]
    | split
    | refine (foldl_keeps P _ ?_ _ _).trans ?_
    | intro _ _

theorem zoneTolSet_keeps {β : Type} (P : State → β) (h : ∀ (s : State) x0, P { s with bal := x0 } = P s) :
    ∀ a0 s, P (zoneTolSet a0 s).st = P s := by
  have k0 := refuse_keeps P
  have k1 := replyOk_keeps P
  have k2 := updZone_keeps P (fun s y0 => h s y0)
  intro a0 s
  unfold zoneTolSet
  try dsimp only
  repeat' first
    | with_reducible rfl
    | simp only [↓h, ↓k0, ↓k1, ↓k2, ↓apply_ite P, ite_self, Reply.st_done, Reply.st_pend, Reply.st_twice, Reply.st_wait, replyOk_st, refuse_st]
    | split
    | refine (foldl_keeps P _ ?_ _ _).trans ?_
    | intro _ _

theorem zoneGet_keeps {β : Type} (P : State → β) :
    ∀ a0 s, P (zoneGet a0 s).st = P s := by
  have k0 := refuse_keeps P
  have k1 := replyOk_keeps P
  intro a0 s
  unfold zoneGet
  try dsimp only
  repeat' first
    | with_reducible rfl
    | simp only [↓k0, ↓k1, ↓apply_ite P, ite_self, Reply.st_done, Reply.st_pend, Reply.st_twice, Reply.st_wait, replyOk_st, refuse_st]
    | split
    | refine (foldl_keeps P _ ?_ _ _).trans ?_
    | intro _ _

theorem scoreReset_keeps {β : Type} (P : State → β) (h : ∀ (s : State) x0, P { s with bal := x0 } = P s) :
    ∀ a0 s, P (scoreReset a0 s).st = P s := by
  have k0 := refuse_keeps P
  have k1 := replyOk_keeps P
  have k2 := updZone_keeps P (fun s y0 => h s y0)
  intro a0 s
  unfold scoreReset
  try dsimp only
  repeat' first
    | with_reducible rfl
    | simp only [↓h, ↓k0, ↓k1, ↓k2, ↓apply_ite P, ite_self, Reply.st_done, Reply.st_pend, Reply.st_twice, Reply.st_wait, replyOk_st, refuse_st]
    | split
    | refine (foldl_keeps P _ ?_ _ _).trans ?_
    | intro _ _

theorem balExportStart_keeps {β : Type} (P : State → β) (h : ∀ (s : State) x0 x1, P { s with chans := x0, bal := x1 } = P s) :
    ∀ a0 s, P (balExportStart a0 s).st = P s := by
  have k0 := bindChan_keeps P (fun s y0 => h s y0 s.bal)
  have k1 := refuse_keeps P
  have k2 := replyOk_keeps P
  intro a0 s
  unfold balExportStart
  try dsimp only
  repeat' first
    | with_reducible rfl
    | simp only [↓h, ↓k0, ↓k1, ↓k2, ↓apply_ite P, ite_self, Reply.st_done, Reply.st_pend, Reply.st_twice, Reply.st_wait, replyOk_st, refuse_st]
    | split
    | refine (foldl_keeps P _ ?_ _ _).trans ?_
    | intro _ _

theorem balConfirm_keeps {β : Type} (P : State → β) (h : ∀ (s : State) x0 x1, P { s with chans := x0, bal := x1 } = P s) :
    ∀ a0 s, P (balConfirm a0 s).st = P s := by
  have k0 := refuse_keeps P
  have k1 := replyOk_keeps P
  have k2 := streamAnew_keeps P (fun s y0 => h s y0 s.bal)
  intro a0 s
  unfold balConfirm
  try dsimp only
  repeat' first
    | with_reducible rfl
    | simp only [↓h, ↓k0, ↓k1, ↓k2, ↓apply_ite P, ite_self, Reply.st_done, Reply.st_pend, Reply.st_twice, Reply.st_wait, replyOk_st, refuse_st]
    | split
    | refine (foldl_keeps P _ ?_ _ _).trans ?_
    | intro _ _

theorem balRewind_keeps {β : Type} (P : State → β) (h : ∀ (s : State) x0 x1, P { s with chans := x0, bal := x1 } = P s) :
    ∀ a0 s, P (balRewind a0 s).st = P s := by
  have k0 := refuse_keeps P
  have k1 := replyOk_keeps P
  have k2 := streamAnew_keeps P (fun s y0 => h s y0 s.bal)
  intro a0 s
  unfold balRewind
  try dsimp only
  repeat' first
    | with_reducible rfl
    | simp only [↓h, ↓k0, ↓k1, ↓k2, ↓apply_ite P, ite_self, Reply.st_done, Reply.st_pend, Reply.st_twice, Reply.st_wait, replyOk_st, refuse_st]
    | split
    | refine (foldl_keeps P _ ?_ _ _).trans ?_
    | intro _ _

end Sys2Proof.Machine
end

