-- ==== Sys2Proof/Laws/KeepArbiter.lean ====
section
/-! SUPPORT. What the functions of Machine/Arbiter.lean leave unchanged. -/

set_option linter.unusedSimpArgs false
set_option linter.unreachableTactic false
set_option linter.unusedTactic false

namespace Sys2Proof.Machine

theorem giveToken_keeps {β : Type} (P : State → β) (h : ∀ (s : State) x0, P { s with maint := x0 } = P s) :
    ∀ a0 s, P (giveToken a0 s) = P s := by
  intro a0 s
  unfold giveToken
  try dsimp only
  repeat' first
    | with_reducible rfl
    | simp only [↓h, ↓apply_ite P, ite_self]
    | split
    | refine (foldl_keeps P _ ?_ _ _).trans ?_
    | intro _ _

theorem dropToken_keeps {β : Type} (P : State → β) (h : ∀ (s : State) x0, P { s with maint := x0 } = P s) :
    ∀ a0 s, P (dropToken a0 s) = P s := by
  intro a0 s
  unfold dropToken
  try dsimp only
  repeat' first
    | with_reducible rfl
    | simp only [↓h, ↓apply_ite P, ite_self]
    | split
    | refine (foldl_keeps P _ ?_ _ _).trans ?_
    | intro _ _

theorem askToken_keeps {β : Type} (P : State → β) (h : ∀ (s : State) x0, P { s with maint := x0 } = P s) :
    ∀ a0 s, P (askToken a0 s) = P s := by
  have k0 := giveToken_keeps P (fun s y0 => h s y0)
  intro a0 s
  unfold askToken
  try dsimp only
  repeat' first
    | with_reducible rfl
    | simp only [↓h, ↓k0, ↓apply_ite P, ite_self]
    | split
    | refine (foldl_keeps P _ ?_ _ _).trans ?_
    | intro _ _

theorem maintGrant_keeps {β : Type} (P : State → β) (h : ∀ (s : State) x0 x1 x2 x3, P { s with now := x0, mono := x1, dir := x2, maint := x3 } = P s) :
    ∀ a0 s, P (maintGrant a0 s) = P s := by
  have k0 := advTo_keeps P (fun s y0 y1 => h s y0 y1 s.dir s.maint)
  have k1 := giveToken_keeps P (fun s y0 => h s s.now s.mono s.dir y0)
  have k2 := roundAt_keeps P (fun s y0 y1 => h s y0 y1 s.dir s.maint)
  intro a0 s
  unfold maintGrant
  try dsimp only
  repeat' first
    | with_reducible rfl
    | simp only [↓h, ↓k0, ↓k1, ↓k2, ↓apply_ite P, ite_self]
    | split
    | refine (foldl_keeps P _ ?_ _ _).trans ?_
    | intro _ _

theorem balRerun_keeps {β : Type} (P : State → β) (h : ∀ (s : State) x0 x1 x2, P { s with out := x0, evt := x1, bal := x2 } = P s) :
    ∀ a0 s, P (balRerun a0 s).st = P s := by
  have k0 := postRevision_keeps P (fun s y0 y1 y2 => h s y0 y1 y2)
  have k1 := refuse_keeps P
  intro a0 s
  unfold balRerun
  try dsimp only
  repeat' first
    | with_reducible rfl
    | simp only [↓h, ↓k0, ↓k1, ↓apply_ite P, ite_self, Reply.st_done, Reply.st_pend, Reply.st_twice, Reply.st_wait, replyOk_st, refuse_st]
    | split
    | refine (foldl_keeps P _ ?_ _ _).trans ?_
    | intro _ _

end Sys2Proof.Machine
end

