-- ==== Sys2Proof/Laws/KeepBackup.lean ====
section
/-! SUPPORT. What the functions of Machine/Backup.lean leave unchanged. -/

set_option linter.unusedSimpArgs false
set_option linter.unreachableTactic false
set_option linter.unusedTactic false

namespace Sys2Proof.Machine

theorem wake_keeps {β : Type} (P : State → β) (h : ∀ (s : State) x0, P { s with bkp := x0 } = P s) :
    ∀ s, P (wake s) = P s := by
  intro s
  unfold wake
  try dsimp only
  repeat' first
    | with_reducible rfl
    | simp only [↓h, ↓apply_ite P, ite_self]
    | split
    | refine (foldl_keeps P _ ?_ _ _).trans ?_
    | intro _ _

theorem alarmTick_keeps {β : Type} (P : State → β) (h : ∀ (s : State) x0 x1 x2, P { s with out := x0, evt := x1, bkp := x2 } = P s) :
    ∀ a0 s, P (alarmTick a0 s) = P s := by
  have k0 := raiseIf_keeps P (fun s y0 y1 => h s y0 y1 s.bkp)
  have k1 := wake_keeps P (fun s y0 => h s s.out s.evt y0)
  intro a0 s
  unfold alarmTick
  try dsimp only
  repeat' first
    | with_reducible rfl
    | simp only [↓h, ↓k0, ↓k1, ↓apply_ite P, ite_self]
    | split
    | refine (foldl_keeps P _ ?_ _ _).trans ?_
    | intro _ _

theorem secondEdge_keeps {β : Type} (P : State → β) (h : ∀ (s : State) x0 x1 x2, P { s with now := x0, tickAt := x1, timeLoaded := x2 } = P s) :
    ∀ s, P (secondEdge s) = P s := by
  intro s
  unfold secondEdge
  try dsimp only
  repeat' first
    | with_reducible rfl
    | simp only [↓h, ↓apply_ite P, ite_self]
    | split
    | refine (foldl_keeps P _ ?_ _ _).trans ?_
    | intro _ _

theorem rtcTick_keeps {β : Type} (P : State → β) (h : ∀ (s : State) x0 x1 x2 x3 x4 x5 x6 x7, P { s with now := x0, mono := x1, tickAt := x2, timeLoaded := x3, trustSeen := x4, out := x5, evt := x6, bkp := x7 } = P s) :
    ∀ s, P (rtcTick s) = P s := by
  have k0 := advTo_keeps P (fun s y0 y1 => h s y0 y1 s.tickAt s.timeLoaded s.trustSeen s.out s.evt s.bkp)
  have k1 := alarmTick_keeps P (fun s y0 y1 y2 => h s s.now s.mono s.tickAt s.timeLoaded s.trustSeen y0 y1 y2)
  have k2 := noteTrust_keeps P (fun s y0 y1 y2 => h s s.now s.mono s.tickAt s.timeLoaded y0 y1 y2 s.bkp)
  have k3 := secondEdge_keeps P (fun s y0 y1 y2 => h s y0 s.mono y1 y2 s.trustSeen s.out s.evt s.bkp)
  intro s
  unfold rtcTick
  try dsimp only
  repeat' first
    | with_reducible rfl
    | simp only [↓h, ↓k0, ↓k1, ↓k2, ↓k3, ↓apply_ite P, ite_self]
    | split
    | refine (foldl_keeps P _ ?_ _ _).trans ?_
    | intro _ _

theorem rtcYearRead_keeps {β : Type} (P : State → β) (h : ∀ (s : State) x0, P { s with bkp := x0 } = P s) :
    ∀ s, P (rtcYearRead s) = P s := by
  intro s
  unfold rtcYearRead
  try dsimp only
  repeat' first
    | with_reducible rfl
    | simp only [↓h, ↓apply_ite P, ite_self]
    | split
    | refine (foldl_keeps P _ ?_ _ _).trans ?_
    | intro _ _

theorem rtcRegRead_keeps {β : Type} (P : State → β) (h : ∀ (s : State) x0, P { s with bkp := x0 } = P s) :
    ∀ a0 s, P (rtcRegRead a0 s) = P s := by
  have k0 := rtcYearRead_keeps P (fun s y0 => h s y0)
  intro a0 s
  unfold rtcRegRead
  try dsimp only
  repeat' first
    | with_reducible rfl
    | simp only [↓h, ↓k0, ↓apply_ite P, ite_self]
    | split
    | refine (foldl_keeps P _ ?_ _ _).trans ?_
    | intro _ _

theorem rtcShadowTimeout_keeps {β : Type} (P : State → β) (h : ∀ (s : State) x0 x1 x2, P { s with now := x0, mono := x1, bkp := x2 } = P s) :
    ∀ s, P (rtcShadowTimeout s) = P s := by
  have k0 := advMono_keeps P (fun s y0 y1 => h s y0 y1 s.bkp)
  intro s
  unfold rtcShadowTimeout
  try dsimp only
  repeat' first
    | with_reducible rfl
    | simp only [↓h, ↓k0, ↓apply_ite P, ite_self]
    | split
    | refine (foldl_keeps P _ ?_ _ _).trans ?_
    | intro _ _

theorem loadCal_keeps {β : Type} (P : State → β) (h : ∀ (s : State) x0 x1 x2, P { s with now := x0, tickAt := x1, bkp := x2 } = P s) :
    ∀ a0 s, P (loadCal a0 s) = P s := by
  intro a0 s
  unfold loadCal
  try dsimp only
  repeat' first
    | with_reducible rfl
    | simp only [↓h, ↓apply_ite P, ite_self]
    | split
    | refine (foldl_keeps P _ ?_ _ _).trans ?_
    | intro _ _

theorem afterTime_keeps {β : Type} (P : State → β) (h : ∀ (s : State) x0 x1 x2 x3 x4 x5 x6 x7 x8 x9, P { s with trustSeen := x0, out := x1, evt := x2, jnv := x3, jnl := x4, prov := x5, roots := x6, ledger := x7, bal := x8, life := x9 } = P s) :
    ∀ a0 s, P (afterTime a0 s) = P s := by
  have k0 := balTrustReturn_keeps P (fun s y0 y1 y2 => h s s.trustSeen y0 y1 s.jnv s.jnl s.prov s.roots s.ledger y2 s.life)
  have k1 := bringHorizon_keeps P (fun s y0 => h s s.trustSeen s.out s.evt s.jnv s.jnl s.prov s.roots s.ledger y0 s.life)
  have k2 := catchUp_keeps P (fun s y0 y1 y2 y3 y4 y5 y6 y7 => h s s.trustSeen y0 y1 y2 y3 y4 y5 y6 s.bal y7)
  have k3 := closePassed_keeps P (fun s y0 y1 y2 => h s s.trustSeen y0 y1 s.jnv s.jnl s.prov s.roots s.ledger y2 s.life)
  have k4 := noteTrust_keeps P (fun s y0 y1 y2 => h s y0 y1 y2 s.jnv s.jnl s.prov s.roots s.ledger s.bal s.life)
  intro a0 s
  unfold afterTime
  try dsimp only
  repeat' first
    | with_reducible rfl
    | simp only [↓h, ↓k0, ↓k1, ↓k2, ↓k3, ↓k4, ↓apply_ite P, ite_self]
    | split
    | refine (foldl_keeps P _ ?_ _ _).trans ?_
    | intro _ _

theorem commitSet_keeps {β : Type} (P : State → β) (h : ∀ (s : State) x0 x1 x2 x3 x4 x5 x6 x7 x8 x9 x10 x11 x12, P { s with now := x0, tickAt := x1, trustSeen := x2, out := x3, evt := x4, bkp := x5, jnv := x6, jnl := x7, prov := x8, roots := x9, ledger := x10, bal := x11, life := x12 } = P s) :
    ∀ a0 s, P (commitSet a0 s) = P s := by
  have k0 := afterTime_keeps P (fun s y0 y1 y2 y3 y4 y5 y6 y7 y8 y9 => h s s.now s.tickAt y0 y1 y2 s.bkp y3 y4 y5 y6 y7 y8 y9)
  have k1 := loadCal_keeps P (fun s y0 y1 y2 => h s y0 y1 s.trustSeen s.out s.evt y2 s.jnv s.jnl s.prov s.roots s.ledger s.bal s.life)
  intro a0 s
  unfold commitSet
  try dsimp only
  repeat' first
    | with_reducible rfl
    | simp only [↓h, ↓k0, ↓k1, ↓apply_ite P, ite_self]
    | split
    | refine (foldl_keeps P _ ?_ _ _).trans ?_
    | intro _ _

theorem rtcYearWrite_keeps {β : Type} (P : State → β) (h : ∀ (s : State) x0 x1 x2 x3 x4 x5 x6 x7 x8 x9 x10 x11 x12, P { s with now := x0, tickAt := x1, trustSeen := x2, out := x3, evt := x4, bkp := x5, jnv := x6, jnl := x7, prov := x8, roots := x9, ledger := x10, bal := x11, life := x12 } = P s) :
    ∀ a0 s, P (rtcYearWrite a0 s) = P s := by
  have k0 := commitSet_keeps P (fun s y0 y1 y2 y3 y4 y5 y6 y7 y8 y9 y10 y11 y12 => h s y0 y1 y2 y3 y4 y5 y6 y7 y8 y9 y10 y11 y12)
  intro a0 s
  unfold rtcYearWrite
  try dsimp only
  repeat' first
    | with_reducible rfl
    | simp only [↓h, ↓k0, ↓apply_ite P, ite_self]
    | split
    | refine (foldl_keeps P _ ?_ _ _).trans ?_
    | intro _ _

theorem rtcStatWrite_keeps {β : Type} (P : State → β) (h : ∀ (s : State) x0, P { s with bkp := x0 } = P s) :
    ∀ a0 s, P (rtcStatWrite a0 s) = P s := by
  intro a0 s
  unfold rtcStatWrite
  try dsimp only
  repeat' first
    | with_reducible rfl
    | simp only [↓h, ↓apply_ite P, ite_self]
    | split
    | refine (foldl_keeps P _ ?_ _ _).trans ?_
    | intro _ _

theorem rtcRegWrite_keeps {β : Type} (P : State → β) (h : ∀ (s : State) x0 x1 x2 x3 x4 x5 x6 x7 x8 x9 x10 x11 x12, P { s with now := x0, tickAt := x1, trustSeen := x2, out := x3, evt := x4, bkp := x5, jnv := x6, jnl := x7, prov := x8, roots := x9, ledger := x10, bal := x11, life := x12 } = P s) :
    ∀ a0 a1 s, P (rtcRegWrite a0 a1 s) = P s := by
  have k0 := rtcStatWrite_keeps P (fun s y0 => h s s.now s.tickAt s.trustSeen s.out s.evt y0 s.jnv s.jnl s.prov s.roots s.ledger s.bal s.life)
  have k1 := rtcYearWrite_keeps P (fun s y0 y1 y2 y3 y4 y5 y6 y7 y8 y9 y10 y11 y12 => h s y0 y1 y2 y3 y4 y5 y6 y7 y8 y9 y10 y11 y12)
  intro a0 a1 s
  unfold rtcRegWrite
  try dsimp only
  repeat' first
    | with_reducible rfl
    | simp only [↓h, ↓k0, ↓k1, ↓apply_ite P, ite_self]
    | split
    | refine (foldl_keeps P _ ?_ _ _).trans ?_
    | intro _ _

theorem writeSetTimeout_keeps {β : Type} (P : State → β) (h : ∀ (s : State) x0 x1 x2, P { s with now := x0, mono := x1, bkp := x2 } = P s) :
    ∀ s, P (writeSetTimeout s) = P s := by
  have k0 := advMono_keeps P (fun s y0 y1 => h s y0 y1 s.bkp)
  intro s
  unfold writeSetTimeout
  try dsimp only
  repeat' first
    | with_reducible rfl
    | simp only [↓h, ↓k0, ↓apply_ite P, ite_self]
    | split
    | refine (foldl_keeps P _ ?_ _ _).trans ?_
    | intro _ _

theorem supplyToVbat_keeps {β : Type} (P : State → β) (h : ∀ (s : State) x0, P { s with bkp := x0 } = P s) :
    ∀ s, P (supplyToVbat s) = P s := by
  intro s
  unfold supplyToVbat
  try dsimp only
  repeat' first
    | with_reducible rfl
    | simp only [↓h, ↓apply_ite P, ite_self]
    | split
    | refine (foldl_keeps P _ ?_ _ _).trans ?_
    | intro _ _

theorem supplyToMain_keeps {β : Type} (P : State → β) (h : ∀ (s : State) x0, P { s with bkp := x0 } = P s) :
    ∀ s, P (supplyToMain s) = P s := by
  intro s
  unfold supplyToMain
  try dsimp only
  repeat' first
    | with_reducible rfl
    | simp only [↓h, ↓apply_ite P, ite_self]
    | split
    | refine (foldl_keeps P _ ?_ _ _).trans ?_
    | intro _ _

theorem lbvMeasure_keeps {β : Type} (P : State → β) (h : ∀ (s : State) x0 x1 x2 x3 x4, P { s with now := x0, mono := x1, out := x2, evt := x3, bkp := x4 } = P s) :
    ∀ a0 s, P (lbvMeasure a0 s) = P s := by
  have k0 := raiseIf_keeps P (fun s y0 y1 => h s s.now s.mono y0 y1 s.bkp)
  have k1 := roundAt_keeps P (fun s y0 y1 => h s y0 y1 s.out s.evt s.bkp)
  intro a0 s
  unfold lbvMeasure
  try dsimp only
  repeat' first
    | with_reducible rfl
    | simp only [↓h, ↓k0, ↓k1, ↓apply_ite P, ite_self]
    | split
    | refine (foldl_keeps P _ ?_ _ _).trans ?_
    | intro _ _

theorem retentionLoss_keeps {β : Type} (P : State → β) (h : ∀ (s : State) x0 x1 x2 x3, P { s with trustSeen := x0, out := x1, evt := x2, bkp := x3 } = P s) :
    ∀ s, P (retentionLoss s) = P s := by
  have k0 := noteTrust_keeps P (fun s y0 y1 y2 => h s y0 y1 y2 s.bkp)
  intro s
  unfold retentionLoss
  try dsimp only
  repeat' first
    | with_reducible rfl
    | simp only [↓h, ↓k0, ↓apply_ite P, ite_self]
    | split
    | refine (foldl_keeps P _ ?_ _ _).trans ?_
    | intro _ _

theorem oscStop_keeps {β : Type} (P : State → β) (h : ∀ (s : State) x0 x1 x2 x3, P { s with trustSeen := x0, out := x1, evt := x2, bkp := x3 } = P s) :
    ∀ s, P (oscStop s) = P s := by
  have k0 := noteTrust_keeps P (fun s y0 y1 y2 => h s y0 y1 y2 s.bkp)
  intro s
  unfold oscStop
  try dsimp only
  repeat' first
    | with_reducible rfl
    | simp only [↓h, ↓k0, ↓apply_ite P, ite_self]
    | split
    | refine (foldl_keeps P _ ?_ _ _).trans ?_
    | intro _ _

theorem porBkp_keeps {β : Type} (P : State → β) (h : ∀ (s : State) x0 x1 x2 x3, P { s with trustSeen := x0, out := x1, evt := x2, bkp := x3 } = P s) :
    ∀ s, P (porBkp s) = P s := by
  have k0 := noteTrust_keeps P (fun s y0 y1 y2 => h s y0 y1 y2 s.bkp)
  intro s
  unfold porBkp
  try dsimp only
  repeat' first
    | with_reducible rfl
    | simp only [↓h, ↓k0, ↓apply_ite P, ite_self]
    | split
    | refine (foldl_keeps P _ ?_ _ _).trans ?_
    | intro _ _

theorem tamperReport_keeps {β : Type} (P : State → β) (h : ∀ (s : State) x0 x1 x2 x3 x4, P { s with out := x0, evt := x1, bkp := x2, slate := x3, life := x4 } = P s) :
    ∀ a0 s, P (tamperReport a0 s) = P s := by
  have k0 := raise_keeps P (fun s y0 y1 => h s y0 y1 s.bkp s.slate s.life)
  have k1 := record_keeps P (fun s y0 y1 y2 y3 => h s y0 y1 y2 y3 s.life)
  intro a0 s
  unfold tamperReport
  try dsimp only
  repeat' first
    | with_reducible rfl
    | simp only [↓h, ↓k0, ↓k1, ↓apply_ite P, ite_self]
    | split
    | refine (foldl_keeps P _ ?_ _ _).trans ?_
    | intro _ _

theorem tamperActivation_keeps {β : Type} (P : State → β) (h : ∀ (s : State) x0 x1 x2 x3 x4, P { s with out := x0, evt := x1, bkp := x2, slate := x3, life := x4 } = P s) :
    ∀ a0 a1 s, P (tamperActivation a0 a1 s) = P s := by
  have k0 := tamperReport_keeps P (fun s y0 y1 y2 y3 y4 => h s y0 y1 y2 y3 y4)
  have k1 := wake_keeps P (fun s y0 => h s s.out s.evt y0 s.slate s.life)
  intro a0 a1 s
  unfold tamperActivation
  try dsimp only
  repeat' first
    | with_reducible rfl
    | simp only [↓h, ↓k0, ↓k1, ↓apply_ite P, ite_self]
    | split
    | refine (foldl_keeps P _ ?_ _ _).trans ?_
    | intro _ _

theorem reportTampers_keeps {β : Type} (P : State → β) (h : ∀ (s : State) x0 x1 x2 x3 x4, P { s with out := x0, evt := x1, bkp := x2, slate := x3, life := x4 } = P s) :
    ∀ s, P (reportTampers s) = P s := by
  have k0 := tamperReport_keeps P (fun s y0 y1 y2 y3 y4 => h s y0 y1 y2 y3 y4)
  intro s
  unfold reportTampers
  try dsimp only
  repeat' first
    | with_reducible rfl
    | simp only [↓h, ↓k0, ↓apply_ite P, ite_self]
    | split
    | refine (foldl_keeps P _ ?_ _ _).trans ?_
    | intro _ _

theorem sealChange_keeps {β : Type} (P : State → β) (h : ∀ (s : State) x0 x1 x2 x3 x4 x5 x6 x7 x8, P { s with out := x0, evt := x1, bkp := x2, jnv := x3, jnl := x4, prov := x5, roots := x6, slate := x7, life := x8 } = P s) :
    ∀ a0 s, P (sealChange a0 s) = P s := by
  have k0 := sealChanged_keeps P (fun s y0 y1 y2 y3 y4 y5 y6 y7 y8 => h s y0 y1 y2 y3 y4 y5 y6 y7 y8)
  intro a0 s
  unfold sealChange
  try dsimp only
  repeat' first
    | with_reducible rfl
    | simp only [↓h, ↓k0, ↓apply_ite P, ite_self]
    | split
    | refine (foldl_keeps P _ ?_ _ _).trans ?_
    | intro _ _

theorem pwronOff_keeps {β : Type} (P : State → β) (h : ∀ (s : State) x0 x1 x2, P { s with now := x0, mono := x1, bkp := x2 } = P s) :
    ∀ s, P (pwronOff s) = P s := by
  have k0 := advMono_keeps P (fun s y0 y1 => h s y0 y1 s.bkp)
  intro s
  unfold pwronOff
  try dsimp only
  repeat' first
    | with_reducible rfl
    | simp only [↓h, ↓k0, ↓apply_ite P, ite_self]
    | split
    | refine (foldl_keeps P _ ?_ _ _).trans ?_
    | intro _ _

theorem timeGet_keeps {β : Type} (P : State → β) :
    ∀ s, P (timeGet s).st = P s := by
  have k0 := replyOk_keeps P
  intro s
  unfold timeGet
  try dsimp only
  repeat' first
    | with_reducible rfl
    | simp only [↓k0, ↓apply_ite P, ite_self, Reply.st_done, Reply.st_pend, Reply.st_twice, Reply.st_wait, replyOk_st, refuse_st]
    | split
    | refine (foldl_keeps P _ ?_ _ _).trans ?_
    | intro _ _

theorem timeSet_keeps {β : Type} (P : State → β) (h : ∀ (s : State) x0 x1 x2 x3 x4 x5 x6 x7 x8 x9 x10 x11 x12 x13, P { s with now := x0, tickAt := x1, timeLoaded := x2, trustSeen := x3, out := x4, evt := x5, bkp := x6, jnv := x7, jnl := x8, prov := x9, roots := x10, ledger := x11, bal := x12, life := x13 } = P s) :
    ∀ a0 s, P (timeSet a0 s).st = P s := by
  have k0 := afterTime_keeps P (fun s y0 y1 y2 y3 y4 y5 y6 y7 y8 y9 => h s s.now s.tickAt s.timeLoaded y0 y1 y2 s.bkp y3 y4 y5 y6 y7 y8 y9)
  have k1 := commitOne_keeps P (fun s y0 y1 y2 y3 y4 y5 y6 => h s s.now s.tickAt s.timeLoaded s.trustSeen y0 y1 s.bkp y2 y3 y4 y5 s.ledger s.bal y6)
  have k2 := loadCal_keeps P (fun s y0 y1 y2 => h s y0 y1 s.timeLoaded s.trustSeen s.out s.evt y2 s.jnv s.jnl s.prov s.roots s.ledger s.bal s.life)
  have k3 := refuse_keeps P
  have k4 := replyOk_keeps P
  intro a0 s
  unfold timeSet
  try dsimp only
  repeat' first
    | with_reducible rfl
    | simp only [↓h, ↓k0, ↓k1, ↓k2, ↓k3, ↓k4, ↓apply_ite P, ite_self, Reply.st_done, Reply.st_pend, Reply.st_twice, Reply.st_wait, replyOk_st, refuse_st]
    | split
    | refine (foldl_keeps P _ ?_ _ _).trans ?_
    | intro _ _

theorem timeTrimSet_keeps {β : Type} (P : State → β) (h : ∀ (s : State) x0, P { s with bkp := x0 } = P s) :
    ∀ a0 s, P (timeTrimSet a0 s).st = P s := by
  have k0 := refuse_keeps P
  have k1 := replyOk_keeps P
  intro a0 s
  unfold timeTrimSet
  try dsimp only
  repeat' first
    | with_reducible rfl
    | simp only [↓h, ↓k0, ↓k1, ↓apply_ite P, ite_self, Reply.st_done, Reply.st_pend, Reply.st_twice, Reply.st_wait, replyOk_st, refuse_st]
    | split
    | refine (foldl_keeps P _ ?_ _ _).trans ?_
    | intro _ _

theorem alarmSet_keeps {β : Type} (P : State → β) (h : ∀ (s : State) x0, P { s with bkp := x0 } = P s) :
    ∀ a0 s, P (alarmSet a0 s).st = P s := by
  have k0 := refuse_keeps P
  have k1 := replyOk_keeps P
  intro a0 s
  unfold alarmSet
  try dsimp only
  repeat' first
    | with_reducible rfl
    | simp only [↓h, ↓k0, ↓k1, ↓apply_ite P, ite_self, Reply.st_done, Reply.st_pend, Reply.st_twice, Reply.st_wait, replyOk_st, refuse_st]
    | split
    | refine (foldl_keeps P _ ?_ _ _).trans ?_
    | intro _ _

theorem alarmGet_keeps {β : Type} (P : State → β) :
    ∀ a0 s, P (alarmGet a0 s).st = P s := by
  have k0 := refuse_keeps P
  have k1 := replyOk_keeps P
  intro a0 s
  unfold alarmGet
  try dsimp only
  repeat' first
    | with_reducible rfl
    | simp only [↓k0, ↓k1, ↓apply_ite P, ite_self, Reply.st_done, Reply.st_pend, Reply.st_twice, Reply.st_wait, replyOk_st, refuse_st]
    | split
    | refine (foldl_keeps P _ ?_ _ _).trans ?_
    | intro _ _

theorem powerOff_keeps {β : Type} (P : State → β) (h : ∀ (s : State) x0, P { s with bkp := x0 } = P s) :
    ∀ s, P (powerOff s).st = P s := by
  have k0 := refuse_keeps P
  have k1 := replyOk_keeps P
  intro s
  unfold powerOff
  try dsimp only
  repeat' first
    | with_reducible rfl
    | simp only [↓h, ↓k0, ↓k1, ↓apply_ite P, ite_self, Reply.st_done, Reply.st_pend, Reply.st_twice, Reply.st_wait, replyOk_st, refuse_st]
    | split
    | refine (foldl_keeps P _ ?_ _ _).trans ?_
    | intro _ _

theorem tamperCfgSet_keeps {β : Type} (P : State → β) (h : ∀ (s : State) x0, P { s with bkp := x0 } = P s) :
    ∀ a0 s, P (tamperCfgSet a0 s).st = P s := by
  have k0 := refuse_keeps P
  have k1 := replyOk_keeps P
  intro a0 s
  unfold tamperCfgSet
  try dsimp only
  repeat' first
    | with_reducible rfl
    | simp only [↓h, ↓k0, ↓k1, ↓apply_ite P, ite_self, Reply.st_done, Reply.st_pend, Reply.st_twice, Reply.st_wait, replyOk_st, refuse_st]
    | split
    | refine (foldl_keeps P _ ?_ _ _).trans ?_
    | intro _ _

theorem tamperGet_keeps {β : Type} (P : State → β) :
    ∀ s, P (tamperGet s).st = P s := by
  have k0 := replyOk_keeps P
  intro s
  unfold tamperGet
  try dsimp only
  repeat' first
    | with_reducible rfl
    | simp only [↓k0, ↓apply_ite P, ite_self, Reply.st_done, Reply.st_pend, Reply.st_twice, Reply.st_wait, replyOk_st, refuse_st]
    | split
    | refine (foldl_keeps P _ ?_ _ _).trans ?_
    | intro _ _

theorem tamperClear_keeps {β : Type} (P : State → β) (h : ∀ (s : State) x0 x1 x2 x3 x4, P { s with out := x0, evt := x1, bkp := x2, slate := x3, life := x4 } = P s) :
    ∀ a0 s, P (tamperClear a0 s).st = P s := by
  have k0 := record_keeps P (fun s y0 y1 y2 y3 => h s y0 y1 y2 y3 s.life)
  have k1 := refuse_keeps P
  have k2 := replyOk_keeps P
  intro a0 s
  unfold tamperClear
  try dsimp only
  repeat' first
    | with_reducible rfl
    | simp only [↓h, ↓k0, ↓k1, ↓k2, ↓apply_ite P, ite_self, Reply.st_done, Reply.st_pend, Reply.st_twice, Reply.st_wait, replyOk_st, refuse_st]
    | split
    | refine (foldl_keeps P _ ?_ _ _).trans ?_
    | intro _ _

theorem mirRefresh_keeps {β : Type} (P : State → β) (h : ∀ (s : State) x0, P { s with mir := x0 } = P s) :
    ∀ s, P (mirRefresh s) = P s := by
  intro s
  unfold mirRefresh
  try dsimp only
  repeat' first
    | with_reducible rfl
    | simp only [↓h, ↓apply_ite P, ite_self]
    | split
    | refine (foldl_keeps P _ ?_ _ _).trans ?_
    | intro _ _

theorem mirYearRead_keeps {β : Type} (P : State → β) (h : ∀ (s : State) x0 x1, P { s with glb := x0, mir := x1 } = P s) :
    ∀ s, P (mirYearRead s) = P s := by
  intro s
  unfold mirYearRead
  try dsimp only
  repeat' first
    | with_reducible rfl
    | simp only [↓h, ↓apply_ite P, ite_self]
    | split
    | refine (foldl_keeps P _ ?_ _ _).trans ?_
    | intro _ _

theorem mirCalRead_keeps {β : Type} (P : State → β) (h : ∀ (s : State) x0 x1, P { s with glb := x0, mir := x1 } = P s) :
    ∀ a0 s, P (mirCalRead a0 s) = P s := by
  have k0 := mirYearRead_keeps P (fun s y0 y1 => h s y0 y1)
  intro a0 s
  unfold mirCalRead
  try dsimp only
  repeat' first
    | with_reducible rfl
    | simp only [↓h, ↓k0, ↓apply_ite P, ite_self]
    | split
    | refine (foldl_keeps P _ ?_ _ _).trans ?_
    | intro _ _

theorem mirShadowTimeout_keeps {β : Type} (P : State → β) (h : ∀ (s : State) x0 x1 x2, P { s with now := x0, mono := x1, mir := x2 } = P s) :
    ∀ s, P (mirShadowTimeout s) = P s := by
  have k0 := advMono_keeps P (fun s y0 y1 => h s y0 y1 s.mir)
  intro s
  unfold mirShadowTimeout
  try dsimp only
  repeat' first
    | with_reducible rfl
    | simp only [↓h, ↓k0, ↓apply_ite P, ite_self]
    | split
    | refine (foldl_keeps P _ ?_ _ _).trans ?_
    | intro _ _

end Sys2Proof.Machine
end

