-- ==== Sys2Proof/Laws/KeepKeys.lean ====
section
/-! SUPPORT. What the functions of Machine/Keys.lean leave unchanged. -/

set_option linter.unusedSimpArgs false
set_option linter.unreachableTactic false
set_option linter.unusedTactic false

namespace Sys2Proof.Machine

theorem setSlot_keeps {β : Type} (P : State → β) (h : ∀ (s : State) x0, P { s with slots := x0 } = P s) :
    ∀ a0 a1 s, P (setSlot a0 a1 s) = P s := by
  intro a0 a1 s
  unfold setSlot
  try dsimp only
  repeat' first
    | with_reducible rfl
    | simp only [↓h, ↓apply_ite P, ite_self]
    | split
    | refine (foldl_keeps P _ ?_ _ _).trans ?_
    | intro _ _

theorem noteStuck_keeps {β : Type} (P : State → β) (h : ∀ (s : State) x0 x1 x2 x3 x4, P { s with out := x0, evt := x1, bkp := x2, keys := x3, slate := x4 } = P s) :
    ∀ s, P (noteStuck s) = P s := by
  have k0 := record_keeps P (fun s y0 y1 y2 y3 => h s y0 y1 y2 s.keys y3)
  intro s
  unfold noteStuck
  try dsimp only
  repeat' first
    | with_reducible rfl
    | simp only [↓h, ↓k0, ↓apply_ite P, ite_self]
    | split
    | refine (foldl_keeps P _ ?_ _ _).trans ?_
    | intro _ _

theorem emptySlot_keeps {β : Type} (P : State → β) (h : ∀ (s : State) x0 x1 x2 x3 x4 x5 x6, P { s with out := x0, evt := x1, bkp := x2, slots := x3, keys := x4, slate := x5, life := x6 } = P s) :
    ∀ a0 s, P (emptySlot a0 s) = P s := by
  have k0 := noteStuck_keeps P (fun s y0 y1 y2 y3 y4 => h s y0 y1 y2 s.slots y3 y4 s.life)
  have k1 := setSlot_keeps P (fun s y0 => h s s.out s.evt s.bkp y0 s.keys s.slate s.life)
  intro a0 s
  unfold emptySlot
  try dsimp only
  repeat' first
    | with_reducible rfl
    | simp only [↓h, ↓k0, ↓k1, ↓apply_ite P, ite_self]
    | split
    | refine (foldl_keeps P _ ?_ _ _).trans ?_
    | intro _ _

theorem destroySlot_keeps {β : Type} (P : State → β) (h : ∀ (s : State) x0 x1 x2 x3 x4 x5 x6, P { s with out := x0, evt := x1, bkp := x2, slots := x3, keys := x4, slate := x5, life := x6 } = P s) :
    ∀ a0 s, P (destroySlot a0 s).1 = P s := by
  have k0 := emptySlot_keeps P (fun s y0 y1 y2 y3 y4 y5 y6 => h s y0 y1 y2 y3 y4 y5 y6)
  have k1 := raiseIf_keeps P (fun s y0 y1 => h s y0 y1 s.bkp s.slots s.keys s.slate s.life)
  intro a0 s
  unfold destroySlot
  try dsimp only
  repeat' first
    | with_reducible rfl
    | simp only [↓h, ↓k0, ↓k1, ↓apply_ite P, ite_self]
    | split
    | refine (foldl_keeps P _ ?_ _ _).trans ?_
    | intro _ _

theorem useSlot_keeps {β : Type} (P : State → β) (h : ∀ (s : State) x0 x1 x2 x3 x4 x5 x6, P { s with out := x0, evt := x1, bkp := x2, slots := x3, keys := x4, slate := x5, life := x6 } = P s) :
    ∀ a0 a1 s, P (useSlot a0 a1 s).1 = P s := by
  have k0 := destroySlot_keeps P (fun s y0 y1 y2 y3 y4 y5 y6 => h s y0 y1 y2 y3 y4 y5 y6)
  have k1 := raise_keeps P (fun s y0 y1 => h s y0 y1 s.bkp s.slots s.keys s.slate s.life)
  have k2 := setSlot_keeps P (fun s y0 => h s s.out s.evt s.bkp y0 s.keys s.slate s.life)
  have q0 := fun b0 b1 t u (e : destroySlot b0 b1 = (t, u)) => (congrArg (fun z => P z.1) e).symm.trans (k0 b0 b1)
  intro a0 a1 s
  unfold useSlot
  try dsimp only
  repeat' first
    | with_reducible rfl
    | simp only [↓h, ↓k0, ↓k1, ↓k2, ↓apply_ite P, ite_self]
    | split
    | refine (q0 _ _ _ _ (by assumption)).trans ?_
    | refine (foldl_keeps P _ ?_ _ _).trans ?_
    | intro _ _

theorem authFailed_keeps {β : Type} (P : State → β) (h : ∀ (s : State) x0 x1 x2, P { s with out := x0, evt := x1, keys := x2 } = P s) :
    ∀ s, P (authFailed s) = P s := by
  have k0 := raiseIf_keeps P (fun s y0 y1 => h s y0 y1 s.keys)
  intro s
  unfold authFailed
  try dsimp only
  repeat' first
    | with_reducible rfl
    | simp only [↓h, ↓k0, ↓apply_ite P, ite_self]
    | split
    | refine (foldl_keeps P _ ?_ _ _).trans ?_
    | intro _ _

theorem signWith_keeps {β : Type} (P : State → β) (h : ∀ (s : State) x0 x1 x2 x3 x4 x5 x6 x7, P { s with freeCtr := x0, out := x1, evt := x2, bkp := x3, slots := x4, keys := x5, slate := x6, life := x7 } = P s) :
    ∀ a0 a1 s, P (signWith a0 a1 s).1 = P s := by
  have k0 := draw_keeps P (fun s y0 y1 => h s y0 s.out s.evt s.bkp s.slots y1 s.slate s.life)
  have k1 := useSlot_keeps P (fun s y0 y1 y2 y3 y4 y5 y6 => h s s.freeCtr y0 y1 y2 y3 y4 y5 y6)
  have q0 := fun b0 t u (e : draw b0 = (u, t)) => (congrArg (fun z => P z.2) e).symm.trans (k0 b0)
  have q1 := fun b0 b1 b2 t u (e : useSlot b0 b1 b2 = (t, u)) => (congrArg (fun z => P z.1) e).symm.trans (k1 b0 b1 b2)
  intro a0 a1 s
  unfold signWith
  try dsimp only
  repeat' first
    | with_reducible rfl
    | simp only [↓h, ↓k0, ↓k1, ↓apply_ite P, ite_self]
    | split
    | refine (q0 _ _ _ (by assumption)).trans ?_
    | refine (q1 _ _ _ _ _ (by assumption)).trans ?_
    | refine (foldl_keeps P _ ?_ _ _).trans ?_
    | intro _ _

theorem unwrapBlock_keeps {β : Type} (P : State → β) (h : ∀ (s : State) x0 x1 x2 x3 x4 x5 x6, P { s with out := x0, evt := x1, bkp := x2, slots := x3, keys := x4, slate := x5, life := x6 } = P s) :
    ∀ a0 a1 s, P (unwrapBlock a0 a1 s).1 = P s := by
  have k0 := authFailed_keeps P (fun s y0 y1 y2 => h s y0 y1 s.bkp s.slots y2 s.slate s.life)
  have k1 := useSlot_keeps P (fun s y0 y1 y2 y3 y4 y5 y6 => h s y0 y1 y2 y3 y4 y5 y6)
  have q1 := fun b0 b1 b2 t u (e : useSlot b0 b1 b2 = (t, u)) => (congrArg (fun z => P z.1) e).symm.trans (k1 b0 b1 b2)
  intro a0 a1 s
  unfold unwrapBlock
  try dsimp only
  repeat' first
    | with_reducible rfl
    | simp only [↓h, ↓k0, ↓k1, ↓apply_ite P, ite_self]
    | split
    | refine (q1 _ _ _ _ _ (by assumption)).trans ?_
    | refine (foldl_keeps P _ ?_ _ _).trans ?_
    | intro _ _

theorem qkLoad_keeps {β : Type} (P : State → β) (h : ∀ (s : State) x0 x1 x2 x3 x4 x5 x6, P { s with out := x0, evt := x1, bkp := x2, slots := x3, keys := x4, slate := x5, life := x6 } = P s) :
    ∀ a0 s, P (qkLoad a0 s).st = P s := by
  have k0 := authFailed_keeps P (fun s y0 y1 y2 => h s y0 y1 s.bkp s.slots y2 s.slate s.life)
  have k1 := noteStuck_keeps P (fun s y0 y1 y2 y3 y4 => h s y0 y1 y2 s.slots y3 y4 s.life)
  have k2 := refuse_keeps P
  have k3 := replyOk_keeps P
  have k4 := setSlot_keeps P (fun s y0 => h s s.out s.evt s.bkp y0 s.keys s.slate s.life)
  have k5 := unwrapBlock_keeps P (fun s y0 y1 y2 y3 y4 y5 y6 => h s y0 y1 y2 y3 y4 y5 y6)
  have q5 := fun b0 b1 b2 t u (e : unwrapBlock b0 b1 b2 = (t, u)) => (congrArg (fun z => P z.1) e).symm.trans (k5 b0 b1 b2)
  intro a0 s
  unfold qkLoad
  try dsimp only
  repeat' first
    | with_reducible rfl
    | simp only [↓h, ↓k0, ↓k1, ↓k2, ↓k3, ↓k4, ↓k5, ↓apply_ite P, ite_self, Reply.st_done, Reply.st_pend, Reply.st_twice, Reply.st_wait, replyOk_st, refuse_st]
    | split
    | refine (q5 _ _ _ _ _ (by assumption)).trans ?_
    | refine (foldl_keeps P _ ?_ _ _).trans ?_
    | intro _ _

theorem qkDerive_keeps {β : Type} (P : State → β) (h : ∀ (s : State) x0 x1 x2 x3 x4 x5 x6, P { s with out := x0, evt := x1, bkp := x2, slots := x3, keys := x4, slate := x5, life := x6 } = P s) :
    ∀ a0 s, P (qkDerive a0 s).st = P s := by
  have k0 := noteStuck_keeps P (fun s y0 y1 y2 y3 y4 => h s y0 y1 y2 s.slots y3 y4 s.life)
  have k1 := refuse_keeps P
  have k2 := replyOk_keeps P
  have k3 := setSlot_keeps P (fun s y0 => h s s.out s.evt s.bkp y0 s.keys s.slate s.life)
  have k4 := useSlot_keeps P (fun s y0 y1 y2 y3 y4 y5 y6 => h s y0 y1 y2 y3 y4 y5 y6)
  have q4 := fun b0 b1 b2 t u (e : useSlot b0 b1 b2 = (t, u)) => (congrArg (fun z => P z.1) e).symm.trans (k4 b0 b1 b2)
  intro a0 s
  unfold qkDerive
  try dsimp only
  repeat' first
    | with_reducible rfl
    | simp only [↓h, ↓k0, ↓k1, ↓k2, ↓k3, ↓k4, ↓apply_ite P, ite_self, Reply.st_done, Reply.st_pend, Reply.st_twice, Reply.st_wait, replyOk_st, refuse_st]
    | split
    | refine (q4 _ _ _ _ _ (by assumption)).trans ?_
    | refine (foldl_keeps P _ ?_ _ _).trans ?_
    | intro _ _

theorem qkGenerate_keeps {β : Type} (P : State → β) (h : ∀ (s : State) x0 x1 x2 x3 x4 x5 x6, P { s with freeCtr := x0, out := x1, evt := x2, bkp := x3, slots := x4, keys := x5, slate := x6 } = P s) :
    ∀ a0 s, P (qkGenerate a0 s).st = P s := by
  have k0 := draw_keeps P (fun s y0 y1 => h s y0 s.out s.evt s.bkp s.slots y1 s.slate)
  have k1 := noteStuck_keeps P (fun s y0 y1 y2 y3 y4 => h s s.freeCtr y0 y1 y2 s.slots y3 y4)
  have k2 := recordFault_keeps P (fun s y0 y1 y2 y3 y4 => h s y0 y1 y2 y3 s.slots s.keys y4)
  have k3 := refuse_keeps P
  have k4 := replyOk_keeps P
  have k5 := setSlot_keeps P (fun s y0 => h s s.freeCtr s.out s.evt s.bkp y0 s.keys s.slate)
  have q0 := fun b0 t u (e : draw b0 = (u, t)) => (congrArg (fun z => P z.2) e).symm.trans (k0 b0)
  have q2 := fun b0 b1 b2 t u (e : recordFault b0 b1 b2 = (u, t)) => (congrArg (fun z => P z.2) e).symm.trans (k2 b0 b1 b2)
  intro a0 s
  unfold qkGenerate
  try dsimp only
  repeat' first
    | with_reducible rfl
    | simp only [↓h, ↓k0, ↓k1, ↓k2, ↓k3, ↓k4, ↓k5, ↓apply_ite P, ite_self, Reply.st_done, Reply.st_pend, Reply.st_twice, Reply.st_wait, replyOk_st, refuse_st]
    | split
    | refine (q0 _ _ _ (by assumption)).trans ?_
    | refine (q2 _ _ _ _ _ (by assumption)).trans ?_
    | refine (foldl_keeps P _ ?_ _ _).trans ?_
    | intro _ _

theorem qkDestroy_keeps {β : Type} (P : State → β) (h : ∀ (s : State) x0 x1 x2 x3 x4 x5 x6, P { s with out := x0, evt := x1, bkp := x2, slots := x3, keys := x4, slate := x5, life := x6 } = P s) :
    ∀ a0 s, P (qkDestroy a0 s).st = P s := by
  have k0 := destroySlot_keeps P (fun s y0 y1 y2 y3 y4 y5 y6 => h s y0 y1 y2 y3 y4 y5 y6)
  have k1 := refuse_keeps P
  have k2 := replyOk_keeps P
  have q0 := fun b0 b1 t u (e : destroySlot b0 b1 = (t, u)) => (congrArg (fun z => P z.1) e).symm.trans (k0 b0 b1)
  intro a0 s
  unfold qkDestroy
  try dsimp only
  repeat' first
    | with_reducible rfl
    | simp only [↓h, ↓k0, ↓k1, ↓k2, ↓apply_ite P, ite_self, Reply.st_done, Reply.st_pend, Reply.st_twice, Reply.st_wait, replyOk_st, refuse_st]
    | split
    | refine (q0 _ _ _ _ (by assumption)).trans ?_
    | refine (foldl_keeps P _ ?_ _ _).trans ?_
    | intro _ _

theorem qkSlotGet_keeps {β : Type} (P : State → β) :
    ∀ a0 s, P (qkSlotGet a0 s).st = P s := by
  have k0 := refuse_keeps P
  have k1 := replyOk_keeps P
  intro a0 s
  unfold qkSlotGet
  try dsimp only
  repeat' first
    | with_reducible rfl
    | simp only [↓k0, ↓k1, ↓apply_ite P, ite_self, Reply.st_done, Reply.st_pend, Reply.st_twice, Reply.st_wait, replyOk_st, refuse_st]
    | split
    | refine (foldl_keeps P _ ?_ _ _).trans ?_
    | intro _ _

theorem checkBlobs_keeps {β : Type} (P : State → β) (h : ∀ (s : State) x0 x1 x2 x3 x4 x5 x6, P { s with out := x0, evt := x1, bkp := x2, slots := x3, keys := x4, slate := x5, life := x6 } = P s) :
    ∀ a0 a1 a2 s, P (checkBlobs a0 a1 a2 s).1 = P s := by
  have k0 := useSlot_keeps P (fun s y0 y1 y2 y3 y4 y5 y6 => h s y0 y1 y2 y3 y4 y5 y6)
  have q0 := fun b0 b1 b2 t u (e : useSlot b0 b1 b2 = (t, u)) => (congrArg (fun z => P z.1) e).symm.trans (k0 b0 b1 b2)
  intro a0 a1 a2 s
  fun_induction checkBlobs a0 a1 a2 s
  all_goals
    repeat' first
      | with_reducible rfl
      | simp +zetaDelta only [↓h, ↓k0, ↓apply_ite P, ite_self, *]
      | split
      | refine (q0 _ _ _ _ _ (by assumption)).trans ?_
      | refine (foldl_keeps P _ ?_ _ _).trans ?_
      | intro _ _

theorem putBlob_keeps {β : Type} (P : State → β) (h : ∀ (s : State) x0 x1, P { s with eps := x0, blobs := x1 } = P s) :
    ∀ a0 a1 s, P (putBlob a0 a1 s) = P s := by
  have k0 := noteEp_keeps P (fun s y0 => h s y0 s.blobs)
  intro a0 a1 s
  unfold putBlob
  try dsimp only
  repeat' first
    | with_reducible rfl
    | simp only [↓h, ↓k0, ↓apply_ite P, ite_self]
    | split
    | refine (foldl_keeps P _ ?_ _ _).trans ?_
    | intro _ _

theorem qkEpLoad_keeps {β : Type} (P : State → β) (h : ∀ (s : State) x0 x1 x2 x3 x4 x5 x6 x7 x8, P { s with out := x0, evt := x1, bkp := x2, eps := x3, blobs := x4, slots := x5, keys := x6, slate := x7, life := x8 } = P s) :
    ∀ a0 s, P (qkEpLoad a0 s).st = P s := by
  have k0 := authFailed_keeps P (fun s y0 y1 y2 => h s y0 y1 s.bkp s.eps s.blobs s.slots y2 s.slate s.life)
  have k1 := checkBlobs_keeps P (fun s y0 y1 y2 y3 y4 y5 y6 => h s y0 y1 y2 s.eps s.blobs y3 y4 y5 y6)
  have k2 := putBlob_keeps P (fun s y0 y1 => h s s.out s.evt s.bkp y0 y1 s.slots s.keys s.slate s.life)
  have k3 := refuse_keeps P
  have k4 := replyOk_keeps P
  have q1 := fun b0 b1 b2 b3 t u (e : checkBlobs b0 b1 b2 b3 = (t, u)) => (congrArg (fun z => P z.1) e).symm.trans (k1 b0 b1 b2 b3)
  intro a0 s
  unfold qkEpLoad
  try dsimp only
  repeat' first
    | with_reducible rfl
    | simp only [↓h, ↓k0, ↓k1, ↓k2, ↓k3, ↓k4, ↓apply_ite P, ite_self, Reply.st_done, Reply.st_pend, Reply.st_twice, Reply.st_wait, replyOk_st, refuse_st]
    | split
    | refine (q1 _ _ _ _ _ _ (by assumption)).trans ?_
    | refine (foldl_keeps P _ ?_ _ _).trans ?_
    | intro _ _

theorem qkEpClear_keeps {β : Type} (P : State → β) (h : ∀ (s : State) x0 x1, P { s with eps := x0, blobs := x1 } = P s) :
    ∀ a0 s, P (qkEpClear a0 s).st = P s := by
  have k0 := noteEp_keeps P (fun s y0 => h s y0 s.blobs)
  have k1 := refuse_keeps P
  have k2 := replyOk_keeps P
  intro a0 s
  unfold qkEpClear
  try dsimp only
  repeat' first
    | with_reducible rfl
    | simp only [↓h, ↓k0, ↓k1, ↓k2, ↓apply_ite P, ite_self, Reply.st_done, Reply.st_pend, Reply.st_twice, Reply.st_wait, replyOk_st, refuse_st]
    | split
    | refine (foldl_keeps P _ ?_ _ _).trans ?_
    | intro _ _

theorem qkRewrap_keeps {β : Type} (P : State → β) (h : ∀ (s : State) x0 x1, P { s with keys := x0, maint := x1 } = P s) :
    ∀ a0 a1 s, P (qkRewrap a0 a1 s).st = P s := by
  have k0 := giveToken_keeps P (fun s y0 => h s s.keys y0)
  have k1 := refuse_keeps P
  intro a0 a1 s
  unfold qkRewrap
  try dsimp only
  repeat' first
    | with_reducible rfl
    | simp only [↓h, ↓k0, ↓k1, ↓apply_ite P, ite_self, Reply.st_done, Reply.st_pend, Reply.st_twice, Reply.st_wait, replyOk_st, refuse_st]
    | split
    | refine (foldl_keeps P _ ?_ _ _).trans ?_
    | intro _ _

theorem rewrapEnd_keeps {β : Type} (P : State → β) (h : ∀ (s : State) x0 x1 x2 x3 x4 x5 x6 x7, P { s with out := x0, mbxs := x1, ops := x2, evt := x3, bkp := x4, keys := x5, slate := x6, maint := x7 } = P s) :
    ∀ a0 s, P (rewrapEnd a0 s) = P s := by
  have k0 := dropToken_keeps P (fun s y0 => h s s.out s.mbxs s.ops s.evt s.bkp s.keys s.slate y0)
  have k1 := finishOp_keeps P (fun s y0 y1 y2 y3 y4 y5 => h s y0 y1 y2 y3 y4 s.keys y5 s.maint)
  have k2 := raise_keeps P (fun s y0 y1 => h s y0 s.mbxs s.ops y1 s.bkp s.keys s.slate s.maint)
  intro a0 s
  unfold rewrapEnd
  try dsimp only
  repeat' first
    | with_reducible rfl
    | simp only [↓h, ↓k0, ↓k1, ↓k2, ↓apply_ite P, ite_self]
    | split
    | refine (foldl_keeps P _ ?_ _ _).trans ?_
    | intro _ _

theorem rewrapNext_keeps {β : Type} (P : State → β) (h : ∀ (s : State) x0, P { s with keys := x0 } = P s) :
    ∀ a0 a1 a2 s, P (rewrapNext a0 a1 a2 s) = P s := by
  intro a0 a1 a2 s
  unfold rewrapNext
  try dsimp only
  repeat' first
    | with_reducible rfl
    | simp only [↓h, ↓apply_ite P, ite_self]
    | split
    | refine (foldl_keeps P _ ?_ _ _).trans ?_
    | intro _ _

theorem rewrapBlob_keeps {β : Type} (P : State → β) (h : ∀ (s : State) x0 x1 x2 x3 x4 x5 x6 x7 x8 x9 x10 x11, P { s with out := x0, mbxs := x1, ops := x2, evt := x3, bkp := x4, eps := x5, blobs := x6, slots := x7, keys := x8, slate := x9, life := x10, maint := x11 } = P s) :
    ∀ a0 a1 a2 s, P (rewrapBlob a0 a1 a2 s) = P s := by
  have k0 := authFailed_keeps P (fun s y0 y1 y2 => h s y0 s.mbxs s.ops y1 s.bkp s.eps s.blobs s.slots y2 s.slate s.life s.maint)
  have k1 := putBlob_keeps P (fun s y0 y1 => h s s.out s.mbxs s.ops s.evt s.bkp y0 y1 s.slots s.keys s.slate s.life s.maint)
  have k2 := rewrapEnd_keeps P (fun s y0 y1 y2 y3 y4 y5 y6 y7 => h s y0 y1 y2 y3 y4 s.eps s.blobs s.slots y5 y6 s.life y7)
  have k3 := rewrapNext_keeps P (fun s y0 => h s s.out s.mbxs s.ops s.evt s.bkp s.eps s.blobs s.slots y0 s.slate s.life s.maint)
  have k4 := useSlot_keeps P (fun s y0 y1 y2 y3 y4 y5 y6 => h s y0 s.mbxs s.ops y1 y2 s.eps s.blobs y3 y4 y5 y6 s.maint)
  have q4 := fun b0 b1 b2 t u (e : useSlot b0 b1 b2 = (t, u)) => (congrArg (fun z => P z.1) e).symm.trans (k4 b0 b1 b2)
  intro a0 a1 a2 s
  unfold rewrapBlob
  try dsimp only
  repeat' first
    | with_reducible rfl
    | simp only [↓h, ↓k0, ↓k1, ↓k2, ↓k3, ↓k4, ↓apply_ite P, ite_self]
    | split
    | refine (q4 _ _ _ _ _ (by assumption)).trans ?_
    | refine (foldl_keeps P _ ?_ _ _).trans ?_
    | intro _ _

theorem rewrapWalk_keeps {β : Type} (P : State → β) (h : ∀ (s : State) x0 x1 x2 x3 x4 x5 x6 x7 x8 x9 x10 x11 x12 x13, P { s with now := x0, mono := x1, out := x2, mbxs := x3, ops := x4, evt := x5, bkp := x6, eps := x7, blobs := x8, slots := x9, keys := x10, slate := x11, life := x12, maint := x13 } = P s) :
    ∀ s, P (rewrapWalk s) = P s := by
  have k0 := advMono_keeps P (fun s y0 y1 => h s y0 y1 s.out s.mbxs s.ops s.evt s.bkp s.eps s.blobs s.slots s.keys s.slate s.life s.maint)
  have k1 := rewrapBlob_keeps P (fun s y0 y1 y2 y3 y4 y5 y6 y7 y8 y9 y10 y11 => h s s.now s.mono y0 y1 y2 y3 y4 y5 y6 y7 y8 y9 y10 y11)
  have k2 := rewrapEnd_keeps P (fun s y0 y1 y2 y3 y4 y5 y6 y7 => h s s.now s.mono y0 y1 y2 y3 y4 s.eps s.blobs s.slots y5 y6 s.life y7)
  intro s
  unfold rewrapWalk
  try dsimp only
  repeat' first
    | with_reducible rfl
    | simp only [↓h, ↓k0, ↓k1, ↓k2, ↓apply_ite P, ite_self]
    | split
    | refine (foldl_keeps P _ ?_ _ _).trans ?_
    | intro _ _

theorem qkAttest_keeps {β : Type} (P : State → β) (h : ∀ (s : State) x0 x1 x2 x3 x4 x5 x6 x7, P { s with freeCtr := x0, out := x1, evt := x2, bkp := x3, slots := x4, keys := x5, slate := x6, life := x7 } = P s) :
    ∀ a0 s, P (qkAttest a0 s).st = P s := by
  have k0 := refuse_keeps P
  have k1 := replyOk_keeps P
  have k2 := signWith_keeps P (fun s y0 y1 y2 y3 y4 y5 y6 y7 => h s y0 y1 y2 y3 y4 y5 y6 y7)
  have q2 := fun b0 b1 b2 t u (e : signWith b0 b1 b2 = (t, u)) => (congrArg (fun z => P z.1) e).symm.trans (k2 b0 b1 b2)
  intro a0 s
  unfold qkAttest
  try dsimp only
  repeat' first
    | with_reducible rfl
    | simp only [↓h, ↓k0, ↓k1, ↓k2, ↓apply_ite P, ite_self, Reply.st_done, Reply.st_pend, Reply.st_twice, Reply.st_wait, replyOk_st, refuse_st]
    | split
    | refine (q2 _ _ _ _ _ (by assumption)).trans ?_
    | refine (foldl_keeps P _ ?_ _ _).trans ?_
    | intro _ _

theorem qkCertGet_keeps {β : Type} (P : State → β) :
    ∀ a0 s, P (qkCertGet a0 s).st = P s := by
  have k0 := refuse_keeps P
  have k1 := replyOk_keeps P
  intro a0 s
  unfold qkCertGet
  try dsimp only
  repeat' first
    | with_reducible rfl
    | simp only [↓k0, ↓k1, ↓apply_ite P, ite_self, Reply.st_done, Reply.st_pend, Reply.st_twice, Reply.st_wait, replyOk_st, refuse_st]
    | split
    | refine (foldl_keeps P _ ?_ _ _).trans ?_
    | intro _ _

theorem drawKdir_keeps {β : Type} (P : State → β) (h : ∀ (s : State) x0 x1 x2, P { s with freeCtr := x0, dir := x1, keys := x2 } = P s) :
    ∀ s, P (drawKdir s) = P s := by
  have k0 := draw_keeps P (fun s y0 y1 => h s y0 s.dir y1)
  have q0 := fun b0 t u (e : draw b0 = (u, t)) => (congrArg (fun z => P z.2) e).symm.trans (k0 b0)
  intro s
  unfold drawKdir
  try dsimp only
  repeat' first
    | with_reducible rfl
    | simp only [↓h, ↓k0, ↓apply_ite P, ite_self]
    | split
    | refine (q0 _ _ _ (by assumption)).trans ?_
    | refine (foldl_keeps P _ ?_ _ _).trans ?_
    | intro _ _

theorem reseedTime_keeps {β : Type} (P : State → β) (h : ∀ (s : State) x0 x1 x2, P { s with now := x0, mono := x1, keys := x2 } = P s) :
    ∀ s, P (reseedTime s) = P s := by
  have k0 := roundAt_keeps P (fun s y0 y1 => h s y0 y1 s.keys)
  intro s
  unfold reseedTime
  try dsimp only
  repeat' first
    | with_reducible rfl
    | simp only [↓h, ↓k0, ↓apply_ite P, ite_self]
    | split
    | refine (foldl_keeps P _ ?_ _ _).trans ?_
    | intro _ _

theorem drbgReseed_keeps {β : Type} (P : State → β) (h : ∀ (s : State) x0 x1 x2 x3 x4 x5 x6 x7 x8, P { s with now := x0, mono := x1, freeCtr := x2, out := x3, evt := x4, bkp := x5, dir := x6, keys := x7, slate := x8 } = P s) :
    ∀ a0 s, P (drbgReseed a0 s) = P s := by
  have k0 := drawKdir_keeps P (fun s y0 y1 y2 => h s s.now s.mono y0 s.out s.evt s.bkp y1 y2 s.slate)
  have k1 := raise_keeps P (fun s y0 y1 => h s s.now s.mono s.freeCtr y0 y1 s.bkp s.dir s.keys s.slate)
  have k2 := raiseIf_keeps P (fun s y0 y1 => h s s.now s.mono s.freeCtr y0 y1 s.bkp s.dir s.keys s.slate)
  have k3 := record_keeps P (fun s y0 y1 y2 y3 => h s s.now s.mono s.freeCtr y0 y1 y2 s.dir s.keys y3)
  have k4 := reseedTime_keeps P (fun s y0 y1 y2 => h s y0 y1 s.freeCtr s.out s.evt s.bkp s.dir y2 s.slate)
  intro a0 s
  unfold drbgReseed
  try dsimp only
  repeat' first
    | with_reducible rfl
    | simp only [↓h, ↓k0, ↓k1, ↓k2, ↓k3, ↓k4, ↓apply_ite P, ite_self]
    | split
    | refine (foldl_keeps P _ ?_ _ _).trans ?_
    | intro _ _

theorem expireSlots_keeps {β : Type} (P : State → β) (h : ∀ (s : State) x0 x1 x2 x3 x4 x5 x6, P { s with out := x0, evt := x1, bkp := x2, slots := x3, keys := x4, slate := x5, life := x6 } = P s) :
    ∀ s, P (expireSlots s) = P s := by
  have k0 := destroySlot_keeps P (fun s y0 y1 y2 y3 y4 y5 y6 => h s y0 y1 y2 y3 y4 y5 y6)
  have q0 := fun b0 b1 t u (e : destroySlot b0 b1 = (t, u)) => (congrArg (fun z => P z.1) e).symm.trans (k0 b0 b1)
  intro s
  unfold expireSlots
  try dsimp only
  repeat' first
    | with_reducible rfl
    | simp only [↓h, ↓k0, ↓apply_ite P, ite_self]
    | split
    | refine (q0 _ _ _ _ (by assumption)).trans ?_
    | refine (foldl_keeps P _ ?_ _ _).trans ?_
    | intro _ _

theorem coldSlots_keeps {β : Type} (P : State → β) (h : ∀ (s : State) x0 x1 x2 x3 x4 x5 x6, P { s with out := x0, evt := x1, bkp := x2, slots := x3, keys := x4, slate := x5, life := x6 } = P s) :
    ∀ s, P (coldSlots s) = P s := by
  have k0 := noteStuck_keeps P (fun s y0 y1 y2 y3 y4 => h s y0 y1 y2 s.slots y3 y4 s.life)
  intro s
  unfold coldSlots
  try dsimp only
  repeat' first
    | with_reducible rfl
    | simp only [↓h, ↓k0, ↓apply_ite P, ite_self]
    | split
    | refine (foldl_keeps P _ ?_ _ _).trans ?_
    | intro _ _

end Sys2Proof.Machine
end

