-- ==== Sys2Proof/Laws/KeepQueue.lean ====
section
/-! SUPPORT. What the functions of Machine/Queue.lean leave unchanged. -/

set_option linter.unusedSimpArgs false
set_option linter.unreachableTactic false
set_option linter.unusedTactic false

namespace Sys2Proof.Machine

theorem setLane_keeps {β : Type} (P : State → β) (h : ∀ (s : State) x0, P { s with lanes := x0 } = P s) :
    ∀ a0 a1 s, P (setLane a0 a1 s) = P s := by
  intro a0 a1 s
  unfold setLane
  try dsimp only
  repeat' first
    | with_reducible rfl
    | simp only [↓h, ↓apply_ite P, ite_self]
    | split
    | refine (foldl_keeps P _ ?_ _ _).trans ?_
    | intro _ _

theorem setPlc_keeps {β : Type} (P : State → β) (h : ∀ (s : State) x0, P { s with plc := x0 } = P s) :
    ∀ a0 a1 s, P (setPlc a0 a1 s) = P s := by
  intro a0 a1 s
  unfold setPlc
  try dsimp only
  repeat' first
    | with_reducible rfl
    | simp only [↓h, ↓apply_ite P, ite_self]
    | split
    | refine (foldl_keeps P _ ?_ _ _).trans ?_
    | intro _ _

theorem setFtq_keeps {β : Type} (P : State → β) (h : ∀ (s : State) x0 x1, P { s with lanes := x0, plc := x1 } = P s) :
    ∀ a0 a1 s, P (setFtq a0 a1 s) = P s := by
  have k0 := setLane_keeps P (fun s y0 => h s y0 s.plc)
  have k1 := setPlc_keeps P (fun s y0 => h s s.lanes y0)
  intro a0 a1 s
  unfold setFtq
  try dsimp only
  repeat' first
    | with_reducible rfl
    | simp only [↓h, ↓k0, ↓k1, ↓apply_ite P, ite_self]
    | split
    | refine (foldl_keeps P _ ?_ _ _).trans ?_
    | intro _ _

theorem queuePush_keeps {β : Type} (P : State → β) (h : ∀ (s : State) x0 x1, P { s with lanes := x0, plc := x1 } = P s) :
    ∀ a0 a1 a2 a3 s, P (queuePush a0 a1 a2 a3 s) = P s := by
  have k0 := setFtq_keeps P (fun s y0 y1 => h s y0 y1)
  intro a0 a1 a2 a3 s
  unfold queuePush
  try dsimp only
  repeat' first
    | with_reducible rfl
    | simp only [↓h, ↓k0, ↓apply_ite P, ite_self]
    | split
    | refine (foldl_keeps P _ ?_ _ _).trans ?_
    | intro _ _

theorem queueDoom_keeps {β : Type} (P : State → β) (h : ∀ (s : State) x0 x1, P { s with lanes := x0, plc := x1 } = P s) :
    ∀ a0 s, P (queueDoom a0 s) = P s := by
  have k0 := setFtq_keeps P (fun s y0 y1 => h s y0 y1)
  intro a0 s
  unfold queueDoom
  try dsimp only
  repeat' first
    | with_reducible rfl
    | simp only [↓h, ↓k0, ↓apply_ite P, ite_self]
    | split
    | refine (foldl_keeps P _ ?_ _ _).trans ?_
    | intro _ _

theorem queueRead_keeps {β : Type} (P : State → β) (h : ∀ (s : State) x0 x1, P { s with lanes := x0, plc := x1 } = P s) :
    ∀ a0 s, P (queueRead a0 s) = P s := by
  have k0 := setFtq_keeps P (fun s y0 y1 => h s y0 y1)
  intro a0 s
  unfold queueRead
  try dsimp only
  repeat' first
    | with_reducible rfl
    | simp only [↓h, ↓k0, ↓apply_ite P, ite_self]
    | split
    | refine (foldl_keeps P _ ?_ _ _).trans ?_
    | intro _ _

theorem dropRest_keeps {β : Type} (P : State → β) (h : ∀ (s : State) x0 x1, P { s with lanes := x0, plc := x1 } = P s) :
    ∀ a0 s, P (dropRest a0 s) = P s := by
  have k0 := setFtq_keeps P (fun s y0 y1 => h s y0 y1)
  intro a0 s
  unfold dropRest
  try dsimp only
  repeat' first
    | with_reducible rfl
    | simp only [↓h, ↓k0, ↓apply_ite P, ite_self]
    | split
    | refine (foldl_keeps P _ ?_ _ _).trans ?_
    | intro _ _

theorem noticePop_keeps {β : Type} (P : State → β) (h : ∀ (s : State) x0 x1, P { s with lanes := x0, plc := x1 } = P s) :
    ∀ a0 s, P (noticePop a0 s) = P s := by
  have k0 := setFtq_keeps P (fun s y0 y1 => h s y0 y1)
  intro a0 s
  unfold noticePop
  try dsimp only
  repeat' first
    | with_reducible rfl
    | simp only [↓h, ↓k0, ↓apply_ite P, ite_self]
    | split
    | refine (foldl_keeps P _ ?_ _ _).trans ?_
    | intro _ _

end Sys2Proof.Machine
end

