-- ==== Sys2Proof/Laws/KeepReception.lean ====
section
/-! SUPPORT. What the functions of Machine/Reception.lean leave unchanged. -/

set_option linter.unusedSimpArgs false
set_option linter.unreachableTactic false
set_option linter.unusedTactic false

namespace Sys2Proof.Machine

theorem setRf_keeps {β : Type} (P : State → β) (h : ∀ (s : State) x0, P { s with rf := x0 } = P s) :
    ∀ a0 a1 s, P (setRf a0 a1 s) = P s := by
  intro a0 a1 s
  unfold setRf
  try dsimp only
  repeat' first
    | with_reducible rfl
    | simp only [↓h, ↓apply_ite P, ite_self]
    | split
    | refine (foldl_keeps P _ ?_ _ _).trans ?_
    | intro _ _

theorem laneOverflow_keeps {β : Type} (P : State → β) (h : ∀ (s : State) x0, P { s with lanes := x0 } = P s) :
    ∀ a0 s, P (laneOverflow a0 s) = P s := by
  have k0 := setLane_keeps P (fun s y0 => h s y0)
  intro a0 s
  unfold laneOverflow
  try dsimp only
  repeat' first
    | with_reducible rfl
    | simp only [↓h, ↓k0, ↓apply_ite P, ite_self]
    | split
    | refine (foldl_keeps P _ ?_ _ _).trans ?_
    | intro _ _

theorem pushTrailers_keeps {β : Type} (P : State → β) (h : ∀ (s : State) x0, P { s with lanes := x0 } = P s) :
    ∀ a0 a1 a2 s, P (pushTrailers a0 a1 a2 s) = P s := by
  have k0 := setLane_keeps P (fun s y0 => h s y0)
  intro a0 a1 a2 s
  unfold pushTrailers
  try dsimp only
  repeat' first
    | with_reducible rfl
    | simp only [↓h, ↓k0, ↓apply_ite P, ite_self]
    | split
    | refine (foldl_keeps P _ ?_ _ _).trans ?_
    | intro _ _

theorem openMeasures_keeps {β : Type} (P : State → β) (h : ∀ (s : State) x0, P { s with freeCtr := x0 } = P s) :
    ∀ a0 s, P (openMeasures a0 s).2 = P s := by
  have k0 := fresh_keeps P (fun s y0 => h s y0)
  have q0 := fun b0 t u (e : fresh b0 = (u, t)) => (congrArg (fun z => P z.2) e).symm.trans (k0 b0)
  intro a0 s
  unfold openMeasures
  try dsimp only
  repeat' first
    | with_reducible rfl
    | simp only [↓h, ↓k0, ↓apply_ite P, ite_self]
    | split
    | refine (q0 _ _ _ (by assumption)).trans ?_
    | refine (foldl_keeps P _ ?_ _ _).trans ?_
    | intro _ _

theorem laneEarly_keeps {β : Type} (P : State → β) (h : ∀ (s : State) x0 x1, P { s with freeCtr := x0, lanes := x1 } = P s) :
    ∀ a0 a1 s, P (laneEarly a0 a1 s) = P s := by
  have k0 := laneOverflow_keeps P (fun s y0 => h s s.freeCtr y0)
  have k1 := openMeasures_keeps P (fun s y0 => h s y0 s.lanes)
  have k2 := pushTrailers_keeps P (fun s y0 => h s s.freeCtr y0)
  have k3 := setLane_keeps P (fun s y0 => h s s.freeCtr y0)
  have q1 := fun b0 b1 t u (e : openMeasures b0 b1 = (u, t)) => (congrArg (fun z => P z.2) e).symm.trans (k1 b0 b1)
  intro a0 a1 s
  unfold laneEarly
  try dsimp only
  repeat' first
    | with_reducible rfl
    | simp only [↓h, ↓k0, ↓k1, ↓k2, ↓k3, ↓apply_ite P, ite_self]
    | split
    | refine (q1 _ _ _ _ (by assumption)).trans ?_
    | refine (foldl_keeps P _ ?_ _ _).trans ?_
    | intro _ _

theorem portDown_keeps {β : Type} (P : State → β) (h : ∀ (s : State) x0 x1 x2 x3 x4, P { s with freeCtr := x0, out := x1, evt := x2, rf := x3, lanes := x4 } = P s) :
    ∀ a0 s, P (portDown a0 s) = P s := by
  have k0 := laneEarly_keeps P (fun s y0 y1 => h s y0 s.out s.evt s.rf y1)
  have k1 := raise_keeps P (fun s y0 y1 => h s s.freeCtr y0 y1 s.rf s.lanes)
  have k2 := setRf_keeps P (fun s y0 => h s s.freeCtr s.out s.evt y0 s.lanes)
  intro a0 s
  unfold portDown
  try dsimp only
  repeat' first
    | with_reducible rfl
    | simp only [↓h, ↓k0, ↓k1, ↓k2, ↓apply_ite P, ite_self]
    | split
    | refine (foldl_keeps P _ ?_ _ _).trans ?_
    | intro _ _

theorem iqSlot_keeps {β : Type} (P : State → β) (h : ∀ (s : State) x0 x1 x2 x3 x4, P { s with freeCtr := x0, out := x1, evt := x2, rf := x3, lanes := x4 } = P s) :
    ∀ a0 a1 s, P (iqSlot a0 a1 s) = P s := by
  have k0 := portDown_keeps P (fun s y0 y1 y2 y3 y4 => h s y0 y1 y2 y3 y4)
  have k1 := raiseIf_keeps P (fun s y0 y1 => h s s.freeCtr y0 y1 s.rf s.lanes)
  have k2 := setRf_keeps P (fun s y0 => h s s.freeCtr s.out s.evt y0 s.lanes)
  intro a0 a1 s
  unfold iqSlot
  try dsimp only
  repeat' first
    | with_reducible rfl
    | simp only [↓h, ↓k0, ↓k1, ↓k2, ↓apply_ite P, ite_self]
    | split
    | refine (foldl_keeps P _ ?_ _ _).trans ?_
    | intro _ _

theorem overloadWindow_keeps {β : Type} (P : State → β) (h : ∀ (s : State) x0, P { s with rf := x0 } = P s) :
    ∀ a0 s, P (overloadWindow a0 s) = P s := by
  have k0 := setRf_keeps P (fun s y0 => h s y0)
  intro a0 s
  unfold overloadWindow
  try dsimp only
  repeat' first
    | with_reducible rfl
    | simp only [↓h, ↓k0, ↓apply_ite P, ite_self]
    | split
    | refine (foldl_keeps P _ ?_ _ _).trans ?_
    | intro _ _

theorem shrDetect_keeps {β : Type} (P : State → β) (h : ∀ (s : State) x0, P { s with lanes := x0 } = P s) :
    ∀ a0 a1 a2 s, P (shrDetect a0 a1 a2 s) = P s := by
  have k0 := setLane_keeps P (fun s y0 => h s y0)
  intro a0 a1 a2 s
  unfold shrDetect
  try dsimp only
  repeat' first
    | with_reducible rfl
    | simp only [↓h, ↓k0, ↓apply_ite P, ite_self]
    | split
    | refine (foldl_keeps P _ ?_ _ _).trans ?_
    | intro _ _

theorem phrDecode_keeps {β : Type} (P : State → β) (h : ∀ (s : State) x0, P { s with lanes := x0 } = P s) :
    ∀ a0 a1 s, P (phrDecode a0 a1 s) = P s := by
  have k0 := laneOverflow_keeps P (fun s y0 => h s y0)
  have k1 := setLane_keeps P (fun s y0 => h s y0)
  intro a0 a1 s
  unfold phrDecode
  try dsimp only
  repeat' first
    | with_reducible rfl
    | simp only [↓h, ↓k0, ↓k1, ↓apply_ite P, ite_self]
    | split
    | refine (foldl_keeps P _ ?_ _ _).trans ?_
    | intro _ _

theorem psduWord_keeps {β : Type} (P : State → β) (h : ∀ (s : State) x0, P { s with lanes := x0 } = P s) :
    ∀ a0 a1 s, P (psduWord a0 a1 s) = P s := by
  have k0 := laneOverflow_keeps P (fun s y0 => h s y0)
  have k1 := setLane_keeps P (fun s y0 => h s y0)
  intro a0 a1 s
  unfold psduWord
  try dsimp only
  repeat' first
    | with_reducible rfl
    | simp only [↓h, ↓k0, ↓k1, ↓apply_ite P, ite_self]
    | split
    | refine (foldl_keeps P _ ?_ _ _).trans ?_
    | intro _ _

theorem frameEnd_keeps {β : Type} (P : State → β) (h : ∀ (s : State) x0 x1 x2, P { s with now := x0, mono := x1, lanes := x2 } = P s) :
    ∀ a0 a1 s, P (frameEnd a0 a1 s) = P s := by
  have k0 := advTo_keeps P (fun s y0 y1 => h s y0 y1 s.lanes)
  have k1 := laneOverflow_keeps P (fun s y0 => h s s.now s.mono y0)
  have k2 := pushTrailers_keeps P (fun s y0 => h s s.now s.mono y0)
  have k3 := setLane_keeps P (fun s y0 => h s s.now s.mono y0)
  intro a0 a1 s
  unfold frameEnd
  try dsimp only
  repeat' first
    | with_reducible rfl
    | simp only [↓h, ↓k0, ↓k1, ↓k2, ↓k3, ↓apply_ite P, ite_self]
    | split
    | refine (foldl_keeps P _ ?_ _ _).trans ?_
    | intro _ _

theorem overflowTrailer_keeps {β : Type} (P : State → β) (h : ∀ (s : State) x0, P { s with lanes := x0 } = P s) :
    ∀ a0 a1 s, P (overflowTrailer a0 a1 s) = P s := by
  have k0 := pushTrailers_keeps P (fun s y0 => h s y0)
  intro a0 a1 s
  unfold overflowTrailer
  try dsimp only
  repeat' first
    | with_reducible rfl
    | simp only [↓h, ↓k0, ↓apply_ite P, ite_self]
    | split
    | refine (foldl_keeps P _ ?_ _ _).trans ?_
    | intro _ _

theorem blankLane_keeps {β : Type} (P : State → β) (h : ∀ (s : State) x0 x1, P { s with freeCtr := x0, lanes := x1 } = P s) :
    ∀ a0 s, P (blankLane a0 s) = P s := by
  have k0 := laneEarly_keeps P (fun s y0 y1 => h s y0 y1)
  have k1 := setLane_keeps P (fun s y0 => h s s.freeCtr y0)
  intro a0 s
  unfold blankLane
  try dsimp only
  repeat' first
    | with_reducible rfl
    | simp only [↓h, ↓k0, ↓k1, ↓apply_ite P, ite_self]
    | split
    | refine (foldl_keeps P _ ?_ _ _).trans ?_
    | intro _ _

theorem blankPort_keeps {β : Type} (P : State → β) (h : ∀ (s : State) x0 x1 x2, P { s with freeCtr := x0, rf := x1, lanes := x2 } = P s) :
    ∀ a0 a1 a2 s, P (blankPort a0 a1 a2 s) = P s := by
  have k0 := blankLane_keeps P (fun s y0 y1 => h s y0 s.rf y1)
  have k1 := setRf_keeps P (fun s y0 => h s s.freeCtr y0 s.lanes)
  intro a0 a1 a2 s
  unfold blankPort
  dsimp only
  split
  · rfl
  · exact (foldl_keeps P _ (fun s l => k0 l s) _ _).trans (k1 _ _ s)

theorem blankAll_keeps {β : Type} (P : State → β) (h : ∀ (s : State) x0 x1 x2, P { s with freeCtr := x0, rf := x1, lanes := x2 } = P s) :
    ∀ a0 a1 s, P (blankAll a0 a1 s) = P s := by
  have k0 := blankPort_keeps P (fun s y0 y1 y2 => h s y0 y1 y2)
  intro a0 a1 s
  unfold blankAll
  try dsimp only
  repeat' first
    | with_reducible rfl
    | simp only [↓h, ↓k0, ↓apply_ite P, ite_self]
    | split
    | refine (foldl_keeps P _ ?_ _ _).trans ?_
    | intro _ _

theorem unblankPort_keeps {β : Type} (P : State → β) (h : ∀ (s : State) x0 x1, P { s with rf := x0, lanes := x1 } = P s) :
    ∀ a0 a1 s, P (unblankPort a0 a1 s) = P s := by
  have k0 := setLane_keeps P (fun s y0 => h s s.rf y0)
  have k1 := setRf_keeps P (fun s y0 => h s y0 s.lanes)
  intro a0 a1 s
  unfold unblankPort
  dsimp only
  split
  · rfl
  · exact (foldl_keeps P _ (fun s l => k0 l _ s) _ _).trans (k1 _ _ s)

theorem blankingEnd_keeps {β : Type} (P : State → β) (h : ∀ (s : State) x0 x1 x2 x3, P { s with now := x0, mono := x1, rf := x2, lanes := x3 } = P s) :
    ∀ a0 s, P (blankingEnd a0 s) = P s := by
  have k0 := advMono_keeps P (fun s y0 y1 => h s y0 y1 s.rf s.lanes)
  have k1 := unblankPort_keeps P (fun s y0 y1 => h s s.now s.mono y0 y1)
  have k2 := setRf_keeps P (fun s y0 => h s s.now s.mono y0 s.lanes)
  intro p s
  unfold blankingEnd
  dsimp only
  split
  · exact (k2 _ _ _).trans ((foldl_keeps P _ (fun s r => k1 p r s) _ _).trans (k0 _ _))
  · rfl

theorem finishAssigns_keeps {β : Type} (P : State → β) (h : ∀ (s : State) x0 x1 x2 x3 x4 x5, P { s with out := x0, mbxs := x1, ops := x2, evt := x3, bkp := x4, slate := x5 } = P s) :
    ∀ s, P (finishAssigns s) = P s := by
  have k0 := finishOps_keeps P (fun s y0 y1 y2 y3 y4 y5 => h s y0 y1 y2 y3 y4 y5)
  intro s
  unfold finishAssigns
  try dsimp only
  repeat' first
    | with_reducible rfl
    | simp only [↓h, ↓k0, ↓apply_ite P, ite_self]
    | split
    | refine (foldl_keeps P _ ?_ _ _).trans ?_
    | intro _ _

theorem switchLane_keeps {β : Type} (P : State → β) (h : ∀ (s : State) x0, P { s with lanes := x0 } = P s) :
    ∀ a0 s, P (switchLane a0 s) = P s := by
  have k0 := setLane_keeps P (fun s y0 => h s y0)
  intro a0 s
  unfold switchLane
  try dsimp only
  repeat' first
    | with_reducible rfl
    | simp only [↓h, ↓k0, ↓apply_ite P, ite_self]
    | split
    | refine (foldl_keeps P _ ?_ _ _).trans ?_
    | intro _ _

theorem dropShadow_keeps {β : Type} (P : State → β) (h : ∀ (s : State) x0 x1, P { s with roles := x0, rot := x1 } = P s) :
    ∀ a0 s, P (dropShadow a0 s) = P s := by
  intro a0 s
  unfold dropShadow
  try dsimp only
  repeat' first
    | with_reducible rfl
    | simp only [↓h, ↓apply_ite P, ite_self]
    | split
    | refine (foldl_keeps P _ ?_ _ _).trans ?_
    | intro _ _

theorem laneSwitch_keeps {β : Type} (P : State → β) (h : ∀ (s : State) x0 x1 x2 x3 x4 x5 x6 x7 x8, P { s with out := x0, mbxs := x1, ops := x2, evt := x3, bkp := x4, lanes := x5, roles := x6, rot := x7, slate := x8 } = P s) :
    ∀ a0 s, P (laneSwitch a0 s) = P s := by
  have k0 := dropShadow_keeps P (fun s y0 y1 => h s s.out s.mbxs s.ops s.evt s.bkp s.lanes y0 y1 s.slate)
  have k1 := finishAssigns_keeps P (fun s y0 y1 y2 y3 y4 y5 => h s y0 y1 y2 y3 y4 s.lanes s.roles s.rot y5)
  have k2 := switchLane_keeps P (fun s y0 => h s s.out s.mbxs s.ops s.evt s.bkp y0 s.roles s.rot s.slate)
  intro a0 s
  unfold laneSwitch
  try dsimp only
  repeat' first
    | with_reducible rfl
    | simp only [↓h, ↓k0, ↓k1, ↓k2, ↓apply_ite P, ite_self]
    | split
    | refine (foldl_keeps P _ ?_ _ _).trans ?_
    | intro _ _

theorem forceLane_keeps {β : Type} (P : State → β) (h : ∀ (s : State) x0 x1 x2 x3, P { s with freeCtr := x0, lanes := x1, roles := x2, rot := x3 } = P s) :
    ∀ a0 s, P (forceLane a0 s) = P s := by
  have k0 := dropShadow_keeps P (fun s y0 y1 => h s s.freeCtr s.lanes y0 y1)
  have k1 := laneEarly_keeps P (fun s y0 y1 => h s y0 y1 s.roles s.rot)
  have k2 := switchLane_keeps P (fun s y0 => h s s.freeCtr y0 s.roles s.rot)
  intro a0 s
  unfold forceLane
  try dsimp only
  repeat' first
    | with_reducible rfl
    | simp only [↓h, ↓k0, ↓k1, ↓k2, ↓apply_ite P, ite_self]
    | split
    | refine (foldl_keeps P _ ?_ _ _).trans ?_
    | intro _ _

theorem laneAssign_keeps {β : Type} (P : State → β) (h : ∀ (s : State) x0 x1 x2 x3 x4, P { s with freeCtr := x0, cfg := x1, lanes := x2, roles := x3, rot := x4 } = P s) :
    ∀ a0 s, P (laneAssign a0 s).st = P s := by
  have k0 := forceLane_keeps P (fun s y0 y1 y2 y3 => h s y0 s.cfg y1 y2 y3)
  have k1 := refuse_keeps P
  have k2 := replyOk_keeps P
  have k3 := setLane_keeps P (fun s y0 => h s s.freeCtr s.cfg y0 s.roles s.rot)
  intro a0 s
  unfold laneAssign
  try dsimp only
  repeat' first
    | with_reducible rfl
    | simp only [↓h, ↓k0, ↓k1, ↓k2, ↓k3, ↓apply_ite P, ite_self, Reply.st_done, Reply.st_pend, Reply.st_twice, Reply.st_wait, replyOk_st, refuse_st]
    | split
    | refine (foldl_keeps P _ ?_ _ _).trans ?_
    | intro _ _

theorem laneTableGet_keeps {β : Type} (P : State → β) :
    ∀ a0 s, P (laneTableGet a0 s).st = P s := by
  have k0 := refuse_keeps P
  have k1 := replyOk_keeps P
  intro a0 s
  unfold laneTableGet
  try dsimp only
  repeat' first
    | with_reducible rfl
    | simp only [↓k0, ↓k1, ↓apply_ite P, ite_self, Reply.st_done, Reply.st_pend, Reply.st_twice, Reply.st_wait, replyOk_st, refuse_st]
    | split
    | refine (foldl_keeps P _ ?_ _ _).trans ?_
    | intro _ _

theorem measureNoise_keeps {β : Type} (P : State → β) (h : ∀ (s : State) x0 x1, P { s with freeCtr := x0, lanes := x1 } = P s) :
    ∀ a0 s, P (measureNoise a0 s) = P s := by
  have k0 := fresh_keeps P (fun s y0 => h s y0 s.lanes)
  have k1 := setLane_keeps P (fun s y0 => h s s.freeCtr y0)
  have q0 := fun b0 t u (e : fresh b0 = (u, t)) => (congrArg (fun z => P z.2) e).symm.trans (k0 b0)
  intro a0 s
  fun_induction measureNoise a0 s
  all_goals
    repeat' first
      | with_reducible rfl
      | simp +zetaDelta only [↓h, ↓k0, ↓k1, ↓apply_ite P, ite_self, *]
      | split
      | refine (q0 _ _ _ (by assumption)).trans ?_
      | refine (foldl_keeps P _ ?_ _ _).trans ?_
      | intro _ _

theorem laneStatsGet_keeps {β : Type} (P : State → β) (h : ∀ (s : State) x0 x1, P { s with freeCtr := x0, lanes := x1 } = P s) :
    ∀ a0 s, P (laneStatsGet a0 s).st = P s := by
  have k0 := measureNoise_keeps P (fun s y0 y1 => h s y0 y1)
  have k1 := refuse_keeps P
  have k2 := replyOk_keeps P
  intro a0 s
  unfold laneStatsGet
  try dsimp only
  repeat' first
    | with_reducible rfl
    | simp only [↓h, ↓k0, ↓k1, ↓k2, ↓apply_ite P, ite_self, Reply.st_done, Reply.st_pend, Reply.st_twice, Reply.st_wait, replyOk_st, refuse_st]
    | split
    | refine (foldl_keeps P _ ?_ _ _).trans ?_
    | intro _ _

theorem laneStatsClear_keeps {β : Type} (P : State → β) (h : ∀ (s : State) x0, P { s with lanes := x0 } = P s) :
    ∀ a0 s, P (laneStatsClear a0 s).st = P s := by
  have k0 := refuse_keeps P
  have k1 := replyOk_keeps P
  have k2 := setLane_keeps P (fun s y0 => h s y0)
  intro a0 s
  unfold laneStatsClear
  try dsimp only
  repeat' first
    | with_reducible rfl
    | simp only [↓h, ↓k0, ↓k1, ↓k2, ↓apply_ite P, ite_self, Reply.st_done, Reply.st_pend, Reply.st_twice, Reply.st_wait, replyOk_st, refuse_st]
    | split
    | refine (foldl_keeps P _ ?_ _ _).trans ?_
    | intro _ _

theorem withdrawLanes_keeps {β : Type} (P : State → β) (h : ∀ (s : State) x0 x1 x2 x3 x4 x5 x6 x7 x8 x9 x10, P { s with freeCtr := x0, out := x1, mbxs := x2, ops := x3, evt := x4, bkp := x5, lanes := x6, laneCount := x7, roles := x8, rot := x9, slate := x10 } = P s) :
    ∀ a0 s, P (withdrawLanes a0 s) = P s := by
  have k0 := dropShadow_keeps P (fun s y0 y1 => h s s.freeCtr s.out s.mbxs s.ops s.evt s.bkp s.lanes s.laneCount y0 y1 s.slate)
  have k1 := finishAssigns_keeps P (fun s y0 y1 y2 y3 y4 y5 => h s s.freeCtr y0 y1 y2 y3 y4 s.lanes s.laneCount s.roles s.rot y5)
  have k2 := laneEarly_keeps P (fun s y0 y1 => h s y0 s.out s.mbxs s.ops s.evt s.bkp y1 s.laneCount s.roles s.rot s.slate)
  have k3 := raise_keeps P (fun s y0 y1 => h s s.freeCtr y0 s.mbxs s.ops y1 s.bkp s.lanes s.laneCount s.roles s.rot s.slate)
  have k4 := setLane_keeps P (fun s y0 => h s s.freeCtr s.out s.mbxs s.ops s.evt s.bkp y0 s.laneCount s.roles s.rot s.slate)
  intro a0 s
  unfold withdrawLanes
  try dsimp only
  repeat' first
    | with_reducible rfl
    | simp only [↓h, ↓k0, ↓k1, ↓k2, ↓k3, ↓k4, ↓apply_ite P, ite_self]
    | split
    | refine (foldl_keeps P _ ?_ _ _).trans ?_
    | intro _ _

theorem rxclkStop_keeps {β : Type} (P : State → β) (h : ∀ (s : State) x0 x1 x2 x3 x4, P { s with freeCtr := x0, out := x1, evt := x2, rf := x3, lanes := x4 } = P s) :
    ∀ a0 s, P (rxclkStop a0 s) = P s := by
  have k0 := portDown_keeps P (fun s y0 y1 y2 y3 y4 => h s y0 y1 y2 y3 y4)
  intro a0 s
  unfold rxclkStop
  try dsimp only
  repeat' first
    | with_reducible rfl
    | simp only [↓h, ↓k0, ↓apply_ite P, ite_self]
    | split
    | refine (foldl_keeps P _ ?_ _ _).trans ?_
    | intro _ _

end Sys2Proof.Machine
end

