-- ==== Sys2Proof/Laws/KeepAir.lean ====
section
/-! SUPPORT. What the functions of Machine/Air.lean leave unchanged. -/

set_option linter.unusedSimpArgs false
set_option linter.unreachableTactic false
set_option linter.unusedTactic false

namespace Sys2Proof.Machine

theorem setSec_keeps {β : Type} (P : State → β) (h : ∀ (s : State) x0, P { s with sectors := x0 } = P s) :
    ∀ a0 a1 s, P (setSec a0 a1 s) = P s := by
  intro a0 a1 s
  unfold setSec
  try dsimp only
  repeat' first
    | with_reducible rfl
    | simp only [↓h, ↓apply_ite P, ite_self]
    | split
    | refine (foldl_keeps P _ ?_ _ _).trans ?_
    | intro _ _

theorem setAcct_keeps {β : Type} (P : State → β) (h : ∀ (s : State) x0, P { s with duty := x0 } = P s) :
    ∀ a0 a1 a2 s, P (setAcct a0 a1 a2 s) = P s := by
  intro a0 a1 a2 s
  unfold setAcct
  try dsimp only
  repeat' first
    | with_reducible rfl
    | simp only [↓h, ↓apply_ite P, ite_self]
    | split
    | refine (foldl_keeps P _ ?_ _ _).trans ?_
    | intro _ _

theorem presetDuty_keeps {β : Type} (P : State → β) (h : ∀ (s : State) x0, P { s with duty := x0 } = P s) :
    ∀ a0 a1 a2 s, P (presetDuty a0 a1 a2 s) = P s := by
  have k0 := setAcct_keeps P (fun s y0 => h s y0)
  intro a0 a1 a2 s
  unfold presetDuty
  try dsimp only
  repeat' first
    | with_reducible rfl
    | simp only [↓h, ↓k0, ↓apply_ite P, ite_self]
    | split
    | refine (foldl_keeps P _ ?_ _ _).trans ?_
    | intro _ _

theorem noteRefusal_keeps {β : Type} (P : State → β) (h : ∀ (s : State) x0 x1 x2, P { s with out := x0, evt := x1, duty := x2 } = P s) :
    ∀ a0 a1 a2 s, P (noteRefusal a0 a1 a2 s) = P s := by
  have k0 := raiseIf_keeps P (fun s y0 y1 => h s y0 y1 s.duty)
  have k1 := setAcct_keeps P (fun s y0 => h s s.out s.evt y0)
  intro a0 a1 a2 s
  unfold noteRefusal
  try dsimp only
  repeat' first
    | with_reducible rfl
    | simp only [↓h, ↓k0, ↓k1, ↓apply_ite P, ite_self]
    | split
    | refine (foldl_keeps P _ ?_ _ _).trans ?_
    | intro _ _

theorem writeLevel_keeps {β : Type} (P : State → β) (h : ∀ (s : State) x0, P { s with out := x0 } = P s) :
    ∀ a0 a1 s, P (writeLevel a0 a1 s) = P s := by
  intro a0 a1 s
  unfold writeLevel
  try dsimp only
  repeat' first
    | with_reducible rfl
    | simp only [↓h, ↓apply_ite P, ite_self]
    | split
    | refine (foldl_keeps P _ ?_ _ _).trans ?_
    | intro _ _

theorem startTx_keeps {β : Type} (P : State → β) (h : ∀ (s : State) x0 x1 x2 x3 x4, P { s with freeCtr := x0, out := x1, rf := x2, lanes := x3, sectors := x4 } = P s) :
    ∀ a0 a1 a2 a3 a4 a5 a6 a7 a8 s, P (startTx a0 a1 a2 a3 a4 a5 a6 a7 a8 s) = P s := by
  have k0 := blankAll_keeps P (fun s y0 y1 y2 => h s y0 s.out y1 y2 s.sectors)
  have k1 := setRf_keeps P (fun s y0 => h s s.freeCtr s.out y0 s.lanes s.sectors)
  have k2 := setSec_keeps P (fun s y0 => h s s.freeCtr s.out s.rf s.lanes y0)
  have k3 := writeLevel_keeps P (fun s y0 => h s s.freeCtr y0 s.rf s.lanes s.sectors)
  intro a0 a1 a2 a3 a4 a5 a6 a7 a8 s
  unfold startTx
  try dsimp only
  repeat' first
    | with_reducible rfl
    | simp only [↓h, ↓k0, ↓k1, ↓k2, ↓k3, ↓apply_ite P, ite_self]
    | split
    | refine (foldl_keeps P _ ?_ _ _).trans ?_
    | intro _ _

theorem chargeTx_keeps {β : Type} (P : State → β) (h : ∀ (s : State) x0 x1, P { s with sectors := x0, duty := x1 } = P s) :
    ∀ a0 a1 s, P (chargeTx a0 a1 s) = P s := by
  have k0 := setAcct_keeps P (fun s y0 => h s s.sectors y0)
  have k1 := setSec_keeps P (fun s y0 => h s y0 s.duty)
  intro a0 a1 s
  unfold chargeTx
  try dsimp only
  repeat' first
    | with_reducible rfl
    | simp only [↓h, ↓k0, ↓k1, ↓apply_ite P, ite_self]
    | split
    | refine (foldl_keeps P _ ?_ _ _).trans ?_
    | intro _ _

theorem chargeCut_keeps {β : Type} (P : State → β) (h : ∀ (s : State) x0 x1, P { s with sectors := x0, duty := x1 } = P s) :
    ∀ a0 s, P (chargeCut a0 s) = P s := by
  have k0 := chargeTx_keeps P (fun s y0 y1 => h s y0 y1)
  have k1 := setSec_keeps P (fun s y0 => h s y0 s.duty)
  intro a0 s
  unfold chargeCut
  try dsimp only
  repeat' first
    | with_reducible rfl
    | simp only [↓h, ↓k0, ↓k1, ↓apply_ite P, ite_self]
    | split
    | refine (foldl_keeps P _ ?_ _ _).trans ?_
    | intro _ _

theorem txEnd_keeps {β : Type} (P : State → β) (h : ∀ (s : State) x0 x1 x2 x3 x4 x5, P { s with now := x0, mono := x1, rf := x2, sectors := x3, duty := x4, eps := x5 } = P s) :
    ∀ a0 a1 s, P (txEnd a0 a1 s) = P s := by
  have k0 := advTo_keeps P (fun s y0 y1 => h s y0 y1 s.rf s.sectors s.duty s.eps)
  have k1 := chargeTx_keeps P (fun s y0 y1 => h s s.now s.mono s.rf y0 y1 s.eps)
  have k2 := noteEp_keeps P (fun s y0 => h s s.now s.mono s.rf s.sectors s.duty y0)
  have k3 := setRf_keeps P (fun s y0 => h s s.now s.mono y0 s.sectors s.duty s.eps)
  have k4 := setSec_keeps P (fun s y0 => h s s.now s.mono s.rf y0 s.duty s.eps)
  intro a0 a1 s
  unfold txEnd
  try dsimp only
  repeat' first
    | with_reducible rfl
    | simp only [↓h, ↓k0, ↓k1, ↓k2, ↓k3, ↓k4, ↓apply_ite P, ite_self]
    | split
    | refine (foldl_keeps P _ ?_ _ _).trans ?_
    | intro _ _

theorem chargeExpiry_keeps {β : Type} (P : State → β) (h : ∀ (s : State) x0 x1 x2, P { s with now := x0, mono := x1, duty := x2 } = P s) :
    ∀ a0 a1 s, P (chargeExpiry a0 a1 s) = P s := by
  have k0 := advMono_keeps P (fun s y0 y1 => h s y0 y1 s.duty)
  have k1 := setAcct_keeps P (fun s y0 => h s s.now s.mono y0)
  intro a0 a1 s
  unfold chargeExpiry
  try dsimp only
  repeat' first
    | with_reducible rfl
    | simp only [↓h, ↓k0, ↓k1, ↓apply_ite P, ite_self]
    | split
    | refine (foldl_keeps P _ ?_ _ _).trans ?_
    | intro _ _

theorem carryAll_keeps {β : Type} (P : State → β) (h : ∀ (s : State) x0 x1 x2, P { s with out := x0, evt := x1, sectors := x2 } = P s) :
    ∀ a0 a1 s, P (carryAll a0 a1 s) = P s := by
  have k0 := raiseIf_keeps P (fun s y0 y1 => h s y0 y1 s.sectors)
  have k1 := setSec_keeps P (fun s y0 => h s s.out s.evt y0)
  intro a0 a1 s
  unfold carryAll
  try dsimp only
  repeat' first
    | with_reducible rfl
    | simp only [↓h, ↓k0, ↓k1, ↓apply_ite P, ite_self]
    | split
    | refine (foldl_keeps P _ ?_ _ _).trans ?_
    | intro _ _

theorem freeze_keeps {β : Type} (P : State → β) (h : ∀ (s : State) x0 x1 x2, P { s with out := x0, evt := x1, sectors := x2 } = P s) :
    ∀ a0 a1 a2 s, P (freeze a0 a1 a2 s).2 = P s := by
  have k0 := carryAll_keeps P (fun s y0 y1 y2 => h s y0 y1 y2)
  intro a0 a1 a2 s
  unfold freeze
  try dsimp only
  repeat' first
    | with_reducible rfl
    | simp only [↓h, ↓k0, ↓apply_ite P, ite_self]
    | split
    | refine (foldl_keeps P _ ?_ _ _).trans ?_
    | intro _ _

theorem setSector_keeps {β : Type} (P : State → β) (h : ∀ (s : State) x0 x1 x2, P { s with out := x0, evt := x1, sectors := x2 } = P s) :
    ∀ a0 a1 s, P (setSector a0 a1 s) = P s := by
  have k0 := raise_keeps P (fun s y0 y1 => h s y0 y1 s.sectors)
  have k1 := setSec_keeps P (fun s y0 => h s s.out s.evt y0)
  intro a0 a1 s
  unfold setSector
  try dsimp only
  repeat' first
    | with_reducible rfl
    | simp only [↓h, ↓k0, ↓k1, ↓apply_ite P, ite_self]
    | split
    | refine (foldl_keeps P _ ?_ _ _).trans ?_
    | intro _ _

theorem deepOpen_keeps {β : Type} (P : State → β) (h : ∀ (s : State) x0 x1 x2, P { s with out := x0, evt := x1, sectors := x2 } = P s) :
    ∀ a0 a1 s, P (deepOpen a0 a1 s) = P s := by
  have k0 := carryAll_keeps P (fun s y0 y1 y2 => h s y0 y1 y2)
  have k1 := setSec_keeps P (fun s y0 => h s s.out s.evt y0)
  intro a0 a1 s
  unfold deepOpen
  try dsimp only
  repeat' first
    | with_reducible rfl
    | simp only [↓h, ↓k0, ↓k1, ↓apply_ite P, ite_self]
    | split
    | refine (foldl_keeps P _ ?_ _ _).trans ?_
    | intro _ _

theorem beaconMissed_keeps {β : Type} (P : State → β) (h : ∀ (s : State) x0 x1 x2 x3 x4, P { s with out := x0, evt := x1, bkp := x2, sectors := x3, slate := x4 } = P s) :
    ∀ a0 a1 s, P (beaconMissed a0 a1 s) = P s := by
  have k0 := carryAll_keeps P (fun s y0 y1 y2 => h s y0 y1 s.bkp y2 s.slate)
  have k1 := deepOpen_keeps P (fun s y0 y1 y2 => h s y0 y1 s.bkp y2 s.slate)
  have k2 := raise_keeps P (fun s y0 y1 => h s y0 y1 s.bkp s.sectors s.slate)
  have k3 := record_keeps P (fun s y0 y1 y2 y3 => h s y0 y1 y2 s.sectors y3)
  have k4 := setSec_keeps P (fun s y0 => h s s.out s.evt s.bkp y0 s.slate)
  have k5 := setSector_keeps P (fun s y0 y1 y2 => h s y0 y1 s.bkp y2 s.slate)
  intro a0 a1 s
  unfold beaconMissed
  try dsimp only
  repeat' first
    | with_reducible rfl
    | simp only [↓h, ↓k0, ↓k1, ↓k2, ↓k3, ↓k4, ↓k5, ↓apply_ite P, ite_self]
    | split
    | refine (foldl_keeps P _ ?_ _ _).trans ?_
    | intro _ _

theorem beaconMiss_keeps {β : Type} (P : State → β) (h : ∀ (s : State) x0 x1 x2 x3 x4 x5 x6, P { s with now := x0, mono := x1, out := x2, evt := x3, bkp := x4, sectors := x5, slate := x6 } = P s) :
    ∀ a0 s, P (beaconMiss a0 s) = P s := by
  have k0 := advTo_keeps P (fun s y0 y1 => h s y0 y1 s.out s.evt s.bkp s.sectors s.slate)
  have k1 := beaconMissed_keeps P (fun s y0 y1 y2 y3 y4 => h s s.now s.mono y0 y1 y2 y3 y4)
  intro a0 s
  unfold beaconMiss
  try dsimp only
  repeat' first
    | with_reducible rfl
    | simp only [↓h, ↓k0, ↓k1, ↓apply_ite P, ite_self]
    | split
    | refine (foldl_keeps P _ ?_ _ _).trans ?_
    | intro _ _

theorem beaconOpen_keeps {β : Type} (P : State → β) (h : ∀ (s : State) x0 x1 x2, P { s with out := x0, evt := x1, sectors := x2 } = P s) :
    ∀ a0 a1 s, P (beaconOpen a0 a1 s) = P s := by
  have k0 := freeze_keeps P (fun s y0 y1 y2 => h s y0 y1 y2)
  have k1 := setSec_keeps P (fun s y0 => h s s.out s.evt y0)
  have q0 := fun b0 b1 b2 b3 t u (e : freeze b0 b1 b2 b3 = (u, t)) => (congrArg (fun z => P z.2) e).symm.trans (k0 b0 b1 b2 b3)
  intro a0 a1 s
  unfold beaconOpen
  try dsimp only
  repeat' first
    | with_reducible rfl
    | simp only [↓h, ↓k0, ↓k1, ↓apply_ite P, ite_self]
    | split
    | refine (q0 _ _ _ _ _ _ (by assumption)).trans ?_
    | refine (foldl_keeps P _ ?_ _ _).trans ?_
    | intro _ _

theorem beaconDue_keeps {β : Type} (P : State → β) (h : ∀ (s : State) x0 x1 x2 x3 x4 x5 x6, P { s with now := x0, mono := x1, out := x2, evt := x3, bkp := x4, sectors := x5, slate := x6 } = P s) :
    ∀ a0 a1 s, P (beaconDue a0 a1 s) = P s := by
  have k0 := advTo_keeps P (fun s y0 y1 => h s y0 y1 s.out s.evt s.bkp s.sectors s.slate)
  have k1 := beaconMiss_keeps P (fun s y0 y1 y2 y3 y4 y5 y6 => h s y0 y1 y2 y3 y4 y5 y6)
  have k2 := beaconOpen_keeps P (fun s y0 y1 y2 => h s s.now s.mono y0 y1 s.bkp y2 s.slate)
  intro a0 a1 s
  unfold beaconDue
  try dsimp only
  repeat' first
    | with_reducible rfl
    | simp only [↓h, ↓k0, ↓k1, ↓k2, ↓apply_ite P, ite_self]
    | split
    | refine (foldl_keeps P _ ?_ _ _).trans ?_
    | intro _ _

theorem takeKeys_keeps {β : Type} (P : State → β) (h : ∀ (s : State) x0 x1 x2 x3 x4 x5 x6, P { s with out := x0, evt := x1, bkp := x2, slots := x3, keys := x4, slate := x5, life := x6 } = P s) :
    ∀ a0 a1 s, P (takeKeys a0 a1 s).1 = P s := by
  have k0 := useSlot_keeps P (fun s y0 y1 y2 y3 y4 y5 y6 => h s y0 y1 y2 y3 y4 y5 y6)
  intro a n
  induction n with
  | zero => intro s; rfl
  | succ n ih =>
    intro s
    have e := k0 a uMac s
    rw [takeKeys]
    split
    · next hx => rw [hx] at e; exact e
    · next hx => rw [hx] at e; exact (ih _).trans e

theorem beaconSent_keeps {β : Type} (P : State → β) (h : ∀ (s : State) x0 x1 x2, P { s with out := x0, evt := x1, sectors := x2 } = P s) :
    ∀ a0 a1 s, P (beaconSent a0 a1 s) = P s := by
  have k0 := deepOpen_keeps P (fun s y0 y1 y2 => h s y0 y1 y2)
  have k1 := setSec_keeps P (fun s y0 => h s s.out s.evt y0)
  have k2 := setSector_keeps P (fun s y0 y1 y2 => h s y0 y1 y2)
  intro a0 a1 s
  unfold beaconSent
  try dsimp only
  repeat' first
    | with_reducible rfl
    | simp only [↓h, ↓k0, ↓k1, ↓k2, ↓apply_ite P, ite_self]
    | split
    | refine (foldl_keeps P _ ?_ _ _).trans ?_
    | intro _ _

theorem beaconTx_keeps {β : Type} (P : State → β) (h : ∀ (s : State) x0 x1 x2 x3 x4 x5 x6 x7 x8 x9 x10 x11 x12 x13, P { s with now := x0, mono := x1, freeCtr := x2, out := x3, evt := x4, bkp := x5, rf := x6, lanes := x7, sectors := x8, duty := x9, slots := x10, keys := x11, slate := x12, life := x13 } = P s) :
    ∀ a0 a1 s, P (beaconTx a0 a1 s) = P s := by
  have k0 := advTo_keeps P (fun s y0 y1 => h s y0 y1 s.freeCtr s.out s.evt s.bkp s.rf s.lanes s.sectors s.duty s.slots s.keys s.slate s.life)
  have k1 := beaconSent_keeps P (fun s y0 y1 y2 => h s s.now s.mono s.freeCtr y0 y1 s.bkp s.rf s.lanes y2 s.duty s.slots s.keys s.slate s.life)
  have k2 := carryAll_keeps P (fun s y0 y1 y2 => h s s.now s.mono s.freeCtr y0 y1 s.bkp s.rf s.lanes y2 s.duty s.slots s.keys s.slate s.life)
  have k3 := noteRefusal_keeps P (fun s y0 y1 y2 => h s s.now s.mono s.freeCtr y0 y1 s.bkp s.rf s.lanes s.sectors y2 s.slots s.keys s.slate s.life)
  have k4 := setSec_keeps P (fun s y0 => h s s.now s.mono s.freeCtr s.out s.evt s.bkp s.rf s.lanes y0 s.duty s.slots s.keys s.slate s.life)
  have k5 := startTx_keeps P (fun s y0 y1 y2 y3 y4 => h s s.now s.mono y0 y1 s.evt s.bkp y2 y3 y4 s.duty s.slots s.keys s.slate s.life)
  have k6 := takeKeys_keeps P (fun s y0 y1 y2 y3 y4 y5 y6 => h s s.now s.mono s.freeCtr y0 y1 y2 s.rf s.lanes s.sectors s.duty y3 y4 y5 y6)
  have q6 := fun b0 b1 b2 t u (e : takeKeys b0 b1 b2 = (t, u)) => (congrArg (fun z => P z.1) e).symm.trans (k6 b0 b1 b2)
  intro a0 a1 s
  unfold beaconTx
  try dsimp only
  repeat' first
    | with_reducible rfl
    | simp only [↓h, ↓k0, ↓k1, ↓k2, ↓k3, ↓k4, ↓k5, ↓k6, ↓apply_ite P, ite_self]
    | split
    | refine (q6 _ _ _ _ _ (by assumption)).trans ?_
    | refine (foldl_keeps P _ ?_ _ _).trans ?_
    | intro _ _

theorem fallbackRetry_keeps {β : Type} (P : State → β) (h : ∀ (s : State) x0, P { s with sectors := x0 } = P s) :
    ∀ a0 s, P (fallbackRetry a0 s) = P s := by
  have k0 := setSec_keeps P (fun s y0 => h s y0)
  intro a0 s
  unfold fallbackRetry
  try dsimp only
  repeat' first
    | with_reducible rfl
    | simp only [↓h, ↓k0, ↓apply_ite P, ite_self]
    | split
    | refine (foldl_keeps P _ ?_ _ _).trans ?_
    | intro _ _

theorem deepBeaconTx_keeps {β : Type} (P : State → β) (h : ∀ (s : State) x0 x1 x2 x3 x4 x5 x6 x7 x8 x9 x10 x11, P { s with freeCtr := x0, out := x1, evt := x2, bkp := x3, rf := x4, lanes := x5, sectors := x6, duty := x7, slots := x8, keys := x9, slate := x10, life := x11 } = P s) :
    ∀ a0 a1 s, P (deepBeaconTx a0 a1 s) = P s := by
  have k0 := carryAll_keeps P (fun s y0 y1 y2 => h s s.freeCtr y0 y1 s.bkp s.rf s.lanes y2 s.duty s.slots s.keys s.slate s.life)
  have k1 := noteRefusal_keeps P (fun s y0 y1 y2 => h s s.freeCtr y0 y1 s.bkp s.rf s.lanes s.sectors y2 s.slots s.keys s.slate s.life)
  have k2 := setSec_keeps P (fun s y0 => h s s.freeCtr s.out s.evt s.bkp s.rf s.lanes y0 s.duty s.slots s.keys s.slate s.life)
  have k3 := startTx_keeps P (fun s y0 y1 y2 y3 y4 => h s y0 y1 s.evt s.bkp y2 y3 y4 s.duty s.slots s.keys s.slate s.life)
  have k4 := useSlot_keeps P (fun s y0 y1 y2 y3 y4 y5 y6 => h s s.freeCtr y0 y1 y2 s.rf s.lanes s.sectors s.duty y3 y4 y5 y6)
  have q4 := fun b0 b1 b2 t u (e : useSlot b0 b1 b2 = (t, u)) => (congrArg (fun z => P z.1) e).symm.trans (k4 b0 b1 b2)
  intro a0 a1 s
  unfold deepBeaconTx
  try dsimp only
  repeat' first
    | with_reducible rfl
    | simp only [↓h, ↓k0, ↓k1, ↓k2, ↓k3, ↓k4, ↓apply_ite P, ite_self]
    | split
    | refine (q4 _ _ _ _ _ (by assumption)).trans ?_
    | refine (foldl_keeps P _ ?_ _ _).trans ?_
    | intro _ _

end Sys2Proof.Machine
end

