-- ==== Sys2Proof/Laws/KeepContext.lean ====
section
/-! SUPPORT. What the functions of Machine/Context.lean leave unchanged. -/

set_option linter.unusedSimpArgs false
set_option linter.unreachableTactic false
set_option linter.unusedTactic false

namespace Sys2Proof.Machine

theorem dropKey_keeps {β : Type} (P : State → β) (h : ∀ (s : State) x0, P { s with eps := x0 } = P s) :
    ∀ a0 s, P (dropKey a0 s) = P s := by
  have k0 := noteEp_keeps P (fun s y0 => h s y0)
  intro a0 s
  unfold dropKey
  try dsimp only
  repeat' first
    | with_reducible rfl
    | simp only [↓h, ↓k0, ↓apply_ite P, ite_self]
    | split
    | refine (foldl_keeps P _ ?_ _ _).trans ?_
    | intro _ _

theorem freeEntry_keeps {β : Type} (P : State → β) (h : ∀ (s : State) x0 x1, P { s with eps := x0, mem := x1 } = P s) :
    ∀ s, P (freeEntry s).1 = P s := by
  have k0 := dropKey_keeps P (fun s y0 => h s y0 s.mem)
  intro s
  unfold freeEntry
  try dsimp only
  repeat' first
    | with_reducible rfl
    | simp only [↓h, ↓k0, ↓apply_ite P, ite_self]
    | split
    | refine (foldl_keeps P _ ?_ _ _).trans ?_
    | intro _ _

theorem issueFetch_keeps {β : Type} (P : State → β) (h : ∀ (s : State) x0 x1, P { s with eps := x0, mem := x1 } = P s) :
    ∀ a0 s, P (issueFetch a0 s) = P s := by
  have k0 := freeEntry_keeps P (fun s y0 y1 => h s y0 y1)
  have q0 := fun b0 t u (e : freeEntry b0 = (t, u)) => (congrArg (fun z => P z.1) e).symm.trans (k0 b0)
  intro a0 s
  unfold issueFetch
  try dsimp only
  repeat' first
    | with_reducible rfl
    | simp only [↓h, ↓k0, ↓apply_ite P, ite_self]
    | split
    | refine (q0 _ _ _ (by assumption)).trans ?_
    | refine (foldl_keeps P _ ?_ _ _).trans ?_
    | intro _ _

theorem install_keeps {β : Type} (P : State → β) (h : ∀ (s : State) x0 x1, P { s with eps := x0, mem := x1 } = P s) :
    ∀ a0 s, P (install a0 s) = P s := by
  have k0 := freeEntry_keeps P (fun s y0 y1 => h s y0 y1)
  have k1 := updEp_keeps P (fun s y0 y1 => h s y0 y1)
  have q0 := fun b0 t u (e : freeEntry b0 = (t, u)) => (congrArg (fun z => P z.1) e).symm.trans (k0 b0)
  intro a0 s
  unfold install
  try dsimp only
  repeat' first
    | with_reducible rfl
    | simp only [↓h, ↓k0, ↓k1, ↓apply_ite P, ite_self]
    | split
    | refine (q0 _ _ _ (by assumption)).trans ?_
    | refine (foldl_keeps P _ ?_ _ _).trans ?_
    | intro _ _

theorem endPassThru_keeps {β : Type} (P : State → β) (h : ∀ (s : State) x0 x1, P { s with eps := x0, mem := x1 } = P s) :
    ∀ a0 s, P (endPassThru a0 s) = P s := by
  have k0 := dropKey_keeps P (fun s y0 => h s y0 s.mem)
  intro a0 s
  unfold endPassThru
  try dsimp only
  repeat' first
    | with_reducible rfl
    | simp only [↓h, ↓k0, ↓apply_ite P, ite_self]
    | split
    | refine (foldl_keeps P _ ?_ _ _).trans ?_
    | intro _ _

theorem forgetCtx_keeps {β : Type} (P : State → β) (h : ∀ (s : State) x0, P { s with mem := x0 } = P s) :
    ∀ a0 s, P (forgetCtx a0 s) = P s := by
  intro a0 s
  unfold forgetCtx
  try dsimp only
  repeat' first
    | with_reducible rfl
    | simp only [↓h, ↓apply_ite P, ite_self]
    | split
    | refine (foldl_keeps P _ ?_ _ _).trans ?_
    | intro _ _

theorem unwrapEp_keeps {β : Type} (P : State → β) (h : ∀ (s : State) x0 x1 x2 x3 x4 x5 x6, P { s with out := x0, evt := x1, bkp := x2, slots := x3, keys := x4, slate := x5, life := x6 } = P s) :
    ∀ a0 a1 a2 s, P (unwrapEp a0 a1 a2 s).1 = P s := by
  have k0 := authFailed_keeps P (fun s y0 y1 y2 => h s y0 y1 s.bkp s.slots y2 s.slate s.life)
  have k1 := useSlot_keeps P (fun s y0 y1 y2 y3 y4 y5 y6 => h s y0 y1 y2 y3 y4 y5 y6)
  have q1 := fun b0 b1 b2 t u (e : useSlot b0 b1 b2 = (t, u)) => (congrArg (fun z => P z.1) e).symm.trans (k1 b0 b1 b2)
  intro a0 a1 a2 s
  unfold unwrapEp
  try dsimp only
  repeat' first
    | with_reducible rfl
    | simp only [↓h, ↓k0, ↓k1, ↓apply_ite P, ite_self]
    | split
    | refine (q1 _ _ _ _ _ (by assumption)).trans ?_
    | refine (foldl_keeps P _ ?_ _ _).trans ?_
    | intro _ _

theorem epKey_keeps {β : Type} (P : State → β) (h : ∀ (s : State) x0 x1 x2 x3 x4 x5 x6 x7, P { s with out := x0, evt := x1, bkp := x2, eps := x3, slots := x4, keys := x5, slate := x6, life := x7 } = P s) :
    ∀ a0 s, P (epKey a0 s).1 = P s := by
  have k0 := noteEp_keeps P (fun s y0 => h s s.out s.evt s.bkp y0 s.slots s.keys s.slate s.life)
  have k1 := unwrapEp_keeps P (fun s y0 y1 y2 y3 y4 y5 y6 => h s y0 y1 y2 s.eps y3 y4 y5 y6)
  have q1 := fun b0 b1 b2 b3 t u (e : unwrapEp b0 b1 b2 b3 = (t, u)) => (congrArg (fun z => P z.1) e).symm.trans (k1 b0 b1 b2 b3)
  intro a0 s
  unfold epKey
  try dsimp only
  repeat' first
    | with_reducible rfl
    | simp only [↓h, ↓k0, ↓k1, ↓apply_ite P, ite_self]
    | split
    | refine (q1 _ _ _ _ _ _ (by assumption)).trans ?_
    | refine (foldl_keeps P _ ?_ _ _).trans ?_
    | intro _ _

end Sys2Proof.Machine
end

