-- ==== Sys2Proof/Laws/KeepDma.lean ====
section
/-! SUPPORT. What the functions of Machine/Dma.lean leave unchanged. -/

set_option linter.unusedSimpArgs false
set_option linter.unreachableTactic false
set_option linter.unusedTactic false

namespace Sys2Proof.Machine

theorem setChan_keeps {β : Type} (P : State → β) (h : ∀ (s : State) x0, P { s with chans := x0 } = P s) :
    ∀ a0 a1 s, P (setChan a0 a1 s) = P s := by
  intro a0 a1 s
  unfold setChan
  try dsimp only
  repeat' first
    | with_reducible rfl
    | simp only [↓h, ↓apply_ite P, ite_self]
    | split
    | refine (foldl_keeps P _ ?_ _ _).trans ?_
    | intro _ _

theorem exportStopped_keeps {β : Type} (P : State → β) (h : ∀ (s : State) x0 x1 x2 x3 x4 x5 x6 x7, P { s with out := x0, mbxs := x1, ops := x2, evt := x3, bkp := x4, chans := x5, prov := x6, slate := x7 } = P s) :
    ∀ s, P (exportStopped s) = P s := by
  have k0 := finishOp_keeps P (fun s y0 y1 y2 y3 y4 y5 => h s y0 y1 y2 y3 y4 s.chans s.prov y5)
  have k1 := unbindChan_keeps P (fun s y0 => h s s.out s.mbxs s.ops s.evt s.bkp y0 s.prov s.slate)
  intro s
  unfold exportStopped
  try dsimp only
  repeat' first
    | with_reducible rfl
    | simp only [↓h, ↓k0, ↓k1, ↓apply_ite P, ite_self]
    | split
    | refine (foldl_keeps P _ ?_ _ _).trans ?_
    | intro _ _

theorem exportTook_keeps {β : Type} (P : State → β) (h : ∀ (s : State) x0 x1 x2 x3 x4 x5 x6 x7, P { s with out := x0, mbxs := x1, ops := x2, evt := x3, bkp := x4, chans := x5, prov := x6, slate := x7 } = P s) :
    ∀ a0 s, P (exportTook a0 s) = P s := by
  have k0 := exportStopped_keeps P (fun s y0 y1 y2 y3 y4 y5 y6 y7 => h s y0 y1 y2 y3 y4 y5 y6 y7)
  intro a0 s
  unfold exportTook
  try dsimp only
  repeat' first
    | with_reducible rfl
    | simp only [↓h, ↓k0, ↓apply_ite P, ite_self]
    | split
    | refine (foldl_keeps P _ ?_ _ _).trans ?_
    | intro _ _

theorem stmtsTook_keeps {β : Type} (P : State → β) (h : ∀ (s : State) x0, P { s with ledger := x0 } = P s) :
    ∀ a0 s, P (stmtsTook a0 s) = P s := by
  intro a0 s
  unfold stmtsTook
  try dsimp only
  repeat' first
    | with_reducible rfl
    | simp only [↓h, ↓apply_ite P, ite_self]
    | split
    | refine (foldl_keeps P _ ?_ _ _).trans ?_
    | intro _ _

theorem balTook_keeps {β : Type} (P : State → β) (h : ∀ (s : State) x0, P { s with bal := x0 } = P s) :
    ∀ a0 s, P (balTook a0 s) = P s := by
  intro a0 s
  unfold balTook
  try dsimp only
  repeat' first
    | with_reducible rfl
    | simp only [↓h, ↓apply_ite P, ite_self]
    | split
    | refine (foldl_keeps P _ ?_ _ _).trans ?_
    | intro _ _

theorem dumpTook_keeps {β : Type} (P : State → β) (h : ∀ (s : State) x0 x1 x2 x3 x4 x5 x6, P { s with out := x0, mbxs := x1, ops := x2, evt := x3, bkp := x4, chans := x5, slate := x6 } = P s) :
    ∀ a0 s, P (dumpTook a0 s) = P s := by
  have k0 := finishOp_keeps P (fun s y0 y1 y2 y3 y4 y5 => h s y0 y1 y2 y3 y4 s.chans y5)
  have k1 := unbindChan_keeps P (fun s y0 => h s s.out s.mbxs s.ops s.evt s.bkp y0 s.slate)
  intro a0 s
  unfold dumpTook
  try dsimp only
  repeat' first
    | with_reducible rfl
    | simp only [↓h, ↓k0, ↓k1, ↓apply_ite P, ite_self]
    | split
    | refine (foldl_keeps P _ ?_ _ _).trans ?_
    | intro _ _

theorem pagesTook_keeps {β : Type} (P : State → β) (h : ∀ (s : State) x0, P { s with ledger := x0 } = P s) :
    ∀ a0 a1 s, P (pagesTook a0 a1 s) = P s := by
  intro a0 a1 s
  unfold pagesTook
  try dsimp only
  repeat' first
    | with_reducible rfl
    | simp only [↓h, ↓apply_ite P, ite_self]
    | split
    | refine (foldl_keeps P _ ?_ _ _).trans ?_
    | intro _ _

theorem streamTook_keeps {β : Type} (P : State → β) (h : ∀ (s : State) x0 x1 x2 x3 x4 x5 x6 x7 x8 x9, P { s with out := x0, mbxs := x1, ops := x2, evt := x3, bkp := x4, chans := x5, prov := x6, ledger := x7, bal := x8, slate := x9 } = P s) :
    ∀ a0 a1 a2 s, P (streamTook a0 a1 a2 s) = P s := by
  have k0 := balTook_keeps P (fun s y0 => h s s.out s.mbxs s.ops s.evt s.bkp s.chans s.prov s.ledger y0 s.slate)
  have k1 := dumpTook_keeps P (fun s y0 y1 y2 y3 y4 y5 y6 => h s y0 y1 y2 y3 y4 y5 s.prov s.ledger s.bal y6)
  have k2 := exportTook_keeps P (fun s y0 y1 y2 y3 y4 y5 y6 y7 => h s y0 y1 y2 y3 y4 y5 y6 s.ledger s.bal y7)
  have k3 := pagesTook_keeps P (fun s y0 => h s s.out s.mbxs s.ops s.evt s.bkp s.chans s.prov y0 s.bal s.slate)
  have k4 := stmtsTook_keeps P (fun s y0 => h s s.out s.mbxs s.ops s.evt s.bkp s.chans s.prov y0 s.bal s.slate)
  intro a0 a1 a2 s
  unfold streamTook
  try dsimp only
  repeat' first
    | with_reducible rfl
    | simp only [↓h, ↓k0, ↓k1, ↓k2, ↓k3, ↓k4, ↓apply_ite P, ite_self]
    | split
    | refine (foldl_keeps P _ ?_ _ _).trans ?_
    | intro _ _

theorem writeStatus_keeps {β : Type} (P : State → β) (h : ∀ (s : State) x0, P { s with out := x0 } = P s) :
    ∀ a0 a1 a2 s, P (writeStatus a0 a1 a2 s) = P s := by
  intro a0 a1 a2 s
  unfold writeStatus
  try dsimp only
  repeat' first
    | with_reducible rfl
    | simp only [↓h, ↓apply_ite P, ite_self]
    | split
    | refine (foldl_keeps P _ ?_ _ _).trans ?_
    | intro _ _

theorem descDone_keeps {β : Type} (P : State → β) (h : ∀ (s : State) x0 x1 x2, P { s with out := x0, evt := x1, chans := x2 } = P s) :
    ∀ a0 a1 a2 s, P (descDone a0 a1 a2 s) = P s := by
  have k0 := raise_keeps P (fun s y0 y1 => h s y0 y1 s.chans)
  have k1 := setChan_keeps P (fun s y0 => h s s.out s.evt y0)
  have k2 := writeStatus_keeps P (fun s y0 => h s y0 s.evt s.chans)
  intro a0 a1 a2 s
  unfold descDone
  try dsimp only
  repeat' first
    | with_reducible rfl
    | simp only [↓h, ↓k0, ↓k1, ↓k2, ↓apply_ite P, ite_self]
    | split
    | refine (foldl_keeps P _ ?_ _ _).trans ?_
    | intro _ _

theorem descFault_keeps {β : Type} (P : State → β) (h : ∀ (s : State) x0 x1 x2 x3 x4, P { s with out := x0, evt := x1, bkp := x2, chans := x3, slate := x4 } = P s) :
    ∀ a0 a1 a2 s, P (descFault a0 a1 a2 s) = P s := by
  have k0 := raise_keeps P (fun s y0 y1 => h s y0 y1 s.bkp s.chans s.slate)
  have k1 := record_keeps P (fun s y0 y1 y2 y3 => h s y0 y1 y2 s.chans y3)
  have k2 := setChan_keeps P (fun s y0 => h s s.out s.evt s.bkp y0 s.slate)
  have k3 := writeStatus_keeps P (fun s y0 => h s y0 s.evt s.bkp s.chans s.slate)
  intro a0 a1 a2 s
  unfold descFault
  try dsimp only
  repeat' first
    | with_reducible rfl
    | simp only [↓h, ↓k0, ↓k1, ↓k2, ↓k3, ↓apply_ite P, ite_self]
    | split
    | refine (foldl_keeps P _ ?_ _ _).trans ?_
    | intro _ _

theorem memUe_keeps {β : Type} (P : State → β) (h : ∀ (s : State) x0 x1 x2 x3, P { s with out := x0, evt := x1, bkp := x2, slate := x3 } = P s) :
    ∀ a0 a1 s, P (memUe a0 a1 s) = P s := by
  have k0 := raise_keeps P (fun s y0 y1 => h s y0 y1 s.bkp s.slate)
  have k1 := record_keeps P (fun s y0 y1 y2 y3 => h s y0 y1 y2 y3)
  intro a0 a1 s
  unfold memUe
  try dsimp only
  repeat' first
    | with_reducible rfl
    | simp only [↓h, ↓k0, ↓k1, ↓apply_ite P, ite_self]
    | split
    | refine (foldl_keeps P _ ?_ _ _).trans ?_
    | intro _ _

theorem noteUe_keeps {β : Type} (P : State → β) (h : ∀ (s : State) x0 x1 x2 x3 x4, P { s with out := x0, evt := x1, bkp := x2, mem := x3, slate := x4 } = P s) :
    ∀ a0 a1 s, P (noteUe a0 a1 s) = P s := by
  have k0 := memUe_keeps P (fun s y0 y1 y2 y3 => h s y0 y1 y2 s.mem y3)
  intro a0 a1 s
  unfold noteUe
  try dsimp only
  repeat' first
    | with_reducible rfl
    | simp only [↓h, ↓k0, ↓apply_ite P, ite_self]
    | split
    | refine (foldl_keeps P _ ?_ _ _).trans ?_
    | intro _ _

theorem putData_keeps {β : Type} (P : State → β) (h : ∀ (s : State) x0, P { s with out := x0 } = P s) :
    ∀ a0 a1 a2 a3 s, P (putData a0 a1 a2 a3 s) = P s := by
  intro a0 a1 a2 a3 s
  unfold putData
  try dsimp only
  repeat' first
    | with_reducible rfl
    | simp only [↓h, ↓apply_ite P, ite_self]
    | split
    | refine (foldl_keeps P _ ?_ _ _).trans ?_
    | intro _ _

theorem transfer_keeps {β : Type} (P : State → β) (h : ∀ (s : State) x0 x1 x2 x3 x4 x5 x6 x7 x8 x9 x10, P { s with out := x0, mbxs := x1, ops := x2, evt := x3, bkp := x4, mem := x5, chans := x6, prov := x7, ledger := x8, bal := x9, slate := x10 } = P s) :
    ∀ a0 a1 a2 a3 a4 a5 a6 a7 s, P (transfer a0 a1 a2 a3 a4 a5 a6 a7 s) = P s := by
  have k0 := descDone_keeps P (fun s y0 y1 y2 => h s y0 s.mbxs s.ops y1 s.bkp s.mem y2 s.prov s.ledger s.bal s.slate)
  have k1 := descFault_keeps P (fun s y0 y1 y2 y3 y4 => h s y0 s.mbxs s.ops y1 y2 s.mem y3 s.prov s.ledger s.bal y4)
  have k2 := noteUe_keeps P (fun s y0 y1 y2 y3 y4 => h s y0 s.mbxs s.ops y1 y2 y3 s.chans s.prov s.ledger s.bal y4)
  have k3 := putData_keeps P (fun s y0 => h s y0 s.mbxs s.ops s.evt s.bkp s.mem s.chans s.prov s.ledger s.bal s.slate)
  have k4 := setChan_keeps P (fun s y0 => h s s.out s.mbxs s.ops s.evt s.bkp s.mem y0 s.prov s.ledger s.bal s.slate)
  have k5 := streamTook_keeps P (fun s y0 y1 y2 y3 y4 y5 y6 y7 y8 y9 => h s y0 y1 y2 y3 y4 s.mem y5 y6 y7 y8 y9)
  intro a0 a1 a2 a3 a4 a5 a6 a7 s
  unfold transfer
  try dsimp only
  repeat' first
    | with_reducible rfl
    | simp only [↓h, ↓k0, ↓k1, ↓k2, ↓k3, ↓k4, ↓k5, ↓apply_ite P, ite_self]
    | split
    | refine (foldl_keeps P _ ?_ _ _).trans ?_
    | intro _ _

theorem holdData_keeps {β : Type} (P : State → β) (h : ∀ (s : State) x0 x1, P { s with chans := x0, slate := x1 } = P s) :
    ∀ a0 a1 a2 a3 s, P (holdData a0 a1 a2 a3 s) = P s := by
  have k0 := setChan_keeps P (fun s y0 => h s y0 s.slate)
  intro a0 a1 a2 a3 s
  unfold holdData
  try dsimp only
  repeat' first
    | with_reducible rfl
    | simp only [↓h, ↓k0, ↓apply_ite P, ite_self]
    | split
    | refine (foldl_keeps P _ ?_ _ _).trans ?_
    | intro _ _

theorem descriptorEnd_keeps {β : Type} (P : State → β) (h : ∀ (s : State) x0 x1 x2 x3 x4 x5 x6 x7 x8 x9 x10, P { s with out := x0, mbxs := x1, ops := x2, evt := x3, bkp := x4, mem := x5, chans := x6, prov := x7, ledger := x8, bal := x9, slate := x10 } = P s) :
    ∀ a0 a1 s, P (descriptorEnd a0 a1 s) = P s := by
  have k0 := descDone_keeps P (fun s y0 y1 y2 => h s y0 s.mbxs s.ops y1 s.bkp s.mem y2 s.prov s.ledger s.bal s.slate)
  have k1 := descFault_keeps P (fun s y0 y1 y2 y3 y4 => h s y0 s.mbxs s.ops y1 y2 s.mem y3 s.prov s.ledger s.bal y4)
  have k2 := holdData_keeps P (fun s y0 y1 => h s s.out s.mbxs s.ops s.evt s.bkp s.mem y0 s.prov s.ledger s.bal y1)
  have k3 := transfer_keeps P (fun s y0 y1 y2 y3 y4 y5 y6 y7 y8 y9 y10 => h s y0 y1 y2 y3 y4 y5 y6 y7 y8 y9 y10)
  intro a0 a1 s
  unfold descriptorEnd
  try dsimp only
  repeat' first
    | with_reducible rfl
    | simp only [↓h, ↓k0, ↓k1, ↓k2, ↓k3, ↓apply_ite P, ite_self]
    | split
    | refine (foldl_keeps P _ ?_ _ _).trans ?_
    | intro _ _

theorem dmaBusError_keeps {β : Type} (P : State → β) (h : ∀ (s : State) x0 x1 x2 x3 x4, P { s with out := x0, evt := x1, bkp := x2, chans := x3, slate := x4 } = P s) :
    ∀ a0 a1 s, P (dmaBusError a0 a1 s) = P s := by
  have k0 := descFault_keeps P (fun s y0 y1 y2 y3 y4 => h s y0 y1 y2 y3 y4)
  intro a0 a1 s
  unfold dmaBusError
  try dsimp only
  repeat' first
    | with_reducible rfl
    | simp only [↓h, ↓k0, ↓apply_ite P, ite_self]
    | split
    | refine (foldl_keeps P _ ?_ _ _).trans ?_
    | intro _ _

theorem xlateSet_keeps {β : Type} (P : State → β) (h : ∀ (s : State) x0, P { s with xlate := x0 } = P s) :
    ∀ a0 s, P (xlateSet a0 s).st = P s := by
  have k0 := refuse_keeps P
  have k1 := replyOk_keeps P
  intro a0 s
  unfold xlateSet
  try dsimp only
  repeat' first
    | with_reducible rfl
    | simp only [↓h, ↓k0, ↓k1, ↓apply_ite P, ite_self, Reply.st_done, Reply.st_pend, Reply.st_twice, Reply.st_wait, replyOk_st, refuse_st]
    | split
    | refine (foldl_keeps P _ ?_ _ _).trans ?_
    | intro _ _

theorem xlateGet_keeps {β : Type} (P : State → β) :
    ∀ a0 s, P (xlateGet a0 s).st = P s := by
  have k0 := refuse_keeps P
  have k1 := replyOk_keeps P
  intro a0 s
  unfold xlateGet
  try dsimp only
  repeat' first
    | with_reducible rfl
    | simp only [↓k0, ↓k1, ↓apply_ite P, ite_self, Reply.st_done, Reply.st_pend, Reply.st_twice, Reply.st_wait, replyOk_st, refuse_st]
    | split
    | refine (foldl_keeps P _ ?_ _ _).trans ?_
    | intro _ _

theorem dmaChanSet_keeps {β : Type} (P : State → β) (h : ∀ (s : State) x0 x1, P { s with out := x0, chans := x1 } = P s) :
    ∀ a0 s, P (dmaChanSet a0 s).st = P s := by
  have k0 := refuse_keeps P
  have k1 := replyOk_keeps P
  have k2 := setChan_keeps P (fun s y0 => h s s.out y0)
  have k3 := writeStatus_keeps P (fun s y0 => h s y0 s.chans)
  intro a0 s
  unfold dmaChanSet
  try dsimp only
  repeat' first
    | with_reducible rfl
    | simp only [↓h, ↓k0, ↓k1, ↓k2, ↓k3, ↓apply_ite P, ite_self, Reply.st_done, Reply.st_pend, Reply.st_twice, Reply.st_wait, replyOk_st, refuse_st]
    | split
    | refine (foldl_keeps P _ ?_ _ _).trans ?_
    | intro _ _

theorem dmaChanStatus_keeps {β : Type} (P : State → β) :
    ∀ a0 s, P (dmaChanStatus a0 s).st = P s := by
  have k0 := refuse_keeps P
  have k1 := replyOk_keeps P
  intro a0 s
  unfold dmaChanStatus
  try dsimp only
  repeat' first
    | with_reducible rfl
    | simp only [↓k0, ↓k1, ↓apply_ite P, ite_self, Reply.st_done, Reply.st_pend, Reply.st_twice, Reply.st_wait, replyOk_st, refuse_st]
    | split
    | refine (foldl_keeps P _ ?_ _ _).trans ?_
    | intro _ _

theorem restartChan_keeps {β : Type} (P : State → β) (h : ∀ (s : State) x0 x1, P { s with chans := x0, prov := x1 } = P s) :
    ∀ a0 s, P (restartChan a0 s) = P s := by
  have k0 := setChan_keeps P (fun s y0 => h s y0 s.prov)
  intro a0 s
  unfold restartChan
  try dsimp only
  repeat' first
    | with_reducible rfl
    | simp only [↓h, ↓k0, ↓apply_ite P, ite_self]
    | split
    | refine (foldl_keeps P _ ?_ _ _).trans ?_
    | intro _ _

theorem dmaChanRestart_keeps {β : Type} (P : State → β) (h : ∀ (s : State) x0 x1, P { s with chans := x0, prov := x1 } = P s) :
    ∀ a0 s, P (dmaChanRestart a0 s).st = P s := by
  have k0 := refuse_keeps P
  have k1 := replyOk_keeps P
  have k2 := restartChan_keeps P (fun s y0 y1 => h s y0 y1)
  intro a0 s
  unfold dmaChanRestart
  try dsimp only
  repeat' first
    | with_reducible rfl
    | simp only [↓h, ↓k0, ↓k1, ↓k2, ↓apply_ite P, ite_self, Reply.st_done, Reply.st_pend, Reply.st_twice, Reply.st_wait, replyOk_st, refuse_st]
    | split
    | refine (foldl_keeps P _ ?_ _ _).trans ?_
    | intro _ _

end Sys2Proof.Machine
end

