-- ==== Sys2Proof/Laws/KeepSafe.lean ====
section
/-! SUPPORT. What the functions of Machine/Safe.lean leave unchanged. -/

set_option linter.unusedSimpArgs false
set_option linter.unreachableTactic false
set_option linter.unusedTactic false

namespace Sys2Proof.Machine

theorem setSafe_keeps {β : Type} (P : State → β) (h : ∀ (s : State) x0, P { s with safe := x0 } = P s) :
    ∀ a0 s, P (setSafe a0 s) = P s := by
  intro a0 s
  unfold setSafe
  try dsimp only
  repeat' first
    | with_reducible rfl
    | simp only [↓h, ↓apply_ite P, ite_self]
    | split
    | refine (foldl_keeps P _ ?_ _ _).trans ?_
    | intro _ _

theorem safetyRecord_keeps {β : Type} (P : State → β) (h : ∀ (s : State) x0 x1 x2 x3, P { s with out := x0, evt := x1, bkp := x2, slate := x3 } = P s) :
    ∀ a0 s, P (safetyRecord a0 s) = P s := by
  have k0 := record_keeps P (fun s y0 y1 y2 y3 => h s y0 y1 y2 y3)
  intro a0 s
  unfold safetyRecord
  try dsimp only
  repeat' first
    | with_reducible rfl
    | simp only [↓h, ↓k0, ↓apply_ite P, ite_self]
    | split
    | refine (foldl_keeps P _ ?_ _ _).trans ?_
    | intro _ _

theorem dropDue_keeps {β : Type} (P : State → β) (h : ∀ (s : State) x0, P { s with safe := x0 } = P s) :
    ∀ s, P (dropDue s) = P s := by
  intro s
  unfold dropDue
  try dsimp only
  repeat' first
    | with_reducible rfl
    | simp only [↓h, ↓apply_ite P, ite_self]
    | split
    | refine (foldl_keeps P _ ?_ _ _).trans ?_
    | intro _ _

theorem enterFault_keeps {β : Type} (P : State → β) (h : ∀ (s : State) x0 x1 x2 x3 x4 x5, P { s with out := x0, evt := x1, bkp := x2, slate := x3, safe := x4, faultTimes := x5 } = P s) :
    ∀ a0 a1 s, P (enterFault a0 a1 s) = P s := by
  have k0 := dropDue_keeps P (fun s y0 => h s s.out s.evt s.bkp s.slate y0 s.faultTimes)
  have k1 := raise_keeps P (fun s y0 y1 => h s y0 y1 s.bkp s.slate s.safe s.faultTimes)
  have k2 := safetyRecord_keeps P (fun s y0 y1 y2 y3 => h s y0 y1 y2 y3 s.safe s.faultTimes)
  have k3 := setSafe_keeps P (fun s y0 => h s s.out s.evt s.bkp s.slate y0 s.faultTimes)
  intro a0 a1 s
  unfold enterFault
  try dsimp only
  repeat' first
    | with_reducible rfl
    | simp only [↓h, ↓k0, ↓k1, ↓k2, ↓k3, ↓apply_ite P, ite_self]
    | split
    | refine (foldl_keeps P _ ?_ _ _).trans ?_
    | intro _ _

theorem safetyFault_keeps {β : Type} (P : State → β) (h : ∀ (s : State) x0 x1 x2 x3 x4 x5, P { s with out := x0, evt := x1, bkp := x2, slate := x3, safe := x4, faultTimes := x5 } = P s) :
    ∀ a0 s, P (safetyFault a0 s) = P s := by
  have k0 := enterFault_keeps P (fun s y0 y1 y2 y3 y4 y5 => h s y0 y1 y2 y3 y4 y5)
  have k1 := safetyRecord_keeps P (fun s y0 y1 y2 y3 => h s y0 y1 y2 y3 s.safe s.faultTimes)
  intro a0 s
  unfold safetyFault
  try dsimp only
  repeat' first
    | with_reducible rfl
    | simp only [↓h, ↓k0, ↓k1, ↓apply_ite P, ite_self]
    | split
    | refine (foldl_keeps P _ ?_ _ _).trans ?_
    | intro _ _

theorem diagnose_keeps {β : Type} (P : State → β) (h : ∀ (s : State) x0 x1 x2 x3 x4 x5, P { s with out := x0, evt := x1, bkp := x2, slate := x3, safe := x4, faultTimes := x5 } = P s) :
    ∀ a0 a1 s, P (diagnose a0 a1 s) = P s := by
  have k0 := safetyFault_keeps P (fun s y0 y1 y2 y3 y4 y5 => h s y0 y1 y2 y3 y4 y5)
  intro a0 a1 s
  unfold diagnose
  try dsimp only
  repeat' first
    | with_reducible rfl
    | simp only [↓h, ↓k0, ↓apply_ite P, ite_self]
    | split
    | refine (foldl_keeps P _ ?_ _ _).trans ?_
    | intro _ _

theorem gateTest_keeps {β : Type} (P : State → β) (h : ∀ (s : State) x0 x1 x2 x3 x4 x5 x6 x7 x8, P { s with now := x0, mono := x1, freeCtr := x2, out := x3, evt := x4, bkp := x5, slate := x6, safe := x7, faultTimes := x8 } = P s) :
    ∀ a0 s, P (gateTest a0 s) = P s := by
  have k0 := diagnose_keeps P (fun s y0 y1 y2 y3 y4 y5 => h s s.now s.mono s.freeCtr y0 y1 y2 y3 y4 y5)
  have k1 := pacedAt_keeps P (fun s y0 y1 y2 => h s y0 y1 y2 s.out s.evt s.bkp s.slate s.safe s.faultTimes)
  intro a0 s
  unfold gateTest
  try dsimp only
  repeat' first
    | with_reducible rfl
    | simp only [↓h, ↓k0, ↓k1, ↓apply_ite P, ite_self]
    | split
    | refine (foldl_keeps P _ ?_ _ _).trans ?_
    | intro _ _

theorem pairScrub_keeps {β : Type} (P : State → β) (h : ∀ (s : State) x0 x1 x2 x3 x4 x5 x6 x7 x8, P { s with now := x0, mono := x1, freeCtr := x2, out := x3, evt := x4, bkp := x5, slate := x6, safe := x7, faultTimes := x8 } = P s) :
    ∀ a0 s, P (pairScrub a0 s) = P s := by
  have k0 := diagnose_keeps P (fun s y0 y1 y2 y3 y4 y5 => h s s.now s.mono s.freeCtr y0 y1 y2 y3 y4 y5)
  have k1 := pacedAt_keeps P (fun s y0 y1 y2 => h s y0 y1 y2 s.out s.evt s.bkp s.slate s.safe s.faultTimes)
  intro a0 s
  unfold pairScrub
  try dsimp only
  repeat' first
    | with_reducible rfl
    | simp only [↓h, ↓k0, ↓k1, ↓apply_ite P, ite_self]
    | split
    | refine (foldl_keeps P _ ?_ _ _).trans ?_
    | intro _ _

theorem heartbeat_keeps {β : Type} (P : State → β) (h : ∀ (s : State) x0 x1 x2 x3 x4 x5, P { s with out := x0, evt := x1, bkp := x2, slate := x3, safe := x4, faultTimes := x5 } = P s) :
    ∀ a0 s, P (heartbeat a0 s) = P s := by
  have k0 := diagnose_keeps P (fun s y0 y1 y2 y3 y4 y5 => h s y0 y1 y2 y3 y4 y5)
  intro a0 s
  unfold heartbeat
  try dsimp only
  repeat' first
    | with_reducible rfl
    | simp only [↓h, ↓k0, ↓apply_ite P, ite_self]
    | split
    | refine (foldl_keeps P _ ?_ _ _).trans ?_
    | intro _ _

theorem autoRecover_keeps {β : Type} (P : State → β) (h : ∀ (s : State) x0 x1 x2, P { s with now := x0, mono := x1, safe := x2 } = P s) :
    ∀ s, P (autoRecover s) = P s := by
  have k0 := advMono_keeps P (fun s y0 y1 => h s y0 y1 s.safe)
  intro s
  unfold autoRecover
  try dsimp only
  repeat' first
    | with_reducible rfl
    | simp only [↓h, ↓k0, ↓apply_ite P, ite_self]
    | split
    | refine (foldl_keeps P _ ?_ _ _).trans ?_
    | intro _ _

theorem proofPassed_keeps {β : Type} (P : State → β) (h : ∀ (s : State) x0 x1 x2, P { s with out := x0, evt := x1, safe := x2 } = P s) :
    ∀ s, P (proofPassed s) = P s := by
  have k0 := raise_keeps P (fun s y0 y1 => h s y0 y1 s.safe)
  have k1 := setSafe_keeps P (fun s y0 => h s s.out s.evt y0)
  intro s
  unfold proofPassed
  try dsimp only
  repeat' first
    | with_reducible rfl
    | simp only [↓h, ↓k0, ↓k1, ↓apply_ite P, ite_self]
    | split
    | refine (foldl_keeps P _ ?_ _ _).trans ?_
    | intro _ _

theorem proofTestEnd_keeps {β : Type} (P : State → β) (h : ∀ (s : State) x0 x1 x2 x3 x4 x5 x6 x7 x8, P { s with freeCtr := x0, out := x1, mbxs := x2, ops := x3, evt := x4, bkp := x5, slate := x6, safe := x7, faultTimes := x8 } = P s) :
    ∀ a0 s, P (proofTestEnd a0 s) = P s := by
  have k0 := faultSeq_keeps P (fun s y0 => h s y0 s.out s.mbxs s.ops s.evt s.bkp s.slate s.safe s.faultTimes)
  have k1 := finishOp_keeps P (fun s y0 y1 y2 y3 y4 y5 => h s s.freeCtr y0 y1 y2 y3 y4 y5 s.safe s.faultTimes)
  have k2 := proofPassed_keeps P (fun s y0 y1 y2 => h s s.freeCtr y0 s.mbxs s.ops y1 s.bkp s.slate y2 s.faultTimes)
  have k3 := safetyFault_keeps P (fun s y0 y1 y2 y3 y4 y5 => h s s.freeCtr y0 s.mbxs s.ops y1 y2 y3 y4 y5)
  have q0 := fun b0 b1 t u (e : faultSeq b0 b1 = (u, t)) => (congrArg (fun z => P z.2) e).symm.trans (k0 b0 b1)
  intro a0 s
  unfold proofTestEnd
  try dsimp only
  repeat' first
    | with_reducible rfl
    | simp only [↓h, ↓k0, ↓k1, ↓k2, ↓k3, ↓apply_ite P, ite_self]
    | split
    | refine (q0 _ _ _ _ (by assumption)).trans ?_
    | refine (foldl_keeps P _ ?_ _ _).trans ?_
    | intro _ _

theorem safetyClear_keeps {β : Type} (P : State → β) (h : ∀ (s : State) x0, P { s with safe := x0 } = P s) :
    ∀ a0 s, P (safetyClear a0 s).st = P s := by
  have k0 := refuse_keeps P
  have k1 := replyOk_keeps P
  intro a0 s
  unfold safetyClear
  try dsimp only
  repeat' first
    | with_reducible rfl
    | simp only [↓h, ↓k0, ↓k1, ↓apply_ite P, ite_self, Reply.st_done, Reply.st_pend, Reply.st_twice, Reply.st_wait, replyOk_st, refuse_st]
    | split
    | refine (foldl_keeps P _ ?_ _ _).trans ?_
    | intro _ _

theorem safetyProofTest_keeps {β : Type} (P : State → β) (h : ∀ (s : State) x0, P { s with safe := x0 } = P s) :
    ∀ a0 s, P (safetyProofTest a0 s).st = P s := by
  have k0 := refuse_keeps P
  intro a0 s
  unfold safetyProofTest
  try dsimp only
  repeat' first
    | with_reducible rfl
    | simp only [↓h, ↓k0, ↓apply_ite P, ite_self, Reply.st_done, Reply.st_pend, Reply.st_twice, Reply.st_wait, replyOk_st, refuse_st]
    | split
    | refine (foldl_keeps P _ ?_ _ _).trans ?_
    | intro _ _

end Sys2Proof.Machine
end

