-- ==== Sys2Proof/Laws/KeepSteps.lean ====
section
/-! SUPPORT. What the functions of Machine/Steps.lean leave unchanged. -/

set_option linter.unusedSimpArgs false
set_option linter.unreachableTactic false
set_option linter.unusedTactic false

namespace Sys2Proof.Machine

theorem updCamp_keeps {β : Type} (P : State → β) (h : ∀ (s : State) x0, P { s with camps := x0 } = P s) :
    ∀ a0 a1 s, P (updCamp a0 a1 s) = P s := by
  intro a0 a1 s
  unfold updCamp
  try dsimp only
  repeat' first
    | with_reducible rfl
    | simp only [↓h, ↓apply_ite P, ite_self]
    | split
    | refine (foldl_keeps P _ ?_ _ _).trans ?_
    | intro _ _

theorem updTgt_keeps {β : Type} (P : State → β) (h : ∀ (s : State) x0, P { s with camps := x0 } = P s) :
    ∀ a0 a1 a2 s, P (updTgt a0 a1 a2 s) = P s := by
  have k0 := updCamp_keeps P (fun s y0 => h s y0)
  intro a0 a1 a2 s
  unfold updTgt
  try dsimp only
  repeat' first
    | with_reducible rfl
    | simp only [↓h, ↓k0, ↓apply_ite P, ite_self]
    | split
    | refine (foldl_keeps P _ ?_ _ _).trans ?_
    | intro _ _

theorem setCampState_keeps {β : Type} (P : State → β) (h : ∀ (s : State) x0 x1 x2 x3 x4 x5 x6 x7, P { s with out := x0, evt := x1, jnv := x2, jnl := x3, prov := x4, roots := x5, camps := x6, life := x7 } = P s) :
    ∀ a0 a1 s, P (setCampState a0 a1 s) = P s := by
  have k0 := commitOne_keeps P (fun s y0 y1 y2 y3 y4 y5 y6 => h s y0 y1 y2 y3 y4 y5 s.camps y6)
  have k1 := raise_keeps P (fun s y0 y1 => h s y0 y1 s.jnv s.jnl s.prov s.roots s.camps s.life)
  have k2 := updCamp_keeps P (fun s y0 => h s s.out s.evt s.jnv s.jnl s.prov s.roots y0 s.life)
  intro a0 a1 s
  unfold setCampState
  try dsimp only
  repeat' first
    | with_reducible rfl
    | simp only [↓h, ↓k0, ↓k1, ↓k2, ↓apply_ite P, ite_self]
    | split
    | refine (foldl_keeps P _ ?_ _ _).trans ?_
    | intro _ _

theorem settle_keeps {β : Type} (P : State → β) (h : ∀ (s : State) x0 x1 x2 x3 x4 x5 x6 x7 x8 x9 x10 x11, P { s with out := x0, mbxs := x1, ops := x2, evt := x3, bkp := x4, jnv := x5, jnl := x6, prov := x7, roots := x8, camps := x9, slate := x10, life := x11 } = P s) :
    ∀ a0 s, P (settle a0 s) = P s := by
  have k0 := finishOps_keeps P (fun s y0 y1 y2 y3 y4 y5 => h s y0 y1 y2 y3 y4 s.jnv s.jnl s.prov s.roots s.camps y5 s.life)
  have k1 := setCampState_keeps P (fun s y0 y1 y2 y3 y4 y5 y6 y7 => h s y0 s.mbxs s.ops y1 s.bkp y2 y3 y4 y5 y6 s.slate y7)
  have k2 := updCamp_keeps P (fun s y0 => h s s.out s.mbxs s.ops s.evt s.bkp s.jnv s.jnl s.prov s.roots y0 s.slate s.life)
  intro a0 s
  unfold settle
  try dsimp only
  repeat' first
    | with_reducible rfl
    | simp only [↓h, ↓k0, ↓k1, ↓k2, ↓apply_ite P, ite_self]
    | split
    | refine (foldl_keeps P _ ?_ _ _).trans ?_
    | intro _ _

theorem settleAll_keeps {β : Type} (P : State → β) (h : ∀ (s : State) x0 x1 x2 x3 x4 x5 x6 x7 x8 x9 x10 x11, P { s with out := x0, mbxs := x1, ops := x2, evt := x3, bkp := x4, jnv := x5, jnl := x6, prov := x7, roots := x8, camps := x9, slate := x10, life := x11 } = P s) :
    ∀ s, P (settleAll s) = P s := by
  have k0 := settle_keeps P (fun s y0 y1 y2 y3 y4 y5 y6 y7 y8 y9 y10 y11 => h s y0 y1 y2 y3 y4 y5 y6 y7 y8 y9 y10 y11)
  intro s
  unfold settleAll
  try dsimp only
  repeat' first
    | with_reducible rfl
    | simp only [↓h, ↓k0, ↓apply_ite P, ite_self]
    | split
    | refine (foldl_keeps P _ ?_ _ _).trans ?_
    | intro _ _

theorem endTarget_keeps {β : Type} (P : State → β) (h : ∀ (s : State) x0 x1 x2 x3 x4 x5 x6 x7, P { s with out := x0, evt := x1, jnv := x2, jnl := x3, prov := x4, roots := x5, camps := x6, life := x7 } = P s) :
    ∀ a0 a1 a2 s, P (endTarget a0 a1 a2 s) = P s := by
  have k0 := commitOne_keeps P (fun s y0 y1 y2 y3 y4 y5 y6 => h s y0 y1 y2 y3 y4 y5 s.camps y6)
  have k1 := updCamp_keeps P (fun s y0 => h s s.out s.evt s.jnv s.jnl s.prov s.roots y0 s.life)
  have k2 := updTgt_keeps P (fun s y0 => h s s.out s.evt s.jnv s.jnl s.prov s.roots y0 s.life)
  intro a0 a1 a2 s
  unfold endTarget
  try dsimp only
  repeat' first
    | with_reducible rfl
    | simp only [↓h, ↓k0, ↓k1, ↓k2, ↓apply_ite P, ite_self]
    | split
    | refine (foldl_keeps P _ ?_ _ _).trans ?_
    | intro _ _

theorem markSent_keeps {β : Type} (P : State → β) (h : ∀ (s : State) x0, P { s with camps := x0 } = P s) :
    ∀ a0 a1 a2 s, P (markSent a0 a1 a2 s) = P s := by
  have k0 := updTgt_keeps P (fun s y0 => h s y0)
  intro a0 a1 a2 s
  unfold markSent
  try dsimp only
  repeat' first
    | with_reducible rfl
    | simp only [↓h, ↓k0, ↓apply_ite P, ite_self]
    | split
    | refine (foldl_keeps P _ ?_ _ _).trans ?_
    | intro _ _

theorem nextDcnt_keeps {β : Type} (P : State → β) (h : ∀ (s : State) x0 x1, P { s with eps := x0, mem := x1 } = P s) :
    ∀ a0 s, P (nextDcnt a0 s).1 = P s := by
  have k0 := updEp_keeps P (fun s y0 y1 => h s y0 y1)
  intro a0 s
  unfold nextDcnt
  try dsimp only
  repeat' first
    | with_reducible rfl
    | simp only [↓h, ↓k0, ↓apply_ite P, ite_self]
    | split
    | refine (foldl_keeps P _ ?_ _ _).trans ?_
    | intro _ _

theorem dlKey_keeps {β : Type} (P : State → β) (h : ∀ (s : State) x0 x1 x2 x3 x4 x5 x6 x7, P { s with out := x0, evt := x1, bkp := x2, eps := x3, slots := x4, keys := x5, slate := x6, life := x7 } = P s) :
    ∀ a0 s, P (dlKey a0 s).1 = P s := by
  have k0 := epKey_keeps P (fun s y0 y1 y2 y3 y4 y5 y6 y7 => h s y0 y1 y2 y3 y4 y5 y6 y7)
  have q0 := fun b0 b1 t u (e : epKey b0 b1 = (t, u)) => (congrArg (fun z => P z.1) e).symm.trans (k0 b0 b1)
  intro a0 s
  unfold dlKey
  try dsimp only
  repeat' first
    | with_reducible rfl
    | simp only [↓h, ↓k0, ↓apply_ite P, ite_self]
    | split
    | refine (q0 _ _ _ _ (by assumption)).trans ?_
    | refine (foldl_keeps P _ ?_ _ _).trans ?_
    | intro _ _

theorem backToWaiting_keeps {β : Type} (P : State → β) (h : ∀ (s : State) x0, P { s with camps := x0 } = P s) :
    ∀ a0 a1 s, P (backToWaiting a0 a1 s) = P s := by
  have k0 := updTgt_keeps P (fun s y0 => h s y0)
  intro a0 a1 s
  unfold backToWaiting
  try dsimp only
  repeat' first
    | with_reducible rfl
    | simp only [↓h, ↓k0, ↓apply_ite P, ite_self]
    | split
    | refine (foldl_keeps P _ ?_ _ _).trans ?_
    | intro _ _

theorem failTarget_keeps {β : Type} (P : State → β) (h : ∀ (s : State) x0 x1 x2, P { s with out := x0, evt := x1, camps := x2 } = P s) :
    ∀ a0 a1 s, P (failTarget a0 a1 s) = P s := by
  have k0 := raiseIf_keeps P (fun s y0 y1 => h s y0 y1 s.camps)
  have k1 := updCamp_keeps P (fun s y0 => h s s.out s.evt y0)
  have k2 := updTgt_keeps P (fun s y0 => h s s.out s.evt y0)
  intro a0 a1 s
  unfold failTarget
  try dsimp only
  repeat' first
    | with_reducible rfl
    | simp only [↓h, ↓k0, ↓k1, ↓k2, ↓apply_ite P, ite_self]
    | split
    | refine (foldl_keeps P _ ?_ _ _).trans ?_
    | intro _ _

theorem toNextSession_keeps {β : Type} (P : State → β) (h : ∀ (s : State) x0, P { s with camps := x0 } = P s) :
    ∀ a0 a1 s, P (toNextSession a0 a1 s) = P s := by
  have k0 := updTgt_keeps P (fun s y0 => h s y0)
  intro a0 a1 s
  unfold toNextSession
  try dsimp only
  repeat' first
    | with_reducible rfl
    | simp only [↓h, ↓k0, ↓apply_ite P, ite_self]
    | split
    | refine (foldl_keeps P _ ?_ _ _).trans ?_
    | intro _ _

theorem waitEnd_keeps {β : Type} (P : State → β) (h : ∀ (s : State) x0 x1 x2 x3 x4 x5 x6 x7 x8 x9 x10 x11, P { s with out := x0, mbxs := x1, ops := x2, evt := x3, bkp := x4, jnv := x5, jnl := x6, prov := x7, roots := x8, camps := x9, slate := x10, life := x11 } = P s) :
    ∀ a0 a1 s, P (waitEnd a0 a1 s) = P s := by
  have k0 := backToWaiting_keeps P (fun s y0 => h s s.out s.mbxs s.ops s.evt s.bkp s.jnv s.jnl s.prov s.roots y0 s.slate s.life)
  have k1 := endTarget_keeps P (fun s y0 y1 y2 y3 y4 y5 y6 y7 => h s y0 s.mbxs s.ops y1 s.bkp y2 y3 y4 y5 y6 s.slate y7)
  have k2 := failTarget_keeps P (fun s y0 y1 y2 => h s y0 s.mbxs s.ops y1 s.bkp s.jnv s.jnl s.prov s.roots y2 s.slate s.life)
  have k3 := settle_keeps P (fun s y0 y1 y2 y3 y4 y5 y6 y7 y8 y9 y10 y11 => h s y0 y1 y2 y3 y4 y5 y6 y7 y8 y9 y10 y11)
  have k4 := toNextSession_keeps P (fun s y0 => h s s.out s.mbxs s.ops s.evt s.bkp s.jnv s.jnl s.prov s.roots y0 s.slate s.life)
  intro a0 a1 s
  unfold waitEnd
  try dsimp only
  repeat' first
    | with_reducible rfl
    | simp only [↓h, ↓k0, ↓k1, ↓k2, ↓k3, ↓k4, ↓apply_ite P, ite_self]
    | split
    | refine (foldl_keeps P _ ?_ _ _).trans ?_
    | intro _ _

theorem groupCommitted_keeps {β : Type} (P : State → β) (h : ∀ (s : State) x0 x1 x2 x3 x4 x5 x6 x7 x8 x9 x10 x11, P { s with out := x0, mbxs := x1, ops := x2, evt := x3, bkp := x4, jnv := x5, jnl := x6, prov := x7, roots := x8, camps := x9, slate := x10, life := x11 } = P s) :
    ∀ a0 s, P (groupCommitted a0 s) = P s := by
  have k0 := updTgt_keeps P (fun s y0 => h s s.out s.mbxs s.ops s.evt s.bkp s.jnv s.jnl s.prov s.roots y0 s.slate s.life)
  have k1 := waitEnd_keeps P (fun s y0 y1 y2 y3 y4 y5 y6 y7 y8 y9 y10 y11 => h s y0 y1 y2 y3 y4 y5 y6 y7 y8 y9 y10 y11)
  intro a0 s
  unfold groupCommitted
  try dsimp only
  repeat' first
    | with_reducible rfl
    | simp only [↓h, ↓k0, ↓k1, ↓apply_ite P, ite_self]
    | split
    | refine (foldl_keeps P _ ?_ _ _).trans ?_
    | intro _ _

theorem skipTargets_keeps {β : Type} (P : State → β) (h : ∀ (s : State) x0 x1 x2 x3 x4 x5 x6 x7 x8 x9 x10 x11, P { s with out := x0, mbxs := x1, ops := x2, evt := x3, bkp := x4, jnv := x5, jnl := x6, prov := x7, roots := x8, camps := x9, slate := x10, life := x11 } = P s) :
    ∀ a0 s, P (skipTargets a0 s) = P s := by
  have k0 := settle_keeps P (fun s y0 y1 y2 y3 y4 y5 y6 y7 y8 y9 y10 y11 => h s y0 y1 y2 y3 y4 y5 y6 y7 y8 y9 y10 y11)
  have k1 := updTgt_keeps P (fun s y0 => h s s.out s.mbxs s.ops s.evt s.bkp s.jnv s.jnl s.prov s.roots y0 s.slate s.life)
  intro a0 s
  unfold skipTargets
  try dsimp only
  repeat' first
    | with_reducible rfl
    | simp only [↓h, ↓k0, ↓k1, ↓apply_ite P, ite_self]
    | split
    | refine (foldl_keeps P _ ?_ _ _).trans ?_
    | intro _ _

theorem applyCredit_keeps {β : Type} (P : State → β) (h : ∀ (s : State) x0 x1 x2, P { s with eps := x0, mem := x1, ledger := x2 } = P s) :
    ∀ a0 a1 a2 s, P (applyCredit a0 a1 a2 s) = P s := by
  have k0 := updImg_keeps P (fun s y0 y1 y2 => h s y0 y1 y2)
  intro a0 a1 a2 s
  unfold applyCredit
  try dsimp only
  repeat' first
    | with_reducible rfl
    | simp only [↓h, ↓k0, ↓apply_ite P, ite_self]
    | split
    | refine (foldl_keeps P _ ?_ _ _).trans ?_
    | intro _ _

theorem confApply_keeps {β : Type} (P : State → β) (h : ∀ (s : State) x0 x1 x2 x3 x4 x5 x6 x7 x8 x9 x10 x11 x12 x13 x14 x15, P { s with out := x0, mbxs := x1, ops := x2, evt := x3, bkp := x4, eps := x5, mem := x6, jnv := x7, jnl := x8, prov := x9, roots := x10, ledger := x11, camps := x12, confUnmatched := x13, slate := x14, life := x15 } = P s) :
    ∀ a0 a1 s, P (confApply a0 a1 s) = P s := by
  have k0 := applyCredit_keeps P (fun s y0 y1 y2 => h s s.out s.mbxs s.ops s.evt s.bkp y0 y1 s.jnv s.jnl s.prov s.roots y2 s.camps s.confUnmatched s.slate s.life)
  have k1 := endTarget_keeps P (fun s y0 y1 y2 y3 y4 y5 y6 y7 => h s y0 s.mbxs s.ops y1 s.bkp s.eps s.mem y2 y3 y4 y5 s.ledger y6 s.confUnmatched s.slate y7)
  have k2 := raiseIf_keeps P (fun s y0 y1 => h s y0 s.mbxs s.ops y1 s.bkp s.eps s.mem s.jnv s.jnl s.prov s.roots s.ledger s.camps s.confUnmatched s.slate s.life)
  have k3 := settle_keeps P (fun s y0 y1 y2 y3 y4 y5 y6 y7 y8 y9 y10 y11 => h s y0 y1 y2 y3 y4 s.eps s.mem y5 y6 y7 y8 s.ledger y9 s.confUnmatched y10 y11)
  have k4 := updCamp_keeps P (fun s y0 => h s s.out s.mbxs s.ops s.evt s.bkp s.eps s.mem s.jnv s.jnl s.prov s.roots s.ledger y0 s.confUnmatched s.slate s.life)
  have k5 := updTgt_keeps P (fun s y0 => h s s.out s.mbxs s.ops s.evt s.bkp s.eps s.mem s.jnv s.jnl s.prov s.roots s.ledger y0 s.confUnmatched s.slate s.life)
  intro a0 a1 s
  unfold confApply
  try dsimp only
  repeat' first
    | with_reducible rfl
    | simp only [↓h, ↓k0, ↓k1, ↓k2, ↓k3, ↓k4, ↓k5, ↓apply_ite P, ite_self]
    | split
    | refine (foldl_keeps P _ ?_ _ _).trans ?_
    | intro _ _

theorem fbTake_keeps {β : Type} (P : State → β) (h : ∀ (s : State) x0 x1 x2 x3 x4 x5 x6, P { s with out := x0, evt := x1, bkp := x2, eps := x3, mem := x4, camps := x5, slate := x6 } = P s) :
    ∀ a0 a1 s, P (fbTake a0 a1 s) = P s := by
  have k0 := raise_keeps P (fun s y0 y1 => h s y0 y1 s.bkp s.eps s.mem s.camps s.slate)
  have k1 := record_keeps P (fun s y0 y1 y2 y3 => h s y0 y1 y2 s.eps s.mem s.camps y3)
  have k2 := updEp_keeps P (fun s y0 y1 => h s s.out s.evt s.bkp y0 y1 s.camps s.slate)
  have k3 := updTgt_keeps P (fun s y0 => h s s.out s.evt s.bkp s.eps s.mem y0 s.slate)
  intro a0 a1 s
  unfold fbTake
  try dsimp only
  repeat' first
    | with_reducible rfl
    | simp only [↓h, ↓k0, ↓k1, ↓k2, ↓k3, ↓apply_ite P, ite_self]
    | split
    | refine (foldl_keeps P _ ?_ _ _).trans ?_
    | intro _ _

theorem fbApply_keeps {β : Type} (P : State → β) (h : ∀ (s : State) x0 x1 x2 x3 x4 x5 x6, P { s with out := x0, evt := x1, bkp := x2, eps := x3, mem := x4, camps := x5, slate := x6 } = P s) :
    ∀ a0 a1 s, P (fbApply a0 a1 s) = P s := by
  have k0 := fbTake_keeps P (fun s y0 y1 y2 y3 y4 y5 y6 => h s y0 y1 y2 y3 y4 y5 y6)
  intro a0 a1 s
  unfold fbApply
  try dsimp only
  repeat' first
    | with_reducible rfl
    | simp only [↓h, ↓k0, ↓apply_ite P, ite_self]
    | split
    | refine (foldl_keeps P _ ?_ _ _).trans ?_
    | intro _ _

end Sys2Proof.Machine
end

