-- ==== Sys2Proof/Laws/KeepDownlink.lean ====
section
/-! SUPPORT. What the functions of Machine/Downlink.lean leave unchanged. -/

set_option linter.unusedSimpArgs false
set_option linter.unreachableTactic false
set_option linter.unusedTactic false

namespace Sys2Proof.Machine

theorem lbtBusy_keeps {β : Type} (P : State → β) (h : ∀ (s : State) x0 x1, P { s with freeCtr := x0, keys := x1 } = P s) :
    ∀ a0 a1 s, P (lbtBusy a0 a1 s).2 = P s := by
  have k0 := draw_keeps P (fun s y0 y1 => h s y0 y1)
  have q0 := fun b0 t u (e : draw b0 = (u, t)) => (congrArg (fun z => P z.2) e).symm.trans (k0 b0)
  intro a0 a1 s
  unfold lbtBusy
  try dsimp only
  repeat' first
    | with_reducible rfl
    | simp only [↓h, ↓k0, ↓apply_ite P, ite_self]
    | split
    | refine (q0 _ _ _ (by assumption)).trans ?_
    | refine (foldl_keeps P _ ?_ _ _).trans ?_
    | intro _ _

theorem setOpp_keeps {β : Type} (P : State → β) (h : ∀ (s : State) x0, P { s with sectors := x0 } = P s) :
    ∀ a0 a1 a2 s, P (setOpp a0 a1 a2 s) = P s := by
  have k0 := setSec_keeps P (fun s y0 => h s y0)
  intro a0 a1 a2 s
  unfold setOpp
  try dsimp only
  repeat' first
    | with_reducible rfl
    | simp only [↓h, ↓k0, ↓apply_ite P, ite_self]
    | split
    | refine (foldl_keeps P _ ?_ _ _).trans ?_
    | intro _ _

theorem dropOpp_keeps {β : Type} (P : State → β) (h : ∀ (s : State) x0, P { s with sectors := x0 } = P s) :
    ∀ a0 a1 s, P (dropOpp a0 a1 s) = P s := by
  have k0 := setSec_keeps P (fun s y0 => h s y0)
  intro a0 a1 s
  unfold dropOpp
  try dsimp only
  repeat' first
    | with_reducible rfl
    | simp only [↓h, ↓k0, ↓apply_ite P, ite_self]
    | split
    | refine (foldl_keeps P _ ?_ _ _).trans ?_
    | intro _ _

theorem deepGiveUp_keeps {β : Type} (P : State → β) (h : ∀ (s : State) x0 x1 x2, P { s with out := x0, evt := x1, sectors := x2 } = P s) :
    ∀ a0 s, P (deepGiveUp a0 s) = P s := by
  have k0 := carryAll_keeps P (fun s y0 y1 y2 => h s y0 y1 y2)
  have k1 := setSec_keeps P (fun s y0 => h s s.out s.evt y0)
  intro a0 s
  unfold deepGiveUp
  try dsimp only
  repeat' first
    | with_reducible rfl
    | simp only [↓h, ↓k0, ↓k1, ↓apply_ite P, ite_self]
    | split
    | refine (foldl_keeps P _ ?_ _ _).trans ?_
    | intro _ _

theorem deepListened_keeps {β : Type} (P : State → β) (h : ∀ (s : State) x0 x1 x2 x3 x4, P { s with freeCtr := x0, out := x1, evt := x2, sectors := x3, keys := x4 } = P s) :
    ∀ a0 a1 a2 s, P (deepListened a0 a1 a2 s) = P s := by
  have k0 := deepGiveUp_keeps P (fun s y0 y1 y2 => h s s.freeCtr y0 y1 y2 s.keys)
  have k1 := lbtBusy_keeps P (fun s y0 y1 => h s y0 s.out s.evt s.sectors y1)
  have k2 := setSec_keeps P (fun s y0 => h s s.freeCtr s.out s.evt y0 s.keys)
  have q1 := fun b0 b1 b2 t u (e : lbtBusy b0 b1 b2 = (u, t)) => (congrArg (fun z => P z.2) e).symm.trans (k1 b0 b1 b2)
  intro a0 a1 a2 s
  unfold deepListened
  try dsimp only
  repeat' first
    | with_reducible rfl
    | simp only [↓h, ↓k0, ↓k1, ↓k2, ↓apply_ite P, ite_self]
    | split
    | refine (q1 _ _ _ _ _ (by assumption)).trans ?_
    | refine (foldl_keeps P _ ?_ _ _).trans ?_
    | intro _ _

theorem oppListened_keeps {β : Type} (P : State → β) (h : ∀ (s : State) x0 x1 x2, P { s with freeCtr := x0, sectors := x1, keys := x2 } = P s) :
    ∀ a0 a1 a2 s, P (oppListened a0 a1 a2 s) = P s := by
  have k0 := dropOpp_keeps P (fun s y0 => h s s.freeCtr y0 s.keys)
  have k1 := lbtBusy_keeps P (fun s y0 y1 => h s y0 s.sectors y1)
  have k2 := setOpp_keeps P (fun s y0 => h s s.freeCtr y0 s.keys)
  have q1 := fun b0 b1 b2 t u (e : lbtBusy b0 b1 b2 = (u, t)) => (congrArg (fun z => P z.2) e).symm.trans (k1 b0 b1 b2)
  intro a0 a1 a2 s
  unfold oppListened
  try dsimp only
  repeat' first
    | with_reducible rfl
    | simp only [↓h, ↓k0, ↓k1, ↓k2, ↓apply_ite P, ite_self]
    | split
    | refine (q1 _ _ _ _ _ (by assumption)).trans ?_
    | refine (foldl_keeps P _ ?_ _ _).trans ?_
    | intro _ _

theorem lbtListenEnd_keeps {β : Type} (P : State → β) (h : ∀ (s : State) x0 x1 x2 x3 x4, P { s with freeCtr := x0, out := x1, evt := x2, sectors := x3, keys := x4 } = P s) :
    ∀ a0 a1 s, P (lbtListenEnd a0 a1 s) = P s := by
  have k0 := deepListened_keeps P (fun s y0 y1 y2 y3 y4 => h s y0 y1 y2 y3 y4)
  have k1 := lbtBusy_keeps P (fun s y0 y1 => h s y0 s.out s.evt s.sectors y1)
  have k2 := oppListened_keeps P (fun s y0 y1 y2 => h s y0 s.out s.evt y1 y2)
  have k3 := setSec_keeps P (fun s y0 => h s s.freeCtr s.out s.evt y0 s.keys)
  have q1 := fun b0 b1 b2 t u (e : lbtBusy b0 b1 b2 = (u, t)) => (congrArg (fun z => P z.2) e).symm.trans (k1 b0 b1 b2)
  intro a0 a1 s
  unfold lbtListenEnd
  try dsimp only
  repeat' first
    | with_reducible rfl
    | simp only [↓h, ↓k0, ↓k1, ↓k2, ↓k3, ↓apply_ite P, ite_self]
    | split
    | refine (q1 _ _ _ _ _ (by assumption)).trans ?_
    | refine (foldl_keeps P _ ?_ _ _).trans ?_
    | intro _ _

theorem lbtBackoffEnd_keeps {β : Type} (P : State → β) (h : ∀ (s : State) x0 x1 x2, P { s with now := x0, mono := x1, sectors := x2 } = P s) :
    ∀ a0 s, P (lbtBackoffEnd a0 s) = P s := by
  have k0 := advMono_keeps P (fun s y0 y1 => h s y0 y1 s.sectors)
  have k1 := setOpp_keeps P (fun s y0 => h s s.now s.mono y0)
  have k2 := setSec_keeps P (fun s y0 => h s s.now s.mono y0)
  intro a0 s
  unfold lbtBackoffEnd
  try dsimp only
  repeat' first
    | with_reducible rfl
    | simp only [↓h, ↓k0, ↓k1, ↓k2, ↓apply_ite P, ite_self]
    | split
    | refine (foldl_keeps P _ ?_ _ _).trans ?_
    | intro _ _

theorem suppress_keeps {β : Type} (P : State → β) (h : ∀ (s : State) x0, P { s with sectors := x0 } = P s) :
    ∀ a0 a1 s, P (suppress a0 a1 s) = P s := by
  have k0 := setSec_keeps P (fun s y0 => h s y0)
  intro a0 a1 s
  unfold suppress
  try dsimp only
  repeat' first
    | with_reducible rfl
    | simp only [↓h, ↓k0, ↓apply_ite P, ite_self]
    | split
    | refine (foldl_keeps P _ ?_ _ _).trans ?_
    | intro _ _

theorem ackRefused_keeps {β : Type} (P : State → β) (h : ∀ (s : State) x0 x1 x2 x3, P { s with out := x0, evt := x1, sectors := x2, duty := x3 } = P s) :
    ∀ a0 a1 a2 s, P (ackRefused a0 a1 a2 s) = P s := by
  have k0 := noteRefusal_keeps P (fun s y0 y1 y2 => h s y0 y1 s.sectors y2)
  have k1 := suppress_keeps P (fun s y0 => h s s.out s.evt y0 s.duty)
  intro a0 a1 a2 s
  unfold ackRefused
  try dsimp only
  repeat' first
    | with_reducible rfl
    | simp only [↓h, ↓k0, ↓k1, ↓apply_ite P, ite_self]
    | split
    | refine (foldl_keeps P _ ?_ _ _).trans ?_
    | intro _ _

theorem ackOffer_keeps {β : Type} (P : State → β) (h : ∀ (s : State) x0 x1 x2 x3 x4 x5, P { s with now := x0, mono := x1, out := x2, evt := x3, sectors := x4, duty := x5 } = P s) :
    ∀ a0 a1 a2 s, P (ackOffer a0 a1 a2 s) = P s := by
  have k0 := ackRefused_keeps P (fun s y0 y1 y2 y3 => h s s.now s.mono y0 y1 y2 y3)
  have k1 := advTo_keeps P (fun s y0 y1 => h s y0 y1 s.out s.evt s.sectors s.duty)
  have k2 := setSec_keeps P (fun s y0 => h s s.now s.mono s.out s.evt y0 s.duty)
  have k3 := suppress_keeps P (fun s y0 => h s s.now s.mono s.out s.evt y0 s.duty)
  intro a0 a1 a2 s
  unfold ackOffer
  try dsimp only
  repeat' first
    | with_reducible rfl
    | simp only [↓h, ↓k0, ↓k1, ↓k2, ↓k3, ↓apply_ite P, ite_self]
    | split
    | refine (foldl_keeps P _ ?_ _ _).trans ?_
    | intro _ _

theorem linkAckTx_keeps {β : Type} (P : State → β) (h : ∀ (s : State) x0 x1 x2 x3 x4 x5 x6 x7 x8, P { s with now := x0, mono := x1, freeCtr := x2, out := x3, evt := x4, rf := x5, lanes := x6, sectors := x7, duty := x8 } = P s) :
    ∀ a0 a1 s, P (linkAckTx a0 a1 s) = P s := by
  have k0 := ackRefused_keeps P (fun s y0 y1 y2 y3 => h s s.now s.mono s.freeCtr y0 y1 s.rf s.lanes y2 y3)
  have k1 := advTo_keeps P (fun s y0 y1 => h s y0 y1 s.freeCtr s.out s.evt s.rf s.lanes s.sectors s.duty)
  have k2 := setSec_keeps P (fun s y0 => h s s.now s.mono s.freeCtr s.out s.evt s.rf s.lanes y0 s.duty)
  have k3 := startTx_keeps P (fun s y0 y1 y2 y3 y4 => h s s.now s.mono y0 y1 s.evt y2 y3 y4 s.duty)
  intro a0 a1 s
  unfold linkAckTx
  try dsimp only
  repeat' first
    | with_reducible rfl
    | simp only [↓h, ↓k0, ↓k1, ↓k2, ↓k3, ↓apply_ite P, ite_self]
    | split
    | refine (foldl_keeps P _ ?_ _ _).trans ?_
    | intro _ _

theorem prepareGate_keeps {β : Type} (P : State → β) (h : ∀ (s : State) x0 x1 x2 x3 x4 x5 x6 x7 x8 x9 x10, P { s with out := x0, evt := x1, bkp := x2, eps := x3, mem := x4, slots := x5, keys := x6, slate := x7, life := x8, safe := x9, faultTimes := x10 } = P s) :
    ∀ a0 a1 a2 a3 a4 a5 a6 s, P (prepareGate a0 a1 a2 a3 a4 a5 a6 s) = P s := by
  have k0 := dlKey_keeps P (fun s y0 y1 y2 y3 y4 y5 y6 y7 => h s y0 y1 y2 y3 s.mem y4 y5 y6 y7 s.safe s.faultTimes)
  have k1 := epKey_keeps P (fun s y0 y1 y2 y3 y4 y5 y6 y7 => h s y0 y1 y2 y3 s.mem y4 y5 y6 y7 s.safe s.faultTimes)
  have k2 := nextDcnt_keeps P (fun s y0 y1 => h s s.out s.evt s.bkp y0 y1 s.slots s.keys s.slate s.life s.safe s.faultTimes)
  have k3 := safetyFault_keeps P (fun s y0 y1 y2 y3 y4 y5 => h s y0 y1 y2 s.eps s.mem s.slots s.keys y3 s.life y4 y5)
  have q0 := fun b0 b1 t u (e : dlKey b0 b1 = (t, u)) => (congrArg (fun z => P z.1) e).symm.trans (k0 b0 b1)
  have q1 := fun b0 b1 t u (e : epKey b0 b1 = (t, u)) => (congrArg (fun z => P z.1) e).symm.trans (k1 b0 b1)
  have q2 := fun b0 b1 t u (e : nextDcnt b0 b1 = (t, u)) => (congrArg (fun z => P z.1) e).symm.trans (k2 b0 b1)
  intro a0 a1 a2 a3 a4 a5 a6 s
  unfold prepareGate
  try dsimp only
  cases a4 <;> try dsimp only
  repeat' first
    | with_reducible rfl
    | simp only [↓h, ↓k0, ↓k1, ↓k2, ↓k3, ↓apply_ite P, ite_self]
    | split
    | refine (q0 _ _ _ _ (by assumption)).trans ?_
    | refine (q1 _ _ _ _ (by assumption)).trans ?_
    | refine (q2 _ _ _ _ (by assumption)).trans ?_
    | refine (foldl_keeps P _ ?_ _ _).trans ?_
    | intro _ _

theorem unlist_keeps {β : Type} (P : State → β) (h : ∀ (s : State) x0, P { s with sectors := x0 } = P s) :
    ∀ a0 s, P (unlist a0 s) = P s := by
  have k0 := setSec_keeps P (fun s y0 => h s y0)
  intro a0 s
  unfold unlist
  try dsimp only
  repeat' first
    | with_reducible rfl
    | simp only [↓h, ↓k0, ↓apply_ite P, ite_self]
    | split
    | refine (foldl_keeps P _ ?_ _ _).trans ?_
    | intro _ _

theorem sendConnect_keeps {β : Type} (P : State → β) (h : ∀ (s : State) x0 x1 x2 x3 x4 x5 x6 x7 x8 x9 x10 x11 x12, P { s with freeCtr := x0, out := x1, evt := x2, bkp := x3, rf := x4, lanes := x5, sectors := x6, eps := x7, mem := x8, slots := x9, keys := x10, slate := x11, life := x12 } = P s) :
    ∀ a0 a1 a2 a3 s, P (sendConnect a0 a1 a2 a3 s) = P s := by
  have k0 := dlKey_keeps P (fun s y0 y1 y2 y3 y4 y5 y6 y7 => h s s.freeCtr y0 y1 y2 s.rf s.lanes s.sectors y3 s.mem y4 y5 y6 y7)
  have k1 := dropOpp_keeps P (fun s y0 => h s s.freeCtr s.out s.evt s.bkp s.rf s.lanes y0 s.eps s.mem s.slots s.keys s.slate s.life)
  have k2 := nextDcnt_keeps P (fun s y0 y1 => h s s.freeCtr s.out s.evt s.bkp s.rf s.lanes s.sectors y0 y1 s.slots s.keys s.slate s.life)
  have k3 := startTx_keeps P (fun s y0 y1 y2 y3 y4 => h s y0 y1 s.evt s.bkp y2 y3 y4 s.eps s.mem s.slots s.keys s.slate s.life)
  have k4 := unlist_keeps P (fun s y0 => h s s.freeCtr s.out s.evt s.bkp s.rf s.lanes y0 s.eps s.mem s.slots s.keys s.slate s.life)
  have k5 := updEp_keeps P (fun s y0 y1 => h s s.freeCtr s.out s.evt s.bkp s.rf s.lanes s.sectors y0 y1 s.slots s.keys s.slate s.life)
  have q0 := fun b0 b1 t u (e : dlKey b0 b1 = (t, u)) => (congrArg (fun z => P z.1) e).symm.trans (k0 b0 b1)
  have q2 := fun b0 b1 t u (e : nextDcnt b0 b1 = (t, u)) => (congrArg (fun z => P z.1) e).symm.trans (k2 b0 b1)
  intro a0 a1 a2 a3 s
  unfold sendConnect
  try dsimp only
  repeat' first
    | with_reducible rfl
    | simp only [↓h, ↓k0, ↓k1, ↓k2, ↓k3, ↓k4, ↓k5, ↓apply_ite P, ite_self]
    | split
    | refine (q0 _ _ _ _ (by assumption)).trans ?_
    | refine (q2 _ _ _ _ (by assumption)).trans ?_
    | refine (foldl_keeps P _ ?_ _ _).trans ?_
    | intro _ _

theorem sendStep_keeps {β : Type} (P : State → β) (h : ∀ (s : State) x0 x1 x2 x3 x4 x5 x6 x7 x8 x9 x10 x11 x12 x13 x14 x15, P { s with freeCtr := x0, out := x1, evt := x2, bkp := x3, rf := x4, lanes := x5, sectors := x6, eps := x7, mem := x8, camps := x9, slots := x10, keys := x11, slate := x12, life := x13, safe := x14, faultTimes := x15 } = P s) :
    ∀ a0 a1 a2 a3 a4 a5 a6 s, P (sendStep a0 a1 a2 a3 a4 a5 a6 s) = P s := by
  have k0 := dlKey_keeps P (fun s y0 y1 y2 y3 y4 y5 y6 y7 => h s s.freeCtr y0 y1 y2 s.rf s.lanes s.sectors y3 s.mem s.camps y4 y5 y6 y7 s.safe s.faultTimes)
  have k1 := dropOpp_keeps P (fun s y0 => h s s.freeCtr s.out s.evt s.bkp s.rf s.lanes y0 s.eps s.mem s.camps s.slots s.keys s.slate s.life s.safe s.faultTimes)
  have k2 := markSent_keeps P (fun s y0 => h s s.freeCtr s.out s.evt s.bkp s.rf s.lanes s.sectors s.eps s.mem y0 s.slots s.keys s.slate s.life s.safe s.faultTimes)
  have k3 := nextDcnt_keeps P (fun s y0 y1 => h s s.freeCtr s.out s.evt s.bkp s.rf s.lanes s.sectors y0 y1 s.camps s.slots s.keys s.slate s.life s.safe s.faultTimes)
  have k4 := prepareGate_keeps P (fun s y0 y1 y2 y3 y4 y5 y6 y7 y8 y9 y10 => h s s.freeCtr y0 y1 y2 s.rf s.lanes s.sectors y3 y4 s.camps y5 y6 y7 y8 y9 y10)
  have k5 := startTx_keeps P (fun s y0 y1 y2 y3 y4 => h s y0 y1 s.evt s.bkp y2 y3 y4 s.eps s.mem s.camps s.slots s.keys s.slate s.life s.safe s.faultTimes)
  have q0 := fun b0 b1 t u (e : dlKey b0 b1 = (t, u)) => (congrArg (fun z => P z.1) e).symm.trans (k0 b0 b1)
  have q3 := fun b0 b1 t u (e : nextDcnt b0 b1 = (t, u)) => (congrArg (fun z => P z.1) e).symm.trans (k3 b0 b1)
  intro a0 a1 a2 a3 a4 a5 a6 s
  unfold sendStep
  try dsimp only
  repeat' first
    | with_reducible rfl
    | simp only [↓h, ↓k0, ↓k1, ↓k2, ↓k3, ↓k4, ↓k5, ↓apply_ite P, ite_self]
    | split
    | refine (q0 _ _ _ _ (by assumption)).trans ?_
    | refine (q3 _ _ _ _ (by assumption)).trans ?_
    | refine (foldl_keeps P _ ?_ _ _).trans ?_
    | intro _ _

theorem downlinkTx_keeps {β : Type} (P : State → β) (h : ∀ (s : State) x0 x1 x2 x3 x4 x5 x6 x7 x8 x9 x10 x11 x12 x13 x14 x15 x16 x17 x18, P { s with now := x0, mono := x1, freeCtr := x2, out := x3, evt := x4, bkp := x5, rf := x6, lanes := x7, sectors := x8, duty := x9, eps := x10, mem := x11, camps := x12, slots := x13, keys := x14, slate := x15, life := x16, safe := x17, faultTimes := x18 } = P s) :
    ∀ a0 a1 a2 s, P (downlinkTx a0 a1 a2 s) = P s := by
  have k0 := advTo_keeps P (fun s y0 y1 => h s y0 y1 s.freeCtr s.out s.evt s.bkp s.rf s.lanes s.sectors s.duty s.eps s.mem s.camps s.slots s.keys s.slate s.life s.safe s.faultTimes)
  have k1 := noteRefusal_keeps P (fun s y0 y1 y2 => h s s.now s.mono s.freeCtr y0 y1 s.bkp s.rf s.lanes s.sectors y2 s.eps s.mem s.camps s.slots s.keys s.slate s.life s.safe s.faultTimes)
  have k2 := sendConnect_keeps P (fun s y0 y1 y2 y3 y4 y5 y6 y7 y8 y9 y10 y11 y12 => h s s.now s.mono y0 y1 y2 y3 y4 y5 y6 s.duty y7 y8 s.camps y9 y10 y11 y12 s.safe s.faultTimes)
  have k3 := sendStep_keeps P (fun s y0 y1 y2 y3 y4 y5 y6 y7 y8 y9 y10 y11 y12 y13 y14 y15 => h s s.now s.mono y0 y1 y2 y3 y4 y5 y6 s.duty y7 y8 y9 y10 y11 y12 y13 y14 y15)
  intro a0 a1 a2 s
  unfold downlinkTx
  try dsimp only
  repeat' first
    | with_reducible rfl
    | simp only [↓h, ↓k0, ↓k1, ↓k2, ↓k3, ↓apply_ite P, ite_self]
    | split
    | refine (foldl_keeps P _ ?_ _ _).trans ?_
    | intro _ _

theorem openOpp_keeps {β : Type} (P : State → β) (h : ∀ (s : State) x0, P { s with sectors := x0 } = P s) :
    ∀ a0 a1 a2 a3 a4 s, P (openOpp a0 a1 a2 a3 a4 s) = P s := by
  have k0 := setSec_keeps P (fun s y0 => h s y0)
  intro a0 a1 a2 a3 a4 s
  unfold openOpp
  try dsimp only
  repeat' first
    | with_reducible rfl
    | simp only [↓h, ↓k0, ↓apply_ite P, ite_self]
    | split
    | refine (foldl_keeps P _ ?_ _ _).trans ?_
    | intro _ _

theorem custodyToSector_keeps {β : Type} (P : State → β) (h : ∀ (s : State) x0 x1, P { s with sectors := x0, eps := x1 } = P s) :
    ∀ a0 s, P (custodyToSector a0 s) = P s := by
  have k0 := noteEp_keeps P (fun s y0 => h s s.sectors y0)
  have k1 := setSec_keeps P (fun s y0 => h s y0 s.eps)
  intro a0 s
  unfold custodyToSector
  try dsimp only
  repeat' first
    | with_reducible rfl
    | simp only [↓h, ↓k0, ↓k1, ↓apply_ite P, ite_self]
    | split
    | refine (foldl_keeps P _ ?_ _ _).trans ?_
    | intro _ _

theorem endConnection_keeps {β : Type} (P : State → β) (h : ∀ (s : State) x0 x1 x2 x3 x4, P { s with out := x0, evt := x1, sectors := x2, eps := x3, mem := x4 } = P s) :
    ∀ a0 a1 a2 s, P (endConnection a0 a1 a2 s) = P s := by
  have k0 := custodyToSector_keeps P (fun s y0 y1 => h s s.out s.evt y0 y1 s.mem)
  have k1 := raiseIf_keeps P (fun s y0 y1 => h s y0 y1 s.sectors s.eps s.mem)
  have k2 := unlist_keeps P (fun s y0 => h s s.out s.evt y0 s.eps s.mem)
  have k3 := updEp_keeps P (fun s y0 y1 => h s s.out s.evt s.sectors y0 y1)
  intro a0 a1 a2 s
  unfold endConnection
  try dsimp only
  repeat' first
    | with_reducible rfl
    | simp only [↓h, ↓k0, ↓k1, ↓k2, ↓k3, ↓apply_ite P, ite_self]
    | split
    | refine (foldl_keeps P _ ?_ _ _).trans ?_
    | intro _ _

theorem airHeard_keeps {β : Type} (P : State → β) (h : ∀ (s : State) x0 x1 x2 x3, P { s with out := x0, evt := x1, eps := x2, mem := x3 } = P s) :
    ∀ a0 a1 a2 a3 a4 s, P (airHeard a0 a1 a2 a3 a4 s) = P s := by
  have k0 := raiseIf_keeps P (fun s y0 y1 => h s y0 y1 s.eps s.mem)
  have k1 := updEp_keeps P (fun s y0 y1 => h s s.out s.evt y0 y1)
  intro a0 a1 a2 a3 a4 s
  unfold airHeard
  try dsimp only
  repeat' first
    | with_reducible rfl
    | simp only [↓h, ↓k0, ↓k1, ↓apply_ite P, ite_self]
    | split
    | refine (foldl_keeps P _ ?_ _ _).trans ?_
    | intro _ _

theorem arrivalClose_keeps {β : Type} (P : State → β) (h : ∀ (s : State) x0 x1 x2 x3, P { s with now := x0, mono := x1, eps := x2, mem := x3 } = P s) :
    ∀ a0 s, P (arrivalClose a0 s) = P s := by
  have k0 := advTo_keeps P (fun s y0 y1 => h s y0 y1 s.eps s.mem)
  have k1 := updEp_keeps P (fun s y0 y1 => h s s.now s.mono y0 y1)
  intro a0 s
  unfold arrivalClose
  try dsimp only
  repeat' first
    | with_reducible rfl
    | simp only [↓h, ↓k0, ↓k1, ↓apply_ite P, ite_self]
    | split
    | refine (foldl_keeps P _ ?_ _ _).trans ?_
    | intro _ _

theorem supervisionTimeout_keeps {β : Type} (P : State → β) (h : ∀ (s : State) x0 x1 x2 x3 x4 x5, P { s with now := x0, mono := x1, out := x2, evt := x3, eps := x4, mem := x5 } = P s) :
    ∀ a0 s, P (supervisionTimeout a0 s) = P s := by
  have k0 := advTo_keeps P (fun s y0 y1 => h s y0 y1 s.out s.evt s.eps s.mem)
  have k1 := raise_keeps P (fun s y0 y1 => h s s.now s.mono y0 y1 s.eps s.mem)
  have k2 := updEp_keeps P (fun s y0 y1 => h s s.now s.mono s.out s.evt y0 y1)
  intro a0 s
  unfold supervisionTimeout
  try dsimp only
  repeat' first
    | with_reducible rfl
    | simp only [↓h, ↓k0, ↓k1, ↓k2, ↓apply_ite P, ite_self]
    | split
    | refine (foldl_keeps P _ ?_ _ _).trans ?_
    | intro _ _

theorem replyTimeout_keeps {β : Type} (P : State → β) (h : ∀ (s : State) x0 x1 x2 x3 x4, P { s with now := x0, mono := x1, sectors := x2, eps := x3, mem := x4 } = P s) :
    ∀ a0 s, P (replyTimeout a0 s) = P s := by
  have k0 := advTo_keeps P (fun s y0 y1 => h s y0 y1 s.sectors s.eps s.mem)
  have k1 := setSec_keeps P (fun s y0 => h s s.now s.mono y0 s.eps s.mem)
  have k2 := updEp_keeps P (fun s y0 y1 => h s s.now s.mono s.sectors y0 y1)
  intro a0 s
  unfold replyTimeout
  try dsimp only
  repeat' first
    | with_reducible rfl
    | simp only [↓h, ↓k0, ↓k1, ↓k2, ↓apply_ite P, ite_self]
    | split
    | refine (foldl_keeps P _ ?_ _ _).trans ?_
    | intro _ _

theorem openTimeout_keeps {β : Type} (P : State → β) (h : ∀ (s : State) x0 x1 x2 x3 x4 x5 x6, P { s with now := x0, mono := x1, out := x2, evt := x3, sectors := x4, eps := x5, mem := x6 } = P s) :
    ∀ a0 s, P (openTimeout a0 s) = P s := by
  have k0 := advTo_keeps P (fun s y0 y1 => h s y0 y1 s.out s.evt s.sectors s.eps s.mem)
  have k1 := endConnection_keeps P (fun s y0 y1 y2 y3 y4 => h s s.now s.mono y0 y1 y2 y3 y4)
  intro a0 s
  unfold openTimeout
  try dsimp only
  repeat' first
    | with_reducible rfl
    | simp only [↓h, ↓k0, ↓k1, ↓apply_ite P, ite_self]
    | split
    | refine (foldl_keeps P _ ?_ _ _).trans ?_
    | intro _ _

theorem connSupervision_keeps {β : Type} (P : State → β) (h : ∀ (s : State) x0 x1 x2 x3 x4 x5 x6, P { s with now := x0, mono := x1, out := x2, evt := x3, sectors := x4, eps := x5, mem := x6 } = P s) :
    ∀ a0 s, P (connSupervision a0 s) = P s := by
  have k0 := advTo_keeps P (fun s y0 y1 => h s y0 y1 s.out s.evt s.sectors s.eps s.mem)
  have k1 := endConnection_keeps P (fun s y0 y1 y2 y3 y4 => h s s.now s.mono y0 y1 y2 y3 y4)
  intro a0 s
  unfold connSupervision
  try dsimp only
  repeat' first
    | with_reducible rfl
    | simp only [↓h, ↓k0, ↓k1, ↓apply_ite P, ite_self]
    | split
    | refine (foldl_keeps P _ ?_ _ _).trans ?_
    | intro _ _

theorem sendEvent_keeps {β : Type} (P : State → β) (h : ∀ (s : State) x0 x1 x2 x3 x4 x5 x6 x7 x8 x9 x10 x11 x12 x13, P { s with freeCtr := x0, out := x1, evt := x2, bkp := x3, rf := x4, lanes := x5, sectors := x6, eps := x7, mem := x8, camps := x9, slots := x10, keys := x11, slate := x12, life := x13 } = P s) :
    ∀ a0 a1 a2 a3 a4 a5 a6 s, P (sendEvent a0 a1 a2 a3 a4 a5 a6 s) = P s := by
  have k0 := dlKey_keeps P (fun s y0 y1 y2 y3 y4 y5 y6 y7 => h s s.freeCtr y0 y1 y2 s.rf s.lanes s.sectors y3 s.mem s.camps y4 y5 y6 y7)
  have k1 := markSent_keeps P (fun s y0 => h s s.freeCtr s.out s.evt s.bkp s.rf s.lanes s.sectors s.eps s.mem y0 s.slots s.keys s.slate s.life)
  have k2 := nextDcnt_keeps P (fun s y0 y1 => h s s.freeCtr s.out s.evt s.bkp s.rf s.lanes s.sectors y0 y1 s.camps s.slots s.keys s.slate s.life)
  have k3 := startTx_keeps P (fun s y0 y1 y2 y3 y4 => h s y0 y1 s.evt s.bkp y2 y3 y4 s.eps s.mem s.camps s.slots s.keys s.slate s.life)
  have k4 := updEp_keeps P (fun s y0 y1 => h s s.freeCtr s.out s.evt s.bkp s.rf s.lanes s.sectors y0 y1 s.camps s.slots s.keys s.slate s.life)
  have q0 := fun b0 b1 t u (e : dlKey b0 b1 = (t, u)) => (congrArg (fun z => P z.1) e).symm.trans (k0 b0 b1)
  have q2 := fun b0 b1 t u (e : nextDcnt b0 b1 = (t, u)) => (congrArg (fun z => P z.1) e).symm.trans (k2 b0 b1)
  intro a0 a1 a2 a3 a4 a5 a6 s
  unfold sendEvent
  try dsimp only
  repeat' first
    | with_reducible rfl
    | simp only [↓h, ↓k0, ↓k1, ↓k2, ↓k3, ↓k4, ↓apply_ite P, ite_self]
    | split
    | refine (q0 _ _ _ _ (by assumption)).trans ?_
    | refine (q2 _ _ _ _ (by assumption)).trans ?_
    | refine (foldl_keeps P _ ?_ _ _).trans ?_
    | intro _ _

theorem eventListen_keeps {β : Type} (P : State → β) (h : ∀ (s : State) x0 x1, P { s with freeCtr := x0, keys := x1 } = P s) :
    ∀ a0 a1 a2 s, P (eventListen a0 a1 a2 s).2 = P s := by
  have k0 := lbtBusy_keeps P (fun s y0 y1 => h s y0 y1)
  have q0 := fun b0 b1 b2 t u (e : lbtBusy b0 b1 b2 = (u, t)) => (congrArg (fun z => P z.2) e).symm.trans (k0 b0 b1 b2)
  intro a0 a1 a2 s
  unfold eventListen
  try dsimp only
  repeat' first
    | with_reducible rfl
    | simp only [↓h, ↓k0, ↓apply_ite P, ite_self]
    | split
    | refine (q0 _ _ _ _ _ (by assumption)).trans ?_
    | refine (foldl_keeps P _ ?_ _ _).trans ?_
    | intro _ _

theorem eventAt_keeps {β : Type} (P : State → β) (h : ∀ (s : State) x0 x1 x2 x3 x4 x5 x6 x7 x8 x9 x10 x11 x12 x13 x14 x15 x16, P { s with freeCtr := x0, out := x1, evt := x2, bkp := x3, rf := x4, lanes := x5, sectors := x6, duty := x7, eps := x8, mem := x9, camps := x10, slots := x11, keys := x12, slate := x13, life := x14, safe := x15, faultTimes := x16 } = P s) :
    ∀ a0 a1 a2 a3 a4 s, P (eventAt a0 a1 a2 a3 a4 s) = P s := by
  have k0 := eventListen_keeps P (fun s y0 y1 => h s y0 s.out s.evt s.bkp s.rf s.lanes s.sectors s.duty s.eps s.mem s.camps s.slots y1 s.slate s.life s.safe s.faultTimes)
  have k1 := noteRefusal_keeps P (fun s y0 y1 y2 => h s s.freeCtr y0 y1 s.bkp s.rf s.lanes s.sectors y2 s.eps s.mem s.camps s.slots s.keys s.slate s.life s.safe s.faultTimes)
  have k2 := prepareGate_keeps P (fun s y0 y1 y2 y3 y4 y5 y6 y7 y8 y9 y10 => h s s.freeCtr y0 y1 y2 s.rf s.lanes s.sectors s.duty y3 y4 s.camps y5 y6 y7 y8 y9 y10)
  have k3 := sendEvent_keeps P (fun s y0 y1 y2 y3 y4 y5 y6 y7 y8 y9 y10 y11 y12 y13 => h s y0 y1 y2 y3 y4 y5 y6 s.duty y7 y8 y9 y10 y11 y12 y13 s.safe s.faultTimes)
  have k4 := updEp_keeps P (fun s y0 y1 => h s s.freeCtr s.out s.evt s.bkp s.rf s.lanes s.sectors s.duty y0 y1 s.camps s.slots s.keys s.slate s.life s.safe s.faultTimes)
  have q0 := fun b0 b1 b2 b3 t u (e : eventListen b0 b1 b2 b3 = (u, t)) => (congrArg (fun z => P z.2) e).symm.trans (k0 b0 b1 b2 b3)
  intro a0 a1 a2 a3 a4 s
  unfold eventAt
  try dsimp only
  repeat' first
    | with_reducible rfl
    | simp only [↓h, ↓k0, ↓k1, ↓k2, ↓k3, ↓k4, ↓apply_ite P, ite_self]
    | split
    | refine (q0 _ _ _ _ _ _ (by assumption)).trans ?_
    | refine (foldl_keeps P _ ?_ _ _).trans ?_
    | intro _ _

theorem connectionEvent_keeps {β : Type} (P : State → β) (h : ∀ (s : State) x0 x1 x2 x3 x4 x5 x6 x7 x8 x9 x10 x11 x12 x13 x14 x15 x16 x17 x18, P { s with now := x0, mono := x1, freeCtr := x2, out := x3, evt := x4, bkp := x5, rf := x6, lanes := x7, sectors := x8, duty := x9, eps := x10, mem := x11, camps := x12, slots := x13, keys := x14, slate := x15, life := x16, safe := x17, faultTimes := x18 } = P s) :
    ∀ a0 a1 s, P (connectionEvent a0 a1 s) = P s := by
  have k0 := advTo_keeps P (fun s y0 y1 => h s y0 y1 s.freeCtr s.out s.evt s.bkp s.rf s.lanes s.sectors s.duty s.eps s.mem s.camps s.slots s.keys s.slate s.life s.safe s.faultTimes)
  have k1 := endConnection_keeps P (fun s y0 y1 y2 y3 y4 => h s s.now s.mono s.freeCtr y0 y1 s.bkp s.rf s.lanes y2 s.duty y3 y4 s.camps s.slots s.keys s.slate s.life s.safe s.faultTimes)
  have k2 := eventAt_keeps P (fun s y0 y1 y2 y3 y4 y5 y6 y7 y8 y9 y10 y11 y12 y13 y14 y15 y16 => h s s.now s.mono y0 y1 y2 y3 y4 y5 y6 y7 y8 y9 y10 y11 y12 y13 y14 y15 y16)
  have k3 := updEp_keeps P (fun s y0 y1 => h s s.now s.mono s.freeCtr s.out s.evt s.bkp s.rf s.lanes s.sectors s.duty y0 y1 s.camps s.slots s.keys s.slate s.life s.safe s.faultTimes)
  intro a0 a1 s
  unfold connectionEvent
  try dsimp only
  repeat' first
    | with_reducible rfl
    | simp only [↓h, ↓k0, ↓k1, ↓k2, ↓k3, ↓apply_ite P, ite_self]
    | split
    | refine (foldl_keeps P _ ?_ _ _).trans ?_
    | intro _ _

theorem blankingStart_keeps {β : Type} (P : State → β) (h : ∀ (s : State) x0 x1 x2 x3 x4, P { s with now := x0, mono := x1, freeCtr := x2, rf := x3, lanes := x4 } = P s) :
    ∀ a0 a1 s, P (blankingStart a0 a1 s) = P s := by
  have k0 := advTo_keeps P (fun s y0 y1 => h s y0 y1 s.freeCtr s.rf s.lanes)
  have k1 := blankAll_keeps P (fun s y0 y1 y2 => h s s.now s.mono y0 y1 y2)
  have k2 := setRf_keeps P (fun s y0 => h s s.now s.mono s.freeCtr y0 s.lanes)
  intro a0 a1 s
  unfold blankingStart
  try dsimp only
  repeat' first
    | with_reducible rfl
    | simp only [↓h, ↓k0, ↓k1, ↓k2, ↓apply_ite P, ite_self]
    | split
    | refine (foldl_keeps P _ ?_ _ _).trans ?_
    | intro _ _

theorem bandProfileSet_keeps {β : Type} (P : State → β) (h : ∀ (s : State) x0, P { s with cfg := x0 } = P s) :
    ∀ a0 s, P (bandProfileSet a0 s).st = P s := by
  have k0 := refuse_keeps P
  have k1 := replyOk_keeps P
  intro a0 s
  unfold bandProfileSet
  try dsimp only
  repeat' first
    | with_reducible rfl
    | simp only [↓h, ↓k0, ↓k1, ↓apply_ite P, ite_self, Reply.st_done, Reply.st_pend, Reply.st_twice, Reply.st_wait, replyOk_st, refuse_st]
    | split
    | refine (foldl_keeps P _ ?_ _ _).trans ?_
    | intro _ _

theorem bandProfileGet_keeps {β : Type} (P : State → β) :
    ∀ a0 s, P (bandProfileGet a0 s).st = P s := by
  have k0 := refuse_keeps P
  have k1 := replyOk_keeps P
  intro a0 s
  unfold bandProfileGet
  try dsimp only
  repeat' first
    | with_reducible rfl
    | simp only [↓k0, ↓k1, ↓apply_ite P, ite_self, Reply.st_done, Reply.st_pend, Reply.st_twice, Reply.st_wait, replyOk_st, refuse_st]
    | split
    | refine (foldl_keeps P _ ?_ _ _).trans ?_
    | intro _ _

theorem dutyStatusGet_keeps {β : Type} (P : State → β) :
    ∀ a0 s, P (dutyStatusGet a0 s).st = P s := by
  have k0 := refuse_keeps P
  have k1 := replyOk_keeps P
  intro a0 s
  unfold dutyStatusGet
  try dsimp only
  repeat' first
    | with_reducible rfl
    | simp only [↓k0, ↓k1, ↓apply_ite P, ite_self, Reply.st_done, Reply.st_pend, Reply.st_twice, Reply.st_wait, replyOk_st, refuse_st]
    | split
    | refine (foldl_keeps P _ ?_ _ _).trans ?_
    | intro _ _

theorem sectorStatusGet_keeps {β : Type} (P : State → β) :
    ∀ a0 s, P (sectorStatusGet a0 s).st = P s := by
  have k0 := refuse_keeps P
  have k1 := replyOk_keeps P
  intro a0 s
  unfold sectorStatusGet
  try dsimp only
  repeat' first
    | with_reducible rfl
    | simp only [↓k0, ↓k1, ↓apply_ite P, ite_self, Reply.st_done, Reply.st_pend, Reply.st_twice, Reply.st_wait, replyOk_st, refuse_st]
    | split
    | refine (foldl_keeps P _ ?_ _ _).trans ?_
    | intro _ _

theorem connectOpen_keeps {β : Type} (P : State → β) (h : ∀ (s : State) x0 x1 x2, P { s with sectors := x0, eps := x1, mem := x2 } = P s) :
    ∀ a0 s, P (connectOpen a0 s).st = P s := by
  have k0 := refuse_keeps P
  have k1 := replyOk_keeps P
  have k2 := setSec_keeps P (fun s y0 => h s y0 s.eps s.mem)
  have k3 := updEp_keeps P (fun s y0 y1 => h s s.sectors y0 y1)
  intro a0 s
  unfold connectOpen
  try dsimp only
  repeat' first
    | with_reducible rfl
    | simp only [↓h, ↓k0, ↓k1, ↓k2, ↓k3, ↓apply_ite P, ite_self, Reply.st_done, Reply.st_pend, Reply.st_twice, Reply.st_wait, replyOk_st, refuse_st]
    | split
    | refine (foldl_keeps P _ ?_ _ _).trans ?_
    | intro _ _

theorem connectClose_keeps {β : Type} (P : State → β) (h : ∀ (s : State) x0 x1 x2 x3 x4, P { s with out := x0, evt := x1, sectors := x2, eps := x3, mem := x4 } = P s) :
    ∀ a0 s, P (connectClose a0 s).st = P s := by
  have k0 := endConnection_keeps P (fun s y0 y1 y2 y3 y4 => h s y0 y1 y2 y3 y4)
  have k1 := refuse_keeps P
  have k2 := replyOk_keeps P
  have k3 := updEp_keeps P (fun s y0 y1 => h s s.out s.evt s.sectors y0 y1)
  intro a0 s
  unfold connectClose
  try dsimp only
  repeat' first
    | with_reducible rfl
    | simp only [↓h, ↓k0, ↓k1, ↓k2, ↓k3, ↓apply_ite P, ite_self, Reply.st_done, Reply.st_pend, Reply.st_twice, Reply.st_wait, replyOk_st, refuse_st]
    | split
    | refine (foldl_keeps P _ ?_ _ _).trans ?_
    | intro _ _

theorem airStateGet_keeps {β : Type} (P : State → β) (h : ∀ (s : State) x0, P { s with mem := x0 } = P s) :
    ∀ a0 s, P (airStateGet a0 s).st = P s := by
  have k0 := refuse_keeps P
  have k1 := replyOk_keeps P
  have k2 := touch_keeps P (fun s y0 => h s y0)
  intro a0 s
  unfold airStateGet
  try dsimp only
  repeat' first
    | with_reducible rfl
    | simp only [↓h, ↓k0, ↓k1, ↓k2, ↓apply_ite P, ite_self, Reply.st_done, Reply.st_pend, Reply.st_twice, Reply.st_wait, replyOk_st, refuse_st]
    | split
    | refine (foldl_keeps P _ ?_ _ _).trans ?_
    | intro _ _

end Sys2Proof.Machine
end

