-- ==== Sys2Proof/Laws/KeepEcc.lean ====
section
/-! SUPPORT. What the functions of Machine/Ecc.lean leave unchanged. -/

set_option linter.unusedSimpArgs false
set_option linter.unreachableTactic false
set_option linter.unusedTactic false

namespace Sys2Proof.Machine

theorem setRank_keeps {β : Type} (P : State → β) (h : ∀ (s : State) x0, P { s with mem := x0 } = P s) :
    ∀ a0 a1 s, P (setRank a0 a1 s) = P s := by
  intro a0 a1 s
  unfold setRank
  try dsimp only
  repeat' first
    | with_reducible rfl
    | simp only [↓h, ↓apply_ite P, ite_self]
    | split
    | refine (foldl_keeps P _ ?_ _ _).trans ?_
    | intro _ _

theorem noteDevice_keeps {β : Type} (P : State → β) (h : ∀ (s : State) x0 x1 x2, P { s with out := x0, evt := x1, mem := x2 } = P s) :
    ∀ a0 a1 a2 s, P (noteDevice a0 a1 a2 s) = P s := by
  have k0 := raise_keeps P (fun s y0 y1 => h s y0 y1 s.mem)
  have k1 := setRank_keeps P (fun s y0 => h s s.out s.evt y0)
  intro a0 a1 a2 s
  unfold noteDevice
  try dsimp only
  repeat' first
    | with_reducible rfl
    | simp only [↓h, ↓k0, ↓k1, ↓apply_ite P, ite_self]
    | split
    | refine (foldl_keeps P _ ?_ _ _).trans ?_
    | intro _ _

theorem askRepair_keeps {β : Type} (P : State → β) (h : ∀ (s : State) x0 x1, P { s with mem := x0, maint := x1 } = P s) :
    ∀ a0 a1 s, P (askRepair a0 a1 s) = P s := by
  have k0 := askToken_keeps P (fun s y0 => h s s.mem y0)
  intro a0 a1 s
  unfold askRepair
  try dsimp only
  repeat' first
    | with_reducible rfl
    | simp only [↓h, ↓k0, ↓apply_ite P, ite_self]
    | split
    | refine (foldl_keeps P _ ?_ _ _).trans ?_
    | intro _ _

theorem noteRow_keeps {β : Type} (P : State → β) (h : ∀ (s : State) x0 x1, P { s with mem := x0, maint := x1 } = P s) :
    ∀ a0 a1 s, P (noteRow a0 a1 s) = P s := by
  have k0 := askRepair_keeps P (fun s y0 y1 => h s y0 y1)
  have k1 := setRank_keeps P (fun s y0 => h s y0 s.maint)
  intro a0 a1 s
  unfold noteRow
  try dsimp only
  repeat' first
    | with_reducible rfl
    | simp only [↓h, ↓k0, ↓k1, ↓apply_ite P, ite_self]
    | split
    | refine (foldl_keeps P _ ?_ _ _).trans ?_
    | intro _ _

theorem noteCorrected_keeps {β : Type} (P : State → β) (h : ∀ (s : State) x0 x1 x2 x3, P { s with out := x0, evt := x1, mem := x2, maint := x3 } = P s) :
    ∀ a0 a1 s, P (noteCorrected a0 a1 s) = P s := by
  have k0 := noteDevice_keeps P (fun s y0 y1 y2 => h s y0 y1 y2 s.maint)
  have k1 := noteRow_keeps P (fun s y0 y1 => h s s.out s.evt y0 y1)
  intro a0 a1 s
  unfold noteCorrected
  try dsimp only
  repeat' first
    | with_reducible rfl
    | simp only [↓h, ↓k0, ↓k1, ↓apply_ite P, ite_self]
    | split
    | refine (foldl_keeps P _ ?_ _ _).trans ?_
    | intro _ _

end Sys2Proof.Machine
end

