-- ==== Sys2Proof/Laws/KeepPlcLink.lean ====
section
/-! SUPPORT. What the functions of Machine/PlcLink.lean leave unchanged. -/

set_option linter.unusedSimpArgs false
set_option linter.unreachableTactic false
set_option linter.unusedTactic false

namespace Sys2Proof.Machine

theorem noteCaps_keeps {β : Type} (P : State → β) (h : ∀ (s : State) x0 x1, P { s with out := x0, evt := x1 } = P s) :
    ∀ a0 s, P (noteCaps a0 s) = P s := by
  have k0 := raiseIf_keeps P (fun s y0 y1 => h s y0 y1)
  intro a0 s
  unfold noteCaps
  try dsimp only
  repeat' first
    | with_reducible rfl
    | simp only [↓h, ↓k0, ↓apply_ite P, ite_self]
    | split
    | refine (foldl_keeps P _ ?_ _ _).trans ?_
    | intro _ _

theorem setLinks_keeps {β : Type} (P : State → β) (h : ∀ (s : State) x0, P { s with plcMac := x0 } = P s) :
    ∀ a0 s, P (setLinks a0 s) = P s := by
  intro a0 s
  unfold setLinks
  try dsimp only
  repeat' first
    | with_reducible rfl
    | simp only [↓h, ↓apply_ite P, ite_self]
    | split
    | refine (foldl_keeps P _ ?_ _ _).trans ?_
    | intro _ _

theorem updLink_keeps {β : Type} (P : State → β) (h : ∀ (s : State) x0, P { s with plcMac := x0 } = P s) :
    ∀ a0 a1 a2 a3 s, P (updLink a0 a1 a2 a3 s) = P s := by
  have k0 := setLinks_keeps P (fun s y0 => h s y0)
  intro a0 a1 a2 a3 s
  unfold updLink
  try dsimp only
  repeat' first
    | with_reducible rfl
    | simp only [↓h, ↓k0, ↓apply_ite P, ite_self]
    | split
    | refine (foldl_keeps P _ ?_ _ _).trans ?_
    | intro _ _

theorem refreshLink_keeps {β : Type} (P : State → β) (h : ∀ (s : State) x0, P { s with plcMac := x0 } = P s) :
    ∀ a0 a1 a2 a3 a4 s, P (refreshLink a0 a1 a2 a3 a4 s) = P s := by
  have k0 := setLinks_keeps P (fun s y0 => h s y0)
  have k1 := updLink_keeps P (fun s y0 => h s y0)
  intro a0 a1 a2 a3 a4 s
  unfold refreshLink
  try dsimp only
  repeat' first
    | with_reducible rfl
    | simp only [↓h, ↓k0, ↓k1, ↓apply_ite P, ite_self]
    | split
    | refine (foldl_keeps P _ ?_ _ _).trans ?_
    | intro _ _

theorem linkAge_keeps {β : Type} (P : State → β) (h : ∀ (s : State) x0 x1 x2, P { s with now := x0, mono := x1, plcMac := x2 } = P s) :
    ∀ a0 s, P (linkAge a0 s) = P s := by
  have k0 := advMono_keeps P (fun s y0 y1 => h s y0 y1 s.plcMac)
  have k1 := setLinks_keeps P (fun s y0 => h s s.now s.mono y0)
  intro a0 s
  unfold linkAge
  try dsimp only
  repeat' first
    | with_reducible rfl
    | simp only [↓h, ↓k0, ↓k1, ↓apply_ite P, ite_self]
    | split
    | refine (foldl_keeps P _ ?_ _ _).trans ?_
    | intro _ _

theorem freePaths_keeps {β : Type} (P : State → β) (h : ∀ (s : State) x0, P { s with plcMac := x0 } = P s) :
    ∀ s, P (freePaths s) = P s := by
  intro s
  unfold freePaths
  try dsimp only
  repeat' first
    | with_reducible rfl
    | simp only [↓h, ↓apply_ite P, ite_self]
    | split
    | refine (foldl_keeps P _ ?_ _ _).trans ?_
    | intro _ _

theorem setRoute_keeps {β : Type} (P : State → β) (h : ∀ (s : State) x0 x1 x2, P { s with plcMac := x0, eps := x1, mem := x2 } = P s) :
    ∀ a0 a1 a2 s, P (setRoute a0 a1 a2 s).1 = P s := by
  have k0 := freePaths_keeps P (fun s y0 => h s y0 s.eps s.mem)
  have k1 := updEp_keeps P (fun s y0 y1 => h s s.plcMac y0 y1)
  intro a0 a1 a2 s
  unfold setRoute
  try dsimp only
  repeat' first
    | with_reducible rfl
    | simp only [↓h, ↓k0, ↓k1, ↓apply_ite P, ite_self]
    | split
    | refine (foldl_keeps P _ ?_ _ _).trans ?_
    | intro _ _

theorem pathsFull_keeps {β : Type} (P : State → β) (h : ∀ (s : State) x0 x1 x2, P { s with out := x0, evt := x1, plcMac := x2 } = P s) :
    ∀ s, P (pathsFull s) = P s := by
  have k0 := raise_keeps P (fun s y0 y1 => h s y0 y1 s.plcMac)
  intro s
  unfold pathsFull
  try dsimp only
  repeat' first
    | with_reducible rfl
    | simp only [↓h, ↓k0, ↓apply_ite P, ite_self]
    | split
    | refine (foldl_keeps P _ ?_ _ _).trans ?_
    | intro _ _

theorem judgeRoute_keeps {β : Type} (P : State → β) (h : ∀ (s : State) x0 x1 x2 x3 x4, P { s with out := x0, evt := x1, plcMac := x2, eps := x3, mem := x4 } = P s) :
    ∀ a0 a1 s, P (judgeRoute a0 a1 s) = P s := by
  have k0 := pathsFull_keeps P (fun s y0 y1 y2 => h s y0 y1 y2 s.eps s.mem)
  have k1 := raise_keeps P (fun s y0 y1 => h s y0 y1 s.plcMac s.eps s.mem)
  have k2 := setRoute_keeps P (fun s y0 y1 y2 => h s s.out s.evt y0 y1 y2)
  have q2 := fun b0 b1 b2 b3 t u (e : setRoute b0 b1 b2 b3 = (t, u)) => (congrArg (fun z => P z.1) e).symm.trans (k2 b0 b1 b2 b3)
  intro a0 a1 s
  unfold judgeRoute
  try dsimp only
  repeat' first
    | with_reducible rfl
    | simp only [↓h, ↓k0, ↓k1, ↓k2, ↓apply_ite P, ite_self]
    | split
    | refine (q2 _ _ _ _ _ _ (by assumption)).trans ?_
    | refine (foldl_keeps P _ ?_ _ _).trans ?_
    | intro _ _

theorem unpinBroken_keeps {β : Type} (P : State → β) (h : ∀ (s : State) x0 x1, P { s with eps := x0, mem := x1 } = P s) :
    ∀ a0 s, P (unpinBroken a0 s) = P s := by
  have k0 := updEp_keeps P (fun s y0 y1 => h s y0 y1)
  intro a0 s
  unfold unpinBroken
  try dsimp only
  repeat' first
    | with_reducible rfl
    | simp only [↓h, ↓k0, ↓apply_ite P, ite_self]
    | split
    | refine (foldl_keeps P _ ?_ _ _).trans ?_
    | intro _ _

theorem routeRecalc_keeps {β : Type} (P : State → β) (h : ∀ (s : State) x0 x1 x2 x3 x4 x5 x6, P { s with now := x0, mono := x1, out := x2, evt := x3, plcMac := x4, eps := x5, mem := x6 } = P s) :
    ∀ s, P (routeRecalc s) = P s := by
  have k0 := judgeRoute_keeps P (fun s y0 y1 y2 y3 y4 => h s s.now s.mono y0 y1 y2 y3 y4)
  have k1 := roundAt_keeps P (fun s y0 y1 => h s y0 y1 s.out s.evt s.plcMac s.eps s.mem)
  have k2 := unpinBroken_keeps P (fun s y0 y1 => h s s.now s.mono s.out s.evt s.plcMac y0 y1)
  intro s
  unfold routeRecalc
  try dsimp only
  repeat' first
    | with_reducible rfl
    | simp only [↓h, ↓k0, ↓k1, ↓k2, ↓apply_ite P, ite_self]
    | split
    | refine (foldl_keeps P _ ?_ _ _).trans ?_
    | intro _ _

theorem recalcOne_keeps {β : Type} (P : State → β) (h : ∀ (s : State) x0 x1 x2 x3 x4, P { s with out := x0, evt := x1, plcMac := x2, eps := x3, mem := x4 } = P s) :
    ∀ a0 s, P (recalcOne a0 s) = P s := by
  have k0 := judgeRoute_keeps P (fun s y0 y1 y2 y3 y4 => h s y0 y1 y2 y3 y4)
  have k1 := unpinBroken_keeps P (fun s y0 y1 => h s s.out s.evt s.plcMac y0 y1)
  intro a0 s
  unfold recalcOne
  try dsimp only
  repeat' first
    | with_reducible rfl
    | simp only [↓h, ↓k0, ↓k1, ↓apply_ite P, ite_self]
    | split
    | refine (foldl_keeps P _ ?_ _ _).trans ?_
    | intro _ _

theorem startCal_keeps {β : Type} (P : State → β) (h : ∀ (s : State) x0 x1 x2, P { s with out := x0, evt := x1, plc := x2 } = P s) :
    ∀ a0 s, P (startCal a0 s) = P s := by
  have k0 := noteCaps_keeps P (fun s y0 y1 => h s y0 y1 s.plc)
  have k1 := raiseIf_keeps P (fun s y0 y1 => h s y0 y1 s.plc)
  have k2 := setPlc_keeps P (fun s y0 => h s s.out s.evt y0)
  intro a0 s
  unfold startCal
  try dsimp only
  repeat' first
    | with_reducible rfl
    | simp only [↓h, ↓k0, ↓k1, ↓k2, ↓apply_ite P, ite_self]
    | split
    | refine (foldl_keeps P _ ?_ _ _).trans ?_
    | intro _ _

theorem calDone_keeps {β : Type} (P : State → β) (h : ∀ (s : State) x0 x1 x2 x3 x4 x5 x6 x7 x8, P { s with now := x0, mono := x1, out := x2, mbxs := x3, ops := x4, evt := x5, bkp := x6, plc := x7, slate := x8 } = P s) :
    ∀ a0 a1 s, P (calDone a0 a1 s) = P s := by
  have k0 := advTo_keeps P (fun s y0 y1 => h s y0 y1 s.out s.mbxs s.ops s.evt s.bkp s.plc s.slate)
  have k1 := finishOps_keeps P (fun s y0 y1 y2 y3 y4 y5 => h s s.now s.mono y0 y1 y2 y3 y4 s.plc y5)
  have k2 := noteCaps_keeps P (fun s y0 y1 => h s s.now s.mono y0 s.mbxs s.ops y1 s.bkp s.plc s.slate)
  have k3 := raiseIf_keeps P (fun s y0 y1 => h s s.now s.mono y0 s.mbxs s.ops y1 s.bkp s.plc s.slate)
  have k4 := setPlc_keeps P (fun s y0 => h s s.now s.mono s.out s.mbxs s.ops s.evt s.bkp y0 s.slate)
  intro a0 a1 s
  unfold calDone
  try dsimp only
  repeat' first
    | with_reducible rfl
    | simp only [↓h, ↓k0, ↓k1, ↓k2, ↓k3, ↓k4, ↓apply_ite P, ite_self]
    | split
    | refine (foldl_keeps P _ ?_ _ _).trans ?_
    | intro _ _

end Sys2Proof.Machine
end

