-- ==== Sys2Proof/Laws/KeepPowerLine.lean ====
section
/-! SUPPORT. What the functions of Machine/PowerLine.lean leave unchanged. -/

set_option linter.unusedSimpArgs false
set_option linter.unreachableTactic false
set_option linter.unusedTactic false

namespace Sys2Proof.Machine

theorem setRun_keeps {β : Type} (P : State → β) (h : ∀ (s : State) x0, P { s with plcMac := x0 } = P s) :
    ∀ a0 s, P (setRun a0 s) = P s := by
  intro a0 s
  unfold setRun
  try dsimp only
  repeat' first
    | with_reducible rfl
    | simp only [↓h, ↓apply_ite P, ite_self]
    | split
    | refine (foldl_keeps P _ ?_ _ _).trans ?_
    | intro _ _

theorem plcTransmit_keeps {β : Type} (P : State → β) (h : ∀ (s : State) x0 x1 x2, P { s with out := x0, plc := x1, plcMac := x2 } = P s) :
    ∀ a0 s, P (plcTransmit a0 s) = P s := by
  have k0 := setPlc_keeps P (fun s y0 => h s s.out y0 s.plcMac)
  have k1 := setRun_keeps P (fun s y0 => h s s.out s.plc y0)
  intro a0 s
  unfold plcTransmit
  try dsimp only
  repeat' first
    | with_reducible rfl
    | simp only [↓h, ↓k0, ↓k1, ↓apply_ite P, ite_self]
    | split
    | refine (foldl_keeps P _ ?_ _ _).trans ?_
    | intro _ _

theorem plcTransmitEnd_keeps {β : Type} (P : State → β) (h : ∀ (s : State) x0 x1 x2 x3, P { s with now := x0, mono := x1, plc := x2, eps := x3 } = P s) :
    ∀ a0 s, P (plcTransmitEnd a0 s) = P s := by
  have k0 := advTo_keeps P (fun s y0 y1 => h s y0 y1 s.plc s.eps)
  have k1 := noteEp_keeps P (fun s y0 => h s s.now s.mono s.plc y0)
  have k2 := setPlc_keeps P (fun s y0 => h s s.now s.mono y0 s.eps)
  intro a0 s
  unfold plcTransmitEnd
  try dsimp only
  repeat' first
    | with_reducible rfl
    | simp only [↓h, ↓k0, ↓k1, ↓k2, ↓apply_ite P, ite_self]
    | split
    | refine (foldl_keeps P _ ?_ _ _).trans ?_
    | intro _ _

theorem enqueue_keeps {β : Type} (P : State → β) (h : ∀ (s : State) x0, P { s with plcMac := x0 } = P s) :
    ∀ a0 a1 a2 a3 s, P (enqueue a0 a1 a2 a3 s) = P s := by
  intro a0 a1 a2 a3 s
  unfold enqueue
  try dsimp only
  repeat' first
    | with_reducible rfl
    | simp only [↓h, ↓apply_ite P, ite_self]
    | split
    | refine (foldl_keeps P _ ?_ _ _).trans ?_
    | intro _ _

theorem noteShare_keeps {β : Type} (P : State → β) (h : ∀ (s : State) x0, P { s with plcMac := x0 } = P s) :
    ∀ a0 s, P (noteShare a0 s) = P s := by
  intro a0 s
  unfold noteShare
  try dsimp only
  repeat' first
    | with_reducible rfl
    | simp only [↓h, ↓apply_ite P, ite_self]
    | split
    | refine (foldl_keeps P _ ?_ _ _).trans ?_
    | intro _ _

theorem unqueue_keeps {β : Type} (P : State → β) (h : ∀ (s : State) x0, P { s with plcMac := x0 } = P s) :
    ∀ a0 a1 a2 s, P (unqueue a0 a1 a2 s) = P s := by
  intro a0 a1 a2 s
  unfold unqueue
  try dsimp only
  repeat' first
    | with_reducible rfl
    | simp only [↓h, ↓apply_ite P, ite_self]
    | split
    | refine (foldl_keeps P _ ?_ _ _).trans ?_
    | intro _ _

theorem gateAttempt_keeps {β : Type} (P : State → β) (h : ∀ (s : State) x0 x1 x2 x3 x4 x5 x6 x7 x8 x9 x10 x11, P { s with out := x0, evt := x1, bkp := x2, plcMac := x3, eps := x4, mem := x5, slots := x6, keys := x7, slate := x8, life := x9, safe := x10, faultTimes := x11 } = P s) :
    ∀ a0 a1 a2 a3 a4 s, P (gateAttempt a0 a1 a2 a3 a4 s) = P s := by
  have k0 := prepareGate_keeps P (fun s y0 y1 y2 y3 y4 y5 y6 y7 y8 y9 y10 => h s y0 y1 y2 s.plcMac y3 y4 y5 y6 y7 y8 y9 y10)
  have k1 := setRun_keeps P (fun s y0 => h s s.out s.evt s.bkp y0 s.eps s.mem s.slots s.keys s.slate s.life s.safe s.faultTimes)
  intro a0 a1 a2 a3 a4 s
  unfold gateAttempt
  try dsimp only
  repeat' first
    | with_reducible rfl
    | simp only [↓h, ↓k0, ↓k1, ↓apply_ite P, ite_self]
    | split
    | refine (foldl_keeps P _ ?_ _ _).trans ?_
    | intro _ _

theorem startTxn_keeps {β : Type} (P : State → β) (h : ∀ (s : State) x0 x1 x2 x3 x4 x5 x6 x7 x8 x9 x10 x11 x12 x13, P { s with out := x0, evt := x1, bkp := x2, plc := x3, plcMac := x4, eps := x5, mem := x6, camps := x7, slots := x8, keys := x9, slate := x10, life := x11, safe := x12, faultTimes := x13 } = P s) :
    ∀ a0 s, P (startTxn a0 s) = P s := by
  have k0 := dlKey_keeps P (fun s y0 y1 y2 y3 y4 y5 y6 y7 => h s y0 y1 y2 s.plc s.plcMac y3 s.mem s.camps y4 y5 y6 y7 s.safe s.faultTimes)
  have k1 := gateAttempt_keeps P (fun s y0 y1 y2 y3 y4 y5 y6 y7 y8 y9 y10 y11 => h s y0 y1 y2 s.plc y3 y4 y5 s.camps y6 y7 y8 y9 y10 y11)
  have k2 := markSent_keeps P (fun s y0 => h s s.out s.evt s.bkp s.plc s.plcMac s.eps s.mem y0 s.slots s.keys s.slate s.life s.safe s.faultTimes)
  have k3 := nextDcnt_keeps P (fun s y0 y1 => h s s.out s.evt s.bkp s.plc s.plcMac y0 y1 s.camps s.slots s.keys s.slate s.life s.safe s.faultTimes)
  have k4 := noteShare_keeps P (fun s y0 => h s s.out s.evt s.bkp s.plc y0 s.eps s.mem s.camps s.slots s.keys s.slate s.life s.safe s.faultTimes)
  have k5 := plcTransmit_keeps P (fun s y0 y1 y2 => h s y0 s.evt s.bkp y1 y2 s.eps s.mem s.camps s.slots s.keys s.slate s.life s.safe s.faultTimes)
  have k6 := unqueue_keeps P (fun s y0 => h s s.out s.evt s.bkp s.plc y0 s.eps s.mem s.camps s.slots s.keys s.slate s.life s.safe s.faultTimes)
  have k7 := updEp_keeps P (fun s y0 y1 => h s s.out s.evt s.bkp s.plc s.plcMac y0 y1 s.camps s.slots s.keys s.slate s.life s.safe s.faultTimes)
  have hp : ∀ (s : State) y, P { s with plcMac := y } = P s := fun s y => h s s.out s.evt s.bkp s.plc y s.eps s.mem s.camps s.slots s.keys s.slate s.life s.safe s.faultTimes
  have q0 := fun b0 b1 t u (e : dlKey b0 b1 = (t, u)) => (congrArg (fun z => P z.1) e).symm.trans (k0 b0 b1)
  have q3 := fun b0 b1 t u (e : nextDcnt b0 b1 = (t, u)) => (congrArg (fun z => P z.1) e).symm.trans (k3 b0 b1)
  intro x s
  unfold startTxn
  split
  · rfl
  · next e _ =>
    extract_lets pseq relays x1 nbr step dlLen custody kind x2 take
    have kt : ∀ s, P (take s) = P s := fun s => (k4 _ _).trans ((k7 _ _ _).trans ((k6 _ _ _ _).trans (hp s _)))
    clear_value take x2 kind custody dlLen step nbr x1 relays pseq
    repeat' first
      | with_reducible rfl
      | simp only [↓kt, ↓k0, ↓k1, ↓k2, ↓k3, ↓k5]
      | split
      | refine (q0 _ _ _ _ (by assumption)).trans ?_
      | refine (q3 _ _ _ _ (by assumption)).trans ?_

theorem transactionStart_keeps {β : Type} (P : State → β) (h : ∀ (s : State) x0 x1 x2 x3 x4 x5 x6 x7 x8 x9 x10 x11 x12 x13 x14 x15, P { s with now := x0, mono := x1, out := x2, evt := x3, bkp := x4, plc := x5, plcMac := x6, eps := x7, mem := x8, camps := x9, slots := x10, keys := x11, slate := x12, life := x13, safe := x14, faultTimes := x15 } = P s) :
    ∀ a0 a1 s, P (transactionStart a0 a1 s) = P s := by
  have k0 := advTo_keeps P (fun s y0 y1 => h s y0 y1 s.out s.evt s.bkp s.plc s.plcMac s.eps s.mem s.camps s.slots s.keys s.slate s.life s.safe s.faultTimes)
  have k1 := startTxn_keeps P (fun s y0 y1 y2 y3 y4 y5 y6 y7 y8 y9 y10 y11 y12 y13 => h s s.now s.mono y0 y1 y2 y3 y4 y5 y6 y7 y8 y9 y10 y11 y12 y13)
  intro a0 a1 s
  unfold transactionStart
  try dsimp only
  repeat' first
    | with_reducible rfl
    | simp only [↓h, ↓k0, ↓k1, ↓apply_ite P, ite_self]
    | split
    | refine (foldl_keeps P _ ?_ _ _).trans ?_
    | intro _ _

theorem escalate_keeps {β : Type} (P : State → β) (h : ∀ (s : State) x0 x1, P { s with plc := x0, plcMac := x1 } = P s) :
    ∀ a0 a1 s, P (escalate a0 a1 s) = P s := by
  have k0 := setPlc_keeps P (fun s y0 => h s y0 s.plcMac)
  have k1 := updLink_keeps P (fun s y0 => h s s.plc y0)
  intro a0 a1 s
  unfold escalate
  try dsimp only
  repeat' first
    | with_reducible rfl
    | simp only [↓h, ↓k0, ↓k1, ↓apply_ite P, ite_self]
    | split
    | refine (foldl_keeps P _ ?_ _ _).trans ?_
    | intro _ _

theorem plcWaitEnd_keeps {β : Type} (P : State → β) (h : ∀ (s : State) x0 x1 x2 x3 x4 x5 x6 x7 x8 x9 x10 x11, P { s with out := x0, mbxs := x1, ops := x2, evt := x3, bkp := x4, jnv := x5, jnl := x6, prov := x7, roots := x8, camps := x9, slate := x10, life := x11 } = P s) :
    ∀ a0 s, P (plcWaitEnd a0 s) = P s := by
  have k0 := waitEnd_keeps P (fun s y0 y1 y2 y3 y4 y5 y6 y7 y8 y9 y10 y11 => h s y0 y1 y2 y3 y4 y5 y6 y7 y8 y9 y10 y11)
  intro a0 s
  unfold plcWaitEnd
  try dsimp only
  repeat' first
    | with_reducible rfl
    | simp only [↓h, ↓k0, ↓apply_ite P, ite_self]
    | split
    | refine (foldl_keeps P _ ?_ _ _).trans ?_
    | intro _ _

theorem answerPollNow_keeps {β : Type} (P : State → β) (h : ∀ (s : State) x0 x1 x2 x3 x4 x5 x6, P { s with out := x0, mbxs := x1, ops := x2, evt := x3, bkp := x4, plcMac := x5, slate := x6 } = P s) :
    ∀ a0 a1 s, P (answerPollNow a0 a1 s) = P s := by
  have k0 := finishOps_keeps P (fun s y0 y1 y2 y3 y4 y5 => h s y0 y1 y2 y3 y4 s.plcMac y5)
  intro a0 a1 s
  unfold answerPollNow
  try dsimp only
  repeat' first
    | with_reducible rfl
    | simp only [↓h, ↓k0, ↓apply_ite P, ite_self]
    | split
    | refine (foldl_keeps P _ ?_ _ _).trans ?_
    | intro _ _

theorem startRecals_keeps {β : Type} (P : State → β) (h : ∀ (s : State) x0 x1 x2, P { s with out := x0, evt := x1, plc := x2 } = P s) :
    ∀ a0 s, P (startRecals a0 s) = P s := by
  have k0 := startCal_keeps P (fun s y0 y1 y2 => h s y0 y1 y2)
  intro a0 s
  unfold startRecals
  try dsimp only
  repeat' first
    | with_reducible rfl
    | simp only [↓h, ↓k0, ↓apply_ite P, ite_self]
    | split
    | refine (foldl_keeps P _ ?_ _ _).trans ?_
    | intro _ _

theorem plcTrailer_keeps {β : Type} (P : State → β) (h : ∀ (s : State) x0, P { s with freeCtr := x0 } = P s) :
    ∀ a0 a1 s, P (plcTrailer a0 a1 s).2 = P s := by
  have k0 := fresh_keeps P (fun s y0 => h s y0)
  have q0 := fun b0 t u (e : fresh b0 = (u, t)) => (congrArg (fun z => P z.2) e).symm.trans (k0 b0)
  intro a0 a1 s
  unfold plcTrailer
  try dsimp only
  repeat' first
    | with_reducible rfl
    | simp only [↓h, ↓k0, ↓apply_ite P, ite_self]
    | split
    | refine (q0 _ _ _ (by assumption)).trans ?_
    | refine (foldl_keeps P _ ?_ _ _).trans ?_
    | intro _ _

theorem pushPlcTrailers_keeps {β : Type} (P : State → β) (h : ∀ (s : State) x0, P { s with plc := x0 } = P s) :
    ∀ a0 a1 a2 s, P (pushPlcTrailers a0 a1 a2 s) = P s := by
  have k0 := setPlc_keeps P (fun s y0 => h s y0)
  intro a0 a1 a2 s
  unfold pushPlcTrailers
  try dsimp only
  repeat' first
    | with_reducible rfl
    | simp only [↓h, ↓k0, ↓apply_ite P, ite_self]
    | split
    | refine (foldl_keeps P _ ?_ _ _).trans ?_
    | intro _ _

theorem endRx_keeps {β : Type} (P : State → β) (h : ∀ (s : State) x0 x1, P { s with freeCtr := x0, plc := x1 } = P s) :
    ∀ a0 s, P (endRx a0 s) = P s := by
  have k0 := plcTrailer_keeps P (fun s y0 => h s y0 s.plc)
  have k1 := pushPlcTrailers_keeps P (fun s y0 => h s s.freeCtr y0)
  have k2 := setPlc_keeps P (fun s y0 => h s s.freeCtr y0)
  have q0 := fun b0 b1 b2 t u (e : plcTrailer b0 b1 b2 = (u, t)) => (congrArg (fun z => P z.2) e).symm.trans (k0 b0 b1 b2)
  intro a0 s
  unfold endRx
  try dsimp only
  repeat' first
    | with_reducible rfl
    | simp only [↓h, ↓k0, ↓k1, ↓k2, ↓apply_ite P, ite_self]
    | split
    | refine (q0 _ _ _ _ _ (by assumption)).trans ?_
    | refine (foldl_keeps P _ ?_ _ _).trans ?_
    | intro _ _

theorem quietPort_keeps {β : Type} (P : State → β) (h : ∀ (s : State) x0 x1, P { s with freeCtr := x0, plc := x1 } = P s) :
    ∀ a0 s, P (quietPort a0 s) = P s := by
  have k0 := endRx_keeps P (fun s y0 y1 => h s y0 y1)
  have k1 := setPlc_keeps P (fun s y0 => h s s.freeCtr y0)
  intro a0 s
  unfold quietPort
  try dsimp only
  repeat' first
    | with_reducible rfl
    | simp only [↓h, ↓k0, ↓k1, ↓apply_ite P, ite_self]
    | split
    | refine (foldl_keeps P _ ?_ _ _).trans ?_
    | intro _ _

theorem leavePort_keeps {β : Type} (P : State → β) (h : ∀ (s : State) x0 x1 x2, P { s with freeCtr := x0, plc := x1, plcMac := x2 } = P s) :
    ∀ a0 s, P (leavePort a0 s) = P s := by
  have k0 := quietPort_keeps P (fun s y0 y1 => h s y0 y1 s.plcMac)
  intro a0 s
  unfold leavePort
  try dsimp only
  repeat' first
    | with_reducible rfl
    | simp only [↓h, ↓k0, ↓apply_ite P, ite_self]
    | split
    | refine (foldl_keeps P _ ?_ _ _).trans ?_
    | intro _ _

theorem pollFailed_keeps {β : Type} (P : State → β) (h : ∀ (s : State) x0 x1 x2 x3 x4, P { s with out := x0, evt := x1, plcMac := x2, eps := x3, mem := x4 } = P s) :
    ∀ a0 s, P (pollFailed a0 s) = P s := by
  have k0 := raise_keeps P (fun s y0 y1 => h s y0 y1 s.plcMac s.eps s.mem)
  have k1 := recalcOne_keeps P (fun s y0 y1 y2 y3 y4 => h s y0 y1 y2 y3 y4)
  have k2 := updEp_keeps P (fun s y0 y1 => h s s.out s.evt s.plcMac y0 y1)
  intro a0 s
  unfold pollFailed
  try dsimp only
  repeat' first
    | with_reducible rfl
    | simp only [↓h, ↓k0, ↓k1, ↓k2, ↓apply_ite P, ite_self]
    | split
    | refine (foldl_keeps P _ ?_ _ _).trans ?_
    | intro _ _

theorem txnFailed_keeps {β : Type} (P : State → β) (h : ∀ (s : State) x0 x1 x2 x3 x4 x5 x6 x7 x8 x9 x10 x11 x12 x13 x14 x15 x16, P { s with freeCtr := x0, out := x1, mbxs := x2, ops := x3, evt := x4, bkp := x5, plc := x6, plcMac := x7, eps := x8, mem := x9, jnv := x10, jnl := x11, prov := x12, roots := x13, camps := x14, slate := x15, life := x16 } = P s) :
    ∀ a0 s, P (txnFailed a0 s) = P s := by
  have k0 := answerPollNow_keeps P (fun s y0 y1 y2 y3 y4 y5 y6 => h s s.freeCtr y0 y1 y2 y3 y4 s.plc y5 s.eps s.mem s.jnv s.jnl s.prov s.roots s.camps y6 s.life)
  have k1 := leavePort_keeps P (fun s y0 y1 y2 => h s y0 s.out s.mbxs s.ops s.evt s.bkp y1 y2 s.eps s.mem s.jnv s.jnl s.prov s.roots s.camps s.slate s.life)
  have k2 := plcWaitEnd_keeps P (fun s y0 y1 y2 y3 y4 y5 y6 y7 y8 y9 y10 y11 => h s s.freeCtr y0 y1 y2 y3 y4 s.plc s.plcMac s.eps s.mem y5 y6 y7 y8 y9 y10 y11)
  have k3 := pollFailed_keeps P (fun s y0 y1 y2 y3 y4 => h s s.freeCtr y0 s.mbxs s.ops y1 s.bkp s.plc y2 y3 y4 s.jnv s.jnl s.prov s.roots s.camps s.slate s.life)
  have k4 := startRecals_keeps P (fun s y0 y1 y2 => h s s.freeCtr y0 s.mbxs s.ops y1 s.bkp y2 s.plcMac s.eps s.mem s.jnv s.jnl s.prov s.roots s.camps s.slate s.life)
  intro a0 s
  unfold txnFailed
  try dsimp only
  repeat' first
    | with_reducible rfl
    | simp only [↓h, ↓k0, ↓k1, ↓k2, ↓k3, ↓k4, ↓apply_ite P, ite_self]
    | split
    | refine (foldl_keeps P _ ?_ _ _).trans ?_
    | intro _ _

theorem attemptFailed_keeps {β : Type} (P : State → β) (h : ∀ (s : State) x0 x1 x2 x3 x4 x5 x6 x7 x8 x9 x10 x11 x12 x13 x14 x15 x16, P { s with freeCtr := x0, out := x1, mbxs := x2, ops := x3, evt := x4, bkp := x5, plc := x6, plcMac := x7, eps := x8, mem := x9, jnv := x10, jnl := x11, prov := x12, roots := x13, camps := x14, slate := x15, life := x16 } = P s) :
    ∀ a0 a1 s, P (attemptFailed a0 a1 s) = P s := by
  have k0 := escalate_keeps P (fun s y0 y1 => h s s.freeCtr s.out s.mbxs s.ops s.evt s.bkp y0 y1 s.eps s.mem s.jnv s.jnl s.prov s.roots s.camps s.slate s.life)
  have k1 := quietPort_keeps P (fun s y0 y1 => h s y0 s.out s.mbxs s.ops s.evt s.bkp y1 s.plcMac s.eps s.mem s.jnv s.jnl s.prov s.roots s.camps s.slate s.life)
  have k2 := setRun_keeps P (fun s y0 => h s s.freeCtr s.out s.mbxs s.ops s.evt s.bkp s.plc y0 s.eps s.mem s.jnv s.jnl s.prov s.roots s.camps s.slate s.life)
  have k3 := txnFailed_keeps P (fun s y0 y1 y2 y3 y4 y5 y6 y7 y8 y9 y10 y11 y12 y13 y14 y15 y16 => h s y0 y1 y2 y3 y4 y5 y6 y7 y8 y9 y10 y11 y12 y13 y14 y15 y16)
  intro a0 a1 s
  unfold attemptFailed
  try dsimp only
  repeat' first
    | with_reducible rfl
    | simp only [↓h, ↓k0, ↓k1, ↓k2, ↓k3, ↓apply_ite P, ite_self]
    | split
    | refine (foldl_keeps P _ ?_ _ _).trans ?_
    | intro _ _

theorem nextAttempt_keeps {β : Type} (P : State → β) (h : ∀ (s : State) x0 x1 x2 x3 x4 x5 x6 x7 x8 x9 x10 x11 x12, P { s with out := x0, evt := x1, bkp := x2, plc := x3, plcMac := x4, eps := x5, mem := x6, slots := x7, keys := x8, slate := x9, life := x10, safe := x11, faultTimes := x12 } = P s) :
    ∀ a0 s, P (nextAttempt a0 s) = P s := by
  have k0 := gateAttempt_keeps P (fun s y0 y1 y2 y3 y4 y5 y6 y7 y8 y9 y10 y11 => h s y0 y1 y2 s.plc y3 y4 y5 y6 y7 y8 y9 y10 y11)
  have k1 := plcTransmit_keeps P (fun s y0 y1 y2 => h s y0 s.evt s.bkp y1 y2 s.eps s.mem s.slots s.keys s.slate s.life s.safe s.faultTimes)
  intro a0 s
  unfold nextAttempt
  try dsimp only
  repeat' first
    | with_reducible rfl
    | simp only [↓h, ↓k0, ↓k1, ↓apply_ite P, ite_self]
    | split
    | refine (foldl_keeps P _ ?_ _ _).trans ?_
    | intro _ _

theorem retryGap_keeps {β : Type} (P : State → β) (h : ∀ (s : State) x0 x1 x2 x3 x4 x5 x6 x7 x8 x9 x10 x11 x12 x13 x14, P { s with now := x0, mono := x1, out := x2, evt := x3, bkp := x4, plc := x5, plcMac := x6, eps := x7, mem := x8, slots := x9, keys := x10, slate := x11, life := x12, safe := x13, faultTimes := x14 } = P s) :
    ∀ a0 s, P (retryGap a0 s) = P s := by
  have k0 := advMono_keeps P (fun s y0 y1 => h s y0 y1 s.out s.evt s.bkp s.plc s.plcMac s.eps s.mem s.slots s.keys s.slate s.life s.safe s.faultTimes)
  have k1 := nextAttempt_keeps P (fun s y0 y1 y2 y3 y4 y5 y6 y7 y8 y9 y10 y11 y12 => h s s.now s.mono y0 y1 y2 y3 y4 y5 y6 y7 y8 y9 y10 y11 y12)
  intro a0 s
  unfold retryGap
  try dsimp only
  repeat' first
    | with_reducible rfl
    | simp only [↓h, ↓k0, ↓k1, ↓apply_ite P, ite_self]
    | split
    | refine (foldl_keeps P _ ?_ _ _).trans ?_
    | intro _ _

theorem pollDeadline_keeps {β : Type} (P : State → β) (h : ∀ (s : State) x0 x1 x2 x3 x4 x5 x6 x7 x8 x9 x10 x11 x12 x13 x14 x15 x16 x17 x18, P { s with now := x0, mono := x1, freeCtr := x2, out := x3, mbxs := x4, ops := x5, evt := x6, bkp := x7, plc := x8, plcMac := x9, eps := x10, mem := x11, jnv := x12, jnl := x13, prov := x14, roots := x15, camps := x16, slate := x17, life := x18 } = P s) :
    ∀ a0 s, P (pollDeadline a0 s) = P s := by
  have k0 := advTo_keeps P (fun s y0 y1 => h s y0 y1 s.freeCtr s.out s.mbxs s.ops s.evt s.bkp s.plc s.plcMac s.eps s.mem s.jnv s.jnl s.prov s.roots s.camps s.slate s.life)
  have k1 := attemptFailed_keeps P (fun s y0 y1 y2 y3 y4 y5 y6 y7 y8 y9 y10 y11 y12 y13 y14 y15 y16 => h s s.now s.mono y0 y1 y2 y3 y4 y5 y6 y7 y8 y9 y10 y11 y12 y13 y14 y15 y16)
  have k2 := setPlc_keeps P (fun s y0 => h s s.now s.mono s.freeCtr s.out s.mbxs s.ops s.evt s.bkp y0 s.plcMac s.eps s.mem s.jnv s.jnl s.prov s.roots s.camps s.slate s.life)
  intro a0 s
  unfold pollDeadline
  try dsimp only
  repeat' first
    | with_reducible rfl
    | simp only [↓h, ↓k0, ↓k1, ↓k2, ↓apply_ite P, ite_self]
    | split
    | refine (foldl_keeps P _ ?_ _ _).trans ?_
    | intro _ _

theorem takeSlots_keeps {β : Type} (P : State → β) (h : ∀ (s : State) x0, P { s with plcMac := x0 } = P s) :
    ∀ a0 a1 s, P (takeSlots a0 a1 s) = P s := by
  have k0 := refreshLink_keeps P (fun s y0 => h s y0)
  intro a0 a1 s
  unfold takeSlots
  try dsimp only
  repeat' first
    | with_reducible rfl
    | simp only [↓h, ↓k0, ↓apply_ite P, ite_self]
    | split
    | refine (foldl_keeps P _ ?_ _ _).trans ?_
    | intro _ _

theorem txnGood_keeps {β : Type} (P : State → β) (h : ∀ (s : State) x0 x1 x2 x3 x4 x5 x6 x7 x8 x9 x10, P { s with freeCtr := x0, out := x1, mbxs := x2, ops := x3, evt := x4, bkp := x5, plc := x6, plcMac := x7, eps := x8, mem := x9, slate := x10 } = P s) :
    ∀ a0 a1 a2 s, P (txnGood a0 a1 a2 s) = P s := by
  have k0 := answerPollNow_keeps P (fun s y0 y1 y2 y3 y4 y5 y6 => h s s.freeCtr y0 y1 y2 y3 y4 s.plc y5 s.eps s.mem y6)
  have k1 := leavePort_keeps P (fun s y0 y1 y2 => h s y0 s.out s.mbxs s.ops s.evt s.bkp y1 y2 s.eps s.mem s.slate)
  have k2 := setPlc_keeps P (fun s y0 => h s s.freeCtr s.out s.mbxs s.ops s.evt s.bkp y0 s.plcMac s.eps s.mem s.slate)
  have k3 := startRecals_keeps P (fun s y0 y1 y2 => h s s.freeCtr y0 s.mbxs s.ops y1 s.bkp y2 s.plcMac s.eps s.mem s.slate)
  have k4 := takeSlots_keeps P (fun s y0 => h s s.freeCtr s.out s.mbxs s.ops s.evt s.bkp s.plc y0 s.eps s.mem s.slate)
  have k5 := updEp_keeps P (fun s y0 y1 => h s s.freeCtr s.out s.mbxs s.ops s.evt s.bkp s.plc s.plcMac y0 y1 s.slate)
  have k6 := updLink_keeps P (fun s y0 => h s s.freeCtr s.out s.mbxs s.ops s.evt s.bkp s.plc y0 s.eps s.mem s.slate)
  intro a0 a1 a2 s
  unfold txnGood
  try dsimp only
  repeat' first
    | with_reducible rfl
    | simp only [↓h, ↓k0, ↓k1, ↓k2, ↓k3, ↓k4, ↓k5, ↓k6, ↓apply_ite P, ite_self]
    | split
    | refine (foldl_keeps P _ ?_ _ _).trans ?_
    | intro _ _

theorem takeNbr_keeps {β : Type} (P : State → β) (h : ∀ (s : State) x0, P { s with plcMac := x0 } = P s) :
    ∀ a0 a1 a2 s, P (takeNbr a0 a1 a2 s) = P s := by
  have k0 := refreshLink_keeps P (fun s y0 => h s y0)
  intro a0 a1 a2 s
  unfold takeNbr
  try dsimp only
  repeat' first
    | with_reducible rfl
    | simp only [↓h, ↓k0, ↓apply_ite P, ite_self]
    | split
    | refine (foldl_keeps P _ ?_ _ _).trans ?_
    | intro _ _

theorem notTheAnswer_keeps {β : Type} (P : State → β) (h : ∀ (s : State) x0, P { s with plcMac := x0 } = P s) :
    ∀ a0 s, P (notTheAnswer a0 s) = P s := by
  have k0 := setRun_keeps P (fun s y0 => h s y0)
  intro a0 s
  unfold notTheAnswer
  try dsimp only
  repeat' first
    | with_reducible rfl
    | simp only [↓h, ↓k0, ↓apply_ite P, ite_self]
    | split
    | refine (foldl_keeps P _ ?_ _ _).trans ?_
    | intro _ _

theorem dropQueued_keeps {β : Type} (P : State → β) (h : ∀ (s : State) x0 x1 x2 x3 x4 x5 x6, P { s with out := x0, mbxs := x1, ops := x2, evt := x3, bkp := x4, plcMac := x5, slate := x6 } = P s) :
    ∀ a0 s, P (dropQueued a0 s) = P s := by
  have k0 := answerPollNow_keeps P (fun s y0 y1 y2 y3 y4 y5 y6 => h s y0 y1 y2 y3 y4 y5 y6)
  intro a0 s
  unfold dropQueued
  try dsimp only
  repeat' first
    | with_reducible rfl
    | simp only [↓h, ↓k0, ↓apply_ite P, ite_self]
    | split
    | refine (foldl_keeps P _ ?_ _ _).trans ?_
    | intro _ _

theorem endPortTxns_keeps {β : Type} (P : State → β) (h : ∀ (s : State) x0 x1 x2 x3 x4 x5 x6 x7 x8 x9 x10 x11 x12 x13 x14 x15 x16, P { s with freeCtr := x0, out := x1, mbxs := x2, ops := x3, evt := x4, bkp := x5, plc := x6, plcMac := x7, eps := x8, mem := x9, jnv := x10, jnl := x11, prov := x12, roots := x13, camps := x14, slate := x15, life := x16 } = P s) :
    ∀ a0 s, P (endPortTxns a0 s) = P s := by
  have k0 := dropQueued_keeps P (fun s y0 y1 y2 y3 y4 y5 y6 => h s s.freeCtr y0 y1 y2 y3 y4 s.plc y5 s.eps s.mem s.jnv s.jnl s.prov s.roots s.camps y6 s.life)
  have k1 := txnFailed_keeps P (fun s y0 y1 y2 y3 y4 y5 y6 y7 y8 y9 y10 y11 y12 y13 y14 y15 y16 => h s y0 y1 y2 y3 y4 y5 y6 y7 y8 y9 y10 y11 y12 y13 y14 y15 y16)
  intro a0 s
  unfold endPortTxns
  try dsimp only
  repeat' first
    | with_reducible rfl
    | simp only [↓h, ↓k0, ↓k1, ↓apply_ite P, ite_self]
    | split
    | refine (foldl_keeps P _ ?_ _ _).trans ?_
    | intro _ _

theorem ldFault_keeps {β : Type} (P : State → β) (h : ∀ (s : State) x0 x1 x2 x3 x4 x5 x6 x7 x8 x9 x10 x11 x12 x13 x14 x15 x16 x17 x18, P { s with now := x0, mono := x1, freeCtr := x2, out := x3, mbxs := x4, ops := x5, evt := x6, bkp := x7, plc := x8, plcMac := x9, eps := x10, mem := x11, jnv := x12, jnl := x13, prov := x14, roots := x15, camps := x16, slate := x17, life := x18 } = P s) :
    ∀ a0 a1 s, P (ldFault a0 a1 s) = P s := by
  have k0 := advTo_keeps P (fun s y0 y1 => h s y0 y1 s.freeCtr s.out s.mbxs s.ops s.evt s.bkp s.plc s.plcMac s.eps s.mem s.jnv s.jnl s.prov s.roots s.camps s.slate s.life)
  have k1 := endPortTxns_keeps P (fun s y0 y1 y2 y3 y4 y5 y6 y7 y8 y9 y10 y11 y12 y13 y14 y15 y16 => h s s.now s.mono y0 y1 y2 y3 y4 y5 y6 y7 y8 y9 y10 y11 y12 y13 y14 y15 y16)
  have k2 := noteCaps_keeps P (fun s y0 y1 => h s s.now s.mono s.freeCtr y0 s.mbxs s.ops y1 s.bkp s.plc s.plcMac s.eps s.mem s.jnv s.jnl s.prov s.roots s.camps s.slate s.life)
  have k3 := raise_keeps P (fun s y0 y1 => h s s.now s.mono s.freeCtr y0 s.mbxs s.ops y1 s.bkp s.plc s.plcMac s.eps s.mem s.jnv s.jnl s.prov s.roots s.camps s.slate s.life)
  have k4 := setPlc_keeps P (fun s y0 => h s s.now s.mono s.freeCtr s.out s.mbxs s.ops s.evt s.bkp y0 s.plcMac s.eps s.mem s.jnv s.jnl s.prov s.roots s.camps s.slate s.life)
  have k5 := setRun_keeps P (fun s y0 => h s s.now s.mono s.freeCtr s.out s.mbxs s.ops s.evt s.bkp s.plc y0 s.eps s.mem s.jnv s.jnl s.prov s.roots s.camps s.slate s.life)
  intro a0 a1 s
  unfold ldFault
  try dsimp only
  repeat' first
    | with_reducible rfl
    | simp only [↓h, ↓k0, ↓k1, ↓k2, ↓k3, ↓k4, ↓k5, ↓apply_ite P, ite_self]
    | split
    | refine (foldl_keeps P _ ?_ _ _).trans ?_
    | intro _ _

theorem ldFaultRetry_keeps {β : Type} (P : State → β) (h : ∀ (s : State) x0 x1 x2 x3 x4 x5 x6 x7 x8 x9 x10 x11 x12 x13 x14, P { s with now := x0, mono := x1, out := x2, evt := x3, bkp := x4, plc := x5, plcMac := x6, eps := x7, mem := x8, slots := x9, keys := x10, slate := x11, life := x12, safe := x13, faultTimes := x14 } = P s) :
    ∀ a0 s, P (ldFaultRetry a0 s) = P s := by
  have k0 := advMono_keeps P (fun s y0 y1 => h s y0 y1 s.out s.evt s.bkp s.plc s.plcMac s.eps s.mem s.slots s.keys s.slate s.life s.safe s.faultTimes)
  have k1 := nextAttempt_keeps P (fun s y0 y1 y2 y3 y4 y5 y6 y7 y8 y9 y10 y11 y12 => h s s.now s.mono y0 y1 y2 y3 y4 y5 y6 y7 y8 y9 y10 y11 y12)
  have k2 := setPlc_keeps P (fun s y0 => h s s.now s.mono s.out s.evt s.bkp y0 s.plcMac s.eps s.mem s.slots s.keys s.slate s.life s.safe s.faultTimes)
  intro a0 s
  unfold ldFaultRetry
  try dsimp only
  repeat' first
    | with_reducible rfl
    | simp only [↓h, ↓k0, ↓k1, ↓k2, ↓apply_ite P, ite_self]
    | split
    | refine (foldl_keeps P _ ?_ _ _).trans ?_
    | intro _ _

theorem plcHeader_keeps {β : Type} (P : State → β) (h : ∀ (s : State) x0 x1 x2, P { s with now := x0, mono := x1, plc := x2 } = P s) :
    ∀ a0 a1 s, P (plcHeader a0 a1 s) = P s := by
  have k0 := advTo_keeps P (fun s y0 y1 => h s y0 y1 s.plc)
  have k1 := setPlc_keeps P (fun s y0 => h s s.now s.mono y0)
  intro a0 a1 s
  unfold plcHeader
  try dsimp only
  repeat' first
    | with_reducible rfl
    | simp only [↓h, ↓k0, ↓k1, ↓apply_ite P, ite_self]
    | split
    | refine (foldl_keeps P _ ?_ _ _).trans ?_
    | intro _ _

theorem rxOctets_keeps {β : Type} (P : State → β) (h : ∀ (s : State) x0, P { s with plc := x0 } = P s) :
    ∀ a0 a1 a2 s, P (rxOctets a0 a1 a2 s) = P s := by
  have k0 := setPlc_keeps P (fun s y0 => h s y0)
  intro a0 a1 a2 s
  unfold rxOctets
  try dsimp only
  repeat' first
    | with_reducible rfl
    | simp only [↓h, ↓k0, ↓apply_ite P, ite_self]
    | split
    | refine (foldl_keeps P _ ?_ _ _).trans ?_
    | intro _ _

theorem plcSymbol_keeps {β : Type} (P : State → β) (h : ∀ (s : State) x0, P { s with plc := x0 } = P s) :
    ∀ a0 a1 s, P (plcSymbol a0 a1 s) = P s := by
  have k0 := rxOctets_keeps P (fun s y0 => h s y0)
  have k1 := setPlc_keeps P (fun s y0 => h s y0)
  intro a0 a1 s
  unfold plcSymbol
  try dsimp only
  repeat' first
    | with_reducible rfl
    | simp only [↓h, ↓k0, ↓k1, ↓apply_ite P, ite_self]
    | split
    | refine (foldl_keeps P _ ?_ _ _).trans ?_
    | intro _ _

theorem countPlc_keeps {β : Type} (P : State → β) (h : ∀ (s : State) x0 x1 x2, P { s with out := x0, evt := x1, plc := x2 } = P s) :
    ∀ a0 a1 s, P (countPlc a0 a1 s) = P s := by
  have k0 := raiseIf_keeps P (fun s y0 y1 => h s y0 y1 s.plc)
  have k1 := setPlc_keeps P (fun s y0 => h s s.out s.evt y0)
  intro a0 a1 s
  unfold countPlc
  try dsimp only
  repeat' first
    | with_reducible rfl
    | simp only [↓h, ↓k0, ↓k1, ↓apply_ite P, ite_self]
    | split
    | refine (foldl_keeps P _ ?_ _ _).trans ?_
    | intro _ _

theorem frameVerdict_keeps {β : Type} (P : State → β) (h : ∀ (s : State) x0 x1 x2 x3 x4 x5 x6 x7 x8 x9 x10 x11 x12 x13 x14 x15 x16, P { s with freeCtr := x0, out := x1, mbxs := x2, ops := x3, evt := x4, bkp := x5, plc := x6, plcMac := x7, eps := x8, mem := x9, jnv := x10, jnl := x11, prov := x12, roots := x13, camps := x14, slate := x15, life := x16 } = P s) :
    ∀ a0 s, P (frameVerdict a0 s) = P s := by
  have k0 := attemptFailed_keeps P (fun s y0 y1 y2 y3 y4 y5 y6 y7 y8 y9 y10 y11 y12 y13 y14 y15 y16 => h s y0 y1 y2 y3 y4 y5 y6 y7 y8 y9 y10 y11 y12 y13 y14 y15 y16)
  have k1 := setRun_keeps P (fun s y0 => h s s.freeCtr s.out s.mbxs s.ops s.evt s.bkp s.plc y0 s.eps s.mem s.jnv s.jnl s.prov s.roots s.camps s.slate s.life)
  intro a0 s
  unfold frameVerdict
  try dsimp only
  repeat' first
    | with_reducible rfl
    | simp only [↓h, ↓k0, ↓k1, ↓apply_ite P, ite_self]
    | split
    | refine (foldl_keeps P _ ?_ _ _).trans ?_
    | intro _ _

theorem plcFrameEnd_keeps {β : Type} (P : State → β) (h : ∀ (s : State) x0 x1 x2 x3 x4 x5 x6 x7 x8 x9 x10 x11 x12 x13 x14 x15 x16 x17 x18, P { s with now := x0, mono := x1, freeCtr := x2, out := x3, mbxs := x4, ops := x5, evt := x6, bkp := x7, plc := x8, plcMac := x9, eps := x10, mem := x11, jnv := x12, jnl := x13, prov := x14, roots := x15, camps := x16, slate := x17, life := x18 } = P s) :
    ∀ a0 a1 s, P (plcFrameEnd a0 a1 s) = P s := by
  have k0 := advTo_keeps P (fun s y0 y1 => h s y0 y1 s.freeCtr s.out s.mbxs s.ops s.evt s.bkp s.plc s.plcMac s.eps s.mem s.jnv s.jnl s.prov s.roots s.camps s.slate s.life)
  have k1 := countPlc_keeps P (fun s y0 y1 y2 => h s s.now s.mono s.freeCtr y0 s.mbxs s.ops y1 s.bkp y2 s.plcMac s.eps s.mem s.jnv s.jnl s.prov s.roots s.camps s.slate s.life)
  have k2 := frameVerdict_keeps P (fun s y0 y1 y2 y3 y4 y5 y6 y7 y8 y9 y10 y11 y12 y13 y14 y15 y16 => h s s.now s.mono y0 y1 y2 y3 y4 y5 y6 y7 y8 y9 y10 y11 y12 y13 y14 y15 y16)
  have k3 := plcTrailer_keeps P (fun s y0 => h s s.now s.mono y0 s.out s.mbxs s.ops s.evt s.bkp s.plc s.plcMac s.eps s.mem s.jnv s.jnl s.prov s.roots s.camps s.slate s.life)
  have k4 := pushPlcTrailers_keeps P (fun s y0 => h s s.now s.mono s.freeCtr s.out s.mbxs s.ops s.evt s.bkp y0 s.plcMac s.eps s.mem s.jnv s.jnl s.prov s.roots s.camps s.slate s.life)
  have k5 := rxOctets_keeps P (fun s y0 => h s s.now s.mono s.freeCtr s.out s.mbxs s.ops s.evt s.bkp y0 s.plcMac s.eps s.mem s.jnv s.jnl s.prov s.roots s.camps s.slate s.life)
  have k6 := setPlc_keeps P (fun s y0 => h s s.now s.mono s.freeCtr s.out s.mbxs s.ops s.evt s.bkp y0 s.plcMac s.eps s.mem s.jnv s.jnl s.prov s.roots s.camps s.slate s.life)
  have q3 := fun b0 b1 b2 t u (e : plcTrailer b0 b1 b2 = (u, t)) => (congrArg (fun z => P z.2) e).symm.trans (k3 b0 b1 b2)
  intro a0 a1 s
  unfold plcFrameEnd
  try dsimp only
  repeat' first
    | with_reducible rfl
    | simp only [↓h, ↓k0, ↓k1, ↓k2, ↓k3, ↓k4, ↓k5, ↓k6, ↓apply_ite P, ite_self]
    | split
    | refine (q3 _ _ _ _ _ (by assumption)).trans ?_
    | refine (foldl_keeps P _ ?_ _ _).trans ?_
    | intro _ _

theorem plcOverflow_keeps {β : Type} (P : State → β) (h : ∀ (s : State) x0 x1, P { s with freeCtr := x0, plc := x1 } = P s) :
    ∀ a0 a1 s, P (plcOverflow a0 a1 s) = P s := by
  have k0 := plcTrailer_keeps P (fun s y0 => h s y0 s.plc)
  have k1 := pushPlcTrailers_keeps P (fun s y0 => h s s.freeCtr y0)
  have q0 := fun b0 b1 b2 t u (e : plcTrailer b0 b1 b2 = (u, t)) => (congrArg (fun z => P z.2) e).symm.trans (k0 b0 b1 b2)
  intro a0 a1 s
  unfold plcOverflow
  try dsimp only
  repeat' first
    | with_reducible rfl
    | simp only [↓h, ↓k0, ↓k1, ↓apply_ite P, ite_self]
    | split
    | refine (q0 _ _ _ _ _ (by assumption)).trans ?_
    | refine (foldl_keeps P _ ?_ _ _).trans ?_
    | intro _ _

theorem readDue_keeps {β : Type} (P : State → β) (h : ∀ (s : State) x0 x1 x2 x3, P { s with now := x0, mono := x1, plc := x2, plcMac := x3 } = P s) :
    ∀ a0 s, P (readDue a0 s) = P s := by
  have k0 := advTo_keeps P (fun s y0 y1 => h s y0 y1 s.plc s.plcMac)
  have k1 := enqueue_keeps P (fun s y0 => h s s.now s.mono s.plc y0)
  have k2 := setPlc_keeps P (fun s y0 => h s s.now s.mono y0 s.plcMac)
  intro a0 s
  unfold readDue
  try dsimp only
  repeat' first
    | with_reducible rfl
    | simp only [↓h, ↓k0, ↓k1, ↓k2, ↓apply_ite P, ite_self]
    | split
    | refine (foldl_keeps P _ ?_ _ _).trans ?_
    | intro _ _

theorem unreachRetry_keeps {β : Type} (P : State → β) (h : ∀ (s : State) x0 x1 x2, P { s with now := x0, mono := x1, plcMac := x2 } = P s) :
    ∀ a0 s, P (unreachRetry a0 s) = P s := by
  have k0 := advTo_keeps P (fun s y0 y1 => h s y0 y1 s.plcMac)
  have k1 := enqueue_keeps P (fun s y0 => h s s.now s.mono y0)
  intro a0 s
  unfold unreachRetry
  try dsimp only
  repeat' first
    | with_reducible rfl
    | simp only [↓h, ↓k0, ↓k1, ↓apply_ite P, ite_self]
    | split
    | refine (foldl_keeps P _ ?_ _ _).trans ?_
    | intro _ _

theorem custodyMax_keeps {β : Type} (P : State → β) (h : ∀ (s : State) x0 x1 x2, P { s with now := x0, mono := x1, plcMac := x2 } = P s) :
    ∀ a0 s, P (custodyMax a0 s) = P s := by
  have k0 := advTo_keeps P (fun s y0 y1 => h s y0 y1 s.plcMac)
  have k1 := enqueue_keeps P (fun s y0 => h s s.now s.mono y0)
  intro a0 s
  unfold custodyMax
  try dsimp only
  repeat' first
    | with_reducible rfl
    | simp only [↓h, ↓k0, ↓k1, ↓apply_ite P, ite_self]
    | split
    | refine (foldl_keeps P _ ?_ _ _).trans ?_
    | intro _ _

theorem askNbr_keeps {β : Type} (P : State → β) (h : ∀ (s : State) x0 x1 x2, P { s with plcMac := x0, eps := x1, mem := x2 } = P s) :
    ∀ a0 s, P (askNbr a0 s) = P s := by
  have k0 := enqueue_keeps P (fun s y0 => h s y0 s.eps s.mem)
  have k1 := updEp_keeps P (fun s y0 y1 => h s s.plcMac y0 y1)
  intro a0 s
  unfold askNbr
  try dsimp only
  repeat' first
    | with_reducible rfl
    | simp only [↓h, ↓k0, ↓k1, ↓apply_ite P, ite_self]
    | split
    | refine (foldl_keeps P _ ?_ _ _).trans ?_
    | intro _ _

theorem nbrDue_keeps {β : Type} (P : State → β) (h : ∀ (s : State) x0 x1 x2 x3 x4, P { s with now := x0, mono := x1, plcMac := x2, eps := x3, mem := x4 } = P s) :
    ∀ s, P (nbrDue s) = P s := by
  have k0 := askNbr_keeps P (fun s y0 y1 y2 => h s s.now s.mono y0 y1 y2)
  have k1 := roundAt_keeps P (fun s y0 y1 => h s y0 y1 s.plcMac s.eps s.mem)
  intro s
  unfold nbrDue
  try dsimp only
  repeat' first
    | with_reducible rfl
    | simp only [↓h, ↓k0, ↓k1, ↓apply_ite P, ite_self]
    | split
    | refine (foldl_keeps P _ ?_ _ _).trans ?_
    | intro _ _

theorem plcCalGet_keeps {β : Type} (P : State → β) :
    ∀ a0 s, P (plcCalGet a0 s).st = P s := by
  have k0 := refuse_keeps P
  have k1 := replyOk_keeps P
  intro a0 s
  unfold plcCalGet
  try dsimp only
  repeat' first
    | with_reducible rfl
    | simp only [↓k0, ↓k1, ↓apply_ite P, ite_self, Reply.st_done, Reply.st_pend, Reply.st_twice, Reply.st_wait, replyOk_st, refuse_st]
    | split
    | refine (foldl_keeps P _ ?_ _ _).trans ?_
    | intro _ _

theorem plcRecalibrate_keeps {β : Type} (P : State → β) (h : ∀ (s : State) x0 x1 x2, P { s with out := x0, evt := x1, plc := x2 } = P s) :
    ∀ a0 s, P (plcRecalibrate a0 s).st = P s := by
  have k0 := refuse_keeps P
  have k1 := setPlc_keeps P (fun s y0 => h s s.out s.evt y0)
  have k2 := startCal_keeps P (fun s y0 y1 y2 => h s y0 y1 y2)
  intro a0 s
  unfold plcRecalibrate
  try dsimp only
  repeat' first
    | with_reducible rfl
    | simp only [↓h, ↓k0, ↓k1, ↓k2, ↓apply_ite P, ite_self, Reply.st_done, Reply.st_pend, Reply.st_twice, Reply.st_wait, replyOk_st, refuse_st]
    | split
    | refine (foldl_keeps P _ ?_ _ _).trans ?_
    | intro _ _

theorem plcLinkGet_keeps {β : Type} (P : State → β) :
    ∀ a0 s, P (plcLinkGet a0 s).st = P s := by
  have k0 := refuse_keeps P
  have k1 := replyOk_keeps P
  intro a0 s
  unfold plcLinkGet
  try dsimp only
  repeat' first
    | with_reducible rfl
    | simp only [↓k0, ↓k1, ↓apply_ite P, ite_self, Reply.st_done, Reply.st_pend, Reply.st_twice, Reply.st_wait, replyOk_st, refuse_st]
    | split
    | refine (foldl_keeps P _ ?_ _ _).trans ?_
    | intro _ _

theorem plcRouteGet_keeps {β : Type} (P : State → β) :
    ∀ a0 s, P (plcRouteGet a0 s).st = P s := by
  have k0 := refuse_keeps P
  have k1 := replyOk_keeps P
  intro a0 s
  unfold plcRouteGet
  try dsimp only
  repeat' first
    | with_reducible rfl
    | simp only [↓k0, ↓k1, ↓apply_ite P, ite_self, Reply.st_done, Reply.st_pend, Reply.st_twice, Reply.st_wait, replyOk_st, refuse_st]
    | split
    | refine (foldl_keeps P _ ?_ _ _).trans ?_
    | intro _ _

theorem plcProposalsGet_keeps {β : Type} (P : State → β) :
    ∀ a0 s, P (plcProposalsGet a0 s).st = P s := by
  have k0 := refuse_keeps P
  have k1 := replyOk_keeps P
  intro a0 s
  unfold plcProposalsGet
  try dsimp only
  repeat' first
    | with_reducible rfl
    | simp only [↓k0, ↓k1, ↓apply_ite P, ite_self, Reply.st_done, Reply.st_pend, Reply.st_twice, Reply.st_wait, replyOk_st, refuse_st]
    | split
    | refine (foldl_keeps P _ ?_ _ _).trans ?_
    | intro _ _

theorem plcRouteSet_keeps {β : Type} (P : State → β) (h : ∀ (s : State) x0 x1 x2, P { s with plcMac := x0, eps := x1, mem := x2 } = P s) :
    ∀ a0 s, P (plcRouteSet a0 s).st = P s := by
  have k0 := refuse_keeps P
  have k1 := replyOk_keeps P
  have k2 := setRoute_keeps P (fun s y0 y1 y2 => h s y0 y1 y2)
  have k3 := updEp_keeps P (fun s y0 y1 => h s s.plcMac y0 y1)
  have q2 := fun b0 b1 b2 b3 t u (e : setRoute b0 b1 b2 b3 = (t, u)) => (congrArg (fun z => P z.1) e).symm.trans (k2 b0 b1 b2 b3)
  intro a0 s
  unfold plcRouteSet
  try dsimp only
  repeat' first
    | with_reducible rfl
    | simp only [↓h, ↓k0, ↓k1, ↓k2, ↓k3, ↓apply_ite P, ite_self, Reply.st_done, Reply.st_pend, Reply.st_twice, Reply.st_wait, replyOk_st, refuse_st]
    | split
    | refine (q2 _ _ _ _ _ _ (by assumption)).trans ?_
    | refine (foldl_keeps P _ ?_ _ _).trans ?_
    | intro _ _

theorem plcRouteUnpin_keeps {β : Type} (P : State → β) (h : ∀ (s : State) x0 x1, P { s with eps := x0, mem := x1 } = P s) :
    ∀ a0 s, P (plcRouteUnpin a0 s).st = P s := by
  have k0 := refuse_keeps P
  have k1 := replyOk_keeps P
  have k2 := updEp_keeps P (fun s y0 y1 => h s y0 y1)
  intro a0 s
  unfold plcRouteUnpin
  try dsimp only
  repeat' first
    | with_reducible rfl
    | simp only [↓h, ↓k0, ↓k1, ↓k2, ↓apply_ite P, ite_self, Reply.st_done, Reply.st_pend, Reply.st_twice, Reply.st_wait, replyOk_st, refuse_st]
    | split
    | refine (foldl_keeps P _ ?_ _ _).trans ?_
    | intro _ _

theorem plcPollNow_keeps {β : Type} (P : State → β) (h : ∀ (s : State) x0, P { s with plcMac := x0 } = P s) :
    ∀ a0 a1 s, P (plcPollNow a0 a1 s).st = P s := by
  have k0 := enqueue_keeps P (fun s y0 => h s y0)
  have k1 := refuse_keeps P
  intro a0 a1 s
  unfold plcPollNow
  try dsimp only
  repeat' first
    | with_reducible rfl
    | simp only [↓h, ↓k0, ↓k1, ↓apply_ite P, ite_self, Reply.st_done, Reply.st_pend, Reply.st_twice, Reply.st_wait, replyOk_st, refuse_st]
    | split
    | refine (foldl_keeps P _ ?_ _ _).trans ?_
    | intro _ _

end Sys2Proof.Machine
end

