-- ==== Sys2Proof/Laws/KeepDirectory.lean ====
section
/-! SUPPORT. What the functions of Machine/Directory.lean leave unchanged. -/

set_option linter.unusedSimpArgs false
set_option linter.unreachableTactic false
set_option linter.unusedTactic false

namespace Sys2Proof.Machine

theorem countLookup_keeps {β : Type} (P : State → β) (h : ∀ (s : State) x0, P { s with dir := x0 } = P s) :
    ∀ a0 s, P (countLookup a0 s) = P s := by
  intro a0 s
  unfold countLookup
  try dsimp only
  repeat' first
    | with_reducible rfl
    | simp only [↓h, ↓apply_ite P, ite_self]
    | split
    | refine (foldl_keeps P _ ?_ _ _).trans ?_
    | intro _ _

theorem removeSlot_keeps {β : Type} (P : State → β) (h : ∀ (s : State) x0, P { s with dir := x0 } = P s) :
    ∀ a0 s, P (removeSlot a0 s) = P s := by
  intro a0 s
  unfold removeSlot
  try dsimp only
  repeat' first
    | with_reducible rfl
    | simp only [↓h, ↓apply_ite P, ite_self]
    | split
    | refine (foldl_keeps P _ ?_ _ _).trans ?_
    | intro _ _

theorem queueRehash_keeps {β : Type} (P : State → β) (h : ∀ (s : State) x0 x1, P { s with dir := x0, maint := x1 } = P s) :
    ∀ s, P (queueRehash s) = P s := by
  have k0 := askToken_keeps P (fun s y0 => h s s.dir y0)
  intro s
  unfold queueRehash
  try dsimp only
  repeat' first
    | with_reducible rfl
    | simp only [↓h, ↓k0, ↓apply_ite P, ite_self]
    | split
    | refine (foldl_keeps P _ ?_ _ _).trans ?_
    | intro _ _

theorem noteStash_keeps {β : Type} (P : State → β) (h : ∀ (s : State) x0 x1 x2 x3, P { s with out := x0, evt := x1, dir := x2, maint := x3 } = P s) :
    ∀ a0 s, P (noteStash a0 s) = P s := by
  have k0 := queueRehash_keeps P (fun s y0 y1 => h s s.out s.evt y0 y1)
  have k1 := raise_keeps P (fun s y0 y1 => h s y0 y1 s.dir s.maint)
  intro a0 s
  unfold noteStash
  try dsimp only
  repeat' first
    | with_reducible rfl
    | simp only [↓h, ↓k0, ↓k1, ↓apply_ite P, ite_self]
    | split
    | refine (foldl_keeps P _ ?_ _ _).trans ?_
    | intro _ _

theorem rehashOne_keeps {β : Type} (P : State → β) (h : ∀ (s : State) x0, P { s with dir := x0 } = P s) :
    ∀ a0 s, P (rehashOne a0 s) = P s := by
  intro a0 s
  unfold rehashOne
  try dsimp only
  repeat' first
    | with_reducible rfl
    | simp only [↓h, ↓apply_ite P, ite_self]
    | split
    | refine (foldl_keeps P _ ?_ _ _).trans ?_
    | intro _ _

theorem rehashEnd_keeps {β : Type} (P : State → β) (h : ∀ (s : State) x0 x1 x2 x3 x4 x5 x6 x7, P { s with out := x0, mbxs := x1, ops := x2, evt := x3, bkp := x4, dir := x5, slate := x6, maint := x7 } = P s) :
    ∀ s, P (rehashEnd s) = P s := by
  have k0 := dropToken_keeps P (fun s y0 => h s s.out s.mbxs s.ops s.evt s.bkp s.dir s.slate y0)
  have k1 := finishOps_keeps P (fun s y0 y1 y2 y3 y4 y5 => h s y0 y1 y2 y3 y4 s.dir y5 s.maint)
  have k2 := raise_keeps P (fun s y0 y1 => h s y0 s.mbxs s.ops y1 s.bkp s.dir s.slate s.maint)
  have k3 := rehashOne_keeps P (fun s y0 => h s s.out s.mbxs s.ops s.evt s.bkp y0 s.slate s.maint)
  intro s
  unfold rehashEnd
  try dsimp only
  repeat' first
    | with_reducible rfl
    | simp only [↓h, ↓k0, ↓k1, ↓k2, ↓k3, ↓apply_ite P, ite_self]
    | split
    | refine (foldl_keeps P _ ?_ _ _).trans ?_
    | intro _ _

theorem queueCustody_keeps {β : Type} (P : State → β) (h : ∀ (s : State) x0 x1, P { s with sectors := x0, eps := x1 } = P s) :
    ∀ a0 a1 a2 a3 s, P (queueCustody a0 a1 a2 a3 s) = P s := by
  have k0 := noteEp_keeps P (fun s y0 => h s s.sectors y0)
  have k1 := setSec_keeps P (fun s y0 => h s y0 s.eps)
  intro a0 a1 a2 a3 s
  unfold queueCustody
  try dsimp only
  repeat' first
    | with_reducible rfl
    | simp only [↓h, ↓k0, ↓k1, ↓apply_ite P, ite_self]
    | split
    | refine (foldl_keeps P _ ?_ _ _).trans ?_
    | intro _ _

theorem writeBackCtx_keeps {β : Type} (P : State → β) (h : ∀ (s : State) x0, P { s with mem := x0 } = P s) :
    ∀ a0 s, P (writeBackCtx a0 s) = P s := by
  have k0 := forgetCtx_keeps P (fun s y0 => h s y0)
  intro a0 s
  unfold writeBackCtx
  try dsimp only
  repeat' first
    | with_reducible rfl
    | simp only [↓h, ↓k0, ↓apply_ite P, ite_self]
    | split
    | refine (foldl_keeps P _ ?_ _ _).trans ?_
    | intro _ _

theorem withdrawPeriod_keeps {β : Type} (P : State → β) (h : ∀ (s : State) x0 x1 x2 x3 x4 x5 x6 x7 x8 x9, P { s with out := x0, evt := x1, eps := x2, mem := x3, jnv := x4, jnl := x5, prov := x6, roots := x7, ledger := x8, life := x9 } = P s) :
    ∀ a0 s, P (withdrawPeriod a0 s) = P s := by
  have k0 := closeNow_keeps P (fun s y0 y1 y2 y3 => h s s.out s.evt y0 y1 s.jnv s.jnl y2 s.roots y3 s.life)
  have k1 := commitOne_keeps P (fun s y0 y1 y2 y3 y4 y5 y6 => h s y0 y1 s.eps s.mem y2 y3 y4 y5 s.ledger y6)
  have k2 := evalEp_keeps P (fun s y0 y1 y2 y3 => h s s.out s.evt y0 y1 s.jnv s.jnl y2 s.roots y3 s.life)
  have k3 := noteEp_keeps P (fun s y0 => h s s.out s.evt y0 s.mem s.jnv s.jnl s.prov s.roots s.ledger s.life)
  intro a0 s
  unfold withdrawPeriod
  try dsimp only
  repeat' first
    | with_reducible rfl
    | simp only [↓h, ↓k0, ↓k1, ↓k2, ↓k3, ↓apply_ite P, ite_self]
    | split
    | refine (foldl_keeps P _ ?_ _ _).trans ?_
    | intro _ _

theorem withdrawClose_keeps {β : Type} (P : State → β) (h : ∀ (s : State) x0 x1 x2 x3 x4 x5 x6 x7 x8 x9, P { s with out := x0, evt := x1, eps := x2, mem := x3, jnv := x4, jnl := x5, prov := x6, roots := x7, ledger := x8, life := x9 } = P s) :
    ∀ a0 s, P (withdrawClose a0 s) = P s := by
  have k0 := withdrawPeriod_keeps P (fun s y0 y1 y2 y3 y4 y5 y6 y7 y8 y9 => h s y0 y1 y2 y3 y4 y5 y6 y7 y8 y9)
  have k1 := writeBackCtx_keeps P (fun s y0 => h s s.out s.evt s.eps y0 s.jnv s.jnl s.prov s.roots s.ledger s.life)
  intro a0 s
  unfold withdrawClose
  try dsimp only
  repeat' first
    | with_reducible rfl
    | simp only [↓h, ↓k0, ↓k1, ↓apply_ite P, ite_self]
    | split
    | refine (foldl_keeps P _ ?_ _ _).trans ?_
    | intro _ _

theorem dropTxns_keeps {β : Type} (P : State → β) (h : ∀ (s : State) x0 x1 x2 x3 x4 x5 x6, P { s with out := x0, mbxs := x1, ops := x2, evt := x3, bkp := x4, plcMac := x5, slate := x6 } = P s) :
    ∀ a0 s, P (dropTxns a0 s) = P s := by
  have k0 := answerPollNow_keeps P (fun s y0 y1 y2 y3 y4 y5 y6 => h s y0 y1 y2 y3 y4 y5 y6)
  intro a0 s
  unfold dropTxns
  try dsimp only
  repeat' first
    | with_reducible rfl
    | simp only [↓h, ↓k0, ↓apply_ite P, ite_self]
    | split
    | refine (foldl_keeps P _ ?_ _ _).trans ?_
    | intro _ _

theorem becomeEmpty_keeps {β : Type} (P : State → β) (h : ∀ (s : State) x0 x1 x2 x3 x4 x5 x6 x7 x8 x9 x10 x11 x12 x13 x14 x15 x16 x17, P { s with out := x0, mbxs := x1, ops := x2, evt := x3, bkp := x4, sectors := x5, plcMac := x6, dir := x7, eps := x8, mem := x9, jnv := x10, jnl := x11, prov := x12, roots := x13, ledger := x14, camps := x15, slate := x16, life := x17 } = P s) :
    ∀ a0 s, P (becomeEmpty a0 s) = P s := by
  have k0 := dirtyPage_keeps P (fun s y0 => h s s.out s.mbxs s.ops s.evt s.bkp s.sectors s.plcMac s.dir s.eps s.mem s.jnv s.jnl s.prov s.roots y0 s.camps s.slate s.life)
  have k1 := dropOpp_keeps P (fun s y0 => h s s.out s.mbxs s.ops s.evt s.bkp y0 s.plcMac s.dir s.eps s.mem s.jnv s.jnl s.prov s.roots s.ledger s.camps s.slate s.life)
  have k2 := dropTxns_keeps P (fun s y0 y1 y2 y3 y4 y5 y6 => h s y0 y1 y2 y3 y4 s.sectors y5 s.dir s.eps s.mem s.jnv s.jnl s.prov s.roots s.ledger s.camps y6 s.life)
  have k3 := finishOps_keeps P (fun s y0 y1 y2 y3 y4 y5 => h s y0 y1 y2 y3 y4 s.sectors s.plcMac s.dir s.eps s.mem s.jnv s.jnl s.prov s.roots s.ledger s.camps y5 s.life)
  have k4 := forgetCtx_keeps P (fun s y0 => h s s.out s.mbxs s.ops s.evt s.bkp s.sectors s.plcMac s.dir s.eps y0 s.jnv s.jnl s.prov s.roots s.ledger s.camps s.slate s.life)
  have k5 := freePaths_keeps P (fun s y0 => h s s.out s.mbxs s.ops s.evt s.bkp s.sectors y0 s.dir s.eps s.mem s.jnv s.jnl s.prov s.roots s.ledger s.camps s.slate s.life)
  have k6 := removeSlot_keeps P (fun s y0 => h s s.out s.mbxs s.ops s.evt s.bkp s.sectors s.plcMac y0 s.eps s.mem s.jnv s.jnl s.prov s.roots s.ledger s.camps s.slate s.life)
  have k7 := skipTargets_keeps P (fun s y0 y1 y2 y3 y4 y5 y6 y7 y8 y9 y10 y11 => h s y0 y1 y2 y3 y4 s.sectors s.plcMac s.dir s.eps s.mem y5 y6 y7 y8 s.ledger y9 y10 y11)
  intro a0 s
  unfold becomeEmpty
  try dsimp only
  repeat' first
    | with_reducible rfl
    | simp only [↓h, ↓k0, ↓k1, ↓k2, ↓k3, ↓k4, ↓k5, ↓k6, ↓k7, ↓apply_ite P, ite_self]
    | split
    | refine (foldl_keeps P _ ?_ _ _).trans ?_
    | intro _ _

theorem retirementComplete_keeps {β : Type} (P : State → β) (h : ∀ (s : State) x0 x1 x2 x3 x4 x5 x6 x7 x8 x9 x10 x11 x12 x13 x14 x15 x16 x17, P { s with out := x0, mbxs := x1, ops := x2, evt := x3, bkp := x4, sectors := x5, plcMac := x6, dir := x7, eps := x8, mem := x9, jnv := x10, jnl := x11, prov := x12, roots := x13, ledger := x14, camps := x15, slate := x16, life := x17 } = P s) :
    ∀ a0 s, P (retirementComplete a0 s) = P s := by
  have k0 := becomeEmpty_keeps P (fun s y0 y1 y2 y3 y4 y5 y6 y7 y8 y9 y10 y11 y12 y13 y14 y15 y16 y17 => h s y0 y1 y2 y3 y4 y5 y6 y7 y8 y9 y10 y11 y12 y13 y14 y15 y16 y17)
  have k1 := withdrawClose_keeps P (fun s y0 y1 y2 y3 y4 y5 y6 y7 y8 y9 => h s y0 s.mbxs s.ops y1 s.bkp s.sectors s.plcMac s.dir y2 y3 y4 y5 y6 y7 y8 s.camps s.slate y9)
  intro a0 s
  unfold retirementComplete
  try dsimp only
  repeat' first
    | with_reducible rfl
    | simp only [↓h, ↓k0, ↓k1, ↓apply_ite P, ite_self]
    | split
    | refine (foldl_keeps P _ ?_ _ _).trans ?_
    | intro _ _

theorem discardCustody_keeps {β : Type} (P : State → β) (h : ∀ (s : State) x0 x1 x2 x3 x4 x5, P { s with out := x0, evt := x1, bkp := x2, sectors := x3, eps := x4, slate := x5 } = P s) :
    ∀ a0 s, P (discardCustody a0 s) = P s := by
  have k0 := noteEp_keeps P (fun s y0 => h s s.out s.evt s.bkp s.sectors y0 s.slate)
  have k1 := record_keeps P (fun s y0 y1 y2 y3 => h s y0 y1 y2 s.sectors s.eps y3)
  intro a0 s
  unfold discardCustody
  try dsimp only
  repeat' first
    | with_reducible rfl
    | simp only [↓h, ↓k0, ↓k1, ↓apply_ite P, ite_self]
    | split
    | refine (foldl_keeps P _ ?_ _ _).trans ?_
    | intro _ _

theorem retireHold_keeps {β : Type} (P : State → β) (h : ∀ (s : State) x0 x1 x2 x3 x4 x5 x6 x7 x8 x9 x10 x11 x12 x13 x14 x15 x16 x17 x18 x19, P { s with now := x0, mono := x1, out := x2, mbxs := x3, ops := x4, evt := x5, bkp := x6, sectors := x7, plcMac := x8, dir := x9, eps := x10, mem := x11, jnv := x12, jnl := x13, prov := x14, roots := x15, ledger := x16, camps := x17, slate := x18, life := x19 } = P s) :
    ∀ a0 s, P (retireHold a0 s) = P s := by
  have k0 := advMono_keeps P (fun s y0 y1 => h s y0 y1 s.out s.mbxs s.ops s.evt s.bkp s.sectors s.plcMac s.dir s.eps s.mem s.jnv s.jnl s.prov s.roots s.ledger s.camps s.slate s.life)
  have k1 := becomeEmpty_keeps P (fun s y0 y1 y2 y3 y4 y5 y6 y7 y8 y9 y10 y11 y12 y13 y14 y15 y16 y17 => h s s.now s.mono y0 y1 y2 y3 y4 y5 y6 y7 y8 y9 y10 y11 y12 y13 y14 y15 y16 y17)
  have k2 := discardCustody_keeps P (fun s y0 y1 y2 y3 y4 y5 => h s s.now s.mono y0 s.mbxs s.ops y1 y2 y3 s.plcMac s.dir y4 s.mem s.jnv s.jnl s.prov s.roots s.ledger s.camps y5 s.life)
  have k3 := withdrawClose_keeps P (fun s y0 y1 y2 y3 y4 y5 y6 y7 y8 y9 => h s s.now s.mono y0 s.mbxs s.ops y1 s.bkp s.sectors s.plcMac s.dir y2 y3 y4 y5 y6 y7 y8 s.camps s.slate y9)
  intro a0 s
  unfold retireHold
  try dsimp only
  repeat' first
    | with_reducible rfl
    | simp only [↓h, ↓k0, ↓k1, ↓k2, ↓k3, ↓apply_ite P, ite_self]
    | split
    | refine (foldl_keeps P _ ?_ _ _).trans ?_
    | intro _ _

theorem noteUnknown_keeps {β : Type} (P : State → β) (h : ∀ (s : State) x0, P { s with dir := x0 } = P s) :
    ∀ a0 a1 a2 a3 s, P (noteUnknown a0 a1 a2 a3 s) = P s := by
  intro a0 a1 a2 a3 s
  unfold noteUnknown
  try dsimp only
  repeat' first
    | with_reducible rfl
    | simp only [↓h, ↓apply_ite P, ite_self]
    | split
    | refine (foldl_keeps P _ ?_ _ _).trans ?_
    | intro _ _

theorem setFrame_keeps {β : Type} (P : State → β) (h : ∀ (s : State) x0, P { s with dir := x0 } = P s) :
    ∀ a0 a1 s, P (setFrame a0 a1 s) = P s := by
  intro a0 a1 s
  unfold setFrame
  try dsimp only
  repeat' first
    | with_reducible rfl
    | simp only [↓h, ↓apply_ite P, ite_self]
    | split
    | refine (foldl_keeps P _ ?_ _ _).trans ?_
    | intro _ _

theorem frameDone_keeps {β : Type} (P : State → β) (h : ∀ (s : State) x0 x1 x2 x3 x4 x5 x6 x7 x8 x9 x10 x11 x12 x13 x14 x15, P { s with out := x0, mbxs := x1, ops := x2, evt := x3, bkp := x4, dir := x5, eps := x6, mem := x7, jnv := x8, jnl := x9, prov := x10, roots := x11, ledger := x12, camps := x13, slate := x14, life := x15 } = P s) :
    ∀ a0 s, P (frameDone a0 s) = P s := by
  have k0 := endPassThru_keeps P (fun s y0 y1 => h s s.out s.mbxs s.ops s.evt s.bkp s.dir y0 y1 s.jnv s.jnl s.prov s.roots s.ledger s.camps s.slate s.life)
  have k1 := plcWaitEnd_keeps P (fun s y0 y1 y2 y3 y4 y5 y6 y7 y8 y9 y10 y11 => h s y0 y1 y2 y3 y4 s.dir s.eps s.mem y5 y6 y7 y8 s.ledger y9 y10 y11)
  have k2 := updEp_keeps P (fun s y0 y1 => h s s.out s.mbxs s.ops s.evt s.bkp s.dir y0 y1 s.jnv s.jnl s.prov s.roots s.ledger s.camps s.slate s.life)
  have k3 := withdrawClose_keeps P (fun s y0 y1 y2 y3 y4 y5 y6 y7 y8 y9 => h s y0 s.mbxs s.ops y1 s.bkp s.dir y2 y3 y4 y5 y6 y7 y8 s.camps s.slate y9)
  intro a0 s
  unfold frameDone
  try dsimp only
  repeat' first
    | with_reducible rfl
    | simp only [↓h, ↓k0, ↓k1, ↓k2, ↓k3, ↓apply_ite P, ite_self]
    | split
    | refine (foldl_keeps P _ ?_ _ _).trans ?_
    | intro _ _

theorem storeFrame_keeps {β : Type} (P : State → β) (h : ∀ (s : State) x0 x1 x2, P { s with dir := x0, eps := x1, mem := x2 } = P s) :
    ∀ a0 s, P (storeFrame a0 s) = P s := by
  have k0 := issueFetch_keeps P (fun s y0 y1 => h s s.dir y0 y1)
  have k1 := touch_keeps P (fun s y0 => h s s.dir s.eps y0)
  intro a0 s
  unfold storeFrame
  try dsimp only
  repeat' first
    | with_reducible rfl
    | simp only [↓h, ↓k0, ↓k1, ↓apply_ite P, ite_self]
    | split
    | refine (foldl_keeps P _ ?_ _ _).trans ?_
    | intro _ _

theorem fetchBufferFree_keeps {β : Type} (P : State → β) (h : ∀ (s : State) x0 x1 x2, P { s with dir := x0, eps := x1, mem := x2 } = P s) :
    ∀ s, P (fetchBufferFree s) = P s := by
  have k0 := issueFetch_keeps P (fun s y0 y1 => h s s.dir y0 y1)
  intro s
  unfold fetchBufferFree
  try dsimp only
  repeat' first
    | with_reducible rfl
    | simp only [↓h, ↓k0, ↓apply_ite P, ite_self]
    | split
    | refine (foldl_keeps P _ ?_ _ _).trans ?_
    | intro _ _

theorem lowUe_keeps {β : Type} (P : State → β) (h : ∀ (s : State) x0 x1 x2 x3 x4 x5, P { s with out := x0, evt := x1, bkp := x2, eps := x3, mem := x4, slate := x5 } = P s) :
    ∀ a0 a1 a2 s, P (lowUe a0 a1 a2 s) = P s := by
  have k0 := noteEp_keeps P (fun s y0 => h s s.out s.evt s.bkp y0 s.mem s.slate)
  have k1 := noteUe_keeps P (fun s y0 y1 y2 y3 y4 => h s y0 y1 y2 s.eps y3 y4)
  intro a0 a1 a2 s
  unfold lowUe
  try dsimp only
  repeat' first
    | with_reducible rfl
    | simp only [↓h, ↓k0, ↓k1, ↓apply_ite P, ite_self]
    | split
    | refine (foldl_keeps P _ ?_ _ _).trans ?_
    | intro _ _

theorem imageUe_keeps {β : Type} (P : State → β) (h : ∀ (s : State) x0 x1 x2 x3 x4 x5 x6, P { s with out := x0, evt := x1, bkp := x2, eps := x3, mem := x4, ledger := x5, slate := x6 } = P s) :
    ∀ a0 a1 s, P (imageUe a0 a1 s) = P s := by
  have k0 := noteEp_keeps P (fun s y0 => h s s.out s.evt s.bkp y0 s.mem s.ledger s.slate)
  have k1 := noteUe_keeps P (fun s y0 y1 y2 y3 y4 => h s y0 y1 y2 s.eps y3 s.ledger y4)
  have k2 := pageAgain_keeps P (fun s y0 y1 y2 => h s y0 y1 s.bkp s.eps s.mem y2 s.slate)
  intro a0 a1 s
  unfold imageUe
  try dsimp only
  repeat' first
    | with_reducible rfl
    | simp only [↓h, ↓k0, ↓k1, ↓k2, ↓apply_ite P, ite_self]
    | split
    | refine (foldl_keeps P _ ?_ _ _).trans ?_
    | intro _ _

theorem blobUe_keeps {β : Type} (P : State → β) (h : ∀ (s : State) x0 x1 x2 x3 x4 x5, P { s with out := x0, evt := x1, bkp := x2, eps := x3, mem := x4, slate := x5 } = P s) :
    ∀ a0 s, P (blobUe a0 s) = P s := by
  have k0 := noteEp_keeps P (fun s y0 => h s s.out s.evt s.bkp y0 s.mem s.slate)
  have k1 := noteUe_keeps P (fun s y0 y1 y2 y3 y4 => h s y0 y1 y2 s.eps y3 y4)
  intro a0 s
  unfold blobUe
  try dsimp only
  repeat' first
    | with_reducible rfl
    | simp only [↓h, ↓k0, ↓k1, ↓apply_ite P, ite_self]
    | split
    | refine (foldl_keeps P _ ?_ _ _).trans ?_
    | intro _ _

theorem fetchRead_keeps {β : Type} (P : State → β) (h : ∀ (s : State) x0 x1 x2 x3, P { s with out := x0, evt := x1, mem := x2, maint := x3 } = P s) :
    ∀ a0 a1 s a3, P (fetchRead a0 a1 s a3) = P s := by
  have k0 := noteCorrected_keeps P (fun s y0 y1 y2 y3 => h s y0 y1 y2 y3)
  intro a0 a1 s a3
  unfold fetchRead
  try dsimp only
  repeat' first
    | with_reducible rfl
    | simp only [↓h, ↓k0, ↓apply_ite P, ite_self]
    | split
    | refine (foldl_keeps P _ ?_ _ _).trans ?_
    | intro _ _

theorem fetchUe_keeps {β : Type} (P : State → β) (h : ∀ (s : State) x0 x1 x2 x3 x4 x5 x6 x7, P { s with out := x0, evt := x1, bkp := x2, eps := x3, mem := x4, ledger := x5, slate := x6, maint := x7 } = P s) :
    ∀ a0 a1 s, P (fetchUe a0 a1 s) = P s := by
  have k0 := blobUe_keeps P (fun s y0 y1 y2 y3 y4 y5 => h s y0 y1 y2 y3 y4 s.ledger y5 s.maint)
  have k1 := fetchRead_keeps P (fun s y0 y1 y2 y3 => h s y0 y1 s.bkp s.eps y2 s.ledger s.slate y3)
  have k2 := imageUe_keeps P (fun s y0 y1 y2 y3 y4 y5 y6 => h s y0 y1 y2 y3 y4 y5 y6 s.maint)
  have k3 := lowUe_keeps P (fun s y0 y1 y2 y3 y4 y5 => h s y0 y1 y2 y3 y4 s.ledger y5 s.maint)
  intro a0 a1 s
  unfold fetchUe
  try dsimp only
  repeat' first
    | with_reducible rfl
    | simp only [↓h, ↓k0, ↓k1, ↓k2, ↓k3, ↓apply_ite P, ite_self]
    | split
    | refine (foldl_keeps P _ ?_ _ _).trans ?_
    | intro _ _

theorem countDeferred_keeps {β : Type} (P : State → β) (h : ∀ (s : State) x0, P { s with dir := x0 } = P s) :
    ∀ a0 s, P (countDeferred a0 s) = P s := by
  intro a0 s
  unfold countDeferred
  try dsimp only
  repeat' first
    | with_reducible rfl
    | simp only [↓h, ↓apply_ite P, ite_self]
    | split
    | refine (foldl_keeps P _ ?_ _ _).trans ?_
    | intro _ _

theorem dropFrame9_keeps {β : Type} (P : State → β) (h : ∀ (s : State) x0 x1 x2 x3 x4 x5 x6 x7 x8 x9 x10 x11 x12 x13 x14 x15 x16, P { s with out := x0, mbxs := x1, ops := x2, evt := x3, bkp := x4, plcMac := x5, dir := x6, eps := x7, mem := x8, jnv := x9, jnl := x10, prov := x11, roots := x12, ledger := x13, camps := x14, slate := x15, life := x16 } = P s) :
    ∀ a0 s, P (dropFrame9 a0 s) = P s := by
  have k0 := countDeferred_keeps P (fun s y0 => h s s.out s.mbxs s.ops s.evt s.bkp s.plcMac y0 s.eps s.mem s.jnv s.jnl s.prov s.roots s.ledger s.camps s.slate s.life)
  have k1 := frameDone_keeps P (fun s y0 y1 y2 y3 y4 y5 y6 y7 y8 y9 y10 y11 y12 y13 y14 y15 => h s y0 y1 y2 y3 y4 s.plcMac y5 y6 y7 y8 y9 y10 y11 y12 y13 y14 y15)
  have k2 := notTheAnswer_keeps P (fun s y0 => h s s.out s.mbxs s.ops s.evt s.bkp y0 s.dir s.eps s.mem s.jnv s.jnl s.prov s.roots s.ledger s.camps s.slate s.life)
  intro a0 s
  unfold dropFrame9
  try dsimp only
  repeat' first
    | with_reducible rfl
    | simp only [↓h, ↓k0, ↓k1, ↓k2, ↓apply_ite P, ite_self]
    | split
    | refine (foldl_keeps P _ ?_ _ _).trans ?_
    | intro _ _

theorem fetchComplete_keeps {β : Type} (P : State → β) (h : ∀ (s : State) x0 x1 x2 x3 x4 x5 x6 x7 x8 x9 x10 x11 x12 x13 x14 x15 x16 x17, P { s with out := x0, mbxs := x1, ops := x2, evt := x3, bkp := x4, plcMac := x5, dir := x6, eps := x7, mem := x8, jnv := x9, jnl := x10, prov := x11, roots := x12, ledger := x13, camps := x14, slate := x15, life := x16, maint := x17 } = P s) :
    ∀ a0 a1 s, P (fetchComplete a0 a1 s) = P s := by
  have k0 := dropFrame9_keeps P (fun s y0 y1 y2 y3 y4 y5 y6 y7 y8 y9 y10 y11 y12 y13 y14 y15 y16 => h s y0 y1 y2 y3 y4 y5 y6 y7 y8 y9 y10 y11 y12 y13 y14 y15 y16 s.maint)
  have k1 := fetchUe_keeps P (fun s y0 y1 y2 y3 y4 y5 y6 y7 => h s y0 s.mbxs s.ops y1 y2 s.plcMac s.dir y3 y4 s.jnv s.jnl s.prov s.roots y5 s.camps y6 s.life y7)
  have k2 := install_keeps P (fun s y0 y1 => h s s.out s.mbxs s.ops s.evt s.bkp s.plcMac s.dir y0 y1 s.jnv s.jnl s.prov s.roots s.ledger s.camps s.slate s.life s.maint)
  intro a0 a1 s
  unfold fetchComplete
  try dsimp only
  repeat' first
    | with_reducible rfl
    | simp only [↓h, ↓k0, ↓k1, ↓k2, ↓apply_ite P, ite_self]
    | split
    | refine (foldl_keeps P _ ?_ _ _).trans ?_
    | intro _ _

theorem writebackDone_keeps {β : Type} (P : State → β) (h : ∀ (s : State) x0, P { s with mem := x0 } = P s) :
    ∀ a0 s, P (writebackDone a0 s) = P s := by
  intro a0 s
  unfold writebackDone
  try dsimp only
  repeat' first
    | with_reducible rfl
    | simp only [↓h, ↓apply_ite P, ite_self]
    | split
    | refine (foldl_keeps P _ ?_ _ _).trans ?_
    | intro _ _

theorem admitAir_keeps {β : Type} (P : State → β) (h : ∀ (s : State) x0 x1 x2 x3 x4 x5 x6 x7, P { s with out := x0, evt := x1, bkp := x2, dir := x3, eps := x4, mem := x5, ledger := x6, slate := x7 } = P s) :
    ∀ a0 a1 s, P (admitAir a0 a1 s) = P s := by
  have k0 := countDeferred_keeps P (fun s y0 => h s s.out s.evt s.bkp y0 s.eps s.mem s.ledger s.slate)
  have k1 := noteUnknown_keeps P (fun s y0 => h s s.out s.evt s.bkp y0 s.eps s.mem s.ledger s.slate)
  have k2 := storeFrame_keeps P (fun s y0 y1 y2 => h s s.out s.evt s.bkp y0 y1 y2 s.ledger s.slate)
  have k3 := tallyInc_keeps P (fun s y0 y1 y2 y3 y4 y5 y6 => h s y0 y1 y2 s.dir y3 y4 y5 y6)
  intro a0 a1 s
  unfold admitAir
  try dsimp only
  repeat' first
    | with_reducible rfl
    | simp only [↓h, ↓k0, ↓k1, ↓k2, ↓k3, ↓apply_ite P, ite_self]
    | split
    | refine (foldl_keeps P _ ?_ _ _).trans ?_
    | intro _ _

theorem airPacket_keeps {β : Type} (P : State → β) (h : ∀ (s : State) x0 x1 x2 x3 x4 x5 x6 x7 x8 x9 x10 x11 x12, P { s with now := x0, mono := x1, out := x2, evt := x3, bkp := x4, lanes := x5, sectors := x6, duty := x7, dir := x8, eps := x9, mem := x10, ledger := x11, slate := x12 } = P s) :
    ∀ a0 s, P (airPacket a0 s) = P s := by
  have k0 := ackOffer_keeps P (fun s y0 y1 y2 y3 y4 y5 => h s y0 y1 y2 y3 s.bkp s.lanes y4 y5 s.dir s.eps s.mem s.ledger s.slate)
  have k1 := admitAir_keeps P (fun s y0 y1 y2 y3 y4 y5 y6 y7 => h s s.now s.mono y0 y1 y2 s.lanes s.sectors s.duty y3 y4 y5 y6 y7)
  have k2 := countLookup_keeps P (fun s y0 => h s s.now s.mono s.out s.evt s.bkp s.lanes s.sectors s.duty y0 s.eps s.mem s.ledger s.slate)
  have k3 := setLane_keeps P (fun s y0 => h s s.now s.mono s.out s.evt s.bkp y0 s.sectors s.duty s.dir s.eps s.mem s.ledger s.slate)
  intro a0 s
  unfold airPacket
  try dsimp only
  repeat' first
    | with_reducible rfl
    | simp only [↓h, ↓k0, ↓k1, ↓k2, ↓k3, ↓apply_ite P, ite_self]
    | split
    | refine (foldl_keeps P _ ?_ _ _).trans ?_
    | intro _ _

theorem directoryAir_keeps {β : Type} (P : State → β) (h : ∀ (s : State) x0 x1 x2 x3 x4 x5 x6 x7 x8 x9 x10 x11 x12, P { s with now := x0, mono := x1, out := x2, evt := x3, bkp := x4, lanes := x5, sectors := x6, duty := x7, dir := x8, eps := x9, mem := x10, ledger := x11, slate := x12 } = P s) :
    ∀ a0 s, P (directoryAir a0 s) = P s := by
  have k0 := airPacket_keeps P (fun s y0 y1 y2 y3 y4 y5 y6 y7 y8 y9 y10 y11 y12 => h s y0 y1 y2 y3 y4 y5 y6 y7 y8 y9 y10 y11 y12)
  have k1 := setLane_keeps P (fun s y0 => h s s.now s.mono s.out s.evt s.bkp y0 s.sectors s.duty s.dir s.eps s.mem s.ledger s.slate)
  have k2 := valuesAt_keeps P
  have kv := fun v p => airPacket_keeps (fun u => P { u with cfg.vals := v, cfg.profiles := p }) (fun s y0 y1 y2 y3 y4 y5 y6 y7 y8 y9 y10 y11 y12 => h { s with cfg.vals := v, cfg.profiles := p } y0 y1 y2 y3 y4 y5 y6 y7 y8 y9 y10 y11 y12)
  intro a0 s
  unfold directoryAir
  try dsimp only
  repeat' first
    | with_reducible rfl
    | simp only [↓h, ↓k0, ↓k1, ↓apply_ite P, ite_self]
    | split
    | exact fun v p s => kv v p _ s
    | refine (k2 _ _ ?_ ?_ _).trans ?_
    | intro _
    | refine (foldl_keeps P _ ?_ _ _).trans ?_
    | intro _ _

theorem answered_keeps {β : Type} (P : State → β) (h : ∀ (s : State) x0 x1 x2 x3 x4 x5 x6 x7 x8 x9 x10, P { s with freeCtr := x0, out := x1, mbxs := x2, ops := x3, evt := x4, bkp := x5, plc := x6, plcMac := x7, eps := x8, mem := x9, slate := x10 } = P s) :
    ∀ a0 a1 a2 a3 s, P (answered a0 a1 a2 a3 s) = P s := by
  have k0 := txnGood_keeps P (fun s y0 y1 y2 y3 y4 y5 y6 y7 y8 y9 y10 => h s y0 y1 y2 y3 y4 y5 y6 y7 y8 y9 y10)
  intro a0 a1 a2 a3 s
  unfold answered
  try dsimp only
  repeat' first
    | with_reducible rfl
    | simp only [↓h, ↓k0, ↓apply_ite P, ite_self]
    | split
    | refine (foldl_keeps P _ ?_ _ _).trans ?_
    | intro _ _

theorem admitPlc_keeps {β : Type} (P : State → β) (h : ∀ (s : State) x0 x1 x2 x3 x4 x5 x6 x7 x8 x9 x10 x11 x12 x13 x14 x15 x16 x17 x18, P { s with freeCtr := x0, out := x1, mbxs := x2, ops := x3, evt := x4, bkp := x5, plc := x6, plcMac := x7, dir := x8, eps := x9, mem := x10, jnv := x11, jnl := x12, prov := x13, roots := x14, ledger := x15, camps := x16, slate := x17, life := x18 } = P s) :
    ∀ a0 a1 a2 a3 a4 s, P (admitPlc a0 a1 a2 a3 a4 s) = P s := by
  have k0 := answered_keeps P (fun s y0 y1 y2 y3 y4 y5 y6 y7 y8 y9 y10 => h s y0 y1 y2 y3 y4 y5 y6 y7 s.dir y8 y9 s.jnv s.jnl s.prov s.roots s.ledger s.camps y10 s.life)
  have k1 := countDeferred_keeps P (fun s y0 => h s s.freeCtr s.out s.mbxs s.ops s.evt s.bkp s.plc s.plcMac y0 s.eps s.mem s.jnv s.jnl s.prov s.roots s.ledger s.camps s.slate s.life)
  have k2 := notTheAnswer_keeps P (fun s y0 => h s s.freeCtr s.out s.mbxs s.ops s.evt s.bkp s.plc y0 s.dir s.eps s.mem s.jnv s.jnl s.prov s.roots s.ledger s.camps s.slate s.life)
  have k3 := noteUnknown_keeps P (fun s y0 => h s s.freeCtr s.out s.mbxs s.ops s.evt s.bkp s.plc s.plcMac y0 s.eps s.mem s.jnv s.jnl s.prov s.roots s.ledger s.camps s.slate s.life)
  have k4 := plcWaitEnd_keeps P (fun s y0 y1 y2 y3 y4 y5 y6 y7 y8 y9 y10 y11 => h s s.freeCtr y0 y1 y2 y3 y4 s.plc s.plcMac s.dir s.eps s.mem y5 y6 y7 y8 s.ledger y9 y10 y11)
  have k5 := storeFrame_keeps P (fun s y0 y1 y2 => h s s.freeCtr s.out s.mbxs s.ops s.evt s.bkp s.plc s.plcMac y0 y1 y2 s.jnv s.jnl s.prov s.roots s.ledger s.camps s.slate s.life)
  have k6 := tallyInc_keeps P (fun s y0 y1 y2 y3 y4 y5 y6 => h s s.freeCtr y0 s.mbxs s.ops y1 y2 s.plc s.plcMac s.dir y3 y4 s.jnv s.jnl s.prov s.roots y5 s.camps y6 s.life)
  intro a0 a1 a2 a3 a4 s
  unfold admitPlc
  try dsimp only
  repeat' first
    | with_reducible rfl
    | simp only [↓h, ↓k0, ↓k1, ↓k2, ↓k3, ↓k4, ↓k5, ↓k6, ↓apply_ite P, ite_self]
    | split
    | refine (foldl_keeps P _ ?_ _ _).trans ?_
    | intro _ _

theorem plcPacket_keeps {β : Type} (P : State → β) (h : ∀ (s : State) x0 x1 x2 x3 x4 x5 x6 x7 x8 x9 x10 x11 x12 x13 x14 x15 x16 x17 x18, P { s with freeCtr := x0, out := x1, mbxs := x2, ops := x3, evt := x4, bkp := x5, plc := x6, plcMac := x7, dir := x8, eps := x9, mem := x10, jnv := x11, jnl := x12, prov := x13, roots := x14, ledger := x15, camps := x16, slate := x17, life := x18 } = P s) :
    ∀ a0 a1 a2 a3 s, P (plcPacket a0 a1 a2 a3 s) = P s := by
  have k0 := admitPlc_keeps P (fun s y0 y1 y2 y3 y4 y5 y6 y7 y8 y9 y10 y11 y12 y13 y14 y15 y16 y17 y18 => h s y0 y1 y2 y3 y4 y5 y6 y7 y8 y9 y10 y11 y12 y13 y14 y15 y16 y17 y18)
  have k1 := notTheAnswer_keeps P (fun s y0 => h s s.freeCtr s.out s.mbxs s.ops s.evt s.bkp s.plc y0 s.dir s.eps s.mem s.jnv s.jnl s.prov s.roots s.ledger s.camps s.slate s.life)
  intro a0 a1 a2 a3 s
  unfold plcPacket
  try dsimp only
  repeat' first
    | with_reducible rfl
    | simp only [↓h, ↓k0, ↓k1, ↓apply_ite P, ite_self]
    | split
    | refine (foldl_keeps P _ ?_ _ _).trans ?_
    | intro _ _

theorem directoryPlc_keeps {β : Type} (P : State → β) (h : ∀ (s : State) x0 x1 x2 x3 x4 x5 x6 x7 x8 x9 x10 x11 x12 x13 x14 x15 x16 x17 x18, P { s with freeCtr := x0, out := x1, mbxs := x2, ops := x3, evt := x4, bkp := x5, plc := x6, plcMac := x7, dir := x8, eps := x9, mem := x10, jnv := x11, jnl := x12, prov := x13, roots := x14, ledger := x15, camps := x16, slate := x17, life := x18 } = P s) :
    ∀ a0 s, P (directoryPlc a0 s) = P s := by
  have k0 := plcPacket_keeps P (fun s y0 y1 y2 y3 y4 y5 y6 y7 y8 y9 y10 y11 y12 y13 y14 y15 y16 y17 y18 => h s y0 y1 y2 y3 y4 y5 y6 y7 y8 y9 y10 y11 y12 y13 y14 y15 y16 y17 y18)
  have k1 := setPlc_keeps P (fun s y0 => h s s.freeCtr s.out s.mbxs s.ops s.evt s.bkp y0 s.plcMac s.dir s.eps s.mem s.jnv s.jnl s.prov s.roots s.ledger s.camps s.slate s.life)
  have k2 := valuesAt_keeps P
  have kv := fun v p => plcPacket_keeps (fun u => P { u with cfg.vals := v, cfg.profiles := p }) (fun s y0 y1 y2 y3 y4 y5 y6 y7 y8 y9 y10 y11 y12 y13 y14 y15 y16 y17 y18 => h { s with cfg.vals := v, cfg.profiles := p } y0 y1 y2 y3 y4 y5 y6 y7 y8 y9 y10 y11 y12 y13 y14 y15 y16 y17 y18)
  intro a0 s
  unfold directoryPlc
  try dsimp only
  repeat' first
    | with_reducible rfl
    | simp only [↓h, ↓k0, ↓k1, ↓apply_ite P, ite_self]
    | split
    | exact fun v p s => kv v p _ _ _ _ s
    | refine (k2 _ _ ?_ ?_ _).trans ?_
    | intro _
    | refine (foldl_keeps P _ ?_ _ _).trans ?_
    | intro _ _

theorem heard_keeps {β : Type} (P : State → β) (h : ∀ (s : State) x0 x1 x2 x3 x4 x5 x6 x7 x8 x9 x10 x11, P { s with freeCtr := x0, out := x1, mbxs := x2, ops := x3, evt := x4, bkp := x5, sectors := x6, plc := x7, plcMac := x8, eps := x9, mem := x10, slate := x11 } = P s) :
    ∀ a0 a1 s, P (heard a0 a1 s) = P s := by
  have k0 := airHeard_keeps P (fun s y0 y1 y2 y3 => h s s.freeCtr y0 s.mbxs s.ops y1 s.bkp s.sectors s.plc s.plcMac y2 y3 s.slate)
  have k1 := answered_keeps P (fun s y0 y1 y2 y3 y4 y5 y6 y7 y8 y9 y10 => h s y0 y1 y2 y3 y4 y5 s.sectors y6 y7 y8 y9 y10)
  have k2 := openOpp_keeps P (fun s y0 => h s s.freeCtr s.out s.mbxs s.ops s.evt s.bkp y0 s.plc s.plcMac s.eps s.mem s.slate)
  have k3 := takeNbr_keeps P (fun s y0 => h s s.freeCtr s.out s.mbxs s.ops s.evt s.bkp s.sectors s.plc y0 s.eps s.mem s.slate)
  have k4 := updEp_keeps P (fun s y0 y1 => h s s.freeCtr s.out s.mbxs s.ops s.evt s.bkp s.sectors s.plc s.plcMac y0 y1 s.slate)
  intro a0 a1 s
  unfold heard
  try dsimp only
  repeat' first
    | with_reducible rfl
    | simp only [↓h, ↓k0, ↓k1, ↓k2, ↓k3, ↓k4, ↓apply_ite P, ite_self]
    | split
    | refine (foldl_keeps P _ ?_ _ _).trans ?_
    | intro _ _

theorem dedupStep_keeps {β : Type} (P : State → β) (h : ∀ (s : State) x0 x1 x2 x3 x4 x5 x6 x7 x8 x9 x10 x11 x12 x13 x14 x15 x16, P { s with out := x0, mbxs := x1, ops := x2, evt := x3, bkp := x4, sectors := x5, dir := x6, eps := x7, mem := x8, jnv := x9, jnl := x10, prov := x11, roots := x12, ledger := x13, camps := x14, slate := x15, life := x16 } = P s) :
    ∀ a0 a1 s, P (dedupStep a0 a1 s) = P s := by
  have k0 := frameDone_keeps P (fun s y0 y1 y2 y3 y4 y5 y6 y7 y8 y9 y10 y11 y12 y13 y14 y15 => h s y0 y1 y2 y3 y4 s.sectors y5 y6 y7 y8 y9 y10 y11 y12 y13 y14 y15)
  have k1 := queueCustody_keeps P (fun s y0 y1 => h s s.out s.mbxs s.ops s.evt s.bkp y0 s.dir y1 s.mem s.jnv s.jnl s.prov s.roots s.ledger s.camps s.slate s.life)
  have k2 := setFrame_keeps P (fun s y0 => h s s.out s.mbxs s.ops s.evt s.bkp s.sectors y0 s.eps s.mem s.jnv s.jnl s.prov s.roots s.ledger s.camps s.slate s.life)
  have k3 := tallyInc_keeps P (fun s y0 y1 y2 y3 y4 y5 y6 => h s y0 s.mbxs s.ops y1 y2 s.sectors s.dir y3 y4 s.jnv s.jnl s.prov s.roots y5 s.camps y6 s.life)
  have k4 := updEp_keeps P (fun s y0 y1 => h s s.out s.mbxs s.ops s.evt s.bkp s.sectors s.dir y0 y1 s.jnv s.jnl s.prov s.roots s.ledger s.camps s.slate s.life)
  intro a0 a1 s
  unfold dedupStep
  try dsimp only
  repeat' first
    | with_reducible rfl
    | simp only [↓h, ↓k0, ↓k1, ↓k2, ↓k3, ↓k4, ↓apply_ite P, ite_self]
    | split
    | refine (foldl_keeps P _ ?_ _ _).trans ?_
    | intro _ _

theorem discardFrame_keeps {β : Type} (P : State → β) (h : ∀ (s : State) x0 x1 x2 x3 x4 x5 x6 x7 x8 x9 x10 x11 x12 x13 x14 x15 x16, P { s with out := x0, mbxs := x1, ops := x2, evt := x3, bkp := x4, plcMac := x5, dir := x6, eps := x7, mem := x8, jnv := x9, jnl := x10, prov := x11, roots := x12, ledger := x13, camps := x14, slate := x15, life := x16 } = P s) :
    ∀ a0 s, P (discardFrame a0 s) = P s := by
  have k0 := frameDone_keeps P (fun s y0 y1 y2 y3 y4 y5 y6 y7 y8 y9 y10 y11 y12 y13 y14 y15 => h s y0 y1 y2 y3 y4 s.plcMac y5 y6 y7 y8 y9 y10 y11 y12 y13 y14 y15)
  have k1 := notTheAnswer_keeps P (fun s y0 => h s s.out s.mbxs s.ops s.evt s.bkp y0 s.dir s.eps s.mem s.jnv s.jnl s.prov s.roots s.ledger s.camps s.slate s.life)
  intro a0 s
  unfold discardFrame
  try dsimp only
  repeat' first
    | with_reducible rfl
    | simp only [↓h, ↓k0, ↓k1, ↓apply_ite P, ite_self]
    | split
    | refine (foldl_keeps P _ ?_ _ _).trans ?_
    | intro _ _

theorem runFrame_keeps {β : Type} (P : State → β) (h : ∀ (s : State) x0 x1 x2 x3 x4 x5 x6 x7 x8 x9 x10 x11 x12 x13 x14 x15 x16 x17 x18 x19 x20 x21, P { s with freeCtr := x0, out := x1, mbxs := x2, ops := x3, evt := x4, bkp := x5, sectors := x6, plc := x7, plcMac := x8, dir := x9, eps := x10, mem := x11, jnv := x12, jnl := x13, prov := x14, roots := x15, ledger := x16, camps := x17, slots := x18, keys := x19, slate := x20, life := x21 } = P s) :
    ∀ a0 s, P (runFrame a0 s) = P s := by
  have k0 := answered_keeps P (fun s y0 y1 y2 y3 y4 y5 y6 y7 y8 y9 y10 => h s y0 y1 y2 y3 y4 y5 s.sectors y6 y7 s.dir y8 y9 s.jnv s.jnl s.prov s.roots s.ledger s.camps s.slots s.keys y10 s.life)
  have k1 := dedupStep_keeps P (fun s y0 y1 y2 y3 y4 y5 y6 y7 y8 y9 y10 y11 y12 y13 y14 y15 y16 => h s s.freeCtr y0 y1 y2 y3 y4 y5 s.plc s.plcMac y6 y7 y8 y9 y10 y11 y12 y13 y14 s.slots s.keys y15 y16)
  have k2 := discardFrame_keeps P (fun s y0 y1 y2 y3 y4 y5 y6 y7 y8 y9 y10 y11 y12 y13 y14 y15 y16 => h s s.freeCtr y0 y1 y2 y3 y4 s.sectors s.plc y5 y6 y7 y8 y9 y10 y11 y12 y13 y14 s.slots s.keys y15 y16)
  have k3 := epKey_keeps P (fun s y0 y1 y2 y3 y4 y5 y6 y7 => h s s.freeCtr y0 s.mbxs s.ops y1 y2 s.sectors s.plc s.plcMac s.dir y3 s.mem s.jnv s.jnl s.prov s.roots s.ledger s.camps y4 y5 y6 y7)
  have k4 := frameDone_keeps P (fun s y0 y1 y2 y3 y4 y5 y6 y7 y8 y9 y10 y11 y12 y13 y14 y15 => h s s.freeCtr y0 y1 y2 y3 y4 s.sectors s.plc s.plcMac y5 y6 y7 y8 y9 y10 y11 y12 y13 s.slots s.keys y14 y15)
  have k5 := heard_keeps P (fun s y0 y1 y2 y3 y4 y5 y6 y7 y8 y9 y10 y11 => h s y0 y1 y2 y3 y4 y5 y6 y7 y8 s.dir y9 y10 s.jnv s.jnl s.prov s.roots s.ledger s.camps s.slots s.keys y11 s.life)
  have k6 := noteUnknown_keeps P (fun s y0 => h s s.freeCtr s.out s.mbxs s.ops s.evt s.bkp s.sectors s.plc s.plcMac y0 s.eps s.mem s.jnv s.jnl s.prov s.roots s.ledger s.camps s.slots s.keys s.slate s.life)
  have k7 := tallyInc_keeps P (fun s y0 y1 y2 y3 y4 y5 y6 => h s s.freeCtr y0 s.mbxs s.ops y1 y2 s.sectors s.plc s.plcMac s.dir y3 y4 s.jnv s.jnl s.prov s.roots y5 s.camps s.slots s.keys y6 s.life)
  have q3 := fun b0 b1 t u (e : epKey b0 b1 = (t, u)) => (congrArg (fun z => P z.1) e).symm.trans (k3 b0 b1)
  intro a0 s
  unfold runFrame
  try dsimp only
  repeat' first
    | with_reducible rfl
    | simp only [↓h, ↓k0, ↓k1, ↓k2, ↓k3, ↓k4, ↓k5, ↓k6, ↓k7, ↓apply_ite P, ite_self]
    | split
    | refine (q3 _ _ _ _ (by assumption)).trans ?_
    | refine (foldl_keeps P _ ?_ _ _).trans ?_
    | intro _ _

theorem serialRelease_keeps {β : Type} (P : State → β) (h : ∀ (s : State) x0 x1 x2 x3 x4 x5 x6 x7 x8 x9 x10 x11 x12 x13 x14 x15 x16 x17 x18 x19 x20 x21, P { s with freeCtr := x0, out := x1, mbxs := x2, ops := x3, evt := x4, bkp := x5, sectors := x6, plc := x7, plcMac := x8, dir := x9, eps := x10, mem := x11, jnv := x12, jnl := x13, prov := x14, roots := x15, ledger := x16, camps := x17, slots := x18, keys := x19, slate := x20, life := x21 } = P s) :
    ∀ a0 s, P (serialRelease a0 s) = P s := by
  have k0 := dropFrame9_keeps P (fun s y0 y1 y2 y3 y4 y5 y6 y7 y8 y9 y10 y11 y12 y13 y14 y15 y16 => h s s.freeCtr y0 y1 y2 y3 y4 s.sectors s.plc y5 y6 y7 y8 y9 y10 y11 y12 y13 y14 s.slots s.keys y15 y16)
  have k1 := runFrame_keeps P (fun s y0 y1 y2 y3 y4 y5 y6 y7 y8 y9 y10 y11 y12 y13 y14 y15 y16 y17 y18 y19 y20 y21 => h s y0 y1 y2 y3 y4 y5 y6 y7 y8 y9 y10 y11 y12 y13 y14 y15 y16 y17 y18 y19 y20 y21)
  have k2 := touch_keeps P (fun s y0 => h s s.freeCtr s.out s.mbxs s.ops s.evt s.bkp s.sectors s.plc s.plcMac s.dir s.eps y0 s.jnv s.jnl s.prov s.roots s.ledger s.camps s.slots s.keys s.slate s.life)
  have k3 := valuesAt_keeps P
  have kv := fun v p => runFrame_keeps (fun u => P { u with cfg.vals := v, cfg.profiles := p }) (fun s y0 y1 y2 y3 y4 y5 y6 y7 y8 y9 y10 y11 y12 y13 y14 y15 y16 y17 y18 y19 y20 y21 => h { s with cfg.vals := v, cfg.profiles := p } y0 y1 y2 y3 y4 y5 y6 y7 y8 y9 y10 y11 y12 y13 y14 y15 y16 y17 y18 y19 y20 y21)
  intro a0 s
  unfold serialRelease
  try dsimp only
  repeat' first
    | with_reducible rfl
    | simp only [↓h, ↓k0, ↓k1, ↓k2, ↓apply_ite P, ite_self]
    | split
    | exact fun v p s => kv v p _ s
    | refine (k3 _ _ ?_ ?_ _).trans ?_
    | intro _
    | refine (foldl_keeps P _ ?_ _ _).trans ?_
    | intro _ _

theorem insertEp_keeps {β : Type} (P : State → β) (h : ∀ (s : State) x0, P { s with dir := x0 } = P s) :
    ∀ n a p st s s', insertEp n a p st s = some s' → P s' = P s := by
  intro n a p st s s' e
  unfold insertEp at e
  split at e
  · exact (Option.some.inj e) ▸ h _ _
  · rw [Option.map_eq_some_iff] at e
    obtain ⟨i, -, hx⟩ := e
    exact hx ▸ h _ _

theorem placeAll_keeps {β : Type} (P : State → β) (h : ∀ (s : State) x0 x1 x2 x3 x4, P { s with out := x0, evt := x1, dir := x2, eps := x3, maint := x4 } = P s) :
    ∀ xs i s, P (placeAll xs i s).1 = P s := by
  have k0 := noteStash_keeps P (fun s y0 y1 y2 y3 => h s y0 y1 y2 s.eps y3)
  have ki := insertEp_keeps P (fun s y0 => h s s.out s.evt y0 s.eps s.maint)
  have he : ∀ (s : State) y, P { s with eps := y } = P s := fun s y => h s s.out s.evt s.dir y s.maint
  intro xs
  induction xs with
  | nil => intro i s; rfl
  | cons x rest ih =>
    intro i s
    rw [placeAll]
    dsimp only
    split
    · exact he _ _
    · next hx => exact (ih _ _).trans ((k0 _ _).trans ((ki _ _ _ _ _ _ hx).trans (he _ _)))

theorem unplaceAll_keeps {β : Type} (P : State → β) (h : ∀ (s : State) x0 x1, P { s with dir := x0, eps := x1 } = P s) :
    ∀ a0 s, P (unplaceAll a0 s) = P s := by
  have k0 := removeSlot_keeps P (fun s y0 => h s y0 s.eps)
  intro a0 s
  unfold unplaceAll
  try dsimp only
  repeat' first
    | with_reducible rfl
    | simp only [↓h, ↓k0, ↓apply_ite P, ite_self]
    | split
    | refine (foldl_keeps P _ ?_ _ _).trans ?_
    | intro _ _

theorem enrolHistory_keeps {β : Type} (P : State → β) (h : ∀ (s : State) x0 x1 x2 x3 x4 x5 x6 x7 x8 x9 x10 x11 x12, P { s with out := x0, evt := x1, bkp := x2, dir := x3, eps := x4, mem := x5, jnv := x6, jnl := x7, prov := x8, roots := x9, ledger := x10, slate := x11, life := x12 } = P s) :
    ∀ a0 s, P (enrolHistory a0 s) = P s := by
  have k0 := commitOne_keeps P (fun s y0 y1 y2 y3 y4 y5 y6 => h s y0 y1 s.bkp s.dir s.eps s.mem y2 y3 y4 y5 s.ledger s.slate y6)
  have k1 := restoreSlot_keeps P (fun s y0 y1 y2 y3 y4 y5 y6 y7 y8 y9 y10 y11 y12 => h s y0 y1 y2 y3 y4 y5 y6 y7 y8 y9 y10 y11 y12)
  intro a0 s
  unfold enrolHistory
  try dsimp only
  repeat' first
    | with_reducible rfl
    | simp only [↓h, ↓k0, ↓k1, ↓apply_ite P, ite_self]
    | split
    | refine (foldl_keeps P _ ?_ _ _).trans ?_
    | intro _ _

theorem enrolSwitch_keeps {β : Type} (P : State → β) (h : ∀ (s : State) x0 x1 x2 x3 x4 x5 x6 x7 x8 x9 x10 x11 x12 x13, P { s with out := x0, evt := x1, bkp := x2, dir := x3, eps := x4, mem := x5, jnv := x6, jnl := x7, prov := x8, roots := x9, ledger := x10, bal := x11, slate := x12, life := x13 } = P s) :
    ∀ s a1, P (enrolSwitch s a1) = P s := by
  have k0 := dirtyPage_keeps P (fun s y0 => h s s.out s.evt s.bkp s.dir s.eps s.mem s.jnv s.jnl s.prov s.roots y0 s.bal s.slate s.life)
  have k1 := enrolHistory_keeps P (fun s y0 y1 y2 y3 y4 y5 y6 y7 y8 y9 y10 y11 y12 => h s y0 y1 y2 y3 y4 y5 y6 y7 y8 y9 y10 s.bal y11 y12)
  have k2 := rebuildEp_keeps P (fun s y0 => h s s.out s.evt s.bkp s.dir s.eps s.mem s.jnv s.jnl s.prov s.roots s.ledger y0 s.slate s.life)
  have k3 := setAdm_keeps P (fun s y0 y1 y2 => h s s.out s.evt s.bkp y0 y1 y2 s.jnv s.jnl s.prov s.roots s.ledger s.bal s.slate s.life)
  intro s a1
  unfold enrolSwitch
  try dsimp only
  repeat' first
    | with_reducible rfl
    | simp only [↓h, ↓k0, ↓k1, ↓k2, ↓k3, ↓apply_ite P, ite_self]
    | split
    | refine (foldl_keeps P _ ?_ _ _).trans ?_
    | intro _ _

theorem enrol_keeps {β : Type} (P : State → β) (h : ∀ (s : State) x0 x1 x2 x3 x4 x5 x6 x7 x8 x9 x10 x11 x12 x13 x14, P { s with out := x0, evt := x1, bkp := x2, dir := x3, eps := x4, mem := x5, jnv := x6, jnl := x7, prov := x8, roots := x9, ledger := x10, bal := x11, slate := x12, life := x13, maint := x14 } = P s) :
    ∀ a0 s, P (enrol a0 s).st = P s := by
  have k0 := enrolSwitch_keeps P (fun s y0 y1 y2 y3 y4 y5 y6 y7 y8 y9 y10 y11 y12 y13 => h s y0 y1 y2 y3 y4 y5 y6 y7 y8 y9 y10 y11 y12 y13 s.maint)
  have k1 := placeAll_keeps P (fun s y0 y1 y2 y3 y4 => h s y0 y1 s.bkp y2 y3 s.mem s.jnv s.jnl s.prov s.roots s.ledger s.bal s.slate s.life y4)
  have k2 := refuse_keeps P
  have k3 := unplaceAll_keeps P (fun s y0 y1 => h s s.out s.evt s.bkp y0 y1 s.mem s.jnv s.jnl s.prov s.roots s.ledger s.bal s.slate s.life s.maint)
  have q1 := fun b0 b1 b2 t u (e : placeAll b0 b1 b2 = (t, u)) => (congrArg (fun z => P z.1) e).symm.trans (k1 b0 b1 b2)
  intro a0 s
  unfold enrol
  try dsimp only
  repeat' first
    | with_reducible rfl
    | simp only [↓h, ↓k0, ↓k1, ↓k2, ↓k3, ↓apply_ite P, ite_self, Reply.st_done, Reply.st_pend, Reply.st_twice, Reply.st_wait, replyOk_st, refuse_st]
    | split
    | refine (q1 _ _ _ _ _ (by assumption)).trans ?_
    | refine (foldl_keeps P _ ?_ _ _).trans ?_
    | intro _ _

theorem closeConn_keeps {β : Type} (P : State → β) (h : ∀ (s : State) x0 x1 x2 x3 x4, P { s with out := x0, evt := x1, sectors := x2, eps := x3, mem := x4 } = P s) :
    ∀ a0 s, P (closeConn a0 s) = P s := by
  have k0 := endConnection_keeps P (fun s y0 y1 y2 y3 y4 => h s y0 y1 y2 y3 y4)
  have k1 := updEp_keeps P (fun s y0 y1 => h s s.out s.evt s.sectors y0 y1)
  intro a0 s
  unfold closeConn
  try dsimp only
  repeat' first
    | with_reducible rfl
    | simp only [↓h, ↓k0, ↓k1, ↓apply_ite P, ite_self]
    | split
    | refine (foldl_keeps P _ ?_ _ _).trans ?_
    | intro _ _

theorem retire_keeps {β : Type} (P : State → β) (h : ∀ (s : State) x0 x1 x2 x3 x4 x5 x6 x7 x8 x9 x10 x11 x12 x13 x14 x15 x16, P { s with out := x0, mbxs := x1, ops := x2, evt := x3, bkp := x4, sectors := x5, plcMac := x6, dir := x7, eps := x8, mem := x9, jnv := x10, jnl := x11, prov := x12, roots := x13, ledger := x14, slate := x15, life := x16 } = P s) :
    ∀ a0 s, P (retire a0 s) = P s := by
  have k0 := closeConn_keeps P (fun s y0 y1 y2 y3 y4 => h s y0 s.mbxs s.ops y1 s.bkp y2 s.plcMac s.dir y3 y4 s.jnv s.jnl s.prov s.roots s.ledger s.slate s.life)
  have k1 := dropTxns_keeps P (fun s y0 y1 y2 y3 y4 y5 y6 => h s y0 y1 y2 y3 y4 s.sectors y5 s.dir s.eps s.mem s.jnv s.jnl s.prov s.roots s.ledger y6 s.life)
  have k2 := noteEp_keeps P (fun s y0 => h s s.out s.mbxs s.ops s.evt s.bkp s.sectors s.plcMac s.dir y0 s.mem s.jnv s.jnl s.prov s.roots s.ledger s.slate s.life)
  have k3 := setAdm_keeps P (fun s y0 y1 y2 => h s s.out s.mbxs s.ops s.evt s.bkp s.sectors s.plcMac y0 y1 y2 s.jnv s.jnl s.prov s.roots s.ledger s.slate s.life)
  have k4 := withdrawClose_keeps P (fun s y0 y1 y2 y3 y4 y5 y6 y7 y8 y9 => h s y0 s.mbxs s.ops y1 s.bkp s.sectors s.plcMac s.dir y2 y3 y4 y5 y6 y7 y8 s.slate y9)
  intro a0 s
  unfold retire
  try dsimp only
  repeat' first
    | with_reducible rfl
    | simp only [↓h, ↓k0, ↓k1, ↓k2, ↓k3, ↓k4, ↓apply_ite P, ite_self]
    | split
    | refine (foldl_keeps P _ ?_ _ _).trans ?_
    | intro _ _

theorem withdraw_keeps {β : Type} (P : State → β) (h : ∀ (s : State) x0 x1 x2 x3 x4 x5 x6 x7 x8 x9 x10 x11 x12 x13 x14 x15 x16, P { s with out := x0, mbxs := x1, ops := x2, evt := x3, bkp := x4, sectors := x5, plcMac := x6, dir := x7, eps := x8, mem := x9, jnv := x10, jnl := x11, prov := x12, roots := x13, ledger := x14, slate := x15, life := x16 } = P s) :
    ∀ a0 s, P (withdraw a0 s).st = P s := by
  have k0 := refuse_keeps P
  have k1 := retire_keeps P (fun s y0 y1 y2 y3 y4 y5 y6 y7 y8 y9 y10 y11 y12 y13 y14 y15 y16 => h s y0 y1 y2 y3 y4 y5 y6 y7 y8 y9 y10 y11 y12 y13 y14 y15 y16)
  intro a0 s
  unfold withdraw
  try dsimp only
  repeat' first
    | with_reducible rfl
    | simp only [↓h, ↓k0, ↓k1, ↓apply_ite P, ite_self, Reply.st_done, Reply.st_pend, Reply.st_twice, Reply.st_wait, replyOk_st, refuse_st]
    | split
    | refine (foldl_keeps P _ ?_ _ _).trans ?_
    | intro _ _

theorem admitStateSet_keeps {β : Type} (P : State → β) (h : ∀ (s : State) x0 x1 x2, P { s with dir := x0, eps := x1, mem := x2 } = P s) :
    ∀ a0 s, P (admitStateSet a0 s).st = P s := by
  have k0 := refuse_keeps P
  have k1 := replyOk_keeps P
  have k2 := setAdm_keeps P (fun s y0 y1 y2 => h s y0 y1 y2)
  intro a0 s
  unfold admitStateSet
  try dsimp only
  repeat' first
    | with_reducible rfl
    | simp only [↓h, ↓k0, ↓k1, ↓k2, ↓apply_ite P, ite_self, Reply.st_done, Reply.st_pend, Reply.st_twice, Reply.st_wait, replyOk_st, refuse_st]
    | split
    | refine (foldl_keeps P _ ?_ _ _).trans ?_
    | intro _ _

theorem takeProfile_keeps {β : Type} (P : State → β) (h : ∀ (s : State) x0 x1 x2, P { s with eps := x0, mem := x1, ledger := x2 } = P s) :
    ∀ a0 a1 s, P (takeProfile a0 a1 s) = P s := by
  have k0 := updEp_keeps P (fun s y0 y1 => h s y0 y1 s.ledger)
  have k1 := updImg_keeps P (fun s y0 y1 y2 => h s y0 y1 y2)
  intro a0 a1 s
  unfold takeProfile
  try dsimp only
  repeat' first
    | with_reducible rfl
    | simp only [↓h, ↓k0, ↓k1, ↓apply_ite P, ite_self]
    | split
    | refine (foldl_keeps P _ ?_ _ _).trans ?_
    | intro _ _

theorem endpointUpdate_keeps {β : Type} (P : State → β) (h : ∀ (s : State) x0 x1 x2, P { s with eps := x0, mem := x1, ledger := x2 } = P s) :
    ∀ a0 s, P (endpointUpdate a0 s).st = P s := by
  have k0 := refuse_keeps P
  have k1 := replyOk_keeps P
  have k2 := takeProfile_keeps P (fun s y0 y1 y2 => h s y0 y1 y2)
  have k3 := updEp_keeps P (fun s y0 y1 => h s y0 y1 s.ledger)
  intro a0 s
  unfold endpointUpdate
  try dsimp only
  repeat' first
    | with_reducible rfl
    | simp only [↓h, ↓k0, ↓k1, ↓k2, ↓k3, ↓apply_ite P, ite_self, Reply.st_done, Reply.st_pend, Reply.st_twice, Reply.st_wait, replyOk_st, refuse_st]
    | split
    | refine (foldl_keeps P _ ?_ _ _).trans ?_
    | intro _ _

theorem endpointGet_keeps {β : Type} (P : State → β) (h : ∀ (s : State) x0, P { s with mem := x0 } = P s) :
    ∀ a0 s, P (endpointGet a0 s).st = P s := by
  have k0 := refuse_keeps P
  have k1 := replyOk_keeps P
  have k2 := touch_keeps P (fun s y0 => h s y0)
  intro a0 s
  unfold endpointGet
  try dsimp only
  repeat' first
    | with_reducible rfl
    | simp only [↓h, ↓k0, ↓k1, ↓k2, ↓apply_ite P, ite_self, Reply.st_done, Reply.st_pend, Reply.st_twice, Reply.st_wait, replyOk_st, refuse_st]
    | split
    | refine (foldl_keeps P _ ?_ _ _).trans ?_
    | intro _ _

theorem addrLookup_keeps {β : Type} (P : State → β) (h : ∀ (s : State) x0, P { s with dir := x0 } = P s) :
    ∀ a0 s, P (addrLookup a0 s).st = P s := by
  have k0 := countLookup_keeps P (fun s y0 => h s y0)
  have k1 := replyOk_keeps P
  intro a0 s
  unfold addrLookup
  try dsimp only
  repeat' first
    | with_reducible rfl
    | simp only [↓h, ↓k0, ↓k1, ↓apply_ite P, ite_self, Reply.st_done, Reply.st_pend, Reply.st_twice, Reply.st_wait, replyOk_st, refuse_st]
    | split
    | refine (foldl_keeps P _ ?_ _ _).trans ?_
    | intro _ _

theorem tallyGetOp_keeps {β : Type} (P : State → β) (h : ∀ (s : State) x0, P { s with mem := x0 } = P s) :
    ∀ a0 s, P (tallyGetOp a0 s).st = P s := by
  have k0 := refuse_keeps P
  have k1 := replyOk_keeps P
  have k2 := touch_keeps P (fun s y0 => h s y0)
  intro a0 s
  unfold tallyGetOp
  try dsimp only
  repeat' first
    | with_reducible rfl
    | simp only [↓h, ↓k0, ↓k1, ↓k2, ↓apply_ite P, ite_self, Reply.st_done, Reply.st_pend, Reply.st_twice, Reply.st_wait, replyOk_st, refuse_st]
    | split
    | refine (foldl_keeps P _ ?_ _ _).trans ?_
    | intro _ _

theorem tallyClear_keeps {β : Type} (P : State → β) (h : ∀ (s : State) x0 x1 x2 x3 x4 x5 x6, P { s with out := x0, evt := x1, bkp := x2, eps := x3, mem := x4, ledger := x5, slate := x6 } = P s) :
    ∀ a0 s, P (tallyClear a0 s).st = P s := by
  have k0 := record_keeps P (fun s y0 y1 y2 y3 => h s y0 y1 y2 s.eps s.mem s.ledger y3)
  have k1 := refuse_keeps P
  have k2 := replyOk_keeps P
  have k3 := updImg_keeps P (fun s y0 y1 y2 => h s s.out s.evt s.bkp y0 y1 y2 s.slate)
  intro a0 s
  unfold tallyClear
  try dsimp only
  repeat' first
    | with_reducible rfl
    | simp only [↓h, ↓k0, ↓k1, ↓k2, ↓k3, ↓apply_ite P, ite_self, Reply.st_done, Reply.st_pend, Reply.st_twice, Reply.st_wait, replyOk_st, refuse_st]
    | split
    | refine (foldl_keeps P _ ?_ _ _).trans ?_
    | intro _ _

theorem dirRehash_keeps {β : Type} (P : State → β) (h : ∀ (s : State) x0 x1, P { s with dir := x0, maint := x1 } = P s) :
    ∀ s, P (dirRehash s).st = P s := by
  have k0 := queueRehash_keeps P (fun s y0 y1 => h s y0 y1)
  have k1 := refuse_keeps P
  intro s
  unfold dirRehash
  try dsimp only
  repeat' first
    | with_reducible rfl
    | simp only [↓h, ↓k0, ↓k1, ↓apply_ite P, ite_self, Reply.st_done, Reply.st_pend, Reply.st_twice, Reply.st_wait, replyOk_st, refuse_st]
    | split
    | refine (foldl_keeps P _ ?_ _ _).trans ?_
    | intro _ _

theorem unknownGet_keeps {β : Type} (P : State → β) :
    ∀ a0 s, P (unknownGet a0 s).st = P s := by
  have k0 := refuse_keeps P
  have k1 := replyOk_keeps P
  intro a0 s
  unfold unknownGet
  try dsimp only
  repeat' first
    | with_reducible rfl
    | simp only [↓k0, ↓k1, ↓apply_ite P, ite_self, Reply.st_done, Reply.st_pend, Reply.st_twice, Reply.st_wait, replyOk_st, refuse_st]
    | split
    | refine (foldl_keeps P _ ?_ _ _).trans ?_
    | intro _ _

end Sys2Proof.Machine
end

