-- ==== Sys2Proof/Laws/KeepPipeline.lean ====
section
/-! SUPPORT. What the functions of Machine/Pipeline.lean leave unchanged. -/

set_option linter.unusedSimpArgs false
set_option linter.unreachableTactic false
set_option linter.unusedTactic false

namespace Sys2Proof.Machine

theorem bookOrDefer_keeps {β : Type} (P : State → β) (h : ∀ (s : State) x0 x1 x2 x3, P { s with eps := x0, mem := x1, prov := x2, ledger := x3 } = P s) :
    ∀ a0 a1 s, P (bookOrDefer a0 a1 s).1 = P s := by
  have k0 := book_keeps P (fun s y0 y1 y2 y3 => h s y0 y1 y2 y3)
  have q0 := fun b0 b1 b2 t u (e : book b0 b1 b2 = (t, u)) => (congrArg (fun z => P z.1) e).symm.trans (k0 b0 b1 b2)
  intro a0 a1 s
  unfold bookOrDefer
  try dsimp only
  repeat' first
    | with_reducible rfl
    | simp only [↓h, ↓k0, ↓apply_ite P, ite_self]
    | split
    | refine (q0 _ _ _ _ _ (by assumption)).trans ?_
    | refine (foldl_keeps P _ ?_ _ _).trans ?_
    | intro _ _

theorem noteHeld_keeps {β : Type} (P : State → β) (h : ∀ (s : State) x0 x1 x2, P { s with out := x0, evt := x1, prov := x2 } = P s) :
    ∀ a0 s, P (noteHeld a0 s) = P s := by
  have k0 := raiseIf_keeps P (fun s y0 y1 => h s y0 y1 s.prov)
  intro a0 s
  unfold noteHeld
  try dsimp only
  repeat' first
    | with_reducible rfl
    | simp only [↓h, ↓k0, ↓apply_ite P, ite_self]
    | split
    | refine (foldl_keeps P _ ?_ _ _).trans ?_
    | intro _ _

theorem takeSlot_keeps {β : Type} (P : State → β) (h : ∀ (s : State) x0 x1 x2, P { s with eps := x0, mem := x1, ledger := x2 } = P s) :
    ∀ a0 a1 a2 a3 a4 s, P (takeSlot a0 a1 a2 a3 a4 s) = P s := by
  have k0 := updImg_keeps P (fun s y0 y1 y2 => h s y0 y1 y2)
  intro a0 a1 a2 a3 a4 s
  unfold takeSlot
  try dsimp only
  repeat' first
    | with_reducible rfl
    | simp only [↓h, ↓k0, ↓apply_ite P, ite_self]
    | split
    | refine (foldl_keeps P _ ?_ _ _).trans ?_
    | intro _ _

theorem commitCum_keeps {β : Type} (P : State → β) (h : ∀ (s : State) x0 x1 x2 x3 x4, P { s with eps := x0, mem := x1, prov := x2, ledger := x3, bal := x4 } = P s) :
    ∀ a0 a1 a2 a3 a4 a5 s, P (commitCum a0 a1 a2 a3 a4 a5 s).1 = P s := by
  have k0 := balReading_keeps P (fun s y0 => h s s.eps s.mem s.prov s.ledger y0)
  have k1 := bookOrDefer_keeps P (fun s y0 y1 y2 y3 => h s y0 y1 y2 y3 s.bal)
  have k2 := takeSlot_keeps P (fun s y0 y1 y2 => h s y0 y1 s.prov y2 s.bal)
  have q1 := fun b0 b1 b2 t u (e : bookOrDefer b0 b1 b2 = (t, u)) => (congrArg (fun z => P z.1) e).symm.trans (k1 b0 b1 b2)
  intro a0 a1 a2 a3 a4 a5 s
  unfold commitCum
  try dsimp only
  repeat' first
    | with_reducible rfl
    | simp only [↓h, ↓k0, ↓k1, ↓k2, ↓apply_ite P, ite_self]
    | split
    | refine (q1 _ _ _ _ _ (by assumption)).trans ?_
    | refine (foldl_keeps P _ ?_ _ _).trans ?_
    | intro _ _

theorem noteMalformed_keeps {β : Type} (P : State → β) (h : ∀ (s : State) x0 x1 x2, P { s with out := x0, evt := x1, prov := x2 } = P s) :
    ∀ s, P (noteMalformed s) = P s := by
  have k0 := raiseIf_keeps P (fun s y0 y1 => h s y0 y1 s.prov)
  intro s
  unfold noteMalformed
  try dsimp only
  repeat' first
    | with_reducible rfl
    | simp only [↓h, ↓k0, ↓apply_ite P, ite_self]
    | split
    | refine (foldl_keeps P _ ?_ _ _).trans ?_
    | intro _ _

theorem commitRecord_keeps {β : Type} (P : State → β) (h : ∀ (s : State) x0 x1 x2 x3 x4 x5 x6 x7 x8, P { s with out := x0, evt := x1, bkp := x2, eps := x3, mem := x4, prov := x5, ledger := x6, bal := x7, slate := x8 } = P s) :
    ∀ n f e acc x, P (commitRecord n f e acc x).st = P acc.st := by
  have k0 := place__keeps P (fun s y0 => h s s.out s.evt s.bkp s.eps s.mem s.prov s.ledger y0 s.slate)
  have k1 := tallyInc_keeps P (fun s y0 y1 y2 y3 y4 y5 y6 => h s y0 y1 y2 y3 y4 s.prov y5 s.bal y6)
  have k2 := commitCum_keeps P (fun s y0 y1 y2 y3 y4 => h s s.out s.evt s.bkp y0 y1 y2 y3 y4 s.slate)
  have k3 := noteHeld_keeps P (fun s y0 y1 y2 => h s y0 y1 s.bkp s.eps s.mem y2 s.ledger s.bal s.slate)
  have hp : ∀ (s : State) y, P { s with prov := y } = P s := fun s y => h s s.out s.evt s.bkp s.eps s.mem y s.ledger s.bal s.slate
  intro n f e acc x
  unfold commitRecord
  cases x with
  | tamper code age =>
    dsimp only
    refine Eq.trans (k0 _ _ _ _ _) ?_
    exact k1 _ _ _
  | register qty scaler age value =>
    dsimp only
    refine Eq.trans (hp _ _) ?_
    refine Eq.trans (k3 _ _) ?_
    refine Eq.trans (k0 _ _ _ _ _) ?_
    split
    · exact k2 _ _ _ _ _ _ _
    · rfl

theorem commitPayload_keeps {β : Type} (P : State → β) (h : ∀ (s : State) x0 x1 x2 x3 x4 x5 x6 x7 x8, P { s with out := x0, evt := x1, bkp := x2, eps := x3, mem := x4, prov := x5, ledger := x6, bal := x7, slate := x8 } = P s) :
    ∀ f e s, P (commitPayload f e s).st = P s := by
  have k0 := noteMalformed_keeps P (fun s y0 y1 y2 => h s y0 y1 s.bkp s.eps s.mem y2 s.ledger s.bal s.slate)
  have k1 := place__keeps P (fun s y0 => h s s.out s.evt s.bkp s.eps s.mem s.prov s.ledger y0 s.slate)
  have k2 := commitRecord_keeps P (fun s y0 y1 y2 y3 y4 y5 y6 y7 y8 => h s y0 y1 y2 y3 y4 y5 y6 y7 y8)
  have kf : ∀ n f e (l : List RecIn) (acc : GroupAcc), P (l.foldl (commitRecord n f e) acc).st = P acc.st := by
    intro n f e l
    induction l with
    | nil => intro acc; rfl
    | cons x xs ih => intro acc; exact (ih _).trans (k2 n f e acc x)
  intro f e s
  unfold commitPayload
  dsimp only
  split
  · rfl
  · split
    · dsimp only
      refine Eq.trans (k1 _ _ _ _ _) ?_
      exact k0 _
    · exact kf _ _ _ _ _

theorem backlogCheck_keeps {β : Type} (P : State → β) (h : ∀ (s : State) x0 x1 x2, P { s with out := x0, evt := x1, prov := x2 } = P s) :
    ∀ s, P (backlogCheck s) = P s := by
  have k0 := raise_keeps P (fun s y0 y1 => h s y0 y1 s.prov)
  intro s
  unfold backlogCheck
  try dsimp only
  repeat' first
    | with_reducible rfl
    | simp only [↓h, ↓k0, ↓apply_ite P, ite_self]
    | split
    | refine (foldl_keeps P _ ?_ _ _).trans ?_
    | intro _ _

theorem joinOpen_keeps {β : Type} (P : State → β) (h : ∀ (s : State) x0, P { s with prov := x0 } = P s) :
    ∀ a0 a1 s, P (joinOpen a0 a1 s) = P s := by
  have k0 := closeOpen_keeps P (fun s y0 => h s y0)
  intro a0 a1 s
  unfold joinOpen
  try dsimp only
  repeat' first
    | with_reducible rfl
    | simp only [↓h, ↓k0, ↓apply_ite P, ite_self]
    | split
    | refine (foldl_keeps P _ ?_ _ _).trans ?_
    | intro _ _

theorem joinOvf_keeps {β : Type} (P : State → β) (h : ∀ (s : State) x0, P { s with prov := x0 } = P s) :
    ∀ a0 a1 s, P (joinOvf a0 a1 s) = P s := by
  have k0 := closeOpenOvf_keeps P (fun s y0 => h s y0)
  intro a0 a1 s
  unfold joinOvf
  try dsimp only
  repeat' first
    | with_reducible rfl
    | simp only [↓h, ↓k0, ↓apply_ite P, ite_self]
    | split
    | refine (foldl_keeps P _ ?_ _ _).trans ?_
    | intro _ _

theorem joinAlone_keeps {β : Type} (P : State → β) (h : ∀ (s : State) x0, P { s with prov := x0 } = P s) :
    ∀ a0 a1 s, P (joinAlone a0 a1 s) = P s := by
  have k0 := closeOpenOvf_keeps P (fun s y0 => h s y0)
  intro a0 a1 s
  unfold joinAlone
  try dsimp only
  repeat' first
    | with_reducible rfl
    | simp only [↓h, ↓k0, ↓apply_ite P, ite_self]
    | split
    | refine (foldl_keeps P _ ?_ _ _).trans ?_
    | intro _ _

theorem joinAt_keeps {β : Type} (P : State → β) (h : ∀ (s : State) x0 x1 x2, P { s with out := x0, evt := x1, prov := x2 } = P s) :
    ∀ a0 s a2, P (joinAt a0 s a2) = P s := by
  have k0 := backlogCheck_keeps P (fun s y0 y1 y2 => h s y0 y1 y2)
  have k1 := joinAlone_keeps P (fun s y0 => h s s.out s.evt y0)
  have k2 := joinOpen_keeps P (fun s y0 => h s s.out s.evt y0)
  have k3 := joinOvf_keeps P (fun s y0 => h s s.out s.evt y0)
  intro a0 s a2
  unfold joinAt
  try dsimp only
  repeat' first
    | with_reducible rfl
    | simp only [↓h, ↓k0, ↓k1, ↓k2, ↓k3, ↓apply_ite P, ite_self]
    | split
    | refine (foldl_keeps P _ ?_ _ _).trans ?_
    | intro _ _

theorem joinBundle_keeps {β : Type} (P : State → β) (h : ∀ (s : State) x0 x1 x2, P { s with out := x0, evt := x1, prov := x2 } = P s) :
    ∀ s a1, P (joinBundle s a1) = P s := by
  have k0 := joinAt_keeps P (fun s y0 y1 y2 => h s y0 y1 y2)
  intro s a1
  unfold joinBundle
  try dsimp only
  repeat' first
    | with_reducible rfl
    | simp only [↓h, ↓k0, ↓apply_ite P, ite_self]
    | split
    | refine (foldl_keeps P _ ?_ _ _).trans ?_
    | intro _ _

theorem commitWindow_keeps {β : Type} (P : State → β) (h : ∀ (s : State) x0 x1 x2 x3 x4 x5 x6, P { s with out := x0, evt := x1, bkp := x2, eps := x3, mem := x4, ledger := x5, slate := x6 } = P s) :
    ∀ a0 a1 s, P (commitWindow a0 a1 s) = P s := by
  have k0 := raise_keeps P (fun s y0 y1 => h s y0 y1 s.bkp s.eps s.mem s.ledger s.slate)
  have k1 := tallyInc_keeps P (fun s y0 y1 y2 y3 y4 y5 y6 => h s y0 y1 y2 y3 y4 y5 y6)
  have k2 := updEp_keeps P (fun s y0 y1 => h s s.out s.evt s.bkp y0 y1 s.ledger s.slate)
  have k3 := updImg_keeps P (fun s y0 y1 y2 => h s s.out s.evt s.bkp y0 y1 y2 s.slate)
  intro a0 a1 s
  unfold commitWindow
  try dsimp only
  repeat' first
    | with_reducible rfl
    | simp only [↓h, ↓k0, ↓k1, ↓k2, ↓k3, ↓apply_ite P, ite_self]
    | split
    | refine (foldl_keeps P _ ?_ _ _).trans ?_
    | intro _ _

theorem stampJseq_keeps {β : Type} (P : State → β) (h : ∀ (s : State) x0, P { s with jnv := x0 } = P s) :
    ∀ a0 s, P (stampJseq a0 s) = P s := by
  intro a0 s
  unfold stampJseq
  try dsimp only
  repeat' first
    | with_reducible rfl
    | simp only [↓h, ↓apply_ite P, ite_self]
    | split
    | refine (foldl_keeps P _ ?_ _ _).trans ?_
    | intro _ _

theorem groupDone_keeps {β : Type} (P : State → β) (h : ∀ (s : State) x0 x1 x2 x3 x4 x5 x6 x7 x8 x9 x10 x11 x12 x13 x14 x15 x16 x17, P { s with out := x0, mbxs := x1, ops := x2, evt := x3, bkp := x4, sectors := x5, dir := x6, eps := x7, mem := x8, jnv := x9, jnl := x10, prov := x11, roots := x12, ledger := x13, camps := x14, confUnmatched := x15, slate := x16, life := x17 } = P s) :
    ∀ a0 a1 a2 s, P (groupDone a0 a1 a2 s) = P s := by
  have k0 := commitWindow_keeps P (fun s y0 y1 y2 y3 y4 y5 y6 => h s y0 s.mbxs s.ops y1 y2 s.sectors s.dir y3 y4 s.jnv s.jnl s.prov s.roots y5 s.camps s.confUnmatched y6 s.life)
  have k1 := confApply_keeps P (fun s y0 y1 y2 y3 y4 y5 y6 y7 y8 y9 y10 y11 y12 y13 y14 y15 => h s y0 y1 y2 y3 y4 s.sectors s.dir y5 y6 y7 y8 y9 y10 y11 y12 y13 y14 y15)
  have k2 := fbApply_keeps P (fun s y0 y1 y2 y3 y4 y5 y6 => h s y0 s.mbxs s.ops y1 y2 s.sectors s.dir y3 y4 s.jnv s.jnl s.prov s.roots s.ledger y5 s.confUnmatched y6 s.life)
  have k3 := frameDone_keeps P (fun s y0 y1 y2 y3 y4 y5 y6 y7 y8 y9 y10 y11 y12 y13 y14 y15 => h s y0 y1 y2 y3 y4 s.sectors y5 y6 y7 y8 y9 y10 y11 y12 y13 s.confUnmatched y14 y15)
  have k4 := groupCommitted_keeps P (fun s y0 y1 y2 y3 y4 y5 y6 y7 y8 y9 y10 y11 => h s y0 y1 y2 y3 y4 s.sectors s.dir s.eps s.mem y5 y6 y7 y8 s.ledger y9 s.confUnmatched y10 y11)
  have k5 := joinBundle_keeps P (fun s y0 y1 y2 => h s y0 s.mbxs s.ops y1 s.bkp s.sectors s.dir s.eps s.mem s.jnv s.jnl y2 s.roots s.ledger s.camps s.confUnmatched s.slate s.life)
  have k6 := queueCustody_keeps P (fun s y0 y1 => h s s.out s.mbxs s.ops s.evt s.bkp y0 s.dir y1 s.mem s.jnv s.jnl s.prov s.roots s.ledger s.camps s.confUnmatched s.slate s.life)
  have k7 := settleAll_keeps P (fun s y0 y1 y2 y3 y4 y5 y6 y7 y8 y9 y10 y11 => h s y0 y1 y2 y3 y4 s.sectors s.dir s.eps s.mem y5 y6 y7 y8 s.ledger y9 s.confUnmatched y10 y11)
  have k8 := stampJseq_keeps P (fun s y0 => h s s.out s.mbxs s.ops s.evt s.bkp s.sectors s.dir s.eps s.mem y0 s.jnl s.prov s.roots s.ledger s.camps s.confUnmatched s.slate s.life)
  intro a0 a1 a2 s
  unfold groupDone
  try dsimp only
  repeat' first
    | with_reducible rfl
    | simp only [↓h, ↓k0, ↓k1, ↓k2, ↓k3, ↓k4, ↓k5, ↓k6, ↓k7, ↓k8, ↓apply_ite P, ite_self]
    | split
    | refine (foldl_keeps P _ ?_ _ _).trans ?_
    | intro _ _

theorem waitJournal_keeps {β : Type} (P : State → β) (h : ∀ (s : State) x0, P { s with dir := x0 } = P s) :
    ∀ a0 s, P (waitJournal a0 s) = P s := by
  have k0 := setFrame_keeps P (fun s y0 => h s y0)
  intro a0 s
  unfold waitJournal
  try dsimp only
  repeat' first
    | with_reducible rfl
    | simp only [↓h, ↓k0, ↓apply_ite P, ite_self]
    | split
    | refine (foldl_keeps P _ ?_ _ _).trans ?_
    | intro _ _

theorem commitFrame_keeps {β : Type} (P : State → β) (h : ∀ (s : State) x0 x1 x2 x3 x4 x5 x6 x7 x8 x9 x10 x11 x12 x13 x14 x15 x16 x17 x18, P { s with out := x0, mbxs := x1, ops := x2, evt := x3, bkp := x4, sectors := x5, dir := x6, eps := x7, mem := x8, jnv := x9, jnl := x10, prov := x11, roots := x12, ledger := x13, bal := x14, camps := x15, confUnmatched := x16, slate := x17, life := x18 } = P s) :
    ∀ a0 a1 s, P (commitFrame a0 a1 s) = P s := by
  have k0 := commitPayload_keeps P (fun s y0 y1 y2 y3 y4 y5 y6 y7 y8 => h s y0 s.mbxs s.ops y1 y2 s.sectors s.dir y3 y4 s.jnv s.jnl y5 s.roots y6 y7 s.camps s.confUnmatched y8 s.life)
  have k1 := groupDone_keeps P (fun s y0 y1 y2 y3 y4 y5 y6 y7 y8 y9 y10 y11 y12 y13 y14 y15 y16 y17 => h s y0 y1 y2 y3 y4 y5 y6 y7 y8 y9 y10 y11 y12 y13 s.bal y14 y15 y16 y17)
  have k2 := jnlFail_keeps P (fun s y0 y1 y2 y3 y4 y5 y6 => h s y0 s.mbxs s.ops y1 y2 s.sectors s.dir s.eps s.mem y3 y4 s.prov s.roots s.ledger s.bal s.camps s.confUnmatched y5 y6)
  have k3 := jnlGroup_keeps P (fun s y0 y1 y2 y3 y4 y5 y6 => h s y0 s.mbxs s.ops y1 s.bkp s.sectors s.dir s.eps s.mem y2 y3 y4 y5 s.ledger s.bal s.camps s.confUnmatched s.slate y6)
  have k4 := waitJournal_keeps P (fun s y0 => h s s.out s.mbxs s.ops s.evt s.bkp s.sectors y0 s.eps s.mem s.jnv s.jnl s.prov s.roots s.ledger s.bal s.camps s.confUnmatched s.slate s.life)
  intro a0 a1 s
  unfold commitFrame
  try dsimp only
  repeat' first
    | with_reducible rfl
    | simp only [↓h, ↓k0, ↓k1, ↓k2, ↓k3, ↓k4, ↓apply_ite P, ite_self]
    | split
    | refine (foldl_keeps P _ ?_ _ _).trans ?_
    | intro _ _

theorem journalGroup_keeps {β : Type} (P : State → β) (h : ∀ (s : State) x0 x1 x2 x3 x4 x5 x6 x7 x8 x9 x10 x11 x12 x13 x14 x15 x16 x17 x18 x19, P { s with out := x0, mbxs := x1, ops := x2, evt := x3, bkp := x4, sectors := x5, plcMac := x6, dir := x7, eps := x8, mem := x9, jnv := x10, jnl := x11, prov := x12, roots := x13, ledger := x14, bal := x15, camps := x16, confUnmatched := x17, slate := x18, life := x19 } = P s) :
    ∀ a0 a1 s, P (journalGroup a0 a1 s) = P s := by
  have k0 := commitFrame_keeps P (fun s y0 y1 y2 y3 y4 y5 y6 y7 y8 y9 y10 y11 y12 y13 y14 y15 y16 y17 y18 => h s y0 y1 y2 y3 y4 y5 s.plcMac y6 y7 y8 y9 y10 y11 y12 y13 y14 y15 y16 y17 y18)
  have k1 := dropFrame9_keeps P (fun s y0 y1 y2 y3 y4 y5 y6 y7 y8 y9 y10 y11 y12 y13 y14 y15 y16 => h s y0 y1 y2 y3 y4 s.sectors y5 y6 y7 y8 y9 y10 y11 y12 y13 s.bal y14 s.confUnmatched y15 y16)
  have k2 := valuesAt_keeps P
  have kv := fun v p => commitFrame_keeps (fun u => P { u with cfg.vals := v, cfg.profiles := p }) (fun s y0 y1 y2 y3 y4 y5 y6 y7 y8 y9 y10 y11 y12 y13 y14 y15 y16 y17 y18 => h { s with cfg.vals := v, cfg.profiles := p } y0 y1 y2 y3 y4 y5 s.plcMac y6 y7 y8 y9 y10 y11 y12 y13 y14 y15 y16 y17 y18)
  intro a0 a1 s
  unfold journalGroup
  try dsimp only
  repeat' first
    | with_reducible rfl
    | simp only [↓h, ↓k0, ↓k1, ↓apply_ite P, ite_self]
    | split
    | exact fun v p s => kv v p _ _ s
    | refine (k2 _ _ ?_ ?_ _).trans ?_
    | intro _
    | refine (foldl_keeps P _ ?_ _ _).trans ?_
    | intro _ _

theorem jnlWaitExpiry_keeps {β : Type} (P : State → β) (h : ∀ (s : State) x0 x1 x2 x3 x4 x5 x6 x7 x8 x9 x10 x11 x12 x13 x14 x15 x16 x17, P { s with now := x0, mono := x1, out := x2, mbxs := x3, ops := x4, evt := x5, bkp := x6, dir := x7, eps := x8, mem := x9, jnv := x10, jnl := x11, prov := x12, roots := x13, ledger := x14, camps := x15, slate := x16, life := x17 } = P s) :
    ∀ a0 s, P (jnlWaitExpiry a0 s) = P s := by
  have k0 := advMono_keeps P (fun s y0 y1 => h s y0 y1 s.out s.mbxs s.ops s.evt s.bkp s.dir s.eps s.mem s.jnv s.jnl s.prov s.roots s.ledger s.camps s.slate s.life)
  have k1 := frameDone_keeps P (fun s y0 y1 y2 y3 y4 y5 y6 y7 y8 y9 y10 y11 y12 y13 y14 y15 => h s s.now s.mono y0 y1 y2 y3 y4 y5 y6 y7 y8 y9 y10 y11 y12 y13 y14 y15)
  intro a0 s
  unfold jnlWaitExpiry
  try dsimp only
  repeat' first
    | with_reducible rfl
    | simp only [↓h, ↓k0, ↓k1, ↓apply_ite P, ite_self]
    | split
    | refine (foldl_keeps P _ ?_ _ _).trans ?_
    | intro _ _

theorem bundleTimeout_keeps {β : Type} (P : State → β) (h : ∀ (s : State) x0 x1 x2, P { s with now := x0, mono := x1, prov := x2 } = P s) :
    ∀ a0 s, P (bundleTimeout a0 s) = P s := by
  have k0 := advTo_keeps P (fun s y0 y1 => h s y0 y1 s.prov)
  have k1 := closeOpen_keeps P (fun s y0 => h s s.now s.mono y0)
  have k2 := closeOpenOvf_keeps P (fun s y0 => h s s.now s.mono y0)
  intro a0 s
  unfold bundleTimeout
  try dsimp only
  repeat' first
    | with_reducible rfl
    | simp only [↓h, ↓k0, ↓k1, ↓k2, ↓apply_ite P, ite_self]
    | split
    | refine (foldl_keeps P _ ?_ _ _).trans ?_
    | intro _ _

theorem dropSigned_keeps {β : Type} (P : State → β) (h : ∀ (s : State) x0, P { s with prov := x0 } = P s) :
    ∀ s, P (dropSigned s) = P s := by
  intro s
  unfold dropSigned
  try dsimp only
  repeat' first
    | with_reducible rfl
    | simp only [↓h, ↓apply_ite P, ite_self]
    | split
    | refine (foldl_keeps P _ ?_ _ _).trans ?_
    | intro _ _

theorem setStopped_keeps {β : Type} (P : State → β) (h : ∀ (s : State) x0 x1 x2, P { s with out := x0, evt := x1, prov := x2 } = P s) :
    ∀ a0 s, P (setStopped a0 s) = P s := by
  have k0 := raise_keeps P (fun s y0 y1 => h s y0 y1 s.prov)
  intro a0 s
  unfold setStopped
  try dsimp only
  repeat' first
    | with_reducible rfl
    | simp only [↓h, ↓k0, ↓apply_ite P, ite_self]
    | split
    | refine (foldl_keeps P _ ?_ _ _).trans ?_
    | intro _ _

theorem placeSigned_keeps {β : Type} (P : State → β) (h : ∀ (s : State) x0 x1 x2 x3 x4 x5 x6 x7, P { s with out := x0, evt := x1, jnv := x2, jnl := x3, prov := x4, roots := x5, ledger := x6, life := x7 } = P s) :
    ∀ a0 s, P (placeSigned a0 s) = P s := by
  have k0 := backlogCheck_keeps P (fun s y0 y1 y2 => h s y0 y1 s.jnv s.jnl y2 s.roots s.ledger s.life)
  have k1 := jnlGroup_keeps P (fun s y0 y1 y2 y3 y4 y5 y6 => h s y0 y1 y2 y3 y4 y5 s.ledger y6)
  intro a0 s
  unfold placeSigned
  try dsimp only
  repeat' first
    | with_reducible rfl
    | simp only [↓h, ↓k0, ↓k1, ↓apply_ite P, ite_self]
    | split
    | refine (foldl_keeps P _ ?_ _ _).trans ?_
    | intro _ _

theorem prSignDue_keeps {β : Type} (P : State → β) (h : ∀ (s : State) x0 x1, P { s with now := x0, mono := x1 } = P s) :
    ∀ a0 s, P (prSignDue a0 s) = P s := by
  have k0 := advMono_keeps P (fun s y0 y1 => h s y0 y1)
  intro a0 s
  unfold prSignDue
  try dsimp only
  repeat' first
    | with_reducible rfl
    | simp only [↓h, ↓k0, ↓apply_ite P, ite_self]
    | split
    | refine (foldl_keeps P _ ?_ _ _).trans ?_
    | intro _ _

theorem bundleSigned_keeps {β : Type} (P : State → β) (h : ∀ (s : State) x0 x1 x2 x3 x4 x5 x6 x7 x8 x9 x10 x11 x12 x13 x14, P { s with now := x0, mono := x1, freeCtr := x2, out := x3, evt := x4, bkp := x5, jnv := x6, jnl := x7, prov := x8, roots := x9, ledger := x10, slots := x11, keys := x12, slate := x13, life := x14 } = P s) :
    ∀ s, P (bundleSigned s) = P s := by
  have k0 := dropSigned_keeps P (fun s y0 => h s s.now s.mono s.freeCtr s.out s.evt s.bkp s.jnv s.jnl y0 s.roots s.ledger s.slots s.keys s.slate s.life)
  have k1 := placeSigned_keeps P (fun s y0 y1 y2 y3 y4 y5 y6 y7 => h s s.now s.mono s.freeCtr y0 y1 s.bkp y2 y3 y4 y5 y6 s.slots s.keys s.slate y7)
  have k2 := prSignDue_keeps P (fun s y0 y1 => h s y0 y1 s.freeCtr s.out s.evt s.bkp s.jnv s.jnl s.prov s.roots s.ledger s.slots s.keys s.slate s.life)
  have k3 := setStopped_keeps P (fun s y0 y1 y2 => h s s.now s.mono s.freeCtr y0 y1 s.bkp s.jnv s.jnl y2 s.roots s.ledger s.slots s.keys s.slate s.life)
  have k4 := signWith_keeps P (fun s y0 y1 y2 y3 y4 y5 y6 y7 => h s s.now s.mono y0 y1 y2 y3 s.jnv s.jnl s.prov s.roots s.ledger y4 y5 y6 y7)
  have q4 := fun b0 b1 b2 t u (e : signWith b0 b1 b2 = (t, u)) => (congrArg (fun z => P z.1) e).symm.trans (k4 b0 b1 b2)
  intro s
  unfold bundleSigned
  try dsimp only
  repeat' first
    | with_reducible rfl
    | simp only [↓h, ↓k0, ↓k1, ↓k2, ↓k3, ↓k4, ↓apply_ite P, ite_self]
    | split
    | refine (q4 _ _ _ _ _ (by assumption)).trans ?_
    | refine (foldl_keeps P _ ?_ _ _).trans ?_
    | intro _ _

theorem keepProfile_keeps {β : Type} (P : State → β) (h : ∀ (s : State) x0, P { s with dir := x0 } = P s) :
    ∀ a0 s, P (keepProfile a0 s) = P s := by
  intro a0 s
  unfold keepProfile
  try dsimp only
  repeat' first
    | with_reducible rfl
    | simp only [↓h, ↓apply_ite P, ite_self]
    | split
    | refine (foldl_keeps P _ ?_ _ _).trans ?_
    | intro _ _

theorem profileSet_keeps {β : Type} (P : State → β) (h : ∀ (s : State) x0 x1, P { s with dir := x0, prov := x1 } = P s) :
    ∀ a0 s, P (profileSet a0 s).st = P s := by
  have k0 := keepProfile_keeps P (fun s y0 => h s y0 s.prov)
  have k1 := refuse_keeps P
  have k2 := replyOk_keeps P
  intro a0 s
  unfold profileSet
  try dsimp only
  repeat' first
    | with_reducible rfl
    | simp only [↓h, ↓k0, ↓k1, ↓k2, ↓apply_ite P, ite_self, Reply.st_done, Reply.st_pend, Reply.st_twice, Reply.st_wait, replyOk_st, refuse_st]
    | split
    | refine (foldl_keeps P _ ?_ _ _).trans ?_
    | intro _ _

theorem profileGet_keeps {β : Type} (P : State → β) :
    ∀ a0 s, P (profileGet a0 s).st = P s := by
  have k0 := refuse_keeps P
  have k1 := replyOk_keeps P
  intro a0 s
  unfold profileGet
  try dsimp only
  repeat' first
    | with_reducible rfl
    | simp only [↓k0, ↓k1, ↓apply_ite P, ite_self, Reply.st_done, Reply.st_pend, Reply.st_twice, Reply.st_wait, replyOk_st, refuse_st]
    | split
    | refine (foldl_keeps P _ ?_ _ _).trans ?_
    | intro _ _

theorem provListAdd_keeps {β : Type} (P : State → β) (h : ∀ (s : State) x0, P { s with prov := x0 } = P s) :
    ∀ a0 s, P (provListAdd a0 s).st = P s := by
  have k0 := refuse_keeps P
  have k1 := replyOk_keeps P
  intro a0 s
  unfold provListAdd
  try dsimp only
  repeat' first
    | with_reducible rfl
    | simp only [↓h, ↓k0, ↓k1, ↓apply_ite P, ite_self, Reply.st_done, Reply.st_pend, Reply.st_twice, Reply.st_wait, replyOk_st, refuse_st]
    | split
    | refine (foldl_keeps P _ ?_ _ _).trans ?_
    | intro _ _

theorem exportStart_keeps {β : Type} (P : State → β) (h : ∀ (s : State) x0 x1, P { s with chans := x0, prov := x1 } = P s) :
    ∀ a0 s, P (exportStart a0 s).st = P s := by
  have k0 := bindChan_keeps P (fun s y0 => h s y0 s.prov)
  have k1 := refuse_keeps P
  have k2 := replyOk_keeps P
  intro a0 s
  unfold exportStart
  try dsimp only
  repeat' first
    | with_reducible rfl
    | simp only [↓h, ↓k0, ↓k1, ↓k2, ↓apply_ite P, ite_self, Reply.st_done, Reply.st_pend, Reply.st_twice, Reply.st_wait, replyOk_st, refuse_st]
    | split
    | refine (foldl_keeps P _ ?_ _ _).trans ?_
    | intro _ _

theorem exportStop_keeps {β : Type} (P : State → β) (h : ∀ (s : State) x0 x1, P { s with chans := x0, prov := x1 } = P s) :
    ∀ a0 a1 s, P (exportStop a0 a1 s).st = P s := by
  have k0 := unbindChan_keeps P (fun s y0 => h s y0 s.prov)
  intro a0 a1 s
  unfold exportStop
  try dsimp only
  repeat' first
    | with_reducible rfl
    | simp only [↓h, ↓k0, ↓apply_ite P, ite_self, Reply.st_done, Reply.st_pend, Reply.st_twice, Reply.st_wait, replyOk_st, refuse_st]
    | split
    | refine (foldl_keeps P _ ?_ _ _).trans ?_
    | intro _ _

theorem confirmBundles_keeps {β : Type} (P : State → β) (h : ∀ (s : State) x0 x1 x2 x3 x4 x5 x6, P { s with out := x0, evt := x1, jnv := x2, jnl := x3, prov := x4, roots := x5, ledger := x6 } = P s) :
    ∀ a0 s, P (confirmBundles a0 s) = P s := by
  have k0 := release_keeps P (fun s y0 y1 y2 y3 y4 => h s y0 y1 y2 y3 s.prov s.roots y4)
  intro a0 s
  unfold confirmBundles
  try dsimp only
  repeat' first
    | with_reducible rfl
    | simp only [↓h, ↓k0, ↓apply_ite P, ite_self]
    | split
    | refine (foldl_keeps P _ ?_ _ _).trans ?_
    | intro _ _

theorem exportConfirm_keeps {β : Type} (P : State → β) (h : ∀ (s : State) x0 x1 x2 x3 x4 x5 x6 x7 x8 x9 x10 x11, P { s with out := x0, mbxs := x1, ops := x2, evt := x3, bkp := x4, chans := x5, jnv := x6, jnl := x7, prov := x8, roots := x9, ledger := x10, slate := x11 } = P s) :
    ∀ a0 s, P (exportConfirm a0 s).st = P s := by
  have k0 := confirmBundles_keeps P (fun s y0 y1 y2 y3 y4 y5 y6 => h s y0 s.mbxs s.ops y1 s.bkp s.chans y2 y3 y4 y5 y6 s.slate)
  have k1 := exportStopped_keeps P (fun s y0 y1 y2 y3 y4 y5 y6 y7 => h s y0 y1 y2 y3 y4 y5 s.jnv s.jnl y6 s.roots s.ledger y7)
  have k2 := refuse_keeps P
  have k3 := replyOk_keeps P
  have k4 := streamAnew_keeps P (fun s y0 => h s s.out s.mbxs s.ops s.evt s.bkp y0 s.jnv s.jnl s.prov s.roots s.ledger s.slate)
  intro a0 s
  unfold exportConfirm
  try dsimp only
  repeat' first
    | with_reducible rfl
    | simp only [↓h, ↓k0, ↓k1, ↓k2, ↓k3, ↓k4, ↓apply_ite P, ite_self, Reply.st_done, Reply.st_pend, Reply.st_twice, Reply.st_wait, replyOk_st, refuse_st]
    | split
    | refine (foldl_keeps P _ ?_ _ _).trans ?_
    | intro _ _

theorem exportRewind_keeps {β : Type} (P : State → β) (h : ∀ (s : State) x0 x1, P { s with chans := x0, prov := x1 } = P s) :
    ∀ a0 s, P (exportRewind a0 s).st = P s := by
  have k0 := refuse_keeps P
  have k1 := replyOk_keeps P
  have k2 := streamAnew_keeps P (fun s y0 => h s y0 s.prov)
  intro a0 s
  unfold exportRewind
  try dsimp only
  repeat' first
    | with_reducible rfl
    | simp only [↓h, ↓k0, ↓k1, ↓k2, ↓apply_ite P, ite_self, Reply.st_done, Reply.st_pend, Reply.st_twice, Reply.st_wait, replyOk_st, refuse_st]
    | split
    | refine (foldl_keeps P _ ?_ _ _).trans ?_
    | intro _ _

end Sys2Proof.Machine
end

