-- ==== Sys2Proof/Laws/KeepCampaign.lean ====
section
/-! SUPPORT. What the functions of Machine/Campaign.lean leave unchanged. -/

set_option linter.unusedSimpArgs false
set_option linter.unreachableTactic false
set_option linter.unusedTactic false

namespace Sys2Proof.Machine

theorem campCreate_keeps {β : Type} (P : State → β) (h : ∀ (s : State) x0 x1 x2 x3 x4 x5 x6 x7, P { s with out := x0, evt := x1, jnv := x2, jnl := x3, prov := x4, roots := x5, camps := x6, life := x7 } = P s) :
    ∀ a0 s, P (campCreate a0 s).st = P s := by
  have k0 := refuse_keeps P
  have k1 := replyOk_keeps P
  have k2 := setCampState_keeps P (fun s y0 y1 y2 y3 y4 y5 y6 y7 => h s y0 y1 y2 y3 y4 y5 y6 y7)
  intro a0 s
  unfold campCreate
  try dsimp only
  repeat' first
    | with_reducible rfl
    | simp only [↓h, ↓k0, ↓k1, ↓k2, ↓apply_ite P, ite_self, Reply.st_done, Reply.st_pend, Reply.st_twice, Reply.st_wait, replyOk_st, refuse_st]
    | split
    | refine (foldl_keeps P _ ?_ _ _).trans ?_
    | intro _ _

theorem campContent_keeps {β : Type} (P : State → β) (h : ∀ (s : State) x0, P { s with camps := x0 } = P s) :
    ∀ a0 s, P (campContent a0 s).st = P s := by
  have k0 := refuse_keeps P
  have k1 := replyOk_keeps P
  have k2 := updCamp_keeps P (fun s y0 => h s y0)
  intro a0 s
  unfold campContent
  try dsimp only
  repeat' first
    | with_reducible rfl
    | simp only [↓h, ↓k0, ↓k1, ↓k2, ↓apply_ite P, ite_self, Reply.st_done, Reply.st_pend, Reply.st_twice, Reply.st_wait, replyOk_st, refuse_st]
    | split
    | refine (foldl_keeps P _ ?_ _ _).trans ?_
    | intro _ _

theorem addTarget_keeps {β : Type} (P : State → β) (h : ∀ (s : State) x0 x1 x2 x3 x4 x5 x6 x7, P { s with out := x0, evt := x1, jnv := x2, jnl := x3, prov := x4, roots := x5, camps := x6, life := x7 } = P s) :
    ∀ a0 a1 s a3, P (addTarget a0 a1 s a3) = P s := by
  have k0 := commitOne_keeps P (fun s y0 y1 y2 y3 y4 y5 y6 => h s y0 y1 y2 y3 y4 y5 s.camps y6)
  have k1 := updCamp_keeps P (fun s y0 => h s s.out s.evt s.jnv s.jnl s.prov s.roots y0 s.life)
  intro a0 a1 s a3
  unfold addTarget
  try dsimp only
  repeat' first
    | with_reducible rfl
    | simp only [↓h, ↓k0, ↓k1, ↓apply_ite P, ite_self]
    | split
    | refine (foldl_keeps P _ ?_ _ _).trans ?_
    | intro _ _

theorem campTargetsAdd_keeps {β : Type} (P : State → β) (h : ∀ (s : State) x0 x1 x2 x3 x4 x5 x6 x7 x8 x9 x10 x11, P { s with out := x0, mbxs := x1, ops := x2, evt := x3, bkp := x4, jnv := x5, jnl := x6, prov := x7, roots := x8, camps := x9, slate := x10, life := x11 } = P s) :
    ∀ a0 s, P (campTargetsAdd a0 s).st = P s := by
  have k0 := addTarget_keeps P (fun s y0 y1 y2 y3 y4 y5 y6 y7 => h s y0 s.mbxs s.ops y1 s.bkp y2 y3 y4 y5 y6 s.slate y7)
  have k1 := refuse_keeps P
  have k2 := replyOk_keeps P
  have k3 := settle_keeps P (fun s y0 y1 y2 y3 y4 y5 y6 y7 y8 y9 y10 y11 => h s y0 y1 y2 y3 y4 y5 y6 y7 y8 y9 y10 y11)
  intro a0 s
  unfold campTargetsAdd
  try dsimp only
  repeat' first
    | with_reducible rfl
    | simp only [↓h, ↓k0, ↓k1, ↓k2, ↓k3, ↓apply_ite P, ite_self, Reply.st_done, Reply.st_pend, Reply.st_twice, Reply.st_wait, replyOk_st, refuse_st]
    | split
    | refine (foldl_keeps P _ ?_ _ _).trans ?_
    | intro _ _

theorem campStart_keeps {β : Type} (P : State → β) (h : ∀ (s : State) x0 x1 x2 x3 x4 x5 x6 x7 x8 x9 x10 x11, P { s with out := x0, mbxs := x1, ops := x2, evt := x3, bkp := x4, jnv := x5, jnl := x6, prov := x7, roots := x8, camps := x9, slate := x10, life := x11 } = P s) :
    ∀ a0 s, P (campStart a0 s).st = P s := by
  have k0 := refuse_keeps P
  have k1 := replyOk_keeps P
  have k2 := setCampState_keeps P (fun s y0 y1 y2 y3 y4 y5 y6 y7 => h s y0 s.mbxs s.ops y1 s.bkp y2 y3 y4 y5 y6 s.slate y7)
  have k3 := settle_keeps P (fun s y0 y1 y2 y3 y4 y5 y6 y7 y8 y9 y10 y11 => h s y0 y1 y2 y3 y4 y5 y6 y7 y8 y9 y10 y11)
  intro a0 s
  unfold campStart
  try dsimp only
  repeat' first
    | with_reducible rfl
    | simp only [↓h, ↓k0, ↓k1, ↓k2, ↓k3, ↓apply_ite P, ite_self, Reply.st_done, Reply.st_pend, Reply.st_twice, Reply.st_wait, replyOk_st, refuse_st]
    | split
    | refine (foldl_keeps P _ ?_ _ _).trans ?_
    | intro _ _

theorem campPause_keeps {β : Type} (P : State → β) (h : ∀ (s : State) x0 x1 x2 x3 x4 x5 x6 x7, P { s with out := x0, evt := x1, jnv := x2, jnl := x3, prov := x4, roots := x5, camps := x6, life := x7 } = P s) :
    ∀ a0 s, P (campPause a0 s).st = P s := by
  have k0 := refuse_keeps P
  have k1 := replyOk_keeps P
  have k2 := setCampState_keeps P (fun s y0 y1 y2 y3 y4 y5 y6 y7 => h s y0 y1 y2 y3 y4 y5 y6 y7)
  intro a0 s
  unfold campPause
  try dsimp only
  repeat' first
    | with_reducible rfl
    | simp only [↓h, ↓k0, ↓k1, ↓k2, ↓apply_ite P, ite_self, Reply.st_done, Reply.st_pend, Reply.st_twice, Reply.st_wait, replyOk_st, refuse_st]
    | split
    | refine (foldl_keeps P _ ?_ _ _).trans ?_
    | intro _ _

theorem campResume_keeps {β : Type} (P : State → β) (h : ∀ (s : State) x0 x1 x2 x3 x4 x5 x6 x7 x8 x9 x10 x11, P { s with out := x0, mbxs := x1, ops := x2, evt := x3, bkp := x4, jnv := x5, jnl := x6, prov := x7, roots := x8, camps := x9, slate := x10, life := x11 } = P s) :
    ∀ a0 s, P (campResume a0 s).st = P s := by
  have k0 := refuse_keeps P
  have k1 := replyOk_keeps P
  have k2 := setCampState_keeps P (fun s y0 y1 y2 y3 y4 y5 y6 y7 => h s y0 s.mbxs s.ops y1 s.bkp y2 y3 y4 y5 y6 s.slate y7)
  have k3 := settle_keeps P (fun s y0 y1 y2 y3 y4 y5 y6 y7 y8 y9 y10 y11 => h s y0 y1 y2 y3 y4 y5 y6 y7 y8 y9 y10 y11)
  have k4 := updCamp_keeps P (fun s y0 => h s s.out s.mbxs s.ops s.evt s.bkp s.jnv s.jnl s.prov s.roots y0 s.slate s.life)
  intro a0 s
  unfold campResume
  try dsimp only
  repeat' first
    | with_reducible rfl
    | simp only [↓h, ↓k0, ↓k1, ↓k2, ↓k3, ↓k4, ↓apply_ite P, ite_self, Reply.st_done, Reply.st_pend, Reply.st_twice, Reply.st_wait, replyOk_st, refuse_st]
    | split
    | refine (foldl_keeps P _ ?_ _ _).trans ?_
    | intro _ _

theorem endWaiting_keeps {β : Type} (P : State → β) (h : ∀ (s : State) x0 x1 x2 x3 x4 x5 x6 x7, P { s with out := x0, evt := x1, jnv := x2, jnl := x3, prov := x4, roots := x5, camps := x6, life := x7 } = P s) :
    ∀ a0 a1 s, P (endWaiting a0 a1 s) = P s := by
  have k0 := endTarget_keeps P (fun s y0 y1 y2 y3 y4 y5 y6 y7 => h s y0 y1 y2 y3 y4 y5 y6 y7)
  intro a0 a1 s
  unfold endWaiting
  try dsimp only
  repeat' first
    | with_reducible rfl
    | simp only [↓h, ↓k0, ↓apply_ite P, ite_self]
    | split
    | refine (foldl_keeps P _ ?_ _ _).trans ?_
    | intro _ _

theorem campCancel_keeps {β : Type} (P : State → β) (h : ∀ (s : State) x0 x1 x2 x3 x4 x5 x6 x7 x8 x9 x10 x11, P { s with out := x0, mbxs := x1, ops := x2, evt := x3, bkp := x4, jnv := x5, jnl := x6, prov := x7, roots := x8, camps := x9, slate := x10, life := x11 } = P s) :
    ∀ a0 a1 s, P (campCancel a0 a1 s).st = P s := by
  have k0 := endWaiting_keeps P (fun s y0 y1 y2 y3 y4 y5 y6 y7 => h s y0 s.mbxs s.ops y1 s.bkp y2 y3 y4 y5 y6 s.slate y7)
  have k1 := refuse_keeps P
  have k2 := setCampState_keeps P (fun s y0 y1 y2 y3 y4 y5 y6 y7 => h s y0 s.mbxs s.ops y1 s.bkp y2 y3 y4 y5 y6 s.slate y7)
  have k3 := settle_keeps P (fun s y0 y1 y2 y3 y4 y5 y6 y7 y8 y9 y10 y11 => h s y0 y1 y2 y3 y4 y5 y6 y7 y8 y9 y10 y11)
  have k4 := updCamp_keeps P (fun s y0 => h s s.out s.mbxs s.ops s.evt s.bkp s.jnv s.jnl s.prov s.roots y0 s.slate s.life)
  intro a0 a1 s
  unfold campCancel
  try dsimp only
  repeat' first
    | with_reducible rfl
    | simp only [↓h, ↓k0, ↓k1, ↓k2, ↓k3, ↓k4, ↓apply_ite P, ite_self, Reply.st_done, Reply.st_pend, Reply.st_twice, Reply.st_wait, replyOk_st, refuse_st]
    | split
    | refine (foldl_keeps P _ ?_ _ _).trans ?_
    | intro _ _

theorem campRelease_keeps {β : Type} (P : State → β) (h : ∀ (s : State) x0, P { s with camps := x0 } = P s) :
    ∀ a0 s, P (campRelease a0 s).st = P s := by
  have k0 := refuse_keeps P
  have k1 := replyOk_keeps P
  intro a0 s
  unfold campRelease
  try dsimp only
  repeat' first
    | with_reducible rfl
    | simp only [↓h, ↓k0, ↓k1, ↓apply_ite P, ite_self, Reply.st_done, Reply.st_pend, Reply.st_twice, Reply.st_wait, replyOk_st, refuse_st]
    | split
    | refine (foldl_keeps P _ ?_ _ _).trans ?_
    | intro _ _

theorem campStatusGet_keeps {β : Type} (P : State → β) :
    ∀ a0 s, P (campStatusGet a0 s).st = P s := by
  have k0 := refuse_keeps P
  have k1 := replyOk_keeps P
  intro a0 s
  unfold campStatusGet
  try dsimp only
  repeat' first
    | with_reducible rfl
    | simp only [↓k0, ↓k1, ↓apply_ite P, ite_self, Reply.st_done, Reply.st_pend, Reply.st_twice, Reply.st_wait, replyOk_st, refuse_st]
    | split
    | refine (foldl_keeps P _ ?_ _ _).trans ?_
    | intro _ _

theorem campTargetGet_keeps {β : Type} (P : State → β) :
    ∀ a0 s, P (campTargetGet a0 s).st = P s := by
  have k0 := refuse_keeps P
  have k1 := replyOk_keeps P
  intro a0 s
  unfold campTargetGet
  try dsimp only
  repeat' first
    | with_reducible rfl
    | simp only [↓k0, ↓k1, ↓apply_ite P, ite_self, Reply.st_done, Reply.st_pend, Reply.st_twice, Reply.st_wait, replyOk_st, refuse_st]
    | split
    | refine (foldl_keeps P _ ?_ _ _).trans ?_
    | intro _ _

theorem switchFaultClear_keeps {β : Type} (P : State → β) (h : ∀ (s : State) x0 x1, P { s with eps := x0, mem := x1 } = P s) :
    ∀ a0 s, P (switchFaultClear a0 s).st = P s := by
  have k0 := refuse_keeps P
  have k1 := replyOk_keeps P
  have k2 := updEp_keeps P (fun s y0 y1 => h s y0 y1)
  intro a0 s
  unfold switchFaultClear
  try dsimp only
  repeat' first
    | with_reducible rfl
    | simp only [↓h, ↓k0, ↓k1, ↓k2, ↓apply_ite P, ite_self, Reply.st_done, Reply.st_pend, Reply.st_twice, Reply.st_wait, replyOk_st, refuse_st]
    | split
    | refine (foldl_keeps P _ ?_ _ _).trans ?_
    | intro _ _

theorem stepAttempt_keeps {β : Type} (P : State → β) (h : ∀ (s : State) x0 x1 x2 x3 x4 x5 x6 x7 x8 x9 x10 x11 x12 x13 x14 x15 x16 x17 x18 x19 x20, P { s with now := x0, mono := x1, freeCtr := x2, out := x3, evt := x4, bkp := x5, rf := x6, lanes := x7, sectors := x8, duty := x9, plc := x10, plcMac := x11, eps := x12, mem := x13, camps := x14, slots := x15, keys := x16, slate := x17, life := x18, safe := x19, faultTimes := x20 } = P s) :
    ∀ a0 a1 a2 s, P (stepAttempt a0 a1 a2 s) = P s := by
  have k0 := connectionEvent_keeps P (fun s y0 y1 y2 y3 y4 y5 y6 y7 y8 y9 y10 y11 y12 y13 y14 y15 y16 y17 y18 => h s y0 y1 y2 y3 y4 y5 y6 y7 y8 y9 s.plc s.plcMac y10 y11 y12 y13 y14 y15 y16 y17 y18)
  have k1 := downlinkTx_keeps P (fun s y0 y1 y2 y3 y4 y5 y6 y7 y8 y9 y10 y11 y12 y13 y14 y15 y16 y17 y18 => h s y0 y1 y2 y3 y4 y5 y6 y7 y8 y9 s.plc s.plcMac y10 y11 y12 y13 y14 y15 y16 y17 y18)
  have k2 := transactionStart_keeps P (fun s y0 y1 y2 y3 y4 y5 y6 y7 y8 y9 y10 y11 y12 y13 y14 y15 => h s y0 y1 s.freeCtr y2 y3 y4 s.rf s.lanes s.sectors s.duty y5 y6 y7 y8 y9 y10 y11 y12 y13 y14 y15)
  intro a0 a1 a2 s
  unfold stepAttempt
  try dsimp only
  repeat' first
    | with_reducible rfl
    | simp only [↓h, ↓k0, ↓k1, ↓k2, ↓apply_ite P, ite_self]
    | split
    | refine (foldl_keeps P _ ?_ _ _).trans ?_
    | intro _ _

theorem confWaitEnd_keeps {β : Type} (P : State → β) (h : ∀ (s : State) x0 x1 x2 x3 x4 x5 x6 x7 x8 x9 x10 x11 x12 x13, P { s with now := x0, mono := x1, out := x2, mbxs := x3, ops := x4, evt := x5, bkp := x6, jnv := x7, jnl := x8, prov := x9, roots := x10, camps := x11, slate := x12, life := x13 } = P s) :
    ∀ a0 a1 s, P (confWaitEnd a0 a1 s) = P s := by
  have k0 := advMono_keeps P (fun s y0 y1 => h s y0 y1 s.out s.mbxs s.ops s.evt s.bkp s.jnv s.jnl s.prov s.roots s.camps s.slate s.life)
  have k1 := advTo_keeps P (fun s y0 y1 => h s y0 y1 s.out s.mbxs s.ops s.evt s.bkp s.jnv s.jnl s.prov s.roots s.camps s.slate s.life)
  have k2 := endTarget_keeps P (fun s y0 y1 y2 y3 y4 y5 y6 y7 => h s s.now s.mono y0 s.mbxs s.ops y1 s.bkp y2 y3 y4 y5 y6 s.slate y7)
  have k3 := settle_keeps P (fun s y0 y1 y2 y3 y4 y5 y6 y7 y8 y9 y10 y11 => h s s.now s.mono y0 y1 y2 y3 y4 y5 y6 y7 y8 y9 y10 y11)
  have k4 := waitEnd_keeps P (fun s y0 y1 y2 y3 y4 y5 y6 y7 y8 y9 y10 y11 => h s s.now s.mono y0 y1 y2 y3 y4 y5 y6 y7 y8 y9 y10 y11)
  intro a0 a1 s
  unfold confWaitEnd
  try dsimp only
  repeat' first
    | with_reducible rfl
    | simp only [↓h, ↓k0, ↓k1, ↓k2, ↓k3, ↓k4, ↓apply_ite P, ite_self]
    | split
    | refine (foldl_keeps P _ ?_ _ _).trans ?_
    | intro _ _

theorem campDeadline_keeps {β : Type} (P : State → β) (h : ∀ (s : State) x0 x1 x2 x3 x4 x5 x6 x7 x8 x9 x10 x11 x12 x13, P { s with now := x0, mono := x1, out := x2, mbxs := x3, ops := x4, evt := x5, bkp := x6, jnv := x7, jnl := x8, prov := x9, roots := x10, camps := x11, slate := x12, life := x13 } = P s) :
    ∀ a0 s, P (campDeadline a0 s) = P s := by
  have k0 := advTo_keeps P (fun s y0 y1 => h s y0 y1 s.out s.mbxs s.ops s.evt s.bkp s.jnv s.jnl s.prov s.roots s.camps s.slate s.life)
  have k1 := endWaiting_keeps P (fun s y0 y1 y2 y3 y4 y5 y6 y7 => h s s.now s.mono y0 s.mbxs s.ops y1 s.bkp y2 y3 y4 y5 y6 s.slate y7)
  have k2 := setCampState_keeps P (fun s y0 y1 y2 y3 y4 y5 y6 y7 => h s s.now s.mono y0 s.mbxs s.ops y1 s.bkp y2 y3 y4 y5 y6 s.slate y7)
  have k3 := settle_keeps P (fun s y0 y1 y2 y3 y4 y5 y6 y7 y8 y9 y10 y11 => h s s.now s.mono y0 y1 y2 y3 y4 y5 y6 y7 y8 y9 y10 y11)
  intro a0 s
  unfold campDeadline
  try dsimp only
  repeat' first
    | with_reducible rfl
    | simp only [↓h, ↓k0, ↓k1, ↓k2, ↓k3, ↓apply_ite P, ite_self]
    | split
    | refine (foldl_keeps P _ ?_ _ _).trans ?_
    | intro _ _

theorem sessionPlan_keeps {β : Type} (P : State → β) (h : ∀ (s : State) x0 x1 x2 x3 x4 x5 x6 x7 x8 x9 x10 x11, P { s with out := x0, mbxs := x1, ops := x2, evt := x3, bkp := x4, jnv := x5, jnl := x6, prov := x7, roots := x8, camps := x9, slate := x10, life := x11 } = P s) :
    ∀ a0 a1 s, P (sessionPlan a0 a1 s) = P s := by
  have k0 := failTarget_keeps P (fun s y0 y1 y2 => h s y0 s.mbxs s.ops y1 s.bkp s.jnv s.jnl s.prov s.roots y2 s.slate s.life)
  have k1 := settle_keeps P (fun s y0 y1 y2 y3 y4 y5 y6 y7 y8 y9 y10 y11 => h s y0 y1 y2 y3 y4 y5 y6 y7 y8 y9 y10 y11)
  have k2 := toNextSession_keeps P (fun s y0 => h s s.out s.mbxs s.ops s.evt s.bkp s.jnv s.jnl s.prov s.roots y0 s.slate s.life)
  have k3 := updCamp_keeps P (fun s y0 => h s s.out s.mbxs s.ops s.evt s.bkp s.jnv s.jnl s.prov s.roots y0 s.slate s.life)
  intro a0 a1 s
  unfold sessionPlan
  try dsimp only
  repeat' first
    | with_reducible rfl
    | simp only [↓h, ↓k0, ↓k1, ↓k2, ↓k3, ↓apply_ite P, ite_self]
    | split
    | refine (foldl_keeps P _ ?_ _ _).trans ?_
    | intro _ _

theorem sessionBegin_keeps {β : Type} (P : State → β) (h : ∀ (s : State) x0 x1 x2, P { s with out := x0, evt := x1, camps := x2 } = P s) :
    ∀ a0 a1 s, P (sessionBegin a0 a1 s) = P s := by
  have k0 := raise_keeps P (fun s y0 y1 => h s y0 y1 s.camps)
  have k1 := toNextSession_keeps P (fun s y0 => h s s.out s.evt y0)
  have k2 := updCamp_keeps P (fun s y0 => h s s.out s.evt y0)
  intro a0 a1 s
  unfold sessionBegin
  try dsimp only
  repeat' first
    | with_reducible rfl
    | simp only [↓h, ↓k0, ↓k1, ↓k2, ↓apply_ite P, ite_self]
    | split
    | refine (foldl_keeps P _ ?_ _ _).trans ?_
    | intro _ _

theorem sessionEnd_keeps {β : Type} (P : State → β) (h : ∀ (s : State) x0 x1 x2, P { s with out := x0, evt := x1, camps := x2 } = P s) :
    ∀ a0 a1 s, P (sessionEnd a0 a1 s) = P s := by
  have k0 := raise_keeps P (fun s y0 y1 => h s y0 y1 s.camps)
  have k1 := updCamp_keeps P (fun s y0 => h s s.out s.evt y0)
  intro a0 a1 s
  unfold sessionEnd
  try dsimp only
  repeat' first
    | with_reducible rfl
    | simp only [↓h, ↓k0, ↓k1, ↓apply_ite P, ite_self]
    | split
    | refine (foldl_keeps P _ ?_ _ _).trans ?_
    | intro _ _

theorem sessionVoid_keeps {β : Type} (P : State → β) (h : ∀ (s : State) x0, P { s with camps := x0 } = P s) :
    ∀ a0 a1 a2 s, P (sessionVoid a0 a1 a2 s) = P s := by
  have k0 := toNextSession_keeps P (fun s y0 => h s y0)
  have k1 := updCamp_keeps P (fun s y0 => h s y0)
  intro a0 a1 a2 s
  unfold sessionVoid
  try dsimp only
  repeat' first
    | with_reducible rfl
    | simp only [↓h, ↓k0, ↓k1, ↓apply_ite P, ite_self]
    | split
    | refine (foldl_keeps P _ ?_ _ _).trans ?_
    | intro _ _

theorem slotOver_keeps {β : Type} (P : State → β) (h : ∀ (s : State) x0 x1 x2, P { s with out := x0, evt := x1, camps := x2 } = P s) :
    ∀ a0 a1 a2 a3 s, P (slotOver a0 a1 a2 a3 s) = P s := by
  have k0 := sessionEnd_keeps P (fun s y0 y1 y2 => h s y0 y1 y2)
  have k1 := updCamp_keeps P (fun s y0 => h s s.out s.evt y0)
  intro a0 a1 a2 a3 s
  unfold slotOver
  try dsimp only
  repeat' first
    | with_reducible rfl
    | simp only [↓h, ↓k0, ↓k1, ↓apply_ite P, ite_self]
    | split
    | refine (foldl_keeps P _ ?_ _ _).trans ?_
    | intro _ _

theorem sessionListen_keeps {β : Type} (P : State → β) (h : ∀ (s : State) x0 x1 x2 x3 x4 x5 x6, P { s with now := x0, mono := x1, freeCtr := x2, out := x3, evt := x4, camps := x5, keys := x6 } = P s) :
    ∀ a0 a1 a2 a3 a4 s, P (sessionListen a0 a1 a2 a3 a4 s).2 = P s := by
  have k0 := advMono_keeps P (fun s y0 y1 => h s y0 y1 s.freeCtr s.out s.evt s.camps s.keys)
  have k1 := lbtBusy_keeps P (fun s y0 y1 => h s s.now s.mono y0 s.out s.evt s.camps y1)
  have k2 := slotOver_keeps P (fun s y0 y1 y2 => h s s.now s.mono s.freeCtr y0 y1 y2 s.keys)
  have k3 := updCamp_keeps P (fun s y0 => h s s.now s.mono s.freeCtr s.out s.evt y0 s.keys)
  have q1 := fun b0 b1 b2 t u (e : lbtBusy b0 b1 b2 = (u, t)) => (congrArg (fun z => P z.2) e).symm.trans (k1 b0 b1 b2)
  intro a0 a1 a2 a3 a4 s
  unfold sessionListen
  try dsimp only
  repeat' first
    | with_reducible rfl
    | simp only [↓h, ↓k0, ↓k1, ↓k2, ↓k3, ↓apply_ite P, ite_self]
    | split
    | refine (q1 _ _ _ _ _ (by assumption)).trans ?_
    | refine (foldl_keeps P _ ?_ _ _).trans ?_
    | intro _ _

theorem sessionFrame_keeps {β : Type} (P : State → β) (h : ∀ (s : State) x0 x1 x2 x3 x4 x5 x6 x7 x8 x9 x10 x11 x12 x13 x14, P { s with now := x0, mono := x1, freeCtr := x2, out := x3, evt := x4, bkp := x5, rf := x6, lanes := x7, sectors := x8, duty := x9, camps := x10, slots := x11, keys := x12, slate := x13, life := x14 } = P s) :
    ∀ a0 a1 a2 a3 a4 a5 s, P (sessionFrame a0 a1 a2 a3 a4 a5 s) = P s := by
  have k0 := noteRefusal_keeps P (fun s y0 y1 y2 => h s s.now s.mono s.freeCtr y0 y1 s.bkp s.rf s.lanes s.sectors y2 s.camps s.slots s.keys s.slate s.life)
  have k1 := sessionListen_keeps P (fun s y0 y1 y2 y3 y4 y5 y6 => h s y0 y1 y2 y3 y4 s.bkp s.rf s.lanes s.sectors s.duty y5 s.slots y6 s.slate s.life)
  have k2 := slotOver_keeps P (fun s y0 y1 y2 => h s s.now s.mono s.freeCtr y0 y1 s.bkp s.rf s.lanes s.sectors s.duty y2 s.slots s.keys s.slate s.life)
  have k3 := startTx_keeps P (fun s y0 y1 y2 y3 y4 => h s s.now s.mono y0 y1 s.evt s.bkp y2 y3 y4 s.duty s.camps s.slots s.keys s.slate s.life)
  have k4 := useSlot_keeps P (fun s y0 y1 y2 y3 y4 y5 y6 => h s s.now s.mono s.freeCtr y0 y1 y2 s.rf s.lanes s.sectors s.duty s.camps y3 y4 y5 y6)
  have q1 := fun b0 b1 b2 b3 b4 b5 t u (e : sessionListen b0 b1 b2 b3 b4 b5 = (u, t)) => (congrArg (fun z => P z.2) e).symm.trans (k1 b0 b1 b2 b3 b4 b5)
  have q4 := fun b0 b1 b2 t u (e : useSlot b0 b1 b2 = (t, u)) => (congrArg (fun z => P z.1) e).symm.trans (k4 b0 b1 b2)
  intro a0 a1 a2 a3 a4 a5 s
  unfold sessionFrame
  try dsimp only
  repeat' first
    | with_reducible rfl
    | simp only [↓h, ↓k0, ↓k1, ↓k2, ↓k3, ↓k4, ↓apply_ite P, ite_self]
    | split
    | refine (q1 _ _ _ _ _ _ _ _ (by assumption)).trans ?_
    | refine (q4 _ _ _ _ _ (by assumption)).trans ?_
    | refine (foldl_keeps P _ ?_ _ _).trans ?_
    | intro _ _

theorem multicastFrame_keeps {β : Type} (P : State → β) (h : ∀ (s : State) x0 x1 x2 x3 x4 x5 x6 x7 x8 x9 x10 x11 x12 x13 x14, P { s with now := x0, mono := x1, freeCtr := x2, out := x3, evt := x4, bkp := x5, rf := x6, lanes := x7, sectors := x8, duty := x9, camps := x10, slots := x11, keys := x12, slate := x13, life := x14 } = P s) :
    ∀ a0 a1 a2 s, P (multicastFrame a0 a1 a2 s) = P s := by
  have k0 := advTo_keeps P (fun s y0 y1 => h s y0 y1 s.freeCtr s.out s.evt s.bkp s.rf s.lanes s.sectors s.duty s.camps s.slots s.keys s.slate s.life)
  have k1 := sessionBegin_keeps P (fun s y0 y1 y2 => h s s.now s.mono s.freeCtr y0 y1 s.bkp s.rf s.lanes s.sectors s.duty y2 s.slots s.keys s.slate s.life)
  have k2 := sessionEnd_keeps P (fun s y0 y1 y2 => h s s.now s.mono s.freeCtr y0 y1 s.bkp s.rf s.lanes s.sectors s.duty y2 s.slots s.keys s.slate s.life)
  have k3 := sessionFrame_keeps P (fun s y0 y1 y2 y3 y4 y5 y6 y7 y8 y9 y10 y11 y12 y13 y14 => h s y0 y1 y2 y3 y4 y5 y6 y7 y8 y9 y10 y11 y12 y13 y14)
  have k4 := sessionVoid_keeps P (fun s y0 => h s s.now s.mono s.freeCtr s.out s.evt s.bkp s.rf s.lanes s.sectors s.duty y0 s.slots s.keys s.slate s.life)
  intro a0 a1 a2 s
  unfold multicastFrame
  try dsimp only
  repeat' first
    | with_reducible rfl
    | simp only [↓h, ↓k0, ↓k1, ↓k2, ↓k3, ↓k4, ↓apply_ite P, ite_self]
    | split
    | refine (foldl_keeps P _ ?_ _ _).trans ?_
    | intro _ _

theorem switchFbTimeout_keeps {β : Type} (P : State → β) (h : ∀ (s : State) x0 x1 x2 x3 x4 x5 x6 x7 x8 x9 x10 x11 x12 x13 x14 x15, P { s with now := x0, mono := x1, out := x2, mbxs := x3, ops := x4, evt := x5, bkp := x6, eps := x7, mem := x8, jnv := x9, jnl := x10, prov := x11, roots := x12, camps := x13, slate := x14, life := x15 } = P s) :
    ∀ a0 a1 s, P (switchFbTimeout a0 a1 s) = P s := by
  have k0 := advMono_keeps P (fun s y0 y1 => h s y0 y1 s.out s.mbxs s.ops s.evt s.bkp s.eps s.mem s.jnv s.jnl s.prov s.roots s.camps s.slate s.life)
  have k1 := commitOne_keeps P (fun s y0 y1 y2 y3 y4 y5 y6 => h s s.now s.mono y0 s.mbxs s.ops y1 s.bkp s.eps s.mem y2 y3 y4 y5 s.camps s.slate y6)
  have k2 := fbTake_keeps P (fun s y0 y1 y2 y3 y4 y5 y6 => h s s.now s.mono y0 s.mbxs s.ops y1 y2 y3 y4 s.jnv s.jnl s.prov s.roots y5 y6 s.life)
  have k3 := settle_keeps P (fun s y0 y1 y2 y3 y4 y5 y6 y7 y8 y9 y10 y11 => h s s.now s.mono y0 y1 y2 y3 y4 s.eps s.mem y5 y6 y7 y8 y9 y10 y11)
  intro a0 a1 s
  unfold switchFbTimeout
  try dsimp only
  repeat' first
    | with_reducible rfl
    | simp only [↓h, ↓k0, ↓k1, ↓k2, ↓k3, ↓apply_ite P, ite_self]
    | split
    | refine (foldl_keeps P _ ?_ _ _).trans ?_
    | intro _ _

theorem gateBack_keeps {β : Type} (P : State → β) (h : ∀ (s : State) x0 x1 x2 x3 x4 x5 x6 x7 x8 x9 x10 x11, P { s with out := x0, mbxs := x1, ops := x2, evt := x3, bkp := x4, jnv := x5, jnl := x6, prov := x7, roots := x8, camps := x9, slate := x10, life := x11 } = P s) :
    ∀ a0 a1 s, P (gateBack a0 a1 s) = P s := by
  have k0 := backToWaiting_keeps P (fun s y0 => h s s.out s.mbxs s.ops s.evt s.bkp s.jnv s.jnl s.prov s.roots y0 s.slate s.life)
  have k1 := waitEnd_keeps P (fun s y0 y1 y2 y3 y4 y5 y6 y7 y8 y9 y10 y11 => h s y0 y1 y2 y3 y4 y5 y6 y7 y8 y9 y10 y11)
  intro a0 a1 s
  unfold gateBack
  try dsimp only
  repeat' first
    | with_reducible rfl
    | simp only [↓h, ↓k0, ↓k1, ↓apply_ite P, ite_self]
    | split
    | refine (foldl_keeps P _ ?_ _ _).trans ?_
    | intro _ _

theorem endGateTxns_keeps {β : Type} (P : State → β) (h : ∀ (s : State) x0 x1 x2 x3 x4 x5 x6 x7 x8 x9 x10 x11 x12 x13 x14, P { s with freeCtr := x0, out := x1, mbxs := x2, ops := x3, evt := x4, bkp := x5, plc := x6, plcMac := x7, jnv := x8, jnl := x9, prov := x10, roots := x11, camps := x12, slate := x13, life := x14 } = P s) :
    ∀ s, P (endGateTxns s) = P s := by
  have k0 := gateBack_keeps P (fun s y0 y1 y2 y3 y4 y5 y6 y7 y8 y9 y10 y11 => h s s.freeCtr y0 y1 y2 y3 y4 s.plc s.plcMac y5 y6 y7 y8 y9 y10 y11)
  have k1 := leavePort_keeps P (fun s y0 y1 y2 => h s y0 s.out s.mbxs s.ops s.evt s.bkp y1 y2 s.jnv s.jnl s.prov s.roots s.camps s.slate s.life)
  have k2 := startRecals_keeps P (fun s y0 y1 y2 => h s s.freeCtr y0 s.mbxs s.ops y1 s.bkp y2 s.plcMac s.jnv s.jnl s.prov s.roots s.camps s.slate s.life)
  intro s
  unfold endGateTxns
  try dsimp only
  repeat' first
    | with_reducible rfl
    | simp only [↓h, ↓k0, ↓k1, ↓k2, ↓apply_ite P, ite_self]
    | split
    | refine (foldl_keeps P _ ?_ _ _).trans ?_
    | intro _ _

theorem gateRefuse_keeps {β : Type} (P : State → β) (h : ∀ (s : State) x0 x1 x2 x3 x4 x5 x6 x7 x8 x9 x10 x11 x12 x13 x14 x15 x16 x17 x18, P { s with freeCtr := x0, out := x1, mbxs := x2, ops := x3, evt := x4, bkp := x5, sectors := x6, plc := x7, plcMac := x8, eps := x9, mem := x10, jnv := x11, jnl := x12, prov := x13, roots := x14, camps := x15, slate := x16, life := x17, safe := x18 } = P s) :
    ∀ a0 s, P (gateRefuse a0 s) = P s := by
  have k0 := dropDue_keeps P (fun s y0 => h s s.freeCtr s.out s.mbxs s.ops s.evt s.bkp s.sectors s.plc s.plcMac s.eps s.mem s.jnv s.jnl s.prov s.roots s.camps s.slate s.life y0)
  have k1 := dropOpp_keeps P (fun s y0 => h s s.freeCtr s.out s.mbxs s.ops s.evt s.bkp y0 s.plc s.plcMac s.eps s.mem s.jnv s.jnl s.prov s.roots s.camps s.slate s.life s.safe)
  have k2 := endGateTxns_keeps P (fun s y0 y1 y2 y3 y4 y5 y6 y7 y8 y9 y10 y11 y12 y13 y14 => h s y0 y1 y2 y3 y4 y5 s.sectors y6 y7 s.eps s.mem y8 y9 y10 y11 y12 y13 y14 s.safe)
  have k3 := updEp_keeps P (fun s y0 y1 => h s s.freeCtr s.out s.mbxs s.ops s.evt s.bkp s.sectors s.plc s.plcMac y0 y1 s.jnv s.jnl s.prov s.roots s.camps s.slate s.life s.safe)
  intro a0 s
  unfold gateRefuse
  try dsimp only
  repeat' first
    | with_reducible rfl
    | simp only [↓h, ↓k0, ↓k1, ↓k2, ↓k3, ↓apply_ite P, ite_self]
    | split
    | refine (foldl_keeps P _ ?_ _ _).trans ?_
    | intro _ _

theorem gateOpen_keeps {β : Type} (P : State → β) (h : ∀ (s : State) x0 x1 x2 x3 x4 x5 x6 x7 x8 x9 x10 x11 x12 x13 x14 x15 x16, P { s with freeCtr := x0, out := x1, evt := x2, rf := x3, lanes := x4, sectors := x5, plc := x6, plcMac := x7, eps := x8, mem := x9, jnv := x10, jnl := x11, prov := x12, roots := x13, camps := x14, life := x15, safe := x16 } = P s) :
    ∀ a0 a1 s, P (gateOpen a0 a1 s) = P s := by
  have k0 := commitOne_keeps P (fun s y0 y1 y2 y3 y4 y5 y6 => h s s.freeCtr y0 y1 s.rf s.lanes s.sectors s.plc s.plcMac s.eps s.mem y2 y3 y4 y5 s.camps y6 s.safe)
  have k1 := dropDue_keeps P (fun s y0 => h s s.freeCtr s.out s.evt s.rf s.lanes s.sectors s.plc s.plcMac s.eps s.mem s.jnv s.jnl s.prov s.roots s.camps s.life y0)
  have k2 := dropOpp_keeps P (fun s y0 => h s s.freeCtr s.out s.evt s.rf s.lanes y0 s.plc s.plcMac s.eps s.mem s.jnv s.jnl s.prov s.roots s.camps s.life s.safe)
  have k3 := markSent_keeps P (fun s y0 => h s s.freeCtr s.out s.evt s.rf s.lanes s.sectors s.plc s.plcMac s.eps s.mem s.jnv s.jnl s.prov s.roots y0 s.life s.safe)
  have k4 := plcTransmit_keeps P (fun s y0 y1 y2 => h s s.freeCtr y0 s.evt s.rf s.lanes s.sectors y1 y2 s.eps s.mem s.jnv s.jnl s.prov s.roots s.camps s.life s.safe)
  have k5 := startTx_keeps P (fun s y0 y1 y2 y3 y4 => h s y0 y1 s.evt y2 y3 y4 s.plc s.plcMac s.eps s.mem s.jnv s.jnl s.prov s.roots s.camps s.life s.safe)
  have k6 := updEp_keeps P (fun s y0 y1 => h s s.freeCtr s.out s.evt s.rf s.lanes s.sectors s.plc s.plcMac y0 y1 s.jnv s.jnl s.prov s.roots s.camps s.life s.safe)
  have k7 := updTgt_keeps P (fun s y0 => h s s.freeCtr s.out s.evt s.rf s.lanes s.sectors s.plc s.plcMac s.eps s.mem s.jnv s.jnl s.prov s.roots y0 s.life s.safe)
  intro a0 a1 s
  unfold gateOpen
  try dsimp only
  repeat' first
    | with_reducible rfl
    | simp only [↓h, ↓k0, ↓k1, ↓k2, ↓k3, ↓k4, ↓k5, ↓k6, ↓k7, ↓apply_ite P, ite_self]
    | split
    | refine (foldl_keeps P _ ?_ _ _).trans ?_
    | intro _ _

theorem gateRelease_keeps {β : Type} (P : State → β) (h : ∀ (s : State) x0 x1 x2 x3 x4 x5 x6 x7 x8 x9 x10 x11 x12 x13 x14 x15 x16 x17 x18 x19 x20 x21, P { s with freeCtr := x0, out := x1, mbxs := x2, ops := x3, evt := x4, bkp := x5, rf := x6, lanes := x7, sectors := x8, plc := x9, plcMac := x10, eps := x11, mem := x12, jnv := x13, jnl := x14, prov := x15, roots := x16, camps := x17, slate := x18, life := x19, safe := x20, faultTimes := x21 } = P s) :
    ∀ a0 a1 s, P (gateRelease a0 a1 s) = P s := by
  have k0 := endGateTxns_keeps P (fun s y0 y1 y2 y3 y4 y5 y6 y7 y8 y9 y10 y11 y12 y13 y14 => h s y0 y1 y2 y3 y4 y5 s.rf s.lanes s.sectors y6 y7 s.eps s.mem y8 y9 y10 y11 y12 y13 y14 s.safe s.faultTimes)
  have k1 := gateOpen_keeps P (fun s y0 y1 y2 y3 y4 y5 y6 y7 y8 y9 y10 y11 y12 y13 y14 y15 y16 => h s y0 y1 s.mbxs s.ops y2 s.bkp y3 y4 y5 y6 y7 y8 y9 y10 y11 y12 y13 y14 s.slate y15 y16 s.faultTimes)
  have k2 := gateRefuse_keeps P (fun s y0 y1 y2 y3 y4 y5 y6 y7 y8 y9 y10 y11 y12 y13 y14 y15 y16 y17 y18 => h s y0 y1 y2 y3 y4 y5 s.rf s.lanes y6 y7 y8 y9 y10 y11 y12 y13 y14 y15 y16 y17 y18 s.faultTimes)
  have k3 := safetyFault_keeps P (fun s y0 y1 y2 y3 y4 y5 => h s s.freeCtr y0 s.mbxs s.ops y1 y2 s.rf s.lanes s.sectors s.plc s.plcMac s.eps s.mem s.jnv s.jnl s.prov s.roots s.camps y3 s.life y4 y5)
  intro a0 a1 s
  unfold gateRelease
  try dsimp only
  repeat' first
    | with_reducible rfl
    | simp only [↓h, ↓k0, ↓k1, ↓k2, ↓k3, ↓apply_ite P, ite_self]
    | split
    | refine (foldl_keeps P _ ?_ _ _).trans ?_
    | intro _ _

end Sys2Proof.Machine
end

