-- ==== Sys2Proof/Laws/KeepFences.lean ====
section
/-! SUPPORT. What the functions of Machine/Fences.lean leave unchanged. -/

set_option linter.unusedSimpArgs false
set_option linter.unreachableTactic false
set_option linter.unusedTactic false

namespace Sys2Proof.Machine

theorem setDir_keeps {β : Type} (P : State → β) (h : ∀ (s : State) x0, P { s with links := x0 } = P s) :
    ∀ a0 a1 s, P (setDir a0 a1 s) = P s := by
  intro a0 a1 s
  unfold setDir
  try dsimp only
  repeat' first
    | with_reducible rfl
    | simp only [↓h, ↓apply_ite P, ite_self]
    | split
    | refine (foldl_keeps P _ ?_ _ _).trans ?_
    | intro _ _

theorem flitTransfer_keeps {β : Type} (P : State → β) (h : ∀ (s : State) x0, P { s with links := x0 } = P s) :
    ∀ a0 s, P (flitTransfer a0 s) = P s := by
  have k0 := setDir_keeps P (fun s y0 => h s y0)
  intro a0 s
  unfold flitTransfer
  try dsimp only
  repeat' first
    | with_reducible rfl
    | simp only [↓h, ↓k0, ↓apply_ite P, ite_self]
    | split
    | refine (foldl_keeps P _ ?_ _ _).trans ?_
    | intro _ _

theorem fenceIsl_keeps {β : Type} (P : State → β) (h : ∀ (s : State) x0, P { s with links := x0 } = P s) :
    ∀ a0 s, P (fenceIsl a0 s) = P s := by
  have k0 := setDir_keeps P (fun s y0 => h s y0)
  intro a0 s
  unfold fenceIsl
  try dsimp only
  repeat' first
    | with_reducible rfl
    | simp only [↓h, ↓k0, ↓apply_ite P, ite_self]
    | split
    | refine (foldl_keeps P _ ?_ _ _).trans ?_
    | intro _ _

theorem enterReset_keeps {β : Type} (P : State → β) (h : ∀ (s : State) x0 x1 x2, P { s with out := x0, isl := x1, links := x2 } = P s) :
    ∀ a0 s, P (enterReset a0 s) = P s := by
  have k0 := setDir_keeps P (fun s y0 => h s s.out s.isl y0)
  have k1 := setIsl_keeps P (fun s y0 => h s s.out y0 s.links)
  intro a0 s
  unfold enterReset
  try dsimp only
  repeat' first
    | with_reducible rfl
    | simp only [↓h, ↓k0, ↓k1, ↓apply_ite P, ite_self]
    | split
    | refine (foldl_keeps P _ ?_ _ _).trans ?_
    | intro _ _

theorem holdIsland_keeps {β : Type} (P : State → β) (h : ∀ (s : State) x0 x1 x2, P { s with out := x0, isl := x1, links := x2 } = P s) :
    ∀ a0 s, P (holdIsland a0 s) = P s := by
  have k0 := enterReset_keeps P (fun s y0 y1 y2 => h s y0 y1 y2)
  have k1 := fenceIsl_keeps P (fun s y0 => h s s.out s.isl y0)
  have k2 := setIsl_keeps P (fun s y0 => h s s.out y0 s.links)
  intro a0 s
  unfold holdIsland
  try dsimp only
  repeat' first
    | with_reducible rfl
    | simp only [↓h, ↓k0, ↓k1, ↓k2, ↓apply_ite P, ite_self]
    | split
    | refine (foldl_keeps P _ ?_ _ _).trans ?_
    | intro _ _

theorem liftFences_keeps {β : Type} (P : State → β) (h : ∀ (s : State) x0, P { s with links := x0 } = P s) :
    ∀ a0 s, P (liftFences a0 s) = P s := by
  intro a0 s
  unfold liftFences
  try dsimp only
  repeat' first
    | with_reducible rfl
    | simp only [↓h, ↓apply_ite P, ite_self]
    | split
    | refine (foldl_keeps P _ ?_ _ _).trans ?_
    | intro _ _

theorem creditReturn_keeps {β : Type} (P : State → β) (h : ∀ (s : State) x0 x1 x2, P { s with out := x0, isl := x1, links := x2 } = P s) :
    ∀ a0 s, P (creditReturn a0 s) = P s := by
  have k0 := enterReset_keeps P (fun s y0 y1 y2 => h s y0 y1 y2)
  have k1 := setDir_keeps P (fun s y0 => h s s.out s.isl y0)
  intro a0 s
  unfold creditReturn
  try dsimp only
  repeat' first
    | with_reducible rfl
    | simp only [↓h, ↓k0, ↓k1, ↓apply_ite P, ite_self]
    | split
    | refine (foldl_keeps P _ ?_ _ _).trans ?_
    | intro _ _

theorem fenceWaitExpiry_keeps {β : Type} (P : State → β) (h : ∀ (s : State) x0 x1 x2 x3 x4 x5 x6 x7, P { s with now := x0, mono := x1, out := x2, evt := x3, isl := x4, links := x5, bkp := x6, slate := x7 } = P s) :
    ∀ a0 s, P (fenceWaitExpiry a0 s) = P s := by
  have k0 := advMono_keeps P (fun s y0 y1 => h s y0 y1 s.out s.evt s.isl s.links s.bkp s.slate)
  have k1 := enterReset_keeps P (fun s y0 y1 y2 => h s s.now s.mono y0 s.evt y1 y2 s.bkp s.slate)
  have k2 := record_keeps P (fun s y0 y1 y2 y3 => h s s.now s.mono y0 y1 s.isl s.links y2 y3)
  have k3 := setDir_keeps P (fun s y0 => h s s.now s.mono s.out s.evt s.isl y0 s.bkp s.slate)
  intro a0 s
  unfold fenceWaitExpiry
  try dsimp only
  repeat' first
    | with_reducible rfl
    | simp only [↓h, ↓k0, ↓k1, ↓k2, ↓k3, ↓apply_ite P, ite_self]
    | split
    | refine (foldl_keeps P _ ?_ _ _).trans ?_
    | intro _ _

end Sys2Proof.Machine
end

