-- ==== Sys2Proof/Laws/KeepRotation.lean ====
section
/-! SUPPORT. What the functions of Machine/Rotation.lean leave unchanged. -/

set_option linter.unusedSimpArgs false
set_option linter.unreachableTactic false
set_option linter.unusedTactic false

namespace Sys2Proof.Machine

theorem setRole_keeps {β : Type} (P : State → β) (h : ∀ (s : State) x0, P { s with roles := x0 } = P s) :
    ∀ a0 a1 s, P (setRole a0 a1 s) = P s := by
  intro a0 a1 s
  unfold setRole
  try dsimp only
  repeat' first
    | with_reducible rfl
    | simp only [↓h, ↓apply_ite P, ite_self]
    | split
    | refine (foldl_keeps P _ ?_ _ _).trans ?_
    | intro _ _

theorem fillLanes_keeps {β : Type} (P : State → β) (h : ∀ (s : State) x0, P { s with roles := x0 } = P s) :
    ∀ s, P (fillLanes s) = P s := by
  have k0 := setRole_keeps P (fun s y0 => h s y0)
  intro s
  unfold fillLanes
  try dsimp only
  repeat' first
    | with_reducible rfl
    | simp only [↓h, ↓k0, ↓apply_ite P, ite_self]
    | split
    | refine (foldl_keeps P _ ?_ _ _).trans ?_
    | intro _ _

theorem recount_keeps {β : Type} (P : State → β) (h : ∀ (s : State) x0 x1 x2 x3 x4 x5 x6 x7 x8 x9 x10, P { s with freeCtr := x0, out := x1, mbxs := x2, ops := x3, evt := x4, bkp := x5, lanes := x6, laneCount := x7, roles := x8, rot := x9, slate := x10 } = P s) :
    ∀ s, P (recount s) = P s := by
  have k0 := fillLanes_keeps P (fun s y0 => h s s.freeCtr s.out s.mbxs s.ops s.evt s.bkp s.lanes s.laneCount y0 s.rot s.slate)
  have k1 := raiseIf_keeps P (fun s y0 y1 => h s s.freeCtr y0 s.mbxs s.ops y1 s.bkp s.lanes s.laneCount s.roles s.rot s.slate)
  have k2 := withdrawLanes_keeps P (fun s y0 y1 y2 y3 y4 y5 y6 y7 y8 y9 y10 => h s y0 y1 y2 y3 y4 y5 y6 y7 y8 y9 y10)
  intro s
  unfold recount
  try dsimp only
  repeat' first
    | with_reducible rfl
    | simp only [↓h, ↓k0, ↓k1, ↓k2, ↓apply_ite P, ite_self]
    | split
    | refine (foldl_keeps P _ ?_ _ _).trans ?_
    | intro _ _

theorem excludeLane_keeps {β : Type} (P : State → β) (h : ∀ (s : State) x0 x1 x2 x3 x4 x5 x6 x7 x8 x9 x10 x11, P { s with freeCtr := x0, out := x1, mbxs := x2, ops := x3, evt := x4, bkp := x5, lanes := x6, laneCount := x7, roles := x8, rot := x9, slate := x10, life := x11 } = P s) :
    ∀ a0 s, P (excludeLane a0 s) = P s := by
  have k0 := addRepair_keeps P (fun s y0 => h s s.freeCtr s.out s.mbxs s.ops s.evt s.bkp s.lanes s.laneCount s.roles s.rot s.slate y0)
  have k1 := raise_keeps P (fun s y0 y1 => h s s.freeCtr y0 s.mbxs s.ops y1 s.bkp s.lanes s.laneCount s.roles s.rot s.slate s.life)
  have k2 := recount_keeps P (fun s y0 y1 y2 y3 y4 y5 y6 y7 y8 y9 y10 => h s y0 y1 y2 y3 y4 y5 y6 y7 y8 y9 y10 s.life)
  have k3 := setRole_keeps P (fun s y0 => h s s.freeCtr s.out s.mbxs s.ops s.evt s.bkp s.lanes s.laneCount y0 s.rot s.slate s.life)
  intro a0 s
  unfold excludeLane
  try dsimp only
  repeat' first
    | with_reducible rfl
    | simp only [↓h, ↓k0, ↓k1, ↓k2, ↓k3, ↓apply_ite P, ite_self]
    | split
    | refine (foldl_keeps P _ ?_ _ _).trans ?_
    | intro _ _

theorem dropPorts_keeps {β : Type} (P : State → β) (h : ∀ (s : State) x0 x1, P { s with rf := x0, plc := x1 } = P s) :
    ∀ a0 s, P (dropPorts a0 s) = P s := by
  have k0 := setPlc_keeps P (fun s y0 => h s s.rf y0)
  have k1 := setRf_keeps P (fun s y0 => h s y0 s.plc)
  intro a0 s
  unfold dropPorts
  try dsimp only
  repeat' first
    | with_reducible rfl
    | simp only [↓h, ↓k0, ↓k1, ↓apply_ite P, ite_self]
    | split
    | refine (foldl_keeps P _ ?_ _ _).trans ?_
    | intro _ _

theorem excludeIsland_keeps {β : Type} (P : State → β) (h : ∀ (s : State) x0 x1 x2 x3 x4 x5 x6 x7 x8 x9 x10 x11 x12 x13 x14 x15, P { s with freeCtr := x0, out := x1, mbxs := x2, ops := x3, evt := x4, isl := x5, links := x6, bkp := x7, rf := x8, lanes := x9, laneCount := x10, roles := x11, rot := x12, plc := x13, slate := x14, life := x15 } = P s) :
    ∀ a0 a1 a2 s, P (excludeIsland a0 a1 a2 s) = P s := by
  have k0 := addRepair_keeps P (fun s y0 => h s s.freeCtr s.out s.mbxs s.ops s.evt s.isl s.links s.bkp s.rf s.lanes s.laneCount s.roles s.rot s.plc s.slate y0)
  have k1 := dropPorts_keeps P (fun s y0 y1 => h s s.freeCtr s.out s.mbxs s.ops s.evt s.isl s.links s.bkp y0 s.lanes s.laneCount s.roles s.rot y1 s.slate s.life)
  have k2 := holdIsland_keeps P (fun s y0 y1 y2 => h s s.freeCtr y0 s.mbxs s.ops s.evt y1 y2 s.bkp s.rf s.lanes s.laneCount s.roles s.rot s.plc s.slate s.life)
  have k3 := islandFault_keeps P (fun s y0 y1 y2 => h s s.freeCtr y0 s.mbxs s.ops y1 y2 s.links s.bkp s.rf s.lanes s.laneCount s.roles s.rot s.plc s.slate s.life)
  have k4 := raise_keeps P (fun s y0 y1 => h s s.freeCtr y0 s.mbxs s.ops y1 s.isl s.links s.bkp s.rf s.lanes s.laneCount s.roles s.rot s.plc s.slate s.life)
  have k5 := recount_keeps P (fun s y0 y1 y2 y3 y4 y5 y6 y7 y8 y9 y10 => h s y0 y1 y2 y3 y4 s.isl s.links y5 s.rf y6 y7 y8 y9 s.plc y10 s.life)
  have k6 := setIsl_keeps P (fun s y0 => h s s.freeCtr s.out s.mbxs s.ops s.evt y0 s.links s.bkp s.rf s.lanes s.laneCount s.roles s.rot s.plc s.slate s.life)
  have k7 := setRole_keeps P (fun s y0 => h s s.freeCtr s.out s.mbxs s.ops s.evt s.isl s.links s.bkp s.rf s.lanes s.laneCount y0 s.rot s.plc s.slate s.life)
  intro a0 a1 a2 s
  unfold excludeIsland
  try dsimp only
  repeat' first
    | with_reducible rfl
    | simp only [↓h, ↓k0, ↓k1, ↓k2, ↓k3, ↓k4, ↓k5, ↓k6, ↓k7, ↓apply_ite P, ite_self]
    | split
    | refine (foldl_keeps P _ ?_ _ _).trans ?_
    | intro _ _

theorem startShadow_keeps {β : Type} (P : State → β) (h : ∀ (s : State) x0 x1, P { s with roles := x0, rot := x1 } = P s) :
    ∀ a0 a1 s, P (startShadow a0 a1 s) = P s := by
  have k0 := setRole_keeps P (fun s y0 => h s y0 s.rot)
  intro a0 a1 s
  unfold startShadow
  try dsimp only
  repeat' first
    | with_reducible rfl
    | simp only [↓h, ↓k0, ↓apply_ite P, ite_self]
    | split
    | refine (foldl_keeps P _ ?_ _ _).trans ?_
    | intro _ _

theorem stepOver_keeps {β : Type} (P : State → β) (h : ∀ (s : State) x0 x1, P { s with rot := x0, maint := x1 } = P s) :
    ∀ s, P (stepOver s) = P s := by
  have k0 := dropToken_keeps P (fun s y0 => h s s.rot y0)
  intro s
  unfold stepOver
  try dsimp only
  repeat' first
    | with_reducible rfl
    | simp only [↓h, ↓k0, ↓apply_ite P, ite_self]
    | split
    | refine (foldl_keeps P _ ?_ _ _).trans ?_
    | intro _ _

theorem rotationStep_keeps {β : Type} (P : State → β) (h : ∀ (s : State) x0 x1 x2 x3 x4 x5, P { s with now := x0, mono := x1, freeCtr := x2, roles := x3, rot := x4, maint := x5 } = P s) :
    ∀ s, P (rotationStep s) = P s := by
  have k0 := askToken_keeps P (fun s y0 => h s s.now s.mono s.freeCtr s.roles s.rot y0)
  have k1 := pacedAt_keeps P (fun s y0 y1 y2 => h s y0 y1 y2 s.roles s.rot s.maint)
  have k2 := setRole_keeps P (fun s y0 => h s s.now s.mono s.freeCtr y0 s.rot s.maint)
  have k3 := startShadow_keeps P (fun s y0 y1 => h s s.now s.mono s.freeCtr y0 y1 s.maint)
  have k4 := stepOver_keeps P (fun s y0 y1 => h s s.now s.mono s.freeCtr s.roles y0 y1)
  intro s
  unfold rotationStep
  try dsimp only
  repeat' first
    | with_reducible rfl
    | simp only [↓h, ↓k0, ↓k1, ↓k2, ↓k3, ↓k4, ↓apply_ite P, ite_self]
    | split
    | refine (foldl_keeps P _ ?_ _ _).trans ?_
    | intro _ _

theorem rotationHandover_keeps {β : Type} (P : State → β) (h : ∀ (s : State) x0 x1 x2 x3, P { s with now := x0, mono := x1, roles := x2, rot := x3 } = P s) :
    ∀ s, P (rotationHandover s) = P s := by
  have k0 := advMono_keeps P (fun s y0 y1 => h s y0 y1 s.roles s.rot)
  have k1 := setRole_keeps P (fun s y0 => h s s.now s.mono y0 s.rot)
  intro s
  unfold rotationHandover
  try dsimp only
  repeat' first
    | with_reducible rfl
    | simp only [↓h, ↓k0, ↓k1, ↓apply_ite P, ite_self]
    | split
    | refine (foldl_keeps P _ ?_ _ _).trans ?_
    | intro _ _

theorem stepDone_keeps {β : Type} (P : State → β) (h : ∀ (s : State) x0 x1, P { s with rot := x0, maint := x1 } = P s) :
    ∀ a0 s, P (stepDone a0 s) = P s := by
  have k0 := stepOver_keeps P (fun s y0 y1 => h s y0 y1)
  intro a0 s
  unfold stepDone
  try dsimp only
  repeat' first
    | with_reducible rfl
    | simp only [↓h, ↓k0, ↓apply_ite P, ite_self]
    | split
    | refine (foldl_keeps P _ ?_ _ _).trans ?_
    | intro _ _

theorem laneTestEnd_keeps {β : Type} (P : State → β) (h : ∀ (s : State) x0 x1 x2 x3 x4 x5 x6 x7 x8 x9 x10 x11 x12, P { s with freeCtr := x0, out := x1, mbxs := x2, ops := x3, evt := x4, bkp := x5, lanes := x6, laneCount := x7, roles := x8, rot := x9, slate := x10, life := x11, maint := x12 } = P s) :
    ∀ a0 s, P (laneTestEnd a0 s) = P s := by
  have k0 := excludeLane_keeps P (fun s y0 y1 y2 y3 y4 y5 y6 y7 y8 y9 y10 y11 => h s y0 y1 y2 y3 y4 y5 y6 y7 y8 y9 y10 y11 s.maint)
  have k1 := fillLanes_keeps P (fun s y0 => h s s.freeCtr s.out s.mbxs s.ops s.evt s.bkp s.lanes s.laneCount y0 s.rot s.slate s.life s.maint)
  have k2 := setRole_keeps P (fun s y0 => h s s.freeCtr s.out s.mbxs s.ops s.evt s.bkp s.lanes s.laneCount y0 s.rot s.slate s.life s.maint)
  have k3 := stepDone_keeps P (fun s y0 y1 => h s s.freeCtr s.out s.mbxs s.ops s.evt s.bkp s.lanes s.laneCount s.roles y0 s.slate s.life y1)
  intro a0 s
  unfold laneTestEnd
  try dsimp only
  repeat' first
    | with_reducible rfl
    | simp only [↓h, ↓k0, ↓k1, ↓k2, ↓k3, ↓apply_ite P, ite_self]
    | split
    | refine (foldl_keeps P _ ?_ _ _).trans ?_
    | intro _ _

theorem rotationLate_keeps {β : Type} (P : State → β) (h : ∀ (s : State) x0 x1 x2 x3 x4, P { s with now := x0, mono := x1, out := x2, evt := x3, rot := x4 } = P s) :
    ∀ a0 s, P (rotationLate a0 s) = P s := by
  have k0 := advMono_keeps P (fun s y0 y1 => h s y0 y1 s.out s.evt s.rot)
  have k1 := raise_keeps P (fun s y0 y1 => h s s.now s.mono y0 y1 s.rot)
  intro a0 s
  unfold rotationLate
  try dsimp only
  repeat' first
    | with_reducible rfl
    | simp only [↓h, ↓k0, ↓k1, ↓apply_ite P, ite_self]
    | split
    | refine (foldl_keeps P _ ?_ _ _).trans ?_
    | intro _ _

theorem laneIslandDown_keeps {β : Type} (P : State → β) (h : ∀ (s : State) x0 x1 x2 x3, P { s with lanes := x0, roles := x1, rot := x2, maint := x3 } = P s) :
    ∀ a0 s, P (laneIslandDown a0 s) = P s := by
  have k0 := fillLanes_keeps P (fun s y0 => h s s.lanes y0 s.rot s.maint)
  have k1 := setLane_keeps P (fun s y0 => h s y0 s.roles s.rot s.maint)
  have k2 := setRole_keeps P (fun s y0 => h s s.lanes y0 s.rot s.maint)
  have k3 := stepOver_keeps P (fun s y0 y1 => h s s.lanes s.roles y0 y1)
  intro a0 s
  unfold laneIslandDown
  try dsimp only
  repeat' first
    | with_reducible rfl
    | simp only [↓h, ↓k0, ↓k1, ↓k2, ↓k3, ↓apply_ite P, ite_self]
    | split
    | refine (foldl_keeps P _ ?_ _ _).trans ?_
    | intro _ _

theorem laneIslandUp_keeps {β : Type} (P : State → β) (h : ∀ (s : State) x0, P { s with roles := x0 } = P s) :
    ∀ a0 s, P (laneIslandUp a0 s) = P s := by
  have k0 := fillLanes_keeps P (fun s y0 => h s y0)
  have k1 := setRole_keeps P (fun s y0 => h s y0)
  intro a0 s
  unfold laneIslandUp
  try dsimp only
  repeat' first
    | with_reducible rfl
    | simp only [↓h, ↓k0, ↓k1, ↓apply_ite P, ite_self]
    | split
    | refine (foldl_keeps P _ ?_ _ _).trans ?_
    | intro _ _

theorem addSramRepairs_keeps {β : Type} (P : State → β) (h : ∀ (s : State) x0, P { s with life := x0 } = P s) :
    ∀ a0 s, P (addSramRepairs a0 s) = P s := by
  have k0 := addRepair_keeps P (fun s y0 => h s y0)
  intro a0 s
  unfold addSramRepairs
  try dsimp only
  repeat' first
    | with_reducible rfl
    | simp only [↓h, ↓k0, ↓apply_ite P, ite_self]
    | split
    | refine (foldl_keeps P _ ?_ _ _).trans ?_
    | intro _ _

theorem islandBistEnd_keeps {β : Type} (P : State → β) (h : ∀ (s : State) x0 x1 x2 x3 x4 x5 x6 x7 x8 x9 x10 x11 x12 x13 x14 x15, P { s with freeCtr := x0, out := x1, mbxs := x2, ops := x3, evt := x4, isl := x5, links := x6, bkp := x7, rf := x8, lanes := x9, laneCount := x10, roles := x11, rot := x12, plc := x13, slate := x14, life := x15 } = P s) :
    ∀ a0 a1 a2 s, P (islandBistEnd a0 a1 a2 s) = P s := by
  have k0 := addSramRepairs_keeps P (fun s y0 => h s s.freeCtr s.out s.mbxs s.ops s.evt s.isl s.links s.bkp s.rf s.lanes s.laneCount s.roles s.rot s.plc s.slate y0)
  have k1 := excludeIsland_keeps P (fun s y0 y1 y2 y3 y4 y5 y6 y7 y8 y9 y10 y11 y12 y13 y14 y15 => h s y0 y1 y2 y3 y4 y5 y6 y7 y8 y9 y10 y11 y12 y13 y14 y15)
  have k2 := laneIslandUp_keeps P (fun s y0 => h s s.freeCtr s.out s.mbxs s.ops s.evt s.isl s.links s.bkp s.rf s.lanes s.laneCount y0 s.rot s.plc s.slate s.life)
  have k3 := setIsl_keeps P (fun s y0 => h s s.freeCtr s.out s.mbxs s.ops s.evt y0 s.links s.bkp s.rf s.lanes s.laneCount s.roles s.rot s.plc s.slate s.life)
  have k4 := startCal_keeps P (fun s y0 y1 y2 => h s s.freeCtr y0 s.mbxs s.ops y1 s.isl s.links s.bkp s.rf s.lanes s.laneCount s.roles s.rot y2 s.slate s.life)
  intro a0 a1 a2 s
  unfold islandBistEnd
  try dsimp only
  repeat' first
    | with_reducible rfl
    | simp only [↓h, ↓k0, ↓k1, ↓k2, ↓k3, ↓k4, ↓apply_ite P, ite_self]
    | split
    | refine (foldl_keeps P _ ?_ _ _).trans ?_
    | intro _ _

theorem laneMapGet_keeps {β : Type} (P : State → β) :
    ∀ a0 s, P (laneMapGet a0 s).st = P s := by
  have k0 := refuse_keeps P
  have k1 := replyOk_keeps P
  intro a0 s
  unfold laneMapGet
  try dsimp only
  repeat' first
    | with_reducible rfl
    | simp only [↓k0, ↓k1, ↓apply_ite P, ite_self, Reply.st_done, Reply.st_pend, Reply.st_twice, Reply.st_wait, replyOk_st, refuse_st]
    | split
    | refine (foldl_keeps P _ ?_ _ _).trans ?_
    | intro _ _

theorem repairLedgerGet_keeps {β : Type} (P : State → β) :
    ∀ a0 s, P (repairLedgerGet a0 s).st = P s := by
  have k0 := refuse_keeps P
  have k1 := replyOk_keeps P
  intro a0 s
  unfold repairLedgerGet
  try dsimp only
  repeat' first
    | with_reducible rfl
    | simp only [↓k0, ↓k1, ↓apply_ite P, ite_self, Reply.st_done, Reply.st_pend, Reply.st_twice, Reply.st_wait, replyOk_st, refuse_st]
    | split
    | refine (foldl_keeps P _ ?_ _ _).trans ?_
    | intro _ _

end Sys2Proof.Machine
end

