-- ==== Sys2Proof/Laws/KeepReset.lean ====
section
/-! SUPPORT. What the functions of Machine/Reset.lean leave unchanged. -/

set_option linter.unusedSimpArgs false
set_option linter.unreachableTactic false
set_option linter.unusedTactic false

namespace Sys2Proof.Machine

theorem latchCause_keeps {β : Type} (P : State → β) (h : ∀ (s : State) x0, P { s with boot := x0 } = P s) :
    ∀ a0 s, P (latchCause a0 s) = P s := by
  intro a0 s
  unfold latchCause
  try dsimp only
  repeat' first
    | with_reducible rfl
    | simp only [↓h, ↓apply_ite P, ite_self]
    | split
    | refine (foldl_keeps P _ ?_ _ _).trans ?_
    | intro _ _

theorem fenceAll_keeps {β : Type} (P : State → β) (h : ∀ (s : State) x0, P { s with links := x0 } = P s) :
    ∀ s, P (fenceAll s) = P s := by
  intro s
  unfold fenceAll
  try dsimp only
  repeat' first
    | with_reducible rfl
    | simp only [↓h, ↓apply_ite P, ite_self]
    | split
    | refine (foldl_keeps P _ ?_ _ _).trans ?_
    | intro _ _

theorem holdAll_keeps {β : Type} (P : State → β) (h : ∀ (s : State) x0 x1 x2, P { s with out := x0, isl := x1, links := x2 } = P s) :
    ∀ a0 a1 s, P (holdAll a0 a1 s) = P s := by
  have k0 := enterReset_keeps P (fun s y0 y1 y2 => h s y0 y1 y2)
  have k1 := fenceAll_keeps P (fun s y0 => h s s.out s.isl y0)
  intro a0 a1 s
  unfold holdAll
  try dsimp only
  repeat' first
    | with_reducible rfl
    | simp only [↓h, ↓k0, ↓k1, ↓apply_ite P, ite_self]
    | split
    | refine (foldl_keeps P _ ?_ _ _).trans ?_
    | intro _ _

theorem resetMain_keeps {β : Type} (P : State → β) (h : ∀ (s : State) x0 x1 x2 x3 x4 x5 x6 x7 x8 x9 x10 x11 x12 x13 x14 x15 x16 x17 x18 x19 x20 x21 x22 x23 x24 x25 x26 x27 x28 x29 x30 x31 x32 x33 x34 x35 x36 x37 x38 x39 x40 x41 x42 x43 x44, P { s with timeLoaded := x0, trustSeen := x1, out := x2, cfg := x3, mbxs := x4, rrNext := x5, ops := x6, evt := x7, glb := x8, mir := x9, isl := x10, links := x11, boot := x12, pcie := x13, mon := x14, bkp := x15, rf := x16, lanes := x17, laneCount := x18, roles := x19, rot := x20, sectors := x21, duty := x22, plc := x23, plcMac := x24, dir := x25, eps := x26, blobs := x27, mem := x28, xlate := x29, chans := x30, jnl := x31, prov := x32, ledger := x33, bal := x34, camps := x35, confUnmatched := x36, slots := x37, keys := x38, slate := x39, life := x40, fw := x41, safe := x42, faultTimes := x43, maint := x44 } = P s) :
    ∀ a0 s, P (resetMain a0 s) = P s := by
  have k0 := expireSlots_keeps P (fun s y0 y1 y2 y3 y4 y5 y6 => h s s.timeLoaded s.trustSeen y0 s.cfg s.mbxs s.rrNext s.ops y1 s.glb s.mir s.isl s.links s.boot s.pcie s.mon y2 s.rf s.lanes s.laneCount s.roles s.rot s.sectors s.duty s.plc s.plcMac s.dir s.eps s.blobs s.mem s.xlate s.chans s.jnl s.prov s.ledger s.bal s.camps s.confUnmatched y3 y4 y5 y6 s.fw s.safe s.faultTimes s.maint)
  have k1 := holdAll_keeps P (fun s y0 y1 y2 => h s s.timeLoaded s.trustSeen y0 s.cfg s.mbxs s.rrNext s.ops s.evt s.glb s.mir y1 y2 s.boot s.pcie s.mon s.bkp s.rf s.lanes s.laneCount s.roles s.rot s.sectors s.duty s.plc s.plcMac s.dir s.eps s.blobs s.mem s.xlate s.chans s.jnl s.prov s.ledger s.bal s.camps s.confUnmatched s.slots s.keys s.slate s.life s.fw s.safe s.faultTimes s.maint)
  intro a0 s
  unfold resetMain
  try dsimp only
  repeat' first
    | with_reducible rfl
    | simp only [↓h, ↓k0, ↓k1, ↓apply_ite P, ite_self]
    | split
    | refine (foldl_keeps P _ ?_ _ _).trans ?_
    | intro _ _

theorem coldAssert_keeps {β : Type} (P : State → β) (h : ∀ (s : State) x0 x1 x2 x3 x4 x5 x6 x7 x8 x9 x10 x11 x12 x13 x14 x15 x16 x17 x18 x19 x20 x21 x22 x23 x24 x25 x26 x27 x28 x29 x30 x31 x32 x33 x34 x35 x36 x37 x38 x39 x40 x41 x42 x43 x44, P { s with timeLoaded := x0, trustSeen := x1, out := x2, cfg := x3, mbxs := x4, rrNext := x5, ops := x6, evt := x7, glb := x8, mir := x9, isl := x10, links := x11, boot := x12, pcie := x13, mon := x14, bkp := x15, rf := x16, lanes := x17, laneCount := x18, roles := x19, rot := x20, sectors := x21, duty := x22, plc := x23, plcMac := x24, dir := x25, eps := x26, blobs := x27, mem := x28, xlate := x29, chans := x30, jnl := x31, prov := x32, ledger := x33, bal := x34, camps := x35, confUnmatched := x36, slots := x37, keys := x38, slate := x39, life := x40, fw := x41, safe := x42, faultTimes := x43, maint := x44 } = P s) :
    ∀ a0 s, P (coldAssert a0 s) = P s := by
  have k0 := resetMain_keeps P (fun s y0 y1 y2 y3 y4 y5 y6 y7 y8 y9 y10 y11 y12 y13 y14 y15 y16 y17 y18 y19 y20 y21 y22 y23 y24 y25 y26 y27 y28 y29 y30 y31 y32 y33 y34 y35 y36 y37 y38 y39 y40 y41 y42 y43 y44 => h s y0 y1 y2 y3 y4 y5 y6 y7 y8 y9 y10 y11 y12 y13 y14 y15 y16 y17 y18 y19 y20 y21 y22 y23 y24 y25 y26 y27 y28 y29 y30 y31 y32 y33 y34 y35 y36 y37 y38 y39 y40 y41 y42 y43 y44)
  intro a0 s
  unfold coldAssert
  try dsimp only
  repeat' first
    | with_reducible rfl
    | simp only [↓h, ↓k0, ↓apply_ite P, ite_self]
    | split
    | refine (foldl_keeps P _ ?_ _ _).trans ?_
    | intro _ _

theorem porAssert_keeps {β : Type} (P : State → β) (h : ∀ (s : State) x0 x1 x2 x3 x4 x5 x6 x7 x8 x9 x10 x11 x12 x13 x14 x15 x16 x17 x18 x19 x20 x21 x22 x23 x24 x25 x26 x27 x28 x29 x30 x31 x32 x33 x34 x35 x36 x37 x38 x39 x40 x41 x42 x43 x44, P { s with timeLoaded := x0, trustSeen := x1, out := x2, cfg := x3, mbxs := x4, rrNext := x5, ops := x6, evt := x7, glb := x8, mir := x9, isl := x10, links := x11, boot := x12, pcie := x13, mon := x14, bkp := x15, rf := x16, lanes := x17, laneCount := x18, roles := x19, rot := x20, sectors := x21, duty := x22, plc := x23, plcMac := x24, dir := x25, eps := x26, blobs := x27, mem := x28, xlate := x29, chans := x30, jnl := x31, prov := x32, ledger := x33, bal := x34, camps := x35, confUnmatched := x36, slots := x37, keys := x38, slate := x39, life := x40, fw := x41, safe := x42, faultTimes := x43, maint := x44 } = P s) :
    ∀ s, P (porAssert s) = P s := by
  have k0 := coldAssert_keeps P (fun s y0 y1 y2 y3 y4 y5 y6 y7 y8 y9 y10 y11 y12 y13 y14 y15 y16 y17 y18 y19 y20 y21 y22 y23 y24 y25 y26 y27 y28 y29 y30 y31 y32 y33 y34 y35 y36 y37 y38 y39 y40 y41 y42 y43 y44 => h s y0 y1 y2 y3 y4 y5 y6 y7 y8 y9 y10 y11 y12 y13 y14 y15 y16 y17 y18 y19 y20 y21 y22 y23 y24 y25 y26 y27 y28 y29 y30 y31 y32 y33 y34 y35 y36 y37 y38 y39 y40 y41 y42 y43 y44)
  intro s
  unfold porAssert
  try dsimp only
  repeat' first
    | with_reducible rfl
    | simp only [↓h, ↓k0, ↓apply_ite P, ite_self]
    | split
    | refine (foldl_keeps P _ ?_ _ _).trans ?_
    | intro _ _

theorem nresetAssert_keeps {β : Type} (P : State → β) (h : ∀ (s : State) x0 x1 x2 x3 x4 x5 x6 x7 x8 x9 x10 x11 x12 x13 x14 x15 x16 x17 x18 x19 x20 x21 x22 x23 x24 x25 x26 x27 x28 x29 x30 x31 x32 x33 x34 x35 x36 x37 x38 x39 x40 x41 x42 x43 x44, P { s with timeLoaded := x0, trustSeen := x1, out := x2, cfg := x3, mbxs := x4, rrNext := x5, ops := x6, evt := x7, glb := x8, mir := x9, isl := x10, links := x11, boot := x12, pcie := x13, mon := x14, bkp := x15, rf := x16, lanes := x17, laneCount := x18, roles := x19, rot := x20, sectors := x21, duty := x22, plc := x23, plcMac := x24, dir := x25, eps := x26, blobs := x27, mem := x28, xlate := x29, chans := x30, jnl := x31, prov := x32, ledger := x33, bal := x34, camps := x35, confUnmatched := x36, slots := x37, keys := x38, slate := x39, life := x40, fw := x41, safe := x42, faultTimes := x43, maint := x44 } = P s) :
    ∀ s, P (nresetAssert s) = P s := by
  have k0 := coldAssert_keeps P (fun s y0 y1 y2 y3 y4 y5 y6 y7 y8 y9 y10 y11 y12 y13 y14 y15 y16 y17 y18 y19 y20 y21 y22 y23 y24 y25 y26 y27 y28 y29 y30 y31 y32 y33 y34 y35 y36 y37 y38 y39 y40 y41 y42 y43 y44 => h s y0 y1 y2 y3 y4 y5 y6 y7 y8 y9 y10 y11 y12 y13 y14 y15 y16 y17 y18 y19 y20 y21 y22 y23 y24 y25 y26 y27 y28 y29 y30 y31 y32 y33 y34 y35 y36 y37 y38 y39 y40 y41 y42 y43 y44)
  intro s
  unfold nresetAssert
  try dsimp only
  repeat' first
    | with_reducible rfl
    | simp only [↓h, ↓k0, ↓apply_ite P, ite_self]
    | split
    | refine (foldl_keeps P _ ?_ _ _).trans ?_
    | intro _ _

theorem coldRelease_keeps {β : Type} (P : State → β) (h : ∀ (s : State) x0, P { s with boot := x0 } = P s) :
    ∀ s, P (coldRelease s) = P s := by
  intro s
  unfold coldRelease
  try dsimp only
  repeat' first
    | with_reducible rfl
    | simp only [↓h, ↓apply_ite P, ite_self]
    | split
    | refine (foldl_keeps P _ ?_ _ _).trans ?_
    | intro _ _

theorem porRelease_keeps {β : Type} (P : State → β) (h : ∀ (s : State) x0, P { s with boot := x0 } = P s) :
    ∀ s, P (porRelease s) = P s := by
  have k0 := coldRelease_keeps P (fun s y0 => h s y0)
  intro s
  unfold porRelease
  try dsimp only
  repeat' first
    | with_reducible rfl
    | simp only [↓h, ↓k0, ↓apply_ite P, ite_self]
    | split
    | refine (foldl_keeps P _ ?_ _ _).trans ?_
    | intro _ _

theorem nresetRelease_keeps {β : Type} (P : State → β) (h : ∀ (s : State) x0, P { s with boot := x0 } = P s) :
    ∀ s, P (nresetRelease s) = P s := by
  have k0 := coldRelease_keeps P (fun s y0 => h s y0)
  intro s
  unfold nresetRelease
  try dsimp only
  repeat' first
    | with_reducible rfl
    | simp only [↓h, ↓k0, ↓apply_ite P, ite_self]
    | split
    | refine (foldl_keeps P _ ?_ _ _).trans ?_
    | intro _ _

theorem wideReset_keeps {β : Type} (P : State → β) (h : ∀ (s : State) x0 x1 x2 x3 x4 x5 x6 x7 x8 x9 x10 x11 x12 x13 x14 x15 x16 x17 x18 x19 x20 x21 x22 x23 x24 x25 x26 x27 x28 x29 x30 x31 x32 x33 x34 x35 x36 x37 x38 x39 x40 x41 x42 x43 x44, P { s with timeLoaded := x0, trustSeen := x1, out := x2, cfg := x3, mbxs := x4, rrNext := x5, ops := x6, evt := x7, glb := x8, mir := x9, isl := x10, links := x11, boot := x12, pcie := x13, mon := x14, bkp := x15, rf := x16, lanes := x17, laneCount := x18, roles := x19, rot := x20, sectors := x21, duty := x22, plc := x23, plcMac := x24, dir := x25, eps := x26, blobs := x27, mem := x28, xlate := x29, chans := x30, jnl := x31, prov := x32, ledger := x33, bal := x34, camps := x35, confUnmatched := x36, slots := x37, keys := x38, slate := x39, life := x40, fw := x41, safe := x42, faultTimes := x43, maint := x44 } = P s) :
    ∀ a0 a1 s, P (wideReset a0 a1 s) = P s := by
  have k0 := latchCause_keeps P (fun s y0 => h s s.timeLoaded s.trustSeen s.out s.cfg s.mbxs s.rrNext s.ops s.evt s.glb s.mir s.isl s.links y0 s.pcie s.mon s.bkp s.rf s.lanes s.laneCount s.roles s.rot s.sectors s.duty s.plc s.plcMac s.dir s.eps s.blobs s.mem s.xlate s.chans s.jnl s.prov s.ledger s.bal s.camps s.confUnmatched s.slots s.keys s.slate s.life s.fw s.safe s.faultTimes s.maint)
  have k1 := resetMain_keeps P (fun s y0 y1 y2 y3 y4 y5 y6 y7 y8 y9 y10 y11 y12 y13 y14 y15 y16 y17 y18 y19 y20 y21 y22 y23 y24 y25 y26 y27 y28 y29 y30 y31 y32 y33 y34 y35 y36 y37 y38 y39 y40 y41 y42 y43 y44 => h s y0 y1 y2 y3 y4 y5 y6 y7 y8 y9 y10 y11 y12 y13 y14 y15 y16 y17 y18 y19 y20 y21 y22 y23 y24 y25 y26 y27 y28 y29 y30 y31 y32 y33 y34 y35 y36 y37 y38 y39 y40 y41 y42 y43 y44)
  intro a0 a1 s
  unfold wideReset
  try dsimp only
  repeat' first
    | with_reducible rfl
    | simp only [↓h, ↓k0, ↓k1, ↓apply_ite P, ite_self]
    | split
    | refine (foldl_keeps P _ ?_ _ _).trans ?_
    | intro _ _

theorem wdtExpiry_keeps {β : Type} (P : State → β) (h : ∀ (s : State) x0 x1 x2 x3 x4 x5 x6 x7 x8 x9 x10 x11 x12 x13 x14 x15 x16 x17 x18 x19 x20 x21 x22 x23 x24 x25 x26 x27 x28 x29 x30 x31 x32 x33 x34 x35 x36 x37 x38 x39 x40 x41 x42 x43 x44 x45 x46, P { s with now := x0, mono := x1, timeLoaded := x2, trustSeen := x3, out := x4, cfg := x5, mbxs := x6, rrNext := x7, ops := x8, evt := x9, glb := x10, mir := x11, isl := x12, links := x13, boot := x14, pcie := x15, mon := x16, bkp := x17, rf := x18, lanes := x19, laneCount := x20, roles := x21, rot := x22, sectors := x23, duty := x24, plc := x25, plcMac := x26, dir := x27, eps := x28, blobs := x29, mem := x30, xlate := x31, chans := x32, jnl := x33, prov := x34, ledger := x35, bal := x36, camps := x37, confUnmatched := x38, slots := x39, keys := x40, slate := x41, life := x42, fw := x43, safe := x44, faultTimes := x45, maint := x46 } = P s) :
    ∀ s, P (wdtExpiry s) = P s := by
  have k0 := advMono_keeps P (fun s y0 y1 => h s y0 y1 s.timeLoaded s.trustSeen s.out s.cfg s.mbxs s.rrNext s.ops s.evt s.glb s.mir s.isl s.links s.boot s.pcie s.mon s.bkp s.rf s.lanes s.laneCount s.roles s.rot s.sectors s.duty s.plc s.plcMac s.dir s.eps s.blobs s.mem s.xlate s.chans s.jnl s.prov s.ledger s.bal s.camps s.confUnmatched s.slots s.keys s.slate s.life s.fw s.safe s.faultTimes s.maint)
  have k1 := wideReset_keeps P (fun s y0 y1 y2 y3 y4 y5 y6 y7 y8 y9 y10 y11 y12 y13 y14 y15 y16 y17 y18 y19 y20 y21 y22 y23 y24 y25 y26 y27 y28 y29 y30 y31 y32 y33 y34 y35 y36 y37 y38 y39 y40 y41 y42 y43 y44 => h s s.now s.mono y0 y1 y2 y3 y4 y5 y6 y7 y8 y9 y10 y11 y12 y13 y14 y15 y16 y17 y18 y19 y20 y21 y22 y23 y24 y25 y26 y27 y28 y29 y30 y31 y32 y33 y34 y35 y36 y37 y38 y39 y40 y41 y42 y43 y44)
  intro s
  unfold wdtExpiry
  try dsimp only
  repeat' first
    | with_reducible rfl
    | simp only [↓h, ↓k0, ↓k1, ↓apply_ite P, ite_self]
    | split
    | refine (foldl_keeps P _ ?_ _ _).trans ?_
    | intro _ _

theorem perstAssert_keeps {β : Type} (P : State → β) (h : ∀ (s : State) x0 x1, P { s with boot := x0, pcie := x1 } = P s) :
    ∀ s, P (perstAssert s) = P s := by
  intro s
  unfold perstAssert
  try dsimp only
  repeat' first
    | with_reducible rfl
    | simp only [↓h, ↓apply_ite P, ite_self]
    | split
    | refine (foldl_keeps P _ ?_ _ _).trans ?_
    | intro _ _

theorem sysrst_keeps {β : Type} (P : State → β) (h : ∀ (s : State) x0 x1 x2 x3 x4 x5 x6 x7 x8 x9 x10 x11 x12 x13 x14 x15 x16 x17 x18 x19 x20 x21 x22 x23 x24 x25 x26 x27 x28 x29 x30 x31 x32 x33 x34 x35 x36 x37 x38 x39 x40 x41 x42 x43 x44, P { s with timeLoaded := x0, trustSeen := x1, out := x2, cfg := x3, mbxs := x4, rrNext := x5, ops := x6, evt := x7, glb := x8, mir := x9, isl := x10, links := x11, boot := x12, pcie := x13, mon := x14, bkp := x15, rf := x16, lanes := x17, laneCount := x18, roles := x19, rot := x20, sectors := x21, duty := x22, plc := x23, plcMac := x24, dir := x25, eps := x26, blobs := x27, mem := x28, xlate := x29, chans := x30, jnl := x31, prov := x32, ledger := x33, bal := x34, camps := x35, confUnmatched := x36, slots := x37, keys := x38, slate := x39, life := x40, fw := x41, safe := x42, faultTimes := x43, maint := x44 } = P s) :
    ∀ s, P (sysrst s) = P s := by
  have k0 := wideReset_keeps P (fun s y0 y1 y2 y3 y4 y5 y6 y7 y8 y9 y10 y11 y12 y13 y14 y15 y16 y17 y18 y19 y20 y21 y22 y23 y24 y25 y26 y27 y28 y29 y30 y31 y32 y33 y34 y35 y36 y37 y38 y39 y40 y41 y42 y43 y44 => h s y0 y1 y2 y3 y4 y5 y6 y7 y8 y9 y10 y11 y12 y13 y14 y15 y16 y17 y18 y19 y20 y21 y22 y23 y24 y25 y26 y27 y28 y29 y30 y31 y32 y33 y34 y35 y36 y37 y38 y39 y40 y41 y42 y43 y44)
  intro s
  unfold sysrst
  try dsimp only
  repeat' first
    | with_reducible rfl
    | simp only [↓h, ↓k0, ↓apply_ite P, ite_self]
    | split
    | refine (foldl_keeps P _ ?_ _ _).trans ?_
    | intro _ _

theorem drainEnd_keeps {β : Type} (P : State → β) (h : ∀ (s : State) x0 x1 x2 x3 x4, P { s with out := x0, isl := x1, links := x2, boot := x3, slate := x4 } = P s) :
    ∀ s, P (drainEnd s) = P s := by
  have k0 := holdIsland_keeps P (fun s y0 y1 y2 => h s y0 y1 y2 s.boot s.slate)
  intro s
  unfold drainEnd
  try dsimp only
  repeat' first
    | with_reducible rfl
    | simp only [↓h, ↓k0, ↓apply_ite P, ite_self]
    | split
    | refine (foldl_keeps P _ ?_ _ _).trans ?_
    | intro _ _

theorem abandonStep_keeps {β : Type} (P : State → β) (h : ∀ (s : State) x0 x1 x2, P { s with roles := x0, rot := x1, maint := x2 } = P s) :
    ∀ s, P (abandonStep s) = P s := by
  have k0 := setRole_keeps P (fun s y0 => h s y0 s.rot s.maint)
  have k1 := stepOver_keeps P (fun s y0 y1 => h s s.roles y0 y1)
  intro s
  unfold abandonStep
  try dsimp only
  repeat' first
    | with_reducible rfl
    | simp only [↓h, ↓k0, ↓k1, ↓apply_ite P, ite_self]
    | split
    | refine (foldl_keeps P _ ?_ _ _).trans ?_
    | intro _ _

theorem dropGate_keeps {β : Type} (P : State → β) (h : ∀ (s : State) x0 x1 x2 x3 x4 x5 x6 x7 x8 x9 x10 x11 x12 x13 x14 x15, P { s with freeCtr := x0, out := x1, mbxs := x2, ops := x3, evt := x4, bkp := x5, plc := x6, plcMac := x7, jnv := x8, jnl := x9, prov := x10, roots := x11, camps := x12, slate := x13, life := x14, safe := x15 } = P s) :
    ∀ s, P (dropGate s) = P s := by
  have k0 := dropDue_keeps P (fun s y0 => h s s.freeCtr s.out s.mbxs s.ops s.evt s.bkp s.plc s.plcMac s.jnv s.jnl s.prov s.roots s.camps s.slate s.life y0)
  have k1 := endGateTxns_keeps P (fun s y0 y1 y2 y3 y4 y5 y6 y7 y8 y9 y10 y11 y12 y13 y14 => h s y0 y1 y2 y3 y4 y5 y6 y7 y8 y9 y10 y11 y12 y13 y14 s.safe)
  have k2 := gateBack_keeps P (fun s y0 y1 y2 y3 y4 y5 y6 y7 y8 y9 y10 y11 => h s s.freeCtr y0 y1 y2 y3 y4 s.plc s.plcMac y5 y6 y7 y8 y9 y10 y11 s.safe)
  intro s
  unfold dropGate
  try dsimp only
  repeat' first
    | with_reducible rfl
    | simp only [↓h, ↓k0, ↓k1, ↓k2, ↓apply_ite P, ite_self]
    | split
    | refine (foldl_keeps P _ ?_ _ _).trans ?_
    | intro _ _

theorem cutDataPlane_keeps {β : Type} (P : State → β) (h : ∀ (s : State) x0 x1 x2 x3 x4 x5 x6 x7 x8 x9 x10 x11 x12 x13 x14 x15 x16 x17 x18 x19 x20 x21 x22, P { s with freeCtr := x0, out := x1, mbxs := x2, ops := x3, evt := x4, bkp := x5, roles := x6, rot := x7, sectors := x8, duty := x9, plc := x10, plcMac := x11, eps := x12, mem := x13, jnv := x14, jnl := x15, prov := x16, roots := x17, camps := x18, slate := x19, life := x20, safe := x21, maint := x22 } = P s) :
    ∀ s, P (cutDataPlane s) = P s := by
  have k0 := abandonStep_keeps P (fun s y0 y1 y2 => h s s.freeCtr s.out s.mbxs s.ops s.evt s.bkp y0 y1 s.sectors s.duty s.plc s.plcMac s.eps s.mem s.jnv s.jnl s.prov s.roots s.camps s.slate s.life s.safe y2)
  have k1 := chargeCut_keeps P (fun s y0 y1 => h s s.freeCtr s.out s.mbxs s.ops s.evt s.bkp s.roles s.rot y0 y1 s.plc s.plcMac s.eps s.mem s.jnv s.jnl s.prov s.roots s.camps s.slate s.life s.safe s.maint)
  have k2 := dropGate_keeps P (fun s y0 y1 y2 y3 y4 y5 y6 y7 y8 y9 y10 y11 y12 y13 y14 y15 => h s y0 y1 y2 y3 y4 y5 s.roles s.rot s.sectors s.duty y6 y7 s.eps s.mem y8 y9 y10 y11 y12 y13 y14 y15 s.maint)
  have k3 := endPortTxns_keeps P (fun s y0 y1 y2 y3 y4 y5 y6 y7 y8 y9 y10 y11 y12 y13 y14 y15 y16 => h s y0 y1 y2 y3 y4 y5 s.roles s.rot s.sectors s.duty y6 y7 y8 y9 y10 y11 y12 y13 y14 y15 y16 s.safe s.maint)
  have k4 := raiseIf_keeps P (fun s y0 y1 => h s s.freeCtr y0 s.mbxs s.ops y1 s.bkp s.roles s.rot s.sectors s.duty s.plc s.plcMac s.eps s.mem s.jnv s.jnl s.prov s.roots s.camps s.slate s.life s.safe s.maint)
  intro s
  unfold cutDataPlane
  try dsimp only
  repeat' first
    | with_reducible rfl
    | simp only [↓h, ↓k0, ↓k1, ↓k2, ↓k3, ↓k4, ↓apply_ite P, ite_self]
    | split
    | refine (foldl_keeps P _ ?_ _ _).trans ?_
    | intro _ _

theorem clearDataPlane_keeps {β : Type} (P : State → β) (h : ∀ (s : State) x0 x1 x2 x3 x4 x5 x6 x7 x8 x9 x10 x11 x12 x13 x14 x15 x16 x17 x18 x19 x20 x21 x22 x23 x24, P { s with freeCtr := x0, out := x1, mbxs := x2, ops := x3, evt := x4, bkp := x5, rf := x6, lanes := x7, roles := x8, rot := x9, sectors := x10, duty := x11, plc := x12, plcMac := x13, eps := x14, mem := x15, jnv := x16, jnl := x17, prov := x18, roots := x19, camps := x20, slate := x21, life := x22, safe := x23, maint := x24 } = P s) :
    ∀ s, P (clearDataPlane s) = P s := by
  have k0 := cutDataPlane_keeps P (fun s y0 y1 y2 y3 y4 y5 y6 y7 y8 y9 y10 y11 y12 y13 y14 y15 y16 y17 y18 y19 y20 y21 y22 => h s y0 y1 y2 y3 y4 y5 s.rf s.lanes y6 y7 y8 y9 y10 y11 y12 y13 y14 y15 y16 y17 y18 y19 y20 y21 y22)
  have k1 := finishAssigns_keeps P (fun s y0 y1 y2 y3 y4 y5 => h s s.freeCtr y0 y1 y2 y3 y4 s.rf s.lanes s.roles s.rot s.sectors s.duty s.plc s.plcMac s.eps s.mem s.jnv s.jnl s.prov s.roots s.camps y5 s.life s.safe s.maint)
  intro s
  unfold clearDataPlane
  try dsimp only
  repeat' first
    | with_reducible rfl
    | simp only [↓h, ↓k0, ↓k1, ↓apply_ite P, ite_self]
    | split
    | refine (foldl_keeps P _ ?_ _ _).trans ?_
    | intro _ _

theorem dprst_keeps {β : Type} (P : State → β) (h : ∀ (s : State) x0 x1 x2 x3 x4 x5 x6 x7 x8 x9 x10 x11 x12 x13 x14 x15 x16 x17 x18 x19 x20 x21 x22 x23 x24 x25 x26 x27, P { s with freeCtr := x0, out := x1, mbxs := x2, ops := x3, evt := x4, isl := x5, links := x6, boot := x7, bkp := x8, rf := x9, lanes := x10, roles := x11, rot := x12, sectors := x13, duty := x14, plc := x15, plcMac := x16, eps := x17, mem := x18, jnv := x19, jnl := x20, prov := x21, roots := x22, camps := x23, slate := x24, life := x25, safe := x26, maint := x27 } = P s) :
    ∀ s, P (dprst s) = P s := by
  have k0 := clearDataPlane_keeps P (fun s y0 y1 y2 y3 y4 y5 y6 y7 y8 y9 y10 y11 y12 y13 y14 y15 y16 y17 y18 y19 y20 y21 y22 y23 y24 => h s y0 y1 y2 y3 y4 s.isl s.links s.boot y5 y6 y7 y8 y9 y10 y11 y12 y13 y14 y15 y16 y17 y18 y19 y20 y21 y22 y23 y24)
  have k1 := holdIsland_keeps P (fun s y0 y1 y2 => h s s.freeCtr y0 s.mbxs s.ops s.evt y1 y2 s.boot s.bkp s.rf s.lanes s.roles s.rot s.sectors s.duty s.plc s.plcMac s.eps s.mem s.jnv s.jnl s.prov s.roots s.camps s.slate s.life s.safe s.maint)
  have k2 := latchCause_keeps P (fun s y0 => h s s.freeCtr s.out s.mbxs s.ops s.evt s.isl s.links y0 s.bkp s.rf s.lanes s.roles s.rot s.sectors s.duty s.plc s.plcMac s.eps s.mem s.jnv s.jnl s.prov s.roots s.camps s.slate s.life s.safe s.maint)
  intro s
  unfold dprst
  try dsimp only
  repeat' first
    | with_reducible rfl
    | simp only [↓h, ↓k0, ↓k1, ↓k2, ↓apply_ite P, ite_self]
    | split
    | refine (foldl_keeps P _ ?_ _ _).trans ?_
    | intro _ _

theorem dprstDone_keeps {β : Type} (P : State → β) (h : ∀ (s : State) x0 x1 x2 x3 x4 x5 x6, P { s with out := x0, mbxs := x1, ops := x2, evt := x3, boot := x4, bkp := x5, slate := x6 } = P s) :
    ∀ s, P (dprstDone s) = P s := by
  have k0 := finishOps_keeps P (fun s y0 y1 y2 y3 y4 y5 => h s y0 y1 y2 y3 s.boot y4 y5)
  have k1 := raise_keeps P (fun s y0 y1 => h s y0 s.mbxs s.ops y1 s.boot s.bkp s.slate)
  intro s
  unfold dprstDone
  try dsimp only
  repeat' first
    | with_reducible rfl
    | simp only [↓h, ↓k0, ↓k1, ↓apply_ite P, ite_self]
    | split
    | refine (foldl_keeps P _ ?_ _ _).trans ?_
    | intro _ _

theorem resetRequest_keeps {β : Type} (P : State → β) (h : ∀ (s : State) x0, P { s with boot := x0 } = P s) :
    ∀ a0 s, P (resetRequest a0 s).st = P s := by
  have k0 := refuse_keeps P
  have k1 := replyOk_keeps P
  intro a0 s
  unfold resetRequest
  try dsimp only
  repeat' first
    | with_reducible rfl
    | simp only [↓h, ↓k0, ↓k1, ↓apply_ite P, ite_self, Reply.st_done, Reply.st_pend, Reply.st_twice, Reply.st_wait, replyOk_st, refuse_st]
    | split
    | refine (foldl_keeps P _ ?_ _ _).trans ?_
    | intro _ _

theorem islandDown_keeps {β : Type} (P : State → β) (h : ∀ (s : State) x0 x1 x2 x3 x4 x5 x6 x7 x8 x9 x10 x11 x12 x13 x14 x15 x16 x17 x18 x19 x20 x21, P { s with freeCtr := x0, out := x1, mbxs := x2, ops := x3, evt := x4, bkp := x5, rf := x6, lanes := x7, roles := x8, rot := x9, plc := x10, plcMac := x11, eps := x12, mem := x13, jnv := x14, jnl := x15, prov := x16, roots := x17, camps := x18, slate := x19, life := x20, maint := x21 } = P s) :
    ∀ a0 s, P (islandDown a0 s) = P s := by
  have k0 := endPortTxns_keeps P (fun s y0 y1 y2 y3 y4 y5 y6 y7 y8 y9 y10 y11 y12 y13 y14 y15 y16 => h s y0 y1 y2 y3 y4 y5 s.rf s.lanes s.roles s.rot y6 y7 y8 y9 y10 y11 y12 y13 y14 y15 y16 s.maint)
  have k1 := laneIslandDown_keeps P (fun s y0 y1 y2 y3 => h s s.freeCtr s.out s.mbxs s.ops s.evt s.bkp s.rf y0 y1 y2 s.plc s.plcMac s.eps s.mem s.jnv s.jnl s.prov s.roots s.camps s.slate s.life y3)
  have k2 := portDown_keeps P (fun s y0 y1 y2 y3 y4 => h s y0 y1 s.mbxs s.ops y2 s.bkp y3 y4 s.roles s.rot s.plc s.plcMac s.eps s.mem s.jnv s.jnl s.prov s.roots s.camps s.slate s.life s.maint)
  have k3 := setPlc_keeps P (fun s y0 => h s s.freeCtr s.out s.mbxs s.ops s.evt s.bkp s.rf s.lanes s.roles s.rot y0 s.plcMac s.eps s.mem s.jnv s.jnl s.prov s.roots s.camps s.slate s.life s.maint)
  have k4 := setRf_keeps P (fun s y0 => h s s.freeCtr s.out s.mbxs s.ops s.evt s.bkp y0 s.lanes s.roles s.rot s.plc s.plcMac s.eps s.mem s.jnv s.jnl s.prov s.roots s.camps s.slate s.life s.maint)
  intro a0 s
  unfold islandDown
  try dsimp only
  repeat' first
    | with_reducible rfl
    | simp only [↓h, ↓k0, ↓k1, ↓k2, ↓k3, ↓k4, ↓apply_ite P, ite_self]
    | split
    | refine (foldl_keeps P _ ?_ _ _).trans ?_
    | intro _ _

theorem islrst_keeps {β : Type} (P : State → β) (h : ∀ (s : State) x0 x1 x2 x3 x4 x5 x6 x7 x8 x9 x10 x11 x12 x13 x14 x15 x16 x17 x18 x19 x20 x21 x22 x23 x24 x25, P { s with freeCtr := x0, out := x1, mbxs := x2, ops := x3, evt := x4, isl := x5, links := x6, boot := x7, bkp := x8, rf := x9, lanes := x10, laneCount := x11, roles := x12, rot := x13, plc := x14, plcMac := x15, eps := x16, mem := x17, jnv := x18, jnl := x19, prov := x20, roots := x21, camps := x22, slate := x23, life := x24, maint := x25 } = P s) :
    ∀ a0 s, P (islrst a0 s) = P s := by
  have k0 := excludeIsland_keeps P (fun s y0 y1 y2 y3 y4 y5 y6 y7 y8 y9 y10 y11 y12 y13 y14 y15 => h s y0 y1 y2 y3 y4 y5 y6 s.boot y7 y8 y9 y10 y11 y12 y13 s.plcMac s.eps s.mem s.jnv s.jnl s.prov s.roots s.camps y14 y15 s.maint)
  have k1 := holdIsland_keeps P (fun s y0 y1 y2 => h s s.freeCtr y0 s.mbxs s.ops s.evt y1 y2 s.boot s.bkp s.rf s.lanes s.laneCount s.roles s.rot s.plc s.plcMac s.eps s.mem s.jnv s.jnl s.prov s.roots s.camps s.slate s.life s.maint)
  have k2 := islandDown_keeps P (fun s y0 y1 y2 y3 y4 y5 y6 y7 y8 y9 y10 y11 y12 y13 y14 y15 y16 y17 y18 y19 y20 y21 => h s y0 y1 y2 y3 y4 s.isl s.links s.boot y5 y6 y7 s.laneCount y8 y9 y10 y11 y12 y13 y14 y15 y16 y17 y18 y19 y20 y21)
  have k3 := latchCause_keeps P (fun s y0 => h s s.freeCtr s.out s.mbxs s.ops s.evt s.isl s.links y0 s.bkp s.rf s.lanes s.laneCount s.roles s.rot s.plc s.plcMac s.eps s.mem s.jnv s.jnl s.prov s.roots s.camps s.slate s.life s.maint)
  have k4 := setIsl_keeps P (fun s y0 => h s s.freeCtr s.out s.mbxs s.ops s.evt y0 s.links s.boot s.bkp s.rf s.lanes s.laneCount s.roles s.rot s.plc s.plcMac s.eps s.mem s.jnv s.jnl s.prov s.roots s.camps s.slate s.life s.maint)
  intro a0 s
  unfold islrst
  try dsimp only
  repeat' first
    | with_reducible rfl
    | simp only [↓h, ↓k0, ↓k1, ↓k2, ↓k3, ↓k4, ↓apply_ite P, ite_self]
    | split
    | refine (foldl_keeps P _ ?_ _ _).trans ?_
    | intro _ _

theorem releaseIsland_keeps {β : Type} (P : State → β) (h : ∀ (s : State) x0 x1, P { s with isl := x0, links := x1 } = P s) :
    ∀ a0 s, P (releaseIsland a0 s) = P s := by
  have k0 := liftFences_keeps P (fun s y0 => h s s.isl y0)
  have k1 := setIsl_keeps P (fun s y0 => h s y0 s.links)
  intro a0 s
  unfold releaseIsland
  try dsimp only
  repeat' first
    | with_reducible rfl
    | simp only [↓h, ↓k0, ↓k1, ↓apply_ite P, ite_self]
    | split
    | refine (foldl_keeps P _ ?_ _ _).trans ?_
    | intro _ _

theorem optionLoad_keeps {β : Type} (P : State → β) (h : ∀ (s : State) x0 x1 x2 x3 x4, P { s with out := x0, evt := x1, boot := x2, bkp := x3, slate := x4 } = P s) :
    ∀ a0 s, P (optionLoad a0 s) = P s := by
  have k0 := record_keeps P (fun s y0 y1 y2 y3 => h s y0 y1 s.boot y2 y3)
  intro a0 s
  unfold optionLoad
  try dsimp only
  repeat' first
    | with_reducible rfl
    | simp only [↓h, ↓k0, ↓apply_ite P, ite_self]
    | split
    | refine (foldl_keeps P _ ?_ _ _).trans ?_
    | intro _ _

theorem deriveKeys_keeps {β : Type} (P : State → β) (h : ∀ (s : State) x0, P { s with boot := x0 } = P s) :
    ∀ s, P (deriveKeys s) = P s := by
  intro s
  unfold deriveKeys
  try dsimp only
  repeat' first
    | with_reducible rfl
    | simp only [↓h, ↓apply_ite P, ite_self]
    | split
    | refine (foldl_keeps P _ ?_ _ _).trans ?_
    | intro _ _

theorem stage2_keeps {β : Type} (P : State → β) (h : ∀ (s : State) x0 x1 x2 x3 x4, P { s with out := x0, evt := x1, boot := x2, bkp := x3, slate := x4 } = P s) :
    ∀ a0 a1 s, P (stage2 a0 a1 s) = P s := by
  have k0 := deriveKeys_keeps P (fun s y0 => h s s.out s.evt y0 s.bkp s.slate)
  have k1 := optionLoad_keeps P (fun s y0 y1 y2 y3 y4 => h s y0 y1 y2 y3 y4)
  have k2 := record_keeps P (fun s y0 y1 y2 y3 => h s y0 y1 s.boot y2 y3)
  intro a0 a1 s
  unfold stage2
  try dsimp only
  repeat' first
    | with_reducible rfl
    | simp only [↓h, ↓k0, ↓k1, ↓k2, ↓apply_ite P, ite_self]
    | split
    | refine (foldl_keeps P _ ?_ _ _).trans ?_
    | intro _ _

theorem causeRecord_keeps {β : Type} (P : State → β) (h : ∀ (s : State) x0 x1 x2 x3 x4, P { s with out := x0, evt := x1, boot := x2, bkp := x3, slate := x4 } = P s) :
    ∀ s, P (causeRecord s) = P s := by
  have k0 := record_keeps P (fun s y0 y1 y2 y3 => h s y0 y1 s.boot y2 y3)
  intro s
  unfold causeRecord
  try dsimp only
  repeat' first
    | with_reducible rfl
    | simp only [↓h, ↓k0, ↓apply_ite P, ite_self]
    | split
    | refine (foldl_keeps P _ ?_ _ _).trans ?_
    | intro _ _

theorem stage4_keeps {β : Type} (P : State → β) (h : ∀ (s : State) x0 x1 x2 x3 x4 x5 x6 x7 x8 x9, P { s with out := x0, evt := x1, isl := x2, links := x3, boot := x4, bkp := x5, slots := x6, keys := x7, slate := x8, life := x9 } = P s) :
    ∀ s, P (stage4 s) = P s := by
  have k0 := causeRecord_keeps P (fun s y0 y1 y2 y3 y4 => h s y0 y1 s.isl s.links y2 y3 s.slots s.keys y4 s.life)
  have k1 := coldSlots_keeps P (fun s y0 y1 y2 y3 y4 y5 y6 => h s y0 y1 s.isl s.links s.boot y2 y3 y4 y5 y6)
  have k2 := releaseIsland_keeps P (fun s y0 y1 => h s s.out s.evt y0 y1 s.boot s.bkp s.slots s.keys s.slate s.life)
  have k3 := reportTampers_keeps P (fun s y0 y1 y2 y3 y4 => h s y0 y1 s.isl s.links s.boot y2 s.slots s.keys y3 y4)
  intro s
  unfold stage4
  try dsimp only
  repeat' first
    | with_reducible rfl
    | simp only [↓h, ↓k0, ↓k1, ↓k2, ↓k3, ↓apply_ite P, ite_self]
    | split
    | refine (foldl_keeps P _ ?_ _ _).trans ?_
    | intro _ _

theorem bringBack_keeps {β : Type} (P : State → β) (h : ∀ (s : State) x0 x1 x2 x3, P { s with out := x0, evt := x1, rf := x2, plc := x3 } = P s) :
    ∀ s, P (bringBack s) = P s := by
  have k0 := setPlc_keeps P (fun s y0 => h s s.out s.evt s.rf y0)
  have k1 := setRf_keeps P (fun s y0 => h s s.out s.evt y0 s.plc)
  have k2 := startCal_keeps P (fun s y0 y1 y2 => h s y0 y1 s.rf y2)
  intro s
  unfold bringBack
  try dsimp only
  repeat' first
    | with_reducible rfl
    | simp only [↓h, ↓k0, ↓k1, ↓k2, ↓apply_ite P, ite_self]
    | split
    | refine (foldl_keeps P _ ?_ _ _).trans ?_
    | intro _ _

theorem stage5_keeps {β : Type} (P : State → β) (h : ∀ (s : State) x0 x1 x2 x3 x4 x5 x6 x7 x8 x9 x10, P { s with out := x0, mbxs := x1, ops := x2, evt := x3, isl := x4, links := x5, boot := x6, bkp := x7, rf := x8, plc := x9, slate := x10 } = P s) :
    ∀ s, P (stage5 s) = P s := by
  have k0 := bringBack_keeps P (fun s y0 y1 y2 y3 => h s y0 s.mbxs s.ops y1 s.isl s.links s.boot s.bkp y2 y3 s.slate)
  have k1 := dprstDone_keeps P (fun s y0 y1 y2 y3 y4 y5 y6 => h s y0 y1 y2 y3 s.isl s.links y4 y5 s.rf s.plc y6)
  have k2 := releaseIsland_keeps P (fun s y0 y1 => h s s.out s.mbxs s.ops s.evt y0 y1 s.boot s.bkp s.rf s.plc s.slate)
  intro s
  unfold stage5
  try dsimp only
  repeat' first
    | with_reducible rfl
    | simp only [↓h, ↓k0, ↓k1, ↓k2, ↓apply_ite P, ite_self]
    | split
    | refine (foldl_keeps P _ ?_ _ _).trans ?_
    | intro _ _

theorem stage6_keeps {β : Type} (P : State → β) (h : ∀ (s : State) x0 x1 x2, P { s with isl := x0, links := x1, boot := x2 } = P s) :
    ∀ s, P (stage6 s) = P s := by
  have k0 := releaseIsland_keeps P (fun s y0 y1 => h s y0 y1 s.boot)
  intro s
  unfold stage6
  try dsimp only
  repeat' first
    | with_reducible rfl
    | simp only [↓h, ↓k0, ↓apply_ite P, ite_self]
    | split
    | refine (foldl_keeps P _ ?_ _ _).trans ?_
    | intro _ _

theorem releaseStageEnd_keeps {β : Type} (P : State → β) (h : ∀ (s : State) x0 x1 x2 x3 x4 x5 x6 x7 x8 x9 x10 x11 x12 x13, P { s with out := x0, mbxs := x1, ops := x2, evt := x3, isl := x4, links := x5, boot := x6, bkp := x7, rf := x8, plc := x9, slots := x10, keys := x11, slate := x12, life := x13 } = P s) :
    ∀ a0 a1 s, P (releaseStageEnd a0 a1 s) = P s := by
  have k0 := stage2_keeps P (fun s y0 y1 y2 y3 y4 => h s y0 s.mbxs s.ops y1 s.isl s.links y2 y3 s.rf s.plc s.slots s.keys y4 s.life)
  have k1 := stage4_keeps P (fun s y0 y1 y2 y3 y4 y5 y6 y7 y8 y9 => h s y0 s.mbxs s.ops y1 y2 y3 y4 y5 s.rf s.plc y6 y7 y8 y9)
  have k2 := stage5_keeps P (fun s y0 y1 y2 y3 y4 y5 y6 y7 y8 y9 y10 => h s y0 y1 y2 y3 y4 y5 y6 y7 y8 y9 s.slots s.keys y10 s.life)
  have k3 := stage6_keeps P (fun s y0 y1 y2 => h s s.out s.mbxs s.ops s.evt y0 y1 y2 s.bkp s.rf s.plc s.slots s.keys s.slate s.life)
  intro a0 a1 s
  unfold releaseStageEnd
  try dsimp only
  repeat' first
    | with_reducible rfl
    | simp only [↓h, ↓k0, ↓k1, ↓k2, ↓k3, ↓apply_ite P, ite_self]
    | split
    | refine (foldl_keeps P _ ?_ _ _).trans ?_
    | intro _ _

theorem genLockTimeout_keeps {β : Type} (P : State → β) (h : ∀ (s : State) x0 x1 x2 x3 x4 x5 x6 x7 x8 x9 x10 x11 x12 x13 x14 x15, P { s with freeCtr := x0, out := x1, mbxs := x2, ops := x3, evt := x4, isl := x5, links := x6, bkp := x7, rf := x8, lanes := x9, laneCount := x10, roles := x11, rot := x12, plc := x13, slate := x14, life := x15 } = P s) :
    ∀ a0 s, P (genLockTimeout a0 s) = P s := by
  have k0 := excludeIsland_keeps P (fun s y0 y1 y2 y3 y4 y5 y6 y7 y8 y9 y10 y11 y12 y13 y14 y15 => h s y0 y1 y2 y3 y4 y5 y6 y7 y8 y9 y10 y11 y12 y13 y14 y15)
  have k1 := islandFault_keeps P (fun s y0 y1 y2 => h s s.freeCtr y0 s.mbxs s.ops y1 y2 s.links s.bkp s.rf s.lanes s.laneCount s.roles s.rot s.plc s.slate s.life)
  have k2 := setIsl_keeps P (fun s y0 => h s s.freeCtr s.out s.mbxs s.ops s.evt y0 s.links s.bkp s.rf s.lanes s.laneCount s.roles s.rot s.plc s.slate s.life)
  intro a0 s
  unfold genLockTimeout
  try dsimp only
  repeat' first
    | with_reducible rfl
    | simp only [↓h, ↓k0, ↓k1, ↓k2, ↓apply_ite P, ite_self]
    | split
    | refine (foldl_keeps P _ ?_ _ _).trans ?_
    | intro _ _

theorem synthLockRetry_keeps {β : Type} (P : State → β) (h : ∀ (s : State) x0 x1 x2, P { s with now := x0, mono := x1, boot := x2 } = P s) :
    ∀ a0 s, P (synthLockRetry a0 s) = P s := by
  have k0 := advMono_keeps P (fun s y0 y1 => h s y0 y1 s.boot)
  intro a0 s
  unfold synthLockRetry
  try dsimp only
  repeat' first
    | with_reducible rfl
    | simp only [↓h, ↓k0, ↓apply_ite P, ite_self]
    | split
    | refine (foldl_keeps P _ ?_ _ _).trans ?_
    | intro _ _

theorem linkFault_keeps {β : Type} (P : State → β) (h : ∀ (s : State) x0 x1 x2 x3 x4 x5 x6 x7 x8 x9 x10 x11 x12 x13 x14 x15 x16 x17 x18 x19 x20 x21 x22 x23 x24 x25, P { s with freeCtr := x0, out := x1, mbxs := x2, ops := x3, evt := x4, isl := x5, links := x6, boot := x7, bkp := x8, rf := x9, lanes := x10, laneCount := x11, roles := x12, rot := x13, plc := x14, plcMac := x15, eps := x16, mem := x17, jnv := x18, jnl := x19, prov := x20, roots := x21, camps := x22, slate := x23, life := x24, maint := x25 } = P s) :
    ∀ a0 s, P (linkFault a0 s) = P s := by
  have k0 := islandFault_keeps P (fun s y0 y1 y2 => h s s.freeCtr y0 s.mbxs s.ops y1 y2 s.links s.boot s.bkp s.rf s.lanes s.laneCount s.roles s.rot s.plc s.plcMac s.eps s.mem s.jnv s.jnl s.prov s.roots s.camps s.slate s.life s.maint)
  have k1 := islrst_keeps P (fun s y0 y1 y2 y3 y4 y5 y6 y7 y8 y9 y10 y11 y12 y13 y14 y15 y16 y17 y18 y19 y20 y21 y22 y23 y24 y25 => h s y0 y1 y2 y3 y4 y5 y6 y7 y8 y9 y10 y11 y12 y13 y14 y15 y16 y17 y18 y19 y20 y21 y22 y23 y24 y25)
  have k2 := raise_keeps P (fun s y0 y1 => h s s.freeCtr y0 s.mbxs s.ops y1 s.isl s.links s.boot s.bkp s.rf s.lanes s.laneCount s.roles s.rot s.plc s.plcMac s.eps s.mem s.jnv s.jnl s.prov s.roots s.camps s.slate s.life s.maint)
  have k3 := record_keeps P (fun s y0 y1 y2 y3 => h s s.freeCtr y0 s.mbxs s.ops y1 s.isl s.links s.boot y2 s.rf s.lanes s.laneCount s.roles s.rot s.plc s.plcMac s.eps s.mem s.jnv s.jnl s.prov s.roots s.camps y3 s.life s.maint)
  intro a0 s
  unfold linkFault
  try dsimp only
  repeat' first
    | with_reducible rfl
    | simp only [↓h, ↓k0, ↓k1, ↓k2, ↓k3, ↓apply_ite P, ite_self]
    | split
    | refine (foldl_keeps P _ ?_ _ _).trans ?_
    | intro _ _

theorem creditAudit_keeps {β : Type} (P : State → β) (h : ∀ (s : State) x0 x1 x2 x3 x4 x5 x6 x7 x8 x9 x10 x11 x12 x13 x14 x15 x16 x17 x18 x19 x20 x21 x22 x23 x24 x25 x26 x27 x28, P { s with now := x0, mono := x1, freeCtr := x2, out := x3, mbxs := x4, ops := x5, evt := x6, isl := x7, links := x8, auditAt := x9, boot := x10, bkp := x11, rf := x12, lanes := x13, laneCount := x14, roles := x15, rot := x16, plc := x17, plcMac := x18, eps := x19, mem := x20, jnv := x21, jnl := x22, prov := x23, roots := x24, camps := x25, slate := x26, life := x27, maint := x28 } = P s) :
    ∀ a0 s, P (creditAudit a0 s) = P s := by
  have k0 := advMono_keeps P (fun s y0 y1 => h s y0 y1 s.freeCtr s.out s.mbxs s.ops s.evt s.isl s.links s.auditAt s.boot s.bkp s.rf s.lanes s.laneCount s.roles s.rot s.plc s.plcMac s.eps s.mem s.jnv s.jnl s.prov s.roots s.camps s.slate s.life s.maint)
  have k1 := linkFault_keeps P (fun s y0 y1 y2 y3 y4 y5 y6 y7 y8 y9 y10 y11 y12 y13 y14 y15 y16 y17 y18 y19 y20 y21 y22 y23 y24 y25 => h s s.now s.mono y0 y1 y2 y3 y4 y5 y6 s.auditAt y7 y8 y9 y10 y11 y12 y13 y14 y15 y16 y17 y18 y19 y20 y21 y22 y23 y24 y25)
  have k2 := setDir_keeps P (fun s y0 => h s s.now s.mono s.freeCtr s.out s.mbxs s.ops s.evt s.isl y0 s.auditAt s.boot s.bkp s.rf s.lanes s.laneCount s.roles s.rot s.plc s.plcMac s.eps s.mem s.jnv s.jnl s.prov s.roots s.camps s.slate s.life s.maint)
  intro a0 s
  unfold creditAudit
  try dsimp only
  repeat' first
    | with_reducible rfl
    | simp only [↓h, ↓k0, ↓k1, ↓k2, ↓apply_ite P, ite_self]
    | split
    | refine (foldl_keeps P _ ?_ _ _).trans ?_
    | intro _ _

end Sys2Proof.Machine
end

