-- ==== Sys2Proof/Laws/KeepSlate.lean ====
section
/-! SUPPORT. What the functions of Machine/Slate.lean leave unchanged. -/

set_option linter.unusedSimpArgs false
set_option linter.unreachableTactic false
set_option linter.unusedTactic false

namespace Sys2Proof.Machine

theorem admitWaiting_keeps {β : Type} (P : State → β) (h : ∀ (s : State) x0 x1 x2, P { s with out := x0, evt := x1, slate := x2 } = P s) :
    ∀ a0 s, P (admitWaiting a0 s) = P s := by
  have k0 := recAdmit_keeps P (fun s y0 y1 y2 => h s y0 y1 y2)
  intro a0 s
  fun_induction admitWaiting a0 s
  all_goals
    repeat' first
      | with_reducible rfl
      | simp +zetaDelta only [↓h, ↓k0, ↓apply_ite P, ite_self, *]
      | split
      | refine (foldl_keeps P _ ?_ _ _).trans ?_
      | intro _ _

theorem recorderFail_keeps {β : Type} (P : State → β) (h : ∀ (s : State) x0 x1 x2 x3 x4 x5 x6 x7 x8, P { s with out := x0, mbxs := x1, ops := x2, evt := x3, bkp := x4, chans := x5, slateNv := x6, slate := x7, life := x8 } = P s) :
    ∀ a0 s, P (recorderFail a0 s) = P s := by
  have k0 := addRepair_keeps P (fun s y0 => h s s.out s.mbxs s.ops s.evt s.bkp s.chans s.slateNv s.slate y0)
  have k1 := admitWaiting_keeps P (fun s y0 y1 y2 => h s y0 s.mbxs s.ops y1 s.bkp s.chans s.slateNv y2 s.life)
  have k2 := finishOp_keeps P (fun s y0 y1 y2 y3 y4 y5 => h s y0 y1 y2 y3 y4 s.chans s.slateNv y5 s.life)
  have k3 := raise_keeps P (fun s y0 y1 => h s y0 s.mbxs s.ops y1 s.bkp s.chans s.slateNv s.slate s.life)
  have k4 := recAdmit_keeps P (fun s y0 y1 y2 => h s y0 s.mbxs s.ops y1 s.bkp s.chans s.slateNv y2 s.life)
  have k5 := unbindChan_keeps P (fun s y0 => h s s.out s.mbxs s.ops s.evt s.bkp y0 s.slateNv s.slate s.life)
  intro a0 s
  unfold recorderFail
  try dsimp only
  repeat' first
    | with_reducible rfl
    | simp only [↓h, ↓k0, ↓k1, ↓k2, ↓k3, ↓k4, ↓k5, ↓apply_ite P, ite_self]
    | split
    | refine (foldl_keeps P _ ?_ _ _).trans ?_
    | intro _ _

theorem retireBlock_keeps {β : Type} (P : State → β) (h : ∀ (s : State) x0 x1 x2 x3 x4, P { s with out := x0, evt := x1, bkp := x2, slate := x3, life := x4 } = P s) :
    ∀ a0 a1 s, P (retireBlock a0 a1 s) = P s := by
  have k0 := addRepair_keeps P (fun s y0 => h s s.out s.evt s.bkp s.slate y0)
  have k1 := recordNow_keeps P (fun s y0 y1 y2 y3 => h s y0 y1 y2 y3 s.life)
  intro a0 a1 s
  unfold retireBlock
  try dsimp only
  repeat' first
    | with_reducible rfl
    | simp only [↓h, ↓k0, ↓k1, ↓apply_ite P, ite_self]
    | split
    | refine (foldl_keeps P _ ?_ _ _).trans ?_
    | intro _ _

theorem failWrites_keeps {β : Type} (P : State → β) (h : ∀ (s : State) x0 x1 x2 x3 x4 x5 x6 x7 x8, P { s with out := x0, mbxs := x1, ops := x2, evt := x3, bkp := x4, chans := x5, slateNv := x6, slate := x7, life := x8 } = P s) :
    ∀ a0 a1 s, P (failWrites a0 a1 s) = P s := by
  have k0 := recorderFail_keeps P (fun s y0 y1 y2 y3 y4 y5 y6 y7 y8 => h s y0 y1 y2 y3 y4 y5 y6 y7 y8)
  have k1 := retireBlock_keeps P (fun s y0 y1 y2 y3 y4 => h s y0 s.mbxs s.ops y1 y2 s.chans s.slateNv y3 y4)
  intro a0 a1 s
  fun_induction failWrites a0 a1 s
  all_goals
    repeat' first
      | with_reducible rfl
      | simp +zetaDelta only [↓h, ↓k0, ↓k1, ↓apply_ite P, ite_self, *]
      | split
      | refine (foldl_keeps P _ ?_ _ _).trans ?_
      | intro _ _

theorem retireReached_keeps {β : Type} (P : State → β) (h : ∀ (s : State) x0 x1 x2 x3 x4 x5, P { s with out := x0, evt := x1, bkp := x2, slateNv := x3, slate := x4, life := x5 } = P s) :
    ∀ a0 a1 s, P (retireReached a0 a1 s) = P s := by
  have k0 := retireBlock_keeps P (fun s y0 y1 y2 y3 y4 => h s y0 y1 y2 s.slateNv y3 y4)
  intro a0 a1 s
  unfold retireReached
  try dsimp only
  repeat' first
    | with_reducible rfl
    | simp only [↓h, ↓k0, ↓apply_ite P, ite_self]
    | split
    | refine (foldl_keeps P _ ?_ _ _).trans ?_
    | intro _ _

theorem writeOldest_keeps {β : Type} (P : State → β) (h : ∀ (s : State) x0 x1 x2 x3 x4 x5, P { s with out := x0, evt := x1, bkp := x2, slateNv := x3, slate := x4, life := x5 } = P s) :
    ∀ s, P (writeOldest s) = P s := by
  have k0 := retireReached_keeps P (fun s y0 y1 y2 y3 y4 y5 => h s y0 y1 y2 y3 y4 y5)
  intro s
  unfold writeOldest
  try dsimp only
  repeat' first
    | with_reducible rfl
    | simp only [↓h, ↓k0, ↓apply_ite P, ite_self]
    | split
    | refine (foldl_keeps P _ ?_ _ _).trans ?_
    | intro _ _

theorem recordWrite_keeps {β : Type} (P : State → β) (h : ∀ (s : State) x0 x1 x2 x3 x4 x5 x6 x7 x8, P { s with out := x0, mbxs := x1, ops := x2, evt := x3, bkp := x4, chans := x5, slateNv := x6, slate := x7, life := x8 } = P s) :
    ∀ a0 s, P (recordWrite a0 s) = P s := by
  have k0 := admitWaiting_keeps P (fun s y0 y1 y2 => h s y0 s.mbxs s.ops y1 s.bkp s.chans s.slateNv y2 s.life)
  have k1 := failWrites_keeps P (fun s y0 y1 y2 y3 y4 y5 y6 y7 y8 => h s y0 y1 y2 y3 y4 y5 y6 y7 y8)
  have k2 := recorderFail_keeps P (fun s y0 y1 y2 y3 y4 y5 y6 y7 y8 => h s y0 y1 y2 y3 y4 y5 y6 y7 y8)
  have k3 := writeOldest_keeps P (fun s y0 y1 y2 y3 y4 y5 => h s y0 s.mbxs s.ops y1 y2 s.chans y3 y4 y5)
  intro a0 s
  unfold recordWrite
  try dsimp only
  repeat' first
    | with_reducible rfl
    | simp only [↓h, ↓k0, ↓k1, ↓k2, ↓k3, ↓apply_ite P, ite_self]
    | split
    | refine (foldl_keeps P _ ?_ _ _).trans ?_
    | intro _ _

theorem tokenRefill_keeps {β : Type} (P : State → β) (h : ∀ (s : State) x0 x1 x2, P { s with now := x0, mono := x1, slate := x2 } = P s) :
    ∀ a0 s, P (tokenRefill a0 s) = P s := by
  have k0 := advMono_keeps P (fun s y0 y1 => h s y0 y1 s.slate)
  intro a0 s
  unfold tokenRefill
  try dsimp only
  repeat' first
    | with_reducible rfl
    | simp only [↓h, ↓k0, ↓apply_ite P, ite_self]
    | split
    | refine (foldl_keeps P _ ?_ _ _).trans ?_
    | intro _ _

theorem checkpointWrite_keeps {β : Type} (P : State → β) (h : ∀ (s : State) x0 x1 x2 x3 x4 x5 x6 x7 x8 x9 x10, P { s with now := x0, mono := x1, out := x2, mbxs := x3, ops := x4, evt := x5, bkp := x6, chans := x7, slateNv := x8, slate := x9, life := x10 } = P s) :
    ∀ a0 s, P (checkpointWrite a0 s) = P s := by
  have k0 := advMono_keeps P (fun s y0 y1 => h s y0 y1 s.out s.mbxs s.ops s.evt s.bkp s.chans s.slateNv s.slate s.life)
  have k1 := recorderFail_keeps P (fun s y0 y1 y2 y3 y4 y5 y6 y7 y8 => h s s.now s.mono y0 y1 y2 y3 y4 y5 y6 y7 y8)
  intro a0 s
  unfold checkpointWrite
  try dsimp only
  repeat' first
    | with_reducible rfl
    | simp only [↓h, ↓k0, ↓k1, ↓apply_ite P, ite_self]
    | split
    | refine (foldl_keeps P _ ?_ _ _).trans ?_
    | intro _ _

theorem relatch_keeps {β : Type} (P : State → β) (h : ∀ (s : State) x0, P { s with bkp := x0 } = P s) :
    ∀ s, P (relatch s) = P s := by
  intro s
  unfold relatch
  try dsimp only
  repeat' first
    | with_reducible rfl
    | simp only [↓h, ↓apply_ite P, ite_self]
    | split
    | refine (foldl_keeps P _ ?_ _ _).trans ?_
    | intro _ _

theorem openRecorder_keeps {β : Type} (P : State → β) (h : ∀ (s : State) x0 x1 x2 x3, P { s with out := x0, evt := x1, bkp := x2, slate := x3 } = P s) :
    ∀ a0 a1 a2 s, P (openRecorder a0 a1 a2 s) = P s := by
  have k0 := recordNow_keeps P (fun s y0 y1 y2 y3 => h s y0 y1 y2 y3)
  intro a0 a1 a2 s
  unfold openRecorder
  try dsimp only
  repeat' first
    | with_reducible rfl
    | simp only [↓h, ↓k0, ↓apply_ite P, ite_self]
    | split
    | refine (foldl_keeps P _ ?_ _ _).trans ?_
    | intro _ _

theorem startScan_keeps {β : Type} (P : State → β) (h : ∀ (s : State) x0 x1 x2 x3 x4 x5 x6 x7 x8, P { s with out := x0, mbxs := x1, ops := x2, evt := x3, bkp := x4, chans := x5, slateNv := x6, slate := x7, life := x8 } = P s) :
    ∀ s, P (startScan s) = P s := by
  have k0 := openRecorder_keeps P (fun s y0 y1 y2 y3 => h s y0 s.mbxs s.ops y1 y2 s.chans s.slateNv y3 s.life)
  have k1 := recordNow_keeps P (fun s y0 y1 y2 y3 => h s y0 s.mbxs s.ops y1 y2 s.chans s.slateNv y3 s.life)
  have k2 := recorderFail_keeps P (fun s y0 y1 y2 y3 y4 y5 y6 y7 y8 => h s y0 y1 y2 y3 y4 y5 y6 y7 y8)
  have k3 := relatch_keeps P (fun s y0 => h s s.out s.mbxs s.ops s.evt y0 s.chans s.slateNv s.slate s.life)
  intro s
  unfold startScan
  try dsimp only
  repeat' first
    | with_reducible rfl
    | simp only [↓h, ↓k0, ↓k1, ↓k2, ↓k3, ↓apply_ite P, ite_self]
    | split
    | refine (foldl_keeps P _ ?_ _ _).trans ?_
    | intro _ _

theorem envmUe_keeps {β : Type} (P : State → β) (h : ∀ (s : State) x0 x1 x2 x3 x4, P { s with out := x0, evt := x1, bkp := x2, slateNv := x3, slate := x4 } = P s) :
    ∀ a0 a1 s, P (envmUe a0 a1 s) = P s := by
  have k0 := raise_keeps P (fun s y0 y1 => h s y0 y1 s.bkp s.slateNv s.slate)
  have k1 := record_keeps P (fun s y0 y1 y2 y3 => h s y0 y1 y2 s.slateNv y3)
  intro a0 a1 s
  unfold envmUe
  try dsimp only
  repeat' first
    | with_reducible rfl
    | simp only [↓h, ↓k0, ↓k1, ↓apply_ite P, ite_self]
    | split
    | refine (foldl_keeps P _ ?_ _ _).trans ?_
    | intro _ _

theorem envmScrub_keeps {β : Type} (P : State → β) (h : ∀ (s : State) x0 x1 x2 x3 x4 x5, P { s with out := x0, evt := x1, bkp := x2, slateNv := x3, slate := x4, maint := x5 } = P s) :
    ∀ a0 s, P (envmScrub a0 s) = P s := by
  have k0 := envmUe_keeps P (fun s y0 y1 y2 y3 y4 => h s y0 y1 y2 y3 y4 s.maint)
  intro a0 s
  unfold envmScrub
  try dsimp only
  repeat' first
    | with_reducible rfl
    | simp only [↓h, ↓k0, ↓apply_ite P, ite_self]
    | split
    | refine (foldl_keeps P _ ?_ _ _).trans ?_
    | intro _ _

theorem slateRead_keeps {β : Type} (P : State → β) (h : ∀ (s : State) x0, P { s with slate := x0 } = P s) :
    ∀ a0 s, P (slateRead a0 s).st = P s := by
  have k0 := refuse_keeps P
  have k1 := replyOk_keeps P
  intro a0 s
  unfold slateRead
  try dsimp only
  repeat' first
    | with_reducible rfl
    | simp only [↓h, ↓k0, ↓k1, ↓apply_ite P, ite_self, Reply.st_done, Reply.st_pend, Reply.st_twice, Reply.st_wait, replyOk_st, refuse_st]
    | split
    | refine (foldl_keeps P _ ?_ _ _).trans ?_
    | intro _ _

theorem slateDump_keeps {β : Type} (P : State → β) (h : ∀ (s : State) x0 x1, P { s with chans := x0, slate := x1 } = P s) :
    ∀ a0 a1 s, P (slateDump a0 a1 s).st = P s := by
  have k0 := bindChan_keeps P (fun s y0 => h s y0 s.slate)
  have k1 := refuse_keeps P
  have k2 := replyOk_keeps P
  intro a0 a1 s
  unfold slateDump
  try dsimp only
  repeat' first
    | with_reducible rfl
    | simp only [↓h, ↓k0, ↓k1, ↓k2, ↓apply_ite P, ite_self, Reply.st_done, Reply.st_pend, Reply.st_twice, Reply.st_wait, replyOk_st, refuse_st]
    | split
    | refine (foldl_keeps P _ ?_ _ _).trans ?_
    | intro _ _

theorem slateCodeGet_keeps {β : Type} (P : State → β) :
    ∀ a0 s, P (slateCodeGet a0 s).st = P s := by
  have k0 := refuse_keeps P
  have k1 := replyOk_keeps P
  intro a0 s
  unfold slateCodeGet
  try dsimp only
  repeat' first
    | with_reducible rfl
    | simp only [↓k0, ↓k1, ↓apply_ite P, ite_self, Reply.st_done, Reply.st_pend, Reply.st_twice, Reply.st_wait, replyOk_st, refuse_st]
    | split
    | refine (foldl_keeps P _ ?_ _ _).trans ?_
    | intro _ _

theorem slateRecfClear_keeps {β : Type} (P : State → β) (h : ∀ (s : State) x0, P { s with bkp := x0 } = P s) :
    ∀ s, P (slateRecfClear s).st = P s := by
  have k0 := refuse_keeps P
  have k1 := replyOk_keeps P
  intro s
  unfold slateRecfClear
  try dsimp only
  repeat' first
    | with_reducible rfl
    | simp only [↓h, ↓k0, ↓k1, ↓apply_ite P, ite_self, Reply.st_done, Reply.st_pend, Reply.st_twice, Reply.st_wait, replyOk_st, refuse_st]
    | split
    | refine (foldl_keeps P _ ?_ _ _).trans ?_
    | intro _ _

end Sys2Proof.Machine
end

