-- ==== Sys2Proof/Laws/KeepBringup.lean ====
section
/-! SUPPORT. What the functions of Machine/Bringup.lean leave unchanged. -/

set_option linter.unusedSimpArgs false
set_option linter.unreachableTactic false
set_option linter.unusedTactic false

namespace Sys2Proof.Machine

theorem coreBist_keeps {β : Type} (P : State → β) (h : ∀ (s : State) x0 x1 x2 x3 x4 x5 x6 x7, P { s with out := x0, evt := x1, boot := x2, bkp := x3, slate := x4, life := x5, safe := x6, faultTimes := x7 } = P s) :
    ∀ a0 a1 s, P (coreBist a0 a1 s) = P s := by
  have k0 := addSramRepairs_keeps P (fun s y0 => h s s.out s.evt s.boot s.bkp s.slate y0 s.safe s.faultTimes)
  have k1 := proofPassed_keeps P (fun s y0 y1 y2 => h s y0 y1 s.boot s.bkp s.slate s.life y2 s.faultTimes)
  have k2 := safetyFault_keeps P (fun s y0 y1 y2 y3 y4 y5 => h s y0 y1 s.boot y2 y3 s.life y4 y5)
  intro a0 a1 s
  unfold coreBist
  try dsimp only
  repeat' first
    | with_reducible rfl
    | simp only [↓h, ↓k0, ↓k1, ↓k2, ↓apply_ite P, ite_self]
    | split
    | refine (foldl_keeps P _ ?_ _ _).trans ?_
    | intro _ _

theorem pcieTrain_keeps {β : Type} (P : State → β) (h : ∀ (s : State) x0 x1 x2 x3 x4, P { s with out := x0, evt := x1, pcie := x2, bkp := x3, slate := x4 } = P s) :
    ∀ a0 a1 s, P (pcieTrain a0 a1 s) = P s := by
  have k0 := record_keeps P (fun s y0 y1 y2 y3 => h s y0 y1 s.pcie y2 y3)
  intro a0 a1 s
  unfold pcieTrain
  try dsimp only
  repeat' first
    | with_reducible rfl
    | simp only [↓h, ↓k0, ↓apply_ite P, ite_self]
    | split
    | refine (foldl_keeps P _ ?_ _ _).trans ?_
    | intro _ _

theorem rankRecord_keeps {β : Type} (P : State → β) (h : ∀ (s : State) x0 x1 x2 x3, P { s with out := x0, evt := x1, bkp := x2, slate := x3 } = P s) :
    ∀ a0 s, P (rankRecord a0 s) = P s := by
  have k0 := record_keeps P (fun s y0 y1 y2 y3 => h s y0 y1 y2 y3)
  intro a0 s
  unfold rankRecord
  try dsimp only
  repeat' first
    | with_reducible rfl
    | simp only [↓h, ↓k0, ↓apply_ite P, ite_self]
    | split
    | refine (foldl_keeps P _ ?_ _ _).trans ?_
    | intro _ _

theorem reapplyRepairs_keeps {β : Type} (P : State → β) (h : ∀ (s : State) x0, P { s with mem := x0 } = P s) :
    ∀ s, P (reapplyRepairs s) = P s := by
  intro s
  unfold reapplyRepairs
  try dsimp only
  repeat' first
    | with_reducible rfl
    | simp only [↓h, ↓apply_ite P, ite_self]
    | split
    | refine (foldl_keeps P _ ?_ _ _).trans ?_
    | intro _ _

theorem ddrTrain_keeps {β : Type} (P : State → β) (h : ∀ (s : State) x0 x1 x2 x3 x4 x5 x6, P { s with out := x0, evt := x1, isl := x2, boot := x3, bkp := x4, mem := x5, slate := x6 } = P s) :
    ∀ a0 s, P (ddrTrain a0 s) = P s := by
  have k0 := islandFault_keeps P (fun s y0 y1 y2 => h s y0 y1 y2 s.boot s.bkp s.mem s.slate)
  have k1 := rankRecord_keeps P (fun s y0 y1 y2 y3 => h s y0 y1 s.isl s.boot y2 s.mem y3)
  have k2 := reapplyRepairs_keeps P (fun s y0 => h s s.out s.evt s.isl s.boot s.bkp y0 s.slate)
  intro a0 s
  unfold ddrTrain
  try dsimp only
  repeat' first
    | with_reducible rfl
    | simp only [↓h, ↓k0, ↓k1, ↓k2, ↓apply_ite P, ite_self]
    | split
    | refine (foldl_keeps P _ ?_ _ _).trans ?_
    | intro _ _

theorem rebuildBundles_keeps {β : Type} (P : State → β) (h : ∀ (s : State) x0 x1 x2, P { s with out := x0, evt := x1, prov := x2 } = P s) :
    ∀ s, P (rebuildBundles s) = P s := by
  have k0 := joinAt_keeps P (fun s y0 y1 y2 => h s y0 y1 y2)
  intro s
  unfold rebuildBundles
  try dsimp only
  repeat' first
    | with_reducible rfl
    | simp only [↓h, ↓k0, ↓apply_ite P, ite_self]
    | split
    | refine (foldl_keeps P _ ?_ _ _).trans ?_
    | intro _ _

theorem replayRead_keeps {β : Type} (P : State → β) (h : ∀ (s : State) x0, P { s with jnv := x0 } = P s) :
    ∀ a0 s, P (replayRead a0 s) = P s := by
  intro a0 s
  unfold replayRead
  try dsimp only
  repeat' first
    | with_reducible rfl
    | simp only [↓h, ↓apply_ite P, ite_self]
    | split
    | refine (foldl_keeps P _ ?_ _ _).trans ?_
    | intro _ _

theorem replayJournal_keeps {β : Type} (P : State → β) (h : ∀ (s : State) x0 x1 x2 x3 x4 x5 x6 x7 x8 x9 x10, P { s with trustSeen := x0, out := x1, evt := x2, bkp := x3, jnv := x4, jnl := x5, prov := x6, roots := x7, ledger := x8, slate := x9, life := x10 } = P s) :
    ∀ s, P (replayJournal s) = P s := by
  have k0 := jnlRefresh_keeps P (fun s y0 y1 y2 => h s s.trustSeen y0 y1 s.bkp s.jnv y2 s.prov s.roots s.ledger s.slate s.life)
  have k1 := raiseIf_keeps P (fun s y0 y1 => h s s.trustSeen y0 y1 s.bkp s.jnv s.jnl s.prov s.roots s.ledger s.slate s.life)
  have k2 := rebuildBundles_keeps P (fun s y0 y1 y2 => h s s.trustSeen y0 y1 s.bkp s.jnv s.jnl y2 s.roots s.ledger s.slate s.life)
  have k3 := record_keeps P (fun s y0 y1 y2 y3 => h s s.trustSeen y0 y1 y2 s.jnv s.jnl s.prov s.roots s.ledger y3 s.life)
  have k4 := replayRead_keeps P (fun s y0 => h s s.trustSeen s.out s.evt s.bkp y0 s.jnl s.prov s.roots s.ledger s.slate s.life)
  have k5 := sealChanged_keeps P (fun s y0 y1 y2 y3 y4 y5 y6 y7 y8 => h s s.trustSeen y0 y1 y2 y3 y4 y5 y6 s.ledger y7 y8)
  intro s
  unfold replayJournal
  try dsimp only
  repeat' first
    | with_reducible rfl
    | simp only [↓h, ↓k0, ↓k1, ↓k2, ↓k3, ↓k4, ↓k5, ↓apply_ite P, ite_self]
    | split
    | refine (foldl_keeps P _ ?_ _ _).trans ?_
    | intro _ _

theorem portsTrained_keeps {β : Type} (P : State → β) (h : ∀ (s : State) x0, P { s with boot := x0 } = P s) :
    ∀ s, P (portsTrained s) = P s := by
  intro s
  unfold portsTrained
  try dsimp only
  repeat' first
    | with_reducible rfl
    | simp only [↓h, ↓apply_ite P, ite_self]
    | split
    | refine (foldl_keeps P _ ?_ _ _).trans ?_
    | intro _ _

theorem startScanReplay_keeps {β : Type} (P : State → β) (h : ∀ (s : State) x0 x1 x2 x3 x4 x5 x6 x7 x8 x9 x10 x11 x12 x13 x14 x15 x16, P { s with trustSeen := x0, out := x1, mbxs := x2, ops := x3, evt := x4, boot := x5, bkp := x6, rf := x7, chans := x8, jnv := x9, jnl := x10, prov := x11, roots := x12, ledger := x13, slateNv := x14, slate := x15, life := x16 } = P s) :
    ∀ s, P (startScanReplay s) = P s := by
  have k0 := portsTrained_keeps P (fun s y0 => h s s.trustSeen s.out s.mbxs s.ops s.evt y0 s.bkp s.rf s.chans s.jnv s.jnl s.prov s.roots s.ledger s.slateNv s.slate s.life)
  have k1 := replayJournal_keeps P (fun s y0 y1 y2 y3 y4 y5 y6 y7 y8 y9 y10 => h s y0 y1 s.mbxs s.ops y2 s.boot y3 s.rf s.chans y4 y5 y6 y7 y8 s.slateNv y9 y10)
  have k2 := setRf_keeps P (fun s y0 => h s s.trustSeen s.out s.mbxs s.ops s.evt s.boot s.bkp y0 s.chans s.jnv s.jnl s.prov s.roots s.ledger s.slateNv s.slate s.life)
  have k3 := startScan_keeps P (fun s y0 y1 y2 y3 y4 y5 y6 y7 y8 => h s s.trustSeen y0 y1 y2 y3 s.boot y4 s.rf y5 s.jnv s.jnl s.prov s.roots s.ledger y6 y7 y8)
  intro s
  unfold startScanReplay
  try dsimp only
  repeat' first
    | with_reducible rfl
    | simp only [↓h, ↓k0, ↓k1, ↓k2, ↓k3, ↓apply_ite P, ite_self]
    | split
    | refine (foldl_keeps P _ ?_ _ _).trans ?_
    | intro _ _

theorem spiOut_keeps {β : Type} (P : State → β) (h : ∀ (s : State) x0, P { s with out := x0 } = P s) :
    ∀ a0 a1 s, P (spiOut a0 a1 s) = P s := by
  intro a0 a1 s
  unfold spiOut
  try dsimp only
  repeat' first
    | with_reducible rfl
    | simp only [↓h, ↓apply_ite P, ite_self]
    | split
    | refine (foldl_keeps P _ ?_ _ _).trans ?_
    | intro _ _

theorem rfTrain_keeps {β : Type} (P : State → β) (h : ∀ (s : State) x0 x1, P { s with out := x0, rf := x1 } = P s) :
    ∀ a0 s, P (rfTrain a0 s) = P s := by
  have k0 := setRf_keeps P (fun s y0 => h s s.out y0)
  have k1 := spiOut_keeps P (fun s y0 => h s y0 s.rf)
  intro a0 s
  unfold rfTrain
  try dsimp only
  repeat' first
    | with_reducible rfl
    | simp only [↓h, ↓k0, ↓k1, ↓apply_ite P, ite_self]
    | split
    | refine (foldl_keeps P _ ?_ _ _).trans ?_
    | intro _ _

theorem trainOk_keeps {β : Type} (P : State → β) (h : ∀ (s : State) x0 x1 x2 x3, P { s with out := x0, cfg := x1, evt := x2, rf := x3 } = P s) :
    ∀ a0 a1 a2 s, P (trainOk a0 a1 a2 s) = P s := by
  have k0 := raiseIf_keeps P (fun s y0 y1 => h s y0 s.cfg y1 s.rf)
  have k1 := setRf_keeps P (fun s y0 => h s s.out s.cfg s.evt y0)
  have k2 := spiOut_keeps P (fun s y0 => h s y0 s.cfg s.evt s.rf)
  intro a0 a1 a2 s
  unfold trainOk
  try dsimp only
  repeat' first
    | with_reducible rfl
    | simp only [↓h, ↓k0, ↓k1, ↓k2, ↓apply_ite P, ite_self]
    | split
    | refine (foldl_keeps P _ ?_ _ _).trans ?_
    | intro _ _

theorem trainFail_keeps {β : Type} (P : State → β) (h : ∀ (s : State) x0 x1 x2 x3 x4 x5, P { s with out := x0, cfg := x1, evt := x2, bkp := x3, rf := x4, slate := x5 } = P s) :
    ∀ a0 a1 a2 s, P (trainFail a0 a1 a2 s) = P s := by
  have k0 := record_keeps P (fun s y0 y1 y2 y3 => h s y0 s.cfg y1 y2 s.rf y3)
  have k1 := setRf_keeps P (fun s y0 => h s s.out s.cfg s.evt s.bkp y0 s.slate)
  have k2 := spiOut_keeps P (fun s y0 => h s y0 s.cfg s.evt s.bkp s.rf s.slate)
  intro a0 a1 a2 s
  unfold trainFail
  try dsimp only
  repeat' first
    | with_reducible rfl
    | simp only [↓h, ↓k0, ↓k1, ↓k2, ↓apply_ite P, ite_self]
    | split
    | refine (foldl_keeps P _ ?_ _ _).trans ?_
    | intro _ _

theorem rfTrainEnd_keeps {β : Type} (P : State → β) (h : ∀ (s : State) x0 x1 x2 x3 x4 x5 x6 x7 x8, P { s with out := x0, cfg := x1, mbxs := x2, ops := x3, evt := x4, boot := x5, bkp := x6, rf := x7, slate := x8 } = P s) :
    ∀ a0 a1 s, P (rfTrainEnd a0 a1 s) = P s := by
  have k0 := dprstDone_keeps P (fun s y0 y1 y2 y3 y4 y5 y6 => h s y0 s.cfg y1 y2 y3 y4 y5 s.rf y6)
  have k1 := noteCaps_keeps P (fun s y0 y1 => h s y0 s.cfg s.mbxs s.ops y1 s.boot s.bkp s.rf s.slate)
  have k2 := portsTrained_keeps P (fun s y0 => h s s.out s.cfg s.mbxs s.ops s.evt y0 s.bkp s.rf s.slate)
  have k3 := trainFail_keeps P (fun s y0 y1 y2 y3 y4 y5 => h s y0 y1 s.mbxs s.ops y2 s.boot y3 y4 y5)
  have k4 := trainOk_keeps P (fun s y0 y1 y2 y3 => h s y0 y1 s.mbxs s.ops y2 s.boot s.bkp y3 s.slate)
  intro a0 a1 s
  unfold rfTrainEnd
  try dsimp only
  repeat' first
    | with_reducible rfl
    | simp only [↓h, ↓k0, ↓k1, ↓k2, ↓k3, ↓k4, ↓apply_ite P, ite_self]
    | split
    | refine (foldl_keeps P _ ?_ _ _).trans ?_
    | intro _ _

theorem trainReportGet_keeps {β : Type} (P : State → β) :
    ∀ a0 s, P (trainReportGet a0 s).st = P s := by
  have k0 := refuse_keeps P
  have k1 := replyOk_keeps P
  intro a0 s
  unfold trainReportGet
  try dsimp only
  repeat' first
    | with_reducible rfl
    | simp only [↓k0, ↓k1, ↓apply_ite P, ite_self, Reply.st_done, Reply.st_pend, Reply.st_twice, Reply.st_wait, replyOk_st, refuse_st]
    | split
    | refine (foldl_keeps P _ ?_ _ _).trans ?_
    | intro _ _

theorem plcOffset_keeps {β : Type} (P : State → β) (h : ∀ (s : State) x0 x1 x2, P { s with out := x0, evt := x1, plc := x2 } = P s) :
    ∀ a0 a1 s, P (plcOffset a0 a1 s) = P s := by
  have k0 := raiseIf_keeps P (fun s y0 y1 => h s y0 y1 s.plc)
  have k1 := setPlc_keeps P (fun s y0 => h s s.out s.evt y0)
  intro a0 a1 s
  unfold plcOffset
  try dsimp only
  repeat' first
    | with_reducible rfl
    | simp only [↓h, ↓k0, ↓k1, ↓apply_ite P, ite_self]
    | split
    | refine (foldl_keeps P _ ?_ _ _).trans ?_
    | intro _ _

theorem plcOffsetCal_keeps {β : Type} (P : State → β) (h : ∀ (s : State) x0 x1 x2 x3, P { s with out := x0, evt := x1, boot := x2, plc := x3 } = P s) :
    ∀ a0 s, P (plcOffsetCal a0 s) = P s := by
  have k0 := plcOffset_keeps P (fun s y0 y1 y2 => h s y0 y1 s.boot y2)
  intro a0 s
  unfold plcOffsetCal
  try dsimp only
  repeat' first
    | with_reducible rfl
    | simp only [↓h, ↓k0, ↓apply_ite P, ite_self]
    | split
    | refine (foldl_keeps P _ ?_ _ _).trans ?_
    | intro _ _

theorem bistPorts_keeps {β : Type} (P : State → β) (h : ∀ (s : State) x0 x1, P { s with rf := x0, plc := x1 } = P s) :
    ∀ a0 s, P (bistPorts a0 s) = P s := by
  have k0 := setPlc_keeps P (fun s y0 => h s s.rf y0)
  have k1 := setRf_keeps P (fun s y0 => h s y0 s.plc)
  intro a0 s
  unfold bistPorts
  try dsimp only
  repeat' first
    | with_reducible rfl
    | simp only [↓h, ↓k0, ↓k1, ↓apply_ite P, ite_self]
    | split
    | refine (foldl_keeps P _ ?_ _ _).trans ?_
    | intro _ _

theorem mapLanes_keeps {β : Type} (P : State → β) (h : ∀ (s : State) x0 x1 x2, P { s with laneCount := x0, roles := x1, rot := x2 } = P s) :
    ∀ s, P (mapLanes s) = P s := by
  intro s
  unfold mapLanes
  try dsimp only
  repeat' first
    | with_reducible rfl
    | simp only [↓h, ↓apply_ite P, ite_self]
    | split
    | refine (foldl_keeps P _ ?_ _ _).trans ?_
    | intro _ _

theorem dataplaneBist_keeps {β : Type} (P : State → β) (h : ∀ (s : State) x0 x1 x2 x3 x4 x5 x6 x7 x8, P { s with out := x0, evt := x1, boot := x2, rf := x3, laneCount := x4, roles := x5, rot := x6, plc := x7, life := x8 } = P s) :
    ∀ a0 a1 a2 s, P (dataplaneBist a0 a1 a2 s) = P s := by
  have k0 := addRepair_keeps P (fun s y0 => h s s.out s.evt s.boot s.rf s.laneCount s.roles s.rot s.plc y0)
  have k1 := addSramRepairs_keeps P (fun s y0 => h s s.out s.evt s.boot s.rf s.laneCount s.roles s.rot s.plc y0)
  have k2 := bistPorts_keeps P (fun s y0 y1 => h s s.out s.evt s.boot y0 s.laneCount s.roles s.rot y1 s.life)
  have k3 := mapLanes_keeps P (fun s y0 y1 y2 => h s s.out s.evt s.boot s.rf y0 y1 y2 s.plc s.life)
  have k4 := raise_keeps P (fun s y0 y1 => h s y0 y1 s.boot s.rf s.laneCount s.roles s.rot s.plc s.life)
  have k5 := raiseIf_keeps P (fun s y0 y1 => h s y0 y1 s.boot s.rf s.laneCount s.roles s.rot s.plc s.life)
  intro a0 a1 a2 s
  unfold dataplaneBist
  try dsimp only
  repeat' first
    | with_reducible rfl
    | simp only [↓h, ↓k0, ↓k1, ↓k2, ↓k3, ↓k4, ↓k5, ↓apply_ite P, ite_self]
    | split
    | refine (foldl_keeps P _ ?_ _ _).trans ?_
    | intro _ _

end Sys2Proof.Machine
end

