-- ==== Sys2Proof/Laws/KeepFirmware.lean ====
section
/-! SUPPORT. What the functions of Machine/Firmware.lean leave unchanged. -/

set_option linter.unusedSimpArgs false
set_option linter.unreachableTactic false
set_option linter.unusedTactic false

namespace Sys2Proof.Machine

theorem setStep_keeps {β : Type} (P : State → β) (h : ∀ (s : State) x0, P { s with fwNv := x0 } = P s) :
    ∀ a0 s, P (setStep a0 s) = P s := by
  intro a0 s
  unfold setStep
  try dsimp only
  repeat' first
    | with_reducible rfl
    | simp only [↓h, ↓apply_ite P, ite_self]
    | split
    | refine (foldl_keeps P _ ?_ _ _).trans ?_
    | intro _ _

theorem setSteps_keeps {β : Type} (P : State → β) (h : ∀ (s : State) x0, P { s with fwNv := x0 } = P s) :
    ∀ a0 s, P (setSteps a0 s) = P s := by
  have k0 := setStep_keeps P (fun s y0 => h s y0)
  intro a0 s
  unfold setSteps
  try dsimp only
  repeat' first
    | with_reducible rfl
    | simp only [↓h, ↓k0, ↓apply_ite P, ite_self]
    | split
    | refine (foldl_keeps P _ ?_ _ _).trans ?_
    | intro _ _

theorem dropStaging_keeps {β : Type} (P : State → β) (h : ∀ (s : State) x0 x1, P { s with fwNv := x0, fw := x1 } = P s) :
    ∀ s, P (dropStaging s) = P s := by
  intro s
  unfold dropStaging
  try dsimp only
  repeat' first
    | with_reducible rfl
    | simp only [↓h, ↓apply_ite P, ite_self]
    | split
    | refine (foldl_keeps P _ ?_ _ _).trans ?_
    | intro _ _

theorem fwStageBegin_keeps {β : Type} (P : State → β) (h : ∀ (s : State) x0 x1, P { s with fwNv := x0, fw := x1 } = P s) :
    ∀ a0 a1 s, P (fwStageBegin a0 a1 s).st = P s := by
  have k0 := refuse_keeps P
  intro a0 a1 s
  unfold fwStageBegin
  try dsimp only
  repeat' first
    | with_reducible rfl
    | simp only [↓h, ↓k0, ↓apply_ite P, ite_self, Reply.st_done, Reply.st_pend, Reply.st_twice, Reply.st_wait, replyOk_st, refuse_st]
    | split
    | refine (foldl_keeps P _ ?_ _ _).trans ?_
    | intro _ _

theorem stagingErased_keeps {β : Type} (P : State → β) (h : ∀ (s : State) x0 x1 x2 x3 x4 x5 x6, P { s with out := x0, mbxs := x1, ops := x2, evt := x3, bkp := x4, slate := x5, fw := x6 } = P s) :
    ∀ s, P (stagingErased s) = P s := by
  have k0 := finishOp_keeps P (fun s y0 y1 y2 y3 y4 y5 => h s y0 y1 y2 y3 y4 y5 s.fw)
  intro s
  unfold stagingErased
  try dsimp only
  repeat' first
    | with_reducible rfl
    | simp only [↓h, ↓k0, ↓apply_ite P, ite_self]
    | split
    | refine (foldl_keeps P _ ?_ _ _).trans ?_
    | intro _ _

theorem fwStageWrite_keeps {β : Type} (P : State → β) (h : ∀ (s : State) x0, P { s with fw := x0 } = P s) :
    ∀ a0 s, P (fwStageWrite a0 s).st = P s := by
  have k0 := refuse_keeps P
  have k1 := replyOk_keeps P
  intro a0 s
  unfold fwStageWrite
  try dsimp only
  repeat' first
    | with_reducible rfl
    | simp only [↓h, ↓k0, ↓k1, ↓apply_ite P, ite_self, Reply.st_done, Reply.st_pend, Reply.st_twice, Reply.st_wait, replyOk_st, refuse_st]
    | split
    | refine (foldl_keeps P _ ?_ _ _).trans ?_
    | intro _ _

theorem fwStageCommit_keeps {β : Type} (P : State → β) (h : ∀ (s : State) x0 x1 x2 x3, P { s with out := x0, evt := x1, fwNv := x2, fw := x3 } = P s) :
    ∀ s, P (fwStageCommit s).st = P s := by
  have k0 := dropStaging_keeps P (fun s y0 y1 => h s s.out s.evt y0 y1)
  have k1 := raise_keeps P (fun s y0 y1 => h s y0 y1 s.fwNv s.fw)
  have k2 := refuse_keeps P
  intro s
  unfold fwStageCommit
  try dsimp only
  repeat' first
    | with_reducible rfl
    | simp only [↓h, ↓k0, ↓k1, ↓k2, ↓apply_ite P, ite_self, Reply.st_done, Reply.st_pend, Reply.st_twice, Reply.st_wait, replyOk_st, refuse_st]
    | split
    | refine (foldl_keeps P _ ?_ _ _).trans ?_
    | intro _ _

theorem fwStageClear_keeps {β : Type} (P : State → β) (h : ∀ (s : State) x0 x1, P { s with fwNv := x0, fw := x1 } = P s) :
    ∀ s, P (fwStageClear s).st = P s := by
  have k0 := dropStaging_keeps P (fun s y0 y1 => h s y0 y1)
  have k1 := refuse_keeps P
  have k2 := replyOk_keeps P
  intro s
  unfold fwStageClear
  try dsimp only
  repeat' first
    | with_reducible rfl
    | simp only [↓h, ↓k0, ↓k1, ↓k2, ↓apply_ite P, ite_self, Reply.st_done, Reply.st_pend, Reply.st_twice, Reply.st_wait, replyOk_st, refuse_st]
    | split
    | refine (foldl_keeps P _ ?_ _ _).trans ?_
    | intro _ _

theorem installAll_keeps {β : Type} (P : State → β) (h : ∀ (s : State) x0, P { s with fwNv := x0 } = P s) :
    ∀ s, P (installAll s) = P s := by
  have k0 := setStep_keeps P (fun s y0 => h s y0)
  have k1 := setSteps_keeps P (fun s y0 => h s y0)
  intro s
  unfold installAll
  try dsimp only
  repeat' first
    | with_reducible rfl
    | simp only [↓h, ↓k0, ↓k1, ↓apply_ite P, ite_self]
    | split
    | refine (foldl_keeps P _ ?_ _ _).trans ?_
    | intro _ _

theorem installPart_keeps {β : Type} (P : State → β) (h : ∀ (s : State) x0, P { s with fwNv := x0 } = P s) :
    ∀ a0 s, P (installPart a0 s) = P s := by
  have k0 := installAll_keeps P (fun s y0 => h s y0)
  have k1 := setStep_keeps P (fun s y0 => h s y0)
  intro a0 s
  unfold installPart
  try dsimp only
  repeat' first
    | with_reducible rfl
    | simp only [↓h, ↓k0, ↓k1, ↓apply_ite P, ite_self]
    | split
    | refine (foldl_keeps P _ ?_ _ _).trans ?_
    | intro _ _

theorem fwPrepare_keeps {β : Type} (P : State → β) (h : ∀ (s : State) x0 x1, P { s with fwNv := x0, fw := x1 } = P s) :
    ∀ a0 s, P (fwPrepare a0 s).st = P s := by
  have k0 := refuse_keeps P
  have k1 := setSteps_keeps P (fun s y0 => h s y0 s.fw)
  intro a0 s
  unfold fwPrepare
  try dsimp only
  repeat' first
    | with_reducible rfl
    | simp only [↓h, ↓k0, ↓k1, ↓apply_ite P, ite_self, Reply.st_done, Reply.st_pend, Reply.st_twice, Reply.st_wait, replyOk_st, refuse_st]
    | split
    | refine (foldl_keeps P _ ?_ _ _).trans ?_
    | intro _ _

theorem fwPrepareDone_keeps {β : Type} (P : State → β) (h : ∀ (s : State) x0 x1 x2 x3 x4 x5 x6 x7 x8, P { s with freeCtr := x0, out := x1, mbxs := x2, ops := x3, evt := x4, bkp := x5, slate := x6, fwNv := x7, fw := x8 } = P s) :
    ∀ a0 s, P (fwPrepareDone a0 s) = P s := by
  have k0 := finishOp_keeps P (fun s y0 y1 y2 y3 y4 y5 => h s s.freeCtr y0 y1 y2 y3 y4 y5 s.fwNv s.fw)
  have k1 := installAll_keeps P (fun s y0 => h s s.freeCtr s.out s.mbxs s.ops s.evt s.bkp s.slate y0 s.fw)
  have k2 := installPart_keeps P (fun s y0 => h s s.freeCtr s.out s.mbxs s.ops s.evt s.bkp s.slate y0 s.fw)
  have k3 := recordFault_keeps P (fun s y0 y1 y2 y3 y4 => h s y0 y1 s.mbxs s.ops y2 y3 y4 s.fwNv s.fw)
  have q3 := fun b0 b1 b2 t u (e : recordFault b0 b1 b2 = (u, t)) => (congrArg (fun z => P z.2) e).symm.trans (k3 b0 b1 b2)
  intro a0 s
  unfold fwPrepareDone
  try dsimp only
  repeat' first
    | with_reducible rfl
    | simp only [↓h, ↓k0, ↓k1, ↓k2, ↓k3, ↓apply_ite P, ite_self]
    | split
    | refine (q3 _ _ _ _ _ (by assumption)).trans ?_
    | refine (foldl_keeps P _ ?_ _ _).trans ?_
    | intro _ _

theorem fwMicrocodeAt_keeps {β : Type} (P : State → β) (h : ∀ (s : State) x0 x1, P { s with fw := x0, maint := x1 } = P s) :
    ∀ a0 s, P (fwMicrocodeAt a0 s).st = P s := by
  have k0 := askToken_keeps P (fun s y0 => h s s.fw y0)
  have k1 := dropToken_keeps P (fun s y0 => h s s.fw y0)
  have k2 := refuse_keeps P
  have k3 := replyOk_keeps P
  intro a0 s
  unfold fwMicrocodeAt
  try dsimp only
  repeat' first
    | with_reducible rfl
    | simp only [↓h, ↓k0, ↓k1, ↓k2, ↓k3, ↓apply_ite P, ite_self, Reply.st_done, Reply.st_pend, Reply.st_twice, Reply.st_wait, replyOk_st, refuse_st]
    | split
    | refine (foldl_keeps P _ ?_ _ _).trans ?_
    | intro _ _

theorem switchNow_keeps {β : Type} (P : State → β) (h : ∀ (s : State) x0 x1 x2 x3 x4 x5, P { s with freeCtr := x0, out := x1, evt := x2, lanes := x3, fw := x4, maint := x5 } = P s) :
    ∀ s, P (switchNow s) = P s := by
  have k0 := dropToken_keeps P (fun s y0 => h s s.freeCtr s.out s.evt s.lanes s.fw y0)
  have k1 := laneEarly_keeps P (fun s y0 y1 => h s y0 s.out s.evt y1 s.fw s.maint)
  have k2 := raise_keeps P (fun s y0 y1 => h s s.freeCtr y0 y1 s.lanes s.fw s.maint)
  intro s
  unfold switchNow
  try dsimp only
  repeat' first
    | with_reducible rfl
    | simp only [↓h, ↓k0, ↓k1, ↓k2, ↓apply_ite P, ite_self]
    | split
    | refine (foldl_keeps P _ ?_ _ _).trans ?_
    | intro _ _

theorem microcodeSwitch_keeps {β : Type} (P : State → β) (h : ∀ (s : State) x0 x1 x2 x3 x4 x5 x6 x7, P { s with now := x0, mono := x1, freeCtr := x2, out := x3, evt := x4, lanes := x5, fw := x6, maint := x7 } = P s) :
    ∀ s, P (microcodeSwitch s) = P s := by
  have k0 := advTo_keeps P (fun s y0 y1 => h s y0 y1 s.freeCtr s.out s.evt s.lanes s.fw s.maint)
  have k1 := askToken_keeps P (fun s y0 => h s s.now s.mono s.freeCtr s.out s.evt s.lanes s.fw y0)
  have k2 := switchNow_keeps P (fun s y0 y1 y2 y3 y4 y5 => h s s.now s.mono y0 y1 y2 y3 y4 y5)
  intro s
  unfold microcodeSwitch
  try dsimp only
  repeat' first
    | with_reducible rfl
    | simp only [↓h, ↓k0, ↓k1, ↓k2, ↓apply_ite P, ite_self]
    | split
    | refine (foldl_keeps P _ ?_ _ _).trans ?_
    | intro _ _

theorem fwActivate_keeps {β : Type} (P : State → β) :
    ∀ s, P (fwActivate s).st = P s := by
  have k0 := refuse_keeps P
  intro s
  unfold fwActivate
  try dsimp only
  repeat' first
    | with_reducible rfl
    | simp only [↓k0, ↓apply_ite P, ite_self, Reply.st_done, Reply.st_pend, Reply.st_twice, Reply.st_wait, replyOk_st, refuse_st]
    | split
    | refine (foldl_keeps P _ ?_ _ _).trans ?_
    | intro _ _

theorem startPause_keeps {β : Type} (P : State → β) (h : ∀ (s : State) x0, P { s with fw := x0 } = P s) :
    ∀ s, P (startPause s) = P s := by
  intro s
  unfold startPause
  try dsimp only
  repeat' first
    | with_reducible rfl
    | simp only [↓h, ↓apply_ite P, ite_self]
    | split
    | refine (foldl_keeps P _ ?_ _ _).trans ?_
    | intro _ _

theorem trialFails_keeps {β : Type} (P : State → β) (h : ∀ (s : State) x0 x1, P { s with boot := x0, fwNv := x1 } = P s) :
    ∀ s, P (trialFails s) = P s := by
  intro s
  unfold trialFails
  try dsimp only
  repeat' first
    | with_reducible rfl
    | simp only [↓h, ↓apply_ite P, ite_self]
    | split
    | refine (foldl_keeps P _ ?_ _ _).trans ?_
    | intro _ _

theorem pauseOverrun_keeps {β : Type} (P : State → β) (h : ∀ (s : State) x0 x1 x2 x3, P { s with now := x0, mono := x1, boot := x2, fwNv := x3 } = P s) :
    ∀ s, P (pauseOverrun s) = P s := by
  have k0 := advMono_keeps P (fun s y0 y1 => h s y0 y1 s.boot s.fwNv)
  have k1 := trialFails_keeps P (fun s y0 y1 => h s s.now s.mono y0 y1)
  intro s
  unfold pauseOverrun
  try dsimp only
  repeat' first
    | with_reducible rfl
    | simp only [↓h, ↓k0, ↓k1, ↓apply_ite P, ite_self]
    | split
    | refine (foldl_keeps P _ ?_ _ _).trans ?_
    | intro _ _

theorem fwConfirm_keeps {β : Type} (P : State → β) (h : ∀ (s : State) x0 x1 x2 x3 x4 x5 x6, P { s with out := x0, evt := x1, boot := x2, bkp := x3, slate := x4, fwNv := x5, fw := x6 } = P s) :
    ∀ s, P (fwConfirm s).st = P s := by
  have k0 := record_keeps P (fun s y0 y1 y2 y3 => h s y0 y1 s.boot y2 y3 s.fwNv s.fw)
  have k1 := refuse_keeps P
  have k2 := replyOk_keeps P
  intro s
  unfold fwConfirm
  try dsimp only
  repeat' first
    | with_reducible rfl
    | simp only [↓h, ↓k0, ↓k1, ↓k2, ↓apply_ite P, ite_self, Reply.st_done, Reply.st_pend, Reply.st_twice, Reply.st_wait, replyOk_st, refuse_st]
    | split
    | refine (foldl_keeps P _ ?_ _ _).trans ?_
    | intro _ _

theorem confirmExpiry_keeps {β : Type} (P : State → β) (h : ∀ (s : State) x0 x1 x2 x3, P { s with now := x0, mono := x1, boot := x2, fwNv := x3 } = P s) :
    ∀ s, P (confirmExpiry s) = P s := by
  have k0 := advMono_keeps P (fun s y0 y1 => h s y0 y1 s.boot s.fwNv)
  have k1 := trialFails_keeps P (fun s y0 y1 => h s s.now s.mono y0 y1)
  intro s
  unfold confirmExpiry
  try dsimp only
  repeat' first
    | with_reducible rfl
    | simp only [↓h, ↓k0, ↓k1, ↓apply_ite P, ite_self]
    | split
    | refine (foldl_keeps P _ ?_ _ _).trans ?_
    | intro _ _

theorem handover_keeps {β : Type} (P : State → β) (h : ∀ (s : State) x0 x1, P { s with boot := x0, fw := x1 } = P s) :
    ∀ a0 s, P (handover a0 s) = P s := by
  intro a0 s
  unfold handover
  try dsimp only
  repeat' first
    | with_reducible rfl
    | simp only [↓h, ↓apply_ite P, ite_self]
    | split
    | refine (foldl_keeps P _ ?_ _ _).trans ?_
    | intro _ _

theorem trialStart_keeps {β : Type} (P : State → β) (h : ∀ (s : State) x0 x1, P { s with boot := x0, fwNv := x1 } = P s) :
    ∀ s, P (trialStart s) = P s := by
  intro s
  unfold trialStart
  try dsimp only
  repeat' first
    | with_reducible rfl
    | simp only [↓h, ↓apply_ite P, ite_self]
    | split
    | refine (foldl_keeps P _ ?_ _ _).trans ?_
    | intro _ _

theorem restoreFallback_keeps {β : Type} (P : State → β) (h : ∀ (s : State) x0 x1 x2 x3 x4 x5 x6, P { s with out := x0, evt := x1, boot := x2, bkp := x3, slate := x4, fwNv := x5, fw := x6 } = P s) :
    ∀ s, P (restoreFallback s) = P s := by
  have k0 := raise_keeps P (fun s y0 y1 => h s y0 y1 s.boot s.bkp s.slate s.fwNv s.fw)
  have k1 := record_keeps P (fun s y0 y1 y2 y3 => h s y0 y1 s.boot y2 y3 s.fwNv s.fw)
  have k2 := setSteps_keeps P (fun s y0 => h s s.out s.evt s.boot s.bkp s.slate y0 s.fw)
  intro s
  unfold restoreFallback
  try dsimp only
  repeat' first
    | with_reducible rfl
    | simp only [↓h, ↓k0, ↓k1, ↓k2, ↓apply_ite P, ite_self]
    | split
    | refine (foldl_keeps P _ ?_ _ _).trans ?_
    | intro _ _

theorem resumeStep_keeps {β : Type} (P : State → β) (h : ∀ (s : State) x0, P { s with fwNv := x0 } = P s) :
    ∀ s, P (resumeStep s) = P s := by
  have k0 := installAll_keeps P (fun s y0 => h s y0)
  have k1 := setStep_keeps P (fun s y0 => h s y0)
  intro s
  unfold resumeStep
  try dsimp only
  repeat' first
    | with_reducible rfl
    | simp only [↓h, ↓k0, ↓k1, ↓apply_ite P, ite_self]
    | split
    | refine (foldl_keeps P _ ?_ _ _).trans ?_
    | intro _ _

theorem installStaged_keeps {β : Type} (P : State → β) (h : ∀ (s : State) x0 x1 x2 x3, P { s with out := x0, evt := x1, fwNv := x2, fw := x3 } = P s) :
    ∀ s, P (installStaged s) = P s := by
  have k0 := installAll_keeps P (fun s y0 => h s s.out s.evt y0 s.fw)
  have k1 := raise_keeps P (fun s y0 y1 => h s y0 y1 s.fwNv s.fw)
  intro s
  unfold installStaged
  try dsimp only
  repeat' first
    | with_reducible rfl
    | simp only [↓h, ↓k0, ↓k1, ↓apply_ite P, ite_self]
    | split
    | refine (foldl_keeps P _ ?_ _ _).trans ?_
    | intro _ _

theorem judgeTrial_keeps {β : Type} (P : State → β) (h : ∀ (s : State) x0 x1 x2 x3 x4 x5 x6, P { s with out := x0, evt := x1, boot := x2, bkp := x3, slate := x4, fwNv := x5, fw := x6 } = P s) :
    ∀ s, P (judgeTrial s) = P s := by
  have k0 := raise_keeps P (fun s y0 y1 => h s y0 y1 s.boot s.bkp s.slate s.fwNv s.fw)
  have k1 := restoreFallback_keeps P (fun s y0 y1 y2 y3 y4 y5 y6 => h s y0 y1 y2 y3 y4 y5 y6)
  intro s
  unfold judgeTrial
  try dsimp only
  repeat' first
    | with_reducible rfl
    | simp only [↓h, ↓k0, ↓k1, ↓apply_ite P, ite_self]
    | split
    | refine (foldl_keeps P _ ?_ _ _).trans ?_
    | intro _ _

theorem bootSlot_keeps {β : Type} (P : State → β) (h : ∀ (s : State) x0 x1 x2 x3, P { s with out := x0, evt := x1, bkp := x2, slate := x3 } = P s) :
    ∀ s, P (bootSlot s).1 = P s := by
  have k0 := record_keeps P (fun s y0 y1 y2 y3 => h s y0 y1 y2 y3)
  intro s
  unfold bootSlot
  try dsimp only
  repeat' first
    | with_reducible rfl
    | simp only [↓h, ↓k0, ↓apply_ite P, ite_self]
    | split
    | refine (foldl_keeps P _ ?_ _ _).trans ?_
    | intro _ _

theorem applyVerify_keeps {β : Type} (P : State → β) (h : ∀ (s : State) x0, P { s with fwNv := x0 } = P s) :
    ∀ a0 s, P (applyVerify a0 s) = P s := by
  intro a0 s
  unfold applyVerify
  try dsimp only
  repeat' first
    | with_reducible rfl
    | simp only [↓h, ↓apply_ite P, ite_self]
    | split
    | refine (foldl_keeps P _ ?_ _ _).trans ?_
    | intro _ _

theorem waitImage_keeps {β : Type} (P : State → β) (h : ∀ (s : State) x0 x1, P { s with boot := x0, fw := x1 } = P s) :
    ∀ s, P (waitImage s) = P s := by
  intro s
  unfold waitImage
  try dsimp only
  repeat' first
    | with_reducible rfl
    | simp only [↓h, ↓apply_ite P, ite_self]
    | split
    | refine (foldl_keeps P _ ?_ _ _).trans ?_
    | intro _ _

theorem bootRomVerify_keeps {β : Type} (P : State → β) (h : ∀ (s : State) x0 x1 x2 x3 x4 x5 x6, P { s with out := x0, evt := x1, boot := x2, bkp := x3, slate := x4, fwNv := x5, fw := x6 } = P s) :
    ∀ a0 s, P (bootRomVerify a0 s) = P s := by
  have k0 := applyVerify_keeps P (fun s y0 => h s s.out s.evt s.boot s.bkp s.slate y0 s.fw)
  have k1 := bootSlot_keeps P (fun s y0 y1 y2 y3 => h s y0 y1 s.boot y2 y3 s.fwNv s.fw)
  have k2 := handover_keeps P (fun s y0 y1 => h s s.out s.evt y0 s.bkp s.slate s.fwNv y1)
  have k3 := installStaged_keeps P (fun s y0 y1 y2 y3 => h s y0 y1 s.boot s.bkp s.slate y2 y3)
  have k4 := judgeTrial_keeps P (fun s y0 y1 y2 y3 y4 y5 y6 => h s y0 y1 y2 y3 y4 y5 y6)
  have k5 := resumeStep_keeps P (fun s y0 => h s s.out s.evt s.boot s.bkp s.slate y0 s.fw)
  have k6 := trialStart_keeps P (fun s y0 y1 => h s s.out s.evt y0 s.bkp s.slate y1 s.fw)
  have k7 := waitImage_keeps P (fun s y0 y1 => h s s.out s.evt y0 s.bkp s.slate s.fwNv y1)
  have q1 := fun b0 t u (e : bootSlot b0 = (t, u)) => (congrArg (fun z => P z.1) e).symm.trans (k1 b0)
  intro a0 s
  unfold bootRomVerify
  try dsimp only
  repeat' first
    | with_reducible rfl
    | simp only [↓h, ↓k0, ↓k1, ↓k2, ↓k3, ↓k4, ↓k5, ↓k6, ↓k7, ↓apply_ite P, ite_self]
    | split
    | refine (q1 _ _ _ (by assumption)).trans ?_
    | refine (foldl_keeps P _ ?_ _ _).trans ?_
    | intro _ _

theorem fwHostBoot_keeps {β : Type} (P : State → β) (h : ∀ (s : State) x0 x1 x2 x3 x4, P { s with freeCtr := x0, out := x1, evt := x2, bkp := x3, slate := x4 } = P s) :
    ∀ a0 a1 s, P (fwHostBoot a0 a1 s).st = P s := by
  have k0 := recordFault_keeps P (fun s y0 y1 y2 y3 y4 => h s y0 y1 y2 y3 y4)
  have k1 := refuse_keeps P
  have q0 := fun b0 b1 b2 t u (e : recordFault b0 b1 b2 = (u, t)) => (congrArg (fun z => P z.2) e).symm.trans (k0 b0 b1 b2)
  intro a0 a1 s
  unfold fwHostBoot
  try dsimp only
  repeat' first
    | with_reducible rfl
    | simp only [↓h, ↓k0, ↓k1, ↓apply_ite P, ite_self, Reply.st_done, Reply.st_pend, Reply.st_twice, Reply.st_wait, replyOk_st, refuse_st]
    | split
    | refine (q0 _ _ _ _ _ (by assumption)).trans ?_
    | refine (foldl_keeps P _ ?_ _ _).trans ?_
    | intro _ _

theorem hostHandover_keeps {β : Type} (P : State → β) (h : ∀ (s : State) x0 x1, P { s with boot := x0, fw := x1 } = P s) :
    ∀ a0 a1 a2 s, P (hostHandover a0 a1 a2 s) = P s := by
  have k0 := handover_keeps P (fun s y0 y1 => h s y0 y1)
  intro a0 a1 a2 s
  unfold hostHandover
  try dsimp only
  repeat' first
    | with_reducible rfl
    | simp only [↓h, ↓k0, ↓apply_ite P, ite_self]
    | split
    | refine (foldl_keeps P _ ?_ _ _).trans ?_
    | intro _ _

theorem advanceLifecycle_keeps {β : Type} (P : State → β) (h : ∀ (s : State) x0 x1 x2 x3 x4, P { s with out := x0, evt := x1, fuses := x2, bkp := x3, slate := x4 } = P s) :
    ∀ a0 s, P (advanceLifecycle a0 s) = P s := by
  have k0 := raise_keeps P (fun s y0 y1 => h s y0 y1 s.fuses s.bkp s.slate)
  have k1 := record_keeps P (fun s y0 y1 y2 y3 => h s y0 y1 s.fuses y2 y3)
  intro a0 s
  unfold advanceLifecycle
  try dsimp only
  repeat' first
    | with_reducible rfl
    | simp only [↓h, ↓k0, ↓k1, ↓apply_ite P, ite_self]
    | split
    | refine (foldl_keeps P _ ?_ _ _).trans ?_
    | intro _ _

theorem lifecycleAdvance_keeps {β : Type} (P : State → β) (h : ∀ (s : State) x0 x1 x2 x3 x4 x5 x6 x7 x8, P { s with out := x0, evt := x1, boot := x2, fuses := x3, bkp := x4, slots := x5, keys := x6, slate := x7, life := x8 } = P s) :
    ∀ a0 s, P (lifecycleAdvance a0 s).st = P s := by
  have k0 := advanceLifecycle_keeps P (fun s y0 y1 y2 y3 y4 => h s y0 y1 s.boot y2 y3 s.slots s.keys y4 s.life)
  have k1 := destroySlot_keeps P (fun s y0 y1 y2 y3 y4 y5 y6 => h s y0 y1 s.boot s.fuses y2 y3 y4 y5 y6)
  have k2 := refuse_keeps P
  have k3 := replyOk_keeps P
  have q1 := fun b0 b1 t u (e : destroySlot b0 b1 = (t, u)) => (congrArg (fun z => P z.1) e).symm.trans (k1 b0 b1)
  intro a0 s
  unfold lifecycleAdvance
  try dsimp only
  repeat' first
    | with_reducible rfl
    | simp only [↓h, ↓k0, ↓k1, ↓k2, ↓k3, ↓apply_ite P, ite_self, Reply.st_done, Reply.st_pend, Reply.st_twice, Reply.st_wait, replyOk_st, refuse_st]
    | split
    | refine (q1 _ _ _ _ (by assumption)).trans ?_
    | refine (foldl_keeps P _ ?_ _ _).trans ?_
    | intro _ _

theorem custKeyProgram_keeps {β : Type} (P : State → β) (h : ∀ (s : State) x0, P { s with fuses := x0 } = P s) :
    ∀ a0 s, P (custKeyProgram a0 s).st = P s := by
  have k0 := refuse_keeps P
  have k1 := replyOk_keeps P
  intro a0 s
  unfold custKeyProgram
  try dsimp only
  repeat' first
    | with_reducible rfl
    | simp only [↓h, ↓k0, ↓k1, ↓apply_ite P, ite_self, Reply.st_done, Reply.st_pend, Reply.st_twice, Reply.st_wait, replyOk_st, refuse_st]
    | split
    | refine (foldl_keeps P _ ?_ _ _).trans ?_
    | intro _ _

end Sys2Proof.Machine
end

