-- ==== Sys2Proof/Laws/KeepCommit.lean ====
section
/-! SUPPORT. What the functions of Machine/Commit.lean leave unchanged. -/

set_option linter.unusedSimpArgs false
set_option linter.unreachableTactic false
set_option linter.unusedTactic false

namespace Sys2Proof.Machine

theorem configBegin_keeps {β : Type} (P : State → β) (h : ∀ (s : State) x0 x1 x2, P { s with out := x0, cfg := x1, evt := x2 } = P s) :
    ∀ s, P (configBegin s).st = P s := by
  have k0 := refuse_keeps P
  have k1 := replyOk_keeps P
  have k2 := setCfgState_keeps P (fun s y0 y1 y2 => h s y0 y1 y2)
  intro s
  unfold configBegin
  try dsimp only
  repeat' first
    | with_reducible rfl
    | simp only [↓h, ↓k0, ↓k1, ↓k2, ↓apply_ite P, ite_self, Reply.st_done, Reply.st_pend, Reply.st_twice, Reply.st_wait, replyOk_st, refuse_st]
    | split
    | refine (foldl_keeps P _ ?_ _ _).trans ?_
    | intro _ _

theorem configAbort_keeps {β : Type} (P : State → β) (h : ∀ (s : State) x0 x1 x2, P { s with out := x0, cfg := x1, evt := x2 } = P s) :
    ∀ s, P (configAbort s).st = P s := by
  have k0 := refuse_keeps P
  have k1 := replyOk_keeps P
  have k2 := setCfgState_keeps P (fun s y0 y1 y2 => h s y0 y1 y2)
  intro s
  unfold configAbort
  try dsimp only
  repeat' first
    | with_reducible rfl
    | simp only [↓h, ↓k0, ↓k1, ↓k2, ↓apply_ite P, ite_self, Reply.st_done, Reply.st_pend, Reply.st_twice, Reply.st_wait, replyOk_st, refuse_st]
    | split
    | refine (foldl_keeps P _ ?_ _ _).trans ?_
    | intro _ _

theorem commitCheck_keeps {β : Type} (P : State → β) (h : ∀ (s : State) x0 x1 x2 x3, P { s with out := x0, cfg := x1, evt := x2, rf := x3 } = P s) :
    ∀ a0 a1 s, P (commitCheck a0 a1 s).st = P s := by
  have k0 := setCfgState_keeps P (fun s y0 y1 y2 => h s y0 y1 y2 s.rf)
  have k1 := setRf_keeps P (fun s y0 => h s s.out s.cfg s.evt y0)
  intro a0 a1 s
  unfold commitCheck
  try dsimp only
  repeat' first
    | with_reducible rfl
    | simp only [↓h, ↓k0, ↓k1, ↓apply_ite P, ite_self, Reply.st_done, Reply.st_pend, Reply.st_twice, Reply.st_wait, replyOk_st, refuse_st]
    | split
    | refine (foldl_keeps P _ ?_ _ _).trans ?_
    | intro _ _

theorem configCommit_keeps {β : Type} (P : State → β) (h : ∀ (s : State) x0 x1 x2 x3, P { s with out := x0, cfg := x1, evt := x2, rf := x3 } = P s) :
    ∀ a0 s, P (configCommit a0 s).st = P s := by
  have k0 := commitCheck_keeps P (fun s y0 y1 y2 y3 => h s y0 y1 y2 y3)
  have k1 := refuse_keeps P
  have k2 := setCfgState_keeps P (fun s y0 y1 y2 => h s y0 y1 y2 s.rf)
  intro a0 s
  unfold configCommit
  try dsimp only
  repeat' first
    | with_reducible rfl
    | simp only [↓h, ↓k0, ↓k1, ↓k2, ↓apply_ite P, ite_self, Reply.st_done, Reply.st_pend, Reply.st_twice, Reply.st_wait, replyOk_st, refuse_st]
    | split
    | refine (foldl_keeps P _ ?_ _ _).trans ?_
    | intro _ _

theorem chooseTc_keeps {β : Type} (P : State → β) (h : ∀ (s : State) x0, P { s with freeCtr := x0 } = P s) :
    ∀ a0 s, P (chooseTc a0 s).2 = P s := by
  have k0 := fresh_keeps P (fun s y0 => h s y0)
  have q0 := fun b0 t u (e : fresh b0 = (u, t)) => (congrArg (fun z => P z.2) e).symm.trans (k0 b0)
  intro a0 s
  unfold chooseTc
  try dsimp only
  repeat' first
    | with_reducible rfl
    | simp only [↓h, ↓k0, ↓apply_ite P, ite_self]
    | split
    | refine (q0 _ _ _ (by assumption)).trans ?_
    | refine (foldl_keeps P _ ?_ _ _).trans ?_
    | intro _ _

theorem switchRf_keeps {β : Type} (P : State → β) (h : ∀ (s : State) x0 x1, P { s with out := x0, rf := x1 } = P s) :
    ∀ a0 a1 a2 s, P (switchRf a0 a1 a2 s) = P s := by
  have k0 := setRf_keeps P (fun s y0 => h s s.out y0)
  have k1 := spiOut_keeps P (fun s y0 => h s y0 s.rf)
  intro a0 a1 a2 s
  unfold switchRf
  try dsimp only
  repeat' first
    | with_reducible rfl
    | simp only [↓h, ↓k0, ↓k1, ↓apply_ite P, ite_self]
    | split
    | refine (foldl_keeps P _ ?_ _ _).trans ?_
    | intro _ _

theorem switchLaneTo_keeps {β : Type} (P : State → β) (h : ∀ (s : State) x0 x1 x2 x3, P { s with freeCtr := x0, lanes := x1, roles := x2, rot := x3 } = P s) :
    ∀ a0 a1 a2 s, P (switchLaneTo a0 a1 a2 s) = P s := by
  have k0 := dropShadow_keeps P (fun s y0 y1 => h s s.freeCtr s.lanes y0 y1)
  have k1 := laneEarly_keeps P (fun s y0 y1 => h s y0 y1 s.roles s.rot)
  have k2 := setLane_keeps P (fun s y0 => h s s.freeCtr y0 s.roles s.rot)
  intro a0 a1 a2 s
  unfold switchLaneTo
  try dsimp only
  repeat' first
    | with_reducible rfl
    | simp only [↓h, ↓k0, ↓k1, ↓k2, ↓apply_ite P, ite_self]
    | split
    | refine (foldl_keeps P _ ?_ _ _).trans ?_
    | intro _ _

theorem switchLanes_keeps {β : Type} (P : State → β) (h : ∀ (s : State) x0 x1 x2 x3 x4 x5 x6 x7 x8 x9, P { s with freeCtr := x0, out := x1, mbxs := x2, ops := x3, evt := x4, bkp := x5, lanes := x6, roles := x7, rot := x8, slate := x9 } = P s) :
    ∀ a0 a1 s, P (switchLanes a0 a1 s) = P s := by
  have k0 := finishAssigns_keeps P (fun s y0 y1 y2 y3 y4 y5 => h s s.freeCtr y0 y1 y2 y3 y4 s.lanes s.roles s.rot y5)
  have k1 := record_keeps P (fun s y0 y1 y2 y3 => h s s.freeCtr y0 s.mbxs s.ops y1 y2 s.lanes s.roles s.rot y3)
  have k2 := switchLaneTo_keeps P (fun s y0 y1 y2 y3 => h s y0 s.out s.mbxs s.ops s.evt s.bkp y1 y2 y3 s.slate)
  intro a0 a1 s
  unfold switchLanes
  try dsimp only
  repeat' first
    | with_reducible rfl
    | simp only [↓h, ↓k0, ↓k1, ↓k2, ↓apply_ite P, ite_self]
    | split
    | refine (foldl_keeps P _ ?_ _ _).trans ?_
    | intro _ _

theorem switchMap_keeps {β : Type} (P : State → β) (h : ∀ (s : State) x0 x1, P { s with sectors := x0, eps := x1 } = P s) :
    ∀ a0 a1 s, P (switchMap a0 a1 s) = P s := by
  have k0 := setSec_keeps P (fun s y0 => h s y0 s.eps)
  intro a0 a1 s
  unfold switchMap
  try dsimp only
  repeat' first
    | with_reducible rfl
    | simp only [↓h, ↓k0, ↓apply_ite P, ite_self]
    | split
    | refine (foldl_keeps P _ ?_ _ _).trans ?_
    | intro _ _

theorem switchDuty_keeps {β : Type} (P : State → β) (h : ∀ (s : State) x0, P { s with duty := x0 } = P s) :
    ∀ a0 s, P (switchDuty a0 s) = P s := by
  have k0 := presetDuty_keeps P (fun s y0 => h s y0)
  intro a0 s
  unfold switchDuty
  try dsimp only
  repeat' first
    | with_reducible rfl
    | simp only [↓h, ↓k0, ↓apply_ite P, ite_self]
    | split
    | refine (foldl_keeps P _ ?_ _ _).trans ?_
    | intro _ _

theorem switchPlc_keeps {β : Type} (P : State → β) (h : ∀ (s : State) x0 x1 x2 x3 x4 x5 x6 x7 x8 x9 x10 x11 x12 x13 x14 x15 x16, P { s with freeCtr := x0, out := x1, mbxs := x2, ops := x3, evt := x4, bkp := x5, plc := x6, plcMac := x7, eps := x8, mem := x9, jnv := x10, jnl := x11, prov := x12, roots := x13, camps := x14, slate := x15, life := x16 } = P s) :
    ∀ a0 a1 s, P (switchPlc a0 a1 s) = P s := by
  have k0 := endPortTxns_keeps P (fun s y0 y1 y2 y3 y4 y5 y6 y7 y8 y9 y10 y11 y12 y13 y14 y15 y16 => h s y0 y1 y2 y3 y4 y5 y6 y7 y8 y9 y10 y11 y12 y13 y14 y15 y16)
  have k1 := finishOps_keeps P (fun s y0 y1 y2 y3 y4 y5 => h s s.freeCtr y0 y1 y2 y3 y4 s.plc s.plcMac s.eps s.mem s.jnv s.jnl s.prov s.roots s.camps y5 s.life)
  have k2 := setPlc_keeps P (fun s y0 => h s s.freeCtr s.out s.mbxs s.ops s.evt s.bkp y0 s.plcMac s.eps s.mem s.jnv s.jnl s.prov s.roots s.camps s.slate s.life)
  have k3 := startCal_keeps P (fun s y0 y1 y2 => h s s.freeCtr y0 s.mbxs s.ops y1 s.bkp y2 s.plcMac s.eps s.mem s.jnv s.jnl s.prov s.roots s.camps s.slate s.life)
  intro a0 a1 s
  unfold switchPlc
  try dsimp only
  repeat' first
    | with_reducible rfl
    | simp only [↓h, ↓k0, ↓k1, ↓k2, ↓k3, ↓apply_ite P, ite_self]
    | split
    | refine (foldl_keeps P _ ?_ _ _).trans ?_
    | intro _ _

theorem switchRates_keeps {β : Type} (P : State → β) (h : ∀ (s : State) x0, P { s with slate := x0 } = P s) :
    ∀ a0 s, P (switchRates a0 s) = P s := by
  intro a0 s
  unfold switchRates
  try dsimp only
  repeat' first
    | with_reducible rfl
    | simp only [↓h, ↓apply_ite P, ite_self]
    | split
    | refine (foldl_keeps P _ ?_ _ _).trans ?_
    | intro _ _

theorem followSwitch_keeps {β : Type} (P : State → β) (h : ∀ (s : State) x0 x1 x2 x3 x4 x5 x6 x7 x8 x9 x10 x11 x12 x13 x14 x15 x16 x17 x18 x19 x20 x21 x22, P { s with freeCtr := x0, out := x1, mbxs := x2, ops := x3, evt := x4, bkp := x5, rf := x6, lanes := x7, roles := x8, rot := x9, sectors := x10, duty := x11, plc := x12, plcMac := x13, eps := x14, mem := x15, jnv := x16, jnl := x17, prov := x18, roots := x19, camps := x20, slate := x21, life := x22 } = P s) :
    ∀ a0 a1 a2 s, P (followSwitch a0 a1 a2 s) = P s := by
  have k0 := noteCaps_keeps P (fun s y0 y1 => h s s.freeCtr y0 s.mbxs s.ops y1 s.bkp s.rf s.lanes s.roles s.rot s.sectors s.duty s.plc s.plcMac s.eps s.mem s.jnv s.jnl s.prov s.roots s.camps s.slate s.life)
  have k1 := switchDuty_keeps P (fun s y0 => h s s.freeCtr s.out s.mbxs s.ops s.evt s.bkp s.rf s.lanes s.roles s.rot s.sectors y0 s.plc s.plcMac s.eps s.mem s.jnv s.jnl s.prov s.roots s.camps s.slate s.life)
  have k2 := switchLanes_keeps P (fun s y0 y1 y2 y3 y4 y5 y6 y7 y8 y9 => h s y0 y1 y2 y3 y4 y5 s.rf y6 y7 y8 s.sectors s.duty s.plc s.plcMac s.eps s.mem s.jnv s.jnl s.prov s.roots s.camps y9 s.life)
  have k3 := switchMap_keeps P (fun s y0 y1 => h s s.freeCtr s.out s.mbxs s.ops s.evt s.bkp s.rf s.lanes s.roles s.rot y0 s.duty s.plc s.plcMac y1 s.mem s.jnv s.jnl s.prov s.roots s.camps s.slate s.life)
  have k4 := switchPlc_keeps P (fun s y0 y1 y2 y3 y4 y5 y6 y7 y8 y9 y10 y11 y12 y13 y14 y15 y16 => h s y0 y1 y2 y3 y4 y5 s.rf s.lanes s.roles s.rot s.sectors s.duty y6 y7 y8 y9 y10 y11 y12 y13 y14 y15 y16)
  have k5 := switchRates_keeps P (fun s y0 => h s s.freeCtr s.out s.mbxs s.ops s.evt s.bkp s.rf s.lanes s.roles s.rot s.sectors s.duty s.plc s.plcMac s.eps s.mem s.jnv s.jnl s.prov s.roots s.camps y0 s.life)
  have k6 := switchRf_keeps P (fun s y0 y1 => h s s.freeCtr y0 s.mbxs s.ops s.evt s.bkp y1 s.lanes s.roles s.rot s.sectors s.duty s.plc s.plcMac s.eps s.mem s.jnv s.jnl s.prov s.roots s.camps s.slate s.life)
  intro a0 a1 a2 s
  unfold followSwitch
  try dsimp only
  repeat' first
    | with_reducible rfl
    | simp only [↓h, ↓k0, ↓k1, ↓k2, ↓k3, ↓k4, ↓k5, ↓k6, ↓apply_ite P, ite_self]
    | split
    | refine (foldl_keeps P _ ?_ _ _).trans ?_
    | intro _ _

theorem firstCommit_keeps {β : Type} (P : State → β) (h : ∀ (s : State) x0 x1 x2, P { s with cfg := x0, boot := x1, eps := x2 } = P s) :
    ∀ a0 s, P (firstCommit a0 s) = P s := by
  intro a0 s
  unfold firstCommit
  try dsimp only
  repeat' first
    | with_reducible rfl
    | simp only [↓h, ↓apply_ite P, ite_self]
    | split
    | refine (foldl_keeps P _ ?_ _ _).trans ?_
    | intro _ _

theorem switchAll_keeps {β : Type} (P : State → β) (h : ∀ (s : State) x0 x1 x2 x3 x4 x5 x6 x7 x8 x9 x10 x11 x12 x13 x14 x15 x16 x17 x18 x19 x20 x21 x22 x23 x24, P { s with freeCtr := x0, out := x1, cfg := x2, mbxs := x3, ops := x4, evt := x5, boot := x6, bkp := x7, rf := x8, lanes := x9, roles := x10, rot := x11, sectors := x12, duty := x13, plc := x14, plcMac := x15, eps := x16, mem := x17, jnv := x18, jnl := x19, prov := x20, roots := x21, camps := x22, slate := x23, life := x24 } = P s) :
    ∀ a0 a1 s, P (switchAll a0 a1 s) = P s := by
  have k0 := firstCommit_keeps P (fun s y0 y1 y2 => h s s.freeCtr s.out y0 s.mbxs s.ops s.evt y1 s.bkp s.rf s.lanes s.roles s.rot s.sectors s.duty s.plc s.plcMac y2 s.mem s.jnv s.jnl s.prov s.roots s.camps s.slate s.life)
  have k1 := followSwitch_keeps P (fun s y0 y1 y2 y3 y4 y5 y6 y7 y8 y9 y10 y11 y12 y13 y14 y15 y16 y17 y18 y19 y20 y21 y22 => h s y0 y1 s.cfg y2 y3 y4 s.boot y5 y6 y7 y8 y9 y10 y11 y12 y13 y14 y15 y16 y17 y18 y19 y20 y21 y22)
  intro a0 a1 s
  unfold switchAll
  try dsimp only
  repeat' first
    | with_reducible rfl
    | simp only [↓h, ↓k0, ↓k1, ↓apply_ite P, ite_self]
    | split
    | refine (foldl_keeps P _ ?_ _ _).trans ?_
    | intro _ _

theorem commitFault_keeps {β : Type} (P : State → β) (h : ∀ (s : State) x0 x1 x2 x3 x4 x5 x6 x7 x8, P { s with freeCtr := x0, out := x1, cfg := x2, mbxs := x3, ops := x4, evt := x5, bkp := x6, rf := x7, slate := x8 } = P s) :
    ∀ a0 s, P (commitFault a0 s) = P s := by
  have k0 := finishOp_keeps P (fun s y0 y1 y2 y3 y4 y5 => h s s.freeCtr y0 s.cfg y1 y2 y3 y4 s.rf y5)
  have k1 := noteCaps_keeps P (fun s y0 y1 => h s s.freeCtr y0 s.cfg s.mbxs s.ops y1 s.bkp s.rf s.slate)
  have k2 := recordFault_keeps P (fun s y0 y1 y2 y3 y4 => h s y0 y1 s.cfg s.mbxs s.ops y2 y3 s.rf y4)
  have k3 := setCfgState_keeps P (fun s y0 y1 y2 => h s s.freeCtr y0 y1 s.mbxs s.ops y2 s.bkp s.rf s.slate)
  have k4 := setRf_keeps P (fun s y0 => h s s.freeCtr s.out s.cfg s.mbxs s.ops s.evt s.bkp y0 s.slate)
  have q2 := fun b0 b1 b2 t u (e : recordFault b0 b1 b2 = (u, t)) => (congrArg (fun z => P z.2) e).symm.trans (k2 b0 b1 b2)
  intro a0 s
  unfold commitFault
  try dsimp only
  repeat' first
    | with_reducible rfl
    | simp only [↓h, ↓k0, ↓k1, ↓k2, ↓k3, ↓k4, ↓apply_ite P, ite_self]
    | split
    | refine (q2 _ _ _ _ _ (by assumption)).trans ?_
    | refine (foldl_keeps P _ ?_ _ _).trans ?_
    | intro _ _

theorem commitInstant_keeps {β : Type} (P : State → β) (h : ∀ (s : State) x0 x1 x2 x3 x4 x5 x6 x7 x8 x9 x10 x11 x12 x13 x14 x15 x16 x17 x18 x19 x20 x21 x22 x23 x24 x25 x26 x27 x28, P { s with now := x0, mono := x1, freeCtr := x2, out := x3, cfg := x4, mbxs := x5, ops := x6, evt := x7, boot := x8, bkp := x9, rf := x10, lanes := x11, roles := x12, rot := x13, sectors := x14, duty := x15, plc := x16, plcMac := x17, eps := x18, mem := x19, jnv := x20, jnl := x21, prov := x22, roots := x23, camps := x24, slate := x25, life := x26, fw := x27, maint := x28 } = P s) :
    ∀ a0 s, P (commitInstant a0 s) = P s := by
  have k0 := advTo_keeps P (fun s y0 y1 => h s y0 y1 s.freeCtr s.out s.cfg s.mbxs s.ops s.evt s.boot s.bkp s.rf s.lanes s.roles s.rot s.sectors s.duty s.plc s.plcMac s.eps s.mem s.jnv s.jnl s.prov s.roots s.camps s.slate s.life s.fw s.maint)
  have k1 := chooseTc_keeps P (fun s y0 => h s s.now s.mono y0 s.out s.cfg s.mbxs s.ops s.evt s.boot s.bkp s.rf s.lanes s.roles s.rot s.sectors s.duty s.plc s.plcMac s.eps s.mem s.jnv s.jnl s.prov s.roots s.camps s.slate s.life s.fw s.maint)
  have k2 := commitFault_keeps P (fun s y0 y1 y2 y3 y4 y5 y6 y7 y8 => h s s.now s.mono y0 y1 y2 y3 y4 y5 s.boot y6 y7 s.lanes s.roles s.rot s.sectors s.duty s.plc s.plcMac s.eps s.mem s.jnv s.jnl s.prov s.roots s.camps y8 s.life s.fw s.maint)
  have k3 := finishOp_keeps P (fun s y0 y1 y2 y3 y4 y5 => h s s.now s.mono s.freeCtr y0 s.cfg y1 y2 y3 s.boot y4 s.rf s.lanes s.roles s.rot s.sectors s.duty s.plc s.plcMac s.eps s.mem s.jnv s.jnl s.prov s.roots s.camps y5 s.life s.fw s.maint)
  have k4 := microcodeSwitch_keeps P (fun s y0 y1 y2 y3 y4 y5 y6 y7 => h s y0 y1 y2 y3 s.cfg s.mbxs s.ops y4 s.boot s.bkp s.rf y5 s.roles s.rot s.sectors s.duty s.plc s.plcMac s.eps s.mem s.jnv s.jnl s.prov s.roots s.camps s.slate s.life y6 y7)
  have k5 := setCfgState_keeps P (fun s y0 y1 y2 => h s s.now s.mono s.freeCtr y0 y1 s.mbxs s.ops y2 s.boot s.bkp s.rf s.lanes s.roles s.rot s.sectors s.duty s.plc s.plcMac s.eps s.mem s.jnv s.jnl s.prov s.roots s.camps s.slate s.life s.fw s.maint)
  have k6 := switchAll_keeps P (fun s y0 y1 y2 y3 y4 y5 y6 y7 y8 y9 y10 y11 y12 y13 y14 y15 y16 y17 y18 y19 y20 y21 y22 y23 y24 => h s s.now s.mono y0 y1 y2 y3 y4 y5 y6 y7 y8 y9 y10 y11 y12 y13 y14 y15 y16 y17 y18 y19 y20 y21 y22 y23 y24 s.fw s.maint)
  have q1 := fun b0 b1 t u (e : chooseTc b0 b1 = (u, t)) => (congrArg (fun z => P z.2) e).symm.trans (k1 b0 b1)
  intro a0 s
  unfold commitInstant
  try dsimp only
  repeat' first
    | with_reducible rfl
    | simp only [↓h, ↓k0, ↓k1, ↓k2, ↓k3, ↓k4, ↓k5, ↓k6, ↓apply_ite P, ite_self]
    | split
    | refine (q1 _ _ _ _ (by assumption)).trans ?_
    | refine (foldl_keeps P _ ?_ _ _).trans ?_
    | intro _ _

theorem writeLive_keeps {β : Type} (P : State → β) (h : ∀ (s : State) x0 x1 x2 x3 x4 x5, P { s with out := x0, cfg := x1, evt := x2, jnl := x3, prov := x4, slate := x5 } = P s) :
    ∀ a0 a1 s, P (writeLive a0 a1 s) = P s := by
  have k0 := backlogCheck_keeps P (fun s y0 y1 y2 => h s y0 s.cfg y1 s.jnl y2 s.slate)
  have k1 := closeOpen_keeps P (fun s y0 => h s s.out s.cfg s.evt s.jnl y0 s.slate)
  have k2 := closeOpenOvf_keeps P (fun s y0 => h s s.out s.cfg s.evt s.jnl y0 s.slate)
  have k3 := jnlRefresh_keeps P (fun s y0 y1 y2 => h s y0 s.cfg y1 y2 s.prov s.slate)
  intro a0 a1 s
  unfold writeLive
  try dsimp only
  repeat' first
    | with_reducible rfl
    | simp only [↓h, ↓k0, ↓k1, ↓k2, ↓k3, ↓apply_ite P, ite_self]
    | split
    | refine (foldl_keeps P _ ?_ _ _).trans ?_
    | intro _ _

theorem writeWindow_keeps {β : Type} (P : State → β) (h : ∀ (s : State) x0, P { s with cfg := x0 } = P s) :
    ∀ a0 a1 s, P (writeWindow a0 a1 s) = P s := by
  intro a0 a1 s
  unfold writeWindow
  try dsimp only
  repeat' first
    | with_reducible rfl
    | simp only [↓h, ↓apply_ite P, ite_self]
    | split
    | refine (foldl_keeps P _ ?_ _ _).trans ?_
    | intro _ _

theorem writeParam_keeps {β : Type} (P : State → β) (h : ∀ (s : State) x0 x1 x2 x3 x4 x5, P { s with out := x0, cfg := x1, evt := x2, jnl := x3, prov := x4, slate := x5 } = P s) :
    ∀ a0 a1 s, P (writeParam a0 a1 s) = P s := by
  have k0 := writeLive_keeps P (fun s y0 y1 y2 y3 y4 y5 => h s y0 y1 y2 y3 y4 y5)
  have k1 := writeWindow_keeps P (fun s y0 => h s s.out y0 s.evt s.jnl s.prov s.slate)
  intro a0 a1 s
  unfold writeParam
  try dsimp only
  repeat' first
    | with_reducible rfl
    | simp only [↓h, ↓k0, ↓k1, ↓apply_ite P, ite_self]
    | split
    | refine (foldl_keeps P _ ?_ _ _).trans ?_
    | intro _ _

theorem paramBlockWrite_keeps {β : Type} (P : State → β) (h : ∀ (s : State) x0 x1 x2 x3 x4 x5, P { s with out := x0, cfg := x1, evt := x2, jnl := x3, prov := x4, slate := x5 } = P s) :
    ∀ a0 s, P (paramBlockWrite a0 s).st = P s := by
  have k0 := raiseIf_keeps P (fun s y0 y1 => h s y0 s.cfg y1 s.jnl s.prov s.slate)
  have k1 := refuse_keeps P
  have k2 := replyOk_keeps P
  have k3 := writeParam_keeps P (fun s y0 y1 y2 y3 y4 y5 => h s y0 y1 y2 y3 y4 y5)
  intro a0 s
  unfold paramBlockWrite
  try dsimp only
  repeat' first
    | with_reducible rfl
    | simp only [↓h, ↓k0, ↓k1, ↓k2, ↓k3, ↓apply_ite P, ite_self, Reply.st_done, Reply.st_pend, Reply.st_twice, Reply.st_wait, replyOk_st, refuse_st]
    | split
    | refine (foldl_keeps P _ ?_ _ _).trans ?_
    | intro _ _

theorem paramBlockRead_keeps {β : Type} (P : State → β) :
    ∀ a0 s, P (paramBlockRead a0 s).st = P s := by
  have k0 := refuse_keeps P
  have k1 := replyOk_keeps P
  intro a0 s
  unfold paramBlockRead
  try dsimp only
  repeat' first
    | with_reducible rfl
    | simp only [↓k0, ↓k1, ↓apply_ite P, ite_self, Reply.st_done, Reply.st_pend, Reply.st_twice, Reply.st_wait, replyOk_st, refuse_st]
    | split
    | refine (foldl_keeps P _ ?_ _ _).trans ?_
    | intro _ _

theorem defaultFormats_keeps {β : Type} (P : State → β) (h : ∀ (s : State) x0 x1 x2 x3 x4 x5 x6 x7 x8 x9 x10 x11 x12 x13 x14 x15 x16 x17 x18 x19 x20 x21 x22 x23, P { s with freeCtr := x0, out := x1, cfg := x2, mbxs := x3, ops := x4, evt := x5, bkp := x6, rf := x7, lanes := x8, roles := x9, rot := x10, sectors := x11, duty := x12, plc := x13, plcMac := x14, eps := x15, mem := x16, jnv := x17, jnl := x18, prov := x19, roots := x20, camps := x21, slate := x22, life := x23 } = P s) :
    ∀ a0 s, P (defaultFormats a0 s) = P s := by
  have k0 := backlogCheck_keeps P (fun s y0 y1 y2 => h s s.freeCtr y0 s.cfg s.mbxs s.ops y1 s.bkp s.rf s.lanes s.roles s.rot s.sectors s.duty s.plc s.plcMac s.eps s.mem s.jnv s.jnl y2 s.roots s.camps s.slate s.life)
  have k1 := closeOpen_keeps P (fun s y0 => h s s.freeCtr s.out s.cfg s.mbxs s.ops s.evt s.bkp s.rf s.lanes s.roles s.rot s.sectors s.duty s.plc s.plcMac s.eps s.mem s.jnv s.jnl y0 s.roots s.camps s.slate s.life)
  have k2 := closeOpenOvf_keeps P (fun s y0 => h s s.freeCtr s.out s.cfg s.mbxs s.ops s.evt s.bkp s.rf s.lanes s.roles s.rot s.sectors s.duty s.plc s.plcMac s.eps s.mem s.jnv s.jnl y0 s.roots s.camps s.slate s.life)
  have k3 := followSwitch_keeps P (fun s y0 y1 y2 y3 y4 y5 y6 y7 y8 y9 y10 y11 y12 y13 y14 y15 y16 y17 y18 y19 y20 y21 y22 => h s y0 y1 s.cfg y2 y3 y4 y5 y6 y7 y8 y9 y10 y11 y12 y13 y14 y15 y16 y17 y18 y19 y20 y21 y22)
  have k4 := jnlRefresh_keeps P (fun s y0 y1 y2 => h s s.freeCtr y0 s.cfg s.mbxs s.ops y1 s.bkp s.rf s.lanes s.roles s.rot s.sectors s.duty s.plc s.plcMac s.eps s.mem s.jnv y2 s.prov s.roots s.camps s.slate s.life)
  have k5 := raise_keeps P (fun s y0 y1 => h s s.freeCtr y0 s.cfg s.mbxs s.ops y1 s.bkp s.rf s.lanes s.roles s.rot s.sectors s.duty s.plc s.plcMac s.eps s.mem s.jnv s.jnl s.prov s.roots s.camps s.slate s.life)
  intro a0 s
  unfold defaultFormats
  try dsimp only
  repeat' first
    | with_reducible rfl
    | simp only [↓h, ↓k0, ↓k1, ↓k2, ↓k3, ↓k4, ↓k5, ↓apply_ite P, ite_self]
    | split
    | refine (foldl_keeps P _ ?_ _ _).trans ?_
    | intro _ _

theorem firmwareTakeover_keeps {β : Type} (P : State → β) (h : ∀ (s : State) x0 x1 x2 x3 x4 x5 x6 x7 x8 x9 x10 x11 x12 x13 x14 x15 x16 x17 x18 x19 x20 x21 x22 x23 x24 x25 x26, P { s with freeCtr := x0, out := x1, cfg := x2, mbxs := x3, ops := x4, evt := x5, boot := x6, bkp := x7, rf := x8, lanes := x9, roles := x10, rot := x11, sectors := x12, duty := x13, plc := x14, plcMac := x15, eps := x16, mem := x17, jnv := x18, jnl := x19, prov := x20, roots := x21, camps := x22, slate := x23, life := x24, fwNv := x25, fw := x26 } = P s) :
    ∀ s, P (firmwareTakeover s) = P s := by
  have k0 := defaultFormats_keeps P (fun s y0 y1 y2 y3 y4 y5 y6 y7 y8 y9 y10 y11 y12 y13 y14 y15 y16 y17 y18 y19 y20 y21 y22 y23 => h s y0 y1 y2 y3 y4 y5 s.boot y6 y7 y8 y9 y10 y11 y12 y13 y14 y15 y16 y17 y18 y19 y20 y21 y22 y23 s.fwNv s.fw)
  have k1 := finishOp_keeps P (fun s y0 y1 y2 y3 y4 y5 => h s s.freeCtr y0 s.cfg y1 y2 y3 s.boot y4 s.rf s.lanes s.roles s.rot s.sectors s.duty s.plc s.plcMac s.eps s.mem s.jnv s.jnl s.prov s.roots s.camps y5 s.life s.fwNv s.fw)
  have k2 := jnlRefresh_keeps P (fun s y0 y1 y2 => h s s.freeCtr y0 s.cfg s.mbxs s.ops y1 s.boot s.bkp s.rf s.lanes s.roles s.rot s.sectors s.duty s.plc s.plcMac s.eps s.mem s.jnv y2 s.prov s.roots s.camps s.slate s.life s.fwNv s.fw)
  have k3 := raise_keeps P (fun s y0 y1 => h s s.freeCtr y0 s.cfg s.mbxs s.ops y1 s.boot s.bkp s.rf s.lanes s.roles s.rot s.sectors s.duty s.plc s.plcMac s.eps s.mem s.jnv s.jnl s.prov s.roots s.camps s.slate s.life s.fwNv s.fw)
  intro s
  unfold firmwareTakeover
  try dsimp only
  repeat' first
    | with_reducible rfl
    | simp only [↓h, ↓k0, ↓k1, ↓k2, ↓k3, ↓apply_ite P, ite_self]
    | split
    | refine (foldl_keeps P _ ?_ _ _).trans ?_
    | intro _ _

end Sys2Proof.Machine
end

