-- ==== Sys2Proof/Laws/KeepHost.lean ====
section
/-! SUPPORT. What the functions of Machine/Host.lean leave unchanged. -/

set_option linter.unusedSimpArgs false
set_option linter.unreachableTactic false
set_option linter.unusedTactic false

namespace Sys2Proof.Machine

theorem divertOwed_keeps {β : Type} (P : State → β) (h : ∀ (s : State) x0 x1 x2 x3 x4 x5, P { s with out := x0, mbxs := x1, ops := x2, evt := x3, bkp := x4, slate := x5 } = P s) :
    ∀ a0 s, P (divertOwed a0 s) = P s := by
  have k0 := orphanRecord_keeps P (fun s y0 y1 y2 y3 => h s y0 s.mbxs s.ops y1 y2 y3)
  have k1 := setMbx_keeps P (fun s y0 => h s s.out y0 s.ops s.evt s.bkp s.slate)
  intro a0 s
  unfold divertOwed
  try dsimp only
  repeat' first
    | with_reducible rfl
    | simp only [↓h, ↓k0, ↓k1, ↓apply_ite P, ite_self]
    | split
    | refine (foldl_keeps P _ ?_ _ _).trans ?_
    | intro _ _

theorem mbxEnable_keeps {β : Type} (P : State → β) (h : ∀ (s : State) x0 x1 x2, P { s with out := x0, mbxs := x1, evt := x2 } = P s) :
    ∀ a0 s, P (mbxEnable a0 s) = P s := by
  have k0 := raise_keeps P (fun s y0 y1 => h s y0 s.mbxs y1)
  have k1 := setMbx_keeps P (fun s y0 => h s s.out y0 s.evt)
  intro a0 s
  unfold mbxEnable
  try dsimp only
  repeat' first
    | with_reducible rfl
    | simp only [↓h, ↓k0, ↓k1, ↓apply_ite P, ite_self]
    | split
    | refine (foldl_keeps P _ ?_ _ _).trans ?_
    | intro _ _

theorem mbxDisable_keeps {β : Type} (P : State → β) (h : ∀ (s : State) x0 x1 x2 x3 x4 x5, P { s with out := x0, mbxs := x1, ops := x2, evt := x3, bkp := x4, slate := x5 } = P s) :
    ∀ a0 s, P (mbxDisable a0 s) = P s := by
  have k0 := divertOwed_keeps P (fun s y0 y1 y2 y3 y4 y5 => h s y0 y1 y2 y3 y4 y5)
  have k1 := setMbx_keeps P (fun s y0 => h s s.out y0 s.ops s.evt s.bkp s.slate)
  intro a0 s
  unfold mbxDisable
  try dsimp only
  repeat' first
    | with_reducible rfl
    | simp only [↓h, ↓k0, ↓k1, ↓apply_ite P, ite_self]
    | split
    | refine (foldl_keeps P _ ?_ _ _).trans ?_
    | intro _ _

theorem mbxReset_keeps {β : Type} (P : State → β) (h : ∀ (s : State) x0 x1 x2 x3 x4 x5, P { s with out := x0, mbxs := x1, ops := x2, evt := x3, bkp := x4, slate := x5 } = P s) :
    ∀ a0 s, P (mbxReset a0 s) = P s := by
  have k0 := mbxDisable_keeps P (fun s y0 y1 y2 y3 y4 y5 => h s y0 y1 y2 y3 y4 y5)
  have k1 := setMbx_keeps P (fun s y0 => h s s.out y0 s.ops s.evt s.bkp s.slate)
  intro a0 s
  unfold mbxReset
  try dsimp only
  repeat' first
    | with_reducible rfl
    | simp only [↓h, ↓k0, ↓k1, ↓apply_ite P, ite_self]
    | split
    | refine (foldl_keeps P _ ?_ _ _).trans ?_
    | intro _ _

theorem mbxReqPi_keeps {β : Type} (P : State → β) (h : ∀ (s : State) x0 x1 x2 x3 x4 x5, P { s with out := x0, mbxs := x1, ops := x2, evt := x3, bkp := x4, slate := x5 } = P s) :
    ∀ a0 a1 s, P (mbxReqPi a0 a1 s) = P s := by
  have k0 := mbxError_keeps P (fun s y0 y1 y2 y3 y4 y5 => h s y0 y1 y2 y3 y4 y5)
  have k1 := setMbx_keeps P (fun s y0 => h s s.out y0 s.ops s.evt s.bkp s.slate)
  intro a0 a1 s
  unfold mbxReqPi
  try dsimp only
  repeat' first
    | with_reducible rfl
    | simp only [↓h, ↓k0, ↓k1, ↓apply_ite P, ite_self]
    | split
    | refine (foldl_keeps P _ ?_ _ _).trans ?_
    | intro _ _

theorem mbxRspCi_keeps {β : Type} (P : State → β) (h : ∀ (s : State) x0, P { s with mbxs := x0 } = P s) :
    ∀ a0 a1 s, P (mbxRspCi a0 a1 s) = P s := by
  have k0 := setMbx_keeps P (fun s y0 => h s y0)
  intro a0 a1 s
  unfold mbxRspCi
  try dsimp only
  repeat' first
    | with_reducible rfl
    | simp only [↓h, ↓k0, ↓apply_ite P, ite_self]
    | split
    | refine (foldl_keeps P _ ?_ _ _).trans ?_
    | intro _ _

theorem requestFetch_keeps {β : Type} (P : State → β) (h : ∀ (s : State) x0 x1 x2 x3 x4 x5 x6 x7, P { s with out := x0, mbxs := x1, rrNext := x2, fetchCtr := x3, ops := x4, evt := x5, bkp := x6, slate := x7 } = P s) :
    ∀ a0 a1 s, P (requestFetch a0 a1 s) = P s := by
  have k0 := immediate_keeps P (fun s y0 y1 y2 y3 y4 y5 => h s y0 y1 s.rrNext s.fetchCtr y2 y3 y4 y5)
  have k1 := mbxError_keeps P (fun s y0 y1 y2 y3 y4 y5 => h s y0 y1 s.rrNext s.fetchCtr y2 y3 y4 y5)
  have k2 := setMbx_keeps P (fun s y0 => h s s.out y0 s.rrNext s.fetchCtr s.ops s.evt s.bkp s.slate)
  intro a0 a1 s
  unfold requestFetch
  try dsimp only
  repeat' first
    | with_reducible rfl
    | simp only [↓h, ↓k0, ↓k1, ↓k2, ↓apply_ite P, ite_self]
    | split
    | refine (foldl_keeps P _ ?_ _ _).trans ?_
    | intro _ _

theorem ringBusError_keeps {β : Type} (P : State → β) (h : ∀ (s : State) x0 x1 x2 x3 x4 x5, P { s with out := x0, mbxs := x1, ops := x2, evt := x3, bkp := x4, slate := x5 } = P s) :
    ∀ a0 a1 s, P (ringBusError a0 a1 s) = P s := by
  have k0 := mbxError_keeps P (fun s y0 y1 y2 y3 y4 y5 => h s y0 y1 y2 y3 y4 y5)
  have k1 := setMbx_keeps P (fun s y0 => h s s.out y0 s.ops s.evt s.bkp s.slate)
  intro a0 a1 s
  unfold ringBusError
  try dsimp only
  repeat' first
    | with_reducible rfl
    | simp only [↓h, ↓k0, ↓k1, ↓apply_ite P, ite_self]
    | split
    | refine (foldl_keeps P _ ?_ _ _).trans ?_
    | intro _ _

theorem responsePost_keeps {β : Type} (P : State → β) (h : ∀ (s : State) x0 x1 x2 x3 x4 x5, P { s with out := x0, mbxs := x1, ops := x2, evt := x3, bkp := x4, slate := x5 } = P s) :
    ∀ a0 s, P (responsePost a0 s) = P s := by
  have k0 := mbxError_keeps P (fun s y0 y1 y2 y3 y4 y5 => h s y0 y1 y2 y3 y4 y5)
  have k1 := setMbx_keeps P (fun s y0 => h s s.out y0 s.ops s.evt s.bkp s.slate)
  have k2 := writeRsp_keeps P (fun s y0 y1 y2 => h s y0 y1 s.ops y2 s.bkp s.slate)
  intro a0 s
  unfold responsePost
  try dsimp only
  repeat' first
    | with_reducible rfl
    | simp only [↓h, ↓k0, ↓k1, ↓k2, ↓apply_ite P, ite_self]
    | split
    | refine (foldl_keeps P _ ?_ _ _).trans ?_
    | intro _ _

theorem raiseAll_keeps {β : Type} (P : State → β) (h : ∀ (s : State) x0 x1, P { s with out := x0, evt := x1 } = P s) :
    ∀ a0 s, P (raiseAll a0 s) = P s := by
  have k0 := raise_keeps P (fun s y0 y1 => h s y0 y1)
  intro a0 s
  unfold raiseAll
  try dsimp only
  repeat' first
    | with_reducible rfl
    | simp only [↓h, ↓k0, ↓apply_ite P, ite_self]
    | split
    | refine (foldl_keeps P _ ?_ _ _).trans ?_
    | intro _ _

theorem evtPendClear_keeps {β : Type} (P : State → β) (h : ∀ (s : State) x0 x1, P { s with out := x0, evt := x1 } = P s) :
    ∀ a0 a1 a2 s, P (evtPendClear a0 a1 a2 s) = P s := by
  have k0 := raiseAll_keeps P (fun s y0 y1 => h s y0 y1)
  intro a0 a1 a2 s
  unfold evtPendClear
  try dsimp only
  repeat' first
    | with_reducible rfl
    | simp only [↓h, ↓k0, ↓apply_ite P, ite_self]
    | split
    | refine (foldl_keeps P _ ?_ _ _).trans ?_
    | intro _ _

theorem evtEnWrite_keeps {β : Type} (P : State → β) (h : ∀ (s : State) x0 x1, P { s with out := x0, evt := x1 } = P s) :
    ∀ a0 a1 s, P (evtEnWrite a0 a1 s) = P s := by
  have k0 := sendVector_keeps P (fun s y0 y1 => h s y0 y1)
  intro a0 a1 s
  unfold evtEnWrite
  try dsimp only
  repeat' first
    | with_reducible rfl
    | simp only [↓h, ↓k0, ↓apply_ite P, ite_self]
    | split
    | refine (foldl_keeps P _ ?_ _ _).trans ?_
    | intro _ _

theorem evtForce_keeps {β : Type} (P : State → β) (h : ∀ (s : State) x0 x1, P { s with out := x0, evt := x1 } = P s) :
    ∀ a0 a1 s, P (evtForce a0 a1 s) = P s := by
  have k0 := raiseAll_keeps P (fun s y0 y1 => h s y0 y1)
  intro a0 a1 s
  unfold evtForce
  try dsimp only
  repeat' first
    | with_reducible rfl
    | simp only [↓h, ↓k0, ↓apply_ite P, ite_self]
    | split
    | refine (foldl_keeps P _ ?_ _ _).trans ?_
    | intro _ _

theorem evtRouteWrite_keeps {β : Type} (P : State → β) (h : ∀ (s : State) x0, P { s with evt := x0 } = P s) :
    ∀ a0 a1 s, P (evtRouteWrite a0 a1 s) = P s := by
  intro a0 a1 s
  unfold evtRouteWrite
  try dsimp only
  repeat' first
    | with_reducible rfl
    | simp only [↓h, ↓apply_ite P, ite_self]
    | split
    | refine (foldl_keeps P _ ?_ _ _).trans ?_
    | intro _ _

theorem releaseVector_keeps {β : Type} (P : State → β) (h : ∀ (s : State) x0 x1, P { s with out := x0, evt := x1 } = P s) :
    ∀ a0 s, P (releaseVector a0 s) = P s := by
  have k0 := sendVector_keeps P (fun s y0 y1 => h s y0 y1)
  intro a0 s
  unfold releaseVector
  try dsimp only
  repeat' first
    | with_reducible rfl
    | simp only [↓h, ↓k0, ↓apply_ite P, ite_self]
    | split
    | refine (foldl_keeps P _ ?_ _ _).trans ?_
    | intro _ _

theorem msixUnmask_keeps {β : Type} (P : State → β) (h : ∀ (s : State) x0 x1 x2, P { s with out := x0, evt := x1, pcie := x2 } = P s) :
    ∀ a0 s, P (msixUnmask a0 s) = P s := by
  have k0 := releaseVector_keeps P (fun s y0 y1 => h s y0 y1 s.pcie)
  intro a0 s
  unfold msixUnmask
  try dsimp only
  repeat' first
    | with_reducible rfl
    | simp only [↓h, ↓k0, ↓apply_ite P, ite_self]
    | split
    | refine (foldl_keeps P _ ?_ _ _).trans ?_
    | intro _ _

theorem msixWrite_keeps {β : Type} (P : State → β) (h : ∀ (s : State) x0 x1 x2, P { s with out := x0, evt := x1, pcie := x2 } = P s) :
    ∀ a0 a1 s, P (msixWrite a0 a1 s) = P s := by
  have k0 := msixUnmask_keeps P (fun s y0 y1 y2 => h s y0 y1 y2)
  intro a0 a1 s
  unfold msixWrite
  try dsimp only
  repeat' first
    | with_reducible rfl
    | simp only [↓h, ↓k0, ↓apply_ite P, ite_self]
    | split
    | refine (foldl_keeps P _ ?_ _ _).trans ?_
    | intro _ _

theorem msixControl_keeps {β : Type} (P : State → β) (h : ∀ (s : State) x0 x1 x2, P { s with out := x0, evt := x1, pcie := x2 } = P s) :
    ∀ a0 s, P (msixControl a0 s) = P s := by
  have k0 := msixUnmask_keeps P (fun s y0 y1 y2 => h s y0 y1 y2)
  intro a0 s
  unfold msixControl
  try dsimp only
  repeat' first
    | with_reducible rfl
    | simp only [↓h, ↓k0, ↓apply_ite P, ite_self]
    | split
    | refine (foldl_keeps P _ ?_ _ _).trans ?_
    | intro _ _

theorem mbxRegWrite_keeps {β : Type} (P : State → β) (h : ∀ (s : State) x0 x1 x2 x3 x4 x5, P { s with out := x0, mbxs := x1, ops := x2, evt := x3, bkp := x4, slate := x5 } = P s) :
    ∀ a0 a1 a2 s, P (mbxRegWrite a0 a1 a2 s) = P s := by
  have k0 := mbxDisable_keeps P (fun s y0 y1 y2 y3 y4 y5 => h s y0 y1 y2 y3 y4 y5)
  have k1 := mbxEnable_keeps P (fun s y0 y1 y2 => h s y0 y1 s.ops y2 s.bkp s.slate)
  have k2 := mbxReqPi_keeps P (fun s y0 y1 y2 y3 y4 y5 => h s y0 y1 y2 y3 y4 y5)
  have k3 := mbxReset_keeps P (fun s y0 y1 y2 y3 y4 y5 => h s y0 y1 y2 y3 y4 y5)
  have k4 := mbxRspCi_keeps P (fun s y0 => h s s.out y0 s.ops s.evt s.bkp s.slate)
  have k5 := setMbx_keeps P (fun s y0 => h s s.out y0 s.ops s.evt s.bkp s.slate)
  intro a0 a1 a2 s
  unfold mbxRegWrite
  try dsimp only
  repeat' first
    | with_reducible rfl
    | simp only [↓h, ↓k0, ↓k1, ↓k2, ↓k3, ↓k4, ↓k5, ↓apply_ite P, ite_self]
    | split
    | refine (foldl_keeps P _ ?_ _ _).trans ?_
    | intro _ _

theorem rstCtrl_keeps {β : Type} (P : State → β) (h : ∀ (s : State) x0, P { s with boot := x0 } = P s) :
    ∀ a0 s, P (rstCtrl a0 s) = P s := by
  intro a0 s
  unfold rstCtrl
  try dsimp only
  repeat' first
    | with_reducible rfl
    | simp only [↓h, ↓apply_ite P, ite_self]
    | split
    | refine (foldl_keeps P _ ?_ _ _).trans ?_
    | intro _ _

theorem dmaPi_keeps {β : Type} (P : State → β) (h : ∀ (s : State) x0, P { s with chans := x0 } = P s) :
    ∀ a0 a1 s, P (dmaPi a0 a1 s) = P s := by
  intro a0 a1 s
  unfold dmaPi
  try dsimp only
  repeat' first
    | with_reducible rfl
    | simp only [↓h, ↓apply_ite P, ite_self]
    | split
    | refine (foldl_keeps P _ ?_ _ _).trans ?_
    | intro _ _

theorem regWrite_keeps {β : Type} (P : State → β) (h : ∀ (s : State) x0 x1 x2 x3 x4 x5 x6 x7 x8 x9 x10 x11 x12 x13, P { s with out := x0, mbxs := x1, ops := x2, evt := x3, glb := x4, mir := x5, isl := x6, boot := x7, pcie := x8, bkp := x9, lanes := x10, plc := x11, chans := x12, slate := x13 } = P s) :
    ∀ a0 a1 s, P (regWrite a0 a1 s) = P s := by
  have k0 := dmaPi_keeps P (fun s y0 => h s s.out s.mbxs s.ops s.evt s.glb s.mir s.isl s.boot s.pcie s.bkp s.lanes s.plc y0 s.slate)
  have k1 := evtEnWrite_keeps P (fun s y0 y1 => h s y0 s.mbxs s.ops y1 s.glb s.mir s.isl s.boot s.pcie s.bkp s.lanes s.plc s.chans s.slate)
  have k2 := evtForce_keeps P (fun s y0 y1 => h s y0 s.mbxs s.ops y1 s.glb s.mir s.isl s.boot s.pcie s.bkp s.lanes s.plc s.chans s.slate)
  have k3 := evtPendClear_keeps P (fun s y0 y1 => h s y0 s.mbxs s.ops y1 s.glb s.mir s.isl s.boot s.pcie s.bkp s.lanes s.plc s.chans s.slate)
  have k4 := evtRouteWrite_keeps P (fun s y0 => h s s.out s.mbxs s.ops y0 s.glb s.mir s.isl s.boot s.pcie s.bkp s.lanes s.plc s.chans s.slate)
  have k5 := mbxRegWrite_keeps P (fun s y0 y1 y2 y3 y4 y5 => h s y0 y1 y2 y3 s.glb s.mir s.isl s.boot s.pcie y4 s.lanes s.plc s.chans y5)
  have k6 := msixWrite_keeps P (fun s y0 y1 y2 => h s y0 s.mbxs s.ops y1 s.glb s.mir s.isl s.boot y2 s.bkp s.lanes s.plc s.chans s.slate)
  have k7 := rstCtrl_keeps P (fun s y0 => h s s.out s.mbxs s.ops s.evt s.glb s.mir s.isl y0 s.pcie s.bkp s.lanes s.plc s.chans s.slate)
  have k8 := setIsl_keeps P (fun s y0 => h s s.out s.mbxs s.ops s.evt s.glb s.mir y0 s.boot s.pcie s.bkp s.lanes s.plc s.chans s.slate)
  intro a0 a1 s
  unfold regWrite
  try dsimp only
  repeat' first
    | with_reducible rfl
    | simp only [↓h, ↓k0, ↓k1, ↓k2, ↓k3, ↓k4, ↓k5, ↓k6, ↓k7, ↓k8, ↓apply_ite P, ite_self]
    | split
    | refine (foldl_keeps P _ ?_ _ _).trans ?_
    | intro _ _

theorem registerWrite_keeps {β : Type} (P : State → β) (h : ∀ (s : State) x0 x1 x2 x3 x4 x5 x6 x7 x8 x9 x10 x11 x12 x13, P { s with out := x0, mbxs := x1, ops := x2, evt := x3, glb := x4, mir := x5, isl := x6, boot := x7, pcie := x8, bkp := x9, lanes := x10, plc := x11, chans := x12, slate := x13 } = P s) :
    ∀ a0 a1 a2 s, P (registerWrite a0 a1 a2 s) = P s := by
  have k0 := msixControl_keeps P (fun s y0 y1 y2 => h s y0 s.mbxs s.ops y1 s.glb s.mir s.isl s.boot y2 s.bkp s.lanes s.plc s.chans s.slate)
  have k1 := regWrite_keeps P (fun s y0 y1 y2 y3 y4 y5 y6 y7 y8 y9 y10 y11 y12 y13 => h s y0 y1 y2 y3 y4 y5 y6 y7 y8 y9 y10 y11 y12 y13)
  intro a0 a1 a2 s
  unfold registerWrite
  try dsimp only
  repeat' first
    | with_reducible rfl
    | simp only [↓h, ↓k0, ↓k1, ↓apply_ite P, ite_self]
    | split
    | refine (foldl_keeps P _ ?_ _ _).trans ?_
    | intro _ _

theorem etimeLoRead_keeps {β : Type} (P : State → β) (h : ∀ (s : State) x0, P { s with glb := x0 } = P s) :
    ∀ s, P (etimeLoRead s) = P s := by
  intro s
  unfold etimeLoRead
  try dsimp only
  repeat' first
    | with_reducible rfl
    | simp only [↓h, ↓apply_ite P, ite_self]
    | split
    | refine (foldl_keeps P _ ?_ _ _).trans ?_
    | intro _ _

theorem pcieError_keeps {β : Type} (P : State → β) (h : ∀ (s : State) x0 x1, P { s with out := x0, evt := x1 } = P s) :
    ∀ s, P (pcieError s) = P s := by
  have k0 := raise_keeps P (fun s y0 y1 => h s y0 y1)
  intro s
  unfold pcieError
  try dsimp only
  repeat' first
    | with_reducible rfl
    | simp only [↓h, ↓k0, ↓apply_ite P, ite_self]
    | split
    | refine (foldl_keeps P _ ?_ _ _).trans ?_
    | intro _ _

end Sys2Proof.Machine
end

