-- ==== Sys2Proof/Laws/KeepLinks.lean ====
section
/-! SUPPORT. What the functions of Machine/Links.lean leave unchanged. -/

set_option linter.unusedSimpArgs false
set_option linter.unreachableTactic false
set_option linter.unusedTactic false

namespace Sys2Proof.Machine

theorem monitorSample_keeps {β : Type} (P : State → β) (h : ∀ (s : State) x0 x1 x2 x3 x4 x5 x6 x7, P { s with out := x0, evt := x1, mon := x2, bkp := x3, jnl := x4, slate := x5, safe := x6, faultTimes := x7 } = P s) :
    ∀ a0 s, P (monitorSample a0 s) = P s := by
  have k0 := jnlC1_keeps P (fun s y0 y1 y2 => h s y0 y1 s.mon s.bkp y2 s.slate s.safe s.faultTimes)
  have k1 := raiseIf_keeps P (fun s y0 y1 => h s y0 y1 s.mon s.bkp s.jnl s.slate s.safe s.faultTimes)
  have k2 := record_keeps P (fun s y0 y1 y2 y3 => h s y0 y1 s.mon y2 s.jnl y3 s.safe s.faultTimes)
  have k3 := safetyFault_keeps P (fun s y0 y1 y2 y3 y4 y5 => h s y0 y1 s.mon y2 s.jnl y3 y4 y5)
  intro a0 s
  unfold monitorSample
  try dsimp only
  repeat' first
    | with_reducible rfl
    | simp only [↓h, ↓k0, ↓k1, ↓k2, ↓k3, ↓apply_ite P, ite_self]
    | split
    | refine (foldl_keeps P _ ?_ _ _).trans ?_
    | intro _ _

theorem c1Recovery_keeps {β : Type} (P : State → β) (h : ∀ (s : State) x0 x1 x2 x3 x4, P { s with now := x0, mono := x1, out := x2, evt := x3, jnl := x4 } = P s) :
    ∀ s, P (c1Recovery s) = P s := by
  have k0 := advMono_keeps P (fun s y0 y1 => h s y0 y1 s.out s.evt s.jnl)
  have k1 := jnlC1_keeps P (fun s y0 y1 y2 => h s s.now s.mono y0 y1 y2)
  intro s
  unfold c1Recovery
  try dsimp only
  repeat' first
    | with_reducible rfl
    | simp only [↓h, ↓k0, ↓k1, ↓apply_ite P, ite_self]
    | split
    | refine (foldl_keeps P _ ?_ _ _).trans ?_
    | intro _ _

end Sys2Proof.Machine
end

