-- ==== Sys2Proof/Laws/KeepMemory.lean ====
section
/-! SUPPORT. What the functions of Machine/Memory.lean leave unchanged. -/

set_option linter.unusedSimpArgs false
set_option linter.unreachableTactic false
set_option linter.unusedTactic false

namespace Sys2Proof.Machine

theorem resealPage_keeps {β : Type} (P : State → β) (h : ∀ (s : State) x0 x1 x2, P { s with jnv := x0, roots := x1, ledger := x2 } = P s) :
    ∀ a0 s, P (resealPage a0 s) = P s := by
  have k0 := sealPage_keeps P (fun s y0 y1 y2 => h s y0 y1 y2)
  intro a0 s
  unfold resealPage
  try dsimp only
  repeat' first
    | with_reducible rfl
    | simp only [↓h, ↓k0, ↓apply_ite P, ite_self]
    | split
    | refine (foldl_keeps P _ ?_ _ _).trans ?_
    | intro _ _

theorem directGale_keeps {β : Type} (P : State → β) (h : ∀ (s : State) x0 x1 x2, P { s with plcMac := x0, eps := x1, mem := x2 } = P s) :
    ∀ a0 s, P (directGale a0 s) = P s := by
  have k0 := updEp_keeps P (fun s y0 y1 => h s s.plcMac y0 y1)
  have k1 := updLink_keeps P (fun s y0 => h s y0 s.eps s.mem)
  intro a0 s
  unfold directGale
  try dsimp only
  repeat' first
    | with_reducible rfl
    | simp only [↓h, ↓k0, ↓k1, ↓apply_ite P, ite_self]
    | split
    | refine (foldl_keeps P _ ?_ _ _).trans ?_
    | intro _ _

theorem loseCustody_keeps {β : Type} (P : State → β) (h : ∀ (s : State) x0 x1, P { s with sectors := x0, eps := x1 } = P s) :
    ∀ a0 a1 s, P (loseCustody a0 a1 s) = P s := by
  have k0 := noteEp_keeps P (fun s y0 => h s s.sectors y0)
  intro a0 a1 s
  unfold loseCustody
  try dsimp only
  repeat' first
    | with_reducible rfl
    | simp only [↓h, ↓k0, ↓apply_ite P, ite_self]
    | split
    | refine (foldl_keeps P _ ?_ _ _).trans ?_
    | intro _ _

theorem loseContent_keeps {β : Type} (P : State → β) (h : ∀ (s : State) x0 x1 x2 x3 x4 x5 x6 x7, P { s with out := x0, evt := x1, jnv := x2, jnl := x3, prov := x4, roots := x5, camps := x6, life := x7 } = P s) :
    ∀ a0 s, P (loseContent a0 s) = P s := by
  have k0 := setCampState_keeps P (fun s y0 y1 y2 y3 y4 y5 y6 y7 => h s y0 y1 y2 y3 y4 y5 y6 y7)
  have k1 := updCamp_keeps P (fun s y0 => h s s.out s.evt s.jnv s.jnl s.prov s.roots y0 s.life)
  intro a0 s
  unfold loseContent
  try dsimp only
  repeat' first
    | with_reducible rfl
    | simp only [↓h, ↓k0, ↓k1, ↓apply_ite P, ite_self]
    | split
    | refine (foldl_keeps P _ ?_ _ _).trans ?_
    | intro _ _

theorem failOp_keeps {β : Type} (P : State → β) (h : ∀ (s : State) x0 x1 x2 x3 x4 x5 x6 x7 x8 x9 x10, P { s with out := x0, mbxs := x1, ops := x2, evt := x3, bkp := x4, dir := x5, chans := x6, prov := x7, keys := x8, slate := x9, maint := x10 } = P s) :
    ∀ a0 a1 s, P (failOp a0 a1 s) = P s := by
  have k0 := dropToken_keeps P (fun s y0 => h s s.out s.mbxs s.ops s.evt s.bkp s.dir s.chans s.prov s.keys s.slate y0)
  have k1 := finishOp_keeps P (fun s y0 y1 y2 y3 y4 y5 => h s y0 y1 y2 y3 y4 s.dir s.chans s.prov s.keys y5 s.maint)
  have k2 := raise_keeps P (fun s y0 y1 => h s y0 s.mbxs s.ops y1 s.bkp s.dir s.chans s.prov s.keys s.slate s.maint)
  have k3 := unbindChan_keeps P (fun s y0 => h s s.out s.mbxs s.ops s.evt s.bkp s.dir y0 s.prov s.keys s.slate s.maint)
  intro a0 a1 s
  unfold failOp
  try dsimp only
  repeat' first
    | with_reducible rfl
    | simp only [↓h, ↓k0, ↓k1, ↓k2, ↓k3, ↓apply_ite P, ite_self]
    | split
    | refine (foldl_keeps P _ ?_ _ _).trans ?_
    | intro _ _

theorem recoverItem_keeps {β : Type} (P : State → β) (h : ∀ (s : State) x0 x1 x2 x3 x4 x5 x6 x7 x8 x9 x10 x11 x12 x13 x14 x15 x16 x17 x18 x19 x20 x21, P { s with out := x0, mbxs := x1, ops := x2, evt := x3, bkp := x4, sectors := x5, plcMac := x6, dir := x7, eps := x8, mem := x9, chans := x10, jnv := x11, jnl := x12, prov := x13, roots := x14, ledger := x15, bal := x16, camps := x17, keys := x18, slate := x19, life := x20, maint := x21 } = P s) :
    ∀ a0 a1 a2 s, P (recoverItem a0 a1 a2 s) = P s := by
  have k0 := directGale_keeps P (fun s y0 y1 y2 => h s s.out s.mbxs s.ops s.evt s.bkp s.sectors y0 s.dir y1 y2 s.chans s.jnv s.jnl s.prov s.roots s.ledger s.bal s.camps s.keys s.slate s.life s.maint)
  have k1 := failOp_keeps P (fun s y0 y1 y2 y3 y4 y5 y6 y7 y8 y9 y10 => h s y0 y1 y2 y3 y4 s.sectors s.plcMac y5 s.eps s.mem y6 s.jnv s.jnl y7 s.roots s.ledger s.bal s.camps y8 y9 s.life y10)
  have k2 := loseCal_keeps P (fun s y0 => h s s.out s.mbxs s.ops s.evt s.bkp s.sectors s.plcMac s.dir s.eps s.mem s.chans s.jnv s.jnl s.prov s.roots y0 s.bal s.camps s.keys s.slate s.life s.maint)
  have k3 := loseCells_keeps P (fun s y0 => h s s.out s.mbxs s.ops s.evt s.bkp s.sectors s.plcMac s.dir s.eps s.mem s.chans s.jnv s.jnl s.prov s.roots s.ledger y0 s.camps s.keys s.slate s.life s.maint)
  have k4 := loseContent_keeps P (fun s y0 y1 y2 y3 y4 y5 y6 y7 => h s y0 s.mbxs s.ops y1 s.bkp s.sectors s.plcMac s.dir s.eps s.mem s.chans y2 y3 y4 y5 s.ledger s.bal y6 s.keys s.slate y7 s.maint)
  have k5 := loseCustody_keeps P (fun s y0 y1 => h s s.out s.mbxs s.ops s.evt s.bkp y0 s.plcMac s.dir y1 s.mem s.chans s.jnv s.jnl s.prov s.roots s.ledger s.bal s.camps s.keys s.slate s.life s.maint)
  have k6 := loseZone_keeps P (fun s y0 y1 y2 => h s y0 s.mbxs s.ops y1 s.bkp s.sectors s.plcMac s.dir s.eps s.mem s.chans s.jnv s.jnl s.prov s.roots s.ledger y2 s.camps s.keys s.slate s.life s.maint)
  intro a0 a1 a2 s
  unfold recoverItem
  try dsimp only
  repeat' first
    | with_reducible rfl
    | simp only [↓h, ↓k0, ↓k1, ↓k2, ↓k3, ↓k4, ↓k5, ↓k6, ↓apply_ite P, ite_self]
    | split
    | refine (foldl_keeps P _ ?_ _ _).trans ?_
    | intro _ _

theorem burstUe_keeps {β : Type} (P : State → β) (h : ∀ (s : State) x0 x1 x2 x3 x4 x5 x6 x7 x8 x9 x10 x11 x12 x13 x14 x15 x16 x17 x18 x19 x20 x21 x22, P { s with freeCtr := x0, out := x1, mbxs := x2, ops := x3, evt := x4, bkp := x5, sectors := x6, plcMac := x7, dir := x8, eps := x9, mem := x10, chans := x11, jnv := x12, jnl := x13, prov := x14, roots := x15, ledger := x16, bal := x17, camps := x18, keys := x19, slate := x20, life := x21, maint := x22 } = P s) :
    ∀ a0 a1 a2 s, P (burstUe a0 a1 a2 s) = P s := by
  have k0 := blobUe_keeps P (fun s y0 y1 y2 y3 y4 y5 => h s s.freeCtr y0 s.mbxs s.ops y1 y2 s.sectors s.plcMac s.dir y3 y4 s.chans s.jnv s.jnl s.prov s.roots s.ledger s.bal s.camps s.keys y5 s.life s.maint)
  have k1 := faultSeq_keeps P (fun s y0 => h s y0 s.out s.mbxs s.ops s.evt s.bkp s.sectors s.plcMac s.dir s.eps s.mem s.chans s.jnv s.jnl s.prov s.roots s.ledger s.bal s.camps s.keys s.slate s.life s.maint)
  have k2 := imageUe_keeps P (fun s y0 y1 y2 y3 y4 y5 y6 => h s s.freeCtr y0 s.mbxs s.ops y1 y2 s.sectors s.plcMac s.dir y3 y4 s.chans s.jnv s.jnl s.prov s.roots y5 s.bal s.camps s.keys y6 s.life s.maint)
  have k3 := lowUe_keeps P (fun s y0 y1 y2 y3 y4 y5 => h s s.freeCtr y0 s.mbxs s.ops y1 y2 s.sectors s.plcMac s.dir y3 y4 s.chans s.jnv s.jnl s.prov s.roots s.ledger s.bal s.camps s.keys y5 s.life s.maint)
  have k4 := noteUe_keeps P (fun s y0 y1 y2 y3 y4 => h s s.freeCtr y0 s.mbxs s.ops y1 y2 s.sectors s.plcMac s.dir s.eps y3 s.chans s.jnv s.jnl s.prov s.roots s.ledger s.bal s.camps s.keys y4 s.life s.maint)
  have k5 := recoverItem_keeps P (fun s y0 y1 y2 y3 y4 y5 y6 y7 y8 y9 y10 y11 y12 y13 y14 y15 y16 y17 y18 y19 y20 y21 => h s s.freeCtr y0 y1 y2 y3 y4 y5 y6 y7 y8 y9 y10 y11 y12 y13 y14 y15 y16 y17 y18 y19 y20 y21)
  have k6 := resealPage_keeps P (fun s y0 y1 y2 => h s s.freeCtr s.out s.mbxs s.ops s.evt s.bkp s.sectors s.plcMac s.dir s.eps s.mem s.chans y0 s.jnl s.prov y1 y2 s.bal s.camps s.keys s.slate s.life s.maint)
  have q1 := fun b0 b1 t u (e : faultSeq b0 b1 = (u, t)) => (congrArg (fun z => P z.2) e).symm.trans (k1 b0 b1)
  intro a0 a1 a2 s
  unfold burstUe
  try dsimp only
  repeat' first
    | with_reducible rfl
    | simp only [↓h, ↓k0, ↓k1, ↓k2, ↓k3, ↓k4, ↓k5, ↓k6, ↓apply_ite P, ite_self]
    | split
    | refine (q1 _ _ _ _ (by assumption)).trans ?_
    | refine (foldl_keeps P _ ?_ _ _).trans ?_
    | intro _ _

theorem sramUe_keeps {β : Type} (P : State → β) (h : ∀ (s : State) x0 x1 x2 x3 x4 x5 x6 x7 x8 x9 x10 x11 x12 x13 x14 x15 x16 x17 x18 x19 x20 x21 x22, P { s with freeCtr := x0, out := x1, mbxs := x2, ops := x3, evt := x4, bkp := x5, sectors := x6, plcMac := x7, dir := x8, eps := x9, mem := x10, chans := x11, jnv := x12, jnl := x13, prov := x14, roots := x15, ledger := x16, bal := x17, camps := x18, keys := x19, slate := x20, life := x21, maint := x22 } = P s) :
    ∀ a0 a1 s, P (sramUe a0 a1 s) = P s := by
  have k0 := burstUe_keeps P (fun s y0 y1 y2 y3 y4 y5 y6 y7 y8 y9 y10 y11 y12 y13 y14 y15 y16 y17 y18 y19 y20 y21 y22 => h s y0 y1 y2 y3 y4 y5 y6 y7 y8 y9 y10 y11 y12 y13 y14 y15 y16 y17 y18 y19 y20 y21 y22)
  have k1 := failOp_keeps P (fun s y0 y1 y2 y3 y4 y5 y6 y7 y8 y9 y10 => h s s.freeCtr y0 y1 y2 y3 y4 s.sectors s.plcMac y5 s.eps s.mem y6 s.jnv s.jnl y7 s.roots s.ledger s.bal s.camps y8 y9 s.life y10)
  have k2 := faultSeq_keeps P (fun s y0 => h s y0 s.out s.mbxs s.ops s.evt s.bkp s.sectors s.plcMac s.dir s.eps s.mem s.chans s.jnv s.jnl s.prov s.roots s.ledger s.bal s.camps s.keys s.slate s.life s.maint)
  have k3 := frameDone_keeps P (fun s y0 y1 y2 y3 y4 y5 y6 y7 y8 y9 y10 y11 y12 y13 y14 y15 => h s s.freeCtr y0 y1 y2 y3 y4 s.sectors s.plcMac y5 y6 y7 s.chans y8 y9 y10 y11 y12 s.bal y13 s.keys y14 y15 s.maint)
  have k4 := notTheAnswer_keeps P (fun s y0 => h s s.freeCtr s.out s.mbxs s.ops s.evt s.bkp s.sectors y0 s.dir s.eps s.mem s.chans s.jnv s.jnl s.prov s.roots s.ledger s.bal s.camps s.keys s.slate s.life s.maint)
  have k5 := noteUe_keeps P (fun s y0 y1 y2 y3 y4 => h s s.freeCtr y0 s.mbxs s.ops y1 y2 s.sectors s.plcMac s.dir s.eps y3 s.chans s.jnv s.jnl s.prov s.roots s.ledger s.bal s.camps s.keys y4 s.life s.maint)
  have q2 := fun b0 b1 t u (e : faultSeq b0 b1 = (u, t)) => (congrArg (fun z => P z.2) e).symm.trans (k2 b0 b1)
  intro a0 a1 s
  unfold sramUe
  try dsimp only
  repeat' first
    | with_reducible rfl
    | simp only [↓h, ↓k0, ↓k1, ↓k2, ↓k3, ↓k4, ↓k5, ↓apply_ite P, ite_self]
    | split
    | refine (q2 _ _ _ _ (by assumption)).trans ?_
    | refine (foldl_keeps P _ ?_ _ _).trans ?_
    | intro _ _

theorem scrubRead_keeps {β : Type} (P : State → β) (h : ∀ (s : State) x0 x1 x2 x3 x4 x5 x6 x7 x8 x9 x10 x11 x12 x13 x14 x15 x16 x17 x18 x19 x20 x21 x22, P { s with freeCtr := x0, out := x1, mbxs := x2, ops := x3, evt := x4, bkp := x5, sectors := x6, plcMac := x7, dir := x8, eps := x9, mem := x10, chans := x11, jnv := x12, jnl := x13, prov := x14, roots := x15, ledger := x16, bal := x17, camps := x18, keys := x19, slate := x20, life := x21, maint := x22 } = P s) :
    ∀ a0 s, P (scrubRead a0 s) = P s := by
  have k0 := burstUe_keeps P (fun s y0 y1 y2 y3 y4 y5 y6 y7 y8 y9 y10 y11 y12 y13 y14 y15 y16 y17 y18 y19 y20 y21 y22 => h s y0 y1 y2 y3 y4 y5 y6 y7 y8 y9 y10 y11 y12 y13 y14 y15 y16 y17 y18 y19 y20 y21 y22)
  have k1 := noteCorrected_keeps P (fun s y0 y1 y2 y3 => h s s.freeCtr y0 s.mbxs s.ops y1 s.bkp s.sectors s.plcMac s.dir s.eps y2 s.chans s.jnv s.jnl s.prov s.roots s.ledger s.bal s.camps s.keys s.slate s.life y3)
  intro a0 s
  unfold scrubRead
  try dsimp only
  repeat' first
    | with_reducible rfl
    | simp only [↓h, ↓k0, ↓k1, ↓apply_ite P, ite_self]
    | split
    | refine (foldl_keeps P _ ?_ _ _).trans ?_
    | intro _ _

theorem patrolScrub_keeps {β : Type} (P : State → β) (h : ∀ (s : State) x0 x1 x2 x3 x4 x5 x6 x7 x8 x9 x10 x11 x12 x13 x14 x15 x16 x17 x18 x19 x20 x21 x22 x23 x24, P { s with now := x0, mono := x1, freeCtr := x2, out := x3, mbxs := x4, ops := x5, evt := x6, bkp := x7, sectors := x8, plcMac := x9, dir := x10, eps := x11, mem := x12, chans := x13, jnv := x14, jnl := x15, prov := x16, roots := x17, ledger := x18, bal := x19, camps := x20, keys := x21, slate := x22, life := x23, maint := x24 } = P s) :
    ∀ a0 s, P (patrolScrub a0 s) = P s := by
  have k0 := advMono_keeps P (fun s y0 y1 => h s y0 y1 s.freeCtr s.out s.mbxs s.ops s.evt s.bkp s.sectors s.plcMac s.dir s.eps s.mem s.chans s.jnv s.jnl s.prov s.roots s.ledger s.bal s.camps s.keys s.slate s.life s.maint)
  have k1 := scrubRead_keeps P (fun s y0 y1 y2 y3 y4 y5 y6 y7 y8 y9 y10 y11 y12 y13 y14 y15 y16 y17 y18 y19 y20 y21 y22 => h s s.now s.mono y0 y1 y2 y3 y4 y5 y6 y7 y8 y9 y10 y11 y12 y13 y14 y15 y16 y17 y18 y19 y20 y21 y22)
  have k2 := sramUe_keeps P (fun s y0 y1 y2 y3 y4 y5 y6 y7 y8 y9 y10 y11 y12 y13 y14 y15 y16 y17 y18 y19 y20 y21 y22 => h s s.now s.mono y0 y1 y2 y3 y4 y5 y6 y7 y8 y9 y10 y11 y12 y13 y14 y15 y16 y17 y18 y19 y20 y21 y22)
  intro a0 s
  unfold patrolScrub
  try dsimp only
  repeat' first
    | with_reducible rfl
    | simp only [↓h, ↓k0, ↓k1, ↓k2, ↓apply_ite P, ite_self]
    | split
    | refine (foldl_keeps P _ ?_ _ _).trans ?_
    | intro _ _

theorem nextRepair_keeps {β : Type} (P : State → β) (h : ∀ (s : State) x0 x1, P { s with mem := x0, maint := x1 } = P s) :
    ∀ s, P (nextRepair s) = P s := by
  have k0 := askToken_keeps P (fun s y0 => h s s.mem y0)
  intro s
  unfold nextRepair
  try dsimp only
  repeat' first
    | with_reducible rfl
    | simp only [↓h, ↓k0, ↓apply_ite P, ite_self]
    | split
    | refine (foldl_keeps P _ ?_ _ _).trans ?_
    | intro _ _

theorem repairRow_keeps {β : Type} (P : State → β) (h : ∀ (s : State) x0 x1, P { s with mem := x0, life := x1 } = P s) :
    ∀ a0 a1 s, P (repairRow a0 a1 s) = P s := by
  have k0 := addRepair_keeps P (fun s y0 => h s s.mem y0)
  have k1 := setRank_keeps P (fun s y0 => h s y0 s.life)
  intro a0 a1 s
  unfold repairRow
  try dsimp only
  repeat' first
    | with_reducible rfl
    | simp only [↓h, ↓k0, ↓k1, ↓apply_ite P, ite_self]
    | split
    | refine (foldl_keeps P _ ?_ _ _).trans ?_
    | intro _ _

theorem softRepair_keeps {β : Type} (P : State → β) (h : ∀ (s : State) x0 x1 x2 x3 x4, P { s with out := x0, evt := x1, mem := x2, life := x3, maint := x4 } = P s) :
    ∀ a0 s, P (softRepair a0 s) = P s := by
  have k0 := dropToken_keeps P (fun s y0 => h s s.out s.evt s.mem s.life y0)
  have k1 := nextRepair_keeps P (fun s y0 y1 => h s s.out s.evt y0 s.life y1)
  have k2 := raise_keeps P (fun s y0 y1 => h s y0 y1 s.mem s.life s.maint)
  have k3 := repairRow_keeps P (fun s y0 y1 => h s s.out s.evt y0 y1 s.maint)
  have k4 := setRank_keeps P (fun s y0 => h s s.out s.evt y0 s.life s.maint)
  intro a0 s
  unfold softRepair
  try dsimp only
  repeat' first
    | with_reducible rfl
    | simp only [↓h, ↓k0, ↓k1, ↓k2, ↓k3, ↓k4, ↓apply_ite P, ite_self]
    | split
    | refine (foldl_keeps P _ ?_ _ _).trans ?_
    | intro _ _

end Sys2Proof.Machine
end

