-- ==== Sys2Proof/Laws/KeepServe.lean ====
section
/-! SUPPORT. What serving a request leaves unchanged, given what the opcode's own run leaves unchanged. -/

namespace Sys2Proof.Machine

theorem serveHeld_keeps {β : Type} (P : State → β) (h : ∀ (s : State) x0 x1 x2 x3 x4 x5 x6, P { s with out := x0, mbxs := x1, ops := x2, nextOp := x3, evt := x4, bkp := x5, slate := x6 } = P s)
    (v : Service) (hv : ∀ id r s, P (v.run id r s).st = P s) :
    ∀ r o s, P (serveHeld v r o s) = P s := by
  have ki := immediate_keeps P (fun s y0 y1 y2 y3 y4 y5 => h s y0 y1 y2 s.nextOp y3 y4 y5)
  have kw := startWait_keeps P (fun s y0 y1 y2 y3 y4 y5 y6 => h s y0 y1 y2 y3 y4 y5 y6)
  have ka := addOp_keeps P (fun s y0 y1 => h s s.out s.mbxs y0 y1 s.evt s.bkp s.slate)
  intro r o s
  have e := hv s.nextOp r s
  unfold serveHeld
  dsimp only
  split
  · exact ki _ _ _ _ _ _
  · split
    · exact ki _ _ _ _ _ _
    · split
      · exact kw _ _ _ _
      · split
        · exact ki _ _ _ _ _ _
        · split
          · next hx => rw [hx] at e; exact (ki _ _ _ _ _ _).trans e
          · next hx => rw [hx] at e; exact (ki _ _ _ _ _ _).trans ((ki _ _ _ _ _ _).trans e)
          · next hx => rw [hx] at e; exact (ki _ _ _ _ _ _).trans ((ka _ _ _ _ _ _).trans e)
          · next hx => rw [hx] at e; exact (kw _ _ _ _).trans e

theorem serve_keeps {β : Type} (P : State → β) (h : ∀ (s : State) x0 x1 x2 x3 x4 x5 x6, P { s with out := x0, mbxs := x1, ops := x2, nextOp := x3, evt := x4, bkp := x5, slate := x6 } = P s)
    (v : Service) (hv : ∀ id r s, P (v.run id r s).st = P s) :
    ∀ r s, P (serve v r s) = P s := by
  have kh := serveHeld_keeps P h v hv
  have km := setMbx_keeps P (fun s y0 => h s s.out y0 s.ops s.nextOp s.evt s.bkp s.slate)
  intro r s
  unfold serve
  split
  · exact (kh _ _ _).trans (km _ _ _)
  · rfl

theorem serveWaiting_keeps {β : Type} (P : State → β) (h : ∀ (s : State) x0 x1 x2 x3 x4 x5, P { s with out := x0, mbxs := x1, ops := x2, evt := x3, bkp := x4, slate := x5 } = P s)
    (v : Service) (hv : ∀ id r s, P (v.run id r s).st = P s) :
    ∀ o s, P (serveWaiting v o s) = P s := by
  have kf := finishOp_keeps P (fun s y0 y1 y2 y3 y4 y5 => h s y0 y1 y2 y3 y4 y5)
  intro o s
  have e := hv o.id o.req s
  unfold serveWaiting
  split
  · exact kf _ _ _ _
  · split
    · next hx => rw [hx] at e; exact (kf _ _ _ _).trans e
    · next hx => rw [hx] at e; exact (kf _ _ _ _).trans e
    · next hx => rw [hx] at e; exact (h _ _ _ _ _ _ _).trans e
    · next hx => rw [hx] at e; exact e

/-- The end of a wait keeps what every opcode's run keeps. -/
theorem requestWaitEnd_keeps {β : Type} (P : State → β) (h : ∀ (s : State) x0 x1 x2 x3 x4 x5 x6, P { s with out := x0, mbxs := x1, ops := x2, evt := x3, bkp := x4, slate := x5, fw := x6 } = P s)
    (hv : ∀ v ∈ services, ∀ id r s, P (v.run id r s).st = P s) :
    ∀ id s, P (requestWaitEnd id s) = P s := by
  have kp := startPause_keeps P (fun s y0 => h s s.out s.mbxs s.ops s.evt s.bkp s.slate y0)
  intro id s
  unfold requestWaitEnd
  split
  · rfl
  · split
    · rfl
    · next hx =>
      split
      · rfl
      · exact (kp _).trans (serveWaiting_keeps P (fun s y0 y1 y2 y3 y4 y5 => h s y0 y1 y2 y3 y4 y5 s.fw) _
          (hv _ (List.mem_of_find?_eq_some hx)) _ _)

/-- Serving a request leaves of the parts that P reads what they were, or what one run of its opcode makes of them. -/
theorem serve_effect {β : Type} (P : State → β) (h : ∀ (s : State) x0 x1 x2 x3 x4 x5 x6, P { s with out := x0, mbxs := x1, ops := x2, nextOp := x3, evt := x4, bkp := x5, slate := x6 } = P s)
    (v : Service) (r : Req) (s : State) :
    P (serve v r s) = P s ∨ ∃ id s1, P s1 = P s ∧ P (serve v r s) = P (v.run id r s1).st := by
  have ki := immediate_keeps P (fun s y0 y1 y2 y3 y4 y5 => h s y0 y1 y2 s.nextOp y3 y4 y5)
  have kw := startWait_keeps P (fun s y0 y1 y2 y3 y4 y5 y6 => h s y0 y1 y2 y3 y4 y5 y6)
  have ka := addOp_keeps P (fun s y0 y1 => h s s.out s.mbxs y0 y1 s.evt s.bkp s.slate)
  have km := setMbx_keeps P (fun s y0 => h s s.out y0 s.ops s.nextOp s.evt s.bkp s.slate)
  unfold serve
  split
  · generalize hs : setMbx r.mbx (fun x => { x with fetched := none, fetchedOrphan := false }) s = s0
    have e0 : P s0 = P s := hs ▸ km _ _ _
    dsimp only
    generalize ((mbx s r.mbx).fetched.isSome && (mbx s r.mbx).fetchedOrphan) = o
    unfold serveHeld
    dsimp only
    split
    · exact .inl ((ki _ _ _ _ _ _).trans e0)
    · split
      · exact .inl ((ki _ _ _ _ _ _).trans e0)
      · split
        · exact .inl ((kw _ _ _ _).trans e0)
        · split
          · exact .inl ((ki _ _ _ _ _ _).trans e0)
          · refine .inr ⟨s0.nextOp, s0, e0, ?_⟩
            split
            · next hx => rw [hx]; exact ki _ _ _ _ _ _
            · next hx => rw [hx]; exact (ki _ _ _ _ _ _).trans (ki _ _ _ _ _ _)
            · next hx => rw [hx]; exact (ki _ _ _ _ _ _).trans (ka _ _ _ _ _ _)
            · next hx => rw [hx]; exact kw _ _ _ _
  · exact .inl rfl

/-- The end of a wait leaves of the parts that P reads what they were, or what one run of some opcode makes of them. -/
theorem requestWaitEnd_effect {β : Type} (P : State → β) (h : ∀ (s : State) x0 x1 x2 x3 x4 x5 x6, P { s with out := x0, mbxs := x1, ops := x2, evt := x3, bkp := x4, slate := x5, fw := x6 } = P s)
    (id : Nat) (s : State) :
    P (requestWaitEnd id s) = P s ∨ ∃ v ∈ services, ∃ n r, P (requestWaitEnd id s) = P (v.run n r s).st := by
  have kp := startPause_keeps P (fun s y0 => h s s.out s.mbxs s.ops s.evt s.bkp s.slate y0)
  have kf := finishOp_keeps P (fun s y0 y1 y2 y3 y4 y5 => h s y0 y1 y2 y3 y4 y5 s.fw)
  unfold requestWaitEnd
  split
  · exact .inl rfl
  · next o _ =>
    split
    · exact .inl rfl
    · next v hx =>
      split
      · exact .inl rfl
      · rw [kp]
        unfold serveWaiting
        split
        · exact .inl (kf _ _ _ _)
        · refine .inr ⟨v, List.mem_of_find?_eq_some hx, o.id, o.req, ?_⟩
          split
          · next hx => rw [hx]; exact kf _ _ _ _
          · next hx => rw [hx]; exact kf _ _ _ _
          · next hx => rw [hx]; exact h _ _ _ _ _ _ _ _
          · next hx => rw [hx]; rfl

end Sys2Proof.Machine
end

