-- ==== Sys2Proof/Laws/KeepExec.lean ====
section
/-! SUPPORT. What each command leaves unchanged: execX_keeps names the parts of the state that command X can write. -/

namespace Sys2Proof.Machine

theorem execRegisterWrite_keeps {β : Type} (P : State → β) (hk : ∀ (s : State) x0 x1 x2 x3 x4 x5 x6 x7 x8 x9 x10 x11 x12 x13, P { s with out := x0, mbxs := x1, ops := x2, evt := x3, glb := x4, mir := x5, isl := x6, boot := x7, pcie := x8, bkp := x9, lanes := x10, plc := x11, chans := x12, slate := x13 } = P s)
    (addr : Nat) (be : BitVec 4) (data : Word) (s : State) (s' : State) (e : execRegisterWrite addr be data s = .next s') : P s' = P s :=
  (congrArg P (Host.Outcome.next.inj e)).symm.trans (registerWrite_keeps P (fun s y0 y1 y2 y3 y4 y5 y6 y7 y8 y9 y10 y11 y12 y13 => hk s y0 y1 y2 y3 y4 y5 y6 y7 y8 y9 y10 y11 y12 y13) addr be data s)

theorem execEtimeLoRead_keeps {β : Type} (P : State → β) (hk : ∀ (s : State) x0, P { s with glb := x0 } = P s)
    (s : State) (s' : State) (e : execEtimeLoRead s = .next s') : P s' = P s :=
  (congrArg P (Host.Outcome.next.inj e)).symm.trans (etimeLoRead_keeps P (fun s y0 => hk s y0) s)

theorem execRstCtrlSysrst_keeps {β : Type} (P : State → β) (hk : ∀ (s : State) x0, P { s with boot := x0 } = P s)
    (data : Word) (s : State) (s' : State) (e : execRstCtrlSysrst data s = .next s') : P s' = P s :=
  (congrArg P (Host.Outcome.next.inj e)).symm.trans (rstCtrl_keeps P (fun s y0 => hk s y0) data s)

theorem execMbxEnable_keeps {β : Type} (P : State → β) (hk : ∀ (s : State) x0 x1 x2, P { s with out := x0, mbxs := x1, evt := x2 } = P s)
    (m : Nat) (s : State) (s' : State) (e : execMbxEnable m s = .next s') : P s' = P s :=
  (congrArg P (Host.Outcome.next.inj e)).symm.trans (mbxEnable_keeps P (fun s y0 y1 y2 => hk s y0 y1 y2) m s)

theorem execMbxDisable_keeps {β : Type} (P : State → β) (hk : ∀ (s : State) x0 x1 x2 x3 x4 x5, P { s with out := x0, mbxs := x1, ops := x2, evt := x3, bkp := x4, slate := x5 } = P s)
    (m : Nat) (s : State) (s' : State) (e : execMbxDisable m s = .next s') : P s' = P s :=
  (congrArg P (Host.Outcome.next.inj e)).symm.trans (mbxDisable_keeps P (fun s y0 y1 y2 y3 y4 y5 => hk s y0 y1 y2 y3 y4 y5) m s)

theorem execMbxReset_keeps {β : Type} (P : State → β) (hk : ∀ (s : State) x0 x1 x2 x3 x4 x5, P { s with out := x0, mbxs := x1, ops := x2, evt := x3, bkp := x4, slate := x5 } = P s)
    (m : Nat) (s : State) (s' : State) (e : execMbxReset m s = .next s') : P s' = P s :=
  (congrArg P (Host.Outcome.next.inj e)).symm.trans (mbxReset_keeps P (fun s y0 y1 y2 y3 y4 y5 => hk s y0 y1 y2 y3 y4 y5) m s)

theorem execMbxReqPiWrite_keeps {β : Type} (P : State → β) (hk : ∀ (s : State) x0 x1 x2 x3 x4 x5, P { s with out := x0, mbxs := x1, ops := x2, evt := x3, bkp := x4, slate := x5 } = P s)
    (m : Nat) (v : Word) (s : State) (s' : State) (e : execMbxReqPiWrite m v s = .next s') : P s' = P s :=
  (congrArg P (Host.Outcome.next.inj e)).symm.trans (mbxReqPi_keeps P (fun s y0 y1 y2 y3 y4 y5 => hk s y0 y1 y2 y3 y4 y5) m v s)

theorem execMbxRspCiWrite_keeps {β : Type} (P : State → β) (hk : ∀ (s : State) x0, P { s with mbxs := x0 } = P s)
    (m : Nat) (v : Word) (s : State) (s' : State) (e : execMbxRspCiWrite m v s = .next s') : P s' = P s :=
  (congrArg P (Host.Outcome.next.inj e)).symm.trans (mbxRspCi_keeps P (fun s y0 => hk s y0) m v s)

theorem execRequestFetch_keeps {β : Type} (P : State → β) (hk : ∀ (s : State) x0 x1 x2 x3 x4 x5 x6 x7, P { s with out := x0, mbxs := x1, rrNext := x2, fetchCtr := x3, ops := x4, evt := x5, bkp := x6, slate := x7 } = P s)
    (m : Nat) (bytes : List Byte) (s : State) (s' : State) (e : execRequestFetch m bytes s = .next s') : P s' = P s :=
  (congrArg P (Host.Outcome.next.inj e)).symm.trans (requestFetch_keeps P (fun s y0 y1 y2 y3 y4 y5 y6 y7 => hk s y0 y1 y2 y3 y4 y5 y6 y7) m bytes s)

theorem execRingBusError_keeps {β : Type} (P : State → β) (hk : ∀ (s : State) x0 x1 x2 x3 x4 x5, P { s with out := x0, mbxs := x1, ops := x2, evt := x3, bkp := x4, slate := x5 } = P s)
    (m : Nat) (write : Bool) (s : State) (s' : State) (e : execRingBusError m write s = .next s') : P s' = P s :=
  (congrArg P (Host.Outcome.next.inj e)).symm.trans (ringBusError_keeps P (fun s y0 y1 y2 y3 y4 y5 => hk s y0 y1 y2 y3 y4 y5) m write s)

theorem execResponsePost_keeps {β : Type} (P : State → β) (hk : ∀ (s : State) x0 x1 x2 x3 x4 x5, P { s with out := x0, mbxs := x1, ops := x2, evt := x3, bkp := x4, slate := x5 } = P s)
    (m : Nat) (s : State) (s' : State) (e : execResponsePost m s = .next s') : P s' = P s :=
  (congrArg P (Host.Outcome.next.inj e)).symm.trans (responsePost_keeps P (fun s y0 y1 y2 y3 y4 y5 => hk s y0 y1 y2 y3 y4 y5) m s)

theorem execEvtPendClear_keeps {β : Type} (P : State → β) (hk : ∀ (s : State) x0 x1, P { s with out := x0, evt := x1 } = P s)
    (k : Nat) (data occurring : Word) (s : State) (s' : State) (e : execEvtPendClear k data occurring s = .next s') : P s' = P s :=
  (congrArg P (Host.Outcome.next.inj e)).symm.trans (evtPendClear_keeps P (fun s y0 y1 => hk s y0 y1) k data occurring s)

theorem execEvtEnWrite_keeps {β : Type} (P : State → β) (hk : ∀ (s : State) x0 x1, P { s with out := x0, evt := x1 } = P s)
    (k : Nat) (data : Word) (s : State) (s' : State) (e : execEvtEnWrite k data s = .next s') : P s' = P s :=
  (congrArg P (Host.Outcome.next.inj e)).symm.trans (evtEnWrite_keeps P (fun s y0 y1 => hk s y0 y1) k data s)

theorem execEvtForce_keeps {β : Type} (P : State → β) (hk : ∀ (s : State) x0 x1, P { s with out := x0, evt := x1 } = P s)
    (k : Nat) (data : Word) (s : State) (s' : State) (e : execEvtForce k data s = .next s') : P s' = P s :=
  (congrArg P (Host.Outcome.next.inj e)).symm.trans (evtForce_keeps P (fun s y0 y1 => hk s y0 y1) k data s)

theorem execMsixUnmask_keeps {β : Type} (P : State → β) (hk : ∀ (s : State) x0 x1 x2, P { s with out := x0, evt := x1, pcie := x2 } = P s)
    (vector : Option Nat) (s : State) (s' : State) (e : execMsixUnmask vector s = .next s') : P s' = P s :=
  (congrArg P (Host.Outcome.next.inj e)).symm.trans (msixUnmask_keeps P (fun s y0 y1 y2 => hk s y0 y1 y2) vector s)

theorem execNop_keeps {β : Type} (P : State → β) (hk : ∀ (s : State) x0 x1 x2 x3 x4 x5 x6, P { s with out := x0, mbxs := x1, ops := x2, nextOp := x3, evt := x4, bkp := x5, slate := x6 } = P s)
    (r : Req) (s : State) (s' : State) (e : execNop r s = .next s') : P s' = P s :=
  (congrArg P (Host.Outcome.next.inj e)).symm.trans (serve_keeps P (fun s y0 y1 y2 y3 y4 y5 y6 => hk s y0 y1 y2 y3 y4 y5 y6) nopService (fun _ _ _ => rfl) r s)

theorem execConfigBegin_keeps {β : Type} (P : State → β) (hk : ∀ (s : State) x0 x1 x2 x3 x4 x5 x6 x7, P { s with out := x0, cfg := x1, mbxs := x2, ops := x3, nextOp := x4, evt := x5, bkp := x6, slate := x7 } = P s)
    (r : Req) (s : State) (s' : State) (e : execConfigBegin r s = .next s') : P s' = P s :=
  (congrArg P (Host.Outcome.next.inj e)).symm.trans (serve_keeps P (fun s y0 y1 y2 y3 y4 y5 y6 => hk s y0 s.cfg y1 y2 y3 y4 y5 y6) configBeginService (fun _ _ s => configBegin_keeps P (fun s y0 y1 y2 => hk s y0 y1 s.mbxs s.ops s.nextOp y2 s.bkp s.slate) s) r s)

theorem execConfigCommit_keeps {β : Type} (P : State → β) (hk : ∀ (s : State) x0 x1 x2 x3 x4 x5 x6 x7 x8, P { s with out := x0, cfg := x1, mbxs := x2, ops := x3, nextOp := x4, evt := x5, bkp := x6, rf := x7, slate := x8 } = P s)
    (r : Req) (s : State) (s' : State) (e : execConfigCommit r s = .next s') : P s' = P s :=
  (congrArg P (Host.Outcome.next.inj e)).symm.trans (serve_keeps P (fun s y0 y1 y2 y3 y4 y5 y6 => hk s y0 s.cfg y1 y2 y3 y4 y5 s.rf y6) configCommitService (fun id _ s => configCommit_keeps P (fun s y0 y1 y2 y3 => hk s y0 y1 s.mbxs s.ops s.nextOp y2 s.bkp y3 s.slate) id s) r s)

theorem execConfigAbort_keeps {β : Type} (P : State → β) (hk : ∀ (s : State) x0 x1 x2 x3 x4 x5 x6 x7, P { s with out := x0, cfg := x1, mbxs := x2, ops := x3, nextOp := x4, evt := x5, bkp := x6, slate := x7 } = P s)
    (r : Req) (s : State) (s' : State) (e : execConfigAbort r s = .next s') : P s' = P s :=
  (congrArg P (Host.Outcome.next.inj e)).symm.trans (serve_keeps P (fun s y0 y1 y2 y3 y4 y5 y6 => hk s y0 s.cfg y1 y2 y3 y4 y5 y6) configAbortService (fun _ _ s => configAbort_keeps P (fun s y0 y1 y2 => hk s y0 y1 s.mbxs s.ops s.nextOp y2 s.bkp s.slate) s) r s)

theorem execConfigStateGet_keeps {β : Type} (P : State → β) (hk : ∀ (s : State) x0 x1 x2 x3 x4 x5 x6, P { s with out := x0, mbxs := x1, ops := x2, nextOp := x3, evt := x4, bkp := x5, slate := x6 } = P s)
    (r : Req) (s : State) (s' : State) (e : execConfigStateGet r s = .next s') : P s' = P s :=
  (congrArg P (Host.Outcome.next.inj e)).symm.trans (serve_keeps P (fun s y0 y1 y2 y3 y4 y5 y6 => hk s y0 y1 y2 y3 y4 y5 y6) configStateGetService (fun _ _ _ => rfl) r s)

theorem execCapsGet_keeps {β : Type} (P : State → β) (hk : ∀ (s : State) x0 x1 x2 x3 x4 x5 x6, P { s with out := x0, mbxs := x1, ops := x2, nextOp := x3, evt := x4, bkp := x5, slate := x6 } = P s)
    (r : Req) (s : State) (s' : State) (e : execCapsGet r s = .next s') : P s' = P s :=
  (congrArg P (Host.Outcome.next.inj e)).symm.trans (serve_keeps P (fun s y0 y1 y2 y3 y4 y5 y6 => hk s y0 y1 y2 y3 y4 y5 y6) capsGetService (fun _ _ _ => rfl) r s)

theorem execParamBlockWrite_keeps {β : Type} (P : State → β) (hk : ∀ (s : State) x0 x1 x2 x3 x4 x5 x6 x7 x8 x9, P { s with out := x0, cfg := x1, mbxs := x2, ops := x3, nextOp := x4, evt := x5, bkp := x6, jnl := x7, prov := x8, slate := x9 } = P s)
    (r : Req) (s : State) (s' : State) (e : execParamBlockWrite r s = .next s') : P s' = P s :=
  (congrArg P (Host.Outcome.next.inj e)).symm.trans (serve_keeps P (fun s y0 y1 y2 y3 y4 y5 y6 => hk s y0 s.cfg y1 y2 y3 y4 y5 s.jnl s.prov y6) paramBlockWriteService (fun _ r s => paramBlockWrite_keeps P (fun s y0 y1 y2 y3 y4 y5 => hk s y0 y1 s.mbxs s.ops s.nextOp y2 s.bkp y3 y4 y5) r s) r s)

theorem execParamBlockRead_keeps {β : Type} (P : State → β) (hk : ∀ (s : State) x0 x1 x2 x3 x4 x5 x6, P { s with out := x0, mbxs := x1, ops := x2, nextOp := x3, evt := x4, bkp := x5, slate := x6 } = P s)
    (r : Req) (s : State) (s' : State) (e : execParamBlockRead r s = .next s') : P s' = P s :=
  (congrArg P (Host.Outcome.next.inj e)).symm.trans (serve_keeps P (fun s y0 y1 y2 y3 y4 y5 y6 => hk s y0 y1 y2 y3 y4 y5 y6) paramBlockReadService (fun _ r s => paramBlockRead_keeps P r s) r s)

theorem execCommitInstant_keeps {β : Type} (P : State → β) (hk : ∀ (s : State) x0 x1 x2 x3 x4 x5 x6 x7 x8 x9 x10 x11 x12 x13 x14 x15 x16 x17 x18 x19 x20 x21 x22 x23 x24 x25 x26 x27 x28, P { s with now := x0, mono := x1, freeCtr := x2, out := x3, cfg := x4, mbxs := x5, ops := x6, evt := x7, boot := x8, bkp := x9, rf := x10, lanes := x11, roles := x12, rot := x13, sectors := x14, duty := x15, plc := x16, plcMac := x17, eps := x18, mem := x19, jnv := x20, jnl := x21, prov := x22, roots := x23, camps := x24, slate := x25, life := x26, fw := x27, maint := x28 } = P s)
    (hwFault : Bool) (s : State) (s' : State) (e : execCommitInstant hwFault s = .next s') : P s' = P s :=
  (congrArg P (Host.Outcome.next.inj e)).symm.trans (commitInstant_keeps P (fun s y0 y1 y2 y3 y4 y5 y6 y7 y8 y9 y10 y11 y12 y13 y14 y15 y16 y17 y18 y19 y20 y21 y22 y23 y24 y25 y26 y27 y28 => hk s y0 y1 y2 y3 y4 y5 y6 y7 y8 y9 y10 y11 y12 y13 y14 y15 y16 y17 y18 y19 y20 y21 y22 y23 y24 y25 y26 y27 y28) hwFault s)

theorem execFlitTransfer_keeps {β : Type} (P : State → β) (hk : ∀ (s : State) x0, P { s with links := x0 } = P s)
    (d : Nat) (s : State) (s' : State) (e : execFlitTransfer d s = .next s') : P s' = P s :=
  (congrArg P (Host.Outcome.next.inj e)).symm.trans (flitTransfer_keeps P (fun s y0 => hk s y0) d s)

theorem execCreditReturn_keeps {β : Type} (P : State → β) (hk : ∀ (s : State) x0 x1 x2, P { s with out := x0, isl := x1, links := x2 } = P s)
    (d : Nat) (s : State) (s' : State) (e : execCreditReturn d s = .next s') : P s' = P s :=
  (congrArg P (Host.Outcome.next.inj e)).symm.trans (creditReturn_keeps P (fun s y0 y1 y2 => hk s y0 y1 y2) d s)

theorem execCreditAudit_keeps {β : Type} (P : State → β) (hk : ∀ (s : State) x0 x1 x2 x3 x4 x5 x6 x7 x8 x9 x10 x11 x12 x13 x14 x15 x16 x17 x18 x19 x20 x21 x22 x23 x24 x25 x26 x27 x28, P { s with now := x0, mono := x1, freeCtr := x2, out := x3, mbxs := x4, ops := x5, evt := x6, isl := x7, links := x8, auditAt := x9, boot := x10, bkp := x11, rf := x12, lanes := x13, laneCount := x14, roles := x15, rot := x16, plc := x17, plcMac := x18, eps := x19, mem := x20, jnv := x21, jnl := x22, prov := x23, roots := x24, camps := x25, slate := x26, life := x27, maint := x28 } = P s)
    (upsets : List AuditUpset) (s : State) (s' : State) (e : execCreditAudit upsets s = .next s') : P s' = P s :=
  (congrArg P (Host.Outcome.next.inj e)).symm.trans (creditAudit_keeps P (fun s y0 y1 y2 y3 y4 y5 y6 y7 y8 y9 y10 y11 y12 y13 y14 y15 y16 y17 y18 y19 y20 y21 y22 y23 y24 y25 y26 y27 y28 => hk s y0 y1 y2 y3 y4 y5 y6 y7 y8 y9 y10 y11 y12 y13 y14 y15 y16 y17 y18 y19 y20 y21 y22 y23 y24 y25 y26 y27 y28) upsets s)

theorem execFenceWaitExpiry_keeps {β : Type} (P : State → β) (hk : ∀ (s : State) x0 x1 x2 x3 x4 x5 x6 x7, P { s with now := x0, mono := x1, out := x2, evt := x3, isl := x4, links := x5, bkp := x6, slate := x7 } = P s)
    (d : Nat) (s : State) (s' : State) (e : execFenceWaitExpiry d s = .next s') : P s' = P s :=
  (congrArg P (Host.Outcome.next.inj e)).symm.trans (fenceWaitExpiry_keeps P (fun s y0 y1 y2 y3 y4 y5 y6 y7 => hk s y0 y1 y2 y3 y4 y5 y6 y7) d s)

theorem execMonitorSample_keeps {β : Type} (P : State → β) (hk : ∀ (s : State) x0 x1 x2 x3 x4 x5 x6 x7, P { s with out := x0, evt := x1, mon := x2, bkp := x3, jnl := x4, slate := x5, safe := x6, faultTimes := x7 } = P s)
    (outOfRange : BitVec 8) (s : State) (s' : State) (e : execMonitorSample outOfRange s = .next s') : P s' = P s :=
  (congrArg P (Host.Outcome.next.inj e)).symm.trans (monitorSample_keeps P (fun s y0 y1 y2 y3 y4 y5 y6 y7 => hk s y0 y1 y2 y3 y4 y5 y6 y7) outOfRange s)

theorem execC1Recovery_keeps {β : Type} (P : State → β) (hk : ∀ (s : State) x0 x1 x2 x3 x4, P { s with now := x0, mono := x1, out := x2, evt := x3, jnl := x4 } = P s)
    (s : State) (s' : State) (e : execC1Recovery s = .next s') : P s' = P s :=
  (congrArg P (Host.Outcome.next.inj e)).symm.trans (c1Recovery_keeps P (fun s y0 y1 y2 y3 y4 => hk s y0 y1 y2 y3 y4) s)

theorem execIqSlotReceive_keeps {β : Type} (P : State → β) (hk : ∀ (s : State) x0 x1 x2 x3 x4, P { s with freeCtr := x0, out := x1, evt := x2, rf := x3, lanes := x4 } = P s)
    (p : Nat) (slot : IqSlot) (s : State) (s' : State) (e : execIqSlotReceive p slot s = .next s') : P s' = P s :=
  (congrArg P (Host.Outcome.next.inj e)).symm.trans (iqSlot_keeps P (fun s y0 y1 y2 y3 y4 => hk s y0 y1 y2 y3 y4) p slot s)

theorem execRxclkStop_keeps {β : Type} (P : State → β) (hk : ∀ (s : State) x0 x1 x2 x3 x4, P { s with freeCtr := x0, out := x1, evt := x2, rf := x3, lanes := x4 } = P s)
    (p : Nat) (s : State) (s' : State) (e : execRxclkStop p s = .next s') : P s' = P s :=
  (congrArg P (Host.Outcome.next.inj e)).symm.trans (rxclkStop_keeps P (fun s y0 y1 y2 y3 y4 => hk s y0 y1 y2 y3 y4) p s)

theorem execOverloadWindow_keeps {β : Type} (P : State → β) (hk : ∀ (s : State) x0, P { s with rf := x0 } = P s)
    (p : Nat) (s : State) (s' : State) (e : execOverloadWindow p s = .next s') : P s' = P s :=
  (congrArg P (Host.Outcome.next.inj e)).symm.trans (overloadWindow_keeps P (fun s y0 => hk s y0) p s)

theorem execShrDetect_keeps {β : Type} (P : State → β) (hk : ∀ (s : State) x0, P { s with lanes := x0 } = P s)
    (lane : Nat) (power : Power) (shr : ShrIn) (s : State) (s' : State) (e : execShrDetect lane power shr s = .next s') : P s' = P s :=
  (congrArg P (Host.Outcome.next.inj e)).symm.trans (shrDetect_keeps P (fun s y0 => hk s y0) lane power shr s)

theorem execPhrDecode_keeps {β : Type} (P : State → β) (hk : ∀ (s : State) x0, P { s with lanes := x0 } = P s)
    (lane : Nat) (phr : BitVec 16) (s : State) (s' : State) (e : execPhrDecode lane phr s = .next s') : P s' = P s :=
  (congrArg P (Host.Outcome.next.inj e)).symm.trans (phrDecode_keeps P (fun s y0 => hk s y0) lane phr s)

theorem execPsduWordPush_keeps {β : Type} (P : State → β) (hk : ∀ (s : State) x0, P { s with lanes := x0 } = P s)
    (lane : Nat) (word : DWord) (s : State) (s' : State) (e : execPsduWordPush lane word s = .next s') : P s' = P s :=
  (congrArg P (Host.Outcome.next.inj e)).symm.trans (psduWord_keeps P (fun s y0 => hk s y0) lane word s)

theorem execLaneFrameEnd_keeps {β : Type} (P : State → β) (hk : ∀ (s : State) x0 x1 x2, P { s with now := x0, mono := x1, lanes := x2 } = P s)
    (lane : Nat) (fin : FrameEnd) (s : State) (s' : State) (e : execLaneFrameEnd lane fin s = .next s') : P s' = P s :=
  (congrArg P (Host.Outcome.next.inj e)).symm.trans (frameEnd_keeps P (fun s y0 y1 y2 => hk s y0 y1 y2) lane fin s)

theorem execOverflowTrailerPush_keeps {β : Type} (P : State → β) (hk : ∀ (s : State) x0, P { s with lanes := x0 } = P s)
    (lane : Nat) (fin : FrameEnd) (s : State) (s' : State) (e : execOverflowTrailerPush lane fin s = .next s') : P s' = P s :=
  (congrArg P (Host.Outcome.next.inj e)).symm.trans (overflowTrailer_keeps P (fun s y0 => hk s y0) lane fin s)

theorem execBlankingStart_keeps {β : Type} (P : State → β) (hk : ∀ (s : State) x0 x1 x2 x3 x4, P { s with now := x0, mono := x1, freeCtr := x2, rf := x3, lanes := x4 } = P s)
    (p t : Nat) (s : State) (s' : State) (e : execBlankingStart p t s = .next s') : P s' = P s :=
  (congrArg P (Host.Outcome.next.inj e)).symm.trans (blankingStart_keeps P (fun s y0 y1 y2 y3 y4 => hk s y0 y1 y2 y3 y4) p t s)

theorem execBlankingEnd_keeps {β : Type} (P : State → β) (hk : ∀ (s : State) x0 x1 x2 x3, P { s with now := x0, mono := x1, rf := x2, lanes := x3 } = P s)
    (p : Nat) (s : State) (s' : State) (e : execBlankingEnd p s = .next s') : P s' = P s :=
  (congrArg P (Host.Outcome.next.inj e)).symm.trans (blankingEnd_keeps P (fun s y0 y1 y2 y3 => hk s y0 y1 y2 y3) p s)

theorem execLaneAssign_keeps {β : Type} (P : State → β) (hk : ∀ (s : State) x0 x1 x2 x3 x4 x5 x6 x7 x8 x9 x10 x11, P { s with freeCtr := x0, out := x1, cfg := x2, mbxs := x3, ops := x4, nextOp := x5, evt := x6, bkp := x7, lanes := x8, roles := x9, rot := x10, slate := x11 } = P s)
    (r : Req) (s : State) (s' : State) (e : execLaneAssign r s = .next s') : P s' = P s :=
  (congrArg P (Host.Outcome.next.inj e)).symm.trans (serve_keeps P (fun s y0 y1 y2 y3 y4 y5 y6 => hk s s.freeCtr y0 s.cfg y1 y2 y3 y4 y5 s.lanes s.roles s.rot y6) laneAssignService (fun _ r s => laneAssign_keeps P (fun s y0 y1 y2 y3 y4 => hk s y0 s.out y1 s.mbxs s.ops s.nextOp s.evt s.bkp y2 y3 y4 s.slate) r s) r s)

theorem execLaneSwitch_keeps {β : Type} (P : State → β) (hk : ∀ (s : State) x0 x1 x2 x3 x4 x5 x6 x7 x8, P { s with out := x0, mbxs := x1, ops := x2, evt := x3, bkp := x4, lanes := x5, roles := x6, rot := x7, slate := x8 } = P s)
    (lane : Nat) (s : State) (s' : State) (e : execLaneSwitch lane s = .next s') : P s' = P s :=
  (congrArg P (Host.Outcome.next.inj e)).symm.trans (laneSwitch_keeps P (fun s y0 y1 y2 y3 y4 y5 y6 y7 y8 => hk s y0 y1 y2 y3 y4 y5 y6 y7 y8) lane s)

theorem execLaneTableGet_keeps {β : Type} (P : State → β) (hk : ∀ (s : State) x0 x1 x2 x3 x4 x5 x6, P { s with out := x0, mbxs := x1, ops := x2, nextOp := x3, evt := x4, bkp := x5, slate := x6 } = P s)
    (r : Req) (s : State) (s' : State) (e : execLaneTableGet r s = .next s') : P s' = P s :=
  (congrArg P (Host.Outcome.next.inj e)).symm.trans (serve_keeps P (fun s y0 y1 y2 y3 y4 y5 y6 => hk s y0 y1 y2 y3 y4 y5 y6) laneTableGetService (fun _ r s => laneTableGet_keeps P r s) r s)

theorem execLaneStatsGet_keeps {β : Type} (P : State → β) (hk : ∀ (s : State) x0 x1 x2 x3 x4 x5 x6 x7 x8, P { s with freeCtr := x0, out := x1, mbxs := x2, ops := x3, nextOp := x4, evt := x5, bkp := x6, lanes := x7, slate := x8 } = P s)
    (r : Req) (s : State) (s' : State) (e : execLaneStatsGet r s = .next s') : P s' = P s :=
  (congrArg P (Host.Outcome.next.inj e)).symm.trans (serve_keeps P (fun s y0 y1 y2 y3 y4 y5 y6 => hk s s.freeCtr y0 y1 y2 y3 y4 y5 s.lanes y6) laneStatsGetService (fun _ r s => laneStatsGet_keeps P (fun s y0 y1 => hk s y0 s.out s.mbxs s.ops s.nextOp s.evt s.bkp y1 s.slate) r s) r s)

theorem execLaneStatsClear_keeps {β : Type} (P : State → β) (hk : ∀ (s : State) x0 x1 x2 x3 x4 x5 x6 x7, P { s with out := x0, mbxs := x1, ops := x2, nextOp := x3, evt := x4, bkp := x5, lanes := x6, slate := x7 } = P s)
    (r : Req) (s : State) (s' : State) (e : execLaneStatsClear r s = .next s') : P s' = P s :=
  (congrArg P (Host.Outcome.next.inj e)).symm.trans (serve_keeps P (fun s y0 y1 y2 y3 y4 y5 y6 => hk s y0 y1 y2 y3 y4 y5 s.lanes y6) laneStatsClearService (fun _ r s => laneStatsClear_keeps P (fun s y0 => hk s s.out s.mbxs s.ops s.nextOp s.evt s.bkp y0 s.slate) r s) r s)

theorem execRfPortStatusGet_keeps {β : Type} (P : State → β) (hk : ∀ (s : State) x0 x1 x2 x3 x4 x5 x6, P { s with out := x0, mbxs := x1, ops := x2, nextOp := x3, evt := x4, bkp := x5, slate := x6 } = P s)
    (r : Req) (s : State) (s' : State) (e : execRfPortStatusGet r s = .next s') : P s' = P s :=
  (congrArg P (Host.Outcome.next.inj e)).symm.trans (serve_keeps P (fun s y0 y1 y2 y3 y4 y5 y6 => hk s y0 y1 y2 y3 y4 y5 y6) rfPortStatusGetService (fun _ _ _ => rfl) r s)

theorem execBandProfileSet_keeps {β : Type} (P : State → β) (hk : ∀ (s : State) x0 x1 x2 x3 x4 x5 x6 x7, P { s with out := x0, cfg := x1, mbxs := x2, ops := x3, nextOp := x4, evt := x5, bkp := x6, slate := x7 } = P s)
    (r : Req) (s : State) (s' : State) (e : execBandProfileSet r s = .next s') : P s' = P s :=
  (congrArg P (Host.Outcome.next.inj e)).symm.trans (serve_keeps P (fun s y0 y1 y2 y3 y4 y5 y6 => hk s y0 s.cfg y1 y2 y3 y4 y5 y6) bandProfileSetService (fun _ r s => bandProfileSet_keeps P (fun s y0 => hk s s.out y0 s.mbxs s.ops s.nextOp s.evt s.bkp s.slate) r s) r s)

theorem execBandProfileGet_keeps {β : Type} (P : State → β) (hk : ∀ (s : State) x0 x1 x2 x3 x4 x5 x6, P { s with out := x0, mbxs := x1, ops := x2, nextOp := x3, evt := x4, bkp := x5, slate := x6 } = P s)
    (r : Req) (s : State) (s' : State) (e : execBandProfileGet r s = .next s') : P s' = P s :=
  (congrArg P (Host.Outcome.next.inj e)).symm.trans (serve_keeps P (fun s y0 y1 y2 y3 y4 y5 y6 => hk s y0 y1 y2 y3 y4 y5 y6) bandProfileGetService (fun _ r s => bandProfileGet_keeps P r s) r s)

theorem execDutyStatusGet_keeps {β : Type} (P : State → β) (hk : ∀ (s : State) x0 x1 x2 x3 x4 x5 x6, P { s with out := x0, mbxs := x1, ops := x2, nextOp := x3, evt := x4, bkp := x5, slate := x6 } = P s)
    (r : Req) (s : State) (s' : State) (e : execDutyStatusGet r s = .next s') : P s' = P s :=
  (congrArg P (Host.Outcome.next.inj e)).symm.trans (serve_keeps P (fun s y0 y1 y2 y3 y4 y5 y6 => hk s y0 y1 y2 y3 y4 y5 y6) dutyStatusGetService (fun _ r s => dutyStatusGet_keeps P r s) r s)

theorem execSectorStatusGet_keeps {β : Type} (P : State → β) (hk : ∀ (s : State) x0 x1 x2 x3 x4 x5 x6, P { s with out := x0, mbxs := x1, ops := x2, nextOp := x3, evt := x4, bkp := x5, slate := x6 } = P s)
    (r : Req) (s : State) (s' : State) (e : execSectorStatusGet r s = .next s') : P s' = P s :=
  (congrArg P (Host.Outcome.next.inj e)).symm.trans (serve_keeps P (fun s y0 y1 y2 y3 y4 y5 y6 => hk s y0 y1 y2 y3 y4 y5 y6) sectorStatusGetService (fun _ r s => sectorStatusGet_keeps P r s) r s)

theorem execConnectOpen_keeps {β : Type} (P : State → β) (hk : ∀ (s : State) x0 x1 x2 x3 x4 x5 x6 x7 x8 x9, P { s with out := x0, mbxs := x1, ops := x2, nextOp := x3, evt := x4, bkp := x5, sectors := x6, eps := x7, mem := x8, slate := x9 } = P s)
    (r : Req) (s : State) (s' : State) (e : execConnectOpen r s = .next s') : P s' = P s :=
  (congrArg P (Host.Outcome.next.inj e)).symm.trans (serve_keeps P (fun s y0 y1 y2 y3 y4 y5 y6 => hk s y0 y1 y2 y3 y4 y5 s.sectors s.eps s.mem y6) connectOpenService (fun _ r s => connectOpen_keeps P (fun s y0 y1 y2 => hk s s.out s.mbxs s.ops s.nextOp s.evt s.bkp y0 y1 y2 s.slate) r s) r s)

theorem execConnectClose_keeps {β : Type} (P : State → β) (hk : ∀ (s : State) x0 x1 x2 x3 x4 x5 x6 x7 x8 x9, P { s with out := x0, mbxs := x1, ops := x2, nextOp := x3, evt := x4, bkp := x5, sectors := x6, eps := x7, mem := x8, slate := x9 } = P s)
    (r : Req) (s : State) (s' : State) (e : execConnectClose r s = .next s') : P s' = P s :=
  (congrArg P (Host.Outcome.next.inj e)).symm.trans (serve_keeps P (fun s y0 y1 y2 y3 y4 y5 y6 => hk s y0 y1 y2 y3 y4 y5 s.sectors s.eps s.mem y6) connectCloseService (fun _ r s => connectClose_keeps P (fun s y0 y1 y2 y3 y4 => hk s y0 s.mbxs s.ops s.nextOp y1 s.bkp y2 y3 y4 s.slate) r s) r s)

theorem execAirStateGet_keeps {β : Type} (P : State → β) (hk : ∀ (s : State) x0 x1 x2 x3 x4 x5 x6 x7, P { s with out := x0, mbxs := x1, ops := x2, nextOp := x3, evt := x4, bkp := x5, mem := x6, slate := x7 } = P s)
    (r : Req) (s : State) (s' : State) (e : execAirStateGet r s = .next s') : P s' = P s :=
  (congrArg P (Host.Outcome.next.inj e)).symm.trans (serve_keeps P (fun s y0 y1 y2 y3 y4 y5 y6 => hk s y0 y1 y2 y3 y4 y5 s.mem y6) airStateGetService (fun _ r s => airStateGet_keeps P (fun s y0 => hk s s.out s.mbxs s.ops s.nextOp s.evt s.bkp y0 s.slate) r s) r s)

theorem execBeaconDue_keeps {β : Type} (P : State → β) (hk : ∀ (s : State) x0 x1 x2 x3 x4 x5 x6, P { s with now := x0, mono := x1, out := x2, evt := x3, bkp := x4, sectors := x5, slate := x6 } = P s)
    (p b : Nat) (s : State) (s' : State) (e : execBeaconDue p b s = .next s') : P s' = P s :=
  (congrArg P (Host.Outcome.next.inj e)).symm.trans (beaconDue_keeps P (fun s y0 y1 y2 y3 y4 y5 y6 => hk s y0 y1 y2 y3 y4 y5 y6) p b s)

theorem execLbtListenEnd_keeps {β : Type} (P : State → β) (hk : ∀ (s : State) x0 x1 x2 x3 x4, P { s with freeCtr := x0, out := x1, evt := x2, sectors := x3, keys := x4 } = P s)
    (p : Nat) (power : Power) (s : State) (s' : State) (e : execLbtListenEnd p power s = .next s') : P s' = P s :=
  (congrArg P (Host.Outcome.next.inj e)).symm.trans (lbtListenEnd_keeps P (fun s y0 y1 y2 y3 y4 => hk s y0 y1 y2 y3 y4) p power s)

theorem execLbtBackoffEnd_keeps {β : Type} (P : State → β) (hk : ∀ (s : State) x0 x1 x2, P { s with now := x0, mono := x1, sectors := x2 } = P s)
    (p : Nat) (s : State) (s' : State) (e : execLbtBackoffEnd p s = .next s') : P s' = P s :=
  (congrArg P (Host.Outcome.next.inj e)).symm.trans (lbtBackoffEnd_keeps P (fun s y0 y1 y2 => hk s y0 y1 y2) p s)

theorem execBeaconTxStart_keeps {β : Type} (P : State → β) (hk : ∀ (s : State) x0 x1 x2 x3 x4 x5 x6 x7 x8 x9 x10 x11 x12 x13, P { s with now := x0, mono := x1, freeCtr := x2, out := x3, evt := x4, bkp := x5, rf := x6, lanes := x7, sectors := x8, duty := x9, slots := x10, keys := x11, slate := x12, life := x13 } = P s)
    (p t : Nat) (s : State) (s' : State) (e : execBeaconTxStart p t s = .next s') : P s' = P s :=
  (congrArg P (Host.Outcome.next.inj e)).symm.trans (beaconTx_keeps P (fun s y0 y1 y2 y3 y4 y5 y6 y7 y8 y9 y10 y11 y12 y13 => hk s y0 y1 y2 y3 y4 y5 y6 y7 y8 y9 y10 y11 y12 y13) p t s)

theorem execBeaconMiss_keeps {β : Type} (P : State → β) (hk : ∀ (s : State) x0 x1 x2 x3 x4 x5 x6, P { s with now := x0, mono := x1, out := x2, evt := x3, bkp := x4, sectors := x5, slate := x6 } = P s)
    (p : Nat) (s : State) (s' : State) (e : execBeaconMiss p s = .next s') : P s' = P s :=
  (congrArg P (Host.Outcome.next.inj e)).symm.trans (beaconMiss_keeps P (fun s y0 y1 y2 y3 y4 y5 y6 => hk s y0 y1 y2 y3 y4 y5 y6) p s)

theorem execFallbackRetry_keeps {β : Type} (P : State → β) (hk : ∀ (s : State) x0, P { s with sectors := x0 } = P s)
    (p : Nat) (s : State) (s' : State) (e : execFallbackRetry p s = .next s') : P s' = P s :=
  (congrArg P (Host.Outcome.next.inj e)).symm.trans (fallbackRetry_keeps P (fun s y0 => hk s y0) p s)

theorem execDeepBeaconTx_keeps {β : Type} (P : State → β) (hk : ∀ (s : State) x0 x1 x2 x3 x4 x5 x6 x7 x8 x9 x10 x11, P { s with freeCtr := x0, out := x1, evt := x2, bkp := x3, rf := x4, lanes := x5, sectors := x6, duty := x7, slots := x8, keys := x9, slate := x10, life := x11 } = P s)
    (p b : Nat) (s : State) (s' : State) (e : execDeepBeaconTx p b s = .next s') : P s' = P s :=
  (congrArg P (Host.Outcome.next.inj e)).symm.trans (deepBeaconTx_keeps P (fun s y0 y1 y2 y3 y4 y5 y6 y7 y8 y9 y10 y11 => hk s y0 y1 y2 y3 y4 y5 y6 y7 y8 y9 y10 y11) p b s)

theorem execLinkAckTx_keeps {β : Type} (P : State → β) (hk : ∀ (s : State) x0 x1 x2 x3 x4 x5 x6 x7 x8, P { s with now := x0, mono := x1, freeCtr := x2, out := x3, evt := x4, rf := x5, lanes := x6, sectors := x7, duty := x8 } = P s)
    (p lane : Nat) (s : State) (s' : State) (e : execLinkAckTx p lane s = .next s') : P s' = P s :=
  (congrArg P (Host.Outcome.next.inj e)).symm.trans (linkAckTx_keeps P (fun s y0 y1 y2 y3 y4 y5 y6 y7 y8 => hk s y0 y1 y2 y3 y4 y5 y6 y7 y8) p lane s)

theorem execDownlinkTx_keeps {β : Type} (P : State → β) (hk : ∀ (s : State) x0 x1 x2 x3 x4 x5 x6 x7 x8 x9 x10 x11 x12 x13 x14 x15 x16 x17 x18, P { s with now := x0, mono := x1, freeCtr := x2, out := x3, evt := x4, bkp := x5, rf := x6, lanes := x7, sectors := x8, duty := x9, eps := x10, mem := x11, camps := x12, slots := x13, keys := x14, slate := x15, life := x16, safe := x17, faultTimes := x18 } = P s)
    (p h t : Nat) (s : State) (s' : State) (e : execDownlinkTx p h t s = .next s') : P s' = P s :=
  (congrArg P (Host.Outcome.next.inj e)).symm.trans (downlinkTx_keeps P (fun s y0 y1 y2 y3 y4 y5 y6 y7 y8 y9 y10 y11 y12 y13 y14 y15 y16 y17 y18 => hk s y0 y1 y2 y3 y4 y5 y6 y7 y8 y9 y10 y11 y12 y13 y14 y15 y16 y17 y18) p h t s)

theorem execTransmissionEnd_keeps {β : Type} (P : State → β) (hk : ∀ (s : State) x0 x1 x2 x3 x4 x5, P { s with now := x0, mono := x1, rf := x2, sectors := x3, duty := x4, eps := x5 } = P s)
    (p t : Nat) (s : State) (s' : State) (e : execTransmissionEnd p t s = .next s') : P s' = P s :=
  (congrArg P (Host.Outcome.next.inj e)).symm.trans (txEnd_keeps P (fun s y0 y1 y2 y3 y4 y5 => hk s y0 y1 y2 y3 y4 y5) p t s)

theorem execChargeExpiry_keeps {β : Type} (P : State → β) (hk : ∀ (s : State) x0 x1 x2, P { s with now := x0, mono := x1, duty := x2 } = P s)
    (p sb : Nat) (s : State) (s' : State) (e : execChargeExpiry p sb s = .next s') : P s' = P s :=
  (congrArg P (Host.Outcome.next.inj e)).symm.trans (chargeExpiry_keeps P (fun s y0 y1 y2 => hk s y0 y1 y2) p sb s)

theorem execArrivalWindowClose_keeps {β : Type} (P : State → β) (hk : ∀ (s : State) x0 x1 x2 x3, P { s with now := x0, mono := x1, eps := x2, mem := x3 } = P s)
    (h : Nat) (s : State) (s' : State) (e : execArrivalWindowClose h s = .next s') : P s' = P s :=
  (congrArg P (Host.Outcome.next.inj e)).symm.trans (arrivalClose_keeps P (fun s y0 y1 y2 y3 => hk s y0 y1 y2 y3) h s)

theorem execSupervisionTimeout_keeps {β : Type} (P : State → β) (hk : ∀ (s : State) x0 x1 x2 x3 x4 x5, P { s with now := x0, mono := x1, out := x2, evt := x3, eps := x4, mem := x5 } = P s)
    (h : Nat) (s : State) (s' : State) (e : execSupervisionTimeout h s = .next s') : P s' = P s :=
  (congrArg P (Host.Outcome.next.inj e)).symm.trans (supervisionTimeout_keeps P (fun s y0 y1 y2 y3 y4 y5 => hk s y0 y1 y2 y3 y4 y5) h s)

theorem execConnectionEvent_keeps {β : Type} (P : State → β) (hk : ∀ (s : State) x0 x1 x2 x3 x4 x5 x6 x7 x8 x9 x10 x11 x12 x13 x14 x15 x16 x17 x18, P { s with now := x0, mono := x1, freeCtr := x2, out := x3, evt := x4, bkp := x5, rf := x6, lanes := x7, sectors := x8, duty := x9, eps := x10, mem := x11, camps := x12, slots := x13, keys := x14, slate := x15, life := x16, safe := x17, faultTimes := x18 } = P s)
    (h : Nat) (power : Power) (s : State) (s' : State) (e : execConnectionEvent h power s = .next s') : P s' = P s :=
  (congrArg P (Host.Outcome.next.inj e)).symm.trans (connectionEvent_keeps P (fun s y0 y1 y2 y3 y4 y5 y6 y7 y8 y9 y10 y11 y12 y13 y14 y15 y16 y17 y18 => hk s y0 y1 y2 y3 y4 y5 y6 y7 y8 y9 y10 y11 y12 y13 y14 y15 y16 y17 y18) h power s)

theorem execConnectReplyTimeout_keeps {β : Type} (P : State → β) (hk : ∀ (s : State) x0 x1 x2 x3 x4, P { s with now := x0, mono := x1, sectors := x2, eps := x3, mem := x4 } = P s)
    (h : Nat) (s : State) (s' : State) (e : execConnectReplyTimeout h s = .next s') : P s' = P s :=
  (congrArg P (Host.Outcome.next.inj e)).symm.trans (replyTimeout_keeps P (fun s y0 y1 y2 y3 y4 => hk s y0 y1 y2 y3 y4) h s)

theorem execOpenTimeout_keeps {β : Type} (P : State → β) (hk : ∀ (s : State) x0 x1 x2 x3 x4 x5 x6, P { s with now := x0, mono := x1, out := x2, evt := x3, sectors := x4, eps := x5, mem := x6 } = P s)
    (h : Nat) (s : State) (s' : State) (e : execOpenTimeout h s = .next s') : P s' = P s :=
  (congrArg P (Host.Outcome.next.inj e)).symm.trans (openTimeout_keeps P (fun s y0 y1 y2 y3 y4 y5 y6 => hk s y0 y1 y2 y3 y4 y5 y6) h s)

theorem execConnSupervisionExpiry_keeps {β : Type} (P : State → β) (hk : ∀ (s : State) x0 x1 x2 x3 x4 x5 x6, P { s with now := x0, mono := x1, out := x2, evt := x3, sectors := x4, eps := x5, mem := x6 } = P s)
    (h : Nat) (s : State) (s' : State) (e : execConnSupervisionExpiry h s = .next s') : P s' = P s :=
  (congrArg P (Host.Outcome.next.inj e)).symm.trans (connSupervision_keeps P (fun s y0 y1 y2 y3 y4 y5 y6 => hk s y0 y1 y2 y3 y4 y5 y6) h s)

theorem execLdFault_keeps {β : Type} (P : State → β) (hk : ∀ (s : State) x0 x1 x2 x3 x4 x5 x6 x7 x8 x9 x10 x11 x12 x13 x14 x15 x16 x17 x18, P { s with now := x0, mono := x1, freeCtr := x2, out := x3, mbxs := x4, ops := x5, evt := x6, bkp := x7, plc := x8, plcMac := x9, eps := x10, mem := x11, jnv := x12, jnl := x13, prov := x14, roots := x15, camps := x16, slate := x17, life := x18 } = P s)
    (q t : Nat) (s : State) (s' : State) (e : execLdFault q t s = .next s') : P s' = P s :=
  (congrArg P (Host.Outcome.next.inj e)).symm.trans (ldFault_keeps P (fun s y0 y1 y2 y3 y4 y5 y6 y7 y8 y9 y10 y11 y12 y13 y14 y15 y16 y17 y18 => hk s y0 y1 y2 y3 y4 y5 y6 y7 y8 y9 y10 y11 y12 y13 y14 y15 y16 y17 y18) q t s)

theorem execLdFaultRetry_keeps {β : Type} (P : State → β) (hk : ∀ (s : State) x0 x1 x2 x3 x4 x5 x6 x7 x8 x9 x10 x11 x12 x13 x14, P { s with now := x0, mono := x1, out := x2, evt := x3, bkp := x4, plc := x5, plcMac := x6, eps := x7, mem := x8, slots := x9, keys := x10, slate := x11, life := x12, safe := x13, faultTimes := x14 } = P s)
    (q : Nat) (s : State) (s' : State) (e : execLdFaultRetry q s = .next s') : P s' = P s :=
  (congrArg P (Host.Outcome.next.inj e)).symm.trans (ldFaultRetry_keeps P (fun s y0 y1 y2 y3 y4 y5 y6 y7 y8 y9 y10 y11 y12 y13 y14 => hk s y0 y1 y2 y3 y4 y5 y6 y7 y8 y9 y10 y11 y12 y13 y14) q s)

theorem execTransactionStart_keeps {β : Type} (P : State → β) (hk : ∀ (s : State) x0 x1 x2 x3 x4 x5 x6 x7 x8 x9 x10 x11 x12 x13 x14 x15, P { s with now := x0, mono := x1, out := x2, evt := x3, bkp := x4, plc := x5, plcMac := x6, eps := x7, mem := x8, camps := x9, slots := x10, keys := x11, slate := x12, life := x13, safe := x14, faultTimes := x15 } = P s)
    (group t : Nat) (s : State) (s' : State) (e : execTransactionStart group t s = .next s') : P s' = P s :=
  (congrArg P (Host.Outcome.next.inj e)).symm.trans (transactionStart_keeps P (fun s y0 y1 y2 y3 y4 y5 y6 y7 y8 y9 y10 y11 y12 y13 y14 y15 => hk s y0 y1 y2 y3 y4 y5 y6 y7 y8 y9 y10 y11 y12 y13 y14 y15) group t s)

theorem execPlcHeaderDecode_keeps {β : Type} (P : State → β) (hk : ∀ (s : State) x0 x1 x2, P { s with now := x0, mono := x1, plc := x2 } = P s)
    (q : Nat) (hdr : PlcHdrIn) (s : State) (s' : State) (e : execPlcHeaderDecode q hdr s = .next s') : P s' = P s :=
  (congrArg P (Host.Outcome.next.inj e)).symm.trans (plcHeader_keeps P (fun s y0 y1 y2 => hk s y0 y1 y2) q hdr s)

theorem execPlcSymbolReceive_keeps {β : Type} (P : State → β) (hk : ∀ (s : State) x0, P { s with plc := x0 } = P s)
    (q : Nat) (sym : PlcSymIn) (s : State) (s' : State) (e : execPlcSymbolReceive q sym s = .next s') : P s' = P s :=
  (congrArg P (Host.Outcome.next.inj e)).symm.trans (plcSymbol_keeps P (fun s y0 => hk s y0) q sym s)

theorem execPlcFrameEnd_keeps {β : Type} (P : State → β) (hk : ∀ (s : State) x0 x1 x2 x3 x4 x5 x6 x7 x8 x9 x10 x11 x12 x13 x14 x15 x16 x17 x18, P { s with now := x0, mono := x1, freeCtr := x2, out := x3, mbxs := x4, ops := x5, evt := x6, bkp := x7, plc := x8, plcMac := x9, eps := x10, mem := x11, jnv := x12, jnl := x13, prov := x14, roots := x15, camps := x16, slate := x17, life := x18 } = P s)
    (q : Nat) (fin : PlcEnd) (s : State) (s' : State) (e : execPlcFrameEnd q fin s = .next s') : P s' = P s :=
  (congrArg P (Host.Outcome.next.inj e)).symm.trans (plcFrameEnd_keeps P (fun s y0 y1 y2 y3 y4 y5 y6 y7 y8 y9 y10 y11 y12 y13 y14 y15 y16 y17 y18 => hk s y0 y1 y2 y3 y4 y5 y6 y7 y8 y9 y10 y11 y12 y13 y14 y15 y16 y17 y18) q fin s)

theorem execPlcOverflowTrailer_keeps {β : Type} (P : State → β) (hk : ∀ (s : State) x0 x1, P { s with freeCtr := x0, plc := x1 } = P s)
    (q : Nat) (fin : PlcEnd) (s : State) (s' : State) (e : execPlcOverflowTrailer q fin s = .next s') : P s' = P s :=
  (congrArg P (Host.Outcome.next.inj e)).symm.trans (plcOverflow_keeps P (fun s y0 y1 => hk s y0 y1) q fin s)

theorem execPollDeadline_keeps {β : Type} (P : State → β) (hk : ∀ (s : State) x0 x1 x2 x3 x4 x5 x6 x7 x8 x9 x10 x11 x12 x13 x14 x15 x16 x17 x18, P { s with now := x0, mono := x1, freeCtr := x2, out := x3, mbxs := x4, ops := x5, evt := x6, bkp := x7, plc := x8, plcMac := x9, eps := x10, mem := x11, jnv := x12, jnl := x13, prov := x14, roots := x15, camps := x16, slate := x17, life := x18 } = P s)
    (group : Nat) (s : State) (s' : State) (e : execPollDeadline group s = .next s') : P s' = P s :=
  (congrArg P (Host.Outcome.next.inj e)).symm.trans (pollDeadline_keeps P (fun s y0 y1 y2 y3 y4 y5 y6 y7 y8 y9 y10 y11 y12 y13 y14 y15 y16 y17 y18 => hk s y0 y1 y2 y3 y4 y5 y6 y7 y8 y9 y10 y11 y12 y13 y14 y15 y16 y17 y18) group s)

theorem execRetryGapExpiry_keeps {β : Type} (P : State → β) (hk : ∀ (s : State) x0 x1 x2 x3 x4 x5 x6 x7 x8 x9 x10 x11 x12 x13 x14, P { s with now := x0, mono := x1, out := x2, evt := x3, bkp := x4, plc := x5, plcMac := x6, eps := x7, mem := x8, slots := x9, keys := x10, slate := x11, life := x12, safe := x13, faultTimes := x14 } = P s)
    (group : Nat) (s : State) (s' : State) (e : execRetryGapExpiry group s = .next s') : P s' = P s :=
  (congrArg P (Host.Outcome.next.inj e)).symm.trans (retryGap_keeps P (fun s y0 y1 y2 y3 y4 y5 y6 y7 y8 y9 y10 y11 y12 y13 y14 => hk s y0 y1 y2 y3 y4 y5 y6 y7 y8 y9 y10 y11 y12 y13 y14) group s)

theorem execReadDue_keeps {β : Type} (P : State → β) (hk : ∀ (s : State) x0 x1 x2 x3, P { s with now := x0, mono := x1, plc := x2, plcMac := x3 } = P s)
    (h : Nat) (s : State) (s' : State) (e : execReadDue h s = .next s') : P s' = P s :=
  (congrArg P (Host.Outcome.next.inj e)).symm.trans (readDue_keeps P (fun s y0 y1 y2 y3 => hk s y0 y1 y2 y3) h s)

theorem execCustodyMaxExpiry_keeps {β : Type} (P : State → β) (hk : ∀ (s : State) x0 x1 x2, P { s with now := x0, mono := x1, plcMac := x2 } = P s)
    (h : Nat) (s : State) (s' : State) (e : execCustodyMaxExpiry h s = .next s') : P s' = P s :=
  (congrArg P (Host.Outcome.next.inj e)).symm.trans (custodyMax_keeps P (fun s y0 y1 y2 => hk s y0 y1 y2) h s)

theorem execNbrDue_keeps {β : Type} (P : State → β) (hk : ∀ (s : State) x0 x1 x2 x3 x4, P { s with now := x0, mono := x1, plcMac := x2, eps := x3, mem := x4 } = P s)
    (s : State) (s' : State) (e : execNbrDue s = .next s') : P s' = P s :=
  (congrArg P (Host.Outcome.next.inj e)).symm.trans (nbrDue_keeps P (fun s y0 y1 y2 y3 y4 => hk s y0 y1 y2 y3 y4) s)

theorem execUnreachRetry_keeps {β : Type} (P : State → β) (hk : ∀ (s : State) x0 x1 x2, P { s with now := x0, mono := x1, plcMac := x2 } = P s)
    (h : Nat) (s : State) (s' : State) (e : execUnreachRetry h s = .next s') : P s' = P s :=
  (congrArg P (Host.Outcome.next.inj e)).symm.trans (unreachRetry_keeps P (fun s y0 y1 y2 => hk s y0 y1 y2) h s)

theorem execRouteRecalc_keeps {β : Type} (P : State → β) (hk : ∀ (s : State) x0 x1 x2 x3 x4 x5 x6, P { s with now := x0, mono := x1, out := x2, evt := x3, plcMac := x4, eps := x5, mem := x6 } = P s)
    (s : State) (s' : State) (e : execRouteRecalc s = .next s') : P s' = P s :=
  (congrArg P (Host.Outcome.next.inj e)).symm.trans (routeRecalc_keeps P (fun s y0 y1 y2 y3 y4 y5 y6 => hk s y0 y1 y2 y3 y4 y5 y6) s)

theorem execLinkAgeExpiry_keeps {β : Type} (P : State → β) (hk : ∀ (s : State) x0 x1 x2, P { s with now := x0, mono := x1, plcMac := x2 } = P s)
    (i : Nat) (s : State) (s' : State) (e : execLinkAgeExpiry i s = .next s') : P s' = P s :=
  (congrArg P (Host.Outcome.next.inj e)).symm.trans (linkAge_keeps P (fun s y0 y1 y2 => hk s y0 y1 y2) i s)

theorem execQueuePush_keeps {β : Type} (P : State → β) (hk : ∀ (s : State) x0 x1, P { s with lanes := x0, plc := x1 } = P s)
    (q : Nat) (word : DWord) (last : Bool) (code : BitVec 16) (s : State) (s' : State) (e : execQueuePush q word last code s = .next s') : P s' = P s :=
  (congrArg P (Host.Outcome.next.inj e)).symm.trans (queuePush_keeps P (fun s y0 y1 => hk s y0 y1) q word last code s)

theorem execQueueDoom_keeps {β : Type} (P : State → β) (hk : ∀ (s : State) x0 x1, P { s with lanes := x0, plc := x1 } = P s)
    (q : Nat) (s : State) (s' : State) (e : execQueueDoom q s = .next s') : P s' = P s :=
  (congrArg P (Host.Outcome.next.inj e)).symm.trans (queueDoom_keeps P (fun s y0 y1 => hk s y0 y1) q s)

theorem execQueueRead_keeps {β : Type} (P : State → β) (hk : ∀ (s : State) x0 x1, P { s with lanes := x0, plc := x1 } = P s)
    (q : Nat) (s : State) (s' : State) (e : execQueueRead q s = .next s') : P s' = P s :=
  (congrArg P (Host.Outcome.next.inj e)).symm.trans (queueRead_keeps P (fun s y0 y1 => hk s y0 y1) q s)

theorem execDropRest_keeps {β : Type} (P : State → β) (hk : ∀ (s : State) x0 x1, P { s with lanes := x0, plc := x1 } = P s)
    (q : Nat) (s : State) (s' : State) (e : execDropRest q s = .next s') : P s' = P s :=
  (congrArg P (Host.Outcome.next.inj e)).symm.trans (dropRest_keeps P (fun s y0 y1 => hk s y0 y1) q s)

theorem execNoticePop_keeps {β : Type} (P : State → β) (hk : ∀ (s : State) x0 x1, P { s with lanes := x0, plc := x1 } = P s)
    (q : Nat) (s : State) (s' : State) (e : execNoticePop q s = .next s') : P s' = P s :=
  (congrArg P (Host.Outcome.next.inj e)).symm.trans (noticePop_keeps P (fun s y0 y1 => hk s y0 y1) q s)

theorem execPlcCalibrationDone_keeps {β : Type} (P : State → β) (hk : ∀ (s : State) x0 x1 x2 x3 x4 x5 x6 x7 x8, P { s with now := x0, mono := x1, out := x2, mbxs := x3, ops := x4, evt := x5, bkp := x6, plc := x7, slate := x8 } = P s)
    (q : Nat) (m : CalIn) (s : State) (s' : State) (e : execPlcCalibrationDone q m s = .next s') : P s' = P s :=
  (congrArg P (Host.Outcome.next.inj e)).symm.trans (calDone_keeps P (fun s y0 y1 y2 y3 y4 y5 y6 y7 y8 => hk s y0 y1 y2 y3 y4 y5 y6 y7 y8) q m s)

theorem execPlcPortStatusGet_keeps {β : Type} (P : State → β) (hk : ∀ (s : State) x0 x1 x2 x3 x4 x5 x6, P { s with out := x0, mbxs := x1, ops := x2, nextOp := x3, evt := x4, bkp := x5, slate := x6 } = P s)
    (r : Req) (s : State) (s' : State) (e : execPlcPortStatusGet r s = .next s') : P s' = P s :=
  (congrArg P (Host.Outcome.next.inj e)).symm.trans (serve_keeps P (fun s y0 y1 y2 y3 y4 y5 y6 => hk s y0 y1 y2 y3 y4 y5 y6) plcPortStatusGetService (fun _ _ _ => rfl) r s)

theorem execPlcCalGet_keeps {β : Type} (P : State → β) (hk : ∀ (s : State) x0 x1 x2 x3 x4 x5 x6, P { s with out := x0, mbxs := x1, ops := x2, nextOp := x3, evt := x4, bkp := x5, slate := x6 } = P s)
    (r : Req) (s : State) (s' : State) (e : execPlcCalGet r s = .next s') : P s' = P s :=
  (congrArg P (Host.Outcome.next.inj e)).symm.trans (serve_keeps P (fun s y0 y1 y2 y3 y4 y5 y6 => hk s y0 y1 y2 y3 y4 y5 y6) plcCalGetService (fun _ r s => plcCalGet_keeps P r s) r s)

theorem execPlcRecalibrate_keeps {β : Type} (P : State → β) (hk : ∀ (s : State) x0 x1 x2 x3 x4 x5 x6 x7, P { s with out := x0, mbxs := x1, ops := x2, nextOp := x3, evt := x4, bkp := x5, plc := x6, slate := x7 } = P s)
    (r : Req) (s : State) (s' : State) (e : execPlcRecalibrate r s = .next s') : P s' = P s :=
  (congrArg P (Host.Outcome.next.inj e)).symm.trans (serve_keeps P (fun s y0 y1 y2 y3 y4 y5 y6 => hk s y0 y1 y2 y3 y4 y5 s.plc y6) plcRecalibrateService (fun _ r s => plcRecalibrate_keeps P (fun s y0 y1 y2 => hk s y0 s.mbxs s.ops s.nextOp y1 s.bkp y2 s.slate) r s) r s)

theorem execPlcLinkGet_keeps {β : Type} (P : State → β) (hk : ∀ (s : State) x0 x1 x2 x3 x4 x5 x6, P { s with out := x0, mbxs := x1, ops := x2, nextOp := x3, evt := x4, bkp := x5, slate := x6 } = P s)
    (r : Req) (s : State) (s' : State) (e : execPlcLinkGet r s = .next s') : P s' = P s :=
  (congrArg P (Host.Outcome.next.inj e)).symm.trans (serve_keeps P (fun s y0 y1 y2 y3 y4 y5 y6 => hk s y0 y1 y2 y3 y4 y5 y6) plcLinkGetService (fun _ r s => plcLinkGet_keeps P r s) r s)

theorem execPlcRouteGet_keeps {β : Type} (P : State → β) (hk : ∀ (s : State) x0 x1 x2 x3 x4 x5 x6, P { s with out := x0, mbxs := x1, ops := x2, nextOp := x3, evt := x4, bkp := x5, slate := x6 } = P s)
    (r : Req) (s : State) (s' : State) (e : execPlcRouteGet r s = .next s') : P s' = P s :=
  (congrArg P (Host.Outcome.next.inj e)).symm.trans (serve_keeps P (fun s y0 y1 y2 y3 y4 y5 y6 => hk s y0 y1 y2 y3 y4 y5 y6) plcRouteGetService (fun _ r s => plcRouteGet_keeps P r s) r s)

theorem execPlcRouteProposalsGet_keeps {β : Type} (P : State → β) (hk : ∀ (s : State) x0 x1 x2 x3 x4 x5 x6, P { s with out := x0, mbxs := x1, ops := x2, nextOp := x3, evt := x4, bkp := x5, slate := x6 } = P s)
    (r : Req) (s : State) (s' : State) (e : execPlcRouteProposalsGet r s = .next s') : P s' = P s :=
  (congrArg P (Host.Outcome.next.inj e)).symm.trans (serve_keeps P (fun s y0 y1 y2 y3 y4 y5 y6 => hk s y0 y1 y2 y3 y4 y5 y6) plcRouteProposalsGetService (fun _ r s => plcProposalsGet_keeps P r s) r s)

theorem execPlcRouteSet_keeps {β : Type} (P : State → β) (hk : ∀ (s : State) x0 x1 x2 x3 x4 x5 x6 x7 x8 x9, P { s with out := x0, mbxs := x1, ops := x2, nextOp := x3, evt := x4, bkp := x5, plcMac := x6, eps := x7, mem := x8, slate := x9 } = P s)
    (r : Req) (s : State) (s' : State) (e : execPlcRouteSet r s = .next s') : P s' = P s :=
  (congrArg P (Host.Outcome.next.inj e)).symm.trans (serve_keeps P (fun s y0 y1 y2 y3 y4 y5 y6 => hk s y0 y1 y2 y3 y4 y5 s.plcMac s.eps s.mem y6) plcRouteSetService (fun _ r s => plcRouteSet_keeps P (fun s y0 y1 y2 => hk s s.out s.mbxs s.ops s.nextOp s.evt s.bkp y0 y1 y2 s.slate) r s) r s)

theorem execPlcRouteUnpin_keeps {β : Type} (P : State → β) (hk : ∀ (s : State) x0 x1 x2 x3 x4 x5 x6 x7 x8, P { s with out := x0, mbxs := x1, ops := x2, nextOp := x3, evt := x4, bkp := x5, eps := x6, mem := x7, slate := x8 } = P s)
    (r : Req) (s : State) (s' : State) (e : execPlcRouteUnpin r s = .next s') : P s' = P s :=
  (congrArg P (Host.Outcome.next.inj e)).symm.trans (serve_keeps P (fun s y0 y1 y2 y3 y4 y5 y6 => hk s y0 y1 y2 y3 y4 y5 s.eps s.mem y6) plcRouteUnpinService (fun _ r s => plcRouteUnpin_keeps P (fun s y0 y1 => hk s s.out s.mbxs s.ops s.nextOp s.evt s.bkp y0 y1 s.slate) r s) r s)

theorem execPlcPollNow_keeps {β : Type} (P : State → β) (hk : ∀ (s : State) x0 x1 x2 x3 x4 x5 x6 x7, P { s with out := x0, mbxs := x1, ops := x2, nextOp := x3, evt := x4, bkp := x5, plcMac := x6, slate := x7 } = P s)
    (r : Req) (s : State) (s' : State) (e : execPlcPollNow r s = .next s') : P s' = P s :=
  (congrArg P (Host.Outcome.next.inj e)).symm.trans (serve_keeps P (fun s y0 y1 y2 y3 y4 y5 y6 => hk s y0 y1 y2 y3 y4 y5 s.plcMac y6) plcPollNowService (plcPollNow_keeps P (fun s y0 => hk s s.out s.mbxs s.ops s.nextOp s.evt s.bkp y0 s.slate)) r s)

theorem execDirectoryAirPacket_keeps {β : Type} (P : State → β) (hk : ∀ (s : State) x0 x1 x2 x3 x4 x5 x6 x7 x8 x9 x10 x11 x12, P { s with now := x0, mono := x1, out := x2, evt := x3, bkp := x4, lanes := x5, sectors := x6, duty := x7, dir := x8, eps := x9, mem := x10, ledger := x11, slate := x12 } = P s)
    (lane : Nat) (s : State) (s' : State) (e : execDirectoryAirPacket lane s = .next s') : P s' = P s :=
  (congrArg P (Host.Outcome.next.inj e)).symm.trans (directoryAir_keeps P (fun s y0 y1 y2 y3 y4 y5 y6 y7 y8 y9 y10 y11 y12 => hk s y0 y1 y2 y3 y4 y5 y6 y7 y8 y9 y10 y11 y12) lane s)

theorem execDirectoryPlcPacket_keeps {β : Type} (P : State → β) (hk : ∀ (s : State) x0 x1 x2 x3 x4 x5 x6 x7 x8 x9 x10 x11 x12 x13 x14 x15 x16 x17 x18, P { s with freeCtr := x0, out := x1, mbxs := x2, ops := x3, evt := x4, bkp := x5, plc := x6, plcMac := x7, dir := x8, eps := x9, mem := x10, jnv := x11, jnl := x12, prov := x13, roots := x14, ledger := x15, camps := x16, slate := x17, life := x18 } = P s)
    (q : Nat) (s : State) (s' : State) (e : execDirectoryPlcPacket q s = .next s') : P s' = P s :=
  (congrArg P (Host.Outcome.next.inj e)).symm.trans (directoryPlc_keeps P (fun s y0 y1 y2 y3 y4 y5 y6 y7 y8 y9 y10 y11 y12 y13 y14 y15 y16 y17 y18 => hk s y0 y1 y2 y3 y4 y5 y6 y7 y8 y9 y10 y11 y12 y13 y14 y15 y16 y17 y18) q s)

theorem execSerialRelease_keeps {β : Type} (P : State → β) (hk : ∀ (s : State) x0 x1 x2 x3 x4 x5 x6 x7 x8 x9 x10 x11 x12 x13 x14 x15 x16 x17 x18 x19 x20 x21, P { s with freeCtr := x0, out := x1, mbxs := x2, ops := x3, evt := x4, bkp := x5, sectors := x6, plc := x7, plcMac := x8, dir := x9, eps := x10, mem := x11, jnv := x12, jnl := x13, prov := x14, roots := x15, ledger := x16, camps := x17, slots := x18, keys := x19, slate := x20, life := x21 } = P s)
    (frame : Nat) (s : State) (s' : State) (e : execSerialRelease frame s = .next s') : P s' = P s :=
  (congrArg P (Host.Outcome.next.inj e)).symm.trans (serialRelease_keeps P (fun s y0 y1 y2 y3 y4 y5 y6 y7 y8 y9 y10 y11 y12 y13 y14 y15 y16 y17 y18 y19 y20 y21 => hk s y0 y1 y2 y3 y4 y5 y6 y7 y8 y9 y10 y11 y12 y13 y14 y15 y16 y17 y18 y19 y20 y21) frame s)

theorem execFetchBufferFree_keeps {β : Type} (P : State → β) (hk : ∀ (s : State) x0 x1 x2, P { s with dir := x0, eps := x1, mem := x2 } = P s)
    (s : State) (s' : State) (e : execFetchBufferFree s = .next s') : P s' = P s :=
  (congrArg P (Host.Outcome.next.inj e)).symm.trans (fetchBufferFree_keeps P (fun s y0 y1 y2 => hk s y0 y1 y2) s)

theorem execContextFetchComplete_keeps {β : Type} (P : State → β) (hk : ∀ (s : State) x0 x1 x2 x3 x4 x5 x6 x7 x8 x9 x10 x11 x12 x13 x14 x15 x16 x17, P { s with out := x0, mbxs := x1, ops := x2, evt := x3, bkp := x4, plcMac := x5, dir := x6, eps := x7, mem := x8, jnv := x9, jnl := x10, prov := x11, roots := x12, ledger := x13, camps := x14, slate := x15, life := x16, maint := x17 } = P s)
    (h : Nat) (ue : FetchIn) (s : State) (s' : State) (e : execContextFetchComplete h ue s = .next s') : P s' = P s :=
  (congrArg P (Host.Outcome.next.inj e)).symm.trans (fetchComplete_keeps P (fun s y0 y1 y2 y3 y4 y5 y6 y7 y8 y9 y10 y11 y12 y13 y14 y15 y16 y17 => hk s y0 y1 y2 y3 y4 y5 y6 y7 y8 y9 y10 y11 y12 y13 y14 y15 y16 y17) h ue s)

theorem execWritebackDone_keeps {β : Type} (P : State → β) (hk : ∀ (s : State) x0, P { s with mem := x0 } = P s)
    (h : Nat) (s : State) (s' : State) (e : execWritebackDone h s = .next s') : P s' = P s :=
  (congrArg P (Host.Outcome.next.inj e)).symm.trans (writebackDone_keeps P (fun s y0 => hk s y0) h s)

theorem execEnrol_keeps {β : Type} (P : State → β) (hk : ∀ (s : State) x0 x1 x2 x3 x4 x5 x6 x7 x8 x9 x10 x11 x12 x13 x14 x15 x16 x17, P { s with out := x0, mbxs := x1, ops := x2, nextOp := x3, evt := x4, bkp := x5, dir := x6, eps := x7, mem := x8, jnv := x9, jnl := x10, prov := x11, roots := x12, ledger := x13, bal := x14, slate := x15, life := x16, maint := x17 } = P s)
    (r : Req) (s : State) (s' : State) (e : execEnrol r s = .next s') : P s' = P s :=
  (congrArg P (Host.Outcome.next.inj e)).symm.trans (serve_keeps P (fun s y0 y1 y2 y3 y4 y5 y6 => hk s y0 y1 y2 y3 y4 y5 s.dir s.eps s.mem s.jnv s.jnl s.prov s.roots s.ledger s.bal y6 s.life s.maint) enrolService (fun _ r s => enrol_keeps P (fun s y0 y1 y2 y3 y4 y5 y6 y7 y8 y9 y10 y11 y12 y13 y14 => hk s y0 s.mbxs s.ops s.nextOp y1 y2 y3 y4 y5 y6 y7 y8 y9 y10 y11 y12 y13 y14) r s) r s)

theorem execWithdraw_keeps {β : Type} (P : State → β) (hk : ∀ (s : State) x0 x1 x2 x3 x4 x5 x6 x7 x8 x9 x10 x11 x12 x13 x14 x15 x16 x17, P { s with out := x0, mbxs := x1, ops := x2, nextOp := x3, evt := x4, bkp := x5, sectors := x6, plcMac := x7, dir := x8, eps := x9, mem := x10, jnv := x11, jnl := x12, prov := x13, roots := x14, ledger := x15, slate := x16, life := x17 } = P s)
    (r : Req) (s : State) (s' : State) (e : execWithdraw r s = .next s') : P s' = P s :=
  (congrArg P (Host.Outcome.next.inj e)).symm.trans (serve_keeps P (fun s y0 y1 y2 y3 y4 y5 y6 => hk s y0 y1 y2 y3 y4 y5 s.sectors s.plcMac s.dir s.eps s.mem s.jnv s.jnl s.prov s.roots s.ledger y6 s.life) withdrawService (fun _ r s => withdraw_keeps P (fun s y0 y1 y2 y3 y4 y5 y6 y7 y8 y9 y10 y11 y12 y13 y14 y15 y16 => hk s y0 y1 y2 s.nextOp y3 y4 y5 y6 y7 y8 y9 y10 y11 y12 y13 y14 y15 y16) r s) r s)

theorem execRetirementComplete_keeps {β : Type} (P : State → β) (hk : ∀ (s : State) x0 x1 x2 x3 x4 x5 x6 x7 x8 x9 x10 x11 x12 x13 x14 x15 x16 x17, P { s with out := x0, mbxs := x1, ops := x2, evt := x3, bkp := x4, sectors := x5, plcMac := x6, dir := x7, eps := x8, mem := x9, jnv := x10, jnl := x11, prov := x12, roots := x13, ledger := x14, camps := x15, slate := x16, life := x17 } = P s)
    (h : Nat) (s : State) (s' : State) (e : execRetirementComplete h s = .next s') : P s' = P s :=
  (congrArg P (Host.Outcome.next.inj e)).symm.trans (retirementComplete_keeps P (fun s y0 y1 y2 y3 y4 y5 y6 y7 y8 y9 y10 y11 y12 y13 y14 y15 y16 y17 => hk s y0 y1 y2 y3 y4 y5 y6 y7 y8 y9 y10 y11 y12 y13 y14 y15 y16 y17) h s)

theorem execRetireHoldExpiry_keeps {β : Type} (P : State → β) (hk : ∀ (s : State) x0 x1 x2 x3 x4 x5 x6 x7 x8 x9 x10 x11 x12 x13 x14 x15 x16 x17 x18 x19, P { s with now := x0, mono := x1, out := x2, mbxs := x3, ops := x4, evt := x5, bkp := x6, sectors := x7, plcMac := x8, dir := x9, eps := x10, mem := x11, jnv := x12, jnl := x13, prov := x14, roots := x15, ledger := x16, camps := x17, slate := x18, life := x19 } = P s)
    (h : Nat) (s : State) (s' : State) (e : execRetireHoldExpiry h s = .next s') : P s' = P s :=
  (congrArg P (Host.Outcome.next.inj e)).symm.trans (retireHold_keeps P (fun s y0 y1 y2 y3 y4 y5 y6 y7 y8 y9 y10 y11 y12 y13 y14 y15 y16 y17 y18 y19 => hk s y0 y1 y2 y3 y4 y5 y6 y7 y8 y9 y10 y11 y12 y13 y14 y15 y16 y17 y18 y19) h s)

theorem execAdmitStateSet_keeps {β : Type} (P : State → β) (hk : ∀ (s : State) x0 x1 x2 x3 x4 x5 x6 x7 x8 x9, P { s with out := x0, mbxs := x1, ops := x2, nextOp := x3, evt := x4, bkp := x5, dir := x6, eps := x7, mem := x8, slate := x9 } = P s)
    (r : Req) (s : State) (s' : State) (e : execAdmitStateSet r s = .next s') : P s' = P s :=
  (congrArg P (Host.Outcome.next.inj e)).symm.trans (serve_keeps P (fun s y0 y1 y2 y3 y4 y5 y6 => hk s y0 y1 y2 y3 y4 y5 s.dir s.eps s.mem y6) admitStateSetService (fun _ r s => admitStateSet_keeps P (fun s y0 y1 y2 => hk s s.out s.mbxs s.ops s.nextOp s.evt s.bkp y0 y1 y2 s.slate) r s) r s)

theorem execEndpointUpdate_keeps {β : Type} (P : State → β) (hk : ∀ (s : State) x0 x1 x2 x3 x4 x5 x6 x7 x8 x9, P { s with out := x0, mbxs := x1, ops := x2, nextOp := x3, evt := x4, bkp := x5, eps := x6, mem := x7, ledger := x8, slate := x9 } = P s)
    (r : Req) (s : State) (s' : State) (e : execEndpointUpdate r s = .next s') : P s' = P s :=
  (congrArg P (Host.Outcome.next.inj e)).symm.trans (serve_keeps P (fun s y0 y1 y2 y3 y4 y5 y6 => hk s y0 y1 y2 y3 y4 y5 s.eps s.mem s.ledger y6) endpointUpdateService (fun _ r s => endpointUpdate_keeps P (fun s y0 y1 y2 => hk s s.out s.mbxs s.ops s.nextOp s.evt s.bkp y0 y1 y2 s.slate) r s) r s)

theorem execEndpointGet_keeps {β : Type} (P : State → β) (hk : ∀ (s : State) x0 x1 x2 x3 x4 x5 x6 x7, P { s with out := x0, mbxs := x1, ops := x2, nextOp := x3, evt := x4, bkp := x5, mem := x6, slate := x7 } = P s)
    (r : Req) (s : State) (s' : State) (e : execEndpointGet r s = .next s') : P s' = P s :=
  (congrArg P (Host.Outcome.next.inj e)).symm.trans (serve_keeps P (fun s y0 y1 y2 y3 y4 y5 y6 => hk s y0 y1 y2 y3 y4 y5 s.mem y6) endpointGetService (fun _ r s => endpointGet_keeps P (fun s y0 => hk s s.out s.mbxs s.ops s.nextOp s.evt s.bkp y0 s.slate) r s) r s)

theorem execAddrLookup_keeps {β : Type} (P : State → β) (hk : ∀ (s : State) x0 x1 x2 x3 x4 x5 x6 x7, P { s with out := x0, mbxs := x1, ops := x2, nextOp := x3, evt := x4, bkp := x5, dir := x6, slate := x7 } = P s)
    (r : Req) (s : State) (s' : State) (e : execAddrLookup r s = .next s') : P s' = P s :=
  (congrArg P (Host.Outcome.next.inj e)).symm.trans (serve_keeps P (fun s y0 y1 y2 y3 y4 y5 y6 => hk s y0 y1 y2 y3 y4 y5 s.dir y6) addrLookupService (fun _ r s => addrLookup_keeps P (fun s y0 => hk s s.out s.mbxs s.ops s.nextOp s.evt s.bkp y0 s.slate) r s) r s)

theorem execTallyGet_keeps {β : Type} (P : State → β) (hk : ∀ (s : State) x0 x1 x2 x3 x4 x5 x6 x7, P { s with out := x0, mbxs := x1, ops := x2, nextOp := x3, evt := x4, bkp := x5, mem := x6, slate := x7 } = P s)
    (r : Req) (s : State) (s' : State) (e : execTallyGet r s = .next s') : P s' = P s :=
  (congrArg P (Host.Outcome.next.inj e)).symm.trans (serve_keeps P (fun s y0 y1 y2 y3 y4 y5 y6 => hk s y0 y1 y2 y3 y4 y5 s.mem y6) tallyGetService (fun _ r s => tallyGetOp_keeps P (fun s y0 => hk s s.out s.mbxs s.ops s.nextOp s.evt s.bkp y0 s.slate) r s) r s)

theorem execTallyClear_keeps {β : Type} (P : State → β) (hk : ∀ (s : State) x0 x1 x2 x3 x4 x5 x6 x7 x8 x9, P { s with out := x0, mbxs := x1, ops := x2, nextOp := x3, evt := x4, bkp := x5, eps := x6, mem := x7, ledger := x8, slate := x9 } = P s)
    (r : Req) (s : State) (s' : State) (e : execTallyClear r s = .next s') : P s' = P s :=
  (congrArg P (Host.Outcome.next.inj e)).symm.trans (serve_keeps P (fun s y0 y1 y2 y3 y4 y5 y6 => hk s y0 y1 y2 y3 y4 y5 s.eps s.mem s.ledger y6) tallyClearService (fun _ r s => tallyClear_keeps P (fun s y0 y1 y2 y3 y4 y5 y6 => hk s y0 s.mbxs s.ops s.nextOp y1 y2 y3 y4 y5 y6) r s) r s)

theorem execDirStatusGet_keeps {β : Type} (P : State → β) (hk : ∀ (s : State) x0 x1 x2 x3 x4 x5 x6, P { s with out := x0, mbxs := x1, ops := x2, nextOp := x3, evt := x4, bkp := x5, slate := x6 } = P s)
    (r : Req) (s : State) (s' : State) (e : execDirStatusGet r s = .next s') : P s' = P s :=
  (congrArg P (Host.Outcome.next.inj e)).symm.trans (serve_keeps P (fun s y0 y1 y2 y3 y4 y5 y6 => hk s y0 y1 y2 y3 y4 y5 y6) dirStatusGetService (fun _ _ _ => rfl) r s)

theorem execDirRehash_keeps {β : Type} (P : State → β) (hk : ∀ (s : State) x0 x1 x2 x3 x4 x5 x6 x7 x8, P { s with out := x0, mbxs := x1, ops := x2, nextOp := x3, evt := x4, bkp := x5, dir := x6, slate := x7, maint := x8 } = P s)
    (r : Req) (s : State) (s' : State) (e : execDirRehash r s = .next s') : P s' = P s :=
  (congrArg P (Host.Outcome.next.inj e)).symm.trans (serve_keeps P (fun s y0 y1 y2 y3 y4 y5 y6 => hk s y0 y1 y2 y3 y4 y5 s.dir y6 s.maint) dirRehashService (fun _ _ s => dirRehash_keeps P (fun s y0 y1 => hk s s.out s.mbxs s.ops s.nextOp s.evt s.bkp y0 s.slate y1) s) r s)

theorem execRehashEnd_keeps {β : Type} (P : State → β) (hk : ∀ (s : State) x0 x1 x2 x3 x4 x5 x6 x7, P { s with out := x0, mbxs := x1, ops := x2, evt := x3, bkp := x4, dir := x5, slate := x6, maint := x7 } = P s)
    (s : State) (s' : State) (e : execRehashEnd s = .next s') : P s' = P s :=
  (congrArg P (Host.Outcome.next.inj e)).symm.trans (rehashEnd_keeps P (fun s y0 y1 y2 y3 y4 y5 y6 y7 => hk s y0 y1 y2 y3 y4 y5 y6 y7) s)

theorem execUnknownGet_keeps {β : Type} (P : State → β) (hk : ∀ (s : State) x0 x1 x2 x3 x4 x5 x6, P { s with out := x0, mbxs := x1, ops := x2, nextOp := x3, evt := x4, bkp := x5, slate := x6 } = P s)
    (r : Req) (s : State) (s' : State) (e : execUnknownGet r s = .next s') : P s' = P s :=
  (congrArg P (Host.Outcome.next.inj e)).symm.trans (serve_keeps P (fun s y0 y1 y2 y3 y4 y5 y6 => hk s y0 y1 y2 y3 y4 y5 y6) unknownGetService (fun _ r s => unknownGet_keeps P r s) r s)

theorem execUnknownClear_keeps {β : Type} (P : State → β) (hk : ∀ (s : State) x0 x1 x2 x3 x4 x5 x6 x7, P { s with out := x0, mbxs := x1, ops := x2, nextOp := x3, evt := x4, bkp := x5, dir := x6, slate := x7 } = P s)
    (r : Req) (s : State) (s' : State) (e : execUnknownClear r s = .next s') : P s' = P s :=
  (congrArg P (Host.Outcome.next.inj e)).symm.trans (serve_keeps P (fun s y0 y1 y2 y3 y4 y5 y6 => hk s y0 y1 y2 y3 y4 y5 s.dir y6) unknownClearService (fun _ _ s => hk s s.out s.mbxs s.ops s.nextOp s.evt s.bkp _ s.slate) r s)

theorem execPatrolScrub_keeps {β : Type} (P : State → β) (hk : ∀ (s : State) x0 x1 x2 x3 x4 x5 x6 x7 x8 x9 x10 x11 x12 x13 x14 x15 x16 x17 x18 x19 x20 x21 x22 x23 x24, P { s with now := x0, mono := x1, freeCtr := x2, out := x3, mbxs := x4, ops := x5, evt := x6, bkp := x7, sectors := x8, plcMac := x9, dir := x10, eps := x11, mem := x12, chans := x13, jnv := x14, jnl := x15, prov := x16, roots := x17, ledger := x18, bal := x19, camps := x20, keys := x21, slate := x22, life := x23, maint := x24 } = P s)
    (res : ScrubIn) (s : State) (s' : State) (e : execPatrolScrub res s = .next s') : P s' = P s :=
  (congrArg P (Host.Outcome.next.inj e)).symm.trans (patrolScrub_keeps P (fun s y0 y1 y2 y3 y4 y5 y6 y7 y8 y9 y10 y11 y12 y13 y14 y15 y16 y17 y18 y19 y20 y21 y22 y23 y24 => hk s y0 y1 y2 y3 y4 y5 y6 y7 y8 y9 y10 y11 y12 y13 y14 y15 y16 y17 y18 y19 y20 y21 y22 y23 y24) res s)

theorem execSoftRepair_keeps {β : Type} (P : State → β) (hk : ∀ (s : State) x0 x1 x2 x3 x4, P { s with out := x0, evt := x1, mem := x2, life := x3, maint := x4 } = P s)
    (ok : Bool) (s : State) (s' : State) (e : execSoftRepair ok s = .next s') : P s' = P s :=
  (congrArg P (Host.Outcome.next.inj e)).symm.trans (softRepair_keeps P (fun s y0 y1 y2 y3 y4 => hk s y0 y1 y2 y3 y4) ok s)

theorem execXlateSet_keeps {β : Type} (P : State → β) (hk : ∀ (s : State) x0 x1 x2 x3 x4 x5 x6 x7, P { s with out := x0, mbxs := x1, ops := x2, nextOp := x3, evt := x4, bkp := x5, xlate := x6, slate := x7 } = P s)
    (r : Req) (s : State) (s' : State) (e : execXlateSet r s = .next s') : P s' = P s :=
  (congrArg P (Host.Outcome.next.inj e)).symm.trans (serve_keeps P (fun s y0 y1 y2 y3 y4 y5 y6 => hk s y0 y1 y2 y3 y4 y5 s.xlate y6) xlateSetService (fun _ r s => xlateSet_keeps P (fun s y0 => hk s s.out s.mbxs s.ops s.nextOp s.evt s.bkp y0 s.slate) r s) r s)

theorem execXlateGet_keeps {β : Type} (P : State → β) (hk : ∀ (s : State) x0 x1 x2 x3 x4 x5 x6, P { s with out := x0, mbxs := x1, ops := x2, nextOp := x3, evt := x4, bkp := x5, slate := x6 } = P s)
    (r : Req) (s : State) (s' : State) (e : execXlateGet r s = .next s') : P s' = P s :=
  (congrArg P (Host.Outcome.next.inj e)).symm.trans (serve_keeps P (fun s y0 y1 y2 y3 y4 y5 y6 => hk s y0 y1 y2 y3 y4 y5 y6) xlateGetService (fun _ r s => xlateGet_keeps P r s) r s)

theorem execDmaChanSet_keeps {β : Type} (P : State → β) (hk : ∀ (s : State) x0 x1 x2 x3 x4 x5 x6 x7, P { s with out := x0, mbxs := x1, ops := x2, nextOp := x3, evt := x4, bkp := x5, chans := x6, slate := x7 } = P s)
    (r : Req) (s : State) (s' : State) (e : execDmaChanSet r s = .next s') : P s' = P s :=
  (congrArg P (Host.Outcome.next.inj e)).symm.trans (serve_keeps P (fun s y0 y1 y2 y3 y4 y5 y6 => hk s y0 y1 y2 y3 y4 y5 s.chans y6) dmaChanSetService (fun _ r s => dmaChanSet_keeps P (fun s y0 y1 => hk s y0 s.mbxs s.ops s.nextOp s.evt s.bkp y1 s.slate) r s) r s)

theorem execDmaChanStatusGet_keeps {β : Type} (P : State → β) (hk : ∀ (s : State) x0 x1 x2 x3 x4 x5 x6, P { s with out := x0, mbxs := x1, ops := x2, nextOp := x3, evt := x4, bkp := x5, slate := x6 } = P s)
    (r : Req) (s : State) (s' : State) (e : execDmaChanStatusGet r s = .next s') : P s' = P s :=
  (congrArg P (Host.Outcome.next.inj e)).symm.trans (serve_keeps P (fun s y0 y1 y2 y3 y4 y5 y6 => hk s y0 y1 y2 y3 y4 y5 y6) dmaChanStatusGetService (fun _ r s => dmaChanStatus_keeps P r s) r s)

theorem execDmaChanRestart_keeps {β : Type} (P : State → β) (hk : ∀ (s : State) x0 x1 x2 x3 x4 x5 x6 x7 x8, P { s with out := x0, mbxs := x1, ops := x2, nextOp := x3, evt := x4, bkp := x5, chans := x6, prov := x7, slate := x8 } = P s)
    (r : Req) (s : State) (s' : State) (e : execDmaChanRestart r s = .next s') : P s' = P s :=
  (congrArg P (Host.Outcome.next.inj e)).symm.trans (serve_keeps P (fun s y0 y1 y2 y3 y4 y5 y6 => hk s y0 y1 y2 y3 y4 y5 s.chans s.prov y6) dmaChanRestartService (fun _ r s => dmaChanRestart_keeps P (fun s y0 y1 => hk s s.out s.mbxs s.ops s.nextOp s.evt s.bkp y0 y1 s.slate) r s) r s)

theorem execMemStatusGet_keeps {β : Type} (P : State → β) (hk : ∀ (s : State) x0 x1 x2 x3 x4 x5 x6, P { s with out := x0, mbxs := x1, ops := x2, nextOp := x3, evt := x4, bkp := x5, slate := x6 } = P s)
    (r : Req) (s : State) (s' : State) (e : execMemStatusGet r s = .next s') : P s' = P s :=
  (congrArg P (Host.Outcome.next.inj e)).symm.trans (serve_keeps P (fun s y0 y1 y2 y3 y4 y5 y6 => hk s y0 y1 y2 y3 y4 y5 y6) memStatusGetService (fun _ _ _ => rfl) r s)

theorem execDmaPiWrite_keeps {β : Type} (P : State → β) (hk : ∀ (s : State) x0, P { s with chans := x0 } = P s)
    (c : Nat) (v : Word) (s : State) (s' : State) (e : execDmaPiWrite c v s = .next s') : P s' = P s :=
  (congrArg P (Host.Outcome.next.inj e)).symm.trans (dmaPi_keeps P (fun s y0 => hk s y0) c v s)

theorem execDmaDescriptorEnd_keeps {β : Type} (P : State → β) (hk : ∀ (s : State) x0 x1 x2 x3 x4 x5 x6 x7 x8 x9 x10, P { s with out := x0, mbxs := x1, ops := x2, evt := x3, bkp := x4, mem := x5, chans := x6, prov := x7, ledger := x8, bal := x9, slate := x10 } = P s)
    (c : Nat) (desc : DescIn) (s : State) (s' : State) (e : execDmaDescriptorEnd c desc s = .next s') : P s' = P s :=
  (congrArg P (Host.Outcome.next.inj e)).symm.trans (descriptorEnd_keeps P (fun s y0 y1 y2 y3 y4 y5 y6 y7 y8 y9 y10 => hk s y0 y1 y2 y3 y4 y5 y6 y7 y8 y9 y10) c desc s)

theorem execDmaBusError_keeps {β : Type} (P : State → β) (hk : ∀ (s : State) x0 x1 x2 x3 x4, P { s with out := x0, evt := x1, bkp := x2, chans := x3, slate := x4 } = P s)
    (c done : Nat) (s : State) (s' : State) (e : execDmaBusError c done s = .next s') : P s' = P s :=
  (congrArg P (Host.Outcome.next.inj e)).symm.trans (dmaBusError_keeps P (fun s y0 y1 y2 y3 y4 => hk s y0 y1 y2 y3 y4) c done s)

theorem execJournalGroupCommit_keeps {β : Type} (P : State → β) (hk : ∀ (s : State) x0 x1 x2 x3 x4 x5 x6 x7 x8 x9 x10 x11 x12 x13 x14 x15 x16 x17 x18 x19, P { s with out := x0, mbxs := x1, ops := x2, evt := x3, bkp := x4, sectors := x5, plcMac := x6, dir := x7, eps := x8, mem := x9, jnv := x10, jnl := x11, prov := x12, roots := x13, ledger := x14, bal := x15, camps := x16, confUnmatched := x17, slate := x18, life := x19 } = P s)
    (frame : Nat) (bad : List Nat) (s : State) (s' : State) (e : execJournalGroupCommit frame bad s = .next s') : P s' = P s :=
  (congrArg P (Host.Outcome.next.inj e)).symm.trans (journalGroup_keeps P (fun s y0 y1 y2 y3 y4 y5 y6 y7 y8 y9 y10 y11 y12 y13 y14 y15 y16 y17 y18 y19 => hk s y0 y1 y2 y3 y4 y5 y6 y7 y8 y9 y10 y11 y12 y13 y14 y15 y16 y17 y18 y19) frame bad s)

theorem execJnlFullWaitExpiry_keeps {β : Type} (P : State → β) (hk : ∀ (s : State) x0 x1 x2 x3 x4 x5 x6 x7 x8 x9 x10 x11 x12 x13 x14 x15 x16 x17, P { s with now := x0, mono := x1, out := x2, mbxs := x3, ops := x4, evt := x5, bkp := x6, dir := x7, eps := x8, mem := x9, jnv := x10, jnl := x11, prov := x12, roots := x13, ledger := x14, camps := x15, slate := x16, life := x17 } = P s)
    (frame : Nat) (s : State) (s' : State) (e : execJnlFullWaitExpiry frame s = .next s') : P s' = P s :=
  (congrArg P (Host.Outcome.next.inj e)).symm.trans (jnlWaitExpiry_keeps P (fun s y0 y1 y2 y3 y4 y5 y6 y7 y8 y9 y10 y11 y12 y13 y14 y15 y16 y17 => hk s y0 y1 y2 y3 y4 y5 y6 y7 y8 y9 y10 y11 y12 y13 y14 y15 y16 y17) frame s)

theorem execBundleTimeout_keeps {β : Type} (P : State → β) (hk : ∀ (s : State) x0 x1 x2, P { s with now := x0, mono := x1, prov := x2 } = P s)
    (overflow : Bool) (s : State) (s' : State) (e : execBundleTimeout overflow s = .next s') : P s' = P s :=
  (congrArg P (Host.Outcome.next.inj e)).symm.trans (bundleTimeout_keeps P (fun s y0 y1 y2 => hk s y0 y1 y2) overflow s)

theorem execBundleSigned_keeps {β : Type} (P : State → β) (hk : ∀ (s : State) x0 x1 x2 x3 x4 x5 x6 x7 x8 x9 x10 x11 x12 x13 x14, P { s with now := x0, mono := x1, freeCtr := x2, out := x3, evt := x4, bkp := x5, jnv := x6, jnl := x7, prov := x8, roots := x9, ledger := x10, slots := x11, keys := x12, slate := x13, life := x14 } = P s)
    (s : State) (s' : State) (e : execBundleSigned s = .next s') : P s' = P s :=
  (congrArg P (Host.Outcome.next.inj e)).symm.trans (bundleSigned_keeps P (fun s y0 y1 y2 y3 y4 y5 y6 y7 y8 y9 y10 y11 y12 y13 y14 => hk s y0 y1 y2 y3 y4 y5 y6 y7 y8 y9 y10 y11 y12 y13 y14) s)

theorem execProfileSet_keeps {β : Type} (P : State → β) (hk : ∀ (s : State) x0 x1 x2 x3 x4 x5 x6 x7 x8, P { s with out := x0, mbxs := x1, ops := x2, nextOp := x3, evt := x4, bkp := x5, dir := x6, prov := x7, slate := x8 } = P s)
    (r : Req) (s : State) (s' : State) (e : execProfileSet r s = .next s') : P s' = P s :=
  (congrArg P (Host.Outcome.next.inj e)).symm.trans (serve_keeps P (fun s y0 y1 y2 y3 y4 y5 y6 => hk s y0 y1 y2 y3 y4 y5 s.dir s.prov y6) profileSetService (fun _ r s => profileSet_keeps P (fun s y0 y1 => hk s s.out s.mbxs s.ops s.nextOp s.evt s.bkp y0 y1 s.slate) r s) r s)

theorem execProfileGet_keeps {β : Type} (P : State → β) (hk : ∀ (s : State) x0 x1 x2 x3 x4 x5 x6, P { s with out := x0, mbxs := x1, ops := x2, nextOp := x3, evt := x4, bkp := x5, slate := x6 } = P s)
    (r : Req) (s : State) (s' : State) (e : execProfileGet r s = .next s') : P s' = P s :=
  (congrArg P (Host.Outcome.next.inj e)).symm.trans (serve_keeps P (fun s y0 y1 y2 y3 y4 y5 y6 => hk s y0 y1 y2 y3 y4 y5 y6) profileGetService (fun _ r s => profileGet_keeps P r s) r s)

theorem execProvListAdd_keeps {β : Type} (P : State → β) (hk : ∀ (s : State) x0 x1 x2 x3 x4 x5 x6 x7, P { s with out := x0, mbxs := x1, ops := x2, nextOp := x3, evt := x4, bkp := x5, prov := x6, slate := x7 } = P s)
    (r : Req) (s : State) (s' : State) (e : execProvListAdd r s = .next s') : P s' = P s :=
  (congrArg P (Host.Outcome.next.inj e)).symm.trans (serve_keeps P (fun s y0 y1 y2 y3 y4 y5 y6 => hk s y0 y1 y2 y3 y4 y5 s.prov y6) provListAddService (fun _ r s => provListAdd_keeps P (fun s y0 => hk s s.out s.mbxs s.ops s.nextOp s.evt s.bkp y0 s.slate) r s) r s)

theorem execProvListClear_keeps {β : Type} (P : State → β) (hk : ∀ (s : State) x0 x1 x2 x3 x4 x5 x6 x7, P { s with out := x0, mbxs := x1, ops := x2, nextOp := x3, evt := x4, bkp := x5, prov := x6, slate := x7 } = P s)
    (r : Req) (s : State) (s' : State) (e : execProvListClear r s = .next s') : P s' = P s :=
  (congrArg P (Host.Outcome.next.inj e)).symm.trans (serve_keeps P (fun s y0 y1 y2 y3 y4 y5 y6 => hk s y0 y1 y2 y3 y4 y5 s.prov y6) provListClearService (fun _ _ s => hk s s.out s.mbxs s.ops s.nextOp s.evt s.bkp _ s.slate) r s)

theorem execExportStart_keeps {β : Type} (P : State → β) (hk : ∀ (s : State) x0 x1 x2 x3 x4 x5 x6 x7 x8, P { s with out := x0, mbxs := x1, ops := x2, nextOp := x3, evt := x4, bkp := x5, chans := x6, prov := x7, slate := x8 } = P s)
    (r : Req) (s : State) (s' : State) (e : execExportStart r s = .next s') : P s' = P s :=
  (congrArg P (Host.Outcome.next.inj e)).symm.trans (serve_keeps P (fun s y0 y1 y2 y3 y4 y5 y6 => hk s y0 y1 y2 y3 y4 y5 s.chans s.prov y6) exportStartService (fun _ r s => exportStart_keeps P (fun s y0 y1 => hk s s.out s.mbxs s.ops s.nextOp s.evt s.bkp y0 y1 s.slate) r s) r s)

theorem execExportStop_keeps {β : Type} (P : State → β) (hk : ∀ (s : State) x0 x1 x2 x3 x4 x5 x6 x7 x8, P { s with out := x0, mbxs := x1, ops := x2, nextOp := x3, evt := x4, bkp := x5, chans := x6, prov := x7, slate := x8 } = P s)
    (r : Req) (s : State) (s' : State) (e : execExportStop r s = .next s') : P s' = P s :=
  (congrArg P (Host.Outcome.next.inj e)).symm.trans (serve_keeps P (fun s y0 y1 y2 y3 y4 y5 y6 => hk s y0 y1 y2 y3 y4 y5 s.chans s.prov y6) exportStopService (exportStop_keeps P (fun s y0 y1 => hk s s.out s.mbxs s.ops s.nextOp s.evt s.bkp y0 y1 s.slate)) r s)

theorem execExportConfirm_keeps {β : Type} (P : State → β) (hk : ∀ (s : State) x0 x1 x2 x3 x4 x5 x6 x7 x8 x9 x10 x11 x12, P { s with out := x0, mbxs := x1, ops := x2, nextOp := x3, evt := x4, bkp := x5, chans := x6, jnv := x7, jnl := x8, prov := x9, roots := x10, ledger := x11, slate := x12 } = P s)
    (r : Req) (s : State) (s' : State) (e : execExportConfirm r s = .next s') : P s' = P s :=
  (congrArg P (Host.Outcome.next.inj e)).symm.trans (serve_keeps P (fun s y0 y1 y2 y3 y4 y5 y6 => hk s y0 y1 y2 y3 y4 y5 s.chans s.jnv s.jnl s.prov s.roots s.ledger y6) exportConfirmService (fun _ r s => exportConfirm_keeps P (fun s y0 y1 y2 y3 y4 y5 y6 y7 y8 y9 y10 y11 => hk s y0 y1 y2 s.nextOp y3 y4 y5 y6 y7 y8 y9 y10 y11) r s) r s)

theorem execExportFlush_keeps {β : Type} (P : State → β) (hk : ∀ (s : State) x0 x1 x2 x3 x4 x5 x6 x7, P { s with out := x0, mbxs := x1, ops := x2, nextOp := x3, evt := x4, bkp := x5, prov := x6, slate := x7 } = P s)
    (r : Req) (s : State) (s' : State) (e : execExportFlush r s = .next s') : P s' = P s :=
  (congrArg P (Host.Outcome.next.inj e)).symm.trans (serve_keeps P (fun s y0 y1 y2 y3 y4 y5 y6 => hk s y0 y1 y2 y3 y4 y5 s.prov y6) exportFlushService (fun _ _ s => (closeOpenOvf_keeps P (fun s y0 => hk s s.out s.mbxs s.ops s.nextOp s.evt s.bkp y0 s.slate) (closeOpen s)).trans (closeOpen_keeps P (fun s y0 => hk s s.out s.mbxs s.ops s.nextOp s.evt s.bkp y0 s.slate) s)) r s)

theorem execPipeStatusGet_keeps {β : Type} (P : State → β) (hk : ∀ (s : State) x0 x1 x2 x3 x4 x5 x6, P { s with out := x0, mbxs := x1, ops := x2, nextOp := x3, evt := x4, bkp := x5, slate := x6 } = P s)
    (r : Req) (s : State) (s' : State) (e : execPipeStatusGet r s = .next s') : P s' = P s :=
  (congrArg P (Host.Outcome.next.inj e)).symm.trans (serve_keeps P (fun s y0 y1 y2 y3 y4 y5 y6 => hk s y0 y1 y2 y3 y4 y5 y6) pipeStatusGetService (fun _ _ _ => rfl) r s)

theorem execExportRewind_keeps {β : Type} (P : State → β) (hk : ∀ (s : State) x0 x1 x2 x3 x4 x5 x6 x7 x8, P { s with out := x0, mbxs := x1, ops := x2, nextOp := x3, evt := x4, bkp := x5, chans := x6, prov := x7, slate := x8 } = P s)
    (r : Req) (s : State) (s' : State) (e : execExportRewind r s = .next s') : P s' = P s :=
  (congrArg P (Host.Outcome.next.inj e)).symm.trans (serve_keeps P (fun s y0 y1 y2 y3 y4 y5 y6 => hk s y0 y1 y2 y3 y4 y5 s.chans s.prov y6) exportRewindService (fun _ r s => exportRewind_keeps P (fun s y0 y1 => hk s s.out s.mbxs s.ops s.nextOp s.evt s.bkp y0 y1 s.slate) r s) r s)

theorem execCalTransition_keeps {β : Type} (P : State → β) (hk : ∀ (s : State) x0 x1 x2 x3 x4 x5 x6 x7 x8 x9, P { s with now := x0, mono := x1, out := x2, evt := x3, jnv := x4, jnl := x5, prov := x6, roots := x7, ledger := x8, life := x9 } = P s)
    (index t : Nat) (s : State) (s' : State) (e : execCalTransition index t s = .next s') : P s' = P s :=
  (congrArg P (Host.Outcome.next.inj e)).symm.trans (calTransition_keeps P (fun s y0 y1 y2 y3 y4 y5 y6 y7 y8 y9 => hk s y0 y1 y2 y3 y4 y5 y6 y7 y8 y9) index t s)

theorem execLedgerSweep_keeps {β : Type} (P : State → β) (hk : ∀ (s : State) x0 x1 x2 x3 x4 x5, P { s with now := x0, mono := x1, eps := x2, mem := x3, prov := x4, ledger := x5 } = P s)
    (index count : Nat) (s : State) (s' : State) (e : execLedgerSweep index count s = .next s') : P s' = P s :=
  (congrArg P (Host.Outcome.next.inj e)).symm.trans (ledgerSweep_keeps P (fun s y0 y1 y2 y3 y4 y5 => hk s y0 y1 y2 y3 y4 y5) index count s)

theorem execStmtBundleTimeout_keeps {β : Type} (P : State → β) (hk : ∀ (s : State) x0 x1 x2 x3, P { s with now := x0, mono := x1, prov := x2, ledger := x3 } = P s)
    (s : State) (s' : State) (e : execStmtBundleTimeout s = .next s') : P s' = P s :=
  (congrArg P (Host.Outcome.next.inj e)).symm.trans (stmtTimeout_keeps P (fun s y0 y1 y2 y3 => hk s y0 y1 y2 y3) s)

theorem execLedgerSeal_keeps {β : Type} (P : State → β) (hk : ∀ (s : State) x0 x1 x2 x3 x4 x5 x6 x7, P { s with now := x0, mono := x1, eps := x2, mem := x3, jnv := x4, prov := x5, roots := x6, ledger := x7 } = P s)
    (s : State) (s' : State) (e : execLedgerSeal s = .next s') : P s' = P s :=
  (congrArg P (Host.Outcome.next.inj e)).symm.trans (ledgerSeal_keeps P (fun s y0 y1 y2 y3 y4 y5 y6 y7 => hk s y0 y1 y2 y3 y4 y5 y6 y7) s)

theorem execDurabilityExpiry_keeps {β : Type} (P : State → β) (hk : ∀ (s : State) x0 x1 x2 x3 x4 x5 x6, P { s with now := x0, mono := x1, out := x2, evt := x3, bkp := x4, ledger := x5, slate := x6 } = P s)
    (page : Nat) (s : State) (s' : State) (e : execDurabilityExpiry page s = .next s') : P s' = P s :=
  (congrArg P (Host.Outcome.next.inj e)).symm.trans (durabilityExpiry_keeps P (fun s y0 y1 y2 y3 y4 y5 y6 => hk s y0 y1 y2 y3 y4 y5 y6) page s)

theorem execRestorePageReceive_keeps {β : Type} (P : State → β) (hk : ∀ (s : State) x0 x1 x2 x3 x4 x5 x6 x7 x8 x9 x10 x11 x12 x13 x14 x15, P { s with out := x0, evt := x1, boot := x2, bkp := x3, dir := x4, eps := x5, mem := x6, chans := x7, jnv := x8, jnl := x9, prov := x10, roots := x11, ledger := x12, bal := x13, slate := x14, life := x15 } = P s)
    (bytes : List Byte) (s : State) (s' : State) (e : execRestorePageReceive bytes s = .next s') : P s' = P s :=
  (congrArg P (Host.Outcome.next.inj e)).symm.trans (restoreReceive_keeps P (fun s y0 y1 y2 y3 y4 y5 y6 y7 y8 y9 y10 y11 y12 y13 y14 y15 => hk s y0 y1 y2 y3 y4 y5 y6 y7 y8 y9 y10 y11 y12 y13 y14 y15) bytes s)

theorem execPwrfailAssert_keeps {β : Type} (P : State → β) (hk : ∀ (s : State) x0 x1 x2 x3 x4 x5 x6 x7 x8, P { s with out := x0, evt := x1, mon := x2, jnv := x3, jnl := x4, prov := x5, roots := x6, ledger := x7, life := x8 } = P s)
    (s : State) (s' : State) (e : execPwrfailAssert s = .next s') : P s' = P s :=
  (congrArg P (Host.Outcome.next.inj e)).symm.trans (pwrfailAssert_keeps P (fun s y0 y1 y2 y3 y4 y5 y6 y7 y8 => hk s y0 y1 y2 y3 y4 y5 y6 y7 y8) s)

theorem execPwrfailDeassert_keeps {β : Type} (P : State → β) (hk : ∀ (s : State) x0 x1 x2 x3 x4 x5 x6 x7, P { s with out := x0, evt := x1, mon := x2, jnv := x3, jnl := x4, prov := x5, roots := x6, life := x7 } = P s)
    (s : State) (s' : State) (e : execPwrfailDeassert s = .next s') : P s' = P s :=
  (congrArg P (Host.Outcome.next.inj e)).symm.trans (pwrfailDeassert_keeps P (fun s y0 y1 y2 y3 y4 y5 y6 y7 => hk s y0 y1 y2 y3 y4 y5 y6 y7) s)

theorem execCalLoad_keeps {β : Type} (P : State → β) (hk : ∀ (s : State) x0 x1 x2 x3 x4 x5 x6 x7 x8 x9 x10 x11 x12 x13 x14, P { s with out := x0, mbxs := x1, ops := x2, nextOp := x3, evt := x4, bkp := x5, eps := x6, mem := x7, jnv := x8, jnl := x9, prov := x10, roots := x11, ledger := x12, slate := x13, life := x14 } = P s)
    (r : Req) (s : State) (s' : State) (e : execCalLoad r s = .next s') : P s' = P s :=
  (congrArg P (Host.Outcome.next.inj e)).symm.trans (serve_keeps P (fun s y0 y1 y2 y3 y4 y5 y6 => hk s y0 y1 y2 y3 y4 y5 s.eps s.mem s.jnv s.jnl s.prov s.roots s.ledger y6 s.life) calLoadService (fun _ r s => calLoad_keeps P (fun s y0 y1 y2 y3 y4 y5 y6 y7 y8 y9 => hk s y0 s.mbxs s.ops s.nextOp y1 s.bkp y2 y3 y4 y5 y6 y7 y8 s.slate y9) r s) r s)

theorem execCalGet_keeps {β : Type} (P : State → β) (hk : ∀ (s : State) x0 x1 x2 x3 x4 x5 x6, P { s with out := x0, mbxs := x1, ops := x2, nextOp := x3, evt := x4, bkp := x5, slate := x6 } = P s)
    (r : Req) (s : State) (s' : State) (e : execCalGet r s = .next s') : P s' = P s :=
  (congrArg P (Host.Outcome.next.inj e)).symm.trans (serve_keeps P (fun s y0 y1 y2 y3 y4 y5 y6 => hk s y0 y1 y2 y3 y4 y5 y6) calGetService (fun _ r s => calGet_keeps P r s) r s)

theorem execTariffAssign_keeps {β : Type} (P : State → β) (hk : ∀ (s : State) x0 x1 x2 x3 x4 x5 x6 x7 x8 x9 x10 x11 x12 x13 x14, P { s with out := x0, mbxs := x1, ops := x2, nextOp := x3, evt := x4, bkp := x5, eps := x6, mem := x7, jnv := x8, jnl := x9, prov := x10, roots := x11, ledger := x12, slate := x13, life := x14 } = P s)
    (r : Req) (s : State) (s' : State) (e : execTariffAssign r s = .next s') : P s' = P s :=
  (congrArg P (Host.Outcome.next.inj e)).symm.trans (serve_keeps P (fun s y0 y1 y2 y3 y4 y5 y6 => hk s y0 y1 y2 y3 y4 y5 s.eps s.mem s.jnv s.jnl s.prov s.roots s.ledger y6 s.life) tariffAssignService (fun _ r s => tariffAssign_keeps P (fun s y0 y1 y2 y3 y4 y5 y6 y7 y8 y9 => hk s y0 s.mbxs s.ops s.nextOp y1 s.bkp y2 y3 y4 y5 y6 y7 y8 s.slate y9) r s) r s)

theorem execLedgerGet_keeps {β : Type} (P : State → β) (hk : ∀ (s : State) x0 x1 x2 x3 x4 x5 x6 x7, P { s with out := x0, mbxs := x1, ops := x2, nextOp := x3, evt := x4, bkp := x5, mem := x6, slate := x7 } = P s)
    (r : Req) (s : State) (s' : State) (e : execLedgerGet r s = .next s') : P s' = P s :=
  (congrArg P (Host.Outcome.next.inj e)).symm.trans (serve_keeps P (fun s y0 y1 y2 y3 y4 y5 y6 => hk s y0 y1 y2 y3 y4 y5 s.mem y6) ledgerGetService (fun _ r s => ledgerGet_keeps P (fun s y0 => hk s s.out s.mbxs s.ops s.nextOp s.evt s.bkp y0 s.slate) r s) r s)

theorem execLedgerRestoreStart_keeps {β : Type} (P : State → β) (hk : ∀ (s : State) x0 x1 x2 x3 x4 x5 x6 x7 x8 x9 x10 x11 x12 x13 x14 x15 x16 x17 x18, P { s with out := x0, mbxs := x1, ops := x2, nextOp := x3, evt := x4, boot := x5, bkp := x6, dir := x7, eps := x8, mem := x9, chans := x10, jnv := x11, jnl := x12, prov := x13, roots := x14, ledger := x15, bal := x16, slate := x17, life := x18 } = P s)
    (r : Req) (s : State) (s' : State) (e : execLedgerRestoreStart r s = .next s') : P s' = P s :=
  (congrArg P (Host.Outcome.next.inj e)).symm.trans (serve_keeps P (fun s y0 y1 y2 y3 y4 y5 y6 => hk s y0 y1 y2 y3 y4 s.boot y5 s.dir s.eps s.mem s.chans s.jnv s.jnl s.prov s.roots s.ledger s.bal y6 s.life) ledgerRestoreStartService (fun _ r s => restoreStart_keeps P (fun s y0 y1 y2 y3 y4 y5 y6 y7 y8 y9 y10 y11 y12 y13 y14 y15 => hk s y0 s.mbxs s.ops s.nextOp y1 y2 y3 y4 y5 y6 y7 y8 y9 y10 y11 y12 y13 y14 y15) r s) r s)

theorem execLedgerPageLost_keeps {β : Type} (P : State → β) (hk : ∀ (s : State) x0 x1 x2 x3 x4 x5 x6 x7 x8 x9 x10 x11 x12 x13 x14 x15 x16 x17, P { s with out := x0, mbxs := x1, ops := x2, nextOp := x3, evt := x4, boot := x5, bkp := x6, dir := x7, eps := x8, mem := x9, chans := x10, jnv := x11, jnl := x12, prov := x13, roots := x14, ledger := x15, slate := x16, life := x17 } = P s)
    (r : Req) (s : State) (s' : State) (e : execLedgerPageLost r s = .next s') : P s' = P s :=
  (congrArg P (Host.Outcome.next.inj e)).symm.trans (serve_keeps P (fun s y0 y1 y2 y3 y4 y5 y6 => hk s y0 y1 y2 y3 y4 s.boot y5 s.dir s.eps s.mem s.chans s.jnv s.jnl s.prov s.roots s.ledger y6 s.life) ledgerPageLostService (fun _ r s => ledgerPageLost_keeps P (fun s y0 y1 y2 y3 y4 y5 y6 y7 y8 y9 y10 y11 y12 y13 y14 => hk s y0 s.mbxs s.ops s.nextOp y1 y2 y3 y4 y5 y6 y7 y8 y9 y10 y11 y12 y13 y14) r s) r s)

theorem execLedgerExportStart_keeps {β : Type} (P : State → β) (hk : ∀ (s : State) x0 x1 x2 x3 x4 x5 x6 x7 x8, P { s with out := x0, mbxs := x1, ops := x2, nextOp := x3, evt := x4, bkp := x5, chans := x6, ledger := x7, slate := x8 } = P s)
    (r : Req) (s : State) (s' : State) (e : execLedgerExportStart r s = .next s') : P s' = P s :=
  (congrArg P (Host.Outcome.next.inj e)).symm.trans (serve_keeps P (fun s y0 y1 y2 y3 y4 y5 y6 => hk s y0 y1 y2 y3 y4 y5 s.chans s.ledger y6) ledgerExportStartService (fun _ r s => ledgerExportStart_keeps P (fun s y0 y1 => hk s s.out s.mbxs s.ops s.nextOp s.evt s.bkp y0 y1 s.slate) r s) r s)

theorem execLedgerConfirm_keeps {β : Type} (P : State → β) (hk : ∀ (s : State) x0 x1 x2 x3 x4 x5 x6 x7 x8 x9 x10, P { s with out := x0, mbxs := x1, ops := x2, nextOp := x3, evt := x4, bkp := x5, jnv := x6, jnl := x7, roots := x8, ledger := x9, slate := x10 } = P s)
    (r : Req) (s : State) (s' : State) (e : execLedgerConfirm r s = .next s') : P s' = P s :=
  (congrArg P (Host.Outcome.next.inj e)).symm.trans (serve_keeps P (fun s y0 y1 y2 y3 y4 y5 y6 => hk s y0 y1 y2 y3 y4 y5 s.jnv s.jnl s.roots s.ledger y6) ledgerConfirmService (fun _ r s => ledgerConfirm_keeps P (fun s y0 y1 y2 y3 y4 y5 => hk s y0 s.mbxs s.ops s.nextOp y1 s.bkp y2 y3 y4 y5 s.slate) r s) r s)

theorem execLedgerPendingGet_keeps {β : Type} (P : State → β) (hk : ∀ (s : State) x0 x1 x2 x3 x4 x5 x6, P { s with out := x0, mbxs := x1, ops := x2, nextOp := x3, evt := x4, bkp := x5, slate := x6 } = P s)
    (r : Req) (s : State) (s' : State) (e : execLedgerPendingGet r s = .next s') : P s' = P s :=
  (congrArg P (Host.Outcome.next.inj e)).symm.trans (serve_keeps P (fun s y0 y1 y2 y3 y4 y5 y6 => hk s y0 y1 y2 y3 y4 y5 y6) ledgerPendingGetService (fun _ r s => ledgerPendingGet_keeps P r s) r s)

theorem execPeriodCloseNow_keeps {β : Type} (P : State → β) (hk : ∀ (s : State) x0 x1 x2 x3 x4 x5 x6 x7 x8 x9 x10 x11 x12, P { s with out := x0, mbxs := x1, ops := x2, nextOp := x3, evt := x4, bkp := x5, jnv := x6, jnl := x7, prov := x8, roots := x9, ledger := x10, slate := x11, life := x12 } = P s)
    (r : Req) (s : State) (s' : State) (e : execPeriodCloseNow r s = .next s') : P s' = P s :=
  (congrArg P (Host.Outcome.next.inj e)).symm.trans (serve_keeps P (fun s y0 y1 y2 y3 y4 y5 y6 => hk s y0 y1 y2 y3 y4 y5 s.jnv s.jnl s.prov s.roots s.ledger y6 s.life) periodCloseNowService (fun _ r s => periodCloseNow_keeps P (fun s y0 y1 y2 y3 y4 y5 y6 y7 => hk s y0 s.mbxs s.ops s.nextOp y1 s.bkp y2 y3 y4 y5 y6 s.slate y7) r s) r s)

theorem execStatementStart_keeps {β : Type} (P : State → β) (hk : ∀ (s : State) x0 x1 x2 x3 x4 x5 x6 x7 x8, P { s with out := x0, mbxs := x1, ops := x2, nextOp := x3, evt := x4, bkp := x5, chans := x6, ledger := x7, slate := x8 } = P s)
    (r : Req) (s : State) (s' : State) (e : execStatementStart r s = .next s') : P s' = P s :=
  (congrArg P (Host.Outcome.next.inj e)).symm.trans (serve_keeps P (fun s y0 y1 y2 y3 y4 y5 y6 => hk s y0 y1 y2 y3 y4 y5 s.chans s.ledger y6) statementStartService (fun _ r s => statementStart_keeps P (fun s y0 y1 => hk s s.out s.mbxs s.ops s.nextOp s.evt s.bkp y0 y1 s.slate) r s) r s)

theorem execStatementConfirm_keeps {β : Type} (P : State → β) (hk : ∀ (s : State) x0 x1 x2 x3 x4 x5 x6 x7 x8 x9, P { s with out := x0, mbxs := x1, ops := x2, nextOp := x3, evt := x4, bkp := x5, chans := x6, roots := x7, ledger := x8, slate := x9 } = P s)
    (r : Req) (s : State) (s' : State) (e : execStatementConfirm r s = .next s') : P s' = P s :=
  (congrArg P (Host.Outcome.next.inj e)).symm.trans (serve_keeps P (fun s y0 y1 y2 y3 y4 y5 y6 => hk s y0 y1 y2 y3 y4 y5 s.chans s.roots s.ledger y6) statementConfirmService (fun _ r s => statementConfirm_keeps P (fun s y0 y1 y2 => hk s s.out s.mbxs s.ops s.nextOp s.evt s.bkp y0 y1 y2 s.slate) r s) r s)

theorem execStatementRewind_keeps {β : Type} (P : State → β) (hk : ∀ (s : State) x0 x1 x2 x3 x4 x5 x6 x7 x8, P { s with out := x0, mbxs := x1, ops := x2, nextOp := x3, evt := x4, bkp := x5, chans := x6, ledger := x7, slate := x8 } = P s)
    (r : Req) (s : State) (s' : State) (e : execStatementRewind r s = .next s') : P s' = P s :=
  (congrArg P (Host.Outcome.next.inj e)).symm.trans (serve_keeps P (fun s y0 y1 y2 y3 y4 y5 y6 => hk s y0 y1 y2 y3 y4 y5 s.chans s.ledger y6) statementRewindService (fun _ r s => statementRewind_keeps P (fun s y0 y1 => hk s s.out s.mbxs s.ops s.nextOp s.evt s.bkp y0 y1 s.slate) r s) r s)

theorem execGraniteInfoGet_keeps {β : Type} (P : State → β) (hk : ∀ (s : State) x0 x1 x2 x3 x4 x5 x6, P { s with out := x0, mbxs := x1, ops := x2, nextOp := x3, evt := x4, bkp := x5, slate := x6 } = P s)
    (r : Req) (s : State) (s' : State) (e : execGraniteInfoGet r s = .next s') : P s' = P s :=
  (congrArg P (Host.Outcome.next.inj e)).symm.trans (serve_keeps P (fun s y0 y1 y2 y3 y4 y5 y6 => hk s y0 y1 y2 y3 y4 y5 y6) graniteInfoGetService (fun _ _ _ => rfl) r s)

theorem execDisplayShow_keeps {β : Type} (P : State → β) (hk : ∀ (s : State) x0 x1 x2 x3 x4 x5 x6 x7, P { s with out := x0, mbxs := x1, ops := x2, nextOp := x3, evt := x4, bkp := x5, ledger := x6, slate := x7 } = P s)
    (r : Req) (s : State) (s' : State) (e : execDisplayShow r s = .next s') : P s' = P s :=
  (congrArg P (Host.Outcome.next.inj e)).symm.trans (serve_keeps P (fun s y0 y1 y2 y3 y4 y5 y6 => hk s y0 y1 y2 y3 y4 y5 s.ledger y6) displayShowService (fun _ r s => displayShow_keeps P (fun s y0 => hk s s.out s.mbxs s.ops s.nextOp s.evt s.bkp y0 s.slate) r s) r s)

theorem execLedgerStatusGet_keeps {β : Type} (P : State → β) (hk : ∀ (s : State) x0 x1 x2 x3 x4 x5 x6, P { s with out := x0, mbxs := x1, ops := x2, nextOp := x3, evt := x4, bkp := x5, slate := x6 } = P s)
    (r : Req) (s : State) (s' : State) (e : execLedgerStatusGet r s = .next s') : P s' = P s :=
  (congrArg P (Host.Outcome.next.inj e)).symm.trans (serve_keeps P (fun s y0 y1 y2 y3 y4 y5 y6 => hk s y0 y1 y2 y3 y4 y5 y6) ledgerStatusGetService (fun _ _ _ => rfl) r s)

theorem execDisplayScreen_keeps {β : Type} (P : State → β) (hk : ∀ (s : State) x0 x1 x2 x3, P { s with now := x0, mono := x1, out := x2, ledger := x3 } = P s)
    (acked : Bool) (s : State) (s' : State) (e : execDisplayScreen acked s = .next s') : P s' = P s :=
  (congrArg P (Host.Outcome.next.inj e)).symm.trans (displayScreen_keeps P (fun s y0 y1 y2 y3 => hk s y0 y1 y2 y3) acked s)

theorem execDisplayRetry_keeps {β : Type} (P : State → β) (hk : ∀ (s : State) x0 x1 x2 x3, P { s with now := x0, mono := x1, out := x2, ledger := x3 } = P s)
    (acked : Bool) (s : State) (s' : State) (e : execDisplayRetry acked s = .next s') : P s' = P s :=
  (congrArg P (Host.Outcome.next.inj e)).symm.trans (displayRetry_keeps P (fun s y0 y1 y2 y3 => hk s y0 y1 y2 y3) acked s)

theorem execSealChange_keeps {β : Type} (P : State → β) (hk : ∀ (s : State) x0 x1 x2 x3 x4 x5 x6 x7 x8, P { s with out := x0, evt := x1, bkp := x2, jnv := x3, jnl := x4, prov := x5, roots := x6, slate := x7, life := x8 } = P s)
    (high : Bool) (s : State) (s' : State) (e : execSealChange high s = .next s') : P s' = P s :=
  (congrArg P (Host.Outcome.next.inj e)).symm.trans (sealChange_keeps P (fun s y0 y1 y2 y3 y4 y5 y6 y7 y8 => hk s y0 y1 y2 y3 y4 y5 y6 y7 y8) high s)

theorem execIntervalClose_keeps {β : Type} (P : State → β) (hk : ∀ (s : State) x0 x1 x2 x3 x4, P { s with now := x0, mono := x1, out := x2, evt := x3, bal := x4 } = P s)
    (zone stop : Nat) (s : State) (s' : State) (e : execIntervalClose zone stop s = .next s') : P s' = P s :=
  (congrArg P (Host.Outcome.next.inj e)).symm.trans (intervalClose_keeps P (fun s y0 y1 y2 y3 y4 => hk s y0 y1 y2 y3 y4) zone stop s)

theorem execRevisionPost_keeps {β : Type} (P : State → β) (hk : ∀ (s : State) x0 x1 x2 x3 x4, P { s with now := x0, mono := x1, out := x2, evt := x3, bal := x4 } = P s)
    (zone : Nat) (start : Option Nat) (s : State) (s' : State) (e : execRevisionPost zone start s = .next s') : P s' = P s :=
  (congrArg P (Host.Outcome.next.inj e)).symm.trans (revisionPost_keeps P (fun s y0 y1 y2 y3 y4 => hk s y0 y1 y2 y3 y4) zone start s)

theorem execUnzonedPost_keeps {β : Type} (P : State → β) (hk : ∀ (s : State) x0 x1 x2, P { s with now := x0, mono := x1, bal := x2 } = P s)
    (start : Nat) (s : State) (s' : State) (e : execUnzonedPost start s = .next s') : P s' = P s :=
  (congrArg P (Host.Outcome.next.inj e)).symm.trans (unzonedPost_keeps P (fun s y0 y1 y2 => hk s y0 y1 y2) start s)

theorem execHorizonAdvance_keeps {β : Type} (P : State → β) (hk : ∀ (s : State) x0 x1 x2, P { s with now := x0, mono := x1, bal := x2 } = P s)
    (s : State) (s' : State) (e : execHorizonAdvance s = .next s') : P s' = P s :=
  (congrArg P (Host.Outcome.next.inj e)).symm.trans (horizonAdvance_keeps P (fun s y0 y1 y2 => hk s y0 y1 y2) s)

theorem execZoneLoad_keeps {β : Type} (P : State → β) (hk : ∀ (s : State) x0 x1 x2 x3 x4 x5 x6 x7, P { s with out := x0, mbxs := x1, ops := x2, nextOp := x3, evt := x4, bkp := x5, bal := x6, slate := x7 } = P s)
    (r : Req) (s : State) (s' : State) (e : execZoneLoad r s = .next s') : P s' = P s :=
  (congrArg P (Host.Outcome.next.inj e)).symm.trans (serve_keeps P (fun s y0 y1 y2 y3 y4 y5 y6 => hk s y0 y1 y2 y3 y4 y5 s.bal y6) zoneLoadService (fun _ r s => zoneLoad_keeps P (fun s y0 => hk s s.out s.mbxs s.ops s.nextOp s.evt s.bkp y0 s.slate) r s) r s)

theorem execZoneDrop_keeps {β : Type} (P : State → β) (hk : ∀ (s : State) x0 x1 x2 x3 x4 x5 x6 x7, P { s with out := x0, mbxs := x1, ops := x2, nextOp := x3, evt := x4, bkp := x5, bal := x6, slate := x7 } = P s)
    (r : Req) (s : State) (s' : State) (e : execZoneDrop r s = .next s') : P s' = P s :=
  (congrArg P (Host.Outcome.next.inj e)).symm.trans (serve_keeps P (fun s y0 y1 y2 y3 y4 y5 y6 => hk s y0 y1 y2 y3 y4 y5 s.bal y6) zoneDropService (fun _ r s => zoneDrop_keeps P (fun s y0 y1 y2 => hk s y0 s.mbxs s.ops s.nextOp y1 s.bkp y2 s.slate) r s) r s)

theorem execZoneTolSet_keeps {β : Type} (P : State → β) (hk : ∀ (s : State) x0 x1 x2 x3 x4 x5 x6 x7, P { s with out := x0, mbxs := x1, ops := x2, nextOp := x3, evt := x4, bkp := x5, bal := x6, slate := x7 } = P s)
    (r : Req) (s : State) (s' : State) (e : execZoneTolSet r s = .next s') : P s' = P s :=
  (congrArg P (Host.Outcome.next.inj e)).symm.trans (serve_keeps P (fun s y0 y1 y2 y3 y4 y5 y6 => hk s y0 y1 y2 y3 y4 y5 s.bal y6) zoneTolSetService (fun _ r s => zoneTolSet_keeps P (fun s y0 => hk s s.out s.mbxs s.ops s.nextOp s.evt s.bkp y0 s.slate) r s) r s)

theorem execZoneGet_keeps {β : Type} (P : State → β) (hk : ∀ (s : State) x0 x1 x2 x3 x4 x5 x6, P { s with out := x0, mbxs := x1, ops := x2, nextOp := x3, evt := x4, bkp := x5, slate := x6 } = P s)
    (r : Req) (s : State) (s' : State) (e : execZoneGet r s = .next s') : P s' = P s :=
  (congrArg P (Host.Outcome.next.inj e)).symm.trans (serve_keeps P (fun s y0 y1 y2 y3 y4 y5 y6 => hk s y0 y1 y2 y3 y4 y5 y6) zoneGetService (fun _ r s => zoneGet_keeps P r s) r s)

theorem execScoreReset_keeps {β : Type} (P : State → β) (hk : ∀ (s : State) x0 x1 x2 x3 x4 x5 x6 x7, P { s with out := x0, mbxs := x1, ops := x2, nextOp := x3, evt := x4, bkp := x5, bal := x6, slate := x7 } = P s)
    (r : Req) (s : State) (s' : State) (e : execScoreReset r s = .next s') : P s' = P s :=
  (congrArg P (Host.Outcome.next.inj e)).symm.trans (serve_keeps P (fun s y0 y1 y2 y3 y4 y5 y6 => hk s y0 y1 y2 y3 y4 y5 s.bal y6) scoreResetService (fun _ r s => scoreReset_keeps P (fun s y0 => hk s s.out s.mbxs s.ops s.nextOp s.evt s.bkp y0 s.slate) r s) r s)

theorem execBalExportStart_keeps {β : Type} (P : State → β) (hk : ∀ (s : State) x0 x1 x2 x3 x4 x5 x6 x7 x8, P { s with out := x0, mbxs := x1, ops := x2, nextOp := x3, evt := x4, bkp := x5, chans := x6, bal := x7, slate := x8 } = P s)
    (r : Req) (s : State) (s' : State) (e : execBalExportStart r s = .next s') : P s' = P s :=
  (congrArg P (Host.Outcome.next.inj e)).symm.trans (serve_keeps P (fun s y0 y1 y2 y3 y4 y5 y6 => hk s y0 y1 y2 y3 y4 y5 s.chans s.bal y6) balExportStartService (fun _ r s => balExportStart_keeps P (fun s y0 y1 => hk s s.out s.mbxs s.ops s.nextOp s.evt s.bkp y0 y1 s.slate) r s) r s)

theorem execBalConfirm_keeps {β : Type} (P : State → β) (hk : ∀ (s : State) x0 x1 x2 x3 x4 x5 x6 x7 x8, P { s with out := x0, mbxs := x1, ops := x2, nextOp := x3, evt := x4, bkp := x5, chans := x6, bal := x7, slate := x8 } = P s)
    (r : Req) (s : State) (s' : State) (e : execBalConfirm r s = .next s') : P s' = P s :=
  (congrArg P (Host.Outcome.next.inj e)).symm.trans (serve_keeps P (fun s y0 y1 y2 y3 y4 y5 y6 => hk s y0 y1 y2 y3 y4 y5 s.chans s.bal y6) balConfirmService (fun _ r s => balConfirm_keeps P (fun s y0 y1 => hk s s.out s.mbxs s.ops s.nextOp s.evt s.bkp y0 y1 s.slate) r s) r s)

theorem execBalRewind_keeps {β : Type} (P : State → β) (hk : ∀ (s : State) x0 x1 x2 x3 x4 x5 x6 x7 x8, P { s with out := x0, mbxs := x1, ops := x2, nextOp := x3, evt := x4, bkp := x5, chans := x6, bal := x7, slate := x8 } = P s)
    (r : Req) (s : State) (s' : State) (e : execBalRewind r s = .next s') : P s' = P s :=
  (congrArg P (Host.Outcome.next.inj e)).symm.trans (serve_keeps P (fun s y0 y1 y2 y3 y4 y5 y6 => hk s y0 y1 y2 y3 y4 y5 s.chans s.bal y6) balRewindService (fun _ r s => balRewind_keeps P (fun s y0 y1 => hk s s.out s.mbxs s.ops s.nextOp s.evt s.bkp y0 y1 s.slate) r s) r s)

theorem execBalRerun_keeps {β : Type} (P : State → β) (hk : ∀ (s : State) x0 x1 x2 x3 x4 x5 x6 x7, P { s with out := x0, mbxs := x1, ops := x2, nextOp := x3, evt := x4, bkp := x5, bal := x6, slate := x7 } = P s)
    (r : Req) (s : State) (s' : State) (e : execBalRerun r s = .next s') : P s' = P s :=
  (congrArg P (Host.Outcome.next.inj e)).symm.trans (serve_keeps P (fun s y0 y1 y2 y3 y4 y5 y6 => hk s y0 y1 y2 y3 y4 y5 s.bal y6) balRerunService (fun _ r s => balRerun_keeps P (fun s y0 y1 y2 => hk s y0 s.mbxs s.ops s.nextOp y1 s.bkp y2 s.slate) r s) r s)

theorem execBalStatusGet_keeps {β : Type} (P : State → β) (hk : ∀ (s : State) x0 x1 x2 x3 x4 x5 x6, P { s with out := x0, mbxs := x1, ops := x2, nextOp := x3, evt := x4, bkp := x5, slate := x6 } = P s)
    (r : Req) (s : State) (s' : State) (e : execBalStatusGet r s = .next s') : P s' = P s :=
  (congrArg P (Host.Outcome.next.inj e)).symm.trans (serve_keeps P (fun s y0 y1 y2 y3 y4 y5 y6 => hk s y0 y1 y2 y3 y4 y5 y6) balStatusGetService (fun _ _ _ => rfl) r s)

theorem execCampCreate_keeps {β : Type} (P : State → β) (hk : ∀ (s : State) x0 x1 x2 x3 x4 x5 x6 x7 x8 x9 x10 x11 x12, P { s with out := x0, mbxs := x1, ops := x2, nextOp := x3, evt := x4, bkp := x5, jnv := x6, jnl := x7, prov := x8, roots := x9, camps := x10, slate := x11, life := x12 } = P s)
    (r : Req) (s : State) (s' : State) (e : execCampCreate r s = .next s') : P s' = P s :=
  (congrArg P (Host.Outcome.next.inj e)).symm.trans (serve_keeps P (fun s y0 y1 y2 y3 y4 y5 y6 => hk s y0 y1 y2 y3 y4 y5 s.jnv s.jnl s.prov s.roots s.camps y6 s.life) campCreateService (fun _ r s => campCreate_keeps P (fun s y0 y1 y2 y3 y4 y5 y6 y7 => hk s y0 s.mbxs s.ops s.nextOp y1 s.bkp y2 y3 y4 y5 y6 s.slate y7) r s) r s)

theorem execCampContent_keeps {β : Type} (P : State → β) (hk : ∀ (s : State) x0 x1 x2 x3 x4 x5 x6 x7, P { s with out := x0, mbxs := x1, ops := x2, nextOp := x3, evt := x4, bkp := x5, camps := x6, slate := x7 } = P s)
    (r : Req) (s : State) (s' : State) (e : execCampContent r s = .next s') : P s' = P s :=
  (congrArg P (Host.Outcome.next.inj e)).symm.trans (serve_keeps P (fun s y0 y1 y2 y3 y4 y5 y6 => hk s y0 y1 y2 y3 y4 y5 s.camps y6) campContentService (fun _ r s => campContent_keeps P (fun s y0 => hk s s.out s.mbxs s.ops s.nextOp s.evt s.bkp y0 s.slate) r s) r s)

theorem execCampTargetsAdd_keeps {β : Type} (P : State → β) (hk : ∀ (s : State) x0 x1 x2 x3 x4 x5 x6 x7 x8 x9 x10 x11 x12, P { s with out := x0, mbxs := x1, ops := x2, nextOp := x3, evt := x4, bkp := x5, jnv := x6, jnl := x7, prov := x8, roots := x9, camps := x10, slate := x11, life := x12 } = P s)
    (r : Req) (s : State) (s' : State) (e : execCampTargetsAdd r s = .next s') : P s' = P s :=
  (congrArg P (Host.Outcome.next.inj e)).symm.trans (serve_keeps P (fun s y0 y1 y2 y3 y4 y5 y6 => hk s y0 y1 y2 y3 y4 y5 s.jnv s.jnl s.prov s.roots s.camps y6 s.life) campTargetsAddService (fun _ r s => campTargetsAdd_keeps P (fun s y0 y1 y2 y3 y4 y5 y6 y7 y8 y9 y10 y11 => hk s y0 y1 y2 s.nextOp y3 y4 y5 y6 y7 y8 y9 y10 y11) r s) r s)

theorem execCampStart_keeps {β : Type} (P : State → β) (hk : ∀ (s : State) x0 x1 x2 x3 x4 x5 x6 x7 x8 x9 x10 x11 x12, P { s with out := x0, mbxs := x1, ops := x2, nextOp := x3, evt := x4, bkp := x5, jnv := x6, jnl := x7, prov := x8, roots := x9, camps := x10, slate := x11, life := x12 } = P s)
    (r : Req) (s : State) (s' : State) (e : execCampStart r s = .next s') : P s' = P s :=
  (congrArg P (Host.Outcome.next.inj e)).symm.trans (serve_keeps P (fun s y0 y1 y2 y3 y4 y5 y6 => hk s y0 y1 y2 y3 y4 y5 s.jnv s.jnl s.prov s.roots s.camps y6 s.life) campStartService (fun _ r s => campStart_keeps P (fun s y0 y1 y2 y3 y4 y5 y6 y7 y8 y9 y10 y11 => hk s y0 y1 y2 s.nextOp y3 y4 y5 y6 y7 y8 y9 y10 y11) r s) r s)

theorem execCampPause_keeps {β : Type} (P : State → β) (hk : ∀ (s : State) x0 x1 x2 x3 x4 x5 x6 x7 x8 x9 x10 x11 x12, P { s with out := x0, mbxs := x1, ops := x2, nextOp := x3, evt := x4, bkp := x5, jnv := x6, jnl := x7, prov := x8, roots := x9, camps := x10, slate := x11, life := x12 } = P s)
    (r : Req) (s : State) (s' : State) (e : execCampPause r s = .next s') : P s' = P s :=
  (congrArg P (Host.Outcome.next.inj e)).symm.trans (serve_keeps P (fun s y0 y1 y2 y3 y4 y5 y6 => hk s y0 y1 y2 y3 y4 y5 s.jnv s.jnl s.prov s.roots s.camps y6 s.life) campPauseService (fun _ r s => campPause_keeps P (fun s y0 y1 y2 y3 y4 y5 y6 y7 => hk s y0 s.mbxs s.ops s.nextOp y1 s.bkp y2 y3 y4 y5 y6 s.slate y7) r s) r s)

theorem execCampResume_keeps {β : Type} (P : State → β) (hk : ∀ (s : State) x0 x1 x2 x3 x4 x5 x6 x7 x8 x9 x10 x11 x12, P { s with out := x0, mbxs := x1, ops := x2, nextOp := x3, evt := x4, bkp := x5, jnv := x6, jnl := x7, prov := x8, roots := x9, camps := x10, slate := x11, life := x12 } = P s)
    (r : Req) (s : State) (s' : State) (e : execCampResume r s = .next s') : P s' = P s :=
  (congrArg P (Host.Outcome.next.inj e)).symm.trans (serve_keeps P (fun s y0 y1 y2 y3 y4 y5 y6 => hk s y0 y1 y2 y3 y4 y5 s.jnv s.jnl s.prov s.roots s.camps y6 s.life) campResumeService (fun _ r s => campResume_keeps P (fun s y0 y1 y2 y3 y4 y5 y6 y7 y8 y9 y10 y11 => hk s y0 y1 y2 s.nextOp y3 y4 y5 y6 y7 y8 y9 y10 y11) r s) r s)

theorem execCampCancel_keeps {β : Type} (P : State → β) (hk : ∀ (s : State) x0 x1 x2 x3 x4 x5 x6 x7 x8 x9 x10 x11 x12, P { s with out := x0, mbxs := x1, ops := x2, nextOp := x3, evt := x4, bkp := x5, jnv := x6, jnl := x7, prov := x8, roots := x9, camps := x10, slate := x11, life := x12 } = P s)
    (r : Req) (s : State) (s' : State) (e : execCampCancel r s = .next s') : P s' = P s :=
  (congrArg P (Host.Outcome.next.inj e)).symm.trans (serve_keeps P (fun s y0 y1 y2 y3 y4 y5 y6 => hk s y0 y1 y2 y3 y4 y5 s.jnv s.jnl s.prov s.roots s.camps y6 s.life) campCancelService (campCancel_keeps P (fun s y0 y1 y2 y3 y4 y5 y6 y7 y8 y9 y10 y11 => hk s y0 y1 y2 s.nextOp y3 y4 y5 y6 y7 y8 y9 y10 y11)) r s)

theorem execCampStatusGet_keeps {β : Type} (P : State → β) (hk : ∀ (s : State) x0 x1 x2 x3 x4 x5 x6, P { s with out := x0, mbxs := x1, ops := x2, nextOp := x3, evt := x4, bkp := x5, slate := x6 } = P s)
    (r : Req) (s : State) (s' : State) (e : execCampStatusGet r s = .next s') : P s' = P s :=
  (congrArg P (Host.Outcome.next.inj e)).symm.trans (serve_keeps P (fun s y0 y1 y2 y3 y4 y5 y6 => hk s y0 y1 y2 y3 y4 y5 y6) campStatusGetService (fun _ r s => campStatusGet_keeps P r s) r s)

theorem execCampTargetGet_keeps {β : Type} (P : State → β) (hk : ∀ (s : State) x0 x1 x2 x3 x4 x5 x6, P { s with out := x0, mbxs := x1, ops := x2, nextOp := x3, evt := x4, bkp := x5, slate := x6 } = P s)
    (r : Req) (s : State) (s' : State) (e : execCampTargetGet r s = .next s') : P s' = P s :=
  (congrArg P (Host.Outcome.next.inj e)).symm.trans (serve_keeps P (fun s y0 y1 y2 y3 y4 y5 y6 => hk s y0 y1 y2 y3 y4 y5 y6) campTargetGetService (fun _ r s => campTargetGet_keeps P r s) r s)

theorem execCampRelease_keeps {β : Type} (P : State → β) (hk : ∀ (s : State) x0 x1 x2 x3 x4 x5 x6 x7, P { s with out := x0, mbxs := x1, ops := x2, nextOp := x3, evt := x4, bkp := x5, camps := x6, slate := x7 } = P s)
    (r : Req) (s : State) (s' : State) (e : execCampRelease r s = .next s') : P s' = P s :=
  (congrArg P (Host.Outcome.next.inj e)).symm.trans (serve_keeps P (fun s y0 y1 y2 y3 y4 y5 y6 => hk s y0 y1 y2 y3 y4 y5 s.camps y6) campReleaseService (fun _ r s => campRelease_keeps P (fun s y0 => hk s s.out s.mbxs s.ops s.nextOp s.evt s.bkp y0 s.slate) r s) r s)

theorem execSwitchFaultClear_keeps {β : Type} (P : State → β) (hk : ∀ (s : State) x0 x1 x2 x3 x4 x5 x6 x7 x8, P { s with out := x0, mbxs := x1, ops := x2, nextOp := x3, evt := x4, bkp := x5, eps := x6, mem := x7, slate := x8 } = P s)
    (r : Req) (s : State) (s' : State) (e : execSwitchFaultClear r s = .next s') : P s' = P s :=
  (congrArg P (Host.Outcome.next.inj e)).symm.trans (serve_keeps P (fun s y0 y1 y2 y3 y4 y5 y6 => hk s y0 y1 y2 y3 y4 y5 s.eps s.mem y6) switchFaultClearService (fun _ r s => switchFaultClear_keeps P (fun s y0 y1 => hk s s.out s.mbxs s.ops s.nextOp s.evt s.bkp y0 y1 s.slate) r s) r s)

theorem execStepAttempt_keeps {β : Type} (P : State → β) (hk : ∀ (s : State) x0 x1 x2 x3 x4 x5 x6 x7 x8 x9 x10 x11 x12 x13 x14 x15 x16 x17 x18 x19 x20, P { s with now := x0, mono := x1, freeCtr := x2, out := x3, evt := x4, bkp := x5, rf := x6, lanes := x7, sectors := x8, duty := x9, plc := x10, plcMac := x11, eps := x12, mem := x13, camps := x14, slots := x15, keys := x16, slate := x17, life := x18, safe := x19, faultTimes := x20 } = P s)
    (camp : Nat) (x : AttemptIn) (s : State) (s' : State) (e : execStepAttempt camp x s = .next s') : P s' = P s :=
  (congrArg P (Host.Outcome.next.inj e)).symm.trans (stepAttempt_keeps P (fun s y0 y1 y2 y3 y4 y5 y6 y7 y8 y9 y10 y11 y12 y13 y14 y15 y16 y17 y18 y19 y20 => hk s y0 y1 y2 y3 y4 y5 y6 y7 y8 y9 y10 y11 y12 y13 y14 y15 y16 y17 y18 y19 y20) camp x.handle x.power s)

theorem execConfWaitEnd_keeps {β : Type} (P : State → β) (hk : ∀ (s : State) x0 x1 x2 x3 x4 x5 x6 x7 x8 x9 x10 x11 x12 x13, P { s with now := x0, mono := x1, out := x2, mbxs := x3, ops := x4, evt := x5, bkp := x6, jnv := x7, jnl := x8, prov := x9, roots := x10, camps := x11, slate := x12, life := x13 } = P s)
    (camp handle : Nat) (s : State) (s' : State) (e : execConfWaitEnd camp handle s = .next s') : P s' = P s :=
  (congrArg P (Host.Outcome.next.inj e)).symm.trans (confWaitEnd_keeps P (fun s y0 y1 y2 y3 y4 y5 y6 y7 y8 y9 y10 y11 y12 y13 => hk s y0 y1 y2 y3 y4 y5 y6 y7 y8 y9 y10 y11 y12 y13) camp handle s)

theorem execCampDeadline_keeps {β : Type} (P : State → β) (hk : ∀ (s : State) x0 x1 x2 x3 x4 x5 x6 x7 x8 x9 x10 x11 x12 x13, P { s with now := x0, mono := x1, out := x2, mbxs := x3, ops := x4, evt := x5, bkp := x6, jnv := x7, jnl := x8, prov := x9, roots := x10, camps := x11, slate := x12, life := x13 } = P s)
    (camp : Nat) (s : State) (s' : State) (e : execCampDeadline camp s = .next s') : P s' = P s :=
  (congrArg P (Host.Outcome.next.inj e)).symm.trans (campDeadline_keeps P (fun s y0 y1 y2 y3 y4 y5 y6 y7 y8 y9 y10 y11 y12 y13 => hk s y0 y1 y2 y3 y4 y5 y6 y7 y8 y9 y10 y11 y12 y13) camp s)

theorem execSessionPlan_keeps {β : Type} (P : State → β) (hk : ∀ (s : State) x0 x1 x2 x3 x4 x5 x6 x7 x8 x9 x10 x11, P { s with out := x0, mbxs := x1, ops := x2, evt := x3, bkp := x4, jnv := x5, jnl := x6, prov := x7, roots := x8, camps := x9, slate := x10, life := x11 } = P s)
    (camp port : Nat) (s : State) (s' : State) (e : execSessionPlan camp port s = .next s') : P s' = P s :=
  (congrArg P (Host.Outcome.next.inj e)).symm.trans (sessionPlan_keeps P (fun s y0 y1 y2 y3 y4 y5 y6 y7 y8 y9 y10 y11 => hk s y0 y1 y2 y3 y4 y5 y6 y7 y8 y9 y10 y11) camp port s)

theorem execMulticastFrame_keeps {β : Type} (P : State → β) (hk : ∀ (s : State) x0 x1 x2 x3 x4 x5 x6 x7 x8 x9 x10 x11 x12 x13 x14, P { s with now := x0, mono := x1, freeCtr := x2, out := x3, evt := x4, bkp := x5, rf := x6, lanes := x7, sectors := x8, duty := x9, camps := x10, slots := x11, keys := x12, slate := x13, life := x14 } = P s)
    (camp port : Nat) (power : Power) (s : State) (s' : State) (e : execMulticastFrame camp port power s = .next s') : P s' = P s :=
  (congrArg P (Host.Outcome.next.inj e)).symm.trans (multicastFrame_keeps P (fun s y0 y1 y2 y3 y4 y5 y6 y7 y8 y9 y10 y11 y12 y13 y14 => hk s y0 y1 y2 y3 y4 y5 y6 y7 y8 y9 y10 y11 y12 y13 y14) camp port power s)

theorem execSwitchFbTimeout_keeps {β : Type} (P : State → β) (hk : ∀ (s : State) x0 x1 x2 x3 x4 x5 x6 x7 x8 x9 x10 x11 x12 x13 x14 x15, P { s with now := x0, mono := x1, out := x2, mbxs := x3, ops := x4, evt := x5, bkp := x6, eps := x7, mem := x8, jnv := x9, jnl := x10, prov := x11, roots := x12, camps := x13, slate := x14, life := x15 } = P s)
    (camp handle : Nat) (s : State) (s' : State) (e : execSwitchFbTimeout camp handle s = .next s') : P s' = P s :=
  (congrArg P (Host.Outcome.next.inj e)).symm.trans (switchFbTimeout_keeps P (fun s y0 y1 y2 y3 y4 y5 y6 y7 y8 y9 y10 y11 y12 y13 y14 y15 => hk s y0 y1 y2 y3 y4 y5 y6 y7 y8 y9 y10 y11 y12 y13 y14 y15) camp handle s)

theorem execGateRelease_keeps {β : Type} (P : State → β) (hk : ∀ (s : State) x0 x1 x2 x3 x4 x5 x6 x7 x8 x9 x10 x11 x12 x13 x14 x15 x16 x17 x18 x19 x20 x21, P { s with freeCtr := x0, out := x1, mbxs := x2, ops := x3, evt := x4, bkp := x5, rf := x6, lanes := x7, sectors := x8, plc := x9, plcMac := x10, eps := x11, mem := x12, jnv := x13, jnl := x14, prov := x15, roots := x16, camps := x17, slate := x18, life := x19, safe := x20, faultTimes := x21 } = P s)
    (testOk : Bool) (upset : GateUpset) (s : State) (s' : State) (e : execGateRelease testOk upset s = .next s') : P s' = P s :=
  (congrArg P (Host.Outcome.next.inj e)).symm.trans (gateRelease_keeps P (fun s y0 y1 y2 y3 y4 y5 y6 y7 y8 y9 y10 y11 y12 y13 y14 y15 y16 y17 y18 y19 y20 y21 => hk s y0 y1 y2 y3 y4 y5 y6 y7 y8 y9 y10 y11 y12 y13 y14 y15 y16 y17 y18 y19 y20 y21) testOk upset s)

theorem execQkLoad_keeps {β : Type} (P : State → β) (hk : ∀ (s : State) x0 x1 x2 x3 x4 x5 x6 x7 x8 x9, P { s with out := x0, mbxs := x1, ops := x2, nextOp := x3, evt := x4, bkp := x5, slots := x6, keys := x7, slate := x8, life := x9 } = P s)
    (r : Req) (s : State) (s' : State) (e : execQkLoad r s = .next s') : P s' = P s :=
  (congrArg P (Host.Outcome.next.inj e)).symm.trans (serve_keeps P (fun s y0 y1 y2 y3 y4 y5 y6 => hk s y0 y1 y2 y3 y4 y5 s.slots s.keys y6 s.life) qkLoadService (fun _ r s => qkLoad_keeps P (fun s y0 y1 y2 y3 y4 y5 y6 => hk s y0 s.mbxs s.ops s.nextOp y1 y2 y3 y4 y5 y6) r s) r s)

theorem execQkDerive_keeps {β : Type} (P : State → β) (hk : ∀ (s : State) x0 x1 x2 x3 x4 x5 x6 x7 x8 x9, P { s with out := x0, mbxs := x1, ops := x2, nextOp := x3, evt := x4, bkp := x5, slots := x6, keys := x7, slate := x8, life := x9 } = P s)
    (r : Req) (s : State) (s' : State) (e : execQkDerive r s = .next s') : P s' = P s :=
  (congrArg P (Host.Outcome.next.inj e)).symm.trans (serve_keeps P (fun s y0 y1 y2 y3 y4 y5 y6 => hk s y0 y1 y2 y3 y4 y5 s.slots s.keys y6 s.life) qkDeriveService (fun _ r s => qkDerive_keeps P (fun s y0 y1 y2 y3 y4 y5 y6 => hk s y0 s.mbxs s.ops s.nextOp y1 y2 y3 y4 y5 y6) r s) r s)

theorem execQkGenerate_keeps {β : Type} (P : State → β) (hk : ∀ (s : State) x0 x1 x2 x3 x4 x5 x6 x7 x8 x9, P { s with freeCtr := x0, out := x1, mbxs := x2, ops := x3, nextOp := x4, evt := x5, bkp := x6, slots := x7, keys := x8, slate := x9 } = P s)
    (r : Req) (s : State) (s' : State) (e : execQkGenerate r s = .next s') : P s' = P s :=
  (congrArg P (Host.Outcome.next.inj e)).symm.trans (serve_keeps P (fun s y0 y1 y2 y3 y4 y5 y6 => hk s s.freeCtr y0 y1 y2 y3 y4 y5 s.slots s.keys y6) qkGenerateService (fun _ r s => qkGenerate_keeps P (fun s y0 y1 y2 y3 y4 y5 y6 => hk s y0 y1 s.mbxs s.ops s.nextOp y2 y3 y4 y5 y6) r s) r s)

theorem execQkDestroy_keeps {β : Type} (P : State → β) (hk : ∀ (s : State) x0 x1 x2 x3 x4 x5 x6 x7 x8 x9, P { s with out := x0, mbxs := x1, ops := x2, nextOp := x3, evt := x4, bkp := x5, slots := x6, keys := x7, slate := x8, life := x9 } = P s)
    (r : Req) (s : State) (s' : State) (e : execQkDestroy r s = .next s') : P s' = P s :=
  (congrArg P (Host.Outcome.next.inj e)).symm.trans (serve_keeps P (fun s y0 y1 y2 y3 y4 y5 y6 => hk s y0 y1 y2 y3 y4 y5 s.slots s.keys y6 s.life) qkDestroyService (fun _ r s => qkDestroy_keeps P (fun s y0 y1 y2 y3 y4 y5 y6 => hk s y0 s.mbxs s.ops s.nextOp y1 y2 y3 y4 y5 y6) r s) r s)

theorem execQkSlotGet_keeps {β : Type} (P : State → β) (hk : ∀ (s : State) x0 x1 x2 x3 x4 x5 x6, P { s with out := x0, mbxs := x1, ops := x2, nextOp := x3, evt := x4, bkp := x5, slate := x6 } = P s)
    (r : Req) (s : State) (s' : State) (e : execQkSlotGet r s = .next s') : P s' = P s :=
  (congrArg P (Host.Outcome.next.inj e)).symm.trans (serve_keeps P (fun s y0 y1 y2 y3 y4 y5 y6 => hk s y0 y1 y2 y3 y4 y5 y6) qkSlotGetService (fun _ r s => qkSlotGet_keeps P r s) r s)

theorem execQkEpLoad_keeps {β : Type} (P : State → β) (hk : ∀ (s : State) x0 x1 x2 x3 x4 x5 x6 x7 x8 x9 x10 x11, P { s with out := x0, mbxs := x1, ops := x2, nextOp := x3, evt := x4, bkp := x5, eps := x6, blobs := x7, slots := x8, keys := x9, slate := x10, life := x11 } = P s)
    (r : Req) (s : State) (s' : State) (e : execQkEpLoad r s = .next s') : P s' = P s :=
  (congrArg P (Host.Outcome.next.inj e)).symm.trans (serve_keeps P (fun s y0 y1 y2 y3 y4 y5 y6 => hk s y0 y1 y2 y3 y4 y5 s.eps s.blobs s.slots s.keys y6 s.life) qkEpLoadService (fun _ r s => qkEpLoad_keeps P (fun s y0 y1 y2 y3 y4 y5 y6 y7 y8 => hk s y0 s.mbxs s.ops s.nextOp y1 y2 y3 y4 y5 y6 y7 y8) r s) r s)

theorem execQkEpClear_keeps {β : Type} (P : State → β) (hk : ∀ (s : State) x0 x1 x2 x3 x4 x5 x6 x7 x8, P { s with out := x0, mbxs := x1, ops := x2, nextOp := x3, evt := x4, bkp := x5, eps := x6, blobs := x7, slate := x8 } = P s)
    (r : Req) (s : State) (s' : State) (e : execQkEpClear r s = .next s') : P s' = P s :=
  (congrArg P (Host.Outcome.next.inj e)).symm.trans (serve_keeps P (fun s y0 y1 y2 y3 y4 y5 y6 => hk s y0 y1 y2 y3 y4 y5 s.eps s.blobs y6) qkEpClearService (fun _ r s => qkEpClear_keeps P (fun s y0 y1 => hk s s.out s.mbxs s.ops s.nextOp s.evt s.bkp y0 y1 s.slate) r s) r s)

theorem execQkRewrap_keeps {β : Type} (P : State → β) (hk : ∀ (s : State) x0 x1 x2 x3 x4 x5 x6 x7 x8, P { s with out := x0, mbxs := x1, ops := x2, nextOp := x3, evt := x4, bkp := x5, keys := x6, slate := x7, maint := x8 } = P s)
    (r : Req) (s : State) (s' : State) (e : execQkRewrap r s = .next s') : P s' = P s :=
  (congrArg P (Host.Outcome.next.inj e)).symm.trans (serve_keeps P (fun s y0 y1 y2 y3 y4 y5 y6 => hk s y0 y1 y2 y3 y4 y5 s.keys y6 s.maint) qkRewrapService (qkRewrap_keeps P (fun s y0 y1 => hk s s.out s.mbxs s.ops s.nextOp s.evt s.bkp y0 s.slate y1)) r s)

theorem execRewrapWalk_keeps {β : Type} (P : State → β) (hk : ∀ (s : State) x0 x1 x2 x3 x4 x5 x6 x7 x8 x9 x10 x11 x12 x13, P { s with now := x0, mono := x1, out := x2, mbxs := x3, ops := x4, evt := x5, bkp := x6, eps := x7, blobs := x8, slots := x9, keys := x10, slate := x11, life := x12, maint := x13 } = P s)
    (s : State) (s' : State) (e : execRewrapWalk s = .next s') : P s' = P s :=
  (congrArg P (Host.Outcome.next.inj e)).symm.trans (rewrapWalk_keeps P (fun s y0 y1 y2 y3 y4 y5 y6 y7 y8 y9 y10 y11 y12 y13 => hk s y0 y1 y2 y3 y4 y5 y6 y7 y8 y9 y10 y11 y12 y13) s)

theorem execQkAttest_keeps {β : Type} (P : State → β) (hk : ∀ (s : State) x0 x1 x2 x3 x4 x5 x6 x7 x8 x9 x10, P { s with freeCtr := x0, out := x1, mbxs := x2, ops := x3, nextOp := x4, evt := x5, bkp := x6, slots := x7, keys := x8, slate := x9, life := x10 } = P s)
    (r : Req) (s : State) (s' : State) (e : execQkAttest r s = .next s') : P s' = P s :=
  (congrArg P (Host.Outcome.next.inj e)).symm.trans (serve_keeps P (fun s y0 y1 y2 y3 y4 y5 y6 => hk s s.freeCtr y0 y1 y2 y3 y4 y5 s.slots s.keys y6 s.life) qkAttestService (fun _ r s => qkAttest_keeps P (fun s y0 y1 y2 y3 y4 y5 y6 y7 => hk s y0 y1 s.mbxs s.ops s.nextOp y2 y3 y4 y5 y6 y7) r s) r s)

theorem execQkCertGet_keeps {β : Type} (P : State → β) (hk : ∀ (s : State) x0 x1 x2 x3 x4 x5 x6, P { s with out := x0, mbxs := x1, ops := x2, nextOp := x3, evt := x4, bkp := x5, slate := x6 } = P s)
    (r : Req) (s : State) (s' : State) (e : execQkCertGet r s = .next s') : P s' = P s :=
  (congrArg P (Host.Outcome.next.inj e)).symm.trans (serve_keeps P (fun s y0 y1 y2 y3 y4 y5 y6 => hk s y0 y1 y2 y3 y4 y5 y6) qkCertGetService (fun _ r s => qkCertGet_keeps P r s) r s)

theorem execQkStatusGet_keeps {β : Type} (P : State → β) (hk : ∀ (s : State) x0 x1 x2 x3 x4 x5 x6, P { s with out := x0, mbxs := x1, ops := x2, nextOp := x3, evt := x4, bkp := x5, slate := x6 } = P s)
    (r : Req) (s : State) (s' : State) (e : execQkStatusGet r s = .next s') : P s' = P s :=
  (congrArg P (Host.Outcome.next.inj e)).symm.trans (serve_keeps P (fun s y0 y1 y2 y3 y4 y5 y6 => hk s y0 y1 y2 y3 y4 y5 y6) qkStatusGetService (fun _ _ _ => rfl) r s)

theorem execDrbgReseed_keeps {β : Type} (P : State → β) (hk : ∀ (s : State) x0 x1 x2 x3 x4 x5 x6 x7 x8, P { s with now := x0, mono := x1, freeCtr := x2, out := x3, evt := x4, bkp := x5, dir := x6, keys := x7, slate := x8 } = P s)
    (pass : Bool) (s : State) (s' : State) (e : execDrbgReseed pass s = .next s') : P s' = P s :=
  (congrArg P (Host.Outcome.next.inj e)).symm.trans (drbgReseed_keeps P (fun s y0 y1 y2 y3 y4 y5 y6 y7 y8 => hk s y0 y1 y2 y3 y4 y5 y6 y7 y8) pass s)

theorem execRecordWrite_keeps {β : Type} (P : State → β) (hk : ∀ (s : State) x0 x1 x2 x3 x4 x5 x6 x7 x8, P { s with out := x0, mbxs := x1, ops := x2, evt := x3, bkp := x4, chans := x5, slateNv := x6, slate := x7, life := x8 } = P s)
    (failed : List Nat) (s : State) (s' : State) (e : execRecordWrite failed s = .next s') : P s' = P s :=
  (congrArg P (Host.Outcome.next.inj e)).symm.trans (recordWrite_keeps P (fun s y0 y1 y2 y3 y4 y5 y6 y7 y8 => hk s y0 y1 y2 y3 y4 y5 y6 y7 y8) failed s)

theorem execTokenRefill_keeps {β : Type} (P : State → β) (hk : ∀ (s : State) x0 x1 x2, P { s with now := x0, mono := x1, slate := x2 } = P s)
    (code : Nat) (s : State) (s' : State) (e : execTokenRefill code s = .next s') : P s' = P s :=
  (congrArg P (Host.Outcome.next.inj e)).symm.trans (tokenRefill_keeps P (fun s y0 y1 y2 => hk s y0 y1 y2) code s)

theorem execCheckpointWrite_keeps {β : Type} (P : State → β) (hk : ∀ (s : State) x0 x1 x2 x3 x4 x5 x6 x7 x8 x9 x10, P { s with now := x0, mono := x1, out := x2, mbxs := x3, ops := x4, evt := x5, bkp := x6, chans := x7, slateNv := x8, slate := x9, life := x10 } = P s)
    (fails : Nat) (s : State) (s' : State) (e : execCheckpointWrite fails s = .next s') : P s' = P s :=
  (congrArg P (Host.Outcome.next.inj e)).symm.trans (checkpointWrite_keeps P (fun s y0 y1 y2 y3 y4 y5 y6 y7 y8 y9 y10 => hk s y0 y1 y2 y3 y4 y5 y6 y7 y8 y9 y10) fails s)

theorem execEnvmScrub_keeps {β : Type} (P : State → β) (hk : ∀ (s : State) x0 x1 x2 x3 x4 x5, P { s with out := x0, evt := x1, bkp := x2, slateNv := x3, slate := x4, maint := x5 } = P s)
    (res : EnvmScrubIn) (s : State) (s' : State) (e : execEnvmScrub res s = .next s') : P s' = P s :=
  (congrArg P (Host.Outcome.next.inj e)).symm.trans (envmScrub_keeps P (fun s y0 y1 y2 y3 y4 y5 => hk s y0 y1 y2 y3 y4 y5) res s)

theorem execSlateRead_keeps {β : Type} (P : State → β) (hk : ∀ (s : State) x0 x1 x2 x3 x4 x5 x6, P { s with out := x0, mbxs := x1, ops := x2, nextOp := x3, evt := x4, bkp := x5, slate := x6 } = P s)
    (r : Req) (s : State) (s' : State) (e : execSlateRead r s = .next s') : P s' = P s :=
  (congrArg P (Host.Outcome.next.inj e)).symm.trans (serve_keeps P (fun s y0 y1 y2 y3 y4 y5 y6 => hk s y0 y1 y2 y3 y4 y5 y6) slateReadService (fun _ r s => slateRead_keeps P (fun s y0 => hk s s.out s.mbxs s.ops s.nextOp s.evt s.bkp y0) r s) r s)

theorem execSlateDump_keeps {β : Type} (P : State → β) (hk : ∀ (s : State) x0 x1 x2 x3 x4 x5 x6 x7, P { s with out := x0, mbxs := x1, ops := x2, nextOp := x3, evt := x4, bkp := x5, chans := x6, slate := x7 } = P s)
    (r : Req) (s : State) (s' : State) (e : execSlateDump r s = .next s') : P s' = P s :=
  (congrArg P (Host.Outcome.next.inj e)).symm.trans (serve_keeps P (fun s y0 y1 y2 y3 y4 y5 y6 => hk s y0 y1 y2 y3 y4 y5 s.chans y6) slateDumpService (slateDump_keeps P (fun s y0 y1 => hk s s.out s.mbxs s.ops s.nextOp s.evt s.bkp y0 y1)) r s)

theorem execSlateStatusGet_keeps {β : Type} (P : State → β) (hk : ∀ (s : State) x0 x1 x2 x3 x4 x5 x6, P { s with out := x0, mbxs := x1, ops := x2, nextOp := x3, evt := x4, bkp := x5, slate := x6 } = P s)
    (r : Req) (s : State) (s' : State) (e : execSlateStatusGet r s = .next s') : P s' = P s :=
  (congrArg P (Host.Outcome.next.inj e)).symm.trans (serve_keeps P (fun s y0 y1 y2 y3 y4 y5 y6 => hk s y0 y1 y2 y3 y4 y5 y6) slateStatusGetService (fun _ _ _ => rfl) r s)

theorem execSlateCodeGet_keeps {β : Type} (P : State → β) (hk : ∀ (s : State) x0 x1 x2 x3 x4 x5 x6, P { s with out := x0, mbxs := x1, ops := x2, nextOp := x3, evt := x4, bkp := x5, slate := x6 } = P s)
    (r : Req) (s : State) (s' : State) (e : execSlateCodeGet r s = .next s') : P s' = P s :=
  (congrArg P (Host.Outcome.next.inj e)).symm.trans (serve_keeps P (fun s y0 y1 y2 y3 y4 y5 y6 => hk s y0 y1 y2 y3 y4 y5 y6) slateCodeGetService (fun _ r s => slateCodeGet_keeps P r s) r s)

theorem execSlateRecfClear_keeps {β : Type} (P : State → β) (hk : ∀ (s : State) x0 x1 x2 x3 x4 x5 x6, P { s with out := x0, mbxs := x1, ops := x2, nextOp := x3, evt := x4, bkp := x5, slate := x6 } = P s)
    (r : Req) (s : State) (s' : State) (e : execSlateRecfClear r s = .next s') : P s' = P s :=
  (congrArg P (Host.Outcome.next.inj e)).symm.trans (serve_keeps P (fun s y0 y1 y2 y3 y4 y5 y6 => hk s y0 y1 y2 y3 y4 y5 y6) slateRecfClearService (fun _ _ s => slateRecfClear_keeps P (fun s y0 => hk s s.out s.mbxs s.ops s.nextOp s.evt y0 s.slate) s) r s)

theorem execRtcTick_keeps {β : Type} (P : State → β) (hk : ∀ (s : State) x0 x1 x2 x3 x4 x5 x6 x7, P { s with now := x0, mono := x1, tickAt := x2, timeLoaded := x3, trustSeen := x4, out := x5, evt := x6, bkp := x7 } = P s)
    (s : State) (s' : State) (e : execRtcTick s = .next s') : P s' = P s :=
  (congrArg P (Host.Outcome.next.inj e)).symm.trans (rtcTick_keeps P (fun s y0 y1 y2 y3 y4 y5 y6 y7 => hk s y0 y1 y2 y3 y4 y5 y6 y7) s)

theorem execRtcRegRead_keeps {β : Type} (P : State → β) (hk : ∀ (s : State) x0, P { s with bkp := x0 } = P s)
    (reg : Nat) (s : State) (s' : State) (e : execRtcRegRead reg s = .next s') : P s' = P s :=
  (congrArg P (Host.Outcome.next.inj e)).symm.trans (rtcRegRead_keeps P (fun s y0 => hk s y0) reg s)

theorem execRtcYearRead_keeps {β : Type} (P : State → β) (hk : ∀ (s : State) x0, P { s with bkp := x0 } = P s)
    (s : State) (s' : State) (e : execRtcYearRead s = .next s') : P s' = P s :=
  (congrArg P (Host.Outcome.next.inj e)).symm.trans (rtcYearRead_keeps P (fun s y0 => hk s y0) s)

theorem execRtcShadowTimeout_keeps {β : Type} (P : State → β) (hk : ∀ (s : State) x0 x1 x2, P { s with now := x0, mono := x1, bkp := x2 } = P s)
    (s : State) (s' : State) (e : execRtcShadowTimeout s = .next s') : P s' = P s :=
  (congrArg P (Host.Outcome.next.inj e)).symm.trans (rtcShadowTimeout_keeps P (fun s y0 y1 y2 => hk s y0 y1 y2) s)

theorem execRtcRegWrite_keeps {β : Type} (P : State → β) (hk : ∀ (s : State) x0 x1 x2 x3 x4 x5 x6 x7 x8 x9 x10 x11 x12, P { s with now := x0, tickAt := x1, trustSeen := x2, out := x3, evt := x4, bkp := x5, jnv := x6, jnl := x7, prov := x8, roots := x9, ledger := x10, bal := x11, life := x12 } = P s)
    (reg v : Nat) (s : State) (s' : State) (e : execRtcRegWrite reg v s = .next s') : P s' = P s :=
  (congrArg P (Host.Outcome.next.inj e)).symm.trans (rtcRegWrite_keeps P (fun s y0 y1 y2 y3 y4 y5 y6 y7 y8 y9 y10 y11 y12 => hk s y0 y1 y2 y3 y4 y5 y6 y7 y8 y9 y10 y11 y12) reg v s)

theorem execRtcYearWrite_keeps {β : Type} (P : State → β) (hk : ∀ (s : State) x0 x1 x2 x3 x4 x5 x6 x7 x8 x9 x10 x11 x12, P { s with now := x0, tickAt := x1, trustSeen := x2, out := x3, evt := x4, bkp := x5, jnv := x6, jnl := x7, prov := x8, roots := x9, ledger := x10, bal := x11, life := x12 } = P s)
    (v : Nat) (s : State) (s' : State) (e : execRtcYearWrite v s = .next s') : P s' = P s :=
  (congrArg P (Host.Outcome.next.inj e)).symm.trans (rtcYearWrite_keeps P (fun s y0 y1 y2 y3 y4 y5 y6 y7 y8 y9 y10 y11 y12 => hk s y0 y1 y2 y3 y4 y5 y6 y7 y8 y9 y10 y11 y12) v s)

theorem execWriteSetTimeout_keeps {β : Type} (P : State → β) (hk : ∀ (s : State) x0 x1 x2, P { s with now := x0, mono := x1, bkp := x2 } = P s)
    (s : State) (s' : State) (e : execWriteSetTimeout s = .next s') : P s' = P s :=
  (congrArg P (Host.Outcome.next.inj e)).symm.trans (writeSetTimeout_keeps P (fun s y0 y1 y2 => hk s y0 y1 y2) s)

theorem execSupplyToVbat_keeps {β : Type} (P : State → β) (hk : ∀ (s : State) x0, P { s with bkp := x0 } = P s)
    (s : State) (s' : State) (e : execSupplyToVbat s = .next s') : P s' = P s :=
  (congrArg P (Host.Outcome.next.inj e)).symm.trans (supplyToVbat_keeps P (fun s y0 => hk s y0) s)

theorem execSupplyToMain_keeps {β : Type} (P : State → β) (hk : ∀ (s : State) x0, P { s with bkp := x0 } = P s)
    (s : State) (s' : State) (e : execSupplyToMain s = .next s') : P s' = P s :=
  (congrArg P (Host.Outcome.next.inj e)).symm.trans (supplyToMain_keeps P (fun s y0 => hk s y0) s)

theorem execLbvMeasure_keeps {β : Type} (P : State → β) (hk : ∀ (s : State) x0 x1 x2 x3 x4, P { s with now := x0, mono := x1, out := x2, evt := x3, bkp := x4 } = P s)
    (volts mv : Nat) (s : State) (s' : State) (e : execLbvMeasure volts mv s = .next s') : P s' = P s :=
  (congrArg P (Host.Outcome.next.inj e)).symm.trans (lbvMeasure_keeps P (fun s y0 y1 y2 y3 y4 => hk s y0 y1 y2 y3 y4) (1000 * volts + mv) s)

theorem execRetentionLoss_keeps {β : Type} (P : State → β) (hk : ∀ (s : State) x0 x1 x2 x3, P { s with trustSeen := x0, out := x1, evt := x2, bkp := x3 } = P s)
    (s : State) (s' : State) (e : execRetentionLoss s = .next s') : P s' = P s :=
  (congrArg P (Host.Outcome.next.inj e)).symm.trans (retentionLoss_keeps P (fun s y0 y1 y2 y3 => hk s y0 y1 y2 y3) s)

theorem execOscStop_keeps {β : Type} (P : State → β) (hk : ∀ (s : State) x0 x1 x2 x3, P { s with trustSeen := x0, out := x1, evt := x2, bkp := x3 } = P s)
    (s : State) (s' : State) (e : execOscStop s = .next s') : P s' = P s :=
  (congrArg P (Host.Outcome.next.inj e)).symm.trans (oscStop_keeps P (fun s y0 y1 y2 y3 => hk s y0 y1 y2 y3) s)

theorem execPorBkp_keeps {β : Type} (P : State → β) (hk : ∀ (s : State) x0 x1 x2 x3, P { s with trustSeen := x0, out := x1, evt := x2, bkp := x3 } = P s)
    (s : State) (s' : State) (e : execPorBkp s = .next s') : P s' = P s :=
  (congrArg P (Host.Outcome.next.inj e)).symm.trans (porBkp_keeps P (fun s y0 y1 y2 y3 => hk s y0 y1 y2 y3) s)

theorem execTamperActivation_keeps {β : Type} (P : State → β) (hk : ∀ (s : State) x0 x1 x2 x3 x4, P { s with out := x0, evt := x1, bkp := x2, slate := x3, life := x4 } = P s)
    (x : TamperIn) (s : State) (s' : State) (e : execTamperActivation x s = .next s') : P s' = P s :=
  (congrArg P (Host.Outcome.next.inj e)).symm.trans (tamperActivation_keeps P (fun s y0 y1 y2 y3 y4 => hk s y0 y1 y2 y3 y4) x.input x.active s)

theorem execPwronOff_keeps {β : Type} (P : State → β) (hk : ∀ (s : State) x0 x1 x2, P { s with now := x0, mono := x1, bkp := x2 } = P s)
    (s : State) (s' : State) (e : execPwronOff s = .next s') : P s' = P s :=
  (congrArg P (Host.Outcome.next.inj e)).symm.trans (pwronOff_keeps P (fun s y0 y1 y2 => hk s y0 y1 y2) s)

theorem execTimeGet_keeps {β : Type} (P : State → β) (hk : ∀ (s : State) x0 x1 x2 x3 x4 x5 x6, P { s with out := x0, mbxs := x1, ops := x2, nextOp := x3, evt := x4, bkp := x5, slate := x6 } = P s)
    (r : Req) (s : State) (s' : State) (e : execTimeGet r s = .next s') : P s' = P s :=
  (congrArg P (Host.Outcome.next.inj e)).symm.trans (serve_keeps P (fun s y0 y1 y2 y3 y4 y5 y6 => hk s y0 y1 y2 y3 y4 y5 y6) timeGetService (fun _ _ s => timeGet_keeps P s) r s)

theorem execTimeSet_keeps {β : Type} (P : State → β) (hk : ∀ (s : State) x0 x1 x2 x3 x4 x5 x6 x7 x8 x9 x10 x11 x12 x13 x14 x15 x16 x17, P { s with now := x0, tickAt := x1, timeLoaded := x2, trustSeen := x3, out := x4, mbxs := x5, ops := x6, nextOp := x7, evt := x8, bkp := x9, jnv := x10, jnl := x11, prov := x12, roots := x13, ledger := x14, bal := x15, slate := x16, life := x17 } = P s)
    (r : Req) (s : State) (s' : State) (e : execTimeSet r s = .next s') : P s' = P s :=
  (congrArg P (Host.Outcome.next.inj e)).symm.trans (serve_keeps P (fun s y0 y1 y2 y3 y4 y5 y6 => hk s s.now s.tickAt s.timeLoaded s.trustSeen y0 y1 y2 y3 y4 y5 s.jnv s.jnl s.prov s.roots s.ledger s.bal y6 s.life) timeSetService (fun _ r s => timeSet_keeps P (fun s y0 y1 y2 y3 y4 y5 y6 y7 y8 y9 y10 y11 y12 y13 => hk s y0 y1 y2 y3 y4 s.mbxs s.ops s.nextOp y5 y6 y7 y8 y9 y10 y11 y12 s.slate y13) r s) r s)

theorem execTimeTrimSet_keeps {β : Type} (P : State → β) (hk : ∀ (s : State) x0 x1 x2 x3 x4 x5 x6, P { s with out := x0, mbxs := x1, ops := x2, nextOp := x3, evt := x4, bkp := x5, slate := x6 } = P s)
    (r : Req) (s : State) (s' : State) (e : execTimeTrimSet r s = .next s') : P s' = P s :=
  (congrArg P (Host.Outcome.next.inj e)).symm.trans (serve_keeps P (fun s y0 y1 y2 y3 y4 y5 y6 => hk s y0 y1 y2 y3 y4 y5 y6) timeTrimSetService (fun _ r s => timeTrimSet_keeps P (fun s y0 => hk s s.out s.mbxs s.ops s.nextOp s.evt y0 s.slate) r s) r s)

theorem execAlarmSet_keeps {β : Type} (P : State → β) (hk : ∀ (s : State) x0 x1 x2 x3 x4 x5 x6, P { s with out := x0, mbxs := x1, ops := x2, nextOp := x3, evt := x4, bkp := x5, slate := x6 } = P s)
    (r : Req) (s : State) (s' : State) (e : execAlarmSet r s = .next s') : P s' = P s :=
  (congrArg P (Host.Outcome.next.inj e)).symm.trans (serve_keeps P (fun s y0 y1 y2 y3 y4 y5 y6 => hk s y0 y1 y2 y3 y4 y5 y6) alarmSetService (fun _ r s => alarmSet_keeps P (fun s y0 => hk s s.out s.mbxs s.ops s.nextOp s.evt y0 s.slate) r s) r s)

theorem execAlarmGet_keeps {β : Type} (P : State → β) (hk : ∀ (s : State) x0 x1 x2 x3 x4 x5 x6, P { s with out := x0, mbxs := x1, ops := x2, nextOp := x3, evt := x4, bkp := x5, slate := x6 } = P s)
    (r : Req) (s : State) (s' : State) (e : execAlarmGet r s = .next s') : P s' = P s :=
  (congrArg P (Host.Outcome.next.inj e)).symm.trans (serve_keeps P (fun s y0 y1 y2 y3 y4 y5 y6 => hk s y0 y1 y2 y3 y4 y5 y6) alarmGetService (fun _ r s => alarmGet_keeps P r s) r s)

theorem execPowerOff_keeps {β : Type} (P : State → β) (hk : ∀ (s : State) x0 x1 x2 x3 x4 x5 x6, P { s with out := x0, mbxs := x1, ops := x2, nextOp := x3, evt := x4, bkp := x5, slate := x6 } = P s)
    (r : Req) (s : State) (s' : State) (e : execPowerOff r s = .next s') : P s' = P s :=
  (congrArg P (Host.Outcome.next.inj e)).symm.trans (serve_keeps P (fun s y0 y1 y2 y3 y4 y5 y6 => hk s y0 y1 y2 y3 y4 y5 y6) powerOffService (fun _ _ s => powerOff_keeps P (fun s y0 => hk s s.out s.mbxs s.ops s.nextOp s.evt y0 s.slate) s) r s)

theorem execTamperCfgSet_keeps {β : Type} (P : State → β) (hk : ∀ (s : State) x0 x1 x2 x3 x4 x5 x6, P { s with out := x0, mbxs := x1, ops := x2, nextOp := x3, evt := x4, bkp := x5, slate := x6 } = P s)
    (r : Req) (s : State) (s' : State) (e : execTamperCfgSet r s = .next s') : P s' = P s :=
  (congrArg P (Host.Outcome.next.inj e)).symm.trans (serve_keeps P (fun s y0 y1 y2 y3 y4 y5 y6 => hk s y0 y1 y2 y3 y4 y5 y6) tamperCfgSetService (fun _ r s => tamperCfgSet_keeps P (fun s y0 => hk s s.out s.mbxs s.ops s.nextOp s.evt y0 s.slate) r s) r s)

theorem execTamperGet_keeps {β : Type} (P : State → β) (hk : ∀ (s : State) x0 x1 x2 x3 x4 x5 x6, P { s with out := x0, mbxs := x1, ops := x2, nextOp := x3, evt := x4, bkp := x5, slate := x6 } = P s)
    (r : Req) (s : State) (s' : State) (e : execTamperGet r s = .next s') : P s' = P s :=
  (congrArg P (Host.Outcome.next.inj e)).symm.trans (serve_keeps P (fun s y0 y1 y2 y3 y4 y5 y6 => hk s y0 y1 y2 y3 y4 y5 y6) tamperGetService (fun _ _ s => tamperGet_keeps P s) r s)

theorem execTamperClear_keeps {β : Type} (P : State → β) (hk : ∀ (s : State) x0 x1 x2 x3 x4 x5 x6 x7, P { s with out := x0, mbxs := x1, ops := x2, nextOp := x3, evt := x4, bkp := x5, slate := x6, life := x7 } = P s)
    (r : Req) (s : State) (s' : State) (e : execTamperClear r s = .next s') : P s' = P s :=
  (congrArg P (Host.Outcome.next.inj e)).symm.trans (serve_keeps P (fun s y0 y1 y2 y3 y4 y5 y6 => hk s y0 y1 y2 y3 y4 y5 y6 s.life) tamperClearService (fun _ r s => tamperClear_keeps P (fun s y0 y1 y2 y3 y4 => hk s y0 s.mbxs s.ops s.nextOp y1 y2 y3 y4) r s) r s)

theorem execMirRefresh_keeps {β : Type} (P : State → β) (hk : ∀ (s : State) x0, P { s with mir := x0 } = P s)
    (s : State) (s' : State) (e : execMirRefresh s = .next s') : P s' = P s :=
  (congrArg P (Host.Outcome.next.inj e)).symm.trans (mirRefresh_keeps P (fun s y0 => hk s y0) s)

theorem execMirCalRead_keeps {β : Type} (P : State → β) (hk : ∀ (s : State) x0 x1, P { s with glb := x0, mir := x1 } = P s)
    (reg : Nat) (s : State) (s' : State) (e : execMirCalRead reg s = .next s') : P s' = P s :=
  (congrArg P (Host.Outcome.next.inj e)).symm.trans (mirCalRead_keeps P (fun s y0 y1 => hk s y0 y1) reg s)

theorem execMirYearRead_keeps {β : Type} (P : State → β) (hk : ∀ (s : State) x0 x1, P { s with glb := x0, mir := x1 } = P s)
    (s : State) (s' : State) (e : execMirYearRead s = .next s') : P s' = P s :=
  (congrArg P (Host.Outcome.next.inj e)).symm.trans (mirYearRead_keeps P (fun s y0 y1 => hk s y0 y1) s)

theorem execMirShadowTimeout_keeps {β : Type} (P : State → β) (hk : ∀ (s : State) x0 x1 x2, P { s with now := x0, mono := x1, mir := x2 } = P s)
    (s : State) (s' : State) (e : execMirShadowTimeout s = .next s') : P s' = P s :=
  (congrArg P (Host.Outcome.next.inj e)).symm.trans (mirShadowTimeout_keeps P (fun s y0 y1 y2 => hk s y0 y1 y2) s)

theorem execPorMainAssert_keeps {β : Type} (P : State → β) (hk : ∀ (s : State) x0 x1 x2 x3 x4 x5 x6 x7 x8 x9 x10 x11 x12 x13 x14 x15 x16 x17 x18 x19 x20 x21 x22 x23 x24 x25 x26 x27 x28 x29 x30 x31 x32 x33 x34 x35 x36 x37 x38 x39 x40 x41 x42 x43 x44, P { s with timeLoaded := x0, trustSeen := x1, out := x2, cfg := x3, mbxs := x4, rrNext := x5, ops := x6, evt := x7, glb := x8, mir := x9, isl := x10, links := x11, boot := x12, pcie := x13, mon := x14, bkp := x15, rf := x16, lanes := x17, laneCount := x18, roles := x19, rot := x20, sectors := x21, duty := x22, plc := x23, plcMac := x24, dir := x25, eps := x26, blobs := x27, mem := x28, xlate := x29, chans := x30, jnl := x31, prov := x32, ledger := x33, bal := x34, camps := x35, confUnmatched := x36, slots := x37, keys := x38, slate := x39, life := x40, fw := x41, safe := x42, faultTimes := x43, maint := x44 } = P s)
    (s : State) (s' : State) (e : execPorMainAssert s = .next s') : P s' = P s :=
  (congrArg P (Host.Outcome.next.inj e)).symm.trans (porAssert_keeps P (fun s y0 y1 y2 y3 y4 y5 y6 y7 y8 y9 y10 y11 y12 y13 y14 y15 y16 y17 y18 y19 y20 y21 y22 y23 y24 y25 y26 y27 y28 y29 y30 y31 y32 y33 y34 y35 y36 y37 y38 y39 y40 y41 y42 y43 y44 => hk s y0 y1 y2 y3 y4 y5 y6 y7 y8 y9 y10 y11 y12 y13 y14 y15 y16 y17 y18 y19 y20 y21 y22 y23 y24 y25 y26 y27 y28 y29 y30 y31 y32 y33 y34 y35 y36 y37 y38 y39 y40 y41 y42 y43 y44) s)

theorem execPorMainRelease_keeps {β : Type} (P : State → β) (hk : ∀ (s : State) x0, P { s with boot := x0 } = P s)
    (s : State) (s' : State) (e : execPorMainRelease s = .next s') : P s' = P s :=
  (congrArg P (Host.Outcome.next.inj e)).symm.trans (porRelease_keeps P (fun s y0 => hk s y0) s)

theorem execNresetAssert_keeps {β : Type} (P : State → β) (hk : ∀ (s : State) x0 x1 x2 x3 x4 x5 x6 x7 x8 x9 x10 x11 x12 x13 x14 x15 x16 x17 x18 x19 x20 x21 x22 x23 x24 x25 x26 x27 x28 x29 x30 x31 x32 x33 x34 x35 x36 x37 x38 x39 x40 x41 x42 x43 x44, P { s with timeLoaded := x0, trustSeen := x1, out := x2, cfg := x3, mbxs := x4, rrNext := x5, ops := x6, evt := x7, glb := x8, mir := x9, isl := x10, links := x11, boot := x12, pcie := x13, mon := x14, bkp := x15, rf := x16, lanes := x17, laneCount := x18, roles := x19, rot := x20, sectors := x21, duty := x22, plc := x23, plcMac := x24, dir := x25, eps := x26, blobs := x27, mem := x28, xlate := x29, chans := x30, jnl := x31, prov := x32, ledger := x33, bal := x34, camps := x35, confUnmatched := x36, slots := x37, keys := x38, slate := x39, life := x40, fw := x41, safe := x42, faultTimes := x43, maint := x44 } = P s)
    (s : State) (s' : State) (e : execNresetAssert s = .next s') : P s' = P s :=
  (congrArg P (Host.Outcome.next.inj e)).symm.trans (nresetAssert_keeps P (fun s y0 y1 y2 y3 y4 y5 y6 y7 y8 y9 y10 y11 y12 y13 y14 y15 y16 y17 y18 y19 y20 y21 y22 y23 y24 y25 y26 y27 y28 y29 y30 y31 y32 y33 y34 y35 y36 y37 y38 y39 y40 y41 y42 y43 y44 => hk s y0 y1 y2 y3 y4 y5 y6 y7 y8 y9 y10 y11 y12 y13 y14 y15 y16 y17 y18 y19 y20 y21 y22 y23 y24 y25 y26 y27 y28 y29 y30 y31 y32 y33 y34 y35 y36 y37 y38 y39 y40 y41 y42 y43 y44) s)

theorem execNresetRelease_keeps {β : Type} (P : State → β) (hk : ∀ (s : State) x0, P { s with boot := x0 } = P s)
    (s : State) (s' : State) (e : execNresetRelease s = .next s') : P s' = P s :=
  (congrArg P (Host.Outcome.next.inj e)).symm.trans (nresetRelease_keeps P (fun s y0 => hk s y0) s)

theorem execPerstNAssert_keeps {β : Type} (P : State → β) (hk : ∀ (s : State) x0 x1, P { s with boot := x0, pcie := x1 } = P s)
    (s : State) (s' : State) (e : execPerstNAssert s = .next s') : P s' = P s :=
  (congrArg P (Host.Outcome.next.inj e)).symm.trans (perstAssert_keeps P (fun s y0 y1 => hk s y0 y1) s)

theorem execWdtExpiry_keeps {β : Type} (P : State → β) (hk : ∀ (s : State) x0 x1 x2 x3 x4 x5 x6 x7 x8 x9 x10 x11 x12 x13 x14 x15 x16 x17 x18 x19 x20 x21 x22 x23 x24 x25 x26 x27 x28 x29 x30 x31 x32 x33 x34 x35 x36 x37 x38 x39 x40 x41 x42 x43 x44 x45 x46, P { s with now := x0, mono := x1, timeLoaded := x2, trustSeen := x3, out := x4, cfg := x5, mbxs := x6, rrNext := x7, ops := x8, evt := x9, glb := x10, mir := x11, isl := x12, links := x13, boot := x14, pcie := x15, mon := x16, bkp := x17, rf := x18, lanes := x19, laneCount := x20, roles := x21, rot := x22, sectors := x23, duty := x24, plc := x25, plcMac := x26, dir := x27, eps := x28, blobs := x29, mem := x30, xlate := x31, chans := x32, jnl := x33, prov := x34, ledger := x35, bal := x36, camps := x37, confUnmatched := x38, slots := x39, keys := x40, slate := x41, life := x42, fw := x43, safe := x44, faultTimes := x45, maint := x46 } = P s)
    (s : State) (s' : State) (e : execWdtExpiry s = .next s') : P s' = P s :=
  (congrArg P (Host.Outcome.next.inj e)).symm.trans (wdtExpiry_keeps P (fun s y0 y1 y2 y3 y4 y5 y6 y7 y8 y9 y10 y11 y12 y13 y14 y15 y16 y17 y18 y19 y20 y21 y22 y23 y24 y25 y26 y27 y28 y29 y30 y31 y32 y33 y34 y35 y36 y37 y38 y39 y40 y41 y42 y43 y44 y45 y46 => hk s y0 y1 y2 y3 y4 y5 y6 y7 y8 y9 y10 y11 y12 y13 y14 y15 y16 y17 y18 y19 y20 y21 y22 y23 y24 y25 y26 y27 y28 y29 y30 y31 y32 y33 y34 y35 y36 y37 y38 y39 y40 y41 y42 y43 y44 y45 y46) s)

theorem execSysrst_keeps {β : Type} (P : State → β) (hk : ∀ (s : State) x0 x1 x2 x3 x4 x5 x6 x7 x8 x9 x10 x11 x12 x13 x14 x15 x16 x17 x18 x19 x20 x21 x22 x23 x24 x25 x26 x27 x28 x29 x30 x31 x32 x33 x34 x35 x36 x37 x38 x39 x40 x41 x42 x43 x44, P { s with timeLoaded := x0, trustSeen := x1, out := x2, cfg := x3, mbxs := x4, rrNext := x5, ops := x6, evt := x7, glb := x8, mir := x9, isl := x10, links := x11, boot := x12, pcie := x13, mon := x14, bkp := x15, rf := x16, lanes := x17, laneCount := x18, roles := x19, rot := x20, sectors := x21, duty := x22, plc := x23, plcMac := x24, dir := x25, eps := x26, blobs := x27, mem := x28, xlate := x29, chans := x30, jnl := x31, prov := x32, ledger := x33, bal := x34, camps := x35, confUnmatched := x36, slots := x37, keys := x38, slate := x39, life := x40, fw := x41, safe := x42, faultTimes := x43, maint := x44 } = P s)
    (s : State) (s' : State) (e : execSysrst s = .next s') : P s' = P s :=
  (congrArg P (Host.Outcome.next.inj e)).symm.trans (sysrst_keeps P (fun s y0 y1 y2 y3 y4 y5 y6 y7 y8 y9 y10 y11 y12 y13 y14 y15 y16 y17 y18 y19 y20 y21 y22 y23 y24 y25 y26 y27 y28 y29 y30 y31 y32 y33 y34 y35 y36 y37 y38 y39 y40 y41 y42 y43 y44 => hk s y0 y1 y2 y3 y4 y5 y6 y7 y8 y9 y10 y11 y12 y13 y14 y15 y16 y17 y18 y19 y20 y21 y22 y23 y24 y25 y26 y27 y28 y29 y30 y31 y32 y33 y34 y35 y36 y37 y38 y39 y40 y41 y42 y43 y44) s)

theorem execRecorderDrainEnd_keeps {β : Type} (P : State → β) (hk : ∀ (s : State) x0 x1 x2 x3 x4, P { s with out := x0, isl := x1, links := x2, boot := x3, slate := x4 } = P s)
    (s : State) (s' : State) (e : execRecorderDrainEnd s = .next s') : P s' = P s :=
  (congrArg P (Host.Outcome.next.inj e)).symm.trans (drainEnd_keeps P (fun s y0 y1 y2 y3 y4 => hk s y0 y1 y2 y3 y4) s)

theorem execDprst_keeps {β : Type} (P : State → β) (hk : ∀ (s : State) x0 x1 x2 x3 x4 x5 x6 x7 x8 x9 x10 x11 x12 x13 x14 x15 x16 x17 x18 x19 x20 x21 x22 x23 x24 x25 x26 x27, P { s with freeCtr := x0, out := x1, mbxs := x2, ops := x3, evt := x4, isl := x5, links := x6, boot := x7, bkp := x8, rf := x9, lanes := x10, roles := x11, rot := x12, sectors := x13, duty := x14, plc := x15, plcMac := x16, eps := x17, mem := x18, jnv := x19, jnl := x20, prov := x21, roots := x22, camps := x23, slate := x24, life := x25, safe := x26, maint := x27 } = P s)
    (s : State) (s' : State) (e : execDprst s = .next s') : P s' = P s :=
  (congrArg P (Host.Outcome.next.inj e)).symm.trans (dprst_keeps P (fun s y0 y1 y2 y3 y4 y5 y6 y7 y8 y9 y10 y11 y12 y13 y14 y15 y16 y17 y18 y19 y20 y21 y22 y23 y24 y25 y26 y27 => hk s y0 y1 y2 y3 y4 y5 y6 y7 y8 y9 y10 y11 y12 y13 y14 y15 y16 y17 y18 y19 y20 y21 y22 y23 y24 y25 y26 y27) s)

theorem execIslrst_keeps {β : Type} (P : State → β) (hk : ∀ (s : State) x0 x1 x2 x3 x4 x5 x6 x7 x8 x9 x10 x11 x12 x13 x14 x15 x16 x17 x18 x19 x20 x21 x22 x23 x24 x25, P { s with freeCtr := x0, out := x1, mbxs := x2, ops := x3, evt := x4, isl := x5, links := x6, boot := x7, bkp := x8, rf := x9, lanes := x10, laneCount := x11, roles := x12, rot := x13, plc := x14, plcMac := x15, eps := x16, mem := x17, jnv := x18, jnl := x19, prov := x20, roots := x21, camps := x22, slate := x23, life := x24, maint := x25 } = P s)
    (i : Nat) (s : State) (s' : State) (e : execIslrst i s = .next s') : P s' = P s :=
  (congrArg P (Host.Outcome.next.inj e)).symm.trans (islrst_keeps P (fun s y0 y1 y2 y3 y4 y5 y6 y7 y8 y9 y10 y11 y12 y13 y14 y15 y16 y17 y18 y19 y20 y21 y22 y23 y24 y25 => hk s y0 y1 y2 y3 y4 y5 y6 y7 y8 y9 y10 y11 y12 y13 y14 y15 y16 y17 y18 y19 y20 y21 y22 y23 y24 y25) i s)

theorem execResetRequest_keeps {β : Type} (P : State → β) (hk : ∀ (s : State) x0 x1 x2 x3 x4 x5 x6 x7, P { s with out := x0, mbxs := x1, ops := x2, nextOp := x3, evt := x4, boot := x5, bkp := x6, slate := x7 } = P s)
    (r : Req) (s : State) (s' : State) (e : execResetRequest r s = .next s') : P s' = P s :=
  (congrArg P (Host.Outcome.next.inj e)).symm.trans (serve_keeps P (fun s y0 y1 y2 y3 y4 y5 y6 => hk s y0 y1 y2 y3 y4 s.boot y5 y6) resetRequestService (fun _ r s => resetRequest_keeps P (fun s y0 => hk s s.out s.mbxs s.ops s.nextOp s.evt y0 s.bkp s.slate) r s) r s)

theorem execReleaseStageEnd_keeps {β : Type} (P : State → β) (hk : ∀ (s : State) x0 x1 x2 x3 x4 x5 x6 x7 x8 x9 x10 x11 x12 x13, P { s with out := x0, mbxs := x1, ops := x2, evt := x3, isl := x4, links := x5, boot := x6, bkp := x7, rf := x8, plc := x9, slots := x10, keys := x11, slate := x12, life := x13 } = P s)
    (straps : BitVec 4) (opt : OptLoad) (s : State) (s' : State) (e : execReleaseStageEnd straps opt s = .next s') : P s' = P s :=
  (congrArg P (Host.Outcome.next.inj e)).symm.trans (releaseStageEnd_keeps P (fun s y0 y1 y2 y3 y4 y5 y6 y7 y8 y9 y10 y11 y12 y13 => hk s y0 y1 y2 y3 y4 y5 y6 y7 y8 y9 y10 y11 y12 y13) straps opt s)

theorem execGenLockTimeout_keeps {β : Type} (P : State → β) (hk : ∀ (s : State) x0 x1 x2 x3 x4 x5 x6 x7 x8 x9 x10 x11 x12 x13 x14 x15, P { s with freeCtr := x0, out := x1, mbxs := x2, ops := x3, evt := x4, isl := x5, links := x6, bkp := x7, rf := x8, lanes := x9, laneCount := x10, roles := x11, rot := x12, plc := x13, slate := x14, life := x15 } = P s)
    (i : Nat) (s : State) (s' : State) (e : execGenLockTimeout i s = .next s') : P s' = P s :=
  (congrArg P (Host.Outcome.next.inj e)).symm.trans (genLockTimeout_keeps P (fun s y0 y1 y2 y3 y4 y5 y6 y7 y8 y9 y10 y11 y12 y13 y14 y15 => hk s y0 y1 y2 y3 y4 y5 y6 y7 y8 y9 y10 y11 y12 y13 y14 y15) i s)

theorem execSynthLockRetry_keeps {β : Type} (P : State → β) (hk : ∀ (s : State) x0 x1 x2, P { s with now := x0, mono := x1, boot := x2 } = P s)
    (locked : Bool) (s : State) (s' : State) (e : execSynthLockRetry locked s = .next s') : P s' = P s :=
  (congrArg P (Host.Outcome.next.inj e)).symm.trans (synthLockRetry_keeps P (fun s y0 y1 y2 => hk s y0 y1 y2) locked s)

theorem execBootRomVerify_keeps {β : Type} (P : State → β) (hk : ∀ (s : State) x0 x1 x2 x3 x4 x5 x6, P { s with out := x0, evt := x1, boot := x2, bkp := x3, slate := x4, fwNv := x5, fw := x6 } = P s)
    (v : BootVerify) (s : State) (s' : State) (e : execBootRomVerify v s = .next s') : P s' = P s :=
  (congrArg P (Host.Outcome.next.inj e)).symm.trans (bootRomVerify_keeps P (fun s y0 y1 y2 y3 y4 y5 y6 => hk s y0 y1 y2 y3 y4 y5 y6) v s)

theorem execCoreBist_keeps {β : Type} (P : State → β) (hk : ∀ (s : State) x0 x1 x2 x3 x4 x5 x6 x7, P { s with out := x0, evt := x1, boot := x2, bkp := x3, slate := x4, life := x5, safe := x6, faultTimes := x7 } = P s)
    (failed : List Nat) (res : CoreBistIn) (s : State) (s' : State) (e : execCoreBist failed res s = .next s') : P s' = P s :=
  (congrArg P (Host.Outcome.next.inj e)).symm.trans (coreBist_keeps P (fun s y0 y1 y2 y3 y4 y5 y6 y7 => hk s y0 y1 y2 y3 y4 y5 y6 y7) failed res s)

theorem execPcieLinkTrain_keeps {β : Type} (P : State → β) (hk : ∀ (s : State) x0 x1 x2 x3 x4, P { s with out := x0, evt := x1, pcie := x2, bkp := x3, slate := x4 } = P s)
    (width speed : Nat) (s : State) (s' : State) (e : execPcieLinkTrain width speed s = .next s') : P s' = P s :=
  (congrArg P (Host.Outcome.next.inj e)).symm.trans (pcieTrain_keeps P (fun s y0 y1 y2 y3 y4 => hk s y0 y1 y2 y3 y4) width speed s)

theorem execDdrTraining_keeps {β : Type} (P : State → β) (hk : ∀ (s : State) x0 x1 x2 x3 x4 x5 x6, P { s with out := x0, evt := x1, isl := x2, boot := x3, bkp := x4, mem := x5, slate := x6 } = P s)
    (ranks : List RankTrain) (s : State) (s' : State) (e : execDdrTraining ranks s = .next s') : P s' = P s :=
  (congrArg P (Host.Outcome.next.inj e)).symm.trans (ddrTrain_keeps P (fun s y0 y1 y2 y3 y4 y5 y6 => hk s y0 y1 y2 y3 y4 y5 y6) ranks s)

theorem execStartScanReplay_keeps {β : Type} (P : State → β) (hk : ∀ (s : State) x0 x1 x2 x3 x4 x5 x6 x7 x8 x9 x10 x11 x12 x13 x14 x15 x16, P { s with trustSeen := x0, out := x1, mbxs := x2, ops := x3, evt := x4, boot := x5, bkp := x6, rf := x7, chans := x8, jnv := x9, jnl := x10, prov := x11, roots := x12, ledger := x13, slateNv := x14, slate := x15, life := x16 } = P s)
    (s : State) (s' : State) (e : execStartScanReplay s = .next s') : P s' = P s :=
  (congrArg P (Host.Outcome.next.inj e)).symm.trans (startScanReplay_keeps P (fun s y0 y1 y2 y3 y4 y5 y6 y7 y8 y9 y10 y11 y12 y13 y14 y15 y16 => hk s y0 y1 y2 y3 y4 y5 y6 y7 y8 y9 y10 y11 y12 y13 y14 y15 y16) s)

theorem execRfPortTrain_keeps {β : Type} (P : State → β) (hk : ∀ (s : State) x0 x1, P { s with out := x0, rf := x1 } = P s)
    (p : Nat) (s : State) (s' : State) (e : execRfPortTrain p s = .next s') : P s' = P s :=
  (congrArg P (Host.Outcome.next.inj e)).symm.trans (rfTrain_keeps P (fun s y0 y1 => hk s y0 y1) p s)

theorem execRfPortTrainEnd_keeps {β : Type} (P : State → β) (hk : ∀ (s : State) x0 x1 x2 x3 x4 x5 x6 x7 x8, P { s with out := x0, cfg := x1, mbxs := x2, ops := x3, evt := x4, boot := x5, bkp := x6, rf := x7, slate := x8 } = P s)
    (p : Nat) (res : TrainIn) (s : State) (s' : State) (e : execRfPortTrainEnd p res s = .next s') : P s' = P s :=
  (congrArg P (Host.Outcome.next.inj e)).symm.trans (rfTrainEnd_keeps P (fun s y0 y1 y2 y3 y4 y5 y6 y7 y8 => hk s y0 y1 y2 y3 y4 y5 y6 y7 y8) p res s)

theorem execPlcOffsetCal_keeps {β : Type} (P : State → β) (hk : ∀ (s : State) x0 x1 x2 x3, P { s with out := x0, evt := x1, boot := x2, plc := x3 } = P s)
    (offsets : List (Nat × Int × Int)) (s : State) (s' : State) (e : execPlcOffsetCal offsets s = .next s') : P s' = P s :=
  (congrArg P (Host.Outcome.next.inj e)).symm.trans (plcOffsetCal_keeps P (fun s y0 y1 y2 y3 => hk s y0 y1 y2 y3) offsets s)

theorem execDataplaneBist_keeps {β : Type} (P : State → β) (hk : ∀ (s : State) x0 x1 x2 x3 x4 x5 x6 x7 x8, P { s with out := x0, evt := x1, boot := x2, rf := x3, laneCount := x4, roles := x5, rot := x6, plc := x7, life := x8 } = P s)
    (badIslands : List Nat) (lanes : LaneBistIn) (s : State) (s' : State) (e : execDataplaneBist badIslands lanes s = .next s') : P s' = P s :=
  (congrArg P (Host.Outcome.next.inj e)).symm.trans (dataplaneBist_keeps P (fun s y0 y1 y2 y3 y4 y5 y6 y7 y8 => hk s y0 y1 y2 y3 y4 y5 y6 y7 y8) badIslands lanes.lanes lanes.repairs s)

theorem execTrainReportGet_keeps {β : Type} (P : State → β) (hk : ∀ (s : State) x0 x1 x2 x3 x4 x5 x6, P { s with out := x0, mbxs := x1, ops := x2, nextOp := x3, evt := x4, bkp := x5, slate := x6 } = P s)
    (r : Req) (s : State) (s' : State) (e : execTrainReportGet r s = .next s') : P s' = P s :=
  (congrArg P (Host.Outcome.next.inj e)).symm.trans (serve_keeps P (fun s y0 y1 y2 y3 y4 y5 y6 => hk s y0 y1 y2 y3 y4 y5 y6) trainReportGetService (fun _ r s => trainReportGet_keeps P r s) r s)

theorem execFwInfoGet_keeps {β : Type} (P : State → β) (hk : ∀ (s : State) x0 x1 x2 x3 x4 x5 x6, P { s with out := x0, mbxs := x1, ops := x2, nextOp := x3, evt := x4, bkp := x5, slate := x6 } = P s)
    (r : Req) (s : State) (s' : State) (e : execFwInfoGet r s = .next s') : P s' = P s :=
  (congrArg P (Host.Outcome.next.inj e)).symm.trans (serve_keeps P (fun s y0 y1 y2 y3 y4 y5 y6 => hk s y0 y1 y2 y3 y4 y5 y6) fwInfoGetService (fun _ _ _ => rfl) r s)

theorem execFwStageBegin_keeps {β : Type} (P : State → β) (hk : ∀ (s : State) x0 x1 x2 x3 x4 x5 x6 x7 x8, P { s with out := x0, mbxs := x1, ops := x2, nextOp := x3, evt := x4, bkp := x5, slate := x6, fwNv := x7, fw := x8 } = P s)
    (r : Req) (s : State) (s' : State) (e : execFwStageBegin r s = .next s') : P s' = P s :=
  (congrArg P (Host.Outcome.next.inj e)).symm.trans (serve_keeps P (fun s y0 y1 y2 y3 y4 y5 y6 => hk s y0 y1 y2 y3 y4 y5 y6 s.fwNv s.fw) fwStageBeginService (fwStageBegin_keeps P (fun s y0 y1 => hk s s.out s.mbxs s.ops s.nextOp s.evt s.bkp s.slate y0 y1)) r s)

theorem execStagingEraseDone_keeps {β : Type} (P : State → β) (hk : ∀ (s : State) x0 x1 x2 x3 x4 x5 x6, P { s with out := x0, mbxs := x1, ops := x2, evt := x3, bkp := x4, slate := x5, fw := x6 } = P s)
    (s : State) (s' : State) (e : execStagingEraseDone s = .next s') : P s' = P s :=
  (congrArg P (Host.Outcome.next.inj e)).symm.trans (stagingErased_keeps P (fun s y0 y1 y2 y3 y4 y5 y6 => hk s y0 y1 y2 y3 y4 y5 y6) s)

theorem execFwStageWrite_keeps {β : Type} (P : State → β) (hk : ∀ (s : State) x0 x1 x2 x3 x4 x5 x6 x7, P { s with out := x0, mbxs := x1, ops := x2, nextOp := x3, evt := x4, bkp := x5, slate := x6, fw := x7 } = P s)
    (r : Req) (s : State) (s' : State) (e : execFwStageWrite r s = .next s') : P s' = P s :=
  (congrArg P (Host.Outcome.next.inj e)).symm.trans (serve_keeps P (fun s y0 y1 y2 y3 y4 y5 y6 => hk s y0 y1 y2 y3 y4 y5 y6 s.fw) fwStageWriteService (fun _ r s => fwStageWrite_keeps P (fun s y0 => hk s s.out s.mbxs s.ops s.nextOp s.evt s.bkp s.slate y0) r s) r s)

theorem execFwStageCommit_keeps {β : Type} (P : State → β) (hk : ∀ (s : State) x0 x1 x2 x3 x4 x5 x6 x7 x8, P { s with out := x0, mbxs := x1, ops := x2, nextOp := x3, evt := x4, bkp := x5, slate := x6, fwNv := x7, fw := x8 } = P s)
    (r : Req) (s : State) (s' : State) (e : execFwStageCommit r s = .next s') : P s' = P s :=
  (congrArg P (Host.Outcome.next.inj e)).symm.trans (serve_keeps P (fun s y0 y1 y2 y3 y4 y5 y6 => hk s y0 y1 y2 y3 y4 y5 y6 s.fwNv s.fw) fwStageCommitService (fun _ _ s => fwStageCommit_keeps P (fun s y0 y1 y2 y3 => hk s y0 s.mbxs s.ops s.nextOp y1 s.bkp s.slate y2 y3) s) r s)

theorem execFwStageClear_keeps {β : Type} (P : State → β) (hk : ∀ (s : State) x0 x1 x2 x3 x4 x5 x6 x7 x8, P { s with out := x0, mbxs := x1, ops := x2, nextOp := x3, evt := x4, bkp := x5, slate := x6, fwNv := x7, fw := x8 } = P s)
    (r : Req) (s : State) (s' : State) (e : execFwStageClear r s = .next s') : P s' = P s :=
  (congrArg P (Host.Outcome.next.inj e)).symm.trans (serve_keeps P (fun s y0 y1 y2 y3 y4 y5 y6 => hk s y0 y1 y2 y3 y4 y5 y6 s.fwNv s.fw) fwStageClearService (fun _ _ s => fwStageClear_keeps P (fun s y0 y1 => hk s s.out s.mbxs s.ops s.nextOp s.evt s.bkp s.slate y0 y1) s) r s)

theorem execFwPrepare_keeps {β : Type} (P : State → β) (hk : ∀ (s : State) x0 x1 x2 x3 x4 x5 x6 x7 x8, P { s with out := x0, mbxs := x1, ops := x2, nextOp := x3, evt := x4, bkp := x5, slate := x6, fwNv := x7, fw := x8 } = P s)
    (r : Req) (s : State) (s' : State) (e : execFwPrepare r s = .next s') : P s' = P s :=
  (congrArg P (Host.Outcome.next.inj e)).symm.trans (serve_keeps P (fun s y0 y1 y2 y3 y4 y5 y6 => hk s y0 y1 y2 y3 y4 y5 y6 s.fwNv s.fw) fwPrepareService (fun id _ s => fwPrepare_keeps P (fun s y0 y1 => hk s s.out s.mbxs s.ops s.nextOp s.evt s.bkp s.slate y0 y1) id s) r s)

theorem execFwPrepareDone_keeps {β : Type} (P : State → β) (hk : ∀ (s : State) x0 x1 x2 x3 x4 x5 x6 x7 x8, P { s with freeCtr := x0, out := x1, mbxs := x2, ops := x3, evt := x4, bkp := x5, slate := x6, fwNv := x7, fw := x8 } = P s)
    (fault : Option Nat) (s : State) (s' : State) (e : execFwPrepareDone fault s = .next s') : P s' = P s :=
  (congrArg P (Host.Outcome.next.inj e)).symm.trans (fwPrepareDone_keeps P (fun s y0 y1 y2 y3 y4 y5 y6 y7 y8 => hk s y0 y1 y2 y3 y4 y5 y6 y7 y8) fault s)

theorem execFwMicrocodeAt_keeps {β : Type} (P : State → β) (hk : ∀ (s : State) x0 x1 x2 x3 x4 x5 x6 x7 x8, P { s with out := x0, mbxs := x1, ops := x2, nextOp := x3, evt := x4, bkp := x5, slate := x6, fw := x7, maint := x8 } = P s)
    (r : Req) (s : State) (s' : State) (e : execFwMicrocodeAt r s = .next s') : P s' = P s :=
  (congrArg P (Host.Outcome.next.inj e)).symm.trans (serve_keeps P (fun s y0 y1 y2 y3 y4 y5 y6 => hk s y0 y1 y2 y3 y4 y5 y6 s.fw s.maint) fwMicrocodeAtService (fun _ r s => fwMicrocodeAt_keeps P (fun s y0 y1 => hk s s.out s.mbxs s.ops s.nextOp s.evt s.bkp s.slate y0 y1) r s) r s)

theorem execMicrocodeSwitch_keeps {β : Type} (P : State → β) (hk : ∀ (s : State) x0 x1 x2 x3 x4 x5 x6 x7, P { s with now := x0, mono := x1, freeCtr := x2, out := x3, evt := x4, lanes := x5, fw := x6, maint := x7 } = P s)
    (s : State) (s' : State) (e : execMicrocodeSwitch s = .next s') : P s' = P s :=
  (congrArg P (Host.Outcome.next.inj e)).symm.trans (microcodeSwitch_keeps P (fun s y0 y1 y2 y3 y4 y5 y6 y7 => hk s y0 y1 y2 y3 y4 y5 y6 y7) s)

theorem execFwActivate_keeps {β : Type} (P : State → β) (hk : ∀ (s : State) x0 x1 x2 x3 x4 x5 x6 x7, P { s with out := x0, mbxs := x1, ops := x2, nextOp := x3, evt := x4, bkp := x5, slate := x6, fw := x7 } = P s)
    (r : Req) (s : State) (s' : State) (e : execFwActivate r s = .next s') : P s' = P s :=
  (congrArg P (Host.Outcome.next.inj e)).symm.trans ((startPause_keeps P (fun s y0 => hk s s.out s.mbxs s.ops s.nextOp s.evt s.bkp s.slate y0) _).trans (serve_keeps P (fun s y0 y1 y2 y3 y4 y5 y6 => hk s y0 y1 y2 y3 y4 y5 y6 s.fw) fwActivateService (fun _ _ s => fwActivate_keeps P s) r s))

theorem execFirmwareTakeover_keeps {β : Type} (P : State → β) (hk : ∀ (s : State) x0 x1 x2 x3 x4 x5 x6 x7 x8 x9 x10 x11 x12 x13 x14 x15 x16 x17 x18 x19 x20 x21 x22 x23 x24 x25 x26, P { s with freeCtr := x0, out := x1, cfg := x2, mbxs := x3, ops := x4, evt := x5, boot := x6, bkp := x7, rf := x8, lanes := x9, roles := x10, rot := x11, sectors := x12, duty := x13, plc := x14, plcMac := x15, eps := x16, mem := x17, jnv := x18, jnl := x19, prov := x20, roots := x21, camps := x22, slate := x23, life := x24, fwNv := x25, fw := x26 } = P s)
    (s : State) (s' : State) (e : execFirmwareTakeover s = .next s') : P s' = P s :=
  (congrArg P (Host.Outcome.next.inj e)).symm.trans (firmwareTakeover_keeps P (fun s y0 y1 y2 y3 y4 y5 y6 y7 y8 y9 y10 y11 y12 y13 y14 y15 y16 y17 y18 y19 y20 y21 y22 y23 y24 y25 y26 => hk s y0 y1 y2 y3 y4 y5 y6 y7 y8 y9 y10 y11 y12 y13 y14 y15 y16 y17 y18 y19 y20 y21 y22 y23 y24 y25 y26) s)

theorem execActivationPauseOverrun_keeps {β : Type} (P : State → β) (hk : ∀ (s : State) x0 x1 x2 x3, P { s with now := x0, mono := x1, boot := x2, fwNv := x3 } = P s)
    (s : State) (s' : State) (e : execActivationPauseOverrun s = .next s') : P s' = P s :=
  (congrArg P (Host.Outcome.next.inj e)).symm.trans (pauseOverrun_keeps P (fun s y0 y1 y2 y3 => hk s y0 y1 y2 y3) s)

theorem execFwConfirm_keeps {β : Type} (P : State → β) (hk : ∀ (s : State) x0 x1 x2 x3 x4 x5 x6 x7 x8 x9, P { s with out := x0, mbxs := x1, ops := x2, nextOp := x3, evt := x4, boot := x5, bkp := x6, slate := x7, fwNv := x8, fw := x9 } = P s)
    (r : Req) (s : State) (s' : State) (e : execFwConfirm r s = .next s') : P s' = P s :=
  (congrArg P (Host.Outcome.next.inj e)).symm.trans (serve_keeps P (fun s y0 y1 y2 y3 y4 y5 y6 => hk s y0 y1 y2 y3 y4 s.boot y5 y6 s.fwNv s.fw) fwConfirmService (fun _ _ s => fwConfirm_keeps P (fun s y0 y1 y2 y3 y4 y5 y6 => hk s y0 s.mbxs s.ops s.nextOp y1 y2 y3 y4 y5 y6) s) r s)

theorem execConfirmTimerExpiry_keeps {β : Type} (P : State → β) (hk : ∀ (s : State) x0 x1 x2 x3, P { s with now := x0, mono := x1, boot := x2, fwNv := x3 } = P s)
    (s : State) (s' : State) (e : execConfirmTimerExpiry s = .next s') : P s' = P s :=
  (congrArg P (Host.Outcome.next.inj e)).symm.trans (confirmExpiry_keeps P (fun s y0 y1 y2 y3 => hk s y0 y1 y2 y3) s)

theorem execFwHostBoot_keeps {β : Type} (P : State → β) (hk : ∀ (s : State) x0 x1 x2 x3 x4 x5 x6 x7 x8 x9, P { s with freeCtr := x0, out := x1, mbxs := x2, ops := x3, nextOp := x4, evt := x5, boot := x6, bkp := x7, slate := x8, fw := x9 } = P s)
    (r : Req) (image : Option (List Byte)) (s : State) (s' : State) (e : execFwHostBoot r image s = .next s') : P s' = P s :=
  (congrArg P (Host.Outcome.next.inj e)).symm.trans ((hostHandover_keeps P (fun s y0 y1 => hk s s.freeCtr s.out s.mbxs s.ops s.nextOp s.evt y0 s.bkp s.slate y1) image r s _).trans (serve_keeps P (fun s y0 y1 y2 y3 y4 y5 y6 => hk s s.freeCtr y0 y1 y2 y3 y4 s.boot y5 y6 s.fw) (fwHostBootService image) (fun _ r s => fwHostBoot_keeps P (fun s y0 y1 y2 y3 y4 => hk s y0 y1 s.mbxs s.ops s.nextOp y2 s.boot y3 y4 s.fw) image r s) r s))

theorem execLifecycleAdvance_keeps {β : Type} (P : State → β) (hk : ∀ (s : State) x0 x1 x2 x3 x4 x5 x6 x7 x8 x9 x10 x11, P { s with out := x0, mbxs := x1, ops := x2, nextOp := x3, evt := x4, boot := x5, fuses := x6, bkp := x7, slots := x8, keys := x9, slate := x10, life := x11 } = P s)
    (r : Req) (s : State) (s' : State) (e : execLifecycleAdvance r s = .next s') : P s' = P s :=
  (congrArg P (Host.Outcome.next.inj e)).symm.trans (serve_keeps P (fun s y0 y1 y2 y3 y4 y5 y6 => hk s y0 y1 y2 y3 y4 s.boot s.fuses y5 s.slots s.keys y6 s.life) lifecycleAdvanceService (fun _ r s => lifecycleAdvance_keeps P (fun s y0 y1 y2 y3 y4 y5 y6 y7 y8 => hk s y0 s.mbxs s.ops s.nextOp y1 y2 y3 y4 y5 y6 y7 y8) r s) r s)

theorem execCustKeyProgram_keeps {β : Type} (P : State → β) (hk : ∀ (s : State) x0 x1 x2 x3 x4 x5 x6 x7, P { s with out := x0, mbxs := x1, ops := x2, nextOp := x3, evt := x4, fuses := x5, bkp := x6, slate := x7 } = P s)
    (r : Req) (s : State) (s' : State) (e : execCustKeyProgram r s = .next s') : P s' = P s :=
  (congrArg P (Host.Outcome.next.inj e)).symm.trans (serve_keeps P (fun s y0 y1 y2 y3 y4 y5 y6 => hk s y0 y1 y2 y3 y4 s.fuses y5 y6) custKeyProgramService (fun _ r s => custKeyProgram_keeps P (fun s y0 => hk s s.out s.mbxs s.ops s.nextOp s.evt y0 s.bkp s.slate) r s) r s)

theorem execGateTestPeriodic_keeps {β : Type} (P : State → β) (hk : ∀ (s : State) x0 x1 x2 x3 x4 x5 x6 x7 x8, P { s with now := x0, mono := x1, freeCtr := x2, out := x3, evt := x4, bkp := x5, slate := x6, safe := x7, faultTimes := x8 } = P s)
    (pass : Bool) (s : State) (s' : State) (e : execGateTestPeriodic pass s = .next s') : P s' = P s :=
  (congrArg P (Host.Outcome.next.inj e)).symm.trans (gateTest_keeps P (fun s y0 y1 y2 y3 y4 y5 y6 y7 y8 => hk s y0 y1 y2 y3 y4 y5 y6 y7 y8) pass s)

theorem execLockstepMismatch_keeps {β : Type} (P : State → β) (hk : ∀ (s : State) x0 x1 x2 x3 x4 x5, P { s with out := x0, evt := x1, bkp := x2, slate := x3, safe := x4, faultTimes := x5 } = P s)
    (s : State) (s' : State) (e : execLockstepMismatch s = .next s') : P s' = P s :=
  (congrArg P (Host.Outcome.next.inj e)).symm.trans (diagnose_keeps P (fun s y0 y1 y2 y3 y4 y5 => hk s y0 y1 y2 y3 y4 y5) true 1 s)

theorem execSafetySramScrub_keeps {β : Type} (P : State → β) (hk : ∀ (s : State) x0 x1 x2 x3 x4 x5 x6 x7 x8, P { s with now := x0, mono := x1, freeCtr := x2, out := x3, evt := x4, bkp := x5, slate := x6, safe := x7, faultTimes := x8 } = P s)
    (pass : Bool) (s : State) (s' : State) (e : execSafetySramScrub pass s = .next s') : P s' = P s :=
  (congrArg P (Host.Outcome.next.inj e)).symm.trans (pairScrub_keeps P (fun s y0 y1 y2 y3 y4 y5 y6 y7 y8 => hk s y0 y1 y2 y3 y4 y5 y6 y7 y8) pass s)

theorem execHeartbeatCheck_keeps {β : Type} (P : State → β) (hk : ∀ (s : State) x0 x1 x2 x3 x4 x5, P { s with out := x0, evt := x1, bkp := x2, slate := x3, safe := x4, faultTimes := x5 } = P s)
    (us : Nat) (s : State) (s' : State) (e : execHeartbeatCheck us s = .next s') : P s' = P s :=
  (congrArg P (Host.Outcome.next.inj e)).symm.trans (heartbeat_keeps P (fun s y0 y1 y2 y3 y4 y5 => hk s y0 y1 y2 y3 y4 y5) us s)

theorem execClockMonitorFault_keeps {β : Type} (P : State → β) (hk : ∀ (s : State) x0 x1 x2 x3 x4 x5, P { s with out := x0, evt := x1, bkp := x2, slate := x3, safe := x4, faultTimes := x5 } = P s)
    (s : State) (s' : State) (e : execClockMonitorFault s = .next s') : P s' = P s :=
  (congrArg P (Host.Outcome.next.inj e)).symm.trans (diagnose_keeps P (fun s y0 y1 y2 y3 y4 y5 => hk s y0 y1 y2 y3 y4 y5) true 7 s)

theorem execSafetyAutoRecover_keeps {β : Type} (P : State → β) (hk : ∀ (s : State) x0 x1 x2, P { s with now := x0, mono := x1, safe := x2 } = P s)
    (s : State) (s' : State) (e : execSafetyAutoRecover s = .next s') : P s' = P s :=
  (congrArg P (Host.Outcome.next.inj e)).symm.trans (autoRecover_keeps P (fun s y0 y1 y2 => hk s y0 y1 y2) s)

theorem execProofTestEnd_keeps {β : Type} (P : State → β) (hk : ∀ (s : State) x0 x1 x2 x3 x4 x5 x6 x7 x8, P { s with freeCtr := x0, out := x1, mbxs := x2, ops := x3, evt := x4, bkp := x5, slate := x6, safe := x7, faultTimes := x8 } = P s)
    (failed : Option Nat) (s : State) (s' : State) (e : execProofTestEnd failed s = .next s') : P s' = P s :=
  (congrArg P (Host.Outcome.next.inj e)).symm.trans (proofTestEnd_keeps P (fun s y0 y1 y2 y3 y4 y5 y6 y7 y8 => hk s y0 y1 y2 y3 y4 y5 y6 y7 y8) failed s)

theorem execSafetyStatusGet_keeps {β : Type} (P : State → β) (hk : ∀ (s : State) x0 x1 x2 x3 x4 x5 x6, P { s with out := x0, mbxs := x1, ops := x2, nextOp := x3, evt := x4, bkp := x5, slate := x6 } = P s)
    (r : Req) (s : State) (s' : State) (e : execSafetyStatusGet r s = .next s') : P s' = P s :=
  (congrArg P (Host.Outcome.next.inj e)).symm.trans (serve_keeps P (fun s y0 y1 y2 y3 y4 y5 y6 => hk s y0 y1 y2 y3 y4 y5 y6) safetyStatusGetService (fun _ _ _ => rfl) r s)

theorem execSafetyClear_keeps {β : Type} (P : State → β) (hk : ∀ (s : State) x0 x1 x2 x3 x4 x5 x6 x7, P { s with out := x0, mbxs := x1, ops := x2, nextOp := x3, evt := x4, bkp := x5, slate := x6, safe := x7 } = P s)
    (r : Req) (s : State) (s' : State) (e : execSafetyClear r s = .next s') : P s' = P s :=
  (congrArg P (Host.Outcome.next.inj e)).symm.trans (serve_keeps P (fun s y0 y1 y2 y3 y4 y5 y6 => hk s y0 y1 y2 y3 y4 y5 y6 s.safe) safetyClearService (fun id _ s => safetyClear_keeps P (fun s y0 => hk s s.out s.mbxs s.ops s.nextOp s.evt s.bkp s.slate y0) id s) r s)

theorem execSafetyProofTest_keeps {β : Type} (P : State → β) (hk : ∀ (s : State) x0 x1 x2 x3 x4 x5 x6 x7, P { s with out := x0, mbxs := x1, ops := x2, nextOp := x3, evt := x4, bkp := x5, slate := x6, safe := x7 } = P s)
    (r : Req) (s : State) (s' : State) (e : execSafetyProofTest r s = .next s') : P s' = P s :=
  (congrArg P (Host.Outcome.next.inj e)).symm.trans (serve_keeps P (fun s y0 y1 y2 y3 y4 y5 y6 => hk s y0 y1 y2 y3 y4 y5 y6 s.safe) safetyProofTestService (fun id _ s => safetyProofTest_keeps P (fun s y0 => hk s s.out s.mbxs s.ops s.nextOp s.evt s.bkp s.slate y0) id s) r s)

theorem execRotationStep_keeps {β : Type} (P : State → β) (hk : ∀ (s : State) x0 x1 x2 x3 x4 x5, P { s with now := x0, mono := x1, freeCtr := x2, roles := x3, rot := x4, maint := x5 } = P s)
    (s : State) (s' : State) (e : execRotationStep s = .next s') : P s' = P s :=
  (congrArg P (Host.Outcome.next.inj e)).symm.trans (rotationStep_keeps P (fun s y0 y1 y2 y3 y4 y5 => hk s y0 y1 y2 y3 y4 y5) s)

theorem execRotationHandover_keeps {β : Type} (P : State → β) (hk : ∀ (s : State) x0 x1 x2 x3, P { s with now := x0, mono := x1, roles := x2, rot := x3 } = P s)
    (s : State) (s' : State) (e : execRotationHandover s = .next s') : P s' = P s :=
  (congrArg P (Host.Outcome.next.inj e)).symm.trans (rotationHandover_keeps P (fun s y0 y1 y2 y3 => hk s y0 y1 y2 y3) s)

theorem execLaneTestEnd_keeps {β : Type} (P : State → β) (hk : ∀ (s : State) x0 x1 x2 x3 x4 x5 x6 x7 x8 x9 x10 x11 x12, P { s with freeCtr := x0, out := x1, mbxs := x2, ops := x3, evt := x4, bkp := x5, lanes := x6, laneCount := x7, roles := x8, rot := x9, slate := x10, life := x11, maint := x12 } = P s)
    (pass : Bool) (s : State) (s' : State) (e : execLaneTestEnd pass s = .next s') : P s' = P s :=
  (congrArg P (Host.Outcome.next.inj e)).symm.trans (laneTestEnd_keeps P (fun s y0 y1 y2 y3 y4 y5 y6 y7 y8 y9 y10 y11 y12 => hk s y0 y1 y2 y3 y4 y5 y6 y7 y8 y9 y10 y11 y12) pass s)

theorem execRotationLate_keeps {β : Type} (P : State → β) (hk : ∀ (s : State) x0 x1 x2 x3 x4, P { s with now := x0, mono := x1, out := x2, evt := x3, rot := x4 } = P s)
    (lane : Nat) (s : State) (s' : State) (e : execRotationLate lane s = .next s') : P s' = P s :=
  (congrArg P (Host.Outcome.next.inj e)).symm.trans (rotationLate_keeps P (fun s y0 y1 y2 y3 y4 => hk s y0 y1 y2 y3 y4) lane s)

theorem execIslandBistEnd_keeps {β : Type} (P : State → β) (hk : ∀ (s : State) x0 x1 x2 x3 x4 x5 x6 x7 x8 x9 x10 x11 x12 x13 x14 x15, P { s with freeCtr := x0, out := x1, mbxs := x2, ops := x3, evt := x4, isl := x5, links := x6, bkp := x7, rf := x8, lanes := x9, laneCount := x10, roles := x11, rot := x12, plc := x13, slate := x14, life := x15 } = P s)
    (i : Nat) (res : IslandBistIn) (s : State) (s' : State) (e : execIslandBistEnd i res s = .next s') : P s' = P s :=
  (congrArg P (Host.Outcome.next.inj e)).symm.trans (islandBistEnd_keeps P (fun s y0 y1 y2 y3 y4 y5 y6 y7 y8 y9 y10 y11 y12 y13 y14 y15 => hk s y0 y1 y2 y3 y4 y5 y6 y7 y8 y9 y10 y11 y12 y13 y14 y15) i res.pass res.repairs s)

theorem execMaintTokenGrant_keeps {β : Type} (P : State → β) (hk : ∀ (s : State) x0 x1 x2 x3, P { s with now := x0, mono := x1, dir := x2, maint := x3 } = P s)
    (act : Nat) (s : State) (s' : State) (e : execMaintTokenGrant act s = .next s') : P s' = P s :=
  (congrArg P (Host.Outcome.next.inj e)).symm.trans (maintGrant_keeps P (fun s y0 y1 y2 y3 => hk s y0 y1 y2 y3) act s)

theorem execLaneMapGet_keeps {β : Type} (P : State → β) (hk : ∀ (s : State) x0 x1 x2 x3 x4 x5 x6, P { s with out := x0, mbxs := x1, ops := x2, nextOp := x3, evt := x4, bkp := x5, slate := x6 } = P s)
    (r : Req) (s : State) (s' : State) (e : execLaneMapGet r s = .next s') : P s' = P s :=
  (congrArg P (Host.Outcome.next.inj e)).symm.trans (serve_keeps P (fun s y0 y1 y2 y3 y4 y5 y6 => hk s y0 y1 y2 y3 y4 y5 y6) laneMapGetService (fun _ r s => laneMapGet_keeps P r s) r s)

theorem execRepairLedgerGet_keeps {β : Type} (P : State → β) (hk : ∀ (s : State) x0 x1 x2 x3 x4 x5 x6, P { s with out := x0, mbxs := x1, ops := x2, nextOp := x3, evt := x4, bkp := x5, slate := x6 } = P s)
    (r : Req) (s : State) (s' : State) (e : execRepairLedgerGet r s = .next s') : P s' = P s :=
  (congrArg P (Host.Outcome.next.inj e)).symm.trans (serve_keeps P (fun s y0 y1 y2 y3 y4 y5 y6 => hk s y0 y1 y2 y3 y4 y5 y6) repairLedgerGetService (fun _ r s => repairLedgerGet_keeps P r s) r s)

theorem execRotationStatusGet_keeps {β : Type} (P : State → β) (hk : ∀ (s : State) x0 x1 x2 x3 x4 x5 x6, P { s with out := x0, mbxs := x1, ops := x2, nextOp := x3, evt := x4, bkp := x5, slate := x6 } = P s)
    (r : Req) (s : State) (s' : State) (e : execRotationStatusGet r s = .next s') : P s' = P s :=
  (congrArg P (Host.Outcome.next.inj e)).symm.trans (serve_keeps P (fun s y0 y1 y2 y3 y4 y5 y6 => hk s y0 y1 y2 y3 y4 y5 y6) rotationStatusGetService (fun _ _ _ => rfl) r s)

theorem execMaintStatusGet_keeps {β : Type} (P : State → β) (hk : ∀ (s : State) x0 x1 x2 x3 x4 x5 x6, P { s with out := x0, mbxs := x1, ops := x2, nextOp := x3, evt := x4, bkp := x5, slate := x6 } = P s)
    (r : Req) (s : State) (s' : State) (e : execMaintStatusGet r s = .next s') : P s' = P s :=
  (congrArg P (Host.Outcome.next.inj e)).symm.trans (serve_keeps P (fun s y0 y1 y2 y3 y4 y5 y6 => hk s y0 y1 y2 y3 y4 y5 y6) maintStatusGetService (fun _ _ _ => rfl) r s)

theorem execPlcTransmitEnd_keeps {β : Type} (P : State → β) (hk : ∀ (s : State) x0 x1 x2 x3, P { s with now := x0, mono := x1, plc := x2, eps := x3 } = P s)
    (q : Nat) (s : State) (s' : State) (e : execPlcTransmitEnd q s = .next s') : P s' = P s :=
  (congrArg P (Host.Outcome.next.inj e)).symm.trans (plcTransmitEnd_keeps P (fun s y0 y1 y2 y3 => hk s y0 y1 y2 y3) q s)

theorem execPcieUncorrectableError_keeps {β : Type} (P : State → β) (hk : ∀ (s : State) x0 x1, P { s with out := x0, evt := x1 } = P s)
    (s : State) (s' : State) (e : execPcieUncorrectableError s = .next s') : P s' = P s :=
  (congrArg P (Host.Outcome.next.inj e)).symm.trans (pcieError_keeps P (fun s y0 y1 => hk s y0 y1) s)

theorem services1_keeps {β : Type} (P : State → β) (hk : ∀ (s : State) x0 x1 x2 x3 x4 x5 x6, P { s with out := x0, cfg := x1, evt := x2, rf := x3, jnl := x4, prov := x5, slate := x6 } = P s) :
    ∀ v ∈ services1, ∀ id r s, P (v.run id r s).st = P s :=
  List.forall_mem_cons.2 ⟨fun _ _ _ => rfl,
    List.forall_mem_cons.2 ⟨fun _ _ s => configBegin_keeps P (fun s y0 y1 y2 => hk s y0 y1 y2 s.rf s.jnl s.prov s.slate) s,
    List.forall_mem_cons.2 ⟨fun id _ s => configCommit_keeps P (fun s y0 y1 y2 y3 => hk s y0 y1 y2 y3 s.jnl s.prov s.slate) id s,
    List.forall_mem_cons.2 ⟨fun _ _ s => configAbort_keeps P (fun s y0 y1 y2 => hk s y0 y1 y2 s.rf s.jnl s.prov s.slate) s,
    List.forall_mem_cons.2 ⟨fun _ _ _ => rfl,
    List.forall_mem_cons.2 ⟨fun _ _ _ => rfl,
    List.forall_mem_cons.2 ⟨fun _ r s => paramBlockWrite_keeps P (fun s y0 y1 y2 y3 y4 y5 => hk s y0 y1 y2 s.rf y3 y4 y5) r s,
    List.forall_mem_cons.2 ⟨fun _ r s => paramBlockRead_keeps P r s,
    fun _ h => nomatch h⟩⟩⟩⟩⟩⟩⟩⟩

theorem services2_keeps {β : Type} (P : State → β) (hk : ∀ (s : State) x0 x1 x2 x3 x4 x5 x6 x7 x8 x9, P { s with freeCtr := x0, out := x1, cfg := x2, evt := x3, lanes := x4, roles := x5, rot := x6, sectors := x7, eps := x8, mem := x9 } = P s) :
    ∀ v ∈ services2, ∀ id r s, P (v.run id r s).st = P s :=
  List.forall_mem_cons.2 ⟨fun _ r s => laneAssign_keeps P (fun s y0 y1 y2 y3 y4 => hk s y0 s.out y1 s.evt y2 y3 y4 s.sectors s.eps s.mem) r s,
    List.forall_mem_cons.2 ⟨fun _ r s => laneTableGet_keeps P r s,
    List.forall_mem_cons.2 ⟨fun _ r s => laneStatsGet_keeps P (fun s y0 y1 => hk s y0 s.out s.cfg s.evt y1 s.roles s.rot s.sectors s.eps s.mem) r s,
    List.forall_mem_cons.2 ⟨fun _ r s => laneStatsClear_keeps P (fun s y0 => hk s s.freeCtr s.out s.cfg s.evt y0 s.roles s.rot s.sectors s.eps s.mem) r s,
    List.forall_mem_cons.2 ⟨fun _ _ _ => rfl,
    List.forall_mem_cons.2 ⟨fun _ r s => bandProfileSet_keeps P (fun s y0 => hk s s.freeCtr s.out y0 s.evt s.lanes s.roles s.rot s.sectors s.eps s.mem) r s,
    List.forall_mem_cons.2 ⟨fun _ r s => bandProfileGet_keeps P r s,
    List.forall_mem_cons.2 ⟨fun _ r s => dutyStatusGet_keeps P r s,
    List.forall_mem_cons.2 ⟨fun _ r s => sectorStatusGet_keeps P r s,
    List.forall_mem_cons.2 ⟨fun _ r s => connectOpen_keeps P (fun s y0 y1 y2 => hk s s.freeCtr s.out s.cfg s.evt s.lanes s.roles s.rot y0 y1 y2) r s,
    List.forall_mem_cons.2 ⟨fun _ r s => connectClose_keeps P (fun s y0 y1 y2 y3 y4 => hk s s.freeCtr y0 s.cfg y1 s.lanes s.roles s.rot y2 y3 y4) r s,
    List.forall_mem_cons.2 ⟨fun _ r s => airStateGet_keeps P (fun s y0 => hk s s.freeCtr s.out s.cfg s.evt s.lanes s.roles s.rot s.sectors s.eps y0) r s,
    fun _ h => nomatch h⟩⟩⟩⟩⟩⟩⟩⟩⟩⟩⟩⟩

theorem services3_keeps {β : Type} (P : State → β) (hk : ∀ (s : State) x0 x1 x2 x3 x4 x5, P { s with out := x0, evt := x1, plc := x2, plcMac := x3, eps := x4, mem := x5 } = P s) :
    ∀ v ∈ services3, ∀ id r s, P (v.run id r s).st = P s :=
  List.forall_mem_cons.2 ⟨fun _ _ _ => rfl,
    List.forall_mem_cons.2 ⟨fun _ r s => plcCalGet_keeps P r s,
    List.forall_mem_cons.2 ⟨fun _ r s => plcRecalibrate_keeps P (fun s y0 y1 y2 => hk s y0 y1 y2 s.plcMac s.eps s.mem) r s,
    List.forall_mem_cons.2 ⟨fun _ r s => plcLinkGet_keeps P r s,
    List.forall_mem_cons.2 ⟨fun _ r s => plcRouteGet_keeps P r s,
    List.forall_mem_cons.2 ⟨fun _ r s => plcProposalsGet_keeps P r s,
    List.forall_mem_cons.2 ⟨fun _ r s => plcRouteSet_keeps P (fun s y0 y1 y2 => hk s s.out s.evt s.plc y0 y1 y2) r s,
    List.forall_mem_cons.2 ⟨fun _ r s => plcRouteUnpin_keeps P (fun s y0 y1 => hk s s.out s.evt s.plc s.plcMac y0 y1) r s,
    List.forall_mem_cons.2 ⟨plcPollNow_keeps P (fun s y0 => hk s s.out s.evt s.plc y0 s.eps s.mem),
    fun _ h => nomatch h⟩⟩⟩⟩⟩⟩⟩⟩⟩

theorem services4_keeps {β : Type} (P : State → β) (hk : ∀ (s : State) x0 x1 x2 x3 x4 x5 x6 x7 x8 x9 x10 x11 x12 x13 x14 x15 x16 x17 x18, P { s with out := x0, mbxs := x1, ops := x2, evt := x3, bkp := x4, sectors := x5, plcMac := x6, dir := x7, eps := x8, mem := x9, jnv := x10, jnl := x11, prov := x12, roots := x13, ledger := x14, bal := x15, slate := x16, life := x17, maint := x18 } = P s) :
    ∀ v ∈ services4, ∀ id r s, P (v.run id r s).st = P s :=
  List.forall_mem_cons.2 ⟨fun _ r s => enrol_keeps P (fun s y0 y1 y2 y3 y4 y5 y6 y7 y8 y9 y10 y11 y12 y13 y14 => hk s y0 s.mbxs s.ops y1 y2 s.sectors s.plcMac y3 y4 y5 y6 y7 y8 y9 y10 y11 y12 y13 y14) r s,
    List.forall_mem_cons.2 ⟨fun _ r s => withdraw_keeps P (fun s y0 y1 y2 y3 y4 y5 y6 y7 y8 y9 y10 y11 y12 y13 y14 y15 y16 => hk s y0 y1 y2 y3 y4 y5 y6 y7 y8 y9 y10 y11 y12 y13 y14 s.bal y15 y16 s.maint) r s,
    List.forall_mem_cons.2 ⟨fun _ r s => admitStateSet_keeps P (fun s y0 y1 y2 => hk s s.out s.mbxs s.ops s.evt s.bkp s.sectors s.plcMac y0 y1 y2 s.jnv s.jnl s.prov s.roots s.ledger s.bal s.slate s.life s.maint) r s,
    List.forall_mem_cons.2 ⟨fun _ r s => endpointUpdate_keeps P (fun s y0 y1 y2 => hk s s.out s.mbxs s.ops s.evt s.bkp s.sectors s.plcMac s.dir y0 y1 s.jnv s.jnl s.prov s.roots y2 s.bal s.slate s.life s.maint) r s,
    List.forall_mem_cons.2 ⟨fun _ r s => endpointGet_keeps P (fun s y0 => hk s s.out s.mbxs s.ops s.evt s.bkp s.sectors s.plcMac s.dir s.eps y0 s.jnv s.jnl s.prov s.roots s.ledger s.bal s.slate s.life s.maint) r s,
    List.forall_mem_cons.2 ⟨fun _ r s => addrLookup_keeps P (fun s y0 => hk s s.out s.mbxs s.ops s.evt s.bkp s.sectors s.plcMac y0 s.eps s.mem s.jnv s.jnl s.prov s.roots s.ledger s.bal s.slate s.life s.maint) r s,
    List.forall_mem_cons.2 ⟨fun _ r s => tallyGetOp_keeps P (fun s y0 => hk s s.out s.mbxs s.ops s.evt s.bkp s.sectors s.plcMac s.dir s.eps y0 s.jnv s.jnl s.prov s.roots s.ledger s.bal s.slate s.life s.maint) r s,
    List.forall_mem_cons.2 ⟨fun _ r s => tallyClear_keeps P (fun s y0 y1 y2 y3 y4 y5 y6 => hk s y0 s.mbxs s.ops y1 y2 s.sectors s.plcMac s.dir y3 y4 s.jnv s.jnl s.prov s.roots y5 s.bal y6 s.life s.maint) r s,
    List.forall_mem_cons.2 ⟨fun _ _ _ => rfl,
    List.forall_mem_cons.2 ⟨fun _ _ s => dirRehash_keeps P (fun s y0 y1 => hk s s.out s.mbxs s.ops s.evt s.bkp s.sectors s.plcMac y0 s.eps s.mem s.jnv s.jnl s.prov s.roots s.ledger s.bal s.slate s.life y1) s,
    List.forall_mem_cons.2 ⟨fun _ r s => unknownGet_keeps P r s,
    List.forall_mem_cons.2 ⟨fun _ _ s => hk s s.out s.mbxs s.ops s.evt s.bkp s.sectors s.plcMac _ s.eps s.mem s.jnv s.jnl s.prov s.roots s.ledger s.bal s.slate s.life s.maint,
    fun _ h => nomatch h⟩⟩⟩⟩⟩⟩⟩⟩⟩⟩⟩⟩

theorem services5_keeps {β : Type} (P : State → β) (hk : ∀ (s : State) x0 x1 x2 x3 x4 x5 x6 x7 x8 x9 x10 x11 x12 x13 x14 x15 x16 x17, P { s with out := x0, mbxs := x1, ops := x2, evt := x3, boot := x4, bkp := x5, dir := x6, eps := x7, mem := x8, chans := x9, jnv := x10, jnl := x11, prov := x12, roots := x13, ledger := x14, bal := x15, slate := x16, life := x17 } = P s) :
    ∀ v ∈ services5, ∀ id r s, P (v.run id r s).st = P s :=
  List.forall_mem_cons.2 ⟨fun _ r s => calLoad_keeps P (fun s y0 y1 y2 y3 y4 y5 y6 y7 y8 y9 => hk s y0 s.mbxs s.ops y1 s.boot s.bkp s.dir y2 y3 s.chans y4 y5 y6 y7 y8 s.bal s.slate y9) r s,
    List.forall_mem_cons.2 ⟨fun _ r s => calGet_keeps P r s,
    List.forall_mem_cons.2 ⟨fun _ r s => tariffAssign_keeps P (fun s y0 y1 y2 y3 y4 y5 y6 y7 y8 y9 => hk s y0 s.mbxs s.ops y1 s.boot s.bkp s.dir y2 y3 s.chans y4 y5 y6 y7 y8 s.bal s.slate y9) r s,
    List.forall_mem_cons.2 ⟨fun _ r s => ledgerGet_keeps P (fun s y0 => hk s s.out s.mbxs s.ops s.evt s.boot s.bkp s.dir s.eps y0 s.chans s.jnv s.jnl s.prov s.roots s.ledger s.bal s.slate s.life) r s,
    List.forall_mem_cons.2 ⟨fun _ r s => restoreStart_keeps P (fun s y0 y1 y2 y3 y4 y5 y6 y7 y8 y9 y10 y11 y12 y13 y14 y15 => hk s y0 s.mbxs s.ops y1 y2 y3 y4 y5 y6 y7 y8 y9 y10 y11 y12 y13 y14 y15) r s,
    List.forall_mem_cons.2 ⟨fun _ r s => ledgerPageLost_keeps P (fun s y0 y1 y2 y3 y4 y5 y6 y7 y8 y9 y10 y11 y12 y13 y14 => hk s y0 s.mbxs s.ops y1 y2 y3 y4 y5 y6 y7 y8 y9 y10 y11 y12 s.bal y13 y14) r s,
    List.forall_mem_cons.2 ⟨fun _ r s => ledgerExportStart_keeps P (fun s y0 y1 => hk s s.out s.mbxs s.ops s.evt s.boot s.bkp s.dir s.eps s.mem y0 s.jnv s.jnl s.prov s.roots y1 s.bal s.slate s.life) r s,
    List.forall_mem_cons.2 ⟨fun _ r s => ledgerConfirm_keeps P (fun s y0 y1 y2 y3 y4 y5 => hk s y0 s.mbxs s.ops y1 s.boot s.bkp s.dir s.eps s.mem s.chans y2 y3 s.prov y4 y5 s.bal s.slate s.life) r s,
    List.forall_mem_cons.2 ⟨fun _ r s => ledgerPendingGet_keeps P r s,
    List.forall_mem_cons.2 ⟨fun _ r s => periodCloseNow_keeps P (fun s y0 y1 y2 y3 y4 y5 y6 y7 => hk s y0 s.mbxs s.ops y1 s.boot s.bkp s.dir s.eps s.mem s.chans y2 y3 y4 y5 y6 s.bal s.slate y7) r s,
    List.forall_mem_cons.2 ⟨fun _ r s => statementStart_keeps P (fun s y0 y1 => hk s s.out s.mbxs s.ops s.evt s.boot s.bkp s.dir s.eps s.mem y0 s.jnv s.jnl s.prov s.roots y1 s.bal s.slate s.life) r s,
    List.forall_mem_cons.2 ⟨fun _ r s => statementConfirm_keeps P (fun s y0 y1 y2 => hk s s.out s.mbxs s.ops s.evt s.boot s.bkp s.dir s.eps s.mem y0 s.jnv s.jnl s.prov y1 y2 s.bal s.slate s.life) r s,
    List.forall_mem_cons.2 ⟨fun _ r s => statementRewind_keeps P (fun s y0 y1 => hk s s.out s.mbxs s.ops s.evt s.boot s.bkp s.dir s.eps s.mem y0 s.jnv s.jnl s.prov s.roots y1 s.bal s.slate s.life) r s,
    List.forall_mem_cons.2 ⟨fun _ _ _ => rfl,
    List.forall_mem_cons.2 ⟨fun _ r s => displayShow_keeps P (fun s y0 => hk s s.out s.mbxs s.ops s.evt s.boot s.bkp s.dir s.eps s.mem s.chans s.jnv s.jnl s.prov s.roots y0 s.bal s.slate s.life) r s,
    List.forall_mem_cons.2 ⟨fun _ _ _ => rfl,
    List.forall_mem_cons.2 ⟨fun _ r s => profileSet_keeps P (fun s y0 y1 => hk s s.out s.mbxs s.ops s.evt s.boot s.bkp y0 s.eps s.mem s.chans s.jnv s.jnl y1 s.roots s.ledger s.bal s.slate s.life) r s,
    List.forall_mem_cons.2 ⟨fun _ r s => profileGet_keeps P r s,
    List.forall_mem_cons.2 ⟨fun _ r s => provListAdd_keeps P (fun s y0 => hk s s.out s.mbxs s.ops s.evt s.boot s.bkp s.dir s.eps s.mem s.chans s.jnv s.jnl y0 s.roots s.ledger s.bal s.slate s.life) r s,
    List.forall_mem_cons.2 ⟨fun _ _ s => hk s s.out s.mbxs s.ops s.evt s.boot s.bkp s.dir s.eps s.mem s.chans s.jnv s.jnl _ s.roots s.ledger s.bal s.slate s.life,
    List.forall_mem_cons.2 ⟨fun _ r s => exportStart_keeps P (fun s y0 y1 => hk s s.out s.mbxs s.ops s.evt s.boot s.bkp s.dir s.eps s.mem y0 s.jnv s.jnl y1 s.roots s.ledger s.bal s.slate s.life) r s,
    List.forall_mem_cons.2 ⟨exportStop_keeps P (fun s y0 y1 => hk s s.out s.mbxs s.ops s.evt s.boot s.bkp s.dir s.eps s.mem y0 s.jnv s.jnl y1 s.roots s.ledger s.bal s.slate s.life),
    List.forall_mem_cons.2 ⟨fun _ r s => exportConfirm_keeps P (fun s y0 y1 y2 y3 y4 y5 y6 y7 y8 y9 y10 y11 => hk s y0 y1 y2 y3 s.boot y4 s.dir s.eps s.mem y5 y6 y7 y8 y9 y10 s.bal y11 s.life) r s,
    List.forall_mem_cons.2 ⟨fun _ _ s => (closeOpenOvf_keeps P (fun s y0 => hk s s.out s.mbxs s.ops s.evt s.boot s.bkp s.dir s.eps s.mem s.chans s.jnv s.jnl y0 s.roots s.ledger s.bal s.slate s.life) (closeOpen s)).trans (closeOpen_keeps P (fun s y0 => hk s s.out s.mbxs s.ops s.evt s.boot s.bkp s.dir s.eps s.mem s.chans s.jnv s.jnl y0 s.roots s.ledger s.bal s.slate s.life) s),
    List.forall_mem_cons.2 ⟨fun _ _ _ => rfl,
    List.forall_mem_cons.2 ⟨fun _ r s => exportRewind_keeps P (fun s y0 y1 => hk s s.out s.mbxs s.ops s.evt s.boot s.bkp s.dir s.eps s.mem y0 s.jnv s.jnl y1 s.roots s.ledger s.bal s.slate s.life) r s,
    fun _ h => nomatch h⟩⟩⟩⟩⟩⟩⟩⟩⟩⟩⟩⟩⟩⟩⟩⟩⟩⟩⟩⟩⟩⟩⟩⟩⟩⟩

theorem services6_keeps {β : Type} (P : State → β) (hk : ∀ (s : State) x0 x1 x2 x3, P { s with out := x0, evt := x1, chans := x2, bal := x3 } = P s) :
    ∀ v ∈ services6, ∀ id r s, P (v.run id r s).st = P s :=
  List.forall_mem_cons.2 ⟨fun _ r s => zoneLoad_keeps P (fun s y0 => hk s s.out s.evt s.chans y0) r s,
    List.forall_mem_cons.2 ⟨fun _ r s => zoneDrop_keeps P (fun s y0 y1 y2 => hk s y0 y1 s.chans y2) r s,
    List.forall_mem_cons.2 ⟨fun _ r s => zoneTolSet_keeps P (fun s y0 => hk s s.out s.evt s.chans y0) r s,
    List.forall_mem_cons.2 ⟨fun _ r s => zoneGet_keeps P r s,
    List.forall_mem_cons.2 ⟨fun _ r s => scoreReset_keeps P (fun s y0 => hk s s.out s.evt s.chans y0) r s,
    List.forall_mem_cons.2 ⟨fun _ r s => balExportStart_keeps P (fun s y0 y1 => hk s s.out s.evt y0 y1) r s,
    List.forall_mem_cons.2 ⟨fun _ r s => balConfirm_keeps P (fun s y0 y1 => hk s s.out s.evt y0 y1) r s,
    List.forall_mem_cons.2 ⟨fun _ r s => balRewind_keeps P (fun s y0 y1 => hk s s.out s.evt y0 y1) r s,
    List.forall_mem_cons.2 ⟨fun _ r s => balRerun_keeps P (fun s y0 y1 y2 => hk s y0 y1 s.chans y2) r s,
    List.forall_mem_cons.2 ⟨fun _ _ _ => rfl,
    fun _ h => nomatch h⟩⟩⟩⟩⟩⟩⟩⟩⟩⟩

theorem services7_keeps {β : Type} (P : State → β) (hk : ∀ (s : State) x0 x1 x2 x3 x4 x5 x6 x7 x8 x9 x10 x11 x12 x13, P { s with out := x0, mbxs := x1, ops := x2, evt := x3, bkp := x4, eps := x5, mem := x6, jnv := x7, jnl := x8, prov := x9, roots := x10, camps := x11, slate := x12, life := x13 } = P s) :
    ∀ v ∈ services7, ∀ id r s, P (v.run id r s).st = P s :=
  List.forall_mem_cons.2 ⟨fun _ r s => campCreate_keeps P (fun s y0 y1 y2 y3 y4 y5 y6 y7 => hk s y0 s.mbxs s.ops y1 s.bkp s.eps s.mem y2 y3 y4 y5 y6 s.slate y7) r s,
    List.forall_mem_cons.2 ⟨fun _ r s => campContent_keeps P (fun s y0 => hk s s.out s.mbxs s.ops s.evt s.bkp s.eps s.mem s.jnv s.jnl s.prov s.roots y0 s.slate s.life) r s,
    List.forall_mem_cons.2 ⟨fun _ r s => campTargetsAdd_keeps P (fun s y0 y1 y2 y3 y4 y5 y6 y7 y8 y9 y10 y11 => hk s y0 y1 y2 y3 y4 s.eps s.mem y5 y6 y7 y8 y9 y10 y11) r s,
    List.forall_mem_cons.2 ⟨fun _ r s => campStart_keeps P (fun s y0 y1 y2 y3 y4 y5 y6 y7 y8 y9 y10 y11 => hk s y0 y1 y2 y3 y4 s.eps s.mem y5 y6 y7 y8 y9 y10 y11) r s,
    List.forall_mem_cons.2 ⟨fun _ r s => campPause_keeps P (fun s y0 y1 y2 y3 y4 y5 y6 y7 => hk s y0 s.mbxs s.ops y1 s.bkp s.eps s.mem y2 y3 y4 y5 y6 s.slate y7) r s,
    List.forall_mem_cons.2 ⟨fun _ r s => campResume_keeps P (fun s y0 y1 y2 y3 y4 y5 y6 y7 y8 y9 y10 y11 => hk s y0 y1 y2 y3 y4 s.eps s.mem y5 y6 y7 y8 y9 y10 y11) r s,
    List.forall_mem_cons.2 ⟨campCancel_keeps P (fun s y0 y1 y2 y3 y4 y5 y6 y7 y8 y9 y10 y11 => hk s y0 y1 y2 y3 y4 s.eps s.mem y5 y6 y7 y8 y9 y10 y11),
    List.forall_mem_cons.2 ⟨fun _ r s => campStatusGet_keeps P r s,
    List.forall_mem_cons.2 ⟨fun _ r s => campTargetGet_keeps P r s,
    List.forall_mem_cons.2 ⟨fun _ r s => campRelease_keeps P (fun s y0 => hk s s.out s.mbxs s.ops s.evt s.bkp s.eps s.mem s.jnv s.jnl s.prov s.roots y0 s.slate s.life) r s,
    List.forall_mem_cons.2 ⟨fun _ r s => switchFaultClear_keeps P (fun s y0 y1 => hk s s.out s.mbxs s.ops s.evt s.bkp y0 y1 s.jnv s.jnl s.prov s.roots s.camps s.slate s.life) r s,
    fun _ h => nomatch h⟩⟩⟩⟩⟩⟩⟩⟩⟩⟩⟩

theorem services8_keeps {β : Type} (P : State → β) (hk : ∀ (s : State) x0 x1 x2 x3 x4 x5 x6 x7 x8 x9 x10, P { s with freeCtr := x0, out := x1, evt := x2, bkp := x3, eps := x4, blobs := x5, slots := x6, keys := x7, slate := x8, life := x9, maint := x10 } = P s) :
    ∀ v ∈ services8, ∀ id r s, P (v.run id r s).st = P s :=
  List.forall_mem_cons.2 ⟨fun _ r s => qkLoad_keeps P (fun s y0 y1 y2 y3 y4 y5 y6 => hk s s.freeCtr y0 y1 y2 s.eps s.blobs y3 y4 y5 y6 s.maint) r s,
    List.forall_mem_cons.2 ⟨fun _ r s => qkDerive_keeps P (fun s y0 y1 y2 y3 y4 y5 y6 => hk s s.freeCtr y0 y1 y2 s.eps s.blobs y3 y4 y5 y6 s.maint) r s,
    List.forall_mem_cons.2 ⟨fun _ r s => qkGenerate_keeps P (fun s y0 y1 y2 y3 y4 y5 y6 => hk s y0 y1 y2 y3 s.eps s.blobs y4 y5 y6 s.life s.maint) r s,
    List.forall_mem_cons.2 ⟨fun _ r s => qkDestroy_keeps P (fun s y0 y1 y2 y3 y4 y5 y6 => hk s s.freeCtr y0 y1 y2 s.eps s.blobs y3 y4 y5 y6 s.maint) r s,
    List.forall_mem_cons.2 ⟨fun _ r s => qkSlotGet_keeps P r s,
    List.forall_mem_cons.2 ⟨fun _ r s => qkEpLoad_keeps P (fun s y0 y1 y2 y3 y4 y5 y6 y7 y8 => hk s s.freeCtr y0 y1 y2 y3 y4 y5 y6 y7 y8 s.maint) r s,
    List.forall_mem_cons.2 ⟨fun _ r s => qkEpClear_keeps P (fun s y0 y1 => hk s s.freeCtr s.out s.evt s.bkp y0 y1 s.slots s.keys s.slate s.life s.maint) r s,
    List.forall_mem_cons.2 ⟨qkRewrap_keeps P (fun s y0 y1 => hk s s.freeCtr s.out s.evt s.bkp s.eps s.blobs s.slots y0 s.slate s.life y1),
    List.forall_mem_cons.2 ⟨fun _ r s => qkAttest_keeps P (fun s y0 y1 y2 y3 y4 y5 y6 y7 => hk s y0 y1 y2 y3 s.eps s.blobs y4 y5 y6 y7 s.maint) r s,
    List.forall_mem_cons.2 ⟨fun _ r s => qkCertGet_keeps P r s,
    List.forall_mem_cons.2 ⟨fun _ _ _ => rfl,
    fun _ h => nomatch h⟩⟩⟩⟩⟩⟩⟩⟩⟩⟩⟩

theorem services9_keeps {β : Type} (P : State → β) (hk : ∀ (s : State) x0 x1 x2, P { s with bkp := x0, chans := x1, slate := x2 } = P s) :
    ∀ v ∈ services9, ∀ id r s, P (v.run id r s).st = P s :=
  List.forall_mem_cons.2 ⟨fun _ r s => slateRead_keeps P (fun s y0 => hk s s.bkp s.chans y0) r s,
    List.forall_mem_cons.2 ⟨slateDump_keeps P (fun s y0 y1 => hk s s.bkp y0 y1),
    List.forall_mem_cons.2 ⟨fun _ _ _ => rfl,
    List.forall_mem_cons.2 ⟨fun _ r s => slateCodeGet_keeps P r s,
    List.forall_mem_cons.2 ⟨fun _ _ s => slateRecfClear_keeps P (fun s y0 => hk s y0 s.chans s.slate) s,
    fun _ h => nomatch h⟩⟩⟩⟩⟩

theorem servicesA_keeps {β : Type} (P : State → β) (hk : ∀ (s : State) x0 x1 x2 x3 x4 x5 x6 x7 x8 x9 x10 x11 x12, P { s with freeCtr := x0, out := x1, evt := x2, boot := x3, fuses := x4, bkp := x5, slots := x6, keys := x7, slate := x8, life := x9, fwNv := x10, fw := x11, maint := x12 } = P s) :
    ∀ v ∈ servicesA, ∀ id r s, P (v.run id r s).st = P s :=
  List.forall_mem_cons.2 ⟨fun _ _ _ => rfl,
    List.forall_mem_cons.2 ⟨fwStageBegin_keeps P (fun s y0 y1 => hk s s.freeCtr s.out s.evt s.boot s.fuses s.bkp s.slots s.keys s.slate s.life y0 y1 s.maint),
    List.forall_mem_cons.2 ⟨fun _ r s => fwStageWrite_keeps P (fun s y0 => hk s s.freeCtr s.out s.evt s.boot s.fuses s.bkp s.slots s.keys s.slate s.life s.fwNv y0 s.maint) r s,
    List.forall_mem_cons.2 ⟨fun _ _ s => fwStageCommit_keeps P (fun s y0 y1 y2 y3 => hk s s.freeCtr y0 y1 s.boot s.fuses s.bkp s.slots s.keys s.slate s.life y2 y3 s.maint) s,
    List.forall_mem_cons.2 ⟨fun _ _ s => fwStageClear_keeps P (fun s y0 y1 => hk s s.freeCtr s.out s.evt s.boot s.fuses s.bkp s.slots s.keys s.slate s.life y0 y1 s.maint) s,
    List.forall_mem_cons.2 ⟨fun id _ s => fwPrepare_keeps P (fun s y0 y1 => hk s s.freeCtr s.out s.evt s.boot s.fuses s.bkp s.slots s.keys s.slate s.life y0 y1 s.maint) id s,
    List.forall_mem_cons.2 ⟨fun _ r s => fwMicrocodeAt_keeps P (fun s y0 y1 => hk s s.freeCtr s.out s.evt s.boot s.fuses s.bkp s.slots s.keys s.slate s.life s.fwNv y0 y1) r s,
    List.forall_mem_cons.2 ⟨fun _ _ s => fwActivate_keeps P s,
    List.forall_mem_cons.2 ⟨fun _ _ s => fwConfirm_keeps P (fun s y0 y1 y2 y3 y4 y5 y6 => hk s s.freeCtr y0 y1 y2 s.fuses y3 s.slots s.keys y4 s.life y5 y6 s.maint) s,
    List.forall_mem_cons.2 ⟨fun _ r s => fwHostBoot_keeps P (fun s y0 y1 y2 y3 y4 => hk s y0 y1 y2 s.boot s.fuses y3 s.slots s.keys y4 s.life s.fwNv s.fw s.maint) none r s,
    List.forall_mem_cons.2 ⟨fun _ r s => lifecycleAdvance_keeps P (fun s y0 y1 y2 y3 y4 y5 y6 y7 y8 => hk s s.freeCtr y0 y1 y2 y3 y4 y5 y6 y7 y8 s.fwNv s.fw s.maint) r s,
    List.forall_mem_cons.2 ⟨fun _ r s => custKeyProgram_keeps P (fun s y0 => hk s s.freeCtr s.out s.evt s.boot y0 s.bkp s.slots s.keys s.slate s.life s.fwNv s.fw s.maint) r s,
    fun _ h => nomatch h⟩⟩⟩⟩⟩⟩⟩⟩⟩⟩⟩⟩

theorem servicesB_keeps {β : Type} (P : State → β) (hk : ∀ (s : State) x0 x1 x2 x3 x4 x5, P { s with out := x0, boot := x1, xlate := x2, chans := x3, prov := x4, safe := x5 } = P s) :
    ∀ v ∈ servicesB, ∀ id r s, P (v.run id r s).st = P s :=
  List.forall_mem_cons.2 ⟨fun _ _ _ => rfl,
    List.forall_mem_cons.2 ⟨fun id _ s => safetyClear_keeps P (fun s y0 => hk s s.out s.boot s.xlate s.chans s.prov y0) id s,
    List.forall_mem_cons.2 ⟨fun id _ s => safetyProofTest_keeps P (fun s y0 => hk s s.out s.boot s.xlate s.chans s.prov y0) id s,
    List.forall_mem_cons.2 ⟨fun _ r s => laneMapGet_keeps P r s,
    List.forall_mem_cons.2 ⟨fun _ r s => repairLedgerGet_keeps P r s,
    List.forall_mem_cons.2 ⟨fun _ _ _ => rfl,
    List.forall_mem_cons.2 ⟨fun _ _ _ => rfl,
    List.forall_mem_cons.2 ⟨fun _ r s => xlateSet_keeps P (fun s y0 => hk s s.out s.boot y0 s.chans s.prov s.safe) r s,
    List.forall_mem_cons.2 ⟨fun _ r s => xlateGet_keeps P r s,
    List.forall_mem_cons.2 ⟨fun _ r s => dmaChanSet_keeps P (fun s y0 y1 => hk s y0 s.boot s.xlate y1 s.prov s.safe) r s,
    List.forall_mem_cons.2 ⟨fun _ r s => dmaChanStatus_keeps P r s,
    List.forall_mem_cons.2 ⟨fun _ r s => dmaChanRestart_keeps P (fun s y0 y1 => hk s s.out s.boot s.xlate y0 y1 s.safe) r s,
    List.forall_mem_cons.2 ⟨fun _ _ _ => rfl,
    List.forall_mem_cons.2 ⟨fun _ r s => resetRequest_keeps P (fun s y0 => hk s s.out y0 s.xlate s.chans s.prov s.safe) r s,
    List.forall_mem_cons.2 ⟨fun _ r s => trainReportGet_keeps P r s,
    fun _ h => nomatch h⟩⟩⟩⟩⟩⟩⟩⟩⟩⟩⟩⟩⟩⟩⟩

theorem servicesC_keeps {β : Type} (P : State → β) (hk : ∀ (s : State) x0 x1 x2 x3 x4 x5 x6 x7 x8 x9 x10 x11 x12 x13 x14, P { s with now := x0, tickAt := x1, timeLoaded := x2, trustSeen := x3, out := x4, evt := x5, bkp := x6, jnv := x7, jnl := x8, prov := x9, roots := x10, ledger := x11, bal := x12, slate := x13, life := x14 } = P s) :
    ∀ v ∈ servicesC, ∀ id r s, P (v.run id r s).st = P s :=
  List.forall_mem_cons.2 ⟨fun _ _ s => timeGet_keeps P s,
    List.forall_mem_cons.2 ⟨fun _ r s => timeSet_keeps P (fun s y0 y1 y2 y3 y4 y5 y6 y7 y8 y9 y10 y11 y12 y13 => hk s y0 y1 y2 y3 y4 y5 y6 y7 y8 y9 y10 y11 y12 s.slate y13) r s,
    List.forall_mem_cons.2 ⟨fun _ r s => timeTrimSet_keeps P (fun s y0 => hk s s.now s.tickAt s.timeLoaded s.trustSeen s.out s.evt y0 s.jnv s.jnl s.prov s.roots s.ledger s.bal s.slate s.life) r s,
    List.forall_mem_cons.2 ⟨fun _ r s => alarmSet_keeps P (fun s y0 => hk s s.now s.tickAt s.timeLoaded s.trustSeen s.out s.evt y0 s.jnv s.jnl s.prov s.roots s.ledger s.bal s.slate s.life) r s,
    List.forall_mem_cons.2 ⟨fun _ r s => alarmGet_keeps P r s,
    List.forall_mem_cons.2 ⟨fun _ _ s => powerOff_keeps P (fun s y0 => hk s s.now s.tickAt s.timeLoaded s.trustSeen s.out s.evt y0 s.jnv s.jnl s.prov s.roots s.ledger s.bal s.slate s.life) s,
    List.forall_mem_cons.2 ⟨fun _ r s => tamperCfgSet_keeps P (fun s y0 => hk s s.now s.tickAt s.timeLoaded s.trustSeen s.out s.evt y0 s.jnv s.jnl s.prov s.roots s.ledger s.bal s.slate s.life) r s,
    List.forall_mem_cons.2 ⟨fun _ _ s => tamperGet_keeps P s,
    List.forall_mem_cons.2 ⟨fun _ r s => tamperClear_keeps P (fun s y0 y1 y2 y3 y4 => hk s s.now s.tickAt s.timeLoaded s.trustSeen y0 y1 y2 s.jnv s.jnl s.prov s.roots s.ledger s.bal y3 y4) r s,
    fun _ h => nomatch h⟩⟩⟩⟩⟩⟩⟩⟩⟩

theorem services_keeps {β : Type} (P : State → β) (hk : ∀ (s : State) x0 x1 x2 x3 x4 x5 x6 x7 x8 x9 x10 x11 x12 x13 x14 x15 x16 x17 x18 x19 x20 x21 x22 x23 x24 x25 x26 x27 x28 x29 x30 x31 x32 x33 x34 x35 x36 x37 x38 x39 x40, P { s with now := x0, tickAt := x1, timeLoaded := x2, trustSeen := x3, freeCtr := x4, out := x5, cfg := x6, mbxs := x7, ops := x8, evt := x9, boot := x10, fuses := x11, bkp := x12, rf := x13, lanes := x14, roles := x15, rot := x16, sectors := x17, plc := x18, plcMac := x19, dir := x20, eps := x21, blobs := x22, mem := x23, xlate := x24, chans := x25, jnv := x26, jnl := x27, prov := x28, roots := x29, ledger := x30, bal := x31, camps := x32, slots := x33, keys := x34, slate := x35, life := x36, fwNv := x37, fw := x38, safe := x39, maint := x40 } = P s) :
    ∀ v ∈ services, ∀ id r s, P (v.run id r s).st = P s :=
  List.forall_mem_append.2 ⟨List.forall_mem_append.2 ⟨List.forall_mem_append.2 ⟨List.forall_mem_append.2 ⟨List.forall_mem_append.2 ⟨List.forall_mem_append.2 ⟨List.forall_mem_append.2 ⟨List.forall_mem_append.2 ⟨List.forall_mem_append.2 ⟨List.forall_mem_append.2 ⟨List.forall_mem_append.2 ⟨(services1_keeps P (fun s y0 y1 y2 y3 y4 y5 y6 => hk s s.now s.tickAt s.timeLoaded s.trustSeen s.freeCtr y0 y1 s.mbxs s.ops y2 s.boot s.fuses s.bkp y3 s.lanes s.roles s.rot s.sectors s.plc s.plcMac s.dir s.eps s.blobs s.mem s.xlate s.chans s.jnv y4 y5 s.roots s.ledger s.bal s.camps s.slots s.keys y6 s.life s.fwNv s.fw s.safe s.maint)),
    (services2_keeps P (fun s y0 y1 y2 y3 y4 y5 y6 y7 y8 y9 => hk s s.now s.tickAt s.timeLoaded s.trustSeen y0 y1 y2 s.mbxs s.ops y3 s.boot s.fuses s.bkp s.rf y4 y5 y6 y7 s.plc s.plcMac s.dir y8 s.blobs y9 s.xlate s.chans s.jnv s.jnl s.prov s.roots s.ledger s.bal s.camps s.slots s.keys s.slate s.life s.fwNv s.fw s.safe s.maint))⟩,
    (services3_keeps P (fun s y0 y1 y2 y3 y4 y5 => hk s s.now s.tickAt s.timeLoaded s.trustSeen s.freeCtr y0 s.cfg s.mbxs s.ops y1 s.boot s.fuses s.bkp s.rf s.lanes s.roles s.rot s.sectors y2 y3 s.dir y4 s.blobs y5 s.xlate s.chans s.jnv s.jnl s.prov s.roots s.ledger s.bal s.camps s.slots s.keys s.slate s.life s.fwNv s.fw s.safe s.maint))⟩,
    (services4_keeps P (fun s y0 y1 y2 y3 y4 y5 y6 y7 y8 y9 y10 y11 y12 y13 y14 y15 y16 y17 y18 => hk s s.now s.tickAt s.timeLoaded s.trustSeen s.freeCtr y0 s.cfg y1 y2 y3 s.boot s.fuses y4 s.rf s.lanes s.roles s.rot y5 s.plc y6 y7 y8 s.blobs y9 s.xlate s.chans y10 y11 y12 y13 y14 y15 s.camps s.slots s.keys y16 y17 s.fwNv s.fw s.safe y18))⟩,
    (services5_keeps P (fun s y0 y1 y2 y3 y4 y5 y6 y7 y8 y9 y10 y11 y12 y13 y14 y15 y16 y17 => hk s s.now s.tickAt s.timeLoaded s.trustSeen s.freeCtr y0 s.cfg y1 y2 y3 y4 s.fuses y5 s.rf s.lanes s.roles s.rot s.sectors s.plc s.plcMac y6 y7 s.blobs y8 s.xlate y9 y10 y11 y12 y13 y14 y15 s.camps s.slots s.keys y16 y17 s.fwNv s.fw s.safe s.maint))⟩,
    (services6_keeps P (fun s y0 y1 y2 y3 => hk s s.now s.tickAt s.timeLoaded s.trustSeen s.freeCtr y0 s.cfg s.mbxs s.ops y1 s.boot s.fuses s.bkp s.rf s.lanes s.roles s.rot s.sectors s.plc s.plcMac s.dir s.eps s.blobs s.mem s.xlate y2 s.jnv s.jnl s.prov s.roots s.ledger y3 s.camps s.slots s.keys s.slate s.life s.fwNv s.fw s.safe s.maint))⟩,
    (services7_keeps P (fun s y0 y1 y2 y3 y4 y5 y6 y7 y8 y9 y10 y11 y12 y13 => hk s s.now s.tickAt s.timeLoaded s.trustSeen s.freeCtr y0 s.cfg y1 y2 y3 s.boot s.fuses y4 s.rf s.lanes s.roles s.rot s.sectors s.plc s.plcMac s.dir y5 s.blobs y6 s.xlate s.chans y7 y8 y9 y10 s.ledger s.bal y11 s.slots s.keys y12 y13 s.fwNv s.fw s.safe s.maint))⟩,
    (services8_keeps P (fun s y0 y1 y2 y3 y4 y5 y6 y7 y8 y9 y10 => hk s s.now s.tickAt s.timeLoaded s.trustSeen y0 y1 s.cfg s.mbxs s.ops y2 s.boot s.fuses y3 s.rf s.lanes s.roles s.rot s.sectors s.plc s.plcMac s.dir y4 y5 s.mem s.xlate s.chans s.jnv s.jnl s.prov s.roots s.ledger s.bal s.camps y6 y7 y8 y9 s.fwNv s.fw s.safe y10))⟩,
    (services9_keeps P (fun s y0 y1 y2 => hk s s.now s.tickAt s.timeLoaded s.trustSeen s.freeCtr s.out s.cfg s.mbxs s.ops s.evt s.boot s.fuses y0 s.rf s.lanes s.roles s.rot s.sectors s.plc s.plcMac s.dir s.eps s.blobs s.mem s.xlate y1 s.jnv s.jnl s.prov s.roots s.ledger s.bal s.camps s.slots s.keys y2 s.life s.fwNv s.fw s.safe s.maint))⟩,
    (servicesA_keeps P (fun s y0 y1 y2 y3 y4 y5 y6 y7 y8 y9 y10 y11 y12 => hk s s.now s.tickAt s.timeLoaded s.trustSeen y0 y1 s.cfg s.mbxs s.ops y2 y3 y4 y5 s.rf s.lanes s.roles s.rot s.sectors s.plc s.plcMac s.dir s.eps s.blobs s.mem s.xlate s.chans s.jnv s.jnl s.prov s.roots s.ledger s.bal s.camps y6 y7 y8 y9 y10 y11 s.safe y12))⟩,
    (servicesB_keeps P (fun s y0 y1 y2 y3 y4 y5 => hk s s.now s.tickAt s.timeLoaded s.trustSeen s.freeCtr y0 s.cfg s.mbxs s.ops s.evt y1 s.fuses s.bkp s.rf s.lanes s.roles s.rot s.sectors s.plc s.plcMac s.dir s.eps s.blobs s.mem y2 y3 s.jnv s.jnl y4 s.roots s.ledger s.bal s.camps s.slots s.keys s.slate s.life s.fwNv s.fw y5 s.maint))⟩,
    (servicesC_keeps P (fun s y0 y1 y2 y3 y4 y5 y6 y7 y8 y9 y10 y11 y12 y13 y14 => hk s y0 y1 y2 y3 s.freeCtr y4 s.cfg s.mbxs s.ops y5 s.boot s.fuses y6 s.rf s.lanes s.roles s.rot s.sectors s.plc s.plcMac s.dir s.eps s.blobs s.mem s.xlate s.chans y7 y8 y9 y10 y11 y12 s.camps s.slots s.keys y13 y14 s.fwNv s.fw s.safe s.maint))⟩

theorem execRequestWaitEnd_keeps {β : Type} (P : State → β) (hk : ∀ (s : State) x0 x1 x2 x3 x4 x5 x6 x7 x8 x9 x10 x11 x12 x13 x14 x15 x16 x17 x18 x19 x20 x21 x22 x23 x24 x25 x26 x27 x28 x29 x30 x31 x32 x33 x34 x35 x36 x37 x38 x39 x40, P { s with now := x0, tickAt := x1, timeLoaded := x2, trustSeen := x3, freeCtr := x4, out := x5, cfg := x6, mbxs := x7, ops := x8, evt := x9, boot := x10, fuses := x11, bkp := x12, rf := x13, lanes := x14, roles := x15, rot := x16, sectors := x17, plc := x18, plcMac := x19, dir := x20, eps := x21, blobs := x22, mem := x23, xlate := x24, chans := x25, jnv := x26, jnl := x27, prov := x28, roots := x29, ledger := x30, bal := x31, camps := x32, slots := x33, keys := x34, slate := x35, life := x36, fwNv := x37, fw := x38, safe := x39, maint := x40 } = P s)
    (op : Nat) (s : State) (s' : State) (e : execRequestWaitEnd op s = .next s') : P s' = P s :=
  (congrArg P (Host.Outcome.next.inj e)).symm.trans (requestWaitEnd_keeps P (fun s y0 y1 y2 y3 y4 y5 y6 => hk s s.now s.tickAt s.timeLoaded s.trustSeen s.freeCtr y0 s.cfg y1 y2 y3 s.boot s.fuses y4 s.rf s.lanes s.roles s.rot s.sectors s.plc s.plcMac s.dir s.eps s.blobs s.mem s.xlate s.chans s.jnv s.jnl s.prov s.roots s.ledger s.bal s.camps s.slots s.keys y5 s.life s.fwNv y6 s.safe s.maint) (services_keeps P (fun s y0 y1 y2 y3 y4 y5 y6 y7 y8 y9 y10 y11 y12 y13 y14 y15 y16 y17 y18 y19 y20 y21 y22 y23 y24 y25 y26 y27 y28 y29 y30 y31 y32 y33 y34 y35 y36 y37 y38 y39 y40 => hk s y0 y1 y2 y3 y4 y5 y6 y7 y8 y9 y10 y11 y12 y13 y14 y15 y16 y17 y18 y19 y20 y21 y22 y23 y24 y25 y26 y27 y28 y29 y30 y31 y32 y33 y34 y35 y36 y37 y38 y39 y40)) op s)

end Sys2Proof.Machine
end

