-- ==== Sys2Proof/Laws/Shared.lean ====
section
/-! SUPPORT. Each shared operation: everything that it can do, said once. -/

namespace Sys2Proof.Machine

/-- A request that comes to run is answered as its opcode's run says. -/
theorem serve_served (v : Service) (r : Req) (s : State) (h : Served v r s = true) :
    serve v r s = match v.run (taken r s).nextOp r (taken r s) with
      | .done s1 st p => answer v.opcode r st p s1
      | .twice s1 st p => answer v.opcode r st p (answer v.opcode r .pending [] s1)
      | .pend s1 objs => begun v.opcode r objs s1
      | .wait s1 => startWait v r false s1 := by
  simp only [Served, Bool.and_eq_true, Bool.not_eq_true', taken] at h
  obtain ⟨⟨⟨⟨⟨⟨⟨h1, h2⟩, h3⟩, h4⟩, h5⟩, h6⟩, h7⟩, h8⟩ := h
  have h4' : ¬ (v.opcode / 256 = 3 ∧
      isXn7440 (setMbx r.mbx (fun x => { x with fetched := none, fetchedOrphan := false }) s) = true) := by
    simpa using h4
  simp only [serve, h1, h2, h3, serveHeld, taken]
  simp only [h5, h6, h7, h8, answer, begun]
  simp [h4']
  all_goals rfl

/-- A request that is answered at once. -/
theorem serve_done (v : Service) (r : Req) (s s1 : State) (st : Status) (p : List Byte) (h : Served v r s = true)
    (e : v.run (taken r s).nextOp r (taken r s) = .done s1 st p) : serve v r s = answer v.opcode r st p s1 := by
  rw [serve_served v r s h, e]

/-- A request whose operation starts. -/
theorem serve_pend (v : Service) (r : Req) (s s1 : State) (objs : List Obj) (h : Served v r s = true)
    (e : v.run (taken r s).nextOp r (taken r s) = .pend s1 objs) : serve v r s = begun v.opcode r objs s1 := by
  rw [serve_served v r s h, e]

/-- A request that is answered PENDING and then finally in the same step. -/
theorem serve_twice (v : Service) (r : Req) (s s1 : State) (st : Status) (p : List Byte) (h : Served v r s = true)
    (e : v.run (taken r s).nextOp r (taken r s) = .twice s1 st p) :
    serve v r s = answer v.opcode r st p (answer v.opcode r .pending [] s1) := by
  rw [serve_served v r s h, e]

/-- A request that must wait is answered PENDING and stands until REQUEST_WAIT_END. -/
theorem serve_wait (v : Service) (r : Req) (s s1 : State) (h : Served v r s = true)
    (e : v.run (taken r s).nextOp r (taken r s) = .wait s1) : serve v r s = startWait v r false s1 := by
  rw [serve_served v r s h, e]

/-- Sending or holding a message changes no pending bit. -/
@[simp] theorem sendVector_pend (n v : Nat) (s : State) : (sendVector n v s).evt.pend = s.evt.pend := by
  unfold sendVector
  dsimp only
  split
  · rfl
  · split <;> rfl

/-- Sending or holding a message writes the event block and the messages sent, nothing else. -/
theorem sendVector_frame (n v : Nat) (s : State) :
    sendVector n v s = { s with evt := (sendVector n v s).evt, out := (sendVector n v s).out } := by
  unfold sendVector
  dsimp only
  split
  · rfl
  · split <;> rfl

/-- An occurrence of a source leaves its pending bit 1 when the source is defined, and no other bit changes (R62, R63). -/
theorem raise_pend (n : Nat) (s : State) :
    (raise n s).evt.pend = if sourceDefined n = true then s.evt.pend ||| (1#256 <<< n) else s.evt.pend := by
  unfold raise
  split
  · next h => simp at h; simp [h]
  · next h =>
    simp at h
    simp only [h, if_true]
    split
    · next hp =>
      ext i hi
      simp only [BitVec.getElem_or, BitVec.getElem_shiftLeft]
      by_cases e : i = n
      · subst e; simp [BitVec.getLsbD_eq_getElem hi] at hp; simp [hp]
      · simp [BitVec.getElem_one]; omega
    · split
      · exact sendVector_pend _ _ _
      · rfl

/-- An occurrence of a source writes the event block and the messages sent, nothing else (R63). -/
theorem raise_frame (n : Nat) (s : State) : raise n s = { s with evt := (raise n s).evt, out := (raise n s).out } := by
  unfold raise
  dsimp only
  split
  · rfl
  · split
    · rfl
    · split
      · exact sendVector_frame _ _ _
      · rfl

/-! ### What the journal takes -/

theorem nextGood_of {s t : State} (hj : t.jnv = s.jnv) (hl : t.life = s.life) : ∀ n run h, nextGood t n run h = nextGood s n run h := by
  intro n
  induction n with
  | zero => intros; rfl
  | succ n ih =>
    intro run h
    unfold nextGood inRepair
    rw [hj, hl, ih, ih]

theorem headAfter_of {s t : State} (hj : t.jnv = s.jnv) (hl : t.life = s.life) : ∀ n h, headAfter t n h = headAfter s n h := by
  intro n
  induction n with
  | zero => intros; rfl
  | succ n ih =>
    intro h
    unfold headAfter nextJseq
    rw [nextGood_of hj hl]
    cases nextGood s 8209 0 h with
    | none => rfl
    | some k => exact ih _

/-- What the journal takes depends on the journal, the repair ledger, the pause, the second and the trust in time alone. -/
theorem jnlTakes_of {s t : State} (hj : t.jnv = s.jnv) (hl : t.life = s.life) (hw : t.jnl = s.jnl) (hf : t.fw.pause = s.fw.pause) (hn : t.now = s.now)
    (hb : trusted t = trusted s) (n : Nat) : jnlTakes n t = jnlTakes n s := by
  unfold jnlTakes jnlRuns jnlFits groupNeeds needsTime secs
  rw [hj, hw, hf, hn, hb]
  simp only [headAfter_of hj hl]

@[simp] theorem jnlTakes_taken (r : Req) (s : State) (n : Nat) : jnlTakes n (taken r s) = jnlTakes n s :=
  jnlTakes_of (s := s) (t := taken r s) rfl rfl rfl rfl rfl rfl n

@[simp] theorem ledgerOk_taken (r : Req) (s : State) : ledgerOk (taken r s) = ledgerOk s := jnlTakes_taken r s 1

end Sys2Proof.Machine
end

