-- ==== Sys2Proof/Laws/Tables.lean ====
section
/-! SUPPORT. What a table reads after a write: the key written holds the value, every other key what it held; and the keys stay strictly rising. -/

namespace Sys2Proof.Machine

theorem tfind_tset_same {α : Type} (v : α) (k : Nat) : ∀ t : Tbl α, tfind (tset t k v) k = some v
  | [] => by simp [tset, tfind]
  | (j, w) :: rest => by
    simp only [tset]
    split
    · simp [tfind]
    · split
      · simp [tfind]
      · next h => simp [tfind, Ne.symm h, tfind_tset_same v k rest]

theorem tfind_tset_other {α : Type} (v : α) {k i : Nat} (h : i ≠ k) : ∀ t : Tbl α, tfind (tset t k v) i = tfind t i
  | [] => by simp [tset, tfind, Ne.symm h]
  | (j, w) :: rest => by
    simp only [tset]
    split
    · simp [tfind, Ne.symm h]
    · split
      · next e => subst e; simp [tfind, Ne.symm h]
      · simp [tfind, tfind_tset_other v h rest]

theorem tfind_tdel_same {α : Type} (k : Nat) : ∀ t : Tbl α, tfind (tdel t k) k = none
  | [] => rfl
  | (j, w) :: rest => by
    by_cases e : j = k
    · simpa [tdel, e] using tfind_tdel_same k rest
    · simpa [tdel, e, tfind] using tfind_tdel_same k rest

theorem tfind_tdel_other {α : Type} {k i : Nat} (h : i ≠ k) : ∀ t : Tbl α, tfind (tdel t k) i = tfind t i
  | [] => rfl
  | (j, w) :: rest => by
    by_cases e : j = k
    · subst e; simpa [tdel, tfind, Ne.symm h] using tfind_tdel_other h rest
    · by_cases e2 : j = i
      · simp [tdel, tfind, e2, h]
      · simpa [tdel, e, tfind, e2] using tfind_tdel_other h rest

@[simp] theorem tget_tset_same {α : Type} (t : Tbl α) (k : Nat) (v d : α) : tget (tset t k v) k d = v := by
  simp [tget, tfind_tset_same]

theorem tget_tset_other {α : Type} (t : Tbl α) {k i : Nat} (v d : α) (h : i ≠ k) : tget (tset t k v) i d = tget t i d := by
  simp [tget, tfind_tset_other v h]

@[simp] theorem tget_tupd_same {α : Type} (t : Tbl α) (k : Nat) (d : α) (f : α → α) : tget (tupd t k d f) k d = f (tget t k d) := by
  simp [tupd]

theorem tget_tupd_other {α : Type} (t : Tbl α) {k i : Nat} (d e : α) (f : α → α) (h : i ≠ k) :
    tget (tupd t k d f) i e = tget t i e := by
  simp [tupd, tget_tset_other _ _ _ h]

@[simp] theorem tget_tdel_same {α : Type} (t : Tbl α) (k : Nat) (d : α) : tget (tdel t k) k d = d := by
  simp [tget, tfind_tdel_same]

theorem tget_tdel_other {α : Type} (t : Tbl α) {k i : Nat} (d : α) (h : i ≠ k) : tget (tdel t k) i d = tget t i d := by
  simp [tget, tfind_tdel_other h]

/-- A second write of a key replaces the first. -/
theorem tset_tset {α : Type} (k : Nat) (v w : α) : ∀ t : Tbl α, tset (tset t k v) k w = tset t k w
  | [] => by simp [tset]
  | (j, u) :: rest => by
    simp only [tset]
    split
    · simp [tset]
    · split
      · simp [tset]
      · next h1 h2 => simp only [tset, if_neg h1, if_neg h2, tset_tset k v w rest]

theorem tupd_tupd {α : Type} (t : Tbl α) (k : Nat) (d : α) (f g : α → α) :
    tupd (tupd t k d f) k d g = tupd t k d (fun x => g (f x)) := by
  simp only [tupd, tget_tset_same, tset_tset]

/-- The form of a table: keys strictly rising. -/
def tRising {α : Type} (t : Tbl α) : Prop := t.Pairwise (fun a b => a.1 < b.1)

theorem tRising_nil {α : Type} : tRising ([] : Tbl α) := List.Pairwise.nil

/-- A key above a bound stays above it when another key above the bound is written. -/
theorem mem_tset {α : Type} (k : Nat) (v : α) : ∀ (t : Tbl α) (e : Nat × α), e ∈ tset t k v → e = (k, v) ∨ e ∈ t
  | [], e, h => by simpa [tset] using h
  | (j, w) :: rest, e, h => by
    simp only [tset] at h
    split at h
    · simpa using h
    · split at h
      · rcases List.mem_cons.1 h with h | h <;> simp [h]
      · rcases List.mem_cons.1 h with h | h
        · simp [h]
        · rcases mem_tset k v rest e h with h | h <;> simp [h]

/-- A write keeps the keys of a table strictly rising. -/
theorem tset_rising {α : Type} (k : Nat) (v : α) : ∀ t : Tbl α, tRising t → tRising (tset t k v)
  | [], _ => by simp [tRising, tset]
  | (j, w) :: rest, h => by
    have h1 := List.pairwise_cons.1 h
    simp only [tset]
    split
    · next lt =>
      refine List.pairwise_cons.2 ⟨fun e he => ?_, h⟩
      rcases List.mem_cons.1 he with he | he
      · subst he; exact lt
      · exact Nat.lt_trans lt (h1.1 e he)
    · split
      · next e => subst e; exact List.pairwise_cons.2 h1
      · next n1 n2 =>
        refine List.pairwise_cons.2 ⟨fun e he => ?_, tset_rising k v rest h1.2⟩
        rcases mem_tset k v rest e he with he | he
        · subst he; simp only; omega
        · exact h1.1 e he

/-- Deleting a key keeps the keys strictly rising. -/
theorem tdel_rising {α : Type} (t : Tbl α) (k : Nat) (h : tRising t) : tRising (tdel t k) :=
  List.Pairwise.filter _ h

/-- Changing an entry keeps the keys strictly rising. -/
theorem tupd_rising {α : Type} (t : Tbl α) (k : Nat) (d : α) (f : α → α) (h : tRising t) :
    tRising (tupd t k d f) := tset_rising k _ t h

end Sys2Proof.Machine
end

