-- ==== Sys2Proof/Laws/State.lean ====
section
/-! SUPPORT. What each plain update of the state leaves: one lemma a field, true by rfl. -/

namespace Sys2Proof.Machine

@[simp] theorem setIsl_pending (i : Nat) (f : Island → Island) (s : State) : (setIsl i f s).pending = s.pending := rfl
@[simp] theorem setIsl_now (i : Nat) (f : Island → Island) (s : State) : (setIsl i f s).now = s.now := rfl
@[simp] theorem setIsl_mono (i : Nat) (f : Island → Island) (s : State) : (setIsl i f s).mono = s.mono := rfl
@[simp] theorem setIsl_tickAt (i : Nat) (f : Island → Island) (s : State) : (setIsl i f s).tickAt = s.tickAt := rfl
@[simp] theorem setIsl_timeLoaded (i : Nat) (f : Island → Island) (s : State) : (setIsl i f s).timeLoaded = s.timeLoaded := rfl
@[simp] theorem setIsl_trustSeen (i : Nat) (f : Island → Island) (s : State) : (setIsl i f s).trustSeen = s.trustSeen := rfl
@[simp] theorem setIsl_freeCtr (i : Nat) (f : Island → Island) (s : State) : (setIsl i f s).freeCtr = s.freeCtr := rfl
@[simp] theorem setIsl_out (i : Nat) (f : Island → Island) (s : State) : (setIsl i f s).out = s.out := rfl
@[simp] theorem setIsl_cfg (i : Nat) (f : Island → Island) (s : State) : (setIsl i f s).cfg = s.cfg := rfl
@[simp] theorem setIsl_mbxs (i : Nat) (f : Island → Island) (s : State) : (setIsl i f s).mbxs = s.mbxs := rfl
@[simp] theorem setIsl_rrNext (i : Nat) (f : Island → Island) (s : State) : (setIsl i f s).rrNext = s.rrNext := rfl
@[simp] theorem setIsl_fetchCtr (i : Nat) (f : Island → Island) (s : State) : (setIsl i f s).fetchCtr = s.fetchCtr := rfl
@[simp] theorem setIsl_ops (i : Nat) (f : Island → Island) (s : State) : (setIsl i f s).ops = s.ops := rfl
@[simp] theorem setIsl_nextOp (i : Nat) (f : Island → Island) (s : State) : (setIsl i f s).nextOp = s.nextOp := rfl
@[simp] theorem setIsl_evt (i : Nat) (f : Island → Island) (s : State) : (setIsl i f s).evt = s.evt := rfl
@[simp] theorem setIsl_glb (i : Nat) (f : Island → Island) (s : State) : (setIsl i f s).glb = s.glb := rfl
@[simp] theorem setIsl_mir (i : Nat) (f : Island → Island) (s : State) : (setIsl i f s).mir = s.mir := rfl
@[simp] theorem setIsl_links (i : Nat) (f : Island → Island) (s : State) : (setIsl i f s).links = s.links := rfl
@[simp] theorem setIsl_auditAt (i : Nat) (f : Island → Island) (s : State) : (setIsl i f s).auditAt = s.auditAt := rfl
@[simp] theorem setIsl_boot (i : Nat) (f : Island → Island) (s : State) : (setIsl i f s).boot = s.boot := rfl
@[simp] theorem setIsl_pcie (i : Nat) (f : Island → Island) (s : State) : (setIsl i f s).pcie = s.pcie := rfl
@[simp] theorem setIsl_fuses (i : Nat) (f : Island → Island) (s : State) : (setIsl i f s).fuses = s.fuses := rfl
@[simp] theorem setIsl_mon (i : Nat) (f : Island → Island) (s : State) : (setIsl i f s).mon = s.mon := rfl
@[simp] theorem setIsl_bkp (i : Nat) (f : Island → Island) (s : State) : (setIsl i f s).bkp = s.bkp := rfl
@[simp] theorem setIsl_rf (i : Nat) (f : Island → Island) (s : State) : (setIsl i f s).rf = s.rf := rfl
@[simp] theorem setIsl_lanes (i : Nat) (f : Island → Island) (s : State) : (setIsl i f s).lanes = s.lanes := rfl
@[simp] theorem setIsl_laneCount (i : Nat) (f : Island → Island) (s : State) : (setIsl i f s).laneCount = s.laneCount := rfl
@[simp] theorem setIsl_roles (i : Nat) (f : Island → Island) (s : State) : (setIsl i f s).roles = s.roles := rfl
@[simp] theorem setIsl_rot (i : Nat) (f : Island → Island) (s : State) : (setIsl i f s).rot = s.rot := rfl
@[simp] theorem setIsl_sectors (i : Nat) (f : Island → Island) (s : State) : (setIsl i f s).sectors = s.sectors := rfl
@[simp] theorem setIsl_duty (i : Nat) (f : Island → Island) (s : State) : (setIsl i f s).duty = s.duty := rfl
@[simp] theorem setIsl_plc (i : Nat) (f : Island → Island) (s : State) : (setIsl i f s).plc = s.plc := rfl
@[simp] theorem setIsl_plcMac (i : Nat) (f : Island → Island) (s : State) : (setIsl i f s).plcMac = s.plcMac := rfl
@[simp] theorem setIsl_dir (i : Nat) (f : Island → Island) (s : State) : (setIsl i f s).dir = s.dir := rfl
@[simp] theorem setIsl_eps (i : Nat) (f : Island → Island) (s : State) : (setIsl i f s).eps = s.eps := rfl
@[simp] theorem setIsl_blobs (i : Nat) (f : Island → Island) (s : State) : (setIsl i f s).blobs = s.blobs := rfl
@[simp] theorem setIsl_mem (i : Nat) (f : Island → Island) (s : State) : (setIsl i f s).mem = s.mem := rfl
@[simp] theorem setIsl_xlate (i : Nat) (f : Island → Island) (s : State) : (setIsl i f s).xlate = s.xlate := rfl
@[simp] theorem setIsl_chans (i : Nat) (f : Island → Island) (s : State) : (setIsl i f s).chans = s.chans := rfl
@[simp] theorem setIsl_jnv (i : Nat) (f : Island → Island) (s : State) : (setIsl i f s).jnv = s.jnv := rfl
@[simp] theorem setIsl_jnl (i : Nat) (f : Island → Island) (s : State) : (setIsl i f s).jnl = s.jnl := rfl
@[simp] theorem setIsl_prov (i : Nat) (f : Island → Island) (s : State) : (setIsl i f s).prov = s.prov := rfl
@[simp] theorem setIsl_roots (i : Nat) (f : Island → Island) (s : State) : (setIsl i f s).roots = s.roots := rfl
@[simp] theorem setIsl_ledger (i : Nat) (f : Island → Island) (s : State) : (setIsl i f s).ledger = s.ledger := rfl
@[simp] theorem setIsl_bal (i : Nat) (f : Island → Island) (s : State) : (setIsl i f s).bal = s.bal := rfl
@[simp] theorem setIsl_camps (i : Nat) (f : Island → Island) (s : State) : (setIsl i f s).camps = s.camps := rfl
@[simp] theorem setIsl_confUnmatched (i : Nat) (f : Island → Island) (s : State) : (setIsl i f s).confUnmatched = s.confUnmatched := rfl
@[simp] theorem setIsl_slots (i : Nat) (f : Island → Island) (s : State) : (setIsl i f s).slots = s.slots := rfl
@[simp] theorem setIsl_keys (i : Nat) (f : Island → Island) (s : State) : (setIsl i f s).keys = s.keys := rfl
@[simp] theorem setIsl_slateNv (i : Nat) (f : Island → Island) (s : State) : (setIsl i f s).slateNv = s.slateNv := rfl
@[simp] theorem setIsl_slate (i : Nat) (f : Island → Island) (s : State) : (setIsl i f s).slate = s.slate := rfl
@[simp] theorem setIsl_life (i : Nat) (f : Island → Island) (s : State) : (setIsl i f s).life = s.life := rfl
@[simp] theorem setIsl_fwNv (i : Nat) (f : Island → Island) (s : State) : (setIsl i f s).fwNv = s.fwNv := rfl
@[simp] theorem setIsl_fw (i : Nat) (f : Island → Island) (s : State) : (setIsl i f s).fw = s.fw := rfl
@[simp] theorem setIsl_safe (i : Nat) (f : Island → Island) (s : State) : (setIsl i f s).safe = s.safe := rfl
@[simp] theorem setIsl_faultTimes (i : Nat) (f : Island → Island) (s : State) : (setIsl i f s).faultTimes = s.faultTimes := rfl
@[simp] theorem setIsl_maint (i : Nat) (f : Island → Island) (s : State) : (setIsl i f s).maint = s.maint := rfl

@[simp] theorem setMbx_pending (m : Nat) (f : Mbx → Mbx) (s : State) : (setMbx m f s).pending = s.pending := rfl
@[simp] theorem setMbx_now (m : Nat) (f : Mbx → Mbx) (s : State) : (setMbx m f s).now = s.now := rfl
@[simp] theorem setMbx_mono (m : Nat) (f : Mbx → Mbx) (s : State) : (setMbx m f s).mono = s.mono := rfl
@[simp] theorem setMbx_tickAt (m : Nat) (f : Mbx → Mbx) (s : State) : (setMbx m f s).tickAt = s.tickAt := rfl
@[simp] theorem setMbx_timeLoaded (m : Nat) (f : Mbx → Mbx) (s : State) : (setMbx m f s).timeLoaded = s.timeLoaded := rfl
@[simp] theorem setMbx_trustSeen (m : Nat) (f : Mbx → Mbx) (s : State) : (setMbx m f s).trustSeen = s.trustSeen := rfl
@[simp] theorem setMbx_freeCtr (m : Nat) (f : Mbx → Mbx) (s : State) : (setMbx m f s).freeCtr = s.freeCtr := rfl
@[simp] theorem setMbx_out (m : Nat) (f : Mbx → Mbx) (s : State) : (setMbx m f s).out = s.out := rfl
@[simp] theorem setMbx_cfg (m : Nat) (f : Mbx → Mbx) (s : State) : (setMbx m f s).cfg = s.cfg := rfl
@[simp] theorem setMbx_rrNext (m : Nat) (f : Mbx → Mbx) (s : State) : (setMbx m f s).rrNext = s.rrNext := rfl
@[simp] theorem setMbx_fetchCtr (m : Nat) (f : Mbx → Mbx) (s : State) : (setMbx m f s).fetchCtr = s.fetchCtr := rfl
@[simp] theorem setMbx_ops (m : Nat) (f : Mbx → Mbx) (s : State) : (setMbx m f s).ops = s.ops := rfl
@[simp] theorem setMbx_nextOp (m : Nat) (f : Mbx → Mbx) (s : State) : (setMbx m f s).nextOp = s.nextOp := rfl
@[simp] theorem setMbx_evt (m : Nat) (f : Mbx → Mbx) (s : State) : (setMbx m f s).evt = s.evt := rfl
@[simp] theorem setMbx_glb (m : Nat) (f : Mbx → Mbx) (s : State) : (setMbx m f s).glb = s.glb := rfl
@[simp] theorem setMbx_mir (m : Nat) (f : Mbx → Mbx) (s : State) : (setMbx m f s).mir = s.mir := rfl
@[simp] theorem setMbx_isl (m : Nat) (f : Mbx → Mbx) (s : State) : (setMbx m f s).isl = s.isl := rfl
@[simp] theorem setMbx_links (m : Nat) (f : Mbx → Mbx) (s : State) : (setMbx m f s).links = s.links := rfl
@[simp] theorem setMbx_auditAt (m : Nat) (f : Mbx → Mbx) (s : State) : (setMbx m f s).auditAt = s.auditAt := rfl
@[simp] theorem setMbx_boot (m : Nat) (f : Mbx → Mbx) (s : State) : (setMbx m f s).boot = s.boot := rfl
@[simp] theorem setMbx_pcie (m : Nat) (f : Mbx → Mbx) (s : State) : (setMbx m f s).pcie = s.pcie := rfl
@[simp] theorem setMbx_fuses (m : Nat) (f : Mbx → Mbx) (s : State) : (setMbx m f s).fuses = s.fuses := rfl
@[simp] theorem setMbx_mon (m : Nat) (f : Mbx → Mbx) (s : State) : (setMbx m f s).mon = s.mon := rfl
@[simp] theorem setMbx_bkp (m : Nat) (f : Mbx → Mbx) (s : State) : (setMbx m f s).bkp = s.bkp := rfl
@[simp] theorem setMbx_rf (m : Nat) (f : Mbx → Mbx) (s : State) : (setMbx m f s).rf = s.rf := rfl
@[simp] theorem setMbx_lanes (m : Nat) (f : Mbx → Mbx) (s : State) : (setMbx m f s).lanes = s.lanes := rfl
@[simp] theorem setMbx_laneCount (m : Nat) (f : Mbx → Mbx) (s : State) : (setMbx m f s).laneCount = s.laneCount := rfl
@[simp] theorem setMbx_roles (m : Nat) (f : Mbx → Mbx) (s : State) : (setMbx m f s).roles = s.roles := rfl
@[simp] theorem setMbx_rot (m : Nat) (f : Mbx → Mbx) (s : State) : (setMbx m f s).rot = s.rot := rfl
@[simp] theorem setMbx_sectors (m : Nat) (f : Mbx → Mbx) (s : State) : (setMbx m f s).sectors = s.sectors := rfl
@[simp] theorem setMbx_duty (m : Nat) (f : Mbx → Mbx) (s : State) : (setMbx m f s).duty = s.duty := rfl
@[simp] theorem setMbx_plc (m : Nat) (f : Mbx → Mbx) (s : State) : (setMbx m f s).plc = s.plc := rfl
@[simp] theorem setMbx_plcMac (m : Nat) (f : Mbx → Mbx) (s : State) : (setMbx m f s).plcMac = s.plcMac := rfl
@[simp] theorem setMbx_dir (m : Nat) (f : Mbx → Mbx) (s : State) : (setMbx m f s).dir = s.dir := rfl
@[simp] theorem setMbx_eps (m : Nat) (f : Mbx → Mbx) (s : State) : (setMbx m f s).eps = s.eps := rfl
@[simp] theorem setMbx_blobs (m : Nat) (f : Mbx → Mbx) (s : State) : (setMbx m f s).blobs = s.blobs := rfl
@[simp] theorem setMbx_mem (m : Nat) (f : Mbx → Mbx) (s : State) : (setMbx m f s).mem = s.mem := rfl
@[simp] theorem setMbx_xlate (m : Nat) (f : Mbx → Mbx) (s : State) : (setMbx m f s).xlate = s.xlate := rfl
@[simp] theorem setMbx_chans (m : Nat) (f : Mbx → Mbx) (s : State) : (setMbx m f s).chans = s.chans := rfl
@[simp] theorem setMbx_jnv (m : Nat) (f : Mbx → Mbx) (s : State) : (setMbx m f s).jnv = s.jnv := rfl
@[simp] theorem setMbx_jnl (m : Nat) (f : Mbx → Mbx) (s : State) : (setMbx m f s).jnl = s.jnl := rfl
@[simp] theorem setMbx_prov (m : Nat) (f : Mbx → Mbx) (s : State) : (setMbx m f s).prov = s.prov := rfl
@[simp] theorem setMbx_roots (m : Nat) (f : Mbx → Mbx) (s : State) : (setMbx m f s).roots = s.roots := rfl
@[simp] theorem setMbx_ledger (m : Nat) (f : Mbx → Mbx) (s : State) : (setMbx m f s).ledger = s.ledger := rfl
@[simp] theorem setMbx_bal (m : Nat) (f : Mbx → Mbx) (s : State) : (setMbx m f s).bal = s.bal := rfl
@[simp] theorem setMbx_camps (m : Nat) (f : Mbx → Mbx) (s : State) : (setMbx m f s).camps = s.camps := rfl
@[simp] theorem setMbx_confUnmatched (m : Nat) (f : Mbx → Mbx) (s : State) : (setMbx m f s).confUnmatched = s.confUnmatched := rfl
@[simp] theorem setMbx_slots (m : Nat) (f : Mbx → Mbx) (s : State) : (setMbx m f s).slots = s.slots := rfl
@[simp] theorem setMbx_keys (m : Nat) (f : Mbx → Mbx) (s : State) : (setMbx m f s).keys = s.keys := rfl
@[simp] theorem setMbx_slateNv (m : Nat) (f : Mbx → Mbx) (s : State) : (setMbx m f s).slateNv = s.slateNv := rfl
@[simp] theorem setMbx_slate (m : Nat) (f : Mbx → Mbx) (s : State) : (setMbx m f s).slate = s.slate := rfl
@[simp] theorem setMbx_life (m : Nat) (f : Mbx → Mbx) (s : State) : (setMbx m f s).life = s.life := rfl
@[simp] theorem setMbx_fwNv (m : Nat) (f : Mbx → Mbx) (s : State) : (setMbx m f s).fwNv = s.fwNv := rfl
@[simp] theorem setMbx_fw (m : Nat) (f : Mbx → Mbx) (s : State) : (setMbx m f s).fw = s.fw := rfl
@[simp] theorem setMbx_safe (m : Nat) (f : Mbx → Mbx) (s : State) : (setMbx m f s).safe = s.safe := rfl
@[simp] theorem setMbx_faultTimes (m : Nat) (f : Mbx → Mbx) (s : State) : (setMbx m f s).faultTimes = s.faultTimes := rfl
@[simp] theorem setMbx_maint (m : Nat) (f : Mbx → Mbx) (s : State) : (setMbx m f s).maint = s.maint := rfl

@[simp] theorem setDir_pending (d : Nat) (f : LinkDir → LinkDir) (s : State) : (setDir d f s).pending = s.pending := rfl
@[simp] theorem setDir_now (d : Nat) (f : LinkDir → LinkDir) (s : State) : (setDir d f s).now = s.now := rfl
@[simp] theorem setDir_mono (d : Nat) (f : LinkDir → LinkDir) (s : State) : (setDir d f s).mono = s.mono := rfl
@[simp] theorem setDir_tickAt (d : Nat) (f : LinkDir → LinkDir) (s : State) : (setDir d f s).tickAt = s.tickAt := rfl
@[simp] theorem setDir_timeLoaded (d : Nat) (f : LinkDir → LinkDir) (s : State) : (setDir d f s).timeLoaded = s.timeLoaded := rfl
@[simp] theorem setDir_trustSeen (d : Nat) (f : LinkDir → LinkDir) (s : State) : (setDir d f s).trustSeen = s.trustSeen := rfl
@[simp] theorem setDir_freeCtr (d : Nat) (f : LinkDir → LinkDir) (s : State) : (setDir d f s).freeCtr = s.freeCtr := rfl
@[simp] theorem setDir_out (d : Nat) (f : LinkDir → LinkDir) (s : State) : (setDir d f s).out = s.out := rfl
@[simp] theorem setDir_cfg (d : Nat) (f : LinkDir → LinkDir) (s : State) : (setDir d f s).cfg = s.cfg := rfl
@[simp] theorem setDir_mbxs (d : Nat) (f : LinkDir → LinkDir) (s : State) : (setDir d f s).mbxs = s.mbxs := rfl
@[simp] theorem setDir_rrNext (d : Nat) (f : LinkDir → LinkDir) (s : State) : (setDir d f s).rrNext = s.rrNext := rfl
@[simp] theorem setDir_fetchCtr (d : Nat) (f : LinkDir → LinkDir) (s : State) : (setDir d f s).fetchCtr = s.fetchCtr := rfl
@[simp] theorem setDir_ops (d : Nat) (f : LinkDir → LinkDir) (s : State) : (setDir d f s).ops = s.ops := rfl
@[simp] theorem setDir_nextOp (d : Nat) (f : LinkDir → LinkDir) (s : State) : (setDir d f s).nextOp = s.nextOp := rfl
@[simp] theorem setDir_evt (d : Nat) (f : LinkDir → LinkDir) (s : State) : (setDir d f s).evt = s.evt := rfl
@[simp] theorem setDir_glb (d : Nat) (f : LinkDir → LinkDir) (s : State) : (setDir d f s).glb = s.glb := rfl
@[simp] theorem setDir_mir (d : Nat) (f : LinkDir → LinkDir) (s : State) : (setDir d f s).mir = s.mir := rfl
@[simp] theorem setDir_isl (d : Nat) (f : LinkDir → LinkDir) (s : State) : (setDir d f s).isl = s.isl := rfl
@[simp] theorem setDir_auditAt (d : Nat) (f : LinkDir → LinkDir) (s : State) : (setDir d f s).auditAt = s.auditAt := rfl
@[simp] theorem setDir_boot (d : Nat) (f : LinkDir → LinkDir) (s : State) : (setDir d f s).boot = s.boot := rfl
@[simp] theorem setDir_pcie (d : Nat) (f : LinkDir → LinkDir) (s : State) : (setDir d f s).pcie = s.pcie := rfl
@[simp] theorem setDir_fuses (d : Nat) (f : LinkDir → LinkDir) (s : State) : (setDir d f s).fuses = s.fuses := rfl
@[simp] theorem setDir_mon (d : Nat) (f : LinkDir → LinkDir) (s : State) : (setDir d f s).mon = s.mon := rfl
@[simp] theorem setDir_bkp (d : Nat) (f : LinkDir → LinkDir) (s : State) : (setDir d f s).bkp = s.bkp := rfl
@[simp] theorem setDir_rf (d : Nat) (f : LinkDir → LinkDir) (s : State) : (setDir d f s).rf = s.rf := rfl
@[simp] theorem setDir_lanes (d : Nat) (f : LinkDir → LinkDir) (s : State) : (setDir d f s).lanes = s.lanes := rfl
@[simp] theorem setDir_laneCount (d : Nat) (f : LinkDir → LinkDir) (s : State) : (setDir d f s).laneCount = s.laneCount := rfl
@[simp] theorem setDir_roles (d : Nat) (f : LinkDir → LinkDir) (s : State) : (setDir d f s).roles = s.roles := rfl
@[simp] theorem setDir_rot (d : Nat) (f : LinkDir → LinkDir) (s : State) : (setDir d f s).rot = s.rot := rfl
@[simp] theorem setDir_sectors (d : Nat) (f : LinkDir → LinkDir) (s : State) : (setDir d f s).sectors = s.sectors := rfl
@[simp] theorem setDir_duty (d : Nat) (f : LinkDir → LinkDir) (s : State) : (setDir d f s).duty = s.duty := rfl
@[simp] theorem setDir_plc (d : Nat) (f : LinkDir → LinkDir) (s : State) : (setDir d f s).plc = s.plc := rfl
@[simp] theorem setDir_plcMac (d : Nat) (f : LinkDir → LinkDir) (s : State) : (setDir d f s).plcMac = s.plcMac := rfl
@[simp] theorem setDir_dir (d : Nat) (f : LinkDir → LinkDir) (s : State) : (setDir d f s).dir = s.dir := rfl
@[simp] theorem setDir_eps (d : Nat) (f : LinkDir → LinkDir) (s : State) : (setDir d f s).eps = s.eps := rfl
@[simp] theorem setDir_blobs (d : Nat) (f : LinkDir → LinkDir) (s : State) : (setDir d f s).blobs = s.blobs := rfl
@[simp] theorem setDir_mem (d : Nat) (f : LinkDir → LinkDir) (s : State) : (setDir d f s).mem = s.mem := rfl
@[simp] theorem setDir_xlate (d : Nat) (f : LinkDir → LinkDir) (s : State) : (setDir d f s).xlate = s.xlate := rfl
@[simp] theorem setDir_chans (d : Nat) (f : LinkDir → LinkDir) (s : State) : (setDir d f s).chans = s.chans := rfl
@[simp] theorem setDir_jnv (d : Nat) (f : LinkDir → LinkDir) (s : State) : (setDir d f s).jnv = s.jnv := rfl
@[simp] theorem setDir_jnl (d : Nat) (f : LinkDir → LinkDir) (s : State) : (setDir d f s).jnl = s.jnl := rfl
@[simp] theorem setDir_prov (d : Nat) (f : LinkDir → LinkDir) (s : State) : (setDir d f s).prov = s.prov := rfl
@[simp] theorem setDir_roots (d : Nat) (f : LinkDir → LinkDir) (s : State) : (setDir d f s).roots = s.roots := rfl
@[simp] theorem setDir_ledger (d : Nat) (f : LinkDir → LinkDir) (s : State) : (setDir d f s).ledger = s.ledger := rfl
@[simp] theorem setDir_bal (d : Nat) (f : LinkDir → LinkDir) (s : State) : (setDir d f s).bal = s.bal := rfl
@[simp] theorem setDir_camps (d : Nat) (f : LinkDir → LinkDir) (s : State) : (setDir d f s).camps = s.camps := rfl
@[simp] theorem setDir_confUnmatched (d : Nat) (f : LinkDir → LinkDir) (s : State) : (setDir d f s).confUnmatched = s.confUnmatched := rfl
@[simp] theorem setDir_slots (d : Nat) (f : LinkDir → LinkDir) (s : State) : (setDir d f s).slots = s.slots := rfl
@[simp] theorem setDir_keys (d : Nat) (f : LinkDir → LinkDir) (s : State) : (setDir d f s).keys = s.keys := rfl
@[simp] theorem setDir_slateNv (d : Nat) (f : LinkDir → LinkDir) (s : State) : (setDir d f s).slateNv = s.slateNv := rfl
@[simp] theorem setDir_slate (d : Nat) (f : LinkDir → LinkDir) (s : State) : (setDir d f s).slate = s.slate := rfl
@[simp] theorem setDir_life (d : Nat) (f : LinkDir → LinkDir) (s : State) : (setDir d f s).life = s.life := rfl
@[simp] theorem setDir_fwNv (d : Nat) (f : LinkDir → LinkDir) (s : State) : (setDir d f s).fwNv = s.fwNv := rfl
@[simp] theorem setDir_fw (d : Nat) (f : LinkDir → LinkDir) (s : State) : (setDir d f s).fw = s.fw := rfl
@[simp] theorem setDir_safe (d : Nat) (f : LinkDir → LinkDir) (s : State) : (setDir d f s).safe = s.safe := rfl
@[simp] theorem setDir_faultTimes (d : Nat) (f : LinkDir → LinkDir) (s : State) : (setDir d f s).faultTimes = s.faultTimes := rfl
@[simp] theorem setDir_maint (d : Nat) (f : LinkDir → LinkDir) (s : State) : (setDir d f s).maint = s.maint := rfl

@[simp] theorem setRank_pending (r : Nat) (f : Rank → Rank) (s : State) : (setRank r f s).pending = s.pending := rfl
@[simp] theorem setRank_now (r : Nat) (f : Rank → Rank) (s : State) : (setRank r f s).now = s.now := rfl
@[simp] theorem setRank_mono (r : Nat) (f : Rank → Rank) (s : State) : (setRank r f s).mono = s.mono := rfl
@[simp] theorem setRank_tickAt (r : Nat) (f : Rank → Rank) (s : State) : (setRank r f s).tickAt = s.tickAt := rfl
@[simp] theorem setRank_timeLoaded (r : Nat) (f : Rank → Rank) (s : State) : (setRank r f s).timeLoaded = s.timeLoaded := rfl
@[simp] theorem setRank_trustSeen (r : Nat) (f : Rank → Rank) (s : State) : (setRank r f s).trustSeen = s.trustSeen := rfl
@[simp] theorem setRank_freeCtr (r : Nat) (f : Rank → Rank) (s : State) : (setRank r f s).freeCtr = s.freeCtr := rfl
@[simp] theorem setRank_out (r : Nat) (f : Rank → Rank) (s : State) : (setRank r f s).out = s.out := rfl
@[simp] theorem setRank_cfg (r : Nat) (f : Rank → Rank) (s : State) : (setRank r f s).cfg = s.cfg := rfl
@[simp] theorem setRank_mbxs (r : Nat) (f : Rank → Rank) (s : State) : (setRank r f s).mbxs = s.mbxs := rfl
@[simp] theorem setRank_rrNext (r : Nat) (f : Rank → Rank) (s : State) : (setRank r f s).rrNext = s.rrNext := rfl
@[simp] theorem setRank_fetchCtr (r : Nat) (f : Rank → Rank) (s : State) : (setRank r f s).fetchCtr = s.fetchCtr := rfl
@[simp] theorem setRank_ops (r : Nat) (f : Rank → Rank) (s : State) : (setRank r f s).ops = s.ops := rfl
@[simp] theorem setRank_nextOp (r : Nat) (f : Rank → Rank) (s : State) : (setRank r f s).nextOp = s.nextOp := rfl
@[simp] theorem setRank_evt (r : Nat) (f : Rank → Rank) (s : State) : (setRank r f s).evt = s.evt := rfl
@[simp] theorem setRank_glb (r : Nat) (f : Rank → Rank) (s : State) : (setRank r f s).glb = s.glb := rfl
@[simp] theorem setRank_mir (r : Nat) (f : Rank → Rank) (s : State) : (setRank r f s).mir = s.mir := rfl
@[simp] theorem setRank_isl (r : Nat) (f : Rank → Rank) (s : State) : (setRank r f s).isl = s.isl := rfl
@[simp] theorem setRank_links (r : Nat) (f : Rank → Rank) (s : State) : (setRank r f s).links = s.links := rfl
@[simp] theorem setRank_auditAt (r : Nat) (f : Rank → Rank) (s : State) : (setRank r f s).auditAt = s.auditAt := rfl
@[simp] theorem setRank_boot (r : Nat) (f : Rank → Rank) (s : State) : (setRank r f s).boot = s.boot := rfl
@[simp] theorem setRank_pcie (r : Nat) (f : Rank → Rank) (s : State) : (setRank r f s).pcie = s.pcie := rfl
@[simp] theorem setRank_fuses (r : Nat) (f : Rank → Rank) (s : State) : (setRank r f s).fuses = s.fuses := rfl
@[simp] theorem setRank_mon (r : Nat) (f : Rank → Rank) (s : State) : (setRank r f s).mon = s.mon := rfl
@[simp] theorem setRank_bkp (r : Nat) (f : Rank → Rank) (s : State) : (setRank r f s).bkp = s.bkp := rfl
@[simp] theorem setRank_rf (r : Nat) (f : Rank → Rank) (s : State) : (setRank r f s).rf = s.rf := rfl
@[simp] theorem setRank_lanes (r : Nat) (f : Rank → Rank) (s : State) : (setRank r f s).lanes = s.lanes := rfl
@[simp] theorem setRank_laneCount (r : Nat) (f : Rank → Rank) (s : State) : (setRank r f s).laneCount = s.laneCount := rfl
@[simp] theorem setRank_roles (r : Nat) (f : Rank → Rank) (s : State) : (setRank r f s).roles = s.roles := rfl
@[simp] theorem setRank_rot (r : Nat) (f : Rank → Rank) (s : State) : (setRank r f s).rot = s.rot := rfl
@[simp] theorem setRank_sectors (r : Nat) (f : Rank → Rank) (s : State) : (setRank r f s).sectors = s.sectors := rfl
@[simp] theorem setRank_duty (r : Nat) (f : Rank → Rank) (s : State) : (setRank r f s).duty = s.duty := rfl
@[simp] theorem setRank_plc (r : Nat) (f : Rank → Rank) (s : State) : (setRank r f s).plc = s.plc := rfl
@[simp] theorem setRank_plcMac (r : Nat) (f : Rank → Rank) (s : State) : (setRank r f s).plcMac = s.plcMac := rfl
@[simp] theorem setRank_dir (r : Nat) (f : Rank → Rank) (s : State) : (setRank r f s).dir = s.dir := rfl
@[simp] theorem setRank_eps (r : Nat) (f : Rank → Rank) (s : State) : (setRank r f s).eps = s.eps := rfl
@[simp] theorem setRank_blobs (r : Nat) (f : Rank → Rank) (s : State) : (setRank r f s).blobs = s.blobs := rfl
@[simp] theorem setRank_xlate (r : Nat) (f : Rank → Rank) (s : State) : (setRank r f s).xlate = s.xlate := rfl
@[simp] theorem setRank_chans (r : Nat) (f : Rank → Rank) (s : State) : (setRank r f s).chans = s.chans := rfl
@[simp] theorem setRank_jnv (r : Nat) (f : Rank → Rank) (s : State) : (setRank r f s).jnv = s.jnv := rfl
@[simp] theorem setRank_jnl (r : Nat) (f : Rank → Rank) (s : State) : (setRank r f s).jnl = s.jnl := rfl
@[simp] theorem setRank_prov (r : Nat) (f : Rank → Rank) (s : State) : (setRank r f s).prov = s.prov := rfl
@[simp] theorem setRank_roots (r : Nat) (f : Rank → Rank) (s : State) : (setRank r f s).roots = s.roots := rfl
@[simp] theorem setRank_ledger (r : Nat) (f : Rank → Rank) (s : State) : (setRank r f s).ledger = s.ledger := rfl
@[simp] theorem setRank_bal (r : Nat) (f : Rank → Rank) (s : State) : (setRank r f s).bal = s.bal := rfl
@[simp] theorem setRank_camps (r : Nat) (f : Rank → Rank) (s : State) : (setRank r f s).camps = s.camps := rfl
@[simp] theorem setRank_confUnmatched (r : Nat) (f : Rank → Rank) (s : State) : (setRank r f s).confUnmatched = s.confUnmatched := rfl
@[simp] theorem setRank_slots (r : Nat) (f : Rank → Rank) (s : State) : (setRank r f s).slots = s.slots := rfl
@[simp] theorem setRank_keys (r : Nat) (f : Rank → Rank) (s : State) : (setRank r f s).keys = s.keys := rfl
@[simp] theorem setRank_slateNv (r : Nat) (f : Rank → Rank) (s : State) : (setRank r f s).slateNv = s.slateNv := rfl
@[simp] theorem setRank_slate (r : Nat) (f : Rank → Rank) (s : State) : (setRank r f s).slate = s.slate := rfl
@[simp] theorem setRank_life (r : Nat) (f : Rank → Rank) (s : State) : (setRank r f s).life = s.life := rfl
@[simp] theorem setRank_fwNv (r : Nat) (f : Rank → Rank) (s : State) : (setRank r f s).fwNv = s.fwNv := rfl
@[simp] theorem setRank_fw (r : Nat) (f : Rank → Rank) (s : State) : (setRank r f s).fw = s.fw := rfl
@[simp] theorem setRank_safe (r : Nat) (f : Rank → Rank) (s : State) : (setRank r f s).safe = s.safe := rfl
@[simp] theorem setRank_faultTimes (r : Nat) (f : Rank → Rank) (s : State) : (setRank r f s).faultTimes = s.faultTimes := rfl
@[simp] theorem setRank_maint (r : Nat) (f : Rank → Rank) (s : State) : (setRank r f s).maint = s.maint := rfl

@[simp] theorem setRf_pending (p : Nat) (f : RfPort → RfPort) (s : State) : (setRf p f s).pending = s.pending := rfl
@[simp] theorem setRf_now (p : Nat) (f : RfPort → RfPort) (s : State) : (setRf p f s).now = s.now := rfl
@[simp] theorem setRf_mono (p : Nat) (f : RfPort → RfPort) (s : State) : (setRf p f s).mono = s.mono := rfl
@[simp] theorem setRf_tickAt (p : Nat) (f : RfPort → RfPort) (s : State) : (setRf p f s).tickAt = s.tickAt := rfl
@[simp] theorem setRf_timeLoaded (p : Nat) (f : RfPort → RfPort) (s : State) : (setRf p f s).timeLoaded = s.timeLoaded := rfl
@[simp] theorem setRf_trustSeen (p : Nat) (f : RfPort → RfPort) (s : State) : (setRf p f s).trustSeen = s.trustSeen := rfl
@[simp] theorem setRf_freeCtr (p : Nat) (f : RfPort → RfPort) (s : State) : (setRf p f s).freeCtr = s.freeCtr := rfl
@[simp] theorem setRf_out (p : Nat) (f : RfPort → RfPort) (s : State) : (setRf p f s).out = s.out := rfl
@[simp] theorem setRf_cfg (p : Nat) (f : RfPort → RfPort) (s : State) : (setRf p f s).cfg = s.cfg := rfl
@[simp] theorem setRf_mbxs (p : Nat) (f : RfPort → RfPort) (s : State) : (setRf p f s).mbxs = s.mbxs := rfl
@[simp] theorem setRf_rrNext (p : Nat) (f : RfPort → RfPort) (s : State) : (setRf p f s).rrNext = s.rrNext := rfl
@[simp] theorem setRf_fetchCtr (p : Nat) (f : RfPort → RfPort) (s : State) : (setRf p f s).fetchCtr = s.fetchCtr := rfl
@[simp] theorem setRf_ops (p : Nat) (f : RfPort → RfPort) (s : State) : (setRf p f s).ops = s.ops := rfl
@[simp] theorem setRf_nextOp (p : Nat) (f : RfPort → RfPort) (s : State) : (setRf p f s).nextOp = s.nextOp := rfl
@[simp] theorem setRf_evt (p : Nat) (f : RfPort → RfPort) (s : State) : (setRf p f s).evt = s.evt := rfl
@[simp] theorem setRf_glb (p : Nat) (f : RfPort → RfPort) (s : State) : (setRf p f s).glb = s.glb := rfl
@[simp] theorem setRf_mir (p : Nat) (f : RfPort → RfPort) (s : State) : (setRf p f s).mir = s.mir := rfl
@[simp] theorem setRf_isl (p : Nat) (f : RfPort → RfPort) (s : State) : (setRf p f s).isl = s.isl := rfl
@[simp] theorem setRf_links (p : Nat) (f : RfPort → RfPort) (s : State) : (setRf p f s).links = s.links := rfl
@[simp] theorem setRf_auditAt (p : Nat) (f : RfPort → RfPort) (s : State) : (setRf p f s).auditAt = s.auditAt := rfl
@[simp] theorem setRf_boot (p : Nat) (f : RfPort → RfPort) (s : State) : (setRf p f s).boot = s.boot := rfl
@[simp] theorem setRf_pcie (p : Nat) (f : RfPort → RfPort) (s : State) : (setRf p f s).pcie = s.pcie := rfl
@[simp] theorem setRf_fuses (p : Nat) (f : RfPort → RfPort) (s : State) : (setRf p f s).fuses = s.fuses := rfl
@[simp] theorem setRf_mon (p : Nat) (f : RfPort → RfPort) (s : State) : (setRf p f s).mon = s.mon := rfl
@[simp] theorem setRf_bkp (p : Nat) (f : RfPort → RfPort) (s : State) : (setRf p f s).bkp = s.bkp := rfl
@[simp] theorem setRf_lanes (p : Nat) (f : RfPort → RfPort) (s : State) : (setRf p f s).lanes = s.lanes := rfl
@[simp] theorem setRf_laneCount (p : Nat) (f : RfPort → RfPort) (s : State) : (setRf p f s).laneCount = s.laneCount := rfl
@[simp] theorem setRf_roles (p : Nat) (f : RfPort → RfPort) (s : State) : (setRf p f s).roles = s.roles := rfl
@[simp] theorem setRf_rot (p : Nat) (f : RfPort → RfPort) (s : State) : (setRf p f s).rot = s.rot := rfl
@[simp] theorem setRf_sectors (p : Nat) (f : RfPort → RfPort) (s : State) : (setRf p f s).sectors = s.sectors := rfl
@[simp] theorem setRf_duty (p : Nat) (f : RfPort → RfPort) (s : State) : (setRf p f s).duty = s.duty := rfl
@[simp] theorem setRf_plc (p : Nat) (f : RfPort → RfPort) (s : State) : (setRf p f s).plc = s.plc := rfl
@[simp] theorem setRf_plcMac (p : Nat) (f : RfPort → RfPort) (s : State) : (setRf p f s).plcMac = s.plcMac := rfl
@[simp] theorem setRf_dir (p : Nat) (f : RfPort → RfPort) (s : State) : (setRf p f s).dir = s.dir := rfl
@[simp] theorem setRf_eps (p : Nat) (f : RfPort → RfPort) (s : State) : (setRf p f s).eps = s.eps := rfl
@[simp] theorem setRf_blobs (p : Nat) (f : RfPort → RfPort) (s : State) : (setRf p f s).blobs = s.blobs := rfl
@[simp] theorem setRf_mem (p : Nat) (f : RfPort → RfPort) (s : State) : (setRf p f s).mem = s.mem := rfl
@[simp] theorem setRf_xlate (p : Nat) (f : RfPort → RfPort) (s : State) : (setRf p f s).xlate = s.xlate := rfl
@[simp] theorem setRf_chans (p : Nat) (f : RfPort → RfPort) (s : State) : (setRf p f s).chans = s.chans := rfl
@[simp] theorem setRf_jnv (p : Nat) (f : RfPort → RfPort) (s : State) : (setRf p f s).jnv = s.jnv := rfl
@[simp] theorem setRf_jnl (p : Nat) (f : RfPort → RfPort) (s : State) : (setRf p f s).jnl = s.jnl := rfl
@[simp] theorem setRf_prov (p : Nat) (f : RfPort → RfPort) (s : State) : (setRf p f s).prov = s.prov := rfl
@[simp] theorem setRf_roots (p : Nat) (f : RfPort → RfPort) (s : State) : (setRf p f s).roots = s.roots := rfl
@[simp] theorem setRf_ledger (p : Nat) (f : RfPort → RfPort) (s : State) : (setRf p f s).ledger = s.ledger := rfl
@[simp] theorem setRf_bal (p : Nat) (f : RfPort → RfPort) (s : State) : (setRf p f s).bal = s.bal := rfl
@[simp] theorem setRf_camps (p : Nat) (f : RfPort → RfPort) (s : State) : (setRf p f s).camps = s.camps := rfl
@[simp] theorem setRf_confUnmatched (p : Nat) (f : RfPort → RfPort) (s : State) : (setRf p f s).confUnmatched = s.confUnmatched := rfl
@[simp] theorem setRf_slots (p : Nat) (f : RfPort → RfPort) (s : State) : (setRf p f s).slots = s.slots := rfl
@[simp] theorem setRf_keys (p : Nat) (f : RfPort → RfPort) (s : State) : (setRf p f s).keys = s.keys := rfl
@[simp] theorem setRf_slateNv (p : Nat) (f : RfPort → RfPort) (s : State) : (setRf p f s).slateNv = s.slateNv := rfl
@[simp] theorem setRf_slate (p : Nat) (f : RfPort → RfPort) (s : State) : (setRf p f s).slate = s.slate := rfl
@[simp] theorem setRf_life (p : Nat) (f : RfPort → RfPort) (s : State) : (setRf p f s).life = s.life := rfl
@[simp] theorem setRf_fwNv (p : Nat) (f : RfPort → RfPort) (s : State) : (setRf p f s).fwNv = s.fwNv := rfl
@[simp] theorem setRf_fw (p : Nat) (f : RfPort → RfPort) (s : State) : (setRf p f s).fw = s.fw := rfl
@[simp] theorem setRf_safe (p : Nat) (f : RfPort → RfPort) (s : State) : (setRf p f s).safe = s.safe := rfl
@[simp] theorem setRf_faultTimes (p : Nat) (f : RfPort → RfPort) (s : State) : (setRf p f s).faultTimes = s.faultTimes := rfl
@[simp] theorem setRf_maint (p : Nat) (f : RfPort → RfPort) (s : State) : (setRf p f s).maint = s.maint := rfl

@[simp] theorem setLane_pending (l : Nat) (f : Lane → Lane) (s : State) : (setLane l f s).pending = s.pending := rfl
@[simp] theorem setLane_now (l : Nat) (f : Lane → Lane) (s : State) : (setLane l f s).now = s.now := rfl
@[simp] theorem setLane_mono (l : Nat) (f : Lane → Lane) (s : State) : (setLane l f s).mono = s.mono := rfl
@[simp] theorem setLane_tickAt (l : Nat) (f : Lane → Lane) (s : State) : (setLane l f s).tickAt = s.tickAt := rfl
@[simp] theorem setLane_timeLoaded (l : Nat) (f : Lane → Lane) (s : State) : (setLane l f s).timeLoaded = s.timeLoaded := rfl
@[simp] theorem setLane_trustSeen (l : Nat) (f : Lane → Lane) (s : State) : (setLane l f s).trustSeen = s.trustSeen := rfl
@[simp] theorem setLane_freeCtr (l : Nat) (f : Lane → Lane) (s : State) : (setLane l f s).freeCtr = s.freeCtr := rfl
@[simp] theorem setLane_out (l : Nat) (f : Lane → Lane) (s : State) : (setLane l f s).out = s.out := rfl
@[simp] theorem setLane_cfg (l : Nat) (f : Lane → Lane) (s : State) : (setLane l f s).cfg = s.cfg := rfl
@[simp] theorem setLane_mbxs (l : Nat) (f : Lane → Lane) (s : State) : (setLane l f s).mbxs = s.mbxs := rfl
@[simp] theorem setLane_rrNext (l : Nat) (f : Lane → Lane) (s : State) : (setLane l f s).rrNext = s.rrNext := rfl
@[simp] theorem setLane_fetchCtr (l : Nat) (f : Lane → Lane) (s : State) : (setLane l f s).fetchCtr = s.fetchCtr := rfl
@[simp] theorem setLane_ops (l : Nat) (f : Lane → Lane) (s : State) : (setLane l f s).ops = s.ops := rfl
@[simp] theorem setLane_nextOp (l : Nat) (f : Lane → Lane) (s : State) : (setLane l f s).nextOp = s.nextOp := rfl
@[simp] theorem setLane_evt (l : Nat) (f : Lane → Lane) (s : State) : (setLane l f s).evt = s.evt := rfl
@[simp] theorem setLane_glb (l : Nat) (f : Lane → Lane) (s : State) : (setLane l f s).glb = s.glb := rfl
@[simp] theorem setLane_mir (l : Nat) (f : Lane → Lane) (s : State) : (setLane l f s).mir = s.mir := rfl
@[simp] theorem setLane_isl (l : Nat) (f : Lane → Lane) (s : State) : (setLane l f s).isl = s.isl := rfl
@[simp] theorem setLane_links (l : Nat) (f : Lane → Lane) (s : State) : (setLane l f s).links = s.links := rfl
@[simp] theorem setLane_auditAt (l : Nat) (f : Lane → Lane) (s : State) : (setLane l f s).auditAt = s.auditAt := rfl
@[simp] theorem setLane_boot (l : Nat) (f : Lane → Lane) (s : State) : (setLane l f s).boot = s.boot := rfl
@[simp] theorem setLane_pcie (l : Nat) (f : Lane → Lane) (s : State) : (setLane l f s).pcie = s.pcie := rfl
@[simp] theorem setLane_fuses (l : Nat) (f : Lane → Lane) (s : State) : (setLane l f s).fuses = s.fuses := rfl
@[simp] theorem setLane_mon (l : Nat) (f : Lane → Lane) (s : State) : (setLane l f s).mon = s.mon := rfl
@[simp] theorem setLane_bkp (l : Nat) (f : Lane → Lane) (s : State) : (setLane l f s).bkp = s.bkp := rfl
@[simp] theorem setLane_rf (l : Nat) (f : Lane → Lane) (s : State) : (setLane l f s).rf = s.rf := rfl
@[simp] theorem setLane_laneCount (l : Nat) (f : Lane → Lane) (s : State) : (setLane l f s).laneCount = s.laneCount := rfl
@[simp] theorem setLane_roles (l : Nat) (f : Lane → Lane) (s : State) : (setLane l f s).roles = s.roles := rfl
@[simp] theorem setLane_rot (l : Nat) (f : Lane → Lane) (s : State) : (setLane l f s).rot = s.rot := rfl
@[simp] theorem setLane_sectors (l : Nat) (f : Lane → Lane) (s : State) : (setLane l f s).sectors = s.sectors := rfl
@[simp] theorem setLane_duty (l : Nat) (f : Lane → Lane) (s : State) : (setLane l f s).duty = s.duty := rfl
@[simp] theorem setLane_plc (l : Nat) (f : Lane → Lane) (s : State) : (setLane l f s).plc = s.plc := rfl
@[simp] theorem setLane_plcMac (l : Nat) (f : Lane → Lane) (s : State) : (setLane l f s).plcMac = s.plcMac := rfl
@[simp] theorem setLane_dir (l : Nat) (f : Lane → Lane) (s : State) : (setLane l f s).dir = s.dir := rfl
@[simp] theorem setLane_eps (l : Nat) (f : Lane → Lane) (s : State) : (setLane l f s).eps = s.eps := rfl
@[simp] theorem setLane_blobs (l : Nat) (f : Lane → Lane) (s : State) : (setLane l f s).blobs = s.blobs := rfl
@[simp] theorem setLane_mem (l : Nat) (f : Lane → Lane) (s : State) : (setLane l f s).mem = s.mem := rfl
@[simp] theorem setLane_xlate (l : Nat) (f : Lane → Lane) (s : State) : (setLane l f s).xlate = s.xlate := rfl
@[simp] theorem setLane_chans (l : Nat) (f : Lane → Lane) (s : State) : (setLane l f s).chans = s.chans := rfl
@[simp] theorem setLane_jnv (l : Nat) (f : Lane → Lane) (s : State) : (setLane l f s).jnv = s.jnv := rfl
@[simp] theorem setLane_jnl (l : Nat) (f : Lane → Lane) (s : State) : (setLane l f s).jnl = s.jnl := rfl
@[simp] theorem setLane_prov (l : Nat) (f : Lane → Lane) (s : State) : (setLane l f s).prov = s.prov := rfl
@[simp] theorem setLane_roots (l : Nat) (f : Lane → Lane) (s : State) : (setLane l f s).roots = s.roots := rfl
@[simp] theorem setLane_ledger (l : Nat) (f : Lane → Lane) (s : State) : (setLane l f s).ledger = s.ledger := rfl
@[simp] theorem setLane_bal (l : Nat) (f : Lane → Lane) (s : State) : (setLane l f s).bal = s.bal := rfl
@[simp] theorem setLane_camps (l : Nat) (f : Lane → Lane) (s : State) : (setLane l f s).camps = s.camps := rfl
@[simp] theorem setLane_confUnmatched (l : Nat) (f : Lane → Lane) (s : State) : (setLane l f s).confUnmatched = s.confUnmatched := rfl
@[simp] theorem setLane_slots (l : Nat) (f : Lane → Lane) (s : State) : (setLane l f s).slots = s.slots := rfl
@[simp] theorem setLane_keys (l : Nat) (f : Lane → Lane) (s : State) : (setLane l f s).keys = s.keys := rfl
@[simp] theorem setLane_slateNv (l : Nat) (f : Lane → Lane) (s : State) : (setLane l f s).slateNv = s.slateNv := rfl
@[simp] theorem setLane_slate (l : Nat) (f : Lane → Lane) (s : State) : (setLane l f s).slate = s.slate := rfl
@[simp] theorem setLane_life (l : Nat) (f : Lane → Lane) (s : State) : (setLane l f s).life = s.life := rfl
@[simp] theorem setLane_fwNv (l : Nat) (f : Lane → Lane) (s : State) : (setLane l f s).fwNv = s.fwNv := rfl
@[simp] theorem setLane_fw (l : Nat) (f : Lane → Lane) (s : State) : (setLane l f s).fw = s.fw := rfl
@[simp] theorem setLane_safe (l : Nat) (f : Lane → Lane) (s : State) : (setLane l f s).safe = s.safe := rfl
@[simp] theorem setLane_faultTimes (l : Nat) (f : Lane → Lane) (s : State) : (setLane l f s).faultTimes = s.faultTimes := rfl
@[simp] theorem setLane_maint (l : Nat) (f : Lane → Lane) (s : State) : (setLane l f s).maint = s.maint := rfl

@[simp] theorem setPlc_pending (q : Nat) (f : PlcPort → PlcPort) (s : State) : (setPlc q f s).pending = s.pending := rfl
@[simp] theorem setPlc_now (q : Nat) (f : PlcPort → PlcPort) (s : State) : (setPlc q f s).now = s.now := rfl
@[simp] theorem setPlc_mono (q : Nat) (f : PlcPort → PlcPort) (s : State) : (setPlc q f s).mono = s.mono := rfl
@[simp] theorem setPlc_tickAt (q : Nat) (f : PlcPort → PlcPort) (s : State) : (setPlc q f s).tickAt = s.tickAt := rfl
@[simp] theorem setPlc_timeLoaded (q : Nat) (f : PlcPort → PlcPort) (s : State) : (setPlc q f s).timeLoaded = s.timeLoaded := rfl
@[simp] theorem setPlc_trustSeen (q : Nat) (f : PlcPort → PlcPort) (s : State) : (setPlc q f s).trustSeen = s.trustSeen := rfl
@[simp] theorem setPlc_freeCtr (q : Nat) (f : PlcPort → PlcPort) (s : State) : (setPlc q f s).freeCtr = s.freeCtr := rfl
@[simp] theorem setPlc_out (q : Nat) (f : PlcPort → PlcPort) (s : State) : (setPlc q f s).out = s.out := rfl
@[simp] theorem setPlc_cfg (q : Nat) (f : PlcPort → PlcPort) (s : State) : (setPlc q f s).cfg = s.cfg := rfl
@[simp] theorem setPlc_mbxs (q : Nat) (f : PlcPort → PlcPort) (s : State) : (setPlc q f s).mbxs = s.mbxs := rfl
@[simp] theorem setPlc_rrNext (q : Nat) (f : PlcPort → PlcPort) (s : State) : (setPlc q f s).rrNext = s.rrNext := rfl
@[simp] theorem setPlc_fetchCtr (q : Nat) (f : PlcPort → PlcPort) (s : State) : (setPlc q f s).fetchCtr = s.fetchCtr := rfl
@[simp] theorem setPlc_ops (q : Nat) (f : PlcPort → PlcPort) (s : State) : (setPlc q f s).ops = s.ops := rfl
@[simp] theorem setPlc_nextOp (q : Nat) (f : PlcPort → PlcPort) (s : State) : (setPlc q f s).nextOp = s.nextOp := rfl
@[simp] theorem setPlc_evt (q : Nat) (f : PlcPort → PlcPort) (s : State) : (setPlc q f s).evt = s.evt := rfl
@[simp] theorem setPlc_glb (q : Nat) (f : PlcPort → PlcPort) (s : State) : (setPlc q f s).glb = s.glb := rfl
@[simp] theorem setPlc_mir (q : Nat) (f : PlcPort → PlcPort) (s : State) : (setPlc q f s).mir = s.mir := rfl
@[simp] theorem setPlc_isl (q : Nat) (f : PlcPort → PlcPort) (s : State) : (setPlc q f s).isl = s.isl := rfl
@[simp] theorem setPlc_links (q : Nat) (f : PlcPort → PlcPort) (s : State) : (setPlc q f s).links = s.links := rfl
@[simp] theorem setPlc_auditAt (q : Nat) (f : PlcPort → PlcPort) (s : State) : (setPlc q f s).auditAt = s.auditAt := rfl
@[simp] theorem setPlc_boot (q : Nat) (f : PlcPort → PlcPort) (s : State) : (setPlc q f s).boot = s.boot := rfl
@[simp] theorem setPlc_pcie (q : Nat) (f : PlcPort → PlcPort) (s : State) : (setPlc q f s).pcie = s.pcie := rfl
@[simp] theorem setPlc_fuses (q : Nat) (f : PlcPort → PlcPort) (s : State) : (setPlc q f s).fuses = s.fuses := rfl
@[simp] theorem setPlc_mon (q : Nat) (f : PlcPort → PlcPort) (s : State) : (setPlc q f s).mon = s.mon := rfl
@[simp] theorem setPlc_bkp (q : Nat) (f : PlcPort → PlcPort) (s : State) : (setPlc q f s).bkp = s.bkp := rfl
@[simp] theorem setPlc_rf (q : Nat) (f : PlcPort → PlcPort) (s : State) : (setPlc q f s).rf = s.rf := rfl
@[simp] theorem setPlc_lanes (q : Nat) (f : PlcPort → PlcPort) (s : State) : (setPlc q f s).lanes = s.lanes := rfl
@[simp] theorem setPlc_laneCount (q : Nat) (f : PlcPort → PlcPort) (s : State) : (setPlc q f s).laneCount = s.laneCount := rfl
@[simp] theorem setPlc_roles (q : Nat) (f : PlcPort → PlcPort) (s : State) : (setPlc q f s).roles = s.roles := rfl
@[simp] theorem setPlc_rot (q : Nat) (f : PlcPort → PlcPort) (s : State) : (setPlc q f s).rot = s.rot := rfl
@[simp] theorem setPlc_sectors (q : Nat) (f : PlcPort → PlcPort) (s : State) : (setPlc q f s).sectors = s.sectors := rfl
@[simp] theorem setPlc_duty (q : Nat) (f : PlcPort → PlcPort) (s : State) : (setPlc q f s).duty = s.duty := rfl
@[simp] theorem setPlc_plcMac (q : Nat) (f : PlcPort → PlcPort) (s : State) : (setPlc q f s).plcMac = s.plcMac := rfl
@[simp] theorem setPlc_dir (q : Nat) (f : PlcPort → PlcPort) (s : State) : (setPlc q f s).dir = s.dir := rfl
@[simp] theorem setPlc_eps (q : Nat) (f : PlcPort → PlcPort) (s : State) : (setPlc q f s).eps = s.eps := rfl
@[simp] theorem setPlc_blobs (q : Nat) (f : PlcPort → PlcPort) (s : State) : (setPlc q f s).blobs = s.blobs := rfl
@[simp] theorem setPlc_mem (q : Nat) (f : PlcPort → PlcPort) (s : State) : (setPlc q f s).mem = s.mem := rfl
@[simp] theorem setPlc_xlate (q : Nat) (f : PlcPort → PlcPort) (s : State) : (setPlc q f s).xlate = s.xlate := rfl
@[simp] theorem setPlc_chans (q : Nat) (f : PlcPort → PlcPort) (s : State) : (setPlc q f s).chans = s.chans := rfl
@[simp] theorem setPlc_jnv (q : Nat) (f : PlcPort → PlcPort) (s : State) : (setPlc q f s).jnv = s.jnv := rfl
@[simp] theorem setPlc_jnl (q : Nat) (f : PlcPort → PlcPort) (s : State) : (setPlc q f s).jnl = s.jnl := rfl
@[simp] theorem setPlc_prov (q : Nat) (f : PlcPort → PlcPort) (s : State) : (setPlc q f s).prov = s.prov := rfl
@[simp] theorem setPlc_roots (q : Nat) (f : PlcPort → PlcPort) (s : State) : (setPlc q f s).roots = s.roots := rfl
@[simp] theorem setPlc_ledger (q : Nat) (f : PlcPort → PlcPort) (s : State) : (setPlc q f s).ledger = s.ledger := rfl
@[simp] theorem setPlc_bal (q : Nat) (f : PlcPort → PlcPort) (s : State) : (setPlc q f s).bal = s.bal := rfl
@[simp] theorem setPlc_camps (q : Nat) (f : PlcPort → PlcPort) (s : State) : (setPlc q f s).camps = s.camps := rfl
@[simp] theorem setPlc_confUnmatched (q : Nat) (f : PlcPort → PlcPort) (s : State) : (setPlc q f s).confUnmatched = s.confUnmatched := rfl
@[simp] theorem setPlc_slots (q : Nat) (f : PlcPort → PlcPort) (s : State) : (setPlc q f s).slots = s.slots := rfl
@[simp] theorem setPlc_keys (q : Nat) (f : PlcPort → PlcPort) (s : State) : (setPlc q f s).keys = s.keys := rfl
@[simp] theorem setPlc_slateNv (q : Nat) (f : PlcPort → PlcPort) (s : State) : (setPlc q f s).slateNv = s.slateNv := rfl
@[simp] theorem setPlc_slate (q : Nat) (f : PlcPort → PlcPort) (s : State) : (setPlc q f s).slate = s.slate := rfl
@[simp] theorem setPlc_life (q : Nat) (f : PlcPort → PlcPort) (s : State) : (setPlc q f s).life = s.life := rfl
@[simp] theorem setPlc_fwNv (q : Nat) (f : PlcPort → PlcPort) (s : State) : (setPlc q f s).fwNv = s.fwNv := rfl
@[simp] theorem setPlc_fw (q : Nat) (f : PlcPort → PlcPort) (s : State) : (setPlc q f s).fw = s.fw := rfl
@[simp] theorem setPlc_safe (q : Nat) (f : PlcPort → PlcPort) (s : State) : (setPlc q f s).safe = s.safe := rfl
@[simp] theorem setPlc_faultTimes (q : Nat) (f : PlcPort → PlcPort) (s : State) : (setPlc q f s).faultTimes = s.faultTimes := rfl
@[simp] theorem setPlc_maint (q : Nat) (f : PlcPort → PlcPort) (s : State) : (setPlc q f s).maint = s.maint := rfl

@[simp] theorem setSec_pending (p : Nat) (f : Sector → Sector) (s : State) : (setSec p f s).pending = s.pending := rfl
@[simp] theorem setSec_now (p : Nat) (f : Sector → Sector) (s : State) : (setSec p f s).now = s.now := rfl
@[simp] theorem setSec_mono (p : Nat) (f : Sector → Sector) (s : State) : (setSec p f s).mono = s.mono := rfl
@[simp] theorem setSec_tickAt (p : Nat) (f : Sector → Sector) (s : State) : (setSec p f s).tickAt = s.tickAt := rfl
@[simp] theorem setSec_timeLoaded (p : Nat) (f : Sector → Sector) (s : State) : (setSec p f s).timeLoaded = s.timeLoaded := rfl
@[simp] theorem setSec_trustSeen (p : Nat) (f : Sector → Sector) (s : State) : (setSec p f s).trustSeen = s.trustSeen := rfl
@[simp] theorem setSec_freeCtr (p : Nat) (f : Sector → Sector) (s : State) : (setSec p f s).freeCtr = s.freeCtr := rfl
@[simp] theorem setSec_out (p : Nat) (f : Sector → Sector) (s : State) : (setSec p f s).out = s.out := rfl
@[simp] theorem setSec_cfg (p : Nat) (f : Sector → Sector) (s : State) : (setSec p f s).cfg = s.cfg := rfl
@[simp] theorem setSec_mbxs (p : Nat) (f : Sector → Sector) (s : State) : (setSec p f s).mbxs = s.mbxs := rfl
@[simp] theorem setSec_rrNext (p : Nat) (f : Sector → Sector) (s : State) : (setSec p f s).rrNext = s.rrNext := rfl
@[simp] theorem setSec_fetchCtr (p : Nat) (f : Sector → Sector) (s : State) : (setSec p f s).fetchCtr = s.fetchCtr := rfl
@[simp] theorem setSec_ops (p : Nat) (f : Sector → Sector) (s : State) : (setSec p f s).ops = s.ops := rfl
@[simp] theorem setSec_nextOp (p : Nat) (f : Sector → Sector) (s : State) : (setSec p f s).nextOp = s.nextOp := rfl
@[simp] theorem setSec_evt (p : Nat) (f : Sector → Sector) (s : State) : (setSec p f s).evt = s.evt := rfl
@[simp] theorem setSec_glb (p : Nat) (f : Sector → Sector) (s : State) : (setSec p f s).glb = s.glb := rfl
@[simp] theorem setSec_mir (p : Nat) (f : Sector → Sector) (s : State) : (setSec p f s).mir = s.mir := rfl
@[simp] theorem setSec_isl (p : Nat) (f : Sector → Sector) (s : State) : (setSec p f s).isl = s.isl := rfl
@[simp] theorem setSec_links (p : Nat) (f : Sector → Sector) (s : State) : (setSec p f s).links = s.links := rfl
@[simp] theorem setSec_auditAt (p : Nat) (f : Sector → Sector) (s : State) : (setSec p f s).auditAt = s.auditAt := rfl
@[simp] theorem setSec_boot (p : Nat) (f : Sector → Sector) (s : State) : (setSec p f s).boot = s.boot := rfl
@[simp] theorem setSec_pcie (p : Nat) (f : Sector → Sector) (s : State) : (setSec p f s).pcie = s.pcie := rfl
@[simp] theorem setSec_fuses (p : Nat) (f : Sector → Sector) (s : State) : (setSec p f s).fuses = s.fuses := rfl
@[simp] theorem setSec_mon (p : Nat) (f : Sector → Sector) (s : State) : (setSec p f s).mon = s.mon := rfl
@[simp] theorem setSec_bkp (p : Nat) (f : Sector → Sector) (s : State) : (setSec p f s).bkp = s.bkp := rfl
@[simp] theorem setSec_rf (p : Nat) (f : Sector → Sector) (s : State) : (setSec p f s).rf = s.rf := rfl
@[simp] theorem setSec_lanes (p : Nat) (f : Sector → Sector) (s : State) : (setSec p f s).lanes = s.lanes := rfl
@[simp] theorem setSec_laneCount (p : Nat) (f : Sector → Sector) (s : State) : (setSec p f s).laneCount = s.laneCount := rfl
@[simp] theorem setSec_roles (p : Nat) (f : Sector → Sector) (s : State) : (setSec p f s).roles = s.roles := rfl
@[simp] theorem setSec_rot (p : Nat) (f : Sector → Sector) (s : State) : (setSec p f s).rot = s.rot := rfl
@[simp] theorem setSec_duty (p : Nat) (f : Sector → Sector) (s : State) : (setSec p f s).duty = s.duty := rfl
@[simp] theorem setSec_plc (p : Nat) (f : Sector → Sector) (s : State) : (setSec p f s).plc = s.plc := rfl
@[simp] theorem setSec_plcMac (p : Nat) (f : Sector → Sector) (s : State) : (setSec p f s).plcMac = s.plcMac := rfl
@[simp] theorem setSec_dir (p : Nat) (f : Sector → Sector) (s : State) : (setSec p f s).dir = s.dir := rfl
@[simp] theorem setSec_eps (p : Nat) (f : Sector → Sector) (s : State) : (setSec p f s).eps = s.eps := rfl
@[simp] theorem setSec_blobs (p : Nat) (f : Sector → Sector) (s : State) : (setSec p f s).blobs = s.blobs := rfl
@[simp] theorem setSec_mem (p : Nat) (f : Sector → Sector) (s : State) : (setSec p f s).mem = s.mem := rfl
@[simp] theorem setSec_xlate (p : Nat) (f : Sector → Sector) (s : State) : (setSec p f s).xlate = s.xlate := rfl
@[simp] theorem setSec_chans (p : Nat) (f : Sector → Sector) (s : State) : (setSec p f s).chans = s.chans := rfl
@[simp] theorem setSec_jnv (p : Nat) (f : Sector → Sector) (s : State) : (setSec p f s).jnv = s.jnv := rfl
@[simp] theorem setSec_jnl (p : Nat) (f : Sector → Sector) (s : State) : (setSec p f s).jnl = s.jnl := rfl
@[simp] theorem setSec_prov (p : Nat) (f : Sector → Sector) (s : State) : (setSec p f s).prov = s.prov := rfl
@[simp] theorem setSec_roots (p : Nat) (f : Sector → Sector) (s : State) : (setSec p f s).roots = s.roots := rfl
@[simp] theorem setSec_ledger (p : Nat) (f : Sector → Sector) (s : State) : (setSec p f s).ledger = s.ledger := rfl
@[simp] theorem setSec_bal (p : Nat) (f : Sector → Sector) (s : State) : (setSec p f s).bal = s.bal := rfl
@[simp] theorem setSec_camps (p : Nat) (f : Sector → Sector) (s : State) : (setSec p f s).camps = s.camps := rfl
@[simp] theorem setSec_confUnmatched (p : Nat) (f : Sector → Sector) (s : State) : (setSec p f s).confUnmatched = s.confUnmatched := rfl
@[simp] theorem setSec_slots (p : Nat) (f : Sector → Sector) (s : State) : (setSec p f s).slots = s.slots := rfl
@[simp] theorem setSec_keys (p : Nat) (f : Sector → Sector) (s : State) : (setSec p f s).keys = s.keys := rfl
@[simp] theorem setSec_slateNv (p : Nat) (f : Sector → Sector) (s : State) : (setSec p f s).slateNv = s.slateNv := rfl
@[simp] theorem setSec_slate (p : Nat) (f : Sector → Sector) (s : State) : (setSec p f s).slate = s.slate := rfl
@[simp] theorem setSec_life (p : Nat) (f : Sector → Sector) (s : State) : (setSec p f s).life = s.life := rfl
@[simp] theorem setSec_fwNv (p : Nat) (f : Sector → Sector) (s : State) : (setSec p f s).fwNv = s.fwNv := rfl
@[simp] theorem setSec_fw (p : Nat) (f : Sector → Sector) (s : State) : (setSec p f s).fw = s.fw := rfl
@[simp] theorem setSec_safe (p : Nat) (f : Sector → Sector) (s : State) : (setSec p f s).safe = s.safe := rfl
@[simp] theorem setSec_faultTimes (p : Nat) (f : Sector → Sector) (s : State) : (setSec p f s).faultTimes = s.faultTimes := rfl
@[simp] theorem setSec_maint (p : Nat) (f : Sector → Sector) (s : State) : (setSec p f s).maint = s.maint := rfl

@[simp] theorem setAcct_pending (p sb : Nat) (f : Duty → Duty) (s : State) : (setAcct p sb f s).pending = s.pending := rfl
@[simp] theorem setAcct_now (p sb : Nat) (f : Duty → Duty) (s : State) : (setAcct p sb f s).now = s.now := rfl
@[simp] theorem setAcct_mono (p sb : Nat) (f : Duty → Duty) (s : State) : (setAcct p sb f s).mono = s.mono := rfl
@[simp] theorem setAcct_tickAt (p sb : Nat) (f : Duty → Duty) (s : State) : (setAcct p sb f s).tickAt = s.tickAt := rfl
@[simp] theorem setAcct_timeLoaded (p sb : Nat) (f : Duty → Duty) (s : State) : (setAcct p sb f s).timeLoaded = s.timeLoaded := rfl
@[simp] theorem setAcct_trustSeen (p sb : Nat) (f : Duty → Duty) (s : State) : (setAcct p sb f s).trustSeen = s.trustSeen := rfl
@[simp] theorem setAcct_freeCtr (p sb : Nat) (f : Duty → Duty) (s : State) : (setAcct p sb f s).freeCtr = s.freeCtr := rfl
@[simp] theorem setAcct_out (p sb : Nat) (f : Duty → Duty) (s : State) : (setAcct p sb f s).out = s.out := rfl
@[simp] theorem setAcct_cfg (p sb : Nat) (f : Duty → Duty) (s : State) : (setAcct p sb f s).cfg = s.cfg := rfl
@[simp] theorem setAcct_mbxs (p sb : Nat) (f : Duty → Duty) (s : State) : (setAcct p sb f s).mbxs = s.mbxs := rfl
@[simp] theorem setAcct_rrNext (p sb : Nat) (f : Duty → Duty) (s : State) : (setAcct p sb f s).rrNext = s.rrNext := rfl
@[simp] theorem setAcct_fetchCtr (p sb : Nat) (f : Duty → Duty) (s : State) : (setAcct p sb f s).fetchCtr = s.fetchCtr := rfl
@[simp] theorem setAcct_ops (p sb : Nat) (f : Duty → Duty) (s : State) : (setAcct p sb f s).ops = s.ops := rfl
@[simp] theorem setAcct_nextOp (p sb : Nat) (f : Duty → Duty) (s : State) : (setAcct p sb f s).nextOp = s.nextOp := rfl
@[simp] theorem setAcct_evt (p sb : Nat) (f : Duty → Duty) (s : State) : (setAcct p sb f s).evt = s.evt := rfl
@[simp] theorem setAcct_glb (p sb : Nat) (f : Duty → Duty) (s : State) : (setAcct p sb f s).glb = s.glb := rfl
@[simp] theorem setAcct_mir (p sb : Nat) (f : Duty → Duty) (s : State) : (setAcct p sb f s).mir = s.mir := rfl
@[simp] theorem setAcct_isl (p sb : Nat) (f : Duty → Duty) (s : State) : (setAcct p sb f s).isl = s.isl := rfl
@[simp] theorem setAcct_links (p sb : Nat) (f : Duty → Duty) (s : State) : (setAcct p sb f s).links = s.links := rfl
@[simp] theorem setAcct_auditAt (p sb : Nat) (f : Duty → Duty) (s : State) : (setAcct p sb f s).auditAt = s.auditAt := rfl
@[simp] theorem setAcct_boot (p sb : Nat) (f : Duty → Duty) (s : State) : (setAcct p sb f s).boot = s.boot := rfl
@[simp] theorem setAcct_pcie (p sb : Nat) (f : Duty → Duty) (s : State) : (setAcct p sb f s).pcie = s.pcie := rfl
@[simp] theorem setAcct_fuses (p sb : Nat) (f : Duty → Duty) (s : State) : (setAcct p sb f s).fuses = s.fuses := rfl
@[simp] theorem setAcct_mon (p sb : Nat) (f : Duty → Duty) (s : State) : (setAcct p sb f s).mon = s.mon := rfl
@[simp] theorem setAcct_bkp (p sb : Nat) (f : Duty → Duty) (s : State) : (setAcct p sb f s).bkp = s.bkp := rfl
@[simp] theorem setAcct_rf (p sb : Nat) (f : Duty → Duty) (s : State) : (setAcct p sb f s).rf = s.rf := rfl
@[simp] theorem setAcct_lanes (p sb : Nat) (f : Duty → Duty) (s : State) : (setAcct p sb f s).lanes = s.lanes := rfl
@[simp] theorem setAcct_laneCount (p sb : Nat) (f : Duty → Duty) (s : State) : (setAcct p sb f s).laneCount = s.laneCount := rfl
@[simp] theorem setAcct_roles (p sb : Nat) (f : Duty → Duty) (s : State) : (setAcct p sb f s).roles = s.roles := rfl
@[simp] theorem setAcct_rot (p sb : Nat) (f : Duty → Duty) (s : State) : (setAcct p sb f s).rot = s.rot := rfl
@[simp] theorem setAcct_sectors (p sb : Nat) (f : Duty → Duty) (s : State) : (setAcct p sb f s).sectors = s.sectors := rfl
@[simp] theorem setAcct_plc (p sb : Nat) (f : Duty → Duty) (s : State) : (setAcct p sb f s).plc = s.plc := rfl
@[simp] theorem setAcct_plcMac (p sb : Nat) (f : Duty → Duty) (s : State) : (setAcct p sb f s).plcMac = s.plcMac := rfl
@[simp] theorem setAcct_dir (p sb : Nat) (f : Duty → Duty) (s : State) : (setAcct p sb f s).dir = s.dir := rfl
@[simp] theorem setAcct_eps (p sb : Nat) (f : Duty → Duty) (s : State) : (setAcct p sb f s).eps = s.eps := rfl
@[simp] theorem setAcct_blobs (p sb : Nat) (f : Duty → Duty) (s : State) : (setAcct p sb f s).blobs = s.blobs := rfl
@[simp] theorem setAcct_mem (p sb : Nat) (f : Duty → Duty) (s : State) : (setAcct p sb f s).mem = s.mem := rfl
@[simp] theorem setAcct_xlate (p sb : Nat) (f : Duty → Duty) (s : State) : (setAcct p sb f s).xlate = s.xlate := rfl
@[simp] theorem setAcct_chans (p sb : Nat) (f : Duty → Duty) (s : State) : (setAcct p sb f s).chans = s.chans := rfl
@[simp] theorem setAcct_jnv (p sb : Nat) (f : Duty → Duty) (s : State) : (setAcct p sb f s).jnv = s.jnv := rfl
@[simp] theorem setAcct_jnl (p sb : Nat) (f : Duty → Duty) (s : State) : (setAcct p sb f s).jnl = s.jnl := rfl
@[simp] theorem setAcct_prov (p sb : Nat) (f : Duty → Duty) (s : State) : (setAcct p sb f s).prov = s.prov := rfl
@[simp] theorem setAcct_roots (p sb : Nat) (f : Duty → Duty) (s : State) : (setAcct p sb f s).roots = s.roots := rfl
@[simp] theorem setAcct_ledger (p sb : Nat) (f : Duty → Duty) (s : State) : (setAcct p sb f s).ledger = s.ledger := rfl
@[simp] theorem setAcct_bal (p sb : Nat) (f : Duty → Duty) (s : State) : (setAcct p sb f s).bal = s.bal := rfl
@[simp] theorem setAcct_camps (p sb : Nat) (f : Duty → Duty) (s : State) : (setAcct p sb f s).camps = s.camps := rfl
@[simp] theorem setAcct_confUnmatched (p sb : Nat) (f : Duty → Duty) (s : State) : (setAcct p sb f s).confUnmatched = s.confUnmatched := rfl
@[simp] theorem setAcct_slots (p sb : Nat) (f : Duty → Duty) (s : State) : (setAcct p sb f s).slots = s.slots := rfl
@[simp] theorem setAcct_keys (p sb : Nat) (f : Duty → Duty) (s : State) : (setAcct p sb f s).keys = s.keys := rfl
@[simp] theorem setAcct_slateNv (p sb : Nat) (f : Duty → Duty) (s : State) : (setAcct p sb f s).slateNv = s.slateNv := rfl
@[simp] theorem setAcct_slate (p sb : Nat) (f : Duty → Duty) (s : State) : (setAcct p sb f s).slate = s.slate := rfl
@[simp] theorem setAcct_life (p sb : Nat) (f : Duty → Duty) (s : State) : (setAcct p sb f s).life = s.life := rfl
@[simp] theorem setAcct_fwNv (p sb : Nat) (f : Duty → Duty) (s : State) : (setAcct p sb f s).fwNv = s.fwNv := rfl
@[simp] theorem setAcct_fw (p sb : Nat) (f : Duty → Duty) (s : State) : (setAcct p sb f s).fw = s.fw := rfl
@[simp] theorem setAcct_safe (p sb : Nat) (f : Duty → Duty) (s : State) : (setAcct p sb f s).safe = s.safe := rfl
@[simp] theorem setAcct_faultTimes (p sb : Nat) (f : Duty → Duty) (s : State) : (setAcct p sb f s).faultTimes = s.faultTimes := rfl
@[simp] theorem setAcct_maint (p sb : Nat) (f : Duty → Duty) (s : State) : (setAcct p sb f s).maint = s.maint := rfl

@[simp] theorem setChan_pending (c : Nat) (f : Chan → Chan) (s : State) : (setChan c f s).pending = s.pending := rfl
@[simp] theorem setChan_now (c : Nat) (f : Chan → Chan) (s : State) : (setChan c f s).now = s.now := rfl
@[simp] theorem setChan_mono (c : Nat) (f : Chan → Chan) (s : State) : (setChan c f s).mono = s.mono := rfl
@[simp] theorem setChan_tickAt (c : Nat) (f : Chan → Chan) (s : State) : (setChan c f s).tickAt = s.tickAt := rfl
@[simp] theorem setChan_timeLoaded (c : Nat) (f : Chan → Chan) (s : State) : (setChan c f s).timeLoaded = s.timeLoaded := rfl
@[simp] theorem setChan_trustSeen (c : Nat) (f : Chan → Chan) (s : State) : (setChan c f s).trustSeen = s.trustSeen := rfl
@[simp] theorem setChan_freeCtr (c : Nat) (f : Chan → Chan) (s : State) : (setChan c f s).freeCtr = s.freeCtr := rfl
@[simp] theorem setChan_out (c : Nat) (f : Chan → Chan) (s : State) : (setChan c f s).out = s.out := rfl
@[simp] theorem setChan_cfg (c : Nat) (f : Chan → Chan) (s : State) : (setChan c f s).cfg = s.cfg := rfl
@[simp] theorem setChan_mbxs (c : Nat) (f : Chan → Chan) (s : State) : (setChan c f s).mbxs = s.mbxs := rfl
@[simp] theorem setChan_rrNext (c : Nat) (f : Chan → Chan) (s : State) : (setChan c f s).rrNext = s.rrNext := rfl
@[simp] theorem setChan_fetchCtr (c : Nat) (f : Chan → Chan) (s : State) : (setChan c f s).fetchCtr = s.fetchCtr := rfl
@[simp] theorem setChan_ops (c : Nat) (f : Chan → Chan) (s : State) : (setChan c f s).ops = s.ops := rfl
@[simp] theorem setChan_nextOp (c : Nat) (f : Chan → Chan) (s : State) : (setChan c f s).nextOp = s.nextOp := rfl
@[simp] theorem setChan_evt (c : Nat) (f : Chan → Chan) (s : State) : (setChan c f s).evt = s.evt := rfl
@[simp] theorem setChan_glb (c : Nat) (f : Chan → Chan) (s : State) : (setChan c f s).glb = s.glb := rfl
@[simp] theorem setChan_mir (c : Nat) (f : Chan → Chan) (s : State) : (setChan c f s).mir = s.mir := rfl
@[simp] theorem setChan_isl (c : Nat) (f : Chan → Chan) (s : State) : (setChan c f s).isl = s.isl := rfl
@[simp] theorem setChan_links (c : Nat) (f : Chan → Chan) (s : State) : (setChan c f s).links = s.links := rfl
@[simp] theorem setChan_auditAt (c : Nat) (f : Chan → Chan) (s : State) : (setChan c f s).auditAt = s.auditAt := rfl
@[simp] theorem setChan_boot (c : Nat) (f : Chan → Chan) (s : State) : (setChan c f s).boot = s.boot := rfl
@[simp] theorem setChan_pcie (c : Nat) (f : Chan → Chan) (s : State) : (setChan c f s).pcie = s.pcie := rfl
@[simp] theorem setChan_fuses (c : Nat) (f : Chan → Chan) (s : State) : (setChan c f s).fuses = s.fuses := rfl
@[simp] theorem setChan_mon (c : Nat) (f : Chan → Chan) (s : State) : (setChan c f s).mon = s.mon := rfl
@[simp] theorem setChan_bkp (c : Nat) (f : Chan → Chan) (s : State) : (setChan c f s).bkp = s.bkp := rfl
@[simp] theorem setChan_rf (c : Nat) (f : Chan → Chan) (s : State) : (setChan c f s).rf = s.rf := rfl
@[simp] theorem setChan_lanes (c : Nat) (f : Chan → Chan) (s : State) : (setChan c f s).lanes = s.lanes := rfl
@[simp] theorem setChan_laneCount (c : Nat) (f : Chan → Chan) (s : State) : (setChan c f s).laneCount = s.laneCount := rfl
@[simp] theorem setChan_roles (c : Nat) (f : Chan → Chan) (s : State) : (setChan c f s).roles = s.roles := rfl
@[simp] theorem setChan_rot (c : Nat) (f : Chan → Chan) (s : State) : (setChan c f s).rot = s.rot := rfl
@[simp] theorem setChan_sectors (c : Nat) (f : Chan → Chan) (s : State) : (setChan c f s).sectors = s.sectors := rfl
@[simp] theorem setChan_duty (c : Nat) (f : Chan → Chan) (s : State) : (setChan c f s).duty = s.duty := rfl
@[simp] theorem setChan_plc (c : Nat) (f : Chan → Chan) (s : State) : (setChan c f s).plc = s.plc := rfl
@[simp] theorem setChan_plcMac (c : Nat) (f : Chan → Chan) (s : State) : (setChan c f s).plcMac = s.plcMac := rfl
@[simp] theorem setChan_dir (c : Nat) (f : Chan → Chan) (s : State) : (setChan c f s).dir = s.dir := rfl
@[simp] theorem setChan_eps (c : Nat) (f : Chan → Chan) (s : State) : (setChan c f s).eps = s.eps := rfl
@[simp] theorem setChan_blobs (c : Nat) (f : Chan → Chan) (s : State) : (setChan c f s).blobs = s.blobs := rfl
@[simp] theorem setChan_mem (c : Nat) (f : Chan → Chan) (s : State) : (setChan c f s).mem = s.mem := rfl
@[simp] theorem setChan_xlate (c : Nat) (f : Chan → Chan) (s : State) : (setChan c f s).xlate = s.xlate := rfl
@[simp] theorem setChan_jnv (c : Nat) (f : Chan → Chan) (s : State) : (setChan c f s).jnv = s.jnv := rfl
@[simp] theorem setChan_jnl (c : Nat) (f : Chan → Chan) (s : State) : (setChan c f s).jnl = s.jnl := rfl
@[simp] theorem setChan_prov (c : Nat) (f : Chan → Chan) (s : State) : (setChan c f s).prov = s.prov := rfl
@[simp] theorem setChan_roots (c : Nat) (f : Chan → Chan) (s : State) : (setChan c f s).roots = s.roots := rfl
@[simp] theorem setChan_ledger (c : Nat) (f : Chan → Chan) (s : State) : (setChan c f s).ledger = s.ledger := rfl
@[simp] theorem setChan_bal (c : Nat) (f : Chan → Chan) (s : State) : (setChan c f s).bal = s.bal := rfl
@[simp] theorem setChan_camps (c : Nat) (f : Chan → Chan) (s : State) : (setChan c f s).camps = s.camps := rfl
@[simp] theorem setChan_confUnmatched (c : Nat) (f : Chan → Chan) (s : State) : (setChan c f s).confUnmatched = s.confUnmatched := rfl
@[simp] theorem setChan_slots (c : Nat) (f : Chan → Chan) (s : State) : (setChan c f s).slots = s.slots := rfl
@[simp] theorem setChan_keys (c : Nat) (f : Chan → Chan) (s : State) : (setChan c f s).keys = s.keys := rfl
@[simp] theorem setChan_slateNv (c : Nat) (f : Chan → Chan) (s : State) : (setChan c f s).slateNv = s.slateNv := rfl
@[simp] theorem setChan_slate (c : Nat) (f : Chan → Chan) (s : State) : (setChan c f s).slate = s.slate := rfl
@[simp] theorem setChan_life (c : Nat) (f : Chan → Chan) (s : State) : (setChan c f s).life = s.life := rfl
@[simp] theorem setChan_fwNv (c : Nat) (f : Chan → Chan) (s : State) : (setChan c f s).fwNv = s.fwNv := rfl
@[simp] theorem setChan_fw (c : Nat) (f : Chan → Chan) (s : State) : (setChan c f s).fw = s.fw := rfl
@[simp] theorem setChan_safe (c : Nat) (f : Chan → Chan) (s : State) : (setChan c f s).safe = s.safe := rfl
@[simp] theorem setChan_faultTimes (c : Nat) (f : Chan → Chan) (s : State) : (setChan c f s).faultTimes = s.faultTimes := rfl
@[simp] theorem setChan_maint (c : Nat) (f : Chan → Chan) (s : State) : (setChan c f s).maint = s.maint := rfl

@[simp] theorem setRole_pending (k : Nat) (r : LaneRole) (s : State) : (setRole k r s).pending = s.pending := rfl
@[simp] theorem setRole_now (k : Nat) (r : LaneRole) (s : State) : (setRole k r s).now = s.now := rfl
@[simp] theorem setRole_mono (k : Nat) (r : LaneRole) (s : State) : (setRole k r s).mono = s.mono := rfl
@[simp] theorem setRole_tickAt (k : Nat) (r : LaneRole) (s : State) : (setRole k r s).tickAt = s.tickAt := rfl
@[simp] theorem setRole_timeLoaded (k : Nat) (r : LaneRole) (s : State) : (setRole k r s).timeLoaded = s.timeLoaded := rfl
@[simp] theorem setRole_trustSeen (k : Nat) (r : LaneRole) (s : State) : (setRole k r s).trustSeen = s.trustSeen := rfl
@[simp] theorem setRole_freeCtr (k : Nat) (r : LaneRole) (s : State) : (setRole k r s).freeCtr = s.freeCtr := rfl
@[simp] theorem setRole_out (k : Nat) (r : LaneRole) (s : State) : (setRole k r s).out = s.out := rfl
@[simp] theorem setRole_cfg (k : Nat) (r : LaneRole) (s : State) : (setRole k r s).cfg = s.cfg := rfl
@[simp] theorem setRole_mbxs (k : Nat) (r : LaneRole) (s : State) : (setRole k r s).mbxs = s.mbxs := rfl
@[simp] theorem setRole_rrNext (k : Nat) (r : LaneRole) (s : State) : (setRole k r s).rrNext = s.rrNext := rfl
@[simp] theorem setRole_fetchCtr (k : Nat) (r : LaneRole) (s : State) : (setRole k r s).fetchCtr = s.fetchCtr := rfl
@[simp] theorem setRole_ops (k : Nat) (r : LaneRole) (s : State) : (setRole k r s).ops = s.ops := rfl
@[simp] theorem setRole_nextOp (k : Nat) (r : LaneRole) (s : State) : (setRole k r s).nextOp = s.nextOp := rfl
@[simp] theorem setRole_evt (k : Nat) (r : LaneRole) (s : State) : (setRole k r s).evt = s.evt := rfl
@[simp] theorem setRole_glb (k : Nat) (r : LaneRole) (s : State) : (setRole k r s).glb = s.glb := rfl
@[simp] theorem setRole_mir (k : Nat) (r : LaneRole) (s : State) : (setRole k r s).mir = s.mir := rfl
@[simp] theorem setRole_isl (k : Nat) (r : LaneRole) (s : State) : (setRole k r s).isl = s.isl := rfl
@[simp] theorem setRole_links (k : Nat) (r : LaneRole) (s : State) : (setRole k r s).links = s.links := rfl
@[simp] theorem setRole_auditAt (k : Nat) (r : LaneRole) (s : State) : (setRole k r s).auditAt = s.auditAt := rfl
@[simp] theorem setRole_boot (k : Nat) (r : LaneRole) (s : State) : (setRole k r s).boot = s.boot := rfl
@[simp] theorem setRole_pcie (k : Nat) (r : LaneRole) (s : State) : (setRole k r s).pcie = s.pcie := rfl
@[simp] theorem setRole_fuses (k : Nat) (r : LaneRole) (s : State) : (setRole k r s).fuses = s.fuses := rfl
@[simp] theorem setRole_mon (k : Nat) (r : LaneRole) (s : State) : (setRole k r s).mon = s.mon := rfl
@[simp] theorem setRole_bkp (k : Nat) (r : LaneRole) (s : State) : (setRole k r s).bkp = s.bkp := rfl
@[simp] theorem setRole_rf (k : Nat) (r : LaneRole) (s : State) : (setRole k r s).rf = s.rf := rfl
@[simp] theorem setRole_lanes (k : Nat) (r : LaneRole) (s : State) : (setRole k r s).lanes = s.lanes := rfl
@[simp] theorem setRole_laneCount (k : Nat) (r : LaneRole) (s : State) : (setRole k r s).laneCount = s.laneCount := rfl
@[simp] theorem setRole_rot (k : Nat) (r : LaneRole) (s : State) : (setRole k r s).rot = s.rot := rfl
@[simp] theorem setRole_sectors (k : Nat) (r : LaneRole) (s : State) : (setRole k r s).sectors = s.sectors := rfl
@[simp] theorem setRole_duty (k : Nat) (r : LaneRole) (s : State) : (setRole k r s).duty = s.duty := rfl
@[simp] theorem setRole_plc (k : Nat) (r : LaneRole) (s : State) : (setRole k r s).plc = s.plc := rfl
@[simp] theorem setRole_plcMac (k : Nat) (r : LaneRole) (s : State) : (setRole k r s).plcMac = s.plcMac := rfl
@[simp] theorem setRole_dir (k : Nat) (r : LaneRole) (s : State) : (setRole k r s).dir = s.dir := rfl
@[simp] theorem setRole_eps (k : Nat) (r : LaneRole) (s : State) : (setRole k r s).eps = s.eps := rfl
@[simp] theorem setRole_blobs (k : Nat) (r : LaneRole) (s : State) : (setRole k r s).blobs = s.blobs := rfl
@[simp] theorem setRole_mem (k : Nat) (r : LaneRole) (s : State) : (setRole k r s).mem = s.mem := rfl
@[simp] theorem setRole_xlate (k : Nat) (r : LaneRole) (s : State) : (setRole k r s).xlate = s.xlate := rfl
@[simp] theorem setRole_chans (k : Nat) (r : LaneRole) (s : State) : (setRole k r s).chans = s.chans := rfl
@[simp] theorem setRole_jnv (k : Nat) (r : LaneRole) (s : State) : (setRole k r s).jnv = s.jnv := rfl
@[simp] theorem setRole_jnl (k : Nat) (r : LaneRole) (s : State) : (setRole k r s).jnl = s.jnl := rfl
@[simp] theorem setRole_prov (k : Nat) (r : LaneRole) (s : State) : (setRole k r s).prov = s.prov := rfl
@[simp] theorem setRole_roots (k : Nat) (r : LaneRole) (s : State) : (setRole k r s).roots = s.roots := rfl
@[simp] theorem setRole_ledger (k : Nat) (r : LaneRole) (s : State) : (setRole k r s).ledger = s.ledger := rfl
@[simp] theorem setRole_bal (k : Nat) (r : LaneRole) (s : State) : (setRole k r s).bal = s.bal := rfl
@[simp] theorem setRole_camps (k : Nat) (r : LaneRole) (s : State) : (setRole k r s).camps = s.camps := rfl
@[simp] theorem setRole_confUnmatched (k : Nat) (r : LaneRole) (s : State) : (setRole k r s).confUnmatched = s.confUnmatched := rfl
@[simp] theorem setRole_slots (k : Nat) (r : LaneRole) (s : State) : (setRole k r s).slots = s.slots := rfl
@[simp] theorem setRole_keys (k : Nat) (r : LaneRole) (s : State) : (setRole k r s).keys = s.keys := rfl
@[simp] theorem setRole_slateNv (k : Nat) (r : LaneRole) (s : State) : (setRole k r s).slateNv = s.slateNv := rfl
@[simp] theorem setRole_slate (k : Nat) (r : LaneRole) (s : State) : (setRole k r s).slate = s.slate := rfl
@[simp] theorem setRole_life (k : Nat) (r : LaneRole) (s : State) : (setRole k r s).life = s.life := rfl
@[simp] theorem setRole_fwNv (k : Nat) (r : LaneRole) (s : State) : (setRole k r s).fwNv = s.fwNv := rfl
@[simp] theorem setRole_fw (k : Nat) (r : LaneRole) (s : State) : (setRole k r s).fw = s.fw := rfl
@[simp] theorem setRole_safe (k : Nat) (r : LaneRole) (s : State) : (setRole k r s).safe = s.safe := rfl
@[simp] theorem setRole_faultTimes (k : Nat) (r : LaneRole) (s : State) : (setRole k r s).faultTimes = s.faultTimes := rfl
@[simp] theorem setRole_maint (k : Nat) (r : LaneRole) (s : State) : (setRole k r s).maint = s.maint := rfl

@[simp] theorem setSlot_pending (n : Nat) (x : KSlot) (s : State) : (setSlot n x s).pending = s.pending := rfl
@[simp] theorem setSlot_now (n : Nat) (x : KSlot) (s : State) : (setSlot n x s).now = s.now := rfl
@[simp] theorem setSlot_mono (n : Nat) (x : KSlot) (s : State) : (setSlot n x s).mono = s.mono := rfl
@[simp] theorem setSlot_tickAt (n : Nat) (x : KSlot) (s : State) : (setSlot n x s).tickAt = s.tickAt := rfl
@[simp] theorem setSlot_timeLoaded (n : Nat) (x : KSlot) (s : State) : (setSlot n x s).timeLoaded = s.timeLoaded := rfl
@[simp] theorem setSlot_trustSeen (n : Nat) (x : KSlot) (s : State) : (setSlot n x s).trustSeen = s.trustSeen := rfl
@[simp] theorem setSlot_freeCtr (n : Nat) (x : KSlot) (s : State) : (setSlot n x s).freeCtr = s.freeCtr := rfl
@[simp] theorem setSlot_out (n : Nat) (x : KSlot) (s : State) : (setSlot n x s).out = s.out := rfl
@[simp] theorem setSlot_cfg (n : Nat) (x : KSlot) (s : State) : (setSlot n x s).cfg = s.cfg := rfl
@[simp] theorem setSlot_mbxs (n : Nat) (x : KSlot) (s : State) : (setSlot n x s).mbxs = s.mbxs := rfl
@[simp] theorem setSlot_rrNext (n : Nat) (x : KSlot) (s : State) : (setSlot n x s).rrNext = s.rrNext := rfl
@[simp] theorem setSlot_fetchCtr (n : Nat) (x : KSlot) (s : State) : (setSlot n x s).fetchCtr = s.fetchCtr := rfl
@[simp] theorem setSlot_ops (n : Nat) (x : KSlot) (s : State) : (setSlot n x s).ops = s.ops := rfl
@[simp] theorem setSlot_nextOp (n : Nat) (x : KSlot) (s : State) : (setSlot n x s).nextOp = s.nextOp := rfl
@[simp] theorem setSlot_evt (n : Nat) (x : KSlot) (s : State) : (setSlot n x s).evt = s.evt := rfl
@[simp] theorem setSlot_glb (n : Nat) (x : KSlot) (s : State) : (setSlot n x s).glb = s.glb := rfl
@[simp] theorem setSlot_mir (n : Nat) (x : KSlot) (s : State) : (setSlot n x s).mir = s.mir := rfl
@[simp] theorem setSlot_isl (n : Nat) (x : KSlot) (s : State) : (setSlot n x s).isl = s.isl := rfl
@[simp] theorem setSlot_links (n : Nat) (x : KSlot) (s : State) : (setSlot n x s).links = s.links := rfl
@[simp] theorem setSlot_auditAt (n : Nat) (x : KSlot) (s : State) : (setSlot n x s).auditAt = s.auditAt := rfl
@[simp] theorem setSlot_boot (n : Nat) (x : KSlot) (s : State) : (setSlot n x s).boot = s.boot := rfl
@[simp] theorem setSlot_pcie (n : Nat) (x : KSlot) (s : State) : (setSlot n x s).pcie = s.pcie := rfl
@[simp] theorem setSlot_fuses (n : Nat) (x : KSlot) (s : State) : (setSlot n x s).fuses = s.fuses := rfl
@[simp] theorem setSlot_mon (n : Nat) (x : KSlot) (s : State) : (setSlot n x s).mon = s.mon := rfl
@[simp] theorem setSlot_bkp (n : Nat) (x : KSlot) (s : State) : (setSlot n x s).bkp = s.bkp := rfl
@[simp] theorem setSlot_rf (n : Nat) (x : KSlot) (s : State) : (setSlot n x s).rf = s.rf := rfl
@[simp] theorem setSlot_lanes (n : Nat) (x : KSlot) (s : State) : (setSlot n x s).lanes = s.lanes := rfl
@[simp] theorem setSlot_laneCount (n : Nat) (x : KSlot) (s : State) : (setSlot n x s).laneCount = s.laneCount := rfl
@[simp] theorem setSlot_roles (n : Nat) (x : KSlot) (s : State) : (setSlot n x s).roles = s.roles := rfl
@[simp] theorem setSlot_rot (n : Nat) (x : KSlot) (s : State) : (setSlot n x s).rot = s.rot := rfl
@[simp] theorem setSlot_sectors (n : Nat) (x : KSlot) (s : State) : (setSlot n x s).sectors = s.sectors := rfl
@[simp] theorem setSlot_duty (n : Nat) (x : KSlot) (s : State) : (setSlot n x s).duty = s.duty := rfl
@[simp] theorem setSlot_plc (n : Nat) (x : KSlot) (s : State) : (setSlot n x s).plc = s.plc := rfl
@[simp] theorem setSlot_plcMac (n : Nat) (x : KSlot) (s : State) : (setSlot n x s).plcMac = s.plcMac := rfl
@[simp] theorem setSlot_dir (n : Nat) (x : KSlot) (s : State) : (setSlot n x s).dir = s.dir := rfl
@[simp] theorem setSlot_eps (n : Nat) (x : KSlot) (s : State) : (setSlot n x s).eps = s.eps := rfl
@[simp] theorem setSlot_blobs (n : Nat) (x : KSlot) (s : State) : (setSlot n x s).blobs = s.blobs := rfl
@[simp] theorem setSlot_mem (n : Nat) (x : KSlot) (s : State) : (setSlot n x s).mem = s.mem := rfl
@[simp] theorem setSlot_xlate (n : Nat) (x : KSlot) (s : State) : (setSlot n x s).xlate = s.xlate := rfl
@[simp] theorem setSlot_chans (n : Nat) (x : KSlot) (s : State) : (setSlot n x s).chans = s.chans := rfl
@[simp] theorem setSlot_jnv (n : Nat) (x : KSlot) (s : State) : (setSlot n x s).jnv = s.jnv := rfl
@[simp] theorem setSlot_jnl (n : Nat) (x : KSlot) (s : State) : (setSlot n x s).jnl = s.jnl := rfl
@[simp] theorem setSlot_prov (n : Nat) (x : KSlot) (s : State) : (setSlot n x s).prov = s.prov := rfl
@[simp] theorem setSlot_roots (n : Nat) (x : KSlot) (s : State) : (setSlot n x s).roots = s.roots := rfl
@[simp] theorem setSlot_ledger (n : Nat) (x : KSlot) (s : State) : (setSlot n x s).ledger = s.ledger := rfl
@[simp] theorem setSlot_bal (n : Nat) (x : KSlot) (s : State) : (setSlot n x s).bal = s.bal := rfl
@[simp] theorem setSlot_camps (n : Nat) (x : KSlot) (s : State) : (setSlot n x s).camps = s.camps := rfl
@[simp] theorem setSlot_confUnmatched (n : Nat) (x : KSlot) (s : State) : (setSlot n x s).confUnmatched = s.confUnmatched := rfl
@[simp] theorem setSlot_keys (n : Nat) (x : KSlot) (s : State) : (setSlot n x s).keys = s.keys := rfl
@[simp] theorem setSlot_slateNv (n : Nat) (x : KSlot) (s : State) : (setSlot n x s).slateNv = s.slateNv := rfl
@[simp] theorem setSlot_slate (n : Nat) (x : KSlot) (s : State) : (setSlot n x s).slate = s.slate := rfl
@[simp] theorem setSlot_life (n : Nat) (x : KSlot) (s : State) : (setSlot n x s).life = s.life := rfl
@[simp] theorem setSlot_fwNv (n : Nat) (x : KSlot) (s : State) : (setSlot n x s).fwNv = s.fwNv := rfl
@[simp] theorem setSlot_fw (n : Nat) (x : KSlot) (s : State) : (setSlot n x s).fw = s.fw := rfl
@[simp] theorem setSlot_safe (n : Nat) (x : KSlot) (s : State) : (setSlot n x s).safe = s.safe := rfl
@[simp] theorem setSlot_faultTimes (n : Nat) (x : KSlot) (s : State) : (setSlot n x s).faultTimes = s.faultTimes := rfl
@[simp] theorem setSlot_maint (n : Nat) (x : KSlot) (s : State) : (setSlot n x s).maint = s.maint := rfl

@[simp] theorem setRun_pending (x : PlcTxn) (s : State) : (setRun x s).pending = s.pending := rfl
@[simp] theorem setRun_now (x : PlcTxn) (s : State) : (setRun x s).now = s.now := rfl
@[simp] theorem setRun_mono (x : PlcTxn) (s : State) : (setRun x s).mono = s.mono := rfl
@[simp] theorem setRun_tickAt (x : PlcTxn) (s : State) : (setRun x s).tickAt = s.tickAt := rfl
@[simp] theorem setRun_timeLoaded (x : PlcTxn) (s : State) : (setRun x s).timeLoaded = s.timeLoaded := rfl
@[simp] theorem setRun_trustSeen (x : PlcTxn) (s : State) : (setRun x s).trustSeen = s.trustSeen := rfl
@[simp] theorem setRun_freeCtr (x : PlcTxn) (s : State) : (setRun x s).freeCtr = s.freeCtr := rfl
@[simp] theorem setRun_out (x : PlcTxn) (s : State) : (setRun x s).out = s.out := rfl
@[simp] theorem setRun_cfg (x : PlcTxn) (s : State) : (setRun x s).cfg = s.cfg := rfl
@[simp] theorem setRun_mbxs (x : PlcTxn) (s : State) : (setRun x s).mbxs = s.mbxs := rfl
@[simp] theorem setRun_rrNext (x : PlcTxn) (s : State) : (setRun x s).rrNext = s.rrNext := rfl
@[simp] theorem setRun_fetchCtr (x : PlcTxn) (s : State) : (setRun x s).fetchCtr = s.fetchCtr := rfl
@[simp] theorem setRun_ops (x : PlcTxn) (s : State) : (setRun x s).ops = s.ops := rfl
@[simp] theorem setRun_nextOp (x : PlcTxn) (s : State) : (setRun x s).nextOp = s.nextOp := rfl
@[simp] theorem setRun_evt (x : PlcTxn) (s : State) : (setRun x s).evt = s.evt := rfl
@[simp] theorem setRun_glb (x : PlcTxn) (s : State) : (setRun x s).glb = s.glb := rfl
@[simp] theorem setRun_mir (x : PlcTxn) (s : State) : (setRun x s).mir = s.mir := rfl
@[simp] theorem setRun_isl (x : PlcTxn) (s : State) : (setRun x s).isl = s.isl := rfl
@[simp] theorem setRun_links (x : PlcTxn) (s : State) : (setRun x s).links = s.links := rfl
@[simp] theorem setRun_auditAt (x : PlcTxn) (s : State) : (setRun x s).auditAt = s.auditAt := rfl
@[simp] theorem setRun_boot (x : PlcTxn) (s : State) : (setRun x s).boot = s.boot := rfl
@[simp] theorem setRun_pcie (x : PlcTxn) (s : State) : (setRun x s).pcie = s.pcie := rfl
@[simp] theorem setRun_fuses (x : PlcTxn) (s : State) : (setRun x s).fuses = s.fuses := rfl
@[simp] theorem setRun_mon (x : PlcTxn) (s : State) : (setRun x s).mon = s.mon := rfl
@[simp] theorem setRun_bkp (x : PlcTxn) (s : State) : (setRun x s).bkp = s.bkp := rfl
@[simp] theorem setRun_rf (x : PlcTxn) (s : State) : (setRun x s).rf = s.rf := rfl
@[simp] theorem setRun_lanes (x : PlcTxn) (s : State) : (setRun x s).lanes = s.lanes := rfl
@[simp] theorem setRun_laneCount (x : PlcTxn) (s : State) : (setRun x s).laneCount = s.laneCount := rfl
@[simp] theorem setRun_roles (x : PlcTxn) (s : State) : (setRun x s).roles = s.roles := rfl
@[simp] theorem setRun_rot (x : PlcTxn) (s : State) : (setRun x s).rot = s.rot := rfl
@[simp] theorem setRun_sectors (x : PlcTxn) (s : State) : (setRun x s).sectors = s.sectors := rfl
@[simp] theorem setRun_duty (x : PlcTxn) (s : State) : (setRun x s).duty = s.duty := rfl
@[simp] theorem setRun_plc (x : PlcTxn) (s : State) : (setRun x s).plc = s.plc := rfl
@[simp] theorem setRun_dir (x : PlcTxn) (s : State) : (setRun x s).dir = s.dir := rfl
@[simp] theorem setRun_eps (x : PlcTxn) (s : State) : (setRun x s).eps = s.eps := rfl
@[simp] theorem setRun_blobs (x : PlcTxn) (s : State) : (setRun x s).blobs = s.blobs := rfl
@[simp] theorem setRun_mem (x : PlcTxn) (s : State) : (setRun x s).mem = s.mem := rfl
@[simp] theorem setRun_xlate (x : PlcTxn) (s : State) : (setRun x s).xlate = s.xlate := rfl
@[simp] theorem setRun_chans (x : PlcTxn) (s : State) : (setRun x s).chans = s.chans := rfl
@[simp] theorem setRun_jnv (x : PlcTxn) (s : State) : (setRun x s).jnv = s.jnv := rfl
@[simp] theorem setRun_jnl (x : PlcTxn) (s : State) : (setRun x s).jnl = s.jnl := rfl
@[simp] theorem setRun_prov (x : PlcTxn) (s : State) : (setRun x s).prov = s.prov := rfl
@[simp] theorem setRun_roots (x : PlcTxn) (s : State) : (setRun x s).roots = s.roots := rfl
@[simp] theorem setRun_ledger (x : PlcTxn) (s : State) : (setRun x s).ledger = s.ledger := rfl
@[simp] theorem setRun_bal (x : PlcTxn) (s : State) : (setRun x s).bal = s.bal := rfl
@[simp] theorem setRun_camps (x : PlcTxn) (s : State) : (setRun x s).camps = s.camps := rfl
@[simp] theorem setRun_confUnmatched (x : PlcTxn) (s : State) : (setRun x s).confUnmatched = s.confUnmatched := rfl
@[simp] theorem setRun_slots (x : PlcTxn) (s : State) : (setRun x s).slots = s.slots := rfl
@[simp] theorem setRun_keys (x : PlcTxn) (s : State) : (setRun x s).keys = s.keys := rfl
@[simp] theorem setRun_slateNv (x : PlcTxn) (s : State) : (setRun x s).slateNv = s.slateNv := rfl
@[simp] theorem setRun_slate (x : PlcTxn) (s : State) : (setRun x s).slate = s.slate := rfl
@[simp] theorem setRun_life (x : PlcTxn) (s : State) : (setRun x s).life = s.life := rfl
@[simp] theorem setRun_fwNv (x : PlcTxn) (s : State) : (setRun x s).fwNv = s.fwNv := rfl
@[simp] theorem setRun_fw (x : PlcTxn) (s : State) : (setRun x s).fw = s.fw := rfl
@[simp] theorem setRun_safe (x : PlcTxn) (s : State) : (setRun x s).safe = s.safe := rfl
@[simp] theorem setRun_faultTimes (x : PlcTxn) (s : State) : (setRun x s).faultTimes = s.faultTimes := rfl
@[simp] theorem setRun_maint (x : PlcTxn) (s : State) : (setRun x s).maint = s.maint := rfl

@[simp] theorem setSafe_pending (st : SafeState) (s : State) : (setSafe st s).pending = s.pending := rfl
@[simp] theorem setSafe_now (st : SafeState) (s : State) : (setSafe st s).now = s.now := rfl
@[simp] theorem setSafe_mono (st : SafeState) (s : State) : (setSafe st s).mono = s.mono := rfl
@[simp] theorem setSafe_tickAt (st : SafeState) (s : State) : (setSafe st s).tickAt = s.tickAt := rfl
@[simp] theorem setSafe_timeLoaded (st : SafeState) (s : State) : (setSafe st s).timeLoaded = s.timeLoaded := rfl
@[simp] theorem setSafe_trustSeen (st : SafeState) (s : State) : (setSafe st s).trustSeen = s.trustSeen := rfl
@[simp] theorem setSafe_freeCtr (st : SafeState) (s : State) : (setSafe st s).freeCtr = s.freeCtr := rfl
@[simp] theorem setSafe_out (st : SafeState) (s : State) : (setSafe st s).out = s.out := rfl
@[simp] theorem setSafe_cfg (st : SafeState) (s : State) : (setSafe st s).cfg = s.cfg := rfl
@[simp] theorem setSafe_mbxs (st : SafeState) (s : State) : (setSafe st s).mbxs = s.mbxs := rfl
@[simp] theorem setSafe_rrNext (st : SafeState) (s : State) : (setSafe st s).rrNext = s.rrNext := rfl
@[simp] theorem setSafe_fetchCtr (st : SafeState) (s : State) : (setSafe st s).fetchCtr = s.fetchCtr := rfl
@[simp] theorem setSafe_ops (st : SafeState) (s : State) : (setSafe st s).ops = s.ops := rfl
@[simp] theorem setSafe_nextOp (st : SafeState) (s : State) : (setSafe st s).nextOp = s.nextOp := rfl
@[simp] theorem setSafe_evt (st : SafeState) (s : State) : (setSafe st s).evt = s.evt := rfl
@[simp] theorem setSafe_glb (st : SafeState) (s : State) : (setSafe st s).glb = s.glb := rfl
@[simp] theorem setSafe_mir (st : SafeState) (s : State) : (setSafe st s).mir = s.mir := rfl
@[simp] theorem setSafe_isl (st : SafeState) (s : State) : (setSafe st s).isl = s.isl := rfl
@[simp] theorem setSafe_links (st : SafeState) (s : State) : (setSafe st s).links = s.links := rfl
@[simp] theorem setSafe_auditAt (st : SafeState) (s : State) : (setSafe st s).auditAt = s.auditAt := rfl
@[simp] theorem setSafe_boot (st : SafeState) (s : State) : (setSafe st s).boot = s.boot := rfl
@[simp] theorem setSafe_pcie (st : SafeState) (s : State) : (setSafe st s).pcie = s.pcie := rfl
@[simp] theorem setSafe_fuses (st : SafeState) (s : State) : (setSafe st s).fuses = s.fuses := rfl
@[simp] theorem setSafe_mon (st : SafeState) (s : State) : (setSafe st s).mon = s.mon := rfl
@[simp] theorem setSafe_bkp (st : SafeState) (s : State) : (setSafe st s).bkp = s.bkp := rfl
@[simp] theorem setSafe_rf (st : SafeState) (s : State) : (setSafe st s).rf = s.rf := rfl
@[simp] theorem setSafe_lanes (st : SafeState) (s : State) : (setSafe st s).lanes = s.lanes := rfl
@[simp] theorem setSafe_laneCount (st : SafeState) (s : State) : (setSafe st s).laneCount = s.laneCount := rfl
@[simp] theorem setSafe_roles (st : SafeState) (s : State) : (setSafe st s).roles = s.roles := rfl
@[simp] theorem setSafe_rot (st : SafeState) (s : State) : (setSafe st s).rot = s.rot := rfl
@[simp] theorem setSafe_sectors (st : SafeState) (s : State) : (setSafe st s).sectors = s.sectors := rfl
@[simp] theorem setSafe_duty (st : SafeState) (s : State) : (setSafe st s).duty = s.duty := rfl
@[simp] theorem setSafe_plc (st : SafeState) (s : State) : (setSafe st s).plc = s.plc := rfl
@[simp] theorem setSafe_plcMac (st : SafeState) (s : State) : (setSafe st s).plcMac = s.plcMac := rfl
@[simp] theorem setSafe_dir (st : SafeState) (s : State) : (setSafe st s).dir = s.dir := rfl
@[simp] theorem setSafe_eps (st : SafeState) (s : State) : (setSafe st s).eps = s.eps := rfl
@[simp] theorem setSafe_blobs (st : SafeState) (s : State) : (setSafe st s).blobs = s.blobs := rfl
@[simp] theorem setSafe_mem (st : SafeState) (s : State) : (setSafe st s).mem = s.mem := rfl
@[simp] theorem setSafe_xlate (st : SafeState) (s : State) : (setSafe st s).xlate = s.xlate := rfl
@[simp] theorem setSafe_chans (st : SafeState) (s : State) : (setSafe st s).chans = s.chans := rfl
@[simp] theorem setSafe_jnv (st : SafeState) (s : State) : (setSafe st s).jnv = s.jnv := rfl
@[simp] theorem setSafe_jnl (st : SafeState) (s : State) : (setSafe st s).jnl = s.jnl := rfl
@[simp] theorem setSafe_prov (st : SafeState) (s : State) : (setSafe st s).prov = s.prov := rfl
@[simp] theorem setSafe_roots (st : SafeState) (s : State) : (setSafe st s).roots = s.roots := rfl
@[simp] theorem setSafe_ledger (st : SafeState) (s : State) : (setSafe st s).ledger = s.ledger := rfl
@[simp] theorem setSafe_bal (st : SafeState) (s : State) : (setSafe st s).bal = s.bal := rfl
@[simp] theorem setSafe_camps (st : SafeState) (s : State) : (setSafe st s).camps = s.camps := rfl
@[simp] theorem setSafe_confUnmatched (st : SafeState) (s : State) : (setSafe st s).confUnmatched = s.confUnmatched := rfl
@[simp] theorem setSafe_slots (st : SafeState) (s : State) : (setSafe st s).slots = s.slots := rfl
@[simp] theorem setSafe_keys (st : SafeState) (s : State) : (setSafe st s).keys = s.keys := rfl
@[simp] theorem setSafe_slateNv (st : SafeState) (s : State) : (setSafe st s).slateNv = s.slateNv := rfl
@[simp] theorem setSafe_slate (st : SafeState) (s : State) : (setSafe st s).slate = s.slate := rfl
@[simp] theorem setSafe_life (st : SafeState) (s : State) : (setSafe st s).life = s.life := rfl
@[simp] theorem setSafe_fwNv (st : SafeState) (s : State) : (setSafe st s).fwNv = s.fwNv := rfl
@[simp] theorem setSafe_fw (st : SafeState) (s : State) : (setSafe st s).fw = s.fw := rfl
@[simp] theorem setSafe_faultTimes (st : SafeState) (s : State) : (setSafe st s).faultTimes = s.faultTimes := rfl
@[simp] theorem setSafe_maint (st : SafeState) (s : State) : (setSafe st s).maint = s.maint := rfl

@[simp] theorem taken_pending (r : Req) (s : State) : (taken r s).pending = s.pending := rfl
@[simp] theorem taken_now (r : Req) (s : State) : (taken r s).now = s.now := rfl
@[simp] theorem taken_mono (r : Req) (s : State) : (taken r s).mono = s.mono := rfl
@[simp] theorem taken_tickAt (r : Req) (s : State) : (taken r s).tickAt = s.tickAt := rfl
@[simp] theorem taken_timeLoaded (r : Req) (s : State) : (taken r s).timeLoaded = s.timeLoaded := rfl
@[simp] theorem taken_trustSeen (r : Req) (s : State) : (taken r s).trustSeen = s.trustSeen := rfl
@[simp] theorem taken_freeCtr (r : Req) (s : State) : (taken r s).freeCtr = s.freeCtr := rfl
@[simp] theorem taken_out (r : Req) (s : State) : (taken r s).out = s.out := rfl
@[simp] theorem taken_cfg (r : Req) (s : State) : (taken r s).cfg = s.cfg := rfl
@[simp] theorem taken_rrNext (r : Req) (s : State) : (taken r s).rrNext = s.rrNext := rfl
@[simp] theorem taken_fetchCtr (r : Req) (s : State) : (taken r s).fetchCtr = s.fetchCtr := rfl
@[simp] theorem taken_ops (r : Req) (s : State) : (taken r s).ops = s.ops := rfl
@[simp] theorem taken_nextOp (r : Req) (s : State) : (taken r s).nextOp = s.nextOp := rfl
@[simp] theorem taken_evt (r : Req) (s : State) : (taken r s).evt = s.evt := rfl
@[simp] theorem taken_glb (r : Req) (s : State) : (taken r s).glb = s.glb := rfl
@[simp] theorem taken_mir (r : Req) (s : State) : (taken r s).mir = s.mir := rfl
@[simp] theorem taken_isl (r : Req) (s : State) : (taken r s).isl = s.isl := rfl
@[simp] theorem taken_links (r : Req) (s : State) : (taken r s).links = s.links := rfl
@[simp] theorem taken_auditAt (r : Req) (s : State) : (taken r s).auditAt = s.auditAt := rfl
@[simp] theorem taken_boot (r : Req) (s : State) : (taken r s).boot = s.boot := rfl
@[simp] theorem taken_pcie (r : Req) (s : State) : (taken r s).pcie = s.pcie := rfl
@[simp] theorem taken_fuses (r : Req) (s : State) : (taken r s).fuses = s.fuses := rfl
@[simp] theorem taken_mon (r : Req) (s : State) : (taken r s).mon = s.mon := rfl
@[simp] theorem taken_bkp (r : Req) (s : State) : (taken r s).bkp = s.bkp := rfl
@[simp] theorem taken_rf (r : Req) (s : State) : (taken r s).rf = s.rf := rfl
@[simp] theorem taken_lanes (r : Req) (s : State) : (taken r s).lanes = s.lanes := rfl
@[simp] theorem taken_laneCount (r : Req) (s : State) : (taken r s).laneCount = s.laneCount := rfl
@[simp] theorem taken_roles (r : Req) (s : State) : (taken r s).roles = s.roles := rfl
@[simp] theorem taken_rot (r : Req) (s : State) : (taken r s).rot = s.rot := rfl
@[simp] theorem taken_sectors (r : Req) (s : State) : (taken r s).sectors = s.sectors := rfl
@[simp] theorem taken_duty (r : Req) (s : State) : (taken r s).duty = s.duty := rfl
@[simp] theorem taken_plc (r : Req) (s : State) : (taken r s).plc = s.plc := rfl
@[simp] theorem taken_plcMac (r : Req) (s : State) : (taken r s).plcMac = s.plcMac := rfl
@[simp] theorem taken_dir (r : Req) (s : State) : (taken r s).dir = s.dir := rfl
@[simp] theorem taken_eps (r : Req) (s : State) : (taken r s).eps = s.eps := rfl
@[simp] theorem taken_blobs (r : Req) (s : State) : (taken r s).blobs = s.blobs := rfl
@[simp] theorem taken_mem (r : Req) (s : State) : (taken r s).mem = s.mem := rfl
@[simp] theorem taken_xlate (r : Req) (s : State) : (taken r s).xlate = s.xlate := rfl
@[simp] theorem taken_chans (r : Req) (s : State) : (taken r s).chans = s.chans := rfl
@[simp] theorem taken_jnv (r : Req) (s : State) : (taken r s).jnv = s.jnv := rfl
@[simp] theorem taken_jnl (r : Req) (s : State) : (taken r s).jnl = s.jnl := rfl
@[simp] theorem taken_prov (r : Req) (s : State) : (taken r s).prov = s.prov := rfl
@[simp] theorem taken_roots (r : Req) (s : State) : (taken r s).roots = s.roots := rfl
@[simp] theorem taken_ledger (r : Req) (s : State) : (taken r s).ledger = s.ledger := rfl
@[simp] theorem taken_bal (r : Req) (s : State) : (taken r s).bal = s.bal := rfl
@[simp] theorem taken_camps (r : Req) (s : State) : (taken r s).camps = s.camps := rfl
@[simp] theorem taken_confUnmatched (r : Req) (s : State) : (taken r s).confUnmatched = s.confUnmatched := rfl
@[simp] theorem taken_slots (r : Req) (s : State) : (taken r s).slots = s.slots := rfl
@[simp] theorem taken_keys (r : Req) (s : State) : (taken r s).keys = s.keys := rfl
@[simp] theorem taken_slateNv (r : Req) (s : State) : (taken r s).slateNv = s.slateNv := rfl
@[simp] theorem taken_slate (r : Req) (s : State) : (taken r s).slate = s.slate := rfl
@[simp] theorem taken_life (r : Req) (s : State) : (taken r s).life = s.life := rfl
@[simp] theorem taken_fwNv (r : Req) (s : State) : (taken r s).fwNv = s.fwNv := rfl
@[simp] theorem taken_fw (r : Req) (s : State) : (taken r s).fw = s.fw := rfl
@[simp] theorem taken_safe (r : Req) (s : State) : (taken r s).safe = s.safe := rfl
@[simp] theorem taken_faultTimes (r : Req) (s : State) : (taken r s).faultTimes = s.faultTimes := rfl
@[simp] theorem taken_maint (r : Req) (s : State) : (taken r s).maint = s.maint := rfl

/-! A read of the same index gives what was written, and of another what stood there. -/

@[simp] theorem setIsl_isl (i : Nat) (f : Island → Island) (s : State) : isl (setIsl i f s) i = f (isl s i) := by
  simp only [isl, setIsl, tget_tupd_same]

theorem setIsl_isl_other (i : Nat) (f : Island → Island) (s : State) (j : Nat) (h : j ≠ i) : isl (setIsl i f s) j = isl s j := by
  simp only [isl, setIsl]
  exact tget_tupd_other _ _ _ _ h

@[simp] theorem setMbx_mbx (m : Nat) (f : Mbx → Mbx) (s : State) : mbx (setMbx m f s) m = f (mbx s m) := by
  simp only [mbx, setMbx, tget_tupd_same]

theorem setMbx_mbx_other (m : Nat) (f : Mbx → Mbx) (s : State) (j : Nat) (h : j ≠ m) : mbx (setMbx m f s) j = mbx s j := by
  simp only [mbx, setMbx]
  exact tget_tupd_other _ _ _ _ h

@[simp] theorem setDir_linkDir (d : Nat) (f : LinkDir → LinkDir) (s : State) : linkDir (setDir d f s) d = f (linkDir s d) := by
  simp only [linkDir, setDir, tget_tupd_same]

theorem setDir_linkDir_other (d : Nat) (f : LinkDir → LinkDir) (s : State) (j : Nat) (h : j ≠ d) : linkDir (setDir d f s) j = linkDir s j := by
  simp only [linkDir, setDir]
  exact tget_tupd_other _ _ _ _ h

@[simp] theorem setRf_rfp (p : Nat) (f : RfPort → RfPort) (s : State) : rfp (setRf p f s) p = f (rfp s p) := by
  simp only [rfp, setRf, tget_tupd_same]

theorem setRf_rfp_other (p : Nat) (f : RfPort → RfPort) (s : State) (j : Nat) (h : j ≠ p) : rfp (setRf p f s) j = rfp s j := by
  simp only [rfp, setRf]
  exact tget_tupd_other _ _ _ _ h

@[simp] theorem setLane_lane (l : Nat) (f : Lane → Lane) (s : State) : lane (setLane l f s) l = f (lane s l) := by
  simp only [lane, setLane, tget_tupd_same]

theorem setLane_lane_other (l : Nat) (f : Lane → Lane) (s : State) (j : Nat) (h : j ≠ l) : lane (setLane l f s) j = lane s j := by
  simp only [lane, setLane]
  exact tget_tupd_other _ _ _ _ h

@[simp] theorem setPlc_plcp (q : Nat) (f : PlcPort → PlcPort) (s : State) : plcp (setPlc q f s) q = f (plcp s q) := by
  simp only [plcp, setPlc, tget_tupd_same]

theorem setPlc_plcp_other (q : Nat) (f : PlcPort → PlcPort) (s : State) (j : Nat) (h : j ≠ q) : plcp (setPlc q f s) j = plcp s j := by
  simp only [plcp, setPlc]
  exact tget_tupd_other _ _ _ _ h

@[simp] theorem setSec_secp (p : Nat) (f : Sector → Sector) (s : State) : secp (setSec p f s) p = f (secp s p) := by
  simp only [secp, setSec, tget_tupd_same]

theorem setSec_secp_other (p : Nat) (f : Sector → Sector) (s : State) (j : Nat) (h : j ≠ p) : secp (setSec p f s) j = secp s j := by
  simp only [secp, setSec]
  exact tget_tupd_other _ _ _ _ h

@[simp] theorem setChan_chan (c : Nat) (f : Chan → Chan) (s : State) : chan (setChan c f s) c = f (chan s c) := by
  simp only [chan, setChan, tget_tupd_same]

theorem setChan_chan_other (c : Nat) (f : Chan → Chan) (s : State) (j : Nat) (h : j ≠ c) : chan (setChan c f s) j = chan s j := by
  simp only [chan, setChan]
  exact tget_tupd_other _ _ _ _ h

end Sys2Proof.Machine
end

