-- ==== Sys2Proof/Laws/EffectBringup.lean ====
section
/-! SUPPORT. Lemmas on the operations behind: what each step of bring-up does, from the core BIST to STAGE 0x09. -/

namespace Sys2Proof.Machine

set_option maxHeartbeats 400000

theorem raise_set (n : Nat) (s : State) (h : sourceDefined n = true) (hn : n < 256) : (raise n s).evt.pend.getLsbD n = true := by
  rw [raise_pend, if_pos h]
  exact by simp [BitVec.getLsbD_or, hn]

theorem filter_nil6 (f : Nat → Bool) (h : ∀ k, k < 6 → f (29 + k) = false) : (((List.range 6).map (fun k => 29 + k)).filter f) = [] := by
  rw [List.filter_eq_nil_iff]
  intro a ha
  obtain ⟨k, hk, rfl⟩ := List.mem_map.1 ha
  simp [h k (List.mem_range.1 hk)]

theorem rankRecord_fold (ranks : List RankTrain) (s : State) :
    ((ranks.foldl (fun s r => rankRecord r s) s).boot = s.boot) :=
  foldl_keeps (fun u => u.boot) _ (fun u r => rankRecord_keeps (fun u => u.boot) (by intros; rfl) r u) _ _

theorem rfEnd_rfp (s u : State) (p : Nat) : rfp (dprstDone (portsTrained (noteCaps s u))) p = rfp u p := by
  rw [dprstDone_keeps (fun u => rfp u p) (by intros; rfl), portsTrained_keeps (fun u => rfp u p) (by intros; rfl),
    noteCaps_keeps (fun u => rfp u p) (by intros; rfl)]

theorem rfp_setRf_self (p : Nat) (f : RfPort → RfPort) (s : State) : rfp (setRf p f s) p = f (rfp s p) := by
  unfold rfp setRf; simp only [tget_tupd_same]

theorem trainFail_rfp (p : Nat) (x : TrainRec) (io : List (Bool × Nat × Nat)) (s : State) (h : portGoal s p ≠ .awaitTc) :
    rfp (trainFail p x io s) p = { setRfState .absent (rfp s p) with train := x, training := false, trainRun := false } := by
  unfold trainFail
  have e : (portGoal s p == .awaitTc) = false := by simpa using h
  dsimp only
  rw [e, if_neg (by decide), record_keeps (fun u => rfp u p) (by intros; rfl), spiOut_keeps (fun u => rfp u p) (by intros; rfl), rfp_setRf_self]
  rfl

theorem trainOk_rfp (p : Nat) (x : TrainRec) (io : List (Bool × Nat × Nat)) (s : State) (h1 : (rfp s p).state ≠ .receiving)
    (h2 : (rfp s p).state ≠ .transmitting) :
    rfp (trainOk p x io s) p = { setRfState (portGoal s p) (rfp s p) with train := x, training := false, trainRun := false, seq := none, errAt := [] } := by
  unfold trainOk
  have e1 : ((rfp s p).state == .receiving || (rfp s p).state == .transmitting) = false := by simp [h1, h2]
  dsimp only
  rw [raiseIf_keeps (fun u => rfp u p) (by intros; rfl), e1]
  have hc : ∀ (u : State) (c : Prop) [Decidable c], rfp (if c then { u with cfg.trained := u.cfg.trained ++ [(p, true)] } else u) p = rfp u p := by
    intro u c _; split <;> rfl
  rw [hc, spiOut_keeps (fun u => rfp u p) (by intros; rfl), rfp_setRf_self]
  rfl

theorem reps_keep {β : Type} (P : State → β) (h : ∀ (s : State) x, P { s with life := x } = P s) (l : List Nat) (s : State) :
    P (addSramRepairs l s) = P s := addSramRepairs_keeps P h l s

end Sys2Proof.Machine
end

