-- ==== Sys2Proof/Laws/EffectDirectoryOpcodes.lean ====
section
/-! SUPPORT. Lemmas on the operations behind: what the directory opcodes answer and change. -/

namespace Sys2Proof.Machine

set_option maxHeartbeats 400000

theorem ep?_noteEp (h : Nat) (f : Endpoint → Endpoint) (e : Endpoint) (s : State) (x : ep? s h = some e) : ep? (noteEp h f s) h = some (f e) := by
  unfold ep? at x ⊢
  unfold noteEp
  rw [x]
  exact tfind_tset_same _ _ _

theorem ep?_updEp (h : Nat) (f : Endpoint → Endpoint) (e : Endpoint) (s : State) (x : ep? s h = some e) : ep? (updEp h f s) h = some (f e) := by
  exact ep?_noteEp h f e s x

theorem ep?_setAdm (h : Nat) (a : Adm) (e : Endpoint) (s : State) (x : ep? s h = some e) : ep? (setAdm h a s) h = some { e with adm := a } := by
  unfold setAdm
  exact ep?_updEp h _ e s x

theorem ep?_updImg (h : Nat) (f : Image → Image) (e : Endpoint) (s : State) (x : ep? s h = some e) : ep? (updImg h f s) h = some { e with img := f e.img } := by
  unfold ep? at x ⊢
  unfold updImg
  rw [x]
  exact tfind_tset_same _ _ _

theorem badWithdraw_taken (r : Req) (s : State) : ∀ (hs seen : List Nat) (i : Nat), badWithdraw (taken r s) seen i hs = badWithdraw s seen i hs
  | [], _, _ => rfl
  | h :: rest, seen, i => by
    unfold badWithdraw
    rw [badWithdraw_taken r s rest, show ep? (taken r s) h = ep? s h from rfl]

end Sys2Proof.Machine
end

