-- ==== Sys2Proof/Laws/EffectAirStates.lean ====
section
/-! SUPPORT. Lemmas on the operations behind: how radio endpoints drift, are lost, open, hold and lose connections. -/

namespace Sys2Proof.Machine

set_option maxHeartbeats 400000

theorem le_advTo (t : Nat) (s : State) : t ≤ (advTo t s).now := by
  unfold advTo
  split
  · exact Nat.le_refl _
  · omega

theorem ep?_advTo (t h : Nat) (s : State) : ep? (advTo t s) h = ep? s h := advTo_keeps (fun u => ep? u h) (by intros; rfl) t s

theorem endConnection_ep (h o : Nat) (a : AirState) (e : Endpoint) (s : State) (x : ep? s h = some e) :
    ∃ e', ep? (endConnection h o a s) h = some e' ∧ e'.air = a ∧ e'.connOutcome = o ∧ e'.connectSent = false := by
  unfold endConnection
  rw [x]
  dsimp only
  rw [raiseIf_keeps (fun u => ep? u h) (by intros; rfl)]
  have k : ep? (unlist h (updEp h (fun e => { e with air := a, connOutcome := o, connectSent := false, closing := false, update := none }) s)) h = some { e with air := a, connOutcome := o, connectSent := false, closing := false, update := none } := by
    rw [unlist_keeps (fun u => ep? u h) (by intros; rfl)]
    exact ep?_updEp h _ e s x
  unfold custodyToSector
  rw [k]
  dsimp only
  rw [setSec_keeps (fun u => ep? u h) (by intros; rfl)]
  exact ⟨_, ep?_updEp h _ _ _ k, rfl, rfl, rfl⟩

theorem endConnection_evt (h o : Nat) (a : AirState) (e : Endpoint) (s : State) (x : ep? s h = some e) (c : e.air = .connected) :
    (endConnection h o a s).evt.pend.getLsbD 0x27 = true := by
  unfold endConnection
  rw [x]
  dsimp only
  rw [c]
  exact raise_set 0x27 _ (by decide) (by decide)

end Sys2Proof.Machine
end

