-- ==== Sys2Proof/Laws/EffectCreditsStayWhole.lean ====
section
/-! SUPPORT. Lemmas on the operations behind: outside a fence the credits of every link direction make up its initial count, after every step. -/

namespace Sys2Proof.Machine

set_option maxHeartbeats 400000

def GoodDir (c : Nat) (x : LinkDir) : Prop :=
  x.fenced = false → x.spent ≤ c ∧ x.spent = x.occupied ∧ x.received = x.sent ∧ x.returned = x.released ∧ x.sent = x.returned + x.spent

def GoodT (t : Tbl LinkDir) : Prop := ∀ d a b c, dirOf d = some (a, b, c) → GoodDir c (tget t d {})

theorem cw_iff (s : State) : CreditsWhole s ↔ GoodT s.links := by
  constructor
  · intro h d a b c e hf
    have := h d a b c e hf
    simp only [heldCredits, e, linkDir] at this
    refine ⟨?_, this.2⟩
    omega
  · intro h d a b c e hf
    have := h d a b c e hf
    simp only [heldCredits, e, linkDir]
    refine ⟨?_, this.2⟩
    have h1 := this.1
    have h2 := this.2.1
    omega

theorem good_new (c : Nat) : GoodDir c {} := by simp [GoodDir]

theorem good_fenced {c : Nat} {x : LinkDir} (h : x.fenced = true) : GoodDir c x := fun e => by rw [h] at e; cases e

theorem good_set {t : Tbl LinkDir} (h : GoodT t) (d : Nat) (v : LinkDir)
    (hv : ∀ a b c, dirOf d = some (a, b, c) → GoodDir c v) : GoodT (tset t d v) := by
  intro i a b c e
  by_cases k : i = d
  · subst k; rw [tget_tset_same]; exact hv a b c e
  · rw [tget_tset_other _ _ _ k]; exact h i a b c e

theorem good_del {t : Tbl LinkDir} (h : GoodT t) (d : Nat) : GoodT (tdel t d) := by
  intro i a b c e
  by_cases k : i = d
  · subst k; rw [tget_tdel_same]; exact good_new c
  · rw [tget_tdel_other _ _ k]; exact h i a b c e

theorem good_foldl {α : Type} (g : State → α → State) (hg : ∀ s x, GoodT s.links → GoodT (g s x).links) :
    ∀ (l : List α) (s : State), GoodT s.links → GoodT (l.foldl g s).links
  | [], _, h => h
  | x :: xs, s, h => good_foldl g hg xs _ (hg s x h)

theorem good_setDir (d : Nat) (f : LinkDir → LinkDir) (s : State) (h : GoodT s.links)
    (hf : ∀ a b c, dirOf d = some (a, b, c) → GoodDir c (tget s.links d {}) → GoodDir c (f (tget s.links d {}))) :
    GoodT (setDir d f s).links :=
  good_set h d _ (fun a b c e => hf a b c e (h d a b c e))

theorem good_fence (i : Nat) (s : State) (h : GoodT s.links) : GoodT (fenceIsl i s).links := by
  unfold fenceIsl
  exact good_foldl _ (fun s d h => good_setDir d _ s h (fun _ _ _ _ _ => good_fenced rfl)) _ _ h

theorem good_enterReset (i : Nat) (s : State) (h : GoodT s.links) : GoodT (enterReset i s).links := by
  unfold enterReset
  split
  · refine good_foldl _ (fun s d h => ?_) _ _ h
    split
    · split
      · refine good_setDir d _ s h ?_
        intro a b c _ g
        split
        · next hf => exact good_fenced hf
        · exact g
      · exact h
    · exact h
  · exact h

theorem good_lift (i : Nat) (s : State) (h : GoodT s.links) : GoodT (liftFences i s).links := by
  unfold liftFences
  refine good_foldl _ (fun s d h => ?_) _ _ h
  split
  · split
    · exact h
    · exact good_del h d
  · exact h

theorem good_fenceAll (s : State) (h : GoodT s.links) : GoodT (fenceAll s).links := by
  have key : ∀ (l : List Nat) d a b c, dirOf d = some (a, b, c) →
      GoodDir c (tget (l.map (fun d => (d, { linkDir s d with fenced := true }))) d {}) := by
    intro l
    induction l with
    | nil => intro d a b c e; exact good_new c
    | cons j js ih =>
      intro d a b c e
      by_cases k : j = d
      · subst k
        have : tget ((j :: js).map (fun d => (d, { linkDir s d with fenced := true }))) j {} = { linkDir s j with fenced := true } := by
          simp [tget, tfind]
        rw [this]
        exact good_fenced rfl
      · have : tget ((j :: js).map (fun d => (d, { linkDir s d with fenced := true }))) d {} =
            tget (js.map (fun d => (d, { linkDir s d with fenced := true }))) d {} := by
          simp [tget, tfind, k]
        rw [this]
        exact ih d a b c e
  exact key _

theorem good_holdIsland (i : Nat) (s : State) (h : GoodT s.links) : GoodT (holdIsland i s).links := by
  unfold holdIsland
  split
  · exact good_enterReset i _ (good_fence i s h)
  · exact h

theorem links_of {s t : State} (h : GoodT s.links) (e : t.links = s.links) : GoodT t.links := e ▸ h

theorem good_releaseIsland (i : Nat) (s : State) (h : GoodT s.links) : GoodT (releaseIsland i s).links := by
  unfold releaseIsland
  split
  · exact good_lift i _ h
  · exact h

theorem good_holdAll (src : RstSrc) (but : Nat → Bool) (s : State) (h : GoodT s.links) : GoodT (holdAll src but s).links := by
  unfold holdAll
  exact good_foldl _ (fun s i h => good_enterReset i s h) _ _ (good_fenceAll s h)

theorem good_resetMain (src : RstSrc) (s : State) (h : GoodT s.links) : GoodT (resetMain src s).links := by
  unfold resetMain
  dsimp only
  refine good_holdAll _ _ _ (links_of h ?_)
  dsimp only
  split
  · rfl
  · exact expireSlots_keeps (fun u => u.links) (fun _ _ _ _ _ _ _ _ => rfl) s

theorem good_coldAssert (bit : Nat) (s : State) (h : GoodT s.links) : GoodT (coldAssert bit s).links := by
  unfold coldAssert
  dsimp only
  exact good_resetMain _ _ h

theorem good_wideReset (src : RstSrc) (bit : Nat) (s : State) (h : GoodT s.links) : GoodT (wideReset src bit s).links := by
  unfold wideReset
  split
  · exact h
  · dsimp only
    exact good_resetMain _ _ h

theorem good_islandDown (i : Nat) (s : State) (h : GoodT s.links) : GoodT (islandDown i s).links := by
  have e : (islandDown i s).links = s.links := islandDown_keeps (fun u => u.links) (by intros; rfl) i s
  exact links_of h e

theorem good_excludeIsland (i c f : Nat) (s : State) (h : GoodT s.links) : GoodT (excludeIsland i c f s).links := by
  unfold excludeIsland
  extract_lets s1 s2
  have e1 : GoodT s1.links := links_of (good_holdIsland i s h) (by
    show (raise _ (addRepair _ _ _ (islandFault _ _ (setIsl _ _ (holdIsland i s))))).links = _
    rw [raise_keeps (fun u => u.links) (by intros; rfl), addRepair_keeps (fun u => u.links) (by intros; rfl),
      islandFault_keeps (fun u => u.links) (by intros; rfl)]
    rfl)
  have e2 : s2.links = s1.links := by
    show (if i ≤ 16 then _ else _ : State).links = _
    split
    · exact foldl_keeps (fun u : State => u.links) (fun s k => setRole (16 * i + k) .excluded s) (fun _ _ => rfl) _ _
    · exact dropPorts_keeps (fun u => u.links) (by intros; rfl) _ _
  clear_value s2
  clear_value s1
  refine links_of e1 (Eq.trans ?_ e2)
  rw [raise_keeps (fun u => u.links) (by intros; rfl)]
  split
  · exact recount_keeps (fun u => u.links) (by intros; rfl) _
  · rfl

theorem good_genLock (i : Nat) (s : State) (h : GoodT s.links) : GoodT (genLockTimeout i s).links := by
  unfold genLockTimeout
  split
  · exact h
  · extract_lets n s1
    have e1 : GoodT s1.links := h
    clear_value s1
    split
    · exact e1
    · split
      · exact good_excludeIsland _ _ _ _ e1
      · exact links_of e1 (islandFault_keeps (fun u => u.links) (by intros; rfl) _ _ _)

theorem good_islrst (i : Nat) (s : State) (h : GoodT s.links) : GoodT (islrst i s).links := by
  unfold islrst
  split
  · exact h
  · split
    · exact h
    · split
      · exact h
      · have h1 : GoodT (holdIsland i (islandDown i (latchCause causeIslrst s))).links :=
          good_holdIsland _ _ (good_islandDown _ _ h)
        dsimp only
        split
        · exact good_excludeIsland _ _ _ _ h1
        · exact h1

theorem good_bistEnd (i : Nat) (pass : Bool) (reps : List Nat) (s : State) (h : GoodT s.links) : GoodT (islandBistEnd i pass reps s).links := by
  have h1 : GoodT (setIsl i (fun x => { x with bistDue := false }) (addSramRepairs reps s)).links :=
    links_of h (addSramRepairs_keeps (fun u => u.links) (by intros; rfl) reps s)
  unfold islandBistEnd
  split
  · exact h
  · dsimp only
    split
    · exact good_excludeIsland _ _ _ _ h1
    · split
      · exact links_of h1 (laneIslandUp_keeps (fun u => u.links) (by intros; rfl) _ _)
      · split
        · exact h1
        · refine good_foldl _ (fun s k h => ?_) _ _ h1
          split
          · exact links_of h (startCal_keeps (fun u => u.links) (by intros; rfl) _ _)
          · exact h

theorem good_linkFault (u : AuditUpset) (s : State) (h : GoodT s.links) : GoodT (linkFault u s).links := by
  unfold linkFault
  split
  · exact h
  · refine good_foldl _ (fun s i h => good_islrst i s h) _ _ ?_
    refine links_of h ?_
    rw [islandFault_keeps (fun u => u.links) (by intros; rfl), islandFault_keeps (fun u => u.links) (by intros; rfl),
      raise_keeps (fun u => u.links) (by intros; rfl), record_keeps (fun u => u.links) (by intros; rfl)]

theorem good_auditDir (us : List AuditUpset) (d : Nat) (s : State) (h : GoodT s.links) :
    GoodT (if !dirOpen s d then s
      else
        let u := auditCounts s us d
        if auditAgrees u then setDir d (fun x => { x with audited := true }) s
        else linkFault u (setDir d (fun x => { x with audited := false }) s)).links := by
  have hs : ∀ b, GoodT (setDir d (fun x => { x with audited := b }) s).links :=
    fun b => good_setDir d _ s h (fun _ _ _ _ g => g)
  split
  · exact h
  · dsimp only
    split
    · exact hs _
    · exact good_linkFault _ _ (hs _)

theorem good_auditAt (m : Nat) (s : State) (h : GoodT s.links) :
    GoodT ({ advMono m s with auditAt := (advMono m s).mono } : State).links := by
  have e : (advMono m s).links = s.links := advMono_keeps (fun u => u.links) (by intros; rfl) _ _
  generalize advMono m s = u at e ⊢
  exact links_of h e

theorem good_creditAudit (us : List AuditUpset) (s : State) (h : GoodT s.links) : GoodT (creditAudit us s).links := by
  unfold creditAudit
  exact good_foldl _ (fun s d h => good_auditDir us d s h) _ _ (good_auditAt _ s h)

theorem good_dprst (s : State) (h : GoodT s.links) : GoodT (dprst s).links := by
  unfold dprst
  split
  · exact h
  · split
    · exact h
    · have e2 : ∀ u : State, GoodT u.links → GoodT ((List.range 29).foldl (fun s i => holdIsland i s) u).links :=
        fun u hu => good_foldl _ (fun s i h => good_holdIsland i s h) _ _ hu
      have e : ∀ u : State, GoodT u.links → GoodT (clearDataPlane u).links := fun u hu => by
        refine links_of hu ?_
        exact clearDataPlane_keeps (fun u => u.links) (by intros; rfl) u
      dsimp only
      exact e2 _ (e _ h)

theorem good_stage4 (s : State) (h : GoodT s.links) : GoodT (stage4 s).links := by
  unfold stage4
  split
  · exact h
  · have h1 := good_foldl (fun s i => releaseIsland i s) (fun s i h => good_releaseIsland i s h) [29, 30, 31, 32, 34, 33] s h
    generalize [29, 30, 31, 32, 34, 33].foldl (fun s i => releaseIsland i s) s = s1 at h1
    have h2 : ∀ u : State, u.links = s1.links → (reportTampers (causeRecord u)).links = s1.links := fun u e => by
      rw [reportTampers_keeps (fun u => u.links) (by intros; rfl), causeRecord_keeps (fun u => u.links) (by intros; rfl)]; exact e
    have h3 : ∀ u : State, (if u.boot.widest == .cold then coldSlots u else u).links = u.links := by
      intro u
      split
      · exact coldSlots_keeps (fun u => u.links) (by intros; rfl) _
      · rfl
    exact links_of h1 ((h3 _).trans (h2 _ rfl))

theorem good_stage5 (s : State) (h : GoodT s.links) : GoodT (stage5 s).links := by
  unfold stage5
  have h1 := good_foldl (fun s i => releaseIsland i s) (fun s i h => good_releaseIsland i s h) (List.range 29)
    { s with boot.stageRun := 0 } h
  dsimp only
  split
  · refine links_of h1 ?_
    rw [dprstDone_keeps (fun u => u.links) (by intros; rfl), bringBack_keeps (fun u => u.links) (by intros; rfl)]
  · exact h1

theorem good_releaseStageEnd (st : BitVec 4) (o : OptLoad) (s : State) (h : GoodT s.links) : GoodT (releaseStageEnd st o s).links := by
  unfold releaseStageEnd
  split
  · exact h
  · split
    · exact links_of h (stage2_keeps (fun u => u.links) (by intros; rfl) _ _ _)
    · exact h
    · exact good_stage4 s h
    · exact good_stage5 s h
    · exact good_foldl _ (fun s i h => good_releaseIsland i s h) _ _ h
    · exact h

theorem good_flit (d : Nat) (s : State) (h : GoodT s.links) : GoodT (flitTransfer d s).links := by
  unfold flitTransfer
  split
  · next hc =>
    refine good_setDir d _ s h ?_
    intro a b c e g hf
    obtain ⟨h1, h2, h3, h4, h5⟩ := g hf
    simp only [Bool.and_eq_true, decide_eq_true_eq, heldCredits, e, linkDir] at hc
    refine ⟨?_, ?_, ?_, h4, ?_⟩ <;> simp only at * <;> omega
  · exact h

theorem good_return (d : Nat) (s : State) (h : GoodT s.links) : GoodT (creditReturn d s).links := by
  unfold creditReturn
  dsimp only
  split
  · split
    · next hc =>
      refine good_enterReset _ _ (good_setDir d _ s h ?_)
      intro a b c e g hf
      obtain ⟨h1, h2, h3, h4, h5⟩ := g hf
      have hc : 0 < (tget s.links d {}).occupied := of_decide_eq_true (Bool.and_eq_true_iff.1 (Bool.and_eq_true_iff.1 hc).1).2
      rw [show linkDir s d = tget s.links d {} from rfl] at *
      refine ⟨?_, ?_, h3, ?_, ?_⟩ <;> simp only at * <;> omega
    · exact h
  · exact h

theorem good_fenceWait (d : Nat) (s : State) (h : GoodT s.links) : GoodT (fenceWaitExpiry d s).links := by
  unfold fenceWaitExpiry
  split
  · split
    · split
      · have h1 : ∀ v : State, v.links = s.links → GoodT v.links := fun v e => links_of h e
        refine good_enterReset _ _ (good_setDir d _ _ (h1 _ ?_) (fun _ _ _ _ g => g))
        rw [record_keeps (fun u => u.links) (by intros; rfl)]
        exact advMono_keeps (fun u => u.links) (by intros; rfl) _ _
      · exact h
    · exact h
  · exact h

theorem nx {a b : State} (e : (Host.Outcome.next a : Host.Outcome State Fault Refusal) = .next b) : a = b := Host.Outcome.next.inj e

theorem good_por (s : State) (h : GoodT s.links) : GoodT (porAssert s).links := by
  unfold porAssert; split
  · exact h
  · exact good_coldAssert _ _ h

theorem good_nreset (s : State) (h : GoodT s.links) : GoodT (nresetAssert s).links := by
  unfold nresetAssert; split
  · exact h
  · exact good_coldAssert _ _ h

theorem good_wdt_at (m : Nat) (s : State) (h : GoodT s.links) :
    GoodT (wideReset .wdt causeWdt { advMono m s with boot.wdtArmed := false, boot.wdtRemain := 0 }).links := by
  have e : (advMono m s).links = s.links := advMono_keeps (fun u => u.links) (by intros; rfl) _ _
  generalize advMono m s = u at e ⊢
  exact good_wideReset _ _ _ (links_of h e)

theorem good_wdt (s : State) (h : GoodT s.links) : GoodT (wdtExpiry s).links := by
  unfold wdtExpiry; split
  · exact good_wdt_at _ s h
  · exact h

theorem good_sysrst (s : State) (h : GoodT s.links) : GoodT (sysrst s).links := by
  unfold sysrst
  repeat' split
  all_goals first | exact h | exact good_wideReset _ _ _ h

theorem good_drain (s : State) (h : GoodT s.links) : GoodT (drainEnd s).links := by
  unfold drainEnd; split
  · exact good_holdIsland _ _ h
  · exact h

end Sys2Proof.Machine
end

