-- ==== Sys2Proof/Laws/EffectAuditAgreesWithoutUpset.lean ====
section
/-! SUPPORT. Lemmas on the operations behind: with its credits whole, the credit audit finds every open direction in agreement and resets no island. -/

namespace Sys2Proof.Machine

set_option maxHeartbeats 400000

theorem linkDir_set (s : State) (d i : Nat) (f : LinkDir → LinkDir) :
    linkDir (setDir d f s) i = if i = d then f (linkDir s d) else linkDir s i := by
  unfold linkDir setDir
  by_cases h : i = d
  · subst h; simp
  · simp [h, tget_tupd_other _ _ _ _ h]

theorem dirOpen_set (s : State) (d i : Nat) (b : Bool) :
    dirOpen (setDir d (fun x => { x with audited := b }) s) i = dirOpen s i := by
  have hf : (linkDir (setDir d (fun x => { x with audited := b }) s) i).fenced = (linkDir s i).fenced := by
    rw [linkDir_set]; split
    · next h => subst h; rfl
    · rfl
  unfold dirOpen
  rw [hf]
  rfl

def auditOne (s : State) (d : Nat) : State :=
  if !dirOpen s d then s
  else
    let u := auditCounts s [] d
    if auditAgrees u then setDir d (fun x => { x with audited := true }) s
    else linkFault u (setDir d (fun x => { x with audited := false }) s)

theorem auditOne_eq (s : State) (d : Nat) (h : GoodT s.links) (ho : dirOpen s d = true) :
    auditOne s d = setDir d (fun x => { x with audited := true }) s := by
  have hu : auditCounts s [] d = { dir := d, sent := (linkDir s d).sent, received := (linkDir s d).received, released := (linkDir s d).released, returned := (linkDir s d).returned, held := heldCredits s d } := rfl
  have ha : auditAgrees (auditCounts s [] d) = true := by
    rw [hu]
    unfold auditAgrees
    dsimp only
    split
    · next a b c e =>
      have hf : (tget s.links d {}).fenced = false := by
        simp only [dirOpen, Bool.and_eq_true, Bool.not_eq_true', linkDir] at ho
        exact ho.1.2
      obtain ⟨h1, h2, h3, h4, h5⟩ := h d a b c e hf
      simp only [heldCredits, e, linkDir, Bool.and_eq_true, beq_iff_eq]
      refine ⟨⟨h3.symm, h4.symm⟩, ?_⟩
      omega
    · rfl
  unfold auditOne
  rw [ho]
  simp [ha]

theorem auditAll (l : List Nat) : l.Nodup → ∀ s : State, GoodT s.links →
    GoodT (l.foldl auditOne s).links ∧ l.foldl auditOne s = { s with links := (l.foldl auditOne s).links } ∧
    (∀ d, dirOpen (l.foldl auditOne s) d = dirOpen s d) ∧
    (∀ d ∈ l, dirOpen s d = true → linkDir (l.foldl auditOne s) d = { linkDir s d with audited := true }) ∧
    (∀ d, dirOpen s d = false ∨ d ∉ l → linkDir (l.foldl auditOne s) d = linkDir s d) := by
  induction l with
  | nil => exact fun _ s h => ⟨h, rfl, fun _ => rfl, by simp, fun _ _ => rfl⟩
  | cons j js ih =>
    intro hn s h
    rw [List.nodup_cons] at hn
    have key : ∃ s1, auditOne s j = s1 ∧ GoodT s1.links ∧ s1 = { s with links := s1.links } ∧ (∀ d, dirOpen s1 d = dirOpen s d) ∧
        (dirOpen s j = true → linkDir s1 j = { linkDir s j with audited := true }) ∧
        (dirOpen s j = false → linkDir s1 j = linkDir s j) ∧ (∀ d, d ≠ j → linkDir s1 d = linkDir s d) := by
      cases ho : dirOpen s j with
      | false => exact ⟨s, by simp [auditOne, ho], h, rfl, fun _ => rfl, by simp, fun _ => rfl, fun _ _ => rfl⟩
      | true =>
        refine ⟨_, auditOne_eq s j h ho, ?_, rfl, fun d => dirOpen_set s j d true, fun _ => ?_, by simp, fun d hd => ?_⟩
        · exact good_setDir j _ s h (fun _ _ _ _ g => g)
        · rw [linkDir_set]; simp
        · rw [linkDir_set]; simp [hd]
    obtain ⟨s1, e1, g1, f1, o1, a1, b1, c1⟩ := key
    obtain ⟨g2, f2, o2, a2, b2⟩ := ih hn.2 s1 g1
    simp only [List.foldl_cons, e1]
    refine ⟨g2, ?_, fun d => (o2 d).trans (o1 d), ?_, ?_⟩
    · exact f2.trans (congrArg (fun u : State => { u with links := (js.foldl auditOne s1).links }) f1)
    · intro d hd ho
      rcases List.mem_cons.1 hd with rfl | hd
      · rw [b2 d (Or.inr hn.1), a1 ho]
      · have : d ≠ j := fun e => hn.1 (e ▸ hd)
        rw [a2 d hd ((o1 d).trans ho), c1 d this]
    · intro d hd
      have hx : linkDir s1 d = linkDir s d := by
        by_cases e : d = j
        · subst e; rcases hd with hd | hd
          · exact b1 hd
          · exact absurd (List.mem_cons_self) hd
        · exact c1 d e
      rw [b2 d ?_, hx]
      rcases hd with hd | hd
      · exact Or.inl ((o1 d).trans hd)
      · exact Or.inr (fun hm => hd (List.mem_cons_of_mem _ hm))

theorem audit_from (m : Nat) (s t : State) (h : GoodT s.links)
    (et : t = (let s1 := advMono m s
      (List.range dirCount).foldl auditOne { s1 with auditAt := s1.mono })) :
    t = { s with links := t.links, now := t.now, mono := t.mono, auditAt := t.mono } ∧ m ≤ t.mono ∧
      (∀ d, d < dirCount → dirOpen s d = true → linkDir t d = { linkDir s d with audited := true }) ∧
      (∀ d, dirOpen s d = false → linkDir t d = linkDir s d) := by
  have hk : ∃ n k, advMono m s = { s with now := n, mono := k } ∧ m ≤ k := by
    unfold advMono
    split
    · exact ⟨_, _, rfl, Nat.le_refl _⟩
    · next h => exact ⟨_, _, rfl, Nat.le_of_not_lt h⟩
  obtain ⟨n, k, e, hm⟩ := hk
  dsimp only at et
  rw [e] at et
  obtain ⟨g, f, o, a, b⟩ := auditAll (List.range dirCount) List.nodup_range { s with now := n, mono := k, auditAt := k } h
  rw [← et] at f a b
  refine ⟨?_, ?_, fun d hd ho => a d (List.mem_range.2 hd) ho, fun d ho => b d (Or.inl ho)⟩
  · rw [f]
  · rw [f]; exact hm

end Sys2Proof.Machine
end

