-- ==== Sys2Proof/Laws/EffectBackupClock.lean ====
section
/-! SUPPORT. Lemmas on the operations behind: what the backup island's clock ticks, register accesses, supply events, tamper, seal and power-off events do. -/

namespace Sys2Proof.Machine

set_option maxHeartbeats 400000

theorem raise_keep55 (n i : Nat) (s : State) (h : s.evt.pend.getLsbD i = true) : (raise n s).evt.pend.getLsbD i = true := by
  rw [raise_pend]
  split
  · rw [BitVec.getLsbD_or, h]; rfl
  · exact h

theorem advMono_mono (m : Nat) (s : State) : (advMono m s).mono = max s.mono m := by
  unfold advMono
  split
  · dsimp only; omega
  · omega

theorem noteTrust_bkp (s : State) : (noteTrust s).bkp = s.bkp := noteTrust_keeps (fun u => u.bkp) (by intros; rfl) s

theorem noteTrust_keepbit (i : Nat) (s : State) (h : s.evt.pend.getLsbD i = true) : (noteTrust s).evt.pend.getLsbD i = true := by
  unfold noteTrust
  split
  · exact h
  · split
    · exact h
    · exact raise_keep55 _ _ _ h

theorem raiseIf_keep55 (c : Bool) (n i : Nat) (s : State) (h : s.evt.pend.getLsbD i = true) : (raiseIf c n s).evt.pend.getLsbD i = true := by
  unfold raiseIf
  split
  · exact raise_keep55 n i s h
  · exact h

theorem alarmTick_bkp (n : Nat) (s : State) : (alarmTick n s).bkp = { s.bkp with alm0 := s.bkp.alm0 || (decide (n = 0) && alarmMatch (tget s.bkp.alarms n {}) s.bkp.cal), alm1 := s.bkp.alm1 || (decide (n ≠ 0) && alarmMatch (tget s.bkp.alarms n {}) s.bkp.cal), pwron := (alarmTick n s).bkp.pwron, pwrOff := (alarmTick n s).bkp.pwrOff } := by
  unfold alarmTick
  dsimp only
  split
  · rename_i h
    rw [raiseIf_keeps (fun u => u.bkp) (by intros; rfl), h]
    by_cases hn : n = 0
    · simp [hn]; split <;> simp [wake]
    · simp [hn]; split <;> simp [wake]
  · rename_i h
    have h : alarmMatch (tget s.bkp.alarms n {}) s.bkp.cal = false := by simpa using h
    rw [h]; simp

theorem alarmTick_bit (n : Nat) (s : State) (h : alarmMatch (tget s.bkp.alarms n {}) s.bkp.cal = true) (hc : controlUp s = true) :
    (alarmTick n s).evt.pend.getLsbD 0xC2 = true := by
  unfold alarmTick
  dsimp only
  rw [if_pos h, hc]
  exact raise_set 0xC2 _ (by decide) (by omega)

theorem alarmTick_keepbit (n i : Nat) (s : State) (h : s.evt.pend.getLsbD i = true) : (alarmTick n s).evt.pend.getLsbD i = true := by
  unfold alarmTick
  dsimp only
  split
  · apply raiseIf_keep55
    split <;> split <;> exact h
  · exact h

/-- The clock step with its counters set. -/
def ticked (s : State) : State :=
  let last := windowCycles s ≤ 32 * (s.bkp.winTick + 1)
  let s1 := advTo (s.tickAt + tickTime s) { s with tickAt := s.tickAt + tickTime s }
  { s1 with bkp.cal := (calTick s.bkp.cal).1, bkp.ovf := s.bkp.ovf || (calTick s.bkp.cal).2.2, bkp.winTick := if last then 0 else s.bkp.winTick + 1, bkp.trimNow := if last then s.bkp.trim else s.bkp.trimNow }

theorem rtcTick_eq (s : State) : rtcTick s = noteTrust (if (calTick s.bkp.cal).2.1 then secondEdge (alarmTick 1 (alarmTick 0 (ticked s))) else ticked s) := rfl

theorem ticked_bkp (s : State) : (ticked s).bkp = { s.bkp with cal := (calTick s.bkp.cal).1, ovf := s.bkp.ovf || (calTick s.bkp.cal).2.2, winTick := if windowCycles s ≤ 32 * (s.bkp.winTick + 1) then 0 else s.bkp.winTick + 1, trimNow := if windowCycles s ≤ 32 * (s.bkp.winTick + 1) then s.bkp.trim else s.bkp.trimNow } := by
  unfold ticked
  dsimp only
  rw [advTo_keeps (fun u => u.bkp) (by intros; rfl)]

theorem ticked_at (s : State) : (ticked s).tickAt = s.tickAt + tickTime s := by
  unfold ticked
  dsimp only
  rw [advTo_keeps (fun u => u.tickAt) (by intros; rfl)]

theorem ticked_up (s : State) : controlUp (ticked s) = controlUp s := by
  unfold ticked controlUp isl
  dsimp only
  rw [advTo_keeps (fun u => u.isl) (by intros; rfl)]

theorem monthDays_december (y : Nat) : monthDays y 12 = 31 := by unfold monthDays; simp

theorem tampRep_eq (i : Nat) (s : State) : tget (tamperReport i s).life.tampRep i 0 = (tget s.bkp.tamp i {}).count := by
  unfold tamperReport
  dsimp only
  rw [raise_keeps (fun u => tget u.life.tampRep i 0) (by intros; rfl), record_keeps (fun u => tget u.life.tampRep i 0) (by intros; rfl)]
  dsimp only
  rw [tget_tset_same]

theorem record_bkp (c : Nat) (p : List Byte) (s : State) : ∃ x, (record c p s).bkp = { s.bkp with recfLost := x } := by
  unfold record
  split
  · unfold recordNow
    dsimp only
    split
    · split
      · exact ⟨_, rfl⟩
      · exact ⟨_, recSuppress_keeps (fun u => u.bkp) (by intros; rfl) _ _⟩
    · split
      · split
        · exact ⟨_, recAdmit_keeps (fun u => u.bkp) (by intros; rfl) _ _ _⟩
        · exact ⟨_, rfl⟩
      · split
        · exact ⟨_, recSuppress_keeps (fun u => u.bkp) (by intros; rfl) _ _⟩
        · exact ⟨_, recAdmit_keeps (fun u => u.bkp) (by intros; rfl) _ _ _⟩
  · exact ⟨_, rfl⟩

theorem tampReport_bkp (i : Nat) (s : State) : ∃ x, (tamperReport i s).bkp = { s.bkp with recfLost := x } := by
  unfold tamperReport
  dsimp only
  rw [raise_keeps (fun u => u.bkp) (by intros; rfl)]
  obtain ⟨x, e⟩ := record_bkp rcTamper (le 4 i ++ le 2 (tget s.bkp.tamp i {}).count ++ le 4 (tget s.bkp.tamp i {}).first.toNat ++ le 4 (tget s.bkp.tamp i {}).last.toNat) { s with life.tampRep := tset s.life.tampRep i (tget s.bkp.tamp i {}).count }
  exact ⟨x, e⟩

theorem recSuppress_keepbit (c i : Nat) (s : State) (h : s.evt.pend.getLsbD i = true) : (recSuppress c s).evt.pend.getLsbD i = true := by
  unfold recSuppress
  dsimp only
  split
  · apply raiseIf_keep55
    exact h
  · exact h

theorem recAdmit_keepbit (c i : Nat) (p : List Byte) (s : State) (h : s.evt.pend.getLsbD i = true) : (recAdmit c p s).evt.pend.getLsbD i = true := by
  unfold recAdmit
  dsimp only
  split
  · exact recSuppress_keepbit _ _ _ h
  · exact h

theorem record_keepbit (c i : Nat) (p : List Byte) (s : State) (h : s.evt.pend.getLsbD i = true) : (record c p s).evt.pend.getLsbD i = true := by
  unfold record
  split
  · unfold recordNow
    dsimp only
    split
    · split
      · exact h
      · exact recSuppress_keepbit _ _ _ h
    · split
      · split
        · exact recAdmit_keepbit _ _ _ _ h
        · exact h
      · split
        · exact recSuppress_keepbit _ _ _ h
        · exact recAdmit_keepbit _ _ _ _ h
  · exact h

theorem sealChanged_facts (w : Bool) (s : State) : (∃ x, (sealChanged w s).bkp = { s.bkp with recfLost := x }) ∧ (sealChanged w s).evt.pend.getLsbD 0x55 = true := by
  unfold sealChanged
  dsimp only
  generalize hu : (raise 0x55 (if jnlTakes 1 { s with jnl.sealOwed := none } then jnlDone (jnlSealOwed (jnlTime { s with jnl.sealOwed := some (s.bkp.sealOpen, w) })) else { s with jnl.sealOwed := some (s.bkp.sealOpen, w) })) = u
  have h1 : u.bkp = s.bkp := by
    rw [← hu, raise_keeps (fun u => u.bkp) (by intros; rfl)]
    split
    · rw [jnlDone_keeps (fun u => u.bkp) (by intros; rfl), jnlSealOwed_keeps (fun u => u.bkp) (by intros; rfl), jnlTime_keeps (fun u => u.bkp) (by intros; rfl)]
    · rfl
  have h2 : u.evt.pend.getLsbD 0x55 = true := by rw [← hu]; exact raise_set 0x55 _ (by decide) (by omega)
  constructor
  · rw [← h1]; exact record_bkp _ _ _
  · generalize hp : (le 4 (b2n s.bkp.sealOpen) ++ le 4 s.bkp.sealCount.toNat ++ le 4 (secs s) ++ le 4 (b2n (!jnlTakes 1 { s with jnl.sealOwed := none }))) = p
    exact record_keepbit _ _ _ _ h2

end Sys2Proof.Machine
end

