-- ==== Sys2Proof/Laws/EffectBackupOpcodes.lean ====
section
/-! SUPPORT. Lemmas on the operations behind: what the time, alarm, power-off and tamper opcodes and the host's mirror block do. -/

namespace Sys2Proof.Machine

set_option maxHeartbeats 400000

theorem record_bkp56 (c : Nat) (p : List Byte) (s : State) : ∃ x, (record c p s).bkp = { s.bkp with recfLost := x } := by
  unfold record
  split
  · unfold recordNow
    dsimp only
    split
    · split
      · exact ⟨_, rfl⟩
      · exact ⟨_, recSuppress_keeps (fun u => u.bkp) (by intros; rfl) _ _⟩
    · split
      · split
        · exact ⟨_, recAdmit_keeps (fun u => u.bkp) (by intros; rfl) _ _ _⟩
        · exact ⟨_, rfl⟩
      · split
        · exact ⟨_, recSuppress_keeps (fun u => u.bkp) (by intros; rfl) _ _⟩
        · exact ⟨_, recAdmit_keeps (fun u => u.bkp) (by intros; rfl) _ _ _⟩
  · exact ⟨_, rfl⟩

theorem record_tamp (c : Nat) (p : List Byte) (s : State) : (record c p s).bkp.tamp = s.bkp.tamp := by
  obtain ⟨x, e⟩ := record_bkp56 c p s
  rw [e]

theorem tclr_fold (is : List Nat) (s : State) (j : Nat) :
    tget (is.foldl (fun s i => { s with bkp.tamp := tupd s.bkp.tamp i {} (fun t => { t with count := 0, first := 0, last := 0, firstUntr := false, lastUntr := false }), life.tampRep := tset s.life.tampRep i 0 }) s).bkp.tamp j {} = (if j ∈ is then { tget s.bkp.tamp j {} with count := 0, first := 0, last := 0, firstUntr := false, lastUntr := false } else tget s.bkp.tamp j {}) ∧
    tget (is.foldl (fun s i => { s with bkp.tamp := tupd s.bkp.tamp i {} (fun t => { t with count := 0, first := 0, last := 0, firstUntr := false, lastUntr := false }), life.tampRep := tset s.life.tampRep i 0 }) s).life.tampRep j 0 = (if j ∈ is then 0 else tget s.life.tampRep j 0) := by
  induction is generalizing s with
  | nil => exact ⟨by simp, by simp⟩
  | cons a as ih =>
    rw [List.foldl_cons]
    obtain ⟨e1, e2⟩ := ih ({ s with bkp.tamp := tupd s.bkp.tamp a {} (fun t => { t with count := 0, first := 0, last := 0, firstUntr := false, lastUntr := false }), life.tampRep := tset s.life.tampRep a 0 })
    rw [e1, e2]
    dsimp only
    by_cases h : j = a
    · subst h
      rw [tget_tupd_same, tget_tset_same]
      simp
    · rw [tget_tupd_other _ _ _ _ h, tget_tset_other _ _ _ h]
      simp [h]

end Sys2Proof.Machine
end

