-- ==== Sys2Proof/Laws/EffectBalance.lean ====
section
/-! SUPPORT. Lemmas on the operations behind: what interval closes, revisions and the balance opcodes do. -/

namespace Sys2Proof.Machine

set_option maxHeartbeats 400000

theorem zone?_updZone (z : Nat) (f : Zone → Zone) (x : Zone) (s : State) (h : zone? s z = some x) : zone? (updZone z f s) z = some (f x) := by
  unfold updZone
  rw [show tfind s.bal.zones z = some x from h]
  exact tfind_tset_same _ _ _

theorem zones_nightClose (z b : Nat) (s : State) : (nightClose z b s).bal.zones = s.bal.zones := by
  unfold nightClose
  split
  · rfl
  · dsimp only
    split
    · rw [raiseIf_keeps (fun u => u.bal) (by intros; rfl)]; rfl
    · rfl

theorem held_nightClose (z b : Nat) (r : BalRec) (s : State) (h : r ∈ s.bal.held) : r ∈ (nightClose z b s).bal.held := by
  unfold nightClose
  split
  · exact h
  · dsimp only
    split
    · rw [raiseIf_keeps (fun u => u.bal) (by intros; rfl)]
      exact List.mem_append_left _ h
    · exact h

theorem bringHorizon_eq (s : State) : ∃ (u : State) (b : Tbl (Tbl Bnd)) (z : Tbl Zone), bringHorizon s = if horizonAt (secs s) = s.bal.horizon then s else { u with bal.horizon := horizonAt (secs s), bal.bnds := b, bal.zones := z } := by
  unfold bringHorizon
  exact ⟨_, _, _, rfl⟩

theorem bringHorizon_horizon (s : State) : (bringHorizon s).bal.horizon = horizonAt (secs s) := by
  obtain ⟨u, b, z, e⟩ := bringHorizon_eq s
  rw [e]
  generalize horizonAt (secs s) = hz
  split
  · next h => exact h.symm
  · rfl

theorem scoreAfter_le (s : State) (x : Zone) (a : Nat) : scoreAfter s x a ≤ 65535 := Nat.min_le_left _ _

theorem closeInterval_eq (z a : Nat) (x : Zone) (s : State) (h1 : zone? s z = some x) : ∃ (x3 : Zone) (r : BalRec) (b1 b2 : Bool) (b : Nat),
    closeInterval z a false s = nightClose z b (raiseIf b1 0x62 (raiseIf b2 0x60 (postRec r { s with bal.zones := tset s.bal.zones z x3 }))) ∧
    x3.lastEnd = a + x.len ∧ (1 < ivalStatus s x a → x3.score = x.score) ∧ (x.score ≤ 65535 → x3.score ≤ 65535) ∧ r.rtype = 1 ∧ r.zone = z ∧ r.start = a ∧ r.stop = a + x.len ∧
    r.status = ivalStatus s x a ∧ r.c = sumKnown s x.checks a x.len ∧ r.delta = r.c - r.m ∧ r.t = tolerance x r.c := by
  unfold closeInterval
  rw [h1]
  dsimp only
  simp only [Bool.false_eq_true, if_false]
  refine ⟨_, _, _, _, _, rfl, rfl, ?_, ?_, rfl, rfl, rfl, rfl, rfl, rfl, rfl, rfl⟩
  · intro q
    show (if ivalStatus s x a ≤ 1 then _ else x.score) = _
    rw [if_neg (by omega)]
  · intro q
    show (if ivalStatus s x a ≤ 1 then scoreAfter s _ a else x.score) ≤ _
    split
    · exact scoreAfter_le _ _ _
    · exact q

theorem horizonAdvance_eq (m : Nat) (s : State) : (bringHorizon (advTo m s)).bal.horizon = secs (bringHorizon (advTo m s)) / 900 * 900 - 86400 := by
  rw [bringHorizon_horizon, bringHorizon_keeps (fun u => secs u) (by intros; rfl)]
  rfl

theorem unzoned_eq (m start : Nat) (s : State) (e : Nat) : ∃ r, let t := postRec { seq := 0, rtype := 6, status := 5, zone := 0xFFFF, start := start, stop := start + 900, readings := tget (advTo m s).bal.unzoned start 0 } { advTo m s with bal := { (advTo m s).bal with unzoned := tdel (advTo m s).bal.unzoned start, unzonedEnd := e } }
    t.bal.seq = s.bal.seq + 1 ∧ r ∈ t.bal.held ∧ r.rtype = 6 ∧ r.zone = 0xFFFF ∧ r.start = start ∧ r.stop = start + 900 ∧ r.readings = tget s.bal.unzoned start 0 := by
  have e : (advTo m s).bal = s.bal := advTo_keeps (fun u => u.bal) (by intros; rfl) m s
  unfold postRec
  dsimp only
  rw [e]
  exact ⟨_, rfl, List.mem_append_right _ (List.mem_singleton.2 rfl), rfl, rfl, rfl, rfl, rfl⟩

end Sys2Proof.Machine
end

