-- ==== Sys2Proof/Laws/EffectSafety.lean ====
section
/-! SUPPORT. Lemmas on the operations behind: what diagnostics, proof tests, the safety opcodes, patrol scrub and soft repair do. -/

namespace Sys2Proof.Machine

set_option maxHeartbeats 400000

theorem enterFault_facts (st : SafeState) (c : Nat) (s : State) : (enterFault st c s).safe.state = st ∧ (enterFault st c s).safe.safeOkN = (st != .armed) ∧
    (enterFault st c s).safe.causes = [c] ∧ (enterFault st c s).safe.due = none ∧ (enterFault st c s).evt.pend.getLsbD 0xB0 = true ∧
    (enterFault st c s).faultTimes = s.mono :: recentFaults s := by
  unfold enterFault safetyRecord
  dsimp only
  refine ⟨?_, ?_, ?_, ?_, raise_set _ _ (by decide) (by decide), ?_⟩
  · rw [raise_keeps (fun u => u.safe) (by intros; rfl), record_keeps (fun u => u.safe) (by intros; rfl)]; rfl
  · rw [raise_keeps (fun u => u.safe) (by intros; rfl), record_keeps (fun u => u.safe) (by intros; rfl)]; rfl
  · rw [raise_keeps (fun u => u.safe) (by intros; rfl), record_keeps (fun u => u.safe) (by intros; rfl)]; rfl
  · rw [raise_keeps (fun u => u.safe) (by intros; rfl), record_keeps (fun u => u.safe) (by intros; rfl)]; rfl
  · rw [raise_keeps (fun u => u.faultTimes) (by intros; rfl), record_keeps (fun u => u.faultTimes) (by intros; rfl)]; rfl

theorem auto_eq (a : Nat) (s : State) (h1 : s.mon.backAt = some a) (h2 : s.safe.state = .fault) (h3 : s.safe.causes = [9]) (h4 : s.mon.out = 0)
    (h5 : s.safe.proof = none) : ∃ m, autoRecover s = { advMono m s with safe := { (advMono m s).safe with proof := some none } } := by
  refine ⟨a + tMs 10, ?_⟩
  unfold autoRecover
  rw [h1]
  dsimp only
  rw [if_pos (by simp [h2, h3, h4, h5])]

theorem diagnose_at (pass : Bool) (code : Nat) (s : State) (h : pairRuns s = true) :
    diagnose (!pass) code s = if pass then s else safetyFault code s := by
  unfold diagnose
  rw [h]
  cases pass <;> rfl

theorem nextRepair_none {s : State} (h : s.mem.repairWait = []) : nextRepair s = { s with mem.repairReq := none } := by
  unfold nextRepair
  rw [h]

/-- A burst without a wrong symbol, read at its own address, is right. -/
theorem uncorrectable_clean (s : State) (b : BurstErr) (h1 : wrongSyms b = []) (h2 : b.wrongAddr = false) : uncorrectable s b = false := by
  unfold uncorrectable
  dsimp only
  rw [h1, h2]
  rfl

/-- PATROL_SCRUB where no SRAM word is bad. -/
theorem scrub_eq (x : ScrubIn) (s u : State) (h1 : x.sram = .none) (h2 : (isl s 32).inReset = false) (hu : u = advMono (scrubDue s) s)
    (h3 : burstCount s ≠ 0) :
    patrolScrub x s = (let v := if uncorrectable u x.here then burstUe (32 * s.mem.scrubPos) (uncorrectable u x.mirror) x.item u
        else noteCorrected (32 * s.mem.scrubPos) x.here u
      if burstCount s ≤ s.mem.scrubPos + 1 then
        { v with mem.scrubPos := 0, mem.scrubPasses := v.mem.scrubPasses + 1,
                 mem.scrubFrom := some (max v.mono (s.mem.scrubFrom.getD u.mono + tSec (3600 * pval s 0xB800))) }
      else { v with mem.scrubPos := s.mem.scrubPos + 1, mem.scrubFrom := some (s.mem.scrubFrom.getD u.mono) }) := by
  have e : u.mem = s.mem := by rw [hu]; exact advMono_keeps (fun u => u.mem) (by intros; rfl) _ _
  unfold patrolScrub
  rw [if_neg (by simp [h2, h3]), ← hu]
  unfold sramUe scrubRead
  dsimp only
  rw [h1, e]

end Sys2Proof.Machine
end

