-- ==== Sys2Proof/Laws/EffectCampaignEngine.lean ====
section
/-! SUPPORT. Lemmas on the operations behind: what the campaign engine's attempts, waits, sessions, feedback and transmit gate do. -/

namespace Sys2Proof.Machine

set_option maxHeartbeats 400000

theorem confWait_eq (c h m : Nat) (x : Camp) (t : Target) (e : Endpoint) (s : State) (h1 : camp? s c = some x) (h2 : tgt? s c h = some t) (h3 : ep? s h = some e)
    (h4 : t.state = .sent) (h5 : x.state = .running) (h6 : x.deadline = 0) (h7 : t.notAfter = 0) :
    waitEnd c h (advMono m s) = settle c (if t.attempts < x.retryMax then backToWaiting c h (advMono m s) else if bySession x e && t.cmd != 0x11 then toNextSession c h (advMono m s) else failTarget c h (advMono m s)) := by
  have a1 : camp? (advMono m s) c = some x := (advMono_keeps (fun u => camp? u c) (by intros; rfl) m s).trans h1
  have a2 : tgt? (advMono m s) c h = some t := (advMono_keeps (fun u => tgt? u c h) (by intros; rfl) m s).trans h2
  have a3 : ep? (advMono m s) h = some e := (advMono_keeps (fun u => ep? u h) (by intros; rfl) m s).trans h3
  unfold waitEnd
  rw [a1, a2, a3]
  dsimp only
  rw [h4, h5, h7]
  have d : deadlinePassed (advMono m s) x = false := by unfold deadlinePassed; simp [h6]
  rw [d]
  simp

theorem advTo_past (m : Nat) (s : State) (h : m ≤ s.now) : advTo m s = s := by unfold advTo; rw [if_neg (by omega)]

theorem safetyFault_unarmed (c : Nat) (s : State) : (safetyFault c s).safe.state ≠ .armed := by
  unfold safetyFault
  cases h : s.safe.state
  case off => dsimp only; rw [(enterFault_facts _ _ _).1]; decide
  case armed => dsimp only; rw [(enterFault_facts _ _ _).1]; split <;> decide
  all_goals
    dsimp only
    split
    · show s.safe.state ≠ _; rw [h]; decide
    · unfold safetyRecord; rw [record_keeps (fun u => u.safe) (by intros; rfl)]; show s.safe.state ≠ _; rw [h]; decide

end Sys2Proof.Machine
end

