-- ==== Sys2Proof/Laws/EffectCampaigns.lean ====
section
/-! SUPPORT. Lemmas on the operations behind: what the campaign opcodes do. -/

namespace Sys2Proof.Machine

set_option maxHeartbeats 400000

theorem camp?_updCamp_self (c : Nat) (f : Camp → Camp) (x : Camp) (s : State) (h : camp? s c = some x) : camp? (updCamp c f s) c = some (f x) := by
  unfold updCamp
  rw [h]
  exact tfind_tset_same _ _ _

theorem camp?_setCampState (c : Nat) (st : CampState) (x : Camp) (s : State) (h : camp? s c = some x) : camp? (setCampState c st s) c = some { x with state := st } := by
  unfold setCampState
  rw [h]
  dsimp only
  rw [raise_keeps (fun u => camp? u c) (by intros; rfl), commitOne_keeps (fun u => camp? u c) (by intros; rfl)]
  exact camp?_updCamp_self c _ x s h

theorem event_setCampState (c : Nat) (st : CampState) (x : Camp) (s : State) (h : camp? s c = some x) : (setCampState c st s).evt.pend.getLsbD 0x70 = true := by
  unfold setCampState
  rw [h]
  exact raise_set _ _ (by decide) (by decide)

theorem campField_some (r : Req) (x : Camp) (s : State) (h1 : zeroAt r.payload 1 3 = true) (h2 : camp? s (rd r.payload 0 1) = some x) :
    campField r.payload (taken r s) = some (rd r.payload 0 1, x) := by
  unfold campField
  rw [if_neg (by simp [h1]), show camp? (taken r s) (rd r.payload 0 1) = camp? s (rd r.payload 0 1) from rfl, h2]
  rfl

theorem firstBadTgt_taken (x : Camp) (r : Req) (s : State) : ∀ n seen i, firstBadTgt (taken r s) x r.payload n seen i = firstBadTgt s x r.payload n seen i := by
  intro n
  induction n with
  | zero => intros; rfl
  | succ n ih =>
    intro seen i
    unfold firstBadTgt
    rw [show tgtBad (taken r s) x r.payload seen i = tgtBad s x r.payload seen i from rfl, ih]

end Sys2Proof.Machine
end

