-- ==== Sys2Proof/Laws/EffectConfiguration.lean ====
section
/-! SUPPORT. Lemmas on the operations behind: what the configuration opcodes, the commit instant and the firmware takeover do. -/

namespace Sys2Proof.Machine

set_option maxHeartbeats 400000

theorem setCfg_cfg (c : CfgState) (s : State) : (setCfgState c s).cfg = { s.cfg with state := c } := by
  unfold setCfgState
  split
  · next h => subst h; rfl
  · exact raise_keeps (fun u => u.cfg) (by intros; rfl) _ _

theorem rfp_setRf (p q : Nat) (f : RfPort → RfPort) (s : State) : rfp (setRf p f s) q = if q = p then f (rfp s p) else rfp s q := by
  unfold rfp setRf
  by_cases h : q = p
  · subst h; simp only [tget_tupd_same, if_true]
  · rw [tget_tupd_other _ _ _ _ h, if_neg h]

theorem training_all : ∀ (l : List Nat) (s : State), (∀ p, p ∈ l ∨ (rfp s p).training = true →
    (rfp (l.foldl (fun s p => setRf p (fun x => { x with training := true, trainRun := false }) s) s) p).training = true)
  | [], s, p, h => by simpa using h
  | q :: l, s, p, h => by
    simp only [List.foldl_cons]
    refine training_all l _ p ?_
    rw [rfp_setRf]
    by_cases e : p = q
    · subst e; simp
    · simp only [if_neg e]
      rcases h with h | h
      · rcases List.mem_cons.1 h with h | h
        · exact absurd h e
        · exact .inl h
      · exact .inr h

theorem follow_cfg (o : State) (f : List Nat) (t : Tbl LaneAsg) (s : State) : (followSwitch o f t s).cfg = s.cfg :=
  followSwitch_keeps (fun u => u.cfg) (by intros; rfl) o f t s

theorem commitFails_setCfg (c : CfgState) (s : State) (w : Window) : commitFails (setCfgState c s) w = commitFails s w := by
  unfold setCfgState
  split
  · rfl
  · exact (raise_keeps (fun u => commitFails u w) (by intros; rfl) _ _).trans rfl

theorem commitFails_enter (r : Req) (s : State) (w : Window) :
    commitFails (setCfgState .committing { taken r s with cfg.prior := (taken r s).cfg.state }) w = commitFails s w := by
  rw [commitFails_setCfg]
  have h1 : ∀ (u : State) c, commitFails { u with cfg.prior := c } w = commitFails u w := fun u c => by unfold commitFails; rfl
  have h2 : commitFails (taken r s) w = commitFails s w := by
    unfold taken
    exact setMbx_keeps (fun u => commitFails u w) (by intros; rfl) _ _ _
  rw [h1, h2]

theorem commitCheck_ok (id : Nat) (w : Window) (u : State) (h : commitFails u w = []) :
    commitCheck id w u = .pend { (enabledBy u w).foldl (fun s p => setRf p (fun x => { x with training := true, trainRun := false }) s) u with
      cfg.accepted := some (id, u.now), cfg.trained := [] } [.config] := by
  unfold commitCheck
  rw [h]
  rfl

theorem setCfg_now (c : CfgState) (s : State) : (setCfgState c s).now = s.now := by
  unfold setCfgState
  split
  · rfl
  · exact (raise_keeps (fun u => u.now) (by intros; rfl) _ _).trans rfl

theorem enabledBy_enter (r : Req) (s : State) (w : Window) :
    enabledBy (setCfgState .committing { taken r s with cfg.prior := (taken r s).cfg.state }) w = enabledBy s w := by
  have h0 : ∀ u : State, enabledBy (setCfgState .committing u) w = enabledBy u w := by
    intro u
    unfold setCfgState
    split
    · rfl
    · exact (raise_keeps (fun u => enabledBy u w) (by intros; rfl) _ _).trans rfl
  rw [h0]
  have h1 : ∀ (u : State) c, enabledBy { u with cfg.prior := c } w = enabledBy u w := fun u c => rfl
  have h2 : enabledBy (taken r s) w = enabledBy s w := by
    unfold taken
    exact setMbx_keeps (fun u => enabledBy u w) (by intros; rfl) _ _ _
  rw [h1, h2]

end Sys2Proof.Machine
end

