-- ==== Sys2Proof/Laws/EffectConfigurationMoves.lean ====
section
/-! SUPPORT. Lemmas on the operations behind: the configuration state changes only as Table 03-10 gives, whatever command runs. -/

namespace Sys2Proof.Machine

set_option maxHeartbeats 400000

def ckey (s : State) : CfgState × CfgState × Bool := (s.cfg.state, s.cfg.prior, s.cfg.window.isSome)

def KSound (k : CfgState × CfgState × Bool) : Prop :=
  (k.2.2 = true ↔ k.1 ≠ .unconfigured ∧ k.1 ≠ .committed) ∧ (k.1 = .committing → k.2.1 = .configuring ∨ k.2.1 = .reconfiguring)

def KMove (j k : CfgState × CfgState × Bool) : Prop := KSound j → KSound k ∧ (k.1 = j.1 ∨ (j.1, k.1) ∈ cfgMoves)

theorem kmove_same {j k : CfgState × CfgState × Bool} (e : k = j) : KMove j k := by subst e; exact fun h => ⟨h, .inl rfl⟩

theorem ckey_setCfg (c : CfgState) (s : State) : ckey (setCfgState c s) = (c, s.cfg.prior, s.cfg.window.isSome) := by
  unfold setCfgState
  split
  · next h => subst h; rfl
  · exact raise_keeps ckey (by intros; rfl) _ _

theorem k_begin (s : State) : KMove (ckey s) (ckey (configBegin s).st) := by
  unfold configBegin
  split
  · next h => rw [replyOk_st, ckey_setCfg]; intro _; simp [KSound, ckey, h, cfgMoves]
  · next h => rw [replyOk_st, ckey_setCfg]; intro _; simp [KSound, ckey, h, cfgMoves]
  · exact kmove_same rfl

theorem k_abort (s : State) : KMove (ckey s) (ckey (configAbort s).st) := by
  unfold configAbort
  split
  · next h => rw [replyOk_st, ckey_setCfg]; intro _; simp [KSound, ckey, h, cfgMoves]
  · next h => rw [replyOk_st, ckey_setCfg]; intro _; simp [KSound, ckey, h, cfgMoves]
  · exact kmove_same rfl

theorem kmove_enter (s u : State) (hs : s.cfg.state = .configuring ∨ s.cfg.state = .reconfiguring) (hw : s.cfg.window.isSome = true)
    (hu : ckey u = (.committing, s.cfg.state, s.cfg.window.isSome)) : KMove (ckey s) (ckey u) := by
  rw [hu]
  intro _
  simp only [KSound, ckey, hw, cfgMoves]
  rcases hs with hs | hs <;> rw [hs] <;> simp

theorem ckey_train (l : List Nat) (u : State) :
    ckey (l.foldl (fun s p => setRf p (fun x => { x with training := true, trainRun := false }) s) u) = ckey u :=
  foldl_keeps ckey _ (fun s p => setRf_keeps ckey (by intros; rfl) _ _ _) _ _

theorem k_check (id : Nat) (w : Window) (u : State) (hu : u.cfg.state = .committing) :
    ckey (commitCheck id w u).st = ckey u ∨ ckey (commitCheck id w u).st = (u.cfg.prior, u.cfg.prior, u.cfg.window.isSome) := by
  unfold commitCheck
  split
  · rw [Reply.st_twice, ckey_setCfg]; exact .inr rfl
  · rw [Reply.st_pend]
    exact .inl ((show _ = ckey _ from by rfl : ckey _ = ckey ((enabledBy u w).foldl (fun s p => setRf p (fun x => { x with training := true, trainRun := false }) s) u)).trans (ckey_train _ _))

theorem k_commit (id : Nat) (s : State) : KMove (ckey s) (ckey (configCommit id s).st) := by
  unfold configCommit
  split
  · exact kmove_same rfl
  · next w hw =>
    have hws : s.cfg.window.isSome = true := by rw [hw]; rfl
    split
    · next hc =>
      have hc : s.cfg.state = .committing := by simp only [Bool.and_eq_true, decide_eq_true_eq] at hc; exact hc.1
      split
      · exact kmove_same rfl
      · rcases k_check id w { s with cfg.deferred := none } hc with e | e
        · exact kmove_same e
        · rw [e]
          intro h
          have hp := h.2 hc
          show KSound (s.cfg.prior, s.cfg.prior, s.cfg.window.isSome) ∧ (s.cfg.prior = s.cfg.state ∨ (s.cfg.state, s.cfg.prior) ∈ cfgMoves)
          simp only [ckey] at hp
          rcases hp with hp | hp <;> rw [hp, hc, hws] <;> simp [KSound, cfgMoves]
    · split
      · exact kmove_same rfl
      · next hn =>
        have hs : s.cfg.state = .configuring ∨ s.cfg.state = .reconfiguring := by
          cases h : s.cfg.state <;> simp_all
        have e1 : ckey (setCfgState .committing { s with cfg.prior := s.cfg.state }) = (.committing, s.cfg.state, s.cfg.window.isSome) := ckey_setCfg _ _
        have h1 := congrArg (fun k => k.1) e1
        have h2 := congrArg (fun k => k.2.1) e1
        have h3 := congrArg (fun k => k.2.2) e1
        dsimp only
        split
        · exact kmove_enter s _ hs hws e1
        · rcases k_check id w (setCfgState .committing { s with cfg.prior := s.cfg.state }) h1 with e | e
          · exact kmove_enter s _ hs hws (e.trans e1)
          · rw [e]
            rw [show (setCfgState .committing { s with cfg.prior := s.cfg.state }).cfg.prior = s.cfg.state from h2,
              show (setCfgState .committing { s with cfg.prior := s.cfg.state }).cfg.window.isSome = s.cfg.window.isSome from h3]
            intro _
            show KSound (s.cfg.state, s.cfg.state, s.cfg.window.isSome) ∧ _
            rcases hs with hs | hs <;> rw [hs, hws] <;> simp [KSound, ckey, hs]

theorem k_writeLive (id v : Nat) (s : State) : ckey (writeLive id v s) = ckey s := by
  unfold writeLive
  dsimp only
  repeat' split
  · rw [closeOpenOvf_keeps ckey (by intros; rfl), closeOpen_keeps ckey (by intros; rfl)]; rfl
  · rw [backlogCheck_keeps ckey (by intros; rfl)]; rfl
  · rw [jnlRefresh_keeps ckey (by intros; rfl)]; rfl
  · rfl
  · rfl

theorem k_writeParam (id : Nat) (v : Option Nat) (s : State) : ckey (writeParam id v s) = ckey s := by
  unfold writeParam
  split
  · exact k_writeLive _ _ _
  · unfold writeWindow ckey
    simp

theorem k_paramWrite (r : Req) (s : State) : ckey (paramBlockWrite r s).st = ckey s := by
  unfold paramBlockWrite
  dsimp only
  split
  · rfl
  · split
    · rw [refuse_st, raiseIf_keeps ckey (by intros; rfl)]
      exact foldl_keeps ckey _ (fun s x => k_writeParam x none s) _ _
    · split
      · rfl
      · split
        · rfl
        · exact foldl_keeps ckey _ (fun s (x : PEntry) => k_writeParam x.id (some x.value) s) _ _

theorem k_profile (r : Req) (s : State) : ckey (bandProfileSet r s).st = ckey s := by
  unfold bandProfileSet
  dsimp only
  split
  · rfl
  · split
    · rfl
    · next w hw =>
      split
      · rfl
      · rw [replyOk_st]; simp [ckey, hw]

theorem k_laneAssign (r : Req) (s : State) : ckey (laneAssign r s).st = ckey s := by
  have kf : ∀ (l : List (Nat × LaneAsg × Bool)) (s : State), ckey (l.foldl (fun s e => setLane e.1 (fun x => { x with next := some e.2.1 }) s) s) = ckey s :=
    foldl_keeps ckey _ (fun s e => setLane_keeps ckey (by intros; rfl) _ _ _)
  have kg : ∀ (l : List (Nat × LaneAsg × Bool)) (s : State), ckey (l.foldl (fun s e => if e.2.2 then forceLane e.1 s else s) s) = ckey s := by
    refine foldl_keeps ckey _ (fun s e => ?_)
    split
    · exact forceLane_keeps ckey (by intros; rfl) _ _
    · rfl
  unfold laneAssign
  dsimp only
  split
  · rfl
  · split
    · rfl
    · split
      · rfl
      · split
        · rfl
        · split
          · split
            · next w hw => rw [replyOk_st]; simp [ckey, hw]
            · rfl
          · split
            · rw [Reply.st_twice, kg, kf]
            · rw [Reply.st_pend, kg, kf]

def KRun (v : Service) : Prop := ∀ id r s, KMove (ckey s) (ckey (v.run id r s).st)

theorem kmK {v : Service} (h : ∀ id r s, ckey (v.run id r s).st = ckey s) : KRun v := fun id r s => kmove_same (h id r s)

theorem k_services : ∀ v ∈ services, KRun v := by
  have l1 : ∀ v ∈ services1, KRun v := List.forall_mem_cons.2 ⟨kmK (fun _ _ _ => rfl),
    List.forall_mem_cons.2 ⟨fun _ _ s => k_begin s,
    List.forall_mem_cons.2 ⟨fun id _ s => k_commit id s,
    List.forall_mem_cons.2 ⟨fun _ _ s => k_abort s,
    List.forall_mem_cons.2 ⟨kmK (fun _ _ _ => rfl),
    List.forall_mem_cons.2 ⟨kmK (fun _ _ _ => rfl),
    List.forall_mem_cons.2 ⟨fun _ r s => kmove_same (k_paramWrite r s),
    List.forall_mem_cons.2 ⟨kmK (fun _ r s => paramBlockRead_keeps (fun u => ckey u) r s),
    fun _ h => nomatch h⟩⟩⟩⟩⟩⟩⟩⟩
  have l2 : ∀ v ∈ services2, KRun v := List.forall_mem_cons.2 ⟨fun _ r s => kmove_same (k_laneAssign r s),
    List.forall_mem_cons.2 ⟨kmK (fun _ r s => laneTableGet_keeps (fun u => ckey u) r s),
    List.forall_mem_cons.2 ⟨kmK (fun _ r s => laneStatsGet_keeps (fun u => ckey u) (by intros; rfl) r s),
    List.forall_mem_cons.2 ⟨kmK (fun _ r s => laneStatsClear_keeps (fun u => ckey u) (by intros; rfl) r s),
    List.forall_mem_cons.2 ⟨kmK (fun _ _ _ => rfl),
    List.forall_mem_cons.2 ⟨fun _ r s => kmove_same (k_profile r s),
    List.forall_mem_cons.2 ⟨kmK (fun _ r s => bandProfileGet_keeps (fun u => ckey u) r s),
    List.forall_mem_cons.2 ⟨kmK (fun _ r s => dutyStatusGet_keeps (fun u => ckey u) r s),
    List.forall_mem_cons.2 ⟨kmK (fun _ r s => sectorStatusGet_keeps (fun u => ckey u) r s),
    List.forall_mem_cons.2 ⟨kmK (fun _ r s => connectOpen_keeps (fun u => ckey u) (by intros; rfl) r s),
    List.forall_mem_cons.2 ⟨kmK (fun _ r s => connectClose_keeps (fun u => ckey u) (by intros; rfl) r s),
    List.forall_mem_cons.2 ⟨kmK (fun _ r s => airStateGet_keeps (fun u => ckey u) (by intros; rfl) r s),
    fun _ h => nomatch h⟩⟩⟩⟩⟩⟩⟩⟩⟩⟩⟩⟩
  intro v hv
  simp only [services, List.mem_append] at hv
  rcases hv with ((((((((((hv | hv) | hv) | hv) | hv) | hv) | hv) | hv) | hv) | hv) | hv) | hv
  · exact l1 v hv
  · exact l2 v hv
  · exact kmK (services3_keeps ckey (by intros; rfl) v hv)
  · exact kmK (services4_keeps ckey (by intros; rfl) v hv)
  · exact kmK (services5_keeps ckey (by intros; rfl) v hv)
  · exact kmK (services6_keeps ckey (by intros; rfl) v hv)
  · exact kmK (services7_keeps ckey (by intros; rfl) v hv)
  · exact kmK (services8_keeps ckey (by intros; rfl) v hv)
  · exact kmK (services9_keeps ckey (by intros; rfl) v hv)
  · exact kmK (servicesA_keeps ckey (by intros; rfl) v hv)
  · exact kmK (servicesB_keeps ckey (by intros; rfl) v hv)
  · exact kmK (servicesC_keeps ckey (by intros; rfl) v hv)

theorem k_serve (v : Service) (hv : KRun v) (r : Req) (s : State) : KMove (ckey s) (ckey (serve v r s)) := by
  rcases serve_effect ckey (by intros; rfl) v r s with e | ⟨id, s1, e1, e2⟩
  · exact kmove_same e
  · rw [e2, ← e1]; exact hv id r s1

theorem k_wait (id : Nat) (s : State) : KMove (ckey s) (ckey (requestWaitEnd id s)) := by
  unfold requestWaitEnd
  split
  · exact kmove_same rfl
  · next o _ =>
    split
    · exact kmove_same rfl
    · next v hx =>
      split
      · exact kmove_same rfl
      · rw [startPause_keeps ckey (by intros; rfl)]
        have hv := k_services v (List.mem_of_find?_eq_some hx) o.id o.req s
        unfold serveWaiting
        split
        · exact kmove_same (finishOp_keeps ckey (by intros; rfl) _ _ _ _)
        · split
          · next hx => rw [hx] at hv; rw [finishOp_keeps ckey (by intros; rfl)]; exact hv
          · next hx => rw [hx] at hv; rw [finishOp_keeps ckey (by intros; rfl)]; exact hv
          · next hx => rw [hx] at hv; exact hv
          · next hx => rw [hx] at hv; exact hv

theorem k_reset (src : RstSrc) (j) (s : State) : KMove j (ckey (resetMain src s)) := by
  have e : ckey (resetMain src s) = (.unconfigured, .unconfigured, false) := by unfold resetMain ckey; dsimp only; rfl
  rw [e]
  intro _
  refine ⟨by simp [KSound], ?_⟩
  rcases j with ⟨a, b, c⟩
  cases a <;> simp [cfgMoves]

theorem k_cold (b : Nat) (j) (s : State) : KMove j (ckey (coldAssert b s)) := k_reset .cold j _

theorem k_wide (src : RstSrc) (b : Nat) (j) (s : State) (h : ckey s = j) : KMove j (ckey (wideReset src b s)) := by
  unfold wideReset
  split
  · exact kmove_same h
  · dsimp only
    have h := k_reset src j (latchCause b s)
    generalize resetMain src (latchCause b s) = u at h ⊢
    exact h

theorem k_fail (id : Nat) (s : State) (hc : s.cfg.state = .committing) (hw : s.cfg.window.isSome = true) :
    KMove (ckey s) (ckey (commitFault id s)) := by
  unfold commitFault
  dsimp only
  rw [finishOp_keeps ckey (by intros; rfl), recordFault_keeps ckey (by intros; rfl), ckey_setCfg]
  have e : ∀ u : State, u.cfg = s.cfg → KMove (ckey s) (s.cfg.prior, ({ u with cfg.accepted := none, cfg.trained := [] } : State).cfg.prior,
      ({ u with cfg.accepted := none, cfg.trained := [] } : State).cfg.window.isSome) := by
    intro u hu
    show KMove _ (s.cfg.prior, u.cfg.prior, u.cfg.window.isSome)
    rw [hu]
    intro h
    have hp := h.2 hc
    simp only [ckey, KSound, hc, hw] at *
    rcases hp with hp | hp <;> rw [hp] <;> simp [cfgMoves]
  refine e _ ?_
  rw [noteCaps_keeps (fun u => u.cfg) (by intros; rfl)]
  refine foldl_keeps (fun u => u.cfg) _ (fun s e => ?_) _ _
  exact setRf_keeps (fun u => u.cfg) (by intros; rfl) _ _ _

theorem k_instant (b : Bool) (s : State) : KMove (ckey s) (ckey (commitInstant b s)) := by
  unfold commitInstant
  split
  · next id at_ w ha hw =>
    split
    · exact kmove_same rfl
    · next hc =>
      have hc : s.cfg.state = .committing := by
        simp only [Bool.or_eq_true, not_or] at hc
        have := hc.1; simpa using this
      split
      · exact k_fail id s hc (by rw [hw]; rfl)
      · split
        · exact kmove_same rfl
        · rw [finishOp_keeps ckey (by intros; rfl), ckey_setCfg]
          intro h
          simp [KSound, ckey, hc, cfgMoves]
  · exact kmove_same rfl

theorem k_defaults (subs : List Nat) (s : State) : ckey (defaultFormats subs s) = ckey s := by
  unfold defaultFormats
  split
  · rfl
  · dsimp only
    rw [raise_keeps ckey (by intros; rfl), followSwitch_keeps ckey (by intros; rfl)]
    split
    · rw [jnlRefresh_keeps ckey (by intros; rfl), backlogCheck_keeps ckey (by intros; rfl), closeOpenOvf_keeps ckey (by intros; rfl), closeOpen_keeps ckey (by intros; rfl)]
      rfl
    · rfl

theorem k_takeover (s : State) : ckey (firmwareTakeover s) = ckey s := by
  unfold firmwareTakeover
  split
  · rfl
  · dsimp only
    split
    all_goals split
    all_goals first
      | rfl
      | (rw [jnlRefresh_keeps ckey (by intros; rfl), k_defaults, raise_keeps ckey (by intros; rfl), finishOp_keeps ckey (by intros; rfl)]; rfl)

theorem k_train (p : Nat) (x : TrainIn) (s : State) : ckey (rfTrainEnd p x s) = ckey s := by
  have he : ∀ (c : RfState) (u : State) l, ckey (if c = .awaitTc then { u with cfg.trained := l } else u) = ckey u := by
    intro c u l; split <;> rfl
  have hb : ∀ (c : Bool) (u : State) l, ckey (if c = true then { u with cfg.trained := l } else u) = ckey u := by
    intro c u l; split <;> rfl
  have hok : ∀ p y io s, ckey (trainOk p y io s) = ckey s := by
    intro p y io s
    unfold trainOk
    dsimp only
    rw [raiseIf_keeps ckey (by intros; rfl)]
    exact (he _ _ _).trans rfl
  have hfail : ∀ p y io s, ckey (trainFail p y io s) = ckey s := by
    intro p y io s
    unfold trainFail
    dsimp only
    rw [record_keeps ckey (by intros; rfl)]
    exact (hb _ _ _).trans rfl
  unfold rfTrainEnd
  split
  · rfl
  · dsimp only
    split
    · rfl
    · rw [dprstDone_keeps ckey (by intros; rfl), portsTrained_keeps ckey (by intros; rfl), noteCaps_keeps ckey (by intros; rfl)]
      split
      · exact hok _ _ _ _
      · exact hfail _ _ _ _

theorem k_por (s : State) : KMove (ckey s) (ckey (porAssert s)) := by
  unfold porAssert; split
  · exact kmove_same rfl
  · exact k_cold _ _ _

theorem k_nreset (s : State) : KMove (ckey s) (ckey (nresetAssert s)) := by
  unfold nresetAssert; split
  · exact kmove_same rfl
  · exact k_cold _ _ _

theorem k_wdt_at (m : Nat) (s : State) :
    KMove (ckey s) (ckey (wideReset .wdt causeWdt { advMono m s with boot.wdtArmed := false, boot.wdtRemain := 0 })) := by
  have e : ckey (advMono m s) = ckey s := advMono_keeps ckey (by intros; rfl) _ _
  generalize advMono m s = u at e ⊢
  exact k_wide _ _ _ _ e

theorem k_wdt (s : State) : KMove (ckey s) (ckey (wdtExpiry s)) := by
  unfold wdtExpiry; split
  · exact k_wdt_at _ s
  · exact kmove_same rfl

theorem k_sysrst (s : State) : KMove (ckey s) (ckey (sysrst s)) := by
  unfold sysrst
  repeat' split
  all_goals first | exact kmove_same rfl | exact k_wide _ _ _ _ (by rfl)

end Sys2Proof.Machine
end

