-- ==== Sys2Proof/Laws/EffectDirectoryFrames.lean ====
section
/-! SUPPORT. Lemmas on the operations behind: how the directory handles received frames, fetches contexts, retires endpoints and rehashes. -/

namespace Sys2Proof.Machine

set_option maxHeartbeats 400000

theorem retireHold_eq (h t : Nat) (e : Endpoint) (s : State) (h1 : ep? s h = some e) (h2 : e.retireAt = some t) :
    retireHold h s = (let u := withdrawClose h (advMono t s)
      let v := if anyCustody u h then discardCustody h u else u
      if mayEmpty v h then becomeEmpty h v else v) := by
  unfold retireHold
  rw [h1, show (some e).bind (fun e => e.retireAt) = some t from h2]

theorem discardCustody_sectors (h : Nat) (u : State) :
    (discardCustody h u).sectors = tmap u.sectors (fun _ x => { x with custody := x.custody.filter (fun c => c.handle != h) }) := by
  unfold discardCustody
  dsimp only
  rw [foldl_keeps (fun u => u.sectors) _ (fun s x => record_keeps (fun u => u.sectors) (by intros; rfl) _ _ _), noteEp_keeps (fun u => u.sectors) (by intros; rfl)]

theorem rehashEnd_eq (s : State) (h1 : s.dir.rehash = 2) (h2 : dirUp s = true) : ∃ (ids : List Nat) (u : State), u.dir.rehash = 0 ∧
    rehashEnd s = finishOps ids .ok (le 2 u.dir.stash.length ++ le 2 0) (raise 0x41 u) := by
  unfold rehashEnd
  rw [if_neg (by simp [h1, h2])]
  dsimp only
  generalize (s.dir.stash.map (fun x => x.1)).foldl (fun s i => rehashOne i s) s = s1
  exact ⟨_, dropToken .rh { s1 with dir := { s1.dir with rehash := 0 } }, rfl, rfl⟩

end Sys2Proof.Machine
end

