-- ==== Sys2Proof/Laws/EffectDma.lean ====
section
/-! SUPPORT. Lemmas on the operations behind: what the translation windows, the DMA channels and their descriptors do. -/

namespace Sys2Proof.Machine

set_option maxHeartbeats 400000

theorem descDone_chan (c n : Nat) (evt : Option Nat) (s : State) : (chan (descDone c n evt s) c).ci = (chan s c).ci + 1 ∧
    (chan (descDone c n evt s) c).done = (chan s c).done + 1 ∧ (chan (descDone c n evt s) c).active = none ∧
    (chan (descDone c n evt s) c).state = (if (chan s c).ci + 1 = (chan s c).pi then .idle else .running) := by
  have e : chan (descDone c n evt s) c = { chan s c with ci := (chan s c).ci + 1, done := (chan s c).done + 1, active := none, held := none, state := if (chan s c).ci + 1 = (chan s c).pi then .idle else .running } := by
    unfold descDone
    dsimp only
    split
    · rw [raise_keeps (fun u => chan u c) (by intros; rfl), setChan_chan]; rfl
    · rw [setChan_chan]; rfl
  rw [e]
  exact ⟨rfl, rfl, rfl, rfl⟩

end Sys2Proof.Machine
end

