-- ==== Sys2Proof/Laws/EffectDurabilityPeriodRange.lean ====
section
/-! SUPPORT. Lemmas on the operations behind: the durability period takes 1 s to 30 s, and any other value is refused and changes nothing. -/

namespace Sys2Proof.Machine

set_option maxHeartbeats 400000

theorem one_byte (v : Byte) : rd [1, 0, 5, 0, 1, 0, 0, 0, 0x00, 0x50, 1, 0, v, 0, 0, 0] 12 1 = v.toNat := by
  show ofLe [v] = v.toNat
  simp [ofLe]

theorem entries58 (v : Byte) : blockEntries [1, 0, 5, 0, 1, 0, 0, 0, 0x00, 0x50, 1, 0, v, 0, 0, 0] 1 8 = [{ id := 0x5000, len := 1, value := v.toNat, fits := true }] := by
  generalize hl : ([1, 0, 5, 0, 1, 0, 0, 0, 0x00, 0x50, 1, 0, v, 0, 0, 0] : List Byte) = l
  have e : rd l (8 + 4) 1 = v.toNat := by rw [← hl]; exact one_byte v
  have e1 : rd l 8 2 = 0x5000 := by rw [← hl]; show ofLe [0x00, 0x50] = 0x5000; decide
  have e2 : rd l (8 + 2) 2 = 1 := by rw [← hl]; rfl
  have e3 : l.length = 16 := by rw [← hl]; rfl
  unfold blockEntries
  dsimp only
  rw [e1, e2, e, e3, show entryBytes 1 = 8 from rfl, if_pos (by decide)]
  rfl

theorem def5000 : paramDef 0x5000 = some (pRange 1 1 30 30 .l) := rfl

theorem bad58 (v : Byte) (s : State) : firstEntryBad s 5 [] 0 [{ id := 0x5000, len := 1, value := v.toNat, fits := true }] = if v.toNat = 0 ∨ 30 < v.toNat then some (0, 0x5000, .badParam) else none := by
  unfold firstEntryBad entryBad
  dsimp only
  rw [def5000]
  dsimp only [pRange]
  by_cases h : v.toNat = 0 ∨ 30 < v.toNat
  · rw [if_pos h, if_pos (by simp; omega)]
  · rw [if_neg h, if_neg (by rw [show signSlotOk s { id := 0x5000, len := 1, value := v.toNat, fits := true } = true from rfl]; simp; omega), if_neg (by simp), if_neg (by simp)]
    rfl

theorem live5000 (v : Nat) (s : State) : pval (writeParam 0x5000 (some v) s) 0x5000 = v := by
  have e : writeParam 0x5000 (some v) s = { s with cfg.vals := tset s.cfg.vals 0x5000 v } := by
    unfold writeParam
    rw [if_pos (show isLive 0x5000 = true from rfl)]
    unfold writeLive
    dsimp only
    rw [if_neg (by decide), if_neg (by decide), if_neg (by decide), if_neg (by simp)]
    rfl
  rw [e]
  unfold pval
  rw [tget_tset_same]

theorem answer_pval (op : Nat) (r : Req) (st : Status) (p : List Byte) (i : Nat) (s : State) : pval (answer op r st p s) i = pval s i :=
  immediate_keeps (fun u => pval u i) (by intros; rfl) op r false st p s

end Sys2Proof.Machine
end

