-- ==== Sys2Proof/Laws/EffectEvents.lean ====
section
/-! SUPPORT. Lemmas on the operations behind: event pending bits, enables, forces, masks and messages. -/

namespace Sys2Proof.Machine

set_option maxHeartbeats 400000

theorem raiseAll_frame : ∀ (ns : List Nat) (s : State), raiseAll ns s = { s with evt := (raiseAll ns s).evt, out := (raiseAll ns s).out }
  | [], _ => rfl
  | n :: ns, s => by
    have e : raiseAll (n :: ns) s = raiseAll ns (raise n s) := rfl
    rw [e]
    exact (raiseAll_frame ns (raise n s)).trans
      (congrArg (fun u : State => { u with evt := (raiseAll ns (raise n s)).evt, out := (raiseAll ns (raise n s)).out }) (raise_frame n s))

theorem raiseAll_pend (i : Nat) (hi : i < 256) : ∀ (ns : List Nat) (s : State),
    (raiseAll ns s).evt.pend.getLsbD i = (s.evt.pend.getLsbD i || (sourceDefined i && ns.contains i))
  | [], s => by simp [raiseAll]
  | n :: ns, s => by
    have e : raiseAll (n :: ns) s = raiseAll ns (raise n s) := rfl
    rw [e, raiseAll_pend i hi ns, raise_pend]
    split
    · next hd =>
      by_cases hn : i = n
      · subst hn; simp [hi, hd]
      · have : (1#256 <<< n).getLsbD i = false := by
          simp [hi, BitVec.getLsbD_one]; omega
        simp [this, hn]
    · next hd =>
      by_cases hn : i = n
      · subst hn; simp [hd]
      · simp [hn]

theorem sources_mem (k i : Nat) (d : Word) : (evtSources k d).contains i = (i / 32 == k && d.getLsbD (i % 32)) := by
  rw [Bool.eq_iff_iff]
  simp only [evtSources, List.contains_iff_mem, List.mem_map, List.mem_filter, List.mem_range, Bool.and_eq_true, beq_iff_eq]
  constructor
  · rintro ⟨a, ⟨h1, h2⟩, rfl⟩
    have e1 : (32 * k + a) / 32 = k := by omega
    have e2 : (32 * k + a) % 32 = a := by omega
    rw [e1, e2]; exact ⟨rfl, h2⟩
  · rintro ⟨h1, h2⟩
    exact ⟨i % 32, ⟨by omega, h2⟩, by omega⟩

theorem word_bit (k i : Nat) (d : Word) (hi : i < 256) (hk : k < 8) : (d.setWidth 256 <<< (32 * k)).getLsbD i = (i / 32 == k && d.getLsbD (i % 32)) := by
  rw [Bool.eq_iff_iff]
  simp only [BitVec.getLsbD_shiftLeft, BitVec.getLsbD_setWidth, Bool.and_eq_true, decide_eq_true_eq, beq_iff_eq, Bool.not_eq_true', decide_eq_false_iff_not]
  constructor
  · rintro ⟨⟨h1, h2⟩, h3, h4⟩
    have h5 : i - 32 * k < 32 := by
      by_cases h : i - 32 * k < 32
      · exact h
      · rw [BitVec.getLsbD_of_ge _ _ (by omega)] at h4; simp at h4
    have e1 : i % 32 = i - 32 * k := by omega
    rw [e1]; exact ⟨by omega, h4⟩
  · rintro ⟨h1, h2⟩
    have e1 : i - 32 * k = i % 32 := by omega
    rw [e1]; exact ⟨⟨hi, by omega⟩, by omega, h2⟩

theorem sends_frame : ∀ (ns : List Nat) (s : State), ns.foldl (fun s n => sendVector n (evtRoute s n) s) s =
    { s with evt := (ns.foldl (fun s n => sendVector n (evtRoute s n) s) s).evt, out := (ns.foldl (fun s n => sendVector n (evtRoute s n) s) s).out }
  | [], _ => rfl
  | n :: ns, s => by
    simp only [List.foldl_cons]
    exact (sends_frame ns _).trans (congrArg (fun u : State => { u with
      evt := (ns.foldl (fun s n => sendVector n (evtRoute s n) s) (sendVector n (evtRoute s n) s)).evt,
      out := (ns.foldl (fun s n => sendVector n (evtRoute s n) s) (sendVector n (evtRoute s n) s)).out }) (sendVector_frame n (evtRoute s n) s))

theorem sendVector_en (n v : Nat) (s : State) : (sendVector n v s).evt.en = s.evt.en := by
  unfold sendVector
  dsimp only
  split
  · rfl
  · split <;> rfl

theorem sends_keep : ∀ (ns : List Nat) (s : State),
    (ns.foldl (fun s n => sendVector n (evtRoute s n) s) s).evt.pend = s.evt.pend ∧ (ns.foldl (fun s n => sendVector n (evtRoute s n) s) s).evt.en = s.evt.en
  | [], _ => ⟨rfl, rfl⟩
  | n :: ns, s => by
    simp only [List.foldl_cons]
    rw [(sends_keep ns _).1, (sends_keep ns _).2, sendVector_pend, sendVector_en]
    exact ⟨rfl, rfl⟩

theorem held_routes (v : Nat) : ∀ (l : List (Nat × Nat)) (acc : List (Nat × Nat)), (∀ e ∈ l, e.1 = v) → acc.any (fun a => a.1 == v) = true →
    l.foldl (fun (acc : List (Nat × Nat)) e => if acc.any (fun a => a.1 == e.1) then acc else acc ++ [e]) acc = acc
  | [], _, _, _ => rfl
  | e :: l, acc, h, ha => by
    simp only [List.foldl_cons]
    rw [h e List.mem_cons_self, if_pos ha]
    exact held_routes v l acc (fun x hx => h x (List.mem_cons_of_mem _ hx)) ha

theorem release_none (v : Nat) (s : State) (h : s.evt.pba.getLsbD v = false) : releaseVector v s = s := by
  unfold releaseVector
  rw [if_neg (by simp [h])]

end Sys2Proof.Machine
end

