-- ==== Sys2Proof/Laws/EffectFirmware.lean ====
section
/-! SUPPORT. Lemmas on the operations behind: what the firmware opcodes of staging, installing, switching, activating and confirming do. -/

namespace Sys2Proof.Machine

set_option maxHeartbeats 400000

theorem mico (r : Req) (s : State) : fwMicrocodeAt r s = (if !zeroAt r.payload 4 4 || s.now + tSec 1 > tSec (rd r.payload 0 4) || s.now + tSec 2592000 < tSec (rd r.payload 0 4) then refuse s .badParam
  else if s.fw.upd != .prepared then refuse s .badState
  else
    replyOk (if nearSwitch (rd r.payload 0 4) { s with fw.tm := some (rd r.payload 0 4) } then askToken .ma { s with fw.tm := some (rd r.payload 0 4) } else dropToken .ma { s with fw.tm := some (rd r.payload 0 4) })) := by
    unfold fwMicrocodeAt
    rfl

theorem micoK (r : Req) (s : State) (h1 : zeroAt r.payload 4 4 = true) (h2 : s.now + tSec 1 ≤ tSec (rd r.payload 0 4)) (h3 : tSec (rd r.payload 0 4) ≤ s.now + tSec 2592000) (h4 : s.fw.upd = .prepared) (h5 : nearSwitch (rd r.payload 0 4) s = false) : fwMicrocodeAt r s = .done (dropToken .ma { s with fw.tm := some (rd r.payload 0 4) }) .ok [] := by
    rw [mico]
    have c : (!zeroAt r.payload 4 4 || decide (s.now + tSec 1 > tSec (rd r.payload 0 4)) || decide (s.now + tSec 2592000 < tSec (rd r.payload 0 4))) = false := by
      rw [h1, decide_eq_false (Nat.not_lt.2 h2), decide_eq_false (Nat.not_lt.2 h3)]; rfl
    rw [c, if_neg (by decide), if_neg (by simp [h4])]
    refine Eq.trans (congrArg replyOk (if_neg ?_)) rfl
    intro q
    exact absurd (h5.symm.trans q) (by decide)

theorem cl_mic : (∀ (r : Req) (s : State), Served fwMicrocodeAtService r s = true → zeroAt r.payload 4 4 = true → s.now + tSec 1 ≤ tSec (rd r.payload 0 4) →
    tSec (rd r.payload 0 4) ≤ s.now + tSec 2592000 → s.fw.upd = .prepared → nearSwitch (rd r.payload 0 4) s = false →
    exec (.fwMicrocodeAt r) s = .next (answer 0x0A06 r .ok [] (dropToken .ma { taken r s with fw.tm := some (rd r.payload 0 4) }))) := by
  intro r s h h1 h2 h3 h4 h5
  exact congrArg Host.Outcome.next (serve_done fwMicrocodeAtService r s _ _ _ h (micoK r (taken r s) h1 h2 h3 h4 h5))

theorem switchNow_fw (s : State) : (switchNow s).fw.upd = .switched ∧ (switchNow s).fw.tm = none ∧ (switchNow s).fw.banks = false ∧
    (switchNow s).evt.pend.getLsbD 0xA1 = true := by
  unfold switchNow
  dsimp only
  refine ⟨?_, ?_, ?_, raise_set _ _ (by decide) (by decide)⟩ <;>
    rw [raise_keeps (fun u => u.fw) (by intros; rfl), dropToken_keeps (fun u => u.fw) (by intros; rfl)]

theorem dirStep_setStep (k : Nat) (s : State) : dirStep (setStep k s) = k := by
  unfold setStep dirStep
  dsimp only
  split
  · next h =>
    simp only [Bool.and_eq_true] at h
    rw [if_pos (by simp; right; omega)]
  · next h =>
    have hlt : ¬ (max s.fwNv.dirA.seq s.fwNv.dirB.seq + 1 ≤ s.fwNv.dirA.seq) := by omega
    simp [hlt]

theorem setStep_eq (k : Nat) (s : State) : ∃ a b, setStep k s = { s with fwNv.dirA := a, fwNv.dirB := b } := by
  unfold setStep
  dsimp only
  split
  · exact ⟨_, _, rfl⟩
  · exact ⟨_, _, rfl⟩

theorem setSteps_eq : ∀ (ks : List Nat) (s : State), ∃ a b, setSteps ks s = { s with fwNv.dirA := a, fwNv.dirB := b }
  | [], s => ⟨_, _, rfl⟩
  | k :: ks, s => by
    obtain ⟨a, b, e⟩ := setStep_eq k s
    obtain ⟨c, d, q⟩ := setSteps_eq ks (setStep k s)
    refine ⟨c, d, ?_⟩
    show setSteps ks (setStep k s) = _
    rw [q, e]

theorem dirStep_setSteps (ks : List Nat) (k : Nat) (s : State) : dirStep (setSteps (ks ++ [k]) s) = k := by
  unfold setSteps
  rw [List.foldl_append]
  exact dirStep_setStep k _

theorem installAll_fresh (m : Manifest) (s : State) (h2 : s.fwNv.staging = some m) (h3 : dirStep s ≠ 2) :
    dirStep (installAll s) = 0 ∧ ∃ a b, installAll s = { s with
      fwNv.fallback := s.fwNv.active, fwNv.active := some (merged m s.fwNv.active), fwNv.staging := none,
      fwNv.trial := some { period := s.fwNv.stagedPeriod }, fwNv.dirA := a, fwNv.dirB := b } := by
  unfold installAll
  dsimp only
  rw [h2]
  simp only [if_neg h3]
  refine ⟨?_, ?_⟩
  · split
    · exact dirStep_setSteps [2] 0 _
    · exact dirStep_setSteps [1, 2] 0 _
  · obtain ⟨a, b, e⟩ := setSteps_eq (if dirStep s = 1 then [2, 0] else [1, 2, 0]) { s with fwNv.fallback := s.fwNv.active, fwNv.active := some (merged m s.fwNv.active), fwNv.staging := none, fwNv.trial := some { period := s.fwNv.stagedPeriod } }
    exact ⟨a, b, e⟩

end Sys2Proof.Machine
end

