-- ==== Sys2Proof/Laws/EffectHeaderErrors.lean ====
section
/-! SUPPORT. Lemmas on the operations behind: a power-line header with any of the five errors pushes nothing and is counted. -/

namespace Sys2Proof.Machine

set_option maxHeartbeats 400000

theorem bit_testBit (n i : Nat) : bit n i = n.testBit i := by
  unfold bit
  rw [Nat.testBit_eq_decide_div_mod_eq]
  by_cases h : n / 2 ^ i % 2 = 1 <;> simp [h]

theorem headerBad_iff (v : BitVec 24) (crc : Byte) (mode bmod gmask len : Nat) (e1 : mode = bits v.toNat 1 0) (e2 : bmod = bits v.toNat 3 2) (e3 : gmask = bits v.toNat 11 4)
    (e4 : len = bits v.toNat 20 12) : headerBad v crc = true ↔ (crc8Bits v ≠ crc ∨ mode = 3 ∨ len < 24 ∨ 400 < len ∨ ((mode = 1 ∨ mode = 2) ∧ (bmod ≠ 0 ∨ gmask ≠ 0)) ∨
      (mode = 0 ∧ (bmod = 0 ∨ ((List.range 8).filter (fun g => gmask.testBit g)).length < 2))) := by
  have hm : mode < 4 := by rw [e1]; exact Nat.mod_lt _ (by decide)
  unfold headerBad
  dsimp only
  rw [← e1, ← e2, ← e3, ← e4, show (fun g => bit gmask g) = (fun g => gmask.testBit g) from funext (bit_testBit gmask)]
  generalize ((List.range 8).filter (fun g => gmask.testBit g)).length = n
  simp only [Bool.or_eq_true, Bool.and_eq_true, bne_iff_ne, beq_iff_eq, decide_eq_true_eq]
  generalize (crc8Bits v ≠ crc) = P
  have hz : mode ≠ 0 ↔ mode = 1 ∨ mode = 2 ∨ mode = 3 := by omega
  rw [hz]
  constructor
  · rintro (((((q | q) | q) | q) | ⟨q, q1⟩) | q)
    · exact .inl q
    · exact .inr (.inl q)
    · exact .inr (.inr (.inl q))
    · exact .inr (.inr (.inr (.inl q)))
    · rcases q with q | q | q
      · exact .inr (.inr (.inr (.inr (.inl ⟨.inl q, q1⟩))))
      · exact .inr (.inr (.inr (.inr (.inl ⟨.inr q, q1⟩))))
      · exact .inr (.inl q)
    · exact .inr (.inr (.inr (.inr (.inr q))))
  · rintro (q | q | q | q | ⟨q, q1⟩ | q)
    · exact .inl (.inl (.inl (.inl (.inl q))))
    · exact .inl (.inl (.inl (.inl (.inr q))))
    · exact .inl (.inl (.inl (.inr q)))
    · exact .inl (.inl (.inr q))
    · exact .inl (.inr ⟨by omega, q1⟩)
    · exact .inr q

end Sys2Proof.Machine
end

