-- ==== Sys2Proof/Laws/EffectKeys.lean ====
section
/-! SUPPORT. Lemmas on the operations behind: what the key vault's commands do to slots, endpoint blobs and the random source. -/

namespace Sys2Proof.Machine

set_option maxHeartbeats 400000

theorem reseed_health (s : State) : (reseedTime s).keys.health = s.keys.health := by
  unfold reseedTime
  dsimp only
  split
  · rfl
  · rw [roundAt_keeps (fun u => u.keys) (by intros; rfl)]

end Sys2Proof.Machine
end

