-- ==== Sys2Proof/Laws/EffectLaneOpcodes.lean ====
section
/-! SUPPORT. Lemmas on the operations behind: what LANE_ASSIGN, the lane's switch and the lane and port reports do. -/

namespace Sys2Proof.Machine

set_option maxHeartbeats 400000

theorem assign_conds {win : Bool} {r : Req} {s : State} (h : AssignOk win r s = true) :
    (!zeroAt r.payload 2 2 || (List.range (rd r.payload 0 2)).any (fun i => !asgRsv r.payload i)
      || !(((assignEntries r).map (fun e => e.1)).eraseDups.length == ((assignEntries r).map (fun e => e.1)).length)
      || (assignEntries r).any (fun e => !asgOk (valueIn s win) e.2.1)
      || sharesStream (((assignEntries r).foldl (fun (t : Tbl LaneAsg) e => tset t e.1 e.2.1) (laneTable s win)).map (fun e => e.2))) = false ∧
    (assignEntries r).any (fun e => s.laneCount ≤ e.1 || !rfListed s e.2.1.port) = false := by
  unfold AssignOk at h
  simp only [Bool.and_eq_true] at h
  obtain ⟨⟨⟨⟨⟨a, b⟩, c⟩, d⟩, e⟩, f⟩ := h
  rw [a, Bool.not_eq_true' _ |>.mp b, c, Bool.not_eq_true' _ |>.mp d, Bool.not_eq_true' _ |>.mp e, Bool.not_eq_true' _ |>.mp f]
  exact ⟨rfl, rfl⟩

theorem laneAssign_eq (r : Req) (s : State) (hc : s.cfg.state ≠ .committing) (h : AssignOk (inWindowState s) r s = true) :
    laneAssign r s =
      if rd r.payload 0 2 = 0 then replyOk s (le 8 0)
      else if inWindowState s then
        match s.cfg.window with
        | some w => replyOk { s with cfg.window := some { w with lanes := (assignEntries r).foldl (fun (t : Tbl LaneAsg) e => tset t e.1 e.2.1) w.lanes } } (le 8 0)
        | none => refuse s .badState
      else
        let s1 := (assignEntries r).foldl (fun s e => setLane e.1 (fun x => { x with next := some e.2.1 }) s) s
        let s2 := (assignEntries r).foldl (fun s e => if e.2.2 then forceLane e.1 s else s) s1
        if (assignEntries r).all (fun e => (lane s2 e.1).next.isNone) then .twice s2 .ok (le 8 s2.now) else .pend s2 [.lanes] := by
  obtain ⟨a, b⟩ := assign_conds h
  unfold laneAssign
  dsimp only
  rw [if_neg (by simpa using hc), if_neg (by
    intro q
    have : _ = true := q
    exact absurd (a.symm.trans this) (by decide)), if_neg (by
    intro q
    exact absurd (b.symm.trans q) (by decide))]
  rfl

theorem laneRange_ok (p : List Byte) (m : Nat) (h1 : rd p 2 2 ≤ m) (h2 : rd p 0 2 + rd p 2 2 ≤ 256) :
    laneRange p m = some ((List.range (rd p 2 2)).map (fun i => rd p 0 2 + i)) := by
  unfold laneRange
  dsimp only
  rw [if_neg (by simp; omega)]

end Sys2Proof.Machine
end

