-- ==== Sys2Proof/Laws/EffectLanes.lean ====
section
/-! SUPPORT. Lemmas on the operations behind: what slots, frames and blanking do on RF ports and lanes. -/

namespace Sys2Proof.Machine

set_option maxHeartbeats 400000

theorem portDown_facts (p : Nat) (s : State) : (rfp (portDown p s) p).state = .down ∧ (rfp (portDown p s) p).training = true ∧
    (portDown p s).evt.pend.getLsbD 0x20 = true := by
  unfold portDown
  dsimp only
  rw [raise_keeps (fun u => rfp u p) (by intros; rfl), setRf_rfp]
  exact ⟨rfl, rfl, raise_set _ _ (by decide) (by decide)⟩

theorem pval_of {s u : State} (h : u.cfg = s.cfg) : ∀ id, pval u id = pval s id := by
  intro id
  unfold pval
  rw [h]

theorem cut_of {s u : State} (h : u.cfg = s.cfg) (k : Nat) : cutThrough u k = cutThrough s k := by
  unfold cutThrough
  rw [pval_of h, pval_of h]

theorem frameEnd_zero (l : Nat) (fin : FrameEnd) (s : State) (h : (lane s l).rx = .frame 0) :
    frameEnd l fin s =
      (let good := fcsHolds (lane s l) fin.fcs
       if trailerRoom (lane s l).queue then
         pushTrailers l (laneTrailer (if good then 0 else 1) (powerDbm s (lane s l).asg.port fin.power) fin.cfo fin.snr) (BitVec.ofNat 64 fin.endTime)
           (setLane l (countFrame good (modeIndex (lane s l).hdr) (powerDbm s (lane s l).asg.port fin.power)) (advTo fin.endTime s))
       else laneOverflow l s) := by
  unfold frameEnd
  simp only [h]

end Sys2Proof.Machine
end

