-- ==== Sys2Proof/Laws/EffectLedgerEngine.lean ====
section
/-! SUPPORT. Lemmas on the operations behind: what calendar transitions, sweeps, sealing, durability, power failure, the display and calendar opcodes do. -/

namespace Sys2Proof.Machine

set_option maxHeartbeats 400000

theorem jnlRefresh_pwr (s : State) : (jnlRefresh s).jnl.pwr = s.jnl.pwr := by
  unfold jnlRefresh
  split
  · rfl
  · rw [raise_keeps (fun u => u.jnl) (by intros; rfl)]

theorem durability_eq (p : Nat) (s : State) (h1 : (page s p).awaiting = true) (h2 : (page s p).late = false) : ∃ (m : Nat) (b : List Byte), durabilityExpiry p s = raise 0x50 (record rcDurable b
    { advMono m s with ledger := { (advMono m s).ledger with pages := tset (advMono m s).ledger.pages p { page s p with late := true } } }) := by
  unfold durabilityExpiry
  dsimp only
  rw [if_pos (by simp [h1, h2])]
  exact ⟨_, _, rfl⟩

theorem calRoot_updRoot (k : Nat) (f : CalRoot → CalRoot) (s : State) : calRoot (updRoot k f s) k = f (calRoot s k) := by
  unfold calRoot updRoot
  exact tget_tupd_same _ _ _ _

theorem sealedVer_owed (p : Nat) (s : State) : sealedVer (jnlSealOwed s) p = sealedVer s p := by
  unfold jnlSealOwed
  split
  · rfl
  · rw [jnlOne_keeps (fun u => sealedVer u p) (by intros; rfl)]
    rfl

theorem sealedVer_commitOne (p : Nat) (e : JEntry) (s : State) : sealedVer (commitOne e s) p = sealedVer s p := by
  have k : sealedVer (jnlRefresh (jnlEntries [e] (jnlSealOwed (jnlTime s)))) p = sealedVer s p := by
    rw [jnlRefresh_keeps (fun u => sealedVer u p) (by intros; rfl), jnlEntries_keeps (fun u => sealedVer u p) (by intros; rfl), sealedVer_owed,
      jnlTime_keeps (fun u => sealedVer u p) (by intros; rfl)]
  unfold commitOne jnlGroup jnlDone
  dsimp only
  split
  · exact k
  · exact k

theorem tariffAssign_takes (n : Nat) (r : Req) (s : State) (h : jnlTakes n s = true) : ¬ (n != 0 && !jnlTakes n (taken r s)) = true := by
  rw [jnlTakes_taken, h]
  simp

theorem sweep_same (n : Nat) (s : State) (k a b : Nat) : sweepNext (sweepTime n s) k a b = sweepNext s k a b := by
  unfold sweepTime
  exact advMono_keeps (fun u => sweepNext u k a b) (by intros; rfl) _ _

end Sys2Proof.Machine
end

