-- ==== Sys2Proof/Laws/EffectLifecycleOnlyAdvances.lean ====
section
/-! SUPPORT. Lemmas on the operations behind: the lifecycle state only advances, and a programmed customer key hash never changes. -/

namespace Sys2Proof.Machine

set_option maxHeartbeats 400000

def FLe (f g : Fuses) : Prop :=
  (∃ m : BitVec 4, g.row = f.row.map (fun c => c ||| m)) ∧ (∀ h, f.custHash = some h → g.custHash = some h) ∧
    g = { f with row := g.row, custHash := g.custHash }

theorem fle_same {f g : Fuses} (e : g = f) : FLe f g := by
  subst e
  exact ⟨⟨0, by simp⟩, fun _ h => h, rfl⟩

def lifeOf (f : Fuses) : Nat :=
  let maj := fun i => 2 ≤ (f.row.filter (fun c => c.getLsbD i)).length
  if maj 3 then 4 else if maj 2 then 3 else if maj 1 then 2 else if maj 0 then 1 else 0

theorem maj_mono (m : BitVec 4) (i : Nat) (l : List (BitVec 4)) :
    (l.filter (fun c => c.getLsbD i)).length ≤ ((l.map (fun c => c ||| m)).filter (fun c => c.getLsbD i)).length := by
  induction l with
  | nil => simp
  | cons c cs ih =>
    simp only [List.map_cons, List.filter_cons, BitVec.getLsbD_or]
    cases c.getLsbD i <;> cases m.getLsbD i <;> simp <;> omega

theorem life_mono {f g : Fuses} (h : FLe f g) : lifeOf f ≤ lifeOf g := by
  obtain ⟨⟨m, e⟩, -, -⟩ := h
  have h0 := maj_mono m 0 f.row
  have h1 := maj_mono m 1 f.row
  have h2 := maj_mono m 2 f.row
  have h3 := maj_mono m 3 f.row
  rw [← e] at h0 h1 h2 h3
  simp only [lifeOf]
  repeat' split
  all_goals omega

theorem f_life (r : Req) (s : State) : FLe s.fuses (lifecycleAdvance r s).st.fuses := by
  have ha : ∀ t (u : State), (advanceLifecycle t u).fuses = { u.fuses with row := u.fuses.row.map (fun c => c ||| (1#4 <<< (t - 1))) } := by
    intro t u
    unfold advanceLifecycle
    rw [raise_keeps (fun u => u.fuses) (by intros; rfl), record_keeps (fun u => u.fuses) (by intros; rfl)]
  have hb : ∀ t (u : State), u.fuses = s.fuses → FLe s.fuses (advanceLifecycle t u).fuses := by
    intro t u e
    rw [ha, e]
    exact ⟨⟨_, rfl⟩, fun _ h => h, rfl⟩
  unfold lifecycleAdvance
  dsimp only
  split
  · exact fle_same rfl
  · split
    · exact fle_same rfl
    · split
      · exact fle_same rfl
      · split
        · exact hb 3 s rfl
        · split
          · exact fle_same rfl
          · rw [replyOk_st]
            refine hb _ _ ?_
            have hf : ∀ (l : List Nat) (u : State), (l.foldl (fun s n => (destroySlot n s).1) u).fuses = u.fuses :=
              foldl_keeps (fun u => u.fuses) _ (fun u n => destroySlot_keeps (fun u => u.fuses) (by intros; rfl) n u)
            exact hf _ s

theorem f_cust (r : Req) (s : State) : FLe s.fuses (custKeyProgram r s).st.fuses := by
  unfold custKeyProgram
  split
  · exact fle_same rfl
  · next hc =>
    refine ⟨⟨0, by simp [replyOk_st]⟩, fun h hh => ?_, rfl⟩
    rw [hh] at hc
    simp at hc

def FRun (v : Service) : Prop := ∀ id r s, FLe s.fuses (v.run id r s).st.fuses

theorem fK {v : Service} (h : ∀ id r s, (v.run id r s).st.fuses = s.fuses) : FRun v := fun id r s => fle_same (h id r s)

theorem f_services : ∀ v ∈ services, FRun v := by
  have l1 : ∀ v ∈ servicesA, FRun v := List.forall_mem_cons.2 ⟨fK (fun _ _ _ => rfl),
    List.forall_mem_cons.2 ⟨fK (fwStageBegin_keeps (fun u => u.fuses) (by intros; rfl)),
    List.forall_mem_cons.2 ⟨fK (fun _ r s => fwStageWrite_keeps (fun u => u.fuses) (by intros; rfl) r s),
    List.forall_mem_cons.2 ⟨fK (fun _ _ s => fwStageCommit_keeps (fun u => u.fuses) (by intros; rfl) s),
    List.forall_mem_cons.2 ⟨fK (fun _ _ s => fwStageClear_keeps (fun u => u.fuses) (by intros; rfl) s),
    List.forall_mem_cons.2 ⟨fK (fun id _ s => fwPrepare_keeps (fun u => u.fuses) (by intros; rfl) id s),
    List.forall_mem_cons.2 ⟨fK (fun _ r s => fwMicrocodeAt_keeps (fun u => u.fuses) (by intros; rfl) r s),
    List.forall_mem_cons.2 ⟨fK (fun _ _ s => fwActivate_keeps (fun u => u.fuses) s),
    List.forall_mem_cons.2 ⟨fK (fun _ _ s => fwConfirm_keeps (fun u => u.fuses) (by intros; rfl) s),
    List.forall_mem_cons.2 ⟨fK (fun _ r s => fwHostBoot_keeps (fun u => u.fuses) (by intros; rfl) none r s),
    List.forall_mem_cons.2 ⟨fun _ r s => f_life r s,
    List.forall_mem_cons.2 ⟨fun _ r s => f_cust r s,
    fun _ h => nomatch h⟩⟩⟩⟩⟩⟩⟩⟩⟩⟩⟩⟩
  intro v hv
  simp only [services, List.mem_append] at hv
  rcases hv with ((((((((((hv | hv) | hv) | hv) | hv) | hv) | hv) | hv) | hv) | hv) | hv) | hv
  · exact fK (services1_keeps (fun u => u.fuses) (by intros; rfl) v hv)
  · exact fK (services2_keeps (fun u => u.fuses) (by intros; rfl) v hv)
  · exact fK (services3_keeps (fun u => u.fuses) (by intros; rfl) v hv)
  · exact fK (services4_keeps (fun u => u.fuses) (by intros; rfl) v hv)
  · exact fK (services5_keeps (fun u => u.fuses) (by intros; rfl) v hv)
  · exact fK (services6_keeps (fun u => u.fuses) (by intros; rfl) v hv)
  · exact fK (services7_keeps (fun u => u.fuses) (by intros; rfl) v hv)
  · exact fK (services8_keeps (fun u => u.fuses) (by intros; rfl) v hv)
  · exact fK (services9_keeps (fun u => u.fuses) (by intros; rfl) v hv)
  · exact l1 v hv
  · exact fK (servicesB_keeps (fun u => u.fuses) (by intros; rfl) v hv)
  · exact fK (servicesC_keeps (fun u => u.fuses) (by intros; rfl) v hv)

theorem f_serve (v : Service) (hv : FRun v) (r : Req) (s : State) : FLe s.fuses (serve v r s).fuses := by
  rcases serve_effect (fun u => u.fuses) (by intros; rfl) v r s with e | ⟨id, s1, e1, e2⟩
  · exact fle_same e
  · rw [e2, ← e1]; exact hv id r s1

theorem f_wait (id : Nat) (s : State) : FLe s.fuses (requestWaitEnd id s).fuses := by
  rcases requestWaitEnd_effect (fun u => u.fuses) (by intros; rfl) id s with e | ⟨v, hv, n, r, e⟩
  · exact fle_same e
  · rw [e]; exact f_services v hv n r s

end Sys2Proof.Machine
end

