-- ==== Sys2Proof/Laws/EffectLinks.lean ====
section
/-! SUPPORT. Lemmas on the operations behind: what a flit, a credit, a fence's end, a monitor sample and the recovery of C1 do. -/

namespace Sys2Proof.Machine

set_option maxHeartbeats 400000

theorem enterFault_last (st : SafeState) (c : Nat) (s : State) : (enterFault st c s).safe.lastCause = c ∧ (enterFault st c s).safe.lastFault = secs s := by
  unfold enterFault safetyRecord
  dsimp only
  rw [raise_keeps (fun u => u.safe) (by intros; rfl), record_keeps (fun u => u.safe) (by intros; rfl)]
  exact ⟨rfl, rfl⟩

theorem safetyFault_last (c : Nat) (s : State) : (safetyFault c s).safe.lastCause = c ∧ (safetyFault c s).safe.lastFault = secs s := by
  unfold safetyFault
  split
  · exact enterFault_last _ _ _
  · exact enterFault_last _ _ _
  · dsimp only
    split
    · exact ⟨rfl, rfl⟩
    · unfold safetyRecord
      rw [record_keeps (fun u => u.safe) (by intros; rfl)]
      exact ⟨rfl, rfl⟩

theorem jnlC1_c1 (on : Bool) (s : State) : (jnlC1 on s).jnl.c1 = on := by
  unfold jnlC1 jnlRefresh
  split
  · rfl
  · rw [raise_keeps (fun u => u.jnl) (by intros; rfl)]

end Sys2Proof.Machine
end

