-- ==== Sys2Proof/Laws/EffectMailboxGeometryHeld.lean ====
section
/-! SUPPORT. Lemmas on the operations behind: the geometry registers of a mailbox take writes only while it is disabled, and an illegal size never enables it. -/

namespace Sys2Proof.Machine

set_option maxHeartbeats 400000

theorem mapped_mbx (m off : Nat) (h : m < 16) (ho : off < 0x40) : bar0Mapped (0x20000 + 0x40 * m + off) = true := by
  unfold bar0Mapped
  have h1 : 0x20000 ≤ 0x20000 + 0x40 * m + off := by omega
  have h2 : 0x20000 + 0x40 * m + off < 0x20400 := by omega
  simp [h1, h2]

theorem regWrite_mbx (m off : Nat) (data : Word) (s : State) (h : m < 16) (ho : off < 0x40) : regWrite (0x20000 + 0x40 * m + off) data s = mbxRegWrite m off data s := by
  unfold regWrite
  simp only [show ¬ (0x20000 + 0x40 * m + off = 0x028) by omega, show ¬ (0x20000 + 0x40 * m + off = 0x02C) by omega, show ¬ (0x20000 + 0x40 * m + off = 0x1000) by omega,
    show ¬ (0x20000 + 0x40 * m + off = 0x1004) by omega, show ¬ (0x20000 + 0x40 * m + off = 0x3040) by omega, if_false]
  rw [if_neg (by simp; omega), if_neg (by simp; omega), if_neg (by simp; omega), if_neg (by simp; omega), if_neg (by simp; omega), if_pos (by simp; omega),
    show (0x20000 + 0x40 * m + off - 0x20000) / 0x40 = m by omega, show (0x20000 + 0x40 * m + off) % 0x40 = off by omega]

theorem write_mbx (m off : Nat) (data : Word) (s : State) (h : m < 16) (ho : off ∈ [0x00, 0x04, 0x08, 0x0C, 0x10, 0x14]) (hu : bar0Up s (0x20000 + 0x40 * m + off) = true) :
    exec (.registerWrite (0x20000 + 0x40 * m + off) 0xF data) s = .next (mbxRegWrite m off data s) := by
  have h1 : off < 0x40 ∧ off % 4 = 0 := by simp at ho; omega
  show Host.Outcome.next (registerWrite _ _ _ s) = _
  unfold registerWrite
  dsimp only
  rw [show (0x20000 + 0x40 * m + off) / 4 * 4 = 0x20000 + 0x40 * m + off by omega, if_neg (by omega), if_neg (by simp [hu]), if_neg (by simp [mapped_mbx m off h h1.1]), if_neg (by decide), regWrite_mbx m off data s h h1.1]

theorem up_mbx (m off : Nat) (s : State) (h : bar0Up s 0x20000 = true) : bar0Up s (0x20000 + 0x40 * m + off) = true := by
  unfold bar0Up at *
  simp at *
  exact ⟨h.1, .inl (.inl h.2)⟩

end Sys2Proof.Machine
end

