-- ==== Sys2Proof/Laws/EffectMailboxes.lean ====
section
/-! SUPPORT. Lemmas on the operations behind: what enabling, disabling, resetting, filling and draining a mailbox does. -/

namespace Sys2Proof.Machine

set_option maxHeartbeats 400000

theorem mbx_set (s : State) (m : Nat) (f : Mbx → Mbx) : mbx (setMbx m f s) m = f (mbx s m) := by
  unfold mbx setMbx; simp

theorem mbx_raise (n m : Nat) (s : State) : mbx (raise n s) m = mbx s m :=
  raise_keeps (fun u => mbx u m) (by intros; rfl) n s

theorem orphans (m k : Nat) : ∀ (l : List Rsp) (s : State), mbx (l.foldl (fun s r => orphanRecord k r s) s) m = mbx s m :=
  foldl_keeps (fun u => mbx u m) _ (fun s r => orphanRecord_keeps (fun u => mbx u m) (by intros; rfl) k r s)

theorem orphans_ops (k : Nat) : ∀ (l : List Rsp) (s : State), (l.foldl (fun s r => orphanRecord k r s) s).ops = s.ops :=
  foldl_keeps (fun u => u.ops) _ (fun s r => orphanRecord_keeps (fun u => u.ops) (by intros; rfl) k r s)

theorem mbx_divert (m : Nat) (s : State) : mbx (divertOwed m s) m = { mbx s m with fetchedOrphan := true, rspWait := [] } := by
  unfold divertOwed
  dsimp only
  rw [orphans]
  simp only [mbx, setMbx, tget_tupd_same]

theorem ops_divert (m : Nat) (s : State) :
    (divertOwed m s).ops = s.ops.map (fun o => if o.req.mbx = m then { o with orphan := true } else o) := by
  unfold divertOwed
  dsimp only
  rw [orphans_ops]
  simp [setMbx]

theorem mbx_error (m : Nat) (c : MbxCause) (s : State) (h : (mbx s m).halted = false) :
    mbx (mbxError m c s) m = { mbx s m with err := true, halted := true, cause := c, fetchedOrphan := true, rspWait := [], wrErr := false } ∧
    (mbxError m c s).ops = s.ops.map (fun o => if o.req.mbx = m then { o with orphan := true } else o) := by
  unfold mbxError
  simp only [h]
  constructor
  · rw [if_neg (by simp), mbx_raise, orphans]
    simp only [mbx, setMbx, tget_tupd_same]
  · rw [if_neg (by simp), raise_keeps (fun u => u.ops) (by intros; rfl), orphans_ops]
    simp [setMbx]

end Sys2Proof.Machine
end

