-- ==== Sys2Proof/Laws/EffectPipeline.lean ====
section
/-! SUPPORT. Lemmas on the operations behind: what the reading pipeline's commits, bundles, signing and opcodes do. -/

namespace Sys2Proof.Machine

set_option maxHeartbeats 400000

theorem jnlWait_eq (m id t : Nat) (f : Frame) (s : State) (h3 : s.jnl.state ≠ .normal) :
    (if (advMono m s).jnl.state = .normal then advMono m s else frameDone f { advMono m s with prov := { (advMono m s).prov with waitDisc := (advMono m s).prov.waitDisc + 1 } }) =
      frameDone f { advMono m s with prov := { (advMono m s).prov with waitDisc := s.prov.waitDisc + 1 } } := by
  rw [show (advMono m s).jnl = s.jnl from advMono_keeps (fun u => u.jnl) (by intros; rfl) m s, if_neg h3, show (advMono m s).prov = s.prov from advMono_keeps (fun u => u.prov) (by intros; rfl) m s]

theorem prSign_prov (b : Bundle) (s : State) : (prSignDue b s).prov = s.prov := by
  unfold prSignDue
  split
  · split
    · exact advMono_keeps (fun u => u.prov) (by intros; rfl) _ _
    · rfl
  · rfl

end Sys2Proof.Machine
end

