-- ==== Sys2Proof/Laws/EffectPowerLineOpcodes.lean ====
section
/-! SUPPORT. Lemmas on the operations behind: what the power-line opcodes answer and change. -/

namespace Sys2Proof.Machine

set_option maxHeartbeats 400000

theorem plcEp_taken (r : Req) (s : State) : plcEp r.payload (taken r s) = plcEp r.payload s := rfl

end Sys2Proof.Machine
end

