-- ==== Sys2Proof/Laws/EffectTransmissions.lean ====
section
/-! SUPPORT. Lemmas on the operations behind: how beacons, listening before talk, link acks and downlinks start, are missed or suppressed, end and are charged. -/

namespace Sys2Proof.Machine

set_option maxHeartbeats 400000

theorem mono_le_advMono (m : Nat) (s : State) : m ≤ (advMono m s).mono := by
  unfold advMono
  split
  · exact Nat.le_refl _
  · omega

theorem raise_keepbit (n i : Nat) (s : State) (h : s.evt.pend.getLsbD i = true) : (raise n s).evt.pend.getLsbD i = true := by
  rw [raise_pend]
  split
  · rw [BitVec.getLsbD_or, h]; rfl
  · exact h

theorem carryAll_secp (q : Nat) (w : CustodyEntry → Bool) (s : State) : ∃ cs, secp (carryAll q w s) q = { secp s q with custody := cs } := by
  unfold carryAll
  dsimp only
  rw [raiseIf_keeps (fun u => secp u q) (by intros; rfl), setSec_secp]
  exact ⟨_, rfl⟩

theorem setAcct_acct (p sb : Nat) (f : Duty → Duty) (s : State) : acct (setAcct p sb f s) p sb = f (acct s p sb) := by
  unfold acct setAcct
  exact tget_tupd_same _ _ _ _

theorem startTx_out (p ch : Nat) (edges : Int × Int) (cls : TxClass) (sector us dec : Nat) (cu : List (Nat × Nat)) (o : Output) (s : State) (f : Sector → Sector) :
    o ∈ (setSec p f (startTx p ch edges cls sector us dec cu [o] s)).out := by
  unfold startTx
  dsimp only
  show o ∈ [o].reverse ++ _
  simp

theorem startTx_secp (p ch : Nat) (edges : Int × Int) (cls : TxClass) (sector us dec : Nat) (cu : List (Nat × Nat)) (fs : List Output) (s : State) :
    ∃ x, secp (startTx p ch edges cls sector us dec cu fs s) p = { secp s p with tx := some x } := by
  unfold startTx
  dsimp only
  generalize hb : blankAll p _ (writeLevel p edges s) = b
  have hk : secp b p = secp s p := by
    rw [← hb, blankAll_keeps (fun u => secp u p) (by intros; rfl), writeLevel_keeps (fun u => secp u p) (by intros; rfl)]
  rw [setSec_secp, setRf_keeps (fun u => secp u p) (by intros; rfl)]
  rw [show secp { b with out := fs.reverse ++ b.out } p = secp b p from rfl, hk]
  exact ⟨_, rfl⟩

theorem chargeExpiry_eq (p sb : Nat) (c : Charge) (cs : List Charge) (s : State) (h : (acct s p sb).charges = c :: cs) :
    ∃ m : Nat, (c.at_ + windowMs) * 2 ^ 24 ≤ 1000 * m ∧
      chargeExpiry p sb s = setAcct p sb (fun d => { d with charges := d.charges.filter (fun c => 0 < chargeLeft (nowMs (advMono m s)) c) }) (advMono m s) := by
  unfold chargeExpiry
  rw [h]
  dsimp only
  generalize (c.at_ + windowMs) * 2 ^ 24 = w
  exact ⟨_, by omega, rfl⟩

theorem chargeTx_acct (p : Nat) (x : AirTx) (s : State) : acct (chargeTx p x s) p x.subBand = { acct s p x.subBand with
    charges := (acct s p x.subBand).charges ++ [{ cls := x.cls, quanta := nowMs s + 1 - x.monoFrom * 1000 / 2 ^ 24, at_ := nowMs s }], lastEnd := some s.mono } := by
  unfold chargeTx
  rw [setSec_keeps (fun u => acct u p x.subBand) (by intros; rfl), setAcct_acct]

theorem setSec_tx (q p : Nat) (f : Sector → Sector) (hf : ∀ y, (f y).tx = y.tx) (s : State) : (secp (setSec q f s) p).tx = (secp s p).tx := by
  by_cases h : p = q
  · rw [h, setSec_secp, hf]
  · rw [setSec_secp_other q f s p h]

theorem txEnd_eq (p t : Nat) (x : AirTx) (s : State) (h1 : (secp s p).tx = some x) :
    ∃ (u : State) (f : RfPort → RfPort), txEnd p t s = setRf p f u ∧ (secp u p).tx = none ∧ (f (rfp u p)).txenRise = u.mono ∧
      (acct u p x.subBand).charges = (acct s p x.subBand).charges ++ [{ cls := x.cls, quanta := nowMs u + 1 - x.monoFrom * 1000 / 2 ^ 24, at_ := nowMs u }] ∧
      (acct u p x.subBand).lastEnd = some u.mono := by
  unfold txEnd
  rw [h1]
  dsimp only
  generalize hc : chargeTx p x (advTo (max t x.from_) s) = c
  generalize hv : List.foldl _ (setSec x.sector (dropCustody x.custody) (setSec p _ c)) x.custody = v
  have fold : ∀ {β : Type} (P : State → β), (∀ (s : State) x0, P { s with eps := x0 } = P s) →
      P v = P (setSec x.sector (dropCustody x.custody) (setSec p (fun y => { y with tx := none }) c)) := by
    intro β P hP
    rw [← hv]
    exact foldl_keeps P _ (fun s y => noteEp_keeps P hP _ _ _) _ _
  have e1 : (secp v p).tx = none := by
    rw [fold (fun u => (secp u p).tx) (by intros; rfl), setSec_tx _ _ _ (by intro y; rfl), setSec_secp]
  have e2 : acct v p x.subBand = acct c p x.subBand := by
    rw [fold (fun u => acct u p x.subBand) (by intros; rfl), setSec_keeps (fun u => acct u p x.subBand) (by intros; rfl), setSec_keeps (fun u => acct u p x.subBand) (by intros; rfl)]
  have e3 : v.mono = (advTo (max t x.from_) s).mono := by
    rw [fold (fun u => u.mono) (by intros; rfl), setSec_keeps (fun u => u.mono) (by intros; rfl), setSec_keeps (fun u => u.mono) (by intros; rfl), ← hc,
      chargeTx_keeps (fun u => u.mono) (by intros; rfl)]
  have e4 : nowMs v = nowMs (advTo (max t x.from_) s) := by unfold nowMs; rw [e3]
  rw [← hc, chargeTx_acct, advTo_keeps (fun u => acct u p x.subBand) (by intros; rfl), ← e3, ← e4] at e2
  by_cases hr : (rfp v p).state = .transmitting
  · exact ⟨v, _, if_pos hr, e1, rfl, by rw [e2], by rw [e2]⟩
  · exact ⟨v, _, if_neg hr, e1, rfl, by rw [e2], by rw [e2]⟩

theorem deepOpen_secp (q b : Nat) (s : State) : ∃ cs dd dl, secp (deepOpen q b s) q = { secp s q with custody := cs, deepDue := dd, deepLbt := dl } := by
  unfold deepOpen
  dsimp only
  have h1 : ∃ cs, secp (if (secp s q).deepDue.isSome then carryAll q (fun e => e.deep) s else s) q = { secp s q with custody := cs } := by
    split
    · exact carryAll_secp q _ s
    · exact ⟨_, rfl⟩
  generalize (if (secp s q).deepDue.isSome then carryAll q (fun e => e.deep) s else s) = v at h1 ⊢
  obtain ⟨cs, h1⟩ := h1
  split <;> rw [setSec_secp, h1] <;> exact ⟨_, _, _, rfl⟩

end Sys2Proof.Machine
end

