-- ==== Sys2Proof/Laws/EffectPowerLineReception.lean ====
section
/-! SUPPORT. Lemmas on the operations behind: how power-line frames are received and reads, custody, neighbours, links, routes and calibration kept up. -/

namespace Sys2Proof.Machine

set_option maxHeartbeats 400000

theorem symDoom_eq (q : Nat) (sym : PlcSymIn) (rx r : PlcRx) (s : State) (h1 : (plcp s q).rx = some rx) (h2 : rx.ended = false) (h3 : rx.doomed = false) (h4 : plcHears s q = true)
    (h5 : r = takeSoft sym.soft rx (judgeSymbol sym.snr sym.clipPm rx)) :
    plcSymbol q sym s = if allowance r.mode < r.erased
      then setPlc q (fun p =>
        let fq := qDoom (cutThrough s (256 + q)) p.queue
        { p with rx := some { r with doomed := true }, queue := if dirUp s then dropHead fq else fq }) s
      else rxOctets q (decoded r sym.ready) false (setPlc q (fun p => { p with rx := some r }) s) := by
  unfold plcSymbol
  rw [h1]
  dsimp only
  rw [if_neg (by simp [h2, h4]), h3, if_neg Bool.false_ne_true, ← h5]
  rw [show (!false && decide (allowance r.mode < r.erased)) = decide (allowance r.mode < r.erased) from rfl]
  by_cases c : allowance r.mode < r.erased
  · rw [if_pos (by simpa using c), if_pos c]
  · rw [if_neg (by simpa using c), if_neg c]

theorem frameEnd_eq (q : Nat) (fin : PlcEnd) (rx0 rx : PlcRx) (u s : State) (h1 : (plcp s q).rx = some rx0) (h2 : rx0.ended = false) (h3 : plcHears s q = true)
    (h4 : u = rxOctets q (decoded rx0 rx0.len) true (advTo fin.endTime s)) (h5 : (plcp u q).rx = some rx) (h6 : rx.overflow = false) (h7 : trailerRoom (plcp u q).queue = true) :
    ∃ (t0 : DWord) (v : State), plcFrameEnd q fin s =
      frameVerdict q (countPlc q (if rx.doomed then 2 else if plcFcsHolds rx then 0 else if 0 < rx.erased then 2 else 1)
        (pushPlcTrailers q t0 (BitVec.ofNat 64 fin.endTime) (setPlc q (fun p => { p with report := reportOf rx fin.groups }) v))) := by
  unfold plcFrameEnd
  rw [h1]
  dsimp only
  rw [if_neg (by simp [h2, h3]), ← h4, h5, h7]
  rw [show (some rx).getD rx0 = rx from rfl, h6]
  simp only [Bool.not_true, Bool.or_false, Bool.false_eq_true, if_false]
  exact ⟨_, _, rfl⟩

/-- The status that the calibration of a port ends with, and the port after it. -/
def calStatus (m : CalIn) : Nat := if m.ldFault then 3 else if m.gain < -4000 || 600 < m.gain then 2 else 0

def calPort (m : CalIn) (b : Nat) (sc : Int) (x : PlcPort) : PlcPort :=
  { x with state := if calStatus m = 0 then .idle else .fault, ldEnN := true, band := b, scale := if calStatus m = 0 then sc else x.scale, cal := { x.cal with status := calStatus m, flags := b2n (decide (m.zMag.getD 1 0 < 20)) + 2 * b2n (decide (10000 < m.zMag.getD 1 0)), gain := m.gain, zMag := (List.range 3).map (fun i => m.zMag.getD i 0), zPhase := (List.range 3).map (fun i => m.zPhase.getD i 0), time := m.time } }

def calAfter (q : Nat) (m : CalIn) (s : State) : State :=
  noteCaps s (raiseIf (calStatus m != 0) 0x31 (setPlc q (calPort m (plcVal (advTo m.time s) q 1) (10 * plcVal (advTo m.time s) q 3 - m.gain)) (advTo m.time s)))

theorem calDone_eq (q : Nat) (m : CalIn) (s : State) (h1 : q < 16) (h2 : (plcp s q).state = .calibrating) (h3 : islUp s (islPlc q) = true) (h4 : (isl s (islPlc q)).bistDue = false) :
    calDone q m s = finishOps (recalOps (calAfter q m s) q) .ok (calBytes q (plcp (calAfter q m s) q).cal) (raiseIf (!(recalOps (calAfter q m s) q).isEmpty) 0x37 (calAfter q m s)) := by
  unfold calDone
  exact if_pos (by simp [h1, h2, h3, h4])

theorem calAfter_port (q : Nat) (m : CalIn) (s : State) : plcp (calAfter q m s) q = calPort m (plcVal (advTo m.time s) q 1) (10 * plcVal (advTo m.time s) q 3 - m.gain) (plcp (advTo m.time s) q) := by
  unfold calAfter
  rw [noteCaps_keeps (fun u => plcp u q) (by intros; rfl), raiseIf_keeps (fun u => plcp u q) (by intros; rfl), setPlc_plcp]

theorem raiseIf_keepbit (c : Bool) (n i : Nat) (s : State) (h : s.evt.pend.getLsbD i = true) : (raiseIf c n s).evt.pend.getLsbD i = true := by
  unfold raiseIf
  split
  · exact raise_keepbit n i s h
  · exact h

theorem header_eq (q : Nat) (hdr : PlcHdrIn) (fq : FtQueue) (s : State) (h1 : plcHears s q = true) (h2 : (plcp s q).rx = none) (h3 : headerBad hdr.bits hdr.crc = false)
    (h4 : inListening s q hdr.at_ = true) (h5 : rxQueue (advTo hdr.at_ s) q (plcHeaderWord q hdr.bits hdr.snr) false 0 = some fq) :
    plcHeader q hdr s = setPlc q (fun p => { p with rx := some { mode := bits hdr.bits.toNat 1 0, hdrSnr := hdr.snr, len := bits hdr.bits.toNat 20 12, left := bits hdr.bits.toNat 20 12 - 4 }, queue := fq }) (advTo hdr.at_ s) := by
  unfold plcHeader
  rw [if_neg (by simp [h1, h2]), if_neg (by simp [h3]), if_neg (by simp [h4])]
  dsimp only
  rw [h5]

end Sys2Proof.Machine
end

