-- ==== Sys2Proof/Laws/EffectPowerLineTransactions.lean ====
section
/-! SUPPORT. Lemmas on the operations behind: how power-line transactions start, retry, succeed and fail, and what line-driver faults do. -/

namespace Sys2Proof.Machine

set_option maxHeartbeats 400000

theorem setRun_running (x : PlcTxn) (s : State) : tfind (setRun x s).plcMac.running x.port = some x := tfind_tset_same _ _ _

theorem txnStep_none (s : State) (x : PlcTxn) (h : x.camp = none) : txnStep s x = none := by unfold txnStep; rw [h]; rfl

theorem startTxn_eq (x : PlcTxn) (e : Endpoint) (key : List Byte) (u s : State) (h1 : ep? s x.handle = some e) (h2 : x.camp = none) (h3 : dlKey x.handle s = (u, some key)) :
    ∃ (k : Nat) (cu : List Nat) (sec : List Byte) (w : State), startTxn x s =
      plcTransmit { x with pseq := (s.plcMac.pseq + 1) % 65536, relays := pollRelays s x.handle e, gale := !routeUsable s x.handle e, group := groupOf s x.port, net := plcVal s x.port 2, respMax := plcVal s x.port 5, kind := k, custody := cu, dcnt := (nextDcnt x.handle u).2, secured := sec, attempt := 1 } w := by
  unfold startTxn
  rw [h1]
  dsimp only
  have hs : txnStep s { x with pseq := (s.plcMac.pseq + 1) % 65536, relays := pollRelays s x.handle e, gale := !routeUsable s x.handle e, group := groupOf s x.port, net := plcVal s x.port 2, respMax := plcVal s x.port 5 } = none :=
    txnStep_none s _ h2
  simp only [hs, h3]
  exact ⟨_, _, _, _, rfl⟩

theorem ldFault_facts (q t : Nat) (s : State) (h1 : q < 16) (h2 : (plcp s q).state = .transmitting) : ∃ v : State, v.evt.pend.getLsbD 0x30 = true ∧ (plcp v q).state = .idle ∧
    (plcp v q).ldFaults = (plcp s q).ldFaults + 1 ∧ v.plcMac = s.plcMac ∧
    ldFault q t s = (if 3 ≤ 1 + ((plcp s q).faults.filter (fun u => (advTo t s).mono < u + tSec 60)).length
      then endPortTxns q (noteCaps v (raise 0x31 (setPlc q (fun p => { p with state := .fault }) v)))
      else match tfind v.plcMac.running q with
        | some x => setRun { x with inAttempt := false, ldRetry := true, nextAt := v.mono + tSec 1 } v
        | none => v) := by
  unfold ldFault
  rw [if_neg (by simp [h1, h2])]
  dsimp only
  rw [show plcp (advTo t s) q = plcp s q from advTo_keeps (fun u => plcp u q) (by intros; rfl) t s]
  generalize hv : raise 0x30 (setPlc q _ (advTo t s)) = v
  have e : plcp v q = { plcp s q with state := .idle, ldEnN := true, ldFaultN := false, ldFaults := (plcp s q).ldFaults + 1, faults := ((advTo t s).mono :: (plcp s q).faults.filter (fun u => (advTo t s).mono < u + tSec 60)).take 3 } := by
    rw [← hv, raise_keeps (fun u => plcp u q) (by intros; rfl), setPlc_plcp, advTo_keeps (fun u => plcp u q) (by intros; rfl)]
  refine ⟨v, ?_, by rw [e], by rw [e], ?_, ?_⟩
  · rw [← hv]; exact raise_set _ _ (by decide) (by decide)
  · rw [← hv, raise_keeps (fun u => u.plcMac) (by intros; rfl), setPlc_keeps (fun u => u.plcMac) (by intros; rfl), advTo_keeps (fun u => u.plcMac) (by intros; rfl)]
  · rw [List.length_cons, Nat.add_comm]
    all_goals rfl

end Sys2Proof.Machine
end

