-- ==== Sys2Proof/Laws/EffectQueues.lean ====
section
/-! SUPPORT. Lemmas on the operations behind: what a push, a doom, a read, a discard and a notice do to a fall-through queue. -/

namespace Sys2Proof.Machine

set_option maxHeartbeats 400000

theorem ftq_set (k : Nat) (f : FtQueue → FtQueue) (s : State) (h : k < 272) : ftq (setFtq k f s) k = f (ftq s k) := by
  unfold setFtq ftq
  by_cases q : k < 256
  · simp only [if_pos q, setLane_lane]
  · simp only [if_neg q, if_pos h, setPlc_plcp]

theorem qTry_idle (thr : Nat) (q : FtQueue) (h : q.readRes ≠ .waiting) : qTry thr q = q := by
  unfold qTry
  rw [if_neg h]

theorem qDrop_nil (q : FtQueue) (h : q.packets = []) : qDrop q = { q with dropIdle := true } := by
  cases q
  dsimp only at h
  subst h
  rfl

theorem qRead_head (thr : Nat) (q : FtQueue) (p : QPacket) (w : QWord) (ws : List QWord) (rest : List QPacket) (h2 : q.packets = p :: rest)
    (h3 : p.words = w :: ws) (h4 : qReady thr p = true) :
    (qRead thr q).readRes = .word w.word w.isEnd p.doomed false ∧ (qRead thr q).taken = q.taken ++ [w] := by
  unfold qRead qTry qHead
  rw [if_pos rfl]
  dsimp only
  have e1 : (p :: rest).find? (fun p => !p.words.isEmpty) = some p := by simp [h3]
  rw [h2, e1]
  dsimp only
  rw [if_pos h4]
  unfold qTake
  dsimp only
  have e2 : (p :: rest).span (fun p => p.words.isEmpty) = ([], p :: rest) := by simp [List.span, List.span.loop, h3]
  rw [e2]
  dsimp only
  rw [h3]
  exact ⟨rfl, rfl⟩

theorem qRead_empty (thr : Nat) (q : FtQueue) (h : q.packets = []) : qRead thr q = { q with readRes := .waiting } := by
  unfold qRead qTry qHead
  rw [if_pos rfl]
  dsimp only
  rw [h]
  rfl

end Sys2Proof.Machine
end

