-- ==== Sys2Proof/Laws/EffectRelease.lean ====
section
/-! SUPPORT. Lemmas on the operations behind: what each release stage, lock failure and lock retry does. -/

namespace Sys2Proof.Machine

set_option maxHeartbeats 400000

theorem optionLoad_boot (opt : OptLoad) (s : State) : (optionLoad opt s).boot.stageRun = s.boot.stageRun ∧ (optionLoad opt s).boot.bootsrc = s.boot.bootsrc ∧
    (optionLoad opt s).boot.clkmode = s.boot.clkmode ∧ (optionLoad opt s).boot.bootOvr = s.boot.bootOvr := by
  unfold optionLoad
  dsimp only
  repeat' split
  all_goals first
    | exact ⟨rfl, rfl, rfl, rfl⟩
    | (rw [record_keeps (fun u => u.boot) (by intros; rfl)]; exact ⟨rfl, rfl, rfl, rfl⟩)

theorem deriveKeys_boot (s : State) : (deriveKeys s).boot.stageRun = s.boot.stageRun ∧ (deriveKeys s).boot.bootsrc = s.boot.bootsrc ∧
    (deriveKeys s).boot.clkmode = s.boot.clkmode ∧ (deriveKeys s).boot.bootOvr = s.boot.bootOvr := by
  unfold deriveKeys
  dsimp only
  split <;> exact ⟨rfl, rfl, rfl, rfl⟩

theorem end_eq (st : BitVec 4) (o : OptLoad) (s : State) (hf : fenceWaits s = false) :
    (s.boot.stageRun = 2 → releaseStageEnd st o s = stage2 st o s) ∧
    (s.boot.stageRun = 3 → releaseStageEnd st o s = { s with boot.synthLock := true, boot.stageRun := 4 }) ∧
    (s.boot.stageRun = 4 → releaseStageEnd st o s = stage4 s) ∧ (s.boot.stageRun = 5 → releaseStageEnd st o s = stage5 s) ∧
    (s.boot.stageRun = 6 → releaseStageEnd st o s = stage6 s) := by
  unfold releaseStageEnd
  rw [if_neg (by simp [hf])]
  refine ⟨fun h => ?_, fun h => ?_, fun h => ?_, fun h => ?_, fun h => ?_⟩ <;> simp only [h]

theorem dprstDone_stageRun (s : State) : (dprstDone s).boot.stageRun = s.boot.stageRun := by
  unfold dprstDone
  split
  · dsimp only
    rw [finishOps_keeps (fun u => u.boot) (by intros; rfl), raise_keeps (fun u => u.boot) (by intros; rfl)]
  · rfl

end Sys2Proof.Machine
end

