-- ==== Sys2Proof/Laws/EffectRequests.lean ====
section
/-! SUPPORT. Lemmas on the operations behind: fetching a request, answering it in the ring, and the end of a wait. -/

namespace Sys2Proof.Machine

set_option maxHeartbeats 400000

theorem setMbx_setMbx (m : Nat) (f g : Mbx → Mbx) (s : State) : setMbx m g (setMbx m f s) = setMbx m (fun x => g (f x)) s := by
  unfold setMbx; simp only [tupd_tupd]

theorem turn_fetchable (s : State) (m : Nat) (h : turn s = some m) : fetchable s m = true := List.find?_some h

end Sys2Proof.Machine
end

