-- ==== Sys2Proof/Laws/EffectResets.lean ====
section
/-! SUPPORT. Lemmas on the operations behind: what each reset source leaves, absorbs and requests. -/

namespace Sys2Proof.Machine

set_option maxHeartbeats 400000

theorem tfind_range {α : Type} (f : Nat → α) (k : Nat) (i : Nat) (h : i < k) :
    ∀ (l : List Nat), i ∈ l → tfind (l.map (fun j => (j, f j))) i = some (f i)
  | [], hm => by simp at hm
  | x :: xs, hm => by
    simp only [List.map_cons, tfind]
    by_cases e : x = i
    · subst e; simp
    · simp only [e]
      rcases List.mem_cons.1 hm with h' | h'
      · exact absurd h'.symm e
      · simp
        exact tfind_range f k i h xs h'

theorem enterReset_isl (j : Nat) (s : State) (i : Nat) : (isl (enterReset j s) i).inReset = (isl s i).inReset := by
  have key : ∀ (v : State) (o : List Output), v.isl = s.isl →
      (isl { setIsl j (fun x => { x with waitFrom := none }) v with out := o } i).inReset = (isl s i).inReset := by
    intro v o hv
    unfold isl setIsl
    dsimp only
    rw [hv]
    by_cases e : i = j
    · subst e; rw [tget_tupd_same]
    · rw [tget_tupd_other _ _ _ _ e]
  unfold enterReset
  split
  · refine key _ _ (foldl_keeps (fun u => u.isl) _ (fun s d => ?_) _ _)
    split
    · split
      · rfl
      · rfl
    · rfl
  · rfl

theorem enterReset_all (l : List Nat) (i : Nat) (s : State) :
    (isl (l.foldl (fun s j => enterReset j s) s) i).inReset = (isl s i).inReset :=
  foldl_keeps (fun u => (isl u i).inReset) _ (fun s j => enterReset_isl j s i) l s

theorem holdAll_isl (src : RstSrc) (but : Nat → Bool) (s : State) (i : Nat) (h : i < 35) (hb : but i = false) :
    (isl (holdAll src but s) i).inReset = true := by
  unfold holdAll
  dsimp only
  rw [enterReset_all]
  unfold isl
  dsimp only
  unfold tget
  rw [tfind_range _ 35 i h _ (List.mem_range.2 h)]
  simp [hb]

theorem resetMain_isl (src : RstSrc) (s : State) (i : Nat) (h : i < 34) : (isl (resetMain src s) i).inReset = true := by
  have hr : (i == islRecorder) = false := by simp [islRecorder]; omega
  have h0 := fun (b : Bool) (v : State) => holdAll_isl src (fun i => b && i == islRecorder) v i (by omega) (by simp [hr])
  unfold resetMain
  unfold isl at h0 ⊢
  dsimp only
  exact h0 _ _

theorem resetMain_leaves (src : RstSrc) (s : State) :
    (∃ d, (resetMain src s).boot = { keptBoot src s.boot with draining := d }) ∧ (resetMain src s).cfg = {} ∧ (resetMain src s).mbxs = [] ∧ (resetMain src s).ops = [] ∧
    (resetMain src s).keys = {} ∧ (resetMain src s).pcie = keptPcie src s.pcie ∧ (resetMain src s).mem = keptMem src s.mem ∧
    (resetMain src s).fuses = s.fuses ∧ (resetMain src s).jnv = s.jnv ∧ (resetMain src s).fwNv = s.fwNv ∧ (resetMain src s).slateNv = s.slateNv ∧
    (resetMain src s).bkp = s.bkp ∧ (resetMain src s).mono = s.mono ∧ (src = .cold → (resetMain src s).slots = {}) := by
  unfold resetMain
  dsimp only
  refine ⟨⟨_, rfl⟩, rfl, rfl, rfl, rfl, rfl, rfl, rfl, rfl, rfl, rfl, rfl, rfl, fun e => ?_⟩
  rw [if_pos e]

theorem bit_self {w : Nat} (x : BitVec w) (n : Nat) (h : n < w) : (x ||| (1#w <<< n)).getLsbD n = true := by
  simp [BitVec.getLsbD_or, h]

theorem le_advMono (m : Nat) (s : State) : m ≤ (advMono m s).mono := by
  unfold advMono
  split
  · exact Nat.le_refl _
  · omega

theorem cold_reset (bit : Nat) (s : State) (hb : bit < 8) :
    (coldAssert bit s).boot.por = s.boot.por ∧ (coldAssert bit s).boot.nreset = s.boot.nreset ∧
    (coldAssert bit s).boot.stageRun = 0 ∧ (coldAssert bit s).boot.cause.getLsbD bit = true ∧
      (∀ i, i < 34 → (isl (coldAssert bit s) i).inReset = true) ∧ (coldAssert bit s).cfg = {} ∧ (coldAssert bit s).mbxs = [] ∧
      (coldAssert bit s).ops = [] ∧ (coldAssert bit s).keys = {} ∧ (coldAssert bit s).pcie = {} ∧ (coldAssert bit s).mem = {} ∧
      (coldAssert bit s).slots = {} ∧ (coldAssert bit s).fuses = s.fuses ∧ (coldAssert bit s).jnv = s.jnv ∧ (coldAssert bit s).fwNv = s.fwNv ∧
      (coldAssert bit s).slateNv = s.slateNv ∧ (coldAssert bit s).bkp = s.bkp := by
  unfold coldAssert
  dsimp only
  have hbit : (if (sequenceRuns s && s.boot.widest == .cold) = true then s.boot.cause ||| (1#8 <<< bit) else (1#8 <<< bit)).getLsbD bit = true := by
    split
    · exact bit_self _ _ hb
    · simp [hb]
  generalize (if (sequenceRuns s && s.boot.widest == .cold) = true then s.boot.cause ||| (1#8 <<< bit) else (1#8 <<< bit)) = b at hbit ⊢
  obtain ⟨⟨d, h1⟩, h2, h3, h4, h5, h6, h7, h8, h9, h10, h11, h12, -, h13⟩ := resetMain_leaves .cold { s with boot.cause := b, boot.causeRec := b }
  refine ⟨by rw [h1]; rfl, by rw [h1]; rfl, by rw [h1]; rfl, by rw [h1]; exact hbit, fun i h => resetMain_isl .cold _ i h, h2, h3, h4, h5, ?_, ?_,
    h13 rfl, h8, h9, h10, h11, h12⟩
  · rw [h6]; rfl
  · rw [h7]; rfl

theorem holdIsland_isl (j : Nat) (s : State) (i : Nat) : (isl s i).inReset = true → (isl (holdIsland j s) i).inReset = true := by
  intro h
  unfold holdIsland
  split
  · dsimp only
    rw [enterReset_isl]
    have hf : (fenceIsl j s).isl = s.isl := fenceIsl_keeps (fun u => u.isl) (by intros; rfl) _ _
    unfold isl setIsl at *
    dsimp only
    by_cases e : i = j
    · subst e; rw [tget_tupd_same]
    · rw [tget_tupd_other _ _ _ _ e, hf]
      exact h
  · exact h

theorem holdIsland_self (i : Nat) (s : State) (h : i < 35) (hp : islPresent s i = true) : (isl (holdIsland i s) i).inReset = true := by
  unfold holdIsland
  rw [if_pos (by simp [hp, h])]
  dsimp only
  rw [enterReset_isl]
  unfold isl setIsl
  simp

theorem hold_list : ∀ (l : List Nat) (s : State) (i : Nat), (∀ j ∈ l, j < 35) → islPresent s i = true → (i ∈ l ∨ (isl s i).inReset = true) →
    (isl (l.foldl (fun s i => holdIsland i s) s) i).inReset = true
  | [], s, i, _, _, h => by simpa using h
  | j :: l, s, i, hl, hp, h => by
    simp only [List.foldl_cons]
    have hp' : islPresent (holdIsland j s) i = true := by
      rw [holdIsland_keeps (fun u => islPresent u i) (by intros; rfl)]; exact hp
    refine hold_list l _ i (fun k hk => hl k (List.mem_cons_of_mem _ hk)) hp' ?_
    rcases h with h | h
    · rcases List.mem_cons.1 h with h | h
      · subst h; exact .inr (holdIsland_self i s (hl i (by simp)) hp)
      · exact .inl h
    · exact .inr (holdIsland_isl j s i h)

end Sys2Proof.Machine
end

