-- ==== Sys2Proof/Laws/EffectRotation.lean ====
section
/-! SUPPORT. Lemmas on the operations behind: what rotation, lane tests, island BIST, the repair ledger and the maintenance arbiter do. -/

namespace Sys2Proof.Machine

set_option maxHeartbeats 400000

theorem late_eq (k : Nat) (s : State) (h1 : k < 272) (h2 : laneWorks s k = true) (h3 : s.laneCount ≠ 0) (h4 : rotationState s = 0) (h5 : s.rot.lateRaised.contains k = false) : rotationLate k s = raise 0xB4 { advMono (tget s.rot.lastStep k 0 + tSec 900) s with rot := { (advMono (tget s.rot.lastStep k 0 + tSec 900) s).rot with lateRaised := (advMono (tget s.rot.lastStep k 0 + tSec 900) s).rot.lateRaised ++ [k] } } := by
  unfold rotationLate
  rw [if_neg (by rw [h2, h4, h5]; simp [h3]; omega)]

theorem late_rot (m : Nat) (k : Nat) (s : State) (h1 : k < 272) (h2 : laneWorks s k = true) (h3 : s.laneCount ≠ 0) (h4 : rotationState s = 0) (h5 : s.rot.lateRaised.contains k = false) : (raise 0xB4 { advMono m s with rot := { (advMono m s).rot with lateRaised := (advMono m s).rot.lateRaised ++ [k] } }).rot.lateRaised = s.rot.lateRaised ++ [k] := by
  rw [raise_keeps (fun u => u.rot) (by intros; rfl)]
  dsimp only
  rw [advMono_keeps (fun u => u.rot) (by intros; rfl)]

theorem late_ok (k : Nat) (s : State) (h1 : k < 272) (h2 : laneWorks s k = true) (h3 : s.laneCount ≠ 0) (h4 : rotationState s = 0) (h5 : s.rot.lateRaised.contains k = false) : (rotationLate k s).evt.pend.getLsbD 0xB4 = true ∧ (rotationLate k s).rot.lateRaised = s.rot.lateRaised ++ [k] := by
  rw [late_eq k s h1 h2 h3 h4 h5]
  exact ⟨raise_set _ _ (by decide) (by decide), late_rot _ k s h1 h2 h3 h4 h5⟩

end Sys2Proof.Machine
end

