-- ==== Sys2Proof/Laws/EffectSlate.lean ====
section
/-! SUPPORT. Lemmas on the operations behind: what the Slate recorder's writes, buckets, checkpoints, scrub and opcodes do. -/

namespace Sys2Proof.Machine

set_option maxHeartbeats 400000

theorem refill_eq (code t0 g : Nat) (s : State) (h1 : code < 512) (h2 : (tget s.slate.buckets code {}).clock = some (t0, g)) (h3 : 0 < (tget s.slate.buckets code {}).used)
    (h4 : 0 < (slateRate s code).1) : ∃ m, tokenRefill code s = { advMono m s with slate := { (advMono m s).slate with buckets := tset (advMono m s).slate.buckets code { tget s.slate.buckets code {} with used := (tget s.slate.buckets code {}).used - 1, clock := if (tget s.slate.buckets code {}).used = 1 then none else some (t0, g + 1) } } } := by
  refine ⟨t0 + (g + 1) * tSec 60 / (slateRate s code).1, ?_⟩
  unfold tokenRefill
  dsimp only
  rw [h2]
  dsimp only
  rw [if_neg (by
    simp only [Bool.or_eq_true, decide_eq_true_eq]
    exact fun q => q.elim (fun q => q.elim (fun q => Nat.ne_of_gt h4 q) (fun q => Nat.ne_of_gt h3 q)) (by omega))]

theorem ckpt_eq (s : State) (h : recorderRuns s = true) (h1 : s.slate.moved = true) (h2 : s.slateNv.state = .normal) :
    ∃ m, checkpointWrite 0 s = (let s1 := advMono m s
      let tailOff := match s1.slateNv.ring with
        | r :: _ => r.off
        | [] => s1.slateNv.wrOff
      let ck : Ckpt := { valid := true, headSeq := writtenHead s1, headOff := s1.slateNv.wrOff, tailSeq := slateTail s1, tailOff := tailOff, retired := retiredCount s1 }
      let s2 := if s1.slate.nextB then { s1 with slateNv.ckB := ck } else { s1 with slateNv.ckA := ck }
      { s2 with slate.nextB := !s1.slate.nextB, slate.moved := !s1.slate.queue.isEmpty, slate.lastCkpt := s1.mono }) := by
  refine ⟨s.slate.lastCkpt + tSec 1, ?_⟩
  unfold checkpointWrite
  rw [if_pos (by simp [h, h1, h2])]
  dsimp only
  rw [if_neg (by omega)]
  all_goals rfl

end Sys2Proof.Machine
end

