-- ==== Sys2Proof/Tests/Slice0.lean ====
section
/-! SUPPORT. The model's own tests: what the well-formedness check refuses, small steps with results worked out from the manual, and a state that
meets the hypotheses of each statement. -/

namespace Sys2Proof.Tests

open Sys2Proof.Machine

set_option maxHeartbeats 1000000

/-! ### Well-formedness: each check refuses a term outside its range, and takes the last one inside -/

theorem wf_mbxOk : (Instr.mbxEnable 16).wellFormed = false ∧ (Instr.mbxEnable 15).wellFormed = true := by decide

theorem wf_reqOk : (Instr.nop { mbx := 16, tag := 0, payload := [] }).wellFormed = false ∧ (Instr.nop { mbx := 15, tag := 0, payload := [] }).wellFormed = true := by
  decide

theorem wf_reqLength : reqOk { mbx := 0, tag := 0, payload := List.replicate 65536 0 } = false := by
  unfold reqOk
  rw [List.length_replicate]
  decide

theorem wf_regAddrOk : (Instr.registerWrite 0x2A 0xF 0).wellFormed = false ∧ (Instr.registerWrite 0x100000 0xF 0).wellFormed = false
    ∧ (Instr.registerWrite 0x28 0xF 0).wellFormed = true := by decide

theorem wf_vectorOk : (Instr.msixUnmask (some 64)).wellFormed = false ∧ (Instr.msixUnmask (some 63)).wellFormed = true := by decide

theorem wf_linkOk : (Instr.creditReturn 402).wellFormed = false ∧ (Instr.creditReturn 401).wellFormed = true := by decide

theorem wf_auditOk : (Instr.creditAudit [{ dir := 402, sent := 0, received := 0, released := 0, returned := 0, held := 0 }]).wellFormed = false := by decide

theorem wf_rfOk : (Instr.rxclkStop 8).wellFormed = false ∧ (Instr.rxclkStop 7).wellFormed = true := by decide

theorem wf_plcOk : (Instr.ldFaultRetry 16).wellFormed = false ∧ (Instr.ldFaultRetry 15).wellFormed = true := by decide

theorem wf_laneOk : (Instr.laneSwitch 256).wellFormed = false ∧ (Instr.laneSwitch 255).wellFormed = true := by decide

theorem wf_linkAck : (Instr.linkAckTx 8 0).wellFormed = false ∧ (Instr.linkAckTx 0 256).wellFormed = false := by decide

theorem wf_physOk : (Instr.dataplaneBist [] ⟨[272], []⟩).wellFormed = false ∧ (Instr.dataplaneBist [] ⟨[271], []⟩).wellFormed = true := by decide

theorem wf_queueOk : (Instr.queueRead 272).wellFormed = false ∧ (Instr.queueRead 271).wellFormed = true := by decide

theorem wf_handleOk : (Instr.readDue 0x100000).wellFormed = false ∧ (Instr.readDue 0xFFFFF).wellFormed = true := by decide

theorem wf_chanOk : (Instr.dmaPiWrite 32 0).wellFormed = false ∧ (Instr.dmaPiWrite 31 0).wellFormed = true := by decide

theorem wf_zoneOk : zoneOk 16384 = false ∧ zoneOk 16383 = true := by decide

theorem wf_campOk : (Instr.campDeadline 64).wellFormed = false ∧ (Instr.campDeadline 63).wellFormed = true := by decide

theorem wf_regOk : (Instr.rtcRegRead 9).wellFormed = false ∧ (Instr.rtcRegRead 8).wellFormed = true := by decide

theorem wf_dataIslandOk : (Instr.dataplaneBist [29] ⟨[], []⟩).wellFormed = false ∧ (Instr.dataplaneBist [28] ⟨[], []⟩).wellFormed = true := by decide

theorem wf_coreIslandOk : (Instr.coreBist [28] ⟨none, [], []⟩).wellFormed = false ∧ (Instr.coreBist [35] ⟨none, [], []⟩).wellFormed = false
    ∧ (Instr.coreBist [34] ⟨none, [], []⟩).wellFormed = true := by decide

theorem wf_linkModeOk : (Instr.pcieLinkTrain 8 25).wellFormed = false ∧ (Instr.pcieLinkTrain 4 30).wellFormed = false
    ∧ (Instr.pcieLinkTrain 4 80).wellFormed = true := by decide

theorem wf_rankOk : (Instr.ddrTraining [{ rank := 2, failedStep := none, mib := 4096 }]).wellFormed = false
    ∧ (Instr.ddrTraining [{ rank := 1, failedStep := none, mib := 4096 }]).wellFormed = true := by decide

theorem wf_trainOk : trainOk { magicSeen := true, tries := List.replicate 21 { regs := [], runs := [], wordOk := true, slip := 0, rxErr := 0, txErr := 0, loopOk := true, loopDelay := 0 } } = false := by
  decide

theorem wf_offsetOk : (Instr.plcOffsetCal [(16, 0, 0)]).wellFormed = false ∧ (Instr.plcOffsetCal [(15, 0, 0)]).wellFormed = true := by decide

theorem wf_partOk : (Instr.fwPrepareDone (some 3)).wellFormed = false ∧ (Instr.fwPrepareDone (some 2)).wellFormed = true := by decide

theorem wf_requestBytes : (Instr.requestFetch 0 (List.replicate 15 0)).wellFormed = false := by decide

theorem wf_eventWord : (Instr.evtEnWrite 8 0).wellFormed = false ∧ (Instr.evtEnWrite 7 0).wellFormed = true := by decide

theorem wf_subBand : (Instr.chargeExpiry 0 8).wellFormed = false ∧ (Instr.chargeExpiry 0 7).wellFormed = true := by decide

theorem wf_scrubRank : (Instr.patrolScrub { here := { rank := 2, row := 0, syms := [], wrongAddr := false }, mirror := { rank := 0, row := 0, syms := [], wrongAddr := false }, item := .none, sram := .none }).wellFormed = false := by decide

theorem wf_calIndex : (Instr.ledgerSweep 256 0).wellFormed = false := by decide

theorem wf_page : (Instr.durabilityExpiry 65536).wellFormed = false ∧ (Instr.durabilityExpiry 65535).wellFormed = true := by decide

theorem wf_unzoned : (Instr.unzonedPost 901).wellFormed = false ∧ (Instr.unzonedPost 900).wellFormed = true := by decide

theorem wf_slateCode : (Instr.tokenRefill 512).wellFormed = false ∧ (Instr.tokenRefill 511).wellFormed = true := by decide

theorem wf_year : (Instr.rtcYearWrite 4096).wellFormed = false ∧ (Instr.rtcYearWrite 4095).wellFormed = true := by decide

theorem wf_tamper : (Instr.tamperActivation ⟨4, true⟩).wellFormed = false ∧ (Instr.tamperActivation ⟨3, true⟩).wellFormed = true := by decide

theorem wf_islrst : (Instr.islrst 29).wellFormed = false ∧ (Instr.islrst 28).wellFormed = true := by decide

theorem wf_genLock : (Instr.genLockTimeout 35).wellFormed = false ∧ (Instr.genLockTimeout 34).wellFormed = true := by decide

theorem wf_lateLane : (Instr.rotationLate 272).wellFormed = false ∧ (Instr.rotationLate 271).wellFormed = true := by decide

theorem wf_maintAct : (Instr.maintTokenGrant 7).wellFormed = false ∧ (Instr.maintTokenGrant 6).wellFormed = true := by decide

/-! ### Small steps, with results worked out from the manual -/

/-- 15 R399: after 2399-12-31 23:59:59.1023 the calendar reads 2000-01-01 00:00:00.000 and the year overflows. -/
theorem test_calendar_wraps :
    calTick { year := 2399, month := 12, day := 31, hour := 23, min := 59, sec := 59, subsec := 1023, wday := 6 } = ({ }, true, true) := by decide

/-- 15 R399: 2100 is no leap year. -/
theorem test_no_leap_day_2100 : (calTick { year := 2100, month := 2, day := 28, hour := 23, min := 59, sec := 59, subsec := 1023 }).1.month = 3 := by decide

/-- 15 R402: 29 February 2100 is refused, 29 February 2000 is valid. -/
theorem test_write_set_days : calValid { year := 2100, month := 2, day := 29 } = false ∧ calValid { year := 2000, month := 2, day := 29 } = true := by decide

/-- 15 R404: engine time counts from 2000-01-01T00:00:00Z; 2000-03-01 is 60 days later. -/
theorem test_engine_epoch : calSecs {} = 0 ∧ calSecs { month := 3, day := 1 } = 60 * 86400 := by decide

/-- 20 R496: while the host island is in reset every BAR0 write is discarded. -/
theorem test_reset_ignores_write : ∃ t, exec (.registerWrite 0x28 0xF 5) State.reset = .next t ∧ t.glb.scratch = 0 := ⟨_, rfl, by decide⟩

/-- 14 R374: SEQ 0xFFFFFFFF lies below SEQ 1, which wraps past it. -/
theorem test_seq_below_wraps : seqBelow 0xFFFFFFFF 1 = true ∧ seqBelow 1 0xFFFFFFFF = false := by decide

/-- 20 R500's example: EVT_ROUTE register 8 resets to 0x2322_2120. -/
theorem test_evt_route_reset : barRead { State.reset with isl := [(33, { clkRun := true, lock := true, inReset := false })], boot.por := false } 0x10120 = 0x23222120 := by decide

/-- 20 R505's example: logical lane 41 on physical lane 44, stream 5 of RFP3, SUN FSK, rate mask 0b0011. -/
theorem test_lane_41 : ∀ s, s = { State.reset with isl := [(33, { clkRun := true, lock := true, inReset := false })], boot.por := false, laneCount := 256, roles := [(44, .serving 41)], lanes := [(41, { asg := { port := 3, stream := 5, mode := 1, rateMask := 3 } })] } →
    barRead s 0x40520 = 0x002C0029 ∧ barRead s 0x40524 = 0x03010503 := by
  intro s h
  subst h
  decide

/-- No row of the opcode table gives bits, so no word decodes. -/
theorem test_no_word_decodes : decodeTableWord 32 0x0C00 = none := by decide

/-- Table 03-11: port 0 is enabled and RF_CENTRE_HZ, a required parameter, has not been written: the commit fails on 0x2041. -/
theorem test_commit_fails_on_unwritten : lowest (commitFails State.reset { vals := [(0x2040, 1)], written := [0x2040, 0x2044] }) = some 0x2040 ∧
    lowest (commitFails { State.reset with boot.stage := 9, rf := [(0, { state := .disabled, train := { rates := 0xF } })] }
      { vals := [(0x2040, 1)], written := [0x2040, 0x2044] }) = some 0x2041 := by
  decide

/-! ### Witnesses: the hypotheses of each statement hold together somewhere -/

theorem witness_EmptyQueueIdles : State.reset.pending = [] := by decide

theorem witness_CreditsStayWhole :
    CreditsWhole { State.reset with pending := [.supplyToMain] } ∧
    step { State.reset with pending := [.supplyToMain] } = .next (supplyToMain State.reset) := by
  refine ⟨fun d a b c e => ?_, rfl⟩
  have hl : tget ({ State.reset with pending := [.supplyToMain] } : State).links d {} = ({} : LinkDir) := rfl
  simp [heldCredits, e, linkDir, hl]

theorem witness_AuditAgreesWithoutUpset : CreditsWhole State.reset := by
  intro d a b c e _
  have hl : tget State.reset.links d {} = ({} : LinkDir) := rfl
  simp [heldCredits, e, linkDir, hl]

theorem witness_ConfigurationMovesAsTabled :
    CfgSound { State.reset with cfg := { state := .configuring, window := some {} }, pending := [.supplyToMain] } ∧
    step { State.reset with cfg := { state := .configuring, window := some {} }, pending := [.supplyToMain] } =
      .next (supplyToMain { State.reset with cfg := { state := .configuring, window := some {} } }) := by
  refine ⟨?_, rfl⟩
  simp [CfgSound]

theorem witness_LifecycleOnlyAdvances :
    ({ State.reset with fuses.custHash := some [1], pending := [.supplyToMain] } : State).fuses.custHash = some [1] ∧
    step { State.reset with fuses.custHash := some [1], pending := [.supplyToMain] } = .next (supplyToMain { State.reset with fuses.custHash := some [1] }) :=
  ⟨rfl, rfl⟩

def hostUp : State := { isl := (List.range 36).map (fun i => (i, { clkRun := true, lock := true, inReset := false })), boot.por := false, boot.stage := 0xB }

theorem witness_RegisterAccessEffects :
    bar0Up hostUp 0x028 = true ∧ bar0Up hostUp 0x1004 = true ∧ (bar0Up hostUp 0xF000 = true ∧ bar0Mapped 0xF000 = false) ∧
    (bar0Mapped 0x028 = true ∧ (3 : BitVec 4) ≠ 0xF) ∧ (isl State.reset 33).inReset = true ∧ bar0Up hostUp 0x020 = true ∧
    (bar0Up hostUp 0x1000 = true ∧ (0x5A01 : Word).getLsbD 0 = true ∧ (0x5A01 : Word).extractLsb' 8 8 = 0x5A) ∧
    (0x5B01 : Word).extractLsb' 8 8 ≠ 0x5A ∧
    ((tget ({ hostUp with chans := [(3, { state := .idle, log2 := 4 })] } : State).chans 3 {}).state = .idle ∧ (16 : Word) ≠ 0 ∧
      ((16 : Word) - 0).toNat ≤ 2 ^ 4) ∧ (bar0Up hostUp (0x10020 + 4 * 7) = true ∧ 7 < 8) := by decide

/-- A state whose host island answers, with mailbox 2 as given. -/
def mbxUp (x : Mbx) : State := { isl := (List.range 36).map (fun i => (i, { clkRun := true, lock := true, inReset := false })), boot.por := false, boot.stage := 0xB, mbxs := [(2, x)] }

theorem witness_MailboxRegisterEffects :
    (bar0Up (mbxUp {}) 0x20000 = true ∧ (mbx (mbxUp { reqLog2 := 6, rspLog2 := 16 }) 2).en = false ∧
      mbxCanEnable (mbxUp { reqLog2 := 6, rspLog2 := 16 }) 2 = true ∧ sizeOk 6 = true ∧ sizeOk 16 = true) ∧
    (mbxCanEnable (mbxUp { reqLog2 := 6, rspLog2 := 5 }) 2 = true ∧ sizeOk 5 = false) ∧
    (mbx (mbxUp { en := true }) 2).en = true ∧
    (((7 : Word) - 0).toNat ≤ 2 ^ (6 : BitVec 5).toNat ∧ (7 : Word) ≠ 0) ∧
    ((mbx (mbxUp { en := true, reqLog2 := 6 }) 2).halted = false ∧
      2 ^ (mbx (mbxUp { en := true, reqLog2 := 6 }) 2).reqLog2.toNat < ((65 : Word) - (mbx (mbxUp { en := true, reqLog2 := 6 }) 2).reqCI).toNat) ∧
    (((3 : Word) - (mbx (mbxUp { en := true, rspPI := 3 }) 2).rspCI).toNat ≤
      ((mbx (mbxUp { en := true, rspPI := 3 }) 2).rspPI - (mbx (mbxUp { en := true, rspPI := 3 }) 2).rspCI).toNat) ∧
    (((mbx (mbxUp { en := true, rspPI := 3 }) 2).rspPI - (mbx (mbxUp { en := true, rspPI := 3 }) 2).rspCI).toNat <
      ((4 : Word) - (mbx (mbxUp { en := true, rspPI := 3 }) 2).rspCI).toNat) ∧
    ((mbx (mbxUp { rspLog2 := 6, rspWait := [⟨5, 0x100, 0, true, []⟩] }) 2).rspWait = [⟨5, 0x100, 0, true, []⟩] ∧
      (mbxUp {}).fw.pause = none ∧ rspSlots ⟨5, 0x100, 0, true, []⟩ ≤ rspFree (mbx (mbxUp { rspLog2 := 6, rspWait := [⟨5, 0x100, 0, true, []⟩] }) 2)) := by
  decide

theorem witness_EventBlockEffects :
    bar0Up (mbxUp {}) 0x10000 = true ∧ (isl (mbxUp {}) 33).inReset = false ∧ (mbxUp {}).evt.pba.getLsbD 63 = false ∧ (mbxUp {}).evt.pba = 0 ∧
    (let s : State := { mbxUp {} with pcie.msixEn := true, evt.pba := 0x20, evt.held := [(5, 5)], evt.route := [(5, 5)] }
     s.evt.pba.getLsbD 5 = true ∧ (∀ h ∈ s.evt.held, h.2 = 5 → evtRoute s h.1 = 5) ∧ s.evt.held.any (fun h => h.2 == 5) = true) ∧
    (let s : State := { mbxUp {} with pcie.msixEn := true, evt.en := 1 <<< 0x16, pcie.msix := [(0x16, { mask := false })] }
     s.evt.pend.getLsbD 0x16 = false ∧ s.evt.en.getLsbD 0x16 = true ∧ (tget s.pcie.msix (evtRoute s 0x16) {}).mask = false) ∧
    (State.evt { State.reset with evt.pend := 1 <<< 0x16 }).pend.getLsbD 0x16 = true := by decide

theorem witness_RequestsFetchedAndAnswered :
    (let s := mbxUp { en := true, reqLog2 := 6, rspLog2 := 6, reqPI := 2 }
     turn s = some 2 ∧ turn s ≠ some 3 ∧ reqSlots (rd [0, 1, 0, 0, 7, 0, 0, 0] 2 2) ≤ 2 ^ (mbx s 2).reqLog2.toNat ∧
      reqSlots (rd [0, 1, 0, 0, 7, 0, 0, 0] 2 2) ≤ ((mbx s 2).reqPI - (mbx s 2).reqCI).toNat ∧
      opcodeDefined (rd [0, 1, 0, 0, 7, 0, 0, 0] 0 2) = true ∧ opcodeDefined (rd [5, 1, 0, 0, 7, 0, 0, 0] 0 2) = false ∧
      2 ^ (mbx s 2).reqLog2.toNat < reqSlots (rd [0, 1, 0xFF, 0xFF, 7, 0, 0, 0] 2 2) ∧
      ((mbx s 2).reqPI - (mbx s 2).reqCI).toNat < reqSlots (rd [0, 1, 0xFF, 0, 7, 0, 0, 0] 2 2)) ∧
    (let s := mbxUp { en := true, reqLog2 := 6, rspLog2 := 6, fetched := some (0x0100, ⟨2, 7, []⟩) }
     Served nopService ⟨2, 7, []⟩ s = true ∧ (mbx s 2).en = true ∧ (mbx s 2).halted = false ∧ (mbx s 2).rspWait = [] ∧ (mbx s 2).wrErr = false ∧
      1 ≤ rspFree (mbx s 2)) ∧
    (let s := mbxUp { en := true, reqLog2 := 6, rspLog2 := 6, fetched := some (0x0110, ⟨2, 7, [1]⟩) }
     serves s 2 = true ∧ takes 2 0x0110 ⟨2, 7, [1]⟩ s = true ∧ (mbx s 2).fetchedOrphan = false) ∧
    (let s := { mbxUp { en := true, fetched := some (0x0110, ⟨2, 7, []⟩) } with boot.stage := 5 }
     bringingUp s = true ∧ serves s 2 = true ∧ takes 2 0x0110 ⟨2, 7, []⟩ s = true) ∧
    (let o : PendOp := { id := 4, opcode := 0x0100, req := ⟨2, 7, []⟩, kind := .waiting, orphan := false, objs := [] }
     let s := { mbxUp { en := true, reqLog2 := 6, rspLog2 := 6 } with ops := [o] }
     findOp s 4 = some o ∧ (serviceOf o.opcode).map (fun v => v.opcode) = some 0x0100 ∧ s.fw.pause = none ∧ server s ≠ .nobody ∧
      heldBack nopService o s = false ∧ accepted nopService s = true) := by decide

/-- A served device: the host island answers, mailbox 0 is enabled, bring-up is over, and the configuration is in state c. -/
def reqUp (c : CfgState) : State :=
  { hostUp with mbxs := [(0, { en := true, reqLog2 := 6, rspLog2 := 6 })], cfg.state := c, laneCount := 264 }

/-- A request of mailbox 0. -/
def rq (p : List Byte) : Req := { mbx := 0, tag := 7, payload := p }

/-- The state whose mailbox holds r, fetched, for v: nothing else of s is touched. -/
def reqHeld (v : Service) (r : Req) (s : State) : State := setMbx r.mbx (fun x => { x with fetched := some (v.opcode, r) }) s

/-- Request r comes to run for v where the mailbox of s holds it. -/
def served (v : Service) (r : Req) (s : State) : Bool := Served v r (reqHeld v r s)

/-- An open window that writes these values. -/
def winUp (c : CfgState) (w : Window) : State := { reqUp c with cfg.window := some w }

theorem witness_ConfigurationCommandEffects :
    (served configBeginService (rq []) (reqUp .unconfigured) = true ∧ served configBeginService (rq []) (reqUp .committed) = true ∧
      served configBeginService (rq []) (reqUp .configuring) = true) ∧
    (served configCommitService (rq []) (winUp .configuring {}) = true ∧ commitFails (winUp .configuring {}) {} = []) ∧
    (let w : Window := { lanes := [(0, { mode := 1, port := 0 })] }
     let s : State := { winUp .reconfiguring w with rf := [(0, { state := .absent })] }
     served configCommitService (rq []) s = true ∧ lowest (commitFails s w) = some (pidRf 0 0)) ∧
    (served configAbortService (rq []) (reqUp .configuring) = true ∧ served configAbortService (rq []) (reqUp .reconfiguring) = true ∧
      served configStateGetService (rq []) (reqUp .committed) = true ∧ served capsGetService (rq []) (reqUp .committed) = true) ∧
    (let r := rq [1, 0, 1, 0, 0, 0, 0, 0]; let s := reqUp .configuring
     served paramBlockWriteService r s = true ∧ rd r.payload 2 1 = 1 ∧ zeroAt r.payload 3 1 = true ∧ zeroAt r.payload 6 2 = true ∧
       rd r.payload 0 2 = curFormat (taken r s) 1 ∧ firstEntryBad (taken r s) 1 [] 0 (blockEntries r.payload 0 8) = none ∧
       blockEnd (blockEntries r.payload 0 8) = r.payload.length) ∧
    (let r := rq [1, 0, 1, 0, 1, 0, 0, 0]; let s := reqUp .configuring
     served paramBlockWriteService r s = true ∧ (firstEntryBad (taken r s) 1 [] 0 (blockEntries r.payload 1 8)).isSome = true) ∧
    (let r := rq [0, 0x10, 2, 0]; let s := reqUp .configuring
     served paramBlockReadService r s = true ∧ rd r.payload 0 2 = 0x1000 ∧ rd r.payload 2 1 = 2 ∧ rd r.payload 3 1 = 0) ∧
    ((winUp .committing {}).cfg.window = some {} ∧ (isl (winUp .committing {}) islControl).inReset = false ∧
      enabledBy (winUp .committing {}) {} = []) ∧
    (let s : State := { reqUp .committed with fw.pause := some (0, 0) }
     s.fw.pause = some (0, 0) ∧ s.fwNv.active.isSome = true ∧ s.fwNv.trial = none ∧ (isl s islControl).inReset = false) := by decide

/-- A state whose sector 0 transmits: port 0 receives at 868 MHz with profile 0, anchor channel 0 and map channels 0 to 7. -/
def sectorUp : State :=
  { reqUp .committed with cfg := { state := .committed, everCommitted := true, vals := [(pidRf 0 0, 1), (pidRf 0 1, 868000000), (pidRf 0 2, 3), (pidRf 0 3, 3), (pidSector 0 0, 1), (pidSector 0 4, 0xFFFFFFFFFFFF0000), (pidSector 0 9, 0xFF), (pidSector 0 0xA, 0), (pidSector 0 0xC, 1000)], profiles := [(0, [(0, { fLo := 860000000, fHi := 876000000, duty := 100, maxOnMs := 4000, minOffMs := 0, lbtReq := false, immAck := true, lbtListenUs := 5000, lbtThresh := -800, beMin := 3, beMax := 5, nbMax := 4, dwellMaxMs := 0, dwellWindowS := 0, txLevel := 100 })])] }, rf := [(0, { state := .receiving })] }

/-- A state whose power-line port 0 polls endpoint 0, as given, with a key. -/
def plcUp (e : Endpoint) : State :=
  { sectorUp with cfg := { sectorUp.cfg with vals := sectorUp.cfg.vals ++ [(pidPlc 0 0, 1)] }, plc := [(0, { state := .idle, present := true })], eps := [(0, { e with plc := true, port := 0 })], blobs := [(0, { wrapped := [], wslot := 2, wgen := 3 })], slots := { slots := [(2, { typ := 2, usage := 0x40, gen := 3 })], base := 0, allSpent := false }, jnl := { (reqUp .committed).jnl with replayed := true, state := .normal } }

/-- A state in which direction 0 is as given. -/
def linkUp (x : LinkDir) : State := { hostUp with links := [(0, x)] }

theorem witness_LinkAndMonitorEffects :
    (dirOpen hostUp 0 = true ∧ 0 < heldCredits hostUp 0) ∧ heldCredits (linkUp { spent := 16, occupied := 16 }) 0 = 0 ∧
    (let s := linkUp { spent := 1, occupied := 1, sent := 1, received := 1 }
     dirOf 0 = some (17, 0, 16) ∧ dirPresent s 0 = true ∧ 0 < (linkDir s 0).occupied ∧ (linkDir s 0).expired = false ∧ (isl s 0).waitFrom = none) ∧
    (let s : State := { linkUp { spent := 3, occupied := 3, fenced := true } with isl := [(0, { inReset := true, waitFrom := some 9 }), (17, { inReset := false })] }
     dirOf 0 = some (17, 0, 16) ∧ (isl s 0).waitFrom = some 9 ∧ awaited s 0 0 = true) ∧
    (islHeld hostUp islControl = false ∧ (1 : BitVec 8) ≠ 0 ∧ hostUp.mon.out = 0) ∧
    (let s : State := { hostUp with mon.out := 1 }
     islHeld s islControl = false ∧ s.mon.out ≠ 0) ∧
    (let s : State := { hostUp with mon.backAt := some 5, jnl.c1 := true }
     s.mon.backAt = some 5 ∧ s.mon.out = 0 ∧ s.jnl.c1 = true) := by decide

theorem witness_ResetSourceEffects :
    (hostUp.boot.por = false ∧ hostUp.boot.nreset = false ∧ coldHeld hostUp = false) ∧
    (State.reset.boot.por = true ∧ State.reset.boot.nreset = false) ∧
    (let s : State := { hostUp with boot.por := true, boot.nreset := true }
     s.boot.por = true ∧ s.boot.nreset = true) ∧
    (let s : State := { hostUp with boot.nreset := true }
     s.boot.nreset = true ∧ s.boot.por = false) ∧
    (let s : State := { hostUp with boot.wdtArmed := true, boot.sysReq := some 3, boot.dpReq := true }
     s.boot.wdtArmed = true ∧ coldHeld s = false ∧ absorbed .wdt s = false ∧ absorbed .sysrst s = false ∧ absorbed .dprst s = false ∧
       absorbed .islrst s = false) ∧
    (let s : State := { hostUp with isl := hostUp.isl.map (fun e => (e.1, { e.2 with lastIslrst := some 0 })) }
     islPresent s 3 = true ∧ islExcluded s 3 = false ∧ (isl s 3).inReset = false ∧ islUp s islControl = true ∧ absorbed .islrst s = false ∧
       resetLately (isl s 3) s = true) ∧
    (let s : State := { hostUp with boot.wdtArmed := true, boot.sysReq := some 3, boot.dpReq := true, boot.stageRun := 2 }
     coldHeld s = false ∧ absorbed .wdt s = true ∧ absorbed .sysrst s = true ∧ absorbed .dprst s = true ∧ absorbed .islrst s = true) ∧
    (let s : State := { hostUp with boot.draining := true }
     s.boot.draining = true ∧ s.slate.queue = []) ∧
    (islPresent hostUp 3 = true ∧ islExcluded hostUp 3 = false ∧ (isl hostUp 3).inReset = false ∧ islUp hostUp islControl = true ∧
      resetLately (isl hostUp 3) hostUp = false) ∧
    (let s : State := { reqUp .committed with boot.dpRun := true }
     served resetRequestService (rq [2, 0, 0, 0]) s = true ∧ zeroAt (rq [2, 0, 0, 0]).payload 1 3 = true ∧
       served resetRequestService (rq [1, 0, 0, 0]) (reqUp .unconfigured) = true ∧ served resetRequestService (rq [1, 0, 0, 0]) s = true) := by
  decide

theorem witness_ReleaseStageEffects :
    (let s : State := { hostUp with boot.stageRun := 5, boot.dpRun := true }
     fenceWaits s = false ∧ s.boot.stageRun = 5 ∧ s.boot.dpRun = true ∧ hostUp.boot.dpRun = false ∧ hostUp.boot.draining = false) ∧
    fenceWaits { State.reset with isl := [(3, { waitFrom := some 0 })] } = true ∧
    (fenceWaits State.reset = false ∧ islPresent State.reset 3 = true ∧ (isl State.reset 3).inReset = true ∧ islExcluded State.reset 3 = false ∧ (isl State.reset 3).lockRetries = 0) ∧
    (let s : State := { State.reset with isl := [(3, { lockRetries := 1 })], boot.stageRun := 5, boot.widest := .islrst }
     islPresent s 3 = true ∧ (isl s 3).inReset = true ∧ 4 ≤ s.boot.stageRun ∧ (isl s 3).lockRetries = 1 ∧ s.boot.widest = .islrst) ∧
    (let s : State := { State.reset with isl := [(3, { lockRetries := 1 })], boot.stageRun := 5 }
     islPresent s 3 = true ∧ (isl s 3).inReset = true ∧ 4 ≤ s.boot.stageRun ∧ (isl s 3).lockRetries = 1 ∧ s.boot.widest ≠ .dprst ∧ s.boot.widest ≠ .islrst) ∧
    (let s : State := { State.reset with boot.stageRun := 3 }
     s.boot.stageRun = 3 ∧ s.boot.synthLock = false) := by decide

theorem witness_BringupEffects :
    (let s : State := { hostUp with boot.stage := 3 }
     s.boot.stage = 3 ∧ s.boot.fail = 0 ∧ ∀ k, k < 6 → (isl s (29 + k)).inReset = false) ∧
    (let s : State := { hostUp with boot.synthLock := true }
     s.boot.synthLock = true ∧ s.pcie.up = false ∧ [1, 2, 4].contains 2 = true ∧ [25, 50, 80, 160].contains 160 = true) ∧
    (let s : State := { hostUp with boot.stage := 4 }
     s.boot.stage = 4 ∧ s.boot.fail = 0 ∧ s.mem.ranks = []) ∧
    (let s : State := { hostUp with boot.stage := 4, mem := { installedMiB := 4096, ranks := [(0, { trained := true })] } }
     s.boot.stage = 4 ∧ s.boot.fail = 0 ∧ s.mem.ranks ≠ [] ∧ 4096 ≤ s.mem.installedMiB) ∧
    (let s : State := { hostUp with boot.fail := 0x80 }
     s.boot.fail ≠ 0) ∧
    (let s : State := { hostUp with boot.stage := 5 }
     s.boot.fail = 0 ∧ s.boot.stage = 5 ∧ s.boot.stageRun = 0) ∧
    (let s : State := { hostUp with rf := [(1, { training := true })] }
     (rfp s 1).training = true ∧ (rfp s 1).trainRun = false ∧ trainable s 1 = true) ∧
    (let s : State := { hostUp with rf := [(1, { training := true, trainRun := true })] }
     let t : TrainTry := { regs := [0x1A7C, 1, 17, 1, 2, 5, 1, 5, 4, 100], runs := [(0, 30, false), (0, 30, false), (0, 30, false)], wordOk := true,
                           slip := 0, rxErr := 0, txErr := 0, loopOk := true, loopDelay := 4 }
     (rfp s 1).trainRun = true ∧ portGoal s 1 ≠ .awaitTc ∧ (rfp s 1).state ≠ .receiving ∧ (rfp s 1).state ≠ .transmitting ∧
       ((runSteps [t, t, t, t, t] 1 1 {} []).map (fun e => e.1.result)) = some 0) ∧
    (let s : State := { hostUp with boot.stage := 7 }
     s.boot.stage = 7 ∧ s.boot.stageRun = 0 ∧ [(2, (3 : Int), (4 : Int))].find? (fun e => e.1 == 2) = some (2, 3, 4) ∧
       islUp s (islPlc 2) = true ∧ islExcluded s (islPlc 2) = false) ∧
    (let s : State := { hostUp with boot.stage := 8 }
     s.boot.stage = 8 ∧ s.boot.stageRun = 0) ∧
    (served trainReportGetService (rq [1, 0, 0, 0]) (reqUp .unconfigured) = true ∧ rd (rq [1, 0, 0, 0]).payload 0 1 = 1 ∧
      zeroAt (rq [1, 0, 0, 0]).payload 1 3 = true) := by decide

theorem witness_FirmwareUpdateEffects :
    (let r := rq (le 4 4096 ++ le 4 0); let s : State := { reqUp .unconfigured with fwNv.slotSize := 5242880 }
     served fwStageBeginService r s = true ∧ zeroAt r.payload 4 4 = true ∧ rd r.payload 0 4 = 4096 ∧ rd r.payload 0 4 ≤ s.fwNv.slotSize ∧ s.fw.upd = .none) ∧
    (let r := rq (le 4 0 ++ le 4 0 ++ le 8 0); let s : State := { reqUp .unconfigured with fw.upd := .staging, fw.total := 8 }
     served fwStageWriteService r s = true ∧ zeroAt r.payload 4 4 = true ∧ rd r.payload 0 4 = s.fw.bytes.length ∧
       s.fw.bytes.length + (r.payload.length - 8) = s.fw.total) ∧
    (let s : State := { reqUp .unconfigured with fw.upd := .staging, fw.erasing := some 3, fw.preparing := some 3, fw.pause := some (3, 9), boot.confirmAt := some 9 }
     s.fw.bytes.length = s.fw.total ∧ s.fw.erasing = some 3 ∧ s.fw.preparing = some 3 ∧ s.fw.pause = some (3, 9) ∧ s.boot.sysReq = none ∧
       s.boot.confirmAt = some 9) ∧
    (let s : State := { reqUp .unconfigured with fw.upd := .staging }
     served fwStageCommitService (rq []) s = true ∧ (manifestReason s.fw.bytes s.fw.bytes.length false (taken (rq []) s)).isSome = true ∧
       served fwStageClearService (rq []) s = true) ∧
    served fwStageClearService (rq []) (reqUp .unconfigured) = true ∧
    (let s : State := { reqUp .unconfigured with fw.upd := .staged, fwNv.staging := some {} }
     served fwPrepareService (rq []) s = true ∧ s.fwNv.staging = some {} ∧ dirStep s ≠ 2) ∧
    (let r := rq (le 4 100 ++ le 4 0); let s : State := { reqUp .unconfigured with fw.upd := .prepared }
     served fwMicrocodeAtService r s = true ∧ zeroAt r.payload 4 4 = true ∧ rd r.payload 0 4 = 100 ∧ s.now = 0 ∧ nearSwitch 100 s = false) ∧
    (let s : State := { reqUp .unconfigured with fw.upd := .prepared, fw.tm := some 100 }
     s.fw.tm = some 100 ∧ (isl s 29).inReset = false ∧ holds .ma (askToken .ma s) = true) ∧
    (let s : State := { reqUp .committed with fw.upd := .switched }
     served fwActivateService (rq []) s = true) ∧
    (let s : State := { reqUp .unconfigured with fw.upd := .trial }
     served fwConfirmService (rq []) s = true ∧ s.fwNv.active.isSome = true) := by decide

/-- A state in which the boot ROM verifies. -/
def romUp (src : Nat) : State := { hostUp with boot.stage := 1, boot.optValid := true, boot.bootsrc := src }

set_option maxRecDepth 20000 in
theorem witness_BootAndLifecycleEffects :
    served fwInfoGetService (rq []) (reqUp .unconfigured) = true ∧
    (let s := romUp 0
     s.boot.stage = 1 ∧ s.boot.fail = 0 ∧ s.boot.optValid = true ∧ (isl s 29).inReset = false ∧ (isl s 33).inReset = false ∧ dirStep s = 0 ∧
       s.fwNv.staging = none ∧ s.fwNv.trial = none ∧ bootSource s ≠ 1 ∧ (s.fwNv.active.map (fun m => bootable m s)) = some true) ∧
    (let s : State := { romUp 0 with fwNv.fallback := (romUp 0).fwNv.active }
     bootSource s = 0 ∧ (s.fwNv.fallback.map (fun m => bootable m s)) = some true) ∧ bootSource (romUp 1) = 1 ∧ bootSource (romUp 2) = 2 ∧
    (let r := rq (le 16 0); let s : State := reqHeld (fwHostBootService none) r { reqUp .unconfigured with boot.stage := 2 }
     Served (fwHostBootService none) r s = true ∧ zeroAt r.payload 12 4 = true ∧ s.boot.stage = 2 ∧ Served (fwHostBootService (some [])) r s = true ∧
       takes r.mbx 0x0A09 r s = true ∧ r.payload.length = 16 ∧ serves s r.mbx = true) ∧
    (let s : State := { reqUp .unconfigured with bkp.sealOpen := true }; let s' : State := { reqUp .unconfigured with bkp.sealOpen := false }
     served lifecycleAdvanceService (rq [3, 0, 0, 0]) s = true ∧ lifecycle s = 2 ∧ s.bkp.sealOpen = true ∧
       served lifecycleAdvanceService (rq [3, 0, 0, 0]) s' = true ∧ lifecycle s' = 2) ∧
    (let r := rq (4 :: le 771 0); let s : State := { reqUp .unconfigured with bkp.sealOpen := true }
     served lifecycleAdvanceService r s = true ∧ zeroAt r.payload 1 3 = true ∧ rd r.payload 0 1 = 4) ∧
    (let r := rq (le 32 0); let s := reqUp .unconfigured; let s' : State := { reqUp .unconfigured with fuses.custHash := some [] }
     served custKeyProgramService r s = true ∧ lifecycle s = 2 ∧ s.fuses.custHash = none ∧ served custKeyProgramService r s' = true) := by decide

/-- A state in which the queue of lane 0 is as given. -/
def queueUp (q : FtQueue) : State := { hostUp with lanes := [(0, { queue := q })] }

theorem witness_QueueCommandEffects :
    producerUp (queueUp {}) 0 = true ∧ producerUp State.reset 256 = false ∧
    (let p : QPacket := { words := [{ word := 5, isEnd := false, code := 0 }], pushed := 1, doomed := true }
     qReady (cutThrough (queueUp { packets := [p] }) 0) p = true) ∧
    qAccepts true (ftq (queueUp {}) 0) = true ∧
    qAccepts true (ftq (queueUp { notices := List.replicate 16 { count := 0, dropped := false, code := 0 } }) 0) = false ∧
    ({} : FtQueue).readRes ≠ .waiting ∧ qOpen (ftq (queueUp {}) 0) = none ∧ dirUp (queueUp {}) = true ∧ (ftq (queueUp {}) 0).packets = [] ∧
    (let p : QPacket := { words := [{ word := 5, isEnd := true, code := 0 }], pushed := 1, ended := true }
     (ftq (queueUp { packets := [p] }) 0).packets = [p] ∧ qReady (cutThrough (queueUp { packets := [p] }) 0) p = true ∧ p.words ≠ []) ∧
    (ftq (queueUp { notices := [{ count := 3, dropped := false, code := 0 }] }) 0).notices = [{ count := 3, dropped := false, code := 0 }] ∧
    dirUp State.reset = false := by decide

/-- A state in which port 0 receives, as given, and lane 0 listens on it. -/
def airUp (r : RfPort) (x : Lane) : State :=
  { hostUp with rf := [(0, { r with state := .receiving })], lanes := [(0, { x with asg := { mode := 1, port := 0, stream := 0, rateMask := 15 } })],
                laneCount := 4, roles := [(3, .serving 0)] }

set_option maxRecDepth 20000 in
theorem witness_ReceptionEffects :
    (rfUp (airUp {} {}) 0 = true ∧ (rfp (airUp {} {}) 0).blankedBy = [] ∧ (0xFFFF : BitVec 16) = ~~~(0 : BitVec 16) ∧ (rfp (airUp {} {}) 0).seq = none) ∧
    ((0 : BitVec 16) ≠ ~~~(0 : BitVec 16) ∧ ((rfp (airUp {} {}) 0).errAt.filter (inWindow ((rfp (airUp {} {}) 0).slotNo + 1))).length < 3) ∧
    (let s := airUp { errAt := [7, 8, 9], slotNo := 10 } {}
     rfUp s 0 = true ∧ (rfp s 0).blankedBy = [] ∧ 3 ≤ ((rfp s 0).errAt.filter (inWindow ((rfp s 0).slotNo + 1))).length) ∧
    (let h : ShrIn := ⟨false, 8, 0, 0, 0⟩
     canDetect (airUp {} {}) 0 = true ∧ shrFits (airUp {} {}) (lane (airUp {} {}) 0) h = true ∧ (lane (airUp {} {}) 0).rx = .idle) ∧
    (let s := airUp {} { rx := .shr ⟨1, 8⟩ false }
     let h : ShrIn := ⟨false, 8, 0, 0, 0⟩
     canDetect s 0 = true ∧ (lane s 0).rx = .shr ⟨1, 8⟩ false ∧ shrFits s (lane s 0) h = true ∧
       atLeastDb ⟨100, 8⟩ ⟨1, 8⟩ (10 * pval s 0x2002) = true ∧ bit (0x0001 : BitVec 16).toNat 0 = true ∧
       bit (0x00A0 : BitVec 16).toNat 0 = false ∧ bit (0x00A0 : BitVec 16).toNat 3 = false ∧
       bit (lane s 0).asg.rateMask (bits (0x00A0 : BitVec 16).toNat 2 1) = true ∧ 5 ≤ bits (0x00A0 : BitVec 16).toNat 15 5 ∧
       qAccepts false (lane s 0).queue = true) ∧
    (let s := airUp {} { rx := .frame 5 }
     (lane s 0).rx = .frame 5 ∧ qAccepts false (lane s 0).queue = true) ∧
    (let s := airUp {} { rx := .frame 5, queue := { packets := [{ words := List.replicate 32 { word := 0, isEnd := false, code := 0 } }] } }
     (lane s 0).rx = .frame 5 ∧ qAccepts false (lane s 0).queue = false) ∧
    (let s := airUp {} { rx := .frame 0 }
     (lane s 0).rx = .frame 0 ∧ trailerRoom (lane s 0).queue = true) ∧
    (let s := airUp {} { rx := .frame 0, queue := { packets := [{ words := List.replicate 31 { word := 0, isEnd := false, code := 0 } }] } }
     (lane s 0).rx = .frame 0 ∧ trailerRoom (lane s 0).queue = false) ∧
    (let s := airUp {} { rx := .overflow }
     (lane s 0).rx = .overflow ∧ trailerRoom (lane s 0).queue = true) ∧
    (let s : State := { airUp {} {} with sectors := [(0, { acks := [⟨0, 0, 0, false, 0, 5, 0⟩] })] }
     let t := 5 + tUs 1000 - blankLead s 0
     rfUp s 0 = true ∧ s.now ≤ t ∧ (rfp s 0).blankAt = none ∧ mayStartAt s 0 (t + blankLead s 0) = true) ∧
    (let s := airUp { blankedBy := [0] } {}
     (rfp s 0).blankedBy.contains 0 = true ∧ (rfp s 0).state ≠ .transmitting) := by decide

/-- A state with one lane, idle, and port 0 in the report. -/
def lanesUp (c : CfgState) (x : Lane) : State :=
  { reqUp c with laneCount := 4, lanes := [(0, x)], rf := [(0, { state := .disabled })], cfg.vals := [(0x2100, 0x8000)] }

theorem witness_LaneOpcodeEffects :
    (let r := rq ([1, 0, 0, 0] ++ [0, 0, 0, 0, 0, 0, 0, 0])
     served laneAssignService r (lanesUp .committing {}) = true ∧
       served laneAssignService r { lanesUp .configuring {} with cfg.window := some { vals := [(0x2100, 0x8000)] } } = true ∧
       AssignOk true r { lanesUp .configuring {} with cfg.window := some { vals := [(0x2100, 0x8000)] } } = true ∧
       inWindowState { lanesUp .configuring {} with cfg.window := some { vals := [(0x2100, 0x8000)] } } = true ∧
       served laneAssignService r (lanesUp .committed {}) = true ∧ AssignOk false r (lanesUp .committed {}) = true ∧ rd r.payload 0 2 = 1) ∧
    (let r := rq [0, 0, 0, 0]
     served laneAssignService r (lanesUp .committed {}) = true ∧ AssignOk (inWindowState (lanesUp .committed {})) r (lanesUp .committed {}) = true ∧
       rd r.payload 0 2 = 0) ∧
    (let s := lanesUp .committed { next := some {} }
     (lane s 0).next = some {} ∧ (lane s 0).rx = .idle ∧ s.rot.shadow = none) ∧
    (let r := rq [0, 0, 1, 0, 0, 0]; let r1 := rq [0, 0, 1, 0, 1, 0]; let s := lanesUp .committed {}
     served laneTableGetService r s = true ∧ rd r.payload 4 1 = 0 ∧ zeroAt r.payload 5 1 = true ∧ rd r.payload 2 2 = 1 ∧
       served laneTableGetService r1 s = true ∧ rd r1.payload 4 1 = 1 ∧ s.cfg.window = none) ∧
    (let r := rq [0, 0, 1, 0]; let s := lanesUp .committed {}
     served laneStatsGetService r s = true ∧ served laneStatsClearService r s = true ∧ rd r.payload 2 2 = 1 ∧ rd r.payload 0 2 < s.laneCount ∧
       s.laneCount ≤ 256) ∧
    served rfPortStatusGetService (rq []) (lanesUp .committed {}) = true := by decide

/-- A state in rotation: lane 3 serves logical lane 0, the others are spares. -/
def rotUp (r : Rotation) : State := { reqUp .committed with laneCount := 1, roles := [(3, .serving 0)], rot := r, cfg.vals := [(0xB001, 1)] }

theorem witness_RotationEffects :
    (let s := rotUp { next := 3 }
     s.rot.lane = none ∧ pval s 0xB001 = 1 ∧ s.laneCount ≠ 0 ∧ islUp s islControl = true ∧ let u := askToken .lr { pacedAt s.rot.stepAt (tMs 2900) (tMs 3100) s with rot.stepAt := some (pacedAt s.rot.stepAt (tMs 2900) (tMs 3100) s).mono }
       holds .lr u = true ∧ nextLane u = some 3 ∧ roleOf u 3 = .serving 0 ∧ lowestSpare u = some 0) ∧
    (let s := rotUp { next := 4 }
     let u := askToken .lr { pacedAt s.rot.stepAt (tMs 2900) (tMs 3100) s with rot.stepAt := some (pacedAt s.rot.stepAt (tMs 2900) (tMs 3100) s).mono }
     nextLane u = some 4 ∧ roleOf u 4 = .spare) ∧
    (let s := rotUp { lane := some 3, shadow := some (0, 0) }
     s.rot.lane = some 3 ∧ s.rot.shadow = some (0, 0) ∧ (lane s 0).rx = .idle) ∧
    (let s : State := { rotUp { lane := some 3, retest := true } with roles := [(3, .underTest)] }
     s.rot.lane = some 3 ∧ s.rot.shadow = none ∧ roleOf s 3 = .underTest ∧ s.rot.retest = true) ∧
    (let s := rotUp {}
     laneWorks s 3 = true ∧ rotationState s = 0 ∧ s.rot.lateRaised.contains 3 = false) ∧
    (let s : State := { hostUp with isl := [(3, { bistDue := true, inReset := false })] }
     (isl s 3).bistDue = true ∧ (isl s 3).inReset = false) ∧
    (let r := rq [0, 0, 1, 0]; let s : State := { rotUp {} with life.repair := [{ typ := 1, cause := 1, obj := 9, secs := 0, start := 0 }] }
     served laneMapGetService r s = true ∧ served repairLedgerGetService r s = true ∧ rd r.payload 2 2 = 1 ∧ rd r.payload 0 2 + 1 ≤ s.life.repair.length) ∧
    (served rotationStatusGetService (rq []) (rotUp {}) = true ∧ served maintStatusGetService (rq []) (rotUp {}) = true) ∧
    (let u := roundAt hostUp.maint.scrubAt (86400 * pval hostUp 0x9000) hostUp
     (isl hostUp 29).inReset = false ∧ holds .es hostUp = false ∧ wants .es hostUp = true ∧ grantable .es u = true) ∧
    (let s : State := { hostUp with fw.tm := some 100, fw.upd := .prepared }
     holds .ma s = false ∧ wants .ma s = true ∧ grantable .ma (advTo (tSec (100 - 60)) s) = true ∧ s.fw.tm = some 100) ∧
    (actOf 2 = some .lr ∧ (isl (rotUp {}) 29).inReset = false ∧ holds .lr (rotUp {}) = false ∧ wants .lr (rotUp {}) = true ∧
       grantable .lr (rotUp {}) = true) ∧
    (let s : State := { hostUp with maint.holders := [.ma], cfg.vals := [(0xB001, 1)] }
     actOf 2 = some .lr ∧ holds .lr s = false ∧ wants .lr s = true ∧ grantable .lr s = false ∧ s.maint.waiting.contains .lr = false) ∧
    (let z : Zone := { kind := 0, len := 900, settleMin := 0, unit := 0, minCover := 0, alert := 0, tolF := 0, tolP := 0, tolQ := 0, zeroRun := 0,
                       nightCal := 0, zeroPeer := 0, nightStart := 0, nightLen := 0, nightAllow := 0, nightLimit := 0, lastClosed := 0,
                       checks := [], members := [], lastEnd := 1800 }
     let r := rq [5, 0, 0, 0, 0, 0, 0, 0]; let s : State := { reqUp .committed with bal.zones := [(5, z)] }
     let s' : State := { s with maint.holders := [.sr] }
     served balRerunService r s = true ∧ zeroAt r.payload 2 2 = true ∧ rerunOk s (rd r.payload 0 2) (rd r.payload 4 4) = true ∧
       busyFor .br s = false ∧ served balRerunService r s' = true ∧ busyFor .br s' = true) := by decide

theorem witness_SafetyAndMemoryEffects :
    islUp hostUp islControl = true ∧
    (let s : State := { hostUp with safe.state := .armed }
     islUp s islControl = true ∧ s.safe.state = .armed ∧ (recentFaults s).length < 2) ∧
    (let s : State := { hostUp with safe.state := .armed, faultTimes := [0, 0] }
     islUp s islControl = true ∧ s.safe.state = .armed ∧ 2 ≤ (recentFaults s).length) ∧
    (let s : State := { hostUp with safe.state := .fault, safe.causes := [9], mon.backAt := some 4 }
     s.mon.backAt = some 4 ∧ s.safe.state = .fault ∧ s.safe.causes = [9] ∧ s.mon.out = 0 ∧ s.safe.proof = none) ∧
    (let s : State := { hostUp with safe.state := .fault, safe.proof := some none }
     s.safe.proof = some none ∧ s.safe.state = .fault) ∧
    (let s : State := { hostUp with safe.state := .fault, safe.proof := some (some 2) }
     s.safe.proof = some (some 2) ∧ s.safe.state = .fault) ∧
    (served safetyStatusGetService (rq []) (reqUp .committed) = true ∧ served memStatusGetService (rq []) (reqUp .committed) = true) ∧
    (let s : State := { reqUp .committed with safe.state := .armed }
     served safetyClearService (rq []) s = true ∧ served safetyProofTestService (rq []) s = true ∧ s.safe.proof = none) ∧
    (let s : State := { reqUp .committed with safe.state := .fault }
     served safetyClearService (rq []) s = true ∧ served safetyProofTestService (rq []) s = true ∧ s.safe.proof = none) ∧
    (let s : State := { reqUp .committed with safe.state := .locked }
     served safetyClearService (rq []) s = true) ∧
    (let s : State := { hostUp with mem.installedMiB := 4096 }
     s.mem.scrubPos + 1 < burstCount s ∧ (isl s 32).inReset = false) ∧
    (let s : State := { hostUp with mem.installedMiB := 4096, mem.scrubPos := 134217727 }
     s.mem.scrubPos + 1 = burstCount s) ∧
    (let s : State := { hostUp with mem.repairReq := some (0, 77), maint.holders := [.sr] }
     s.mem.repairReq = some (0, 77) ∧ holds .sr s = true) := by decide

/-- A state with channel 0 as given. -/
def dmaUp (x : Chan) : State := { reqUp .committed with chans := [(0, x)] }

theorem witness_DmaEffects :
    (let r := rq ([3, 0, 7, 0] ++ le 8 4096 ++ le 4 16)
     served xlateSetService r (dmaUp {}) = true ∧ rd r.payload 0 2 = 3 ∧ rd r.payload 2 1 = 7 ∧ zeroAt r.payload 3 1 = true ∧
       rd r.payload 4 8 % 4096 = 0 ∧ rd r.payload 12 4 = 16 ∧ bit (rd r.payload 2 1) 2 = true) ∧
    (let r := rq ([3, 0, 3, 0] ++ le 8 4096 ++ le 4 16); let s := dmaUp { active := some (le 4 3, 0) }
     served xlateSetService r s = true ∧ bit (rd r.payload 2 1) 2 = false ∧ windowUses s (rd r.payload 0 2) ≠ 0) ∧
    (served xlateGetService (rq [0, 0, 1, 0]) (dmaUp {}) = true ∧ rd (rq [0, 0, 1, 0]).payload 2 2 = 1) ∧
    (let r := rq ([0, 4, 0, 0] ++ le 8 4096)
     served dmaChanSetService r (dmaUp {}) = true ∧ rd r.payload 1 1 = 4 ∧ (chan (dmaUp {}) 0).state = .disabled) ∧
    (let r := rq ([0, 0, 0, 0] ++ le 8 4096)
     served dmaChanSetService r (dmaUp {}) = true ∧ (chan (dmaUp {}) 0).stream = none ∧ (chan (dmaUp {}) 0).active = none ∧
       served dmaChanSetService r (dmaUp { stream := some .pages }) = true ∧ (chan (dmaUp { stream := some .pages }) 0).stream ≠ none) ∧
    (let r := rq [0, 0, 0, 0]
     served dmaChanStatusGetService r (dmaUp {}) = true ∧ served dmaChanRestartService r (dmaUp {}) = true ∧ (chan (dmaUp {}) 0).state ≠ .stopped ∧
       served dmaChanRestartService r (dmaUp { state := .stopped }) = true ∧ (chan (dmaUp { state := .stopped }) 0).state = .stopped) ∧
    (let s := dmaUp { state := .running, stream := some .pages }
     (chan s 0).state = .running ∧ (isl s 33).inReset = false ∧ (chan s 0).active = none ∧ (chan s 0).stream ≠ none ∧ dLength (slice [] 0 32) = 0 ∧
       dLength (slice (le 8 0 ++ le 4 4096 ++ le 20 0) 0 32) = 4096 ∧ badBegin s (isRead .pages) (slice (le 8 0 ++ le 4 4096 ++ le 20 0) 0 32) = true) ∧
    (let s : State := { dmaUp { state := .running, stream := some .restore } with xlate := [(0, { base := 0, size := 4, rd := true, wr := true })] }
     badBegin s (isRead .restore) (slice (le 8 0 ++ le 4 4096 ++ le 20 0) 0 32) = false ∧ (streamData s .restore 100).isSome = true ∧ (chan s 0).held = none) ∧
    (let s := dmaUp { state := .running, stream := some .pages, active := some (le 8 0 ++ le 4 4096 ++ le 20 0, 8), held := some [1] }
     (chan s 0).active = some (le 8 0 ++ le 4 4096 ++ le 20 0, 8) ∧ 0 < dLength (le 8 0 ++ le 4 4096 ++ le 20 0) ∧ (chan s 0).held = some [1]) ∧
    (served dmaChanRestartService (rq [0, 0, 0, 0]) (dmaUp { state := .stopped, stream := some .exports }) = true ∧
       served dmaChanSetService (rq ([0, 0, 0, 0] ++ le 8 4096)) (dmaUp { active := some ([], 8) }) = true) := by decide

/-- A state with the given slots and a seeded random source. -/
def slotsUp (l : List (Nat × KSlot)) : State :=
  { reqUp .committed with slots := { slots := l, base := 0, allSpent := false }, keys.seeded := true, life.genCounter := 4096 }

set_option maxRecDepth 20000 in
theorem witness_KeyVaultEffects :
    (let s := slotsUp [(2, { typ := 2, usage := 0xF3, gen := 3 })]; let r := rq ([1, 0, 2, 0, 1, 1, 0, 0] ++ le 4 0 ++ [24, 0, 0, 0] ++ le 24 0)
     served qkLoadService r s = true ∧ attrOk (attrAt r.payload 4) (rd r.payload 0 2) = true ∧ zeroAt r.payload 7 1 = true ∧ zeroAt r.payload 14 2 = true ∧
       rd r.payload 2 2 = 2 ∧ rd r.payload 12 2 = 24 ∧ chainOk s 2 = true ∧ (attrAt r.payload 4).typ = 1 ∧ (kslot s (rd r.payload 0 2)).typ = 0 ∧
       (kslot s 2).typ ≠ 3 ∧ usable s 2 = true ∧ hasUsage (kslot s 2) uUnwrap = true ∧ (kslot s 2).cntEn = false ∧ genStuck s = false) ∧
    (let s := slotsUp [(2, { typ := 2, usage := 0xF3, gen := 3 })]; let r := rq ([1, 0, 2, 0, 1, 1, 0, 0] ++ le 4 0 ++ [1, 0, 0, 0] ++ [7])
     served qkDeriveService r s = true ∧ attrOk (attrAt r.payload 4) (rd r.payload 0 2) = true ∧ zeroAt r.payload 7 1 = true ∧ zeroAt r.payload 14 2 = true ∧
       rd r.payload 12 2 = 1 ∧ hasUsage (kslot s 2) uDerive = true) ∧
    (let s := slotsUp []; let r := rq ([1, 0, 0, 0, 1, 1, 0, 0] ++ le 4 0)
     served qkGenerateService r s = true ∧ attrOk (attrAt r.payload 4) (rd r.payload 0 2) = true ∧ zeroAt r.payload 2 2 = true ∧ zeroAt r.payload 7 1 = true ∧
       (kslot s 1).typ = 0 ∧ genStuck s = false ∧ secretOk s = true) ∧
    (let s := slotsUp [(2, { typ := 2, usage := 0xF3, gen := 3 })]; let r := rq [2, 0, 0, 0]
     served qkDestroyService r s = true ∧ (kslot s 2).typ ≠ 0 ∧ zeroAt r.payload 2 2 = true ∧ s.life.genCounter < 0xFFFFFFFE ∧
       served qkSlotGetService (rq [0, 0, 1, 0]) s = true ∧ rd (rq [0, 0, 1, 0]).payload 2 2 = 1) ∧
    (let s : State := { slotsUp [(2, { typ := 2, usage := 0x40, gen := 3 })] with eps := [(0, {})] }; let r := rq ([1, 0, 2, 0] ++ le 44 0)
     served qkEpLoadService r s = true ∧ rd r.payload 0 2 = 1 ∧ rd r.payload 2 2 = 2 ∧ (ep? s (blobHandle r.payload 0)).isSome = true ∧
       usable s 2 = true ∧ hasUsage (kslot s 2) uUnwrap = true ∧ (kslot s 2).typ = 2 ∧ (kslot s 2).cntEn = false ∧
       served qkEpClearService (rq ([1, 0, 0, 0] ++ le 4 0)) s = true ∧
       firstBad (fun h => (ep? s h).isNone) ((List.range (rd (rq ([1, 0, 0, 0] ++ le 4 0)).payload 0 2)).map (fun i => rd (rq ([1, 0, 0, 0] ++ le 4 0)).payload (4 + 4 * i) 4)) 0 = none) ∧
    (let s := slotsUp [(2, { typ := 2, usage := 0x40, gen := 3 }), (3, { typ := 2, usage := 0x60, gen := 4 })]; let r := rq [2, 0, 3, 0]
     served qkRewrapService r s = true ∧ rd r.payload 0 2 = 2 ∧ rd r.payload 2 2 = 3 ∧ usable s 2 = true ∧ usable s 3 = true ∧ (kslot s 3).typ = 2 ∧
       hasUsage (kslot s 3) (uWrap + uUnwrap) = true ∧ s.keys.rewrap = none ∧ busyFor .kr s = false) ∧
    (let s : State := { slotsUp [(2, { typ := 2, usage := 0x40, gen := 3 }), (3, { typ := 2, usage := 0x60, gen := 4 })] with
        keys.rewrap := some { pendId := 1, old := 2, new := 3 }, blobs := [(0, { wrapped := [], wslot := 2, wgen := 3 })] }
     s.maint.yielded = false ∧ (isl s 30).inReset = false ∧ usable s 2 = true ∧ usable s 3 = true ∧
       s.blobs.find? (fun b => 0 ≤ b.1 && b.2.wslot == 2) = some (0, { wrapped := [], wslot := 2, wgen := 3 }) ∧
       s.blobs.find? (fun b => 1 ≤ b.1 && b.2.wslot == 2) = none ∧ ctxBusy s 0 = false ∧ (kslot s 2).gen = 3 ∧
       hasUsage (kslot s 2) uUnwrap = true ∧ (kslot s 2).cntEn = false ∧ hasUsage (kslot s 3) uWrap = true ∧ (kslot s 3).cntEn = false) ∧
    (served qkAttestService (rq (le 32 0)) (slotsUp []) = true ∧ secretOk (slotsUp []) = true ∧
       served qkCertGetService (rq [0, 0, 0, 0]) (slotsUp []) = true ∧ served qkStatusGetService (rq []) (slotsUp []) = true ∧
       (isl (slotsUp []) 30).inReset = false) := by
  exact ⟨by decide, by decide, by decide, by decide, by decide, by decide, by decide, by decide⟩

/-- A state whose recorder runs, with the given queue. -/
def slateUp (q : List SRec) : State :=
  { reqUp .committed with slate := { (reqUp .committed).slate with opened := true, moved := true, head := 5, queue := q }, slateNv := { (reqUp .committed).slateNv with state := .normal, badBlocks := [] } }

set_option maxRecDepth 20000 in
theorem witness_SlateEffects :
    (let s := slateUp []
     0 < (slateRate s 0x30).1 ∧ (tget s.slate.buckets 0x30 {}).used < (slateRate s 0x30).2 ∧ privileged 0x30 = false) ∧
    (let s := slateUp [{ code := 0x30, spare := false, trust := false, seq := 4, stamp := 0, payload := [], supp := 0 }]
     recorderRuns s = true ∧ s.slateNv.state = .normal ∧ s.slateNv.badBlocks = [] ∧ s.slate.queue.length = 1 ∧ s.slate.waiting = [] ∧
       retiredCount s ≤ 1024 ∧ s.slate.moved = true) ∧
    (let s0 := slateUp []; let s : State := { s0 with slate := { s0.slate with buckets := [(0x30, { used := 2, clock := some (0, 0) })] } }
     (tget s.slate.buckets 0x30 {}).clock = some (0, 0) ∧ 0 < (tget s.slate.buckets 0x30 {}).used ∧ 0 < (slateRate s 0x30).1) ∧
    (let s0 := slateUp []; let s : State := { s0 with maint.holders := [.es] }
     s.maint.holders.contains .es = true ∧ s.slateNv.state = .normal) ∧
    (let r := rq (le 4 0 ++ le 2 1032 ++ le 2 0)
     served slateReadService r (slateUp []) = true ∧ rd r.payload 4 2 = 1032 ∧ zeroAt r.payload 6 2 = true) ∧
    (let r := rq (le 4 0 ++ le 4 0 ++ le 4 5); let s0 := slateUp []; let s : State := { s0 with chans := [(0, { state := .idle })], slateNv := { s0.slateNv with ring := [⟨0x30, false, false, 0, 0, [], 0, 0, false⟩] } }
     served slateDumpService r s = true ∧ zeroAt r.payload 1 3 = true ∧ rd r.payload 8 4 = 5 ∧
       seqBelow s.slate.head (BitVec.ofNat 32 (rd r.payload 4 4)) = false ∧ 5 ≤ (s.slate.head - BitVec.ofNat 32 (rd r.payload 4 4)).toNat ∧
       s.slate.dump = none ∧ bindCheck 0 s = none ∧ seqBelow (slateTail s) 5 = true ∧ seqBelow 0 (slateTail s) = false) ∧
    (served slateStatusGetService (rq []) (slateUp []) = true ∧ served slateCodeGetService (rq [0, 0, 1, 0]) (slateUp []) = true ∧
       rd (rq [0, 0, 1, 0]).payload 2 2 = 1 ∧ served slateRecfClearService (rq []) (slateUp []) = true) := by
  exact ⟨by decide, by decide, by decide, by decide, by decide, by decide, by decide⟩

/-- A campaign with nothing in it. -/
def camp0 : Camp :=
  { kind := 3, prio := 0, closeIdle := false, multicast := false, retryMax := 3, calIndex := 0xFF, groupSlot := 0xFFFF, size := 0, deadline := 0, groupAddr := 0, gapMs := 0, activateAt := 0, digest := [], stamp := 0 }

/-- A state that holds the given campaigns and one endpoint. -/
def campUp (l : List (Nat × Camp)) (e : Endpoint) : State := { reqUp .committed with camps := l, eps := [(0, e)], jnl := { (reqUp .committed).jnl with replayed := true, state := .normal } }

set_option maxRecDepth 20000 in
theorem witness_CampaignOpcodeEffects :
    (let r := rq ([0, 4, 1, 0, 3, 0xFF, 0xFF, 0xFF] ++ le 56 0); let s := campUp [] {}
     served campCreateService r s = true ∧ headerBadCamp s r.payload = false ∧ camp? s (rd r.payload 0 1) = none ∧ ledgerOk s = true ∧ 3 ≤ rd r.payload 1 1 ∧
       headerBadCamp s (le 64 0) = true ∧ served campCreateService (rq (le 64 0)) s = true) ∧
    (let x : Camp := { camp0 with kind := 1, size := 512 }; let s := campUp [(0, x)] {}; let r := rq ([0, 0, 0, 0, 1, 0, 0, 0] ++ le 256 0)
     served campContentService r s = true ∧ camp? s (rd r.payload 0 1) = some x ∧ x.state = .open_ ∧ zeroAt r.payload 1 1 = true ∧
       zeroAt r.payload 6 2 = true ∧ rd r.payload 4 2 = 1 ∧ rd r.payload 2 2 + rd r.payload 4 2 < campK x) ∧
    (let x : Camp := { camp0 with kind := 1, size := 512 }; let s := campUp [(0, x)] {}; let r := rq ([0, 0, 1, 0] ++ le 16 0); let q := rq ([0, 0, 1, 0] ++ le 4 1 ++ le 12 0)
     served campTargetsAddService r s = true ∧ zeroAt r.payload 1 1 = true ∧ rd r.payload 2 2 = 1 ∧ r.payload.length = 20 ∧
       firstBadTgt s x r.payload 1 [] 0 = none ∧ ((List.range 1).filter (issues s x r.payload)).length = 0 ∧ targetsHeld s + 1 ≤ 2097152 ∧
       x.kind ≠ kindSwitch ∧ served campTargetsAddService q s = true ∧ firstBadTgt s x q.payload 1 [] 0 = some 0) ∧
    (let x : Camp := { camp0 with kind := 1, size := 256, blocks := [(0, [])] }; let s := campUp [(0, x)] {}; let r := rq [0, 0, 0, 0]
     served campStartService r s = true ∧ zeroAt r.payload 1 3 = true ∧ camp? s (rd r.payload 0 1) = some x ∧ x.state = .open_ ∧ ledgerOk s = true ∧
       contentKind x.kind = true ∧ contentComplete x = true ∧ contentKind 3 = false ∧ served campCancelService r s = true ∧
       jnlTakes (1 + returnsOf x) s = true ∧ served campStatusGetService r s = true ∧ served campReleaseService r s = true) ∧
    (let s := campUp [(0, { camp0 with kind := 3, state := .running }), (1, { camp0 with kind := 3, state := .paused }), (2, { camp0 with kind := 3, state := .done })] {}
     served campPauseService (rq [0, 0, 0, 0]) s = true ∧ served campResumeService (rq [1, 0, 0, 0]) s = true ∧
       (camp? s 1).map (fun x => (x.state, x.contentLost)) = some (.paused, false) ∧ (camp? s 0).map (fun x => x.state) = some .running ∧
       served campReleaseService (rq [2, 0, 0, 0]) s = true ∧ (camp? s 2).map (fun x => x.state) = some .done) ∧
    (let x : Camp := { camp0 with kind := 1, targets := [{ handle := 0, cmd := 0x11, since := 0 }] }; let s := campUp [(0, x)] { switchFault := true }
     served campTargetGetService (rq [0, 0, 0, 0, 0, 0, 1, 0]) s = true ∧ rd (rq [0, 0, 0, 0, 0, 0, 1, 0]).payload 6 2 = 1 ∧ x.targets.length = 1 ∧
       served switchFaultClearService (rq (le 4 0)) s = true ∧ handleWord (rq (le 4 0)).payload 0 = some 0 ∧ (ep? s 0).map (fun e => e.switchFault) = some true) := by
  exact ⟨by decide, by decide, by decide, by decide, by decide, by decide⟩

def radioUp (l : List (Nat × Camp)) (e : Endpoint) : State :=
  { sectorUp with camps := l, eps := [(0, e)], jnl := { (reqUp .committed).jnl with replayed := true, state := .normal } }

/-- A CREDIT campaign with one target. -/
def creditCamp (t : Target) : Camp := { camp0 with retryMax := 3, state := .running, targets := [t] }

/-- A SWITCH frame at the gate, due at engine time 0. -/
def dueFrame : GateFrame :=
  { camp := 0, handle := 0, seq := 0, notAfter := 100, dcnt := 0, tokA := [], tokB := [], frameA := [], frameB := [], due := 0, plc := false, port := 0, channel := 0, mode := 1, custody := [] }

set_option maxRecDepth 20000 in
theorem witness_CampaignEngineEffects :
    (let s := radioUp [(0, creditCamp { handle := 0, cmd := 0x20, since := 0, n := 1 })] { air := .connected }
     stepIs s 0 0 = true ∧ (ep? s 0).map (fun e => (e.plc, e.air)) = some (false, .connected)) ∧
    (let s0 := radioUp [(0, creditCamp { handle := 0, cmd := 0x20, since := 0, n := 1 })] { air := .tracking }
     let s : State := { s0 with sectors := [(0, { dlOpp := [{ handle := 0, channel := 0, mode := 1, endTime := 0 }] })] }
     stepIs s 0 0 = true ∧ (ep? s 0).map (fun e => (e.plc, e.lastPort)) = some (false, 0) ∧ ((secp s 0).dlOpp.find? (fun o => o.handle == 0)).isSome = true) ∧
    (let s : State := { plcUp {} with camps := [(0, creditCamp { handle := 0, cmd := 0x20, since := 0, n := 1 })] }
     stepIs s 0 0 = true ∧ (nextTxn s 0).map (fun x => (x.handle, x.camp)) = some (0, some 0)) ∧
    (let t : Target := { handle := 0, cmd := 0x20, since := 0, n := 1, state := .sent }
     let s := radioUp [(0, creditCamp t)] {}
     camp? s 0 = some (creditCamp t) ∧ tgt? s 0 0 = some t ∧ (ep? s 0).isSome = true ∧ (creditCamp t).deadline = 0 ∧ t.notAfter = 0 ∧ t.attempts < (creditCamp t).retryMax ∧
       ({ t with attempts := 3 } : Target).attempts ≥ (creditCamp t).retryMax ∧ bySession (creditCamp t) {} = false) ∧
    (let x : Camp := { camp0 with deadline := 5, state := .open_ }; let s := radioUp [(0, x), (1, { x with state := .running })] {}
     camp? s 0 = some x ∧ x.deadline ≠ 0 ∧ jnlTakes (1 + returnsOf x) (advTo (tSec x.deadline) s) = true ∧ camp? s 1 = some { x with state := .running }) ∧
    (let x : Camp := { camp0 with kind := 1, multicast := true, state := .running, size := 256, targets := [{ handle := 0, cmd := 0x10, since := 0 }] }
     let s := radioUp [(0, x)] {}
     stepsRun s = true ∧ wantsSession s 0 x = true ∧ sessionTurn s 0 0 x = true ∧ (portTargets s x 0).any (fun t => t.cmd == 0x12) = false ∧
       x.ended.toNat < pval s 0x7003 ∧ x.nextIdx + sessionFrames s x ≤ 65535 ∧ (sessionChannel s 0).isSome = true) ∧
    (let y : Session := { no := 1, targets := [], ts := 5, first := 0, channel := 0, frames := 3 }
     let x : Camp := { camp0 with kind := 1, multicast := true, sessions := [(0, y)], state := .paused }
     let s : State := { radioUp [(0, x)] {} with now := 6 }
     camp? s 0 = some x ∧ tfind x.sessions 0 = some y ∧ y.begun = false ∧ x.state ≠ .running ∧ y.ts + y.next * tMs x.gapMs + tMs x.gapMs / 4 < s.now) ∧
    (let y : Session := { no := 1, targets := [], ts := 0, first := 0, channel := 0, frames := 3, begun := true }
     let x : Camp := { camp0 with kind := 1, multicast := true, groupSlot := 2, sessions := [(0, y)], state := .running }
     let s : State := { radioUp [(0, x)] {} with slots := { slots := [(2, { typ := 2, usage := 0xFF, gen := 3 })], base := 0, allSpent := false } }
     let v := sessionListen 0 0 y (chanEdges (bandOf s 0) y.channel) ⟨0, 1⟩ s
     camp? s 0 = some x ∧ tfind x.sessions 0 = some y ∧ stepsRun s = true ∧ v.1 = true ∧ v.2.now = 0 ∧
       txRule v.2 0 y.channel (chanEdges (bandOf s 0) y.channel) .downlink (sunUs (secVal s 0 3) 291)
         (airBusy v.2 0 v.2.now (sunUs (secVal s 0 3) 291) || ackInWay v.2 0 v.2.now (sunUs (secVal s 0 3) 291)) = none ∧
       (useSlot x.groupSlot (uEncrypt + uMac) v.2).2.isSome = true) ∧
    (let t : Target := { handle := 0, cmd := 0x30, since := 0, fbDue := some 7, feedback := 0xFF, state := .confirmed }
     let s := radioUp [(0, { camp0 with kind := 4, state := .running, targets := [t] })] {}
     tgt? s 0 0 = some t ∧ ledgerOk (advMono 7 s) = true) ∧
    (let t : Target := { handle := 0, cmd := 0x30, since := 0, state := .sent }
     let s0 := radioUp [(0, { camp0 with kind := 4, state := .running, targets := [t] })] {}
     let s : State := { s0 with safe.due := some dueFrame, safe.state := .armed }
     s.safe.due = some dueFrame ∧ tgt? s 0 0 = some t ∧ pairRuns s = true ∧ s.safe.state = .armed ∧ s.now = dueFrame.due ∧ secs s ≤ dueFrame.notAfter ∧
       ledgerOk s = true ∧ s.fw.pause = none ∧ gateMedium s dueFrame = true) := by
  exact ⟨by decide, by decide, by decide, by decide, by decide, by decide, by decide, by decide, by decide, by decide⟩

/-- A state that holds zone 1, as given. -/
def zoneUp (x : Zone) : State := { reqUp .committed with bal := { (reqUp .committed).bal with zones := [(1, x)] } }

/-- A zone without entries. -/
def zone0 : Zone := zoneOf (le 2 1 ++ le 62 0) 0

/-- A ZONE_LOAD payload: zone 1, one check meter, handle 0. -/
def zoneLoadBytes : List Byte :=
  le 2 1 ++ [0, 0] ++ le 2 1 ++ [1, 0] ++ le 2 0 ++ le 2 1 ++ le 40 0 ++ [1, 0, 0, 0] ++ le 8 0 ++ le 16 0

/-- A page image of 4 KiB with format 1, page 0, version 0. -/
def pageImage : List Byte := le 2 1 ++ le 2 0 ++ le 4 0 ++ List.replicate 4088 0

set_option maxRecDepth 20000 in
theorem witness_BalanceEffects :
    (let s : State := { zoneUp zone0 with bkp := { (reqUp .committed).bkp with rlf := false, osf := false, ovf := false } }
     zone? s 1 = some zone0 ∧ zone0.lost = false ∧ trusted s = true ∧ zone0.score ≤ 65535 ∧ 1 < ivalStatus s { zone0 with checks := [meterAt zoneLoadBytes 0] } 0) ∧
    (let x : Zone := { zone0 with ivals := [(0, { changedAt := some 5 })], aged := some { start := 0, first := 0 } }
     zone? (zoneUp x) 1 = some x ∧ (ival x 0).changedAt = some 5 ∧ x.aged.isSome = true) ∧
    (let s : State := { zoneUp zone0 with now := tSec 900 }
     (900 : Nat) ≤ secs s ∧ s.bal.unzonedEnd ≤ 900 ∧ secs (advTo (tSec (900 + 900)) s) < 900 + 1800) ∧
    (let s : State := { zoneUp zone0 with bkp := { (reqUp .committed).bkp with rlf := false, osf := false, ovf := false } }
     nextDue (bringHorizon (advTo (tSec (zone0.lastEnd + zone0.len + 60 * zone0.settleMin)) s)) = some (zone0.lastEnd + zone0.len, 1)) ∧
    (let r := rq zoneLoadBytes; let s : State := { reqUp .committed with eps := [(0, {})], prov := { (reqUp .committed).prov with profiles := [(0, { kind := 1, unit := 1 })] } }
     served zoneLoadService r s = true ∧ zoneHeaderOk r.payload = true ∧ zone? s (rd r.payload 0 2) = none ∧ rd r.payload 52 1 + rd r.payload 54 2 = 1 ∧
       meterBad s r.payload (rd r.payload 0 2) (rd r.payload 6 1) (rd r.payload 48 4) (decide (0 < rd r.payload 52 1)) 0 = false ∧ memberEntries s + rd r.payload 54 2 ≤ 1048576) ∧
    (served zoneLoadService (rq (le 64 0)) (reqUp .committed) = true ∧ zoneHeaderOk (rq (le 64 0)).payload = false) ∧
    (let r := rq [1, 0, 0, 0]; let s := zoneUp zone0
     served zoneDropService r s = true ∧ served zoneGetService r s = true ∧ served scoreResetService r s = true ∧ zone? s (rd r.payload 0 2) = some zone0 ∧ zeroAt r.payload 2 2 = true) ∧
    (let r := rq ([1, 0, 1, 0] ++ le 16 0); let s := zoneUp zone0
     served zoneTolSetService r s = true ∧ zone? s (rd r.payload 0 2) = some zone0 ∧ 0 < rd r.payload 2 2 ∧ rd r.payload 4 8 < 2 ^ 48 ∧ rd r.payload 12 4 ≤ 1000000) ∧
    (let r := rq [0, 0, 0, 0]; let s : State := { reqUp .committed with chans := [(0, { state := .idle })] }
     served balExportStartService r s = true ∧ zeroAt r.payload 1 3 = true ∧ s.bal.chan = none ∧ bindCheck 0 s = none ∧ served balConfirmService r s = true ∧
       served balRewindService r s = true ∧ served balStatusGetService (rq []) s = true ∧ served ledgerRestoreStartService r s = true ∧ s.ledger.restoreChan = none) ∧
    (let s0 := reqUp .committed; let s : State := { s0 with ledger := { s0.ledger with restoreChan := some 0, restoreDue := 1, pending := some [0] }, boot := { s0.boot with domainKeys := some [] } }
     restoreOpen s = true ∧ s.ledger.restoreDue ≠ 0 ∧ rd pageImage 0 2 = 1 ∧ isPending s (rd pageImage 2 2) = true ∧ rd pageImage 4 4 = confVer s (rd pageImage 2 2) ∧ (domainKey .ledger s).isSome = true ∧
       ([] : List Byte).length ≠ 4096) := by
  exact ⟨by decide, by decide, by decide, by decide, by decide, by decide, by decide, by decide, by decide, by decide⟩

/-- A state in which endpoint 0 has a frame in the given stage, and its journal runs in the given state. -/
def frameUp (st : FrameStage) (j : JState) : State :=
  { plcUp {} with dir := { (plcUp {}).dir with frames := [{ id := 0, handle := 0, stage := st }] }, jnl := { (plcUp {}).jnl with state := j } }

set_option maxRecDepth 20000 in
theorem witness_PipelineEffects :
    (let s := frameUp .commit .normal
     frame? s 0 = some { id := 0, handle := 0, stage := .commit } ∧ (ep? s 0).isSome = true ∧ cannotUse s 0 = false ∧ jnlTakesFrame 1 s = true ∧
       s.cfg.lastTc ≤ 0 ∧ { s with jnv.bad := s.jnv.bad ++ [] } = s ∧ (causedEntries { id := 0, handle := 0, stage := .commit } { st := s } s).length = 0) ∧
    (let s := frameUp .commit .full
     frame? s 0 = some { id := 0, handle := 0, stage := .commit } ∧ (ep? s 0).isSome = true ∧ cannotUse s 0 = false ∧ jnlTakesFrame 1 s = false ∧ s.jnl.state ≠ .normal ∧
       (0 : Nat) < ({ s with cfg.lastTc := 1 } : State).cfg.lastTc) ∧
    (let s := frameUp (.journal 3) .full
     frame? s 0 = some { id := 0, handle := 0, stage := .journal 3 } ∧ s.jnl.state ≠ .normal) ∧
    (let s0 := frameUp .commit .normal; let b : Bundle := { mode := 0, records := [], openTime := 0 }
     let s : State := { s0 with prov := { s0.prov with open_ := some b, openOvf := some b, closed := [b] } }
     s.prov.open_ = some b ∧ s.prov.openOvf = some b ∧ nextToSign s = some b ∧ islUp s 30 = true ∧ jnlTakes 1 s = true) ∧
    (let r := rq (le 388 0); let s := reqUp .committed
     served profileSetService r s = true ∧ zeroAt r.payload 1 3 = true ∧ ((List.range 16).map (fun i => readQEntry r.payload (4 + 24 * i))).all qEntryOk = true ∧
       (kind1Keys ((List.range 16).map (fun i => readQEntry r.payload (4 + 24 * i)))).length ≤ 4 ∧ (s.eps.any (fun e => e.2.profile == rd r.payload 0 1) && changesKind1 (kind1Keys (profileEntries s (rd r.payload 0 1)))
         (kind1Keys ((List.range 16).map (fun i => readQEntry r.payload (4 + 24 * i))))) = false) ∧
    (served profileGetService (rq [0, 0, 0, 0]) (reqUp .committed) = true ∧ served provListClearService (rq []) (reqUp .committed) = true ∧
       served exportFlushService (rq []) (reqUp .committed) = true ∧ served pipeStatusGetService (rq []) (reqUp .committed) = true ∧
       served exportConfirmService (rq [0, 0, 0, 0]) (reqUp .committed) = true ∧ served exportRewindService (rq [0, 0, 0, 0]) (reqUp .committed) = true) ∧
    (let r := rq ([1, 0, 0, 0] ++ le 4 0); let q := rq ([1, 0, 0, 0] ++ le 4 1); let s := plcUp {}
     served provListAddService r s = true ∧ zeroAt r.payload 2 2 = true ∧ firstBad (fun h => 2 ^ 20 ≤ h || !thas s.eps h) (listedHandles r.payload) 0 = none ∧
       (List.range (listedHandles r.payload).length).find? (fun (i : Nat) => decide (4096 < (((listedHandles r.payload).take (i + 1)).foldl (fun (l : List Nat) h => if l.contains h then l else l ++ [h]) s.prov.list).length)) = none ∧
       served provListAddService q s = true ∧
       firstBad (fun h => 2 ^ 20 ≤ h || !thas s.eps h) (listedHandles q.payload) 0 = some 0) ∧
    (let r := rq [0, 0, 0, 0]; let s : State := { reqUp .committed with chans := [(0, { state := .idle })] }
     served exportStartService r s = true ∧ zeroAt r.payload 1 3 = true ∧ s.prov.chan = none ∧ bindCheck 0 s = none) ∧
    (let s0 := reqUp .committed; let s : State := { s0 with prov := { s0.prov with chan := some 0 } }
     served exportStopService (rq []) s = true ∧ s.prov.chan = some 0) := by
  exact ⟨by decide, by decide, by decide, by decide, by decide, by decide, by decide, by decide, by decide⟩

/-- A state whose ledger runs, with the given ledger part. -/
def ledgerUp (l : Ledger) : State :=
  { plcUp {} with ledger := l, bkp := { (plcUp {}).bkp with rlf := false, osf := false, ovf := false }, boot := { (plcUp {}).boot with domainKeys := some [] } }

/-- A calendar load: index 0, CAL_ID 1, VERSION 1, activation at 100 s, one day profile, one season, one offset. -/
def calBytes0 : List Byte :=
  le 2 1 ++ [0, 0] ++ le 4 1 ++ le 4 1 ++ le 4 100 ++ le 2 0 ++ [0, 0xFF] ++ le 2 0 ++ le 2 0 ++ [0, 1] ++ le 2 0 ++ le 4 0 ++ le 2 1 ++ [1, 1] ++ le 2 0 ++
    [1] ++ le 25 0 ++ [0, 0, 0, 0] ++ (List.replicate 15 [0xFF, 0xFF, 0, 0]).flatten ++ [1, 1] ++ le 10 0 ++ le 8 0 ++ List.replicate 384 0

def cal0 : CalVer := (readCal calBytes0).getD {}

def calRootUp (n : Nat) (s : State) : State := updRoot n (fun c => { c with calId := 1 }) s

set_option maxRecDepth 20000 in
theorem witness_LedgerEngineEffects :
    (let s := ledgerUp { cals := [(0, { pending := some cal0 })] }
     idxHeld s 0 = true ∧ trusted s = true ∧ (calRoot s 0).lastApplied < 100 ∧ anyKind (kindsAt (advTo (tSec 100) s) 0 100) = true ∧
       ledgerOk (advTo (tSec 100) s) = true ∧ nextCarried (advTo (tSec 100) s) 0 100 = some 100) ∧
    (let x : Kinds := { demand := false, close := true, tier := false, activate := false }
     x.close = true ∧ x.activate = false) ∧
    (let s : State := { ledgerUp { sweeps := [(0, 0)] } with eps := [(0, { img := { cal := 0 } }), (5, { img := { cal := 0 } })] }
     tfind s.ledger.sweeps 0 = some 0 ∧ (sweepNext s 0 0 2).getLast? = some 5 ∧ (sweepNext s 0 6 1) = [] ∧
       (sweepNext s 0 0 1).getLast? = some 0 ∧ (sweepNext s 0 1 1) ≠ []) ∧
    (let b : Bundle := { mode := 0, records := [], openTime := 0 }
     (ledgerUp { stmtOpen := some b }).ledger.stmtOpen = some b) ∧
    ((ledgerUp {}).jnl.replayed = true ∧ (ledgerUp {}).fw.pause = none ∧ domainKey .ledger (ledgerUp {}) ≠ none) ∧
    (let s := ledgerUp { pages := [(1, { awaiting := true })] }
     (page s 1).awaiting = true ∧ (page s 1).late = false) ∧
    (let s := ledgerUp {}
     let t : State := { s with mon := { s.mon with pwrfailN := false, out := 1 } }
     s.mon.pwrfailN = true ∧ t.mon.pwrfailN = false ∧ t.mon.out.extractLsb' 0 7 ≠ 0) ∧
    (let s := ledgerUp {}; let t := ledgerUp { dispRetry := some 5 }
     (isl s 29).inReset = false ∧ s.ledger.dispRetry = none ∧ displayCycle (roundAt s.ledger.dispAt (pval s 0x5011) s) ≠ [] ∧ t.ledger.dispRetry = some 5 ∧ (isl t 29).inReset = false) ∧
    (let r := rq calBytes0; let s := calRootUp 0 (ledgerUp {})
     served calLoadService r s = true ∧ readCal r.payload = some cal0 ∧ (calRoot s cal0.index).calId = cal0.calId ∧
       loadAs s cal0 (calRoot s cal0.index).high = .pending ∧ ledgerOk s = true) ∧
    (let r := rq [0, 0, 0, 0]; let s := ledgerUp { cals := [(0, { active := some cal0 })] }
     served calGetService r s = true ∧ rd r.payload 1 1 = 0 ∧ zeroAt r.payload 2 2 = true ∧ (calIdx s (rd r.payload 0 1)).active = some cal0) ∧
    (let r := rq (le 2 1 ++ [0, 0] ++ le 4 0xFF000000); let s := ledgerUp {}
     let xs := (List.range (rd r.payload 0 2)).map (assignEntry r.payload)
     served tariffAssignService r s = true ∧ zeroAt r.payload 2 2 = true ∧
       (xs.zip (List.range (rd r.payload 0 2))).find? (fun x => assignBad s x.1) = none ∧
       jnlTakes (xs.filter (fun x => match tfind s.eps x.1 with
         | some e => (e.adm == .admitted || e.adm == .suspended) && e.img.cal != x.2.2
         | none => false)).length s = true) ∧
    (let r := rq [0, 0, 0, 0]; let s := { ledgerUp { cals := [(0, { active := some cal0 })] } with now := 1000 * 2 ^ 24 }
     let u := catchUp (rd r.payload 0 1) (secs s - 1) false (taken r s)
     served periodCloseNowService r s = true ∧ zeroAt r.payload 1 3 = true ∧ idxHeld s (rd r.payload 0 1) = true ∧ trusted s = true ∧ ledgerOk s = true ∧
       (calRoot u (rd r.payload 0 1)).lastApplied < secs s ∧ ledgerOk u = true) ∧
    (let r := rq (le 4 7 ++ le 4 9); let s := ledgerUp { pending := some [7] }; let q := rq (le 4 7 ++ le 4 0)
     served ledgerPageLostService r s = true ∧ closedTop s 7 < rd r.payload 4 4 ∧ served ledgerPageLostService q s = true ∧
       rd q.payload 4 4 ≤ closedTop s 7 ∧ rd r.payload 0 4 < 65536 ∧ isPending s (rd r.payload 0 4) = true ∧ ledgerOk s = true) := by
  exact ⟨by decide, by decide, by decide, by decide, by decide, by decide, by decide, by decide, by decide, by decide, by decide, by decide, by decide⟩

theorem witness_LedgerOpcodeEffects :
    (let r := rq (le 4 0); let s := ledgerUp {}
     served ledgerGetService r s = true ∧ rd r.payload 0 4 < 1048576 ∧ (tfind s.eps (rd r.payload 0 4)).isSome = true ∧
       served ledgerGetService (rq (le 4 9)) s = true ∧ tfind s.eps (rd (le 4 9) 0 4) = none) ∧
    (let r := rq [0, 0, 0, 0]; let s : State := { reqUp .committed with chans := [(0, { state := .idle })] }
     served ledgerExportStartService r s = true ∧ zeroAt r.payload 1 3 = true ∧ s.ledger.exportChan = none ∧ bindCheck 0 s = none ∧
       served statementStartService r s = true ∧ s.ledger.stmtChan = none) ∧
    (let r := rq ([1, 0, 0, 0] ++ le 2 7 ++ le 2 0 ++ le 4 0); let s := ledgerUp {}
     let xs := (List.range (rd r.payload 0 2)).map (confirmEntry r.payload)
     served ledgerConfirmService r s = true ∧ rd r.payload 0 2 ≤ 1024 ∧ zeroAt r.payload 2 2 = true ∧ xs.any (fun x => x.2.1 != 0 || sealedVer s x.1 < x.2.2) = false ∧
       xs.filter (fun x => x.2.2 == sealedVer s x.1 && x.2.2 != confVer s x.1) = []) ∧
    (let r := rq ([1, 0, 0, 0] ++ le 2 7 ++ le 2 0 ++ le 4 1); let s : State := { ledgerUp {} with roots := { (ledgerUp {}).roots with sealedVer := [(7, 1)] } }
     let xs := (List.range (rd r.payload 0 2)).map (confirmEntry r.payload)
     served ledgerConfirmService r s = true ∧ rd r.payload 0 2 ≤ 1024 ∧ zeroAt r.payload 2 2 = true ∧ xs.any (fun x => x.2.1 != 0 || sealedVer s x.1 < x.2.2) = false ∧
       xs.filter (fun x => x.2.2 == sealedVer s x.1 && x.2.2 != confVer s x.1) ≠ []) ∧
    (served ledgerPendingGetService (rq (le 2 0 ++ le 2 256)) (reqUp .committed) = true ∧ rd (le 2 0 ++ le 2 256) 2 2 ≤ 256) ∧
    (let b : Bundle := { mode := 0, records := [], openTime := 0, bseq := 3, written := true, once := true }
     let s := ledgerUp { stmtSigned := [b] }
     served statementConfirmService (rq (le 4 0)) s = true ∧ rd (le 4 0) 0 4 ≤ s.roots.sseqConf ∧ served statementConfirmService (rq (le 4 3)) s = true ∧
       s.roots.sseqConf < rd (le 4 3) 0 4 ∧ rd (le 4 3) 0 4 ≤ stmtLastWritten s ∧ served statementConfirmService (rq (le 4 4)) s = true ∧
       s.roots.sseqConf < rd (le 4 4) 0 4 ∧ stmtLastWritten s < rd (le 4 4) 0 4 ∧ served statementRewindService (rq (le 4 3)) s = true) ∧
    (served graniteInfoGetService (rq []) (reqUp .committed) = true ∧ served ledgerStatusGetService (rq []) (reqUp .committed) = true) ∧
    (let r := rq (le 4 0 ++ [3, 0] ++ le 2 300); let q := rq (le 4 9 ++ [0, 0] ++ le 2 10); let s := ledgerUp {}
     served displayShowService r s = true ∧ rd r.payload 4 1 ≤ 3 ∧ zeroAt r.payload 5 1 = true ∧ 10 ≤ rd r.payload 6 2 ∧ rd r.payload 6 2 ≤ 300 ∧
       thas s.eps (rd r.payload 0 4) = true ∧ served displayShowService q s = true ∧ thas s.eps (rd q.payload 0 4) = false) := by
  decide

theorem insertEp_free (h : Nat) (a : DWord) (plc : Bool) (st : Adm) (s : State) (i : Nat) (f : freeStash s = some i) : ∃ u, insertEp h a plc st s = some u := by
  unfold insertEp
  split
  · exact ⟨_, rfl⟩
  · rw [f]; exact ⟨_, rfl⟩

theorem placeAll_one (x : EnrolIn) (s : State) (i : Nat) (f : freeStash s = some i) : ∃ u, placeAll [x] 0 s = (u, none) := by
  obtain ⟨u, e⟩ := insertEp_free x.handle x.addr (enPlc x) .pending { s with eps := tset s.eps x.handle (newEndpoint s x) } i f
  unfold placeAll
  dsimp only
  rw [e]
  exact ⟨_, rfl⟩

/-- A state that takes enrolment: the directory key is drawn. -/
def dirState : State := { plcUp {} with dir := { (plcUp {}).dir with kdir := some 0 } }

def enrolBytes : List Byte := le 2 1 ++ le 2 0 ++ le 8 0x1234 ++ le 3 7 ++ [0x40] ++ le 4 900 ++ le 4 7200 ++ [1, 0] ++ le 2 0

set_option maxRecDepth 20000 in
theorem witness_DirectoryOpcodeEffects :
    (let r := rq enrolBytes; let s := dirState; let xs := (List.range (rd r.payload 0 2)).map (enrolIn r.payload)
     served enrolService r s = true ∧ s.dir.rehash ≠ 2 ∧ s.dir.kdir.isSome = true ∧ zeroAt r.payload 2 2 = true ∧ rd r.payload 0 2 ≤ 2048 ∧
       firstBadSeen (enrolBadParam s) [] 0 xs = none ∧ firstBad (fun (x : EnrolIn) => thas s.eps x.handle) xs 0 = none ∧
       firstBadSeen (enrolNoRes s) [] 0 xs = none ∧ xs.length = 1 ∧ freeStash (taken r s) = some 0) ∧
    (∃ u, placeAll ((List.range (rd (rq enrolBytes).payload 0 2)).map (enrolIn (rq enrolBytes).payload)) 0 (taken (rq enrolBytes) dirState) = (u, none)) ∧
    (let r := rq enrolBytes; let s : State := { dirState with eps := [(7, {})] }; let xs := (List.range (rd r.payload 0 2)).map (enrolIn r.payload)
     served enrolService r s = true ∧ firstBadSeen (enrolBadParam s) [] 0 xs = none ∧ firstBad (fun (x : EnrolIn) => thas s.eps x.handle) xs 0 = some 0) ∧
    (let s : State := { dirState with eps := [(7, { isNew := true })] }; let x := enrolIn enrolBytes 0
     (ep? s x.handle).any (fun e => e.isNew) = true ∧ bit x.attach 6 = true) ∧
    (let r := rq (le 2 1 ++ le 2 0 ++ le 4 0); let s : State := { dirState with eps := [(0, { adm := .admitted })] }
     served withdrawService r s = true ∧ s.dir.rehash ≠ 2 ∧ zeroAt r.payload 2 2 = true ∧ (listedHandles r.payload).length ≤ 8192 ∧
       firstBad (fun h => decide (2 ^ 20 ≤ h)) (listedHandles r.payload) 0 = none ∧ badWithdraw s [] 0 (listedHandles r.payload) = none ∧
       listedHandles r.payload ≠ []) ∧
    (let r := rq (le 2 1 ++ le 2 0 ++ le 3 0 ++ [2]); let s : State := { dirState with eps := [(0, { adm := .admitted })] }
     let xs := (List.range (rd r.payload 0 2)).map (admitEntry r.payload)
     served admitStateSetService r s = true ∧ zeroAt r.payload 2 2 = true ∧ rd r.payload 0 2 ≤ 8192 ∧
       firstBad (fun (x : Nat × Nat × Nat) => x.2.1 != 0 || (x.2.2 != 1 && x.2.2 != 2)) xs 0 = none ∧
       firstBad (fun (x : Nat × Nat × Nat) => !admitsChange s x.1) xs 0 = none ∧
       firstBad (fun (x : Nat × Nat × Nat) => !admitsChange { s with eps := [] } x.1) xs 0 = some 0) ∧
    (let r := rq (le 2 1 ++ le 2 0 ++ le 4 0 ++ le 4 900 ++ le 2 24 ++ [0, 0]); let s := dirState
     served endpointUpdateService r s = true ∧ zeroAt r.payload 2 2 = true ∧ rd r.payload 0 2 ≤ 8192 ∧
       firstBad (updBad s r.payload) (List.range (rd r.payload 0 2)) 0 = none) ∧
    (let r := rq (le 4 0); let q := rq (le 4 9); let s := dirState
     served endpointGetService r s = true ∧ (ep? s (rd r.payload 0 4)).isSome = true ∧ served endpointGetService q s = true ∧ ep? s (rd q.payload 0 4) = none ∧
       served tallyClearService r s = true) ∧
    (let r := rq (le 8 5); let s : State := { dirState with dir := { dirState.dir with stash := [(0, { addr := 5, handle := 0, plc := false, state := .admitted })] } }
     served addrLookupService r s = true ∧ (lookup s (BitVec.ofNat 64 (rd r.payload 0 8))).isSome = true) ∧
    (let r := rq (le 8 5); served addrLookupService r dirState = true) ∧
    (let r := rq (le 4 0 ++ le 2 256 ++ le 2 0)
     served tallyGetService r dirState = true ∧ zeroAt r.payload 6 2 = true ∧ rd r.payload 4 2 ≤ 256 ∧ rd r.payload 0 4 < 2 ^ 20 ∧
       rd r.payload 0 4 + rd r.payload 4 2 ≤ 2 ^ 20) ∧
    (let r := rq []; let s := dirState
     served dirStatusGetService r s = true ∧ served dirRehashService r s = true ∧ busyFor .rh s = false ∧ served unknownClearService r s = true) ∧
    (let r := rq (le 2 960 ++ le 2 64)
     served unknownGetService r dirState = true ∧ rd r.payload 2 2 ≤ 64 ∧ rd r.payload 0 2 + rd r.payload 2 2 ≤ 1024) := by
  exact ⟨by decide, placeAll_one _ _ 0 (by decide), by decide, by decide, by decide, by decide, by decide, by decide, by decide, by decide, by decide, by decide, by decide⟩

/-- An address that no stash entry and no slot of an empty table holds is not found. -/
theorem witness_DirectoryLookup : lookup dirState (BitVec.ofNat 64 (rd (le 8 5) 0 8)) = none := by
  rw [lookup, show dirState.dir.stash = [] from rfl, show dirState.dir.table = [] from rfl]
  simp [tfind]

/-- A state with one endpoint of handle 0 and one frame of it in the given stage. -/
def dirUpState (e : Endpoint) (st : FrameStage) : State :=
  { dirState with eps := [(0, e)], dir := { dirState.dir with frames := [{ id := 0, handle := 0, stage := st }] } }

/-- The header word, two PSDU words and two trailers of a packet of 14 octets. -/
def packetWords : List QWord :=
  [{ word := 14 * 2 ^ 32 }, { word := 0 }, { word := 0 }, { word := 0 }, { word := 0, isEnd := true }]

def packetQueue : FtQueue := { packets := [{ words := packetWords, ended := true }] }

def airIn0 : AirIn := { lane := 0, port := 0, channel := 0, mode := 0, deep := false, dw := false, short := false, status := 0, rssi := 0, endTime := 0, psdu := [0x00, 0x01] ++ le 20 0 }

set_option maxRecDepth 20000 in
theorem witness_DirectoryFrameEffects :
    (let s : State := setLane 0 (fun x => { x with queue := packetQueue }) dirState
     dirUp s = true ∧ (takePacket (clearHead (lane s 0).queue)).isSome = true ∧ (airIn packetWords).isSome = true ∧ (takePacket (clearHead (lane s 0).queue)).any (fun x => x.1 == packetWords) = true) ∧
    (let x := airIn0; let s := dirState
     x.status = 0 ∧ storeFits s x.psdu.length = true ∧ isData x.psdu = true ∧ dataHead x.psdu + 8 ≤ x.psdu.length ∧ bit (fcOf x.psdu) 3 = false) ∧
    (let s := dirState; let f : Found := { handle := 0, plc := false, state := .admitted, inStash := true }
     f.plc = false ∧ cannotUse s f.handle = false) ∧
    (let s : State := setPlc 0 (fun x => { x with queue := packetQueue }) dirState
     (takePacket (clearHead (plcp s 0).queue)).any (fun x => x.1 == packetWords) = true) ∧
    (let s := dirUpState {} .serial; let f : Frame := { id := 0, handle := 0, stage := .serial }
     frame? s 0 = some f ∧ dirUp s = true ∧ s.fw.pause = none ∧ s.cfg.lastTc ≤ f.endTime ∧ serialTurn s f = true ∧ cannotUse s f.handle = false ∧ (ep? s f.handle).isSome = true) ∧
    (let s := dirUpState { addr := 5 } .serial; let f : Frame := { id := 0, handle := 0, stage := .serial }
     (ep? s f.handle).any (fun e => e.addr != f.src) = true ∧ f.plc = false) ∧
    (let s : State := { dirUpState {} .serial with blobs := [] }; let f : Frame := { id := 0, handle := 0, stage := .serial }
     (ep? s f.handle).any (fun e => e.addr == f.src) = true ∧ epKey f.handle s = (s, none)) ∧
    (let s : State := dirUpState { keyHeld := some [1] } .serial; let f : Frame := { id := 0, handle := 0, stage := .serial }
     (ep? s f.handle).any (fun e => e.addr == f.src) = true ∧ epKey f.handle s = (s, some [1])) ∧
    (let f : Frame := { id := 0, handle := 0, fcnt := 8001 }; let i : Image := { fcntTop := 8000, win := 0xFB }
     dedup i f.fcnt 65536 = .accept false ∧ dedup { i with fcntTop := 8001, win := 0x1F7 } 8001 65536 = .duplicate ∧
       dedup { i with fcntTop := 8001, win := 0x1FF } 7930 65536 = .stale ∧ i.win ≠ 0) ∧
    (let s := dirUpState {} .buffer; buffersUsed s < fetchBuffers ∧ (s.dir.frames.find? (fun f => f.stage == .buffer)).isSome = true) ∧
    (let s0 := dirUpState {} .fetch; let s : State := { s0 with mem := { s0.mem with fetches := [0] } }
     let w : BurstErr := { rank := 0, row := 0, syms := [], wrongAddr := true }; let a : FetchIn := { bursts := [] }; let b : FetchIn := { bursts := [(0, w), (18, w)] }
     s.mem.fetches.contains 0 = true ∧ cannotUse (install 0 (fetchUe 0 a s)) 0 = false ∧ cannotUse (install 0 (fetchUe 0 b s)) 0 = true) ∧
    (let s : State := { dirState with eps := [(0, { adm := .retiring, closedOut := true, retireAt := some 9 })] }
     mayEmpty (withdrawClose 0 s) 0 = true ∧ anyCustody (withdrawClose 0 s) 0 = false) ∧
    (let s : State := { dirState with eps := [(0, { adm := .retiring, closedOut := true, retireAt := some 9, evCustody := [1] })] }
     mayEmpty (discardCustody 0 (withdrawClose 0 (advMono 9 s))) 0 = true ∧ anyCustody (withdrawClose 0 (advMono 9 s)) 0 = true) ∧
    (let s : State := { dirState with dir := { dirState.dir with rehash := 2 } }; s.dir.rehash = 2 ∧ dirUp s = true) := by
  exact ⟨by decide, by decide, by decide, by decide, by decide, by decide, by decide, by decide, by decide, by decide, by decide, by decide, by decide, by decide⟩

/-- One sub-band of a profile, 32 bytes. -/
def subBytes0 : List Byte := le 4 863000 ++ le 4 870000 ++ le 2 100 ++ le 2 4000 ++ le 2 0 ++ [0, 0] ++ le 2 200 ++ leI 2 (-900) ++ [3, 5, 4, 0] ++ le 2 0 ++ le 2 0 ++ leI 2 140 ++ [0, 0]

set_option maxRecDepth 20000 in
theorem witness_AirOpcodeEffects :
    (let r := rq ([7, 1, 0, 0] ++ subBytes0); let s := winUp .configuring {}
     served bandProfileSetService r s = true ∧ rd r.payload 0 1 ≤ 7 ∧ 1 ≤ rd r.payload 1 1 ∧ rd r.payload 1 1 ≤ 8 ∧ zeroAt r.payload 2 2 = true ∧
       (List.range (rd r.payload 1 1)).all (fun k => subOk r.payload (4 + 32 * k)) = true ∧
       subsOverlap ((List.range (rd r.payload 1 1)).map (fun k => readSub r.payload (4 + 32 * k))) = false ∧ s.cfg.window = some {}) ∧
    (let r := rq [0, 1]; let s := winUp .configuring {}; let t := reqUp .committed
     served bandProfileGetService r s = true ∧ rd r.payload 0 1 ≤ 7 ∧ rd r.payload 1 1 = 1 ∧ s.cfg.window.isSome = true ∧ served bandProfileGetService r t = true ∧
       t.cfg.window = none ∧ served bandProfileGetService (rq [0, 0]) t = true) ∧
    (let r := rq [7, 0, 0, 0]; let s := sectorUp
     served dutyStatusGetService r s = true ∧ portField r.payload = some 7 ∧ served sectorStatusGetService r s = true) ∧
    (let r := rq (le 4 0 ++ [0, 0, 0, 0] ++ le 4 375 ++ le 4 86400); let s0 := sectorUp; let s : State := { s0 with eps := [(0, { air := .tracking })] }
     served connectOpenService r s = true ∧ rd r.payload 0 4 < 2 ^ 20 ∧ rd r.payload 4 1 ≤ 7 ∧ rd r.payload 5 1 ≤ 9 ∧ zeroAt r.payload 6 2 = true ∧
       3 * 125 * 2 ^ rd r.payload 5 1 ≤ rd r.payload 8 4 ∧ rd r.payload 8 4 ≤ 3600000 ∧ 1 ≤ rd r.payload 12 4 ∧ rd r.payload 12 4 ≤ 86400 ∧ secVal s 0 0xA ≠ 0xFF ∧
       2 ≤ (mapChannels (secVal s 0 8) (secVal s 0 9)).length ∧ pinnedCount s < 8192) ∧
    (let r := rq (le 4 0); let s : AirState → State := fun a => { reqUp .committed with eps := [(0, { air := a })] }
     served connectCloseService r (s .opening) = true ∧ served connectCloseService r (s .connected) = true ∧ served connectCloseService r (s .lost) = true ∧
       served airStateGetService r (s .lost) = true ∧ (ep? (s .lost) 0).isSome = true ∧ served airStateGetService (rq (le 4 1)) (s .lost) = true ∧
       ep? (s .lost) 1 = none) := by
  exact ⟨by decide, by decide, by decide, by decide, by decide⟩

/-- A state whose sector 0 transmits with key slot 2, with the given sector part. -/
def secUp (x : Sector) : State :=
  { plcUp {} with sectors := [(0, x)], eps := [(0, { air := .opening })], slots := { slots := [(2, { typ := 2, usage := 4, key := [1] })], base := 0, allSpent := false }, cfg := { (plcUp {}).cfg with vals := (plcUp {}).cfg.vals ++ [(pidSector 0 5, 100), (pidSector 0 7, 2), (pidSector 0 0xE, 3)] } }

/-- The same where listening before talk is required. -/
def lbtUp (x : Sector) : State :=
  { secUp x with cfg := { (secUp x).cfg with profiles := [(0, [(0, { ((tget (secUp x).cfg.profiles 0 []).map (·.2)).headD {} with lbtReq := true })])] } }

def due0 (l : Option Lbt) : DueBeacon := { bnum := 1, at_ := 0, viaPort := 0, content := some {}, lbt := l }

set_option maxRecDepth 20000 in
theorem witness_TransmissionEffects :
    (let s := secUp {}
     transmits s 0 = true ∧ beaconFresh s 0 1 = true ∧ s.cfg.lastTc ≤ beaconAt s 0 1 ∧ s.now ≤ beaconAt s 0 1 ∧ (secp s 0).due = none) ∧
    (let s := secUp { due := some (due0 none) }; (secp s 0).due = some (due0 none) ∧ missReason s (due0 none) ≠ missBudget ∧ (secp s 0).state = .normal ∧ (secp s 0).misses + 1 < 3) ∧
    (let s := secUp { due := some (due0 none), misses := 2 }; missReason s (due0 none) ≠ missBudget ∧ (secp s 0).state = .normal ∧ 3 ≤ (secp s 0).misses + 1) ∧
    (let s := secUp { due := some (due0 none) }; let d := due0 none; let c : BeaconContent := {}; let t := advTo 0 s
     (secp s 0).due = some d ∧ d.content = some c ∧ s.jnl.noCustody = false ∧ d.lbt = none ∧ blankFits s 0 0 = true ∧ d.at_ ≤ 0 ∧ 0 ≤ beaconLimit s 0 d ∧ s.now ≤ 0 ∧ d.viaPort = 0 ∧ rfUp t 0 = true ∧ (secp t 0).tx = none ∧
       (rfp t 0).state = .receiving ∧ txRule t 0 (viaChannel t 0 0 (anchorOf t 0 d.bnum)).1 (viaChannel t 0 0 (anchorOf t 0 d.bnum)).2 .beacon
         (trainUs (secVal t 0 3) c.pending.length c.beacon c.train) false = none ∧ (takeKeys (secVal t 0 7) (1 + c.train.length) t).2 = [[1]]) ∧
    (let s := secUp { state := .fallback, fbIntervals := 16 }; (secp s 0).state = .fallback ∧ 16 ≤ (secp s 0).fbIntervals) ∧
    (let x : AirTx := { cls := .beacon, sector := 0, channel := 0, subBand := 0, from_ := 0, monoFrom := 0, iqAt := 0, until_ := 9, custody := [] }
     let s := secUp { deepDue := some 1, tx := some x }
     (secp s 0).deepDue = some 1 ∧ (secp s 0).deepLbt = none ∧ blankFits s 0 s.now = true ∧ rfUp s 0 = true ∧ (secp s 0).tx = some x) ∧
    (let s0 := secUp { deepDue := some 1 }; let s : State := { s0 with jnl := { s0.jnl with noCustody := true } }; let v := setSec 0 (fun x => { x with deepDue := none }) s
     (secp s 0).deepDue = some 1 ∧ (secp s 0).deepLbt = none ∧ blankFits s 0 s.now = true ∧ rfUp v 0 = true ∧ (secp v 0).tx = none ∧ (rfp v 0).state = .receiving ∧ v.jnl.noCustody = true ∧
       txRule v 0 (secVal v 0 0xE) (chanEdges (bandOf v 0) (secVal v 0 0xE)) .beacon (deepUs 23) false = none ∧ (useSlot (secVal v 0 7) uMac v).2.isSome = true) ∧
    (let l : Lbt := { be := 3, nb := 0 }; let s := lbtUp { due := some (due0 (some l)) }
     canListen s 0 = true ∧ lbtSector s 0 listening = some (0, due0 (some l)) ∧
       powerBelow s 0 { sum := 0, n := 1 } (subBandOf s 0 (viaChannel s 0 0 (anchorOf s 0 1)).2).lbtThresh = true ∧
       powerBelow s 0 { sum := 1000000, n := 1 } (subBandOf s 0 (viaChannel s 0 0 (anchorOf s 0 1)).2).lbtThresh = false ∧ l.nb + 1 ≤ (subBandOf s 0 (viaChannel s 0 0 (anchorOf s 0 1)).2).nbMax) ∧
    (let l : Lbt := { be := 3, nb := 4 }; let s := lbtUp { due := some (due0 (some l)) }
     lbtSector s 0 listening = some (0, due0 (some l)) ∧ (subBandOf s 0 (viaChannel s 0 0 (anchorOf s 0 1)).2).nbMax < l.nb + 1) ∧
    (let l : Lbt := { be := 3, nb := 1, backingOff := true, until_ := 5 }; let s := lbtUp { due := some (due0 (some l)) }
     lbtSector s 0 backingOff = some (0, due0 (some l))) ∧
    (let a : SchedAck := { lane := 4, channel := 0, mode := 0, dw := false, fcnt8 := 9, endTime := 0, decided := 0 }; let s := secUp { acks := [a] }
     let u := advTo (a.endTime + tUs 1000) (setSec 0 (fun x => { x with acks := x.acks.erase a }) s)
     (secp s 0).acks.find? (fun a => a.lane == 4) = some a ∧ u.now ≤ a.endTime + tUs 1000 + tUs 10 ∧
       txRule u 0 a.channel (chanEdges (bandOf u 0) a.channel) .ack (ackUs a.mode) (airBusy u 0 u.now (ackUs a.mode)) = none) ∧
    (let a : SchedAck := { lane := 4, channel := 0, mode := 0, dw := false, fcnt8 := 9, endTime := 0, decided := 0 }; let s := secUp { acks := [a], due := some (due0 none) }
     let u := advTo (a.endTime + tUs 1000) (setSec 0 (fun x => { x with acks := x.acks.erase a }) s)
     (secp s 0).acks.find? (fun a => a.lane == 4) = some a ∧
       txRule u 0 a.channel (chanEdges (bandOf u 0) a.channel) .ack (ackUs a.mode) (airBusy u 0 u.now (ackUs a.mode)) = some .busy) ∧
    (let o : DlOpp := { handle := 0, channel := 0, mode := 0, endTime := 0, lbt := none }; let s := secUp { dlOpp := [o] }; let t := tMs 20
     (secp s 0).dlOpp.find? (fun o => o.handle == 0) = some o ∧ dlWhat s 0 = some .connect ∧ o.lbt = none ∧ blankFits s 0 t = true ∧ s.now ≤ t ∧ o.endTime + tMs 20 ≤ t ∧ t ≤ o.endTime + tMs 100 ∧
       txRule (advTo t s) 0 o.channel (chanEdges (bandOf (advTo t s) 0) o.channel) .downlink (downUs o.mode (whatLen .connect))
         (airBusy (advTo t s) 0 t (downUs o.mode (whatLen .connect)) || ackInWay (advTo t s) 0 t (downUs o.mode (whatLen .connect))) = none) ∧
    (let c : Charge := { cls := .beacon, quanta := 3, at_ := 0 }; let s : State := { secUp {} with duty := [(0, { charges := [c] })] }; (acct s 0 0).charges = [c]) := by
  exact ⟨by decide, by decide, by decide, by decide, by decide, by decide, by decide, by decide, by decide, by decide, by decide, by decide, by decide, by decide⟩

set_option maxRecDepth 20000 in
theorem witness_AirStateEffects :
    (let e : Endpoint := { air := .tracking, winOpen := true, supervS := 60 }; let s : State := { secUp {} with eps := [(0, e)] }
     ep? s 0 = some e ∧ e.plc = false ∧ e.air = .tracking ∧ e.winOpen = true ∧ e.supervS ≠ 0 ∧ s.cfg.everCommitted = true) ∧
    (let e : Endpoint := { air := .opening, connectSent := true, lastEvent := some (0, 3, 5) }; let s : State := { secUp {} with eps := [(0, e)] }
     ep? s 0 = some e ∧ e.air = .opening ∧ e.connectSent = true ∧ answersEvent e 0 3 (5 + tUs 1000) = true ∧ e.plc = false) ∧
    (let e : Endpoint := { air := .connected, closing := true, connMapMask := 0xFF, hop := 1 }; let s : State := { secUp {} with eps := [(0, e)] }
     ep? s 0 = some e ∧ e.air = .connected ∧ (mapAt 0 e) = e ∧ e.connT0 + tUs 10 < { s with now := 2 ^ 24 }.now) ∧
    (let e : Endpoint := { air := .connected, connMapMask := 0xFF, hop := 1 }; let s : State := { secUp {} with eps := [(0, e)] }
     let us := sunUs (secVal s 0 3) (17 + 2 * 0 + evLen (evWhat s 0 e) + 8 + 4)
     s.now ≤ 0 + tUs 10 ∧ [] = (if s.jnl.noCustody then [] else e.evCustody.take 16) ∧ lbtStart s 0 (chanEdges (bandOf s 0) (eventChannel e)) = none ∧
       txRule s 0 (eventChannel e) (chanEdges (bandOf s 0) (eventChannel e)) .downlink us (airBusy s 0 s.now us || ackInWay s 0 s.now us) = none ∧ evWhat s 0 e = .nothing) ∧
    (let e : Endpoint := { air := .opening }; let s : State := { secUp {} with eps := [(0, e)] }; ep? s 0 = some e ∧ e.air = .opening ∧ e.connectSent = false) := by
  exact ⟨by decide, by decide, by decide, by decide, by decide⟩

set_option maxRecDepth 20000 in
theorem witness_PowerLineOpcodeEffects :
    (let r := rq []; let q := rq [3, 0, 0, 0]; let s := plcUp {}
     served plcPortStatusGetService r s = true ∧ served plcCalGetService q s = true ∧ plcField q.payload = some 3) ∧
    (let q := rq [3, 0, 0, 0]; let p := rq [0, 0, 0, 0]; let s := plcUp {}; let t : State := { s with plcMac := { s.plcMac with running := [(0, { id := 0, handle := 0, port := 0, kind := 1, rank := 3, due := 0 })] } }
     served plcRecalibrateService q s = true ∧ plcField q.payload = some 3 ∧ (plcp s 3).state = .absent ∧ (plcp { s with plc := [(3, { state := .disabled })] } 3).state = .disabled ∧
     served plcRecalibrateService p s = true ∧ plcField p.payload = some 0 ∧ (plcp s 0).state ≠ .absent ∧ (plcp s 0).state ≠ .disabled ∧ runIn s 0 = none ∧
     (runIn t 0).isSome = true ∧ served plcRecalibrateService p t = true ∧ (plcp s 0).state ≠ .fault) ∧
    (let r := rq (le 4 0); let q := rq (le 4 1); let s := plcUp {}
     served plcLinkGetService r s = true ∧ (plcEp r.payload s).isSome = true ∧ served plcLinkGetService q s = true ∧ plcEp q.payload s = none ∧
       served plcRouteGetService r s = true ∧ served plcRouteUnpinService r s = true ∧ served plcRouteProposalsGetService (rq (le 2 0 ++ le 2 64)) s = true ∧
       served plcRouteProposalsGetService (rq (le 2 4095 ++ le 2 2)) s = true) ∧
    (let r := rq (le 4 0 ++ [0, 0, 0, 0]); let s := plcUp {}
     served plcRouteSetService r s = true ∧ (plcEp r.payload s).isSome = true ∧ rd r.payload 4 1 ≤ 7 ∧ zeroAt r.payload 5 3 = true ∧ (setRoute 0 0 [] (taken r s)).2 = true) ∧
    (let r := rq (le 4 0 ++ [1, 0, 0, 0]); let s := plcUp {}
     served plcPollNowService r s = true ∧ (plcEp r.payload s).isSome = true ∧ rd r.payload 4 1 ≤ 3 ∧ zeroAt r.payload 5 3 = true ∧ plcServes s 0 = true) := by
  exact ⟨by decide, by decide, by decide, by decide, by decide⟩

def txn0 : PlcTxn := { id := 0, handle := 0, port := 0, kind := 1, rank := 3, due := 0 }

/-- A state of plcUp whose port 0 has a transaction in progress. -/
def txnUp (st : PlcState) (x : PlcTxn) (e : Endpoint) : State :=
  { plcUp e with plc := [(0, { state := st, present := true, faults := [0, 0] })], plcMac := { (plcUp {}).plcMac with running := [(0, x)] } }

set_option maxRecDepth 20000 in
theorem witness_PowerLineTransactionEffects :
    (let s0 := plcUp {}; let s : State := { s0 with plcMac := { s0.plcMac with queue := [txn0] } }
     s.cfg.everCommitted = true ∧ s.now ≤ 0 ∧ groupFree s 0 0 = true ∧ nextTxn s 0 = some txn0) ∧
    (groupFree (txnUp .idle txn0 {}) 0 0 = false) ∧
    (let s0 := plcUp { keyHeld := some [1] }; let s : State := s0
     (ep? s 0).isSome = true ∧ txn0.camp = none ∧ dlKey txn0.handle s = (s, some [1])) ∧
    (let s := txnUp .transmitting txn0 {}; tfind s.plcMac.running 0 = some txn0 ∧ (plcp s 0).state = .transmitting) ∧
    (let x := { txn0 with inAttempt := true, attempt := 1 }; let s := txnUp .listening x {}
     runIn s 0 = some x ∧ x.inAttempt = true ∧ x.judging = false ∧ (plcp s x.port).state = .listening ∧ (plcp s x.port).rx = none ∧ x.attempt < 4) ∧
    (let x := { txn0 with attempt := 4 }; let y := { txn0 with attempt := 1 }; let s := txnUp .idle y {}
     4 ≤ x.attempt ∧ runIn s 0 = some y ∧ y.inAttempt = false ∧ y.ldRetry = false ∧ y.gate = false ∧ y.attempt ≠ 0 ∧ plcServes s y.port = true ∧ y.camp = none) ∧
    (let s0 := plcUp { pollFails := 0 }; let s : State := { s0 with cfg := { s0.cfg with vals := s0.cfg.vals ++ [(0x3008, 2)] } }
     (ep? s 0).any (fun e => e.poll != .unreachable && decide (e.pollFails + 1 < pval s 0x3008)) = true) ∧
    (let s0 := plcUp { pollFails := 1 }; let s : State := { s0 with cfg := { s0.cfg with vals := s0.cfg.vals ++ [(0x3008, 2)] } }
     (ep? s 0).any (fun e => e.poll != .unreachable && decide (pval s 0x3008 ≤ e.pollFails + 1)) = true) ∧
    (let s0 := txnUp .transmitting txn0 {}; let s : State := { s0 with plc := [(0, { state := .transmitting, present := true })] }
     (plcp s 0).state = .transmitting ∧ s.now ≤ 0 ∧ (plcp s 0).faults = [] ∧ tfind s.plcMac.running 0 = some txn0 ∧ txn0.port = 0) ∧
    (let s := txnUp .transmitting txn0 {}
     (plcp s 0).state = .transmitting ∧ 3 ≤ 1 + ((plcp s 0).faults.filter (fun u => (advTo 0 s).mono < u + tSec 60)).length) ∧
    (let x := { txn0 with ldRetry := true }; let s := txnUp .idle x {}
     tfind s.plcMac.running 0 = some x ∧ x.ldRetry = true ∧ plcServes s 0 = true) := by
  exact ⟨by decide, by decide, by decide, by decide, by decide, by decide, by decide, by decide, by decide, by decide, by decide⟩

def plcHdr0 (v : BitVec 24) : PlcHdrIn := { bits := v, crc := crc8Bits v, snr := 200, at_ := 0 }

/-- A Gale header of 24 octets. -/
def galeBits : BitVec 24 := BitVec.ofNat 24 (2 + 4096 * 24)

def galeRx : PlcRx := { mode := 2, hdrSnr := 200, left := 20 }

def rxUp (r : PlcRx) : State := { txnUp .listening { txn0 with inAttempt := true, attempt := 1 } {} with plc := [(0, { state := .listening, present := true, rx := some r })] }

set_option maxRecDepth 20000 in
theorem witness_PowerLineReceptionEffects :
    (let s := txnUp .listening { txn0 with inAttempt := true, attempt := 1 } {}; let h := plcHdr0 galeBits
     plcHears s 0 = true ∧ (plcp s 0).rx = none ∧ headerBad h.bits (h.crc + 1) = true ∧ headerBad h.bits h.crc = false ∧ inListening s 0 h.at_ = true ∧
       (rxQueue (advTo h.at_ s) 0 (plcHeaderWord 0 h.bits h.snr) false 0).isSome = true) ∧
    (let s := plcUp {}; inListening s 0 0 = false ∧ plcHears s 0 = true ∧ (plcp s 0).rx = none) ∧
    (let s := rxUp galeRx; (plcp s 0).rx = some galeRx ∧ galeRx.ended = false ∧ galeRx.doomed = false ∧ plcHears s 0 = true ∧ galeRx.preMark = 0 ∧ 20 < 21 ∧
       (takeSoft [1] galeRx (judgeSymbol 200 0 galeRx)).erased ≤ allowance (takeSoft [1] galeRx (judgeSymbol 200 0 galeRx)).mode) ∧
    (let r := { galeRx with erased := 16 }; let s := rxUp r; (plcp s 0).rx = some r ∧ allowance (takeSoft [1] r (judgeSymbol 200 21 r)).mode < (takeSoft [1] r (judgeSymbol 200 21 r)).erased) ∧
    (let s := rxUp galeRx; let f : PlcEnd := { groups := [], endTime := 0 }; let u := rxOctets 0 (decoded galeRx galeRx.len) true (advTo f.endTime s)
     (plcp s 0).rx = some galeRx ∧ ((plcp u 0).rx.any (fun r => !r.overflow)) = true ∧ trailerRoom (plcp u 0).queue = true) ∧
    (let r := { galeRx with overflow := true }; let s := rxUp r; let f : PlcEnd := { groups := [], endTime := 0 }
     (plcp (rxOctets 0 (decoded r r.len) true (advTo f.endTime s)) 0).rx = some r ∧ (plcp s 0).rx = some r ∧ r.overflow = true ∧ trailerRoom (plcp s 0).queue = true ∧
       (tfind s.plcMac.running 0).any (fun x => x.inAttempt) = true) ∧
    (let s := plcUp { reportS := 900, reportIn := 900, poll := .reachable, plcCustody := [4] }; let t := plcUp { poll := .unreachable }
     (ep? s 0).any (fun e => e.plc && e.reportIn != 0 && e.poll != .unreachable && !e.plcCustody.isEmpty) = true ∧ plcServes s 0 = true ∧ s.cfg.everCommitted = true ∧
       queuedFor s 0 1 3 = false ∧ readRuns s 0 = false ∧ t.plcMac.running.any (fun y => y.2.handle == 0) = false ∧ queuedFor t 0 0 3 = false ∧ (ep? t 0).any (fun e => e.plc && e.poll == .unreachable) = true ∧ plcServes t 0 = true ∧ queuedFor t 0 1 3 = false ∧ queuedFor s 0 4 2 = false) ∧
    (let s0 := plcUp { poll := .reachable }; let s : State := { s0 with cfg := { s0.cfg with vals := s0.cfg.vals ++ [(0x300C, 3600)] } }; let t : State := { s0 with cfg := { s0.cfg with vals := (0x300C, 0) :: s0.cfg.vals } }
     pval s 0x300C ≠ 0 ∧ s.eps = [(0, { poll := .reachable, plc := true, port := 0 })] ∧ plcServes s 0 = true ∧ queuedFor s 0 2 4 = false ∧ pval t 0x300C = 0) ∧
    (let l : PlcLink := { port := 0, src := none, dst := some 0 }; let s0 := plcUp {}; let s : State := { s0 with plcMac := { s0.plcMac with links := [l] } }; s.plcMac.links[0]? = some l) ∧
    (let s : State := { plcUp {} with plc := [(0, { state := .calibrating, present := true })] }
     (plcp s 0).state = .calibrating ∧ islUp s (islPlc 0) = true ∧ (isl s (islPlc 0)).bistDue = false) := by
  exact ⟨by decide, by decide, by decide, by decide, by decide, by decide, by decide, by decide, by decide, by decide⟩

theorem witness_BackupClockEffects :
    (calTick { subsec := 1023 }).2.1 = true ∧
    (alarmMatch { time := 0x20404040, date := 0x810, ctrl := 1 } (calTick { subsec := 1023 }).1 = true ∧ controlUp hostUp = true) ∧
    (({ year := 2399, month := 12, day := 31, hour := 23, min := 59, sec := 59, subsec := 1023 } : Calendar).year ≤ 2399) ∧
    (controlUp hostUp = true ∧ 5 < 8 ∧ 5 ≠ 6 ∧ hostUp.bkp.shadow = none ∧ hostUp.bkp.writeSet = none) ∧
    (({ hostUp with bkp.shadow := some ({}, 7), bkp.writeSet := some ({ day := 31 }, 9) } : State).bkp.shadow = some ({}, 7)) ∧
    calValid (setCalField {} 6 2399) = true ∧ calValid (setCalField { day := 29, month := 2 } 6 2100) = false ∧
    (({ hostUp with trustSeen := some true } : State).trustSeen = some true) ∧
    (tget ({ hostUp with bkp.tampCfg := [(3, 0x11)] } : State).bkp.tampCfg 3 0).getLsbD 0 = true ∧
    ((tget ({ hostUp with bkp.tamp := [(3, { active := true })] } : State).bkp.tamp 3 {}).active = true ∧ (tget hostUp.bkp.tamp 3 {}).active = false ∧ hostUp.bkp.trimNow = 0) ∧
    (State.reset.bkp.sealOpen = false ∧ controlUp State.reset = false) ∧
    (({ State.reset with bkp.sealOpen := true } : State).bkp.sealOpen = true) ∧
    (hostUp.bkp.sealOpen = false ∧ ({ hostUp with jnl.replayed := true } : State).jnl.replayed = true) ∧
    (({ hostUp with bkp.offAt := some 5 } : State).bkp.offAt = some 5) := by decide

theorem witness_BackupOpcodeEffects :
    served timeGetService (rq []) (reqUp .unconfigured) = true ∧
    (served timeSetService (rq [0x36, 8, 2, 28, 23, 59, 59, 6, 0xFF, 3, 0, 0]) (reqUp .committed) = true ∧ (reqUp .committed).bkp.shadow = none ∧ (reqUp .committed).bkp.writeSet = none ∧
      zeroAt [0x36, 8, 2, 28, 23, 59, 59, 6, 0xFF, 3, 0, 0] 10 2 = true ∧ calValid (readCalBlock [0x36, 8, 2, 28, 23, 59, 59, 6, 0xFF, 3, 0, 0]) = true ∧
      ledgerOk (taken (rq [0x36, 8, 2, 28, 23, 59, 59, 6, 0xFF, 3, 0, 0]) { reqUp .committed with jnl.replayed := true }) = true) ∧
    (served timeSetService (rq [0x34, 8, 2, 29, 23, 59, 59, 6, 0xFF, 3, 0, 1]) (reqUp .committed) = true ∧ zeroAt [0x34, 8, 2, 29, 23, 59, 59, 6, 0xFF, 3, 0, 1] 10 2 = false) ∧
    (served timeSetService (rq [0x34, 8, 2, 29, 23, 59, 59, 6, 0xFF, 3, 0, 0]) (reqUp .committed) = true ∧ calValid (readCalBlock [0x34, 8, 2, 29, 23, 59, 59, 6, 0xFF, 3, 0, 0]) = false) ∧
    (served timeSetService (rq [0x36, 8, 2, 28, 23, 59, 59, 6, 0xFF, 3, 0, 0]) { reqUp .committed with jnl.state := .failed } = true ∧
      ledgerOk (taken (rq [0x36, 8, 2, 28, 23, 59, 59, 6, 0xFF, 3, 0, 0]) { reqUp .committed with jnl.state := .failed }) = false) ∧
    (served timeSetService (rq [0x36, 8, 2, 28, 23, 59, 59, 6, 0xFF, 3, 0, 0]) { reqUp .committed with bkp.shadow := some ({}, 0) } = true) ∧
    served timeTrimSetService (rq [1, 0xFE, 0, 0]) (reqUp .committed) = true ∧
    served alarmSetService (rq [1, 0, 0, 0, 59, 59, 23, 31, 10, 6, 0, 0, 3, 0, 0, 0]) (reqUp .committed) = true ∧
    served alarmGetService (rq [1, 0, 0, 0]) (reqUp .committed) = true ∧
    served powerOffService (rq []) (reqUp .committed) = true ∧
    (served tamperCfgSetService (rq [1, 3, 0x11, 0x1F]) (reqUp .committed) = true ∧ (∀ i, i < 4 → bits (rd [1, 3, 0x11, 0x1F] i 1) 7 5 = 0)) ∧
    (served tamperCfgSetService (rq [1, 3, 0x11, 0x3F]) (reqUp .committed) = true ∧ 3 < 4 ∧ bits (rd [1, 3, 0x11, 0x3F] 3 1) 7 5 ≠ 0) ∧
    served tamperGetService (rq []) (reqUp .committed) = true ∧
    (served tamperClearService (rq [0, 0, 0, 0]) (reqUp .committed) = true ∧ zeroAt [0, 0, 0, 0] 1 3 = true ∧ rd [0, 0, 0, 0] 0 1 = 0) ∧
    (served tamperClearService (rq [15, 0, 0, 0]) (reqUp .committed) = true ∧ zeroAt [15, 0, 0, 0] 1 3 = true ∧ rd [15, 0, 0, 0] 0 1 ≠ 0 ∧ bits (rd [15, 0, 0, 0] 0 1) 7 4 = 0) ∧
    (served tamperClearService (rq [16, 0, 0, 0]) (reqUp .committed) = true ∧ bits (rd [16, 0, 0, 0] 0 1) 7 4 ≠ 0) ∧
    (controlUp hostUp = true ∧ controlUp State.reset = false ∧ (isl hostUp 33).inReset = false) ∧
    (({ hostUp with mir.shadow := some ({}, 3) } : State).mir.shadow = some ({}, 3)) := by decide

theorem witness_MailboxGeometryHeld :
    (bar0Up { hostUp with mbxs := [(15, { en := true })] } (0x20000 + 0x40 * 15 + 0x10) = true ∧ (mbx { hostUp with mbxs := [(15, { en := true })] } 15).en = true) ∧
    (bar0Up hostUp 0x20000 = true ∧ (mbx hostUp 15).en = false) ∧
    (mbxCanEnable hostUp 0 = true ∧ (0x1 : Word).getLsbD 0 = true ∧ (0x1 : Word).getLsbD 1 = false ∧ (mbx { hostUp with mbxs := [(0, { reqLog2 := 17, rspLog2 := 6 })] } 0).reqLog2.toNat = 17) := by decide

theorem witness_DurabilityPeriodRange :
    served paramBlockWriteService (rq [1, 0, 5, 0, 1, 0, 0, 0, 0x00, 0x50, 1, 0, 31, 0, 0, 0]) (reqUp .committed) = true ∧ curFormat (reqUp .committed) 5 = 1 ∧ 30 < (31 : Byte).toNat ∧
    served paramBlockWriteService (rq [1, 0, 5, 0, 1, 0, 0, 0, 0x00, 0x50, 1, 0, 30, 0, 0, 0]) (reqUp .committed) = true ∧ 1 ≤ (30 : Byte).toNat ∧ (30 : Byte).toNat ≤ 30 := by decide

/-- A header of these fields. -/
def hdrOf (mode bmod gmask len : Nat) : BitVec 24 := BitVec.ofNat 24 (mode + 4 * bmod + 16 * gmask + 4096 * len)

set_option maxRecDepth 20000 in
theorem witness_HeaderErrorsCounted :
    (plcHears (txnUp .listening txn0 {}) 0 = true ∧ (plcp (txnUp .listening txn0 {}) 0).rx = none) ∧
    crc8Bits (hdrOf 2 0 0 24) ≠ crc8Bits (hdrOf 2 0 0 24) + 1 ∧ bits (hdrOf 3 0 0 24).toNat 1 0 = 3 ∧ bits (hdrOf 2 0 0 23).toNat 20 12 < 24 ∧
    400 < bits (hdrOf 2 0 0 401).toNat 20 12 ∧ (bits (hdrOf 2 1 0 24).toNat 1 0 = 2 ∧ bits (hdrOf 2 1 0 24).toNat 3 2 ≠ 0) ∧
    (bits (hdrOf 1 0 1 24).toNat 1 0 = 1 ∧ bits (hdrOf 1 0 1 24).toNat 11 4 ≠ 0) ∧ (bits (hdrOf 0 0 3 24).toNat 1 0 = 0 ∧ bits (hdrOf 0 0 3 24).toNat 3 2 = 0) ∧
    (bits (hdrOf 0 1 128 24).toNat 1 0 = 0 ∧ ((List.range 8).filter (fun g => (bits (hdrOf 0 1 128 24).toNat 11 4).testBit g)).length < 2) ∧
    (let v := hdrOf 0 1 3 400; bits v.toNat 1 0 ≠ 3 ∧ 24 ≤ bits v.toNat 20 12 ∧ bits v.toNat 20 12 ≤ 400 ∧ bits v.toNat 3 2 ≠ 0 ∧ 2 ≤ ((List.range 8).filter (fun g => (bits v.toNat 11 4).testBit g)).length) := by
  exact ⟨by decide, by decide, by decide, by decide, by decide, by decide, by decide, by decide, by decide, by decide⟩

theorem witness_OneParameterBlocks : 0x8001 ≤ 0x8FFF ∧ 0xA001 ≤ 0xAFFF := by decide

end Sys2Proof.Tests
end

section
/-! The registers of BAR0 (R6, R494 to R498, R225): one rule per way a write or a read is answered, then O9. -/

namespace Sys2Proof.Machine

/-! ### What a single-register write does -/

theorem bar0Up_eq_false_of_inReset {s : State} (h : (isl s 33).inReset = true) (a : Nat) : bar0Up s a = false := by
  simp [bar0Up, h]

theorem exec_registerWrite (a : Nat) (be : BitVec 4) (data : Word) (s : State) :
    exec (.registerWrite a be data) s = .next (registerWrite a be data s) := rfl

/-- R496: BAR0 does not answer, and the write is dropped. -/
theorem registerWrite_of_not_up {a : Nat} (be : BitVec 4) (data : Word) {s : State} (hcap : a / 4 * 4 ≠ 0x100000)
    (hup : bar0Up s (a / 4 * 4) = false) : registerWrite a be data s = s := by
  simp [registerWrite, hcap, hup]

/-- R494: an offset outside every block. -/
theorem registerWrite_of_unmapped {a : Nat} (be : BitVec 4) (data : Word) {s : State} (hcap : a / 4 * 4 ≠ 0x100000)
    (hup : bar0Up s (a / 4 * 4) = true) (hmap : bar0Mapped (a / 4 * 4) = false) :
    registerWrite a be data s = { s with glb.unmappedWr := true } := by
  simp [registerWrite, hcap, hup, hmap]

/-- The capability's stand-in offset of log 5 lies past every block. -/
theorem ne_msixControl_of_mapped {a : Nat} (h : bar0Mapped a = true) : a ≠ 0x100000 := by
  rintro rfl
  exact absurd h (by decide)

/-- R495: not all four byte enables. -/
theorem registerWrite_of_partial {a : Nat} {be : BitVec 4} (data : Word) {s : State} (hup : bar0Up s (a / 4 * 4) = true)
    (hmap : bar0Mapped (a / 4 * 4) = true) (hbe : be ≠ 0xF) :
    registerWrite a be data s = { s with glb.partialWr := true } := by
  have hpart : (be != 0xF) = true := bne_iff_ne.2 hbe
  simp only [registerWrite, ne_msixControl_of_mapped hmap, hup, hmap, hpart, Bool.not_true, Bool.false_eq_true, if_false, if_true]

/-- R6: a whole write of a mapped register goes to that register. -/
theorem registerWrite_of_whole {a : Nat} (data : Word) {s : State} (hal : a / 4 * 4 = a) (hup : bar0Up s a = true)
    (hmap : bar0Mapped a = true) : registerWrite a 0xF data s = regWrite a data s := by
  simp [registerWrite, hal, ne_msixControl_of_mapped hmap, hup, hmap]

theorem regWrite_scratch (data : Word) (s : State) : regWrite 0x028 data s = { s with glb.scratch := data } := by
  simp [regWrite]

/-- R6: RST_CAUSE is W1C. -/
theorem regWrite_rstCause (data : Word) (s : State) :
    regWrite 0x1004 data s = { s with boot.cause := s.boot.cause &&& ~~~(data.extractLsb' 0 8) } := by
  simp [regWrite]

theorem exec_write_scratch (data : Word) {s : State} (hup : bar0Up s 0x028 = true) :
    exec (.registerWrite 0x028 0xF data) s = .next { s with glb.scratch := data } := by
  rw [exec_registerWrite, registerWrite_of_whole data rfl hup (by decide), regWrite_scratch]

theorem exec_write_rstCause (data : Word) {s : State} (hup : bar0Up s 0x1004 = true) :
    exec (.registerWrite 0x1004 0xF data) s = .next { s with boot.cause := s.boot.cause &&& ~~~(data.extractLsb' 0 8) } := by
  rw [exec_registerWrite, registerWrite_of_whole data rfl hup (by decide), regWrite_rstCause]

/-! ### The accesses with a command of their own -/

/-- R497: the read takes all 64 bits of engine time. -/
theorem etimeLoRead_of_up {s : State} (hup : bar0Up s 0x020 = true) :
    etimeLoRead s = { s with glb.etimeCap := BitVec.ofNat 64 s.now, glb.lastRead := BitVec.ofNat 32 s.now } :=
  if_pos hup

/-- R498: SYSRST under its key. -/
theorem rstCtrl_of_key {data : Word} {s : State} (hup : bar0Up s 0x1000 = true) (hreq : data.getLsbD 0 = true)
    (hkey : data.extractLsb' 8 8 = 0x5A) : rstCtrl data s = { s with boot.sysReq := some 3 } := by
  simp only [rstCtrl, hup, hreq, hkey, beq_self_eq_true, Bool.and_self, if_true]

/-- R498: any other key. -/
theorem rstCtrl_of_wrong_key {data : Word} (s : State) (hkey : data.extractLsb' 8 8 ≠ 0x5A) : rstCtrl data s = s :=
  if_neg fun h => hkey (eq_of_beq (Bool.and_eq_true_iff.1 h).2)

/-- R225, R502: an index in the ring's range, on an IDLE channel that it gives something to send. -/
theorem dmaPi_of_idle {c : Nat} {v : Word} {s : State} (hc : c < 32) (hhost : (isl s 33).inReset = false)
    (hidle : (tget s.chans c {}).state = .idle) (hne : v ≠ (tget s.chans c {}).ci)
    (hroom : (v - (tget s.chans c {}).ci).toNat ≤ 2 ^ (tget s.chans c {}).log2) :
    dmaPi c v s = { s with chans := tset s.chans c { tget s.chans c {} with pi := v, state := .running } } := by
  unfold dmaPi
  generalize tget s.chans c {} = x at *
  simp [hc, hhost, hidle, hne, Nat.not_lt.2 hroom, -BitVec.toNat_sub]

theorem pcieError_frame (s : State) : pcieError s = { s with evt := (pcieError s).evt, out := (pcieError s).out } :=
  raise_frame 0x16 s

theorem pcieError_pend (s : State) : (pcieError s).evt.pend = s.evt.pend ||| (1#256 <<< 0x16) :=
  raise_pend 0x16 s

/-! ### What a read returns (log 139) -/

theorem barRead_of_not_up {s : State} {a : Nat} (h : bar0Up s a = false) : barRead s a = 0 := by
  simp [barRead, h]

theorem barRead_of_unmapped (s : State) {a : Nat} (h : bar0Mapped a = false) : barRead s a = 0 := by
  simp [barRead, h]

theorem barRead_glb {s : State} {a : Nat} (hup : bar0Up s a = true) (ha : a < 0x100) : barRead s a = readGlb s a := by
  have hmap : bar0Mapped a = true := by simp [bar0Mapped, ha]
  have hlt : a < 0x1000 := by omega
  simp [barRead, hup, hmap, hlt]

theorem barRead_scratch {s : State} (hup : bar0Up s 0x028 = true) : barRead s 0x028 = s.glb.scratch :=
  barRead_glb hup (by decide)

theorem bar0Mapped_evt {off : Nat} (h : off < 0x60) : bar0Mapped (0x10000 + off) = true := by
  have hlo : 0x10000 ≤ 0x10000 + off := by omega
  have hhi : 0x10000 + off < 0x10060 := by omega
  simp [bar0Mapped, hlo, hhi]

theorem barRead_evt {s : State} {off : Nat} (hup : bar0Up s (0x10000 + off) = true) (h : off < 0x60) :
    barRead s (0x10000 + off) = readEvt s off := by
  rw [barRead, if_neg (by simp [hup, bar0Mapped_evt h]), if_neg (by omega), if_neg (by omega), if_neg (by omega), if_neg (by omega),
    if_pos (by omega), Nat.add_sub_cancel_left]

theorem readEvt_en (s : State) {k : Nat} (hk : k < 8) : readEvt s (0x20 + 4 * k) = evtWord s.evt.en k := by
  have hword : (0x20 + 4 * k) / 4 - 8 = k := by omega
  rw [readEvt, if_neg (by omega), if_pos (by omega), hword]

theorem barRead_evtEn {s : State} {k : Nat} (hup : bar0Up s (0x10020 + 4 * k) = true) (hk : k < 8) :
    barRead s (0x10020 + 4 * k) = evtWord s.evt.en k := by
  have hoff : 0x10020 + 4 * k = 0x10000 + (0x20 + 4 * k) := by omega
  rw [hoff] at hup ⊢
  rw [barRead_evt hup (by omega), readEvt_en s hk]

end Sys2Proof.Machine

open Sys2Proof Sys2Proof.Machine

/-- Settles O9, clause by clause, from the rule of each access. -/
theorem registerAccessEffects : Obligations.RegisterAccessEffects := by
  unfold Obligations.RegisterAccessEffects
  refine ⟨?scratch, ?rstCause, ?unmapped, ?partialWrite, ?hostInReset, ?etimeLo, ?sysrst, ?wrongKey, ?dmaPi, ?pcieError, ?readsZero,
    ?scratchReadBack, ?evtEnRead⟩
  case scratch => exact fun data s hup => exec_write_scratch data hup
  case rstCause => exact fun data s hup => exec_write_rstCause data hup
  case unmapped =>
    intro a be data s hup hcap hmap
    rw [exec_registerWrite, registerWrite_of_unmapped be data hcap hup hmap]
  case partialWrite =>
    intro a be data s hup hmap hbe
    rw [exec_registerWrite, registerWrite_of_partial data hup hmap hbe]
  case hostInReset =>
    intro a be data s hcap hreset
    rw [exec_registerWrite, registerWrite_of_not_up be data hcap (bar0Up_eq_false_of_inReset hreset _)]
  case etimeLo => exact fun s hup => congrArg Host.Outcome.next (etimeLoRead_of_up hup)
  case sysrst => exact fun data s hup hreq hkey => congrArg Host.Outcome.next (rstCtrl_of_key hup hreq hkey)
  case wrongKey => exact fun data s hkey => congrArg Host.Outcome.next (rstCtrl_of_wrong_key s hkey)
  case dmaPi => exact fun c v s hc hhost hidle hne hroom => congrArg Host.Outcome.next (dmaPi_of_idle hc hhost hidle hne hroom)
  case pcieError => exact fun s => ⟨pcieError s, rfl, pcieError_frame s, pcieError_pend s⟩
  case readsZero =>
    rintro a s (hreset | hmap)
    · exact barRead_of_not_up (bar0Up_eq_false_of_inReset hreset a)
    · exact barRead_of_unmapped s hmap
  case scratchReadBack => exact fun data s hup => ⟨_, exec_write_scratch data hup, barRead_scratch hup⟩
  case evtEnRead => exact fun k s hup hk => barRead_evtEn hup hk

end

section
/-! The credits of the links (R12): a command that leaves the links alone keeps them whole, so do the commands that write the links, and the
state after reset has them whole. From that O5 and O4. -/

namespace Sys2Proof.Machine

/-! ### The commands that leave the links alone -/

/-- The commands that can write the links: flits and credits (R11), the audit and the fences (R15 to R18), and every way an island enters or
leaves reset (R418 to R423). -/
def writesLinks : Instr → Bool
  | .flitTransfer _ | .creditReturn _ | .creditAudit _ | .fenceWaitExpiry _ | .porMainAssert | .nresetAssert | .wdtExpiry | .sysrst
  | .recorderDrainEnd | .dprst | .islrst _ | .releaseStageEnd _ _ | .genLockTimeout _ | .islandBistEnd _ _ => true
  | _ => false

/-- No opcode writes the links when its request is served. -/
theorem serve_keeps_links {v : Service} (hv : v ∈ services) (r : Req) (s : State) : (serve v r s).links = s.links :=
  serve_keeps State.links (by intros; rfl) v (services_keeps State.links (by intros; rfl) v hv) r s

/-- A request command that serves the service of its own opcode leaves the links alone. -/
theorem request_keeps_links {v : Service} {r : Req} {s t : State} (hop : serviceOf v.opcode = some v)
    (e : (Host.Outcome.next (serve v r s) : Host.Outcome State Fault Refusal) = .next t) : t.links = s.links :=
  nx e ▸ serve_keeps_links (List.mem_of_find?_eq_some hop) r s

/-- The frame of the links, command by command: the requests first, then the commands of the hardware. -/
theorem exec_keeps_links {i : Instr} {s t : State} (hi : writesLinks i = false) (e : exec i s = .next t) : t.links = s.links := by
  cases i with
  | flitTransfer | creditReturn | creditAudit | fenceWaitExpiry | porMainAssert | nresetAssert | wdtExpiry | sysrst | recorderDrainEnd | dprst
  | islrst | releaseStageEnd | genLockTimeout | islandBistEnd => nomatch hi
  | nop | configBegin | configCommit | configAbort | configStateGet | capsGet | paramBlockWrite | paramBlockRead | laneAssign | laneTableGet
  | laneStatsGet | laneStatsClear | rfPortStatusGet | bandProfileSet | bandProfileGet | dutyStatusGet | sectorStatusGet | connectOpen
  | connectClose | airStateGet | plcPortStatusGet | plcCalGet | plcRecalibrate | plcLinkGet | plcRouteGet | plcRouteProposalsGet | plcRouteSet
  | plcRouteUnpin | plcPollNow | enrol | withdraw | admitStateSet | endpointUpdate | endpointGet | addrLookup | tallyGet | tallyClear
  | dirStatusGet | dirRehash | unknownGet | unknownClear | xlateSet | xlateGet | dmaChanSet | dmaChanStatusGet | dmaChanRestart | memStatusGet
  | profileSet | profileGet | provListAdd | provListClear | exportStart | exportStop | exportConfirm | exportFlush | pipeStatusGet | exportRewind
  | calLoad | calGet | tariffAssign | ledgerGet | ledgerRestoreStart | ledgerPageLost | ledgerExportStart | ledgerConfirm | ledgerPendingGet
  | periodCloseNow | statementStart | statementConfirm | statementRewind | graniteInfoGet | displayShow | ledgerStatusGet | zoneLoad | zoneDrop
  | zoneTolSet | zoneGet | scoreReset | balExportStart | balConfirm | balRewind | balRerun | balStatusGet | campCreate | campContent
  | campTargetsAdd | campStart | campPause | campResume | campCancel | campStatusGet | campTargetGet | campRelease | switchFaultClear | qkLoad
  | qkDerive | qkGenerate | qkDestroy | qkSlotGet | qkEpLoad | qkEpClear | qkRewrap | qkAttest | qkCertGet | qkStatusGet | slateRead | slateDump
  | slateStatusGet | slateCodeGet | slateRecfClear | timeGet | timeSet | timeTrimSet | alarmSet | alarmGet | powerOff | tamperCfgSet | tamperGet
  | tamperClear | resetRequest | trainReportGet | fwInfoGet | fwStageBegin | fwStageWrite | fwStageCommit | fwStageClear | fwPrepare
  | fwMicrocodeAt | fwConfirm | lifecycleAdvance | custKeyProgram | safetyStatusGet | safetyClear | safetyProofTest | laneMapGet | repairLedgerGet
  | rotationStatusGet | maintStatusGet => exact request_keeps_links rfl e
  | registerWrite => exact execRegisterWrite_keeps State.links (by intros; rfl) _ _ _ _ _ e
  | etimeLoRead => exact execEtimeLoRead_keeps State.links (by intros; rfl) _ _ e
  | rstCtrlSysrst => exact execRstCtrlSysrst_keeps State.links (by intros; rfl) _ _ _ e
  | mbxEnable => exact execMbxEnable_keeps State.links (by intros; rfl) _ _ _ e
  | mbxDisable => exact execMbxDisable_keeps State.links (by intros; rfl) _ _ _ e
  | mbxReset => exact execMbxReset_keeps State.links (by intros; rfl) _ _ _ e
  | mbxReqPiWrite => exact execMbxReqPiWrite_keeps State.links (by intros; rfl) _ _ _ _ e
  | mbxRspCiWrite => exact execMbxRspCiWrite_keeps State.links (by intros; rfl) _ _ _ _ e
  | requestFetch => exact execRequestFetch_keeps State.links (by intros; rfl) _ _ _ _ e
  | ringBusError => exact execRingBusError_keeps State.links (by intros; rfl) _ _ _ _ e
  | responsePost => exact execResponsePost_keeps State.links (by intros; rfl) _ _ _ e
  | requestWaitEnd => exact execRequestWaitEnd_keeps State.links (by intros; rfl) _ _ _ e
  | evtPendClear => exact execEvtPendClear_keeps State.links (by intros; rfl) _ _ _ _ _ e
  | evtEnWrite => exact execEvtEnWrite_keeps State.links (by intros; rfl) _ _ _ _ e
  | evtForce => exact execEvtForce_keeps State.links (by intros; rfl) _ _ _ _ e
  | msixUnmask => exact execMsixUnmask_keeps State.links (by intros; rfl) _ _ _ e
  | commitInstant => exact execCommitInstant_keeps State.links (by intros; rfl) _ _ _ e
  | monitorSample => exact execMonitorSample_keeps State.links (by intros; rfl) _ _ _ e
  | c1Recovery => exact execC1Recovery_keeps State.links (by intros; rfl) _ _ e
  | iqSlotReceive => exact execIqSlotReceive_keeps State.links (by intros; rfl) _ _ _ _ e
  | rxclkStop => exact execRxclkStop_keeps State.links (by intros; rfl) _ _ _ e
  | overloadWindow => exact execOverloadWindow_keeps State.links (by intros; rfl) _ _ _ e
  | shrDetect => exact execShrDetect_keeps State.links (by intros; rfl) _ _ _ _ _ e
  | phrDecode => exact execPhrDecode_keeps State.links (by intros; rfl) _ _ _ _ e
  | psduWordPush => exact execPsduWordPush_keeps State.links (by intros; rfl) _ _ _ _ e
  | laneFrameEnd => exact execLaneFrameEnd_keeps State.links (by intros; rfl) _ _ _ _ e
  | overflowTrailerPush => exact execOverflowTrailerPush_keeps State.links (by intros; rfl) _ _ _ _ e
  | blankingStart => exact execBlankingStart_keeps State.links (by intros; rfl) _ _ _ _ e
  | blankingEnd => exact execBlankingEnd_keeps State.links (by intros; rfl) _ _ _ e
  | laneSwitch => exact execLaneSwitch_keeps State.links (by intros; rfl) _ _ _ e
  | beaconDue => exact execBeaconDue_keeps State.links (by intros; rfl) _ _ _ _ e
  | lbtListenEnd => exact execLbtListenEnd_keeps State.links (by intros; rfl) _ _ _ _ e
  | lbtBackoffEnd => exact execLbtBackoffEnd_keeps State.links (by intros; rfl) _ _ _ e
  | beaconTxStart => exact execBeaconTxStart_keeps State.links (by intros; rfl) _ _ _ _ e
  | beaconMiss => exact execBeaconMiss_keeps State.links (by intros; rfl) _ _ _ e
  | fallbackRetry => exact execFallbackRetry_keeps State.links (by intros; rfl) _ _ _ e
  | deepBeaconTx => exact execDeepBeaconTx_keeps State.links (by intros; rfl) _ _ _ _ e
  | linkAckTx => exact execLinkAckTx_keeps State.links (by intros; rfl) _ _ _ _ e
  | downlinkTx => exact execDownlinkTx_keeps State.links (by intros; rfl) _ _ _ _ _ e
  | transmissionEnd => exact execTransmissionEnd_keeps State.links (by intros; rfl) _ _ _ _ e
  | chargeExpiry => exact execChargeExpiry_keeps State.links (by intros; rfl) _ _ _ _ e
  | arrivalWindowClose => exact execArrivalWindowClose_keeps State.links (by intros; rfl) _ _ _ e
  | supervisionTimeout => exact execSupervisionTimeout_keeps State.links (by intros; rfl) _ _ _ e
  | connectionEvent => exact execConnectionEvent_keeps State.links (by intros; rfl) _ _ _ _ e
  | connectReplyTimeout => exact execConnectReplyTimeout_keeps State.links (by intros; rfl) _ _ _ e
  | openTimeout => exact execOpenTimeout_keeps State.links (by intros; rfl) _ _ _ e
  | connSupervisionExpiry => exact execConnSupervisionExpiry_keeps State.links (by intros; rfl) _ _ _ e
  | ldFault => exact execLdFault_keeps State.links (by intros; rfl) _ _ _ _ e
  | ldFaultRetry => exact execLdFaultRetry_keeps State.links (by intros; rfl) _ _ _ e
  | transactionStart => exact execTransactionStart_keeps State.links (by intros; rfl) _ _ _ _ e
  | plcHeaderDecode => exact execPlcHeaderDecode_keeps State.links (by intros; rfl) _ _ _ _ e
  | plcSymbolReceive => exact execPlcSymbolReceive_keeps State.links (by intros; rfl) _ _ _ _ e
  | plcFrameEnd => exact execPlcFrameEnd_keeps State.links (by intros; rfl) _ _ _ _ e
  | plcOverflowTrailer => exact execPlcOverflowTrailer_keeps State.links (by intros; rfl) _ _ _ _ e
  | pollDeadline => exact execPollDeadline_keeps State.links (by intros; rfl) _ _ _ e
  | retryGapExpiry => exact execRetryGapExpiry_keeps State.links (by intros; rfl) _ _ _ e
  | readDue => exact execReadDue_keeps State.links (by intros; rfl) _ _ _ e
  | custodyMaxExpiry => exact execCustodyMaxExpiry_keeps State.links (by intros; rfl) _ _ _ e
  | nbrDue => exact execNbrDue_keeps State.links (by intros; rfl) _ _ e
  | unreachRetry => exact execUnreachRetry_keeps State.links (by intros; rfl) _ _ _ e
  | routeRecalc => exact execRouteRecalc_keeps State.links (by intros; rfl) _ _ e
  | linkAgeExpiry => exact execLinkAgeExpiry_keeps State.links (by intros; rfl) _ _ _ e
  | queuePush => exact execQueuePush_keeps State.links (by intros; rfl) _ _ _ _ _ _ e
  | queueDoom => exact execQueueDoom_keeps State.links (by intros; rfl) _ _ _ e
  | queueRead => exact execQueueRead_keeps State.links (by intros; rfl) _ _ _ e
  | dropRest => exact execDropRest_keeps State.links (by intros; rfl) _ _ _ e
  | noticePop => exact execNoticePop_keeps State.links (by intros; rfl) _ _ _ e
  | plcCalibrationDone => exact execPlcCalibrationDone_keeps State.links (by intros; rfl) _ _ _ _ e
  | directoryAirPacket => exact execDirectoryAirPacket_keeps State.links (by intros; rfl) _ _ _ e
  | directoryPlcPacket => exact execDirectoryPlcPacket_keeps State.links (by intros; rfl) _ _ _ e
  | serialRelease => exact execSerialRelease_keeps State.links (by intros; rfl) _ _ _ e
  | fetchBufferFree => exact execFetchBufferFree_keeps State.links (by intros; rfl) _ _ e
  | contextFetchComplete => exact execContextFetchComplete_keeps State.links (by intros; rfl) _ _ _ _ e
  | writebackDone => exact execWritebackDone_keeps State.links (by intros; rfl) _ _ _ e
  | retirementComplete => exact execRetirementComplete_keeps State.links (by intros; rfl) _ _ _ e
  | retireHoldExpiry => exact execRetireHoldExpiry_keeps State.links (by intros; rfl) _ _ _ e
  | rehashEnd => exact execRehashEnd_keeps State.links (by intros; rfl) _ _ e
  | patrolScrub => exact execPatrolScrub_keeps State.links (by intros; rfl) _ _ _ e
  | softRepair => exact execSoftRepair_keeps State.links (by intros; rfl) _ _ _ e
  | dmaPiWrite => exact execDmaPiWrite_keeps State.links (by intros; rfl) _ _ _ _ e
  | dmaDescriptorEnd => exact execDmaDescriptorEnd_keeps State.links (by intros; rfl) _ _ _ _ e
  | dmaBusError => exact execDmaBusError_keeps State.links (by intros; rfl) _ _ _ _ e
  | journalGroupCommit => exact execJournalGroupCommit_keeps State.links (by intros; rfl) _ _ _ _ e
  | jnlFullWaitExpiry => exact execJnlFullWaitExpiry_keeps State.links (by intros; rfl) _ _ _ e
  | bundleTimeout => exact execBundleTimeout_keeps State.links (by intros; rfl) _ _ _ e
  | bundleSigned => exact execBundleSigned_keeps State.links (by intros; rfl) _ _ e
  | calTransition => exact execCalTransition_keeps State.links (by intros; rfl) _ _ _ _ e
  | ledgerSweep => exact execLedgerSweep_keeps State.links (by intros; rfl) _ _ _ _ e
  | stmtBundleTimeout => exact execStmtBundleTimeout_keeps State.links (by intros; rfl) _ _ e
  | ledgerSeal => exact execLedgerSeal_keeps State.links (by intros; rfl) _ _ e
  | durabilityExpiry => exact execDurabilityExpiry_keeps State.links (by intros; rfl) _ _ _ e
  | restorePageReceive => exact execRestorePageReceive_keeps State.links (by intros; rfl) _ _ _ e
  | pwrfailAssert => exact execPwrfailAssert_keeps State.links (by intros; rfl) _ _ e
  | pwrfailDeassert => exact execPwrfailDeassert_keeps State.links (by intros; rfl) _ _ e
  | displayScreen => exact execDisplayScreen_keeps State.links (by intros; rfl) _ _ _ e
  | displayRetry => exact execDisplayRetry_keeps State.links (by intros; rfl) _ _ _ e
  | sealChange => exact execSealChange_keeps State.links (by intros; rfl) _ _ _ e
  | intervalClose => exact execIntervalClose_keeps State.links (by intros; rfl) _ _ _ _ e
  | revisionPost => exact execRevisionPost_keeps State.links (by intros; rfl) _ _ _ _ e
  | unzonedPost => exact execUnzonedPost_keeps State.links (by intros; rfl) _ _ _ e
  | horizonAdvance => exact execHorizonAdvance_keeps State.links (by intros; rfl) _ _ e
  | stepAttempt => exact execStepAttempt_keeps State.links (by intros; rfl) _ _ _ _ e
  | confWaitEnd => exact execConfWaitEnd_keeps State.links (by intros; rfl) _ _ _ _ e
  | campDeadline => exact execCampDeadline_keeps State.links (by intros; rfl) _ _ _ e
  | sessionPlan => exact execSessionPlan_keeps State.links (by intros; rfl) _ _ _ _ e
  | multicastFrame => exact execMulticastFrame_keeps State.links (by intros; rfl) _ _ _ _ _ e
  | switchFbTimeout => exact execSwitchFbTimeout_keeps State.links (by intros; rfl) _ _ _ _ e
  | gateRelease => exact execGateRelease_keeps State.links (by intros; rfl) _ _ _ _ e
  | rewrapWalk => exact execRewrapWalk_keeps State.links (by intros; rfl) _ _ e
  | drbgReseed => exact execDrbgReseed_keeps State.links (by intros; rfl) _ _ _ e
  | recordWrite => exact execRecordWrite_keeps State.links (by intros; rfl) _ _ _ e
  | tokenRefill => exact execTokenRefill_keeps State.links (by intros; rfl) _ _ _ e
  | checkpointWrite => exact execCheckpointWrite_keeps State.links (by intros; rfl) _ _ _ e
  | envmScrub => exact execEnvmScrub_keeps State.links (by intros; rfl) _ _ _ e
  | rtcTick => exact execRtcTick_keeps State.links (by intros; rfl) _ _ e
  | rtcRegRead => exact execRtcRegRead_keeps State.links (by intros; rfl) _ _ _ e
  | rtcYearRead => exact execRtcYearRead_keeps State.links (by intros; rfl) _ _ e
  | rtcShadowTimeout => exact execRtcShadowTimeout_keeps State.links (by intros; rfl) _ _ e
  | rtcRegWrite => exact execRtcRegWrite_keeps State.links (by intros; rfl) _ _ _ _ e
  | rtcYearWrite => exact execRtcYearWrite_keeps State.links (by intros; rfl) _ _ _ e
  | writeSetTimeout => exact execWriteSetTimeout_keeps State.links (by intros; rfl) _ _ e
  | supplyToVbat => exact execSupplyToVbat_keeps State.links (by intros; rfl) _ _ e
  | supplyToMain => exact execSupplyToMain_keeps State.links (by intros; rfl) _ _ e
  | lbvMeasure => exact execLbvMeasure_keeps State.links (by intros; rfl) _ _ _ _ e
  | retentionLoss => exact execRetentionLoss_keeps State.links (by intros; rfl) _ _ e
  | oscStop => exact execOscStop_keeps State.links (by intros; rfl) _ _ e
  | porBkp => exact execPorBkp_keeps State.links (by intros; rfl) _ _ e
  | tamperActivation => exact execTamperActivation_keeps State.links (by intros; rfl) _ _ _ e
  | pwronOff => exact execPwronOff_keeps State.links (by intros; rfl) _ _ e
  | mirRefresh => exact execMirRefresh_keeps State.links (by intros; rfl) _ _ e
  | mirCalRead => exact execMirCalRead_keeps State.links (by intros; rfl) _ _ _ e
  | mirYearRead => exact execMirYearRead_keeps State.links (by intros; rfl) _ _ e
  | mirShadowTimeout => exact execMirShadowTimeout_keeps State.links (by intros; rfl) _ _ e
  | porMainRelease => exact execPorMainRelease_keeps State.links (by intros; rfl) _ _ e
  | nresetRelease => exact execNresetRelease_keeps State.links (by intros; rfl) _ _ e
  | perstNAssert => exact execPerstNAssert_keeps State.links (by intros; rfl) _ _ e
  | synthLockRetry => exact execSynthLockRetry_keeps State.links (by intros; rfl) _ _ _ e
  | bootRomVerify => exact execBootRomVerify_keeps State.links (by intros; rfl) _ _ _ e
  | coreBist => exact execCoreBist_keeps State.links (by intros; rfl) _ _ _ _ e
  | pcieLinkTrain => exact execPcieLinkTrain_keeps State.links (by intros; rfl) _ _ _ _ e
  | ddrTraining => exact execDdrTraining_keeps State.links (by intros; rfl) _ _ _ e
  | startScanReplay => exact execStartScanReplay_keeps State.links (by intros; rfl) _ _ e
  | rfPortTrain => exact execRfPortTrain_keeps State.links (by intros; rfl) _ _ _ e
  | rfPortTrainEnd => exact execRfPortTrainEnd_keeps State.links (by intros; rfl) _ _ _ _ e
  | plcOffsetCal => exact execPlcOffsetCal_keeps State.links (by intros; rfl) _ _ _ e
  | dataplaneBist => exact execDataplaneBist_keeps State.links (by intros; rfl) _ _ _ _ e
  | stagingEraseDone => exact execStagingEraseDone_keeps State.links (by intros; rfl) _ _ e
  | fwPrepareDone => exact execFwPrepareDone_keeps State.links (by intros; rfl) _ _ _ e
  | microcodeSwitch => exact execMicrocodeSwitch_keeps State.links (by intros; rfl) _ _ e
  | fwActivate => exact execFwActivate_keeps State.links (by intros; rfl) _ _ _ e
  | firmwareTakeover => exact execFirmwareTakeover_keeps State.links (by intros; rfl) _ _ e
  | activationPauseOverrun => exact execActivationPauseOverrun_keeps State.links (by intros; rfl) _ _ e
  | confirmTimerExpiry => exact execConfirmTimerExpiry_keeps State.links (by intros; rfl) _ _ e
  | fwHostBoot => exact execFwHostBoot_keeps State.links (by intros; rfl) _ _ _ _ e
  | gateTestPeriodic => exact execGateTestPeriodic_keeps State.links (by intros; rfl) _ _ _ e
  | lockstepMismatch => exact execLockstepMismatch_keeps State.links (by intros; rfl) _ _ e
  | safetySramScrub => exact execSafetySramScrub_keeps State.links (by intros; rfl) _ _ _ e
  | heartbeatCheck => exact execHeartbeatCheck_keeps State.links (by intros; rfl) _ _ _ e
  | clockMonitorFault => exact execClockMonitorFault_keeps State.links (by intros; rfl) _ _ e
  | safetyAutoRecover => exact execSafetyAutoRecover_keeps State.links (by intros; rfl) _ _ e
  | proofTestEnd => exact execProofTestEnd_keeps State.links (by intros; rfl) _ _ _ e
  | rotationStep => exact execRotationStep_keeps State.links (by intros; rfl) _ _ e
  | rotationHandover => exact execRotationHandover_keeps State.links (by intros; rfl) _ _ e
  | laneTestEnd => exact execLaneTestEnd_keeps State.links (by intros; rfl) _ _ _ e
  | rotationLate => exact execRotationLate_keeps State.links (by intros; rfl) _ _ _ e
  | maintTokenGrant => exact execMaintTokenGrant_keeps State.links (by intros; rfl) _ _ _ e
  | plcTransmitEnd => exact execPlcTransmitEnd_keeps State.links (by intros; rfl) _ _ _ e
  | pcieUncorrectableError => exact execPcieUncorrectableError_keeps State.links (by intros; rfl) _ _ e

/-! ### The commands that write the links -/

/-- R12: what a command does to the links keeps every open direction's counts together. -/
theorem exec_keeps_goodT {i : Instr} {s t : State} (h : GoodT s.links) (e : exec i s = .next t) : GoodT t.links := by
  cases hi : writesLinks i with
  | false => exact links_of h (exec_keeps_links hi e)
  | true =>
    cases i with
    | flitTransfer d => exact nx e ▸ good_flit d s h
    | creditReturn d => exact nx e ▸ good_return d s h
    | creditAudit upsets => exact nx e ▸ good_creditAudit upsets s h
    | fenceWaitExpiry d => exact nx e ▸ good_fenceWait d s h
    | porMainAssert => exact nx e ▸ good_por s h
    | nresetAssert => exact nx e ▸ good_nreset s h
    | wdtExpiry => exact nx e ▸ good_wdt s h
    | sysrst => exact nx e ▸ good_sysrst s h
    | recorderDrainEnd => exact nx e ▸ good_drain s h
    | dprst => exact nx e ▸ good_dprst s h
    | islrst k => exact nx e ▸ good_islrst k s h
    | releaseStageEnd straps opt => exact nx e ▸ good_releaseStageEnd straps opt s h
    | genLockTimeout k => exact nx e ▸ good_genLock k s h
    | islandBistEnd k res => exact nx e ▸ good_bistEnd k res.pass res.repairs s h
    | _ => cases hi

/-- R12: a step runs the front command on the links as they are, or idles. -/
theorem step_keeps_creditsWhole {s t : State} (h : CreditsWhole s) (e : step s = .next t) : CreditsWhole t := by
  rw [cw_iff] at h ⊢
  unfold step at e
  split at e
  case h_1 => exact nx e ▸ h
  case h_2 i rest _ => exact exec_keeps_goodT (s := { s with pending := rest }) h e

/-! ### The state after reset -/

/-- No direction has moved a flit yet, and none is fenced. -/
theorem creditsWhole_reset : CreditsWhole State.reset :=
  (cw_iff _).2 fun _ _ _ c _ => good_new c

/-- UNCONFIGURED, with no window open. -/
theorem cfgSound_reset : CfgSound State.reset := by
  refine ⟨?window, ?prior⟩
  case window => decide
  case prior => exact fun hc => nomatch hc

end Sys2Proof.Machine

open Sys2Proof Sys2Proof.Machine

/-- Settles O5: one step keeps the credits whole, over the commands that write the links and those that do not. -/
theorem creditsStayWhole : Obligations.CreditsStayWhole := by
  unfold Obligations.CreditsStayWhole
  exact fun _ _ => step_keeps_creditsWhole

/-- Settles O4. -/
theorem resetMeetsInvariants : Obligations.ResetMeetsInvariants := by
  unfold Obligations.ResetMeetsInvariants
  exact ⟨creditsWhole_reset, cfgSound_reset⟩

end

section
/-! Links and monitors (R11, R17, R18, R28, R476): one rule per case of each command, then O14. -/

namespace Sys2Proof.Machine

/-! ### Flits and credits -/

theorem flitTransfer_of_credit {d : Nat} {s : State} (hopen : dirOpen s d = true) (hheld : 0 < heldCredits s d) :
    flitTransfer d s =
      setDir d (fun x => { x with spent := x.spent + 1, occupied := x.occupied + 1, sent := x.sent + 1, received := x.received + 1 }) s := by
  simp [flitTransfer, hopen, hheld]

theorem flitTransfer_of_no_credit {d : Nat} {s : State} (hheld : heldCredits s d = 0) : flitTransfer d s = s := by
  simp [flitTransfer, hheld]

theorem enterReset_of_not_waiting {i : Nat} {s : State} (h : (isl s i).waitFrom = none) : enterReset i s = s := by
  simp [enterReset, h]

/-- A reset of the receiving island that waits for this credit begins with it (R17). -/
theorem creditReturn_of_occupied {d a b c : Nat} {s : State} (hdir : dirOf d = some (a, b, c)) (hpresent : dirPresent s d = true)
    (hocc : 0 < (linkDir s d).occupied) (hexp : (linkDir s d).expired = false) :
    creditReturn d s =
      enterReset b (setDir d (fun x => { x with spent := x.spent - 1, occupied := x.occupied - 1, released := x.released + 1,
                                                returned := x.returned + 1 }) s) := by
  simp [creditReturn, hdir, hpresent, hocc, hexp]

theorem fenceWaitExpiry_of_awaited {d a b c t : Nat} {s : State} (hdir : dirOf d = some (a, b, c)) (hwait : (isl s b).waitFrom = some t)
    (hawaited : awaited s b d = true) :
    fenceWaitExpiry d s =
      enterReset b (setDir d (fun x => { x with expired := true })
        (record rcFenceCredits (le 4 (d / 2) ++ le 4 (d % 2) ++ le 4 (linkDir s d).spent) (advMono (t + tUs 10) s))) := by
  simp [fenceWaitExpiry, hdir, hwait, hawaited]

/-! ### Monitor samples -/

/-- The latch of a sample out of range: a change raises event 0x15, and no return to range stands any more (Table 02-4). -/
def latchLapse (b : BitVec 8) (s : State) : State := raiseIf (s.mon.out != b) 0x15 { s with mon.out := b, mon.backAt := none }

theorem latchLapse_mon (b : BitVec 8) (s : State) : (latchLapse b s).mon = { s.mon with out := b, backAt := none } :=
  raiseIf_keeps State.mon (by intros; rfl) _ _ _

theorem latchLapse_jnl (b : BitVec 8) (s : State) : (latchLapse b s).jnl = s.jnl :=
  raiseIf_keeps State.jnl (by intros; rfl) _ _ _

theorem latchLapse_secs (b : BitVec 8) (s : State) : secs (latchLapse b s) = secs s :=
  raiseIf_keeps secs (by intros; rfl) _ _ _

/-- R476, Table 02-4: the first lapse writes its record, is safety fault 9 and suspends the commits. -/
theorem monitorSample_of_first_lapse {b : BitVec 8} {s : State} (hup : islHeld s islControl = false) (hb : b ≠ 0) (hin : s.mon.out = 0) :
    monitorSample b s = jnlC1 true (safetyFault 9 (record rcC1 (le 4 b.toNat) (latchLapse b s))) := by
  simp only [monitorSample, latchLapse, hup, hb, hin, if_false, if_true, Bool.false_eq_true]

/-- Log 132: a further sample out of range is the safety fault alone. -/
theorem monitorSample_of_further_lapse {b : BitVec 8} {s : State} (hup : islHeld s islControl = false) (hb : b ≠ 0) (hout : s.mon.out ≠ 0) :
    monitorSample b s = safetyFault 9 (latchLapse b s) := by
  simp only [monitorSample, latchLapse, hup, hb, hout, if_false, Bool.false_eq_true]

theorem monitorSample_of_return {s : State} (hup : islHeld s islControl = false) (hout : s.mon.out ≠ 0) :
    monitorSample 0 s = raise 0x15 { s with mon.out := 0, mon.backAt := some s.mono } := by
  have hchange : (s.mon.out != 0) = true := bne_iff_ne.2 hout
  simp only [monitorSample, raiseIf, hup, hout, hchange, if_true, if_false, Bool.false_eq_true]

theorem monitorSample_of_in_range {s : State} (hup : islHeld s islControl = false) (hin : s.mon.out = 0) : monitorSample 0 s = s := by
  have hlatch : ({ s with mon.out := 0, mon.backAt := s.mon.backAt } : State) = s := by rw [← hin]
  simp only [monitorSample, raiseIf, hup, hin, bne_self_eq_false, if_true, if_false, Bool.false_eq_true]
  exact hlatch

/-- A lapse, first or further, leaves the monitors as its latch does. -/
theorem monitorSample_mon_of_lapse {b : BitVec 8} {s : State} (hup : islHeld s islControl = false) (hb : b ≠ 0) :
    (monitorSample b s).mon = { s.mon with out := b, backAt := none } := by
  by_cases hin : s.mon.out = 0
  · rw [monitorSample_of_first_lapse hup hb hin, jnlC1_keeps State.mon (by intros; rfl), safetyFault_keeps State.mon (by intros; rfl),
      record_keeps State.mon (by intros; rfl), latchLapse_mon]
  · rw [monitorSample_of_further_lapse hup hb hin, safetyFault_keeps State.mon (by intros; rfl), latchLapse_mon]

/-- A lapse, first or further, is safety fault 9 of this second. -/
theorem monitorSample_fault_of_lapse {b : BitVec 8} {s : State} (hup : islHeld s islControl = false) (hb : b ≠ 0) :
    (monitorSample b s).safe.lastCause = 9 ∧ (monitorSample b s).safe.lastFault = secs s := by
  by_cases hin : s.mon.out = 0
  · have hsecs : secs (record rcC1 (le 4 b.toNat) (latchLapse b s)) = secs s :=
      (record_keeps secs (by intros; rfl) _ _ _).trans (latchLapse_secs b s)
    rw [monitorSample_of_first_lapse hup hb hin, jnlC1_keeps State.safe (by intros; rfl), ← hsecs]
    exact safetyFault_last 9 _
  · rw [monitorSample_of_further_lapse hup hb hin, ← latchLapse_secs b s]
    exact safetyFault_last 9 _

theorem monitorSample_c1_of_first_lapse {b : BitVec 8} {s : State} (hup : islHeld s islControl = false) (hb : b ≠ 0) (hin : s.mon.out = 0) :
    (monitorSample b s).jnl.c1 = true := by
  rw [monitorSample_of_first_lapse hup hb hin, jnlC1_c1]

theorem monitorSample_jnl_of_further_lapse {b : BitVec 8} {s : State} (hup : islHeld s islControl = false) (hb : b ≠ 0)
    (hout : s.mon.out ≠ 0) : (monitorSample b s).jnl = s.jnl := by
  rw [monitorSample_of_further_lapse hup hb hout, safetyFault_keeps State.jnl (by intros; rfl), latchLapse_jnl]

/-- Table 02-4: 10 ms after the return the commits resume. -/
theorem c1Recovery_of_returned {back : Nat} {s : State} (hback : s.mon.backAt = some back) (hin : s.mon.out = 0) (hc1 : s.jnl.c1 = true) :
    c1Recovery s = jnlC1 false (advMono (back + tMs 10) s) := by
  simp [c1Recovery, hback, hin, hc1]

theorem c1Recovery_mono {back : Nat} {s : State} (hback : s.mon.backAt = some back) (hin : s.mon.out = 0) (hc1 : s.jnl.c1 = true) :
    (c1Recovery s).mono = max s.mono (back + tMs 10) := by
  rw [c1Recovery_of_returned hback hin hc1, jnlC1_keeps State.mono (by intros; rfl), advMono_mono]

end Sys2Proof.Machine

open Sys2Proof Sys2Proof.Machine

/-- Settles O14, clause by clause, from the rule of each case. -/
theorem linkAndMonitorEffects : Obligations.LinkAndMonitorEffects := by
  unfold Obligations.LinkAndMonitorEffects
  refine ⟨?flit, ?noCredit, ?credit, ?awaitedCredit, ?fenceExpiry, ?firstLapse, ?furtherLapse, ?backInRange, ?staysInRange, ?recovery⟩
  case flit => exact fun d s hopen hheld => congrArg Host.Outcome.next (flitTransfer_of_credit hopen hheld)
  case noCredit => exact fun d s hheld => congrArg Host.Outcome.next (flitTransfer_of_no_credit hheld)
  case credit =>
    intro d a b c s hdir hpresent hocc hexp hwait
    exact congrArg Host.Outcome.next ((creditReturn_of_occupied hdir hpresent hocc hexp).trans (enterReset_of_not_waiting hwait))
  case awaitedCredit =>
    exact fun d a b c s hdir hpresent hocc hexp => congrArg Host.Outcome.next (creditReturn_of_occupied hdir hpresent hocc hexp)
  case fenceExpiry =>
    exact fun d a b c t s hdir hwait hawaited => congrArg Host.Outcome.next (fenceWaitExpiry_of_awaited hdir hwait hawaited)
  case firstLapse =>
    intro b s hup hb hin
    have hmon := monitorSample_mon_of_lapse hup hb
    exact ⟨_, rfl, congrArg Mon.out hmon, congrArg Mon.backAt hmon, monitorSample_c1_of_first_lapse hup hb hin,
      monitorSample_fault_of_lapse hup hb⟩
  case furtherLapse =>
    intro b s hup hb hout
    have hmon := monitorSample_mon_of_lapse hup hb
    exact ⟨_, rfl, congrArg Mon.out hmon, congrArg Mon.backAt hmon, monitorSample_jnl_of_further_lapse hup hb hout,
      monitorSample_fault_of_lapse hup hb⟩
  case backInRange => exact fun s hup hout => congrArg Host.Outcome.next (monitorSample_of_return hup hout)
  case staysInRange => exact fun s hup hin => congrArg Host.Outcome.next (monitorSample_of_in_range hup hin)
  case recovery =>
    intro back s hback hin hc1
    refine ⟨_, rfl, ?_, c1Recovery_mono hback hin hc1⟩
    rw [c1Recovery_of_returned hback hin hc1, jnlC1_c1]

end

section
/-! PARAM_BLOCK_WRITE in the current format (R54): one rule for a block with an entry that offends and one for a block without, and from them the
range of the durability period (R26), O57. -/

namespace Sys2Proof.Machine

/-! ### A block in the current format -/

/-- The header of a block that a write judges entry by entry: its subsystem is one, its reserved bytes are 0 and its format is the current one. -/
structure CurrentHeader (p : List Byte) (s : State) : Prop where
  sub_pos : 1 ≤ rd p 2 1
  sub_le : rd p 2 1 ≤ 0xC
  reserved3 : zeroAt p 3 1 = true
  reserved6 : zeroAt p 6 2 = true
  format : rd p 0 2 = curFormat s (rd p 2 1)

/-- The entries that a block's count names. -/
def namedEntries (p : List Byte) : List PEntry := blockEntries p (rd p 4 2) 8

/-- What a block write does past its header: the entries decide. -/
theorem paramBlockWrite_of_currentHeader {r : Req} {s : State} (h : CurrentHeader r.payload s) :
    paramBlockWrite r s =
      match firstEntryBad s (rd r.payload 2 1) [] 0 (namedEntries r.payload) with
      | some (i, id, st) => refuse s st (le 2 i ++ le 2 id)
      | none =>
        if blockEnd (namedEntries r.payload) != r.payload.length then refuse s .badParam (le 2 (rd r.payload 4 2) ++ le 2 0)
        else replyOk ((namedEntries r.payload).foldl (fun s e => writeParam e.id (some e.value) s) s) := by
  obtain ⟨hpos, hle, h3, h6, hfmt⟩ := h
  have hhdr : ¬ (rd r.payload 2 1 = 0 ∨ 0xC < rd r.payload 2 1) := by omega
  simp only [paramBlockWrite, namedEntries, hfmt, h3, h6]
  rw [if_neg (by simpa using hhdr), if_neg (Nat.lt_irrefl _)]
  rfl

/-- R54: the first entry that offends is named, and no entry takes effect. -/
theorem exec_paramBlockWrite_of_bad_entry {r : Req} {s : State} {i id : Nat} {st : Status} (hserved : Served paramBlockWriteService r s = true)
    (hhdr : CurrentHeader r.payload (taken r s))
    (hbad : firstEntryBad (taken r s) (rd r.payload 2 1) [] 0 (namedEntries r.payload) = some (i, id, st)) :
    exec (.paramBlockWrite r) s = .next (answer 0x0120 r st (le 2 i ++ le 2 id) (taken r s)) := by
  have hrun : paramBlockWrite r (taken r s) = .done (taken r s) st (le 2 i ++ le 2 id) := by
    rw [paramBlockWrite_of_currentHeader hhdr, hbad]
    rfl
  exact congrArg Host.Outcome.next (serve_done paramBlockWriteService r s _ _ _ hserved hrun)

/-- R54: no entry offends and the block ends where its entries do, so each entry is written in turn. -/
theorem exec_paramBlockWrite_of_good_entries {r : Req} {s : State} (hserved : Served paramBlockWriteService r s = true)
    (hhdr : CurrentHeader r.payload (taken r s))
    (hgood : firstEntryBad (taken r s) (rd r.payload 2 1) [] 0 (namedEntries r.payload) = none)
    (hend : blockEnd (namedEntries r.payload) = r.payload.length) :
    exec (.paramBlockWrite r) s = .next (answer 0x0120 r .ok []
      ((namedEntries r.payload).foldl (fun s e => writeParam e.id (some e.value) s) (taken r s))) := by
  have hrun : paramBlockWrite r (taken r s) =
      .done ((namedEntries r.payload).foldl (fun s e => writeParam e.id (some e.value) s) (taken r s)) .ok [] := by
    rw [paramBlockWrite_of_currentHeader hhdr, hgood]
    exact if_neg (by simp [hend])
  exact congrArg Host.Outcome.next (serve_done paramBlockWriteService r s _ _ _ hserved hrun)

/-! ### The block that writes the durability period -/

/-- The ledger block in format 1 whose one entry gives parameter 0x5000 the value v. -/
def durabilityBlock (v : Byte) : List Byte := [1, 0, 5, 0, 1, 0, 0, 0, 0x00, 0x50, 1, 0, v, 0, 0, 0]

theorem durabilityBlock_currentHeader (v : Byte) {s : State} (hfmt : curFormat s 5 = 1) : CurrentHeader (durabilityBlock v) s where
  sub_pos := show 1 ≤ 5 by decide
  sub_le := show 5 ≤ 0xC by decide
  reserved3 := rfl
  reserved6 := rfl
  format := hfmt.symm

theorem durabilityBlock_entries (v : Byte) :
    namedEntries (durabilityBlock v) = [{ id := 0x5000, len := 1, value := v.toNat, fits := true }] :=
  entries58 v

/-- R26: the one entry offends exactly when its value is out of the range. -/
theorem durabilityBlock_firstEntryBad (v : Byte) (s : State) :
    firstEntryBad s (rd (durabilityBlock v) 2 1) [] 0 (namedEntries (durabilityBlock v)) =
      if v.toNat = 0 ∨ 30 < v.toNat then some (0, 0x5000, .badParam) else none := by
  rw [durabilityBlock_entries]
  exact bad58 v s

theorem durabilityBlock_end (v : Byte) : blockEnd (namedEntries (durabilityBlock v)) = (durabilityBlock v).length := by
  rw [durabilityBlock_entries]
  simp [blockEnd, entryBytes, durabilityBlock]

/-- R26: a value of 0 or above 30 s is refused. -/
theorem exec_durabilityBlock_of_out_of_range {r : Req} {v : Byte} {s : State} (hserved : Served paramBlockWriteService r s = true)
    (hfmt : curFormat s 5 = 1) (hp : r.payload = durabilityBlock v) (hv : v.toNat = 0 ∨ 30 < v.toNat) :
    exec (.paramBlockWrite r) s = .next (answer 0x0120 r .badParam (le 2 0 ++ le 2 0x5000) (taken r s)) := by
  have hhdr : CurrentHeader r.payload (taken r s) := hp ▸ durabilityBlock_currentHeader v hfmt
  refine exec_paramBlockWrite_of_bad_entry hserved hhdr ?_
  rw [hp, durabilityBlock_firstEntryBad, if_pos hv]

/-- R26: a value from 1 s to 30 s is written to the live value. -/
theorem exec_durabilityBlock_of_in_range {r : Req} {v : Byte} {s : State} (hserved : Served paramBlockWriteService r s = true)
    (hfmt : curFormat s 5 = 1) (hp : r.payload = durabilityBlock v) (hlo : 1 ≤ v.toNat) (hhi : v.toNat ≤ 30) :
    exec (.paramBlockWrite r) s = .next (answer 0x0120 r .ok [] (writeParam 0x5000 (some v.toNat) (taken r s))) := by
  have hhdr : CurrentHeader r.payload (taken r s) := hp ▸ durabilityBlock_currentHeader v hfmt
  have hgood : firstEntryBad (taken r s) (rd r.payload 2 1) [] 0 (namedEntries r.payload) = none := by
    rw [hp, durabilityBlock_firstEntryBad, if_neg (by omega)]
  have hend : blockEnd (namedEntries r.payload) = r.payload.length := hp ▸ durabilityBlock_end v
  rw [exec_paramBlockWrite_of_good_entries hserved hhdr hgood hend, hp, durabilityBlock_entries]
  rfl

/-- R26: the parameter's own range. -/
theorem durabilityPeriod_ok_iff (v : Nat) : (pRange 1 1 30 30 .l).ok v = true ↔ 1 ≤ v ∧ v ≤ 30 := by
  simp [pRange]

end Sys2Proof.Machine

open Sys2Proof Sys2Proof.Machine

/-- Settles O57: the parameter's range, then a value out of it and a value in it. -/
theorem durabilityPeriodRange : Obligations.DurabilityPeriodRange := by
  unfold Obligations.DurabilityPeriodRange
  refine ⟨⟨_, def5000, rfl, durabilityPeriod_ok_iff⟩, fun r v s hserved hfmt hp => ⟨?outOfRange, ?inRange⟩⟩
  case outOfRange =>
    exact fun hv => ⟨_, exec_durabilityBlock_of_out_of_range hserved hfmt hp hv, rfl, answer_pval _ _ _ _ _ _⟩
  case inRange =>
    intro hlo hhi
    refine ⟨_, exec_durabilityBlock_of_in_range hserved hfmt hp hlo hhi, rfl, ?_⟩
    rw [answer_pval, live5000]

end

section
/-! The state after reset (log 6): every table is empty, so that each of its entries reads as its reset value. From that O3, register table by
register table. -/

namespace Sys2Proof.Machine

/-- R500: without a write of EVT_ROUTE, source n has the six low bits of its number as its vector. -/
theorem evtRoute_reset (n : Nat) : evtRoute State.reset n = n % 64 := BitVec.toNat_ofNat n 6

theorem mbx_reset (m : Nat) : mbx State.reset m = {} := rfl

theorem isl_reset (i : Nat) : isl State.reset i = {} := rfl

/-- Table 15-3: RLF (bit 1), OSF (bit 7) and ON_VBAT (bit 9) are 1. -/
theorem rtcStat_reset : rtcStat State.reset.bkp = 0b1010000010 := by decide

/-- R406: with the retention and the oscillator lost, time is not trusted. -/
theorem trusted_reset : trusted State.reset = false := rfl

end Sys2Proof.Machine

open Sys2Proof Sys2Proof.Machine

/-- Settles O3, field by field. -/
theorem resetHoldsSpecValues : Obligations.ResetHoldsSpecValues := by
  unfold Obligations.ResetHoldsSpecValues
  refine ⟨rfl, rfl, rfl, rfl, evtRoute_reset, ?mailboxes, rfl, rtcStat_reset, rfl, trusted_reset, ?alarms, ?tampers, rfl, rfl, rfl, rfl, rfl,
    ?islands⟩
  case mailboxes =>
    intro m
    rw [mbx_reset]
    exact ⟨rfl, rfl, rfl, rfl, rfl, rfl, rfl, rfl, rfl, rfl, rfl, rfl⟩
  case alarms => exact fun n => rfl
  case tampers => exact fun i => ⟨rfl, rfl⟩
  case islands => exact fun i _ => congrArg Island.inReset (isl_reset i)

end

section
/-! The configuration state (R57, R61): every command leaves it as it was or makes a change of Table 03-10, and the window goes with it. From that
O7. -/

namespace Sys2Proof.Machine

/-- A command that leaves the configuration alone moves nothing. -/
theorem kmove_of_cfg {s t : State} (h : t.cfg = s.cfg) : KMove (ckey s) (ckey t) :=
  kmove_same (congrArg (fun c : Cfg => (c.state, c.prior, c.window.isSome)) h)

/-- A request command serves the service of its own opcode, whose run moves as the table has it. -/
theorem request_kmove {v : Service} {r : Req} {s t : State} (hop : serviceOf v.opcode = some v)
    (e : (Host.Outcome.next (serve v r s) : Host.Outcome State Fault Refusal) = .next t) : KMove (ckey s) (ckey t) :=
  nx e ▸ k_serve v (k_services v (List.mem_of_find?_eq_some hop)) r s

/-- Table 03-10, command by command: the requests, the hardware that moves the configuration, then the commands that leave it alone. -/
theorem exec_kmove {i : Instr} {s t : State} (e : exec i s = .next t) : KMove (ckey s) (ckey t) := by
  cases i with
  | nop | configBegin | configCommit | configAbort | configStateGet | capsGet | paramBlockWrite | paramBlockRead | laneAssign | laneTableGet
  | laneStatsGet | laneStatsClear | rfPortStatusGet | bandProfileSet | bandProfileGet | dutyStatusGet | sectorStatusGet | connectOpen
  | connectClose | airStateGet | plcPortStatusGet | plcCalGet | plcRecalibrate | plcLinkGet | plcRouteGet | plcRouteProposalsGet | plcRouteSet
  | plcRouteUnpin | plcPollNow | enrol | withdraw | admitStateSet | endpointUpdate | endpointGet | addrLookup | tallyGet | tallyClear
  | dirStatusGet | dirRehash | unknownGet | unknownClear | xlateSet | xlateGet | dmaChanSet | dmaChanStatusGet | dmaChanRestart | memStatusGet
  | profileSet | profileGet | provListAdd | provListClear | exportStart | exportStop | exportConfirm | exportFlush | pipeStatusGet | exportRewind
  | calLoad | calGet | tariffAssign | ledgerGet | ledgerRestoreStart | ledgerPageLost | ledgerExportStart | ledgerConfirm | ledgerPendingGet
  | periodCloseNow | statementStart | statementConfirm | statementRewind | graniteInfoGet | displayShow | ledgerStatusGet | zoneLoad | zoneDrop
  | zoneTolSet | zoneGet | scoreReset | balExportStart | balConfirm | balRewind | balRerun | balStatusGet | campCreate | campContent
  | campTargetsAdd | campStart | campPause | campResume | campCancel | campStatusGet | campTargetGet | campRelease | switchFaultClear | qkLoad
  | qkDerive | qkGenerate | qkDestroy | qkSlotGet | qkEpLoad | qkEpClear | qkRewrap | qkAttest | qkCertGet | qkStatusGet | slateRead | slateDump
  | slateStatusGet | slateCodeGet | slateRecfClear | timeGet | timeSet | timeTrimSet | alarmSet | alarmGet | powerOff | tamperCfgSet | tamperGet
  | tamperClear | resetRequest | trainReportGet | fwInfoGet | fwStageBegin | fwStageWrite | fwStageCommit | fwStageClear | fwPrepare
  | fwMicrocodeAt | fwConfirm | lifecycleAdvance | custKeyProgram | safetyStatusGet | safetyClear | safetyProofTest | laneMapGet | repairLedgerGet
  | rotationStatusGet | maintStatusGet => exact request_kmove rfl e
  | requestWaitEnd id => exact nx e ▸ k_wait id s
  | commitInstant fault => exact nx e ▸ k_instant fault s
  | porMainAssert => exact nx e ▸ k_por s
  | nresetAssert => exact nx e ▸ k_nreset s
  | wdtExpiry => exact nx e ▸ k_wdt s
  | sysrst => exact nx e ▸ k_sysrst s
  | firmwareTakeover => exact kmove_same (nx e ▸ k_takeover s)
  | rfPortTrainEnd p res => exact kmove_same (nx e ▸ k_train p res s)
  | registerWrite => exact kmove_of_cfg (execRegisterWrite_keeps State.cfg (by intros; rfl) _ _ _ _ _ e)
  | etimeLoRead => exact kmove_of_cfg (execEtimeLoRead_keeps State.cfg (by intros; rfl) _ _ e)
  | rstCtrlSysrst => exact kmove_of_cfg (execRstCtrlSysrst_keeps State.cfg (by intros; rfl) _ _ _ e)
  | mbxEnable => exact kmove_of_cfg (execMbxEnable_keeps State.cfg (by intros; rfl) _ _ _ e)
  | mbxDisable => exact kmove_of_cfg (execMbxDisable_keeps State.cfg (by intros; rfl) _ _ _ e)
  | mbxReset => exact kmove_of_cfg (execMbxReset_keeps State.cfg (by intros; rfl) _ _ _ e)
  | mbxReqPiWrite => exact kmove_of_cfg (execMbxReqPiWrite_keeps State.cfg (by intros; rfl) _ _ _ _ e)
  | mbxRspCiWrite => exact kmove_of_cfg (execMbxRspCiWrite_keeps State.cfg (by intros; rfl) _ _ _ _ e)
  | requestFetch => exact kmove_of_cfg (execRequestFetch_keeps State.cfg (by intros; rfl) _ _ _ _ e)
  | ringBusError => exact kmove_of_cfg (execRingBusError_keeps State.cfg (by intros; rfl) _ _ _ _ e)
  | responsePost => exact kmove_of_cfg (execResponsePost_keeps State.cfg (by intros; rfl) _ _ _ e)
  | evtPendClear => exact kmove_of_cfg (execEvtPendClear_keeps State.cfg (by intros; rfl) _ _ _ _ _ e)
  | evtEnWrite => exact kmove_of_cfg (execEvtEnWrite_keeps State.cfg (by intros; rfl) _ _ _ _ e)
  | evtForce => exact kmove_of_cfg (execEvtForce_keeps State.cfg (by intros; rfl) _ _ _ _ e)
  | msixUnmask => exact kmove_of_cfg (execMsixUnmask_keeps State.cfg (by intros; rfl) _ _ _ e)
  | monitorSample => exact kmove_of_cfg (execMonitorSample_keeps State.cfg (by intros; rfl) _ _ _ e)
  | c1Recovery => exact kmove_of_cfg (execC1Recovery_keeps State.cfg (by intros; rfl) _ _ e)
  | iqSlotReceive => exact kmove_of_cfg (execIqSlotReceive_keeps State.cfg (by intros; rfl) _ _ _ _ e)
  | rxclkStop => exact kmove_of_cfg (execRxclkStop_keeps State.cfg (by intros; rfl) _ _ _ e)
  | overloadWindow => exact kmove_of_cfg (execOverloadWindow_keeps State.cfg (by intros; rfl) _ _ _ e)
  | shrDetect => exact kmove_of_cfg (execShrDetect_keeps State.cfg (by intros; rfl) _ _ _ _ _ e)
  | phrDecode => exact kmove_of_cfg (execPhrDecode_keeps State.cfg (by intros; rfl) _ _ _ _ e)
  | psduWordPush => exact kmove_of_cfg (execPsduWordPush_keeps State.cfg (by intros; rfl) _ _ _ _ e)
  | laneFrameEnd => exact kmove_of_cfg (execLaneFrameEnd_keeps State.cfg (by intros; rfl) _ _ _ _ e)
  | overflowTrailerPush => exact kmove_of_cfg (execOverflowTrailerPush_keeps State.cfg (by intros; rfl) _ _ _ _ e)
  | blankingStart => exact kmove_of_cfg (execBlankingStart_keeps State.cfg (by intros; rfl) _ _ _ _ e)
  | blankingEnd => exact kmove_of_cfg (execBlankingEnd_keeps State.cfg (by intros; rfl) _ _ _ e)
  | laneSwitch => exact kmove_of_cfg (execLaneSwitch_keeps State.cfg (by intros; rfl) _ _ _ e)
  | beaconDue => exact kmove_of_cfg (execBeaconDue_keeps State.cfg (by intros; rfl) _ _ _ _ e)
  | lbtListenEnd => exact kmove_of_cfg (execLbtListenEnd_keeps State.cfg (by intros; rfl) _ _ _ _ e)
  | lbtBackoffEnd => exact kmove_of_cfg (execLbtBackoffEnd_keeps State.cfg (by intros; rfl) _ _ _ e)
  | beaconTxStart => exact kmove_of_cfg (execBeaconTxStart_keeps State.cfg (by intros; rfl) _ _ _ _ e)
  | beaconMiss => exact kmove_of_cfg (execBeaconMiss_keeps State.cfg (by intros; rfl) _ _ _ e)
  | fallbackRetry => exact kmove_of_cfg (execFallbackRetry_keeps State.cfg (by intros; rfl) _ _ _ e)
  | deepBeaconTx => exact kmove_of_cfg (execDeepBeaconTx_keeps State.cfg (by intros; rfl) _ _ _ _ e)
  | linkAckTx => exact kmove_of_cfg (execLinkAckTx_keeps State.cfg (by intros; rfl) _ _ _ _ e)
  | downlinkTx => exact kmove_of_cfg (execDownlinkTx_keeps State.cfg (by intros; rfl) _ _ _ _ _ e)
  | transmissionEnd => exact kmove_of_cfg (execTransmissionEnd_keeps State.cfg (by intros; rfl) _ _ _ _ e)
  | chargeExpiry => exact kmove_of_cfg (execChargeExpiry_keeps State.cfg (by intros; rfl) _ _ _ _ e)
  | arrivalWindowClose => exact kmove_of_cfg (execArrivalWindowClose_keeps State.cfg (by intros; rfl) _ _ _ e)
  | supervisionTimeout => exact kmove_of_cfg (execSupervisionTimeout_keeps State.cfg (by intros; rfl) _ _ _ e)
  | connectionEvent => exact kmove_of_cfg (execConnectionEvent_keeps State.cfg (by intros; rfl) _ _ _ _ e)
  | connectReplyTimeout => exact kmove_of_cfg (execConnectReplyTimeout_keeps State.cfg (by intros; rfl) _ _ _ e)
  | openTimeout => exact kmove_of_cfg (execOpenTimeout_keeps State.cfg (by intros; rfl) _ _ _ e)
  | connSupervisionExpiry => exact kmove_of_cfg (execConnSupervisionExpiry_keeps State.cfg (by intros; rfl) _ _ _ e)
  | ldFault => exact kmove_of_cfg (execLdFault_keeps State.cfg (by intros; rfl) _ _ _ _ e)
  | ldFaultRetry => exact kmove_of_cfg (execLdFaultRetry_keeps State.cfg (by intros; rfl) _ _ _ e)
  | transactionStart => exact kmove_of_cfg (execTransactionStart_keeps State.cfg (by intros; rfl) _ _ _ _ e)
  | plcHeaderDecode => exact kmove_of_cfg (execPlcHeaderDecode_keeps State.cfg (by intros; rfl) _ _ _ _ e)
  | plcSymbolReceive => exact kmove_of_cfg (execPlcSymbolReceive_keeps State.cfg (by intros; rfl) _ _ _ _ e)
  | plcFrameEnd => exact kmove_of_cfg (execPlcFrameEnd_keeps State.cfg (by intros; rfl) _ _ _ _ e)
  | plcOverflowTrailer => exact kmove_of_cfg (execPlcOverflowTrailer_keeps State.cfg (by intros; rfl) _ _ _ _ e)
  | pollDeadline => exact kmove_of_cfg (execPollDeadline_keeps State.cfg (by intros; rfl) _ _ _ e)
  | retryGapExpiry => exact kmove_of_cfg (execRetryGapExpiry_keeps State.cfg (by intros; rfl) _ _ _ e)
  | readDue => exact kmove_of_cfg (execReadDue_keeps State.cfg (by intros; rfl) _ _ _ e)
  | custodyMaxExpiry => exact kmove_of_cfg (execCustodyMaxExpiry_keeps State.cfg (by intros; rfl) _ _ _ e)
  | nbrDue => exact kmove_of_cfg (execNbrDue_keeps State.cfg (by intros; rfl) _ _ e)
  | unreachRetry => exact kmove_of_cfg (execUnreachRetry_keeps State.cfg (by intros; rfl) _ _ _ e)
  | routeRecalc => exact kmove_of_cfg (execRouteRecalc_keeps State.cfg (by intros; rfl) _ _ e)
  | linkAgeExpiry => exact kmove_of_cfg (execLinkAgeExpiry_keeps State.cfg (by intros; rfl) _ _ _ e)
  | queuePush => exact kmove_of_cfg (execQueuePush_keeps State.cfg (by intros; rfl) _ _ _ _ _ _ e)
  | queueDoom => exact kmove_of_cfg (execQueueDoom_keeps State.cfg (by intros; rfl) _ _ _ e)
  | queueRead => exact kmove_of_cfg (execQueueRead_keeps State.cfg (by intros; rfl) _ _ _ e)
  | dropRest => exact kmove_of_cfg (execDropRest_keeps State.cfg (by intros; rfl) _ _ _ e)
  | noticePop => exact kmove_of_cfg (execNoticePop_keeps State.cfg (by intros; rfl) _ _ _ e)
  | plcCalibrationDone => exact kmove_of_cfg (execPlcCalibrationDone_keeps State.cfg (by intros; rfl) _ _ _ _ e)
  | directoryAirPacket => exact kmove_of_cfg (execDirectoryAirPacket_keeps State.cfg (by intros; rfl) _ _ _ e)
  | directoryPlcPacket => exact kmove_of_cfg (execDirectoryPlcPacket_keeps State.cfg (by intros; rfl) _ _ _ e)
  | serialRelease => exact kmove_of_cfg (execSerialRelease_keeps State.cfg (by intros; rfl) _ _ _ e)
  | fetchBufferFree => exact kmove_of_cfg (execFetchBufferFree_keeps State.cfg (by intros; rfl) _ _ e)
  | contextFetchComplete => exact kmove_of_cfg (execContextFetchComplete_keeps State.cfg (by intros; rfl) _ _ _ _ e)
  | writebackDone => exact kmove_of_cfg (execWritebackDone_keeps State.cfg (by intros; rfl) _ _ _ e)
  | retirementComplete => exact kmove_of_cfg (execRetirementComplete_keeps State.cfg (by intros; rfl) _ _ _ e)
  | retireHoldExpiry => exact kmove_of_cfg (execRetireHoldExpiry_keeps State.cfg (by intros; rfl) _ _ _ e)
  | rehashEnd => exact kmove_of_cfg (execRehashEnd_keeps State.cfg (by intros; rfl) _ _ e)
  | patrolScrub => exact kmove_of_cfg (execPatrolScrub_keeps State.cfg (by intros; rfl) _ _ _ e)
  | softRepair => exact kmove_of_cfg (execSoftRepair_keeps State.cfg (by intros; rfl) _ _ _ e)
  | dmaPiWrite => exact kmove_of_cfg (execDmaPiWrite_keeps State.cfg (by intros; rfl) _ _ _ _ e)
  | dmaDescriptorEnd => exact kmove_of_cfg (execDmaDescriptorEnd_keeps State.cfg (by intros; rfl) _ _ _ _ e)
  | dmaBusError => exact kmove_of_cfg (execDmaBusError_keeps State.cfg (by intros; rfl) _ _ _ _ e)
  | journalGroupCommit => exact kmove_of_cfg (execJournalGroupCommit_keeps State.cfg (by intros; rfl) _ _ _ _ e)
  | jnlFullWaitExpiry => exact kmove_of_cfg (execJnlFullWaitExpiry_keeps State.cfg (by intros; rfl) _ _ _ e)
  | bundleTimeout => exact kmove_of_cfg (execBundleTimeout_keeps State.cfg (by intros; rfl) _ _ _ e)
  | bundleSigned => exact kmove_of_cfg (execBundleSigned_keeps State.cfg (by intros; rfl) _ _ e)
  | calTransition => exact kmove_of_cfg (execCalTransition_keeps State.cfg (by intros; rfl) _ _ _ _ e)
  | ledgerSweep => exact kmove_of_cfg (execLedgerSweep_keeps State.cfg (by intros; rfl) _ _ _ _ e)
  | stmtBundleTimeout => exact kmove_of_cfg (execStmtBundleTimeout_keeps State.cfg (by intros; rfl) _ _ e)
  | ledgerSeal => exact kmove_of_cfg (execLedgerSeal_keeps State.cfg (by intros; rfl) _ _ e)
  | durabilityExpiry => exact kmove_of_cfg (execDurabilityExpiry_keeps State.cfg (by intros; rfl) _ _ _ e)
  | restorePageReceive => exact kmove_of_cfg (execRestorePageReceive_keeps State.cfg (by intros; rfl) _ _ _ e)
  | pwrfailAssert => exact kmove_of_cfg (execPwrfailAssert_keeps State.cfg (by intros; rfl) _ _ e)
  | pwrfailDeassert => exact kmove_of_cfg (execPwrfailDeassert_keeps State.cfg (by intros; rfl) _ _ e)
  | displayScreen => exact kmove_of_cfg (execDisplayScreen_keeps State.cfg (by intros; rfl) _ _ _ e)
  | displayRetry => exact kmove_of_cfg (execDisplayRetry_keeps State.cfg (by intros; rfl) _ _ _ e)
  | sealChange => exact kmove_of_cfg (execSealChange_keeps State.cfg (by intros; rfl) _ _ _ e)
  | intervalClose => exact kmove_of_cfg (execIntervalClose_keeps State.cfg (by intros; rfl) _ _ _ _ e)
  | revisionPost => exact kmove_of_cfg (execRevisionPost_keeps State.cfg (by intros; rfl) _ _ _ _ e)
  | unzonedPost => exact kmove_of_cfg (execUnzonedPost_keeps State.cfg (by intros; rfl) _ _ _ e)
  | horizonAdvance => exact kmove_of_cfg (execHorizonAdvance_keeps State.cfg (by intros; rfl) _ _ e)
  | stepAttempt => exact kmove_of_cfg (execStepAttempt_keeps State.cfg (by intros; rfl) _ _ _ _ e)
  | confWaitEnd => exact kmove_of_cfg (execConfWaitEnd_keeps State.cfg (by intros; rfl) _ _ _ _ e)
  | campDeadline => exact kmove_of_cfg (execCampDeadline_keeps State.cfg (by intros; rfl) _ _ _ e)
  | sessionPlan => exact kmove_of_cfg (execSessionPlan_keeps State.cfg (by intros; rfl) _ _ _ _ e)
  | multicastFrame => exact kmove_of_cfg (execMulticastFrame_keeps State.cfg (by intros; rfl) _ _ _ _ _ e)
  | switchFbTimeout => exact kmove_of_cfg (execSwitchFbTimeout_keeps State.cfg (by intros; rfl) _ _ _ _ e)
  | gateRelease => exact kmove_of_cfg (execGateRelease_keeps State.cfg (by intros; rfl) _ _ _ _ e)
  | rewrapWalk => exact kmove_of_cfg (execRewrapWalk_keeps State.cfg (by intros; rfl) _ _ e)
  | drbgReseed => exact kmove_of_cfg (execDrbgReseed_keeps State.cfg (by intros; rfl) _ _ _ e)
  | recordWrite => exact kmove_of_cfg (execRecordWrite_keeps State.cfg (by intros; rfl) _ _ _ e)
  | tokenRefill => exact kmove_of_cfg (execTokenRefill_keeps State.cfg (by intros; rfl) _ _ _ e)
  | checkpointWrite => exact kmove_of_cfg (execCheckpointWrite_keeps State.cfg (by intros; rfl) _ _ _ e)
  | envmScrub => exact kmove_of_cfg (execEnvmScrub_keeps State.cfg (by intros; rfl) _ _ _ e)
  | rtcTick => exact kmove_of_cfg (execRtcTick_keeps State.cfg (by intros; rfl) _ _ e)
  | rtcRegRead => exact kmove_of_cfg (execRtcRegRead_keeps State.cfg (by intros; rfl) _ _ _ e)
  | rtcYearRead => exact kmove_of_cfg (execRtcYearRead_keeps State.cfg (by intros; rfl) _ _ e)
  | rtcShadowTimeout => exact kmove_of_cfg (execRtcShadowTimeout_keeps State.cfg (by intros; rfl) _ _ e)
  | rtcRegWrite => exact kmove_of_cfg (execRtcRegWrite_keeps State.cfg (by intros; rfl) _ _ _ _ e)
  | rtcYearWrite => exact kmove_of_cfg (execRtcYearWrite_keeps State.cfg (by intros; rfl) _ _ _ e)
  | writeSetTimeout => exact kmove_of_cfg (execWriteSetTimeout_keeps State.cfg (by intros; rfl) _ _ e)
  | supplyToVbat => exact kmove_of_cfg (execSupplyToVbat_keeps State.cfg (by intros; rfl) _ _ e)
  | supplyToMain => exact kmove_of_cfg (execSupplyToMain_keeps State.cfg (by intros; rfl) _ _ e)
  | lbvMeasure => exact kmove_of_cfg (execLbvMeasure_keeps State.cfg (by intros; rfl) _ _ _ _ e)
  | retentionLoss => exact kmove_of_cfg (execRetentionLoss_keeps State.cfg (by intros; rfl) _ _ e)
  | oscStop => exact kmove_of_cfg (execOscStop_keeps State.cfg (by intros; rfl) _ _ e)
  | porBkp => exact kmove_of_cfg (execPorBkp_keeps State.cfg (by intros; rfl) _ _ e)
  | tamperActivation => exact kmove_of_cfg (execTamperActivation_keeps State.cfg (by intros; rfl) _ _ _ e)
  | pwronOff => exact kmove_of_cfg (execPwronOff_keeps State.cfg (by intros; rfl) _ _ e)
  | mirRefresh => exact kmove_of_cfg (execMirRefresh_keeps State.cfg (by intros; rfl) _ _ e)
  | mirCalRead => exact kmove_of_cfg (execMirCalRead_keeps State.cfg (by intros; rfl) _ _ _ e)
  | mirYearRead => exact kmove_of_cfg (execMirYearRead_keeps State.cfg (by intros; rfl) _ _ e)
  | mirShadowTimeout => exact kmove_of_cfg (execMirShadowTimeout_keeps State.cfg (by intros; rfl) _ _ e)
  | porMainRelease => exact kmove_of_cfg (execPorMainRelease_keeps State.cfg (by intros; rfl) _ _ e)
  | nresetRelease => exact kmove_of_cfg (execNresetRelease_keeps State.cfg (by intros; rfl) _ _ e)
  | perstNAssert => exact kmove_of_cfg (execPerstNAssert_keeps State.cfg (by intros; rfl) _ _ e)
  | synthLockRetry => exact kmove_of_cfg (execSynthLockRetry_keeps State.cfg (by intros; rfl) _ _ _ e)
  | bootRomVerify => exact kmove_of_cfg (execBootRomVerify_keeps State.cfg (by intros; rfl) _ _ _ e)
  | coreBist => exact kmove_of_cfg (execCoreBist_keeps State.cfg (by intros; rfl) _ _ _ _ e)
  | pcieLinkTrain => exact kmove_of_cfg (execPcieLinkTrain_keeps State.cfg (by intros; rfl) _ _ _ _ e)
  | ddrTraining => exact kmove_of_cfg (execDdrTraining_keeps State.cfg (by intros; rfl) _ _ _ e)
  | startScanReplay => exact kmove_of_cfg (execStartScanReplay_keeps State.cfg (by intros; rfl) _ _ e)
  | rfPortTrain => exact kmove_of_cfg (execRfPortTrain_keeps State.cfg (by intros; rfl) _ _ _ e)
  | plcOffsetCal => exact kmove_of_cfg (execPlcOffsetCal_keeps State.cfg (by intros; rfl) _ _ _ e)
  | dataplaneBist => exact kmove_of_cfg (execDataplaneBist_keeps State.cfg (by intros; rfl) _ _ _ _ e)
  | stagingEraseDone => exact kmove_of_cfg (execStagingEraseDone_keeps State.cfg (by intros; rfl) _ _ e)
  | fwPrepareDone => exact kmove_of_cfg (execFwPrepareDone_keeps State.cfg (by intros; rfl) _ _ _ e)
  | microcodeSwitch => exact kmove_of_cfg (execMicrocodeSwitch_keeps State.cfg (by intros; rfl) _ _ e)
  | fwActivate => exact kmove_of_cfg (execFwActivate_keeps State.cfg (by intros; rfl) _ _ _ e)
  | activationPauseOverrun => exact kmove_of_cfg (execActivationPauseOverrun_keeps State.cfg (by intros; rfl) _ _ e)
  | confirmTimerExpiry => exact kmove_of_cfg (execConfirmTimerExpiry_keeps State.cfg (by intros; rfl) _ _ e)
  | fwHostBoot => exact kmove_of_cfg (execFwHostBoot_keeps State.cfg (by intros; rfl) _ _ _ _ e)
  | gateTestPeriodic => exact kmove_of_cfg (execGateTestPeriodic_keeps State.cfg (by intros; rfl) _ _ _ e)
  | lockstepMismatch => exact kmove_of_cfg (execLockstepMismatch_keeps State.cfg (by intros; rfl) _ _ e)
  | safetySramScrub => exact kmove_of_cfg (execSafetySramScrub_keeps State.cfg (by intros; rfl) _ _ _ e)
  | heartbeatCheck => exact kmove_of_cfg (execHeartbeatCheck_keeps State.cfg (by intros; rfl) _ _ _ e)
  | clockMonitorFault => exact kmove_of_cfg (execClockMonitorFault_keeps State.cfg (by intros; rfl) _ _ e)
  | safetyAutoRecover => exact kmove_of_cfg (execSafetyAutoRecover_keeps State.cfg (by intros; rfl) _ _ e)
  | proofTestEnd => exact kmove_of_cfg (execProofTestEnd_keeps State.cfg (by intros; rfl) _ _ _ e)
  | rotationStep => exact kmove_of_cfg (execRotationStep_keeps State.cfg (by intros; rfl) _ _ e)
  | rotationHandover => exact kmove_of_cfg (execRotationHandover_keeps State.cfg (by intros; rfl) _ _ e)
  | laneTestEnd => exact kmove_of_cfg (execLaneTestEnd_keeps State.cfg (by intros; rfl) _ _ _ e)
  | rotationLate => exact kmove_of_cfg (execRotationLate_keeps State.cfg (by intros; rfl) _ _ _ e)
  | maintTokenGrant => exact kmove_of_cfg (execMaintTokenGrant_keeps State.cfg (by intros; rfl) _ _ _ e)
  | plcTransmitEnd => exact kmove_of_cfg (execPlcTransmitEnd_keeps State.cfg (by intros; rfl) _ _ _ e)
  | pcieUncorrectableError => exact kmove_of_cfg (execPcieUncorrectableError_keeps State.cfg (by intros; rfl) _ _ e)
  | flitTransfer => exact kmove_of_cfg (execFlitTransfer_keeps State.cfg (by intros; rfl) _ _ _ e)
  | creditReturn => exact kmove_of_cfg (execCreditReturn_keeps State.cfg (by intros; rfl) _ _ _ e)
  | creditAudit => exact kmove_of_cfg (execCreditAudit_keeps State.cfg (by intros; rfl) _ _ _ e)
  | fenceWaitExpiry => exact kmove_of_cfg (execFenceWaitExpiry_keeps State.cfg (by intros; rfl) _ _ _ e)
  | recorderDrainEnd => exact kmove_of_cfg (execRecorderDrainEnd_keeps State.cfg (by intros; rfl) _ _ e)
  | dprst => exact kmove_of_cfg (execDprst_keeps State.cfg (by intros; rfl) _ _ e)
  | islrst => exact kmove_of_cfg (execIslrst_keeps State.cfg (by intros; rfl) _ _ _ e)
  | releaseStageEnd => exact kmove_of_cfg (execReleaseStageEnd_keeps State.cfg (by intros; rfl) _ _ _ _ e)
  | genLockTimeout => exact kmove_of_cfg (execGenLockTimeout_keeps State.cfg (by intros; rfl) _ _ _ e)
  | islandBistEnd => exact kmove_of_cfg (execIslandBistEnd_keeps State.cfg (by intros; rfl) _ _ _ _ e)

/-- A step runs the front command on the configuration as it is, or idles. -/
theorem step_kmove {s t : State} (e : step s = .next t) : KMove (ckey s) (ckey t) := by
  unfold step at e
  split at e
  case h_1 => exact kmove_same (congrArg ckey (nx e).symm)
  case h_2 i rest _ => exact exec_kmove (s := { s with pending := rest }) e

end Sys2Proof.Machine

open Sys2Proof Sys2Proof.Machine

/-- Settles O7: what a step does to the configuration's key is one of the table's moves. -/
theorem configurationMovesAsTabled : Obligations.ConfigurationMovesAsTabled := by
  unfold Obligations.ConfigurationMovesAsTabled
  exact fun s s' hsound e => step_kmove e hsound

end

section
/-! The geometry registers of a mailbox (R34, Table 20-6): which writes they take, and that an illegal size does not enable it. From that O56. -/

namespace Sys2Proof.Machine

/-- R34: the base and size registers of an enabled mailbox take no write. -/
theorem mbxRegWrite_geometry_of_enabled {m off : Nat} (data : Word) {s : State} (hoff : off ∈ [0x00, 0x04, 0x08, 0x0C, 0x10])
    (hen : (mbx s m).en = true) : mbxRegWrite m off data s = s := by
  simp only [List.mem_cons, List.not_mem_nil, or_false] at hoff
  obtain rfl | rfl | rfl | rfl | rfl := hoff <;> exact if_pos hen

/-- R34: a write of a base or size register, whose effect is f while EN is 0. -/
theorem exec_write_geometry_of_disabled {a m off : Nat} {data : Word} {f : Mbx → Mbx} {s : State} (ha : a = 0x20000 + 0x40 * m + off)
    (hm : m < 16) (hoff : off ∈ [0x00, 0x04, 0x08, 0x0C, 0x10, 0x14]) (hup : bar0Up s 0x20000 = true) (hen : (mbx s m).en = false)
    (hgeo : mbxRegWrite m off data s = if (mbx s m).en then s else setMbx m f s) :
    exec (.registerWrite a 0xF data) s = .next (setMbx m f s) := by
  rw [ha, write_mbx m off data s hm hoff (up_mbx m off s hup), hgeo, hen]
  rfl

/-- MBX_CTRL with EN 1 and RESET 0 enables the mailbox. -/
theorem mbxRegWrite_control_enable (m : Nat) {data : Word} (s : State) (hen : data.getLsbD 0 = true) (hreset : data.getLsbD 1 = false) :
    mbxRegWrite m 0x14 data s = mbxEnable m s := by
  simp only [mbxRegWrite, hen, hreset, if_true, if_false, Bool.false_eq_true]

/-- A size code of a ring is legal from 6 to 16 (R34). -/
theorem sizeOk_eq_false_iff (l : BitVec 5) : sizeOk l = false ↔ l.toNat < 6 ∨ 16 < l.toNat := by
  simp only [sizeOk, Bool.and_eq_false_iff, decide_eq_false_iff_not, Nat.not_le]

/-- R34, log 54: an illegal size leaves EN as it is and records its cause with event 0x14. -/
theorem mbxEnable_of_bad_size {m : Nat} {s : State} (hup : bar0Up s 0x20000 = true) (hen : (mbx s m).en = false) (hcan : mbxCanEnable s m = true)
    (hsize : sizeOk (mbx s m).reqLog2 = false ∨ sizeOk (mbx s m).rspLog2 = false) :
    mbxEnable m s = raise 0x14 (setMbx m (fun x => { x with err := true, cause := .badGeometry }) s) := by
  rw [mbxEnable, if_neg (by simp [hup, hen, hcan]), if_neg (by simpa [← Bool.and_eq_false_iff] using hsize)]

/-- What that leaves of the mailbox. -/
theorem mbx_mbxEnable_of_bad_size {m : Nat} {s : State} (hup : bar0Up s 0x20000 = true) (hen : (mbx s m).en = false)
    (hcan : mbxCanEnable s m = true) (hsize : sizeOk (mbx s m).reqLog2 = false ∨ sizeOk (mbx s m).rspLog2 = false) :
    mbx (mbxEnable m s) m = { mbx s m with err := true, cause := .badGeometry } := by
  rw [mbxEnable_of_bad_size hup hen hcan hsize, mbx_raise, mbx_set]

end Sys2Proof.Machine

open Sys2Proof Sys2Proof.Machine

/-- Settles O56: the registers of an enabled mailbox, those of a disabled one, and an enable with an illegal size. -/
theorem mailboxGeometryHeld : Obligations.MailboxGeometryHeld := by
  unfold Obligations.MailboxGeometryHeld
  refine ⟨?enabled, ?disabled, ?badSize⟩
  case enabled =>
    intro m off data s hm hoff hup hen
    have hreg : off ∈ [0x00, 0x04, 0x08, 0x0C, 0x10, 0x14] := List.mem_append_left [0x14] hoff
    rw [write_mbx m off data s hm hreg hup, mbxRegWrite_geometry_of_enabled data hoff hen]
  case disabled =>
    intro m data s hm hup hen
    have haddr (off : Nat) : 0x20000 + off + 0x40 * m = 0x20000 + 0x40 * m + off := Nat.add_right_comm _ _ _
    exact ⟨exec_write_geometry_of_disabled (haddr 0) hm (by decide) hup hen rfl,
      exec_write_geometry_of_disabled (haddr 4) hm (by decide) hup hen rfl,
      exec_write_geometry_of_disabled (haddr 8) hm (by decide) hup hen rfl,
      exec_write_geometry_of_disabled (haddr 0xC) hm (by decide) hup hen rfl,
      exec_write_geometry_of_disabled (haddr 0x10) hm (by decide) hup hen rfl⟩
  case badSize =>
    intro m data s hm hup hen hcan hdata hnoReset hsize
    have hbad : sizeOk (mbx s m).reqLog2 = false ∨ sizeOk (mbx s m).rspLog2 = false := by
      rw [sizeOk_eq_false_iff, sizeOk_eq_false_iff, or_assoc]
      exact hsize
    have hmbx := mbx_mbxEnable_of_bad_size hup hen hcan hbad
    refine ⟨mbxEnable m s, ?_, by rw [hmbx, hen], by rw [hmbx], by rw [hmbx]⟩
    rw [Nat.add_right_comm 0x20000 0x14, write_mbx m 0x14 data s hm (by decide) (up_mbx m 0x14 s hup), mbxRegWrite_control_enable m s hdata hnoReset]

end

section
/-! The mailbox registers and the rings (R34 to R38, R43, R501): one rule per operation and case, then O10. -/

namespace Sys2Proof.Machine

/-! ### MBX_CTRL -/

theorem mbxEnable_of_good_sizes {m : Nat} {s : State} (hup : bar0Up s 0x20000 = true) (hen : (mbx s m).en = false)
    (hcan : mbxCanEnable s m = true) (hreq : sizeOk (mbx s m).reqLog2 = true) (hrsp : sizeOk (mbx s m).rspLog2 = true) :
    mbxEnable m s = setMbx m (fun x => { x with en := true, halted := false, reqPI := 0, reqCI := 0, rspPI := 0, rspCI := 0 }) s := by
  rw [mbxEnable, if_neg (by simp [hup, hen, hcan]), if_pos (by simp [hreq, hrsp])]

/-- Log 54: an illegal size raises event 0x14. -/
theorem mbxEnable_pend_of_bad_size {m : Nat} {s : State} (hup : bar0Up s 0x20000 = true) (hen : (mbx s m).en = false)
    (hcan : mbxCanEnable s m = true) (hsize : sizeOk (mbx s m).reqLog2 = false ∨ sizeOk (mbx s m).rspLog2 = false) :
    (mbxEnable m s).evt.pend = s.evt.pend ||| (1#256 <<< 0x14) := by
  rw [mbxEnable_of_bad_size hup hen hcan hsize]
  exact raise_pend 0x14 _

/-- The operations with those of mailbox m marked: their responses go to Slate (R38). -/
def withOrphansOf (m : Nat) (ops : List PendOp) : List PendOp :=
  ops.map (fun o => if o.req.mbx = m then { o with orphan := true } else o)

theorem orphan_of_mem_withOrphansOf {m : Nat} {ops : List PendOp} {o : PendOp} (ho : o ∈ withOrphansOf m ops) (hm : o.req.mbx = m) :
    o.orphan = true := by
  obtain ⟨p, _, rfl⟩ := List.mem_map.1 ho
  by_cases hp : p.req.mbx = m
  · simp [hp]
  · simp [hp] at hm

theorem mbxDisable_of_disabled {m : Nat} {s : State} (hen : (mbx s m).en = false) : mbxDisable m s = s := by
  simp [mbxDisable, hen]

section Enabled
variable {m : Nat} {s : State} (hm : m < 16) (hup : bar0Up s 0x20000 = true) (hen : (mbx s m).en = true)
include hm hup hen

/-- R38: a disable is the end of the mailbox and of what it owes. -/
theorem mbxDisable_of_enabled : mbxDisable m s = divertOwed m (setMbx m (fun x => { x with en := false, halted := false, wrErr := false }) s) := by
  simp [mbxDisable, hm, hup, hen]

theorem mbx_mbxDisable_of_enabled :
    mbx (mbxDisable m s) m = { mbx s m with en := false, halted := false, fetchedOrphan := true, rspWait := [], wrErr := false } := by
  rw [mbxDisable_of_enabled hm hup hen, mbx_divert, mbx_set]

theorem ops_mbxDisable_of_enabled : (mbxDisable m s).ops = withOrphansOf m s.ops := by
  rw [mbxDisable_of_enabled hm hup hen, ops_divert]
  rfl

end Enabled

theorem mbxDisable_en {m : Nat} {s : State} (hm : m < 16) (hup : bar0Up s 0x20000 = true) : (mbx (mbxDisable m s) m).en = false := by
  cases hen : (mbx s m).en with
  | true => rw [mbx_mbxDisable_of_enabled hm hup hen]
  | false => rw [mbxDisable_of_disabled hen, hen]

/-- R38: a reset is a disable that clears MBX_STAT. -/
theorem mbxReset_of_up {m : Nat} {s : State} (hm : m < 16) (hup : bar0Up s 0x20000 = true) :
    mbxReset m s = setMbx m (fun x => { x with err := false, cause := .none }) (mbxDisable m s) := by
  simp [mbxReset, hm, hup]

theorem mbx_mbxReset {m : Nat} {s : State} (hm : m < 16) (hup : bar0Up s 0x20000 = true) :
    mbx (mbxReset m s) m = { mbx (mbxDisable m s) m with err := false, cause := .none } := by
  rw [mbxReset_of_up hm hup, mbx_set]

theorem ops_mbxReset_of_enabled {m : Nat} {s : State} (hm : m < 16) (hup : bar0Up s 0x20000 = true) (hen : (mbx s m).en = true) :
    (mbxReset m s).ops = withOrphansOf m s.ops := by
  rw [mbxReset_of_up hm hup, ← ops_mbxDisable_of_enabled hm hup hen]
  rfl

/-! ### The indices -/

/-- R37: a mailbox in error is halted, and owes nothing any more. -/
def mbxInError (c : MbxCause) (x : Mbx) : Mbx :=
  { x with err := true, halted := true, cause := c, fetchedOrphan := true, rspWait := [], wrErr := false }

theorem mbx_mbxError {m : Nat} (c : MbxCause) {s : State} (hrun : (mbx s m).halted = false) : mbx (mbxError m c s) m = mbxInError c (mbx s m) :=
  (mbx_error m c s hrun).1

theorem ops_mbxError {m : Nat} (c : MbxCause) {s : State} (hrun : (mbx s m).halted = false) : (mbxError m c s).ops = withOrphansOf m s.ops :=
  (mbx_error m c s hrun).2

section Enabled
variable {m : Nat} {v : Word} {s : State} (hm : m < 16) (hup : bar0Up s 0x20000 = true) (hen : (mbx s m).en = true)
include hm hup hen

theorem mbxReqPi_of_in_range (hroom : (v - (mbx s m).reqCI).toNat ≤ 2 ^ (mbx s m).reqLog2.toNat) (hnew : v ≠ (mbx s m).reqPI) :
    mbxReqPi m v s = setMbx m (fun x => { x with reqPI := v }) s := by
  rw [mbxReqPi, if_neg (by simp [hm, hup, hen, hnew]), if_neg (Nat.not_lt.2 hroom)]

/-- R37: more slots published than the ring has. -/
theorem mbxReqPi_of_overrun (hover : 2 ^ (mbx s m).reqLog2.toNat < (v - (mbx s m).reqCI).toNat) (hnew : v ≠ (mbx s m).reqPI) :
    mbxReqPi m v s = mbxError m .overrun s := by
  rw [mbxReqPi, if_neg (by simp [hm, hup, hen, hnew]), if_pos hover]

theorem mbxRspCi_of_in_range (hposted : (v - (mbx s m).rspCI).toNat ≤ ((mbx s m).rspPI - (mbx s m).rspCI).toNat) :
    mbxRspCi m v s = setMbx m (fun x => { x with rspCI := v }) s := by
  have hpass : ¬ (!decide (m < 16) || !bar0Up s 0x20000 || !(mbx s m).en
      || decide (((mbx s m).rspPI - (mbx s m).rspCI).toNat < (v - (mbx s m).rspCI).toNat)) = true := by
    simp only [hm, hup, hen, Nat.not_lt.2 hposted, decide_true, decide_false, Bool.not_true, Bool.or_false, Bool.false_eq_true, not_false_eq_true]
  rw [mbxRspCi, if_neg hpass]

end Enabled

/-- R501: a release of responses that were not posted is ignored. -/
theorem mbxRspCi_of_out_of_range {m : Nat} {v : Word} {s : State}
    (hout : ((mbx s m).rspPI - (mbx s m).rspCI).toNat < (v - (mbx s m).rspCI).toNat) : mbxRspCi m v s = s := by
  rw [mbxRspCi, if_pos]
  simp only [hout, decide_true, Bool.or_true]

/-! ### Bus errors and waiting responses -/

section Running
variable {m : Nat} {s : State} (hm : m < 16) (hen : (mbx s m).en = true) (hrun : (mbx s m).halted = false)
include hm hen hrun

/-- R37: a fetch, or the write of a response that waits. -/
theorem ringBusError_of_fetch_or_waiting {write : Bool} (hw : write = false ∨ (mbx s m).rspWait ≠ []) :
    ringBusError m write s = mbxError m .busError s := by
  rw [ringBusError, if_pos (by simp [hm, hen, hrun]), if_neg]
  obtain rfl | hw := hw <;> simp [*]

/-- R37: the write of the response that the mailbox posts next. -/
theorem ringBusError_of_next_write (hw : (mbx s m).rspWait = []) : ringBusError m true s = setMbx m (fun x => { x with wrErr := true }) s := by
  rw [ringBusError, if_pos (by simp [hm, hen, hrun]), if_pos (by simp [hw])]

end Running

/-- R43: a response takes its slots. -/
theorem mbx_writeRsp (m : Nat) (r : Rsp) (s : State) :
    mbx (writeRsp m r s) m = { mbx s m with rspPI := (mbx s m).rspPI + BitVec.ofNat 32 (rspSlots r) } := by
  simp only [writeRsp, mbx_raise, mbx_set]
  rfl

section Posted
variable {m : Nat} {r : Rsp} {rest : List Rsp} {s : State} (hw : (mbx s m).rspWait = r :: rest) (hpause : s.fw.pause = none)
  (hroom : rspSlots r ≤ rspFree (mbx s m))
include hw hpause hroom

/-- R43, R45: with slots free, the oldest waiting response is written unless its write ends in an error. -/
theorem responsePost_of_room :
    responsePost m s = if (mbx s m).wrErr then mbxError m .busError s else writeRsp m r (setMbx m (fun x => { x with rspWait := rest }) s) := by
  simp only [responsePost, hw]
  rw [if_pos (by simp [hpause, hroom])]

theorem mbx_responsePost_of_written (hok : (mbx s m).wrErr = false) :
    mbx (responsePost m s) m = { mbx s m with rspWait := rest, rspPI := (mbx s m).rspPI + BitVec.ofNat 32 (rspSlots r) } := by
  rw [responsePost_of_room hw hpause hroom, if_neg (by simp [hok])]
  rw [mbx_writeRsp, mbx_set]

theorem responsePost_of_write_error (herr : (mbx s m).wrErr = true) : responsePost m s = mbxError m .busError s := by
  rw [responsePost_of_room hw hpause hroom, if_pos herr]

end Posted

end Sys2Proof.Machine

open Sys2Proof Sys2Proof.Machine

/-- Settles O10, clause by clause, from the rule of each operation. -/
theorem mailboxRegisterEffects : Obligations.MailboxRegisterEffects := by
  unfold Obligations.MailboxRegisterEffects
  refine ⟨?enable, ?badSize, ?disable, ?reset, ?reqPi, ?overrun, ?rspCi, ?rspCiIgnored, ?busError, ?nextWrite, ?post, ?postError⟩
  case enable => exact fun m s hup hen hcan hreq hrsp => congrArg Host.Outcome.next (mbxEnable_of_good_sizes hup hen hcan hreq hrsp)
  case badSize =>
    exact fun m s hup hen hcan hsize =>
      ⟨_, rfl, mbx_mbxEnable_of_bad_size hup hen hcan hsize, mbxEnable_pend_of_bad_size hup hen hcan hsize⟩
  case disable =>
    exact fun m s hm hup hen => ⟨_, rfl, mbx_mbxDisable_of_enabled hm hup hen, ops_mbxDisable_of_enabled hm hup hen⟩
  case reset =>
    intro m s hm hup
    refine ⟨mbxReset m s, rfl, ?_, ?_, ?_, fun hen o ho => ?_⟩
    · rw [mbx_mbxReset hm hup, mbxDisable_en hm hup]
    · rw [mbx_mbxReset hm hup]
    · rw [mbx_mbxReset hm hup]
    · rw [ops_mbxReset_of_enabled hm hup hen] at ho
      exact orphan_of_mem_withOrphansOf ho
  case reqPi => exact fun m v s hm hup hen hroom hnew => congrArg Host.Outcome.next (mbxReqPi_of_in_range hm hup hen hroom hnew)
  case overrun =>
    intro m v s hm hup hen hrun hover hnew
    refine ⟨mbxReqPi m v s, rfl, ?_⟩
    rw [mbxReqPi_of_overrun hm hup hen hover hnew]
    exact mbx_mbxError .overrun hrun
  case rspCi => exact fun m v s hm hup hen hposted => congrArg Host.Outcome.next (mbxRspCi_of_in_range hm hup hen hposted)
  case rspCiIgnored => exact fun m v s hout => congrArg Host.Outcome.next (mbxRspCi_of_out_of_range hout)
  case busError =>
    intro m write s hm hen hrun hw
    refine ⟨ringBusError m write s, rfl, ?_⟩
    rw [ringBusError_of_fetch_or_waiting hm hen hrun hw]
    exact ⟨mbx_mbxError .busError hrun, ops_mbxError .busError hrun⟩
  case nextWrite => exact fun m s hm hen hrun hw => congrArg Host.Outcome.next (ringBusError_of_next_write hm hen hrun hw)
  case post => exact fun m r rest s hw hpause hroom hok => ⟨_, rfl, mbx_responsePost_of_written hw hpause hroom hok⟩
  case postError =>
    intro m r rest s hw hpause hroom herr hrun
    refine ⟨responsePost m s, rfl, ?_⟩
    rw [responsePost_of_write_error hw hpause hroom herr]
    exact mbx_mbxError .busError hrun

end

section
/-! The event block (R62 to R64, R500): one rule per register and case, then O11. -/

namespace Sys2Proof.Machine

/-! ### EVT_PEND, EVT_EN and EVT_FORCE -/

/-- The state with the sources that a W1C write of EVT_PEND word k names no longer pending. -/
def withPendCleared (k : Nat) (data : Word) (s : State) : State :=
  { s with evt.pend := s.evt.pend &&& ~~~(data.setWidth 256 <<< (32 * k)) }

theorem withPendCleared_pend {k i : Nat} (data : Word) (s : State) (hk : k < 8) (hi : i < 256) :
    (withPendCleared k data s).evt.pend.getLsbD i = (s.evt.pend.getLsbD i && !(i / 32 == k && data.getLsbD (i % 32))) := by
  simp only [withPendCleared, BitVec.getLsbD_and, BitVec.getLsbD_not, hi, decide_true, Bool.true_and, word_bit k i data hi hk]

/-- The state with EVT_EN word k set. -/
def withEvtEn (k : Nat) (data : Word) (s : State) : State :=
  { s with evt.en := (s.evt.en &&& ~~~((0xFFFFFFFF#32).setWidth 256 <<< (32 * k))) ||| (data.setWidth 256 <<< (32 * k)) }

/-- R500: the bits of the word written are the data, those of every other word stay. -/
theorem withEvtEn_en {k i : Nat} (data : Word) (s : State) (hk : k < 8) (hi : i < 256) :
    (withEvtEn k data s).evt.en.getLsbD i = if i / 32 = k then data.getLsbD (i % 32) else s.evt.en.getLsbD i := by
  have hones : (0xFFFFFFFF#32).getLsbD (i % 32) = true := by
    have hbit : i % 32 < 32 := Nat.mod_lt _ (by decide)
    rw [show (0xFFFFFFFF#32) = BitVec.allOnes 32 from rfl, BitVec.getLsbD_allOnes, decide_eq_true hbit]
  simp only [withEvtEn, BitVec.getLsbD_or, BitVec.getLsbD_and, BitVec.getLsbD_not, hi, decide_true, Bool.true_and, word_bit k i _ hi hk, hones,
    Bool.and_true]
  by_cases hword : i / 32 = k
  · simp [hword]
  · simp [hword, beq_eq_false_iff_ne.2 hword]

section Up
variable {k : Nat} (data : Word) {s : State} (hk : k < 8) (hup : bar0Up s 0x10000 = true)
include hk hup

/-- R63: the bits written as 1 go, those of the sources that occur meanwhile come back. -/
theorem evtPendClear_of_up (occ : Word) : evtPendClear k data occ s = raiseAll (evtSources k occ) (withPendCleared k data s) :=
  if_pos (by simp [hk, hup])

theorem evtForce_of_up : evtForce k data s = raiseAll (evtSources k data) s :=
  if_pos (by simp [hk, hup])

/-- R63: a source that is pending already sends its message as it is enabled. -/
theorem evtEnWrite_of_up : ∃ due : List Nat, evtEnWrite k data s = due.foldl (fun s n => sendVector n (evtRoute s n) s) (withEvtEn k data s) :=
  ⟨_, if_pos (by simp [hk, hup])⟩

end Up

theorem evtSources_zero (k : Nat) : evtSources k 0 = [] := by
  simp [evtSources]

/-! ### Masks -/

theorem msixUnmask_vector {v : Nat} {s : State} (hv : v < 64) (hhost : (isl s 33).inReset = false) :
    msixUnmask (some v) s = releaseVector v { s with pcie.msix := tupd s.pcie.msix v {} (fun e => { e with mask := false }) } :=
  if_pos (by simp [hv, hhost])

/-- With nothing held in the PBA, releasing any vectors changes nothing. -/
theorem releaseVectors_of_pba_zero : ∀ (vs : List Nat) {s : State}, s.evt.pba = 0 → vs.foldl (fun s v => releaseVector v s) s = s
  | [], _, _ => rfl
  | v :: vs, s, h => by
    rw [List.foldl_cons, release_none v s (by simp [h])]
    exact releaseVectors_of_pba_zero vs h

/-- R63: a message on a vector that nothing masks. -/
theorem sendVector_of_unmasked (n : Nat) {v : Nat} {s : State} (hen : s.pcie.msixEn = true) (hfun : s.pcie.msixFMask = false)
    (hvec : (tget s.pcie.msix v {}).mask = false) :
    sendVector n v s = { s with out := .msix (tget s.pcie.msix v {}).addr (tget s.pcie.msix v {}).data :: s.out } := by
  simp only [sendVector, hen, hfun, hvec, Bool.not_true, Bool.or_false, Bool.false_eq_true, if_false]

/-- R500: the vectors on which held messages leave, each once. -/
def distinctRoutes (es : List (Nat × Nat)) : List (Nat × Nat) :=
  es.foldl (fun acc e => if acc.any (fun a => a.1 == e.1) then acc else acc ++ [e]) []

/-- Held messages that are all routed to v leave as the message of the first of them. -/
theorem distinctRoutes_of_one_vector {v : Nat} {e : Nat × Nat} {es : List (Nat × Nat)} (h : ∀ x ∈ e :: es, x.1 = v) :
    distinctRoutes (e :: es) = [e] := by
  have hrest : ∀ x ∈ es, x.1 = v := fun x hx => h x (List.mem_cons_of_mem e hx)
  exact held_routes v es [e] hrest (by simp [h e List.mem_cons_self])

/-- R63: what a vector held while it was masked leaves as one message, when its sources are routed to it still. -/
theorem releaseVector_of_held {v : Nat} {s : State} (hen : s.pcie.msixEn = true) (hfun : s.pcie.msixFMask = false)
    (hvec : (tget s.pcie.msix v {}).mask = false) (hpba : s.evt.pba.getLsbD v = true)
    (hroute : ∀ h ∈ s.evt.held, h.2 = v → evtRoute s h.1 = v) (hheld : s.evt.held.any (fun h => h.2 == v) = true) :
    releaseVector v s = { s with
      evt.pba := s.evt.pba &&& ~~~(1#64 <<< v), evt.held := s.evt.held.filter (fun h => h.2 != v)
      out := .msix (tget s.pcie.msix v {}).addr (tget s.pcie.msix v {}).data :: s.out } := by
  have hmine : ∀ h ∈ s.evt.held.filter (fun h => h.2 == v), evtRoute s h.1 = v := by
    intro h hh
    obtain ⟨hmem, hv⟩ := List.mem_filter.1 hh
    exact hroute h hmem (eq_of_beq hv)
  obtain ⟨h, rest, hcons⟩ : ∃ h rest, s.evt.held.filter (fun h => h.2 == v) = h :: rest := by
    obtain ⟨h, hmem, hv⟩ := List.any_eq_true.1 hheld
    exact List.exists_cons_of_ne_nil (List.ne_nil_of_mem (List.mem_filter.2 ⟨hmem, hv⟩))
  rw [hcons] at hmine
  have hroutes : ∀ x ∈ (h :: rest).map (fun h => (evtRoute s h.1, h.1)), x.1 = v := List.forall_mem_map.2 hmine
  have hone : distinctRoutes ((h :: rest).map (fun h => (evtRoute s h.1, h.1))) = [(evtRoute s h.1, h.1)] :=
    distinctRoutes_of_one_vector hroutes
  have hopen : (s.pcie.msixEn && !s.pcie.msixFMask && !(tget s.pcie.msix v {}).mask && s.evt.pba.getLsbD v) = true := by
    rw [hen, hfun, hvec, hpba]
    rfl
  rw [releaseVector, if_pos hopen]
  change (distinctRoutes ((s.evt.held.filter (fun h => h.2 == v)).map (fun h => (evtRoute s h.1, h.1)))).foldl _ _ = _
  rw [hcons, hone, hmine h List.mem_cons_self]
  exact sendVector_of_unmasked h.1 hen hfun hvec

/-! ### Occurrences -/

theorem raise_of_pending {n : Nat} {s : State} (hpend : s.evt.pend.getLsbD n = true) : raise n s = s := by
  simp only [raise, hpend, if_true, ite_self]

/-- R63: the pending bit of an enabled source rises with a message. -/
theorem raise_of_enabled {n : Nat} {s : State} (hdef : sourceDefined n = true) (hpend : s.evt.pend.getLsbD n = false)
    (hen : s.evt.en.getLsbD n = true) :
    raise n s = sendVector n (evtRoute s n) { s with evt.pend := s.evt.pend ||| (1#256 <<< n) } := by
  rw [raise, if_neg (by simp [hdef]), if_neg (by simp only [hpend, Bool.false_eq_true, not_false_eq_true])]
  exact if_pos hen

end Sys2Proof.Machine

open Sys2Proof Sys2Proof.Machine

/-- Settles O11, clause by clause, from the rule of each register. -/
theorem eventBlockEffects : Obligations.EventBlockEffects := by
  unfold Obligations.EventBlockEffects
  refine ⟨?clear, ?clearOccurring, ?enable, ?force, ?unmaskVector, ?unmaskFunction, ?unmaskHeld, ?message, ?alreadyPending⟩
  case clear =>
    intro k data s hk hup
    refine congrArg Host.Outcome.next ?_
    rw [evtPendClear_of_up data hk hup, evtSources_zero]
    rfl
  case clearOccurring =>
    intro k data occ s hk hup
    refine ⟨evtPendClear k data occ s, rfl, ?_, fun i hi => ?_⟩
    · rw [evtPendClear_of_up data hk hup]
      exact raiseAll_frame _ _
    · rw [evtPendClear_of_up data hk hup, raiseAll_pend i hi, sources_mem, withPendCleared_pend data s hk hi, Bool.and_assoc]
  case enable =>
    intro k data s hk hup
    obtain ⟨due, hdue⟩ := evtEnWrite_of_up data hk hup
    obtain ⟨hpend, hen⟩ := sends_keep due (withEvtEn k data s)
    refine ⟨evtEnWrite k data s, rfl, ?_, ?_, fun i hi => ?_⟩
    · rw [hdue]
      exact sends_frame due _
    · rw [hdue, hpend]
      rfl
    · rw [hdue, hen, withEvtEn_en data s hk hi]
  case force =>
    intro k data s hk hup
    refine ⟨evtForce k data s, rfl, ?_, fun i hi => ?_⟩
    · rw [evtForce_of_up data hk hup]
      exact raiseAll_frame _ _
    · rw [evtForce_of_up data hk hup, raiseAll_pend i hi, sources_mem, Bool.and_assoc]
  case unmaskVector =>
    intro v s hv hhost hpba
    exact congrArg Host.Outcome.next ((msixUnmask_vector hv hhost).trans (release_none v _ hpba))
  case unmaskFunction =>
    exact fun s hpba => congrArg Host.Outcome.next (releaseVectors_of_pba_zero (List.range 64) (s := { s with pcie.msixFMask := false }) hpba)
  case unmaskHeld =>
    intro v s hv hhost hpba hen hfun hroute hheld
    have hrelease := releaseVector_of_held
      (s := { s with pcie.msix := tupd s.pcie.msix v {} (fun e => { e with mask := false }) }) hen hfun (by simp) hpba hroute hheld
    refine ⟨_, congrArg Host.Outcome.next ((msixUnmask_vector hv hhost).trans hrelease), rfl, ?_⟩
    simp
  case message =>
    intro s hpend hen hmsix hfun hvec
    refine congrArg Host.Outcome.next ((raise_of_enabled rfl hpend hen).trans ?_)
    exact sendVector_of_unmasked 0x16 hmsix hfun hvec
  case alreadyPending => exact fun s hpend => congrArg Host.Outcome.next (raise_of_pending hpend)

end

section
/-! From the request ring to the response (R36, R41 to R46, R49): one rule per way a fetch, a request or a wait ends, then O12. -/

namespace Sys2Proof.Machine

/-! ### Fetches -/

/-- R42, R43, R45: what the mailbox of the turn satisfies. -/
theorem fetchable_iff (s : State) (m : Nat) :
    fetchable s m = true ↔ m < 16 ∧ serves s m = true ∧ (mbx s m).en = true ∧ (mbx s m).halted = false ∧ (mbx s m).fetched = none ∧
      (mbx s m).rspWait = [] ∧ pendCount s m < 8 ∧ (mbx s m).reqPI ≠ (mbx s m).reqCI := by
  simp only [fetchable, Bool.and_eq_true, decide_eq_true_eq, Bool.not_eq_true', Option.isNone_iff_eq_none, List.isEmpty_iff, bne_iff_ne, and_assoc]

/-- The request that the ring holds from MBX_REQ_CI on (Table 03-2). -/
def fetchedReq (m : Nat) (bytes : List Byte) : Req :=
  { mbx := m, tag := BitVec.ofNat 32 (rd bytes 4 4), payload := slice bytes 8 (rd bytes 2 2) }

/-- The state once the slots of the request are consumed and the turn has passed on. -/
def slotsConsumed (m : Nat) (bytes : List Byte) (s : State) : State :=
  setMbx m (fun x => { x with reqCI := x.reqCI + BitVec.ofNat 32 (reqSlots (rd bytes 2 2)) })
    { s with rrNext := (m + 1) % 16, fetchCtr := s.fetchCtr + 1 }

theorem requestFetch_out_of_turn {m : Nat} (bytes : List Byte) {s : State} (hturn : turn s ≠ some m) : requestFetch m bytes s = s := by
  rw [requestFetch, if_pos (bne_iff_ne.2 hturn)]

section Turn
variable {m : Nat} {bytes : List Byte} {s : State} (hturn : turn s = some m)
include hturn

/-- R36: a request larger than the ring. -/
theorem requestFetch_of_oversize (hbig : 2 ^ (mbx s m).reqLog2.toNat < reqSlots (rd bytes 2 2)) :
    requestFetch m bytes s = mbxError m .oversize s := by
  rw [requestFetch, if_neg (by simp [hturn]), if_pos hbig]

variable (hring : reqSlots (rd bytes 2 2) ≤ 2 ^ (mbx s m).reqLog2.toNat)
include hring

/-- R36: a request that is not wholly published waits. -/
theorem requestFetch_of_unpublished (hshort : ((mbx s m).reqPI - (mbx s m).reqCI).toNat < reqSlots (rd bytes 2 2)) :
    requestFetch m bytes s = { s with rrNext := (m + 1) % 16 } := by
  rw [requestFetch, if_neg (by simp [hturn]), if_neg (Nat.not_lt.2 hring), if_pos hshort]

/-- R42: a published request is held for its own command, or answered where its opcode is none. -/
theorem requestFetch_of_published (hpub : reqSlots (rd bytes 2 2) ≤ ((mbx s m).reqPI - (mbx s m).reqCI).toNat) :
    requestFetch m bytes s =
      if opcodeDefined (rd bytes 0 2) then
        setMbx m (fun x => { x with fetched := some (rd bytes 0 2, fetchedReq m bytes), fetchedOrphan := false, fetchNo := s.fetchCtr })
          (slotsConsumed m bytes s)
      else answer (rd bytes 0 2) (fetchedReq m bytes) .badOpcode [] (slotsConsumed m bytes s) := by
  rw [requestFetch, if_neg (by simp [hturn]), if_neg (Nat.not_lt.2 hring), if_neg (Nat.not_lt.2 hpub)]
  rfl

end Turn

/-! ### The immediate response -/

theorem mbx_taken (r : Req) (s : State) : mbx (taken r s) r.mbx = { mbx s r.mbx with fetched := none, fetchedOrphan := false } :=
  mbx_set s r.mbx _

theorem pause_of_serves {s : State} {m : Nat} (h : serves s m = true) : s.fw.pause = none :=
  Option.isNone_iff_eq_none.1 (Bool.and_eq_true_iff.1 h).1

theorem serves_of_served {v : Service} {r : Req} {s : State} (h : Served v r s = true) : serves s r.mbx = true := by
  simp only [Served, Bool.and_eq_true, and_assoc] at h
  exact h.1

/-- R43: with slots free and nothing waiting, a response goes to the ring. -/
theorem post_of_room {m : Nat} {r : Rsp} {s : State} (hpause : s.fw.pause = none) (hen : (mbx s m).en = true) (hrun : (mbx s m).halted = false)
    (hwait : (mbx s m).rspWait = []) (hok : (mbx s m).wrErr = false) (hring : rspSlots r ≤ 2 ^ (mbx s m).rspLog2.toNat)
    (hroom : rspSlots r ≤ rspFree (mbx s m)) : post m false r s = writeRsp m r s := by
  rw [post, if_neg (by simp [hen, hrun]), if_neg (by simp [hok]), if_neg (Nat.not_lt.2 hring),
    if_neg (by simp [hpause, hwait, hroom])]

/-- A free slot is one of the ring's. -/
theorem le_ring_of_le_rspFree {n : Nat} {x : Mbx} (h : n ≤ rspFree x) : n ≤ 2 ^ x.rspLog2.toNat :=
  h.trans (Nat.sub_le _ _)

/-- The address of the slot at MBX_RSP_PI (R36). -/
def nextSlot (x : Mbx) : BitVec 64 := BitVec.ofNat 64 (rspBase x + 64 * (x.rspPI.toNat % 2 ^ x.rspLog2.toNat))

theorem nextSlot_taken (r : Req) (s : State) : nextSlot (mbx (taken r s) r.mbx) = nextSlot (mbx s r.mbx) := by
  rw [mbx_taken]
  rfl

theorem taken_with_out (r : Req) (s : State) (o : List Output) : { taken r s with out := o } = taken r { s with out := o } := rfl

/-- R43: a response of one slot is one write at MBX_RSP_PI, which advances by 1, and the mailbox's event. -/
theorem writeRsp_of_one_slot {m : Nat} {r : Rsp} {s : State} (hslot : rspSlots r = 1) :
    writeRsp m r s = raise m (setMbx m (fun x => { x with rspPI := x.rspPI + 1 })
      { s with out := .hostWrite (nextSlot (mbx s m)) ((rspBytes r).take 64) :: s.out }) := by
  simp only [writeRsp, hslot]
  rfl

theorem rspSlots_of_no_payload (opcode : Nat) (r : Req) (st : Status) : rspSlots (mkRsp opcode r st []) = 1 := by
  simp [rspSlots, mkRsp]

/-- Table 03-3: the response of a NOP, TAG first. -/
def nopBytes (r : Req) : List Byte := le 4 r.tag.toNat ++ [0x00, 0x01, 0x00, 0x01, 0, 0, 0, 0, 0, 0, 0, 0]

theorem rspBytes_of_nop (r : Req) : (rspBytes (mkRsp 0x0100 r .ok [])).take 64 = nopBytes r := by
  simp [rspBytes, nopBytes, mkRsp, statusCode, b2n, le]

/-- R49: NOP answers OK in its mailbox's ring. -/
theorem serve_nop {r : Req} {s : State} (h : Served nopService r s = true) : serve nopService r s = answer 0x0100 r .ok [] (taken r s) :=
  serve_done nopService r s _ _ _ h rfl

/-- R43, R49: NOP answers OK in one slot of its mailbox's ring. -/
theorem serve_nop_of_room {r : Req} {s : State} (h : Served nopService r s = true) (hen : (mbx s r.mbx).en = true)
    (hrun : (mbx s r.mbx).halted = false) (hwait : (mbx s r.mbx).rspWait = []) (hok : (mbx s r.mbx).wrErr = false)
    (hroom : 1 ≤ rspFree (mbx s r.mbx)) :
    serve nopService r s = raise r.mbx
      (setMbx r.mbx (fun x => { x with rspPI := x.rspPI + 1 })
        (taken r { s with out := .hostWrite (nextSlot (mbx s r.mbx)) (nopBytes r) :: s.out })) := by
  have hmbx := mbx_taken r s
  have hslot := rspSlots_of_no_payload 0x0100 r .ok
  have hfree : rspSlots (mkRsp 0x0100 r .ok []) ≤ rspFree (mbx (taken r s) r.mbx) := by
    rw [hslot, hmbx]
    exact hroom
  have hpause : (taken r s).fw.pause = none := by
    rw [taken_fw]
    exact pause_of_serves (serves_of_served h)
  have hpost : post r.mbx false (mkRsp 0x0100 r .ok []) (taken r s) = writeRsp r.mbx (mkRsp 0x0100 r .ok []) (taken r s) :=
    post_of_room hpause (by rw [hmbx, hen]) (by rw [hmbx, hrun]) (by rw [hmbx, hwait]) (by rw [hmbx, hok])
      (le_ring_of_le_rspFree hfree) hfree
  rw [serve_nop h, answer, immediate, hpost, writeRsp_of_one_slot hslot, nextSlot_taken, rspBytes_of_nop, taken_with_out, taken_out]

/-! ### Requests that are refused or wait, and the end of a wait -/

/-- Log 1: a request that its mailbox holds, first of all, is served. -/
theorem serve_of_held {v : Service} {r : Req} {s : State} (hserves : serves s r.mbx = true) (htakes : takes r.mbx v.opcode r s = true)
    (horphan : (mbx s r.mbx).fetchedOrphan = false) : serve v r s = serveHeld v r false (taken r s) := by
  have hserve : serve v r s = serveHeld v r (mbx s r.mbx).fetchedOrphan (taken r s) := if_pos (by rw [hserves, htakes]; rfl)
  rw [hserve, horphan]

/-- R46, check 3 of Table 03-6. -/
theorem serveHeld_of_bad_length {v : Service} {r : Req} {s : State} (hpart : ¬ v.opcode / 256 = 3) (hlen : v.lenOk r.payload = false) :
    serveHeld v r false s = answer v.opcode r .badLength [] s := by
  rw [serveHeld, if_neg (by simp [hpart]), if_pos (by simp [hlen])]
  rfl

/-- R44, R436: an opcode that waits for the end of bring-up. -/
theorem serveHeld_of_bringing_up {v : Service} {r : Req} {s : State} (hpart : ¬ v.opcode / 256 = 3) (hlen : v.lenOk r.payload = true)
    (hready : v.ready = true) (hup : bringingUp s = true) : serveHeld v r false s = startWait v r false s := by
  rw [serveHeld, if_neg (by simp [hpart]), if_neg (by simp [hlen]), if_pos (by simp [hready, hup])]

/-- R44: nothing holds the request back any more, so it runs and ends. -/
theorem requestWaitEnd_of_done {id : Nat} {o : PendOp} {v : Service} {s s1 : State} {st : Status} {p : List Byte} (hop : findOp s id = some o)
    (hservice : serviceOf o.opcode = some v) (hkind : o.kind = .waiting) (hpause : s.fw.pause = none) (hserver : server s ≠ .nobody)
    (hfree : heldBack v o s = false) (hacc : accepted v s = true) (hrun : v.run o.id o.req s = .done s1 st p) :
    requestWaitEnd id s = startPause (finishOp o.id st p s1) := by
  have hrest : serveWaiting v o s = finishOp o.id st p s1 := by simp [serveWaiting, hacc, hrun]
  simp [requestWaitEnd, hop, hservice, hkind, hpause, hserver, hfree, hrest]

end Sys2Proof.Machine

open Sys2Proof Sys2Proof.Machine

/-- Settles O12, clause by clause, from the rule of each way. -/
theorem requestsFetchedAndAnswered : Obligations.RequestsFetchedAndAnswered := by
  unfold Obligations.RequestsFetchedAndAnswered
  refine ⟨?fetched, ?badOpcode, ?oversize, ?unpublished, ?outOfTurn, ?turn, ?nop, ?badLength, ?pending, ?waitEnd⟩
  case fetched =>
    intro m bytes s hturn hring hpub hdef
    refine congrArg Host.Outcome.next ((requestFetch_of_published hturn hring hpub).trans ?_)
    rw [if_pos hdef, slotsConsumed, setMbx_setMbx]
    rfl
  case badOpcode =>
    intro m bytes s hturn hring hpub hundef
    refine congrArg Host.Outcome.next ((requestFetch_of_published hturn hring hpub).trans ?_)
    rw [if_neg (by simp [hundef])]
    rfl
  case oversize =>
    intro m bytes s hturn hbig
    obtain ⟨_, _, _, hrun, _⟩ := (fetchable_iff s m).1 (turn_fetchable s m hturn)
    refine ⟨requestFetch m bytes s, rfl, ?_⟩
    rw [requestFetch_of_oversize hturn hbig]
    exact mbx_mbxError .oversize hrun
  case unpublished =>
    exact fun m bytes s hturn hring hshort => congrArg Host.Outcome.next (requestFetch_of_unpublished hturn hring hshort)
  case outOfTurn => exact fun m bytes s hturn => congrArg Host.Outcome.next (requestFetch_out_of_turn bytes hturn)
  case turn => exact fun m s hturn => (fetchable_iff s m).1 (turn_fetchable s m hturn)
  case nop =>
    intro r s h hen hrun hwait hok hroom
    refine congrArg Host.Outcome.next ((serve_nop_of_room h hen hrun hwait hok hroom).trans (congrArg (raise r.mbx) ?_))
    exact setMbx_setMbx r.mbx _ _ _
  case badLength =>
    intro r s hserves htakes horphan hpayload
    refine congrArg Host.Outcome.next ((serve_of_held (v := capsGetService) hserves htakes horphan).trans ?_)
    exact serveHeld_of_bad_length (by decide) (by simpa [capsGetService, payloadFree] using hpayload)
  case pending =>
    intro r s hserves htakes horphan hpayload hup
    refine congrArg Host.Outcome.next ((serve_of_held (v := capsGetService) hserves htakes horphan).trans ?_)
    exact serveHeld_of_bringing_up (by decide) (by simp [capsGetService, payloadFree, hpayload]) rfl hup
  case waitEnd =>
    exact fun id o v s s1 st p hop hservice hkind hpause hserver hfree hacc hrun =>
      congrArg Host.Outcome.next (requestWaitEnd_of_done hop hservice hkind hpause hserver hfree hacc hrun)

end

section
/-! The configuration opcodes, the commit instant and the firmware takeover (R50 to R59, R463): one rule per case, then O13. -/

namespace Sys2Proof.Machine

/-- A request that comes to run and is answered at once, as its command's outcome. -/
theorem next_serve_done {v : Service} {r : Req} {s s1 : State} {st : Status} {p : List Byte} (h : Served v r s = true)
    (hrun : v.run (taken r s).nextOp r (taken r s) = .done s1 st p) :
    (Host.Outcome.next (serve v r s) : Host.Outcome State Fault Refusal) = .next (answer v.opcode r st p s1) :=
  congrArg Host.Outcome.next (serve_done v r s s1 st p h hrun)

/-! ### CONFIG_BEGIN and CONFIG_ABORT -/

theorem configBegin_of_unconfigured {s : State} (h : s.cfg.state = .unconfigured) :
    configBegin s = replyOk (setCfgState .configuring { s with cfg.window := some {} }) := by
  simp only [configBegin, h]

theorem configBegin_of_committed {s : State} (h : s.cfg.state = .committed) :
    configBegin s = replyOk (setCfgState .reconfiguring { s with cfg.window := some (copyWindow s) }) := by
  simp only [configBegin, h]

/-- R57: a window is open already. -/
theorem configBegin_of_window_open {s : State} (hun : s.cfg.state ≠ .unconfigured) (hcom : s.cfg.state ≠ .committed) :
    configBegin s = refuse s .badState := by
  unfold configBegin
  split
  case h_1 h => exact absurd h hun
  case h_2 h => exact absurd h hcom
  case h_3 => rfl

theorem configAbort_of_configuring {s : State} (h : s.cfg.state = .configuring) :
    configAbort s = replyOk (setCfgState .unconfigured { s with cfg.window := none }) := by
  simp only [configAbort, h]

theorem configAbort_of_reconfiguring {s : State} (h : s.cfg.state = .reconfiguring) :
    configAbort s = replyOk (setCfgState .committed { s with cfg.window := none }) := by
  simp only [configAbort, h]

/-! ### CONFIG_COMMIT -/

/-- R44, R57: the state that CONFIG_COMMIT enters, which remembers the one it came from. -/
def enterCommit (s : State) : State := setCfgState .committing { s with cfg.prior := s.cfg.state }

theorem enterCommit_cfg (s : State) : (enterCommit s).cfg = { s.cfg with prior := s.cfg.state, state := .committing } :=
  setCfg_cfg _ _

/-- A window to commit is open (Table 03-10). -/
def canCommit (s : State) : Prop := s.cfg.state = .configuring ∨ s.cfg.state = .reconfiguring

/-- Log 53: the state is left at once, and during bring-up the check waits. -/
theorem configCommit_of_canCommit (id : Nat) {w : Window} {s : State} (h : canCommit s) (hw : s.cfg.window = some w) :
    configCommit id s =
      if bringingUp s then .wait { enterCommit s with cfg.deferred := some id } else commitCheck id w (enterCommit s) := by
  have hjudged : ¬ (decide (s.cfg.state = .committing) && s.cfg.deferred == some id) = true := by
    obtain h | h := h <;> simp [h]
  have hopen : ¬ (!(s.cfg.state == .configuring || s.cfg.state == .reconfiguring)) = true := by
    obtain h | h := h <;> simp [h]
  unfold configCommit
  split
  case h_1 hnone => exact nomatch hnone.symm.trans hw
  case h_2 w' hw' =>
    obtain rfl : w' = w := Option.some.inj (hw'.symm.trans hw)
    rw [if_neg hjudged, if_neg hopen]
    rfl

/-- R57: no window to commit, and no check that waits. -/
theorem configCommit_of_not_canCommit (id : Nat) {s : State} (hcon : s.cfg.state ≠ .configuring) (hrec : s.cfg.state ≠ .reconfiguring)
    (hdef : s.cfg.deferred = none) : configCommit id s = refuse s .badState := by
  unfold configCommit
  split
  · rfl
  · rw [if_neg (by simp [hdef]), if_pos (by simp [hcon, hrec])]

/-- R58: the check fails on some parameters, of which the lowest is named, and the state before it comes back. -/
theorem commitCheck_of_fails (id : Nat) {k : Nat} {w : Window} {s : State} (h : lowest (commitFails s w) = some k) :
    commitCheck id w s = .twice (setCfgState s.cfg.prior s) .badParam (le 2 k) := by
  simp only [commitCheck, h]

/-- What an accepted CONFIG_COMMIT leaves: the ports that it enables are to be trained (17 R447). -/
def commitAccepted (id : Nat) (w : Window) (s : State) : State :=
  { (enabledBy s w).foldl (fun s p => setRf p (fun x => { x with training := true, trainRun := false }) s) s with
    cfg.accepted := some (id, s.now), cfg.trained := [] }

theorem trainPorts_cfg (ps : List Nat) (s : State) :
    (ps.foldl (fun s p => setRf p (fun x => { x with training := true, trainRun := false }) s) s).cfg = s.cfg :=
  foldl_keeps State.cfg _ (fun s p => setRf_keeps State.cfg (by intros; rfl) _ _ _) _ _

theorem commitAccepted_cfg (id : Nat) (w : Window) (s : State) :
    (commitAccepted id w s).cfg = { s.cfg with accepted := some (id, s.now), trained := [] } :=
  congrArg (fun c : Cfg => { c with accepted := some (id, s.now), trained := [] }) (trainPorts_cfg (enabledBy s w) s)

theorem commitAccepted_training {id p : Nat} {w : Window} {s : State} (hp : p ∈ enabledBy s w) :
    (rfp (commitAccepted id w s) p).training = true :=
  training_all (enabledBy s w) s p (.inl hp)

section Commit
variable {r : Req} {w : Window} {s : State} (h : Served configCommitService r s = true) (hstate : canCommit s) (hw : s.cfg.window = some w)
include h hstate hw

/-- R57, R59: a check that passes. -/
theorem serve_configCommit_of_passes (hup : bringingUp s = false) (hpass : commitFails s w = []) :
    serve configCommitService r s = begun 0x0102 r [.config] (commitAccepted s.nextOp w (enterCommit (taken r s))) := by
  refine serve_pend configCommitService r s _ _ h ?_
  have hcheck : commitFails (enterCommit (taken r s)) w = [] := (commitFails_enter r s w).trans hpass
  exact (configCommit_of_canCommit s.nextOp (s := taken r s) hstate hw).trans ((if_neg (ne_true_of_eq_false hup)).trans (commitCheck_ok _ w _ hcheck))

/-- R58: a check that fails. -/
theorem serve_configCommit_of_fails {k : Nat} (hup : bringingUp s = false) (hfail : lowest (commitFails s w) = some k) :
    serve configCommitService r s =
      answer 0x0102 r .badParam (le 2 k) (answer 0x0102 r .pending [] (setCfgState s.cfg.state (enterCommit (taken r s)))) := by
  refine serve_twice configCommitService r s _ _ _ h ?_
  have hcheck : lowest (commitFails (enterCommit (taken r s)) w) = some k := (congrArg lowest (commitFails_enter r s w)).trans hfail
  have hprior : (enterCommit (taken r s)).cfg.prior = s.cfg.state := congrArg Cfg.prior (enterCommit_cfg (taken r s))
  refine (configCommit_of_canCommit s.nextOp (s := taken r s) hstate hw).trans ((if_neg (ne_true_of_eq_false hup)).trans ?_)
  rw [commitCheck_of_fails s.nextOp hcheck, hprior]

/-- Log 53: during bring-up the check waits. -/
theorem serve_configCommit_of_bringing_up (hup : bringingUp s = true) :
    serve configCommitService r s = startWait configCommitService r false { enterCommit (taken r s) with cfg.deferred := some s.nextOp } :=
  serve_wait configCommitService r s _ h ((configCommit_of_canCommit s.nextOp (s := taken r s) hstate hw).trans (if_pos hup))

end Commit

/-! ### PARAM_BLOCK_READ -/

/-- The IDs that a read of n parameters from first on lists (R526). -/
def listedIds (first n : Nat) : List Nat := ((List.range n).map (fun i => first + i)).filter (fun id => (paramDef id).isSome)

/-- The header of a block of n entries of subsystem sub (R53). -/
def blockHeader (s : State) (sub n : Nat) : List Byte := le 2 (curFormat s sub) ++ le 1 sub ++ le 1 0 ++ le 2 n ++ le 2 0

theorem blockHeader_length (s : State) (sub n : Nat) : (blockHeader s sub n).length = 8 := by
  simp [blockHeader, le]

/-- The entries of a read of active values. -/
def activeEntries (s : State) (ids : List Nat) : List Byte :=
  (ids.map (readEntry (fun id => if isLive id then pval s id else valueIn s false id))).flatten

/-- A read of active values that stays in one subsystem answers a block. -/
theorem paramBlockRead_of_active {r : Req} {s : State} (hlo : 0x1000 ≤ rd r.payload 0 2) (hhi : rd r.payload 0 2 < 0xD000)
    (hone : rd r.payload 0 2 + rd r.payload 2 1 ≤ 4096 * (rd r.payload 0 2 / 4096 + 1)) (hsrc : rd r.payload 3 1 = 0) :
    paramBlockRead r s =
      replyOk s (blockHeader s (rd r.payload 0 2 / 4096) (listedIds (rd r.payload 0 2) (rd r.payload 2 1)).length
        ++ activeEntries s (listedIds (rd r.payload 0 2) (rd r.payload 2 1))) := by
  have hsub : rd r.payload 0 2 / 4096 ≠ 0 ∧ rd r.payload 0 2 / 4096 ≤ 0xC := by omega
  unfold paramBlockRead
  generalize rd r.payload 0 2 = first at *
  generalize rd r.payload 2 1 = n at *
  dsimp only
  rw [hsrc, if_neg (by simp only [Bool.or_eq_true, decide_eq_true_eq]; omega), if_neg (by simp)]
  rfl

/-! ### The commit instant -/

theorem chooseTc_bounds (at_ : Nat) (s : State) : at_ + tMs 10 ≤ (chooseTc at_ s).1 ∧ (chooseTc at_ s).1 ≤ at_ + tMs 100 := by
  have hwindow : at_ + tMs 10 ≤ at_ + tMs 100 := Nat.add_le_add_left (by decide) at_
  simp only [chooseTc]
  generalize at_ + tMs 10 = first, at_ + tMs 100 = last at hwindow
  have hmod := Nat.mod_lt (fresh s).1 (Nat.succ_pos (last - min (max first s.now) last))
  simp only [Nat.succ_eq_add_one] at hmod
  omega

theorem firstCommit_cfg (tc : Nat) (s : State) : (firstCommit tc s).cfg = { s.cfg with everCommitted := true } := by
  unfold firstCommit
  split
  case isTrue h => rw [← h]
  case isFalse => rfl

theorem switchAll_cfg (tc : Nat) (w : Window) (s : State) :
    (switchAll tc w s).cfg = { s.cfg with
      vals := mergeVals s.cfg.vals w, profiles := w.profiles, lastTc := tc, old := s.cfg.vals, oldProfiles := s.cfg.profiles
      everCommitted := true } := by
  rw [switchAll, follow_cfg, firstCommit_cfg]

/-- 18 R462: a microcode switch of the same second leaves the configuration alone. -/
theorem microcodeSwitch_if_due_cfg (due : Bool) (s : State) : (if due = true then microcodeSwitch s else s).cfg = s.cfg := by
  cases due
  · rfl
  · exact microcodeSwitch_keeps State.cfg (by intros; rfl) s

theorem commitFault_cfg (id : Nat) (s : State) :
    (commitFault id s).cfg = { s.cfg with state := s.cfg.prior, accepted := none, trained := [] } := by
  have hports : ∀ l : List (Nat × Bool), ∀ u : State,
      (l.foldl (fun s e => setRf e.1 (setRfState (if e.2 then .disabled else .absent)) s) u).cfg = u.cfg :=
    fun l u => foldl_keeps State.cfg _ (fun s e => setRf_keeps State.cfg (by intros; rfl) _ _ _) l u
  simp only [commitFault]
  rw [finishOp_keeps State.cfg (by intros; rfl), recordFault_keeps State.cfg (by intros; rfl), setCfg_cfg]
  have hcaps : ∀ u v : State, (noteCaps u v).cfg = v.cfg := noteCaps_keeps State.cfg (by intros; rfl)
  simp only [hcaps, hports]

section Instant
variable {id at_ : Nat} {w : Window} {s : State} (hacc : s.cfg.accepted = some (id, at_)) (hw : s.cfg.window = some w)
  (hstate : s.cfg.state = .committing) (hup : (isl s islControl).inReset = false)
include hacc hw hstate hup

/-- R59: a fault before T_c. -/
theorem commitInstant_of_fault : commitInstant true s = commitFault id s := by
  simp [commitInstant, hacc, hw, hstate, hup]

/-- R59: at T_c the values of the window become the active ones. -/
theorem commitInstant_cfg (htrained : ∀ p ∈ enabledBy s w, (rfp s p).training = false) :
    (commitInstant false s).cfg = { s.cfg with
      state := .committed, window := none, accepted := none, trained := [], vals := mergeVals s.cfg.vals w, profiles := w.profiles
      lastTc := (chooseTc at_ s).1, old := s.cfg.vals, oldProfiles := s.cfg.profiles, everCommitted := true } := by
  have hidle : ¬ (enabledBy s w).any (fun p => (rfp s p).training) = true := by
    simpa using htrained
  simp only [commitInstant, hacc, hw]
  rw [if_neg (by simp [hstate, hup]), if_neg (by simp), if_neg hidle, finishOp_keeps State.cfg (by intros; rfl), setCfg_cfg]
  simp only [switchAll_cfg]
  rw [advTo_keeps State.cfg (by intros; rfl), microcodeSwitch_if_due_cfg, chooseTc_keeps State.cfg (by intros; rfl)]

end Instant

/-! ### The firmware takeover -/

/-- 18 R463: within the pause, an installed firmware with no trial that failed. -/
theorem firmwareTakeover_fw {id since : Nat} {m : Manifest} {s : State} (hpause : s.fw.pause = some (id, since))
    (hactive : s.fwNv.active = some m) (htrial : s.fwNv.trial = none) (hin : s.mono ≤ since + tMs 250)
    (hup : (isl s islControl).inReset = false) :
    (firmwareTakeover s).fw = { s.fw with running := some m, pfmt := m.pfmt, pause := none, upd := .trial } := by
  simp only [firmwareTakeover, hpause, htrial, hactive]
  rw [if_neg (by simp [hup, hin]), jnlRefresh_keeps State.fw (by intros; rfl), defaultFormats_keeps State.fw (by intros; rfl),
    raise_keeps State.fw (by intros; rfl), finishOp_keeps State.fw (by intros; rfl)]
  rfl

end Sys2Proof.Machine

open Sys2Proof Sys2Proof.Machine

/-- Settles O13, clause by clause, from the rule of each case. -/
theorem configurationCommandEffects : Obligations.ConfigurationCommandEffects := by
  unfold Obligations.ConfigurationCommandEffects
  refine ⟨?beginFirst, ?beginAgain, ?beginRefused, ?commit, ?commitFails, ?commitWaits, ?commitRefused, ?abortFirst, ?abortAgain, ?stateGet,
    ?capsGet, ?write, ?writeRefused, ?read, ?instant, ?instantFault, ?takeover⟩
  case beginFirst => exact fun r s h hstate => next_serve_done h (configBegin_of_unconfigured (s := taken r s) hstate)
  case beginAgain => exact fun r s h hstate => next_serve_done h (configBegin_of_committed (s := taken r s) hstate)
  case beginRefused => exact fun r s h hun hcom => next_serve_done h (configBegin_of_window_open (s := taken r s) hun hcom)
  case commit =>
    intro r s w h hstate hw hup hpass
    have hcfg := commitAccepted_cfg s.nextOp w (enterCommit (taken r s))
    rw [enterCommit_cfg] at hcfg
    refine ⟨_, congrArg Host.Outcome.next (serve_configCommit_of_passes h hstate hw hup hpass), ?_, ?_, ?_, ?_, ?_, fun p hp => ?_⟩
    · rw [hcfg]
    · rw [hcfg]; rfl
    · rw [hcfg]; exact hw
    · rw [hcfg]; exact congrArg (fun n => some (s.nextOp, n)) (setCfg_now _ _)
    · rw [hcfg]; rfl
    · exact commitAccepted_training ((enabledBy_enter r s w).symm ▸ hp)
  case commitFails =>
    exact fun r s w k h hstate hw hup hfail => congrArg Host.Outcome.next (serve_configCommit_of_fails h hstate hw hup hfail)
  case commitWaits =>
    exact fun r s w h hstate hw hup => congrArg Host.Outcome.next (serve_configCommit_of_bringing_up h hstate hw hup)
  case commitRefused =>
    exact fun r s h hcon hrec hdef => next_serve_done h (configCommit_of_not_canCommit _ (s := taken r s) hcon hrec hdef)
  case abortFirst => exact fun r s h hstate => next_serve_done h (configAbort_of_configuring (s := taken r s) hstate)
  case abortAgain => exact fun r s h hstate => next_serve_done h (configAbort_of_reconfiguring (s := taken r s) hstate)
  case stateGet => exact fun r s h => next_serve_done h rfl
  case capsGet => exact fun r s h => next_serve_done h rfl
  case write =>
    exact fun r s h hpos hle h3 h6 hfmt hgood hend => exec_paramBlockWrite_of_good_entries h ⟨hpos, hle, h3, h6, hfmt⟩ hgood hend
  case writeRefused =>
    exact fun r s i id st h hpos hle h3 h6 hfmt hbad => exec_paramBlockWrite_of_bad_entry h ⟨hpos, hle, h3, h6, hfmt⟩ hbad
  case read =>
    intro r s h hlo hhi hone hsrc
    have hread := paramBlockRead_of_active (s := taken r s) hlo hhi hone hsrc
    exact ⟨_, next_serve_done h hread, List.take_left' (blockHeader_length _ _ _)⟩
  case instant =>
    intro id at_ w s hacc hw hstate hup htrained
    have hcfg := commitInstant_cfg hacc hw hstate hup htrained
    obtain ⟨hfirst, hlast⟩ := chooseTc_bounds at_ s
    refine ⟨commitInstant false s, rfl, ?_⟩
    rw [hcfg]
    exact ⟨rfl, rfl, rfl, rfl, rfl, hfirst, hlast⟩
  case instantFault =>
    intro id at_ w s hacc hw hstate hup
    refine ⟨commitInstant true s, rfl, ?_⟩
    rw [commitInstant_of_fault hacc hw hstate hup, commitFault_cfg]
  case takeover =>
    exact fun id since m s hpause hactive htrial hin hup => ⟨_, rfl, firmwareTakeover_fw hpause hactive htrial hin hup⟩

end

section
/-! The reset sources (R415 to R423, R430, R431): what each leaves, absorbs (logs 120, 121) and requests (log 159), then O15. -/

namespace Sys2Proof.Machine

/-! ### The cold sources -/

theorem porAssert_of_released {s : State} (h : s.boot.por = false) : porAssert s = coldAssert causePor { s with boot.por := true } :=
  if_neg (ne_true_of_eq_false h)

theorem nresetAssert_of_released {s : State} (h : s.boot.nreset = false) :
    nresetAssert s = coldAssert causeNreset { s with boot.nreset := true } :=
  if_neg (ne_true_of_eq_false h)

/-- R421: a cold source that is released starts stage 2 unless the other one still holds the reset. -/
theorem porRelease_of_asserted {s : State} (h : s.boot.por = true) : porRelease s = coldRelease { s with boot.por := false } :=
  if_pos h

theorem nresetRelease_of_asserted {s : State} (h : s.boot.nreset = true) : nresetRelease s = coldRelease { s with boot.nreset := false } :=
  if_pos h

theorem coldRelease_of_held {s : State} (h : coldHeld s = true) : coldRelease s = s := if_pos h

theorem coldRelease_of_free {s : State} (h : coldHeld s = false) :
    coldRelease s = { s with boot.stageRun := 2, boot.widest := .cold, boot.optValid := false } :=
  if_neg (ne_true_of_eq_false h)

theorem perstAssert_of_free {s : State} (h : coldHeld s = false) : perstAssert s = { s with boot.sysReq := some 4, pcie.up := false } :=
  if_neg (ne_true_of_eq_false h)

/-! ### WDT and SYSRST -/

/-- R423: a wider source runs, so the source is latched alone. -/
theorem wideReset_of_absorbed {src : RstSrc} {s : State} (bit : Nat) (h : absorbed src s = true) :
    wideReset src bit s = latchCause bit { s with boot.sysReq := none } :=
  if_pos h

theorem wideReset_of_widest {src : RstSrc} {s : State} (bit : Nat) (h : absorbed src s = false) :
    wideReset src bit s = { resetMain src (latchCause bit s) with boot.stageRun := firstStage src } :=
  if_neg (ne_true_of_eq_false h)

/-- What a SYSRST or a WDT that is not absorbed makes of state s (R39, R57, R210, R356, R415 to R417, R421). -/
structure WideResetLeaves (src : RstSrc) (bit : Nat) (s t : State) : Prop where
  stageRun : t.boot.stageRun = firstStage src
  wdtArmed : t.boot.wdtArmed = false
  sysReq : t.boot.sysReq = none
  synthLock : t.boot.synthLock = (s.boot.synthLock && src != .wdt)
  cause : t.boot.cause.getLsbD bit = true
  cfg : t.cfg = {}
  mbxs : t.mbxs = []
  keys : t.keys = {}
  pcie : t.pcie = keptPcie src s.pcie
  installedMiB : t.mem.installedMiB = s.mem.installedMiB
  inReset : ∀ i, i < 34 → (isl t i).inReset = true
  jnv : t.jnv = s.jnv
  bkp : t.bkp = s.bkp

theorem latchCause_cause (bit : Nat) (s : State) (h : bit < 8) : (latchCause bit s).boot.cause.getLsbD bit = true := bit_self _ _ h

theorem keptMem_installedMiB {src : RstSrc} (hsrc : src ≠ .cold) (m : Mem) : (keptMem src m).installedMiB = m.installedMiB := by
  cases src with
  | cold => exact absurd rfl hsrc
  | islrst | dprst | sysrst | wdt => rfl

/-- The boot controller is kept but for the sequence, the watchdog and the request. -/
theorem keptBoot_of_not_cold {src : RstSrc} (hsrc : src ≠ .cold) (b : Boot) :
    keptBoot src b = { b with
      stageRun := 0, widest := src, isls := [], dpReq := false, dpRun := false, stage := 0, fail := 0, coreSound := true
      wdtArmed := false, wdtRemain := 0, wdtAt := 0, sysReq := none, synthLock := b.synthLock && src != .wdt } := by
  cases src with
  | cold => exact absurd rfl hsrc
  | islrst | dprst | sysrst | wdt => rfl

theorem wideReset_leaves {src : RstSrc} {bit : Nat} {s : State} (hsrc : src ≠ .cold) (hbit : bit < 8) (h : absorbed src s = false) :
    WideResetLeaves src bit s (wideReset src bit s) := by
  obtain ⟨⟨d, hboot⟩, hcfg, hmbxs, -, hkeys, hpcie, hmem, -, hjnv, -, -, hbkp, -, -⟩ := resetMain_leaves src (latchCause bit s)
  have hisl := resetMain_isl src (latchCause bit s)
  rw [keptBoot_of_not_cold hsrc] at hboot
  rw [wideReset_of_widest bit h]
  generalize resetMain src (latchCause bit s) = u at *
  constructor
  case stageRun => rfl
  case wdtArmed => exact congrArg Boot.wdtArmed hboot
  case sysReq => exact congrArg Boot.sysReq hboot
  case synthLock => exact congrArg Boot.synthLock hboot
  case cause => exact (congrArg (fun b : Boot => b.cause.getLsbD bit) hboot).trans (latchCause_cause bit s hbit)
  case installedMiB => exact (congrArg Mem.installedMiB hmem).trans (keptMem_installedMiB hsrc _)
  all_goals assumption

/-- The state in which the watchdog's reset begins at instant m. -/
def wdtExpired (m : Nat) (s : State) : State := { advMono m s with boot.wdtArmed := false, boot.wdtRemain := 0 }

/-- Log 159: the watchdog was not refreshed for 1 000 ms, counted from the handover at the earliest. -/
theorem wdtExpiry_of_armed {s : State} (harmed : s.boot.wdtArmed = true) (hfree : coldHeld s = false) :
    wdtExpiry s = wideReset .wdt causeWdt (wdtExpired (s.boot.wdtAt + tMs 1000) s) :=
  if_pos (by rw [harmed, hfree]; rfl)

theorem absorbed_wdtExpired (m : Nat) (s : State) : absorbed .wdt (wdtExpired m s) = absorbed .wdt s := by
  have hadv : absorbed .wdt (advMono m s) = absorbed .wdt s := advMono_keeps (absorbed .wdt) (by intros; rfl) m s
  rw [← hadv]
  rfl

/-- R423: an absorbed watchdog. -/
theorem wideReset_wdtExpired_of_absorbed (m : Nat) {s : State} (h : absorbed .wdt s = true) :
    wideReset .wdt causeWdt (wdtExpired m s) =
      latchCause 2 { advMono m s with boot.wdtArmed := false, boot.wdtRemain := 0, boot.sysReq := none } :=
  wideReset_of_absorbed causeWdt ((absorbed_wdtExpired m s).trans h)

/-- A watchdog that is not absorbed leaves what any wide reset of the present state would: the time that passes changes nothing of that. -/
theorem wideReset_wdtExpired_leaves (m : Nat) {s : State} (h : absorbed .wdt s = false) :
    WideResetLeaves .wdt causeWdt s (wideReset .wdt causeWdt (wdtExpired m s)) := by
  have hleaves := wideReset_leaves (bit := causeWdt) (by decide) (by decide) ((absorbed_wdtExpired m s).trans h)
  have htime {β : Type} (P : State → β) (hP : ∀ (s : State) x0 x1, P { s with now := x0, mono := x1 } = P s) : P (advMono m s) = P s :=
    advMono_keeps P hP m s
  exact { hleaves with
    synthLock := hleaves.synthLock.trans (congrArg (· && RstSrc.wdt != RstSrc.wdt) (htime (fun u => u.boot.synthLock) (by intros; rfl)))
    pcie := hleaves.pcie
    installedMiB := hleaves.installedMiB.trans (htime (fun u => u.mem.installedMiB) (by intros; rfl))
    jnv := hleaves.jnv.trans (htime State.jnv (by intros; rfl))
    bkp := hleaves.bkp.trans (htime State.bkp (by intros; rfl)) }

theorem le_mono_wideReset_wdtExpired (m : Nat) (s : State) : m ≤ (wideReset .wdt causeWdt (wdtExpired m s)).mono := by
  rw [wideReset_keeps State.mono (by intros; rfl)]
  exact le_advMono m s

theorem sysrst_of_requested {b : Nat} {s : State} (hreq : s.boot.sysReq = some b) (hfree : coldHeld s = false) :
    sysrst s = wideReset .sysrst b s := by
  simp [sysrst, hreq, hfree]

/-- R379: with its queue written, the recorder enters reset. -/
theorem drainEnd_of_drained {s : State} (hdrain : s.boot.draining = true) (hq : s.slate.queue = []) :
    drainEnd s = holdIsland islRecorder { s with boot.draining := false, slate := {} } :=
  if_pos (by rw [hdrain, hq]; rfl)

/-! ### DPRST -/

/-- DPRST is latched and runs. -/
def dprstLatched (s : State) : State := latchCause causeDprst { s with boot.dpReq := false, boot.dpRun := true }

/-- The data-plane islands are held. -/
def dataPlaneHeld (s : State) : State := (List.range 29).foldl (fun s i => holdIsland i s) s

/-- R431: a DPRST that runs cuts the data plane short and holds its islands. -/
theorem dprst_of_requested {s : State} (hreq : s.boot.dpReq = true) (h : absorbed .dprst s = false) :
    dprst s = { dataPlaneHeld (clearDataPlane (dprstLatched s)) with boot.widest := .dprst, boot.stageRun := 5, boot.isls := [] } := by
  simp only [dprst, hreq, h, dataPlaneHeld, dprstLatched, Bool.not_true, Bool.false_eq_true, if_false]

theorem dprst_of_absorbed {s : State} (hreq : s.boot.dpReq = true) (h : absorbed .dprst s = true) :
    dprst s = latchCause causeDprst { s with boot.dpReq := false } := by
  rw [dprst, if_neg (by simp [hreq]), if_pos h]

/-- The boot controller keeps what the latch made of it: the cut and the islands leave it alone. -/
theorem dataPlaneHeld_boot (s : State) : (dataPlaneHeld (clearDataPlane s)).boot = s.boot :=
  (foldl_keeps State.boot _ (fun s i => holdIsland_keeps State.boot (by intros; rfl) i s) _ _).trans
    (clearDataPlane_keeps State.boot (by intros; rfl) s)

theorem dprst_boot {s : State} (hreq : s.boot.dpReq = true) (h : absorbed .dprst s = false) :
    (dprst s).boot = { (dprstLatched s).boot with widest := .dprst, stageRun := 5, isls := [] } := by
  have hboot := dataPlaneHeld_boot (dprstLatched s)
  rw [dprst_of_requested hreq h]
  generalize dataPlaneHeld (clearDataPlane (dprstLatched s)) = u at hboot
  rw [← hboot]

theorem dataPlaneHeld_inReset {i : Nat} {s : State} (hi : i < 29) (hpresent : islPresent s i = true) : (isl (dataPlaneHeld s) i).inReset = true :=
  hold_list (List.range 29) s i (fun _ hj => (List.mem_range.1 hj).trans (by decide)) hpresent (.inl (List.mem_range.2 hi))

/-- R420: every data-plane island that the part has is held. -/
theorem dprst_inReset {i : Nat} {s : State} (hreq : s.boot.dpReq = true) (h : absorbed .dprst s = false) (hi : i < 29)
    (hpresent : islPresent s i = true) : (isl (dprst s) i).inReset = true := by
  have hstill : islPresent (clearDataPlane (dprstLatched s)) i = true :=
    (clearDataPlane_keeps (fun u => islPresent u i) (by intros; rfl) _).trans hpresent
  have hheld := dataPlaneHeld_inReset hi hstill
  rw [dprst_of_requested hreq h]
  generalize dataPlaneHeld (clearDataPlane (dprstLatched s)) = u at hheld
  exact hheld

/-! ### ISLRST -/

section Islrst
variable {i : Nat} {s : State} (hi : i ≤ 28) (hpresent : islPresent s i = true) (hexcl : islExcluded s i = false)
include hi hpresent hexcl

/-- Log 120: an absorbed ISLRST latches its bit. -/
theorem islrst_of_absorbed (h : absorbed .islrst s = true) : islrst i s = latchCause causeIslrst s := by
  rw [islrst, if_neg (by simp [hi, hpresent, hexcl]), if_pos h]

/-- R431, 19 R486: a running island is reset, and the second time within 24 h excluded. -/
theorem islrst_of_running (h : absorbed .islrst s = false) (hrun : (isl s i).inReset = false) (hcontrol : islUp s islControl = true) :
    islrst i s = if resetLately (isl s i) s then excludeIsland i causeReset 4 (islandReset i s) else islandReset i s := by
  rw [islrst, if_neg (by simp [hi, hpresent, hexcl]), if_neg (ne_true_of_eq_false h), if_neg (by simp [hrun, hcontrol])]
  rfl

end Islrst

theorem isl_setIsl_same (i : Nat) (f : Island → Island) (s : State) : isl (setIsl i f s) i = f (isl s i) := by
  simp only [isl, setIsl, tget_tupd_same]

/-- The island as its reset leaves it: its instant noted, a BIST owed (R431). -/
def islAfterReset (mono : Nat) (x : Island) : Island :=
  { x with islrstCnt := satAdd 255 x.islrstCnt 1, lastIslrst := some mono, bistDue := true }

theorem isl_islandReset (i : Nat) (s : State) :
    isl (islandReset i s) i = islAfterReset s.mono (isl (holdIsland i (islandDown i (latchCause causeIslrst s))) i) := by
  unfold islandReset
  generalize holdIsland i (islandDown i (latchCause causeIslrst s)) = u
  exact isl_setIsl_same i (islAfterReset s.mono) u

theorem islandReset_inReset {i : Nat} {s : State} (hi : i ≤ 28) (hpresent : islPresent s i = true) : (isl (islandReset i s) i).inReset = true := by
  have hstill : islPresent (islandDown i (latchCause causeIslrst s)) i = true :=
    (islandDown_keeps (fun u => islPresent u i) (by intros; rfl) _ _).trans hpresent
  have hheld := holdIsland_self i _ (hi.trans_lt (by decide)) hstill
  rw [isl_islandReset]
  exact hheld

theorem islandReset_isls (i : Nat) (s : State) : i ∈ (islandReset i s).boot.isls := by
  unfold islandReset
  exact List.mem_append_right _ (List.mem_singleton_self i)

/-! ### RESET_REQUEST -/

theorem resetRequest_of_reach_main {r : Req} {s : State} (hzero : zeroAt r.payload 1 3 = true) (hreach : rd r.payload 0 1 = 2) :
    resetRequest r s = replyOk { s with boot.sysReq := some 3 } := by
  simp [resetRequest, hzero, hreach]

/-- R431: a DPRST is requested, or the one that runs is joined. -/
theorem resetRequest_of_reach_dataPlane {r : Req} {s : State} (hzero : zeroAt r.payload 1 3 = true) (hreach : rd r.payload 0 1 = 1) :
    resetRequest r s = .pend (if s.boot.dpRun then s else { s with boot.dpReq := true }) [] := by
  simp [resetRequest, hzero, hreach]

theorem serve_resetRequest_of_reach_dataPlane {r : Req} {s : State} (h : Served resetRequestService r s = true)
    (hzero : zeroAt r.payload 1 3 = true) (hreach : rd r.payload 0 1 = 1) :
    serve resetRequestService r s = begun 0x0B90 r [] (if s.boot.dpRun then taken r s else { taken r s with boot.dpReq := true }) :=
  serve_pend resetRequestService r s _ _ h (resetRequest_of_reach_dataPlane (s := taken r s) hzero hreach)

end Sys2Proof.Machine

open Sys2Proof Sys2Proof.Machine

/-- Settles O15, clause by clause, from the rule of each source. -/
theorem resetSourceEffects : Obligations.ResetSourceEffects := by
  unfold Obligations.ResetSourceEffects
  refine ⟨?porAssert, ?nresetAssert, ?porRelease, ?porReleaseHeld, ?nresetRelease, ?nresetReleaseHeld, ?perst, ?wdt, ?wdtAbsorbed, ?sysrst,
    ?sysrstAbsorbed, ?drained, ?dprst, ?dprstAbsorbed, ?islrst, ?islrstSecond, ?islrstAbsorbed, ?requestMain, ?requestDataPlane, ?requestJoins⟩
  case porAssert =>
    intro s hpor
    obtain ⟨hasserted, -, hleaves⟩ := cold_reset causePor { s with boot.por := true } (by decide)
    exact ⟨_, congrArg Host.Outcome.next (porAssert_of_released hpor), hasserted, hleaves⟩
  case nresetAssert =>
    intro s hnreset
    obtain ⟨-, hasserted, hleaves⟩ := cold_reset causeNreset { s with boot.nreset := true } (by decide)
    exact ⟨_, congrArg Host.Outcome.next (nresetAssert_of_released hnreset), hasserted, hleaves⟩
  case porRelease =>
    exact fun s hpor hnreset => congrArg Host.Outcome.next ((porRelease_of_asserted hpor).trans (coldRelease_of_free hnreset))
  case porReleaseHeld =>
    exact fun s hpor hnreset => congrArg Host.Outcome.next ((porRelease_of_asserted hpor).trans (coldRelease_of_held hnreset))
  case nresetRelease =>
    intro s hnreset hpor
    exact congrArg Host.Outcome.next ((nresetRelease_of_asserted hnreset).trans (coldRelease_of_free (by simp [coldHeld, hpor])))
  case nresetReleaseHeld =>
    intro s hnreset hpor
    exact congrArg Host.Outcome.next ((nresetRelease_of_asserted hnreset).trans (coldRelease_of_held (by simp [coldHeld, hpor])))
  case perst => exact fun s hfree => congrArg Host.Outcome.next (perstAssert_of_free hfree)
  case wdt =>
    intro s harmed hfree habs
    have hleaves := wideReset_wdtExpired_leaves (s.boot.wdtAt + tMs 1000) habs
    exact ⟨_, congrArg Host.Outcome.next (wdtExpiry_of_armed harmed hfree), le_mono_wideReset_wdtExpired _ s, hleaves.stageRun, hleaves.wdtArmed,
      hleaves.synthLock.trans (Bool.and_false _), hleaves.cause, hleaves.cfg, hleaves.mbxs, hleaves.keys, hleaves.pcie, hleaves.installedMiB,
      hleaves.inReset, hleaves.jnv, hleaves.bkp⟩
  case wdtAbsorbed =>
    exact fun s harmed hfree habs =>
      congrArg Host.Outcome.next ((wdtExpiry_of_armed harmed hfree).trans (wideReset_wdtExpired_of_absorbed _ habs))
  case sysrst =>
    intro b s hb hreq hfree habs
    have hleaves := wideReset_leaves (bit := b) (by decide) hb habs
    refine ⟨_, congrArg Host.Outcome.next (sysrst_of_requested hreq hfree), hleaves.stageRun, hleaves.sysReq, ?_, hleaves.cause, hleaves.cfg,
      hleaves.mbxs, hleaves.keys, hleaves.pcie, hleaves.installedMiB, hleaves.inReset, hleaves.jnv, hleaves.bkp⟩
    rw [hleaves.synthLock]
    exact Bool.and_true _
  case sysrstAbsorbed =>
    exact fun b s hreq hfree habs => congrArg Host.Outcome.next ((sysrst_of_requested hreq hfree).trans (wideReset_of_absorbed b habs))
  case drained => exact fun s hdrain hq => congrArg Host.Outcome.next (drainEnd_of_drained hdrain hq)
  case dprst =>
    intro s hreq habs
    have hboot := dprst_boot hreq habs
    refine ⟨dprst s, rfl, ?_, ?_, ?_, ?_, fun i hi hpresent => dprst_inReset hreq habs hi hpresent, dprst_keeps State.cfg (by intros; rfl) s,
      dprst_keeps State.pcie (by intros; rfl) s⟩
    · rw [hboot]
    · rw [hboot]; rfl
    · rw [hboot]; rfl
    · rw [hboot]; exact latchCause_cause causeDprst _ (by decide)
  case dprstAbsorbed => exact fun s hreq habs => congrArg Host.Outcome.next (dprst_of_absorbed hreq habs)
  case islrst =>
    intro i s hi hpresent hexcl habs hrun hcontrol hfirst
    have hisl := isl_islandReset i s
    have hreset : islrst i s = islandReset i s :=
      (islrst_of_running hi hpresent hexcl habs hrun hcontrol).trans (if_neg (ne_true_of_eq_false hfirst))
    refine ⟨_, congrArg Host.Outcome.next hreset, islandReset_inReset hi hpresent, rfl, islandReset_isls i s, ?_, ?_, rfl⟩
    · rw [hisl]; rfl
    · rw [hisl]; rfl
  case islrstSecond =>
    intro i s hi hpresent hexcl habs hrun hcontrol hsecond
    exact congrArg Host.Outcome.next ((islrst_of_running hi hpresent hexcl habs hrun hcontrol).trans (if_pos hsecond))
  case islrstAbsorbed => exact fun i s habs hi hpresent hexcl => congrArg Host.Outcome.next (islrst_of_absorbed hi hpresent hexcl habs)
  case requestMain => exact fun r s h hzero hreach => next_serve_done h (resetRequest_of_reach_main (s := taken r s) hzero hreach)
  case requestDataPlane =>
    exact fun r s h hzero hreach hidle => congrArg Host.Outcome.next ((serve_resetRequest_of_reach_dataPlane h hzero hreach).trans
      (congrArg (begun 0x0B90 r []) (if_neg (ne_true_of_eq_false hidle))))
  case requestJoins =>
    exact fun r s h hzero hreach hruns => congrArg Host.Outcome.next ((serve_resetRequest_of_reach_dataPlane h hzero hreach).trans
      (congrArg (begun 0x0B90 r []) (if_pos hruns)))

end

section
/-! Reception (R66 to R68, R77 to R80, R85 to R89, R92): one rule per case of each command, then O21. -/

namespace Sys2Proof.Machine

/-! ### Slots -/

/-- R66, R68: what every slot of a port in service leaves, its SEQ counted as seq. -/
def slotCounted (p : Nat) (seq : BitVec 8) (s : State) : RfPort :=
  { rfp s p with seq := some seq, slotNo := (rfp s p).slotNo + 1, txStatus := txWord s p ((rfp s p).slotNo + 1) }

/-- R67, R92: what a slot with agreeing words in sequence adds to that. -/
def slotRead (x : IqSlot) (r : RfPort) : RfPort :=
  { r with
    gain := bits x.status.toNat 13 8
    ovld := if x.status.getLsbD 14 then r.ovld + 1 else r.ovld
    ovldNow := if x.status.getLsbD 14 then r.ovldNow + 1 else r.ovldNow
    lastSample := if x.status.getLsbD 15 then (clampSample x.i, clampSample x.q) else r.lastSample
    sampleGain := if x.status.getLsbD 15 then bits x.status.toNat 13 8 else r.sampleGain }

/-- R68: the slot errors of the 256 slots that end with this one. -/
def nearErrors (r : RfPort) : List Nat := r.errAt.filter (inWindow r.slotNo)

/-- R68: what a slot in error adds. -/
def slotErred (r : RfPort) : RfPort :=
  { r with slotErr := r.slotErr + 1, errAt := r.slotNo :: (nearErrors r).take 2, lastSample := (0, 0) }

section Slot
variable {p : Nat} {x : IqSlot} {s : State} (hup : rfUp s p = true) (hblank : (rfp s p).blankedBy = [])
include hup hblank

/-- R67, R68: a slot with agreeing words whose SEQ is the next one, or the first. -/
theorem iqSlot_of_in_sequence (hagree : x.copy = ~~~x.status) (hseq : ∀ q, (rfp s p).seq = some q → q + 1 = x.status.setWidth 8) :
    iqSlot p x s = raiseIf (x.status.getLsbD 14 && (rfp s p).ovldNow == 0 && !(rfp s p).ovldPrev) 0x22
      (setRf p (fun _ => slotRead x (slotCounted p (x.status.setWidth 8) s)) s) := by
  unfold iqSlot
  cases hprev : (rfp s p).seq with
  | none => simp [hup, hblank, hagree, hprev, slotRead, slotCounted]
  | some q =>
    have hnext : q + 1#8 = x.status.setWidth 8 := hseq q hprev
    simp [hup, hblank, hagree, hprev, hnext, slotRead, slotCounted]

/-- R68: a slot whose copies disagree is in error, and the fourth of 256 slots brings the port down. -/
theorem iqSlot_of_disagreeing (hcopy : x.copy ≠ ~~~x.status) :
    ∃ seq, iqSlot p x s =
      if 3 ≤ (nearErrors (slotCounted p seq s)).length then portDown p (setRf p (fun _ => slotErred (slotCounted p seq s)) s)
      else setRf p (fun _ => slotErred (slotCounted p seq s)) s := by
  refine ⟨((rfp s p).seq.map (· + 1)).getD 0, ?_⟩
  simp [iqSlot, hup, hblank, hcopy, slotErred, nearErrors, slotCounted]

end Slot

/-! ### Lanes -/

/-- R79: an SHR on an idle lane is taken. -/
theorem shrDetect_of_idle {l : Nat} (pw : Power) {h : ShrIn} {s : State} (hdetect : canDetect s l = true)
    (hfits : shrFits s (lane s l) h = true) (hrx : (lane s l).rx = .idle) :
    shrDetect l pw h s = setLane l (fun x => { x with rx := .shr pw h.deep, shrs := x.shrs + 1 }) s := by
  simp [shrDetect, hdetect, hfits, hrx]

/-- R79: an SHR stronger by CAPTURE_MARGIN_DB than the one that the lane follows captures it. -/
theorem shrDetect_of_stronger {l : Nat} {pw w : Power} {h : ShrIn} {d : Bool} {s : State} (hdetect : canDetect s l = true)
    (hfits : shrFits s (lane s l) h = true) (hrx : (lane s l).rx = .shr w d) (hdb : atLeastDb pw w (10 * pval s 0x2002) = true) :
    shrDetect l pw h s = setLane l (fun x => { x with rx := .shr pw h.deep, shrs := x.shrs + 1, captures := x.captures + 1 }) s := by
  simp [shrDetect, hdetect, hfits, hrx, hdb]

theorem qPush_of_accepts {thr : Nat} (w : DWord) {last : Bool} (code : BitVec 16) {q : FtQueue} (h : qAccepts last q = true) :
    qPush thr w last code q = some (qPut thr w last code q) :=
  if_pos h

theorem qPush_of_refuses {thr : Nat} (w : DWord) {last : Bool} (code : BitVec 16) {q : FtQueue} (h : qAccepts last q = false) :
    qPush thr w last code q = none :=
  if_neg (ne_true_of_eq_false h)

/-- R77: a mode-switch PPDU is not supported. -/
theorem phrDecode_of_mode_switch {l : Nat} {v : Power} {phr : BitVec 16} {s : State} (hrx : (lane s l).rx = .shr v false)
    (hms : bit phr.toNat 0 = true) : phrDecode l phr s = setLane l (fun x => { x with rx := .idle, phrErr := x.phrErr + 1 }) s := by
  simp [phrDecode, hrx, hms]

/-- Table 04-10: the header word of a SUN FSK frame with the long FCS. -/
def longFcsHeader (l : Nat) (phr : BitVec 16) (s : State) : DWord :=
  laneHeader l (lane s l) (streamChannel s (lane s l).asg.port (lane s l).asg.stream) (bits phr.toNat 2 1) false false (bit phr.toNat 4)
    (bits phr.toNat 15 5 - 4)

/-- R77, R87: a PHR that passes, with the long FCS, starts a frame with its header word. -/
theorem phrDecode_of_long_fcs {l : Nat} {v : Power} {phr : BitVec 16} {s : State} (hrx : (lane s l).rx = .shr v false)
    (hms : bit phr.toNat 0 = false) (hfcs : bit phr.toNat 3 = false) (hmode : bit (lane s l).asg.rateMask (bits phr.toNat 2 1) = true)
    (hlen : 5 ≤ bits phr.toNat 15 5) (hroom : qAccepts false (lane s l).queue = true) :
    phrDecode l phr s = setLane l (fun x => { x with
      rx := .frame (bits phr.toNat 15 5 - 4), hdr := longFcsHeader l phr s
      queue := qPut (cutThrough s l) (longFcsHeader l phr s) false 0 (lane s l).queue, octets := [] }) s := by
  simp [phrDecode, hrx, hms, hfcs, hmode, hlen, qPush_of_accepts _ _ hroom, longFcsHeader]

/-- The next octets of a frame with left of them to come, whitening undone (R77). -/
def nextOctets (left : Nat) (word : DWord) (x : Lane) : List Byte :=
  whiten (x.hdr.getLsbD 31) x.octets.length ((le 8 word.toNat).take (min 8 left))

section Psdu
variable {l left : Nat} {s : State} (word : DWord) (hrx : (lane s l).rx = .frame left) (hleft : 0 < left)
include hrx hleft

/-- R87: a PSDU word for which the queue has room. -/
theorem psduWord_of_room (hroom : qAccepts false (lane s l).queue = true) :
    psduWord l word s = setLane l (fun x => { x with
      rx := .frame (left - min 8 left)
      queue := qPut (cutThrough s l) (BitVec.ofNat 64 (ofLe (nextOctets left word (lane s l)))) false 0 (lane s l).queue
      octets := x.octets ++ nextOctets left word (lane s l) }) s := by
  simp [psduWord, hrx, hleft.ne', qPush_of_accepts _ _ hroom, nextOctets]

/-- R89: a PSDU word that the queue refuses. -/
theorem psduWord_of_full (hfull : qAccepts false (lane s l).queue = false) : psduWord l word s = laneOverflow l s := by
  simp [psduWord, hrx, hleft.ne', qPush_of_refuses _ _ hfull]

end Psdu

/-! ### The end of a frame -/

theorem pushTrailers_lane (l : Nat) (t0 t1 : DWord) (s : State) :
    lane (pushTrailers l t0 t1 s) l = { lane s l with
      rx := .idle, queue := qPut (cutThrough s l) t1 true 0 (qPut (cutThrough s l) t0 false 0 (lane s l).queue) } :=
  setLane_lane _ _ _

@[simp] theorem pushTrailers_now (l : Nat) (t0 t1 : DWord) (s : State) : (pushTrailers l t0 t1 s).now = s.now := rfl

@[simp] theorem countFrame_good (good : Bool) (mode : Nat) (rssi : Int) (x : Lane) :
    (countFrame good mode rssi x).good = x.good + if good then 1 else 0 := by
  cases good <;> simp [countFrame]

@[simp] theorem countFrame_crcBad (good : Bool) (mode : Nat) (rssi : Int) (x : Lane) :
    (countFrame good mode rssi x).crcBad = x.crcBad + if good then 0 else 1 := by
  cases good <;> simp [countFrame]

@[simp] theorem countFrame_queue (good : Bool) (mode : Nat) (rssi : Int) (x : Lane) : (countFrame good mode rssi x).queue = x.queue := by
  cases good <;> rfl

theorem advTo_now (t : Nat) (s : State) : (advTo t s).now = max s.now t := by
  unfold advTo
  split
  case isTrue h => exact (max_eq_right h.le).symm
  case isFalse h => exact (max_eq_left (Nat.not_lt.1 h)).symm

@[simp] theorem advTo_lane (t l : Nat) (s : State) : lane (advTo t s) l = lane s l :=
  advTo_keeps (fun u => lane u l) (by intros; rfl) t s

@[simp] theorem advTo_cutThrough (t l : Nat) (s : State) : cutThrough (advTo t s) l = cutThrough s l :=
  cut_of (advTo_keeps State.cfg (by intros; rfl) t s) l

theorem setLane_cutThrough (l k : Nat) (f : Lane → Lane) (s : State) : cutThrough (setLane l f s) k = cutThrough s k := rfl

/-- R87, R88, R90: the lane once a frame has ended with room for its trailers. -/
theorem frameEnd_of_room_lane {l : Nat} (fin : FrameEnd) {s : State} (hrx : (lane s l).rx = .frame 0)
    (hroom : trailerRoom (lane s l).queue = true) :
    lane (frameEnd l fin s) l =
      let good := fcsHolds (lane s l) fin.fcs
      let rssi := powerDbm s (lane s l).asg.port fin.power
      { countFrame good (modeIndex (lane s l).hdr) rssi (lane s l) with
        rx := .idle
        queue := qPut (cutThrough s l) (BitVec.ofNat 64 fin.endTime) true 0
          (qPut (cutThrough s l) (laneTrailer (if good then 0 else 1) rssi fin.cfo fin.snr) false 0 (lane s l).queue) } := by
  simp only [frameEnd_zero l fin s hrx, hroom, if_true, pushTrailers_lane, setLane_lane, setLane_cutThrough, advTo_lane, advTo_cutThrough,
    countFrame_queue]

theorem frameEnd_of_room_now {l : Nat} (fin : FrameEnd) {s : State} (hrx : (lane s l).rx = .frame 0)
    (hroom : trailerRoom (lane s l).queue = true) : (frameEnd l fin s).now = max s.now fin.endTime := by
  simp only [frameEnd_zero l fin s hrx, hroom, if_true, pushTrailers_now, setLane_now, advTo_now]

/-- R89: a frame ends with no room for its trailers. -/
theorem frameEnd_of_full {l : Nat} (fin : FrameEnd) {s : State} (hrx : (lane s l).rx = .frame 0)
    (hfull : trailerRoom (lane s l).queue = false) : frameEnd l fin s = laneOverflow l s :=
  (frameEnd_zero l fin s hrx).trans (if_neg (ne_true_of_eq_false hfull))

/-- R89: two stages are free again after an overflow. -/
theorem overflowTrailer_of_room {l : Nat} (fin : FrameEnd) {s : State} (hrx : (lane s l).rx = .overflow)
    (hroom : trailerRoom (lane s l).queue = true) :
    overflowTrailer l fin s =
      pushTrailers l (laneTrailer 5 (powerDbm s (lane s l).asg.port fin.power) fin.cfo fin.snr) 0 s := by
  simp only [overflowTrailer, hrx, hroom, if_true]

/-! ### Blanking -/

/-- R85: blanking begins ahead of a transmission that may start. -/
theorem blankingStart_of_mayStart {p t : Nat} {s : State} (hup : rfUp s p = true) (hnow : s.now ≤ t) (hfree : (rfp s p).blankAt = none)
    (hstart : mayStartAt s p (t + blankLead s p) = true) :
    blankingStart p t s = blankAll p (monoUs (advTo t s)) (setRf p (fun x => { x with blankAt := some t }) (advTo t s)) := by
  simp [blankingStart, hup, hnow, hfree, hstart]

/-- R85: blanking ends after the transmission, RF_BLANK_POST_US after TXEN_N rose. -/
theorem blankingEnd_of_blanking {p : Nat} {s : State} (hp : p < 8) (hblanks : (rfp s p).blankedBy.contains p = true)
    (hdone : (rfp s p).state ≠ .transmitting) :
    blankingEnd p s = setRf p (fun x => { x with blankAt := none }) ((List.range 8).foldl (fun s r => unblankPort p r s)
      (advMono ((rfp s p).txenRise + tUs (pval s (pidRf p 7))) s)) :=
  if_pos (by simp only [hp, hblanks, bne_iff_ne.2 hdone, decide_true, Bool.and_self])

end Sys2Proof.Machine

open Sys2Proof Sys2Proof.Machine

/-- Settles O21, clause by clause, from the rule of each case. -/
theorem receptionEffects : Obligations.ReceptionEffects := by
  unfold Obligations.ReceptionEffects
  refine ⟨?inSequence, ?slotError, ?fourthError, ?clockStop, ?overload, ?shrTaken, ?shrCaptures, ?phrFails, ?phrPasses, ?psduPushed,
    ?psduOverflows, ?frameEnds, ?frameEndOverflows, ?overflowTrailer, ?blankingStart, ?blankingEnd⟩
  case inSequence =>
    intro p x s hup hblank hagree hseq
    have hfirst : ∀ q, (rfp s p).seq = some q → q + 1 = x.status.setWidth 8 := by simp [hseq]
    have hport := congrArg (rfp · p) (iqSlot_of_in_sequence hup hblank hagree hfirst)
    simp only [raiseIf_keeps (rfp · p) (by intros; rfl), setRf_rfp] at hport
    refine ⟨iqSlot p x s, rfl, ?_⟩
    rw [hport]
    exact ⟨rfl, rfl, rfl, fun hvalid => if_pos hvalid, rfl⟩
  case slotError =>
    intro p x s hup hblank hcopy hfew
    obtain ⟨seq, hslot⟩ := iqSlot_of_disagreeing hup hblank hcopy
    refine ⟨_, congrArg Host.Outcome.next (hslot.trans (if_neg (Nat.not_le.2 hfew))), ?_⟩
    rw [setRf_rfp]
    exact ⟨rfl, rfl, rfl⟩
  case fourthError =>
    intro p x s hup hblank hcopy hmany
    obtain ⟨seq, hslot⟩ := iqSlot_of_disagreeing hup hblank hcopy
    exact ⟨_, congrArg Host.Outcome.next (hslot.trans (if_pos hmany)), portDown_facts p _⟩
  case clockStop => exact fun p s hup => ⟨_, congrArg Host.Outcome.next (if_pos hup), portDown_facts p s⟩
  case overload => exact fun p s hup => congrArg Host.Outcome.next (if_pos hup)
  case shrTaken => exact fun l pw h s hdetect hfits hrx => congrArg Host.Outcome.next (shrDetect_of_idle pw hdetect hfits hrx)
  case shrCaptures =>
    exact fun l pw h w d s hdetect hfits hrx hdb => congrArg Host.Outcome.next (shrDetect_of_stronger hdetect hfits hrx hdb)
  case phrFails => exact fun l v phr s hrx hms => congrArg Host.Outcome.next (phrDecode_of_mode_switch hrx hms)
  case phrPasses =>
    intro l v phr s hrx hms hfcs hmode hlen hroom
    refine ⟨_, congrArg Host.Outcome.next (phrDecode_of_long_fcs hrx hms hfcs hmode hlen hroom), ?_⟩
    rw [setLane_lane]
    exact ⟨rfl, rfl, rfl⟩
  case psduPushed =>
    intro l left word s hrx hleft hroom
    refine ⟨_, congrArg Host.Outcome.next (psduWord_of_room word hrx hleft hroom), ?_⟩
    rw [setLane_lane]
    exact ⟨rfl, rfl, rfl⟩
  case psduOverflows => exact fun l left word s hrx hleft hfull => congrArg Host.Outcome.next (psduWord_of_full word hrx hleft hfull)
  case frameEnds =>
    intro l fin s hrx hroom
    refine ⟨frameEnd l fin s, rfl, ?_⟩
    rw [frameEnd_of_room_lane fin hrx hroom]
    exact ⟨rfl, frameEnd_of_room_now fin hrx hroom, countFrame_good _ _ _ _, countFrame_crcBad _ _ _ _, rfl⟩
  case frameEndOverflows => exact fun l fin s hrx hfull => congrArg Host.Outcome.next (frameEnd_of_full fin hrx hfull)
  case overflowTrailer => exact fun l fin s hrx hroom => congrArg Host.Outcome.next (overflowTrailer_of_room fin hrx hroom)
  case blankingStart =>
    exact fun p t s hup hnow hfree hstart => congrArg Host.Outcome.next (blankingStart_of_mayStart hup hnow hfree hstart)
  case blankingEnd =>
    exact fun p s hp hblanks hdone => congrArg Host.Outcome.next (blankingEnd_of_blanking hp hblanks hdone)

end

section
/-! The lane opcodes and the lane's switch (R82 to R84, R90, R91, R525, R526): one rule per case, then O22. -/

namespace Sys2Proof.Machine

/-! ### LANE_ASSIGN -/

/-- R44: the lane table is not touched while a commit runs. -/
theorem laneAssign_of_committing (r : Req) {s : State} (h : s.cfg.state = .committing) : laneAssign r s = .wait s := by
  simp [laneAssign, h]

theorem ne_committing_of_inWindowState {s : State} (h : inWindowState s = true) : s.cfg.state ≠ .committing := by
  intro hcom
  simp [inWindowState, hcom] at h

theorem inWindowState_of_committed {s : State} (h : s.cfg.state = .committed) : inWindowState s = false := by
  simp [inWindowState, h]

/-- Log 66: a batch of no entry. -/
theorem laneAssign_of_none {r : Req} {s : State} (hcom : s.cfg.state ≠ .committing) (hok : AssignOk (inWindowState s) r s = true)
    (hcount : rd r.payload 0 2 = 0) : laneAssign r s = replyOk s (le 8 0) :=
  (laneAssign_eq r s hcom hok).trans (if_pos hcount)

/-- R83: the window's lane table with the entries of a batch. -/
def assignWindow (r : Req) (w : Window) : Window :=
  { w with lanes := (assignEntries r).foldl (fun (t : Tbl LaneAsg) e => tset t e.1 e.2.1) w.lanes }

/-- R83: a batch in an open window. -/
theorem laneAssign_of_window {r : Req} {w : Window} {s : State} (hwin : inWindowState s = true) (hw : s.cfg.window = some w)
    (hok : AssignOk true r s = true) (hcount : 0 < rd r.payload 0 2) :
    laneAssign r s = replyOk { s with cfg.window := some (assignWindow r w) } (le 8 0) := by
  rw [laneAssign_eq r s (ne_committing_of_inWindowState hwin) (by rwa [hwin]), if_neg hcount.ne', if_pos hwin, hw]
  rfl

/-- R84: outside a window each lane is given its next assignment, and the lanes that ask for it are forced. -/
def lanesAssigned (r : Req) (s : State) : State :=
  (assignEntries r).foldl (fun s e => if e.2.2 then forceLane e.1 s else s)
    ((assignEntries r).foldl (fun s e => setLane e.1 (fun x => { x with next := some e.2.1 }) s) s)

/-- R84: every lane of a batch has switched. -/
def batchSwitched (r : Req) (s : State) : Bool := (assignEntries r).all (fun e => (lane s e.1).next.isNone)

/-- R83, R84: a batch outside a window. -/
theorem laneAssign_of_committed {r : Req} {s : State} (hcom : s.cfg.state = .committed) (hok : AssignOk false r s = true)
    (hcount : 0 < rd r.payload 0 2) :
    laneAssign r s = if batchSwitched r (lanesAssigned r s) then .twice (lanesAssigned r s) .ok (le 8 (lanesAssigned r s).now)
      else .pend (lanesAssigned r s) [.lanes] := by
  have hwin := inWindowState_of_committed hcom
  rw [laneAssign_eq r s (by simp [hcom]) (by rwa [hwin]), if_neg hcount.ne', if_neg (ne_true_of_eq_false hwin)]
  rfl

/-- R83, R84: a batch outside a window is answered with OK where every lane has switched, and stays PENDING where one has not. -/
theorem serve_laneAssign_of_committed {r : Req} {s : State} (h : Served laneAssignService r s = true) (hcom : s.cfg.state = .committed)
    (hok : AssignOk false r s = true) (hcount : 0 < rd r.payload 0 2) :
    serve laneAssignService r s =
      if batchSwitched r (lanesAssigned r (taken r s)) then
        answer 0x0210 r .ok (le 8 (lanesAssigned r (taken r s)).now) (answer 0x0210 r .pending [] (lanesAssigned r (taken r s)))
      else begun 0x0210 r [.lanes] (lanesAssigned r (taken r s)) := by
  have hrun := laneAssign_of_committed (s := taken r s) hcom hok hcount
  cases hswitched : batchSwitched r (lanesAssigned r (taken r s)) with
  | true => exact serve_twice laneAssignService r s _ _ _ h (hrun.trans (if_pos hswitched))
  | false => exact serve_pend laneAssignService r s _ _ h (hrun.trans (if_neg (ne_true_of_eq_false hswitched)))

/-! ### The lane's switch -/

theorem switchLane_of_next {l : Nat} {a : LaneAsg} {s : State} (h : (lane s l).next = some a) :
    switchLane l s = setLane l (fun x => { x with asg := a, next := none }) s := by
  simp only [switchLane, h]

theorem dropShadow_of_none (l : Nat) {s : State} (h : s.rot.shadow = none) : dropShadow l s = s := by
  simp only [dropShadow, h]

/-- R84: the idle point of a lane with an assignment waiting, that has no shadow. -/
theorem laneSwitch_of_idle {l : Nat} {a : LaneAsg} {s : State} (hnext : (lane s l).next = some a) (hrx : (lane s l).rx = .idle)
    (hshadow : s.rot.shadow = none) : laneSwitch l s = finishAssigns (setLane l (fun x => { x with asg := a, next := none }) s) := by
  rw [laneSwitch, if_pos (by simp [hnext, hrx]), dropShadow_of_none l hshadow, switchLane_of_next hnext]

/-! ### The reports -/

/-- The lanes that a request names (R525). -/
def lanesNamed (p : List Byte) : List Nat := (List.range (rd p 2 2)).map (fun i => rd p 0 2 + i)

theorem lanesNamed_of_one {p : List Byte} (h : rd p 2 2 = 1) : lanesNamed p = [rd p 0 2] := by
  simp [lanesNamed, h]

section Table
variable {r : Req} {s : State} (hcount : rd r.payload 2 2 ≤ 256) (hend : rd r.payload 0 2 + rd r.payload 2 2 ≤ 256)
  (hzero : zeroAt r.payload 5 1 = true)
include hcount hend hzero

/-- R82, R526: the active table. -/
theorem laneTableGet_of_active (hsrc : rd r.payload 4 1 = 0) :
    laneTableGet r s = replyOk s ((lanesNamed r.payload).map (fun l =>
      asgBytes l (if s.laneCount ≤ l then {} else (lane s l).asg))).flatten := by
  simp [laneTableGet, laneRange_ok r.payload 256 hcount hend, hsrc, hzero, lanesNamed]

/-- R526: the window's table where no window is open. -/
theorem laneTableGet_of_no_window (hsrc : rd r.payload 4 1 = 1) (hw : s.cfg.window = none) : laneTableGet r s = refuse s .badState := by
  simp [laneTableGet, laneRange_ok r.payload 256 hcount hend, hsrc, hzero, hw]

end Table

/-- R69, R90: the state in which the noise floor of every served lane of the request is measured. -/
def noiseMeasured (r : Req) (s : State) : State := measureNoise ((lanesNamed r.payload).filter (fun l => l < s.laneCount)) s

theorem laneStatsGet_of_range {r : Req} {s : State} (hcount : rd r.payload 2 2 ≤ 64) (hend : rd r.payload 0 2 + rd r.payload 2 2 ≤ 256) :
    laneStatsGet r s = replyOk (noiseMeasured r s) ((lanesNamed r.payload).map (laneStats (noiseMeasured r s))).flatten := by
  rw [laneStatsGet, laneRange_ok r.payload 64 hcount hend]
  rfl

/-- R84: the statistics of every served lane of a list are cleared. -/
def statsCleared (ls : List Nat) (s : State) : State := ls.foldl (fun s l => if l < s.laneCount then setLane l clearStats s else s) s

theorem statsCleared_of_one {l : Nat} {s : State} (h : l < s.laneCount) : statsCleared [l] s = setLane l clearStats s :=
  if_pos h

theorem laneStatsClear_of_range {r : Req} {s : State} (hcount : rd r.payload 2 2 ≤ 256)
    (hend : rd r.payload 0 2 + rd r.payload 2 2 ≤ 256) : laneStatsClear r s = replyOk (statsCleared (lanesNamed r.payload) s) := by
  rw [laneStatsClear, laneRange_ok r.payload 256 hcount hend]
  rfl

theorem laneStatsClear_of_one {r : Req} {s : State} (hone : rd r.payload 2 2 = 1) (hlane : rd r.payload 0 2 < s.laneCount)
    (hlanes : s.laneCount ≤ 256) : laneStatsClear r s = replyOk (setLane (rd r.payload 0 2) clearStats s) := by
  rw [laneStatsClear_of_range (by omega) (by omega), lanesNamed_of_one hone, statsCleared_of_one hlane]

end Sys2Proof.Machine

open Sys2Proof Sys2Proof.Machine

/-- Settles O22, clause by clause, from the rule of each case. -/
theorem laneOpcodeEffects : Obligations.LaneOpcodeEffects := by
  unfold Obligations.LaneOpcodeEffects
  refine ⟨?assignWaits, ?assignWindow, ?assignLanes, ?assignNone, ?switch, ?table, ?tableNoWindow, ?stats, ?clearOne, ?clear, ?ports⟩
  case assignWaits =>
    exact fun r s h hcom => congrArg Host.Outcome.next
      (serve_wait laneAssignService r s _ h (laneAssign_of_committing r (s := taken r s) hcom))
  case assignWindow =>
    exact fun r w s h hwin hw hok hcount => next_serve_done h (laneAssign_of_window (s := taken r s) hwin hw hok hcount)
  case assignLanes =>
    exact fun r s h hcom hok hcount => congrArg Host.Outcome.next (serve_laneAssign_of_committed h hcom hok hcount)
  case assignNone =>
    exact fun r s h hcom hok hcount => next_serve_done h (laneAssign_of_none (s := taken r s) hcom hok hcount)
  case switch => exact fun l a s hnext hrx hshadow => congrArg Host.Outcome.next (laneSwitch_of_idle hnext hrx hshadow)
  case table =>
    exact fun r s h hcount hend hsrc hzero => next_serve_done h (laneTableGet_of_active (s := taken r s) hcount hend hzero hsrc)
  case tableNoWindow =>
    exact fun r s h hcount hend hsrc hzero hw =>
      next_serve_done h (laneTableGet_of_no_window (s := taken r s) hcount hend hzero hsrc hw)
  case stats => exact fun r s h hcount hend => next_serve_done h (laneStatsGet_of_range (s := taken r s) hcount hend)
  case clearOne =>
    exact fun r s h hone hlane hlanes => next_serve_done h (laneStatsClear_of_one (s := taken r s) hone hlane hlanes)
  case clear => exact fun r s h hcount hend => next_serve_done h (laneStatsClear_of_range (s := taken r s) hcount hend)
  case ports => exact fun r s h => next_serve_done h rfl

end

section
/-! The air-access opcodes (R103, R125, R126, R128): one rule per case of each opcode, then O36. -/

namespace Sys2Proof.Machine

/-! ### Band profiles -/

/-- R103: the sub-bands that a BAND_PROFILE_SET gives, in order. -/
def givenSubs (p : List Byte) : List SubBand := (List.range (rd p 1 1)).map (fun k => readSub p (4 + 32 * k))

/-- R103: a well-formed list replaces the profile of the open window. -/
theorem bandProfileSet_of_window {r : Req} {w : Window} {s : State} (hi : rd r.payload 0 1 ≤ 7) (hpos : 1 ≤ rd r.payload 1 1)
    (hle : rd r.payload 1 1 ≤ 8) (hzero : zeroAt r.payload 2 2 = true)
    (hok : (List.range (rd r.payload 1 1)).all (fun k => subOk r.payload (4 + 32 * k)) = true)
    (hapart : subsOverlap (givenSubs r.payload) = false) (hw : s.cfg.window = some w) :
    bandProfileSet r s = replyOk { s with cfg.window := some { w with
      profiles := tset w.profiles (rd r.payload 0 1) ((List.range (rd r.payload 1 1)).zip (givenSubs r.payload)) } } := by
  have hn : rd r.payload 1 1 ≠ 0 := by omega
  unfold givenSubs at *
  simp only [bandProfileSet, hzero, hok, hapart, hw, if_neg hn]
  exact if_neg (by simp; omega)

theorem bandProfileGet_of_known {r : Req} {s : State} (hi : rd r.payload 0 1 ≤ 7) (hsrc : rd r.payload 1 1 ≤ 1)
    (hwin : rd r.payload 1 1 = 1 → s.cfg.window.isSome = true) :
    bandProfileGet r s = replyOk s (le 1 (profileIn s (rd r.payload 1 1) (rd r.payload 0 1)).length ++ le 3 0 ++
      ((profileIn s (rd r.payload 1 1) (rd r.payload 0 1)).map (fun x => subBytes x.2)).flatten) := by
  have hopen : ¬ (decide (rd r.payload 1 1 = 1) && s.cfg.window.isNone) = true := by
    simp only [Bool.and_eq_true, decide_eq_true_eq, not_and]
    intro h
    simp [← Option.not_isSome, hwin h]
  unfold bandProfileGet
  rw [if_neg (by simp; omega), if_neg hopen]

/-- R103: the window's profile where no window is open. -/
theorem bandProfileGet_of_no_window {r : Req} {s : State} (hi : rd r.payload 0 1 ≤ 7) (hsrc : rd r.payload 1 1 = 1)
    (hw : s.cfg.window = none) : bandProfileGet r s = refuse s .badState := by
  unfold bandProfileGet
  rw [if_neg (by simp; omega), if_pos (by simp [hsrc, hw])]

/-! ### The port reports -/

theorem dutyStatusGet_of_port {r : Req} {p : Nat} {s : State} (hp : portField r.payload = some p) :
    dutyStatusGet r s = replyOk s (((List.range 8).map (fun sb => if ((profOf s p).getD []).any (fun x => x.1 == sb) then
        le 4 (usedOf s p sb .beacon) ++ le 4 (usedOf s p sb .ack) ++ le 4 (usedOf s p sb .downlink) ++ le 4 (acct s p sb).dwellRefused.toNat
      else le 16 0)).flatten) := by
  simp only [dutyStatusGet, hp]

theorem sectorStatusGet_of_port {r : Req} {p : Nat} {s : State} (hp : portField r.payload = some p) :
    sectorStatusGet r s = replyOk s (le 1 (sectorCode (secp s p).state) ++ le 1 (secp s p).misses ++ le 2 0 ++
      le 4 (secp s p).sent.toNat ++ le 4 (secp s p).missed.toNat ++ le 4 (secp s p).custody.length ++
      le 1 (((secp s p).custody.head?.map (fun e => min e.carry 255)).getD 0) ++ le 3 0 ++ le 4 (secp s p).acksSent.toNat ++
      ((List.range 7).map (fun i => le 4 (tget (secp s p).suppr i 0).toNat)).flatten ++ le 4 (connections s p) ++ le 8 0) := by
  simp only [sectorStatusGet, hp]
  cases (secp s p).custody <;> rfl

/-! ### CONNECT_OPEN -/

theorem handleWord_of_handle {p : List Byte} {o : Nat} (h : rd p o 4 < 2 ^ 20) : handleWord p o = some (rd p o 4) :=
  if_neg (Nat.not_le.2 h)

/-- R125, R128: the fields of a CONNECT_OPEN for a radio endpoint e lie in their ranges, and the port transmits on a map of at least two
channels. -/
structure OpenFields (p : List Byte) (e : Endpoint) (s : State) : Prop where
  handle : rd p 0 4 < 2 ^ 20
  enrolled : ep? s (rd p 0 4) = some e
  radio : e.plc = false
  port : rd p 4 1 ≤ 7
  code : rd p 5 1 ≤ 9
  reserved : zeroAt p 6 2 = true
  supervision_ge : 3 * 125 * 2 ^ rd p 5 1 ≤ rd p 8 4
  supervision_le : rd p 8 4 ≤ 3600000
  open_pos : 1 ≤ rd p 12 4
  open_le : rd p 12 4 ≤ 86400
  transmits : secVal s (rd p 4 1) 0xA ≠ 0xFF
  channels : 2 ≤ (mapChannels (secVal s (rd p 4 1) 8) (secVal s (rd p 4 1) 9)).length

/-- R125: the endpoint as an accepted CONNECT_OPEN leaves it, at engine time now. -/
def opened (p : List Byte) (now : Nat) (e : Endpoint) : Endpoint :=
  { e with air := .opening, connPort := rd p 4 1, connCode := rd p 5 1, connSupervMs := rd p 8 4, openDeadline := now + tSec (rd p 12 4),
           connectSent := false, closing := false, update := none, missed := 0, evcnt := 0 }

/-- R125: what an accepted CONNECT_OPEN leaves. -/
def openListed (p : List Byte) (s : State) : State :=
  setSec (rd p 4 1) (fun x => { x with pendList := x.pendList ++ [(rd p 0 4, s.mono)] }) (updEp (rd p 0 4) (opened p s.now) s)

/-- Past its fields, a CONNECT_OPEN is decided by the endpoint's air state and the number of endpoints pinned. -/
theorem connectOpen_of_fields {r : Req} {e : Endpoint} {s : State} (h : OpenFields r.payload e s) :
    connectOpen r s =
      if e.air == .opening || e.air == .connected then refuse s .badState
      else if 8192 ≤ pinnedCount s then refuse s .noResource else replyOk (openListed r.payload s) := by
  obtain ⟨hh, he, hplc, hport, hcode, hres, hlo, hhi, hpos, hmax, hprof, hch⟩ := h
  simp only [connectOpen, handleWord_of_handle hh, he]
  rw [if_neg (by simp [hplc, hres, hprof]; omega)]
  rfl

theorem ep?_openListed {p : List Byte} {e : Endpoint} {s : State} (he : ep? s (rd p 0 4) = some e) :
    ep? (openListed p s) (rd p 0 4) = some (opened p s.now e) :=
  ep?_updEp (rd p 0 4) _ e s he

theorem openListed_pendList (p : List Byte) (s : State) :
    (secp (openListed p s) (rd p 4 1)).pendList = (secp s (rd p 4 1)).pendList ++ [(rd p 0 4, s.mono)] := by
  rw [openListed, setSec_secp, updEp_keeps (fun u => secp u (rd p 4 1)) (by intros; rfl)]

/-! ### CONNECT_CLOSE and AIR_STATE_GET -/

section Handle
variable {r : Req} {e : Endpoint} {s : State} (hh : rd r.payload 0 4 < 2 ^ 20) (he : ep? s (rd r.payload 0 4) = some e)
include hh he

/-- R125: an opening ends at once. -/
theorem connectClose_of_opening (hair : e.air = .opening) :
    connectClose r s = replyOk (endConnection (rd r.payload 0 4) outClosed .tracking s) := by
  simp [connectClose, handleWord_of_handle hh, he, hair]

/-- R126: a connection closes with its next event. -/
theorem connectClose_of_connected (hair : e.air = .connected) :
    connectClose r s = replyOk (updEp (rd r.payload 0 4) (fun e => { e with closing := true }) s) := by
  simp [connectClose, handleWord_of_handle hh, he, hair]

theorem connectClose_of_no_connection (hopening : e.air ≠ .opening) (hconnected : e.air ≠ .connected) :
    connectClose r s = refuse s .badState := by
  simp [connectClose, handleWord_of_handle hh, he, hopening, hconnected]

theorem airStateGet_of_enrolled :
    airStateGet r s = replyOk (touch (rd r.payload 0 4) s) (le 1 (airCode e.air) ++ le 1 e.connOutcome ++ le 1 e.connPort ++ le 1 e.connCode
      ++ le 2 e.evcnt ++ le 2 e.missed ++ le 4 (e.lastGood / 2 ^ 24) ++ le 4 (supLeft s e)) := by
  simp [airStateGet, handleWord_of_handle hh, he]

end Handle

theorem airStateGet_of_not_enrolled {r : Req} {s : State} (he : ep? s (rd r.payload 0 4) = none) : airStateGet r s = refuse s .badParam := by
  by_cases hh : rd r.payload 0 4 < 2 ^ 20
  · simp [airStateGet, handleWord_of_handle hh, he]
  · have hword : handleWord r.payload 0 = none := if_pos (Nat.not_lt.1 hh)
    simp [airStateGet, hword]

end Sys2Proof.Machine

open Sys2Proof Sys2Proof.Machine

/-- Settles O36, clause by clause, from the rule of each case. -/
theorem airOpcodeEffects : Obligations.AirOpcodeEffects := by
  unfold Obligations.AirOpcodeEffects
  refine ⟨?profileSet, ?profileGet, ?profileNoWindow, ?duty, ?sector, ?connectOpen, ?connectClose, ?airState, ?airUnknown⟩
  case profileSet =>
    exact fun r w s h hi hpos hle hzero hok hapart hw =>
      ⟨_, rfl, next_serve_done h (bandProfileSet_of_window (s := taken r s) hi hpos hle hzero hok hapart hw)⟩
  case profileGet => exact fun r s h hi hsrc hwin => next_serve_done h (bandProfileGet_of_known (s := taken r s) hi hsrc hwin)
  case profileNoWindow => exact fun r s h hi hsrc hw => next_serve_done h (bandProfileGet_of_no_window (s := taken r s) hi hsrc hw)
  case duty => exact fun r p s h hp => next_serve_done h (dutyStatusGet_of_port (s := taken r s) hp)
  case sector => exact fun r p s h hp => next_serve_done h (sectorStatusGet_of_port (s := taken r s) hp)
  case connectOpen =>
    rintro r _ _ _ _ _ e s h rfl rfl rfl rfl rfl hh hport hcode hres hlo hhi hpos hmax hprof hch he hplc
    have hrun := connectOpen_of_fields (r := r) (s := taken r s) ⟨hh, he, hplc, hport, hcode, hres, hlo, hhi, hpos, hmax, hprof, hch⟩
    refine ⟨fun hair => ?_, fun hopening hconnected hfull => ?_, fun hopening hconnected hroom => ?_⟩
    · exact next_serve_done h (hrun.trans (if_pos (by simpa using hair)))
    · exact next_serve_done h (hrun.trans ((if_neg (by simp [hopening, hconnected])).trans (if_pos hfull)))
    · refine ⟨_, next_serve_done h (hrun.trans ((if_neg (by simp [hopening, hconnected])).trans (if_neg (Nat.not_le.2 hroom)))), ?_, ?_⟩
      · exact ⟨_, ep?_openListed (s := taken r s) he, rfl, rfl, rfl, rfl, rfl⟩
      · exact openListed_pendList _ _
  case connectClose =>
    rintro r _ e s h rfl hh he
    refine ⟨fun hair => ?_, fun hair => ?_, fun hopening hconnected => ?_⟩
    · exact next_serve_done h (connectClose_of_opening (s := taken r s) hh he hair)
    · exact ⟨_, next_serve_done h (connectClose_of_connected (s := taken r s) hh he hair), ep?_updEp _ _ e _ he⟩
    · exact next_serve_done h (connectClose_of_no_connection (s := taken r s) hh he hopening hconnected)
  case airState =>
    rintro r _ e s h rfl hh he
    exact next_serve_done h (airStateGet_of_enrolled (s := taken r s) hh he)
  case airUnknown => exact fun r s h he => next_serve_done h (airStateGet_of_not_enrolled (s := taken r s) he)

end

section
/-! Transmission on air (R104 to R127): one rule per case of each command, then O37. -/

namespace Sys2Proof.Machine

/-! ### A beacon falls due -/

/-- R104: a fresh beacon whose instant is still to come falls due then, where none was due before it. -/
theorem beaconDue_of_fresh {q b : Nat} {s : State} (htx : transmits s q = true) (hfresh : beaconFresh s q b = true)
    (htc : s.cfg.lastTc ≤ beaconAt s q b) (hnow : s.now ≤ beaconAt s q b) (hdue : (secp s q).due = none) :
    beaconDue q b s = beaconOpen q b (advTo (beaconAt s q b) s) := by
  simp [beaconDue, beaconMiss, htx, hfresh, htc, hnow, hdue]

/-- R105: the pending handles that a beacon's frozen content names. -/
theorem freeze_pending (q via b : Nat) (s : State) : (freeze q via b s).1.pending = (pendingOf s q).take 128 := rfl

/-- R105, R108: the beacon as it waits for its port. -/
def openedBeacon (q b : Nat) (s : State) : DueBeacon :=
  { bnum := b, at_ := beaconAt s q b, viaPort := viaOf s q, content := some (freeze q (viaOf s q) b s).1,
    lbt := lbtStart s (viaOf s q) (viaChannel s q (viaOf s q) (anchorOf s q b)).2 }

theorem beaconOpen_due (q b : Nat) (s : State) : (secp (beaconOpen q b s) q).due = some (openedBeacon q b s) := by
  rw [beaconOpen, setSec_secp]
  rfl

theorem beaconOpen_lastB (q b : Nat) (s : State) : (secp (beaconOpen q b s) q).lastB = some b := by
  rw [beaconOpen, setSec_secp]

/-! ### A beacon is missed -/

theorem beaconMiss_of_due {q : Nat} {d : DueBeacon} {s : State} (hdue : (secp s q).due = some d) :
    beaconMiss q s = beaconMissed q d (advTo (beaconLimit s q d) s) := by
  simp only [beaconMiss, hdue]

/-- R105: the custody entry stands in the content of the due beacon. -/
def inFrozen (d : DueBeacon) (e : CustodyEntry) : Bool :=
  match d.content with
  | some c => amongCustody (c.beacon ++ c.train.flatten) e
  | none => false

/-- R104, R105: what every miss leaves, however many went before it: it is counted, and the beacon's entries carry over. -/
def missCounted (q : Nat) (d : DueBeacon) (s : State) : State :=
  deepOpen q d.bnum (carryAll q (fun e => !e.deep && inFrozen d e) (setSec q (fun x => { x with due := none, missed := x.missed + 1 }) s))

theorem missCounted_secp (q : Nat) (d : DueBeacon) (s : State) :
    ∃ cs dd dl, secp (missCounted q d s) q =
      { secp s q with due := none, missed := (secp s q).missed + 1, custody := cs, deepDue := dd, deepLbt := dl } := by
  obtain ⟨cs, hcarry⟩ := carryAll_secp q (fun e => !e.deep && inFrozen d e) (setSec q (fun x => { x with due := none, missed := x.missed + 1 }) s)
  obtain ⟨cs', dd, dl, hopen⟩ := deepOpen_secp q d.bnum
    (carryAll q (fun e => !e.deep && inFrozen d e) (setSec q (fun x => { x with due := none, missed := x.missed + 1 }) s))
  rw [hcarry, setSec_secp] at hopen
  exact ⟨cs', dd, dl, hopen⟩

theorem missCounted_state (q : Nat) (d : DueBeacon) (s : State) : (secp (missCounted q d s) q).state = (secp s q).state := by
  obtain ⟨cs, dd, dl, h⟩ := missCounted_secp q d s
  rw [h]

theorem missCounted_misses (q : Nat) (d : DueBeacon) (s : State) : (secp (missCounted q d s) q).misses = (secp s q).misses := by
  obtain ⟨cs, dd, dl, h⟩ := missCounted_secp q d s
  rw [h]

theorem missCounted_due (q : Nat) (d : DueBeacon) (s : State) : (secp (missCounted q d s) q).due = none := by
  obtain ⟨cs, dd, dl, h⟩ := missCounted_secp q d s
  rw [h]

theorem missCounted_missed (q : Nat) (d : DueBeacon) (s : State) : (secp (missCounted q d s) q).missed = (secp s q).missed + 1 := by
  obtain ⟨cs, dd, dl, h⟩ := missCounted_secp q d s
  rw [h]

/-- R127: what the third miss in a row leaves before the sector changes its state. -/
def missRecorded (q : Nat) (reasons : List Nat) (s : State) : State :=
  raise 0x24 (record rcBeaconMissed (le 4 q ++ (reasons.map (le 1)).flatten) (setSec q (fun x => { x with misses := 0, reasons := [] }) s))

theorem missRecorded_secp (q : Nat) (reasons : List Nat) (s : State) :
    secp (missRecorded q reasons s) q = { secp s q with misses := 0, reasons := [] } := by
  rw [missRecorded, raise_keeps (fun u => secp u q) (by intros; rfl), record_keeps (fun u => secp u q) (by intros; rfl), setSec_secp]

theorem missRecorded_pend (q : Nat) (reasons : List Nat) (s : State) : (missRecorded q reasons s).evt.pend.getLsbD 0x24 = true :=
  raise_set 0x24 _ (by decide) (by decide)

/-- R127, Table 05-10: the state that a normal sector goes to with its third miss. -/
def stateAfterThird (s : State) (q : Nat) : SectorState := if fallbackWorks s q then .fallback else .degraded

theorem stateAfterThird_ne_normal (s : State) (q : Nat) : stateAfterThird s q ≠ .normal := by
  unfold stateAfterThird
  split <;> decide

section Miss
variable {q : Nat} {d : DueBeacon} {s : State} (hnormal : (secp s q).state = .normal) (hreason : missReason s d ≠ missBudget)
include hnormal hreason

/-- R127: neither the retry of a fallback sector nor a miss for a preset budget. -/
theorem beaconMissed_of_normal :
    beaconMissed q d s =
      if (secp (missCounted q d s) q).misses + 1 < 3 then
        setSec q (fun x => { x with misses := (secp (missCounted q d s) q).misses + 1
                                    reasons := (secp (missCounted q d s) q).reasons ++ [missReason s d] }) (missCounted q d s)
      else
        setSector q (stateAfterThird (missRecorded q ((secp (missCounted q d s) q).reasons ++ [missReason s d]) (missCounted q d s)) q)
          (missRecorded q ((secp (missCounted q d s) q).reasons ++ [missReason s d]) (missCounted q d s)) := by
  have hstate : (secp (missCounted q d s) q).state = .normal := (missCounted_state q d s).trans hnormal
  have hnoRetry : ¬ (decide ((secp (missCounted q d s) q).state = .fallback) && decide (d.viaPort = q)) = true := by simp [hstate]
  unfold beaconMissed
  dsimp only
  generalize hcounted : deepOpen q d.bnum _ = u
  obtain rfl : u = missCounted q d s := hcounted.symm
  rw [if_neg hnoRetry, if_neg (by simp [hreason]), hstate]
  rfl

/-- R127: the first and the second miss in a row. -/
theorem beaconMissed_of_few (hfew : (secp s q).misses + 1 < 3) :
    ∃ rs, beaconMissed q d s = setSec q (fun x => { x with misses := (secp s q).misses + 1, reasons := rs }) (missCounted q d s) := by
  rw [beaconMissed_of_normal hnormal hreason, missCounted_misses, if_pos hfew]
  exact ⟨_, rfl⟩

/-- R127: the third miss in a row. -/
theorem beaconMissed_of_third (hthird : 3 ≤ (secp s q).misses + 1) :
    ∃ rs, beaconMissed q d s =
      setSector q (stateAfterThird (missRecorded q rs (missCounted q d s)) q) (missRecorded q rs (missCounted q d s)) := by
  rw [beaconMissed_of_normal hnormal hreason, missCounted_misses, if_neg (Nat.not_lt.2 hthird)]
  exact ⟨_, rfl⟩

end Miss

/-- R127: a sector that changes its state keeps what it has due and counted, and starts its misses anew. -/
theorem setSector_secp_of_other {q : Nat} {st : SectorState} {s : State} (h : (secp s q).state ≠ st) :
    secp (setSector q st s) q = { secp s q with state := st, misses := 0, reasons := [], fbIntervals := 0, tryOwn := false } := by
  rw [setSector, if_neg h, raise_keeps (fun u => secp u q) (by intros; rfl), setSec_secp]

theorem setSector_keepbit {q i : Nat} (st : SectorState) {s : State} (h : s.evt.pend.getLsbD i = true) :
    (setSector q st s).evt.pend.getLsbD i = true := by
  unfold setSector
  split
  · exact h
  · exact raise_keepbit 0x25 i _ h

/-! ### A beacon starts -/

/-- R29: what a beacon still carries of its frozen content: no custody entries while the journal takes no commit. -/
def carriedContent (f : BeaconContent) (s : State) : BeaconContent := if s.jnl.noCustody then withoutCustody f else f

/-- R104: the due beacon d of sector q, frozen as f, has been cleared to start at t on the sector's own port. -/
structure BeaconReady (q t : Nat) (d : DueBeacon) (f : BeaconContent) (s : State) : Prop where
  due : (secp s q).due = some d
  content : d.content = some f
  clear : d.lbt = none
  blank : blankFits s q t = true
  after : d.at_ ≤ t
  before : t ≤ beaconLimit s q d
  now_le : s.now ≤ t
  ownPort : d.viaPort = q

/-- R111, R114, R115: at the instant of the state the port is free and no rule refuses the beacon with content c. -/
structure BeaconAllowed (q : Nat) (d : DueBeacon) (c : BeaconContent) (s : State) : Prop where
  up : rfUp s q = true
  idle : (secp s q).tx = none
  receiving : (rfp s q).state = .receiving
  rule : txRule s q (viaChannel s q q (anchorOf s q d.bnum)).1 (viaChannel s q q (anchorOf s q d.bnum)).2 .beacon
    (trainUs (secVal s q 3) c.pending.length c.beacon c.train) false = none

/-- R106, 13 R354: as many CUSTODY frames follow the beacon as the key slot gives uses for. -/
theorem beaconTx_of_allowed {q t : Nat} {d : DueBeacon} {f : BeaconContent} {u : State} {k0 : List Byte} {ks : List (List Byte)} {s : State}
    (hready : BeaconReady q t d f s) (hallowed : BeaconAllowed q d (carriedContent f s) (advTo t s))
    (hkeys : takeKeys (secVal (advTo t s) q 7) (1 + (carriedContent f s).train.length) (advTo t s) = (u, k0 :: ks)) :
    ∃ ch edges us carried frames w, beaconTx q t s = beaconSent q d (startTx q ch edges .beacon q us 0 carried frames (carryAll q w u)) ∧
      frames.length = 1 + min ks.length (carriedContent f s).train.length := by
  obtain ⟨hdue, hcontent, hclear, hblank, hafter, hbefore, hnow, rfl⟩ := hready
  obtain ⟨hup, hidle, hreceiving, hrule⟩ := hallowed
  have hinWindow : ¬ (d.lbt.isSome || decide (t < d.at_) || decide (beaconLimit s d.viaPort d < t) || decide (t < s.now)
      || !blankFits s d.viaPort t) = true := by
    simp [hclear, hblank]
    omega
  have hfree : ¬ ((secp (advTo t s) d.viaPort).tx.isSome || (rfp (advTo t s) d.viaPort).state != .receiving
      || (d.viaPort != d.viaPort && (secp (advTo t s) d.viaPort).due.isSome)) = true := by
    simp [hidle, hreceiving]
  unfold carriedContent at *
  simp only [beaconTx, hdue, hcontent, if_neg hinWindow, hup, Bool.not_true, Bool.false_eq_true, if_false, if_neg hfree, hrule,
    hkeys]
  refine ⟨_, _, _, _, _, _, rfl, ?_⟩
  simp [cutTrain]
  omega

theorem fallbackRetry_of_waited {q : Nat} {s : State} (hfallback : (secp s q).state = .fallback) (hwaited : 16 ≤ (secp s q).fbIntervals) :
    fallbackRetry q s = setSec q (fun x => { x with tryOwn := true, fbIntervals := 0 }) s := by
  simp [fallbackRetry, hfallback, hwaited]

/-! ### The DEEP_BEACON -/

/-- R106: the sector's DEEP_BEACON is taken up, sent or not. -/
def deepTaken (q : Nat) (s : State) : State := setSec q (fun x => { x with deepDue := none }) s

/-- R106: the custody entries that the DEEP_BEACON carries. -/
def deepEntries (q : Nat) (s : State) : List CustodyEntry :=
  (if s.jnl.noCustody then [] else (secp s q).custody.filter (fun e => e.deep)).take 8

/-- R114, R115: what the rules say of a DEEP_BEACON with the entries es at the instant of the state. -/
def deepRule (q : Nat) (es : List CustodyEntry) (s : State) : Option TxRefusal :=
  txRule s q (secVal s q 0xE) (chanEdges (bandOf s q) (secVal s q 0xE)) .beacon (deepUs (23 + 3 * es.length)) false

/-- R106: the DEEP_BEACON of beacon b goes out in state u with the entries es, sealed with key, on the channel that it was judged on in
state v. -/
def deepSent (q b : Nat) (v : State) (es : List CustodyEntry) (key : List Byte) (u : State) : State :=
  carryAll q (fun e => e.deep && !amongCustody es e)
    (startTx q (secVal v q 0xE) (chanEdges (bandOf v q) (secVal v q 0xE)) .beacon q (deepUs (23 + 3 * es.length)) 0
      (es.map (fun e => (e.handle, e.fcnt)))
      [.deep q (secVal v q 0xE) (deepFrame (sealSector key (secVal u q 0) 0x40 b 6 (deepOctets u q b es)))] u)

section Deep
variable {q b : Nat} {s : State} (hdue : (secp s q).deepDue = some b) (hlbt : (secp s q).deepLbt = none)
  (hblank : blankFits s q s.now = true)
include hdue hlbt hblank

/-- R106: the port transmits already, and the entries carry over. -/
theorem deepBeaconTx_of_busy (hbusy : (secp s q).tx.isSome = true) :
    deepBeaconTx q b s = carryAll q (fun e => e.deep) (deepTaken q s) := by
  have htx : (secp (deepTaken q s) q).tx = (secp s q).tx := by rw [deepTaken, setSec_secp]
  have htaken : ¬ (b != b || (secp s q).deepLbt.isSome || !blankFits s q s.now) = true := by simp [hlbt, hblank]
  have hfail : (!rfUp (deepTaken q s) q || (secp (deepTaken q s) q).tx.isSome || (rfp (deepTaken q s) q).state != .receiving) = true := by
    simp [htx, hbusy]
  simp only [deepBeaconTx, hdue, if_neg htaken]
  exact if_pos hfail

/-- R106: the port is free, no rule refuses, and the key slot gives a use. -/
theorem deepBeaconTx_of_allowed {u : State} {k : KSlot} (hup : rfUp (deepTaken q s) q = true) (hidle : (secp (deepTaken q s) q).tx = none)
    (hreceiving : (rfp (deepTaken q s) q).state = .receiving) (hrule : deepRule q (deepEntries q s) (deepTaken q s) = none)
    (hkey : useSlot (secVal (deepTaken q s) q 7) uMac (deepTaken q s) = (u, some k)) :
    deepBeaconTx q b s = deepSent q b (deepTaken q s) (deepEntries q s) k.key u := by
  have htaken : ¬ (b != b || (secp s q).deepLbt.isSome || !blankFits s q s.now) = true := by simp [hlbt, hblank]
  have hfree : ¬ (!rfUp (deepTaken q s) q || (secp (deepTaken q s) q).tx.isSome || (rfp (deepTaken q s) q).state != .receiving) = true := by
    simp [hup, hidle, hreceiving]
  unfold deepRule deepSent deepEntries deepTaken at *
  simp only [deepBeaconTx, hdue, if_neg htaken, if_neg hfree, hrule, hkey]

end Deep

/-! ### Listening before talk -/

/-- R112: the procedure goes on after a busy period, with a draw of fewer than 2^BE slots. -/
theorem lbtBusy_of_room {x : SubBand} {l : Lbt} {s : State} (h : l.nb + 1 ≤ x.nbMax) :
    ∃ slots, slots < 2 ^ l.be ∧
      (lbtBusy x l s).1 = { be := min (l.be + 1) x.beMax, nb := l.nb + 1, backingOff := true, until_ := s.mono + tUs (320 * slots) } := by
  refine ⟨Config.drawNat s.freeCtr % 2 ^ l.be, Nat.mod_lt _ (Nat.two_pow_pos _), ?_⟩
  rw [lbtBusy, if_neg (Nat.not_lt.2 h)]

/-- R112: the procedure gives up after NB_MAX backoffs. -/
theorem lbtBusy_of_exhausted {x : SubBand} {l : Lbt} (s : State) (h : x.nbMax < l.nb + 1) :
    lbtBusy x l s = ({ l with nb := l.nb + 1, ended := true }, s) :=
  if_pos h

theorem lbtBusy_nb (x : SubBand) (l : Lbt) (s : State) : (lbtBusy x l s).1.nb = l.nb + 1 := by
  unfold lbtBusy
  split <;> rfl

/-- R112: the sub-band that a due beacon of sector q listens on, from port p. -/
def beaconSubBand (s : State) (p q : Nat) (d : DueBeacon) : SubBand := subBandOf s p (viaChannel s q p (anchorOf s q d.bnum)).2

/-- The due beacon of sector q is at another point of its procedure. -/
def setDueLbt (q : Nat) (d : DueBeacon) (l : Option Lbt) (s : State) : State :=
  setSec q (fun x => { x with due := some { d with lbt := l } }) s

theorem setDueLbt_due (q : Nat) (d : DueBeacon) (l : Option Lbt) (s : State) :
    (secp (setDueLbt q d l s) q).due = some { d with lbt := l } := by
  rw [setDueLbt, setSec_secp]

section Listen
variable {p q : Nat} {d : DueBeacon} {pw : Power} {s : State} (hcan : canListen s p = true) (hsec : lbtSector s p listening = some (q, d))
include hcan hsec

theorem lbtListenEnd_of_clear (hbelow : powerBelow s p pw (beaconSubBand s p q d).lbtThresh = true) :
    lbtListenEnd p pw s = setDueLbt q d none s := by
  unfold beaconSubBand at hbelow
  simp [lbtListenEnd, hcan, hsec, hbelow, setDueLbt]

theorem lbtListenEnd_of_busy {l : Lbt} (hlbt : d.lbt = some l) (habove : powerBelow s p pw (beaconSubBand s p q d).lbtThresh = false) :
    lbtListenEnd p pw s =
      setDueLbt q d (some (lbtBusy (beaconSubBand s p q d) l s).1) (lbtBusy (beaconSubBand s p q d) l s).2 := by
  unfold beaconSubBand at *
  simp [lbtListenEnd, hcan, hsec, habove, hlbt, setDueLbt]

end Listen

/-- R112: listening resumes once the backoff is over. -/
theorem lbtBackoffEnd_of_beacon {p q : Nat} {d : DueBeacon} {l : Lbt} {s : State} (hsec : lbtSector s p backingOff = some (q, d))
    (hlbt : d.lbt = some l) : lbtBackoffEnd p s = setDueLbt q d (some { l with backingOff := false }) (advMono l.until_ s) := by
  simp only [lbtBackoffEnd, hsec, hlbt]
  rfl

/-! ### Link acks -/

/-- R109: the ack's own instant, with the ack no longer scheduled. -/
def ackInstant (p : Nat) (a : SchedAck) (s : State) : State :=
  advTo (a.endTime + tUs 1000) (setSec p (fun x => { x with acks := x.acks.erase a }) s)

/-- R109 to R115: what the rules say of a scheduled ack at the instant of the state. -/
def ackRule (p : Nat) (a : SchedAck) (u : State) : Option TxRefusal :=
  txRule u p a.channel (chanEdges (bandOf u p) a.channel) .ack (ackUs a.mode) (airBusy u p u.now (ackUs a.mode))

/-- R96, R109: the ack goes out now, and is counted. -/
def ackSent (p : Nat) (a : SchedAck) (u : State) : State :=
  setSec p (fun x => { x with acksSent := x.acksSent + 1 })
    (startTx p a.channel (chanEdges (bandOf u p) a.channel) .ack p (ackUs a.mode) a.decided [] [.ack p a.channel (ackPpdu u a)] u)

theorem ackSent_acksSent (p : Nat) (a : SchedAck) (u : State) : (secp (ackSent p a u) p).acksSent = (secp u p).acksSent + 1 := by
  obtain ⟨x, hx⟩ := startTx_secp p a.channel (chanEdges (bandOf u p) a.channel) .ack p (ackUs a.mode) a.decided []
    [.ack p a.channel (ackPpdu u a)] u
  rw [ackSent, setSec_secp, hx]

section Ack
variable {p l : Nat} {a : SchedAck} {s : State} (hfind : (secp s p).acks.find? (fun a => a.lane == l) = some a)
  (htime : (ackInstant p a s).now ≤ a.endTime + tUs 1000 + tUs 10)
include hfind htime

/-- R110, log 74: an ack no more than 10 µs late is decided by the rules. -/
theorem linkAckTx_of_refused {r : TxRefusal} (hrule : ackRule p a (ackInstant p a s) = some r) :
    linkAckTx p l s = ackRefused p a.channel r (ackInstant p a s) := by
  have hnotMissed := Nat.not_lt.2 htime
  unfold ackRule ackInstant at *
  simp [linkAckTx, hfind, hnotMissed, hrule]

theorem linkAckTx_of_allowed (hrule : ackRule p a (ackInstant p a s) = none) : linkAckTx p l s = ackSent p a (ackInstant p a s) := by
  have hnotMissed := Nat.not_lt.2 htime
  unfold ackRule ackInstant at *
  simp [linkAckTx, hfind, hnotMissed, hrule, ackSent]

end Ack

/-! ### Downlinks -/

/-- R97: the time on air of a downlink. -/
def dlUs (o : DlOpp) (w : DlWhat) : Nat := downUs o.mode (whatLen w)

/-- R111, R114, R115: what the rules say of a downlink lasting us that starts at t, the instant of the state. -/
def downlinkRule (p t us : Nat) (o : DlOpp) (s : State) : Option TxRefusal :=
  txRule s p o.channel (chanEdges (bandOf s p) o.channel) .downlink us (airBusy s p t us || ackInWay s p t us)

/-- R111, R119: the opportunity o of endpoint h may start at t on the port that heard its frame, and has w to carry. -/
structure DownlinkReady (p h t : Nat) (o : DlOpp) (w : DlWhat) (s : State) : Prop where
  opp : (secp s p).dlOpp.find? (fun o => o.handle == h) = some o
  what : dlWhat s h = some w
  clear : o.lbt = none
  blank : blankFits s p t = true
  now_le : s.now ≤ t
  after : o.endTime + tMs 20 ≤ t
  before : t ≤ o.endTime + tMs 100

theorem DownlinkReady.inWindow {p h t : Nat} {o : DlOpp} {w : DlWhat} {s : State} (hready : DownlinkReady p h t o w s) :
    ¬ (o.lbt.isSome || decide (t < s.now) || decide (t < o.endTime + tMs 20) || decide (o.endTime + tMs 100 < t) || !blankFits s p t) = true := by
  obtain ⟨-, -, hclear, hblank, hnow, hafter, hbefore⟩ := hready
  simp [hclear, hblank]
  omega

theorem downlinkTx_of_connect {p h t : Nat} {o : DlOpp} {s : State} (hready : DownlinkReady p h t o .connect s)
    (hrule : downlinkRule p t (dlUs o .connect) o (advTo t s) = none) :
    downlinkTx p h t s = sendConnect p h o (dlUs o .connect) (advTo t s) := by
  unfold downlinkRule dlUs at *
  simp only [downlinkTx, hready.opp, hready.what, if_neg hready.inWindow, hrule]

theorem downlinkTx_of_step {p h t c : Nat} {x : Camp} {g : Target} {o : DlOpp} {s : State} (hready : DownlinkReady p h t o (.step c x g) s)
    (hrule : downlinkRule p t (dlUs o (.step c x g)) o (advTo t s) = none) :
    downlinkTx p h t s = sendStep p h o (dlUs o (.step c x g)) c x g (advTo t s) := by
  unfold downlinkRule dlUs at *
  simp only [downlinkTx, hready.opp, hready.what, if_neg hready.inWindow, hrule]

/-- R119: outside the 20 ms to 100 ms after its frame a downlink does not start. -/
theorem downlinkTx_of_outside {p h t : Nat} {o : DlOpp} {s : State} (hfind : (secp s p).dlOpp.find? (fun o => o.handle == h) = some o)
    (hout : t < o.endTime + tMs 20 ∨ o.endTime + tMs 100 < t) : downlinkTx p h t s = s := by
  unfold downlinkTx
  rw [hfind]
  cases dlWhat s h with
  | none => rfl
  | some w =>
    refine if_pos ?_
    obtain hout | hout := hout <;> simp [hout]

/-! ### Rules, ends and charges -/

/-- R110, R111: no transmission starts on a port that is busy. -/
theorem txRule_of_busy (s : State) (p ch : Nat) (edges : Int × Int) (cls : TxClass) (us : Nat) : txRule s p ch edges cls us true ≠ none := by
  unfold txRule
  cases profOf s p with
  | none => exact nofun
  | some prof =>
    cases hsub : subOf prof edges with
    | none => simp [hsub]
    | some y =>
      simp only [hsub]
      split
      · exact nofun
      · exact nofun

end Sys2Proof.Machine

open Sys2Proof Sys2Proof.Machine

/-- Settles O37, clause by clause, from the rule of each case. -/
theorem transmissionEffects : Obligations.TransmissionEffects := by
  unfold Obligations.TransmissionEffects
  refine ⟨?due, ?opened, ?miss, ?missCounts, ?start, ?retry, ?deepBusy, ?deepSent, ?clear, ?busy, ?backoff, ?ack, ?downlink, ?outside, ?rule,
    ?txEnd, ?expiry⟩
  case due => exact fun q b s htx hfresh htc hnow hdue => congrArg Host.Outcome.next (beaconDue_of_fresh htx hfresh htc hnow hdue)
  case opened =>
    exact fun q b s => ⟨_, _, beaconOpen_due q b s, rfl, rfl, rfl, rfl, freeze_pending q (viaOf s q) b s, beaconOpen_lastB q b s⟩
  case miss => exact fun q d s hdue => congrArg Host.Outcome.next (beaconMiss_of_due hdue)
  case missCounts =>
    refine fun q d s hnormal hreason => ⟨fun hfew => ?_, fun hthird => ?_⟩
    · obtain ⟨rs, hmiss⟩ := beaconMissed_of_few hnormal hreason hfew
      rw [hmiss, setSec_secp]
      exact ⟨missCounted_due q d s, missCounted_missed q d s, rfl⟩
    · obtain ⟨rs, hmiss⟩ := beaconMissed_of_third hnormal hreason hthird
      have hbefore := missRecorded_secp q rs (missCounted q d s)
      have hstate : (secp (missRecorded q rs (missCounted q d s)) q).state = .normal := by
        rw [hbefore]
        exact (missCounted_state q d s).trans hnormal
      have hother := stateAfterThird_ne_normal (missRecorded q rs (missCounted q d s)) q
      have hafter := setSector_secp_of_other (hstate.trans_ne hother.symm)
      rw [hmiss]
      refine ⟨?_, ?_, ?_, ?_, setSector_keepbit _ (missRecorded_pend q rs _)⟩ <;> rw [hafter]
      · rw [hbefore]
        exact missCounted_due q d s
      · rw [hbefore]
        exact missCounted_missed q d s
      · exact hother
  case start =>
    rintro q t d f _ u k0 ks s hdue hcontent rfl hclear hblank hafter hbefore hnow hown hup hidle hreceiving hrule hkeys
    obtain ⟨ch, edges, us, carried, frames, w, htx, hlen⟩ := beaconTx_of_allowed
      ⟨hdue, hcontent, hclear, hblank, hafter, hbefore, hnow, hown⟩ ⟨hup, hidle, hreceiving, hrule⟩ hkeys
    exact ⟨ch, edges, us, carried, frames, w, congrArg Host.Outcome.next htx, hlen⟩
  case retry =>
    intro q s hfallback hwaited
    refine ⟨_, congrArg Host.Outcome.next (fallbackRetry_of_waited hfallback hwaited), ?_⟩
    rw [setSec_secp]
    exact ⟨rfl, rfl, hfallback⟩
  case deepBusy =>
    exact fun q b s hdue hlbt hblank _ hbusy => ⟨_, rfl, congrArg Host.Outcome.next (deepBeaconTx_of_busy hdue hlbt hblank hbusy)⟩
  case deepSent =>
    rintro q b _ _ u k s hdue hlbt hblank rfl rfl hup hidle hreceiving hrule hkey
    exact congrArg Host.Outcome.next (deepBeaconTx_of_allowed hdue hlbt hblank hup hidle hreceiving hrule hkey)
  case clear =>
    intro p q d pw s hcan hsec hbelow
    exact ⟨_, congrArg Host.Outcome.next (lbtListenEnd_of_clear hcan hsec hbelow), setDueLbt_due q d none s⟩
  case busy =>
    rintro p q d l _ pw s hcan hsec hlbt rfl habove
    refine ⟨_, _, congrArg Host.Outcome.next (lbtListenEnd_of_busy hcan hsec hlbt habove), setDueLbt_due q d _ _, lbtBusy_nb _ _ _,
      fun hroom => ?_, fun hexhausted => ?_⟩
    · obtain ⟨slots, hslots, hnext⟩ := lbtBusy_of_room (s := s) hroom
      exact ⟨slots, hslots, congrArg Lbt.until_ hnext, congrArg Lbt.be hnext, congrArg Lbt.backingOff hnext⟩
    · exact congrArg (fun y => y.1.ended) (lbtBusy_of_exhausted s hexhausted)
  case backoff =>
    intro p q d l s hsec hlbt
    exact ⟨_, congrArg Host.Outcome.next (lbtBackoffEnd_of_beacon hsec hlbt), setDueLbt_due q d _ _, mono_le_advMono l.until_ s⟩
  case ack =>
    rintro p l a _ s hfind rfl htime
    refine ⟨fun r hrule => congrArg Host.Outcome.next (linkAckTx_of_refused hfind htime hrule), fun hrule => ?_⟩
    exact ⟨_, congrArg Host.Outcome.next (linkAckTx_of_allowed hfind htime hrule), ackSent_acksSent p a _, startTx_out _ _ _ _ _ _ _ _ _ _ _⟩
  case downlink =>
    intro p h t o w s hopp hwhat hclear hblank hnow hafter hbefore hrule
    have hready : DownlinkReady p h t o w s := ⟨hopp, hwhat, hclear, hblank, hnow, hafter, hbefore⟩
    refine ⟨?_, ?_⟩
    · rintro rfl
      exact congrArg Host.Outcome.next (downlinkTx_of_connect hready hrule)
    · rintro c x g rfl
      exact congrArg Host.Outcome.next (downlinkTx_of_step hready hrule)
  case outside => exact fun p h t o s hfind hout => congrArg Host.Outcome.next (downlinkTx_of_outside hfind hout)
  case rule => exact fun s p ch edges cls us => txRule_of_busy s p ch edges cls us
  case txEnd =>
    intro p t x s htx
    obtain ⟨u, f, hend, hidle, hrise, hcharges, hlast⟩ := txEnd_eq p t x s htx
    exact ⟨_, congrArg Host.Outcome.next hend, hidle, (congrArg RfPort.txenRise (setRf_rfp p f u)).trans hrise, hcharges, hlast⟩
  case expiry =>
    intro p sb c cs s hcharges
    obtain ⟨m, hm, hexp⟩ := chargeExpiry_eq p sb c cs s hcharges
    refine ⟨_, nowMs (advMono m s), congrArg Host.Outcome.next hexp, ?_, ?_⟩
    · exact hm.trans (Nat.mul_le_mul_left _ (mono_le_advMono m s))
    · rw [setAcct_acct, advMono_keeps (fun u => acct u p sb) (by intros; rfl), hcharges]

end

section
/-! The air states of a radio endpoint (R120, R121, R123 to R126): one rule per case of each command, then O38. -/

namespace Sys2Proof.Machine

@[simp] theorem updEp_now (h : Nat) (f : Endpoint → Endpoint) (s : State) : (updEp h f s).now = s.now :=
  updEp_keeps State.now (by intros; rfl) h f s

@[simp] theorem updEp_mono (h : Nat) (f : Endpoint → Endpoint) (s : State) : (updEp h f s).mono = s.mono :=
  updEp_keeps State.mono (by intros; rfl) h f s

/-- A change of an endpoint at a later instant is a change of the endpoint as it stood. -/
theorem ep?_updEp_advTo {h t : Nat} {f : Endpoint → Endpoint} {e : Endpoint} {s : State} (he : ep? s h = some e) :
    ep? (updEp h f (advTo t s)) h = some (f e) :=
  ep?_updEp h f e _ ((ep?_advTo t h s).trans he)

/-! ### The timeouts of an endpoint that follows beacons -/

/-- R121: the arrival window of a tracked endpoint closes at its end. -/
theorem arrivalClose_of_tracking {h : Nat} {e : Endpoint} {s : State} (he : ep? s h = some e) (hplc : e.plc = false)
    (hair : e.air = .tracking) (hopen : e.winOpen = true) :
    arrivalClose h s = updEp h (fun e => { e with air := .drifting, winOpen := false }) (advTo e.winHi s) := by
  simp [arrivalClose, he, hplc, hair, hopen]

/-- R121: the air states that the supervision timeout of a radio endpoint ends. -/
def isSupervised (e : Endpoint) : Prop := e.air = .unseen ∨ e.air = .tracking ∨ e.air = .drifting

/-- What the supervision timeout leaves before its event. -/
def supervisionLapsed (h : Nat) (e : Endpoint) (s : State) : State :=
  updEp h (fun e => { e with air := .lost, winOpen := false }) (advTo (e.supFrom + tSec e.supervS) s)

theorem supervisionTimeout_of_supervised {h : Nat} {e : Endpoint} {s : State} (he : ep? s h = some e) (hplc : e.plc = false)
    (hair : isSupervised e) (hsup : e.supervS ≠ 0) (hcom : s.cfg.everCommitted = true) :
    supervisionTimeout h s = raise 0x28 (supervisionLapsed h e s) := by
  obtain hair | hair | hair := hair <;> simp [supervisionTimeout, supervisionLapsed, he, hplc, hair, hsup, hcom]

theorem ep?_raise (n h : Nat) (s : State) : ep? (raise n s) h = ep? s h := raise_keeps (fun u => ep? u h) (by intros; rfl) n s

/-- R121: an endpoint with a connection, open or opening, or lost already has no supervision timeout. -/
theorem supervisionTimeout_of_unsupervised {h : Nat} {e : Endpoint} {s : State} (he : ep? s h = some e)
    (hair : e.air = .opening ∨ e.air = .connected ∨ e.air = .lost) : supervisionTimeout h s = s := by
  obtain hair | hair | hair := hair <;> simp [supervisionTimeout, he, hair]

/-! ### The timeouts of a connection -/

/-- R125: the handle is listed again on the port of its connection, at the monotonic time of the state. -/
def relisted (h : Nat) (e : Endpoint) (s : State) : State :=
  setSec e.connPort (fun x => { x with pendList := x.pendList ++ [(h, s.mono)] }) (updEp h (fun e => { e with connectSent := false }) s)

/-- R125: a CONNECT that has gone out finds no reply. -/
theorem replyTimeout_of_sent {h : Nat} {e : Endpoint} {s : State} (he : ep? s h = some e) (hair : e.air = .opening)
    (hsent : e.connectSent = true) : replyTimeout h s = relisted h e (advTo (e.connT0 + tMs e.connSupervMs) s) := by
  simp only [replyTimeout, he, hair, hsent]
  rfl

theorem ep?_relisted {h : Nat} {e : Endpoint} {s : State} (he : ep? s h = some e) :
    ep? (relisted h e s) h = some { e with connectSent := false } :=
  ep?_updEp h _ e s he

theorem mem_relisted_pendList (h : Nat) (e : Endpoint) (s : State) : (h, (relisted h e s).mono) ∈ (secp (relisted h e s) e.connPort).pendList := by
  simp [relisted]

theorem openTimeout_of_opening {h : Nat} {e : Endpoint} {s : State} (he : ep? s h = some e) (hair : e.air = .opening) :
    openTimeout h s = endConnection h outOpenTimeout .tracking (advTo e.openDeadline s) := by
  simp [openTimeout, he, hair]

theorem connSupervision_of_connected {h : Nat} {e : Endpoint} {s : State} (he : ep? s h = some e) (hair : e.air = .connected) :
    connSupervision h s = endConnection h outSupervision .drifting (advTo (e.lastGood + tMs e.connSupervMs) s) := by
  simp [connSupervision, he, hair]

/-! ### Connection events -/

/-- R125: an opening endpoint has no events before its CONNECT goes out. -/
theorem connectionEvent_of_unsent {h : Nat} {e : Endpoint} {s : State} (pw : Power) (he : ep? s h = some e) (hair : e.air = .opening)
    (hunsent : e.connectSent = false) : connectionEvent h pw s = s := by
  simp [connectionEvent, he, hair, hunsent]

/-- R123: the anchor of an endpoint's event k′. -/
def anchorTime (e : Endpoint) : Nat := e.connT0 + e.evcnt * connIv e.connCode

/-- What an event leaves once it has been counted: e1 is the endpoint with the map in force. -/
def eventCounted (h : Nat) (pw : Power) (e1 : Endpoint) (s : State) : State :=
  updEp h (fun e => { e with evcnt := e.evcnt + 1 })
    (eventAt e1.connPort h e1 (anchorTime e1) pw (updEp h (fun _ => e1) (advTo (anchorTime e1) s)))

/-- R123, R126: an event counts on, and ends a closing connection. -/
theorem connectionEvent_of_anchored {h : Nat} {e : Endpoint} {s : State} (pw : Power) (he : ep? s h = some e)
    (hair : e.air = .connected ∨ (e.air = .opening ∧ e.connectSent = true)) :
    connectionEvent h pw s =
      if (mapAt h e).closing then endConnection h outClosed .tracking (eventCounted h pw (mapAt h e) s)
      else eventCounted h pw (mapAt h e) s := by
  have hon : (e.air == .connected || (e.air == .opening && e.connectSent)) = true := by simpa using hair
  simp only [connectionEvent, he, hon, if_true]
  rfl

theorem ep?_eventListen (p h : Nat) (edges : Int × Int) (pw : Power) (s : State) : ep? (eventListen p edges pw s).2 h = ep? s h :=
  eventListen_keeps (fun u => ep? u h) (by intros; rfl) p edges pw s

theorem eventListen_now (p : Nat) (edges : Int × Int) (pw : Power) (s : State) : (eventListen p edges pw s).2.now = s.now :=
  eventListen_keeps State.now (by intros; rfl) p edges pw s

/-- R124: an event whose anchor has passed is skipped and counted. -/
theorem eventAt_of_late {p h anchor : Nat} {e : Endpoint} {pw : Power} {s : State} (hlate : anchor + tUs 10 < s.now) :
    eventAt p h e anchor pw s =
      updEp h (fun e => { e with missed := e.missed + 1 }) (eventListen p (chanEdges (bandOf s p) (eventChannel e)) pw s).2 := by
  have hskip : (decide (anchor + tUs 10 < (eventListen p (chanEdges (bandOf s p) (eventChannel e)) pw s).2.now) ||
      !(eventListen p (chanEdges (bandOf s p) (eventChannel e)) pw s).1) = true := by
    simp [eventListen_now, hlate]
  exact if_pos hskip

theorem eventListen_of_not_required {p : Nat} {edges : Int × Int} (pw : Power) {s : State} (hlbt : lbtStart s p edges = none) :
    eventListen p edges pw s = (true, s) := by
  simp only [eventListen, hlbt]

/-- R105: the custody entries that an EVENT carries; none while the journal takes no commit. -/
def eventCustody (e : Endpoint) (s : State) : List Nat := if s.jnl.noCustody then [] else e.evCustody.take 16

/-- R98: the time on air of the endpoint's next EVENT. -/
def eventUs (p h : Nat) (e : Endpoint) (s : State) : Nat :=
  sunUs (secVal s p 3) (17 + 2 * (eventCustody e s).length + evLen (evWhat s h e) + 8 + 4)

/-- R124: an event in time, on a channel that needs no listening and under no rule's refusal, with no command to carry. -/
theorem eventAt_of_allowed {p h anchor : Nat} {e : Endpoint} {s : State} (pw : Power) (hintime : s.now ≤ anchor + tUs 10)
    (hlbt : lbtStart s p (chanEdges (bandOf s p) (eventChannel e)) = none)
    (hrule : txRule s p (eventChannel e) (chanEdges (bandOf s p) (eventChannel e)) .downlink (eventUs p h e s)
      (airBusy s p s.now (eventUs p h e s) || ackInWay s p s.now (eventUs p h e s)) = none)
    (hbare : evWhat s h e = .nothing) :
    eventAt p h e anchor pw s = sendEvent p (eventChannel e) (eventUs p h e s) h e (eventCustody e s) .nothing s := by
  unfold eventUs eventCustody at *
  simp only [eventAt, eventListen_of_not_required pw hlbt]
  rw [if_neg (by simpa using hintime), hrule, hbare]

/-! ### A frame heard -/

/-- R121: what a GOOD frame that ends at t leaves of its endpoint: the arrival window of the next report lies around t and one report period of
so many ms. -/
def afterHeard (t periodMs : Nat) (air : AirState) (replied : Bool) (e : Endpoint) : Endpoint :=
  { e with
    lastGood := t, supFrom := t, air := air
    winLo := t + tMs periodMs - min (t + tMs periodMs) (tMs (periodMs / 8 + 1000)), winHi := t + tMs (periodMs + (periodMs / 8 + 1000))
    reportIn := e.reportS, winOpen := e.reportS != 0, connOutcome := if replied then outConnected else e.connOutcome }

/-- R124, R125: the reply to the EVENT of an opening endpoint connects it. -/
theorem airHeard_of_reply {h p ch t0 t : Nat} {e : Endpoint} {s : State} (he : ep? s h = some e) (hplc : e.plc = false)
    (hair : e.air = .opening) (hsent : e.connectSent = true) (hreply : answersEvent e p ch t0 = true) :
    airHeard h p ch t0 t s = raise 0x27 (updEp h (afterHeard t (1000 * e.reportS) .connected true) s) := by
  simp [airHeard, raiseIf, he, hplc, hair, hsent, hreply]
  rfl

/-- R120, R121: a frame of an endpoint that follows beacons, or had been lost, makes it tracked. -/
theorem airHeard_of_no_connection {h p ch t0 t : Nat} {e : Endpoint} {s : State} (he : ep? s h = some e) (hplc : e.plc = false)
    (hair : e.air = .unseen ∨ e.air = .tracking ∨ e.air = .drifting ∨ e.air = .lost) :
    airHeard h p ch t0 t s = updEp h (afterHeard t (1000 * e.reportS) .tracking false) s := by
  obtain hair | hair | hair | hair := hair
  all_goals
    simp [airHeard, raiseIf, he, hplc, hair]
    rfl

end Sys2Proof.Machine

open Sys2Proof Sys2Proof.Machine

/-- Settles O38, clause by clause, from the rule of each case. -/
theorem airStateEffects : Obligations.AirStateEffects := by
  unfold Obligations.AirStateEffects
  refine ⟨?arrival, ?supervision, ?unsupervised, ?reply, ?opening, ?connection, ?unsent, ?event, ?lateEvent, ?sentEvent, ?connects, ?tracks⟩
  case arrival =>
    intro h e s he hplc hair hopen
    refine ⟨_, congrArg Host.Outcome.next (arrivalClose_of_tracking he hplc hair hopen), ep?_updEp_advTo he, ?_⟩
    rw [updEp_now]
    exact le_advTo _ _
  case supervision =>
    intro h e s he hplc hair hsup hcom
    refine ⟨_, congrArg Host.Outcome.next (supervisionTimeout_of_supervised he hplc hair hsup hcom), ?_, raise_set 0x28 _ (by decide) (by decide)⟩
    rw [ep?_raise]
    exact ep?_updEp_advTo he
  case unsupervised => exact fun h e s he hair => congrArg Host.Outcome.next (supervisionTimeout_of_unsupervised he hair)
  case reply =>
    intro h e s he hair hsent
    exact ⟨_, congrArg Host.Outcome.next (replyTimeout_of_sent he hair hsent), ep?_relisted ((ep?_advTo _ h s).trans he),
      mem_relisted_pendList h e _⟩
  case opening =>
    intro h e s he hair
    obtain ⟨e', he', hend⟩ := endConnection_ep h outOpenTimeout .tracking e (advTo e.openDeadline s) ((ep?_advTo _ h s).trans he)
    exact ⟨_, e', congrArg Host.Outcome.next (openTimeout_of_opening he hair), he', hend⟩
  case connection =>
    intro h e s he hair
    have hlater : ep? (advTo (e.lastGood + tMs e.connSupervMs) s) h = some e := (ep?_advTo _ h s).trans he
    obtain ⟨e', he', hdrift, hout, -⟩ := endConnection_ep h outSupervision .drifting e _ hlater
    exact ⟨_, e', congrArg Host.Outcome.next (connSupervision_of_connected he hair), he', hdrift, hout,
      endConnection_evt h outSupervision .drifting e _ hlater hair⟩
  case unsent => exact fun h e s he hair hunsent pw => congrArg Host.Outcome.next (connectionEvent_of_unsent pw he hair hunsent)
  case event =>
    rintro h pw e e1 u s he hair rfl rfl
    exact ⟨_, rfl, congrArg Host.Outcome.next (connectionEvent_of_anchored pw he hair)⟩
  case lateEvent =>
    intro p h anchor e pw s he hlate
    rw [eventAt_of_late hlate]
    exact ep?_updEp h _ e _ ((ep?_eventListen _ h _ pw s).trans he)
  case sentEvent =>
    rintro p h anchor us e custody s hintime rfl rfl hlbt hrule hbare pw
    exact eventAt_of_allowed pw hintime hlbt hrule hbare
  case connects =>
    intro h p ch t0 t e s he hplc hair hsent hreply
    rw [airHeard_of_reply he hplc hair hsent hreply]
    exact ⟨_, (ep?_raise _ _ _).trans (ep?_updEp h _ e s he), rfl, rfl, rfl, raise_set 0x27 _ (by decide) (by decide)⟩
  case tracks =>
    intro h p ch t0 t e s he hplc hair
    rw [airHeard_of_no_connection he hplc hair]
    exact ⟨_, ep?_updEp h _ e s he, rfl, rfl, rfl, rfl⟩

end

section
/-! What a read of a power-line port gives after the operations that all of the power line shares. -/

namespace Sys2Proof.Machine

@[simp] theorem advTo_plcp (t q : Nat) (s : State) : plcp (advTo t s) q = plcp s q :=
  advTo_keeps (fun u => plcp u q) (by intros; rfl) t s

@[simp] theorem raise_plcp (n q : Nat) (s : State) : plcp (raise n s) q = plcp s q :=
  raise_keeps (fun u => plcp u q) (by intros; rfl) n s

@[simp] theorem raiseIf_plcp (c : Bool) (n q : Nat) (s : State) : plcp (raiseIf c n s) q = plcp s q :=
  raiseIf_keeps (fun u => plcp u q) (by intros; rfl) c n s

@[simp] theorem noteCaps_plcp (q : Nat) (old s : State) : plcp (noteCaps old s) q = plcp s q :=
  noteCaps_keeps (fun u => plcp u q) (by intros; rfl) old s

@[simp] theorem noteEp_plcp (h q : Nat) (f : Endpoint → Endpoint) (s : State) : plcp (noteEp h f s) q = plcp s q :=
  noteEp_keeps (fun u => plcp u q) (by intros; rfl) h f s

theorem pushPlcTrailers_plcp (q : Nat) (t0 t1 : DWord) (s : State) :
    plcp (pushPlcTrailers q t0 t1 s) q = { plcp s q with
      rx := none
      queue := qPut (cutThrough s (256 + q)) t1 true (t0.setWidth 16) (qPut (cutThrough s (256 + q)) t0 false 0 (plcp s q).queue) } :=
  setPlc_plcp q _ s

theorem noteCaps_keepbit {i : Nat} (old : State) {s : State} (h : s.evt.pend.getLsbD i = true) :
    (noteCaps old s).evt.pend.getLsbD i = true :=
  raiseIf_keepbit _ 0x13 i s h

end Sys2Proof.Machine
end

section
/-! The fall-through queues (R144 to R149, R152): one rule per case of each command, then O20. -/

namespace Sys2Proof.Machine

/-! ### Pushes and dooms by the producer -/

/-- R148: no push is made before the producing island leaves reset. -/
theorem queuePush_of_down {k : Nat} (w : DWord) (last : Bool) (code : BitVec 16) {s : State} (hdown : producerUp s k = false) :
    queuePush k w last code s = s :=
  if_neg (ne_true_of_eq_false hdown)

theorem queuePush_of_up {k : Nat} (w : DWord) (last : Bool) (code : BitVec 16) {s : State} (hup : producerUp s k = true) :
    queuePush k w last code s = setFtq k (fun q => (qPush (cutThrough s k) w last code q).getD q) s :=
  if_pos hup

theorem ftq_queuePush_of_accepts {k : Nat} (w : DWord) {last : Bool} (code : BitVec 16) {s : State} (hk : k < 272)
    (hup : producerUp s k = true) (haccepts : qAccepts last (ftq s k) = true) :
    ftq (queuePush k w last code s) k = qPut (cutThrough s k) w last code (ftq s k) := by
  rw [queuePush_of_up w last code hup, ftq_set _ _ _ hk, qPush_of_accepts w code haccepts]
  rfl

/-- R144: a refused push changes nothing, whether or not the producing island is up. -/
theorem ftq_queuePush_of_refuses {k : Nat} (w : DWord) {last : Bool} (code : BitVec 16) {s : State} (hk : k < 272)
    (hrefuses : qAccepts last (ftq s k) = false) : ftq (queuePush k w last code s) k = ftq s k := by
  unfold queuePush
  split
  · rw [ftq_set _ _ _ hk, qPush_of_refuses w code hrefuses]
    rfl
  · rfl

/-- R147: END adds its notice. -/
theorem qPut_notices_of_end (thr : Nat) (w : DWord) (code : BitVec 16) {q : FtQueue} (hidle : q.readRes ≠ .waiting) :
    (qPut thr w true code q).notices =
      q.notices ++ [{ count := ((qOpen q).getD {}).pushed + 1, dropped := ((qOpen q).getD {}).dropping, code := code }] := by
  unfold qPut
  dsimp only
  rw [if_pos rfl]
  refine (congrArg FtQueue.notices (qTry_idle thr _ ?_)).trans ?_
  · exact hidle
  · rfl

theorem queueDoom_of_down {k : Nat} {s : State} (hdown : producerUp s k = false) : queueDoom k s = s :=
  if_neg (ne_true_of_eq_false hdown)

theorem queueDoom_of_up {k : Nat} {s : State} (hup : producerUp s k = true) : queueDoom k s = setFtq k (qDoom (cutThrough s k)) s :=
  if_pos hup

/-- R149: a doom after the packet's END is ignored. -/
theorem qDoom_of_not_open (thr : Nat) {q : FtQueue} (hopen : qOpen q = none) : qDoom thr q = q := by
  simp only [qDoom, hopen]

theorem ftq_queueDoom_of_not_open {k : Nat} {s : State} (hk : k < 272) (hopen : qOpen (ftq s k) = none) :
    ftq (queueDoom k s) k = ftq s k := by
  unfold queueDoom
  split
  · rw [ftq_set _ _ _ hk, qDoom_of_not_open _ hopen]
  · rfl

/-! ### Reads, discards and notices of the consumer -/

section DirDown
variable {s : State} (k : Nat) (hdown : dirUp s = false)
include hdown

theorem queueRead_of_dir_down : queueRead k s = s := if_neg (ne_true_of_eq_false hdown)

theorem dropRest_of_dir_down : dropRest k s = s := if_neg (ne_true_of_eq_false hdown)

theorem noticePop_of_dir_down : noticePop k s = s := if_neg (ne_true_of_eq_false hdown)

end DirDown

section DirUp
variable {k : Nat} {s : State} (hk : k < 272) (hup : dirUp s = true)
include hk hup

theorem ftq_queueRead : ftq (queueRead k s) k = dropDoomed (qRead (cutThrough s k) (ftq s k)) := by
  rw [queueRead, if_pos hup, ftq_set _ _ _ hk]

theorem ftq_dropRest : ftq (dropRest k s) k = qDrop (ftq s k) := by
  rw [dropRest, if_pos hup, ftq_set _ _ _ hk]

theorem ftq_noticePop : ftq (noticePop k s) k = qPop (ftq s k) := by
  rw [noticePop, if_pos hup, ftq_set _ _ _ hk]

end DirUp

/-- R152: the rest of a packet stays where the word read is its last or came without DOOM. -/
theorem dropDoomed_of_kept {q : FtQueue} {w : DWord} {last doom abort : Bool} (hres : q.readRes = .word w last doom abort)
    (hkept : last = true ∨ doom = false) : dropDoomed q = q := by
  obtain rfl | rfl := hkept
  · simp [dropDoomed, hres]
  · simp [dropDoomed, hres]

/-- R152: a word with DOOM that is not its packet's last. -/
theorem dropDoomed_of_doomed {q : FtQueue} {w : DWord} {abort : Bool} (hres : q.readRes = .word w false true abort) :
    dropDoomed q = qDrop q := by
  simp only [dropDoomed, hres]

theorem dropDoomed_of_waiting {q : FtQueue} (hres : q.readRes = .waiting) : dropDoomed q = q := by
  simp only [dropDoomed, hres]

/-- R146: of a packet that has ended nothing stays in the queue. -/
theorem qDrop_of_one_ended {q : FtQueue} {p : QPacket} (hq : q.packets = [p]) (hheld : p.words ≠ []) (hended : p.ended = true) :
    qDrop q = { q with packets := [], taken := wholeOnly q.taken } := by
  simp [qDrop, hq, hheld, qPrune, qDropOne, hended]

theorem qPop_of_notice {q : FtQueue} {n : Notice} {rest : List Notice} (hq : q.notices = n :: rest) :
    qPop q = { q with notices := rest, popped := some n } := by
  simp only [qPop, hq]

end Sys2Proof.Machine

open Sys2Proof Sys2Proof.Machine

/-- Settles O20, clause by clause, from the rule of each case. -/
theorem queueCommandEffects : Obligations.QueueCommandEffects := by
  unfold Obligations.QueueCommandEffects
  refine ⟨?push, ?pushAccepted, ?pushRefused, ?notice, ?doom, ?doomAfterEnd, ?read, ?readDoomed, ?readEmpty, ?dropIdle, ?dropEnded, ?pop,
    ?consumerDown, ?producerDown⟩
  case push => exact fun k w last code s hup _ => congrArg Host.Outcome.next (queuePush_of_up w last code hup)
  case pushAccepted => exact fun k w last code s hk hup haccepts => ⟨_, rfl, ftq_queuePush_of_accepts w code hk hup haccepts⟩
  case pushRefused => exact fun k w last code s hk hrefuses => ⟨_, rfl, ftq_queuePush_of_refuses w code hk hrefuses⟩
  case notice => exact fun thr w code q hidle => qPut_notices_of_end thr w code hidle
  case doom => exact fun k s hup => congrArg Host.Outcome.next (queueDoom_of_up hup)
  case doomAfterEnd => exact fun k s hk hopen => ⟨_, rfl, ftq_queueDoom_of_not_open hk hopen⟩
  case read =>
    intro k p w ws rest s hk hup hpackets hwords hready hkept
    obtain ⟨hres, htaken⟩ := qRead_head _ _ p w ws rest hpackets hwords hready
    refine ⟨queueRead k s, rfl, ?_⟩
    rw [ftq_queueRead hk hup, dropDoomed_of_kept hres hkept]
    exact ⟨hres, htaken⟩
  case readDoomed =>
    intro k p w ws rest s hk hup hpackets hwords hready hmore hdoom
    obtain ⟨hres, -⟩ := qRead_head _ _ p w ws rest hpackets hwords hready
    rw [hmore, hdoom] at hres
    exact ⟨queueRead k s, rfl, (ftq_queueRead hk hup).trans (dropDoomed_of_doomed hres), hres⟩
  case readEmpty =>
    intro k s hk hup hempty
    have hread := qRead_empty (cutThrough s k) (ftq s k) hempty
    refine ⟨queueRead k s, rfl, ?_⟩
    rw [ftq_queueRead hk hup, hread, dropDoomed_of_waiting rfl]
    exact ⟨rfl, rfl⟩
  case dropIdle => exact fun k s hk hup hempty => ⟨_, rfl, (ftq_dropRest hk hup).trans (qDrop_nil _ hempty)⟩
  case dropEnded =>
    intro k p s hk hup hpackets hheld hended
    refine ⟨dropRest k s, rfl, ?_⟩
    rw [ftq_dropRest hk hup, qDrop_of_one_ended hpackets hheld hended]
    exact ⟨rfl, rfl⟩
  case pop => exact fun k n rest s hk hup hnotices => ⟨_, rfl, (ftq_noticePop hk hup).trans (qPop_of_notice hnotices)⟩
  case consumerDown =>
    exact fun k s hdown => ⟨congrArg Host.Outcome.next (queueRead_of_dir_down k hdown),
      congrArg Host.Outcome.next (dropRest_of_dir_down k hdown), congrArg Host.Outcome.next (noticePop_of_dir_down k hdown)⟩
  case producerDown =>
    exact fun k w last code s hdown => ⟨congrArg Host.Outcome.next (queuePush_of_down w last code hdown),
      congrArg Host.Outcome.next (queueDoom_of_down hdown)⟩

end

section
/-! Header errors on the power line (R137): what a header that is counted changes, and what any other leaves, then O58. -/

namespace Sys2Proof.Machine

/-- R137: a header error is counted, and nothing else changes. -/
theorem plcHeader_of_bad {q : Nat} {hdr : PlcHdrIn} {s : State} (hhears : plcHears s q = true) (hrx : (plcp s q).rx = none)
    (hbad : headerBad hdr.bits hdr.crc = true) : plcHeader q hdr s = setPlc q (fun p => { p with hdrErr := p.hdrErr + 1 }) s := by
  simp [plcHeader, hhears, hrx, hbad]

/-- R150: a header outside the listening window is stray. -/
theorem plcHeader_of_stray {q : Nat} {hdr : PlcHdrIn} {s : State} (hhears : plcHears s q = true) (hrx : (plcp s q).rx = none)
    (hgood : headerBad hdr.bits hdr.crc = false) (hstray : inListening s q hdr.at_ = false) :
    plcHeader q hdr s = setPlc q (fun p => { p with stray := p.stray + 1 }) s := by
  simp [plcHeader, hhears, hrx, hgood, hstray]

/-- R137: no header without one of the five errors is counted, whether it is stray, opens a packet or overflows its queue. -/
theorem plcHeader_hdrErr_of_good {q : Nat} {hdr : PlcHdrIn} (s : State) (hgood : headerBad hdr.bits hdr.crc = false) :
    (plcp (plcHeader q hdr s) q).hdrErr = (plcp s q).hdrErr := by
  unfold plcHeader
  rw [hgood, if_neg Bool.false_ne_true]
  split
  · rfl
  · split
    · rw [setPlc_plcp]
    · dsimp only
      split <;> rw [setPlc_plcp, advTo_plcp]

end Sys2Proof.Machine

open Sys2Proof Sys2Proof.Machine

/-- Settles O58: each of the five errors makes a header bad, and a header with none of them is good. -/
theorem headerErrorsCounted : Obligations.HeaderErrorsCounted := by
  unfold Obligations.HeaderErrorsCounted
  refine ⟨?counted, ?notCounted⟩
  case counted =>
    intro q mode bmod gmask len hdr s hhears hrx hmode hbmod hgmask hlen herror
    have hbad := (headerBad_iff hdr.bits hdr.crc mode bmod gmask len hmode hbmod hgmask hlen).2 herror
    exact congrArg Host.Outcome.next (plcHeader_of_bad hhears hrx hbad)
  case notCounted =>
    intro q mode bmod gmask len hdr s _ _ hmode hbmod hgmask hlen hcrc hnot3 hlo hhi hplain hbreeze
    have hgood : headerBad hdr.bits hdr.crc = false := by
      refine Bool.eq_false_iff.2 fun hbad => ?_
      obtain h | h | h | h | ⟨hm, h⟩ | ⟨hm, h⟩ := (headerBad_iff hdr.bits hdr.crc mode bmod gmask len hmode hbmod hgmask hlen).1 hbad
      · exact h hcrc
      · exact hnot3 h
      · omega
      · omega
      · obtain ⟨hb, hg⟩ := hplain hm
        exact h.elim (absurd hb) (absurd hg)
      · obtain ⟨hb, hg⟩ := hbreeze hm
        exact h.elim hb (Nat.not_lt.2 hg)
    exact ⟨_, rfl, plcHeader_hdrErr_of_good s hgood⟩

end

section
/-! The power-line opcodes (R164, R166, R167, R170): one rule per case of each opcode, then O51. -/

namespace Sys2Proof.Machine

/-- A request whose operation starts, as its command's outcome. -/
theorem next_serve_pend {v : Service} {r : Req} {s s1 : State} {objs : List Obj} (h : Served v r s = true)
    (hrun : v.run (taken r s).nextOp r (taken r s) = .pend s1 objs) :
    (Host.Outcome.next (serve v r s) : Host.Outcome State Fault Refusal) = .next (begun v.opcode r objs s1) :=
  congrArg Host.Outcome.next (serve_pend v r s s1 objs h hrun)

/-! ### Ports and calibration -/

section Port
variable {r : Req} {q : Nat} {s : State} (hq : plcField r.payload = some q)
include hq

theorem plcCalGet_of_port : plcCalGet r s = replyOk s (calBytes q (plcp s q).cal) := by
  simp only [plcCalGet, hq]

theorem plcRecalibrate_of_absent (hstate : (plcp s q).state = .absent) : plcRecalibrate r s = refuse s .noResource := by
  simp [plcRecalibrate, hq, hstate]

theorem plcRecalibrate_of_disabled (hstate : (plcp s q).state = .disabled) : plcRecalibrate r s = refuse s .badState := by
  simp [plcRecalibrate, hq, hstate]

/-- R170: a calibration waits for the transaction that holds the port's group. -/
theorem plcRecalibrate_of_held (habsent : (plcp s q).state ≠ .absent) (hdisabled : (plcp s q).state ≠ .disabled)
    (hrun : (runIn s q).isSome = true) :
    plcRecalibrate r s = .pend (setPlc q (fun p => { p with recalWait := true }) s) [.plcPort q] := by
  simp [plcRecalibrate, hq, habsent, hdisabled, hrun]

theorem plcRecalibrate_of_free (habsent : (plcp s q).state ≠ .absent) (hdisabled : (plcp s q).state ≠ .disabled)
    (hrun : runIn s q = none) : plcRecalibrate r s = .pend (startCal q s) [.plcPort q] := by
  simp [plcRecalibrate, hq, habsent, hdisabled, hrun]

end Port

/-- R131, R172: the port as its calibration starts (log 80). -/
theorem startCal_plcp (q : Nat) (s : State) :
    plcp (startCal q s) q =
      { plcp s q with state := .calibrating, ldEnN := false, ldFaultN := true, recalWait := false, rx := none } := by
  rw [startCal, noteCaps_plcp, raiseIf_plcp, setPlc_plcp]

/-! ### Links, routes and polls of an endpoint -/

/-- R164: the links of an endpoint's port that begin or end at it, as many as one report holds. -/
def linksOf (s : State) (h : Nat) (e : Endpoint) : List PlcLink :=
  (s.plcMac.links.filter (fun l => l.port == e.port && (l.src == some h || l.dst == some h))).take 255

/-- Table 06-11: the response of PLC_ROUTE_GET. -/
def routeBytes (s : State) (h : Nat) (e : Endpoint) : List Byte :=
  le 4 (e.path.getD 0xFFFFFFFF) ++ le 1 (relaysOf s e).length ++ le 1 (b2n e.pinnedRoute) ++
    le 2 (min 65535 ((routeCost s e.port (relaysOf s e) h).getD 0xFFFF)) ++ ((relaysOf s e).map (le 4)).flatten

/-- R170: the relays that a PLC_ROUTE_SET names. -/
def givenRelays (p : List Byte) : List Nat := (List.range (rd p 4 1)).map (fun i => rd p (8 + 4 * i) 4)

/-- R167, R170: the relays differ, each may relay on the endpoint's port, and none is the endpoint itself. -/
structure RelaysGood (p : List Byte) (h : Nat) (e : Endpoint) (s : State) : Prop where
  few : rd p 4 1 ≤ 7
  reserved : zeroAt p 5 3 = true
  relays : (givenRelays p).any (fun x => x == h || !relayOk s e.port x) = false
  distinct : (givenRelays p).eraseDups.length = (givenRelays p).length

/-- R167: the endpoint's route is pinned, and no proposal for it stands any more. -/
def routePinned (h : Nat) (w : State) : State :=
  updEp h (fun e => { e with pinnedRoute := true }) { w with plcMac.proposals := w.plcMac.proposals.filter (fun x => x.handle != h) }

/-- R160, R170: the transaction of a PLC_POLL_NOW is queued for operation id. -/
def pollQueued (id h : Nat) (e : Endpoint) (kind : Nat) (s : State) : State :=
  { enqueue h e.port kind 3 s with plcMac.pollNow := s.plcMac.pollNow ++ [(s.plcMac.txnId, id)] }

section Ep
variable {r : Req} {h : Nat} {e : Endpoint} {s : State} (hep : plcEp r.payload s = some (h, e))
include hep

theorem plcLinkGet_of_endpoint :
    plcLinkGet r s = replyOk s (le 1 (linksOf s h e).length ++ le 3 0 ++ ((linksOf s h e).map (linkEntry s h)).flatten) := by
  simp only [plcLinkGet, hep, linksOf]

theorem plcRouteGet_of_endpoint : plcRouteGet r s = replyOk s (routeBytes s h e) := by
  simp only [plcRouteGet, hep, routeBytes]

theorem plcRouteSet_of_good (hgood : RelaysGood r.payload h e s) (hset : (setRoute h e.port (givenRelays r.payload) s).2 = true) :
    plcRouteSet r s = replyOk (routePinned h (setRoute h e.port (givenRelays r.payload) s).1) := by
  obtain ⟨hfew, hreserved, hrelays, hdistinct⟩ := hgood
  have hok : ¬ (decide (7 < rd r.payload 4 1) || !zeroAt r.payload 5 3 ||
      (givenRelays r.payload).any (fun x => x == h || !relayOk s e.port x) ||
      (givenRelays r.payload).eraseDups.length != (givenRelays r.payload).length) = true := by
    rw [hrelays]
    simpa [hreserved, hdistinct] using hfew
  unfold givenRelays at *
  simp only [plcRouteSet, hep, if_neg hok]
  generalize setRoute h e.port _ s = w at hset ⊢
  obtain ⟨w, installed⟩ := w
  obtain rfl : installed = true := hset
  rfl

theorem plcRouteUnpin_of_endpoint : plcRouteUnpin r s = replyOk (updEp h (fun e => { e with pinnedRoute := false }) s) := by
  simp only [plcRouteUnpin, hep]

theorem plcPollNow_of_serving (id : Nat) (hkind : rd r.payload 4 1 ≤ 3) (hreserved : zeroAt r.payload 5 3 = true)
    (hserves : plcServes s e.port = true) : plcPollNow id r s = .pend (pollQueued id h e (rd r.payload 4 1) s) [] := by
  have hok : ¬ (decide (3 < rd r.payload 4 1) || !zeroAt r.payload 5 3) = true := by
    simpa [hreserved] using hkind
  simp only [plcPollNow, hep, if_neg hok, hserves]
  rfl

end Ep

/-- R170: a handle that is not enrolled on the power line. -/
theorem plcLinkGet_of_not_enrolled {r : Req} {s : State} (hep : plcEp r.payload s = none) : plcLinkGet r s = refuse s .badParam := by
  simp only [plcLinkGet, hep]

/-- R166: DIRECT takes no path of the table. -/
theorem setRoute_of_no_relay (h q : Nat) (s : State) :
    setRoute h q [] s = (freePaths (updEp h (fun e => { e with path := none }) s), true) :=
  rfl

theorem ep?_freePaths (h : Nat) (s : State) : ep? (freePaths s) h = ep? s h := rfl

/-! ### Proposals -/

/-- R525: entry i of the proposal list, zeros where it holds none (log 150). -/
def proposalAt (s : State) (i : Nat) : List Byte :=
  match s.plcMac.proposals[i]? with
  | some x => proposalBytes x
  | none => le 40 0

theorem plcProposalsGet_of_in_range {r : Req} {s : State} (hcount : rd r.payload 2 2 ≤ 64)
    (hend : rd r.payload 0 2 + rd r.payload 2 2 ≤ 4096) :
    plcProposalsGet r s = replyOk s ((List.range (rd r.payload 2 2)).map (fun i => proposalAt s (rd r.payload 0 2 + i))).flatten := by
  have hok : ¬ (decide (64 < rd r.payload 2 2) || decide (4096 < rd r.payload 0 2 + rd r.payload 2 2)) = true := by
    simp only [Bool.or_eq_true, decide_eq_true_eq]
    omega
  exact if_neg hok

theorem plcProposalsGet_of_out_of_range {r : Req} {s : State}
    (hout : 64 < rd r.payload 2 2 ∨ 4096 < rd r.payload 0 2 + rd r.payload 2 2) : plcProposalsGet r s = refuse s .badParam :=
  if_pos (by simpa using hout)

end Sys2Proof.Machine

open Sys2Proof Sys2Proof.Machine

/-- Settles O51, clause by clause, from the rule of each case. -/
theorem powerLineOpcodeEffects : Obligations.PowerLineOpcodeEffects := by
  unfold Obligations.PowerLineOpcodeEffects
  refine ⟨?status, ?calibration, ?recalibrate, ?calibrating, ?links, ?linksRefused, ?route, ?proposals, ?proposalsRefused, ?routeSet,
    ?direct, ?unpin, ?pollNow⟩
  case status => exact fun r s h => next_serve_done h rfl
  case calibration => exact fun r q s h hq => next_serve_done h (plcCalGet_of_port (s := taken r s) hq)
  case recalibrate =>
    intro r q s h hq
    refine ⟨fun hstate => ?_, fun hstate => ?_, fun habsent hdisabled => ⟨fun hrun => ⟨_, rfl, ?_⟩, fun hrun => ?_⟩⟩
    · exact next_serve_done h (plcRecalibrate_of_absent (s := taken r s) hq hstate)
    · exact next_serve_done h (plcRecalibrate_of_disabled (s := taken r s) hq hstate)
    · exact next_serve_pend h (plcRecalibrate_of_held (s := taken r s) hq habsent hdisabled hrun)
    · exact next_serve_pend h (plcRecalibrate_of_free (s := taken r s) hq habsent hdisabled hrun)
  case calibrating =>
    intro q s _
    rw [startCal_plcp]
    exact ⟨rfl, rfl⟩
  case links => exact fun r h e s hs hep => ⟨_, rfl, next_serve_done hs (plcLinkGet_of_endpoint (s := taken r s) hep)⟩
  case linksRefused => exact fun r s hs hep => next_serve_done hs (plcLinkGet_of_not_enrolled (s := taken r s) hep)
  case route => exact fun r h e s hs hep => next_serve_done hs (plcRouteGet_of_endpoint (s := taken r s) hep)
  case proposals => exact fun r s hs hcount hend => next_serve_done hs (plcProposalsGet_of_in_range (s := taken r s) hcount hend)
  case proposalsRefused => exact fun r s hs hout => next_serve_done hs (plcProposalsGet_of_out_of_range (s := taken r s) hout)
  case routeSet =>
    rintro r h e _ s hs hep rfl hfew hreserved hrelays hdistinct hset
    have hgood : RelaysGood r.payload h e (taken r s) := ⟨hfew, hreserved, hrelays, hdistinct⟩
    exact ⟨_, _, rfl, rfl, next_serve_done hs (plcRouteSet_of_good (s := taken r s) hep hgood hset)⟩
  case direct =>
    intro h q e s he
    rw [setRoute_of_no_relay]
    exact ⟨rfl, (ep?_freePaths h _).trans (ep?_updEp h _ e s he)⟩
  case unpin => exact fun r h e s hs hep => ⟨_, rfl, next_serve_done hs (plcRouteUnpin_of_endpoint (s := taken r s) hep)⟩
  case pollNow =>
    intro r h e s hs hep hkind hreserved hserves
    exact ⟨_, next_serve_pend hs (plcPollNow_of_serving (s := taken r s) hep _ hkind hreserved hserves), rfl, rfl⟩

end

section
/-! Transactions of the power line (R131, R132, R158 to R163): one rule per case of each command, then O52. -/

namespace Sys2Proof.Machine

/-! ### Starts and attempts -/

theorem transactionStart_of_free {q t : Nat} {x : PlcTxn} {s : State} (hcom : s.cfg.everCommitted = true) (hnow : s.now ≤ t)
    (hfree : groupFree s q t = true) (hnext : nextTxn s q = some x) : transactionStart q t s = startTxn x (advTo t s) := by
  simp [transactionStart, hcom, hnow, hfree, hnext]

theorem transactionStart_of_held {q t : Nat} {s : State} (hheld : groupFree s q t = false) : transactionStart q t s = s := by
  simp [transactionStart, hheld]

/-- R159: the transaction whose POLL goes out, with the end of the POLL and the deadline that follow from its length. -/
theorem plcTransmit_running (x : PlcTxn) (s : State) :
    ∃ tp d, tfind (plcTransmit x s).plcMac.running x.port =
      some { x with inAttempt := true, ldRetry := false, gate := false, judging := false, pollEnd := tp, deadline := d } :=
  ⟨_, _, tfind_tset_same _ x.port _⟩

/-- R131: the port whose POLL goes out. -/
theorem plcTransmit_plcp (x : PlcTxn) (s : State) :
    plcp (plcTransmit x s) x.port =
      { plcp s x.port with state := .transmitting, ldEnN := false, polls := (plcp s x.port).polls + 1 } :=
  setPlc_plcp x.port (fun p => { p with state := .transmitting, ldEnN := false, polls := p.polls + 1 }) s

/-- R131, 05 R107: the port listens after its last sample, and the custody entries of the POLL have been sent. -/
theorem plcTransmitEnd_of_transmitting {q : Nat} {x : PlcTxn} {s : State} (hrun : tfind s.plcMac.running q = some x)
    (hstate : (plcp s q).state = .transmitting) :
    plcTransmitEnd q s = noteEp x.handle (fun e => { e with plcCustody := e.plcCustody.filter (fun f => !x.custody.contains f) })
      (setPlc q (fun p => { p with state := .listening, ldEnN := true }) (advTo (x.pollEnd + tUs 20) s)) := by
  simp [plcTransmitEnd, hrun, hstate]

theorem ep?_setPlc (h q : Nat) (f : PlcPort → PlcPort) (s : State) : ep? (setPlc q f s) h = ep? s h := rfl

/-- R158: a transaction without a campaign step passes no gate. -/
theorem nextAttempt_of_no_camp {x : PlcTxn} (hcamp : x.camp = none) (s : State) : nextAttempt x s = plcTransmit x s := by
  simp only [nextAttempt, txnStep_none s x hcamp]

/-! ### Failed attempts and transactions -/

/-- R159: the deadline passes with nothing in reception. -/
theorem pollDeadline_of_silence {q : Nat} {x : PlcTxn} {s : State} (hrun : runIn s q = some x) (hattempt : x.inAttempt = true)
    (hjudging : x.judging = false) (hstate : (plcp s x.port).state = .listening) (hrx : (plcp s x.port).rx = none) :
    pollDeadline q s = attemptFailed x .noFrame (setPlc x.port (fun p => { p with deadlines := p.deadlines + 1 }) (advTo x.deadline s)) := by
  simp [pollDeadline, hrun, hattempt, hjudging, hstate, hrx]

/-- R158, R161: one of the first three attempts fails, and the next one waits for the retry gap. -/
theorem attemptFailed_of_fewer {x : PlcTxn} (c : PlcCause) (s : State) (hfewer : x.attempt < 4) :
    ∃ u, attemptFailed x c s = setRun { x with inAttempt := false, judging := false, nextAt := u.mono + tMs (pval u 0x3001) } u :=
  ⟨_, if_pos hfewer⟩

/-- R161: a fault of the port names no hop. -/
theorem attemptFailed_portFault_of_last {x : PlcTxn} (s : State) (hlast : 4 ≤ x.attempt) :
    attemptFailed x .portFault s = txnFailed x s :=
  if_neg (Nat.not_lt.2 hlast)

theorem retryGap_of_waiting {q : Nat} {x : PlcTxn} {s : State} (hrun : runIn s q = some x) (hattempt : x.inAttempt = false)
    (hld : x.ldRetry = false) (hgate : x.gate = false) (hmade : x.attempt ≠ 0) (hserves : plcServes s x.port = true) :
    retryGap q s = nextAttempt { x with attempt := x.attempt + 1 } (advMono x.nextAt s) := by
  simp [retryGap, hrun, hattempt, hld, hgate, hmade, hserves]

section PollState
variable {x : PlcTxn} {e : Endpoint} {s : State} (he : ep? s x.handle = some e) (hpoll : e.poll ≠ .unreachable)
include he hpoll

/-- Table 06-9: fewer failures in a row than PLC_UNREACH_POLLS. -/
theorem pollFailed_of_few (hfew : e.pollFails + 1 < pval s 0x3008) :
    ∃ next : Endpoint → Nat, pollFailed x s =
      updEp x.handle (fun e' => { e' with poll := .suspect, pollFails := e.pollFails + 1, nextRead := next e' }) s := by
  simp only [pollFailed, he, beq_eq_false_iff_ne.2 hpoll, if_neg (Nat.not_le.2 hfew), Bool.false_eq_true, if_false]
  exact ⟨_, rfl⟩

/-- Table 06-9: PLC_UNREACH_POLLS failures in a row. -/
theorem pollFailed_of_many (hmany : pval s 0x3008 ≤ e.pollFails + 1) :
    ∃ next, pollFailed x s = recalcOne x.handle (raise 0x32
      (updEp x.handle (fun e' => { e' with poll := .unreachable, pollFails := e.pollFails + 1, nextRead := next }) s)) := by
  simp only [pollFailed, he, beq_eq_false_iff_ne.2 hpoll, if_pos hmany, Bool.false_eq_true, if_false]
  exact ⟨_, rfl⟩

end PollState

/-! ### Good responses -/

/-- R153, R162: the link table once the slots of a RESPONSE are in and every hop's run has gone on, the response counted. -/
def linksReported (x : PlcTxn) (slots : List Byte) (s : State) : State :=
  (hopsDown x.relays x.handle ++ hopsUp x.relays x.handle).foldl (fun s y => updLink x.port y.1 y.2 runOf s)
    (takeSlots x slots (setPlc x.port (fun p => { p with good := p.good + 1 }) s))

theorem ep?_linksReported (h : Nat) (x : PlcTxn) (slots : List Byte) (s : State) : ep? (linksReported x slots s) h = ep? s h := by
  rw [linksReported, foldl_keeps (fun u => ep? u h) _ (fun u y => updLink_keeps (fun u => ep? u h) (by intros; rfl) _ _ _ _ u),
    takeSlots_keeps (fun u => ep? u h) (by intros; rfl), ep?_setPlc]

/-- R163: what a GOOD RESPONSE that ends at t leaves of its endpoint. -/
def afterGood (x : PlcTxn) (t : Nat) (e : Endpoint) : Endpoint :=
  { e with
    poll := .reachable, pollFails := 0, lastGood := t, reportIn := if bit x.kind 0 then e.reportS else e.reportIn
    nextRead := if bit x.kind 0 || e.poll == .unreachable then t + tSec e.reportS else e.nextRead }

theorem txnGood_eq (x : PlcTxn) (slots : List Byte) (t : Nat) (s : State) :
    txnGood x slots t s = startRecals x.port (answerPollNow x true (leavePort x
      (updEp x.handle (afterGood x t) (linksReported x slots s)))) :=
  rfl

/-! ### Line-driver faults -/

/-- R132: the transaction whose attempt is made again 1 s after the state's instant. -/
def ldRetryTxn (x : PlcTxn) (v : State) : PlcTxn := { x with inAttempt := false, ldRetry := true, nextAt := v.mono + tSec 1 }

/-- R132: the transaction in progress on the port, if there is one, waits for its retry. -/
def awaitLdRetry (q : Nat) (v : State) : State :=
  match tfind v.plcMac.running q with
  | some x => setRun (ldRetryTxn x v) v
  | none => v

theorem awaitLdRetry_of_running {q : Nat} {x : PlcTxn} {v : State} (hrun : tfind v.plcMac.running q = some x) :
    awaitLdRetry q v = setRun (ldRetryTxn x v) v := by
  simp only [awaitLdRetry, hrun]

theorem awaitLdRetry_frame (q : Nat) (v : State) : awaitLdRetry q v = { v with plcMac := (awaitLdRetry q v).plcMac } := by
  unfold awaitLdRetry
  split <;> rfl

/-- R132: the faults of the port within the last 60 s, this one left out. -/
def faultsBefore (q t : Nat) (s : State) : List Nat := (plcp s q).faults.filter (fun u => (advTo t s).mono < u + tSec 60)

/-- R132: the port once a fault at t has been noted, in state v. -/
structure FaultNoted (q : Nat) (s v : State) : Prop where
  pend : v.evt.pend.getLsbD 0x30 = true
  idle : (plcp v q).state = .idle
  counted : (plcp v q).ldFaults = (plcp s q).ldFaults + 1
  mac : v.plcMac = s.plcMac

section LdFault
variable {q t : Nat} {s : State} (hq : q < 16) (hstate : (plcp s q).state = .transmitting)
include hq hstate

/-- R132: one of the first two faults within 60 s. -/
theorem ldFault_of_few (hfew : 1 + (faultsBefore q t s).length < 3) : ∃ v, FaultNoted q s v ∧ ldFault q t s = awaitLdRetry q v := by
  obtain ⟨v, hpend, hidle, hcounted, hmac, hfault⟩ := ldFault_facts q t s hq hstate
  refine ⟨v, ⟨hpend, hidle, hcounted, hmac⟩, (hfault.trans (if_neg (Nat.not_le.2 hfew))).trans ?_⟩
  rfl

/-- R132, R172: the third fault within 60 s. -/
theorem ldFault_of_third (hthird : 3 ≤ 1 + (faultsBefore q t s).length) :
    ∃ v, ldFault q t s = endPortTxns q (noteCaps v (raise 0x31 (setPlc q (fun p => { p with state := .fault }) v))) := by
  obtain ⟨v, -, -, -, -, hfault⟩ := ldFault_facts q t s hq hstate
  exact ⟨v, hfault.trans (if_pos hthird)⟩

end LdFault

theorem ldFaultRetry_of_due {q : Nat} {x : PlcTxn} {s : State} (hrun : tfind s.plcMac.running q = some x) (hld : x.ldRetry = true)
    (hserves : plcServes s q = true) :
    ldFaultRetry q s = nextAttempt { x with ldRetry := false } (setPlc q (fun p => { p with ldFaultN := true }) (advMono x.nextAt s)) := by
  simp [ldFaultRetry, hrun, hld, hserves]

end Sys2Proof.Machine

open Sys2Proof Sys2Proof.Machine

/-- Settles O52, clause by clause, from the rule of each case. -/
theorem powerLineTransactionEffects : Obligations.PowerLineTransactionEffects := by
  unfold Obligations.PowerLineTransactionEffects
  refine ⟨?start, ?startHeld, ?started, ?transmitted, ?transmitEnd, ?deadline, ?attemptFails, ?lastFails, ?retry, ?attempt, ?suspect,
    ?unreachable, ?good, ?ldFault, ?ldFaultThird, ?ldRetry⟩
  case start => exact fun q t x s hcom hnow hfree hnext => congrArg Host.Outcome.next (transactionStart_of_free hcom hnow hfree hnext)
  case startHeld => exact fun q t s hheld => congrArg Host.Outcome.next (transactionStart_of_held hheld)
  case started =>
    intro x e key u s he hcamp hkey
    obtain ⟨k, custody, sec, w, hstart⟩ := startTxn_eq x e key u s he hcamp hkey
    refine ⟨_, w, hstart, ?_⟩
    simp only [and_self]
  case transmitted =>
    intro x s
    obtain ⟨tp, d, hrun⟩ := plcTransmit_running x s
    refine ⟨_, hrun, rfl, rfl, ?_⟩
    rw [plcTransmit_plcp]
    exact ⟨rfl, rfl, rfl⟩
  case transmitEnd =>
    intro q x s hrun hstate
    refine ⟨_, congrArg Host.Outcome.next (plcTransmitEnd_of_transmitting hrun hstate), ?_, ?_, fun e he => ?_⟩
    · rw [noteEp_plcp, setPlc_plcp]
    · rw [noteEp_plcp, setPlc_plcp]
    · exact ep?_noteEp x.handle _ e _ ((ep?_advTo _ x.handle s).trans he)
  case deadline =>
    exact fun q x s hrun hattempt hjudging hstate hrx =>
      ⟨_, rfl, congrArg Host.Outcome.next (pollDeadline_of_silence hrun hattempt hjudging hstate hrx)⟩
  case attemptFails =>
    intro x c s hfewer
    obtain ⟨u, hfails⟩ := attemptFailed_of_fewer c s hfewer
    rw [hfails]
    exact ⟨_, setRun_running _ u, rfl, rfl⟩
  case lastFails => exact fun x s hlast => attemptFailed_portFault_of_last s hlast
  case retry =>
    exact fun q x s hrun hattempt hld hgate hmade hserves =>
      congrArg Host.Outcome.next (retryGap_of_waiting hrun hattempt hld hgate hmade hserves)
  case attempt => exact fun x s hcamp => nextAttempt_of_no_camp hcamp s
  case suspect =>
    intro x e s he hpoll hfew
    obtain ⟨next, hfails⟩ := pollFailed_of_few he hpoll hfew
    rw [hfails]
    exact ⟨_, ep?_updEp x.handle _ e s he, rfl, rfl⟩
  case unreachable =>
    intro x e s he hpoll hmany
    obtain ⟨next, hfails⟩ := pollFailed_of_many he hpoll hmany
    exact ⟨_, _, hfails, (ep?_raise _ _ _).trans (ep?_updEp x.handle _ e s he), rfl, raise_set 0x32 _ (by decide) (by decide)⟩
  case good =>
    intro x slots t e s he
    have hep := ep?_updEp x.handle (afterGood x t) e (linksReported x slots s) ((ep?_linksReported x.handle x slots s).trans he)
    exact ⟨_, _, txnGood_eq x slots t s, hep, rfl, rfl, rfl⟩
  case ldFault =>
    intro q t s hq hstate _ hfaults
    have hfew : 1 + (faultsBefore q t s).length < 3 := by simp [faultsBefore, hfaults]
    obtain ⟨v, ⟨hpend, hidle, hcounted, hmac⟩, hfault⟩ := ldFault_of_few hq hstate hfew
    refine ⟨_, congrArg Host.Outcome.next hfault, ?_, ?_, ?_, fun x hrun hport => ?_⟩
    · rw [awaitLdRetry_frame]
      exact hpend
    · rw [awaitLdRetry_frame]
      exact hidle
    · rw [awaitLdRetry_frame]
      exact hcounted
    · rw [awaitLdRetry_of_running (hmac ▸ hrun), ← hport]
      exact ⟨_, setRun_running _ v, rfl, rfl, rfl⟩
  case ldFaultThird =>
    intro q t s hq hstate hthird
    obtain ⟨v, hfault⟩ := ldFault_of_third hq hstate hthird
    refine ⟨_, congrArg Host.Outcome.next hfault, noteCaps_keepbit v (raise_set 0x31 _ (by decide) (by decide)), ?_⟩
    rw [noteCaps_plcp, raise_plcp, setPlc_plcp]
  case ldRetry =>
    exact fun q x s hrun hld hserves => ⟨_, rfl, congrArg Host.Outcome.next (ldFaultRetry_of_due hrun hld hserves)⟩

end

section
/-! Reception on the power line and what falls due there (R136, R137, R140 to R142, R150, R151, R159, R160, R163, R164, R171): one rule per case of
each command, then O53. -/

namespace Sys2Proof.Machine

/-! ### Headers and symbols -/

/-- R136, R150: the frame that a header opens. -/
def openedRx (hdr : PlcHdrIn) : PlcRx :=
  { mode := bits hdr.bits.toNat 1 0, hdrSnr := hdr.snr, len := bits hdr.bits.toNat 20 12, left := bits hdr.bits.toNat 20 12 - 4 }

/-- R150: a header of the attempt awaited opens its packet. -/
theorem plcHeader_of_awaited {q : Nat} {hdr : PlcHdrIn} {fq : FtQueue} {s : State} (hhears : plcHears s q = true)
    (hrx : (plcp s q).rx = none) (hgood : headerBad hdr.bits hdr.crc = false) (hin : inListening s q hdr.at_ = true)
    (hqueue : rxQueue (advTo hdr.at_ s) q (plcHeaderWord q hdr.bits hdr.snr) false 0 = some fq) :
    plcHeader q hdr s = setPlc q (fun p => { p with rx := some (openedRx hdr), queue := fq }) (advTo hdr.at_ s) :=
  header_eq q hdr fq s hhears hrx hgood hin hqueue

section Symbol
variable {q : Nat} {sym : PlcSymIn} {rx : PlcRx} {s : State} (hrx : (plcp s q).rx = some rx) (hended : rx.ended = false)
  (hdoomed : rx.doomed = false) (hhears : plcHears s q = true)
include hrx hended hdoomed hhears

/-- R142: more symbols are erased than the mode tolerates. -/
theorem plcSymbol_of_beyond {r : PlcRx} (hr : r = takeSoft sym.soft rx (judgeSymbol sym.snr sym.clipPm rx))
    (hbeyond : allowance r.mode < r.erased) : (plcp (plcSymbol q sym s) q).rx = some { r with doomed := true } := by
  rw [symDoom_eq q sym rx r s hrx hended hdoomed hhears hr, if_pos hbeyond, setPlc_plcp]

theorem plcSymbol_of_within {r : PlcRx} (hr : r = takeSoft sym.soft rx (judgeSymbol sym.snr sym.clipPm rx))
    (hwithin : r.erased ≤ allowance r.mode) :
    plcSymbol q sym s = rxOctets q (decoded r sym.ready) false (setPlc q (fun p => { p with rx := some r }) s) :=
  (symDoom_eq q sym rx r s hrx hended hdoomed hhears hr).trans (if_neg (Nat.not_lt.2 hwithin))

end Symbol

/-- R140: a clipped symbol is erased, and opens a run of erasures. -/
theorem judgeSymbol_of_clipped {rx : PlcRx} {clip : Nat} (snr : Int) (hclip : 20 < clip) (hmark : rx.preMark = 0) :
    judgeSymbol snr clip rx = { markErased rx.symNo 1 { rx with symNo := rx.symNo + 1 } with runOpen := true } := by
  simp [judgeSymbol, symErased, hclip, hmark]

/-- R140: the soft bits of a clipped symbol are zeros. -/
theorem takeSoft_of_clipped {rx : PlcRx} {clip : Nat} (snr : Int) (soft : List Int) (hclip : 20 < clip) (hmark : rx.preMark = 0) :
    (takeSoft soft rx (judgeSymbol snr clip rx)).soft = rx.soft ++ [soft.map (fun _ => 0)] := by
  simp [judgeSymbol_of_clipped snr hclip hmark, takeSoft, markErased]

/-! ### The end of a frame -/

/-- R150, R151: a frame ends with its packet cut short already, or with no room for its trailers. -/
theorem plcFrameEnd_of_no_room {q : Nat} {fin : PlcEnd} {rx0 rx : PlcRx} {u s : State} (hrx0 : (plcp s q).rx = some rx0)
    (hended : rx0.ended = false) (hhears : plcHears s q = true) (hu : u = rxOctets q (decoded rx0 rx0.len) true (advTo fin.endTime s))
    (hrx : (plcp u q).rx = some rx) (hfull : rx.overflow = true ∨ trailerRoom (plcp u q).queue = false) :
    plcFrameEnd q fin s = setPlc q (fun p => { p with rx := some { rx with overflow := true, ended := true } }) u := by
  have hlive : ¬ (rx0.ended || !plcHears s q) = true := by simp [hended, hhears]
  have howed : (rx.overflow || !trailerRoom (plcp u q).queue) = true := by simpa using hfull
  simp only [plcFrameEnd, hrx0, if_neg hlive, ← hu, hrx, Option.getD_some, if_pos howed]

section Verdict
variable {q : Nat} {x : PlcTxn} {s : State} (hrun : tfind s.plcMac.running q = some x) (hattempt : x.inAttempt = true)
include hrun hattempt

/-- R159: the directory judges a GOOD frame. -/
theorem frameVerdict_of_good (hgood : noticeStatus (plcp s q).queue = 0) : frameVerdict q s = setRun { x with judging := true } s := by
  simp [frameVerdict, hrun, hattempt, hgood]

/-- R159, R161: a frame that is CRC_BAD or IMPULSE fails the attempt. -/
theorem frameVerdict_of_bad (hbad : noticeStatus (plcp s q).queue = 1 ∨ noticeStatus (plcp s q).queue = 2) :
    frameVerdict q s = attemptFailed x .badFrame s := by
  obtain hbad | hbad := hbad <;> simp [frameVerdict, hrun, hattempt, hbad]

/-- R159: a frame cut short leaves the attempt as it is. -/
theorem frameVerdict_of_cut_short (hcut : 3 ≤ noticeStatus (plcp s q).queue) : frameVerdict q s = s := by
  have hnotGood : noticeStatus (plcp s q).queue ≠ 0 := by omega
  have hnotBad : ¬ (noticeStatus (plcp s q).queue = 1 ∨ noticeStatus (plcp s q).queue = 2) := by omega
  simp [frameVerdict, hrun, hattempt, hnotGood, hnotBad]

end Verdict

/-- Table 06-7: the status stands in bits [3:0] of trailer 0. -/
theorem plcTrailer_status (status : Nat) (rx : PlcRx) (s : State) : (plcTrailer status rx s).1.toNat % 16 = status % 16 := by
  simp only [plcTrailer, BitVec.toNat_ofNat]
  omega

theorem plcTrailer_plc (status : Nat) (rx : PlcRx) (s : State) : (plcTrailer status rx s).2.plc = s.plc :=
  plcTrailer_keeps State.plc (by intros; rfl) status rx s

/-- R151: two stages are free again after an overflow. -/
theorem plcOverflow_of_room {q : Nat} {rx : PlcRx} (fin : PlcEnd) {s : State} (hrx : (plcp s q).rx = some rx) (howed : rx.overflow = true)
    (hroom : trailerRoom (plcp s q).queue = true) :
    plcOverflow q fin s = pushPlcTrailers q (plcTrailer 5 rx s).1 (BitVec.ofNat 64 fin.endTime) (plcTrailer 5 rx s).2 := by
  simp only [plcOverflow, hrx, howed, hroom, Bool.and_self, if_true]

/-! ### What falls due -/

/-- R160: a read that has to wait is counted as overdue on its port. -/
def overdueNoted (e : Endpoint) (s : State) : State :=
  if (runIn s e.port).isSome || !(waitingOn s e.port).isEmpty || e.adm == .restoring then
    setPlc e.port (fun p => { p with overdue := p.overdue + 1 }) s
  else s

theorem overdueNoted_frame (e : Endpoint) (s : State) : overdueNoted e s = { s with plc := (overdueNoted e s).plc } := by
  unfold overdueNoted
  split <;> rfl

/-- R160: the read of an endpoint that is read on a schedule and has none under way. -/
structure ReadFalls (h : Nat) (e : Endpoint) (s : State) : Prop where
  enrolled : ep? s h = some e
  plc : e.plc = true
  scheduled : e.reportIn ≠ 0
  heard : e.poll ≠ .unreachable
  serves : plcServes s e.port = true
  committed : s.cfg.everCommitted = true
  queued : queuedFor s h 1 3 = false
  runs : readRuns s h = false

theorem readDue_of_falls {h : Nat} {e : Endpoint} {s : State} (hfalls : ReadFalls h e s) :
    readDue h s = enqueue h e.port 1 3 (overdueNoted e (advTo e.nextRead s)) := by
  obtain ⟨he, hplc, hscheduled, hheard, hserves, hcom, hqueued, hruns⟩ := hfalls
  simp [readDue, overdueNoted, he, hplc, hscheduled, hheard, hserves, hcom, hqueued, hruns]

section Due
variable {h : Nat} {e : Endpoint} {s : State} (he : ep? s h = some e) (hplc : e.plc = true)
include he hplc

theorem unreachRetry_of_unreachable (hpoll : e.poll = .unreachable) (hserves : plcServes s e.port = true)
    (hqueued : queuedFor s h (retryKind e) 3 = false) (hruns : s.plcMac.running.any (fun y => y.2.handle == h) = false) :
    unreachRetry h s = enqueue h e.port (retryKind e) 3 (advTo e.nextRead s) := by
  simp only [unreachRetry, he, hplc, hpoll, hserves, hqueued, hruns]
  rfl

theorem custodyMax_of_held (hheld : e.plcCustody ≠ []) (hqueued : queuedFor s h 4 2 = false) :
    custodyMax h s = enqueue h e.port 4 2 (advTo (tSec (e.plcCustodySince + pval s 0x300D)) s) := by
  simp [custodyMax, he, hplc, hheld, hqueued]

theorem askNbr_of_reachable (hpoll : e.poll = .reachable) (hserves : plcServes s e.port = true) (hqueued : queuedFor s h 2 4 = false) :
    askNbr h s = enqueue h e.port 2 4 (updEp h (fun e => { e with nbrDue := true }) s) := by
  simp [askNbr, he, hplc, hpoll, hserves, hqueued]

end Due

theorem nbrDue_of_off {s : State} (hoff : pval s 0x300C = 0) : nbrDue s = s := if_pos hoff

/-- R160: a round of neighbour requests, PLC_NBR_S after the last. -/
theorem nbrDue_of_on {s : State} (hon : pval s 0x300C ≠ 0) :
    nbrDue s =
      let u := roundAt s.plcMac.lastNbr (pval s 0x300C) s
      (u.eps.map (fun y => y.1)).foldl (fun s h => askNbr h s) { u with plcMac.lastNbr := some u.mono } :=
  if_neg hon

theorem linkAge_of_link {i : Nat} {l : PlcLink} {s : State} (hl : s.plcMac.links[i]? = some l) :
    linkAge i s = setLinks (s.plcMac.links.erase l) (advMono (l.refreshed + tSec (pval s 0x300B)) s) := by
  simp only [linkAge, hl]

/-! ### Calibration -/

theorem calStatus_of_sound {m : CalIn} (hld : m.ldFault = false) (hlo : -4000 ≤ m.gain) (hhi : m.gain ≤ 600) : calStatus m = 0 := by
  simp [calStatus, hld, hlo, hhi]

theorem calStatus_of_failed {m : CalIn} (hfailed : m.ldFault = true ∨ m.gain < -4000 ∨ 600 < m.gain) : calStatus m ≠ 0 := by
  unfold calStatus
  split
  · decide
  · next hld =>
    have hgain : (decide (m.gain < -4000) || decide (600 < m.gain)) = true := by simpa [hld] using hfailed
    rw [if_pos hgain]
    decide

/-- R172: a port that fails raises event 0x31. -/
theorem calAfter_pend_of_failed {m : CalIn} (q : Nat) (s : State) (hfailed : calStatus m ≠ 0) :
    (calAfter q m s).evt.pend.getLsbD 0x31 = true := by
  rw [calAfter, bne_iff_ne.2 hfailed]
  exact noteCaps_keepbit s (raise_set 0x31 _ (by decide) (by decide))

end Sys2Proof.Machine

open Sys2Proof Sys2Proof.Machine

/-- Settles O53, clause by clause, from the rule of each case. -/
theorem powerLineReceptionEffects : Obligations.PowerLineReceptionEffects := by
  unfold Obligations.PowerLineReceptionEffects
  refine ⟨?headerBad, ?headerStray, ?header, ?symbol, ?clipped, ?frameEnd, ?verdict, ?overflowTrailer, ?read, ?unreachable, ?custody,
    ?queued, ?neighboursOff, ?neighbours, ?neighbour, ?round, ?linkAge, ?recalc, ?calibration⟩
  case headerBad => exact fun q hdr s hhears hrx hbad => ⟨_, rfl, congrArg Host.Outcome.next (plcHeader_of_bad hhears hrx hbad)⟩
  case headerStray =>
    exact fun q hdr s hhears hrx hgood hstray => ⟨_, rfl, congrArg Host.Outcome.next (plcHeader_of_stray hhears hrx hgood hstray)⟩
  case header =>
    intro q hdr fq s hhears hrx hgood hin hqueue
    refine ⟨_, openedRx hdr, congrArg Host.Outcome.next (plcHeader_of_awaited hhears hrx hgood hin hqueue), ?_⟩
    rw [setPlc_plcp]
    exact ⟨rfl, rfl, rfl, rfl, rfl, rfl⟩
  case symbol =>
    intro q sym rx r s hrx hended hdoomed hhears hr
    refine ⟨fun hbeyond => ?_, fun hwithin => ?_⟩
    · exact ⟨_, _, rfl, plcSymbol_of_beyond hrx hended hdoomed hhears hr hbeyond, rfl⟩
    · exact ⟨_, rfl, congrArg Host.Outcome.next (plcSymbol_of_within hrx hended hdoomed hhears hr hwithin)⟩
  case clipped =>
    intro rx snr clip soft hclip hmark
    refine ⟨?_, ?_, takeSoft_of_clipped snr soft hclip hmark⟩
    · rw [judgeSymbol_of_clipped snr hclip hmark]
      rfl
    · rw [judgeSymbol_of_clipped snr hclip hmark]
      rfl
  case frameEnd =>
    intro q fin rx0 rx u s hrx0 hended hhears hu hrx
    refine ⟨fun hfull => ?_, fun hwhole hroom => ?_⟩
    · exact ⟨_, rfl, congrArg Host.Outcome.next (plcFrameEnd_of_no_room hrx0 hended hhears hu hrx hfull)⟩
    · obtain ⟨t0, v, hend⟩ := frameEnd_eq q fin rx0 rx u s hrx0 hended hhears hu hrx hwhole hroom
      refine ⟨_, _, rfl, congrArg Host.Outcome.next hend, ?_⟩
      rw [pushPlcTrailers_plcp, setPlc_plcp]
      exact ⟨rfl, rfl⟩
  case verdict =>
    exact fun q x s hrun hattempt => ⟨frameVerdict_of_good hrun hattempt, frameVerdict_of_bad hrun hattempt,
      frameVerdict_of_cut_short hrun hattempt⟩
  case overflowTrailer =>
    exact fun q fin rx s hrx howed hroom => ⟨_, _, congrArg Host.Outcome.next (plcOverflow_of_room fin hrx howed hroom),
      plcTrailer_plc 5 rx s, plcTrailer_status 5 rx s⟩
  case read =>
    intro h e s he hplc hscheduled hheard hserves hcom hqueued hruns
    refine ⟨_, congrArg Host.Outcome.next (readDue_of_falls ⟨he, hplc, hscheduled, hheard, hserves, hcom, hqueued, hruns⟩), ?_⟩
    rw [overdueNoted_frame]
    exact ⟨advTo_keeps State.plcMac (by intros; rfl) e.nextRead s, le_advTo e.nextRead s⟩
  case unreachable =>
    exact fun h e s he hplc hpoll hserves hqueued hruns =>
      congrArg Host.Outcome.next (unreachRetry_of_unreachable he hplc hpoll hserves hqueued hruns)
  case custody => exact fun h e s he hplc hheld hqueued => congrArg Host.Outcome.next (custodyMax_of_held he hplc hheld hqueued)
  case queued => exact fun h q k r s => rfl
  case neighboursOff => exact fun s hoff => congrArg Host.Outcome.next (nbrDue_of_off hoff)
  case neighbours =>
    rintro _ s hon rfl
    exact ⟨_, rfl, congrArg Host.Outcome.next (nbrDue_of_on hon)⟩
  case neighbour => exact fun h e s he hplc hpoll hserves hqueued => ⟨_, rfl, askNbr_of_reachable he hplc hpoll hserves hqueued⟩
  case round => exact fun n t s => mono_le_advMono (t + tSec n) s
  case linkAge => exact fun i l s hl => ⟨_, congrArg Host.Outcome.next (linkAge_of_link hl), rfl⟩
  case recalc =>
    rintro _ s rfl
    exact ⟨_, rfl, rfl⟩
  case calibration =>
    intro q m s hq hstate hup hbist
    refine ⟨_, calAfter q m s, congrArg Host.Outcome.next (calDone_eq q m s hq hstate hup hbist), fun hld hlo hhi => ?_, fun hfailed => ?_⟩
    · rw [calAfter_port]
      simp [calPort, calStatus_of_sound hld hlo hhi]
    · have hstatus := calStatus_of_failed hfailed
      refine ⟨?_, calAfter_pend_of_failed q s hstatus⟩
      rw [calAfter_port]
      simp [calPort, hstatus]

end

section
/-! The ledger opcodes (R206, R257, R258, R277, R285, R286, R297, R299): one rule per case of each opcode, then O33. -/

namespace Sys2Proof.Machine

/-! ### LEDGER_GET -/

theorem ledgerGet_of_enrolled {r : Req} {e : Endpoint} {s : State} (hh : rd r.payload 0 4 < 1048576)
    (he : tfind s.eps (rd r.payload 0 4) = some e) :
    ledgerGet r s = replyOk (touch (rd r.payload 0 4) s) (le 4 (rd r.payload 0 4) ++ le 1 (admCode e.adm) ++
      le 1 (b2n (isPending s (rd r.payload 0 4 / 16))) ++ le 2 0 ++ imageBytes e.img) := by
  simp only [ledgerGet, he, if_neg (Nat.not_le.2 hh)]

/-- R206: a handle that is not enrolled. -/
theorem ledgerGet_of_not_enrolled {r : Req} {s : State} (he : tfind s.eps (rd r.payload 0 4) = none) : ledgerGet r s = refuse s .badParam := by
  simp only [ledgerGet, he]

/-! ### The streams of pages and statements -/

/-- R225: a channel that can be bound is one of the 32. -/
theorem lt_of_bindCheck_eq_none {c : Nat} {s : State} (h : bindCheck c s = none) : c < 32 := by
  by_contra hc
  rw [bindCheck, if_pos (Nat.not_lt.1 hc)] at h
  cases h

section Stream
variable {r : Req} {s : State} (hzero : zeroAt r.payload 1 3 = true) (hbind : bindCheck (rd r.payload 0 1) s = none)
include hzero hbind

theorem ledgerExportStart_of_unbound (hfree : s.ledger.exportChan = none) :
    ledgerExportStart r s = replyOk (bindChan (rd r.payload 0 1) .pages { s with ledger.exportChan := some (rd r.payload 0 1) }) := by
  simp [ledgerExportStart, hzero, hbind, hfree, lt_of_bindCheck_eq_none hbind]

theorem statementStart_of_unbound (hfree : s.ledger.stmtChan = none) :
    statementStart r s = replyOk (bindChan (rd r.payload 0 1) .statements { s with ledger.stmtChan := some (rd r.payload 0 1) }) := by
  simp [statementStart, hzero, hbind, hfree, lt_of_bindCheck_eq_none hbind]

end Stream

/-! ### LEDGER_CONFIRM and LEDGER_PENDING_GET -/

/-- R286: the entries of a LEDGER_CONFIRM: page, reserved bytes, version. -/
def confirmEntries (p : List Byte) : List (Nat × Nat × Nat) := (List.range (rd p 0 2)).map (confirmEntry p)

/-- R286: those of the entries that name the sealed version of a page where it is not confirmed yet. -/
def newlyConfirmed (s : State) (xs : List (Nat × Nat × Nat)) : List (Nat × Nat × Nat) :=
  xs.filter (fun x => x.2.2 == sealedVer s x.1 && x.2.2 != confVer s x.1)

/-- R286: what the confirmation of the pages of the entries leaves. -/
def pagesConfirmed (xs : List (Nat × Nat × Nat)) (s : State) : State := xs.foldl (fun s x => confirmPage x.1 s) s

section Confirm
variable {r : Req} {s : State} (hcount : rd r.payload 0 2 ≤ 1024) (hzero : zeroAt r.payload 2 2 = true)
  (hgood : (confirmEntries r.payload).any (fun x => x.2.1 != 0 || sealedVer s x.1 < x.2.2) = false)
include hcount hzero hgood

theorem ledgerConfirm_of_good : ledgerConfirm r s =
    if (newlyConfirmed s (confirmEntries r.payload)).isEmpty then replyOk s
    else replyOk (release { pagesConfirmed (newlyConfirmed s (confirmEntries r.payload)) s with
      roots.root := ledgerRoot (pagesConfirmed (newlyConfirmed s (confirmEntries r.payload)) s) }) := by
  unfold confirmEntries at *
  unfold ledgerConfirm
  rw [if_neg (by simp [hgood, hzero, hcount])]
  rfl

theorem ledgerConfirm_of_nothing_new (hnone : newlyConfirmed s (confirmEntries r.payload) = []) : ledgerConfirm r s = replyOk s := by
  rw [ledgerConfirm_of_good hcount hzero hgood, hnone]
  rfl

theorem ledgerConfirm_of_new (hnew : newlyConfirmed s (confirmEntries r.payload) ≠ []) :
    ledgerConfirm r s = replyOk (release { pagesConfirmed (newlyConfirmed s (confirmEntries r.payload)) s with
      roots.root := ledgerRoot (pagesConfirmed (newlyConfirmed s (confirmEntries r.payload)) s) }) := by
  rw [ledgerConfirm_of_good hcount hzero hgood, if_neg (by simpa using hnew)]

end Confirm

theorem confVer_confirmPage (p : Nat) (s : State) : confVer (confirmPage p s) p = sealedVer s p :=
  tget_tset_same s.roots.confVer p (sealedVer s p) 0

theorem page_confirmPage (p : Nat) (s : State) : page (confirmPage p s) p = { page s p with awaiting := false, late := false } :=
  tget_tupd_same s.ledger.pages p {} (fun x => { x with awaiting := false, late := false })

theorem ledgerPendingGet_of_count {r : Req} {s : State} (hcount : rd r.payload 2 2 ≤ 256) :
    ledgerPendingGet r s = replyOk s
      ((((pendingPages s).filter (rd r.payload 0 2 ≤ ·)).take (rd r.payload 2 2)).map (le 2)).flatten :=
  if_neg (Nat.not_lt.2 hcount)

/-! ### STATEMENT_CONFIRM and STATEMENT_REWIND -/

section Statements
variable {r : Req} {s : State}

/-- R258: an SSEQ that is confirmed already. -/
theorem statementConfirm_of_confirmed (hold : rd r.payload 0 4 ≤ s.roots.sseqConf) : statementConfirm r s = replyOk s :=
  if_pos hold

theorem statementConfirm_of_unwritten (hnew : s.roots.sseqConf < rd r.payload 0 4) (hbeyond : stmtLastWritten s < rd r.payload 0 4) :
    statementConfirm r s = refuse s .badParam := by
  rw [statementConfirm, if_neg (Nat.not_le.2 hnew), if_pos hbeyond]

/-- R258: the bundles up to the SSEQ go, whether or not the one being written is among them. -/
theorem statementConfirm_of_written (hnew : s.roots.sseqConf < rd r.payload 0 4) (hwritten : rd r.payload 0 4 ≤ stmtLastWritten s) :
    ∃ u, statementConfirm r s = replyOk u ∧ u.roots = { s.roots with sseqConf := rd r.payload 0 4 } ∧
      u.ledger.stmtSigned = s.ledger.stmtSigned.filter (fun b => rd r.payload 0 4 < b.bseq) := by
  rw [statementConfirm, if_neg (Nat.not_le.2 hnew), if_neg (Nat.not_lt.2 hwritten)]
  refine ⟨_, rfl, ?_, ?_⟩
  all_goals
    dsimp only
    split <;> rfl

/-- R258: what a STATEMENT_REWIND to SSEQ n leaves. -/
def statementsRewound (n : Nat) (s : State) : State :=
  { streamAnew .statements s with
    ledger.stmtOffset := 0
    ledger.stmtSigned := s.ledger.stmtSigned.map (fun b => if n ≤ b.bseq then { b with written := false } else b) }

theorem statementRewind_of_written (hnew : s.roots.sseqConf < rd r.payload 0 4) (hwritten : rd r.payload 0 4 ≤ stmtLastWritten s) :
    statementRewind r s = replyOk (statementsRewound (rd r.payload 0 4) s) :=
  if_neg (by simp; omega)

end Statements

/-! ### DISPLAY_SHOW -/

theorem displayShow_of_good {r : Req} {s : State} (hslot : rd r.payload 4 1 ≤ 3) (hzero : zeroAt r.payload 5 1 = true)
    (hlo : 10 ≤ rd r.payload 6 2) (hhi : rd r.payload 6 2 ≤ 300) (hep : thas s.eps (rd r.payload 0 4) = true) :
    displayShow r s = replyOk { s with
      ledger.show_ := some (rd r.payload 0 4, rd r.payload 4 1, s.mono + tSec (rd r.payload 6 2), 0) } :=
  if_neg (by simp [hzero, hep]; omega)

theorem displayShow_of_not_enrolled {r : Req} {s : State} (hep : thas s.eps (rd r.payload 0 4) = false) : displayShow r s = refuse s .badParam :=
  if_pos (by simp [hep])

end Sys2Proof.Machine

open Sys2Proof Sys2Proof.Machine

/-- Settles O33, clause by clause, from the rule of each case. -/
theorem ledgerOpcodeEffects : Obligations.LedgerOpcodeEffects := by
  unfold Obligations.LedgerOpcodeEffects
  refine ⟨?get, ?getUnknown, ?exportStart, ?confirm, ?confirmPage, ?pending, ?statementStart, ?confirmOld, ?confirmWritten, ?confirmBeyond,
    ?rewind, ?granite, ?status, ?display, ?displayUnknown⟩
  case get => exact fun r e s h hh he => next_serve_done h (ledgerGet_of_enrolled (s := taken r s) hh he)
  case getUnknown => exact fun r s h he => next_serve_done h (ledgerGet_of_not_enrolled (s := taken r s) he)
  case exportStart =>
    exact fun r s h hzero hfree hbind => ⟨_, rfl, next_serve_done h (ledgerExportStart_of_unbound (s := taken r s) hzero hbind hfree)⟩
  case confirm =>
    rintro r _ _ s h hcount hzero rfl hgood rfl
    exact ⟨fun hnone => next_serve_done h (ledgerConfirm_of_nothing_new (s := taken r s) hcount hzero hgood hnone),
      fun hnew => ⟨_, rfl, next_serve_done h (ledgerConfirm_of_new (s := taken r s) hcount hzero hgood hnew)⟩⟩
  case confirmPage => exact fun p s => ⟨confVer_confirmPage p s, congrArg Page.awaiting (page_confirmPage p s)⟩
  case pending => exact fun r s h hcount => next_serve_done h (ledgerPendingGet_of_count (s := taken r s) hcount)
  case statementStart =>
    exact fun r s h hzero hfree hbind => ⟨_, rfl, next_serve_done h (statementStart_of_unbound (s := taken r s) hzero hbind hfree)⟩
  case confirmOld => exact fun r s h hold => next_serve_done h (statementConfirm_of_confirmed (s := taken r s) hold)
  case confirmWritten =>
    intro r s h hnew hwritten
    obtain ⟨u, hrun, hroots, hsigned⟩ := statementConfirm_of_written (s := taken r s) hnew hwritten
    exact ⟨u, next_serve_done h hrun, hroots, hsigned⟩
  case confirmBeyond => exact fun r s h hnew hbeyond => next_serve_done h (statementConfirm_of_unwritten (s := taken r s) hnew hbeyond)
  case rewind =>
    exact fun r s h hnew hwritten =>
      ⟨_, next_serve_done h (statementRewind_of_written (s := taken r s) hnew hwritten), rfl, rfl, rfl⟩
  case granite => exact fun r s h => next_serve_done h rfl
  case status => exact fun r s h => next_serve_done h rfl
  case display =>
    exact fun r s h hslot hzero hlo hhi hep => ⟨_, rfl, next_serve_done h (displayShow_of_good (s := taken r s) hslot hzero hlo hhi hep)⟩
  case displayUnknown => exact fun r s h hep => next_serve_done h (displayShow_of_not_enrolled (s := taken r s) hep)

end

section
/-! The directory opcodes (R180, R183 to R190, R203, R204, R206): one rule per case of each opcode, then O34. -/

namespace Sys2Proof.Machine

/-- A request that is answered PENDING and then finally in the same step, as its command's outcome. -/
theorem next_serve_twice {v : Service} {r : Req} {s s1 : State} {st : Status} {p : List Byte} (h : Served v r s = true)
    (hrun : v.run (taken r s).nextOp r (taken r s) = .twice s1 st p) :
    (Host.Outcome.next (serve v r s) : Host.Outcome State Fault Refusal) =
      .next (answer v.opcode r st p (answer v.opcode r .pending [] s1)) :=
  congrArg Host.Outcome.next (serve_twice v r s s1 st p h hrun)

/-! ### ENROL -/

/-- R185: the entries of an ENROL. -/
def enrolEntries (p : List Byte) : List EnrolIn := (List.range (rd p 0 2)).map (enrolIn p)

/-- R185, R186: an ENROL does not wait, and none of its fields is refused with BAD_PARAM. -/
structure EnrolFields (p : List Byte) (s : State) : Prop where
  nowait : (decide (s.dir.rehash = 2) || s.dir.kdir.isNone) = false
  reserved : zeroAt p 2 2 = true
  count : rd p 0 2 ≤ 2048
  entries : firstBadSeen (enrolBadParam s) [] 0 (enrolEntries p) = none

/-- R180, log 86: no rehash runs, and the directory's key has been drawn. -/
theorem enrol_nowait {s : State} (hidle : s.dir.rehash ≠ 2) (hkey : s.dir.kdir.isSome = true) :
    (decide (s.dir.rehash = 2) || s.dir.kdir.isNone) = false := by
  simp [hidle, ← Option.not_isSome, hkey]

section Enrol
variable {r : Req} {s : State} (h : EnrolFields r.payload s)
include h

theorem enrol_of_enrolled {i : Nat}
    (hheld : firstBad (fun (x : EnrolIn) => thas s.eps x.handle) (enrolEntries r.payload) 0 = some i) :
    enrol r s = refuse s .badState (idxPayload i) := by
  obtain ⟨hnowait, hzero, hcount, hgood⟩ := h
  unfold enrolEntries at *
  simp only [enrol, hnowait, hzero, if_neg (Nat.not_lt.2 hcount), hgood, hheld, Bool.not_true, Bool.false_eq_true, if_false]

theorem enrol_of_placed {u : State}
    (hfree : firstBad (fun (x : EnrolIn) => thas s.eps x.handle) (enrolEntries r.payload) 0 = none)
    (hres : firstBadSeen (enrolNoRes s) [] 0 (enrolEntries r.payload) = none) (hplaced : placeAll (enrolEntries r.payload) 0 s = (u, none)) :
    enrol r s = .twice ((enrolEntries r.payload).foldl enrolSwitch u) .ok [] := by
  obtain ⟨hnowait, hzero, hcount, hgood⟩ := h
  unfold enrolEntries at *
  simp only [enrol, hnowait, hzero, if_neg (Nat.not_lt.2 hcount), hgood, hfree, hres, hplaced, Bool.not_true, Bool.false_eq_true, if_false]

end Enrol

theorem commitOne_eps (j : JEntry) (s : State) : (commitOne j s).eps = s.eps := commitOne_keeps State.eps (by intros; rfl) j s

/-- R288: an image that the ledger kept for the handle does not change a NEW endpoint. -/
theorem ep?_enrolHistory_of_new {h : Nat} {e : Endpoint} {s : State} (he : ep? s h = some e) (hnew : e.isNew = true) :
    ep? (enrolHistory h s) h = some e := by
  simp only [enrolHistory, he, hnew, if_true]
  split
  · split
    · simp only [ep?, commitOne_eps]
      exact he
    · exact he
  · exact he

/-- R183, Table 07-3: the target state of a NEW entry. -/
theorem ep?_enrolSwitch_of_new {x : EnrolIn} {e : Endpoint} {s : State} (he : ep? s x.handle = some e) (hnew : e.isNew = true)
    (hattach : bit x.attach 6 = true) :
    ep? (enrolSwitch s x) x.handle = some { e with adm := if bit x.attach 7 then .suspended else .admitted } := by
  simp only [enrolSwitch, hattach, if_true, Bool.not_true, Bool.false_and, Bool.false_eq_true, if_false]
  exact ep?_enrolHistory_of_new (s := dirtyPage _ _) (ep?_setAdm _ _ _ _ he) hnew

/-! ### WITHDRAW -/

/-- R184, R188: every endpoint listed begins to retire (log 87). -/
theorem withdraw_of_good {r : Req} {s : State} (hidle : s.dir.rehash ≠ 2) (hzero : zeroAt r.payload 2 2 = true)
    (hcount : (listedHandles r.payload).length ≤ 8192) (hrange : firstBad (fun h => decide (2 ^ 20 ≤ h)) (listedHandles r.payload) 0 = none)
    (hheld : badWithdraw s [] 0 (listedHandles r.payload) = none) (hsome : listedHandles r.payload ≠ []) :
    withdraw r s = .pend ((listedHandles r.payload).foldl (fun s h => retire h s) s) ((listedHandles r.payload).map Obj.handle) := by
  simp only [withdraw, if_neg hidle, hzero, if_neg (Nat.not_lt.2 hcount), hrange, hheld, List.isEmpty_eq_false_iff.2 hsome, Bool.not_true,
    Bool.false_eq_true, if_false]

/-! ### ADMIT_STATE_SET and ENDPOINT_UPDATE -/

/-- R189: the entries of an ADMIT_STATE_SET: handle, reserved bits, action. -/
def admitEntries (p : List Byte) : List (Nat × Nat × Nat) := (List.range (rd p 0 2)).map (admitEntry p)

section AdmitStates
variable {r : Req} {s : State} (hzero : zeroAt r.payload 2 2 = true) (hcount : rd r.payload 0 2 ≤ 8192)
  (hgood : firstBad (fun (x : Nat × Nat × Nat) => x.2.1 != 0 || (x.2.2 != 1 && x.2.2 != 2)) (admitEntries r.payload) 0 = none)
include hzero hcount hgood

theorem admitStateSet_of_changeable (hall : firstBad (fun (x : Nat × Nat × Nat) => !admitsChange s x.1) (admitEntries r.payload) 0 = none) :
    admitStateSet r s =
      replyOk ((admitEntries r.payload).foldl (fun s x => setAdm x.1 (if x.2.2 = 1 then .admitted else .suspended) s) s) := by
  unfold admitEntries at *
  simp only [admitStateSet, hzero, if_neg (Nat.not_lt.2 hcount), hgood, hall, Bool.not_true, Bool.false_eq_true, if_false]

theorem admitStateSet_of_not_changeable {i : Nat}
    (hbad : firstBad (fun (x : Nat × Nat × Nat) => !admitsChange s x.1) (admitEntries r.payload) 0 = some i) :
    admitStateSet r s = refuse s .badState (idxPayload i) := by
  unfold admitEntries at *
  simp only [admitStateSet, hzero, if_neg (Nat.not_lt.2 hcount), hgood, hbad, Bool.not_true, Bool.false_eq_true, if_false]

end AdmitStates

/-- R190: entry i of an ENDPOINT_UPDATE is applied. -/
def entryUpdated (p : List Byte) (s : State) (i : Nat) : State :=
  takeProfile (rd p (updOff i) 4) (rd p (updOff i + 10) 1) (updEp (rd p (updOff i) 4) (fun e =>
    { e with reportS := rd p (updOff i + 4) 4, supervS := 3600 * rd p (updOff i + 8) 2 }) s)

theorem endpointUpdate_of_good {r : Req} {s : State} (hzero : zeroAt r.payload 2 2 = true) (hcount : rd r.payload 0 2 ≤ 8192)
    (hgood : firstBad (updBad s r.payload) (List.range (rd r.payload 0 2)) 0 = none) :
    endpointUpdate r s = replyOk ((List.range (rd r.payload 0 2)).foldl (entryUpdated r.payload) s) := by
  simp only [endpointUpdate, hzero, if_neg (Nat.not_lt.2 hcount), hgood, Bool.not_true, Bool.false_eq_true, if_false]
  rfl

/-! ### Reads of an endpoint and its tallies -/

section Enrolled
variable {r : Req} {e : Endpoint} {s : State} (hh : rd r.payload 0 4 < 2 ^ 20) (he : ep? s (rd r.payload 0 4) = some e)
include hh he

theorem endpointGet_of_enrolled :
    endpointGet r s = replyOk (touch (rd r.payload 0 4) s) (le 8 e.addr.toNat ++ le 4 (rd r.payload 0 4) ++ le 1 (admCode e.adm + 8 * b2n e.plc) ++
      le 1 (attachByte e) ++ le 1 e.cls ++ le 1 e.profile ++ le 4 e.reportS ++ le 4 e.supervS ++ le 4 e.img.fcntTop ++ le 8 e.img.win.toNat ++
      le 4 e.dcnt ++ le 4 e.dupCnt.toNat ++ le 4 e.staleCnt.toNat) := by
  simp only [endpointGet, handleWord_of_handle hh, he, Option.bind_some, Option.map_some]

/-- R203: the record holds the tallies as they stood. -/
theorem tallyClear_of_enrolled :
    tallyClear r s = replyOk (record rcTallyClear (le 4 (rd r.payload 0 4) ++ tallyBytes e.img.tally)
      (updImg (rd r.payload 0 4) (fun i => { i with tally := {} }) s)) := by
  simp only [tallyClear, handleWord_of_handle hh, he, Option.bind_some, Option.map_some]

end Enrolled

theorem ep?_record (code : Nat) (payload : List Byte) (h : Nat) (s : State) : ep? (record code payload s) h = ep? s h :=
  record_keeps (fun u => ep? u h) (by intros; rfl) code payload s

/-- R206: a handle that is not enrolled, or is none. -/
theorem endpointGet_of_not_enrolled {r : Req} {s : State} (he : ep? s (rd r.payload 0 4) = none) : endpointGet r s = refuse s .badParam := by
  by_cases hh : rd r.payload 0 4 < 2 ^ 20
  · simp only [endpointGet, handleWord_of_handle hh, he, Option.bind_some, Option.map_none]
  · have hword : handleWord r.payload 0 = none := if_pos (Nat.not_lt.1 hh)
    simp only [endpointGet, hword, Option.bind_none]

/-- R203: the tallies of a handle as TALLY_GET reports them. -/
def tallyRecord (s : State) (h : Nat) : List Byte :=
  le 4 h ++ (match ep? s h with
    | some e => tallyBytes e.img.tally
    | none => le 16 0)

theorem tallyGetOp_of_in_range {r : Req} {s : State} (hzero : zeroAt r.payload 6 2 = true) (hcount : rd r.payload 4 2 ≤ 256)
    (hfirst : rd r.payload 0 4 < 2 ^ 20) (hlast : rd r.payload 0 4 + rd r.payload 4 2 ≤ 2 ^ 20) :
    tallyGetOp r s = replyOk ((List.range (rd r.payload 4 2)).foldl (fun s i => touch (rd r.payload 0 4 + i) s) s)
      (((List.range (rd r.payload 4 2)).map (fun i => tallyRecord s (rd r.payload 0 4 + i))).flatten) :=
  if_neg (by simp [hzero]; omega)

/-! ### Addresses -/

theorem addrLookup_of_absent {r : Req} {s : State} (hf : lookup s (BitVec.ofNat 64 (rd r.payload 0 8)) = none) :
    addrLookup r s = replyOk (countLookup none s) (le 4 0xFFFFFFFF ++ le 4 0) := by
  simp only [addrLookup, hf]

theorem addrLookup_of_found {r : Req} {f : Found} {s : State} (hf : lookup s (BitVec.ofNat 64 (rd r.payload 0 8)) = some f) :
    addrLookup r s = replyOk (countLookup (some f) s)
      (le 4 f.handle ++ le 1 (admCode f.state + 8 * b2n f.plc) ++ le 1 (if f.inStash then 2 else 1) ++ le 2 0) := by
  simp only [addrLookup, hf]

/-- R180, R206: a rehash under way is joined, and one starts where no activity is in its way. -/
theorem dirRehash_of_free {s : State} (hfree : s.dir.rehash ≠ 0 ∨ busyFor .rh s = false) : dirRehash s = .pend (queueRehash s) [] :=
  if_neg (by simpa [← imp_iff_not_or] using hfree)

theorem unknownGet_of_in_range {r : Req} {s : State} (hcount : rd r.payload 2 2 ≤ 64) (hlast : rd r.payload 0 2 + rd r.payload 2 2 ≤ 1024) :
    unknownGet r s = replyOk s (((List.range (rd r.payload 2 2)).map (fun i => unknownRecord s (rd r.payload 0 2 + i))).flatten) :=
  if_neg (by simp; omega)

end Sys2Proof.Machine

open Sys2Proof Sys2Proof.Machine

/-- Settles O34, clause by clause, from the rule of each case. -/
theorem directoryOpcodeEffects : Obligations.DirectoryOpcodeEffects := by
  unfold Obligations.DirectoryOpcodeEffects
  refine ⟨?enrol, ?enrolHeld, ?switch, ?withdraw, ?admitState, ?update, ?get, ?getUnknown, ?addrAbsent, ?addrFound, ?tallyGet, ?tallyClear,
    ?status, ?rehash, ?unknownGet, ?unknownClear⟩
  case enrol =>
    rintro r _ u s h rfl hidle hkey hzero hcount hgood hfree hres hplaced
    exact next_serve_twice h (enrol_of_placed (s := taken r s) ⟨enrol_nowait hidle hkey, hzero, hcount, hgood⟩ hfree hres hplaced)
  case enrolHeld =>
    rintro r _ i s h rfl hidle hkey hzero hcount hgood hheld
    exact next_serve_done h (enrol_of_enrolled (s := taken r s) ⟨enrol_nowait hidle hkey, hzero, hcount, hgood⟩ hheld)
  case switch => exact fun s x e he hnew hattach => ep?_enrolSwitch_of_new he hnew hattach
  case withdraw =>
    intro r s h hidle hzero hcount hrange hheld hsome
    exact next_serve_pend h (withdraw_of_good (s := taken r s) hidle hzero hcount hrange ((badWithdraw_taken r s _ _ _).trans hheld) hsome)
  case admitState =>
    rintro r _ s h rfl hzero hcount hgood
    exact ⟨fun hall => next_serve_done h (admitStateSet_of_changeable (s := taken r s) hzero hcount hgood hall),
      fun i hbad => next_serve_done h (admitStateSet_of_not_changeable (s := taken r s) hzero hcount hgood hbad)⟩
  case update =>
    exact fun r s h hzero hcount hgood => ⟨_, rfl, next_serve_done h (endpointUpdate_of_good (s := taken r s) hzero hcount hgood)⟩
  case get => exact fun r e s h hh he => next_serve_done h (endpointGet_of_enrolled (s := taken r s) hh he)
  case getUnknown => exact fun r s h he => next_serve_done h (endpointGet_of_not_enrolled (s := taken r s) he)
  case addrAbsent => exact fun r s h hf => next_serve_done h (addrLookup_of_absent (s := taken r s) hf)
  case addrFound => exact fun r f s h hf => next_serve_done h (addrLookup_of_found (s := taken r s) hf)
  case tallyGet =>
    exact fun r s h hzero hcount hfirst hlast => next_serve_done h (tallyGetOp_of_in_range (s := taken r s) hzero hcount hfirst hlast)
  case tallyClear =>
    rintro r _ e s h rfl hh he
    exact ⟨_, next_serve_done h (tallyClear_of_enrolled (s := taken r s) hh he),
      (ep?_record _ _ _ _).trans (ep?_updImg _ _ _ (taken r s) he)⟩
  case status => exact fun r s h => next_serve_done h rfl
  case rehash => exact fun r s h hfree => next_serve_pend h (dirRehash_of_free (s := taken r s) hfree)
  case unknownGet => exact fun r s h hcount hlast => next_serve_done h (unknownGet_of_in_range (s := taken r s) hcount hlast)
  case unknownClear => exact fun r s h => ⟨_, rfl, next_serve_done h rfl⟩

end

section
/-! The directory's work on frames, contexts, retirements and rehashes (R175, R180, R181, R184, R194 to R199, R204, R219, R230): one rule per case
of each command, then O35. -/

namespace Sys2Proof.Machine

/-! ### Packets -/

/-- R59: a frame that ended at the last commit instant or later is handled under the values in force. -/
theorem valuesAt_of_committed {t : Nat} (f : State → State) {s : State} (ht : s.cfg.lastTc ≤ t) : valuesAt t f s = f s :=
  if_neg (Nat.not_lt.2 ht)

theorem directoryAir_of_packet {l : Nat} {ws : List QWord} {q : FtQueue} {x : AirIn} {s : State} (hup : dirUp s = true) (hl : l < 256)
    (hq : takePacket (clearHead (lane s l).queue) = some (ws, q)) (hx : airIn ws = some x) :
    directoryAir l s = valuesAt x.endTime (airPacket { x with lane := l }) (setLane l (fun y => { y with queue := q }) s) := by
  rw [directoryAir, if_neg (by simp [hup, hl]), hq]
  simp only [hx]

/-- R194: of the packet's words the first is the header, and the last two are the trailers. -/
theorem directoryPlc_of_packet {q : Nat} {fq : FtQueue} {hd t0 t1 : QWord} {mid : List QWord} {s : State} (hup : dirUp s = true) (hq : q < 16)
    (hpacket : takePacket (clearHead (plcp s q).queue) = some (hd :: mid ++ [t0, t1], fq)) :
    directoryPlc q s = valuesAt t1.word.toNat (plcPacket q (bits t0.word.toNat 3 0)
      (packetOctets (mid ++ [t0, t1]) (min (bits hd.word.toNat 24 16 - 4) (8 * ((hd :: mid ++ [t0, t1]).length - 3)))) t1.word.toNat)
      (setPlc q (fun x => { x with queue := fq }) s) := by
  have hrev : (hd :: (mid ++ [t0, t1])).reverse = t1 :: t0 :: (mid.reverse ++ [hd]) := by simp
  rw [directoryPlc, if_neg (by simp [hup, hq]), hpacket]
  simp only [List.cons_append, hrev]

/-- Table 07-6: a GOOD DATA frame that asks for no ack, with room in the store, is looked up, counted and judged by its endpoint's state. -/
theorem airPacket_of_data {x : AirIn} {s : State} (hgood : x.status = 0) (hfits : storeFits s x.psdu.length = true)
    (hdata : isData x.psdu = true) (hlen : dataHead x.psdu + 8 ≤ x.psdu.length) (hnoack : bit (fcOf x.psdu) 3 = false) :
    airPacket x s = admitAir x (lookup s (BitVec.ofNat 64 (rd x.psdu 2 8)))
      (countLookup (lookup s (BitVec.ofNat 64 (rd x.psdu 2 8))) s) := by
  have hsrc : 10 ≤ x.psdu.length := by
    unfold dataHead at hlen
    omega
  have hroom : ∀ f, storeFits (countLookup f s) x.psdu.length = true := fun f => hfits
  simp [airPacket, hsrc, hgood, hroom, ackWanted, hnoack, hdata, Nat.not_lt.2 hlen]

/-! ### Admission by the endpoint's state (Table 07-2) -/

/-- R204: an address that no slot holds. -/
theorem admitAir_of_unknown (x : AirIn) (s : State) :
    admitAir x none s = noteUnknown (BitVec.ofNat 64 (rd x.psdu 2 8)) x.port 0 x.rssi s := rfl

theorem tallyInc_dir (h : Nat) (k : TallyKind) (s : State) : (tallyInc h k s).dir = s.dir :=
  tallyInc_keeps State.dir (by intros; rfl) h k s

section ByState
variable (x : AirIn) {f : Found} (s : State)

/-- R204: a handle in PENDING counts as not found (log 84). -/
theorem admitAir_of_pending (hstate : f.state = .pending) :
    admitAir x (some f) s = noteUnknown (BitVec.ofNat 64 (rd x.psdu 2 8)) x.port 0 x.rssi s := by
  simp [admitAir, hstate]

variable (hplc : f.plc = false)
include hplc

theorem admitAir_of_restoring (hstate : f.state = .restoring) :
    admitAir x (some f) s = { s with dir.deferred := s.dir.deferred + 1 } := by
  simp [admitAir, hstate, hplc]

theorem admitAir_of_suspended (hstate : f.state = .suspended) :
    admitAir x (some f) s = tallyInc f.handle .suspended { s with dir.suspFrames := s.dir.suspFrames + 1 } := by
  simp [admitAir, hstate, hplc]

theorem admitAir_of_retiring (hstate : f.state = .retiring) :
    admitAir x (some f) s = { s with dir.suspFrames := s.dir.suspFrames + 1 } := by
  simp [admitAir, hstate, hplc]

theorem admitAir_of_admitted (hstate : f.state = .admitted) (huse : cannotUse s f.handle = false) :
    admitAir x (some f) s = storeFrame (dataFrame f.handle x) s := by
  simp [admitAir, hstate, hplc, huse]

end ByState

/-! ### A frame in its turn (Table 07-6, steps 9 to 12) -/

theorem serialRelease_of_turn {id : Nat} {f : Frame} {s : State} (hf : frame? s id = some f) (hup : dirUp s = true) (hrun : s.fw.pause = none)
    (hstage : f.stage = .serial) (hturn : serialTurn s f = true) (huse : cannotUse s f.handle = false) :
    serialRelease id s = valuesAt f.endTime (runFrame f) (touch f.handle s) := by
  simp [serialRelease, hf, hup, hrun, hstage, hturn, huse]

section Run
variable {f : Frame} {e : Endpoint} {s u : State} (he : ep? s f.handle = some e)
include he

/-- R196: the frame's address is not the endpoint's. -/
theorem runFrame_of_other_address (haddr : e.addr ≠ f.src) (hplc : f.plc = false) :
    runFrame f s = frameDone f (noteUnknown f.src f.port 0 f.rssi { s with dir.aliases := s.dir.aliases + 1 }) := by
  simp [runFrame, he, haddr, discardFrame, hplc, b2n]

theorem runFrame_of_no_key (haddr : e.addr = f.src) (hplc : f.plc = false) (hkey : epKey f.handle s = (u, none)) :
    runFrame f s = frameDone f { u with dir.keyUnav := u.dir.keyUnav + 1 } := by
  simp [runFrame, he, haddr, hkey, hplc]

/-- Step 12: a frame that fails its MIC is tallied. -/
theorem runFrame_of_bad_mic {key : List Byte} (haddr : e.addr = f.src) (hkey : epKey f.handle s = (u, some key))
    (hopen : openFrame key f = none) : runFrame f s = discardFrame f (tallyInc f.handle .mic u) := by
  simp only [runFrame, he, haddr, bne_self_eq_false, Bool.false_eq_true, if_false, hkey, hopen]

/-- Step 12: one that passes it has been heard, whatever the window then finds (log 84). -/
theorem runFrame_of_good_mic {key plain : List Byte} (haddr : e.addr = f.src) (hkey : epKey f.handle s = (u, some key))
    (hopen : openFrame key f = some plain) : runFrame f s = dedupStep f plain (heard f plain u) := by
  simp only [runFrame, he, haddr, bne_self_eq_false, Bool.false_eq_true, if_false, hkey, hopen]

end Run

/-! ### Deduplication (R198, R199) -/

/-- R198: outside the first frame of an endpoint, the accepted counters are those above the window and those in it whose bit is clear. -/
theorem exists_dedup_eq_accept_iff {i : Image} (f jump : Nat) (hwin : i.win ≠ 0) :
    (∃ j, dedup i f jump = .accept j) ↔ i.fcntTop < f ∨ (i.fcntTop - f ≤ 63 ∧ i.win.getLsbD (i.fcntTop - f) = false) := by
  rw [dedup, if_neg hwin]
  by_cases hahead : i.fcntTop < f
  · simp [hahead]
  · by_cases hinside : i.fcntTop - f ≤ 63
    · cases hbit : i.win.getLsbD (i.fcntTop - f) <;> simp [hahead, hinside]
    · simp [hahead, hinside]

theorem dedup_eq_stale_iff {i : Image} (f jump : Nat) (hwin : i.win ≠ 0) :
    dedup i f jump = .stale ↔ f ≤ i.fcntTop ∧ 63 < i.fcntTop - f := by
  rw [dedup, if_neg hwin]
  by_cases hahead : i.fcntTop < f
  · simp [hahead]
  · by_cases hinside : i.fcntTop - f ≤ 63
    · cases hbit : i.win.getLsbD (i.fcntTop - f) <;> simp [hahead, hinside]
    · simp [hahead, hinside]
      omega

section Dedup
variable {f : Frame} {e : Endpoint} (plain : List Byte) {s : State} (he : ep? s f.handle = some e)
include he

/-- R198: an accepted frame goes on to its commit; the window changes there. -/
theorem dedupStep_of_accept {j : Bool} (hplc : f.plc = false) (haccept : dedup e.img f.fcnt (pval s 0x4000) = .accept j) :
    dedupStep f plain s = updEp f.handle (fun e => { e with serial := true })
      (setFrame f.id (fun _ => { f with stage := .commit, plain := plain, badLen := false }) s) := by
  simp [dedupStep, he, haccept, hplc]

/-- R199: a duplicate is counted, and its custody entry queued. -/
theorem dedupStep_of_duplicate (hdup : dedup e.img f.fcnt (pval s 0x4000) = .duplicate) :
    dedupStep f plain s = frameDone f (queueCustody f.handle f.fcnt f.port f.deep
      (updEp f.handle (fun e => { e with dupCnt := e.dupCnt + 1 }) { s with dir.dups := s.dir.dups + 1 })) := by
  simp only [dedupStep, he, hdup]

theorem dedupStep_of_stale (hstale : dedup e.img f.fcnt (pval s 0x4000) = .stale) :
    dedupStep f plain s = frameDone f (tallyInc f.handle .stale
      (updEp f.handle (fun e => { e with staleCnt := e.staleCnt + 1 }) { s with dir.stales := s.dir.stales + 1 })) := by
  simp only [dedupStep, he, hstale]

end Dedup

theorem updEp_dir (h : Nat) (f : Endpoint → Endpoint) (s : State) : (updEp h f s).dir = s.dir :=
  updEp_keeps State.dir (by intros; rfl) h f s

theorem ep?_setFrame (id h : Nat) (f : Frame → Frame) (s : State) : ep? (setFrame id f s) h = ep? s h := rfl

/-! ### Context fetches (R219, R230) -/

/-- R219: the frames that wait for a buffer join the fetch of their endpoint. -/
def waitersFetched (h : Nat) (s : State) : State :=
  { s with dir.frames := s.dir.frames.map (fun x => if x.handle = h && x.stage == .buffer then { x with stage := .fetch } else x) }

theorem fetchBufferFree_of_waiting {f : Frame} {s : State} (hup : dirUp s = true) (hroom : buffersUsed s < fetchBuffers)
    (hf : s.dir.frames.find? (fun f => f.stage == .buffer) = some f) :
    fetchBufferFree s = issueFetch f.handle (waitersFetched f.handle s) := by
  rw [fetchBufferFree, if_neg (by simp [hup, hroom]), hf]
  rfl

/-- R219: the frames that wait for the endpoint's context go on to their turn. -/
def fetchersSerial (h : Nat) (s : State) : State :=
  { s with dir.frames := s.dir.frames.map (fun f => if f.handle = h && f.stage == .fetch then { f with stage := .serial } else f) }

section Fetch
variable {h : Nat} {ue : FetchIn} {s : State} (hfetch : s.mem.fetches.contains h = true)
include hfetch

/-- R230: a context or image that is lost. -/
theorem fetchComplete_of_lost (hlost : cannotUse (install h (fetchUe h ue s)) h = true) :
    fetchComplete h ue s = ((framesOf (install h (fetchUe h ue s)) h).filter (fun f => f.stage == .fetch)).foldl (fun s f => dropFrame9 f s)
      (install h (fetchUe h ue s)) := by
  rw [fetchComplete, if_neg (by simpa using hfetch)]
  exact if_pos hlost

theorem fetchComplete_of_usable (huse : cannotUse (install h (fetchUe h ue s)) h = false) :
    fetchComplete h ue s = fetchersSerial h (install h (fetchUe h ue s)) := by
  rw [fetchComplete, if_neg (by simpa using hfetch)]
  exact if_neg (ne_true_of_eq_false huse)

end Fetch

/-! ### Retirement (R184) -/

theorem retirementComplete_of_free {h : Nat} {s : State} (hmay : mayEmpty (withdrawClose h s) h = true)
    (hnone : anyCustody (withdrawClose h s) h = false) : retirementComplete h s = becomeEmpty h (withdrawClose h s) :=
  if_pos (by simp [hmay, hnone])

section Hold
variable {h t : Nat} {e : Endpoint} {s : State} (he : ep? s h = some e) (hat : e.retireAt = some t)
include he hat

theorem retireHold_of_no_custody (hnone : anyCustody (withdrawClose h (advMono t s)) h = false)
    (hmay : mayEmpty (withdrawClose h (advMono t s)) h = true) : retireHold h s = becomeEmpty h (withdrawClose h (advMono t s)) := by
  simp only [retireHold_eq h t e s he hat, hnone, hmay, Bool.false_eq_true, if_false, if_true]

theorem retireHold_of_custody (hsome : anyCustody (withdrawClose h (advMono t s)) h = true)
    (hmay : mayEmpty (discardCustody h (withdrawClose h (advMono t s))) h = true) :
    retireHold h s = becomeEmpty h (discardCustody h (withdrawClose h (advMono t s))) := by
  simp only [retireHold_eq h t e s he hat, hsome, hmay, if_true]

end Hold

end Sys2Proof.Machine

open Sys2Proof Sys2Proof.Machine

/-- Settles O35, clause by clause, from the rule of each case. -/
theorem directoryFrameEffects : Obligations.DirectoryFrameEffects := by
  unfold Obligations.DirectoryFrameEffects
  refine ⟨?airPacket, ?values, ?data, ?unknown, ?byState, ?plcPacket, ?turn, ?foreign, ?noKey, ?key, ?accept, ?duplicate, ?stale, ?window,
    ?bufferFree, ?fetched, ?writtenBack, ?retired, ?held, ?rehash⟩
  case airPacket => exact fun l ws q x s hup hl hq hx => congrArg Host.Outcome.next (directoryAir_of_packet hup hl hq hx)
  case values => exact fun t f s ht => valuesAt_of_committed f ht
  case data => exact fun x s hgood hfits hdata hlen hnoack => ⟨_, rfl, airPacket_of_data hgood hfits hdata hlen hnoack⟩
  case unknown => exact fun x s => admitAir_of_unknown x s
  case byState =>
    intro x f s hplc
    refine ⟨admitAir_of_pending x s, fun hstate => ?_, fun hstate => ?_, fun hstate => ?_, admitAir_of_admitted x s hplc⟩
    · rw [admitAir_of_restoring x s hplc hstate]
    · rw [admitAir_of_suspended x s hplc hstate, tallyInc_dir]
      exact ⟨rfl, rfl⟩
    · rw [admitAir_of_retiring x s hplc hstate]
  case plcPacket =>
    rintro q _ fq hd t0 t1 mid s hup hq hpacket rfl
    exact congrArg Host.Outcome.next (directoryPlc_of_packet hup hq hpacket)
  case turn =>
    exact fun id f s hf hup hrun hstage hturn huse => congrArg Host.Outcome.next (serialRelease_of_turn hf hup hrun hstage hturn huse)
  case foreign => exact fun f e s he haddr hplc => runFrame_of_other_address he haddr hplc
  case noKey => exact fun f e u s he haddr hplc hkey => runFrame_of_no_key he haddr hplc hkey
  case key =>
    intro f e key u s he haddr hkey
    cases hopen : openFrame key f with
    | none => exact runFrame_of_bad_mic he haddr hkey hopen
    | some plain => exact runFrame_of_good_mic he haddr hkey hopen
  case accept =>
    intro f e j plain s he hplc haccept
    rw [dedupStep_of_accept plain he hplc haccept, updEp_dir]
    exact ⟨ep?_updEp _ _ e _ ((ep?_setFrame _ _ _ s).trans he), rfl⟩
  case duplicate => exact fun f e plain s he hdup => ⟨_, rfl, dedupStep_of_duplicate plain he hdup⟩
  case stale => exact fun f e plain s he hstale => ⟨_, rfl, dedupStep_of_stale plain he hstale⟩
  case window => exact fun i f jump hwin => ⟨exists_dedup_eq_accept_iff f jump hwin, dedup_eq_stale_iff f jump hwin⟩
  case bufferFree => exact fun f s hup hroom hf => ⟨_, rfl, congrArg Host.Outcome.next (fetchBufferFree_of_waiting hup hroom hf)⟩
  case fetched =>
    rintro h ue _ s hfetch rfl
    exact ⟨fun hlost => congrArg Host.Outcome.next (fetchComplete_of_lost hfetch hlost),
      fun huse => ⟨_, rfl, congrArg Host.Outcome.next (fetchComplete_of_usable hfetch huse)⟩⟩
  case writtenBack => exact fun h s => ⟨_, rfl, rfl⟩
  case retired => exact fun h s hmay hnone => congrArg Host.Outcome.next (retirementComplete_of_free hmay hnone)
  case held =>
    rintro h t e _ s he hat rfl
    exact ⟨fun hnone hmay => congrArg Host.Outcome.next (retireHold_of_no_custody he hat hnone hmay),
      fun hsome hmay => ⟨_, discardCustody_sectors h _, congrArg Host.Outcome.next (retireHold_of_custody he hat hsome hmay)⟩⟩
  case rehash =>
    intro s hrehash hup
    obtain ⟨ids, u, hidle, hend⟩ := rehashEnd_eq s hrehash hup
    exact ⟨ids, u, _, hidle, rfl, raise_set 0x41 u (by decide) (by decide), congrArg Host.Outcome.next hend⟩

end

section
/-! Host memory (R223 to R228, R232): one rule per case of each opcode and of each descriptor's command, then O25. -/

namespace Sys2Proof.Machine

/-! ### XLATE_SET and XLATE_GET -/

/-- R223: the window that an XLATE_SET gives. -/
def xlateIn (p : List Byte) : Xlate :=
  { base := BitVec.ofNat 64 (rd p 4 8), size := rd p 12 4, rd := bit (rd p 2 1) 0, wr := bit (rd p 2 1) 1 }

section Window
variable {r : Req} {s : State} (hwin : rd r.payload 0 2 < 1024) (hflags : rd r.payload 2 1 < 8) (hzero : zeroAt r.payload 3 1 = true)
  (hbase : rd r.payload 4 8 % 4096 = 0) (hsize : rd r.payload 12 4 ≤ 262144)
include hwin hflags hzero hbase hsize

/-- R224: what an XLATE_SET with good fields does turns on FORCE and on the descriptors that use the window. -/
theorem xlateSet_of_fields : xlateSet r s =
    if !bit (rd r.payload 2 1) 2 && windowUses s (rd r.payload 0 2) != 0 then .wait s
    else replyOk { s with xlate := tset s.xlate (rd r.payload 0 2) (xlateIn r.payload) } :=
  if_neg (by simp [hzero, hbase]; omega)

theorem xlateSet_of_free (hfree : bit (rd r.payload 2 1) 2 = true ∨ windowUses s (rd r.payload 0 2) = 0) :
    xlateSet r s = replyOk { s with xlate := tset s.xlate (rd r.payload 0 2) (xlateIn r.payload) } := by
  rw [xlateSet_of_fields hwin hflags hzero hbase hsize, if_neg]
  rcases hfree with hforce | hunused
  · simp [hforce]
  · simp [hunused]

theorem xlateSet_of_used (hforce : bit (rd r.payload 2 1) 2 = false) (hused : windowUses s (rd r.payload 0 2) ≠ 0) :
    xlateSet r s = .wait s := by
  rw [xlateSet_of_fields hwin hflags hzero hbase hsize, if_pos (by simp [hforce, hused])]

end Window

theorem xlateGet_of_in_range {r : Req} {s : State} (hcount : rd r.payload 2 2 ≤ 64) (hlast : rd r.payload 0 2 + rd r.payload 2 2 ≤ 1024) :
    xlateGet r s = replyOk s ((List.range (rd r.payload 2 2)).map (fun i => xlateRecord s (rd r.payload 0 2 + i))).flatten :=
  if_neg (by simp [hcount, hlast])

/-! ### DMA_CHAN_SET -/

/-- R227: a channel enabled with the ring of a DMA_CHAN_SET. -/
def chanEnabled (p : List Byte) (x : Chan) : Chan := { x with state := .idle, ring := BitVec.ofNat 64 (rd p 4 8), log2 := rd p 1 1 }

/-- R227: a channel disabled. -/
def chanDisabled (x : Chan) : Chan := { x with state := .disabled, active := none, held := none, pi := 0, ci := 0 }

section ChanSet
variable {r : Req} {s : State} (hc : rd r.payload 0 1 < 32) (hzero : zeroAt r.payload 2 2 = true) (hring : rd r.payload 4 8 % 4096 = 0)
include hc hzero hring

theorem dmaChanSet_of_disabled (hlo : 4 ≤ rd r.payload 1 1) (hhi : rd r.payload 1 1 ≤ 12)
    (hstate : (chan s (rd r.payload 0 1)).state = .disabled) :
    dmaChanSet r s = replyOk (setChan (rd r.payload 0 1) (chanEnabled r.payload) s) := by
  have hcode : rd r.payload 1 1 ≠ 0 := by omega
  exact (if_neg (by simp [hzero, hring]; omega)).trans ((if_neg hcode).trans (if_neg (by simp [hstate])))

section Disable
variable (hcode : rd r.payload 1 1 = 0)
include hcode

/-- R227: a channel that carries no stream is disabled; a descriptor that is active there ends with STATUS 5. -/
theorem dmaChanSet_of_code_zero : dmaChanSet r s =
    if (chan s (rd r.payload 0 1)).stream.isSome then refuse s .badState
    else replyOk (setChan (rd r.payload 0 1) chanDisabled
      ((chan s (rd r.payload 0 1)).active.elim s (fun x => writeStatus (rd r.payload 0 1) x.2 5 s))) := by
  refine (if_neg (by simp [hzero, hring]; omega)).trans ((if_pos hcode).trans ?_)
  cases (chan s (rd r.payload 0 1)).active <;> rfl

theorem dmaChanSet_of_bound (hstream : (chan s (rd r.payload 0 1)).stream ≠ none) : dmaChanSet r s = refuse s .badState := by
  rw [dmaChanSet_of_code_zero hc hzero hring hcode, if_pos (Option.isSome_iff_ne_none.2 hstream)]

variable (hstream : (chan s (rd r.payload 0 1)).stream = none)
include hstream

theorem dmaChanSet_of_unbound (hactive : (chan s (rd r.payload 0 1)).active = none) :
    dmaChanSet r s = replyOk (setChan (rd r.payload 0 1) chanDisabled s) := by
  rw [dmaChanSet_of_code_zero hc hzero hring hcode, if_neg (by simp [hstream]), hactive, Option.elim_none]

theorem dmaChanSet_of_unbound_active {d : List Byte} {moved : Nat} (hactive : (chan s (rd r.payload 0 1)).active = some (d, moved)) :
    dmaChanSet r s = replyOk (setChan (rd r.payload 0 1) chanDisabled (writeStatus (rd r.payload 0 1) moved 5 s)) := by
  rw [dmaChanSet_of_code_zero hc hzero hring hcode, if_neg (by simp [hstream]), hactive, Option.elim_some]

end Disable

end ChanSet

/-! ### DMA_CHAN_STATUS_GET and DMA_CHAN_RESTART -/

/-- R228: a stopped channel that runs again. -/
def chanRestarted (x : Chan) : Chan := { x with state := .running, active := none }

theorem restartChan_of_other {c : Nat} {s : State} (hstream : (chan s c).stream ≠ some .exports) :
    restartChan c s = setChan c chanRestarted s :=
  if_neg (by simpa using hstream)

section Restart
variable {c : Nat} {s : State} (hstream : (chan s c).stream = some .exports)
include hstream

/-- R259: the bundle that was being written is written again whole, from the bytes that the stream then has. -/
theorem restartChan_of_exports :
    restartChan c s = setChan c (fun x => { x with held := none }) { setChan c chanRestarted s with prov.offset := 0 } :=
  if_pos (by simp [hstream])

theorem restartChan_prov_of_exports : (restartChan c s).prov = { s.prov with offset := 0 } := by
  rw [restartChan_of_exports hstream]
  rfl

theorem restartChan_chan_of_exports :
    chan (restartChan c s) c = { chan s c with state := .running, active := none, held := none } := by
  rw [restartChan_of_exports hstream, setChan_chan]
  exact congrArg (fun x : Chan => { x with held := none }) (setChan_chan c chanRestarted s)

end Restart

section Channel
variable {r : Req} {s : State} (hc : rd r.payload 0 1 < 32) (hzero : zeroAt r.payload 1 3 = true)
include hc hzero

theorem dmaChanStatus_of_channel : dmaChanStatus r s = replyOk s
    (le 1 (chanCode (chan s (rd r.payload 0 1)).state) ++ le 1 (streamSub (chan s (rd r.payload 0 1)).stream) ++ le 2 0 ++
      le 4 (chan s (rd r.payload 0 1)).ci.toNat ++ le 4 (chan s (rd r.payload 0 1)).done.toNat ++
      le 4 (chan s (rd r.payload 0 1)).faults.toNat) :=
  if_neg (by simp [hc, hzero])

theorem dmaChanRestart_of_stopped (hstate : (chan s (rd r.payload 0 1)).state = .stopped) :
    dmaChanRestart r s = replyOk (restartChan (rd r.payload 0 1) s) := by
  simp [dmaChanRestart, hc, hzero, hstate]

theorem dmaChanRestart_of_not_stopped (hstate : (chan s (rd r.payload 0 1)).state ≠ .stopped) :
    dmaChanRestart r s = refuse s .badState := by
  simp [dmaChanRestart, hc, hzero, hstate]

end Channel

/-! ### Descriptors -/

/-- R226: the bytes that a descriptor with these data has transferred once the transfer has gone on as far as the command says. -/
def descGoal (moved : Nat) (data : List Byte) (upTo : Option Nat) : Nat := upTo.elim data.length (fun n => max moved (min n data.length))

/-- R226: the event of a descriptor that ends well. -/
def descEvent (raw : List Byte) (stream : Option Stream) : Option Nat := stream.bind (fun st => if dEvt raw then streamEvent st else none)

section Descriptor
variable {c : Nat} {d : DescIn} {raw : List Byte} {moved : Nat} {s : State} (hrun : (chan s c).state = .running)
  (hup : (isl s 33).inReset = false) (hdesc : (chan s c).active.getD (slice d.raw 0 32, 0) = (raw, moved))
include hrun hup hdesc

/-- R226: a descriptor of LENGTH 0 ends well whatever its window is. -/
theorem descriptorEnd_of_empty (hlen : dLength raw = 0) : descriptorEnd c d s = descDone c 0 (descEvent raw (chan s c).stream) s := by
  simp only [descriptorEnd, hrun, hup, hdesc, if_pos hlen]
  cases (chan s c).stream <;> rfl

variable {st : Stream} (hstream : (chan s c).stream = some st) (hlen : 0 < dLength raw)
include hstream hlen

theorem descriptorEnd_of_bad_begin (hbad : ((chan s c).active.isNone && badBegin s (isRead st) raw) = true) :
    descriptorEnd c d s = descFault c 0 2 s := by
  simp only [descriptorEnd, hrun, hup, hdesc, hstream, if_neg hlen.ne', hbad]
  rfl

/-- R226, R228: a descriptor that has begun, or begins inside its window, transfers the stream's bytes from where it stands. -/
theorem descriptorEnd_of_data {data : List Byte} (hgood : ((chan s c).active.isNone && badBegin s (isRead st) raw) = false)
    (hdata : descData s c st (dLength raw) = some data) :
    descriptorEnd c d s = transfer c st raw data moved (descGoal moved data d.upTo) d.ueAt d.upTo.isNone (holdData c st (dLength raw) data s) := by
  simp only [descriptorEnd, hrun, hup, hdesc, hstream, if_neg hlen.ne', hgood, hdata]
  cases d.upTo <;> rfl

end Descriptor

/-- R228: what the stream now has is transferred where nothing is held from an earlier beginning. -/
theorem descData_of_not_held {c : Nat} {s : State} (st : Stream) (len : Nat) (hheld : (chan s c).held = none) :
    descData s c st len = streamData s st len := by
  simp only [descData, hheld]

theorem descData_of_held {c : Nat} {data : List Byte} {s : State} (st : Stream) (len : Nat) (hheld : (chan s c).held = some data) :
    descData s c st len = some data := by
  simp only [descData, hheld]

/-! ### Faults (R227) -/

theorem dmaBusError_of_running {c : Nat} {s : State} (done : Nat) (hrun : (chan s c).state = .running) (hstream : (chan s c).stream ≠ none) :
    dmaBusError c done s = descFault c done 3 s :=
  if_pos (by simp [hrun, Option.isSome_iff_ne_none, hstream])

theorem descFault_chan (c done status : Nat) (s : State) :
    chan (descFault c done status s) c = { chan s c with faults := (chan s c).faults + 1, active := none, state := .stopped } := by
  rw [descFault, raise_keeps (chan · c) (by intros; rfl), record_keeps (chan · c) (by intros; rfl), setChan_chan]
  rfl

theorem descFault_pend (c done status : Nat) (s : State) : (descFault c done status s).evt.pend.getLsbD 0xB9 = true :=
  raise_set 0xB9 _ (by decide) (by decide)

end Sys2Proof.Machine

open Sys2Proof Sys2Proof.Machine

/-- Settles O25, clause by clause, from the rule of each case. -/
theorem dmaEffects : Obligations.DmaEffects := by
  unfold Obligations.DmaEffects
  refine ⟨?windowSet, ?windowUsed, ?windows, ?enable, ?disable, ?disableActive, ?disableBound, ?status, ?restart, ?restartExports,
    ?restartRefused, ?empty, ?badBegin, ?whole, ?part, ?busError, ?fault⟩
  case windowSet =>
    exact fun r s h hwin hflags hzero hbase hsize hfree =>
      next_serve_done h (xlateSet_of_free (s := taken r s) hwin hflags hzero hbase hsize hfree)
  case windowUsed =>
    exact fun r s h hwin hflags hzero hbase hsize hforce hused => congrArg Host.Outcome.next
      (serve_wait xlateSetService r s _ h (xlateSet_of_used (s := taken r s) hwin hflags hzero hbase hsize hforce hused))
  case windows => exact fun r s h hcount hlast => next_serve_done h (xlateGet_of_in_range (s := taken r s) hcount hlast)
  case enable =>
    exact fun r s h hc hlo hhi hzero hring hstate =>
      next_serve_done h (dmaChanSet_of_disabled (s := taken r s) hc hzero hring hlo hhi hstate)
  case disable =>
    exact fun r s h hc hcode hzero hring hstream hactive =>
      next_serve_done h (dmaChanSet_of_unbound (s := taken r s) hc hzero hring hcode hstream hactive)
  case disableActive =>
    exact fun r d n s h hc hcode hzero hring hstream hactive =>
      next_serve_done h (dmaChanSet_of_unbound_active (s := taken r s) hc hzero hring hcode hstream hactive)
  case disableBound =>
    exact fun r s h hc hcode hzero hring hstream =>
      next_serve_done h (dmaChanSet_of_bound (s := taken r s) hc hzero hring hcode hstream)
  case status => exact fun r s h hc hzero => next_serve_done h (dmaChanStatus_of_channel (s := taken r s) hc hzero)
  case restart =>
    intro r s h hc hzero hstate hstream
    have hrun := dmaChanRestart_of_stopped (s := taken r s) hc hzero hstate
    rw [restartChan_of_other (s := taken r s) hstream] at hrun
    exact next_serve_done h hrun
  case restartExports =>
    exact fun r s h hc hzero hstate hstream => ⟨restartChan (rd r.payload 0 1) (taken r s),
      next_serve_done h (dmaChanRestart_of_stopped (s := taken r s) hc hzero hstate),
      restartChan_prov_of_exports (s := taken r s) hstream, restartChan_chan_of_exports (s := taken r s) hstream⟩
  case restartRefused =>
    exact fun r s h hc hzero hstate => next_serve_done h (dmaChanRestart_of_not_stopped (s := taken r s) hc hzero hstate)
  case empty =>
    intro c d s hrun hup hnew hlen
    exact ⟨_, congrArg Host.Outcome.next (descriptorEnd_of_empty hrun hup (by rw [hnew]; rfl) hlen), descDone_chan c 0 _ s⟩
  case badBegin =>
    exact fun c d st s hrun hup hnew hstream hlen hbad => congrArg Host.Outcome.next
      (descriptorEnd_of_bad_begin hrun hup (by rw [hnew]; rfl) hstream hlen (by simp [hnew, hbad]))
  case whole =>
    intro c d st data s hrun hup hnew hstream hlen hgood hheld hdata hwhole
    have hend := descriptorEnd_of_data (d := d) hrun hup (by rw [hnew]; rfl) hstream hlen (by simp [hgood])
      ((descData_of_not_held st _ hheld).trans hdata)
    rw [hwhole] at hend
    exact congrArg Host.Outcome.next hend
  case part =>
    intro c n moved d raw data st s hrun hup hactive hstream hlen hheld hpart
    have hend := descriptorEnd_of_data (d := d) hrun hup (by rw [hactive]; rfl) hstream hlen (by simp [hactive])
      (descData_of_held st _ hheld)
    rw [hpart] at hend
    exact congrArg Host.Outcome.next hend
  case busError => exact fun c n s hrun hstream => congrArg Host.Outcome.next (dmaBusError_of_running n hrun hstream)
  case fault =>
    intro c n st s
    rw [descFault_chan]
    exact ⟨rfl, rfl, rfl, descFault_pend c n st s⟩

end

section
/-! The reading pipeline (R235 to R237, R245, R248, R249, R252, R255 to R258, R261): one rule per case of each command and opcode, then O31. -/

namespace Sys2Proof.Machine

/-! ### A frame at step 14 (R245, R248, R249) -/

/-- R249: indices of the array that have gone bad join those known. -/
def withBad (bad : List Nat) (s : State) : State := { s with jnv.bad := s.jnv.bad ++ bad }

theorem withBad_nil (s : State) : withBad [] s = s := by
  simp [withBad]

/-- R245: the frame of an id stands at step 14, and its endpoint can be used. -/
structure AtCommit (id : Nat) (f : Frame) (e : Endpoint) (s : State) : Prop where
  frame : frame? s id = some f
  endpoint : ep? s f.handle = some e
  stage : f.stage = .commit
  usable : cannotUse s f.handle = false

theorem journalGroup_of_atCommit {id : Nat} {f : Frame} {e : Endpoint} {s : State} (bad : List Nat) (h : AtCommit id f e s) :
    journalGroup id bad s = valuesAt f.endTime (commitFrame f e) (withBad bad s) := by
  have hbad : (if bad.isEmpty then s else { s with jnv.bad := s.jnv.bad ++ bad }) = withBad bad s := by
    cases bad with
    | nil => exact (withBad_nil s).symm
    | cons b bs => rfl
  have hframe : frame? (withBad bad s) id = some f := h.frame
  have hep : ep? (withBad bad s) f.handle = some e := h.endpoint
  have huse : cannotUse (withBad bad s) f.handle = false := h.usable
  rw [journalGroup, hbad]
  simp [hframe, hep, h.stage, huse]

/-- R59: a frame that ended before the last commit instant is handled under the values in force until then. -/
theorem valuesAt_of_earlier {t : Nat} (f : State → State) {s : State} (ht : t < s.cfg.lastTc) :
    valuesAt t f s = { f { s with cfg.vals := s.cfg.old, cfg.profiles := s.cfg.oldProfiles } with
      cfg.vals := s.cfg.vals, cfg.profiles := s.cfg.profiles } :=
  if_pos ht

section CommitFrame
variable {f : Frame} {e : Endpoint} {acc : GroupAcc} {s : State} (hacc : acc = commitPayload f e s)
include hacc

theorem commitFrame_of_takes (htakes : jnlTakesFrame (acc.entries ++ causedEntries f acc s).length s = true) :
    commitFrame f e s = groupDone f s.jnv.head acc.values (jnlGroup (acc.entries ++ causedEntries f acc s) acc.st) := by
  subst hacc
  exact if_pos htakes

/-- R248: a frame waits while the journal is not NORMAL. -/
theorem commitFrame_of_not_normal (hfull : jnlTakesFrame (acc.entries ++ causedEntries f acc s).length s = false)
    (hstate : s.jnl.state ≠ .normal) : commitFrame f e s = waitJournal f s := by
  subst hacc
  rw [commitFrame, if_neg (ne_true_of_eq_false hfull), if_neg (by simp [hstate])]

end CommitFrame

/-- R245: a keep-alive is a group of one FRAME entry. -/
theorem commitPayload_of_keepAlive {f : Frame} (e : Endpoint) (s : State) (hplain : f.plain = []) (hlen : f.badLen = false) :
    commitPayload f e s = { st := s, entries := [handleEntry f.handle (.frame f.handle f.fcnt false (prBit s f.handle))] } :=
  if_pos (by simp [hplain, hlen])

/-- R235, R236: readings whose length field is out of its range make the frame malformed, whatever they hold. -/
theorem commitPayload_of_bad_length {f : Frame} (e : Endpoint) (s : State) (hlen : f.badLen = true) :
    commitPayload f e s = { st := place_ f.handle (f.endTime / 2 ^ 24) (trusted s) false (noteMalformed s)
                            entries := [malformedEntry f.handle f e s] } := by
  simp [commitPayload, hlen]

/-- R248: the wait is over with the journal still out of NORMAL. -/
theorem jnlWaitExpiry_of_waiting {id t : Nat} {f : Frame} {s : State} (hf : frame? s id = some f) (hstage : f.stage = .journal t)
    (hstate : s.jnl.state ≠ .normal) :
    jnlWaitExpiry id s = frameDone f { advMono (t + tMs (pval s 0x5805)) s with
      prov := { (advMono (t + tMs (pval s 0x5805)) s).prov with waitDisc := s.prov.waitDisc + 1 } } := by
  simp only [jnlWaitExpiry, hf, hstage]
  exact jnlWait_eq _ id t f s hstate

/-! ### Bundles and signing (R255, R256) -/

theorem bundleTimeout_of_open {b : Bundle} {s : State} (hopen : s.prov.open_ = some b) :
    bundleTimeout false s = closeOpen (advTo (b.openTime + tSec (pval s 0x5802)) s) := by
  simp [bundleTimeout, hopen]

theorem bundleTimeout_of_openOvf {b : Bundle} {s : State} (hopen : s.prov.openOvf = some b) :
    bundleTimeout true s = closeOpenOvf (advTo (b.openTime + tSec (pval s 0x5802)) s) := by
  simp [bundleTimeout, hopen]

theorem signWith_prov (slot : Nat) (msg : List Byte) (s : State) : (signWith slot msg s).1.prov = s.prov :=
  signWith_keeps State.prov (by intros; rfl) slot msg s

section Signing
variable {b0 b : Bundle} {s s1 : State} (hnext : nextToSign s = some b0) (hb : b = toSign b0 s) (hup : islUp s 30 = true)
  (htakes : jnlTakes 1 s = true)
include hnext hb hup htakes

theorem bundleSigned_of_signed {sig : List Byte} {gen : Nat}
    (hsign : signWith b.slot (bundleHeader b) (prSignDue b s) = (s1, some (sig, gen))) :
    bundleSigned s = placeSigned { b with sig := sig } (setStopped false (dropSigned s1)) := by
  subst hb
  simp [bundleSigned, hnext, hup, htakes, hsign]

/-- R256: signing stops, with event 0x5A, unless it is stopped already: a retry then neither counts nor raises it again (log 98). -/
theorem bundleSigned_of_refused (hsign : signWith b.slot (bundleHeader b) (prSignDue b s) = (s1, none)) :
    bundleSigned s = if s.prov.stopped then s else raise 0x5A { s1 with prov.stopped := true } := by
  have hprov : s1.prov = s.prov := by
    have hkept := signWith_prov b.slot (bundleHeader b) (prSignDue b s)
    rwa [hsign, prSign_prov] at hkept
  subst hb
  have hrefused : bundleSigned s = if s.prov.stopped then s else setStopped true s1 := by
    simp [bundleSigned, hnext, hup, htakes, hsign]
  rw [hrefused, setStopped, hprov]
  cases s.prov.stopped <;> rfl

end Signing

/-! ### Profiles (R237, R261) -/

/-- R237: the 16 entries of a PROFILE_SET. -/
def qEntriesIn (p : List Byte) : List QEntry := (List.range 16).map (fun i => readQEntry p (4 + 24 * i))

/-- R261: what a PROFILE_SET that is accepted leaves. -/
def profileWritten (p : List Byte) (s : State) : State :=
  (List.range 16).foldl (fun s i =>
    { s with prov.profiles := tset s.prov.profiles (16 * rd p 0 1 + i) (readQEntry p (4 + 24 * i)) }) s

section Profile
variable {r : Req} {s : State} (hn : rd r.payload 0 1 ≤ 63) (hzero : zeroAt r.payload 1 3 = true)
include hn hzero

theorem profileSet_of_good (hok : (qEntriesIn r.payload).all qEntryOk = true) (hkind1 : (kind1Keys (qEntriesIn r.payload)).length ≤ 4)
    (hfree : (s.eps.any (fun e => e.2.profile == rd r.payload 0 1) &&
      changesKind1 (kind1Keys (profileEntries s (rd r.payload 0 1))) (kind1Keys (qEntriesIn r.payload))) = false) :
    profileSet r s = replyOk (profileWritten r.payload (keepProfile (rd r.payload 0 1) s)) := by
  unfold qEntriesIn at *
  rw [profileSet, if_neg (by simp only [hok, hzero]; simp; omega), if_neg (ne_true_of_eq_false hfree)]
  rfl

theorem profileGet_of_good : profileGet r s = replyOk s ((profileEntries s (rd r.payload 0 1)).map qEntryBytes).flatten :=
  if_neg (by simp [hn, hzero])

end Profile

/-! ### The per-reading list (R252, R261) -/

/-- R252: the list with a handle, once. -/
def listAdd (l : List Nat) (h : Nat) : List Nat := if l.contains h then l else l ++ [h]

/-- R261: the index of the first handle at which the list is over 4 096. -/
def firstOverflow (hs l : List Nat) : Option Nat :=
  (List.range hs.length).find? (fun i => decide (4096 < ((hs.take (i + 1)).foldl listAdd l).length))

section ProvList
variable {r : Req} {i : Nat} {s : State} (hzero : zeroAt r.payload 2 2 = true)
include hzero

theorem provListAdd_of_bad (hbad : firstBad (fun h => 2 ^ 20 ≤ h || !thas s.eps h) (listedHandles r.payload) 0 = some i) :
    provListAdd r s = refuse s .badParam (idxPayload i) := by
  simp only [provListAdd, hzero, hbad, Bool.not_true, Bool.false_eq_true, if_false]

variable (hgood : firstBad (fun h => 2 ^ 20 ≤ h || !thas s.eps h) (listedHandles r.payload) 0 = none)
include hgood

theorem provListAdd_of_good : provListAdd r s = match firstOverflow (listedHandles r.payload) s.prov.list with
    | some i => refuse s .noResource (idxPayload i)
    | none => replyOk { s with prov.list := (listedHandles r.payload).foldl listAdd s.prov.list } := by
  simp only [provListAdd, hzero, hgood, Bool.not_true, Bool.false_eq_true, if_false]
  rfl

theorem provListAdd_of_room (hroom : firstOverflow (listedHandles r.payload) s.prov.list = none) :
    provListAdd r s = replyOk { s with prov.list := (listedHandles r.payload).foldl listAdd s.prov.list } := by
  rw [provListAdd_of_good hzero hgood, hroom]

theorem provListAdd_of_overflow (hfull : firstOverflow (listedHandles r.payload) s.prov.list = some i) :
    provListAdd r s = refuse s .noResource (idxPayload i) := by
  rw [provListAdd_of_good hzero hgood, hfull]

end ProvList

/-! ### The stream of bundles (R257, R258, R261) -/

theorem exportStart_of_unbound {r : Req} {s : State} (hzero : zeroAt r.payload 1 3 = true) (hfree : s.prov.chan = none)
    (hbind : bindCheck (rd r.payload 0 1) s = none) :
    exportStart r s = replyOk (bindChan (rd r.payload 0 1) .exports { s with prov.chan := some (rd r.payload 0 1) }) := by
  simp [exportStart, hzero, hbind, hfree, lt_of_bindCheck_eq_none hbind]

section Stop
variable {c : Nat} (id : Nat) (r : Req) {s : State} (hchan : s.prov.chan = some c)
include hchan

theorem exportStop_of_busy (hbusy : exportBusy c s = true) :
    exportStop id r s = .pend { s with prov.stopping := some id } [.channel c] := by
  simp [exportStop, hchan, hbusy]

theorem exportStop_of_idle (hidle : exportBusy c s = false) :
    exportStop id r s = .twice (unbindChan c { s with prov.chan := none }) .ok [] := by
  simp [exportStop, hchan, hidle]

end Stop

section Confirm
variable {r : Req} {s : State}

/-- R258: a BSEQ that is confirmed already. -/
theorem exportConfirm_of_confirmed (hold : rd r.payload 0 4 ≤ s.roots.bseqConf) : exportConfirm r s = replyOk s :=
  if_pos hold

theorem exportConfirm_of_unwritten (hnew : ¬ rd r.payload 0 4 ≤ s.roots.bseqConf) (hbeyond : lastWritten s < rd r.payload 0 4) :
    exportConfirm r s = refuse s .badParam := by
  rw [exportConfirm, if_neg hnew, if_pos hbeyond]

/-- R258: a bundle that is being written and is confirmed with the others is cut off first (log 101). -/
theorem exportConfirm_of_written (hnew : ¬ rd r.payload 0 4 ≤ s.roots.bseqConf) (hwritten : ¬ lastWritten s < rd r.payload 0 4) :
    exportConfirm r s = replyOk (confirmBundles (rd r.payload 0 4)
      (if (nextBundle s.prov.signed).any (fun b => b.bseq ≤ rd r.payload 0 4)
        then exportStopped (streamAnew .exports { s with prov.offset := 0 }) else s)) := by
  rw [exportConfirm, if_neg hnew, if_neg hwritten]

theorem exportRewind_of_out_of_range (hout : rd r.payload 0 4 ≤ s.roots.bseqConf ∨ lastWritten s < rd r.payload 0 4) :
    exportRewind r s = refuse s .badParam :=
  if_pos (by simpa using hout)

/-- R258: what an EXPORT_REWIND to BSEQ n leaves. -/
def exportsRewound (n : Nat) (s : State) : State :=
  { streamAnew .exports s with
    prov.offset := 0
    prov.signed := s.prov.signed.map (fun b => if n ≤ b.bseq then { b with written := false } else b) }

theorem exportRewind_of_written (hin : ¬ (rd r.payload 0 4 ≤ s.roots.bseqConf ∨ lastWritten s < rd r.payload 0 4)) :
    exportRewind r s = replyOk (exportsRewound (rd r.payload 0 4) s) :=
  if_neg (by simpa using hin)

end Confirm

end Sys2Proof.Machine

open Sys2Proof Sys2Proof.Machine

/-- Settles O31, clause by clause, from the rule of each case. -/
theorem pipelineEffects : Obligations.PipelineEffects := by
  unfold Obligations.PipelineEffects
  refine ⟨?commit, ?full, ?earlier, ?keepAlive, ?malformed, ?waitOver, ?timeout, ?timeoutOvf, ?signed, ?profileSet, ?profileGet, ?listAdd,
    ?listBad, ?listFull, ?listClear, ?start, ?stop, ?confirm, ?flush, ?status, ?rewind⟩
  case commit =>
    rintro id bad f e acc s _ rfl hf he hstage huse htime hacc htakes
    have hrun : journalGroup id bad s = commitFrame f e (withBad bad s) :=
      (journalGroup_of_atCommit bad ⟨hf, he, hstage, huse⟩).trans (valuesAt_of_committed (s := withBad bad s) _ htime)
    exact congrArg Host.Outcome.next (hrun.trans (commitFrame_of_takes (s := withBad bad s) hacc htakes))
  case full =>
    intro id f e acc s hf he hstage huse htime hacc hfull hstate
    have hrun := journalGroup_of_atCommit [] ⟨hf, he, hstage, huse⟩
    rw [withBad_nil, valuesAt_of_committed _ htime, commitFrame_of_not_normal hacc hfull hstate] at hrun
    exact congrArg Host.Outcome.next hrun
  case earlier =>
    intro id f e s hf he hstage huse htime
    have hrun := journalGroup_of_atCommit [] ⟨hf, he, hstage, huse⟩
    rw [withBad_nil, valuesAt_of_earlier _ htime] at hrun
    exact congrArg Host.Outcome.next hrun
  case keepAlive => exact fun f e s hplain hlen => commitPayload_of_keepAlive e s hplain hlen
  case malformed => exact fun f e s hlen => commitPayload_of_bad_length e s hlen
  case waitOver => exact fun id t f s hf hstage hstate => ⟨_, rfl, congrArg Host.Outcome.next (jnlWaitExpiry_of_waiting hf hstage hstate)⟩
  case timeout => exact fun b s hopen => congrArg Host.Outcome.next (bundleTimeout_of_open hopen)
  case timeoutOvf => exact fun b s hopen => congrArg Host.Outcome.next (bundleTimeout_of_openOvf hopen)
  case signed =>
    intro b0 b s hnext hb hup htakes
    rcases hsign : signWith b.slot (bundleHeader b) (prSignDue b s) with ⟨s1, _ | ⟨sig, gen⟩⟩
    · exact congrArg Host.Outcome.next (bundleSigned_of_refused hnext hb hup htakes hsign)
    · exact congrArg Host.Outcome.next (bundleSigned_of_signed hnext hb hup htakes hsign)
  case profileSet =>
    exact fun r s h hn hzero hok hkind1 hfree => next_serve_done h (profileSet_of_good (s := taken r s) hn hzero hok hkind1 hfree)
  case profileGet => exact fun r s h hn hzero => next_serve_done h (profileGet_of_good (s := taken r s) hn hzero)
  case listAdd => exact fun r s h hzero hgood hroom => next_serve_done h (provListAdd_of_room (s := taken r s) hzero hgood hroom)
  case listBad => exact fun r i s h hzero hbad => next_serve_done h (provListAdd_of_bad (s := taken r s) hzero hbad)
  case listFull => exact fun r i s h hzero hgood hfull => next_serve_done h (provListAdd_of_overflow (s := taken r s) hzero hgood hfull)
  case listClear => exact fun r s h => next_serve_done h rfl
  case start => exact fun r s h _ hzero hfree hbind => next_serve_done h (exportStart_of_unbound (s := taken r s) hzero hfree hbind)
  case stop =>
    intro r c s h hchan
    split
    next hbusy => exact next_serve_pend h (exportStop_of_busy _ r (s := taken r s) hchan hbusy)
    next hidle => exact next_serve_twice h (exportStop_of_idle _ r (s := taken r s) hchan (eq_false_of_ne_true hidle))
  case confirm =>
    intro r s h
    split
    next hold => exact next_serve_done h (exportConfirm_of_confirmed (s := taken r s) hold)
    next hnew =>
      split
      next hbeyond => exact next_serve_done h (exportConfirm_of_unwritten (s := taken r s) hnew hbeyond)
      next hwritten => exact next_serve_done h (exportConfirm_of_written (s := taken r s) hnew hwritten)
  case flush => exact fun r s h => next_serve_done h rfl
  case status => exact fun r s h => next_serve_done h rfl
  case rewind =>
    intro r s h
    split
    next hout => exact next_serve_done h (exportRewind_of_out_of_range (s := taken r s) hout)
    next hin => exact next_serve_done h (exportRewind_of_written (s := taken r s) hin)

end

section
/-! The ledger's engine and the calendar opcodes (R267, R268, R270, R274, R276 to R280, R285, R286, R289, R297): one rule per case of each
command and opcode, then O32. -/

namespace Sys2Proof.Machine

/-! ### Transitions (R274, R278) -/

theorem calTransition_of_next {k t : Nat} {s : State} (hheld : idxHeld s k = true) (htrust : trusted s = true)
    (hkind : anyKind (kindsAt (advTo (tSec t) s) k t) = true) (hok : ledgerOk (advTo (tSec t) s) = true)
    (hnext : nextCarried (advTo (tSec t) s) k t = some t) :
    calTransition k t s = transition k t (kindsAt (advTo (tSec t) s) k t) false false (advTo (tSec t) s) :=
  if_pos (by simp [hheld, htrust, hkind, hok, hnext])

/-- R274: the count and the ring of a calendar after a close. -/
def closedRoot (t version reason : Nat) (c : CalRoot) : CalRoot :=
  { c with
    cseq := c.cseq + 1
    ring := ({ instant := t, cseq := c.cseq + 1, version := version, reason := reason } :: c.ring).take 64 }

theorem calRoot_applyClose (k t version reason : Nat) (s : State) :
    calRoot (applyClose k t version reason s) k = closedRoot t version reason (calRoot s k) := by
  rw [applyClose, raise_keeps (calRoot · k) (by intros; rfl)]
  exact calRoot_updRoot k (closedRoot t version reason) s

/-- R274: a close raises event 0x53. -/
theorem pend_applyClose (k t version reason : Nat) (s : State) : (applyClose k t version reason s).evt.pend.getLsbD 0x53 = true :=
  raise_set 0x53 _ (by decide) (by decide)

/-- R274: a transition that is a close by the rule and no activation. -/
theorem transApply_of_close (k t jseq : Nat) {x : Kinds} (s : State) (hclose : x.close = true) (hact : x.activate = false) :
    transApply k t jseq x false s =
      updRoot k (fun c => { c with lastApplied := max c.lastApplied t }) (applyClose k t (versionAt s k (t - 1)) 1 s) := by
  simp [transApply, hclose, hact]

/-! ### Sweeps (R276) -/

/-- R276: what the evaluation of a slice of a sweep leaves, before the sweep moves on; the slice begins at its own instant (log 154). -/
def sliceEvaluated (k from_ n : Nat) (s : State) : State :=
  (sweepNext s k from_ n).foldl (fun s h => evalEp h (secs s) s) (sweepTime (sweepNext s k from_ n).length s)

section Sweep
variable {k n from_ h : Nat} {s : State} (hat : tfind s.ledger.sweeps k = some from_)
  (hlast : (sweepNext s k from_ n).getLast? = some h)
include hat hlast

theorem ledgerSweep_of_last (hend : sweepNext s k (h + 1) 1 = []) :
    ledgerSweep k n s = { sliceEvaluated k from_ n s with
      ledger.sweeps := tdel (sliceEvaluated k from_ n s).ledger.sweeps k } := by
  simp [ledgerSweep, hat, sweep_same, hlast, hend, sliceEvaluated]

theorem ledgerSweep_of_more (hmore : sweepNext s k (h + 1) 1 ≠ []) :
    ledgerSweep k n s = { sliceEvaluated k from_ n s with
      ledger.sweeps := tset (sliceEvaluated k from_ n s).ledger.sweeps k (h + 1) } := by
  simp [ledgerSweep, hat, sweep_same, hlast, hmore, sliceEvaluated]

end Sweep

theorem stmtTimeout_of_open {b : Bundle} {s : State} (hopen : s.ledger.stmtOpen = some b) :
    stmtTimeout s = closeStmt (advTo (b.openTime + tSec (pval s 0x5004)) s) := by
  simp [stmtTimeout, hopen]

/-! ### Sealing and durability (R285, R286) -/

/-- R285: the pages that a round of the seal goes through. -/
def dirtyPages (s : State) : List Nat := (s.ledger.pages.filter (fun e => e.2.dirty && !isPending s e.1)).map (·.1)

/-- R285: in a round (log 154) the endpoints of each dirty page are evaluated, then each page that can be sealed is. -/
theorem ledgerSeal_of_running {s : State} (hreplayed : s.jnl.replayed = true) (hpause : s.fw.pause = none) :
    ledgerSeal s = (dirtyPages s).foldl (fun s p => if sealable s p then sealPage p s else s)
      ((dirtyPages s).foldl (fun s p => (List.range 16).foldl (fun s i => evalEp (16 * p + i) (secs s) s) s)
        { roundAt s.ledger.sealAt (pval s 0x5001) s with
          ledger.sealAt := some (roundAt s.ledger.sealAt (pval s 0x5001) s).mono }) := by
  have hdirty := roundAt_keeps dirtyPages (by intros; rfl) s.ledger.sealAt (pval s 0x5001) s
  rw [← hdirty, ledgerSeal, if_neg (by simp [hreplayed, hpause])]
  rfl

/-- R285: what the seal of a page writes. -/
theorem sealPage_of_key (p : Nat) {key : List Byte} {s : State} (hkey : domainKey .ledger s = some key) :
    ∃ copy entries, sealPage p s = { s with
      roots.sealedVer := tset s.roots.sealedVer p (sealedVer s p + 1)
      ledger.pages := tset s.ledger.pages p
        { dirty := false, copy := some copy, awaiting := true, due := s.mono + tSec (pval s 0x5000), late := false }
      ledger.exportQ := s.ledger.exportQ ++ [p]
      jnv.entries := entries } := by
  rw [sealPage, hkey]
  exact ⟨_, _, rfl⟩

theorem durabilityExpiry_of_awaiting {p : Nat} {s : State} (hawait : (page s p).awaiting = true) (hlate : (page s p).late = false) :
    page (durabilityExpiry p s) p = { page s p with late := true } ∧ (durabilityExpiry p s).evt.pend.getLsbD 0x50 = true := by
  obtain ⟨m, b, hrun⟩ := durability_eq p s hawait hlate
  rw [hrun]
  refine ⟨?_, raise_set 0x50 _ (by decide) (by decide)⟩
  rw [raise_keeps (page · p) (by intros; rfl), record_keeps (page · p) (by intros; rfl)]
  exact tget_tset_same _ p _ _

/-! ### Power failure (R280) -/

@[simp] theorem pwr_jnlPwr (on : Bool) (s : State) : (jnlPwr on s).jnl.pwr = on :=
  jnlRefresh_pwr { s with jnl.pwr := on }

@[simp] theorem mon_jnlPwr (on : Bool) (s : State) : (jnlPwr on s).mon = s.mon :=
  jnlPwr_keeps State.mon (by intros; rfl) on s

theorem pwrfailAssert_of_high {s : State} (hhigh : s.mon.pwrfailN = true) :
    pwrfailAssert s = jnlPwr true { pwrCommit s with mon.pwrfailN := false } :=
  if_neg (by simp [hhigh])

/-- R280: while a rail is out of range no RECOVERED entry is committed. -/
theorem pwrfailDeassert_of_rail_out {s : State} (hlow : s.mon.pwrfailN = false) (hrail : s.mon.out.extractLsb' 0 7 ≠ 0) :
    pwrfailDeassert s = jnlPwr false { s with mon.pwrfailN := true } := by
  rw [pwrfailDeassert, if_neg (by simp [hlow])]
  exact if_neg fun h => hrail (of_decide_eq_true (Bool.and_eq_true_iff.1 h).1)

/-! ### The display (R296, R297) -/

/-- The screen of a cycle that is shown next. -/
def screenText (next : Nat) (cycle : List (List Byte)) : List Byte := cycle.getD (next % cycle.length) []

/-- The number of the screen after it. -/
def screenAfter (next : Nat) (cycle : List (List Byte)) : Nat := (next % cycle.length + 1) % cycle.length

theorem displayTry_of_acked {s : State} (hcycle : displayCycle s ≠ []) :
    displayTry true s = { s with
      ledger.dispNext := screenAfter s.ledger.dispNext (displayCycle s)
      ledger.dispRetry := none
      ledger.screen := screenText s.ledger.dispNext (displayCycle s)
      out := .display (pval s 0x5012) (0x40 :: screenText s.ledger.dispNext (displayCycle s)) :: s.out } := by
  simp only [displayTry, List.isEmpty_iff, hcycle, if_false, if_true]
  rfl

theorem displayTry_of_not_acked {s : State} (hcycle : displayCycle s ≠ []) :
    displayTry false s = { s with
      ledger.dispNext := screenAfter s.ledger.dispNext (displayCycle s)
      ledger.dispRetry := some (s.mono + tSec 60)
      out := .display (pval s 0x5012) [] :: s.out } := by
  simp only [displayTry, List.isEmpty_iff, hcycle, if_false, Bool.false_eq_true]
  rfl

section Screen
variable {s u : State} (hup : (isl s 29).inReset = false) (hretry : s.ledger.dispRetry = none)
  (hu : u = roundAt s.ledger.dispAt (pval s 0x5011) s)
include hup hretry hu

theorem displayScreen_of_due (acked : Bool) : displayScreen acked s = displayTry acked { u with ledger.dispAt := some u.mono } := by
  subst hu
  exact if_neg (by simp [hup, hretry])

variable (hcycle : displayCycle u ≠ [])
include hcycle

theorem displayScreen_of_acked :
    (displayScreen true s).ledger.screen = screenText s.ledger.dispNext (displayCycle u) ∧
    (displayScreen true s).out =
      .display (pval s 0x5012) (0x40 :: screenText s.ledger.dispNext (displayCycle u)) :: s.out ∧
    (displayScreen true s).ledger.dispNext = screenAfter s.ledger.dispNext (displayCycle u) := by
  have hledger : u.ledger = s.ledger := hu ▸ roundAt_keeps State.ledger (by intros; rfl) _ _ s
  have hpval : pval u 0x5012 = pval s 0x5012 := hu ▸ roundAt_keeps (pval · 0x5012) (by intros; rfl) _ _ s
  have hout : u.out = s.out := hu ▸ roundAt_keeps State.out (by intros; rfl) _ _ s
  rw [(displayScreen_of_due hup hretry hu true).trans (displayTry_of_acked hcycle), ← hledger, ← hpval, ← hout]
  exact ⟨rfl, rfl, rfl⟩

/-- R296: a screen that is not acknowledged is tried again after 60 s. -/
theorem displayScreen_of_not_acked :
    (displayScreen false s).ledger.screen = s.ledger.screen ∧ (displayScreen false s).ledger.dispRetry = some (u.mono + tSec 60) := by
  have hledger : u.ledger = s.ledger := hu ▸ roundAt_keeps State.ledger (by intros; rfl) _ _ s
  rw [(displayScreen_of_due hup hretry hu false).trans (displayTry_of_not_acked hcycle), ← hledger]
  exact ⟨rfl, rfl⟩

end Screen

theorem displayRetry_of_awaited (acked : Bool) {m : Nat} {s : State} (hretry : s.ledger.dispRetry = some m)
    (hup : (isl s 29).inReset = false) :
    displayRetry acked s = displayTry acked { advMono m s with ledger.dispAt := some (advMono m s).mono } := by
  simp [displayRetry, hretry, hup]

/-! ### Calendars (R267, R268, R270, R274) -/

/-- R267: a version that waits for its instant, once its CAL_LOAD entry is committed. -/
def loadedPending (v : CalVer) (s : State) : State :=
  updCal v.index (fun c => { c with pending := some v }) (commitOne (ledgerEntry (.calLoad v.index v.calId v.version true)) s)

theorem calLoad_of_pending {r : Req} {v : CalVer} {s : State} (hread : readCal r.payload = some v)
    (hid : (calRoot s v.index).calId = v.calId) (hhow : loadAs s v (calRoot s v.index).high = .pending) (hok : ledgerOk s = true) :
    calLoad r s = if calAuth r.payload v s
      then replyOk (bookDeferred v.index (if trusted (loadedPending v s)
        then catchUp v.index (secs s) (!idxHeld s v.index) (loadedPending v s) else loadedPending v s))
      else refuse s .authFail := by
  by_cases hauth : calAuth r.payload v s = true
  · simp [calLoad, hread, hid, hhow, hok, hauth, calPlace, loadedPending]
    rfl
  · simp [calLoad, hread, hid, hhow, hok, hauth]

theorem calGet_of_active {r : Req} {v : CalVer} {s : State} (hwhich : rd r.payload 1 1 = 0) (hzero : zeroAt r.payload 2 2 = true)
    (hactive : (calIdx s (rd r.payload 0 1)).active = some v) :
    calGet r s = replyOk s (v.raw.take 64 ++ le 4 (calRoot s (rd r.payload 0 1)).cseq ++
      le 4 (calRoot s (rd r.payload 0 1)).lastApplied) := by
  simp [calGet, hwhich, hzero, hactive]

/-- R270: the endpoints of a list whose calendar changes, each with an entry of its own. -/
def calChanges (s : State) (xs : List (Nat × Nat × Nat)) : List (Nat × Nat × Nat) :=
  xs.filter (fun x => match tfind s.eps x.1 with
    | some e => (e.adm == .admitted || e.adm == .suspended) && e.img.cal != x.2.2
    | none => false)

/-- R270: the list of a TARIFF_ASSIGN. -/
def assignList (p : List Byte) : List (Nat × Nat × Nat) := (List.range (rd p 0 2)).map (assignEntry p)

theorem tariffAssign_of_good {r : Req} {s : State} (hzero : zeroAt r.payload 2 2 = true)
    (hgood : ((assignList r.payload).zip (List.range (rd r.payload 0 2))).find? (fun x => assignBad s x.1) = none)
    (htakes : jnlTakes (calChanges s (assignList r.payload)).length s = true) :
    tariffAssign r (taken r s) = replyOk ((assignList r.payload).foldl (fun s x => applyAssign x s) (taken r s)) := by
  have hlist : ((assignList r.payload).zip (List.range (rd r.payload 0 2))).find? (fun x => assignBad (taken r s) x.1) = none := hgood
  unfold assignList at *
  simp only [tariffAssign, hzero, hlist, Bool.not_true, Bool.false_eq_true, if_false]
  exact if_neg (tariffAssign_takes _ r s htakes)

/-- R274: PERIOD_CLOSE_NOW closes at this second, after what has passed before it (log 15). -/
theorem periodCloseNow_of_ready {r : Req} {s u : State} (hzero : zeroAt r.payload 1 3 = true) (hheld : idxHeld s (rd r.payload 0 1) = true)
    (htrust : trusted s = true) (hok : ledgerOk s = true) (hu : u = catchUp (rd r.payload 0 1) (secs s - 1) false s)
    (hlast : (calRoot u (rd r.payload 0 1)).lastApplied < secs s) (hroom : ledgerOk u = true) :
    periodCloseNow r s =
      let w := transition (rd r.payload 0 1) (secs s) (kindsAt u (rd r.payload 0 1) (secs s)) true false u
      replyOk w (le 4 (secs s) ++ le 4 (calRoot w (rd r.payload 0 1)).cseq) := by
  subst hu
  simp [periodCloseNow, hzero, hheld, htrust, hok, hroom, Nat.not_le.2 hlast]

/-! ### LEDGER_PAGE_LOST (R289) -/

/-- R289: what the declaration that page p is lost leaves, before its endpoints start anew (log 16). -/
def pageGivenUp (p resume : Nat) (s : State) : State :=
  let s1 := commitOne { ledgerEntry (.pageLost p (sealedVer s p) resume) with needPages := [(p, 0)] } s
  record rcPageLost (le 4 p ++ le 4 (sealedVer s p))
    { s1 with
      roots.confVer := tset s1.roots.confVer p (sealedVer s1 p)
      ledger.pending := some ((pendingPages s1).filter (· != p)) }

theorem confVer_pageGivenUp (p resume : Nat) (s : State) : confVer (pageGivenUp p resume s) p = sealedVer s p := by
  rw [pageGivenUp, record_keeps (confVer · p) (by intros; rfl)]
  exact (tget_tset_same _ p _ 0).trans (sealedVer_commitOne p _ s)

theorem isPending_pageGivenUp (p resume : Nat) (s : State) : isPending (pageGivenUp p resume s) p = false := by
  rw [pageGivenUp, record_keeps (isPending · p) (by intros; rfl)]
  simp [isPending, pendingPages]

section PageLost
variable {r : Req} {s : State} (hpage : rd r.payload 0 4 < 65536) (hpend : isPending s (rd r.payload 0 4) = true) (hok : ledgerOk s = true)
include hpage hpend hok

theorem ledgerPageLost_of_later (hlater : closedTop s (rd r.payload 0 4) < rd r.payload 4 4) :
    ledgerPageLost r s = replyOk (checkRestoreDone ((List.range 16).foldl
      (fun s i => lostRestart (16 * rd r.payload 0 4 + i) (rd r.payload 4 4) s)
      (dirtyPage (rd r.payload 0 4) (pageGivenUp (rd r.payload 0 4) (rd r.payload 4 4) s)))) := by
  simp [ledgerPageLost, Nat.not_le.2 hpage, hpend, hok, Nat.not_le.2 hlater, pageGivenUp]

/-- R289: a period that is closed would be open again. -/
theorem ledgerPageLost_of_reopening (hclosed : rd r.payload 4 4 ≤ closedTop s (rd r.payload 0 4)) :
    ledgerPageLost r s = refuse (record rcRefused (le 2 0x0506 ++ le 2 0 ++ le 4 (rd r.payload 0 4) ++ le 4 (rd r.payload 4 4)) s)
      .badState := by
  simp [ledgerPageLost, Nat.not_le.2 hpage, hpend, hok, hclosed]

end PageLost

end Sys2Proof.Machine

open Sys2Proof Sys2Proof.Machine

/-- Settles O32, clause by clause, from the rule of each case. -/
theorem ledgerEngineEffects : Obligations.LedgerEngineEffects := by
  unfold Obligations.LedgerEngineEffects
  refine ⟨?transition, ?close, ?sweepLast, ?sweepMore, ?stmtTimeout, ?sealRound, ?sealPage, ?late, ?pwrfail, ?pwrBack, ?shown, ?notShown, ?retry,
    ?calLoad, ?calGet, ?assign, ?closeNow, ?pageLost, ?reopening⟩
  case transition =>
    exact fun k t s hheld htrust _ hkind hok hnext => congrArg Host.Outcome.next (calTransition_of_next hheld htrust hkind hok hnext)
  case close =>
    intro k t jseq x s hclose hact
    rw [transApply_of_close k t jseq s hclose hact, calRoot_updRoot, calRoot_applyClose]
    exact ⟨rfl, rfl, pend_applyClose k t _ 1 s⟩
  case sweepLast => exact fun k n from_ h s hat hlast hend => ⟨_, rfl, congrArg Host.Outcome.next (ledgerSweep_of_last hat hlast hend)⟩
  case sweepMore => exact fun k n from_ h s hat hlast hmore => ⟨_, rfl, congrArg Host.Outcome.next (ledgerSweep_of_more hat hlast hmore)⟩
  case stmtTimeout => exact fun b s hopen => congrArg Host.Outcome.next (stmtTimeout_of_open hopen)
  case sealRound =>
    rintro s _ hreplayed hpause rfl
    exact ⟨_, rfl, congrArg Host.Outcome.next (ledgerSeal_of_running hreplayed hpause)⟩
  case sealPage =>
    intro p key s hkey
    obtain ⟨copy, entries, hrun⟩ := sealPage_of_key p hkey
    rw [hrun]
    have hpage := tget_tset_same s.ledger.pages p
      { dirty := false, copy := some copy, awaiting := true, due := s.mono + tSec (pval s 0x5000), late := false } {}
    exact ⟨tget_tset_same s.roots.sealedVer p _ 0, congrArg Page.dirty hpage, congrArg Page.awaiting hpage, rfl, rfl⟩
  case late =>
    intro p s hawait hlate
    obtain ⟨hpage, hpend⟩ := durabilityExpiry_of_awaiting hawait hlate
    exact ⟨_, rfl, congrArg Page.late hpage, (congrArg Page.awaiting hpage).trans hawait, hpend⟩
  case pwrfail =>
    intro s hhigh
    refine ⟨_, congrArg Host.Outcome.next (pwrfailAssert_of_high hhigh), ?_, pwr_jnlPwr true _⟩
    rw [mon_jnlPwr]
  case pwrBack =>
    intro s hlow hrail
    refine ⟨_, congrArg Host.Outcome.next (pwrfailDeassert_of_rail_out hlow hrail), ?_, pwr_jnlPwr false _⟩
    rw [mon_jnlPwr]
  case shown =>
    intro s u hup hretry hu hcycle
    obtain ⟨hscreen, hout, hnext⟩ := displayScreen_of_acked hup hretry hu hcycle
    exact ⟨_, _, rfl, rfl, hscreen, hout, hnext⟩
  case notShown =>
    exact fun s u hup hretry hu hcycle => ⟨_, rfl, displayScreen_of_not_acked hup hretry hu hcycle⟩
  case retry => exact fun m acked s hretry hup => congrArg Host.Outcome.next (displayRetry_of_awaited acked hretry hup)
  case calLoad =>
    intro r v s h hread hid hhow hok
    refine ⟨_, rfl, ?_⟩
    have hrun := calLoad_of_pending (s := taken r s) hread hid hhow ((ledgerOk_taken r s).trans hok)
    split
    next hauth => exact next_serve_done h (hrun.trans (if_pos hauth))
    next hauth => exact next_serve_done h (hrun.trans (if_neg hauth))
  case calGet => exact fun r v s h hwhich hzero hactive => next_serve_done h (calGet_of_active (s := taken r s) hwhich hzero hactive)
  case assign =>
    rintro r _ s h hzero rfl hgood htakes
    exact next_serve_done h (tariffAssign_of_good hzero hgood htakes)
  case closeNow =>
    intro r u s h hzero hheld htrust hok hu hlast hroom
    exact ⟨_, rfl, next_serve_done h
      (periodCloseNow_of_ready (s := taken r s) hzero hheld htrust ((ledgerOk_taken r s).trans hok) hu hlast hroom)⟩
  case pageLost =>
    rintro r _ s h rfl hpage hpend hok hlater
    exact ⟨_, next_serve_done h (ledgerPageLost_of_later (s := taken r s) hpage hpend ((ledgerOk_taken r s).trans hok) hlater),
      confVer_pageGivenUp _ _ (taken r s), isPending_pageGivenUp _ _ (taken r s)⟩
  case reopening =>
    intro r s h hpage hpend hok hclosed
    exact ⟨_, next_serve_done h (ledgerPageLost_of_reopening (s := taken r s) hpage hpend ((ledgerOk_taken r s).trans hok) hclosed),
      record_keeps State.roots (by intros; rfl) _ _ _, record_keeps State.eps (by intros; rfl) _ _ _⟩

end

section
/-! The time, alarm, power-off and tamper opcodes and the mirror block (R282, R402, R403, R408 to R413, R503, R504): one rule per case of each
opcode and access, then O55. -/

namespace Sys2Proof.Machine

/-! ### TIME_SET and TIME_TRIM_SET (R282, R402, R403, R413) -/

/-- R282, R404: the TIME_STEP entry and the new time with it, which engine time takes at the commit itself (log 24). -/
def timeStepped (c : Calendar) (s : State) : State :=
  loadCal c { commitOne (ledgerEntry (.timeStep (secs s) (calSecs c) (!trusted s))) s with timeLoaded := true }

theorem bkp_afterTime (wasTrusted : Bool) (s : State) : (afterTime wasTrusted s).bkp = s.bkp :=
  afterTime_keeps State.bkp (by intros; rfl) wasTrusted s

theorem now_afterTime (wasTrusted : Bool) (s : State) : (afterTime wasTrusted s).now = s.now :=
  afterTime_keeps State.now (by intros; rfl) wasTrusted s

theorem timeLoaded_afterTime (wasTrusted : Bool) (s : State) : (afterTime wasTrusted s).timeLoaded = s.timeLoaded :=
  afterTime_keeps State.timeLoaded (by intros; rfl) wasTrusted s

theorem bkp_timeStepped (c : Calendar) (s : State) : (timeStepped c s).bkp =
    { s.bkp with cal := c, osf := false, rlf := false, ovf := false, shadow := none, writeSet := none } := by
  have hkept := commitOne_keeps State.bkp (by intros; rfl) (ledgerEntry (.timeStep (secs s) (calSecs c) (!trusted s))) s
  rw [← hkept]
  rfl

section TimeSet
variable {r : Req} {s : State}

theorem timeSet_of_open (hopen : (s.bkp.shadow.isSome || s.bkp.writeSet.isSome) = true) : timeSet r s = .wait s :=
  if_pos hopen

variable (hshadow : s.bkp.shadow = none) (hset : s.bkp.writeSet = none)
include hshadow hset

/-- R413: the refusals in their order (log 14). -/
theorem timeSet_of_reserved (hzero : zeroAt r.payload 10 2 = false) : timeSet r s = refuse s .badParam := by
  simp [timeSet, hshadow, hset, hzero]

variable (hzero : zeroAt r.payload 10 2 = true)
include hzero

theorem timeSet_of_invalid (hvalid : calValid (readCalBlock r.payload) = false) :
    timeSet r s = refuse { s with bkp.dateErr := true } .badParam := by
  simp [timeSet, hshadow, hset, hzero, hvalid]

variable (hvalid : calValid (readCalBlock r.payload) = true)
include hvalid

theorem timeSet_of_journal_full (hok : ledgerOk s = false) : timeSet r s = refuse s .badState := by
  simp [timeSet, hshadow, hset, hzero, hvalid, hok]

theorem timeSet_of_valid (hok : ledgerOk s = true) :
    timeSet r s = replyOk (afterTime (trusted s) (timeStepped (readCalBlock r.payload) s))
      (le 8 s.now ++ le 8 (timeStepped (readCalBlock r.payload) s).now) := by
  simp only [timeSet, hshadow, hset, hzero, hvalid, hok, Option.isSome_none, Bool.or_self, Bool.not_true, Bool.false_eq_true, if_false]
  rfl

end TimeSet

theorem timeTrimSet_of_good {r : Req} {s : State} (h : -511 ≤ rdI r.payload 0 2 ∧ rdI r.payload 0 2 ≤ 511 ∧ zeroAt r.payload 2 2 = true) :
    timeTrimSet r s = replyOk { s with bkp.trim := rdI r.payload 0 2 } :=
  if_neg (by simp [h])

theorem timeTrimSet_of_bad {r : Req} {s : State} (h : ¬ (-511 ≤ rdI r.payload 0 2 ∧ rdI r.payload 0 2 ≤ 511 ∧ zeroAt r.payload 2 2 = true)) :
    timeTrimSet r s = refuse s .badParam :=
  if_pos (by simpa [-not_and, not_and_or, or_assoc] using h)

/-! ### Alarms and POWER_OFF (R408, R409) -/

/-- R408: what an ALARM_SET carries for its alarm. -/
def alarmIn (p : List Byte) : Alarm :=
  { time := BitVec.ofNat 32 (rd p 4 4), date := BitVec.ofNat 32 (rd p 8 4), ctrl := BitVec.ofNat 32 (rd p 12 4) }

section Alarm
variable {r : Req} {s : State}

theorem alarmSet_of_good (h : rd r.payload 0 1 ≤ 1 ∧ zeroAt r.payload 1 3 = true ∧
      alarmOk (rd r.payload 4 4) (rd r.payload 8 4) (rd r.payload 12 4) = true) :
    alarmSet r s = replyOk { s with bkp.alarms := tset s.bkp.alarms (rd r.payload 0 1) (alarmIn r.payload) } :=
  if_neg (by simp [h])

theorem alarmSet_of_bad (h : ¬ (rd r.payload 0 1 ≤ 1 ∧ zeroAt r.payload 1 3 = true ∧
      alarmOk (rd r.payload 4 4) (rd r.payload 8 4) (rd r.payload 12 4) = true)) : alarmSet r s = refuse s .badParam :=
  if_pos (by simpa [-not_and, not_and_or, or_assoc] using h)

theorem alarmGet_of_good (h : rd r.payload 0 1 ≤ 1 ∧ zeroAt r.payload 1 3 = true) :
    alarmGet r s = replyOk s (le 4 (tget s.bkp.alarms (rd r.payload 0 1) {}).time.toNat ++
      le 4 (tget s.bkp.alarms (rd r.payload 0 1) {}).date.toNat ++ le 4 (tget s.bkp.alarms (rd r.payload 0 1) {}).ctrl.toNat ++
      le 4 (rtcStat s.bkp).toNat) :=
  if_neg (by simp [h])

theorem alarmGet_of_bad (h : ¬ (rd r.payload 0 1 ≤ 1 ∧ zeroAt r.payload 1 3 = true)) : alarmGet r s = refuse s .badParam :=
  if_pos (by simpa [-not_and, not_and_or, or_assoc] using h)

theorem powerOff_of_canWake (h : canWake s = true) : powerOff s = replyOk { s with bkp.offAt := some (s.mono + tMs 10) } :=
  if_pos h

theorem powerOff_of_not_canWake (h : ¬ canWake s = true) : powerOff s = refuse s .badState :=
  if_neg h

end Alarm

/-! ### Tamper (R410, R412, R413) -/

/-- A table written out over a list of keys, each with its value. -/
theorem tget_map_of_mem {α : Type} (f : Nat → α) (d : α) {i : Nat} : ∀ {l : List Nat}, i ∈ l → tget (l.map (fun j => (j, f j))) i d = f i
  | j :: l, h => by
    by_cases e : j = i
    · simp [tget, tfind, e]
    · have ih := tget_map_of_mem f d (List.mem_of_ne_of_mem (Ne.symm e) h)
      simpa [tget, tfind, e] using ih

/-- R410: what a TAMPER_CFG_SET that is accepted leaves. -/
def tampersConfigured (p : List Byte) (s : State) : State :=
  { s with
    bkp.tampCfg := (List.range 4).map (fun i => (i, BitVec.ofNat 8 (rd p i 1)))
    bkp.tamp := tmap s.bkp.tamp (fun i t => { t with active := t.active && bit (rd p i 1) 0 }) }

theorem tamperCfgSet_of_good {r : Req} {s : State} (h : ∀ i, i < 4 → bits (rd r.payload i 1) 7 5 = 0) :
    tamperCfgSet r s = replyOk (tampersConfigured r.payload s) :=
  if_neg (by simpa using h)

theorem tamperCfgSet_of_bad {r : Req} {s : State} (h : ∃ i, i < 4 ∧ bits (rd r.payload i 1) 7 5 ≠ 0) :
    tamperCfgSet r s = refuse s .badParam :=
  if_pos (by simpa using h)

theorem tamperGet_eq (s : State) : tamperGet s =
    replyOk s (tamperBytes s 0 ++ tamperBytes s 1 ++ tamperBytes s 2 ++ tamperBytes s 3 ++ le 1 (b2n s.bkp.sealOpen) ++ le 3 0 ++
      le 4 s.bkp.sealCount.toNat ++ le 4 s.bkp.sealFirst.toNat ++ le 4 s.bkp.sealLast.toNat) := by
  simp [tamperGet, List.range_succ]

/-- R412: the inputs that a TAMPER_CLEAR names. -/
def namedInputs (mask : Nat) : List Nat := (List.range 4).filter (bit mask)

theorem mem_namedInputs {mask i : Nat} (hi : i < 4) : i ∈ namedInputs mask ↔ bit mask i = true := by
  simp [namedInputs, hi]

/-- R412: the latches of the named inputs, and the counts last reported of them, are zero. -/
def tampersCleared (mask : Nat) (s : State) : State :=
  (namedInputs mask).foldl (fun s i =>
    { s with
      bkp.tamp := tupd s.bkp.tamp i {} (fun t => { t with count := 0, first := 0, last := 0, firstUntr := false, lastUntr := false })
      life.tampRep := tset s.life.tampRep i 0 }) s

theorem tamp_tampersCleared {i : Nat} (mask : Nat) (s : State) (hi : i < 4) : tget (tampersCleared mask s).bkp.tamp i {} =
    if bit mask i then { tget s.bkp.tamp i {} with count := 0, first := 0, last := 0, firstUntr := false, lastUntr := false }
    else tget s.bkp.tamp i {} := by
  exact (tclr_fold (namedInputs mask) s i).1.trans (by simp only [mem_namedInputs hi])

theorem tampRep_tampersCleared {i : Nat} (mask : Nat) (s : State) (hi : i < 4) : tget (tampersCleared mask s).life.tampRep i 0 =
    if bit mask i then 0 else tget s.life.tampRep i 0 := by
  exact (tclr_fold (namedInputs mask) s i).2.trans (by simp only [mem_namedInputs hi])

section TamperClear
variable {r : Req} {s : State}

theorem tamperClear_of_reserved_input (hbits : bits (rd r.payload 0 1) 7 4 ≠ 0) : tamperClear r s = refuse s .badParam :=
  if_pos (by simp [hbits])

variable (hzero : zeroAt r.payload 1 3 = true)
include hzero

theorem tamperClear_of_none (hmask : rd r.payload 0 1 = 0) : tamperClear r s = replyOk s := by
  have hbits : bits 0 7 4 = 0 := by decide
  simp [tamperClear, hzero, hmask, hbits]

/-- R412: the counts and times that were held go into a record. -/
theorem tamperClear_of_named (hmask : rd r.payload 0 1 ≠ 0) (hbits : bits (rd r.payload 0 1) 7 4 = 0) :
    ∃ held, tamperClear r s = replyOk (record rcTamperClear held (tampersCleared (rd r.payload 0 1) s)) := by
  rw [tamperClear, if_neg (by simp [hzero, hbits]), if_neg hmask]
  exact ⟨_, rfl⟩

end TamperClear

/-! ### The mirror block (R503, R504) -/

/-- R503: what the mirror shows while it follows the backup island. -/
def mirrored (b : Backup) (m : Mir) : Mir :=
  { m with
    cal := b.cal, stat := rtcStat b, recfStat := recfStat b, recfTime := b.recfTime, pwrOff := b.pwrOff
    tampCnt := (List.range 4).map (fun i => (i, (tget b.tamp i {}).count)), sealOpen := b.sealOpen, sealCount := b.sealCount
    stale := false }

theorem mirRefresh_of_up {s : State} (hup : controlUp s = true) : mirRefresh s = { s with mir := mirrored s.bkp s.mir } :=
  if_neg (by simp [hup])

theorem mirRefresh_of_down {s : State} (hdown : controlUp s = false) : mirRefresh s = { s with mir.stale := true } :=
  if_pos (by simp [hdown])

section HostRead
variable {s : State} (hhost : (isl s 33).inReset = false)
include hhost

theorem mirYearRead_of_up : mirYearRead s = { s with glb.lastRead := BitVec.ofNat 32 (mirCal s).year, mir.shadow := none } :=
  if_neg (by simp [hhost])

variable {reg : Nat} (hreg : reg < 8) (hyear : reg ≠ 6)
include hreg hyear

theorem mirCalRead_of_up : mirCalRead reg s = { s with
    glb.lastRead := BitVec.ofNat 32 (calField (mirCal s) reg)
    mir.shadow := if s.mir.shadow.isSome then s.mir.shadow else some (s.mir.cal, s.mono) } := by
  rw [mirCalRead, if_neg (by simp [hhost, hreg]), if_neg hyear]

/-- R504: the first read freezes the copy. -/
theorem mirCalRead_of_unfrozen (hfree : s.mir.shadow = none) : mirCalRead reg s = { s with
    glb.lastRead := BitVec.ofNat 32 (calField s.mir.cal reg)
    mir.shadow := some (s.mir.cal, s.mono) } := by
  rw [mirCalRead_of_up hhost hreg hyear, mirCal, hfree]
  rfl

theorem mirCalRead_of_frozen {c : Calendar} {m : Nat} (hfrozen : s.mir.shadow = some (c, m)) :
    mirCalRead reg s = { s with glb.lastRead := BitVec.ofNat 32 (calField c reg) } := by
  rw [mirCalRead_of_up hhost hreg hyear, mirCal, hfrozen]
  exact congrArg (fun x => { s with glb.lastRead := BitVec.ofNat 32 (calField c reg), mir.shadow := x }) hfrozen.symm

end HostRead

theorem mirShadowTimeout_of_frozen {c : Calendar} {m : Nat} {s : State} (hfrozen : s.mir.shadow = some (c, m)) :
    mirShadowTimeout s = { advMono (m + tMs 1) s with mir := { s.mir with shadow := none, shadowTo := true } } := by
  have hmir : (advMono (m + tMs 1) s).mir = s.mir := advMono_keeps State.mir (by intros; rfl) _ s
  rw [mirShadowTimeout, hfrozen, ← hmir]

end Sys2Proof.Machine

open Sys2Proof Sys2Proof.Machine

/-- Settles O55, clause by clause, from the rule of each case. -/
theorem backupOpcodeEffects : Obligations.BackupOpcodeEffects := by
  unfold Obligations.BackupOpcodeEffects
  refine ⟨?timeGet, ?timeSet, ?timeRefused, ?timeWaits, ?trim, ?alarmSet, ?alarmGet, ?powerOff, ?tamperCfg, ?tamperGet, ?tamperClear, ?mirror,
    ?mirrorStale, ?calRead, ?yearRead, ?shadowTimeout⟩
  case timeGet => exact fun r s h => next_serve_done h rfl
  case timeSet =>
    rintro r _ s h hshadow hset hzero rfl hvalid hok
    refine ⟨_, next_serve_done h (timeSet_of_valid (s := taken r s) hshadow hset hzero hvalid hok), rfl, ?_, ?_, ?_⟩
    · exact (bkp_afterTime _ _).trans (bkp_timeStepped _ (taken r s))
    · exact now_afterTime _ _
    · exact timeLoaded_afterTime _ _
  case timeRefused =>
    exact fun r s h hshadow hset =>
      ⟨fun hzero => next_serve_done h (timeSet_of_reserved (s := taken r s) hshadow hset hzero),
        fun hzero hvalid => next_serve_done h (timeSet_of_invalid (s := taken r s) hshadow hset hzero hvalid),
        fun hzero hvalid hok => next_serve_done h (timeSet_of_journal_full (s := taken r s) hshadow hset hzero hvalid hok)⟩
  case timeWaits => exact fun r s h hopen => congrArg Host.Outcome.next (serve_wait timeSetService r s _ h (timeSet_of_open hopen))
  case trim =>
    intro r s h
    split
    next hgood => exact next_serve_done h (timeTrimSet_of_good (s := taken r s) hgood)
    next hbad => exact next_serve_done h (timeTrimSet_of_bad (s := taken r s) hbad)
  case alarmSet =>
    intro r s h
    split
    next hgood => exact next_serve_done h (alarmSet_of_good (s := taken r s) hgood)
    next hbad => exact next_serve_done h (alarmSet_of_bad (s := taken r s) hbad)
  case alarmGet =>
    rintro r _ s h rfl
    split
    next hgood => exact next_serve_done h (alarmGet_of_good (s := taken r s) hgood)
    next hbad => exact next_serve_done h (alarmGet_of_bad (s := taken r s) hbad)
  case powerOff =>
    intro r s h
    split
    next hwake => exact next_serve_done h (powerOff_of_canWake (s := taken r s) hwake)
    next hwake => exact next_serve_done h (powerOff_of_not_canWake (s := taken r s) hwake)
  case tamperCfg =>
    exact fun r s h =>
      ⟨fun hgood => ⟨_, next_serve_done h (tamperCfgSet_of_good (s := taken r s) hgood), rfl, rfl,
          fun i hi => tget_map_of_mem (fun i => BitVec.ofNat 8 (rd r.payload i 1)) 0 (List.mem_range.2 hi)⟩,
        fun hbad => next_serve_done h (tamperCfgSet_of_bad (s := taken r s) hbad)⟩
  case tamperGet => exact fun r s h => next_serve_done h (tamperGet_eq (taken r s))
  case tamperClear =>
    refine fun r s h hzero => ⟨fun hmask => next_serve_done h (tamperClear_of_none (s := taken r s) hzero hmask), ?_,
      fun hbits => next_serve_done h (tamperClear_of_reserved_input (s := taken r s) hbits)⟩
    intro hmask hbits
    obtain ⟨held, hrun⟩ := tamperClear_of_named (s := taken r s) hzero hmask hbits
    refine ⟨_, next_serve_done h hrun, fun i hi => ⟨?_, ?_⟩⟩
    · rw [record_tamp]
      exact tamp_tampersCleared _ (taken r s) hi
    · rw [record_keeps (fun s => tget s.life.tampRep i 0) (by intros; rfl)]
      exact tampRep_tampersCleared _ (taken r s) hi
  case mirror =>
    intro s hup
    refine ⟨_, congrArg Host.Outcome.next (mirRefresh_of_up hup), rfl, rfl, rfl, rfl, rfl, rfl, rfl, rfl, rfl, rfl, rfl, fun i hi => ?_⟩
    exact tget_map_of_mem (fun i => (tget s.bkp.tamp i {}).count) 0 (List.mem_range.2 hi)
  case mirrorStale => exact fun s hdown => congrArg Host.Outcome.next (mirRefresh_of_down hdown)
  case calRead =>
    exact fun reg s hhost hreg hyear =>
      ⟨fun hfree => congrArg Host.Outcome.next (mirCalRead_of_unfrozen hhost hreg hyear hfree),
        fun c m hfrozen => congrArg Host.Outcome.next (mirCalRead_of_frozen hhost hreg hyear hfrozen)⟩
  case yearRead => exact fun s hhost => congrArg Host.Outcome.next (mirYearRead_of_up hhost)
  case shadowTimeout =>
    exact fun c m s hfrozen => ⟨_, congrArg Host.Outcome.next (mirShadowTimeout_of_frozen hfrozen), rfl, advMono_mono _ s⟩

end

section
/-! What each command leaves unchanged: the law of the command in Laws/KeepExec.lean names the parts that it can write, and a mask over those parts
hides all that the command does. From that O39 to O50, family by family. -/

namespace Sys2Proof.Machine

/-- A command that a mask over some parts of the state hides writes nothing but those parts. -/
theorem frame_of_keeps {f : State → Host.Outcome State Fault Refusal} {mask : State → State → State} (hm : ∀ t, mask t t = t)
    (h : ∀ u s t, f s = .next t → mask u t = mask u s) : ∀ s t, f s = .next t → t = mask t s :=
  fun s t e => (hm t).symm.trans (h t s t e)

end Sys2Proof.Machine

open Sys2Proof Sys2Proof.Machine

/-- Settles O39, a law for each command. -/
theorem hostCommandFrames : Obligations.HostCommandFrames := by
  unfold Obligations.HostCommandFrames
  refine ⟨?registerWrite, ?etimeLoRead, ?rstCtrlSysrst, ?mbxEnable, ?mbxDisable, ?mbxReset, ?mbxReqPiWrite, ?mbxRspCiWrite, ?requestFetch,
    ?ringBusError, ?responsePost, ?requestWaitEnd, ?evtPendClear, ?evtEnWrite, ?evtForce, ?msixUnmask, ?nop, ?configBegin, ?configCommit,
    ?configAbort, ?configStateGet, ?capsGet, ?paramBlockWrite, ?paramBlockRead, ?commitInstant, ?dmaPiWrite, ?firmwareTakeover,
    ?pcieUncorrectableError⟩
  case registerWrite => exact fun addr be data => frame_of_keeps (fun _ => rfl) fun _ => execRegisterWrite_keeps _ (by intros; rfl) addr be data
  case etimeLoRead => exact frame_of_keeps (fun _ => rfl) fun _ => execEtimeLoRead_keeps _ (by intros; rfl)
  case rstCtrlSysrst => exact fun data => frame_of_keeps (fun _ => rfl) fun _ => execRstCtrlSysrst_keeps _ (by intros; rfl) data
  case mbxEnable => exact fun m => frame_of_keeps (fun _ => rfl) fun _ => execMbxEnable_keeps _ (by intros; rfl) m
  case mbxDisable => exact fun m => frame_of_keeps (fun _ => rfl) fun _ => execMbxDisable_keeps _ (by intros; rfl) m
  case mbxReset => exact fun m => frame_of_keeps (fun _ => rfl) fun _ => execMbxReset_keeps _ (by intros; rfl) m
  case mbxReqPiWrite => exact fun m v => frame_of_keeps (fun _ => rfl) fun _ => execMbxReqPiWrite_keeps _ (by intros; rfl) m v
  case mbxRspCiWrite => exact fun m v => frame_of_keeps (fun _ => rfl) fun _ => execMbxRspCiWrite_keeps _ (by intros; rfl) m v
  case requestFetch => exact fun m bytes => frame_of_keeps (fun _ => rfl) fun _ => execRequestFetch_keeps _ (by intros; rfl) m bytes
  case ringBusError => exact fun m write => frame_of_keeps (fun _ => rfl) fun _ => execRingBusError_keeps _ (by intros; rfl) m write
  case responsePost => exact fun m => frame_of_keeps (fun _ => rfl) fun _ => execResponsePost_keeps _ (by intros; rfl) m
  case requestWaitEnd =>
    intro op s t e
    and_intros <;> exact execRequestWaitEnd_keeps _ (by intros; rfl) op s t e
  case evtPendClear => exact fun k data occurring => frame_of_keeps (fun _ => rfl) fun _ => execEvtPendClear_keeps _ (by intros; rfl) k data occurring
  case evtEnWrite => exact fun k data => frame_of_keeps (fun _ => rfl) fun _ => execEvtEnWrite_keeps _ (by intros; rfl) k data
  case evtForce => exact fun k data => frame_of_keeps (fun _ => rfl) fun _ => execEvtForce_keeps _ (by intros; rfl) k data
  case msixUnmask => exact fun vector => frame_of_keeps (fun _ => rfl) fun _ => execMsixUnmask_keeps _ (by intros; rfl) vector
  case nop => exact fun r => frame_of_keeps (fun _ => rfl) fun _ => execNop_keeps _ (by intros; rfl) r
  case configBegin => exact fun r => frame_of_keeps (fun _ => rfl) fun _ => execConfigBegin_keeps _ (by intros; rfl) r
  case configCommit => exact fun r => frame_of_keeps (fun _ => rfl) fun _ => execConfigCommit_keeps _ (by intros; rfl) r
  case configAbort => exact fun r => frame_of_keeps (fun _ => rfl) fun _ => execConfigAbort_keeps _ (by intros; rfl) r
  case configStateGet => exact fun r => frame_of_keeps (fun _ => rfl) fun _ => execConfigStateGet_keeps _ (by intros; rfl) r
  case capsGet => exact fun r => frame_of_keeps (fun _ => rfl) fun _ => execCapsGet_keeps _ (by intros; rfl) r
  case paramBlockWrite => exact fun r => frame_of_keeps (fun _ => rfl) fun _ => execParamBlockWrite_keeps _ (by intros; rfl) r
  case paramBlockRead => exact fun r => frame_of_keeps (fun _ => rfl) fun _ => execParamBlockRead_keeps _ (by intros; rfl) r
  case commitInstant =>
    intro hwFault s t e
    and_intros <;> exact execCommitInstant_keeps _ (by intros; rfl) hwFault s t e
  case dmaPiWrite => exact fun c v => frame_of_keeps (fun _ => rfl) fun _ => execDmaPiWrite_keeps _ (by intros; rfl) c v
  case firmwareTakeover =>
    intro s t e
    and_intros <;> exact execFirmwareTakeover_keeps _ (by intros; rfl) s t e
  case pcieUncorrectableError => exact frame_of_keeps (fun _ => rfl) fun _ => execPcieUncorrectableError_keeps _ (by intros; rfl)

/-- Settles O40, a law for each command. -/
theorem resetAndLinkCommandFrames : Obligations.ResetAndLinkCommandFrames := by
  unfold Obligations.ResetAndLinkCommandFrames
  refine ⟨?flitTransfer, ?creditReturn, ?creditAudit, ?fenceWaitExpiry, ?monitorSample, ?c1Recovery, ?porMainAssert, ?porMainRelease,
    ?nresetAssert, ?nresetRelease, ?perstNAssert, ?wdtExpiry, ?sysrst, ?recorderDrainEnd, ?dprst, ?islrst, ?resetRequest, ?releaseStageEnd,
    ?genLockTimeout, ?synthLockRetry, ?coreBist, ?pcieLinkTrain, ?ddrTraining, ?startScanReplay, ?rfPortTrain, ?rfPortTrainEnd, ?plcOffsetCal,
    ?dataplaneBist, ?trainReportGet⟩
  case flitTransfer => exact fun d => frame_of_keeps (fun _ => rfl) fun _ => execFlitTransfer_keeps _ (by intros; rfl) d
  case creditReturn => exact fun d => frame_of_keeps (fun _ => rfl) fun _ => execCreditReturn_keeps _ (by intros; rfl) d
  case creditAudit =>
    intro upsets s t e
    and_intros <;> exact execCreditAudit_keeps _ (by intros; rfl) upsets s t e
  case fenceWaitExpiry => exact fun d => frame_of_keeps (fun _ => rfl) fun _ => execFenceWaitExpiry_keeps _ (by intros; rfl) d
  case monitorSample => exact fun outOfRange => frame_of_keeps (fun _ => rfl) fun _ => execMonitorSample_keeps _ (by intros; rfl) outOfRange
  case c1Recovery => exact frame_of_keeps (fun _ => rfl) fun _ => execC1Recovery_keeps _ (by intros; rfl)
  case porMainAssert =>
    intro s t e
    and_intros <;> exact execPorMainAssert_keeps _ (by intros; rfl) s t e
  case porMainRelease => exact frame_of_keeps (fun _ => rfl) fun _ => execPorMainRelease_keeps _ (by intros; rfl)
  case nresetAssert =>
    intro s t e
    and_intros <;> exact execNresetAssert_keeps _ (by intros; rfl) s t e
  case nresetRelease => exact frame_of_keeps (fun _ => rfl) fun _ => execNresetRelease_keeps _ (by intros; rfl)
  case perstNAssert => exact frame_of_keeps (fun _ => rfl) fun _ => execPerstNAssert_keeps _ (by intros; rfl)
  case wdtExpiry =>
    intro s t e
    and_intros <;> exact execWdtExpiry_keeps _ (by intros; rfl) s t e
  case sysrst =>
    intro s t e
    and_intros <;> exact execSysrst_keeps _ (by intros; rfl) s t e
  case recorderDrainEnd => exact frame_of_keeps (fun _ => rfl) fun _ => execRecorderDrainEnd_keeps _ (by intros; rfl)
  case dprst =>
    intro s t e
    and_intros <;> exact execDprst_keeps _ (by intros; rfl) s t e
  case islrst =>
    intro i s t e
    and_intros <;> exact execIslrst_keeps _ (by intros; rfl) i s t e
  case resetRequest => exact fun r => frame_of_keeps (fun _ => rfl) fun _ => execResetRequest_keeps _ (by intros; rfl) r
  case releaseStageEnd => exact fun straps opt => frame_of_keeps (fun _ => rfl) fun _ => execReleaseStageEnd_keeps _ (by intros; rfl) straps opt
  case genLockTimeout => exact fun i => frame_of_keeps (fun _ => rfl) fun _ => execGenLockTimeout_keeps _ (by intros; rfl) i
  case synthLockRetry => exact fun locked => frame_of_keeps (fun _ => rfl) fun _ => execSynthLockRetry_keeps _ (by intros; rfl) locked
  case coreBist => exact fun failed res => frame_of_keeps (fun _ => rfl) fun _ => execCoreBist_keeps _ (by intros; rfl) failed res
  case pcieLinkTrain => exact fun width speed => frame_of_keeps (fun _ => rfl) fun _ => execPcieLinkTrain_keeps _ (by intros; rfl) width speed
  case ddrTraining => exact fun ranks => frame_of_keeps (fun _ => rfl) fun _ => execDdrTraining_keeps _ (by intros; rfl) ranks
  case startScanReplay => exact frame_of_keeps (fun _ => rfl) fun _ => execStartScanReplay_keeps _ (by intros; rfl)
  case rfPortTrain => exact fun p => frame_of_keeps (fun _ => rfl) fun _ => execRfPortTrain_keeps _ (by intros; rfl) p
  case rfPortTrainEnd => exact fun p res => frame_of_keeps (fun _ => rfl) fun _ => execRfPortTrainEnd_keeps _ (by intros; rfl) p res
  case plcOffsetCal => exact fun offsets => frame_of_keeps (fun _ => rfl) fun _ => execPlcOffsetCal_keeps _ (by intros; rfl) offsets
  case dataplaneBist => exact fun badIslands lanes => frame_of_keeps (fun _ => rfl) fun _ => execDataplaneBist_keeps _ (by intros; rfl) badIslands lanes
  case trainReportGet => exact fun r => frame_of_keeps (fun _ => rfl) fun _ => execTrainReportGet_keeps _ (by intros; rfl) r

/-- Settles O41, a law for each command. -/
theorem firmwareCommandFrames : Obligations.FirmwareCommandFrames := by
  unfold Obligations.FirmwareCommandFrames
  refine ⟨?bootRomVerify, ?fwInfoGet, ?fwStageBegin, ?stagingEraseDone, ?fwStageWrite, ?fwStageCommit, ?fwStageClear, ?fwPrepare, ?fwPrepareDone,
    ?fwMicrocodeAt, ?microcodeSwitch, ?fwActivate, ?activationPauseOverrun, ?fwConfirm, ?confirmTimerExpiry, ?fwHostBoot, ?lifecycleAdvance,
    ?custKeyProgram⟩
  case bootRomVerify => exact fun v => frame_of_keeps (fun _ => rfl) fun _ => execBootRomVerify_keeps _ (by intros; rfl) v
  case fwInfoGet => exact fun r => frame_of_keeps (fun _ => rfl) fun _ => execFwInfoGet_keeps _ (by intros; rfl) r
  case fwStageBegin => exact fun r => frame_of_keeps (fun _ => rfl) fun _ => execFwStageBegin_keeps _ (by intros; rfl) r
  case stagingEraseDone => exact frame_of_keeps (fun _ => rfl) fun _ => execStagingEraseDone_keeps _ (by intros; rfl)
  case fwStageWrite => exact fun r => frame_of_keeps (fun _ => rfl) fun _ => execFwStageWrite_keeps _ (by intros; rfl) r
  case fwStageCommit => exact fun r => frame_of_keeps (fun _ => rfl) fun _ => execFwStageCommit_keeps _ (by intros; rfl) r
  case fwStageClear => exact fun r => frame_of_keeps (fun _ => rfl) fun _ => execFwStageClear_keeps _ (by intros; rfl) r
  case fwPrepare => exact fun r => frame_of_keeps (fun _ => rfl) fun _ => execFwPrepare_keeps _ (by intros; rfl) r
  case fwPrepareDone => exact fun fault => frame_of_keeps (fun _ => rfl) fun _ => execFwPrepareDone_keeps _ (by intros; rfl) fault
  case fwMicrocodeAt => exact fun r => frame_of_keeps (fun _ => rfl) fun _ => execFwMicrocodeAt_keeps _ (by intros; rfl) r
  case microcodeSwitch => exact frame_of_keeps (fun _ => rfl) fun _ => execMicrocodeSwitch_keeps _ (by intros; rfl)
  case fwActivate => exact fun r => frame_of_keeps (fun _ => rfl) fun _ => execFwActivate_keeps _ (by intros; rfl) r
  case activationPauseOverrun => exact frame_of_keeps (fun _ => rfl) fun _ => execActivationPauseOverrun_keeps _ (by intros; rfl)
  case fwConfirm => exact fun r => frame_of_keeps (fun _ => rfl) fun _ => execFwConfirm_keeps _ (by intros; rfl) r
  case confirmTimerExpiry => exact frame_of_keeps (fun _ => rfl) fun _ => execConfirmTimerExpiry_keeps _ (by intros; rfl)
  case fwHostBoot => exact fun r image => frame_of_keeps (fun _ => rfl) fun _ => execFwHostBoot_keeps _ (by intros; rfl) r image
  case lifecycleAdvance => exact fun r => frame_of_keeps (fun _ => rfl) fun _ => execLifecycleAdvance_keeps _ (by intros; rfl) r
  case custKeyProgram => exact fun r => frame_of_keeps (fun _ => rfl) fun _ => execCustKeyProgram_keeps _ (by intros; rfl) r

/-- Settles O42, a law for each command. -/
theorem laneCommandFrames : Obligations.LaneCommandFrames := by
  unfold Obligations.LaneCommandFrames
  refine ⟨?iqSlotReceive, ?rxclkStop, ?overloadWindow, ?shrDetect, ?phrDecode, ?psduWordPush, ?laneFrameEnd, ?overflowTrailerPush, ?blankingEnd,
    ?laneAssign, ?laneSwitch, ?laneTableGet, ?laneStatsGet, ?laneStatsClear, ?rfPortStatusGet, ?queuePush, ?queueDoom, ?queueRead, ?dropRest,
    ?noticePop, ?balRerun, ?rotationStep, ?rotationHandover, ?laneTestEnd, ?rotationLate, ?islandBistEnd, ?maintTokenGrant, ?laneMapGet,
    ?repairLedgerGet, ?rotationStatusGet, ?maintStatusGet⟩
  case iqSlotReceive => exact fun p slot => frame_of_keeps (fun _ => rfl) fun _ => execIqSlotReceive_keeps _ (by intros; rfl) p slot
  case rxclkStop => exact fun p => frame_of_keeps (fun _ => rfl) fun _ => execRxclkStop_keeps _ (by intros; rfl) p
  case overloadWindow => exact fun p => frame_of_keeps (fun _ => rfl) fun _ => execOverloadWindow_keeps _ (by intros; rfl) p
  case shrDetect => exact fun lane power shr => frame_of_keeps (fun _ => rfl) fun _ => execShrDetect_keeps _ (by intros; rfl) lane power shr
  case phrDecode => exact fun lane phr => frame_of_keeps (fun _ => rfl) fun _ => execPhrDecode_keeps _ (by intros; rfl) lane phr
  case psduWordPush => exact fun lane word => frame_of_keeps (fun _ => rfl) fun _ => execPsduWordPush_keeps _ (by intros; rfl) lane word
  case laneFrameEnd => exact fun lane fin => frame_of_keeps (fun _ => rfl) fun _ => execLaneFrameEnd_keeps _ (by intros; rfl) lane fin
  case overflowTrailerPush => exact fun lane fin => frame_of_keeps (fun _ => rfl) fun _ => execOverflowTrailerPush_keeps _ (by intros; rfl) lane fin
  case blankingEnd => exact fun p => frame_of_keeps (fun _ => rfl) fun _ => execBlankingEnd_keeps _ (by intros; rfl) p
  case laneAssign => exact fun r => frame_of_keeps (fun _ => rfl) fun _ => execLaneAssign_keeps _ (by intros; rfl) r
  case laneSwitch => exact fun lane => frame_of_keeps (fun _ => rfl) fun _ => execLaneSwitch_keeps _ (by intros; rfl) lane
  case laneTableGet => exact fun r => frame_of_keeps (fun _ => rfl) fun _ => execLaneTableGet_keeps _ (by intros; rfl) r
  case laneStatsGet => exact fun r => frame_of_keeps (fun _ => rfl) fun _ => execLaneStatsGet_keeps _ (by intros; rfl) r
  case laneStatsClear => exact fun r => frame_of_keeps (fun _ => rfl) fun _ => execLaneStatsClear_keeps _ (by intros; rfl) r
  case rfPortStatusGet => exact fun r => frame_of_keeps (fun _ => rfl) fun _ => execRfPortStatusGet_keeps _ (by intros; rfl) r
  case queuePush => exact fun q word last code => frame_of_keeps (fun _ => rfl) fun _ => execQueuePush_keeps _ (by intros; rfl) q word last code
  case queueDoom => exact fun q => frame_of_keeps (fun _ => rfl) fun _ => execQueueDoom_keeps _ (by intros; rfl) q
  case queueRead => exact fun q => frame_of_keeps (fun _ => rfl) fun _ => execQueueRead_keeps _ (by intros; rfl) q
  case dropRest => exact fun q => frame_of_keeps (fun _ => rfl) fun _ => execDropRest_keeps _ (by intros; rfl) q
  case noticePop => exact fun q => frame_of_keeps (fun _ => rfl) fun _ => execNoticePop_keeps _ (by intros; rfl) q
  case balRerun => exact fun r => frame_of_keeps (fun _ => rfl) fun _ => execBalRerun_keeps _ (by intros; rfl) r
  case rotationStep => exact frame_of_keeps (fun _ => rfl) fun _ => execRotationStep_keeps _ (by intros; rfl)
  case rotationHandover => exact frame_of_keeps (fun _ => rfl) fun _ => execRotationHandover_keeps _ (by intros; rfl)
  case laneTestEnd => exact fun pass => frame_of_keeps (fun _ => rfl) fun _ => execLaneTestEnd_keeps _ (by intros; rfl) pass
  case rotationLate => exact fun lane => frame_of_keeps (fun _ => rfl) fun _ => execRotationLate_keeps _ (by intros; rfl) lane
  case islandBistEnd => exact fun i res => frame_of_keeps (fun _ => rfl) fun _ => execIslandBistEnd_keeps _ (by intros; rfl) i res
  case maintTokenGrant => exact fun act => frame_of_keeps (fun _ => rfl) fun _ => execMaintTokenGrant_keeps _ (by intros; rfl) act
  case laneMapGet => exact fun r => frame_of_keeps (fun _ => rfl) fun _ => execLaneMapGet_keeps _ (by intros; rfl) r
  case repairLedgerGet => exact fun r => frame_of_keeps (fun _ => rfl) fun _ => execRepairLedgerGet_keeps _ (by intros; rfl) r
  case rotationStatusGet => exact fun r => frame_of_keeps (fun _ => rfl) fun _ => execRotationStatusGet_keeps _ (by intros; rfl) r
  case maintStatusGet => exact fun r => frame_of_keeps (fun _ => rfl) fun _ => execMaintStatusGet_keeps _ (by intros; rfl) r

/-- Settles O43, a law for each command. -/
theorem airCommandFrames : Obligations.AirCommandFrames := by
  unfold Obligations.AirCommandFrames
  refine ⟨?blankingStart, ?bandProfileSet, ?bandProfileGet, ?dutyStatusGet, ?sectorStatusGet, ?connectOpen, ?connectClose, ?airStateGet,
    ?beaconDue, ?lbtListenEnd, ?lbtBackoffEnd, ?beaconTxStart, ?beaconMiss, ?fallbackRetry, ?deepBeaconTx, ?linkAckTx, ?downlinkTx,
    ?transmissionEnd, ?chargeExpiry, ?arrivalWindowClose, ?supervisionTimeout, ?connectionEvent, ?connectReplyTimeout, ?openTimeout,
    ?connSupervisionExpiry⟩
  case blankingStart => exact fun p t => frame_of_keeps (fun _ => rfl) fun _ => execBlankingStart_keeps _ (by intros; rfl) p t
  case bandProfileSet => exact fun r => frame_of_keeps (fun _ => rfl) fun _ => execBandProfileSet_keeps _ (by intros; rfl) r
  case bandProfileGet => exact fun r => frame_of_keeps (fun _ => rfl) fun _ => execBandProfileGet_keeps _ (by intros; rfl) r
  case dutyStatusGet => exact fun r => frame_of_keeps (fun _ => rfl) fun _ => execDutyStatusGet_keeps _ (by intros; rfl) r
  case sectorStatusGet => exact fun r => frame_of_keeps (fun _ => rfl) fun _ => execSectorStatusGet_keeps _ (by intros; rfl) r
  case connectOpen => exact fun r => frame_of_keeps (fun _ => rfl) fun _ => execConnectOpen_keeps _ (by intros; rfl) r
  case connectClose => exact fun r => frame_of_keeps (fun _ => rfl) fun _ => execConnectClose_keeps _ (by intros; rfl) r
  case airStateGet => exact fun r => frame_of_keeps (fun _ => rfl) fun _ => execAirStateGet_keeps _ (by intros; rfl) r
  case beaconDue => exact fun p b => frame_of_keeps (fun _ => rfl) fun _ => execBeaconDue_keeps _ (by intros; rfl) p b
  case lbtListenEnd => exact fun p power => frame_of_keeps (fun _ => rfl) fun _ => execLbtListenEnd_keeps _ (by intros; rfl) p power
  case lbtBackoffEnd => exact fun p => frame_of_keeps (fun _ => rfl) fun _ => execLbtBackoffEnd_keeps _ (by intros; rfl) p
  case beaconTxStart => exact fun p t => frame_of_keeps (fun _ => rfl) fun _ => execBeaconTxStart_keeps _ (by intros; rfl) p t
  case beaconMiss => exact fun p => frame_of_keeps (fun _ => rfl) fun _ => execBeaconMiss_keeps _ (by intros; rfl) p
  case fallbackRetry => exact fun p => frame_of_keeps (fun _ => rfl) fun _ => execFallbackRetry_keeps _ (by intros; rfl) p
  case deepBeaconTx => exact fun p b => frame_of_keeps (fun _ => rfl) fun _ => execDeepBeaconTx_keeps _ (by intros; rfl) p b
  case linkAckTx => exact fun p lane => frame_of_keeps (fun _ => rfl) fun _ => execLinkAckTx_keeps _ (by intros; rfl) p lane
  case downlinkTx => exact fun p h t => frame_of_keeps (fun _ => rfl) fun _ => execDownlinkTx_keeps _ (by intros; rfl) p h t
  case transmissionEnd => exact fun p t => frame_of_keeps (fun _ => rfl) fun _ => execTransmissionEnd_keeps _ (by intros; rfl) p t
  case chargeExpiry => exact fun p sb => frame_of_keeps (fun _ => rfl) fun _ => execChargeExpiry_keeps _ (by intros; rfl) p sb
  case arrivalWindowClose => exact fun h => frame_of_keeps (fun _ => rfl) fun _ => execArrivalWindowClose_keeps _ (by intros; rfl) h
  case supervisionTimeout => exact fun h => frame_of_keeps (fun _ => rfl) fun _ => execSupervisionTimeout_keeps _ (by intros; rfl) h
  case connectionEvent => exact fun h power => frame_of_keeps (fun _ => rfl) fun _ => execConnectionEvent_keeps _ (by intros; rfl) h power
  case connectReplyTimeout => exact fun h => frame_of_keeps (fun _ => rfl) fun _ => execConnectReplyTimeout_keeps _ (by intros; rfl) h
  case openTimeout => exact fun h => frame_of_keeps (fun _ => rfl) fun _ => execOpenTimeout_keeps _ (by intros; rfl) h
  case connSupervisionExpiry => exact fun h => frame_of_keeps (fun _ => rfl) fun _ => execConnSupervisionExpiry_keeps _ (by intros; rfl) h

/-- Settles O44, a law for each command. -/
theorem powerLineCommandFrames : Obligations.PowerLineCommandFrames := by
  unfold Obligations.PowerLineCommandFrames
  refine ⟨?ldFault, ?ldFaultRetry, ?transactionStart, ?plcHeaderDecode, ?plcSymbolReceive, ?plcFrameEnd, ?plcOverflowTrailer, ?pollDeadline,
    ?retryGapExpiry, ?readDue, ?custodyMaxExpiry, ?nbrDue, ?unreachRetry, ?routeRecalc, ?linkAgeExpiry, ?plcCalibrationDone, ?plcPortStatusGet,
    ?plcCalGet, ?plcRecalibrate, ?plcLinkGet, ?plcRouteGet, ?plcRouteProposalsGet, ?plcRouteSet, ?plcRouteUnpin, ?plcPollNow, ?plcTransmitEnd⟩
  case ldFault => exact fun q t => frame_of_keeps (fun _ => rfl) fun _ => execLdFault_keeps _ (by intros; rfl) q t
  case ldFaultRetry => exact fun q => frame_of_keeps (fun _ => rfl) fun _ => execLdFaultRetry_keeps _ (by intros; rfl) q
  case transactionStart => exact fun group t => frame_of_keeps (fun _ => rfl) fun _ => execTransactionStart_keeps _ (by intros; rfl) group t
  case plcHeaderDecode => exact fun q hdr => frame_of_keeps (fun _ => rfl) fun _ => execPlcHeaderDecode_keeps _ (by intros; rfl) q hdr
  case plcSymbolReceive => exact fun q sym => frame_of_keeps (fun _ => rfl) fun _ => execPlcSymbolReceive_keeps _ (by intros; rfl) q sym
  case plcFrameEnd => exact fun q fin => frame_of_keeps (fun _ => rfl) fun _ => execPlcFrameEnd_keeps _ (by intros; rfl) q fin
  case plcOverflowTrailer => exact fun q fin => frame_of_keeps (fun _ => rfl) fun _ => execPlcOverflowTrailer_keeps _ (by intros; rfl) q fin
  case pollDeadline => exact fun group => frame_of_keeps (fun _ => rfl) fun _ => execPollDeadline_keeps _ (by intros; rfl) group
  case retryGapExpiry => exact fun group => frame_of_keeps (fun _ => rfl) fun _ => execRetryGapExpiry_keeps _ (by intros; rfl) group
  case readDue => exact fun h => frame_of_keeps (fun _ => rfl) fun _ => execReadDue_keeps _ (by intros; rfl) h
  case custodyMaxExpiry => exact fun h => frame_of_keeps (fun _ => rfl) fun _ => execCustodyMaxExpiry_keeps _ (by intros; rfl) h
  case nbrDue => exact frame_of_keeps (fun _ => rfl) fun _ => execNbrDue_keeps _ (by intros; rfl)
  case unreachRetry => exact fun h => frame_of_keeps (fun _ => rfl) fun _ => execUnreachRetry_keeps _ (by intros; rfl) h
  case routeRecalc => exact frame_of_keeps (fun _ => rfl) fun _ => execRouteRecalc_keeps _ (by intros; rfl)
  case linkAgeExpiry => exact fun i => frame_of_keeps (fun _ => rfl) fun _ => execLinkAgeExpiry_keeps _ (by intros; rfl) i
  case plcCalibrationDone => exact fun q m => frame_of_keeps (fun _ => rfl) fun _ => execPlcCalibrationDone_keeps _ (by intros; rfl) q m
  case plcPortStatusGet => exact fun r => frame_of_keeps (fun _ => rfl) fun _ => execPlcPortStatusGet_keeps _ (by intros; rfl) r
  case plcCalGet => exact fun r => frame_of_keeps (fun _ => rfl) fun _ => execPlcCalGet_keeps _ (by intros; rfl) r
  case plcRecalibrate => exact fun r => frame_of_keeps (fun _ => rfl) fun _ => execPlcRecalibrate_keeps _ (by intros; rfl) r
  case plcLinkGet => exact fun r => frame_of_keeps (fun _ => rfl) fun _ => execPlcLinkGet_keeps _ (by intros; rfl) r
  case plcRouteGet => exact fun r => frame_of_keeps (fun _ => rfl) fun _ => execPlcRouteGet_keeps _ (by intros; rfl) r
  case plcRouteProposalsGet => exact fun r => frame_of_keeps (fun _ => rfl) fun _ => execPlcRouteProposalsGet_keeps _ (by intros; rfl) r
  case plcRouteSet => exact fun r => frame_of_keeps (fun _ => rfl) fun _ => execPlcRouteSet_keeps _ (by intros; rfl) r
  case plcRouteUnpin => exact fun r => frame_of_keeps (fun _ => rfl) fun _ => execPlcRouteUnpin_keeps _ (by intros; rfl) r
  case plcPollNow => exact fun r => frame_of_keeps (fun _ => rfl) fun _ => execPlcPollNow_keeps _ (by intros; rfl) r
  case plcTransmitEnd => exact fun q => frame_of_keeps (fun _ => rfl) fun _ => execPlcTransmitEnd_keeps _ (by intros; rfl) q

/-- Settles O45, a law for each command. -/
theorem directoryCommandFrames : Obligations.DirectoryCommandFrames := by
  unfold Obligations.DirectoryCommandFrames
  refine ⟨?directoryAirPacket, ?directoryPlcPacket, ?serialRelease, ?fetchBufferFree, ?contextFetchComplete, ?writebackDone, ?enrol, ?withdraw,
    ?retirementComplete, ?retireHoldExpiry, ?admitStateSet, ?endpointUpdate, ?endpointGet, ?addrLookup, ?tallyGet, ?tallyClear, ?dirStatusGet,
    ?dirRehash, ?rehashEnd, ?unknownGet, ?unknownClear, ?patrolScrub, ?softRepair, ?memStatusGet⟩
  case directoryAirPacket => exact fun lane => frame_of_keeps (fun _ => rfl) fun _ => execDirectoryAirPacket_keeps _ (by intros; rfl) lane
  case directoryPlcPacket => exact fun q => frame_of_keeps (fun _ => rfl) fun _ => execDirectoryPlcPacket_keeps _ (by intros; rfl) q
  case serialRelease => exact fun frame => frame_of_keeps (fun _ => rfl) fun _ => execSerialRelease_keeps _ (by intros; rfl) frame
  case fetchBufferFree => exact frame_of_keeps (fun _ => rfl) fun _ => execFetchBufferFree_keeps _ (by intros; rfl)
  case contextFetchComplete => exact fun h ue => frame_of_keeps (fun _ => rfl) fun _ => execContextFetchComplete_keeps _ (by intros; rfl) h ue
  case writebackDone => exact fun h => frame_of_keeps (fun _ => rfl) fun _ => execWritebackDone_keeps _ (by intros; rfl) h
  case enrol => exact fun r => frame_of_keeps (fun _ => rfl) fun _ => execEnrol_keeps _ (by intros; rfl) r
  case withdraw => exact fun r => frame_of_keeps (fun _ => rfl) fun _ => execWithdraw_keeps _ (by intros; rfl) r
  case retirementComplete => exact fun h => frame_of_keeps (fun _ => rfl) fun _ => execRetirementComplete_keeps _ (by intros; rfl) h
  case retireHoldExpiry => exact fun h => frame_of_keeps (fun _ => rfl) fun _ => execRetireHoldExpiry_keeps _ (by intros; rfl) h
  case admitStateSet => exact fun r => frame_of_keeps (fun _ => rfl) fun _ => execAdmitStateSet_keeps _ (by intros; rfl) r
  case endpointUpdate => exact fun r => frame_of_keeps (fun _ => rfl) fun _ => execEndpointUpdate_keeps _ (by intros; rfl) r
  case endpointGet => exact fun r => frame_of_keeps (fun _ => rfl) fun _ => execEndpointGet_keeps _ (by intros; rfl) r
  case addrLookup => exact fun r => frame_of_keeps (fun _ => rfl) fun _ => execAddrLookup_keeps _ (by intros; rfl) r
  case tallyGet => exact fun r => frame_of_keeps (fun _ => rfl) fun _ => execTallyGet_keeps _ (by intros; rfl) r
  case tallyClear => exact fun r => frame_of_keeps (fun _ => rfl) fun _ => execTallyClear_keeps _ (by intros; rfl) r
  case dirStatusGet => exact fun r => frame_of_keeps (fun _ => rfl) fun _ => execDirStatusGet_keeps _ (by intros; rfl) r
  case dirRehash => exact fun r => frame_of_keeps (fun _ => rfl) fun _ => execDirRehash_keeps _ (by intros; rfl) r
  case rehashEnd => exact frame_of_keeps (fun _ => rfl) fun _ => execRehashEnd_keeps _ (by intros; rfl)
  case unknownGet => exact fun r => frame_of_keeps (fun _ => rfl) fun _ => execUnknownGet_keeps _ (by intros; rfl) r
  case unknownClear => exact fun r => frame_of_keeps (fun _ => rfl) fun _ => execUnknownClear_keeps _ (by intros; rfl) r
  case patrolScrub =>
    intro res s t e
    and_intros <;> exact execPatrolScrub_keeps _ (by intros; rfl) res s t e
  case softRepair => exact fun ok => frame_of_keeps (fun _ => rfl) fun _ => execSoftRepair_keeps _ (by intros; rfl) ok
  case memStatusGet => exact fun r => frame_of_keeps (fun _ => rfl) fun _ => execMemStatusGet_keeps _ (by intros; rfl) r

/-- Settles O46, a law for each command. -/
theorem ledgerCommandFrames : Obligations.LedgerCommandFrames := by
  unfold Obligations.LedgerCommandFrames
  refine ⟨?calTransition, ?ledgerSweep, ?stmtBundleTimeout, ?ledgerSeal, ?durabilityExpiry, ?pwrfailAssert, ?pwrfailDeassert, ?calLoad, ?calGet,
    ?tariffAssign, ?ledgerGet, ?ledgerPageLost, ?ledgerExportStart, ?ledgerConfirm, ?ledgerPendingGet, ?periodCloseNow, ?statementStart,
    ?statementConfirm, ?statementRewind, ?graniteInfoGet, ?displayShow, ?ledgerStatusGet, ?displayScreen, ?displayRetry⟩
  case calTransition => exact fun index t => frame_of_keeps (fun _ => rfl) fun _ => execCalTransition_keeps _ (by intros; rfl) index t
  case ledgerSweep => exact fun index count => frame_of_keeps (fun _ => rfl) fun _ => execLedgerSweep_keeps _ (by intros; rfl) index count
  case stmtBundleTimeout => exact frame_of_keeps (fun _ => rfl) fun _ => execStmtBundleTimeout_keeps _ (by intros; rfl)
  case ledgerSeal => exact frame_of_keeps (fun _ => rfl) fun _ => execLedgerSeal_keeps _ (by intros; rfl)
  case durabilityExpiry => exact fun page => frame_of_keeps (fun _ => rfl) fun _ => execDurabilityExpiry_keeps _ (by intros; rfl) page
  case pwrfailAssert => exact frame_of_keeps (fun _ => rfl) fun _ => execPwrfailAssert_keeps _ (by intros; rfl)
  case pwrfailDeassert => exact frame_of_keeps (fun _ => rfl) fun _ => execPwrfailDeassert_keeps _ (by intros; rfl)
  case calLoad => exact fun r => frame_of_keeps (fun _ => rfl) fun _ => execCalLoad_keeps _ (by intros; rfl) r
  case calGet => exact fun r => frame_of_keeps (fun _ => rfl) fun _ => execCalGet_keeps _ (by intros; rfl) r
  case tariffAssign => exact fun r => frame_of_keeps (fun _ => rfl) fun _ => execTariffAssign_keeps _ (by intros; rfl) r
  case ledgerGet => exact fun r => frame_of_keeps (fun _ => rfl) fun _ => execLedgerGet_keeps _ (by intros; rfl) r
  case ledgerPageLost => exact fun r => frame_of_keeps (fun _ => rfl) fun _ => execLedgerPageLost_keeps _ (by intros; rfl) r
  case ledgerExportStart => exact fun r => frame_of_keeps (fun _ => rfl) fun _ => execLedgerExportStart_keeps _ (by intros; rfl) r
  case ledgerConfirm => exact fun r => frame_of_keeps (fun _ => rfl) fun _ => execLedgerConfirm_keeps _ (by intros; rfl) r
  case ledgerPendingGet => exact fun r => frame_of_keeps (fun _ => rfl) fun _ => execLedgerPendingGet_keeps _ (by intros; rfl) r
  case periodCloseNow => exact fun r => frame_of_keeps (fun _ => rfl) fun _ => execPeriodCloseNow_keeps _ (by intros; rfl) r
  case statementStart => exact fun r => frame_of_keeps (fun _ => rfl) fun _ => execStatementStart_keeps _ (by intros; rfl) r
  case statementConfirm => exact fun r => frame_of_keeps (fun _ => rfl) fun _ => execStatementConfirm_keeps _ (by intros; rfl) r
  case statementRewind => exact fun r => frame_of_keeps (fun _ => rfl) fun _ => execStatementRewind_keeps _ (by intros; rfl) r
  case graniteInfoGet => exact fun r => frame_of_keeps (fun _ => rfl) fun _ => execGraniteInfoGet_keeps _ (by intros; rfl) r
  case displayShow => exact fun r => frame_of_keeps (fun _ => rfl) fun _ => execDisplayShow_keeps _ (by intros; rfl) r
  case ledgerStatusGet => exact fun r => frame_of_keeps (fun _ => rfl) fun _ => execLedgerStatusGet_keeps _ (by intros; rfl) r
  case displayScreen => exact fun acked => frame_of_keeps (fun _ => rfl) fun _ => execDisplayScreen_keeps _ (by intros; rfl) acked
  case displayRetry => exact fun acked => frame_of_keeps (fun _ => rfl) fun _ => execDisplayRetry_keeps _ (by intros; rfl) acked

/-- Settles O47, a law for each command. -/
theorem pipelineAndBalanceCommandFrames : Obligations.PipelineAndBalanceCommandFrames := by
  unfold Obligations.PipelineAndBalanceCommandFrames
  refine ⟨?journalGroupCommit, ?jnlFullWaitExpiry, ?bundleTimeout, ?bundleSigned, ?profileSet, ?profileGet, ?provListAdd, ?provListClear,
    ?exportStart, ?exportStop, ?exportConfirm, ?exportFlush, ?pipeStatusGet, ?exportRewind, ?restorePageReceive, ?ledgerRestoreStart,
    ?intervalClose, ?revisionPost, ?unzonedPost, ?horizonAdvance, ?zoneLoad, ?zoneDrop, ?zoneTolSet, ?zoneGet, ?scoreReset, ?balExportStart,
    ?balConfirm, ?balRewind, ?balStatusGet⟩
  case journalGroupCommit => exact fun frame bad => frame_of_keeps (fun _ => rfl) fun _ => execJournalGroupCommit_keeps _ (by intros; rfl) frame bad
  case jnlFullWaitExpiry => exact fun frame => frame_of_keeps (fun _ => rfl) fun _ => execJnlFullWaitExpiry_keeps _ (by intros; rfl) frame
  case bundleTimeout => exact fun overflow => frame_of_keeps (fun _ => rfl) fun _ => execBundleTimeout_keeps _ (by intros; rfl) overflow
  case bundleSigned => exact frame_of_keeps (fun _ => rfl) fun _ => execBundleSigned_keeps _ (by intros; rfl)
  case profileSet => exact fun r => frame_of_keeps (fun _ => rfl) fun _ => execProfileSet_keeps _ (by intros; rfl) r
  case profileGet => exact fun r => frame_of_keeps (fun _ => rfl) fun _ => execProfileGet_keeps _ (by intros; rfl) r
  case provListAdd => exact fun r => frame_of_keeps (fun _ => rfl) fun _ => execProvListAdd_keeps _ (by intros; rfl) r
  case provListClear => exact fun r => frame_of_keeps (fun _ => rfl) fun _ => execProvListClear_keeps _ (by intros; rfl) r
  case exportStart => exact fun r => frame_of_keeps (fun _ => rfl) fun _ => execExportStart_keeps _ (by intros; rfl) r
  case exportStop => exact fun r => frame_of_keeps (fun _ => rfl) fun _ => execExportStop_keeps _ (by intros; rfl) r
  case exportConfirm => exact fun r => frame_of_keeps (fun _ => rfl) fun _ => execExportConfirm_keeps _ (by intros; rfl) r
  case exportFlush => exact fun r => frame_of_keeps (fun _ => rfl) fun _ => execExportFlush_keeps _ (by intros; rfl) r
  case pipeStatusGet => exact fun r => frame_of_keeps (fun _ => rfl) fun _ => execPipeStatusGet_keeps _ (by intros; rfl) r
  case exportRewind => exact fun r => frame_of_keeps (fun _ => rfl) fun _ => execExportRewind_keeps _ (by intros; rfl) r
  case restorePageReceive => exact fun bytes => frame_of_keeps (fun _ => rfl) fun _ => execRestorePageReceive_keeps _ (by intros; rfl) bytes
  case ledgerRestoreStart => exact fun r => frame_of_keeps (fun _ => rfl) fun _ => execLedgerRestoreStart_keeps _ (by intros; rfl) r
  case intervalClose => exact fun zone stop => frame_of_keeps (fun _ => rfl) fun _ => execIntervalClose_keeps _ (by intros; rfl) zone stop
  case revisionPost => exact fun zone start => frame_of_keeps (fun _ => rfl) fun _ => execRevisionPost_keeps _ (by intros; rfl) zone start
  case unzonedPost => exact fun start => frame_of_keeps (fun _ => rfl) fun _ => execUnzonedPost_keeps _ (by intros; rfl) start
  case horizonAdvance => exact frame_of_keeps (fun _ => rfl) fun _ => execHorizonAdvance_keeps _ (by intros; rfl)
  case zoneLoad => exact fun r => frame_of_keeps (fun _ => rfl) fun _ => execZoneLoad_keeps _ (by intros; rfl) r
  case zoneDrop => exact fun r => frame_of_keeps (fun _ => rfl) fun _ => execZoneDrop_keeps _ (by intros; rfl) r
  case zoneTolSet => exact fun r => frame_of_keeps (fun _ => rfl) fun _ => execZoneTolSet_keeps _ (by intros; rfl) r
  case zoneGet => exact fun r => frame_of_keeps (fun _ => rfl) fun _ => execZoneGet_keeps _ (by intros; rfl) r
  case scoreReset => exact fun r => frame_of_keeps (fun _ => rfl) fun _ => execScoreReset_keeps _ (by intros; rfl) r
  case balExportStart => exact fun r => frame_of_keeps (fun _ => rfl) fun _ => execBalExportStart_keeps _ (by intros; rfl) r
  case balConfirm => exact fun r => frame_of_keeps (fun _ => rfl) fun _ => execBalConfirm_keeps _ (by intros; rfl) r
  case balRewind => exact fun r => frame_of_keeps (fun _ => rfl) fun _ => execBalRewind_keeps _ (by intros; rfl) r
  case balStatusGet => exact fun r => frame_of_keeps (fun _ => rfl) fun _ => execBalStatusGet_keeps _ (by intros; rfl) r

/-- Settles O48, a law for each command. -/
theorem campaignAndSafetyCommandFrames : Obligations.CampaignAndSafetyCommandFrames := by
  unfold Obligations.CampaignAndSafetyCommandFrames
  refine ⟨?campCreate, ?campContent, ?campTargetsAdd, ?campStart, ?campPause, ?campResume, ?campCancel, ?campStatusGet, ?campTargetGet,
    ?campRelease, ?switchFaultClear, ?stepAttempt, ?confWaitEnd, ?campDeadline, ?sessionPlan, ?multicastFrame, ?switchFbTimeout, ?gateRelease,
    ?gateTestPeriodic, ?lockstepMismatch, ?safetySramScrub, ?heartbeatCheck, ?clockMonitorFault, ?safetyAutoRecover, ?proofTestEnd,
    ?safetyStatusGet, ?safetyClear, ?safetyProofTest⟩
  case campCreate => exact fun r => frame_of_keeps (fun _ => rfl) fun _ => execCampCreate_keeps _ (by intros; rfl) r
  case campContent => exact fun r => frame_of_keeps (fun _ => rfl) fun _ => execCampContent_keeps _ (by intros; rfl) r
  case campTargetsAdd => exact fun r => frame_of_keeps (fun _ => rfl) fun _ => execCampTargetsAdd_keeps _ (by intros; rfl) r
  case campStart => exact fun r => frame_of_keeps (fun _ => rfl) fun _ => execCampStart_keeps _ (by intros; rfl) r
  case campPause => exact fun r => frame_of_keeps (fun _ => rfl) fun _ => execCampPause_keeps _ (by intros; rfl) r
  case campResume => exact fun r => frame_of_keeps (fun _ => rfl) fun _ => execCampResume_keeps _ (by intros; rfl) r
  case campCancel => exact fun r => frame_of_keeps (fun _ => rfl) fun _ => execCampCancel_keeps _ (by intros; rfl) r
  case campStatusGet => exact fun r => frame_of_keeps (fun _ => rfl) fun _ => execCampStatusGet_keeps _ (by intros; rfl) r
  case campTargetGet => exact fun r => frame_of_keeps (fun _ => rfl) fun _ => execCampTargetGet_keeps _ (by intros; rfl) r
  case campRelease => exact fun r => frame_of_keeps (fun _ => rfl) fun _ => execCampRelease_keeps _ (by intros; rfl) r
  case switchFaultClear => exact fun r => frame_of_keeps (fun _ => rfl) fun _ => execSwitchFaultClear_keeps _ (by intros; rfl) r
  case stepAttempt => exact fun camp x => frame_of_keeps (fun _ => rfl) fun _ => execStepAttempt_keeps _ (by intros; rfl) camp x
  case confWaitEnd => exact fun camp handle => frame_of_keeps (fun _ => rfl) fun _ => execConfWaitEnd_keeps _ (by intros; rfl) camp handle
  case campDeadline => exact fun camp => frame_of_keeps (fun _ => rfl) fun _ => execCampDeadline_keeps _ (by intros; rfl) camp
  case sessionPlan => exact fun camp port => frame_of_keeps (fun _ => rfl) fun _ => execSessionPlan_keeps _ (by intros; rfl) camp port
  case multicastFrame => exact fun camp port power => frame_of_keeps (fun _ => rfl) fun _ => execMulticastFrame_keeps _ (by intros; rfl) camp port power
  case switchFbTimeout => exact fun camp handle => frame_of_keeps (fun _ => rfl) fun _ => execSwitchFbTimeout_keeps _ (by intros; rfl) camp handle
  case gateRelease => exact fun testOk upset => frame_of_keeps (fun _ => rfl) fun _ => execGateRelease_keeps _ (by intros; rfl) testOk upset
  case gateTestPeriodic => exact fun pass => frame_of_keeps (fun _ => rfl) fun _ => execGateTestPeriodic_keeps _ (by intros; rfl) pass
  case lockstepMismatch => exact frame_of_keeps (fun _ => rfl) fun _ => execLockstepMismatch_keeps _ (by intros; rfl)
  case safetySramScrub => exact fun pass => frame_of_keeps (fun _ => rfl) fun _ => execSafetySramScrub_keeps _ (by intros; rfl) pass
  case heartbeatCheck => exact fun us => frame_of_keeps (fun _ => rfl) fun _ => execHeartbeatCheck_keeps _ (by intros; rfl) us
  case clockMonitorFault => exact frame_of_keeps (fun _ => rfl) fun _ => execClockMonitorFault_keeps _ (by intros; rfl)
  case safetyAutoRecover => exact frame_of_keeps (fun _ => rfl) fun _ => execSafetyAutoRecover_keeps _ (by intros; rfl)
  case proofTestEnd => exact fun failed => frame_of_keeps (fun _ => rfl) fun _ => execProofTestEnd_keeps _ (by intros; rfl) failed
  case safetyStatusGet => exact fun r => frame_of_keeps (fun _ => rfl) fun _ => execSafetyStatusGet_keeps _ (by intros; rfl) r
  case safetyClear => exact fun r => frame_of_keeps (fun _ => rfl) fun _ => execSafetyClear_keeps _ (by intros; rfl) r
  case safetyProofTest => exact fun r => frame_of_keeps (fun _ => rfl) fun _ => execSafetyProofTest_keeps _ (by intros; rfl) r

/-- Settles O49, a law for each command. -/
theorem keyAndRecorderCommandFrames : Obligations.KeyAndRecorderCommandFrames := by
  unfold Obligations.KeyAndRecorderCommandFrames
  refine ⟨?qkLoad, ?qkDerive, ?qkGenerate, ?qkDestroy, ?qkSlotGet, ?qkEpLoad, ?qkEpClear, ?qkRewrap, ?rewrapWalk, ?qkAttest, ?qkCertGet,
    ?qkStatusGet, ?drbgReseed, ?recordWrite, ?tokenRefill, ?checkpointWrite, ?envmScrub, ?slateRead, ?slateDump, ?slateStatusGet, ?slateCodeGet,
    ?slateRecfClear⟩
  case qkLoad => exact fun r => frame_of_keeps (fun _ => rfl) fun _ => execQkLoad_keeps _ (by intros; rfl) r
  case qkDerive => exact fun r => frame_of_keeps (fun _ => rfl) fun _ => execQkDerive_keeps _ (by intros; rfl) r
  case qkGenerate => exact fun r => frame_of_keeps (fun _ => rfl) fun _ => execQkGenerate_keeps _ (by intros; rfl) r
  case qkDestroy => exact fun r => frame_of_keeps (fun _ => rfl) fun _ => execQkDestroy_keeps _ (by intros; rfl) r
  case qkSlotGet => exact fun r => frame_of_keeps (fun _ => rfl) fun _ => execQkSlotGet_keeps _ (by intros; rfl) r
  case qkEpLoad => exact fun r => frame_of_keeps (fun _ => rfl) fun _ => execQkEpLoad_keeps _ (by intros; rfl) r
  case qkEpClear => exact fun r => frame_of_keeps (fun _ => rfl) fun _ => execQkEpClear_keeps _ (by intros; rfl) r
  case qkRewrap => exact fun r => frame_of_keeps (fun _ => rfl) fun _ => execQkRewrap_keeps _ (by intros; rfl) r
  case rewrapWalk => exact frame_of_keeps (fun _ => rfl) fun _ => execRewrapWalk_keeps _ (by intros; rfl)
  case qkAttest => exact fun r => frame_of_keeps (fun _ => rfl) fun _ => execQkAttest_keeps _ (by intros; rfl) r
  case qkCertGet => exact fun r => frame_of_keeps (fun _ => rfl) fun _ => execQkCertGet_keeps _ (by intros; rfl) r
  case qkStatusGet => exact fun r => frame_of_keeps (fun _ => rfl) fun _ => execQkStatusGet_keeps _ (by intros; rfl) r
  case drbgReseed => exact fun pass => frame_of_keeps (fun _ => rfl) fun _ => execDrbgReseed_keeps _ (by intros; rfl) pass
  case recordWrite => exact fun failed => frame_of_keeps (fun _ => rfl) fun _ => execRecordWrite_keeps _ (by intros; rfl) failed
  case tokenRefill => exact fun code => frame_of_keeps (fun _ => rfl) fun _ => execTokenRefill_keeps _ (by intros; rfl) code
  case checkpointWrite => exact fun fails => frame_of_keeps (fun _ => rfl) fun _ => execCheckpointWrite_keeps _ (by intros; rfl) fails
  case envmScrub => exact fun res => frame_of_keeps (fun _ => rfl) fun _ => execEnvmScrub_keeps _ (by intros; rfl) res
  case slateRead => exact fun r => frame_of_keeps (fun _ => rfl) fun _ => execSlateRead_keeps _ (by intros; rfl) r
  case slateDump => exact fun r => frame_of_keeps (fun _ => rfl) fun _ => execSlateDump_keeps _ (by intros; rfl) r
  case slateStatusGet => exact fun r => frame_of_keeps (fun _ => rfl) fun _ => execSlateStatusGet_keeps _ (by intros; rfl) r
  case slateCodeGet => exact fun r => frame_of_keeps (fun _ => rfl) fun _ => execSlateCodeGet_keeps _ (by intros; rfl) r
  case slateRecfClear => exact fun r => frame_of_keeps (fun _ => rfl) fun _ => execSlateRecfClear_keeps _ (by intros; rfl) r

/-- Settles O50, a law for each command. -/
theorem backupAndDmaCommandFrames : Obligations.BackupAndDmaCommandFrames := by
  unfold Obligations.BackupAndDmaCommandFrames
  refine ⟨?xlateSet, ?xlateGet, ?dmaChanSet, ?dmaChanStatusGet, ?dmaChanRestart, ?dmaDescriptorEnd, ?dmaBusError, ?sealChange, ?rtcTick,
    ?rtcRegRead, ?rtcYearRead, ?rtcShadowTimeout, ?rtcRegWrite, ?rtcYearWrite, ?writeSetTimeout, ?supplyToVbat, ?supplyToMain, ?lbvMeasure,
    ?retentionLoss, ?oscStop, ?porBkp, ?tamperActivation, ?pwronOff, ?timeGet, ?timeSet, ?timeTrimSet, ?alarmSet, ?alarmGet, ?powerOff,
    ?tamperCfgSet, ?tamperGet, ?tamperClear, ?mirRefresh, ?mirCalRead, ?mirYearRead, ?mirShadowTimeout⟩
  case xlateSet => exact fun r => frame_of_keeps (fun _ => rfl) fun _ => execXlateSet_keeps _ (by intros; rfl) r
  case xlateGet => exact fun r => frame_of_keeps (fun _ => rfl) fun _ => execXlateGet_keeps _ (by intros; rfl) r
  case dmaChanSet => exact fun r => frame_of_keeps (fun _ => rfl) fun _ => execDmaChanSet_keeps _ (by intros; rfl) r
  case dmaChanStatusGet => exact fun r => frame_of_keeps (fun _ => rfl) fun _ => execDmaChanStatusGet_keeps _ (by intros; rfl) r
  case dmaChanRestart => exact fun r => frame_of_keeps (fun _ => rfl) fun _ => execDmaChanRestart_keeps _ (by intros; rfl) r
  case dmaDescriptorEnd => exact fun c desc => frame_of_keeps (fun _ => rfl) fun _ => execDmaDescriptorEnd_keeps _ (by intros; rfl) c desc
  case dmaBusError => exact fun c done => frame_of_keeps (fun _ => rfl) fun _ => execDmaBusError_keeps _ (by intros; rfl) c done
  case sealChange => exact fun high => frame_of_keeps (fun _ => rfl) fun _ => execSealChange_keeps _ (by intros; rfl) high
  case rtcTick => exact frame_of_keeps (fun _ => rfl) fun _ => execRtcTick_keeps _ (by intros; rfl)
  case rtcRegRead => exact fun reg => frame_of_keeps (fun _ => rfl) fun _ => execRtcRegRead_keeps _ (by intros; rfl) reg
  case rtcYearRead => exact frame_of_keeps (fun _ => rfl) fun _ => execRtcYearRead_keeps _ (by intros; rfl)
  case rtcShadowTimeout => exact frame_of_keeps (fun _ => rfl) fun _ => execRtcShadowTimeout_keeps _ (by intros; rfl)
  case rtcRegWrite => exact fun reg v => frame_of_keeps (fun _ => rfl) fun _ => execRtcRegWrite_keeps _ (by intros; rfl) reg v
  case rtcYearWrite => exact fun v => frame_of_keeps (fun _ => rfl) fun _ => execRtcYearWrite_keeps _ (by intros; rfl) v
  case writeSetTimeout => exact frame_of_keeps (fun _ => rfl) fun _ => execWriteSetTimeout_keeps _ (by intros; rfl)
  case supplyToVbat => exact frame_of_keeps (fun _ => rfl) fun _ => execSupplyToVbat_keeps _ (by intros; rfl)
  case supplyToMain => exact frame_of_keeps (fun _ => rfl) fun _ => execSupplyToMain_keeps _ (by intros; rfl)
  case lbvMeasure => exact fun volts mv => frame_of_keeps (fun _ => rfl) fun _ => execLbvMeasure_keeps _ (by intros; rfl) volts mv
  case retentionLoss => exact frame_of_keeps (fun _ => rfl) fun _ => execRetentionLoss_keeps _ (by intros; rfl)
  case oscStop => exact frame_of_keeps (fun _ => rfl) fun _ => execOscStop_keeps _ (by intros; rfl)
  case porBkp => exact frame_of_keeps (fun _ => rfl) fun _ => execPorBkp_keeps _ (by intros; rfl)
  case tamperActivation => exact fun x => frame_of_keeps (fun _ => rfl) fun _ => execTamperActivation_keeps _ (by intros; rfl) x
  case pwronOff => exact frame_of_keeps (fun _ => rfl) fun _ => execPwronOff_keeps _ (by intros; rfl)
  case timeGet => exact fun r => frame_of_keeps (fun _ => rfl) fun _ => execTimeGet_keeps _ (by intros; rfl) r
  case timeSet => exact fun r => frame_of_keeps (fun _ => rfl) fun _ => execTimeSet_keeps _ (by intros; rfl) r
  case timeTrimSet => exact fun r => frame_of_keeps (fun _ => rfl) fun _ => execTimeTrimSet_keeps _ (by intros; rfl) r
  case alarmSet => exact fun r => frame_of_keeps (fun _ => rfl) fun _ => execAlarmSet_keeps _ (by intros; rfl) r
  case alarmGet => exact fun r => frame_of_keeps (fun _ => rfl) fun _ => execAlarmGet_keeps _ (by intros; rfl) r
  case powerOff => exact fun r => frame_of_keeps (fun _ => rfl) fun _ => execPowerOff_keeps _ (by intros; rfl) r
  case tamperCfgSet => exact fun r => frame_of_keeps (fun _ => rfl) fun _ => execTamperCfgSet_keeps _ (by intros; rfl) r
  case tamperGet => exact fun r => frame_of_keeps (fun _ => rfl) fun _ => execTamperGet_keeps _ (by intros; rfl) r
  case tamperClear => exact fun r => frame_of_keeps (fun _ => rfl) fun _ => execTamperClear_keeps _ (by intros; rfl) r
  case mirRefresh => exact frame_of_keeps (fun _ => rfl) fun _ => execMirRefresh_keeps _ (by intros; rfl)
  case mirCalRead => exact fun reg => frame_of_keeps (fun _ => rfl) fun _ => execMirCalRead_keeps _ (by intros; rfl) reg
  case mirYearRead => exact frame_of_keeps (fun _ => rfl) fun _ => execMirYearRead_keeps _ (by intros; rfl)
  case mirShadowTimeout => exact frame_of_keeps (fun _ => rfl) fun _ => execMirShadowTimeout_keeps _ (by intros; rfl)

end

section
/-! What every command keeps: the queue of waiting commands (log 2), and the fuses but for lifecycle bits burnt and a customer key hash programmed
(R427, R466, R467), from that O60 and O8; the form of a step, O1 and O2; the parameters of the key and firmware subsystems, O59. -/

namespace Sys2Proof.Machine

/-- The waiting commands and the fuses, which only LIFECYCLE_ADVANCE and CUST_KEY_PROGRAM write. -/
def queueAndFuses (s : State) : List Instr × Fuses := (s.pending, s.fuses)

/-- What every command keeps of them. -/
structure QueueAndFusesKept (s t : State) : Prop where
  pending : t.pending = s.pending
  fuses : FLe s.fuses t.fuses

theorem kept_of_keeps {s t : State} (h : queueAndFuses t = queueAndFuses s) : QueueAndFusesKept s t :=
  ⟨congrArg Prod.fst h, fle_same (congrArg Prod.snd h)⟩

/-- A request command that serves the service of its own opcode. -/
theorem kept_of_request {v : Service} {r : Req} {s t : State} (hop : serviceOf v.opcode = some v)
    (e : (Host.Outcome.next (serve v r s) : Host.Outcome State Fault Refusal) = .next t) : QueueAndFusesKept s t := by
  have hv : v ∈ services := List.mem_of_find?_eq_some hop
  have hrun := services_keeps State.pending (by intros; rfl) v hv
  exact nx e ▸ ⟨serve_keeps State.pending (by intros; rfl) v hrun r s, f_serve v (f_services v hv) r s⟩

/-- A request that waited comes to run: the commands that wait are not its concern, and its opcode may burn fuses. -/
theorem kept_of_requestWaitEnd {id : Nat} {s t : State} (e : exec (.requestWaitEnd id) s = .next t) : QueueAndFusesKept s t :=
  ⟨execRequestWaitEnd_keeps State.pending (by intros; rfl) _ _ _ e, nx e ▸ f_wait id s⟩

/-- The requests first, then the commands of the hardware. -/
theorem exec_keeps_queueAndFuses {i : Instr} {s t : State} (e : exec i s = .next t) : QueueAndFusesKept s t := by
  cases i with
  | nop | configBegin | configCommit | configAbort | configStateGet | capsGet | paramBlockWrite | paramBlockRead | laneAssign | laneTableGet
  | laneStatsGet | laneStatsClear | rfPortStatusGet | bandProfileSet | bandProfileGet | dutyStatusGet | sectorStatusGet | connectOpen
  | connectClose | airStateGet | plcPortStatusGet | plcCalGet | plcRecalibrate | plcLinkGet | plcRouteGet | plcRouteProposalsGet | plcRouteSet
  | plcRouteUnpin | plcPollNow | enrol | withdraw | admitStateSet | endpointUpdate | endpointGet | addrLookup | tallyGet | tallyClear
  | dirStatusGet | dirRehash | unknownGet | unknownClear | xlateSet | xlateGet | dmaChanSet | dmaChanStatusGet | dmaChanRestart | memStatusGet
  | profileSet | profileGet | provListAdd | provListClear | exportStart | exportStop | exportConfirm | exportFlush | pipeStatusGet | exportRewind
  | calLoad | calGet | tariffAssign | ledgerGet | ledgerRestoreStart | ledgerPageLost | ledgerExportStart | ledgerConfirm | ledgerPendingGet
  | periodCloseNow | statementStart | statementConfirm | statementRewind | graniteInfoGet | displayShow | ledgerStatusGet | zoneLoad | zoneDrop
  | zoneTolSet | zoneGet | scoreReset | balExportStart | balConfirm | balRewind | balRerun | balStatusGet | campCreate | campContent
  | campTargetsAdd | campStart | campPause | campResume | campCancel | campStatusGet | campTargetGet | campRelease | switchFaultClear | qkLoad
  | qkDerive | qkGenerate | qkDestroy | qkSlotGet | qkEpLoad | qkEpClear | qkRewrap | qkAttest | qkCertGet | qkStatusGet | slateRead | slateDump
  | slateStatusGet | slateCodeGet | slateRecfClear | timeGet | timeSet | timeTrimSet | alarmSet | alarmGet | powerOff | tamperCfgSet | tamperGet
  | tamperClear | resetRequest | trainReportGet | fwInfoGet | fwStageBegin | fwStageWrite | fwStageCommit | fwStageClear | fwPrepare
  | fwMicrocodeAt | fwConfirm | lifecycleAdvance | custKeyProgram | safetyStatusGet | safetyClear | safetyProofTest | laneMapGet | repairLedgerGet
  | rotationStatusGet | maintStatusGet => exact kept_of_request rfl e
  | requestWaitEnd => exact kept_of_requestWaitEnd e
  | registerWrite => exact kept_of_keeps (execRegisterWrite_keeps queueAndFuses (by intros; rfl) _ _ _ _ _ e)
  | etimeLoRead => exact kept_of_keeps (execEtimeLoRead_keeps queueAndFuses (by intros; rfl) _ _ e)
  | rstCtrlSysrst => exact kept_of_keeps (execRstCtrlSysrst_keeps queueAndFuses (by intros; rfl) _ _ _ e)
  | mbxEnable => exact kept_of_keeps (execMbxEnable_keeps queueAndFuses (by intros; rfl) _ _ _ e)
  | mbxDisable => exact kept_of_keeps (execMbxDisable_keeps queueAndFuses (by intros; rfl) _ _ _ e)
  | mbxReset => exact kept_of_keeps (execMbxReset_keeps queueAndFuses (by intros; rfl) _ _ _ e)
  | mbxReqPiWrite => exact kept_of_keeps (execMbxReqPiWrite_keeps queueAndFuses (by intros; rfl) _ _ _ _ e)
  | mbxRspCiWrite => exact kept_of_keeps (execMbxRspCiWrite_keeps queueAndFuses (by intros; rfl) _ _ _ _ e)
  | requestFetch => exact kept_of_keeps (execRequestFetch_keeps queueAndFuses (by intros; rfl) _ _ _ _ e)
  | ringBusError => exact kept_of_keeps (execRingBusError_keeps queueAndFuses (by intros; rfl) _ _ _ _ e)
  | responsePost => exact kept_of_keeps (execResponsePost_keeps queueAndFuses (by intros; rfl) _ _ _ e)
  | evtPendClear => exact kept_of_keeps (execEvtPendClear_keeps queueAndFuses (by intros; rfl) _ _ _ _ _ e)
  | evtEnWrite => exact kept_of_keeps (execEvtEnWrite_keeps queueAndFuses (by intros; rfl) _ _ _ _ e)
  | evtForce => exact kept_of_keeps (execEvtForce_keeps queueAndFuses (by intros; rfl) _ _ _ _ e)
  | msixUnmask => exact kept_of_keeps (execMsixUnmask_keeps queueAndFuses (by intros; rfl) _ _ _ e)
  | commitInstant => exact kept_of_keeps (execCommitInstant_keeps queueAndFuses (by intros; rfl) _ _ _ e)
  | monitorSample => exact kept_of_keeps (execMonitorSample_keeps queueAndFuses (by intros; rfl) _ _ _ e)
  | c1Recovery => exact kept_of_keeps (execC1Recovery_keeps queueAndFuses (by intros; rfl) _ _ e)
  | iqSlotReceive => exact kept_of_keeps (execIqSlotReceive_keeps queueAndFuses (by intros; rfl) _ _ _ _ e)
  | rxclkStop => exact kept_of_keeps (execRxclkStop_keeps queueAndFuses (by intros; rfl) _ _ _ e)
  | overloadWindow => exact kept_of_keeps (execOverloadWindow_keeps queueAndFuses (by intros; rfl) _ _ _ e)
  | shrDetect => exact kept_of_keeps (execShrDetect_keeps queueAndFuses (by intros; rfl) _ _ _ _ _ e)
  | phrDecode => exact kept_of_keeps (execPhrDecode_keeps queueAndFuses (by intros; rfl) _ _ _ _ e)
  | psduWordPush => exact kept_of_keeps (execPsduWordPush_keeps queueAndFuses (by intros; rfl) _ _ _ _ e)
  | laneFrameEnd => exact kept_of_keeps (execLaneFrameEnd_keeps queueAndFuses (by intros; rfl) _ _ _ _ e)
  | overflowTrailerPush => exact kept_of_keeps (execOverflowTrailerPush_keeps queueAndFuses (by intros; rfl) _ _ _ _ e)
  | blankingStart => exact kept_of_keeps (execBlankingStart_keeps queueAndFuses (by intros; rfl) _ _ _ _ e)
  | blankingEnd => exact kept_of_keeps (execBlankingEnd_keeps queueAndFuses (by intros; rfl) _ _ _ e)
  | laneSwitch => exact kept_of_keeps (execLaneSwitch_keeps queueAndFuses (by intros; rfl) _ _ _ e)
  | beaconDue => exact kept_of_keeps (execBeaconDue_keeps queueAndFuses (by intros; rfl) _ _ _ _ e)
  | lbtListenEnd => exact kept_of_keeps (execLbtListenEnd_keeps queueAndFuses (by intros; rfl) _ _ _ _ e)
  | lbtBackoffEnd => exact kept_of_keeps (execLbtBackoffEnd_keeps queueAndFuses (by intros; rfl) _ _ _ e)
  | beaconTxStart => exact kept_of_keeps (execBeaconTxStart_keeps queueAndFuses (by intros; rfl) _ _ _ _ e)
  | beaconMiss => exact kept_of_keeps (execBeaconMiss_keeps queueAndFuses (by intros; rfl) _ _ _ e)
  | fallbackRetry => exact kept_of_keeps (execFallbackRetry_keeps queueAndFuses (by intros; rfl) _ _ _ e)
  | deepBeaconTx => exact kept_of_keeps (execDeepBeaconTx_keeps queueAndFuses (by intros; rfl) _ _ _ _ e)
  | linkAckTx => exact kept_of_keeps (execLinkAckTx_keeps queueAndFuses (by intros; rfl) _ _ _ _ e)
  | downlinkTx => exact kept_of_keeps (execDownlinkTx_keeps queueAndFuses (by intros; rfl) _ _ _ _ _ e)
  | transmissionEnd => exact kept_of_keeps (execTransmissionEnd_keeps queueAndFuses (by intros; rfl) _ _ _ _ e)
  | chargeExpiry => exact kept_of_keeps (execChargeExpiry_keeps queueAndFuses (by intros; rfl) _ _ _ _ e)
  | arrivalWindowClose => exact kept_of_keeps (execArrivalWindowClose_keeps queueAndFuses (by intros; rfl) _ _ _ e)
  | supervisionTimeout => exact kept_of_keeps (execSupervisionTimeout_keeps queueAndFuses (by intros; rfl) _ _ _ e)
  | connectionEvent => exact kept_of_keeps (execConnectionEvent_keeps queueAndFuses (by intros; rfl) _ _ _ _ e)
  | connectReplyTimeout => exact kept_of_keeps (execConnectReplyTimeout_keeps queueAndFuses (by intros; rfl) _ _ _ e)
  | openTimeout => exact kept_of_keeps (execOpenTimeout_keeps queueAndFuses (by intros; rfl) _ _ _ e)
  | connSupervisionExpiry => exact kept_of_keeps (execConnSupervisionExpiry_keeps queueAndFuses (by intros; rfl) _ _ _ e)
  | ldFault => exact kept_of_keeps (execLdFault_keeps queueAndFuses (by intros; rfl) _ _ _ _ e)
  | ldFaultRetry => exact kept_of_keeps (execLdFaultRetry_keeps queueAndFuses (by intros; rfl) _ _ _ e)
  | transactionStart => exact kept_of_keeps (execTransactionStart_keeps queueAndFuses (by intros; rfl) _ _ _ _ e)
  | plcHeaderDecode => exact kept_of_keeps (execPlcHeaderDecode_keeps queueAndFuses (by intros; rfl) _ _ _ _ e)
  | plcSymbolReceive => exact kept_of_keeps (execPlcSymbolReceive_keeps queueAndFuses (by intros; rfl) _ _ _ _ e)
  | plcFrameEnd => exact kept_of_keeps (execPlcFrameEnd_keeps queueAndFuses (by intros; rfl) _ _ _ _ e)
  | plcOverflowTrailer => exact kept_of_keeps (execPlcOverflowTrailer_keeps queueAndFuses (by intros; rfl) _ _ _ _ e)
  | pollDeadline => exact kept_of_keeps (execPollDeadline_keeps queueAndFuses (by intros; rfl) _ _ _ e)
  | retryGapExpiry => exact kept_of_keeps (execRetryGapExpiry_keeps queueAndFuses (by intros; rfl) _ _ _ e)
  | readDue => exact kept_of_keeps (execReadDue_keeps queueAndFuses (by intros; rfl) _ _ _ e)
  | custodyMaxExpiry => exact kept_of_keeps (execCustodyMaxExpiry_keeps queueAndFuses (by intros; rfl) _ _ _ e)
  | nbrDue => exact kept_of_keeps (execNbrDue_keeps queueAndFuses (by intros; rfl) _ _ e)
  | unreachRetry => exact kept_of_keeps (execUnreachRetry_keeps queueAndFuses (by intros; rfl) _ _ _ e)
  | routeRecalc => exact kept_of_keeps (execRouteRecalc_keeps queueAndFuses (by intros; rfl) _ _ e)
  | linkAgeExpiry => exact kept_of_keeps (execLinkAgeExpiry_keeps queueAndFuses (by intros; rfl) _ _ _ e)
  | queuePush => exact kept_of_keeps (execQueuePush_keeps queueAndFuses (by intros; rfl) _ _ _ _ _ _ e)
  | queueDoom => exact kept_of_keeps (execQueueDoom_keeps queueAndFuses (by intros; rfl) _ _ _ e)
  | queueRead => exact kept_of_keeps (execQueueRead_keeps queueAndFuses (by intros; rfl) _ _ _ e)
  | dropRest => exact kept_of_keeps (execDropRest_keeps queueAndFuses (by intros; rfl) _ _ _ e)
  | noticePop => exact kept_of_keeps (execNoticePop_keeps queueAndFuses (by intros; rfl) _ _ _ e)
  | plcCalibrationDone => exact kept_of_keeps (execPlcCalibrationDone_keeps queueAndFuses (by intros; rfl) _ _ _ _ e)
  | directoryAirPacket => exact kept_of_keeps (execDirectoryAirPacket_keeps queueAndFuses (by intros; rfl) _ _ _ e)
  | directoryPlcPacket => exact kept_of_keeps (execDirectoryPlcPacket_keeps queueAndFuses (by intros; rfl) _ _ _ e)
  | serialRelease => exact kept_of_keeps (execSerialRelease_keeps queueAndFuses (by intros; rfl) _ _ _ e)
  | fetchBufferFree => exact kept_of_keeps (execFetchBufferFree_keeps queueAndFuses (by intros; rfl) _ _ e)
  | contextFetchComplete => exact kept_of_keeps (execContextFetchComplete_keeps queueAndFuses (by intros; rfl) _ _ _ _ e)
  | writebackDone => exact kept_of_keeps (execWritebackDone_keeps queueAndFuses (by intros; rfl) _ _ _ e)
  | retirementComplete => exact kept_of_keeps (execRetirementComplete_keeps queueAndFuses (by intros; rfl) _ _ _ e)
  | retireHoldExpiry => exact kept_of_keeps (execRetireHoldExpiry_keeps queueAndFuses (by intros; rfl) _ _ _ e)
  | rehashEnd => exact kept_of_keeps (execRehashEnd_keeps queueAndFuses (by intros; rfl) _ _ e)
  | patrolScrub => exact kept_of_keeps (execPatrolScrub_keeps queueAndFuses (by intros; rfl) _ _ _ e)
  | softRepair => exact kept_of_keeps (execSoftRepair_keeps queueAndFuses (by intros; rfl) _ _ _ e)
  | dmaPiWrite => exact kept_of_keeps (execDmaPiWrite_keeps queueAndFuses (by intros; rfl) _ _ _ _ e)
  | dmaDescriptorEnd => exact kept_of_keeps (execDmaDescriptorEnd_keeps queueAndFuses (by intros; rfl) _ _ _ _ e)
  | dmaBusError => exact kept_of_keeps (execDmaBusError_keeps queueAndFuses (by intros; rfl) _ _ _ _ e)
  | journalGroupCommit => exact kept_of_keeps (execJournalGroupCommit_keeps queueAndFuses (by intros; rfl) _ _ _ _ e)
  | jnlFullWaitExpiry => exact kept_of_keeps (execJnlFullWaitExpiry_keeps queueAndFuses (by intros; rfl) _ _ _ e)
  | bundleTimeout => exact kept_of_keeps (execBundleTimeout_keeps queueAndFuses (by intros; rfl) _ _ _ e)
  | bundleSigned => exact kept_of_keeps (execBundleSigned_keeps queueAndFuses (by intros; rfl) _ _ e)
  | calTransition => exact kept_of_keeps (execCalTransition_keeps queueAndFuses (by intros; rfl) _ _ _ _ e)
  | ledgerSweep => exact kept_of_keeps (execLedgerSweep_keeps queueAndFuses (by intros; rfl) _ _ _ _ e)
  | stmtBundleTimeout => exact kept_of_keeps (execStmtBundleTimeout_keeps queueAndFuses (by intros; rfl) _ _ e)
  | ledgerSeal => exact kept_of_keeps (execLedgerSeal_keeps queueAndFuses (by intros; rfl) _ _ e)
  | durabilityExpiry => exact kept_of_keeps (execDurabilityExpiry_keeps queueAndFuses (by intros; rfl) _ _ _ e)
  | restorePageReceive => exact kept_of_keeps (execRestorePageReceive_keeps queueAndFuses (by intros; rfl) _ _ _ e)
  | pwrfailAssert => exact kept_of_keeps (execPwrfailAssert_keeps queueAndFuses (by intros; rfl) _ _ e)
  | pwrfailDeassert => exact kept_of_keeps (execPwrfailDeassert_keeps queueAndFuses (by intros; rfl) _ _ e)
  | displayScreen => exact kept_of_keeps (execDisplayScreen_keeps queueAndFuses (by intros; rfl) _ _ _ e)
  | displayRetry => exact kept_of_keeps (execDisplayRetry_keeps queueAndFuses (by intros; rfl) _ _ _ e)
  | sealChange => exact kept_of_keeps (execSealChange_keeps queueAndFuses (by intros; rfl) _ _ _ e)
  | intervalClose => exact kept_of_keeps (execIntervalClose_keeps queueAndFuses (by intros; rfl) _ _ _ _ e)
  | revisionPost => exact kept_of_keeps (execRevisionPost_keeps queueAndFuses (by intros; rfl) _ _ _ _ e)
  | unzonedPost => exact kept_of_keeps (execUnzonedPost_keeps queueAndFuses (by intros; rfl) _ _ _ e)
  | horizonAdvance => exact kept_of_keeps (execHorizonAdvance_keeps queueAndFuses (by intros; rfl) _ _ e)
  | stepAttempt => exact kept_of_keeps (execStepAttempt_keeps queueAndFuses (by intros; rfl) _ _ _ _ e)
  | confWaitEnd => exact kept_of_keeps (execConfWaitEnd_keeps queueAndFuses (by intros; rfl) _ _ _ _ e)
  | campDeadline => exact kept_of_keeps (execCampDeadline_keeps queueAndFuses (by intros; rfl) _ _ _ e)
  | sessionPlan => exact kept_of_keeps (execSessionPlan_keeps queueAndFuses (by intros; rfl) _ _ _ _ e)
  | multicastFrame => exact kept_of_keeps (execMulticastFrame_keeps queueAndFuses (by intros; rfl) _ _ _ _ _ e)
  | switchFbTimeout => exact kept_of_keeps (execSwitchFbTimeout_keeps queueAndFuses (by intros; rfl) _ _ _ _ e)
  | gateRelease => exact kept_of_keeps (execGateRelease_keeps queueAndFuses (by intros; rfl) _ _ _ _ e)
  | rewrapWalk => exact kept_of_keeps (execRewrapWalk_keeps queueAndFuses (by intros; rfl) _ _ e)
  | drbgReseed => exact kept_of_keeps (execDrbgReseed_keeps queueAndFuses (by intros; rfl) _ _ _ e)
  | recordWrite => exact kept_of_keeps (execRecordWrite_keeps queueAndFuses (by intros; rfl) _ _ _ e)
  | tokenRefill => exact kept_of_keeps (execTokenRefill_keeps queueAndFuses (by intros; rfl) _ _ _ e)
  | checkpointWrite => exact kept_of_keeps (execCheckpointWrite_keeps queueAndFuses (by intros; rfl) _ _ _ e)
  | envmScrub => exact kept_of_keeps (execEnvmScrub_keeps queueAndFuses (by intros; rfl) _ _ _ e)
  | rtcTick => exact kept_of_keeps (execRtcTick_keeps queueAndFuses (by intros; rfl) _ _ e)
  | rtcRegRead => exact kept_of_keeps (execRtcRegRead_keeps queueAndFuses (by intros; rfl) _ _ _ e)
  | rtcYearRead => exact kept_of_keeps (execRtcYearRead_keeps queueAndFuses (by intros; rfl) _ _ e)
  | rtcShadowTimeout => exact kept_of_keeps (execRtcShadowTimeout_keeps queueAndFuses (by intros; rfl) _ _ e)
  | rtcRegWrite => exact kept_of_keeps (execRtcRegWrite_keeps queueAndFuses (by intros; rfl) _ _ _ _ e)
  | rtcYearWrite => exact kept_of_keeps (execRtcYearWrite_keeps queueAndFuses (by intros; rfl) _ _ _ e)
  | writeSetTimeout => exact kept_of_keeps (execWriteSetTimeout_keeps queueAndFuses (by intros; rfl) _ _ e)
  | supplyToVbat => exact kept_of_keeps (execSupplyToVbat_keeps queueAndFuses (by intros; rfl) _ _ e)
  | supplyToMain => exact kept_of_keeps (execSupplyToMain_keeps queueAndFuses (by intros; rfl) _ _ e)
  | lbvMeasure => exact kept_of_keeps (execLbvMeasure_keeps queueAndFuses (by intros; rfl) _ _ _ _ e)
  | retentionLoss => exact kept_of_keeps (execRetentionLoss_keeps queueAndFuses (by intros; rfl) _ _ e)
  | oscStop => exact kept_of_keeps (execOscStop_keeps queueAndFuses (by intros; rfl) _ _ e)
  | porBkp => exact kept_of_keeps (execPorBkp_keeps queueAndFuses (by intros; rfl) _ _ e)
  | tamperActivation => exact kept_of_keeps (execTamperActivation_keeps queueAndFuses (by intros; rfl) _ _ _ e)
  | pwronOff => exact kept_of_keeps (execPwronOff_keeps queueAndFuses (by intros; rfl) _ _ e)
  | mirRefresh => exact kept_of_keeps (execMirRefresh_keeps queueAndFuses (by intros; rfl) _ _ e)
  | mirCalRead => exact kept_of_keeps (execMirCalRead_keeps queueAndFuses (by intros; rfl) _ _ _ e)
  | mirYearRead => exact kept_of_keeps (execMirYearRead_keeps queueAndFuses (by intros; rfl) _ _ e)
  | mirShadowTimeout => exact kept_of_keeps (execMirShadowTimeout_keeps queueAndFuses (by intros; rfl) _ _ e)
  | porMainRelease => exact kept_of_keeps (execPorMainRelease_keeps queueAndFuses (by intros; rfl) _ _ e)
  | nresetRelease => exact kept_of_keeps (execNresetRelease_keeps queueAndFuses (by intros; rfl) _ _ e)
  | perstNAssert => exact kept_of_keeps (execPerstNAssert_keeps queueAndFuses (by intros; rfl) _ _ e)
  | synthLockRetry => exact kept_of_keeps (execSynthLockRetry_keeps queueAndFuses (by intros; rfl) _ _ _ e)
  | bootRomVerify => exact kept_of_keeps (execBootRomVerify_keeps queueAndFuses (by intros; rfl) _ _ _ e)
  | coreBist => exact kept_of_keeps (execCoreBist_keeps queueAndFuses (by intros; rfl) _ _ _ _ e)
  | pcieLinkTrain => exact kept_of_keeps (execPcieLinkTrain_keeps queueAndFuses (by intros; rfl) _ _ _ _ e)
  | ddrTraining => exact kept_of_keeps (execDdrTraining_keeps queueAndFuses (by intros; rfl) _ _ _ e)
  | startScanReplay => exact kept_of_keeps (execStartScanReplay_keeps queueAndFuses (by intros; rfl) _ _ e)
  | rfPortTrain => exact kept_of_keeps (execRfPortTrain_keeps queueAndFuses (by intros; rfl) _ _ _ e)
  | rfPortTrainEnd => exact kept_of_keeps (execRfPortTrainEnd_keeps queueAndFuses (by intros; rfl) _ _ _ _ e)
  | plcOffsetCal => exact kept_of_keeps (execPlcOffsetCal_keeps queueAndFuses (by intros; rfl) _ _ _ e)
  | dataplaneBist => exact kept_of_keeps (execDataplaneBist_keeps queueAndFuses (by intros; rfl) _ _ _ _ e)
  | stagingEraseDone => exact kept_of_keeps (execStagingEraseDone_keeps queueAndFuses (by intros; rfl) _ _ e)
  | fwPrepareDone => exact kept_of_keeps (execFwPrepareDone_keeps queueAndFuses (by intros; rfl) _ _ _ e)
  | microcodeSwitch => exact kept_of_keeps (execMicrocodeSwitch_keeps queueAndFuses (by intros; rfl) _ _ e)
  | fwActivate => exact kept_of_keeps (execFwActivate_keeps queueAndFuses (by intros; rfl) _ _ _ e)
  | firmwareTakeover => exact kept_of_keeps (execFirmwareTakeover_keeps queueAndFuses (by intros; rfl) _ _ e)
  | activationPauseOverrun => exact kept_of_keeps (execActivationPauseOverrun_keeps queueAndFuses (by intros; rfl) _ _ e)
  | confirmTimerExpiry => exact kept_of_keeps (execConfirmTimerExpiry_keeps queueAndFuses (by intros; rfl) _ _ e)
  | fwHostBoot => exact kept_of_keeps (execFwHostBoot_keeps queueAndFuses (by intros; rfl) _ _ _ _ e)
  | gateTestPeriodic => exact kept_of_keeps (execGateTestPeriodic_keeps queueAndFuses (by intros; rfl) _ _ _ e)
  | lockstepMismatch => exact kept_of_keeps (execLockstepMismatch_keeps queueAndFuses (by intros; rfl) _ _ e)
  | safetySramScrub => exact kept_of_keeps (execSafetySramScrub_keeps queueAndFuses (by intros; rfl) _ _ _ e)
  | heartbeatCheck => exact kept_of_keeps (execHeartbeatCheck_keeps queueAndFuses (by intros; rfl) _ _ _ e)
  | clockMonitorFault => exact kept_of_keeps (execClockMonitorFault_keeps queueAndFuses (by intros; rfl) _ _ e)
  | safetyAutoRecover => exact kept_of_keeps (execSafetyAutoRecover_keeps queueAndFuses (by intros; rfl) _ _ e)
  | proofTestEnd => exact kept_of_keeps (execProofTestEnd_keeps queueAndFuses (by intros; rfl) _ _ _ e)
  | rotationStep => exact kept_of_keeps (execRotationStep_keeps queueAndFuses (by intros; rfl) _ _ e)
  | rotationHandover => exact kept_of_keeps (execRotationHandover_keeps queueAndFuses (by intros; rfl) _ _ e)
  | laneTestEnd => exact kept_of_keeps (execLaneTestEnd_keeps queueAndFuses (by intros; rfl) _ _ _ e)
  | rotationLate => exact kept_of_keeps (execRotationLate_keeps queueAndFuses (by intros; rfl) _ _ _ e)
  | maintTokenGrant => exact kept_of_keeps (execMaintTokenGrant_keeps queueAndFuses (by intros; rfl) _ _ _ e)
  | plcTransmitEnd => exact kept_of_keeps (execPlcTransmitEnd_keeps queueAndFuses (by intros; rfl) _ _ _ e)
  | pcieUncorrectableError => exact kept_of_keeps (execPcieUncorrectableError_keeps queueAndFuses (by intros; rfl) _ _ e)
  | flitTransfer => exact kept_of_keeps (execFlitTransfer_keeps queueAndFuses (by intros; rfl) _ _ _ e)
  | creditReturn => exact kept_of_keeps (execCreditReturn_keeps queueAndFuses (by intros; rfl) _ _ _ e)
  | creditAudit => exact kept_of_keeps (execCreditAudit_keeps queueAndFuses (by intros; rfl) _ _ _ e)
  | fenceWaitExpiry => exact kept_of_keeps (execFenceWaitExpiry_keeps queueAndFuses (by intros; rfl) _ _ _ e)
  | porMainAssert => exact kept_of_keeps (execPorMainAssert_keeps queueAndFuses (by intros; rfl) _ _ e)
  | nresetAssert => exact kept_of_keeps (execNresetAssert_keeps queueAndFuses (by intros; rfl) _ _ e)
  | wdtExpiry => exact kept_of_keeps (execWdtExpiry_keeps queueAndFuses (by intros; rfl) _ _ e)
  | sysrst => exact kept_of_keeps (execSysrst_keeps queueAndFuses (by intros; rfl) _ _ e)
  | recorderDrainEnd => exact kept_of_keeps (execRecorderDrainEnd_keeps queueAndFuses (by intros; rfl) _ _ e)
  | dprst => exact kept_of_keeps (execDprst_keeps queueAndFuses (by intros; rfl) _ _ e)
  | islrst => exact kept_of_keeps (execIslrst_keeps queueAndFuses (by intros; rfl) _ _ _ e)
  | releaseStageEnd => exact kept_of_keeps (execReleaseStageEnd_keeps queueAndFuses (by intros; rfl) _ _ _ _ e)
  | genLockTimeout => exact kept_of_keeps (execGenLockTimeout_keeps queueAndFuses (by intros; rfl) _ _ _ e)
  | islandBistEnd => exact kept_of_keeps (execIslandBistEnd_keeps queueAndFuses (by intros; rfl) _ _ _ _ e)

/-- No command faults and none is refused (log 4). -/
theorem exec_answers (c : Instr) (s : State) : ∃ t, exec c s = .next t := by
  cases c <;> exact ⟨_, rfl⟩

/-- R467: a step runs the front command on the fuses as they are, or idles. -/
theorem step_keeps_fuses {s t : State} (e : step s = .next t) : FLe s.fuses t.fuses := by
  unfold step at e
  split at e
  case h_1 => exact nx e ▸ fle_same rfl
  case h_2 i rest _ => exact (exec_keeps_queueAndFuses e).fuses

/-! ### Parameters -/

/-- An ID outside the blocks of ports, streams, sectors and Slate codes. -/
theorem paramDef_of_fixed {id : Nat} (h : 0x9300 ≤ id ∨ 0x3200 ≤ id ∧ id < 0x9100) : paramDef id = fixedParam id := by
  unfold paramDef
  rw [if_neg (by simp; omega), if_neg (by simp; omega), if_neg (by simp; omega), if_neg (by simp; omega), if_neg (by simp; omega)]

/-- R367, R468: each of the two subsystems has one ID, its first. -/
theorem fixedParam_reserved {id : Nat} (h : 0x8001 ≤ id ∧ id ≤ 0x8FFF ∨ 0xA001 ≤ id ∧ id ≤ 0xAFFF) : fixedParam id = none := by
  unfold fixedParam
  split <;> simp <;> omega

theorem paramDef_reserved {id : Nat} (h : 0x8001 ≤ id ∧ id ≤ 0x8FFF ∨ 0xA001 ≤ id ∧ id ≤ 0xAFFF) : paramDef id = none :=
  (paramDef_of_fixed (by omega)).trans (fixedParam_reserved h)

/-- The range of an integer parameter. -/
theorem pRange_ok_iff (size lo hi dflt : Nat) (cls : PClass) (v : Nat) : (pRange size lo hi dflt cls).ok v = true ↔ lo ≤ v ∧ v ≤ hi := by
  simp [pRange]

end Sys2Proof.Machine

open Sys2Proof Sys2Proof.Machine

/-- Settles O1 (log 2). -/
theorem stepRunsFrontCommand : Obligations.StepRunsFrontCommand := by
  unfold Obligations.StepRunsFrontCommand
  exact fun _ _ _ => ⟨rfl, rfl⟩

/-- Settles O2: an empty queue idles (log 2), and no word spells a command, since no row of the table gives bits (log 52). -/
theorem emptyQueueIdles : Obligations.EmptyQueueIdles := by
  unfold Obligations.EmptyQueueIdles
  refine ⟨?idle, ?word⟩
  case idle =>
    intro s h
    rw [step, h]
  case word => exact fun _ _ _ => rfl

/-- Settles O60: no command faults (log 4), and none touches the queue, which is the model's own (log 2). -/
theorem commandsKeepTheQueue : Obligations.CommandsKeepTheQueue := by
  unfold Obligations.CommandsKeepTheQueue
  intro c s
  obtain ⟨t, e⟩ := exec_answers c s
  exact ⟨t, e, (exec_keeps_queueAndFuses e).pending⟩

/-- Settles O8: one step burns fuses and clears none. -/
theorem lifecycleOnlyAdvances : Obligations.LifecycleOnlyAdvances := by
  unfold Obligations.LifecycleOnlyAdvances
  intro s s' e
  obtain ⟨hrow, hhash, hrest⟩ := step_keeps_fuses e
  exact ⟨life_mono ⟨hrow, hhash, hrest⟩, hhash, hrest⟩

/-- Settles O59. -/
theorem oneParameterBlocks : Obligations.OneParameterBlocks := by
  unfold Obligations.OneParameterBlocks
  refine ⟨?rewrapRate, ?confirmTime, ?keysReserved, ?firmwareReserved⟩
  case rewrapRate => exact ⟨_, rfl, rfl, rfl, rfl, pRange_ok_iff 4 1000 200000 20000 .l⟩
  case confirmTime => exact ⟨_, rfl, rfl, rfl, rfl, pRange_ok_iff 2 60 3600 600 .l⟩
  case keysReserved => exact fun id hlo hhi => paramDef_reserved (.inl ⟨hlo, hhi⟩)
  case firmwareReserved => exact fun id hlo hhi => paramDef_reserved (.inr ⟨hlo, hhi⟩)

end

section
/-! The release sequence (R420 to R430): one rule per stage and per lock failure, then O16. -/

namespace Sys2Proof.Machine

theorem exec_releaseStageEnd (straps : BitVec 4) (opt : OptLoad) (s : State) :
    exec (.releaseStageEnd straps opt) s = .next (releaseStageEnd straps opt s) := rfl

/-! ### Stages 2 and 3 -/

/-- R424 to R426: the straps are sampled, whatever the option load and the key derivation then find. -/
theorem stage2_boot (straps : BitVec 4) (opt : OptLoad) (s : State) :
    (stage2 straps opt s).boot.stageRun = 3 ∧ (stage2 straps opt s).boot.bootsrc = (straps.extractLsb' 0 2).toNat ∧
      (stage2 straps opt s).boot.clkmode = (straps.extractLsb' 2 2).toNat ∧
      (stage2 straps opt s).boot.bootOvr = ((straps.extractLsb' 0 2).toNat == 3 && lifecycle s != 1) := by
  have hrec (c : Bool) (code : Nat) (p : List Byte) (u : State) : (if c then record code p u else u).boot = u.boot := by
    cases c
    · rfl
    · exact record_keeps State.boot (by intros; rfl) code p u
  unfold stage2
  dsimp only
  rw [hrec]
  generalize hv : ({ s with boot.bootsrc := _, boot.clkmode := _, boot.bootOvr := _, boot.stageRun := _ } : State) = v
  obtain ⟨k1, k2, k3, k4⟩ := deriveKeys_boot (optionLoad opt v)
  obtain ⟨o1, o2, o3, o4⟩ := optionLoad_boot opt v
  rw [k1, k2, k3, k4, o1, o2, o3, o4, ← hv]
  exact ⟨rfl, rfl, rfl, rfl⟩

/-! ### Stage 4 -/

theorem releaseIslands_keeps {β : Type} (P : State → β) (h : ∀ (s : State) x0 x1, P { s with isl := x0, links := x1 } = P s) (l : List Nat)
    (s : State) : P (l.foldl (fun s i => releaseIsland i s) s) = P s :=
  foldl_keeps P _ (fun s i => releaseIsland_keeps P h i s) l s

theorem causeRecord_boot (s : State) : (causeRecord s).boot = { s.boot with causeRec := 0 } :=
  record_keeps State.boot (by intros; rfl) _ _ _

/-- The reports of a start leave the boot controller alone. -/
theorem startReports_boot (s : State) :
    (if (reportTampers s).boot.widest == .cold then coldSlots (reportTampers s) else reportTampers s).boot = s.boot := by
  have hrep : (reportTampers s).boot = s.boot := reportTampers_keeps State.boot (by intros; rfl) s
  split
  · rw [coldSlots_keeps State.boot (by intros; rfl), hrep]
  · exact hrep

/-- R421, R430: the boot ROM starts with the sources written, or the sequence ends with failed options. -/
theorem stage4_boot {s : State} (h : s.boot.draining = false) : (stage4 s).boot =
    { s.boot with stage := 1, fail := if s.boot.optFailed then 0x80 else 0, stageRun := if s.boot.optFailed then 0 else 5, causeRec := 0 } := by
  unfold stage4
  rw [if_neg (ne_true_of_eq_false h)]
  dsimp only
  rw [startReports_boot, causeRecord_boot, releaseIslands_keeps State.boot (by intros; rfl)]

theorem stage4_of_draining {s : State} (h : s.boot.draining = true) : stage4 s = s := if_pos h

/-! ### Stages 5 and 6 -/

/-- R421: the data-plane islands that can run leave reset. -/
theorem stage5_of_start {s : State} (h : s.boot.dpRun = false) :
    stage5 s = (List.range 29).foldl (fun s i => releaseIsland i s) { s with boot.stageRun := 0 } := by
  unfold stage5
  dsimp only
  rw [releaseIslands_keeps State.boot (by intros; rfl), if_neg (ne_true_of_eq_false h)]

/-- R422: after a DPRST the ports are brought back as well, which moves neither the sequence, nor the configuration, nor an island. -/
theorem stage5_of_dprst {s : State} (h : s.boot.dpRun = true) :
    (stage5 s).boot.stageRun = 0 ∧ (stage5 s).cfg = s.cfg ∧
      (stage5 s).isl = ((List.range 29).foldl (fun s i => releaseIsland i s) { s with boot.stageRun := 0 }).isl := by
  unfold stage5
  generalize List.range 29 = islands
  have hboot := releaseIslands_keeps State.boot (by intros; rfl) islands { s with boot.stageRun := 0 }
  have hcfg := releaseIslands_keeps State.cfg (by intros; rfl) islands { s with boot.stageRun := 0 }
  generalize islands.foldl (fun s i => releaseIsland i s) { s with boot.stageRun := 0 } = u at *
  dsimp only
  rw [if_pos (by rw [hboot]; exact h)]
  refine ⟨?_, ?_, ?_⟩
  · rw [dprstDone_stageRun, bringBack_keeps State.boot (by intros; rfl), hboot]
  · rw [dprstDone_keeps State.cfg (by intros; rfl), bringBack_keeps State.cfg (by intros; rfl), hcfg]
  · rw [dprstDone_keeps State.isl (by intros; rfl), bringBack_keeps State.isl (by intros; rfl)]

/-- R420: an island that can run leaves reset with its clock and its lock, and its fences lift. -/
theorem releaseIsland_of_sound {i : Nat} {s : State} (hp : islPresent s i = true) (hr : (isl s i).inReset = true)
    (hx : islExcluded s i = false) (hl : (isl s i).lockRetries < 2) :
    releaseIsland i s = liftFences i (setIsl i (fun x => { x with clkRun := true, lock := true, inReset := false }) s) :=
  if_pos (by simp [hp, hr, hx, hl])

/-! ### A generator without lock (R420, log 49) -/

section Lock

variable {i : Nat} {s : State} (hi : i < 35) (hp : islPresent s i = true) (hr : (isl s i).inReset = true) (hs : 4 ≤ s.boot.stageRun)
include hi hp hr hs

theorem genLockTimeout_first (hn : (isl s i).lockRetries = 0) :
    genLockTimeout i s = setIsl i (fun x => { x with lockRetries := 1, clkRun := true, lock := false }) s := by
  simp [genLockTimeout, hp, hr, hn, Nat.not_le.2 hi, Nat.not_lt.2 hs]

/-- The second time the island stays in reset with its clock stopped. -/
theorem genLockTimeout_second (hn : (isl s i).lockRetries = 1) : genLockTimeout i s =
    (let u := setIsl i (fun x => { x with lockRetries := 2, clkRun := false, lock := false }) s
     if i ≤ 28 && (s.boot.widest == .dprst || s.boot.widest == .islrst) then excludeIsland i causeReset 2 u else islandFault i 2 u) := by
  simp [genLockTimeout, hp, hr, hn, Nat.not_le.2 hi, Nat.not_lt.2 hs]

end Lock

/-! ### The synthesiser (R426) -/

theorem synthLockRetry_of_waiting (locked : Bool) {s : State} (hs : s.boot.stageRun = 3) (hl : s.boot.synthLock = false) :
    synthLockRetry locked s = if locked then { advMono (s.mono + tMs 100) s with boot := { s.boot with synthLock := true, stageRun := 4 } }
      else advMono (s.mono + tMs 100) s := by
  have hboot := advMono_keeps State.boot (by intros; rfl) (s.mono + tMs 100) s
  simp [synthLockRetry, hs, hl, hboot]

end Sys2Proof.Machine

open Sys2Proof Sys2Proof.Machine

/-- Settles O16, stage by stage; what a second lock failure leaves is log 49. -/
theorem releaseStageEffects : Obligations.ReleaseStageEffects := by
  unfold Obligations.ReleaseStageEffects
  refine ⟨?stage2, ?stage3, ?stage4, ?draining, ?stage5, ?dprst, ?stage6, ?fence, ?release, ?firstRetry, ?startFault, ?exclusion, ?locked, ?notLocked⟩
  case stage2 =>
    intro straps opt s hf hs
    obtain ⟨h2, -⟩ := end_eq straps opt s hf
    rw [exec_releaseStageEnd, h2 hs]
    exact ⟨_, rfl, stage2_boot straps opt s⟩
  case stage3 =>
    intro straps opt s hf hs
    obtain ⟨-, h3, -⟩ := end_eq straps opt s hf
    rw [exec_releaseStageEnd, h3 hs]
  case stage4 =>
    intro straps opt s hf hs hd
    obtain ⟨-, -, h4, -⟩ := end_eq straps opt s hf
    rw [exec_releaseStageEnd, h4 hs]
    refine ⟨_, rfl, ?_⟩
    rw [stage4_boot hd]
    exact ⟨rfl, rfl, rfl, rfl⟩
  case draining =>
    intro straps opt s hf hs hd
    obtain ⟨-, -, h4, -⟩ := end_eq straps opt s hf
    rw [exec_releaseStageEnd, h4 hs, stage4_of_draining hd]
  case stage5 =>
    intro straps opt s hf hs hd
    obtain ⟨-, -, -, h5, -⟩ := end_eq straps opt s hf
    rw [exec_releaseStageEnd, h5 hs, stage5_of_start hd]
  case dprst =>
    intro straps opt s hf hs hd
    obtain ⟨-, -, -, h5, -⟩ := end_eq straps opt s hf
    rw [exec_releaseStageEnd, h5 hs]
    exact ⟨_, rfl, stage5_of_dprst hd⟩
  case stage6 =>
    intro straps opt s hf hs
    obtain ⟨-, -, -, -, h6⟩ := end_eq straps opt s hf
    rw [exec_releaseStageEnd, h6 hs, stage6]
  case fence =>
    intro straps opt s hf
    rw [exec_releaseStageEnd, releaseStageEnd, if_pos hf]
  case release =>
    intro i s hf hp hr hx hl
    obtain ⟨-, -, -, -, h6⟩ := end_eq 0 { bad1 := 0, bad2 := 0 } { s with boot.stageRun := 6, boot.isls := [i] } hf
    rw [exec_releaseStageEnd, h6 rfl]
    exact congrArg Host.Outcome.next (releaseIsland_of_sound hp hr hx hl)
  case firstRetry => exact fun i s hi hp hr hs hn => congrArg Host.Outcome.next (genLockTimeout_first hi hp hr hs hn)
  case startFault =>
    intro i s hi hp hr hs hn hd hl
    exact congrArg Host.Outcome.next ((genLockTimeout_second hi hp hr hs hn).trans (if_neg (by simp [hd, hl])))
  case exclusion =>
    intro i s hi hp hr hs hn hw
    exact congrArg Host.Outcome.next ((genLockTimeout_second (by omega) hp hr hs hn).trans (if_pos (by simp [hi, hw])))
  case locked => exact fun s hs hl => congrArg Host.Outcome.next ((synthLockRetry_of_waiting true hs hl).trans (if_pos rfl))
  case notLocked => exact fun s hs hl => congrArg Host.Outcome.next ((synthLockRetry_of_waiting false hs hl).trans (if_neg Bool.false_ne_true))

end

section
/-! The backup island (R396 to R411): one rule per case of each command, then O54. -/

namespace Sys2Proof.Machine

/-! ### Steps of the clock (R399 to R404, R408) -/

theorem ticked_alarms (s : State) : (ticked s).bkp.alarms = s.bkp.alarms := by
  rw [ticked_bkp]

/-- The alarms write their flags and the PWRON state alone. -/
structure AlarmsLeave (s t : State) : Prop where
  cal : t.bkp.cal = s.bkp.cal
  ovf : t.bkp.ovf = s.bkp.ovf
  trim : t.bkp.trim = s.bkp.trim
  winTick : t.bkp.winTick = s.bkp.winTick
  trimNow : t.bkp.trimNow = s.bkp.trimNow
  alm0 : t.bkp.alm0 = (s.bkp.alm0 || alarmMatch (tget s.bkp.alarms 0 {}) s.bkp.cal)
  alm1 : t.bkp.alm1 = (s.bkp.alm1 || alarmMatch (tget s.bkp.alarms 1 {}) s.bkp.cal)

theorem alarmTicks_leave (s : State) : AlarmsLeave s (alarmTick 1 (alarmTick 0 s)) := by
  constructor <;> rw [alarmTick_bkp 1, alarmTick_bkp 0]
  case alm0 => simp
  case alm1 => simp

theorem alarmTick_controlUp (n : Nat) (s : State) : controlUp (alarmTick n s) = controlUp s :=
  alarmTick_keeps controlUp (by intros; rfl) n s

/-- R408: an alarm that matches raises event 0xC2. -/
theorem alarmTicks_event {s : State} (hup : controlUp s = true)
    (h : alarmMatch (tget s.bkp.alarms 0 {}) s.bkp.cal = true ∨ alarmMatch (tget s.bkp.alarms 1 {}) s.bkp.cal = true) :
    (alarmTick 1 (alarmTick 0 s)).evt.pend.getLsbD 0xC2 = true := by
  rcases h with h | h
  · exact alarmTick_keepbit 1 _ _ (alarmTick_bit 0 s h hup)
  · refine alarmTick_bit 1 _ ?_ ((alarmTick_controlUp 0 s).trans hup)
    rw [alarmTick_bkp 0]
    exact h

theorem secondEdge_bkp (s : State) : (secondEdge s).bkp = s.bkp := secondEdge_keeps State.bkp (by intros; rfl) s

theorem secondEdge_evt (s : State) : (secondEdge s).evt = s.evt := secondEdge_keeps State.evt (by intros; rfl) s

theorem rtcTick_within_second {s : State} (h : (calTick s.bkp.cal).2.1 = false) : rtcTick s = noteTrust (ticked s) := by
  rw [rtcTick_eq, if_neg (ne_true_of_eq_false h)]

theorem rtcTick_at_second {s : State} (h : (calTick s.bkp.cal).2.1 = true) :
    rtcTick s = noteTrust (secondEdge (alarmTick 1 (alarmTick 0 (ticked s)))) := by
  rw [rtcTick_eq, if_pos h]

theorem rtcTick_within_second_bkp {s : State} (h : (calTick s.bkp.cal).2.1 = false) : (rtcTick s).bkp = (ticked s).bkp := by
  rw [rtcTick_within_second h, noteTrust_bkp]

theorem rtcTick_at_second_bkp {s : State} (h : (calTick s.bkp.cal).2.1 = true) :
    (rtcTick s).bkp = (alarmTick 1 (alarmTick 0 (ticked s))).bkp := by
  rw [rtcTick_at_second h, noteTrust_bkp, secondEdge_bkp]

theorem rtcTick_within_second_tickAt {s : State} (h : (calTick s.bkp.cal).2.1 = false) : (rtcTick s).tickAt = s.tickAt + tickTime s := by
  rw [rtcTick_within_second h, noteTrust_keeps State.tickAt (by intros; rfl), ticked_at]

/-- R399, R403: whether SEC rolls over or not, the counters and the trim window are those of the step. -/
theorem rtcTick_counters (s : State) : (rtcTick s).bkp.cal = (ticked s).bkp.cal ∧ (rtcTick s).bkp.ovf = (ticked s).bkp.ovf ∧
    (rtcTick s).bkp.trim = (ticked s).bkp.trim ∧ (rtcTick s).bkp.winTick = (ticked s).bkp.winTick ∧
    (rtcTick s).bkp.trimNow = (ticked s).bkp.trimNow := by
  cases h : (calTick s.bkp.cal).2.1
  case false =>
    rw [rtcTick_within_second_bkp h]
    exact ⟨rfl, rfl, rfl, rfl, rfl⟩
  case true =>
    rw [rtcTick_at_second_bkp h]
    have ha := alarmTicks_leave (ticked s)
    exact ⟨ha.cal, ha.ovf, ha.trim, ha.winTick, ha.trimNow⟩

theorem windowCycles_of_no_trim {s : State} (h : s.bkp.trimNow = 0) : windowCycles s = 2 ^ 20 := by
  rw [windowCycles, h]
  rfl

theorem tickTime_of_no_trim {s : State} (h : s.bkp.trimNow = 0) : tickTime s = 2 ^ 14 := by
  rw [tickTime, windowCycles_of_no_trim h]
  rfl

/-- R400: the last instant of a year rolls every counter over, and that of 2399 overflows. -/
theorem calTick_year_end {c : Calendar} (hsub : c.subsec = 1023) (hsec : c.sec = 59) (hmin : c.min = 59) (hhour : c.hour = 23)
    (hmonth : c.month = 12) (hday : c.day = 31) (hyear : c.year ≤ 2399) :
    calTick c = ({ c with
      subsec := 0, sec := 0, min := 0, hour := 0, day := 1, month := 1, wday := (c.wday + 1) % 7,
      year := if c.year = 2399 then 2000 else c.year + 1 }, true, decide (c.year = 2399)) := by
  by_cases hlast : c.year = 2399
  · simp [calTick, rollMinute, hsub, hsec, hmin, hhour, hmonth, hday, hlast, monthDays_december]
  · have hlt : c.year < 2399 := by omega
    simp [calTick, rollMinute, hsub, hsec, hmin, hhour, hmonth, hday, hlast, hlt, monthDays_december]

/-! ### Reads of the calendar (R401, R405, log 144) -/

section Read

variable {s : State} (hup : controlUp s = true)
include hup

theorem rtcRegRead_first {reg : Nat} (hreg : reg < 8) (hy : reg ≠ 6) (h : s.bkp.shadow = none) :
    rtcRegRead reg s = { s with bkp := { s.bkp with lastRead := calField s.bkp.cal reg, shadow := some (s.bkp.cal, s.mono) } } := by
  have hlt : ¬ 9 ≤ reg := by omega
  have hne : reg ≠ 8 := by omega
  simp [rtcRegRead, hup, hlt, hne, hy, h]

theorem rtcRegRead_frozen {reg : Nat} {c : Calendar} {m : Nat} (hreg : reg < 8) (hy : reg ≠ 6) (h : s.bkp.shadow = some (c, m)) :
    rtcRegRead reg s = { s with bkp := { s.bkp with lastRead := calField c reg } } := by
  have hlt : ¬ 9 ≤ reg := by omega
  have hne : reg ≠ 8 := by omega
  simp [rtcRegRead, hup, hlt, hne, hy, h]

theorem rtcYearRead_direct (h : s.bkp.shadow = none) :
    rtcYearRead s = { s with bkp := { s.bkp with lastRead := s.bkp.cal.year, shadow := none } } := by
  simp [rtcYearRead, hup, h]

theorem rtcYearRead_frozen {c : Calendar} {m : Nat} (h : s.bkp.shadow = some (c, m)) :
    rtcYearRead s = { s with bkp := { s.bkp with lastRead := c.year, shadow := none } } := by
  simp [rtcYearRead, hup, h]

theorem rtcRegRead_stat : rtcRegRead 8 s = { s with bkp := { s.bkp with lastRead := (rtcStat s.bkp).toNat } } := by
  simp [rtcRegRead, hup]

theorem rtcRegWrite_stat (v : Nat) : rtcRegWrite 8 v s = rtcStatWrite v s := by
  simp [rtcRegWrite, hup]

/-! ### The write set (R402) -/

theorem rtcRegWrite_opens {reg : Nat} (v : Nat) (hreg : reg < 8) (hy : reg ≠ 6) (h : s.bkp.writeSet = none) :
    rtcRegWrite reg v s = { s with bkp := { s.bkp with writeSet := some (setCalField s.bkp.cal reg v, s.mono) } } := by
  have hlt : ¬ 9 ≤ reg := by omega
  have hne : reg ≠ 8 := by omega
  simp [rtcRegWrite, hup, hlt, hne, hy, h]

theorem rtcRegWrite_changes {reg : Nat} {c : Calendar} {m : Nat} (v : Nat) (hreg : reg < 8) (hy : reg ≠ 6)
    (h : s.bkp.writeSet = some (c, m)) :
    rtcRegWrite reg v s = { s with bkp := { s.bkp with writeSet := some (setCalField c reg v, m) } } := by
  have hlt : ¬ 9 ≤ reg := by omega
  have hne : reg ≠ 8 := by omega
  simp [rtcRegWrite, hup, hlt, hne, hy, h]

theorem rtcYearWrite_of_up (v : Nat) :
    rtcYearWrite v s = commitSet (setCalField ((s.bkp.writeSet.map (fun x => x.1)).getD s.bkp.cal) 6 v) s := by
  rw [rtcYearWrite, if_neg (by simp [hup])]
  cases s.bkp.writeSet <;> rfl

end Read

theorem afterTime_bkp (was : Bool) (s : State) : (afterTime was s).bkp = s.bkp := afterTime_keeps State.bkp (by intros; rfl) was s

theorem commitSet_of_valid {c : Calendar} {s : State} (h : calValid c = true) : (commitSet c s).bkp =
    { s.bkp with cal := c, osf := false, rlf := false, ovf := false, shadow := none, writeSet := none } := by
  rw [commitSet, if_pos h, afterTime_bkp]
  rfl

theorem commitSet_of_invalid {c : Calendar} {s : State} (h : calValid c = false) :
    commitSet c s = { s with bkp := { s.bkp with dateErr := true, writeSet := none } } :=
  if_neg (ne_true_of_eq_false h)

theorem advMono_bkp (m : Nat) (s : State) : (advMono m s).bkp = s.bkp := advMono_keeps State.bkp (by intros; rfl) m s

theorem rtcShadowTimeout_of_frozen {c : Calendar} {m : Nat} {s : State} (h : s.bkp.shadow = some (c, m)) :
    rtcShadowTimeout s = { advMono (m + tMs 1) s with bkp := { s.bkp with shadow := none, shadowTo := true } } := by
  rw [rtcShadowTimeout, h]
  simp only [advMono_bkp]

theorem writeSetTimeout_of_open {c : Calendar} {m : Nat} {s : State} (h : s.bkp.writeSet = some (c, m)) :
    writeSetTimeout s = { advMono (m + tMs 1) s with bkp := { s.bkp with writeSet := none, wrTo := true } } := by
  rw [writeSetTimeout, h]
  simp only [advMono_bkp]

theorem pwronOff_of_due {e : Nat} {s : State} (h : s.bkp.offAt = some e) :
    pwronOff s = { advMono e s with bkp := { s.bkp with pwron := false, pwrOff := true, offAt := none } } := by
  rw [pwronOff, h]
  simp only [advMono_bkp]

/-! ### Supply and retention (R396, R405, R406) -/

/-- R63: a source that is raised is pending. -/
theorem raiseIf_set {b : Bool} (n : Nat) (s : State) (hb : b = true) (hdef : sourceDefined n = true) (hn : n < 256) :
    (raiseIf b n s).evt.pend.getLsbD n = true := by
  rw [raiseIf, if_pos hb]
  exact raise_set n s hdef hn

theorem roundAt_bkp (last : Option Nat) (every : Nat) (s : State) : (roundAt last every s).bkp = s.bkp :=
  roundAt_keeps State.bkp (by intros; rfl) last every s

/-- R396: VBAT below 2.20 V. -/
theorem lbvMeasure_low {mv : Nat} (s : State) (h : mv < 2200) :
    (lbvMeasure mv s).bkp = { s.bkp with lbv := true, lbvAt := some (roundAt s.bkp.lbvAt 60 s).mono } ∧
      (s.bkp.lbv = false → controlUp s = true → (lbvMeasure mv s).evt.pend.getLsbD 0xC1 = true) := by
  have hbkp := roundAt_bkp s.bkp.lbvAt 60 s
  have hup : controlUp (roundAt s.bkp.lbvAt 60 s) = controlUp s := roundAt_keeps controlUp (by intros; rfl) _ _ s
  unfold lbvMeasure
  generalize roundAt s.bkp.lbvAt 60 s = u at *
  dsimp only
  rw [if_pos h, hbkp]
  constructor
  · rw [raiseIf_keeps State.bkp (by intros; rfl)]
  · intro hlbv hc
    have hraise : (!s.bkp.lbv && controlUp u) = true := by simp [hlbv, hup, hc]
    exact raiseIf_set 0xC1 _ hraise (by decide) (by decide)

theorem lbvMeasure_high {mv : Nat} (s : State) (h : 2300 < mv) :
    (lbvMeasure mv s).bkp = { s.bkp with lbv := false, lbvAt := some (roundAt s.bkp.lbvAt 60 s).mono } := by
  have hbkp := roundAt_bkp s.bkp.lbvAt 60 s
  unfold lbvMeasure
  generalize roundAt s.bkp.lbvAt 60 s = u at *
  dsimp only
  rw [if_neg (by omega), if_pos h, hbkp]

theorem lbvMeasure_between {mv : Nat} (s : State) (hlo : 2200 ≤ mv) (hhi : mv ≤ 2300) :
    (lbvMeasure mv s).bkp = { s.bkp with lbvAt := some (roundAt s.bkp.lbvAt 60 s).mono } := by
  have hbkp := roundAt_bkp s.bkp.lbvAt 60 s
  unfold lbvMeasure
  generalize roundAt s.bkp.lbvAt 60 s = u at *
  dsimp only
  rw [if_neg (by omega), if_neg (by omega), hbkp]

theorem retentionLoss_bkp (s : State) : (retentionLoss s).bkp = { s.bkp with rlf := true, osf := true } := noteTrust_bkp _

/-- R406: trust that was reported is lost. -/
theorem retentionLoss_of_trusted {s : State} (h : s.trustSeen = some true) :
    (retentionLoss s).evt.pend.getLsbD 0xC0 = true ∧ (retentionLoss s).trustSeen = some false := by
  have he : retentionLoss s = raise 0xC0 { s with bkp.rlf := true, bkp.osf := true, trustSeen := some false } := by
    simp [retentionLoss, noteTrust, h, trusted]
  rw [he]
  exact ⟨raise_set 0xC0 _ (by decide) (by decide), raise_keeps State.trustSeen (by intros; rfl) _ _⟩

/-! ### Tamper inputs (R410) -/

/-- The record of tamper input i after an activation. -/
def tamperNoted (i : Nat) (s : State) : Tamper :=
  { tget s.bkp.tamp i {} with
    count := satAdd 65535 (tget s.bkp.tamp i {}).count 1, last := BitVec.ofNat 32 (calSecs s.bkp.cal), lastUntr := !trusted s, active := true,
    first := if (tget s.bkp.tamp i {}).count = 0 then BitVec.ofNat 32 (calSecs s.bkp.cal) else (tget s.bkp.tamp i {}).first,
    firstUntr := if (tget s.bkp.tamp i {}).count = 0 then !trusted s else (tget s.bkp.tamp i {}).firstUntr }

/-- The activation entered, and the appliance woken where the input asks for it. -/
def tamperEntered (i : Nat) (s : State) : State :=
  let s1 := { s with bkp.tamp := tset s.bkp.tamp i (tamperNoted i s) }
  if (tget s.bkp.tampCfg i 0).getLsbD 4 then wake s1 else s1

theorem tamperEntered_tamp (i : Nat) (s : State) : (tamperEntered i s).bkp.tamp = tset s.bkp.tamp i (tamperNoted i s) := by
  unfold tamperEntered
  dsimp only
  split <;> rfl

theorem tamperEntered_pwron (i : Nat) (s : State) :
    (tamperEntered i s).bkp.pwron = (s.bkp.pwron || (tget s.bkp.tampCfg i 0).getLsbD 4) := by
  unfold tamperEntered
  dsimp only
  split
  case isTrue h => rw [h, Bool.or_true]; rfl
  case isFalse h => rw [eq_false_of_ne_true h, Bool.or_false]

section Tamper

variable {i : Nat} {s : State} (hi : i < 4) (hen : (tget s.bkp.tampCfg i 0).getLsbD 0 = true)
include hi hen

theorem tamperActivation_of_active (ha : (tget s.bkp.tamp i {}).active = false) :
    tamperActivation i true s = if controlUp s then tamperReport i (tamperEntered i s) else tamperEntered i s := by
  unfold tamperActivation
  dsimp only
  rw [if_neg (by rw [hen, ha]; simpa using hi), if_neg (by decide)]
  rfl

theorem tamperActivation_of_inactive (ha : (tget s.bkp.tamp i {}).active = true) :
    tamperActivation i false s = { s with bkp := { s.bkp with tamp := tset s.bkp.tamp i { tget s.bkp.tamp i {} with active := false } } } := by
  unfold tamperActivation
  dsimp only
  rw [if_neg (by rw [hen, ha]; simpa using hi), if_pos (by decide)]

end Tamper

/-- The report changes no tamper record and not PWRON. -/
theorem tamperReport_leaves (i : Nat) (s : State) : (tamperReport i s).bkp.tamp = s.bkp.tamp ∧ (tamperReport i s).bkp.pwron = s.bkp.pwron := by
  obtain ⟨x, h⟩ := tampReport_bkp i s
  rw [h]
  exact ⟨rfl, rfl⟩

theorem tamperReport_event (i : Nat) (s : State) : (tamperReport i s).evt.pend.getLsbD 0xC3 = true :=
  raise_set 0xC3 _ (by decide) (by decide)

/-- R410: the input's record and PWRON after an activation. -/
theorem tamperActivation_bkp {i : Nat} {s : State} (hi : i < 4) (hen : (tget s.bkp.tampCfg i 0).getLsbD 0 = true)
    (ha : (tget s.bkp.tamp i {}).active = false) : (tamperActivation i true s).bkp.tamp = tset s.bkp.tamp i (tamperNoted i s) ∧
      (tamperActivation i true s).bkp.pwron = (s.bkp.pwron || (tget s.bkp.tampCfg i 0).getLsbD 4) := by
  rw [tamperActivation_of_active hi hen ha]
  split
  · obtain ⟨htamp, hpwron⟩ := tamperReport_leaves i (tamperEntered i s)
    exact ⟨htamp.trans (tamperEntered_tamp i s), hpwron.trans (tamperEntered_pwron i s)⟩
  · exact ⟨tamperEntered_tamp i s, tamperEntered_pwron i s⟩

/-- R412: while the control firmware runs the activation is reported at once. -/
theorem tamperActivation_reported {i : Nat} {s : State} (hi : i < 4) (hen : (tget s.bkp.tampCfg i 0).getLsbD 0 = true)
    (ha : (tget s.bkp.tamp i {}).active = false) (hup : controlUp s = true) :
    tget (tamperActivation i true s).life.tampRep i 0 = (tamperNoted i s).count ∧
      (tamperActivation i true s).evt.pend.getLsbD 0xC3 = true := by
  rw [tamperActivation_of_active hi hen ha, if_pos hup]
  refine ⟨?_, tamperReport_event _ _⟩
  rw [tampRep_eq, tamperEntered_tamp, tget_tset_same]

/-! ### SEAL (R294, R411) -/

/-- SEAL opens: what the backup island itself counts. -/
def sealOpened (s : State) : State :=
  { s with bkp := { s.bkp with
      sealOpen := true, sealCount := s.bkp.sealCount + 1, sealLast := BitVec.ofNat 32 (calSecs s.bkp.cal),
      sealFirst := if s.bkp.sealCount = 0 then BitVec.ofNat 32 (calSecs s.bkp.cal) else s.bkp.sealFirst } }

theorem sealChange_opens {s : State} (h : s.bkp.sealOpen = false) :
    sealChange true s = if controlUp s && s.jnl.replayed then sealChanged false (sealOpened s) else sealOpened s := by
  rw [sealChange, h, if_neg (by decide)]
  rfl

theorem sealChange_closes {s : State} (h : s.bkp.sealOpen = true) (hup : controlUp s = false) :
    sealChange false s = { s with bkp := { s.bkp with sealOpen := false } } := by
  simp [sealChange, h, hup]

/-- The journal entry and the record of a change leave the seal's own registers. -/
theorem sealChanged_leaves (s : State) :
    (sealChanged false s).bkp.sealOpen = s.bkp.sealOpen ∧ (sealChanged false s).bkp.sealCount = s.bkp.sealCount := by
  obtain ⟨⟨x, h⟩, -⟩ := sealChanged_facts false s
  rw [h]
  exact ⟨rfl, rfl⟩

end Sys2Proof.Machine

open Sys2Proof Sys2Proof.Machine

/-- Settles O54, case by case; the length of a clock step is log 158, RTC_STAT as register 8 log 144, and lastRead log 5. -/
theorem backupClockEffects : Obligations.BackupClockEffects := by
  unfold Obligations.BackupClockEffects
  refine ⟨?tick, ?noTrim, ?alarms, ?yearEnd, ?regRead, ?yearRead, ?statRead, ?statWrite, ?shadowTimeout, ?regWrite, ?yearWrite, ?setTimeout,
    ?supplies, ?lbv, ?losses, ?tamper, ?tamperEnd, ?sealOpens, ?sealCloses, ?sealReported, ?pwron⟩
  case tick =>
    intro s
    obtain ⟨hcal, hovf, htrim, hwin, hnow⟩ := rtcTick_counters s
    rw [ticked_bkp] at hcal hovf htrim hwin hnow
    refine ⟨_, rfl, hcal, hovf, htrim, hwin, hnow, fun h => ⟨rtcTick_within_second_tickAt h, ?_⟩⟩
    rw [rtcTick_within_second_bkp h, ticked_bkp]
    exact ⟨rfl, rfl, rfl⟩
  case noTrim => exact fun s h => ⟨windowCycles_of_no_trim h, tickTime_of_no_trim h⟩
  case alarms =>
    intro s h
    have ha := alarmTicks_leave (ticked s)
    refine ⟨_, rfl, ?_, ?_, fun hm hup => ?_⟩
    · rw [rtcTick_at_second_bkp h, ha.alm0, ticked_bkp]
    · rw [rtcTick_at_second_bkp h, ha.alm1, ticked_bkp]
    · rw [rtcTick_at_second h]
      refine noteTrust_keepbit _ _ ?_
      rw [secondEdge_evt]
      refine alarmTicks_event ((ticked_up s).trans hup) ?_
      rw [ticked_bkp]
      exact hm
  case yearEnd => exact fun c hsub hsec hmin hhour hmonth hday hyear => calTick_year_end hsub hsec hmin hhour hmonth hday hyear
  case regRead =>
    exact fun reg s hup hreg hy => ⟨fun h => congrArg Host.Outcome.next (rtcRegRead_first hup hreg hy h),
      fun c m h => congrArg Host.Outcome.next (rtcRegRead_frozen hup hreg hy h)⟩
  case yearRead =>
    exact fun s hup => ⟨fun h => congrArg Host.Outcome.next (rtcYearRead_direct hup h),
      fun c m h => congrArg Host.Outcome.next (rtcYearRead_frozen hup h)⟩
  case statRead => exact fun s hup => congrArg Host.Outcome.next (rtcRegRead_stat hup)
  case statWrite =>
    exact fun v s hup => ⟨_, congrArg Host.Outcome.next (rtcRegWrite_stat hup v), rfl, rfl, rfl, rfl, rfl, rfl, rfl, rfl, rfl⟩
  case shadowTimeout => exact fun c m s h => ⟨_, congrArg Host.Outcome.next (rtcShadowTimeout_of_frozen h), rfl, advMono_mono _ s⟩
  case regWrite =>
    exact fun reg v s hup hreg hy => ⟨fun h => congrArg Host.Outcome.next (rtcRegWrite_opens hup v hreg hy h),
      fun c m h => congrArg Host.Outcome.next (rtcRegWrite_changes hup v hreg hy h)⟩
  case yearWrite =>
    rintro v c s hup rfl
    exact ⟨fun h => ⟨_, congrArg Host.Outcome.next (rtcYearWrite_of_up hup v), commitSet_of_valid h⟩,
      fun h => congrArg Host.Outcome.next ((rtcYearWrite_of_up hup v).trans (commitSet_of_invalid h))⟩
  case setTimeout => exact fun c m s h => ⟨_, congrArg Host.Outcome.next (writeSetTimeout_of_open h), rfl, advMono_mono _ s⟩
  case supplies => exact fun s => ⟨rfl, rfl⟩
  case lbv =>
    exact fun v mv s => ⟨fun m _ => le_advMono _ s, fun h => ⟨_, rfl, lbvMeasure_low s h⟩, fun h => ⟨_, rfl, lbvMeasure_high s h⟩,
      fun hlo hhi => ⟨_, rfl, lbvMeasure_between s hlo hhi⟩⟩
  case losses =>
    exact fun s => ⟨⟨_, rfl, retentionLoss_bkp s, retentionLoss_of_trusted⟩, ⟨_, rfl, noteTrust_bkp _⟩, ⟨_, rfl, noteTrust_bkp _⟩⟩
  case tamper =>
    intro i s hi hen ha
    obtain ⟨htamp, hpwron⟩ := tamperActivation_bkp hi hen ha
    have hx : tget (tamperActivation i true s).bkp.tamp i {} = tamperNoted i s := by rw [htamp, tget_tset_same]
    refine ⟨_, _, rfl, rfl, ?_⟩
    rw [hx]
    exact ⟨rfl, rfl, rfl, rfl, rfl, rfl, hpwron, tamperActivation_reported hi hen ha⟩
  case tamperEnd =>
    rintro i x s hi hen rfl ha
    exact ⟨_, rfl, congrArg Host.Outcome.next (tamperActivation_of_inactive hi hen ha)⟩
  case sealOpens =>
    intro s h hup
    exact congrArg Host.Outcome.next ((sealChange_opens h).trans (if_neg (by simp [hup])))
  case sealCloses => exact fun s h hup => congrArg Host.Outcome.next (sealChange_closes h hup)
  case sealReported =>
    intro s h hup hrep
    obtain ⟨hopen, hcount⟩ := sealChanged_leaves (sealOpened s)
    obtain ⟨-, hevent⟩ := sealChanged_facts false (sealOpened s)
    exact ⟨_, congrArg Host.Outcome.next ((sealChange_opens h).trans (if_pos (by simp [hup, hrep]))), hopen, hcount, hevent⟩
  case pwron => exact fun e s h => ⟨_, congrArg Host.Outcome.next (pwronOff_of_due h), rfl, advMono_mono _ s⟩

end

section
/-! The boot ROM, a host image and the lifecycle opcodes (R437, R438, R459, R466, R467, R469): one rule per outcome, then O19. -/

namespace Sys2Proof.Machine

/-! ### The boot ROM -/

/-- STAGE 0x01 can go on, and no update, restore or trial is open: what is left of R437 is the choice of a slot. -/
structure BootReady (s : State) : Prop where
  stage : s.boot.stage = 1
  fail : s.boot.fail = 0
  opt : s.boot.optValid = true
  core : (isl s 29).inReset = false
  store : (isl s 33).inReset = false
  step : dirStep s = 0
  staging : s.fwNv.staging = none
  trial : s.fwNv.trial = none

theorem resumeStep_of_idle {s : State} (h : dirStep s = 0) : resumeStep s = s := by
  unfold resumeStep
  dsimp only
  rw [if_pos h]

theorem installStaged_of_none {s : State} (h : s.fwNv.staging = none) : installStaged s = s := by
  unfold installStaged
  rw [h]

theorem judgeTrial_of_none {s : State} (h : s.fwNv.trial = none) : judgeTrial s = s := by
  unfold judgeTrial
  rw [h]

theorem BootReady.goes_on {s : State} (h : BootReady s) :
    (s.boot.stage != 1 || s.boot.fail != 0 || !s.boot.optValid || (isl s 29).inReset || (isl s 33).inReset) = false := by
  rw [h.stage, h.fail, h.opt, h.core, h.store]
  rfl

/-- With no update, restore or trial open the boot ROM comes to the slots as the verification left them. -/
theorem BootReady.at_slots {v : BootVerify} {s : State} (h : BootReady (applyVerify v s)) :
    judgeTrial (installStaged (resumeStep (applyVerify v s))) = applyVerify v s := by
  rw [resumeStep_of_idle h.step, installStaged_of_none h.staging, judgeTrial_of_none h.trial]

/-- The slots that do not verify hold nothing; what makes the boot ROM ready stays. -/
theorem BootReady.applyVerify {s : State} (h : BootReady s) (a f : Bool) :
    BootReady (applyVerify { activeBad := a, fallbackBad := f, stagingBad := false } s) :=
  ⟨h.stage, h.fail, h.opt, h.core, h.store, h.step, h.staging, h.trial⟩

theorem bootRomVerify_of_slot {v : BootVerify} {m : Manifest} {s s2 : State} (h : BootReady s) (hv : BootReady (applyVerify v s))
    (hslot : bootSlot (applyVerify v s) = (s2, some m)) (hsrc : bootSource s2 ≠ 1) (htrial : s2.fwNv.trial = none) :
    bootRomVerify v s = handover m s2 := by
  unfold bootRomVerify
  rw [h.goes_on, hv.at_slots, if_neg Bool.false_ne_true]
  dsimp only
  rw [hslot]
  dsimp only
  rw [if_neg hsrc]
  exact if_neg (by rw [show (handover m s2).fwNv.trial = none from htrial]; simp)

theorem bootRomVerify_of_no_slot {v : BootVerify} {s s2 : State} (h : BootReady s) (hv : BootReady (applyVerify v s))
    (hslot : bootSlot (applyVerify v s) = (s2, none)) :
    bootRomVerify v s = if bootSource s2 = 1 then waitImage s2
      else if bootSource s2 = 2 then waitImage s2 else { s2 with boot.fail := 0x81, fw.upd := heldState s2 } := by
  unfold bootRomVerify
  rw [h.goes_on, hv.at_slots, if_neg Bool.false_ne_true]
  dsimp only
  rw [hslot]

theorem bootSlot_of_active {m : Manifest} {s : State} (ha : s.fwNv.active = some m) (hb : bootable m s = true) : bootSlot s = (s, some m) := by
  unfold bootSlot
  simp only [ha, Option.filter, hb, if_true]

/-- R437: with ACTIVE gone the failure is recorded and FALLBACK decides. -/
theorem bootSlot_of_no_active {s : State} (ha : s.fwNv.active = none) :
    bootSlot s = (record rcActiveBad (le 4 (({} : Manifest).ver).toNat) s, s.fwNv.fallback.filter fun m => bootable m s) := by
  unfold bootSlot
  simp only [ha, Option.filter, Option.getD]

theorem bootSource_record (code : Nat) (p : List Byte) (s : State) : bootSource (record code p s) = bootSource s :=
  record_keeps bootSource (by intros; rfl) code p s

/-- R437: ACTIVE verifies and boots. -/
theorem bootRomVerify_active {m : Manifest} {s : State} (h : BootReady s) (hsrc : bootSource s ≠ 1) (ha : s.fwNv.active = some m)
    (hb : bootable m s = true) :
    bootRomVerify { activeBad := false, fallbackBad := false, stagingBad := false } s = handover m s :=
  bootRomVerify_of_slot h (h.applyVerify false false) (bootSlot_of_active (s := applyVerify _ s) ha hb) hsrc h.trial

/-- R437: ACTIVE does not verify, FALLBACK does. -/
theorem bootRomVerify_fallback {m : Manifest} {s : State} (h : BootReady s) (hsrc : bootSource s ≠ 1) (hf : s.fwNv.fallback = some m)
    (hb : bootable m s = true) :
    bootRomVerify { activeBad := true, fallbackBad := false, stagingBad := false } s =
      handover m (record rcActiveBad (le 4 (({} : Manifest).ver).toNat) { s with fwNv.active := none }) := by
  refine bootRomVerify_of_slot h (h.applyVerify true false) ?slot ?source ?trial
  case slot =>
    refine (bootSlot_of_no_active rfl).trans (congrArg (Prod.mk _) ?_)
    show s.fwNv.fallback.filter (fun m => bootable m s) = some m
    rw [hf, Option.filter, if_pos hb]
  case source => rwa [bootSource_record]
  case trial => exact (record_keeps (fun u => u.fwNv.trial) (by intros; rfl) _ _ _).trans h.trial

/-- R437, R438: neither slot verifies: STAGE 0x02 where BOOTSRC names the host, NO_IMAGE where it names the eNVM alone (log 136). -/
theorem bootRomVerify_none {s : State} (h : BootReady s) : ∃ t,
    bootRomVerify { activeBad := true, fallbackBad := true, stagingBad := false } s = t ∧ t.fwNv.active = none ∧ t.fwNv.fallback = none ∧
      (bootSource s = 0 → t.boot.fail = 0x81 ∧ t.boot.stage = 1) ∧ (bootSource s = 1 ∨ bootSource s = 2 → t.boot.stage = 2 ∧ t.boot.fail = 0) := by
  refine ⟨_, bootRomVerify_of_no_slot h (h.applyVerify true true) (bootSlot_of_no_active rfl), ?_⟩
  rw [bootSource_record]
  generalize hu : record _ _ (applyVerify _ s) = u
  have hnv : u.fwNv = (applyVerify { activeBad := true, fallbackBad := true, stagingBad := false } s).fwNv :=
    hu ▸ record_keeps State.fwNv (by intros; rfl) _ _ _
  have hboot : u.boot = s.boot := hu ▸ record_keeps State.boot (by intros; rfl) _ _ _
  have ha : u.fwNv.active = none := by rw [hnv]; rfl
  have hf : u.fwNv.fallback = none := by rw [hnv]; rfl
  have hfail : u.boot.fail = 0 := hboot ▸ h.fail
  have hstage : u.boot.stage = 1 := hboot ▸ h.stage
  have hsrc : bootSource (applyVerify { activeBad := true, fallbackBad := true, stagingBad := false } s) = bootSource s := rfl
  rw [hsrc]
  generalize bootSource s = k
  by_cases h1 : k = 1
  · rw [if_pos h1]
    exact ⟨ha, hf, fun h0 => absurd (h0.symm.trans h1) (by decide), fun _ => ⟨rfl, hfail⟩⟩
  · rw [if_neg h1]
    by_cases h2 : k = 2
    · rw [if_pos h2]
      exact ⟨ha, hf, fun h0 => absurd (h0.symm.trans h2) (by decide), fun _ => ⟨rfl, hfail⟩⟩
    · rw [if_neg h2]
      exact ⟨ha, hf, fun _ => ⟨rfl, hstage⟩, fun h12 => absurd h12 (not_or.2 ⟨h1, h2⟩)⟩

/-! ### A host image -/

theorem fwHostBoot_eq {image : Option (List Byte)} {r : Req} {s : State} (hz : zeroAt r.payload 12 4 = true) (hstage : s.boot.stage = 2) :
    fwHostBoot image r s = match image with
      | none => .twice (recordFault rcInstall (le 1 4 ++ le 3 0) s).2 .hwFault (recordFault rcInstall (le 1 4 ++ le 3 0) s).1
      | some b => .twice s (match manifestReason (b.take (rd r.payload 8 4)) (rd r.payload 8 4) true s with
        | some k => reasonStatus k
        | none => .ok) [] := by
  unfold fwHostBoot
  rw [if_neg (by simp [hz]), if_neg (by simp [hstage])]
  cases image with
  | none => rfl
  | some b =>
    dsimp only
    cases manifestReason (b.take (rd r.payload 8 4)) (rd r.payload 8 4) true s <;> rfl

theorem manifestReason_taken (b : List Byte) (n : Nat) (host : Bool) (r : Req) (s : State) :
    manifestReason b n host (taken r s) = manifestReason b n host s := rfl

/-- R466: an image that is not acceptable is answered and nothing runs; one that is runs after its final response. -/
theorem hostHandover_eq {b : List Byte} {r : Req} {before s : State} (hserve : serves before r.mbx = true)
    (htake : takes r.mbx 0x0A09 r before = true) (hstage : before.boot.stage = 2) (hlen : r.payload.length = 16) (hz : zeroAt r.payload 12 4 = true) :
    hostHandover (some b) r before s = if (manifestReason (b.take (rd r.payload 8 4)) (rd r.payload 8 4) true before).isNone
      then handover (readManifest (b.take (rd r.payload 8 4))) s else s := by
  unfold hostHandover
  simp only [hserve, htake, hstage, hlen, hz, beq_self_eq_true, Bool.true_and]

/-! ### The lifecycle -/

/-- The checks of LIFECYCLE_ADVANCE before SEAL are met: the target is 3 or 4 and ahead of the state. -/
theorem lifecycleAdvance_of_legal {r : Req} {s : State} (hz : zeroAt r.payload 1 3 = true) (ht : rd r.payload 0 1 = 3 ∨ rd r.payload 0 1 = 4)
    (hfrom : lifecycle s = 2 ∨ lifecycle s = 3 ∧ rd r.payload 0 1 = 4) :
    lifecycleAdvance r s = if !s.bkp.sealOpen then refuse s .sealed
      else if rd r.payload 0 1 = 3 then replyOk (advanceLifecycle 3 s)
      else if !decommissionAuth r.payload s then refuse s .authFail
      else replyOk (advanceLifecycle 4 { (s.slots.slots.map (fun e => e.1)).foldl (fun s n => (destroySlot n s).1) s with
        boot.domainKeys := none, boot.sysReq := some 5 }) := by
  unfold lifecycleAdvance
  dsimp only
  rw [if_neg (by rcases ht with q | q <;> simp [q, hz]), if_neg (by rcases hfrom with q | ⟨q, q1⟩ <;> simp [*])]

theorem lifecycle_taken (r : Req) (s : State) : lifecycle (taken r s) = lifecycle s := rfl

theorem decommissionAuth_taken (p : List Byte) (r : Req) (s : State) : decommissionAuth p (taken r s) = decommissionAuth p s := rfl

theorem lifecycleAdvance_production {r : Req} {s : State} (hz : zeroAt r.payload 1 3 = true) (ht : rd r.payload 0 1 = 3) (hfrom : lifecycle s = 2)
    (hseal : s.bkp.sealOpen = true) : lifecycleAdvance r s = replyOk (advanceLifecycle 3 s) := by
  rw [lifecycleAdvance_of_legal hz (.inl ht) (.inl hfrom), hseal]
  exact (if_neg Bool.false_ne_true).trans (if_pos ht)

theorem lifecycleAdvance_sealed {r : Req} {s : State} (hz : zeroAt r.payload 1 3 = true) (ht : rd r.payload 0 1 = 3) (hfrom : lifecycle s = 2)
    (hseal : s.bkp.sealOpen = false) : lifecycleAdvance r s = refuse s .sealed := by
  rw [lifecycleAdvance_of_legal hz (.inl ht) (.inl hfrom), hseal]
  exact if_pos rfl

theorem lifecycleAdvance_decommission {r : Req} {s : State} (hz : zeroAt r.payload 1 3 = true) (ht : rd r.payload 0 1 = 4)
    (hfrom : lifecycle s = 2 ∨ lifecycle s = 3) (hseal : s.bkp.sealOpen = true) :
    lifecycleAdvance r s = if !decommissionAuth r.payload s then refuse s .authFail
      else replyOk (advanceLifecycle 4 { (s.slots.slots.map (fun e => e.1)).foldl (fun s n => (destroySlot n s).1) s with
        boot.domainKeys := none, boot.sysReq := some 5 }) := by
  rw [lifecycleAdvance_of_legal hz (.inr ht) (hfrom.imp_right fun q => ⟨q, ht⟩), hseal]
  exact (if_neg Bool.false_ne_true).trans (if_neg (by rw [ht]; decide))

theorem custKeyProgram_first {r : Req} {s : State} (hl : lifecycle s = 2) (hh : s.fuses.custHash = none) :
    custKeyProgram r s = replyOk { s with fuses.custHash := some (r.payload.take 32) } := by
  unfold custKeyProgram
  exact if_neg (by simp [hl, hh])

theorem custKeyProgram_again {r : Req} {s : State} {h : List Byte} (hh : s.fuses.custHash = some h) : custKeyProgram r s = refuse s .badState := by
  unfold custKeyProgram
  exact if_pos (by simp [hh])

end Sys2Proof.Machine

open Sys2Proof Sys2Proof.Machine

/-- Settles O19 (log 127: a bus error under FW_HOST_BOOT is HW_FAULT with a record; log 136: where the boot ROM waits and where it ends in
NO_IMAGE). -/
theorem bootAndLifecycleEffects : Obligations.BootAndLifecycleEffects := by
  unfold Obligations.BootAndLifecycleEffects
  refine ⟨?info, ?active, ?fallback, ?noSlot, ?busError, ?image, ?production, ?sealed, ?decommission, ?keyFirst, ?keyAgain⟩
  case info => exact fun r s h => congrArg Host.Outcome.next (serve_done fwInfoGetService r s _ _ _ h rfl)
  case active =>
    exact fun m s h1 h2 h3 h4 h5 h6 h7 h8 hsrc ha hb => congrArg Host.Outcome.next (bootRomVerify_active ⟨h1, h2, h3, h4, h5, h6, h7, h8⟩ hsrc ha hb)
  case fallback =>
    intro m s h1 h2 h3 h4 h5 h6 h7 h8 hsrc hf hb
    refine ⟨_, congrArg Host.Outcome.next (bootRomVerify_fallback ⟨h1, h2, h3, h4, h5, h6, h7, h8⟩ hsrc hf hb), rfl, rfl, rfl, ?_⟩
    exact record_keeps (fun u => u.fwNv.active) (by intros; rfl) _ _ _
  case noSlot =>
    intro s h1 h2 h3 h4 h5 h6 h7 h8
    obtain ⟨t, e, ht⟩ := bootRomVerify_none ⟨h1, h2, h3, h4, h5, h6, h7, h8⟩
    exact ⟨t, congrArg Host.Outcome.next e, ht⟩
  case busError =>
    exact fun r s h hz hstage => congrArg Host.Outcome.next (serve_twice (fwHostBootService none) r s _ _ _ h
      (fwHostBoot_eq (image := none) (s := taken r s) hz hstage))
  case image =>
    intro r b s h htake hz hstage hlen hserve
    refine congrArg Host.Outcome.next ((hostHandover_eq hserve htake hstage hlen hz).trans ?_)
    rw [serve_twice (fwHostBootService (some b)) r s _ _ _ h (fwHostBoot_eq (image := some b) (s := taken r s) hz hstage), manifestReason_taken]
    cases manifestReason (b.take (rd r.payload 8 4)) (rd r.payload 8 4) true s <;> rfl
  case production =>
    exact fun r s h hz ht hl hseal => congrArg Host.Outcome.next (serve_done lifecycleAdvanceService r s _ _ _ h
      (lifecycleAdvance_production (s := taken r s) hz ht hl hseal))
  case sealed =>
    exact fun r s h hz ht hl hseal => congrArg Host.Outcome.next (serve_done lifecycleAdvanceService r s _ _ _ h
      (lifecycleAdvance_sealed (s := taken r s) hz ht hl hseal))
  case decommission =>
    intro r s h hz ht hl hseal
    refine congrArg Host.Outcome.next ?_
    have e := lifecycleAdvance_decommission (s := taken r s) hz ht hl hseal
    rw [decommissionAuth_taken] at e
    cases ha : decommissionAuth r.payload s with
    | true =>
      rw [ha] at e
      exact (serve_done lifecycleAdvanceService r s _ _ _ h (e.trans (if_neg Bool.false_ne_true))).trans (if_pos rfl).symm
    | false =>
      rw [ha] at e
      exact (serve_done lifecycleAdvanceService r s _ _ _ h (e.trans (if_pos rfl))).trans (if_neg Bool.false_ne_true).symm
  case keyFirst =>
    exact fun r s h hl hh => congrArg Host.Outcome.next (serve_done custKeyProgramService r s _ _ _ h (custKeyProgram_first (s := taken r s) hl hh))
  case keyAgain =>
    exact fun r k s h hh => congrArg Host.Outcome.next (serve_done custKeyProgramService r s _ _ _ h (custKeyProgram_again (s := taken r s) hh))

end

section
/-! Staging, installing, switching, activating and confirming firmware (R456 to R465): one rule per opcode and event, then O18. -/

namespace Sys2Proof.Machine

/-! ### Staging (R460, R461) -/

theorem fwStageBegin_of_idle {id : Nat} {r : Req} {s : State} (hz : zeroAt r.payload 4 4 = true) (hmin : 2048 ≤ rd r.payload 0 4)
    (hmax : rd r.payload 0 4 ≤ s.fwNv.slotSize) (hupd : s.fw.upd = .none) :
    fwStageBegin id r s = .pend { s with fw.upd := .staging, fw.total := rd r.payload 0 4, fw.bytes := [], fw.erasing := some id,
                                         fwNv.staging := none } [.firmware] := by
  unfold fwStageBegin
  dsimp only
  rw [if_neg (by simp [hz]; omega), hupd]
  rfl

theorem stagingErased_of_erasing {id : Nat} {s : State} (h : s.fw.erasing = some id) :
    stagingErased s = finishOp id .ok [] { s with fw.erasing := none } := by
  unfold stagingErased
  rw [h]

theorem fwStageWrite_at_offset {r : Req} {s : State} (hz : zeroAt r.payload 4 4 = true) (hupd : s.fw.upd = .staging)
    (hoff : rd r.payload 0 4 = s.fw.bytes.length) (hfit : s.fw.bytes.length + (r.payload.length - 8) ≤ s.fw.total)
    (hlen : (r.payload.length - 8) % 256 = 0 ∨ s.fw.bytes.length + (r.payload.length - 8) = s.fw.total) :
    fwStageWrite r s = replyOk { s with fw.bytes := s.fw.bytes ++ r.payload.drop 8 } := by
  unfold fwStageWrite
  dsimp only
  rw [if_neg (by simp [hz]), if_neg (by simp [hupd]), if_neg]
  generalize r.payload.length - 8 = n at *
  rcases hlen with q | q <;> simp [hoff, hfit, q]

/-- R461: with every byte there the checks of Table 18-3 decide. -/
theorem fwStageCommit_of_complete {s : State} (hupd : s.fw.upd = .staging) (hlen : s.fw.bytes.length = s.fw.total) :
    fwStageCommit s = match manifestReason s.fw.bytes s.fw.bytes.length false s with
      | some k => .twice (dropStaging s) (reasonStatus k) (le 1 k ++ le 3 0)
      | none => .twice (raise 0xA0 { s with fw.upd := .staged, fwNv.staging := some (readManifest s.fw.bytes),
                                            fwNv.stagedPeriod := pval s 0xA000 }) .ok [] := by
  unfold fwStageCommit
  exact if_neg (by simp [hupd, hlen])

theorem fwStageClear_of_staging {s : State} (h : s.fw.upd = .staging) : fwStageClear s = replyOk (dropStaging s) := by
  unfold fwStageClear
  rw [h]

theorem fwStageClear_of_none {s : State} (h : s.fw.upd = .none) : fwStageClear s = replyOk s := by
  unfold fwStageClear
  rw [h]

/-! ### Installing (R459) -/

theorem fwPrepare_of_staged {id : Nat} {m : Manifest} {s : State} (hupd : s.fw.upd = .staged) (hm : s.fwNv.staging = some m) :
    fwPrepare id s = .pend (setSteps (if dirStep s = 0 then [1] else []) { s with fw.upd := .preparing, fw.preparing := some id }) [.firmware] := by
  unfold fwPrepare
  rw [if_neg (by simp [hupd]), hm]
  simp only [Option.isSome_some, Bool.true_and, decide_eq_true_eq]

theorem fwPrepareDone_of_ok {id : Nat} {s : State} (h : s.fw.preparing = some id) : fwPrepareDone none s =
    finishOp id .ok [] { installAll s with
      fw.upd := if dataPlane ((installAll s).fwNv.active.getD {}) then .prepared else .switched, fw.preparing := none,
      fw.banks := dataPlane ((installAll s).fwNv.active.getD {}) } := by
  unfold fwPrepareDone
  rw [h]

/-- R459: the end of the install, from any STEP before INSTALL. -/
theorem fwPrepareDone_installs {id : Nat} {m : Manifest} {s : State} (h : s.fw.preparing = some id) (hm : s.fwNv.staging = some m)
    (hstep : dirStep s ≠ 2) : (fwPrepareDone none s).fwNv.active = some (merged m s.fwNv.active) ∧
      (fwPrepareDone none s).fwNv.fallback = s.fwNv.active ∧ (fwPrepareDone none s).fwNv.staging = none ∧ dirStep (fwPrepareDone none s) = 0 ∧
      (fwPrepareDone none s).fwNv.trial = some { period := s.fwNv.stagedPeriod } ∧
      (fwPrepareDone none s).fw.upd = if dataPlane (merged m s.fwNv.active) then .prepared else .switched := by
  obtain ⟨hdir, a, b, hall⟩ := installAll_fresh m s hm hstep
  rw [fwPrepareDone_of_ok h, finishOp_keeps State.fwNv (by intros; rfl), finishOp_keeps dirStep (by intros; rfl),
    finishOp_keeps State.fw (by intros; rfl)]
  refine ⟨?_, ?_, ?_, hdir, ?_, ?_⟩
  · exact congrArg (fun u => u.fwNv.active) hall
  · exact congrArg (fun u => u.fwNv.fallback) hall
  · exact congrArg (fun u => u.fwNv.staging) hall
  · exact congrArg (fun u => u.fwNv.trial) hall
  · exact congrArg (fun u => if dataPlane (u.fwNv.active.getD {}) then UpdState.prepared else .switched) hall

/-- R459: a fault leaves the manifest staged. -/
theorem fwPrepareDone_of_fault {id k : Nat} {s : State} (h : s.fw.preparing = some id) :
    (fwPrepareDone (some k) s).fw.upd = .staged ∧ (fwPrepareDone (some k) s).fw.preparing = none := by
  unfold fwPrepareDone
  rw [h]
  dsimp only
  rw [finishOp_keeps State.fw (by intros; rfl), recordFault_keeps State.fw (by intros; rfl)]
  exact ⟨rfl, rfl⟩

/-! ### Switching, activating and confirming (R462 to R465) -/

theorem microcodeSwitch_of_token {tm : Nat} {s : State} (htm : s.fw.tm = some tm) (hupd : s.fw.upd = .prepared) (hrun : (isl s 29).inReset = false)
    (htok : holds .ma (askToken .ma s) = true) : microcodeSwitch s = switchNow (advTo (tSec tm) (askToken .ma s)) := by
  unfold microcodeSwitch
  rw [htm]
  dsimp only
  rw [if_neg (by simp [hupd, hrun]), if_pos htok]

theorem fwActivate_of_switched {s : State} (h : s.fw.upd = .switched) : fwActivate s = .pend s [.firmware] := by
  unfold fwActivate
  rw [if_neg (by simp [h])]

theorem pauseOverrun_of_pause {id t0 : Nat} {s : State} (hp : s.fw.pause = some (id, t0)) (hreq : s.boot.sysReq = none) :
    pauseOverrun s = trialFails (advMono (t0 + tMs 250) s) := by
  unfold pauseOverrun
  rw [hp]
  exact if_neg (by simp [hreq])

theorem fwConfirm_of_trial {m : Manifest} {s : State} (hupd : s.fw.upd = .trial) (hm : s.fwNv.active = some m) :
    fwConfirm s = replyOk (record rcConfirm
      (le 4 m.ver.toNat ++ if granite m then graniteDigests (s.fwNv.fallback.getD {}) ++ graniteDigests m else [])
      { s with fwNv.floors := raiseFloors m s.fwNv.floors, fwNv.lfmtSet := s.fwNv.lfmtSet ||| (1#16 <<< (m.lfmtWrite - 1)),
               fwNv.lfmt := m.lfmtWrite, fwNv.trial := none, boot.confirmAt := none, fw.noFallback := false, fw.upd := .none }) := by
  unfold fwConfirm
  rw [if_neg (by simp [hupd]), hm]
  rfl

theorem confirmExpiry_of_armed {t0 : Nat} {s : State} (h : s.boot.confirmAt = some t0) :
    confirmExpiry s = trialFails (advMono t0 { s with boot.confirmAt := none }) := by
  unfold confirmExpiry
  rw [h]

end Sys2Proof.Machine

open Sys2Proof Sys2Proof.Machine

/-- Settles O18. -/
theorem firmwareUpdateEffects : Obligations.FirmwareUpdateEffects := by
  unfold Obligations.FirmwareUpdateEffects
  refine ⟨?begin, ?erased, ?write, ?commit, ?clearStaging, ?clearNone, ?prepare, ?prepared, ?faulted, cl_mic, ?switch, ?activate, ?overrun, ?confirm,
    ?expiry⟩
  case begin =>
    exact fun r s h hz hmin hmax hupd => congrArg Host.Outcome.next (serve_pend fwStageBeginService r s _ _ h
      (fwStageBegin_of_idle (s := taken r s) hz hmin hmax hupd))
  case erased => exact fun id s h => congrArg Host.Outcome.next (stagingErased_of_erasing h)
  case write =>
    exact fun r s h hz hupd hoff hfit hlen => congrArg Host.Outcome.next (serve_done fwStageWriteService r s _ _ _ h
      (fwStageWrite_at_offset (s := taken r s) hz hupd hoff hfit hlen))
  case commit =>
    intro r s h hupd hlen
    have e := fwStageCommit_of_complete (s := taken r s) hupd hlen
    refine congrArg Host.Outcome.next ?_
    cases hk : manifestReason s.fw.bytes s.fw.bytes.length false (taken r s) with
    | none => exact serve_twice fwStageCommitService r s _ _ _ h (e.trans (by rw [show (taken r s).fw.bytes = s.fw.bytes from rfl, hk]; rfl))
    | some k => exact serve_twice fwStageCommitService r s _ _ _ h (e.trans (by rw [show (taken r s).fw.bytes = s.fw.bytes from rfl, hk]))
  case clearStaging =>
    exact fun r s h hupd => congrArg Host.Outcome.next (serve_done fwStageClearService r s _ _ _ h (fwStageClear_of_staging (s := taken r s) hupd))
  case clearNone =>
    exact fun r s h hupd => congrArg Host.Outcome.next (serve_done fwStageClearService r s _ _ _ h (fwStageClear_of_none (s := taken r s) hupd))
  case prepare =>
    exact fun r s m h hupd hm => congrArg Host.Outcome.next (serve_pend fwPrepareService r s _ _ h (fwPrepare_of_staged (s := taken r s) hupd hm))
  case prepared => exact fun id m s h hm hstep => ⟨_, rfl, fwPrepareDone_installs h hm hstep⟩
  case faulted => exact fun id k s h => ⟨_, rfl, fwPrepareDone_of_fault h⟩
  case switch =>
    exact fun tm s htm hupd hrun htok => ⟨_, congrArg Host.Outcome.next (microcodeSwitch_of_token htm hupd hrun htok), switchNow_fw _⟩
  case activate =>
    exact fun r s h hupd => ⟨_, congrArg (fun u => Host.Outcome.next (startPause u)) (serve_pend fwActivateService r s _ _ h
      (fwActivate_of_switched (s := taken r s) hupd)), rfl⟩
  case overrun => exact fun id t0 s hp hreq => congrArg Host.Outcome.next (pauseOverrun_of_pause hp hreq)
  case confirm =>
    exact fun r s m h hupd hm => congrArg Host.Outcome.next (serve_done fwConfirmService r s _ _ _ h (fwConfirm_of_trial (s := taken r s) hupd hm))
  case expiry => exact fun t0 s h => congrArg Host.Outcome.next (confirmExpiry_of_armed h)

end

section
/-! Bring-up (R435 to R453): one rule per step, from the core BIST to STAGE 0x09, then O17. -/

namespace Sys2Proof.Machine

/-! ### STAGE 0x03 to 0x05 -/

/-- The core islands that BIST finds bad, or that are still in reset. -/
def coreBad (failed : List Nat) (s : State) : List Nat :=
  ((List.range 6).map (fun k => 29 + k)).filter (fun i => failed.contains i || (isl s i).inReset)

theorem coreBad_addSramRepairs (failed repairs : List Nat) (s : State) : coreBad failed (addSramRepairs repairs s) = coreBad failed s :=
  addSramRepairs_keeps (coreBad failed) (by intros; rfl) repairs s

theorem mem_coreBad {failed : List Nat} {s : State} {i : Nat} :
    i ∈ coreBad failed s ↔ (29 ≤ i ∧ i < 35) ∧ (failed.contains i || (isl s i).inReset) = true := by
  rw [coreBad, List.mem_filter, List.mem_map]
  refine and_congr_left' ⟨?_, fun ⟨hlo, hhi⟩ => ⟨i - 29, List.mem_range.2 (by omega), by omega⟩⟩
  rintro ⟨k, hk, rfl⟩
  have := List.mem_range.1 hk
  omega

theorem coreBad_eq_nil {failed : List Nat} {s : State} (h : ∀ k, k < 6 → (isl s (29 + k)).inReset = false ∧ failed.contains (29 + k) = false) :
    coreBad failed s = [] :=
  filter_nil6 _ fun k hk => by rw [(h k hk).1, (h k hk).2]; rfl

theorem contains_coreBad_singleton {i j : Nat} {s : State} (hj : 29 ≤ j ∧ j < 35) (hrun : (isl s j).inReset = false) :
    (coreBad [i] s).contains j = (i == j) := by
  rw [Bool.eq_iff_iff, List.contains_iff_mem, mem_coreBad, hrun, Bool.or_false, and_iff_right hj,
    List.contains_iff_mem, List.mem_singleton, beq_iff_eq, eq_comm]

theorem secs_addSramRepairs (repairs : List Nat) (s : State) : secs (addSramRepairs repairs s) = secs s :=
  addSramRepairs_keeps secs (by intros; rfl) repairs s

theorem coreBist_eq {failed : List Nat} {res : CoreBistIn} {s : State} (hstage : s.boot.stage = 3) (hfail : s.boot.fail = 0) :
    coreBist failed res s = if !(coreBad failed s).isEmpty
      then { addSramRepairs res.repairs s with boot.fail := 0x82, boot.coreSound := !(coreBad failed s).contains 29 && !(coreBad failed s).contains 33 }
      else match res.proof with
        | none => proofPassed { addSramRepairs res.repairs s with safe.lastProof := secs s, boot.stage := 4, boot.jnlRead := res.journal }
        | some code => safetyFault code
            { addSramRepairs res.repairs s with safe.lastProof := secs s, boot.stage := 4, boot.jnlRead := res.journal } := by
  rw [← coreBad_addSramRepairs failed res.repairs s, ← secs_addSramRepairs res.repairs s]
  unfold coreBist
  exact if_neg (by simp [hstage, hfail])

/-- R436, R477: BIST finds no island. -/
theorem coreBist_sound {failed : List Nat} {res : CoreBistIn} {s : State} (hstage : s.boot.stage = 3) (hfail : s.boot.fail = 0)
    (h : ∀ k, k < 6 → (isl s (29 + k)).inReset = false ∧ failed.contains (29 + k) = false) :
    coreBist failed res s = match res.proof with
      | none => proofPassed { addSramRepairs res.repairs s with safe.lastProof := secs s, boot.stage := 4, boot.jnlRead := res.journal }
      | some code => safetyFault code
          { addSramRepairs res.repairs s with safe.lastProof := secs s, boot.stage := 4, boot.jnlRead := res.journal } := by
  rw [coreBist_eq hstage hfail, coreBad_eq_nil h]
  rfl

/-- R436, R453: BIST finds one island. -/
theorem coreBist_bad {i : Nat} {res : CoreBistIn} {s : State} (hstage : s.boot.stage = 3) (hfail : s.boot.fail = 0) (hi : 29 ≤ i ∧ i < 35) :
    coreBist [i] res s = { addSramRepairs res.repairs s with
      boot.fail := 0x82, boot.coreSound := !(coreBad [i] s).contains 29 && !(coreBad [i] s).contains 33 } := by
  have hmem : i ∈ coreBad [i] s := mem_coreBad.2 ⟨hi, by simp⟩
  rw [coreBist_eq hstage hfail, if_pos]
  cases hb : coreBad [i] s with
  | nil => exact absurd (hb ▸ hmem) List.not_mem_nil
  | cons => rfl

theorem coreSound_singleton {i : Nat} {s : State} (h29 : (isl s 29).inReset = false) (h33 : (isl s 33).inReset = false) :
    (!(coreBad [i] s).contains 29 && !(coreBad [i] s).contains 33) = (i != 29 && i != 33) := by
  rw [contains_coreBad_singleton (by omega) h29, contains_coreBad_singleton (by omega) h33]
  rfl

theorem pcieTrain_eq {w v : Nat} {s : State} (hlock : s.boot.synthLock = true) (hup : s.pcie.up = false) (hw : [1, 2, 4].contains w = true)
    (hv : [25, 50, 80, 160].contains v = true) :
    pcieTrain w v s = if w < 4 || v < 160 then record rcPcieWidth (le 2 w ++ le 2 v) { s with pcie := { s.pcie with up := true, width := w, speed := v } }
      else { s with pcie := { s.pcie with up := true, width := w, speed := v } } := by
  unfold pcieTrain
  rw [if_neg (by rw [hlock, hup, hw, hv]; decide)]

/-! ### DDR-4 training (R440, R441) -/

/-- What a cold start's training leaves before the soft repairs come back (R440). -/
def ranksTrained (ranks : List RankTrain) (s : State) : State :=
  { ranks.foldl (fun s r => rankRecord r s) s with
    mem.installedMiB := ((ranks.filter (fun r => r.failedStep.isNone)).map (fun r => r.mib)).sum,
    mem.ranks := ranks.foldl (fun t r => tset t r.rank { trained := r.failedStep.isNone }) [] }

theorem ddrTrain_cold {ranks : List RankTrain} {s : State} (hstage : s.boot.stage = 4) (hfail : s.boot.fail = 0) (hr : s.mem.ranks = []) :
    ddrTrain ranks s = if (reapplyRepairs (ranksTrained ranks s)).mem.installedMiB < 4096
      then islandFault 32 0 { reapplyRepairs (ranksTrained ranks s) with boot.fail := 0x83 }
      else { reapplyRepairs (ranksTrained ranks s) with boot.stage := 5 } := by
  unfold ddrTrain
  rw [if_neg (by simp [hstage, hfail]), hr]
  rfl

theorem ddrTrain_warm {ranks : List RankTrain} {s : State} (hstage : s.boot.stage = 4) (hfail : s.boot.fail = 0) (hr : s.mem.ranks ≠ [])
    (hmem : 4096 ≤ s.mem.installedMiB) : ddrTrain ranks s = { reapplyRepairs s with boot.stage := 5 } := by
  unfold ddrTrain
  rw [if_neg (by simp [hstage, hfail])]
  simp only [List.isEmpty_iff, hr, if_false]
  exact if_neg (Nat.not_lt.2 hmem)

/-- R441: below 4 GiB the engine enters DRAM_FAILED, and the memory island's fault bit is set. -/
theorem ddrTrain_cold_effects {ranks : List RankTrain} {s : State} (hstage : s.boot.stage = 4) (hfail : s.boot.fail = 0) (hr : s.mem.ranks = []) :
    (ddrTrain ranks s).mem.installedMiB = ((ranks.filter (fun r => r.failedStep.isNone)).map (fun r => r.mib)).sum ∧
      ((ddrTrain ranks s).mem.installedMiB < 4096 → (ddrTrain ranks s).boot.fail = 0x83 ∧ (isl (ddrTrain ranks s) 32).fault = true) ∧
      (4096 ≤ (ddrTrain ranks s).mem.installedMiB → (ddrTrain ranks s).boot.stage = 5 ∧ (ddrTrain ranks s).boot.fail = 0) := by
  have hboot : (reapplyRepairs (ranksTrained ranks s)).boot = s.boot :=
    (reapplyRepairs_keeps State.boot (by intros; rfl) _).trans (rankRecord_fold ranks s)
  have hinst : (reapplyRepairs (ranksTrained ranks s)).mem.installedMiB =
      ((ranks.filter (fun r => r.failedStep.isNone)).map (fun r => r.mib)).sum := rfl
  rw [ddrTrain_cold hstage hfail hr]
  generalize reapplyRepairs (ranksTrained ranks s) = u at *
  by_cases hlow : u.mem.installedMiB < 4096
  · rw [if_pos hlow]
    have hmem : (islandFault 32 0 { u with boot.fail := 0x83 }).mem = u.mem := islandFault_keeps State.mem (by intros; rfl) _ _ _
    have hb : (islandFault 32 0 { u with boot.fail := 0x83 }).boot.fail = 0x83 :=
      islandFault_keeps (fun w => w.boot.fail) (by intros; rfl) _ _ _
    have hf : (isl (islandFault 32 0 { u with boot.fail := 0x83 }) 32).fault = true := by
      unfold islandFault
      rw [raise_keeps (fun w => isl w 32) (by intros; rfl), setIsl_isl]
    rw [hmem]
    exact ⟨hinst, fun _ => ⟨hb, hf⟩, fun hge => absurd hlow (Nat.not_lt.2 hge)⟩
  · rw [if_neg hlow]
    exact ⟨hinst, fun h => absurd h hlow, fun _ => ⟨rfl, (congrArg Boot.fail hboot).trans hfail⟩⟩

/-! ### The start scan and the training of ports -/

theorem startScanReplay_of_fail {s : State} (h : s.boot.fail ≠ 0) : startScanReplay s = startScan s := by
  unfold startScanReplay
  rw [if_pos (by simpa using h)]

theorem startScanReplay_of_stage {s : State} (hfail : s.boot.fail = 0) (hstage : s.boot.stage = 5) (hrun : s.boot.stageRun = 0) :
    startScanReplay s = portsTrained { (List.range 8).foldl (fun s p =>
      setRf p (fun x => if trainable s p then { setRfState .disabled x with training := true } else setRfState .absent x) s)
        (replayJournal (startScan s)) with boot.stage := 6 } := by
  unfold startScanReplay
  rw [if_neg (by simp [hfail]), if_neg (by simp [hstage, hrun])]

theorem rfTrain_of_owed {p : Nat} {s : State} (hp : p < 8) (ht : (rfp s p).training = true) (hrun : (rfp s p).trainRun = false)
    (hok : trainable s p = true) : rfTrain p s = spiOut p [(true, 0, 0)]
      (setRf p (fun x => { x with trainRun := true, rfrstN := true, rxenN := true, txenN := true, paenN := true }) s) := by
  unfold rfTrain
  rw [if_pos (by simp [hp, ht, hrun, hok])]

theorem rfTrainEnd_eq {p : Nat} {res : TrainIn} {x : TrainRec} {io : List (Bool × Nat × Nat)} {s : State} (hp : p < 8)
    (hrun : (rfp s p).trainRun = true)
    (hout : (if res.magicSeen then runSteps res.tries 1 1 {} [] else some ({ result := 1 }, [])) = some (x, io)) :
    rfTrainEnd p res s = dprstDone (portsTrained (noteCaps s
      (if x.result = 0 then trainOk p { x with endTime := s.now } io s else trainFail p { x with endTime := s.now } io s))) := by
  unfold rfTrainEnd
  rw [if_neg (by simp [hp, hrun]), hout]

/-- R446, R447: the port that never answers is absent, with NOT_FITTED. -/
theorem rfTrainEnd_silent {p : Nat} {tries : List TrainTry} {s : State} (hp : p < 8) (hrun : (rfp s p).trainRun = true)
    (hgoal : portGoal s p ≠ .awaitTc) : rfp (rfTrainEnd p { magicSeen := false, tries := tries } s) p =
      { setRfState .absent (rfp s p) with train := { ({ result := 1 } : TrainRec) with endTime := s.now }, training := false, trainRun := false } := by
  rw [rfTrainEnd_eq (x := { result := 1 }) (io := []) hp hrun rfl, rfEnd_rfp, if_neg (by decide), trainFail_rfp _ _ _ _ hgoal]

/-- R445, R447: the port that passes every step takes the state it is wanted in. -/
theorem rfTrainEnd_passed {p : Nat} {tries : List TrainTry} {x : TrainRec} {io : List (Bool × Nat × Nat)} {s : State} (hp : p < 8)
    (hrun : (rfp s p).trainRun = true) (hsteps : runSteps tries 1 1 {} [] = some (x, io)) (hres : x.result = 0)
    (hrx : (rfp s p).state ≠ .receiving) (htx : (rfp s p).state ≠ .transmitting) :
    rfp (rfTrainEnd p { magicSeen := true, tries := tries } s) p = { setRfState (portGoal s p) (rfp s p) with
      train := { x with endTime := s.now }, training := false, trainRun := false, seq := none, errAt := [] } := by
  rw [rfTrainEnd_eq (res := ⟨true, tries⟩) hp hrun hsteps, rfEnd_rfp, if_pos hres, trainOk_rfp _ _ _ _ hrx htx]

/-! ### STAGE 0x07 and 0x08 -/

theorem plcOffsetCal_of_stage {offsets : List (Nat × Int × Int)} {s : State} (hstage : s.boot.stage = 7) (hrun : s.boot.stageRun = 0) :
    plcOffsetCal offsets s = { (List.range 16).foldl (fun s q => plcOffset offsets q s) s with boot.stage := 8 } := by
  unfold plcOffsetCal
  rw [if_neg (by simp [hstage, hrun])]

/-- R450: an offset within 512 steps is the port's, and the port is there. -/
theorem plcp_plcOffset {offsets : List (Nat × Int × Int)} {rx tx : Int} {q : Nat} {s : State}
    (hfind : offsets.find? (fun e => e.1 == q) = some (q, rx, tx)) (hup : islUp s (islPlc q) = true) (hin : islExcluded s (islPlc q) = false)
    (hrx : rx.natAbs ≤ 512) : (plcp (plcOffset offsets q s) q).state = .disabled ∧ (plcp (plcOffset offsets q s) q).cal.rxOff = rx ∧
      (plcp (plcOffset offsets q s) q).cal.status = 0 := by
  unfold plcOffset
  rw [if_neg (by simp [hup, hin]), hfind]
  dsimp only [Option.getD]
  rw [raiseIf_keeps (fun u => plcp u q) (by intros; rfl), setPlc_plcp, if_pos (by simpa using hrx)]
  exact ⟨rfl, rfl, rfl⟩

theorem workingLanes_mapLanes (s : State) : workingLanes (mapLanes s) = workingLanes s := rfl

/-- R436, R452: bring-up ends, with the logical lanes mapped. -/
theorem dataplaneBist_of_stage {bad badLanes repairs : List Nat} {s : State} (hstage : s.boot.stage = 8) (hrun : s.boot.stageRun = 0) :
    (dataplaneBist bad badLanes repairs s).boot.stage = 9 ∧ (dataplaneBist bad badLanes repairs s).evt.pend.getLsbD 0x13 = true ∧
      (dataplaneBist bad badLanes repairs s).laneCount = logicalCount (workingLanes (dataplaneBist bad badLanes repairs s)).length := by
  unfold dataplaneBist
  rw [if_neg (by simp [hstage, hrun])]
  dsimp only
  generalize raiseIf _ 0xB2 _ = u
  refine ⟨?_, raise_set _ _ (by decide) (by decide), ?_⟩
  · rw [raise_keeps (fun w => w.boot.stage) (by intros; rfl)]
  · rw [raise_keeps State.laneCount (by intros; rfl), raise_keeps workingLanes (by intros; rfl)]
    exact congrArg (fun l => logicalCount l.length) (workingLanes_mapLanes u).symm

theorem trainReportGet_of_legal {r : Req} {s : State} (hp : rd r.payload 0 1 ≤ 7) (hz : zeroAt r.payload 1 3 = true) :
    trainReportGet r s = replyOk s (trainReport (rd r.payload 0 1) (rfp s (rd r.payload 0 1)).train) := by
  unfold trainReportGet
  dsimp only
  rw [if_neg (by simpa [hz] using hp)]

end Sys2Proof.Machine

open Sys2Proof Sys2Proof.Machine

/-- Settles O17 (log 123: where bring-up has stopped the start scan only opens the recorder; log 134: the journal cells that a core BIST finds
changed are an operand, kept for the replay). -/
theorem bringupEffects : Obligations.BringupEffects := by
  unfold Obligations.BringupEffects
  refine ⟨?core, ?coreProofFails, ?coreFails, ?pcieFull, ?pcieBelow, ?ddrCold, ?ddrWarm, ?scanStopped, ?scan, ?train, ?silent, ?passed, ?offsets,
    ?offset, ?dataplane, ?report⟩
  case core =>
    exact fun reps j s hstage hfail h => congrArg Host.Outcome.next (coreBist_sound (res := ⟨none, reps, j⟩) hstage hfail fun k hk => ⟨h k hk, rfl⟩)
  case coreProofFails =>
    exact fun failed code reps j s hstage hfail h => congrArg Host.Outcome.next (coreBist_sound (res := ⟨some code, reps, j⟩) hstage hfail h)
  case coreFails =>
    intro i res s hstage hfail hlo hhi
    have hboot : (addSramRepairs res.repairs s).boot = s.boot := addSramRepairs_keeps State.boot (by intros; rfl) _ _
    exact ⟨_, congrArg Host.Outcome.next (coreBist_bad hstage hfail ⟨hlo, hhi⟩), rfl, (congrArg Boot.stage hboot).trans hstage,
      coreSound_singleton⟩
  case pcieFull => exact fun s hlock hup => congrArg Host.Outcome.next ((pcieTrain_eq hlock hup (by decide) (by decide)).trans (if_neg (by decide)))
  case pcieBelow =>
    exact fun w v s hlock hup hw hv hlow => congrArg Host.Outcome.next ((pcieTrain_eq hlock hup hw hv).trans (if_pos (by simpa using hlow)))
  case ddrCold => exact fun ranks s hstage hfail hr => ⟨_, rfl, ddrTrain_cold_effects hstage hfail hr⟩
  case ddrWarm => exact fun ranks s hstage hfail hr hmem => congrArg Host.Outcome.next (ddrTrain_warm hstage hfail hr hmem)
  case scanStopped => exact fun s h => congrArg Host.Outcome.next (startScanReplay_of_fail h)
  case scan => exact fun s hfail hstage hrun => congrArg Host.Outcome.next (startScanReplay_of_stage hfail hstage hrun)
  case train => exact fun p s hp ht hrun hok => congrArg Host.Outcome.next (rfTrain_of_owed hp ht hrun hok)
  case silent =>
    intro p tries s hp hrun hgoal
    have e := rfTrainEnd_silent (tries := tries) hp hrun hgoal
    exact ⟨_, rfl, congrArg RfPort.state e, congrArg (fun x => x.train.result) e, congrArg (fun x => x.train.endTime) e, congrArg RfPort.training e⟩
  case passed =>
    intro p tries x io s hp hrun hsteps hres hrx htx
    have e := rfTrainEnd_passed hp hrun hsteps hres hrx htx
    exact ⟨_, rfl, congrArg RfPort.state e, congrArg RfPort.train e, congrArg RfPort.training e⟩
  case offsets => exact fun offsets s hstage hrun => congrArg Host.Outcome.next (plcOffsetCal_of_stage hstage hrun)
  case offset => exact fun offsets rx tx q s hfind hup hin hrx => plcp_plcOffset hfind hup hin hrx
  case dataplane => exact fun bad lanes s hstage hrun => ⟨_, rfl, dataplaneBist_of_stage hstage hrun⟩
  case report =>
    exact fun r s h hp hz => congrArg Host.Outcome.next (serve_done trainReportGetService r s _ _ _ h (trainReportGet_of_legal (s := taken r s) hp hz))

end

section
/-! Rotation, lane tests, island BIST and the maintenance arbiter (R481 to R492): one rule per command, then O23. -/

namespace Sys2Proof.Machine

/-! ### Steps of the rotation (R481 to R484) -/

theorem startShadow_of_spare {k l j : Nat} {s : State} (h : lowestSpare s = some j) :
    startShadow k l s = setRole j (.shadow l) { s with rot.lane := some k, rot.shadow := some (j, l), rot.shadowAt := some s.mono } := by
  unfold startShadow
  rw [h]

/-- A step that is due and has its token runs on the next lane of the rotation. -/
theorem rotationStep_of_due {k : Nat} {s u : State} (hlane : s.rot.lane = none) (hon : pval s 0xB001 = 1) (hcount : s.laneCount ≠ 0)
    (hup : islUp s islControl = true)
    (hu : u = askToken .lr { pacedAt s.rot.stepAt (tMs 2900) (tMs 3100) s with rot.stepAt := some (pacedAt s.rot.stepAt (tMs 2900) (tMs 3100) s).mono })
    (htok : holds .lr u = true) (hnext : nextLane u = some k) :
    rotationStep s = match roleOf u k with
      | .serving l => if (lowestSpare u).isNone then stepOver u else startShadow k l u
      | _ => setRole k .underTest { u with rot.lane := some k } := by
  unfold rotationStep
  rw [hlane]
  dsimp only
  rw [if_neg (by simp [hon, hcount, hup]), ← hu, if_neg (by simp [htok]), hnext] <;> rfl

theorem rotationStep_serving {k l j : Nat} {s u : State} (hlane : s.rot.lane = none) (hon : pval s 0xB001 = 1) (hcount : s.laneCount ≠ 0)
    (hup : islUp s islControl = true)
    (hu : u = askToken .lr { pacedAt s.rot.stepAt (tMs 2900) (tMs 3100) s with rot.stepAt := some (pacedAt s.rot.stepAt (tMs 2900) (tMs 3100) s).mono })
    (htok : holds .lr u = true) (hnext : nextLane u = some k) (hrole : roleOf u k = .serving l) (hspare : lowestSpare u = some j) :
    rotationStep s = setRole j (.shadow l) { u with rot.lane := some k, rot.shadow := some (j, l), rot.shadowAt := some u.mono } := by
  rw [rotationStep_of_due hlane hon hcount hup hu htok hnext, hrole, ← startShadow_of_spare hspare]
  exact if_neg (by simp [hspare])

theorem rotationStep_spare {k : Nat} {s u : State} (hlane : s.rot.lane = none) (hon : pval s 0xB001 = 1) (hcount : s.laneCount ≠ 0)
    (hup : islUp s islControl = true)
    (hu : u = askToken .lr { pacedAt s.rot.stepAt (tMs 2900) (tMs 3100) s with rot.stepAt := some (pacedAt s.rot.stepAt (tMs 2900) (tMs 3100) s).mono })
    (htok : holds .lr u = true) (hnext : nextLane u = some k) (hrole : roleOf u k = .spare) :
    rotationStep s = setRole k .underTest { u with rot.lane := some k } := by
  rw [rotationStep_of_due hlane hon hcount hup hu htok hnext, hrole]

/-- R484: a step whose shadow failed begins its shadow again. -/
theorem rotationStep_again {k l j : Nat} {s : State} (hlane : s.rot.lane = some k) (hrole : roleOf s k = .serving l) (hsh : s.rot.shadow = none)
    (hspare : lowestSpare s = some j) :
    rotationStep s = setRole j (.shadow l) { s with rot.lane := some k, rot.shadow := some (j, l), rot.shadowAt := some s.mono } := by
  unfold rotationStep
  rw [hlane]
  dsimp only
  rw [hrole, hsh]
  exact startShadow_of_spare hspare

/-- What the handover finds: the instant 1 ms after the shadow began. -/
def shadowReady (s : State) : State :=
  match s.rot.shadowAt with
  | some t => advMono (t + tMs 1) s
  | none => s

theorem rotationHandover_of_idle {k j l : Nat} {s : State} (hlane : s.rot.lane = some k) (hsh : s.rot.shadow = some (j, l))
    (hidle : (lane s l).rx = .idle) : rotationHandover s =
      setRole k .underTest (setRole j (.serving l) { shadowReady s with rot.shadow := none, rot.shadowAt := none }) := by
  unfold rotationHandover
  rw [hlane, hsh]
  dsimp only
  rw [if_pos (by rw [hidle]; rfl)]
  rfl

/-- R481: after the handover the shadow serves and the old lane is under test. -/
theorem rotationHandover_roles {k j l : Nat} {s : State} (hlane : s.rot.lane = some k) (hsh : s.rot.shadow = some (j, l))
    (hidle : (lane s l).rx = .idle) (hjk : j ≠ k) :
    roleOf (rotationHandover s) j = .serving l ∧ roleOf (rotationHandover s) k = .underTest ∧ (rotationHandover s).rot.shadow = none := by
  rw [rotationHandover_of_idle hlane hsh hidle]
  refine ⟨?_, ?_, rfl⟩
  · exact (tget_tset_other _ _ _ hjk).trans (tget_tset_same _ _ _ _)
  · exact tget_tset_same _ _ _ _

/-! ### Lane tests (R482) -/

theorem laneTestEnd_of_test {pass : Bool} {k : Nat} {s : State} (hlane : s.rot.lane = some k) (hsh : s.rot.shadow = none)
    (hrole : roleOf s k = .underTest) : laneTestEnd pass s =
      if pass then fillLanes (stepDone k (setRole k .spare s))
      else if !s.rot.retest then { s with rot.retest := true, rot.testFails := s.rot.testFails + 1 }
      else stepDone k (excludeLane k { s with rot.testFails := s.rot.testFails + 1 }) := by
  unfold laneTestEnd
  rw [hlane]
  dsimp only
  rw [hsh]
  dsimp only
  rw [if_neg (by simp [hrole])]

/-! ### Islands after a reset (R485 to R487) -/

theorem islandBistEnd_of_due {i : Nat} {pass : Bool} {repairs : List Nat} {s : State} (hi : i ≤ 28) (hdue : (isl s i).bistDue = true)
    (hrun : (isl s i).inReset = false) : islandBistEnd i pass repairs s =
      if !pass then excludeIsland i causeTest 3 (setIsl i (fun x => { x with bistDue := false }) (addSramRepairs repairs s))
      else if i ≤ 16 then laneIslandUp i (setIsl i (fun x => { x with bistDue := false }) (addSramRepairs repairs s))
      else if i ≤ 24 then setIsl i (fun x => { x with bistDue := false }) (addSramRepairs repairs s)
      else (List.range 4).foldl (fun s k =>
        let q := 4 * (i - 25) + k
        if plcEnabled s q && (plcp s q).present && (plcp s q).state != .fault then startCal q s else s)
          (setIsl i (fun x => { x with bistDue := false }) (addSramRepairs repairs s)) := by
  unfold islandBistEnd
  rw [if_neg (by simp [hdue, hrun, hi])]

/-! ### Reports and the arbiter (R488 to R492) -/

theorem laneMapGet_of_legal {r : Req} {s : State} (h : rd r.payload 0 2 + rd r.payload 2 2 ≤ 272) :
    laneMapGet r s = replyOk s ((List.range (rd r.payload 2 2)).map (fun i =>
      roleBytes (if laneWorks s (rd r.payload 0 2 + i) then roleOf s (rd r.payload 0 2 + i) else .excluded))).flatten := by
  unfold laneMapGet
  exact if_neg (by omega)

theorem repairLedgerGet_of_legal {r : Req} {s : State} (hpos : 0 < rd r.payload 2 2) (hmax : rd r.payload 2 2 ≤ 256)
    (hlen : rd r.payload 0 2 + rd r.payload 2 2 ≤ s.life.repair.length) :
    repairLedgerGet r s = replyOk s (le 2 s.life.repair.length ++ le 2 0 ++
      (((s.life.repair.drop (rd r.payload 0 2)).take (rd r.payload 2 2)).map repairBytes).flatten) := by
  unfold repairLedgerGet
  dsimp only
  rw [if_neg (by omega), if_neg (by omega), if_neg (by omega)]

/-- R490: an activity of no instant of its own asks for its token. -/
theorem maintGrant_of_plain {n : Nat} {a : Act} {s : State} (hact : actOf n = some a) (hma : a ≠ .ma) (hes : a ≠ .es)
    (hup : (isl s 29).inReset = false) (hh : holds a s = false) (hw : wants a s = true) :
    maintGrant n s = if grantable a s then (if a = .rh then { giveToken a s with dir.rehash := 2 } else giveToken a s)
      else if s.maint.waiting.contains a then s else { s with maint.waiting := s.maint.waiting ++ [a] } := by
  unfold maintGrant
  rw [hact]
  dsimp only
  rw [if_neg (by rw [hup, hh, hw]; decide)]
  cases a with
  | ma => exact absurd rfl hma
  | es => exact absurd rfl hes
  | sr => rfl
  | lr => rfl
  | rh => rfl
  | kr => rfl
  | br => rfl

/-- R388, R490: an eNVM scrub pass begins at its instant. -/
theorem maintGrant_scrub {s u : State} (hup : (isl s 29).inReset = false) (hh : holds .es s = false) (hw : wants .es s = true)
    (hu : u = roundAt s.maint.scrubAt (86400 * pval s 0x9000) s) (hg : grantable .es u = true) :
    maintGrant 6 s = { giveToken .es u with maint.scrubAt := some u.mono } := by
  unfold maintGrant
  rw [show actOf 6 = some .es from rfl]
  dsimp only
  rw [if_neg (by rw [hup, hh, hw]; decide), ← hu, if_pos hg]
  rfl

/-- R462, R490: the microcode activation holds its token from 60 s before T_m (log 130). -/
theorem maintGrant_microcode {tm : Nat} {s : State} (hup : (isl s 29).inReset = false) (hh : holds .ma s = false) (hw : wants .ma s = true)
    (htm : s.fw.tm = some tm) (hg : grantable .ma (advTo (tSec (tm - 60)) s) = true) :
    maintGrant 0 s = giveToken .ma (advTo (tSec (tm - 60)) s) := by
  unfold maintGrant
  rw [show actOf 0 = some .ma from rfl]
  dsimp only
  rw [if_neg (by rw [hup, hh, hw]; decide), htm]
  dsimp only
  rw [if_pos hg]
  rfl

theorem balRerun_of_legal {r : Req} {s : State} (hz : zeroAt r.payload 2 2 = true) (hok : rerunOk s (rd r.payload 0 2) (rd r.payload 4 4) = true) :
    balRerun r s = if busyFor .br s then refuse s .busyMaint
      else .twice (postRevision (rd r.payload 0 2) (rd r.payload 4 4) true s) .ok
        (le 4 (postRevision (rd r.payload 0 2) (rd r.payload 4 4) true s).bal.seq) := by
  unfold balRerun
  dsimp only
  rw [if_neg (by simp [hz, hok])]

end Sys2Proof.Machine

open Sys2Proof Sys2Proof.Machine

/-- Settles O23 (log 27: BAL_RERUN posts its revision and releases its token in one step; log 41: the cause bytes of the repair ledger). -/
theorem rotationEffects : Obligations.RotationEffects := by
  unfold Obligations.RotationEffects
  refine ⟨?serving, ?spare, ?again, ?handover, ?passes, ?failsOnce, ?failsTwice, ?late, ?laneIsland, ?channeliser, ?sramRepair, ?islandFails,
    ?laneMap, ?ledger, ?status, ?granted, ?waits, ?scrub, ?microcode, ?maint, ?rerun, ?rerunBusy⟩
  case serving =>
    exact fun k l j s u hlane hon hc hup hu htok hn hr hj => congrArg Host.Outcome.next (rotationStep_serving hlane hon hc hup hu htok hn hr hj)
  case spare =>
    exact fun k s u hlane hon hc hup hu htok hn hr => congrArg Host.Outcome.next (rotationStep_spare hlane hon hc hup hu htok hn hr)
  case again => exact fun k l j s hlane hr hsh hj => congrArg Host.Outcome.next (rotationStep_again hlane hr hsh hj)
  case handover => exact fun k j l s hlane hsh hidle hjk => ⟨_, rfl, rotationHandover_roles hlane hsh hidle hjk⟩
  case passes => exact fun k s hlane hsh hr => congrArg Host.Outcome.next ((laneTestEnd_of_test hlane hsh hr).trans (if_pos rfl))
  case failsOnce =>
    intro k s hlane hsh hr hre
    refine congrArg Host.Outcome.next ((laneTestEnd_of_test hlane hsh hr).trans ((if_neg Bool.false_ne_true).trans ?_))
    rw [hre]
    exact if_pos rfl
  case failsTwice =>
    intro k s hlane hsh hr hre
    refine congrArg Host.Outcome.next ((laneTestEnd_of_test hlane hsh hr).trans ((if_neg Bool.false_ne_true).trans ?_))
    rw [hre]
    exact if_neg Bool.false_ne_true
  case late => exact fun k s hk hw hc hst hl => ⟨_, rfl, late_ok k s hk hw hc hst hl⟩
  case laneIsland =>
    exact fun i s hi hdue hrun => congrArg Host.Outcome.next ((islandBistEnd_of_due (by omega) hdue hrun).trans
      ((if_neg Bool.false_ne_true).trans (if_pos hi)))
  case channeliser =>
    exact fun i s hlo hhi hdue hrun => congrArg Host.Outcome.next ((islandBistEnd_of_due (by omega) hdue hrun).trans
      ((if_neg Bool.false_ne_true).trans ((if_neg (by omega)).trans (if_pos hhi))))
  case sramRepair =>
    exact fun i o s hi hdue hrun => congrArg Host.Outcome.next ((islandBistEnd_of_due (by omega) hdue hrun).trans
      ((if_neg Bool.false_ne_true).trans (if_pos hi)))
  case islandFails =>
    exact fun i s hi hdue hrun => congrArg Host.Outcome.next ((islandBistEnd_of_due hi hdue hrun).trans (if_pos rfl))
  case laneMap =>
    exact fun r s h hlen => congrArg Host.Outcome.next (serve_done laneMapGetService r s _ _ _ h (laneMapGet_of_legal (s := taken r s) hlen))
  case ledger =>
    exact fun r s h hpos hmax hlen => congrArg Host.Outcome.next (serve_done repairLedgerGetService r s _ _ _ h
      (repairLedgerGet_of_legal (s := taken r s) hpos hmax hlen))
  case status => exact fun r s h => congrArg Host.Outcome.next (serve_done rotationStatusGetService r s _ _ _ h rfl)
  case granted =>
    exact fun n a s hact hma hes hup hh hw hg => congrArg Host.Outcome.next ((maintGrant_of_plain hact hma hes hup hh hw).trans (if_pos hg))
  case waits =>
    exact fun n a s hact hma hes hup hh hw hg hwait => congrArg Host.Outcome.next ((maintGrant_of_plain hact hma hes hup hh hw).trans
      ((if_neg (ne_true_of_eq_false hg)).trans (if_neg (ne_true_of_eq_false hwait))))
  case scrub => exact fun s u hup hh hw hu hg => congrArg Host.Outcome.next (maintGrant_scrub hup hh hw hu hg)
  case microcode => exact fun tm s hup hh hw htm hg => congrArg Host.Outcome.next (maintGrant_microcode hup hh hw htm hg)
  case maint => exact fun r s h => congrArg Host.Outcome.next (serve_done maintStatusGetService r s _ _ _ h rfl)
  case rerun =>
    exact fun r s h hz hok hb => congrArg Host.Outcome.next (serve_twice balRerunService r s _ _ _ h
      ((balRerun_of_legal (s := taken r s) hz hok).trans (if_neg (ne_true_of_eq_false hb))))
  case rerunBusy =>
    exact fun r s h hz hok hb => congrArg Host.Outcome.next (serve_done balRerunService r s _ _ _ h
      ((balRerun_of_legal (s := taken r s) hz hok).trans (if_pos hb)))

end

section
/-! Diagnostics, proof tests, patrol scrub and soft repair (R475 to R479, R492, R213, R214, R232): one rule per command, then O24. -/

namespace Sys2Proof.Machine

/-! ### Diagnostics (R475, R476) -/

/-- A diagnostic is judged where its pacing brings it: the instant changes nothing that says whether the pair runs. -/
theorem pairRuns_pacedAt (last : Option Nat) (lo hi : Nat) (s : State) : pairRuns (pacedAt last lo hi s) = pairRuns s :=
  pacedAt_keeps pairRuns (by intros; rfl) last lo hi s

theorem diagnose_of_up {code : Nat} {s : State} (h : islUp s islControl = true) : diagnose true code s = safetyFault code s :=
  diagnose_at false code s h

theorem gateTest_of_up {pass : Bool} {s u : State} (h : islUp s islControl = true) (hu : u = pacedAt s.safe.gateTestAt (tUs 4500) (tUs 5500) s) :
    gateTest pass s = if pass then { u with safe.gateTestAt := some u.mono } else safetyFault 3 { u with safe.gateTestAt := some u.mono } := by
  have hrun : pairRuns u = true := hu ▸ (pairRuns_pacedAt _ _ _ s).trans h
  unfold gateTest
  rw [if_neg (by rw [show pairRuns s = true from h]; decide), ← hu]
  exact diagnose_at pass 3 _ hrun

theorem pairScrub_of_up {pass : Bool} {s u : State} (h : islUp s islControl = true) (hu : u = pacedAt s.safe.scrubAt (tMs 1) (tMs 1) s) :
    pairScrub pass s = if pass then { u with safe.scrubAt := some u.mono } else safetyFault 2 { u with safe.scrubAt := some u.mono } := by
  have hrun : pairRuns u = true := hu ▸ (pairRuns_pacedAt _ _ _ s).trans h
  unfold pairScrub
  rw [if_neg (by rw [show pairRuns s = true from h]; decide), ← hu]
  exact diagnose_at pass 2 _ hrun

/-- R475: the heartbeat's window is 1 ms to 3 ms. -/
theorem heartbeat_of_up {us : Nat} {s : State} (h : islUp s islControl = true) :
    heartbeat us s = if us < 1000 ∨ 3000 < us then safetyFault 8 s else s := by
  unfold heartbeat diagnose
  rw [show pairRuns s = true from h]
  simp only [Bool.true_and, Bool.or_eq_true, decide_eq_true_eq]

theorem safetyFault_of_armed {code : Nat} {s : State} (h : s.safe.state = .armed) :
    safetyFault code s = enterFault (if 2 ≤ (recentFaults s).length then .locked else .fault) code s := by
  unfold safetyFault
  rw [h]

/-- R476, R477: a fault in ARMED. -/
theorem safetyFault_opens {code : Nat} {s : State} (h : s.safe.state = .armed) (hfew : (recentFaults s).length < 2) :
    (safetyFault code s).safe.state = .fault ∧ (safetyFault code s).safe.safeOkN = true ∧ (safetyFault code s).safe.causes = [code] ∧
      (safetyFault code s).safe.due = none ∧ (safetyFault code s).evt.pend.getLsbD 0xB0 = true ∧
      (safetyFault code s).faultTimes = s.mono :: recentFaults s := by
  rw [safetyFault_of_armed h, if_neg (Nat.not_le.2 hfew)]
  exact enterFault_facts .fault code s

/-- R477: the third fault within 24 h. -/
theorem safetyFault_locks {code : Nat} {s : State} (h : s.safe.state = .armed) (hmany : 2 ≤ (recentFaults s).length) :
    (safetyFault code s).safe.state = .locked ∧ (safetyFault code s).safe.safeOkN = true ∧ (safetyFault code s).evt.pend.getLsbD 0xB0 = true := by
  rw [safetyFault_of_armed h, if_pos hmany]
  obtain ⟨hstate, hok, -, -, hevt, -⟩ := enterFault_facts .locked code s
  exact ⟨hstate, hok, hevt⟩

/-- R477: a rail that is the only cause starts a proof test. -/
theorem autoRecover_tests {at_ : Nat} {s : State} (hback : s.mon.backAt = some at_) (hstate : s.safe.state = .fault) (hcause : s.safe.causes = [9])
    (hout : s.mon.out = 0) (hproof : s.safe.proof = none) :
    (autoRecover s).safe = { s.safe with proof := some none } ∧ (autoRecover s).jnl = s.jnl := by
  obtain ⟨m, e⟩ := auto_eq at_ s hback hstate hcause hout hproof
  rw [e]
  dsimp only
  rw [advMono_keeps State.safe (by intros; rfl), advMono_keeps State.jnl (by intros; rfl)]
  exact ⟨rfl, rfl⟩

/-! ### Proof tests (R477, R478) -/

theorem proofPassed_of_fault {s : State} (h : s.safe.state = .fault) : proofPassed s = raise 0xB1 (setSafe .armed { s with safe.causes := [] }) := by
  unfold proofPassed
  rw [h]

/-- R477, R478: the state is ARMED again, with SAFE_OK_N low. -/
theorem proofPassed_arms {s : State} (h : s.safe.state = .fault) :
    (proofPassed s).safe = { s.safe with state := .armed, safeOkN := false, causes := [] } ∧ (proofPassed s).evt.pend.getLsbD 0xB1 = true := by
  rw [proofPassed_of_fault h]
  exact ⟨raise_keeps State.safe (by intros; rfl) _ _, raise_set _ _ (by decide) (by decide)⟩

theorem proofTestEnd_passes {s : State} (hproof : s.safe.proof = some none) :
    proofTestEnd none s = proofPassed { s with safe.proof := none, safe.lastProof := secs s } := by
  unfold proofTestEnd
  rw [hproof]

theorem proofTestEnd_answers {id : Nat} {s : State} (hproof : s.safe.proof = some (some id)) (hstate : s.safe.state = .fault) :
    proofTestEnd none s = finishOp id .ok [] (proofPassed { s with safe.proof := none, safe.lastProof := secs s }) := by
  have harm := (proofPassed_arms (s := { s with safe.proof := none, safe.lastProof := secs s }) hstate).1
  unfold proofTestEnd
  rw [hproof]
  exact if_pos (congrArg (·.state) harm)

theorem proofTestEnd_fails {id code : Nat} {s : State} (hproof : s.safe.proof = some (some id)) :
    proofTestEnd (some code) s =
      finishOp id .hwFault
        (faultSeq { s with safe.proof := none, safe.lastProof := secs s } (safetyFault code { s with safe.proof := none, safe.lastProof := secs s })).1
        (faultSeq { s with safe.proof := none, safe.lastProof := secs s } (safetyFault code { s with safe.proof := none, safe.lastProof := secs s })).2 := by
  unfold proofTestEnd
  rw [hproof]

theorem safetyClear_of_armed {id : Nat} {s : State} (h : s.safe.state = .armed) : safetyClear id s = replyOk s := by
  unfold safetyClear
  rw [h]

theorem safetyClear_of_locked {id : Nat} {s : State} (h : s.safe.state = .locked) : safetyClear id s = refuse s .badState := by
  unfold safetyClear
  rw [h]

theorem safetyClear_of_fault {id : Nat} {s : State} (h : s.safe.state = .fault) (hproof : s.safe.proof = none) :
    safetyClear id s = .pend { s with safe.proof := some (some id) } [.safety] := by
  unfold safetyClear
  rw [h]
  exact if_neg (by simp [hproof])

theorem safetyProofTest_of_armed {id : Nat} {s : State} (h : s.safe.state = .armed) (hproof : s.safe.proof = none) :
    safetyProofTest id s = .pend { s with safe.proof := some (some id) } [.safety] := by
  unfold safetyProofTest
  rw [if_neg (by simp [h]), if_neg (by simp [hproof])]

theorem safetyProofTest_refused {id : Nat} {s : State} (h : s.safe.state ≠ .armed) : safetyProofTest id s = refuse s .badState := by
  unfold safetyProofTest
  rw [if_pos (by simpa using h)]

/-! ### Patrol scrub and soft repair (R213, R214) -/

/-- A burst without a wrong symbol leaves the read as it was. -/
theorem scrub_clean {x : ScrubIn} {addr : Nat} {u : State} (hsyms : wrongSyms x.here = []) (haddr : x.here.wrongAddr = false) :
    (if uncorrectable u x.here then burstUe addr (uncorrectable u x.mirror) x.item u else noteCorrected addr x.here u) = u := by
  rw [uncorrectable_clean u x.here hsyms haddr, if_neg Bool.false_ne_true]
  unfold noteCorrected
  rw [hsyms]
  exact if_pos rfl

/-- R213: within a pass the position moves on by one burst. -/
theorem patrolScrub_within {x : ScrubIn} {s u v : State} (hsram : x.sram = .none) (hrun : (isl s 32).inReset = false)
    (hu : u = advMono (scrubDue s) s) (hpos : s.mem.scrubPos + 1 < burstCount s)
    (hv : v = if uncorrectable u x.here then burstUe (32 * s.mem.scrubPos) (uncorrectable u x.mirror) x.item u
      else noteCorrected (32 * s.mem.scrubPos) x.here u) :
    patrolScrub x s = { v with mem.scrubPos := s.mem.scrubPos + 1, mem.scrubFrom := some (s.mem.scrubFrom.getD u.mono) } := by
  rw [scrub_eq x s u hsram hrun hu (by omega), ← hv]
  exact if_neg (Nat.not_le.2 hpos)

/-- R213: the last burst ends the pass, and the next one begins when its period is over. -/
theorem patrolScrub_last {x : ScrubIn} {s u : State} (hsyms : wrongSyms x.here = []) (haddr : x.here.wrongAddr = false) (hsram : x.sram = .none)
    (hrun : (isl s 32).inReset = false) (hu : u = advMono (scrubDue s) s) (hpos : s.mem.scrubPos + 1 = burstCount s) :
    patrolScrub x s = { u with
      mem.scrubPos := 0, mem.scrubPasses := s.mem.scrubPasses + 1,
      mem.scrubFrom := some (max u.mono (s.mem.scrubFrom.getD u.mono + tSec (3600 * pval s 0xB800))) } := by
  have hmem : u.mem = s.mem := hu ▸ advMono_keeps State.mem (by intros; rfl) _ s
  rw [scrub_eq x s u hsram hrun hu (by omega), scrub_clean hsyms haddr, ← hmem]
  exact if_pos (by rw [hmem]; exact Nat.le_of_eq hpos.symm)

theorem softRepair_of_token {ok : Bool} {k row : Nat} {s : State} (hreq : s.mem.repairReq = some (k, row)) (htok : holds .sr s = true) :
    softRepair ok s = nextRepair (raise 0xBB (dropToken .sr (if (rank? s k).noPpr then s
      else if ok then repairRow k row s else setRank k (fun x => { x with noPpr := true }) s))) := by
  unfold softRepair
  rw [hreq]
  exact if_neg (by rw [htok]; decide)

theorem holds_dropToken (a : Act) (s : State) : holds a (dropToken a s) = false := by
  unfold holds dropToken
  rw [List.contains_eq_mem]
  simp

/-- R214: with no other row waiting a repair ends with its token released and event 0xBB. -/
theorem nextRepair_ends {s : State} (h : s.mem.repairWait = []) :
    nextRepair (raise 0xBB (dropToken .sr s)) = { raise 0xBB (dropToken .sr s) with mem.repairReq := none } :=
  nextRepair_none ((raise_keeps (fun u => u.mem.repairWait) (by intros; rfl) _ _).trans h)

theorem holds_afterRepair (s : State) : holds .sr { raise 0xBB (dropToken .sr s) with mem.repairReq := none } = false :=
  (raise_keeps (holds .sr) (by intros; rfl) 0xBB (dropToken .sr s)).trans (holds_dropToken .sr s)

/-- R214: a row is repaired and recorded (its object: log 91). -/
theorem softRepair_row {k row : Nat} {s : State} (hreq : s.mem.repairReq = some (k, row)) (htok : holds .sr s = true)
    (hppr : (rank? s k).noPpr = false) (hwait : s.mem.repairWait = []) :
    (softRepair true s).mem.repairReq = none ∧ holds .sr (softRepair true s) = false ∧ (softRepair true s).evt.pend.getLsbD 0xBB = true ∧
      (softRepair true s).life = (addRepair 4 1 (rowObj k row) s).life := by
  have hw : (repairRow k row s).mem.repairWait = [] := (addRepair_keeps (fun u => u.mem.repairWait) (by intros; rfl) _ _ _ s).trans hwait
  have e : softRepair true s = { raise 0xBB (dropToken .sr (repairRow k row s)) with mem.repairReq := none } := by
    rw [softRepair_of_token hreq htok, hppr, if_neg Bool.false_ne_true, if_pos rfl, nextRepair_ends hw]
  rw [e]
  exact ⟨rfl, holds_afterRepair _, raise_set 0xBB (dropToken .sr (repairRow k row s)) (by decide) (by decide),
    raise_keeps State.life (by intros; rfl) _ _⟩

/-- R214: a rank without a resource takes no further repair. -/
theorem softRepair_no_resource {k row : Nat} {s : State} (hreq : s.mem.repairReq = some (k, row)) (htok : holds .sr s = true)
    (hwait : s.mem.repairWait = []) : (softRepair false s).mem.repairReq = none ∧ (rank? (softRepair false s) k).noPpr = true ∧
      (softRepair false s).life = s.life := by
  rw [softRepair_of_token hreq htok]
  generalize hu : (if (rank? s k).noPpr then s else if false = true then repairRow k row s else setRank k (fun x => { x with noPpr := true }) s) = u
  have hfacts : u.mem.repairWait = [] ∧ (rank? u k).noPpr = true ∧ u.life = s.life := by
    subst hu
    cases hppr : (rank? s k).noPpr with
    | true => exact ⟨hwait, hppr, rfl⟩
    | false =>
      refine ⟨hwait, ?_, rfl⟩
      exact congrArg Rank.noPpr (tget_tupd_same s.mem.ranks k {} fun x => { x with noPpr := true })
  obtain ⟨hw, hno, hlife⟩ := hfacts
  rw [nextRepair_ends hw]
  refine ⟨rfl, ?_, ?_⟩
  · exact (raise_keeps (fun w => (rank? w k).noPpr) (by intros; rfl) 0xBB (dropToken .sr u)).trans hno
  · exact (raise_keeps State.life (by intros; rfl) 0xBB (dropToken .sr u)).trans hlife

end Sys2Proof.Machine

open Sys2Proof Sys2Proof.Machine

/-- Settles O24 (log 152: the instants of the scrub's bursts; log 91: the object of a soft repair). -/
theorem safetyAndMemoryEffects : Obligations.SafetyAndMemoryEffects := by
  unfold Obligations.SafetyAndMemoryEffects
  refine ⟨?pair, ?gate, ?sram, ?beat, ?opens, ?locks, ?recovers, ?arms, ?answers, ?fails, ?status, ?clearArmed, ?clearFault, ?clearLocked,
    ?testArmed, ?testRefused, ?clean, ?cleanLast, ?burst, ?repaired, ?noResource, ?memory⟩
  case pair => exact fun s h => ⟨congrArg Host.Outcome.next (diagnose_of_up h), congrArg Host.Outcome.next (diagnose_of_up h)⟩
  case gate => exact fun pass s u h hu => congrArg Host.Outcome.next (gateTest_of_up h hu)
  case sram => exact fun pass s u h hu => congrArg Host.Outcome.next (pairScrub_of_up h hu)
  case beat => exact fun us s h => congrArg Host.Outcome.next (heartbeat_of_up h)
  case opens => exact fun s h harm hfew => ⟨_, congrArg Host.Outcome.next (diagnose_of_up h), safetyFault_opens harm hfew⟩
  case locks => exact fun s h harm hmany => ⟨_, congrArg Host.Outcome.next (diagnose_of_up h), safetyFault_locks harm hmany⟩
  case recovers => exact fun at_ s hback hstate hcause hout hproof => ⟨_, rfl, autoRecover_tests hback hstate hcause hout hproof⟩
  case arms =>
    intro s hproof hstate
    obtain ⟨hsafe, hevt⟩ := proofPassed_arms (s := { s with safe.proof := none, safe.lastProof := secs s }) hstate
    exact ⟨_, congrArg Host.Outcome.next (proofTestEnd_passes hproof), congrArg (·.state) hsafe, congrArg (·.safeOkN) hsafe,
      congrArg (·.proof) hsafe, congrArg (·.causes) hsafe, hevt, congrArg (·.lastProof) hsafe⟩
  case answers => exact fun id s hproof hstate => congrArg Host.Outcome.next (proofTestEnd_answers hproof hstate)
  case fails => exact fun id code s hproof => congrArg Host.Outcome.next (proofTestEnd_fails hproof)
  case status => exact fun r s h => congrArg Host.Outcome.next (serve_done safetyStatusGetService r s _ _ _ h rfl)
  case clearArmed =>
    exact fun r s h hstate => congrArg Host.Outcome.next (serve_done safetyClearService r s _ _ _ h (safetyClear_of_armed (s := taken r s) hstate))
  case clearFault =>
    exact fun r s h hstate hproof => congrArg Host.Outcome.next (serve_pend safetyClearService r s _ _ h
      (safetyClear_of_fault (s := taken r s) hstate hproof))
  case clearLocked =>
    exact fun r s h hstate => congrArg Host.Outcome.next (serve_done safetyClearService r s _ _ _ h (safetyClear_of_locked (s := taken r s) hstate))
  case testArmed =>
    exact fun r s h hstate hproof => congrArg Host.Outcome.next (serve_pend safetyProofTestService r s _ _ h
      (safetyProofTest_of_armed (s := taken r s) hstate hproof))
  case testRefused =>
    exact fun r s h hstate => congrArg Host.Outcome.next (serve_done safetyProofTestService r s _ _ _ h
      (safetyProofTest_refused (s := taken r s) hstate))
  case clean =>
    exact fun x s u hsyms haddr hsram hrun hu hpos => congrArg Host.Outcome.next (patrolScrub_within hsram hrun hu hpos (scrub_clean hsyms haddr).symm)
  case cleanLast =>
    exact fun x s u hsyms haddr hsram hrun hu hpos => congrArg Host.Outcome.next (patrolScrub_last hsyms haddr hsram hrun hu hpos)
  case burst => exact fun x s u v hsram hrun hu hpos hv => congrArg Host.Outcome.next (patrolScrub_within hsram hrun hu hpos hv)
  case repaired => exact fun k row s hreq htok hppr hwait => ⟨_, rfl, softRepair_row hreq htok hppr hwait⟩
  case noResource => exact fun k row s hreq htok hwait => ⟨_, rfl, softRepair_no_resource hreq htok hwait⟩
  case memory => exact fun r s h => congrArg Host.Outcome.next (serve_done memStatusGetService r s _ _ _ h rfl)

end

section
/-! The key vault (R351 to R366): one rule per command and per operation behind it, then O26. -/

namespace Sys2Proof.Machine

/-! ### What usability depends on (R353, R355) -/

theorem kslot_congr {s t : State} (h : t.slots = s.slots) (n : Nat) : kslot t n = kslot s n := by
  unfold kslot
  rw [h]

theorem orphanIn_congr {s t : State} (h : t.slots = s.slots) (hb : t.boot = s.boot) : ∀ n x, orphanIn t n x = orphanIn s n x
  | 0, _ => rfl
  | n + 1, x => by
    unfold orphanIn
    rw [hb, kslot_congr h, orphanIn_congr h hb n]

theorem depthIn_congr {s t : State} (h : t.slots = s.slots) : ∀ n x, depthIn t n x = depthIn s n x
  | 0, _ => rfl
  | n + 1, x => by
    unfold depthIn
    rw [kslot_congr h, depthIn_congr h n]

theorem usable_congr {s t : State} (h : t.slots = s.slots) (hb : t.boot = s.boot) (n : Nat) : usable t n = usable s n := by
  unfold usable orphaned
  rw [kslot_congr h, orphanIn_congr h hb]

theorem chainOk_congr {s t : State} (h : t.slots = s.slots) (n : Nat) : chainOk t n = chainOk s n := by
  unfold chainOk slotDepth
  rw [kslot_congr h, depthIn_congr h]

/-! ### Uses (R352 to R355) -/

/-- The slot serves a usage as often as it is asked. -/
structure FreeUse (n mask : Nat) (s : State) : Prop where
  usable : usable s n = true
  usage : hasUsage (kslot s n) mask = true
  uncounted : (kslot s n).cntEn = false

theorem FreeUse.congr {n mask : Nat} {s t : State} (h : FreeUse n mask s) (hs : t.slots = s.slots) (hb : t.boot = s.boot) : FreeUse n mask t :=
  ⟨(usable_congr hs hb n).trans h.usable, by rw [kslot_congr hs]; exact h.usage, by rw [kslot_congr hs]; exact h.uncounted⟩

theorem FreeUse.taken {n mask : Nat} {s : State} (h : FreeUse n mask s) (r : Req) : FreeUse n mask (taken r s) := h.congr rfl rfl

theorem useSlot_of_usable {n mask : Nat} {s : State} (hu : usable s n = true) (hm : hasUsage (kslot s n) mask = true) :
    useSlot n mask s = if (kslot s n).cntEn = false then (s, some (kslot s n))
      else if (kslot s n).uses = 1 then ((destroySlot n (raise 0x81 (setSlot n { kslot s n with uses := 0 } s))).1, some (kslot s n))
      else (setSlot n { kslot s n with uses := (kslot s n).uses - 1 } s, some (kslot s n)) := by
  unfold useSlot
  dsimp only
  rw [if_neg (by simp [hu, hm])]
  simp only [Bool.not_eq_true']

theorem FreeUse.useSlot {n mask : Nat} {s : State} (h : FreeUse n mask s) : useSlot n mask s = (s, some (kslot s n)) := by
  rw [useSlot_of_usable h.usable h.usage, if_pos h.uncounted]

/-- R355: the slot is EMPTY under the next generation. -/
theorem destroySlot_generation {n : Nat} {s : State} (h : s.life.genCounter < 0xFFFFFFFE) :
    kslot (destroySlot n s).1 n = { gen := s.life.genCounter + 1 } ∧ (destroySlot n s).1.life.genCounter = s.life.genCounter + 1 := by
  have e : emptySlot n s = setSlot n { gen := s.life.genCounter + 1 } { s with life.genCounter := s.life.genCounter + 1 } := if_neg (by omega)
  unfold destroySlot
  dsimp only
  rw [raiseIf_keeps (fun u => kslot u n) (by intros; rfl), raiseIf_keeps (fun u => u.life.genCounter) (by intros; rfl), e]
  exact ⟨tget_tset_same _ _ _ _, rfl⟩

/-! ### Slots that commands make (R357 to R359) -/

/-- What a wrapped block opens to under its parent. -/
def openedBlock (parent : Nat) (wrapped : List Byte) (s : State) : Option (List Byte) :=
  if (kslot s parent).typ = 4 then Config.oaepOpen (kslot s parent).key wrapped else Config.keyUnwrapPad (kslot s parent).key wrapped

theorem unwrapBlock_of_parent {parent : Nat} {wrapped : List Byte} {s : State} (hp : parent < 4096) (htyp : (kslot s parent).typ ≠ 3)
    (huse : FreeUse parent uUnwrap s) : unwrapBlock parent wrapped s =
      match openedBlock parent wrapped s with
      | none => (authFailed s, none)
      | some b => (s, some b) := by
  unfold unwrapBlock openedBlock
  rw [if_neg (by omega), if_neg htyp, huse.useSlot] <;> rfl

theorem parentGen_of_slot {parent : Nat} {s : State} (h : parent < 4096) : parentGen s parent = (kslot s parent).gen := if_neg (by omega)

theorem qkLoad_of_legal {r : Req} {s : State} (hattr : attrOk (attrAt r.payload 4) (rd r.payload 0 2) = true) (hz7 : zeroAt r.payload 7 1 = true)
    (hz14 : zeroAt r.payload 14 2 = true) (hp : rd r.payload 2 2 < 4096) (hlo : 24 ≤ rd r.payload 12 2) (hhi : rd r.payload 12 2 ≤ 1376)
    (hchain : chainOk s (rd r.payload 2 2) = true) (htyp : (attrAt r.payload 4).typ ≠ 4) (hempty : (kslot s (rd r.payload 0 2)).typ = 0)
    (hmac : (kslot s (rd r.payload 2 2)).typ ≠ 3) (huse : FreeUse (rd r.payload 2 2) uUnwrap s) (hgen : genStuck s = false) :
    qkLoad r s = match openedBlock (rd r.payload 2 2) (r.payload.drop 16) s with
      | none => refuse (authFailed s) .authFail
      | some b => if slice b 0 16 != attrHeader (attrAt r.payload 4) || b.length != 16 + keySize (attrAt r.payload 4).typ
          then refuse (authFailed s) .authFail
          else replyOk (setSlot (rd r.payload 0 2) (newSlot (attrAt r.payload 4) (rd r.payload 2 2)
            (kslot s (rd r.payload 2 2)).gen (kslot s (rd r.payload 0 2)).gen (b.drop 16)) s) := by
  unfold qkLoad
  dsimp only
  rw [if_neg (by simp [hattr, hz7, hz14, hchain, htyp]; omega), if_neg (by simp [hempty]), unwrapBlock_of_parent hp hmac huse, parentGen_of_slot hp]
  cases openedBlock (rd r.payload 2 2) (r.payload.drop 16) s with
  | none => rfl
  | some b =>
    dsimp only
    rw [hgen, if_neg Bool.false_ne_true]

theorem qkDerive_of_legal {r : Req} {s : State} (hattr : attrOk (attrAt r.payload 4) (rd r.payload 0 2) = true)
    (htyp : (attrAt r.payload 4).typ ≠ 4) (hz7 : zeroAt r.payload 7 1 = true) (hz14 : zeroAt r.payload 14 2 = true) (hp : rd r.payload 2 2 < 4096)
    (hlen : rd r.payload 12 2 ≤ 64) (hchain : chainOk s (rd r.payload 2 2) = true) (hempty : (kslot s (rd r.payload 0 2)).typ = 0)
    (huse : FreeUse (rd r.payload 2 2) uDerive s) (hgen : genStuck s = false) :
    qkDerive r s = replyOk (setSlot (rd r.payload 0 2) (newSlot (attrAt r.payload 4) (rd r.payload 2 2)
      (kslot s (rd r.payload 2 2)).gen (kslot s (rd r.payload 0 2)).gen
      (kdf108 (kslot s (rd r.payload 2 2)).key (str "QUARTZ SLOT")
        (le 1 (attrAt r.payload 4).typ ++ le 1 (attrAt r.payload 4).usage ++ le 1 (attrAt r.payload 4).flags ++ r.payload.drop 16)
        (8 * keySize (attrAt r.payload 4).typ))) s) := by
  unfold qkDerive
  dsimp only
  rw [if_neg (by simp [hattr, hz7, hz14, hchain, htyp]; omega), if_neg (by simp [hempty]), if_neg (by omega), huse.useSlot]
  dsimp only
  rw [hgen, if_neg Bool.false_ne_true, parentGen_of_slot hp]

theorem qkGenerate_of_legal {r : Req} {s : State} (hattr : attrOk (attrAt r.payload 4) (rd r.payload 0 2) = true)
    (htyp : (attrAt r.payload 4).typ ≠ 4) (hz2 : zeroAt r.payload 2 2 = true) (hz7 : zeroAt r.payload 7 1 = true)
    (hempty : (kslot s (rd r.payload 0 2)).typ = 0) (hgen : genStuck s = false) (hok : secretOk s = true) :
    qkGenerate r s = replyOk (setSlot (rd r.payload 0 2) (newSlot (attrAt r.payload 4) 0xFFFF 0
      (kslot s (rd r.payload 0 2)).gen (slice (draw s).1 0 (keySize (attrAt r.payload 4).typ))) (draw s).2) := by
  unfold qkGenerate
  dsimp only
  rw [if_neg (by simp [hattr, hz2, hz7, htyp]), if_neg (by simp [hempty]), hgen, if_neg Bool.false_ne_true, hok]
  rfl

theorem qkDestroy_of_legal {r : Req} {s : State} (hslot : rd r.payload 0 2 < 4096) (hz : zeroAt r.payload 2 2 = true)
    (hused : (kslot s (rd r.payload 0 2)).typ ≠ 0) :
    qkDestroy r s = replyOk (destroySlot (rd r.payload 0 2) s).1 (le 4 (destroySlot (rd r.payload 0 2) s).2) := by
  unfold qkDestroy
  dsimp only
  rw [if_neg (by simp [hz, hslot]), if_neg hused]

theorem qkSlotGet_of_legal {r : Req} {s : State} (hmax : rd r.payload 2 2 ≤ 256) (hend : rd r.payload 0 2 + rd r.payload 2 2 ≤ 4096) :
    qkSlotGet r s = replyOk s (((List.range (rd r.payload 2 2)).map (fun i => slotRecord s (rd r.payload 0 2 + i))).flatten) := by
  unfold qkSlotGet
  dsimp only
  rw [if_neg (by simp; omega)]

/-! ### Endpoint blobs (R361 to R363) -/

/-- R361: a batch of one entry. -/
theorem qkEpLoad_one {r : Req} {s : State} (hcount : rd r.payload 0 2 = 1) (hslot : rd r.payload 2 2 < 4096)
    (hep : (ep? s (blobHandle r.payload 0)).isSome = true) (htyp : (kslot s (rd r.payload 2 2)).typ = 1 ∨ (kslot s (rd r.payload 2 2)).typ = 2)
    (huse : FreeUse (rd r.payload 2 2) uUnwrap s) :
    qkEpLoad r s = match checkBlobs (rd r.payload 2 2) [(blobHandle r.payload 0, slice r.payload 8 40)] 0 s with
      | (_, some i) => refuse (authFailed s) .authFail (idxPayload i)
      | (s1, none) => replyOk (putBlob (blobHandle r.payload 0)
          { wrapped := slice r.payload 8 40, wslot := rd r.payload 2 2, wgen := BitVec.ofNat 32 (kslot s (rd r.payload 2 2)).gen } s1) := by
  have hfirst : firstBad (fun (i : Nat) => (ep? s ([blobHandle r.payload 0].getD i 0)).isNone ||
      ([blobHandle r.payload 0].take i).contains ([blobHandle r.payload 0].getD i 0)) [0] 0 = none := by
    simp [firstBad, Option.isSome_iff_ne_none.1 hep]
  have htypes : ((kslot s (rd r.payload 2 2)).typ == 1 || (kslot s (rd r.payload 2 2)).typ == 2) = true := by simpa using htyp
  unfold qkEpLoad
  dsimp only
  rw [hcount, if_neg (by simp [hslot]), if_neg (by decide)]
  simp only [List.range_one, List.map_cons, List.map_nil, hfirst, Nat.mul_zero, Nat.add_zero, huse.usable, huse.usage, huse.uncounted, htypes,
    Bool.not_true, Bool.or_false, Bool.false_and, Bool.false_eq_true, if_false, List.foldl_cons, List.foldl_nil] <;> rfl

theorem qkEpClear_of_known {r : Req} {s : State} (hz : zeroAt r.payload 2 2 = true)
    (hall : firstBad (fun h => (ep? s h).isNone) ((List.range (rd r.payload 0 2)).map (fun i => rd r.payload (4 + 4 * i) 4)) 0 = none) :
    qkEpClear r s = replyOk (((List.range (rd r.payload 0 2)).map (fun i => rd r.payload (4 + 4 * i) 4)).foldl
      (fun s h => noteEp h (fun e => { e with keyHeld := none }) { s with blobs := tdel s.blobs h }) s) := by
  unfold qkEpClear
  dsimp only
  rw [if_neg (by simp [hz]), hall]

theorem qkRewrap_of_usable {id : Nat} {r : Req} {s : State} (hold : rd r.payload 0 2 < 4096) (hnew : rd r.payload 2 2 < 4096)
    (huold : usable s (rd r.payload 0 2) = true) (hunew : usable s (rd r.payload 2 2) = true)
    (htyp : (kslot s (rd r.payload 2 2)).typ = 1 ∨ (kslot s (rd r.payload 2 2)).typ = 2)
    (husage : hasUsage (kslot s (rd r.payload 2 2)) (uWrap + uUnwrap) = true) (hnone : s.keys.rewrap = none) (hfree : busyFor .kr s = false) :
    qkRewrap id r s = .pend (giveToken .kr { s with keys.rewrap := some { pendId := id, old := rd r.payload 0 2, new := rd r.payload 2 2 } })
      [.blobs] := by
  unfold qkRewrap
  dsimp only
  rw [if_neg (by simp [hold, hnew]), if_neg (by rw [huold, hunew, husage]; simpa [or_iff_not_imp_left] using htyp), if_neg (by simp [hnone, hfree])]

theorem rewrapWalk_of_running {w : Rewrap} {s : State} (hw : s.keys.rewrap = some w) (hy : s.maint.yielded = false)
    (hup : (isl s 30).inReset = false) (huold : usable s w.old = true) (hunew : usable s w.new = true) :
    rewrapWalk s = match s.blobs.find? (fun b => w.next ≤ b.1 && b.2.wslot == w.old) with
      | none => rewrapEnd w s
      | some (h, b) => if ctxBusy s h then s else rewrapBlob w h b (advMono (w.at_.getD s.mono) s) := by
  unfold rewrapWalk
  rw [hw]
  dsimp only
  rw [if_neg (by simp [hy, hup]), if_neg (by simp [huold, hunew])] <;> rfl

/-- R363: a blob under the old slot's own generation is unwrapped there and wrapped under the new one. -/
theorem rewrapBlob_of_free {w : Rewrap} {h : Nat} {b : Blob} {s : State} (hgen : b.wgen.toNat = (kslot s w.old).gen)
    (hold : FreeUse w.old uUnwrap s) (hnew : FreeUse w.new uWrap s) :
    rewrapBlob w h b s = match Config.keyUnwrap (kslot s w.old).key b.wrapped with
      | none => rewrapNext h false w (authFailed s)
      | some plain => rewrapNext h true w (putBlob h { wrapped := slice (Config.keyWrap (kslot s w.new).key plain) 0 40, wslot := w.new,
                                                       wgen := BitVec.ofNat 32 (kslot s w.new).gen } s) := by
  unfold rewrapBlob
  rw [if_neg (by simp [hgen]), hold.useSlot]
  dsimp only
  rw [hnew.useSlot] <;> (cases Config.keyUnwrap (kslot s w.old).key b.wrapped <;> rfl)

/-! ### Attestation and reports (R364, R368) -/

theorem qkAttest_without_key {r : Req} {s : State} (h : identityKey s = none) : qkAttest r s = refuse s .badState := by
  unfold qkAttest
  rw [h]
  exact if_pos rfl

theorem qkAttest_with_key {r : Req} {k : List Byte} {s : State} (h : identityKey s = some k) (hok : secretOk s = true) :
    qkAttest r s = replyOk (draw s).2 (attestBody r.payload s ++ slice (Config.rsaSign k (attestBody r.payload s) s.freeCtr) 0 384) := by
  unfold qkAttest signWith
  simp only [h, hok, Option.isNone_some, Bool.not_true, Bool.false_eq_true, if_false, if_true]

theorem qkCertGet_of_legal {r : Req} {s : State} (hwhich : rd r.payload 0 1 ≤ 1) (hz : zeroAt r.payload 1 3 = true) :
    qkCertGet r s = replyOk s (if rd r.payload 0 1 = 0 then le 2 s.life.certId.length ++ le 2 0 ++ s.life.certId
      else le 2 s.life.certImport.length ++ le 2 0 ++ s.life.certImport) := by
  unfold qkCertGet
  dsimp only
  rw [if_neg (by simp [hz, hwhich])]
  split <;> rfl

/-! ### The DRBG (R366) -/

theorem drawKdir_facts (s : State) : (drawKdir s).keys.seeded = s.keys.seeded ∧ (drawKdir s).keys.secretRefused = s.keys.secretRefused ∧
    (drawKdir s).dir.kdir.isSome = true := by
  unfold drawKdir
  split
  next => exact ⟨rfl, rfl, rfl⟩
  next h => exact ⟨rfl, rfl, by simpa [← Option.isSome_iff_ne_none] using h⟩

theorem drbgReseed_passes {s : State} (h : (isl s 30).inReset = false) : (drbgReseed true s).keys.seeded = true ∧
    (drbgReseed true s).keys.secretRefused = false ∧ (drbgReseed true s).dir.kdir.isSome = true := by
  unfold drbgReseed
  rw [h, if_neg Bool.false_ne_true, if_pos rfl]
  rw [raiseIf_keeps State.keys (by intros; rfl), raiseIf_keeps State.dir (by intros; rfl)]
  exact drawKdir_facts _

theorem drbgReseed_fails {s : State} (h : (isl s 30).inReset = false) : (drbgReseed false s).keys.secretRefused = true ∧
    (drbgReseed false s).keys.health = s.keys.health + 1 ∧ (drbgReseed false s).evt.pend.getLsbD 0x84 = true := by
  unfold drbgReseed
  rw [h, if_neg Bool.false_ne_true, if_neg Bool.false_ne_true]
  refine ⟨?_, ?_, raise_set _ _ (by decide) (by decide)⟩
  · rw [raise_keeps State.keys (by intros; rfl), record_keeps State.keys (by intros; rfl)]
  · rw [raise_keeps State.keys (by intros; rfl), record_keeps State.keys (by intros; rfl)]
    exact congrArg (· + 1) (reseed_health s)

end Sys2Proof.Machine

open Sys2Proof Sys2Proof.Machine

/-- Settles O26 (log 28: QK_ATTEST without an identity key is BAD_STATE). -/
theorem keyVaultEffects : Obligations.KeyVaultEffects := by
  unfold Obligations.KeyVaultEffects
  refine ⟨?load, ?derive, ?generate, ?destroy, ?generation, ?use, ?slotGet, ?epLoad, ?epClear, ?rewrap, ?walkEnds, ?walk, ?attest, ?cert, ?status,
    ?reseed, ?reseedFails⟩
  case load =>
    intro r s h hattr hz7 hz14 hp hlo hhi hchain htyp hempty hmac hu husage hcnt hgen
    have e := qkLoad_of_legal (s := taken r s) hattr hz7 hz14 hp hlo hhi ((chainOk_congr rfl _).trans hchain) htyp hempty hmac
      (FreeUse.taken ⟨hu, husage, hcnt⟩ r) hgen
    refine congrArg Host.Outcome.next ?_
    show _ = match openedBlock (rd r.payload 2 2) (r.payload.drop 16) (taken r s) with
      | none => _
      | some b => _
    cases hb : openedBlock (rd r.payload 2 2) (r.payload.drop 16) (taken r s) with
    | none => exact serve_done qkLoadService r s _ _ _ h (e.trans (by rw [hb]; rfl))
    | some b =>
      rw [hb] at e
      dsimp only at e ⊢
      split at e
      next hbad => exact (serve_done qkLoadService r s _ _ _ h e).trans (if_pos hbad).symm
      next hgood => exact (serve_done qkLoadService r s _ _ _ h e).trans (if_neg hgood).symm
  case derive =>
    exact fun r s h hattr htyp hz7 hz14 hp hlen hchain hempty hu husage hcnt hgen => congrArg Host.Outcome.next (serve_done qkDeriveService r s _ _ _ h
      (qkDerive_of_legal (s := taken r s) hattr htyp hz7 hz14 hp hlen ((chainOk_congr rfl _).trans hchain) hempty
        (FreeUse.taken ⟨hu, husage, hcnt⟩ r) hgen))
  case generate =>
    exact fun r s h hattr htyp hz2 hz7 hempty hgen hok => congrArg Host.Outcome.next (serve_done qkGenerateService r s _ _ _ h
      (qkGenerate_of_legal (s := taken r s) hattr htyp hz2 hz7 hempty hgen hok))
  case destroy =>
    exact fun r s h hslot hz hused => congrArg Host.Outcome.next (serve_done qkDestroyService r s _ _ _ h
      (qkDestroy_of_legal (s := taken r s) hslot hz hused))
  case generation => exact fun n s h => destroySlot_generation h
  case use => exact fun n mask s hu hm => useSlot_of_usable hu hm
  case slotGet =>
    exact fun r s h hmax hend => congrArg Host.Outcome.next (serve_done qkSlotGetService r s _ _ _ h (qkSlotGet_of_legal (s := taken r s) hmax hend))
  case epLoad =>
    intro r w s h hcount hslot hw hep hu husage htyp hcnt
    subst hw
    have e := qkEpLoad_one (s := taken r s) hcount hslot hep htyp (FreeUse.taken ⟨hu, husage, hcnt⟩ r)
    refine congrArg Host.Outcome.next ?_
    cases hb : checkBlobs (rd r.payload 2 2) [(blobHandle r.payload 0, slice r.payload 8 40)] 0 (taken r s) with
    | mk s1 bad =>
      rw [hb] at e
      cases bad with
      | none => exact serve_done qkEpLoadService r s _ _ _ h e
      | some i => exact serve_done qkEpLoadService r s _ _ _ h e
  case epClear =>
    exact fun r s h hz hall => congrArg Host.Outcome.next (serve_done qkEpClearService r s _ _ _ h (qkEpClear_of_known (s := taken r s) hz hall))
  case rewrap =>
    exact fun r s h hold hnew huold hunew htyp husage hnone hfree => congrArg Host.Outcome.next (serve_pend qkRewrapService r s _ _ h
      (qkRewrap_of_usable (s := taken r s) hold hnew ((usable_congr rfl rfl _).trans huold) ((usable_congr rfl rfl _).trans hunew) htyp husage
        hnone hfree))
  case walkEnds =>
    intro w s hw hy hup huold hunew hfind
    refine congrArg Host.Outcome.next ((rewrapWalk_of_running hw hy hup huold hunew).trans ?_)
    rw [hfind]
  case walk =>
    intro w h b s u hw hy hup huold hunew hfind hbusy hgen hou hoc hnu hnc hu
    have hslots : u.slots = s.slots := hu ▸ advMono_keeps State.slots (by intros; rfl) _ s
    have hboot : u.boot = s.boot := hu ▸ advMono_keeps State.boot (by intros; rfl) _ s
    have e := rewrapBlob_of_free (w := w) (h := h) (b := b) (s := u) (by rw [kslot_congr hslots]; exact hgen)
      (FreeUse.congr ⟨huold, hou, hoc⟩ hslots hboot) (FreeUse.congr ⟨hunew, hnu, hnc⟩ hslots hboot)
    refine congrArg Host.Outcome.next ((rewrapWalk_of_running hw hy hup huold hunew).trans ?_)
    rw [hfind]
    dsimp only
    rw [hbusy, if_neg Bool.false_ne_true, ← hu, e, kslot_congr hslots, kslot_congr hslots] <;> rfl
  case attest =>
    intro r s h hok
    refine congrArg Host.Outcome.next ?_
    cases hk : identityKey s with
    | none => exact serve_done qkAttestService r s _ _ _ h (qkAttest_without_key (s := taken r s) hk)
    | some k => exact serve_done qkAttestService r s _ _ _ h (qkAttest_with_key (s := taken r s) hk hok)
  case cert =>
    exact fun r s h hwhich hz => congrArg Host.Outcome.next (serve_done qkCertGetService r s _ _ _ h (qkCertGet_of_legal (s := taken r s) hwhich hz))
  case status => exact fun r s h => congrArg Host.Outcome.next (serve_done qkStatusGetService r s _ _ _ h rfl)
  case reseed => exact fun s h => ⟨_, rfl, drbgReseed_passes h⟩
  case reseedFails => exact fun s h => ⟨_, rfl, drbgReseed_fails h⟩

end

section
/-! The Slate recorder (R374 to R393): one rule per write, refill, checkpoint, scrub and opcode, then O27. -/

namespace Sys2Proof.Machine

/-! ### Admission (R374, R375, R380) -/

/-- The record that an admission appends: it takes SEQ, stamp and the code's pending count. -/
def admittedRec (code : Nat) (payload : List Byte) (s : State) : SRec :=
  { code := code, spare := s.slateNv.state == .spare, trust := trusted s, seq := s.slate.head, stamp := BitVec.ofNat 64 s.now,
    payload := padTo 8 payload, supp := min (tget s.slate.buckets code {}).pendingCount (2 ^ 32 - 1) }

theorem recAdmit_of_token {code : Nat} {payload : List Byte} {s : State} (hr : 0 < (slateRate s code).1)
    (hb : (tget s.slate.buckets code {}).used < (slateRate s code).2) :
    recAdmit code payload s = { s with
      slate.buckets := tset s.slate.buckets code (takeToken s.mono (tget s.slate.buckets code {})), slate.head := s.slate.head + 1,
      slate.queue := s.slate.queue ++ [admittedRec code payload s], slate.admitted := s.slate.admitted + 1, slate.moved := true,
      slate.peak := max s.slate.peak (queueBytes (s.slate.queue ++ [admittedRec code payload s])) } := by
  have hroom : (decide ((slateRate s code).1 = 0) || decide ((slateRate s code).2 ≤ (tget s.slate.buckets code {}).used)) = false := by
    rw [decide_eq_false (Nat.ne_of_gt hr), decide_eq_false (Nat.not_le.2 hb)]
    rfl
  unfold recAdmit
  exact if_neg (ne_true_of_eq_false hroom)

/-- What a suppression leaves in the code's bucket. -/
def suppressed (b : Bucket) : Bucket := { b with pendingCount := b.pendingCount + 1, suppTotal := b.suppTotal + 1 }

theorem recSuppress_ordinary {code : Nat} {s : State} (h : privileged code = false) : recSuppress code s =
    { s with slate := { s.slate with buckets := tset s.slate.buckets code (suppressed (tget s.slate.buckets code {})),
                                     ordSupp := s.slate.ordSupp + 1 } } := by
  unfold recSuppress
  rw [h]
  rfl

/-! ### Writing (R377, R378, R387) -/

theorem retireReached_of_clean {a b : Nat} {s : State} (h : s.slateNv.badBlocks = []) : retireReached a b s = s := by
  unfold retireReached
  rw [h]
  show { s with slateNv.badBlocks := [] } = s
  rw [← h]

/-- R378: the oldest queued record goes to its place, over the records that the writer passes. -/
theorem writeOldest_of_clean {x : SRec} {rest : List SRec} {s : State} (hstate : s.slateNv.state = .normal) (hbad : s.slateNv.badBlocks = [])
    (hq : s.slate.queue = x :: rest) : writeOldest s = { s with
      slateNv := { s.slateNv with
        ring := dropHit s.slateNv.wrOff (place s (recBytes x) + recBytes x) s.slateNv.ring ++ [{ x with off := place s (recBytes x), spare := false }],
        wrOff := place s (recBytes x) + recBytes x },
      slate := { s.slate with queue := rest, badRun := 0 } } := by
  unfold writeOldest
  rw [hq]
  dsimp only
  rw [retireReached_of_clean hbad, hstate, hq, List.drop_length, List.append_nil]
  rfl

theorem recorderLimit_of_sound {s : State} (hstate : s.slateNv.state = .normal) (hret : retiredCount s ≤ 1024) (hrun : s.slate.badRun = 0) :
    recorderLimit s = none := by
  unfold recorderLimit
  rw [hstate]
  dsimp only
  rw [if_neg (by omega), hrun]
  rfl

theorem recordWrite_of_sound {x : SRec} {rest : List SRec} {s : State} (hrun : recorderRuns s = true) (hstate : s.slateNv.state = .normal)
    (hbad : s.slateNv.badBlocks = []) (hq : s.slate.queue = x :: rest) (hwait : s.slate.waiting = []) (hret : retiredCount s ≤ 1024) :
    recordWrite [] s = writeOldest s := by
  have hw := writeOldest_of_clean hstate hbad hq
  have hlimit : recorderLimit (writeOldest s) = none := recorderLimit_of_sound (by rw [hw]; exact hstate) (by rw [hw]; exact hret) (by rw [hw])
  have hnone : (writeOldest s).slate.waiting = [] := by rw [hw]; exact hwait
  unfold recordWrite
  rw [if_neg (by simp [hrun]), hq]
  dsimp only
  rw [show failWrites (recBytes x) [] s = s from rfl, if_pos (by rw [hstate]; rfl), hlimit]
  dsimp only
  rw [hnone]
  rfl

/-! ### Checkpoints and the scrub (R386, R388) -/

/-- R386: the copies are written in turn. -/
theorem checkpointWrite_copy {s : State} (hrun : recorderRuns s = true) (hmoved : s.slate.moved = true) (hstate : s.slateNv.state = .normal) :
    (checkpointWrite 0 s).slate.nextB = (!s.slate.nextB) ∧
      (if s.slate.nextB then (checkpointWrite 0 s).slateNv.ckB else (checkpointWrite 0 s).slateNv.ckA).valid = true ∧
      (if s.slate.nextB then (checkpointWrite 0 s).slateNv.ckB else (checkpointWrite 0 s).slateNv.ckA).headSeq = writtenHead s ∧
      (if s.slate.nextB then (checkpointWrite 0 s).slateNv.ckA = s.slateNv.ckA else (checkpointWrite 0 s).slateNv.ckB = s.slateNv.ckB) := by
  obtain ⟨m, e⟩ := ckpt_eq s hrun hmoved hstate
  have hslate : (advMono m s).slate = s.slate := advMono_keeps State.slate (by intros; rfl) m s
  have hnv : (advMono m s).slateNv = s.slateNv := advMono_keeps State.slateNv (by intros; rfl) m s
  have hhead : writtenHead (advMono m s) = writtenHead s := advMono_keeps writtenHead (by intros; rfl) m s
  rw [e]
  generalize advMono m s = u at *
  dsimp only
  rw [hhead, hslate]
  cases s.slate.nextB with
  | true => exact ⟨rfl, rfl, rfl, show u.slateNv.ckA = s.slateNv.ckA by rw [hnv]⟩
  | false => exact ⟨rfl, rfl, rfl, show u.slateNv.ckB = s.slateNv.ckB by rw [hnv]⟩

/-- R388: an uncorrectable word of the ring. -/
theorem envmUe_ring {off : Nat} {s : State} (hoff : 2048 ≤ off) (hstate : s.slateNv.state = .normal) :
    (envmUe 0 off s).slateNv.corrected = s.slateNv.corrected ∧ (envmUe 0 off s).slateNv.uncorrectable = s.slateNv.uncorrectable + 1 ∧
      (envmUe 0 off s).slateNv.ring = s.slateNv.ring.map (fun r =>
        if r.off ≤ 4 * off - 8192 && 4 * off - 8192 < r.off + recBytes r then { r with lost := true } else r) ∧
      (envmUe 0 off s).evt.pend.getLsbD 0x93 = true := by
  unfold envmUe
  dsimp only
  rw [if_pos (by simp; omega)]
  refine ⟨?_, ?_, ?_, raise_set _ _ (by decide) (by decide)⟩
  all_goals rw [raise_keeps State.slateNv (by intros; rfl), record_keeps State.slateNv (by intros; rfl)]
  simp only [hstate, beq_self_eq_true, Bool.true_and]

theorem envmScrub_of_token {res : EnvmScrubIn} {s : State} (h : s.maint.holders.contains .es = true) (hpass : res.passEnds = false) :
    envmScrub res s = res.ue.foldl (fun s e => envmUe e.1 e.2 s)
      { s with slateNv.corrected := s.slateNv.corrected + BitVec.ofNat 32 res.corrected } := by
  unfold envmScrub
  rw [if_pos h, hpass]
  rfl

/-! ### Opcodes (R384, R385, R391, R393) -/

/-- Where a read that asks for the records from a SEQ begins: at the tail when that one is gone. -/
def readFrom (first : Word) (s : State) : Word := if seqBelow first (slateTail s) then slateTail s else first

theorem slateRead_of_legal {r : Req} {s : State} (hlo : 1032 ≤ rd r.payload 4 2) (hhi : rd r.payload 4 2 ≤ 65520) (hz : zeroAt r.payload 6 2 = true)
    (hstate : s.slateNv.state ≠ .latchOnly) :
    ∃ rs, rs = fitRecords (rd r.payload 4 2) (s.slateNv.ring.filter (fun x => !seqBelow x.seq (readFrom (BitVec.ofNat 32 (rd r.payload 0 4)) s))) ∧
      slateRead r s = replyOk { s with slate.lostDelivered := s.slate.lostDelivered + BitVec.ofNat 32 (rs.filter (fun x => x.lost)).length }
        (le 4 s.slate.head.toNat ++ le 4 (slateTail s).toNat ++ le 2 rs.length ++ le 2 0 ++ (rs.map srecBytes).flatten) := by
  have hring : (if s.slateNv.state == .latchOnly then [] else s.slateNv.ring) = s.slateNv.ring := if_neg (by simpa using hstate)
  refine ⟨_, rfl, ?_⟩
  unfold slateRead
  dsimp only
  rw [if_neg (by simp [hz]; omega), hring]
  rfl

theorem slateDump_of_legal {id : Nat} {r : Req} {first : Word} {s : State} (hz : zeroAt r.payload 1 3 = true) (hc : rd r.payload 0 1 < 32)
    (hpos : 0 < rd r.payload 8 4) (hhead : seqBelow s.slate.head (BitVec.ofNat 32 (rd r.payload 4 4)) = false)
    (hcount : rd r.payload 8 4 ≤ (s.slate.head - BitVec.ofNat 32 (rd r.payload 4 4)).toNat)
    (hfirst : first = readFrom (BitVec.ofNat 32 (rd r.payload 4 4)) s) (hdump : s.slate.dump = none) (hbind : bindCheck (rd r.payload 0 1) s = none)
    (hsome : seqBelow first (BitVec.ofNat 32 (rd r.payload 4 4) + BitVec.ofNat 32 (rd r.payload 8 4)) = true) :
    slateDump id r s = .pend (bindChan (rd r.payload 0 1) .slateDump { s with
      slate.dump := some { chan := rd r.payload 0 1, pendId := id, next := first,
                           stop := BitVec.ofNat 32 (rd r.payload 4 4) + BitVec.ofNat 32 (rd r.payload 8 4), first := first } }) [] := by
  unfold readFrom at hfirst
  unfold slateDump
  dsimp only
  rw [← hfirst, if_neg (by simp [hz, hc]), if_neg (by omega), if_neg (by rw [hhead]; simpa using hcount), if_neg (by simp [hdump]), hbind, hsome]
  rfl

theorem slateCodeGet_of_legal {r : Req} {s : State} (hmax : rd r.payload 2 2 ≤ 64) (hend : rd r.payload 0 2 + rd r.payload 2 2 ≤ 512) :
    slateCodeGet r s = replyOk s (((List.range (rd r.payload 2 2)).map (fun i => codeRecord s (rd r.payload 0 2 + i))).flatten) := by
  unfold slateCodeGet
  exact if_neg (by simp; omega)

theorem slateRecfClear_vendor {s : State} (h : lifecycle s = 1) :
    slateRecfClear s = replyOk { s with bkp.recf := false, bkp.sparef := false, bkp.recfCause := 0, bkp.recfLost := 0, bkp.recfTime := 0 } := by
  unfold slateRecfClear
  exact if_neg (by simp [h])

theorem slateRecfClear_other {s : State} (h : lifecycle s ≠ 1) : slateRecfClear s = refuse s .badState := by
  unfold slateRecfClear
  exact if_pos (by simpa using h)

end Sys2Proof.Machine

open Sys2Proof Sys2Proof.Machine

/-- Settles O27. -/
theorem slateEffects : Obligations.SlateEffects := by
  unfold Obligations.SlateEffects
  refine ⟨?admitted, ?suppressed, ?written, ?refill, ?checkpoint, ?scrub, ?read, ?dump, ?status, ?codes, ?clear⟩
  case admitted =>
    exact fun code payload s hr hb => ⟨_, recAdmit_of_token hr hb, rfl, rfl, congrArg Bucket.used (tget_tset_same _ _ _ _),
      congrArg Bucket.pendingCount (tget_tset_same _ _ _ _)⟩
  case suppressed => exact fun code s h => ⟨suppressed (tget s.slate.buckets code {}), rfl, rfl, rfl, recSuppress_ordinary h⟩
  case written =>
    exact fun x rest s hrun hstate hbad hq hwait hret => congrArg Host.Outcome.next
      ((recordWrite_of_sound hrun hstate hbad hq hwait hret).trans (writeOldest_of_clean hstate hbad hq))
  case refill =>
    intro code t0 g s hcode hclock hused hrate
    obtain ⟨m, e⟩ := refill_eq code t0 g s hcode hclock hused hrate
    exact ⟨_, congrArg Host.Outcome.next e, congrArg Bucket.used (tget_tset_same _ _ _ _), congrArg Bucket.clock (tget_tset_same _ _ _ _)⟩
  case checkpoint => exact fun s hrun hmoved hstate => ⟨_, rfl, checkpointWrite_copy hrun hmoved hstate⟩
  case scrub =>
    intro n off s htok hoff hstate
    exact ⟨_, congrArg Host.Outcome.next (envmScrub_of_token htok rfl),
      envmUe_ring (s := { s with slateNv.corrected := s.slateNv.corrected + BitVec.ofNat 32 n }) hoff hstate⟩
  case read =>
    intro r s h hlo hhi hz hstate
    obtain ⟨rs, hrs, e⟩ := slateRead_of_legal (s := taken r s) hlo hhi hz hstate
    exact ⟨rs, hrs, congrArg Host.Outcome.next (serve_done slateReadService r s _ _ _ h e)⟩
  case dump =>
    exact fun r first s h hz hc hpos hhead hcount hfirst hdump hbind hsome => congrArg Host.Outcome.next (serve_pend slateDumpService r s _ _ h
      (slateDump_of_legal (s := taken r s) hz hc hpos hhead hcount hfirst hdump hbind hsome))
  case status => exact fun r s h => congrArg Host.Outcome.next (serve_done slateStatusGetService r s _ _ _ h rfl)
  case codes =>
    exact fun r s h hmax hend => congrArg Host.Outcome.next (serve_done slateCodeGetService r s _ _ _ h (slateCodeGet_of_legal (s := taken r s) hmax hend))
  case clear =>
    intro r s h
    refine congrArg Host.Outcome.next ?_
    by_cases hl : lifecycle s = 1
    · exact (serve_done slateRecfClearService r s _ _ _ h (slateRecfClear_vendor (s := taken r s) hl)).trans (if_pos hl).symm
    · exact (serve_done slateRecfClearService r s _ _ _ h (slateRecfClear_other (s := taken r s) hl)).trans (if_neg hl).symm

end

section
/-! The campaign opcodes (R320 to R345): one rule per opcode and state, then O28. -/

namespace Sys2Proof.Machine

/-! ### Creation and content (R321, R322, R329) -/

/-- The campaign that a header of a kind without content makes. -/
def campOfHeader (p : List Byte) (s : State) : Camp :=
  { kind := rd p 1 1, prio := rd p 2 1, closeIdle := bit (rd p 3 1) 0, multicast := bit (rd p 3 1) 1, retryMax := rd p 4 1,
    calIndex := rd p 5 1, groupSlot := rd p 6 2, size := rd p 8 4, deadline := rd p 12 4,
    groupAddr := BitVec.ofNat 64 (rd p 16 8), gapMs := rd p 24 2, activateAt := rd p 28 4,
    digest := slice p 32 32, stamp := secs s % 2 ^ 24, blocks := blocksOf [] }

theorem headerBadCamp_taken (p : List Byte) (r : Req) (s : State) : headerBadCamp (taken r s) p = headerBadCamp s p := rfl

theorem campCreate_refused {r : Req} {s : State} (h : headerBadCamp s r.payload = true) : campCreate r s = refuse s .badParam := by
  unfold campCreate
  exact if_pos h

/-- R321: a campaign of a kind without content takes its fields from the header. -/
theorem campCreate_of_header {r : Req} {s : State} (hbad : headerBadCamp s r.payload = false) (hfree : camp? s (rd r.payload 0 1) = none)
    (hjnl : ledgerOk s = true) (hkind : 3 ≤ rd r.payload 1 1) :
    campCreate r s = replyOk (setCampState (rd r.payload 0 1) .open_
      { s with camps := tset s.camps (rd r.payload 0 1) (campOfHeader r.payload s) }) := by
  have hnew : thas s.camps (rd r.payload 0 1) = false := by
    unfold thas
    rw [show tfind s.camps (rd r.payload 0 1) = none from hfree]
    rfl
  unfold campCreate
  simp only [if_neg (show rd r.payload 1 1 ≠ 0 by omega)]
  rw [hbad, if_neg Bool.false_ne_true, hnew, hjnl, if_neg (by decide), if_neg (by simp; omega)]
  rfl

theorem campContent_of_open {r : Req} {x : Camp} {s : State} (hx : camp? s (rd r.payload 0 1) = some x) (hstate : x.state = .open_)
    (hkind : x.kind = 1 ∨ x.kind = 2) (hz1 : zeroAt r.payload 1 1 = true) (hz6 : zeroAt r.payload 6 2 = true) (hpos : 0 < rd r.payload 4 2)
    (hmax : rd r.payload 4 2 ≤ 255) (hend : rd r.payload 2 2 + rd r.payload 4 2 < campK x) :
    campContent r s = replyOk (updCamp (rd r.payload 0 1) (fun x => { x with
      blocks := (List.range (rd r.payload 4 2)).foldl (fun b i => tset b (rd r.payload 2 2 + i) (slice r.payload (8 + 256 * i) 256)) x.blocks }) s) := by
  have hk : (x.kind == 1 || x.kind == 2 || (x.kind == 0 && x.contentLost)) = true := by
    rcases hkind with q | q <;> rw [q] <;> rfl
  have hlast : rd r.payload 2 2 + rd r.payload 4 2 - 1 + 1 ≠ campK x := by omega
  have hin : ¬ campK x ≤ rd r.payload 2 2 + rd r.payload 4 2 - 1 := by omega
  unfold campContent
  dsimp only
  rw [hx]
  dsimp only
  rw [hk, hz1, hz6, if_neg (by simp [hlast, hin]; omega), if_neg (by simp [hstate])]

/-! ### Targets (R333, R345) -/

theorem campTargetsAdd_bad {r : Req} {x : Camp} {i : Nat} {s : State} (hx : camp? s (rd r.payload 0 1) = some x)
    (hz : zeroAt r.payload 1 1 = true) (hmax : rd r.payload 2 2 ≤ 4000) (hlen : r.payload.length = 4 + 16 * rd r.payload 2 2)
    (hbad : firstBadTgt s x r.payload (rd r.payload 2 2) [] 0 = some i) : campTargetsAdd r s = refuse s .badParam (idxPayload i) := by
  unfold campTargetsAdd
  dsimp only
  rw [hx]
  dsimp only
  rw [if_neg (by simp [hz, hlen, hmax]), hbad]

theorem campTargetsAdd_all {r : Req} {x : Camp} {s : State} (hx : camp? s (rd r.payload 0 1) = some x)
    (hz : zeroAt r.payload 1 1 = true) (hmax : rd r.payload 2 2 ≤ 4000) (hlen : r.payload.length = 4 + 16 * rd r.payload 2 2)
    (hgood : firstBadTgt s x r.payload (rd r.payload 2 2) [] 0 = none) (hstate : x.state = .open_ ∨ x.state = .running ∨ x.state = .paused)
    (hissue : ((List.range (rd r.payload 2 2)).filter (issues s x r.payload)).length = 0) (hroom : x.targets.length + rd r.payload 2 2 ≤ 1048576)
    (hheld : targetsHeld s + rd r.payload 2 2 ≤ 2097152) (hkind : x.kind ≠ kindSwitch) :
    campTargetsAdd r s = replyOk (settle (rd r.payload 0 1)
      ((List.range (rd r.payload 2 2)).foldl (addTarget (rd r.payload 0 1) r.payload) s)) := by
  have hst : (x.state == .open_ || x.state == .running || x.state == .paused) = true := by
    rcases hstate with q | q | q <;> rw [q] <;> rfl
  unfold campTargetsAdd
  dsimp only
  rw [hx]
  dsimp only
  rw [if_neg (by simp [hz, hlen, hmax]), hgood]
  dsimp only
  rw [hissue, hst, if_neg (by simp), if_neg (by simp [hkind]; omega)]

/-! ### States (R323, R336, R342) -/

section
variable {r : Req} {c : Nat} {x : Camp} {s : State} (hx : campField r.payload s = some (c, x))
include hx

theorem campStart_of_content (hstate : x.state = .open_) (hjnl : ledgerOk s = true) (hkind : contentKind x.kind = true)
    (hall : contentComplete x = true) : campStart r s =
      if Config.sha256 (objectBytes x) = x.digest then replyOk (settle c (setCampState c .running s)) else refuse s .authFail := by
  unfold campStart
  rw [hx]
  dsimp only
  rw [if_neg (by simp [hall]), if_neg (by simp [hstate, hjnl]), hkind]
  by_cases h : Config.sha256 (objectBytes x) = x.digest
  · rw [if_pos h, if_neg (by simp [h])]
  · rw [if_neg h, if_pos (by simp [h])]

theorem campStart_without_content (hstate : x.state = .open_) (hjnl : ledgerOk s = true) (hkind : contentKind x.kind = false) :
    campStart r s = replyOk (settle c (setCampState c .running s)) := by
  unfold campStart
  rw [hx]
  dsimp only
  rw [if_neg (by simp [hkind]), if_neg (by simp [hstate, hjnl]), if_neg (by simp [hkind])]

theorem campPause_of_running (hstate : x.state = .running) (hjnl : ledgerOk s = true) : campPause r s = replyOk (setCampState c .paused s) := by
  unfold campPause
  rw [hx]
  dsimp only
  rw [if_neg (by simp [hstate]), if_neg (by simp [hstate, hjnl])]

theorem campResume_of_paused (hstate : x.state = .paused) (hlost : x.contentLost = false) (hjnl : ledgerOk s = true) :
    campResume r s = replyOk (settle c (setCampState c .running (updCamp c (fun x => { x with contentLost := false }) s))) := by
  unfold campResume
  rw [hx]
  dsimp only
  rw [if_neg (by simp [hlost]), if_neg (by simp [hstate, hjnl]), if_neg (by simp [hlost])]

theorem campCancel_of_open {id : Nat} (hstate : x.state = .open_) (hjnl : jnlTakes (1 + returnsOf x) s = true) :
    campCancel id r s = .twice (setCampState c .cancelled (endWaiting c .cancelled s)) .ok [] := by
  unfold campCancel
  rw [hx]
  dsimp only
  rw [hstate]
  dsimp only
  rw [if_neg (by simp [hjnl])]

theorem campCancel_of_cancelling {id : Nat} (hstate : x.state = .cancelling) :
    campCancel id r s = .pend (updCamp c (fun x => { x with cancels := x.cancels ++ [id] }) s) [] := by
  unfold campCancel
  rw [hx]
  dsimp only
  rw [hstate]

theorem campCancel_of_ended {id : Nat} (hstate : x.state = .done ∨ x.state = .cancelled) : campCancel id r s = refuse s .badState := by
  unfold campCancel
  rw [hx]
  dsimp only
  rcases hstate with q | q <;> rw [q]

theorem campStatusGet_of_camp : campStatusGet r s = replyOk s (campStatus x) := by
  unfold campStatusGet
  rw [hx]

theorem campRelease_of_ended (hstate : x.state = .done ∨ x.state = .cancelled) : campRelease r s = replyOk { s with camps := tdel s.camps c } := by
  unfold campRelease
  rw [hx]
  dsimp only
  rw [if_pos (by rcases hstate with q | q <;> rw [q] <;> rfl)]

theorem campRelease_of_live (hstate : x.state = .open_ ∨ x.state = .running ∨ x.state = .paused ∨ x.state = .cancelling) :
    campRelease r s = refuse s .badState := by
  unfold campRelease
  rw [hx]
  dsimp only
  rw [if_neg (by rcases hstate with q | q | q | q <;> rw [q] <;> decide)]

end

theorem campTargetGet_of_legal {r : Req} {x : Camp} {s : State} (hz : zeroAt r.payload 1 1 = true) (hx : camp? s (rd r.payload 0 1) = some x)
    (hmax : rd r.payload 6 2 ≤ 256) (hpos : 0 < rd r.payload 6 2) (hend : rd r.payload 2 4 + rd r.payload 6 2 ≤ x.targets.length) :
    campTargetGet r s = replyOk s ((((x.targets.drop (rd r.payload 2 4)).take (rd r.payload 6 2)).map (tgtRecord s x)).flatten) := by
  unfold campTargetGet
  dsimp only
  rw [hx]
  dsimp only
  rw [if_neg (by simp [hz, hmax]), if_neg (by omega), if_neg (by omega)]

theorem switchFaultClear_eq {r : Req} {h : Nat} {e : Endpoint} {s : State} (hh : handleWord r.payload 0 = some h) (he : ep? s h = some e) :
    switchFaultClear r s = if e.switchFault then replyOk (updEp h (fun e => { e with switchFault := false }) s) else refuse s .badState := by
  unfold switchFaultClear
  rw [hh]
  dsimp only
  rw [he]

end Sys2Proof.Machine

open Sys2Proof Sys2Proof.Machine

/-- Settles O28 (log 36: CAMP_CREATE commits the entry of R323, and so raises event 0x70). -/
theorem campaignOpcodeEffects : Obligations.CampaignOpcodeEffects := by
  unfold Obligations.CampaignOpcodeEffects
  refine ⟨?create, ?createRefused, ?content, ?targets, ?targetBad, ?startContent, ?start, ?pause, ?resume, ?cancelOpen, ?cancelAgain, ?cancelEnded,
    ?status, ?targetGet, ?release, ?releaseLive, ?faultClear, ?moves⟩
  case create =>
    intro r s h hbad hfree hjnl hkind
    have hnew : camp? { taken r s with camps := tset s.camps (rd r.payload 0 1) (campOfHeader r.payload (taken r s)) } (rd r.payload 0 1) =
        some (campOfHeader r.payload (taken r s)) := tfind_tset_same _ _ _
    exact ⟨_, _, congrArg Host.Outcome.next (serve_done campCreateService r s _ _ _ h
      (campCreate_of_header (s := taken r s) hbad hfree ((ledgerOk_taken r s).trans hjnl) hkind)),
      camp?_setCampState _ .open_ _ _ hnew, rfl, rfl, rfl, rfl, rfl, rfl, event_setCampState _ .open_ _ _ hnew⟩
  case createRefused =>
    exact fun r s h hbad => congrArg Host.Outcome.next (serve_done campCreateService r s _ _ _ h (campCreate_refused (s := taken r s) hbad))
  case content =>
    exact fun r x s h hx hstate hkind hz1 hz6 hpos hmax hend => congrArg Host.Outcome.next (serve_done campContentService r s _ _ _ h
      (campContent_of_open (s := taken r s) hx hstate hkind hz1 hz6 hpos hmax hend))
  case targets =>
    exact fun r x s h hx hz hmax hlen hgood hstate hissue hroom hheld hkind => congrArg Host.Outcome.next
      (serve_done campTargetsAddService r s _ _ _ h (campTargetsAdd_all (s := taken r s) hx hz hmax hlen ((firstBadTgt_taken x r s _ _ _).trans hgood)
        hstate hissue hroom hheld hkind))
  case targetBad =>
    exact fun r x i s h hx hz hmax hlen hbad => congrArg Host.Outcome.next (serve_done campTargetsAddService r s _ _ _ h
      (campTargetsAdd_bad (s := taken r s) hx hz hmax hlen ((firstBadTgt_taken x r s _ _ _).trans hbad)))
  case startContent =>
    intro r x s h hz hx hstate hjnl hkind hall
    have e := campStart_of_content (campField_some r x s hz hx) hstate ((ledgerOk_taken r s).trans hjnl) hkind hall
    refine congrArg Host.Outcome.next ?_
    by_cases hd : Config.sha256 (objectBytes x) = x.digest
    · exact (serve_done campStartService r s _ _ _ h (e.trans (if_pos hd))).trans (if_pos hd).symm
    · exact (serve_done campStartService r s _ _ _ h (e.trans (if_neg hd))).trans (if_neg hd).symm
  case start =>
    exact fun r x s h hz hx hstate hjnl hkind => congrArg Host.Outcome.next (serve_done campStartService r s _ _ _ h
      (campStart_without_content (campField_some r x s hz hx) hstate ((ledgerOk_taken r s).trans hjnl) hkind))
  case pause =>
    exact fun r x s h hz hx hstate hjnl => congrArg Host.Outcome.next (serve_done campPauseService r s _ _ _ h
      (campPause_of_running (campField_some r x s hz hx) hstate ((ledgerOk_taken r s).trans hjnl)))
  case resume =>
    exact fun r x s h hz hx hstate hlost hjnl => congrArg Host.Outcome.next (serve_done campResumeService r s _ _ _ h
      (campResume_of_paused (campField_some r x s hz hx) hstate hlost ((ledgerOk_taken r s).trans hjnl)))
  case cancelOpen =>
    exact fun r x s h hz hx hstate hjnl => congrArg Host.Outcome.next (serve_twice campCancelService r s _ _ _ h
      (campCancel_of_open (campField_some r x s hz hx) hstate ((jnlTakes_taken r s _).trans hjnl)))
  case cancelAgain =>
    exact fun r x s h hz hx hstate => congrArg Host.Outcome.next (serve_pend campCancelService r s _ _ h
      (campCancel_of_cancelling (campField_some r x s hz hx) hstate))
  case cancelEnded =>
    exact fun r x s h hz hx hstate => congrArg Host.Outcome.next (serve_done campCancelService r s _ _ _ h
      (campCancel_of_ended (campField_some r x s hz hx) hstate))
  case status =>
    exact fun r x s h hz hx => congrArg Host.Outcome.next (serve_done campStatusGetService r s _ _ _ h
      (campStatusGet_of_camp (campField_some r x s hz hx)))
  case targetGet =>
    exact fun r x s h hz hx hmax hpos hend => congrArg Host.Outcome.next (serve_done campTargetGetService r s _ _ _ h
      (campTargetGet_of_legal (s := taken r s) hz hx hmax hpos hend))
  case release =>
    exact fun r x s h hz hx hstate => congrArg Host.Outcome.next (serve_done campReleaseService r s _ _ _ h
      (campRelease_of_ended (campField_some r x s hz hx) hstate))
  case releaseLive =>
    exact fun r x s h hz hx hstate => congrArg Host.Outcome.next (serve_done campReleaseService r s _ _ _ h
      (campRelease_of_live (campField_some r x s hz hx) hstate))
  case faultClear =>
    intro r h e s hs hh he
    have eq := switchFaultClear_eq (s := taken r s) hh he
    refine congrArg Host.Outcome.next ?_
    by_cases hf : e.switchFault = true
    · exact (serve_done switchFaultClearService r s _ _ _ hs (eq.trans (if_pos hf))).trans (if_pos hf).symm
    · exact (serve_done switchFaultClearService r s _ _ _ hs (eq.trans (if_neg hf))).trans (if_neg hf).symm
  case moves => exact fun c st x s hx => ⟨camp?_setCampState c st x s hx, event_setCampState c st x s hx⟩

end

section
/-! The campaign engine and the transmit gate (R324 to R340, R473 to R479): one rule per event and case, then O29. -/

namespace Sys2Proof.Machine

/-! ### Attempts (R325, R340) -/

section
variable {c h : Nat} {v : Power} {e : Endpoint} {s : State} (he : ep? s h = some e) (hstep : stepIs s c h = true)
include he hstep

theorem stepAttempt_connected (hplc : e.plc = false) (hair : e.air = .connected) : stepAttempt c h v s = connectionEvent h v s := by
  unfold stepAttempt
  rw [he]
  dsimp only
  rw [if_neg (by simp [hstep]), if_neg (by simp [hplc]), if_pos (by simp [hair])]

theorem stepAttempt_window {o : DlOpp} (hplc : e.plc = false) (hair : e.air ≠ .connected)
    (ho : (secp s e.lastPort).dlOpp.find? (fun o => o.handle == h) = some o) :
    stepAttempt c h v s = downlinkTx e.lastPort h (max s.now (o.endTime + tMs 20)) s := by
  unfold stepAttempt
  rw [he]
  dsimp only
  rw [if_neg (by simp [hstep]), if_neg (by simp [hplc]), if_neg (by simpa using hair), ho]

theorem stepAttempt_powerLine {x : PlcTxn} (hplc : e.plc = true) (hx : nextTxn s e.port = some x) (hh : x.handle = h) (hc : x.camp = some c) :
    stepAttempt c h v s = transactionStart (groupId s e.port) s.now s := by
  unfold stepAttempt
  rw [he]
  dsimp only
  rw [if_neg (by simp [hstep]), if_pos hplc, hx]
  exact if_pos (by simp [hh, hc])

end

/-! ### Waits and deadlines (R326, R327, R341) -/

theorem confWaitEnd_of_sent {c h : Nat} {x : Camp} {t : Target} {s : State} (hx : camp? s c = some x) (ht : tgt? s c h = some t)
    (hsent : t.state = .sent) : confWaitEnd c h s = waitEnd c h (advMono t.waitDue s) := by
  unfold confWaitEnd
  rw [hx, ht]
  exact if_pos (by simp [hsent])

theorem campDeadline_of_due {c : Nat} {x : Camp} {s : State} (hx : camp? s c = some x) (hdue : x.deadline ≠ 0)
    (hjnl : jnlTakes (1 + returnsOf x) (advTo (tSec x.deadline) s) = true) :
    campDeadline c s = match x.state with
      | .open_ => setCampState c .cancelled (endWaiting c .expired (advTo (tSec x.deadline) s))
      | .running => settle c (endWaiting c .expired (advTo (tSec x.deadline) s))
      | .paused => settle c (endWaiting c .expired (advTo (tSec x.deadline) s))
      | _ => advTo (tSec x.deadline) s := by
  unfold campDeadline
  rw [hx]
  dsimp only
  rw [if_neg hdue, if_neg (by simp [hjnl])] <;> rfl

/-! ### Sessions (R331) -/

/-- The session that a plan makes. -/
def plannedSession (p ch : Nat) (x : Camp) (s : State) : Session :=
  { no := x.sessionNo + 1, targets := (portTargets s x p).map (fun t => t.handle), ts := s.now + tSec (pval s 0x7001), first := x.nextIdx,
    channel := ch, frames := sessionFrames s x }

theorem sessionPlan_of_turn {c p ch : Nat} {x : Camp} {s : State} (hx : camp? s c = some x) (hp : p < 8) (hrun : stepsRun s = true)
    (hwant : wantsSession s p x = true) (hturn : sessionTurn s c p x = true) (hcheck : (portTargets s x p).any (fun t => t.cmd == 0x12) = false)
    (hended : x.ended.toNat < pval s 0x7003) (hidx : x.nextIdx + sessionFrames s x ≤ 65535) (hch : sessionChannel s p = some ch) :
    sessionPlan c p s = (portTargets s x p).foldl (fun s t => toNextSession c t.handle s) (updCamp c (fun x' => { x' with
      sessions := tset x'.sessions p (plannedSession p ch x s), sessionNo := x'.sessionNo + 1, nextIdx := x'.nextIdx + sessionFrames s x }) s) := by
  unfold sessionPlan
  rw [hx]
  dsimp only
  rw [hrun, hwant, hturn, hcheck, if_neg (by simp; omega), if_neg (by simp; omega), hch]
  rfl

theorem multicastFrame_void {c p : Nat} {v : Power} {x : Camp} {y : Session} {s : State} (hx : camp? s c = some x)
    (hy : tfind x.sessions p = some y) (hbegun : y.begun = false) (hstate : x.state ≠ .running) :
    multicastFrame c p v s = sessionVoid c p y (advTo (y.ts + y.next * tMs x.gapMs) s) := by
  unfold multicastFrame
  rw [hx]
  dsimp only
  rw [hy]
  dsimp only
  rw [if_pos (by simp [hbegun, hstate])]

/-- The slot of a session that has begun has come, and engine time with it. -/
theorem multicastFrame_of_begun {c p : Nat} {v : Power} {x : Camp} {y : Session} {s : State} (hx : camp? s c = some x)
    (hy : tfind x.sessions p = some y) (hbegun : y.begun = true) (hstate : x.state = .running ∨ x.state = .paused)
    (hpast : y.ts + y.next * tMs x.gapMs ≤ s.now) :
    multicastFrame c p v s = sessionFrame c p v x y (y.ts + y.next * tMs x.gapMs) s := by
  unfold multicastFrame
  rw [hx]
  dsimp only
  rw [hy]
  dsimp only
  rw [if_neg (by simp [hbegun]), if_neg (by rcases hstate with q | q <;> simp [q]), if_pos hbegun, advTo_past _ s hpast, hx]
  dsimp only
  rw [hy]

theorem sessionFrame_late {c p t : Nat} {v : Power} {x : Camp} {y : Session} {s : State} (hlate : t + tMs x.gapMs / 4 < s.now) :
    sessionFrame c p v x y t s = slotOver c p y false s := by
  unfold sessionFrame
  exact if_pos hlate

/-- R331: a frame of 291 bytes whose channel is clear and whose rules let it start. -/
theorem sessionFrame_starts {c p t : Nat} {v : Power} {x : Camp} {y : Session} {k : KSlot} {s s0 s1 : State}
    (htime : s.now ≤ t + tMs x.gapMs / 4) (hrun : stepsRun s = true)
    (hclear : sessionListen c p y (chanEdges (bandOf s p) y.channel) v s = (true, s0)) (htime0 : s0.now ≤ t + tMs x.gapMs / 4)
    (hrule : txRule s0 p y.channel (chanEdges (bandOf s p) y.channel) .downlink (sunUs (secVal s p 3) 291)
      (airBusy s0 p s0.now (sunUs (secVal s p 3) 291) || ackInWay s0 p s0.now (sunUs (secVal s p 3) 291)) = none)
    (hkey : useSlot x.groupSlot (uEncrypt + uMac) s0 = (s1, some k)) :
    sessionFrame c p v x y t s = slotOver c p y true
      (startTx p y.channel (chanEdges (bandOf s p) y.channel) .downlink p (sunUs (secVal s p 3) 291) 0 []
        [.air p y.channel (enginePpdu s1 (secVal s p 3) (downFrame x.groupAddr 3 false [] k.key x.mcast (blockCmd c x (y.first + y.next))))] s1) := by
  unfold sessionFrame
  rw [if_neg (Nat.not_lt.2 htime), if_neg (by simp [hrun]), hclear]
  dsimp only
  rw [if_neg (by decide), if_neg (Nat.not_lt.2 htime0), hrule]
  dsimp only
  rw [hkey]

/-! ### Feedback and the gate (R339, R474, R479) -/

theorem switchFbTimeout_of_due {c h due : Nat} {t : Target} {s : State} (ht : tgt? s c h = some t) (hdue : t.fbDue = some due)
    (hnone : t.feedback = 0xFF) (hjnl : ledgerOk (advMono due s) = true) :
    switchFbTimeout c h s = settle c (fbTake h (c, t, 2) (commitOne (ledgerEntry (.switchResult h t.seq.toNat 2 0)) (advMono due s))) := by
  unfold switchFbTimeout
  rw [ht]
  dsimp only
  rw [hdue]
  dsimp only
  rw [if_neg (by simp [hnone, hjnl])]

/-- What stands between a due frame and the medium (R474, R477). -/
def gateAgrees (g : GateFrame) (u : GateUpset) (s : State) : Bool :=
  pairRuns s && s.safe.state == .armed && s.safe.proof.isNone && s.now == g.due && !u.tokenBad && g.tokA == g.tokB && secs s ≤ g.notAfter
    && ledgerOk s && s.fw.pause.isNone && gateMedium s g

/-- With the gate test passed and the cores' frames equal the gate judges the due frame. -/
theorem gateRelease_judges {g : GateFrame} {u : GateUpset} {t : Target} {s : State} (hdue : s.safe.due = some g)
    (ht : tgt? s g.camp g.handle = some t) (hpair : pairRuns s = true) (harm : s.safe.state = .armed) (hframe : g.frameA = g.frameB)
    (hseal : u.sealBad = false) : gateRelease true u s = if gateAgrees g u s then gateOpen g t.swState s else gateRefuse g s := by
  have hs : (if (s.safe.state != .armed || !pairRuns s) = true then s else if (!true) = true then safetyFault 4 s
      else if (u.sealBad || g.frameA != g.frameB) = true then safetyFault 5 s else s) = s := by
    rw [if_neg (by simp [harm, hpair]), if_neg (by decide), if_neg (by simp [hseal, hframe])]
  unfold gateRelease
  rw [hdue]
  dsimp only
  rw [hs, ht]
  rfl

theorem gateAgrees_of_all {g : GateFrame} {s : State} (hpair : pairRuns s = true) (harm : s.safe.state = .armed) (hproof : s.safe.proof = none)
    (hnow : s.now = g.due) (htok : g.tokA = g.tokB) (hafter : secs s ≤ g.notAfter) (hjnl : ledgerOk s = true) (hpause : s.fw.pause = none)
    (hmedium : gateMedium s g = true) : gateAgrees g { tokenBad := false, sealBad := false } s = true := by
  unfold gateAgrees
  simp [hpair, harm, hproof, hnow, htok, hafter, hjnl, hpause, hmedium]

theorem gateAgrees_of_bad {g : GateFrame} {u : GateUpset} {s : State}
    (hbad : u.tokenBad = true ∨ g.tokA ≠ g.tokB ∨ g.notAfter < secs s ∨ s.now ≠ g.due) : gateAgrees g u s = false := by
  unfold gateAgrees
  rcases hbad with q | q | q | q
  · simp [q]
  · simp [q]
  · simp [Nat.not_le.2 q]
  · simp [q]

/-- R475, R479: a gate test that fails is safety fault 4, after which nothing passes. -/
theorem gateRelease_test_fails {g : GateFrame} {u : GateUpset} {s : State} (hdue : s.safe.due = some g) (hpair : pairRuns s = true)
    (harm : s.safe.state = .armed) : gateRelease false u s = gateRefuse g (safetyFault 4 s) := by
  have hs : (if (s.safe.state != .armed || !pairRuns s) = true then s else if (!false) = true then safetyFault 4 s
      else if (u.sealBad || g.frameA != g.frameB) = true then safetyFault 5 s else s) = safetyFault 4 s := by
    rw [if_neg (by simp [harm, hpair]), if_pos (by decide)]
  unfold gateRelease
  rw [hdue]
  dsimp only
  rw [hs]
  split
  next => rfl
  next t ht => exact if_neg (by simp [safetyFault_unarmed 4 s])

end Sys2Proof.Machine

open Sys2Proof Sys2Proof.Machine

/-- Settles O29 (log 40: a session whose campaign is not RUNNING at t_s is void). -/
theorem campaignEngineEffects : Obligations.CampaignEngineEffects := by
  unfold Obligations.CampaignEngineEffects
  refine ⟨?connected, ?window, ?powerLine, ?again, ?fails, ?deadlineOpen, ?deadline, ?plan, ?void, ?late, ?starts, ?feedback, ?opens, ?refuses,
    ?testFails⟩
  case connected => exact fun c h v e s he hstep hplc hair => congrArg Host.Outcome.next (stepAttempt_connected he hstep hplc hair)
  case window => exact fun c h v e o s he hstep hplc hair ho => congrArg Host.Outcome.next (stepAttempt_window he hstep hplc hair ho)
  case powerLine =>
    exact fun c h v e x s he hstep hplc hx hh hc => congrArg Host.Outcome.next (stepAttempt_powerLine he hstep hplc hx hh hc)
  case again =>
    intro c h x t e s hx ht he hsent hrun hdl hna hleft
    refine congrArg Host.Outcome.next ((confWaitEnd_of_sent hx ht hsent).trans ?_)
    rw [confWait_eq c h t.waitDue x t e s hx ht he hsent hrun hdl hna, if_pos hleft]
  case fails =>
    intro c h x t e s hx ht he hsent hrun hdl hna hmax hby
    refine congrArg Host.Outcome.next ((confWaitEnd_of_sent hx ht hsent).trans ?_)
    rw [confWait_eq c h t.waitDue x t e s hx ht he hsent hrun hdl hna, if_neg (Nat.not_lt.2 hmax), if_neg (by simp [hby])]
  case deadlineOpen =>
    intro c x s hx hdue hjnl hstate
    refine congrArg Host.Outcome.next ((campDeadline_of_due hx hdue hjnl).trans ?_)
    rw [hstate]
  case deadline =>
    intro c x s hx hdue hjnl hstate
    refine congrArg Host.Outcome.next ((campDeadline_of_due hx hdue hjnl).trans ?_)
    rcases hstate with q | q <;> rw [q]
  case plan =>
    exact fun c p ch x s hx hp hrun hwant hturn hcheck hended hidx hch => congrArg Host.Outcome.next
      (sessionPlan_of_turn hx hp hrun hwant hturn hcheck hended hidx hch)
  case void => exact fun c p v x y s hx hy hbegun hstate => congrArg Host.Outcome.next (multicastFrame_void hx hy hbegun hstate)
  case late =>
    exact fun c p v x y s hx hy hbegun hstate hlate => congrArg Host.Outcome.next
      ((multicastFrame_of_begun hx hy hbegun hstate (by omega)).trans (sessionFrame_late hlate))
  case starts =>
    exact fun c p v x y k s s0 s1 hx hy hbegun hstate hpast htime hrun hclear htime0 hrule hkey => congrArg Host.Outcome.next
      ((multicastFrame_of_begun hx hy hbegun hstate hpast).trans (sessionFrame_starts htime hrun hclear htime0 hrule hkey))
  case feedback => exact fun c h due t s ht hdue hnone hjnl => congrArg Host.Outcome.next (switchFbTimeout_of_due ht hdue hnone hjnl)
  case opens =>
    exact fun g t s hdue ht hpair harm hproof hframe hnow htok hafter hjnl hpause hmedium => congrArg Host.Outcome.next
      ((gateRelease_judges (u := ⟨false, false⟩) hdue ht hpair harm hframe rfl).trans
        (if_pos (gateAgrees_of_all hpair harm hproof hnow htok hafter hjnl hpause hmedium)))
  case refuses =>
    exact fun g u t s hdue ht hpair harm hframe hseal hbad => congrArg Host.Outcome.next
      ((gateRelease_judges hdue ht hpair harm hframe hseal).trans (if_neg (ne_true_of_eq_false (gateAgrees_of_bad hbad))))
  case testFails => exact fun g u t s hdue ht hpair harm => congrArg Host.Outcome.next (gateRelease_test_fails hdue hpair harm)

end

section
/-! Closes, revisions, zones, the balance stream and restored pages (R288, R301 to R318): one rule per command and case, then O30. -/

namespace Sys2Proof.Machine

/-! ### Closes (R308 to R311) -/

theorem intervalClose_of_due {z : Nat} {x : Zone} {s u : State} (hx : zone? s z = some x) (hlost : x.lost = false) (htrust : trusted s = true)
    (hu : u = bringHorizon (advTo (tSec (x.lastEnd + x.len + 60 * x.settleMin)) s)) (hdue : nextDue u = some (x.lastEnd + x.len, z)) :
    intervalClose z (x.lastEnd + x.len) s = closeInterval z x.lastEnd false u := by
  unfold intervalClose
  rw [hx]
  dsimp only
  rw [if_neg (by simp [hlost, htrust]), ← hu, if_pos (by simp [hdue])]

/-- R308 to R310: the zone advances, the INTERVAL record takes the next BALSEQ, and the score stays within its range. -/
theorem closeInterval_effects {z a : Nat} {x : Zone} {s : State} (hx : zone? s z = some x) :
    ∃ x' r, zone? (closeInterval z a false s) z = some x' ∧ x'.lastEnd = a + x.len ∧ (1 < ivalStatus s x a → x'.score = x.score) ∧
      (x.score ≤ 65535 → x'.score ≤ 65535) ∧ r ∈ (closeInterval z a false s).bal.held ∧ r.seq = s.bal.seq + 1 ∧ r.rtype = 1 ∧ r.zone = z ∧
      r.start = a ∧ r.stop = a + x.len ∧ r.status = ivalStatus s x a ∧ r.c = sumKnown s x.checks a x.len ∧ r.delta = r.c - r.m ∧
      r.t = tolerance x r.c := by
  obtain ⟨x', r, b1, b2, b, e, hend, hscore, hmax, hrec⟩ := closeInterval_eq z a x s hx
  have hbal : (raiseIf b1 0x62 (raiseIf b2 0x60 (postRec r { s with bal.zones := tset s.bal.zones z x' }))).bal =
      (postRec r { s with bal.zones := tset s.bal.zones z x' }).bal := by
    rw [raiseIf_keeps State.bal (by intros; rfl), raiseIf_keeps State.bal (by intros; rfl)]
  rw [e]
  refine ⟨x', { r with seq := s.bal.seq + 1 }, ?zone, hend, hscore, hmax, ?held, rfl, hrec⟩
  case zone =>
    show tfind (nightClose z b _).bal.zones z = some x'
    rw [zones_nightClose, hbal]
    exact tfind_tset_same _ _ _
  case held =>
    refine held_nightClose z b _ _ ?_
    rw [hbal]
    exact List.mem_append_right _ (List.mem_singleton.2 rfl)

/-! ### Revisions (R312) and unzoned readings (R307) -/

theorem revisionPost_interval {z a t : Nat} {x : Zone} {s : State} (hx : zone? s z = some x) (ht : (ival x a).changedAt = some t) :
    revisionPost z (some a) s = if a < (bringHorizon (advMono (t + tSec (pval s 0x6002)) s)).bal.horizon
      then bringHorizon (advMono (t + tSec (pval s 0x6002)) s)
      else postRevision z a false (bringHorizon (advMono (t + tSec (pval s 0x6002)) s)) := by
  unfold revisionPost
  rw [hx]
  dsimp only
  rw [ht]

theorem revisionPost_aged {z : Nat} {x : Zone} {a : Aged} {s : State} (hx : zone? s z = some x) (ha : x.aged = some a) :
    revisionPost z none s = postAged z (bringHorizon (advMono (a.first + tSec (pval s 0x6002)) s)) := by
  unfold revisionPost
  rw [hx]
  dsimp only
  rw [ha]

theorem updZone_seq (z : Nat) (f : Zone → Zone) (s : State) : (updZone z f s).bal.seq = s.bal.seq := by
  unfold updZone
  split <;> rfl

theorem ival_updIval (a : Nat) (f : Ival → Ival) (x : Zone) : ival (updIval a f x) a = f (ival x a) := tget_tupd_same _ _ _ _

/-- R312: a revision counts one up to 255 and takes what was pending with it. -/
theorem postRevision_effects {z a : Nat} {rerun : Bool} {x : Zone} {s : State} (hx : zone? s z = some x) :
    ∃ x', zone? (postRevision z a rerun s) z = some x' ∧ (ival x' a).revision = min 255 ((ival x a).revision + 1) ∧ (ival x' a).readings = 0 ∧
      (ival x' a).changedAt = none ∧ (postRevision z a rerun s).bal.seq = s.bal.seq + 1 := by
  unfold postRevision
  rw [hx]
  dsimp only
  rw [raiseIf_keeps (fun u => zone? u z) (by intros; rfl), raiseIf_keeps (fun u => u.bal.seq) (by intros; rfl)]
  refine ⟨_, zone?_updZone z _ x _ hx, ?_, ?_, ?_, updZone_seq _ _ _⟩
  all_goals rw [ival_updIval]

theorem unzonedPost_of_due {start : Nat} {s : State} (hstart : start % 900 = 0) (hpast : start ≤ secs s)
    (hdue : (s.bal.unzonedEnd ≤ start ∧ secs (advTo (tSec (start + 900)) s) < start + 1800) ∨ 0 < tget s.bal.unzoned start 0) :
    ∃ e, unzonedPost start s = postRec { seq := 0, rtype := 6, status := 5, zone := 0xFFFF, start := start, stop := start + 900,
                                         readings := tget (advTo (tSec (start + 900)) s).bal.unzoned start 0 }
      { advTo (tSec (start + 900)) s with bal := { (advTo (tSec (start + 900)) s).bal with
        unzoned := tdel (advTo (tSec (start + 900)) s).bal.unzoned start, unzonedEnd := e } } := by
  have hbal : (advTo (tSec (start + 900)) s).bal = s.bal := advTo_keeps State.bal (by intros; rfl) _ s
  unfold unzonedPost
  rw [if_neg (by simp [hstart, hpast])]
  generalize advTo (tSec (start + 900)) s = u at *
  refine ⟨_, if_pos ?_⟩
  rw [hbal]
  simpa using hdue

/-- R306: the horizon follows engine time. -/
theorem horizonAdvance_horizon (s : State) : (horizonAdvance s).bal.horizon = secs (horizonAdvance s) / 900 * 900 - 86400 := by
  unfold horizonAdvance
  exact horizonAdvance_eq _ s

/-! ### Zone opcodes (R301, R303, R310, R318) -/

theorem zoneLoad_refused {r : Req} {s : State} (h : zoneHeaderOk r.payload = false) : zoneLoad r s = refuse s .badParam := by
  unfold zoneLoad
  exact if_pos (by simp [h])

theorem zoneLoad_new {r : Req} {s : State} (hhead : zoneHeaderOk r.payload = true) (hfree : zone? s (rd r.payload 0 2) = none)
    (hmeters : (List.range (rd r.payload 52 1 + rd r.payload 54 2)).find? (fun i =>
      meterBad s r.payload (rd r.payload 0 2) (rd r.payload 6 1) (rd r.payload 48 4) (decide (i < rd r.payload 52 1)) i ||
      (((List.range (rd r.payload 52 1 + rd r.payload 54 2)).map (fun i => (meterAt r.payload i).handle)).take i).contains
        (((List.range (rd r.payload 52 1 + rd r.payload 54 2)).map (fun i => (meterAt r.payload i).handle)).getD i 0)) = none)
    (hroom : memberEntries s + rd r.payload 54 2 ≤ 1048576) :
    zoneLoad r s = replyOk (bringHorizon { s with bal := { s.bal with
      zones := tset s.bal.zones (rd r.payload 0 2) (zoneOf r.payload (secs s)) } }) := by
  unfold zoneLoad
  dsimp only
  rw [if_neg (by simp [hhead]), hmeters]
  dsimp only
  rw [hfree]
  exact if_neg (Nat.not_lt.2 hroom)

theorem zoneDrop_of_zone {r : Req} {x : Zone} {s : State} (hx : zone? s (rd r.payload 0 2) = some x) (hz : zeroAt r.payload 2 2 = true) :
    ∃ u, u = dropIntervals (rd r.payload 0 2) (openIntervals s x) s ∧
      zoneDrop r s = replyOk { u with bal := { u.bal with zones := tdel u.bal.zones (rd r.payload 0 2) } } := by
  refine ⟨_, rfl, ?_⟩
  unfold zoneDrop
  dsimp only
  rw [hx]
  exact if_neg (by simp [hz])

theorem zoneTolSet_of_legal {r : Req} {x : Zone} {s : State} (hx : zone? s (rd r.payload 0 2) = some x) (hpos : 0 < rd r.payload 2 2)
    (hf : rd r.payload 4 8 < 2 ^ 48) (hp : rd r.payload 12 4 ≤ 1000000) :
    zoneTolSet r s = replyOk (updZone (rd r.payload 0 2) (fun x =>
      { x with alert := rd r.payload 2 2, tolF := rd r.payload 4 8, tolP := rd r.payload 12 4, tolQ := rd r.payload 16 4 }) s) := by
  unfold zoneTolSet
  dsimp only
  rw [hx, if_neg (by simp; omega)]

theorem zoneGet_of_zone {r : Req} {x : Zone} {s : State} (hx : zone? s (rd r.payload 0 2) = some x) (hz : zeroAt r.payload 2 2 = true) :
    zoneGet r s = replyOk s (zoneHeader (rd r.payload 0 2) x ++ le 1 (b2n x.lost) ++ le 1 0 ++ le 2 x.score ++
      le 2 (openIntervals s x) ++ le 2 0 ++ le 4 x.postedEnd) := by
  unfold zoneGet
  dsimp only
  rw [hx]
  exact if_neg (by simp [hz])

theorem scoreReset_of_zone {r : Req} {x : Zone} {s : State} (hx : zone? s (rd r.payload 0 2) = some x) (hz : zeroAt r.payload 2 2 = true) :
    scoreReset r s = replyOk (updZone (rd r.payload 0 2) (fun x => { x with score := 0 }) s) := by
  unfold scoreReset
  dsimp only
  rw [hx, if_neg (by simp [hz])]

/-! ### The balance stream (R316) -/

theorem balExportStart_of_free {r : Req} {s : State} (hc : rd r.payload 0 1 < 32) (hz : zeroAt r.payload 1 3 = true) (hnone : s.bal.chan = none)
    (hbind : bindCheck (rd r.payload 0 1) s = none) :
    balExportStart r s = replyOk (bindChan (rd r.payload 0 1) .balance { s with bal := { s.bal with chan := some (rd r.payload 0 1) } }) := by
  unfold balExportStart
  dsimp only
  rw [if_neg (by simp [hz, hc]), if_neg (by simp [hnone]), hbind]

theorem balConfirm_passed {r : Req} {s : State} (h : rd r.payload 0 4 ≤ s.bal.conf) : balConfirm r s = replyOk s := by
  unfold balConfirm
  exact if_pos h

theorem balConfirm_ahead {r : Req} {s : State} (h : ¬ rd r.payload 0 4 ≤ s.bal.conf) (ha : balLastWritten s < rd r.payload 0 4) :
    balConfirm r s = refuse s .badParam := by
  unfold balConfirm
  exact (if_neg h).trans (if_pos ha)

theorem balConfirm_written {r : Req} {s : State} (h : ¬ rd r.payload 0 4 ≤ s.bal.conf) (ha : ¬ balLastWritten s < rd r.payload 0 4) :
    balConfirm r s = replyOk (
      let s1 := if (s.bal.held.find? (fun x => !x.written)).any (fun x => x.seq ≤ rd r.payload 0 4)
        then streamAnew .balance { s with bal.offset := 0 } else s
      { s1 with bal.conf := rd r.payload 0 4, bal.held := s1.bal.held.filter (fun x => rd r.payload 0 4 < x.seq) }) := by
  unfold balConfirm
  exact (if_neg h).trans (if_neg ha)

theorem balRewind_refused {r : Req} {s : State} (h : rd r.payload 0 4 ≤ s.bal.conf ∨ balLastWritten s < rd r.payload 0 4) :
    balRewind r s = refuse s .badParam := by
  unfold balRewind
  exact if_pos (by simpa using h)

theorem balRewind_written {r : Req} {s : State} (h : ¬ (rd r.payload 0 4 ≤ s.bal.conf ∨ balLastWritten s < rd r.payload 0 4)) :
    balRewind r s = replyOk { streamAnew .balance s with bal := { s.bal with
      offset := 0, held := s.bal.held.map (fun x => if rd r.payload 0 4 ≤ x.seq then { x with written := false } else x) } } := by
  unfold balRewind
  exact if_neg (by simpa using h)

/-! ### The restore (R288) -/

theorem ledgerRestoreStart_of_free {r : Req} {s : State} (hc : rd r.payload 0 1 < 32) (hz : zeroAt r.payload 1 3 = true)
    (hnone : s.ledger.restoreChan = none) (hbind : bindCheck (rd r.payload 0 1) s = none) :
    ledgerRestoreStart r s = replyOk (checkRestoreDone (restoreUnconfirmed (bindChan (rd r.payload 0 1) .restore { s with
      ledger := { s.ledger with restoreChan := some (rd r.payload 0 1), restore := 1, pending := some (pendingPages s) } }))) := by
  unfold ledgerRestoreStart
  dsimp only
  rw [if_neg (by simp [hz, hc]), if_neg (by simp [hnone]), hbind]

theorem restoreStart_of_free {r : Req} {s : State} (hc : rd r.payload 0 1 < 32) (hz : zeroAt r.payload 1 3 = true)
    (hnone : s.ledger.restoreChan = none) (hbind : bindCheck (rd r.payload 0 1) s = none) :
    restoreStart r s = replyOk (rebuildRestored s (checkRestoreDone (restoreUnconfirmed (bindChan (rd r.payload 0 1) .restore { s with
      ledger := { s.ledger with restoreChan := some (rd r.payload 0 1), restore := 1, pending := some (pendingPages s) } })))) := by
  unfold restoreStart
  rw [ledgerRestoreStart_of_free hc hz hnone hbind]
  rfl

section
variable {p : List Byte} {s : State} (hopen : restoreOpen s = true) (hdue : s.ledger.restoreDue ≠ 0)
include hopen hdue

/-- What is not the pending page in its confirmed version is rejected (log 153). -/
theorem restorePage_other (hbad : p.length ≠ 4096 ∨ rd p 0 2 ≠ 1 ∨ isPending s (rd p 2 2) = false) :
    restorePage p s = rejectPage p { s with ledger.restoreDue := s.ledger.restoreDue - 1 } := by
  have hrej : (p.length != 4096 || rd p 0 2 != 1 || !isPending s (rd p 2 2) || rd p 4 4 != confVer s (rd p 2 2)) = true := by
    rcases hbad with q | q | q <;> simp [q]
  unfold restorePage
  rw [if_neg (by simp [hopen, hdue])]
  exact if_pos hrej

/-- The pending page in its confirmed version is opened under the ledger key. -/
theorem restorePage_pending {key : List Byte} {u : State} {out : Option (List Byte)}
    (hu : u = { s with ledger.restoreDue := s.ledger.restoreDue - 1 }) (hlen : p.length = 4096) (hfmt : rd p 0 2 = 1)
    (hpend : isPending s (rd p 2 2) = true) (hver : rd p 4 4 = confVer s (rd p 2 2)) (hkey : domainKey .ledger s = some key)
    (hout : Config.gcmOpen key (slice p 28 12) (p.take 112) (p.drop 128 ++ slice p 112 16) = out) :
    restorePage p s = out.elim (rejectPage p u) fun body => checkRestoreDone (((bodySlots (rd p 20 2) body).zip (List.range 16)).foldl
      (fun s x => restoreSlot (16 * rd p 2 2 + x.2) x.1 (rd p 16 4) s)
      { u with ledger.pending := some ((pendingPages s).filter (· != rd p 2 2)) }) := by
  have hpend' : isPending u (rd p 2 2) = true := hu ▸ hpend
  have hver' : rd p 4 4 = confVer u (rd p 2 2) := hu ▸ hver
  have hkey' : domainKey .ledger u = some key := hu ▸ hkey
  have hpages : pendingPages u = pendingPages s := hu ▸ rfl
  unfold restorePage
  rw [if_neg (by simp [hopen, hdue])]
  dsimp only
  rw [← hu, if_neg (by simp [hlen, hfmt, hpend', ← hver']), hkey', hpages]
  dsimp only
  rw [hout]
  cases out with
  | none => rfl
  | some body =>
    subst hu
    dsimp only [Option.elim]

end

end Sys2Proof.Machine

open Sys2Proof Sys2Proof.Machine

/-- Settles O30 (log 155: a further UNZONED record for late entries, and C of a record without check meters; log 153: a rejected page's record and
event). -/
theorem balanceEffects : Obligations.BalanceEffects := by
  unfold Obligations.BalanceEffects
  refine ⟨?close, ?closed, ?revise, ?reviseAged, ?revision, ?unzoned, ?horizon, ?load, ?loadRefused, ?drop, ?tolerance, ?get, ?score, ?exportStart,
    ?confirm, ?rewind, ?status, ?restoreStart, ?page, ?pageOther⟩
  case close => exact fun z x s u hx hlost htrust hu hdue => congrArg Host.Outcome.next (intervalClose_of_due hx hlost htrust hu hdue)
  case closed => exact fun z a x s hx => closeInterval_effects hx
  case revise => exact fun z a t x s hx ht => congrArg Host.Outcome.next (revisionPost_interval hx ht)
  case reviseAged => exact fun z x a s hx ha => congrArg Host.Outcome.next (revisionPost_aged hx ha)
  case revision => exact fun z a rerun x s hx => postRevision_effects hx
  case unzoned =>
    intro start s hstart hpast hdue
    obtain ⟨e, he⟩ := unzonedPost_of_due hstart hpast hdue
    obtain ⟨r, hr⟩ := unzoned_eq (tSec (start + 900)) start s e
    exact ⟨_, r, congrArg Host.Outcome.next he, hr⟩
  case horizon => exact fun s => ⟨horizonAdvance s, rfl, horizonAdvance_horizon s⟩
  case load =>
    exact fun r s h hhead hfree hmeters hroom => congrArg Host.Outcome.next (serve_done zoneLoadService r s _ _ _ h
      (zoneLoad_new (s := taken r s) hhead hfree hmeters hroom))
  case loadRefused =>
    exact fun r s h hhead => congrArg Host.Outcome.next (serve_done zoneLoadService r s _ _ _ h (zoneLoad_refused (s := taken r s) hhead))
  case drop =>
    intro r x s h hx hz
    obtain ⟨u, hu, e⟩ := zoneDrop_of_zone (s := taken r s) hx hz
    exact ⟨u, hu, congrArg Host.Outcome.next (serve_done zoneDropService r s _ _ _ h e)⟩
  case tolerance =>
    exact fun r x s h hx hpos hf hp => congrArg Host.Outcome.next (serve_done zoneTolSetService r s _ _ _ h
      (zoneTolSet_of_legal (s := taken r s) hx hpos hf hp))
  case get =>
    exact fun r x s h hx hz => congrArg Host.Outcome.next (serve_done zoneGetService r s _ _ _ h (zoneGet_of_zone (s := taken r s) hx hz))
  case score =>
    exact fun r x s h hx hz => congrArg Host.Outcome.next (serve_done scoreResetService r s _ _ _ h (scoreReset_of_zone (s := taken r s) hx hz))
  case exportStart =>
    exact fun r s h hc hz hnone hbind => congrArg Host.Outcome.next (serve_done balExportStartService r s _ _ _ h
      (balExportStart_of_free (s := taken r s) hc hz hnone hbind))
  case confirm =>
    intro r s h
    refine congrArg Host.Outcome.next ?_
    by_cases hpass : rd r.payload 0 4 ≤ s.bal.conf
    · exact (serve_done balConfirmService r s _ _ _ h (balConfirm_passed (s := taken r s) hpass)).trans (if_pos hpass).symm
    · refine Eq.trans ?_ (if_neg hpass).symm
      by_cases hahead : balLastWritten s < rd r.payload 0 4
      · exact (serve_done balConfirmService r s _ _ _ h (balConfirm_ahead (s := taken r s) hpass hahead)).trans (if_pos hahead).symm
      · exact (serve_done balConfirmService r s _ _ _ h (balConfirm_written (s := taken r s) hpass hahead)).trans (if_neg hahead).symm
  case rewind =>
    intro r s h
    refine congrArg Host.Outcome.next ?_
    by_cases hout : rd r.payload 0 4 ≤ s.bal.conf ∨ balLastWritten s < rd r.payload 0 4
    · exact (serve_done balRewindService r s _ _ _ h (balRewind_refused (s := taken r s) hout)).trans (if_pos hout).symm
    · exact (serve_done balRewindService r s _ _ _ h (balRewind_written (s := taken r s) hout)).trans (if_neg hout).symm
  case status => exact fun r s h => congrArg Host.Outcome.next (serve_done balStatusGetService r s _ _ _ h rfl)
  case restoreStart =>
    exact fun r s h hc hz hnone hbind => congrArg Host.Outcome.next (serve_done ledgerRestoreStartService r s _ _ _ h
      (restoreStart_of_free (s := taken r s) hc hz hnone hbind))
  case page =>
    intro p key s u hopen hdue hu hlen hfmt hpend hver hkey
    refine congrArg (fun t => Host.Outcome.next (rebuildRestored s t)) ?_
    have e := restorePage_pending hopen hdue hu hlen hfmt hpend hver hkey rfl
    cases hout : Config.gcmOpen key (slice p 28 12) (p.take 112) (p.drop 128 ++ slice p 112 16) with
    | none =>
      rw [hout] at e
      exact e
    | some body =>
      rw [hout] at e
      dsimp only [Option.elim] at e
      exact e
  case pageOther =>
    exact fun p s hopen hdue hbad => congrArg (fun t => Host.Outcome.next (rebuildRestored s t)) (restorePage_other hopen hdue hbad)

end
